-- ==== Sys2Proof/Word.lean ====
section
/-! DEFINITION. The word types every other file uses (00_scope, Notation). Byte i of a wider value is its bits
[8i+7:8i]: multi-byte fields are little-endian unless their table says otherwise. -/

namespace Sys2Proof

/-- One byte. -/
abbrev Byte := BitVec 8

/-- One dword of a register block or mailbox. -/
abbrev Word := BitVec 32

/-- The 64 bytes of one logical line; byte i is bits [8i+7:8i] (R73). -/
abbrev Line := BitVec 512

/-- The 66 bytes that RS covers: payload, then the two metadata bytes (R89). -/
abbrev Line66 := BitVec 528

/-- The 80 bytes of one media line as stored: payload, metadata, check field (R315). -/
abbrev MediaLine := BitVec 640

end Sys2Proof
end

