-- ==== Sys2Proof/Syntax.lean ====
section
/-! DEFINITION. The commands of the BZ6400: one constructor per row of spec/opcode_table.json, in the table's
order, with the operands the rules give the row. Operands that number a unit are `Fin`s, so a command never
names a unit no variant has. -/

namespace Sys2Proof

/-- The path a command arrives on (R432). -/
inductive Caller where
  | host (port : Fin 4) (ld : Fin 16)
  | fm (port : Fin 4)
  | sideband
  deriving DecidableEq, Repr

/-- The fields of a media command packet but its opcode, which the row fixes (R224), with its group
select MCS_N (bit g low addresses group g, R226). -/
structure Pkt where
  cs : BitVec 2
  die : BitVec 4
  bank : BitVec 3
  block : BitVec 13
  addr : BitVec 17
  tag : BitVec 7
  arg : BitVec 8
  chk : BitVec 4
  deriving DecidableEq, Repr

/-- The 8-byte header of a return frame (R232). The row fixes KIND. -/
structure FrameHdr where
  tag : BitVec 7
  die : BitVec 4
  bank : BitVec 3
  bstate : BitVec 4
  hcrc : BitVec 8
  deriving DecidableEq, Repr

/-- What a peer-window write shows of its sender, its common header (R349, R396), and the CRC-32C that ends the message (R397);
PATCH_BATCH ends in its CHAIN instead, and the TIMETABLE row gives the CRC itself. -/
structure MsgHdr where
  pbr : BitVec 12
  span : BitVec 8
  ring : Bool
  src : BitVec 9
  dst : BitVec 9
  mseq : BitVec 48
  ackto : BitVec 48
  ftime : BitVec 64
  len : BitVec 32
  crc : BitVec 32
  deriving DecidableEq, Repr

/-- One 80-byte peer stream record (R361). -/
structure Record where
  lln : BitVec 40
  kind : BitVec 8
  mask : BitVec 64
  data : Line
  deriving DecidableEq, Repr

/-- The fields of PATCH_BATCH after the common header (R362). -/
structure Batch where
  firstRnum : BitVec 48
  bflags : BitVec 8
  bseq : BitVec 48
  ftime0 : BitVec 64
  records : List Record
  chain : BitVec 32
  deriving DecidableEq, Repr

/-- One map entry of a KIND 0x02 record (R389). -/
structure MapEntry where
  index : BitVec 16
  ld : BitVec 6
  valid : Bool
  mode : BitVec 2
  frame : BitVec 24
  length : BitVec 24
  lfn : BitVec 24
  deriving DecidableEq, Repr

/-- The body of RECON_DATA (R397): for BASE from a data member its old and new FOLD_SEQ and base lines; from a
holder its committed lines with the admitted member and which of its bases they include; for RECORD the
merged record; for MAP entries or a wrapped key. -/
structure ReconBody where
  oldSeq : BitVec 48
  newSeq : BitVec 48
  holder : Bool
  admitted : Option (Fin 16)
  includesNew : Bool
  lines : List Line
  newLines : List Line
  record : Option Record
  maps : List MapEntry
  key : List Byte
  deriving DecidableEq, Repr

/-- A run of LD frames: an extent or a static range (R47). -/
structure Extent where
  frame : BitVec 24
  count : BitVec 24
  deriving DecidableEq, Repr

/-- What a Transfer FW command does with its part, as CXL names the actions (R458). -/
inductive FwAction where
  | full | initiate | continue_ | finish | abort
  deriving DecidableEq, Repr

/-- What an IDE_KM message asks (R626). -/
inductive IdeOp where
  | keyProg | setGo | setStop | query
  deriving DecidableEq, Repr

/-- An answer of the board's hold-up controller (R556). -/
structure HoldupStatus where
  status : BitVec 8
  vbank : BitVec 16
  deriving DecidableEq, Repr

/-- A message offered to a block mailbox: TAG, dword count n, then dwords 1 to n (R481). -/
structure CmbMsg where
  tag : BitVec 8
  n : BitVec 8
  words : List Word
  deriving DecidableEq, Repr

/-- A message offered to a word mailbox: TAG and argument (R482). -/
structure QmbMsg where
  tag : BitVec 8
  arg : BitVec 40
  deriving DecidableEq, Repr

/-- The commands, in the order of spec/opcode_table.json. -/
inductive Instr where
  -- Host ports and CXL.mem
  | memRead (port : Fin 4) (ld : Fin 16) (hpa : BitVec 64) (tag : BitVec 16)
  | memWrite (port : Fin 4) (ld : Fin 16) (hpa : BitVec 64) (tag : BitVec 16) (data : Line) (be : BitVec 64) (poisoned : Bool)
  | writeCreditGrant (port : Fin 4) (ld : Fin 16)
  | strictAckTimeout (port : Fin 4) (ld : Fin 16) (tag : BitVec 16)
  | relaxedRecordStall (stream : Fin 2) (rnum : BitVec 48)
  | relaxedRecordExposed (stream : Fin 2) (rnum : BitVec 48)
  | dirtyAgeLimit (lln : BitVec 40)
  | perstAssert (grp : Fin 2)
  | perstDeassert (grp : Fin 2)
  | linkUp (port : Fin 4) (width : BitVec 8) (rate : BitVec 8) (flit256 : Bool) (mld : Bool)
  | surpriseLinkDown (port : Fin 4)
  | refclkLoss (grp : Fin 2)
  | powerStateChange (port : Fin 4) (ld : Fin 16) (d3hot : Bool)
  | ideIntegrityFailure (port : Fin 4)
  | gpfPhase1 (port : Fin 4)
  | gpfPhase2 (port : Fin 4)
  -- CXL and FM API commands
  | identifyMemoryDevice (c : Caller) (ldb : Byte)
  | getHealthInfo (c : Caller) (ldb : Byte)
  | getEventRecords (c : Caller) (ldb : Byte) (log : Fin 5)
  | clearEventRecords (c : Caller) (ldb : Byte) (log : Fin 5) (all : Bool) (handles : List (BitVec 16))
  | getEventInterruptPolicy (c : Caller) (ldb : Byte)
  | setEventInterruptPolicy (c : Caller) (ldb : Byte) (policy : BitVec 40)
  | getSupportedLogs (c : Caller) (ldb : Byte)
  | getLog (c : Caller) (ldb : Byte) (offset : BitVec 32) (length : BitVec 32)
  | getTimestamp (c : Caller) (ldb : Byte)
  | setTimestamp (c : Caller) (ldb : Byte) (value : BitVec 64)
  | getFwInfo (c : Caller) (ldb : Byte)
  | transferFw (c : Caller) (action : FwAction) (offset : BitVec 32) (data : List Byte)
  | activateFw (c : Caller) (online : Bool) (slot : BitVec 8)
  | getPoisonList (c : Caller) (ldb : Byte) (addr : BitVec 46) (length : BitVec 46)
  | injectPoison (c : Caller) (ldb : Byte) (addr : BitVec 46)
  | clearPoison (c : Caller) (ldb : Byte) (addr : BitVec 46) (data : Line)
  | sanitize (c : Caller) (ldb : Byte)
  | secureErase (c : Caller) (ldb : Byte)
  | getDynamicCapacityConfiguration (c : Caller) (ldb : Byte)
  | getDynamicCapacityExtentList (c : Caller) (ldb : Byte)
  | addDynamicCapacityResponse (c : Caller) (ldb : Byte) (exts : List Extent)
  | releaseDynamicCapacity (c : Caller) (ldb : Byte) (exts : List Extent)
  | unsupportedOpcode (c : Caller) (opcode : BitVec 16)
  | fmIdentify (c : Caller)
  | getLdInfo (c : Caller)
  | getLdAllocations (c : Caller) (port : Fin 4) (first : Fin 16) (count : BitVec 8)
  | setLdAllocations (c : Caller) (port : Fin 4) (first : Fin 16) (units : List (BitVec 32))
  | getQosControl (c : Caller) (port : Fin 4)
  | setQosControl (c : Caller) (port : Fin 4) (ctrl : BitVec 64)
  | getQosStatus (c : Caller) (port : Fin 4)
  | getQosAllocatedBw (c : Caller) (port : Fin 4) (first : Fin 16) (count : BitVec 8)
  | setQosAllocatedBw (c : Caller) (port : Fin 4) (first : Fin 16) (fracs : List Byte)
  | getQosBwLimit (c : Caller) (port : Fin 4) (first : Fin 16) (count : BitVec 8)
  | setQosBwLimit (c : Caller) (port : Fin 4) (first : Fin 16) (fracs : List Byte)
  | getDcRegionConfiguration (c : Caller) (ldb : Byte)
  | initiateDynamicCapacityAdd (c : Caller) (ldb : Byte) (ext : Extent) (extTag : Option (BitVec 128))
  | initiateDynamicCapacityRelease (c : Caller) (ldb : Byte) (ext : Extent)
  | getDcRegionExtentLists (c : Caller) (ldb : Byte)
  -- Merlas vendor opcodes: the raw input payload (R437 to R456)
  | unknownVendorOpcode (c : Caller) (opcode : BitVec 16) (inp : List Byte)
  | merlasIdentify (c : Caller) (inp : List Byte)
  | capQuery (c : Caller) (inp : List Byte)
  | jobStatus (c : Caller) (inp : List Byte)
  | unitQuery (c : Caller) (inp : List Byte)
  | unitList (c : Caller) (inp : List Byte)
  | unitTest (c : Caller) (inp : List Byte)
  | unitBypass (c : Caller) (inp : List Byte)
  | unitIsolate (c : Caller) (inp : List Byte)
  | unitReadmit (c : Caller) (inp : List Byte)
  | unitRetire (c : Caller) (inp : List Byte)
  | foldStatus (c : Caller) (inp : List Byte)
  | framePin (c : Caller) (inp : List Byte)
  | frameDiscard (c : Caller) (inp : List Byte)
  | cacheFlush (c : Caller) (inp : List Byte)
  | cacheInvalidate (c : Caller) (inp : List Byte)
  | ldCommitSet (c : Caller) (inp : List Byte)
  | spanQuery (c : Caller) (inp : List Byte)
  | poolGet (c : Caller) (inp : List Byte)
  | poolSet (c : Caller) (inp : List Byte)
  | spanJoin (c : Caller) (inp : List Byte)
  | spanUpdate (c : Caller) (inp : List Byte)
  | remountBind (c : Caller) (inp : List Byte)
  | spanLeave (c : Caller) (inp : List Byte)
  | unhitchRequest (c : Caller) (inp : List Byte)
  | timeQuery (c : Caller) (inp : List Byte)
  | timeMarkSet (c : Caller) (inp : List Byte)
  | timeConfig (c : Caller) (inp : List Byte)
  | ttConfig (c : Caller) (inp : List Byte)
  | powerQuery (c : Caller) (inp : List Byte)
  | powerTableSet (c : Caller) (inp : List Byte)
  | powerDown (c : Caller) (inp : List Byte)
  | powerUp (c : Caller) (inp : List Byte)
  | thermalQuery (c : Caller) (inp : List Byte)
  | thermalConfig (c : Caller) (inp : List Byte)
  | shutdownRecordClear (c : Caller) (inp : List Byte)
  | sboxQuery (c : Caller) (inp : List Byte)
  | sboxRead (c : Caller) (inp : List Byte)
  | optionWrite (c : Caller) (inp : List Byte)
  | calOverlayWrite (c : Caller) (inp : List Byte)
  | calOverlayClear (c : Caller) (inp : List Byte)
  | waybillRead (c : Caller) (inp : List Byte)
  | waybillRate (c : Caller) (inp : List Byte)
  | injectArm (c : Caller) (inp : List Byte)
  | injectDisarm (c : Caller) (inp : List Byte)
  | secQuery (c : Caller) (inp : List Byte)
  | plSet (c : Caller) (inp : List Byte)
  | ldKeyTransfer (c : Caller) (inp : List Byte)
  -- Jobs and units
  | jobEnd (job : BitVec 16) (ok : Bool)
  | plannedRemovalTimeout (job : BitVec 16)
  | unitTestTimeout (job : BitVec 16)
  | unitIdleEntry (unit : BitVec 24)
  -- Unit mailboxes; `none` serves the message already waiting in the mailbox
  | cmbEcho (slot : Fin 6) (ch : Fin 32) (m : Option CmbMsg)
  | cmbBankState (slot : Fin 6) (ch : Fin 32) (m : Option CmbMsg)
  | cmbInfo (slot : Fin 6) (ch : Fin 32) (m : Option CmbMsg)
  | cmbRawRead (slot : Fin 6) (ch : Fin 32) (m : Option CmbMsg) (err : BitVec 640)
  | qmbEcho (slot : Fin 6) (q : Fin 4) (m : Option QmbMsg)
  | qmbChannels (slot : Fin 6) (q : Fin 4) (m : Option QmbMsg)
  | qmbSuspCount (slot : Fin 6) (q : Fin 4) (m : Option QmbMsg)
  | qmbSkew (slot : Fin 6) (q : Fin 4) (m : Option QmbMsg)
  | qmbRsphiRead (q : Fin 4)
  | sidebandDwordRead (offset : BitVec 32)
  | sidebandDwordWrite (offset : BitVec 32) (data : Word)
  -- Registers
  | registerWrite (port : Fin 4) (offset : BitVec 24) (data : BitVec 64) (be : Byte)
  | timeNowloRead
  | timeMarkhiWrite (value : Word)
  | noticeFlagsRead
  | noticeDatahiRead
  | noticeCtrlMark
  | noticeCtrlRewind
  | noticeCtrlRelease (n : BitVec 16)
  -- Counter clears; `inc` marks the counters that increment in the same cycle (R154 and its like)
  | readstatCtrlClear (inc : Byte)
  | writestatCtrlClear (inc : Byte)
  | cacheCtrlClear (inc : Byte)
  | mchRetrainClear (ch : Fin 32) (inc : Byte)
  | mmstatCtrlClear (inc : Byte)
  | lpstatCtrlClear (inc : Byte)
  | spanstatCtrlClear (inc : Byte)
  | ttstatCtrlClear (inc : Byte)
  | strongboxCtrlClear (inc : Byte)
  | pwrCtrlClear (inc : Byte)
  | thrmstatCtrlClear (inc : Byte)
  | wbCtrlFlush
  | injCtrlArm
  | injCtrlDisarm
  | injectDurationEnd (point : BitVec 16) (unit : BitVec 24)
  -- Queue engine
  | queueWrite (q : Fin 64) (word : BitVec 64) (poison : Bool)
  | queueRead (q : Fin 64)
  | queueMark (q : Fin 64)
  | queueRewind (q : Fin 64)
  | queueRelease (q : Fin 64) (n : Word)
  | queueTailExpiry (q : Fin 64)
  -- Media command packets, as the stack of a channel receives them
  | read (ch : Fin 32) (p : Pkt)
  | refset (ch : Fin 32) (p : Pkt)
  | refload (ch : Fin 32) (p : Pkt) (data : BitVec 64)
  | prog (ch : Fin 32) (p : Pkt)
  | wdata (ch : Fin 32) (p : Pkt) (data : BitVec 1024)
  | fprog (ch : Fin 32) (p : Pkt) (data : MediaLine)
  | pfin (ch : Fin 32) (p : Pkt)
  | pabort (ch : Fin 32) (p : Pkt)
  | clear (ch : Fin 32) (p : Pkt) (stamp : BitVec 64)
  | susp (ch : Fin 32) (p : Pkt)
  | resume (ch : Fin 32) (p : Pkt)
  | srd (ch : Fin 32) (p : Pkt)
  | status (ch : Fin 32) (p : Pkt)
  | temp (ch : Fin 32) (p : Pkt)
  | ident (ch : Fin 32) (p : Pkt)
  | getf (ch : Fin 32) (p : Pkt)
  | setf (ch : Fin 32) (p : Pkt)
  | rdout (ch : Fin 32) (p : Pkt)
  | zqcal (ch : Fin 32) (p : Pkt)
  | catrain (ch : Fin 32) (p : Pkt)
  | wrpat (ch : Fin 32) (p : Pkt) (data : BitVec 1024)
  | rdpat (ch : Fin 32) (p : Pkt)
  | dreset (ch : Fin 32) (p : Pkt)
  | mediaUnknownOpcode (ch : Fin 32) (op : Byte) (p : Pkt)
  -- Ends of media operations, inside the stack
  | treadEnd (ch : Fin 32) (tag : BitVec 7) (err : BitVec 640)
  | tpbodyEnd (ch : Fin 32) (die : Fin 16) (bank : Fin 8)
  | tpfinEnd (ch : Fin 32) (die : Fin 16) (bank : Fin 8) (failAt : Option (BitVec 17))
  | tclearEnd (ch : Fin 32) (die : Fin 16) (bank : Fin 8) (ok : Bool)
  | tsuspEnd (ch : Fin 32) (die : Fin 16) (bank : Fin 8)
  | tinfoEnd (ch : Fin 32) (tag : BitVec 7)
  | tdrstEnd (ch : Fin 32) (die : Fin 16) (cleared : Bool)
  | tinitEnd (ch : Fin 32)
  -- Frames and events, as the Carter sequencer receives them
  | malertN (ch : Fin 32)
  | lineFrame (ch : Fin 32) (h : FrameHdr) (data : MediaLine)
  | infoFrame (ch : Fin 32) (h : FrameHdr) (payload : BitVec 128)
  | emptyFrame (ch : Fin 32) (h : FrameHdr)
  | progHeld (ch : Fin 32) (h : FrameHdr) (payload : BitVec 128)
  | progDone (ch : Fin 32) (h : FrameHdr) (payload : BitVec 128)
  | progFail (ch : Fin 32) (h : FrameHdr) (payload : BitVec 128)
  | clearDone (ch : Fin 32) (h : FrameHdr) (payload : BitVec 128)
  | clearFail (ch : Fin 32) (h : FrameHdr) (payload : BitVec 128)
  | suspended (ch : Fin 32) (h : FrameHdr) (payload : BitVec 128)
  | suspNoop (ch : Fin 32) (h : FrameHdr) (payload : BitVec 128)
  | readDenied (ch : Fin 32) (h : FrameHdr) (payload : BitVec 128)
  | illegal (ch : Fin 32) (h : FrameHdr) (payload : BitVec 128)
  | caCheck (ch : Fin 32) (h : FrameHdr) (payload : BitVec 128)
  | thermAlert (ch : Fin 32) (h : FrameHdr) (payload : BitVec 128)
  | dieFault (ch : Fin 32) (h : FrameHdr) (payload : BitVec 128)
  | paborted (ch : Fin 32) (h : FrameHdr) (payload : BitVec 128)
  | readTimeout (ch : Fin 32) (tag : BitVec 7)
  | holdLimit (ch : Fin 32) (die : Fin 16) (bank : Fin 8)
  | heldReadReroute (ch : Fin 32) (die : Fin 16) (bank : Fin 8)
  | channelTrainTimeout (ch : Fin 32)
  | zqcalTimer (ch : Fin 32)
  | spanReadTimeout (tag : BitVec 32)
  -- The timetable and media management
  | stageBoundary
  | foldBatchTimer
  | foldAgeTrigger (lfn : BitVec 24)
  | fastFrameIdleTimeout (lfn : BitVec 24)
  | checkpointImageStart
  | dirtyMapGeneration
  | patchLogRescanEnd
  | frameTableRestoreEnd (lfn : BitVec 24)
  | hbmRemapCopyEnd (hch : Fin 64)
  -- Twiekor messages and the span
  | heartbeat (h : MsgHdr) (state : BitVec 3) (lock : BitVec 2) (bound : BitVec 32) (live : BitVec 29) (admissions : List (BitVec 24)) (activating : Bool)
  | peerHeartbeatLoss (r : Fin 16)
  | majorityLoss
  | patchBatch (h : MsgHdr) (b : Batch)
  | patchRelease (h : MsgHdr) (rsnap : BitVec 48) (llns : List (BitVec 40))
  | deltaChunkRequest (h : MsgHdr) (lfn : BitVec 24) (t : BitVec 8) (foldSeq : BitVec 48)
  | deltaChunkData (h : MsgHdr) (lfn : BitVec 24) (t : BitVec 8) (foldSeq : BitVec 48) (chunk : Fin 64) (payload : List Line)
  | deltaChunkCommit (h : MsgHdr) (lfn : BitVec 24) (t : BitVec 8) (foldSeq : BitVec 48)
  | deltaChunkDone (h : MsgHdr) (lfn : BitVec 24) (t : BitVec 8) (foldSeq : BitVec 48)
  | deltaChunkAbort (h : MsgHdr) (lfn : BitVec 24) (t : BitVec 8) (foldSeq : BitVec 48)
  | deltaAckAdmitted (h : MsgHdr) (lfn : BitVec 24) (foldSeq : BitVec 48) (live : BitVec 29)
  | deltaAckBusy (h : MsgHdr) (lfn : BitVec 24) (foldSeq : BitVec 48) (live : BitVec 29)
  | deltaAckStaged (h : MsgHdr) (lfn : BitVec 24) (foldSeq : BitVec 48) (live : BitVec 29)
  | deltaAckCommitted (h : MsgHdr) (lfn : BitVec 24) (foldSeq : BitVec 48) (live : BitVec 29)
  | deltaAckDone (h : MsgHdr) (lfn : BitVec 24) (foldSeq : BitVec 48) (live : BitVec 29)
  | deltaAckAborted (h : MsgHdr) (lfn : BitVec 24) (foldSeq : BitVec 48) (live : BitVec 29)
  | deltaAckBatch (h : MsgHdr) (bseq : BitVec 48) (live : BitVec 29)
  | deltaAckResend (h : MsgHdr) (bseq : BitVec 48) (live : BitVec 29)
  | reconReadBase (h : MsgHdr) (tag : Word) (lfn : BitVec 24) (line : BitVec 16) (count : BitVec 11)
  | reconReadRecord (h : MsgHdr) (tag : Word) (lln : BitVec 40) (ward : BitVec 9)
  | reconReadMap (h : MsgHdr) (tag : Word) (ward : BitVec 9) (ldIndex : Byte) (certOk : Bool)
  | reconReadBulk (h : MsgHdr) (tag : Word) (lfn : BitVec 24) (line : BitVec 16) (count : BitVec 11)
  | reconData (h : MsgHdr) (tag : Word) (part : Byte) (parts : Byte) (status : BitVec 2) (body : ReconBody)
  | timetable (h : MsgHdr) (cycle : BitVec 64) (sgen : BitVec 48) (entries : List Word) (crc : Word)
  | unhitchMessage (h : MsgHdr) (cause : Byte) (rnums : List (BitVec 48))
  | peerCommandTimeout (job : BitVec 16) (peer : BitVec 9)
  -- Fabric time
  | ptmDialogTimer
  | ptmResponse (master : BitVec 64) (delayNs : Word)
  | timemarkEdge
  | ptmSampleLoss
  | timemarkLoss
  | holdoverLimit
  | lifeHourly
  | atiHourPoint
  | waybillFlushTimer
  | ceLeakStep
  -- Strongbox and VAUX
  | strongboxWriteDone
  | strongboxMarginRefresh (slot : BitVec 16) (weak : Bool)
  | vauxRise (mv : BitVec 12)
  | vauxLow (mv : BitVec 12)
  | vauxLoss
  | vauxBandChange (mv : BitVec 12)
  | sillReset
  | mgmtWatchdog
  -- Power sequencer
  | pfNAssert
  | pfNRelease
  | seqInHigh
  | seqInLow
  | cascadeStep
  | railEnable (r : Fin 32)
  | railDisable (r : Fin 32)
  | pgGood (r : Fin 32)
  | pgLost (r : Fin 32)
  | pgGlitch (r : Fin 32)
  | railPgTimeout (r : Fin 32)
  | railOffTimeout (r : Fin 32)
  | minoffEnd
  | vcoreTrimStep (answered : Bool)
  | holdupStepDone (vbank : BitVec 16) (dq : Word) (fault : Bool)
  | holdupMeasureTimeout
  | holdupMonitor (answer : Option HoldupStatus)
  | flushStepEnd (us : BitVec 24)
  -- Thermal
  | thermalSample (readings : List (Option (BitVec 16)))
  | thermalHalfGrace
  | thermalGraceExpiry
  | brakeFractionStep
  | sensorReadingTimeout (s : Fin 64)
  -- Start-up
  | startPhaseEnd (hbmTrained : BitVec 4)
  -- SPDM, IDE
  | getVersion (port : Fin 4)
  | getCapabilities (port : Fin 4) (flags : Word)
  | negotiateAlgorithms (port : Fin 4) (supported : Bool)
  | getDigests (port : Fin 4)
  | getCertificate (port : Fin 4) (slot : Byte) (offset : BitVec 16) (length : BitVec 16)
  | challenge (port : Fin 4) (slot : Byte) (nonce : BitVec 256)
  | getMeasurements (port : Fin 4) (index : Byte) (nonce : Option (BitVec 256))
  | keyExchange (port : Fin 4) (reqSession : BitVec 16) (exchange : List Byte)
  | finish (port : Fin 4) (session : Word) (verifyOk : Bool)
  | keyUpdate (port : Fin 4) (session : Word) (op : Byte)
  | spdmHeartbeat (port : Fin 4) (session : Word)
  | endSession (port : Fin 4) (session : Word)
  | ideKm (port : Fin 4) (session : Word) (op : IdeOp) (sub : Byte) (key : BitVec 256)
  -- Rows added at the table's end
  | patternFrame (ch : Fin 32) (h : FrameHdr) (pattern : BitVec 1024) (center0 center1 : Byte) (margin : Byte)
  | hdmDecoderCommit (port : Fin 4) (ld : Fin 16) (dec : Fin 4) (base size : BitVec 64) (ways : BitVec 8) (gran : BitVec 16) (pos : BitVec 4) (dpaSkip : BitVec 46)
  | bankCharged (vbank vmin : BitVec 16) (eff : Byte)
  | reserveCharged
  | refclkReturn (grp : Fin 2)
  | warmResetEnd
  | tzqEnd (ch : Fin 32)
  | mediaPllLock (ch : Fin 32)
  | unknownMsg (slot : Fin 6) (target : Sum (Fin 32) (Fin 4)) (msg : BitVec 16) (tag : BitVec 8)
  deriving DecidableEq, Repr

end Sys2Proof
end

