-- ==== Sys2Proof/Machine/Crc.lean ====
section
/-! DEFINITION. The cyclic check codes of R668, bit by bit over bytes given as numbers. -/

namespace Sys2Proof.Machine

/-- `f` applied `n` times. -/
def times {α : Type} : Nat → (α → α) → α → α
  | 0, _, a => a
  | n + 1, f, a => times n f (f a)

/-- One bit of a code whose register holds `w` bits and is not reflected. -/
def crcMsbBit (w poly c : Nat) : Nat :=
  bif (c >>> (w - 1)) % 2 == 1 then ((c <<< 1) ^^^ poly) % 2 ^ w else (c <<< 1) % 2 ^ w

/-- CRC-16 of R668. -/
def crc16 (bytes : List Nat) : Nat :=
  bytes.foldl (fun c b => times 8 (crcMsbBit 16 0x1021) (c ^^^ (b <<< 8))) 0xFFFF

/-- CRC-8 of R668 (HCRC of R232). -/
def crc8 (bytes : List Nat) : Nat :=
  bytes.foldl (fun c b => times 8 (crcMsbBit 8 0x07) (c ^^^ b)) 0

/-- One bit of the reflected CRC-32C register. -/
def crcLsbBit (c : Nat) : Nat :=
  bif c % 2 == 1 then (c >>> 1) ^^^ 0x82F63B78 else c >>> 1

/-- CRC-32C of R668. -/
def crc32c (bytes : List Nat) : Nat :=
  bytes.foldl (fun c b => times 8 crcLsbBit (c ^^^ b)) 0xFFFFFFFF ^^^ 0xFFFFFFFF

/-- The low `n` bytes of a number, lowest first. -/
def leBytes : Nat → Nat → List Nat
  | 0, _ => []
  | n + 1, v => v % 256 :: leBytes n (v / 256)

/-- The number whose bytes, lowest first, are given. -/
def ofLe : List Nat → Nat
  | [] => 0
  | b :: bs => b % 256 + 256 * ofLe bs

end Sys2Proof.Machine
end

