-- ==== Sys2Proof/Machine/Aes.lean ====
section
/-! DEFINITION. AES-256 and its XTS mode over one line (R607), on bytes as numbers. FIPS 197 and IEEE 1619, which R607
names, fix it. -/

namespace Sys2Proof.Machine

/-- Product with x in GF(2⁸) of AES. -/
def aesXtime (a : Nat) : Nat := bif Nat.ble a 127 then 2 * a else (2 * a) ^^^ 0x11B

/-- Product in GF(2⁸) of AES. -/
def aesMul (a b : Nat) : Nat :=
  (times 8 (fun (t : Nat × Nat × Nat) =>
    (aesXtime t.1, t.2.1 / 2, bif t.2.1 % 2 == 1 then t.2.2 ^^^ t.1 else t.2.2)) (a, b, 0)).2.2

/-- a²⁵⁴ in GF(2⁸), the inverse of a nonzero a. -/
def aesInv (a : Nat) : Nat :=
  let a2 := aesMul a a
  let a3 := aesMul a2 a
  let a6 := aesMul a3 a3
  let a12 := aesMul a6 a6
  let a15 := aesMul a12 a3
  let a30 := aesMul a15 a15
  let a60 := aesMul a30 a30
  let a120 := aesMul a60 a60
  let a126 := aesMul a120 a6
  let a127 := aesMul a126 a
  aesMul a127 a127

/-- A byte rotated left by n. -/
def rotl8 (n a : Nat) : Nat := ((a <<< n) ||| (a >>> (8 - n))) % 256

/-- The affine map of the S-box. -/
def aesAffine (b : Nat) : Nat := b ^^^ rotl8 1 b ^^^ rotl8 2 b ^^^ rotl8 3 b ^^^ rotl8 4 b ^^^ 0x63

/-- The inverse of `aesAffine`. -/
def aesAffineInv (b : Nat) : Nat := rotl8 1 b ^^^ rotl8 3 b ^^^ rotl8 6 b ^^^ 0x05

/-- The AES S-box and its inverse. -/
def aesSbox (a : Nat) : Nat := aesAffine (aesInv a)

def aesSboxInv (a : Nat) : Nat := aesInv (aesAffineInv a)

/-- SubWord of four bytes, and RotWord. -/
def aesSubWord (w : List Nat) : List Nat := w.map aesSbox

def aesRotWord (w : List Nat) : List Nat := w.drop 1 ++ w.take 1

def xorBytes (a b : List Nat) : List Nat := List.zipWith (· ^^^ ·) a b

/-- One word of the AES-256 key schedule: `i` is its number, the words so far are newest first. -/
def aesKeyWord (i : Nat) (ws : List (List Nat)) : List Nat :=
  let prev := ws.headD []
  let old := ws.getD 7 []
  if i % 8 = 0 then
    xorBytes old (xorBytes (aesSubWord (aesRotWord prev)) [times (i / 8 - 1) aesXtime 1, 0, 0, 0])
  else if i % 8 = 4 then xorBytes old (aesSubWord prev)
  else xorBytes old prev

/-- The words of the key schedule after `n` more than the first eight, newest first. -/
def aesSchedule (key : List Nat) : Nat → List (List Nat)
  | 0 => ((List.range 8).map (fun i => (key.drop (4 * i)).take 4)).reverse
  | n + 1 => let ws := aesSchedule key n; aesKeyWord (n + 8) ws :: ws

/-- The 15 round keys of 16 bytes. -/
def aesRoundKeys (key : List Nat) : List (List Nat) :=
  let ws := (aesSchedule key 52).reverse
  (List.range 15).map (fun r => ((ws.drop (4 * r)).take 4).flatten)

/-- ShiftRows and its inverse on the 16 bytes in column order. -/
def aesShiftRows (b : List Nat) : List Nat :=
  [0, 5, 10, 15, 4, 9, 14, 3, 8, 13, 2, 7, 12, 1, 6, 11].map (fun i => b.getD i 0)

def aesShiftRowsInv (b : List Nat) : List Nat :=
  [0, 13, 10, 7, 4, 1, 14, 11, 8, 5, 2, 15, 12, 9, 6, 3].map (fun i => b.getD i 0)

/-- One column times the circulant matrix whose first row is c. -/
def aesMixColumn (c col : List Nat) : List Nat :=
  (List.range 4).map (fun r =>
    (List.range 4).foldl (fun x k => x ^^^ aesMul (c.getD ((k + 4 - r) % 4) 0) (col.getD k 0)) 0)

def aesMixColumns (c b : List Nat) : List Nat :=
  ((List.range 4).map (fun i => aesMixColumn c ((b.drop (4 * i)).take 4))).flatten

/-- One block encrypted under the round keys. -/
def aesEncrypt (rk : List (List Nat)) (b : List Nat) : List Nat :=
  let mid := (List.range 13).foldl
    (fun x r => xorBytes (aesMixColumns [2, 3, 1, 1] (aesShiftRows (x.map aesSbox))) (rk.getD (r + 1) []))
    (xorBytes b (rk.getD 0 []))
  xorBytes (aesShiftRows (mid.map aesSbox)) (rk.getD 14 [])

/-- One block decrypted under the round keys. -/
def aesDecrypt (rk : List (List Nat)) (b : List Nat) : List Nat :=
  let mid := (List.range 13).foldl
    (fun x r => aesMixColumns [14, 11, 13, 9] (xorBytes ((aesShiftRowsInv x).map aesSboxInv) (rk.getD (13 - r) [])))
    (xorBytes b (rk.getD 14 []))
  xorBytes ((aesShiftRowsInv mid).map aesSboxInv) (rk.getD 0 [])

/-- The tweak times α in GF(2¹²⁸), the tweak a number of 16 little-endian bytes. -/
def xtsAlpha (t : Nat) : Nat :=
  bif t >>> 127 == 1 then ((t <<< 1) % 2 ^ 128) ^^^ 0x87 else t <<< 1

/-- XTS over the four blocks of a line: `f` is the block cipher of key 1. -/
def xtsBlocks (f : List Nat → List Nat) : Nat → Nat → List Nat → List Nat
  | 0, _, _ => []
  | n + 1, t, bs =>
    let tb := leBytes 16 t
    xorBytes (f (xorBytes (bs.take 16) tb)) tb ++ xtsBlocks f n (xtsAlpha t) (bs.drop 16)

/-- The ciphertext of a line under a key pair: key 1 in the low half, key 2 in the high half (R607). -/
def xtsEncrypt (key : BitVec 512) (dpa : Nat) (p : Line) : Line :=
  let k := leBytes 64 key.toNat
  let t := ofLe (aesEncrypt (aesRoundKeys (k.drop 32)) (leBytes 16 dpa))
  BitVec.ofNat 512 (ofLe (xtsBlocks (aesEncrypt (aesRoundKeys (k.take 32))) 4 t (leBytes 64 p.toNat)))

/-- The plaintext of a line (R607). -/
def xtsDecrypt (key : BitVec 512) (dpa : Nat) (c : Line) : Line :=
  let k := leBytes 64 key.toNat
  let t := ofLe (aesEncrypt (aesRoundKeys (k.drop 32)) (leBytes 16 dpa))
  BitVec.ofNat 512 (ofLe (xtsBlocks (aesDecrypt (aesRoundKeys (k.take 32))) 4 t (leBytes 64 c.toNat)))

end Sys2Proof.Machine
end

