-- ==== Sys2Proof/Config.lean ====
section
/-! DEFINITION. The free values and the functions the manual names but does not define: opaque constants, so no proof
can rest on a value of theirs. -/

namespace Sys2Proof.Config

/-- The n-th free value drawn, as a number; cut to the width the place needs. Stands for every value the manual leaves
open, the random source and the DRBG of the security engine (R98, R193, R197, R237, R243, R248, R608). -/
opaque freeNat : Nat → Nat

/-- The n-th free choice between two outcomes the manual allows. -/
opaque freeBool : Nat → Bool

/-- The factory trim of a threshold of a die in reference steps, threshold k of die d at 8 × d + k: T1 to T7, then TF (R246).
The spec gives no trims: they are free (DESIGN CHOICE, log entry 94). -/
opaque dieTrim : Nat → BitVec 8

/-- How many raw cells of a drift reference line read on the wrong side of a threshold: the line as read, the line as written, the threshold.
How bits lie in cells is not stated (R305, R306). -/
opaque wrongCells : BitVec 640 → BitVec 640 → Nat → Nat

/-- Where the HBM layout of a start puts the n-th place: a number whose residues name the HBM channel and the block (R675). -/
opaque hbmSpot : Nat → Nat → Nat

/-- The core voltage in mV fused for the die at test (R656): read through `vcoreTarget` of Machine/Ops.lean. -/
opaque vcoreFuse : Nat

/-- The SHA-384 digest of some bytes, as the manual's attestation uses it (R622, R625). -/
opaque sha384 : List Byte → List Byte

/-- The contents of the two boot ROMs and the SHA-384 of the golden image's signed bytes, which the device measures (R625). -/
opaque sillRom : List Byte
opaque mainRom : List Byte
opaque goldenDigest : List Byte

/-- A signature over some bytes under the device's attestation key (R624, R625). -/
opaque sign : List Byte → List Byte

/-- The certificate chain of slot 0 (R624, R625). -/
opaque certChain : List Byte

/-- A key wrapped under the root key of a generation, or under a span wrapping key (R609, R613, R616). -/
opaque wrap : Nat → Nat → List Byte

/-- The key a wrapped key unwraps to under a root key generation or wrapping key (R609, R613, R616). -/
opaque unwrap : Nat → List Byte → BitVec 512

/-- Whether the SHA-384 of a public key is one of the four fused key hashes whose revoke fuse is not blown (R622). -/
opaque keyFused : List Byte → Bool

/-- Whether a signature over some bytes verifies under a public key (R595, R613, R620). -/
opaque verify : List Byte → List Byte → List Byte → Bool

end Sys2Proof.Config
end

