-- ==== Sys2Proof/Machine/State.lean ====
section
/-! DEFINITION. The BZ6400's state as plain data: every register, buffer, table, mode and pin the spec gives the
block, the board parts its rules describe (media stacks, rails, hold-up bank), and the queue of waiting commands.
Sparse tables are `SMap`s: (key, value) lists with keys strictly rising and no entry equal to the table's default. -/

namespace Sys2Proof.Machine

/-- A sparse table keyed by a number. The default an unlisted key reads as is given where the table is read. -/
abbrev SMap (α : Type) := List (Nat × α)

/-! ## Time and timetable -/

/-- Time states of R403. -/
inductive TimeMode where
  | freeRun | locked | holdover
  deriving DecidableEq, Repr

/-- Time sources of R404. -/
inductive TimeSrc where
  | none | ptm | timemark
  deriving DecidableEq, Repr

/-- One step log entry (R409): the signed change in µs, SCSEQ, UNB. -/
structure StepEntry where
  deltaUs : Int
  scseq : BitVec 48
  unb : Bool
  deriving DecidableEq, Repr

/-- FTIME and its discipline (R402 to R412, R430). B is `bBase` + growth since `bSince` (R403). -/
structure TimeSt where
  ftime : BitVec 64 := 0
  mode : TimeMode := .freeRun
  source : TimeSrc := .none
  bBaseNs : Nat := 0
  bSince : BitVec 64 := 0
  unbounded : Bool := true
  disciplined : Bool := false
  goodRun : Nat := 0
  badRun : Nat := 0
  ptmGood : Bool := false
  markGood : Bool := false
  slewNs : Int := 0
  offsetNs : BitVec 32 := 0
  nowHi : BitVec 32 := 0
  markVal : BitVec 64 := 0
  markValid : Bool := false
  cfgSrc : BitVec 2 := 0
  cfgSrcUse : BitVec 2 := 0
  cfgPtmPort : BitVec 2 := 0
  holdLim : BitVec 13 := 0x7D
  ptmEnable : BitVec 4 := 0xF
  ptmPending : Bool := false
  steps : List StepEntry := [⟨0, 0, true⟩]
  deriving DecidableEq, Repr

/-- A received TIMETABLE map (R428). -/
structure TtMap where
  cycle : BitVec 64
  sgen : BitVec 48
  src : Nat
  arrived : BitVec 64
  entries : List (BitVec 32)
  deriving DecidableEq, Repr

/-- A planned removal (R420): waiting, or admitted and leaving service at the next boundary. -/
structure Removal where
  unit : BitVec 24
  job : Option (BitVec 16)
  admitted : Bool
  held : Bool
  deriving DecidableEq, Repr

/-- The timetable (R413 to R431). -/
structure TtSt where
  stage : Nat := 0
  bgMax : BitVec 7 := 0x30
  bgFloor : BitVec 7 := 4
  thermCap : BitVec 7 := 0x40
  current : BitVec 7 := 0
  clearPerDie : BitVec 3 := 2
  inbound : BitVec 8 := 0x64
  lead : BitVec 4 := 0
  noLead : Bool := true
  heavy : BitVec 16 := 0
  mapSrc : Bool := false
  maps : List TtMap := []
  groupW : SMap Nat := []
  removals : List Removal := []
  windows : BitVec 32 := 0
  rerouted : BitVec 32 := 0
  waited : BitVec 32 := 0
  deriving DecidableEq, Repr

/-! ## Units, jobs, mailboxes -/

/-- Unit states of R466, with their codes. -/
inductive UState where
  | absent | off | idle | ready | degraded | testing | bypassed | isolated | retired
  deriving DecidableEq, Repr

/-- What a unit holds of its own (R448, R469). -/
structure UnitRec where
  st : UState := .ready
  reason : BitVec 8 := 0
  since : BitVec 64 := 0
  test : BitVec 32 := 0
  deriving DecidableEq, Repr

/-- What a job does (R444): the command's opcode says the rest. -/
inductive JobKind where
  | unitTest (unit : BitVec 24) (destructive : Bool) (before : UState)
  | unitBypass (unit : BitVec 24)
  | unitIsolate (unit : BitVec 24)
  | unitReadmit (unit : BitVec 24)
  | unitRetire (unit : BitVec 24)
  | pin (lfn : Nat)
  | discard (lfns : List Nat)
  | flush (lines : List Nat) (inval : Bool) (scope : List (Nat × Nat))
  | spanJoin
  | remount
  | spanLeave
  | powerUp
  | lower
  | keyTransfer (ld : Nat) (remount : Nat)
  deriving DecidableEq, Repr

/-- A job, running or ended (R444). -/
structure Job where
  id : BitVec 16
  opcode : BitVec 16
  caller : Caller
  kind : JobKind
  progress : Nat
  done : Bool
  mstat : BitVec 16
  endedAt : BitVec 64
  deriving DecidableEq, Repr

/-- A block mailbox of one sender slot (R480, R481). -/
structure Cmb where
  data : List (BitVec 32) := List.replicate 16 0
  go : Bool := false
  overrun : Bool := false
  result : BitVec 8 := 0
  deriving DecidableEq, Repr

/-- A word mailbox of one sender slot (R480, R482). -/
structure Qmb where
  reqLo : BitVec 32 := 0
  reqHi : BitVec 32 := 0
  rspLo : BitVec 32 := 0
  rspHi : BitVec 32 := 0
  reqFull : Bool := false
  rspFull : Bool := false
  overrun : Bool := false
  deriving DecidableEq, Repr

/-- Units, jobs and mailboxes (R444 to R484). -/
structure UnitSt where
  units : SMap UnitRec := []
  running : List Job := []
  ended : List Job := []
  nextJob : BitVec 16 := 1
  cmb : SMap Cmb := []
  qmb : SMap Qmb := []
  suspCount : BitVec 32 := 0
  skewNs : BitVec 32 := 0
  deriving DecidableEq, Repr

/-! ## Host ports and logical devices -/

/-- SPDM connection state of a port's responder (R625). -/
inductive SpdmStage where
  | start | version | caps | algs | handshake (session : BitVec 32) | session (session : BitVec 32)
  deriving DecidableEq, Repr

/-- An entry of an MSI-X table as PCIe lays it out: message address and data, and the vector's mask (R34, R630). -/
structure VecEntry where
  addr : BitVec 64 := 0
  data : BitVec 32 := 0
  masked : Bool := false
  deriving DecidableEq, Repr

/-- MSI-X of a function: its enable and mask, the table's 32 vectors, the pending bits (R34, R630).
The command table has no row by which a host programs them, so they stand enabled and unmasked, as a host leaves them before a message
is due (DESIGN CHOICE, log entry 102). -/
structure Msix where
  enabled : Bool := true
  masked : Bool := false
  table : List VecEntry := List.replicate 32 {}
  pending : BitVec 32 := 0
  deriving DecidableEq, Repr

/-- AER of a port: the status and mask registers of PCIe, with the severity of the uncorrectable errors (R34). Layout and reset values are
PCIe's (PRESUMED, log entry 102). -/
structure Aer where
  uncStatus : BitVec 32 := 0
  uncMask : BitVec 32 := 0x00400000
  uncSeverity : BitVec 32 := 0x00462030
  corStatus : BitVec 32 := 0
  corMask : BitVec 32 := 0x00006000
  deriving DecidableEq, Repr

/-- One port and its links (R25 to R36, R70, R625, R626). -/
structure Port where
  up : Bool := false
  width : BitVec 8 := 0
  rate : BitVec 8 := 0
  flit256 : Bool := false
  mld : Bool := false
  perst : Bool := true
  refclk : Bool := true
  idleLanes : Bool := false
  ideActive : Bool := false
  ideKeys : SMap (BitVec 256) := []
  spdm : SpdmStage := .start
  qosCtrl : BitVec 64 := 0
  aer : Aer := {}
  deriving DecidableEq, Repr

/-- A range map entry (R40). `dc` marks a dynamic capacity extent. -/
structure Range where
  frame : Nat
  length : Nat
  lfn : Nat
  dc : Bool
  deriving DecidableEq, Repr

/-- An HDM decoder (R45). -/
structure Decoder where
  base : Nat := 0
  size : Nat := 0
  ways : Nat := 0
  gran : Nat := 0
  pos : Nat := 0
  dpaBase : Nat := 0
  committed : Bool := false
  error : Bool := false
  deriving DecidableEq, Repr

/-- Where a poisoned line's poison came from (R59). -/
inductive PoisonSrc where
  | internal | external | injected
  deriving DecidableEq, Repr

/-- Commit modes of R161. -/
inductive CommitMode where
  | loc | relaxed | strict
  deriving DecidableEq, Repr

/-- A CXL event record as the logs hold it (R509): its handle, the Waybill code and sequence behind it, and its
parameters. -/
structure EvRec where
  handle : BitVec 16
  code : BitVec 16
  seq : BitVec 32
  p0 : BitVec 64
  p1 : BitVec 64
  deriving DecidableEq, Repr

/-- A background sanitize or secure erase of an LD (R621). -/
structure EraseOp where
  secure : Bool
  zeroLeft : List Nat
  clearLeft : List Nat
  deriving DecidableEq, Repr

/-- One host LD (R37 to R52, R59, R60, R65, R72, R161, R458). `extents` are the accepted extents, `offered` those offered and not yet
answered, `redo` releases that a power failure cut short (R51). -/
structure Ld where
  ranges : List Range := []
  extents : List (Nat × Nat) := []
  offered : List Extent := []
  offeredLfns : List Nat := []
  decoders : List Decoder := List.replicate 4 {}
  mode : CommitMode := .loc
  exposedOut : List (Nat × BitVec 48) := []
  exposedRec : List (Nat × BitVec 48) := []
  poison : List (Nat × PoisonSrc) := []
  poisonOverflow : Bool := false
  unlisted : List Nat := []
  logs : List (List EvRec) := List.replicate 5 []
  logOverflow : List Bool := List.replicate 5 false
  nextHandle : BitVec 16 := 1
  policy : BitVec 40 := 0
  tsOffset : Option (BitVec 64) := none
  erase : Option EraseOp := none
  heldRelease : List (Caller × List Extent) := []
  redo : List (List Extent) := []
  qosAlloc : BitVec 8 := 0
  qosLimit : BitVec 8 := 0
  d3hot : Bool := false
  cdatChanged : Bool := false
  credits : Nat := 0
  keyState : Bool := false
  kgen : BitVec 48 := 0
  key : BitVec 512 := 0
  keyLost : Bool := false
  deriving DecidableEq, Repr

/-- Why an accepted CXL.mem request has not been answered yet. -/
inductive ReqWait where
  | media            -- a read waiting for its line, from media or through the span
  | strict (rnums : List (Nat × BitVec 48))  -- a Strict write waiting for every outrider (R161)
  | through          -- a write in write-through mode waiting for its line to be clean (R176)
  | hbm              -- a read of an HBM block in copy, waiting for the entry to be committed (R214)
  deriving DecidableEq, Repr

/-- An accepted, unanswered CXL.mem request (R66), with the FTIME of its arrival. -/
structure Req where
  id : Nat
  port : Nat
  ld : Nat
  tag : BitVec 16
  write : Bool
  lln : Nat
  wait : ReqWait
  writeSeen : Bool
  since : BitVec 64
  deriving DecidableEq, Repr

/-- Media Status (R592, R605). -/
inductive MediaStatus where
  | notReady | ready | error
  deriving DecidableEq, Repr

/-- The host side as a whole. `gpf` lists the GPF Phase 2 requests not yet acknowledged with the writes they wait for (R56). -/
structure HostSt where
  ports : List Port := List.replicate 4 {}
  lds : List Ld := List.replicate 64 {}
  reqs : List Req := []
  nextReq : Nat := 0
  gpf : List (Nat × List Nat) := []
  laneCfg : BitVec 2 := 0
  dirtyShutdowns : BitVec 32 := 0
  memoryActive : Bool := false
  mediaStatus : MediaStatus := .notReady
  mailboxReady : Bool := false
  mgmtReset : Bool := false
  creditsHeld : Bool := false
  unhitched : Bool := false
  volErrors : BitVec 32 := 0
  perErrors : BitVec 32 := 0
  deriving DecidableEq, Repr

/-! ## Caches -/

/-- Near Cache way states of R190. -/
inductive NcState where
  | invalid | clean | dirty | partial_
  deriving DecidableEq, Repr

/-- A Near Cache way (R188): `bad` marks the 32-bit groups whose parity fails, `tagBad` a tag whose parity fails. -/
structure NcWay where
  st : NcState := .invalid
  lln : Nat := 0
  data : Line := 0
  mask : BitVec 64 := 0
  busy : Bool := false
  bad : BitVec 16 := 0
  tagBad : Bool := false
  since : BitVec 64 := 0
  deriving DecidableEq, Repr

/-- A page tag of the page array (R197). -/
structure PageTag where
  page : Nat := 0
  valid : BitVec 64 := 0
  inUse : Bool := false
  deriving DecidableEq, Repr

/-- A dirty region slot or stash line (R198, R200); `bucket` is none in the stash. -/
structure DSlot where
  bucket : Option Nat
  partial_ : Bool
  draining : Bool
  redirty : Bool
  since : BitVec 64
  mask : BitVec 64
  data : Line
  deriving DecidableEq, Repr

/-- A remap entry of an HBM channel (R214). -/
structure RemapEnt where
  valid : Bool := false
  block : BitVec 20 := 0
  deriving DecidableEq, Repr

/-- The 32-byte units of the HBM by what they hold (R196 to R199, R211): a dirty slot's line, its tag and its tag copy; a line and the tag
of a page way; a Frame Residency entry; a Frame Table image entry; a Patch Index entry. -/
inductive HbmUnit where
  | slotLine (lln : Nat)
  | slotTag (lln : Nat)
  | slotCopy (lln : Nat)
  | pageLine (lln : Nat)
  | pageTag (way : Nat)
  | residency (lfn : Nat)
  | image (lfn : Nat)
  | index (key : Nat)
  | summary (lfn : Nat)
  deriving DecidableEq, Repr

/-- A latent HBM error: the damaged unit, and whether its ECC cannot correct it (R211, R212). -/
structure HbmErr where
  unit : HbmUnit
  uncorrectable : Bool
  deriving DecidableEq, Repr

/-- Both caches and their statistics (R188 to R220). `tagLost` holds the frames of slots whose tag and copy failed (R212), `corrections`
the times of the corrections of the last 24 h by HBM channel and block (R214), `hbmScrub` the FTIME of the last full read of the HBM
(R213). -/
structure CacheSt where
  near : SMap NcWay := []
  lfsrNear : BitVec 32 := 1
  lfsrTag : BitVec 32 := 1
  lfsrPage : BitVec 32 := 1
  pages : SMap PageTag := []
  pageData : SMap Line := []
  dirty : SMap DSlot := []
  kp : BitVec 40 := 0
  k1 : BitVec 40 := 0
  k2 : BitVec 40 := 0
  nBuckets : Nat := 0
  nPages : Nat := 0
  side : List (Nat × Line) := []
  lost : List Nat := []
  heldWrites : List (Nat × Line) := []
  tagc : SMap Nat := []
  tagcBad : List (Nat × Bool) := []
  frtBad : List Nat := []
  prefetched : List Nat := []
  remap : SMap RemapEnt := []
  remapCopies : List (Nat × Nat) := []
  fenced : List (Nat × Nat) := []
  hbmErr : List HbmErr := []
  corrections : SMap (List (BitVec 64)) := []
  tagLost : List Nat := []
  hbmScrub : BitVec 64 := 0
  relayout : Bool := false
  prefetchEn : Bool := true
  ncHit : BitVec 32 := 0
  bcHit : BitVec 32 := 0
  miss : BitVec 32 := 0
  prefetchHit : BitVec 32 := 0
  deriving DecidableEq, Repr

/-! ## Read and write paths -/

/-- Read statistics (R153). -/
structure ReadStat where
  retry : BitVec 32 := 0
  around : BitVec 32 := 0
  boundB : BitVec 32 := 0
  boundC : BitVec 32 := 0
  suspend : BitVec 32 := 0
  maxLat : BitVec 16 := 0
  deriving DecidableEq, Repr

/-- Write path registers and levels (R156 to R187). -/
structure WriteSt where
  budget : BitVec 6 := 0
  lvlDirty : BitVec 2 := 2
  lvlPatch : BitVec 2 := 0
  lvlTherm : BitVec 2 := 0
  through : Bool := true
  pacing : Bool := false
  ageMax : BitVec 16 := 0x3E8
  strictTmo : BitVec 4 := 0xA
  paced : BitVec 32 := 0
  exposedCnt : BitVec 32 := 0
  exposedLd : BitVec 64 := 0
  relaxedStall : List (Nat × BitVec 48) := []
  deriving DecidableEq, Repr

/-! ## Translation -/

/-- A Patch Index entry (R110). `checkBad` marks an entry whose CHECK fails. -/
structure PiEnt where
  lln : BitVec 40
  seq : BitVec 24
  set : BitVec 19
  segment : BitVec 10
  line : BitVec 6
  valid : Bool
  tomb : Bool
  inflight : Bool
  checkBad : Bool
  deriving DecidableEq, Repr

/-- The fast descriptor of a set (R292), less what the Fast Set Table entry holds. -/
structure FastDesc where
  gen : BitVec 32
  owner : BitVec 32
  wear : BitVec 48
  allocCseq : BitVec 48
  pstamp : BitVec 64
  deriving DecidableEq, Repr

/-- Kinds of segment, by trailer MAGIC (R106, R277, R562, R563, R602). -/
inductive SegKind where
  | patch | record | image | picp | flush | dmap | foreign
  deriving DecidableEq, Repr

/-- The trailer of a segment (R106): what it is, BASE_CTR, SEG_SEQ, ward, the segment's index (R277, R563, R598), FSEQ or REF, LAST and the
kind bit of a Patch Index segment; and the next payload line or record. -/
structure Seg where
  kind : SegKind
  base : BitVec 48
  segSeq : BitVec 48
  ward : BitVec 9
  next : Nat
  index : Nat
  fseq : BitVec 48
  last : Bool
  delta : Bool
  deriving DecidableEq, Repr

/-- Where the entry of a frame stands after an SRAM error (R81, R82). -/
inductive FtErr where
  | none | correctable | uncorrectable | lost
  deriving DecidableEq, Repr

/-- Translation (R73 to R122). -/
structure XlatSt where
  ft : SMap (BitVec 32) := []
  ftErr : SMap FtErr := []
  restoring : List Nat := []
  fst : SMap (BitVec 64) := []
  fstBad : SMap Bool := []
  fdesc : SMap FastDesc := []
  versions : SMap (BitVec 16) := []
  pi : SMap PiEnt := []
  piOvf : List PiEnt := []
  ptimes : SMap (BitVec 47) := []
  piLog : List PiEnt := []
  piLost : Bool := false
  fsum : SMap (Nat × BitVec 47) := []
  segs : SMap Seg := []
  dirs : SMap (BitVec 64) := []
  openSeg : Option Nat := none
  patchCtr : BitVec 48 := 0
  segSeq : BitVec 48 := 0
  psnap : SMap (BitVec 48) := []
  rescanMarks : List Nat := []
  rescanPass : List Nat := []
  psi : BitVec 11 := 0x40
  psiAt : SMap (BitVec 11) := []
  fastResMin : BitVec 20 := 0x05000
  deriving DecidableEq, Repr

/-! ## Media management -/

/-- Band classes (R286, R310). -/
inductive BandClass where
  | clear | open_ | written | dead | clearing
  deriving DecidableEq, Repr

/-- A band: its layout (R86, R87), map and descriptor (R91, R92); `verified` once every page of every live member has passed its read-back
(R272). -/
structure Band where
  cls : BandClass := .clear
  width : Nat := 0
  live : BitVec 32 := 0
  rot : Nat := 0
  slots : List (BitVec 32) := []
  foldSeq : BitVec 48 := 0
  pstamp : BitVec 64 := 0
  ptemps : SMap (BitVec 16) := []
  pflags : BitVec 16 := 0
  holdover : BitVec 32 := 0
  failed : BitVec 32 := 0
  cleared : BitVec 32 := 0
  thisOn : Bool := false
  verified : Bool := false
  deriving DecidableEq, Repr

/-- What a fold slot takes as its source (R270). -/
inductive FoldSrc where
  | entry (e : BitVec 32)
  | direct
  | recon
  | parity (delta : Bool)
  | zero (mode : Nat)
  deriving DecidableEq, Repr

/-- Where a fold slot stands in the delta steps of R371. -/
inductive DeltaPhase where
  | none | requested | admitted | staged | committed | ended | done
  deriving DecidableEq, Repr

/-- Why a frame is due for fold (R264), oldest and ordering keys. -/
structure Due where
  lfn : Nat
  prio : Nat
  since : BitVec 64
  key : Nat
  direct : Bool
  was : Nat := 0
  wasKey : Nat := 0
  deriving DecidableEq, Repr

/-- A frame in an open batch (R269, R371, R375): `incl` gives, by line, the patch location 65,538 × set + position a
line of the fold takes; `snap` the lines of a direct fold's snapshot or of a reconstruction. -/
structure FoldSlot where
  lfn : Nat
  src : FoldSrc
  prev : BitVec 32
  psnap : BitVec 48
  rsnaps : List (Nat × BitVec 48)
  incl : SMap Nat
  snap : SMap Line
  phase : DeltaPhase
  holders : List Nat
  replied : List Nat
  aborted : Bool
  deriving DecidableEq, Repr

/-- Where a member of an open band stands: the page it programs or reads back, and the offsets still to read back. -/
structure MemberProg where
  page : Nat
  reading : List Nat
  hdr : SMap (BitVec 512) := []
  deriving DecidableEq, Repr

/-- An open band and its batch (R266 to R273), with the due frames it took and its FOLD_SEQ; `abandons` counts the targets
abandoned before it in a row. A zero fold (R376) is a batch with no band: its number is 2²⁰ + LFN. -/
structure FoldBatch where
  band : Nat
  slots : List FoldSlot
  members : SMap MemberProg
  abandons : Nat
  dues : List Due
  verified : Bool
  seq : BitVec 48
  pages : SMap (List (List (BitVec 528))) := []
  deriving DecidableEq, Repr

/-- A frame moving into a fast set: allocation fill, promotion, migration or staging (R275, R299, R331, R674). `pos` is the position
being programmed, 65,538 once all are; `data` what it takes; `waitA` and `waitB` say which copies have not reported it; `late` are the
frame's lines written elsewhere meanwhile, which the last passes write again; `counted` says whether its transfers count (R674). -/
structure FastMove where
  lfn : Nat
  set : Nat
  kind : Nat          -- 0 allocation fill, 1 promotion, 2 migration, 3 staging
  pos : Nat
  pin : Bool
  job : Option (BitVec 16)
  counted : Bool
  at_ : Nat
  data : BitVec 640
  waitA : Bool
  waitB : Bool
  late : List Nat
  deriving DecidableEq, Repr

/-- A dirty line on its way to media (R102, R109, R203): `stage` counts the programs done of 4 (patch) or 2 (fast). `gap` says that it
programs the moved line of the gap move which its write completed (R100, R101). -/
structure Drain where
  lln : Nat
  fast : Bool
  set : Nat
  pos : Nat
  dirPos : Nat
  ctr : BitVec 48
  version : BitVec 16
  data : Line
  stage : Nat
  gap : Bool
  deriving DecidableEq, Repr

/-- A checkpoint record (R278), with the line that holds it, as 65,538 × set + position. -/
structure CkRec where
  target : BitVec 24
  kind : BitVec 8
  entry : BitVec 32
  cseq : BitVec 48
  psnap : BitVec 48
  ftime : BitVec 64
  place : Option Nat
  deriving DecidableEq, Repr

/-- A complete checkpoint image (R282): C0, its Frame Table and clear bitmap, and its segments in order. -/
structure CkImage where
  c0 : BitVec 48
  entries : SMap (BitVec 32)
  clear : List Nat
  segs : List Nat
  deriving DecidableEq, Repr

/-- Media management (R264 to R314). -/
structure MmSt where
  cseq : BitVec 48 := 0
  records : List CkRec := []
  images : List CkImage := []
  imageRun : Option CkImage := none
  imageStart : BitVec 64 := 0
  imageRecs : Nat := 0
  bands : SMap Band := []
  bad : List Nat := []
  due : List Due := []
  pressed : Bool := false
  demoting : Bool := false
  restart : List (Nat × List Nat) := []
  batches : List FoldBatch := []
  moves : List FastMove := []
  drains : List Drain := []
  gapHeld : List (Nat × Bool) := []
  ckSeg : Option Nat := none
  piSegs : List Nat := []
  hotCount : SMap Nat := []
  lastWrite : SMap (BitVec 64) := []
  reclaimLow : BitVec 20 := 0x035C2
  resettleH : BitVec 14 := 0x2D0
  scrubD : BitVec 8 := 0x60
  scrubF : BitVec 8 := 0x18
  scrubDue : List Nat := []
  scrubAt : Nat := 0
  fastAt : Nat := 0
  reclaiming : Bool := false
  wearClears : Nat := 0
  folds : BitVec 32 := 0
  abandon : BitVec 32 := 0
  refresh : BitVec 32 := 0
  measured : SMap (BitVec 8) := []
  ati : SMap Nat := []
  calClear : BitVec 48 := 0
  overlay : SMap (List Byte) := []
  atiHours : List (BitVec 64 × SMap Nat) := []
  atiDays : List (BitVec 64 × SMap Nat) := []
  atiCount : Nat := 0
  sk : SMap (BitVec 64) := []
  skRun : SMap (Nat × Nat) := []
  calAt : SMap Nat := []
  dieTemp : SMap (BitVec 16) := []
  mapOld : List Nat := []
  mapNew : List Nat := []
  mapDue : List Nat := []
  mapSegs : List Nat := []
  piBase : Option (BitVec 48 × BitVec 48) := none
  piDelta : Bool := false
  releasing : List (BitVec 32) := []
  deriving DecidableEq, Repr

/-- Local protection (R324 to R346). -/
structure LpSt where
  refoldShort : Bool := false
  staging : Bool := false
  staged : List Nat := []
  beyond : Bool := false
  beyondSeen : List (Nat × Nat) := []
  dieFailLimit : BitVec 17 := 0x10000
  dieSel : BitVec 9 := 0
  dieWeak : SMap (BitVec 32) := []
  dieFail : SMap (BitVec 32) := []
  dieFailAt : SMap (List (BitVec 64)) := []
  blockFails : SMap (List Nat) := []
  rebuild : BitVec 32 := 0
  located : BitVec 32 := 0
  tie : BitVec 32 := 0
  poison : BitVec 32 := 0
  deriving DecidableEq, Repr

/-! ## Media channels -/

/-- Bank states of R235, in code order. -/
inductive BState where
  | idle | loading | programming | held | finishing | suspending | progSuspended | clearing | clearSuspended
  deriving DecidableEq, Repr

/-- A READ the stack has accepted (R241, R246): deferred or running. `thr` holds the thresholds it uses, T1 to T7 and TF, in
reference steps. -/
structure StackRead where
  tag : BitVec 7
  block : Nat
  addr : Nat
  slot : BitVec 2
  shift : BitVec 6
  thr : List Int
  deriving DecidableEq, Repr

/-- The program or clear a bank holds (R237, R238, R244). -/
structure BankOp where
  clear : Bool
  fast : Bool
  block : Nat
  addr : Nat
  tag : BitVec 7
  bursts : SMap (BitVec 1024)
  line : MediaLine
  stamp : BitVec 64
  mode : Bool
  deriving DecidableEq, Repr

/-- One bank of a die as the stack holds it; `heldLate` marks a program Held for longer than tHOLD (R240). -/
structure BankSt where
  st : BState := .idle
  suspTag : BitVec 7 := 0
  op : Option BankOp := none
  suspNoopDue : Bool := false
  resumeDue : Bool := false
  deferred : List StackRead := []
  running : List StackRead := []
  slots : List (BitVec 64) := [0, 0, 0, 0]
  active : BitVec 2 := 0
  shift : BitVec 6 := 0
  heldLate : Bool := false
  deriving DecidableEq, Repr

/-- A block stamp (R245). -/
structure Stamp where
  stamp : BitVec 64 := 0
  ccount : BitVec 32 := 0
  valid : Bool := false
  fast : Bool := false
  deriving DecidableEq, Repr

/-- A return frame in the stack (R232): KIND, header with its HCRC, and payload (its low bits, by KIND). -/
structure RetFrame where
  kind : BitVec 3
  tag : BitVec 7
  die : BitVec 4
  bank : BitVec 3
  bstate : BitVec 4
  hcrc : BitVec 8
  payload : BitVec 1024
  deriving DecidableEq, Repr

/-- One line of media content: bytes, or undefined (R237, R240, R248). -/
inductive Cellv where
  | data (v : MediaLine)
  | undef
  deriving DecidableEq, Repr

/-- The stack of one channel (R221 to R253). -/
structure Stack where
  powered : Bool := false
  mreset : Bool := false
  accepting : Bool := false
  fullRate : Bool := false
  drive : BitVec 8 := 0
  odt : BitVec 8 := 0
  vrefdq : BitVec 8 := 0
  therm : SMap (BitVec 8) := []
  catrain : Bool := false
  zqRunning : Bool := false
  zqReady : Bool := false
  zqLatched : Bool := false
  pllLocked : Bool := false
  train : BitVec 1024 := 0
  faults : List Nat := []
  resetting : List Nat := []
  pendInfo : List RetFrame := []
  ready : List RetFrame := []
  last : Option RetFrame := none
  deriving DecidableEq, Repr

/-- What the controller wants of a line it reads: a host read or prefetch under recovery (`key` is the member of the band,
or the copy 0 or 1 of the fast set), a read-back, a scrub read, a calibration sample, a raw mailbox read. -/
inductive RPurpose where
  | rd (rid : Nat) (key : Nat)
  | readback (band : Nat) (m : Nat) (x : Nat)
  | scrubDense (band : Nat) (m : Nat) (x : Nat)
  | scrubFast (set : Nat) (copy : Nat) (pos : Nat)
  deriving DecidableEq, Repr

/-- What the controller wants of a program or clear. -/
inductive PPurpose where
  | drain (lln : Nat)
  | page (band : Nat) (m : Nat) (page : Nat)
  | clear (band : Nat) (m : Nat)
  | fill (lfn : Nat) (copy : Nat)
  deriving DecidableEq, Repr

/-- A read of a Carter sequencer, queued or outstanding (R257); `shift` is the read reference shift it uses (R246). -/
structure CRead where
  die : Nat
  bank : Nat
  block : Nat
  addr : Nat
  host : Bool
  step : Nat
  slot : BitVec 2
  shift : BitVec 6
  purpose : RPurpose
  lln : Nat := 0
  charged : Bool := false
  deriving DecidableEq, Repr

/-- Where a running program or clear stands as the Carter sequencer follows it. -/
inductive PPhase where
  | busy | held | finishing
  deriving DecidableEq, Repr

/-- A queued or running program or clear of a Carter sequencer (R257, R258). -/
structure CProg where
  die : Nat
  bank : Nat
  block : Nat
  addr : Nat
  clear : Bool
  fast : Bool
  counted : Bool
  bursts : List (BitVec 1024)
  purpose : PPurpose
  phase : PPhase
  tag : BitVec 7
  heldSince : BitVec 64
  deriving DecidableEq, Repr

/-- The Carter sequencer of one channel with its registers (R252, R256 to R262). `stale` holds the tags, each with its die, of dropped
work whose frames have not been taken (R233); `rawWait` the information reads that wait for a tag; `rdout` whether an RDOUT is due,
and whether it is a repeat (R231, R257). -/
structure Carter where
  reads : List CRead := []
  outst : List (BitVec 7 × CRead) := []
  progs : List CProg := []
  running : List CProg := []
  suspended : List (Nat × Nat) := []
  raws : List (BitVec 7 × Nat) := []
  rawWait : List (Nat × Nat × Nat × Nat) := []
  stale : List (BitVec 7 × Nat) := []
  rdout : Option Bool := none
  repeatDue : Bool := false
  caTimes : List (BitVec 64) := []
  emptyRun : Nat := 0
  timeouts : List (Nat × BitVec 64) := []
  faultAt : SMap (BitVec 64) := []
  trainStep : Nat := 0
  trainRetry : Bool := false
  trained : Bool := false
  fullRate : Bool := false
  retrainWait : Bool := false
  diesReady : BitVec 16 := 0
  caDelay : BitVec 8 := 0
  dqs0 : BitVec 8 := 0
  dqs1 : BitVec 8 := 0
  vref : BitVec 6 := 0
  zqPu : BitVec 6 := 0
  zqPd : BitVec 6 := 0
  caCheck : BitVec 32 := 0
  frameErr : BitVec 32 := 0
  pfail : BitVec 32 := 0
  cfail : BitVec 32 := 0
  retrains : BitVec 16 := 0
  deriving DecidableEq, Repr

/-- Where a read of the media back end goes. -/
inductive RLoc where
  | dense (band slot off : Nat)
  | fast (set pos : Nat) (seq : Option (BitVec 16))
  deriving DecidableEq, Repr

/-- One location of a read: the retry step last tried, and whether its frame is awaited. -/
structure RdSub where
  step : Nat
  open_ : Bool
  deriving DecidableEq, Repr

/-- A read of the media back end (R137 to R147): its locations by member or copy, the good lines received with the retry
step that gave them, the members whose first read failed, those in a window and those missing at the first pass. `host`
marks a host read, `merge` a read whose line is merged into a Partial dirty line; neither is a prefetch. `limit` is the
last retry step allowed on the members other than the home, `bound` the bound the read is placed in: 0 A, 1 B, 2 C. `noFill` marks a
read whose line was discarded meanwhile: it fills no cache. -/
structure MRead where
  rid : Nat
  lln : Nat
  host : Bool
  merge : Bool
  loc : RLoc
  subs : SMap RdSub
  got : SMap (Line66 × Nat)
  firstFail : List Nat
  windows : List Nat
  missing : List Nat
  around : Bool
  limit : Nat
  spanWait : Bool
  spanFailed : Bool
  susp : List (Nat × Nat × Nat)
  bound : Nat
  retried : Bool
  noFill : Bool
  charged : List Nat := []
  deriving DecidableEq, Repr

/-- All media channels: stacks, their arrays, the sequencers, and reads in recovery. -/
structure MediaSt where
  stack : SMap Stack := []
  banks : SMap BankSt := []
  stamps : SMap Stamp := []
  lines : SMap Cellv := []
  carters : SMap Carter := []
  mreads : List MRead := []
  prefetchDue : List Nat := []
  deriving DecidableEq, Repr

/-! ## Span -/

/-- A pool table entry (R348). -/
structure PoolEntry where
  pbr : BitVec 12
  span : BitVec 8
  slot : BitVec 8
  serial : BitVec 64
  gen : BitVec 16
  deriving DecidableEq, Repr

/-- A span descriptor (R351). -/
structure SpanDesc where
  span : BitVec 8
  k : BitVec 8
  m : BitVec 8
  f : BitVec 8
  members : List (BitVec 16)
  sgen : BitVec 48
  deriving DecidableEq, Repr

/-- A peer stream to an outrider (R360 to R364). -/
structure Stream where
  rnum : BitVec 48
  bseq : BitVec 48
  chain : BitVec 32
  opened : List (BitVec 48 × Record)
  openFt : BitVec 64
  sent : List (Batch)
  reported : BitVec 29
  sentSince : Nat
  reseed : Bool
  ackChain : BitVec 32
  deriving DecidableEq, Repr

/-- A record an outrider keeps for a ward (R366). -/
structure FRecord where
  rnum : BitVec 48
  mask : BitVec 64
  data : Line
  deriving DecidableEq, Repr

/-- What the device keeps for one ward (R364 to R368, R389, R614). `places` gives the first payload line of each stored record, as 65,538 ×
set + position, `seg` the segment at the tail of the ward's foreign patch area. -/
structure Ward where
  pool : Nat
  bseq : BitVec 48
  chain : BitVec 32
  records : SMap FRecord
  maps : SMap MapEntry
  keys : SMap (List Byte)
  topRnum : BitVec 48
  places : SMap Nat := []
  seg : Option Nat := none
  deriving DecidableEq, Repr

/-- Twiekor messages the device sends (R397). -/
inductive PeerMsg where
  | patchBatch (b : Batch)
  | patchRelease (rsnap : BitVec 48) (llns : List Nat)
  | deltaChunk (op : Nat) (lfn : Nat) (t : Nat) (foldSeq : BitVec 48)
  | deltaData (lfn : Nat) (t : Nat) (foldSeq : BitVec 48) (chunk : Nat) (payload : List Line)
  | deltaAck (code : Nat) (lfn : Nat) (foldSeq : BitVec 48) (bseq : BitVec 48) (live : Nat)
  | reconRead (kind : Nat) (tag : BitVec 32) (addr : Nat) (first count : Nat) (ward : Nat)
  | reconData (tag : BitVec 32) (part parts : Nat) (status : BitVec 2) (body : ReconBody)
  | heartbeat (state : BitVec 3) (lock : BitVec 2) (boundUs : BitVec 32) (live : Nat) (admissions : List Nat) (activating : Bool)
  | timetable (cycle : Nat) (sgen : BitVec 48) (entries : List (BitVec 32))
  | unhitch (cause : BitVec 8) (rnums : List (BitVec 48))
  deriving DecidableEq, Repr

/-- A peer of the span (R382, R400). -/
structure Peer where
  missed : Nat := 0
  st : BitVec 3 := 0
  lock : BitVec 2 := 0
  bound : BitVec 32 := 0
  live : BitVec 29 := 0
  activating : Bool := false
  sentCtl : BitVec 48 := 0
  sentData : BitVec 48 := 0
  gotCtl : BitVec 48 := 0
  gotData : BitVec 48 := 0
  ackCtl : BitVec 48 := 0
  ackData : BitVec 48 := 0
  answered : Bool := false
  held : List (Bool × PeerMsg) := []
  rebuilding : Bool := false
  deriving DecidableEq, Repr

/-- An admission the device holds open as a parity holder (R372, R373, R381). -/
structure Holding where
  lfn : Nat
  member : Nat
  t : Nat
  foldSeq : BitVec 48
  admitter : Bool
  chunks : SMap (List Line)
  staged : Bool
  committed : Bool
  deriving DecidableEq, Repr

/-- A span recovery running (R379, R391 to R393, R398) from line `lln` on, `count` lines: what it asks for, whether a record
must exist, the members asked for the base and the outriders asked for the record, the base answers by member, the record
answers by outrider, a base line known locally, the parts of answers in several parts. `rid` is the read it serves; a
rebuild serves none. -/
structure SpanRead where
  tag : BitVec 32
  rid : Option Nat
  lln : Nat
  count : Nat
  wantBase : Bool
  wantRecord : Bool
  must : Bool
  asked : List Nat
  askedRec : List Nat
  answers : List (Nat × Option ReconBody)
  records : List (Nat × Option FRecord)
  localBase : Option Line
  parts : List (Nat × Nat × ReconBody)
  deriving DecidableEq, Repr

/-- The span side of the device (R347 to R401, R613 to R616). -/
structure SpanSt where
  pool : SMap PoolEntry := []
  selfIdx : Option (BitVec 9) := none
  desc : Option SpanDesc := none
  own : BitVec 4 := 0
  spanState : BitVec 3 := 0
  exposed : Bool := false
  bulkSent : Nat := 0
  dataSent : SMap Nat := []
  outr : List Nat := []
  streams : List Stream := []
  wards : List Ward := []
  peers : List Peer := List.replicate 16 {}
  holdings : List Holding := []
  reads : List SpanRead := []
  nextTag : BitVec 32 := 0
  lost : Option Nat := none
  rebuildMarks : List Nat := []
  swkValid : Bool := false
  parityLines : SMap Line := []
  joinStep : Nat := 0
  aliases : SMap Nat := []
  withheld : List (Nat × List (Nat × BitVec 48) × List Nat) := []
  keyAsks : List (Nat × BitVec 32 × Nat × Nat) := []
  mapAsked : List (BitVec 32 × Nat) := []
  reseedDue : List Nat := []
  reseedLast : List (Nat × BitVec 48) := []
  waitAdmit : List (Nat × Nat × Nat × BitVec 48) := []
  rebuildSnap : SMap (List (Nat × BitVec 48)) := []
  cRecords : BitVec 32 := 0
  cResend : BitVec 32 := 0
  cDeltas : BitVec 32 := 0
  cReconOut : BitVec 32 := 0
  cReconIn : BitVec 32 := 0
  deriving DecidableEq, Repr

/-! ## Queues -/

/-- A stored queue word (R485). -/
structure QWord where
  word : BitVec 64
  parity : Bool
  poison : Bool
  deriving DecidableEq, Repr

/-- One queue (R485 to R498). -/
structure Queue where
  tail : BitVec 16 := 0
  wr : BitVec 32 := 0
  rd : BitVec 32 := 0
  mark : BitVec 32 := 0
  rel : BitVec 32 := 0
  credit : BitVec 32 := 0
  overrun : Bool := false
  parity : Bool := false
  tailFlag : Bool := false
  releaseErr : Bool := false
  parErr : BitVec 32 := 0
  words : SMap QWord := []
  deriving DecidableEq, Repr

/-- The queue engine with the host notice latch (R498). -/
structure QueueSt where
  queues : List Queue := [8, 8, 4, 2, 0x64].map (fun t => ({ tail := t } : Queue)) ++
    List.replicate 59 { tail := 0x32 }
  nValid : Bool := false
  nPoison : Bool := false
  nWord : BitVec 64 := 0
  deriving DecidableEq, Repr

/-! ## Waybill, events, injection -/

/-- A Waybill record (R500), less its CRC. -/
structure WbRec where
  code : BitVec 16
  sev : BitVec 4
  flags : BitVec 4
  unit : BitVec 24
  suppressed : BitVec 16
  seq : BitVec 32
  pcycle : BitVec 32
  hours : BitVec 32
  hfrac : BitVec 16
  ftime : BitVec 48
  p0 : BitVec 64
  p1 : BitVec 64
  p2 : BitVec 64
  p3 : BitVec 64
  deriving DecidableEq, Repr

/-- The token bucket of an event code (R502): tokens in units of 1/10⁹ of a token. -/
structure Bucket where
  rate : BitVec 8 := 8
  burst : BitVec 8 := 32
  tokens : Nat := 32000000000
  last : BitVec 64 := 0
  suppressed : BitVec 16 := 0
  deriving DecidableEq, Repr

/-- A record of the buffer with its flush state (R503). -/
structure BufRec where
  rcd : WbRec
  flushed : Bool
  writing : Bool
  deriving DecidableEq, Repr

/-- The Waybill (R499 to R507). `area` is partition 7 by slot, `areaSlot` the slot the next flush writes. -/
structure WaybillSt where
  next : BitVec 32 := 0
  buffer : List BufRec := []
  area : SMap (List WbRec) := []
  areaSlot : Nat := 0
  cursor : BitVec 32 := 0
  lost : BitVec 32 := 0
  lostI : Nat := 0
  lostW : Nat := 0
  lostC : Nat := 0
  lostOld : Option (BitVec 32) := none
  buckets : SMap Bucket := []
  flushing : Bool := false
  badCrc : List (BitVec 32) := []
  pendingHost : List WbRec := []
  deriving DecidableEq, Repr

/-- An armed injection point (R515, R516). -/
structure Armed where
  point : BitVec 16
  unit : BitVec 24
  word : BitVec 8
  mask : BitVec 64
  check : BitVec 16
  copy : BitVec 2
  active : Bool
  deriving DecidableEq, Repr

/-- Event flags, correctable errors and injection registers (R511 to R519). -/
structure EvtSt where
  status : BitVec 9 := 0
  enable : BitVec 9 := 0x1FF
  vector : BitVec 5 := 0
  noticeVec : BitVec 5 := 1
  alertEn : Bool := true
  msix : SMap Msix := []
  counts : List (BitVec 8) := List.replicate 9 0
  leakMs : BitVec 16 := 0x3E8
  threshold : BitVec 8 := 0x10
  lastClass : BitVec 4 := 0
  lastIndex : BitVec 9 := 0
  selClass : BitVec 4 := 0
  selIndex : BitVec 9 := 0
  buckets : SMap (BitVec 8) := []
  armed : List Armed := []
  injPoint : BitVec 16 := 0
  injUnit : BitVec 24 := 0
  injWord : BitVec 8 := 0
  injLo : BitVec 32 := 0
  injHi : BitVec 32 := 0
  injCheck : BitVec 16 := 0
  injCopy : BitVec 2 := 0
  refused : Bool := false
  fired : BitVec 32 := 0
  firing : Bool := false
  firedDue : List (Nat × Nat) := []
  deriving DecidableEq, Repr

/-! ## Strongbox, power, thermal, start, security -/

/-- A Strongbox write waiting or running (R531): one record update, one Waybill slot of up to four records (by
sequence), or one slot rewritten with given bytes. -/
inductive SbReq where
  | ring (type index : Nat) (payload : List Byte)
  | waybill (seqs : List (BitVec 32))
  | slot (n : Nat) (bytes : List Byte)
  deriving DecidableEq, Repr

/-- The Strongbox as final test leaves it in this model (DESIGN CHOICE, log entry 3): one PLSTATE record (R611), level
0, PLSEQ 0, sequence 1, in both slots of pair 0. -/
def factoryCells : List Host.Cell :=
  [(0x918400, 0x51), (0x918404, 0x1), (0x91840a, 0x8), (0x9184fc, 0xd8), (0x9184fd, 0x78), (0x9184fe, 0x11), (0x9184ff, 0x62),
   (0x918500, 0x51), (0x918504, 0x1), (0x91850a, 0x8), (0x9185fc, 0xd8), (0x9185fd, 0x78), (0x9185fe, 0x11), (0x9185ff, 0x62)]

/-- The Strongbox (R520 to R539). `cells` are its bytes; an unlisted byte reads 0. -/
structure SbSt where
  cells : List Host.Cell := factoryCells
  queue : List SbReq := []
  running : Option SbReq := none
  waitReg : BitVec 4 := 0xF
  clock : BitVec 2 := 0
  low : Bool := false
  reserveOk : Bool := false
  vauxOk : Bool := false
  bandChg : Bool := false
  abandonFlag : Bool := false
  vauxMv : BitVec 12 := 0
  abandon : BitVec 32 := 0
  weak : BitVec 32 := 0
  tie : BitVec 32 := 0
  wbase : BitVec 9 := 0
  deriving DecidableEq, Repr

/-- Sequencer states of R542, in code order. -/
inductive SeqState where
  | off | starting | on | held | shuttingDown | railsOff | minOff
  deriving DecidableEq, Repr

/-- A rail entry in use (R527). -/
structure RailCfg where
  onDly : BitVec 16 := 0
  offDly : BitVec 16 := 0
  pgTmo : BitVec 16 := 0
  domains : BitVec 8 := 0
  hbm : BitVec 4 := 0
  channels : BitVec 32 := 0
  deriving DecidableEq, Repr

/-- The power sequencer, hold-up bank and flush (R540 to R569, R656). -/
structure PowerSt where
  seq : SeqState := .off
  cascade : Bool := false
  cause : BitVec 3 := 0
  pfLow : Bool := false
  seqIn : Bool := false
  seqOut : Bool := false
  onHeld : Bool := false
  enable : BitVec 32 := 0
  good : BitVec 32 := 0
  flagged : BitVec 32 := 0
  offSeen : BitVec 32 := 0
  rails : List RailCfg := List.replicate 32 {}
  firstRail : BitVec 8 := 0
  firstFt : BitVec 64 := 0
  firstHours : BitVec 32 := 0
  firstSet : Bool := false
  restart : Bool := false
  e : BitVec 32 := 0
  capMf : BitVec 16 := 0
  cUc : Nat := 0
  vmin : BitVec 16 := 0
  eff : BitVec 8 := 0
  v1 : Option (BitVec 16) := none
  measuring : Bool := false
  measured : Bool := false
  holdFault : Bool := false
  chargedClear : Nat := 0
  flushSets : BitVec 14 := 0
  setAside : List Nat := []
  lastFlushUs : BitVec 24 := 0
  lastFlushOk : Bool := false
  flushStep : Nat := 0
  flushBroken : Bool := false
  flushLines : List (Nat × Line × BitVec 64) := []
  fseq : BitVec 48 := 0
  flushLive : Bool := false
  replayLeft : List (Nat × Line × BitVec 64) := []
  flushHasLast : Bool := false
  glitchFlag : Bool := false
  railFailFlag : Bool := false
  glitches : BitVec 32 := 0
  vcoreMv : BitVec 16 := 0
  vcoreDone : Bool := false
  deriving DecidableEq, Repr

/-- One sensor (R570 to R576). -/
structure SensorSt where
  reading : BitVec 16 := 0
  valid : Bool := false
  broken : Bool := false
  devRun : Nat := 0
  hotRun : Nat := 0
  subst : Bool := false
  working : BitVec 16 := 0
  deriving DecidableEq, Repr

/-- Throttle states of R578, in code order. -/
inductive Throttle where
  | none | notice | brake | shutdown
  deriving DecidableEq, Repr

/-- A thermal shutdown record (R583). -/
structure ShutRec where
  sensor : BitVec 8
  temp : BitVec 16
  ftime : BitVec 64
  hours : BitVec 32
  pcycle : BitVec 32
  deriving DecidableEq, Repr

/-- Thermal management (R570 to R586). -/
structure ThermSt where
  sensors : List SensorSt := List.replicate 64 {}
  throttle : Throttle := .none
  notice : BitVec 8 := 105
  grace : BitVec 10 := 20
  graceMs : Nat := 0
  bf : BitVec 5 := 0x10
  tg : BitVec 16 := 0
  tgSensor : BitVec 6 := 0
  fNotice : Bool := false
  fBrake : Bool := false
  fBroken : Bool := false
  brakeMs : BitVec 32 := 0
  record : Option ShutRec := none
  tripN : Bool := false
  deriving DecidableEq, Repr

/-- Start-up (R587 to R606). `mapLost` lists the frames of the dirty map whose lines the flush did not write are taken as
unreadable (R603). -/
structure StartSt where
  phase : BitVec 4 := 1
  unclean : Bool := false
  golden : Bool := false
  piRebuild : Bool := false
  mapFold : Bool := false
  lifeHours : BitVec 32 := 0
  lifeFrac : BitVec 16 := 0
  pcycle : BitVec 32 := 0
  sillResets : BitVec 32 := 0
  lastCause : BitVec 8 := 0
  lifeSeen : Bool := false
  sillUp : Bool := false
  mapLost : List Nat := []
  deriving DecidableEq, Repr

/-- One copy of a firmware image area (R595): header fields, whether its signature verifies, and SHA-384 of its signed bytes. -/
structure FwCopy where
  aseq : BitVec 48
  length : BitVec 32
  version : BitVec 32
  svn : BitVec 32
  valid : Bool
  digest : List Byte
  deriving DecidableEq, Repr

/-- Firmware areas and the transfer in progress (R595 to R597, R622, R623). -/
structure FwSt where
  areas : List (List FwCopy) := [[], []]
  running : BitVec 32 := 0
  runSvn : BitVec 32 := 0
  runDigest : List Byte := []
  runArea : Option (Fin 2) := none
  goldVersion : BitVec 32 := 1
  goldSvn : BitVec 32 := 0
  goldValid : Bool := true
  staged : List Byte := []
  transferring : Bool := false
  sender : Option Caller := none
  activateDue : Bool := false
  activating : Bool := false
  deriving DecidableEq, Repr

/-- Security (R607 to R628). -/
structure SecSt where
  pl : BitVec 2 := 0
  pl2Fuse : Bool := false
  erasing : Bool := false
  plseq : BitVec 48 := 0
  owner : List Byte := []
  svnMin : BitVec 32 := 0
  rgen : BitVec 48 := 0
  rootLost : Bool := false
  swkLost : Bool := false
  lowering : Nat := 0
  deriving DecidableEq, Repr

/-- Identity and global registers (R635). -/
structure IdSt where
  revision : BitVec 8 := 0
  serial : BitVec 64 := 0
  scratch : BitVec 32 := 0
  errPartial : Bool := false
  errReserved : Bool := false
  errAddr : BitVec 24 := 0
  deriving DecidableEq, Repr

/-! ## What a command sends out -/

/-- Return codes of the CXL commands (R44, R51, R433, R438, R458 to R460, R592). -/
inductive Rc where
  | success | background | invalidInput | unsupported | busy | mediaDisabled | resourcesExhausted
  | invalidPayloadLength | invalidSecurityState | fwVerifyFailed | invalidHandle | invalidSlot | invalidPhysicalAddress
  | fwInProgress | fwOutOfOrder
  deriving DecidableEq, Repr

/-- The output payload of a CXL or FM API command, as named fields. -/
inductive CxlOut where
  | none
  | identify (total persistent volatileOnly partAlign lsa poisonMax : Nat)
  | health (lifeUsed : Nat) (temp : BitVec 16) (dirtyShutdowns volErrors perErrors : BitVec 32) (media : MediaStatus)
  | events (recs : List EvRec) (overflow : Bool)
  | policy (p : BitVec 40)
  | logs (ids : List Nat)
  | cel (opcodes : List (BitVec 16))
  | timestamp (t : BitVec 64)
  | fwInfo (slots active staged : Nat) (rev1 rev2 : BitVec 32)
  | poison (recs : List (Nat × PoisonSrc)) (overflow : Bool)
  | dcConfig (blockSize regionLen usable : Nat)
  | extents (exts : List (Nat × Nat))
  | fmIdentify (variant : Nat) (ports : BitVec 4)
  | ldInfo (lds : Nat) (capacity : Nat)
  | allocs (units : List Nat) (granularity : Nat)
  | qos (v : BitVec 64)
  | fracs (l : List Byte)
  deriving DecidableEq, Repr

/-- Answers of the SPDM responder (R625). -/
inductive SpdmOut where
  | version | capabilities | algorithms
  | digests (d : List Byte)
  | certificate (data : List Byte) (remaining : Nat)
  | challengeAuth (sig : List Byte)
  | measurements (vals : List (Nat × List Byte)) (sig : List Byte)
  | keyExchange (session : BitVec 32) (exchange : List Byte)
  | finish | keyUpdate | heartbeat | endSession
  | error (code : Nat)
  deriving DecidableEq, Repr

/-- Everything a command can send out of the block. -/
inductive Out where
  | memRead (port : Nat) (ld : Nat) (tag : BitVec 16) (data : Line) (poisoned : Bool) (devload : BitVec 2)
  | memWrite (port : Nat) (ld : Nat) (tag : BitVec 16) (devload : BitVec 2)
  | credit (port : Nat) (ld : Nat)
  | gpfAck (port : Nat) (phase : Nat)
  | cxl (c : Caller) (rc : Rc) (out : CxlOut)
  | vendor (c : Caller) (rc : Rc) (payload : List Byte)
  | completerAbort (unit : BitVec 24)
  | sideband (mstat : BitVec 16) (unit : BitVec 24) (data : BitVec 32)
  | regRead (data : BitVec 32)
  | msix (vector : BitVec 5)
  | aerMessage (port : Nat) (fatal : Bool)
  | queueWord (q : Nat) (word : Option (BitVec 64 × Bool))
  | forceSend (q : Nat)
  | fmNotice (code : Nat) (arg : Nat)
  | packet (ch : Nat) (op : BitVec 8) (p : Pkt)
  | burst (ch : Nat) (index : Nat) (data : BitVec 1024)
  | frame (ch : Nat) (f : RetFrame)
  | echo (ch : Nat) (beats : List Byte)
  | peer (member : Nat) (ring : Bool) (mseq ackto : BitVec 48) (ftime : BitVec 64) (m : PeerMsg) (crc : Option (BitVec 32))
  | spdm (port : Nat) (o : SpdmOut)
  | ideKm (port : Nat) (ok : Bool)
  | ptmRequest (port : Nat)
  | pmbus (mv : Nat)
  | holdupStep (n : Nat)
  | bgOpEnd (ld : Nat)
  | linkTrain (port : Nat)
  | coreNotice (q : Nat)
  | cdatChange (ld : Nat)
  | eventIntr (ld : Nat) (vector : BitVec 4)
  deriving DecidableEq, Repr

/-- Ordering variants of R1. -/
inductive Variant where
  | x4 | h2 | l1
  deriving DecidableEq, Repr

/-- The BZ6400. `pending` is the queue of waiting commands; `out` is what the last command sent, in order;
`free` counts the free values drawn so far (the model's own field). Every default value in this file is the field's
value at reset. -/
structure State where
  pending : List Instr := []
  out : List Out := []
  free : Nat := 0
  variant : Variant := .x4
  id : IdSt := {}
  time : TimeSt := {}
  tt : TtSt := {}
  unit : UnitSt := {}
  host : HostSt := {}
  cache : CacheSt := {}
  rstat : ReadStat := {}
  write : WriteSt := {}
  xlat : XlatSt := {}
  mm : MmSt := {}
  lp : LpSt := {}
  media : MediaSt := {}
  span : SpanSt := {}
  queue : QueueSt := {}
  wb : WaybillSt := {}
  evt : EvtSt := {}
  sb : SbSt := {}
  power : PowerSt := {}
  therm : ThermSt := {}
  start : StartSt := {}
  fw : FwSt := {}
  sec : SecSt := {}
  deriving DecidableEq, Repr

/-- The block right after reset: every field at the default its declaration gives. -/
def State.reset : State := {}

/-- Reasons the block stops with a fault. No rule of the spec stops it: everything that goes wrong becomes an
answer, a record or a unit state (00_scope, The promise); `undecided` is raised by no meaning. -/
inductive Fault where
  /-- raised by no meaning; safe -/
  | undecided
  deriving DecidableEq, Repr

/-- Reasons a command is refused. -/
inductive Refusal where
  /-- raised only by an arm of exec whose meaning is not written yet; safe -/
  | notModelled (mnemonic : String)
  deriving DecidableEq, Repr

end Sys2Proof.Machine
end

