-- ==== Sys2Proof/Machine/Ops.lean ====
section
/-! DEFINITION. The named operations over State that every family uses: sparse tables, byte cells, lists, saturating
counters, free values, and what a command sends. -/

namespace Sys2Proof.Machine

/-! ## Sparse tables -/

/-- The value of key `k`, `d` when unlisted. -/
def sget {α : Type} (d : α) : SMap α → Nat → α
  | [], _ => d
  | (j, v) :: m, k => if j = k then v else sget d m k

/-- The listed value of key `k`. -/
def sfind {α : Type} : SMap α → Nat → Option α
  | [], _ => none
  | (j, v) :: m, k => if j = k then some v else sfind m k

/-- The table without key `k`. -/
def sdel {α : Type} : SMap α → Nat → SMap α
  | [], _ => []
  | (j, v) :: m, k => if j = k then sdel m k else (j, v) :: sdel m k

/-- The table with key `k` listed as `v`. -/
def sput {α : Type} : SMap α → Nat → α → SMap α
  | [], k, v => [(k, v)]
  | (j, w) :: m, k, v =>
    if j = k then (k, v) :: m else if k < j then (k, v) :: (j, w) :: m else (j, w) :: sput m k v

/-- The table with key `k` reading as `v`: canonical, so the default `d` is not listed. -/
def sset {α : Type} [DecidableEq α] (d : α) (m : SMap α) (k : Nat) (v : α) : SMap α :=
  if v = d then sdel m k else sput m k v

/-- Two tables laid together, the second one's values first. -/
def smerge {α : Type} (a b : SMap α) : SMap α := b.foldl (fun m e => sput m e.1 e.2) a

/-- `f` applied to the value of key `k`. -/
def smod {α : Type} [DecidableEq α] (d : α) (m : SMap α) (k : Nat) (f : α → α) : SMap α :=
  sset d m k (f (sget d m k))

/-- The canonical form: keys strictly rising, no entry equal to the default. -/
def swf {α : Type} [DecidableEq α] (d : α) : SMap α → Bool
  | [] => true
  | [(_, v)] => v ≠ d
  | (j, v) :: (k, w) :: m => v ≠ d && Nat.blt j k && swf d ((k, w) :: m)

/-! ## Byte cells: the Strongbox array -/

/-- The value of a byte cell; an unlisted cell reads 0. -/
def cellGet (m : List Host.Cell) (a : Nat) : Byte := sget 0 m a

/-- `n` bytes from address `a`. -/
def cellBytes (m : List Host.Cell) (a n : Nat) : List Byte :=
  let m' := (m.dropWhile (fun c => Nat.blt c.1 a)).takeWhile (fun c => Nat.blt c.1 (a + n))
  (List.range n).map (fun i => sget 0 m' (a + i))

/-- Bytes as cells from address `a`, the zero bytes unlisted. -/
def asCells : Nat → List Byte → List Host.Cell
  | _, [] => []
  | a, b :: bs => if b = 0 then asCells (a + 1) bs else (a, b) :: asCells (a + 1) bs

/-- The cells with `bs` written from address `a`. -/
def cellWrite (m : List Host.Cell) (a : Nat) (bs : List Byte) : List Host.Cell :=
  m.takeWhile (fun c => Nat.blt c.1 a) ++ asCells a bs ++
    m.dropWhile (fun c => Nat.blt c.1 (a + bs.length))

/-- The canonical form of the byte cells (one form for the one addressed RAM). -/
def Memory.wf (m : List Host.Cell) : Bool := swf 0 m

/-! ## Lists, counters, bits -/

/-- The list with element `i` changed by `f`. -/
def lmod {α : Type} : List α → Nat → (α → α) → List α
  | [], _, _ => []
  | a :: as, 0, f => f a :: as
  | a :: as, n + 1, f => a :: lmod as n f

/-- A counter that saturates, plus `n`. -/
def satAdd {w : Nat} (x : BitVec w) (n : Nat) : BitVec w := BitVec.ofNat w (min (x.toNat + n) (2 ^ w - 1))

/-- A counter that saturates, plus one. -/
def satInc {w : Nat} (x : BitVec w) : BitVec w := satAdd x 1

/-- Bits [lo + n - 1 : lo] of a number. -/
def bits (v lo n : Nat) : Nat := (v >>> lo) % 2 ^ n

/-- Bit `i` of a number. -/
def bit (v i : Nat) : Bool := (v >>> i) % 2 == 1

/-- 0 or 1. -/
def b2n (b : Bool) : Nat := bif b then 1 else 0

/-- The mask with bit `i` set or cleared. -/
def setBit {w : Nat} (x : BitVec w) (i : Nat) (b : Bool) : BitVec w :=
  if b then x ||| BitVec.ofNat w (2 ^ i) else x &&& ~~~ BitVec.ofNat w (2 ^ i)

/-- The number of ones. -/
def popc {w : Nat} (x : BitVec w) : Nat := (List.range w).countP (fun i => x.getLsbD i)

/-- The set bit numbers, lowest first. -/
def bitsOf {w : Nat} (x : BitVec w) : List Nat := (List.range w).filter (fun i => x.getLsbD i)

/-- A number as bytes, lowest first. -/
def bytesOf (n v : Nat) : List Byte := (leBytes n v).map (BitVec.ofNat 8)

/-- The number of some bytes. -/
def natOf (bs : List Byte) : Nat := ofLe (bs.map BitVec.toNat)

/-- The number in `n` bytes from offset `o`; bytes beyond the end read 0. -/
def field (bs : List Byte) (o n : Nat) : Nat := natOf ((bs.drop o).take n)

/-- The bytes padded with 0 to length `n`, or cut to it. -/
def padTo (n : Nat) (bs : List Byte) : List Byte := bs.take n ++ List.replicate (n - bs.length) 0

/-- A signed number as `n` bytes, two's complement. -/
def bytesOfInt (n : Nat) (v : Int) : List Byte := bytesOf n (v.emod (2 ^ (8 * n))).toNat

/-- Byte `i` of a line. -/
def lineByte (l : Line) (i : Nat) : Byte := l.extractLsb' (8 * i) 8

/-- The bytes of `new` where the mask is set, of `old` elsewhere. -/
def mergeBytes (old new : Line) (mask : BitVec 64) : Line :=
  BitVec.ofNat 512 (ofLe ((List.range 64).map (fun i =>
    if mask.getLsbD i then (lineByte new i).toNat else (lineByte old i).toNat)))

/-- Removes repeats. -/
def dedup (l : List Nat) : List Nat := l.foldl (fun a x => if a.contains x then a else a ++ [x]) []

/-! ## Outcomes, what a command sends, free values -/

/-- The outcome type of every meaning. -/
abbrev Res := Host.Outcome State Fault Refusal

/-- The state a command starts from: nothing sent yet, no injection fired yet. -/
def begin (s : State) : State := { s with out := [], evt := { s.evt with firing := false } }

/-- The state with one more thing sent. -/
def send (s : State) (o : Out) : State := { s with out := s.out ++ [o] }

/-- The next free value of `w` bits. -/
def drawBits (w : Nat) (s : State) : BitVec w × State :=
  (BitVec.ofNat w (Config.freeNat s.free), { s with free := s.free + 1 })

/-- The next free choice. -/
def drawBool (s : State) : Bool × State := (Config.freeBool s.free, { s with free := s.free + 1 })

/-! ## The ordering variants (R1) -/

/-- Media channels. -/
def nChannels (s : State) : Nat := match s.variant with | .x4 => 32 | .h2 => 16 | .l1 => 8

/-- Quadrants and, in the same number, HBM stacks. -/
def nQuads (s : State) : Nat := match s.variant with | .x4 => 4 | .h2 => 2 | .l1 => 1

/-- Whether the variant has span protection. -/
def hasSpan (s : State) : Bool := s.variant != .l1

/-- User frames: 2²⁴, 2²³ or 2²² (01, Capacity note). -/
def nFrames (s : State) : Nat := 2 ^ 19 * nChannels s

/-- Core clock cycles per 5 ns tick, and the time of a tick (R413 counts in ns). -/
def tickNs : Nat := 5

/-- VDD_CORE aims at the fused target, from 650 to 850 mV (R656). -/
def vcoreTarget : Nat := 650 + Config.vcoreFuse % 201

end Sys2Proof.Machine
end

