-- ==== Sys2Proof/Machine/Strongbox.lean ====
section
/-! DEFINITION. The Strongbox array: slots, dual records, rings, and the write queue (R520 to R537). -/

namespace Sys2Proof.Machine

/-! ## Rings -/

/-- Where a ring lies: its partition, its first slot, its pairs (R523). -/
structure RingAt where
  part : Nat
  slot : Nat
  pairs : Nat
  deriving DecidableEq, Repr

/-- The rings of partition 6 in order: TYPE, instances, pairs (R530). -/
def ringRecords : List (Nat × Nat × Nat) :=
  [(0x60, 1, 64), (0x61, 1, 192), (0x62, 1, 367), (0x63, 18, 4), (0x64, 6, 4), (0x65, 1, 16), (0x66, 1, 4),
   (0x67, 13, 4), (0x68, 1, 8)]

/-- The rings of partition 5 in order (R611). -/
def keyRecords : List (Nat × Nat × Nat) :=
  [(0x50, 1, 2), (0x51, 1, 4), (0x52, 1, 1), (0x53, 1, 4), (0x54, 1, 2), (0x55, 64, 1)]

/-- Finds (TYPE, INDEX) among rings that follow one another from slot `base` (R526). -/
def ringIn (part : Nat) : Nat → List (Nat × Nat × Nat) → Nat → Nat → Option RingAt
  | _, [], _, _ => none
  | base, (t, n, p) :: rs, ty, ix =>
    if t = ty ∧ ix < n then some ⟨part, base + 2 * p * ix, p⟩ else ringIn part (base + 2 * p * n) rs ty ix

/-- The ring of (TYPE, INDEX) (R526, R527, R530, R611). -/
def ringAt (ty ix : Nat) : Option RingAt :=
  (ringIn 1 0x8000 [(0x10, 18, 2)] ty ix).orElse fun _ =>
  (ringIn 2 0x8080 [(0x20, 1, 1), (0x21, 512, 1)] ty ix).orElse fun _ =>
  (ringIn 3 0x8880 [(0x30, 1, 1), (0x31, 512, 1)] ty ix).orElse fun _ =>
  (ringIn 4 0x9080 [(0x40, 35, 2), (0x41, 1, 2)] ty ix).orElse fun _ =>
  (ringIn 5 0x9180 keyRecords ty ix).orElse fun _ =>
  ringIn 6 0x9280 ringRecords ty ix

/-! ## Slots and dual records -/

/-- The 256 bytes of a dual-record slot (R522). -/
def slotBytes (ty ix seq : Nat) (payload : List Byte) (badCrc : Bool) : List Byte :=
  let body := bytesOf 2 ty ++ bytesOf 2 ix ++ bytesOf 6 seq ++ bytesOf 2 (min payload.length 240) ++ padTo 240 payload
  let c := crc32c (body.map BitVec.toNat)
  body ++ bytesOf 4 (if badCrc then c ^^^ 0xFFFFFFFF else c)

/-- A valid copy found in a ring: its slot, sequence and content (R524). -/
structure RCopy where
  slot : Nat
  seq : Nat
  payload : List Byte
  deriving DecidableEq, Repr

/-- The copy in a slot, if its TYPE and INDEX match the ring and its CRC is good (R524). -/
def copyAt (m : List Host.Cell) (ty ix slot : Nat) : Option RCopy :=
  let b := cellBytes m (256 * slot) 256
  if field b 0 2 = ty ∧ field b 2 2 = ix ∧ crc32c ((b.take 252).map BitVec.toNat) = field b 252 4 then
    some ⟨slot, field b 4 6, (b.drop 12).take (min (field b 10 2) 240)⟩
  else none

/-- The valid copies of a ring. -/
def ringCopies (m : List Host.Cell) (ty ix : Nat) (r : RingAt) : List RCopy :=
  (List.range (2 * r.pairs)).filterMap (fun i => copyAt m ty ix (r.slot + i))

/-- The highest sequence among some copies, 0 when there are none: a ring's sequence starts at 1 (R523). -/
def topSeq (cs : List RCopy) : Nat := cs.foldl (fun a c => max a c.seq) 0

/-- What resolving a ring finds (R524): the record trusted, the slot to rewrite with it, the tied sequence. -/
structure Resolved where
  found : Option RCopy
  repair : Option Nat
  tie : Option Nat
  deriving DecidableEq, Repr

/-- `resolve(ring)` of R524 over its valid copies; `fuel` bounds the sequences tried. -/
def resolveCopies : Nat → List RCopy → Option Nat → Resolved
  | 0, _, tie => ⟨none, none, tie⟩
  | fuel + 1, cs, tie =>
    match cs with
    | [] => ⟨none, none, tie⟩
    | _ =>
      let s := topSeq cs
      match cs.filter (fun c => c.seq = s) with
      | [c] => ⟨some c, some (if c.slot % 2 = 0 then c.slot + 1 else c.slot - 1), tie⟩
      | c :: d :: _ =>
        if c.payload = d.payload then ⟨some c, none, tie⟩
        else resolveCopies fuel (cs.filter (fun e => e.seq ≠ s)) (some s)
      | [] => ⟨none, none, tie⟩

/-- The resolution of the ring of (TYPE, INDEX). -/
def resolveRing (m : List Host.Cell) (ty ix : Nat) : Resolved :=
  match ringAt ty ix with
  | none => ⟨none, none, none⟩
  | some r => let cs := ringCopies m ty ix r; resolveCopies (cs.length + 1) cs none

/-- The content a ring resolves to. -/
def ringPayload (m : List Host.Cell) (ty ix : Nat) : Option (List Byte) :=
  (resolveRing m ty ix).found.map RCopy.payload

/-- One update of a ring: both copies of the pair after the newest, one sequence up (R523). -/
def ringUpdate (m : List Host.Cell) (ty ix : Nat) (payload : List Byte) (badSecond : Bool) : List Host.Cell :=
  match ringAt ty ix with
  | none => m
  | some r =>
    let cs := ringCopies m ty ix r
    let top := topSeq cs
    let pair := match cs.find? (fun c => c.seq = top) with
      | none => 0
      | some c => ((c.slot - r.slot) / 2 + 1) % r.pairs
    let at_ := r.slot + 2 * pair
    cellWrite (cellWrite m (256 * at_) (slotBytes ty ix (top + 1) payload false))
      (256 * (at_ + 1)) (slotBytes ty ix (top + 1) payload badSecond)

/-! ## The option area (R527) -/

/-- The 4,096 bytes of the option area as the Sill loads them: a chunk that resolves to none is all 0 (R525). -/
def optionArea (m : List Host.Cell) : List Byte :=
  ((List.range 18).map (fun i => padTo 240 ((ringPayload m 0x10 i).getD []))).flatten.take 4096

/-- The rail entry r of an option area (R527). -/
def optionRail (o : List Byte) (r : Nat) : RailCfg :=
  let b := (o.drop (0x100 + 16 * r)).take 16
  { onDly := BitVec.ofNat 16 (field b 0 2), offDly := BitVec.ofNat 16 (field b 2 2)
    pgTmo := BitVec.ofNat 16 (field b 4 2), domains := BitVec.ofNat 8 (field b 6 1 % 32)
    hbm := BitVec.ofNat 4 (field b 7 1), channels := BitVec.ofNat 32 (field b 8 4) }

/-! ## Waybill slots (R500, R503, R504) -/

/-- The 64 bytes of a Waybill record (R500). -/
def wbBytes (r : WbRec) (badCrc : Bool) : List Byte :=
  let body := bytesOf 2 r.code.toNat ++ bytesOf 1 (r.sev.toNat + 16 * r.flags.toNat) ++ bytesOf 3 r.unit.toNat ++
    bytesOf 2 r.suppressed.toNat ++ bytesOf 4 r.seq.toNat ++ bytesOf 4 r.pcycle.toNat ++ bytesOf 4 r.hours.toNat ++
    bytesOf 2 r.hfrac.toNat ++ bytesOf 6 r.ftime.toNat ++ bytesOf 8 r.p0.toNat ++ bytesOf 8 r.p1.toNat ++
    bytesOf 8 r.p2.toNat ++ bytesOf 8 r.p3.toNat
  let c := crc32c (body.map BitVec.toNat)
  body ++ bytesOf 4 (if badCrc then c ^^^ 0xFFFFFFFF else c)

/-- The 256 bytes of a Waybill slot; a slot with fewer than four records is filled with empty records (R503). -/
def wbSlotBytes (s : State) (n : Nat) : List Byte :=
  padTo 256 ((sget [] s.wb.area n).map (fun r => wbBytes r (s.wb.badCrc.contains r.seq))).flatten

/-- `n` bytes of the Strongbox from offset `o`, no partition hidden: the Waybill area shows its slots. -/
def sbBytes (s : State) (o n : Nat) : List Byte :=
  if o + n ≤ 0xC00000 then cellBytes s.sb.cells o n
  else (List.range n).map (fun i =>
    let a := o + i
    if a < 0xC00000 then cellGet s.sb.cells a
    else (wbSlotBytes s ((a - 0xC00000) / 256)).getD (a % 256) 0)

/-! ## Writes (R531 to R534) -/

/-- Whether a write can start (R532). -/
def sbCanStart (s : State) : Bool := Nat.ble 3000 s.sb.vauxMv.toNat && s.sb.reserveOk

/-- Whether injection point `p` is armed on unit `u` with no duration running (R515). -/
def isArmed (s : State) (p u : Nat) : Bool :=
  s.evt.armed.any (fun a => a.point.toNat == p && a.unit.toNat == u && !a.active)

/-- The state with point `p` of unit `u` disarmed and its firing counted: from here on the command's records carry
FLAGS[4], and its INJECT_FIRED record is written when the command ends (R515). -/
def fire (p u : Nat) (s : State) : State :=
  { s with evt := { s.evt with
      armed := s.evt.armed.filter (fun a => !(a.point.toNat == p && a.unit.toNat == u))
      fired := satInc s.evt.fired, firing := true, firedDue := s.evt.firedDue ++ [(p, u)] } }

/-- A point that lasts for a duration started: it stays armed, active, until the duration ends (R515). -/
def fireStart (p u : Nat) (s : State) : State :=
  { s with evt := { s.evt with
      armed := s.evt.armed.map (fun a => if a.point.toNat == p && a.unit.toNat == u then { a with active := true } else a)
      fired := satInc s.evt.fired, firing := true, firedDue := s.evt.firedDue ++ [(p, u)] } }

/-- Whether a lasting point runs on a unit now, and with what parameter. -/
def activePoint (s : State) (p u : Nat) : Option Armed :=
  s.evt.armed.find? (fun a => a.point.toNat == p && a.unit.toNat == u && a.active)

/-- The content effect of a write that starts: a started write always finishes (R532), so it is whole here. Injection
point 0x000E inverts the CRC of a dual record's second copy, 0x0013 that of a flushed Waybill record (R517). -/
def sbApply (s : State) : SbReq → State
  | .ring ty ix pl =>
    let s' := if isArmed s 0x000E 0 then fire 0x000E 0 s else s
    { s' with sb := { s'.sb with cells := ringUpdate s.sb.cells ty ix pl (isArmed s 0x000E 0) } }
  | .slot n bs => { s with sb := { s.sb with cells := cellWrite s.sb.cells (256 * n) (padTo 256 bs) } }
  | .waybill seqs =>
    let rs := (s.wb.buffer.filter (fun b => seqs.contains b.rcd.seq)).map BufRec.rcd
    let hit := isArmed s 0x0013 0
    let s' := if hit then fire 0x0013 0 s else s
    { s' with wb := { s.wb with
        area := sput s.wb.area s.wb.areaSlot rs
        areaSlot := (s.wb.areaSlot + 1) % 16384
        badCrc := if hit then s.wb.badCrc ++ seqs.take 1 else s.wb.badCrc } }

/-- One write abandoned: counted and flagged; the records of a Waybill write are unflushed again (R503, R532). -/
def sbAbandon (s : State) (r : SbReq) : State :=
  let s' := { s with sb := { s.sb with abandon := satInc s.sb.abandon, abandonFlag := true } }
  match r with
  | .waybill seqs => { s' with wb := { s'.wb with
      flushing := false
      buffer := s'.wb.buffer.map (fun b => if seqs.contains b.rcd.seq then { b with writing := false } else b) } }
  | _ => s'

/-- Starts the next waiting write if none runs; each internal write that comes due and cannot start is abandoned. -/
def sbStartFrom : List SbReq → State → State
  | [], s => { s with sb := { s.sb with queue := [] } }
  | r :: rest, s =>
    if sbCanStart s then
      let s' := sbApply s r
      { s' with sb := { s'.sb with queue := rest, running := some r } }
    else sbStartFrom rest (sbAbandon s r)

def sbStart (s : State) : State :=
  match s.sb.running with
  | some _ => s
  | none => sbStartFrom s.sb.queue s

/-- An internal write asked for: it waits its turn (R531). -/
def sbEnqueue (s : State) (r : SbReq) : State :=
  sbStart { s with sb := { s.sb with queue := s.sb.queue ++ [r] } }

/-- Ends the running write: records of a Waybill slot are flushed now (R503). -/
def sbEnd (s : State) : State :=
  let s' := { s with sb := { s.sb with running := none } }
  match s.sb.running with
  | some (.waybill seqs) => { s' with wb := { s'.wb with buffer := s'.wb.buffer.map (fun b =>
      if seqs.contains b.rcd.seq then { b with flushed := true, writing := false } else b) } }
  | _ => s'

/-- A command's group of writes (R532): it follows the running write, is judged once, and runs whole or not at all;
each of its writes not started counts as abandoned. Answers whether it ran. -/
def sbGroup (s : State) (rs : List SbReq) : Bool × State :=
  let s := sbEnd s
  if rs.isEmpty then (true, sbStart s)
  else if sbCanStart s then (true, sbStart (rs.foldl sbApply s))
  else (false, sbStart (rs.foldl sbAbandon s))

end Sys2Proof.Machine
end

