-- ==== Sys2Proof/Machine/Flags.lean ====
section
/-! DEFINITION. Status flags and interrupts (R511, R512): the event flags with their occurrence counters. -/

namespace Sys2Proof.Machine

/-- Bits of EVT_STATUS (R519). -/
def evCritical : Nat := 0
def evCeOvf : Nat := 1
def evWbLost : Nat := 2
def evNotice : Nat := 3
def evUnit : Nat := 4
def evThermal : Nat := 5
def evPower : Nat := 6
def evSpan : Nat := 7
def evInject : Nat := 8

/-- The function of a port that exposes BAR2, as `EvtSt.msix` numbers functions: LD `i` as `i`, LD 0xFFFF of port `p` as 64 + `p`
(R36, R38). -/
def bar2Fn (s : State) (p : Nat) : Nat := if (s.host.ports.getD p {}).mld then 64 + p else 16 * p

/-- MSI-X of a function. -/
def fnMsix (s : State) (f : Nat) : Msix := (sfind s.evt.msix f).getD {}

/-- Whether a vector of a function is masked: by the function's mask or by its own. -/
def vecMasked (m : Msix) (v : Nat) : Bool := m.masked || (m.table.getD v {}).masked

/-- Whether the message of a vector leaves at some function that exposes BAR2, of a port whose link is up (R38, R512). -/
def anyLink (s : State) (v : BitVec 5) : Bool := (List.range s.host.ports.length).any (fun p =>
  let m := fnMsix s (bar2Fn s p)
  (s.host.ports.getD p {}).up && m.enabled && !vecMasked m v.toNat)

/-- A masked vector of a function set pending, as MSI-X defines (R34). -/
def pendVec (f v : Nat) (s : State) : State :=
  let m := fnMsix s f
  if m.enabled && vecMasked m v then
    { s with evt := { s.evt with msix := sput s.evt.msix f { m with pending := m.pending ||| (1#32 <<< v) } } }
  else s

/-- The message of a vector: out where a function leaves it unmasked, pending at the others (R34, R512). -/
def signal (v : BitVec 5) (s : State) : State :=
  let s := (List.range s.host.ports.length).foldl (fun s p =>
    if (s.host.ports.getD p {}).up then pendVec (bar2Fn s p) v.toNat s else s) s
  if anyLink s v then send s (.msix v) else s

/-- A hardware set of an EVT_STATUS bit: its counter rises; the first enabled bit to go to 1 while no other enabled bit
is set sends the MSI-X message (R511, R512). -/
def setEvt (b : Nat) (s : State) : State :=
  let e := s.evt
  let first := !e.status.getLsbD b && e.enable.getLsbD b && (e.status &&& e.enable) == 0
  let s' := { s with evt := { e with status := setBit e.status b true, counts := lmod e.counts b satInc } }
  if first then signal e.vector s' else s'

/-- ALERT_N is driven low while ALERT_EN is 1 and an enabled bit is set (R512). -/
def alertLow (s : State) : Bool := s.evt.alertEn && (s.evt.status &&& s.evt.enable) != 0

/-- A software write of 1s to EVT_STATUS: each bit clears and its occurrence counter returns to 0 (R511). -/
def clearEvt (w : BitVec 9) (s : State) : State :=
  { s with evt := { s.evt with
      status := s.evt.status &&& ~~~ w
      counts := s.evt.counts.mapIdx (fun i c => if w.getLsbD i then 0 else c) } }

/-- A counter cleared by a CTRL.CLEAR write: 1 when it increments in the same cycle (R154, R187, R220, R262, R314, R346,
R401, R431, R539, R569, R586). -/
def clearCtr {w : Nat} (inc : Byte) (i : Nat) : BitVec w := if inc.getLsbD i then 1 else 0

end Sys2Proof.Machine
end

