-- ==== Sys2Proof/Machine/QueueOps.lean ====
section
/-! DEFINITION. The queue engine's storage and counters (R485 to R492): writing, reading, marking, releasing words. -/

namespace Sys2Proof.Machine

/-- `QUEUE_CFG.USE` (R487): 0 unassigned, 1 peer stream transmit, 2 peer control transmit, 3 peer receive, 4 host notices,
5 core dispatch, 6 engine dispatch. -/
def qUse (s : State) (q : Nat) : Nat :=
  if q < 4 ∧ s.variant = .l1 then 0
  else if q < 2 then 1 else if q = 2 then 2 else if q = 3 then 3 else if q = 4 then 4 else if q < 9 then 5
  else if q < 18 then 6 else 0

/-- The depth of a queue in words (R487). -/
def qDepth (s : State) (q : Nat) : Nat :=
  match qUse s q with
  | 1 => 131072
  | 2 => 16384
  | 3 => 16384
  | 4 => 4096
  | 5 => 8192
  | 6 => 4096
  | _ => 0

/-- A queue, and a queue changed. -/
def qOf (s : State) (q : Nat) : Queue := s.queue.queues.getD q {}
def setQ (q : Nat) (f : Queue → Queue) (s : State) : State :=
  { s with queue := { s.queue with queues := lmod s.queue.queues q f } }

/-- The words a queue has room for below REL + depth (R488). -/
def qFree (s : State) (q : Nat) : Nat := qDepth s q - ((qOf s q).wr - (qOf s q).rel).toNat

/-- CREDIT kept at REL + depth (R488): the grant target always allows it (DESIGN CHOICE, log entry 5). An unassigned queue
grants none. -/
def qGrant (q : Nat) (s : State) : State :=
  if qDepth s q = 0 then s else setQ q (fun x => { x with credit := x.rel + BitVec.ofNat 32 (qDepth s q) }) s

/-- The even parity bit of a word (R485). -/
def wordParity (w : BitVec 64) : Bool := popc w % 2 == 1

/-- A word written at WR under credit (R488), with its parity, which injection point 0x000B inverts; false when the queue has
no room. -/
def qPush (q : Nat) (w : BitVec 64) (poison : Bool) (s : State) : Bool × State :=
  let s := qGrant q s
  if qFree s q = 0 then (false, s)
  else
    let hit := isArmed s 0x000B (0x900000 + q)
    let s := if hit then fire 0x000B (0x900000 + q) s else s
    (true, setQ q (fun x => { x with
      words := sput x.words (x.wr.toNat % qDepth s q) ⟨w, wordParity w != hit, poison⟩, wr := x.wr + 1 }) s)

/-- The stored word at RD. -/
def qFront (s : State) (q : Nat) : QWord := sget ⟨0, false, false⟩ (qOf s q).words ((qOf s q).rd.toNat % qDepth s q)

/-- A read of the word at RD (R490, R492): none when the queue is empty; a word whose parity fails comes poisoned. -/
def qTake (q : Nat) (s : State) : Option (BitVec 64 × Bool) × State :=
  if (qOf s q).rd = (qOf s q).wr then (none, s)
  else
    let w := qFront s q
    let bad := w.parity != wordParity w.word
    (some (w.word, w.poison || bad), setQ q (fun x => { x with
      rd := x.rd + 1, parity := x.parity || bad, parErr := if bad then satInc x.parErr else x.parErr }) s)

/-- MARK and REWIND (R490). -/
def qMark (q : Nat) (s : State) : State := setQ q (fun x => { x with mark := x.rd }) s
def qRewind (q : Nat) (s : State) : State := setQ q (fun x => { x with rd := x.mark }) s

/-- RELEASE n (R490, R491): refused past RD; MARK is raised to the new REL. -/
def qRelease (q n : Nat) (s : State) : Bool × State :=
  let x := qOf s q
  if (x.rd - x.rel).toNat < n then (false, setQ q (fun x => { x with releaseErr := true }) s)
  else
    let rel := x.rel + BitVec.ofNat 32 n
    (true, qGrant q (setQ q (fun x => { x with
      rel := rel, mark := if (x.mark - x.rel).toNat < n then rel else x.mark }) s))

/-- A queue emptied, its counters 0 (R496). -/
def qClear (q : Nat) (s : State) : State :=
  setQ q (fun x => { x with wr := 0, rd := 0, mark := 0, rel := 0, credit := 0, words := [] }) s

/-- A host notice (R487): the event code, the unit, a parameter; without room it is not offered. -/
def hostNotice (code unit param : Nat) (s : State) : State :=
  if qFree s 4 = 0 then s
  else (qPush 4 (BitVec.ofNat 64 (code % 2 ^ 16 + unit % 2 ^ 24 * 2 ^ 16 + param % 2 ^ 24 * 2 ^ 40)) false s).2

end Sys2Proof.Machine
end

