-- ==== Sys2Proof/Machine/Waybill.lean ====
section
/-! DEFINITION. The Waybill and the events that reach it (R499 to R510), its flush, and host event records. -/

namespace Sys2Proof.Machine

/-- Severities of R500. -/
def sevInfo : Nat := 1
def sevWarning : Nat := 2
def sevCritical : Nat := 3

/-- The Host column of R508. -/
inductive HostCol where
  | none | gm | mm | vs | vc | fatal
  deriving DecidableEq, Repr

/-- Severity and Host column of an event code (R508); severities that depend on the event are given with it. -/
def evRow (code : Nat) : Nat × HostCol :=
  if code = 0x0001 then (2, .none) else if code = 0x0002 then (1, .none) else if code = 0x0003 then (2, .mm)
  else if code = 0x0101 then (1, .mm) else if code = 0x0102 then (1, .vc) else if code = 0x0201 then (3, .gm)
  else if code = 0x0202 then (1, .none) else if code = 0x0203 then (2, .none) else if code = 0x0204 then (2, .none)
  else if code = 0x0205 then (2, .none) else if code = 0x0206 then (2, .none) else if code = 0x0207 then (3, .mm)
  else if code = 0x0208 then (1, .none) else if code = 0x0209 then (1, .none) else if code = 0x020A then (3, .mm)
  else if code = 0x020B then (3, .mm) else if code = 0x020C then (1, .none) else if code = 0x020D then (3, .mm)
  else if code = 0x020E then (2, .none) else if code = 0x020F then (3, .mm) else if code = 0x0301 then (2, .vs)
  else if code = 0x0302 then (3, .fatal) else if code = 0x0303 then (2, .none) else if code = 0x0304 then (2, .vs)
  else if code = 0x0305 then (1, .none) else if code = 0x0401 then (2, .none) else if code = 0x0402 then (2, .none)
  else if code = 0x0501 then (3, .mm) else if code = 0x0502 then (3, .mm) else if code = 0x0503 then (1, .none)
  else if code = 0x0504 then (2, .mm) else if code = 0x0505 then (2, .mm) else if code = 0x0506 then (2, .none)
  else if code = 0x0601 then (2, .none) else if code = 0x0602 then (1, .none) else if code = 0x0701 then (1, .none)
  else if code = 0x0702 then (2, .vs) else if code = 0x0801 then (2, .none) else if code = 0x0802 then (1, .none)
  else if code = 0x0901 then (2, .none) else if code = 0x0902 then (1, .none) else if code = 0x0903 then (3, .none)
  else if code = 0x0904 then (2, .none) else (3, .none)

/-- An event a detector reports: its code, unit and parameters; `sev` where the row leaves it to the event; `repl` is
FLAGS[5]; `ld` is the LD a VC record goes to. -/
structure Ev where
  code : Nat
  unit : Nat := 0
  p0 : Nat := 0
  p1 : Nat := 0
  p2 : Nat := 0
  p3 : Nat := 0
  sev : Option Nat := none
  repl : Bool := false
  synth : Bool := false
  ld : Option Nat := none
  deriving DecidableEq, Repr

/-- The severity of an event: by its row, or "by state" with FLAGS[5] Critical (R508). -/
def evSev (e : Ev) : Nat :=
  if e.code = 0x0101 ∧ e.repl then 3
  else if e.code = 0x0902 ∧ e.repl then 2
  else e.sev.getD (evRow e.code).1

/-- TIME_STATE.UNBOUNDED: B is unbounded, or a logged step has UNB set (R430). -/
def timeUnbounded (s : State) : Bool := s.time.unbounded || s.time.steps.any StepEntry.unb

/-- The record of an event as it would stand now (R500). -/
def mkRec (s : State) (e : Ev) (supp : Nat) : WbRec :=
  { code := BitVec.ofNat 16 e.code, sev := BitVec.ofNat 4 (evSev e)
    flags := BitVec.ofNat 4 (b2n s.evt.firing + 2 * b2n e.repl + 4 * b2n e.synth + 8 * b2n (timeUnbounded s))
    unit := BitVec.ofNat 24 e.unit, suppressed := BitVec.ofNat 16 (min supp 0xFFFF)
    seq := s.wb.next, pcycle := s.start.pcycle, hours := s.start.lifeHours, hfrac := s.start.lifeFrac
    ftime := BitVec.ofNat 48 (s.time.ftime.toNat / 1024)
    p0 := BitVec.ofNat 64 e.p0, p1 := BitVec.ofNat 64 e.p1, p2 := BitVec.ofNat 64 e.p2, p3 := BitVec.ofNat 64 e.p3 }

/-! ## Host event records (R509, R510) -/

/-- The log a severity goes to: 0 Informational, 1 Warning, 2 Failure, 3 Fatal; 4 is the dynamic capacity log. -/
def logOf (r : WbRec) : Nat :=
  if (evRow r.code.toNat).2 = .fatal then 3 else r.sev.toNat - 1

/-- Whether host LD `i` (16 × port + LD-ID) exists: LD 0 of an SLD port, LDs 0 to 15 of an MLD port (R36). -/
def ldExists (s : State) (i : Nat) : Bool :=
  match s.host.ports[i / 16]? with
  | some p => i % 16 == 0 || p.mld
  | none => false

/-- Whether a record meets an empty log `l` of an LD whose event interrupt policy is MSI-X (R458, R512; PRESUMED of CXL, log entry 57). -/
def logTells (l : Nat) (d : Ld) : Bool := (d.logs.getD l []).isEmpty && bits d.policy.toNat (8 * l) 2 == 1

/-- The vector of log `l` by an LD's policy. -/
def logVec (l : Nat) (d : Ld) : BitVec 4 := d.policy.extractLsb' (8 * l + 4) 4

/-- The message of the event interrupt policy for log `l` of LD `i`, when the function does not mask it (R34). -/
def logIntr (s : State) (l i : Nat) (d : Ld) : List Out :=
  let m := fnMsix s i
  if logTells l d && m.enabled && !vecMasked m (logVec l d).toNat then [.eventIntr i (logVec l d)] else []

/-- The message pending instead where the function masks it. -/
def logPend (l i : Nat) (d : Ld) (s : State) : State := if logTells l d then pendVec i (logVec l d).toNat s else s

/-- One event record into log `l` of an LD: 256 records, 64 in the dynamic capacity log; a full log overflows (R458). -/
def ldLog (l : Nat) (code : BitVec 16) (seq : BitVec 32) (p0 p1 : BitVec 64) (d : Ld) : Ld :=
  if (d.logs.getD l []).length < (if l = 4 then 64 else 256) then
    { d with
      logs := lmod d.logs l (fun rs => rs ++ [⟨d.nextHandle, code, seq, p0, p1⟩])
      nextHandle := if d.nextHandle = 0xFFFF then 1 else d.nextHandle + 1 }
  else { d with logOverflow := lmod d.logOverflow l (fun _ => true) }

/-- A record delivered to the CXL event logs its row names (R509). -/
def deliver (s : State) (r : WbRec) (vc : Option Nat) : State :=
  let col := (evRow r.code.toNat).2
  let put (i : Nat) (d : Ld) : Ld := if ldExists s i then ldLog (logOf r) r.code r.seq r.p0 r.p1 d else d
  let tells (i : Nat) (d : Ld) : List Out := if ldExists s i then logIntr s (logOf r) i d else []
  let pend (s : State) (i : Nat) : State := if ldExists s i then logPend (logOf r) i (s.host.lds.getD i {}) s else s
  let all :=
    let t := (List.range s.host.lds.length).foldl pend s
    { t with host := { t.host with lds := t.host.lds.mapIdx put }, out := t.out ++ (s.host.lds.mapIdx tells).flatten }
  let one (i : Nat) :=
    let t := pend s i
    { t with host := { t.host with lds := lmod t.host.lds i (put i) }, out := t.out ++ (s.host.lds[i]?.map (tells i)).getD [] }
  match col with
  | .none => s
  | .gm => one r.p1.toNat
  | .mm => if r.code = 0x0101 && !r.flags.getLsbD 1 then s else all
  | .vs => all
  | .fatal => all
  | .vc => match vc with | some i => one i | none => s

/-- Host records wait for the next Memory Active while the main domains are off or Held, and Critical ones during a
shutdown (R510). -/
def hostDelivers (s : State) (r : WbRec) : Bool :=
  match s.power.seq with
  | .on => true
  | .starting => true
  | .shuttingDown => r.sev != 3
  | _ => false

/-- Delivers a record to the hosts now, or keeps it for the next Memory Active. -/
def toHost (s : State) (r : WbRec) (vc : Option Nat) : State :=
  if (evRow r.code.toNat).2 = .none then s
  else if hostDelivers s r then deliver s r vc
  else { s with wb := { s.wb with pendingHost := s.wb.pendingHost ++ [r] } }

/-! ## The buffer and its flush (R503 to R506) -/

/-- Records not yet flushed. -/
def unflushed (s : State) : List BufRec := s.wb.buffer.filter (fun b => !b.flushed)

/-- While a flush runs, the next slot write is asked for; with nothing left the flush ends (R503). -/
def wbPump (s : State) : State :=
  let isWb : SbReq → Bool := fun r => match r with | .waybill _ => true | _ => false
  if !s.wb.flushing || s.sb.queue.any isWb || s.sb.running.any isWb then s
  else
    match ((unflushed s).map (fun b => b.rcd.seq)).take 4 with
    | [] => { s with wb := { s.wb with flushing := false } }
    | seqs => sbEnqueue { s with wb := { s.wb with buffer := s.wb.buffer.map (fun b =>
        if seqs.contains b.rcd.seq && !b.flushed then { b with writing := true } else b) } } (.waybill seqs)

/-- Starts a flush (R503). -/
def wbFlush (s : State) : State := wbPump { s with wb := { s.wb with flushing := true } }

/-- Removes the first record that satisfies `p`. -/
def dropFirst (p : BufRec → Bool) : List BufRec → List BufRec
  | [] => []
  | b :: bs => if p b then bs else b :: dropFirst p bs

/-- Sequence s is at or above c when (s − c) mod 2³² is below 2³¹ (R501). -/
def seqGe (a c : BitVec 32) : Bool := Nat.blt (a - c).toNat (2 ^ 31)

/-- A record lost: counted, by severity, and flagged; of the records overwritten the oldest sequence is kept (R505, R506). -/
def wbLost (sev : Nat) (old : Option (BitVec 32)) (s : State) : State :=
  setEvt evWbLost { s with wb := { s.wb with
    lost := satInc s.wb.lost
    lostI := s.wb.lostI + b2n (sev == 1), lostW := s.wb.lostW + b2n (sev == 2), lostC := s.wb.lostC + b2n (sev == 3)
    lostOld := match s.wb.lostOld, old with
      | some q, some r => some (if seqGe r q then q else r)
      | some q, none => some q
      | none, r => r } }

/-- An emitted record enters the buffer with the next sequence (R501, R503). -/
def wbAppend (r : WbRec) (s : State) : State :=
  let buf := if s.wb.buffer.length < 1024 then s.wb.buffer else dropFirst BufRec.flushed s.wb.buffer
  { s with wb := { s.wb with buffer := buf ++ [⟨r, false, false⟩], next := s.wb.next + 1 } }

/-- A record meets the buffer: entered, or handled as R505 states when 1,024 records are unflushed. Answers whether it
was entered. -/
def wbArrive (r : WbRec) (s : State) : Bool × State :=
  let idle (v : Nat) : BufRec → Bool := fun b => !b.flushed && !b.writing && b.rcd.sev.toNat == v
  let oldest (v : Nat) : Option (BitVec 32) := (s.wb.buffer.find? (idle v)).map (fun b => b.rcd.seq)
  let takeOver (v : Nat) : Bool × State :=
    (true, wbAppend r (wbLost v (oldest v) { s with wb := { s.wb with buffer := dropFirst (idle v) s.wb.buffer } }))
  if (unflushed s).length < 1024 then (true, wbAppend r s)
  else if 2 ≤ r.sev.toNat ∧ (oldest 1).isSome then takeOver 1
  else if r.sev.toNat = 3 ∧ (oldest 2).isSome then takeOver 2
  else (false, wbLost r.sev.toNat none s)

/-- The flush triggers of R503 that a record's arrival can meet. -/
def wbTrigger (sev : Nat) (s : State) : State :=
  if sev = 3 ∨ 512 ≤ (unflushed s).length then wbFlush s else s

/-- The token bucket of a code now (R502): tokens in units of 10⁻⁹ token. -/
def bucketNow (s : State) (code : Nat) : Bucket :=
  let b := sget {} s.wb.buckets code
  { b with
    tokens := min (b.burst.toNat * 1000000000) (b.tokens + b.rate.toNat * (s.time.ftime.toNat - b.last.toNat))
    last := s.time.ftime }

/-- The EVT_STATUS bits an event sets, whatever becomes of its record (R512, R519). -/
def evFlags (e : Ev) (s : State) : State :=
  let s := if evSev e = 3 then setEvt evCritical s else s
  let s := if e.code = 0x0101 ∧ 2 ≤ evSev e then setEvt evUnit s else s
  let s := if (0x0504 ≤ e.code ∧ e.code ≤ 0x0506) ∨ (e.code = 0x0503 ∧ evSev e = 3) then setEvt evThermal s else s
  let s := if e.code = 0x0501 ∨ e.code = 0x0502 then setEvt evPower s else s
  let s := if 0x0301 ≤ e.code ∧ e.code ≤ 0x0305 then setEvt evSpan s else s
  let s := if e.code = 0x0701 then setEvt evInject s else s
  if e.code = 0x0003 then setEvt evCeOvf s else s

/-- One event reported: flags, the rate limit, the buffer, the host's log and its notice (R487, R499 to R510). -/
def event (e : Ev) (s : State) : State :=
  let s := evFlags e s
  let b := bucketNow s e.code
  let take := evSev e < 3 ∧ e.code ≠ 0x0001
  if take ∧ b.tokens < 1000000000 then
    { s with wb := { s.wb with buckets := sset {} s.wb.buckets e.code { b with suppressed := satInc b.suppressed } } }
  else
    let b' := { b with tokens := if take then b.tokens - 1000000000 else b.tokens }
    let r := mkRec s e b.suppressed.toNat
    let (ok, s) := wbArrive r s
    let s := { s with wb := { s.wb with
      buckets := sset {} s.wb.buckets e.code (if ok then { b' with suppressed := 0 } else b') } }
    if ok then wbTrigger (evSev e) (hostNotice e.code e.unit e.p0 (toHost s r e.ld)) else s

/-- When the buffer has fallen to 512 unflushed records after losses, one OVERFLOW record (R505, R506). -/
def wbOverflow (s : State) : State :=
  let n := s.wb.lostI + s.wb.lostW + s.wb.lostC
  if 0 < n ∧ (unflushed s).length ≤ 512 then
    let cap := fun k => min k 0xFFFF
    let e : Ev := { code := 0x0001, synth := true, p0 := n
                    p1 := cap s.wb.lostI + 0x10000 * cap s.wb.lostW + 0x100000000 * cap s.wb.lostC
                    p2 := match s.wb.lostOld with | some q => q.toNat | none => 0xFFFFFFFF }
    event e { s with wb := { s.wb with lostI := 0, lostW := 0, lostC := 0, lostOld := none } }
  else s

/-- The end of the running Strongbox write: its records flushed, the flush pumped on, OVERFLOW when due, and the next
waiting request served (R503, R506, R531). -/
def sbWriteDone (s : State) : State := sbStart (wbOverflow (wbPump (sbEnd s)))

/-- A command's group of Strongbox writes: answers whether it ran (R532). -/
def sbCommand (s : State) (rs : List SbReq) : Bool × State :=
  let (ok, s) := sbGroup s rs
  (ok, wbOverflow (wbPump s))

/-- The INJECT_FIRED records of the points that fired in this command (R515). -/
def settle (s : State) : State :=
  s.evt.firedDue.foldl (fun s f => event { code := 0x0701, unit := f.2, p0 := f.1 } s)
    { s with evt := { s.evt with firedDue := [] } }

/-- GPF Phase 2 requests whose every earlier write is answered are acknowledged (R56). -/
def gpfSettle (s : State) : State :=
  if s.host.gpf = [] then s
  else
    let left := fun ids : List Nat => ids.filter (fun i => s.host.reqs.any (fun r => r.id == i))
    (s.host.gpf.filter (fun g => (left g.2).isEmpty)).foldl (fun s g => send s (.gpfAck g.1 2))
      { s with host := { s.host with gpf := s.host.gpf.filter (fun g => !(left g.2).isEmpty) } }

/-- Injection point 0x000A: the next flit sent on the armed port goes out with its CRC inverted; the link retries it (R517). -/
def linkInject (s : State) : State :=
  let sends := fun p : Nat => s.out.any (fun o => match o with
    | .memRead q .. => q == p
    | .memWrite q .. => q == p
    | .credit q _ => q == p
    | .gpfAck q _ => q == p
    | _ => false)
  (List.range 4).foldl (fun s p => if isArmed s 0x000A (0x500000 + p) ∧ sends p then fire 0x000A (0x500000 + p) s else s) s

/-- How every meaning ends: the state, its injection records written, the GPF acknowledgements due sent. -/
def ran (s : State) : Res := .next (settle (linkInject (gpfSettle s)))

/-! ## Correctable errors (R513, R514) -/

/-- The unit of a bucket: the die, HBM stack, device or port its class names (R513). -/
def ceUnit (cls ix : Nat) : Nat :=
  if cls = 0 then 0x300000 + ix else if cls = 1 then 0x600000 + ix / 16 else if cls = 4 then 0x500000 + ix else 0

/-- The key of a bucket among all of them. -/
def ceKey (cls ix : Nat) : Nat := 512 * cls + ix

/-- One correctable error of a bucket: at the threshold the flag, the record, CE_LAST, and the bucket at 0 (R514). Errors of dies
count as corrected persistent errors, those of the HBM and the Near Cache as volatile ones (R458). -/
def ceError (cls ix : Nat) (s : State) : State :=
  let s := if cls = 0 then { s with host := { s.host with perErrors := satInc s.host.perErrors } }
    else if cls = 1 ∨ cls = 2 then { s with host := { s.host with volErrors := satInc s.host.volErrors } } else s
  let v := (sget 0 s.evt.buckets (ceKey cls ix)).toNat + 1
  if s.evt.threshold.toNat ≤ v then
    event { code := 0x0003, unit := ceUnit cls ix, p0 := cls + 16 * ix, p1 := s.evt.threshold.toNat }
      { s with evt := { s.evt with
          buckets := sdel s.evt.buckets (ceKey cls ix)
          lastClass := BitVec.ofNat 4 cls, lastIndex := BitVec.ofNat 9 ix } }
  else { s with evt := { s.evt with buckets := sset 0 s.evt.buckets (ceKey cls ix) (BitVec.ofNat 8 v) } }

/-- One leak step: every bucket falls by 1, never below 0 (R514). -/
def ceLeak (s : State) : State :=
  { s with evt := { s.evt with buckets := s.evt.buckets.filterMap (fun e =>
      if e.2.toNat ≤ 1 then none else some (e.1, e.2 - 1)) } }

/-! ## Reading the Waybill (R504, R507) -/

/-- The records kept: in the buffer or in the area. -/
def wbKept (s : State) : List WbRec :=
  (s.wb.area.map (fun e => e.2)).flatten.filter (fun r => !s.wb.badCrc.contains r.seq) ++
    s.wb.buffer.map BufRec.rcd

/-- The kept record of a sequence. -/
def wbFind (s : State) (seq : BitVec 32) : Option WbRec := (wbKept s).find? (fun r => r.seq = seq)

/-- WB_OLDEST.SEQ: the oldest kept sequence; the next one when none is kept. -/
def wbOldest (s : State) : BitVec 32 :=
  (wbKept s).foldl (fun o r => if seqGe r.seq o then o else r.seq) s.wb.next

/-- The 64 bytes of the window's slot i (R507). -/
def wbWindow (s : State) (i : Nat) : List Byte :=
  match wbFind s (s.wb.cursor + BitVec.ofNat 32 i) with
  | some r => wbBytes r false
  | none => List.replicate 64 0

end Sys2Proof.Machine
end

