-- ==== Sys2Proof/Machine/Time.lean ====
section
/-! DEFINITION. Fabric time: the counter, its sources, its states, its steps (R402 to R412, R430). -/

namespace Sys2Proof.Machine

/-! ## The bound B -/

/-- B in ns, none when unbounded: it grows by 2 µs per second in Holdover and in a disciplined Free-run, by 50 µs per
second in an undisciplined one, while no source is tracked (R403). -/
def boundNs (s : State) : Option Nat :=
  if s.time.unbounded then none
  else if s.time.source ≠ .none then some s.time.bBaseNs
  else
    let dt := s.time.ftime.toNat - s.time.bSince.toNat
    some (s.time.bBaseNs + dt * (if s.time.disciplined then 2 else 50) / 1000000)

/-- TIME_BOUND.US: B in µs, 0xFFFF_FFFF when unbounded. -/
def boundUs (s : State) : Nat :=
  match boundNs s with
  | none => 0xFFFFFFFF
  | some b => min (b / 1000) 0xFFFFFFFE

/-- The code of a time state (R430). -/
def timeCode : TimeMode → Nat
  | .freeRun => 0
  | .locked => 1
  | .holdover => 2

/-- The Warning record of a state change (R407, R508). -/
def timeEvent (s : State) : State :=
  event { code := 0x0402, p0 := timeCode s.time.mode, p1 := boundUs s } s

/-- The steps of the FTIME stamp (R412): PFLAGS and HOLDOVER. -/
def stampFlags (s : State) : BitVec 16 :=
  match s.time.mode with
  | .locked => 0
  | .holdover => 1
  | .freeRun => 2

def stampHoldover (s : State) : BitVec 32 := BitVec.ofNat 32 (boundUs s)

/-! ## Steps (R409, R410) -/

/-- The two oldest entries of a step log merged (R410). -/
def mergeSteps (a b : StepEntry) : StepEntry :=
  ⟨(a.deltaUs.natAbs + b.deltaUs.natAbs : Nat), BitVec.ofNat 48 (max a.scseq.toNat b.scseq.toNat), a.unb || b.unb⟩

/-- A step logged; a ninth entry merges the two oldest (R410). -/
def logStep (e : StepEntry) (l : List StepEntry) : List StepEntry :=
  match l with
  | a :: b :: rest => if 8 ≤ l.length then mergeSteps a b :: rest ++ [e] else l ++ [e]
  | _ => l ++ [e]

/-- The STEPLOG payload (R530). -/
def stepLogBytes (l : List StepEntry) : List Byte :=
  padTo 128 ((l.map (fun e => bytesOfInt 8 e.deltaUs ++ bytesOf 6 e.scseq.toNat ++ [if e.unb then 1 else 0, 0])).flatten)
    ++ bytesOf 1 l.length

/-- The step log saved to its ring (R530). -/
def saveSteps (s : State) : State := sbEnqueue s (.ring 0x68 0 (stepLogBytes s.time.steps))

/-- The step log read back from its ring (R530), or one unbounded entry (R525). -/
def readSteps (m : List Host.Cell) (cseq : BitVec 48) : List StepEntry :=
  match ringPayload m 0x68 0 with
  | none => [⟨0, cseq, true⟩]
  | some p => (List.range (min (field p 128 1) 8)).map (fun i =>
      ⟨(BitVec.ofNat 64 (field p (16 * i) 8)).toInt, BitVec.ofNat 48 (field p (16 * i + 8) 6), field p (16 * i + 14) 1 == 1⟩)

/-- A step of FTIME to a source's value, Δ cut to whole µs (DESIGN CHOICE, log entry 27): logged, saved, recorded; B follows R407 from 1 µs (R409). -/
def stepTime (value : Nat) (s : State) : State :=
  let d : Int := (value : Int) - (s.time.ftime.toNat : Int)
  let us : Int := d.tdiv 1000
  let e : StepEntry := ⟨us, s.mm.cseq, s.time.unbounded⟩
  let s := { s with time := { s.time with
    ftime := BitVec.ofNat 64 value, steps := logStep e s.time.steps, unbounded := false, disciplined := true
    bBaseNs := 1000, bSince := BitVec.ofNat 64 value, slewNs := 0, goodRun := 0, badRun := 0 } }
  event { code := 0x0401, p0 := (us.emod (2 ^ 64)).toNat, p1 := b2n e.unb } (saveSteps s)

/-- An entry is removed once every live band's FOLD_SEQ and every used fast set's ALLOC_CSEQ is at or above its SCSEQ
(R410). -/
def pruneSteps (s : State) : State :=
  let seqs := (s.mm.bands.filter (fun b => b.2.cls = .written)).map (fun b => b.2.foldSeq.toNat) ++
    (s.xlat.fst.filter (fun e => bits e.2.toNat 59 3 ≠ 0)).map (fun e =>
      (sget ⟨0, 0, 0, 0, 0⟩ s.xlat.fdesc e.1).allocCseq.toNat)
  let keep := s.time.steps.filter (fun e => !seqs.all (fun q => Nat.ble e.scseq.toNat q))
  if keep.length = s.time.steps.length then s
  else saveSteps { s with time := { s.time with steps := keep } }

/-- The holdover bound R304 applies to a stamp of sequence `q`, none when unbounded (R411). -/
def stampBoundNs (s : State) (q : Nat) : Option Nat :=
  let after := s.time.steps.filter (fun e => Nat.blt q e.scseq.toNat)
  if after.any StepEntry.unb then none
  else (boundNs s).map (fun b => after.foldl (fun a e => a + 1000 * e.deltaUs.natAbs) b)

/-! ## Samples and states (R404 to R407) -/

/-- Whether a source is enabled by the selection in effect (R404). -/
def srcEnabled (s : State) (src : TimeSrc) : Bool :=
  match src, s.time.cfgSrcUse.toNat with
  | .ptm, 0 => true
  | .ptm, 1 => true
  | .timemark, 0 => true
  | .timemark, 2 => true
  | _, _ => false

/-- Whether a sample of a source is used: it is enabled, and PTM has the preference while it is good (R404). -/
def srcUsed (s : State) (src : TimeSrc) : Bool :=
  match src with
  | .ptm => srcEnabled s .ptm
  | .timemark => srcEnabled s .timemark && !(srcEnabled s .ptm && s.time.ptmGood)
  | .none => false

/-- Whether injection point 0x0018 discards the samples of a source now (R517). -/
def srcInjected (s : State) (src : TimeSrc) : Bool :=
  s.evt.armed.any (fun a => a.point.toNat == 0x0018 && a.active) && s.time.source == src

/-- What TIME_OFFSET shows of an offset: the offset in ns, a free value where it does not fit the field (R430; DESIGN CHOICE, log entry 27). -/
def shownOffset (d : Int) (s : State) : BitVec 32 × State :=
  if -(2 ^ 31) ≤ d ∧ d < 2 ^ 31 then (BitVec.ofInt 32 d, s) else drawBits 32 s

/-- A sample's offset shown in TIME_OFFSET and its source marked as having given a good one. -/
def sampleSeen (src : TimeSrc) (d : Int) (s : State) : State :=
  let r := shownOffset d s
  { r.2 with time := { r.2.time with
    offsetNs := r.1
    ptmGood := r.2.time.ptmGood || src == .ptm, markGood := r.2.time.markGood || src == .timemark } }

/-- One good sample of fabric time `value` from a source (R407). An unbounded B is taken as a bound no offset lies
within, so the sample steps FTIME, as R409 with its UNB field describes. A good sample in Locked with an offset between
the rows is trimmed like the first row. -/
def goodSample (src : TimeSrc) (value : Nat) (s : State) : State :=
  let d : Int := (value : Int) - (s.time.ftime.toNat : Int)
  let s := sampleSeen src d s
  if !srcUsed s src then s
  else
    let inBound := match boundNs s with | some b => Nat.ble d.natAbs (b + 1000) | none => false
    if s.time.mode = .locked ∧ 10000 < d.natAbs then
      if 3 ≤ s.time.badRun + 1 then
        timeEvent { s with time := { s.time with
          mode := .holdover, source := .none, badRun := 0, goodRun := 0, slewNs := 0, bSince := s.time.ftime } }
      else { s with time := { s.time with badRun := s.time.badRun + 1 } }
    else if inBound || s.time.mode = .locked then
      let run := if d.natAbs ≤ 1000 then s.time.goodRun + 1 else 0
      let lock := 16 ≤ run
      { s with time := { s.time with
          source := src, slewNs := d, badRun := 0, goodRun := run
          bBaseNs := d.natAbs + 1000, bSince := s.time.ftime
          mode := if lock then .locked else s.time.mode
          unbounded := if lock then false else s.time.unbounded
          disciplined := true } }
    else
      let s := stepTime value s
      { s with time := { s.time with source := src } }

/-- The loss of a source (R407): the other one is taken when it is enabled and good, else Holdover. -/
def loseSource (src other : TimeSrc) (otherGood : Bool) (s : State) : State :=
  if s.time.source ≠ src then s
  else if srcEnabled s other && otherGood then
    timeEvent { s with time := { s.time with source := other } }
  else
    let b := boundNs s
    timeEvent { s with time := { s.time with
      mode := .holdover, source := .none, goodRun := 0, badRun := 0, slewNs := 0
      bBaseNs := b.getD s.time.bBaseNs, bSince := s.time.ftime } }

/-- A change of TIME_CFG.SRC takes effect at a stage boundary (R404). A source in use that the selection leaves out counts as lost, and
with no source selected the device is in Free-run (DEDUCED from R404 and R407, log entry 86). -/
def takeSources (s : State) : State :=
  if s.time.cfgSrcUse = s.time.cfgSrc then s
  else
    let s := { s with time := { s.time with cfgSrcUse := s.time.cfgSrc } }
    if s.time.cfgSrcUse = 3 then
      let b := boundNs s
      let t := { s with time := { s.time with
        mode := .freeRun, source := .none, goodRun := 0, badRun := 0, slewNs := 0
        bBaseNs := b.getD s.time.bBaseNs, bSince := s.time.ftime } }
      if s.time.mode = .freeRun then t else timeEvent t
    else if s.time.source = .none ∨ srcEnabled s s.time.source then s
    else if s.time.source = .ptm then loseSource .ptm .timemark s.time.markGood s
    else loseSource .timemark .ptm s.time.ptmGood s

/-- FTIME advanced to a value, the offset slewed at no more than 50 µs per second (R402, R407). -/
def advanceTo (value : Nat) (s : State) : State :=
  let room := (value - s.time.ftime.toNat) * 50 / 1000000
  let left := s.time.slewNs.natAbs - min room s.time.slewNs.natAbs
  { s with time := { s.time with
      ftime := BitVec.ofNat 64 value
      slewNs := if s.time.slewNs < 0 then -(left : Int) else (left : Int)
      bBaseNs := if s.time.source = .none then s.time.bBaseNs else left + 1000 } }

/-! ## Commands -/

/-- The port PTM runs on (R405). -/
def ptmPort (s : State) : Option Nat :=
  let can (p : Nat) : Bool := (s.host.ports.getD p {}).up && s.time.ptmEnable.getLsbD p
  if can s.time.cfgPtmPort.toNat then some s.time.cfgPtmPort.toNat
  else if s.time.ptmEnable.getLsbD s.time.cfgPtmPort.toNat then none
  else (List.range 4).find? can

/-- PTM_DIALOG_TIMER: one dialog is issued (R405). -/
def execPtmDialogTimer (s : State) : Res :=
  let s := begin s
  match ptmPort s with
  | some p =>
    if srcEnabled s .ptm then ran (send { s with time := { s.time with ptmPending := true } } (.ptmRequest p)) else ran s
  | none => ran s

/-- PTM_RESPONSE: the dialog completes; it is a good sample at a link delay of at most 10 µs (R405, R407). -/
def execPtmResponse (master : BitVec 64) (delayNs : Word) (s : State) : Res :=
  let s := begin s
  if !s.time.ptmPending then ran s
  else
    let s := { s with time := { s.time with ptmPending := false } }
    if Nat.ble delayNs.toNat 10000 && !srcInjected s .ptm then ran (goodSample .ptm master.toNat s) else ran s

/-- TIMEMARK_EDGE: an edge with a valid value is a sample, and the value advances by 1 ms (R406). -/
def execTimemarkEdge (s : State) : Res :=
  let s := begin s
  if !s.time.markValid then ran s
  else
    let v := s.time.markVal
    let s := { s with time := { s.time with markVal := v + 1000000 } }
    if srcInjected s .timemark then ran s else ran (goodSample .timemark v.toNat s)

/-- PTM_SAMPLE_LOSS: no good PTM sample for 100 ms (R407). -/
def execPtmSampleLoss (s : State) : Res :=
  let s := begin s
  ran (loseSource .ptm .timemark s.time.markGood { s with time := { s.time with ptmGood := false } })

/-- TIMEMARK_LOSS: no good edge for 5 ms; the value must be written anew after the gap (R406, R407). -/
def execTimemarkLoss (s : State) : Res :=
  let s := begin s
  ran (loseSource .timemark .ptm s.time.ptmGood { s with time := { s.time with markGood := false, markValid := false } })

/-- HOLDOVER_LIMIT: in Holdover, B has passed TIME_HOLDLIM: Free-run (R407). -/
def execHoldoverLimit (s : State) : Res :=
  let s := begin s
  if s.time.mode = .holdover then ran (timeEvent { s with time := { s.time with mode := .freeRun } }) else ran s

/-- TIME_NOWLO_READ: the low half read, the high half latched (R430, R640). -/
def execTimeNowloRead (s : State) : Res :=
  let s := begin s
  ran (send { s with time := { s.time with nowHi := s.time.ftime.extractLsb' 32 32 } }
    (.regRead (s.time.ftime.extractLsb' 0 32)))

/-- The high half of TIME_MARK written: the value is valid (R430). -/
def writeMarkHi (v : Word) (s : State) : State :=
  { s with time := { s.time with markVal := v ++ s.time.markVal.extractLsb' 0 32, markValid := true } }

/-- TIME_MARKHI_WRITE (R406, R430). -/
def execTimeMarkhiWrite (value : Word) (s : State) : Res := ran (writeMarkHi value (begin s))

end Sys2Proof.Machine
end

