-- ==== Sys2Proof/Machine/Units.lean ====
section
/-! DEFINITION. Units: identifiers, states, containment, changes of state (R464 to R474, R670). -/

namespace Sys2Proof.Machine

/-! ## Identifiers (R464) -/

def uDevice : Nat := 0
def uQuad (q : Nat) : Nat := 0x100000 + q
def uChannel (c : Nat) : Nat := 0x200000 + c
def uDie (d : Nat) : Nat := 0x300000 + d
def uBank (b : Nat) : Nat := 0x400000 + b
def uPort (p : Nat) : Nat := 0x500000 + p
def uHbm (h : Nat) : Nat := 0x600000 + h
def uSensor (n : Nat) : Nat := 0x700000 + n
def uRail (r : Nat) : Nat := 0x800000 + r
def uQueue (q : Nat) : Nat := 0x900000 + q
def uEngine (e : Nat) : Nat := 0xA00000 + e
def uPeer (p : Nat) : Nat := 0xD00000 + p

/-- The class and index of a unit ID. -/
def uClass (u : Nat) : Nat := bits u 20 4
def uIndex (u : Nat) : Nat := bits u 0 20

/-- How many indexes a class has; 0 for an undefined class (R464). -/
def classCount (c : Nat) : Nat := [1, 4, 32, 512, 4096, 4, 4, 64, 32, 64, 9, 0, 256, 512, 1, 0].getD c 0

/-- Whether a unit ID has a defined class and index (R464). -/
def unitKnown (u : Nat) : Bool := Nat.blt (uIndex u) (classCount (uClass u))

/-- Whether a port exists in the lane-group configuration in effect (R20, R25, R27). -/
def portPresent (s : State) (p : Nat) : Bool :=
  let split := s.host.laneCfg.getLsbD (p / 2)
  match s.variant with
  | .x4 => p % 2 == 0 || split
  | .h2 => p == 0 || (p == 1 && split)
  | .l1 => p == 0

/-- Whether the variant has the unit (R3, R464). Spans, peers and the pool are derived from the span state (R465). -/
def unitPresent (s : State) (u : Nat) : Bool :=
  let i := uIndex u
  match uClass u with
  | 1 => Nat.blt i (nQuads s)
  | 2 => Nat.blt i (nChannels s)
  | 3 => Nat.blt i (16 * nChannels s)
  | 4 => Nat.blt i (128 * nChannels s)
  | 5 => portPresent s i
  | 6 => Nat.blt i (nQuads s)
  | 7 => Nat.blt i 24 || (Nat.ble 24 i && Nat.blt i (24 + nChannels s)) || (Nat.ble 56 i && Nat.blt i (56 + nQuads s))
  | 10 => hasSpan s || i != 5
  | _ => unitKnown u

/-- The unit that contains a unit, none for the device and above (01, Units at a glance). -/
def container (u : Nat) : Option Nat :=
  let i := uIndex u
  match uClass u with
  | 1 => some uDevice
  | 2 => some (uQuad (i / 8))
  | 3 => some (uChannel (i / 16))
  | 4 => some (uDie (i / 8))
  | 5 => some uDevice
  | 6 => some uDevice
  | 7 => some uDevice
  | 8 => some uDevice
  | 9 => some uDevice
  | 10 => some uDevice
  | _ => none

/-! ## Power to a unit (R22, R670) -/

/-- Whether a rail is sequenced (R540). -/
def sequenced (s : State) (r : Nat) : Bool := (s.power.rails.getD r {}).pgTmo != 0

/-- The sequenced rails whose group holds domain `d`: 0 core, 1 SRAM, 2 SerDes, 3 HBM, 4 media I/O (R527). -/
def domainRails (s : State) (d : Nat) : List Nat :=
  (List.range 32).filter (fun r => sequenced s r && (s.power.rails.getD r {}).domains.getLsbD d)

/-- Whether a rail is up: enabled, good and not flagged. -/
def railUp (s : State) (r : Nat) : Bool :=
  s.power.enable.getLsbD r && s.power.good.getLsbD r && !s.power.flagged.getLsbD r

/-- Whether a domain is on: some sequenced rail feeds it and every one that does is up. -/
def domainOn (s : State) (d : Nat) : Bool := !(domainRails s d).isEmpty && (domainRails s d).all (railUp s)

/-- The sequenced rails that feed the stack of a channel. -/
def stackRails (s : State) (c : Nat) : List Nat :=
  (List.range 32).filter (fun r => sequenced s r && (s.power.rails.getD r {}).channels.getLsbD c)

/-- The channel a channel, die or bank belongs to. -/
def unitChannel (u : Nat) : Nat :=
  match uClass u with
  | 2 => uIndex u
  | 3 => uIndex u / 16
  | _ => uIndex u / 128

/-- The sequenced rails that feed an HBM stack. -/
def hbmRails (s : State) (h : Nat) : List Nat :=
  (List.range 32).filter (fun r => sequenced s r && (s.power.rails.getD r {}).hbm.getLsbD h) ++ domainRails s 3

/-- The sequenced rails that feed every unit of the core and SRAM domains (R670). -/
def coreRails (s : State) : List Nat := domainRails s 0 ++ domainRails s 1

/-- The sequenced rails that feed a unit, by its domain and by the rail groups that name it (R22, R549, R670). -/
def unitRails (s : State) (u : Nat) : List Nat :=
  let i := uIndex u
  match uClass u with
  | 1 => coreRails s
  | 2 => coreRails s ++ stackRails s i ++ domainRails s 4
  | 3 => coreRails s ++ stackRails s (unitChannel u) ++ domainRails s 4
  | 4 => coreRails s ++ stackRails s (unitChannel u) ++ domainRails s 4
  | 5 => domainRails s 2
  | 6 => hbmRails s i
  | 7 => if i < 24 then coreRails s else if i < 56 then coreRails s ++ stackRails s (i - 24) else hbmRails s (i - 56)
  | 9 => coreRails s
  | 10 => coreRails s
  | _ => []

/-- The domain whose being off makes a unit Off (R670); none for the device and above. -/
def unitDomain (u : Nat) : Option Nat :=
  match uClass u with
  | 1 => some 0
  | 2 => some 0
  | 3 => some 0
  | 4 => some 0
  | 5 => some 2
  | 6 => some 3
  | 7 => if uIndex u < 56 then some 0 else some 3
  | 9 => some 0
  | 10 => some 0
  | _ => none

/-! ## States (R466, R18) -/

/-- The code of a unit state (R466). -/
def ustCode : UState → Nat
  | .absent => 0 | .off => 1 | .idle => 2 | .ready => 3 | .degraded => 4 | .testing => 5 | .bypassed => 6
  | .isolated => 7 | .retired => 8

/-- The record a unit holds; a port never changed is Degraded, its link being down (R29); an unassigned queue is Idle (R487). -/
def unitRec (s : State) (u : Nat) : UnitRec :=
  match sfind s.unit.units u with
  | some r => r
  | none =>
    if uClass u = 5 then { st := .degraded, reason := 6 }
    else if uClass u = 9 ∧ qUse s (uIndex u) = 0 then { st := .idle } else {}

/-- The state of the span unit (R465). -/
def spanUnitState (s : State) : UState :=
  match s.span.spanState.toNat with
  | 0 => .absent
  | 1 => .idle
  | 2 => .ready
  | _ => .degraded

/-- The state of a peer device by SPAN_PEER.STATE (R465, R400): 0 none, 1 Joining, 2 Live, 3 Lost, 4 Unhitched,
5 Remount. -/
def peerUnitState (st : Nat) : UState :=
  match st with
  | 1 => .idle
  | 2 => .ready
  | 3 => .isolated
  | 4 => .isolated
  | 5 => .degraded
  | _ => .absent

/-- The member index of a pool index in the device's span. -/
def memberOf (s : State) (pool : Nat) : Option Nat :=
  match s.span.desc with
  | some d => (List.range (d.k + d.m).toNat).find? (fun r => (d.members.getD r 0xFFFF).toNat == pool)
  | none => none

/-- Whether a rail's units are Absent: it is flagged, or isolated or retired (R22, R471). -/
def railGone (s : State) (r : Nat) : Bool :=
  let st := (unitRec s (uRail r)).st
  s.power.flagged.getLsbD r || st == .isolated || st == .retired

/-- The own state of a unit (R466, R670). -/
def ownState (s : State) (u : Nat) : UState :=
  let r := unitRec s u
  if uClass u = 0 then .ready
  else if uClass u = 12 then
    (match s.span.desc with | some d => if d.span.toNat = uIndex u then spanUnitState s else .absent | none => .absent)
  else if uClass u = 13 then
    (match memberOf s (uIndex u) with
      | some m => peerUnitState (s.span.peers.getD m {}).st.toNat
      | none => .absent)
  else if uClass u = 14 then (if s.span.selfIdx.isSome then .ready else .absent)
  else if !unitPresent s u then .absent
  else if r.st = .absent ∨ r.st = .isolated ∨ r.st = .retired then r.st
  else if (unitRails s u).any (railGone s) then .absent
  else if uClass u = 8 then (if s.power.enable.getLsbD (uIndex u) then r.st else .off)
  else if (unitDomain u).any (fun d => !domainOn s d) then .off
  else if (uClass u = 3 ∨ uClass u = 4) ∧ (stackRails s (unitChannel u)).any (fun q => !s.power.enable.getLsbD q) then
    .off
  else r.st

/-- The containers of a unit, nearest first. -/
def containers (u : Nat) : List Nat :=
  match container u with
  | none => []
  | some a => a :: (match container a with
    | none => []
    | some b => b :: (match container b with
      | none => []
      | some c => c :: (match container c with | none => [] | some d => [d])))

/-- The span and the pool that contain a unit from outside the device (01, Units at a glance): both contain the device and the
members of its span, the pool its span. -/
def outerUnits (s : State) (u : Nat) : List Nat :=
  match s.span.desc with
  | some d =>
    if uClass u = 0 ∨ (uClass u = 13 ∧ (memberOf s (uIndex u)).isSome) then [0xC00000 + d.span.toNat, 0xE00000]
    else if uClass u = 12 ∧ uIndex u = d.span.toNat then [0xE00000] else []
  | none => []

/-- The reported state (R18): of several containers that are not Ready the outermost one's own state counts, and the units inside the
device look no further out than the device, whose own state is always Ready (DESIGN CHOICE, log entry 68); else the unit's own. -/
def reportedState (s : State) (u : Nat) : UState :=
  match (outerUnits s u ++ containers u).reverse.find? (fun c => ownState s c ≠ .ready) with
  | some c => ownState s c
  | none => ownState s u

/-- Whether a state carries traffic (R466). -/
def inService (st : UState) : Bool := st == .idle || st == .ready || st == .degraded

/-- Whether a unit and everything that contains it carry traffic. -/
def carries (s : State) (u : Nat) : Bool := (u :: containers u).all (fun v => inService (ownState s v))

/-- Whether a unit is down: Off, Isolated, Retired or Absent (R478). -/
def isDown (st : UState) : Bool := st == .off || st == .isolated || st == .retired || st == .absent

/-! ## Saved states (R468, R530) -/

/-- The unit at position n of the UNITS record (R530). -/
def unitAt (n : Nat) : Nat :=
  if n < 4 then uQuad n else if n < 36 then uChannel (n - 4) else if n < 548 then uDie (n - 36)
  else if n < 4644 then uBank (n - 548) else if n < 4648 then uPort (n - 4644) else if n < 4652 then uHbm (n - 4648)
  else if n < 4716 then uSensor (n - 4652) else if n < 4748 then uRail (n - 4716) else uQueue (n - 4748)

/-- The position of a unit in the UNITS record; none for classes it does not save. -/
def unitPos (u : Nat) : Option Nat :=
  match uClass u with
  | 1 => some (uIndex u)
  | 2 => some (4 + uIndex u)
  | 3 => some (36 + uIndex u)
  | 4 => some (548 + uIndex u)
  | 5 => some (4644 + uIndex u)
  | 6 => some (4648 + uIndex u)
  | 7 => some (4652 + uIndex u)
  | 8 => some (4716 + uIndex u)
  | 9 => some (4748 + uIndex u)
  | _ => none

/-- The 2-bit code of a unit in UNITS: 0 in service, 1 Isolated, 2 Retired. -/
def unitCode (s : State) (n : Nat) : Nat :=
  if 4812 ≤ n then 0
  else match (unitRec s (unitAt n)).st with
  | .isolated => 1
  | .retired => 2
  | _ => 0

/-- The payload of UNITS record i. -/
def unitsPayload (s : State) (i : Nat) : List Byte :=
  (List.range 240).map (fun b =>
    let n := 960 * i + 4 * b
    BitVec.ofNat 8 (unitCode s n + 4 * unitCode s (n + 1) + 16 * unitCode s (n + 2) + 64 * unitCode s (n + 3)))

/-- The UNITS record that holds a unit written again (R530). -/
def saveUnit (s : State) (u : Nat) : State :=
  match unitPos u with
  | some n => sbEnqueue s (.ring 0x64 (n / 960) (unitsPayload s (n / 960)))
  | none => s

/-- The units a resolved set of UNITS records holds out of service (R468). -/
def unitsFromRing (m : List Host.Cell) : List (Nat × UState) :=
  (List.range 6).flatMap (fun i =>
    match ringPayload m 0x64 i with
    | none => []
    | some p => (List.range 960).filterMap (fun k =>
        let c := bits (field p (k / 4) 1) (2 * (k % 4)) 2
        if c = 1 then some (unitAt (960 * i + k), UState.isolated)
        else if c = 2 then some (unitAt (960 * i + k), UState.retired) else none))

/-! ## Changes of state -/

/-- The severity of a UNIT_STATE record (R508). -/
def stateSev (st : UState) : Nat :=
  match st with
  | .degraded => 2 | .isolated => 2 | .retired => 2 | .absent => 2 | _ => 1

/-- The UNIT_STATE record of a change (R474). -/
def stateEvent (u : Nat) (old new : UState) (reason : Nat) (repl : Bool) (s : State) : State :=
  event { code := 0x0101, unit := u, p0 := ustCode old, p1 := ustCode new, p2 := reason, sev := some (stateSev new),
          repl := repl } s

/-- The messages waiting in the mailboxes of a unit that leaves service answered DOWN (R484): a block mailbox of a channel, key
32 × slot + channel, or a word mailbox of a quadrant, key 4 × slot + quadrant. -/
def mailDown (u : Nat) (s : State) : State :=
  if uClass u = 2 then
    { s with unit := { s.unit with cmb := s.unit.cmb.map (fun e =>
        if e.1 % 32 = uIndex u ∧ e.2.go then (e.1, { e.2 with go := false, result := 4
                                                              data := lmod e.2.data 0 (fun w => w &&& 0xFF00FFFF) }) else e) } }
  else if uClass u = 1 then
    { s with unit := { s.unit with qmb := s.unit.qmb.map (fun e =>
        if e.1 % 4 = uIndex u ∧ e.2.reqFull then (e.1, { e.2 with
          reqFull := false, rspFull := true, rspLo := (e.2.reqLo &&& 0x00FFFFFF) ||| 0x04000000, rspHi := 0 }) else e) } }
  else s

/-- A unit's own state committed: the record, the Waybill, the Strongbox for Isolated and Retired and when they end, and
the points armed on a unit that leaves service (R468, R474, R518). `repl` asks for replacement. -/
def setUnit (u : Nat) (st : UState) (reason : Nat) (repl : Bool) (s : State) : State :=
  let old := ownState s u
  let was := (unitRec s u).st
  let s1 := { s with unit := { s.unit with
    units := sput s.unit.units u { unitRec s u with st := st, reason := BitVec.ofNat 8 reason, since := s.time.ftime } } }
  let s2 := if inService st then s1
    else { s1 with evt := { s1.evt with armed := s1.evt.armed.filter (fun a => a.unit.toNat != u) } }
  let saved := fun x : UState => x = .isolated ∨ x = .retired
  let s3 := if saved st ∨ saved was then saveUnit s2 u else s2
  stateEvent u old st reason repl (if isDown st then mailDown u s3 else s3)

/-- A request wakes a unit that is Idle (R467). -/
def wakeUnit (u : Nat) (s : State) : State := if ownState s u = .idle then setUnit u .ready 0 false s else s

/-- A unit's last test result stored (R469). -/
def setTest (u : Nat) (result first : Nat) (destructive : Bool) (s : State) : State :=
  { s with unit := { s.unit with units := sput s.unit.units u { unitRec s u with
      test := BitVec.ofNat 32 (result + 256 * b2n destructive + 65536 * first) } } }

/-! ## Contained units (R448) -/

/-- The children of a unit, one level down. -/
def children (s : State) (u : Nat) : List Nat :=
  let i := uIndex u
  match uClass u with
  | 0 => (List.range 4).map uQuad ++ (List.range 4).map uPort ++ (List.range 4).map uHbm ++ (List.range 64).map uSensor ++
      (List.range 32).map uRail ++ (List.range 64).map uQueue ++ (List.range 9).map uEngine
  | 1 => (List.range 8).map (fun c => uChannel (8 * i + c))
  | 2 => (List.range 16).map (fun d => uDie (16 * i + d))
  | 3 => (List.range 8).map (fun b => uBank (8 * i + b))
  | 12 => (match s.span.desc with
    | some d => if d.span.toNat = i then
        ((d.members.take (d.k + d.m).toNat).filter (fun x => x ≠ 0xFFFF)).map (fun x => uPeer x.toNat) else []
    | none => [])
  | 14 => ((s.span.pool.filter (fun e => e.2.gen ≠ 0)).map (fun e => e.2.span.toNat) |> dedup).map
      (fun x => 0xC00000 + x)
  | _ => []

/-- The count of units contained at every depth, over the units the variant has (R448). -/
def containedCount (s : State) (u : Nat) : Nat :=
  let kids := fun l : List Nat => (l.flatMap (children s)).filter (unitPresent s)
  let a := (children s u).filter (unitPresent s)
  if uClass u = 12 ∨ uClass u = 14 then a.length
  else
    let b := kids a
    let c := kids b
    let d := kids c
    a.length + b.length + c.length + d.length

/-! ## Jobs (R444 to R446) -/

/-- The running job that holds a unit exclusively. -/
def holdingJob (s : State) (u : Nat) : Option Job :=
  s.unit.running.find? (fun j => match j.kind with
    | .unitTest v _ _ => v.toNat == u
    | .unitBypass v => v.toNat == u
    | .unitIsolate v => v.toNat == u
    | .unitReadmit v => v.toNat == u
    | .unitRetire v => v.toNat == u
    | _ => false)

/-- A job started: its ID, and the state that holds it. IDs run from 1 to 65,535 and skip 0 (R444). -/
def startJob (op : Nat) (c : Caller) (k : JobKind) (s : State) : BitVec 16 × State :=
  let id := s.unit.nextJob
  (id, { s with unit := { s.unit with
    running := s.unit.running ++ [⟨id, BitVec.ofNat 16 op, c, k, 0, false, 1, 0⟩]
    nextJob := if id = 0xFFFF then 1 else id + 1 } })

/-- The LD whose event log hears of a caller's job: a host LD, or the LD of an SLD function (R444, R509). -/
def callerLd (s : State) : Caller → Option Nat
  | .host p l => some (16 * p.val + l.val)
  | .fm p => if (s.host.ports.getD p.val {}).mld then none else some (16 * p.val)
  | .sideband => none

/-- A job ended: kept among the 256 last, recorded, told to its caller's LD (R444). -/
def endJob (id : BitVec 16) (mstat : Nat) (s : State) : State :=
  match s.unit.running.find? (fun j => j.id == id) with
  | none => s
  | some j =>
    let (v, s) := drawBits 10 s
    let e := { j with done := true, mstat := BitVec.ofNat 16 mstat, endedAt := s.time.ftime
                      progress := if mstat = 0 then 1000 else max j.progress (v.toNat % 1000) }
    let ended := s.unit.ended.filter (fun x => x.id != id) ++ [e]
    let s := { s with unit := { s.unit with
      running := s.unit.running.filter (fun x => x.id != id)
      ended := ended.drop (ended.length - 256) } }
    event { code := 0x0102, p0 := id.toNat, p1 := j.opcode.toNat, p2 := mstat, ld := callerLd s j.caller } s

end Sys2Proof.Machine
end

