-- ==== Sys2Proof/Machine/Cache.lean ====
section
/-! DEFINITION. The Near Cache and the Bulk Cache (R188 to R218), dirty occupancy and DevLoad (R61 to R64, R156). -/

namespace Sys2Proof.Machine

/-! ## Lines and their owners -/

/-- The fields of an LLN (R73). -/
def lfnOf (lln : Nat) : Nat := lln / 65536
def lineOf (lln : Nat) : Nat := lln % 65536

/-- The poison pattern (R339). -/
def poisonLine : Line :=
  BitVec.ofNat 512 (ofLe (List.replicate 4 [0x42, 0x5A, 0x36, 0x34, 0x50, 0x4F, 0x49, 0x53, 0x4F, 0x4E, 0x45, 0x44,
    0x4C, 0x49, 0x4E, 0x45]).flatten)

/-- The LD whose range map holds an LFN (R40, R41). -/
def ownerOf (s : State) (lfn : Nat) : Option Nat :=
  s.host.lds.findIdx? (fun d => d.ranges.any (fun r => Nat.ble r.lfn lfn && Nat.blt lfn (r.lfn + r.length)))

/-- The key pair of an LFN's LD; 0 when it has none. -/
def keyOf (s : State) (lfn : Nat) : BitVec 512 :=
  match ownerOf s lfn with
  | some i => (s.host.lds.getD i {}).key
  | none => 0

/-- A line encrypted and decrypted by the request router (R11, R607): the tweak is the DPA of its byte 0. -/
def encLine (s : State) (lln : Nat) (p : Line) : Line := xtsEncrypt (keyOf s (lfnOf lln)) (64 * lln) p
def decLine (s : State) (lln : Nat) (c : Line) : Line := xtsDecrypt (keyOf s (lfnOf lln)) (64 * lln) c

/-- The bytes of `new` in `mask` merged over `old`, both ciphertext of the line: poison stays poison (R59, R158). -/
def mergeLine (s : State) (lln : Nat) (old new : Line) (mask : BitVec 64) : Line :=
  if mask = BitVec.allOnes 64 then new
  else if old = poisonLine then poisonLine
  else encLine s lln (mergeBytes (decLine s lln old) (decLine s lln new) mask)

/-! ## The poison list (R59, R60) -/

/-- A poison list record of a line, and the record's end (R59, R60). -/
def poisonAdd (lln : Nat) (src : PoisonSrc) (s : State) : State :=
  match ownerOf s (lfnOf lln) with
  | none => s
  | some i => { s with host := { s.host with lds := lmod s.host.lds i (fun d =>
      if d.poison.any (fun p => p.1 == lln) then d
      else if 4096 ≤ d.poison.length then { d with poisonOverflow := true, unlisted := d.unlisted.filter (fun l => l != lln) ++ [lln] }
      else { d with poison := d.poison ++ [(lln, src)], unlisted := d.unlisted.filter (fun l => l != lln) }) } }
def poisonDel (lln : Nat) (s : State) : State :=
  match ownerOf s (lfnOf lln) with
  | none => s
  | some i => { s with host := { s.host with lds := lmod s.host.lds i (fun d =>
      { d with poison := d.poison.filter (fun p => p.1 != lln), unlisted := d.unlisted.filter (fun l => l != lln) }) } }

/-! ## Near Cache (R188 to R194) -/

/-- The set index of an LLN (R189). -/
def ncSet (lln : Nat) : Nat := bits lln 0 15 ^^^ bits lln 15 15 ^^^ bits lln 30 10

/-- The ways, as table keys 16 × set + way, that hold a line. -/
def ncWays (s : State) (lln : Nat) : List Nat :=
  ((List.range 16).map (fun w => 16 * ncSet lln + w)).filter (fun k =>
    let w := sget {} s.cache.near k
    w.st ≠ .invalid && w.lln == lln)

/-- The state of a way. -/
def ncWay (s : State) (k : Nat) : NcWay := sget {} s.cache.near k

/-- A way written. -/
def ncSetWay (s : State) (k : Nat) (w : NcWay) : State :=
  { s with cache := { s.cache with near := sset {} s.cache.near k w } }

/-- `pick(half, n)` of R192: the way chosen, as a table key; `half` is 0 or 8. -/
def ncPick (s : State) (set half : Nat) : Nat :=
  let n := bits s.cache.lfsrNear.toNat 0 3
  let key := fun w => 16 * set + half + w
  let turn := (List.range 8).map (fun i => (n + i) % 8)
  let st := fun w => (ncWay s (key w)).st
  match (List.range 8).find? (fun w => st w = .invalid) with
  | some w => key w
  | none =>
    match turn.find? (fun w => st w = .clean) with
    | some w => key w
    | none =>
      match turn.find? (fun w => !(ncWay s (key w)).busy) with
      | some w => key w
      | none => key n

/-- Whether a way's data and tag have good parity (R210). -/
def wayGood (w : NcWay) : Bool := w.bad == 0 && !w.tagBad

/-- The groups of 32 bits a mask covers whole (R210). -/
def groupsWhole (mask : BitVec 64) : BitVec 16 :=
  BitVec.ofNat 16 ((List.range 16).foldl (fun a g => a + (if bits mask.toNat (4 * g) 4 = 15 then 2 ^ g else 0)) 0)

/-- The groups of 32 bits a mask covers in part (R210). -/
def groupsPart (mask : BitVec 64) : BitVec 16 :=
  BitVec.ofNat 16 ((List.range 16).foldl (fun a g =>
    a + (let n := bits mask.toNat (4 * g) 4; if n ≠ 0 ∧ n ≠ 15 then 2 ^ g else 0)) 0)

/-- Whether a way's groups in `g`, and its tag, have good parity (R210). -/
def wayGoodIn (g : BitVec 16) (w : NcWay) : Bool := w.bad &&& g == 0 && !w.tagBad

/-- The groups in `g` of a way rewritten from the other copy, with its tag (R210). -/
def wayHeal (g : BitVec 16) (w o : NcWay) : NcWay :=
  let m := BitVec.ofNat 512 ((List.range 16).foldl (fun a i => a + (if g.getLsbD i then 0xFFFFFFFF * 2 ^ (32 * i) else 0)) 0)
  { w with data := (w.data &&& ~~~ m) ||| (o.data &&& m), bad := w.bad &&& ~~~ g, tagBad := false }

/-! ## Bulk Cache: the dirty region (R198 to R203) -/

/-- The hash of a 40-bit key (R197, R200). -/
def hash40 (v : Nat) : Nat := crc32c (leBytes 5 v)

/-- The candidate buckets of an LLN (R200). -/
def bucket1 (s : State) (lln : Nat) : Nat := hash40 (lln ^^^ s.cache.k1.toNat) % s.cache.nBuckets
def bucket2 (s : State) (lln : Nat) : Nat := hash40 (lln ^^^ s.cache.k2.toNat) % s.cache.nBuckets

/-! ### HBM units, their places, errors and remap (R199, R211 to R215, R675) -/

/-- The number of 4 KiB blocks of an HBM channel (R214, R675). -/
def hbmBlocks : Nat := 589824

/-- The HBM channels of the variant, 16 to a stack. -/
def hbmChannels (s : State) : Nat := 16 * nQuads s

/-- The HBM channel and block of a place of this start's layout: region n mod 8, index n / 8. Which it is is not specified; every run of
as many indexes of a region as there are HBM channels has one place in each, so each region is spread over all of them, by a rotation and
blocks that are free (R675; DESIGN CHOICE, log entry 91). -/
def hbmPlace (s : State) (n : Nat) : Nat × Nat :=
  let i := n / 8
  let ch := hbmChannels s
  let free := Config.hbmSpot s.start.pcycle.toNat
  ((i + free (2 * (8 * (i / ch) + n % 8))) % ch, free (2 * n + 1) % hbmBlocks)

/-- The place of a bucket's tag copies: in another stack than its tags, on the L1 in another channel of the one stack (R199). -/
def copyPlace (s : State) (b : Nat) : Nat × Nat :=
  let v := Config.hbmSpot s.start.pcycle.toNat (2 * (8 * b + 2) + 1)
  let tag := (hbmPlace s (8 * b + 1)).1
  let off := if nQuads s = 1 then 1 + v % 15 else 16 * (1 + v % (nQuads s - 1))
  ((tag + off) % hbmChannels s, v / hbmChannels s % hbmBlocks)

/-- Where a unit lies: the lines, tags and tag copies of a bucket each in one block, a page with its lines and tag in one block; none for
a line of the on-die stash (R200). -/
def unitPlace (s : State) (u : HbmUnit) : Option (Nat × Nat) :=
  let bucket := fun l => (sfind s.cache.dirty l).bind (fun d => d.bucket)
  match u with
  | .slotLine l => (bucket l).map (fun b => hbmPlace s (8 * b))
  | .slotTag l => (bucket l).map (fun b => hbmPlace s (8 * b + 1))
  | .slotCopy l => (bucket l).map (fun b => copyPlace s b)
  | .pageLine l => ((s.cache.pages.find? (fun e => e.2.inUse && e.2.page == l / 64)).map (fun e => hbmPlace s (8 * e.1 + 3)))
  | .pageTag k => some (hbmPlace s (8 * k + 3))
  | .residency f => some (hbmPlace s (8 * f + 4))
  | .image f => some (hbmPlace s (8 * f + 5))
  | .index k => some (hbmPlace s (8 * k + 6))
  | .summary f => some (hbmPlace s (8 * f + 7))

/-- The number of 8-bit symbols of a 32-byte unit that the masks of an armed point damage (R211, R516). -/
def hbmSymbols (a : Armed) : Nat :=
  (if a.word.toNat < 4 then (List.range 8).countP (fun i => bits a.mask.toNat (8 * i) 8 ≠ 0) else 0) +
    (List.range 2).countP (fun i => bits a.check.toNat (8 * i) 8 ≠ 0)

/-- A unit written: an error it had is gone, and injection point 0x0003 armed on its stack damages it (R517, R675). -/
def hbmWrite (u : HbmUnit) (s : State) : State :=
  let s := { s with cache := { s.cache with hbmErr := s.cache.hbmErr.filter (fun e => e.unit != u) } }
  match unitPlace s u with
  | none => s
  | some p =>
    match s.evt.armed.find? (fun a => a.point.toNat == 0x0003 && a.unit.toNat == uHbm (p.1 / 16)) with
    | none => s
    | some a =>
      let n := hbmSymbols a
      let s := fire 0x0003 (uHbm (p.1 / 16)) s
      if n = 0 then s else { s with cache := { s.cache with hbmErr := s.cache.hbmErr ++ [⟨u, Nat.blt 1 n⟩] } }

/-- A block whose remap begins (R214). -/
def startRemap (p : Nat × Nat) (s : State) : State :=
  if s.cache.remapCopies.contains p then s else { s with cache := { s.cache with remapCopies := s.cache.remapCopies ++ [p] } }

/-- A correctable unit: corrected, written back, counted for its channel; the fourth correction of its block within 24 h starts the block's
remap (R211, R214). -/
def hbmCorrect (p : Nat × Nat) (s : State) : State :=
  let key := 2 ^ 20 * p.1 + p.2
  let now := s.time.ftime
  let l := (sget [] s.cache.corrections key).filter (fun t => Nat.ble (now.toNat - t.toNat) (86400 * 1000000000)) ++ [now]
  let s := { s with cache := { s.cache with corrections := sset [] s.cache.corrections key (if 4 ≤ l.length then [] else l) } }
  ceError 1 p.1 (if 4 ≤ l.length then startRemap p s else s)

/-- A unit accessed: true when its content is lost, with the record of the uncorrectable error and its block's remap begun (R211, R212,
R214). Where in its block a unit lies is not specified. -/
def hbmMeet (u : HbmUnit) (s : State) : Bool × State :=
  match unitPlace s u with
  | some p =>
    if ownState s (uHbm (p.1 / 16)) = .absent then (true, event { code := 0x0901, unit := uHbm (p.1 / 16), p0 := p.1, p1 := 4096 * p.2 } s)
    else hbmErrMeet u s
  | none => hbmErrMeet u s
where
  hbmErrMeet (u : HbmUnit) (s : State) : Bool × State :=
  match s.cache.hbmErr.find? (fun e => e.unit == u), unitPlace s u with
  | some e, some p =>
    let s := { s with cache := { s.cache with hbmErr := s.cache.hbmErr.filter (fun x => x.unit != u) } }
    if e.uncorrectable then
      let (o, s) := drawBits 7 s
      (true, event { code := 0x0901, unit := uHbm (p.1 / 16), p0 := p.1, p1 := 4096 * p.2 + 32 * o.toNat } (startRemap p s))
    else (false, hbmWrite u (hbmCorrect p s))
  | _, _ => (false, s)

/-- Whether a unit lies in a block in copy: accesses to it wait (R214). -/
def hbmWaits (s : State) (u : HbmUnit) : Bool :=
  match unitPlace s u with | some p => s.cache.remapCopies.contains p | none => false

/-- Whether a page way, or any part of a bucket, lies in a fenced block (R215). -/
def wayFenced (s : State) (k : Nat) : Bool := s.cache.fenced.contains (hbmPlace s (8 * k + 3))
def bucketFenced (s : State) (b : Nat) : Bool :=
  s.cache.fenced.contains (hbmPlace s (8 * b)) || s.cache.fenced.contains (hbmPlace s (8 * b + 1)) || s.cache.fenced.contains (copyPlace s b)

/-! ### The tag cache (R206) -/

/-- A tag looked up: an entry present is used, a damaged one corrected or dropped and read again, an absent one filled in
the lowest empty entry or the one the tag cache LFSR names; injection point 0x0005 damages the entry written. -/
def tagTouch (tag : Nat) (s : State) : State :=
  let s := match (s.cache.tagc.find? (fun e => e.2 == tag)).bind (fun e =>
      (s.cache.tagcBad.find? (fun b => b.1 == e.1))) with
    | none => s
    | some (k, correctable) =>
      let s := { s with cache := { s.cache with tagcBad := s.cache.tagcBad.filter (fun b => b.1 != k) } }
      if correctable then ceError 3 0 s
      else { s with cache := { s.cache with tagc := sdel s.cache.tagc k } }
  if s.cache.tagc.any (fun e => e.2 == tag) then s
  else
    let k := if s.cache.tagc.length < 32768 then
        ((List.range (s.cache.tagc.length + 1)).find? (fun k => (sfind s.cache.tagc k).isNone)).getD 0
      else s.cache.lfsrTag.toNat % 32768
    let s := { s with cache := { s.cache with
      tagc := sput s.cache.tagc k tag, tagcBad := s.cache.tagcBad.filter (fun b => b.1 != k) } }
    match s.evt.armed.find? (fun a => a.point.toNat == 0x0005 && a.unit.toNat == 0) with
    | none => s
    | some a =>
      let n := popc a.mask + popc a.check
      let s := fire 0x0005 0 s
      if n = 0 then s else { s with cache := { s.cache with tagcBad := s.cache.tagcBad ++ [(k, n == 1)] } }

/-- The set of a page. -/
def pageSet (s : State) (page : Nat) : Nat := hash40 (page ^^^ s.cache.kp.toNat) % (s.cache.nPages / 8)

/-- The half of a bucket's dirty tags, and the tag set of a page, as tag cache entries (R206). -/
def slotTagKey (b : Nat) : List Nat := [4 * b + 1, 4 * b + 2]
def pageTagKey (s : State) (page : Nat) : Nat := 4 * pageSet s page

/-- The tags an access to a line reads or writes: the page tags of its set, and both halves of the dirty tags of each candidate bucket
(R200, R206). -/
def tagsTouch (lln : Nat) (s : State) : State :=
  let halves := if s.cache.nBuckets = 0 then [] else
    [bucket1 s lln, bucket2 s lln].flatMap slotTagKey
  (pageTagKey s (lln / 64) :: halves).foldl (fun s t => tagTouch t s) s

/-- The tag of a line's slot written through the tag cache, where a bucket holds it; the tag of a resident page (R206). -/
def slotTagTouch (lln : Nat) (s : State) : State :=
  match (sfind s.cache.dirty lln).bind (fun d => d.bucket) with
  | some b => (slotTagKey b).foldl (fun s t => tagTouch t s) s
  | none => s
def pageTagTouch (page : Nat) (s : State) : State := tagTouch (pageTagKey s page) s

/-! ### Slots and buckets -/

/-- The USED slots of a bucket. -/
def bucketLoad (s : State) (b : Nat) : Nat := s.cache.dirty.countP (fun e => e.2.bucket == some b)

/-- Where a new line goes: a bucket, after a move where one is needed, or the stash (R200 steps 2 to 4). A bucket in a fenced block counts as
full for step 2 (R215). -/
def drChoose (s : State) (lln : Nat) : Option Nat × Option (Nat × Nat) :=
  if s.cache.nBuckets = 0 then (none, none)
  else
    let h1 := bucket1 s lln
    let h2 := bucket2 s lln
    let load := fun b => if bucketFenced s b then 16 else bucketLoad s b
    let b := if load h2 < load h1 then h2 else h1
    if load b < 16 then (some b, none)
    else
      match s.cache.dirty.find? (fun e =>
        (e.2.bucket == some h1 || e.2.bucket == some h2) &&
          (let o := if e.2.bucket == some (bucket1 s e.1) then bucket2 s e.1 else bucket1 s e.1
           e.2.bucket != some o && Nat.blt (bucketLoad s o) 16)) with
      | some e =>
        let o := if e.2.bucket == some (bucket1 s e.1) then bucket2 s e.1 else bucket1 s e.1
        (e.2.bucket, some (e.1, o))
      | none => (none, none)

/-- The tag and the tag copy of a slot written, by the tag cache (R199, R206). -/
def tagsWritten (lln : Nat) (s : State) : State := hbmWrite (.slotCopy lln) (hbmWrite (.slotTag lln) (slotTagTouch lln s))

/-- The units of a slot written: line, tag, tag copy, and the frame's residency entry, whose counts follow (R199, R204). -/
def slotWritten (lln : Nat) (s : State) : State :=
  hbmWrite (.residency (lfnOf lln)) (tagsWritten lln (hbmWrite (.slotLine lln) s))

/-- A slot's content set. -/
def putSlot (lln : Nat) (d : DSlot) (s : State) : State :=
  slotWritten lln { s with cache := { s.cache with dirty := sput s.cache.dirty lln d } }

/-- A slot's marks set: only its tags are written. -/
def markSlot (lln : Nat) (f : DSlot → DSlot) (s : State) : State :=
  match sfind s.cache.dirty lln with
  | some d => tagsWritten lln { s with cache := { s.cache with dirty := sput s.cache.dirty lln (f d) } }
  | none => s

/-- A slot freed: USED 0 written to its tags, the residency counts follow, and what errors its units had go. -/
def freeSlot (lln : Nat) (s : State) : State :=
  let s := hbmWrite (.residency (lfnOf lln)) (tagsWritten lln s)
  { s with cache := { s.cache with
      dirty := sdel s.cache.dirty lln
      hbmErr := s.cache.hbmErr.filter (fun e => !([HbmUnit.slotLine lln, .slotTag lln, .slotCopy lln].contains e.unit)) } }

/-- Whether a line is known poisoned: it has a poison list record, or is poisoned beyond the list's limit (R60). -/
def poisonListed (s : State) (lln : Nat) : Bool :=
  match ownerOf s (lfnOf lln) with
  | some i => let d := s.host.lds.getD i {}; d.poison.any (fun p => p.1 == lln) || d.unlisted.contains lln
  | none => false

/-- The bytes of a partial write laid over held bytes: where together they fill the line, it stays poisoned while the line is known
poisoned, on the list or beyond it, since only one full write ends poison (R59, R60, R342; DEDUCED, log entry 72). -/
def mergePart (s : State) (lln : Nat) (old new : Line) (had mask : BitVec 64) : Line :=
  if mask ≠ BitVec.allOnes 64 ∧ had ≠ BitVec.allOnes 64 ∧ had ||| mask = BitVec.allOnes 64 ∧ poisonListed s lln then poisonLine
  else mergeLine s lln old new mask

/-- Every copy of a dirty line lost (R148, R210, R212): a span member recovers the line through its outriders, a device
without span protection poisons it, with its record. Both copies in the Near Cache leave the record of R508. -/
def lineLost (lln : Nat) (near : Bool) (s : State) : State :=
  let s := if near then event { code := 0x0903, p0 := lln } s else s
  if s.span.desc.isSome then
    if s.cache.lost.contains lln then s else { s with cache := { s.cache with lost := s.cache.lost ++ [lln] } }
  else
    event { code := 0x0201, p0 := lln, p1 := (ownerOf s (lfnOf lln)).getD 0, p2 := 1 }
      (poisonAdd lln .internal { s with lp := { s.lp with poison := satInc s.lp.poison } })

/-- A dirty slot accessed (R211, R212): a bad tag is rewritten from its copy; with both bad the slot is gone and its frame noted; bad data
is the dirty-line row of R148. Answers the slot as it stands then. -/
def slotRead (lln : Nat) (s : State) : Option DSlot × State :=
  match sfind s.cache.dirty lln with
  | none => (none, s)
  | some d =>
    let (t, s) := hbmMeet (.slotTag lln) s
    let (c, s) := if t then hbmMeet (.slotCopy lln) s else (false, s)
    if c then
      (none, freeSlot lln { s with cache := { s.cache with
        tagLost := if s.cache.tagLost.contains (lfnOf lln) then s.cache.tagLost else s.cache.tagLost ++ [lfnOf lln] } })
    else
      let s := if t then hbmWrite (.slotTag lln) s else s
      let (bad, s) := hbmMeet (.slotLine lln) s
      if !bad then (some d, s)
      else
        let s := lineLost lln false s
        if s.span.desc.isSome then (none, freeSlot lln s)
        else
          let d' : DSlot := { d with data := poisonLine, partial_ := false, mask := BitVec.allOnes 64 }
          (some d', putSlot lln d' s)

/-- A line placed in the dirty region (R200): in place with its masks ORed, in a bucket, or in the stash. The slot written over, and one
that moves, are read first, with what their errors give (R211, R212). -/
def drPlace (lln : Nat) (mask : BitVec 64) (data : Line) (since : BitVec 64) (s : State) : State :=
  let full := BitVec.allOnes 64
  let (d, s) := if mask = full then (sfind s.cache.dirty lln, s) else slotRead lln s
  match d with
  | some d =>
    putSlot lln { d with
      data := mergePart s lln d.data data d.mask mask, mask := d.mask ||| mask
      partial_ := (d.mask ||| mask) != full, redirty := d.redirty || d.draining } s
  | none =>
    let (b, move) := drChoose s lln
    let s := match move with
      | some (m, o) =>
        let (d, s) := slotRead m s
        (match d with
          | some d => putSlot m { d with bucket := some o } s
          | none => s)
      | none => s
    putSlot lln ⟨b, mask != full, false, false, since, mask, data⟩ s

/-! ## Bulk Cache: the page array (R197) -/

/-- An empty page way. -/
def noPage : PageTag := {}

/-- The key 8 × set + way of a resident page. -/
def pageFind (s : State) (page : Nat) : Option Nat :=
  if s.cache.nPages < 8 then none
  else ((List.range 8).map (fun w => 8 * pageSet s page + w)).find? (fun k =>
    let t := sget noPage s.cache.pages k
    t.inUse && t.page == page)

/-- Whether a line is valid in the page array. -/
def pageValid (s : State) (lln : Nat) : Bool :=
  match pageFind s (lln / 64) with
  | some k => (sget noPage s.cache.pages k).valid.getLsbD (lln % 64)
  | none => false

/-- A page dropped with no write-back. -/
def pageDrop (k : Nat) (s : State) : State :=
  let t := sget noPage s.cache.pages k
  let s := if t.inUse then hbmWrite (.residency (t.page / 1024)) (hbmWrite (.pageTag k) (pageTagTouch t.page s)) else s
  { s with cache := { s.cache with
      pages := sdel s.cache.pages k
      pageData := if t.inUse then s.cache.pageData.filter (fun e => e.1 / 64 != t.page) else s.cache.pageData
      prefetched := if t.inUse then s.cache.prefetched.filter (fun l => l / 64 != t.page) else s.cache.prefetched
      hbmErr := s.cache.hbmErr.filter (fun e => match e.unit with
        | .pageLine l => !(t.inUse && l / 64 == t.page)
        | u => u != .pageTag k) } }

/-- A line made invalid in the page array. -/
def pageClear (lln : Nat) (s : State) : State :=
  match pageFind s (lln / 64) with
  | some k =>
    let s := { s with cache := { s.cache with
      pages := smod noPage s.cache.pages k (fun t => { t with valid := setBit t.valid (lln % 64) false })
      pageData := sdel s.cache.pageData lln, prefetched := s.cache.prefetched.filter (fun l => l != lln)
      hbmErr := s.cache.hbmErr.filter (fun e => e.unit != .pageLine lln) } }
    hbmWrite (.residency (lfnOf lln)) (hbmWrite (.pageTag k) (pageTagTouch (lln / 64) s))
  | none => s

/-- A line set VALID in the page array, its page allocated if absent: the lowest Invalid way, else the first way from the one the page
array LFSR names, none of them in a fenced block (R197, R205, R215). -/
def pageFill (lln : Nat) (data : Line) (s : State) : State :=
  if s.cache.nPages < 8 then s
  else
    let page := lln / 64
    let set := pageSet s page
    let ways := ((List.range 8).map (fun w => 8 * set + w)).filter (fun k => !wayFenced s k)
    let turn := ((List.range 8).map (fun i => 8 * set + (bits s.cache.lfsrPage.toNat 0 3 + i) % 8)).filter (fun k => !wayFenced s k)
    match (pageFind s page).orElse (fun _ => (ways.find? (fun k => !(sget noPage s.cache.pages k).inUse)).orElse (fun _ => turn.head?)) with
    | none => s
    | some k =>
      let s := if (pageFind s page).isSome then s
        else
          let s := pageDrop k s
          { s with cache := { s.cache with pages := sput s.cache.pages k ⟨page, 0, true⟩ } }
      let s := { s with cache := { s.cache with
        pages := smod noPage s.cache.pages k (fun t => { t with valid := setBit t.valid (lln % 64) true })
        pageData := sput s.cache.pageData lln data } }
      hbmWrite (.residency (lfnOf lln)) (hbmWrite (.pageTag k) (pageTagTouch page (hbmWrite (.pageLine lln) s)))

/-! ## Dirty lines, occupancy and DevLoad -/

/-- Whether a way holds a line dirty. -/
def dirtyWay (w : NcWay) : Bool := w.st == .dirty || w.st == .partial_

/-- The lines dirty in the Near Cache, once each. -/
def ncDirty (s : State) : List Nat :=
  (s.cache.near.filter (fun e => dirtyWay e.2 && Nat.blt (e.1 % 16) 8)).map (fun e => e.2.lln)

/-- The distinct dirty lines, in the Near Cache or the Bulk Cache (R156). -/
def dirtyLlns (s : State) : List Nat :=
  s.cache.dirty.map (fun e => e.1) ++ (ncDirty s).filter (fun l => (sfind s.cache.dirty l).isNone)

/-- Write credits granted and not consumed, over all ports and LDs. -/
def creditsOut (s : State) : Nat := s.host.lds.foldl (fun a d => a + d.credits) 0

/-- Dirty occupancy in lines (R156): a line leaving for media is still in the dirty region and counts once. -/
def occupancy (s : State) : Nat := (dirtyLlns s).length + creditsOut s

/-- The dirty budget in lines. -/
def budgetLines (s : State) : Nat := 8388608 * s.write.budget.toNat

/-- The entry threshold of a DevLoad level in percent (R61). -/
def loadEntry (l : Nat) : Nat := if l = 0 then 0 else if l = 1 then 50 else if l = 2 then 75 else 90

/-- The level of a contributor whose share is `a` of `b` (R61), with the hysteresis of R63 from its present level. -/
def loadLevel (old a b : Nat) : Nat :=
  let above := fun l => Nat.ble (loadEntry l * b) (100 * a)
  let raised := if above 3 then 3 else if above 2 then 2 else if above 1 then 1 else 0
  let stays := fun l => Nat.blt ((loadEntry l - 5) * b) (100 * a)
  if old ≤ raised then raised
  else if old = 3 ∧ stays 3 then 3
  else if 2 ≤ old ∧ stays 2 ∧ raised ≤ 2 then 2
  else if 1 ≤ old ∧ stays 1 ∧ raised ≤ 1 then 1
  else raised

/-- Patch log capacity in patches (R104 note). -/
def patchCapacity (s : State) : Nat := 2 ^ 25 * nChannels s

/-- Fields of a Fast Set Table entry (R97). -/
def fsGap (e : BitVec 64) : Nat := bits e.toNat 0 17
def fsStart (e : BitVec 64) : Nat := bits e.toNat 17 16
def fsKey (e : BitVec 64) : Nat := bits e.toNat 33 16
def fsWcount (e : BitVec 64) : Nat := bits e.toNat 49 10
def fsUse (e : BitVec 64) : Nat := bits e.toNat 59 3
def fsALost (e : BitVec 64) : Bool := bit e.toNat 62
def fsBLost (e : BitVec 64) : Bool := bit e.toNat 63

/-- Whether an index entry names a set of a foreign patch area: local lookups skip it (R367). -/
def foreignEnt (s : State) (e : PiEnt) : Bool := fsUse (sget 0 s.xlat.fst e.set.toNat) == 3

/-- Patches held in the patch log (R122): the valid local entries of the Patch Index and its overflow table. -/
def patchCount (s : State) : Nat :=
  s.xlat.pi.countP (fun e => e.2.valid && !foreignEnt s e.2) + s.xlat.piOvf.countP (fun e => e.valid && !foreignEnt s e)

/-- Patch log fill of R369: the highest of the local patch count and of each outrider's last report plus the records sent
since. Without span, the local count. -/
def patchFill (s : State) : Nat :=
  s.span.streams.foldl (fun a st => max a (st.reported.toNat + st.sentSince)) (patchCount s)

/-- The patch log capacity in force (R369, note). -/
def patchCap (s : State) : Nat :=
  if s.span.desc.isSome then (match s.variant with | .h2 => 2 ^ 26 | _ => 2 ^ 27) else patchCapacity s

/-- Fast sets of the variant (R95). -/
def nFastSets (s : State) : Nat := 16384 * nChannels s

/-- Whether a fast set belongs to the firmware image areas (R595): never allocated to any other use. -/
def isImageSet (s : State) (f : Nat) : Bool :=
  Nat.ble 2044 (bits f 0 11) && bits f 11 4 == 15 &&
    (match s.variant with
      | .x4 => [0, 5, 10].contains (f / 32768)
      | .h2 => [0, 3, 6].contains (f / 32768)
      | .l1 => [0, 1, 2].contains (f / 32768))

/-- Fast sets with USE free (R122), less the 12 image sets and those set aside for a flush (R559, R595). -/
def freeSets (s : State) : Nat := nFastSets s - 12 - s.xlat.fst.countP (fun e => fsUse e.2 ≠ 0) - s.power.setAside.length

/-- The DevLoad reported: the highest of the three (R62). -/
def devLoad (s : State) : BitVec 2 :=
  BitVec.ofNat 2 (max s.write.lvlDirty.toNat (max s.write.lvlPatch.toNat s.write.lvlTherm.toNat))

/-! ## The dirty frame map (R602) -/

/-- A frame that gains a dirty line is marked in the map of a device without span protection; the write of its bit is queued. -/
def mapMark (lfn : Nat) (s : State) : State :=
  if s.span.desc.isSome ∨ s.mm.mapNew.contains lfn then s
  else { s with mm := { s.mm with mapNew := lfn :: s.mm.mapNew, mapDue := lfn :: s.mm.mapDue } }

/-! ## Writes into the Near Cache -/

/-- The newest value a line's two Near Cache copies give, repaired where one fails (R210): the way's content, or none when
both copies of a dirty line failed. -/
def ncTwin (s : State) (a b : Nat) : Option NcWay × State :=
  let wa := ncWay s a
  let wb := ncWay s b
  if wayGood wa && wayGood wb then (some wa, s)
  else if wayGood wa then (some wa, ceError 2 0 (ncSetWay s b { wa with busy := wb.busy }))
  else if wayGood wb then (some wb, ceError 2 0 (ncSetWay s a { wb with busy := wa.busy }))
  else (none, s)

/-- The evicted line of a way goes to the dirty region with its mask; both its ways become Invalid; a Clean way is
dropped (R194). -/
def ncEvict (k : Nat) (s : State) : State :=
  let w := ncWay s k
  if !dirtyWay w then ncSetWay s k {}
  else
    match ncWays s w.lln with
    | [a, b] =>
      let (v, s) := ncTwin s a b
      let s := ncSetWay (ncSetWay s a {}) b {}
      match v with
      | some v => drPlace w.lln v.mask v.data v.since (tagsTouch w.lln s)
      | none =>
        let s := lineLost w.lln true s
        if s.span.desc.isSome then s else drPlace w.lln (BitVec.allOnes 64) poisonLine w.since (tagsTouch w.lln s)
    | _ => ncSetWay s k {}

/-- Injection at a dirty line written (R517 points 0x0001 and 0x0002): what the copy written in a way becomes. -/
def ncDamage (s : State) (odd : Bool) (w : NcWay) : NcWay :=
  let w := match s.evt.armed.find? (fun a => a.point.toNat == 0x0001 && a.unit.toNat == 0) with
    | none => w
    | some a =>
      if (a.copy = 0 ∧ odd) ∨ (a.copy = 1 ∧ !odd) then w
      else
        let m := if a.word.toNat < 8 then a.mask.toNat <<< (64 * a.word.toNat) else 0
        let flips := fun g => (List.range 32).countP (fun i => bit m (32 * g + i)) + b2n (a.check.getLsbD g)
        { w with
          data := w.data ^^^ BitVec.ofNat 512 m
          bad := w.bad ^^^ BitVec.ofNat 16 ((List.range 16).foldl (fun x g => x + (flips g % 2) * 2 ^ g) 0) }
  if isArmed s 0x0002 0 && !odd then { w with tagBad := true } else w

/-- The points that a dirty line written fires. -/
def ncFire (s : State) : State :=
  let s := if isArmed s 0x0001 0 then fire 0x0001 0 s else s
  if isArmed s 0x0002 0 then fire 0x0002 0 s else s

/-- Two copies written into two ways of a set. -/
def ncPutTwo (a b : Nat) (wa wb : NcWay) (s : State) : State :=
  ncFire (ncSetWay (ncSetWay s a (ncDamage s false wa)) b (ncDamage s true wb))

/-- A line's two dirty copies written into two ways of its set. -/
def ncPutTwin (a b : Nat) (w : NcWay) (s : State) : State := ncPutTwo a b w w s

/-- The groups a write covers in part read and checked in both copies: a copy with an error in one of them has it rewritten from the other
copy; none when both have one (R210). -/
def ncTwinIn (g : BitVec 16) (wa wb : NcWay) (s : State) : Option (NcWay × NcWay) × State :=
  match wayGoodIn g wa, wayGoodIn g wb with
  | true, true => (some (wa, wb), s)
  | true, false => (some (wa, wayHeal g wb wa), ceError 2 0 s)
  | false, true => (some (wayHeal g wa wb, wb), ceError 2 0 s)
  | false, false => (none, s)

/-- Two ways taken for a line: the even half first; a Dirty or Partial victim's other copy serves as the second (R192). -/
def ncTakeTwo (set : Nat) (s : State) : Nat × Nat × State :=
  let a := ncPick s set 0
  let v := ncWay s a
  let other := if dirtyWay v then (ncWays s v.lln).find? (fun k => Nat.ble 8 (k % 16)) else none
  let s := ncEvict a s
  match other with
  | some b => (a, b, s)
  | none => let b := ncPick s set 8; (a, b, ncEvict b s)

/-- A write to a line, its bytes ciphertext of the line with the other bytes zero (R191). A group the mask covers whole
replaces its parity; a group covered in part is read and checked first (R210). -/
def ncWrite (lln : Nat) (data : Line) (mask : BitVec 64) (s : State) : State :=
  let full := BitVec.allOnes 64
  let now := s.time.ftime
  let s := mapMark (lfnOf lln) s
  match ncWays s lln with
  | [a, b] =>
    let clean : NcWay := { st := .dirty, lln := lln, data := data, mask := full, since := (ncWay s a).since }
    if mask = full then ncPutTwin a b clean s
    else
      let keep := fun w : NcWay => { w with bad := w.bad &&& ~~~ groupsWhole mask }
      let (v, s) := ncTwinIn (groupsPart mask) (keep (ncWay s a)) (keep (ncWay s b)) s
      match v with
      | some (wa, wb) =>
        let up := fun w : NcWay =>
          let m := w.mask ||| mask
          { w with data := mergePart s lln w.data data w.mask mask, mask := m, st := if m = full then .dirty else .partial_ }
        ncPutTwo a b (up wa) (up wb) s
      | none =>
        let s := lineLost lln true s
        if s.span.desc.isSome then
          ncPutTwin a b { st := .partial_, lln := lln, data := data, mask := mask, since := clean.since } s
        else ncPutTwin a b { clean with data := poisonLine } s
  | [k] =>
    let w := ncWay s k
    if !wayGood w && mask ≠ full then
      let s := ceError 2 0 (ncSetWay s k {})
      let (a, b, s) := ncTakeTwo (ncSet lln) s
      ncPutTwin a b { st := .partial_, lln := lln, data := data, mask := mask, since := now } s
    else
      let o := ncPick s (ncSet lln) (if k % 16 < 8 then 8 else 0)
      let s := ncEvict o s
      let merged := mergeLine s lln w.data data mask
      let (a, b) := if k % 16 < 8 then (k, o) else (o, k)
      ncPutTwin a b { st := .dirty, lln := lln, data := merged, mask := full, since := now } s
  | _ =>
    let (a, b, s) := ncTakeTwo (ncSet lln) s
    ncPutTwin a b { st := if mask = full then .dirty else .partial_, lln := lln, data := data, mask := mask, since := now } s

/-- A Clean fill (R676): one way, only when the line is not already held. -/
def ncFill (lln : Nat) (data : Line) (s : State) : State :=
  if !(ncWays s lln).isEmpty then s
  else
    let set := ncSet lln
    let hasFree := fun half => (List.range 8).any (fun w => (ncWay s (16 * set + half + w)).st = .invalid)
    let half := if hasFree 0 then 0 else if hasFree 8 then 8 else if s.cache.lfsrNear.getLsbD 3 then 8 else 0
    let k := ncPick s set half
    ncSetWay (ncEvict k s) k { st := .clean, lln := lln, data := data, mask := BitVec.allOnes 64 }

/-! ## Dropping lines -/

/-- The frame whose line or entry a unit holds; none for a page tag or an index entry. -/
def unitFrame : HbmUnit → Option Nat
  | .slotLine l | .slotTag l | .slotCopy l | .pageLine l => some (lfnOf l)
  | .residency f | .image f | .summary f => some f
  | .pageTag _ | .index _ => none

/-- A prefetch of a line in flight is dropped (R149). -/
def dropPrefetch (p : Nat → Bool) (s : State) : State :=
  { s with media := { s.media with mreads := s.media.mreads.filter (fun r => r.host || !p r.lln) } }

/-- Every cached copy of a frame's lines dropped, dirty ones too; what a read in flight brings of it fills no cache (R49, R121). -/
def dropFrame (lfn : Nat) (s : State) : State :=
  let mine := fun l => lfnOf l == lfn
  let s := dropPrefetch mine s
  { s with
    media := { s.media with mreads := s.media.mreads.map (fun r => if mine r.lln then { r with noFill := true } else r) }
    cache := { s.cache with
      near := s.cache.near.filter (fun e => !(mine e.2.lln))
      dirty := s.cache.dirty.filter (fun e => !(mine e.1))
      pages := (s.cache.pages.filter (fun e => e.2.page / 1024 != lfn))
      pageData := s.cache.pageData.filter (fun e => !(mine e.1))
      side := s.cache.side.filter (fun e => !(mine e.1))
      hbmErr := s.cache.hbmErr.filter (fun e => unitFrame e.unit != some lfn)
      heldWrites := s.cache.heldWrites.filter (fun e => !(mine e.1))
      prefetched := s.cache.prefetched.filter (fun l => !(mine l)), lost := s.cache.lost.filter (fun l => !(mine l)) } }

/-- A clean line dropped from the Near Cache, the page array and the side buffer; a dirty one stays (R217). -/
def invalidateLine (lln : Nat) (s : State) : State :=
  let s := (ncWays s lln).foldl (fun s k => if dirtyWay (ncWay s k) then s else ncSetWay s k {}) s
  let s := pageClear lln s
  { s with cache := { s.cache with
      side := s.cache.side.filter (fun e => e.1 != lln), prefetched := s.cache.prefetched.filter (fun l => l != lln) } }

/-! ## Residency (R204) -/

/-- VCOUNT: the lines of a frame valid in the Bulk Cache, each once. A Partial slot whose page line is not VALID is not counted (DESIGN
CHOICE, log entry 73). -/
def vcount (s : State) (lfn : Nat) : Nat :=
  s.cache.dirty.countP (fun e => lfnOf e.1 == lfn && !e.2.partial_) +
    s.cache.pageData.countP (fun e => lfnOf e.1 == lfn &&
      (match sfind s.cache.dirty e.1 with | some d => d.partial_ | none => true))

/-- DCOUNT: the frame's lines in the dirty region. -/
def dcount (s : State) (lfn : Nat) : Nat := s.cache.dirty.countP (fun e => lfnOf e.1 == lfn)

/-- Every dirty Near Cache line of a frame written back to the dirty region (R204). -/
def writeBackFrame (lfn : Nat) (s : State) : State :=
  ((ncDirty s).filter (fun l => lfnOf l == lfn)).foldl (fun s l =>
    match ncWays s l with
    | k :: _ => ncEvict k s
    | [] => s) s

/-! ## Reading the caches (R12, R195, R205, R208, R210, R212) -/

/-- What the caches hold of a line: its whole value, bytes under a mask, or nothing; `lost` when a dirty line's copies
all failed. -/
inductive Held where
  | whole (v : Line)
  | bytes (v : Line) (mask : BitVec 64)
  | none
  | lost
  deriving DecidableEq, Repr

/-- The Near Cache looked up for a read (R148, R210). -/
def ncLook (lln : Nat) (s : State) : Held × State :=
  match ncWays s lln with
  | [a, b] =>
    let (v, s) := ncTwin s a b
    (match v with
      | some w => if w.st = .partial_ then (.bytes w.data w.mask, s) else (.whole w.data, s)
      | none =>
        let s := lineLost lln true s
        if s.span.desc.isSome then (.lost, ncSetWay (ncSetWay s a {}) b {})
        else
          let w : NcWay := { st := .dirty, lln := lln, data := poisonLine, mask := BitVec.allOnes 64, since := (ncWay s a).since }
          (.whole poisonLine, ncSetWay (ncSetWay s a w) b w))
  | [k] => if wayGood (ncWay s k) then (.whole (ncWay s k).data, s) else (.none, ceError 2 0 (ncSetWay s k {}))
  | _ => (.none, s)

/-- A frame's Residency entry read: one that cannot be corrected is recounted at the next stage boundary, and direct fold of the frame
is withheld till then (R212). -/
def residencyMeet (lfn : Nat) (s : State) : State :=
  let (bad, s) := hbmMeet (.residency lfn) s
  if !bad ∨ s.cache.frtBad.contains lfn then s else { s with cache := { s.cache with frtBad := s.cache.frtBad ++ [lfn] } }

/-- A VALID line of the page array accessed: a bad tag drops the page, a bad line is made invalid (R212). -/
def pageRead (lln : Nat) (s : State) : Option Line × State :=
  match (if pageValid s lln then pageFind s (lln / 64) else none) with
  | none => (none, s)
  | some k =>
    let (t, s) := hbmMeet (.pageTag k) s
    if t then (none, pageDrop k s)
    else
      let (bad, s) := hbmMeet (.pageLine lln) s
      if bad then (none, pageClear lln s) else (sfind s.cache.pageData lln, s)

/-- Whether a read of a line meets an HBM block in copy (R214). -/
def bulkWaits (s : State) (lln : Nat) : Bool :=
  if (sfind s.cache.dirty lln).isSome then hbmWaits s (.slotLine lln) || hbmWaits s (.slotTag lln)
  else pageValid s lln && hbmWaits s (.pageLine lln)

/-- The Bulk Cache looked up for a read: the dirty region before the page array (R202, R212). -/
def bulkLook (lln : Nat) (s : State) : Held × State :=
  let (d, s) := slotRead lln (tagsTouch lln s)
  match d with
  | some d => if d.partial_ then (.bytes d.data d.mask, s) else (.whole d.data, s)
  | none =>
    if s.cache.lost.contains lln then (.lost, s)
    else
      let (v, s) := pageRead lln s
      match v with | some v => (.whole v, s) | none => (.none, s)

/-- The side buffer of the H2 and the L1: a hit moves the line into the Near Cache and the page array (R208). -/
def sideLook (lln : Nat) (s : State) : Option Line × State :=
  match s.cache.side.find? (fun e => e.1 == lln) with
  | some (_, v) =>
    (some v, pageFill lln v (ncFill lln v { s with cache := { s.cache with
      side := s.cache.side.filter (fun e => e.1 != lln) } }))
  | none => (none, s)

/-- A line into the side buffer, first in, first out, 1,024 lines (R208). -/
def sideFill (lln : Nat) (v : Line) (s : State) : State :=
  let l := s.cache.side.filter (fun e => e.1 != lln) ++ [(lln, v)]
  let gone := (l.take (l.length - 1024)).map (fun e => e.1)
  { s with cache := { s.cache with side := l.drop (l.length - 1024), prefetched := s.cache.prefetched.filter (fun x => !gone.contains x) } }

/-! ## Replacement LFSRs (R193) -/

/-- One step of the Galois LFSR x³² + x²² + x² + x + 1. -/
def lfsrStep (v : BitVec 32) : BitVec 32 := if v.getLsbD 0 then (v >>> 1) ^^^ 0x80200003 else v >>> 1

/-- The three generators stepped once for each of the 1,600 core clock cycles of a µs that pass as FTIME advances by some ns (R193). -/
def lfsrRun (ns : Nat) (s : State) : State :=
  let f := times (8 * (ns / 5)) lfsrStep
  { s with cache := { s.cache with
      lfsrNear := f s.cache.lfsrNear, lfsrTag := f s.cache.lfsrTag, lfsrPage := f s.cache.lfsrPage } }

/-- A zero seed is replaced by 1. -/
def lfsrSeed (v : BitVec 32) : BitVec 32 := if v = 0 then 1 else v

/-! ## Layout (R196) -/

/-- S / 16 and P for a budget of `g` units of 512 MiB. -/
def layout (s : State) (g : Nat) : Nat × Nat :=
  let slots := max (10485760 * g) 1048576
  let fixed := 4657 * 2 ^ 20 * nQuads s
  let rest := 36 * 2 ^ 30 * nQuads s - fixed - 96 * slots
  (slots / 16, rest / 4112 / 8 * 8)

/-- The units of the regions that a new layout leaves as they are: image, residency, index, frame summary (R196). -/
def keptUnit : HbmUnit → Bool
  | .residency _ | .image _ | .index _ | .summary _ => true
  | .slotLine _ | .slotTag _ | .slotCopy _ | .pageLine _ | .pageTag _ => false

/-- The HBM laid out for a budget: every page dropped, the layout's counts set (R196, R594); its 12 h of R213 begin. -/
def relayout (g : Nat) (s : State) : State :=
  let (b, p) := layout s g
  { s with cache := { s.cache with
      pages := [], pageData := [], nBuckets := b, nPages := p, tagc := [], tagcBad := [], hbmErr := s.cache.hbmErr.filter (fun e => keptUnit e.unit), hbmScrub := s.time.ftime
      prefetched := s.cache.prefetched.filter (fun l => s.cache.side.any (fun e => e.1 == l)) } }

end Sys2Proof.Machine
end

