-- ==== Sys2Proof/Machine/Idle.lean ====
section
/-! DEFINITION. The passing of time: FTIME advanced with what counts along with it, and the core tick of an empty queue (log
entry 2). -/

namespace Sys2Proof.Machine

/-- FTIME advanced to `t` with its offset slewed: the microseconds of paced writes (R187) and the milliseconds of Brake (R586) counted, and the fraction of
an operating hour in 1/65,536 h while the main domains are on (R530). -/
def advanceFtime (t : BitVec 64) (s : State) : State :=
  let a := s.time.ftime.toNat
  let b := t.toNat
  let n := fun d : Nat => b / d - a / d
  let u := advanceTo b s
  { s with
    time := u.time
    write := if s.write.pacing then { s.write with paced := satAdd s.write.paced (n 1000) } else s.write
    therm := if s.therm.throttle = .brake then { s.therm with brakeMs := satAdd s.therm.brakeMs (n 1000000) } else s.therm
    start := if s.power.seq = .on then
        { s.start with lifeFrac := satAdd s.start.lifeFrac (b * 65536 / 3600000000000 - a * 65536 / 3600000000000) }
      else s.start }

/-- One tick of the time base: FTIME advances by 5 ns while the Sill runs (R402), and the three replacement generators
step once for each of the 8 core clock cycles of the tick (R191, R197, R218). -/
def idleTick (s : State) : State :=
  lfsrRun 5 (if s.start.sillUp then advanceFtime (s.time.ftime + 5) s else s)

end Sys2Proof.Machine
end

