-- ==== Sys2Proof/Machine/Codes.lean ====
section
/-! DEFINITION. The codes of local and span protection: the BCH line code, the Reed-Solomon stripe code and the Cauchy
parity (R315, R316, R320 to R322, R357). -/

namespace Sys2Proof.Machine

/-! ## Finite fields -/

/-- The product in GF(2^w) with the field polynomial `poly`, over the low `n` bits of `b`. -/
def gfMulBits (w poly : Nat) : Nat → Nat → Nat → Nat → Nat
  | 0, _, _, acc => acc
  | n + 1, a, b, acc =>
    let a2 := 2 * a
    gfMulBits w poly n (if bit a2 w then a2 ^^^ poly else a2) (b / 2) (if bit b 0 then acc ^^^ a else acc)

/-- Products in GF(2¹⁰) (R316) and GF(2⁸) (R320). -/
def mul10 (a b : Nat) : Nat := gfMulBits 10 0x409 10 a b 0
def mul8 (a b : Nat) : Nat := gfMulBits 8 0x11D 8 a b 0

/-- Powers by repeated squaring over the low `n` bits of the exponent. -/
def gfPow (mul : Nat → Nat → Nat) : Nat → Nat → Nat → Nat
  | 0, _, _ => 1
  | n + 1, a, e =>
    let r := gfPow mul n (mul a a) (e / 2)
    if bit e 0 then mul a r else r

def pow10 (a e : Nat) : Nat := gfPow mul10 10 a (e % 1023)
def pow8 (a e : Nat) : Nat := gfPow mul8 8 a (e % 255)

/-- Inverses; 0 for 0. -/
def inv10 (a : Nat) : Nat := if a = 0 then 0 else gfPow mul10 10 a 1022
def inv8 (a : Nat) : Nat := if a = 0 then 0 else gfPow mul8 8 a 254

/-! ## The line code (R315, R316) -/

/-- The generator g(x) of R316, degree 110; coefficient k is bit k. -/
def bchGen : Nat := 0x7f6d77a4a8c6fb2e25d84213860d

/-- The remainder of a polynomial with `n` bits above degree 109, by g(x). -/
def polyMod : Nat → Nat → Nat
  | 0, v => v
  | n + 1, v => polyMod n (if bit v (n + 110) then v ^^^ (bchGen <<< n) else v)

/-- The check bits of a message. -/
def bchCheck (m : Line66) : Nat := polyMod 528 (m.toNat <<< 110)

/-- The media line of 66 bytes: bits [639:638] are written 0 (R315). -/
def bchEncode (m : Line66) : MediaLine := BitVec.ofNat 640 (m.toNat + bchCheck m <<< 528)

/-- The value at `x` of a polynomial over GF(2) with `n` coefficients. -/
def evalBits : Nat → Nat → Nat → Nat
  | 0, _, _ => 0
  | n + 1, v, x => mul10 x (evalBits n (v / 2) x) ^^^ v % 2

/-- The syndromes S_1 to S_22 of a remainder. -/
def bchSyndromes (r : Nat) : List Nat := (List.range 22).map (fun j => evalBits 110 r (pow10 2 (j + 1)))

/-- The value at `x` of a polynomial over GF(2¹⁰), lowest coefficient first. -/
def eval10 : List Nat → Nat → Nat
  | [], _ => 0
  | c :: cs, x => c ^^^ mul10 x (eval10 cs x)

/-- The state of the Berlekamp-Massey recurrence. -/
structure Bm where
  lam : List Nat
  old : List Nat
  len : Nat
  shift : Nat
  delta : Nat
  deriving DecidableEq, Repr

/-- The sum of two polynomials, the second times `c` x^k. -/
def addScaled (a b : List Nat) (c k : Nat) : List Nat :=
  (List.range (max a.length (b.length + k))).map (fun i =>
    a.getD i 0 ^^^ (if i < k then 0 else mul10 c (b.getD (i - k) 0)))

/-- Step `n` of Berlekamp-Massey over the syndromes. -/
def bmStep (syn : List Nat) (b : Bm) (n : Nat) : Bm :=
  let d := (List.range (b.len + 1)).foldl (fun a i => a ^^^ mul10 (b.lam.getD i 0) (syn.getD (n - i) 0)) 0
  if d = 0 then { b with shift := b.shift + 1 }
  else
    let lam := addScaled b.lam b.old (mul10 d (inv10 b.delta)) b.shift
    if 2 * b.len ≤ n then { lam := lam, old := b.lam, len := n + 1 - b.len, shift := 1, delta := d }
    else { b with lam := lam, shift := b.shift + 1 }

/-- The decode of a media line: the 66 bytes and the number of bits corrected, or none beyond 11 errors (R316). -/
def bchDecode (l : MediaLine) : Option (Line66 × Nat) :=
  let cw := (l.toNat % 2 ^ 528) <<< 110 ||| bits l.toNat 528 110
  let r := polyMod 528 cw
  if r = 0 then some (l.extractLsb' 0 528, 0)
  else
    let syn := bchSyndromes r
    let b := (List.range 22).foldl (bmStep syn) ⟨[1], [1], 0, 1, 1⟩
    if 11 < b.len then none
    else
      let roots := (List.range 638).filter (fun i => eval10 b.lam (pow10 2 (1023 - i)) = 0)
      if roots.length = b.len then
        let fixed := roots.foldl (fun v i => v ^^^ 2 ^ i) cw
        some (BitVec.ofNat 528 (fixed >>> 110), b.len)
      else none

/-- A line's 66 bytes from payload and metadata, and its parts (R315). -/
def line66 (p : Line) (md : BitVec 16) : Line66 := BitVec.ofNat 528 (p.toNat + md.toNat * 2 ^ 512)
def payloadOf (l : Line66) : Line := l.extractLsb' 0 512
def metaOf (l : Line66) : BitVec 16 := l.extractLsb' 512 16

/-- A whole media line of a payload and metadata. -/
def mediaLine (p : Line) (md : BitVec 16) : MediaLine := bchEncode (line66 p md)

/-! ## The stripe code (R320 to R322) -/

/-- The coefficients, lowest first, of the Lagrange polynomial of node `i` among nodes `xs` of GF(2⁸). -/
def lagrange (xs : List Nat) (i : Nat) : List Nat :=
  let xi := xs.getD i 0
  let others := xs.eraseIdx i
  let num := others.foldl (fun p x =>
    (List.range (p.length + 1)).map (fun j => (if j = 0 then 0 else p.getD (j - 1) 0) ^^^ mul8 x (p.getD j 0))) [1]
  let den := others.foldl (fun d x => mul8 d (xi ^^^ x)) 1
  num.map (mul8 (inv8 den))

/-- The values of the erased symbols at exponents `es` from the first syndromes. -/
def solveErased (es : List Nat) (syn : List Nat) : List Nat :=
  let xs := es.map (pow8 2)
  (List.range es.length).map (fun i =>
    (List.range es.length).foldl (fun a j => a ^^^ mul8 ((lagrange xs i).getD j 0) (syn.getD j 0)) 0)

/-- Whether symbols `ys` at exponents `es` explain all four syndromes. -/
def explains (es ys syn : List Nat) : Bool :=
  (List.range 4).all (fun j =>
    (List.zip es ys).foldl (fun a p => a ^^^ mul8 p.2 (pow8 (pow8 2 p.1) j)) 0 == syn.getD j 0)

/-- One codeword: the exponents of the known symbols with their bytes, and the erased exponents. Answers the erased bytes
and, with 2 erasures or fewer, one corrected symbol (R322). -/
def rsWord (known : List (Nat × Nat)) (erased : List Nat) : Option (List Nat × Option (Nat × Nat)) :=
  let syn := (List.range 4).map (fun j =>
    known.foldl (fun a p => a ^^^ mul8 p.2 (pow8 (pow8 2 p.1) j)) 0)
  if 4 < erased.length then none
  else
    let ys := solveErased erased syn
    if explains erased ys syn then some (ys, none)
    else if 2 < erased.length then none
    else
      match known.find? (fun p =>
        let es := p.1 :: erased
        explains es (solveErased es syn) syn) with
      | some p =>
        let zs := solveErased (p.1 :: erased) syn
        some (zs.tail, some (p.1, zs.headD 0))
      | none => none

/-- The exponent of a member's symbol: data slot s is 31 − s, code position c is 3 − c (R320). -/
def symExp (code : Bool) (i : Nat) : Nat := if code then 3 - i else 31 - i

/-- Byte i of a 66-byte line. -/
def byte66 (l : Line66) (i : Nat) : Nat := bits l.toNat (8 * i) 8

/-- A line rebuilt from the lines of the read members: the erased lines in order, and the exponents of members that a
located error corrected. -/
def rsLines (known : List (Nat × Line66)) (erased : List Nat) : Option (List Line66 × List Nat) :=
  let words := (List.range 66).map (fun i => rsWord (known.map (fun p => (p.1, byte66 p.2 i))) erased)
  if words.any Option.isNone then none
  else
    let ws := words.filterMap id
    some ((List.range erased.length).map (fun e => BitVec.ofNat 528 (ofLe (ws.map (fun w => w.1.getD e 0)))),
      dedup (ws.filterMap (fun w => w.2.map (fun p => p.1))))

/-- The four code lines of the data slots' lines, slot 0 first (R320, R321). -/
def rsEncode (data : List Line66) : List Line66 :=
  match rsLines ((List.range data.length).map (fun s => (symExp false s, data.getD s 0))) [3, 2, 1, 0] with
  | some (ls, _) => ls
  | none => []

/-! ## Span parity (R357) -/

/-- The coefficient c_{i,t}. -/
def cauchy (i t : Nat) : Nat := inv8 (pow8 2 i ^^^ pow8 2 (4 + t))

/-- A line times a field element, byte by byte. -/
def scaleLine (c : Nat) (l : Line) : Line :=
  BitVec.ofNat 512 (ofLe ((List.range 64).map (fun i => mul8 c (lineByte l i).toNat)))

/-- The parity line at position i of the data lines, position 0 first. -/
def parityLine (i : Nat) (data : List Line) : Line :=
  (List.range data.length).foldl (fun a t => a ^^^ scaleLine (cauchy i t) (data.getD t 0)) 0

/-- One elimination step of a system over GF(2⁸): rows are coefficients and a right side. -/
def elimStep (col : Nat) (rows : List (List Nat × Line)) : List (List Nat × Line) :=
  match (rows.drop col).findIdx? (fun r => r.1.getD col 0 ≠ 0) with
  | none => rows
  | some k =>
    let r := rows.getD (col + k) ([], 0)
    let f := inv8 (r.1.getD col 0)
    let p := (r.1.map (mul8 f), scaleLine f r.2)
    let red := (rows.eraseIdx (col + k)).map (fun q =>
      let c := q.1.getD col 0
      ((List.range q.1.length).map (fun j => q.1.getD j 0 ^^^ mul8 c (p.1.getD j 0)), q.2 ^^^ scaleLine c p.2))
    red.take col ++ [p] ++ red.drop col

/-- The data lines a stripe's answers determine: `have_` are data positions with their lines, `pars` parity positions with
theirs; answers the lines of the missing positions `want` (R357). -/
def spanSolve (have_ pars : List (Nat × Line)) (want : List Nat) : Option (List (Nat × Line)) :=
  if pars.length < want.length then none
  else
    let rows := (pars.take want.length).map (fun p =>
      (want.map (cauchy p.1), have_.foldl (fun a d => a ^^^ scaleLine (cauchy p.1 d.1) d.2) p.2))
    let done := (List.range want.length).foldl (fun rs c => elimStep c rs) rows
    some (List.zip want (done.map (fun r => r.2)))

end Sys2Proof.Machine
end

