-- ==== Sys2Proof/Machine/Translation.lean ====
section
/-! DEFINITION. The Frame Table, bands, fast sets, the Patch Index and resolution (R73 to R121). -/

namespace Sys2Proof.Machine

/-! ## Frame Table entries (R74, R75) -/

def ftBand (e : BitVec 32) : Nat := bits e.toNat 0 20
def ftSlot (e : BitVec 32) : Nat := bits e.toNat 20 5
def ftMode (e : BitVec 32) : Nat := bits e.toNat 25 3
def ftPatched (e : BitVec 32) : Bool := bit e.toNat 28
def ftPinned (e : BitVec 32) : Bool := bit e.toNat 29
def ftHot (e : BitVec 32) : Bool := bit e.toNat 30

/-- MODE codes (R75). -/
def mUnmapped : Nat := 0
def mDense : Nat := 1
def mFast : Nat := 2
def mFolding : Nat := 3
def mDiscarded : Nat := 4
def mSpanServed : Nat := 5
def mParity : Nat := 7

/-- PBAND of a zero home (R76). -/
def zeroHome : Nat := 0xFFFFF

/-- An entry from its fields, bit 31 written 0 (R74). -/
def ftMake (band slot mode : Nat) (patched pinned hot : Bool) : BitVec 32 :=
  BitVec.ofNat 32 (band % 2 ^ 20 + 2 ^ 20 * (slot % 32) + 2 ^ 25 * (mode % 8) + 2 ^ 28 * b2n patched + 2 ^ 29 * b2n pinned
    + 2 ^ 30 * b2n hot)

/-- The entry of a frame as committed. -/
def ftEntry (s : State) (lfn : Nat) : BitVec 32 := sget 0 s.xlat.ft lfn

/-- Injection point 0x0004: what the masks do to an entry of 32 data and 7 check bits under SECDED (R516, R517). -/
def ftInject (lfn : Nat) (s : State) : State :=
  match s.evt.armed.find? (fun a => a.point.toNat == 0x0004 && a.unit.toNat == 0) with
  | none => s
  | some a =>
    let n := (if a.word = 0 then popc (a.mask.extractLsb' 0 32) else 0) + popc (a.check.extractLsb' 0 7)
    let s := fire 0x0004 0 s
    if n = 0 then s
    else { s with xlat := { s.xlat with
      ftErr := sset .none s.xlat.ftErr lfn (if n = 1 then .correctable else .uncorrectable) } }

/-- A commit of a whole entry, to SRAM and to the image in HBM (R79, R81): it ends a restoration and any SRAM error of the entry. -/
def ftCommit (lfn : Nat) (e : BitVec 32) (s : State) : State :=
  hbmWrite (.image lfn) <| ftInject lfn { s with xlat := { s.xlat with
    ft := sset 0 s.xlat.ft lfn e, ftErr := sdel s.xlat.ftErr lfn
    restoring := s.xlat.restoring.filter (fun l => l != lfn) } }

/-! ## Bands (R84 to R90) -/

/-- Channel members of a band group: 32 members on every variant; the H2 and the L1 hold 2 and 4 of them on each channel
(09, note; 11, note). -/
def bandDie (b : Nat) : Nat := b / 49152
def bandIndex (b : Nat) : Nat := b % 49152

/-- The number of bands of the variant that are dense. -/
def nBands (s : State) : Nat := 49152 * (nChannels s / 2)

/-- Whether a band number is a dense band of the variant. -/
def isDenseBand (s : State) (b : Nat) : Bool := Nat.blt (bandIndex b) 43008 && Nat.blt b (nBands s)

/-- The bank of a block index, and its block within the bank (R85). -/
def bankOfBlock (b : Nat) : Nat := b / 6144
def blockInBank (b : Nat) : Nat := b % 6144

/-! ## Fast sets (R95 to R100) -/

/-- Where a fast set lies: its die slot, its first block, and the channels of its copies (R95, note). -/
structure FastAt where
  die : Nat
  block : Nat
  chA : Nat
  chB : Nat
  deriving DecidableEq, Repr

/-- The decoding of a fast set number (R95). -/
def fastAt (s : State) (f : Nat) : FastAt :=
  let p := f / 32768
  match s.variant with
  | .l1 => ⟨bits f 11 4, 43008 + 3 * bits f 0 11, p % 4, p % 4 + 4⟩
  | _ => let base := p / 8 * 16 + p % 8; ⟨bits f 11 4, 43008 + 3 * bits f 0 11, base, base + 8⟩

/-- The Fast Set Table entry of a set. -/
def fsEntry (s : State) (f : Nat) : BitVec 64 := sget 0 s.xlat.fst f

/-- An entry from its fields (R97). -/
def fsMake (gap start key wcount use : Nat) (aLost bLost : Bool) : BitVec 64 :=
  BitVec.ofNat 64 (gap % 2 ^ 17 + 2 ^ 17 * (start % 2 ^ 16) + 2 ^ 33 * (key % 2 ^ 16) + 2 ^ 49 * (wcount % 2 ^ 10)
    + 2 ^ 59 * (use % 8) + 2 ^ 62 * b2n aLost + 2 ^ 63 * b2n bLost)

/-- USE codes (R97). -/
def useFree : Nat := 0
def useFrame : Nat := 1
def useLog : Nat := 2
def useForeign : Nat := 3
def useRetiring : Nat := 4

/-- A Fast Set Table entry written; injection point 0x0006 damages it under SECDED (R517). -/
def fsSet (f : Nat) (e : BitVec 64) (s : State) : State :=
  let s := { s with xlat := { s.xlat with fst := sset 0 s.xlat.fst f e, fstBad := sdel s.xlat.fstBad f } }
  match s.evt.armed.find? (fun a => a.point.toNat == 0x0006 && a.unit.toNat == 0) with
  | none => s
  | some a =>
    let n := (if a.word = 0 then popc a.mask else 0) + popc (a.check.extractLsb' 0 8)
    let s := fire 0x0006 0 s
    if n = 0 then s else { s with xlat := { s.xlat with fstBad := sput s.xlat.fstBad f (n == 1) } }

/-- A set's entry read for an access: one flipped bit is corrected and counted (R513 class 3, R673). More are detected: the entry is taken
again from the set's descriptor as at start-up, with WCOUNT 0 (R294); the rules do not name the case (DESIGN CHOICE, log entry 92). -/
def fsTouch (f : Nat) (s : State) : State :=
  match sfind s.xlat.fstBad f with
  | none => s
  | some true => ceError 3 0 { s with xlat := { s.xlat with fstBad := sdel s.xlat.fstBad f } }
  | some false =>
    let e := fsEntry s f
    { s with xlat := { s.xlat with
      fstBad := sdel s.xlat.fstBad f
      fst := sset 0 s.xlat.fst f (fsMake (fsGap e) (fsStart e) (fsKey e) 0 (fsUse e) (fsALost e) (fsBLost e)) } }

/-- `fast_pos(e, L)` of R99. -/
def fastPos (e : BitVec 64) (line : Nat) : Nat :=
  let p := ((line ^^^ fsKey e) * 0x9E37) % 65536
  let x := (p + fsStart e) % 65536
  if fsGap e ≤ x then x + 1 else x

/-- The line at a position, `fast_pos` inverted; none at the gap. -/
def linePos (e : BitVec 64) (pos : Nat) : Option Nat :=
  if pos = fsGap e then none
  else
    let x := if fsGap e < pos then pos - 1 else pos
    let p := (x + 65536 - fsStart e) % 65536
    some ((p * 0x7787 % 65536) ^^^ fsKey e)

/-- `gap_move(e)` of R100: the position copied from, the one copied to, and the entry after, WCOUNT at 0. -/
def gapMove (e : BitVec 64) : Nat × Nat × BitVec 64 :=
  if fsGap e = 0 then
    (65536, 0, fsMake 65536 (fsStart e + 1) (fsKey e) 0 (fsUse e) (fsALost e) (fsBLost e))
  else
    (fsGap e - 1, fsGap e, fsMake (fsGap e - 1) (fsStart e) (fsKey e) 0 (fsUse e) (fsALost e) (fsBLost e))

/-- The block within a set's copy, and the line in it, of a position (R96). -/
def posBlock (x : Nat) : Nat := x / 21846
def posLine (x : Nat) : Nat := 20 + x % 21846

/-- The version of a fast frame's position: key 65,538 × set + position. -/
def versionOf (s : State) (f x : Nat) : BitVec 16 := sget 0 s.xlat.versions (65538 * f + x)

/-! ## Patch Index (R107 to R114) -/

/-- The bytes 0 to 13 of an entry, and its CHECK (R110). -/
def piCheck (e : PiEnt) : Nat :=
  crc16 (leBytes 14 (e.lln.toNat + 2 ^ 40 * e.seq.toNat + 2 ^ 64 * e.set.toNat + 2 ^ 83 * e.segment.toNat
    + 2 ^ 93 * e.line.toNat + 2 ^ 99 * b2n e.valid + 2 ^ 100 * b2n e.tomb + 2 ^ 101 * b2n e.inflight))

/-- The number of buckets of the Patch Index (R112 and its note). -/
def nPiBuckets (s : State) : Nat :=
  match s.variant with
  | .x4 => 299892736
  | .h2 => 149946368
  | .l1 => 74973184

/-- An entry never used. -/
def piNone : PiEnt := ⟨0, 0, 0, 0, 0, false, false, false, false⟩

/-- The home bucket of an LLN (R112). -/
def piHome (s : State) (lln : Nat) : Nat := hash40 lln % nPiBuckets s

/-- The keys 4 × bucket + entry of the eight buckets a probe reads, in order. -/
def piWindow (s : State) (lln : Nat) : List (List Nat) :=
  (List.range 8).map (fun i =>
    let b := (piHome s lln + i) % nPiBuckets s
    (List.range 4).map (fun j => 4 * b + j))

/-- The keys a lookup reads: up to the first bucket that holds an entry never used (R112). -/
def piProbed (s : State) : List (List Nat) → List Nat
  | [] => []
  | b :: bs =>
    if b.any (fun k => let e := sget piNone s.xlat.pi k; !e.valid && !e.tomb) then b else b ++ piProbed s bs

/-- A local lookup: the entry of the LLN, and whether an entry whose CHECK fails stood in the probe window (R112, R113). -/
def piLookup (s : State) (lln : Nat) : Option PiEnt × Bool :=
  let es := (piProbed s (piWindow s lln)).map (fun k => sget piNone s.xlat.pi k)
  let hit := fun e : PiEnt => e.valid && !e.checkBad && e.lln.toNat == lln && !foreignEnt s e
  (((es.find? hit).orElse fun _ => s.xlat.piOvf.find? hit), es.any (fun e => e.checkBad))

/-- The entries a lookup reads, met under HBM ECC (R110, R211): one that cannot be corrected fails its CHECK. -/
def piTouch (lln : Nat) (s : State) : State :=
  if s.cache.hbmErr = [] then s
  else (piProbed s (piWindow s lln)).foldl (fun s k =>
    let (bad, s) := hbmMeet (.index k) s
    if bad then { s with xlat := { s.xlat with pi := smod piNone s.xlat.pi k (fun e => { e with checkBad := true }) } } else s) s

/-- Whether a new entry for an LLN has room in its window or the overflow table (R112, R113). -/
def piRoom (s : State) (lln : Nat) : Bool :=
  (piWindow s lln).flatten.any (fun k => !(sget piNone s.xlat.pi k).valid) || Nat.blt s.xlat.piOvf.length 1024

/-- A frame's summary (R111): PCOUNT, OLDEST. -/
def fsumOf (s : State) (lfn : Nat) : Nat × BitVec 47 := sget (0, 0) s.xlat.fsum lfn

/-- A frame marked for a patch log rescan (R112). -/
def markRescan (lfn : Nat) (s : State) : State :=
  if s.xlat.rescanMarks.contains lfn then s
  else { s with xlat := { s.xlat with rescanMarks := s.xlat.rescanMarks ++ [lfn] } }

/-- Changes of the index noted for the deltas of its checkpoint, in order, up to 2²⁴ since the base began (R598). -/
def piNote (es : List PiEnt) (s : State) : State :=
  if s.mm.piBase.isNone ∨ s.xlat.piLost then s
  else if 2 ^ 24 < s.xlat.piLog.length + es.length then { s with xlat := { s.xlat with piLog := [], piLost := true } }
  else { s with xlat := { s.xlat with piLog := s.xlat.piLog ++ es } }

/-- The entries that `gone` names removed from index and overflow table: VALID 0, TOMB 1 in the index (R114). -/
def piDrop (gone : PiEnt → Bool) (s : State) : State :=
  let ks := (s.xlat.pi.filter (fun e => e.2.valid && gone e.2)).map (fun e => e.1)
  let out := (s.xlat.pi.filter (fun e => e.2.valid && gone e.2)).map (fun e => e.2) ++ s.xlat.piOvf.filter gone
  let s := piNote (out.map (fun e => { e with valid := false, tomb := true, inflight := false })) s
  ks.foldl (fun s k => hbmWrite (.index k) s) { s with xlat := { s.xlat with
      pi := s.xlat.pi.map (fun e => if e.2.valid && gone e.2 then (e.1, { e.2 with valid := false, tomb := true, inflight := false }) else e)
      piOvf := s.xlat.piOvf.filter (fun e => !gone e) } }

/-- Whether two entries are of one owner: both local, or both of one ward (R367). -/
def sameOwner (s : State) (a b : PiEnt) : Bool :=
  if foreignEnt s a then foreignEnt s b && fsKey (fsEntry s a.set.toNat) == fsKey (fsEntry s b.set.toNat) else !foreignEnt s b

/-- The entries an entry replaces removed; one whose CHECK fails is as if absent (R112). -/
def piRemove (x : PiEnt) (s : State) : State := piDrop (fun e => !e.checkBad && e.lln == x.lln && sameOwner s x e) s

/-- Whether the index or its overflow table holds a patch of a frame. -/
def hasPatches (s : State) (lfn : Nat) : Bool :=
  s.xlat.pi.any (fun e => e.2.valid && lfnOf e.2.lln.toNat == lfn && !foreignEnt s e.2) ||
    s.xlat.piOvf.any (fun e => lfnOf e.lln.toNat == lfn && !foreignEnt s e)

/-- An entry inserted, replacing any older one of its LLN (R109, R112, R113): true when it went to the overflow table, which takes at most
1,024. Injection point 0x000C inverts its CHECK. -/
def piInsert (e : PiEnt) (s : State) : Bool × State :=
  let lln := e.lln.toNat
  let s := piRemove e s
  let bad := isArmed s 0x000C 0
  let s := if bad then fire 0x000C 0 s else s
  let e := { e with checkBad := bad }
  let s := piNote [e] s
  match (piWindow s lln).flatten.find? (fun k => !(sget piNone s.xlat.pi k).valid) with
  | some k => (false, hbmWrite (.index k) { s with xlat := { s.xlat with pi := sput s.xlat.pi k e } })
  | none => (true, if 1024 ≤ s.xlat.piOvf.length then s else { s with xlat := { s.xlat with piOvf := s.xlat.piOvf ++ [e] } })

/-- The next value of the patch counter: values whose low 24 bits are all ones are skipped (R107). -/
def nextCtr (c : BitVec 48) : BitVec 48 :=
  let n := c + 1
  if n.extractLsb' 0 24 = BitVec.allOnes 24 then n + 1 else n

/-- The full counter value of a sequence in a segment (R107). -/
def fullCtr (base : BitVec 48) (seq : BitVec 24) : Nat :=
  base.toNat + (seq - base.extractLsb' 0 24).toNat

/-- The key of a segment. -/
def segKey (set seg : Nat) : Nat := 1024 * set + seg

/-- A segment never opened. -/
def noSeg : Seg := ⟨.patch, 0, 0, 0, 0, 0, 0, false, false⟩

/-- The full counter value of an index entry. -/
def piCtr (s : State) (e : PiEnt) : Nat :=
  fullCtr (sget noSeg s.xlat.segs (segKey e.set.toNat e.segment.toNat)).base e.seq

/-! ## Resolution -/

/-- What `resolve(lln)` answers. -/
inductive Where where
  | zeros
  | unbacked
  | span
  | fast (set pos : Nat)
  | patch (set pos : Nat)
  | dense (band slot off : Nat)
  | poison
  deriving DecidableEq, Repr

/-- `resolve` after the Frame Table read, with the patch found (R75, R112). -/
def resolveEntry (s : State) (lln : Nat) (e : BitVec 32) (p : Option PiEnt) : Where :=
  let m := ftMode e
  let line := lineOf lln
  if m = mUnmapped ∨ m = mDiscarded then .zeros
  else if m = mParity then .unbacked
  else if m = mSpanServed then .span
  else if m = mFast then .fast (ftBand e) (fastPos (fsEntry s (ftBand e)) line)
  else if m = mDense ∨ m = mFolding then
    match (if ftPatched e then p else none) with
    | some q => .patch q.set.toNat (64 * q.segment.toNat + q.line.toNat)
    | none =>
      if ftSlot e = 31 then .fast (ftBand e) (fastPos (fsEntry s (ftBand e)) line)
      else if ftBand e = zeroHome then .zeros
      else .dense (ftBand e) (ftSlot e) (64 + line)
  else .poison

/-- The resolution of a line as the state stands, errors aside. -/
def resolve (s : State) (lln : Nat) : Where := resolveEntry s lln (ftEntry s (lfnOf lln)) (piLookup s lln).1

end Sys2Proof.Machine
end

