-- ==== Sys2Proof/Machine/Media.lean ====
section
/-! DEFINITION. The media stacks of the channels: packets, bank states, programs, clears, stamps, frames (R223 to R249). -/

namespace Sys2Proof.Machine

/-! ## Places -/

/-- Keys of a bank, a block and a line of the whole device. -/
def dieKey (ch die : Nat) : Nat := 16 * ch + die
def bankKey (ch die bank : Nat) : Nat := 8 * dieKey ch die + bank
def blockKey (ch die bank block : Nat) : Nat := 8192 * bankKey ch die bank + block
def lineKey (blk addr : Nat) : Nat := 131072 * blk + addr

/-- The stack and a bank of a channel. -/
def stackOf (s : State) (ch : Nat) : Stack := sget {} s.media.stack ch
def bankOf (s : State) (k : Nat) : BankSt := sget {} s.media.banks k
def setStack (ch : Nat) (f : Stack → Stack) (s : State) : State :=
  { s with media := { s.media with stack := smod {} s.media.stack ch f } }
def setBank (k : Nat) (f : BankSt → BankSt) (s : State) : State :=
  { s with media := { s.media with banks := smod {} s.media.banks k f } }

/-- The band of a dense block (R84, R85), by its die slot among the variant's band die slots. -/
def bandAt (s : State) (die bank block : Nat) : Nat := 49152 * (die % (nChannels s / 2)) + 6144 * bank + block

/-- The fast set and copy a fast block belongs to (R95): die slot, block and channel name them. -/
def fastSetOf (s : State) (ch die block : Nat) : Nat × Nat :=
  let t := block / 3
  match s.variant with
  | .l1 => (32768 * (ch % 4) + 2048 * die + t, ch / 4)
  | _ => (32768 * (8 * (ch / 16) + ch % 8) + 2048 * die + t, ch / 8 % 2)

/-- A block's stamp as the stacks come: cleared into its mode, naming its band or fast set (DESIGN CHOICE, log entry 4). -/
def stampNew (s : State) (blk : Nat) : Stamp :=
  let bank := blk / 8192 % 8
  let die := blk / 65536 % 16
  let ch := blk / 1048576
  { stamp := BitVec.ofNat 64 (if bank = 7 then (fastSetOf s ch die (blk % 8192)).1 + 2 ^ 20 else bandAt s die bank (blk % 8192))
    ccount := 0, valid := true, fast := bank == 7 }

/-- The stamp of a block. -/
def stampOf (s : State) (blk : Nat) : Stamp := sget (stampNew s blk) s.media.stamps blk

/-- A block's stamp changed. -/
def setStamp (blk : Nat) (f : Stamp → Stamp) (s : State) : State :=
  { s with media := { s.media with stamps := sput s.media.stamps blk (f (stampOf s blk)) } }

/-- A cleared line reads 0xFF in all 80 bytes (R245). -/
def erasedLine : MediaLine := BitVec.allOnes 640

/-- The content of a line: what was programmed; erased where the block's last Clear completed; undefined otherwise (R237, R244,
R245). -/
def lineAt (s : State) (ch die bank block addr : Nat) : Cellv :=
  let blk := blockKey ch die bank block
  match sfind s.media.lines (lineKey blk addr) with
  | some v => v
  | none =>
    if !(stampOf s blk).valid then .undef else .data erasedLine

/-- A line's content set. -/
def putLine (ch die bank block addr : Nat) (v : Cellv) (s : State) : State :=
  { s with media := { s.media with lines := sput s.media.lines (lineKey (blockKey ch die bank block) addr) v } }

/-- Injection point 0x0007: the next line programmed on the die takes the masks over bytes 8w to 8w + 7 and check bytes 66
and 67 (R516, R517). -/
def lineInject (ch die : Nat) (l : MediaLine) (s : State) : MediaLine × State :=
  let u := 0x300000 + dieKey ch die
  match s.evt.armed.find? (fun a => a.point.toNat == 0x0007 && a.unit.toNat == u && !a.active) with
  | none => (l, s)
  | some a =>
    let d := if a.word.toNat < 10 then a.mask.toNat <<< (64 * a.word.toNat) else 0
    (l ^^^ BitVec.ofNat 640 d ^^^ BitVec.ofNat 640 (a.check.toNat <<< 528), fire 0x0007 u s)

/-- A line programmed: its content is the line as received (R229), after injection. -/
def programLine (ch die bank block addr : Nat) (l : MediaLine) (s : State) : State :=
  let (l, s) := lineInject ch die l s
  putLine ch die bank block addr (.data l) s

/-- Every line of a block forgotten: it is erased or undefined as its stamp says. -/
def dropBlock (blk : Nat) (s : State) : State :=
  { s with media := { s.media with lines := s.media.lines.filter (fun e => e.1 / 131072 != blk) } }

/-! ## Packets (R223 to R228) -/

/-- The exclusive OR of the fifteen nibbles P[59:0] of a packet (R224). -/
def pktXor (op : Nat) (p : Pkt) : Nat :=
  let v := op + 2 ^ 8 * p.die.toNat + 2 ^ 12 * p.bank.toNat + 2 ^ 15 * p.block.toNat + 2 ^ 28 * p.addr.toNat
    + 2 ^ 45 * p.tag.toNat + 2 ^ 52 * p.arg.toNat
  (List.range 15).foldl (fun a i => a ^^^ bits v (4 * i) 4) 0

/-- The eight beats of a packet, its bytes lowest first (R224, R226). -/
def pktBeats (op : Nat) (p : Pkt) : List Byte :=
  bytesOf 8 (op + 2 ^ 8 * p.die.toNat + 2 ^ 12 * p.bank.toNat + 2 ^ 15 * p.block.toNat + 2 ^ 28 * p.addr.toNat
    + 2 ^ 45 * p.tag.toNat + 2 ^ 52 * p.arg.toNat + 2 ^ 60 * p.chk.toNat)

/-- Bits [63:32] of a packet, the PARAM of CA_CHECK (R254). -/
def pktHigh (p : Pkt) : Nat :=
  p.addr.toNat / 16 + 2 ^ 13 * p.tag.toNat + 2 ^ 20 * p.arg.toNat + 2 ^ 28 * p.chk.toNat

/-- Whether an opcode is a stack command, a command to a die or stack, or one to a die or bank (R227). -/
def isStackOp (op : Nat) : Bool := op == 0x38 || op == 0x40 || op == 0x41 || op == 0x42 || op == 0x43

/-- Whether a packet addresses the stack as a whole: a stack command, or SETF of a stack feature (R227, R228 table). -/
def stackWide (op : Nat) (p : Pkt) : Bool := isStackOp op || (op == 0x35 && Nat.ble p.arg.toNat 3)

/-- Whether the group select contradicts the DIE field or the kind of command (R225, R226). An opcode that is not listed is judged as a
die command (DESIGN CHOICE, log entry 70). -/
def selectBad (op : Nat) (p : Pkt) : Bool :=
  let one := if p.die.toNat < 8 then p.cs == 0b10#2 else p.cs == 0b01#2
  let both := p.cs == 0#2
  if stackWide op p then !both else !one

/-- A stack that takes packets: powered, out of reset, initialized (R249). -/
def takesPackets (s : State) (ch : Nat) : Bool :=
  let k := stackOf s ch
  Nat.blt ch (nChannels s) && k.powered && k.mreset && k.accepting

/-! ## Frames (R230 to R233, R254, R255) -/

/-- The code of a bank state (R235). -/
def bsCode : BState → Nat
  | .idle => 0 | .loading => 1 | .programming => 2 | .held => 3 | .finishing => 4 | .suspending => 5
  | .progSuspended => 6 | .clearing => 7 | .clearSuspended => 8

/-- A 16-byte payload of 14 bytes with its CRC-16 (R232). -/
def infoPayload (b : List Byte) : BitVec 1024 :=
  let c := padTo 14 b
  BitVec.ofNat 1024 (natOf c + 2 ^ 112 * crc16 (c.map BitVec.toNat))

/-- A frame with its HCRC over bytes 0 to 6 of the header (R232, R668). -/
def mkFrame (kind : BitVec 3) (tag : BitVec 7) (die : BitVec 4) (bank : BitVec 3) (bstate : BitVec 4) (payload : BitVec 1024) : RetFrame :=
  { kind := kind, tag := tag, die := die, bank := bank, bstate := bstate, payload := payload
    hcrc := BitVec.ofNat 8 (crc8 [tag.toNat, kind.toNat, die.toNat + 16 * bank.toNat, bstate.toNat, 0, 0, 0]) }

/-- A return frame of a bank, with the state the bank is in now. -/
def frameOf (s : State) (ch : Nat) (kind : Nat) (tag : BitVec 7) (die bank : Nat) (payload : BitVec 1024) : RetFrame :=
  mkFrame (BitVec.ofNat 3 kind) tag (BitVec.ofNat 4 die) (BitVec.ofNat 3 bank)
    (BitVec.ofNat 4 (bsCode (bankOf s (bankKey ch die bank)).st)) payload

/-- A frame ready for RDOUT. -/
def queueFrame (ch : Nat) (f : RetFrame) (s : State) : State :=
  setStack ch (fun k => { k with ready := k.ready ++ [f] }) s

/-- An event frame (R254). -/
def queueEvent (ch die bank : Nat) (tag : BitVec 7) (code op param : Nat) (s : State) : State :=
  let st := bsCode (bankOf s (bankKey ch die bank)).st
  queueFrame ch (frameOf s ch 2 tag die bank (infoPayload
    ([BitVec.ofNat 8 code, BitVec.ofNat 8 st, BitVec.ofNat 8 op, 0] ++ bytesOf 4 param))) s

/-- MALERT_N is held low while a frame is ready (R230). -/
def malertLow (s : State) (ch : Nat) : Bool := !(stackOf s ch).ready.isEmpty

/-- An info answer that will be ready after tINFO. -/
def pendInfo (ch : Nat) (f : RetFrame) (s : State) : State :=
  setStack ch (fun k => { k with pendInfo := k.pendInfo ++ [f] }) s

/-- An ILLEGAL event for a packet (R228, R236). -/
def illegalPkt (ch op : Nat) (p : Pkt) (s : State) : State :=
  queueEvent ch p.die.toNat p.bank.toNat p.tag 0x09 op 0 s

/-- What a stack does with every packet before it acts on it: nothing when it takes none; an echo of the beats in CATRAIN
mode, where nothing else is checked or done (DESIGN CHOICE, log entry 70); a discard with CA_CHECK when CHK or group select fails,
injection point 0x0008 inverting CHK; ILLEGAL from a die in Fault to a command that addresses it (R225, R227, R249). `act` is the
command's own action. -/
def onPacket (ch op : Nat) (p : Pkt) (act : State → State) (s : State) : State :=
  let u := 0x200000 + ch
  if !takesPackets s ch ∨ p.cs = 0b11#2 then s
  else
    let hit := isArmed s 0x0008 u
    let s := if hit then fire 0x0008 u s else s
    let chk := if hit then ~~~ p.chk else p.chk
    if (stackOf s ch).catrain ∧ op ≠ 0x41 then send s (.echo ch (pktBeats op { p with chk := chk }))
    else if pktXor op p ≠ chk.toNat ∨ selectBad op p then
      queueEvent ch p.die.toNat p.bank.toNat p.tag 0x0A op (pktHigh { p with chk := chk }) s
    else if !stackWide op p ∧ (stackOf s ch).faults.contains p.die.toNat ∧
        !([0x31, 0x32, 0x33, 0x7F].contains op) then illegalPkt ch op p s
    else act s

/-! ## Reads (R236, R241, R246, R247) -/

/-- Starts the deferred reads of a bank. -/
def startDeferred (k : Nat) (s : State) : State :=
  setBank k (fun b => { b with running := b.running ++ b.deferred, deferred := [] }) s

/-- Whether a bank runs a READ that arrives now; `none` when it is denied. -/
def readNow : BState → Option Bool
  | .idle => some true | .loading => some true | .held => some true | .progSuspended => some true
  | .clearSuspended => some true | .suspending => some false
  | .programming => none | .finishing => none | .clearing => none

/-- The thresholds of a bank's active slot and shift: trim + slot offset + shift, saturated at ±127 reference steps (R246). The trims of a
die are its factory's, with no value stated: free (log entry 94). -/
def thresholds (die : Nat) (b : BankSt) : List Int :=
  (List.range 8).map (fun k => max (-127) (min 127 ((Config.dieTrim (8 * die + k)).toInt +
    ((b.slots.getD b.active.toNat 0).extractLsb' (8 * k) 8).toInt + b.shift.toInt)))

/-- READ (R236): run, deferred until the suspension takes effect, or denied. A place beyond the geometry is read as any other
(DESIGN CHOICE, log entry 71). -/
def execRead (ch : Fin 32) (p : Pkt) (s : State) : Res :=
  ran (onPacket ch 0x01 p (fun s =>
    let k := bankKey ch p.die.toNat p.bank.toNat
    let b := bankOf s k
    let r : StackRead := ⟨p.tag, p.block.toNat, p.addr.toNat, b.active, b.shift, thresholds (dieKey ch p.die.toNat) b⟩
    match readNow b.st with
    | some true => setBank k (fun b => { b with running := b.running ++ [r] }) s
    | some false => setBank k (fun b => { b with deferred := b.deferred ++ [r] }) s
    | none => queueEvent ch p.die.toNat p.bank.toNat p.tag 0x08 0x01 p.addr.toNat s) (begin s))

/-- REFSET: the bank's active slot and signed shift (R246). -/
def execRefset (ch : Fin 32) (p : Pkt) (s : State) : Res :=
  ran (onPacket ch 0x02 p (setBank (bankKey ch p.die.toNat p.bank.toNat) (fun b =>
    { b with active := p.arg.extractLsb' 0 2, shift := p.arg.extractLsb' 2 6 })) (begin s))

/-- REFLOAD: a reference slot written with its 8-byte burst (R246). -/
def execRefload (ch : Fin 32) (p : Pkt) (data : BitVec 64) (s : State) : Res :=
  ran (onPacket ch 0x03 p (setBank (bankKey ch p.die.toNat p.bank.toNat) (fun b =>
    { b with slots := lmod b.slots (p.arg.toNat % 4) (fun _ => data) })) (begin s))

/-- What a READ of a place returns on the wires: the content, or a value that may differ on each read (R237, R248), with
the raw bits that read wrong exclusive-ORed in. -/
def readRaw (ch die bank block addr : Nat) (err : BitVec 640) (s : State) : MediaLine × State :=
  match lineAt s ch die bank block addr with
  | .data v => (v ^^^ err, s)
  | .undef => let (v, s) := drawBits 640 s; (v, s)

/-- The die and bank of the running read with a tag. -/
def runningRead (s : State) (ch : Nat) (tag : BitVec 7) : Option (Nat × Nat × StackRead) :=
  (s.media.banks.filter (fun e => e.1 / 128 == ch)).findSome? (fun e =>
    (e.2.running.find? (fun r => r.tag == tag)).map (fun r => (e.1 / 8 % 16, e.1 % 8, r)))

/-- Whether a die resets: its operations are aborted and end no other way (R243). -/
def dieResets (s : State) (ch die : Nat) : Bool := (stackOf s ch).resetting.contains die

/-- A deferred RESUME takes effect when the last running READ has its frame ready (R242). -/
def resumeNow (k : Nat) (s : State) : State :=
  setBank k (fun b =>
    if b.resumeDue ∧ b.running = [] then
      { b with resumeDue := false, st := match b.st with
        | .progSuspended => .programming | .clearSuspended => .clearing | x => x }
    else b) s

/-- The end of a READ: its line frame is ready (R241, R247). -/
def execTreadEnd (ch : Fin 32) (tag : BitVec 7) (err : BitVec 640) (s : State) : Res :=
  let s := begin s
  ran (match runningRead s ch tag with
    | none => s
    | some (die, bank, r) =>
      if dieResets s ch die then s
      else
        let (v, s) := readRaw ch die bank r.block r.addr err s
        let k := bankKey ch die bank
        let s := resumeNow k (setBank k (fun b => { b with running := b.running.filter (fun x => x.tag != tag) }) s)
        queueFrame ch (frameOf s ch 0 tag die bank (v.setWidth 1024)) s)

/-! ## Programs (R237 to R240) -/

/-- The first offset of a program's target and how many lines it covers. -/
def opLines (o : BankOp) : List Nat := if o.fast then [o.addr] else (List.range 64).map (fun i => 64 * o.addr + i)

/-- The target lines of an operation set undefined: so they stay if it never ends well (R237, R240, R248). -/
def undefTarget (ch die bank : Nat) (o : BankOp) (s : State) : State :=
  (opLines o).foldl (fun s a => putLine ch die bank o.block a .undef s) s

/-- Whether a block takes a program: its stamp VALID with the mode the command needs (R239). -/
def stampTakes (s : State) (blk : Nat) (fast : Bool) : Bool := (stampOf s blk).valid && (stampOf s blk).fast == fast

/-- PROG: a dense page named, the bank Loading (R237). -/
def execProg (ch : Fin 32) (p : Pkt) (s : State) : Res :=
  ran (onPacket ch 0x10 p (fun s =>
    let k := bankKey ch p.die.toNat p.bank.toNat
    if (bankOf s k).st ≠ .idle ∨ !stampTakes s (blockKey ch p.die.toNat p.bank.toNat p.block.toNat) false then
      illegalPkt ch 0x10 p s
    else setBank k (fun b => { b with
      st := .loading
      op := some ⟨false, false, p.block.toNat, p.addr.toNat % 2048, p.tag, [], 0, 0, false⟩ }) s) (begin s))

/-- A second program of a page since the last Clear leaves its lines undefined (R239). -/
def reprogram (s : State) (ch die bank : Nat) (o : BankOp) : Bool :=
  !o.fast && (opLines o).any (fun a => (sfind s.media.lines (lineKey (blockKey ch die bank o.block) a)).isSome)

/-- WDATA: a burst stored; the fortieth starts the program (R237). `mode` of the operation marks a page already programmed. A burst
index above 39 stores nothing (DESIGN CHOICE, log entry 71). -/
def execWdata (ch : Fin 32) (p : Pkt) (data : BitVec 1024) (s : State) : Res :=
  ran (onPacket ch 0x11 p (fun s =>
    let k := bankKey ch p.die.toNat p.bank.toNat
    match (bankOf s k).st, (bankOf s k).op with
    | .loading, some o =>
      if 40 ≤ p.arg.toNat % 64 then s
      else
        let o := { o with bursts := sput o.bursts (p.arg.toNat % 64) data }
        if o.bursts.length < 40 then setBank k (fun b => { b with op := some o }) s
        else
          let o := { o with mode := reprogram s ch p.die.toNat p.bank.toNat o }
          undefTarget ch p.die.toNat p.bank.toNat o
            (setBank k (fun b => { b with st := .programming, op := some o }) s)
    | _, _ => illegalPkt ch 0x11 p s) (begin s))

/-- FPROG: one line of a fast block written in place (R238). -/
def execFprog (ch : Fin 32) (p : Pkt) (data : MediaLine) (s : State) : Res :=
  ran (onPacket ch 0x12 p (fun s =>
    let k := bankKey ch p.die.toNat p.bank.toNat
    if (bankOf s k).st ≠ .idle ∨ !stampTakes s (blockKey ch p.die.toNat p.bank.toNat p.block.toNat) true then
      illegalPkt ch 0x12 p s
    else
      let o : BankOp := ⟨false, true, p.block.toNat, p.addr.toNat, p.tag, [], data, 0, false⟩
      undefTarget ch p.die.toNat p.bank.toNat o (setBank k (fun b => { b with st := .programming, op := some o }) s))
    (begin s))

/-- PFIN: the final verify starts (R237). Later than tHOLD it leaves its target undefined (R240). -/
def execPfin (ch : Fin 32) (p : Pkt) (s : State) : Res :=
  ran (onPacket ch 0x13 p (fun s =>
    let k := bankKey ch p.die.toNat p.bank.toNat
    if (bankOf s k).st ≠ .held then illegalPkt ch 0x13 p s
    else setBank k (fun b => { b with
      st := .finishing, op := b.op.map (fun o => { o with tag := p.tag, mode := o.mode || b.heldLate }), heldLate := false }) s) (begin s))

/-- The offset an event names for an operation: page or line, or block for a clear (R254). -/
def opParam (o : BankOp) : Nat := if o.clear then o.block else o.addr

/-- PABORT: the program dropped; from Held or ProgSuspended its target stays undefined (R236, R240, R243). -/
def execPabort (ch : Fin 32) (p : Pkt) (s : State) : Res :=
  ran (onPacket ch 0x14 p (fun s =>
    let k := bankKey ch p.die.toNat p.bank.toNat
    match (bankOf s k).st with
    | .loading | .held | .progSuspended =>
      let a := match (bankOf s k).op with | some o => opParam o | none => 0
      queueEvent ch p.die.toNat p.bank.toNat p.tag 0x0D 0x14 a
        (setBank k (fun b => { b with st := .idle, op := none, resumeDue := false, suspNoopDue := false, heldLate := false }) s)
    | _ => illegalPkt ch 0x14 p s) (begin s))

/-- The lines a finished program stores: none for a target that is undefined by R239 or R240. -/
def storeOp (ch die bank : Nat) (o : BankOp) (s : State) : State :=
  if o.mode then s
  else if o.fast then programLine ch die bank o.block o.addr o.line s
  else
    let page := o.bursts.foldl (fun a e => a + e.2.toNat <<< (1024 * e.1)) 0
    (List.range 64).foldl (fun s i =>
      programLine ch die bank o.block (64 * o.addr + i) (BitVec.ofNat 640 (page >>> (640 * i))) s) s

/-- The end of a program body: Held, PROG_HELD; a pending suspension turns into SUSP_NOOP and the deferred reads start
(R237, R243). -/
def execTpbodyEnd (ch : Fin 32) (die : Fin 16) (bank : Fin 8) (s : State) : Res :=
  let s := begin s
  let k := bankKey ch die bank
  ran (if dieResets s ch die then s else match (bankOf s k).st, (bankOf s k).op with
    | .programming, some o =>
      queueEvent ch die bank o.tag 0x01 (if o.fast then 0x12 else 0x10) (opParam o)
        (setBank k (fun b => { b with st := .held }) s)
    | .suspending, some o =>
      if o.clear then s
      else
        let s := queueEvent ch die bank o.tag 0x01 (if o.fast then 0x12 else 0x10) (opParam o)
          (setBank k (fun b => { b with st := .held }) s)
        startDeferred k (queueEvent ch die bank (bankOf s k).suspTag 0x07 0x21 0 s)
    | _, _ => s)

/-- The end of the final verify: PROG_DONE or PROG_FAIL, Idle, and SUSP_NOOP when a SUSP arrived in the window (R236,
R237). What a failed program leaves in its target is not stated: it stays undefined. -/
def execTpfinEnd (ch : Fin 32) (die : Fin 16) (bank : Fin 8) (failAt : Option (BitVec 17)) (s : State) : Res :=
  let s := begin s
  let k := bankKey ch die bank
  ran (if dieResets s ch die then s else match (bankOf s k).st, (bankOf s k).op with
    | .finishing, some o =>
      let noop := (bankOf s k).suspNoopDue
      let tag := (bankOf s k).suspTag
      let s := setBank k (fun b => { b with st := .idle, op := none, suspNoopDue := false }) s
      let s := match failAt with
        | none => queueEvent ch die bank o.tag 0x02 0x13 (opParam o) (storeOp ch die bank o s)
        | some a => queueEvent ch die bank o.tag 0x03 0x13 a.toNat s
      if noop then queueEvent ch die bank tag 0x07 0x21 0 s else s
    | _, _ => s)

/-! ## Clear (R244, R245) -/

/-- CLEAR: VALID falls before the array operation starts (R244). -/
def execClear (ch : Fin 32) (p : Pkt) (stamp : BitVec 64) (s : State) : Res :=
  ran (onPacket ch 0x20 p (fun s =>
    let k := bankKey ch p.die.toNat p.bank.toNat
    let blk := blockKey ch p.die.toNat p.bank.toNat p.block.toNat
    if (bankOf s k).st ≠ .idle then illegalPkt ch 0x20 p s
    else
      let s := dropBlock blk s
      let s := setStamp blk (fun t => { t with valid := false }) s
      setBank k (fun b => { b with
        st := .clearing, op := some ⟨true, false, p.block.toNat, 0, p.tag, [], 0, stamp, p.arg.getLsbD 0⟩ }) s) (begin s))

/-- The end of a clear (R244): one write stores stamp, mode and VALID and raises CCOUNT; a failed one leaves VALID 0. -/
def execTclearEnd (ch : Fin 32) (die : Fin 16) (bank : Fin 8) (ok : Bool) (s : State) : Res :=
  let s := begin s
  let k := bankKey ch die bank
  ran (if dieResets s ch die then s else match (bankOf s k).op with
    | some o =>
      if !o.clear ∨ ((bankOf s k).st ≠ .clearing ∧ (bankOf s k).st ≠ .suspending) then s
      else
        let susp := (bankOf s k).st = .suspending
        let s := setBank k (fun b => { b with st := .idle, op := none }) s
        let blk := blockKey ch die bank o.block
        let s := if ok then
            setStamp blk (fun t => { stamp := o.stamp, ccount := satInc t.ccount, valid := true, fast := o.mode }) s
          else s
        let s := queueEvent ch die bank o.tag (if ok then 0x04 else 0x05) 0x20 o.block s
        if susp then startDeferred k (queueEvent ch die bank (bankOf s k).suspTag 0x07 0x21 0 s) else s
    | none => s)

/-! ## Suspend and resume (R241 to R243) -/

/-- SUSP (R236). -/
def execSusp (ch : Fin 32) (p : Pkt) (s : State) : Res :=
  ran (onPacket ch 0x21 p (fun s =>
    let k := bankKey ch p.die.toNat p.bank.toNat
    match (bankOf s k).st with
    | .programming | .clearing => setBank k (fun b => { b with st := .suspending, suspTag := p.tag }) s
    | .idle | .loading | .held => queueEvent ch p.die.toNat p.bank.toNat p.tag 0x07 0x21 0 s
    | .finishing => setBank k (fun b => { b with suspNoopDue := true, suspTag := p.tag }) s
    | _ => s) (begin s))

/-- The suspension takes effect (R241). -/
def execTsuspEnd (ch : Fin 32) (die : Fin 16) (bank : Fin 8) (s : State) : Res :=
  let s := begin s
  let k := bankKey ch die bank
  ran (if dieResets s ch die then s else match (bankOf s k).st, (bankOf s k).op with
    | .suspending, some o =>
      let s := setBank k (fun b => { b with st := if o.clear then .clearSuspended else .progSuspended }) s
      startDeferred k (queueEvent ch die bank (bankOf s k).suspTag 0x06 0x21 0 s)
    | _, _ => s)

/-- RESUME (R236, R242). -/
def execResume (ch : Fin 32) (p : Pkt) (s : State) : Res :=
  ran (onPacket ch 0x22 p (fun s =>
    let k := bankKey ch p.die.toNat p.bank.toNat
    match (bankOf s k).st with
    | .progSuspended | .clearSuspended =>
      if (bankOf s k).resumeDue then illegalPkt ch 0x22 p s
      else resumeNow k (setBank k (fun b => { b with resumeDue := true }) s)
    | _ => illegalPkt ch 0x22 p s) (begin s))

/-! ## Information (R245, R255) -/

/-- The value of a feature (R228 table); 0 for one the table does not list (DESIGN CHOICE, log entry 70). -/
def featureOf (s : State) (ch die f : Nat) : Nat :=
  let k := stackOf s ch
  if f = 0 then b2n k.fullRate else if f = 1 then k.drive.toNat else if f = 2 then k.odt.toNat
  else if f = 3 then k.vrefdq.toNat else if f = 4 then (sget 95 k.therm die).toNat else 0

/-- The stamp of a block as SRD reports it (R245). -/
def stampInfo (s : State) (blk : Nat) : List Byte :=
  let t := stampOf s blk
  let flags := b2n t.valid + 2 * b2n t.fast + 4 * b2n (Nat.ble 200000 t.ccount.toNat)
  bytesOf 8 t.stamp.toNat ++ bytesOf 4 t.ccount.toNat ++ [BitVec.ofNat 8 flags, 0]

/-- Bank states, die state, reads running or ready, as STATUS reports them (R255). -/
def statusInfo (s : State) (ch d : Nat) : List Byte :=
  let bs := (List.range 8).map (fun b => bankOf s (bankKey ch d b))
  let ready := (stackOf s ch).ready.countP (fun f => f.kind == 0#3 && f.die.toNat == d)
  let reads := bs.foldl (fun a b => a + b.running.length) ready
  bs.map (fun b => BitVec.ofNat 8 (bsCode b.st)) ++ [BitVec.ofNat 8 (b2n ((stackOf s ch).faults.contains d)), BitVec.ofNat 8 reads]

/-- The answer of an information command (R245, R255): opcodes 0x30 to 0x34. A temperature the stack measures and the
revision of IDENT, beside the MX16 geometry of R253, are free values here. -/
def infoAnswer (ch op : Nat) (p : Pkt) (s : State) : List Byte × State :=
  let d := p.die.toNat
  if op = 0x30 then (stampInfo s (blockKey ch d p.bank.toNat p.block.toNat), s)
  else if op = 0x31 then (statusInfo s ch d, s)
  else if op = 0x32 then
    let (t, s) := drawBits 16 s
    (bytesOf 2 t.toNat ++ [BitVec.ofNat 8 (p.arg.toNat % 2)], s)
  else if op = 0x33 then
    let (rev, s) := drawBits 8 s
    (bytesOf 2 0x4D4D ++ bytesOf 2 0x0016 ++ [rev, 8] ++ bytesOf 2 6144 ++ bytesOf 3 65600 ++ bytesOf 2 21866, s)
  else ([p.arg, BitVec.ofNat 8 (featureOf s ch d p.arg.toNat)], s)

/-- An information command: its answer is ready after tINFO. -/
def onInfo (ch op : Nat) (p : Pkt) (s : State) : State :=
  onPacket ch op p (fun s =>
    let (b, s) := infoAnswer ch op p s
    pendInfo ch (frameOf s ch 1 p.tag p.die.toNat p.bank.toNat (infoPayload b)) s) s

/-- SRD (R245). -/
def execSrd (ch : Fin 32) (p : Pkt) (s : State) : Res := ran (onInfo ch 0x30 p (begin s))

/-- STATUS (R255). -/
def execStatus (ch : Fin 32) (p : Pkt) (s : State) : Res := ran (onInfo ch 0x31 p (begin s))

/-- TEMP (R255). -/
def execTemp (ch : Fin 32) (p : Pkt) (s : State) : Res := ran (onInfo ch 0x32 p (begin s))

/-- IDENT (R253, R255). -/
def execIdent (ch : Fin 32) (p : Pkt) (s : State) : Res := ran (onInfo ch 0x33 p (begin s))

/-- GETF (R255). -/
def execGetf (ch : Fin 32) (p : Pkt) (s : State) : Res := ran (onInfo ch 0x34 p (begin s))

/-- SETF (R227, R228 table). A feature the table does not list is not set; a value the table does not list is stored as it comes, RATE
taking bit 0 (DESIGN CHOICE, log entry 70). -/
def execSetf (ch : Fin 32) (p : Pkt) (s : State) : Res :=
  ran (onPacket ch 0x35 p (fun s =>
    let v := BitVec.ofNat 8 p.addr.toNat
    setStack ch (fun k =>
      match p.arg.toNat with
      | 0 => { k with fullRate := v.getLsbD 0 }
      | 1 => { k with drive := v }
      | 2 => { k with odt := v }
      | 3 => { k with vrefdq := v }
      | 4 => { k with therm := sset 95 k.therm p.die.toNat v }
      | _ => k) s) (begin s))

/-- The end of tINFO: the answer is ready, its header with the bank's state then (R232, R247). -/
def execTinfoEnd (ch : Fin 32) (tag : BitVec 7) (s : State) : Res :=
  let s := begin s
  ran (match (stackOf s ch).pendInfo.find? (fun f => f.tag == tag) with
    | none => s
    | some f =>
      let s := setStack ch (fun k => { k with pendInfo := k.pendInfo.filter (fun x => x.tag != tag) }) s
      queueFrame ch (frameOf s ch f.kind.toNat f.tag f.die.toNat f.bank.toNat f.payload) s)

/-! ## Frame retrieval, training and calibration (R231, R227) -/

/-- The empty frame of R231. -/
def emptyFrameOf : RetFrame := mkFrame 4 127 0 0 0 0

/-- RDOUT: the oldest ready frame, or the last one again (R231). -/
def execRdout (ch : Fin 32) (p : Pkt) (s : State) : Res :=
  ran (onPacket ch 0x38 p (fun s =>
    let k := stackOf s ch
    if p.arg.getLsbD 0 then send s (.frame ch (k.last.getD emptyFrameOf))
    else
      match k.ready with
      | [] => send (setStack ch (fun k => { k with last := some emptyFrameOf }) s) (.frame ch emptyFrameOf)
      | f :: rest => send (setStack ch (fun k => { k with ready := rest, last := some f }) s) (.frame ch f)) (begin s))

/-- ZQCAL: calibration started, or latched once tZQ has passed (R227, R247). A latch sent earlier does nothing (DESIGN CHOICE, log
entry 70). -/
def execZqcal (ch : Fin 32) (p : Pkt) (s : State) : Res :=
  ran (onPacket ch 0x40 p (setStack ch (fun k =>
    if p.arg.getLsbD 0 then (if k.zqReady then { k with zqLatched := true, zqReady := false } else k)
    else { k with zqRunning := true, zqReady := false, zqLatched := false })) (begin s))

/-- CATRAIN: echo mode entered or left (R227). -/
def execCatrain (ch : Fin 32) (p : Pkt) (s : State) : Res :=
  ran (onPacket ch 0x41 p (setStack ch (fun k => { k with catrain := p.arg.getLsbD 0 })) (begin s))

/-- WRPAT: the training buffer written (R227). -/
def execWrpat (ch : Fin 32) (p : Pkt) (data : BitVec 1024) (s : State) : Res :=
  ran (onPacket ch 0x42 p (setStack ch (fun k => { k with train := data })) (begin s))

/-- RDPAT: a pattern frame of the training buffer (R227). -/
def execRdpat (ch : Fin 32) (p : Pkt) (s : State) : Res :=
  ran (onPacket ch 0x43 p (fun s =>
    pendInfo ch (frameOf s ch 3 p.tag p.die.toNat p.bank.toNat (stackOf s ch).train) s) (begin s))

/-! ## Die reset and faults (R243, R249) -/

/-- Every operation of a bank dropped, none of its events sent: a target being programmed is undefined already, a cleared
block's stamp not VALID already (R243, R248). Reads that run or wait are dropped with no line frame: the rule names frames already queued
only (DESIGN CHOICE, log entry 93). -/
def dropOps (k : Nat) (s : State) : State :=
  setBank k (fun b => { b with
    st := .idle, op := none, suspNoopDue := false, resumeDue := false, heldLate := false, deferred := [], running := [] }) s

/-- DRESET: the die resets; the banks are Idle when tDRST ends (R243, R249). -/
def execDreset (ch : Fin 32) (p : Pkt) (s : State) : Res :=
  ran (onPacket ch 0x7F p (setStack ch (fun k =>
    { k with resetting := if k.resetting.contains p.die.toNat then k.resetting else k.resetting ++ [p.die.toNat] })) (begin s))

/-- The opcodes of R227. -/
def knownOp (op : Nat) : Bool :=
  [0x01, 0x02, 0x03, 0x10, 0x11, 0x12, 0x13, 0x14, 0x20, 0x21, 0x22, 0x30, 0x31, 0x32, 0x33, 0x34, 0x35, 0x38, 0x40,
    0x41, 0x42, 0x43, 0x7F].contains op

/-- An opcode not listed: ILLEGAL (R228). A listed opcode is no packet of this row. -/
def execMediaUnknownOpcode (ch : Fin 32) (op : Byte) (p : Pkt) (s : State) : Res :=
  ran (if knownOp op.toNat then begin s else onPacket ch op.toNat p (illegalPkt ch op.toNat p) (begin s))

/-- The stack loses its supplies or MRESET_N falls: operations in progress end as R248 states, everything the stack keeps
outside its array and stamps is lost (R248, R249). -/
def stackDown (ch : Nat) (powered : Bool) (s : State) : State :=
  let s := { s with media := { s.media with banks := s.media.banks.filter (fun e => e.1 / 128 != ch) } }
  setStack ch (fun _ => { powered := powered }) s

end Sys2Proof.Machine
end

