-- ==== Sys2Proof/Machine/Bands.lean ====
section
/-! DEFINITION. Bands and their members, missing members, bank groups and windows (R84 to R94, R324, R330, R416), and the
drift of read references (R301 to R306). -/

namespace Sys2Proof.Machine

/-! ## Members (R84 to R87; 09, note) -/

/-- The channel and die slot of member m of a band. -/
def memberAt (s : State) (b m : Nat) : Nat × Nat :=
  let n := nChannels s
  (m % n, bandDie b + (if n = 32 then 0 else n / 2 * (m / n)))

/-- The bank and block of a band on each of its dies (R85). -/
def bandBank (b : Nat) : Nat := bankOfBlock (bandIndex b)
def bandBlock (b : Nat) : Nat := blockInBank (bandIndex b)

/-- The block of a member. -/
def memberBlock (s : State) (b m : Nat) : Nat :=
  blockKey (memberAt s b m).1 (memberAt s b m).2 (bandBank b) (bandBlock b)

/-- A band as kept; unlisted bands are clear and never written. -/
def bandOf (s : State) (b : Nat) : Band := sget {} s.mm.bands b
def setBand (b : Nat) (f : Band → Band) (s : State) : State :=
  { s with mm := { s.mm with bands := smod {} s.mm.bands b f } }

/-- The live members of a band in order. -/
def liveOf (d : Band) : List Nat := bitsOf d.live

/-- The member that holds a data slot (R86, R87). -/
def slotMember (d : Band) (slot : Nat) : Nat :=
  let l := liveOf d
  l.getD ((slot + d.rot) % max l.length 1) 0

/-- What a live member holds: true and its code position, or false and its data slot. -/
def roleOf (d : Band) (m : Nat) : Bool × Nat :=
  let l := liveOf d
  let n := l.length
  let i := (l.findIdx? (fun x => x == m)).getD 0
  let j := (i + n - d.rot % max n 1) % max n 1
  if j < n - 4 then (false, j) else (true, j - (n - 4))

/-- The exponent of a member's symbol in the stripe code (R320). -/
def memberExp (d : Band) (m : Nat) : Nat := let r := roleOf d m; symExp r.1 r.2

/-! ## Missing members (R324) -/

/-- The frame a slot holds: KIND 0x00 or 0x01; none for an empty slot (R91, R92). -/
def slotLfn (d : Band) (slot : Nat) : Option Nat :=
  let v := (d.slots.getD slot 0xFFFFFFFF).toNat
  if v / 2 ^ 24 ≤ 1 then some (v % 2 ^ 24) else none

/-- The metadata of a data slot's payload lines (R93): LFN[7:0] of its map entry, 0xFF for an empty slot (R266), and FOLD_SEQ[7:0]. -/
def slotMeta (d : Band) (slot : Nat) : BitVec 16 :=
  BitVec.ofNat 16 ((slotLfn d slot).getD 0xFF % 256 * 256 + d.foldSeq.toNat % 256)

/-- Whether a unit's state makes its members missing. -/
def outState (st : UState) : Bool :=
  st == .isolated || st == .testing || st == .bypassed || st == .absent || st == .retired

/-- Whether a channel runs the start steps of R250: it counts as a missing member (R252). -/
def inTraining (s : State) (ch : Nat) : Bool :=
  let t := (sget {} s.media.carters ch).trainStep
  t != 0 && t != 11

/-- Whether the channel, die or bank of a place is in a state that some test holds of. -/
def placeIs (f : UState → Bool) (s : State) (ch die bank : Nat) : Bool :=
  f (ownState s (uChannel ch)) || f (ownState s (uDie (dieKey ch die))) || f (ownState s (uBank (bankKey ch die bank)))

/-- Whether the channel, die or bank of a place is missing. -/
def placeOut (s : State) (ch die bank : Nat) : Bool := inTraining s ch || placeIs outState s ch die bank

/-- Whether a unit has left service for good: Isolated, Absent or Retired (R103, R328). -/
def goneState (st : UState) : Bool := st == .isolated || st == .absent || st == .retired

/-- Whether a place belongs to a unit whose planned removal is admitted: it counts as missing already (R420). -/
def removalCovers (s : State) (u ch die bank : Nat) : Bool :=
  let i := uIndex u
  match uClass u with
  | 2 => i == ch
  | 3 => i == dieKey ch die
  | 4 => i == bankKey ch die bank
  | 8 => (s.power.rails.getD i {}).channels.getLsbD ch
  | _ => false
def removalOut (s : State) (ch die bank : Nat) : Bool :=
  s.tt.removals.any (fun r => r.admitted && removalCovers s r.unit.toNat ch die bank)

/-- Whether a member of a live band is missing (R324): its unit, its mark, or a block cleared or left out since the band
was written (R325). -/
def memberMissing (s : State) (b m : Nat) : Bool :=
  let p := memberAt s b m
  placeOut s p.1 p.2 (bandBank b) || s.mm.bad.contains (memberBlock s b m) || (bandOf s b).failed.getLsbD m

/-- The missing members of a live or open band, admitted removals included. -/
def missingOf (s : State) (b : Nat) : List Nat :=
  (liveOf (bandOf s b)).filter (fun m => memberMissing s b m ||
    removalOut s (memberAt s b m).1 (memberAt s b m).2 (bandBank b))

/-- Bands that hold members now: written or open. -/
def heldBands (s : State) : List Nat :=
  (s.mm.bands.filter (fun e => e.2.cls == .written || e.2.cls == .open_)).map (fun e => e.1)

/-- The live count of a band (R286): the Frame Table entries that name it. -/
def liveCount (s : State) (b : Nat) : Nat :=
  s.xlat.ft.countP (fun e => ftBand e.2 == b && (ftMode e.2 == mDense || ftMode e.2 == mParity ||
    (ftMode e.2 == mFolding && ftSlot e.2 != 31)))

/-- The frames that name a band. -/
def framesOf (s : State) (b : Nat) : List Nat :=
  (s.xlat.ft.filter (fun e => ftBand e.2 == b && (ftMode e.2 == mDense || ftMode e.2 == mParity ||
    (ftMode e.2 == mFolding && ftSlot e.2 != 31)))).map (fun e => e.1)

/-- Live bands: written ones that some entry names. -/
def liveBands (s : State) : List Nat :=
  ((s.mm.bands.filter (fun e => e.2.cls == .written)).map (fun e => e.1)).filter (fun b => liveCount s b ≠ 0)

/-! ## Bank groups and windows (R330, R416 to R418) -/

/-- The group number 8d + k of a bank; d is the die slot modulo the band die slots of the variant. -/
def groupOf (s : State) (die bank : Nat) : Nat := 8 * (die % (nChannels s / 2)) + bank

/-- The group of a band. -/
def bandGroup (b : Nat) : Nat := 8 * bandDie b + bandBank b

/-- M(g): the most missing members of any live or open band of the group (R416). -/
def groupM (s : State) (g : Nat) : Nat :=
  ((heldBands s).filter (fun b => bandGroup b == g)).foldl (fun a b => max a (missingOf s b).length) 0

/-- W(g) of a missing count (R416). -/
def windowsFor (m : Nat) : Nat := min 2 (4 - m)

/-- The Carter sequencer of a channel. -/
def cartOf (s : State) (ch : Nat) : Carter := sget {} s.media.carters ch
def setCart (ch : Nat) (f : Carter → Carter) (s : State) : State :=
  { s with media := { s.media with carters := smod {} s.media.carters ch f } }

/-- The operation a bank runs, as the Carter sequencer follows it. -/
def opAt (s : State) (ch die bank : Nat) : Option CProg :=
  (cartOf s ch).running.find? (fun p => p.die == die && p.bank == bank)

/-- A bank in its non-suspendable window: from PFIN to PROG_DONE or PROG_FAIL (R417). -/
def inWindow (s : State) (ch die bank : Nat) : Bool :=
  match opAt s ch die bank with
  | some p => p.phase == .finishing
  | none => false

/-- A bank whose program or clear runs and is not suspended. -/
def isBusy (s : State) (ch die bank : Nat) : Bool :=
  match opAt s ch die bank with
  | some p => p.phase == .busy && !(cartOf s ch).suspended.contains (die, bank)
  | none => false

/-- The open windows of a dense group. -/
def openWindows (s : State) (g : Nat) : Nat :=
  s.media.carters.foldl (fun a e => a + e.2.running.countP (fun p =>
    p.phase == .finishing && p.bank != 7 && groupOf s p.die p.bank == g)) 0

/-- The channel of the other copy of a fast pair (R95). -/
def pairOf (s : State) (ch : Nat) : Nat :=
  match s.variant with
  | .l1 => if ch < 4 then ch + 4 else ch - 4
  | _ => if ch / 8 % 2 = 0 then ch + 8 else ch - 8

/-! ## Age and temperature (R301) -/

/-- The constant 2^(1/80) in units of 2⁻⁴⁸: one eighth of a degree of R301's exponent. -/
def root80 : Nat := 283924367395395

/-- 2^(j/80) in units of 2⁻⁴⁸. -/
def pow80 : Nat → Nat
  | 0 => 2 ^ 48
  | n + 1 => pow80 n * root80 / 2 ^ 48

/-- 16 ms at a temperature in 0.125 °C, in units of 2⁻¹⁶ ms at 50 °C (R301). The exponent is cut to what the sum can
hold. -/
def atiGrowth (t : BitVec 16) : Nat :=
  let e := t.toInt - 400 + 8000
  let e := e.toNat
  16 * (pow80 (e % 80) / 2 ^ 32) * 2 ^ (e / 80) / 2 ^ 100

/-- A(t) of a channel now, in 2⁻¹⁶ ms. -/
def atiNow (s : State) (ch : Nat) : Nat := sget 0 s.mm.ati ch

/-- A(t) of a channel at an instant, interpolated between the saved points and now (R301), in 2⁻¹⁶ ms. -/
def atiAt (s : State) (ch : Nat) (t : Nat) : Nat :=
  let pts := (s.mm.atiDays ++ s.mm.atiHours).map (fun p => (p.1.toNat, sget 0 p.2 ch * 65536)) ++
    [(s.time.ftime.toNat, atiNow s ch)]
  let before := (pts.filter (fun p => Nat.ble p.1 t)).foldl (fun a p => match a with
    | none => some p
    | some q => if q.1 ≤ p.1 then some p else some q) none
  let after := (pts.filter (fun p => Nat.ble t p.1)).foldl (fun a p => match a with
    | none => some p
    | some q => if p.1 < q.1 then some p else some q) none
  match before, after with
  | some a, some b => if b.1 = a.1 then a.2 else a.2 + (b.2 - a.2) * (t - a.1) / (b.1 - a.1)
  | some a, none => a.2
  | none, some b => b.2
  | none, none => 0

/-- A band's ATI on a channel, in ms at 50 °C (R301). -/
def bandAti (s : State) (b ch : Nat) : Nat := (atiNow s ch - atiAt s ch (bandOf s b).pstamp.toNat) / 65536

/-! ## Reference offsets (R302, R303) -/

/-- The fraction bits of log2 of a mantissa in [1, 2) held in 2⁻³² units. -/
def log2Frac : Nat → Nat → Nat → Nat
  | 0, _, acc => acc
  | n + 1, m, acc =>
    let q := m * m / 2 ^ 32
    if 2 ^ 33 ≤ q then log2Frac n (q / 2) (2 * acc + 1) else log2Frac n q (2 * acc)

/-- log2(1 + ATI / 1 s) in units of 2⁻¹⁶, ATI in ms. -/
def lambda (ms : Nat) : Nat :=
  let v := (1000 + ms) * 2 ^ 32 / 1000
  let n := v.log2 - 32
  n * 65536 + log2Frac 16 (v / 2 ^ n) 0

/-- A quotient rounded to the nearest integer, halves away from zero. -/
def roundDiv (a b : Int) : Int := if 0 ≤ a then (a + b / 2) / b else -((-a + b / 2) / b)

/-- A value saturated at ±127. -/
def sat127 (v : Int) : Int := max (-127) (min 127 v)

/-- The seven values of 16 bits from byte `o` of a record. -/
def coefs (p : List Byte) (o : Nat) : List (BitVec 16) := (List.range 7).map (fun k => BitVec.ofNat 16 (field p (o + 2 * k) 2))

/-- D_1 to D_7 and P_1 to P_7 of a die in 1/256: factory values, the overlay on top while it applies (R528, R529). -/
def dieCoefs (s : State) (die : Nat) : List Int × List Int :=
  let f := (ringPayload s.sb.cells 0x21 die).getD []
  let d := (coefs f 0).map (fun v => (v.toNat : Int))
  let p := (coefs f 14).map BitVec.toInt
  match sfind s.mm.overlay die with
  | none => (d, p)
  | some o =>
    if field o 0 6 ≠ s.mm.calClear.toNat then (d, p)
    else
      (List.zipWith (fun a b => max 0 (min 65535 (a + BitVec.toInt b))) d (coefs o 6),
       List.zipWith (fun a b => max (-32768) (min 32767 (a + BitVec.toInt b))) p (coefs o 20))

/-- The sum of a list of integers. -/
def sumInt (l : List Int) : Int := l.foldl (fun a x => a + x) 0

/-- The reference slot a dense band's ATI selects, and the log2 term at the slot's representative ATI (R303). -/
def refSlot (ms : Nat) : Nat × Nat :=
  if ms < 4096 * 1000 then (1, lambda (64 * 1000))
  else if ms < 2 ^ 20 * 1000 then (2, lambda (65536 * 1000))
  else (3, lambda (2 ^ 22 * 1000))

/-- The base shift of R303 for a band on a member's die: D̄ × (λ − λⱼ) + P̄ × (PTEMP − 50 °C) / 10 °C, rounded. -/
def baseShift (s : State) (b ch die : Nat) : Nat × Int :=
  let ms := bandAti s b ch
  let (slot, lj) := refSlot ms
  let (d, p) := dieCoefs s (dieKey ch die)
  let t := (sget (0 : BitVec 16) (bandOf s b).ptemps (dieKey ch die)).toInt - 400
  -- sum of D in 1/256 times λ in 2⁻¹⁶ over 7, plus sum of P in 1/256 times t in 1/80 over 7
  let num := sumInt d * ((lambda ms : Int) - (lj : Int)) * 80 + sumInt p * t * 65536
  (slot, roundDiv num (7 * 256 * 65536 * 80))

/-- The offset off_k of R302, k from 0 for T1, of a die at an ATI, its P term for a temperature in 0.125 °C. -/
def refOffset (s : State) (die k ms : Nat) (ptemp : Int) : Int :=
  let (d, p) := dieCoefs s die
  let num := d.getD k 0 * (lambda ms : Int) * 80 + p.getD k 0 * (ptemp - 400) * 65536
  sat127 (roundDiv num (256 * 65536 * 80) + ((sget (0 : BitVec 64) s.mm.sk die).extractLsb' (8 * k) 8).toInt)

/-- The contents of reference slot j of a die's banks (R303): slot 0 holds S_k and S_F; slots 1 to 3 hold off_k at their
representative ATI without its P term, and S_F. -/
def refSlotWord (s : State) (die j : Nat) : BitVec 64 :=
  let sk := sget (0 : BitVec 64) s.mm.sk die
  if j = 0 then sk
  else
    let ms := [0, 64 * 1000, 65536 * 1000, 2 ^ 22 * 1000].getD j 0
    BitVec.ofNat 64 (ofLe ((List.range 7).map (fun k => ((refOffset s die k ms 400).emod 256).toNat) ++
      [bits sk.toNat 56 8]))

/-- Whether a band's references are measured (R304): its age is not at least eight times its uncertainty, or it was
stamped in free-run in an earlier power-on. -/
def mustMeasure (s : State) (b : Nat) : Bool :=
  let d := bandOf s b
  let age := s.time.ftime.toNat - d.pstamp.toNat
  (d.pflags.getLsbD 1 && !d.thisOn) ||
    (match stampBoundNs s d.foldSeq.toNat with
      | none => true
      | some u => Nat.blt age (8 * (u + 1000 * d.holdover.toNat)))

/-- A drift reference line, written raw (R305). -/
def driftLine (x : Nat) : MediaLine :=
  let seed : BitVec 32 := BitVec.ofNat 32 (0xB5D60000 + x)
  BitVec.ofNat 640 (ofLe (((List.range 80).foldl (fun (a : BitVec 32 × List Nat) _ =>
    let v := times 8 lfsrStep a.1
    (v, a.2 ++ [v.toNat % 256])) (seed, [])).2))

/-- The bits in which two raw lines differ. -/
def rawErrors (a b : MediaLine) : Nat := (List.range 640).countP (fun i => (a ^^^ b).getLsbD i)

/-- Reference line 3 of a member read raw at some references; what the cells show is the media's own, a free value (log entry 100). -/
def readReference (s : State) : MediaLine × State := drawBits 640 s

/-- The measured shift of a band (R304): a drift reference line read raw at the seven shifts from −8 to +16, the first with the fewest raw
errors. What a line reads at a shifted reference is not stated, and is free; the reads are one step here (log entry 100). -/
def measureShift (s : State) : BitVec 8 × State :=
  let r := (List.range 7).foldl (fun (a : Option (Nat × Nat) × State) i =>
    let (raw, s) := readReference a.2
    let n := rawErrors raw (driftLine 3)
    (match a.1 with
      | some (m, j) => if n < m then some (n, i) else some (m, j)
      | none => some (n, i), s)) (none, s)
  (BitVec.ofInt 8 ((match r.1 with | some (_, i) => (i : Int) | none => 0) * 4 - 8), r.2)

/-- A band's slot and base shift for a read on a member's die, the band measured first where R304 says so; measured shifts are held for up
to 4,096 bands. -/
def readRefs (b ch die : Nat) (s : State) : (Nat × Int) × State :=
  let (slot, sh) := baseShift s b ch die
  if !mustMeasure s b then ((slot, sat127 sh), { s with mm := { s.mm with measured := sdel s.mm.measured b } })
  else
    let (m, s) := match sfind s.mm.measured b with
      | some v => (v, s)
      | none =>
        let (v, s) := measureShift s
        (v, { s with mm := { s.mm with
          measured := (if 4096 ≤ s.mm.measured.length then s.mm.measured.drop 1 else s.mm.measured) |> fun l => sput l b v } })
    ((slot, sat127 (sh + m.toInt)), s)

/-- The offset of a retry step (R134). -/
def retryOffset (step : Nat) : Int := [0, 4, 8, -4, 12, -8, 16].getD step 0

end Sys2Proof.Machine
end

