-- ==== Sys2Proof/Machine/Pages.lean ====
section
/-! DEFINITION. What header pages hold: descriptors, the band map, drift reference lines, and the bursts that a program or a clear takes
as it starts (R91, R92, R237, R271, R289, R305). -/

namespace Sys2Proof.Machine

/-- The temperature last read of a member's die. -/
def memberTemp (s : State) (b m : Nat) : BitVec 16 := let p := memberAt s b m; sget 0 s.mm.dieTemp (dieKey p.1 p.2)

/-- The block descriptor of a member, its stamps those of the instant (R91, R271). -/
def descriptorLine (s : State) (f : FoldBatch) (m : Nat) : Line :=
  let d := bandOf s f.band
  let r := roleOf d m
  let lfn := if r.1 then 0xFFFFFFFF else (d.slots.getD r.2 0xFF000000).toNat
  let hw := if r.1 then 0 else match f.slots[r.2]? with | some sl => sl.psnap.toNat % 2 ^ 24 | none => 0
  let body := bytesOf 4 0xBD640001 ++ bytesOf 4 f.band ++ [BitVec.ofNat 8 (if r.1 then 0x80 + r.2 else r.2), BitVec.ofNat 8 m] ++
    [BitVec.ofNat 8 d.width, BitVec.ofNat 8 d.rot] ++ bytesOf 4 d.live.toNat ++ bytesOf 4 lfn ++
    bytesOf 2 (memberTemp s f.band m).toNat ++ bytesOf 2 (stampFlags s).toNat ++ bytesOf 8 s.time.ftime.toNat ++
    bytesOf 8 d.foldSeq.toNat ++ bytesOf 4 (stampHoldover s).toNat ++ bytesOf 4 hw ++ List.replicate 12 0
  BitVec.ofNat 512 (natOf (body ++ bytesOf 4 (crc32c (body.map BitVec.toNat))))

/-- The band map's two lines (R92). -/
def mapLine (d : Band) (second : Bool) : Line :=
  let e := fun i => (d.slots.getD i 0xFFFFFFFF).toNat
  let l1 := (List.range 16).flatMap (fun i => bytesOf 4 (e i))
  let l2 := (List.range 12).flatMap (fun i => bytesOf 4 (e (16 + i))) ++ List.replicate 12 0
  if !second then BitVec.ofNat 512 (natOf l1)
  else BitVec.ofNat 512 (natOf (l2 ++ bytesOf 4 (crc32c ((l1 ++ l2).map BitVec.toNat))))

/-- The line of a member at an offset of page 0. -/
def headerLine (s : State) (f : FoldBatch) (m x : Nat) : MediaLine :=
  if x % 32 = 0 then mediaLine (descriptorLine s f m) 0x4844
  else if x % 32 = 1 then mediaLine (mapLine (bandOf s f.band) false) 0x4844
  else if x % 32 = 2 then mediaLine (mapLine (bandOf s f.band) true) 0x4844
  else driftLine x

/-- The 40 bursts of 64 lines of 80 bytes (R237). -/
def linesBursts (l : Nat → MediaLine) : List (BitVec 1024) :=
  let v := (List.range 64).foldl (fun a i => a + (l i).toNat * 2 ^ (640 * i)) 0
  (List.range 40).map (fun j => BitVec.ofNat 1024 (v >>> (1024 * j)))

/-- A member's header page begins: the band's own stamps are those of the first to begin, PTEMP each member's (R271, R301; which member's
PSTAMP stands for the band is not stated: DESIGN CHOICE, log entry 95). -/
def stampBand (b m : Nat) (s : State) : State :=
  let k := let p := memberAt s b m; dieKey p.1 p.2
  let t := memberTemp s b m
  setBand b (fun d =>
    let d := if d.ptemps = [] then { d with pstamp := s.time.ftime, pflags := stampFlags s, holdover := stampHoldover s } else d
    { d with ptemps := sput d.ptemps k t }) s

/-- The stamp of a CLEAR: the band number, and CSEQ[39:0] at its issue (R289). -/
def clearStamp (s : State) (b : Nat) : BitVec 1024 := BitVec.ofNat 1024 (b + s.mm.cseq.toNat % 2 ^ 40 * 2 ^ 24)

/-- The bursts of a program or clear as it starts: a header page has the stamps of its start (R271), a CLEAR the CSEQ of its issue (R289). -/
def startBursts (p : CProg) (s : State) : List (BitVec 1024) × State :=
  match p.purpose with
  | .page b m 0 =>
    (match s.mm.batches.find? (fun f => f.band == b) with
    | some f => let s := stampBand b m s; (linesBursts (headerLine s f m), s)
    | none => (p.bursts, s))
  | .clear b _ => ([clearStamp s b], s)
  | _ => (p.bursts, s)

end Sys2Proof.Machine
end

