-- ==== Sys2Proof/Machine/Carter.lean ====
section
/-! DEFINITION. The Carter sequencers' issue side: reads, suspends, windows, resumes, programs and clears (R129 to R133,
R257 to R260, R417, R418, R423). What a sequencer sends is in `out`; the rows of the packets show it reaching the stack. -/

namespace Sys2Proof.Machine

/-- The lowest tag free on a channel: none is used again before the frame that answers it has been taken (R233). -/
def freeTag (c : Carter) : Option (BitVec 7) :=
  ((List.range 127).map (BitVec.ofNat 7)).find? (fun t =>
    !(c.outst.any (fun o => o.1 == t)) && !(c.running.any (fun p => p.tag == t)) && !(c.raws.any (fun r => r.1 == t)) &&
      !(c.stale.any (fun r => r.1 == t)))

/-- The frame that answers a dropped tag has been taken, or will never come. -/
def dropStale (ch : Nat) (tag : BitVec 7) (s : State) : State :=
  setCart ch (fun c => { c with stale := c.stale.filter (fun r => r.1 != tag) }) s

/-- A packet with its CHK and group select (R224, R226). -/
def mkPkt (op die bank block addr : Nat) (tag : BitVec 7) (arg : Nat) : Pkt :=
  let stack := isStackOp op || (op == 0x35 && Nat.ble arg 3)
  let p : Pkt := { cs := if stack then 0 else if die < 8 then 0b10 else 0b01
                   die := BitVec.ofNat 4 die, bank := BitVec.ofNat 3 bank, block := BitVec.ofNat 13 block
                   addr := BitVec.ofNat 17 addr, tag := tag, arg := BitVec.ofNat 8 arg, chk := 0 }
  { p with chk := BitVec.ofNat 4 (pktXor op p) }

/-- One packet sent. -/
def sendPkt (ch op die bank block addr : Nat) (tag : BitVec 7) (arg : Nat) (s : State) : State :=
  send s (.packet ch (BitVec.ofNat 8 op) (mkPkt op die bank block addr tag arg))

/-- A channel whose units carry media traffic: its sequencer works. -/
def chanWorks (s : State) (ch : Nat) : Bool := Nat.blt ch (nChannels s) && (cartOf s ch).trained

/-! ## Suspends (R129, R130, R260) -/

/-- SUSP sent to a busy bank, once. -/
def suspendBank (ch die bank : Nat) (s : State) : State :=
  if isBusy s ch die bank then
    sendPkt ch 0x21 die bank 0 0 127 0 (setCart ch (fun c => { c with suspended := c.suspended ++ [(die, bank)] }) s)
  else s

/-- A read in the list changed. -/
def updRead (rid : Nat) (f : MRead → MRead) (s : State) : State :=
  { s with media := { s.media with mreads := s.media.mreads.map (fun r => if r.rid = rid then f r else r) } }

/-- A suspend counted once, whatever it stops (R153). -/
def countSuspend (s : State) : State :=
  { s with
    rstat := { s.rstat with suspend := satInc s.rstat.suspend }
    unit := { s.unit with suspCount := s.unit.suspCount + 1 } }

/-- A stripe or pair suspend (R129, R130, R260): every busy bank of the list. The read holds every bank of the list that it suspends or
meets suspended (R131). -/
def suspendAll (rid : Nat) (places : List (Nat × Nat × Nat)) (s : State) : State :=
  let busy := places.filter (fun p => isBusy s p.1 p.2.1 p.2.2)
  let s := if busy = [] then s else countSuspend (busy.foldl (fun s p => suspendBank p.1 p.2.1 p.2.2 s) s)
  let held := places.filter (fun p => (cartOf s p.1).suspended.contains p.2)
  updRead rid (fun r => { r with susp := r.susp ++ held.filter (fun p => !r.susp.contains p) }) s

/-- A bank met suspended: the read holds it too (R131). -/
def holdBank (rid : Nat) (p : Nat × Nat × Nat) (s : State) : State :=
  updRead rid (fun r => if r.susp.contains p then r else { r with susp := r.susp ++ [p] }) s

/-- The banks of a band's live members, and of the two copies of a fast set. -/
def bandPlaces (s : State) (b : Nat) : List (Nat × Nat × Nat) :=
  (liveOf (bandOf s b)).map (fun m => ((memberAt s b m).1, (memberAt s b m).2, bandBank b))
def setPlaces (s : State) (f : Nat) : List (Nat × Nat × Nat) :=
  let a := fastAt s f
  [(a.chA, a.die, 7), (a.chB, a.die, 7)]

/-- The banks that a suspend of a bank stops with it: those of the band whose block is read, or of both copies of a fast set (R130). -/
def stripeOf (s : State) (ch die bank block : Nat) : List (Nat × Nat × Nat) :=
  if bank = 7 then setPlaces s (fastSetOf s ch die block).1 else bandPlaces s (bandAt s die bank block)

/-! ## Issue of reads (R257) -/

/-- A read issued: REFSET, READ, the tag outstanding (R246, R248 example). -/
def issueRead (ch : Nat) (r : CRead) (tag : BitVec 7) (s : State) : State :=
  let s := sendPkt ch 0x02 r.die r.bank 0 0 127 (r.slot.toNat + 4 * r.shift.toNat) s
  let s := sendPkt ch 0x01 r.die r.bank r.block r.addr tag 0 s
  setCart ch (fun c => { c with outst := c.outst ++ [(tag, r)] }) s

/-- One queued read: issued, its bank suspended first for a host read; a bank in its window or busy for background keeps it
queued. -/
def tryRead (ch : Nat) (s : State) (r : CRead) : State :=
  let stopFor := fun s => match r.purpose with
    | .rd rid _ => suspendAll rid ((ch, r.die, r.bank) :: (stripeOf s ch r.die r.bank r.block).filter (fun p => p != (ch, r.die, r.bank))) s
    | _ => suspendBank ch r.die r.bank s
  let meet := fun s => match r.purpose with
    | .rd rid _ => if r.host ∧ (cartOf s ch).suspended.contains (r.die, r.bank) then holdBank rid (ch, r.die, r.bank) s else s
    | _ => s
  let stay := fun s => setCart ch (fun c => { c with reads := c.reads ++ [r] }) s
  if inWindow s ch r.die r.bank then stay s
  else if isBusy s ch r.die r.bank ∧ !r.host then stay s
  else
    match freeTag (cartOf s ch) with
    | none => stay s
    | some t => issueRead ch r t (if isBusy s ch r.die r.bank then stopFor s else meet s)

/-- An information read sent under a free tag, or kept until one is free. What a raw answer is for: 1 STATUS, 2 TEMP, 3 IDENT, 5 the
RDPAT of R252, 6 an RDPAT of training. -/
def askRaw (ch op die arg what : Nat) (s : State) : State :=
  match freeTag (cartOf s ch) with
  | none => setCart ch (fun c => { c with rawWait := c.rawWait ++ [(op, die, arg, what)] }) s
  | some t => sendPkt ch op die 0 0 0 t arg (setCart ch (fun c => { c with raws := c.raws ++ [(t, what + 16 * die)] }) s)

/-- The information reads that wait for a tag offered again. -/
def pumpRaws (ch : Nat) (s : State) : State :=
  let q := (cartOf s ch).rawWait
  q.foldl (fun s r => askRaw ch r.1 r.2.1 r.2.2.1 r.2.2.2 s) (setCart ch (fun c => { c with rawWait := [] }) s)

/-- The RDOUT that is due: a repeat, or the next frame while MALERT_N is low (R230 to R232). -/
def pumpFrame (ch : Nat) (s : State) : State :=
  match (cartOf s ch).rdout with
  | none => s
  | some again =>
    let s := setCart ch (fun c => { c with rdout := none }) s
    if again ∨ malertLow s ch then sendPkt ch 0x38 0 0 0 0 127 (b2n again) s else s

/-- The next issue decisions of a channel: host reads, then frame retrieval, then background reads (R133, R257). -/
def pumpReads (ch : Nat) (s : State) : State :=
  let q := (cartOf s ch).reads
  let s := (q.filter CRead.host).foldl (tryRead ch) (setCart ch (fun c => { c with reads := [] }) s)
  pumpRaws ch ((q.filter (fun r => !r.host)).foldl (tryRead ch) (pumpFrame ch s))

/-! ## Resumes and windows (R131, R258, R259) -/

/-- Whether a host read of a bank is queued or awaits its frame. -/
def hostReadAt (s : State) (ch die bank : Nat) : Bool :=
  let hit := fun r : CRead => r.host && r.die == die && r.bank == bank
  (cartOf s ch).reads.any hit || (cartOf s ch).outst.any (fun o => hit o.2)

/-- Whether a host read still needs the bank suspended: queued, awaited, or part of a stripe suspend whose read goes on
and has not moved to the span (R131). -/
def heldSuspended (s : State) (ch die bank : Nat) : Bool :=
  hostReadAt s ch die bank || s.media.mreads.any (fun r => r.host && !r.spanWait && r.susp.contains (ch, die, bank))

/-- RESUME sent to every suspended bank that no host read needs. -/
def pumpResume (ch : Nat) (s : State) : State :=
  (cartOf s ch).suspended.foldl (fun s p =>
    if heldSuspended s ch p.1 p.2 ∨ s.tt.current = 0 then s
    else sendPkt ch 0x22 p.1 p.2 0 0 127 0 (setCart ch (fun c =>
      { c with suspended := c.suspended.filter (fun x => x != p) }) s)) s

/-- Whether a Held bank may take its window now (R258, R417, R418). -/
def mayFinish (s : State) (ch : Nat) (p : CProg) : Bool :=
  !hostReadAt s ch p.die p.bank &&
    (if p.bank = 7 then !inWindow s (pairOf s ch) p.die 7
     else
       let g := groupOf s p.die p.bank
       Nat.blt (openWindows s g) (min (sget 0 s.tt.groupW g) (windowsFor (groupM s g))))

/-- PFIN sent for a Held bank that may finish; a dense window is counted (R430). -/
def sendPfin (ch : Nat) (p : CProg) (s : State) : State :=
  let s := setCart ch (fun c => { c with running := c.running.map (fun x =>
    if x.die = p.die ∧ x.bank = p.bank then { x with phase := .finishing } else x) }) s
  let s := if p.bank = 7 then s else { s with tt := { s.tt with windows := satInc s.tt.windows } }
  sendPkt ch 0x13 p.die p.bank 0 0 p.tag 0 s

/-- Every Held bank of the device, the longest Held first (R419). -/
def heldOps (s : State) : List (Nat × CProg) :=
  let all := s.media.carters.flatMap (fun e => (e.2.running.filter (fun p => p.phase == .held)).map (fun p => (e.1, p)))
  all.mergeSort (fun a b => Nat.ble a.2.heldSince.toNat b.2.heldSince.toNat)

/-- Windows granted to the Held banks in order (R419). -/
def pumpPfin (s : State) : State :=
  (heldOps s).foldl (fun s e => if mayFinish s e.1 e.2 then sendPfin e.1 e.2 s else s) s

/-! ## Programs and clears (R237, R257, R423) -/

/-- The packets of a program or clear with its bursts. -/
def sendProg (ch : Nat) (p : CProg) (s : State) : State :=
  if p.clear then
    let s := sendPkt ch 0x20 p.die p.bank p.block 0 p.tag (b2n p.fast) s
    send s (.burst ch 0 (p.bursts.headD 0))
  else if p.fast then
    let s := sendPkt ch 0x12 p.die p.bank p.block p.addr p.tag 0 s
    send s (.burst ch 0 (p.bursts.headD 0))
  else
    let s := sendPkt ch 0x10 p.die p.bank p.block p.addr p.tag 0 s
    (List.range p.bursts.length).foldl (fun s j =>
      send (sendPkt ch 0x11 p.die p.bank 0 0 127 j s) (.burst ch j (p.bursts.getD j 0))) s

/-- One queued program or clear: started when its bank is free of operations and host reads, and the allotment allows a
counted one; its bursts are those of its start. Bus time within the stage is not modelled; an allotment of 0 starts none (R422, R423). -/
def tryProg (ch : Nat) (s : State) (p : CProg) : State :=
  let stay := fun s => setCart ch (fun c => { c with progs := c.progs ++ [p] }) s
  if (opAt s ch p.die p.bank).isSome ∨ hostReadAt s ch p.die p.bank ∨ (p.counted ∧ s.tt.current = 0) then stay s
  else
    match freeTag (cartOf s ch) with
    | none => stay s
    | some t =>
      let (bs, s) := startBursts p s
      let p := { p with tag := t, phase := .busy, bursts := bs }
      sendProg ch p (setCart ch (fun c => { c with running := c.running ++ [p] }) s)

/-- The queued programs and clears of a channel offered for issue. -/
def pumpProgs (ch : Nat) (s : State) : State :=
  let q := (cartOf s ch).progs
  q.foldl (tryProg ch) (setCart ch (fun c => { c with progs := [] }) s)

/-- Whether an engine has work in its state tables (R464, R467). -/
def engineWork (s : State) (e : Nat) : Bool :=
  match e with
  | 0 => !s.mm.batches.isEmpty
  | 1 => s.mm.bands.any (fun b => b.2.cls == .clearing)
  | 2 => !s.mm.gapHeld.isEmpty
  | 3 => !s.mm.due.isEmpty
  | 4 => !s.mm.scrubDue.isEmpty
  | 5 => !s.span.reads.isEmpty
  | 6 => s.queue.queues.any (fun q => q.wr != q.rd)
  | 7 => !s.host.reqs.isEmpty || !s.media.mreads.isEmpty
  | _ => !s.media.mreads.isEmpty || !s.mm.batches.isEmpty

/-- The queues and engines that are Idle and have work wake (R467). -/
def wakeIdle (s : State) : State :=
  let waits := s.unit.units.filter (fun e => e.2.st == .idle &&
    ((uClass e.1 == 9 && (qOf s (uIndex e.1)).wr != (qOf s (uIndex e.1)).rd) || (uClass e.1 == 10 && engineWork s (uIndex e.1))))
  waits.foldl (fun s e => wakeUnit e.1 s) s

/-- Every sequencer's next decisions: reads, resumes, windows, programs (R257); a unit asked for work wakes (R467). -/
def pump (s : State) : State :=
  let s := wakeIdle s
  let chs := s.media.carters.map (fun e => e.1)
  let s := chs.foldl (fun s c => if (cartOf s c).reads.isEmpty && (cartOf s c).progs.isEmpty then s else wakeUnit (uChannel c) s) s
  let s := chs.foldl (fun s c => pumpReads c s) s
  let s := chs.foldl (fun s c => pumpResume c s) s
  let s := pumpPfin s
  chs.foldl (fun s c => pumpProgs c s) s

/-- A read asked of a channel. -/
def askRead (ch : Nat) (r : CRead) (s : State) : State :=
  setCart ch (fun c => { c with reads := c.reads ++ [r] }) s

/-- A program or clear asked of a channel. -/
def askProg (ch : Nat) (p : CProg) (s : State) : State :=
  setCart ch (fun c => { c with progs := c.progs ++ [p] }) s

/-- A program of one line of a fast set's copy at a position (R96). -/
def askFastLine (set copy pos : Nat) (l : MediaLine) (counted : Bool) (pu : PPurpose) (s : State) : State :=
  let f := fastAt s set
  askProg (if copy = 0 then f.chA else f.chB)
    { die := f.die, bank := 7, block := f.block - 43008 + posBlock pos, addr := posLine pos, clear := false, fast := true
      counted := counted, bursts := [l.setWidth 1024], purpose := pu, phase := .busy, tag := 0, heldSince := 0 } s

/-- The channel, die, block and line of a position of a copy of a fast set. -/
def fastPlace (s : State) (set copy pos : Nat) : Nat × Nat × Nat × Nat :=
  let f := fastAt s set
  (if copy = 0 then f.chA else f.chB, f.die, f.block - 43008 + posBlock pos, posLine pos)

/-- The content of a position of a copy. -/
def fastCell (s : State) (set copy pos : Nat) : Cellv :=
  let (ch, die, block, addr) := fastPlace s set copy pos
  lineAt s ch die 7 block addr

/-- Whether a copy of a set has a flag (R97). -/
def copyFlag (s : State) (set copy : Nat) : Bool := if copy = 0 then fsALost (fsEntry s set) else fsBLost (fsEntry s set)

/-- A copy's flag set (R97). -/
def flagCopy (set copy : Nat) (s : State) : State :=
  let e := fsEntry s set
  if copyFlag s set copy then s
  else fsSet set (fsMake (fsGap e) (fsStart e) (fsKey e) (fsWcount e) (fsUse e) (fsALost e || copy == 0) (fsBLost e || copy == 1)) s

/-- A line written at a position of one copy inside another step (records, descriptors). A copy out of service misses it, and its flag is
set: from then on it is older than the other (R97, R279, R338; DEDUCED, log entry 85). -/
def fastStore (set copy pos : Nat) (l : MediaLine) (s : State) : State :=
  let (ch, die, block, addr) := fastPlace s set copy pos
  if copyFlag s set copy then s
  else if placeIs outState s ch die 7 then
    (if fsUse (fsEntry s set) = 0 || isImageSet s set then s else flagCopy set copy s)
  else programLine ch die 7 block addr l s

/-- A line written at a position of both copies, copy A first. -/
def fastStore2 (set pos : Nat) (l : MediaLine) (s : State) : State := fastStore set 1 pos l (fastStore set 0 pos l s)

/-- Whether a copy of a set can be read: its die in service, its flag clear (R103, R338). -/
def copyUp (s : State) (set copy : Nat) : Bool :=
  let (ch, die, _, _) := fastPlace s set copy 0
  !placeOut s ch die 7 && !copyFlag s set copy

/-- Whether a copy is lost: flagged, or on a unit that has left service for good (R103, R326, R338). -/
def copyLost (s : State) (set copy : Nat) : Bool :=
  let (ch, die, _, _) := fastPlace s set copy 0
  copyFlag s set copy || placeIs goneState s ch die 7

/-- The one copy of a set that a write misses flagged (R97, R338; DEDUCED, log entry 85). -/
def flagMissed (set : Nat) (s : State) : State :=
  match copyUp s set 0, copyUp s set 1 with
  | true, false => flagCopy set 1 s
  | false, true => flagCopy set 0 s
  | _, _ => s

/-- Whether the copy's bank is in a window. -/
def copyInWindow (s : State) (set copy : Nat) : Bool :=
  let (ch, die, _, _) := fastPlace s set copy 0
  inWindow s ch die 7

end Sys2Proof.Machine
end

