-- ==== Sys2Proof/Machine/Recover.lean ====
section
/-! DEFINITION. What the media holds, read inside another step: stripes, mirrors and sources (R270, R318, R322, R335, R358),
and the charges for media events (R343, R344). -/

namespace Sys2Proof.Machine

/-! ## Lines as stored -/

/-- A cell decoded by its line code. -/
def decodeCell : Cellv → Option Line66
  | .data v => (bchDecode v).map (fun r => r.1)
  | .undef => none

/-- The line of a member at an offset, none when missing or failing. -/
def memberLine (s : State) (b m x : Nat) : Option Line66 :=
  if memberMissing s b m then none
  else
    let p := memberAt s b m
    decodeCell (lineAt s p.1 p.2 (bandBank b) (bandBlock b) x)

/-- Whether a member's line passes R94: a data slot's metadata matches its map entry; a code line has no test (R318). -/
def memberGood (d : Band) (m : Nat) (l : Line66) : Bool :=
  let r := roleOf d m
  r.1 || metaOf l == slotMeta d r.2

/-- The lines the other members give at an offset, each with its member. -/
def stripeLines (s : State) (b x : Nat) : SMap Line66 :=
  (liveOf (bandOf s b)).filterMap (fun m => match memberLine s b m x with
    | some l => if memberGood (bandOf s b) m l then some (m, l) else none
    | none => none)

/-- The line of one member rebuilt from those of the others (R320 to R322): the line, and the members a located error
corrected. -/
def rebuild (d : Band) (got : SMap Line66) (m : Nat) : Option (Line66 × List Nat) :=
  let known := got.filter (fun e => e.1 != m)
  let erased := m :: (liveOf d).filter (fun x => x != m && (sfind known x).isNone)
  if 4 < erased.length then none
  else
    match rsLines (known.map (fun e => (memberExp d e.1, e.2))) (erased.map (memberExp d)) with
    | some (l :: _, fixed) => some (l, (liveOf d).filter (fun x => fixed.contains (memberExp d x)))
    | _ => none

/-- The payload of a dense slot's line by its home or its stripe. -/
def densePayload (s : State) (b slot x : Nat) : Option Line :=
  let d := bandOf s b
  let h := slotMember d slot
  let good := fun l : Line66 => metaOf l == slotMeta d slot
  match (memberLine s b h x).filter good with
  | some l => some (payloadOf l)
  | none => ((rebuild d (stripeLines s b x) h).map (fun r => r.1)).bind (fun l =>
      if good l then some (payloadOf l) else none)

/-- Version v1 is newer than v2 (R334). -/
def newer (a b : BitVec 16) : Bool := let d := (a - b).toNat; Nat.ble 1 d && Nat.ble d 32767

/-- A fast or patch line by its two copies: a patch line passes only with its sequence (R318); the newer of two versions,
equal contents, or the one copy that reads; none when neither reads or R335 trusts neither. -/
def fastPayload (s : State) (set pos : Nat) (seq : Option (BitVec 16)) : Option (Line × BitVec 16) :=
  let copy := fun c =>
    if !copyUp s set c then none
    else (decodeCell (fastCell s set c pos)).bind (fun l => match seq with
      | some q => if metaOf l = q then some l else none
      | none => some l)
  match copy 0, copy 1 with
  | some a, some b =>
    if a = b then some (payloadOf a, metaOf a)
    else if seq.isNone ∧ newer (metaOf a) (metaOf b) then some (payloadOf a, metaOf a)
    else if seq.isNone ∧ newer (metaOf b) (metaOf a) then some (payloadOf b, metaOf b)
    else none
  | some a, none => some (payloadOf a, metaOf a)
  | none, some b => some (payloadOf b, metaOf b)
  | none, none => none

/-- The payload of a resolved place, as ciphertext of the line; a zero line is the LD's ciphertext of zeros. -/
def placePayload (s : State) (lln : Nat) (seq : BitVec 16) : Where → Option Line
  | .zeros => some (encLine s lln 0)
  | .fast f p => (fastPayload s f p none).map (fun r => r.1)
  | .patch f p => (fastPayload s f p (some seq)).map (fun r => r.1)
  | .dense b sl x => densePayload s b sl x
  | .unbacked => none
  | .span => none
  | .poison => none

/-- The base of a frame at a line: its entry resolved with no patch (R270, R358). -/
def baseLine (s : State) (lln : Nat) (e : BitVec 32) : Option Line :=
  placePayload s lln 0 (resolveEntry s lln e none)

/-- The committed line below the caches: newest patch, else base. -/
def mediaValue (s : State) (lln : Nat) : Option Line :=
  let p := (piLookup s lln).1
  let seq := match p with | some q => q.seq.extractLsb' 0 16 | none => 0
  placePayload s lln seq (resolveEntry s lln (ftEntry s (lfnOf lln)) p)

/-! ## Charges (R343, R344) -/

/-- The first-decode failures of a die in the last 24 h of FTIME (R344, R345). -/
def dieFails24 (s : State) (die : Nat) : Nat :=
  (sget [] s.lp.dieFailAt die).countP (fun t => Nat.blt (s.time.ftime.toNat - t.toNat) (86400 * 1000000000))

/-- A first-decode failure of a die noted with its time; older ones than 24 h are forgotten (R344). -/
def dieFailed (die : Nat) (s : State) : State :=
  let now := s.time.ftime
  { s with lp := { s.lp with
    dieFail := smod 0 s.lp.dieFail die satInc
    dieFailAt := smod [] s.lp.dieFailAt die (fun l =>
      l.filter (fun t => Nat.blt (now.toNat - t.toNat) (86400 * 1000000000)) ++ [now]) } }

/-- A die's counts: `what` 0 weak, 1 first-decode failure; the failure limit of R344 makes it Degraded with a Warning. -/
def dieCount (what die : Nat) (s : State) : State :=
  if what = 0 then { s with lp := { s.lp with dieWeak := smod 0 s.lp.dieWeak die satInc } }
  else
    let s := dieFailed die s
    if s.lp.dieFailLimit.toNat < dieFails24 s die ∧ ownState s (uDie die) = .ready then
      setUnit (uDie die) .degraded 5 false s
    else s

/-- A correctable media event charged to a die (R343, class 0). -/
def charge (die : Nat) (s : State) : State := ceError 0 die s

/-! ## Due frames (R264) -/

/-- A frame made due at a priority, once; a higher priority replaces a lower one, which log pressure gives back when it ends. A frame due
by its count of patches is ordered by the present count. -/
def makeDue (lfn prio key : Nat) (direct : Bool) (s : State) : State :=
  let put := fun (was wasKey : Nat) =>
    let d : Due := { lfn := lfn, prio := prio, since := s.time.ftime, key := key, direct := direct, was := was, wasKey := wasKey }
    let s := { s with mm := { s.mm with due := s.mm.due.filter (fun x => x.lfn != lfn) ++ [d] } }
    if prio = 5 then { s with mm := { s.mm with refresh := satInc s.mm.refresh } } else s
  match s.mm.due.find? (fun d => d.lfn == lfn) with
  | some d =>
    if d.prio < prio then s
    else if d.prio = prio then
      if prio = 2 ∨ prio = 3 then
        { s with mm := { s.mm with due := s.mm.due.map (fun x => if x.lfn = lfn then { x with key := key } else x) } }
      else s
    else put d.prio d.key
  | none => put 0 0

/-- Every live frame of a band due at priority 5 (R309, R323, R328). -/
def refreshBand (b : Nat) (s : State) : State := (framesOf s b).foldl (fun s l => makeDue l 5 0 false s) s

/-- An offset of a block counted toward the marks of R324: 64 distinct ones in one scrub period mark it bad, by cause 3 for first-decode
failures and 4 for corrections (R324, R672). -/
def countBlock (blk what x : Nat) (s : State) : State :=
  { s with lp := { s.lp with blockFails := smod [] s.lp.blockFails (2 * blk + what) (fun l =>
    if l.contains x || Nat.ble 64 l.length then l else l ++ [x]) } }

end Sys2Proof.Machine
end

