-- ==== Sys2Proof/Machine/Stream.lean ====
section
/-! DEFINITION. Peer messages sent and the patch record streams to the outriders (R360 to R364, R395, R396, R398). -/

namespace Sys2Proof.Machine

/-! ## Members -/

/-- Members of the span, k + m; 0 without one. -/
def spanN (s : State) : Nat := match s.span.desc with | some d => (d.k + d.m).toNat | none => 0

/-- SPAN_STATE.NOSYNC: a span member whose FTIME is in local free-run does no span-heavy work (R399). -/
def noSync (s : State) : Bool := s.span.desc.isSome && s.time.mode == .freeRun

/-- The device's member index. -/
def ownIndex (s : State) : Nat := s.span.own.toNat

/-- The peer at a member index. -/
def peerOf (s : State) (r : Nat) : Peer := s.span.peers.getD r {}
def setPeer (r : Nat) (f : Peer → Peer) (s : State) : State :=
  { s with span := { s.span with peers := lmod s.span.peers r f } }

/-- Codes of SPAN_PEER.STATE (R400). -/
def psJoining : Nat := 1
def psLive : Nat := 2
def psLost : Nat := 3
def psUnhitched : Nat := 4
def psRemount : Nat := 5

/-- Whether a member takes part: Live or a remount, the device itself included. -/
def memberUp (s : State) (r : Nat) : Bool :=
  (peerOf s r).st.toNat == psLive || (peerOf s r).st.toNat == psRemount

/-- The other members of the span. -/
def otherMembers (s : State) : List Nat := (List.range (spanN s)).filter (fun r => r != ownIndex s)

/-- The pool index of a member. -/
def memberPool (s : State) (r : Nat) : Nat :=
  match s.span.desc with | some d => (d.members.getD r 0xFFFF).toNat % 512 | none => 0

/-- Whether span-heavy work with some members may run in the present stage: this device and all of them are in its heavy
mask (R372, R399, R427). -/
def heavyNow (s : State) (ms : List Nat) : Bool :=
  !noSync s && s.tt.heavy.getLsbD (ownIndex s) && ms.all (fun m => s.tt.heavy.getLsbD m)

/-- The bytes of one frame's delta. -/
def deltaBytes : Nat := 4194304

/-- Whether one more frame's DELTA_CHUNK DATA to a receiver stays within its share of TT_HEAVY.INBOUND in this 16 ms cycle (R427). -/
def dataRoom (s : State) (r : Nat) : Bool :=
  Nat.ble ((sget 0 s.span.dataSent r + deltaBytes) * (spanN s - 1)) (16000000 * s.tt.inbound.toNat)

/-- Whether the answers to BULK requests, some bytes more, stay within TT_HEAVY.INBOUND in this 16 ms cycle (R427). -/
def bulkRoom (s : State) (n : Nat) : Bool := Nat.ble (s.span.bulkSent + n) (16000000 * s.tt.inbound.toNat)

/-! ## Messages as bytes (R361, R362, R396, R397) -/

/-- The next RNUM: values whose low 24 bits are all ones are skipped (R361). -/
def nextRnum (r : BitVec 48) : BitVec 48 := nextCtr r

/-- The 80 bytes of a record. -/
def recordBytes (r : Record) : List Byte :=
  bytesOf 5 r.lln.toNat ++ [r.kind, 0, 0] ++ bytesOf 8 r.mask.toNat ++ bytesOf 64 r.data.toNat

/-- An unused record of a batch. -/
def noRecord : List Byte := padTo 80 [0, 0, 0, 0, 0, 0xFF]

/-- Bytes 0 to 31 of a message (R396). -/
def headerBytes (ty span : Nat) (ring : Bool) (src dst : Nat) (mseq ackto : BitVec 48) (ft : BitVec 64) (len : Nat) :
    List Byte :=
  [BitVec.ofNat 8 ty, 1, BitVec.ofNat 8 span, BitVec.ofNat 8 (b2n ring)] ++ bytesOf 2 src ++ bytesOf 2 dst ++
    bytesOf 6 mseq.toNat ++ bytesOf 6 ackto.toNat ++ bytesOf 8 ft.toNat ++ bytesOf 4 len

/-- The CHAIN of a batch: CRC-32C of the previous CHAIN and of bytes 0 to 4,091 (R362). -/
def batchChain (hdr : List Byte) (b : Batch) (prev : BitVec 32) : BitVec 32 :=
  let recs := b.records.flatMap recordBytes ++ (List.replicate (50 - b.records.length) noRecord).flatten
  let body := hdr ++ bytesOf 6 b.firstRnum.toNat ++ [BitVec.ofNat 8 b.records.length, b.bflags] ++ bytesOf 6 b.bseq.toNat ++
    [0, 0] ++ bytesOf 8 b.ftime0.toNat ++ bytesOf 8 0 ++ recs ++ List.replicate 28 0
  BitVec.ofNat 32 (crc32c ((bytesOf 4 prev.toNat ++ body).map BitVec.toNat))

/-- The 16 bytes of a map entry (R389). -/
def mapEntBytes (m : MapEntry) : List Byte :=
  bytesOf 2 m.index.toNat ++ [BitVec.ofNat 8 (m.ld.toNat + 128 * b2n m.valid), BitVec.ofNat 8 m.mode.toNat] ++ bytesOf 3 m.frame.toNat ++
    bytesOf 3 m.length.toNat ++ bytesOf 3 m.lfn.toNat ++ [0, 0, 0]

/-- TYPE of a message (R397). -/
def msgType : PeerMsg → Nat
  | .patchBatch _ => 1
  | .patchRelease .. => 2
  | .deltaChunk .. | .deltaData .. => 3
  | .deltaAck .. => 4
  | .reconRead .. => 5
  | .reconData .. => 6
  | .heartbeat .. => 7
  | .timetable .. => 8
  | .unhitch .. => 9

/-- The body of a message after its header, its CRC apart, in the order R397 lists its fields. TIMETABLE is laid out by R428. Where R397
gives a field no width, the width here is the model's, and a body is filled up to a multiple of 8 bytes (DESIGN CHOICE, log entry 103). -/
def msgBody (m : PeerMsg) : List Byte :=
  let body := match m with
    | .patchBatch _ => []
    | .patchRelease rsnap llns => bytesOf 6 rsnap.toNat ++ bytesOf 2 llns.length ++ llns.flatMap (bytesOf 5)
    | .deltaChunk op lfn t seq => bytesOf 3 lfn ++ bytesOf 1 t ++ bytesOf 6 seq.toNat ++ bytesOf 1 op ++ [0]
    | .deltaData lfn t seq chunk pay => padTo 16 (bytesOf 3 lfn ++ bytesOf 1 t ++ bytesOf 6 seq.toNat ++ [1] ++ bytesOf 1 chunk) ++
        pay.flatMap (fun l => bytesOf 64 l.toNat)
    | .deltaAck code lfn seq bseq live => bytesOf 1 code ++ bytesOf 3 lfn ++ bytesOf 6 seq.toNat ++ bytesOf 6 bseq.toNat ++ bytesOf 4 live
    | .reconRead kind tag addr first count ward => bytesOf 4 tag.toNat ++ bytesOf 1 kind ++ bytesOf 5 addr ++ bytesOf 2 first ++ bytesOf 2 count ++
        bytesOf 2 ward
    | .reconData tag part parts st b => padTo 24 (bytesOf 4 tag.toNat ++ bytesOf 1 part ++ bytesOf 1 parts ++ bytesOf 1 st.toNat ++
        bytesOf 6 b.oldSeq.toNat ++ bytesOf 6 b.newSeq.toNat ++ bytesOf 1 ((b.admitted.map Fin.val).getD 0xFF) ++
        bytesOf 1 (b2n b.includesNew + 2 * b2n b.holder)) ++ (b.lines ++ b.newLines).flatMap (fun l => bytesOf 64 l.toNat) ++
        (match b.record with | some r => recordBytes r | none => []) ++ b.maps.flatMap mapEntBytes ++ b.key
    | .heartbeat st lock bound live adm act => [BitVec.ofNat 8 st.toNat, BitVec.ofNat 8 (lock.toNat + 4 * b2n act)] ++ bytesOf 4 bound.toNat ++
        bytesOf 4 live ++ bytesOf 2 adm.length ++ adm.flatMap (bytesOf 3)
    | .timetable cycle sgen entries => bytesOf 8 cycle ++ bytesOf 6 sgen.toNat ++ [0, 0] ++ entries.flatMap (fun e => bytesOf 4 e.toNat)
    | .unhitch cause rnums => [cause] ++ rnums.flatMap (fun r => bytesOf 6 r.toNat)
  padTo ((body.length + 7) / 8 * 8) body

/-- LEN of a message: its bytes after the header, its CRC or CHAIN among them (R396). -/
def msgLen (m : PeerMsg) : Nat :=
  match m with
  | .patchBatch _ => 4064
  | m => (msgBody m).length + 4

/-- The CRC-32C that ends a message with a header (R397). -/
def msgCrc (h : MsgHdr) (m : PeerMsg) : BitVec 32 :=
  let hdr := headerBytes (msgType m) h.span.toNat h.ring h.src.toNat h.dst.toNat h.mseq h.ackto h.ftime h.len.toNat
  BitVec.ofNat 32 (crc32c ((hdr ++ msgBody m).map BitVec.toNat))

/-! ## Sending (R362, R395, R396, R398) -/

/-- Whether a message uses the data ring (R395). -/
def dataRing : PeerMsg → Bool
  | .deltaData .. => true
  | .reconData _ _ _ _ b => Nat.blt 61 (b.lines.length + b.newLines.length)
  | _ => false

/-- The index of the stream to a member. -/
def streamTo (s : State) (r : Nat) : Option Nat := s.span.outr.findIdx? (fun x => x == r)

def setStream (i : Nat) (f : Stream → Stream) (s : State) : State :=
  { s with span := { s.span with streams := lmod s.span.streams i f } }

/-- A batch as it is sent: its CHAIN over the header it goes out with and the CHAIN of the batch before it (R362). Injection point 0x0012
inverts the CHAIN sent. -/
def sealBatch (r : Nat) (hdr : List Byte) (b : Batch) (s : State) : Batch × State :=
  match (streamTo s r).bind (fun i => (s.span.streams[i]?).map (fun st => (i, st))) with
  | none => (b, s)
  | some (i, st) =>
    let prev := match st.sent.find? (fun y => y.bseq == b.bseq - 1) with
      | some y => y.chain
      | none => st.ackChain
    let c := batchChain hdr b prev
    let s := setStream i (fun st => { st with
      sent := st.sent.map (fun y => if y.bseq = b.bseq then { y with chain := c } else y)
      chain := if st.bseq = b.bseq then c else st.chain }) s
    let u := 0xD00000 + memberPool s r
    if isArmed s 0x0012 u then ({ b with chain := ~~~ c }, fire 0x0012 u s) else ({ b with chain := c }, s)

/-- The header of the next message to a member on a ring: the next MSEQ, ACKTO, FTIME (R396). -/
def nextHdr (s : State) (r : Nat) (ring : Bool) (m : PeerMsg) : MsgHdr :=
  let p := peerOf s r
  { pbr := 0, span := match s.span.desc with | some d => d.span | none => 0
    ring := ring, src := s.span.selfIdx.getD 0, dst := BitVec.ofNat 9 (memberPool s r)
    mseq := (if ring then p.sentData else p.sentCtl) + 1, ackto := if ring then p.gotData else p.gotCtl, ftime := s.time.ftime
    len := BitVec.ofNat 32 (msgLen m), crc := 0 }

/-- One message written to a member's slot with its CRC, or its CHAIN. -/
def peerWrite (r : Nat) (ring : Bool) (m : PeerMsg) (s : State) : State :=
  let h := nextHdr s r ring m
  let s := setPeer r (fun p => if ring then { p with sentData := h.mseq } else { p with sentCtl := h.mseq }) s
  match m with
  | .patchBatch b =>
    let (b, s) := sealBatch r (headerBytes 1 h.span.toNat ring h.src.toNat h.dst.toNat h.mseq h.ackto h.ftime h.len.toNat) b s
    send s (.peer r ring h.mseq h.ackto h.ftime (.patchBatch b) none)
  | m => send s (.peer r ring h.mseq h.ackto h.ftime m (some (msgCrc h m)))

/-- Whether the ring has a consumed entry to write (R398). -/
def ringRoom (p : Peer) (ring : Bool) : Bool :=
  if ring then Nat.blt (p.sentData - p.ackData).toNat 24 else Nat.blt (p.sentCtl - p.ackCtl).toNat 256

/-- A message sent, or held until the receiver's ACKTO shows its entry consumed. -/
def peerSend (r : Nat) (m : PeerMsg) (s : State) : State :=
  let ring := dataRing m
  if ringRoom (peerOf s r) ring ∧ !((peerOf s r).held.any (fun h => h.1 == ring)) then peerWrite r ring m s
  else setPeer r (fun p => { p with held := p.held ++ [(ring, m)] }) s

/-- The held messages of a member that now have room, in order. -/
def peerFlush (r : Nat) (s : State) : State :=
  (peerOf s r).held.foldl (fun s h => peerSend r h.2 s) (setPeer r (fun p => { p with held := [] }) s)

/-! ## Records and batches (R361, R363) -/

/-- Closes the open batch of stream i and sends it (R363): BFLAGS[0] a Strict record, [1] the tail timer, [2] reseed. -/
def closeBatch (i : Nat) (strict tail : Bool) (s : State) : State :=
  match s.span.streams[i]?, s.span.outr[i]? with
  | some st, some r =>
    match st.opened with
    | [] => s
    | (first, _) :: _ =>
      let b : Batch := { firstRnum := first, bflags := BitVec.ofNat 8 (b2n strict + 2 * b2n tail + 4 * b2n st.reseed)
                         bseq := st.bseq + 1, ftime0 := st.openFt, records := st.opened.map (fun e => e.2), chain := 0 }
      let s := setStream i (fun st => { st with
        bseq := st.bseq + 1, opened := [], sent := st.sent ++ [b], sentSince := st.sentSince + b.records.length }) s
      peerSend r (.patchBatch b) { s with span := { s.span with cRecords := satAdd s.span.cRecords b.records.length } }
  | _, _ => s

/-- A stream with nothing sent. -/
def newStream : Stream := ⟨0, 0, 0, [], 0, [], 0, 0, false, 0⟩

/-- A record entered on stream i: it takes the next RNUM; a Strict record and the fiftieth close the batch (R361, R363). -/
def streamAdd (i : Nat) (rec_ : Record) (strict : Bool) (s : State) : State :=
  match s.span.streams[i]? with
  | none => s
  | some st =>
    let n := nextRnum st.rnum
    let s := { s with span := { s.span with streams := lmod s.span.streams i (fun st => { st with
      rnum := n, opened := st.opened ++ [(n, rec_)], openFt := if st.opened = [] then s.time.ftime else st.openFt }) } }
    if strict ∨ 50 ≤ st.opened.length + 1 then closeBatch i strict false s else s

/-- A record entered on every stream (R162): the RNUM it took on each. -/
def streamAll (rec_ : Record) (strict : Bool) (s : State) : List (Nat × BitVec 48) × State :=
  (List.range s.span.streams.length).foldl (fun a i =>
    let s := streamAdd i rec_ strict a.2
    (a.1 ++ [(i, ((s.span.streams.getD i newStream).rnum))], s)) ([], s)

/-- The record of a write to a line: full or with its byte enables (R162, R361). -/
def writeRecord (lln : Nat) (data : Line) (mask : BitVec 64) : Record :=
  { lln := BitVec.ofNat 40 lln, kind := if mask = BitVec.allOnes 64 then 0 else 1, mask := mask, data := data }

/-- Records sent and not acknowledged on stream i. -/
def unacked (st : Stream) : List (BitVec 48) :=
  st.opened.map (fun e => e.1) ++ st.sent.flatMap (fun b =>
    (List.range b.records.length).map (fun k => times k nextRnum b.firstRnum))

/-- Whether a record of a stream is still unacknowledged. -/
def isUnacked (s : State) (i : Nat) (rnum : BitVec 48) : Bool :=
  match s.span.streams[i]? with
  | some st => (unacked st).contains rnum
  | none => false

end Sys2Proof.Machine
end

