-- ==== Sys2Proof/Machine/SpanAsk.lean ====
section
/-! DEFINITION. Stripes across the span and the recovery of lines through it (R356 to R358, R379, R381, R391, R398). -/

namespace Sys2Proof.Machine

/-! ## Stripes (R356) -/

/-- The parity members m and the data members k of the span. -/
def spanK (s : State) : Nat := match s.span.desc with | some d => d.k.toNat | none => 0
def spanM (s : State) : Nat := match s.span.desc with | some d => d.m.toNat | none => 0

/-- The member at data position t of stripe j. -/
def dataMember (s : State) (j t : Nat) : Nat := (j % spanN s + spanM s + t) % spanN s

/-- The member at parity position i of stripe j. -/
def parityMember (s : State) (j i : Nat) : Nat := (j % spanN s + i) % spanN s

/-- The place of member r in stripe j: true and its parity position, or false and its data position. -/
def stripeRole (s : State) (j r : Nat) : Bool × Nat :=
  let n := spanN s
  let d := (r + n - j % n) % n
  if d < spanM s then (true, d) else (false, d - spanM s)

/-- Whether an LFN is a parity LFN of this member. -/
def parityLfn (s : State) (lfn : Nat) : Bool := s.span.desc.isSome && (stripeRole s lfn (ownIndex s)).1

/-- The live holders of a stripe, by parity position; the first is the admitting holder (R372). -/
def liveHolders (s : State) (j : Nat) : List Nat :=
  ((List.range (spanM s)).map (parityMember s j)).filter (fun r => memberUp s r && r != ownIndex s)

/-- The pool index under which the outriders keep this device's records: the lost member's while a remount serves it. -/
def wardIndex (s : State) : Nat := s.span.lost.getD (s.span.selfIdx.getD 0).toNat

/-! ## Unhitch (R385) -/

/-- Notices to the fabric manager: 0 this device unhitched, 1 a peer lost, 2 the peer's UNHITCH received. -/
def fmUnhitched : Nat := 0
def fmPeerLost : Nat := 1
def fmPeerUnhitched : Nat := 2

/-- The device unhitches: no credits, no answers, UNHITCH to every member with the last RNUM of each stream, a notice to the
fabric manager, no CXL.mem decoding. -/
def unhitch (cause : Nat) (s : State) : State :=
  if s.span.desc.isNone ∨ s.host.unhitched then s
  else
    let rn := s.span.streams.map (fun st => st.rnum)
    let s := (otherMembers s).foldl (fun s r => peerSend r (.unhitch (BitVec.ofNat 8 cause) rn) s) s
    let s := setPeer (ownIndex s) (fun p => { p with st := BitVec.ofNat 3 psUnhitched }) s
    let s := { s with
      host := { s.host with unhitched := true, reqs := [], lds := s.host.lds.map (fun d => { d with credits := 0 }) }
      media := { s.media with mreads := [] }, span := { s.span with reads := [] } }
    setEvt evSpan (event { code := 0x0302, p0 := cause } (send s (.fmNotice fmUnhitched cause)))

/-! ## Asking (R379, R398) -/

/-- The members a recovery may ask for a base: those that are up, and for a rebuild those that still join too. -/
def baseMembers (s : State) (rebuild : Bool) : List Nat :=
  (otherMembers s).filter (fun m => memberUp s m || (rebuild && (peerOf s m).st.toNat == psJoining))

/-- RECON_READ BULK of a rebuild sent to each member that has not had it yet, where both ends are in the stage's heavy mask and the answers
of the cycle stay within TT_HEAVY.INBOUND (R399, R427). -/
def bulkAsk (tag : BitVec 32) (s : State) : State :=
  (baseMembers s true).foldl (fun s m =>
    match s.span.reads.find? (fun q => q.tag == tag) with
    | none => s
    | some q =>
      if q.asked.contains m || !heavyNow s [m] || !bulkRoom s (64 * q.count) then s
      else peerSend m (.reconRead 3 tag (lfnOf q.lln) (lineOf q.lln) q.count 0) { s with span := { s.span with
        bulkSent := s.span.bulkSent + 64 * q.count
        reads := s.span.reads.map (fun x => if x.tag = tag then { x with asked := x.asked ++ [m] } else x) } }) s

/-- A recovery started; its records are asked under the tag after its own. RECON_READ BASE to every other live member, twice when no more
than k are live, a rebuild's BULK as the stages allow; RECON_READ RECORD to every outrider, twice when there is one. -/
def spanStart (rid : Option Nat) (lln count : Nat) (base record must : Bool) (localBase : Option Line) (s : State) : State :=
  let tag := s.span.nextTag
  let asked := if base ∧ count = 1 then baseMembers s rid.isNone else []
  let askedRec := if record then s.span.outr.filter (memberUp s) else []
  let r : SpanRead := { tag := tag, rid := rid, lln := lln, count := count, wantBase := base, wantRecord := record, must := must
                        asked := asked, askedRec := askedRec, answers := [], records := [], localBase := localBase, parts := [] }
  let s := { s with span := { s.span with
    nextTag := tag + 2, reads := s.span.reads ++ [r], cReconOut := satInc s.span.cReconOut } }
  let times_ := fun (n : Nat) (m : Nat) (msg : PeerMsg) (s : State) => times n (peerSend m msg) s
  let s := asked.foldl (fun s m => times_ (if asked.length ≤ spanK s then 2 else 1) m
    (.reconRead 0 tag (lfnOf lln) (lineOf lln) count 0) s) s
  let s := if base ∧ count ≠ 1 then bulkAsk tag s else s
  askedRec.foldl (fun s m => times_ (if askedRec.length = 1 then 2 else 1) m
    (.reconRead 1 (tag + 1) lln 0 1 (wardIndex s)) s) s

/-! ## Combining the answers (R357, R381) -/

/-- A member's usable answer. -/
def answerOf (r : SpanRead) (m : Nat) : Option ReconBody := (r.answers.find? (fun a => a.1 == m)).bind (fun a => a.2)

/-- A holder's line brought to the admitted member's old base; unusable when that member has not answered. -/
def holderLine (s : State) (r : SpanRead) (j i : Nat) (b : ReconBody) (x : Nat) : Option Line :=
  match b.lines[x]? with
  | none => none
  | some l =>
    match b.includesNew, b.admitted with
    | true, some a =>
      (answerOf r a.val).bind (fun d => match d.lines[x]?, d.newLines[x]? with
        | some o, some n => some (l ^^^ scaleLine (cauchy i (stripeRole s j a.val).2) (o ^^^ n))
        | _, _ => none)
    | _, _ => some l

/-- The base lines of every data position of the stripe at line `x` of the recovery, from the answers; none while they do not
determine them. -/
def solveBases (s : State) (r : SpanRead) (x : Nat) : Option (List Line) :=
  let j := lfnOf r.lln
  let k := spanK s
  let have_ := (List.range k).filterMap (fun t =>
    (answerOf r (dataMember s j t)).bind (fun b => (b.lines[x]?).map (fun l => (t, l))))
  let pars := (List.range (spanM s)).filterMap (fun i =>
    (answerOf r (parityMember s j i)).bind (fun b => (holderLine s r j i b x).map (fun l => (i, l))))
  let want := (List.range k).filter (fun t => !(have_.any (fun h => h.1 == t)))
  (spanSolve have_ pars want).bind (fun got =>
    let all := have_ ++ got
    let ls := (List.range k).filterMap (fun t => (all.find? (fun h => h.1 == t)).map (fun h => h.2))
    if ls.length = k then some ls else none)

/-- The base line of this member at line `x` of a recovery. -/
def solveOwn (s : State) (r : SpanRead) (x : Nat) : Option Line :=
  let role := stripeRole s (lfnOf r.lln) (ownIndex s)
  (solveBases s r x).bind (fun ls => if role.1 then some (parityLine role.2 ls) else ls[role.2]?)

/-- Whether every member asked for the base has answered. -/
def baseAnswered (r : SpanRead) : Bool := r.asked.all (fun m => r.answers.any (fun a => a.1 == m))

/-- What a recovery of one line has come to: a value, no source, or not yet. -/
inductive SpanResult where
  | value (v : Line)
  | noSource
  | wait
  deriving DecidableEq, Repr

/-- The merged record found, its absence at every outrider, or not yet known. -/
def recordState (r : SpanRead) : Option (Option FRecord) :=
  match (r.records.filterMap (fun a => a.2)).head? with
  | some f => some (some f)
  | none => if !r.wantRecord ∨ r.askedRec.all (fun m => r.records.any (fun a => a.1 == m)) then some none else none

/-- The result of a recovery of one line (R379, R391): the record laid over the base; a record that must exist and does not
leaves no source. -/
def spanResult (s : State) (r : SpanRead) : SpanResult :=
  match recordState r with
  | none => .wait
  | some rec_ =>
    let whole := match rec_ with | some f => f.mask == BitVec.allOnes 64 | none => false
    if whole then .value ((rec_.map (fun f => f.data)).getD 0)
    else if r.must ∧ rec_ = none then .noSource
    else
      let base := if r.wantBase then solveOwn s r 0 else r.localBase
      match base, rec_ with
      | some b, some f => .value (if b = poisonLine then poisonLine else mergeBytes b f.data f.mask)
      | some b, none => .value b
      | none, _ => if r.wantBase ∧ !baseAnswered r then .wait else .noSource

/-- A read of the back end that only the span serves, for a Partial dirty line whose old value no local source gives, or a
dirty line lost from the caches (R158, R195, R379). -/
def mergeRead (lln : Nat) (base must : Bool) (localBase : Option Line) (s : State) : State :=
  if s.media.mreads.any (fun r => r.lln == lln && r.merge) then s
  else
    let rid := s.host.nextReq
    let r : MRead := { rid := rid, lln := lln, host := true, merge := true, loc := .dense 0 0 0, subs := [], got := [], firstFail := []
                       windows := [], missing := [], around := false, limit := 0, spanWait := true, spanFailed := false, susp := []
                       bound := 2, retried := false, noFill := false }
    spanStart (some rid) lln 1 base true must localBase { s with
      host := { s.host with nextReq := rid + 1 }, media := { s.media with mreads := s.media.mreads ++ [r] } }

/-- The dirty lines whose copies were lost recovered through the outriders (R210, R212, R379). -/
def recoverLost (s : State) : State :=
  s.cache.lost.foldl (fun s l =>
    let lb := mediaValue s l
    mergeRead l lb.isNone true lb s) s

/-- Every line of a frame poisoned in the dirty region, no other copy of it left in the caches. -/
def poisonFrame (lfn : Nat) (s : State) : State :=
  (List.range 65536).foldl (fun s l =>
    let lln := 65536 * lfn + l
    drPlace lln (BitVec.allOnes 64) poisonLine s.time.ftime
      (poisonAdd lln .internal { s with lp := { s.lp with poison := satInc s.lp.poison } })) (dropFrame lfn s)

/-- Frames with a dirty slot whose tag and tag copy both failed (R212): a span member unhitches; a device without span protection poisons
every line of each such frame, with one Critical record of poison by the cache (R508). -/
def tagsLost (s : State) : State :=
  let fs := s.cache.tagLost
  let s := { s with cache := { s.cache with tagLost := [] } }
  if fs = [] then s
  else if s.span.desc.isSome then unhitch 2 s
  else fs.foldl (fun s f => poisonFrame f (event { code := 0x0201, p0 := 65536 * f, p1 := (ownerOf s f).getD 0, p2 := 1 } s)) s

end Sys2Proof.Machine
end

