-- ==== Sys2Proof/Machine/PatchLog.lean ====
section
/-! DEFINITION. Fast sets and their descriptors, the segments of the patch log and of the checkpoint log, commits of the Frame Table with
their records, and lines becoming clean (R79 to R82, R97, R98, R104 to R111, R203, R277 to R281, R290 to R293, R339 to R341). -/

namespace Sys2Proof.Machine

/-! ## Fast sets and their descriptors (R97, R98, R290, R292, R293) -/

/-- A descriptor never written. -/
def noDesc : FastDesc := ⟨0, 0, 0, 0, 0⟩

/-- The 64 bytes of a fast descriptor (R292). -/
def descBytes (s : State) (f copy : Nat) : List Byte :=
  let e := fsEntry s f
  let d := sget noDesc s.xlat.fdesc f
  let body := bytesOf 4 0xBD6400F5 ++ bytesOf 4 f ++ [BitVec.ofNat 8 copy, BitVec.ofNat 8 (fsUse e)] ++ bytesOf 2 (fsKey e) ++
    bytesOf 4 d.owner.toNat ++ bytesOf 4 d.gen.toNat ++ bytesOf 2 (fsStart e) ++ bytesOf 4 (fsGap e) ++
    bytesOf 6 d.wear.toNat ++ bytesOf 8 d.allocCseq.toNat ++ bytesOf 8 d.pstamp.toNat ++ List.replicate 12 0
  body ++ bytesOf 4 (crc32c (body.map BitVec.toNat))

/-- The descriptor of a set put into a line of block k of its copy (R292). -/
def descPut (f copy k x : Nat) (s : State) : State :=
  if !copyUp s f copy then s
  else
    let (ch, die, block, _) := fastPlace s f copy 0
    programLine ch die 7 (block + k) x (mediaLine (BitVec.ofNat 512 (natOf (descBytes s f copy))) 0x4844) s

/-- Line programs counted for a set (R292). -/
def wearBy (f n : Nat) (s : State) : State :=
  { s with xlat := { s.xlat with fdesc := smod noDesc s.xlat.fdesc f (fun d => { d with wear := d.wear + BitVec.ofNat 48 n }) } }

/-- The descriptor written at the next GEN into slot GEN mod 2 of block 0 of copy A, then of copy B (R292, R293). -/
def descWrite (f : Nat) (s : State) : State :=
  let s := wearBy f 2 { s with xlat := { s.xlat with fdesc := smod noDesc s.xlat.fdesc f (fun d => { d with gen := d.gen + 1 }) } }
  let g := (sget noDesc s.xlat.fdesc f).gen.toNat
  descPut f 1 0 (g % 2) (descPut f 0 0 (g % 2) s)

/-- The descriptor as it is at allocation put into lines 0 and 1 of blocks 1 and 2 of both copies (R292). -/
def descAllocated (f : Nat) (s : State) : State :=
  [(0, 1), (0, 2), (1, 1), (1, 2)].foldl (fun s (p : Nat × Nat) => descPut f p.1 p.2 1 (descPut f p.1 p.2 0 s)) (wearBy f 8 s)

/-- A block of a fast set Cleared into fast mode inside a step, its reference lines 2 to 19 written raw (R290, R292, R305). -/
def clearFast (f ch die block : Nat) (s : State) : State :=
  let blk := blockKey ch die 7 block
  let s := setStamp blk (fun t => { stamp := BitVec.ofNat 64 (f + 2 ^ 20 + s.mm.cseq.toNat % 2 ^ 40 * 2 ^ 24)
                                    ccount := satInc t.ccount, valid := true, fast := true }) (dropBlock blk s)
  (List.range 18).foldl (fun s i => programLine ch die 7 block (2 + i) (driftLine (2 + i)) s) (wearBy f 18 s)

/-- The blocks of a fast set, copy by copy: channel, die, block. -/
def setBlocks (s : State) (f : Nat) : List (Nat × Nat × Nat) :=
  let a := fastAt s f
  [a.chA, a.chB].flatMap (fun ch => (List.range 3).map (fun k => (ch, a.die, a.block - 43008 + k)))

/-- A fast set's blocks whose stamps fail R290 are Cleared into fast mode before use, inside the step that takes it; a bad block never is
again (R291). -/
def prepareSet (f : Nat) (s : State) : State :=
  (setBlocks s f).foldl (fun s p =>
    let blk := blockKey p.1 p.2.1 7 p.2.2
    let t := stampOf s blk
    if s.mm.bad.contains blk ∨ (t.valid ∧ t.fast ∧ t.stamp.extractLsb' 0 20 = BitVec.ofNat 20 f) then s
    else clearFast f p.1 p.2.1 p.2.2 s) s

/-- Whether a set can take a new use: free, not set aside, not of the image areas, both copies in service (R338, R595). -/
def setUsable (s : State) (f : Nat) : Bool :=
  fsUse (fsEntry s f) == 0 && !isImageSet s f && !s.power.setAside.contains f && copyUp s f 0 && copyUp s f 1

/-- The first of `n` numbers from `i` on that passes a test. -/
def firstFrom (p : Nat → Bool) : Nat → Nat → Option Nat
  | 0, _ => none
  | n + 1, i => if p i then some i else firstFrom p n (i + 1)

/-- The first fast set of the variant that passes a test, channel pair by channel pair. -/
def firstSet (s : State) (p : Nat → Bool) : Option Nat :=
  (List.range (nChannels s / 2)).findSome? (fun c => firstFrom p 32768 (32768 * c))

/-- A free fast set: the lowest number of the first channel pair that has one. Which free set an allocation takes is not specified but
for migrations (R299). -/
def freeSet (s : State) : Option Nat := firstSet s (setUsable s)

/-- The free set with the lowest WEAR (R299): one that nothing has worn, else the least worn of those with a descriptor. -/
def freeSetByWear (s : State) : Option Nat :=
  let wear := fun f => (sget noDesc s.xlat.fdesc f).wear.toNat
  match firstSet s (fun f => setUsable s f && wear f == 0) with
  | some f => some f
  | none => ((s.xlat.fdesc.map (fun e => e.1)).filter (setUsable s)).foldl (fun a g => match a with
      | none => some g
      | some f => if wear g < wear f then some g else some f) none

/-- A free set given a use: table entry, descriptor (R97, R98, R292). -/
def takeSet (f use owner key : Nat) (s : State) : State :=
  let s := prepareSet f s
  let s := fsSet f (fsMake 65536 0 key 0 use false false) s
  let d : FastDesc := { sget noDesc s.xlat.fdesc f with
    owner := BitVec.ofNat 32 owner, allocCseq := s.mm.cseq, pstamp := s.time.ftime }
  descAllocated f (descWrite f { s with xlat := { s.xlat with
    fdesc := sput s.xlat.fdesc f d, psiAt := sput s.xlat.psiAt f s.xlat.psi } })

/-- The ψ in force for a set: that of its last gap move, or of its allocation (R100). -/
def psiOf (s : State) (f : Nat) : Nat := (sget s.xlat.psi s.xlat.psiAt f).toNat

/-- Whether a block of a copy is marked bad. -/
def copyBad (s : State) (f c : Nat) : Bool :=
  let a := fastAt s f
  (List.range 3).any (fun k => s.mm.bad.contains (blockKey (if c = 0 then a.chA else a.chB) a.die 7 (a.block - 43008 + k)))

/-- A set freed (R293): USE free, its descriptor rewritten, its segments and versions dropped; the flags of its copies go. A set with a bad
block is taken out of service instead: USE stays retiring, with the flag of that copy (R291, R299, R338). -/
def releaseSet (f : Nat) (s : State) : State :=
  let out := copyBad s f 0 || copyBad s f 1
  let s := fsSet f (fsMake 65536 0 0 0 (if out then useRetiring else useFree) (copyBad s f 0) (copyBad s f 1)) s
  let s := { s with
    xlat := { s.xlat with
      segs := s.xlat.segs.filter (fun g => g.1 / 1024 != f)
      dirs := s.xlat.dirs.filter (fun d => d.1 / 57344 != f)
      versions := s.xlat.versions.filter (fun v => v.1 / 65538 != f), psiAt := sdel s.xlat.psiAt f
      openSeg := match s.xlat.openSeg with | some k => if k / 1024 = f then none else some k | none => none }
    mm := { s.mm with ckSeg := match s.mm.ckSeg with | some k => if k / 1024 = f then none else some k | none => none } }
  descWrite f s

/-! ## Segments and their trailers (R104 to R106, R277, R283, R563, R598) -/

/-- MAGIC of a segment's trailer. -/
def segMagic : SegKind → Nat
  | .patch | .foreign => 0xBD640070
  | .record => 0xBD640071
  | .image => 0xBD640072
  | .picp => 0xBD640073
  | .flush => 0xBD640074
  | .dmap => 0xBD640076

/-- The 64 bytes of a segment's trailer (R106, R277, R563, R598). -/
def trailerBytes (k : Nat) (g : Seg) : List Byte :=
  let body := bytesOf 4 (segMagic g.kind) ++ bytesOf 8 g.segSeq.toNat ++ bytesOf 4 (k / 1024 + 2 ^ 19 * (k % 1024)) ++
    bytesOf 8 g.base.toNat ++ [(if g.kind = .foreign then 1 else 0), 0] ++ bytesOf 2 g.ward.toNat ++
    bytesOf 4 g.index ++ bytesOf 6 g.fseq.toNat ++
    [BitVec.ofNat 8 (if g.kind = .picp then b2n g.delta + 2 * b2n g.last else b2n g.last)] ++ List.replicate 21 0
  body ++ bytesOf 4 (crc32c (body.map BitVec.toNat))

/-- Content line i of a segment written on both copies, copy A first; it lies without permutation at position 64 × segment + i (R104). -/
def segPut (k i : Nat) (l : MediaLine) (s : State) : State := fastStore2 (k / 1024) (64 * (k % 1024) + i) l s

/-- A segment opened: its trailer, at the next segment sequence (R106). -/
def placeSeg (k : Nat) (g : Seg) (s : State) : State :=
  let g := { g with segSeq := s.xlat.segSeq + 1 }
  segPut k 63 (mediaLine (BitVec.ofNat 512 (natOf (trailerBytes k g))) 0x5044) { s with xlat := { s.xlat with
    segSeq := s.xlat.segSeq + 1, dirs := s.xlat.dirs.filter (fun d => d.1 / 56 != k), segs := sput s.xlat.segs k g } }

/-- The live records of a foreign segment (R368). -/
def foreignLive (s : State) (k : Nat) : Nat :=
  s.span.wards.foldl (fun a w => a + w.places.countP (fun e => segKey (e.2 / 65538) (e.2 % 65538 / 64) == k)) 0

/-- Whether a segment is dead: a patch segment none of whose patches an index entry names, a checkpoint segment that no retained record or
image needs (R283), a foreign segment with no live record (R368). -/
def segDead (s : State) (k : Nat) (g : Seg) : Bool :=
  match g.kind with
  | .patch =>
    s.xlat.openSeg != some k &&
      !(s.xlat.pi.any (fun e => e.2.valid && segKey e.2.set.toNat e.2.segment.toNat == k)) &&
      !(s.xlat.piOvf.any (fun e => segKey e.set.toNat e.segment.toNat == k)) &&
      !(s.mm.drains.any (fun d => !d.fast && segKey d.set (d.pos / 64) == k)) &&
      !(s.mm.batches.any (fun b => b.slots.any (fun sl => sl.incl.any (fun i => segKey (i.2 / 65538) (i.2 % 65538 / 64) == k))))
  | .record =>
    s.mm.ckSeg != some k && !(s.mm.records.any (fun r => match r.place with
      | some p => segKey (p / 65538) (p % 65538 / 64) == k
      | none => false))
  | .image => !(s.mm.images.any (fun im => im.segs.contains k)) && !(match s.mm.imageRun with | some im => im.segs.contains k | none => false)
  | .picp => !s.mm.piSegs.contains k
  | .dmap => !s.mm.mapSegs.contains k
  | .flush => false
  | .foreign => foreignLive s k == 0 && !s.span.wards.any (fun w => w.seg == some k)

/-- The first free segment of a patch log set with no lost copy (R338). -/
def freeSegment (s : State) : Option Nat :=
  (s.xlat.fst.filter (fun e => fsUse e.2 == useLog && !copyLost s e.1 0 && !copyLost s e.1 1)).findSome? (fun e =>
    ((List.range 1024).map (fun i => segKey e.1 i)).find? (fun k => match sfind s.xlat.segs k with
      | none => true
      | some g => segDead s k g))

/-- A segment that can be opened: a free one, or the first of a free media set taken for the log (R104). -/
def pickSegment (s : State) : Option (Nat × State) :=
  match freeSegment s with
  | some k => some (k, s)
  | none =>
    match freeSet s with
    | some f => some (segKey f 0, takeSet f useLog 0xFFFFFFFF 0 s)
    | none => none

/-- A new patch segment opened, where one can be: BASE_CTR is the first patch's counter (R104, R106, R107). -/
def newSegment (s : State) : Option (Nat × State) :=
  match pickSegment s with
  | some (k, t) =>
    some (k, { placeSeg k { noSeg with kind := .patch, base := nextCtr t.xlat.patchCtr } t with xlat := {
      (placeSeg k { noSeg with kind := .patch, base := nextCtr t.xlat.patchCtr } t).xlat with openSeg := some k } })
  | none => none

/-- The patch segment the next patch goes to. A free fast set becomes patch log when no segment is free; none when no set is free (R119). A segment of a set with a lost copy takes no more
(R338). -/
def openSegment (s : State) : Option (Nat × State) :=
  match s.xlat.openSeg with
  | some k =>
    if (sget noSeg s.xlat.segs k).next < 56 ∧ !copyLost s (k / 1024) 0 ∧ !copyLost s (k / 1024) 1 then some (k, s) else newSegment s
  | none => newSegment s

/-- The directory entry of a patch (R105). -/
def dirEntry (d : Drain) : BitVec 64 := BitVec.ofNat 64 (d.lln + 2 ^ 40 * (d.ctr.toNat % 2 ^ 24))

/-- The directory entry of payload line i of a segment: as programmed, or on its way with a payload that is (R105, R109). -/
def dirAt (s : State) (k i : Nat) : BitVec 64 :=
  match s.mm.drains.find? (fun d => !d.fast && Nat.ble 2 d.stage && segKey d.set (d.pos / 64) == k && d.pos % 64 == i) with
  | some d => dirEntry d
  | none => sget (BitVec.allOnes 64) s.xlat.dirs (56 * k + i)

/-- The directory line of entry i of a segment: eight entries of 8 bytes, empty ones all ones (R105). -/
def dirLine (s : State) (k i : Nat) : Line :=
  BitVec.ofNat 512 ((List.range 8).foldl (fun a j => a + (dirAt s k (8 * (i / 8) + j)).toNat * 2 ^ (64 * j)) 0)

/-! ## The dirty frame map (R602) -/

/-- Content line j of segment i of the map: one bit for each of 512 frames. -/
def dmapLine (ls : List Nat) (i j : Nat) : MediaLine :=
  let first := 32256 * i + 512 * j
  mediaLine (BitVec.ofNat 512 ((ls.filter (fun l => Nat.ble first l && Nat.blt l (first + 512))).foldl (fun a l => a ||| 2 ^ (l - first)) 0)) 0x4446

/-- The bits queued since the newest generation began written, copy A then copy B. -/
def mapSync (s : State) : State :=
  let due := s.mm.mapDue
  if due = [] then s
  else due.foldl (fun s l =>
    match s.mm.mapSegs[l / 32256]? with
    | some k => segPut k (l % 32256 / 512) (dmapLine s.mm.mapNew (l / 32256) (l % 32256 / 512)) s
    | none => s) { s with mm := { s.mm with mapDue := [] } }

/-! ## Checkpoint records (R277 to R281) -/

/-- Kinds of checkpoint record (R278). -/
def ckEntry : Nat := 1
def ckBad : Nat := 2
def ckImageStart : Nat := 3
def ckImageEnd : Nat := 4
def ckOpen : Nat := 5
def ckFree : Nat := 6

/-- The 32 bytes of a record (R278). -/
def recBytes (r : CkRec) : List Byte :=
  let body := bytesOf 3 r.target.toNat ++ [r.kind] ++ bytesOf 4 r.entry.toNat ++ bytesOf 6 r.cseq.toNat ++ bytesOf 6 r.psnap.toNat ++
    bytesOf 8 r.ftime.toNat ++ [0, 0]
  body ++ bytesOf 2 (crc16 (body.map BitVec.toNat))

/-- An empty record: KIND 0xFF, the rest all ones too (DESIGN CHOICE, log entry 74). -/
def emptyRec : List Byte := List.replicate 32 0xFF

/-- The record segment the next record goes to, with the records it holds: 126 to a segment, one copy at least in service (R277 to R279). -/
def ckSegment (s : State) : Option (Nat × State) :=
  let full := match s.mm.ckSeg with
    | some k => Nat.ble 126 (sget noSeg s.xlat.segs k).next || (!copyUp s (k / 1024) 0 && !copyUp s (k / 1024) 1)
    | none => true
  match s.mm.ckSeg with
  | some k => if full then fresh s else some (k, s)
  | none => fresh s
where
  fresh (s : State) : Option (Nat × State) :=
    match pickSegment s with
    | some (k, t) =>
      let t := placeSeg k { noSeg with kind := .record, base := t.mm.cseq } t
      some (k, { t with mm := { t.mm with ckSeg := some k } })
    | none => none

/-- Whether the next record has a place where it can be durable (R279): a commit waits until there is one. -/
def ckReady (s : State) : Bool := (ckSegment s).isSome

/-- A record line: the record before an odd one stays beside it (R278). -/
def recLine (s : State) (r : CkRec) (odd : Bool) (bytes : List Byte) : MediaLine :=
  let first := if !odd then bytes
    else ((s.mm.records.find? (fun x => x.place == r.place)).map recBytes).getD emptyRec
  mediaLine (BitVec.ofNat 512 (natOf (first ++ (if odd then bytes else emptyRec)))) 0x4350

/-- One record formed and durable: its line programmed on copy A, then copy B (R279); it takes the next CSEQ. Injection point 0x000D
inverts the record's CRC on copy B. Answers the CSEQ taken. -/
def ckRecord (kind target : Nat) (entry : BitVec 32) (psnap : BitVec 48) (s : State) : BitVec 48 × State :=
  let bad := isArmed s 0x000D 0
  let s := if bad then fire 0x000D 0 s else s
  let c := s.mm.cseq
  let r : CkRec := ⟨BitVec.ofNat 24 target, BitVec.ofNat 8 kind, entry, c, psnap, s.time.ftime, none⟩
  let (r, s) := match ckSegment s with
    | none => (r, s)
    | some (k, s) =>
      let g := sget noSeg s.xlat.segs k
      let pos := 64 * (k % 1024) + g.next / 2
      let r := { r with place := some (65538 * (k / 1024) + pos) }
      let odd := g.next % 2 = 1
      let good := recBytes r
      let flipped := good.take 30 ++ (good.drop 30).map (fun b => ~~~ b)
      let s := fastStore (k / 1024) 0 pos (recLine s r odd good) s
      let s := fastStore (k / 1024) 1 pos (recLine s r odd (if bad then flipped else good)) s
      (r, { s with xlat := { s.xlat with segs := sput s.xlat.segs k { g with next := g.next + 1 } } })
  (c, { s with mm := { s.mm with cseq := c + 1, imageRecs := s.mm.imageRecs + 1, records := s.mm.records ++ [r] } })

/-- The entry as its record holds it: PATCHED and HOT 0 (R278). -/
def recEntry (e : BitVec 32) : BitVec 32 := e &&& 0xAFFFFFFF

/-- A commit with its record durable first, at the given PSNAP (R280). -/
def commitAt (lfn : Nat) (e : BitVec 32) (psnap : BitVec 48) (s : State) : State :=
  let (_, s) := ckRecord ckEntry lfn (recEntry e) psnap s
  ftCommit lfn e { s with xlat := { s.xlat with psnap := sset 0 s.xlat.psnap lfn psnap } }

/-- A commit whose PSNAP is the patch counter at commit (R280). -/
def commitNow (lfn : Nat) (e : BitVec 32) (s : State) : State := commitAt lfn e s.xlat.patchCtr s

/-- A commit without a record: only HOT or PATCHED changes, or MODE between its source and Folding (R280). None is made while the entry is
being restored (R82). -/
def commitQuiet (lfn : Nat) (e : BitVec 32) (s : State) : State := if s.xlat.restoring.contains lfn then s else ftCommit lfn e s

/-! ## Bad blocks (R291, R324) -/

/-- TARGET and ENTRY of a bad block's record (R278). -/
def badRecord (s : State) (blk : Nat) : Nat × BitVec 32 :=
  let bank := blk / 8192 % 8
  let die := blk / 65536 % 16
  let ch := blk / 1048576
  if bank = 7 then
    let fc := fastSetOf s ch die (blk % 8192)
    (fc.1, BitVec.ofNat 32 (32 + 64 * fc.2 + 128 * (blk % 8192 % 3)))
  else (bandAt s die bank (blk % 8192), BitVec.ofNat 32 ch)

/-- A block marked bad (R291, R324): the record, the Waybill record with its cause, and for a fast block the copy's flag
and USE retiring, its descriptor rewritten for the change of USE (R293). -/
def markBad (blk cause : Nat) (s : State) : State :=
  if s.mm.bad.contains blk then s
  else
    let bank := blk / 8192 % 8
    let die := blk / 65536 % 16
    let ch := blk / 1048576
    let s := { s with mm := { s.mm with bad := s.mm.bad ++ [blk] } }
    let s := event { code := 0x0208, unit := 0x400000 + bankKey ch die bank, p0 := blk % 8192, p1 := cause } s
    let r := badRecord s blk
    let s := (ckRecord ckBad r.1 r.2 0 s).2
    if bank = 7 then
      let (f, c) := fastSetOf s ch die (blk % 8192)
      let e := fsEntry s f
      descWrite f (fsSet f (fsMake (fsGap e) (fsStart e) (fsKey e) (fsWcount e) useRetiring
        (fsALost e || c == 0) (fsBLost e || c == 1)) s)
    else
      let b := bandAt s die bank (blk % 8192)
      if (bandOf s b).cls = .written ∧ liveCount s b ≠ 0 then refreshBand b s else s

/-- A first-decode failure (`what` 0) or a correction (1) at an offset of a block of a live band, which marks it bad at 64 offsets within
one scrub period (R324). -/
def countBlockMark (blk what x : Nat) (s : State) : State :=
  let n := (sget [] s.lp.blockFails (2 * blk + what)).length
  let s := countBlock blk what x s
  if n < 64 ∧ (sget [] s.lp.blockFails (2 * blk + what)).length = 64 then markBad blk (3 + what) s else s

/-- A line rebuilt by its stripe or read from the other copy, counted (R345). -/
def countRebuilt (s : State) : State := { s with lp := { s.lp with rebuild := satInc s.lp.rebuild } }

/-! ## Frame summaries (R111) -/

/-- A frame's summary from its patches: how many it holds, and the oldest one's time. The old one is read first, with what its errors give
(R211); one that cannot be corrected is made anew from the index. -/
def fsumRefresh (lfn : Nat) (s : State) : State :=
  let mine := fun e : PiEnt => e.valid && lfnOf e.lln.toNat == lfn && !foreignEnt s e
  let n := s.xlat.pi.countP (fun e => mine e.2) + s.xlat.piOvf.countP mine
  let ts := (s.xlat.ptimes.filter (fun e => lfnOf e.1 == lfn)).map (fun e => e.2.toNat)
  let o := match ts with | [] => 0 | t :: l => l.foldl min t
  let r := hbmMeet (.summary lfn) s
  hbmWrite (.summary lfn) { r.2 with xlat := { r.2.xlat with fsum := sset (0, 0) r.2.xlat.fsum lfn (n, if n = 0 then 0 else BitVec.ofNat 47 o) } }

/-- A patch indexed, with the time its summary goes by (R111). -/
def indexPatch (e : PiEnt) (t : BitVec 64) (s : State) : Bool × State :=
  let (ovf, s) := piInsert e s
  (ovf, { s with xlat := { s.xlat with ptimes := sput s.xlat.ptimes e.lln.toNat (t.extractLsb' 17 47) } })

/-- The local patches that `gone` names dropped from the index. -/
def unindex (gone : PiEnt → Bool) (s : State) : State :=
  let gone := fun e => gone e && !foreignEnt s e
  let ls := (s.xlat.pi.filter (fun e => e.2.valid && gone e.2)).map (fun e => e.2.lln.toNat) ++
    (s.xlat.piOvf.filter gone).map (fun e => e.lln.toNat)
  let s := piDrop gone s
  { s with xlat := { s.xlat with ptimes := s.xlat.ptimes.filter (fun e => !ls.contains e.1) } }

/-! ## Frame sources released (R80, R286) -/

/-- Whether a read of the back end resolved against an entry's place (R80). -/
def readsAt (s : State) (e : BitVec 32) : Bool :=
  s.media.mreads.any (fun r => match r.loc with
    | .dense b sl _ => (ftMode e == mDense || ftMode e == mFolding) && ftBand e == b && ftSlot e == sl
    | .fast f _ none => (ftMode e == mFast || ftMode e == mFolding) && ftBand e == f
    | .fast _ _ (some _) => false)

/-- Whether a read in flight resolved against any slot of a band: the band is not dead till it has its data (R80). -/
def bandRead (s : State) (b : Nat) : Bool :=
  s.media.mreads.any (fun r => match r.loc with | .dense x _ _ => x == b | .fast .. => false)

/-- The place an old entry names given up: a fast set freed, a band's live count falling by itself (R286). An old band
whose count reaches 0 is dead. -/
def releaseNow (e : BitVec 32) (s : State) : State :=
  if ftMode e = mFast ∨ (ftMode e = mFolding ∧ ftSlot e = 31) then releaseSet (ftBand e) s
  else if bandRead s (ftBand e) then { s with mm := { s.mm with releasing := s.mm.releasing ++ [e] } }
  else if (ftMode e = mDense ∨ ftMode e = mParity ∨ ftMode e = mFolding) ∧ ftBand e ≠ zeroHome ∧
      liveCount s (ftBand e) = 0 ∧ (bandOf s (ftBand e)).cls = .written then
    setBand (ftBand e) (fun d => { d with cls := .dead, cleared := 0 }) s
  else s

/-- The place released at once, or after the reads that resolved against it (R80). -/
def releaseOld (e : BitVec 32) (s : State) : State :=
  if readsAt s e then { s with mm := { s.mm with releasing := s.mm.releasing ++ [e] } } else releaseNow e s

/-- The places whose last read has received its data. -/
def releaseDue (s : State) : State :=
  let l := s.mm.releasing
  l.foldl (fun s e => releaseOld e s) { s with mm := { s.mm with releasing := [] } }

/-! ## The entry read (R81, R82) -/

/-- A frame whose entry and image both failed (R82): a span member commits Span-served, with PATCHED while it has patches (R78, R280); a
device without span protection starts the entry's restoration. -/
def entryLost (lfn : Nat) (s : State) : Option (BitVec 32) × State :=
  if s.xlat.restoring.contains lfn then (none, s)
  else
    let s := event { code := 0x0207, p0 := lfn } s
    if s.span.desc.isSome then
      let e := ftMake 0 0 mSpanServed (hasPatches s lfn) false false
      (some e, releaseOld (ftEntry s lfn) (commitNow lfn e s))
    else (none, { s with xlat := { s.xlat with
      ftErr := sset .none s.xlat.ftErr lfn .lost, restoring := s.xlat.restoring ++ [lfn] } })

/-- The entry read for an access (R81, R82): corrected and counted; reloaded from the image and recorded, unless the image has failed too;
`none` while a restoration runs. -/
def ftRead (lfn : Nat) (s : State) : Option (BitVec 32) × State :=
  match sget .none s.xlat.ftErr lfn with
  | .none => (some (ftEntry s lfn), s)
  | .correctable =>
    (some (ftEntry s lfn), ceError 3 0 { s with xlat := { s.xlat with ftErr := sdel s.xlat.ftErr lfn } })
  | .uncorrectable =>
    let (bad, s) := hbmMeet (.image lfn) s
    if bad then entryLost lfn s
    else (some (ftEntry s lfn), event { code := 0x0206, p0 := lfn } { s with xlat := { s.xlat with
      ftErr := sdel s.xlat.ftErr lfn } })
  | .lost => entryLost lfn s

/-! ## Patches and findings -/

/-- The frame's patches dropped: index entries, overflow entries, summary (R49, R121). -/
def dropPatches (lfn : Nat) (s : State) : State :=
  let s := unindex (fun e => lfnOf e.lln.toNat == lfn) s
  hbmWrite (.summary lfn) { s with xlat := { s.xlat with fsum := sdel s.xlat.fsum lfn } }

/-! ## Findings (R59, R339 to R341) -/

/-- Whether a line is dirty anywhere. -/
def isDirty (s : State) (lln : Nat) : Bool :=
  (sfind s.cache.dirty lln).isSome || (ncWays s lln).any (fun k => dirtyWay (ncWay s k))

/-- Whether there is room for a write to a line that brings no credit of its own: within the dirty budget, or within the 256 writes of
write-through mode (R54, R157, R176). -/
def hasRoom (s : State) (lln : Nat) : Bool :=
  isDirty s lln || Nat.ble (occupancy s + 1) (if s.write.through then 256 else budgetLines s)

/-- A write of the device's own, ordered at once (R341). With no room it is held beside the caches, where every read of the line finds it,
until there is (R54; DESIGN CHOICE, log entry 75). -/
def internalWrite (lln : Nat) (v : Line) (s : State) : State :=
  let s := { s with cache := { s.cache with heldWrites := s.cache.heldWrites.filter (fun e => e.1 != lln) } }
  if hasRoom s lln ∧ !s.write.through then ncWrite lln v (BitVec.allOnes 64) s
  else { s with cache := { s.cache with heldWrites := s.cache.heldWrites ++ [(lln, v)] } }

/-- The held value of a line. -/
def heldValue (s : State) (lln : Nat) : Option Line := (s.cache.heldWrites.find? (fun e => e.1 == lln)).map (fun e => e.2)

/-- A held write put into the caches. -/
def releaseHeld (lln : Nat) (s : State) : State :=
  match heldValue s lln with
  | none => s
  | some v => ncWrite lln v (BitVec.allOnes 64) { s with cache := { s.cache with
      heldWrites := s.cache.heldWrites.filter (fun e => e.1 != lln) } }

/-- The list record and the Critical record of a line found unrecoverable, with its source: 0 media, 1 cache, 2 span, 3 translation. -/
def foundLost (lln src unit : Nat) (s : State) : State :=
  event { code := 0x0201, unit := unit, p0 := lln, p1 := (ownerOf s (lfnOf lln)).getD 0, p2 := src }
    (poisonAdd lln .internal { s with lp := { s.lp with poison := satInc s.lp.poison } })

/-- A line found unrecoverable (R340, R341): an internal write of the pattern, the list record, the Critical record. -/
def poisonFind (lln src unit : Nat) (s : State) : State := foundLost lln src unit (internalWrite lln poisonLine s)

/-! ## DevLoad and fold triggers by log fill (R61 to R63, R111, R119, R264) -/

/-- Whether a part of the media that fast sets lie on may be out of service. -/
def mediaOut (s : State) : Bool :=
  !s.unit.units.isEmpty || s.power.flagged != 0 || s.media.carters.any (fun e => e.2.trainStep != 0 && e.2.trainStep != 11) ||
    s.xlat.fst.any (fun e => fsALost e.2 || fsBLost e.2)

/-- Whether no fast set at all is free for a new patch segment (R119): none free, or none of the free ones with both copies in service
(R338). -/
def noPatchSet (s : State) : Bool := freeSets s == 0 || (mediaOut s && (freeSet s).isNone)

/-- The DevLoad contributors recomputed (R61, R63, R119, R176). -/
def updLoad (s : State) : State :=
  let d := if s.write.through then 2 else loadLevel s.write.lvlDirty.toNat (occupancy s) (budgetLines s)
  let p := if noPatchSet s then 3 else loadLevel s.write.lvlPatch.toNat (patchFill s) (patchCap s)
  { s with write := { s.write with lvlDirty := BitVec.ofNat 2 d, lvlPatch := BitVec.ofNat 2 p } }

/-- The frames with patches due by log pressure once the fill passes 75%, until it falls below 70%, and while no fast set is free; then
a frame is due by what else made it due (R119, R264). -/
def logPressure (s : State) : State :=
  let on := Nat.blt (3 * patchCap s) (4 * patchFill s) || noPatchSet s ||
    (s.mm.pressed && Nat.ble (70 * patchCap s) (100 * patchFill s))
  if on then
    s.xlat.fsum.foldl (fun s e => if 0 < e.2.1 then makeDue e.1 2 (2 ^ 17 - e.2.1) false s else s)
      { s with mm := { s.mm with pressed := true } }
  else if s.mm.pressed then
    { s with mm := { s.mm with
      pressed := false
      due := s.mm.due.filterMap (fun d => if d.prio ≠ 2 then some d
        else if d.was ≠ 0 then some { d with prio := d.was, key := d.wasKey, was := 0, wasKey := 0 } else none) } }
  else s

/-! ## Lines becoming clean (R203) -/

/-- The bytes of a drained line kept in its resident page (R203). -/
def pageUpdate (lln : Nat) (d : DSlot) (s : State) : State :=
  if (pageFind s (lln / 64)).isNone then s
  else if !d.partial_ then pageFill lln d.data s
  else
    let r := pageRead lln s
    match r.1 with
    | some v => pageFill lln (mergeLine r.2 lln v d.data d.mask) r.2
    | none => r.2

/-- Requests completed because a line they wait for became clean, in write-through mode (R176). -/
def completeThrough (s : State) : State :=
  let done := s.host.reqs.filter (fun r => r.wait == .through && !isDirty s r.lln)
  if done = [] then s
  else done.foldl (fun s r =>
    send { s with host := { s.host with reqs := s.host.reqs.filter (fun x => x.id != r.id) } }
      (.memWrite r.port r.ld r.tag (devLoad s))) (updLoad s)

/-- The lines a flush job captures: those dirty in its scope, twice where a drain that runs does not carry the line's newest value (R216). -/
def flushLines (s : State) (l : Nat) : List Nat :=
  match sfind s.cache.dirty l with
  | some d => if d.draining ∧ (d.redirty ∨ (ncWays s l).any (fun k => dirtyWay (ncWay s k))) then [l, l] else [l]
  | none => [l]

/-- The flush jobs told that a drain of a line has ended: each job ends when the last line it captured is clean or has been written at the
captured value or a later one, whatever was written meanwhile (R216, R217). -/
def flushJobs (done : Option Nat) (s : State) : State :=
  s.unit.running.foldl (fun s j => match j.kind with
    | .flush ls inval scope =>
      let left := (match done with | some l => ls.erase l | none => ls).filter (isDirty s)
      if left ≠ [] then { s with unit := { s.unit with running := s.unit.running.map (fun x =>
        if x.id = j.id then { x with kind := .flush left inval scope } else x) } }
      else
        let inScope := fun l => scope.any (fun r => Nat.ble r.1 (lfnOf l) && Nat.blt (lfnOf l) (r.1 + r.2))
        let s := if !inval then s
          else
            let held := s.cache.near.map (fun e => e.2.lln) ++ s.cache.pageData.map (fun e => e.1) ++ s.cache.side.map (fun e => e.1)
            (dedup (held.filter inScope)).foldl (fun s l => invalidateLine l s) s
        endJob j.id 0 s
    | _ => s) s

/-- A line's drain complete: the slot freed or left dirty when it was rewritten meanwhile, the resident page updated, the
requests and jobs that wait for it (R203). -/
def lineClean (lln : Nat) (s : State) : State :=
  match sfind s.cache.dirty lln with
  | none => s
  | some d =>
    let s := if d.redirty then markSlot lln (fun d => { d with draining := false, redirty := false }) s
      else pageUpdate lln d (freeSlot lln s)
    flushJobs (some lln) (completeThrough (updLoad s))

end Sys2Proof.Machine
end

