-- ==== Sys2Proof/Machine/Sources.lean ====
section
/-! DEFINITION. A line read from media inside another step, by every source it has: the decode, the retry ladder, the stripe or the other
copy, with what each read charges and records (R134 to R139, R318 to R324, R334 to R337, R340, R343). -/

namespace Sys2Proof.Machine

/-! ## Decodes (R134, R248, R318) -/

/-- A cell read at the base references and decoded: an undefined line may read as anything (R248). -/
def cellRead (c : Cellv) (s : State) : Option (Line66 × Nat) × State :=
  match c with
  | .data v => (bchDecode v, s)
  | .undef => let (v, s) := drawBits 640 s; (bchDecode v, s)

/-- One step of a retry ladder: what it decodes, when that passes the line's test, else what the later steps give. -/
def ladderStep (test : Line66 → Bool) (k : Nat) (r : Option (Line66 × Nat) × State) (next : State → Option (Line66 × Nat) × State) :
    Option (Line66 × Nat) × State :=
  match r.1.filter (fun e => test e.1) with
  | some e => (some (e.1, k), r.2)
  | none => next r.2

/-- The retry ladder over some steps: what a line reads at shifted references is not stated, and is free (R134; log entry 96). The first
step that decodes and passes the line's test, with its number. -/
def ladder (test : Line66 → Bool) : List Nat → State → Option (Line66 × Nat) × State
  | [], s => (none, s)
  | k :: ks, s => ladderStep test k (cellRead .undef s) (ladder test ks)

/-- The steps of a dense and of a fast line (R134). -/
def denseSteps : List Nat := [1, 2, 3, 4, 5, 6]
def fastSteps : List Nat := [1, 2, 3]

/-! ## What a read shows of its die (R136, R319, R323, R343) -/

/-- A weak line (R319). -/
def weakLine (die : Nat) (s : State) : State := charge die (dieCount 0 die s)

/-- A retry's record and its frame due (R136). -/
def retryNoted (die lln step : Nat) (s : State) : State :=
  makeDue (lfnOf lln) 5 0 false (event { code := 0x0202, unit := uDie die, p0 := lln, p1 := step } s)

/-- A line decoded at a retry step: its record, its die charged, its frame due (R136, R343). -/
def retryGood (die lln step : Nat) (s : State) : State := retryNoted die lln step (charge die s)

/-- The die of a member. -/
def memberDie (s : State) (b m : Nat) : Nat := dieKey (memberAt s b m).1 (memberAt s b m).2

/-- A member that decoded good and that the stripe corrected at an offset: counted, its die charged unless the read has been, its block
counted, the band's frames due (R322 to R324, R343). -/
def located (b x : Nat) (charged : Bool) (s : State) (m : Nat) : State :=
  let s := { s with lp := { s.lp with located := satInc s.lp.located } }
  let s := event { code := 0x0203, unit := uDie (memberDie s b m), p0 := b, p1 := x } s
  refreshBand b (countBlockMark (memberBlock s b m) 1 x (if charged then s else charge (memberDie s b m) s))

/-! ## Dense lines (R137 to R139, R319 to R324) -/

/-- The LLN a member holds at an offset: its slot's frame, when it holds one. -/
def memberLln (d : Band) (m x : Nat) : Option Nat :=
  let r := roleOf d m
  if r.1 then none else (slotLfn d r.2).map (fun l => 65536 * l + (x - 64))

/-- What a ladder gave for a line of a die: the line, with its die charged and its record written (R136, R343). -/
def retried (die lln : Nat) (r : Option (Line66 × Nat) × State) : Option Line66 × State :=
  match r.1 with
  | some (l, k) => (some l, retryGood die lln k r.2)
  | none => (none, r.2)

/-- A member's line by the retry steps, for a line `lln` that is being read; its die is charged. -/
def memberRetry (b m x lln : Nat) (s : State) : Option (Line66 × Bool) × State :=
  let r := retried (memberDie s b m) ((memberLln (bandOf s b) m x).getD lln) (ladder (memberGood (bandOf s b) m) denseSteps s)
  (r.1.map (fun l => (l, true)), r.2)

/-- A member's line at the base references, with whether its die was charged for it; its failure counted (R319, R324, R344). None for a
missing member. -/
def memberRead (b m x : Nat) (s : State) : Option (Line66 × Bool) × State :=
  if memberMissing s b m then (none, s)
  else
    let p := memberAt s b m
    let r := cellRead (lineAt s p.1 p.2 (bandBank b) (bandBlock b) x) s
    match r.1.filter (fun e => memberGood (bandOf s b) m e.1) with
    | some (l, c) => (some (l, Nat.ble 8 c), if 8 ≤ c then weakLine (memberDie s b m) r.2 else r.2)
    | none => (none, countBlockMark (memberBlock s b m) 0 x (dieCount 1 (memberDie s b m) r.2))

/-- The lines of some members read one by one, those that give one. -/
def membersRead (read : Nat → State → Option (Line66 × Bool) × State) (ms : List Nat) (s : State) : SMap (Line66 × Bool) × State :=
  ms.foldl (fun (a : SMap (Line66 × Bool) × State) m =>
    let r := read m a.2
    (match r.1 with | some l => a.1 ++ [(m, l)] | none => a.1, r.2)) ([], s)

/-- The other members of a band read at an offset: once, and where that leaves more than 4 to rebuild, those that failed through the retry
steps too (R139, R142). -/
def stripeRead (b h x lln : Nat) (s : State) : SMap (Line66 × Bool) × State :=
  let ms := (liveOf (bandOf s b)).filter (fun m => m != h)
  let a := membersRead (fun m => memberRead b m x) ms s
  if a.1.length + 4 < ms.length + 1 then
    let c := membersRead (fun m => memberRetry b m x lln) (ms.filter (fun m => (sfind a.1 m).isNone && !memberMissing s b m)) a.2
    (a.1 ++ c.1, c.2)
  else a

/-- A member's line rebuilt from the others (R320 to R323, R343), counted for a member that failed or is missing. -/
def stripeRebuild (b h x lln : Nat) (s : State) : Option Line66 × State :=
  let d := bandOf s b
  let g := stripeRead b h x lln s
  match (rebuild d (g.1.map (fun e => (e.1, e.2.1))) h).filter (fun r => memberGood d h r.1) with
  | some (l, fixed) =>
    let s := countRebuilt g.2
    let s := if memberMissing s b h then s else charge (memberDie s b h) s
    (some l, fixed.foldl (fun s m => located b x (match sfind g.1 m with | some e => e.2 | none => false) s m) s)
  | none => (none, g.2)

/-- The line of a dense home by all its local sources, in the order of R340. -/
def homeRead (b slot x lln : Nat) (s : State) : Option Line × State :=
  let h := slotMember (bandOf s b) slot
  let r := memberRead b h x s
  match r.1 with
  | some l => (some (payloadOf l.1), r.2)
  | none =>
    let t := if memberMissing s b h then (none, r.2) else memberRetry b h x lln r.2
    match t.1 with
    | some l => (some (payloadOf l.1), t.2)
    | none =>
      let v := stripeRebuild b h x lln t.2
      (v.1.map payloadOf, v.2)

/-! ## Fast and patch lines (R318, R334 to R337) -/

/-- The value two decoded copies give (R334, R335): the newer, either when equal, none when they claim the same version and
differ. A patch line has no line version. -/
def mirrorValue (seq : Option (BitVec 16)) (a b : Line66) : Option Line66 :=
  if a = b then some a
  else if seq.isSome then none
  else if newer (metaOf a) (metaOf b) then some a
  else if newer (metaOf b) (metaOf a) then some b
  else none

/-- The test of a fast or patch line: a patch line carries its sequence (R318). -/
def fastTest (seq : Option (BitVec 16)) (l : Line66) : Bool :=
  match seq with | some q => metaOf l == q | none => true

/-- The die of a copy. -/
def copyDie (s : State) (f c : Nat) : Nat := let a := fastAt s f; dieKey (if c = 0 then a.chA else a.chB) a.die

/-- A copy's line at the base references; none for a copy out of service. -/
def copyRead (f c pos : Nat) (seq : Option (BitVec 16)) (s : State) : Option Line66 × State :=
  if !copyUp s f c then (none, s)
  else
    let r := cellRead (fastCell s f c pos) s
    match r.1.filter (fun e => fastTest seq e.1) with
    | some (l, k) => (some l, if 8 ≤ k then weakLine (copyDie s f c) r.2 else r.2)
    | none => (none, dieCount 1 (copyDie s f c) r.2)

/-- A copy's line by the retry steps. -/
def copyRetry (f c lln : Nat) (seq : Option (BitVec 16)) (s : State) : Option Line66 × State :=
  if !copyUp s f c then (none, s) else retried (copyDie s f c) lln (ladder (fastTest seq) fastSteps s)

/-- A whole dirty value of a line in the caches (R336 source 1). -/
def dirtyValue (s : State) (lln : Nat) : Option Line :=
  match ((ncWays s lln).map (ncWay s)).find? (fun w => w.st == .dirty && wayGood w) with
  | some w => some w.data
  | none => match sfind s.cache.dirty lln with
    | some d => if d.partial_ then none else some d.data
    | none => none

/-- One retry step on both copies: the content both decode, when it is identical, else what the later steps give. -/
def tieTry (test : Line66 → Bool) (a b : Option (Line66 × Nat)) (s : State) (next : State → Option Line66 × State) :
    Option Line66 × State :=
  match (a.map (fun e => e.1)).filter test, (b.map (fun e => e.1)).filter test with
  | some x, some y => if x = y then (some x, s) else next s
  | _, _ => next s

/-- The retry steps on both copies together: the first at which both decode to identical content (R336 source 3). -/
def tieLadder (test : Line66 → Bool) : List Nat → State → Option Line66 × State
  | [], s => (none, s)
  | _ :: ks, s =>
    let a := cellRead .undef s
    let b := cellRead .undef a.2
    tieTry test a.1 b.1 b.2 (tieLadder test ks)

/-- Two copies not trusted: counted, each die charged that the read has not charged, recorded (R336, R343). -/
def tieNoted (f pos : Nat) (charged : List Nat) (s : State) : State :=
  let s := { s with lp := { s.lp with tie := satInc s.lp.tie } }
  let s := ([0, 1].filter (fun c => !charged.contains c)).foldl (fun s c => charge (copyDie s f c) s) s
  event { code := 0x0204, unit := uDie (copyDie s f 0), p0 := f, p1 := pos } s

/-- A resolved value written to both copies; a frame's line one version above `v` (R336). -/
def tieStore (f pos : Nat) (seq : Option (BitVec 16)) (l : Line) (v : BitVec 16) (s : State) : State :=
  match seq with
  | some q => fastStore2 f pos (mediaLine l q) s
  | none => fastStore2 f pos (mediaLine l (v + 1)) { s with xlat := { s.xlat with
      versions := sset 0 s.xlat.versions (65538 * f + pos) (v + 1) } }

/-- What the retry steps gave for copies that are not trusted: the value, written to both copies. -/
def tieEnded (f pos : Nat) (seq : Option (BitVec 16)) (v : BitVec 16) (r : Option Line66 × State) :
    Option (Line × BitVec 16) × State :=
  match r.1 with
  | some l => (some (payloadOf l, v + 1), tieStore f pos seq (payloadOf l) v r.2)
  | none => (none, r.2)

/-- Copies that are not trusted, by a dirty value of the line if there is one; else the retry steps, on a device without span protection. -/
def tieSources (f pos : Nat) (seq : Option (BitVec 16)) (v : BitVec 16) (d : Option Line) (s : State) : Option (Line × BitVec 16) × State :=
  match d with
  | some l => (some (l, v), s)
  | none =>
    if s.span.desc.isSome then (none, s) else tieEnded f pos seq v (tieLadder (fastTest seq) fastSteps s)

/-- Copies that are not trusted resolved by the local sources of R336: a dirty value, on a device without span protection the retry
steps. None leaves the span, or poison. -/
def tieResolve (f pos lln : Nat) (seq : Option (BitVec 16)) (v : BitVec 16) (s : State) : Option (Line × BitVec 16) × State :=
  let s := tieNoted f pos [] s
  tieSources f pos seq v (dirtyValue s lln) s

/-- The older of two copies that decode good written again with the newer (R335). -/
def olderAgain (f pos : Nat) (a b l : Line66) (s : State) : State :=
  if a = b then s else fastStore f (if l = a then 1 else 0) pos (mediaLine (payloadOf l) (metaOf l)) s

/-- Two copies that both decode: the newer, the older written again, or what R336 gives when neither is trusted. -/
def bothRead (f pos lln : Nat) (seq : Option (BitVec 16)) (x y : Line66) (s : State) : Option (Line × BitVec 16) × State :=
  match mirrorValue seq x y with
  | some l => (some (payloadOf l, metaOf l), olderAgain f pos x y l s)
  | none => tieResolve f pos lln seq (metaOf x) s

/-- Copies read at the retry steps: both, one or none of them decodes. -/
def lateCopies (f pos lln : Nat) (seq : Option (BitVec 16)) (a b : Option Line66) (s : State) : Option (Line × BitVec 16) × State :=
  match a, b with
  | some x, some y => bothRead f pos lln seq x y s
  | some x, none => (some (payloadOf x, metaOf x), s)
  | none, some y => (some (payloadOf y, metaOf y), s)
  | none, none => (none, s)

/-- Both copies through the retry steps. -/
def copiesRetried (f pos lln : Nat) (seq : Option (BitVec 16)) (s : State) : Option (Line × BitVec 16) × State :=
  let a := copyRetry f 0 lln seq s
  let b := copyRetry f 1 lln seq a.2
  lateCopies f pos lln seq a.1 b.1 b.2

/-- Copies read at the base references: a copy alone answers, copy B for a copy A that failed is a rebuilt line (R334, R343), and where
neither decodes both go through the retry steps. -/
def earlyCopies (f pos lln : Nat) (seq : Option (BitVec 16)) (a b : Option Line66) (s : State) : Option (Line × BitVec 16) × State :=
  match a, b with
  | some x, some y => bothRead f pos lln seq x y s
  | some x, none => (some (payloadOf x, metaOf x), s)
  | none, some y =>
    let s := countRebuilt s
    (some (payloadOf y, metaOf y), if copyUp s f 0 then charge (copyDie s f 0) s else s)
  | none, none => copiesRetried f pos lln seq s

/-- A fast or patch line by both its copies, with the version it carries: the newer of two, the one that decodes, the retry steps of both,
and what R336 gives for copies that are not trusted. -/
def fastRead (f pos lln : Nat) (seq : Option (BitVec 16)) (s : State) : Option (Line × BitVec 16) × State :=
  let a := copyRead f 0 pos seq s
  let b := copyRead f 1 pos seq a.2
  earlyCopies f pos lln seq a.1 b.1 b.2

/-! ## Sources -/

/-- The line of a resolved place by its local sources, as ciphertext of the line. -/
def sourceRead (lln : Nat) (seq : BitVec 16) (w : Where) (s : State) : Option Line × State :=
  match w with
  | .zeros => (some (encLine s lln 0), s)
  | .fast f p => let r := fastRead f p lln none s; (r.1.map (fun e => e.1), r.2)
  | .patch f p => let r := fastRead f p lln (some seq) s; (r.1.map (fun e => e.1), r.2)
  | .dense b sl x => homeRead b sl x lln s
  | .unbacked | .span | .poison => (none, s)

/-- The sequence a patch line carries. -/
def patchSeq (p : Option PiEnt) : BitVec 16 := match p with | some q => q.seq.extractLsb' 0 16 | none => 0

/-- The committed line below the caches read: newest patch, else base. -/
def mediaRead (lln : Nat) (s : State) : Option Line × State :=
  let p := (piLookup s lln).1
  sourceRead lln (patchSeq p) (resolveEntry s lln (ftEntry s (lfnOf lln)) p) s

/-- The base of a frame read at a line: its entry resolved with no patch (R270). -/
def baseRead (lln : Nat) (e : BitVec 32) (s : State) : Option Line × State := sourceRead lln 0 (resolveEntry s lln e none) s

/-- A lookup of a line that meets an entry whose CHECK fails in its window: the record, and the frame marked for a rescan (R112). Whether
it did. -/
def checkMet (lln : Nat) (s : State) : Bool × State :=
  let s := piTouch lln s
  if (piLookup s lln).2 ∧ ftPatched (ftEntry s (lfnOf lln)) then
    (true, if s.xlat.rescanMarks.contains (lfnOf lln) then s else markRescan (lfnOf lln) (event { code := 0x0205, p0 := lln } s))
  else (false, s)

end Sys2Proof.Machine
end

