-- ==== Sys2Proof/Machine/Moves.lean ====
section
/-! DEFINITION. Frames that move into a fast set: the fill of an allocation, promotions, migrations and staging, position by position
(R117, R118, R275, R299, R331, R674). -/

namespace Sys2Proof.Machine

/-! ## The dirty lines of a frame -/

/-- The dirty region lines of a frame. -/
def frameDirty (s : State) (lfn : Nat) : List (Nat × DSlot) := s.cache.dirty.filter (fun e => lfnOf e.1 == lfn)

/-- Marks a dirty slot DRAINING. -/
def setDraining (lln : Nat) (s : State) : State := markSlot lln (fun d => { d with draining := true }) s

/-- The dirty lines of a frame marked DRAINING, or no longer. -/
def markDraining (lfn : Nat) (v : Bool) (s : State) : State :=
  ((frameDirty s lfn).map (fun e => e.1)).foldl (fun s l =>
    markSlot l (fun d => { d with draining := v, redirty := if v then d.redirty else false }) s) s

/-- The DRAINING lines of a frame clean, unless rewritten meanwhile (R203, R274, R674). -/
def drainedClean (lfn : Nat) (s : State) : State :=
  ((s.cache.dirty.filter (fun e => lfnOf e.1 == lfn && e.2.draining)).map (fun e => e.1)).foldl (fun s l => lineClean l s) s

/-- Entries of a frame's patches marked or unmarked INFLIGHT. -/
def markInflight (lfn : Nat) (v : Bool) (s : State) : State :=
  let f := fun e : PiEnt => if lfnOf e.lln.toNat == lfn && !foreignEnt s e then { e with inflight := v } else e
  { s with xlat := { s.xlat with pi := s.xlat.pi.map (fun e => (e.1, f e.2)), piOvf := s.xlat.piOvf.map f } }

/-! ## A move's position -/

/-- The move of a frame, and the move changed. -/
def moveOf (s : State) (lfn : Nat) : Option FastMove := s.mm.moves.find? (fun m => m.lfn == lfn)
def setMove (lfn : Nat) (f : FastMove → FastMove) (s : State) : State :=
  { s with mm := { s.mm with moves := s.mm.moves.map (fun m => if m.lfn = lfn then f m else m) } }
def endMove (lfn : Nat) (s : State) : State := { s with mm := { s.mm with moves := s.mm.moves.filter (fun m => m.lfn != lfn) } }

/-- The content of a line of a move: of a fill the dirty line, merged with zeros when Partial, its slot DRAINING, else zeros; of staging
the base; else the frame's committed line. A line no source gives is poison, made durable too (R270, R340, R341); none on a span member, which
has the span for it. -/
def moveSource (m : FastMove) (l : Nat) (s : State) : Option Line × State :=
  let lln := 65536 * m.lfn + l
  if m.kind = 0 then
    let (d, s) := slotRead lln s
    match d with
    | some d => (some (if d.partial_ then mergeLine s lln (encLine s lln 0) d.data d.mask else d.data), setDraining lln s)
    | none => (some (encLine s lln 0), s)
  else
    let r := if m.kind = 3 then baseRead lln (ftEntry s m.lfn) s else mediaRead lln s
    match r.1 with
    | some v => (some v, r.2)
    | none => if s.span.desc.isSome then (none, r.2) else (some poisonLine, poisonFind lln 0 0 r.2)

/-- Whether a move must wait for the rescan of its frame: the lookup of its next line meets an entry whose CHECK fails (R112). -/
def moveCheck (m : FastMove) (l : Nat) (s : State) : Bool × State :=
  if m.kind = 1 then checkMet (65536 * m.lfn + l) s else (false, s)

/-- A position programmed on every copy in service, both at once (R674). -/
def moveAsk (m : FastMove) (x : Nat) (data : MediaLine) (s : State) : State :=
  let s := flagMissed m.set s
  let a := copyUp s m.set 0
  let b := copyUp s m.set 1
  let s := setMove m.lfn (fun m => { m with at_ := x, data := data, waitA := a, waitB := b }) s
  let s := if a then askFastLine m.set 0 x data m.counted (.fill m.lfn 0) s else s
  if b then askFastLine m.set 1 x data m.counted (.fill m.lfn 1) s else s

/-! ## A move's end -/

/-- The entry of a move committed, its old place released (R117, R275, R299, R331). -/
def finishMove (m : FastMove) (s : State) : State :=
  let e := ftEntry s m.lfn
  let s := endMove m.lfn s
  let s := if m.kind = 0 then commitNow m.lfn (ftMake m.set 0 mFast false false false) s
    else if m.kind = 3 then
      commitAt m.lfn (ftMake m.set 31 mFolding (ftPatched e) false (ftHot e)) (sget 0 s.xlat.psnap m.lfn) s
    else commitNow m.lfn (ftMake m.set 0 mFast false (m.pin || ftPinned e) (ftHot e)) (dropPatches m.lfn s)
  let s := { s with mm := { s.mm with lastWrite := sput s.mm.lastWrite m.lfn s.time.ftime } }
  if m.kind = 0 then drainedClean m.lfn s
  else
    let s := releaseOld e (if m.kind = 2 then s else { s with mm := { s.mm with folds := satInc s.mm.folds } })
    match m.job with | some j => endJob j 0 s | none => s

/-- A move given up: its target set is free again and the frame as it was before (R121, R297). -/
def dropMove (m : FastMove) (s : State) : State :=
  let s := releaseSet m.set (endMove m.lfn s)
  let e := ftEntry s m.lfn
  if m.kind = 0 then markDraining m.lfn false s
  else if m.kind = 1 ∧ ftMode e = mFolding then
    commitQuiet m.lfn (ftMake (ftBand e) (ftSlot e) mDense (ftPatched e) false (ftHot e)) (markInflight m.lfn false s)
  else s

/-- The positions of a fast frame (R99, R674). -/
def framePositions : Nat := 65537

/-- A frame of a span member whose base a move cannot read: the move is given up and the frame goes Span-served (R83, R340). -/
def moveUnreadable (m : FastMove) (s : State) : State :=
  let e := ftEntry s m.lfn
  releaseOld e (commitNow m.lfn (ftMake 0 0 mSpanServed (ftPatched e || hasPatches s m.lfn) false false) (dropMove m s))

/-- The next position of a move programmed: its line, or zeros at the gap. -/
def moveNext (m : FastMove) (s : State) : State :=
  let on := fun (v : Line) (s : State) => moveAsk m m.pos (mediaLine v 0) (setMove m.lfn (fun m => { m with pos := m.pos + 1 }) s)
  match linePos (fsEntry s m.set) m.pos with
  | none => on 0 s
  | some l =>
    let c := moveCheck m l s
    if c.1 then c.2
    else
      let r := moveSource m l c.2
      match r.1 with
      | some v => on v r.2
      | none => moveUnreadable m r.2

/-- A line written elsewhere during a move programmed again, one version higher. -/
def moveLateLine (m : FastMove) (l : Nat) (ls : List Nat) (s : State) : State :=
  let c := moveCheck m l s
  if c.1 then c.2
  else
    let x := fastPos (fsEntry c.2 m.set) l
    let ver := versionOf c.2 m.set x + 1
    let r := moveSource m l (setMove m.lfn (fun m => { m with late := ls }) c.2)
    match r.1 with
    | some v => moveAsk m x (mediaLine v ver) { r.2 with xlat := { r.2.xlat with
        versions := sset 0 r.2.xlat.versions (65538 * m.set + x) ver } }
    | none => moveUnreadable m r.2

/-- The next thing a move does once its position is on every copy: the next position; then, pass by pass, the lines written elsewhere
meanwhile, one version higher; then its commit, once no drain of the frame runs and its record has a place (R275 steps 3 to 5, R279). -/
def moveStep (lfn : Nat) (s : State) : State :=
  match moveOf s lfn with
  | none => s
  | some m =>
    if m.waitA ∨ m.waitB ∨ s.xlat.restoring.contains lfn then s
    else if m.pos < framePositions then moveNext m s
    else
      match m.late with
      | l :: ls => moveLateLine m l ls s
      | [] => if s.mm.drains.any (fun d => lfnOf d.lln == lfn) ∨ !ckReady s then s else finishMove m s

/-- A move begun on a free set (R98, R275 step 1, R674). -/
def startMove (lfn f kind : Nat) (pin counted : Bool) (job : Option (BitVec 16)) (s : State) : State :=
  let (key, s) := drawBits 16 s
  let s := takeSet f useFrame lfn key.toNat s
  let m : FastMove := { lfn := lfn, set := f, kind := kind, pos := 0, pin := pin, job := job, counted := counted, at_ := 0, data := 0
                        waitA := false, waitB := false, late := [] }
  moveStep lfn { s with mm := { s.mm with moves := s.mm.moves ++ [m] } }

/-- Whether a move of a kind may take a free set now: a migration any, every other only one above the reserve (R119). -/
def mayTake (s : State) (kind : Nat) : Bool := kind == 2 || Nat.blt s.xlat.fastResMin.toNat (freeSets s)

/-- A move whose target set has no copy left starts again on another set, or ends. -/
def moveAgain (m : FastMove) (s : State) : State :=
  let s := dropMove m s
  match (if mayTake s m.kind then freeSet s else none) with
  | some f => startMove m.lfn f m.kind m.pin m.counted m.job s
  | none => match m.job with | some j => endJob j 0x0101 s | none => s

/-- A copy of a move's position is programmed: one line of wear (R292). -/
def moveDone (lfn copy : Nat) (s : State) : State :=
  match moveOf s lfn with
  | none => s
  | some m =>
    let s := wearBy m.set 1 s
    moveStep lfn (setMove lfn (fun m => if copy = 0 then { m with waitA := false } else { m with waitB := false }) s)

/-- A program of a move lost: asked again while the copy is in service; the other copy goes on alone, and with none the move starts again
(R103, R338). -/
def moveLost (lfn copy : Nat) (s : State) : State :=
  match moveOf s lfn with
  | none => s
  | some m =>
    if copyUp s m.set copy then askFastLine m.set copy m.at_ m.data m.counted (.fill lfn copy) s
    else if !copyUp s m.set (1 - copy) then moveAgain m s
    else moveStep lfn (setMove lfn (fun m => if copy = 0 then { m with waitA := false } else { m with waitB := false }) s)

/-- A line of a frame that moves was written where the frame lay before: the move writes it again (R275 step 4, R299). -/
def moveLate (lln : Nat) (s : State) : State :=
  moveStep (lfnOf lln) (setMove (lfnOf lln) (fun m =>
    if m.kind = 0 ∨ m.kind = 3 then m else { m with late := m.late.filter (fun l => l != lineOf lln) ++ [lineOf lln] }) s)

/-! ## Allocation on first write (R117, R118) -/

/-- Whether a frame's dirty lines leave by direct fold (R171), withheld while its Residency entry is being recounted (R212). -/
def directFold (s : State) (lfn : Nat) : Bool :=
  vcount s lfn == 65536 && Nat.ble 4096 (dcount s lfn) && !s.cache.frtBad.contains lfn

/-- A frame allocated by the first row of R117 that applies. A direct fold leaves it as it is until the fold commits, and so does a
fill; `counted` is that of the fill's transfers. -/
def allocate (lfn : Nat) (counted : Bool) (s : State) : State :=
  let s := residencyMeet lfn s
  if vcount s lfn = 65536 ∧ !s.cache.frtBad.contains lfn then makeDue lfn 1 0 true (writeBackFrame lfn s)
  else
    match (if s.span.desc.isNone ∧ mayTake s 0 then freeSet s else none) with
    | some f => startMove lfn f 0 false counted none s
    | none => if ckReady s then commitNow lfn (ftMake zeroHome 0 mDense false false false) s else s

end Sys2Proof.Machine
end

