-- ==== Sys2Proof/Machine/Drain.lean ====
section
/-! DEFINITION. Dirty lines on their way to media: patches, writes in place, gap moves, and their ends (R100 to R102, R109, R113, R158,
R171 to R173, R203, R295, R341). -/

namespace Sys2Proof.Machine

/-! ## A line made whole (R158) -/

/-- The dirty line made whole for media (R158): merged with its old value; none while a span member gets the old value
through the span, or while a lookup that meets a failing CHECK waits for the rescan (R112, R148); the whole line poisoned when no source
gives it. -/
def wholeLine (lln : Nat) (d : DSlot) (s : State) : Option Line × State :=
  if !d.partial_ then (some d.data, s)
  else
    let put := fun (v : Line) (s : State) => putSlot lln { d with data := v, partial_ := false, mask := BitVec.allOnes 64 } s
    let span := s.span.desc.isSome
    let c := checkMet lln s
    if c.1 then
      if !span then (none, c.2)
      else
        let b := baseRead lln (ftEntry c.2 (lfnOf lln)) c.2
        (none, mergeRead lln b.1.isNone false b.1 b.2)
    else
      let r := mediaRead lln c.2
      match r.1 with
      | some old => let v := mergeLine r.2 lln old d.data d.mask; (some v, put v r.2)
      | none =>
        if span then (none, mergeRead lln true (piLookup r.2 lln).1.isSome none r.2)
        else (some poisonLine, foundLost lln 0 0 (put poisonLine r.2))

/-! ## Drains (R102, R109, R171 to R173) -/

/-- The program of a drain's present stage asked: payload A, payload B, then for a patch directory A, directory B. -/
def askStage (d : Drain) (counted : Bool) (s : State) : State :=
  let copy := d.stage % 2
  if d.stage < 2 then
    let md := if d.fast then d.version else d.ctr.extractLsb' 0 16
    askFastLine d.set copy d.pos (mediaLine d.data md) counted (.drain d.lln) s
  else
    let k := segKey d.set (d.pos / 64)
    askFastLine d.set copy d.dirPos (mediaLine (dirLine s k (d.pos % 64)) 0x5044) counted (.drain d.lln) s

/-- A stage skipped while its copy is out of service (R103, R279). -/
def skipStages (s : State) (f : Nat) : Nat → Nat → Nat
  | 0, st => st
  | n + 1, st => if copyUp s f (st % 2) ∨ (st % 2 = 0 ∧ !copyUp s f 1) then st else skipStages s f n (st + 1)

/-- The stages of a drain: two copies of a line in place or moved, and for a patch two of its directory line. -/
def drainStages (d : Drain) : Nat := if d.fast then 2 else 4

/-- A drain listed and its first program asked. -/
def startDrain (d : Drain) (counted : Bool) (s : State) : State :=
  let s := flagMissed d.set s
  let d := { d with stage := skipStages s d.set 4 0 }
  askStage d counted (setDraining d.lln { s with mm := { s.mm with drains := s.mm.drains ++ [d] } })

/-- A dirty line as a patch (R109): the next counter, a payload line of the open segment. It stays in
the caches while the overflow table is full and the line needs a new entry (R113), or no fast set is free (R119). -/
def drainPatch (lln : Nat) (counted : Bool) (s : State) : State :=
  match sfind s.cache.dirty lln with
  | none => s
  | some d =>
    let s := piTouch lln s
    if (piLookup s lln).1.isNone ∧ !piRoom s lln then s
    else
      match openSegment s with
      | none => logPressure s
      | some (k, s) =>
        let w := wholeLine lln d s
        match w.1 with
        | none => w.2
        | some v =>
        let s := w.2
        let g := sget noSeg s.xlat.segs k
        let c := nextCtr s.xlat.patchCtr
        let s := { s with xlat := { s.xlat with patchCtr := c, segs := sput s.xlat.segs k { g with next := g.next + 1 } } }
        startDrain { lln := lln, fast := false, set := k / 1024, pos := 64 * (k % 1024) + g.next
                     dirPos := 64 * (k % 1024) + 56 + g.next / 8, ctr := c, version := 0, data := v, stage := 0, gap := false } counted s

/-- Whether a write of a set waits: the set's gap moves, or this write completes the ψ count while others of the set run (R100, R101). -/
def gapWaits (s : State) (f : Nat) : Bool :=
  let l := s.mm.drains.filter (fun d => d.fast && d.set == f)
  l != [] && (l.any Drain.gap || Nat.ble (psiOf s f) (fsWcount (fsEntry s f) + l.length + 1) ||
    Nat.ble (psiOf s f) (fsWcount (fsEntry s f) + l.length))

/-- A dirty line of a Fast frame in place, one version up (R102); it waits while its set's gap moves, so no write goes to a line that
moves (R101). -/
def drainFast (lln f : Nat) (counted : Bool) (s : State) : State :=
  if gapWaits s f then
    { s with mm := { s.mm with gapHeld := s.mm.gapHeld.filter (fun x => x.1 != lln) ++ [(lln, counted)] } }
  else
  match sfind s.cache.dirty lln with
  | none => s
  | some d =>
    let w := wholeLine lln d s
    match w.1 with
    | none => w.2
    | some v =>
    let s := w.2
    let pos := fastPos (fsEntry s f) (lineOf lln)
    startDrain { lln := lln, fast := true, set := f, pos := pos, dirPos := 0, ctr := 0, version := versionOf s f pos + 1
                 data := v, stage := 0, gap := false } counted s

/-- A dirty line leaves for media, by the MODE of its frame (R75, R117, R171, R172). It stays while its frame is being restored or has a
reserved MODE (R75, R82), while a read of it is in flight (R115, R116), while its HBM block is in copy (R214), while a fill writes its frame,
and while a move of its frame makes its last passes (R275, R674). -/
def drainLine (lln : Nat) (counted : Bool) (s : State) : State :=
  let lfn := lfnOf lln
  let moving := match moveOf s lfn with | some m => m.kind == 0 || Nat.ble framePositions m.pos | none => false
  if moving || s.media.mreads.any (fun r => r.lln == lln) || bulkWaits s lln then s
  else
  let s := match (ncWays s lln).find? (fun k => dirtyWay (ncWay s k)) with
    | some k => ncEvict k s
    | none => s
  let (d, s) := slotRead lln s
  match d with
  | none => s
  | some d =>
    if d.draining then s
    else
      let r := ftRead lfn s
      match r.1 with
      | none => r.2
      | some e =>
        let s := r.2
        let m := ftMode e
        if m = mFast then drainFast lln (ftBand e) counted s
        else if m = mDense ∨ m = mFolding ∨ m = mSpanServed then
          let s := residencyMeet lfn s
          if m ≠ mSpanServed ∧ directFold (writeBackFrame lfn s) lfn then makeDue lfn 1 0 true (writeBackFrame lfn s)
          else drainPatch lln counted s
        else if m = mUnmapped ∨ m = mDiscarded then
          let s := allocate lfn counted s
          if ftMode (ftEntry s lfn) = mDense then drainPatch lln counted s else s
        else s

/-! ## Gap moves (R100, R101, R295) -/

/-- Whether every copy in service holds the moved line at its new position. -/
def gapVerified (s : State) (d : Drain) : Bool :=
  [0, 1].all (fun c => !copyUp s d.set c || decodeCell (fastCell s d.set c d.pos) == some (line66 d.data d.version))

/-- The moved line is programmed and verified: the descriptor at the next GEN, then the table entry with WCOUNT 0, and the ψ in force from
here (R100, R101, R295). A move that does not verify is made again with the next write. -/
def gapCommit (d : Drain) (s : State) : State :=
  let f := d.set
  let e := fsEntry s f
  let s := wearBy f 2 s
  if !gapVerified s d then s
  else
    let s := { s with xlat := { s.xlat with
      versions := sset 0 s.xlat.versions (65538 * f + d.pos) d.version, psiAt := sput s.xlat.psiAt f s.xlat.psi } }
    descWrite f (fsSet f (gapMove e).2.2 s)

/-! ## Ends of drains (R102, R109, R172) -/

/-- A drain given up before its end: the line stays dirty, an orphan payload line is no patch (R109, R182). -/
def drainDrop (lln : Nat) (s : State) : State :=
  let s := { s with mm := { s.mm with drains := s.mm.drains.filter (fun x => x.lln != lln) } }
  markSlot lln (fun d => { d with draining := false, redirty := false }) s

/-- A fast write complete on both copies: version, wear, the frame's write count (R100); true when the count reaches ψ. -/
def fastDone (d : Drain) (s : State) : Bool × State :=
  let s := fsTouch d.set (wearBy d.set 2 { s with xlat := { s.xlat with
    versions := sset 0 s.xlat.versions (65538 * d.set + d.pos) d.version } })
  let e := fsEntry s d.set
  let n := fsWcount e + 1
  if psiOf s d.set ≤ n then (true, s)
  else (false, fsSet d.set (fsMake (fsGap e) (fsStart e) (fsKey e) n (fsUse e) (fsALost e) (fsBLost e)) s)

/-- A patch complete: PATCHED committed first, then the index entry, then the summary (R78, R109, R111, R113, R264). False when the line
must stay dirty: its entry is being restored, or the overflow table has filled meanwhile (R82, R113). -/
def patchDone (d : Drain) (s : State) : Bool × State :=
  let lfn := lfnOf d.lln
  let s := piTouch d.lln s
  let (old, bad) := piLookup s d.lln
  if s.xlat.restoring.contains lfn ∨ (old.isNone ∧ !piRoom s d.lln) then (false, s)
  else
    let e := ftEntry s lfn
    let s := if ftPatched e then s else commitQuiet lfn (e ||| 0x10000000) s
    let s := if bad then markRescan lfn (event { code := 0x0205, p0 := d.lln } s) else s
    let (ovf, s) := indexPatch ⟨BitVec.ofNat 40 d.lln, d.ctr.extractLsb' 0 24, BitVec.ofNat 19 d.set,
      BitVec.ofNat 10 (d.pos / 64), BitVec.ofNat 6 (d.pos % 64), true, false, false, false⟩ s.time.ftime s
    let s := fsumRefresh lfn s
    let n := (fsumOf s lfn).1
    let s := if ovf then makeDue lfn 1 0 false s else s
    let s := if 4096 ≤ n then makeDue lfn 3 (2 ^ 17 - n) false s else s
    (true, logPressure s)

/-- The lines that waited for a set's gap move offered again. -/
def gapRelease (s : State) : State :=
  let l := s.mm.gapHeld
  l.foldl (fun s x => drainLine x.1 x.2 s) { s with mm := { s.mm with gapHeld := [] } }

/-- A line's drain over: the line clean, what waited for it told. -/
def drainEnd (d : Drain) (s : State) : State :=
  let s := lineClean d.lln { s with mm := { s.mm with drains := s.mm.drains.filter (fun x => x.lln != d.lln) } }
  moveStep (lfnOf d.lln) (gapRelease s)

/-- The gap move that a completed ψ count runs: the moved line on its way to the gap on both copies (R100). A line that no local source gives
is poison, made durable too (R336, R340, R341); a span member recovers it first, and the move comes with a later write. -/
def gapStart (d : Drain) (s : State) : State :=
  let f := d.set
  let (src, dst, _) := gapMove (fsEntry s f)
  let lln := 65536 * (sget noDesc s.xlat.fdesc f).owner.toNat + (linePos (fsEntry s f) src).getD 0
  let ver := versionOf s f src
  let move := fun (v : Line × BitVec 16) (s : State) =>
    let d := { d with gap := true, pos := dst, data := v.1, version := v.2, stage := skipStages s f 2 0 }
    askStage d false { s with mm := { s.mm with drains := s.mm.drains.map (fun x => if x.lln = d.lln then d else x) } }
  let r := fastRead f src lln none s
  match r.1 with
  | some v => move v r.2
  | none =>
    if s.span.desc.isNone then move (poisonLine, ver + 1) (poisonFind lln 0 0 r.2)
    else drainEnd d (mergeRead lln true false none { r.2 with cache := { r.2.cache with
      lost := r.2.cache.lost.filter (fun l => l != lln) ++ [lln] } })

/-- The directory entry of a patch in its segment (R105). -/
def dirPut (d : Drain) (s : State) : State :=
  let k := 56 * segKey d.set (d.pos / 64) + d.pos % 64
  { s with xlat := { s.xlat with dirs := sput s.xlat.dirs k (dirEntry d) } }

/-- A drain at a stage: its program asked, or its end: a line in place, which may run the gap move; a moved line; a patch (R102, R109). -/
def drainTo (d : Drain) (n : Nat) (s : State) : State :=
  if n < drainStages d then
    let d' := { d with stage := n }
    askStage d' false { s with mm := { s.mm with drains := s.mm.drains.map (fun x => if x.lln = d.lln then d' else x) } }
  else if !d.fast then
    let (ok, s) := patchDone d s
    if ok then drainEnd d (moveLate d.lln s) else drainDrop d.lln s
  else if d.gap then drainEnd d (gapCommit d s)
  else
    let (full, s) := fastDone d s
    let s := moveLate d.lln s
    if full then gapStart d s else drainEnd d s

/-- PROG_DONE of a drain's stage: the next stage, or the line's end (R102, R109). The directory entry of a patch stands once a copy of its line
is programmed (R105). -/
def drainNext (lln : Nat) (s : State) : State :=
  match s.mm.drains.find? (fun d => d.lln == lln) with
  | none => s
  | some d =>
    let s := flagMissed d.set (if !d.fast ∧ 2 ≤ d.stage then dirPut d s else s)
    drainTo d (skipStages s d.set 4 (d.stage + 1)) s

/-- A drain's present stage asked again, skipping copies out of service; with no stage left the line ends (R103, R279). -/
def drainRetry (lln : Nat) (s : State) : State :=
  match s.mm.drains.find? (fun d => d.lln == lln) with
  | none => s
  | some d =>
    let s := flagMissed d.set s
    drainTo d (skipStages s d.set 4 d.stage) s

end Sys2Proof.Machine
end

