-- ==== Sys2Proof/Machine/Read.lean ====
section
/-! DEFINITION. The read path: the media back end, retries, reconstruction, and the answer to the host (R115, R123 to R152,
R195, R205 to R208, R334 to R344). -/

namespace Sys2Proof.Machine

/-! ## Answers (R59, R205, R339) -/

/-- How a read of the back end ends: a line, which fills the caches or not and came from media or not; a finding that no source recovers it, with its source of R508 and unit; or a
poisoned answer that is no finding (R340). -/
inductive ReadEnd where
  | good (v : Line) (fill media : Bool)
  | finding (src unit : Nat)
  | bad
  deriving DecidableEq, Repr

/-- The response of a host read: the line decrypted, or poisoned with data the manual leaves open. -/
def answerRead (id : Nat) (v : Option Line) (s : State) : State :=
  match s.host.reqs.find? (fun r => r.id == id) with
  | none => s
  | some q =>
    let lat := BitVec.ofNat 16 (min ((s.time.ftime.toNat - q.since.toNat) / 10) 0xFFFF)
    let s := updLoad { s with
      host := { s.host with reqs := s.host.reqs.filter (fun r => r.id != id) }
      rstat := { s.rstat with maxLat := if s.rstat.maxLat.toNat < lat.toNat then lat else s.rstat.maxLat } }
    match (v.filter (fun l => l != poisonLine && !(s.host.lds.getD q.ld {}).keyLost)) with
    | some l => send s (.memRead q.port q.ld q.tag (decLine s q.lln l) false (devLoad s))
    | none =>
      let (d, s) := drawBits 512 s
      send s (.memRead q.port q.ld q.tag d true (devLoad s))

/-- What the caches hold of a line laid over its old value, met with its checks (R210 to R212); a Partial line becomes whole where it is
held (R195). None when every copy of a dirty line failed on a span member, which recovers it. -/
def mergeHeld (lln : Nat) (v : Line) (s : State) : Option Line × State :=
  match heldValue s lln with
  | some w => (some w, s)
  | none =>
  let full := BitVec.allOnes 64
  let (d, s) := slotRead lln s
  let (v, s) := match d with
    | none => (v, s)
    | some d =>
      if !d.partial_ then (d.data, s)
      else
        let w := mergeLine s lln v d.data d.mask
        (w, putSlot lln { d with data := w, partial_ := false, mask := full, redirty := d.redirty || d.draining } s)
  let (h, s) := ncLook lln s
  match h with
  | .whole w => (some w, s)
  | .bytes w mask => let m := mergeLine s lln v w mask; (some m, ncWrite lln m full s)
  | .lost => (none, s)
  | .none => (if s.cache.lost.contains lln then none else some v, s)

/-- Whether a running invalidate covers a frame (R217). -/
def invalidating (s : State) (lfn : Nat) : Bool :=
  s.unit.running.any (fun j => match j.kind with
    | .flush _ inval scope => inval && scope.any (fun r => Nat.ble r.1 lfn && Nat.blt lfn (r.1 + r.2))
    | _ => false)

/-- Whether a line is answered poisoned: its pattern, or its LD's keys are lost (R205, R339). -/
def poisoned (s : State) (lln : Nat) (v : Line) : Bool :=
  v == poisonLine || (match ownerOf s (lfnOf lln) with | some i => (s.host.lds.getD i {}).keyLost | none => false)

/-- A line from media or the span fills the Near Cache and the page array (R205). -/
def fillLineRead (lln : Nat) (v : Line) (s : State) : State :=
  if poisoned s lln v ∨ invalidating s (lfnOf lln) ∨ isDirty s lln then s
  else pageFill lln v (ncFill lln v s)

/-- A prefetched line (R207, R208). -/
def fillPrefetch (lln : Nat) (v : Line) (s : State) : State :=
  if poisoned s lln v ∨ invalidating s (lfnOf lln) ∨ isDirty s lln then s
  else
    let s := if s.variant = .x4 then pageFill lln v s else sideFill lln v s
    { s with cache := { s.cache with prefetched := s.cache.prefetched.filter (fun l => l != lln) ++ [lln] } }

/-- A read whose dirty line proved lost while it was answered: it goes on through the outriders (R210, R212, R379). -/
def readAgain (r : MRead) (s : State) : State :=
  let lb := mediaValue s r.lln
  spanStart (some r.rid) r.lln 1 lb.isNone true true lb { s with media := { s.media with
    mreads := s.media.mreads ++ [{ r with loc := .fast 0 0 none, subs := [], got := [], around := true, spanWait := true, bound := 2 }] } }

/-- A host read that has its answer in the counters of R153, once. -/
def readCounted (r : MRead) (s : State) : State :=
  if r.host && !r.merge then { s with rstat := { s.rstat with
    boundB := if r.bound = 1 then satInc s.rstat.boundB else s.rstat.boundB
    boundC := if r.bound = 2 then satInc s.rstat.boundC else s.rstat.boundC
    retry := if r.retried then satInc s.rstat.retry else s.rstat.retry } } else s

/-- The end of a read of the back end. A line recovered for the caches is written there within the dirty budget (R54). -/
def finishRead (r : MRead) (res : ReadEnd) (s : State) : State :=
  let s := { s with
    media := { s.media with mreads := s.media.mreads.filter (fun x => x.rid != r.rid) }
    span := { s.span with reads := s.span.reads.filter (fun x => x.rid != some r.rid) } }
  let s := releaseDue s
  let seen := match s.host.reqs.find? (fun q => q.id == r.rid) with | some q => q.writeSeen | none => false
  let lostLine := s.cache.lost.contains r.lln
  let s := { s with cache := { s.cache with lost := if r.merge || (res != .bad && r.host) then s.cache.lost.filter (fun l => l != r.lln)
    else s.cache.lost } }
  match res with
  | .good v fill media =>
    if !r.host then fillPrefetch r.lln v s
    else
      let m := mergeHeld r.lln v s
      match m.1 with
      | none => readAgain r m.2
      | some w =>
        let s := readCounted r m.2
        let s := if lostLine ∧ !isDirty s r.lln then internalWrite r.lln w s
          else if fill ∧ !r.merge ∧ !seen ∧ !r.noFill then fillLineRead r.lln w s else s
        let s := if media ∧ !r.merge then { s with media := { s.media with prefetchDue := s.media.prefetchDue ++ [r.lln] } } else s
        answerRead r.rid (some w) s
  | .finding src unit =>
    if !r.host then s
    else
      let m := mergeHeld r.lln poisonLine s
      match m.1 with
      | none => readAgain r m.2
      | some w =>
        let s := readCounted r m.2
        let s := if w = poisonLine then poisonFind r.lln src unit s else s
        answerRead r.rid (some w) s
  | .bad => answerRead r.rid none (readCounted r s)

/-! ## Reads asked of members and copies (R134, R246, R303) -/

/-- A read record with nothing read yet. -/
def newRead (rid lln : Nat) (host : Bool) (loc : RLoc) (bound : Nat) : MRead :=
  { rid := rid, lln := lln, host := host, merge := false, loc := loc, subs := [], got := [], firstFail := [], windows := []
    missing := [], around := false, limit := 0, spanWait := false, spanFailed := false, susp := [], bound := bound
    retried := false, noFill := false }

/-- A shift as the REFSET argument holds it: 6 bits, signed. A sum beyond them is held at the field's end (DESIGN CHOICE, log entry 76). -/
def shift6 (v : Int) : BitVec 6 := BitVec.ofInt 6 (max (-32) (min 31 v))

/-- A read's line and whether the die of a location of it has been charged for it (R343). -/
def readFacts (s : State) (rid key : Nat) : Nat × Bool :=
  match s.media.mreads.find? (fun r => r.rid == rid) with
  | some r => (r.lln, r.charged.contains key)
  | none => (0, false)

/-- The die of a location of a read charged for it: no later read of the location charges it again (R343). -/
def markCharged (rid key : Nat) (s : State) : State :=
  let f := fun q : CRead => if q.purpose == .rd rid key then { q with charged := true } else q
  updRead rid (fun r => { r with charged := r.charged ++ [key] }) { s with media := { s.media with
    carters := s.media.carters.map (fun e => (e.1, { e.2 with reads := e.2.reads.map f, outst := e.2.outst.map (fun o => (o.1, f o.2)) })) } }

/-- A location's die charged for a read unless it has been (R343). -/
def chargeRead (rid key die : Nat) (s : State) : State :=
  if (readFacts s rid key).2 then s else markCharged rid key (charge die s)

/-- One read of a member of a band at a retry step. -/
def askMember (rid : Nat) (host : Bool) (b m x step : Nat) (s : State) : State :=
  let (ch, die) := memberAt s b m
  let ((slot, sh), s) := readRefs b ch die s
  let g := readFacts s rid m
  let s := updRead rid (fun r => { r with
    subs := sput r.subs m ⟨step, true⟩, retried := r.retried || Nat.blt 0 step }) s
  askRead ch { die := die, bank := bandBank b, block := bandBlock b, addr := x, host := host, step := step
               slot := BitVec.ofNat 2 slot, shift := shift6 (sh + retryOffset step), purpose := .rd rid m
               lln := (memberLln (bandOf s b) m x).getD g.1, charged := g.2 } s

/-- One read of a copy of a fast line at a retry step. -/
def askCopy (rid : Nat) (host : Bool) (f pos copy step : Nat) (s : State) : State :=
  let (ch, die, block, addr) := fastPlace s f copy pos
  let g := readFacts s rid copy
  let s := updRead rid (fun r => { r with
    subs := sput r.subs copy ⟨step, true⟩, retried := r.retried || Nat.blt 0 step }) s
  askRead ch { die := die, bank := 7, block := block, addr := addr, host := host, step := step
               slot := 0, shift := shift6 (retryOffset step), purpose := .rd rid copy, lln := g.1, charged := g.2 } s

/-- Whether a member's bank is in its window. -/
def memberWindow (s : State) (b m : Nat) : Bool := inWindow s (memberAt s b m).1 (memberAt s b m).2 (bandBank b)

/-! ## Dense reads (R136 to R139) -/

/-- The read-around begun (R137): every live member neither missing nor in a window, with retry step 1 on a home that
failed. A prefetch suspends nothing (R130). -/
def startAround (r : MRead) (b slot x : Nat) (s : State) : State :=
  let d := bandOf s b
  let h := slotMember d slot
  let missing := (liveOf d).filter (memberMissing s b)
  let windows := (liveOf d).filter (fun m => !missing.contains m && memberWindow s b m)
  let s := updRead r.rid (fun r => { r with around := true, missing := missing, windows := r.windows ++ windows.filter (fun m =>
    !r.windows.contains m) }) s
  let s := if r.host then suspendAll r.rid (bandPlaces s b) s else s
  let ms := (liveOf d).filter (fun m => m != h && !missing.contains m && !windows.contains m)
  let s := ms.foldl (fun s m => askMember r.rid r.host b m x 0 s) s
  if r.firstFail.contains h ∧ !missing.contains h then askMember r.rid r.host b h x 1 s else s

/-- The last resort of a device without span protection: a home that was in its window is read once the window has ended, however its
first read ended; an answer of it is within Bound C (R142, chain C3). -/
def homeAfter (rid : Nat) (host : Bool) (b h x : Nat) (s : State) : State :=
  match s.media.mreads.find? (fun r => r.rid == rid) with
  | none => s
  | some r =>
    let asked := match sfind r.subs h with | some u => u.open_ | none => false
    if r.windows.contains h ∧ !r.firstFail.contains h ∧ !asked ∧ !memberMissing s b h then
      askMember rid host b h x 0 (updRead rid (fun r => { r with bound := 2 }) s)
    else s

/-- The retries of the members whose first read failed, and the span or the last resort (R139, chain C3). The read is within Bound B while
3 or 4 members are missing for it and steps 1 and 2 answer it (R141). -/
def startBeyond (r : MRead) (b slot x : Nat) (s : State) : State :=
  let d := bandOf s b
  let h := slotMember d slot
  let span := s.span.desc.isSome
  let many := Nat.blt 4 (r.missing.length + r.firstFail.length)
  let s := updRead r.rid (fun r => { r with limit := if span then 2 else 6, bound := max r.bound (if many then 2 else 1) }) s
  let s := (r.firstFail.filter (fun m => m != h && !memberMissing s b m)).foldl (fun s m => askMember r.rid r.host b m x 1 s) s
  if span then spanStart (some r.rid) r.lln 1 true false false none (updRead r.rid (fun r => { r with spanWait := true }) s)
  else homeAfter r.rid r.host b h x s

/-- Whether the first pass of a read-around is complete: every member read once has answered. -/
def firstPassDone (r : MRead) (h : Nat) : Bool := !(r.subs.any (fun e => e.1 != h && e.2.open_ && e.2.step == 0))

/-- A prefetch that fails: dropped, its frame queued for scrub (R207). -/
def prefetchBad (r : MRead) (s : State) : State :=
  finishRead r .bad { s with mm := { s.mm with scrubDue := s.mm.scrubDue ++ [lfnOf r.lln] } }

/-- The bound that the members missing for a read-around place it in: Bound A up to 2, Bound B up to 4, else Bound C (R140 to R142,
R148). -/
def boundByQ (r : MRead) : Nat :=
  let q := r.missing.length + r.firstFail.length
  if !r.around then r.bound else max r.bound (if 4 < q then 2 else if 2 < q then 1 else 0)

/-- The next thing a dense read does after an answer. -/
def denseGo (r : MRead) (b slot x : Nat) (s : State) : State :=
  let d := bandOf s b
  let h := slotMember d slot
  match sfind r.got h with
  | some (l, _) => finishRead { r with bound := boundByQ r } (.good (payloadOf l) true true) s
  | none =>
    if !r.around then
      if r.subs.any (fun e => e.2.open_) then s
      else if r.host then startAround r b slot x s else prefetchBad r s
    else if !firstPassDone r h then s
    else
      let q := r.missing.length + r.firstFail.length
      let r := { r with bound := if 3 ≤ q then max r.bound 1 else r.bound }
      match (rebuild d (r.got.map (fun e => (e.1, e.2.1))) h).filter (fun e => metaOf e.1 == slotMeta d slot) with
      | some (l, fixed) =>
        let s := { s with
          lp := { s.lp with rebuild := satInc s.lp.rebuild }
          rstat := { s.rstat with around := if r.host then satInc s.rstat.around else s.rstat.around } }
        let s := if r.firstFail.contains h then chargeRead r.rid h (memberDie s b h) s else s
        let s := fixed.foldl (fun s m =>
          let g := (readFacts s r.rid m).2
          located b x g (if g then s else markCharged r.rid m s) m) s
        finishRead r (.good (payloadOf l) true true) s
      | none =>
        if !r.host then prefetchBad r s
        else if r.limit = 0 then startBeyond r b slot x s
        else if r.subs.any (fun e => e.2.open_) ∨ (r.spanWait ∧ !r.spanFailed) then
          updRead r.rid (fun x => { x with bound := r.bound }) s
        else finishRead { r with bound := 2 } (.finding (if r.spanWait then 2 else 0) (uDie (memberDie s b h))) s

/-! ## Fast and patch reads (R103, R145, R147, R334 to R337) -/

/-- Whether a copy can be read now (R103). -/
def copyFree (s : State) (f c : Nat) : Bool := copyUp s f c && !copyInWindow s f c

/-- The ladder of R147 begun on the copies in service, or the span. -/
def fastBeyond (r : MRead) (f pos : Nat) (seq : Option (BitVec 16)) (s : State) : State :=
  let s := updRead r.rid (fun r => { r with around := true, limit := 3, bound := 2 }) s
  if s.span.desc.isSome then
    let lb := if seq.isSome then baseLine s r.lln (ftEntry s (lfnOf r.lln)) else none
    spanStart (some r.rid) r.lln 1 lb.isNone seq.isSome seq.isSome lb
      (updRead r.rid (fun r => { r with spanWait := true }) s)
  else
    [0, 1].foldl (fun s c =>
      if copyUp s f c then askCopy r.rid r.host f pos c (if r.firstFail.contains c then 1 else 0) s else s) s

/-- Whether a read's line still lies where the read found it: a move or a gap move may have taken it elsewhere meanwhile (R101). -/
def stillThere (s : State) (lln f pos : Nat) (seq : Option (BitVec 16)) : Bool :=
  resolve s lln == (if seq.isSome then Where.patch f pos else Where.fast f pos)

/-- A read answered by the other copy counted (R153, R346). -/
def byOther (r : MRead) (s : State) : State :=
  { s with
    lp := { s.lp with rebuild := satInc s.lp.rebuild }
    rstat := { s.rstat with around := if r.host then satInc s.rstat.around else s.rstat.around } }

/-- Retry steps of both copies together, for copies that are not trusted: the next step, or poison after the last or when a copy has left
service (R336). -/
def tieStep (r : MRead) (f pos step : Nat) (s : State) : State :=
  if step < 4 ∧ copyUp s f 0 ∧ copyUp s f 1 then
    let s := updRead r.rid (fun r => { r with got := [], limit := 4 }) s
    [0, 1].foldl (fun s c => askCopy r.rid r.host f pos c step s) s
  else finishRead r (.finding 0 (uDie (copyDie s f 0))) s

/-- Two copies of a read that are not trusted: counted and charged, then a dirty value, or the retry steps from the first on (R335, R336,
R343). -/
def tieBegin (r : MRead) (f pos : Nat) (s : State) : State :=
  let s := [0, 1].foldl (fun s c => if r.charged.contains c then s else markCharged r.rid c s) (tieNoted f pos r.charged s)
  match dirtyValue s r.lln with
  | some v => finishRead r (.good v false false) s
  | none => tieStep r f pos 1 s

/-- The answer of the tie's retry steps: identical contents of both copies end it, written to both one version up (R336). -/
def tieGo (r : MRead) (f pos : Nat) (seq : Option (BitVec 16)) (s : State) : State :=
  let step := match sfind r.subs 0 with | some u => u.step | none => 3
  match sfind r.got 0, sfind r.got 1 with
  | some (x, _), some (y, _) =>
    if x = y then
      let s := if stillThere s r.lln f pos seq then tieStore f pos seq (payloadOf x) (metaOf x) s else s
      finishRead r (.good (payloadOf x) true true) s
    else tieStep r f pos (step + 1) s
  | _, _ => tieStep r f pos (step + 1) s

/-- The ladder's next steps of a fast read whose copies both failed: each copy in service goes on to step 3 (R147); two that decode are
compared (R335), one that decodes alone answers. -/
def fastLadder (r : MRead) (f pos : Nat) (seq : Option (BitVec 16)) (s : State) : State :=
  let more := fun c : Nat => (match sfind r.subs c with | some u => Nat.blt u.step 3 | none => false) &&
    (sfind r.got c).isNone && copyUp s f c
  let next := [0, 1].filter more
  if next ≠ [] then
    next.foldl (fun s c => askCopy r.rid r.host f pos c ((match sfind r.subs c with | some u => u.step | none => 0) + 1) s) s
  else
    let failed := fun (c : Nat) (s : State) => if r.firstFail.contains c then chargeRead r.rid c (copyDie s f c) s else s
    match sfind r.got 0, sfind r.got 1 with
    | some (x, _), some (y, _) =>
      (match mirrorValue seq x y with
        | some l =>
          let s := if stillThere s r.lln f pos seq then olderAgain f pos x y l s else s
          finishRead r (.good (payloadOf l) true true) (if l = x then s else byOther r s)
        | none => tieBegin r f pos s)
    | some (x, _), none => finishRead r (.good (payloadOf x) true true) (failed 1 s)
    | none, some (y, _) => finishRead r (.good (payloadOf y) true true) (byOther r (failed 0 s))
    | none, none => finishRead r (.finding 0 (uDie (copyDie s f 0))) s

/-- The next thing a fast read does after an answer. -/
def fastGo (r : MRead) (f pos : Nat) (seq : Option (BitVec 16)) (s : State) : State :=
  let opened := r.subs.any (fun e => e.2.open_)
  if !r.around then
    match r.got with
    | (c, (l, _)) :: _ =>
      let other := 1 - c
      let s := if r.firstFail.contains other ∨ c = 1 then byOther r s else s
      let s := if r.firstFail.contains other then chargeRead r.rid other (copyDie s f other) s else s
      finishRead r (.good (payloadOf l) true true) s
    | [] =>
      if opened then s
      else if !r.host then prefetchBad r s
      else
        match [0, 1].find? (fun c => (sfind r.subs c).isNone && copyFree s f c) with
        | some c => askCopy r.rid r.host f pos c 0 (suspendAll r.rid (setPlaces s f) s)
        | none => fastBeyond r f pos seq s
  else if r.spanWait then
    if r.spanFailed then finishRead r (.finding 2 (uDie (copyDie s f 0))) s else s
  else if opened then s
  else if r.limit = 4 then tieGo r f pos seq s
  else fastLadder r f pos seq s

/-- The read goes on by its kind. -/
def readGo (rid : Nat) (s : State) : State :=
  match s.media.mreads.find? (fun r => r.rid == rid) with
  | none => s
  | some r =>
    if r.merge then (if r.spanFailed then finishRead r (.finding 2 0) s else s)
    else match r.loc with
      | .dense b slot x => denseGo r b slot x s
      | .fast f pos seq => fastGo r f pos seq s

/-! ## Answers of the media (R135, R256, R319, R343) -/

/-- The outcome of one read of a location. -/
inductive LineRes where
  | good (l : Line66) (corrected : Nat)
  | failed
  | silent
  | denied
  deriving DecidableEq, Repr

/-- Whether a decoded line passes the test of its kind (R94, R318). -/
def lineTest (s : State) (loc : RLoc) (key : Nat) (l : Line66) : Bool :=
  match loc with
  | .dense b _ _ => memberGood (bandOf s b) key l
  | .fast _ _ (some q) => metaOf l == q
  | .fast _ _ none => true

/-- The die key of a location. -/
def locDie (s : State) (loc : RLoc) (key : Nat) : Nat :=
  match loc with
  | .dense b _ _ => memberDie s b key
  | .fast f _ _ => let a := fastAt s f; dieKey (if key = 0 then a.chA else a.chB) a.die

/-- A location's answer entered in its read: good lines kept, first failures counted, a failed retry followed by the next
step (R134), then the read goes on. -/
def readLineRes (rid key step : Nat) (res : LineRes) (s : State) : State :=
  match s.media.mreads.find? (fun r => r.rid == rid) with
  | none => s
  | some r =>
    let die := locDie s r.loc key
    let close := fun (s : State) => updRead rid (fun r => { r with subs := sput r.subs key ⟨step, false⟩ }) s
    let ok := match res with | .good l c => if lineTest s r.loc key l then some (l, c) else none | _ => none
    match ok with
    | some (l, c) =>
      let s := close (updRead rid (fun r => { r with got := sput r.got key (l, step) }) s)
      let lln := match r.loc with
        | .dense b _ x => (memberLln (bandOf s b) key x).getD r.lln
        | .fast .. => r.lln
      let s := if step ≠ 0 then chargeRead rid key die (retryNoted die lln step s)
        else if 8 ≤ c then chargeRead rid key die (dieCount 0 die s) else s
      readGo rid s
    | none =>
      if res = .denied then
        let s := close (updRead rid (fun r => { r with windows := if r.windows.contains key then r.windows else r.windows ++ [key] }) s)
        let s := match r.loc with
          | .dense b slot x =>
            let h := slotMember (bandOf s b) slot
            if key = h ∧ r.limit = 6 then homeAfter rid r.host b h x s else s
          | .fast .. => s
        readGo rid s
      else
        let s := close s
        let s := if step = 0 then
            let s := updRead rid (fun r => { r with firstFail := r.firstFail ++ [key] }) s
            if res = .silent then s
            else
              let s := dieCount 1 die s
              match r.loc with
              | .dense b _ x => countBlockMark (memberBlock s b key) 0 x s
              | .fast .. => s
          else s
        let s := match r.loc with
          | .dense b slot x =>
            let h := slotMember (bandOf s b) slot
            let lim := if key = h then 6 else r.limit
            if r.host ∧ r.around ∧ step < lim ∧ !memberMissing s b key then
              askMember rid r.host b key x (step + 1) (if r.limit ≠ 0 ∧ 2 ≤ step then updRead rid (fun r => { r with bound := 2 }) s else s)
            else s
          | .fast .. => s
        readGo rid s

/-! ## A read of the back end begun (R75, R82, R112, R125, R145 to R148) -/

/-- A read listed and its first location read. A prefetch whose home bank or both of whose copies' banks are in a window is given up (R207;
DESIGN CHOICE, log entry 77); one whose home is missing is rebuilt like any read. -/
def beginAt (r : MRead) (s : State) : State :=
  let s := { s with media := { s.media with mreads := s.media.mreads ++ [r] } }
  match r.loc with
  | .dense b slot x =>
    let h := slotMember (bandOf s b) slot
    if memberMissing s b h then startAround r b slot x s
    else if memberWindow s b h then
      if r.host then startAround r b slot x s else finishRead r .bad s
    else
      let (ch, die) := memberAt s b h
      let s := if r.host ∧ (isBusy s ch die (bandBank b) ∨ (cartOf s ch).suspended.contains (die, bandBank b)) then
          suspendAll r.rid (bandPlaces s b) s else s
      askMember r.rid r.host b h x 0 s
  | .fast f pos seq =>
    let s := fsTouch f s
    match [0, 1].find? (copyFree s f) with
    | some c =>
      let (ch, die, _, _) := fastPlace s f c pos
      let s := if r.host ∧ (isBusy s ch die 7 ∨ (cartOf s ch).suspended.contains (die, 7)) then suspendAll r.rid (setPlaces s f) s else s
      askCopy r.rid r.host f pos c 0 s
    | none => if r.host then fastBeyond r f pos seq s else finishRead r .bad s

/-- A read served by the span alone. -/
def beginSpan (r : MRead) (base record must : Bool) (lb : Option Line) (s : State) : State :=
  let r := { r with spanWait := true, bound := 2, merge := r.merge }
  let s := { s with media := { s.media with mreads := s.media.mreads ++ [{ r with loc := .fast 0 0 none, around := true }] } }
  spanStart (some r.rid) r.lln 1 base record must lb s

/-- The back end reads a line that no cache holds whole. -/
def beginRead (rid lln : Nat) (host : Bool) (s : State) : State :=
  let lfn := lfnOf lln
  let reload := sget FtErr.none s.xlat.ftErr lfn = .uncorrectable
  let (e, s) := ftRead lfn s
  let r := newRead rid lln host (.dense 0 0 0) (if reload then 1 else 0)
  match e with
  | none => finishRead { r with bound := 2 } .bad s
  | some e =>
    let s := piTouch lln s
    let (p, bad) := piLookup s lln
    let span := s.span.desc.isSome
    if bad ∧ ftPatched e then
      let s := markRescan lfn (event { code := 0x0205, p0 := lln } s)
      if !host then finishRead r .bad s
      else if span then
        let lb := baseLine s lln e
        beginSpan r lb.isNone true false lb s
      else finishRead r .bad s
    else
      match (if ftMode e = mSpanServed then (match p with
          | some q => Where.patch q.set.toNat (64 * q.segment.toNat + q.line.toNat)
          | none => .span) else resolveEntry s lln e p) with
      | .zeros => finishRead r (.good (encLine s lln 0) false false) s
      | .unbacked => finishRead r .bad s
      | .poison => finishRead r .bad (event { code := 0x0207, p0 := lfn, p1 := 1 } s)
      | .span => if host then beginSpan r true true false none s else finishRead r .bad s
      | .fast f pos => beginAt { r with loc := .fast f pos none } s
      | .patch f pos =>
        beginAt { r with loc := .fast f pos (some ((p.map (fun q => q.seq.extractLsb' 0 16)).getD 0)) } s
      | .dense b sl x => beginAt { r with loc := .dense b sl x } s

/-- Span recoveries and reads that have all they wait for: a recovery with its value ends its read, one without a source
leaves the read to its other sources, and a read with nothing left to wait for ends. -/
def settleReads (s : State) : State :=
  let s := s.span.reads.foldl (fun s q =>
    match q.rid with
    | none => s
    | some rid =>
      match s.media.mreads.find? (fun r => r.rid == rid) with
      | none => { s with span := { s.span with reads := s.span.reads.filter (fun x => x.tag != q.tag) } }
      | some r =>
        match spanResult s q with
        | .value v => finishRead { r with bound := 2 } (.good v true false) s
        | .noSource => updRead rid (fun r => { r with spanFailed := true })
            { s with span := { s.span with reads := s.span.reads.filter (fun x => x.tag != q.tag) } }
        | .wait => s) s
  s.media.mreads.foldl (fun s r =>
    if r.host && r.around && !r.subs.any (fun e => e.2.open_) && (!r.spanWait || r.spanFailed) then readGo r.rid s
    else if r.merge && r.spanFailed then readGo r.rid s else s) s

/-- A prefetch after a read answered from media (R207 to R209). A line held Partial, or being read already, counts as held: no prefetch of
it is issued (DESIGN CHOICE, log entry 77). -/
def prefetchAfter (lln : Nat) (s : State) : State :=
  let n := lln + 1
  let m := ftMode (ftEntry s (lfnOf lln))
  if !s.cache.prefetchEn ∨ lineOf lln = 65535 ∨ s.tt.current = 0 ∨ !(m == mDense || m == mFast || m == mFolding) ∨
      !(ncWays s n).isEmpty ∨ pageValid s n ∨ (sfind s.cache.dirty n).isSome ∨ s.cache.side.any (fun e => e.1 == n) ∨
      s.media.mreads.any (fun r => r.lln == n) then s
  else
    match resolve s n with
    | .zeros | .unbacked | .span | .poison => s
    | _ => beginRead s.host.nextReq n false { s with host := { s.host with nextReq := s.host.nextReq + 1 } }

/-- The prefetches that the reads answered from media call for. -/
def pumpPrefetch (s : State) : State :=
  let l := s.media.prefetchDue
  l.foldl (fun s n => prefetchAfter n s) { s with media := { s.media with prefetchDue := [] } }

/-- The held writes that have room now put into the caches; in write-through mode each leaves for media at once (R54, R176). -/
def pumpHeld (s : State) : State :=
  s.cache.heldWrites.foldl (fun s e =>
    if !hasRoom s e.1 then s
    else
      let s := releaseHeld e.1 s
      if s.write.through then drainLine e.1 true s else s) s

/-- What follows every change of the read path and the media work: frames whose dirty tags are lost, lost lines asked for, reads settled,
prefetches, held writes, flush jobs whose lines are gone, queued bits of the dirty frame map, the sequencers' next decisions. -/
def mediaNext (s : State) : State :=
  let s := flushJobs none (completeThrough (pumpHeld (mapSync s)))
  let s := if s.cache.tagLost = [] then s else tagsLost s
  pump (pumpPrefetch (times 3 settleReads (if s.cache.lost = [] then s else recoverLost s)))

end Sys2Proof.Machine
end

