-- ==== Sys2Proof/Machine/Fold.lean ====
section
/-! DEFINITION. Folds: the choice of frames and bands, what a band's pages hold, the programs and read-backs, the commit, and
abandoned targets (R264 to R276, R286, R291, R312, R371, R375). -/

namespace Sys2Proof.Machine

/-! ## Due frames in order (R264, R287) -/

/-- The order of due frames: priority, the key of the priority, the oldest. Priority 8 moves ahead of 3 to 7 while the clear
pool is below 1,024 bands (R287). -/
def dueBefore (low : Bool) (a b : Due) : Bool :=
  let p := fun d : Due => if low ∧ d.prio = 8 then 5 else 2 * d.prio
  if p a ≠ p b then Nat.blt (p a) (p b)
  else if a.key ≠ b.key then Nat.blt a.key b.key
  else Nat.ble a.since.toNat b.since.toNat

/-- Bands in the clear pool (R313): dense bands of the variant neither listed in another class nor unlisted ones missing. -/
def clearPool (s : State) : Nat := 21504 * nChannels s - s.mm.bands.countP (fun e => e.2.cls != .clear)

/-- Bands open now. -/
def openBands (s : State) : Nat := s.mm.bands.countP (fun e => e.2.cls == .open_)

/-- The holding with a whole delta for a parity frame, not yet staged (R373). -/
def deltaReady (s : State) (lfn : Nat) : Option Holding :=
  s.span.holdings.find? (fun h => h.lfn == lfn && !h.staged && h.chunks.length == 64)

/-- Whether a rebuilt frame's 65,536 base lines are here, and for a Span-served frame its 65,536 present lines (R392, R393);
the base of a line is kept under its LLN, the present line under 2⁴¹ more. -/
def rebuilt (s : State) (lfn : Nat) : Bool :=
  let n := if ftMode (ftEntry s lfn) = mSpanServed then 131072 else 65536
  s.span.parityLines.countP (fun e => e.1 % 2 ^ 41 / 65536 == lfn) == n

/-- Whether a frame's due fold re-folds it from a degraded band while the clear pool is below MM_RECLAIM.LOW: it waits (R332). -/
def refoldHeld (s : State) (d : Due) : Bool :=
  let e := ftEntry s d.lfn
  d.prio == 5 && Nat.blt (clearPool s) s.mm.reclaimLow.toNat && ftMode e == mDense && ftBand e != zeroHome &&
    !(missingOf s (ftBand e)).isEmpty

/-- Whether a due frame has a fold: its MODE has one, and it is in no batch or move. A pinned fast frame has none but to lose the lines that an
incomplete flush lost (R603). -/
def dueCan (s : State) (d : Due) : Bool :=
  let e := ftEntry s d.lfn
  let m := ftMode e
  (m == mDense || (m == mFolding && ftSlot e == 31) || m == mFast || m == mParity ||
      (m == mSpanServed && rebuilt s d.lfn) || (d.direct && (m == mUnmapped || m == mDiscarded))) &&
    !(m == mFast && ftPinned e && !s.start.mapLost.contains d.lfn) &&
    !s.xlat.restoring.contains d.lfn &&
    !(s.mm.batches.any (fun b => b.slots.any (fun x => x.lfn == d.lfn))) &&
    !(s.mm.moves.any (fun x => x.lfn == d.lfn)) &&
    (!d.direct || directFold s d.lfn) && !refoldHeld s d

/-- Whether a due frame can join a batch now: no patch of it waits for its index entry (R269), and on a span member its dirty lines have
become patches (R375). -/
def dueReady (s : State) (d : Due) : Bool :=
  dueCan s d && !(s.mm.drains.any (fun x => lfnOf x.lln == d.lfn)) &&
    !(s.span.desc.isSome && !d.direct && ftMode (ftEntry s d.lfn) == mDense && (dirtyLlns s).any (fun l => lfnOf l == d.lfn))

/-- Two lists taken turn by turn. -/
def alternate {α : Type} : List α → List α → List α
  | [], bs => bs
  | a :: as, bs => a :: (match bs with
    | [] => as
    | b :: bs => b :: alternate as bs)

/-- The due frames that can join a batch, in order, those of a batch that restarts apart. Below 1,024 clear bands the frames of reclaim
alternate with the direct folds that nothing else of priorities 1 and 2 waits behind (R287). -/
def readyDues (s : State) : List Due :=
  let low := Nat.blt (clearPool s) 1024
  let l := (s.mm.due.filter (fun d => dueReady s d && !s.mm.restart.any (fun r => r.2.contains d.lfn))).mergeSort (dueBefore low)
  if !low then l
  else
    let first := l.filter (fun d => Nat.ble d.prio 2)
    let folds := (first.reverse.takeWhile Due.direct).reverse
    first.take (first.length - folds.length) ++ alternate folds (l.filter (fun d => d.prio == 8)) ++
      l.filter (fun d => Nat.blt 2 d.prio && d.prio != 8)

/-! ## The choice of a band (R267, R268, R290, R329, R330) -/

/-- Whether a block can be in a new band: no unit of it out of service, its die not Degraded, not marked bad (R268, R329). -/
def blockUsable (s : State) (b m : Nat) : Bool :=
  let p := memberAt s b m
  !placeOut s p.1 p.2 (bandBank b) && !removalOut s p.1 p.2 (bandBank b) && !s.mm.bad.contains (memberBlock s b m) &&
    ownState s (uDie (dieKey p.1 p.2)) != .degraded

/-- The live members a new band would have. -/
def usableMembers (s : State) (b : Nat) : List Nat := (List.range 32).filter (blockUsable s b)

/-- Whether a bank group holds a live band with 4 or more missing members (R330). -/
def groupBlocked (s : State) (g : Nat) : Bool :=
  (liveBands s).any (fun b => bandGroup b == g && Nat.ble 4 (missingOf s b).length)

/-- Whether a block can be used by a band as it is (R290): its stamp fits, and it took part in the band's last Clear (R325). -/
def stampFits (s : State) (b m : Nat) : Bool :=
  let t := stampOf s (memberBlock s b m)
  t.valid && !t.fast && t.stamp.extractLsb' 0 20 == BitVec.ofNat 20 b && !(bandOf s b).failed.getLsbD m

/-- The highest member CCOUNT of a band. -/
def topCcount (s : State) (b : Nat) : Nat :=
  (List.range 32).foldl (fun a m => max a (stampOf s (memberBlock s b m)).ccount.toNat) 0

/-- The bands never used that some kept stamp belongs to. -/
def stampedBands (s : State) : List Nat :=
  dedup ((s.media.stamps.filterMap (fun (e : Nat × Stamp) =>
    if e.1 / 8192 % 8 = 7 then none else some (bandAt s (e.1 / 65536 % 16) (e.1 / 8192 % 8) (e.1 % 8192)))).filter (fun b =>
      (sfind s.mm.bands b).isNone && isDenseBand s b))

/-- Whether a band can be opened (R267, R268, R330, R421). -/
def bandOpens (s : State) (b : Nat) : Bool :=
  Nat.ble 28 (usableMembers s b).length && !groupBlocked s (bandGroup b) &&
    Nat.blt (s.mm.bands.countP (fun e => e.2.cls == .open_ && bandDie e.1 == bandDie b)) 6 &&
    (usableMembers s b).all (stampFits s b)

/-- The bands looked at: the listed clear bands, those never used that a kept stamp belongs to, and of each dense bank group the first of
the others, none of whose blocks was ever Cleared, that opens. -/
def bandCandidates (s : State) : List Nat :=
  let kept := stampedBands s
  (s.mm.bands.filter (fun e => e.2.cls == .clear && isDenseBand s e.1)).map (fun e => e.1) ++ kept ++
  (List.range (nChannels s / 2)).flatMap (fun d => (List.range 7).filterMap (fun k =>
    firstFrom (fun b => (sfind s.mm.bands b).isNone && !kept.contains b && bandOpens s b) 6144 (49152 * d + 6144 * k)))

/-- The clear band with the lowest highest member CCOUNT, lowest number first. -/
def chooseBand (s : State) : Option Nat :=
  if 96 ≤ openBands s then none
  else ((bandCandidates s).filter (bandOpens s)).foldl (fun a b => match a with
    | none => some b
    | some c => if topCcount s b < topCcount s c ∨ (topCcount s b = topCcount s c ∧ b < c) then some b else some c) none

/-! ## Slots (R269, R270, R274, R276, R375) -/

/-- The patches of a frame with their lines: 65,538 × set + position. -/
def framePatches (s : State) (lfn : Nat) : SMap Nat :=
  let mine := (s.xlat.pi.filter (fun e => e.2.valid && !e.2.tomb && lfnOf e.2.lln.toNat == lfn && !foreignEnt s e.2)).map (fun e => e.2) ++
    s.xlat.piOvf.filter (fun e => e.valid && lfnOf e.lln.toNat == lfn && !foreignEnt s e)
  mine.foldl (fun m e =>
    sput m (lineOf e.lln.toNat) (65538 * e.set.toNat + 64 * e.segment.toNat + e.line.toNat)) []

/-- The lines of a frame valid in the Bulk Cache (R274): dirty ones, the bytes of a Partial one laid over its page line, and page lines. -/
def bulkSnapshot (s : State) (lfn : Nat) : SMap Line :=
  (List.range 65536).filterMap (fun l =>
    let lln := 65536 * lfn + l
    let page := sfind s.cache.pageData lln
    match sfind s.cache.dirty lln with
    | some d => if d.partial_ then page.map (fun v => (l, mergeLine s lln v d.data d.mask)) else some (l, d.data)
    | none => page.map (fun v => (l, v)))

/-- A parity line of a frame by its entry: zeros where none was ever built (R390). -/
def parityContent (s : State) (lfn l : Nat) (e : BitVec 32) : Option Line :=
  if ftBand e = zeroHome then some 0
  else baseLine s (65536 * lfn + l) (ftMake (ftBand e) (ftSlot e) mDense false false false)

/-- The parity that a delta gives (R373): p ⊕ c · δ, line by line; `unreadable` lines are seen before a delta is staged. -/
def stagedParity (s : State) (h : Holding) : SMap Line :=
  let i := (stripeRole s h.lfn (ownIndex s)).2
  let e := ftEntry s h.lfn
  (List.range 65536).map (fun l =>
    (l, (parityContent s h.lfn l e).getD 0 ^^^ scaleLine (cauchy i h.t) ((sget [] h.chunks (l / 1024)).getD (l % 1024) 0)))

/-- The HBM units of a frame's Bulk Cache lines met before a direct fold takes them (R211, R212). -/
def frameMeet (lfn : Nat) (s : State) : State :=
  s.cache.hbmErr.foldl (fun s e => match e.unit with
    | .slotLine l | .slotTag l | .slotCopy l => if lfnOf l = lfn then (slotRead l s).2 else s
    | .pageLine l => if lfnOf l = lfn then (pageRead l s).2 else s
    | .pageTag k =>
      if (sget noPage s.cache.pages k).page / 1024 ≠ lfn then s
      else
        let r := hbmMeet (.pageTag k) s
        if r.1 then pageDrop k r.2 else r.2
    | _ => s) s

/-- A frame entered in a batch (R269): PSNAP, its patches INFLIGHT, MODE Folding; a direct fold's snapshot too, its frame's dirty lines
written back from the Near Cache first (R204, R274). -/
def enterFrame (d : Due) (s : State) : FoldSlot × State :=
  let e := ftEntry s d.lfn
  let rs := (List.range s.span.streams.length).map (fun i => (i, (s.span.streams.getD i newStream).rnum))
  let base : FoldSlot := { lfn := d.lfn, src := .entry e, prev := e, psnap := s.xlat.patchCtr, rsnaps := rs, incl := [], snap := []
                           phase := .none, holders := [], replied := [], aborted := false }
  if d.direct then
    let s := frameMeet d.lfn (writeBackFrame d.lfn s)
    let f := { base with src := .direct, snap := bulkSnapshot s d.lfn }
    let s := markInflight d.lfn true (markDraining d.lfn true s)
    if ftMode e = mDense then
      let e' := ftMake (ftBand e) (ftSlot e) mFolding (ftPatched e) false (ftHot e)
      ({ f with prev := e' }, commitQuiet d.lfn e' s)
    else (f, s)
  else if ftMode e = mParity then
    (match deltaReady s d.lfn with
    | some h => ({ base with src := .parity true, snap := stagedParity s h }, s)
    | none =>
      if rebuilt s d.lfn then
        ({ base with src := .parity false, snap := s.span.parityLines.filterMap (fun x =>
            if x.1 / 65536 = d.lfn then some (x.1 % 65536, x.2) else none) }, s)
      else (base, s))
  else if ftMode e = mSpanServed then
    let s := markInflight d.lfn true s
    ({ base with
        src := .recon, incl := framePatches s d.lfn, rsnaps := sget rs s.span.rebuildSnap d.lfn
        snap := s.span.parityLines.filterMap (fun x =>
          if x.1 % 2 ^ 41 / 65536 = d.lfn then some (if x.1 < 2 ^ 41 then (65536 + x.1 % 65536, x.2) else (x.1 % 65536, x.2))
          else none) |> fun l => l.mergeSort (fun a b => Nat.ble a.1 b.1) }, s)
  else
    let s := markInflight d.lfn true s
    let e' := if ftMode e = mFast then ftMake (ftBand e) 31 mFolding (ftPatched e) false (ftHot e)
      else if ftMode e = mFolding then e
      else ftMake (ftBand e) (ftSlot e) mFolding (ftPatched e) false (ftHot e)
    ({ base with src := .entry e', prev := e', incl := framePatches s d.lfn }, commitQuiet d.lfn e' s)

/-- Whether a slot's line is one that an incomplete flush lost, and so unreadable (R603). -/
def lostInFlush (s : State) (sl : FoldSlot) (l : Nat) : Bool :=
  s.start.mapLost.contains sl.lfn && !s.power.flushLines.any (fun x => x.1 == 65536 * sl.lfn + l)

/-- The sequence that an included patch carries. -/
def inclSeq (s : State) (loc : Nat) : BitVec 16 :=
  (dirAt s (segKey (loc / 65538) (loc % 65538 / 64)) (loc % 65538 % 64)).extractLsb' 40 16

/-- The payload of line L of a slot by all its local sources: the newest included patch, else the source (R270). -/
def slotSource (sl : FoldSlot) (l : Nat) (s : State) : Option Line × State :=
  let lln := 65536 * sl.lfn + l
  if lostInFlush s sl l then (none, s)
  else
    match sfind sl.incl l with
    | some loc =>
      let r := fastRead (loc / 65538) (loc % 65538) lln (some (inclSeq s loc)) s
      (r.1.map (fun e => e.1), r.2)
    | none =>
      match sl.src with
      | .entry e =>
        if ftMode e = mParity then
          if ftBand e = zeroHome then (some 0, s) else homeRead (ftBand e) (ftSlot e) (64 + l) lln s
        else baseRead lln e s
      | .direct | .recon | .parity _ => (sfind sl.snap l, s)
      | .zero _ => (some 0, s)

/-- The payload of line L of a slot as its sources stand, with no retry: what a peer is served before the band is verified (R381). -/
def slotLine (s : State) (sl : FoldSlot) (l : Nat) : Option Line :=
  if lostInFlush s sl l then none
  else
    match sfind sl.incl l with
    | some loc => (fastPayload s (loc / 65538) (loc % 65538) (some (inclSeq s loc))).map (fun r => r.1)
    | none =>
      match sl.src with
      | .entry e => if ftMode e = mParity then parityContent s sl.lfn l e else baseLine s (65536 * sl.lfn + l) e
      | .direct | .recon | .parity _ => sfind sl.snap l
      | .zero _ => some 0

/-- The new content of a slot's line: from its verified band, as written; before that, from its sources. -/
def slotNew (s : State) (sl : FoldSlot) (l : Nat) : Option Line :=
  match s.mm.batches.find? (fun g => g.verified && Nat.blt g.band (2 ^ 20) && g.slots.any (fun y => y.lfn == sl.lfn && !y.aborted)) with
  | some g => densePayload s g.band ((g.slots.findIdx? (fun y => y.lfn == sl.lfn && !y.aborted)).getD 0) (64 + l)
  | none => slotLine s sl l

/-! ## Pages (R89 to R93, R266, R271, R272, R305, R320) -/

/-- The map entry of a slot: its LFN and KIND, 0xFF for an empty one, whose LFN[23:0] the table does not give: 0 here (R91; DESIGN CHOICE,
log entry 97). -/
def mapEntry (s : State) (sl : FoldSlot) : BitVec 32 :=
  if sl.aborted then 0xFF000000 else BitVec.ofNat 32 (sl.lfn + (if ftMode (ftEntry s sl.lfn) = mParity then 2 ^ 24 else 0))

/-- A slot changed in its batch. -/
def setSlot (b lfn : Nat) (f : FoldSlot → FoldSlot) (s : State) : State :=
  { s with mm := { s.mm with batches := s.mm.batches.map (fun g => if g.band = b then
      { g with slots := g.slots.map (fun y => if y.lfn = lfn then f y else y) } else g) } }

/-- A parity frame to be built again from its stripes' data (R390, R392). -/
def markRebuild (lfn : Nat) (s : State) : State :=
  if s.span.rebuildMarks.contains lfn then s
  else { s with span := { s.span with rebuildMarks := s.span.rebuildMarks ++ [lfn] } }

/-- A line of a slot that no local source gives (R270, R340): on a device without span protection poison, made durable; on a span member the
slot is given up, its frame Span-served, or for a parity frame marked for rebuild (R83). -/
def slotLost (b : Nat) (sl : FoldSlot) (l : Nat) (s : State) : State :=
  if s.span.desc.isNone then poisonFind (65536 * sl.lfn + l) 0 0 s
  else
    let e := ftEntry s sl.lfn
    let s := setSlot b sl.lfn (fun y => { y with aborted := true }) s
    if ftMode e = mParity then markRebuild sl.lfn s
    else releaseOld sl.prev (commitNow sl.lfn (ftMake 0 0 mSpanServed (hasPatches s sl.lfn) false false) (markInflight sl.lfn false s))

/-- The 66 bytes of a data slot at an offset; an empty slot holds zeros (R266), a lost line the poison pattern. -/
def slotLine66 (b slot x : Nat) (s : State) : Line66 × State :=
  let md := slotMeta (bandOf s b) slot
  match (s.mm.batches.find? (fun g => g.band == b)).bind (fun g => g.slots[slot]?) with
  | none => (line66 0 md, s)
  | some sl =>
    if sl.aborted then (line66 0 md, s)
    else
      let r := slotSource sl (x - 64) s
      match r.1 with
      | some v => (line66 v md, r.2)
      | none => (line66 poisonLine md, slotLost b sl (x - 64) r.2)

/-- A data slot's line at an offset, added to a row. -/
def rowLine (b x : Nat) (c : List Line66 × State) (sl : Nat) : List Line66 × State :=
  let r := slotLine66 b sl x c.2
  (c.1 ++ [r.1], r.2)

/-- The data slots' lines at an offset, added to a page's rows. -/
def pageRow (b p : Nat) (a : List (List Line66) × State) (i : Nat) : List (List Line66) × State :=
  let r := (List.range ((bandOf a.2 b).width - 4)).foldl (rowLine b (64 * p + i)) ([], a.2)
  (a.1 ++ [r.1], r.2)

/-- The data slots' lines of a page, offset by offset, read once for all members, so that the code lines are those of the data
programmed (R272). -/
def pageLines (b p : Nat) (s : State) : List (List Line66) × State :=
  match s.mm.batches.find? (fun g => g.band == b) with
  | none => ([], s)
  | some f =>
    match sfind f.pages p with
    | some v => (v, s)
    | none =>
      let r := (List.range 64).foldl (pageRow b p) ([], s)
      (r.1, { r.2 with mm := { r.2.mm with batches := r.2.mm.batches.map (fun g => if g.band = b then
        { g with pages := sput g.pages p r.1 } else g) } })

/-- The line of a member given the data slots' lines at its offset. -/
def bandLine (d : Band) (row : List Line66) (m : Nat) : MediaLine :=
  let r := roleOf d m
  if !r.1 then bchEncode (row.getD r.2 0) else bchEncode ((rsEncode row).getD r.2 0)

/-- A page's program asked of its member (R272, R423). A header page takes its bursts as its program starts (R271). -/
def askPage (b m p : Nat) (s : State) : State :=
  let a := memberAt s b m
  let (ls, s) := if p = 0 then ([], s) else pageLines b p s
  let bursts := if p = 0 then [] else linesBursts (fun i => bandLine (bandOf s b) (ls.getD i []) m)
  askProg a.1 { die := a.2, bank := bandBank b, block := bandBlock b, addr := p, clear := false, fast := false
                counted := true, bursts := bursts, purpose := .page b m p, phase := .busy, tag := 0, heldSince := 0 } s

/-! ## Opening (R266, R271) -/

/-- A batch opened on a band: the open record, the slots, the map, the header pages (R269, R271). -/
def openOn (b : Nat) (dues : List Due) (abandons : Nat) (s : State) : State :=
  let live := usableMembers s b
  let n := live.length
  let dues := dues.take (n - 4)
  let taken := dues.map Due.lfn
  let (slots, s) := dues.foldl (fun (a : List FoldSlot × State) d =>
    let (x, s) := enterFrame d a.2
    (a.1 ++ [x], s)) ([], { s with mm := { s.mm with due := s.mm.due.filter (fun d => !taken.contains d.lfn) } })
  let (cs, s) := ckRecord ckOpen b 0 0 s
  let f : FoldBatch := { band := b, slots := slots, members := live.map (fun m => (m, ({ page := 0, reading := [] } : MemberProg)))
                         abandons := abandons, dues := dues, verified := false, seq := cs }
  let map := (List.range 28).map (fun i => if n - 4 ≤ i then (0xFFFFFFFF : BitVec 32) else match slots[i]? with
    | some sl => mapEntry s sl
    | none => 0xFF000000)
  let s := setBand b (fun d => { d with
    cls := .open_, width := n, live := BitVec.ofNat 32 (live.foldl (fun a m => a + 2 ^ m) 0)
    rot := b % n, slots := map, foldSeq := cs, failed := 0, cleared := 0, thisOn := true, verified := false, ptemps := [] }) s
  let s := { s with mm := { s.mm with batches := s.mm.batches ++ [f] } }
  let s := live.foldl (fun s m => askPage b m 0 s) s
  if s.span.desc.isNone then s
  else f.slots.foldl (fun s sl =>
    match (if ftMode (ftEntry s sl.lfn) = mParity then none else (liveHolders s sl.lfn).head?) with
    | none => s
    | some h =>
      let s := { s with mm := { s.mm with batches := s.mm.batches.map (fun g => if g.band = b then { g with
        slots := g.slots.map (fun y => if y.lfn = sl.lfn then { y with phase := .requested } else y) } else g) } }
      peerSend h (.deltaChunk 0 sl.lfn (stripeRole s sl.lfn (ownIndex s)).2 cs) s) s

/-- The dirty lines of the direct folds' frames written back and met, so that the counts are those of the cache (R204). -/
def meetDirect (s : State) : State := (s.mm.due.filter Due.direct).foldl (fun s d => frameMeet d.lfn (writeBackFrame d.lfn s)) s

/-- The batches of abandoned targets started again on another clear band, once no patch of their frames waits for its index entry (R269,
R312); a frame that no longer has a fold is left to the due ones. -/
def pumpRestart (s : State) : State :=
  s.mm.restart.foldl (fun s r =>
    let dues := s.mm.due.filter (fun d => r.2.contains d.lfn && dueCan s d)
    let drop := fun s : State => { s with mm := { s.mm with restart := s.mm.restart.filter (fun x => x != r) } }
    if dues = [] then drop s
    else if !ckReady s ∨ !dues.all (dueReady s) then s
    else match chooseBand s with
      | some b => openOn b dues r.1 (drop s)
      | none => s) (if s.mm.restart = [] then s else meetDirect s)

/-- A batch opened when a clear band and a due frame are there (R266, R287, R333). -/
def openBatch (s : State) : State :=
  let s := meetDirect (pumpRestart s)
  match readyDues s with
  | [] => s
  | ds =>
    if !ckReady s then s
    else
      match chooseBand s with
      | none => s
      | some b => openOn b ds 0 s

/-! ## Abandoned targets (R291, R312) -/

/-- A frame of an abandoned or dropped slot back at its source: MODE as before, Dense, or Fast for a demotion, marks cleared; a staged frame
of a span member stays as it is (R83, R331), and so does a demotion whose writes have become patches, which stay valid (R276; DEDUCED, log
entry 98). A delta in progress is aborted (R374). -/
def leaveSlot (sl : FoldSlot) (seq : BitVec 48) (s : State) : State :=
  let s := if sl.phase = .none ∨ sl.phase = .committed ∨ sl.phase = .ended ∨ sl.phase = .done then s
    else (liveHolders s sl.lfn).foldl (fun s h =>
      peerSend h (.deltaChunk 4 sl.lfn (stripeRole s sl.lfn (ownIndex s)).2 seq) s) s
  if sl.aborted then s
  else
    let s := markInflight sl.lfn false (if sl.src = .direct then markDraining sl.lfn false s else s)
    let e := ftEntry s sl.lfn
    if ftMode e = mFolding ∧ ftSlot e ≠ 31 then
      commitQuiet sl.lfn (ftMake (ftBand e) (ftSlot e) mDense (ftPatched e) false (ftHot e)) s
    else if ftMode e = mFolding ∧ ftSlot e = 31 ∧ s.span.desc.isNone ∧ !hasPatches s sl.lfn then
      commitQuiet sl.lfn (ftMake (ftBand e) 0 mFast (ftPatched e) false (ftHot e)) s
    else s

/-- The programs and reads of a band's members withdrawn: queued ones dropped, running ones given up with PABORT. -/
def withdrawBand (b : Nat) (s : State) : State :=
  (List.range (nChannels s)).foldl (fun s ch =>
    let mine := fun p : CProg => match p.purpose with | .page x _ _ => x == b | _ => false
    let rb := fun r : CRead => match r.purpose with | .readback x _ _ => x == b | _ => false
    let run := (cartOf s ch).running.filter mine
    let s := if (cartOf s ch).progs.any mine ∨ (cartOf s ch).reads.any rb then setCart ch (fun c => { c with
        progs := c.progs.filter (fun p => !mine p), reads := c.reads.filter (fun r => !rb r) }) s else s
    run.foldl (fun s p => if p.phase = .finishing then s else sendPkt ch 0x14 p.die p.bank 0 0 127 0 s) s) s

/-- A target abandoned before any commit record (R312): its band dead, the failing block marked for causes 0 to 2, the batch
restarted on another clear band, or its frames due again. -/
def abandonBatch (f : FoldBatch) (cause : Nat) (blk : Option Nat) (s : State) : State :=
  let s := { s with mm := { s.mm with batches := s.mm.batches.filter (fun g => g.band != f.band) } }
  let s := f.slots.foldl (fun s sl => leaveSlot sl f.seq s) s
  let s := withdrawBand f.band s
  let s := setBand f.band (fun d => { d with cls := .dead, cleared := 0 }) s
  let n := f.abandons + 1
  let bank := bankKey (memberAt s f.band 0).1 (memberAt s f.band 0).2 (bandBank f.band)
  let unit := match blk with | some k => uBank (k / 8192) | none => uBank bank
  let s := { s with mm := { s.mm with abandon := satInc s.mm.abandon } }
  let s := event { code := 0x0209, unit := unit, p0 := f.band, p1 := cause, sev := if 3 ≤ n then some 3 else none } s
  let s := match blk with | some k => if cause ≤ 2 then markBad k 0 s else s | none => s
  let dues := f.dues.filter (fun d => f.slots.any (fun sl => sl.lfn == d.lfn && !sl.aborted))
  if dues = [] then s
  else
    pumpRestart { s with mm := { s.mm with
      due := s.mm.due.filter (fun d => !dues.any (fun x => x.lfn == d.lfn)) ++ dues
      restart := s.mm.restart ++ [(n, dues.map Due.lfn)] } }

/-! ## The commit (R78, R114, R273, R280, R286) -/

/-- The included patches of a frame tombstoned, unless a newer one has replaced them (R114); PSNAP voids every one at or below
it for a direct fold. Answers how many patches are left. -/
def foldPatches (sl : FoldSlot) (s : State) : Nat × State :=
  let gone := fun e : PiEnt => e.valid && lfnOf e.lln.toNat == sl.lfn &&
    (if sl.src = .direct ∨ sl.src = .recon then Nat.ble (piCtr s e) sl.psnap.toNat
     else sget 0 sl.incl (lineOf e.lln.toNat) == 65538 * e.set.toNat + 64 * e.segment.toNat + e.line.toNat &&
       (sfind sl.incl (lineOf e.lln.toNat)).isSome)
  let s := markInflight sl.lfn false (unindex gone s)
  (s.xlat.pi.countP (fun e => e.2.valid && lfnOf e.2.lln.toNat == sl.lfn && !foreignEnt s e.2) +
    s.xlat.piOvf.countP (fun e => lfnOf e.lln.toNat == sl.lfn && !foreignEnt s e), s)

/-- A rebuilt frame committed: its mark and the lines kept for it go; a parity frame keeps its place among the rebuilds until
its admission is given back. -/
def rebuildDone (lfn : Nat) (s : State) : State :=
  { s with span := { s.span with
    rebuildMarks := s.span.rebuildMarks.filter (fun l => l != lfn)
    rebuildSnap := if parityLfn s lfn then s.span.rebuildSnap else sdel s.span.rebuildSnap lfn
    parityLines := s.span.parityLines.filter (fun e => e.1 % 2 ^ 41 / 65536 != lfn) } }

/-- A frame's poison records removed. -/
def dropPoison (lfn : Nat) (s : State) : State :=
  { s with host := { s.host with lds := s.host.lds.map (fun d =>
      { d with poison := d.poison.filter (fun p => lfnOf p.1 != lfn), unlisted := d.unlisted.filter (fun l => lfnOf l != lfn) }) } }

/-- Steps 4 and 5 for one slot: the record, the entry, its patches, its counts (R273). -/
def commitSlot (b slot : Nat) (sl : FoldSlot) (s : State) : State :=
  let e := ftEntry s sl.lfn
  match sl.src with
  | .zero mode =>
    commitNow sl.lfn (ftMake 0 0 mode false false false) (dropPatches sl.lfn (dropFrame sl.lfn (dropPoison sl.lfn s)))
  | _ =>
  if ftMode e = mParity then
    let s := commitAt sl.lfn (ftMake b slot mParity false false false) sl.psnap s
    rebuildDone sl.lfn { s with mm := { s.mm with folds := satInc s.mm.folds } }
  else
    let (n, s1) := foldPatches sl s
    let s := commitAt sl.lfn (ftMake b slot mDense (n ≠ 0) false (ftHot e)) sl.psnap s1
    let s := fsumRefresh sl.lfn { s with
      mm := { s.mm with folds := satInc s.mm.folds }
      start := { s.start with mapLost := s.start.mapLost.filter (fun x => x != sl.lfn) } }
    if sl.src = .direct then drainedClean sl.lfn s else if sl.src = .recon then rebuildDone sl.lfn s else s

/-- PATCH_RELEASE of some lines to every outrider, at each stream's RSNAP. -/
def sendRelease (rsnaps : List (Nat × BitVec 48)) (llns : List Nat) (s : State) : State :=
  if llns = [] then s
  else (List.range s.span.outr.length).foldl (fun s i =>
    match s.span.outr[i]?, rsnaps.find? (fun r => r.1 == i) with
    | some r, some q => peerSend r (.patchRelease q.2 llns) s
    | _, _ => s) s

/-- PATCH_RELEASE to every outrider (R371 D6, R375): the frame's LLNs with included patches or snapshot lines. -/
def releaseRecords (sl : FoldSlot) (s : State) : State :=
  let llns := (if sl.src = .direct ∨ sl.src = .recon then (sl.snap.map (fun e => e.1)).filter (fun l => Nat.blt l 65536)
    else sl.incl.map (fun e => e.1)).map (fun l => 65536 * sl.lfn + l)
  sendRelease sl.rsnaps llns s

/-- A frame committed with no live holder of its stripe: its release waits until the stripe's parity is rebuilt (R374). -/
def withhold (sl : FoldSlot) (s : State) : State :=
  if s.span.desc.isNone ∨ isParitySrc sl.src ∨ s.span.outr = [] then s
  else
    let llns := (if sl.src = .direct ∨ sl.src = .recon then (sl.snap.map (fun e => e.1)).filter (fun l => Nat.blt l 65536)
      else sl.incl.map (fun e => e.1)).map (fun l => 65536 * sl.lfn + l)
    { s with span := { s.span with withheld := s.span.withheld ++ [(sl.lfn, sl.rsnaps, llns)] } }
where
  isParitySrc : FoldSrc → Bool
    | .parity _ => true
    | .entry e => ftMode e == mParity
    | _ => false

/-- The base of a data frame as the span counts it: zeros for a zero home (R358). -/
def spanBase (s : State) (lfn l : Nat) (e : BitVec 32) : Option Line :=
  let m := ftMode e
  if m = mUnmapped ∨ m = mDiscarded ∨ (ftBand e = zeroHome ∧ (m = mDense ∨ m = mFolding) ∧ ftSlot e ≠ 31) then some 0
  else baseLine s (65536 * lfn + l) e

/-- One chunk of a delta sent: 1,024 of the frame's lines (R371). -/
def sendChunk (lfn t : Nat) (seq : BitVec 48) (delta : Nat → Line) (h : Nat) (s : State) (c : Nat) : State :=
  peerSend h (.deltaData lfn t seq c ((List.range 1024).map (fun i => delta (1024 * c + i)))) s

/-- The bytes of a delta counted for a holder's pacing (R427). -/
def countDelta (s : State) (h : Nat) : State :=
  { s with span := { s.span with dataSent := sset 0 s.span.dataSent h (sget 0 s.span.dataSent h + deltaBytes) } }

/-- D2: the delta in 64 chunks to every live holder (R371). -/
def sendDelta (b : Nat) (seq : BitVec 48) (sl : FoldSlot) (s : State) : State :=
  let t := (stripeRole s sl.lfn (ownIndex s)).2
  let hs := liveHolders s sl.lfn
  let old := fun l => match sl.src with
    | .recon => sfind sl.snap (65536 + l)
    | .entry e => spanBase s sl.lfn l e
    | _ => spanBase s sl.lfn l sl.prev
  let delta := fun l => (old l).getD 0 ^^^ (slotNew s sl l).getD poisonLine
  let s := hs.foldl countDelta s
  let s := setSlot b sl.lfn (fun y => { y with holders := hs, replied := [], phase := .admitted }) s
  hs.foldl (fun s h => (List.range 64).foldl (sendChunk sl.lfn t seq delta h) s) s

/-- The batch closed once every slot has left it: the band is written. -/
def closeIfDone (b : Nat) (s : State) : State :=
  match s.mm.batches.find? (fun g => g.band == b) with
  | none => s
  | some g =>
    if 2 ^ 20 ≤ b then
      if g.slots.all (fun y => y.aborted || y.phase == .done) then
        { s with mm := { s.mm with batches := s.mm.batches.filter (fun h => h.band != b) } }
      else s
    else if g.verified ∧ g.slots.all (fun y => y.aborted || y.phase == .done) then
      let s := { s with mm := { s.mm with batches := s.mm.batches.filter (fun h => h.band != b) } }
      if liveCount s b = 0 then setBand b (fun d => { d with cls := .dead, cleared := 0 }) s
      else setBand b (fun d => { d with cls := .written }) s
    else s

/-- A slot that stages a parity delta (R373). -/
def isDelta : FoldSrc → Bool
  | .parity d => d
  | _ => false

/-- The holding a staged parity slot serves. -/
def holdingOf (s : State) (lfn : Nat) : Option Holding := s.span.holdings.find? (fun h => h.lfn == lfn && !h.chunks.isEmpty)

/-- The number of records the device holds live for a ward, by the ward's pool index (R364, R369). -/
def liveRecords (s : State) (pool : Nat) : Nat :=
  match s.span.wards.find? (fun w => w.pool == pool) with | some w => w.records.length | none => 0

/-- A slot of a zero fold. -/
def isZero : FoldSrc → Bool
  | .zero _ => true
  | _ => false

/-- DELTA_ACK of a delta to its data member. -/
def ackDelta (code : Nat) (h : Holding) (s : State) : State :=
  peerSend h.member (.deltaAck code h.lfn h.foldSeq 0 (liveRecords s (memberPool s h.member))) s

/-- A verified band's slots taken as far as they go: on a device without span protection every commit at once, in slot order;
on a span member by the delta steps (R273, R371). A stripe with no live holder skips D1 to D5 and its release (R374). -/
def advanceBatch (b : Nat) (s : State) : State :=
  match s.mm.batches.find? (fun g => g.band == b) with
  | none => s
  | some g =>
    if !g.verified then s
    else
      let s := (List.range g.slots.length).foldl (fun s i =>
        match ((s.mm.batches.find? (fun h => h.band == b)).bind (fun h => h.slots[i]?)) with
        | none => s
        | some sl =>
          if sl.aborted ∨ sl.phase = .done ∨ sl.phase = .committed ∨ sl.phase = .ended ∨ !ckReady s then s
          else if s.xlat.restoring.contains sl.lfn ∨ (ftMode (ftEntry s sl.lfn) = mSpanServed ∧ sl.src ≠ .recon ∧ !isZero sl.src) then
            -- no commit but the restoration's (R82), and none but the rebuild's of a Span-served frame (R83)
            setSlot b sl.lfn (fun y => { y with aborted := true }) (leaveSlot sl g.seq s)
          else if isDelta sl.src then
            if sl.phase = .none then
              match holdingOf s sl.lfn with
              | some h =>
                let s := setSlot b sl.lfn (fun y => { y with phase := .staged }) s
                ackDelta 2 h { s with span := { s.span with
                  holdings := s.span.holdings.map (fun x => if x = h then { x with staged := true } else x) } }
              | none => setSlot b sl.lfn (fun y => { y with aborted := true }) s
            else s
          else if s.span.desc.isNone ∨ ((liveHolders s sl.lfn).isEmpty ∧ sl.phase = .none) ∨
              ftMode (ftEntry s sl.lfn) = mParity then
            withhold sl (releaseOld sl.prev (commitSlot b i sl (setSlot b sl.lfn (fun y => { y with phase := .done }) s)))
          else if sl.phase = .admitted ∧ sl.holders = [] ∧ heavyNow s (liveHolders s sl.lfn) ∧ (liveHolders s sl.lfn).all (dataRoom s) then sendDelta b g.seq sl s
          else if sl.phase = .staged then
            let s := setSlot b sl.lfn (fun y => { y with phase := .committed, replied := [] })
              (match sl.src with | .zero _ => s | _ => commitSlot b i sl s)
            sl.holders.foldl (fun s h =>
              peerSend h (.deltaChunk 2 sl.lfn (stripeRole s sl.lfn (ownIndex s)).2 g.seq) s) s
          else s) s
      closeIfDone b s

/-! ## Read-backs (R272) -/

/-- The offsets read back after a page. -/
def readBackOffsets (p : Nat) : List Nat :=
  if p = 0 then [0, 1, 2, 32, 33, 34] else [64 * p, 64 * p + 16, 64 * p + 32, 64 * p + 48]

/-- A member's progress changed; the lines of pages that every member has behind it are no longer kept. -/
def setMember (b m : Nat) (v : MemberProg) (s : State) : State :=
  { s with mm := { s.mm with batches := s.mm.batches.map (fun g => if g.band = b then
      let ms := sput g.members m v
      { g with members := ms, pages := g.pages.filter (fun p => ms.any (fun e => Nat.ble e.2.page p.1)) } else g) } }

/-- A read-back of a member's line asked, at the base references (R272). -/
def askReadback (b m x : Nat) (s : State) : State :=
  let (ch, die) := memberAt s b m
  let ((slot, sh), s) := readRefs b ch die s
  askRead ch { die := die, bank := bandBank b, block := bandBlock b, addr := x, host := false, step := 0
               slot := BitVec.ofNat 2 slot, shift := shift6 sh, purpose := .readback b m x } s

/-- PROG_DONE of a page: its read-backs asked. -/
def pageDone (b m p : Nat) (s : State) : State :=
  if !s.mm.batches.any (fun g => g.band == b) then s
  else
    let hdr := match (s.mm.batches.find? (fun g => g.band == b)).bind (fun g => sfind g.members m) with | some v => v.hdr | none => []
    (readBackOffsets p).foldl (fun s x => askReadback b m x s) (setMember b m { page := p, reading := readBackOffsets p, hdr := hdr } s)

/-- Whether a header line passes its CRC (R91, R92): a descriptor its own, the band map's two lines theirs once both are read; `seen` are the
header lines read before it. -/
def headerGood (seen : SMap Line) (x : Nat) (l : Line66) : Bool :=
  let w := fun (n : Nat) (v : Line) => (List.range n).map (fun i => (lineByte v i).toNat)
  let crc := fun v : Line => (v.extractLsb' 480 32).toNat
  let map := fun a b : Line => crc32c (w 64 a ++ w 60 b) == crc b
  let v := payloadOf l
  metaOf l == 0x4844 &&
    (if x % 32 = 0 then crc32c (w 60 v) == crc v
     else if x % 32 = 1 then (match sfind seen (x + 1) with | some u => map v u | none => true)
     else if x % 32 = 2 then (match sfind seen (x - 1) with | some u => map u v | none => true)
     else true)

/-- Whether a read-back line passes (R272): it decodes and passes R94, or a header line its CRC. -/
def readBackGood (s : State) (p : MemberProg) (b m x : Nat) (l : Option Line66) : Bool :=
  match l with
  | none => false
  | some l => if 64 ≤ x then memberGood (bandOf s b) m l else headerGood p.hdr x l

/-- A page of a member verified: the next one, page 1 once page 0 is verified on every member (R273), or the member complete. -/
def pageVerified (b m : Nat) (p : MemberProg) (s : State) : State :=
  if p.page < 1024 then
    let s := setMember b m { page := p.page + 1, reading := [] } s
    if p.page ≠ 0 then askPage b m (p.page + 1) s
    else
      match s.mm.batches.find? (fun g => g.band == b) with
      | some g => if g.members.all (fun e => Nat.ble 1 e.2.page) then g.members.foldl (fun s e => askPage b e.1 1 s) s else s
      | none => s
  else
    let s := { s with mm := { s.mm with batches := s.mm.batches.map (fun g => if g.band = b then
      let ms := sdel g.members m
      { g with members := ms, verified := ms.isEmpty, pages := if ms.isEmpty then [] else g.pages } else g) } }
    let whole := s.mm.batches.any (fun g => g.band == b && g.verified)
    advanceBatch b (setBand b (fun d => { d with verified := d.verified || whole }) s)

/-- A read-back answered: the page verified when its last line is good; a failed one abandons the target (R312). -/
def readBackRes (b m x : Nat) (l : Option Line66) (s : State) : State :=
  match s.mm.batches.find? (fun g => g.band == b) with
  | none => s
  | some f =>
    match sfind f.members m with
    | none => s
    | some p =>
      if !readBackGood s p b m x l then abandonBatch f 1 (some (memberBlock s b m)) s
      else
        let p := { p with reading := p.reading.filter (fun y => y != x)
                          hdr := match l with | some l => if 64 ≤ x then p.hdr else sput p.hdr x (payloadOf l) | none => p.hdr }
        let s := setMember b m p s
        if p.reading ≠ [] then s else pageVerified b m p s

/-! ## Frames given up: release, discard, erase (R49 to R51, R121, R297, R376) -/

/-- Any fold, move or drain of a frame abandoned: its target slot is dead, its target set free, its job over with STATE. -/
def abandonFrame (lfn : Nat) (s : State) : State :=
  let s := s.mm.batches.foldl (fun s f =>
    match f.slots.find? (fun sl => sl.lfn == lfn && !sl.aborted && sl.phase != .committed && sl.phase != .ended && sl.phase != .done) with
    | some sl => closeIfDone f.band (setSlot f.band lfn (fun y => { y with aborted := true }) (leaveSlot sl f.seq s))
    | none => s) s
  let s := (s.mm.moves.filter (fun m => m.lfn == lfn)).foldl (fun s m =>
    match m.job with | some j => endJob j 0x0101 (dropMove m s) | none => dropMove m s) s
  let gone := (s.mm.drains.filter (fun d => lfnOf d.lln == lfn)).map (fun d => d.lln)
  gone.foldl (fun s l => drainDrop l s) { s with mm := { s.mm with due := s.mm.due.filter (fun d => d.lfn != lfn) } }

/-- A zero fold begun on a span member (R376): the old base shipped as the delta, the new MODE committed after it. -/
def zeroFold (lfn mode : Nat) (s : State) : State :=
  let e := ftEntry s lfn
  let b := 2 ^ 20 + lfn
  let sl : FoldSlot := { lfn := lfn, src := .zero mode, prev := e, psnap := s.xlat.patchCtr, rsnaps := [], incl := [], snap := []
                         phase := .none, holders := [], replied := [], aborted := false }
  let f : FoldBatch := { band := b, slots := [sl], members := [], abandons := 0, dues := []
                         verified := true, seq := s.mm.cseq }
  let s := { s with mm := { s.mm with batches := s.mm.batches ++ [f] } }
  match liveHolders s lfn with
  | [] => advanceBatch b s
  | h :: _ => peerSend h (.deltaChunk 0 lfn (stripeRole s lfn (ownIndex s)).2 f.seq) (setSlot b lfn (fun y =>
      { y with phase := .requested }) s)

/-- A frame emptied to a MODE (R49, R121, R376): at once, or on a span member by a zero fold when its base is not zeros. -/
def emptyFrame (lfn mode : Nat) (s : State) : State :=
  let s := abandonFrame lfn s
  let e := ftEntry s lfn
  let m := ftMode e
  if s.span.desc.isSome ∧ (m = mDense ∨ m = mFolding ∨ m = mSpanServed) then zeroFold lfn mode s
  else
    let s := commitNow lfn (ftMake 0 0 mode false false false) (dropPatches lfn (dropFrame lfn (dropPoison lfn s)))
    releaseOld e s

/-- Whether a frame still waits for its zero fold. -/
def zeroPending (s : State) (lfn : Nat) : Bool := s.mm.batches.any (fun f => f.band == 2 ^ 20 + lfn)

end Sys2Proof.Machine
end

