-- ==== Sys2Proof/Machine/Manage.lean ====
section
/-! DEFINITION. Media management by the stage: clears, reclaim, wear, promotions, migrations, staging, re-folding after a loss,
losses beyond the budget, scrub, checkpoint images, rescans and restorations (R82, R265, R275 to R300, R307 to R333, R385). -/

namespace Sys2Proof.Machine

/-! ## Clears (R289, R291, R425) -/

/-- CCOUNT at which a stamp shows WORN (R245). -/
def wornLimit : Nat := 200000

/-- The members of a dead band that can be cleared: live, in service, not bad. -/
def clearMembers (s : State) (b : Nat) : List Nat :=
  (liveOf (bandOf s b)).filter (fun m =>
    let p := memberAt s b m
    !placeOut s p.1 p.2 (bandBank b) && !s.mm.bad.contains (memberBlock s b m))

/-- Banks of a die clearing now. -/
def clearingOf (s : State) (ch die : Nat) : Nat :=
  let f := fun p : CProg => p.clear && p.die == die
  (cartOf s ch).running.countP f + (cartOf s ch).progs.countP f

/-- The free record of a band whose every member is Cleared (R289). A member out of service then keeps a mark: its block is Cleared before
any use (R325). -/
def bandFreed (b : Nat) (s : State) : State :=
  let s := setBand b (fun d => { cls := .clear, failed := ~~~ d.cleared }) (ckRecord ckFree b 0 0 s).2
  { s with mm := { s.mm with wearClears := s.mm.wearClears + 1, measured := sdel s.mm.measured b } }

/-- Whether a Clear of a member can be issued now: its bank and a tag are free, no host read waits there, the allotments allow it. -/
def clearGoes (s : State) (b m : Nat) : Bool :=
  let p := memberAt s b m
  let bank := bandBank b
  (opAt s p.1 p.2 bank).isNone && !hostReadAt s p.1 p.2 bank && s.tt.current != 0 && (freeTag (cartOf s p.1)).isSome &&
    !(cartOf s p.1).progs.any (fun q => q.die == p.2 && q.bank == bank) && Nat.blt (clearingOf s p.1 p.2) s.tt.clearPerDie.toNat

/-- The clears of one dead band issued in one stage, when every member's can go (R289). -/
def clearBand (b : Nat) (s : State) : State :=
  let s := (clearMembers s b).foldl (fun s m =>
    if wornLimit ≤ (stampOf s (memberBlock s b m)).ccount.toNat then markBad (memberBlock s b m) 2 s else s) s
  let ms := clearMembers s b
  if ms = [] then (if ckReady s then bandFreed b s else s)
  else if !ms.all (clearGoes s b) then s
  else
    let s := setBand b (fun d => { d with cls := .clearing, cleared := 0 }) s
    ms.foldl (fun s m =>
      let p := memberAt s b m
      askProg p.1 { die := p.2, bank := bandBank b, block := bandBlock b, addr := 0, clear := true, fast := false, counted := true
                    bursts := [], purpose := .clear b m, phase := .busy, tag := 0, heldSince := 0 } s) s

/-- A band whose every Clear has reported joins the clear pool, once its free record has a place (R279, R289). -/
def tryFree (b : Nat) (s : State) : State :=
  if (bandOf s b).cls = .clearing ∧ (clearMembers s b).all (fun x => (bandOf s b).cleared.getLsbD x) ∧ ckReady s then bandFreed b s else s

/-- Clears of dead bands issued at a stage boundary (R289), once no read that resolved against the band is in flight (R80). A band whose
clears were interrupted is dead again, and so is one of the clear pool, never used ones among them, with a block whose stamp fails R290. -/
def issueClears (s : State) : State :=
  let s := ((s.mm.bands.filter (fun e => e.2.cls == .clearing)).map (fun e => e.1)).foldl (fun s b => tryFree b s) s
  let stale := ((s.mm.bands.filter (fun e => e.2.cls == .clear && isDenseBand s e.1)).map (fun e => e.1) ++ stampedBands s).filter
    (fun b => !(usableMembers s b).all (stampFits s b))
  let s := stale.foldl (fun s b => setBand b (fun _ =>
    { cls := .dead, live := BitVec.ofNat 32 ((usableMembers s b).foldl (fun a m => a + 2 ^ m) 0) }) s) s
  ((s.mm.bands.filter (fun e => e.2.cls == .dead && isDenseBand s e.1 && !bandRead s e.1)).map (fun e => e.1)).foldl (fun s b => clearBand b s) s

/-- A member's Clear reported; the band is free once every member that can be cleared has reported (R289). -/
def clearEnded (b m : Nat) (s : State) : State :=
  tryFree b (setBand b (fun d => { d with cleared := setBit d.cleared m true }) s)

/-! ## Reclaim and wear (R287, R288, R300) -/

/-- A victim's live frames due at priority 8. -/
def reclaimBand (b key : Nat) (s : State) : State := (framesOf s b).foldl (fun s l => makeDue l 8 key false s) s

/-- The band of a list that comes first by a measure, then by the lowest FOLD_SEQ. -/
def leastBand (s : State) (f : Nat → Nat) (l : List Nat) : Option Nat :=
  l.foldl (fun a b => match a with
    | none => some b
    | some c => if f b < f c ∨ (f b = f c ∧ (bandOf s b).foldSeq.toNat < (bandOf s c).foldSeq.toNat) then some b else some c) none

/-- Bands that may be victims: live, none of their frames in a running fold. -/
def victims (s : State) : List Nat :=
  (liveBands s).filter (fun b => !(framesOf s b).any (fun l => s.mm.batches.any (fun g => g.slots.any (fun x => x.lfn == l)) ||
    s.mm.due.any (fun d => d.lfn == l && d.prio == 8)))

/-- Whether a block is a dense one in service. -/
def blockServes (s : State) (blk : Nat) : Bool :=
  !placeOut s (blk / 1048576) (blk / 65536 % 16) (blk / 8192 % 8) && !s.mm.bad.contains blk

/-- Highest minus lowest CCOUNT of the members of dense bands in service (R300, R313): a block never cleared counts 0. -/
def wearSpread (s : State) : Nat :=
  let cs := s.media.stamps.filterMap (fun (e : Nat × Stamp) =>
    if e.2.fast || !blockServes s e.1 then none else some e.2.ccount.toNat)
  let new := cs.isEmpty || (List.range (nChannels s / 2)).any (fun d => (List.range 43008).any (fun i => (List.range 32).any (fun m =>
    let blk := memberBlock s (49152 * d + i) m
    (sfind s.media.stamps blk).isNone && blockServes s blk)))
  let hi := cs.foldl max 0
  hi - (if new then 0 else cs.foldl min hi)

/-- Reclaim at a stage boundary: one victim while the clear pool is below LOW, until it reaches 1.25 × LOW; one extra victim
of wear for every 64 band Clears while CCOUNT spreads over more than 2,000. -/
def reclaim (s : State) : State :=
  let low := s.mm.reclaimLow.toNat
  let pool := clearPool s
  let s := { s with mm := { s.mm with reclaiming := if pool < low then true else if 5 * low ≤ 4 * pool then false else s.mm.reclaiming } }
  let s := if s.mm.reclaiming ∧ !s.mm.due.any (fun d => d.prio == 8) then
      match leastBand s (liveCount s) (victims s) with
      | some b => reclaimBand b (liveCount s b) s
      | none => s
    else s
  if 64 ≤ s.mm.wearClears then
    let s := { s with mm := { s.mm with wearClears := s.mm.wearClears - 64 } }
    if 2000 < wearSpread s then
      match leastBand s (topCcount s) (victims s) with
      | some b => reclaimBand b (liveCount s b) s
      | none => s
    else s
  else s

/-! ## Fast moves: promotion, migration, staging (R275, R296 to R299, R331) -/

/-- A promotion begun (R275): MODE Folding with the dense source (R269), the set, its descriptor and the first position. A patch indexed
after this is written again by the last passes. -/
def startPromotion (lfn : Nat) (pin : Bool) (job : Option (BitVec 16)) (s : State) : State :=
  match freeSet s with
  | none => s
  | some f =>
    let e := ftEntry s lfn
    let s := commitQuiet lfn (ftMake (ftBand e) (ftSlot e) mFolding (ftPatched e) false (ftHot e)) (markInflight lfn true s)
    startMove lfn f 1 pin true job { s with mm := { s.mm with due := s.mm.due.filter (fun d => d.lfn != lfn) } }

/-- A migration begun to the free set with the lowest WEAR (R299). -/
def startMigration (lfn : Nat) (s : State) : State :=
  match freeSetByWear s with
  | none => s
  | some f => startMove lfn f 2 false true none s

/-- Staging of one frame (R331): a promotion; on a span member its base content goes to a fast set with its patches kept. -/
def startStaging (lfn : Nat) (s : State) : State :=
  if s.span.desc.isNone then startPromotion lfn false none s
  else match freeSet s with
    | none => s
    | some f => startMove lfn f 3 false true none s

/-- The moves that wait taken on, within an allotment above 0. -/
def runMoves (s : State) : State := if s.tt.current = 0 then s else s.mm.moves.foldl (fun s m => moveStep m.lfn s) s

/-- HOT frames promoted while free sets allow (R296), fast frames migrated (R299). -/
def placeMoves (s : State) : State :=
  if s.span.desc.isSome then s
  else
    let idle := fun s lfn => !(s.mm.moves.any (fun x => x.lfn == lfn)) &&
      !(s.mm.batches.any (fun b => b.slots.any (fun x => x.lfn == lfn))) && !s.xlat.restoring.contains lfn
    let hot := (s.xlat.ft.filter (fun e => ftMode e.2 == mDense && ftHot e.2)).map (fun e => e.1)
    let s := hot.foldl (fun s l =>
      if idle s l ∧ s.xlat.fastResMin.toNat < freeSets s then startPromotion l false none s else s) s
    let used := s.xlat.fst.filter (fun e => fsUse e.2 ≠ 0)
    let wear := fun f => (sget noDesc s.xlat.fdesc f).wear.toNat
    let mean := (used.foldl (fun a e => a + wear e.1) 0) / max used.length 1
    let due := (s.xlat.ft.filter (fun e => ftMode e.2 == mFast &&
      (let f := ftBand e.2
       Nat.blt (mean + 2 ^ 36) (wear f) || fsUse (fsEntry s f) == useRetiring || copyLost s f 0 || copyLost s f 1))).map
      (fun e => e.1)
    due.foldl (fun s l => if idle s l then startMigration l s else s) s

/-- Demotions from when the free sets are at or below the reserve until they exceed it by 1,024 (R298): unpinned fast frames not written for
60 s, oldest last write first, as many as that takes. -/
def placeDemotions (s : State) : State :=
  let min_ := s.xlat.fastResMin.toNat
  let due7 := s.mm.due.countP (fun d => d.prio == 7)
  let on := Nat.ble (freeSets s) min_ || (s.mm.demoting && Nat.ble (freeSets s) (min_ + 1024))
  let s := { s with mm := { s.mm with demoting := on } }
  if !on ∨ min_ + 1024 < freeSets s + due7 then s
  else
    let old := (s.xlat.ft.filter (fun e => ftMode e.2 == mFast && !ftPinned e.2 &&
      Nat.ble (60 * 10 ^ 9) (s.time.ftime.toNat - (sget 0 s.mm.lastWrite e.1).toNat))).map (fun e => e.1)
    let sorted := old.mergeSort (fun a b => Nat.ble (sget 0 s.mm.lastWrite a).toNat (sget 0 s.mm.lastWrite b).toNat)
    ((sorted.filter (fun l => !s.mm.due.any (fun d => d.lfn == l && d.prio == 7))).take (min_ + 1025 - (freeSets s + due7))).foldl (fun s l => makeDue l 7 (sget 0 s.mm.lastWrite l).toNat false s) s

/-- The end of a 60 s window of write counts (R296); a span member keeps HOT too, only no frame is promoted there (R353). -/
def closeHotWindow (s : State) : State :=
  let hot := fun l => Nat.blt 131072 (sget 0 s.mm.hotCount l)
  let was := (s.xlat.ft.filter (fun e => ftHot e.2 || (hot e.1 && ftMode e.2 == mDense)))
  let s := was.foldl (fun s e =>
    let set := ftMode e.2 == mDense && hot e.1
    if ftHot e.2 ∧ !hot e.1 then commitQuiet e.1 (e.2 &&& 0xBFFFFFFF) s
    else if set ∧ !ftHot e.2 then commitQuiet e.1 (e.2 ||| 0x40000000) s
    else s) s
  { s with mm := { s.mm with hotCount := [] } }

/-! ## Re-folding after a loss (R328, R330 to R333, R344) -/

/-- Whether a member is missing in a way that makes its band await re-fold: by a state other than Bypassed or Testing, or by a bad block
(R324, R328). -/
def awaitsRefold (s : State) (b m : Nat) : Bool :=
  let p := memberAt s b m
  let st := fun u => let v := ownState s u; v == .isolated || v == .absent || v == .retired
  st (uChannel p.1) || st (uDie (dieKey p.1 p.2)) || st (uBank (bankKey p.1 p.2 (bandBank b))) ||
    s.mm.bad.contains (memberBlock s b m) || (bandOf s b).failed.getLsbD m

/-- Whether a member degrades its band (R328): missing so, or on a Degraded die. -/
def degrades (s : State) (b m : Nat) : Bool :=
  let p := memberAt s b m
  awaitsRefold s b m || ownState s (uDie (dieKey p.1 p.2)) == .degraded

/-- Live bands with a missing member that await re-fold, as LP_DEGRADED counts them (R345). -/
def awaitingBands (s : State) : List Nat := (liveBands s).filter (fun b => (liveOf (bandOf s b)).any (awaitsRefold s b))

/-- Live bands to be re-folded: those, and the ones with a member on a Degraded die (R328, R344). -/
def degradedBands (s : State) : List Nat := (liveBands s).filter (fun b => (liveOf (bandOf s b)).any (degrades s b))

/-- Their frames due at priority 5, the bands with most missing members first, while the clear pool allows (R328, R332). -/
def refold (s : State) : State :=
  let bs := (degradedBands s).mergeSort (fun a b => Nat.ble (missingOf s b).length (missingOf s a).length)
  if bs = [] then { s with lp := { s.lp with refoldShort := false } }
  else if clearPool s < s.mm.reclaimLow.toNat then
    if s.lp.refoldShort then s
    else event { code := 0x020E, p0 := bs.length } { s with lp := { s.lp with refoldShort := true } }
  else bs.foldl (fun s b => refreshBand b s) { s with lp := { s.lp with refoldShort := false } }

/-- Channels missing (R324). -/
def missingChannels (s : State) : Nat := (List.range (nChannels s)).countP (fun c => outState (ownState s (uChannel c)))

/-- The channels a missing channel counts for: one member of each band on the X4, two on the H2, four on the L1 (09, note). -/
def channelWeight (s : State) : Nat := match s.variant with | .x4 => 1 | .h2 => 2 | .l1 => 4

/-- Frames of a group in live bands with 4 or more missing members. -/
def groupLosses (s : State) (g : Nat) : List Nat :=
  ((liveBands s).filter (fun b => bandGroup b == g && Nat.ble 4 (missingOf s b).length)).flatMap (framesOf s)

/-- The dense groups of the variant. -/
def denseGroups (s : State) : List Nat := (List.range (4 * nChannels s)).filter (fun g => g % 8 != 7)

/-- `LP_STATUS.STAGING`: staging is needed, or a frame it moves is still on its way (R331). -/
def stagingKept (needed : Bool) (s : State) : State :=
  let on := s.lp.staged.filter (fun l => s.mm.moves.any (fun m => m.lfn == l))
  { s with lp := { s.lp with staged := on, staging := needed || !on.isEmpty } }

/-- Staging (R331): while every dense group is closed, the frames of the group with the fewest move to fast sets. -/
def stage (s : State) : State :=
  if (denseGroups s).all (groupBlocked s) ∧ liveBands s ≠ [] then
    let g := (denseGroups s).foldl (fun a g => match a with
      | none => some g
      | some h => if (groupLosses s g).length < (groupLosses s h).length then some g else some h) (none : Option Nat)
    let s := stagingKept true s
    match g with
    | none => s
    | some g => (groupLosses s g).foldl (fun s l =>
        if s.xlat.fastResMin.toNat < freeSets s ∧ !(s.mm.moves.any (fun m => m.lfn == l)) ∧ ftMode (ftEntry s l) = mDense
        then startStaging l { s with lp := { s.lp with staged := s.lp.staged ++ [l] } } else s) s
  else stagingKept false s

/-- A staged frame of a span member can go back once a band opens (R331); elsewhere it goes by the demotions of R298. -/
def unstage (s : State) : State :=
  if (denseGroups s).all (groupBlocked s) ∨ s.span.desc.isNone then s
  else ((s.xlat.ft.filter (fun e => ftMode e.2 == mFolding && ftSlot e.2 == 31)).map (fun e => e.1)).foldl (fun s l =>
    if s.mm.batches.any (fun b => b.slots.any (fun x => x.lfn == l)) then s else makeDue l 5 0 false s) s

/-- A frame whose every local source is lost made Span-served, PATCHED kept while it has patches; a parity frame is marked for rebuild instead
(R78, R83, R333). -/
def spanServe (lfn : Nat) (s : State) : State :=
  let e := ftEntry s lfn
  if ftMode e = mParity then markRebuild lfn s
  else
  let s := abandonFrame lfn s
  releaseOld e (commitNow lfn (ftMake 0 0 mSpanServed (ftPatched e || hasPatches s lfn) false false) s)

/-- The LLNs whose newest patch lies in a set (R333). -/
def patchesIn (s : State) (f : Nat) : List Nat :=
  ((s.xlat.pi.filter (fun e => e.2.valid && e.2.set.toNat == f && !foreignEnt s e.2)).map (fun e => e.2.lln.toNat)) ++
    ((s.xlat.piOvf.filter (fun e => e.set.toNat == f && !foreignEnt s e)).map (fun e => e.lln.toNat))

/-- The frames with patches in a log set that has lost a copy, due at priority 5 (R326, R338). -/
def lostCopiesDue (s : State) : State :=
  ((s.xlat.fst.filter (fun e => (fsUse e.2 == useLog || fsUse e.2 == useRetiring) && (copyLost s e.1 0 || copyLost s e.1 1))).map
    (fun e => e.1)).foldl (fun s f =>
      (dedup ((patchesIn s f).map lfnOf)).foldl (fun s l => makeDue l 5 0 false s) s) s

/-- A condition of R333 met at a band or set: its record the first time, `LP_STATUS.BEYOND`. -/
def beyondEvent (cond band : Nat) (s : State) : State :=
  let s := { s with lp := { s.lp with beyond := true } }
  if s.lp.beyondSeen.contains (cond, band) then s
  else event { code := 0x020A, p0 := cond, p1 := band } { s with lp := { s.lp with beyondSeen := s.lp.beyondSeen ++ [(cond, band)] } }

/-- Whether a set holds segments of a log: patch log, or retiring from it. -/
def logSet (s : State) (f use : Nat) : Bool :=
  use == useLog || (use == useRetiring && s.xlat.segs.any (fun g => g.1 / 1024 == f))

/-- The losses beyond the budget acted on (R333). -/
def beyond (s : State) : State :=
  let span := s.span.desc.isSome
  let five := (liveBands s).filter (fun b => Nat.ble 5 (missingOf s b).length)
  let lostSet := fun f : Nat => !copyUp s f 0 && !copyUp s f 1
  let fastLost := (s.xlat.ft.filter (fun e => (ftMode e.2 == mFast || (ftMode e.2 == mFolding && ftSlot e.2 == 31)) &&
    lostSet (ftBand e.2))).map (fun e => e.1)
  let logLost := (s.xlat.fst.filter (fun e => logSet s e.1 (fsUse e.2) && lostSet e.1)).map (fun e => e.1)
  let four := Nat.blt 4 (channelWeight s * missingChannels s)
  let stuck := (denseGroups s).all (groupBlocked s) && Nat.ble (freeSets s) s.xlat.fastResMin.toNat && !(liveBands s).isEmpty
  let now := five.map (fun b => (if span then 1 else 2, b)) ++ fastLost.map (fun l => (3, ftBand (ftEntry s l))) ++
    logLost.map (fun f => (4, f)) ++ (if four ∨ stuck then [(5, 0)] else [])
  let s := { s with lp := { s.lp with beyond := !now.isEmpty, beyondSeen := s.lp.beyondSeen.filter (fun c => now.contains c) } }
  if now = [] then s
  else
    let s := five.foldl (fun s b =>
      let s := beyondEvent (if span then 1 else 2) b s
      if span then (framesOf s b).foldl (fun s l => spanServe l s) s else refreshBand b s) s
    let s := fastLost.foldl (fun s l =>
      let s := beyondEvent 3 (ftBand (ftEntry s l)) s
      if span then spanServe l s else makeDue l 5 0 false s) s
    let s := logLost.foldl (fun s f =>
      let s := beyondEvent 4 f s
      (patchesIn s f).foldl (fun s l =>
        if isDirty s l ∨ s.media.mreads.any (fun r => r.lln == l && r.merge) then s
        else if span then
          let lb := baseLine s l (ftEntry s (lfnOf l))
          { mergeRead l lb.isNone true lb s with cache := { s.cache with lost := s.cache.lost ++ [l] } } |> fun t =>
            { t with cache := { t.cache with lost := dedup t.cache.lost } }
        else poisonFind l 0 0 s) s) s
    if four ∨ stuck then
      let s := beyondEvent 5 0 s
      if span then unhitch 3 s else s
    else s

/-- A Degraded die that holds no member of a live band and no copy of a set in use becomes Isolated (R344). -/
def isolateDrained (s : State) : State :=
  let dies := (s.unit.units.filter (fun e => uClass e.1 == 3 && e.2.st == .degraded)).map (fun e => uIndex e.1)
  dies.foldl (fun s d =>
    let ch := d / 16
    let die := d % 16
    let band := (heldBands s).any (fun b => (liveOf (bandOf s b)).any (fun m => memberAt s b m == (ch, die)))
    let set := s.xlat.fst.any (fun e => fsUse e.2 != 0 &&
      (let a := fastAt s e.1; a.die == die && (a.chA == ch || a.chB == ch)))
    if band ∨ set then s else setUnit (uDie d) .isolated 5 true s) s

/-! ## Scrub (R307 to R309, R335, R336) -/

/-- The sets whose lines a scrub pass reads. -/
def scrubSets (s : State) : List Nat :=
  (s.xlat.fst.filter (fun e => fsUse e.2 == useFrame || fsUse e.2 == useLog || fsUse e.2 == useForeign || fsUse e.2 == useRetiring)).map (fun e => e.1)

/-- The scrub reads of one band in a round: of each of 32 members the offsets 0 to 2, 32 to 34, and 64 to 65,599. -/
def scrubPer : Nat := 32 * 65542

/-- A poisoned line that is unlisted is listed again by the scrub of its frame (R60), while the place read is where the line resolves and no
newer value of it stands in the caches. -/
def relistPoison (lln : Nat) (loc : Where) (v : Line) (s : State) : State :=
  if v = poisonLine ∧ !isDirty s lln ∧ (heldValue s lln).isNone ∧ resolve s lln = loc then poisonAdd lln .internal s else s

/-- A scrub read of a member's line at a retry step; 0 is the first read (R134, R309). -/
def scrubAsk (b m x step : Nat) (s : State) : State :=
  if memberMissing s b m then s
  else
    let at_ := memberAt s b m
    let r := readRefs b at_.1 at_.2 s
    askRead at_.1 { die := at_.2, bank := bandBank b, block := bandBlock b, addr := x, host := false, step := step
                    slot := BitVec.ofNat 2 r.1.1, shift := shift6 (r.1.2 + retryOffset step), purpose := .scrubDense b m x } r.2

/-- The line of a missing member as the others give it: a poisoned one is listed again (R60). -/
def scrubMissing (b m x : Nat) (s : State) : State :=
  let d := bandOf s b
  match memberLln d m x, rebuild d (stripeLines s b x) m with
  | some lln, some (l, _) => if 64 ≤ x then relistPoison lln (.dense b (roleOf d m).2 x) (payloadOf l) s else s
  | _, _ => s

/-- The k-th scrub read of a band's round. -/
def scrubBandRead (b k : Nat) (s : State) : State :=
  let m := k / 65542
  let j := k % 65542
  let x := if j < 3 then j else if j < 6 then 29 + j else 58 + j
  if !(bandOf s b).live.getLsbD m then s else if memberMissing s b m then scrubMissing b m x s else scrubAsk b m x 0 s

/-- The scrub reads of a fast set in a round: of each copy every position and the two descriptor slots (R307). -/
def scrubPerSet : Nat := 2 * 65540

/-- A scrub read of a position of a copy at a retry step; positions 65,538 and 65,539 stand for the descriptor slots. -/
def scrubAskFast (f c pos step : Nat) (s : State) : State :=
  if !copyUp s f c then s
  else
    let base := fastPlace s f c 0
    let at_ := if pos < 65538 then fastPlace s f c pos else (base.1, base.2.1, base.2.2.1, pos - 65538)
    askRead at_.1 { die := at_.2.1, bank := 7, block := at_.2.2.1, addr := at_.2.2.2, host := false, step := step
                    slot := 0, shift := shift6 (retryOffset step), purpose := .scrubFast f c pos } s

/-- The k-th scrub read of a set's round. -/
def scrubSetRead (f k : Nat) (s : State) : State := scrubAskFast f (k / 65540) (k % 65540) 0 s

/-- The place of a round's next read, kept as `per` × object + read: where it stands while its object is in the list, else the start of the
next object by number, from the lowest again after the last. -/
def scrubNext (objs : List Nat) (per place : Nat) : Nat :=
  let o := place / per
  if objs.contains o then place
  else
    let least := fun l : List Nat => l.foldl (fun (a : Option Nat) b => match a with | none => some b | some c => some (min b c)) none
    match least (objs.filter (fun b => Nat.blt o b)) with
    | some b => b * per
    | none => ((least objs).getD 0) * per

/-- The scrub reads of one stage: as many as keep the periods of R307, in a round over live bands and one over sets in use, whose patch and
checkpoint segments have 24 h. -/
def issueScrub (s : State) : State :=
  let stages := fun h : Nat => max 1 (h * 14400000)
  let bands := liveBands s
  let n := (bands.length * scrubPer + stages s.mm.scrubD.toNat - 1) / stages s.mm.scrubD.toNat
  let s := if bands = [] then s
    else (List.range n).foldl (fun s _ =>
      let at_ := scrubNext bands scrubPer s.mm.scrubAt
      scrubBandRead (at_ / scrubPer) (at_ % scrubPer) { s with mm := { s.mm with scrubAt := at_ + 1 } }) s
  let sets := scrubSets s
  let hours := if sets.any (fun f => logSet s f (fsUse (fsEntry s f))) then min s.mm.scrubF.toNat 24 else s.mm.scrubF.toNat
  let n := (sets.length * scrubPerSet + stages hours - 1) / stages hours
  if sets = [] then s
  else (List.range n).foldl (fun s _ =>
    let at_ := scrubNext sets scrubPerSet s.mm.fastAt
    scrubSetRead (at_ / scrubPerSet) (at_ % scrubPerSet) { s with mm := { s.mm with fastAt := at_ + 1 } }) s

/-- The frames of prefetches that failed decode scrubbed: every line of each, on its home or both copies (R207). -/
def scrubFrames (s : State) : State :=
  (dedup s.mm.scrubDue).foldl (fun s l =>
    let e := ftEntry s l
    let m := ftMode e
    if (m = mDense ∨ (m = mFolding ∧ ftSlot e ≠ 31)) ∧ ftBand e ≠ zeroHome then
      (List.range 65536).foldl (fun s x => scrubAsk (ftBand e) (slotMember (bandOf s (ftBand e)) (ftSlot e)) (64 + x) 0 s) s
    else if m = mFast ∨ m = mFolding then
      (List.range scrubPerSet).foldl (fun s k => scrubSetRead (ftBand e) k s) s
    else s) { s with mm := { s.mm with scrubDue := [] } }

/-- What a weak header or line of a member makes due: its slot's frame, or every live frame of the band where it holds none (R309; for a code
block or an empty slot DESIGN CHOICE, log entry 101). -/
def scrubWeak (b m x : Nat) (s : State) : State :=
  match memberLln (bandOf s b) m x with
  | some l => makeDue (lfnOf l) 5 0 false s
  | none => refreshBand b s

/-- A header line's scrub read answered (R309, R318, R319): its test is that of its kind, the band map's second line read with its first. -/
def scrubHeaderRes (b m x step : Nat) (res : Option (Line66 × Nat)) (s : State) : State :=
  let die := memberDie s b m
  let seen := if x % 32 = 2 then (match memberLine s b m (x - 1) with | some l => [(x - 1, payloadOf l)] | none => []) else []
  match res.filter (fun r => headerGood seen x r.1) with
  | some (_, c) =>
    if 0 < step then scrubWeak b m x (event { code := 0x0202, unit := uDie die, p0 := (memberLln (bandOf s b) m x).getD 0, p1 := step } (charge die s))
    else if 8 ≤ c then scrubWeak b m x (weakLine die s)
    else s
  | none =>
    let s := if step = 0 then countBlockMark (memberBlock s b m) 0 x (dieCount 1 die s) else s
    if step < 6 then scrubAsk b m x (step + 1) s else refreshBand b s

/-- A line of a data page that no retry decodes (R309, R340, R343): rebuilt by its stripe, or found lost where the line still resolves to it;
on a span member its frame's fold has the span. -/
def scrubLost (b m x : Nat) (s : State) : State :=
  let d := bandOf s b
  let die := memberDie s b m
  let lln := memberLln d m x
  let loc := Where.dense b (roleOf d m).2 x
  let found := event { code := 0x0202, unit := uDie die, p0 := lln.getD 0 }
  match (rebuild d (stripeLines s b x) m).filter (fun r => memberGood d m r.1) with
  | some (l, fixed) =>
    let s := fixed.foldl (located b x false) (charge die (countRebuilt s))
    let s := match lln with | some lln => relistPoison lln loc (payloadOf l) s | none => s
    scrubWeak b m x (found s)
  | none =>
    match lln with
    | none => refreshBand b s
    | some lln =>
      if s.span.desc.isSome ∨ isDirty s lln ∨ (heldValue s lln).isSome ∨ resolve s lln ≠ loc then scrubWeak b m x (found s)
      else poisonFind lln 0 (uDie die) s

/-- The syndrome of a stripe whose every member decodes: an erroneous member is located (R309, R323). -/
def scrubStripe (b x : Nat) (s : State) : State :=
  let d := bandOf s b
  let ls := stripeLines s b x
  if ls.length ≠ (liveOf d).length then s
  else match rsLines (ls.map (fun e => (memberExp d e.1, e.2))) [] with
    | some (_, fixed) => ((liveOf d).filter (fun k => fixed.contains (memberExp d k))).foldl (located b x false) s
    | none => s

/-- A dense scrub read answered (R309): `res` the decoded line and the bits corrected. A line that does not decode is read again through the
ladder (R134) before its stripe is asked. -/
def scrubDenseRes (b m x step : Nat) (res : Option (Line66 × Nat)) (s : State) : State :=
  let d := bandOf s b
  let die := memberDie s b m
  if x < 64 then scrubHeaderRes b m x step res s
  else
    match res.filter (fun r => memberGood d m r.1) with
    | some (l, c) =>
      let s := match memberLln d m x with | some lln => relistPoison lln (.dense b (roleOf d m).2 x) (payloadOf l) s | none => s
      let s := if 0 < step then
          scrubWeak b m x (event { code := 0x0202, unit := uDie die, p0 := (memberLln d m x).getD 0, p1 := step } (charge die s))
        else if 8 ≤ c then scrubWeak b m x (weakLine die s) else s
      if m = (liveOf d).getLastD 0 then scrubStripe b x s else s
    | none =>
      let s := if step = 0 then countBlockMark (memberBlock s b m) 0 x (dieCount 1 die s) else s
      if step < 6 then scrubAsk b m x (step + 1) s else scrubLost b m x s

/-- The frame that a set serves: in use as a fast frame or retiring from it, its owner's entry naming it. -/
def setFrame (s : State) (f : Nat) : Option Nat :=
  let use := fsUse (fsEntry s f)
  let l := (sget noDesc s.xlat.fdesc f).owner.toNat
  let e := ftEntry s l
  if (use = useFrame ∨ use = useRetiring) ∧ ftBand e = f ∧ (ftMode e = mFast ∨ (ftMode e = mFolding ∧ ftSlot e = 31)) then some l else none

/-- The LLN a position of a set in use holds, and the sequence a patch line carries. -/
def fastLln (s : State) (f pos : Nat) : Option (Nat × Option (BitVec 16)) :=
  match setFrame s f with
  | some lfn => (linePos (fsEntry s f) pos).map (fun l => (65536 * lfn + l, none))
  | none =>
    if logSet s f (fsUse (fsEntry s f)) ∧ pos % 64 < 56 then
      match sfind s.xlat.dirs (56 * segKey f (pos / 64) + pos % 64) with
      | some d => if d = BitVec.allOnes 64 then none else some (d.toNat % 2 ^ 40, some (d.extractLsb' 40 16))
      | none => none
    else none

/-- A position of a set written again on both copies; a frame's line at a new version, while a patch line keeps the sequence its test needs
(R309, R318). -/
def scrubRewrite (f pos : Nat) (seq : Option (BitVec 16)) (v : Line) (m : BitVec 16) (s : State) : State :=
  match seq with
  | some q => fastStore2 f pos (mediaLine v q) s
  | none => fastStore2 f pos (mediaLine v (m + 1)) { s with xlat := { s.xlat with
      versions := sset 0 s.xlat.versions (65538 * f + pos) (m + 1) } }

/-- What becomes of a directory line whose copies differ (R335, R336): the value the retry steps gave, or each candidate line in doubt, then
the line written again as the index has it. -/
def dirSettle (k j : Nat) (llns : List Nat) (v : Option Line66) (s : State) : State :=
  match v with
  | some l => segPut k j (bchEncode l) s
  | none =>
    let s := llns.foldl (fun s lln =>
      if isDirty s lln then s
      else if s.span.desc.isSome then { s with cache := { s.cache with lost := dedup (s.cache.lost ++ [lln]) } }
      else poisonFind lln 0 0 s) s
    segPut k j (mediaLine (dirLine s k (8 * (j - 56))) 0x5044) s

/-- A directory line's copies that decode and differ (R335): the retry steps of both may settle it; else each differing entry's candidates are
lines whose newest patch is unknown, resolved by the caches, the span, or poison (R336); the line is written again as the index has it. -/
def dirDiffers (f pos : Nat) (a b : Line) (s : State) : State :=
  let k := segKey f (pos / 64)
  let ent := fun (l : Line) (j : Nat) => l.extractLsb' (64 * j) 64
  let js := (List.range 8).filter (fun j => ent a j != ent b j)
  let llns := dedup (js.flatMap (fun j => ([ent a j, ent b j].filter (fun e => e != BitVec.allOnes 64)).map (fun e => e.toNat % 2 ^ 40)))
  let s := tieNoted f pos [] s
  let r := if s.span.desc.isSome ∨ llns.all (isDirty s) then (none, s) else tieLadder (fastTest (some 0x5044)) fastSteps s
  dirSettle k (pos % 64) llns r.1 r.2

/-- The 64 bytes of a line. -/
def lineBytes (l : Line) : List Byte := (List.range 64).map (lineByte l)

/-- Whether a line of a segment passes the test of its kind (R106, R318): a directory or trailer line, a checkpoint content line, a map or an
index line by their metadata. -/
def segTest (s : State) (f pos : Nat) (l : Line66) : Bool :=
  let g := sget noSeg s.xlat.segs (segKey f (pos / 64))
  let i := pos % 64
  let b := lineBytes (payloadOf l)
  if i = 63 then metaOf l == 0x5044 && crc32c ((b.take 60).map BitVec.toNat) == field b 60 4
  else match g.kind with
    | .patch | .foreign => if 56 ≤ i then metaOf l == 0x5044 else true
    | .record | .image => metaOf l == 0x4350
    | .picp => metaOf l == 0x5049
    | .dmap => metaOf l == 0x4446
    | .flush => true

/-- Whether a line of a segment has been programmed: the lines a directory or record segment has filled, its trailer, and all of the others. -/
def segWritten (s : State) (f pos : Nat) : Bool :=
  match sfind s.xlat.segs (segKey f (pos / 64)) with
  | none => false
  | some g =>
    let i := pos % 64
    if i = 63 then true
    else match g.kind with
      | .patch | .foreign => if i < 56 then Nat.blt i g.next else Nat.blt (8 * (i - 56)) g.next
      | .record => Nat.blt (2 * i) g.next
      | _ => true

/-- A directory, trailer or checkpoint line scrubbed: a weak one is written again on both copies, one that is lost on this copy from the
other (R309); copies of a directory line are compared (R335); checkpoint lines lost on both are beyond the budget: a span member unhitches
(R285, R333). -/
def scrubOtherRes (f c pos step : Nat) (res : Option (Line66 × Nat)) (s : State) : State :=
  if !segWritten s f pos then s
  else
    let die := copyDie s f c
    let kind := (sget noSeg s.xlat.segs (segKey f (pos / 64))).kind
    let other := if !copyUp s f (1 - c) then none else (decodeCell (fastCell s f (1 - c) pos)).filter (segTest s f pos)
    match res.filter (fun r => segTest s f pos r.1) with
    | some (l, k) =>
      let s := if 0 < step then fastStore2 f pos (bchEncode l) (charge die s)
        else if 8 ≤ k then fastStore2 f pos (bchEncode l) (weakLine die s) else s
      if pos % 64 < 56 ∨ pos % 64 = 63 ∨ kind ≠ .patch then s
      else match other with
        | some o => if payloadOf o ≠ payloadOf l then dirDiffers f pos (payloadOf l) (payloadOf o) s else s
        | none => s
    | none =>
      match other with
      | some l => fastStore2 f pos (bchEncode l) (event { code := 0x0202, unit := uDie die } (charge die (countRebuilt s)))
      | none =>
        if kind = .record ∨ kind = .image then
          let s := beyondEvent 6 f s
          if s.span.desc.isSome then unhitch 3 s else s
        else s

/-- A descriptor slot scrubbed (R309, R318, R319): a weak one is written again at the next GEN, an unreadable one makes the fast frame due. A
slot that no GEN has used yet holds nothing. -/
def scrubDescRes (f c slot step : Nat) (res : Option (Line66 × Nat)) (s : State) : State :=
  let g := (sget noDesc s.xlat.fdesc f).gen.toNat
  if g = 0 ∨ (g = 1 ∧ slot ≠ 1) then s
  else
    let test := fun l : Line66 => let b := lineBytes (payloadOf l)
      metaOf l == 0x4844 && crc32c ((b.take 60).map BitVec.toNat) == field b 60 4
    match res.filter (fun r => test r.1) with
    | some (_, k) =>
      if 0 < step then descWrite f (charge (copyDie s f c) s)
      else if 8 ≤ k then descWrite f (weakLine (copyDie s f c) s) else s
    | none => match setFrame s f with
      | some lfn => makeDue lfn 5 0 false s
      | none => s

/-- A line in place that no local source gives (R336, R340): while it is the line's present value, a span member recovers it through the span,
and a device without span protection poisons it. -/
def scrubFastLost (f pos lln : Nat) (seq : Option (BitVec 16)) (die : Nat) (s : State) : State :=
  if isDirty s lln ∨ (heldValue s lln).isSome ∨ !stillThere s lln f pos seq then s
  else if s.span.desc.isSome then
    let lb := if seq.isSome then baseLine s lln (ftEntry s (lfnOf lln)) else none
    mergeRead lln lb.isNone seq.isSome lb { s with cache := { s.cache with lost := dedup (s.cache.lost ++ [lln]) } }
  else poisonFind lln 0 (uDie die) s

/-- Copies met by the scrub whose difference R336 settled, or the line lost. -/
def scrubTied (f pos lln : Nat) (seq : Option (BitVec 16)) (die : Nat) (r : Option (Line × BitVec 16) × State) : State :=
  match r.1 with
  | some _ => r.2
  | none => scrubFastLost f pos lln seq die r.2

/-- A good copy's value kept: a weak line written again on both copies, else the older copy written again with the newer (R309, R335). -/
def scrubSettle (f c pos : Nat) (seq : Option (BitVec 16)) (weak : Bool) (l : Line66) (o : Option Line66) (v : Line66) (s : State) : State :=
  if weak then scrubRewrite f pos seq (payloadOf v) (metaOf v) s
  else match o with
    | some x => if c = 0 then olderAgain f pos l x v s else olderAgain f pos x l v s
    | none => s

/-- A good copy held against the other (R335, R336). -/
def scrubPair (f c pos lln : Nat) (seq : Option (BitVec 16)) (weak : Bool) (die : Nat) (l : Line66) (o : Option Line66) (s : State) : State :=
  match o with
  | none => scrubSettle f c pos seq weak l none l s
  | some x =>
    match mirrorValue seq l x with
    | some v => scrubSettle f c pos seq weak l (some x) v s
    | none => scrubTied f pos lln seq die (tieResolve f pos lln seq (metaOf l) s)

/-- A line that one copy lost written again from the other, when that gave it (R309, R334); else what `next` does. -/
def scrubFrom (f pos lln : Nat) (seq : Option (BitVec 16)) (die : Nat) (r : Option Line66 × State) (next : State → State) : State :=
  match r.1 with
  | some v =>
    let s := event { code := 0x0202, unit := uDie die, p0 := lln } (charge die (countRebuilt r.2))
    scrubRewrite f pos seq (payloadOf v) (metaOf v)
      (relistPoison lln (if seq.isSome then Where.patch f pos else Where.fast f pos) (payloadOf v) s)
  | none => next r.2

/-- A scrub read of a line in place, after its ladder, with the other copy (R309, R335, R336): a weak or lost line is written again on both
copies, an older copy from the newer, copies that are not trusted are resolved. -/
def scrubLineRes (f c pos step lln : Nat) (seq : Option (BitVec 16)) (res : Option (Line66 × Nat)) (s : State) : State :=
  let die := copyDie s f c
  let loc := if seq.isSome then Where.patch f pos else Where.fast f pos
  match res with
  | some (l, k) =>
    let s := relistPoison lln loc (payloadOf l) s
    let weak := Nat.blt 0 step || Nat.ble 8 k
    let s := if 0 < step then event { code := 0x0202, unit := uDie die, p0 := lln, p1 := step } (charge die s)
      else if 8 ≤ k then weakLine die s else s
    let o := if !copyUp s f (1 - c) then none else (decodeCell (fastCell s f (1 - c) pos)).filter (fastTest seq)
    scrubPair f c pos lln seq weak die l o s
  | none =>
    scrubFrom f pos lln seq die (copyRead f (1 - c) pos seq s) (fun s =>
      scrubFrom f pos lln seq die (copyRetry f (1 - c) lln seq s) (scrubFastLost f pos lln seq die))

/-- A fast scrub read answered (R309, R335, R336). -/
def scrubFastRes (f c pos step : Nat) (res : Option (Line66 × Nat)) (s : State) : State :=
  let at_ := fastLln s f pos
  let good := match res with
    | some (l, _) => (match at_ with | some (_, seq) => fastTest seq l | none => true)
    | none => false
  let res := if good then res else none
  let s := if res.isNone ∧ step = 0 then dieCount 1 (copyDie s f c) s else s
  if res.isNone ∧ step < 3 then scrubAskFast f c pos (step + 1) s
  else if 65538 ≤ pos then scrubDescRes f c (pos - 65538) step res s
  else match at_ with
    | none => scrubOtherRes f c pos step res s
    | some (lln, seq) => scrubLineRes f c pos step lln seq res s

/-! ## Checkpoint images and the Patch Index checkpoint (R110, R277, R282, R283, R598) -/

/-- The 16 bytes of a Patch Index entry (R110). -/
def piBytes (e : PiEnt) : List Byte :=
  let v := e.lln.toNat + 2 ^ 40 * e.seq.toNat + 2 ^ 64 * e.set.toNat + 2 ^ 83 * e.segment.toNat + 2 ^ 93 * e.line.toNat +
    2 ^ 99 * b2n e.valid + 2 ^ 100 * b2n e.tomb + 2 ^ 101 * b2n e.inflight
  bytesOf 14 v ++ bytesOf 2 (if e.checkBad then 65535 - piCheck e else piCheck e)

/-- The entry that 16 bytes hold. -/
def piParse (b : List Byte) : PiEnt :=
  let v := field b 0 14
  let e : PiEnt := ⟨BitVec.ofNat 40 v, BitVec.ofNat 24 (v / 2 ^ 40), BitVec.ofNat 19 (v / 2 ^ 64), BitVec.ofNat 10 (v / 2 ^ 83),
    BitVec.ofNat 6 (v / 2 ^ 93), bit v 99, bit v 100, bit v 101, false⟩
  { e with checkBad := field b 14 2 != piCheck e }

/-- A segment with its content lines, opened where one can be and written on both copies; the segment's key. -/
def writeSegment (g : Seg) (lines : List Line) (md : BitVec 16) (s : State) : Option Nat × State :=
  match pickSegment s with
  | none => (none, s)
  | some (k, s) =>
    let s := placeSeg k { g with next := 63 } s
    (some k, (List.range lines.length).foldl (fun s i => segPut k i (mediaLine (lines.getD i 0) md) s) s)

/-- Bytes cut into lines of 64, the last filled with zeros. -/
def toLines (n : Nat) (b : List Byte) : List Line :=
  (List.range n).map (fun i => BitVec.ofNat 512 (natOf ((b.drop (64 * i)).take 64)))

/-- Entries of the Patch Index in segments of 252 of them, of the base or of the deltas, the last with LAST; what is left of the last
segment is zeros (R598). -/
def writePi (ref pc0 : BitVec 48) (delta : Bool) (es : List PiEnt) (s : State) : List Nat × State :=
  let n := max 1 ((es.length + 251) / 252)
  (List.range n).foldl (fun a i =>
    let g : Seg := { noSeg with kind := .picp, base := pc0, index := i, fseq := ref, delta := delta, last := decide (i + 1 = n) }
    let (k, s) := writeSegment g (toLines 63 (((es.drop (252 * i)).take 252).flatMap piBytes)) 0x5049 a.2
    (a.1 ++ k.toList, s)) ([], s)

/-- The image start record (R282). -/
def imageStart (s : State) : State :=
  let (c0, s) := ckRecord ckImageStart 0 0 0 s
  { s with mm := { s.mm with
    imageRun := some { c0 := c0, entries := [], clear := [], segs := [] }, imageStart := s.time.ftime, imageRecs := 0 } }

/-- The base of the Patch Index checkpoint begun at an image's start: every valid entry in bucket order; the changes from there on are
noted for the deltas (R598). Its background programs are one step here (log entry 80). -/
def piBaseStart (s : State) : State :=
  match s.mm.imageRun with
  | none => s
  | some im =>
    let es := (s.xlat.pi.map (fun e => e.2) ++ s.xlat.piOvf).filter PiEnt.valid
    let (ps, s) := writePi im.c0 s.xlat.patchCtr false es s
    { s with
      mm := { s.mm with
        piBase := if ps.length = max 1 ((es.length + 251) / 252) then some (im.c0, s.xlat.patchCtr) else none, piSegs := ps }
      xlat := { s.xlat with piLog := [], piLost := false } }

/-- An entry as an image holds it: PATCHED and HOT 0, a Folding entry as its source; a staged one, whose change of source is a recorded
commit, as it stands (R282, R331). -/
def imageEntry (staged : Bool) (e : BitVec 32) : BitVec 32 :=
  let e := recEntry e
  if ftMode e = mFolding then
    if ftSlot e = 31 then (if staged then e else ftMake (ftBand e) 0 mFast false (ftPinned e) false)
    else ftMake (ftBand e) (ftSlot e) mDense false false false
  else e

/-- The content lines of image segment i: 16 entries to a line, then the clear bitmap (R282). -/
def imageLines (im : CkImage) (clear : Nat → Bool) (i : Nat) : List Line :=
  if i < 16645 then
    (List.range 63).map (fun j => BitVec.ofNat 512 ((List.range 16).foldl (fun a e =>
      a + (sget 0 im.entries (1008 * i + 16 * j + e)).toNat * 2 ^ (32 * e)) 0))
  else
    (List.range 63).map (fun j => BitVec.ofNat 512 ((List.range 512).foldl (fun a e =>
      a + b2n (clear (32256 * (i - 16645) + 512 * j + e)) * 2 ^ e) 0))

/-- The image's first `n` segments written in order; the segments written so far stand in `imageRun` (R282). -/
def imageWrite (n : Nat) (im : CkImage) (isClear : Nat → Bool) (s : State) : List Nat × State :=
  (List.range n).foldl (fun (a : List Nat × State) i =>
    let (k, s) := writeSegment { noSeg with kind := .image, base := im.c0, index := i } (imageLines im isClear i) 0x4350 a.2
    (a.1 ++ k.toList, { s with mm := { s.mm with imageRun := some { im with segs := a.1 ++ k.toList } } })) ([], s)

/-- A bad block marked in the records again (R281, R282). -/
def badAgain (s : State) (blk : Nat) : State :=
  let r := badRecord s blk
  (ckRecord ckBad r.1 r.2 0 s).2

/-- What follows an image's segments `segs`, `n` in number: the bad marks again, the end record; the two newest images are kept, with the
records above the older one's C0 and those that void retained patches (R282, R283). -/
def imageDone (n : Nat) (im : CkImage) (segs : List Nat) (s : State) : State :=
  let s := s.mm.bad.foldl badAgain s
  let s := (ckRecord ckImageEnd 0 (BitVec.ofNat 32 n) im.c0 s).2
  let images := (s.mm.images ++ [{ im with segs := segs }]).drop (s.mm.images.length - 1)
  let oldest := ((images.map (fun i => i.c0.toNat)).foldl min im.c0.toNat)
  let low := (s.xlat.segs.filter (fun g => g.2.kind == .patch && !segDead s g.1 g.2)).foldl (fun a g => min a g.2.base.toNat) (2 ^ 48)
  { s with mm := { s.mm with
    imageRun := none, images := images
    records := s.mm.records.filter (fun r => Nat.ble oldest r.cseq.toNat ||
      (r.kind.toNat == ckEntry && Nat.ble low r.psnap.toNat)) } }

/-- A frame's entry by the newest image and the retained records (R82, R284). -/
def loggedEntry (s : State) (lfn : Nat) : BitVec 32 × BitVec 48 :=
  let im := s.mm.images.getLast?
  let start := match im with | some i => sget 0 i.entries lfn | none => 0
  let c0 := match im with | some i => i.c0.toNat | none => 0
  let recs := s.mm.records.filter (fun r => r.kind.toNat == ckEntry && r.target.toNat == lfn)
  ((recs.filter (fun r => Nat.blt c0 r.cseq.toNat || im.isNone)).foldl (fun _ r => r.entry) start,
    recs.foldl (fun _ r => r.psnap) 0)

/-- An image captured, written in `n` segments and ended; one whose segments or records find no room is given up (R282). -/
def imageWhole (n : Nat) (s : State) : State :=
  match s.mm.imageRun with
  | none => s
  | some im =>
    let im := { im with
      entries := s.xlat.ft.map (fun e =>
        let l := (loggedEntry s e.1).1
        (e.1, imageEntry (s.span.desc.isSome && ftMode l == mFolding && ftSlot l == 31) e.2))
      clear := (s.mm.bands.filter (fun e => e.2.cls != .clear)).map (fun e => e.1) }
    let isClear := fun b => isDenseBand s b && !im.clear.contains b
    let w := imageWrite n im isClear s
    if w.1.length = n ∧ ckReady w.2 then imageDone n im w.1 w.2
    else { w.2 with mm := { w.2.mm with imageRun := none } }

/-- The running image captured and ended: an image has 16,670 segments (R282). -/
def imageEnd (s : State) : State := imageWhole 16670 s

/-! ## Rescans and restorations (R82, R108, R265) -/

/-- The entries of a directory line of a segment, by its index. -/
def dirEnts (j : Nat) (l : Line66) : List (Nat × BitVec 64) :=
  (List.range 8).map (fun i => (8 * j + i, (payloadOf l).extractLsb' (64 * i) 64))

/-- A directory line by what the retry steps give; unreadable on both copies it has no entries (log entry 106). -/
def dirAgain (f j : Nat) (r : Option (Line66 × Nat) × State) : List (Nat × BitVec 64) × State :=
  match r.1 with
  | some (l, _) => (dirEnts j l, charge (copyDie r.2 f 0) r.2)
  | none => ([], r.2)

/-- A directory line by its two copies (R335): the entries both hold, the others settled by R336; copy B where copy A fails; the retry steps
where both fail. -/
def dirMet (f pos j : Nat) (a b : Option Line66) (s : State) : List (Nat × BitVec 64) × State :=
  match a, b with
  | some x, some y =>
    if x = y then (dirEnts j x, s)
    else ((dirEnts j x).filter (fun e => (dirEnts j y).contains e), dirDiffers f pos (payloadOf x) (payloadOf y) s)
  | some x, none => (dirEnts j x, s)
  | none, some y => (dirEnts j y, countRebuilt s)
  | none, none => dirAgain f j (ladder (fastTest (some 0x5044)) fastSteps s)

/-- The entries that a directory line of a patch segment gives, by its index, read from both copies: the newer kept or the identical ones, copy
B where copy A fails (R265, R335). -/
def dirRead (k j : Nat) (s : State) : List (Nat × BitVec 64) × State :=
  let f := k / 1024
  let pos := 64 * (k % 1024) + 56 + j
  let md := some (0x5044 : BitVec 16)
  let a := copyRead f 0 pos md s
  let b := copyRead f 1 pos md a.2
  dirMet f pos j a.1 b.1 b.2

/-- A directory line read from copy A alone, as after a clean stop; from both when copy A fails (R599). -/
def dirReadA (k j : Nat) (s : State) : List (Nat × BitVec 64) × State :=
  let a := copyRead (k / 1024) 0 (64 * (k % 1024) + 56 + j) (some 0x5044) s
  match a.1 with
  | some x => (dirEnts j x, a.2)
  | none => dirRead k j s

/-- What one directory line of a live segment adds to the log's entries (R107, R265). -/
def logLine (both : Bool) (g : Nat × Seg) (a : List (Nat × Nat × Nat) × State) (j : Nat) : List (Nat × Nat × Nat) × State :=
  if !segWritten a.2 (g.1 / 1024) (64 * (g.1 % 1024) + 56 + j) then a
  else
    let r := if both then dirRead g.1 j a.2 else dirReadA g.1 j a.2
    (a.1 ++ (r.1.filter (fun e => e.2 != BitVec.allOnes 64)).map (fun e =>
      (e.2.toNat % 2 ^ 40, fullCtr g.2.base (e.2.extractLsb' 40 24), 64 * g.1 + e.1)), r.2)

/-- The patch log's entries as the directories of its live segments give them: LLN, full counter, 64 × segment + line (R107, R265). -/
def logRead (both : Bool) (s : State) : List (Nat × Nat × Nat) × State :=
  (s.xlat.segs.filter (fun g => g.2.kind == .patch)).foldl (fun (a : List (Nat × Nat × Nat) × State) (g : Nat × Seg) => (List.range 7).foldl (logLine both g) a) ([], s)

/-- A frame's live entries among those of the log: above its PSNAP, the newest of each LLN (R107, R108, R265). -/
def logEntries (s : State) (all : List (Nat × Nat × Nat)) (lfn : Nat) : List (Nat × Nat × Nat) :=
  let all := all.filter (fun e => lfnOf e.1 == lfn)
  all.filter (fun e => Nat.blt (sget 0 s.xlat.psnap lfn).toNat e.2.1 &&
    !all.any (fun o => o.1 == e.1 && Nat.blt e.2.1 o.2.1))

/-- A frame's patches read again from the log: the failing entries tombstoned, the live ones inserted while there is room, the frame due
at priority 1 (R112, R113, R265). A patch keeps the time its summary goes by. -/
def rescanFrame (all : List (Nat × Nat × Nat)) (lfn : Nat) (s : State) : State :=
  let es := logEntries s all lfn
  let s := { s with xlat := { s.xlat with pi := s.xlat.pi.map (fun e =>
    if e.2.checkBad && lfnOf e.2.lln.toNat == lfn then (e.1, { e.2 with valid := false, tomb := true, checkBad := false }) else e) } }
  let s := es.foldl (fun s e =>
    if (piLookup s e.1).1.isSome ∨ !piRoom s e.1 then s
    else
      let k := e.2.2 / 64
      let t := match sfind s.xlat.ptimes e.1 with | some v => v.zeroExtend 64 <<< 17 | none => s.time.ftime
      (indexPatch ⟨BitVec.ofNat 40 e.1, BitVec.ofNat 24 e.2.1, BitVec.ofNat 19 (k / 1024), BitVec.ofNat 10 (k % 1024),
        BitVec.ofNat 6 (e.2.2 % 64), true, false, false, false⟩ t s).2) s
  makeDue lfn 1 0 false (fsumRefresh lfn s)

/-! ## Re-settle (R304, R308) -/

/-- The bands due for re-settle: by ATI, by age, or measured. -/
def resettleBands (s : State) : List Nat :=
  (liveBands s).filter (fun b =>
    let d := bandOf s b
    let ms := (liveOf d).foldl (fun a m => max a (bandAti s b (memberAt s b m).1)) 0
    Nat.ble (s.mm.resettleH.toNat * 3600 * 1000) ms ||
      Nat.ble (365 * 86400 * 10 ^ 9) (s.time.ftime.toNat - d.pstamp.toNat) || mustMeasure s b)

/-- Their frames due at priority 6, largest ATI first. -/
def resettle (s : State) : State :=
  (resettleBands s).foldl (fun s b =>
    let ms := bandAti s b (memberAt s b 0).1
    (framesOf s b).foldl (fun s l => makeDue l 6 (2 ^ 64 - ms) false s) s) s

/-! ## The rows of media management -/

/-- Batches opened while full ones can be (R266). -/
def openFull (s : State) : State :=
  let full := fun s : State => match chooseBand s with
    | some b => Nat.ble ((usableMembers s b).length - 4) (readyDues s).length
    | none => false
  times 96 (fun s => if s.mm.due.length < 24 then s else if full s then openBatch s else s) s

/-- FOLD_BATCH_TIMER: the oldest due frame has waited 20 ms, so a band opens for a batch (R266). -/
def execFoldBatchTimer (s : State) : Res := ran (mediaNext (openBatch (begin s)))

/-- FOLD_AGE_TRIGGER: a frame's oldest patch is more than 600 s old (R264). -/
def execFoldAgeTrigger (lfn : BitVec 24) (s : State) : Res :=
  let s := begin s
  let (n, o) := fsumOf s lfn.toNat
  ran (if n = 0 then s else makeDue lfn.toNat 4 o.toNat false s)

/-- FAST_FRAME_IDLE_TIMEOUT: an unpinned fast frame has had no write for 24 h (R298). -/
def execFastFrameIdleTimeout (lfn : BitVec 24) (s : State) : Res :=
  let s := begin s
  let e := ftEntry s lfn.toNat
  ran (if ftMode e = mFast ∧ !ftPinned e then makeDue lfn.toNat 7 (sget 0 s.mm.lastWrite lfn.toNat).toNat false s else s)

/-- CHECKPOINT_IMAGE_START: 2²⁴ records or 60 min since the last image start (R282). -/
def execCheckpointImageStart (s : State) : Res :=
  let s := begin s
  ran (if s.mm.imageRun.isSome then s else piBaseStart (imageStart s))

/-- A dirty frame map's first `n` segments, as many as find room (R602). -/
def mapWrite (n : Nat) (now : List Nat) (s : State) : List Nat × State :=
  (List.range n).foldl (fun (a : List Nat × State) i =>
    match pickSegment a.2 with
    | none => a
    | some (k, s) =>
      let s := placeSeg k { noSeg with kind := .dmap, base := s.mm.cseq, index := i, next := 63 } s
      (a.1 ++ [k], (List.range 63).foldl (fun s j => segPut k j (dmapLine now i j) s)
        { s with mm := { s.mm with mapSegs := s.mm.mapSegs ++ [k] } })) ([], s)

/-- DIRTY_MAP_GENERATION: a new generation of the dirty frame map replaces the older of the two (R602). -/
def execDirtyMapGeneration (s : State) : Res :=
  let s := begin s
  if s.span.desc.isSome then ran s
  else
    let now := dedup ((dirtyLlns s).map lfnOf)
    let w := mapWrite 521 now s
    ran { w.2 with mm := { w.2.mm with mapOld := w.2.mm.mapNew, mapNew := now, mapDue := [], mapSegs := w.1 } }

/-- PATCH_LOG_RESCAN_END: the pass ends; the frames it serves have their patches again (R265). -/
def execPatchLogRescanEnd (s : State) : Res :=
  let s := begin s
  let fs := s.xlat.rescanPass
  let r := logRead true { s with xlat := { s.xlat with rescanPass := [] } }
  let s := fs.foldl (fun s l => rescanFrame r.1 l s) r.2
  ran (mediaNext (updLoad s))

/-- FRAME_TABLE_RESTORE_END: the restored entry is committed with PATCHED set (R82). -/
def execFrameTableRestoreEnd (lfn : BitVec 24) (s : State) : Res :=
  let s := begin s
  if !s.xlat.restoring.contains lfn.toNat then ran s
  else
    let (e, ps) := loggedEntry s lfn.toNat
    ran (mediaNext (ftCommit lfn.toNat (e ||| 0x10000000) { s with xlat := { s.xlat with psnap := sset 0 s.xlat.psnap lfn.toNat ps } }))

end Sys2Proof.Machine
end

