-- ==== Sys2Proof/Machine/Loss.lean ====
section
/-! DEFINITION. What a channel, die or bank that stops takes with it, and the start steps of a channel (R243, R249 to R253,
R312, R325, R421, R475). -/

namespace Sys2Proof.Machine

/-! ## Work lost with a unit -/

/-- The batch of a band that is still being programmed. -/
def liveBatch (s : State) (b : Nat) : Option FoldBatch := s.mm.batches.find? (fun f => f.band == b && !f.verified)

/-- The batch of a band, while it can still be abandoned: before any commit record, verified or not (R312). -/
def openTarget (s : State) (b : Nat) : Option FoldBatch :=
  s.mm.batches.find? (fun f => f.band == b && Nat.blt f.band (2 ^ 20) &&
    !f.slots.any (fun x => x.phase == .committed || x.phase == .ended || x.phase == .done))

/-- A program or clear that ended with its unit: its target is given up, a drain goes on, a band's clears start again. -/
def progLost (p : CProg) (s : State) : State :=
  match p.purpose with
  | .page b _ _ => match liveBatch s b with | some f => abandonBatch f 3 none s | none => s
  | .drain l => drainRetry l s
  | .fill l c => moveLost l c s
  | .clear b _ => setBand b (fun d => if d.cls = .clearing then { d with cls := .dead, cleared := 0 } else d) s

/-- A read whose frame will not come: the read it is part of goes on without it; read-backs and scrub reads are asked again, while their member
is in service. -/
def readLost (r : CRead) (s : State) : State :=
  match r.purpose with
  | .rd rid key => readLineRes rid key r.step .silent s
  | .readback b m x => if memberMissing s b m then s else askReadback b m x s
  | .scrubDense b m x => scrubAsk b m x r.step s
  | .scrubFast f c pos => scrubAskFast f c pos r.step s

/-- The sequencer's work at the places of a channel that `hit` names, dropped; windows run on to the end of tDRST (R417). No response to it
is taken any more (R16), and its tags stay in use until their frames have been taken (R233). -/
def dropWork (ch : Nat) (hit : Nat → Nat → Bool) (s : State) : State :=
  let c := cartOf s ch
  let rHit := fun r : CRead => hit r.die r.bank
  let pHit := fun p : CProg => hit p.die p.bank && p.phase != .finishing
  let reads := c.reads.filter rHit ++ (c.outst.filter (fun o => rHit o.2)).map (fun o => o.2)
  let progs := c.progs.filter pHit ++ c.running.filter pHit
  let s := setCart ch (fun c => { c with
    reads := c.reads.filter (fun r => !rHit r), outst := c.outst.filter (fun o => !rHit o.2)
    progs := c.progs.filter (fun p => !pHit p), running := c.running.filter (fun p => !pHit p)
    stale := c.stale ++ (c.outst.filter (fun o => rHit o.2)).map (fun o => (o.1, o.2.die)) ++
      (c.running.filter pHit).map (fun p => (p.tag, p.die))
    suspended := c.suspended.filter (fun p => !hit p.1 p.2) }) s
  let s := progs.foldl (fun s p => progLost p s) s
  reads.foldl (fun s r => readLost r s) s

/-- The windows of a channel's places ended (R417); their tags stay in use until their frames have been taken (R233). -/
def endWindows (ch : Nat) (hit : Nat → Nat → Bool) (s : State) : State :=
  let pHit := fun p : CProg => hit p.die p.bank
  let progs := (cartOf s ch).running.filter pHit
  progs.foldl (fun s p => progLost p s) (setCart ch (fun c => { c with
    running := c.running.filter (fun p => !pHit p), stale := c.stale ++ progs.map (fun p => (p.tag, p.die)) }) s)

/-- Every open band with a missing member abandoned before its commit (R312 cause 3). -/
def abandonMissing (s : State) : State :=
  s.mm.batches.foldl (fun s f =>
    match openTarget s f.band with
    | some g =>
      if (liveOf (bandOf s g.band)).any (fun m => memberMissing s g.band m) then abandonBatch g 3 none s
      else s
    | none => s) s

/-- The places of a channel, die or bank. -/
def unitHits (u : Nat) : Nat → Nat → Bool := fun die bank =>
  match uClass u with
  | 2 => true
  | 3 => uIndex u % 16 == die
  | _ => uIndex u / 8 % 16 == die && uIndex u % 8 == bank

/-- Bands written, and open ones that a commit has reached, keep a mark on a member that has left service: it is left out until the band is
written again (R325). The copies of sets in use there are flagged (R97, R338; DEDUCED, log entry 85). -/
def markFailed (u : Nat) (s : State) : State :=
  let there := fun (f c : Nat) => (fastPlace s f c 0).1 == unitChannel u && unitHits u (fastPlace s f c 0).2.1 7
  let s := ((s.xlat.fst.filter (fun e => fsUse e.2 != 0 && !isImageSet s e.1)).map (fun e => e.1)).foldl (fun s f =>
    let s := if there f 0 then flagCopy f 0 s else s
    if there f 1 then flagCopy f 1 s else s) s
  let marks := fun (b : Nat) (d : Band) => (liveOf d).foldl (fun f m =>
    let p := memberAt s b m
    if p.1 = unitChannel u ∧ unitHits u p.2 (bandBank b) then setBit f m true else f) d.failed
  { s with mm := { s.mm with bands := s.mm.bands.map (fun e =>
      if e.2.cls = .written ∨ (e.2.cls = .open_ ∧ (openTarget s e.1).isNone) then (e.1, { e.2 with failed := marks e.1 e.2 }) else e) } }

/-- The jobs on units that a unit contains end with it; a contained unit in Testing is as before its test, aborted (R475). -/
def endContained (u : Nat) (s : State) : State :=
  s.unit.running.foldl (fun s j =>
    let inside := fun (v : BitVec 24) => (containers v.toNat).contains u
    let over_ := fun s : State => endJob j.id 0x0104 { s with tt := { s.tt with removals := s.tt.removals.filter (fun r => r.job != some j.id) } }
    match j.kind with
    | .unitTest v d b =>
      if !inside v then s
      else
        let s := setTest v.toNat 3 0 d s
        over_ (if ownState s v.toNat = .testing then setUnit v.toNat b 9 false s else s)
    | .unitBypass v => if inside v then over_ s else s
    | .unitIsolate v => if inside v then over_ s else s
    | .unitReadmit v => if inside v then over_ s else s
    | .unitRetire v => if inside v then over_ s else s
    | _ => s) s

/-- A channel, die or bank that carries no traffic any more: its work dropped, open bands abandoned, reads told, the losses
beyond the budget acted on. `down` is false for a Bypassed or Testing unit, whose media runs on. -/
def mediaLoss (u : Nat) (down : Bool) (s : State) : State :=
  let ch := unitChannel u
  let s := dropWork ch (unitHits u) s
  let s := if down then endContained u (endWindows ch (unitHits u) s) else s
  let s := if !down then s
    else if uClass u = 2 then
      setCart ch (fun c => { c with trained := false, fullRate := false, trainStep := 0, diesReady := 0, raws := [], rawWait := [], stale := [], rdout := none })
        (stackDown ch ((stackRails s ch).all (railUp s)) s)
    else
      let d := uIndex u % 16
      if uClass u = 3 then setCart ch (fun c => { c with diesReady := setBit c.diesReady d false }) (sendPkt ch 0x7F d 0 0 0 127 0 s)
      else s
  beyond (abandonMissing s)

/-- A detector takes a unit out of service (R251, R256, R474, R475). -/
def detectorIsolates (u reason : Nat) (s : State) : State :=
  let job := holdingJob s u
  let s := if ownState s u = .isolated then s else setUnit u .isolated reason true s
  let s := mediaLoss u true s
  match job with
  | none => s
  | some j =>
    let s := { s with tt := { s.tt with removals := s.tt.removals.filter (fun r => r.unit.toNat != u) } }
    match j.kind with
    | .unitTest .. => endJob j.id 0x0301 (setTest u 3 0 (match j.kind with | .unitTest _ d _ => d | _ => false) s)
    | .unitIsolate _ => endJob j.id 0 s
    | .unitBypass _ => endJob j.id 0x0101 s
    | _ => endJob j.id 0x0301 s

/-! ## The start steps of a channel (R250 to R253) -/

/-- The pattern WRPAT writes; the manual names none (DESIGN CHOICE, log entry 20). -/
def trainPattern : BitVec 1024 := BitVec.ofNat 1024 (ofLe (List.replicate 64 [0x55, 0xAA]).flatten)

/-- A step of R250 begun: 4 to 9, and 16 to 18 for steps 6 to 8 repeated at full rate. The delays and codes that training
finds are the hardware's own: free values. -/
def trainTo (ch step : Nat) (s : State) : State :=
  let s := setCart ch (fun c => { c with trainStep := step }) s
  match step with
  | 4 => sendPkt ch 0x40 0 0 0 0 127 0 s
  | 5 => (List.range 16).foldl (fun s d => askRaw ch 0x33 d 0 3 s) s
  | 7 => askRaw ch 0x43 0 0 6 s
  | 17 => askRaw ch 0x43 0 0 6 s
  | 8 => writeEye ch s
  | 18 => writeEye ch s
  | 9 => sendPkt ch 0x35 0 0 0 1 127 0 s
  | _ => s
where
  writeEye (ch : Nat) (s : State) : State :=
    let (v, s) := drawBits 6 s
    let s := sendPkt ch 0x35 0 0 0 v.toNat 127 3 (setCart ch (fun c => { c with vref := v }) s)
    let s := send (sendPkt ch 0x42 0 0 0 0 127 0 s) (.burst ch 0 trainPattern)
    askRaw ch 0x43 0 0 6 s

/-- MRESET_N of a channel low, then high: the stack's operations end (R248) and the steps of R250 begin. Counters, the codes of the last
ZQCAL and the delays found last are kept (R261). VREFDQ goes back to 0, as the stack's own code does, while a channel that is only isolated
keeps it: the text does not say (DESIGN CHOICE, log entry 20). -/
def startTraining (ch : Nat) (s : State) : State :=
  let s := stackDown ch ((stackRails s ch).all (railUp s)) s
  let s := setStack ch (fun k => { k with mreset := true }) s
  setCart ch (fun c => ({
    caCheck := c.caCheck, frameErr := c.frameErr, pfail := c.pfail, cfail := c.cfail, retrains := c.retrains
    faultAt := c.faultAt, zqPu := c.zqPu, zqPd := c.zqPd, caDelay := c.caDelay, dqs0 := c.dqs0, dqs1 := c.dqs1
    timeouts := c.timeouts, trainStep := 3 } : Carter)) s

/-- The readmit of a quadrant given up: one of its channels failed its training (R475). -/
def quadFails (q : Nat) (s : State) : State :=
  match holdingJob s q with
  | some j =>
    (match j.kind with
    | .unitReadmit _ =>
      let chs := (children s q).filter (fun c => unitPresent s c && inTraining s (uIndex c))
      endJob j.id 0x0301 (chs.foldl (fun s c => mediaLoss c true s) s)
    | _ => s)
  | none => s

/-- A channel that fails its training becomes Isolated, with the Critical record and the step that failed (R251). -/
def trainFail (ch step : Nat) (s : State) : State :=
  let s := { s with tt := { s.tt with removals := s.tt.removals.filter (fun r => !(r.unit.toNat == uChannel ch && r.job.isNone)) } }
  let s := setCart ch (fun c => { c with retrainWait := false }) s
  quadFails (uQuad (ch / 8))
    (detectorIsolates (uChannel ch) 3 (event { code := 0x020D, unit := uChannel ch, p0 := if 16 ≤ step then 10 else step } s))

/-- One try of step 6 of R250, or of its repeat in step 10: CATRAIN entered and left. Whether the echoed beats let the delay be centered,
and the delay found, are the hardware's own: free choices, the delay one of the 256 codes of CA_DELAY (R261; log entry 20). -/
def tryCa (ch step : Nat) (s : State) : Bool × State :=
  let s := sendPkt ch 0x41 0 0 0 0 127 0 (sendPkt ch 0x41 0 0 0 0 127 1 (trainTo ch step s))
  let (ok, s) := drawBool s
  let (v, s) := drawBits 8 s
  (ok, if ok then setCart ch (fun c => { c with caDelay := v }) s else s)

/-- Step 6 with the one retry R251 allows, then the read eye; `retried` says that step 10, of which this is a part, has used its retry. -/
def trainCa (ch step : Nat) (retried : Bool) (s : State) : State :=
  let on := fun (r : Bool) (s : State) => trainTo ch (step + 1) (setCart ch (fun c => { c with trainRetry := r && step == 16 }) s)
  let a := tryCa ch step s
  if a.1 then on retried a.2
  else if retried then trainFail ch step a.2
  else
    let b := tryCa ch step a.2
    if b.1 then on true b.2 else trainFail ch step b.2

/-- A step that failed is tried again once, step 10 from its start; the second failure fails the channel (R251). -/
def trainAgain (ch : Nat) (s : State) : State :=
  let c := cartOf s ch
  if c.trainRetry then trainFail ch c.trainStep s
  else if 16 ≤ c.trainStep then trainCa ch 16 true s
  else trainTo ch c.trainStep (setCart ch (fun c => { c with trainRetry := true }) s)

/-- The reference slots of a die's banks loaded (R246, R303). -/
def loadRefs (ch die : Nat) (s : State) : State :=
  (List.range 8).foldl (fun s b => (List.range 4).foldl (fun s j =>
    send (sendPkt ch 0x03 die b 0 0 127 j s) (.burst ch 0 ((refSlotWord s (dieKey ch die) j).setWidth 1024))) s) s

/-- The last step: the channel Ready, its dies Ready; the job that readmits it, or its quadrant, ends (R250, R473). MCH_RETRAIN.COUNT counts
a training as it completes; when it counts is not stated (R261; DESIGN CHOICE, log entry 20). -/
def trainDone (ch : Nat) (s : State) : State :=
  let dies := (List.range 16).foldl (fun a d =>
    if inService (ownState s (uDie (dieKey ch d))) ∧ !(stackOf s ch).faults.contains d then a + 2 ^ d else a) 0
  let s := setCart ch (fun c => { c with
    trainStep := 11, trained := true, fullRate := true, trainRetry := false, retrainWait := false
    retrains := satInc c.retrains, diesReady := BitVec.ofNat 16 dies }) s
  let s := (List.range 16).foldl (fun s d => if (cartOf s ch).diesReady.getLsbD d then loadRefs ch d s else s) s
  let s := { s with tt := { s.tt with removals := s.tt.removals.filter (fun r => !(r.unit.toNat == uChannel ch && r.job.isNone)) } }
  let finish := fun (u : Nat) (s : State) => match holdingJob s u with
    | some j => (match j.kind with
      | .unitReadmit _ => endJob j.id 0 (setUnit u .ready 1 false (markFailed (uChannel ch) s))
      | _ => s)
    | none => s
  let q := uQuad (ch / 8)
  let s := finish (uChannel ch) s
  let s := match holdingJob s q with
    | some j => (match j.kind with
      | .unitReadmit _ => if ownState s (uChannel ch) = .isolated then setUnit (uChannel ch) .ready 7 false (markFailed (uChannel ch) s) else s
      | _ => s)
    | none => s
  if ((children s q).filter (unitPresent s)).any (fun c => inTraining s (uIndex c)) then s else finish q s

end Sys2Proof.Machine
end

