-- ==== Sys2Proof/Machine/Frames.lean ====
section
/-! DEFINITION. Frames and events as a Carter sequencer receives them, and the ends of stack operations it follows (R230 to R233,
R240, R250 to R257, R419). -/

namespace Sys2Proof.Machine

/-! ## Checks of a frame (R232, R256) -/

/-- Bytes 0 to 6 of a frame header of a KIND. -/
def hdrNums (kind : Nat) (h : FrameHdr) : List Nat :=
  [h.tag.toNat, kind, h.die.toNat + 16 * h.bank.toNat, h.bstate.toNat, 0, 0, 0]

/-- Byte i of a 16-byte payload. -/
def payByte (p : BitVec 128) (i : Nat) : Nat := bits p.toNat (8 * i) 8

/-- The CRC-16 of an info or event payload. -/
def payOk (p : BitVec 128) : Bool := crc16 ((List.range 14).map (payByte p)) == bits p.toNat 112 16

/-- PARAM of an event. -/
def payParam (p : BitVec 128) : Nat := bits p.toNat 32 32

/-- The next RDOUT asked for: it follows the host reads that wait (R230, R257). -/
def nextFrame (ch : Nat) (s : State) : State := setCart ch (fun c => { c with rdout := some false }) s

/-- A frame's checks, injection point 0x0009 among them: good, or to be taken again, or bad a second time. -/
inductive FrameCheck where
  | good
  | again
  | bad
  deriving DecidableEq, Repr

/-- A frame judged: the first failure is counted and repeated, the second counted and recorded (R232, R256). -/
def checkFrame (ch kind : Nat) (h : FrameHdr) (crcGood : Bool) (s : State) : FrameCheck × State :=
  let hit := isArmed s 0x0009 (uChannel ch)
  let s := if hit then fire 0x0009 (uChannel ch) s else s
  let s := if kind = 4 then s else setCart ch (fun c => { c with emptyRun := 0 }) s
  if crc8 (hdrNums kind h) = h.hcrc.toNat ∧ crcGood ∧ !hit then (.good, setCart ch (fun c => { c with repeatDue := false }) s)
  else
    let s := setCart ch (fun c => { c with frameErr := satInc c.frameErr }) s
    if !(cartOf s ch).repeatDue then
      (.again, setCart ch (fun c => { c with repeatDue := true, rdout := some true }) s)
    else
      (.bad, event { code := 0x020C, unit := uChannel ch, p0 := 0x81, p1 := h.die.toNat }
        (setCart ch (fun c => { c with repeatDue := false }) s))

/-- MALERT_N: a frame is ready, and RDOUT takes it (R230). -/
def execMalertN (ch : Fin 32) (s : State) : Res := ran (mediaNext (nextFrame ch (begin s)))

/-! ## Line frames (R135, R137, R256, R319) -/

/-- The outstanding read of a tag. -/
def outRead (s : State) (ch : Nat) (tag : BitVec 7) : Option CRead :=
  ((cartOf s ch).outst.find? (fun o => o.1 == tag)).map (fun o => o.2)

/-- An answered read leaves the outstanding ones. -/
def dropOut (ch : Nat) (tag : BitVec 7) (s : State) : State :=
  setCart ch (fun c => { c with outst := c.outst.filter (fun o => o.1 != tag) }) s

/-- A retry that succeeds after its read was answered: its record and its frame's refresh all the same, its die charged unless the read has
been (R136, R343). -/
def lateRetry (ch : Nat) (r : CRead) (res : LineRes) (s : State) : State :=
  let good := fun l : Line66 =>
    if r.bank = 7 then
      (match fastLln s (fastSetOf s ch r.die r.block).1 (21846 * (r.block % 3) + (r.addr - 20)) with
      | some (_, seq) => fastTest seq l
      | none => true)
    else
      let b := bandAt s r.die r.bank r.block
      (match (liveOf (bandOf s b)).find? (fun m => memberAt s b m == (ch, r.die)) with
      | some m => memberGood (bandOf s b) m l
      | none => true)
  match res with
  | .good l _ =>
    if r.step = 0 ∨ !good l then s
    else if r.charged then retryNoted (dieKey ch r.die) r.lln r.step s
    else retryGood (dieKey ch r.die) r.lln r.step s
  | _ => s

/-- A read's answer handed to what asked for it. -/
def readAnswered (ch : Nat) (r : CRead) (res : LineRes) (s : State) : State :=
  let line := match res with | .good l c => some (l, c) | _ => none
  match r.purpose with
  | .rd rid key =>
    if s.media.mreads.any (fun m => m.rid == rid) then readLineRes rid key r.step res s else lateRetry ch r res s
  | .readback b m x => readBackRes b m x (line.map (fun l => l.1)) s
  | .scrubDense b m x => scrubDenseRes b m x r.step line s
  | .scrubFast f c pos => scrubFastRes f c pos r.step line s

/-- LINE_FRAME: the line decoded and handed on; injection point 0x0015 discards it as if none had come (R137, R256). -/
def execLineFrame (ch : Fin 32) (h : FrameHdr) (data : MediaLine) (s : State) : Res :=
  let (c, s) := checkFrame ch 0 h true (begin s)
  match c with
  | .again => ran (mediaNext s)
  | .bad =>
    let s := match outRead s ch h.tag with
      | some r => readAnswered ch r .failed (dropOut ch h.tag s)
      | none => s
    ran (mediaNext (nextFrame ch s))
  | .good =>
    let s := match outRead s ch h.tag with
      | none => dropStale ch h.tag s
      | some r =>
        let u := uDie (dieKey ch r.die)
        if isArmed s 0x0015 u then fire 0x0015 u s
        else
          let s := dropOut ch h.tag s
          readAnswered ch r (match bchDecode data with | some (l, c) => .good l c | none => .failed) s
    ran (mediaNext (nextFrame ch s))

/-- READ_TIMEOUT: no frame within tREAD and 1 µs: the member failed; eight in 1 ms make the die Degraded (R256). The same
silence after an IDENT makes the die Isolated (R253). -/
def execReadTimeout (ch : Fin 32) (tag : BitVec 7) (s : State) : Res :=
  let s := begin s
  match outRead s ch tag with
  | some r =>
    let s := event { code := 0x020C, unit := uChannel ch, p0 := 0x80, p1 := r.die } (dropOut ch tag s)
    let now := s.time.ftime
    let s := setCart ch (fun c => { c with
      timeouts := (c.timeouts.filter (fun t => Nat.ble (now.toNat - t.2.toNat) 1000000)) ++ [(r.die, now)] }) s
    let u := uDie (dieKey ch r.die)
    let s := if 8 ≤ ((cartOf s ch).timeouts.filter (fun t => t.1 == r.die)).length ∧ ownState s u = .ready then
        setUnit u .degraded 4 false s else s
    ran (mediaNext (readAnswered ch r .silent s))
  | none =>
    match (cartOf s ch).raws.find? (fun r => r.1 == tag) with
    | some (_, k) =>
      let s := setCart ch (fun c => { c with raws := c.raws.filter (fun r => r.1 != tag) }) s
      if k % 16 = 3 then
        let s := detectorIsolates (uDie (dieKey ch (k / 16))) 3 s
        ran (mediaNext (if (cartOf s ch).trainStep = 5 ∧ !(cartOf s ch).raws.any (fun r => r.2 % 16 == 3) then trainCa ch 6 false s else s))
      else ran s
    | none => ran s

/-! ## Info, pattern and empty frames (R252, R253, R255, R256) -/

/-- A DIE_FAULT acted on (R256): DRESET, or Isolated when one came within 24 h before. -/
def dieFault (ch die cause : Nat) (s : State) : State :=
  let s := event { code := 0x020C, unit := uChannel ch, p0 := 0x0C, p1 := die, p2 := cause } s
  let s := setStack ch (fun k => { k with faults := if k.faults.contains die then k.faults else k.faults ++ [die] }) s
  let soon := match sfind (cartOf s ch).faultAt die with
    | some t => Nat.blt (s.time.ftime.toNat - t.toNat) (86400 * 1000000000)
    | none => false
  if soon then detectorIsolates (uDie (dieKey ch die)) 4 s
  else
    let s := setCart ch (fun c => { c with faultAt := sput c.faultAt die s.time.ftime, diesReady := setBit c.diesReady die false }) s
    sendPkt ch 0x7F die 0 0 0 127 0 (dropWork ch (fun d _ => d == die) s)

/-- The next step of training after the last IDENT answer (R250). -/
def identsDone (ch : Nat) (s : State) : State :=
  if (cartOf s ch).trainStep = 5 ∧ !(cartOf s ch).raws.any (fun r => r.2 % 16 == 3) then trainCa ch 6 false s else s

/-- The MX16 geometry in an IDENT answer (R253). -/
def geometryOk (p : BitVec 128) : Bool :=
  payByte p 5 == 8 && bits p.toNat 48 16 == 6144 && bits p.toNat 64 24 == 65600 && bits p.toNat 88 16 == 21866

/-- A die readmitted by DRESET and IDENT ends its job (R473): Degraded while its failures of 24 h exceed the limit. -/
def dieReadmitted (die : Nat) (good : Bool) (s : State) : State :=
  let job := s.unit.running.find? (fun j => match j.kind with
    | .unitReadmit u => (uClass u.toNat == 3 && uIndex u.toNat == die) || (uClass u.toNat == 4 && uIndex u.toNat / 8 == die)
    | _ => false)
  match job with
  | none => s
  | some j =>
    match j.kind with
    | .unitReadmit u =>
      let u := u.toNat
      if !good then endJob j.id 0x0301 s
      else
        let s := markFailed u s
        let s := if uClass u = 3 then setCart (die / 16) (fun c => { c with
            faultAt := sdel c.faultAt (die % 16), diesReady := setBit c.diesReady (die % 16) true }) s else s
        let weak := uClass u == 3 && Nat.blt s.lp.dieFailLimit.toNat (dieFails24 s die)
        endJob j.id 0 (setUnit u (if weak then .degraded else .ready) 1 false (loadRefs (die / 16) (die % 16) s))
    | _ => s

/-- INFO_FRAME: the answer used by what asked for it (R252, R253, R255). -/
def execInfoFrame (ch : Fin 32) (h : FrameHdr) (payload : BitVec 128) (s : State) : Res :=
  let (c, s) := checkFrame ch 1 h (payOk payload) (begin s)
  match c with
  | .again => ran (mediaNext s)
  | .bad => ran (mediaNext (nextFrame ch s))
  | .good =>
    let s := match (cartOf s ch).raws.find? (fun r => r.1 == h.tag) with
      | none => s
      | some (_, k) =>
        let die := k / 16
        let s := setCart ch (fun c => { c with raws := c.raws.filter (fun r => r.1 != h.tag) }) s
        if k % 16 = 1 then
          let u := uDie (dieKey ch die)
          match s.evt.armed.find? (fun a => a.point.toNat == 0x0016 && a.unit.toNat == u) with
          | some a => dieFault ch die (a.mask.toNat % 256) (fire 0x0016 u s)
          | none => if payByte payload 8 % 16 = 1 then dieFault ch die 0 s else s
        else if k % 16 = 2 then
          { s with mm := { s.mm with dieTemp := sset 0 s.mm.dieTemp (dieKey ch die) (payload.extractLsb' 0 16) } }
        else if k % 16 = 3 then
          let good := geometryOk payload
          let s := dieReadmitted (dieKey ch die) good s
          let s := if good then s else detectorIsolates (uDie (dieKey ch die)) 3 s
          identsDone ch s
        else s
    ran (mediaNext (nextFrame ch s))

/-- One tap toward the eye center (R252). -/
def oneTap (d c : Byte) : Byte := if d.toNat < c.toNat then d + 1 else if c.toNat < d.toNat then d - 1 else d

/-- A full retraining needed: it waits for the timetable (R252). -/
def requestRetrain (ch : Nat) (s : State) : State :=
  if (s.tt.removals.any (fun r => r.unit.toNat == uChannel ch && r.job.isNone)) ∨ !(cartOf s ch).trained then s
  else
    let s := setCart ch (fun c => { c with retrainWait := true }) s
    { s with tt := { s.tt with removals := s.tt.removals ++ [⟨BitVec.ofNat 24 (uChannel ch), none, false, false⟩] } }

/-- PATTERN_FRAME: the eye judged; `margin` counts taps of 1/64 UI, and 20% of one UI is the limit (R250, R252). -/
def execPatternFrame (ch : Fin 32) (h : FrameHdr) (pattern : BitVec 1024) (center0 center1 : Byte) (margin : Byte) (s : State) :
    Res :=
  let (c, s) := checkFrame ch 3 h true (begin s)
  match c with
  | .again => ran (mediaNext s)
  | .bad => ran (mediaNext (nextFrame ch s))
  | .good =>
    let open_ := Nat.ble 64 (5 * margin.toNat)
    let s := match (cartOf s ch).raws.find? (fun r => r.1 == h.tag) with
      | none => s
      | some (_, k) =>
        let s := setCart ch (fun c => { c with raws := c.raws.filter (fun r => r.1 != h.tag) }) s
        if k % 16 = 5 then
          let s := setCart ch (fun c => { c with dqs0 := oneTap c.dqs0 center0, dqs1 := oneTap c.dqs1 center1 }) s
          if open_ then s else requestRetrain ch s
        else
          let step := (cartOf s ch).trainStep
          let write := step = 8 ∨ step = 18
          if !open_ ∨ (write ∧ pattern ≠ trainPattern) then trainAgain ch s
          else
            let s := if step = 17 then s else setCart ch (fun c => { c with trainRetry := false }) s
            if step = 7 ∨ step = 17 then
              trainTo ch (step + 1) (setCart ch (fun c => { c with dqs0 := center0, dqs1 := center1 }) s)
            else if step = 8 then trainTo ch 9 s
            else if step = 18 then trainDone ch s
            else s
    ran (mediaNext (nextFrame ch s))

/-- EMPTY_FRAME: checked as every frame (R232); 16 in a row with MALERT_N low fail the channel (R256). -/
def execEmptyFrame (ch : Fin 32) (h : FrameHdr) (s : State) : Res :=
  let (c, s) := checkFrame ch 4 h true (begin s)
  match c with
  | .again => ran (mediaNext s)
  | .bad => ran (mediaNext (nextFrame ch s))
  | .good =>
    let n := if malertLow s ch then (cartOf s ch).emptyRun + 1 else 0
    let s := setCart ch (fun c => { c with emptyRun := n }) s
    if 16 ≤ n then
      let s := event { code := 0x020C, unit := uChannel ch, p0 := 0x82, p1 := h.die.toNat }
        (setCart ch (fun c => { c with emptyRun := 0 }) s)
      ran (mediaNext (trainFail ch 0 s))
    else ran (mediaNext (nextFrame ch s))

/-! ## Events of programs and clears (R254, R256, R258, R272, R289, R291, R312) -/

/-- The frame of an event checked, its action run, the next frame asked for. -/
def onEvent (ch : Nat) (h : FrameHdr) (payload : BitVec 128) (act : State → State) (s : State) : Res :=
  let (c, s) := checkFrame ch 2 h (payOk payload) (begin s)
  match c with
  | .again => ran (mediaNext s)
  | .bad => ran (mediaNext (nextFrame ch s))
  | .good => ran (mediaNext (nextFrame ch (act (if payByte payload 0 = 1 then s else dropStale ch h.tag s))))

/-- The program or clear of a tag. -/
def runningProg (s : State) (ch : Nat) (tag : BitVec 7) : Option CProg := (cartOf s ch).running.find? (fun p => p.tag == tag)

/-- A program or clear over: its bank is free. -/
def dropRun (ch : Nat) (p : CProg) (s : State) : State :=
  setCart ch (fun c => { c with
    running := c.running.filter (fun x => !(x.die == p.die && x.bank == p.bank))
    suspended := c.suspended.filter (fun x => x != (p.die, p.bank)) }) s

/-- PROG_HELD: the program waits for its window (R258). -/
def execProgHeld (ch : Fin 32) (h : FrameHdr) (payload : BitVec 128) (s : State) : Res :=
  onEvent ch h payload (fun s =>
    setCart ch (fun c => { c with running := c.running.map (fun p =>
      if p.tag = h.tag ∧ p.phase = .busy then { p with phase := .held, heldSince := s.time.ftime } else p) }) s) s

/-- PROG_DONE: the page's read-back, or the line's next step (R102, R109, R272). -/
def execProgDone (ch : Fin 32) (h : FrameHdr) (payload : BitVec 128) (s : State) : Res :=
  onEvent ch h payload (fun s =>
    match runningProg s ch h.tag with
    | none => s
    | some p =>
      let s := dropRun ch p s
      match p.purpose with
      | .drain l => drainNext l s
      | .fill l c => moveDone l c s
      | .page b m x => pageDone b m x s
      | .clear .. => s) s

/-- A program or clear that failed at its block (R256, R291, R312). -/
def progFailed (ch : Nat) (p : CProg) (s : State) : State :=
  let s := dropRun ch p s
  let blk := blockKey ch p.die p.bank p.block
  match p.purpose with
  | .drain l => drainRetry l (markBad blk 0 s)
  | .fill l c => moveLost l c (markBad blk 0 s)
  | .page b _ _ => match liveBatch s b with | some f => abandonBatch f 0 (some blk) s | none => markBad blk 0 s
  | .clear b m => clearEnded b m (markBad blk 1 s)

/-- PROG_FAIL (R256, R312). -/
def execProgFail (ch : Fin 32) (h : FrameHdr) (payload : BitVec 128) (s : State) : Res :=
  onEvent ch h payload (fun s =>
    let s := setCart ch (fun c => { c with pfail := satInc c.pfail }) s
    match runningProg s ch h.tag with
    | none => s
    | some p => progFailed ch p s) s

/-- CLEAR_DONE: the band is free once every member has reported (R289). -/
def execClearDone (ch : Fin 32) (h : FrameHdr) (payload : BitVec 128) (s : State) : Res :=
  onEvent ch h payload (fun s =>
    match runningProg s ch h.tag with
    | none => s
    | some p =>
      let s := dropRun ch p s
      match p.purpose with
      | .clear b m => clearEnded b m s
      | _ => s) s

/-- CLEAR_FAIL (R256, R291). -/
def execClearFail (ch : Fin 32) (h : FrameHdr) (payload : BitVec 128) (s : State) : Res :=
  onEvent ch h payload (fun s =>
    let s := setCart ch (fun c => { c with cfail := satInc c.cfail }) s
    match runningProg s ch h.tag with
    | none => s
    | some p => progFailed ch p s) s

/-- SUSPENDED: the bank's suspension is in effect; its reads follow (R241). -/
def execSuspended (ch : Fin 32) (h : FrameHdr) (payload : BitVec 128) (s : State) : Res := onEvent ch h payload (fun s => s) s

/-- SUSP_NOOP: nothing was suspended, so nothing is resumed (R236, R243). -/
def execSuspNoop (ch : Fin 32) (h : FrameHdr) (payload : BitVec 128) (s : State) : Res :=
  onEvent ch h payload (setCart ch (fun c => { c with
    suspended := c.suspended.filter (fun p => p != (h.die.toNat, h.bank.toNat)) })) s

/-- READ_DENIED: a read of the back end goes around; any other read is queued again (R256). -/
def execReadDenied (ch : Fin 32) (h : FrameHdr) (payload : BitVec 128) (s : State) : Res :=
  onEvent ch h payload (fun s =>
    match outRead s ch h.tag with
    | none => s
    | some r =>
      let s := dropOut ch h.tag s
      match r.purpose with
      | .rd rid key => readLineRes rid key r.step .denied s
      | _ => askRead ch r s) s

/-- ILLEGAL: the command did not run; a read of it has no frame, a program or clear of it has failed. -/
def execIllegal (ch : Fin 32) (h : FrameHdr) (payload : BitVec 128) (s : State) : Res :=
  onEvent ch h payload (fun s =>
    match outRead s ch h.tag with
    | some r => readAnswered ch r .silent (dropOut ch h.tag s)
    | none =>
      match runningProg s ch h.tag with
      | some p => progFailed ch p s
      | none => s) s

/-- A discarded packet sent again with its burst (R225): what the sequencer sent under its tag, or for its bank. A background READ whose bank
has begun an operation meanwhile waits for it like any other (R257). -/
def reissue (ch op die bank : Nat) (tag : BitVec 7) (arg : Nat) (s : State) : State :=
  if op = 0x01 then
    match outRead s ch tag with
    | some r =>
      if !r.host ∧ (opAt s ch r.die r.bank).isSome then askRead ch r (dropOut ch tag s)
      else sendPkt ch 0x01 r.die r.bank r.block r.addr tag 0 s
    | none => s
  else if op = 0x10 ∨ op = 0x12 ∨ op = 0x20 then
    match runningProg s ch tag with
    | some p => sendProg ch p s
    | none => s
  else if op = 0x11 then
    match opAt s ch die bank with
    | some p => send (sendPkt ch 0x11 die bank 0 0 127 arg s) (.burst ch (arg % 64) (p.bursts.getD (arg % 64) 0))
    | none => s
  else if op = 0x42 then send (sendPkt ch 0x42 0 0 0 0 tag arg s) (.burst ch 0 trainPattern)
  else if op = 0x35 then
    if arg = 0 then sendPkt ch 0x35 0 0 0 1 127 0 s
    else sendPkt ch 0x35 die 0 0 (if arg = 3 then (cartOf s ch).vref.toNat else 0) 127 arg s
  else if op = 0x03 then
    send (sendPkt ch 0x03 die bank 0 0 tag arg s) (.burst ch 0 ((refSlotWord s (dieKey ch die) (arg % 4)).setWidth 1024))
  else sendPkt ch op die bank 0 0 tag arg s

/-- CA_CHECK: the packet goes again; three within 1 ms call for retraining (R256). -/
def execCaCheck (ch : Fin 32) (h : FrameHdr) (payload : BitVec 128) (s : State) : Res :=
  onEvent ch h payload (fun s =>
    let now := s.time.ftime
    let s := setCart ch (fun c => { c with
      caCheck := satInc c.caCheck
      caTimes := c.caTimes.filter (fun t => Nat.ble (now.toNat - t.toNat) 1000000) ++ [now] }) s
    let s := reissue ch (payByte payload 2) h.die.toNat h.bank.toNat h.tag (bits (payParam payload) 20 8) s
    if 3 ≤ (cartOf s ch).caTimes.length then requestRetrain ch (setCart ch (fun c => { c with caTimes := [] }) s) else s) s

/-- DIE_FAULT (R256). -/
def execDieFault (ch : Fin 32) (h : FrameHdr) (payload : BitVec 128) (s : State) : Res :=
  onEvent ch h payload (dieFault ch h.die.toNat (payParam payload)) s

/-- PABORTED: the program is gone; its target is a failed fold target, a line is programmed again (R240, R243, R312). -/
def execPaborted (ch : Fin 32) (h : FrameHdr) (payload : BitVec 128) (s : State) : Res :=
  onEvent ch h payload (fun s =>
    match opAt s ch h.die.toNat h.bank.toNat with
    | none => s
    | some p =>
      let s := dropRun ch p s
      match p.purpose with
      | .drain l => drainRetry l s
      | .fill l c => moveLost l c s
      | .page b _ _ => match liveBatch s b with
        | some f => abandonBatch f 2 (some (blockKey ch p.die p.bank p.block)) s
        | none => s
      | .clear .. => s) s

/-- HOLD_LIMIT: tHOLD has passed since PROG_HELD: a PFIN that still comes leaves the target undefined, and the sequencer, which had no
window, sends PABORT (R240). -/
def execHoldLimit (ch : Fin 32) (die : Fin 16) (bank : Fin 8) (s : State) : Res :=
  let s := begin s
  let k := bankKey ch die bank
  let s := if (bankOf s k).st = .held then setBank k (fun b => { b with heldLate := true }) s else s
  match opAt s ch die bank with
  | some p => if p.phase = .held then ran (sendPkt ch 0x14 die bank 0 0 p.tag 0 s) else ran s
  | none => ran s

/-- HELD_READ_REROUTE: the host reads queued for a bank Held for 10 ms go around it (R419). -/
def execHeldReadReroute (ch : Fin 32) (die : Fin 16) (bank : Fin 8) (s : State) : Res :=
  let s := begin s
  match opAt s ch die bank with
  | some p =>
    if p.phase ≠ .held then ran s
    else
      let mine := fun r : CRead => r.host && r.die == die.val && r.bank == bank.val
      let rs := (cartOf s ch).reads.filter mine
      let s := setCart ch (fun c => { c with reads := c.reads.filter (fun r => !mine r) }) s
      let s := rs.foldl (fun s r => match r.purpose with
        | .rd rid key => readLineRes rid key r.step .denied { s with tt := { s.tt with rerouted := satInc s.tt.rerouted } }
        | _ => askRead ch r s) s
      ran (mediaNext s)
  | none => ran s

/-! ## Training and upkeep (R250 to R252) -/

/-- CHANNEL_TRAIN_TIMEOUT: the steps are not complete within 45 ms (R251). -/
def execChannelTrainTimeout (ch : Fin 32) (s : State) : Res :=
  let s := begin s
  if inTraining s ch then ran (mediaNext (trainFail ch (cartOf s ch).trainStep s)) else ran s

/-- ZQCAL_TIMER: a calibration every 128 ms while the channel runs (R252). -/
def execZqcalTimer (ch : Fin 32) (s : State) : Res :=
  let s := begin s
  if (cartOf s ch).trained then ran (sendPkt ch 0x40 0 0 0 0 127 0 s) else ran s

/-- TZQ_END: the latch is permitted and sent; the codes found are the stack's own, free values. In training the IDENTs follow
(R227, R247, R250). -/
def execTzqEnd (ch : Fin 32) (s : State) : Res :=
  let s := begin s
  if !(stackOf s ch).zqRunning then ran s
  else
    let s := setStack ch (fun k => { k with zqRunning := false, zqReady := true }) s
    let (u, s) := drawBits 6 s
    let (d, s) := drawBits 6 s
    let s := sendPkt ch 0x40 0 0 0 0 127 1 (setCart ch (fun c => { c with zqPu := u, zqPd := d }) s)
    ran (mediaNext (if (cartOf s ch).trainStep = 4 then trainTo ch 5 s else s))

/-- TINIT_END: the stack takes packets at low rate, every die Ready (R249); step 4 of R250 follows. -/
def execTinitEnd (ch : Fin 32) (s : State) : Res :=
  let s := begin s
  let k := stackOf s ch
  if k.powered ∧ k.mreset ∧ !k.accepting then
    let s := setStack ch (fun k => { k with accepting := true, fullRate := false, faults := [], resetting := [] }) s
    ran (if (cartOf s ch).trainStep = 3 then trainTo ch 4 s else s)
  else ran s

/-- MEDIA_PLL_LOCK: MCK runs at full rate, and steps 6 to 8 are repeated (R250). -/
def execMediaPllLock (ch : Fin 32) (s : State) : Res :=
  let s := begin s
  if (cartOf s ch).trainStep = 9 then
    ran (mediaNext (trainCa ch 16 false (setStack ch (fun k => { k with pllLocked := true }) (setCart ch (fun c => { c with fullRate := true }) s))))
  else ran s

/-- TDRST_END: every bank of the die Idle, its windows over (R243, R249, R417); a fault that has not cleared is queued again,
its cause the die's own, a free value. -/
def execTdrstEnd (ch : Fin 32) (die : Fin 16) (cleared : Bool) (s : State) : Res :=
  let s := begin s
  if !(stackOf s ch).resetting.contains die.val then ran s
  else
    let s := (List.range 8).foldl (fun s b => dropOps (bankKey ch die b) s) s
    let fault := (stackOf s ch).faults.contains die.val
    let s := setStack ch (fun k => { k with
      resetting := k.resetting.filter (fun d => d != die.val)
      faults := if cleared then k.faults.filter (fun d => d != die.val) else k.faults }) s
    let s := endWindows ch (fun d _ => d == die.val) s
    let kept := (stackOf s ch).ready ++ (stackOf s ch).pendInfo
    let s := setCart ch (fun c => { c with stale := c.stale.filter (fun r => r.2 != die.val || kept.any (fun f => f.tag == r.1)) }) s
    let s := if cleared ∧ (cartOf s ch).trained ∧ inService (ownState s (uDie (dieKey ch die))) then
        setCart ch (fun c => { c with diesReady := setBit c.diesReady die true }) s else s
    let s := if fault ∧ !cleared then
        let (c, s) := drawBits 32 s
        queueEvent ch die 0 127 0x0C 0x7F c.toNat s
      else s
    ran (mediaNext s)

end Sys2Proof.Machine
end

