-- ==== Sys2Proof/Machine/Host.lean ====
section
/-! DEFINITION. The host ports and CXL.mem: address decoding, reads, writes, credits, links, GPF (R14, R25 to R58, R70, R124,
R155 to R176, R195, R205). -/

namespace Sys2Proof.Machine

/-! ## Ports and LDs -/

/-- A port and an LD by index. -/
def portOf (s : State) (p : Nat) : Port := s.host.ports.getD p {}
def setPort (p : Nat) (f : Port → Port) (s : State) : State :=
  { s with host := { s.host with ports := lmod s.host.ports p f } }
def ldOf (s : State) (i : Nat) : Ld := s.host.lds.getD i {}
def setLd (i : Nat) (f : Ld → Ld) (s : State) : State :=
  { s with host := { s.host with lds := lmod s.host.lds i f } }

/-- The LD index of an LD-ID of a port (R442). -/
def ldIx (p l : Nat) : Nat := 16 * p + l

/-- Whether a port decodes CXL.mem for an LD now: link up in 256-byte flit mode, the LD there and in D0, the device not
unhitched (R32, R35, R36, R385). -/
def takesMem (s : State) (p l : Nat) : Bool :=
  (portOf s p).up && (portOf s p).flit256 && ldExists s (ldIx p l) && !(ldOf s (ldIx p l)).d3hot && !s.host.unhitched

/-! ## Addresses (R40, R45) -/

/-- The LD address a decoder gives for an HPA. -/
def decoderHit (d : Decoder) (hpa : Nat) : Option Nat :=
  if d.committed ∧ d.base ≤ hpa ∧ hpa < d.base + d.size ∧ d.gran ≠ 0 ∧ d.ways ≠ 0 then
    let off := hpa - d.base
    let chunk := off / d.gran
    if chunk % d.ways = d.pos then some (d.dpaBase + chunk / d.ways * d.gran + off % d.gran) else none
  else none

/-- The LD address of an HPA: the first decoder that holds it. -/
def ldAddress (d : Ld) (hpa : Nat) : Option Nat := d.decoders.findSome? (fun x => decoderHit x hpa)

/-- The LFN of an LD frame (R40). -/
def lfnOfFrame (d : Ld) (frame : Nat) : Option Nat :=
  (d.ranges.find? (fun r => Nat.ble r.frame frame && Nat.blt frame (r.frame + r.length))).map (fun r => r.lfn + (frame - r.frame))

/-- The LLN of an LD address. -/
def llnOfAddress (d : Ld) (a : Nat) : Option Nat :=
  (lfnOfFrame d (a / 2 ^ 22)).map (fun l => 65536 * l + a % 2 ^ 22 / 64)

/-- The LLN an access reaches; none when it is unbacked: before Memory Active, while a sanitize or secure erase runs, outside
every range, in a Parity frame (R46, R160, R592, R621). -/
def backing (s : State) (i hpa : Nat) : Option Nat :=
  let d := ldOf s i
  if !s.host.memoryActive || d.erase.isSome || s.sec.lowering != 0 then none
  else match (ldAddress d hpa).bind (llnOfAddress d) with
    | some l => if ftMode (ftEntry s (lfnOf l)) = mParity then none else some l
    | none => none

/-- The record of an unbacked access (R46). -/
def unbackedEvent (p i hpa : Nat) (s : State) : State :=
  event { code := 0x0802, unit := uPort p, p0 := i, p1 := (ldAddress (ldOf s i) hpa).getD hpa } s

/-! ## Reads (R46, R124, R195, R205, R208) -/

/-- A prefetched line a read looked for counts once if the read hit it (R219); on a miss it is gone. -/
def prefetchHit (lln : Nat) (hit : Bool) (s : State) : State :=
  if s.cache.prefetched.contains lln then { s with cache := { s.cache with
    prefetched := s.cache.prefetched.filter (fun l => l != lln)
    prefetchHit := if hit then satInc s.cache.prefetchHit else s.cache.prefetchHit } }
  else s

/-- A read request taken in. -/
def addReq (q : Req) (s : State) : State := { s with host := { s.host with reqs := s.host.reqs ++ [q], nextReq := s.host.nextReq + 1 } }

/-- A read counted as answered by resolution (R219). -/
def missed (s : State) : State := { s with cache := { s.cache with miss := satInc s.cache.miss } }

/-- A read counted as hit in the Near Cache or the side buffer, and in the Bulk Cache (R219). -/
def nearHit (lln : Nat) (s : State) : State :=
  prefetchHit lln true { s with cache := { s.cache with ncHit := satInc s.cache.ncHit } }
def bulkHit (lln : Nat) (s : State) : State :=
  prefetchHit lln true { s with cache := { s.cache with bcHit := satInc s.cache.bcHit } }

/-- A read of a line whose dirty copies are all lost on a span member: the outriders answer it (R148, R379). -/
def lostRead (id lln : Nat) (s : State) : State :=
  let lb := mediaValue s lln
  beginSpan (newRead id lln true (.dense 0 0 0) 2) lb.isNone true true lb (missed s)

/-- A read answered within Bound C (R148). -/
def boundCRead (s : State) : State := { s with rstat := { s.rstat with boundC := satInc s.rstat.boundC } }

/-- Whether both Near Cache copies of a dirty line fail their parity (R148, R210). -/
def twinBad (s : State) (lln : Nat) : Bool :=
  match ncWays s lln with
  | [a, b] => !wayGood (ncWay s a) && !wayGood (ncWay s b)
  | _ => false

/-- Whether a unit holds an error its ECC cannot correct. -/
def unitLost (s : State) (u : HbmUnit) : Bool := s.cache.hbmErr.any (fun e => e.unit == u && e.uncorrectable)

/-- What the Bulk Cache gave a read: the bytes a Partial line of the Near Cache holds are laid over what is found (R195); an uncorrectable
page line places the read in Bound B, an uncorrectable dirty line in Bound C (R148). -/
def bulkAnswer (id lln : Nat) (part page slot : Bool) (h : Held) (s : State) : State :=
  let count := fun s : State => if slot then prefetchHit lln true (boundCRead s) else bulkHit lln s
  match h with
  | .whole v =>
    if part then
      let m := mergeHeld lln v s
      match m.1 with
      | some w => answerRead id (some w) (count m.2)
      | none => lostRead id lln m.2
    else answerRead id (some v) (if poisoned s lln v then count s else ncFill lln v (count s))
  | .lost => lostRead id lln s
  | .bytes .. => beginRead id lln true (missed (prefetchHit lln false s))
  | .none =>
    let s := beginRead id lln true (missed (prefetchHit lln false s))
    if page then updRead id (fun r => { r with bound := max r.bound 1 }) s else s

/-- What the caches hold for a read of its own: an internal write that waits for room, then the Near Cache and the side buffer; the answer,
or none when the Bulk Cache is next, with whether a Partial line is held (R12, R124, R195). -/
def nearLook (id lln : Nat) (s : State) : Option Bool × State :=
  match heldValue s lln with
  | some v => (none, answerRead id (some v) (missed (prefetchHit lln false s)))
  | none =>
  if s.cache.lost.contains lln then (none, lostRead id lln s)
  else
    let bad := twinBad s lln
    let (h, s) := ncLook lln s
    match h with
    | .whole v => (none, answerRead id (some v) (if bad then prefetchHit lln true (boundCRead s) else nearHit lln s))
    | .lost => (none, lostRead id lln s)
    | .bytes .. => (some true, s)
    | .none =>
      let (sv, s) := sideLook lln s
      match sv with
      | some v => (none, answerRead id (some v) (nearHit lln s))
      | none => (some false, s)

/-- A read the Bulk Cache, and on its miss the back end, answers (R125). A block in copy is waited for (R214). Dirty lines whose tag and
copy are both lost are dealt with first, and the lookup made again (R212). -/
def bulkRead (id lln : Nat) (part : Bool) (s : State) : State :=
  if bulkWaits s lln then
    { s with host := { s.host with reqs := s.host.reqs.map (fun q => if q.id == id then { q with wait := .hbm } else q) } }
  else
    let page := pageValid s lln && (unitLost s (.pageLine lln) || (match pageFind s (lln / 64) with | some k => unitLost s (.pageTag k) | none => false))
    let slot := (sfind s.cache.dirty lln).isSome && unitLost s (.slotLine lln)
    let (h, t) := bulkLook lln s
    if t.cache.tagLost = [] then bulkAnswer id lln part page slot h t
    else
      let n := nearLook id lln (tagsLost t)
      match n.1 with
      | none => n.2
      | some part =>
        let b := bulkLook lln n.2
        bulkAnswer id lln part page slot b.1 b.2

/-- The lookups of a read taken in: Near Cache, side buffer, Bulk Cache, back end (R12, R124). -/
def hostLook (id lln : Nat) (s : State) : State :=
  let n := nearLook id lln s
  match n.1 with
  | none => n.2
  | some part => bulkRead id lln part n.2

/-- A read of a backed line. -/
def hostRead (p l : Nat) (tag : BitVec 16) (lln : Nat) (s : State) : State :=
  let id := s.host.nextReq
  hostLook id lln (addReq ⟨id, p, ldIx p l, tag, false, lln, .media, false, s.time.ftime⟩ s)

/-- The reads that waited for an HBM block in copy, looked up again once its entry is committed (R214). -/
def hbmRetry (s : State) : State :=
  (s.host.reqs.filter (fun q => q.wait == .hbm)).foldl (fun s q =>
    hostLook q.id q.lln { s with host := { s.host with reqs := s.host.reqs.map (fun x => if x.id == q.id then { x with wait := .media } else x) } }) s

/-- The answer to an unbacked read: zeros marked poisoned (R46). -/
def unbackedRead (p l : Nat) (hpa : Nat) (tag : BitVec 16) (s : State) : State :=
  let s := unbackedEvent p (ldIx p l) hpa s
  send s (.memRead p (ldIx p l) tag 0 true (devLoad s))

/-! ## Request credits (R65, R66, R144, R580) -/

/-- The request credits an LD of a port uses: write credits it holds and reads not yet answered. -/
def usedCredits (s : State) (i : Nat) : Nat := (ldOf s i).credits + s.host.reqs.countP (fun r => !r.write && r.ld == i)

/-- The request credits all LDs of a port use. -/
def portCredits (s : State) (p : Nat) : Nat := (List.range 16).foldl (fun a l => a + usedCredits s (ldIx p l)) 0

/-- Whether the QoS fractions of an MLD port act: DevLoad Moderate or Severe (R65). -/
def qosActs (s : State) (p : Nat) : Bool := (portOf s p).mld && Nat.ble 2 (devLoad s).toNat

/-- Whether an LD uses its QoS Limit Fraction, in 256ths, of the port's request credits (R65). A Limit Fraction of 0, its reset value, is
no limit: DESIGN CHOICE, log entry 26; R65 and R459 do not say what 0 means. -/
def qosOver (s : State) (p i : Nat) : Bool :=
  let q := (ldOf s i).qosLimit
  qosActs s p && q != 0 && Nat.ble (q.toNat * (portCredits s p + 1)) (256 * usedCredits s i)

/-- Whether an LD has its QoS Allocation Fraction of the port's request credits while another LD of the port is short of its own (R65). -/
def qosContended (s : State) (p i : Nat) : Bool :=
  let all := portCredits s p + 1
  let q := fun j => (ldOf s j).qosAlloc.toNat
  qosActs s p && Nat.ble (q i * all) (256 * usedCredits s i) &&
    (List.range 16).any (fun l => ldIx p l != i && Nat.blt (256 * usedCredits s (ldIx p l)) (q (ldIx p l) * all))

/-- Whether a credit is withheld from an LD by its port's QoS fractions: at its limit always; while another LD is short of its allocation
as the port shares its credits, which the manual leaves open (R65, log entry 26). -/
def qosHolds (p i : Nat) (s : State) : Bool × State :=
  if qosOver s p i then (true, s) else if qosContended s p i then drawBool s else (false, s)

/-- In Brake a port grants at no more than BF/16 of its rate (R580): the grants of a run of 16 that are withheld are a matter of
instants this model does not keep, so a grant in Brake is free unless BF is 16. -/
def brakeHolds (s : State) : Bool × State :=
  if s.therm.throttle = .brake ∧ s.therm.bf.toNat < 16 then drawBool s else (false, s)

/-- Whether a read finds its request credit withheld, and so cannot arrive (R66, R144, R580). A credit granted before may be left, so what
the brake or the fractions withhold is free. -/
def readHeld (p i : Nat) (s : State) : Bool × State :=
  let (b, s) := brakeHolds s
  if b then (true, s) else if qosOver s p i || qosContended s p i then drawBool s else (false, s)

/-- MEM_READ, on a read request credit (R46, R66, R124). -/
def execMemRead (port : Fin 4) (ld : Fin 16) (hpa : BitVec 64) (tag : BitVec 16) (s : State) : Res :=
  let s := begin s
  if !takesMem s port ld then ran s
  else
  let (held, s) := readHeld port (ldIx port ld) s
  if held then ran s
  else if isArmed s 0x0019 (uPort port) then ran (unbackedRead port ld hpa.toNat tag (fire 0x0019 (uPort port) s))
  else match backing s (ldIx port ld) hpa.toNat with
    | none => ran (unbackedRead port ld hpa.toNat tag s)
    | some lln => ran (mediaNext (hostRead port ld tag lln s))

/-! ## Writes (R14, R59, R157 to R162, R176, R191, R296) -/

/-- An accepted host line write counted for its frame (R296); a fast frame's last write (R298). -/
def countWrite (lfn : Nat) (s : State) : State :=
  let t := s.mm.hotCount
  let t := if (sfind t lfn).isSome then sput t lfn (sget 0 t lfn + 1)
    else if t.length < 65536 then sput t lfn 1
    else
      let low := t.foldl (fun (a : Nat × Nat) e => if e.2 < a.2 then e else a) (t.headD (0, 0))
      sput (sdel t low.1) lfn 1
  { s with mm := { s.mm with
    hotCount := t
    lastWrite := if ftMode (ftEntry s lfn) = mFast then sput s.mm.lastWrite lfn s.time.ftime else s.mm.lastWrite } }

/-- The line a write stores as the caches hold it: ciphertext of the line, or the poison pattern of a poisoned write. -/
def writeLine (s : State) (lln : Nat) (data : Line) (be : BitVec 64) (poisoned : Bool) : Line :=
  if poisoned then poisonLine else encLine s lln (mergeBytes 0 data be)

/-- A write merged into the Near Cache, over an internal write of the line that waits for room, its poison record set or ended, reads in flight told and a prefetch of the line dropped (R59,
R149, R191, R205). -/
def storeWrite (lln : Nat) (data : Line) (be : BitVec 64) (poisoned : Bool) (s : State) : State :=
  let full := BitVec.allOnes 64
  let mask := if poisoned then full else be
  let s := countWrite (lfnOf lln) s
  let w := writeLine s lln data be poisoned
  let (w, m) := match heldValue s lln with
    | some h => (mergeLine s lln h w mask, full)
    | none => (w, mask)
  let s := ncWrite lln w m { s with cache := { s.cache with heldWrites := s.cache.heldWrites.filter (fun e => e.1 != lln) } }
  let s := dropPrefetch (fun l => l == lln) s
  let s := { s with
    host := { s.host with reqs := s.host.reqs.map (fun r => if !r.write && r.lln == lln then { r with writeSeen := true } else r) }
    cache := { s.cache with
      side := s.cache.side.filter (fun e => e.1 != lln), prefetched := s.cache.prefetched.filter (fun l => l != lln)
      lost := if mask = full then s.cache.lost.filter (fun l => l != lln) else s.cache.lost } }
  if poisoned then poisonAdd lln .external s else if mask = full then poisonDel lln s else s

/-- Writes accepted and not yet clean in write-through mode (R176): those not completed, and dirty lines whose writes are. -/
def throughCount (s : State) : Nat :=
  s.host.reqs.countP (fun r => r.write) + (dirtyLlns s).countP (fun l => !s.host.reqs.any (fun r => r.write && r.lln == l))

/-- The RNUMs a Strict write still waits for. -/
def strictLeft (s : State) (l : List (Nat × BitVec 48)) : List (Nat × BitVec 48) := l.filter (fun r => isUnacked s r.1 r.2)

/-- A write accepted: stored, recorded on the peer streams, completed by its LD's mode (R161, R162, R176). A record of an LD whose
credits R166 withholds counts among those it waits for. -/
def hostWrite (p l : Nat) (tag : BitVec 16) (lln : Nat) (data : Line) (be : BitVec 64) (poisoned : Bool) (s : State) : State :=
  let i := ldIx p l
  let mode := (ldOf s i).mode
  let s := storeWrite lln data be poisoned s
  let (rn, s) := if mode = .loc ∨ s.span.desc.isNone then ([], s)
    else streamAll (writeRecord lln (writeLine s lln data be poisoned) (if poisoned then BitVec.allOnes 64 else be)) (mode == .strict) s
  let s := setLd i (fun d => if d.exposedOut = [] then d else { d with exposedOut := d.exposedOut ++ strictLeft s rn }) s
  let id := s.host.nextReq
  let req := fun w => ({ id := id, port := p, ld := i, tag := tag, write := true, lln := lln, wait := w, writeSeen := false
                         since := s.time.ftime } : Req)
  let s := updLoad s
  if mode = .strict ∧ strictLeft s rn ≠ [] then
    let s := addReq (req (.strict (strictLeft s rn))) s
    if s.write.through then drainLine lln true s else s
  else if s.write.through then drainLine lln true (addReq (req .through) s)
  else send s (.memWrite p i tag (devLoad s))

/-- The completion of an unbacked write (R46). -/
def unbackedWrite (p l : Nat) (hpa : Nat) (tag : BitVec 16) (s : State) : State :=
  let s := unbackedEvent p (ldIx p l) hpa s
  send s (.memWrite p (ldIx p l) tag (devLoad s))

/-- Whether the lines a power failure flushes are already listed: the ports receive no write any more (R182). -/
def flushListed (s : State) : Bool := s.power.seq == .shuttingDown && Nat.ble 2 s.power.flushStep

/-- MEM_WRITE: a write on a granted credit (R14, R157). Without a credit the port has no room to receive it. -/
def execMemWrite (port : Fin 4) (ld : Fin 16) (hpa : BitVec 64) (tag : BitVec 16) (data : Line) (be : BitVec 64) (poisoned : Bool)
    (s : State) : Res :=
  let s := begin s
  let i := ldIx port ld
  if !takesMem s port ld || (ldOf s i).credits == 0 || flushListed s then ran s
  else
    let s := setLd i (fun d => { d with credits := d.credits - 1 }) s
    match backing s i hpa.toNat with
    | none => ran (unbackedWrite port ld hpa.toNat tag (updLoad s))
    | some lln => ran (mediaNext (hostWrite port ld tag lln data be poisoned s))

/-! ## Credits (R65, R157, R166, R167, R176, R369, R580) -/

/-- Room in the dirty budget for one more line (R157, R176). -/
def budgetRoom (s : State) : Bool :=
  if s.write.through then Nat.blt (throughCount s + creditsOut s) 256
  else Nat.ble (occupancy s + 1) (budgetLines s)

/-- Room on each peer stream transmit queue in use for the records of every credit out and one more, 10 words each (R489). A
record not yet acknowledged occupies its words. -/
def streamRoom (s : State) : Bool :=
  (List.range s.span.streams.length).all (fun k =>
    match s.span.streams[k]? with
    | some st => Nat.ble (10 * ((unacked st).length + creditsOut s + 1)) (qFree s k)
    | none => true)

/-- The patch log entries above which R369 withholds credits: 2^27 − 2^20 on every variant. The rule gives this one number; the note that
the H2 holds 2^26 gives no other for it (DESIGN CHOICE, log entry 44). -/
def creditFill : Nat := 2 ^ 27 - 2 ^ 20

/-- WRITE_CREDIT_GRANT. `WRITE_LOAD.PACING` shows a grant withheld under R157, and also one that the 256 writes of R176 withhold (DESIGN
CHOICE, log entry 78). -/
def execWriteCreditGrant (port : Fin 4) (ld : Fin 16) (s : State) : Res :=
  let s := begin s
  let i := ldIx port ld
  let d := ldOf s i
  let room := budgetRoom s
  let s := { s with write := { s.write with pacing := !room } }
  let (brake, s) := brakeHolds s
  let (qos, s) := qosHolds port i s
  if takesMem s port ld && room && !s.host.creditsHeld && s.sec.lowering == 0 && d.exposedOut.isEmpty &&
      !(d.mode == .relaxed && !s.write.relaxedStall.isEmpty) && (d.mode == .loc || streamRoom s) &&
      (s.span.desc.isNone || Nat.ble (patchFill s + 1) creditFill) && !qos && !brake then
    ran (updLoad (send (setLd i (fun d => { d with credits := d.credits + 1 }) s) (.credit port i)))
  else ran s

/-! ## Exposed records (R166, R167) -/

/-- The unacknowledged records of an LD, by stream. -/
def ldUnacked (s : State) (i : Nat) : List (Nat × BitVec 48) :=
  (List.range s.span.streams.length).flatMap (fun k =>
    match s.span.streams[k]? with
    | none => []
    | some st =>
      let mine := fun (r : Record) => ownerOf s (lfnOf r.lln.toNat) == some i
      (st.opened.filter (fun e => mine e.2)).map (fun e => (k, e.1)) ++
        st.sent.flatMap (fun b => (List.range b.records.length).filterMap (fun j =>
          match b.records[j]? with
          | some r => if mine r then some (k, times j nextRnum b.firstRnum) else none
          | none => none)))

/-- The LD of a record of a stream. -/
def recordLd (s : State) (k : Nat) (rnum : BitVec 48) : Option Nat :=
  (List.range 64).find? (fun i => (ldUnacked s i).contains (k, rnum))

/-- An LD exposed by records: its bit, the count, the record (R166, R167); `out` are the records until whose acknowledgement it gets no
new credit (R166). -/
def expose (i : Nat) (rnum : BitVec 48) (recs out : List (Nat × BitVec 48)) (s : State) : State :=
  let s := setLd i (fun d => { d with
    exposedRec := d.exposedRec ++ recs.filter (fun r => !d.exposedRec.contains r)
    exposedOut := d.exposedOut ++ out.filter (fun r => !d.exposedOut.contains r) }) s
  event { code := 0x0304, p0 := i, p1 := rnum.toNat } { s with write := { s.write with
    exposedLd := setBit s.write.exposedLd i true, exposedCnt := satInc s.write.exposedCnt } }

/-- STRICT_ACK_TIMEOUT: the write is completed, its LD exposed (R166). -/
def execStrictAckTimeout (port : Fin 4) (ld : Fin 16) (tag : BitVec 16) (s : State) : Res :=
  let s := begin s
  let i := ldIx port ld
  match s.host.reqs.find? (fun r => r.write && r.port == port.val && r.ld == i && r.tag == tag &&
      (match r.wait with | .strict _ => true | _ => false)) with
  | none => ran s
  | some q =>
    let rnum := match q.wait with | .strict ((_, n) :: _) => n | _ => 0
    let s := { s with host := { s.host with reqs := s.host.reqs.filter (fun r => r.id != q.id) } }
    let recs := match q.wait with | .strict l => strictLeft s l | _ => []
    let s := expose i rnum recs (ldUnacked s i) (updLoad s)
    if s.write.through ∧ isDirty s q.lln then
      ran { s with host := { s.host with reqs := s.host.reqs ++ [{ q with wait := .through }] } }
    else ran (send s (.memWrite q.port q.ld q.tag (devLoad s)))

/-- RELAXED_RECORD_STALL (R167). -/
def execRelaxedRecordStall (stream : Fin 2) (rnum : BitVec 48) (s : State) : Res :=
  let s := begin s
  if isUnacked s stream rnum ∧ !s.write.relaxedStall.contains (stream.val, rnum) then
    ran { s with write := { s.write with relaxedStall := s.write.relaxedStall ++ [(stream.val, rnum)] } }
  else ran s

/-- RELAXED_RECORD_EXPOSED (R167). -/
def execRelaxedRecordExposed (stream : Fin 2) (rnum : BitVec 48) (s : State) : Res :=
  let s := begin s
  match (if isUnacked s stream rnum then recordLd s stream rnum else none) with
  | some i => ran (expose i rnum [(stream.val, rnum)] [] s)
  | none => ran s

/-- DIRTY_AGE_LIMIT: the line leaves for media outside the allotment (R173, R423). -/
def execDirtyAgeLimit (lln : BitVec 40) (s : State) : Res := ran (mediaNext (updLoad (drainLine lln.toNat false (begin s))))

/-! ## Links (R26 to R32, R70, R591) -/

/-- The ports of a lane group. -/
def groupPorts (g : Nat) : List Nat := [2 * g, 2 * g + 1]

/-- A port record of R672. -/
def portEvent (p : Nat) (width rate : Nat) (cause : Nat) (s : State) : State :=
  event { code := 0x0801, unit := uPort p, p0 := width, p1 := rate, p2 := cause } s

/-- A port's own state changed by its link (R29, reason 6); a port out of service keeps its state. -/
def portState (p : Nat) (st : UState) (s : State) : State :=
  let now := ownState s (uPort p)
  if (now == .ready || now == .degraded) && now != st then setUnit (uPort p) st 6 false s else s

/-- A port that is down: unanswered requests discarded, its LDs' credits gone with the link (R70). -/
def portDown (p : Nat) (s : State) : State :=
  let s := { s with host := { s.host with
    reqs := s.host.reqs.filter (fun r => r.port != p)
    lds := s.host.lds.mapIdx (fun i d => if i / 16 = p then { d with credits := 0 } else d)
    gpf := s.host.gpf.filter (fun g => g.1 != p) } }
  let s := setPort p (fun q => { q with up := false, ideActive := false, spdm := .start }) s
  updLoad (portState p .degraded s)

/-- A link that goes down unexpectedly. -/
def linkLost (p cause : Nat) (s : State) : State :=
  let q := portOf s p
  if !q.up then s else portEvent p q.width.toNat q.rate.toNat cause (portDown p s)

/-- Link training begun: PERST# deasserted, clock there, SerDes domain up, port in service (R591). -/
def trainLink (p : Nat) (s : State) : State :=
  let q := portOf s p
  if portPresent s p && !q.perst && q.refclk && !q.up && domainOn s 2 && inService (ownState s (uPort p)) then
    send s (.linkTrain p)
  else s

/-- The port of a mailbox's path. -/
def callerPort : Caller → Option Nat
  | .host p _ => some p.val
  | .fm p => some p.val
  | .sideband => none

/-- The mailboxes of a port reset: a command one still holds has no caller to answer any more, and the release it began goes on; a
firmware transfer made through one ends; MSI-X of the port's functions is as at reset (R70; PRESUMED of CXL, log entries 79, 102). -/
def mailboxReset (p : Nat) (s : State) : State :=
  let mine := fun c : Caller => callerPort c == some p
  let ends := match s.fw.sender with | some c => s.fw.transferring && mine c | none => false
  { s with
    host := { s.host with lds := s.host.lds.map (fun d => { d with
      heldRelease := d.heldRelease.filter (fun h => !mine h.1)
      redo := d.redo ++ (d.heldRelease.filter (fun h => mine h.1)).map (fun h => h.2) }) }
    evt := { s.evt with msix := s.evt.msix.filter (fun e => !(e.1 / 16 == p || e.1 == 64 + p)) }
    fw := if ends then { s.fw with staged := [], transferring := false, sender := none } else s.fw }

/-- PERST_ASSERT: links, decoders and mailboxes of the group reset; ranges, extents and data stay (R70). A mailbox's reset takes its event
interrupt policy and the timestamp set through it (PRESUMED of CXL, log entry 79). -/
def execPerstAssert (grp : Fin 2) (s : State) : Res :=
  let s := begin s
  ran ((groupPorts grp).foldl (fun s p =>
    let s := mailboxReset p (portDown p s)
    let s := setPort p (fun q => { q with perst := true, ideKeys := [] }) s
    (List.range 16).foldl (fun s l => setLd (ldIx p l) (fun d => { d with
      decoders := List.replicate 4 {}, d3hot := false, policy := 0, tsOffset := none }) s) s) s)

/-- PERST_DEASSERT: the lane-group field is read, training starts (R26). -/
def execPerstDeassert (grp : Fin 2) (s : State) : Res :=
  let s := begin s
  let lanes := (optionArea s.sb.cells).getD 1 0
  let s := { s with host := { s.host with laneCfg := setBit s.host.laneCfg grp (lanes.getLsbD grp) } }
  let s := (groupPorts grp).foldl (fun s p => setPort p (fun q => { q with perst := false }) s) s
  ran ((groupPorts grp).foldl (fun s p => trainLink p s) s)

/-- The configured width of a port (R25). -/
def portWidth (s : State) (p : Nat) : Nat :=
  if s.variant = .l1 then 8 else if s.host.laneCfg.getLsbD (p / 2) then 8 else 16

/-- The job that readmits a unit now. -/
def readmitJob (s : State) (u : Nat) : Option (BitVec 16) :=
  match holdingJob s u with
  | some j => (match j.kind with
    | .unitReadmit _ => some j.id
    | _ => none)
  | none => none

/-- The widths and rates a port trains at (R28). -/
def trains (s : State) (p : Nat) (width rate : BitVec 8) : Bool :=
  Nat.ble 1 width.toNat && Nat.ble width.toNat (portWidth s p) && [8, 16, 32, 64].contains rate.toNat

/-- LINK_UP: the link trained (R28, R29, R32, R36, R70); a readmit of the port ends with it (R473). No training gives another width or
rate. -/
def execLinkUp (port : Fin 4) (width : BitVec 8) (rate : BitVec 8) (flit256 : Bool) (mld : Bool) (s : State) : Res :=
  let s := begin s
  let q := portOf s port
  let back := readmitJob s (uPort port)
  if !(portPresent s port && !q.perst && q.refclk && domainOn s 2 && (inService (ownState s (uPort port)) || back.isSome) && trains s port width rate) then ran s
  else
    let s := setPort port (fun q => { q with up := true, width := width, rate := rate, flit256 := flit256, mld := mld, idleLanes := false }) s
    let full := width.toNat = portWidth s port ∧ rate = 64
    let st : UState := if full then .ready else .degraded
    let s := match back with
      | some id => endJob id 0 (setUnit (uPort port) st 1 false s)
      | none => portState port st s
    let s := if full then s else portEvent port width.toNat rate.toNat 0 s
    ran (if flit256 then s else portEvent port width.toNat rate.toNat 1 s)

/-- SURPRISE_LINK_DOWN (R70). -/
def execSurpriseLinkDown (port : Fin 4) (s : State) : Res := ran (linkLost port 2 (begin s))

/-- REFCLK_LOSS: the links of the lane group go down (R70). -/
def execRefclkLoss (grp : Fin 2) (s : State) : Res :=
  let s := begin s
  ran ((groupPorts grp).foldl (fun s p => setPort p (fun q => { q with refclk := false }) (linkLost p 3 s)) s)

/-- REFCLK_RETURN: the links of the group can train again (R70). -/
def execRefclkReturn (grp : Fin 2) (s : State) : Res :=
  let s := begin s
  ran ((groupPorts grp).foldl (fun s p => trainLink p (setPort p (fun q => { q with refclk := true }) s)) s)

/-- POWER_STATE_CHANGE: the function of an LD between D0 and D3hot (R34, R35). -/
def execPowerStateChange (port : Fin 4) (ld : Fin 16) (d3hot : Bool) (s : State) : Res :=
  ran (setLd (ldIx port ld) (fun d => { d with d3hot := d3hot }) (begin s))

/-- An uncorrectable error of a port by its bit of AER: its status set; when it is not masked, the message of its severity (R34; bits and
messages as PCIe defines them, PRESUMED, log entry 102). -/
def aerError (p bit : Nat) (s : State) : State :=
  let a := (portOf s p).aer
  let s := setPort p (fun q => { q with aer := { a with uncStatus := a.uncStatus ||| (1#32 <<< bit) } }) s
  if a.uncMask.getLsbD bit || !(portOf s p).up then s else send s (.aerMessage p (a.uncSeverity.getLsbD bit))

/-- The bit of AER's IDE Check Failed Error. -/
def aerIdeCheck : Nat := 28

/-- IDE_INTEGRITY_FAILURE: the stream leaves its secure state, the port becomes Degraded (R627). -/
def execIdeIntegrityFailure (port : Fin 4) (s : State) : Res :=
  let s := begin s
  let q := portOf s port
  if !q.ideActive then ran s
  else
    let s := aerError port aerIdeCheck (setPort port (fun q => { q with ideActive := false }) s)
    ran (portEvent port q.width.toNat q.rate.toNat 4 (if ownState s (uPort port) = .ready then setUnit (uPort port) .degraded 4 false s else s))

/-- GPF_PHASE1: acknowledged at once (R55). -/
def execGpfPhase1 (port : Fin 4) (s : State) : Res :=
  let s := begin s
  if (portOf s port).up then ran (send s (.gpfAck port 1)) else ran s

/-- GPF_PHASE2: acknowledged once every earlier write is complete (R56). -/
def execGpfPhase2 (port : Fin 4) (s : State) : Res :=
  let s := begin s
  if (portOf s port).up then
    ran { s with host := { s.host with gpf := s.host.gpf ++ [(port.val, (s.host.reqs.filter (fun r => r.write)).map Req.id)] } }
  else ran s

/-! ## HDM decoders (R32, R45) -/

/-- The ways and granularities a decoder commits with. -/
def decoderOk (ways gran : Nat) : Bool :=
  [1, 2, 4, 8, 16].contains ways && [256, 512, 1024, 2048, 4096, 8192, 16384].contains gran

/-- HDM_DECODER_COMMIT. The LD address a decoder starts at follows the committed decoder before it, and its DPA skip, as CXL
defines. -/
def execHdmDecoderCommit (port : Fin 4) (ld : Fin 16) (dec : Fin 4) (base size : BitVec 64) (ways : BitVec 8) (gran : BitVec 16)
    (pos : BitVec 4) (dpaSkip : BitVec 46) (s : State) : Res :=
  let s := begin s
  let i := ldIx port ld
  if !ldExists s i then ran s
  else
    let prev := if dec.val = 0 then {} else (ldOf s i).decoders.getD (dec.val - 1) ({} : Decoder)
    let start := if prev.committed then prev.dpaBase + prev.size / max prev.ways 1 else 0
    let ok := decoderOk ways.toNat gran.toNat && (portOf s port).flit256
    let d : Decoder := if ok then
        { base := base.toNat, size := size.toNat, ways := ways.toNat, gran := gran.toNat, pos := pos.toNat
          dpaBase := start + dpaSkip.toNat, committed := true, error := false }
      else { ((ldOf s i).decoders.getD dec.val ({} : Decoder)) with committed := false, error := true }
    ran (setLd i (fun x => { x with decoders := lmod x.decoders dec.val (fun _ => d) }) s)

end Sys2Proof.Machine
end

