-- ==== Sys2Proof/Machine/Queues.lean ====
section
/-! DEFINITION. The queue commands and the notice registers (R488 to R498). -/

namespace Sys2Proof.Machine

/-- The Warning record of a queue event: P0 the bit of `QUEUE_STAT` (R508). -/
def queueRecord (q bit : Nat) (s : State) : State := event { code := 0x0904, unit := uQueue q, p0 := bit } s

/-- QUEUE_WRITE (R488): without credit the word is discarded, flagged and recorded. -/
def execQueueWrite (q : Fin 64) (word : BitVec 64) (poison : Bool) (s : State) : Res :=
  let (ok, s) := qPush q word poison (begin s)
  if ok then ran s else ran (queueRecord q 0 (setQ q (fun x => { x with overrun := true }) s))

/-- What a consumer does with a poisoned word of a peer stream queue: the record is not sent and its outrider is reseeded (R493);
the reseed starts at the next stage boundary. -/
def onPoisoned (q : Nat) (s : State) : State :=
  if qUse s q = 1 ∧ q < s.span.streams.length ∧ !s.span.reseedDue.contains q then
    { s with span := { s.span with reseedDue := s.span.reseedDue ++ [q], exposed := true } }
  else s

/-- QUEUE_READ (R490, R492, R493). -/
def execQueueRead (q : Fin 64) (s : State) : Res :=
  let (w, s) := qTake q (begin s)
  let s := match w with
    | some (_, true) => onPoisoned q s
    | _ => s
  ran (send s (.queueWord q w))

/-- QUEUE_MARK (R490). -/
def execQueueMark (q : Fin 64) (s : State) : Res := ran (qMark q (begin s))

/-- QUEUE_REWIND (R490). -/
def execQueueRewind (q : Fin 64) (s : State) : Res := ran (qRewind q (begin s))

/-- A release, with its record when it is refused (R491). -/
def releaseWords (q n : Nat) (s : State) : State :=
  let (ok, s) := qRelease q n s
  if ok then s else queueRecord q 3 s

/-- QUEUE_RELEASE (R490, R491). -/
def execQueueRelease (q : Fin 64) (n : Word) (s : State) : Res := ran (releaseWords q n.toNat (begin s))

/-- QUEUE_TAIL_EXPIRY (R494): the timer runs only while WR ≠ RD; peer stream queues have the open batch as what they hold. -/
def execQueueTailExpiry (q : Fin 64) (s : State) : Res :=
  let s := begin s
  let held := (qOf s q).wr != (qOf s q).rd
  let tail := setQ q (fun x => { x with tailFlag := true })
  match qUse s q with
  | 1 =>
    let opened := match s.span.streams[q.val]? with | some st => !st.opened.isEmpty | none => false
    if opened then ran (closeBatch q false true s) else if held then ran (send s (.forceSend q)) else ran s
  | 2 => if held then ran (send s (.forceSend q)) else ran s
  | 4 =>
    if held then
      let s := setEvt evNotice (tail s)
      ran (signal s.evt.noticeVec s)
    else ran s
  | 0 => ran s
  | _ => if held then ran (queueRecord q 2 (send (tail s) (.coreNotice q))) else ran s

/-! ## Notice registers: queue 4 (R498) -/

/-- NOTICE_FLAGS_READ: the word at RD latched, the flags returned. -/
def execNoticeFlagsRead (s : State) : Res :=
  let s := begin s
  let x := qOf s 4
  let s :=
    if x.rd = x.wr then { s with queue := { s.queue with nValid := false, nPoison := false, nWord := 0 } }
    else
      let w := qFront s 4
      let bad := w.parity != wordParity w.word
      let s := setQ 4 (fun x => { x with parity := x.parity || bad, parErr := if bad then satInc x.parErr else x.parErr }) s
      { s with queue := { s.queue with nValid := true, nPoison := w.poison || bad, nWord := w.word } }
  ran (send s (.regRead (BitVec.ofNat 32 (b2n s.queue.nValid + 2 * b2n s.queue.nPoison))))

/-- A read of NOTICE_DATAHI: the latched upper half; RD advances past the word. -/
def noticeDatahi (s : State) : State :=
  let x := qOf s 4
  let s := if x.rd = x.wr then s else setQ 4 (fun x => { x with rd := x.rd + 1 }) s
  send s (.regRead (s.queue.nWord.extractLsb' 32 32))

/-- NOTICE_DATAHI_READ. -/
def execNoticeDatahiRead (s : State) : Res := ran (noticeDatahi (begin s))

/-- NOTICE_CTRL_MARK. -/
def execNoticeCtrlMark (s : State) : Res := ran (qMark 4 (begin s))

/-- NOTICE_CTRL_REWIND. -/
def execNoticeCtrlRewind (s : State) : Res := ran (qRewind 4 (begin s))

/-- NOTICE_CTRL_RELEASE. -/
def execNoticeCtrlRelease (n : BitVec 16) (s : State) : Res := ran (releaseWords 4 n.toNat (begin s))

end Sys2Proof.Machine
end

