-- ==== Sys2Proof/Machine/Mailbox.lean ====
section
/-! DEFINITION. Unit mailboxes: access, the register layout, the messages and their replies (R476 to R484). -/

namespace Sys2Proof.Machine

/-! ## Mailboxes and access (R478, R479) -/

/-- The block mailbox of a sender slot at a channel, and the word mailbox at a quadrant. -/
def cmbOf (s : State) (slot ch : Nat) : Cmb := sget {} s.unit.cmb (32 * slot + ch)
def setCmb (slot ch : Nat) (f : Cmb → Cmb) (s : State) : State :=
  { s with unit := { s.unit with cmb := smod {} s.unit.cmb (32 * slot + ch) f } }
def qmbOf (s : State) (slot q : Nat) : Qmb := sget {} s.unit.qmb (4 * slot + q)
def setQmb (slot q : Nat) (f : Qmb → Qmb) (s : State) : State :=
  { s with unit := { s.unit with qmb := smod {} s.unit.qmb (4 * slot + q) f } }

/-- What an access that is not accepted shows its sender; none when it is accepted. A management core sees a Completer Abort
like the host path. -/
def mbBlocked (s : State) (slot u : Nat) : Option Out :=
  let out := fun (mstat : Nat) => if slot = 5 then Out.sideband (BitVec.ofNat 16 mstat) (BitVec.ofNat 24 u) 0
    else Out.completerAbort (BitVec.ofNat 24 u)
  if 4 ≤ slot ∧ s.sec.pl ≠ 0 then some (out 0x0103)
  else if isDown (reportedState s u) then some (out 0x0104)
  else none

/-- An accepted access runs `f` on the unit, awake; one not accepted is answered. -/
def mbAccess (slot u : Nat) (f : State → State) (s : State) : State :=
  match mbBlocked s slot u with
  | some o => send s o
  | none => f (wakeUnit u s)

/-! ## Replies (R481, R482) -/

def mrOk : Nat := 0
def mrUnknown : Nat := 1
def mrRefused : Nat := 2
def mrArg : Nat := 3
def mrDown : Nat := 4
def mrTimeout : Nat := 5

/-- Dword i of a waiting message. -/
def cmbWord (s : State) (slot ch i : Nat) : Nat := ((cmbOf s slot ch).data.getD i 0).toNat

/-- The reply of a block mailbox: dword 0 echoes MSG and TAG with the reply length; GO falls with the reply in place. A result
other than OK has dword 0 alone. -/
def cmbReply (slot ch result : Nat) (words : List (BitVec 32)) (s : State) : State :=
  setCmb slot ch (fun m =>
    let ws := if result = mrOk then words.take 15 else []
    let d0 := (m.data.getD 0 0 &&& 0xFF00FFFF) ||| BitVec.ofNat 32 (ws.length * 2 ^ 16)
    { m with data := d0 :: ws ++ m.data.drop (ws.length + 1), go := false, result := BitVec.ofNat 8 result }) s

/-- A message offered: its dwords written and GO set; with GO at 1 it is ignored and OVERRUN set. -/
def cmbOffer (slot ch msg : Nat) (x : CmbMsg) (s : State) : Bool × State :=
  if (cmbOf s slot ch).go then (false, setCmb slot ch (fun m => { m with overrun := true }) s)
  else
    let d0 := BitVec.ofNat 32 (msg + x.n.toNat * 2 ^ 16 + x.tag.toNat * 2 ^ 24)
    let ws := x.words.take 15
    (true, setCmb slot ch (fun m => { m with data := d0 :: ws ++ m.data.drop (ws.length + 1), go := true }) s)

/-- One block mailbox command: the message written and served, or the one that waits served when it is of this kind. -/
def onCmb (slot ch msg : Nat) (m : Option CmbMsg) (serve : State → State) (s : State) : Res :=
  let s := begin s
  ran (mbAccess slot (uChannel ch) (fun s =>
    match m with
    | some x =>
      let (ok, s) := cmbOffer slot ch msg x s
      if ok then serve s else s
    | none => if (cmbOf s slot ch).go && cmbWord s slot ch 0 % 2 ^ 16 == msg then serve s else s) s)

/-- The dword count n of the message. -/
def cmbCount (s : State) (slot ch : Nat) : Nat := bits (cmbWord s slot ch 0) 16 8

/-- CMB_ECHO. A count above 15 exceeds the mailbox. -/
def execCmbEcho (slot : Fin 6) (ch : Fin 32) (m : Option CmbMsg) (s : State) : Res :=
  onCmb slot ch 1 m (fun s =>
    let n := cmbCount s slot ch
    if 15 < n then cmbReply slot ch mrArg [] s
    else cmbReply slot ch mrOk (((cmbOf s slot ch).data.drop 1).take n) s) s

/-- Whether a unit is under a destructive test (R481). -/
def destructiveTest (s : State) (u : Nat) : Bool :=
  (u :: containers u).any (fun v => s.unit.running.any (fun j => match j.kind with
    | .unitTest w d _ => d && w.toNat == v && ownState s v == .testing
    | _ => false))

/-- What stands against a message that reaches a die or bank: a destructive test, a unit that is down, a stack that takes no
packets. -/
def dieResult (s : State) (ch die bank : Nat) : Nat :=
  if destructiveTest s (uBank (bankKey ch die bank)) then mrRefused
  else if isDown (reportedState s (uBank (bankKey ch die bank))) then mrDown
  else if !takesPackets s ch then mrTimeout
  else mrOk

/-- CMB_BANK_STATE. -/
def execCmbBankState (slot : Fin 6) (ch : Fin 32) (m : Option CmbMsg) (s : State) : Res :=
  onCmb slot ch 2 m (fun s =>
    let die := bits (cmbWord s slot ch 1) 0 4
    if cmbCount s slot ch = 0 then cmbReply slot ch mrArg [] s
    else
      let r := if isDown (reportedState s (uDie (dieKey ch die))) then mrDown else if !takesPackets s ch then mrTimeout else mrOk
      cmbReply slot ch r [BitVec.ofNat 32 (ofLe16 ((List.range 8).map (fun b =>
        bsCode (bankOf s (bankKey ch die b)).st)))] s) s
where
  /-- Nibbles, lowest first. -/
  ofLe16 : List Nat → Nat
    | [] => 0
    | n :: ns => n + 16 * ofLe16 ns

/-- Bytes as dwords. -/
def dwords (n : Nat) (bs : List Byte) : List (BitVec 32) := (List.range n).map (fun i => BitVec.ofNat 32 (field bs (4 * i) 4))

/-- The 8 bytes of a return frame header (R232). -/
def frameBytes (f : RetFrame) : List Byte :=
  [f.tag.toNat, f.kind.toNat, f.die.toNat + 16 * f.bank.toNat, f.bstate.toNat, 0, 0, 0].map (BitVec.ofNat 8) ++ [f.hcrc]

/-- CMB_INFO: an information command issued and its return frame. The tag of the frame is the sequencer's choice: 0 here. -/
def execCmbInfo (slot : Fin 6) (ch : Fin 32) (m : Option CmbMsg) (s : State) : Res :=
  onCmb slot ch 3 m (fun s =>
    let w1 := cmbWord s slot ch 1
    let op := bits w1 0 8
    let p := mkPkt op (bits w1 8 4) (bits w1 12 3) (bits w1 15 13) 0 0 (bits (cmbWord s slot ch 2) 0 8)
    if cmbCount s slot ch < 2 ∨ op < 0x30 ∨ 0x34 < op then cmbReply slot ch mrArg [] s
    else
      let r := dieResult s ch p.die.toNat p.bank.toNat
      if r ≠ mrOk then cmbReply slot ch r [] s
      else
        let (b, s) := infoAnswer ch op p s
        let f := frameOf s ch 1 0 p.die.toNat p.bank.toNat (infoPayload b)
        cmbReply slot ch mrOk (dwords 2 (frameBytes f) ++ dwords 4 (bytesOf 16 f.payload.toNat)) s) s

/-- The number of bits a line's code corrects, 0xFF where it does not decode (R481). -/
def bitsFixed (r : Option (Line66 × Nat)) : Nat := match r with | some (_, n) => n | none => 0xFF

/-- A stored line as read, half of it, with the number of bits its code corrects (R481). -/
def rawAnswer (slot ch die bank block addr half : Nat) (err : BitVec 640) (s : State) : State :=
  let r := readRaw ch die bank block addr err s
  cmbReply slot ch mrOk (dwords 10 ((bytesOf 80 r.1.toNat).drop (40 * half)) ++ [BitVec.ofNat 32 (bitsFixed (bchDecode r.1))]) r.2

/-- Whether a raw read lacks words or names a place that does not exist (R481). -/
def rawOutside (count block addr : Nat) : Bool := Nat.blt count 2 || Nat.ble 6144 block || Nat.ble 65600 addr

/-- CMB_RAW_READ: half a line as read, and the bits its code corrects; `err` gives the bits read wrong. -/
def execCmbRawRead (slot : Fin 6) (ch : Fin 32) (m : Option CmbMsg) (err : BitVec 640) (s : State) : Res :=
  onCmb slot ch 4 m (fun s =>
    let w1 := cmbWord s slot ch 1
    let w2 := cmbWord s slot ch 2
    let die := bits w1 0 4
    let bank := bits w1 4 3
    let block := bits w1 7 13
    if rawOutside (cmbCount s slot ch) block (bits w2 0 17) then cmbReply slot ch mrArg [] s
    else
      let r := dieResult s ch die bank
      if r ≠ mrOk then cmbReply slot ch r [] s else rawAnswer slot ch die bank block (bits w2 0 17) (bits w2 17 1) err s) s

/-! ## Word mailboxes (R482) -/

/-- The reply word: MSG, TAG, RESULT, VALUE. -/
def qmbReply (slot q result value : Nat) (s : State) : State :=
  setQmb slot q (fun m => { m with
    rspLo := (m.reqLo &&& 0x00FFFFFF) ||| BitVec.ofNat 32 (result * 2 ^ 24), rspHi := BitVec.ofNat 32 value
    reqFull := false, rspFull := true }) s

/-- A request word offered: with REQ_FULL at 1 it is ignored and OVERRUN set. -/
def qmbOffer (slot q msg : Nat) (x : QmbMsg) (s : State) : Bool × State :=
  if (qmbOf s slot q).reqFull then (false, setQmb slot q (fun m => { m with overrun := true }) s)
  else
    let w := msg + x.tag.toNat * 2 ^ 16 + x.arg.toNat * 2 ^ 24
    (true, setQmb slot q (fun m => { m with reqLo := BitVec.ofNat 32 w, reqHi := BitVec.ofNat 32 (w / 2 ^ 32), reqFull := true }) s)

/-- One word mailbox command. -/
def onQmb (slot q msg : Nat) (m : Option QmbMsg) (value : State → Nat) (s : State) : Res :=
  let s := begin s
  ran (mbAccess slot (uQuad q) (fun s =>
    match m with
    | some x =>
      let (ok, s) := qmbOffer slot q msg x s
      if ok then qmbReply slot q mrOk (value s) s else s
    | none =>
      if (qmbOf s slot q).reqFull && (qmbOf s slot q).reqLo.toNat % 2 ^ 16 == msg then qmbReply slot q mrOk (value s) s else s) s)

/-- QMB_ECHO: bits [55:24] of the request. -/
def execQmbEcho (slot : Fin 6) (q : Fin 4) (m : Option QmbMsg) (s : State) : Res :=
  onQmb slot q 1 m (fun s => (((qmbOf s slot q).reqHi ++ (qmbOf s slot q).reqLo).extractLsb' 24 32).toNat) s

/-- QMB_CHANNELS. -/
def execQmbChannels (slot : Fin 6) (q : Fin 4) (m : Option QmbMsg) (s : State) : Res :=
  onQmb slot q 2 m (fun s => (List.range 8).foldl (fun a i =>
    let st := reportedState s (uChannel (8 * q.val + i))
    if st == .ready || st == .degraded then a + 2 ^ i else a) 0) s

/-- QMB_SUSP_COUNT. -/
def execQmbSuspCount (slot : Fin 6) (q : Fin 4) (m : Option QmbMsg) (s : State) : Res :=
  onQmb slot q 3 m (fun s => s.unit.suspCount.toNat) s

/-- QMB_SKEW. -/
def execQmbSkew (slot : Fin 6) (q : Fin 4) (m : Option QmbMsg) (s : State) : Res :=
  onQmb slot q 4 m (fun s => s.unit.skewNs.toNat) s

/-- UNKNOWN_MSG: an unlisted MSG, waiting in the mailbox or offered now, answered UNKNOWN_MSG (R481, R482). -/
def execUnknownMsg (slot : Fin 6) (target : Sum (Fin 32) (Fin 4)) (msg : BitVec 16) (tag : BitVec 8) (s : State) : Res :=
  let s := begin s
  if 1 ≤ msg.toNat ∧ msg.toNat ≤ 4 then ran s
  else
    match target with
    | .inl ch =>
      ran (mbAccess slot (uChannel ch) (fun s =>
        let w := cmbWord s slot ch 0
        if (cmbOf s slot ch).go && w % 2 ^ 16 == msg.toNat && bits w 24 8 == tag.toNat then cmbReply slot ch mrUnknown [] s
        else
          let (ok, s) := cmbOffer slot ch msg.toNat ⟨tag, 0, []⟩ s
          if ok then cmbReply slot ch mrUnknown [] s else s) s)
    | .inr q =>
      ran (mbAccess slot (uQuad q) (fun s =>
        let w := (qmbOf s slot q).reqLo.toNat
        if (qmbOf s slot q).reqFull && w % 2 ^ 16 == msg.toNat && bits w 16 8 == tag.toNat then qmbReply slot q mrUnknown 0 s
        else
          let (ok, s) := qmbOffer slot q msg.toNat ⟨tag, 0⟩ s
          if ok then qmbReply slot q mrUnknown 0 s else s) s)

/-! ## The register layout (R480, R483) -/

/-- What an offset of the unit service window names: a dword of a block mailbox by channel and dword, or a register of a word
mailbox by quadrant and offset; none for an offset the table does not list. -/
def mbAt (off : Nat) : Option (Sum (Nat × Nat) (Nat × Nat)) :=
  if 0x100000 ≤ off ∧ off < 0x102000 ∧ off % 4 = 0 ∧ off % 0x100 ≤ 0x40 then
    some (.inl ((off - 0x100000) / 0x100, off % 0x100 / 4))
  else if 0x104000 ≤ off ∧ off < 0x104100 ∧ off % 4 = 0 ∧ off % 0x40 ≤ 0x10 then
    some (.inr ((off - 0x104000) / 0x40, off % 0x40))
  else none

/-- The unit an offset of the window belongs to. -/
def mbUnit (off : Nat) : Option Nat :=
  match mbAt off with
  | some (.inl (ch, _)) => some (uChannel ch)
  | some (.inr (q, _)) => some (uQuad q)
  | none => none

/-- A dword of the layout as a sender slot reads it; a read of QMB_RSPHI clears the slot's reply flag. CMB_CTRL[7:2] is RsvdP: a free
value (R8). -/
def mbRead (slot off : Nat) (s : State) : BitVec 32 × State :=
  match mbAt off with
  | none => (0, s)
  | some (.inl (ch, i)) =>
    let m := cmbOf s slot ch
    if i < 16 then (m.data.getD i 0, s)
    else
      let (v, s) := drawBits 6 s
      (BitVec.ofNat 32 (b2n m.go + 2 * b2n m.overrun + 4 * v.toNat + m.result.toNat * 256), s)
  | some (.inr (q, r)) =>
    let m := qmbOf s slot q
    if r = 0 then (m.reqLo, s) else if r = 4 then (m.reqHi, s) else if r = 8 then (m.rspLo, s)
    else if r = 12 then (m.rspHi, setQmb slot q (fun m => { m with rspFull := false }) s)
    else (BitVec.ofNat 32 (b2n m.reqFull + 2 * b2n m.rspFull + 4 * b2n m.overrun), s)

/-- A dword of the layout written by a sender slot. -/
def mbWrite (slot off : Nat) (v : BitVec 32) (s : State) : State :=
  match mbAt off with
  | none => s
  | some (.inl (ch, i)) =>
    setCmb slot ch (fun m =>
      if i < 16 then (if m.go then { m with overrun := true } else { m with data := lmod m.data i (fun _ => v) })
      else
        let m := if v.getLsbD 1 then { m with overrun := false } else m
        if v.getLsbD 0 then (if m.go then { m with overrun := true } else { m with go := true }) else m) s
  | some (.inr (q, r)) =>
    setQmb slot q (fun m =>
      if r = 0 then (if m.reqFull then { m with overrun := true } else { m with reqLo := v })
      else if r = 4 then (if m.reqFull then { m with overrun := true } else { m with reqHi := v, reqFull := true })
      else if r = 16 ∧ v.getLsbD 2 then { m with overrun := false } else m) s

/-- QMB_RSPHI_READ: the host path's read of the reply high word (R480). -/
def execQmbRsphiRead (q : Fin 4) (s : State) : Res :=
  ran (mbAccess 4 (uQuad q) (fun s =>
    let (v, s) := mbRead 4 (0x10400C + 0x40 * q.val) s
    send s (.regRead v)) (begin s))

/-- SIDEBAND_DWORD_READ (R483). -/
def execSidebandDwordRead (offset : BitVec 32) (s : State) : Res :=
  let s := begin s
  match mbUnit offset.toNat with
  | none => ran (send s (.sideband 0 0 0))
  | some u => ran (mbAccess 5 u (fun s =>
      let (v, s) := mbRead 5 offset.toNat s
      send s (.sideband 0 0 v)) s)

/-- SIDEBAND_DWORD_WRITE (R483). -/
def execSidebandDwordWrite (offset : BitVec 32) (data : Word) (s : State) : Res :=
  let s := begin s
  match mbUnit offset.toNat with
  | none => ran (send s (.sideband 0 0 0))
  | some u => ran (mbAccess 5 u (fun s => send (mbWrite 5 offset.toNat data s) (.sideband 0 0 0)) s)

end Sys2Proof.Machine
end

