-- ==== Sys2Proof/Machine/Capacity.lean ====
section
/-! DEFINITION. LD capacity: range maps, the pool of LFNs, extents released, LD keys, sanitize and secure erase (R40 to R52, R389,
R609, R621). -/

namespace Sys2Proof.Machine

/-! ## The pool of LFNs (R41, R44, R48, R359) -/

/-- The LFNs of a range, and of an LD. -/
def rangeLfns (r : Range) : List Nat := (List.range r.length).map (fun i => r.lfn + i)
def ldLfns (d : Ld) : List Nat := d.ranges.flatMap rangeLfns

/-- Frames assigned to LDs or offered. -/
def assigned (s : State) : Nat :=
  s.host.lds.foldl (fun a d => a + d.offeredLfns.length + d.ranges.foldl (fun b r => b + r.length) 0) 0

/-- Frames the device can assign: all, or on a span member those whose LFN is no parity LFN; the roles repeat every N LFNs (R44, R359). -/
def exportable (s : State) : Nat :=
  if s.span.desc.isSome then
    let n := max 1 (spanN s)
    nFrames s / n * spanK s + (List.range (nFrames s % n)).countP (fun l => !parityLfn s l)
  else nFrames s

/-- Whether an LFN is in the pool: no LD's, offered to none, no parity LFN, Unmapped. -/
def lfnFree (s : State) (l : Nat) : Bool :=
  (ownerOf s l).isNone && !s.host.lds.any (fun d => d.offeredLfns.contains l) && !parityLfn s l && ftMode (ftEntry s l) == mUnmapped

/-- The lowest `n` LFNs of the pool from `l` on, looking at `fuel` of them. -/
def takeLfns (s : State) : Nat → Nat → Nat → List Nat
  | 0, _, _ => []
  | _, _, 0 => []
  | fuel + 1, l, n + 1 => if lfnFree s l then l :: takeLfns s fuel (l + 1) n else takeLfns s fuel (l + 1) (n + 1)

/-- `n` LFNs of the pool, none when it has fewer. -/
def poolLfns (s : State) (n : Nat) : Option (List Nat) :=
  let l := takeLfns s (nFrames s) 0 n
  if l.length = n then some l else none

/-- Consecutive LFNs as runs. -/
def lfnRuns : List Nat → List (Nat × Nat)
  | [] => []
  | l :: ls =>
    match lfnRuns ls with
    | (a, n) :: rs => if a = l + 1 then (l, n + 1) :: rs else (l, 1) :: (a, n) :: rs
    | [] => [(l, 1)]

/-- Range map entries that lay LFNs over LD frames from `frame` on. -/
def runRanges (dc : Bool) : Nat → List (Nat × Nat) → List Range
  | _, [] => []
  | frame, (l, n) :: rs => ⟨frame, n, l, dc⟩ :: runRanges dc (frame + n) rs

/-- The range map entries that offers take when they are accepted, each with the next of the LFNs kept for them. -/
def offerEntries : List Extent → List Nat → Nat
  | [], _ => 0
  | e :: es, ls => (lfnRuns (ls.take e.count.toNat)).length + offerEntries es (ls.drop e.count.toNat)

/-- Range map entries an LD has or has offers for (R42; DEDUCED, log entry 83). -/
def ldEntries (d : Ld) : Nat := d.ranges.length + offerEntries d.offered d.offeredLfns

/-- Range map entries of the device (R42). -/
def mapEntries (s : State) : Nat := s.host.lds.foldl (fun a d => a + ldEntries d) 0

/-- Whether `n` more entries fit an LD and the device (R42). -/
def mapRoom (s : State) (i n : Nat) : Bool :=
  Nat.ble (ldEntries (ldOf s i) + n) 4096 && Nat.ble (mapEntries s + n) 65536

/-! ## Map records to the outriders (R389) -/

/-- The 16 bytes of a map entry of a KIND 0x02 record. -/
def mapEntryBytes (i ix mode : Nat) (r : Option Range) : List Byte :=
  match r with
  | some r => bytesOf 2 ix ++ [BitVec.ofNat 8 (i + 128), BitVec.ofNat 8 mode] ++ bytesOf 3 r.frame ++ bytesOf 3 r.length ++
      bytesOf 3 r.lfn ++ [0, 0, 0]
  | none => bytesOf 2 ix ++ [BitVec.ofNat 8 i, 0] ++ List.replicate 12 0

/-- The code of a commit mode. -/
def modeCode : CommitMode → Nat
  | .loc => 0 | .relaxed => 1 | .strict => 2

/-- The map of an LD sent on every stream: its entries, and the indexes from there up to `old` as no longer valid. A KIND 0x02 record names
no line and R361 gives MASK for KIND 0x00 alone: the model sends LLN 0 and MASK all ones (DESIGN CHOICE, log entry 46). -/
def sendMap (i old : Nat) (s : State) : State :=
  if s.span.streams = [] then s
  else
    let d := ldOf s i
    let n := max old d.ranges.length
    (List.range ((n + 3) / 4)).foldl (fun s k =>
      let bs := (List.range 4).flatMap (fun j =>
        if 4 * k + j < n then mapEntryBytes i (4 * k + j) (modeCode d.mode) (d.ranges[4 * k + j]?) else List.replicate 16 0xFF)
      (streamAll { lln := 0, kind := 2, mask := BitVec.allOnes 64, data := BitVec.ofNat 512 (natOf bs) } false s).2) s

/-! ## LD keys (R609) -/

/-- The LDKEY record of an LD (R611). -/
def ldKeyPayload (s : State) (i : Nat) : List Byte :=
  let d := ldOf s i
  [if d.keyState then 1 else 0, 0] ++ bytesOf 6 d.kgen.toNat ++ padTo 72 (Config.wrap s.sec.rgen.toNat d.key.toNat)

/-- A new key pair for an LD, its generation one up, stored. -/
def newKey (i : Nat) (s : State) : State :=
  let (k, s) := drawBits 512 s
  let s := setLd i (fun d => { d with key := k, keyState := true, kgen := d.kgen + 1, keyLost := false }) s
  sbEnqueue s (.ring 0x55 i (ldKeyPayload s i))

/-- An LD that first receives capacity while it holds no key gets one, on a device that is not a span member; on a member the
key pair the LD has is kept, and an LD without one gets one too (DEDUCED, log entry 47: without a key it could hold no data). -/
def giveKey (i : Nat) (s : State) : State := if (ldOf s i).keyState then s else newKey i s

/-- Entries added to an LD's map. -/
def addRanges (i : Nat) (rs : List Range) (s : State) : State :=
  let old := (ldOf s i).ranges.length
  giveKey i (sendMap i old (setLd i (fun d => { d with ranges := d.ranges ++ rs }) s))

/-- Entries removed from an LD's map: its LFNs return to the pool. -/
def dropRanges (i : Nat) (p : Range → Bool) (s : State) : State :=
  let old := (ldOf s i).ranges.length
  sendMap i old (setLd i (fun d => { d with ranges := d.ranges.filter (fun r => !p r) }) s)

/-! ## Releases (R49, R51) -/

/-- Whether the caches hold any line of a frame. -/
def frameCached (s : State) (lfn : Nat) : Bool :=
  s.cache.near.any (fun e => e.2.st != .invalid && lfnOf e.2.lln == lfn) || s.cache.dirty.any (fun e => lfnOf e.1 == lfn) ||
    s.cache.pageData.any (fun e => lfnOf e.1 == lfn) || s.cache.side.any (fun e => lfnOf e.1 == lfn)

/-- The LFNs of some extents of an LD. -/
def extentLfns (d : Ld) (exts : List Extent) : List Nat :=
  exts.flatMap (fun e => (List.range e.count.toNat).filterMap (fun k => lfnOfFrame d (e.frame.toNat + k)))

/-- Whether an accepted extent lies inside a released range. -/
def extentIn (x : Nat × Nat) (e : Extent) : Bool := Nat.ble e.frame.toNat x.1 && Nat.ble (x.1 + x.2) (e.frame.toNat + e.count.toNat)

/-- Whether two runs of LD frames share one. -/
def overlaps (f n g m : Nat) : Bool := Nat.blt f (g + m) && Nat.blt g (f + n)

/-- Whether released ranges are each exactly one or more accepted extents (R51). -/
def extentsHeld (d : Ld) (exts : List Extent) : Bool :=
  !exts.isEmpty && exts.all (fun e => e.count != 0 &&
    (d.extents.filter (fun x => extentIn x e)).foldl (fun a x => a + x.2) 0 == e.count.toNat &&
    d.extents.all (fun x => extentIn x e || !overlaps x.1 x.2 e.frame.toNat e.count.toNat))

/-- Frames emptied that are not yet: their lines, patches and folds dropped, MODE committed (R49, R376). -/
def emptyAll (mode : Nat) (ls : List Nat) (s : State) : State :=
  ls.foldl (fun s l => if zeroPending s l || (ftMode (ftEntry s l) == mode && !frameCached s l) then s else emptyFrame l mode s) s

/-- A held release taken as far as it goes: it waits for accepted requests, for an erase of the LD, and for zero folds; then the
extents leave the map and the response goes out; one redone after a power failure has no caller to answer (R51). -/
def releaseGo (i : Nat) (c : Option Caller) (exts : List Extent) (s : State) : State :=
  let d := ldOf s i
  let ls := extentLfns d exts
  if d.erase.isSome || s.host.reqs.any (fun r => ls.contains (lfnOf r.lln)) then s
  else
    let s := emptyAll mUnmapped ls s
    if ls.any (zeroPending s) then s
    else
      let gone := fun r : Range => r.dc && exts.any (fun e => Nat.ble e.frame.toNat r.frame && Nat.blt r.frame (e.frame.toNat + e.count.toNat))
      let s := setLd i (fun d => { d with
        heldRelease := d.heldRelease.filter (fun h => (some h.1, h.2) != (c, exts))
        redo := if c.isNone then d.redo.filter (fun x => x != exts) else d.redo
        extents := d.extents.filter (fun x => !exts.any (extentIn x)) }) (dropRanges i gone s)
      match c with | some c => send s (.cxl c .success .none) | none => s

/-! ## Sanitize and secure erase (R621) -/

/-- What a sanitize clears besides: the bands and fast sets that hold frames or patches of the LD, a band as its number and
2²⁰ times the FOLD_SEQ it has now, a set as its number above 2⁷⁰. -/
def eraseBlocks (s : State) (ls : List Nat) : List Nat :=
  let es := ls.map (ftEntry s)
  let bands := es.filterMap (fun e => if (ftMode e = mDense ∨ (ftMode e = mFolding ∧ ftSlot e ≠ 31)) ∧ ftBand e ≠ zeroHome then
    some (ftBand e + 2 ^ 20 * (bandOf s (ftBand e)).foldSeq.toNat) else none)
  let fasts := es.filterMap (fun e => if ftMode e = mFast ∨ (ftMode e = mFolding ∧ ftSlot e = 31) then some (2 ^ 70 + ftBand e) else none)
  let patches := (s.xlat.pi.filter (fun e => e.2.valid && ls.contains (lfnOf e.2.lln.toNat) && !foreignEnt s e.2)).map (fun e => 2 ^ 70 + e.2.set.toNat) ++
    (s.xlat.piOvf.filter (fun e => ls.contains (lfnOf e.lln.toNat) && !foreignEnt s e)).map (fun e => 2 ^ 70 + e.set.toNat)
  dedup (bands ++ fasts ++ patches)

/-- The poison list of an LD emptied. -/
def clearPoison (i : Nat) (s : State) : State := setLd i (fun d => { d with poison := [], poisonOverflow := false }) s

/-- An erase begun: without span protection the key is replaced with the frames; on a member the keys stay and each frame goes by a
zero fold. -/
def eraseStart (i : Nat) (secure : Bool) (s : State) : State :=
  let ls := ldLfns (ldOf s i)
  let blocks := if secure && s.span.desc.isNone then [] else eraseBlocks s ls
  let s := setLd i (fun d => { d with erase := some ⟨secure, ls, blocks⟩ }) s
  let s := emptyAll mUnmapped ls s
  if s.span.desc.isNone then newKey i (clearPoison i s) else s

/-- A fast set's blocks Cleared (R621), but for bad ones, which never are again (R291). -/
def wipeSet (f : Nat) (s : State) : State :=
  (setBlocks s f).foldl (fun s p => if s.mm.bad.contains (blockKey p.1 p.2.1 7 p.2.2) then s else clearFast f p.1 p.2.1 p.2.2 s) s

/-- A patch log set none of whose patches lives is freed. -/
def freeDeadSet (f : Nat) (s : State) : State :=
  if fsUse (fsEntry s f) = useLog ∧ patchesIn s f = [] ∧ (s.xlat.segs.filter (fun g => g.1 / 1024 = f)).all (fun g => g.2.kind = .patch) then
    releaseSet f s
  else s

/-- One block of a sanitize: done, or what is left of it driven on: a band's other frames folded forward, a set's other frames. -/
def eraseStep (x : Nat) (s : State) : Bool × State :=
  if 2 ^ 70 ≤ x then
    let f := x - 2 ^ 70
    let s := freeDeadSet f s
    let lfns := dedup ((patchesIn s f).map lfnOf) ++
      ((s.xlat.ft.filter (fun e => ftMode e.2 == mFast && ftBand e.2 == f)).map (fun e => e.1))
    if fsUse (fsEntry s f) = useFree ∨ (fsUse (fsEntry s f) = useRetiring ∧ lfns = []) then (true, wipeSet f s)
    else
      (false, lfns.foldl (fun s l => makeDue l 8 0 false s) s)
  else
    let b := x % 2 ^ 20
    let d := bandOf s b
    if d.cls = .clear ∨ d.cls = .open_ ∨ d.foldSeq.toNat ≠ x / 2 ^ 20 then (true, s)
    else (false, if d.cls = .written then reclaimBand b 0 (if liveCount s b = 0 then setBand b (fun d => { d with cls := .dead, cleared := 0 }) s else s)
      else s)

/-- An erase taken as far as it goes, and its end. -/
def eraseGo (i : Nat) (s : State) : State :=
  match (ldOf s i).erase with
  | none => s
  | some e =>
    let zero := e.zeroLeft.filter (zeroPending s)
    let (left, s) := e.clearLeft.foldl (fun (a : List Nat × State) x =>
      let (ok, s) := eraseStep x a.2
      (if ok then a.1 else a.1 ++ [x], s)) ([], s)
    if zero = [] ∧ left = [] then send (clearPoison i (setLd i (fun d => { d with erase := none }) s)) (.bgOpEnd i)
    else setLd i (fun d => { d with erase := some { e with zeroLeft := zero, clearLeft := left } }) s

/-- Everything that waits for zero folds or for erases taken as far as it goes: erases, held releases, discard jobs. -/
def pollWork (s : State) : State :=
  let s := (List.range 64).foldl (fun s i => eraseGo i s) s
  let s := (List.range 64).foldl (fun s i => (ldOf s i).heldRelease.foldl (fun s h => releaseGo i (some h.1) h.2 s) s) s
  let s := (List.range 64).foldl (fun s i => (ldOf s i).redo.foldl (fun s x => releaseGo i none x s) s) s
  s.unit.running.foldl (fun s j =>
    match j.kind with
    | .discard ls => if ls.any (zeroPending s) then s else endJob j.id 0 s
    | _ => s) s

end Sys2Proof.Machine
end

