-- ==== Sys2Proof/Machine/Span.lean ====
section
/-! DEFINITION. The span side: members and their states, outriders and wards, deltas as data member and as holder, serving and
using RECON_READ, rebuild, and the messages that drive them (R347 to R399). -/

namespace Sys2Proof.Machine

/-! ## Member states (R352, R360, R382, R474) -/

/-- Whether a remount has begun to rebuild, as this device knows it: its own reads have begun, or its bulk reads have arrived (R352, R394;
DEDUCED, log entry 47). -/
def rebuildBegun (s : State) (r : Nat) : Bool := (peerOf s r).st.toNat == psRemount && (peerOf s r).rebuilding

/-- The code of SPAN_STATE.SPAN that the members' states give (R352). -/
def spanCode (s : State) : Nat :=
  if s.span.desc.isNone then 0
  else
    let st := fun r => (peerOf s r).st.toNat
    let ms := List.range (spanN s)
    let lost := fun r => st r == psLost || st r == psUnhitched
    if spanM s < ms.countP lost then 5
    else if ms.any (rebuildBegun s) then 4
    else if ms.any (fun r => lost r || st r == psRemount) then 3
    else if ms.any (fun r => st r == psJoining || st r == 0) then 1
    else 2

/-- The span state worked out again; a change of the span unit is recorded (R474). -/
def spanEval (s : State) : State :=
  let old := spanUnitState s
  let code := spanCode s
  let t := { s with span := { s.span with spanState := BitVec.ofNat 3 code } }
  match t.span.desc with
  | some d => if spanUnitState t = old then t else stateEvent (0xC00000 + d.span.toNat) old (spanUnitState t) 4 false t
  | none => t

/-- A member's state changed, with the record of its unit. -/
def setPeerSt (r st : Nat) (s : State) : State :=
  let u := uPeer (memberPool s r)
  let old := ownState s u
  let t := setPeer r (fun p => { p with st := BitVec.ofNat 3 st, rebuilding := p.rebuilding && st == psRemount }) s
  spanEval (if ownState t u = old then t else stateEvent u old (ownState t u) 4 false t)

/-- A member that rebuilds, noted (R394). -/
def noteRebuild (r : Nat) (s : State) : State :=
  if (peerOf s r).st.toNat = psRemount ∧ !(peerOf s r).rebuilding then spanEval (setPeer r (fun p => { p with rebuilding := true }) s) else s

/-- The outriders a member has: the first f − 1 Live members after it (R360). -/
def outridersOf (s : State) (r : Nat) : List Nat :=
  match s.span.desc with
  | none => []
  | some d =>
    let n := spanN s
    (((List.range (n - 1)).map (fun i => (r + 1 + i) % n)).filter (fun m => (peerOf s m).st.toNat == psLive)).take (d.f.toNat - 1)

/-- The members this device is an outrider of. -/
def wardMembers (s : State) : List Nat := (otherMembers s).filter (fun r => (outridersOf s r).contains (ownIndex s))

/-- The pool index under which a member's records are kept: a remount's are the lost member's. -/
def wardPool (s : State) (r : Nat) : Nat := sget (memberPool s r) s.span.aliases r

/-- The fast sets of a ward's foreign patch area (R365, note). -/
def foreignSets (s : State) : Nat := match s.variant with | .x4 => 2341 | _ => 1171

/-- A ward taken on, with its foreign patch area (R365). -/
def addWard (pool : Nat) (s : State) : State :=
  if s.span.wards.any (fun w => w.pool == pool) then s
  else
    let s := times (foreignSets s) (fun s => match freeSet s with | some f => takeSet f useForeign pool (pool % 512) s | none => s) s
    { s with span := { s.span with wards := s.span.wards ++
      [{ pool := pool, bseq := 0, chain := 0, records := [], maps := [], keys := [], topRnum := 0 }] } }

/-- A ward changed. -/
def setWard (pool : Nat) (f : Ward → Ward) (s : State) : State :=
  { s with span := { s.span with wards := s.span.wards.map (fun w => if w.pool = pool then f w else w) } }

def wardOf (s : State) (pool : Nat) : Option Ward := s.span.wards.find? (fun w => w.pool == pool)

/-! ## Foreign patch areas (R365 to R368) -/

/-- The sets of a ward's foreign patch area. -/
def areaSets (s : State) (pool : Nat) : List Nat :=
  (s.xlat.fst.filter (fun e => fsUse e.2 == useForeign && fsKey e.2 == pool % 512)).map (fun e => e.1)

/-- The index entry of a record at a place (R367). -/
def foreignEntry (lln place : Nat) (rnum : BitVec 48) : PiEnt :=
  ⟨BitVec.ofNat 40 lln, rnum.extractLsb' 0 24, BitVec.ofNat 19 (place / 65538), BitVec.ofNat 10 (place % 65538 / 64),
    BitVec.ofNat 6 (place % 64), true, false, false, false⟩

/-- The segment at an area's tail with room for `need` lines; a partial record never starts at line 55. A full one gives way to the
area's first free segment, whose trailer names the ward and the record (R365, R368). -/
def foreignSegment (pool need : Nat) (rnum : BitVec 48) (s : State) : Option (Nat × State) :=
  match (wardOf s pool).bind (fun w => w.seg.filter (fun k => Nat.ble ((sget noSeg s.xlat.segs k).next + need) 56)) with
  | some k => some (k, s)
  | none =>
    let s := setWard pool (fun w => { w with seg := none }) s
    match ((areaSets s pool).filter (fun f => copyUp s f 0 && copyUp s f 1)).findSome? (fun f =>
        ((List.range 1024).map (segKey f)).find? (fun k => match sfind s.xlat.segs k with | none => true | some g => segDead s k g)) with
    | none => none
    | some k => some (k, setWard pool (fun w => { w with seg := some k })
        (placeSeg k { noSeg with kind := .foreign, base := rnum, ward := BitVec.ofNat 9 pool } s))

/-- A record written at its area's tail, in one payload line or two, and indexed; what was stored for its LLN is dead (R365 to R367). -/
def storeForeign (pool lln : Nat) (s : State) : State :=
  match (wardOf s pool).bind (fun w => sfind w.records lln) with
  | none => s
  | some r =>
    let full := r.mask == BitVec.allOnes 64
    match foreignSegment pool (if full then 1 else 2) r.rnum s with
    | none => s
    | some (k, s) =>
      let i := (sget noSeg s.xlat.segs k).next
      let n := if full then 1 else 2
      let place := 65538 * (k / 1024) + 64 * (k % 1024) + i
      let md := r.rnum.extractLsb' 0 16
      let s := segPut k i (mediaLine r.data md) s
      let s := if full then s else segPut k (i + 1) (mediaLine (r.mask.zeroExtend 512) md) s
      let entry := BitVec.ofNat 64 (lln + 2 ^ 40 * (r.rnum.toNat % 2 ^ 24))
      let s := { s with xlat := { s.xlat with
        segs := smod noSeg s.xlat.segs k (fun g => { g with next := g.next + n })
        dirs := (List.range n).foldl (fun d j => sput d (56 * k + i + j) entry) s.xlat.dirs } }
      let s := segPut k (56 + i / 8) (mediaLine (dirLine s k i) 0x5044) s
      let s := if (i + n - 1) / 8 = i / 8 then s else segPut k (56 + (i + 1) / 8) (mediaLine (dirLine s k (i + 1)) 0x5044) s
      (piInsert (foreignEntry lln place r.rnum) (setWard pool (fun w => { w with places := sput w.places lln place }) s)).2

/-- Records of a ward given up: their index entries, and their lines dead with them (R368, R375). -/
def dropForeign (pool : Nat) (llns : List Nat) (s : State) : State :=
  let s := piDrop (fun e => foreignEnt s e && fsKey (fsEntry s e.set.toNat) == pool % 512 && llns.contains e.lln.toNat) s
  setWard pool (fun w => { w with
    records := w.records.filter (fun e => !llns.contains e.1), places := w.places.filter (fun e => !llns.contains e.1) }) s

/-- The free segments of a ward's area: those with no live record, the open one apart (R368). -/
def foreignFree (s : State) (w : Ward) : Nat :=
  1024 * (areaSets s w.pool).length -
    (dedup (w.places.map (fun e => segKey (e.2 / 65538) (e.2 % 65538 / 64)) ++ w.seg.toList)).length

/-- The free segments of a ward's area below which it is compacted: R368 gives this one number, a sixteenth of the X4's area, and the note on
the H2's smaller area gives no other, so it stands on every variant (DESIGN CHOICE, log entry 44). -/
def foreignLow : Nat := 149824

/-- One step of the compaction of a ward's area, below the limit of free segments: the closed segment with the fewest live records has them
rewritten at the tail (R368). -/
def compactForeign (pool : Nat) (s : State) : State :=
  match wardOf s pool with
  | none => s
  | some w =>
    let segOf := fun e : Nat × Nat => segKey (e.2 / 65538) (e.2 % 65538 / 64)
    let ks := dedup ((w.places.map segOf).filter (fun k => w.seg != some k))
    match ks with
    | [] => s
    | k :: l =>
      if foreignLow ≤ foreignFree s w then s
      else
        let few := l.foldl (fun a b => if foreignLive s b < foreignLive s a then b else a) k
        ((w.places.filter (fun e => segOf e == few)).map (fun e => e.1)).foldl (fun s x => storeForeign pool x s) s

/-! ## Streams: acknowledgements, reseed, outriders (R364, R386, R166, R167) -/

/-- The live records an outrider reports (R369). -/
def reportLive (r : Nat) (live : BitVec 29) (s : State) : State :=
  match streamTo s r with
  | some i => updLoad (setStream i (fun st => { st with reported := live, sentSince := 0 }) s)
  | none => s

/-- Strict writes with every record acknowledged completed, unless a reseed runs; exposures and stalls whose records are
acknowledged ended, with the LD's bit of WRITE_EXPOSED (R161, R166, R167, R186, R386). In write-through mode a line still dirty is waited for (R176). -/
def strictDone (s : State) : State :=
  let s := { s with
    host := { s.host with lds := s.host.lds.map (fun (d : Ld) => if d.exposedOut = [] ∧ d.exposedRec = [] then d else { d with
      exposedOut := strictLeft s d.exposedOut, exposedRec := strictLeft s d.exposedRec }) }
    write := { s.write with relaxedStall := strictLeft s s.write.relaxedStall } }
  let s := { s with write := { s.write with exposedLd := BitVec.ofNat 64 ((List.range 64).foldl (fun a i =>
    a + b2n (s.write.exposedLd.getLsbD i && (ldOf s i).exposedRec != []) * 2 ^ i) 0) } }
  if s.span.exposed then s
  else
    s.host.reqs.foldl (fun (s : State) (q : Req) =>
      match q.wait with
      | .strict l =>
        let left := strictLeft s l
        let without := s.host.reqs.filter (fun (r : Req) => r.id != q.id)
        if left ≠ [] then s
        else if s.write.through ∧ isDirty s q.lln then
          { s with host := { s.host with reqs := s.host.reqs.map (fun (r : Req) => if r.id = q.id then { r with wait := .through } else r) } }
        else send { s with host := { s.host with reqs := without } } (.memWrite q.port q.ld q.tag (devLoad s))
      | _ => s) s

/-- Batches up to BSEQ acknowledged on stream i; a reseed whose last record is acknowledged is over (R364, R386). -/
def ackStream (i : Nat) (bseq : BitVec 48) (live : BitVec 29) (s : State) : State :=
  let s := setStream i (fun st =>
    let left := st.sent.filter (fun b => Nat.blt bseq.toNat b.bseq.toNat)
    let gone := st.sent.filter (fun b => Nat.ble b.bseq.toNat bseq.toNat)
    { st with sent := left, ackChain := (gone.getLast?).elim st.ackChain Batch.chain, reported := live, sentSince := left.foldl (fun a b => a + b.records.length) 0 }) s
  let last := s.span.reseedLast.filter (fun e => isUnacked s e.1 e.2)
  let s := { s with span := { s.span with
    reseedLast := last, exposed := s.span.exposed && !(last.isEmpty && s.span.reseedDue.isEmpty) } }
  strictDone (updLoad s)

/-- The unacknowledged batches of stream i sent anew, as the first of a new chain: their records, RNUMs and FTIME0 stay, BSEQ counts from
1, and BFLAGS[2] says reseed (R362, R386). -/
def restartStream (i : Nat) (s : State) : State :=
  match s.span.streams[i]?, s.span.outr[i]? with
  | some st, some r =>
    let bs := st.sent.mapIdx (fun j b => { b with bseq := BitVec.ofNat 48 (j + 1), bflags := b.bflags ||| 4 })
    let s := setStream i (fun st => { st with bseq := BitVec.ofNat 48 bs.length, chain := 0, ackChain := 0, sent := bs, reseed := true }) s
    let n := bs.foldl (fun a b => a + b.records.length) 0
    bs.foldl (fun s b => peerSend r (.patchBatch b) s) { s with span := { s.span with cRecords := satAdd s.span.cRecords n } }
  | _, _ => s

/-- The records a reseed sends: for each line with a live local patch the patch, for each dirty line what the caches hold of it
(R386). -/
def reseedRecords (s : State) : List Record :=
  let patches := dedup ((s.xlat.pi.filter (fun e => e.2.valid && fsUse (fsEntry s e.2.set.toNat) == useLog)).map (fun e => e.2.lln.toNat) ++
    (s.xlat.piOvf.filter (fun e => !foreignEnt s e)).map (fun e => e.lln.toNat))
  let dirty := dirtyLlns s
  patches.filterMap (fun l => (mediaValue s l).map (fun v => writeRecord l v (BitVec.allOnes 64))) ++
    dirty.flatMap (fun l =>
      let nc := (ncWays s l).filterMap (fun k => let w := ncWay s k; if dirtyWay w && wayGood w then some (w.mask, w.st, w.data) else none)
      let dr := (match sfind s.cache.dirty l with
        | some d => [writeRecord l d.data (if d.partial_ then d.mask else BitVec.allOnes 64)] | none => [])
      dr ++ (match nc.head? with
        | some (m, st, v) => [writeRecord l v (if st = .dirty then BitVec.allOnes 64 else m)] | none => []))

/-- A stream reseeded: its unacknowledged records again with their numbers when the outrider is a new one, which starts a new
chain; then every live line (R386). -/
def reseed (i : Nat) (fresh : Bool) (s : State) : State :=
  if (s.span.streams[i]?).isNone then s
  else
    let s := if fresh then restartStream i s else s
    let s := closeBatch i false false (setStream i (fun st => { st with reseed := true }) s)
    let s := (reseedRecords s).foldl (fun s r => streamAdd i r false s) s
    let s := closeBatch i false false s
    let s := setStream i (fun st => { st with reseed := false }) s
    let top := (s.span.streams.getD i newStream).rnum
    let running := isUnacked s i top
    { s with span := { s.span with
      reseedDue := s.span.reseedDue.filter (fun x => x != i)
      exposed := s.span.exposed || running
      reseedLast := if running then s.span.reseedLast.filter (fun e => e.1 != i) ++ [(i, top)] else s.span.reseedLast } }

/-- A stream that ends because no member is left to be its outrider: what waits for it waits no longer. -/
def dropStream (i : Nat) (s : State) : State :=
  let sh := fun l : List (Nat × BitVec 48) => l.filterMap (fun e => if e.1 = i then none else some (if i < e.1 then e.1 - 1 else e.1, e.2))
  strictDone { s with
    span := { s.span with
      outr := s.span.outr.take i ++ s.span.outr.drop (i + 1), streams := s.span.streams.take i ++ s.span.streams.drop (i + 1)
      reseedLast := sh s.span.reseedLast, reseedDue := [] }
    write := { s.write with relaxedStall := sh s.write.relaxedStall }
    host := { s.host with
      lds := s.host.lds.map (fun (d : Ld) => { d with exposedOut := sh d.exposedOut, exposedRec := sh d.exposedRec })
      reqs := s.host.reqs.map (fun (q : Req) => match q.wait with | .strict l => { q with wait := .strict (sh l) } | _ => q) } }

/-- The outriders looked at again: a lost one is replaced by the next Live member and reseeded (R386). -/
def outriderLost (r : Nat) (s : State) : State :=
  match streamTo s r with
  | none => s
  | some i =>
    match (outridersOf s (ownIndex s)).find? (fun m => !s.span.outr.contains m) with
    | none => dropStream i s
    | some m =>
      let s := { s with span := { s.span with outr := lmod s.span.outr i (fun _ => m) } }
      reseed i true (event { code := 0x0305, unit := uPeer (memberPool s r), p0 := memberPool s m } s)

/-! ## Deltas as data member (R371, R374, R376) -/

/-- This device's slot of a frame in the batch with a FOLD_SEQ. -/
def ownSlot (s : State) (lfn : Nat) (seq : BitVec 48) : Option (Nat × FoldSlot) :=
  s.mm.batches.findSome? (fun g => if g.seq = seq then
    ((g.slots.find? (fun x => x.lfn == lfn && !x.aborted && !isDelta x.src)).map (fun x => (g.band, x))) else none)

/-- The end of a delta: the records released, the old slot released, the batch closed when it was the last (R371 D6, step 6). -/
def finishDelta (b : Nat) (sl : FoldSlot) (s : State) : State :=
  let s := match sl.src with | .zero _ => commitSlot b 0 sl s | _ => s
  let s := releaseOld sl.prev (releaseRecords sl s)
  let s := setSlot b sl.lfn (fun y => { y with phase := .done }) s
  closeIfDone b { s with span := { s.span with cDeltas := satInc s.span.cDeltas } }

/-- A delta's next step once every holder has answered the present one. -/
def deltaCheck (b lfn : Nat) (s : State) : State :=
  match (s.mm.batches.find? (fun g => g.band == b)) with
  | none => s
  | some g =>
    match g.slots.find? (fun x => x.lfn == lfn && !x.aborted) with
    | none => s
    | some sl =>
      if !sl.holders.all (fun h => sl.replied.contains h) then s
      else
        match sl.phase with
        | .admitted =>
          if sl.holders = [] then s
          else advanceBatch b (setSlot b lfn (fun y => { y with phase := .staged }) s)
        | .committed =>
          let s := setSlot b lfn (fun y => { y with phase := .ended, replied := [] }) s
          let s := sl.holders.foldl (fun s h => peerSend h (.deltaChunk 3 lfn (stripeRole s lfn (ownIndex s)).2 g.seq) s) s
          if sl.holders = [] then finishDelta b sl s else s
        | .ended => finishDelta b sl s
        | _ => s

/-- A holder's answer to a step. -/
def deltaReply (r lfn : Nat) (seq : BitVec 48) (ph : DeltaPhase) (s : State) : State :=
  match ownSlot s lfn seq with
  | some (b, sl) =>
    if sl.phase = ph ∧ sl.holders.contains r then
      deltaCheck b lfn (setSlot b lfn (fun y => { y with replied := y.replied.filter (fun x => x != r) ++ [r] }) s)
    else s
  | none => s

/-- A holder lost: the delta goes on with the others; with none left its steps are skipped (R374). -/
def deltaHolderLost (r : Nat) (s : State) : State :=
  let slots := s.mm.batches.flatMap (fun g => (g.slots.filter (fun x => !x.aborted && !isDelta x.src)).map (fun x => (g.band, g.seq, x)))
  slots.foldl (fun s (e : Nat × BitVec 48 × FoldSlot) =>
    let b := e.1
    let sl := e.2.2
    match sl.phase with
    | .requested =>
      if ((List.range (spanM s)).map (parityMember s sl.lfn)).contains r then
        match liveHolders s sl.lfn with
        | [] => advanceBatch b (setSlot b sl.lfn (fun y => { y with phase := .none }) s)
        | h :: _ => peerSend h (.deltaChunk 0 sl.lfn (stripeRole s sl.lfn (ownIndex s)).2 e.2.1) s
      else s
    | .none => s
    | .done => s
    | _ =>
      if sl.holders.contains r then
        let hs := sl.holders.filter (fun x => x != r)
        let s := setSlot b sl.lfn (fun y => { y with holders := hs, replied := y.replied.filter (fun x => x != r) }) s
        if sl.phase = .admitted ∧ hs = [] then advanceBatch b (setSlot b sl.lfn (fun y => { y with phase := .none }) s)
        else deltaCheck b sl.lfn s
      else s) s

/-- A delta a holder refused: every holder told to abort, the frame due again (R374). -/
def deltaAborted (lfn : Nat) (seq : BitVec 48) (s : State) : State :=
  match ownSlot s lfn seq with
  | some (b, sl) =>
    if sl.phase = .committed ∨ sl.phase = .ended ∨ sl.phase = .done then s
    else
      let s := leaveSlot sl seq s
      let s := closeIfDone b (setSlot b lfn (fun y => { y with aborted := true }) s)
      match sl.src with
      | .zero m => zeroFold lfn m { s with mm := { s.mm with batches := s.mm.batches.filter (fun g => g.band != b) } }
      | _ => makeDue lfn 1 0 false s
  | none => s

/-- Releases withheld for stripes that had no live holder sent once one is there again (R374). -/
def sendWithheld (s : State) : State :=
  let (go, stay) := s.span.withheld.partition (fun e => !(liveHolders s e.1).isEmpty)
  go.foldl (fun s e => sendRelease e.2.1 e.2.2 s) { s with span := { s.span with withheld := stay } }

/-! ## Deltas as holder (R372, R373, R374, R381) -/

/-- The position of this device among the holders of a stripe, when it is one. -/
def holderPos (s : State) (lfn : Nat) : Option Nat :=
  let role := stripeRole s lfn (ownIndex s)
  if s.span.desc.isSome && role.1 then some role.2 else none

/-- Whether this device is the admitting holder of a stripe: the live member with the lowest parity position. -/
def isAdmitter (s : State) (lfn : Nat) : Bool :=
  match ((List.range (spanM s)).map (parityMember s lfn)).find? (fun r => r == ownIndex s || memberUp s r) with
  | some r => r == ownIndex s
  | none => false

/-- The batch slot in which a holding's parity is staged. -/
def stagedSlot (s : State) (lfn : Nat) : Option (FoldBatch × Nat × FoldSlot) :=
  s.mm.batches.findSome? (fun g => (g.slots.findIdx? (fun x => x.lfn == lfn && isDelta x.src && !x.aborted)).bind (fun i =>
    (g.slots[i]?).map (fun x => (g, i, x))))

def setHolding (h : Holding) (f : Holding → Holding) (s : State) : State :=
  { s with span := { s.span with holdings := s.span.holdings.map (fun x => if x = h then f x else x) } }

/-- The next data member that waits for the stripe admitted. -/
def admitNext (lfn : Nat) (s : State) : State :=
  match s.span.waitAdmit.find? (fun w => w.1 == lfn) with
  | none => s
  | some w =>
    let h : Holding := { lfn := lfn, member := w.2.1, t := w.2.2.1, foldSeq := w.2.2.2, admitter := true, chunks := [], staged := false, committed := false }
    let s := { s with span := { s.span with
      waitAdmit := s.span.waitAdmit.filter (fun x => x != w), holdings := s.span.holdings ++ [h] } }
    ackDelta 0 h s

/-- A holding dropped: its staged slot is dead, a committed new parity gives way to the old one (R373 ABORT, R374). -/
def dropHolding (h : Holding) (s : State) : State :=
  let s := match stagedSlot s h.lfn with
    | some (g, _, sl) =>
      let s := if h.committed then commitNow h.lfn sl.prev s else s
      closeIfDone g.band (setSlot g.band h.lfn (fun y => { y with aborted := true }) s)
    | none => s
  let s := { s with
    span := { s.span with holdings := s.span.holdings.filter (fun x => x != h) }
    mm := { s.mm with due := s.mm.due.filter (fun d => d.lfn != h.lfn) } }
  if h.admitter then admitNext h.lfn s else s

/-- The holding of a member's delta. -/
def holdingFor (s : State) (r lfn : Nat) (seq : BitVec 48) : Option Holding :=
  s.span.holdings.find? (fun h => h.lfn == lfn && h.member == r && h.foldSeq == seq)

/-- An answer of a holder that has no such admission (any more): what the step asks for holds already, or nothing is staged. -/
def ackPlain (code r lfn : Nat) (seq : BitVec 48) (s : State) : State :=
  peerSend r (.deltaAck code lfn seq 0 (liveRecords s (wardPool s r))) s

/-! ## A member lost (R374, R382, R385) -/

/-- A recovery that need not wait for a member any more. -/
def noAnswer (r : Nat) (q : SpanRead) : SpanRead :=
  let answers := if q.asked.contains r && !q.answers.any (fun a => a.1 == r) then q.answers ++ [(r, none)] else q.answers
  let records := if q.askedRec.contains r && !q.records.any (fun a => a.1 == r) then q.records ++ [(r, none)] else q.records
  { q with answers := answers, records := records }

/-- Questions put to a member that will not answer forgotten; a remount whose map was asked of it asks another outrider. -/
def forgetAsked (r : Nat) (s : State) : State :=
  let its := fun a : BitVec 32 × Nat => if 131072 ≤ a.2 then a.2 == 131072 + r else if 65536 ≤ a.2 then a.2 == 65536 + r else a.2 / 64 == r
  let again := s.span.lost.isSome && s.span.mapAsked.any (fun a => Nat.blt a.2 65536 && its a)
  { s with span := { s.span with
    mapAsked := s.span.mapAsked.filter (fun a => !its a), joinStep := if again then 0 else s.span.joinStep } }

/-- A member that is Lost or Unhitched: its admissions revert, this device's deltas go on without it, recoveries stop waiting for
it, a lost outrider is replaced. -/
def memberGone (r st : Nat) (s : State) : State :=
  let s := setPeerSt r st s
  let s := forgetAsked r (setPeer r (fun p => { p with held := [] }) s)
  let s := { s with span := { s.span with
    waitAdmit := s.span.waitAdmit.filter (fun w => w.2.1 != r), reads := s.span.reads.map (noAnswer r) } }
  let s := (s.span.holdings.filter (fun h => h.member == r)).foldl (fun s h => dropHolding h s) s
  outriderLost r (deltaHolderLost r s)

/-! ## Receiving (R349, R395, R398) -/

/-- The member behind a PBR ID whose pool entry has ROLE member or remount in the device's span (R349): its member index is the entry's. -/
def senderOf (s : State) (pbr : BitVec 12) : Option Nat :=
  match s.span.desc with
  | none => none
  | some d => (s.span.pool.find? (fun e => e.2.pbr == pbr && e.2.span == d.span &&
      (bits e.2.slot.toNat 4 3 == 1 || bits e.2.slot.toNat 4 3 == 2))).map (fun e => e.2.slot.toNat % 16)

/-- The higher of two message sequences. -/
def later (a b : BitVec 48) : BitVec 48 := if a.toNat < b.toNat then b else a

/-- A peer-window write: refused and recorded when its sender is no member; discarded when its CRC fails or its MSEQ was consumed;
else consumed and acted on. The L1 has no peer window. `m` is the message, none for the type that has no CRC. -/
def receive (h : MsgHdr) (m : Option PeerMsg) (act : Nat → State → State) (s : State) : Res :=
  let s := begin s
  if !hasSpan s then ran s
  else
    match senderOf s h.pbr with
    | none => ran (event { code := 0x0303, unit := uPort 0, p0 := h.pbr.toNat } s)
    | some r =>
      let p := peerOf s r
      if r = ownIndex s ∨ m.any (fun m => h.crc != msgCrc h m) ∨ h.mseq.toNat ≤ (if h.ring then p.gotData else p.gotCtl).toNat then ran s
      else
        let s := setPeer r (fun p => if h.ring then { p with gotData := h.mseq, ackData := later p.ackData h.ackto }
          else { p with gotCtl := h.mseq, ackCtl := later p.ackCtl h.ackto }) s
        ran (mediaNext (act r (peerFlush r s)))

/-! ## Heartbeats and loss -/

/-- The admissions a holder lists that this member no longer runs ended: COMMIT and DONE when its entry is committed, else ABORT
(R374). The holder compares the FOLD_SEQ with its own. -/
def rejoinAdmission (r lfn : Nat) (s : State) : State :=
  if s.mm.batches.any (fun g => g.slots.any (fun x => x.lfn == lfn && !x.aborted)) ∨ (stripeRole s lfn (ownIndex s)).1 then s
  else
    let e := ftEntry s lfn
    let t := (stripeRole s lfn (ownIndex s)).2
    let seq := (bandOf s (ftBand e)).foldSeq
    if ftMode e = mDense ∧ ftBand e ≠ zeroHome then
      peerSend r (.deltaChunk 3 lfn t seq) (peerSend r (.deltaChunk 2 lfn t seq) s)
    else peerSend r (.deltaChunk 4 lfn t seq) s

/-- HEARTBEAT (R382). -/
def execHeartbeat (h : MsgHdr) (state : BitVec 3) (lock : BitVec 2) (bound : BitVec 32) (live : BitVec 29) (admissions : List (BitVec 24))
    (activating : Bool) (s : State) : Res :=
  receive h (some (.heartbeat state lock bound live.toNat (admissions.map BitVec.toNat) activating)) (fun r s =>
    let s := setPeer r (fun p => { p with missed := 0, lock := lock, bound := bound, live := live, activating := activating, answered := true }) s
    let s := if (peerOf s r).st = state then s else setPeerSt r state.toNat s
    let s := reportLive r live s
    admissions.foldl (fun s l => rejoinAdmission r l.toNat s) s) s

/-- PEER_HEARTBEAT_LOSS: eight periods with no HEARTBEAT; the peer is Lost (R382). -/
def execPeerHeartbeatLoss (r : Fin 16) (s : State) : Res :=
  let s := begin s
  let st := (peerOf s r).st.toNat
  if spanN s ≤ r.val ∨ r.val = ownIndex s ∨ st = 0 ∨ st = psLost ∨ st = psUnhitched then ran s
  else
    let missed := max 8 (peerOf s r).missed
    let s := setPeer r (fun p => { p with missed := missed }) s
    let s := send s (.fmNotice fmPeerLost r)
    let s := event { code := 0x0301, unit := uPeer (memberPool s r), p0 := missed } s
    ran (mediaNext (memberGone r psLost s))

/-- MAJORITY_LOSS: heartbeats from fewer than half of the other members for eight periods (R383). -/
def execMajorityLoss (s : State) : Res := ran (unhitch 1 (begin s))

/-- UNHITCH_MESSAGE: the sender is out; its last record numbers are kept for its remount (R385, R390). -/
def execUnhitchMessage (h : MsgHdr) (cause : Byte) (rnums : List (BitVec 48)) (s : State) : Res :=
  receive h (some (.unhitch cause rnums)) (fun r s =>
    let s := setWard (wardPool s r) (fun w => { w with topRnum := rnums.foldl (fun a n => if a.toNat < n.toNat then n else a) w.topRnum }) s
    memberGone r psUnhitched (send s (.fmNotice fmPeerUnhitched r))) s

/-! ## Records as outrider (R364 to R367, R375, R389) -/

/-- The map entries of a KIND 0x02 record; an index of all ones is padding. -/
def recordMaps (r : Record) : List MapEntry :=
  (List.range 4).filterMap (fun j =>
    let b := (bytesOf 64 r.data.toNat).drop (16 * j)
    if field b 2 1 = 0xFF then none
    else some { index := BitVec.ofNat 16 (field b 0 2), ld := BitVec.ofNat 6 (field b 2 1), valid := bit (field b 2 1) 7
                mode := BitVec.ofNat 2 (field b 3 1), frame := BitVec.ofNat 24 (field b 4 3), length := BitVec.ofNat 24 (field b 7 3)
                lfn := BitVec.ofNat 24 (field b 10 3) })

/-- One record merged into a ward's (R366). -/
def keepRecord (w : Ward) (rn : BitVec 48) (r : Record) : Ward :=
  let w := { w with topRnum := if w.topRnum.toNat < rn.toNat then rn else w.topRnum }
  if r.kind = 2 then
    { w with maps := (recordMaps r).foldl (fun m e =>
        let k := 65536 * e.ld.toNat + e.index.toNat
        if e.valid then sput m k e else sdel m k) w.maps }
  else if r.kind = 0 ∨ r.kind = 1 then
    let mask := if r.kind = 0 then BitVec.allOnes 64 else r.mask
    let f : FRecord := match sfind w.records r.lln.toNat with
      | some o => { rnum := rn, mask := o.mask ||| mask, data := mergeBytes o.data r.data mask }
      | none => { rnum := rn, mask := mask, data := mergeBytes 0 r.data mask }
    { w with records := sput w.records r.lln.toNat f }
  else w

/-- The keys of a ward's LDs that its map names and the outrider does not hold asked of the ward (R614). -/
def askKeys (r : Nat) (s : State) : State :=
  match wardOf s (wardPool s r) with
  | none => s
  | some w =>
    let lds := (dedup (w.maps.map (fun e => e.2.ld.toNat))).filter (fun i => (sfind w.keys i).isNone && !s.span.mapAsked.any (fun a => a.2 == 64 * r + i))
    lds.foldl (fun s i =>
      let tag := s.span.nextTag
      peerSend r (.reconRead 2 tag i 0 0 (wardPool s r)) { s with span := { s.span with
        nextTag := tag + 2, mapAsked := s.span.mapAsked ++ [(tag, 64 * r + i)] } }) s

/-- Whether a batch begins a stream anew: BSEQ 1 with a CHAIN that follows 0, and records after all those held, or a reseed's (R362, R364,
R386; how an outrider tells it from a copy is DEDUCED, log entry 44). -/
def streamBegins (w : Ward) (hdr : List Byte) (b : Batch) : Bool :=
  b.bseq == 1 && w.bseq != 0 && (Nat.blt w.topRnum.toNat b.firstRnum.toNat || b.bflags.getLsbD 2) && batchChain hdr b 0 == b.chain

/-- PATCH_BATCH: checked against BSEQ and CHAIN, stored, acknowledged; a bad one asks for the first batch needed (R364). -/
def execPatchBatch (h : MsgHdr) (b : Batch) (s : State) : Res :=
  receive h none (fun r s =>
    let pool := wardPool s r
    let s := addWard pool s
    match wardOf s pool with
    | none => s
    | some w =>
      let live := fun s => liveRecords s pool
      let hdr := headerBytes 1 h.span.toNat h.ring h.src.toNat h.dst.toNat h.mseq h.ackto h.ftime h.len.toNat
      let w := if streamBegins w hdr b then { w with bseq := 0, chain := 0 } else w
      if b.bseq.toNat ≤ w.bseq.toNat then peerSend r (.deltaAck 6 0 0 b.bseq (live s)) s
      else
        if b.bseq ≠ w.bseq + 1 ∨ batchChain hdr b w.chain ≠ b.chain then peerSend r (.deltaAck 7 0 0 (w.bseq + 1) (live s)) s
        else
          let s := setWard pool (fun w =>
            let w := (List.range b.records.length).foldl (fun w j =>
              match b.records[j]? with
              | some x => keepRecord w (times j nextRnum b.firstRnum) x
              | none => w) w
            { w with bseq := b.bseq, chain := b.chain }) s
          let s := (dedup ((b.records.filter (fun x => x.kind == 0 || x.kind == 1)).map (fun x => x.lln.toNat))).foldl (fun s l =>
            storeForeign pool l s) s
          askKeys r (peerSend r (.deltaAck 6 0 0 b.bseq (live s)) s)) s

/-- PATCH_RELEASE (R375). -/
def execPatchRelease (h : MsgHdr) (rsnap : BitVec 48) (llns : List (BitVec 40)) (s : State) : Res :=
  receive h (some (.patchRelease rsnap (llns.map BitVec.toNat))) (fun r s =>
    let pool := wardPool s r
    let gone := match wardOf s pool with
      | some w => (w.records.filter (fun e => llns.any (fun l => l.toNat == e.1) && Nat.ble e.2.rnum.toNat rsnap.toNat)).map (fun e => e.1)
      | none => []
    dropForeign pool gone s) s

/-! ## DELTA_CHUNK: this device as holder -/

/-- DELTA_CHUNK REQUEST: one data member per stripe at a time (R372). -/
def execDeltaChunkRequest (h : MsgHdr) (lfn : BitVec 24) (t : BitVec 8) (foldSeq : BitVec 48) (s : State) : Res :=
  receive h (some (.deltaChunk 0 lfn.toNat t.toNat foldSeq)) (fun r s =>
    let l := lfn.toNat
    if (holderPos s l).isNone ∨ !isAdmitter s l then s
    else if (holdingFor s r l foldSeq).isSome then ackPlain 0 r l foldSeq s
    else
      -- a member that asks again has given up what it asked for before
      let s := (s.span.holdings.filter (fun x => x.lfn == l && x.member == r && !x.committed)).foldl (fun s x => dropHolding x s)
        { s with span := { s.span with waitAdmit := s.span.waitAdmit.filter (fun w => !(w.1 == l && w.2.1 == r)) } }
      if s.span.holdings.any (fun x => x.lfn == l) then
        ackPlain 1 r l foldSeq { s with span := { s.span with waitAdmit := s.span.waitAdmit ++ [(l, r, t.toNat, foldSeq)] } }
      else
        ackPlain 0 r l foldSeq { s with span := { s.span with holdings := s.span.holdings ++
          [{ lfn := l, member := r, t := t.toNat, foldSeq := foldSeq, admitter := true, chunks := [], staged := false, committed := false }] } }) s

/-- Whether every line of a parity frame reads here, so that a delta can be laid on it. -/
def parityReads (s : State) (lfn : Nat) : Bool :=
  let e := ftEntry s lfn
  ftBand e == zeroHome || (List.range 65536).all (fun l => (parityContent s lfn l e).isSome)

/-- DELTA_CHUNK DATA: a chunk kept; with the last one the new parity is staged in one of the device's own batches (R373). A parity
that is marked for rebuild or does not read takes no delta: the holder answers ABORTED. -/
def execDeltaChunkData (h : MsgHdr) (lfn : BitVec 24) (t : BitVec 8) (foldSeq : BitVec 48) (chunk : Fin 64) (payload : List Line)
    (s : State) : Res :=
  receive h (some (.deltaData lfn.toNat t.toNat foldSeq chunk.val payload)) (fun r s =>
    let l := lfn.toNat
    if (holderPos s l).isNone ∨ payload.length ≠ 1024 then s
    else
      let s := if (holdingFor s r l foldSeq).isSome then s
        else { s with span := { s.span with holdings := s.span.holdings ++
          [{ lfn := l, member := r, t := t.toNat, foldSeq := foldSeq, admitter := false, chunks := [], staged := false, committed := false }] } }
      match holdingFor s r l foldSeq with
      | none => s
      | some x =>
        if x.staged then s
        else
          let y := { x with chunks := sput x.chunks chunk.val payload }
          let s := setHolding x (fun _ => y) s
          if y.chunks.length < 64 then s
          else if s.span.rebuildMarks.contains l ∨ !parityReads s l then
            let s := if s.span.rebuildMarks.contains l then s else { s with span := { s.span with rebuildMarks := s.span.rebuildMarks ++ [l] } }
            ackPlain 5 r l foldSeq (dropHolding y s)
          else makeDue l 1 0 false s) s

/-- DELTA_CHUNK COMMIT: the staged parity committed, the old slot kept (R373). -/
def execDeltaChunkCommit (h : MsgHdr) (lfn : BitVec 24) (t : BitVec 8) (foldSeq : BitVec 48) (s : State) : Res :=
  receive h (some (.deltaChunk 2 lfn.toNat t.toNat foldSeq)) (fun r s =>
    let l := lfn.toNat
    match holdingFor s r l foldSeq with
    | none =>
      (s.span.holdings.filter (fun x => x.lfn == l && x.member == r)).foldl (fun s x => dropHolding x s) (ackPlain 5 r l foldSeq s)
    | some x =>
      if x.committed then ackPlain 3 r l foldSeq s
      else
        match stagedSlot s l with
        | some (g, i, sl) =>
          if x.staged then
            let s := setSlot g.band l (fun y => { y with phase := .committed }) (commitSlot g.band i sl s)
            ackPlain 3 r l foldSeq (setHolding x (fun x => { x with committed := true }) s)
          else s
        | none => s) s

/-- DELTA_CHUNK DONE: the old slot released, the admission over (R371, R373). -/
def execDeltaChunkDone (h : MsgHdr) (lfn : BitVec 24) (t : BitVec 8) (foldSeq : BitVec 48) (s : State) : Res :=
  receive h (some (.deltaChunk 3 lfn.toNat t.toNat foldSeq)) (fun r s =>
    let l := lfn.toNat
    match holdingFor s r l foldSeq with
    | none => ackPlain 4 r l foldSeq s
    | some x =>
      if !x.committed then s
      else
        let s := match stagedSlot s l with
          | some (g, _, sl) => closeIfDone g.band (setSlot g.band l (fun y => { y with phase := .done }) (releaseOld sl.prev s))
          | none => s
        let s := { s with span := { s.span with holdings := s.span.holdings.filter (fun y => y != x) } }
        let s := if x.admitter then admitNext l s else s
        ackPlain 4 r l foldSeq s) s

/-- DELTA_CHUNK ABORT (R373, R374). -/
def execDeltaChunkAbort (h : MsgHdr) (lfn : BitVec 24) (t : BitVec 8) (foldSeq : BitVec 48) (s : State) : Res :=
  receive h (some (.deltaChunk 4 lfn.toNat t.toNat foldSeq)) (fun r s =>
    let l := lfn.toNat
    let mine := fun x : Holding => x.lfn == l && x.member == r
    let s := { s with span := { s.span with waitAdmit := s.span.waitAdmit.filter (fun w => !(w.1 == l && w.2.1 == r)) } }
    ackPlain 5 r l foldSeq ((s.span.holdings.filter mine).foldl (fun s x => dropHolding x s) s)) s

/-! ## DELTA_ACK: this device as data member or ward -/

/-- DELTA_ACK BUSY: the request waits at the holder (R372). -/
def execDeltaAckBusy (h : MsgHdr) (lfn : BitVec 24) (foldSeq : BitVec 48) (live : BitVec 29) (s : State) : Res :=
  receive h (some (.deltaAck 1 lfn.toNat foldSeq 0 live.toNat)) (fun r s => reportLive r live s) s

/-- DELTA_ACK STAGED (R371 D3). -/
def execDeltaAckStaged (h : MsgHdr) (lfn : BitVec 24) (foldSeq : BitVec 48) (live : BitVec 29) (s : State) : Res :=
  receive h (some (.deltaAck 2 lfn.toNat foldSeq 0 live.toNat)) (fun r s => deltaReply r lfn.toNat foldSeq .admitted (reportLive r live s)) s

/-- DELTA_ACK COMMITTED (R371 D4). -/
def execDeltaAckCommitted (h : MsgHdr) (lfn : BitVec 24) (foldSeq : BitVec 48) (live : BitVec 29) (s : State) : Res :=
  receive h (some (.deltaAck 3 lfn.toNat foldSeq 0 live.toNat)) (fun r s => deltaReply r lfn.toNat foldSeq .committed (reportLive r live s)) s

/-- DELTA_ACK DONE (R371 D5, D6); what waits for a zero fold goes on (R376). -/
def execDeltaAckDone (h : MsgHdr) (lfn : BitVec 24) (foldSeq : BitVec 48) (live : BitVec 29) (s : State) : Res :=
  receive h (some (.deltaAck 4 lfn.toNat foldSeq 0 live.toNat)) (fun r s => pollWork (deltaReply r lfn.toNat foldSeq .ended (reportLive r live s))) s

/-- DELTA_ACK ABORTED (R374). -/
def execDeltaAckAborted (h : MsgHdr) (lfn : BitVec 24) (foldSeq : BitVec 48) (live : BitVec 29) (s : State) : Res :=
  receive h (some (.deltaAck 5 lfn.toNat foldSeq 0 live.toNat)) (fun r s => deltaAborted lfn.toNat foldSeq (reportLive r live s)) s

/-- DELTA_ACK BATCH (R364). -/
def execDeltaAckBatch (h : MsgHdr) (bseq : BitVec 48) (live : BitVec 29) (s : State) : Res :=
  receive h (some (.deltaAck 6 0 0 bseq live.toNat)) (fun r s => match streamTo s r with | some i => ackStream i bseq live s | none => s) s

/-- DELTA_ACK RESEND: the batches before it are held; the rest goes again in order (R364). -/
def execDeltaAckResend (h : MsgHdr) (bseq : BitVec 48) (live : BitVec 29) (s : State) : Res :=
  receive h (some (.deltaAck 7 0 0 bseq live.toNat)) (fun r s =>
    match streamTo s r with
    | none => s
    | some i =>
      let s := ackStream i (bseq - 1) live s
      let again := (s.span.streams.getD i newStream).sent
      let s := { s with span := { s.span with cResend := satAdd s.span.cResend again.length } }
      again.foldl (fun s b => peerSend r (.patchBatch b) s) s) s

end Sys2Proof.Machine
end

