-- ==== Sys2Proof/Machine/SpanServe.lean ====
section
/-! DEFINITION. RECON_READ served and its answers used, rebuild and join, stage maps (R354, R379 to R381, R390 to R394, R398, R427,
R428, R613 to R616). -/

namespace Sys2Proof.Machine

/-! ## Answers -/

/-- A RECON_DATA body with nothing in it. -/
def emptyBody : ReconBody :=
  { oldSeq := 0, newSeq := 0, holder := false, admitted := none, includesNew := false, lines := [], newLines := [], record := none
    maps := [], key := [] }

/-- Status codes of RECON_DATA (R397). -/
def rsGood : BitVec 2 := 0
def rsAbsent : BitVec 2 := 2
def rsRefused : BitVec 2 := 3

/-- RECON_DATA sent to member r: in two parts when old and new lines together pass 64 KiB (R395). -/
def sendAnswer (r : Nat) (tag : BitVec 32) (st : BitVec 2) (b : ReconBody) (s : State) : State :=
  if b.lines.length + b.newLines.length ≤ 1024 then peerSend r (.reconData tag 0 1 st b) s
  else peerSend r (.reconData tag 1 2 st { b with lines := [] }) (peerSend r (.reconData tag 0 2 st { b with newLines := [] }) s)

/-- A served RECON_READ counted. -/
def countIn (s : State) : State := { s with span := { s.span with cReconIn := satInc s.span.cReconIn } }

/-! ## Base lines served (R380, R381) -/

/-- This device's slot of a frame while a delta of it holds an admission. -/
def admittedSlot (s : State) (lfn : Nat) : Option (BitVec 48 × FoldSlot) :=
  s.mm.batches.findSome? (fun g => (g.slots.find? (fun x => x.lfn == lfn && !x.aborted && !isDelta x.src &&
    (x.phase == .admitted || x.phase == .staged || x.phase == .committed || x.phase == .ended))).map (fun x => (g.seq, x)))

/-- The old base line of a slot that holds an admission. -/
def slotOld (s : State) (sl : FoldSlot) (l : Nat) : Option Line :=
  match sl.src with
  | .recon => sfind sl.snap (65536 + l)
  | .entry e => spanBase s sl.lfn l e
  | _ => spanBase s sl.lfn l sl.prev

/-- Some lines, none when one is missing. -/
def allLines (f : Nat → Option Line) (first count : Nat) : Option (List Line) :=
  let ls := (List.range count).filterMap (fun i => f (first + i))
  if ls.length = count then some ls else none

/-- The answer to a BASE or BULK read. -/
def baseAnswer (s : State) (lfn first count : Nat) : BitVec 2 × ReconBody :=
  if 65536 < first + count ∨ count = 0 ∨ nFrames s ≤ lfn then (rsRefused, emptyBody)
  else if parityLfn s lfn then
    if s.span.rebuildMarks.contains lfn then (rsAbsent, emptyBody)
    else
      match allLines (fun l => parityContent s lfn l (ftEntry s lfn)) first count with
      | none => (rsAbsent, emptyBody)
      | some ls =>
        let h := s.span.holdings.find? (fun h => h.lfn == lfn && !(stripeRole s lfn h.member).1)
        (rsGood, { emptyBody with
          holder := true, lines := ls, includesNew := h.any Holding.committed
          admitted := h.bind (fun h => if p : h.member < 16 then some ⟨h.member, p⟩ else none) })
  else
    match admittedSlot s lfn with
    | some (seq, sl) =>
      match allLines (slotOld s sl) first count, allLines (slotNew s sl) first count with
      | some a, some b => (rsGood, { emptyBody with
          oldSeq := (bandOf s (ftBand sl.prev)).foldSeq, newSeq := seq, lines := a, newLines := b })
      | _, _ => (rsAbsent, emptyBody)
    | none =>
      let e := ftEntry s lfn
      if ftMode e = mSpanServed then (rsAbsent, emptyBody)
      else
        match allLines (fun l => spanBase s lfn l e) first count with
        | some a => (rsGood, { emptyBody with
            oldSeq := if ftMode e = mDense then (bandOf s (ftBand e)).foldSeq else 0, lines := a })
        | none => (rsAbsent, emptyBody)

/-- RECON_READ BASE (R380, R381). -/
def execReconReadBase (h : MsgHdr) (tag : Word) (lfn : BitVec 24) (line : BitVec 16) (count : BitVec 11) (s : State) : Res :=
  receive h (some (.reconRead 0 tag lfn.toNat line.toNat count.toNat 0)) (fun r s =>
    let a := baseAnswer s lfn.toNat line.toNat count.toNat
    sendAnswer r tag a.1 a.2 (countIn s)) s

/-- RECON_READ BULK: only while both ends are in the stage's heavy mask (R399, R427). -/
def execReconReadBulk (h : MsgHdr) (tag : Word) (lfn : BitVec 24) (line : BitVec 16) (count : BitVec 11) (s : State) : Res :=
  receive h (some (.reconRead 3 tag lfn.toNat line.toNat count.toNat 0)) (fun r s =>
    let s := noteRebuild r s
    let a := if heavyNow s [r] then baseAnswer s lfn.toNat line.toNat count.toNat else (rsRefused, emptyBody)
    sendAnswer r tag a.1 a.2 (countIn s)) s

/-- RECON_READ RECORD: the ward's merged record of a line (R366, R379). -/
def execReconReadRecord (h : MsgHdr) (tag : Word) (lln : BitVec 40) (ward : BitVec 9) (s : State) : Res :=
  receive h (some (.reconRead 1 tag lln.toNat 0 1 ward.toNat)) (fun r s =>
    let a := match (wardOf s ward.toNat).bind (fun w => sfind w.records lln.toNat) with
      | some f => (rsGood, { emptyBody with
          oldSeq := f.rnum
          record := some { lln := lln, kind := if f.mask = BitVec.allOnes 64 then 0 else 1, mask := f.mask, data := f.data } })
      | none => (rsAbsent, emptyBody)
    sendAnswer r tag a.1 a.2 (countIn s)) s

/-! ## Maps and keys served (R389, R613 to R616) -/

/-- The number under which keys wrapped by the span wrapping key stand. -/
def swkId : Nat := 2 ^ 48

/-- The map of one of this device's LDs as entries. -/
def ldMaps (s : State) (i : Nat) : List MapEntry :=
  let d := ldOf s i
  (List.range d.ranges.length).filterMap (fun ix => (d.ranges[ix]?).map (fun g =>
    { index := BitVec.ofNat 16 ix, ld := BitVec.ofNat 6 i, valid := true, mode := BitVec.ofNat 2 (modeCode d.mode)
      frame := BitVec.ofNat 24 g.frame, length := BitVec.ofNat 24 g.length, lfn := BitVec.ofNat 24 g.lfn }))

/-- The LD key a ward's outrider keeps, sent on to the remount that asked for it (R615, R616). -/
def giveRemountKey (r : Nat) (tag : BitVec 32) (ward i : Nat) (s : State) : State :=
  match (wardOf s ward).bind (fun w => sfind w.keys i) with
  | some k => sendAnswer r tag rsGood { emptyBody with key := padTo 72 k } s
  | none => s

/-- RECON_READ MAP. -/
def execReconReadMap (h : MsgHdr) (tag : Word) (ward : BitVec 9) (ldIndex : Byte) (certOk : Bool) (s : State) : Res :=
  receive h (some (.reconRead 2 tag ldIndex.toNat 0 0 ward.toNat)) (fun r s =>
    let s := countIn s
    let i := ldIndex.toNat
    if ldIndex = 0xFF then
      if certOk ∧ s.span.swkValid then
        let (k, s) := drawBits 320 s
        sendAnswer r tag rsGood { emptyBody with key := bytesOf 40 k.toNat } s
      else sendAnswer r tag rsRefused emptyBody s
    else if 64 ≤ i then sendAnswer r tag rsAbsent emptyBody s
    else if ward.toNat = wardIndex s then
      let key : List Byte := if (ldOf s i).keyState ∧ s.span.swkValid then padTo 72 (Config.wrap swkId (ldOf s i).key.toNat) else []
      let b : ReconBody := { emptyBody with maps := ldMaps s i, key := key }
      sendAnswer r tag (if b.maps = [] ∧ key = [] then rsAbsent else rsGood) b s
    else
      match wardOf s ward.toNat with
      | none => sendAnswer r tag rsAbsent emptyBody s
      | some w =>
        let ms := (w.maps.filter (fun e => e.1 / 65536 == i)).map (fun e => e.2)
        let s := sendAnswer r tag rsGood { emptyBody with oldSeq := w.topRnum, newSeq := w.bseq, maps := ms } s
        if (peerOf s r).st.toNat ≠ psRemount ∨ !certOk then s
        else
          match s.unit.running.find? (fun j => j.kind == .keyTransfer i (memberPool s r)) with
          | some j => endJob j.id 0 (giveRemountKey r tag ward.toNat i s)
          | none => { s with span := { s.span with keyAsks := s.span.keyAsks ++ [(r, tag, ward.toNat, i)] } }) s

/-! ## Rebuild (R392, R393, R399, R427) -/

/-- A rebuild given up for now; the next heavy stage begins it again. -/
def rebuildFail (lfn : Nat) (s : State) : State :=
  { s with span := { s.span with
    reads := s.span.reads.filter (fun q => q.rid.isSome || lfnOf q.lln != lfn)
    parityLines := s.span.parityLines.filter (fun e => e.1 % 2 ^ 41 / 65536 != lfn)
    rebuildSnap := if parityLfn s lfn then s.span.rebuildSnap else sdel s.span.rebuildSnap lfn } }

/-- The bases of a frame asked of the members, 1,024 lines at a time; with the first a remount's rebuild has begun (R394). -/
def rebuildBases (lfn : Nat) (s : State) : State :=
  (List.range 64).foldl (fun s c => spanStart none (65536 * lfn + 1024 * c) 1024 true false false none s) (noteRebuild (ownIndex s) s)

/-- Whether reads of a rebuild are outstanding. -/
def rebuildReads (s : State) (lfn : Nat) : Bool := s.span.reads.any (fun q => q.rid.isNone && lfnOf q.lln == lfn)

/-- A stripe's admission given back after a parity rebuild: to oneself as admitting holder, or by ABORT. -/
def endAdmission (lfn : Nat) (s : State) : State :=
  let s := { s with span := { s.span with rebuildSnap := sdel s.span.rebuildSnap lfn } }
  match s.span.holdings.find? (fun h => h.lfn == lfn && h.member == ownIndex s) with
  | some h => admitNext lfn { s with span := { s.span with holdings := s.span.holdings.filter (fun x => x != h) } }
  | none =>
    match liveHolders s lfn with
    | h :: _ => peerSend h (.deltaChunk 4 lfn 0xFF 0) s
    | [] => s

/-- The admission of a stripe for the rebuild of its parity asked for; with it the bases are read (R372, R393). -/
def askAdmission (lfn : Nat) (s : State) : State :=
  let go := fun s : State => rebuildBases lfn { s with span := { s.span with rebuildSnap := sput s.span.rebuildSnap lfn [(0, 0)] } }
  match liveHolders s lfn, isAdmitter s lfn with
  | h :: _, false =>
    peerSend h (.deltaChunk 0 lfn 0xFF 0) { s with span := { s.span with rebuildSnap := sput s.span.rebuildSnap lfn [] } }
  | _, _ =>
    if s.span.holdings.any (fun x => x.lfn == lfn && x.member != ownIndex s) then s
    else go { s with span := { s.span with holdings := s.span.holdings.filter (fun x => x.lfn != lfn) ++
      [{ lfn := lfn, member := ownIndex s, t := 0xFF, foldSeq := 0, admitter := true, chunks := [], staged := false, committed := false }] } }

/-- The next rebuild in a heavy stage: what is left to ask for the one that runs; else first the marked parity frames, then the Span-served
frames, one at a time. -/
def rebuildStart (s : State) : State :=
  let s := ((s.span.reads.filter (fun q => q.rid.isNone && q.wantBase)).map SpanRead.tag).foldl (fun s t => bulkAsk t s) s
  if s.span.desc.isNone ∨ !heavyNow s [] then s
  else
    match s.span.rebuildSnap with
    | (lfn, snap) :: _ =>
      if s.span.rebuildMarks.contains lfn ∧ snap = [] then askAdmission lfn s
      else if s.span.rebuildMarks.contains lfn ∧ !rebuildReads s lfn ∧ !rebuilt s lfn then rebuildBases lfn s
      else s
    | [] =>
      match s.span.rebuildMarks with
      | lfn :: _ => askAdmission lfn s
      | [] =>
        match s.xlat.ft.find? (fun e => ftMode e.2 == mSpanServed) with
        | some (lfn, _) =>
          let rs := (List.range s.span.streams.length).map (fun i => (i, (s.span.streams.getD i newStream).rnum))
          rebuildBases lfn { s with span := { s.span with rebuildSnap := sput s.span.rebuildSnap lfn rs } }
        | none => s

/-- A record taken from an outrider at the rejoin, applied as an internal write: whole, or laid over the line as it stands (R366, R603). -/
def applyRecord (lln : Nat) (r : FRecord) (s : State) : State :=
  if r.mask = BitVec.allOnes 64 then internalWrite lln r.data s
  else
    match mediaValue s lln with
    | some v => internalWrite lln (if v = poisonLine then poisonLine else mergeBytes v r.data r.mask) s
    | none => ncWrite lln r.data r.mask s

/-- An answered rebuild read taken in. -/
def rebuildTake (q : SpanRead) (s : State) : State :=
  let lfn := lfnOf q.lln
  let done := fun s : State => { s with span := { s.span with reads := s.span.reads.filter (fun x => x.tag != q.tag) } }
  let keep := fun (s : State) (k : Nat) (v : Line) => { s with span := { s.span with parityLines := sput s.span.parityLines k v } }
  if !s.span.reads.any (fun x => x.tag == q.tag) then s
  else if !q.wantBase ∧ q.localBase = none then
    match recordState q with
    | none => s
    | some none => done s
    | some (some r) => done (applyRecord q.lln r s)
  else if q.wantBase then
    match allLines (solveOwn s q) 0 q.count with
    | some ls => done ((List.range q.count).foldl (fun s i => match ls[i]? with | some v => keep s (q.lln + i) v | none => s) s)
    | none => if baseAnswered q ∧ (baseMembers s true).all q.asked.contains then rebuildFail lfn s else s
  else
    match spanResult s q with
    | .value v => done (keep s (2 ^ 41 + q.lln) v)
    | .noSource => rebuildFail lfn s
    | .wait => s

/-- Rebuilds taken as far as their answers go: with the bases of a Span-served frame its records are read line by line; a frame with
every line is folded; a parity frame that is built gives its admission back. -/
def rebuildPoll (s : State) : State :=
  let s := (s.span.reads.filter (fun q => q.rid.isNone)).foldl (fun s q => rebuildTake q s) s
  s.span.rebuildSnap.foldl (fun s e =>
    let lfn := e.1
    if parityLfn s lfn ∧ !s.span.rebuildMarks.contains lfn then endAdmission lfn s
    else if rebuildReads s lfn then s
    else if rebuilt s lfn then (if s.mm.due.any (fun d => d.lfn == lfn) then s else makeDue lfn 5 0 false s)
    else if ftMode (ftEntry s lfn) = mSpanServed ∧ s.span.parityLines.countP (fun x => x.1 / 65536 == lfn) = 65536 then
      (List.range 65536).foldl (fun s l =>
        let lln := 65536 * lfn + l
        spanStart none lln 1 false true false (sfind s.span.parityLines lln) s) s
    else s) s

/-- DELTA_ACK ADMITTED: D1 of a fold, or the admission of a parity rebuild (R371, R393); an admission nothing waits for is given
back. -/
def execDeltaAckAdmitted (h : MsgHdr) (lfn : BitVec 24) (foldSeq : BitVec 48) (live : BitVec 29) (s : State) : Res :=
  receive h (some (.deltaAck 0 lfn.toNat foldSeq 0 live.toNat)) (fun r s =>
    let s := reportLive r live s
    let l := lfn.toNat
    match ownSlot s l foldSeq with
    | some (b, sl) => if sl.phase = .requested then advanceBatch b (setSlot b sl.lfn (fun y => { y with phase := .admitted }) s) else s
    | none =>
      if parityLfn s l then
        match sfind s.span.rebuildSnap l with
        | some [] => rebuildBases l { s with span := { s.span with rebuildSnap := sput s.span.rebuildSnap l [(0, 0)] } }
        | some _ => s
        | none => peerSend r (.deltaChunk 4 l 0xFF foldSeq) s
      else peerSend r (.deltaChunk 4 l (stripeRole s l (ownIndex s)).2 foldSeq) s) s

/-! ## Answers received (R381, R398) -/

/-- A usable answer entered; a later copy replaces one that was not usable. -/
def addAnswer {α : Type} (r : Nat) (v : Option α) (l : List (Nat × Option α)) : List (Nat × Option α) :=
  if l.any (fun a => a.1 == r && a.2.isSome) then l else l.filter (fun a => a.1 != r) ++ [(r, v)]

/-- A recovery changed. -/
def setRead (tag : BitVec 32) (f : SpanRead → SpanRead) (s : State) : State :=
  { s with span := { s.span with reads := s.span.reads.map (fun q => if q.tag = tag then f q else q) } }

/-- The whole answer of a member once every part is here: its lines in part order. -/
def joinParts (r parts : Nat) (ps : List (Nat × Nat × ReconBody)) : Option ReconBody :=
  let mine := (List.range parts).filterMap (fun i => (ps.find? (fun p => p.1 == r && p.2.1 == i)).map (fun p => p.2.2))
  if mine.length = parts then
    mine.head?.map (fun b => { b with lines := mine.flatMap ReconBody.lines, newLines := mine.flatMap ReconBody.newLines })
  else none

/-- An answer to the base of a recovery. -/
def baseGot (r : Nat) (q : SpanRead) (part parts : Nat) (ok : Bool) (b : ReconBody) (s : State) : State :=
  if !q.asked.contains r then s
  else if !ok then setRead q.tag (fun q => { q with answers := addAnswer r none q.answers }) s
  else
    let ps := if q.parts.any (fun p => p.1 == r && p.2.1 == part) then q.parts else q.parts ++ [(r, part, b)]
    match joinParts r parts ps with
    | some w => setRead q.tag (fun q => { q with answers := addAnswer r (some w) q.answers, parts := ps.filter (fun p => p.1 != r) }) s
    | none => setRead q.tag (fun q => { q with parts := ps }) s

/-- The record of an answer. -/
def recordOf (b : ReconBody) : Option FRecord :=
  b.record.map (fun (x : Record) => { rnum := b.oldSeq, mask := if x.kind = 0 then BitVec.allOnes 64 else x.mask, data := x.data })

/-- Whether an LFN run of a received map is no other LD's (R41). -/
def mapFree (s : State) (ld : Nat) (m : MapEntry) : Bool :=
  !(List.range 64).any (fun i => i != ld && (ldOf s i).ranges.any (fun r => overlaps r.lfn r.length m.lfn.toNat m.length.toNat))

/-- An answer to a map read: an outrider keeps the ward's map and wrapped key; a remount lays out the LD and takes its key, every
LFN of it Span-served, its streams going on 2²⁴ above the highest RNUM reported (R389, R390, R614, R616). -/
def mapGot (r : Nat) (tag : BitVec 32) (ld : Nat) (ok : Bool) (b : ReconBody) (s : State) : State :=
  let forget := fun s : State => { s with span := { s.span with mapAsked := s.span.mapAsked.filter (fun a => a.1 != tag) } }
  if !ok then (if s.span.lost.isSome then s else forget s)
  else if s.span.lost.isSome then
    let s := if (ldOf s ld).ranges ≠ [] then s
      else
        let ms := (b.maps.filter (fun m => m.valid && mapFree s ld m)).mergeSort (fun a c => Nat.ble a.index.toNat c.index.toNat)
        let s := setLd ld (fun d => { d with
          extents := ms.map (fun m => (m.frame.toNat, m.length.toNat))
          ranges := ms.map (fun m => { frame := m.frame.toNat, length := m.length.toNat, lfn := m.lfn.toNat, dc := true })
          mode := match ms.head? with | some m => (if m.mode = 2 then .strict else if m.mode = 1 then .relaxed else .loc) | none => d.mode }) s
        (ldLfns (ldOf s ld)).foldl (fun s l => commitNow l (ftMake 0 0 mSpanServed false false false) s) s
    let s := match streamTo s r with
      | some i => setStream i (fun st => if st.rnum.toNat < b.oldSeq.toNat + 2 ^ 24 then { st with rnum := b.oldSeq + BitVec.ofNat 48 (2 ^ 24) } else st) s
      | none => s
    if b.key = [] then (if (ldOf s ld).ranges = [] then forget s else s)
    else
      let s := setLd ld (fun d => { d with key := Config.unwrap swkId b.key, keyState := true, kgen := d.kgen + 1, keyLost := false }) s
      forget (sbEnqueue s (.ring 0x55 ld (ldKeyPayload s ld)))
  else
    let s := setWard (wardPool s r) (fun w => { w with
      keys := if b.key = [] then w.keys else sput w.keys ld b.key
      maps := smerge w.maps (b.maps.map (fun m => (65536 * m.ld.toNat + m.index.toNat, m))) }) s
    forget s

/-- The span wrapping key of the device stored, wrapped under the root key (R611, R613). -/
def storeSwk (wrapped : List Byte) (s : State) : State :=
  let span : Byte := match s.span.desc with | some d => d.span | none => 0
  sbEnqueue { s with span := { s.span with swkValid := true } }
    (.ring 0x54 0 ([span] ++ bytesOf 6 s.sec.rgen.toNat ++ padTo 40 wrapped))

/-- An answer to the request for the span wrapping key. -/
def swkGot (tag : BitVec 32) (ok : Bool) (b : ReconBody) (s : State) : State :=
  let s := { s with span := { s.span with mapAsked := s.span.mapAsked.filter (fun a => a.1 != tag) } }
  if ok ∧ b.key ≠ [] then storeSwk (Config.wrap s.sec.rgen.toNat (natOf b.key)) s else s

/-- The running join job, and the running remount job. -/
def joinJob (s : State) : Option Job := s.unit.running.find? (fun j => j.kind == .spanJoin)
def remountJob (s : State) : Option Job := s.unit.running.find? (fun j => j.kind == .remount)

/-- A stream to outrider `r`, its RNUM going on 2²⁴ above the highest the outrider reports (R361, R604), from 0 where it holds none. -/
def rnumGot (r : Nat) (top : BitVec 48) (s : State) : State :=
  { s with span := { s.span with
    outr := s.span.outr ++ [r]
    streams := s.span.streams ++ [{ newStream with rnum := if top = 0 then 0 else top + BitVec.ofNat 48 (2 ^ 24) }] } }

/-- The streams the device still lacks: f − 1 less those it has. -/
def streamsMissing (s : State) : Nat := (match s.span.desc with | some d => d.f.toNat - 1 | none => 0) - s.span.outr.length

/-- An outrider's answer to the question for its highest RNUM: its stream begins, and is reseeded (R386); a rejoin reseeds when it ends (R604). -/
def rnumAnswer (r : Nat) (tag : BitVec 32) (b : ReconBody) (s : State) : State :=
  let s := { s with span := { s.span with mapAsked := s.span.mapAsked.filter (fun a => a.1 != tag) } }
  if s.span.outr.contains r ∨ streamsMissing s = 0 then s
  else
    let t := rnumGot r b.oldSeq s
    if s.start.phase = 9 ∨ (joinJob s).isSome ∨ (remountJob s).isSome then reseed s.span.outr.length true t else t

/-- RECON_DATA: the first usable answers are used, the rest dropped (R398). -/
def execReconData (h : MsgHdr) (tag : Word) (part : Byte) (parts : Byte) (status : BitVec 2) (body : ReconBody) (s : State) : Res :=
  receive h (some (.reconData tag part.toNat parts.toNat status body)) (fun r s =>
    let ok := status.toNat ≤ 1
    match s.span.mapAsked.find? (fun a => a.1 == tag) with
    | some a =>
      if 131072 ≤ a.2 then (if a.2 - 131072 = r then rnumAnswer r tag body s else s)
      else if 65536 ≤ a.2 then (if a.2 - 65536 = r then swkGot tag ok body s else s)
      else if a.2 / 64 ≠ r then s
      else mapGot r tag (a.2 % 64) ok body s
    | none =>
      let s := match s.span.reads.find? (fun q => q.tag == tag || q.tag + 1 == tag) with
        | none => s
        | some q =>
          if q.tag = tag then baseGot r q part.toNat parts.toNat (ok && !body.lines.isEmpty || parts.toNat != 1 && ok) body s
          else if q.askedRec.contains r then
            setRead q.tag (fun q => { q with records := addAnswer r (if ok then recordOf body else none) q.records }) s
          else s
      rebuildPoll s) s

/-! ## Time-outs (R398, R440) -/

/-- SPAN_READ_TIMEOUT: the read is answered poisoned, with no finding; a rebuild's read is given up for now (R398). -/
def execSpanReadTimeout (tag : BitVec 32) (s : State) : Res :=
  let s := begin s
  match s.span.reads.find? (fun q => q.tag == tag) with
  | none => ran s
  | some q =>
    match q.rid with
    | none => ran (rebuildFail (lfnOf q.lln) s)
    | some rid =>
      match s.media.mreads.find? (fun r => r.rid == rid) with
      | none => ran { s with span := { s.span with reads := s.span.reads.filter (fun x => x.tag != tag) } }
      | some r =>
        ran (mediaNext (finishRead r .bad (event { code := 0x0201, p0 := r.lln, p1 := (ownerOf s (lfnOf r.lln)).getD 0, p2 := 2 } s)))

/-- PEER_COMMAND_TIMEOUT: a job whose peer does not answer ends SPAN_UNREACHABLE; what it has done stands (R440). -/
def execPeerCommandTimeout (job : BitVec 16) (_peer : BitVec 9) (s : State) : Res :=
  let s := begin s
  match s.unit.running.find? (fun j => j.id == job) with
  | none => ran s
  | some j =>
    match j.kind with
    | .spanJoin => ran (endJob job 0x0401 s)
    | .remount => ran (endJob job 0x0401 s)
    | .spanLeave => ran (endJob job 0x0401 s)
    | .keyTransfer .. => ran (endJob job 0x0401 s)
    | _ => ran s

/-! ## Stage maps (R428) -/

/-- The cycle number now (R413). -/
def cycleNow (s : State) : Nat := s.time.ftime.toNat / 16000000

/-- The keeper in this device's view: the Live member with the lowest index. -/
def keeper (s : State) : Option Nat := (List.range (spanN s)).find? (fun r => (peerOf s r).st.toNat == psLive)

/-- The CRC of a TIMETABLE message (R428). -/
def timetableCrc (h : MsgHdr) (cycle : BitVec 64) (sgen : BitVec 48) (entries : List Word) : BitVec 32 :=
  msgCrc h (.timetable cycle.toNat sgen entries)

/-- TIMETABLE: kept for its cycle when it comes from the keeper before the cycle before it begins (R428). -/
def execTimetable (h : MsgHdr) (cycle : BitVec 64) (sgen : BitVec 48) (entries : List Word) (crc : Word) (s : State) : Res :=
  let good := timetableCrc h cycle sgen entries
  receive { h with crc := if entries.length = 64 then crc else ~~~ good } (some (.timetable cycle.toNat sgen entries)) (fun r s =>
    if keeper s = some r ∧ cycleNow s + 1 < cycle.toNat then
      { s with tt := { s.tt with maps := s.tt.maps.filter (fun m => m.cycle != cycle && Nat.ble (cycleNow s) m.cycle.toNat) ++
        [{ cycle := cycle, sgen := sgen, src := r, arrived := s.time.ftime, entries := entries }] } }
    else s) s

/-! ## The join and the outriders (R354, R355, R360) -/

/-- The span descriptor's 64 bytes (R351). -/
def spanDescBytes (d : SpanDesc) : List Byte :=
  let b := bytesOf 4 0xBD6405A0 ++ [d.span, d.k, d.m, d.f] ++
    ((List.range 16).map (fun r => d.members.getD r 0xFFFF)).flatMap (fun m => bytesOf 2 m.toNat) ++ bytesOf 6 d.sgen.toNat ++
    List.replicate 14 0
  b ++ bytesOf 4 (crc32c (b.map BitVec.toNat))

/-- The descriptor record: the descriptor and the device's own member state (R355, R526). -/
def descPayload (s : State) : List Byte :=
  match s.span.desc with
  | some d => spanDescBytes d ++ [BitVec.ofNat 8 (peerOf s (ownIndex s)).st.toNat]
  | none => List.replicate 65 0

/-- The descriptor stored. -/
def storeDesc (s : State) : State := sbEnqueue s (.ring 0x41 0 (descPayload s))

/-- The device's own member state, stored. -/
def setOwnSt (st : Nat) (s : State) : State := storeDesc (setPeerSt (ownIndex s) st s)

/-- Members asked for the highest RNUM they hold of this device: RNUM is never reset, so a stream begins where that answer says (R361). -/
def askRnums (ms : List Nat) (s : State) : State :=
  ms.foldl (fun s m =>
    let tag := s.span.nextTag
    peerSend m (.reconRead 2 tag 0 0 0 (wardIndex s)) { s with span := { s.span with
      nextTag := tag + 2, mapAsked := s.span.mapAsked ++ [(tag, 131072 + m)] } }) s

/-- Whether an answer to such a question is still due. -/
def rnumsDue (s : State) : Bool := s.span.mapAsked.any (fun a => Nat.ble 131072 a.2)

/-- Streams begun to the outriders the device should have and has not (R360, R386). A rejoin begins its own (R604). -/
def outriderFill (s : State) : State :=
  if s.span.desc.isNone ∨ !(s.start.phase == 9 || (joinJob s).isSome || (remountJob s).isSome) then s
  else
    let fresh := (outridersOf s (ownIndex s)).filter (fun m =>
      !s.span.outr.contains m && !s.span.mapAsked.any (fun a => a.2 == 131072 + m))
    askRnums (fresh.take (streamsMissing s - s.span.mapAsked.countP (fun a => Nat.ble 131072 a.2))) s

/-- The fast frames demoted, a pin or a staging notwithstanding (R276, R354). -/
def demoteAll (s : State) : State :=
  (s.xlat.ft.filter (fun e => ftMode e.2 == mFast)).foldl (fun s e =>
    makeDue e.1 7 0 false (if ftPinned e.2 then
      commitQuiet e.1 (ftMake (ftBand e.2) (ftSlot e.2) mFast (ftPatched e.2) false (ftHot e.2)) s else s)) s

/-- The join taken a step on (R354): frames demoted; dirty lines sent to the outriders; parity frames marked for rebuild; Live once
every one is built. -/
def joinAdvance (s : State) : State :=
  match joinJob s with
  | none => s
  | some j =>
    match s.span.joinStep with
    | 0 =>
      if s.xlat.ft.any (fun e => ftMode e.2 == mFast || (ftMode e.2 == mFolding && ftSlot e.2 == 31)) then demoteAll s
      else outriderFill { s with span := { s.span with joinStep := 1 } }
    | 1 => if s.span.exposed || rnumsDue s then s else { s with span := { s.span with joinStep := 2 } }
    | 2 =>
      let ps := (List.range (nFrames s)).filter (parityLfn s)
      let s := ps.foldl (fun s l => commitNow l (ftMake zeroHome 0 mParity false false false) s) s
      { s with span := { s.span with joinStep := 3, rebuildMarks := ps } }
    | _ =>
      if s.span.rebuildMarks ≠ [] ∨ s.span.rebuildSnap ≠ [] then s
      else endJob j.id 0 (setOwnSt psLive s)

/-- The remount's first step once an outrider of the lost member is Live: every parity LFN marked for rebuild, and the map and key of
every LD asked for (R389, R390). -/
def remountAsk (m : Nat) (s : State) : State :=
  let ps := (List.range (nFrames s)).filter (parityLfn s)
  let s := ps.foldl (fun s l => commitNow l (ftMake zeroHome 0 mParity false false false) s) s
  let s := outriderFill { s with span := { s.span with joinStep := 1, rebuildMarks := ps } }
  (List.range 64).foldl (fun s i =>
    let tag := s.span.nextTag
    peerSend m (.reconRead 2 tag i 0 0 (wardIndex s)) { s with span := { s.span with
      nextTag := tag + 2, mapAsked := s.span.mapAsked ++ [(tag, 64 * m + i)] } }) s

/-- A remount taken on: its maps first; its job ends when no frame is Span-served and no parity frame is marked (R394, R451), and the
device is Live. -/
def remountAdvance (s : State) : State :=
  match remountJob s with
  | none => s
  | some j =>
    match s.span.joinStep with
    | 0 => (match (outridersOf s (ownIndex s)).head? with
      | some m => remountAsk m s
      | none => s)
    | 1 => if s.span.mapAsked.any (fun a => Nat.blt a.2 65536) || rnumsDue s then s else { s with span := { s.span with joinStep := 2 } }
    | _ =>
      if s.span.rebuildMarks ≠ [] ∨ s.span.rebuildSnap ≠ [] ∨ s.xlat.ft.any (fun e => ftMode e.2 == mSpanServed) then s
      else endJob j.id 0 (setOwnSt psLive { s with span := { s.span with lost := none } })

/-- A Live member without the span wrapping key: the lowest member index generates it when the span first forms; any other asks a
Live member for it (R613). -/
def swkAdvance (s : State) : State :=
  let st := (peerOf s (ownIndex s)).st.toNat
  if s.span.desc.isNone ∨ s.span.swkValid ∨ st ≠ psLive ∨ s.span.mapAsked.any (fun a => a.2 / 65536 == 1) then s
  else if ownIndex s = 0 ∧ s.span.spanState = 1 then
    let (k, s) := drawBits 256 s
    storeSwk (Config.wrap s.sec.rgen.toNat k.toNat) s
  else
    match (otherMembers s).find? (fun r => (peerOf s r).st.toNat == psLive) with
    | some r =>
      let tag := s.span.nextTag
      peerSend r (.reconRead 2 tag 0xFF 0 0 (memberPool s r)) { s with span := { s.span with
        nextTag := tag + 2, mapAsked := s.span.mapAsked ++ [(tag, 65536 + r)] } }
    | none => s

end Sys2Proof.Machine
end

