-- ==== Sys2Proof/Machine/Power.lean ====
section
/-! DEFINITION. The power sequencer, the hold-up bank and the shutdown path (R22 to R24, R540 to R567, R587, R588, R656). -/

namespace Sys2Proof.Machine

def setPower (f : PowerSt → PowerSt) (s : State) : State := { s with power := f s.power }

/-! ## What goes with the main domains (R587) -/

/-- The jobs lost with a reset; a power-up job belongs to the Sill's sequencer and stays (R446). -/
def loseJobs (s : State) : State :=
  let keep := s.unit.running.filter (fun j => j.kind == .powerUp)
  { s with
    unit := { s.unit with running := keep, ended := [], nextJob := if keep.isEmpty then 1 else s.unit.nextJob }
    tt := { s.tt with removals := [] } }

/-- An LD without what the main domains held of it. -/
def ldDown (d : Ld) : Ld :=
  { d with
    decoders := List.replicate 4 {}, credits := 0, exposedOut := [], exposedRec := [], offered := [], offeredLfns := []
    heldRelease := [], redo := d.redo ++ d.heldRelease.map (fun h => h.2)
    d3hot := false, cdatChanged := false }

/-- The reset value of MM_RECLAIM.LOW by variant (R313, 08 note). -/
def reclaimReset (s : State) : BitVec 20 := match s.variant with | .x4 => 0x035C2 | .h2 => 0x01AE1 | .l1 => 0x00D70

/-- The main domains lose power: links, requests, caches, Frame Table, Patch Index, running folds and moves, queues, mailboxes,
streams and the channels' sequencers. What is on media and in the Strongbox stays. -/
def mainDown (s : State) : State :=
  let s := loseJobs s
  let own := (peerOf s (ownIndex s)).st
  let s := (List.range (nChannels s)).foldl (fun s c => stackDown c false s) s
  { s with
    host := { s.host with
      reqs := [], gpf := [], memoryActive := false, mediaStatus := .notReady, mailboxReady := false, mgmtReset := false
      creditsHeld := false, ports := s.host.ports.map (fun (p : Port) => ({ perst := p.perst, refclk := p.refclk } : Port))
      lds := s.host.lds.map ldDown }
    unit := { s.unit with
      units := s.unit.units.filter (fun e => e.2.st == .isolated || e.2.st == .retired), cmb := [], qmb := [] }
    cache := { remap := s.cache.remap }
    rstat := {}
    write := {}
    xlat := { s.xlat with
      ft := [], ftErr := [], restoring := [], fstBad := [], pi := [], piOvf := [], ptimes := [], piLog := [], piLost := false, fsum := [], psiAt := [], openSeg := none, rescanMarks := []
      rescanPass := [], psi := 0x40, fastResMin := 0x05000 }
    mm := { s.mm with
      imageRun := none, due := [], batches := [], restart := [], pressed := false, demoting := false, moves := [], drains := [], gapHeld := [], ckSeg := none, hotCount := [], lastWrite := [], reclaimLow := reclaimReset s
      resettleH := 0x2D0, scrubD := 0x60, scrubF := 0x18, scrubDue := [], scrubAt := 0, fastAt := 0, reclaiming := false
      wearClears := 0, folds := 0, abandon := 0, refresh := 0, measured := [], skRun := [], calAt := [], dieTemp := [], releasing := [] }
    lp := {}
    media := { s.media with carters := [], mreads := [], prefetchDue := [] }
    span := { s.span with
      exposed := false, outr := [], streams := [], holdings := [], reads := [], parityLines := [], joinStep := 0, bulkSent := 0, dataSent := []
      withheld := [], keyAsks := [], mapAsked := [], reseedDue := [], reseedLast := [], waitAdmit := [], rebuildSnap := []
      wards := s.span.wards.map (fun (w : Ward) => { w with seg := none })
      peers := (List.range 16).map (fun r => if r = ownIndex s then { st := own } else {})
      cRecords := 0, cResend := 0, cDeltas := 0, cReconOut := 0, cReconIn := 0 }
    queue := {}
    therm := { s.therm with
      throttle := if s.therm.throttle = .shutdown then .shutdown else .none, graceMs := 0, bf := 0x10
      sensors := List.replicate 64 {}, tg := 0, tgSensor := 0 }
    tt := { s.tt with removals := [], maps := [], current := 0, groupW := [], thermCap := 0x40 }
    evt := { s.evt with armed := [], msix := [] }
    fw := { s.fw with staged := [], transferring := false, sender := none, activateDue := false, activating := false } }

/-! ## Records of the sequencer (R530, R551) -/

/-- The RAIL record. -/
def railPayload (s : State) : List Byte :=
  let p := s.power
  [if p.firstSet then p.firstRail else 0xFF] ++ bytesOf 8 p.firstFt.toNat ++ bytesOf 4 p.firstHours.toNat ++ bytesOf 4 p.flagged.toNat ++
    [BitVec.ofNat 8 p.cause.toNat]

/-- The LIFE record with its cause: 0 hourly, 1 start, 2 shutdown, 3 Memory Active. -/
def lifePayload (s : State) (cause : Nat) : List Byte :=
  bytesOf 4 s.start.lifeHours.toNat ++ bytesOf 2 s.start.lifeFrac.toNat ++ bytesOf 4 s.start.pcycle.toNat ++
    bytesOf 8 s.time.ftime.toNat ++ bytesOf 4 s.start.sillResets.toNat ++ [BitVec.ofNat 8 cause]

/-- The SHUTDOWN record. -/
def shutPayload (r : Option ShutRec) : List Byte :=
  match r with
  | some r => [1, r.sensor] ++ bytesOf 2 r.temp.toNat ++ bytesOf 8 r.ftime.toNat ++ bytesOf 4 r.hours.toNat ++ bytesOf 4 r.pcycle.toNat
  | none => List.replicate 20 0

/-- Writes that go before every other one that waits. -/
def sbFirst (rs : List SbReq) (s : State) : State := sbStart { s with sb := { s.sb with queue := rs ++ s.sb.queue } }

/-! ## Rails flagged (R546, R549, R551) -/

/-- The sequenced rails. -/
def seqRails (s : State) : List Nat := (List.range 32).filter (sequenced s)

/-- Whether a rail's group holds one of the domains of a list. -/
def railFeeds (s : State) (r : Nat) (ds : List Nat) : Bool := ds.any (fun d => (s.power.rails.getD r {}).domains.getLsbD d)

/-- The units that a rail feeds, those of the classes a rail's group reaches (R22, R549, R670). -/
def railUnits (s : State) (r : Nat) : List Nat :=
  ((List.range 4).map uQuad ++ (List.range 32).map uChannel ++ (List.range 512).map uDie ++ (List.range 4096).map uBank ++
    (List.range 4).map uPort ++ (List.range 4).map uHbm ++ (List.range 64).map uSensor ++ (List.range 64).map uQueue ++
    (List.range 9).map uEngine).filter (fun u => (unitRails s u).contains r)

/-- The stack of a channel whose supplies are no longer all good is down, whatever its channel's state is (R248, R249). -/
def stackOff (ch : Nat) (s : State) : State := if (stackRails s ch).all (railUp s) then s else stackDown ch false s

/-- Units that became Absent with a rail: their records, and what they carried gone; a stack that lost a supply is down in any state of
the sequencer (R248). -/
def unitsAbsent (olds : List (Nat × UState)) (s : State) : State :=
  olds.foldl (fun s e =>
    let u := e.1
    let changed := decide (ownState s u ≠ e.2)
    let s := if changed then stateEvent u e.2 (ownState s u) 2 false s else s
    let s := if !changed ∨ s.power.seq ≠ .on then s
      else if uClass u = 2 then mediaLoss u true s
      else if uClass u = 5 then portDown (uIndex u) s
      else s
    if uClass u = 2 then stackOff (uIndex u) s else s) s

/-- A rail flagged: its bit, its record, the first-failure latch, its units Absent (R549, R551). -/
def flagRail (r : Nat) (s : State) : State :=
  if s.power.flagged.getLsbD r then s
  else
    let olds := (railUnits s r).map (fun u => (u, ownState s u))
    let first := !s.power.firstSet
    let s := setPower (fun p => { p with flagged := setBit p.flagged r true, railFailFlag := true }) s
    let s := if !first then s
      else
        let s := setPower (fun p => { p with
          firstRail := BitVec.ofNat 8 r, firstFt := s.time.ftime, firstHours := s.start.lifeHours, firstSet := true }) s
        sbFirst [.ring 0x65 0 (railPayload s)] s
    let s := event { code := 0x0501, unit := uRail r, p0 := (s.power.rails.getD r {}).pgTmo.toNat } s
    unitsAbsent olds s

/-! ## The on table (R544, R548 to R550) -/

/-- The jobs that wait for the on table ended. -/
def endPowerUp (mstat : Nat) (s : State) : State :=
  (s.unit.running.filter (fun j => j.kind == .powerUp)).foldl (fun s j => endJob j.id mstat s) s

/-- The on table complete: Held without a domain that R550 names, else On; the main domains start. -/
def onDone (s : State) : State :=
  let held := (seqRails s).any (fun r => s.power.flagged.getLsbD r && railFeeds s r [0, 1, 2, 3]) || (domainRails s 0).isEmpty
  let s := setPower (fun p => { p with
    seq := if held then .held else .on, vcoreMv := if held then p.vcoreMv else 850, vcoreDone := false }) s
  let s := endPowerUp 0 s
  if held then s
  else (List.range 4).foldl (fun s p => trainLink p s) { s with start := { s.start with phase := 3 } }

/-- The on table completes when every sequenced rail has come good or has been flagged. -/
def checkOn (s : State) : State :=
  if s.power.seq = .starting ∧ (seqRails s).all (fun r =>
      s.power.enable.getLsbD r && (s.power.good.getLsbD r || s.power.flagged.getLsbD r)) then onDone s else s

/-- What a start takes note of as it begins: the newest LIFE record of cause 1 to 3, for the judgement of R590; the shutdown record
shown again (R583); then the power-cycle count, with its own LIFE record (R530). -/
def startLife (s : State) : State :=
  let cs := match ringAt 0x60 0 with | some r => ringCopies s.sb.cells 0x60 0 r | none => []
  let ev := cs.filter (fun c => let k := field c.payload 22 1; k == 1 || k == 2 || k == 3)
  let last := ev.find? (fun c => c.seq == topSeq ev)
  let s := { s with start := { s.start with
    lifeSeen := !cs.isEmpty, lastCause := BitVec.ofNat 8 (match last with | some c => field c.payload 22 1 | none => 0)
    pcycle := s.start.pcycle + 1, phase := 2, unclean := false, golden := false, piRebuild := false, mapFold := false, mapLost := [] } }
  let s := match s.therm.record with
    | some r => event { code := 0x0504, unit := uSensor r.sensor.toNat, p0 := r.temp.toNat } s
    | none => s
  sbEnqueue s (.ring 0x60 0 (lifePayload s 1))

/-- The on table, or the on chain, begun (R544, R548, R549, R582). -/
def startOn (s : State) : State :=
  let s := startLife s
  checkOn { setPower (fun p => { p with
      seq := .starting, flagged := 0, offSeen := 0, onHeld := false, restart := false, measured := false, measuring := false
      v1 := none, holdFault := false, chargedClear := 0, setAside := [], flushSets := 0 }) s with
    therm := { s.therm with tripN := false } }

/-! ## The off table (R545 to R547, R550, R554) -/

/-- The off table complete: the minimum off time. -/
def checkOff (s : State) : State :=
  if s.power.seq = .railsOff ∧ s.power.enable = 0 ∧ (seqRails s).all (fun r => !s.power.good.getLsbD r || s.power.offSeen.getLsbD r) then
    setPower (fun p => { p with seq := .minOff }) s
  else s

/-- The off table, or the off chain, begun: the main domains are lost. -/
def offTable (s : State) : State :=
  checkOff (setPower (fun p => { p with seq := .railsOff, offSeen := 0, seqOut := false }) (mainDown s))

/-! ## The shutdown path (R561 to R563) -/

/-- A dirty line at its newest value with the bytes it holds: the Near Cache copy over the dirty region copy. -/
def newestDirty (s : State) (l : Nat) : Option (Nat × Line × BitVec 64) :=
  let whole := BitVec.allOnes 64
  let near := ((ncWays s l).filterMap (fun k => let w := ncWay s k; if dirtyWay w && wayGood w then some w else none)).head?
  match near, sfind s.cache.dirty l with
  | some w, some d =>
    if w.st = .dirty then some (l, w.data, whole)
    else some (l, mergeLine s l d.data w.data w.mask, if d.partial_ then d.mask ||| w.mask else whole)
  | some w, none => some (l, w.data, if w.st = .dirty then whole else w.mask)
  | none, some d => some (l, d.data, if d.partial_ then d.mask else whole)
  | none, none => none

/-- Every dirty copy read for the flush, with the checks of R210 to R212. -/
def flushReady (s : State) : State :=
  let s := (ncDirty s).foldl (fun s l => (ncLook l s).2) s
  if s.cache.hbmErr = [] then s else (s.cache.dirty.map (fun e => e.1)).foldl (fun s l => (slotRead l s).2) s

/-- The lines a flush writes, in its order: stash, Near Cache, dirty region. -/
def flushOrder (s : State) : List (Nat × Line × BitVec 64) :=
  (dedup (((s.cache.dirty.filter (fun e => e.2.bucket.isNone)).map (fun e => e.1)) ++ ncDirty s ++ dirtyLlns s)).filterMap (newestDirty s)

/-- The lines of a flush cut into segments of 56 payload lines; a Partial line takes two and never starts at line 55 (R563). -/
def flushPack : List (Nat × Line × BitVec 64) → List (Nat × Line × BitVec 64) → Nat → List (List (Nat × Line × BitVec 64))
  | [], cur, _ => if cur = [] then [] else [cur]
  | l :: ls, cur, n =>
    let w := if l.2.2 = BitVec.allOnes 64 then 1 else 2
    if n + w ≤ 56 then flushPack ls (cur ++ [l]) (n + w) else cur :: flushPack ls [l] w

/-- The payload lines of a flush segment with their directory entries, from a flush line counter on (R563). -/
def flushUnits : Nat → List (Nat × Line × BitVec 64) → List (BitVec 64 × Line)
  | _, [] => []
  | c, (l, v, m) :: ls =>
    let e := BitVec.ofNat 64 (l + 2 ^ 40 * (c % 2 ^ 24))
    (if m = BitVec.allOnes 64 then [(e, v)] else [(e, v), (e, m.zeroExtend 512)]) ++ flushUnits (c + 1) ls

/-- The segments of the flush that runs. -/
def flushSegs (s : State) : SMap Seg := s.xlat.segs.filter (fun g => g.2.kind == .flush && g.2.fseq == s.power.fseq)

/-- The next segment of the flush: after the last one in its set, else in a new set: one set aside, or any free one (R559, R563). A set
with both copies lost takes no further segment (R567). -/
def flushPlace (s : State) : Option (Nat × State) :=
  let last := (flushSegs s).foldl (fun (a : Option (Nat × Seg)) g =>
    match a with | some x => if x.2.index < g.2.index then some g else a | none => some g) none
  let up := fun f => copyUp s f 0 || copyUp s f 1
  let fresh := match (s.power.setAside.find? up).orElse (fun _ => freeSet s) with
    | none => none
    | some f => some (segKey f 0, takeSet f useLog 0xFFFFFFFF 0 (setPower (fun p => { p with setAside := p.setAside.filter (fun x => x != f) }) s))
  match last with
  | some (k, _) => if k % 1024 < 1023 ∧ up (k / 1024) then some (k + 1, s) else fresh
  | none => fresh

/-- A flush segment written: trailer, payload lines, directory (R563). -/
def flushSegment (ctr : Nat) (last : Bool) (lines : List (Nat × Line × BitVec 64)) (s : State) : State :=
  match flushPlace s with
  | none => s
  | some (k, s) =>
    let us := flushUnits ctr lines
    let s := placeSeg k { noSeg with
      kind := .flush, base := BitVec.ofNat 48 ctr, next := us.length, index := (flushSegs s).length, fseq := s.power.fseq, last := last } s
    let s := { s with xlat := { s.xlat with dirs := (List.range us.length).foldl (fun d i =>
      match us[i]? with | some u => sput d (56 * k + i) u.1 | none => d) s.xlat.dirs } }
    let s := (List.range us.length).foldl (fun s i =>
      match us[i]? with | some u => segPut k i (mediaLine u.2 (u.1.extractLsb' 40 16)) s | none => s) s
    (List.range 7).foldl (fun s i => segPut k (56 + i) (mediaLine (dirLine s k (8 * i)) 0x5044) s) s

/-- The dirty lines in flush segments, one after another. The flush line counter goes on from the patch counter (DESIGN CHOICE, log
entry 81). -/
def flushSegments (lines : List (Nat × Line × BitVec 64)) (s : State) : State :=
  ((flushPack lines [] 0).foldl (fun (a : Nat × State) ls => (a.1 + ls.length, flushSegment a.1 false ls a.2)) (s.xlat.patchCtr.toNat, s)).2

/-- The deltas of the Patch Index checkpoint, where no more than 2²⁴ entries have changed since its base (R562, R598). -/
def flushDeltas (s : State) : State :=
  match s.mm.piBase with
  | none => s
  | some b =>
    if s.xlat.piLost then s
    else
      let (ps, s) := writePi b.1 b.2 true s.xlat.piLog s
      { s with mm := { s.mm with piDelta := true, piSegs := s.mm.piSegs ++ ps } }

/-- The commands to the banks of one channel as the shutdown begins: SUSP to what programs or clears, PABORT to programs that load,
are held or are suspended; fast writes and programs that are Finishing end on their own (R561). -/
def stopChannel (ch : Nat) (s : State) : State :=
  let c := cartOf s ch
  let s := c.running.foldl (fun s p =>
    if p.fast ∨ p.phase = .finishing then s
    else
      let s := if p.phase = .busy then sendPkt ch 0x21 p.die p.bank 0 0 127 0 s else s
      if p.clear then s else sendPkt ch 0x14 p.die p.bank 0 0 p.tag 0 s) s
  setCart ch (fun c => { c with
    progs := c.progs.filter (fun p => p.fast), running := c.running.filter (fun p => p.fast || p.phase == .finishing) }) s

/-- The rail readmits that run as a shutdown begins end with FAULT, their rails flagged as they are (R567). -/
def failReadmits (s : State) : State :=
  (s.unit.running.filter (fun j => match j.kind with | .unitReadmit u => uClass u.toNat == 8 | _ => false)).foldl (fun s j =>
    endJob j.id 0x0301 s) s

/-- The first instant of the shutdown path (R561, R562 step 1). The cache commands' flushes are superseded, with no notice (R218); every
injection point disarms (R518). -/
def shutdownPath (cause : Nat) (s : State) : State :=
  let s := failReadmits { s with evt := { s.evt with armed := [] } }
  let s := setPower (fun p => { p with
    seq := .shuttingDown, cause := BitVec.ofNat 3 cause, seqOut := false, flushStep := 1, flushBroken := false }) s
  let s := { s with host := { s.host with creditsHeld := true }, tt := { s.tt with current := 0 }, therm := { s.therm with
    tripN := s.therm.tripN || cause == 2 } }
  let s := { s with mm := { s.mm with batches := s.mm.batches.filter (fun g => g.slots.any (fun x => x.phase == DeltaPhase.committed || x.phase == DeltaPhase.ended)) } }
  let s := { s with unit := { s.unit with running := s.unit.running.filter (fun j => match j.kind with | .flush .. => false | _ => true) } }
  let s := (List.range (nChannels s)).foldl (fun s c => stopChannel c s) s
  let s := event { code := 0x0503, p0 := cause, sev := if cause = 2 then some 3 else none } s
  let recs := [SbReq.ring 0x65 0 (railPayload s)] ++ (if cause = 2 then [SbReq.ring 0x66 0 (shutPayload s.therm.record)] else []) ++
    [SbReq.ring 0x60 0 (lifePayload s 2)]
  let s := if s.host.memoryActive then setPower (fun p => { p with
      fseq := s.mm.cseq, flushLive := false, flushHasLast := false, flushLines := [], lastFlushOk := false }) s else s
  wbFlush (sbFirst recs s)

/-- A second cause while a shutdown runs: recorded, with P1 1 (R24). -/
def secondCause (cause : Nat) (s : State) : State :=
  event { code := 0x0503, p0 := cause, p1 := 1, sev := if cause = 2 then some 3 else none } s

/-- A stop with no flush records its cause and its flagged rails (R550, R554). -/
def quietOff (cause : Nat) (s : State) : State :=
  let s := setPower (fun p => { p with cause := BitVec.ofNat 3 cause }) s
  offTable (sbEnqueue s (.ring 0x65 0 (railPayload s)))

/-- An off request of a cause by sequencer state (R550, R553, R554). -/
def powerOff (cause : Nat) (s : State) : State :=
  match s.power.seq with
  | .off => s
  | .starting => endPowerUp 0x0101 (quietOff cause s)
  | .on => shutdownPath cause s
  | .held => quietOff cause s
  | _ => secondCause cause s

/-- An on request by sequencer state: kept while a shutdown runs (R553, R555); while Held, the rails go off first (R550). -/
def powerOn (s : State) : State :=
  match s.power.seq with
  | .off => startOn s
  | .shuttingDown => setPower (fun p => { p with onHeld := true }) s
  | .railsOff => setPower (fun p => { p with onHeld := true }) s
  | .minOff => setPower (fun p => { p with onHeld := true }) s
  | .held => offTable (setPower (fun p => { p with onHeld := true }) s)
  | .starting => s
  | .on => s

/-- FLUSH_STEP_END: the step that runs ends and the next begins (R562). The first ends once every accepted request is answered, but for
Strict writes that wait for their outriders, whose lines are flushed uncompleted (R182); a shutdown before Memory Active has nothing to flush, and the sets of the last flush stay live (R605). -/
def execFlushStepEnd (us : BitVec 24) (s : State) : Res :=
  let s := begin s
  let new := s.host.memoryActive && !s.power.flushBroken
  if s.power.seq ≠ .shuttingDown ∨ (s.power.flushStep = 1 ∧ s.host.reqs.any (fun r => match r.wait with | .strict _ => false | _ => true)) then ran s
  else
    let next := fun (n : Nat) (s : State) => setPower (fun p => { p with flushStep := n }) s
    match s.power.flushStep with
    | 1 => ran (next 2 s)
    | 2 =>
      let s := if new then flushReady s else s
      let lines := flushOrder s
      ran (next 3 (if new then setPower (fun p => { p with flushLines := lines, flushLive := true }) (flushSegments lines s) else s))
    | 3 => ran (next 4 (if new then imageEnd (imageStart s) else s))
    | 4 => ran (next 5 (if new then flushDeltas s else s))
    | _ =>
      let s := if new then flushSegment 0 true [] s else s
      let s := if new then setPower (fun p => { p with flushHasLast := (flushSegs s).any (fun g => g.2.last), lastFlushOk := true, lastFlushUs := us }) s else s
      ran (offTable (next 0 s))

/-- What a flush cut short leaves: some first part of its lines when the cut falls among them (how many is open), no LAST segment
(R567, R588). -/
def flushCut (s : State) : State :=
  if s.power.seq ≠ .shuttingDown ∨ s.power.flushStep ≠ 2 ∨ !s.host.memoryActive then s
  else
    let (n, s) := drawBits 32 (flushReady s)
    let all := flushOrder s
    let lines := all.take (n.toNat % (all.length + 1))
    if lines = [] then s else setPower (fun p => { p with flushLines := lines, flushLive := true }) (flushSegments lines s)

/-- The flush ends where it stands and the rails go off (R567). -/
def breakFlush (s : State) : State := offTable (setPower (fun p => { p with flushBroken := true, flushStep := 0 }) (flushCut s))

/-! ## The rows of the sequencer -/

/-- PF_N_ASSERT: PF_N low for 1 µs (R553). -/
def execPfNAssert (s : State) : Res :=
  let s := setPower (fun p => { p with pfLow := true }) (begin s)
  match s.power.seq with
  | .minOff => ran s
  | _ => ran (powerOff 1 s)

/-- PF_N_RELEASE: PF_N high for 10 ms (R553, R555). -/
def execPfNRelease (s : State) : Res :=
  let s := setPower (fun p => { p with pfLow := false }) (begin s)
  let may := (s.power.cause ≠ 2 ∧ s.power.cause ≠ 3 ∨ s.power.onHeld) ∧ (!s.power.cascade ∨ s.power.seqIn)
  if !s.start.sillUp ∨ s.start.phase = 1 then ran s
  else
    match s.power.seq with
    | .off => ran (if may then startOn s else s)
    | .starting => ran s
    | .on => ran s
    | .held => ran s
    | _ => ran (if s.power.cause = 1 then powerOn s else s)

/-- SEQ_IN_HIGH in cascade mode (R548, R553). -/
def execSeqInHigh (s : State) : Res :=
  let s := setPower (fun p => { p with seqIn := true }) (begin s)
  ran (if s.power.cascade ∧ s.start.sillUp ∧ s.power.seq ≠ .held then powerOn s else s)

/-- SEQ_IN_LOW in cascade mode: an off request (R548, R553). -/
def execSeqInLow (s : State) : Res :=
  let s := setPower (fun p => { p with seqIn := false }) (begin s)
  ran (if s.power.cascade then powerOff 4 s else s)

/-- ENr driven high. -/
def enableRail (r : Nat) (s : State) : State := setPower (fun p => { p with enable := setBit p.enable r true }) s

/-- ENr driven low. -/
def disableRail (r : Nat) (s : State) : State := checkOff (setPower (fun p => { p with enable := setBit p.enable r false }) s)

/-- RAIL_ENABLE: a rail's on-delay is over (R544). -/
def execRailEnable (r : Fin 32) (s : State) : Res :=
  let s := begin s
  ran (if s.power.seq = .starting ∧ !s.power.cascade ∧ sequenced s r then checkOn (enableRail r s) else s)

/-- RAIL_DISABLE: a rail's off-delay is over (R545). -/
def execRailDisable (r : Fin 32) (s : State) : Res :=
  let s := begin s
  ran (if s.power.seq = .railsOff ∧ !s.power.cascade ∧ s.power.enable.getLsbD r then disableRail r s else s)

/-- CASCADE_STEP: 1.0 ms after the last rail of a chain settled (R548). -/
def execCascadeStep (s : State) : Res :=
  let s := begin s
  if !s.power.cascade then ran s
  else
    let settledOn := (seqRails s).all (fun r => !s.power.enable.getLsbD r || s.power.good.getLsbD r || s.power.flagged.getLsbD r)
    let settledOff := (seqRails s).all (fun r =>
      s.power.enable.getLsbD r || !s.power.good.getLsbD r || s.power.offSeen.getLsbD r)
    match s.power.seq with
    | .starting =>
      if !settledOn then ran s
      else
        match (seqRails s).find? (fun r => !s.power.enable.getLsbD r) with
        | some r => ran (checkOn (enableRail r s))
        | none => ran s
    | .on => ran (setPower (fun p => { p with seqOut := true }) s)
    | .held => ran (setPower (fun p => { p with seqOut := true }) s)
    | .railsOff =>
      if !settledOff then ran s
      else
        match (seqRails s).reverse.find? (fun r => s.power.enable.getLsbD r) with
        | some r => ran (disableRail r s)
        | none => ran s
    | _ => ran s

/-- The units of a readmitted rail that are back, one job with the rail (R473): its channels run the start steps, their blocks kept out of
the bands opened before (R325), its ports train. -/
def railBack (r : Nat) (s : State) : State :=
  (railUnits s r).foldl (fun s u =>
    if uClass u = 2 ∧ unitPresent s u ∧ inService (ownState s u) then startTraining (uIndex u) (markFailed u s)
    else if uClass u = 5 then trainLink (uIndex u) s
    else s) s

/-- A readmitted rail good: no longer flagged, its units in service again, its job done (R473). -/
def railReadmitted (r : Nat) (s : State) : State :=
  match holdingJob s (uRail r) with
  | some j =>
    (match j.kind with
    | .unitReadmit _ =>
      let s := setPower (fun p => { p with flagged := setBit p.flagged r false }) s
      endJob j.id 0 (railBack r (setUnit (uRail r) .ready 1 false s))
    | _ => s)
  | none => s

/-- PG_GOOD: PGr high for 10 µs (R541); while point 0x0010 runs on the rail, PG is seen low (R517). -/
def execPgGood (r : Fin 32) (s : State) : Res :=
  let s := begin s
  if !sequenced s r || (activePoint s 0x0010 (uRail r)).isSome then ran s
  else ran (railReadmitted r (checkOn (setPower (fun p => { p with good := setBit p.good r true }) s)))

/-- PG lost on a rail by sequencer state (R545, R552, R567). -/
def pgLost (r : Nat) (s : State) : State :=
  if !sequenced s r then s
  else
    let s := setPower (fun p => { p with good := setBit p.good r false }) s
    match s.power.seq with
    | .railsOff => checkOff s
    | .on =>
      if !s.power.enable.getLsbD r ∨ s.power.flagged.getLsbD r then s
      else if railFeeds s r [0, 1, 3] then
        shutdownPath 1 (setPower (fun p => { p with flagged := setBit p.flagged r true }) s)
      else mediaNext (flagRail r s)
    | .shuttingDown =>
      if !s.power.enable.getLsbD r ∨ s.power.flagged.getLsbD r then s
      else if railFeeds s r [0, 1, 3] then breakFlush (secondCause 1 s)
      else flagRail r s
    | _ => s

/-- PG_LOST: PGr low for 10 µs (R541). -/
def execPgLost (r : Fin 32) (s : State) : Res := ran (pgLost r (begin s))

/-- A glitch: counted, nothing else (R541). -/
def pgGlitch (r : Nat) (s : State) : State :=
  if !sequenced s r then s
  else setPower (fun p => { p with glitches := satInc p.glitches, glitchFlag := true }) s

/-- PG_GLITCH: PGr low for less than 10 µs (R541). -/
def execPgGlitch (r : Fin 32) (s : State) : Res := ran (pgGlitch r (begin s))

/-- RAIL_PG_TIMEOUT: a rail not good within its timeout is flagged (R549); a readmitted one stays flagged, its job failed. -/
def execRailPgTimeout (r : Fin 32) (s : State) : Res :=
  let s := begin s
  if !s.power.enable.getLsbD r ∨ s.power.good.getLsbD r then ran s
  else if s.power.seq = .starting then ran (checkOn (flagRail r s))
  else
    match holdingJob s (uRail r) with
    | some j =>
      (match j.kind with
      | .unitReadmit _ => ran (endJob j.id 0x0301 (flagRail r s))
      | _ => ran s)
    | none => ran s

/-- RAIL_OFF_TIMEOUT: a disabled rail that stays good is flagged, and the off table goes on (R546). -/
def execRailOffTimeout (r : Fin 32) (s : State) : Res :=
  let s := begin s
  if s.power.seq ≠ .railsOff ∨ s.power.enable.getLsbD r ∨ !s.power.good.getLsbD r ∨ !sequenced s r then ran s
  else ran (checkOff (setPower (fun p => { p with offSeen := setBit p.offSeen r true }) (flagRail r s)))

/-- MINOFF_END: the sequencer is Off; a held on request starts it while PF_N is high (R547, R551, R555). -/
def execMinoffEnd (s : State) : Res :=
  let s := begin s
  if s.power.seq ≠ .minOff then ran s
  else
    let s := setPower (fun p => { p with seq := .off, firstSet := false }) { s with therm := { s.therm with throttle := .none } }
    ran (if (s.power.onHeld ∨ s.power.restart) ∧ !s.power.pfLow then startOn s else s)

/-- VCORE_TRIM_STEP: VDD_CORE moves by at most 10 mV toward its target; an unanswered command leaves it at 850 mV with the core rail
Degraded (R656). -/
def execVcoreTrimStep (answered : Bool) (s : State) : Res :=
  let s := begin s
  if s.power.seq ≠ .on ∨ s.power.vcoreDone then ran s
  else if !answered then
    let s := setPower (fun p => { p with vcoreMv := 850, vcoreDone := true }) s
    ran ((domainRails s 0).foldl (fun s r => setUnit (uRail r) .degraded 4 false s) s)
  else
    let now := s.power.vcoreMv.toNat
    let goal := if vcoreTarget + 10 < now then now - 10 else if now + 10 < vcoreTarget then now + 10 else vcoreTarget
    ran (send (setPower (fun p => { p with vcoreMv := BitVec.ofNat 16 goal, vcoreDone := goal == vcoreTarget }) s) (.pmbus goal))

/-! ## The hold-up bank (R556 to R560, R594) -/

/-- The fixed reserve Q in mJ (R558). -/
def reserveMj (s : State) : Nat :=
  if s.power.cascade then
    let t := (seqRails s).foldl (fun a r => a + 10 + (s.power.rails.getD r {}).pgTmo.toNat) 0
    4000 + 29 * (t - 100)
  else 4000

/-- The dirty budget in units of 512 MiB (R558). -/
def budgetUnits (s : State) : Nat := min 32 ((s.power.e.toNat - reserveMj s) / 1500)

/-- The flush sets of a budget (R559). -/
def flushSetsOf (g : Nat) : Nat := (2 * g * 8388608 + 57343) / 57344

/-- Free sets that can be set aside, at most `n`. -/
def asideSets (s : State) (n : Nat) : List Nat :=
  (((List.range (nFastSets s)).map (fun i => 32768 * (i / 32768) + i % 32768)).filter (setUsable s)).take n

/-- The largest budget at or below `g` whose flush sets fit the sets there are (R559). -/
def fitBudget (s : State) : Nat → Nat
  | 0 => 0
  | g + 1 => if flushSetsOf (g + 1) ≤ (asideSets s (flushSetsOf (g + 1))).length + s.power.setAside.length then g + 1 else fitBudget s g

/-- Whether write credits stay withheld for another cause than a new layout: a lowering, or the shutdown path (R561, R620). -/
def creditsStay (s : State) : Bool := s.sec.lowering != 0 || s.power.seq == .shuttingDown

/-- The measured budget put into effect once no line is dirty: the HBM laid out anew, the flush sets set aside (R559, R594). -/
def applyBudget (s : State) : State :=
  if !s.cache.relayout then s
  else if dirtyLlns s ≠ [] ∨ s.host.reqs.any (fun r => r.write) then { s with host := { s.host with creditsHeld := true } }
  else
    let g := fitBudget s (budgetUnits s)
    let s := setPower (fun p => { p with flushSets := BitVec.ofNat 14 (flushSetsOf g), setAside := asideSets s (flushSetsOf g) }) s
    let s := relayout g s
    updLoad { s with
      cache := { s.cache with relayout := false }
      write := { s.write with budget := BitVec.ofNat 6 g, through := g == 0 }
      host := { s.host with creditsHeld := creditsStay s } }

/-- A flush set that lost a copy is replaced at the next stage boundary, or the budget lowered (R559). -/
def mendFlushSets (s : State) : State :=
  if s.power.flushLive ∨ s.write.budget = 0 then s
  else
    let ok := s.power.setAside.filter (fun f => copyUp s f 0 && copyUp s f 1)
    if ok.length = s.power.setAside.length then s
    else
      let s := setPower (fun p => { p with setAside := ok }) s
      let s := setPower (fun p => { p with setAside := ok ++ asideSets s (s.power.flushSets.toNat - ok.length) }) s
      if s.power.flushSets.toNat ≤ s.power.setAside.length then s
      else
        let g := fitBudget { s with power := { s.power with setAside := s.power.setAside } } s.write.budget.toNat
        updLoad (setPower (fun p => { p with flushSets := BitVec.ofNat 14 (flushSetsOf g), setAside := p.setAside.take (flushSetsOf g) })
          { s with write := { s.write with budget := BitVec.ofNat 6 g, through := g == 0 } })

/-- A bank fault: budget 0 and write-through at once, every dirty line drained, a Critical record (R178, R557). -/
def holdupFault (s : State) : State :=
  let s := setPower (fun p => { p with holdFault := true, measuring := false, v1 := none }) s
  let s := event { code := 0x0502, p0 := s.power.e.toNat } s
  let s := { s with write := { s.write with budget := 0, through := true }, cache := { s.cache with relayout := false }
                    host := { s.host with creditsHeld := creditsStay s } }
  updLoad ((dirtyLlns s).foldl (fun s l => drainLine l true s) s)

/-- BANK_CHARGED: VBANK, VMIN and EFF read, the discharge step written (R557). -/
def execBankCharged (vbank vmin : BitVec 16) (eff : Byte) (s : State) : Res :=
  let s := begin s
  if !s.power.measuring ∨ s.power.v1.isSome then ran s
  else ran (send (setPower (fun p => { p with v1 := some vbank, vmin := vmin, eff := eff }) s) (.holdupStep 10))

/-- HOLDUP_STEP_DONE: capacitance and usable energy; the budget follows at the next stage boundary (R557, R558, R594). -/
def execHoldupStepDone (vbank : BitVec 16) (dq : Word) (fault : Bool) (s : State) : Res :=
  let s := begin s
  match (if s.power.measuring then s.power.v1 else none) with
  | none => ran s
  | some v1 =>
    let a := v1.toNat
    let m := s.power.vmin.toNat
    let dv := a - vbank.toNat
    if fault ∨ a ≤ m ∨ dv < 10 then ran (mediaNext (holdupFault (setPower (fun p => { p with e := 0 }) s)))
    else
      let e := s.power.eff.toNat * dq.toNat * (a * a - m * m) / (200 * dv * 1000000)
      let s := setPower (fun p => { p with
        e := satAdd 0 e, capMf := satAdd 0 (dq.toNat / dv), cUc := dq.toNat * 1000000 / dv, measuring := false, measured := true, v1 := none }) s
      ran { s with cache := { s.cache with relayout := Nat.blt 0 (budgetUnits s) } }

/-- HOLDUP_MEASURE_TIMEOUT: not charged within 30 s, or no step done within 20 ms (R557). -/
def execHoldupMeasureTimeout (s : State) : Res :=
  let s := begin s
  if !s.power.measuring then ran s
  else ran (mediaNext (holdupFault (setPower (fun p => { p with e := 0 }) s)))

/-- The bank's energy at a voltage, in mJ (R560). -/
def bankMj (s : State) (v : Nat) : Nat :=
  s.power.eff.toNat * s.power.cUc * (v * v - s.power.vmin.toNat * s.power.vmin.toNat) / (200 * 1000000 * 1000000)

/-- HOLDUP_MONITOR: STATUS and VBANK every 100 ms while On (R560). -/
def execHoldupMonitor (answer : Option HoldupStatus) (s : State) : Res :=
  let s := begin s
  if s.power.seq ≠ .on ∨ !s.power.measured ∨ s.power.holdFault then ran s
  else
    match answer with
    | none => ran (mediaNext (holdupFault s))
    | some a =>
      let hit := isArmed s 0x0014 0
      let s := if hit then fire 0x0014 0 s else s
      let clear := if a.status.getLsbD 1 then 0 else s.power.chargedClear + 1
      let s := setPower (fun p => { p with chargedClear := clear }) s
      if hit ∨ a.status.getLsbD 2 ∨ 10 ≤ clear ∨ bankMj s a.vbank.toNat < reserveMj s + 1500 * s.write.budget.toNat then
        ran (mediaNext (holdupFault s))
      else ran s

end Sys2Proof.Machine
end

