-- ==== Sys2Proof/Machine/Secure.lean ====
section
/-! DEFINITION. Protection levels and the lowering job (R610 to R612, R618 to R620, R627). -/

namespace Sys2Proof.Machine

def setSec (f : SecSt → SecSt) (s : State) : State := { s with sec := f s.sec }

/-- The PLSTATE record (R611). -/
def plPayload (s : State) : List Byte :=
  [BitVec.ofNat 8 s.sec.pl.toNat, if s.sec.erasing then 1 else 0] ++ bytesOf 6 s.sec.plseq.toNat

/-- PLSTATE written. -/
def writePl (s : State) : State := sbEnqueue s (.ring 0x51 0 (plPayload s))

/-- A new root key: ROOT written twice, so that both pairs hold it; what is drawn is the key as masked with the device secret (R610,
R612). -/
def newRoot (s : State) : State :=
  let (k, s) := drawBits 256 s
  let s := setSec (fun x => { x with rgen := x.rgen + 1, rootLost := false }) s
  let pl := bytesOf 32 k.toNat ++ bytesOf 6 s.sec.rgen.toNat
  sbEnqueue (sbEnqueue s (.ring 0x50 0 pl)) (.ring 0x50 0 pl)

/-- A change of level: PLSEQ one up, its record; raising it disarms every injection point (R619, R627). -/
def setLevel (new : Nat) (s : State) : State :=
  let old := s.sec.pl.toNat
  let s := setSec (fun x => { x with pl := BitVec.ofNat 2 new, plseq := x.plseq + 1, pl2Fuse := x.pl2Fuse || new == 2 }) s
  let s := if old < new then { s with evt := { s.evt with armed := [] } } else s
  event { code := 0x0702, p0 := old, p1 := new } s

/-! ## The paths a level gates (R618) -/

/-- The service and debug paths of R618. -/
inductive ServicePath where
  | uart | boundaryScan | extest | jtagDebug | mailboxes | injection | lockedOpcodes | lowering
  deriving DecidableEq, Repr

/-- How a path answers: open, disabled or refused, its instruction read as BYPASS, removed by fuse, or open to an authorized request. -/
inductive PathGate where
  | opened | closed | bypass | removed | authorized
  deriving DecidableEq, Repr

/-- The gate of a path at the present level. EXTEST works above PL0 only while the sequencer is Off. -/
def pathGate (s : State) (p : ServicePath) : PathGate :=
  let pl := s.sec.pl.toNat
  match p with
  | .boundaryScan => .opened
  | .extest => if pl = 0 ∨ s.power.seq = .off then .opened else .closed
  | .jtagDebug => if s.sec.pl2Fuse then .removed else if pl = 0 then .opened else .bypass
  | .lowering => if pl = 1 then .authorized else .closed
  | .uart | .mailboxes | .injection | .lockedOpcodes => if pl = 0 then .opened else .closed

/-- Step 5 of a lowering: caches, Patch Index, summaries and poison lists dropped; every LFN Unmapped in a new image; every fast set
free and every band dead. -/
def dropAll (s : State) : State :=
  let sets := (s.xlat.fst.filter (fun e => fsUse e.2 ≠ useFree)).map (fun e => e.1)
  let s := { s with
    cache := { s.cache with
      near := [], dirty := [], pages := [], pageData := [], side := [], lost := [], hbmErr := [], prefetched := [], heldWrites := [] }
    xlat := { s.xlat with ft := [], ftErr := [], restoring := [], pi := [], piOvf := [], ptimes := [], fsum := [], psnap := [], rescanMarks := []
                          rescanPass := [], openSeg := none }
    mm := { s.mm with due := [], batches := [], restart := [], pressed := false, demoting := false, moves := [], drains := [], hotCount := [], mapOld := [], mapNew := [], releasing := []
                      bands := s.mm.bands.map (fun e => (e.1, if e.2.cls = .clear then e.2 else { e.2 with cls := .dead, cleared := 0 })) }
    lp := { s.lp with staged := [], beyondSeen := [] }
    host := { s.host with lds := s.host.lds.map (fun (d : Ld) => { d with poison := [], poisonOverflow := false }) } }
  imageEnd (piBaseStart (imageStart (sets.foldl (fun s f => releaseSet f s) s)))

/-- The lowering taken one step on while the main domains are up, from phase 5 of a start on, once the Strongbox has nothing to write and a write can start (R532,
R620): `lowering` is 1 for step 2, 2 for step 3, 3 for step 4, 4 for steps 5 and 6, 5 for step 7, 6 for its end. -/
def lowerAdvance (s : State) : State :=
  if s.sec.lowering = 0 ∨ s.power.seq ≠ .on ∨ s.start.phase.toNat < 5 ∨ s.sb.running.isSome ∨ !sbCanStart s then s
  else
    let next := fun s : State => setSec (fun x => { x with lowering := x.lowering + 1 }) s
    match s.sec.lowering with
    | 1 => next (writePl (setSec (fun x => { x with erasing := true }) s))
    | 2 => next (newRoot s)
    | 3 => next ((List.range 64).foldl (fun s i =>
        if (ldOf s i).keyState then
          let s := setLd i (fun d => { d with keyState := false }) s
          sbEnqueue s (.ring 0x55 i (ldKeyPayload s i))
        else s) s)
    | 4 => next ((List.range 64).foldl (fun s i => if (ldOf s i).ranges = [] then s else newKey i s) (dropAll s))
    | 5 => next (writePl (setLevel 0 (setSec (fun x => { x with erasing := false }) s)))
    | _ =>
      let s := setSec (fun x => { x with lowering := 0 }) s
      let s := { s with host := { s.host with creditsHeld := creditsStay s } }
      ((s.unit.running.filter (fun j => j.kind == .lower)).map (fun j => j.id)).foldl (fun s j => endJob j 0 s) s

/-- STRONGBOX_WRITE_DONE: the next waiting write is served (R531); a lowering goes on. -/
def execStrongboxWriteDone (s : State) : Res :=
  let s := begin s
  ran (if s.sb.running.isNone then lowerAdvance s else lowerAdvance (sbWriteDone s))

/-- STRONGBOX_MARGIN_REFRESH: while no request waits, a weak slot whose content is good, or that lies in partition 0, is
rewritten (R535). -/
def execStrongboxMarginRefresh (slot : BitVec 16) (weak : Bool) (s : State) : Res :=
  let s := begin s
  let n := slot.toNat
  let b := sbBytes s (256 * n) 256
  let good := n < 0x8000 || (if n < 0xC000 then crc32c ((b.take 252).map BitVec.toNat) == field b 252 4
    else (List.range 4).all (fun i => let r := (b.drop (64 * i)).take 64
      r.all (fun x => x == 0) || crc32c ((r.take 60).map BitVec.toNat) == field r 60 4))
  if !s.start.sillUp ∨ s.sb.running.isSome ∨ s.sb.queue ≠ [] ∨ !weak ∨ !good ∨ !sbCanStart s then ran s
  else
    let s := if n < 0xC000 then sbEnqueue s (.slot n b) else s
    ran (event { code := 0x0602, p0 := n } { s with sb := { s.sb with weak := satInc s.sb.weak } })

end Sys2Proof.Machine
end

