-- ==== Sys2Proof/Machine/Start.lean ====
section
/-! DEFINITION. Resets and the start: the Sill's cold reset and supply, warm reset, and the phases up to Memory Active (R284, R285,
R294, R310, R403 to R407, R501, R524, R525, R587 to R606, R666). -/

namespace Sys2Proof.Machine

/-! ## The Sill cold reset (R587, R588) -/

/-- The highest sequence of the readable records of the Waybill area, none when it holds none (R501). -/
def wbTop (s : State) : Option (BitVec 32) :=
  (((s.wb.area.flatMap (fun e => e.2)).map WbRec.seq).filter (fun q => !s.wb.badCrc.contains q)).foldl (fun a q =>
    match a with
    | none => some q
    | some b => if seqGe q b then some q else some b) none

/-- An LD after a Sill cold reset: its event logs, policy and mailbox state are gone as well. -/
def ldCold (d : Ld) : Ld :=
  { d with
    logs := List.replicate 5 [], logOverflow := List.replicate 5 false, nextHandle := 1, policy := 0, tsOffset := none
    qosAlloc := 0, qosLimit := 0 }

/-- Every register at its reset value; kept are the Strongbox with every write that had started, the media and what the model keeps
of it, the pins and the supply. -/
def coldReset (s : State) : State :=
  let s := mainDown (flushCut s)
  let ft := BitVec.ofNat 64 (field ((ringPayload s.sb.cells 0x60 0).getD []) 10 8 + 1000000000)
  let steps := match ringPayload s.sb.cells 0x68 0 with
    | none => readSteps s.sb.cells s.mm.cseq
    | some _ => logStep ⟨0, s.mm.cseq, true⟩ (readSteps s.sb.cells s.mm.cseq)
  let life := (ringPayload s.sb.cells 0x60 0).getD []
  { s with
    id := { revision := s.id.revision, serial := s.id.serial }
    time := { ftime := ft, bSince := ft, steps := steps }
    tt := { stage := ft.toNat / 250000 }
    unit := {}
    host := { s.host with lds := s.host.lds.map ldCold, unhitched := false, volErrors := 0, perErrors := 0, laneCfg := 0 }
    mm := { s.mm with ati := [], atiHours := [], atiDays := [], sk := [] }
    wb := {
      next := match wbTop s with | some q => q + 1025 | none => 1024
      area := s.wb.area, areaSlot := s.wb.areaSlot, badCrc := s.wb.badCrc }
    evt := {}
    sb := { cells := s.sb.cells, low := s.sb.low, reserveOk := s.sb.reserveOk, vauxOk := s.sb.vauxOk, vauxMv := s.sb.vauxMv }
    power := {
      pfLow := s.power.pfLow, seqIn := s.power.seqIn, flushLines := s.power.flushLines, fseq := s.power.fseq
      flushLive := s.power.flushLive, flushHasLast := s.power.flushHasLast }
    therm := {}
    start := {
      lifeHours := BitVec.ofNat 32 (field life 0 4), lifeFrac := BitVec.ofNat 16 (field life 4 2)
      pcycle := BitVec.ofNat 32 (field life 6 4), sillResets := BitVec.ofNat 32 (field life 18 4 + 1), sillUp := s.start.sillUp }
    fw := { areas := s.fw.areas, goldVersion := s.fw.goldVersion, goldSvn := s.fw.goldSvn, goldValid := s.fw.goldValid }
    sec := { pl2Fuse := s.sec.pl2Fuse }
    span := { s.span with swkValid := false, spanState := 0 } }

/-- The Sill after its reset: the unbounded step saved, the sequence resumed (R407, R409, R501). -/
def sillBoot (s : State) : State :=
  let top := wbTop s
  event { code := 0x0002, p0 := match top with | some q => q.toNat | none => 0xFFFFFFFF } (saveSteps s)

/-- VAUX at a voltage: what the Strongbox knows of it (R532, R533, R537). -/
def setVaux (mv : BitVec 12) (s : State) : State :=
  let ok := Nat.ble 3000 mv.toNat
  let low := Nat.blt mv.toNat 3200
  sbStart { s with sb := { s.sb with
    vauxMv := mv, vauxOk := ok, reserveOk := s.sb.reserveOk && ok, low := low, bandChg := s.sb.bandChg || (s.start.sillUp && low != s.sb.low) } }

/-- VAUX_RISE: through 3.0 V; the Sill boots unless it never lost its supply (R587, R666). -/
def execVauxRise (mv : BitVec 12) (s : State) : Res :=
  let s := begin s
  if mv.toNat < 3000 then ran s
  else if s.start.sillUp then ran (setVaux mv s)
  else ran (sillBoot (setVaux mv (coldReset { s with start := { s.start with sillUp := true } })))

/-- VAUX_LOW: below 3.0 V, at or above 2.80 V: Strongbox writes are abandoned (R532, R666). -/
def execVauxLow (mv : BitVec 12) (s : State) : Res :=
  let s := begin s
  ran (if 3000 ≤ mv.toNat ∨ mv.toNat < 2800 then s else setVaux mv s)

/-- VAUX_LOSS: the Sill is held in reset, every ENr low (R588, R666). -/
def execVauxLoss (s : State) : Res :=
  let s := begin s
  let s := coldReset { s with start := { s.start with sillUp := false } }
  ran { s with sb := { s.sb with vauxMv := 0, vauxOk := false, reserveOk := false, low := false, bandChg := false } }

/-- VAUX_BAND_CHANGE: across 3.20 V (R537). -/
def execVauxBandChange (mv : BitVec 12) (s : State) : Res :=
  let s := begin s
  ran (if mv.toNat < 3000 ∨ !s.start.sillUp then s else setVaux mv s)

/-- SILL_RESET: a cold reset while VAUX stands (R588). -/
def execSillReset (s : State) : Res :=
  let s := begin s
  ran (if s.start.sillUp then sillBoot (coldReset s) else s)

/-- RESERVE_CHARGED: the local reserve holds three writes (R533). -/
def execReserveCharged (s : State) : Res :=
  let s := begin s
  ran (if s.sb.vauxMv.toNat < 3000 then s else sbStart (wbPump { s with sb := { s.sb with reserveOk := true } }))

/-! ## Warm reset (R446, R484, R587) -/

/-- The management complex reset: its jobs, the mailboxes of slots 0 to 3 and armed points are gone; the data path goes on. -/
def warmReset (s : State) : State :=
  let s := loseJobs s
  { s with
    host := { s.host with mgmtReset := true }
    unit := { s.unit with cmb := s.unit.cmb.filter (fun e => Nat.ble 128 e.1), qmb := s.unit.qmb.filter (fun e => Nat.ble 16 e.1) }
    evt := { s.evt with armed := [] } }

/-- MGMT_WATCHDOG: a warm reset. -/
def execMgmtWatchdog (s : State) : Res :=
  let s := begin s
  ran (if s.host.mailboxReady ∧ !s.host.mgmtReset then warmReset s else s)

/-! ## Firmware selection (R596, R605, R623) -/

/-- The activation sequence of an area. -/
def areaSeq (s : State) (a : Nat) : Nat := (s.fw.areas.getD a []).foldl (fun m c => max m c.aseq.toNat) 0

/-- The header line of an image copy, at position 0 of its area (R595). -/
def fwHeader (c : FwCopy) : List Byte :=
  let b := bytesOf 4 0xBD640F00 ++ bytesOf 4 c.length.toNat ++ bytesOf 4 c.version.toNat ++ bytesOf 4 c.svn.toNat ++ bytesOf 6 c.aseq.toNat ++
    List.replicate 38 0
  b ++ bytesOf 4 (crc32c (b.map BitVec.toNat))

/-- The fast sets of copy `i` of image area `a`, and the set and position of an image position (R595). -/
def fwSets (s : State) (a i : Nat) : List Nat :=
  let pair := ((match s.variant with | .x4 => [0, 5, 10] | .h2 => [0, 3, 6] | .l1 => [0, 1, 2]) : List Nat).getD i 0
  [0, 1].map (fun k => 32768 * pair + 2048 * 15 + 2044 + 2 * a + k)
def fwPlace (s : State) (a i x : Nat) : Nat × Nat := ((fwSets s a i).getD (x / 65536) 0, x % 65536)

/-- The copies that qualify, by area. -/
def fwCandidates (s : State) : List (Nat × FwCopy) :=
  [0, 1].flatMap (fun a => ((s.fw.areas.getD a []).filter (fun c => c.valid && Nat.ble s.sec.svnMin.toNat c.svn.toNat)).map (fun c => (a, c)))

/-- The image that runs: the highest ASEQ that qualifies, its area then completed; else the golden image, which is written into the
area of the lower ASEQ; none when that fails too. -/
def selectFw (s : State) : Option State :=
  let cs := fwCandidates s
  let top := cs.foldl (fun m c => max m c.2.aseq.toNat) 0
  match cs.find? (fun c => c.2.aseq.toNat == top) with
  | some (a, c) =>
    some { s with
      fw := { s.fw with
        running := c.version, runSvn := c.svn, runDigest := c.digest, runArea := some (if a = 0 then 0 else 1)
        areas := s.fw.areas.set a (List.replicate 3 c) }
      start := { s.start with golden := false } }
  | none =>
    if !s.fw.goldValid then none
    else
      let low := if areaSeq s 1 < areaSeq s 0 then 1 else 0
      let c : FwCopy := { aseq := BitVec.ofNat 48 (max (areaSeq s 0) (areaSeq s 1) + 1), length := 0, version := s.fw.goldVersion
                          svn := s.fw.goldSvn, valid := true, digest := Config.goldenDigest }
      some { s with
        fw := { s.fw with
          running := s.fw.goldVersion, runSvn := s.fw.goldSvn, runDigest := Config.goldenDigest, runArea := none
          areas := s.fw.areas.set low (List.replicate 3 c) }
        start := { s.start with golden := true } }

/-- WARM_RESET_END: controller firmware runs again, an activated image in place of the old one (R587, R597). -/
def execWarmResetEnd (s : State) : Res :=
  let s := begin s
  if !s.host.mgmtReset then ran s
  else
    let s := if s.fw.activating then (selectFw s).getD s else s
    ran { s with host := { s.host with mgmtReset := false }, fw := { s.fw with activating := false } }

/-! ## Phase 1: the Strongbox (R468, R524, R525, R527, R611, R617) -/

/-- Every ring of partitions 1 to 6. -/
def allRings : List (Nat × Nat) :=
  ([(0x10, 18), (0x20, 1), (0x21, 512), (0x30, 1), (0x31, 512), (0x40, 35), (0x41, 1), (0x50, 1), (0x51, 1), (0x52, 1), (0x53, 1),
    (0x54, 1), (0x55, 64), (0x60, 1), (0x61, 1), (0x62, 1), (0x63, 18), (0x64, 6), (0x65, 1), (0x66, 1), (0x67, 13), (0x68, 1)]
    : List (Nat × Nat)).flatMap (fun e => (List.range e.2).map (fun i => (e.1, i)))

/-- Whether nothing was ever written to a ring. -/
def ringBlank (m : List Host.Cell) (r : RingAt) : Bool :=
  m.all (fun c => Nat.blt c.1 (256 * r.slot) || Nat.ble (256 * (r.slot + 2 * r.pairs)) c.1)

/-- A ring resolved: a copy rewritten, a tie recorded, a Critical record for one that was written and resolves to none. -/
def resolveOne (ty ix : Nat) (s : State) : State :=
  match ringAt ty ix with
  | none => s
  | some r =>
    let v := resolveRing s.sb.cells ty ix
    let s := match v.found, v.repair with
      | some c, some n => sbEnqueue s (.slot n (slotBytes ty ix c.seq c.payload false))
      | _, _ => s
    let s := match v.tie with
      | none => s
      | some q =>
        let s := event { code := 0x0601, p0 := r.part, p1 := q } { s with sb := { s.sb with tie := satInc s.sb.tie } }
        match v.found with
        | some c => sbEnqueue s (.ring ty ix c.payload)
        | none => s
    if v.found.isNone ∧ !ringBlank s.sb.cells r then event { code := 0x0601, sev := some 3, p0 := r.part, p1 := ty + 65536 * ix } s else s

/-- The option area loaded (R527), and the serial number (R528). -/
def loadOption (s : State) : State :=
  let o := optionArea s.sb.cells
  let clk := field o 0 1 % 4
  let n := field o 4 2
  let g := field o 6 2
  { s with
    id := { s.id with serial := match ringPayload s.sb.cells 0x20 0 with
      | some p => BitVec.ofNat 64 (field p 0 8)
      | none => s.id.serial }
    sb := { s.sb with clock := BitVec.ofNat 2 (if clk = 3 then 0 else clk) }
    host := { s.host with laneCfg := BitVec.ofNat 2 (field o 1 1) }
    power := { s.power with cascade := bit (field o 2 1) 0, rails := (List.range 32).map (optionRail o) }
    therm := { s.therm with
      notice := BitVec.ofNat 8 (if 85 ≤ n ∧ n ≤ 110 then n else 105), grace := BitVec.ofNat 10 (if 1 ≤ g ∧ g ≤ 1000 then g else 20) } }

/-- The units out of service (R468). -/
def loadUnits (s : State) : State :=
  { s with unit := { s.unit with units := (unitsFromRing s.sb.cells).foldl (fun m u =>
      sput m u.1 { st := u.2, reason := 0, since := s.time.ftime, test := 0 }) s.unit.units } }

/-- A span descriptor from its record, none when it is not one (R351). -/
def descOf (p : List Byte) : Option SpanDesc :=
  if field p 0 4 = 0xBD6405A0 ∧ crc32c ((p.take 60).map BitVec.toNat) = field p 60 4 then
    some { span := BitVec.ofNat 8 (field p 4 1), k := BitVec.ofNat 8 (field p 5 1), m := BitVec.ofNat 8 (field p 6 1), f := BitVec.ofNat 8 (field p 7 1)
           members := (List.range (field p 5 1 + field p 6 1)).map (fun r => BitVec.ofNat 16 (field p (8 + 2 * r) 2))
           sgen := BitVec.ofNat 48 (field p 40 6) }
  else none

/-- A pool table entry's 14 bytes, with its CRC (R348). -/
def poolBytes (e : PoolEntry) : List Byte :=
  let b := bytesOf 2 e.pbr.toNat ++ [e.span, e.slot] ++ bytesOf 8 e.serial.toNat ++ bytesOf 2 e.gen.toNat
  b ++ bytesOf 2 (crc16 (b.map BitVec.toNat))

/-- An entry read back, none when its CRC fails. -/
def poolOf (b : List Byte) : Option PoolEntry :=
  if crc16 ((b.take 14).map BitVec.toNat) = field b 14 2 ∧ b.length = 16 then
    some { pbr := BitVec.ofNat 12 (field b 0 2), span := BitVec.ofNat 8 (field b 2 1), slot := BitVec.ofNat 8 (field b 3 1)
           serial := BitVec.ofNat 64 (field b 4 8), gen := BitVec.ofNat 16 (field b 12 2) }
  else none

/-- Pool record i: entries 15i to 15i + 14; an entry that is not set is 0 (R526). -/
def poolPayload (s : State) (i : Nat) : List Byte :=
  (List.range 15).flatMap (fun j => match sfind s.span.pool (15 * i + j) with
    | some e => poolBytes e
    | none => List.replicate 16 0)

/-- The pool table, the span descriptor and the device's own member state (R355, R525, R526). -/
def loadSpan (s : State) : State :=
  let pool : SMap PoolEntry := (List.range 35).foldl (fun m i => match ringPayload s.sb.cells 0x40 i with
    | none => m
    | some p => (List.range 15).foldl (fun m j => match poolOf ((p.drop (16 * j)).take 16) with
        | some e => sput m (15 * i + j) e
        | none => m) m) []
  let rec_ := (ringPayload s.sb.cells 0x41 0).getD []
  let desc := descOf rec_
  let self := (pool.find? (fun e => e.2.serial == s.id.serial)).map (fun e => BitVec.ofNat 9 e.1)
  let own := match desc, self with
    | some d, some i => d.members.findIdx? (fun (x : BitVec 16) => x.toNat == BitVec.toNat i)
    | _, _ => none
  let ok := own.isSome && hasSpan s
  let s := { s with span := { s.span with
    pool := pool, selfIdx := self, desc := if ok then desc else none, own := BitVec.ofNat 4 (own.getD 0) } }
  if ok then setPeer (ownIndex s) (fun p => { p with st := BitVec.ofNat 3 (field rec_ 64 1) }) s else s

/-- The key store (R610, R611, R617). The root key is made at the first power-up. A key whose record is the newest one keeps its
value; another is what its record unwraps to. -/
def loadKeys (s : State) : State :=
  let m := s.sb.cells
  let s := match ringPayload m 0x50 0 with
    | some p => setSec (fun x => { x with rgen := BitVec.ofNat 48 (field p 32 6) }) s
    | none => if (ringAt 0x50 0).any (ringBlank m) then newRoot s else setSec (fun x => { x with rootLost := true }) s
  let pl := (ringPayload m 0x51 0).getD [1]
  let s := setSec (fun x => { x with
    pl := BitVec.ofNat 2 (if x.pl2Fuse then 2 else field pl 0 1), erasing := bit (field pl 1 1) 0, plseq := BitVec.ofNat 48 (field pl 2 6)
    owner := ((ringPayload m 0x52 0).getD []).take 97, svnMin := BitVec.ofNat 32 (field ((ringPayload m 0x53 0).getD []) 0 4)
    lowering := 0 }) s
  let swk := (ringPayload m 0x54 0).getD []
  let has := match s.span.desc with | some d => !swk.isEmpty && field swk 0 1 == d.span.toNat | none => false
  let s := { s with span := { s.span with swkValid := has } }
  let s := setSec (fun x => { x with swkLost := s.span.desc.isSome && swk.isEmpty && !(ringAt 0x54 0).any (ringBlank m) }) s
  (List.range 64).foldl (fun s i =>
    setLd i (fun d => match ringPayload m 0x55 i with
      | none => { d with keyState := false, keyLost := d.ranges ≠ [] }
      | some p =>
        let g := BitVec.ofNat 48 (field p 2 6)
        { d with
          keyState := bit (field p 0 1) 0, kgen := g
          key := if g = d.kgen then d.key else Config.unwrap s.sec.rgen.toNat ((p.drop 8).take 72)
          keyLost := d.ranges ≠ [] && !bit (field p 0 1) 0 }) s) s

/-- The shutdown record (R583). -/
def loadShutdown (s : State) : State :=
  match ringPayload s.sb.cells 0x66 0 with
  | some p =>
    let r : ShutRec := { sensor := BitVec.ofNat 8 (field p 1 1), temp := BitVec.ofNat 16 (field p 2 2), ftime := BitVec.ofNat 64 (field p 4 8)
                         hours := BitVec.ofNat 32 (field p 12 4), pcycle := BitVec.ofNat 32 (field p 16 4) }
    if field p 0 1 = 1 then { s with therm := { s.therm with record := some r } } else s
  | none => s

/-- Every ring resolved (R524). -/
def resolveAll (s : State) : State := allRings.foldl (fun s e => resolveOne e.1 e.2 s) s

/-- Phase 1 ends: the rings resolved, what they hold applied; the on table starts while PF_N is high (R553, R589). -/
def phase1End (s : State) : State :=
  let s := loadShutdown (loadKeys (loadSpan (loadUnits (loadOption (resolveAll s)))))
  if s.power.pfLow ∨ (s.power.cascade ∧ !s.power.seqIn) then { s with start := { s.start with phase := 2 } } else startOn s

/-! ## Phases 3 and 4: firmware, HBM and channels -/

/-- A start that ends without Memory Active (R605). -/
def startFails (s : State) : State :=
  { s with start := { s.start with phase := 0xF }, host := { s.host with mediaStatus := .error } }

/-- Phase 3 ends: the image runs and channel training begins, with the hold-up measurement (R592, R596, R605, R617); a lowering that a
shutdown cut short goes on from its ERASING flag alone (R532). -/
def phase3End (s : State) : State :=
  match selectFw s with
  | none => startFails s
  | some s =>
    let s := if ringPayload s.sb.cells 0x53 0 = none then setSec (fun x => { x with svnMin := s.fw.runSvn }) s else s
    let s := setSec (fun x => { x with lowering := if x.erasing then 2 else 0 }) s
    let s := { s with
      host := { s.host with mailboxReady := true }, start := { s.start with phase := 4 }, power := { s.power with measuring := true } }
    (List.range (nChannels s)).foldl (fun s c => if inService (ownState s (uChannel c)) then startTraining c s else s) s

/-- The saved HBM remap tables (R214, R530). -/
def loadRemap (m : List Host.Cell) : SMap RemapEnt :=
  (List.range 13).foldl (fun t i => match ringPayload m 0x67 i with
    | none => t
    | some p => (List.range 80).foldl (fun t k =>
        let v := field p (3 * k) 3
        if bit v 23 ∧ 80 * i + k < 1024 then sput t (80 * i + k) { valid := true, block := BitVec.ofNat 20 (v % 2 ^ 20) } else t) t) []

/-- One saved point of A(t). -/
def atiPoint (p : List Byte) : BitVec 64 × SMap Nat :=
  (BitVec.ofNat 64 (field p 0 8), (List.range 32).filterMap (fun c => let v := field p (8 + 6 * c) 6; if v = 0 then none else some (c, v)))

/-- The saved points of A(t) and the sampling corrections; each A(t) goes on from its newest point (R301, R306, R530). -/
def loadAti (s : State) : State :=
  let points := fun ty => match ringAt ty 0 with
    | some r => ((ringCopies s.sb.cells ty 0 r).filter (fun (c : RCopy) => c.slot % 2 == 0)).map (fun (c : RCopy) => atiPoint c.payload)
    | none => []
  let hours := (points 0x61).mergeSort (fun a b => Nat.ble a.1.toNat b.1.toNat)
  let days := (points 0x62).mergeSort (fun a b => Nat.ble a.1.toNat b.1.toNat)
  let last := match hours.getLast? with | some p => p.2 | none => []
  let sk : SMap (BitVec 64) := (List.range 18).foldl (fun m i => match ringPayload s.sb.cells 0x63 i with
    | none => m
    | some p => (List.range 30).foldl (fun m j => if 30 * i + j < 512 then
        sset 0 m (30 * i + j) (BitVec.ofNat 64 (field p (8 * j) 8)) else m) m) []
  { s with mm := { s.mm with
    ati := last.map (fun e => (e.1, e.2 * 65536)), atiHours := hours, atiDays := days, atiCount := hours.length, sk := sk } }

/-- The reference slots of every die that is ready loaded from S_k as it stands (R303). -/
def reloadSlots (s : State) : State :=
  (List.range (nChannels s)).foldl (fun s c => (List.range 16).foldl (fun s d =>
    if (cartOf s c).diesReady.getLsbD d then loadRefs c d s else s) s) s

/-- Phase 4 ends once no channel trains: the HBM laid out for G = 0 with fresh hash keys, or the start fails with a stack (R193, R197,
R594, R605, R675). -/
def phase4End (hbm : BitVec 4) (s : State) : State :=
  if (List.range (nChannels s)).any (inTraining s) then s
  else
    let bad := (List.range (nQuads s)).filter (fun h => !hbm.getLsbD h || !inService (ownState s (uHbm h)))
    let s := bad.foldl (fun s h => if inService (ownState s (uHbm h)) then setUnit (uHbm h) .isolated 3 true s else s) s
    if bad ≠ [] then startFails s
    else
      let (a, s) := drawBits 40 s
      let (b, s) := drawBits 40 s
      let (c, s) := drawBits 40 s
      let (x, s) := drawBits 32 s
      let (y, s) := drawBits 32 s
      let (z, s) := drawBits 32 s
      let s := relayout 0 { s with cache := { s.cache with
        kp := a, k1 := b, k2 := c, lfsrNear := lfsrSeed x, lfsrTag := lfsrSeed y, lfsrPage := lfsrSeed z, remap := loadRemap s.sb.cells } }
      reloadSlots (loadAti { s with start := { s.start with phase := 5 } })

/-! ## Phase 5: the Frame Table, live counts, band classes (R284 to R286, R294, R310, R590) -/

/-- Content line i of a segment read back from a copy that decodes (R335). -/
def segLine (s : State) (k i : Nat) : Option (Line × BitVec 16) := fastPayload s (k / 1024) (64 * (k % 1024) + i) none

/-- Whether a segment's trailer reads back as it was written (R106). -/
def segReads (s : State) (k : Nat) (g : Seg) : Bool :=
  (segLine s k 63).map (fun l => l.1) == some (BitVec.ofNat 512 (natOf (trailerBytes k g)))

/-- Whether every line of a segment reads back with a valid trailer. -/
def segWhole (s : State) (k : Nat) : Bool :=
  match sfind s.xlat.segs k with
  | none => false
  | some g => segReads s k g && (List.range 63).all (fun i => (segLine s k i).isSome)

/-- Whether an image qualifies: every segment reads back, with its BASE_CTR (R284). -/
def imageReads (s : State) (im : CkImage) : Bool :=
  im.segs.all (fun k => segWhole s k && (sget noSeg s.xlat.segs k).base == im.c0)

/-- The record that 32 bytes at a place hold, none when it is not valid in a segment with BASE_CTR `base` (R278). -/
def recParse (base place : Nat) (b : List Byte) : Option CkRec :=
  let r : CkRec := ⟨BitVec.ofNat 24 (field b 0 3), BitVec.ofNat 8 (field b 3 1), BitVec.ofNat 32 (field b 4 4), BitVec.ofNat 48 (field b 8 6),
    BitVec.ofNat 48 (field b 14 6), BitVec.ofNat 64 (field b 20 8), some place⟩
  if crc16 ((b.take 30).map BitVec.toNat) = field b 30 2 ∧ 1 ≤ r.kind.toNat ∧ r.kind.toNat ≤ 6 ∧ base ≤ r.cseq.toNat then some r else none

/-- The valid records that the record segments on media hold, in CSEQ order (R278, R284, R311). -/
def mediaRecs (s : State) : List CkRec :=
  ((s.xlat.segs.filter (fun g => g.2.kind == .record)).flatMap (fun g => (List.range 63).flatMap (fun i =>
    match segLine s g.1 i with
    | none => []
    | some l =>
      let b := bytesOf 64 l.1.toNat
      let place := 65538 * (g.1 / 1024) + 64 * (g.1 % 1024) + i
      (recParse g.2.base.toNat place (b.take 32)).toList ++ (recParse g.2.base.toNat place (b.drop 32)).toList))).mergeSort
    (fun x y => Nat.ble x.cseq.toNat y.cseq.toNat)

/-- The image the replay starts from: the newest whose end record stands and whose segments all read back (R282, R284). -/
def startImage (recs : List CkRec) (s : State) : Option CkImage :=
  (s.mm.images.filter (fun im => recs.any (fun r => r.kind.toNat == ckImageEnd && r.psnap == im.c0) && imageReads s im)).getLast?

/-- Bits `n` wide of a content line of an image's segment. -/
def imageField (s : State) (k j n e : Nat) : Nat := match segLine s k j with | some l => l.1.toNat / 2 ^ (n * e) % 2 ^ n | none => 0

/-- The entries an image holds, read from its segments (R282, R284). -/
def imageFt (s : State) (im : CkImage) : SMap (BitVec 32) :=
  (List.range 16645).foldl (fun m i => (List.range 63).foldl (fun m j => (List.range 16).foldl (fun m e =>
    sset 0 m (1008 * i + 16 * j + e) (BitVec.ofNat 32 (imageField s (im.segs.getD i 0) j 32 e))) m) m) []

/-- Whether an image's bitmap has a band clear. -/
def imageClear (s : State) (im : CkImage) (b : Nat) : Bool :=
  imageField s (im.segs.getD (16645 + b / 32256) 0) (b % 32256 / 512) 1 (b % 512) == 1

/-- The records a replay applies: those above C0 of its image. -/
def replayRecs (recs : List CkRec) (im : Option CkImage) : List CkRec :=
  recs.filter (fun r => match im with | some i => Nat.blt i.c0.toNat r.cseq.toNat | none => true)

/-- Whether every record line that is needed reads back, and an image where one was taken; otherwise R285 applies. -/
def ckReadable (recs : List CkRec) (s : State) : Bool :=
  let im := startImage recs s
  (s.mm.images.isEmpty || im.isSome) && (replayRecs s.mm.records im).all (fun r => match r.place with
    | some p => (fastPayload s (p / 65538) (p % 65538) none).isSome
    | none => true)

/-- The block a KIND 0x02 record marks (R278). -/
def markedBlock (s : State) (r : CkRec) : Option Nat :=
  let e := r.entry.toNat
  if bit e 5 then
    let (ch, die, block, _) := fastPlace s r.target.toNat (b2n (bit e 6)) 0
    some (blockKey ch die 7 (block + bits e 7 2))
  else ((List.range 32).find? (fun m => (memberAt s r.target.toNat m).1 == e % 32)).map (memberBlock s r.target.toNat)

/-- The replay of the log from media: entries, PSNAPs, bad blocks; and the bands not clear, with the C0 it starts from (R284). -/
def replayTable (recs : List CkRec) (s : State) : State × List Nat × Nat :=
  let im := startImage recs s
  let c0 := match im with | some i => i.c0.toNat | none => 0
  let late := replayRecs recs im
  let ft := late.foldl (fun m r => if r.kind.toNat = ckEntry then sset 0 m r.target.toNat r.entry else m)
    (match im with | some i => imageFt s i | none => [])
  let psnap := recs.foldl (fun m r => if r.kind.toNat = ckEntry then sset 0 m r.target.toNat r.psnap else m) []
  let used := late.foldl (fun l r =>
    if r.kind.toNat = ckOpen then l ++ [r.target.toNat]
    else if r.kind.toNat = ckFree then l.filter (fun b => b != r.target.toNat)
    else l) (match im with | some i => (s.mm.bands.map (fun e => e.1)).filter (fun b => isDenseBand s b && !imageClear s i b) | none => [])
  let bad := dedup ((late.filter (fun r => r.kind.toNat == ckBad)).filterMap (markedBlock s))
  ({ s with xlat := { s.xlat with ft := ft, psnap := psnap, ftErr := [] }, mm := { s.mm with records := recs, bad := bad } }, used, c0)

/-- A home a frame may have by header scan: its sequence, its entry, and PATCH_HW where it is a dense slot. -/
structure HomeCand where
  seq : Nat
  entry : BitVec 32
  hw : Option Nat
  deriving DecidableEq, Repr

/-- Line `x` of a member's header page, as it reads now. -/
def headerRead (s : State) (b m x : Nat) : Option Line :=
  let p := memberAt s b m
  (decodeCell (lineAt s p.1 p.2 (bandBank b) (bandBlock b) x)).bind (fun l => if metaOf l = 0x4844 then some (payloadOf l) else none)

/-- PATCH_HW of a data slot, from its member's block descriptor or its copy (R90, R91). -/
def patchHw (s : State) (b x : Nat) : Option Nat :=
  let m := slotMember (bandOf s b) x
  let good := fun l : Line => crc32c (((bytesOf 64 l.toNat).take 60).map BitVec.toNat) == field (bytesOf 64 l.toNat) 60 4
  ((([0, 32] : List Nat).filterMap (headerRead s b m)).find? good).map (fun l => field (bytesOf 64 l.toNat) 44 3)

/-- The candidates of a frame by header scan: the verified dense slots and the fast sets that name it (R285). -/
def homeCandidates (s : State) (lfn : Nat) : List HomeCand :=
  let dense := s.mm.bands.flatMap (fun b =>
    if !b.2.verified ∨ b.2.cls = .open_ ∨ b.2.cls = .clear ∨ b.2.cls = .clearing then [] else
    ((List.range 32).filter (fun x => slotLfn b.2 x == some lfn)).map (fun x =>
      (⟨b.2.foldSeq.toNat, ftMake b.1 x mDense false false false, patchHw s b.1 x⟩ : HomeCand)))
  let fast := (s.xlat.fst.filter (fun e => fsUse e.2 == useFrame && (sget noDesc s.xlat.fdesc e.1).owner.toNat == lfn)).map (fun e =>
    (⟨(sget noDesc s.xlat.fdesc e.1).allocCseq.toNat, ftMake e.1 0 mFast false false false, none⟩ : HomeCand))
  dense ++ fast

/-- The PSNAP that voids the patches at or before PATCH_HW within their counter window (R285). -/
def hwSnap (hw : Option Nat) (ctrs : List Nat) : Nat :=
  match hw with
  | none => 0
  | some h => (ctrs.filter (fun c => let d := (c + 2 ^ 24 - h % 2 ^ 24) % 2 ^ 24; d == 0 || Nat.ble (2 ^ 23) d)).foldl max 0

/-- Every line of a frame poisoned by internal writes (R285, R341). -/
def poisonLines (lfn : Nat) (s : State) : State :=
  (List.range 65536).foldl (fun s l => poisonFind (65536 * lfn + l) 3 0 s) s

/-- The Frame Table rebuilt by header scan (R285). The Patch Index is then rebuilt too. -/
def headerScan (s : State) : State :=
  let lfns := s.host.lds.flatMap ldLfns
  let r := logRead true { s with xlat := { s.xlat with ft := [], ftErr := [], psnap := [] }, mm := { s.mm with piDelta := false } }
  lfns.foldl (fun s l =>
    let cs := homeCandidates s l
    let top := cs.foldl (fun m c => max m c.seq) 0
    let ctrs := (logEntries s r.1 l).map (fun e => e.2.1)
    let wide := ctrs.any (fun a => ctrs.any (fun b => Nat.ble (a + 2 ^ 23) b))
    match cs.filter (fun c => c.seq == top) with
    | [] => s
    | c :: rest =>
      let snap := hwSnap c.hw ctrs
      let s := { s with xlat := { s.xlat with
        ft := sset 0 s.xlat.ft l c.entry, psnap := sset 0 s.xlat.psnap l (BitVec.ofNat 48 snap) } }
      if rest ≠ [] ∨ wide then poisonLines l s else s) r.2

/-- A band classed from the evidence on media (R310). -/
def classBand (used : List Nat) (c0 b : Nat) (s : State) : State :=
  let d := bandOf s b
  let ms := usableMembers s b
  let mask := fun l : List Nat => BitVec.ofNat 32 (l.foldl (fun a m => a + 2 ^ m) 0)
  let st := fun m => stampOf s (memberBlock s b m)
  let fits := ms.all (fun m => (st m).valid && !(st m).fast && (st m).stamp.extractLsb' 0 20 == BitVec.ofNat 20 b)
  let clr := fun m => (st m).stamp.toNat / 2 ^ 24
  let opened := (s.mm.records.filter (fun r => r.kind.toNat == ckOpen && r.target.toNat == b)).map (fun r => r.cseq.toNat)
  if liveCount s b ≠ 0 then
    let gone := (liveOf d).filter (fun m => !(st m).valid)
    let s := setBand b (fun d => { d with cls := .written, thisOn := false, failed := gone.foldl (fun f m => setBit f m true) d.failed }) s
    if gone = [] then s else refreshBand b s
  else if fits ∧ !used.contains b then setBand b (fun d => { cls := .clear, failed := d.failed }) s
  else if fits ∧ ms.all (fun m => Nat.blt c0 (clr m) && opened.all (fun q => Nat.blt q (clr m))) then
    bandFreed b (setBand b (fun d => { d with cleared := mask ms }) s)
  else setBand b (fun d => { d with cls := .dead, cleared := 0, live := if d.live = 0 then mask ms else d.live }) s

/-- What a descriptor line of a fast set holds, none when its MAGIC, SET, COPY or CRC is wrong (R292). -/
def descParse (f copy : Nat) (l : Line) : Option (FastDesc × BitVec 64) :=
  let b := bytesOf 64 l.toNat
  if field b 0 4 = 0xBD6400F5 ∧ field b 4 4 = f ∧ field b 8 1 = copy ∧ crc32c ((b.take 60).map BitVec.toNat) = field b 60 4 then
    some ({ gen := BitVec.ofNat 32 (field b 16 4), owner := BitVec.ofNat 32 (field b 12 4), wear := BitVec.ofNat 48 (field b 26 6)
            allocCseq := BitVec.ofNat 48 (field b 32 6), pstamp := BitVec.ofNat 64 (field b 40 8) },
      fsMake (field b 22 3) (field b 20 2) (field b 10 2) 0 (field b 9 1) false false)
  else none

/-- The descriptors that the slots of a copy hold. -/
def descSlots (s : State) (f copy : Nat) : List (FastDesc × BitVec 64) :=
  let (ch, die, block, _) := fastPlace s f copy 0
  if !copyUp s f copy then []
  else ([0, 1] : List Nat).filterMap (fun x =>
    (decodeCell (lineAt s ch die 7 block x)).bind (fun l => if metaOf l = 0x4844 then descParse f copy (payloadOf l) else none))

/-- The descriptor of a set as it resolves: the highest GEN, unless the copies hold it with different contents; then the highest lower one.
With it the GEN that was tied (R293). -/
def descResolve (s : State) (f : Nat) : Option (FastDesc × BitVec 64) × Bool :=
  let a := descSlots s f 0
  let b := descSlots s f 1
  let top := fun l : List (FastDesc × BitVec 64) => l.foldl (fun m d => max m d.1.gen.toNat) 0
  let at_ := fun (g : Nat) (l : List (FastDesc × BitVec 64)) => l.find? (fun d => d.1.gen.toNat == g)
  let g := top (a ++ b)
  match at_ g a, at_ g b with
  | some x, some y =>
    if x = y then (some x, false)
    else
      let low := (a ++ b).filter (fun d => Nat.blt d.1.gen.toNat g)
      (at_ (top low) low, true)
  | some x, none => (some x, false)
  | none, y => (y, false)

/-- A fast set's table entry and descriptor taken from what it resolves to, WCOUNT 0; a set without one is free (R293, R294). -/
def resolveSet (f : Nat) (s : State) : State :=
  let r := descResolve s f
  let s := if r.2 then event { code := 0x0204, unit := uDie (copyDie s f 0), p0 := f, p1 := 65538 } s else s
  let e := fsEntry s f
  match r.1 with
  | none => fsSet f (fsMake 65536 0 0 0 useFree (fsALost e) (fsBLost e)) { s with xlat := { s.xlat with fdesc := smod noDesc s.xlat.fdesc f (fun d =>
      { d with owner := 0xFFFFFFFF }) } }
  | some (d, v) =>
    fsSet f (fsMake (fsGap v) (fsStart v) (fsKey v) 0 (fsUse v) (fsALost e) (fsBLost e)) { s with xlat := { s.xlat with fdesc := sput s.xlat.fdesc f d } }

/-- The use of every fast set after replay (R294). -/
def classSets (s : State) : State :=
  s.xlat.fst.foldl (fun s e =>
    let f := e.1
    let v := fsEntry s f
    let u := fsUse v
    let named := s.xlat.ft.any (fun x => ((ftMode x.2 == mFast) || (ftMode x.2 == mFolding && ftSlot x.2 == 31)) && ftBand x.2 == f &&
      (sget noDesc s.xlat.fdesc f).owner.toNat == x.1)
    if u = useLog ∨ u = useForeign ∨ u = useFree then s
    else if named then fsSet f (fsMake (fsGap v) (fsStart v) (fsKey v) 0 useFrame (fsALost v) (fsBLost v)) s
    else releaseSet f s) s

/-- Whether the last flush has a readable segment for every index up to its LAST one (R590). -/
def flushWhole (s : State) : Bool := s.power.flushHasLast && (flushSegs s).all (fun g => segReads s g.1 g.2)

/-- The judgement of the previous stop (R58, R590). -/
def judgeStop (s : State) : State :=
  let clean := if s.power.flushLive then flushWhole s else !s.start.lifeSeen
  let count := if s.power.flushLive then !flushWhole s else s.start.lifeSeen && s.start.lastCause == 3
  { s with
    start := { s.start with unclean := !clean }
    host := { s.host with dirtyShutdowns := if count then satInc s.host.dirtyShutdowns else s.host.dirtyShutdowns } }

/-- Phase 5 ends: a lowering that was cut short is finished first (R620). -/
def phase5End (s : State) : State :=
  if s.sec.lowering ≠ 0 then lowerAdvance s
  else if s.sec.erasing then lowerAdvance (setSec (fun x => { x with lowering := 2 }) s)
  else
    let s := (s.xlat.fst.map (fun e => e.1)).foldl (fun s f => resolveSet f s) (judgeStop s)
    let recs := mediaRecs s
    let ok := ckReadable recs s
    let (s, used, c0) := replayTable recs s
    let s := if ok then s
      else
        let s := event { code := 0x020B, p0 := c0 } (beyondEvent 6 0 s)
        if s.span.desc.isSome then setSec (fun x => { x with swkLost := true }) s else headerScan s
    let s := classSets s
    let listed := s.mm.bands.map (fun e => e.1)
    let bands := dedup (listed ++ (s.xlat.ft.map (fun e => ftBand e.2)).filter (fun b => liveCount s b != 0) ++ stampedBands s)
    let s := bands.foldl (fun s b => if isDenseBand s b then classBand used c0 b s else s) s
    { s with start := { s.start with phase := 6 } }

/-! ## Phase 6: the Patch Index (R599) -/

/-- An empty index. -/
def noIndex (s : State) : State := { s with xlat := { s.xlat with pi := [], piOvf := [], ptimes := [], fsum := [] } }

/-- Whether a frame's patches are not void for its MODE (R284). -/
def keepsPatches (s : State) (lfn : Nat) : Bool := let m := ftMode (ftEntry s lfn); m == mDense || m == mFolding

/-- The frame summaries recomputed from the index, with PATCHED where a frame has patches (R111, R599). -/
def summarize (s : State) : State :=
  (dedup (s.xlat.ptimes.map (fun e => lfnOf e.1))).foldl (fun s l =>
    fsumRefresh l { s with xlat := { s.xlat with ft := sset 0 s.xlat.ft l (ftEntry s l ||| 0x10000000) } }) s

/-- A patch indexed at a start: its frame is due when the entry goes to the overflow table; with that full the patch's line stays dirty in the
caches instead (R113). -/
def indexAgain (e : PiEnt) (s : State) : State :=
  let lln := e.lln.toNat
  if !piRoom s lln then
    match fastPayload s e.set.toNat (64 * e.segment.toNat + e.line.toNat) (some (e.seq.extractLsb' 0 16)) with
    | some v => internalWrite lln v.1 s
    | none => poisonFind lln 0 0 s
  else
    let r := indexPatch e s.time.ftime s
    if r.1 then makeDue (lfnOf lln) 1 0 false r.2 else r.2

/-- Method Rebuild: the index from the directories of the live patch segments, of copy A alone after a clean stop; a patch is void at or below its frame's PSNAP, and for a
frame that is neither Dense nor Folding (R284, R599). A patch's summary time starts anew (log entry 88). -/
def rebuildIndex (s : State) : State :=
  let r := logRead s.start.unclean (noIndex s)
  let lfns := dedup (r.1.map (fun e => lfnOf e.1))
  summarize ((lfns.filter (keepsPatches s)).foldl (fun s l => (logEntries s r.1 l).foldl (fun s e =>
    let k := e.2.2 / 64
    indexAgain ⟨BitVec.ofNat 40 e.1, BitVec.ofNat 24 e.2.1, BitVec.ofNat 19 (k / 1024), BitVec.ofNat 10 (k % 1024),
      BitVec.ofNat 6 (e.2.2 % 64), true, false, false, false⟩ s) s) r.2)

/-- The entries that the segments of the Patch Index checkpoint hold, base and deltas in order; none when one does not read back. -/
def piEntries (s : State) : Option (List PiEnt) :=
  if s.mm.piSegs.all (segWhole s) then
    some ((s.mm.piSegs.flatMap (fun k => (List.range 63).flatMap (fun i =>
      match segLine s k i with
      | some l => let b := bytesOf 64 l.1.toNat; (List.range 4).map (fun j => piParse (b.drop (16 * j)))
      | none => []))).filter (fun e => (e.valid || e.tomb) && !e.checkBad && !foreignEnt s e))
  else none

/-- Method Load: the base inserted, the deltas applied in order, then every entry voided that is at or below its frame's PSNAP (R599). -/
def loadIndex (es : List PiEnt) (s : State) : State :=
  let s := es.foldl (fun s e => if e.valid then indexAgain e s else unindex (fun x => x.lln == e.lln) s) (noIndex s)
  summarize (unindex (fun e => !keepsPatches s (lfnOf e.lln.toNat) ||
    Nat.ble (piCtr s e) (sget 0 s.xlat.psnap (lfnOf e.lln.toNat)).toNat) s)

/-- The lines the last flush holds, in flush line counter order, each with its bytes and mask where a copy of its lines reads back; none
for a line that does not (R563, R600). -/
def flushRead (s : State) : List (Nat × Option (Line × BitVec 64)) :=
  let segs := ((flushSegs s).map (fun g => (g.2.index, g.1, g.2.next))).mergeSort (fun a b => Nat.ble a.1 b.1)
  segs.flatMap (fun g =>
    let dir := fun i => sget (BitVec.allOnes 64) s.xlat.dirs (56 * g.2.1 + i)
    let get := fun i => (segLine s g.2.1 i).bind (fun l => if l.2 = (dir i).extractLsb' 40 16 then some l.1 else none)
    (List.range g.2.2).filterMap (fun i =>
      let e := dir i
      if 0 < i ∧ dir (i - 1) = e then none
      else
        let part := decide (i + 1 < g.2.2 ∧ dir (i + 1) = e)
        some (e.toNat % 2 ^ 40, match get i, (if part then get (i + 1) else some (BitVec.allOnes 512)) with
          | some v, some m => some (v, m.extractLsb' 0 64)
          | _, _ => none)))

/-- A flush line unreadable on both copies: a span member recovers it from its outriders, a device without span protection poisons it
(R600, R603). -/
def flushLost (lln : Nat) (s : State) : State :=
  if s.span.desc.isSome then { s with cache := { s.cache with lost := if s.cache.lost.contains lln then s.cache.lost else s.cache.lost ++ [lln] } }
  else poisonFind lln 0 0 s

/-- Phase 6 ends: the index stands, loaded or rebuilt (R599); the flush's lines begin to replay. -/
def phase6End (s : State) : State :=
  let load := if !s.start.unclean && s.mm.piDelta then piEntries s else none
  let s := { s with start := { s.start with piRebuild := load.isNone, phase := 7 }, mm := { s.mm with piDelta := false } }
  let s := match load with | some es => loadIndex es s | none => rebuildIndex s
  let ls := if s.power.flushLive then flushRead s else []
  let s := (ls.filter (fun l => l.2.isNone)).foldl (fun s l => flushLost l.1 s) s
  { s with power := { s.power with replayLeft := ls.filterMap (fun l => l.2.map (fun v => (l.1, v.1, v.2))) } }

/-! ## Phase 7: the flush replay (R600 to R603) -/

/-- The next lines of the flush applied as internal writes, in counter order, while no line is dirty. -/
def replayStep (s : State) : State :=
  if s.start.phase ≠ 7 ∨ dirtyLlns s ≠ [] then s
  else
    let s := (s.power.replayLeft.take 256).foldl (fun s e => drainLine e.1 true (ncWrite e.1 e.2.1 e.2.2 s)) s
    setPower (fun p => { p with replayLeft := p.replayLeft.drop 256 }) s

/-- The frames of the dirty map folded again, every line the flush did not write as poison; a frame that had no home yet gets the zero home
first (R603). -/
def mapRefold (s : State) : State :=
  let marked := dedup (s.mm.mapOld ++ s.mm.mapNew)
  let s := (marked.filter (fun l =>
    let m := ftMode (ftEntry s l); (m == mUnmapped || m == mDiscarded) && (ownerOf s l).isSome)).foldl (fun s l =>
      commitNow l (ftMake zeroHome 0 mDense false false false) s) s
  let ls := marked.filter (fun l =>
    let m := ftMode (ftEntry s l); m == mDense || m == mFast || m == mFolding)
  let s := { s with start := { s.start with mapFold := true, mapLost := ls } }
  let s := event { code := 0x020F, p0 := ls.length, p1 := if s.power.flushLive then 1 else 0 } s
  ls.foldl (fun s l => makeDue l 1 0 false s) s

/-- Whether lines were lost that the flush should have written (R603). -/
def linesLost (s : State) : Bool :=
  if s.power.flushLive then !flushWhole s else s.start.lifeSeen && s.start.lastCause == 3

/-- The flush sets freed once everything replayed is clean (R601). -/
def freeFlush (s : State) : State :=
  let sets := dedup ((s.xlat.segs.filter (fun g => g.2.kind == .flush)).map (fun g => g.1 / 1024))
  let s := sets.foldl (fun s f => releaseSet f s) s
  setPower (fun p => { p with flushLive := false, flushHasLast := false, flushLines := [], replayLeft := [] }) s

/-- The dirty map emptied. -/
def mapClear (s : State) : State := { s with mm := { s.mm with mapOld := [], mapNew := [], mapDue := [] } }

/-! ## Memory Active (R593, R624, R627) -/

/-- Memory Active on every range at once: each fast frame's last write taken as of now (R298), the LIFE record, the records that waited for the host, the SVN minimum, erases that were cut
short begun again, releases that were cut short redone (R51). -/
def memoryActive (s : State) : State :=
  let s := { s with
    host := { s.host with memoryActive := true, mediaStatus := .ready }, start := { s.start with phase := 9 }
    mm := { s.mm with lastWrite := (s.xlat.ft.filter (fun e => ftMode e.2 == mFast)).map (fun e => (e.1, s.time.ftime)) } }
  let s := sbEnqueue s (.ring 0x60 0 (lifePayload s 3))
  let s := if s.fw.runArea.isSome ∧ s.sec.svnMin.toNat < s.fw.runSvn.toNat then
      let s := setSec (fun x => { x with svnMin := s.fw.runSvn }) s
      sbEnqueue s (.ring 0x53 0 (bytesOf 4 s.fw.runSvn.toNat))
    else s
  let held := s.wb.pendingHost
  let s := held.foldl (fun s r => deliver s r none) { s with wb := { s.wb with pendingHost := [] } }
  let s := (List.range 64).foldl (fun s i => (ldOf s i).redo.foldl (fun s x => releaseGo i none x s) s) s
  (List.range 64).foldl (fun s i => match (ldOf s i).erase with
    | some e => eraseStart i e.secure s
    | none => s) s

/-! ## Phase 8: the rejoin (R604) -/

/-- Whether a majority of the other members has answered. -/
def majorityAnswers (s : State) : Bool :=
  let o := otherMembers s
  Nat.blt o.length (2 * o.countP (fun r => (peerOf s r).answered))

/-- The member state the descriptor record holds. -/
def storedOwn (s : State) : Nat := field ((ringPayload s.sb.cells 0x41 0).getD []) 64 1

/-- Phase 8 begun: the device shows itself Joining; a join or a remount that was cut short goes on as a new job (R355). -/
def rejoinBegin (s : State) : State :=
  let st := storedOwn s
  let s := { s with start := { s.start with phase := 8 }, span := { s.span with joinStep := 0 } }
  if s.sec.swkLost ∨ s.sec.rootLost then unhitch 3 s
  else if st = psLive then setPeerSt (ownIndex s) psJoining s
  else if st = psJoining then (startJob 0xC303 .sideband .spanJoin s).2
  else if st = psRemount then (startJob 0xC305 .sideband .remount s).2
  else s

/-- The foreign Patch Index entries of each ward built again from its foreign sets (R367, R604). -/
def foreignAgain (s : State) : State :=
  s.span.wards.foldl (fun s w => w.places.foldl (fun s e =>
    match sfind w.records e.1 with
    | some r => (piInsert (foreignEntry e.1 e.2 r.rnum) s).2
    | none => s) s) s

/-- The rejoin of a Live member taken on: with a majority's answers each outrider is asked for its highest RNUM; then, when lines were
lost, for the record of every line the flush did not write: a line it wrote is the last accepted (R603); then the device is ready to be
Live. -/
def rejoinAdvance (s : State) : State :=
  if s.start.phase ≠ 8 ∨ storedOwn s ≠ psLive then s
  else
    let to_ := fun (n : Nat) (s : State) => { s with span := { s.span with joinStep := n } }
    match s.span.joinStep with
    | 0 => if !majorityAnswers s then s else to_ 1 (askRnums (outridersOf s (ownIndex s)) (foreignAgain s))
    | 1 =>
      if rnumsDue s then s
      else if !linesLost s then to_ 2 s
      else
        let whole := (flushRead s).filterMap (fun e => e.2.map (fun _ => e.1))
        to_ 2 ((s.host.lds.flatMap ldLfns).foldl (fun s l => (List.range 65536).foldl (fun s x =>
          if whole.contains (65536 * l + x) then s else spanStart none (65536 * l + x) 1 false true false none s) s) s)
    | _ => s

/-- Phase 8 ends: Live with its reseeds, or Memory Active as a join or a remount allows it (R355, R604). -/
def phase8End (s : State) : State :=
  let st := storedOwn s
  if s.host.unhitched then s
  else if st = psLive then
    if s.span.joinStep < 2 ∨ s.span.reads.any (fun q => q.rid.isNone) ∨ dirtyLlns s ≠ [] ∨ s.cache.heldWrites ≠ [] then rejoinAdvance s
    else
      let s := setPeerSt (ownIndex s) psLive (freeFlush (mapClear s))
      memoryActive ((List.range s.span.streams.length).foldl (fun s i => reseed i false s) s)
  else if st = psJoining ∧ s.span.joinStep < 2 then s
  else if st = psUnhitched then s
  else memoryActive (freeFlush s)

/-- Phase 7 ends once everything replayed and re-folded is clean: the flush sets are freed, and Memory Active follows, or the rejoin. -/
def phase7End (s : State) : State :=
  if s.power.replayLeft ≠ [] then replayStep s
  else if dirtyLlns s ≠ [] ∨ s.cache.heldWrites ≠ [] then s
  else if s.span.desc.isSome then rejoinBegin (if linesLost s then s else freeFlush s)
  else if s.sec.rootLost then startFails s
  else if linesLost s ∧ !s.start.mapFold then mapRefold s
  else if s.start.mapLost ≠ [] then s
  else memoryActive (mapClear (freeFlush s))

/-- START_PHASE_END: the phase that runs has done its work and the next begins (R589). A phase with work of its own left stays. -/
def execStartPhaseEnd (hbmTrained : BitVec 4) (s : State) : Res :=
  let s := begin s
  let ph := s.start.phase.toNat
  if !s.start.sillUp then ran s
  else if ph = 1 then ran (if s.power.seq = .off then phase1End s else s)
  else if s.power.seq ≠ .on then ran s
  else
    match ph with
    | 3 => ran (mediaNext (phase3End s))
    | 4 => ran (phase4End hbmTrained s)
    | 5 => ran (phase5End s)
    | 6 => ran (phase6End s)
    | 7 => ran (mediaNext (phase7End s))
    | 8 => ran (mediaNext (phase8End s))
    | _ => ran s

/-- LIFE_HOURLY: an hour of operating time (R530). -/
def execLifeHourly (s : State) : Res :=
  let s := begin s
  if s.power.seq ≠ .on then ran s
  else
    let s := { s with start := { s.start with lifeHours := s.start.lifeHours + 1, lifeFrac := 0 } }
    ran (sbEnqueue s (.ring 0x60 0 (lifePayload s 0)))

end Sys2Proof.Machine
end

