-- ==== Sys2Proof/Machine/Thermal.lean ====
section
/-! DEFINITION. Thermal management: samples, cross-check and substitutes, the throttle, the shutdown level (R570 to R586). -/

namespace Sys2Proof.Machine

def setTherm (f : ThermSt → ThermSt) (s : State) : State := { s with therm := f s.therm }

def sensorOf (s : State) (i : Nat) : SensorSt := s.therm.sensors.getD i {}

def setSensor (i : Nat) (f : SensorSt → SensorSt) (s : State) : State :=
  setTherm (fun t => { t with sensors := lmod t.sensors i f }) s

/-! ## Sensors (R570 to R577) -/

/-- Whether a sensor is in service. -/
def sensorIn (s : State) (i : Nat) : Bool := inService (ownState s (uSensor i))

/-- A working sensor: in service, not broken, with a sample. -/
def sensorWorks (s : State) (i : Nat) : Bool := sensorIn s i && !(sensorOf s i).broken && (sensorOf s i).valid

/-- The sensors of a sensor's class. -/
def sensorClass (i : Nat) : List Nat :=
  if i < 24 then List.range 24 else if i < 56 then (List.range 32).map (fun c => 24 + c) else (List.range 4).map (fun h => 56 + h)

/-- The neighbors of an on-die sensor on the grid of 4 rows and 6 columns (R573). -/
def sensorNeighbors (i : Nat) : List Nat :=
  (List.range 24).filter (fun j => j != i && Nat.ble (j / 6) (i / 6 + 1) && Nat.ble (i / 6) (j / 6 + 1) &&
    Nat.ble (j % 6) (i % 6 + 1) && Nat.ble (i % 6) (j % 6 + 1))

/-- A reading as a signed number of 1/8 °C. -/
def readingOf (s : State) (i : Nat) : Int := (sensorOf s i).reading.toInt

/-- The neighbor median M of on-die sensor i, none without a working neighbor (R573). -/
def neighborMedian (s : State) (i : Nat) : Option Int :=
  let v := (((sensorNeighbors i).filter (sensorWorks s)).map (readingOf s)).mergeSort (fun a b => decide (a ≤ b))
  v[v.length / 2]?

/-- The hottest working reading of a class (R575). -/
def hottestOf (s : State) (l : List Nat) : Option Int :=
  ((l.filter (sensorWorks s)).map (readingOf s)).foldl (fun a v => match a with
    | none => some v
    | some b => some (max b v)) none

/-- The substitute of a broken or Bypassed sensor (R575). -/
def substituteOf (s : State) (i : Nat) : Option Int :=
  if i < 24 then (neighborMedian s i).orElse (fun _ => hottestOf s (List.range 24)) else hottestOf s (sensorClass i)

/-- A sensor found broken (R576). -/
def sensorBreaks (i : Nat) (median : Int) (s : State) : State :=
  let r := readingOf s i
  let s := setTherm (fun t => { t with fBroken := true }) (setSensor i (fun x => { x with broken := true }) s)
  let s := setUnit (uSensor i) .degraded 10 false s
  event { code := 0x0506, unit := uSensor i, p0 := (r.emod (2 ^ 64)).toNat, p1 := (median.emod (2 ^ 64)).toNat } s

/-- The factory offset of an on-die sensor (R528). -/
def factoryOffset (s : State) (i : Nat) : Int :=
  match ringPayload s.sb.cells 0x20 0 with
  | some p => (BitVec.ofNat 16 (field p (10 + 2 * i) 2)).toInt
  | none => 0

/-- The offset injection point 0x000F adds, in 1/8 °C. -/
def injectedOffset (s : State) (i : Nat) : Int :=
  match activePoint s 0x000F (uSensor i) with
  | some a => 8 * (BitVec.ofNat 8 a.mask.toNat).toInt
  | none => 0

/-- One reading taken; a point armed on the sensor starts with its first sample. -/
def takeReading (i : Nat) (v : BitVec 16) (s : State) : State :=
  if !unitPresent s (uSensor i) then s
  else
    let s := if isArmed s 0x000F (uSensor i) then fireStart 0x000F (uSensor i) s else s
    let off := (if i < 24 then factoryOffset s i else 0) + injectedOffset s i
    setSensor i (fun x => { x with reading := BitVec.ofInt 16 (v.toInt + off), valid := true }) s

/-- The cross-check of the on-die sensors, all judged on one sample (R574). -/
def crossCheck (s : State) : State :=
  let judged := (List.range 24).filterMap (fun i =>
    let n := (sensorNeighbors i).filter (sensorWorks s)
    if sensorWorks s i ∧ 2 ≤ n.length then (neighborMedian s i).map (fun m => (i, m, decide (80 < (readingOf s i - m).natAbs))) else none)
  judged.foldl (fun s j =>
    let run := if j.2.2 then (sensorOf s j.1).devRun + 1 else 0
    let s := setSensor j.1 (fun x => { x with devRun := run }) s
    if 3 ≤ run then sensorBreaks j.1 j.2.1 s else s) s

/-- Working values: readings, or substitutes (R571, R575). -/
def workValues (s : State) : State :=
  let sub := fun i => if (sensorOf s i).broken || ownState s (uSensor i) == .bypassed then substituteOf s i else none
  let vals := (List.range 60).map (fun i => (i, sub i))
  vals.foldl (fun s e => setSensor e.1 (fun x => match e.2 with
    | some v => { x with working := BitVec.ofInt 16 v, subst := true }
    | none => { x with working := x.reading, subst := false }) s) s

/-- The effective value of a sensor (R570, R571). -/
def effectiveOf (s : State) (i : Nat) : Int := (sensorOf s i).working.toInt + (if i < 24 then 0 else 80)

/-- TG with its sensor, the first of the hottest; none with no sensor sampled. -/
def hottest (s : State) : Option (Nat × Int) :=
  ((List.range 60).filter (fun i => sensorIn s i && (sensorOf s i).valid)).foldl (fun a i => match a with
    | none => some (i, effectiveOf s i)
    | some (j, v) => if v < effectiveOf s i then some (i, effectiveOf s i) else some (j, v)) none

/-! ## The throttle (R578, R579, R581, R584) -/

/-- N in 1/8 °C. -/
def noticeLevel (s : State) : Int := 8 * (s.therm.notice.toNat : Int)

/-- TG as a signed number. -/
def tgNow (s : State) : Int := s.therm.tg.toInt

/-- The thermal DevLoad contributor (R61). -/
def setThermLoad (l : Nat) (s : State) : State := { s with write := { s.write with lvlTherm := BitVec.ofNat 2 l } }

/-- The thermal contributor judged on TG: Moderate from N on, left at 3 °C below N, whatever the throttle state (R61, R63). Severe comes with
THERMAL_HALF_GRACE. -/
def judgeThermLoad (s : State) : State :=
  if tgNow s ≤ noticeLevel s - 24 then setThermLoad 0 s
  else if noticeLevel s ≤ tgNow s ∧ s.write.lvlTherm = 0 then setThermLoad 2 s
  else s

/-- The throttle judged on TG; `tick` marks a 1 ms sample, which moves THERMCAP and the grace time. -/
def judgeThrottle (tick : Bool) (s : State) : State :=
  let n := noticeLevel s
  let tg := tgNow s
  let cap := s.tt.thermCap.toNat
  let cap' := if n ≤ tg then cap - 8 else if tg < n - 24 then min 64 (cap + 2) else cap
  let s := if tick then { s with tt := { s.tt with thermCap := BitVec.ofNat 7 cap' } } else s
  let s := setTherm (fun t => { t with graceMs := if n ≤ tg then (if tick then t.graceMs + 1 else t.graceMs) else 0 }) s
  let s := judgeThermLoad s
  match s.therm.throttle with
  | .none =>
    if n ≤ tg then
      event { code := 0x0504, unit := uSensor s.therm.tgSensor.toNat, p0 := s.therm.tg.toNat }
        (setTherm (fun t => { t with throttle := .notice, fNotice := true }) s)
    else s
  | .notice => if tg < n - 24 then setTherm (fun t => { t with throttle := .none }) s else s
  | .brake => s
  | .shutdown => s

/-- A sensor at the shutdown level in 3 samples in a row: the shutdown path with cause 2 (R581, R583). -/
def judgeShutdown (i : Nat) (s : State) : State :=
  let hot := sensorIn s i && (sensorOf s i).valid && decide (960 ≤ effectiveOf s i)
  let run := if hot then (sensorOf s i).hotRun + 1 else 0
  let s := setSensor i (fun x => { x with hotRun := run }) s
  if run < 3 ∨ s.therm.throttle = .shutdown then s
  else
    let r : ShutRec := { sensor := BitVec.ofNat 8 i, temp := BitVec.ofInt 16 (effectiveOf s i), ftime := s.time.ftime
                         hours := s.start.lifeHours, pcycle := s.start.pcycle }
    match s.power.seq with
    | .on => powerOff 2 (setTherm (fun t => { t with throttle := .shutdown, record := some r }) s)
    | .off => s
    | _ => powerOff 2 (setTherm (fun t => { t with throttle := .shutdown }) s)

/-- A sample judged: values, TG, throttle, shutdown level of the sensors it covers. -/
def judgeSample (tick : Bool) (covers : List Nat) (s : State) : State :=
  let s := workValues s
  let s := match hottest s with
    | some (i, v) => setTherm (fun t => { t with tg := BitVec.ofInt 16 v, tgSensor := BitVec.ofNat 6 i }) s
    | none => s
  covers.foldl (fun s i => judgeShutdown i s) (judgeThrottle tick s)

/-- A thermal alert: an immediate sample of the stack (R256, R570). -/
def alertSample (ch : Nat) (v : BitVec 16) (s : State) : State :=
  if !domainOn s 0 then s else judgeSample false [24 + ch] (takeReading (24 + ch) v s)

/-- The alerts that armed points 0x0017 bring with this sample. -/
def injectedAlerts (s : State) : State :=
  (s.evt.armed.filter (fun a => a.point.toNat == 0x0017 && !a.active)).foldl (fun s a =>
    alertSample (uIndex a.unit.toNat / 16) (BitVec.ofInt 16 (8 * (BitVec.ofNat 8 a.mask.toNat).toInt)) (fire 0x0017 a.unit.toNat s)) s

/-! ## The rows -/

/-- THERMAL_SAMPLE: the 1 ms sample of every sensor; `none` is a sensor without a valid reading (R570, R572). -/
def execThermalSample (readings : List (Option (BitVec 16))) (s : State) : Res :=
  let s := begin s
  if !domainOn s 0 then ran s
  else
    let s := (List.range 60).foldl (fun s i => match readings.getD i none with
      | some v => takeReading i v s
      | none => s) s
    ran (injectedAlerts (judgeSample true (List.range 60) (crossCheck s)))

/-- THERM_ALERT (R254, R256). -/
def execThermAlert (ch : Fin 32) (h : FrameHdr) (payload : BitVec 128) (s : State) : Res :=
  onEvent ch h payload (fun s => alertSample ch (BitVec.ofNat 16 (payParam payload)) s) s

/-- THERMAL_HALF_GRACE: the thermal contributor becomes Severe (R61). -/
def execThermalHalfGrace (s : State) : Res :=
  let s := begin s
  ran (if (s.therm.throttle = .notice ∨ s.therm.throttle = .brake) ∧ noticeLevel s ≤ tgNow s then setThermLoad 3 s else s)

/-- THERMAL_GRACE_EXPIRY: the throttle enters Brake (R578, R580). -/
def execThermalGraceExpiry (s : State) : Res :=
  let s := begin s
  if s.therm.throttle ≠ .notice ∨ tgNow s < noticeLevel s then ran s
  else
    ran (event { code := 0x0505, unit := uSensor s.therm.tgSensor.toNat, p0 := s.therm.tg.toNat }
      (setTherm (fun t => { t with throttle := .brake, bf := 8, fBrake := true }) s))

/-- BRAKE_FRACTION_STEP: every 10 ms in Brake (R578, R580). -/
def execBrakeFractionStep (s : State) : Res :=
  let s := begin s
  if s.therm.throttle ≠ .brake then ran s
  else
    let b := s.therm.bf.toNat
    let b' := if noticeLevel s ≤ tgNow s then max 2 (b - 1) else b + 1
    if b' < 16 then ran (setTherm (fun t => { t with bf := BitVec.ofNat 5 b' }) s)
    else
      let cool := decide (tgNow s < noticeLevel s - 24)
      if cool then ran (setThermLoad 0 (setTherm (fun t => { t with bf := 16, throttle := .none }) s))
      else
        ran (event { code := 0x0504, unit := uSensor s.therm.tgSensor.toNat, p0 := s.therm.tg.toNat }
          (setTherm (fun t => { t with bf := 16, throttle := .notice, fNotice := true }) s))

/-- SENSOR_READING_TIMEOUT: a media or HBM sensor without a valid reading for 16 ms (R575). -/
def execSensorReadingTimeout (i : Fin 64) (s : State) : Res :=
  let s := begin s
  if i.val < 24 ∨ 60 ≤ i.val ∨ !domainOn s 0 ∨ !sensorIn s i ∨ (sensorOf s i).broken then ran s
  else
    let s := setSensor i (fun x => { x with broken := true }) s
    ran (sensorBreaks i ((substituteOf s i).getD 0) s)

end Sys2Proof.Machine
end

