-- ==== Sys2Proof/Machine/Timetable.lean ====
section
/-! DEFINITION. The stage boundary and everything placed on it (R413 to R431), and the other periodic rows: the points of A(t), the
HBM remap's end, the Waybill's timer and the leak of the correctable error buckets. -/

namespace Sys2Proof.Machine

/-! ## Planned removals (R252, R420, R472) -/

/-- Whether a channel, die or bank of a band member is missing already. -/
def alreadyOut (s : State) (ch die bank : Nat) : Bool := placeOut s ch die bank || inTraining s ch

/-- The places (channel, die, bank) whose going a removal's unit takes from one dense group: none for a bank 7. -/
def removalWeight (s : State) (u g : Nat) : Nat :=
  let d := g / 8
  let k := g % 8
  let slots := (List.range 16).filter (fun x => x % (nChannels s / 2) == d)
  let out := fun ch die => if alreadyOut s ch die k then 0 else 1
  let chan := fun ch => (slots.map (out ch)).sum
  if uClass u = 2 then chan (uIndex u)
  else if uClass u = 3 then
    if slots.contains (uIndex u % 16) then out (uIndex u / 16) (uIndex u % 16) else 0
  else if uClass u = 4 then
    if uIndex u % 8 = k ∧ slots.contains (uIndex u / 8 % 16) then out (uIndex u / 128) (uIndex u / 8 % 16) else 0
  else if uClass u = 8 then
    (((List.range (nChannels s)).filter (fun c => (stackRails s c).contains (uIndex u))).map chan).sum
  else 0

/-- The dense groups a removal touches. -/
def removalGroups (s : State) (u : Nat) : List Nat := (denseGroups s).filter (fun g => 0 < removalWeight s u g)

/-- The admission test of R420. -/
def removalAdmits (s : State) (u : Nat) : Bool :=
  (removalGroups s u).all (fun g => Nat.ble (groupM s g + removalWeight s u g) 3)

/-- Whether a planned removal of a unit could never be admitted: it alone counts four or more members in some group (R472). -/
def neverAdmits (s : State) (u : Nat) : Bool := (denseGroups s).any (fun g => Nat.ble 4 (removalWeight s u g))

/-- A rail out of service: ENr driven low, and the units it feeds, in service before the rail left, Absent with it (R471). -/
def railLeaves (r : Nat) (st : UState) (s : State) : State :=
  let olds := (railUnits s r).map (fun u => (u, ownState s u))
  unitsAbsent olds (disableRail r (setUnit (uRail r) st 1 false s))

/-- A removal admitted at an earlier boundary: the unit leaves service now (R420). -/
def removalLeaves (x : Removal) (s : State) : State :=
  let u := x.unit.toNat
  let drop := fun s : State => { s with tt := { s.tt with removals := s.tt.removals.filter (fun y => !(y.unit == x.unit && y.job == x.job)) } }
  match x.job with
  | none => startTraining (uIndex u) (endWindows (uIndex u) (fun _ _ => true) (dropWork (uIndex u) (fun _ _ => true) (drop s)))
  | some id =>
    match s.unit.running.find? (fun j => j.id == id) with
    | none => drop s
    | some j =>
      let s := drop s
      let gone := fun st (s : State) =>
        if uClass u = 8 then railLeaves (uIndex u) st s else mediaLoss u (st != .bypassed) (setUnit u st 1 false s)
      match j.kind with
      | .unitBypass _ => endJob id 0 (gone .bypassed s)
      | .unitRetire _ => endJob id 0 (gone .retired s)
      | _ => endJob id 0 (gone .isolated s)

/-- The open bands with a member on a unit whose removal is admitted, abandoned before any commit record (R420). -/
def abandonCovered (u : Nat) (s : State) : State :=
  (s.mm.batches.filter (fun f => f.band < 2 ^ 20 && (liveOf (bandOf s f.band)).any (fun m =>
    removalCovers s u (memberAt s f.band m).1 (memberAt s f.band m).2 (bandBank f.band)))).foldl (fun s f =>
    match openTarget s f.band with
    | some f => abandonBatch f 5 none s
    | none => s) s

/-- The removals that wait judged in order: one that touches a group of an earlier one still pending is judged at a later boundary
(R421). A removal held past its first boundary is counted once (R430). -/
def judgeRemovals : List Removal → List Nat → State → State
  | [], _, s => s
  | x :: l, taken, s =>
    let u := x.unit.toNat
    let gs := removalGroups s u
    if x.admitted then judgeRemovals l (gs ++ taken) s
    else
      let ok := !gs.any (fun g => taken.contains g) && removalAdmits s u
      let upd := fun (f : Removal → Removal) (s : State) => { s with tt := { s.tt with
        removals := s.tt.removals.map (fun y => if y.unit == x.unit && y.job == x.job then f y else y) } }
      let wait := fun (s : State) => if x.job.isNone then setCart (uIndex u) (fun c => { c with retrainWait := false }) s else s
      let s := if ok then abandonCovered u (wait (upd (fun y => { y with admitted := true }) s))
        else if x.held then s
        else
          let s := upd (fun y => { y with held := true }) s
          { s with tt := { s.tt with waited := satInc s.tt.waited } }
      judgeRemovals l (gs ++ taken) s

/-- The planned removals of a boundary: those admitted before leave service, and the rails whose group names no media channel, with no
admission test (R472); the others are judged. -/
def placeRemovals (s : State) : State :=
  let s := (s.tt.removals.filter (fun x => x.admitted)).foldl (fun s x => removalLeaves x s) s
  let plain := s.tt.removals.filter (fun x => uClass x.unit.toNat == 8 && 
    (List.range (nChannels s)).all (fun c => !(stackRails s c).contains (uIndex x.unit.toNat)))
  let s := plain.foldl (fun s x => removalLeaves x s) s
  judgeRemovals s.tt.removals [] s

/-! ## Allotments (R416, R422, R426, R428) -/

/-- W(g) of every dense group; an open band of a group with none is abandoned (R416, R421). -/
def setWindows (s : State) : State :=
  let w := (denseGroups s).map (fun g => (g, windowsFor (groupM s g)))
  let m : SMap Nat := w.foldl (fun m e => sset 0 m e.1 e.2) []
  let s := { s with tt := { s.tt with groupW := m } }
  (s.mm.batches.filter (fun f => f.band < 2 ^ 20 ∧ sget 0 m (bandGroup f.band) = 0)).foldl (fun s f =>
    match liveBatch s f.band with
    | some f => abandonBatch f 4 none s
    | none => s) s

/-- A of the stage (R422). -/
def setAllotment (s : State) : State :=
  { s with tt := { s.tt with
    current := if s.power.seq = .shuttingDown then 0
      else BitVec.ofNat 7 (max s.tt.bgFloor.toNat (min s.tt.bgMax.toNat s.tt.thermCap.toNat)) } }

/-- The default map's entry of a stage of a cycle (R426, R428): lead, no-lead mark, heavy mask. -/
def defaultEntry (s : State) (cycle stage : Nat) : BitVec 32 :=
  let n := spanN s
  if n = 0 then 0x80
  else
    let lead := (64 * cycle + stage) % n
    let led := memberUp s lead
    let mask := (List.range n).foldl (fun a r => if memberUp s r ∧ !(led && r == lead) then a + 2 ^ r else a) 0
    BitVec.ofNat 32 ((if led then lead else 0x80) + 2 ^ 16 * mask)

/-- The map of a stage put into effect: a received one that applies, else the default one (R428). -/
def setMap (s : State) : State :=
  let c := cycleNow s
  let i := s.tt.stage % 64
  let got := s.tt.maps.find? (fun m => m.cycle.toNat == c && some m.sgen == (s.span.desc.map (fun d => d.sgen)) &&
    decide (m.arrived.toNat < 16000000 * (c - 1)))
  let e := match got with
    | some m => m.entries.getD i 0x80
    | none => defaultEntry s c i
  { s with
    tt := { s.tt with
      lead := e.extractLsb' 0 4, noLead := e.getLsbD 7, heavy := e.extractLsb' 16 16, mapSrc := got.isSome
      maps := s.tt.maps.filter (fun m => Nat.ble c m.cycle.toNat) } }

/-! ## What the span sends (R382, R414, R428) -/

/-- Whether the device takes part in its span now. -/
def spanActive (s : State) : Bool :=
  s.span.desc.isSome && Nat.ble 8 s.start.phase.toNat && !s.host.unhitched && (peerOf s (ownIndex s)).st != 0

/-- HEARTBEAT to every other member, but for a peer on which point 0x0011 runs (R382, R517). -/
def heartbeats (s : State) : State :=
  if !spanActive s then s
  else
    (otherMembers s).foldl (fun s r =>
      let u := uPeer (memberPool s r)
      let s := if isArmed s 0x0011 u then fireStart 0x0011 u s else s
      if (activePoint s 0x0011 u).isSome then s
      else
        let own := (peerOf s (ownIndex s)).st
        let adm := (s.span.holdings.filter (fun h => h.member == r)).map (fun h => h.lfn)
        peerSend r (.heartbeat own (BitVec.ofNat 2 (timeCode s.time.mode)) (BitVec.ofNat 32 (boundUs s))
          (liveRecords s (wardPool s r)) adm s.fw.activating) s) s

/-- TIMETABLE from the keeper at stage index 32, with the default map of cycle C + 2 (R414, R428). -/
def sendTimetable (s : State) : State :=
  if !spanActive s ∨ keeper s ≠ some (ownIndex s) then s
  else
    match s.span.desc with
    | none => s
    | some d =>
      let c := cycleNow s + 2
      let es := (List.range 64).map (defaultEntry s c)
      (otherMembers s).foldl (fun s r => peerSend r (.timetable c d.sgen es) s) s

/-! ## The cycle: age, calibration, channel upkeep (R252, R301, R306, R414, R529) -/

/-- A(t) of every channel advanced by one cycle at its stack sensor's temperature (R301). -/
def ageChannels (s : State) : State :=
  (List.range (nChannels s)).foldl (fun s c =>
    { s with mm := { s.mm with ati := sset 0 s.mm.ati c (sget 0 s.mm.ati c + atiGrowth (sensorOf s (24 + c)).working) } }) s

/-- The calibration overlay that applies from this cycle on (R529); no overlay without its header (R525). -/
def latchOverlay (s : State) : State :=
  let m := s.sb.cells
  match ringPayload m 0x30 0 with
  | none => { s with mm := { s.mm with calClear := 0, overlay := [] } }
  | some h =>
    { s with mm := { s.mm with
      calClear := BitVec.ofNat 48 (field h 0 6)
      overlay := (List.range 512).filterMap (fun d => (ringPayload m 0x31 d).map (fun p => (d, p))) } }

/-- One threshold of a die sampled, from the reference line read at shifts −4, 0 and +4 (R306): the samples in a row in which each side gave
fewer wrong cells than the center are kept, and S_k moves by 1 toward the side that reaches 8; toward the one with fewer where both do, the
lower where they are equal (DESIGN CHOICE, log entry 100). -/
def sampleThreshold (die k : Nat) (lo mid hi : MediaLine) (s : State) : Bool × State :=
  let wrong := fun raw => Config.wrongCells raw (driftLine 3) k
  let key := 8 * die + k
  let old := sget (0, 0) s.mm.skRun key
  let runs := (if wrong lo < wrong mid then old.1 + 1 else 0, if wrong hi < wrong mid then old.2 + 1 else 0)
  let put := fun (e : Nat × Nat) (s : State) => { s with mm := { s.mm with skRun := sset (0, 0) s.mm.skRun key e } }
  if runs.1 < 8 ∧ runs.2 < 8 then (false, put runs s)
  else
    let w := sget (0 : BitVec 64) s.mm.sk die
    let now := (w.extractLsb' (8 * k) 8).toInt
    let down := decide (8 ≤ runs.1) && (decide (runs.2 < 8) || decide (wrong lo ≤ wrong hi))
    let next := sat127 (if down then now - 1 else now + 1)
    let b := (BitVec.ofInt 8 next).toNat
    let w' := BitVec.ofNat 64 (w.toNat - (w.extractLsb' (8 * k) 8).toNat * 2 ^ (8 * k) + b * 2 ^ (8 * k))
    (true, put (0, 0) { s with mm := { s.mm with sk := sset 0 s.mm.sk die w' } })

/-- The next live band with a member on a die, in round-robin order by band number (R306). -/
def nextSampled (s : State) (ch d : Nat) : Option Nat :=
  let bs := (liveBands s).filter (fun b => (liveOf (bandOf s b)).any (fun m => memberAt s b m == (ch, d)))
  let last := sfind s.mm.calAt (dieKey ch d)
  (bs.find? (fun b => match last with | some l => Nat.blt l b | none => true)).orElse (fun _ => bs.head?)

/-- The calibration samples of a cycle: on each Ready die, one reference line of the next live band read at three references, the thresholds
T1 to T7 judged; slots reloaded where a correction moved (R303, R306). A dense band has no TF, so S_F is not sampled. -/
def sampleCalibration (s : State) : State :=
  (List.range (nChannels s)).foldl (fun s ch => (List.range 16).foldl (fun s d =>
    match (if !(cartOf s ch).diesReady.getLsbD d ∨ ownState s (uDie (dieKey ch d)) ≠ .ready then none else nextSampled s ch d) with
    | none => s
    | some b =>
      let (lo, s) := readReference { s with mm := { s.mm with calAt := sput s.mm.calAt (dieKey ch d) b } }
      let (mid, s) := readReference s
      let (hi, s) := readReference s
      let r := (List.range 7).foldl (fun a k =>
        let x := sampleThreshold (dieKey ch d) k lo mid hi a.2
        (a.1 || x.1, x.2)) (false, s)
      if r.1 then loadRefs ch d r.2 else r.2) s) s

/-- The upkeep of the channels in a cycle: RDPAT, STATUS and TEMP (R252, R255). -/
def maintainChannels (s : State) : State :=
  (List.range (nChannels s)).foldl (fun s ch =>
    if !(cartOf s ch).trained ∨ !chanWorks s ch then s
    else
      let s := askRaw ch 0x43 0 0 5 s
      (List.range 16).foldl (fun s d =>
        if (cartOf s ch).diesReady.getLsbD d then askRaw ch 0x32 d 0 2 (askRaw ch 0x31 d 0 1 s) else s) s) s

/-- What happens at stage index 0. -/
def cycleStart (s : State) : State :=
  let s := latchOverlay (ageChannels s)
  let s := maintainChannels (sampleCalibration s)
  let (v, s) := drawBits 32 s
  { s with unit := { s.unit with skewNs := v }, span := { s.span with bulkSent := 0, dataSent := [] } }

/-! ## Background work of a stage (R173, R423, R424) -/

/-- Whether a line is drained ahead of the others: one of the stash (R201), or of a fenced bucket (R215). -/
def drainsFirst (s : State) (lln : Nat) : Bool :=
  match sfind s.cache.dirty lln with
  | some d => (match d.bucket with | none => true | some b => bucketFenced s b)
  | none => false

/-- The dirty lines that stand in the caches and are not on their way: those that go first, then by age. -/
def oldestDirty (s : State) : List Nat :=
  let near := (ncDirty s).filterMap (fun l => ((ncWays s l).head?).map (fun k => (l, (ncWay s k).since)))
  let bulk := (s.cache.dirty.filter (fun e => !e.2.draining && !near.any (fun n => n.1 == e.1))).map (fun e => (e.1, e.2.since))
  let l := ((near ++ bulk).mergeSort (fun a b => Nat.ble a.2.toNat b.2.toNat)).map (fun e => e.1)
  l.filter (drainsFirst s) ++ l.filter (fun x => !drainsFirst s x)

/-- The drain intensity of R173: 0, 1 or 2, by the higher of the two fills. -/
def drainIntensity (s : State) : Nat :=
  let lvl := fun a b => if 4 * a < 2 * b then 0 else if 4 * a < 3 * b then 1 else 2
  max (lvl (occupancy s) (budgetLines s)) (lvl (patchFill s) (patchCap s))

/-- The drain of a stage: the lines a flush command waits for; the victims the Bulk Cache needs, which are the lines of its stash and of
fenced buckets, outside the allotment (R173, R201, R215, R423); every line in write-through mode or at full intensity; at middle intensity
as many of the oldest lines as the allotment has room for, a number this model leaves free since bus time is not kept. -/
def drainStage (s : State) : State :=
  let asked := s.unit.running.flatMap (fun j => match j.kind with | .flush ls _ _ => ls | _ => [])
  let s := asked.foldl (fun s l => drainLine l true s) s
  let s := ((oldestDirty s).filter (drainsFirst s)).foldl (fun s l => drainLine l false s) s
  if s.write.through ∨ drainIntensity s = 2 then (oldestDirty s).foldl (fun s l => drainLine l true s) s
  else if drainIntensity s = 0 ∨ s.tt.current = 0 then s
  else
    let (n, s) := drawBits 16 s
    ((oldestDirty s).take n.toNat).foldl (fun s l => drainLine l true s) s

/-! ### The HBM scrub (R211 to R213) -/

/-- One damaged unit met by the scrub: corrected, or handled as an access would. A Frame Table image entry that cannot be corrected is
written again from the entry, while that is good, and a frame's summary from the index it sums up. -/
def scrubUnit (u : HbmUnit) (s : State) : State :=
  match u with
  | .slotLine l => (slotRead l s).2
  | .slotTag l => (slotRead l s).2
  | .slotCopy l => let (bad, s) := hbmMeet u s; if bad then hbmWrite (.slotCopy l) s else s
  | .pageLine l => (pageRead l s).2
  | .pageTag k => let (bad, s) := hbmMeet u s; if bad then pageDrop k s else s
  | .residency f => residencyMeet f s
  | .summary f =>
    let (bad, s) := hbmMeet u s
    if bad then hbmWrite (.summary f) s else s
  | .image f =>
    let (bad, s) := hbmMeet u s
    if !bad then s else if sget FtErr.none s.xlat.ftErr f = .none then hbmWrite (.image f) s else (entryLost f s).2
  | .index k =>
    let (bad, s) := hbmMeet u s
    if bad then { s with xlat := { s.xlat with pi := smod piNone s.xlat.pi k (fun e => { e with checkBad := true }) } } else s

/-- The pass over every HBM location, ended at the last boundary within 12 h of the one before. Its reads go by in one step (log entry
82). -/
def hbmScrub (s : State) : State :=
  if s.time.ftime.toNat + 250000 < s.cache.hbmScrub.toNat + 43200000000000 then s
  else (s.cache.hbmErr.map HbmErr.unit).foldl (fun s u => scrubUnit u s) { s with cache := { s.cache with hbmScrub := s.time.ftime } }

/-- Residency entries that could not be corrected are counted again (R212). -/
def recount (s : State) : State := { s with cache := { s.cache with frtBad := [] } }

/-- The background work placed at a boundary. -/
def backgroundWork (s : State) : State :=
  let s := drainStage (logPressure (hbmScrub (recount s)))
  let s := reclaim (refold (resettle s))
  let s := beyond (unstage (stage (lostCopiesDue s)))
  let s := openFull (placeDemotions (placeMoves s))
  let s := runMoves (issueClears s)
  let s := (s.span.wards.map (fun w => w.pool)).foldl (fun s p => compactForeign p s) s
  let s := scrubFrames (issueScrub s)
  let s := isolateDrained s
  let s := pruneSteps (if s.mm.imageRun.isSome then imageEnd s else s)
  let s := if s.xlat.rescanPass = [] then { s with xlat := { s.xlat with rescanPass := s.xlat.rescanMarks, rescanMarks := [] } } else s
  let s := mendFlushSets (applyBudget s)
  (s.mm.batches.map (fun f => f.band)).foldl (fun s b => advanceBatch b s) s

/-- The span's work placed at a boundary. -/
def spanWork (s : State) : State :=
  if s.span.desc.isNone then s
  else
    let s := s.span.reseedDue.foldl (fun s i => reseed i false s) s
    let s := (otherMembers s).foldl (fun s r => peerFlush r s) (sendWithheld s)
    let s := rebuildPoll (rebuildStart s)
    swkAdvance (outriderFill (remountAdvance (joinAdvance s)))

/-- The offsets that failed a first decode, forgotten as a scrub period ends: periods lie one after another from FTIME 0 (R324; DESIGN
CHOICE, log entry 29). -/
def ageCounts (old n : Nat) (s : State) : State :=
  let p := 14400000 * max 1 s.mm.scrubD.toNat
  if n / p = old / p then s else { s with lp := { s.lp with blockFails := [] } }

/-- Whether a copy of a fast set in use lies on a channel. -/
def holdsCopy (s : State) (ch : Nat) : Bool :=
  s.xlat.fst.any (fun e => fsUse e.2 != useFree && ((fastPlace s e.1 0 0).1 == ch || (fastPlace s e.1 1 0).1 == ch))

/-- Channels that hold no member of a live or open band and no copy of a set in use (R467). -/
def idleEligible (s : State) (ch : Nat) : Bool :=
  !holdsCopy s ch && !(heldBands s).any (fun b => ((bandOf s b).cls == .open_ || liveCount s b != 0) &&
      (liveOf (bandOf s b)).any (fun m => (memberAt s b m).1 == ch))

/-- An online activation that waits for the stage in which this member leads, while no other member reports one and FTIME is not in local
free-run (R399, R427). -/
def activateLead (s : State) : State :=
  if s.fw.activateDue && !noSync s && !s.tt.noLead && s.tt.lead.toNat == ownIndex s && !(otherMembers s).any (fun r => (peerOf s r).activating) then
    warmReset { s with fw := { s.fw with activateDue := false, activating := true } }
  else s

/-! ## The boundary -/

/-- FTIME at the boundary that the command brings: the next multiple of 250,000 ns, or the present one when it has not been taken. -/
def boundaryTime (s : State) : BitVec 64 :=
  let t := s.time.ftime.toNat
  if t % 250000 = 0 ∧ t / 250000 ≠ s.tt.stage then s.time.ftime else BitVec.ofNat 64 ((t / 250000 + 1) * 250000)

/-- STAGE_BOUNDARY: the boundary's events in the order of R414, each once however many boundaries a step skipped (R415). -/
def execStageBoundary (s : State) : Res :=
  let s := begin s
  if !s.start.sillUp then ran s
  else
    let s := takeSources (lfsrRun ((boundaryTime s).toNat - s.time.ftime.toNat) (advanceFtime (boundaryTime s) s))
    let old := s.tt.stage
    let n := s.time.ftime.toNat / 250000
    let due := fun p => decide (n / p ≠ old / p)
    let s := setAllotment { s with tt := { s.tt with stage := n } }
    if s.power.seq ≠ .on then ran s
    else
      let s := abandonMissing (setWindows (placeRemovals (activateLead (setMap s))))
      let s := if due 64 then cycleStart s else s
      let s := if due 4 then heartbeats s else s
      let s := if due 240000 then closeHotWindow s else s
      let s := if (n + 32) / 64 ≠ (old + 32) / 64 then sendTimetable s else s
      let s := ageCounts old n s
      let s := if 7 ≤ s.start.phase.toNat then spanWork (backgroundWork s) else s
      let s := rejoinAdvance (replayStep (lowerAdvance (pollWork s)))
      let s := { s with write := { s.write with pacing := s.write.pacing && !budgetRoom s } }
      ran (mediaNext (updLoad s))

/-! ## Saved points of A(t) (R301, R306, R530) -/

/-- The payload of a point of A(t). -/
def atiPayload (s : State) : List Byte :=
  bytesOf 8 s.time.ftime.toNat ++ (List.range 32).flatMap (fun c => bytesOf 6 (sget 0 s.mm.ati c / 65536))

/-- The payload of SCAL record i. -/
def scalPayload (s : State) (i : Nat) : List Byte :=
  (List.range 30).flatMap (fun j => if 30 * i + j < 512 then bytesOf 8 (sget (0 : BitVec 64) s.mm.sk (30 * i + j)).toNat else List.replicate 8 0)

/-- ATI_HOUR_POINT: A(t) and the sampling corrections saved; every 24th point also as ATI_DAY. 192 hours and 367 days are kept. -/
def execAtiHourPoint (s : State) : Res :=
  let s := begin s
  if !s.start.sillUp ∨ s.start.phase.toNat < 5 then ran s
  else
    let p := atiPayload s
    let point := (s.time.ftime, (List.range 32).filterMap (fun c => let v := sget 0 s.mm.ati c / 65536; if v = 0 then none else some (c, v)))
    let keep := fun (n : Nat) (l : List (BitVec 64 × SMap Nat)) => l.drop (l.length - n)
    let count := s.mm.atiCount + 1
    let day := decide (count % 24 = 0)
    let s := { s with mm := { s.mm with
      atiCount := count, atiHours := keep 192 (s.mm.atiHours ++ [point])
      atiDays := if day then keep 367 (s.mm.atiDays ++ [point]) else s.mm.atiDays } }
    let s := sbEnqueue s (.ring 0x61 0 p)
    let s := if day then sbEnqueue s (.ring 0x62 0 p) else s
    ran ((List.range 18).foldl (fun s i => sbEnqueue s (.ring 0x63 i (scalPayload s i))) s)

/-! ## The HBM remap (R214, R215) -/

/-- The payload of HBMREMAP record i. -/
def remapPayload (s : State) (i : Nat) : List Byte :=
  (List.range 80).flatMap (fun k =>
    let e := sget ({} : RemapEnt) s.cache.remap (80 * i + k)
    if e.valid ∧ 80 * i + k < 1024 then bytesOf 3 (e.block.toNat + 2 ^ 23) else [0, 0, 0])

/-- The copy of a block of an HBM channel ended; its entry `i` of the channel's remap table written; and a block fenced for want of
a free entry (R214). -/
def dropCopy (c : Nat × Nat) (s : State) : State :=
  { s with cache := { s.cache with remapCopies := s.cache.remapCopies.erase c } }
def remapTo (i block : Nat) (s : State) : State :=
  let ent : RemapEnt := { valid := true, block := BitVec.ofNat 20 block }
  { s with cache := { s.cache with remap := sput s.cache.remap i ent } }
/-- What a block's copy corrects on its way to the spare, each correction counted; the block's own count starts anew (R211, R214). -/
def copyCorrects (c : Nat × Nat) (s : State) : State :=
  let us := (s.cache.hbmErr.filter (fun e => !e.uncorrectable && unitPlace s e.unit == some c)).map HbmErr.unit
  us.foldl (fun s u => hbmWrite u (ceError 1 c.1 s))
    { s with cache := { s.cache with corrections := sdel s.cache.corrections (2 ^ 20 * c.1 + c.2) } }

/-- Whether a block holds pages of the page array, or lines, tags or tag copies of buckets (R215, R675). -/
def blockFences (s : State) (c : Nat × Nat) : Bool :=
  (List.range s.cache.nPages).any (fun k => hbmPlace s (8 * k + 3) == c) ||
    (List.range s.cache.nBuckets).any (fun b => hbmPlace s (8 * b) == c || hbmPlace s (8 * b + 1) == c || copyPlace s b == c)

/-- A block fenced: its pages are dropped and never allocated, its buckets take no new line (R215). -/
def fenceBlock (c : Nat × Nat) (s : State) : State :=
  let s := { s with cache := { s.cache with fenced := s.cache.fenced ++ [c] } }
  ((s.cache.pages.map (fun e => e.1)).filter (wayFenced s)).foldl (fun s k => pageDrop k s) s

/-- HBM_REMAP_COPY_END: the block's copy to the channel's next free spare is done, and the entry is committed and saved. A failing
block of a channel whose table is full is fenced where it holds pages or buckets, else its stack reports Degraded; where a region lies is
not specified (R675) and is free. Reads that waited for the block go on. -/
def execHbmRemapCopyEnd (hch : Fin 64) (s : State) : Res :=
  let s := begin s
  match s.cache.remapCopies.find? (fun c => c.1 == hch.val) with
  | none => ran s
  | some c =>
    let s := dropCopy c s
    match (List.range 16).find? (fun i => !(sget ({} : RemapEnt) s.cache.remap (16 * hch.val + i)).valid) with
    | some i =>
      let s := event { code := 0x0902, unit := uHbm (hch.val / 16), p0 := hch.val, p1 := c.2 } (remapTo (16 * hch.val + i) c.2 (copyCorrects c s))
      ran (mediaNext (hbmRetry (sbEnqueue s (.ring 0x67 (hch.val / 5) (remapPayload s (hch.val / 5))))))
    | none =>
      let s := event { code := 0x0902, unit := uHbm (hch.val / 16), p0 := hch.val, p1 := c.2, repl := true } s
      if blockFences s c then ran (mediaNext (hbmRetry (fenceBlock c s)))
      else ran (mediaNext (hbmRetry (setUnit (uHbm (hch.val / 16)) .degraded 4 true s)))

/-! ## The Waybill's timer and the leak (R503, R514) -/

/-- WAYBILL_FLUSH_TIMER. -/
def execWaybillFlushTimer (s : State) : Res :=
  let s := begin s
  ran (if s.start.sillUp then wbFlush s else s)

/-- CE_LEAK_STEP. -/
def execCeLeakStep (s : State) : Res :=
  let s := begin s
  ran (if s.start.sillUp then ceLeak s else s)

end Sys2Proof.Machine
end

