-- ==== Sys2Proof/Machine/Operands.lean ====
section
/-! DEFINITION. The operand forms of the command interface: which path reaches the device, the LD and frame fields of a command, the
order in which a vendor command is checked, and its answer (R432 to R443, R449, R450). -/

namespace Sys2Proof.Machine

/-! ## Paths (R432 to R436) -/

/-- Commands are executed by controller firmware while the main domains are up and phase 3 has ended (R436, R592). -/
def cmdUp (s : State) : Bool := s.host.mailboxReady

/-- Whether two callers share their mailboxes: an SLD function's are its LD's and its FM mailboxes (R432). -/
def samePath (s : State) : Caller → Caller → Bool
  | .host p l, .host q m => p == q && l == m
  | .host p _, .fm q | .fm p, .host q _ => p == q && !(portOf s p).mld
  | .fm p, .fm q => p == q
  | .sideband, .sideband => true
  | _, _ => false

/-- The commands a caller's path holds at once: one for each of its mailboxes, 4 on the sideband (R432, R433). -/
def pathHolds (s : State) : Caller → Nat
  | .host p _ => if (portOf s p).mld then 1 else 2
  | .fm _ => 2
  | .sideband => 4

/-- Whether a path holds all the commands it can: those that have no answer yet are the releases that wait (R49, R433). -/
def pathFull (s : State) (c : Caller) : Bool :=
  Nat.ble (pathHolds s c) (s.host.lds.foldl (fun a d => a + d.heldRelease.countP (fun h => samePath s c h.1)) 0)

/-- Whether a caller's path reaches the device now: a mailbox that holds no command, of a port whose link is up and whose firmware runs
(the doorbell of a full one is set, and what is written to it does nothing, R433), or the sideband while the Sill runs. -/
def reach (s : State) (c : Caller) : Bool :=
  match c with
  | .host p l => cmdUp s && (portOf s p).up && ldExists s (ldIx p l) && !pathFull s c
  | .fm p => cmdUp s && (portOf s p).up && !pathFull s c
  | .sideband => s.start.sillUp

/-- Whether a caller is a mailbox. -/
def isMailbox : Caller → Bool
  | .sideband => false
  | _ => true

/-- Whether a path answers Busy: a mailbox while the management complex restarts (R458), the sideband on a fifth request (R433). -/
def turnsAway (s : State) (c : Caller) : Bool := if isMailbox c then s.host.mgmtReset else pathFull s c

/-- Whether a caller uses an FM mailbox: the mailboxes of LD 0xFFFF, or of an SLD function (R432). -/
def isFm (s : State) : Caller → Bool
  | .host p _ => !(portOf s p).mld
  | .fm _ => true
  | .sideband => false

/-- Whether a caller is a host LD mailbox. -/
def isHostLd (s : State) (c : Caller) : Bool := isMailbox c && !isFm s c

/-- The largest payload of a path (R432). -/
def payloadMax : Caller → Nat
  | .sideband => 4096
  | _ => 65536

/-! ## The LD of a command (R442) -/

/-- The LD index a byte names for a caller: 0xFF its own LD, else an index that a host LD may use only for itself. -/
def ldNamed (s : State) (c : Caller) (b : Nat) : Option Nat :=
  if b = 255 then callerLd s c
  else if 63 < b then none
  else if isHostLd s c ∧ callerLd s c ≠ some b then none
  else some b

/-- The frame input of R450. -/
structure FrameIn where
  ld : Nat
  op : Nat
  first : Nat
  count : Nat
  deriving DecidableEq, Repr

/-- The fields of a frame input. -/
def frameIn (inp : List Byte) : FrameIn :=
  { ld := field inp 0 1, op := field inp 1 1, first := field inp 4 4, count := field inp 8 4 }

/-- The fixed fields of a frame input, offset and size. -/
def frameFields : List (Nat × Nat) := [(0, 1), (1, 1), (2, 2), (4, 4), (8, 4)]

/-! ## Answers of a vendor command (R437, R439, R440) -/

/-- An answer: MSTAT, JOB, and the output from byte 4. -/
structure VAns where
  mstat : Nat
  job : Nat := 0
  out : List Byte := []
  deriving DecidableEq, Repr

def vDone (out : List Byte) : VAns := { mstat := 0, out := out }
def vState (report : List Byte) : VAns := { mstat := 0x0101, out := report }
def vBusy (job : Nat) : VAns := { mstat := 0x0102, job := job }
def vProtected : VAns := { mstat := 0x0103 }
def vDown (u : Nat) : VAns := { mstat := 0x0104, out := bytesOf 4 u }
def vRange (off : Nat) : VAns := { mstat := 0x0201, out := bytesOf 2 off }
def vUnknownUnit (u : Nat) : VAns := { mstat := 0x0202, out := bytesOf 4 u }
def vUnknownOpcode : VAns := { mstat := 0x0203 }
def vAbandoned : VAns := { mstat := 0x0302 }

/-- What a vendor opcode is: who may send it, its protection lock, its fixed input fields, its longest output (R437, R443). -/
structure VSpec where
  op : Nat
  host : Bool
  star : Bool
  lock : Bool := false
  span : Bool := false
  fields : List (Nat × Nat) := []
  outLen : Nat := 0
  deriving DecidableEq, Repr

/-- The first fixed field that the input does not hold whole. -/
def shortField (fields : List (Nat × Nat)) (inp : List Byte) : Option Nat :=
  (fields.find? (fun f => decide (inp.length < f.1 + f.2))).map (fun f => f.1)

/-- The first answer among the checks that apply. -/
def firstOf (l : List (Option VAns)) : Option VAns := l.findSome? id

/-- A check: the answer when the condition holds. -/
def chk (b : Bool) (a : VAns) : Option VAns := if b then some a else none

/-- The output payload of an answer: undefined bytes of a full output read 0 (R437). -/
def vPayload (v : VSpec) (a : VAns) : List Byte :=
  bytesOf 2 a.mstat ++ bytesOf 2 a.job ++ (if a.mstat ≤ 1 then padTo (max v.outLen a.out.length) a.out else a.out)

/-- A vendor command judged in the order of R439: its opcode, its protection, `early` for RANGE and UNKNOWN_UNIT, the main domains,
`late` for UNIT_DOWN, STATE and BUSY_UNIT. -/
def vJudge (v : VSpec) (c : Caller) (inp : List Byte) (early late : State → Option VAns) (s : State) : Option VAns :=
  firstOf [
    chk (v.span && !hasSpan s) vUnknownOpcode,
    chk ((isHostLd s c && !v.host) || (v.lock && Nat.ble 1 s.sec.pl.toNat)) vProtected,
    (shortField v.fields inp).map vRange,
    early s,
    chk (!cmdUp s && !v.star) (vDown 0),
    late s]

/-- A vendor command from its arrival to its answer: `act` executes it, `after` is what follows its answer. -/
def onVendor (v : VSpec) (c : Caller) (inp : List Byte) (early late : State → Option VAns) (act : State → VAns × State)
    (after : State → State) (s : State) : Res :=
  let s := begin s
  if !reach s c then ran s
  else if turnsAway s c then ran (send s (.vendor c .busy []))
  else if payloadMax c < inp.length then ran (send s (.vendor c .invalidPayloadLength []))
  else
    match vJudge v c inp early late s with
    | some a => ran (send s (.vendor c .success (vPayload v a)))
    | none =>
      let r := act s
      let s := send r.2 (.vendor c .success (vPayload v r.1))
      ran (if r.1.mstat ≤ 1 then after s else s)

/-- No check of a kind. -/
def noCheck (_ : State) : Option VAns := none

/-- An action that only answers. -/
def vQuery (f : State → List Byte) (s : State) : VAns × State := (vDone (f s), s)

/-- A job started and answered with STARTED, or refused at the limit of 64 jobs (R440, R444). -/
def vStart (op : Nat) (c : Caller) (k : JobKind) (s : State) : VAns × State :=
  if 64 ≤ s.unit.running.length then (vBusy 0, s)
  else
    let r := startJob op c k s
    ({ mstat := 1, job := r.1.toNat }, r.2)

/-- An action with Strongbox writes: DONE with its effect once the group has run, else ABANDONED with none (R440, R532). -/
def vWrite (rs : State → List SbReq) (eff : State → State) (s : State) : VAns × State :=
  let r := sbCommand s (rs s)
  if r.1 then (vDone [], eff r.2) else (vAbandoned, r.2)

end Sys2Proof.Machine
end

