-- ==== Sys2Proof/Machine/UnitCmds.lean ====
section
/-! DEFINITION. The identity and unit groups of vendor opcodes, and the rows that end a unit's job (R444 to R449, R461 to R475, R671). -/

namespace Sys2Proof.Machine

/-! ## Identity (R447, R461 to R463) -/

/-- One capability entry's own fields (R461, R463): ID, and block offset and size where it has them. -/
def capFields (s : State) : List (Nat × Option (Nat × Nat)) :=
  let base : List (Nat × Option (Nat × Nat)) := [
    (1, some (0x1000, 61440)), (2, some (0x10000, 65536)), (3, some (0x20000, 16384)), (4, some (0x30000, 65536)),
    (5, some (0x40000, 65536)), (6, some (0x50000, 65536)), (7, some (0x60000, 65536)), (8, some (0x70000, 16384)),
    (9, some (0x80000, 65536)), (10, some (0x100000, 1048576)), (11, some (0x200000, 1048576))]
  let peers : List (Nat × Option (Nat × Nat)) := if hasSpan s then [(12, some (0x300000, 1048576)), (13, some (0, 67108864))] else []
  base ++ peers ++ [(if s.variant = .x4 then 14 else 15, none)]

/-- The entries from offset `o` on, each with its offset and bytes. -/
def capEntries : Nat → List (Nat × Option (Nat × Nat)) → List (Nat × List Byte)
  | _, [] => []
  | o, (i, blk) :: l =>
    let len := match blk with | some _ => 16 | none => 8
    let next := if l = [] then 0 else o + len
    let tail := match blk with | some (b, n) => bytesOf 4 b ++ bytesOf 4 n | none => []
    (o, bytesOf 2 i ++ [1, BitVec.ofNat 8 (len / 4)] ++ bytesOf 4 next ++ tail) :: capEntries (o + len) l

/-- The capability list as bytes from offset 0 (R461, R462). -/
def capBytes (s : State) : List Byte := (capEntries 0 (capFields s)).flatMap (fun e => e.2)

/-- The variant's code (R447). -/
def variantCode (s : State) : Nat := match s.variant with | .x4 => 0 | .h2 => 1 | .l1 => 2

/-- The ports that exist in the configuration in effect (R635). -/
def portsMask (s : State) : Nat := (List.range 4).foldl (fun a p => if portPresent s p then a + 2 ^ p else a) 0

/-- The output of MERLAS_IDENTIFY from byte 4. -/
def identifyOut (s : State) : List Byte :=
  let up := cmdUp s
  let pbr := match s.span.selfIdx.bind (fun i => sfind s.span.pool i.toNat) with | some e => e.pbr.toNat | none => 0
  bytesOf 1 (variantCode s) ++ bytesOf 1 (nChannels s) ++ bytesOf 1 (nQuads s) ++ bytesOf 1 (nQuads s) ++ bytesOf 1 (portsMask s) ++
    bytesOf 1 s.id.revision.toNat ++ bytesOf 1 s.sec.pl.toNat ++ bytesOf 1 (b2n (hasSpan s)) ++ bytesOf 8 s.id.serial.toNat ++
    bytesOf 4 (if up then s.fw.running.toNat else 0) ++ bytesOf 4 s.fw.goldVersion.toNat ++
    bytesOf 2 (match s.span.selfIdx with | some i => i.toNat | none => 0xFFFF) ++ bytesOf 2 pbr ++ bytesOf 4 (nFrames s) ++
    bytesOf 1 (if up then s.write.budget.toNat else 0)

/-- MERLAS_IDENTIFY. -/
def execMerlasIdentify (c : Caller) (inp : List Byte) (s : State) : Res :=
  onVendor { op := 0xC000, host := true, star := true, outLen := 33 } c inp noCheck noCheck (vQuery identifyOut) id s

/-- CAP_QUERY. -/
def execCapQuery (c : Caller) (inp : List Byte) (s : State) : Res :=
  let find := fun s : State => (capEntries 0 (capFields s)).find? (fun e => e.1 == field inp 0 4)
  onVendor { op := 0xC001, host := true, star := true, fields := [(0, 4)], outLen := 64 } c inp
    (fun s => chk (find s).isNone (vRange 0)) noCheck
    (vQuery (fun s => match find s with | some e => e.2 | none => [])) id s

/-- The job that JOB_STATUS names for a caller: running, else the newest kept; a host LD sees its own jobs only. -/
def jobKept (s : State) (c : Caller) (id : Nat) : Option Job :=
  let all := s.unit.running ++ s.unit.ended.reverse
  match all.find? (fun j => j.id.toNat == id) with
  | some j => if isHostLd s c ∧ j.caller ≠ c then none else some j
  | none => none

/-- The status of a job. -/
def jobOut (j : Job) : List Byte :=
  bytesOf 2 j.opcode.toNat ++ bytesOf 2 (b2n j.done) ++
    bytesOf 2 (if j.done ∧ j.mstat = 0 then 1000 else j.progress) ++ bytesOf 2 (if j.done then j.mstat.toNat else 0) ++
    bytesOf 8 (if j.done then j.endedAt.toNat else 0)

/-- The progress of a running job as JOB_STATUS shows it: how far a job has come is not stated, a free value that does not fall (DESIGN CHOICE,
log entry 105). -/
def jobShown (s : State) (c : Caller) (id : Nat) : VAns × State :=
  match jobKept s c id with
  | none => (vDone [], s)
  | some j =>
    if j.done then (vDone (jobOut j), s)
    else
      let (v, s) := drawBits 10 s
      let k := { j with progress := max j.progress (v.toNat % 1000) }
      (vDone (jobOut k), { s with unit := { s.unit with running := s.unit.running.map (fun x => if x.id = j.id then k else x) } })

/-- JOB_STATUS. -/
def execJobStatus (c : Caller) (inp : List Byte) (s : State) : Res :=
  onVendor { op := 0xC002, host := true, star := true, fields := [(0, 2)], outLen := 16 } c inp
    (fun s => chk (jobKept s c (field inp 0 2)).isNone (vRange 0)) noCheck
    (fun s => jobShown s c (field inp 0 2)) id s

/-! ## Unit queries (R448, R469) -/

/-- The unit ID field of an input. -/
def unitIn (inp : List Byte) : Nat := field inp 0 3

/-- The output of UNIT_QUERY. -/
def unitOut (u : Nat) (s : State) : List Byte :=
  let r := unitRec s u
  bytesOf 1 (ustCode (ownState s u)) ++ bytesOf 1 (ustCode (reportedState s u)) ++ bytesOf 1 r.reason.toNat ++ [0] ++
    bytesOf 8 r.since.toNat ++ bytesOf 4 r.test.toNat ++ bytesOf 4 (containedCount s u)

/-- UNIT_QUERY. -/
def execUnitQuery (c : Caller) (inp : List Byte) (s : State) : Res :=
  let u := unitIn inp
  onVendor { op := 0xC100, host := true, star := true, fields := [(0, 4)], outLen := 20 } c inp
    (fun _ => chk (!unitKnown u) (vUnknownUnit u)) noCheck (vQuery (unitOut u)) id s

/-- The output of UNIT_LIST: at most 256 children from an index on. -/
def unitListOut (u first : Nat) (s : State) : List Byte :=
  let l := children s u
  let n := (l.drop first).take 256
  bytesOf 4 l.length ++ bytesOf 4 n.length ++ bytesOf 4 0 ++ n.flatMap (fun x => bytesOf 3 x ++ bytesOf 1 (ustCode (reportedState s x)))

/-- UNIT_LIST. -/
def execUnitList (c : Caller) (inp : List Byte) (s : State) : Res :=
  let u := unitIn inp
  onVendor { op := 0xC101, host := false, star := true, fields := [(0, 4), (4, 4)], outLen := 1036 } c inp
    (fun _ => chk (!unitKnown u) (vUnknownUnit u)) noCheck (vQuery (unitListOut u (field inp 4 4))) id s

/-! ## Unit commands (R470 to R473) -/

/-- The five unit commands that change a unit. -/
inductive UnitOp where
  | test | bypass | isolate | readmit | retire
  deriving DecidableEq, Repr

/-- The classes that support a command (R471, R473). -/
def opClasses : UnitOp → Bool → List Nat
  | .test, false => [1, 2, 3, 4, 5, 6, 7, 8, 9, 10]
  | .test, true => [2, 3, 4, 5]
  | .bypass, _ => [2, 3, 4, 7]
  | _, _ => [1, 2, 3, 4, 5, 7, 8, 9]

/-- The own states in which a command is legal (R470). -/
def opStates : UnitOp → Bool → List UState
  | .test, false => [.idle, .ready, .degraded, .bypassed]
  | .test, true => [.isolated]
  | .bypass, _ => [.idle, .ready, .degraded]
  | .isolate, _ => [.idle, .ready, .degraded, .bypassed]
  | .readmit, _ => [.bypassed, .isolated]
  | .retire, _ => [.isolated]

/-- The channel budget of the variant (R471). -/
def channelBudget (s : State) : Nat := nChannels s / 8

/-- The channels a unit takes with it when it leaves service: its own, a quadrant's eight, those a rail feeds. -/
def unitChannels (s : State) (u : Nat) : List Nat :=
  match uClass u with
  | 1 => (List.range 8).map (fun k => 8 * uIndex u + k)
  | 2 => [uIndex u]
  | 8 => (List.range (nChannels s)).filter (fun k => (stackRails s k).contains (uIndex u))
  | _ => []

/-- The units whose bypass, isolate or retire is accepted and still runs: each later command is judged as if they had left (R17). -/
def leavingUnits (s : State) : List Nat :=
  s.unit.running.filterMap (fun j => match j.kind with
    | .unitBypass u => some u.toNat
    | .unitIsolate u => some u.toNat
    | .unitRetire u => some u.toNat
    | _ => none)

/-- The channels gone once every accepted command has run. -/
def leavingChannels (s : State) : List Nat := (leavingUnits s).flatMap (unitChannels s)

/-- Whether the channel budget would be exceeded with some more channels gone. -/
def overBudget (s : State) (chs : List Nat) : Bool :=
  Nat.blt (channelBudget s) ((List.range (nChannels s)).countP (fun c =>
    outState (ownState s (uChannel c)) || chs.contains c || (leavingChannels s).contains c))

/-- Whether a fast set in use would have no copy in service without some channels. -/
def setStranded (s : State) (chs : List Nat) : Bool :=
  s.xlat.fst.any (fun e => fsUse e.2 != useFree && [0, 1].all (fun c =>
    !copyUp s e.1 c || (chs ++ leavingChannels s).contains (fastPlace s e.1 c 0).1))

/-- Live or open bands. -/
def busyBands (s : State) : List Nat := (heldBands s).filter (fun b => (bandOf s b).cls == .open_ || liveCount s b != 0)

/-- Whether a live or open band has a member on one of some channels. -/
def bandOn (s : State) (chs : List Nat) : Bool :=
  (busyBands s).any (fun b => (liveOf (bandOf s b)).any (fun m => chs.contains (memberAt s b m).1))

/-- Whether a band with a member on a die or bank would have more than four missing members (R471), the units on their way out
counted (R17). -/
def bandStrained (s : State) (u : Nat) : Bool :=
  (busyBands s).any (fun b =>
    let covers := fun (v m : Nat) => removalCovers s v (memberAt s b m).1 (memberAt s b m).2 (bandBank b)
    let l := liveOf (bandOf s b)
    l.any (covers u) && Nat.blt 4 (l.countP (fun m => memberMissing s b m || covers u m || (leavingUnits s).any (fun v => covers v m))))

/-- The refusals of R471 beyond the state table, and those of R472. -/
def unitRefused (o : UnitOp) (c : Caller) (u : Nat) (s : State) : Bool :=
  let i := uIndex u
  let leaves := o == .bypass || o == .isolate || o == .retire
  let chs := unitChannels s u
  let planned := (o == .bypass || o == .isolate) && [2, 3, 4, 8].contains (uClass u) && neverAdmits s u
  let own := match uClass u with
    | 1 => leaves && ((overBudget s chs && bandOn s chs) || setStranded s chs)
    | 2 => leaves && overBudget s chs
    | 3 => leaves && bandStrained s u
    | 4 => leaves && bandStrained s u
    | 5 => callerPort c == some i
    | 7 => leaves && (substituteOf (setUnit u .bypassed 1 false ((leavingUnits s).foldl (fun s v =>
        if uClass v = 7 then setUnit v .bypassed 1 false s else s) s)) i).isNone
    | 8 =>
      let g := s.power.rails.getD i {}
      leaves && (g.domains.getLsbD 0 || g.domains.getLsbD 1 || g.domains.getLsbD 2 || g.domains.getLsbD 3 || g.hbm != 0 || overBudget s chs)
    | 9 => leaves && qUse s i != 0
    | _ => false
  planned || own

/-- The RANGE and UNKNOWN_UNIT checks of a unit command (R439, R471). -/
def unitEarly (o : UnitOp) (destr : Bool) (u : Nat) (_s : State) : Option VAns :=
  firstOf [
    chk (Nat.blt 0 (classCount (uClass u)) && !(opClasses o destr).contains (uClass u)) (vRange 0),
    chk (!unitKnown u) (vUnknownUnit u)]

/-- The STATE and BUSY_UNIT checks of a unit command (R445, R470 to R472). -/
def unitLate (o : UnitOp) (destr : Bool) (c : Caller) (u : Nat) (s : State) : Option VAns :=
  firstOf [
    chk (!(opStates o destr).contains (ownState s u) || unitRefused o c u s) (vState (unitOut u s)),
    (holdingJob s u).map (fun j => vBusy j.id.toNat)]

/-- A planned removal put to the boundaries (R420, R472). -/
def addRemoval (u : Nat) (id : Nat) (s : State) : State :=
  { s with tt := { s.tt with removals := s.tt.removals ++ [⟨BitVec.ofNat 24 u, some (BitVec.ofNat 16 id), false, false⟩] } }

/-- Whether a unit leaves service as a planned removal at a stage boundary (R472). -/
def isPlanned (u : Nat) : Bool := [2, 3, 4, 8].contains (uClass u)

/-- What a readmit begins (R473). -/
def readmitBegin (u : Nat) (s : State) : State :=
  let i := uIndex u
  match uClass u with
  | 1 => ((List.range 8).filter (fun k => (unitRec s (uChannel (8 * i + k))).st == .isolated &&
      (unitRec s (uChannel (8 * i + k))).reason == 7)).foldl (fun s k => startTraining (8 * i + k) s) s
  | 2 => startTraining i s
  | 3 => askRaw (i / 16) 0x33 (i % 16) 0 3 (sendPkt (i / 16) 0x7F (i % 16) 0 0 0 127 0 s)
  | 4 => askRaw (i / 128) 0x33 (i / 8 % 16) 0 3 (sendPkt (i / 128) 0x7F (i / 8 % 16) 0 0 0 127 0 s)
  | 5 =>
    let q := portOf s i
    let s := setPort i (fun q => { q with idleLanes := false }) s
    if !q.perst && q.refclk && domainOn s 2 then send s (.linkTrain i) else s
  | 8 => enableRail i s
  | _ => s

/-- What a unit command does once accepted: its job, and what begins with it. -/
def unitAct (o : UnitOp) (destr : Bool) (op : Nat) (c : Caller) (u : Nat) (s : State) : VAns × State :=
  let w := BitVec.ofNat 24 u
  let before := ownState s u
  let k := match o with
    | .test => JobKind.unitTest w destr before
    | .bypass => .unitBypass w
    | .isolate => .unitIsolate w
    | .readmit => .unitReadmit w
    | .retire => .unitRetire w
  let r := vStart op c k s
  if r.1.mstat ≠ 1 then r
  else
    let s := r.2
    let s := match o with
      | .test => if before = .bypassed ∨ before = .isolated then setUnit u .testing 1 false s else s
      | .readmit => if uClass u = 8 ∧ s.power.seq = .shuttingDown then endJob r.1.job 0x0301 s else readmitBegin u s
      | .retire => if uClass u = 8 then addRemoval u r.1.job s else s
      | _ => if isPlanned u then addRemoval u r.1.job s else s
    (r.1, s)

/-- A unit command. -/
def onUnit (o : UnitOp) (op : Nat) (c : Caller) (inp : List Byte) (s : State) : Res :=
  let u := unitIn inp
  let destr := o == .test && field inp 4 1 == 1
  let fields := if o = .test then [(0, 4), (4, 1)] else [(0, 4)]
  onVendor { op := op, host := false, star := false, lock := true, fields := fields } c inp
    (fun s => firstOf [unitEarly o destr u s, chk (o == .test && Nat.blt 1 (field inp 4 1)) (vRange 4)])
    (unitLate o destr c u) (unitAct o destr op c u) mediaNext s

/-- UNIT_TEST. -/
def execUnitTest (c : Caller) (inp : List Byte) (s : State) : Res := onUnit .test 0xC102 c inp s

/-- UNIT_BYPASS. -/
def execUnitBypass (c : Caller) (inp : List Byte) (s : State) : Res := onUnit .bypass 0xC103 c inp s

/-- UNIT_ISOLATE. -/
def execUnitIsolate (c : Caller) (inp : List Byte) (s : State) : Res := onUnit .isolate 0xC104 c inp s

/-- UNIT_READMIT. -/
def execUnitReadmit (c : Caller) (inp : List Byte) (s : State) : Res := onUnit .readmit 0xC105 c inp s

/-- UNIT_RETIRE. -/
def execUnitRetire (c : Caller) (inp : List Byte) (s : State) : Res := onUnit .retire 0xC106 c inp s

/-! ## How unit jobs end (R444, R470 to R475, R671) -/

/-- The block a destructive test of a bank uses: the lowest CCOUNT among its blocks that are not marked bad (R671). -/
def testBlock (s : State) (bk : Nat) : Option Nat :=
  ((List.range 8192).filter (fun b => !s.mm.bad.contains (8192 * bk + b))).foldl (fun a b => match a with
    | none => some b
    | some x => if (stampOf s (8192 * bk + b)).ccount.toNat < (stampOf s (8192 * bk + x)).ccount.toNat then some b else some x) none

/-- The banks of a channel, die or bank. -/
def banksOf (u : Nat) : List Nat :=
  match uClass u with
  | 2 => (List.range 128).map (fun b => 128 * uIndex u + b)
  | 3 => (List.range 8).map (fun b => 8 * uIndex u + b)
  | 4 => [uIndex u]
  | _ => []

/-- What a destructive test leaves: each tested block was Cleared, programmed and read back, and must be Cleared before any later
use (R671). -/
def testBlocks (u : Nat) (s : State) : State :=
  (banksOf u).foldl (fun s bk => match testBlock s bk with
    | some b => setStamp (8192 * bk + b) (fun x => { x with valid := false, ccount := x.ccount + 1 }) (dropBlock (8192 * bk + b) s)
    | none => s) s

/-- A failed destructive test marks a failing block bad; which one fails is the media's own, a free choice. Answers the index R469
reports: the block of a bank's test, else the failing contained unit's. -/
def testFailure (u : Nat) (s : State) : Nat × State :=
  let (v, s) := drawBits 16 s
  match (banksOf u)[v.toNat % max 1 (banksOf u).length]? with
  | none => (v.toNat, s)
  | some bk =>
    match testBlock s bk with
    | none => (0, s)
    | some b => (if uClass u = 4 then b else if uClass u = 3 then bk else bk / 8, markBad (8192 * bk + b) 5 s)

/-- A test's end: its result, and a Testing unit back where it was (R469, R470). -/
def testEnds (id : BitVec 16) (u : Nat) (destr : Bool) (before : UState) (ok : Bool) (s : State) : State :=
  let f := if ok then (0, s) else if destr then testFailure u s else (fun (r : BitVec 16 × State) => (r.1.toNat, r.2)) (drawBits 16 s)
  let s := if destr then testBlocks u f.2 else f.2
  let s := setTest u (if ok then 1 else 2) f.1 destr s
  let s := if ownState s u = .testing then setUnit u before 9 false s else s
  endJob id 0 s

/-- A unit isolated or retired outside the planned removals: a quadrant with its channels, a port, a sensor, a queue (R471). -/
def unitLeaves (u : Nat) (st : UState) (s : State) : State :=
  let i := uIndex u
  let s := setUnit u st 1 false s
  match uClass u with
  | 1 => ((List.range 8).filter (fun k => unitPresent s (uChannel (8 * i + k)) && inService (ownState s (uChannel (8 * i + k))))).foldl
      (fun s k => mediaLoss (uChannel (8 * i + k)) true (setUnit (uChannel (8 * i + k)) .isolated 7 false s)) (endContained u s)
  | 5 => setPort i (fun q => { q with idleLanes := true }) (portDown i s)
  | 9 => qClear i s
  | _ => s

/-- A unit back in service at the end of a readmit that needs no training of its own (R473). -/
def unitReturns (u : Nat) (s : State) : State :=
  let i := uIndex u
  match uClass u with
  | 5 => setUnit u .degraded 1 false s
  | 7 => setUnit u .ready 1 false (setSensor i (fun x => { x with broken := false, devRun := 0 }) s)
  | 9 => setUnit u .ready 1 false (qClear i s)
  | _ => s

/-- JOB_END: the work of a job of the unit group that no other row ends is over: a test, or a unit that leaves or comes back without a
planned removal, training or rail. A job that did not succeed ends with FAULT and changes no unit state. -/
def execJobEnd (job : BitVec 16) (ok : Bool) (s : State) : Res :=
  let s := begin s
  match s.unit.running.find? (fun j => j.id == job) with
  | none => ran s
  | some j =>
    match j.kind with
    | .unitTest u d b => ran (mediaNext (testEnds job u.toNat d b ok s))
    | .unitBypass u =>
      if isPlanned u.toNat then ran s
      else ran (if ok then endJob job 0 (unitLeaves u.toNat .bypassed s) else endJob job 0x0301 s)
    | .unitIsolate u =>
      if isPlanned u.toNat then ran s
      else ran (mediaNext (if ok then endJob job 0 (unitLeaves u.toNat .isolated s) else endJob job 0x0301 s))
    | .unitRetire u =>
      if uClass u.toNat = 8 then ran s
      else ran (mediaNext (if ok then endJob job 0 (setUnit u.toNat .retired 1 false s) else endJob job 0x0301 s))
    | .unitReadmit u =>
      if [5, 7, 9].contains (uClass u.toNat) then
        ran (if ok then endJob job 0 (unitReturns u.toNat s) else endJob job 0x0301 s)
      else ran s
    | _ => ran s

/-- PLANNED_REMOVAL_TIMEOUT: no admission within 3,600 s; nothing has changed (R472). -/
def execPlannedRemovalTimeout (job : BitVec 16) (s : State) : Res :=
  let s := begin s
  if s.tt.removals.any (fun r => r.job == some job && !r.admitted) then
    ran (endJob job 0x0101 { s with tt := { s.tt with removals := s.tt.removals.filter (fun r => r.job != some job) } })
  else ran s

/-- UNIT_TEST_TIMEOUT: the test ends aborted (R671). -/
def execUnitTestTimeout (job : BitVec 16) (s : State) : Res :=
  let s := begin s
  match s.unit.running.find? (fun j => j.id == job) with
  | none => ran s
  | some j =>
    match j.kind with
    | .unitTest u d b =>
      let s := setTest u.toNat 3 0 d s
      let s := if ownState s u.toNat = .testing then setUnit u.toNat b 9 false s else s
      ran (endJob job 0x0301 s)
    | _ => ran s

/-- Whether a queue, engine or channel has no work and may be Idle (R467). -/
def idleFree (s : State) (u : Nat) : Bool :=
  let i := uIndex u
  let c := cartOf s i
  match uClass u with
  | 9 => (qOf s i).wr == (qOf s i).rel
  | 10 => !engineWork s i
  | 2 => idleEligible s i && c.reads.isEmpty && c.progs.isEmpty && c.outst.isEmpty && c.running.isEmpty && c.trained
  | _ => false

/-- UNIT_IDLE_ENTRY: a queue, engine or eligible channel without work (R467). -/
def execUnitIdleEntry (unit : BitVec 24) (s : State) : Res :=
  let s := begin s
  let u := unit.toNat
  if idleFree s u && unitPresent s u && ownState s u == .ready then ran (setUnit u .idle 0 false s) else ran s

end Sys2Proof.Machine
end

