-- ==== Sys2Proof/Machine/VendorFrame.lean ====
section
/-! DEFINITION. The frame and cache group of vendor opcodes (R49, R121, R161, R168, R169, R216 to R218, R297, R353, R450). -/

namespace Sys2Proof.Machine

/-! ## Reports (R441, R450) -/

/-- Whether a fold, promotion or demotion of a frame runs. -/
def foldRuns (s : State) (lfn : Nat) : Bool :=
  s.mm.batches.any (fun b => b.slots.any (fun x => x.lfn == lfn)) || s.mm.moves.any (fun m => m.lfn == lfn)

/-- The output of FOLD_STATUS for a frame. The age of the oldest patch is known to 2¹⁷ ns (R111). -/
def foldOut (lfn : Nat) (s : State) : List Byte :=
  let e := ftEntry s lfn
  let f := fsumOf s lfn
  let prio := (s.mm.due.filter (fun d => d.lfn == lfn)).foldl (fun a d => if a = 0 ∨ d.prio < a then d.prio else a) 0
  let age := if f.1 = 0 then 0 else min (2 ^ 32 - 1) ((s.time.ftime.toNat - f.2.toNat * 2 ^ 17) / 1000000)
  bytesOf 1 (ftMode e) ++
    bytesOf 1 (b2n (ftPatched e) + 2 * b2n (ftPinned e) + 4 * b2n (ftHot e) + 8 * b2n (foldRuns s lfn)) ++
    bytesOf 2 prio ++ bytesOf 4 f.1 ++ bytesOf 4 age ++ bytesOf 4 lfn

/-- The report of a command whose object is an LD: its commit mode, and whether a sanitize of it runs (R441). -/
def ldReport (i : Nat) (s : State) : List Byte :=
  let d := ldOf s i
  bytesOf 1 (modeCode d.mode) ++ bytesOf 1 (b2n d.erase.isSome)

/-- Frames are restored once phase 6 has ended (R592). -/
def framesReady (s : State) : Bool := Nat.ble 7 s.start.phase.toNat

/-- The LFN of a frame input, with the LD and frame checks of R442 and R450. -/
def inputLfn (s : State) (c : Caller) (inp : List Byte) : Option Nat :=
  (ldNamed s c (frameIn inp).ld).bind (fun i => lfnOfFrame (ldOf s i) (frameIn inp).first)

/-- The RANGE checks of a command for one frame. -/
def frameEarly (c : Caller) (inp : List Byte) (s : State) : Option VAns :=
  firstOf [
    chk (ldNamed s c (frameIn inp).ld).isNone (vRange 0),
    chk (inputLfn s c inp).isNone (vRange 4)]

/-- FOLD_STATUS. -/
def execFoldStatus (c : Caller) (inp : List Byte) (s : State) : Res :=
  let lfn := fun s => (inputLfn s c inp).getD 0
  onVendor { op := 0xC200, host := true, star := false, fields := frameFields, outLen := 16 } c inp (frameEarly c inp)
    (fun s => chk (!framesReady s) (vState (foldOut (lfn s) s))) (vQuery (fun s => foldOut (lfn s) s)) id s

/-! ## FRAME_PIN (R297, R353) -/

/-- The promotion job that holds a frame (R445). -/
def pinJob (s : State) (lfn : Nat) : Option Job := s.unit.running.find? (fun j => j.kind == .pin lfn)

/-- The STATE checks of FRAME_PIN, then BUSY_UNIT for a frame whose promotion runs (R439, R445); a frame whose entry is being restored answers
STATE, since nothing else may commit its entry meanwhile (R82; DEDUCED, log entry 104). -/
def pinLate (lfn op : Nat) (s : State) : Option VAns :=
  let m := ftMode (ftEntry s lfn)
  firstOf [
    chk (!framesReady s || s.span.desc.isSome || s.xlat.restoring.contains lfn) (vState (foldOut lfn s)),
    chk (!(m == mDense || m == mFast) || (op == 1 && m == mDense && Nat.ble (freeSets s) s.xlat.fastResMin.toNat)) (vState (foldOut lfn s)),
    (pinJob s lfn).map (fun j => vBusy j.id.toNat)]

/-- The PINNED bit of an entry committed. -/
def setPinned (lfn : Nat) (v : Bool) (s : State) : State :=
  let e := ftEntry s lfn
  if ftPinned e = v then s else commitNow lfn (ftMake (ftBand e) (ftSlot e) (ftMode e) (ftPatched e) v (ftHot e)) s

/-- FRAME_PIN. -/
def execFramePin (c : Caller) (inp : List Byte) (s : State) : Res :=
  let op := (frameIn inp).op
  let lfn := fun s => (inputLfn s c inp).getD 0
  onVendor { op := 0xC201, host := true, star := false, fields := frameFields } c inp
    (fun s => firstOf [chk (ldNamed s c (frameIn inp).ld).isNone (vRange 0), chk (Nat.blt 1 op) (vRange 1), frameEarly c inp s])
    (fun s => pinLate (lfn s) op s)
    (fun s =>
      let l := lfn s
      if op = 1 ∧ ftMode (ftEntry s l) = mDense then
        let r := vStart 0xC201 c (.pin l) s
        if r.1.mstat = 1 then (r.1, startPromotion l true (some (BitVec.ofNat 16 r.1.job)) r.2) else r
      else (vDone [], setPinned l (op == 1) s))
    mediaNext s

/-! ## FRAME_DISCARD (R121) -/

/-- The ranges of a discard input: first LD line and line count. -/
def discardRanges (inp : List Byte) : List (Nat × Nat) :=
  (List.range (field inp 1 1)).map (fun k => (field inp (4 + 16 * k) 5, field inp (12 + 16 * k) 4))

/-- The RANGE checks of a discard. -/
def discardEarly (c : Caller) (inp : List Byte) (s : State) : Option VAns :=
  let n := field inp 1 1
  let ends := (List.range n).findSome? (fun k =>
    let o := 4 + 16 * k
    if inp.length < o + 16 then some (if inp.length < o + 8 then o else if inp.length < o + 12 then o + 8 else o + 12)
    else if field inp (o + 8) 4 = 0 then some (o + 8)
    else if 2 ^ 40 < field inp o 5 + field inp (o + 8) 4 then some o else none)
  firstOf [
    chk (ldNamed s c (field inp 0 1)).isNone (vRange 0),
    chk (n == 0) (vRange 1),
    ends.map vRange]

/-- The LFNs whose frames a discard covers whole and may act on (R121). -/
def discardLfns (s : State) (i : Nat) (rs : List (Nat × Nat)) : List Nat :=
  let frames := (ldOf s i).ranges.flatMap (fun r => (List.range r.length).map (fun k => (r.frame + k, r.lfn + k)))
  (frames.filter (fun f =>
    let m := ftMode (ftEntry s f.2)
    (m == mDense || m == mFast || m == mFolding) &&
      rs.any (fun r => Nat.ble r.1 (65536 * f.1) && Nat.ble (65536 * f.1 + 65536) (r.1 + r.2)))).map (fun f => f.2)

/-- FRAME_DISCARD. -/
def execFrameDiscard (c : Caller) (inp : List Byte) (s : State) : Res :=
  let ld := fun s => (ldNamed s c (field inp 0 1)).getD 0
  onVendor { op := 0xC202, host := true, star := false, fields := [(0, 1), (1, 1), (2, 2)] } c inp (discardEarly c inp)
    (fun s => chk (!framesReady s) (vState (ldReport (ld s) s)))
    (fun s =>
      let ls := discardLfns s (ld s) (discardRanges inp)
      let t := ls.foldl (fun s l => emptyFrame l mDiscarded s) s
      if !ls.any (zeroPending t) then (vDone [], t)
      else
        let r := vStart 0xC202 c (.discard ls) t
        if r.1.mstat = 1 then r else (r.1, s))
    (fun s => mediaNext (updLoad s)) s

/-! ## CACHE_FLUSH and CACHE_INVALIDATE (R216 to R218) -/

/-- The LFNs in scope of a cache command as runs, none where a field is refused: scope 0 the device, 1 an LD, 2 frames of an LD. -/
def cacheScope (s : State) (c : Caller) (f : FrameIn) : Option (List (Nat × Nat)) :=
  if f.op = 0 then some [(0, 2 ^ 24)]
  else
    (ldNamed s c f.ld).bind (fun i =>
      let d := ldOf s i
      if f.op = 1 then some (d.ranges.map (fun r => (r.lfn, r.length)))
      else
        let held := (d.ranges.map (fun r => min (r.frame + r.length) (f.first + f.count) - max r.frame f.first)).sum
        if held ≠ f.count then none
        else some ((d.ranges.map (fun r => (r.lfn + (max r.frame f.first - r.frame),
          min (r.frame + r.length) (f.first + f.count) - max r.frame f.first))).filter (fun x => x.2 ≠ 0)))

/-- The checks of a cache command. -/
def cacheEarly (c : Caller) (inp : List Byte) (s : State) : Option VAns :=
  let f := frameIn inp
  firstOf [
    chk (f.op == 0 && isHostLd s c) vProtected,
    chk (f.op != 0 && (ldNamed s c f.ld).isNone) (vRange 0),
    chk (Nat.blt 2 f.op) (vRange 1),
    chk (cacheScope s c f).isNone (vRange 4)]

/-- STATE during a sanitize of the LD, and before the caches are restored (R218, R592). -/
def cacheLate (c : Caller) (inp : List Byte) (s : State) : Option VAns :=
  let f := frameIn inp
  let i := (ldNamed s c f.ld).getD 0
  firstOf [
    chk (f.op != 0 && (ldOf s i).erase.isSome) (vState (ldReport i s)),
    chk (!framesReady s) (vState (ldReport i s))]

/-- A cache command: the lines dirty in scope now leave for media, and the job ends when the last is clean. -/
def onCache (op : Nat) (inval : Bool) (c : Caller) (inp : List Byte) (s : State) : Res :=
  onVendor { op := op, host := true, star := false, fields := frameFields } c inp (cacheEarly c inp) (cacheLate c inp)
    (fun s =>
      let scope := (cacheScope s c (frameIn inp)).getD []
      let lines := ((dirtyLlns s).filter (fun l => scope.any (fun r => Nat.ble r.1 (lfnOf l) && Nat.blt (lfnOf l) (r.1 + r.2)))).flatMap (flushLines s)
      let r := vStart op c (.flush lines inval scope) s
      if r.1.mstat = 1 then (r.1, lines.foldl (fun s l => drainLine l true s) r.2) else r)
    (fun s => mediaNext (updLoad (flushJobs none s))) s

/-- CACHE_FLUSH. -/
def execCacheFlush (c : Caller) (inp : List Byte) (s : State) : Res := onCache 0xC203 false c inp s

/-- CACHE_INVALIDATE. -/
def execCacheInvalidate (c : Caller) (inp : List Byte) (s : State) : Res := onCache 0xC204 true c inp s

/-! ## LD_COMMIT_SET (R161, R168, R169) -/

/-- The mode of a code. -/
def codeMode : Nat → CommitMode
  | 1 => .relaxed
  | 2 => .strict
  | _ => .loc

/-- An LD's commit mode changed, with its CDAT, whose change is indicated, and, on a span member, its map entries (R72, R168, R389). -/
def setMode (i : Nat) (m : CommitMode) (s : State) : State :=
  if (ldOf s i).mode = m then s
  else
    let s := setLd i (fun d => { d with mode := m, cdatChanged := true }) s
    let s := if ldExists s i then send s (.cdatChange i) else s
    sendMap i (ldOf s i).ranges.length s

/-- LD_COMMIT_SET. -/
def execLdCommitSet (c : Caller) (inp : List Byte) (s : State) : Res :=
  let ld := fun s => (ldNamed s c (field inp 0 1)).getD 0
  let m := field inp 1 1
  onVendor { op := 0xC205, host := false, star := false, fields := [(0, 1), (1, 1)] } c inp
    (fun s => firstOf [chk (ldNamed s c (field inp 0 1)).isNone (vRange 0), chk (Nat.blt 2 m) (vRange 1)])
    (fun s => chk ((m == 0) == s.span.desc.isSome) (vState (ldReport (ld s) s)))
    (fun s => (vDone [], setMode (ld s) (codeMode m) s)) id s

end Sys2Proof.Machine
end

