-- ==== Sys2Proof/Machine/VendorSpan.lean ====
section
/-! DEFINITION. The span group of vendor opcodes (R348 to R355, R385 to R390, R451, R452, R457). -/

namespace Sys2Proof.Machine

/-- The device's own pool table entry. -/
def ownEntry (s : State) : Option PoolEntry := s.span.selfIdx.bind (fun i => sfind s.span.pool i.toNat)

/-- ROLE of R348: 0 none, 1 member, 2 remount, 3 spare. -/
def ownRole (s : State) : Nat := match ownEntry s with | some e => bits e.slot.toNat 4 3 | none => 0

/-- The output of SPAN_QUERY. -/
def spanOut (s : State) : List Byte :=
  (match s.span.desc with | some d => spanDescBytes d | none => List.replicate 64 0) ++
    bytesOf 1 s.span.spanState.toNat ++ bytesOf 1 (ownRole s) ++ [0, 0] ++
    (List.range 16).flatMap (fun r => bytesOf 1 (peerOf s r).st.toNat)

/-- SPAN_QUERY. -/
def execSpanQuery (c : Caller) (inp : List Byte) (s : State) : Res :=
  onVendor { op := 0xC300, host := false, star := true, span := true, outLen := 84 } c inp noCheck noCheck (vQuery spanOut) id s

/-- POOL_GET. -/
def execPoolGet (c : Caller) (inp : List Byte) (s : State) : Res :=
  let i := field inp 0 2
  onVendor { op := 0xC301, host := false, star := true, span := true, fields := [(0, 2)], outLen := 16 } c inp
    (fun _ => chk (Nat.blt 511 i) (vRange 0)) noCheck
    (vQuery (fun s => match sfind s.span.pool i with | some e => poolBytes e | none => [])) id s

/-- The entry a POOL_SET input holds; SLOT[7] and PBR[15:12] are 0 (R348). -/
def poolIn (inp : List Byte) : PoolEntry :=
  { pbr := BitVec.ofNat 12 (field inp 4 2), span := BitVec.ofNat 8 (field inp 6 1), slot := BitVec.ofNat 8 (field inp 7 1 % 128)
    serial := BitVec.ofNat 64 (field inp 8 8), gen := BitVec.ofNat 16 (field inp 16 2) }

/-- The pool table with an entry written; the device's own index is where its serial number stands. -/
def withPool (i : Nat) (e : PoolEntry) (s : State) : State :=
  let s := { s with span := { s.span with pool := sput s.span.pool i e } }
  { s with span := { s.span with selfIdx := (s.span.pool.find? (fun x => x.2.serial == s.id.serial)).map (fun x => BitVec.ofNat 9 x.1) } }

/-- POOL_SET. -/
def execPoolSet (c : Caller) (inp : List Byte) (s : State) : Res :=
  let i := field inp 0 2
  let member := fun s : State => match s.span.desc with
    | some d => (d.members.take (spanN s)).any (fun m => m.toNat == i)
    | none => false
  onVendor { op := 0xC302, host := false, star := true, span := true, fields := [(0, 2), (4, 2), (6, 1), (7, 1), (8, 8), (16, 2)] } c inp
    (fun _ => chk (Nat.blt 511 i) (vRange 0))
    (fun s => chk (member s && s.span.spanState != 1) (vState (spanOut s)))
    (vWrite (fun s => [.ring 0x40 (i / 15) (poolPayload (withPool i (poolIn inp) s) (i / 15))]) (withPool i (poolIn inp))) id s

/-! ## Descriptors (R350, R351) -/

/-- The fixed fields of a descriptor input. -/
def descFields : List (Nat × Nat) :=
  [(0, 4), (4, 1), (5, 1), (6, 1), (7, 1)] ++ (List.range 16).map (fun r => (8 + 2 * r, 2)) ++ [(40, 6), (46, 14)]

/-- The descriptor an input holds. -/
def descIn (inp : List Byte) : SpanDesc :=
  { span := BitVec.ofNat 8 (field inp 4 1), k := BitVec.ofNat 8 (field inp 5 1), m := BitVec.ofNat 8 (field inp 6 1)
    f := BitVec.ofNat 8 (field inp 7 1), members := (List.range 16).map (fun r => BitVec.ofNat 16 (field inp (8 + 2 * r) 2))
    sgen := BitVec.ofNat 48 (field inp 40 6) }

/-- The RANGE checks of a descriptor: MAGIC, and the parameters of R350. -/
def descEarly (inp : List Byte) (_s : State) : Option VAns :=
  let k := field inp 5 1
  let m := field inp 6 1
  let f := field inp 7 1
  firstOf [
    chk (field inp 0 4 != 0xBD6405A0) (vRange 0),
    chk (Nat.blt k 2 || Nat.blt 15 k) (vRange 5),
    chk (Nat.blt m 1 || Nat.blt 4 m || Nat.blt 16 (k + m)) (vRange 6),
    chk (Nat.blt f 2 || Nat.blt 3 f || Nat.blt (k + m) f) (vRange 7)]

/-- The SGEN the Strongbox holds, 0 for none. A descriptor given up keeps it (R351). -/
def storedSgen (s : State) : Nat := field ((ringPayload s.sb.cells 0x41 0).getD []) 40 6

/-- A descriptor as it is written: its SGEN above the stored one, one above where the one given is not (R351). -/
def raiseSgen (s : State) (d : SpanDesc) : SpanDesc :=
  if Nat.ble d.sgen.toNat (storedSgen s) then { d with sgen := BitVec.ofNat 48 (storedSgen s + 1) } else d

/-- The descriptor record of a device that leaves its span: no descriptor, the SGEN raised by 1 (R351). -/
def noDescBytes (s : State) : List Byte := List.replicate 40 0 ++ bytesOf 6 (storedSgen s + 1) ++ List.replicate 19 0

/-- The running job that holds the span (R445). -/
def spanJob (s : State) : Option Job :=
  s.unit.running.find? (fun j => j.kind == .spanJoin || j.kind == .remount || j.kind == .spanLeave)

/-- BUSY_UNIT while a job holds the span. -/
def spanBusy (s : State) : Option VAns := (spanJob s).map (fun j => vBusy j.id.toNat)

/-- The place of the device's own pool index among the members of a descriptor. -/
def placeIn (s : State) (d : SpanDesc) : Option Nat :=
  s.span.selfIdx.bind (fun i => (d.members.take (d.k + d.m).toNat).findIdx? (fun m => m.toNat == i.toNat))

/-- The device in a span under a descriptor, as member `r` with a member state; nothing is known of the other members yet. -/
def enterSpan (d : SpanDesc) (r st : Nat) (s : State) : State :=
  let s := { s with span := { s.span with
    desc := some d, own := BitVec.ofNat 4 r, peers := List.replicate 16 {}, joinStep := 0, streams := [], outr := [], lost := none
    aliases := [], rebuildMarks := [], rebuildSnap := [] } }
  setPeerSt r st s

/-- Every LD set to a commit mode (R168). -/
def allModes (m : CommitMode) (s : State) : State := (List.range 64).foldl (fun s i => setMode i m s) s

/-- A job with Strongbox writes before it: BUSY_UNIT at the limit of 64 jobs, ABANDONED with nothing changed. -/
def vStartWrite (op : Nat) (c : Caller) (k : JobKind) (rs : State → List SbReq) (eff : State → State) (s : State) : VAns × State :=
  if 64 ≤ s.unit.running.length then (vBusy 0, s)
  else
    let r := sbCommand s (rs s)
    if r.1 then vStart op c k (eff r.2) else (vAbandoned, r.2)

/-- Whether every LFN that a span makes a parity LFN on member `r` is Unmapped (R354). -/
def parityFree (s : State) (d : SpanDesc) (r : Nat) : Bool :=
  let t := { s with span := { s.span with desc := some d, own := BitVec.ofNat 4 r } }
  s.xlat.ft.all (fun e => ftMode e.2 == mUnmapped || !parityLfn t e.1)

/-- No LD frame of a span member goes Fast: the fills, promotions and migrations that run are given up, and a pin that waits for one ends
with STATE (R353). -/
def dropMoves (s : State) : State :=
  (s.mm.moves.filter (fun m => Nat.ble m.kind 2)).foldl (fun s m =>
    match m.job with | some j => endJob j 0x0101 (dropMove m s) | none => dropMove m s) s

/-- SPAN_JOIN. -/
def execSpanJoin (c : Caller) (inp : List Byte) (s : State) : Res :=
  let d := descIn inp
  onVendor { op := 0xC303, host := false, star := false, span := true, fields := descFields } c inp (descEarly inp)
    (fun s => firstOf [
      chk (s.span.desc.isSome || ownRole s != 1 || (placeIn s d).isNone || Nat.ble d.sgen.toNat (storedSgen s) ||
        !framesReady s || !parityFree s d ((placeIn s d).getD 0)) (vState (spanOut s)),
      spanBusy s])
    (fun s => vStartWrite 0xC303 c .spanJoin
      (fun _ => [.ring 0x41 0 (spanDescBytes d ++ bytesOf 1 psJoining)])
      (fun s => allModes .relaxed (dropMoves (enterSpan d ((placeIn s d).getD 0) psJoining s))) s)
    mediaNext s

/-- SPAN_UPDATE: a member replaced keeps its records under the lost member's pool index (R389, R452). -/
def execSpanUpdate (c : Caller) (inp : List Byte) (s : State) : Res :=
  let d := descIn inp
  let ok := fun s : State => match s.span.desc with
    | some o => d.span == o.span && d.k == o.k && d.m == o.m && d.f == o.f && Nat.blt o.sgen.toNat d.sgen.toNat &&
        placeIn s d == some (ownIndex s)
    | none => false
  let eff := fun s : State =>
    let changed := (List.range (spanN s)).filter (fun r => memberPool s r ≠ (d.members.getD r 0xFFFF).toNat % 512)
    let s := changed.foldl (fun s r => { s with span := { s.span with
      aliases := sput s.span.aliases r (wardPool s r), peers := lmod s.span.peers r (fun p => { st := p.st }) } }) s
    { s with span := { s.span with desc := some d } }
  onVendor { op := 0xC304, host := false, star := false, span := true, fields := descFields } c inp (descEarly inp)
    (fun s => firstOf [chk (!ok s) (vState (spanOut s)), spanBusy s])
    (vWrite (fun s => [.ring 0x41 0 (spanDescBytes d ++ bytesOf 1 (peerOf s (ownIndex s)).st.toNat)]) eff) mediaNext s

/-- The pool index of the lost member whose place a remount takes: the other entry of the span with ROLE member and that index. -/
def lostPool (s : State) (d : SpanDesc) (r : Nat) : Option Nat :=
  (s.span.pool.find? (fun e => e.2.span == d.span && e.2.slot.toNat == r + 16 && s.span.selfIdx != some (BitVec.ofNat 9 e.1))).map (fun e => e.1)

/-- REMOUNT_BIND: the spare takes the lost member's index (R388, R390); the maps of its LDs are the lost member's from then on. -/
def execRemountBind (c : Caller) (inp : List Byte) (s : State) : Res :=
  let d₀ := descIn inp
  let r := field inp 60 1
  let self := fun s : State => (s.span.selfIdx.getD 0).toNat
  let entry := fun (d : SpanDesc) (s : State) => match ownEntry s with
    | some e => { e with span := d.span, slot := BitVec.ofNat 8 (r + 32), gen := BitVec.ofNat 16 d.sgen.toNat }
    | none => { pbr := 0, span := d.span, slot := BitVec.ofNat 8 (r + 32), serial := s.id.serial, gen := BitVec.ofNat 16 d.sgen.toNat }
  onVendor { op := 0xC305, host := false, star := false, span := true, fields := descFields ++ [(60, 1)] } c inp
    (fun s => firstOf [descEarly inp s, chk (Nat.ble (d₀.k + d₀.m).toNat r) (vRange 60)])
    (fun s => firstOf [
      chk (s.span.desc.isSome || !framesReady s || s.xlat.ft.any (fun e => ftMode e.2 != mUnmapped) || ownRole s != 3 ||
        placeIn s d₀ != some r) (vState (spanOut s)),
      spanBusy s])
    (fun t => let d := raiseSgen t d₀; vStartWrite 0xC305 c .remount
      (fun s => [.ring 0x40 (self s / 15) (poolPayload (withPool (self s) (entry d s) s) (self s / 15)),
        .ring 0x41 0 (spanDescBytes d ++ bytesOf 1 psRemount)])
      (fun s =>
        let lost := lostPool s d r
        let s := { s with host := { s.host with lds := s.host.lds.map (fun x => { x with ranges := [], extents := [] }) } }
        let s := allModes .relaxed (enterSpan d r psRemount (withPool (self s) (entry d s) s))
        { s with span := { s.span with lost := lost } }) t)
    mediaNext s

/-- The device out of its span: every LD Local, every parity LFN Unmapped, what it kept for and of the other members given up. -/
def leaveSpan (s : State) : State :=
  let parity := (s.xlat.ft.filter (fun e => parityLfn s e.1)).map (fun e => e.1)
  let s := s.span.holdings.foldl (fun s h => dropHolding h s) s
  let s := times s.span.streams.length (dropStream 0) s
  let s := piDrop (foreignEnt s) s
  let foreign := (s.xlat.fst.filter (fun e => fsUse e.2 == useForeign)).map (fun e => e.1)
  let s := foreign.foldl (fun s f => releaseSet f s) s
  let s := parity.foldl (fun s l =>
    let e := ftEntry s l
    releaseOld e (commitNow l 0 (dropFrame l (abandonFrame l s)))) s
  let s := { s with
    span := { s.span with
      desc := none, spanState := 0, exposed := false, outr := [], streams := [], wards := [], holdings := [], reads := []
      peers := List.replicate 16 {}, lost := none, aliases := [], rebuildMarks := [], rebuildSnap := [], parityLines := [], withheld := []
      keyAsks := [], mapAsked := [], reseedDue := [], reseedLast := [], waitAdmit := [], swkValid := false, joinStep := 0 }
    host := { s.host with unhitched := false, lds := s.host.lds.map (fun d => { d with exposedOut := [], exposedRec := [] }) }
    write := { s.write with exposedLd := 0, relaxedStall := [] } }
  let s := allModes .loc s
  (s.mm.batches.map (fun f => f.band)).foldl (fun s b => advanceBatch b s) s

/-- SPAN_LEAVE: the job does its work at once after the answer. -/
def execSpanLeave (c : Caller) (inp : List Byte) (s : State) : Res :=
  onVendor { op := 0xC306, host := false, star := false, span := true } c inp noCheck
    (fun s => firstOf [
      chk (!(s.span.spanState == 1 || (s.span.desc.isSome && (peerOf s (ownIndex s)).st.toNat == psUnhitched))) (vState (spanOut s)),
      spanBusy s])
    (vStartWrite 0xC306 c .spanLeave (fun s => [.ring 0x41 0 (noDescBytes s)]) id)
    (fun s => match s.unit.running.find? (fun j => j.kind == .spanLeave) with
      | some j => mediaNext (updLoad (endJob j.id 0 (leaveSpan s)))
      | none => s) s

/-- UNHITCH_REQUEST. -/
def execUnhitchRequest (c : Caller) (inp : List Byte) (s : State) : Res :=
  let st := fun s => (peerOf s (ownIndex s)).st.toNat
  onVendor { op := 0xC307, host := false, star := false, span := true, fields := [(0, 1)] } c inp noCheck
    (fun s => firstOf [
      chk (s.span.desc.isNone || !(st s == psJoining || st s == psLive)) (vState (spanOut s)),
      spanBusy s])
    (fun s => (vDone [], s)) (fun s => mediaNext (unhitch (field inp 0 1) s)) s

end Sys2Proof.Machine
end

