-- ==== Sys2Proof/Machine/VendorSys.lean ====
section
/-! DEFINITION. The time, timetable, power and thermal groups of vendor opcodes (R453, R454, R441). -/

namespace Sys2Proof.Machine

/-! ## Time and timetable (R406, R430, R453) -/

/-- The code of a time source (R430). -/
def srcCode : TimeSrc → Nat
  | .none => 0
  | .ptm => 1
  | .timemark => 2

/-- The sum of the step sizes in µs. -/
def stepSum (s : State) : Nat := (s.time.steps.map (fun e => e.deltaUs.natAbs)).foldl (fun a b => a + b) 0

/-- The output of TIME_QUERY. -/
def timeOut (s : State) : List Byte :=
  bytesOf 8 s.time.ftime.toNat ++ bytesOf 1 (timeCode s.time.mode) ++ bytesOf 1 (srcCode s.time.source) ++
    bytesOf 1 (b2n (timeUnbounded s) + 2 * b2n (s.time.slewNs != 0)) ++ bytesOf 1 s.time.steps.length ++
    bytesOf 4 (boundUs s) ++ bytesOf 4 (min (stepSum s) 0xFFFFFFFF) ++ bytesOf 4 (s.tt.stage % 64) ++ bytesOf 8 (cycleNow s)

/-- TIME_QUERY. -/
def execTimeQuery (c : Caller) (inp : List Byte) (s : State) : Res :=
  onVendor { op := 0xC400, host := true, star := true, outLen := 32 } c inp noCheck noCheck (vQuery timeOut) id s

/-- TIME_MARK_SET: the fabric time of the next TIMEMARK edge, valid from now on (R406). -/
def execTimeMarkSet (c : Caller) (inp : List Byte) (s : State) : Res :=
  onVendor { op := 0xC401, host := false, star := true, fields := [(0, 8)] } c inp noCheck noCheck
    (fun s => (vDone [], { s with time := { s.time with markVal := BitVec.ofNat 64 (field inp 0 8), markValid := true } })) id s

/-- TIME_CONFIG: the source selection takes effect at the next stage boundary (R404). -/
def execTimeConfig (c : Caller) (inp : List Byte) (s : State) : Res :=
  let lim := field inp 2 2
  onVendor { op := 0xC402, host := false, star := true, fields := [(0, 1), (1, 1), (2, 2)] } c inp
    (fun _ => firstOf [
      chk (Nat.blt 3 (field inp 0 1)) (vRange 0),
      chk (Nat.blt 3 (field inp 1 1)) (vRange 1),
      chk (Nat.blt lim 50 || Nat.blt 4000 lim) (vRange 2)])
    noCheck
    (fun s => (vDone [], { s with time := { s.time with
      cfgSrc := BitVec.ofNat 2 (field inp 0 1), cfgPtmPort := BitVec.ofNat 2 (field inp 1 1), holdLim := BitVec.ofNat 13 lim } })) id s

/-- TT_CONFIG. -/
def execTtConfig (c : Caller) (inp : List Byte) (s : State) : Res :=
  let mx := field inp 0 1
  let fl := field inp 1 1
  let pd := field inp 2 1
  let ib := field inp 3 1
  onVendor { op := 0xC403, host := false, star := false, fields := [(0, 1), (1, 1), (2, 1), (3, 1)] } c inp
    (fun _ => firstOf [
      chk (Nat.blt mx 1 || Nat.blt 64 mx) (vRange 0),
      chk (Nat.blt fl 1 || Nat.blt 16 fl || Nat.blt mx fl) (vRange 1),
      chk (Nat.blt pd 1 || Nat.blt 4 pd) (vRange 2),
      chk (Nat.blt ib 10 || Nat.blt 240 ib) (vRange 3)])
    noCheck
    (fun s => (vDone [], { s with tt := { s.tt with
      bgMax := BitVec.ofNat 7 mx, bgFloor := BitVec.ofNat 7 fl, clearPerDie := BitVec.ofNat 3 pd, inbound := BitVec.ofNat 8 ib } })) id s

/-! ## Power (R542, R543, R553, R454) -/

/-- The code of a sequencer state (R542). -/
def seqCode : SeqState → Nat
  | .off => 0
  | .starting => 1
  | .on => 2
  | .held => 3
  | .shuttingDown => 4
  | .railsOff => 5
  | .minOff => 6

/-- The output of POWER_QUERY. -/
def powerOut (s : State) : List Byte :=
  bytesOf 1 (seqCode s.power.seq) ++ bytesOf 1 (b2n s.power.cascade) ++ bytesOf 2 s.power.cause.toNat ++
    bytesOf 4 s.power.good.toNat ++ bytesOf 4 s.power.flagged.toNat ++ bytesOf 4 s.power.e.toNat ++
    bytesOf 1 s.write.budget.toNat ++ bytesOf 3 (if s.power.firstSet then s.power.firstRail.toNat else 0xFF) ++
    bytesOf 8 s.power.firstFt.toNat ++ bytesOf 4 s.power.firstHours.toNat

/-- POWER_QUERY. -/
def execPowerQuery (c : Caller) (inp : List Byte) (s : State) : Res :=
  onVendor { op := 0xC500, host := false, star := true, outLen := 32 } c inp noCheck noCheck (vQuery powerOut) id s

/-- The writes of some option-area bytes: every chunk they touch, with the bytes in place (R525, R527). -/
def optionReqs (off : Nat) (data : List Byte) (s : State) : List SbReq :=
  let o := optionArea s.sb.cells
  let o := o.take off ++ data ++ o.drop (off + data.length)
  let last := (off + data.length - 1) / 240
  ((List.range 18).filter (fun i => Nat.ble (off / 240) i && Nat.ble i last)).map (fun i =>
    .ring 0x10 i (padTo 240 ((o.drop (240 * i)).take 240)))

/-- POWER_TABLE_SET: bytes 0 to 5 of a rail entry (R527). -/
def execPowerTableSet (c : Caller) (inp : List Byte) (s : State) : Res :=
  let r := field inp 0 1
  onVendor { op := 0xC501, host := false, star := true, lock := true, fields := [(0, 1), (2, 2), (4, 2), (6, 2)] } c inp
    (fun _ => firstOf [chk (Nat.blt 31 r) (vRange 0), chk (field inp 6 2 == 0) (vRange 6)])
    noCheck
    (vWrite (optionReqs (0x100 + 16 * r) ((inp.drop 2).take 6)) id) id s

/-- POWER_DOWN: the off request follows its answer. -/
def execPowerDown (c : Caller) (inp : List Byte) (s : State) : Res :=
  onVendor { op := 0xC502, host := false, star := true } c inp noCheck
    (fun s => chk (match s.power.seq with | .starting => false | .on => false | .held => false | _ => true) (vState (powerOut s)))
    (fun s => (vDone [], s)) (powerOff 3) s

/-- POWER_UP: the job ends when the on table completes. -/
def execPowerUp (c : Caller) (inp : List Byte) (s : State) : Res :=
  onVendor { op := 0xC503, host := false, star := true } c inp noCheck
    (fun s => chk (match s.power.seq with | .starting => true | .on => true | _ => false) (vState (powerOut s)))
    (vStart 0xC503 c .powerUp) powerOn s

/-! ## Thermal (R578, R583, R584, R454) -/

/-- The code of a throttle state (R578). -/
def throttleCode : Throttle → Nat
  | .none => 0
  | .notice => 1
  | .brake => 2
  | .shutdown => 3

/-- The mask of broken on-die sensors. -/
def brokenMask (s : State) : Nat :=
  ((List.range 24).filter (fun i => (sensorOf s i).broken)).foldl (fun m i => m + 2 ^ i) 0

/-- The output of THERMAL_QUERY. -/
def thermalOut (s : State) : List Byte :=
  bytesOf 2 s.therm.tg.toNat ++ bytesOf 2 s.therm.notice.toNat ++ bytesOf 2 s.therm.grace.toNat ++
    bytesOf 2 (throttleCode s.therm.throttle) ++ bytesOf 4 (brokenMask s) ++ bytesOf 1 (b2n s.therm.record.isSome)

/-- THERMAL_QUERY. -/
def execThermalQuery (c : Caller) (inp : List Byte) (s : State) : Res :=
  onVendor { op := 0xC504, host := true, star := true, outLen := 13 } c inp noCheck noCheck (vQuery thermalOut) id s

/-- THERMAL_CONFIG: the state is judged against the new levels from the next sample (R584). -/
def execThermalConfig (c : Caller) (inp : List Byte) (s : State) : Res :=
  let n := field inp 0 2
  let g := field inp 2 2
  onVendor { op := 0xC505, host := false, star := true, fields := [(0, 2), (2, 2)] } c inp
    (fun _ => firstOf [
      chk (Nat.blt n 85 || Nat.blt 110 n) (vRange 0),
      chk (Nat.blt g 1 || Nat.blt 1000 g) (vRange 2)])
    noCheck
    (fun s => (vDone [], setTherm (fun t => { t with notice := BitVec.ofNat 8 n, grace := BitVec.ofNat 10 g }) s)) id s

/-- SHUTDOWN_RECORD_CLEAR: while a thermal shutdown runs, the main domains are off for it (R584). -/
def execShutdownRecordClear (c : Caller) (inp : List Byte) (s : State) : Res :=
  onVendor { op := 0xC506, host := false, star := true } c inp noCheck
    (fun s => firstOf [chk (s.therm.throttle == .shutdown) (vDown 0), chk s.therm.record.isNone (vState (thermalOut s))])
    (vWrite (fun _ => [.ring 0x66 0 (shutPayload none)]) (setTherm (fun t => { t with record := none }))) id s

end Sys2Proof.Machine
end

