-- ==== Sys2Proof/Machine/VendorSec.lean ====
section
/-! DEFINITION. The Strongbox, calibration, Waybill, injection and security groups of vendor opcodes, and the injection registers'
arm and disarm (R455, R456, R502, R515 to R518, R520, R527, R529, R616, R619). -/

namespace Sys2Proof.Machine

/-! ## Strongbox and calibration (R455, R520, R527, R529) -/

/-- The partitions: ID, offset, size (R520). -/
def partitions : List (Nat × Nat × Nat) :=
  [(0, 0, 0x800000), (1, 0x800000, 0x8000), (2, 0x808000, 0x80000), (3, 0x888000, 0x80000), (4, 0x908000, 0x10000),
   (5, 0x918000, 0x10000), (6, 0x928000, 0x80000), (7, 0xC00000, 0x400000)]

/-- The output of SBOX_QUERY. -/
def sboxOut (_s : State) : List Byte :=
  bytesOf 4 partitions.length ++ partitions.flatMap (fun p => bytesOf 4 p.1 ++ bytesOf 4 p.2.1 ++ bytesOf 4 p.2.2)

/-- SBOX_QUERY. -/
def execSboxQuery (c : Caller) (inp : List Byte) (s : State) : Res :=
  onVendor { op := 0xC600, host := false, star := true, outLen := 100 } c inp noCheck noCheck (vQuery sboxOut) id s

/-- SBOX_READ: the key store is protected at every level. -/
def execSboxRead (c : Caller) (inp : List Byte) (s : State) : Res :=
  let p := field inp 0 1
  let off := field inp 4 4
  let n := field inp 8 2
  let keys := p == 5 && inp != []
  let part := (sfind partitions p).getD (0, 0)
  onVendor { op := 0xC601, host := false, star := true, fields := if keys then [] else [(0, 1), (4, 4), (8, 2)], outLen := 4088 } c inp
    (fun _ => firstOf [
      chk keys vProtected,
      chk (Nat.blt 7 p) (vRange 0),
      chk (Nat.ble part.2 off) (vRange 4),
      chk (Nat.blt n 1 || Nat.blt 4088 n || Nat.blt part.2 (off + n)) (vRange 8)])
    noCheck (vQuery (fun s => sbBytes s (part.1 + off) n)) id s

/-- OPTION_WRITE. -/
def execOptionWrite (c : Caller) (inp : List Byte) (s : State) : Res :=
  let off := field inp 0 2
  let n := field inp 2 2
  onVendor { op := 0xC602, host := false, star := true, lock := true, fields := [(0, 2), (2, 2)] } c inp
    (fun _ => firstOf [
      chk (Nat.blt 4095 off) (vRange 0),
      chk (Nat.blt n 1 || Nat.blt 256 n || Nat.blt 4096 (off + n)) (vRange 2),
      chk (Nat.blt inp.length (4 + n)) (vRange 4)])
    noCheck (vWrite (optionReqs off ((inp.drop 4).take n)) id) id s

/-- CLEAR_GEN as the overlay header holds it. -/
def clearGen (s : State) : Nat := field ((ringPayload s.sb.cells 0x30 0).getD []) 0 6

/-- The write of a die overlay at the current CLEAR_GEN (R529). -/
def overlayReq (die : Nat) (deltas : List Byte) (s : State) : SbReq := .ring 0x31 die (bytesOf 6 (clearGen s) ++ deltas)

/-- CAL_OVERLAY_WRITE. -/
def execCalOverlayWrite (c : Caller) (inp : List Byte) (s : State) : Res :=
  let die := field inp 0 2
  onVendor { op := 0xC603, host := false, star := false, lock := true, fields := [(0, 2), (4, 28)] } c inp
    (fun _ => chk (Nat.blt 511 die) (vRange 0)) noCheck
    (vWrite (fun s => [overlayReq die ((inp.drop 4).take 28) s]) id) id s

/-- CAL_OVERLAY_CLEAR: one die's deltas zeroed, or CLEAR_GEN one up for every die. -/
def execCalOverlayClear (c : Caller) (inp : List Byte) (s : State) : Res :=
  let die := field inp 0 2
  onVendor { op := 0xC604, host := false, star := false, lock := true, fields := [(0, 2)] } c inp
    (fun _ => chk (Nat.blt 511 die && die != 0xFFFF) (vRange 0)) noCheck
    (vWrite (fun s =>
      if die = 0xFFFF then [.ring 0x30 0 (bytesOf 6 (clearGen s + 1))] else [overlayReq die (List.replicate 28 0) s]) id) id s

/-! ## Waybill (R456, R501, R502) -/

/-- The kept records at or above a sequence, each once, in sequence order, at most `n`. -/
def wbFrom (s : State) (first : BitVec 32) (n : Nat) : List WbRec :=
  let seqs := s.wb.buffer.map (fun b => b.rcd.seq)
  let area := (wbKept s).filter (fun r => !seqs.contains r.seq)
  let all := (area ++ s.wb.buffer.map BufRec.rcd).filter (fun r => seqGe r.seq first)
  (all.mergeSort (fun a b => Nat.ble (a.seq - first).toNat (b.seq - first).toNat)).take n

/-- WAYBILL_READ. -/
def execWaybillRead (c : Caller) (inp : List Byte) (s : State) : Res :=
  let n := field inp 4 1
  onVendor { op := 0xC700, host := false, star := true, fields := [(0, 4), (4, 1)], outLen := 4044 } c inp
    (fun _ => chk (Nat.blt n 1 || Nat.blt 63 n) (vRange 4)) noCheck
    (vQuery (fun s =>
      let rs := wbFrom s (BitVec.ofNat 32 (field inp 0 4)) n
      bytesOf 4 s.wb.next.toNat ++ bytesOf 4 s.wb.lost.toNat ++ bytesOf 4 rs.length ++ rs.flatMap (fun r => wbBytes r false))) id s

/-- Every event code (R508). -/
def evCodes : List Nat :=
  [0x0001, 0x0002, 0x0003, 0x0101, 0x0102] ++ (List.range 15).map (fun i => 0x0201 + i) ++ (List.range 5).map (fun i => 0x0301 + i) ++
    [0x0401, 0x0402] ++ (List.range 6).map (fun i => 0x0501 + i) ++ [0x0601, 0x0602, 0x0701, 0x0702, 0x0801, 0x0802] ++
    (List.range 4).map (fun i => 0x0901 + i)

/-- The rate and burst of some codes: the tokens held are kept, up to the new burst (R502). -/
def setRate (codes : List Nat) (rate burst : Nat) (s : State) : State :=
  codes.foldl (fun s k =>
    let b := bucketNow s k
    let b := { b with rate := BitVec.ofNat 8 rate, burst := BitVec.ofNat 8 burst, tokens := min b.tokens (burst * 1000000000) }
    { s with wb := { s.wb with buckets := sset {} s.wb.buckets k b } }) s

/-- WAYBILL_RATE. -/
def execWaybillRate (c : Caller) (inp : List Byte) (s : State) : Res :=
  let code := field inp 0 2
  let rate := field inp 2 1
  let burst := field inp 3 1
  onVendor { op := 0xC701, host := false, star := true, fields := [(0, 2), (2, 1), (3, 1)] } c inp
    (fun _ => firstOf [
      chk (code != 0xFFFF && !evCodes.contains code) (vRange 0),
      chk (rate == 0) (vRange 2),
      chk (burst == 0) (vRange 3)])
    noCheck (fun s => (vDone [], setRate (if code = 0xFFFF then evCodes else [code]) rate burst s)) id s

/-! ## Injection (R515 to R518) -/

/-- The output of SEC_QUERY. -/
def secOut (s : State) : List Byte :=
  bytesOf 1 s.sec.pl.toNat ++
    bytesOf 1 (((List.range 4).filter (fun p => (portOf s p).ideActive)).foldl (fun m p => m + 2 ^ p) 0) ++
    bytesOf 2 (((List.range 64).filter (fun i => (ldOf s i).keyState)).length) ++ bytesOf 4 s.fw.runSvn.toNat

/-- The unit class a point is armed on, none for an undefined point (R517). -/
def pointClass (p : Nat) : Option Nat :=
  if [0x0001, 0x0002, 0x0004, 0x0005, 0x0006, 0x000C, 0x000D, 0x000E, 0x0013, 0x0014, 0x0018].contains p then some 0
  else if p = 0x0003 then some 6
  else if [0x0007, 0x0015, 0x0016, 0x0017].contains p then some 3
  else if p = 0x0008 ∨ p = 0x0009 then some 2
  else if p = 0x000A ∨ p = 0x0019 then some 5
  else if p = 0x000B then some 9
  else if p = 0x000F then some 7
  else if p = 0x0010 then some 8
  else if p = 0x0011 ∨ p = 0x0012 then some 13
  else none

/-- RANGE and UNKNOWN_UNIT of an arm; the L1 refuses the span's points (R518, note to R519). -/
def armEarly (p u : Nat) (s : State) : Option VAns :=
  firstOf [
    chk ((pointClass p).isNone || (!hasSpan s && (p == 0x0011 || p == 0x0012))) (vRange 0),
    chk (Nat.blt 0 (classCount (uClass u)) && pointClass p != some (uClass u)) (vRange 4),
    chk (!unitKnown u) (vUnknownUnit u)]

/-- UNIT_DOWN and STATE of an arm (R518). -/
def armLate (p u : Nat) (s : State) : Option VAns :=
  firstOf [
    chk (isDown (reportedState s u)) (vDown u),
    chk (s.evt.armed.any (fun a => a.point.toNat == p && a.unit.toNat == u) || Nat.ble 32 s.evt.armed.length)
      (vState (secOut s))]

/-- A point armed. A rail's power-good and the time source start at the arming (R515, R517). -/
def arm (a : Armed) (s : State) : State :=
  let p := a.point.toNat
  let u := a.unit.toNat
  let s := { s with evt := { s.evt with armed := s.evt.armed ++ [a] } }
  if p = 0x0018 then fireStart p u s
  else if p = 0x0010 then
    let us := a.mask.toNat % 65536
    if us < 10 then pgGlitch (uIndex u) (fire p u s)
    else pgLost (uIndex u) (fireStart p u s)
  else s

/-- INJECT_ARM. -/
def execInjectArm (c : Caller) (inp : List Byte) (s : State) : Res :=
  let p := field inp 0 2
  let u := field inp 4 3
  let a : Armed := { point := BitVec.ofNat 16 p, unit := BitVec.ofNat 24 u, word := BitVec.ofNat 8 (field inp 7 1)
                     mask := BitVec.ofNat 64 (field inp 8 8), check := BitVec.ofNat 16 (field inp 16 2)
                     copy := BitVec.ofNat 2 (min 2 (field inp 18 1)), active := false }
  onVendor { op := 0xC702, host := false, star := false, lock := true, fields := [(0, 2), (4, 4), (8, 8), (16, 2)] } c inp
    (armEarly p u) (armLate p u)
    (fun s => (vDone [], s)) (arm a) s

/-- Points disarmed: every one, or one point of one unit. -/
def disarm (p u : Nat) (s : State) : State :=
  { s with evt := { s.evt with armed :=
      if p = 0xFFFF then [] else s.evt.armed.filter (fun a => !(a.point.toNat == p && a.unit.toNat == u)) } }

/-- INJECT_DISARM. -/
def execInjectDisarm (c : Caller) (inp : List Byte) (s : State) : Res :=
  onVendor { op := 0xC703, host := false, star := false, lock := true, fields := [(0, 2), (4, 4)] } c inp noCheck noCheck
    (fun s => (vDone [], disarm (field inp 0 2) (field inp 4 3) s)) id s

/-- INJ_CTRL.ARM: ignored at PL1 and PL2; a refused arm sets INJ_CTRL.REFUSED (R518). -/
def regArm (s : State) : State :=
  let p := s.evt.injPoint.toNat
  let u := s.evt.injUnit.toNat
  if 1 ≤ s.sec.pl.toNat then s
  else
    match firstOf [armEarly p u s, armLate p u s] with
    | some _ => { s with evt := { s.evt with refused := true } }
    | none =>
      let a : Armed := { point := s.evt.injPoint, unit := s.evt.injUnit, word := s.evt.injWord, mask := s.evt.injHi ++ s.evt.injLo
                         check := s.evt.injCheck, copy := BitVec.ofNat 2 (min 2 s.evt.injCopy.toNat), active := false }
      arm a s

/-- INJ_CTRL.DISARM: the selected point of the selected unit; ignored at PL1 and PL2 (R518). -/
def regDisarm (s : State) : State :=
  if 1 ≤ s.sec.pl.toNat then s else disarm s.evt.injPoint.toNat s.evt.injUnit.toNat s

/-- INJ_CTRL.ARM. -/
def execInjCtrlArm (s : State) : Res := ran (regArm (begin s))

/-- INJ_CTRL.DISARM. -/
def execInjCtrlDisarm (s : State) : Res := ran (regDisarm (begin s))

/-- INJECT_DURATION_END: a point that lasts disarms at the end of its duration (R515). -/
def execInjectDurationEnd (point : BitVec 16) (unit : BitVec 24) (s : State) : Res :=
  let s := begin s
  match activePoint s point.toNat unit.toNat with
  | some _ => ran (disarm point.toNat unit.toNat s)
  | none => ran s

/-! ## Security (R456, R616, R619, R620) -/

/-- SEC_QUERY. -/
def execSecQuery (c : Caller) (inp : List Byte) (s : State) : Res :=
  onVendor { op := 0xC704, host := true, star := true, outLen := 8 } c inp noCheck noCheck (vQuery secOut) id s

/-- Whether the authorization block of a transition R619 permits holds. -/
def authorized (s : State) (target : Nat) (block : List Byte) : Bool :=
  if s.sec.pl.toNat = 0 then field block 0 2 == 1 && field block 2 2 == 0 && Nat.ble 101 block.length
  else field block 0 2 == 2 && field block 2 1 == target && field block 3 1 == 0 && field block 4 8 == s.id.serial.toNat &&
    field block 12 6 == s.sec.plseq.toNat && field block 18 2 == 0 && Nat.ble 116 block.length && s.sec.owner != [] &&
    Config.verify s.sec.owner (block.take 20) ((block.drop 20).take 96)

/-- The transitions R619 permits. -/
def plPermitted (s : State) (target : Nat) : Bool :=
  match s.sec.pl.toNat with
  | 0 => target == 1 || target == 2
  | 1 => target == 2 || target == 0
  | _ => false

/-- The writes that raise the level: the owner key from PL0, and PLSTATE (R611, R619). -/
def raiseReqs (target : Nat) (block : List Byte) (s : State) : List SbReq :=
  (if s.sec.pl.toNat = 0 then [.ring 0x52 0 ((block.drop 4).take 97)] else []) ++
    [.ring 0x51 0 (plPayload (setSec (fun x => { x with pl := BitVec.ofNat 2 target, plseq := x.plseq + 1 }) s))]

/-- The level raised, with the owner key taken from PL0. -/
def raise (target : Nat) (block : List Byte) (s : State) : State :=
  let s := if s.sec.pl.toNat = 0 then setSec (fun x => { x with owner := (block.drop 4).take 97 }) s else s
  setLevel target s

/-- The lowering begun: credits withheld, then its steps (R620). -/
def lowerBegin (s : State) : State :=
  if s.sec.lowering ≠ 0 then s
  else
    let s := setSec (fun x => { x with lowering := 1 }) s
    lowerAdvance { s with host := { s.host with creditsHeld := true } }

/-- PL_SET. -/
def execPlSet (c : Caller) (inp : List Byte) (s : State) : Res :=
  let target := field inp 0 1
  let block := inp.drop 4
  onVendor { op := 0xC705, host := false, star := false, fields := [(0, 1)] } c inp
    (fun s => firstOf [
      chk (inp != [] && plPermitted s target && !authorized s target block) vProtected,
      chk (Nat.blt 2 target) (vRange 0),
      chk (Nat.blt 512 block.length) (vRange 4)])
    (fun s => chk (!plPermitted s target || (target == 0 && (s.span.desc.isSome || s.host.lds.any (fun d => d.erase.isSome))) ||
      (target == 2 && s.sec.lowering != 0)) (vState (secOut s)))
    (if target = 0 then vStart 0xC705 c .lower else vWrite (raiseReqs target block) (raise target block))
    (if target = 0 then lowerBegin else id) s

/-- The member whose place a remount holds. -/
def remountMember (s : State) (pool : Nat) : Option Nat :=
  (memberOf s pool).filter (fun r => (peerOf s r).st.toNat == psRemount)

/-- Whether this device, as outrider of the lost member a remount replaces, holds that member's key of an LD (R616). -/
def holdsKeyFor (s : State) (pool i : Nat) : Bool :=
  match remountMember s pool with
  | some r => r != ownIndex s && ((wardOf s (wardPool s r)).bind (fun w => sfind w.keys i)).isSome
  | none => false

/-- A key transfer served at once when the remount's request already waits. -/
def serveKey (pool i : Nat) (s : State) : State :=
  match s.span.keyAsks.find? (fun a => memberPool s a.1 == pool && a.2.2.2 == i) with
  | some (r, tag, ward, i) =>
    let s := giveRemountKey r tag ward i { s with span := { s.span with keyAsks := s.span.keyAsks.filter (fun a => a.2.1 != tag) } }
    (match s.unit.running.find? (fun j => j.kind == .keyTransfer i pool) with
    | some j => endJob j.id 0 s
    | none => s)
  | none => s

/-- LD_KEY_TRANSFER. -/
def execLdKeyTransfer (c : Caller) (inp : List Byte) (s : State) : Res :=
  let ld := fun s => ldNamed s c (field inp 0 1)
  let pool := field inp 2 2
  onVendor { op := 0xC706, host := false, star := false, span := true, fields := [(0, 1), (2, 2)] } c inp
    (fun s => firstOf [chk (ld s).isNone (vRange 0), chk (Nat.blt 511 pool) (vRange 2)])
    (fun s => chk (!holdsKeyFor s pool ((ld s).getD 0)) (vState (secOut s)))
    (fun s => vStart 0xC706 c (.keyTransfer ((ld s).getD 0) pool) s)
    (fun s => serveKey pool ((ld s).getD 0) s) s

end Sys2Proof.Machine
end

