-- ==== Sys2Proof/Machine/Counters.lean ====
section
/-! DEFINITION. The writes that clear statistics counters and the one that starts a Waybill flush. Bit i of `inc` says that the
counter named i increments in the same cycle, which leaves it at 1. -/

namespace Sys2Proof.Machine

/-- READSTAT_CTRL.CLEAR: 0 RETRY, 1 AROUND, 2 BOUNDB, 3 BOUNDC, 4 SUSPEND (R153, R154). -/
def clearReadstat (inc : Byte) (s : State) : State :=
  { s with rstat :=
    { retry := clearCtr inc 0, around := clearCtr inc 1, boundB := clearCtr inc 2, boundC := clearCtr inc 3, suspend := clearCtr inc 4
      maxLat := 0 } }

/-- WRITESTAT_CTRL.CLEAR: 0 PACED, 1 EXPOSED (R186, R187). -/
def clearWritestat (inc : Byte) (s : State) : State :=
  { s with write := { s.write with paced := clearCtr inc 0, exposedCnt := clearCtr inc 1 } }

/-- CACHE_CTRL.CLEAR: 0 NCHIT, 1 BCHIT, 2 MISS, 3 PREFETCH (R219, R220). -/
def clearCachestat (inc : Byte) (s : State) : State :=
  { s with cache := { s.cache with
    ncHit := clearCtr inc 0, bcHit := clearCtr inc 1, miss := clearCtr inc 2, prefetchHit := clearCtr inc 3 } }

/-- MCH_RETRAIN.CLEAR: 0 CACHECK, 1 FRAMEERR, 2 PFAIL, 3 CFAIL, 4 RETRAIN of the channel (R261, R262); nothing on a channel the
variant lacks. -/
def clearMch (ch : Nat) (inc : Byte) (s : State) : State :=
  if nChannels s ≤ ch then s
  else
    { s with media := { s.media with carters := smod {} s.media.carters ch (fun (k : Carter) =>
      { k with caCheck := clearCtr inc 0, frameErr := clearCtr inc 1, pfail := clearCtr inc 2, cfail := clearCtr inc 3
               retrains := clearCtr inc 4 }) } }

/-- MMSTAT_CTRL.CLEAR: 0 FOLDS, 1 ABANDON, 2 REFRESH (R313, R314). -/
def clearMmstat (inc : Byte) (s : State) : State :=
  { s with mm := { s.mm with folds := clearCtr inc 0, abandon := clearCtr inc 1, refresh := clearCtr inc 2 } }

/-- LPSTAT_CTRL.CLEAR: 0 REBUILD, 1 LOCATED, 2 TIE, 3 POISON, and of the die LP_DIESEL selects 4 DIEWEAK, 5 DIEFAIL; every other
die's pair goes to 0, the 24 h counts stay (R345, R346). -/
def clearLpstat (inc : Byte) (s : State) : State :=
  { s with lp := { s.lp with
    rebuild := clearCtr inc 0, located := clearCtr inc 1, tie := clearCtr inc 2, poison := clearCtr inc 3
    dieWeak := sset 0 [] s.lp.dieSel.toNat (clearCtr inc 4), dieFail := sset 0 [] s.lp.dieSel.toNat (clearCtr inc 5) } }

/-- SPANSTAT_CTRL.CLEAR: 0 RECORDS, 1 RESEND, 2 DELTAS, 3 RECONOUT, 4 RECONIN (R400, R401); the L1 has no span registers. -/
def clearSpanstat (inc : Byte) (s : State) : State :=
  if !hasSpan s then s
  else
    { s with span := { s.span with
      cRecords := clearCtr inc 0, cResend := clearCtr inc 1, cDeltas := clearCtr inc 2, cReconOut := clearCtr inc 3
      cReconIn := clearCtr inc 4 } }

/-- TTSTAT_CTRL.CLEAR: 0 WINDOWS, 1 REROUTED, 2 WAITED (R430, R431). -/
def clearTtstat (inc : Byte) (s : State) : State :=
  { s with tt := { s.tt with windows := clearCtr inc 0, rerouted := clearCtr inc 1, waited := clearCtr inc 2 } }

/-- STRONGBOX_CTRL.CLEAR: 0 ABANDON, 1 WEAK, 2 TIE (R538, R539). -/
def clearStrongbox (inc : Byte) (s : State) : State :=
  { s with sb := { s.sb with abandon := clearCtr inc 0, weak := clearCtr inc 1, tie := clearCtr inc 2 } }

/-- PWR_CTRL.CLEAR: 0 GLITCH (R568, R569). -/
def clearPwr (inc : Byte) (s : State) : State :=
  { s with power := { s.power with glitches := clearCtr inc 0 } }

/-- THRMSTAT_CTRL.CLEAR: 0 BRAKE (R585, R586). -/
def clearThrmstat (inc : Byte) (s : State) : State :=
  { s with therm := { s.therm with brakeMs := clearCtr inc 0 } }

/-- WB_CTRL.FLUSH: every unflushed record is flushed (R503). -/
def startFlush (s : State) : State := if s.start.sillUp then wbFlush s else s

/-- READSTAT_CTRL.CLEAR. -/
def execReadstatCtrlClear (inc : Byte) (s : State) : Res := ran (clearReadstat inc (begin s))

/-- WRITESTAT_CTRL.CLEAR. -/
def execWritestatCtrlClear (inc : Byte) (s : State) : Res := ran (clearWritestat inc (begin s))

/-- CACHE_CTRL.CLEAR. -/
def execCacheCtrlClear (inc : Byte) (s : State) : Res := ran (clearCachestat inc (begin s))

/-- MCH_RETRAIN.CLEAR. -/
def execMchRetrainClear (ch : Fin 32) (inc : Byte) (s : State) : Res := ran (clearMch ch.val inc (begin s))

/-- MMSTAT_CTRL.CLEAR. -/
def execMmstatCtrlClear (inc : Byte) (s : State) : Res := ran (clearMmstat inc (begin s))

/-- LPSTAT_CTRL.CLEAR. -/
def execLpstatCtrlClear (inc : Byte) (s : State) : Res := ran (clearLpstat inc (begin s))

/-- SPANSTAT_CTRL.CLEAR. -/
def execSpanstatCtrlClear (inc : Byte) (s : State) : Res := ran (clearSpanstat inc (begin s))

/-- TTSTAT_CTRL.CLEAR. -/
def execTtstatCtrlClear (inc : Byte) (s : State) : Res := ran (clearTtstat inc (begin s))

/-- STRONGBOX_CTRL.CLEAR. -/
def execStrongboxCtrlClear (inc : Byte) (s : State) : Res := ran (clearStrongbox inc (begin s))

/-- PWR_CTRL.CLEAR. -/
def execPwrCtrlClear (inc : Byte) (s : State) : Res := ran (clearPwr inc (begin s))

/-- THRMSTAT_CTRL.CLEAR. -/
def execThrmstatCtrlClear (inc : Byte) (s : State) : Res := ran (clearThrmstat inc (begin s))

/-- WB_CTRL.FLUSH. -/
def execWbCtrlFlush (s : State) : Res := ran (startFlush (begin s))

end Sys2Proof.Machine
end

