-- ==== Sys2Proof/Machine/CxlCmds.lean ====
section
/-! DEFINITION. The CXL commands (R432 to R436, R458, R460, R592, R595 to R597, R622, R623). What the manual leaves to CXL is taken
from CXL (PRESUMED, log entry 57). -/

namespace Sys2Proof.Machine

/-! ## The frame of a CXL command -/

/-- What a CXL or FM API command answers. -/
abbrev CAns := Rc × CxlOut

/-- A CXL or FM API command from its arrival to its answer: Unsupported for an FM API command on a host LD mailbox, Media Disabled on
the sideband while the main domains are off, Busy while the management complex restarts or a command needs memory that is not active. -/
def onCxl (c : Caller) (fm memory : Bool) (act : State → CAns × State) (after : State → State) (s : State) : Res :=
  let s := begin s
  if !reach s c then ran s
  else if turnsAway s c then ran (send s (.cxl c .busy .none))
  else if !cmdUp s then ran (send s (.cxl c .mediaDisabled .none))
  else if fm && isHostLd s c then ran (send s (.cxl c .unsupported .none))
  else if memory && !s.host.memoryActive then ran (send s (.cxl c .busy .none))
  else
    let r := act s
    let s := send r.2 (.cxl c r.1.1 r.1.2)
    ran (if r.1.1 = .success ∨ r.1.1 = .background then after s else s)

/-- An action on the LD a command names; none is Invalid Input. -/
def onLd (c : Caller) (ldb : Byte) (f : Nat → State → CAns × State) (s : State) : CAns × State :=
  match ldNamed s c ldb.toNat with
  | some i => f i s
  | none => ((.invalidInput, .none), s)

/-- An answer with no effect. -/
def tell (rc : Rc) (o : CxlOut) (s : State) : CAns × State := ((rc, o), s)

/-- An effect answered with Success. -/
def did (s : State) : CAns × State := ((.success, .none), s)

/-! ## Identity and health -/

/-- The frames of an LD, static and dynamic. -/
def ldFrames (d : Ld) : Nat := d.ranges.foldl (fun a r => a + r.length) 0

/-- IDENTIFY_MEMORY_DEVICE: capacities in multiples of 256 MiB. -/
def execIdentifyMemoryDevice (c : Caller) (ldb : Byte) (s : State) : Res :=
  onCxl c false false (onLd c ldb (fun i s =>
    let n := ldFrames (ldOf s i) / 64
    tell .success (.identify n n 0 0 0 4096) s)) id s

/-- Life Used in percent: the larger of the dense and the fast share. A position of a fast set is taken to have 1/131,076 of the
programs that WEAR counts for the set (DEDUCED from R98's gap rotation, log entry 23). -/
def lifeUsed (s : State) : Nat :=
  let cc := s.media.stamps.foldl (fun m e => if e.2.fast then m else max m e.2.ccount.toNat) 0
  let wear := s.xlat.fdesc.foldl (fun m e => max m (e.2.wear.toNat / 131076)) 0
  min 100 (max (100 * cc / 200000) (100 * wear / 100000000))

/-- GET_HEALTH_INFO. -/
def execGetHealthInfo (c : Caller) (ldb : Byte) (s : State) : Res :=
  onCxl c false false (onLd c ldb (fun _ s =>
    tell .success (.health (lifeUsed s) (BitVec.ofInt 16 (tgNow s / 8)) s.host.dirtyShutdowns s.host.volErrors s.host.perErrors
      s.host.mediaStatus) s)) id s

/-! ## Event logs (R458, R509) -/

/-- GET_EVENT_RECORDS: the oldest records that fit the path's payload. -/
def execGetEventRecords (c : Caller) (ldb : Byte) (log : Fin 5) (s : State) : Res :=
  onCxl c false false (onLd c ldb (fun i s =>
    let d := ldOf s i
    tell .success (.events ((d.logs.getD log []).take ((payloadMax c - 32) / 128)) (d.logOverflow.getD log false)) s)) id s

/-- CLEAR_EVENT_RECORDS: every record, or those named; a handle the log does not hold changes nothing. -/
def execClearEventRecords (c : Caller) (ldb : Byte) (log : Fin 5) (all : Bool) (handles : List (BitVec 16)) (s : State) : Res :=
  onCxl c false false (onLd c ldb (fun i s =>
    let recs := (ldOf s i).logs.getD log []
    if !all && !handles.all (fun h => recs.any (fun r => r.handle == h)) then tell .invalidHandle .none s
    else
      did (setLd i (fun d => { d with
        logs := lmod d.logs log (fun rs => if all then [] else rs.filter (fun r => !handles.contains r.handle))
        logOverflow := lmod d.logOverflow log (fun _ => false) }) s))) id s

/-- GET_EVENT_INTERRUPT_POLICY. -/
def execGetEventInterruptPolicy (c : Caller) (ldb : Byte) (s : State) : Res :=
  onCxl c false false (onLd c ldb (fun i s => tell .success (.policy (ldOf s i).policy) s)) id s

/-- SET_EVENT_INTERRUPT_POLICY. -/
def execSetEventInterruptPolicy (c : Caller) (ldb : Byte) (policy : BitVec 40) (s : State) : Res :=
  onCxl c false false (onLd c ldb (fun i s => did (setLd i (fun d => { d with policy := policy }) s))) id s

/-! ## The Command Effects Log (R443, R458) -/

/-- The CXL opcodes of R458 and the FM API opcodes of R459, as CXL numbers them (PRESUMED, log entry 57). -/
def cxlOpcodes : List Nat :=
  [0x0100, 0x0101, 0x0102, 0x0103, 0x0200, 0x0201, 0x0202, 0x0300, 0x0301, 0x0400, 0x0401, 0x4000, 0x4200, 0x4300, 0x4301, 0x4302,
   0x4400, 0x4401, 0x4800, 0x4801, 0x4802, 0x4803]
def fmOpcodes : List Nat := [0x0001, 0x5400, 0x5401, 0x5402, 0x5403, 0x5404, 0x5405, 0x5406, 0x5407, 0x5408, 0x5409, 0x5601, 0x5603, 0x5604, 0x5605]

/-- Vendor opcodes by who may send them: host LD and FM mailboxes, then FM mailboxes only (R447 to R456). -/
def hostVendor : List Nat :=
  [0xC000, 0xC001, 0xC002, 0xC100, 0xC200, 0xC201, 0xC202, 0xC203, 0xC204, 0xC400, 0xC504, 0xC704]
def fmVendor (s : State) : List Nat :=
  [0xC101, 0xC102, 0xC103, 0xC104, 0xC105, 0xC106, 0xC205] ++ (if hasSpan s then (List.range 8).map (fun i => 0xC300 + i) else []) ++
    [0xC401, 0xC402, 0xC403, 0xC500, 0xC501, 0xC502, 0xC503, 0xC505, 0xC506, 0xC600, 0xC601, 0xC602, 0xC603, 0xC604, 0xC700, 0xC701,
     0xC702, 0xC703, 0xC705] ++ (if hasSpan s then [0xC706] else [])

/-- The opcodes a caller's path accepts. -/
def celOf (s : State) (c : Caller) : List Nat :=
  if isHostLd s c then cxlOpcodes ++ hostVendor else cxlOpcodes ++ fmOpcodes ++ hostVendor ++ fmVendor s

/-- GET_SUPPORTED_LOGS: the Command Effects Log only, log 0 here. -/
def execGetSupportedLogs (c : Caller) (ldb : Byte) (s : State) : Res :=
  onCxl c false false (onLd c ldb (fun _ s => tell .success (.logs [0]) s)) id s

/-- GET_LOG: the entries of 4 bytes that lie in the part asked for. -/
def execGetLog (c : Caller) (ldb : Byte) (offset : BitVec 32) (length : BitVec 32) (s : State) : Res :=
  onCxl c false false (onLd c ldb (fun _ s =>
    let l := celOf s c
    if 4 * l.length < offset.toNat + length.toNat ∨ payloadMax c < length.toNat then tell .invalidInput .none s
    else tell .success (.cel (((l.drop (offset.toNat / 4)).take (length.toNat / 4)).map (BitVec.ofNat 16))) s)) id s

/-! ## The timestamp (R458) -/

/-- GET_TIMESTAMP. -/
def execGetTimestamp (c : Caller) (ldb : Byte) (s : State) : Res :=
  onCxl c false false (onLd c ldb (fun i s =>
    tell .success (.timestamp (match (ldOf s i).tsOffset with | some o => s.time.ftime + o | none => 0)) s)) id s

/-- SET_TIMESTAMP: held as an offset from FTIME. -/
def execSetTimestamp (c : Caller) (ldb : Byte) (value : BitVec 64) (s : State) : Res :=
  onCxl c false false (onLd c ldb (fun i s => did (setLd i (fun d => { d with tsOffset := some (value - s.time.ftime) }) s))) id s

/-! ## Firmware (R458, R595 to R597, R622, R623) -/

/-- The area of slot 1, that of the higher ASEQ, and of slot 2. -/
def slotArea (s : State) (slot : Nat) : Nat :=
  let high := if areaSeq s 0 < areaSeq s 1 then 1 else 0
  if slot = 1 then high else 1 - high

/-- The version an area holds, 0 for none that is valid. -/
def areaVersion (s : State) (a : Nat) : BitVec 32 :=
  match (s.fw.areas.getD a []).find? (fun c => c.valid) with | some c => c.version | none => 0

/-- GET_FW_INFO: two slots; the active slot is the one whose area runs, none under the golden image; slot 1 is staged once an offline
activation has put another area there. -/
def execGetFwInfo (c : Caller) (ldb : Byte) (s : State) : Res :=
  onCxl c false false (onLd c ldb (fun _ s =>
    let active := match s.fw.runArea with | some a => (if slotArea s 1 = a.val then 1 else 2) | none => 0
    let staged := if active = 1 ∨ areaSeq s (slotArea s 1) = 0 then 0 else 1
    tell .success (.fwInfo 2 active staged (areaVersion s (slotArea s 1)) (areaVersion s (slotArea s 2))) s)) id s

/-- The first write of a transfer: ASEQ 0 in all three copies of the area with the lower ASEQ, their image no longer whole (R597). -/
def fwBegin (c : Caller) (s : State) : State :=
  let a := slotArea s 2
  { s with fw := { s.fw with
    areas := s.fw.areas.set a ((s.fw.areas.getD a []).map (fun c => { c with aseq := 0, valid := false }))
    staged := [], transferring := true, sender := some c } }

/-- Whether a transferred package is an acceptable image: its header line, the image, the signature block (R595, R622, R623). -/
def fwAccepts (s : State) (p : List Byte) : Bool :=
  let n := field p 4 4
  let sig := p.drop (64 + n)
  field p 0 4 == 0xBD640F00 && p.length == 64 + n + 256 && Config.keyFused (sig.take 97) &&
    Config.verify (sig.take 97) ((p.drop 4).take 12 ++ (p.drop 64).take n) ((sig.drop 97).take 96) &&
    Nat.ble s.sec.svnMin.toNat (field p 12 4)

/-- The last part arrived: the image checked and, when it holds, kept in all three copies with ASEQ 0. -/
def fwEnd (s : State) : CAns × State :=
  let p := s.fw.staged
  let s := { s with fw := { s.fw with staged := [], transferring := false, sender := none } }
  if !fwAccepts s p then tell .fwVerifyFailed .none s
  else
    let c : FwCopy := { aseq := 0, length := BitVec.ofNat 32 (field p 4 4), version := BitVec.ofNat 32 (field p 8 4)
                        svn := BitVec.ofNat 32 (field p 12 4), valid := true
                        digest := Config.sha384 ((p.drop 4).take 12 ++ (p.drop 64).take (field p 4 4)) }
    did { s with fw := { s.fw with areas := s.fw.areas.set (slotArea s 2) (List.replicate 3 c) } }

/-- A part put at its place, in units of 128 bytes; an image whose signature block would not fit its area is Invalid Input (R595). -/
def fwPart (offset : Nat) (data : List Byte) (s : State) : Option State :=
  let p := s.fw.staged ++ data
  if offset * 128 ≠ s.fw.staged.length ∨ 8388608 < p.length ∨ (8 ≤ p.length ∧ 8388288 < field p 4 4) then none
  else some { s with fw := { s.fw with staged := p } }

/-- TRANSFER_FW. -/
def execTransferFw (c : Caller) (action : FwAction) (offset : BitVec 32) (data : List Byte) (s : State) : Res :=
  onCxl c false false (fun s =>
    let bad := fun s : State => tell .invalidInput .none { s with fw := { s.fw with staged := [], transferring := false, sender := none } }
    if s.fw.activating || s.fw.activateDue then tell .busy .none s
    else if payloadMax c < data.length then tell .invalidPayloadLength .none s
    else
      match action with
      | .full =>
        if s.fw.transferring then tell .fwInProgress .none s
        else match fwPart 0 data (fwBegin c s) with | some s' => fwEnd s' | none => bad (fwBegin c s)
      | .initiate =>
        if s.fw.transferring then tell .fwInProgress .none s
        else match fwPart offset.toNat data (fwBegin c s) with | some s' => did s' | none => bad (fwBegin c s)
      | .continue_ =>
        if !s.fw.transferring then tell .fwOutOfOrder .none s
        else match fwPart offset.toNat data s with | some s' => did s' | none => bad s
      | .finish =>
        if !s.fw.transferring then tell .fwOutOfOrder .none s
        else match fwPart offset.toNat data s with | some s' => fwEnd s' | none => bad s
      | .abort =>
        if !s.fw.transferring then tell .fwOutOfOrder .none s
        else did { s with fw := { s.fw with staged := [], transferring := false, sender := none } }) id s

/-- ACTIVATE_FW of slot 2: ASEQ one above the highest in every copy; online a warm reset follows, on a span member at a stage in which
it leads (R427, R597). -/
def execActivateFw (c : Caller) (online : Bool) (slot : BitVec 8) (s : State) : Res :=
  onCxl c false false (fun s =>
    let a := slotArea s 2
    let copies := s.fw.areas.getD a []
    if s.fw.activating || s.fw.activateDue || s.fw.transferring then tell .busy .none s
    else if slot ≠ 2 ∨ !copies.any (fun c => c.valid) then tell .invalidSlot .none s
    else
      let top := BitVec.ofNat 48 (max (areaSeq s 0) (areaSeq s 1) + 1)
      did { s with fw := { s.fw with
        areas := s.fw.areas.set a (copies.map (fun c => { c with aseq := top }))
        activateDue := online } })
    (fun s =>
      if s.fw.activateDue && s.span.desc.isNone then
        warmReset { s with fw := { s.fw with activateDue := false, activating := true } }
      else s) s

/-! ## Poison (R59, R60, R458) -/

/-- The LD address of a line of an LD. -/
def addressOf (d : Ld) (lln : Nat) : Option Nat :=
  (d.ranges.find? (fun r => Nat.ble r.lfn (lfnOf lln) && Nat.blt (lfnOf lln) (r.lfn + r.length))).map (fun r =>
    (r.frame + (lfnOf lln - r.lfn)) * 2 ^ 22 + lln % 65536 * 64)

/-- GET_POISON_LIST: the records in a range of LD addresses, by address. -/
def execGetPoisonList (c : Caller) (ldb : Byte) (addr : BitVec 46) (length : BitVec 46) (s : State) : Res :=
  onCxl c false true (onLd c ldb (fun i s =>
    let d := ldOf s i
    if d.erase.isSome then tell .busy .none s
    else
      let l := d.poison.filterMap (fun p => (addressOf d p.1).map (fun a => (a, p.2)))
      let l := l.filter (fun p => Nat.ble addr.toNat p.1 && Nat.blt p.1 (addr.toNat + length.toNat))
      tell .success (.poison (l.mergeSort (fun a b => Nat.ble a.1 b.1)) d.poisonOverflow) s)) id s

/-- A line written by a command: stored and recorded as a host write of the LD is, with no response to a port. -/
def commandWrite (i lln : Nat) (data : Line) (poisoned : Bool) (s : State) : State :=
  let full := BitVec.allOnes 64
  let room := hasRoom s lln
  let s := storeWrite lln data full poisoned s
  let s := if (ldOf s i).mode = .loc ∨ s.span.desc.isNone then s
    else (streamAll (writeRecord lln (writeLine s lln data full poisoned) full) ((ldOf s i).mode == .strict) s).2
  let s := updLoad s
  if s.write.through || !room then drainLine lln false s else s

/-- The LLN of a line a poison command names. -/
def poisonTarget (s : State) (i : Nat) (addr : Nat) : Option Nat :=
  if addr % 64 ≠ 0 then none else llnOfAddress (ldOf s i) addr

/-- A poison command on the line it names. -/
def onPoison (c : Caller) (ldb : Byte) (addr : BitVec 46) (f : Nat → Nat → State → State) (s : State) : CAns × State :=
  onLd c ldb (fun i s =>
    if (ldOf s i).erase.isSome then tell .busy .none s
    else match poisonTarget s i addr.toNat with
      | none => tell .invalidPhysicalAddress .none s
      | some lln => did (f i lln s)) s

/-- INJECT_POISON: refused at PL1 and PL2 (R618). -/
def execInjectPoison (c : Caller) (ldb : Byte) (addr : BitVec 46) (s : State) : Res :=
  onCxl c false true (fun s =>
    if 1 ≤ s.sec.pl.toNat then tell .invalidSecurityState .none s
    else onPoison c ldb addr (fun i lln s => commandWrite i lln 0 true (poisonAdd lln .injected s)) s) mediaNext s

/-- CLEAR_POISON. -/
def execClearPoison (c : Caller) (ldb : Byte) (addr : BitVec 46) (data : Line) (s : State) : Res :=
  onCxl c false true (onPoison c ldb addr (fun i lln s => commandWrite i lln data false s)) mediaNext s

/-! ## Sanitize and secure erase (R458, R621) -/

/-- SANITIZE: a background operation of the LD. -/
def execSanitize (c : Caller) (ldb : Byte) (s : State) : Res :=
  onCxl c false true (onLd c ldb (fun i s =>
    if (ldOf s i).erase.isSome then tell .busy .none s else tell .background .none (eraseStart i false s)))
    (fun s => mediaNext (updLoad (pollWork s))) s

/-- SECURE_ERASE: a background operation of the LD. -/
def execSecureErase (c : Caller) (ldb : Byte) (s : State) : Res :=
  onCxl c false true (onLd c ldb (fun i s =>
    if (ldOf s i).erase.isSome then tell .busy .none s else tell .background .none (eraseStart i true s)))
    (fun s => mediaNext (updLoad (pollWork s))) s

/-! ## Dynamic capacity, the host's side (R47 to R52) -/

/-- The one DC region: 4 MiB blocks, 64 TiB, the map entries an LD has left. -/
def dcOut (s : State) (i : Nat) : CxlOut := .dcConfig 4194304 (64 * 2 ^ 40) (4096 - (ldOf s i).ranges.length)

/-- GET_DYNAMIC_CAPACITY_CONFIGURATION. -/
def execGetDynamicCapacityConfiguration (c : Caller) (ldb : Byte) (s : State) : Res :=
  onCxl c false false (onLd c ldb (fun i s => tell .success (dcOut s i) s)) id s

/-- GET_DYNAMIC_CAPACITY_EXTENT_LIST: the accepted extents. -/
def execGetDynamicCapacityExtentList (c : Caller) (ldb : Byte) (s : State) : Res :=
  onCxl c false false (onLd c ldb (fun i s => tell .success (.extents (ldOf s i).extents) s)) id s

/-- The oldest offers up to the last one accepted answered: those named join the map, the others are withdrawn; an empty response
withdraws the oldest offer. -/
def acceptOffers (i : Nat) (exts : List Extent) (s : State) : State :=
  let d := ldOf s i
  let last := (List.range d.offered.length).foldl (fun m k => if exts.contains (d.offered.getD k ⟨0, 0⟩) then k + 1 else m) 1
  (d.offered.take last).foldl (fun s (e : Extent) =>
    let n := e.count.toNat
    let ls := (ldOf s i).offeredLfns.take n
    let s := setLd i (fun d => { d with offered := d.offered.drop 1, offeredLfns := d.offeredLfns.drop n }) s
    if exts.contains e then
      addRanges i (runRanges true e.frame.toNat (lfnRuns ls)) (setLd i (fun d => { d with extents := d.extents ++ [(e.frame.toNat, n)] }) s)
    else s) s

/-- ADD_DYNAMIC_CAPACITY_RESPONSE. -/
def execAddDynamicCapacityResponse (c : Caller) (ldb : Byte) (exts : List Extent) (s : State) : Res :=
  onCxl c false true (onLd c ldb (fun i s =>
    let d := ldOf s i
    if 256 < exts.length ∨ !exts.all (fun e => d.offered.contains e) ∨ d.offered = [] then tell .invalidInput .none s
    else did (acceptOffers i exts s))) mediaNext s

/-- RELEASE_DYNAMIC_CAPACITY: the response follows once the release is done (R49, R51). -/
def execReleaseDynamicCapacity (c : Caller) (ldb : Byte) (exts : List Extent) (s : State) : Res :=
  let s := begin s
  if !reach s c then ran s
  else if turnsAway s c then ran (send s (.cxl c .busy .none))
  else if !cmdUp s then ran (send s (.cxl c .mediaDisabled .none))
  else if !s.host.memoryActive then ran (send s (.cxl c .busy .none))
  else
    match ldNamed s c ldb.toNat with
    | none => ran (send s (.cxl c .invalidInput .none))
    | some i =>
      if 256 < exts.length ∨ !extentsHeld (ldOf s i) exts then ran (send s (.cxl c .invalidInput .none))
      else
        let s := setLd i (fun d => { d with heldRelease := d.heldRelease ++ [(c, exts)] }) s
        ran (mediaNext (updLoad (releaseGo i (some c) exts s)))

/-! ## Opcodes outside the tables (R439, R460) -/

/-- UNSUPPORTED_OPCODE. -/
def execUnsupportedOpcode (c : Caller) (_opcode : BitVec 16) (s : State) : Res :=
  onCxl c false false (tell .unsupported .none) id s

/-- UNKNOWN_VENDOR_OPCODE. -/
def execUnknownVendorOpcode (c : Caller) (opcode : BitVec 16) (inp : List Byte) (s : State) : Res :=
  onVendor { op := opcode.toNat, host := true, star := true } c inp noCheck noCheck (fun s => (vUnknownOpcode, s)) id s

end Sys2Proof.Machine
end

