-- ==== Sys2Proof/Machine/FmCmds.lean ====
section
/-! DEFINITION. The FM API commands (R43, R44, R47, R51, R52, R65, R459). -/

namespace Sys2Proof.Machine

/-! ## Identity and capacity (R43, R44) -/

/-- FM_IDENTIFY. -/
def execFmIdentify (c : Caller) (s : State) : Res :=
  onCxl c true false (fun s =>
    let v := match s.variant with | .x4 => 0 | .h2 => 1 | .l1 => 2
    let ports := ((List.range 4).filter (fun p => portPresent s p)).foldl (fun (m : BitVec 4) p => setBit m p true) 0
    tell .success (.fmIdentify v ports) s) id s

/-- GET_LD_INFO: 16 LDs per port; the capacity in bytes that LDs can be given. -/
def execGetLdInfo (c : Caller) (s : State) : Res :=
  onCxl c true false (fun s => tell .success (.ldInfo 16 (exportable s * 4194304)) s) id s

/-- The static frames of an LD. -/
def staticFrames (d : Ld) : Nat := (d.ranges.filter (fun r => !r.dc)).foldl (fun a r => a + r.length) 0

/-- The LD indexes of a run of LD-IDs of a port. -/
def ldRun (port first n : Nat) : List Nat := (List.range (min n (16 - first))).map (fun k => ldIx port (first + k))

/-- GET_LD_ALLOCATIONS: static capacity in multiples of 256 MiB. -/
def execGetLdAllocations (c : Caller) (port : Fin 4) (first : Fin 16) (count : BitVec 8) (s : State) : Res :=
  onCxl c true false (fun s =>
    tell .success (.allocs ((ldRun port first count.toNat).map (fun i => staticFrames (ldOf s i) / 64)) 268435456) s) id s

/-- The static capacity of one LD set: grown by LFNs of the pool after what it has, or cut at its end, the frames cut emptied; none
with the return code when it is refused. -/
def setStatic (i units : Nat) (s : State) : Except Rc State :=
  let d := ldOf s i
  let cur := staticFrames d
  let want := 64 * units
  if d.erase.isSome then .error .busy
  else if want = cur then .ok s
  else if want < cur then
    let ls := (ldLfns { d with ranges := d.ranges.filter (fun r => !r.dc) }).drop want
    let old := d.ranges.length
    let s := emptyAll mUnmapped ls s
    let cut := d.ranges.filterMap (fun r =>
      if r.dc || Nat.ble (r.frame + r.length) want then some r
      else if Nat.ble want r.frame then none else some { r with length := want - r.frame })
    .ok (sendMap i old (setLd i (fun d => { d with ranges := cut }) s))
  else if (d.ranges.any (fun r => r.dc && overlaps r.frame r.length cur (want - cur))) ||
      d.offered.any (fun e => overlaps e.frame.toNat e.count.toNat cur (want - cur)) then .error .invalidInput
  else if exportable s < assigned s + (want - cur) then .error .resourcesExhausted
  else
    match poolLfns s (want - cur) with
    | none => .error .resourcesExhausted
    | some ls =>
      let rs := runRanges false cur (lfnRuns ls)
      if !mapRoom s i rs.length then .error .resourcesExhausted else .ok (addRanges i rs s)

/-- SET_LD_ALLOCATIONS: every LD named, or none of them (R44). Cuts come before growths. -/
def execSetLdAllocations (c : Caller) (port : Fin 4) (first : Fin 16) (units : List (BitVec 32)) (s : State) : Res :=
  onCxl c true true (fun s =>
    if 16 < first.val + units.length then tell .invalidInput .none s
    else
      let l := (List.range units.length).map (fun k => (ldIx port (first.val + k), (units.getD k 0).toNat))
      let cuts := l.filter (fun e => Nat.blt (64 * e.2) (staticFrames (ldOf s e.1)))
      let grows := l.filter (fun e => !Nat.blt (64 * e.2) (staticFrames (ldOf s e.1)))
      match (cuts ++ grows).foldl (fun (a : Except Rc State) e => match a with | .ok s => setStatic e.1 e.2 s | .error r => .error r) (.ok s) with
      | .ok s' => did s'
      | .error r => tell r .none s) (fun s => mediaNext (updLoad s)) s

/-! ## QoS (R65) -/

/-- GET_QOS_CONTROL. -/
def execGetQosControl (c : Caller) (port : Fin 4) (s : State) : Res :=
  onCxl c true false (fun s => tell .success (.qos (portOf s port).qosCtrl) s) id s

/-- SET_QOS_CONTROL. -/
def execSetQosControl (c : Caller) (port : Fin 4) (ctrl : BitVec 64) (s : State) : Res :=
  onCxl c true false (fun s => did (setPort port (fun p => { p with qosCtrl := ctrl }) s)) id s

/-- GET_QOS_STATUS: the average backpressure, which depends on instants this model does not keep: a free value up to 100. -/
def execGetQosStatus (c : Caller) (_port : Fin 4) (s : State) : Res :=
  onCxl c true false (fun s =>
    let r := drawBits 7 s
    tell .success (.qos (BitVec.ofNat 64 (min 100 r.1.toNat))) r.2) id s

/-- GET_QOS_ALLOCATED_BW. -/
def execGetQosAllocatedBw (c : Caller) (port : Fin 4) (first : Fin 16) (count : BitVec 8) (s : State) : Res :=
  onCxl c true false (fun s => tell .success (.fracs ((ldRun port first count.toNat).map (fun i => (ldOf s i).qosAlloc))) s) id s

/-- One fraction of each LD of a run set. -/
def setFracs (port first : Nat) (fracs : List Byte) (f : Byte → Ld → Ld) (s : State) : State :=
  (List.range fracs.length).foldl (fun s k => setLd (ldIx port (first + k)) (f (fracs.getD k 0)) s) s

/-- SET_QOS_ALLOCATED_BW. -/
def execSetQosAllocatedBw (c : Caller) (port : Fin 4) (first : Fin 16) (fracs : List Byte) (s : State) : Res :=
  onCxl c true false (fun s =>
    if 16 < first.val + fracs.length then tell .invalidInput .none s
    else did (setFracs port first fracs (fun b d => { d with qosAlloc := b }) s)) id s

/-- GET_QOS_BW_LIMIT. -/
def execGetQosBwLimit (c : Caller) (port : Fin 4) (first : Fin 16) (count : BitVec 8) (s : State) : Res :=
  onCxl c true false (fun s => tell .success (.fracs ((ldRun port first count.toNat).map (fun i => (ldOf s i).qosLimit))) s) id s

/-- SET_QOS_BW_LIMIT. -/
def execSetQosBwLimit (c : Caller) (port : Fin 4) (first : Fin 16) (fracs : List Byte) (s : State) : Res :=
  onCxl c true false (fun s =>
    if 16 < first.val + fracs.length then tell .invalidInput .none s
    else did (setFracs port first fracs (fun b d => { d with qosLimit := b }) s)) id s

/-! ## Dynamic capacity, the fabric manager's side (R47, R48, R51, R52) -/

/-- GET_DC_REGION_CONFIGURATION. -/
def execGetDcRegionConfiguration (c : Caller) (ldb : Byte) (s : State) : Res :=
  onCxl c true false (onLd c ldb (fun i s => tell .success (dcOut s i) s)) id s

/-- A record in an LD's dynamic capacity log: SEQ 0 an extent offered, 1 a release asked for; its frame and count. -/
def dcEvent (i seq : Nat) (e : Extent) (s : State) : State :=
  let tells := logIntr s 4 i (ldOf s i)
  let s := logPend 4 i (ldOf s i) s
  setLd i (fun d => ldLog 4 0 (BitVec.ofNat 32 seq) (BitVec.ofNat 64 e.frame.toNat) (BitVec.ofNat 64 e.count.toNat) d)
    { s with out := s.out ++ tells }

/-- The refusal of an add, if there is one (R44, R47, R51, R52). Where several apply, the order is Invalid Input for the form, Busy,
Invalid Input for an overlap, Resources Exhausted (R51 gives none; DESIGN CHOICE, log entry 84). -/
def addRefused (s : State) (i : Nat) (e : Extent) (tag : Option (BitVec 128)) : Option Rc :=
  let d := ldOf s i
  let f := e.frame.toNat
  let n := e.count.toNat
  if tag.isSome ∨ n = 0 ∨ 2 ^ 24 < f + n then some .invalidInput
  else if d.erase.isSome then some .busy
  else if d.ranges.any (fun r => overlaps r.frame r.length f n) ∨ d.offered.any (fun o => overlaps o.frame.toNat o.count.toNat f n) then
    some .invalidInput
  else if exportable s < assigned s + n then some .resourcesExhausted
  else none

/-- INITIATE_DYNAMIC_CAPACITY_ADD: backed by Unmapped LFNs of the pool when it is offered. -/
def execInitiateDynamicCapacityAdd (c : Caller) (ldb : Byte) (ext : Extent) (extTag : Option (BitVec 128)) (s : State) : Res :=
  onCxl c true true (onLd c ldb (fun i s =>
    match addRefused s i ext extTag with
    | some r => tell r .none s
    | none =>
      match poolLfns s ext.count.toNat with
      | none => tell .resourcesExhausted .none s
      | some ls =>
        if !mapRoom s i (lfnRuns ls).length then tell .resourcesExhausted .none s
        else did (dcEvent i 0 ext (setLd i (fun d => { d with
          offered := d.offered ++ [ext], offeredLfns := d.offeredLfns ++ ls }) s)))) id s

/-- INITIATE_DYNAMIC_CAPACITY_RELEASE: the host is asked to release. -/
def execInitiateDynamicCapacityRelease (c : Caller) (ldb : Byte) (ext : Extent) (s : State) : Res :=
  onCxl c true false (onLd c ldb (fun i s =>
    if ext.count = 0 then tell .invalidInput .none s else did (dcEvent i 1 ext s))) id s

/-- GET_DC_REGION_EXTENT_LISTS: the accepted extents of an LD. -/
def execGetDcRegionExtentLists (c : Caller) (ldb : Byte) (s : State) : Res :=
  onCxl c true false (onLd c ldb (fun i s => tell .success (.extents (ldOf s i).extents) s)) id s

end Sys2Proof.Machine
end

