-- ==== Sys2Proof/Machine/HostView.lean ====
section
/-! DEFINITION. What the functions of a host port show of themselves: the features they advertise (R34), the BARs of each kind of
function (R38, R629, R644), the layout of BAR0 (R630, R631), Memory Active as a port shows it (R32, R592), the GPF DVSEC (R57) and
the CDAT of an LD (R71, R72). -/

namespace Sys2Proof.Machine

/-! ## Functions and BARs (R36, R38, R629) -/

/-- The kinds of function a port exposes: an SLD port's LD, a host LD of an MLD port, LD 0xFFFF of an MLD port (R36). -/
inductive PortFn where
  | sld
  | hostLd (ld : Nat)
  | fmLd
  deriving DecidableEq, Repr

/-- The functions of a port now: none while its link is down. -/
def portFns (s : State) (p : Nat) : List PortFn :=
  if !(portOf s p).up then []
  else if (portOf s p).mld then (List.range 16).map .hostLd ++ [.fmLd]
  else [.sld]

/-- The BARs a function exposes. -/
structure Bars where
  bar0 : Bool
  bar2 : Bool
  bar4 : Bool
  deriving DecidableEq, Repr

/-- The BARs of a function (R38, R644); without 256-byte flits BAR0 alone (R32). -/
def barsOf (s : State) (p : Nat) (f : PortFn) : Bars :=
  let wide := (portOf s p).flit256
  match f with
  | .hostLd _ => ⟨true, false, false⟩
  | .sld => ⟨true, wide, wide⟩
  | .fmLd => ⟨true, wide, wide⟩

/-- Whether some function of a port has the Sill window (R38). -/
def hasWindow (s : State) (p : Nat) : Bool := (portFns s p).any (fun f => (barsOf s p f).bar2)

/-- The bytes a function's BAR asks for, 0 for a BAR hardwired to 0 (R629, R644). -/
def barSize (s : State) (p : Nat) (f : PortFn) (bar : Nat) : Nat :=
  let b := barsOf s p f
  if bar = 0 ∧ b.bar0 then 512 * 1024
  else if bar = 2 ∧ b.bar2 then 16 * 1024 * 1024
  else if bar = 4 ∧ b.bar4 then 64 * 1024 * 1024
  else 0

/-- Whether a BAR is prefetchable (R629). -/
def barPrefetchable (bar : Nat) : Bool := bar == 4

/-! ## BAR0 (R630, R631) -/

/-- The blocks of BAR0. -/
inductive Bar0Block where
  | component | cachemem | capabilities | deviceStatus | memoryStatus | primaryMailbox | secondaryMailbox | msixTable | msixPba
  deriving DecidableEq, Repr

/-- BAR0's blocks: first byte, bytes, block (R630). -/
def bar0Layout : List (Nat × Nat × Bar0Block) := [
  (0x00000, 4096, .component), (0x01000, 61440, .cachemem), (0x10000, 256, .capabilities), (0x10100, 256, .deviceStatus),
  (0x10200, 8, .memoryStatus), (0x11000, 65568, .primaryMailbox), (0x30000, 65568, .secondaryMailbox), (0x60000, 512, .msixTable),
  (0x61000, 8, .msixPba)]

/-- Whether a function has a block: a host LD on an MLD port has no Secondary Mailbox (R631). -/
def hasBlock (f : PortFn) (b : Bar0Block) : Bool :=
  match f, b with
  | .hostLd _, .secondaryMailbox => false
  | _, _ => true

/-- The block of a BAR0 offset as a function sees it; none is RsvdZ: it reads 0 and takes nothing (R631). -/
def bar0At (f : PortFn) (off : Nat) : Option Bar0Block :=
  match bar0Layout.find? (fun e => Nat.ble e.1 off && Nat.blt off (e.1 + e.2.1)) with
  | some (_, _, b) => if hasBlock f b then some b else none
  | none => none

/-- The capabilities the Device Capabilities Array lists: status, memory device status, and the mailboxes the function has (R630, R631). -/
def bar0Capabilities (f : PortFn) : List Bar0Block :=
  [Bar0Block.deviceStatus, .primaryMailbox, .secondaryMailbox, .memoryStatus].filter (hasBlock f)

/-- The register blocks that the Register Locator DVSEC names: the component and the memory device registers (R630). -/
def registerLocator : List Nat := [0x00000, 0x10000]

/-- The Memory Device Status a function reads: Media Status and Mailbox Interface Ready (R592, R630). -/
def memoryDeviceStatus (s : State) : MediaStatus × Bool := (s.host.mediaStatus, s.host.mailboxReady)

/-- Memory_Info_Valid of a function's range registers, shown from the first entry to L0 on (R591 asks for it within 1 s), and the
Memory_Active_Timeout field, 64 s (R591). -/
def memoryInfoValid (s : State) (p : Nat) : Bool := (portOf s p).up
def memoryActiveTimeout : BitVec 3 := 3

/-- Memory Active as a port shows it: clear without 256-byte flits (R32). -/
def portMemoryActive (s : State) (p : Nat) : Bool := s.host.memoryActive && (portOf s p).up && (portOf s p).flit256

/-! ## Features (R34) -/

/-- The features of R34's table. -/
inductive Feature where
  | cxlIo | hdmH | hdmD | cxlCache | backInvalidate | sharedMemory | mld | pbr | uio | dcd | hdmDecoders | gpf | poison | qos
  | cdat | spdmIde | fmApi | retimers | flitMode | ecrc | aer | msix | pciPm | lowPowerLinks | sriovAtsPriPasid
  deriving DecidableEq, Repr

/-- Whether a feature is advertised; the capability structures of the others are absent (R34). -/
def advertised : Feature → Bool
  | .hdmD | .cxlCache | .backInvalidate | .sharedMemory | .ecrc | .lowPowerLinks | .sriovAtsPriPasid => false
  | .cxlIo | .hdmH | .mld | .pbr | .uio | .dcd | .hdmDecoders | .gpf | .poison | .qos | .cdat | .spdmIde | .fmApi | .retimers
  | .flitMode | .aer | .msix | .pciPm => true

/-- The limits of R34's table. -/
structure PortLimits where
  maxPayload : Nat := 512
  maxReadRequest : Nat := 4096
  lineBytes : Nat := 64
  ldsPerPort : Nat := 16
  dcRegions : Nat := 1
  dcBlockBytes : Nat := 4 * 1024 * 1024
  decoders : Nat := 4
  ways : List Nat := [1, 2, 4, 8, 16]
  granularities : List Nat := [256, 512, 1024, 2048, 4096, 8192, 16384]
  poisonRecords : Nat := 4096
  retimers : Nat := 2
  msixVectors : Nat := 32
  deriving DecidableEq, Repr

/-- The device's limits. -/
def portLimits : PortLimits := {}

/-! ## GPF DVSEC (R57) -/

/-- The GPF DVSEC: the Phase 2 duration in microseconds and the Phase 2 power in watts. -/
structure GpfDvsec where
  phase2Us : Nat
  phase2Watts : Nat
  deriving DecidableEq, Repr

/-- What the device reports (R57). -/
def gpfDvsec : GpfDvsec := ⟨100, 170⟩

/-! ## CDAT (R71, R72) -/

/-- A DSMAS entry: a span of an LD's address space, in bytes. -/
structure Dsmas where
  handle : Nat
  base : Nat
  length : Nat
  nonVolatile : Bool
  deriving DecidableEq, Repr

/-- The DSLBIS values of an LD: latencies in nanoseconds, bandwidths in MB/s. -/
structure Dslbis where
  readNs : Nat
  writeNs : Nat
  readMBs : Nat
  writeMBs : Nat
  deriving DecidableEq, Repr

/-- One DSMAS entry for each range map entry, Non-Volatile set (R71). -/
def dsmasOf (d : Ld) : List Dsmas :=
  d.ranges.mapIdx (fun n r => { handle := n, base := r.frame * 2 ^ 22, length := r.length * 2 ^ 22, nonVolatile := true })

/-- The DSLBIS values of a commit mode at a port's configured width; the trained width and rate and DevLoad do not enter (R71, R72). -/
def dslbisOf (m : CommitMode) (width : Nat) : Dslbis where
  readNs := 2000
  writeNs := match m with
    | .loc | .relaxed => 1000
    | .strict => 4000
  readMBs := if width = 16 then 121000 else 60500
  writeMBs := match m with
    | .loc => 60000
    | .relaxed | .strict => 30000

/-- The CDAT of a host LD. -/
def cdatOf (s : State) (i : Nat) : List Dsmas × Dslbis := (dsmasOf (ldOf s i), dslbisOf (ldOf s i).mode (portWidth s (i / 16)))

end Sys2Proof.Machine
end

