-- ==== Sys2Proof/Machine/RegRead.lean ====
section
/-! DEFINITION. What a read of a BAR2 dword returns, register by register (R122, R153, R186, R219, R261, R313, R345, R400, R430,
R461, R480, R498, R519, R538, R568, R585, R606, R628, R633 to R639). The effects that some reads have are rows of their own
(TIME_NOWLO, NOTICE_FLAGS, NOTICE_DATAHI, QMB_RSPHI). WO and RsvdZ bits read 0, RsvdP bits a free value (R8, R638). -/

namespace Sys2Proof.Machine

/-- A dword of fields, each with its lowest bit. -/
def pack (l : List (Nat × Nat)) : Word := BitVec.ofNat 32 (l.foldl (fun a e => a + e.2 * 2 ^ e.1) 0)

/-- Whether a phase of the start has ended (R636). -/
def phaseEnded (s : State) (n : Nat) : Bool := Nat.blt n s.start.phase.toNat && s.start.phase.toNat != 15

/-- Identity, global, start and security registers (R606, R628, R635). -/
def readGlobal (s : State) (o : Nat) : Word :=
  if o = 0x1000 then pack [(0, variantCode s), (8, s.id.revision.toNat), (16, nChannels s), (24, portsMask s)]
  else if o = 0x1004 then s.id.serial.extractLsb' 0 32
  else if o = 0x1008 then s.id.serial.extractLsb' 32 32
  else if o = 0x100C then (if phaseEnded s 3 then s.fw.running else 0)
  else if o = 0x1010 then s.fw.goldVersion
  else if o = 0x1014 then 1
  else if o = 0x1020 then s.id.scratch
  else if o = 0x1024 then pack [(0, b2n s.id.errPartial), (1, b2n s.id.errReserved)]
  else if o = 0x1028 then s.id.errAddr.zeroExtend 32
  else if o = 0x1040 then
    pack [(0, s.start.phase.toNat), (4, b2n s.start.unclean), (5, b2n s.start.golden), (6, b2n s.start.piRebuild), (7, b2n s.start.mapFold)]
  else if o = 0x1080 then
    pack [(0, s.sec.pl.toNat), (2, b2n s.sec.pl2Fuse), (3, b2n s.sec.erasing), (4, b2n (hasSpan s && s.span.swkValid))]
  else if o = 0x1084 then s.sec.plseq.extractLsb' 0 32
  else if o = 0x1088 then s.sec.plseq.extractLsb' 32 32
  else if o = 0x108C then s.fw.runSvn
  else if o = 0x1090 then s.sec.svnMin
  else 0

/-- Time and timetable registers (R430), by offset in the block. -/
def readTime (s : State) (o : Nat) : Word :=
  if o = 0x00 then s.time.ftime.extractLsb' 0 32
  else if o = 0x04 then s.time.nowHi
  else if o = 0x08 then
    pack [(0, timeCode s.time.mode), (2, srcCode s.time.source), (4, b2n (timeUnbounded s)), (5, b2n (s.time.slewNs != 0))]
  else if o = 0x0C then BitVec.ofNat 32 (boundUs s)
  else if o = 0x10 then pack [(0, s.time.cfgSrc.toNat), (2, s.time.cfgPtmPort.toNat)]
  else if o = 0x14 then s.time.holdLim.zeroExtend 32
  else if o = 0x18 then s.time.markVal.extractLsb' 0 32
  else if o = 0x1C then s.time.markVal.extractLsb' 32 32
  else if o = 0x20 then s.time.offsetNs
  else if o = 0x24 then BitVec.ofNat 32 s.time.steps.length
  else if o = 0x28 then BitVec.ofNat 32 (min (stepSum s) 0xFFFFFFFF)
  else if o = 0x100 then BitVec.ofNat 32 (s.tt.stage % 64)
  else if o = 0x104 then BitVec.ofNat 32 (cycleNow s)
  else if o = 0x108 then BitVec.ofNat 32 (cycleNow s / 2 ^ 32 % 256)
  else if o = 0x10C then
    pack [(0, s.tt.bgMax.toNat), (8, s.tt.bgFloor.toNat), (16, s.tt.thermCap.toNat), (24, s.tt.current.toNat)]
  else if o = 0x110 then s.tt.clearPerDie.zeroExtend 32
  else if o = 0x114 then
    if hasSpan s then pack [(0, s.tt.inbound.toNat), (8, s.tt.lead.toNat), (12, b2n s.tt.noLead), (13, b2n s.tt.mapSrc)] else pack [(12, 1)]
  else if o = 0x120 then s.tt.windows
  else if o = 0x124 then s.tt.rerouted
  else if o = 0x128 then s.tt.waited
  else if 0x180 ≤ o ∧ o < 0x1A0 then
    pack ((List.range 16).map (fun j =>
      let g := 16 * ((o - 0x180) / 4) + j
      (2 * j, if g % 8 = 7 then 0 else sget 0 s.tt.groupW g)))
  else 0

/-- Power sequencer registers (R568), by offset in the block. -/
def readPower (s : State) (o : Nat) : Word :=
  let p := s.power
  if o = 0x00 then
    pack [(0, seqCode p.seq), (3, b2n p.cascade), (4, p.cause.toNat), (8, b2n p.pfLow), (9, b2n p.seqIn), (10, b2n p.seqOut),
      (11, b2n p.onHeld)]
  else if o = 0x04 then p.enable
  else if o = 0x08 then p.good
  else if o = 0x0C then p.flagged
  else if o = 0x10 then (if p.firstSet then p.firstRail.zeroExtend 32 else 0xFF)
  else if o = 0x14 then p.firstFt.extractLsb' 0 32
  else if o = 0x18 then p.firstFt.extractLsb' 32 32
  else if o = 0x1C then p.e
  else if o = 0x20 then pack [(0, p.capMf.toNat), (16, b2n p.measured), (17, b2n p.holdFault)]
  else if o = 0x24 then p.flushSets.zeroExtend 32
  else if o = 0x28 then (if phaseEnded s 7 then pack [(0, p.lastFlushUs.toNat), (24, b2n p.lastFlushOk)] else 0)
  else if o = 0x2C then pack [(0, b2n p.glitchFlag), (1, b2n p.railFailFlag)]
  else if o = 0x30 then p.glitches
  else if 0x100 ≤ o ∧ o < 0x200 then
    let r := p.rails.getD ((o - 0x100) / 8) {}
    if o % 8 = 0 then pack [(0, r.onDly.toNat), (16, r.offDly.toNat)] else r.pgTmo.zeroExtend 32
  else 0

/-- Thermal registers (R585), by offset in the block. -/
def readThermal (s : State) (o : Nat) : Word :=
  let t := s.therm
  if o = 0x00 then pack [(0, throttleCode t.throttle), (2, b2n t.record.isSome), (8, t.bf.toNat)]
  else if o = 0x04 then pack [(0, t.tg.toNat), (16, t.tgSensor.toNat)]
  else if o = 0x08 then pack [(0, t.notice.toNat), (8, t.grace.toNat)]
  else if o = 0x0C then 0x78
  else if o = 0x10 then BitVec.ofNat 32 (brokenMask s)
  else if o = 0x14 then pack [(0, b2n t.fNotice), (1, b2n t.fBrake), (2, b2n t.fBroken)]
  else if o = 0x18 then t.brakeMs
  else if 0x100 ≤ o ∧ o < 0x200 then
    let x := sensorOf s ((o - 0x100) / 4)
    pack [(0, x.working.toNat), (16, b2n x.valid), (17, b2n x.subst)]
  else 0

/-- The least WAIT for a Sill clock and band (R536). -/
def waitMin (s : State) : Nat :=
  match s.sb.clock.toNat, s.sb.low with
  | 0, false => 0
  | 0, true => 1
  | 1, false => 2
  | 1, true => 4
  | _, false => 5
  | _, true => 8

/-- The wait states a Strongbox read takes (R536, R537). -/
def waitUsed (s : State) : Nat := max s.sb.waitReg.toNat (waitMin s)

/-- A byte of the Strongbox as the window shows it: partition 5 reads 0 (R538). -/
def windowByte (s : State) (a : Nat) : Byte :=
  if 0x918000 ≤ a ∧ a < 0x928000 then 0 else (sbBytes s a 1).headD 0

/-- Strongbox registers and window (R538), by offset in the block. -/
def readStrongbox (s : State) (o : Nat) : Word :=
  let b := s.sb
  if o = 0x00 then
    pack [(0, b.waitReg.toNat), (4, b.clock.toNat), (6, b2n b.low), (7, b2n (Nat.blt b.waitReg.toNat (waitMin s)))]
  else if o = 0x04 then
    pack [(0, b2n b.running.isSome), (1, b2n b.reserveOk), (2, b2n b.vauxOk), (3, b2n b.bandChg), (4, b2n b.abandonFlag)]
  else if o = 0x08 then b.vauxMv.zeroExtend 32
  else if o = 0x0C then b.abandon
  else if o = 0x10 then b.weak
  else if o = 0x14 then b.tie
  else if o = 0x18 then b.wbase.zeroExtend 32
  else if 0x8000 ≤ o ∧ o < 0x10000 then
    BitVec.ofNat 32 (natOf ((List.range 4).map (fun i => windowByte s (b.wbase.toNat * 32768 + (o - 0x8000) + i))))
  else 0

/-- Waybill registers and window (R507, R519), by offset in the block. -/
def readWaybill (s : State) (o : Nat) : Word :=
  if o = 0x00 then s.wb.cursor
  else if o = 0x04 then s.wb.next
  else if o = 0x08 then wbOldest s
  else if o = 0x0C then s.wb.lost
  else if o = 0x10 then BitVec.ofNat 32 (unflushed s).length
  else if 0x1000 ≤ o ∧ o < 0x2000 then BitVec.ofNat 32 (field (wbWindow s ((o - 0x1000) / 64)) (o % 64) 4)
  else 0

/-- Event registers (R511 to R514, R519), by offset in the block. -/
def readEvents (s : State) (o : Nat) : Word :=
  let e := s.evt
  if o = 0x00 then e.status.zeroExtend 32
  else if o = 0x04 then e.enable.zeroExtend 32
  else if o = 0x08 then pack [(0, e.vector.toNat), (8, e.noticeVec.toNat), (16, b2n e.alertEn)]
  else if 0x10 ≤ o ∧ o < 0x34 then (e.counts.getD ((o - 0x10) / 4) 0).zeroExtend 32
  else if o = 0x40 then pack [(0, e.leakMs.toNat), (16, e.threshold.toNat)]
  else if o = 0x44 then pack [(0, e.lastClass.toNat), (4, e.lastIndex.toNat)]
  else if o = 0x48 then pack [(0, e.selClass.toNat), (4, e.selIndex.toNat)]
  else if o = 0x4C then (sget 0 e.buckets (ceKey e.selClass.toNat e.selIndex.toNat)).zeroExtend 32
  else 0

/-- Injection registers (R519), by offset in the block. -/
def readInject (s : State) (o : Nat) : Word :=
  let e := s.evt
  if o = 0x00 then e.injPoint.zeroExtend 32
  else if o = 0x04 then e.injWord ++ e.injUnit
  else if o = 0x08 then e.injLo
  else if o = 0x0C then e.injHi
  else if o = 0x10 then pack [(0, e.injCheck.toNat), (16, e.injCopy.toNat)]
  else if o = 0x14 then pack [(2, b2n e.refused)]
  else if o = 0x18 then BitVec.ofNat 32 e.armed.length
  else if o = 0x1C then e.fired
  else 0

/-- Queue and notice registers (R498), by offset in the block. -/
def readQueueReg (s : State) (o : Nat) : Word :=
  if o < 0x1000 then
    let q := o / 0x40
    let x := qOf s q
    let r := o % 0x40
    if r = 0x00 then pack [(0, qUse s q), (8, qDepth s q / 4096)]
    else if r = 0x04 then x.tail.zeroExtend 32
    else if r = 0x08 then x.wr
    else if r = 0x0C then x.rd
    else if r = 0x10 then x.mark
    else if r = 0x14 then x.rel
    else if r = 0x18 then x.credit
    else if r = 0x1C then pack [(0, b2n x.overrun), (1, b2n x.parity), (2, b2n x.tailFlag), (3, b2n x.releaseErr)]
    else if r = 0x20 then x.parErr
    else 0
  else if o = 0x1000 then pack [(0, b2n s.queue.nValid), (1, b2n s.queue.nPoison)]
  else if o = 0x1004 then s.queue.nWord.extractLsb' 0 32
  else if o = 0x1008 then s.queue.nWord.extractLsb' 32 32
  else 0

/-- The remap entries of an HBM channel in use (R214, R219). -/
def remapUsed (s : State) (ch : Nat) : Nat := (List.range 16).countP (fun i => (sget {} s.cache.remap (16 * ch + i) : RemapEnt).valid)

/-- The bands whose measured references are in use (R304). -/
def measuredBands (s : State) : Nat := s.mm.measured.length

/-- TRANSLATION, READSTAT, WRITE and CACHE registers (R122, R153, R186, R219), by offset in the block. -/
def readPaths (s : State) (o : Nat) : Word :=
  if o = 0x000 then s.xlat.psi.zeroExtend 32
  else if o = 0x004 then BitVec.ofNat 32 (if phaseEnded s 5 then freeSets s else 0)
  else if o = 0x008 then s.xlat.fastResMin.zeroExtend 32
  else if o = 0x00C then BitVec.ofNat 32 s.xlat.piOvf.length
  else if o = 0x010 then BitVec.ofNat 32 (patchCount s)
  else if o = 0x100 then s.rstat.retry
  else if o = 0x104 then s.rstat.around
  else if o = 0x108 then s.rstat.boundB
  else if o = 0x10C then s.rstat.boundC
  else if o = 0x110 then s.rstat.suspend
  else if o = 0x114 then s.rstat.maxLat.zeroExtend 32
  else if o = 0x200 then s.write.budget.zeroExtend 32
  else if o = 0x204 then BitVec.ofNat 32 (occupancy s)
  else if o = 0x208 then
    pack [(0, s.write.lvlDirty.toNat), (2, s.write.lvlPatch.toNat), (4, s.write.lvlTherm.toNat), (6, (devLoad s).toNat),
      (8, b2n s.write.through), (9, b2n s.write.pacing)]
  else if o = 0x20C then s.write.ageMax.zeroExtend 32
  else if o = 0x210 then s.write.strictTmo.zeroExtend 32
  else if o = 0x214 then s.write.paced
  else if o = 0x218 then s.write.exposedCnt
  else if 0x220 ≤ o ∧ o < 0x230 then
    pack ((List.range 16).map (fun j => (2 * j, modeCode (ldOf s (16 * ((o - 0x220) / 4) + j)).mode)))
  else if o = 0x230 then s.write.exposedLd.extractLsb' 0 32
  else if o = 0x234 then s.write.exposedLd.extractLsb' 32 32
  else if o = 0x300 then pack [(0, b2n s.cache.prefetchEn), (1, if s.variant = .x4 then 0 else 1)]
  else if o = 0x304 then BitVec.ofNat 32 s.cache.nPages
  else if o = 0x308 then BitVec.ofNat 32 s.cache.nBuckets
  else if o = 0x30C then BitVec.ofNat 32 (s.cache.dirty.countP (fun e => e.2.bucket.isNone))
  else if o = 0x310 then s.cache.ncHit
  else if o = 0x314 then s.cache.bcHit
  else if o = 0x318 then s.cache.miss
  else if o = 0x31C then s.cache.prefetchHit
  else if 0x380 ≤ o ∧ o < 0x480 then
    let n := remapUsed s ((o - 0x380) / 4)
    pack [(0, n), (5, if n = 16 then 1 else 0)]
  else 0

/-- Media management registers (R313), by offset in the block. -/
def readMm (s : State) (o : Nat) : Word :=
  if o = 0x600 then BitVec.ofNat 32 (if phaseEnded s 5 then clearPool s else 0)
  else if o = 0x604 then BitVec.ofNat 32 (if phaseEnded s 5 then s.mm.bands.countP (fun e => e.2.cls == .dead) else 0)
  else if o = 0x608 then s.mm.reclaimLow.zeroExtend 32
  else if o = 0x60C then BitVec.ofNat 32 (openBands s)
  else if o = 0x610 then (if phaseEnded s 5 then s.mm.cseq.extractLsb' 0 32 else 0)
  else if o = 0x614 then (if phaseEnded s 5 then s.mm.cseq.extractLsb' 32 32 else 0)
  else if o = 0x618 then s.mm.resettleH.zeroExtend 32
  else if o = 0x61C then pack [(0, s.mm.scrubD.toNat), (8, s.mm.scrubF.toNat)]
  else if o = 0x620 then BitVec.ofNat 32 (if phaseEnded s 5 then s.mm.bad.length else 0)
  else if o = 0x624 then BitVec.ofNat 32 (if phaseEnded s 5 then wearSpread s else 0)
  else if o = 0x628 then s.mm.folds
  else if o = 0x62C then s.mm.abandon
  else if o = 0x630 then s.mm.refresh
  else if o = 0x634 then BitVec.ofNat 32 (measuredBands s)
  else 0

/-- MCH_STATUS.DIES_READY: bit d while the die of slot d is Ready, in its own state and with its stack up (R261). -/
def diesReadyNow (s : State) (ch : Nat) : Nat :=
  (List.range 16).foldl (fun a d =>
    a + (if (cartOf s ch).diesReady.getLsbD d && ownState s (uDie (dieKey ch d)) == .ready then 2 ^ d else 0)) 0

/-- The registers of a media channel (R261); those of a channel the variant lacks read 0. -/
def readMch (s : State) (ch r : Nat) : Word :=
  let k := (sget {} s.media.carters ch : Carter)
  if nChannels s ≤ ch then 0
  else if r = 0x00 then pack [(0, b2n k.trained), (1, b2n k.fullRate), (2, b2n k.retrainWait), (16, diesReadyNow s ch)]
  else if r = 0x04 then pack [(0, k.caDelay.toNat), (8, k.dqs0.toNat), (16, k.dqs1.toNat), (24, k.vref.toNat)]
  else if r = 0x08 then pack [(0, k.zqPu.toNat), (6, k.zqPd.toNat)]
  else if r = 0x0C then k.caCheck
  else if r = 0x10 then k.frameErr
  else if r = 0x14 then k.pfail
  else if r = 0x18 then k.cfail
  else k.retrains.zeroExtend 32

/-- Local protection registers (R345), by offset from the group's first. -/
def readLp (s : State) (o : Nat) : Word :=
  let p := s.lp
  let d := p.dieSel.toNat
  if o = 0x00 then pack [(0, missingChannels s), (6, b2n p.refoldShort), (7, b2n p.staging), (8, b2n p.beyond)]
  else if o = 0x04 then BitVec.ofNat 32 (awaitingBands s).length
  else if o = 0x08 then BitVec.ofNat 32 ((denseGroups s).countP (groupBlocked s))
  else if o = 0x0C then BitVec.ofNat 32 ((liveBands s).countP (fun b => Nat.ble 5 (missingOf s b).length))
  else if o = 0x10 then p.dieFailLimit.zeroExtend 32
  else if o = 0x14 then p.dieSel.zeroExtend 32
  else if o = 0x18 then sget 0 p.dieWeak d
  else if o = 0x1C then sget 0 p.dieFail d
  else if o = 0x20 then BitVec.ofNat 32 (min 0x1FFFF (dieFails24 s d))
  else if o = 0x24 then p.rebuild
  else if o = 0x28 then p.located
  else if o = 0x2C then p.tie
  else if o = 0x30 then p.poison
  else 0

/-- Two pool indexes as SPAN_OUTR and SPAN_WARD show them, 0x1FF for none. -/
def idPair (l : List Nat) : Word := pack [(0, l.getD 0 0x1FF), (9, l.getD 1 0x1FF)]

/-- Span registers (R400), by offset in the block; on the L1 all but SPAN_SELF read 0 (note to R401). -/
def readSpan (s : State) (o : Nat) : Word :=
  let p := s.span
  let self := match p.selfIdx.bind (fun i => sfind p.pool i.toNat) with | some e => e.pbr.toNat | none => 0
  if o = 0x04 then pack [(0, (p.selfIdx.getD 0).toNat), (9, self)]
  else if !hasSpan s then 0
  else if o = 0x00 then
    match p.desc with
    | none => 0
    | some d => pack [(0, d.span.toNat), (8, d.k.toNat % 16), (12, d.m.toNat % 8), (16, p.own.toNat), (20, d.f.toNat % 4), (22, 1)]
  else if o = 0x08 then pack [(0, p.spanState.toNat), (3, ownRole s), (6, b2n p.exposed), (7, b2n (noSync s))]
  else if o = 0x0C then idPair (p.outr.map (memberPool s))
  else if o = 0x10 then idPair ((wardMembers s).map (wardPool s))
  else if o = 0x14 then BitVec.ofNat 32 (patchFill s)
  else if o = 0x18 then BitVec.ofNat 32 ((p.wards.map (fun w => w.records.length)).foldl (fun a b => a + b) 0)
  else if o = 0x1C then
    BitVec.ofNat 32 (dedup (p.rebuildMarks ++ (s.xlat.ft.filter (fun e => ftMode e.2 == mSpanServed)).map (fun e => e.1))).length
  else if o = 0x20 then
    BitVec.ofNat 32 (p.holdings.length + (s.mm.batches.map (fun b => b.slots.countP (fun x =>
      x.phase == .admitted || x.phase == .staged || x.phase == .committed))).foldl (fun a b => a + b) 0)
  else if 0x40 ≤ o ∧ o < 0x80 then
    let r := (o - 0x40) / 4
    pack [(0, min 15 (peerOf s r).missed), (4, (peerOf s r).st.toNat)]
  else if o = 0x80 then p.cRecords
  else if o = 0x84 then p.cResend
  else if o = 0x88 then p.cDeltas
  else if o = 0x8C then p.cReconOut
  else if o = 0x90 then p.cReconIn
  else 0

/-- The bits `lo` to `hi` of a dword. -/
def maskBits (lo hi : Nat) : Word := BitVec.ofNat 32 (2 ^ (hi + 1) - 2 ^ lo)

/-- The RsvdP bits of a BAR2 dword, by the register tables (R122, R186, R219, R313, R345, R430, R498, R519, R538, R585); those of
CMB_CTRL are in `mbRead`. -/
def rsvdP (o : Nat) : Word :=
  if 0x80004 ≤ o ∧ o < 0x81000 ∧ o % 0x40 = 4 then maskBits 16 31
  else match o with
    | 0x10010 | 0x200210 => maskBits 4 31
    | 0x10014 | 0x60048 => maskBits 13 31
    | 0x1010C => 0x80808080
    | 0x10110 | 0x200300 => maskBits 3 31
    | 0x10114 | 0x200618 => maskBits 14 31
    | 0x30008 | 0x70010 => maskBits 18 31
    | 0x40000 => maskBits 8 31
    | 0x40018 | 0x60004 | 0x203014 => maskBits 9 31
    | 0x60008 => maskBits 5 7 ||| maskBits 13 15 ||| maskBits 17 31
    | 0x60040 => maskBits 24 31
    | 0x70000 | 0x20020C | 0x20061C => maskBits 16 31
    | 0x200000 => maskBits 11 31
    | 0x200008 | 0x200608 => maskBits 20 31
    | 0x203010 => maskBits 17 31
    | _ => 0

/-- A dword of BAR2 with its RsvdP bits still 0; reserved space reads 0 (R638). -/
def readReg (s : State) (o : Nat) : Word :=
  if o < 0x1000 then BitVec.ofNat 32 (field (capBytes s) o 4)
  else if o < 0x10000 then readGlobal s o
  else if o < 0x20000 then readTime s (o - 0x10000)
  else if o < 0x24000 then readPower s (o - 0x20000)
  else if o < 0x30000 then 0
  else if o < 0x40000 then readThermal s (o - 0x30000)
  else if o < 0x50000 then readStrongbox s (o - 0x40000)
  else if o < 0x60000 then readWaybill s (o - 0x50000)
  else if o < 0x70000 then readEvents s (o - 0x60000)
  else if o < 0x74000 then readInject s (o - 0x70000)
  else if o < 0x80000 then 0
  else if o < 0x90000 then readQueueReg s (o - 0x80000)
  else if o < 0x100000 then 0
  else if o < 0x200000 then (mbRead 4 o s).1
  else if o < 0x200480 then readPaths s (o - 0x200000)
  else if 0x200600 ≤ o ∧ o < 0x20063C then readMm s (o - 0x200000)
  else if o < 0x201480 then
    let e := (sget {} s.cache.remap ((o - 0x200480) / 4) : RemapEnt)
    pack [(0, b2n e.valid), (1, e.block.toNat)]
  else if o < 0x202000 then 0
  else if o < 0x202400 then readMch s ((o - 0x202000) / 32) (o % 32)
  else if o < 0x203000 then 0
  else if o < 0x300000 then readLp s (o - 0x203000)
  else if o < 0x400000 then readSpan s (o - 0x300000)
  else 0

/-- A read of a BAR2 dword that has no effect of its own: what `readReg` gives, with a free value in the RsvdP bits (R8). -/
def readDword (o : Nat) (s : State) : Word × State :=
  if o < 0x100000 ∨ 0x200000 ≤ o then
    (if rsvdP o = 0 then (readReg s o, s)
     else
       let (v, s') := drawBits 32 s
       (readReg s o ||| (v &&& rsvdP o), s'))
  else mbRead 4 o s

end Sys2Proof.Machine
end

