-- ==== Sys2Proof/Machine/Registers.lean ====
section
/-! DEFINITION. What a write of a BAR2 dword does, register by register and field type by field type, and the access rules of
R637 and R638. RO fields, reserved bits and fields of absent units keep their values (R638); a value outside a field's range is
ignored. -/

namespace Sys2Proof.Machine

/-- The registers and windows of BAR2 as runs of dwords (R632, R633): first offset, count, distance. The capability list and the
mailboxes of the unit service window are added in `isRegister`. -/
def registerRuns : List (Nat × Nat × Nat) := [
  (0x1000, 6, 4), (0x1020, 3, 4), (0x1040, 1, 4), (0x1080, 5, 4),
  (0x10000, 11, 4), (0x10100, 6, 4), (0x10120, 4, 4), (0x10180, 8, 4),
  (0x20000, 14, 4), (0x20100, 64, 4), (0x30000, 8, 4), (0x30100, 64, 4),
  (0x40000, 8, 4), (0x48000, 8192, 4), (0x50000, 6, 4), (0x51000, 1024, 4),
  (0x60000, 3, 4), (0x60010, 9, 4), (0x60040, 4, 4), (0x70000, 8, 4),
  (0x80000, 64, 64), (0x80004, 64, 64), (0x80008, 64, 64), (0x8000C, 64, 64), (0x80010, 64, 64), (0x80014, 64, 64),
  (0x80018, 64, 64), (0x8001C, 64, 64), (0x80020, 64, 64), (0x81000, 4, 4),
  (0x200000, 5, 4), (0x200100, 7, 4), (0x200200, 14, 4), (0x200300, 8, 4), (0x200380, 64, 4), (0x200480, 1024, 4),
  (0x202000, 256, 4), (0x203000, 14, 4), (0x300000, 9, 4), (0x300040, 16, 4), (0x300080, 6, 4)]

/-- Whether an offset is in one run. -/
def inRun (o : Nat) (e : Nat × Nat × Nat) : Bool := Nat.ble e.1 o && Nat.blt o (e.1 + e.2.1 * e.2.2) && (o - e.1) % e.2.2 == 0

/-- Whether a register table, a window or the capability list defines the dword at an offset; everything else is reserved (R638). -/
def isRegister (s : State) (o : Nat) : Bool :=
  registerRuns.any (inRun o) || Nat.blt o (capBytes s).length || (mbAt o).isSome

/-- A field's new value where it passes its check, its old value else. -/
def keepUnless {α : Type} (c : Bool) (new old : α) : α := if c then new else old

/-- Whether a value lies in a range. -/
def within (lo hi v : Nat) : Bool := Nat.ble lo v && Nat.ble v hi

/-- Global registers (R635). -/
def writeGlobal (o : Nat) (v : Word) (s : State) : State :=
  if o = 0x1020 then { s with id := { s.id with scratch := v } }
  else if o = 0x1024 then
    { s with id := { s.id with errPartial := s.id.errPartial && !v.getLsbD 0, errReserved := s.id.errReserved && !v.getLsbD 1 } }
  else s

/-- Time and timetable registers (R430), by offset in the block. -/
def writeTime (o : Nat) (v : Word) (s : State) : State :=
  let n := v.toNat
  if o = 0x10 then { s with time := { s.time with cfgSrc := v.extractLsb' 0 2, cfgPtmPort := v.extractLsb' 2 2 } }
  else if o = 0x14 then
    { s with time := { s.time with holdLim := keepUnless (within 50 4000 (bits n 0 13)) (v.extractLsb' 0 13) s.time.holdLim } }
  else if o = 0x18 then { s with time := { s.time with markVal := s.time.markVal.extractLsb' 32 32 ++ v } }
  else if o = 0x1C then writeMarkHi v s
  else if o = 0x10C then
    { s with tt := { s.tt with
      bgMax := keepUnless (within 1 64 (bits n 0 7)) (v.extractLsb' 0 7) s.tt.bgMax
      bgFloor := keepUnless (within 1 16 (bits n 8 7)) (v.extractLsb' 8 7) s.tt.bgFloor } }
  else if o = 0x110 then
    { s with tt := { s.tt with clearPerDie := keepUnless (within 1 4 (bits n 0 3)) (v.extractLsb' 0 3) s.tt.clearPerDie } }
  else if o = 0x114 then
    { s with tt := { s.tt with inbound := keepUnless (within 10 240 (bits n 0 8)) (v.extractLsb' 0 8) s.tt.inbound } }
  else if o = 0x12C ∧ v.getLsbD 0 then clearTtstat 0 s
  else s

/-- Power sequencer registers (R568), by offset in the block. -/
def writePower (o : Nat) (v : Word) (s : State) : State :=
  if o = 0x2C then
    setPower (fun p => { p with glitchFlag := p.glitchFlag && !v.getLsbD 0, railFailFlag := p.railFailFlag && !v.getLsbD 1 }) s
  else if o = 0x34 ∧ v.getLsbD 0 then clearPwr 0 s
  else s

/-- Thermal registers (R585), by offset in the block. -/
def writeThermal (o : Nat) (v : Word) (s : State) : State :=
  let n := v.toNat
  if o = 0x08 then
    setTherm (fun t => { t with
      notice := keepUnless (within 85 110 (bits n 0 8)) (v.extractLsb' 0 8) t.notice
      grace := keepUnless (within 1 1000 (bits n 8 10)) (v.extractLsb' 8 10) t.grace }) s
  else if o = 0x14 then
    setTherm (fun t => { t with
      fNotice := t.fNotice && !v.getLsbD 0, fBrake := t.fBrake && !v.getLsbD 1, fBroken := t.fBroken && !v.getLsbD 2 }) s
  else if o = 0x1C ∧ v.getLsbD 0 then clearThrmstat 0 s
  else s

/-- Strongbox registers (R538), by offset in the block. -/
def writeStrongbox (o : Nat) (v : Word) (s : State) : State :=
  if o = 0x00 then { s with sb := { s.sb with waitReg := v.extractLsb' 0 4 } }
  else if o = 0x04 then
    { s with sb := { s.sb with bandChg := s.sb.bandChg && !v.getLsbD 3, abandonFlag := s.sb.abandonFlag && !v.getLsbD 4 } }
  else if o = 0x18 then { s with sb := { s.sb with wbase := v.extractLsb' 0 9 } }
  else if o = 0x1C ∧ v.getLsbD 0 then clearStrongbox 0 s
  else s

/-- Waybill registers (R519), by offset in the block. -/
def writeWaybill (o : Nat) (v : Word) (s : State) : State :=
  if o = 0x00 then { s with wb := { s.wb with cursor := v } }
  else if o = 0x14 ∧ v.getLsbD 0 then startFlush s
  else s

/-- Event registers (R511, R519), by offset in the block. -/
def writeEvents (o : Nat) (v : Word) (s : State) : State :=
  let n := v.toNat
  if o = 0x00 then clearEvt (v.extractLsb' 0 9) s
  else if o = 0x04 then { s with evt := { s.evt with enable := v.extractLsb' 0 9 } }
  else if o = 0x08 then
    { s with evt := { s.evt with vector := v.extractLsb' 0 5, noticeVec := v.extractLsb' 8 5, alertEn := v.getLsbD 16 } }
  else if o = 0x40 then
    { s with evt := { s.evt with
      leakMs := keepUnless (within 10 60000 (bits n 0 16)) (v.extractLsb' 0 16) s.evt.leakMs
      threshold := keepUnless (within 2 255 (bits n 16 8)) (v.extractLsb' 16 8) s.evt.threshold } }
  else if o = 0x48 then { s with evt := { s.evt with selClass := v.extractLsb' 0 4, selIndex := v.extractLsb' 4 9 } }
  else s

/-- Injection registers (R519), by offset in the block; at PL1 and PL2 writes are ignored (R518). -/
def writeInject (o : Nat) (v : Word) (s : State) : State :=
  if o = 0x00 then { s with evt := { s.evt with injPoint := v.extractLsb' 0 16 } }
  else if o = 0x04 then { s with evt := { s.evt with injUnit := v.extractLsb' 0 24, injWord := v.extractLsb' 24 8 } }
  else if o = 0x08 then { s with evt := { s.evt with injLo := v } }
  else if o = 0x0C then { s with evt := { s.evt with injHi := v } }
  else if o = 0x10 then { s with evt := { s.evt with injCheck := v.extractLsb' 0 16, injCopy := v.extractLsb' 16 2 } }
  else if o = 0x14 then
    let s := { s with evt := { s.evt with refused := s.evt.refused && !v.getLsbD 2 } }
    let s := if v.getLsbD 0 then regArm s else s
    if v.getLsbD 1 then regDisarm s else s
  else s

/-- Queue and notice registers (R498), by offset in the block. QUEUE_TAIL of queues 0 to 3 is RO. -/
def writeQueueReg (o : Nat) (v : Word) (s : State) : State :=
  if o < 0x1000 then
    let q := o / 0x40
    if o % 0x40 = 0x04 then
      (if 4 ≤ q ∧ v.extractLsb' 0 16 ≠ 0 then setQ q (fun x => { x with tail := v.extractLsb' 0 16 }) s else s)
    else if o % 0x40 = 0x1C then
      setQ q (fun x => { x with
        overrun := x.overrun && !v.getLsbD 0, parity := x.parity && !v.getLsbD 1, tailFlag := x.tailFlag && !v.getLsbD 2
        releaseErr := x.releaseErr && !v.getLsbD 3 }) s
    else s
  else if o = 0x100C then
    let s := if v.getLsbD 0 then qMark 4 s else s
    let s := if v.getLsbD 1 then qRewind 4 s else s
    if bits v.toNat 16 16 = 0 then s else releaseWords 4 (bits v.toNat 16 16) s
  else s

/-- The ψ in force for every fast frame, kept until its next gap move (R100): the frames that no move or allocation since the start has
given one hold the field's value of now. -/
def psiFrozen (s : State) : SMap (BitVec 11) :=
  (s.xlat.fst.filter (fun e => fsUse e.2 == useFrame && (sfind s.xlat.psiAt e.1).isNone)).foldl
    (fun m e => sput m e.1 s.xlat.psi) s.xlat.psiAt

/-- TRANSLATION, READSTAT, WRITE and CACHE registers (R122, R153, R186, R219), by offset in the block. -/
def writePaths (o : Nat) (v : Word) (s : State) : State :=
  let n := v.toNat
  if o = 0x000 then
    { s with xlat := { s.xlat with
      psiAt := psiFrozen s, psi := keepUnless (within 16 1024 (bits n 0 11)) (v.extractLsb' 0 11) s.xlat.psi } }
  else if o = 0x008 then updLoad { s with xlat := { s.xlat with fastResMin := v.extractLsb' 0 20 } }
  else if o = 0x118 ∧ v.getLsbD 0 then clearReadstat 0 s
  else if o = 0x20C then
    { s with write := { s.write with ageMax := keepUnless (within 10 60000 (bits n 0 16)) (v.extractLsb' 0 16) s.write.ageMax } }
  else if o = 0x210 then
    { s with write := { s.write with strictTmo := keepUnless (within 5 14 (bits n 0 4)) (v.extractLsb' 0 4) s.write.strictTmo } }
  else if o = 0x21C ∧ v.getLsbD 0 then clearWritestat 0 s
  else if o = 0x300 then
    let s := { s with cache := { s.cache with prefetchEn := v.getLsbD 0 } }
    if v.getLsbD 2 then clearCachestat 0 s else s
  else s

/-- Media management registers (R313), by offset in the block. -/
def writeMm (o : Nat) (v : Word) (s : State) : State :=
  let n := v.toNat
  if o = 0x608 then
    { s with mm := { s.mm with reclaimLow := keepUnless (Nat.ble 1024 (bits n 0 20)) (v.extractLsb' 0 20) s.mm.reclaimLow } }
  else if o = 0x618 then
    { s with mm := { s.mm with resettleH := keepUnless (within 24 8760 (bits n 0 14)) (v.extractLsb' 0 14) s.mm.resettleH } }
  else if o = 0x61C then
    { s with mm := { s.mm with
      scrubD := keepUnless (within 24 96 (bits n 0 8)) (v.extractLsb' 0 8) s.mm.scrubD
      scrubF := keepUnless (within 6 24 (bits n 8 8)) (v.extractLsb' 8 8) s.mm.scrubF } }
  else if o = 0x638 ∧ v.getLsbD 0 then clearMmstat 0 s
  else s

/-- Local protection registers (R345), by offset from the group's first. -/
def writeLp (o : Nat) (v : Word) (s : State) : State :=
  if o = 0x10 then
    { s with lp := { s.lp with
      dieFailLimit := keepUnless (Nat.ble 1024 (bits v.toNat 0 17)) (v.extractLsb' 0 17) s.lp.dieFailLimit } }
  else if o = 0x14 then { s with lp := { s.lp with dieSel := v.extractLsb' 0 9 } }
  else if o = 0x34 ∧ v.getLsbD 0 then clearLpstat 0 s
  else s

/-- A dword of BAR2 written whole. The mailboxes are those of sender slot 4. -/
def writeReg (o : Nat) (v : Word) (s : State) : State :=
  if o < 0x1000 then s
  else if o < 0x10000 then writeGlobal o v s
  else if o < 0x20000 then writeTime (o - 0x10000) v s
  else if o < 0x24000 then writePower (o - 0x20000) v s
  else if o < 0x30000 then s
  else if o < 0x40000 then writeThermal (o - 0x30000) v s
  else if o < 0x50000 then writeStrongbox (o - 0x40000) v s
  else if o < 0x60000 then writeWaybill (o - 0x50000) v s
  else if o < 0x70000 then writeEvents (o - 0x60000) v s
  else if o < 0x74000 then writeInject (o - 0x70000) v s
  else if o < 0x80000 then s
  else if o < 0x90000 then writeQueueReg (o - 0x80000) v s
  else if o < 0x100000 then s
  else if o < 0x200000 then (match mbUnit o with | some u => mbAccess 4 u (mbWrite 4 o v) s | none => s)
  else if o < 0x200480 then writePaths (o - 0x200000) v s
  else if 0x200600 ≤ o ∧ o < 0x20063C then writeMm (o - 0x200000) v s
  else if o < 0x202000 then s
  else if o < 0x202400 then (if o % 32 = 0x1C ∧ v.getLsbD 16 then clearMch ((o - 0x202000) / 32) 0 s else s)
  else if o < 0x203000 then s
  else if o < 0x300000 then writeLp (o - 0x203000) v s
  else if o = 0x300094 ∧ v.getLsbD 0 then clearSpanstat 0 s
  else s

/-- Whether a write falls in the injection block while the protection level closes it (R518). -/
def injectClosed (s : State) (o : Nat) : Bool := within 0x70000 0x73FFF o && Nat.ble 1 s.sec.pl.toNat

/-- A GLOBAL_ERR flag set; the first one keeps the offset of its access (R635). -/
def flagAccess (reserved : Bool) (off : BitVec 24) (s : State) : State :=
  { s with id := { s.id with
    errAddr := if s.id.errPartial || s.id.errReserved then s.id.errAddr else off
    errPartial := s.id.errPartial || !reserved
    errReserved := s.id.errReserved || reserved } }

/-- A dword written whole: its register takes it, or reserved space is flagged (R637, R638). -/
def writeDword (off : BitVec 24) (o : Nat) (v : Word) (s : State) : State :=
  if injectClosed s o then s
  else if isRegister s o then writeReg o v s
  else flagAccess true off s

/-- Byte `a` of BAR2 as a write of `data` at `off` gives it, none where it is not enabled. -/
def writtenByte (off : BitVec 24) (data : BitVec 64) (be : Byte) (a : Nat) : Option Byte :=
  if off.toNat ≤ a ∧ a < off.toNat + 8 ∧ be.getLsbD (a - off.toNat) then some (data.extractLsb' (8 * (a - off.toNat)) 8) else none

/-- One dword of an access: written when its four byte enables are set, flagged and discarded with some of them set, not accessed
with none (R637). -/
def accessDword (off : BitVec 24) (data : BitVec 64) (be : Byte) (o : Nat) (s : State) : State :=
  match writtenByte off data be o, writtenByte off data be (o + 1), writtenByte off data be (o + 2), writtenByte off data be (o + 3) with
  | none, none, none, none => s
  | some a, some b, some c, some d => writeDword off o (d ++ c ++ b ++ a) s
  | _, _, _, _ => flagAccess false off s

/-- REGISTER_WRITE: a BAR2 write through the function of a port that has the window (the LD of an SLD port, LD 0xFFFF of an MLD
port), dword by dword in ascending order (R38, R637, R642). -/
def execRegisterWrite (port : Fin 4) (offset : BitVec 24) (data : BitVec 64) (be : Byte) (s : State) : Res :=
  let s := begin s
  if !hasWindow s port.val then ran s
  else
    let o := 4 * (offset.toNat / 4)
    ran ([o, o + 4, o + 8].foldl (fun s o => if o < 2 ^ 24 then accessDword offset data be o s else s) s)

end Sys2Proof.Machine
end

