-- ==== Sys2Proof/Machine/Spdm.lean ====
section
/-! DEFINITION. The SPDM responder of a port's DOE mailbox and CXL IDE_KM (R624 to R626). The order of requests and the error codes
are those of SPDM 1.2 (PRESUMED, log entry 60); one session at a time. -/

namespace Sys2Proof.Machine

/-- SPDM error codes: invalid request, invalid session, unexpected request, decrypt error, session limit. -/
def seInvalid : Nat := 1
def seSession : Nat := 2
def seUnexpected : Nat := 4
def seDecrypt : Nat := 6
def seLimit : Nat := 10

/-- A request on a port's DOE mailbox: answered while the link is up and controller firmware runs. -/
def onDoe (p : Nat) (f : State → State) (s : State) : Res :=
  let s := begin s
  if !(portOf s p).up || !s.host.mailboxReady || s.host.mgmtReset then ran s else ran (f s)

/-- An answer, and an error. -/
def spdmSend (p : Nat) (o : SpdmOut) (s : State) : State := send s (.spdm p o)
def spdmErr (p code : Nat) (s : State) : State := spdmSend p (.error code) s
def setSpdm (p : Nat) (st : SpdmStage) (s : State) : State := setPort p (fun q => { q with spdm := st }) s

/-- Whether the algorithms have been agreed. -/
def spdmReady (s : State) (p : Nat) : Bool :=
  match (portOf s p).spdm with | .start => false | .version => false | .caps => false | _ => true

/-- A request that needs the algorithms agreed. -/
def afterAlgs (p : Nat) (f : State → State) (s : State) : State := if spdmReady s p then f s else spdmErr p seUnexpected s

/-- A request inside an established session. -/
def inSession (p : Nat) (session : Word) (f : State → State) (s : State) : State :=
  match (portOf s p).spdm with
  | .session x => if x = session then f s else spdmErr p seSession s
  | _ => spdmErr p seSession s

/-- GET_VERSION: begins a connection anew. -/
def execGetVersion (port : Fin 4) (s : State) : Res :=
  onDoe port (fun s => spdmSend port .version (setSpdm port .version s)) s

/-- GET_CAPABILITIES. -/
def execGetCapabilities (port : Fin 4) (_flags : Word) (s : State) : Res :=
  onDoe port (fun s =>
    if (portOf s port).spdm = .version then spdmSend port .capabilities (setSpdm port .caps s) else spdmErr port seUnexpected s) s

/-- NEGOTIATE_ALGORITHMS: `supported` says that the request offers the algorithms of R625. -/
def execNegotiateAlgorithms (port : Fin 4) (supported : Bool) (s : State) : Res :=
  onDoe port (fun s =>
    if (portOf s port).spdm ≠ .caps then spdmErr port seUnexpected s
    else if !supported then spdmErr port seInvalid s
    else spdmSend port .algorithms (setSpdm port .algs s)) s

/-- GET_DIGESTS: SHA-384 of the chain in slot 0. -/
def execGetDigests (port : Fin 4) (s : State) : Res :=
  onDoe port (afterAlgs port (fun s => spdmSend port (.digests (Config.sha384 Config.certChain)) s)) s

/-- GET_CERTIFICATE of slot 0, the only one. -/
def execGetCertificate (port : Fin 4) (slot : Byte) (offset : BitVec 16) (length : BitVec 16) (s : State) : Res :=
  onDoe port (afterAlgs port (fun s =>
    let chain := Config.certChain
    if slot ≠ 0 ∨ chain.length ≤ offset.toNat then spdmErr port seInvalid s
    else
      let part := (chain.drop offset.toNat).take length.toNat
      spdmSend port (.certificate part (chain.length - offset.toNat - part.length)) s)) s

/-- CHALLENGE: a signature over the nonce and the chain's digest. -/
def execChallenge (port : Fin 4) (slot : Byte) (nonce : BitVec 256) (s : State) : Res :=
  onDoe port (afterAlgs port (fun s =>
    if slot ≠ 0 then spdmErr port seInvalid s
    else spdmSend port (.challengeAuth (Config.sign (bytesOf 32 nonce.toNat ++ Config.sha384 Config.certChain))) s)) s

/-- The five device measurements. -/
def measurement (s : State) (i : Nat) : List Byte :=
  match i with
  | 1 => Config.sha384 Config.sillRom
  | 2 => Config.sha384 Config.mainRom
  | 3 => s.fw.runDigest
  | 4 => bytesOf 4 s.fw.runSvn.toNat ++ bytesOf 4 s.sec.svnMin.toNat
  | _ => bytesOf 1 s.sec.pl.toNat ++ Config.sha384 (optionArea s.sb.cells)

/-- GET_MEASUREMENTS: index 0 asks for their number, 0xFF for all five; signed with a nonce. -/
def execGetMeasurements (port : Fin 4) (index : Byte) (nonce : Option (BitVec 256)) (s : State) : Res :=
  onDoe port (afterAlgs port (fun s =>
    let i := index.toNat
    if 5 < i ∧ i ≠ 255 then spdmErr port seInvalid s
    else
      let is := if i = 0 then [] else if i = 255 then [1, 2, 3, 4, 5] else [i]
      let vals := if i = 0 then [(0, bytesOf 1 5)] else is.map (fun k => (k, measurement s k))
      let sig := match nonce with
        | some n => Config.sign (bytesOf 32 n.toNat ++ vals.flatMap (fun v => bytesOf 1 v.1 ++ v.2))
        | none => []
      spdmSend port (.measurements vals sig) s)) s

/-- KEY_EXCHANGE: a session named by both halves, its exchange data from the random source (R608). -/
def execKeyExchange (port : Fin 4) (reqSession : BitVec 16) (exchange : List Byte) (s : State) : Res :=
  onDoe port (afterAlgs port (fun s =>
    match (portOf s port).spdm with
    | .session _ => spdmErr port seLimit s
    | _ =>
      if exchange.length ≠ 96 then spdmErr port seInvalid s
      else
        let (half, s) := drawBits 16 s
        let (x, s) := drawBits 768 s
        let session : Word := half ++ reqSession
        spdmSend port (.keyExchange session (bytesOf 96 x.toNat)) (setSpdm port (.handshake session) s))) s

/-- FINISH: `verifyOk` says that the requester's verify data holds. -/
def execFinish (port : Fin 4) (session : Word) (verifyOk : Bool) (s : State) : Res :=
  onDoe port (fun s =>
    match (portOf s port).spdm with
    | .handshake x =>
      if x ≠ session then spdmErr port seSession s
      else if !verifyOk then spdmErr port seDecrypt (setSpdm port .algs s)
      else spdmSend port .finish (setSpdm port (.session session) s)
    | _ => spdmErr port seSession s) s

/-- KEY_UPDATE: operations 1 to 3. -/
def execKeyUpdate (port : Fin 4) (session : Word) (op : Byte) (s : State) : Res :=
  onDoe port (inSession port session (fun s =>
    if 1 ≤ op.toNat ∧ op.toNat ≤ 3 then spdmSend port .keyUpdate s else spdmErr port seInvalid s)) s

/-- HEARTBEAT. -/
def execSpdmHeartbeat (port : Fin 4) (session : Word) (s : State) : Res :=
  onDoe port (inSession port session (spdmSend port .heartbeat)) s

/-- END_SESSION. -/
def execEndSession (port : Fin 4) (session : Word) (s : State) : Res :=
  onDoe port (inSession port session (fun s => spdmSend port .endSession (setSpdm port .algs s))) s

/-- IDE_KM inside a session, on a port in 256-byte flit mode (R626): a key programmed, the stream started with its key or stopped. -/
def execIdeKm (port : Fin 4) (session : Word) (op : IdeOp) (sub : Byte) (key : BitVec 256) (s : State) : Res :=
  onDoe port (fun s =>
    let q := portOf s port
    let has := (sfind q.ideKeys sub.toNat).isSome
    if q.spdm ≠ .session session ∨ !q.flit256 then send s (.ideKm port false)
    else
      match op with
      | .keyProg => send (setPort port (fun q => { q with ideKeys := sput q.ideKeys sub.toNat key }) s) (.ideKm port true)
      | .setGo => send (if has then setPort port (fun q => { q with ideActive := true }) s else s) (.ideKm port has)
      | .setStop => send (setPort port (fun q => { q with ideActive := false }) s) (.ideKm port true)
      | .query => send s (.ideKm port true)) s

end Sys2Proof.Machine
end

