-- ==== Sys2Proof/Machine/Dispatch.lean ====
section
/-! DEFINITION. One arm per command: the meaning of each row of the opcode table. -/

namespace Sys2Proof.Machine

/-- The effect of a command on everything but the queue of waiting commands. -/
def exec (i : Instr) (s : State) : Host.Outcome State Fault Refusal :=
  match i with
  | .memRead port ld hpa tag => Sys2Proof.Machine.execMemRead port ld hpa tag s
  | .memWrite port ld hpa tag data be poisoned => Sys2Proof.Machine.execMemWrite port ld hpa tag data be poisoned s
  | .writeCreditGrant port ld => Sys2Proof.Machine.execWriteCreditGrant port ld s
  | .strictAckTimeout port ld tag => Sys2Proof.Machine.execStrictAckTimeout port ld tag s
  | .relaxedRecordStall stream rnum => Sys2Proof.Machine.execRelaxedRecordStall stream rnum s
  | .relaxedRecordExposed stream rnum => Sys2Proof.Machine.execRelaxedRecordExposed stream rnum s
  | .dirtyAgeLimit lln => Sys2Proof.Machine.execDirtyAgeLimit lln s
  | .perstAssert grp => Sys2Proof.Machine.execPerstAssert grp s
  | .perstDeassert grp => Sys2Proof.Machine.execPerstDeassert grp s
  | .linkUp port width rate flit256 mld => Sys2Proof.Machine.execLinkUp port width rate flit256 mld s
  | .surpriseLinkDown port => Sys2Proof.Machine.execSurpriseLinkDown port s
  | .refclkLoss grp => Sys2Proof.Machine.execRefclkLoss grp s
  | .powerStateChange port ld d3hot => Sys2Proof.Machine.execPowerStateChange port ld d3hot s
  | .ideIntegrityFailure port => Sys2Proof.Machine.execIdeIntegrityFailure port s
  | .gpfPhase1 port => Sys2Proof.Machine.execGpfPhase1 port s
  | .gpfPhase2 port => Sys2Proof.Machine.execGpfPhase2 port s
  | .identifyMemoryDevice c ldb => Sys2Proof.Machine.execIdentifyMemoryDevice c ldb s
  | .getHealthInfo c ldb => Sys2Proof.Machine.execGetHealthInfo c ldb s
  | .getEventRecords c ldb log => Sys2Proof.Machine.execGetEventRecords c ldb log s
  | .clearEventRecords c ldb log all handles => Sys2Proof.Machine.execClearEventRecords c ldb log all handles s
  | .getEventInterruptPolicy c ldb => Sys2Proof.Machine.execGetEventInterruptPolicy c ldb s
  | .setEventInterruptPolicy c ldb policy => Sys2Proof.Machine.execSetEventInterruptPolicy c ldb policy s
  | .getSupportedLogs c ldb => Sys2Proof.Machine.execGetSupportedLogs c ldb s
  | .getLog c ldb offset length => Sys2Proof.Machine.execGetLog c ldb offset length s
  | .getTimestamp c ldb => Sys2Proof.Machine.execGetTimestamp c ldb s
  | .setTimestamp c ldb value => Sys2Proof.Machine.execSetTimestamp c ldb value s
  | .getFwInfo c ldb => Sys2Proof.Machine.execGetFwInfo c ldb s
  | .transferFw c action offset data => Sys2Proof.Machine.execTransferFw c action offset data s
  | .activateFw c online slot => Sys2Proof.Machine.execActivateFw c online slot s
  | .getPoisonList c ldb addr length => Sys2Proof.Machine.execGetPoisonList c ldb addr length s
  | .injectPoison c ldb addr => Sys2Proof.Machine.execInjectPoison c ldb addr s
  | .clearPoison c ldb addr data => Sys2Proof.Machine.execClearPoison c ldb addr data s
  | .sanitize c ldb => Sys2Proof.Machine.execSanitize c ldb s
  | .secureErase c ldb => Sys2Proof.Machine.execSecureErase c ldb s
  | .getDynamicCapacityConfiguration c ldb => Sys2Proof.Machine.execGetDynamicCapacityConfiguration c ldb s
  | .getDynamicCapacityExtentList c ldb => Sys2Proof.Machine.execGetDynamicCapacityExtentList c ldb s
  | .addDynamicCapacityResponse c ldb exts => Sys2Proof.Machine.execAddDynamicCapacityResponse c ldb exts s
  | .releaseDynamicCapacity c ldb exts => Sys2Proof.Machine.execReleaseDynamicCapacity c ldb exts s
  | .unsupportedOpcode c opcode => Sys2Proof.Machine.execUnsupportedOpcode c opcode s
  | .fmIdentify c => Sys2Proof.Machine.execFmIdentify c s
  | .getLdInfo c => Sys2Proof.Machine.execGetLdInfo c s
  | .getLdAllocations c port first count => Sys2Proof.Machine.execGetLdAllocations c port first count s
  | .setLdAllocations c port first units => Sys2Proof.Machine.execSetLdAllocations c port first units s
  | .getQosControl c port => Sys2Proof.Machine.execGetQosControl c port s
  | .setQosControl c port ctrl => Sys2Proof.Machine.execSetQosControl c port ctrl s
  | .getQosStatus c port => Sys2Proof.Machine.execGetQosStatus c port s
  | .getQosAllocatedBw c port first count => Sys2Proof.Machine.execGetQosAllocatedBw c port first count s
  | .setQosAllocatedBw c port first fracs => Sys2Proof.Machine.execSetQosAllocatedBw c port first fracs s
  | .getQosBwLimit c port first count => Sys2Proof.Machine.execGetQosBwLimit c port first count s
  | .setQosBwLimit c port first fracs => Sys2Proof.Machine.execSetQosBwLimit c port first fracs s
  | .getDcRegionConfiguration c ldb => Sys2Proof.Machine.execGetDcRegionConfiguration c ldb s
  | .initiateDynamicCapacityAdd c ldb ext extTag => Sys2Proof.Machine.execInitiateDynamicCapacityAdd c ldb ext extTag s
  | .initiateDynamicCapacityRelease c ldb ext => Sys2Proof.Machine.execInitiateDynamicCapacityRelease c ldb ext s
  | .getDcRegionExtentLists c ldb => Sys2Proof.Machine.execGetDcRegionExtentLists c ldb s
  | .unknownVendorOpcode c opcode inp => Sys2Proof.Machine.execUnknownVendorOpcode c opcode inp s
  | .merlasIdentify c inp => Sys2Proof.Machine.execMerlasIdentify c inp s
  | .capQuery c inp => Sys2Proof.Machine.execCapQuery c inp s
  | .jobStatus c inp => Sys2Proof.Machine.execJobStatus c inp s
  | .unitQuery c inp => Sys2Proof.Machine.execUnitQuery c inp s
  | .unitList c inp => Sys2Proof.Machine.execUnitList c inp s
  | .unitTest c inp => Sys2Proof.Machine.execUnitTest c inp s
  | .unitBypass c inp => Sys2Proof.Machine.execUnitBypass c inp s
  | .unitIsolate c inp => Sys2Proof.Machine.execUnitIsolate c inp s
  | .unitReadmit c inp => Sys2Proof.Machine.execUnitReadmit c inp s
  | .unitRetire c inp => Sys2Proof.Machine.execUnitRetire c inp s
  | .foldStatus c inp => Sys2Proof.Machine.execFoldStatus c inp s
  | .framePin c inp => Sys2Proof.Machine.execFramePin c inp s
  | .frameDiscard c inp => Sys2Proof.Machine.execFrameDiscard c inp s
  | .cacheFlush c inp => Sys2Proof.Machine.execCacheFlush c inp s
  | .cacheInvalidate c inp => Sys2Proof.Machine.execCacheInvalidate c inp s
  | .ldCommitSet c inp => Sys2Proof.Machine.execLdCommitSet c inp s
  | .spanQuery c inp => Sys2Proof.Machine.execSpanQuery c inp s
  | .poolGet c inp => Sys2Proof.Machine.execPoolGet c inp s
  | .poolSet c inp => Sys2Proof.Machine.execPoolSet c inp s
  | .spanJoin c inp => Sys2Proof.Machine.execSpanJoin c inp s
  | .spanUpdate c inp => Sys2Proof.Machine.execSpanUpdate c inp s
  | .remountBind c inp => Sys2Proof.Machine.execRemountBind c inp s
  | .spanLeave c inp => Sys2Proof.Machine.execSpanLeave c inp s
  | .unhitchRequest c inp => Sys2Proof.Machine.execUnhitchRequest c inp s
  | .timeQuery c inp => Sys2Proof.Machine.execTimeQuery c inp s
  | .timeMarkSet c inp => Sys2Proof.Machine.execTimeMarkSet c inp s
  | .timeConfig c inp => Sys2Proof.Machine.execTimeConfig c inp s
  | .ttConfig c inp => Sys2Proof.Machine.execTtConfig c inp s
  | .powerQuery c inp => Sys2Proof.Machine.execPowerQuery c inp s
  | .powerTableSet c inp => Sys2Proof.Machine.execPowerTableSet c inp s
  | .powerDown c inp => Sys2Proof.Machine.execPowerDown c inp s
  | .powerUp c inp => Sys2Proof.Machine.execPowerUp c inp s
  | .thermalQuery c inp => Sys2Proof.Machine.execThermalQuery c inp s
  | .thermalConfig c inp => Sys2Proof.Machine.execThermalConfig c inp s
  | .shutdownRecordClear c inp => Sys2Proof.Machine.execShutdownRecordClear c inp s
  | .sboxQuery c inp => Sys2Proof.Machine.execSboxQuery c inp s
  | .sboxRead c inp => Sys2Proof.Machine.execSboxRead c inp s
  | .optionWrite c inp => Sys2Proof.Machine.execOptionWrite c inp s
  | .calOverlayWrite c inp => Sys2Proof.Machine.execCalOverlayWrite c inp s
  | .calOverlayClear c inp => Sys2Proof.Machine.execCalOverlayClear c inp s
  | .waybillRead c inp => Sys2Proof.Machine.execWaybillRead c inp s
  | .waybillRate c inp => Sys2Proof.Machine.execWaybillRate c inp s
  | .injectArm c inp => Sys2Proof.Machine.execInjectArm c inp s
  | .injectDisarm c inp => Sys2Proof.Machine.execInjectDisarm c inp s
  | .secQuery c inp => Sys2Proof.Machine.execSecQuery c inp s
  | .plSet c inp => Sys2Proof.Machine.execPlSet c inp s
  | .ldKeyTransfer c inp => Sys2Proof.Machine.execLdKeyTransfer c inp s
  | .jobEnd job ok => Sys2Proof.Machine.execJobEnd job ok s
  | .plannedRemovalTimeout job => Sys2Proof.Machine.execPlannedRemovalTimeout job s
  | .unitTestTimeout job => Sys2Proof.Machine.execUnitTestTimeout job s
  | .unitIdleEntry unit => Sys2Proof.Machine.execUnitIdleEntry unit s
  | .cmbEcho slot ch m => Sys2Proof.Machine.execCmbEcho slot ch m s
  | .cmbBankState slot ch m => Sys2Proof.Machine.execCmbBankState slot ch m s
  | .cmbInfo slot ch m => Sys2Proof.Machine.execCmbInfo slot ch m s
  | .cmbRawRead slot ch m err => Sys2Proof.Machine.execCmbRawRead slot ch m err s
  | .qmbEcho slot q m => Sys2Proof.Machine.execQmbEcho slot q m s
  | .qmbChannels slot q m => Sys2Proof.Machine.execQmbChannels slot q m s
  | .qmbSuspCount slot q m => Sys2Proof.Machine.execQmbSuspCount slot q m s
  | .qmbSkew slot q m => Sys2Proof.Machine.execQmbSkew slot q m s
  | .qmbRsphiRead q => Sys2Proof.Machine.execQmbRsphiRead q s
  | .sidebandDwordRead offset => Sys2Proof.Machine.execSidebandDwordRead offset s
  | .sidebandDwordWrite offset data => Sys2Proof.Machine.execSidebandDwordWrite offset data s
  | .registerWrite port offset data be => Sys2Proof.Machine.execRegisterWrite port offset data be s
  | .timeNowloRead => Sys2Proof.Machine.execTimeNowloRead s
  | .timeMarkhiWrite value => Sys2Proof.Machine.execTimeMarkhiWrite value s
  | .noticeFlagsRead => Sys2Proof.Machine.execNoticeFlagsRead s
  | .noticeDatahiRead => Sys2Proof.Machine.execNoticeDatahiRead s
  | .noticeCtrlMark => Sys2Proof.Machine.execNoticeCtrlMark s
  | .noticeCtrlRewind => Sys2Proof.Machine.execNoticeCtrlRewind s
  | .noticeCtrlRelease n => Sys2Proof.Machine.execNoticeCtrlRelease n s
  | .readstatCtrlClear inc => Sys2Proof.Machine.execReadstatCtrlClear inc s
  | .writestatCtrlClear inc => Sys2Proof.Machine.execWritestatCtrlClear inc s
  | .cacheCtrlClear inc => Sys2Proof.Machine.execCacheCtrlClear inc s
  | .mchRetrainClear ch inc => Sys2Proof.Machine.execMchRetrainClear ch inc s
  | .mmstatCtrlClear inc => Sys2Proof.Machine.execMmstatCtrlClear inc s
  | .lpstatCtrlClear inc => Sys2Proof.Machine.execLpstatCtrlClear inc s
  | .spanstatCtrlClear inc => Sys2Proof.Machine.execSpanstatCtrlClear inc s
  | .ttstatCtrlClear inc => Sys2Proof.Machine.execTtstatCtrlClear inc s
  | .strongboxCtrlClear inc => Sys2Proof.Machine.execStrongboxCtrlClear inc s
  | .pwrCtrlClear inc => Sys2Proof.Machine.execPwrCtrlClear inc s
  | .thrmstatCtrlClear inc => Sys2Proof.Machine.execThrmstatCtrlClear inc s
  | .wbCtrlFlush => Sys2Proof.Machine.execWbCtrlFlush s
  | .injCtrlArm => Sys2Proof.Machine.execInjCtrlArm s
  | .injCtrlDisarm => Sys2Proof.Machine.execInjCtrlDisarm s
  | .injectDurationEnd point unit => Sys2Proof.Machine.execInjectDurationEnd point unit s
  | .queueWrite q word poison => Sys2Proof.Machine.execQueueWrite q word poison s
  | .queueRead q => Sys2Proof.Machine.execQueueRead q s
  | .queueMark q => Sys2Proof.Machine.execQueueMark q s
  | .queueRewind q => Sys2Proof.Machine.execQueueRewind q s
  | .queueRelease q n => Sys2Proof.Machine.execQueueRelease q n s
  | .queueTailExpiry q => Sys2Proof.Machine.execQueueTailExpiry q s
  | .read ch p => Sys2Proof.Machine.execRead ch p s
  | .refset ch p => Sys2Proof.Machine.execRefset ch p s
  | .refload ch p data => Sys2Proof.Machine.execRefload ch p data s
  | .prog ch p => Sys2Proof.Machine.execProg ch p s
  | .wdata ch p data => Sys2Proof.Machine.execWdata ch p data s
  | .fprog ch p data => Sys2Proof.Machine.execFprog ch p data s
  | .pfin ch p => Sys2Proof.Machine.execPfin ch p s
  | .pabort ch p => Sys2Proof.Machine.execPabort ch p s
  | .clear ch p stamp => Sys2Proof.Machine.execClear ch p stamp s
  | .susp ch p => Sys2Proof.Machine.execSusp ch p s
  | .resume ch p => Sys2Proof.Machine.execResume ch p s
  | .srd ch p => Sys2Proof.Machine.execSrd ch p s
  | .status ch p => Sys2Proof.Machine.execStatus ch p s
  | .temp ch p => Sys2Proof.Machine.execTemp ch p s
  | .ident ch p => Sys2Proof.Machine.execIdent ch p s
  | .getf ch p => Sys2Proof.Machine.execGetf ch p s
  | .setf ch p => Sys2Proof.Machine.execSetf ch p s
  | .rdout ch p => Sys2Proof.Machine.execRdout ch p s
  | .zqcal ch p => Sys2Proof.Machine.execZqcal ch p s
  | .catrain ch p => Sys2Proof.Machine.execCatrain ch p s
  | .wrpat ch p data => Sys2Proof.Machine.execWrpat ch p data s
  | .rdpat ch p => Sys2Proof.Machine.execRdpat ch p s
  | .dreset ch p => Sys2Proof.Machine.execDreset ch p s
  | .mediaUnknownOpcode ch op p => Sys2Proof.Machine.execMediaUnknownOpcode ch op p s
  | .treadEnd ch tag err => Sys2Proof.Machine.execTreadEnd ch tag err s
  | .tpbodyEnd ch die bank => Sys2Proof.Machine.execTpbodyEnd ch die bank s
  | .tpfinEnd ch die bank failAt => Sys2Proof.Machine.execTpfinEnd ch die bank failAt s
  | .tclearEnd ch die bank ok => Sys2Proof.Machine.execTclearEnd ch die bank ok s
  | .tsuspEnd ch die bank => Sys2Proof.Machine.execTsuspEnd ch die bank s
  | .tinfoEnd ch tag => Sys2Proof.Machine.execTinfoEnd ch tag s
  | .tdrstEnd ch die cleared => Sys2Proof.Machine.execTdrstEnd ch die cleared s
  | .tinitEnd ch => Sys2Proof.Machine.execTinitEnd ch s
  | .malertN ch => Sys2Proof.Machine.execMalertN ch s
  | .lineFrame ch h data => Sys2Proof.Machine.execLineFrame ch h data s
  | .infoFrame ch h payload => Sys2Proof.Machine.execInfoFrame ch h payload s
  | .emptyFrame ch h => Sys2Proof.Machine.execEmptyFrame ch h s
  | .progHeld ch h payload => Sys2Proof.Machine.execProgHeld ch h payload s
  | .progDone ch h payload => Sys2Proof.Machine.execProgDone ch h payload s
  | .progFail ch h payload => Sys2Proof.Machine.execProgFail ch h payload s
  | .clearDone ch h payload => Sys2Proof.Machine.execClearDone ch h payload s
  | .clearFail ch h payload => Sys2Proof.Machine.execClearFail ch h payload s
  | .suspended ch h payload => Sys2Proof.Machine.execSuspended ch h payload s
  | .suspNoop ch h payload => Sys2Proof.Machine.execSuspNoop ch h payload s
  | .readDenied ch h payload => Sys2Proof.Machine.execReadDenied ch h payload s
  | .illegal ch h payload => Sys2Proof.Machine.execIllegal ch h payload s
  | .caCheck ch h payload => Sys2Proof.Machine.execCaCheck ch h payload s
  | .thermAlert ch h payload => Sys2Proof.Machine.execThermAlert ch h payload s
  | .dieFault ch h payload => Sys2Proof.Machine.execDieFault ch h payload s
  | .paborted ch h payload => Sys2Proof.Machine.execPaborted ch h payload s
  | .readTimeout ch tag => Sys2Proof.Machine.execReadTimeout ch tag s
  | .holdLimit ch die bank => Sys2Proof.Machine.execHoldLimit ch die bank s
  | .heldReadReroute ch die bank => Sys2Proof.Machine.execHeldReadReroute ch die bank s
  | .channelTrainTimeout ch => Sys2Proof.Machine.execChannelTrainTimeout ch s
  | .zqcalTimer ch => Sys2Proof.Machine.execZqcalTimer ch s
  | .spanReadTimeout tag => Sys2Proof.Machine.execSpanReadTimeout tag s
  | .stageBoundary => Sys2Proof.Machine.execStageBoundary s
  | .foldBatchTimer => Sys2Proof.Machine.execFoldBatchTimer s
  | .foldAgeTrigger lfn => Sys2Proof.Machine.execFoldAgeTrigger lfn s
  | .fastFrameIdleTimeout lfn => Sys2Proof.Machine.execFastFrameIdleTimeout lfn s
  | .checkpointImageStart => Sys2Proof.Machine.execCheckpointImageStart s
  | .dirtyMapGeneration => Sys2Proof.Machine.execDirtyMapGeneration s
  | .patchLogRescanEnd => Sys2Proof.Machine.execPatchLogRescanEnd s
  | .frameTableRestoreEnd lfn => Sys2Proof.Machine.execFrameTableRestoreEnd lfn s
  | .hbmRemapCopyEnd hch => Sys2Proof.Machine.execHbmRemapCopyEnd hch s
  | .heartbeat h state lock bound live admissions activating => Sys2Proof.Machine.execHeartbeat h state lock bound live admissions activating s
  | .peerHeartbeatLoss r => Sys2Proof.Machine.execPeerHeartbeatLoss r s
  | .majorityLoss => Sys2Proof.Machine.execMajorityLoss s
  | .patchBatch h b => Sys2Proof.Machine.execPatchBatch h b s
  | .patchRelease h rsnap llns => Sys2Proof.Machine.execPatchRelease h rsnap llns s
  | .deltaChunkRequest h lfn t foldSeq => Sys2Proof.Machine.execDeltaChunkRequest h lfn t foldSeq s
  | .deltaChunkData h lfn t foldSeq chunk payload => Sys2Proof.Machine.execDeltaChunkData h lfn t foldSeq chunk payload s
  | .deltaChunkCommit h lfn t foldSeq => Sys2Proof.Machine.execDeltaChunkCommit h lfn t foldSeq s
  | .deltaChunkDone h lfn t foldSeq => Sys2Proof.Machine.execDeltaChunkDone h lfn t foldSeq s
  | .deltaChunkAbort h lfn t foldSeq => Sys2Proof.Machine.execDeltaChunkAbort h lfn t foldSeq s
  | .deltaAckAdmitted h lfn foldSeq live => Sys2Proof.Machine.execDeltaAckAdmitted h lfn foldSeq live s
  | .deltaAckBusy h lfn foldSeq live => Sys2Proof.Machine.execDeltaAckBusy h lfn foldSeq live s
  | .deltaAckStaged h lfn foldSeq live => Sys2Proof.Machine.execDeltaAckStaged h lfn foldSeq live s
  | .deltaAckCommitted h lfn foldSeq live => Sys2Proof.Machine.execDeltaAckCommitted h lfn foldSeq live s
  | .deltaAckDone h lfn foldSeq live => Sys2Proof.Machine.execDeltaAckDone h lfn foldSeq live s
  | .deltaAckAborted h lfn foldSeq live => Sys2Proof.Machine.execDeltaAckAborted h lfn foldSeq live s
  | .deltaAckBatch h bseq live => Sys2Proof.Machine.execDeltaAckBatch h bseq live s
  | .deltaAckResend h bseq live => Sys2Proof.Machine.execDeltaAckResend h bseq live s
  | .reconReadBase h tag lfn line count => Sys2Proof.Machine.execReconReadBase h tag lfn line count s
  | .reconReadRecord h tag lln ward => Sys2Proof.Machine.execReconReadRecord h tag lln ward s
  | .reconReadMap h tag ward ldIndex certOk => Sys2Proof.Machine.execReconReadMap h tag ward ldIndex certOk s
  | .reconReadBulk h tag lfn line count => Sys2Proof.Machine.execReconReadBulk h tag lfn line count s
  | .reconData h tag part parts status body => Sys2Proof.Machine.execReconData h tag part parts status body s
  | .timetable h cycle sgen entries crc => Sys2Proof.Machine.execTimetable h cycle sgen entries crc s
  | .unhitchMessage h cause rnums => Sys2Proof.Machine.execUnhitchMessage h cause rnums s
  | .peerCommandTimeout job peer => Sys2Proof.Machine.execPeerCommandTimeout job peer s
  | .ptmDialogTimer => Sys2Proof.Machine.execPtmDialogTimer s
  | .ptmResponse master delayNs => Sys2Proof.Machine.execPtmResponse master delayNs s
  | .timemarkEdge => Sys2Proof.Machine.execTimemarkEdge s
  | .ptmSampleLoss => Sys2Proof.Machine.execPtmSampleLoss s
  | .timemarkLoss => Sys2Proof.Machine.execTimemarkLoss s
  | .holdoverLimit => Sys2Proof.Machine.execHoldoverLimit s
  | .lifeHourly => Sys2Proof.Machine.execLifeHourly s
  | .atiHourPoint => Sys2Proof.Machine.execAtiHourPoint s
  | .waybillFlushTimer => Sys2Proof.Machine.execWaybillFlushTimer s
  | .ceLeakStep => Sys2Proof.Machine.execCeLeakStep s
  | .strongboxWriteDone => Sys2Proof.Machine.execStrongboxWriteDone s
  | .strongboxMarginRefresh slot weak => Sys2Proof.Machine.execStrongboxMarginRefresh slot weak s
  | .vauxRise mv => Sys2Proof.Machine.execVauxRise mv s
  | .vauxLow mv => Sys2Proof.Machine.execVauxLow mv s
  | .vauxLoss => Sys2Proof.Machine.execVauxLoss s
  | .vauxBandChange mv => Sys2Proof.Machine.execVauxBandChange mv s
  | .sillReset => Sys2Proof.Machine.execSillReset s
  | .mgmtWatchdog => Sys2Proof.Machine.execMgmtWatchdog s
  | .pfNAssert => Sys2Proof.Machine.execPfNAssert s
  | .pfNRelease => Sys2Proof.Machine.execPfNRelease s
  | .seqInHigh => Sys2Proof.Machine.execSeqInHigh s
  | .seqInLow => Sys2Proof.Machine.execSeqInLow s
  | .cascadeStep => Sys2Proof.Machine.execCascadeStep s
  | .railEnable r => Sys2Proof.Machine.execRailEnable r s
  | .railDisable r => Sys2Proof.Machine.execRailDisable r s
  | .pgGood r => Sys2Proof.Machine.execPgGood r s
  | .pgLost r => Sys2Proof.Machine.execPgLost r s
  | .pgGlitch r => Sys2Proof.Machine.execPgGlitch r s
  | .railPgTimeout r => Sys2Proof.Machine.execRailPgTimeout r s
  | .railOffTimeout r => Sys2Proof.Machine.execRailOffTimeout r s
  | .minoffEnd => Sys2Proof.Machine.execMinoffEnd s
  | .vcoreTrimStep answered => Sys2Proof.Machine.execVcoreTrimStep answered s
  | .holdupStepDone vbank dq fault => Sys2Proof.Machine.execHoldupStepDone vbank dq fault s
  | .holdupMeasureTimeout => Sys2Proof.Machine.execHoldupMeasureTimeout s
  | .holdupMonitor answer => Sys2Proof.Machine.execHoldupMonitor answer s
  | .flushStepEnd us => Sys2Proof.Machine.execFlushStepEnd us s
  | .thermalSample readings => Sys2Proof.Machine.execThermalSample readings s
  | .thermalHalfGrace => Sys2Proof.Machine.execThermalHalfGrace s
  | .thermalGraceExpiry => Sys2Proof.Machine.execThermalGraceExpiry s
  | .brakeFractionStep => Sys2Proof.Machine.execBrakeFractionStep s
  | .sensorReadingTimeout n => Sys2Proof.Machine.execSensorReadingTimeout n s
  | .startPhaseEnd hbmTrained => Sys2Proof.Machine.execStartPhaseEnd hbmTrained s
  | .getVersion port => Sys2Proof.Machine.execGetVersion port s
  | .getCapabilities port flags => Sys2Proof.Machine.execGetCapabilities port flags s
  | .negotiateAlgorithms port supported => Sys2Proof.Machine.execNegotiateAlgorithms port supported s
  | .getDigests port => Sys2Proof.Machine.execGetDigests port s
  | .getCertificate port slot offset length => Sys2Proof.Machine.execGetCertificate port slot offset length s
  | .challenge port slot nonce => Sys2Proof.Machine.execChallenge port slot nonce s
  | .getMeasurements port index nonce => Sys2Proof.Machine.execGetMeasurements port index nonce s
  | .keyExchange port reqSession exchange => Sys2Proof.Machine.execKeyExchange port reqSession exchange s
  | .finish port session verifyOk => Sys2Proof.Machine.execFinish port session verifyOk s
  | .keyUpdate port session op => Sys2Proof.Machine.execKeyUpdate port session op s
  | .spdmHeartbeat port session => Sys2Proof.Machine.execSpdmHeartbeat port session s
  | .endSession port session => Sys2Proof.Machine.execEndSession port session s
  | .ideKm port session op sub key => Sys2Proof.Machine.execIdeKm port session op sub key s
  | .patternFrame ch h pattern center0 center1 margin => Sys2Proof.Machine.execPatternFrame ch h pattern center0 center1 margin s
  | .hdmDecoderCommit port ld dec base size ways gran pos dpaSkip => Sys2Proof.Machine.execHdmDecoderCommit port ld dec base size ways gran pos dpaSkip s
  | .bankCharged vbank vmin eff => Sys2Proof.Machine.execBankCharged vbank vmin eff s
  | .reserveCharged => Sys2Proof.Machine.execReserveCharged s
  | .refclkReturn grp => Sys2Proof.Machine.execRefclkReturn grp s
  | .warmResetEnd => Sys2Proof.Machine.execWarmResetEnd s
  | .tzqEnd ch => Sys2Proof.Machine.execTzqEnd ch s
  | .mediaPllLock ch => Sys2Proof.Machine.execMediaPllLock ch s
  | .unknownMsg slot target msg tag => Sys2Proof.Machine.execUnknownMsg slot target msg tag s

end Sys2Proof.Machine
end

