-- ==== Sys2Proof/Safety.lean ====
section
/-! DEFINITION. The terms claims are stated in: what a command answers, what every command ends with, and what a group of commands
leaves alone. -/

namespace Sys2Proof.Machine

/-- What every command ends with: the GPF acknowledgements that have come due (R56), a link injection that the answers trip (R517),
and the records of the injection points that fired (R515). It changes nothing but what `keepE` leaves out. -/
def closed (u : State) : State := settle (linkInject (gpfSettle u))

/-- A command answers a next state of which `P` holds. -/
def Answers (r : Res) (P : State → Prop) : Prop := ∃ t, r = .next t ∧ P t

/-- A command completes with its own effect `u`, which is all it does but for what every command ends with. -/
def Ends (i : Instr) (s : State) (P : State → Prop) : Prop := ∃ u, exec i s = .next (closed u) ∧ P u

/-- A command completes with its own effect `u`; then the media engine takes up what the effect made possible (`mediaNext`). -/
def Works (i : Instr) (s : State) (P : State → Prop) : Prop := ∃ u, exec i s = .next (closed (mediaNext u)) ∧ P u

/-- The sections outside what raising an event and ending a command may touch: all but the answers, the host ports, the queues, the
Waybill, the events with their injection points, and the Strongbox. -/
def keepE (s : State) := (s.pending, s.free, s.variant, s.id, s.time, s.tt, s.unit, s.cache, s.rstat, s.write, s.xlat, s.mm, s.lp, s.media, s.span, s.power, s.therm, s.start, s.fw, s.sec)

/-- The sections that media work never touches: the queue of commands, the variant, the identity, time, power, the thermal
loop, the start-up, the firmware and the security state. -/
def keepM (s : State) := (s.pending, s.variant, s.id, s.time, s.power, s.therm, s.start, s.fw, s.sec)

/-- The sections that only the commands of security and start-up touch: the security state, with the queue of commands and the
variant. -/
def keepS (s : State) := (s.pending, s.variant, s.sec)

/-- The sections that no command touches: the queue of commands and the variant. -/
def keepA (s : State) := (s.pending, s.variant)

/-- A vendor command is heard (R432 to R443): its path reaches the block and does not turn it away, its input holds at least
`need` bytes and fits the path; its opcode exists here, its sender may send it at this protection level, and the main domains are up
where it needs them. `host`: a host LD may send it; `star`: it runs while the main domains are off; `lock`: PL0 only; `span`: not
on the L1. -/
def Heard (c : Caller) (inp : List Byte) (s : State) (host star lock span : Bool) (need : Nat) : Prop :=
  reach s c = true ∧ turnsAway s c = false ∧ need ≤ inp.length ∧ inp.length ≤ payloadMax c ∧
  (host = true ∨ isHostLd s c = false) ∧ (star = true ∨ cmdUp s = true) ∧ (lock = true → s.sec.pl = 0) ∧
  (span = true → hasSpan s = true)

/-- A CXL or FM API command is taken (R432, R436): its path reaches the block, the main domains are up, the path does not turn it away.
`fm`: it is an FM API command; `memory`: it needs the memory active. -/
def Taken (c : Caller) (s : State) (fm memory : Bool) : Prop :=
  reach s c = true ∧ cmdUp s = true ∧ turnsAway s c = false ∧ (fm = true → isHostLd s c = false) ∧
  (memory = true → s.host.memoryActive = true)

/-- The command's own effect is its CXL answer alone. -/
def Tells (c : Caller) (s : State) (rc : Rc) (o : CxlOut) (u : State) : Prop := u = { begin s with out := [.cxl c rc o] }

/-- The command's own effect is `v` and Success. -/
def Does (c : Caller) (v u : State) : Prop := u = send v (.cxl c .success .none)

/-- The command's own effect is its answer alone. -/
def Replies (c : Caller) (s : State) (p : List Byte) (u : State) : Prop := u = { begin s with out := [.vendor c .success p] }

/-- The answer DONE, STARTED or a refusal: MSTAT, JOB, then the output. -/
def reply (mstat job : Nat) (out : List Byte) : List Byte := bytesOf 2 mstat ++ bytesOf 2 job ++ out

/-- The command's own effect is `v` and an answer with no output. -/
def Told (c : Caller) (mstat job : Nat) (v u : State) : Prop := u = send v (.vendor c .success (reply mstat job []))

/-- A command with a group of Strongbox writes (R532): DONE with its effect once the group has run; ABANDONED, with none, where no write
can start. -/
def RunsGroup (i : Instr) (c : Caller) (s : State) (rs : List SbReq) (eff : State → State) : Prop :=
  (sbCanStart s = true → Ends i s (Told c 0 0 (eff (sbCommand (begin s) rs).2))) ∧
  (sbCanStart s = false → Ends i s (Told c 0x0302 0 (sbCommand (begin s) rs).2))

/-- The command's own effect is `v` and the record of an event. -/
def Recorded (e : Ev) (u : State) (P : State → Prop) : Prop := ∃ v, u = event e v ∧ P v

/-- A packet is accepted (R225 to R228, R249): its stack takes packets and is not echoing, group select and CHK hold, no point inverts
CHK, and the die is not in Fault for it. -/
def Accepted (s : State) (ch op : Nat) (p : Pkt) : Prop :=
  takesPackets s ch = true ∧ p.cs ≠ 3 ∧ isArmed s 0x0008 (0x200000 + ch) = false ∧ ((stackOf s ch).catrain = false ∨ op = 0x41) ∧
  pktXor op p = p.chk.toNat ∧ selectBad op p = false ∧
  (stackWide op p = true ∨ p.die.toNat ∉ (stackOf s ch).faults ∨ op ∈ [0x31, 0x32, 0x33, 0x7F])

/-- An event frame (R232, R254) of a bank that is in state `st`. -/
def eventFrame (tag : BitVec 7) (die : BitVec 4) (bank : BitVec 3) (code op : Nat) (st : BState) (param : Nat) : RetFrame :=
  mkFrame 2 tag die bank (BitVec.ofNat 4 (bsCode st))
    (infoPayload ([BitVec.ofNat 8 code, BitVec.ofNat 8 (bsCode st), BitVec.ofNat 8 op, 0] ++ bytesOf 4 param))

/-- One more frame is ready in the stack. -/
def Queued (s u : State) (ch : Nat) (f : RetFrame) : Prop := (stackOf u ch).ready = (stackOf s ch).ready ++ [f]

/-- Bank `k` is `b`; every other bank is as before. -/
def OnlyBank (s u : State) (k : Nat) (b : BankSt) : Prop := bankOf u k = b ∧ ∀ j, j ≠ k → bankOf u j = bankOf s j

/-- A frame of KIND `kind` passes its checks (R232): its header CRC holds, its payload CRC holds where it has one, and injection
point 0x0009 spoils neither. -/
def GoodFrame (s : State) (ch kind : Nat) (h : FrameHdr) (crcGood : Bool) : Prop :=
  crc8 (hdrNums kind h) = h.hcrc.toNat ∧ crcGood = true ∧ isArmed s 0x0009 (uChannel ch) = false

/-- A good frame taken: the run of empty frames is over, and no repeat is due. -/
def framed (ch : Nat) (s : State) : State :=
  setCart ch (fun c => { c with repeatDue := false }) (setCart ch (fun c => { c with emptyRun := 0 }) (begin s))

/-- A message's header with the CRC-32C that ends it (R397): a message is received only with this one. -/
def sealed (h : MsgHdr) (m : PeerMsg) : MsgHdr := { h with crc := msgCrc h m }

/-- The CRC covers nothing of the CRC's own field, so a sealed message passes its check. -/
theorem sealed_crc (h : MsgHdr) (m : PeerMsg) : (sealed h m).crc = msgCrc (sealed h m) m := rfl

/-- A peer message that passes its CRC is received (R395, R398): the device has a peer window, the sender is another member, and its MSEQ
was not consumed before. -/
def Received (s : State) (h : MsgHdr) (r : Nat) : Prop :=
  hasSpan s = true ∧ senderOf s h.pbr = some r ∧ r ≠ ownIndex s ∧
  (if h.ring then (peerOf s r).gotData else (peerOf s r).gotCtl).toNat < h.mseq.toNat

/-- A received message consumed: its MSEQ is the last of its ring, its ACKTO frees ring entries, and held messages that now have room
are sent. -/
def consumed (r : Nat) (h : MsgHdr) (s : State) : State :=
  peerFlush r (setPeer r (fun p => if h.ring then { p with gotData := h.mseq, ackData := later p.ackData h.ackto }
    else { p with gotCtl := h.mseq, ackCtl := later p.ackCtl h.ackto }) (begin s))

/-- The Strongbox holds its bytes in canonical form: addresses strictly rising, no entry equal to the 0 an unlisted byte reads as. -/
def memoryOk (s : State) : Prop := Memory.wf s.sb.cells = true

/-- The tables of fixed size have their sizes, and every host request's number was given out before. -/
def Sized (s : State) : Prop :=
  s.queue.queues.length = 64 ∧ s.therm.sensors.length = 64 ∧ s.host.lds.length = 64 ∧ s.host.ports.length = 4 ∧ s.power.rails.length = 32 ∧
  ∀ r ∈ s.host.reqs, r.id < s.host.nextReq

/-- Rows whose own effect stays within the answers, the host ports, the queues, the Waybill, the events and the Strongbox (`keepE`). -/
def AnswersOnly (i : Instr) : Prop :=
  match i with
  | .perstDeassert _ | .powerStateChange _ _ _ | .gpfPhase1 _ | .gpfPhase2 _ | .identifyMemoryDevice _ _ | .getHealthInfo _ _ |
    .getEventRecords _ _ _ | .clearEventRecords _ _ _ _ _ | .getEventInterruptPolicy _ _ | .setEventInterruptPolicy _ _ _ |
    .getSupportedLogs _ _ | .getLog _ _ _ _ | .getTimestamp _ _ | .setTimestamp _ _ _ | .getFwInfo _ _ | .getPoisonList _ _ _ _ |
    .getDynamicCapacityConfiguration _ _ | .getDynamicCapacityExtentList _ _ | .unsupportedOpcode _ _ | .fmIdentify _ | .getLdInfo _ |
    .getLdAllocations _ _ _ _ | .getQosControl _ _ | .setQosControl _ _ _ | .getQosAllocatedBw _ _ _ _ | .setQosAllocatedBw _ _ _ _ |
    .getQosBwLimit _ _ _ _ | .setQosBwLimit _ _ _ _ | .getDcRegionConfiguration _ _ | .initiateDynamicCapacityAdd _ _ _ _ |
    .initiateDynamicCapacityRelease _ _ _ | .getDcRegionExtentLists _ _ | .unknownVendorOpcode _ _ _ | .merlasIdentify _ _ |
    .capQuery _ _ | .unitQuery _ _ | .unitList _ _ | .foldStatus _ _ | .spanQuery _ _ | .poolGet _ _ | .timeQuery _ _ |
    .powerQuery _ _ | .powerTableSet _ _ | .thermalQuery _ _ | .sboxQuery _ _ | .sboxRead _ _ | .optionWrite _ _ | .calOverlayWrite _ _ |
    .calOverlayClear _ _ | .waybillRead _ _ | .waybillRate _ _ | .injectDisarm _ _ | .secQuery _ _ | .noticeFlagsRead |
    .noticeDatahiRead | .noticeCtrlMark | .noticeCtrlRewind | .noticeCtrlRelease _ | .strongboxCtrlClear _ | .wbCtrlFlush |
    .injCtrlDisarm | .injectDurationEnd _ _ | .queueWrite _ _ _ | .queueMark _ | .queueRewind _ | .queueRelease _ _ |
    .zqcalTimer _ | .waybillFlushTimer | .ceLeakStep | .strongboxMarginRefresh _ _ | .vauxLow _ | .vauxBandChange _ |
    .getVersion _ | .getCapabilities _ _ | .negotiateAlgorithms _ _ | .getDigests _ | .getCertificate _ _ _ _ | .challenge _ _ _ |
    .getMeasurements _ _ _ | .finish _ _ _ | .keyUpdate _ _ _ | .spdmHeartbeat _ _ | .endSession _ _ | .ideKm _ _ _ _ _ |
    .hdmDecoderCommit _ _ _ _ _ _ _ _ _ | .reserveCharged | .refclkReturn _ => True
  | _ => False

/-- Rows whose effect may reach the media engine and everything it drives, but not time, power, the thermal loop, the start-up, the firmware or the security state (`keepM`). -/
def WorksOnMedia (i : Instr) : Prop :=
  match i with
  | .memRead _ _ _ _ | .memWrite _ _ _ _ _ _ _ | .writeCreditGrant _ _ | .strictAckTimeout _ _ _ | .relaxedRecordStall _ _ |
    .relaxedRecordExposed _ _ | .dirtyAgeLimit _ | .linkUp _ _ _ _ _ | .surpriseLinkDown _ | .refclkLoss _ |
    .ideIntegrityFailure _ | .injectPoison _ _ _ | .clearPoison _ _ _ _ | .addDynamicCapacityResponse _ _ _ | .getQosStatus _ _ |
    .jobStatus _ _ | .framePin _ _ | .cacheFlush _ _ | .cacheInvalidate _ _ | .ldCommitSet _ _ | .poolSet _ _ | .spanJoin _ _ | .spanUpdate _ _ |
    .remountBind _ _ | .unhitchRequest _ _ | .ttConfig _ _ | .ldKeyTransfer _ _ | .plannedRemovalTimeout _ | .unitTestTimeout _ |
    .unitIdleEntry _ | .cmbEcho _ _ _ | .cmbBankState _ _ _ | .cmbInfo _ _ _ | .cmbRawRead _ _ _ _ | .qmbEcho _ _ _ |
    .qmbChannels _ _ _ | .qmbSuspCount _ _ _ | .qmbSkew _ _ _ | .qmbRsphiRead _ | .sidebandDwordRead _ | .sidebandDwordWrite _ _ |
    .readstatCtrlClear _ | .writestatCtrlClear _ | .cacheCtrlClear _ | .mchRetrainClear _ _ | .mmstatCtrlClear _ | .lpstatCtrlClear _ |
    .spanstatCtrlClear _ | .ttstatCtrlClear _ | .queueRead _ | .queueTailExpiry _ | .read _ _ | .refset _ _ | .refload _ _ _ |
    .prog _ _ | .wdata _ _ _ | .fprog _ _ _ | .pfin _ _ | .pabort _ _ | .clear _ _ _ | .susp _ _ | .resume _ _ | .srd _ _ | .status _ _ |
    .temp _ _ | .ident _ _ | .getf _ _ | .setf _ _ | .rdout _ _ | .zqcal _ _ | .catrain _ _ | .wrpat _ _ _ | .rdpat _ _ | .dreset _ _ |
    .mediaUnknownOpcode _ _ _ | .treadEnd _ _ _ | .tpbodyEnd _ _ _ | .tpfinEnd _ _ _ _ | .tclearEnd _ _ _ _ | .tsuspEnd _ _ _ |
    .tinfoEnd _ _ | .tdrstEnd _ _ _ | .tinitEnd _ | .infoFrame _ _ _ | .emptyFrame _ _ | .progHeld _ _ _ | .progDone _ _ _ |
    .progFail _ _ _ | .clearDone _ _ _ | .clearFail _ _ _ | .suspended _ _ _ | .suspNoop _ _ _ | .readDenied _ _ _ | .caCheck _ _ _ |
    .dieFault _ _ _ | .paborted _ _ _ | .heldReadReroute _ _ _ | .channelTrainTimeout _ | .spanReadTimeout _ | .foldBatchTimer |
    .foldAgeTrigger _ | .fastFrameIdleTimeout _ | .checkpointImageStart | .dirtyMapGeneration | .patchLogRescanEnd |
    .frameTableRestoreEnd _ | .hbmRemapCopyEnd _ | .heartbeat _ _ _ _ _ _ _ | .majorityLoss | .patchBatch _ _ | .patchRelease _ _ _ |
    .deltaChunkRequest _ _ _ _ | .deltaChunkData _ _ _ _ _ _ | .deltaChunkDone _ _ _ _ | .deltaChunkAbort _ _ _ _ |
    .deltaAckBusy _ _ _ _ | .deltaAckBatch _ _ _ | .deltaAckResend _ _ _ | .reconReadBase _ _ _ _ _ | .reconReadRecord _ _ _ _ |
    .reconReadMap _ _ _ _ _ | .reconReadBulk _ _ _ _ _ | .reconData _ _ _ _ _ _ | .timetable _ _ _ _ _ | .peerCommandTimeout _ _ |
    .atiHourPoint | .mgmtWatchdog | .thermalHalfGrace | .keyExchange _ _ _ | .patternFrame _ _ _ _ _ _ | .tzqEnd _ | .mediaPllLock _ |
    .unknownMsg _ _ _ _ | .malertN _ | .holdLimit _ _ _ => True
  | _ => False

end Sys2Proof.Machine
end

