-- ==== Sys2Proof/Certificates/Slice0/Obligations.lean ====
section
/-! DEFINITION. The statements for the provers, each made from numbered rules of the spec. -/

open Sys2Proof Sys2Proof.Machine

/-- The command at the front of the queue is the one that runs, on the state with the rest of the queue. -/
def Obligations.StepRunsFront : Prop :=
  ∀ (c : Instr) (rest : List Instr) (s : State), s.pending = c :: rest → step s = exec c { s with pending := rest }

/-- Every step answers a next state, whatever the state and the command: the command taken is gone from the queue, the variant is as it was.
With nothing pending one core tick passes and FTIME advances while the Sill runs (the model's choice, log entry 2). -/
def Obligations.EveryStepCompletes : Prop :=
  (∀ s : State, Answers (step s) (fun t => t.pending = s.pending.tail ∧ t.variant = s.variant)) ∧
  (∀ s : State, s.pending = [] → Answers (step s) (fun t => t.pending = [] ∧ t.variant = s.variant ∧ t.sec = s.sec ∧ t.media = s.media ∧
     t.xlat = s.xlat ∧ t.sb = s.sb ∧ t.power = s.power ∧ t.host = s.host ∧ t.wb = s.wb ∧
     t.time.ftime = if s.start.sillUp then s.time.ftime + 5 else s.time.ftime))

/-- A CTRL.CLEAR write sets its counters to 0, or to 1 where an increment falls in the same cycle. -/
def Obligations.ClearLeavesZeroOrOne : Prop :=
  ∀ (inc : Byte) (s : State),
    let n : Nat → Nat := fun i => if inc.getLsbD i then 1 else 0
    Ends (.readstatCtrlClear inc) s (fun u => u.rstat.retry.toNat = n 0 ∧ u.rstat.around.toNat = n 1 ∧ u.rstat.boundB.toNat = n 2 ∧
      u.rstat.boundC.toNat = n 3 ∧ u.rstat.suspend.toNat = n 4 ∧ { u with rstat := s.rstat } = begin s) ∧
    Ends (.writestatCtrlClear inc) s (fun u => u.write.paced.toNat = n 0 ∧ u.write.exposedCnt.toNat = n 1 ∧
      { u with write := { u.write with paced := s.write.paced, exposedCnt := s.write.exposedCnt } } = begin s) ∧
    Ends (.cacheCtrlClear inc) s (fun u => u.cache.ncHit.toNat = n 0 ∧ u.cache.bcHit.toNat = n 1 ∧ u.cache.miss.toNat = n 2 ∧
      u.cache.prefetchHit.toNat = n 3 ∧ { u with cache := { u.cache with ncHit := s.cache.ncHit, bcHit := s.cache.bcHit, miss := s.cache.miss, prefetchHit := s.cache.prefetchHit } } = begin s) ∧
    Ends (.mmstatCtrlClear inc) s (fun u => u.mm.folds.toNat = n 0 ∧ u.mm.abandon.toNat = n 1 ∧ u.mm.refresh.toNat = n 2 ∧
      { u with mm := { u.mm with folds := s.mm.folds, abandon := s.mm.abandon, refresh := s.mm.refresh } } = begin s) ∧
    (hasSpan s = true → Ends (.spanstatCtrlClear inc) s (fun u => u.span.cRecords.toNat = n 0 ∧ u.span.cResend.toNat = n 1 ∧
      u.span.cDeltas.toNat = n 2 ∧ u.span.cReconOut.toNat = n 3 ∧ u.span.cReconIn.toNat = n 4)) ∧
    (hasSpan s = false → Ends (.spanstatCtrlClear inc) s (fun u => u = begin s)) ∧
    Ends (.ttstatCtrlClear inc) s (fun u => u.tt.windows.toNat = n 0 ∧ u.tt.rerouted.toNat = n 1 ∧ u.tt.waited.toNat = n 2 ∧
      { u with tt := { u.tt with windows := s.tt.windows, rerouted := s.tt.rerouted, waited := s.tt.waited } } = begin s) ∧
    Ends (.strongboxCtrlClear inc) s (fun u => u.sb.abandon.toNat = n 0 ∧ u.sb.weak.toNat = n 1 ∧ u.sb.tie.toNat = n 2 ∧
      { u with sb := { u.sb with abandon := s.sb.abandon, weak := s.sb.weak, tie := s.sb.tie } } = begin s) ∧
    Ends (.pwrCtrlClear inc) s (fun u => u.power.glitches.toNat = n 0 ∧ { u with power := { u.power with glitches := s.power.glitches } } = begin s) ∧
    Ends (.thrmstatCtrlClear inc) s (fun u => u.therm.brakeMs.toNat = n 0 ∧ { u with therm := { u.therm with brakeMs := s.therm.brakeMs } } = begin s) ∧
    Ends (.lpstatCtrlClear inc) s (fun u => u.lp.rebuild.toNat = n 0 ∧ u.lp.located.toNat = n 1 ∧ u.lp.tie.toNat = n 2 ∧ u.lp.poison.toNat = n 3 ∧
      (∀ d, (sget 0 u.lp.dieWeak d).toNat = (if d = s.lp.dieSel.toNat then n 4 else 0) ∧
        (sget 0 u.lp.dieFail d).toNat = if d = s.lp.dieSel.toNat then n 5 else 0) ∧ u.lp.dieFailAt = s.lp.dieFailAt) ∧
    (∀ ch : Fin 32, ch.val < nChannels s → Ends (.mchRetrainClear ch inc) s (fun u => (cartOf u ch).caCheck.toNat = n 0 ∧
      (cartOf u ch).frameErr.toNat = n 1 ∧ (cartOf u ch).pfail.toNat = n 2 ∧ (cartOf u ch).cfail.toNat = n 3 ∧ (cartOf u ch).retrains.toNat = n 4 ∧
      ∀ c, c ≠ ch.val → cartOf u c = cartOf s c)) ∧
    (∀ ch : Fin 32, nChannels s ≤ ch.val → Ends (.mchRetrainClear ch inc) s (fun u => u = begin s))

/-- Writes: below CREDIT a word is stored at WR with its parity (inverted where point 0x000B is armed); else it is discarded, flagged,
recorded. Rests in part on the model's choices of log entry 5. -/
def Obligations.QueueWriteStoresOrFlags : Prop :=
  ∀ (s : State) (q : Fin 64) (x : Queue) (w : BitVec 64) (p : Bool), s.queue.queues[q.val]? = some x →
    ((x.wr - x.rel).toNat < qDepth s q → Ends (.queueWrite q w p) s (fun u =>
      (∃ y, u.queue.queues[q.val]? = some y ∧ y.wr = x.wr + 1 ∧ y.rd = x.rd ∧ y.mark = x.mark ∧ y.rel = x.rel ∧
        y.credit = x.rel + BitVec.ofNat 32 (qDepth s q) ∧ y.overrun = x.overrun ∧
        sget ⟨0, false, false⟩ y.words (x.wr.toNat % qDepth s q) = ⟨w, wordParity w != isArmed s 0x000B (0x900000 + q), p⟩ ∧
        ∀ k, k ≠ x.wr.toNat % qDepth s q → sget ⟨0, false, false⟩ y.words k = sget ⟨0, false, false⟩ x.words k) ∧
      (∀ k, k ≠ q.val → u.queue.queues[k]? = s.queue.queues[k]?) ∧ { u with queue := s.queue, evt := s.evt } = { s with out := [] })) ∧
    (qDepth s q ≤ (x.wr - x.rel).toNat → Ends (.queueWrite q w p) s (fun u => ∃ v,
      u = event { code := 0x0904, unit := uQueue q, p0 := 0 } v ∧
      (∃ y, v.queue.queues[q.val]? = some y ∧ y.overrun = true ∧ y.wr = x.wr ∧ y.rd = x.rd ∧ y.mark = x.mark ∧ y.rel = x.rel ∧
        y.words = x.words) ∧
      (∀ k, k ≠ q.val → v.queue.queues[k]? = s.queue.queues[k]?) ∧ { v with queue := s.queue } = begin s))

/-- Reading, marking, rewinding, releasing. -/
def Obligations.QueueConsumerOperations : Prop :=
  ∀ (s : State) (q : Fin 64) (x : Queue), s.queue.queues[q.val]? = some x →
    let others : State → Prop := fun u => ∀ k, k ≠ q.val → u.queue.queues[k]? = s.queue.queues[k]?
    (x.rd = x.wr → Ends (.queueRead q) s (fun u => u = { begin s with out := [.queueWord q none] })) ∧
    (x.rd ≠ x.wr → Ends (.queueRead q) s (fun u =>
      let w := sget ⟨0, false, false⟩ x.words (x.rd.toNat % qDepth s q)
      let bad := w.parity != wordParity w.word
      u.out = [.queueWord q (some (w.word, w.poison || bad))] ∧
      (∃ y, u.queue.queues[q.val]? = some y ∧ y.rd = x.rd + 1 ∧ y.wr = x.wr ∧ y.mark = x.mark ∧ y.rel = x.rel ∧ y.words = x.words ∧
        y.parity = (x.parity || bad)) ∧ others u ∧
      (w.poison = false → bad = false → { u with queue := s.queue, out := [] } = begin s))) ∧
    Ends (.queueMark q) s (fun u => u.queue.queues[q.val]? = some { x with mark := x.rd } ∧ others u ∧ { u with queue := s.queue } = begin s) ∧
    Ends (.queueRewind q) s (fun u => u.queue.queues[q.val]? = some { x with rd := x.mark } ∧ others u ∧ { u with queue := s.queue } = begin s) ∧
    (∀ n : Word, n.toNat ≤ (x.rd - x.rel).toNat → Ends (.queueRelease q n) s (fun u => 
      (∃ y, u.queue.queues[q.val]? = some y ∧ y.rel = x.rel + n ∧ y.rd = x.rd ∧ y.wr = x.wr ∧ y.words = x.words ∧ y.releaseErr = x.releaseErr ∧
        y.mark = if (x.mark - x.rel).toNat < n.toNat then x.rel + n else x.mark) ∧ others u ∧ { u with queue := s.queue } = begin s)) ∧
    (∀ n : Word, (x.rd - x.rel).toNat < n.toNat → Ends (.queueRelease q n) s (fun u => ∃ v,
      u = event { code := 0x0904, unit := uQueue q, p0 := 3 } v ∧
      v.queue.queues[q.val]? = some { x with releaseErr := true } ∧ others v ∧ { v with queue := s.queue } = begin s))

/-- The tail timer of a queue that holds words, and of one that holds none. Rests in part on the model's choices of log entries 36 and 41.
-/
def Obligations.QueueTailExpiryActsByUse : Prop :=
  ∀ (s : State) (q : Fin 64) (x : Queue), s.queue.queues[q.val]? = some x →
    (x.wr = x.rd → qUse s q ≠ 1 → Ends (.queueTailExpiry q) s (fun u => u = begin s)) ∧
    (qUse s q = 1 → ∀ st, s.span.streams[q.val]? = some st → st.opened ≠ [] →
      Ends (.queueTailExpiry q) s (fun u => u = closeBatch q false true (begin s))) ∧
    (qUse s q = 2 → x.wr ≠ x.rd → Ends (.queueTailExpiry q) s (fun u => u = { begin s with out := [.forceSend q] })) ∧
    (qUse s q = 4 → x.wr ≠ x.rd → anyLink s s.evt.noticeVec = true → Ends (.queueTailExpiry q) s (fun u =>
      u.queue.queues[q.val]? = some { x with tailFlag := true } ∧ .msix s.evt.noticeVec ∈ u.out)) ∧
    (3 ≤ qUse s q → qUse s q ≠ 4 → x.wr ≠ x.rd → Ends (.queueTailExpiry q) s (fun u => ∃ v,
      u = event { code := 0x0904, unit := uQueue q, p0 := 2 } v ∧ v.out = [.coreNotice q] ∧
      v.queue.queues[q.val]? = some { x with tailFlag := true } ∧ { v with queue := s.queue, out := [] } = begin s))

/-- The vendor queries answer DONE with the state they report, and change nothing (R440, R447 to R449, R461 to R463), but that a running job's
progress is drawn as a free value and kept. SBOX_READ returns the bytes of every partition but the key store, which is protected at every
level. Rests in part on the model's choices of log entries 16 and 105. -/
def Obligations.IdentityUnitAndStateQueriesAnswer : Prop :=
  (∀ (c : Caller) (inp : List Byte) (s : State),
     (Heard c inp s true true false false 0 → Ends (.merlasIdentify c inp) s (fun u => ∃ p, Replies c s p u ∧
       field p 0 4 = 0 ∧ field p 4 1 = variantCode s ∧ field p 10 1 = s.sec.pl.toNat ∧ field p 12 8 = s.id.serial.toNat)) ∧
     (Heard c inp s true true false false 4 → ∀ e, (capEntries 0 (capFields s)).find? (fun e => e.1 == field inp 0 4) = some e →
       Ends (.capQuery c inp) s (fun u => ∃ p, Replies c s p u ∧ field p 0 4 = 0 ∧ e.2 <+: p.drop 4)) ∧
     (Heard c inp s true true false false 2 → ∀ j, jobKept s c (field inp 0 2) = some j →
       (j.done = true → Ends (.jobStatus c inp) s (fun u => ∃ p, Replies c s p u ∧ field p 0 4 = 0 ∧ field p 4 2 = j.opcode.toNat ∧
         field p 6 2 = 1)) ∧
       (j.done = false → Ends (.jobStatus c inp) s (fun u => ∃ (p : List Byte) (pr : Nat), u.out = [.vendor c .success p] ∧ field p 0 4 = 0 ∧
         field p 4 2 = j.opcode.toNat ∧ field p 6 2 = 0 ∧ j.progress ≤ pr ∧ pr ≤ max j.progress 999 ∧
         u.unit.running = s.unit.running.map (fun x => if x.id = j.id then { j with progress := pr } else x) ∧
         { u with unit := { u.unit with running := s.unit.running }, free := s.free, out := [] } = begin s))) ∧
     (Heard c inp s true true false false 4 → unitKnown (field inp 0 3) = true →
       Ends (.unitQuery c inp) s (fun u => ∃ p, Replies c s p u ∧ field p 0 4 = 0 ∧ field p 4 1 = ustCode (ownState s (field inp 0 3)) ∧
         field p 5 1 = ustCode (reportedState s (field inp 0 3)) ∧ field p 6 1 = (unitRec s (field inp 0 3)).reason.toNat)) ∧
     (Heard c inp s true true false false 4 → unitKnown (field inp 0 3) = false →
       Ends (.unitQuery c inp) s (Replies c s (reply 0x0202 0 (bytesOf 4 (field inp 0 3))))) ∧
     (Heard c inp s false true false false 8 → unitKnown (field inp 0 3) = true →
       Ends (.unitList c inp) s (fun u => ∃ p, Replies c s p u ∧ field p 0 4 = 0 ∧
         field p 4 4 = (children s (field inp 0 3)).length % 2 ^ 32))) ∧
  (∀ (c : Caller) (inp : List Byte) (s : State),
     (Heard c inp s true true false false 0 → Ends (.timeQuery c inp) s (fun u => ∃ p, Replies c s p u ∧ field p 0 4 = 0 ∧
       field p 4 8 = s.time.ftime.toNat ∧ field p 12 1 = timeCode s.time.mode ∧ field p 13 1 = srcCode s.time.source)) ∧
     (Heard c inp s false true false false 0 → Ends (.powerQuery c inp) s (fun u => ∃ p, Replies c s p u ∧ field p 0 4 = 0 ∧
       field p 4 1 = seqCode s.power.seq ∧ field p 6 2 = s.power.cause.toNat ∧ field p 8 4 = s.power.good.toNat ∧
       field p 12 4 = s.power.flagged.toNat ∧ field p 16 4 = s.power.e.toNat)) ∧
     (Heard c inp s true true false false 0 → Ends (.thermalQuery c inp) s (fun u => ∃ p, Replies c s p u ∧ field p 0 4 = 0 ∧
       field p 4 2 = s.therm.tg.toNat ∧ field p 6 2 = s.therm.notice.toNat ∧ field p 8 2 = s.therm.grace.toNat ∧
       field p 10 2 = throttleCode s.therm.throttle)) ∧
     (Heard c inp s true true false false 0 → Ends (.secQuery c inp) s (fun u => ∃ p, Replies c s p u ∧ field p 0 4 = 0 ∧
       field p 4 1 = s.sec.pl.toNat ∧ field p 8 4 = s.fw.runSvn.toNat)) ∧
     (Heard c inp s false true false false 0 → Ends (.sboxQuery c inp) s (fun u => ∃ p, Replies c s p u ∧ field p 0 4 = 0 ∧ field p 4 4 = 8)) ∧
     (Heard c inp s false true false false 5 → 1 ≤ field inp 4 1 → field inp 4 1 ≤ 63 →
       Ends (.waybillRead c inp) s (fun u => ∃ p, Replies c s p u ∧ field p 0 4 = 0 ∧ field p 4 4 = s.wb.next.toNat ∧
         field p 8 4 = s.wb.lost.toNat ∧ field p 12 4 = (wbFrom s (BitVec.ofNat 32 (field inp 0 4)) (field inp 4 1)).length)) ∧
     (Heard c inp s true false false false 12 → ∀ l, inputLfn s c inp = some l → l < 2 ^ 24 → framesReady s = true →
       Ends (.foldStatus c inp) s (fun u => ∃ p, Replies c s p u ∧ field p 0 4 = 0 ∧ field p 4 1 = ftMode (ftEntry s l) ∧ field p 16 4 = l)) ∧
     (Heard c inp s false true false true 0 → Ends (.spanQuery c inp) s (fun u => ∃ p, Replies c s p u ∧ field p 0 4 = 0 ∧
       field p 68 1 = s.span.spanState.toNat ∧ field p 69 1 = ownRole s)) ∧
     (Heard c inp s false true false true 2 → field inp 0 2 ≤ 511 → ∀ e, sfind s.span.pool (field inp 0 2) = some e →
       Ends (.poolGet c inp) s (fun u => ∃ p, Replies c s p u ∧ field p 0 4 = 0 ∧ poolBytes e <+: p.drop 4))) ∧
  (∀ (c : Caller) (inp : List Byte) (s : State),
     (Heard c inp s false true false false 10 → ∀ base size, sfind partitions (field inp 0 1) = some (base, size) → field inp 0 1 ≠ 5 →
       field inp 4 4 < size → 1 ≤ field inp 8 2 → field inp 8 2 ≤ 4088 → field inp 4 4 + field inp 8 2 ≤ size →
       Ends (.sboxRead c inp) s (fun u => ∃ p, Replies c s p u ∧ field p 0 4 = 0 ∧
         sbBytes s (base + field inp 4 4) (field inp 8 2) <+: p.drop 4)) ∧
     (Heard c inp s false true false false 1 → field inp 0 1 = 5 →
       Ends (.sboxRead c inp) s (Replies c s (reply 0x0103 0 []))))

/-- The commands that set a register: the value taken, an invalid field answered RANGE with its offset, in the order of the fields. -/
def Obligations.RegisterCommandsSetTheirRegisters : Prop :=
  ∀ (c : Caller) (inp : List Byte) (s : State),
    let b := begin s
    (Heard c inp s false true false false 8 → Ends (.timeMarkSet c inp) s
      (Told c 0 0 { b with time := { s.time with markVal := BitVec.ofNat 64 (field inp 0 8), markValid := true } })) ∧
    (Heard c inp s false true false false 4 → field inp 0 1 ≤ 3 → field inp 1 1 ≤ 3 → 50 ≤ field inp 2 2 → field inp 2 2 ≤ 4000 →
      Ends (.timeConfig c inp) s (Told c 0 0 { b with time := { s.time with cfgSrc := BitVec.ofNat 2 (field inp 0 1), cfgPtmPort := BitVec.ofNat 2 (field inp 1 1), holdLim := BitVec.ofNat 13 (field inp 2 2) } })) ∧
    (Heard c inp s false true false false 4 → field inp 0 1 ≤ 3 → field inp 1 1 ≤ 3 → (field inp 2 2 < 50 ∨ 4000 < field inp 2 2) →
      Ends (.timeConfig c inp) s (Replies c s (reply 0x0201 0 (bytesOf 2 2)))) ∧
    (Heard c inp s false false false false 4 → 1 ≤ field inp 0 1 → field inp 0 1 ≤ 64 → 1 ≤ field inp 1 1 → field inp 1 1 ≤ 16 →
      field inp 1 1 ≤ field inp 0 1 → 1 ≤ field inp 2 1 → field inp 2 1 ≤ 4 → 10 ≤ field inp 3 1 → field inp 3 1 ≤ 240 →
      Ends (.ttConfig c inp) s (Told c 0 0 { b with tt := { s.tt with bgMax := BitVec.ofNat 7 (field inp 0 1), bgFloor := BitVec.ofNat 7 (field inp 1 1), clearPerDie := BitVec.ofNat 3 (field inp 2 1), inbound := BitVec.ofNat 8 (field inp 3 1) } })) ∧
    (Heard c inp s false true false false 4 → 85 ≤ field inp 0 2 → field inp 0 2 ≤ 110 → 1 ≤ field inp 2 2 → field inp 2 2 ≤ 1000 →
      Ends (.thermalConfig c inp) s (Told c 0 0 { b with therm := { s.therm with notice := BitVec.ofNat 8 (field inp 0 2), grace := BitVec.ofNat 10 (field inp 2 2) } })) ∧
    (Heard c inp s false true false false 4 → (field inp 0 2 < 85 ∨ 110 < field inp 0 2) →
      Ends (.thermalConfig c inp) s (Replies c s (reply 0x0201 0 (bytesOf 2 0)))) ∧
    (Heard c inp s false false false false 2 → ∀ i, ldNamed s c (field inp 0 1) = some i → field inp 1 1 ≤ 2 → (field inp 1 1 = 0 ↔ s.span.desc = none) →
      Ends (.ldCommitSet c inp) s (Told c 0 0 (setMode i (codeMode (field inp 1 1)) b))) ∧
    (Heard c inp s false false true false 8 → Ends (.injectDisarm c inp) s (Told c 0 0 { b with
      evt := { b.evt with
        armed := if field inp 0 2 = 0xFFFF then [] else s.evt.armed.filter (fun a => !(a.point.toNat == field inp 0 2 && a.unit.toNat == field inp 4 3)) } })) ∧
    (Heard c inp s false true false false 4 → (field inp 0 2 = 0xFFFF ∨ field inp 0 2 ∈ evCodes) → 1 ≤ field inp 2 1 → 1 ≤ field inp 3 1 →
      Ends (.waybillRate c inp) s (Told c 0 0 (setRate (if field inp 0 2 = 0xFFFF then evCodes else [field inp 0 2]) (field inp 2 1) (field inp 3 1) b)))

/-- The commands that write the Strongbox: DONE once their group of writes has started, ABANDONED and no other effect when it cannot. Rests
in part on the model's choices of log entry 12. -/
def Obligations.StrongboxCommandsRunWhole : Prop :=
  ∀ (c : Caller) (inp : List Byte) (s : State),
    let b := begin s
    (Heard c inp s false true true false 8 → field inp 0 1 ≤ 31 → field inp 6 2 ≠ 0 →
      RunsGroup (.powerTableSet c inp) c s (optionReqs (0x100 + 16 * field inp 0 1) ((inp.drop 2).take 6) b) id) ∧
    (Heard c inp s false true true false 4 → 1 ≤ field inp 2 2 → field inp 2 2 ≤ 256 → field inp 0 2 + field inp 2 2 ≤ 4096 →
      4 + field inp 2 2 ≤ inp.length →
      RunsGroup (.optionWrite c inp) c s (optionReqs (field inp 0 2) ((inp.drop 4).take (field inp 2 2)) b) id) ∧
    (Heard c inp s false false true false 32 → field inp 0 2 ≤ 511 →
      RunsGroup (.calOverlayWrite c inp) c s [overlayReq (field inp 0 2) ((inp.drop 4).take 28) b] id) ∧
    (Heard c inp s false false true false 2 → field inp 0 2 ≤ 511 →
      RunsGroup (.calOverlayClear c inp) c s [overlayReq (field inp 0 2) (List.replicate 28 0) b] id) ∧
    (Heard c inp s false false true false 2 → field inp 0 2 = 0xFFFF →
      RunsGroup (.calOverlayClear c inp) c s [.ring 0x30 0 (bytesOf 6 (clearGen s + 1))] id) ∧
    (Heard c inp s false true false false 0 → s.therm.throttle ≠ .shutdown → s.therm.record.isSome = true →
      RunsGroup (.shutdownRecordClear c inp) c s [.ring 0x66 0 (shutPayload none)] (setTherm (fun t => { t with record := none }))) ∧
    (Heard c inp s false true false true 18 → field inp 0 2 ≤ 511 → s.span.desc = none →
      RunsGroup (.poolSet c inp) c s [.ring 0x40 (field inp 0 2 / 15) (poolPayload (withPool (field inp 0 2) (poolIn inp) b) (field inp 0 2 / 15))]
        (withPool (field inp 0 2) (poolIn inp)))

/-- Injection points: armed by command or register, refused, disarmed, ended. Rests in part on the model's choices of log entry 55. -/
def Obligations.InjectionPointsArmAndDisarm : Prop :=
  ∀ (s : State),
    (∀ (c : Caller) (inp : List Byte), Heard c inp s false false true false 18 →
      armEarly (field inp 0 2) (field inp 4 3) s = none → armLate (field inp 0 2) (field inp 4 3) s = none →
      field inp 0 2 ≠ 0x0010 → field inp 0 2 ≠ 0x0018 →
      Ends (.injectArm c inp) s (fun u => ∃ a : Armed, a.point.toNat = field inp 0 2 ∧ a.unit.toNat = field inp 4 3 ∧
        a.mask.toNat = field inp 8 8 ∧ a.check.toNat = field inp 16 2 ∧ a.active = false ∧
        Told c 0 0 { begin s with evt := { (begin s).evt with armed := s.evt.armed ++ [a] } } u)) ∧
    (s.sec.pl = 0 → armEarly s.evt.injPoint.toNat s.evt.injUnit.toNat s = none → armLate s.evt.injPoint.toNat s.evt.injUnit.toNat s = none →
      s.evt.injPoint ≠ 0x0010 → s.evt.injPoint ≠ 0x0018 →
      Ends .injCtrlArm s (fun u => ∃ a : Armed, a.point = s.evt.injPoint ∧ a.unit = s.evt.injUnit ∧ a.mask = s.evt.injHi ++ s.evt.injLo ∧
        u = { begin s with evt := { (begin s).evt with armed := s.evt.armed ++ [a] } })) ∧
    (s.sec.pl = 0 → armEarly s.evt.injPoint.toNat s.evt.injUnit.toNat s ≠ none →
      Ends .injCtrlArm s (fun u => u = { begin s with evt := { (begin s).evt with refused := true } })) ∧
    (s.sec.pl ≠ 0 → Ends .injCtrlArm s (fun u => u = begin s) ∧ Ends .injCtrlDisarm s (fun u => u = begin s)) ∧
    (s.sec.pl = 0 → s.evt.injPoint ≠ 0xFFFF → Ends .injCtrlDisarm s (fun u => u = { begin s with evt := { (begin s).evt with
      armed := s.evt.armed.filter (fun a => !(a.point == s.evt.injPoint && a.unit == s.evt.injUnit)) } })) ∧
    (∀ (p : BitVec 16) (w : BitVec 24), p ≠ 0xFFFF → (∃ a ∈ s.evt.armed, a.point = p ∧ a.unit = w ∧ a.active = true) →
      Ends (.injectDurationEnd p w) s (fun u => (∀ a ∈ u.evt.armed, ¬ (a.point = p ∧ a.unit = w)) ∧
        { u with evt := { u.evt with armed := s.evt.armed } } = begin s))

/-- PL_SET raises the level; PL2 blows the fuse. The lowering starts as a job. Rests in part on the model's choices of log entry 12. -/
def Obligations.LevelChanges : Prop :=
  ∀ (c : Caller) (inp : List Byte) (s : State), Heard c inp s false false false false 1 →
    plPermitted s (field inp 0 1) = true → authorized s (field inp 0 1) (inp.drop 4) = true → inp.length ≤ 516 →
    (field inp 0 1 ≠ 0 → (field inp 0 1 = 2 → s.sec.lowering = 0) → sbCanStart s = true →
      Ends (.plSet c inp) s (fun u => u.sec.pl.toNat = field inp 0 1 ∧ u.sec.plseq = s.sec.plseq + 1 ∧
        u.sec.pl2Fuse = (s.sec.pl2Fuse || field inp 0 1 == 2) ∧
        (s.sec.pl = 0 → u.sec.owner = (inp.drop 8).take 97) ∧ .vendor c .success (reply 0 0 []) ∈ u.out)) ∧
    (field inp 0 1 ≠ 0 → (field inp 0 1 = 2 → s.sec.lowering = 0) → sbCanStart s = false →
      Ends (.plSet c inp) s (fun u => u.sec = s.sec ∧ .vendor c .success (reply 0x0302 0 []) ∈ u.out)) ∧
    (field inp 0 1 = 0 → s.span.desc = none → (∀ d ∈ s.host.lds, d.erase = none) → s.unit.running.length < 64 → s.sec.lowering = 0 →
      Ends (.plSet c inp) s (fun u => (∃ j ∈ u.unit.running, j.id = s.unit.nextJob ∧ j.kind = .lower) ∧ u.host.creditsHeld = true ∧
        u.sec.lowering ≠ 0 ∧ .vendor c .success (reply 1 s.unit.nextJob.toNat []) ∈ u.out))

/-- Readings of the time registers and the events of the sources (R402 to R407, R430). Rests in part on the model's choices of log entry 27.
-/
def Obligations.TimeCommandsAct : Prop :=
  ∀ s : State,
    let b := begin s
    Ends .timeNowloRead s (fun u => u = { b with
      time := { s.time with nowHi := s.time.ftime.extractLsb' 32 32 }, out := [.regRead (s.time.ftime.extractLsb' 0 32)] }) ∧
    (∀ v : Word, Ends (.timeMarkhiWrite v) s (fun u => u = { b with
      time := { s.time with markVal := v ++ s.time.markVal.extractLsb' 0 32, markValid := true } })) ∧
    (∀ p, ptmPort s = some p → srcEnabled s .ptm = true → Ends .ptmDialogTimer s (fun u => u = { b with
      time := { s.time with ptmPending := true }, out := [.ptmRequest p] })) ∧
    (∀ m d, s.time.ptmPending = true → d.toNat ≤ 10000 → srcInjected s .ptm = false →
      Ends (.ptmResponse m d) s (fun u => u = goodSample .ptm m.toNat { b with time := { s.time with ptmPending := false } })) ∧
    (s.time.markValid = true → srcInjected s .timemark = false → Ends .timemarkEdge s (fun u =>
      u = goodSample .timemark s.time.markVal.toNat { b with time := { s.time with markVal := s.time.markVal + 1000000 } })) ∧
    (s.time.markValid = false → Ends .timemarkEdge s (fun u => u = b)) ∧
    (s.time.mode = .holdover → Ends .holdoverLimit s (fun u => u.time = { s.time with mode := .freeRun })) ∧
    (s.time.source = .ptm → (srcEnabled s .timemark && s.time.markGood) = true →
      Ends .ptmSampleLoss s (fun u => u.time = { s.time with ptmGood := false, source := .timemark })) ∧
    (s.time.source = .ptm → (srcEnabled s .timemark && s.time.markGood) = false →
      Ends .ptmSampleLoss s (fun u => u.time.mode = .holdover ∧ u.time.source = .none ∧ u.time.ftime = s.time.ftime)) ∧
    (s.time.source = .timemark → (srcEnabled s .ptm && s.time.ptmGood) = true →
      Ends .timemarkLoss s (fun u => u.time = { s.time with markGood := false, markValid := false, source := .ptm })) ∧
    (s.time.source = .timemark → (srcEnabled s .ptm && s.time.ptmGood) = false →
      Ends .timemarkLoss s (fun u => u.time.mode = .holdover ∧ u.time.source = .none ∧ u.time.markValid = false ∧ u.time.ftime = s.time.ftime))

/-- The table of R407 for a used good sample of fabric time `v` under a bound `n`. Rests in part on the model's choices of log entry 27. -/
def Obligations.GoodSampleTrimsStepsOrCounts : Prop :=
  ∀ (src : TimeSrc) (v n : Nat) (s : State), srcUsed { s with time := { s.time with
      ptmGood := s.time.ptmGood || src == .ptm, markGood := s.time.markGood || src == .timemark } } src = true →
    boundNs s = some n →
    let d : Int := (v : Int) - (s.time.ftime.toNat : Int)
    let t := (goodSample src v s).time
    (d.natAbs ≤ n + 1000 → ¬ (s.time.mode = .locked ∧ 10000 < d.natAbs) →
      t.ftime = s.time.ftime ∧ t.slewNs = d ∧ t.bBaseNs = d.natAbs + 1000 ∧ t.source = src ∧
      t.goodRun = (if d.natAbs ≤ 1000 then s.time.goodRun + 1 else 0) ∧ t.steps = s.time.steps ∧
      t.mode = if 16 ≤ t.goodRun then .locked else s.time.mode) ∧
    (n + 1000 < d.natAbs → s.time.mode ≠ .locked →
      t.ftime = BitVec.ofNat 64 v ∧ t.bBaseNs = 1000 ∧ t.slewNs = 0 ∧ t.mode = s.time.mode ∧ t.source = src ∧
      t.steps = logStep ⟨d.tdiv 1000, s.mm.cseq, s.time.unbounded⟩ s.time.steps) ∧
    (10000 < d.natAbs → s.time.mode = .locked →
      t.ftime = s.time.ftime ∧ t.steps = s.time.steps ∧
      (s.time.badRun + 1 < 3 → t.mode = .locked ∧ t.badRun = s.time.badRun + 1) ∧
      (3 ≤ s.time.badRun + 1 → t.mode = .holdover ∧ t.source = .none))

/-- The rows of the rails by sequencer state (R541, R544 to R549, R552). Rests in part on the model's choices of log entry 49. -/
def Obligations.RailRowsFollowTheTables : Prop :=
  ∀ (s : State) (r : Fin 32),
    let b := begin s
    (s.power.seq = .starting → s.power.cascade = false → sequenced s r = true →
      Ends (.railEnable r) s (fun u => u.power.enable = setBit s.power.enable r true)) ∧
    (s.power.seq = .railsOff → s.power.cascade = false → s.power.enable.getLsbD r = true →
      Ends (.railDisable r) s (fun u => u.power.enable = setBit s.power.enable r false ∧ { u with power := s.power } = b)) ∧
    (sequenced s r = true → activePoint s 0x0010 (uRail r) = none →
      Ends (.pgGood r) s (fun u => u.power.good = setBit s.power.good r true)) ∧
    (sequenced s r = true → Ends (.pgGlitch r) s (fun u =>
      u = { b with power := { s.power with glitches := satInc s.power.glitches, glitchFlag := true } })) ∧
    (sequenced s r = true → s.power.seq = .on → s.power.enable.getLsbD r = true → s.power.flagged.getLsbD r = false →
      railFeeds s r [0, 1, 3] = true →
      Ends (.pgLost r) s (fun u => u.power.seq = .shuttingDown ∧ u.power.cause = 1 ∧ u.power.good = setBit s.power.good r false ∧
        u.power.flagged = setBit s.power.flagged r true)) ∧
    (sequenced s r = true → s.power.seq = .on → s.power.enable.getLsbD r = true → s.power.flagged.getLsbD r = false →
      railFeeds s r [0, 1, 3] = false →
      Ends (.pgLost r) s (fun u => u.power.seq = .on ∧ u.power.good = setBit s.power.good r false ∧
        u.power.flagged = setBit s.power.flagged r true)) ∧
    (s.power.seq = .starting → s.power.enable.getLsbD r = true → s.power.good.getLsbD r = false → s.power.flagged.getLsbD r = false →
      Ends (.railPgTimeout r) s (fun u => u.power.flagged = setBit s.power.flagged r true ∧ u.power.railFailFlag = true)) ∧
    (s.power.seq = .railsOff → s.power.enable.getLsbD r = false → s.power.good.getLsbD r = true → sequenced s r = true →
      Ends (.railOffTimeout r) s (fun u => u.power.offSeen = setBit s.power.offSeen r true ∧
        u.power.flagged.getLsbD r = true)) ∧
    (s.power.seq = .minOff → s.power.onHeld = false → s.power.restart = false →
      Ends .minoffEnd s (fun u => u = { b with power := { s.power with seq := .off, firstSet := false }, therm := { s.therm with throttle := .none } })) ∧
    (s.power.cascade = true → s.power.seq = .on → Ends .cascadeStep s (fun u => u = { b with power := { s.power with seqOut := true } })) ∧
    (s.power.seq = .on → s.power.vcoreDone = false → Ends (.vcoreTrimStep true) s (fun u => ∃ g : Nat,
      g ≤ s.power.vcoreMv.toNat + 10 ∧ s.power.vcoreMv.toNat ≤ g + 10 ∧
      (vcoreTarget ≤ s.power.vcoreMv.toNat + 10 → s.power.vcoreMv.toNat ≤ vcoreTarget + 10 → g = vcoreTarget) ∧
      u = { b with power := { s.power with vcoreMv := BitVec.ofNat 16 g, vcoreDone := g == vcoreTarget }, out := [.pmbus g] })) ∧
    (s.power.seq = .on → s.power.vcoreDone = false → Ends (.vcoreTrimStep false) s (fun u =>
      u.power = { s.power with vcoreMv := 850, vcoreDone := true } ∧ .pmbus 850 ∉ u.out))

/-- Requests to power on and off, in every state of the sequencer (R547, R548, R553 to R555). Rests in part on the model's choices of log
entries 17 and 49. -/
def Obligations.PowerRequestsStartOrShutDown : Prop :=
  ∀ (s : State),
    let only : (PowerSt → PowerSt) → State → Prop := fun f u => u = { begin s with power := f s.power }
    let starts : State → Prop := fun u => u.start.pcycle = s.start.pcycle + 1
    let shuts : Nat → State → Prop := fun cause u => u.power.seq = .shuttingDown ∧ u.power.cause.toNat = cause ∧ u.host.creditsHeld = true
    let railsGo : State → Prop := fun u => (u.power.seq = .railsOff ∨ u.power.seq = .minOff) ∧ u.host.memoryActive = false ∧ u.host.reqs = []
    let offNow : Nat → State → Prop := fun cause u => railsGo u ∧ u.power.cause.toNat = cause ∧
      (s.power.seq = .starting → u.unit.running = [])
    let again : Nat → (PowerSt → PowerSt) → State → Prop := fun cause f u => Recorded { code := 0x0503, p0 := cause, p1 := 1 } u (only f)
    let leaving := s.power.seq = .shuttingDown ∨ s.power.seq = .railsOff ∨ s.power.seq = .minOff
    let may := (s.power.cause ≠ 2 ∧ s.power.cause ≠ 3 ∨ s.power.onHeld = true) ∧ (s.power.cascade = true → s.power.seqIn = true)
    (∀ (c : Caller) (inp : List Byte), Heard c inp s false true false false 0 →
      let ok : State → Prop := fun u => .vendor c .success (reply 0 0 []) ∈ u.out
      let job : State → Prop := fun u => .vendor c .success (reply 1 s.unit.nextJob.toNat []) ∈ u.out
      (s.power.seq = .on → Ends (.powerDown c inp) s (fun u => shuts 3 u ∧ ok u)) ∧
      (s.power.seq = .held ∨ s.power.seq = .starting → Ends (.powerDown c inp) s (fun u => offNow 3 u ∧ ok u)) ∧
      (s.power.seq = .off ∨ leaving → Ends (.powerDown c inp) s (Replies c s (reply 0x0101 0 (powerOut s)))) ∧
      (s.power.seq = .on ∨ s.power.seq = .starting → Ends (.powerUp c inp) s (Replies c s (reply 0x0101 0 (powerOut s)))) ∧
      (s.power.seq ≠ .on → s.power.seq ≠ .starting → 64 ≤ s.unit.running.length →
        Ends (.powerUp c inp) s (Replies c s (reply 0x0102 0 []))) ∧
      (s.unit.running.length < 64 →
        (s.power.seq = .off → Ends (.powerUp c inp) s (fun u => starts u ∧ job u)) ∧
        (leaving → Ends (.powerUp c inp) s (fun u => u.power = { s.power with onHeld := true } ∧ job u)) ∧
        (s.power.seq = .held → Ends (.powerUp c inp) s (fun u => railsGo u ∧ u.power.onHeld = true ∧ job u)))) ∧
    ((s.power.seq = .on → Ends .pfNAssert s (fun u => shuts 1 u ∧ u.power.pfLow = true)) ∧
      (s.power.seq = .held ∨ s.power.seq = .starting → Ends .pfNAssert s (fun u => offNow 1 u ∧ u.power.pfLow = true)) ∧
      (s.power.seq = .off ∨ s.power.seq = .minOff → Ends .pfNAssert s (only (fun p => { p with pfLow := true }))) ∧
      (s.power.seq = .shuttingDown ∨ s.power.seq = .railsOff → Ends .pfNAssert s (again 1 (fun p => { p with pfLow := true })))) ∧
    ((s.start.sillUp = true → s.start.phase ≠ 1 →
        (s.power.seq = .off → may → Ends .pfNRelease s (fun u => starts u ∧ u.power.pfLow = false)) ∧
        (leaving → s.power.cause = 1 → Ends .pfNRelease s (only (fun p => { p with pfLow := false, onHeld := true })))) ∧
      (s.start.sillUp = false ∨ s.start.phase = 1 ∨ s.power.seq = .starting ∨ s.power.seq = .on ∨ s.power.seq = .held ∨
          s.power.seq = .off ∧ ¬ may ∨ leaving ∧ s.power.cause ≠ 1 →
        Ends .pfNRelease s (only (fun p => { p with pfLow := false })))) ∧
    ((s.power.cascade = true → s.start.sillUp = true →
        (s.power.seq = .off → Ends .seqInHigh s (fun u => starts u ∧ u.power.seqIn = true)) ∧
        (leaving → Ends .seqInHigh s (only (fun p => { p with seqIn := true, onHeld := true })))) ∧
      (s.power.cascade = false ∨ s.start.sillUp = false ∨ s.power.seq = .starting ∨ s.power.seq = .on ∨ s.power.seq = .held →
        Ends .seqInHigh s (only (fun p => { p with seqIn := true })))) ∧
    (s.power.cascade = true →
      (s.power.seq = .on → Ends .seqInLow s (fun u => shuts 4 u ∧ u.power.seqIn = false)) ∧
      (s.power.seq = .held ∨ s.power.seq = .starting → Ends .seqInLow s (fun u => offNow 4 u ∧ u.power.seqIn = false)) ∧
      (leaving → Ends .seqInLow s (again 4 (fun p => { p with seqIn := false })))) ∧
    (s.power.cascade = false ∨ s.power.seq = .off → Ends .seqInLow s (only (fun p => { p with seqIn := false })))

/-- The hold-up bank is measured and watched; the flush's steps, the first of which waits for every request but Strict writes without their
acknowledgements (R182, R557 to R562). Rests in part on the model's choices of log entry 52. -/
def Obligations.HoldUpMeasuresAndFaults : Prop :=
  ∀ (s : State),
    let b := begin s
    let faults : State → Prop := fun u => ∃ v : State, v.power.holdFault = true ∧ v.power.measuring = false ∧ v.write.budget = 0 ∧ v.write.through = true ∧
      u = updLoad ((dirtyLlns v).foldl (fun t l => drainLine l true t) v)
    (∀ v m e, s.power.measuring = true → s.power.v1 = none → Ends (.bankCharged v m e) s (fun u =>
      u = { b with power := { s.power with v1 := some v, vmin := m, eff := e }, out := [.holdupStep 10] })) ∧
    (∀ (v2 : BitVec 16) (dq : Word) (v1 : BitVec 16), s.power.measuring = true → s.power.v1 = some v1 →
      s.power.vmin.toNat < v1.toNat → v2.toNat + 10 ≤ v1.toNat →
      Ends (.holdupStepDone v2 dq false) s (fun u => u.power.measured = true ∧ u.power.measuring = false ∧ u.power.v1 = none ∧
        u.power.e.toNat = min (2 ^ 32 - 1) (s.power.eff.toNat * dq.toNat * (v1.toNat ^ 2 - s.power.vmin.toNat ^ 2) / (200 * (v1.toNat - v2.toNat) * 1000000)) ∧
        { u with power := s.power, cache := s.cache } = b)) ∧
    (∀ (v2 : BitVec 16) (dq : Word) (v1 : BitVec 16), s.power.measuring = true → s.power.v1 = some v1 →
      Works (.holdupStepDone v2 dq true) s (fun u => faults u ∧ u.power.e = 0)) ∧
    (s.power.measuring = true → Works .holdupMeasureTimeout s (fun u => faults u ∧ u.power.e = 0)) ∧
    (s.power.seq = .on → s.power.measured = true → s.power.holdFault = false → Works (.holdupMonitor none) s faults) ∧
    (∀ a : HoldupStatus, s.power.seq = .on → s.power.measured = true → s.power.holdFault = false → isArmed s 0x0014 0 = false →
      a.status.getLsbD 1 = true → a.status.getLsbD 2 = false → reserveMj s + 1500 * s.write.budget.toNat ≤ bankMj s a.vbank.toNat →
      Ends (.holdupMonitor (some a)) s (fun u => u = { b with power := { s.power with chargedClear := 0 } })) ∧
    (∀ us, s.power.seq = .shuttingDown → s.power.flushStep = 1 → (∀ r ∈ s.host.reqs, ∃ n, r.wait = .strict n) →
      Ends (.flushStepEnd us) s (fun u => u = { b with power := { s.power with flushStep := 2 } })) ∧
    (∀ us, s.power.seq = .shuttingDown → s.power.flushStep = 1 → (∃ r ∈ s.host.reqs, ∀ n, r.wait ≠ .strict n) →
      Ends (.flushStepEnd us) s (fun u => u = b)) ∧
    (∀ us, s.power.seq = .shuttingDown → s.power.flushStep = 5 →
      Ends (.flushStepEnd us) s (fun u => (u.power.seq = .railsOff ∨ u.power.seq = .minOff) ∧ u.host.memoryActive = false ∧ u.power.seqOut = false))

/-- The Waybill's flush, the leak of the correctable errors, and the Strongbox's own rows (R503, R514, R531, R535, R530). -/
def Obligations.WaybillAndStrongboxRowsAct : Prop :=
  ∀ s : State,
    let b := begin s
    let flushes : State → Prop := fun u =>
      let seqs := ((unflushed s).map (fun x => x.rcd.seq)).take 4
      u.wb.flushing = true ∧ u.sb.running = some (.waybill seqs) ∧
      sget [] u.wb.area s.wb.areaSlot = (s.wb.buffer.filter (fun x => seqs.contains x.rcd.seq)).map BufRec.rcd
    let ready := s.start.sillUp = true ∧ unflushed s ≠ [] ∧ s.sb.running = none ∧ s.sb.queue = [] ∧ sbCanStart s = true
    (ready → Ends .waybillFlushTimer s flushes) ∧
    (ready → Ends .wbCtrlFlush s flushes) ∧
    (s.start.sillUp = true → unflushed s = [] → s.sb.running = none → s.sb.queue = [] →
      Ends .wbCtrlFlush s (fun u => u = { b with wb := { s.wb with flushing := false } })) ∧
    (s.start.sillUp = true → swf 0 s.evt.buckets = true → Ends .ceLeakStep s (fun u =>
      (∀ k, (sget 0 u.evt.buckets k).toNat = (sget 0 s.evt.buckets k).toNat - 1) ∧
      { u with evt := { u.evt with buckets := s.evt.buckets } } = b)) ∧
    (∀ r, s.sb.running = some r → s.sb.queue = [] → s.wb.flushing = false → s.wb.lostI + s.wb.lostW + s.wb.lostC = 0 → s.sec.lowering = 0 →
      Ends .strongboxWriteDone s (fun u => u.sb = { s.sb with running := none })) ∧
    (∀ r q rest, s.sb.running = some r → s.sb.queue = q :: rest → s.wb.flushing = false → s.wb.lostI + s.wb.lostW + s.wb.lostC = 0 →
      s.sec.lowering = 0 → sbCanStart s = true →
      Ends .strongboxWriteDone s (fun u => u.sb.running = some q ∧ u.sb.queue = rest)) ∧
    (∀ n : BitVec 16, s.start.sillUp = true → s.sb.running = none → s.sb.queue = [] → sbCanStart s = true → n.toNat < 0x8000 →
      Ends (.strongboxMarginRefresh n true) s (fun u => Recorded { code := 0x0602, p0 := n.toNat } u (fun v =>
        v.sb.weak = satInc s.sb.weak ∧ v.sb.running = some (.slot n.toNat (sbBytes s (256 * n.toNat) 256))))) ∧
    (∀ n, Ends (.strongboxMarginRefresh n false) s (fun u => u = b)) ∧
    (s.power.seq = .on → Ends .lifeHourly s (fun u => ∃ v, v = { b with start := { s.start with lifeHours := s.start.lifeHours + 1, lifeFrac := 0 } } ∧
      u = sbEnqueue v (.ring 0x60 0 (lifePayload v 0)))) ∧
    (s.start.sillUp = true → 5 ≤ s.start.phase.toNat → Ends .atiHourPoint s (fun u =>
      u.mm.atiCount = s.mm.atiCount + 1 ∧ u.mm.atiHours.length = min 192 (s.mm.atiHours.length + 1) ∧
      (∃ p, u.mm.atiHours.getLast? = some (s.time.ftime, p)) ∧
      u.mm.atiDays.length = if (s.mm.atiCount + 1) % 24 = 0 then min 367 (s.mm.atiDays.length + 1) else s.mm.atiDays.length)) ∧
    (3000 ≤ s.sb.vauxMv.toNat → Ends .reserveCharged s (fun u => u.sb.reserveOk = true)) ∧
    (s.sb.vauxMv.toNat < 3000 → Ends .reserveCharged s (fun u => u = b))

/-- The supply, the resets and the start (R532, R537, R587 to R590, R596, R666). Rests in part on the model's choices of log entries 28 and
50. -/
def Obligations.ResetsAndStartPhases : Prop :=
  ∀ s : State,
    let b := begin s
    let cold : State → Prop := fun u => ∃ e, e.code = 0x0002 ∧ Recorded e u (fun v => v.start.sillUp = true ∧ v.time.mode = .freeRun ∧
      v.time.unbounded = true ∧ v.power.seq = .off ∧ v.power.enable = 0 ∧ v.sec.pl2Fuse = s.sec.pl2Fuse ∧ v.evt.armed = [] ∧
      v.unit.running = [] ∧ v.host.memoryActive = false)
    (∀ mv : BitVec 12, 3000 ≤ mv.toNat → s.start.sillUp = false → Ends (.vauxRise mv) s cold) ∧
    (∀ mv : BitVec 12, 3000 ≤ mv.toNat → s.start.sillUp = true → Ends (.vauxRise mv) s (fun u => u.sb.vauxMv = mv ∧ u.sb.vauxOk = true)) ∧
    (∀ mv : BitVec 12, 2800 ≤ mv.toNat → mv.toNat < 3000 → s.sb.running = none → Ends (.vauxLow mv) s (fun u =>
      u.sb.vauxMv = mv ∧ u.sb.vauxOk = false ∧ u.sb.reserveOk = false ∧ u.sb.low = true ∧ u.sb.queue = [] ∧ u.sb.cells = s.sb.cells)) ∧
    Ends .vauxLoss s (fun u => u.start.sillUp = false ∧ u.power.seq = .off ∧ u.power.enable = 0 ∧ u.sb.vauxMv = 0 ∧ u.sb.queue = [] ∧
      u.host.memoryActive = false) ∧
    (∀ mv : BitVec 12, 3000 ≤ mv.toNat → s.start.sillUp = true → Ends (.vauxBandChange mv) s (fun u =>
      u.sb.vauxMv = mv ∧ u.sb.low = decide (mv.toNat < 3200) ∧ u.sb.bandChg = (s.sb.bandChg || decide (mv.toNat < 3200) != s.sb.low))) ∧
    (s.start.sillUp = true → Ends .sillReset s cold) ∧
    (s.host.mailboxReady = true → s.host.mgmtReset = false → Ends .mgmtWatchdog s (fun u => u.host = { s.host with mgmtReset := true } ∧
      u.evt.armed = [] ∧ u.unit.running = s.unit.running.filter (fun j => j.kind == .powerUp) ∧ u.cache = s.cache ∧ u.media = s.media ∧
      u.power = s.power)) ∧
    (s.host.mgmtReset = true → s.fw.activating = false → Ends .warmResetEnd s (fun u => u = { b with host := { s.host with mgmtReset := false } })) ∧
    (s.start.sillUp = true → s.power.seq = .on → s.start.phase = 3 → (selectFw b).isSome = true →
      Works (.startPhaseEnd 0) s (fun u => u.start.phase = 4 ∧ u.power.measuring = true)) ∧
    (s.start.sillUp = true → s.power.seq = .on → s.start.phase = 4 → (List.range (nChannels s)).any (inTraining s) = false →
      (∀ h < nQuads s, inService (ownState s (uHbm h)) = true) →
      Ends (.startPhaseEnd 0xF) s (fun u => u.start.phase = 5)) ∧
    (s.start.sillUp = true → s.power.seq = .on → s.start.phase = 5 → s.sec.lowering = 0 → s.sec.erasing = false →
      Ends (.startPhaseEnd 0) s (fun u => u.start.phase = 6)) ∧
    (s.start.sillUp = true → s.power.seq = .on → s.start.phase = 6 → Ends (.startPhaseEnd 0) s (fun u => u.start.phase = 7)) ∧
    (s.start.sillUp = true → s.power.seq = .on → s.start.phase = 7 → s.power.replayLeft = [] → dirtyLlns s = [] → s.span.desc = none →
      s.sec.rootLost = false → linesLost s = false → s.start.mapLost = [] → s.cache.heldWrites = [] →
      Works (.startPhaseEnd 0) s (fun u => u.start.phase = 9 ∧ u.host.memoryActive = true))

/-- Thermal rows (R61, R570 to R581). -/
def Obligations.ThermalRowsFollowTheThrottle : Prop :=
  ∀ s : State,
    let b := begin s
    let hot := noticeLevel s ≤ tgNow s
    (∀ (rs : List (Option (BitVec 16))) (i : Nat) (v : BitVec 16), domainOn s 0 = true → s.power.seq = .on → s.evt.armed = [] →
      s.therm.sensors.length = 64 → i < 60 → rs.getD i none = some v → unitPresent s (uSensor i) = true →
      Ends (.thermalSample rs) s (fun u => (sensorOf u i).valid = true ∧
        (sensorOf u i).reading = BitVec.ofInt 16 (v.toInt + (if i < 24 then factoryOffset s i else 0)))) ∧
    (∀ rs, domainOn s 0 = false → Ends (.thermalSample rs) s (fun u => u = b)) ∧
    (s.therm.throttle = .notice ∨ s.therm.throttle = .brake → hot → Ends .thermalHalfGrace s (fun u => u = { b with write := { s.write with lvlTherm := 3 } })) ∧
    (s.therm.throttle = .notice → hot → Ends .thermalGraceExpiry s (fun u =>
      Recorded { code := 0x0505, unit := uSensor s.therm.tgSensor.toNat, p0 := s.therm.tg.toNat } u (fun v =>
        v = { b with therm := { s.therm with throttle := .brake, bf := 8, fBrake := true } }))) ∧
    (s.therm.throttle ≠ .notice → Ends .thermalGraceExpiry s (fun u => u = b)) ∧
    (s.therm.throttle = .brake → hot → s.therm.bf.toNat ≤ 16 → Ends .brakeFractionStep s (fun u =>
      u = { b with therm := { s.therm with bf := BitVec.ofNat 5 (max 2 (s.therm.bf.toNat - 1)) } })) ∧
    (s.therm.throttle = .brake → ¬ hot → s.therm.bf.toNat < 15 → Ends .brakeFractionStep s (fun u =>
      u = { b with therm := { s.therm with bf := s.therm.bf + 1 } })) ∧
    (s.therm.throttle = .brake → tgNow s < noticeLevel s - 24 → 15 ≤ s.therm.bf.toNat → Ends .brakeFractionStep s (fun u =>
      u = { b with therm := { s.therm with bf := 16, throttle := .none }, write := { s.write with lvlTherm := 0 } })) ∧
    (∀ i : Fin 64, 24 ≤ i.val → i.val < 60 → domainOn s 0 = true → sensorIn s i = true → (sensorOf s i).broken = false →
      s.therm.sensors.length = 64 →
      Ends (.sensorReadingTimeout i) s (fun u => ∃ e, e.code = 0x0506 ∧ e.unit = uSensor i ∧ Recorded e u (fun v =>
        (sensorOf v i).broken = true ∧ v.therm.fBroken = true)))

/-- What `sbGroup` leaves (R532). Rests in part on the model's choices of log entry 12. -/
def Obligations.StrongboxGroupRunsWholeOrNotAtAll : Prop :=
  ∀ (s : State) (rs : List SbReq), rs ≠ [] →
    (sbCanStart s = true → (sbCommand s rs).1 = true ∧ (sbCommand s rs).2.sb.abandon = s.sb.abandon) ∧
    (sbCanStart s = false → (sbCommand s rs).1 = false ∧ (sbCommand s rs).2.sb.cells = s.sb.cells)

/-- The CXL commands that only answer (R458, R460). The FM API commands that only answer (R459). Rests in part on the model's choices of log
entries 26, 57, 59. -/
def Obligations.CxlAndFmQueriesAnswer : Prop :=
  (∀ (c : Caller) (ldb : Byte) (s : State) (i : Nat), ldNamed s c ldb.toNat = some i →
     let d := ldOf s i
     (Taken c s false false →
       Ends (.identifyMemoryDevice c ldb) s (Tells c s .success (.identify (ldFrames d / 64) (ldFrames d / 64) 0 0 0 4096)) ∧
       Ends (.getHealthInfo c ldb) s (Tells c s .success (.health (lifeUsed s) (BitVec.ofInt 16 (tgNow s / 8)) s.host.dirtyShutdowns
         s.host.volErrors s.host.perErrors s.host.mediaStatus)) ∧
       (∀ log : Fin 5, Ends (.getEventRecords c ldb log) s (fun u => ∃ recs, recs <+: d.logs.getD log [] ∧
         (32 + 128 * (d.logs.getD log []).length ≤ payloadMax c → recs = d.logs.getD log []) ∧
         Tells c s .success (.events recs (d.logOverflow.getD log false)) u)) ∧
       Ends (.getEventInterruptPolicy c ldb) s (Tells c s .success (.policy d.policy)) ∧
       Ends (.getSupportedLogs c ldb) s (Tells c s .success (.logs [0])) ∧
       (∀ off len : BitVec 32, off.toNat + len.toNat ≤ 4 * (celOf s c).length → len.toNat ≤ payloadMax c →
         Ends (.getLog c ldb off len) s (Tells c s .success (.cel ((((celOf s c).drop (off.toNat / 4)).take (len.toNat / 4)).map (BitVec.ofNat 16))))) ∧
       (∀ o, d.tsOffset = some o → Ends (.getTimestamp c ldb) s (Tells c s .success (.timestamp (s.time.ftime + o)))) ∧
       (d.tsOffset = none → Ends (.getTimestamp c ldb) s (Tells c s .success (.timestamp 0))) ∧
       Ends (.getFwInfo c ldb) s (fun u => ∃ active staged, Tells c s .success (.fwInfo 2 active staged (areaVersion s (slotArea s 1)) (areaVersion s (slotArea s 2))) u ∧
         (s.fw.runArea = none → active = 0) ∧ (∀ a, s.fw.runArea = some a → slotArea s active = a.val)) ∧
       Ends (.getDynamicCapacityConfiguration c ldb) s (Tells c s .success (.dcConfig 4194304 (64 * 2 ^ 40) (4096 - d.ranges.length))) ∧
       Ends (.getDynamicCapacityExtentList c ldb) s (Tells c s .success (.extents d.extents)) ∧
       (∀ op, Ends (.unsupportedOpcode c op) s (Tells c s .unsupported .none))) ∧
     (Taken c s false true → d.erase = none → ∀ a n : BitVec 46, Ends (.getPoisonList c ldb a n) s (fun u => ∃ l,
       Tells c s .success (.poison l d.poisonOverflow) u ∧
       ∀ x src, (x, src) ∈ l ↔ a.toNat ≤ x ∧ x < a.toNat + n.toNat ∧ ∃ lln, (lln, src) ∈ d.poison ∧ addressOf d lln = some x)) ∧
     (Taken c s false true → d.erase ≠ none → ∀ a n : BitVec 46, Ends (.getPoisonList c ldb a n) s (Tells c s .busy .none))) ∧
  (∀ (c : Caller) (s : State), Taken c s true false →
     let run := fun (p : Fin 4) (f : Fin 16) (n : BitVec 8) => (List.range (min n.toNat (16 - f.val))).map (fun k => ldOf s (16 * p.val + f.val + k))
     Ends (.fmIdentify c) s (fun u => ∃ (v : Nat) (m : BitVec 4), Tells c s .success (.fmIdentify v m) u ∧
       v = (match s.variant with | .x4 => 0 | .h2 => 1 | .l1 => 2) ∧ ∀ p < 4, m.getLsbD p = portPresent s p) ∧
     Ends (.getLdInfo c) s (Tells c s .success (.ldInfo 16 (exportable s * 4194304))) ∧
     (∀ p f n, Ends (.getLdAllocations c p f n) s (Tells c s .success (.allocs ((run p f n).map (fun d => staticFrames d / 64)) 268435456))) ∧
     (∀ p, Ends (.getQosControl c p) s (Tells c s .success (.qos (portOf s p).qosCtrl))) ∧
     (∀ p, Ends (.getQosStatus c p) s (fun u => ∃ v : BitVec 64, v.toNat ≤ 100 ∧ u = { begin s with free := s.free + 1, out := [.cxl c .success (.qos v)] })) ∧
     (∀ p f n, Ends (.getQosAllocatedBw c p f n) s (Tells c s .success (.fracs ((run p f n).map Ld.qosAlloc)))) ∧
     (∀ p f n, Ends (.getQosBwLimit c p f n) s (Tells c s .success (.fracs ((run p f n).map Ld.qosLimit)))) ∧
     (∀ (ldb : Byte) (i : Nat), ldNamed s c ldb.toNat = some i →
       Ends (.getDcRegionConfiguration c ldb) s (Tells c s .success (.dcConfig 4194304 (64 * 2 ^ 40) (4096 - (ldOf s i).ranges.length))) ∧
       Ends (.getDcRegionExtentLists c ldb) s (Tells c s .success (.extents (ldOf s i).extents))))

/-- The CXL commands that set an LD's settings, and those of the firmware areas (R458, R597). Rests in part on the model's choices of log
entries 57 and 58. -/
def Obligations.CxlSettingsAndFirmware : Prop :=
  ∀ (c : Caller) (s : State), Taken c s false false →
    let b := begin s
    let idle := s.fw.activating = false ∧ s.fw.activateDue = false
    (∀ (ldb : Byte) (i : Nat), ldNamed s c ldb.toNat = some i →
      (∀ (log : Fin 5) (hs : List (BitVec 16)), Ends (.clearEventRecords c ldb log true hs) s (Does c (setLd i (fun d => { d with
        logs := lmod d.logs log (fun _ => []), logOverflow := lmod d.logOverflow log (fun _ => false) }) b))) ∧
      (∀ (log : Fin 5) (hs : List (BitVec 16)), (∀ h ∈ hs, ∃ r ∈ (ldOf s i).logs.getD log [], r.handle = h) →
        Ends (.clearEventRecords c ldb log false hs) s (Does c (setLd i (fun d => { d with
          logs := lmod d.logs log (fun rs => rs.filter (fun r => !hs.contains r.handle)), logOverflow := lmod d.logOverflow log (fun _ => false) }) b))) ∧
      (∀ (log : Fin 5) (hs : List (BitVec 16)), (∃ h ∈ hs, ∀ r ∈ (ldOf s i).logs.getD log [], r.handle ≠ h) →
        Ends (.clearEventRecords c ldb log false hs) s (Tells c s .invalidHandle .none)) ∧
      (∀ p, Ends (.setEventInterruptPolicy c ldb p) s (Does c (setLd i (fun d => { d with policy := p }) b))) ∧
      (∀ v, Ends (.setTimestamp c ldb v) s (Does c (setLd i (fun d => { d with tsOffset := some (v - s.time.ftime) }) b)))) ∧
    (∀ data : List Byte, idle → s.fw.transferring = false → data.length ≤ payloadMax c → (data.length < 8 ∨ field data 4 4 ≤ 8388288) →
      Ends (.transferFw c .initiate 0 data) s (fun u => u.out = [.cxl c .success .none] ∧ u.fw.staged = data ∧ u.fw.transferring = true ∧
        (∀ x ∈ u.fw.areas.getD (slotArea s 2) [], x.aseq = 0 ∧ x.valid = false) ∧ { u with fw := s.fw, out := [] } = b)) ∧
    (∀ (off : BitVec 32) (data : List Byte), idle → s.fw.transferring = true → data.length ≤ payloadMax c → 128 * off.toNat = s.fw.staged.length →
      (s.fw.staged ++ data).length ≤ 8388608 → field (s.fw.staged ++ data) 4 4 ≤ 8388288 →
      Ends (.transferFw c .continue_ off data) s (Does c { b with fw := { s.fw with staged := s.fw.staged ++ data } })) ∧
    (∀ (off : BitVec 32) (data : List Byte), idle → s.fw.transferring = true → data.length ≤ payloadMax c → 128 * off.toNat = s.fw.staged.length →
      (s.fw.staged ++ data).length ≤ 8388608 → field (s.fw.staged ++ data) 4 4 ≤ 8388288 → fwAccepts s (s.fw.staged ++ data) = true →
      Ends (.transferFw c .finish off data) s (fun u => u.out = [.cxl c .success .none] ∧ u.fw.staged = [] ∧ u.fw.transferring = false ∧
        (∀ x ∈ u.fw.areas.getD (slotArea s 2) [], s.fw.areas.length = 2 → x.aseq = 0 ∧ x.valid = true ∧
          x.svn.toNat = field (s.fw.staged ++ data) 12 4 ∧ s.sec.svnMin.toNat ≤ x.svn.toNat))) ∧
    (∀ (off : BitVec 32) (data : List Byte), idle → s.fw.transferring = true → data.length ≤ payloadMax c →
      Ends (.transferFw c .abort off data) s (Does c { b with fw := { s.fw with staged := [], transferring := false, sender := none } })) ∧
    (idle → s.fw.transferring = false → (s.fw.areas.getD (slotArea s 2) []).any FwCopy.valid = true →
      Ends (.activateFw c false 2) s (fun u => u.out = [.cxl c .success .none] ∧ u.fw.activating = false ∧ u.host = s.host ∧
        (∀ x ∈ u.fw.areas.getD (slotArea s 2) [], x.aseq = BitVec.ofNat 48 (max (areaSeq s 0) (areaSeq s 1) + 1)))) ∧
    (idle → s.fw.transferring = false → (s.fw.areas.getD (slotArea s 2) []).any FwCopy.valid = true → s.span.desc = none →
      Ends (.activateFw c true 2) s (fun u => u.fw.activating = true ∧ u.host = { s.host with mgmtReset := true } ∧ u.cache = s.cache ∧ u.media = s.media))

/-- The CXL commands on lines and capacity (R47 to R60, R618, R621). Rests in part on the model's choices of log entries 57, 59 and 75. -/
def Obligations.CxlCapacityAndPoison : Prop :=
  ∀ (c : Caller) (ldb : Byte) (s : State) (i : Nat), Taken c s false true → ldNamed s c ldb.toNat = some i →
    let b := begin s
    let d := ldOf s i
    (∀ (a : BitVec 46) (lln : Nat), s.sec.pl = 0 → d.erase = none → poisonTarget s i a.toNat = some lln →
      Works (.injectPoison c ldb a) s (Does c (commandWrite i lln 0 true (poisonAdd lln .injected b)))) ∧
    (∀ a : BitVec 46, s.sec.pl ≠ 0 → Ends (.injectPoison c ldb a) s (Tells c s .invalidSecurityState .none)) ∧
    (∀ (a : BitVec 46) (lln : Nat) (data : Line), d.erase = none → poisonTarget s i a.toNat = some lln →
      Works (.clearPoison c ldb a data) s (Does c (commandWrite i lln data false b))) ∧
    (d.erase = none → Works (.sanitize c ldb) s (fun u => ∃ v, u = updLoad (pollWork (send v (.cxl c .background .none))) ∧
      v = eraseStart i false b)) ∧
    (d.erase = none → Works (.secureErase c ldb) s (fun u => ∃ v, u = updLoad (pollWork (send v (.cxl c .background .none))) ∧
      v = eraseStart i true b)) ∧
    (d.erase ≠ none → Ends (.sanitize c ldb) s (Tells c s .busy .none) ∧ Ends (.secureErase c ldb) s (Tells c s .busy .none)) ∧
    (∀ e : Extent, s.host.lds[i]? = some d → d.offered = [e] → Works (.addDynamicCapacityResponse c ldb [e]) s (fun u =>
      (ldOf u i).extents = d.extents ++ [(e.frame.toNat, e.count.toNat)] ∧ (ldOf u i).offered = [] ∧ .cxl c .success .none ∈ u.out)) ∧
    (∀ e : Extent, s.host.lds[i]? = some d → d.offered = [e] → Works (.addDynamicCapacityResponse c ldb []) s (fun u =>
      (ldOf u i).extents = d.extents ∧ (ldOf u i).ranges = d.ranges ∧ (ldOf u i).offered = [])) ∧
    (∀ exts, exts.length ≤ 256 → extentsHeld d exts = true → s.host.lds[i]? = some d → d.erase = none →
      (∃ r ∈ s.host.reqs, lfnOf r.lln ∈ extentLfns d exts) →
      Works (.releaseDynamicCapacity c ldb exts) s (fun u => u.out = [] ∧ (ldOf u i).ranges = d.ranges ∧ (ldOf u i).heldRelease = d.heldRelease ++ [(c, exts)])) ∧
    (∀ exts, exts.length ≤ 256 → extentsHeld d exts = true → s.host.lds[i]? = some d → d.erase = none →
      (∀ r ∈ s.host.reqs, lfnOf r.lln ∉ extentLfns d exts) →
      let v := setLd i (fun d => { d with heldRelease := d.heldRelease ++ [(c, exts)] }) b
      (extentLfns d exts).any (zeroPending (emptyAll 0 (extentLfns d exts) v)) = false →
      Works (.releaseDynamicCapacity c ldb exts) s (fun u => .cxl c .success .none ∈ u.out ∧
        ∀ r ∈ (ldOf u i).ranges, r.dc = true → ∀ e ∈ exts, ¬ (e.frame.toNat ≤ r.frame ∧ r.frame < e.frame.toNat + e.count.toNat))) ∧
    (∀ exts, 256 < exts.length ∨ extentsHeld d exts = false → Ends (.releaseDynamicCapacity c ldb exts) s (Tells c s .invalidInput .none))

/-- The FM API commands that allocate and set (R43, R44, R51, R52, R65). Rests in part on the model's choices of log entries 57, 59, 83 and
84. -/
def Obligations.FmCommandsAllocateAndSet : Prop :=
  ∀ (c : Caller) (s : State), Taken c s true false → 
    let b := begin s
    (∀ (p : Fin 4) (v : BitVec 64), Ends (.setQosControl c p v) s (Does c (setPort p (fun q => { q with qosCtrl := v }) b))) ∧
    (∀ (p : Fin 4) (f : Fin 16) (x : Byte), Ends (.setQosAllocatedBw c p f [x]) s
      (Does c (setLd (16 * p.val + f.val) (fun d => { d with qosAlloc := x }) b))) ∧
    (∀ (p : Fin 4) (f : Fin 16) (x : Byte), Ends (.setQosBwLimit c p f [x]) s
      (Does c (setLd (16 * p.val + f.val) (fun d => { d with qosLimit := x }) b))) ∧
    (∀ (p : Fin 4) (f : Fin 16) (xs : List Byte), 16 < f.val + xs.length →
      Ends (.setQosAllocatedBw c p f xs) s (Tells c s .invalidInput .none) ∧ Ends (.setQosBwLimit c p f xs) s (Tells c s .invalidInput .none)) ∧
    (∀ (ldb : Byte) (i : Nat) (e : Extent), ldNamed s c ldb.toNat = some i → e.count ≠ 0 → s.host.lds[i]? = some (ldOf s i) →
      ((ldOf s i).logs.getD 4 []).length < 64 → (ldOf s i).logs.length = 5 →
      Ends (.initiateDynamicCapacityRelease c ldb e) s (fun u => u.out = logIntr s 4 i (ldOf s i) ++ [.cxl c .success .none] ∧
        (ldOf u i).logs.getD 4 [] = (ldOf s i).logs.getD 4 [] ++ [⟨(ldOf s i).nextHandle, 0, 1, BitVec.ofNat 64 e.frame.toNat, BitVec.ofNat 64 e.count.toNat⟩] ∧
        (ldOf u i).ranges = (ldOf s i).ranges)) ∧
    (s.host.memoryActive = true →
      (∀ (ldb : Byte) (i : Nat) (e : Extent) (ls : List Nat), ldNamed s c ldb.toNat = some i → s.host.lds[i]? = some (ldOf s i) →
        addRefused s i e none = none → poolLfns s e.count.toNat = some ls → mapRoom s i (lfnRuns ls).length = true →
        Ends (.initiateDynamicCapacityAdd c ldb e none) s (fun u => u.out = logIntr s 4 i (ldOf s i) ++ [.cxl c .success .none] ∧
          (ldOf u i).offered = (ldOf s i).offered ++ [e] ∧ (ldOf u i).ranges = (ldOf s i).ranges)) ∧
      (∀ (ldb : Byte) (i : Nat) (e : Extent) (tag : Option (BitVec 128)) (r : Rc), ldNamed s c ldb.toNat = some i →
        addRefused s i e tag = some r → Ends (.initiateDynamicCapacityAdd c ldb e tag) s (Tells c s r .none)) ∧
      (∀ (p : Fin 4) (f : Fin 16) (n : BitVec 32), (ldOf s (16 * p.val + f.val)).erase = none → 64 * n.toNat = staticFrames (ldOf s (16 * p.val + f.val)) →
        Works (.setLdAllocations c p f [n]) s (fun u => u = updLoad { b with out := [.cxl c .success .none] })) ∧
      (∀ (p : Fin 4) (f : Fin 16) (n : BitVec 32), let i := 16 * p.val + f.val
        (ldOf s i).erase = none → staticFrames (ldOf s i) < 64 * n.toNat →
        ∀ ls, poolLfns s (64 * n.toNat - staticFrames (ldOf s i)) = some ls → mapRoom s i (lfnRuns ls).length = true →
        s.host.lds[i]? = some (ldOf s i) → (∀ r ∈ (ldOf s i).ranges, r.dc = false) → (ldOf s i).offered = [] →
        assigned s + (64 * n.toNat - staticFrames (ldOf s i)) ≤ exportable s →
        Works (.setLdAllocations c p f [n]) s (fun u => .cxl c .success .none ∈ u.out ∧
          (ldOf u i).ranges = (ldOf s i).ranges ++ runRanges false (staticFrames (ldOf s i)) (lfnRuns ls))) ∧
      (∀ (p : Fin 4) (f : Fin 16) (n : BitVec 32), let i := 16 * p.val + f.val
        (ldOf s i).erase = none → staticFrames (ldOf s i) < 64 * n.toNat → (∀ r ∈ (ldOf s i).ranges, r.dc = false) → (ldOf s i).offered = [] →
        exportable s < assigned s + (64 * n.toNat - staticFrames (ldOf s i)) →
        Ends (.setLdAllocations c p f [n]) s (Tells c s .resourcesExhausted .none)))

/-- The SPDM responder (R625), its stages as SPDM orders them (model's choice). Requests inside a session, and the IDE keys (R625, R626).
Rests in part on the model's choices of log entry 60. -/
def Obligations.SpdmRowsAct : Prop :=
  (∀ (p : Fin 4) (s : State), (portOf s p).up = true → s.host.mailboxReady = true → s.host.mgmtReset = false →
     let b := begin s
     let sends : State → SpdmOut → State → Prop := fun v o u => u = { v with out := [.spdm p o] }
     let stage : SpdmStage → State := fun x => setPort p (fun q => { q with spdm := x }) b
     Ends (.getVersion p) s (sends (stage .version) .version) ∧
     (∀ w, (portOf s p).spdm = .version → Ends (.getCapabilities p w) s (sends (stage .caps) .capabilities)) ∧
     ((portOf s p).spdm = .caps → Ends (.negotiateAlgorithms p true) s (sends (stage .algs) .algorithms)) ∧
     (spdmReady s p = true →
       Ends (.getDigests p) s (sends b (.digests (Config.sha384 Config.certChain))) ∧
       (∀ off len : BitVec 16, off.toNat < Config.certChain.length → Ends (.getCertificate p 0 off len) s (fun u => ∃ part,
         part = (Config.certChain.drop off.toNat).take len.toNat ∧
         sends b (.certificate part (Config.certChain.length - off.toNat - part.length)) u)) ∧
       (∀ n, Ends (.challenge p 0 n) s (sends b (.challengeAuth (Config.sign (bytesOf 32 n.toNat ++ Config.sha384 Config.certChain))))) ∧
       Ends (.getMeasurements p 0 none) s (sends b (.measurements [(0, [5])] [])) ∧
       Ends (.getMeasurements p 3 none) s (sends b (.measurements [(3, s.fw.runDigest)] [])) ∧
       (∀ n, Ends (.getMeasurements p 5 (some n)) s (fun u => ∃ m, m = bytesOf 1 s.sec.pl.toNat ++ Config.sha384 (optionArea s.sb.cells) ∧
         sends b (.measurements [(5, m)] (Config.sign (bytesOf 32 n.toNat ++ (bytesOf 1 5 ++ m)))) u)) ∧
       (∀ r ex, (∀ x, (portOf s p).spdm ≠ .session x) → ex.length = 96 → Ends (.keyExchange p r ex) s (fun u => ∃ (half : BitVec 16) (mine : List Byte),
         mine.length = 96 ∧ sends { stage (.handshake (half ++ r)) with free := s.free + 2 } (.keyExchange (half ++ r) mine) u))) ∧
     (spdmReady s p = false → Ends (.getDigests p) s (sends b (.error 4))) ∧
     (∀ x, (portOf s p).spdm = .handshake x →
       Ends (.finish p x true) s (sends (stage (.session x)) .finish) ∧ Ends (.finish p x false) s (sends (stage .algs) (.error 6)))) ∧
  (∀ (p : Fin 4) (x : Word) (s : State), (portOf s p).up = true → s.host.mailboxReady = true → s.host.mgmtReset = false →
     let b := begin s
     let sends : State → SpdmOut → State → Prop := fun v o u => u = { v with out := [.spdm p o] }
     let ide : State → Bool → State → Prop := fun v ok u => u = { v with out := [.ideKm p ok] }
     ((portOf s p).spdm = .session x →
       (∀ op : Byte, 1 ≤ op.toNat → op.toNat ≤ 3 → Ends (.keyUpdate p x op) s (sends b .keyUpdate)) ∧
       Ends (.spdmHeartbeat p x) s (sends b .heartbeat) ∧
       Ends (.endSession p x) s (sends (setPort p (fun q => { q with spdm := .algs }) b) .endSession) ∧
       ((portOf s p).flit256 = true → ∀ (sub : Byte) (key : BitVec 256),
         Ends (.ideKm p x .keyProg sub key) s (ide (setPort p (fun q => { q with ideKeys := sput q.ideKeys sub.toNat key }) b) true) ∧
         ((sfind (portOf s p).ideKeys sub.toNat).isSome = true →
           Ends (.ideKm p x .setGo sub key) s (ide (setPort p (fun q => { q with ideActive := true }) b) true)) ∧
         Ends (.ideKm p x .setStop sub key) s (ide (setPort p (fun q => { q with ideActive := false }) b) true))) ∧
     ((∀ y, (portOf s p).spdm ≠ .session y) → Ends (.spdmHeartbeat p x) s (sends b (.error 2)) ∧ Ends (.endSession p x) s (sends b (.error 2)) ∧
       (∀ op, Ends (.keyUpdate p x op) s (sends b (.error 2))) ∧ (∀ op sub key, Ends (.ideKm p x op sub key) s (ide b false))))

/-- Reads: a line whole in the Near Cache answers at once with its plaintext; an unbacked access answers poisoned zeros; a read held back
for want of a request credit changes nothing, and none is held back outside Brake and the QoS fractions (R46, R65, R66, R195, R580). Rests
in part on the model's choices of log entries 26 and 33. -/
def Obligations.MemReadAnswersFromNearCache : Prop :=
  ∀ (s : State) (p : Fin 4) (l : Fin 16) (hpa : BitVec 64) (tag : BitVec 16), takesMem s p l = true →
    let i := 16 * p.val + l.val
    (∀ t, readHeld p i (begin s) = (true, t) → Ends (.memRead p l hpa tag) s (fun u => u = t)) ∧
    (s.therm.throttle ≠ .brake → qosOver s p i = false → qosContended s p i = false → readHeld p i (begin s) = (false, begin s)) ∧
    (∀ t, readHeld p i (begin s) = (false, t) → isArmed s 0x0019 (uPort p) = false → backing s i hpa.toNat = none →
      Ends (.memRead p l hpa tag) s (fun u => ∃ a dl,
        u = send (event { code := 0x0802, unit := uPort p, p0 := i, p1 := a } t) (.memRead p i tag 0 true dl))) ∧
    (∀ t lln k m, readHeld p i (begin s) = (false, t) → isArmed s 0x0019 (uPort p) = false → backing s i hpa.toNat = some lln → lln ∉ s.cache.lost → heldValue s lln = none → ncWays s lln = [k, m] →
      wayGood (ncWay s k) = true → wayGood (ncWay s m) = true → (ncWay s k).st ≠ .partial_ → (ncWay s k).data ≠ poisonLine →
      (ldOf s i).keyLost = false → (∀ r ∈ s.host.reqs, r.id < s.host.nextReq) →
      Works (.memRead p l hpa tag) s (fun u => ∃ dl, u.out = [.memRead p i tag (decLine s lln (ncWay s k).data) false dl] ∧
        u.host.reqs = s.host.reqs ∧ u.cache.ncHit = satInc s.cache.ncHit ∧ u.cache.near = s.cache.near))

/-- A write takes a credit and completes; unbacked, it stores nothing; once the lines of a flush are fixed it is not taken (R14, R46, R157,
R161, R182). Rests in part on the model's choices of log entries 33 and 52. -/
def Obligations.MemWriteTakesCreditAndCompletes : Prop :=
  ∀ (s : State) (p : Fin 4) (l : Fin 16) (hpa : BitVec 64) (tag : BitVec 16) (data : Line) (be : BitVec 64) (poisoned : Bool),
    takesMem s p l = true →
    let i := 16 * p.val + l.val
    0 < (ldOf s i).credits → s.host.lds[i]? = some (ldOf s i) →
    (flushListed s = true → Ends (.memWrite p l hpa tag data be poisoned) s (fun u => u = begin s)) ∧
    (flushListed s = false → backing s i hpa.toNat = none → Ends (.memWrite p l hpa tag data be poisoned) s (fun u => (∃ dl, .memWrite p i tag dl ∈ u.out) ∧
      (ldOf u i).credits = (ldOf s i).credits - 1 ∧ u.cache = s.cache ∧ u.media = s.media ∧ u.xlat = s.xlat)) ∧
    (∀ lln, flushListed s = false → backing s i hpa.toNat = some lln → ((ldOf s i).mode ≠ .strict ∨ s.span.desc = none) → s.write.through = false →
      Works (.memWrite p l hpa tag data be poisoned) s (fun u => (∃ dl, .memWrite p i tag dl ∈ u.out) ∧ (ldOf u i).credits = (ldOf s i).credits - 1))

/-- Storing a write whole in a resident line and looking it up again gives the stored line (R191, R195). -/
def Obligations.StoredLineIsLookedUp : Prop :=
  ∀ (s : State) (lln : Nat) (data : Line) (k m : Nat), ncWays s lln = [k, m] → (∀ a ∈ s.evt.armed, a.point ≠ 0x0001 ∧ a.point ≠ 0x0002) →
    let t := storeWrite lln data (BitVec.allOnes 64) false s
    (ncLook lln t).1 = .whole (writeLine s lln data (BitVec.allOnes 64) false) ∧
    ∀ lln', lln' ≠ lln → ncSet lln' ≠ ncSet lln → ncWays t lln' = ncWays s lln'

/-- Credits, exposure and age (R157, R166, R167, R173, R176). Rests in part on the model's choices of log entries 26 and 78. -/
def Obligations.CreditsAndExposure : Prop :=
  ∀ s : State,
    let b := begin s
    (∀ (p : Fin 4) (l : Fin 16), let i := 16 * p.val + l.val
      s.therm.throttle ≠ .brake → qosContended s p i = false →
      (takesMem s p l = true → budgetRoom s = true → s.host.creditsHeld = false → s.sec.lowering = 0 → (ldOf s i).exposedOut = [] →
        ((ldOf s i).mode = .relaxed → s.write.relaxedStall = []) → ((ldOf s i).mode ≠ .loc → streamRoom s = true) →
        (s.span.desc = none ∨ patchFill s + 1 ≤ 2 ^ 27 - 2 ^ 20) → qosOver s p i = false → s.host.lds[i]? = some (ldOf s i) →
        Ends (.writeCreditGrant p l) s (fun u => u.out = [.credit p i] ∧ (ldOf u i).credits = (ldOf s i).credits + 1 ∧ u.write.pacing = false)) ∧
      (budgetRoom s = false ∨ s.host.creditsHeld = true ∨ s.sec.lowering ≠ 0 ∨ (ldOf s i).exposedOut ≠ [] ∨ qosOver s p i = true →
        Ends (.writeCreditGrant p l) s (fun u => u = { b with write := { s.write with pacing := !budgetRoom s } }))) ∧
    (∀ (p : Fin 4) (l : Fin 16) (tag : BitVec 16) (q : Req), let i := 16 * p.val + l.val
      q ∈ s.host.reqs → q.write = true → q.port = p.val → q.ld = i → q.tag = tag → (∃ rs, q.wait = .strict rs) →
      (∀ r ∈ s.host.reqs, r.write = true → r.port = p.val → r.ld = i → r.tag = tag → r = q) →
      let left := s.host.reqs.filter (fun r => r.id != q.id)
      (s.write.through = false ∨ isDirty s q.lln = false →
        Ends (.strictAckTimeout p l tag) s (fun u => (∃ dl, .memWrite p i tag dl ∈ u.out) ∧ u.host.reqs = left ∧
          u.write.exposedLd.getLsbD i = true ∧ u.write.exposedCnt = satInc s.write.exposedCnt)) ∧
      (s.write.through = true → isDirty s q.lln = true →
        Ends (.strictAckTimeout p l tag) s (fun u => u.host.reqs = left ++ [{ q with wait := .through }] ∧
          u.write.exposedLd.getLsbD i = true ∧ u.write.exposedCnt = satInc s.write.exposedCnt))) ∧
    (∀ (k : Fin 2) (n : BitVec 48), isUnacked s k n = true → (k.val, n) ∉ s.write.relaxedStall → Ends (.relaxedRecordStall k n) s (fun u =>
      u = { b with write := { s.write with relaxedStall := s.write.relaxedStall ++ [(k.val, n)] } })) ∧
    (∀ (k : Fin 2) (n : BitVec 48) (i : Nat), isUnacked s k n = true → recordLd s k n = some i → Ends (.relaxedRecordExposed k n) s (fun u =>
      Recorded { code := 0x0304, p0 := i, p1 := n.toNat } u (fun v => v.write.exposedLd.getLsbD i = true ∧
        v.write.exposedCnt = satInc s.write.exposedCnt ∧ (s.host.lds[i]? = some (ldOf s i) → (k.val, n) ∈ (ldOf v i).exposedRec)))) ∧
    (∀ lln : BitVec 40, Works (.dirtyAgeLimit lln) s (fun u => u = updLoad (drainLine lln.toNat false b)))

/-- Links, lane groups, power states, GPF, decoders: a link comes up only at a width and rate its port has (R26 to R35, R45, R55, R56, R70,
R627). Rests in part on the model's choices of log entries 33 and 66. -/
def Obligations.LinkAndPortRows : Prop :=
  ∀ s : State, s.host.ports.length = 4 → s.host.lds.length = 64 →
    let b := begin s
    (∀ (p : Fin 4) (g : Fin 2), p.val / 2 = g.val → Ends (.perstAssert g) s (fun u => (portOf u p).up = false ∧ (portOf u p).perst = true ∧
      (portOf u p).ideKeys = [] ∧ (∀ r ∈ u.host.reqs, r.port ≠ p.val) ∧
      ∀ l : Fin 16, (ldOf u (16 * p.val + l.val)).decoders = List.replicate 4 {} ∧ (ldOf u (16 * p.val + l.val)).ranges = (ldOf s (16 * p.val + l.val)).ranges)) ∧
    (∀ (p : Fin 4) (g : Fin 2), p.val / 2 = g.val → Ends (.perstDeassert g) s (fun u => (portOf u p).perst = false ∧
      u.host.laneCfg.getLsbD g = ((optionArea s.sb.cells).getD 1 0).getLsbD g ∧ u.host.lds = s.host.lds)) ∧
    (∀ (p : Fin 4) (w r : BitVec 8) (f m : Bool),
      let can := portPresent s p = true ∧ (portOf s p).perst = false ∧ (portOf s p).refclk = true ∧ domainOn s 2 = true ∧
        (inService (ownState s (uPort p)) = true ∨ (readmitJob b (uPort p)).isSome = true) ∧
        1 ≤ w.toNat ∧ w.toNat ≤ portWidth s p ∧ r.toNat ∈ [8, 16, 32, 64]
      (can → Ends (.linkUp p w r f m) s (fun u => (portOf u p).up = true ∧ (portOf u p).width = w ∧ (portOf u p).rate = r ∧
        (portOf u p).flit256 = f ∧ (portOf u p).mld = m)) ∧
      (¬ can → Ends (.linkUp p w r f m) s (fun u => u = b))) ∧
    (∀ p : Fin 4, (portOf s p).up = true → Ends (.surpriseLinkDown p) s (fun u =>
      Recorded { code := 0x0801, unit := uPort p, p0 := (portOf s p).width.toNat, p1 := (portOf s p).rate.toNat, p2 := 2 } u (fun v =>
        (portOf v p).up = false ∧ (∀ r ∈ v.host.reqs, r.port ≠ p.val) ∧ ∀ l : Fin 16, (ldOf v (16 * p.val + l.val)).credits = 0))) ∧
    (∀ (p : Fin 4) (g : Fin 2), p.val / 2 = g.val → Ends (.refclkLoss g) s (fun u => (portOf u p).refclk = false ∧ (portOf u p).up = false)) ∧
    (∀ (p : Fin 4) (g : Fin 2), p.val / 2 = g.val → Ends (.refclkReturn g) s (fun u => (portOf u p).refclk = true ∧ u.host.lds = s.host.lds)) ∧
    (∀ (p : Fin 4) (l : Fin 16) (d : Bool), Ends (.powerStateChange p l d) s (fun u =>
      (ldOf u (16 * p.val + l.val)).d3hot = d ∧ ∀ j, j ≠ 16 * p.val + l.val → ldOf u j = ldOf s j)) ∧
    (∀ p : Fin 4, (portOf s p).ideActive = true → Ends (.ideIntegrityFailure p) s (fun u =>
      Recorded { code := 0x0801, unit := uPort p, p0 := (portOf s p).width.toNat, p1 := (portOf s p).rate.toNat, p2 := 4 } u (fun v =>
        (portOf v p).ideActive = false))) ∧
    (∀ p : Fin 4, (portOf s p).up = true → Ends (.gpfPhase1 p) s (fun u => u = { b with out := [.gpfAck p 1] })) ∧
    (∀ p : Fin 4, (portOf s p).up = true → Ends (.gpfPhase2 p) s (fun u => u = { b with
      host := { s.host with gpf := s.host.gpf ++ [(p.val, (s.host.reqs.filter (fun r => r.write)).map Req.id)] } })) ∧
    (∀ (p : Fin 4) (l : Fin 16) (dec : Fin 4) (base size : BitVec 64) (ways : BitVec 8) (gran : BitVec 16) (pos : BitVec 4) (skip : BitVec 46),
      let i := 16 * p.val + l.val
      ldExists s i = true → decoderOk ways.toNat gran.toNat = true → (portOf s p).flit256 = true → (ldOf s i).decoders.length = 4 →
      Ends (.hdmDecoderCommit p l dec base size ways gran pos skip) s (fun u => ∃ x, (ldOf u i).decoders[dec.val]? = some x ∧
        x.committed = true ∧ x.error = false ∧ x.base = base.toNat ∧ x.size = size.toNat ∧ x.ways = ways.toNat ∧ x.gran = gran.toNat ∧
        x.pos = pos.toNat ∧ (dec.val = 0 → x.dpaBase = skip.toNat) ∧ (ldOf u i).ranges = (ldOf s i).ranges)) ∧
    (∀ (p : Fin 4) (l : Fin 16) (dec : Fin 4) (base size : BitVec 64) (ways : BitVec 8) (gran : BitVec 16) (pos : BitVec 4) (skip : BitVec 46),
      let i := 16 * p.val + l.val
      ldExists s i = true → decoderOk ways.toNat gran.toNat = false → (ldOf s i).decoders.length = 4 →
      Ends (.hdmDecoderCommit p l dec base size ways gran pos skip) s (fun u => ∃ x, (ldOf u i).decoders[dec.val]? = some x ∧
        x.committed = false ∧ x.error = true))

/-- Reads, reference slots, suspension (R236, R241, R242, R246). Rests in part on the model's choices of log entries 21 and 71. -/
def Obligations.StackReadsAndSuspends : Prop :=
  ∀ (s : State) (ch : Fin 32) (p : Pkt),
    let k := bankKey ch p.die.toNat p.bank.toNat
    let b := bankOf s k
    let same : State → Prop := fun u => stackOf u ch = stackOf s ch ∧ u.media.lines = s.media.lines
    let held : List Int := (List.range 8).map (fun i => max (-127) (min 127 ((Config.dieTrim (8 * dieKey ch p.die.toNat + i)).toInt +
      ((b.slots.getD b.active.toNat 0).extractLsb' (8 * i) 8).toInt + b.shift.toInt)))
    let rd : StackRead := ⟨p.tag, p.block.toNat, p.addr.toNat, b.active, b.shift, held⟩
    (Accepted s ch 0x01 p →
      (readNow b.st = some true → Ends (.read ch p) s (fun u => same u ∧ OnlyBank s u k { b with running := b.running ++ [rd] })) ∧
      (readNow b.st = some false → Ends (.read ch p) s (fun u => same u ∧ OnlyBank s u k { b with deferred := b.deferred ++ [rd] })) ∧
      (readNow b.st = none → Ends (.read ch p) s (fun u => OnlyBank s u k b ∧
        Queued s u ch (eventFrame p.tag p.die p.bank 0x08 0x01 b.st p.addr.toNat)))) ∧
    (Accepted s ch 0x02 p → Ends (.refset ch p) s (fun u => same u ∧
      OnlyBank s u k { b with active := p.arg.extractLsb' 0 2, shift := p.arg.extractLsb' 2 6 })) ∧
    (Accepted s ch 0x03 p → ∀ d, Ends (.refload ch p d) s (fun u => same u ∧
      OnlyBank s u k { b with slots := lmod b.slots (p.arg.toNat % 4) (fun _ => d) })) ∧
    (Accepted s ch 0x21 p →
      (b.st = .programming ∨ b.st = .clearing → Ends (.susp ch p) s (fun u => same u ∧
        OnlyBank s u k { b with st := .suspending, suspTag := p.tag })) ∧
      (b.st = .idle ∨ b.st = .loading ∨ b.st = .held → Ends (.susp ch p) s (fun u => OnlyBank s u k b ∧
        Queued s u ch (eventFrame p.tag p.die p.bank 0x07 0x21 b.st 0))) ∧
      (b.st = .finishing → Ends (.susp ch p) s (fun u => same u ∧ OnlyBank s u k { b with suspNoopDue := true, suspTag := p.tag }))) ∧
    (Accepted s ch 0x22 p → b.resumeDue = false → b.running = [] →
      (b.st = .progSuspended → Ends (.resume ch p) s (fun u => same u ∧ OnlyBank s u k { b with st := .programming })) ∧
      (b.st = .clearSuspended → Ends (.resume ch p) s (fun u => same u ∧ OnlyBank s u k { b with st := .clearing }))) ∧
    (Accepted s ch 0x22 p → b.resumeDue = false → b.running ≠ [] → b.st = .progSuspended →
      Ends (.resume ch p) s (fun u => same u ∧ OnlyBank s u k { b with resumeDue := true })) ∧
    (∀ (die : Fin 16) (bank : Fin 8) (o : BankOp), dieResets s ch die = false → (bankOf s (bankKey ch die bank)).st = .suspending → (bankOf s (bankKey ch die bank)).op = some o →
      let x := bankOf s (bankKey ch die bank)
      let st : BState := if o.clear then .clearSuspended else .progSuspended
      Ends (.tsuspEnd ch die bank) s (fun u => OnlyBank s u (bankKey ch die bank) { x with st := st, running := x.running ++ x.deferred, deferred := [] } ∧
        Queued s u ch (eventFrame x.suspTag (BitVec.ofNat 4 die) (BitVec.ofNat 3 bank) 0x06 0x21 st 0))) ∧
    (∀ (tag : BitVec 7) (err : BitVec 640) (die bank : Nat) (r : StackRead), runningRead s ch tag = some (die, bank, r) →
      dieResets s ch die = false →
      let x := bankOf s (bankKey ch die bank)
      let left := x.running.filter (fun y => y.tag != tag)
      let frame : BState → MediaLine → RetFrame := fun st v =>
        mkFrame 0 tag (BitVec.ofNat 4 die) (BitVec.ofNat 3 bank) (BitVec.ofNat 4 (bsCode st)) (v.setWidth 1024)
      let answers : BankSt → State → Prop := fun y u => OnlyBank s u (bankKey ch die bank) y ∧ u.media.lines = s.media.lines ∧
        ∃ v, Queued s u ch (frame y.st v) ∧ ∀ w, lineAt s ch die bank r.block r.addr = .data w → v = w ^^^ err
      (x.resumeDue = false ∨ left ≠ [] → Ends (.treadEnd ch tag err) s (answers { x with running := left })) ∧
      (x.resumeDue = true → left = [] → x.st = .progSuspended →
        Ends (.treadEnd ch tag err) s (answers { x with running := left, resumeDue := false, st := .programming })) ∧
      (x.resumeDue = true → left = [] → x.st = .clearSuspended →
        Ends (.treadEnd ch tag err) s (answers { x with running := left, resumeDue := false, st := .clearing })))

/-- Programs and clears in a bank (R236 to R240, R244). Rests in part on the model's choices of log entry 71. -/
def Obligations.StackProgramsAndClears : Prop :=
  ∀ (s : State) (ch : Fin 32) (p : Pkt),
    let k := bankKey ch p.die.toNat p.bank.toNat
    let b := bankOf s k
    let blk := blockKey ch p.die.toNat p.bank.toNat p.block.toNat
    let same : State → Prop := fun u => stackOf u ch = stackOf s ch
    (Accepted s ch 0x10 p → b.st = .idle →
      (stampTakes s blk false = true → Ends (.prog ch p) s (fun u => same u ∧ u.media.lines = s.media.lines ∧
        OnlyBank s u k { b with st := .loading, op := some ⟨false, false, p.block.toNat, p.addr.toNat % 2048, p.tag, [], 0, 0, false⟩ })) ∧
      (stampTakes s blk false = false → Ends (.prog ch p) s (fun u => OnlyBank s u k b ∧
        Queued s u ch (eventFrame p.tag p.die p.bank 0x09 0x10 .idle 0)))) ∧
    (∀ (o : BankOp) (d : BitVec 1024), Accepted s ch 0x11 p → b.st = .loading → b.op = some o → p.arg.toNat % 64 < 40 →
      (sput o.bursts (p.arg.toNat % 64) d).length < 40 →
      Ends (.wdata ch p d) s (fun u => same u ∧ OnlyBank s u k { b with op := some { o with bursts := sput o.bursts (p.arg.toNat % 64) d } })) ∧
    (∀ (o : BankOp) (d : BitVec 1024), Accepted s ch 0x11 p → b.st = .loading → b.op = some o → p.arg.toNat % 64 < 40 →
      40 ≤ (sput o.bursts (p.arg.toNat % 64) d).length →
      Ends (.wdata ch p d) s (fun u => same u ∧ (bankOf u k).st = .programming ∧ ∀ j, j ≠ k → bankOf u j = bankOf s j)) ∧
    (∀ d : MediaLine, Accepted s ch 0x12 p → b.st = .idle → stampTakes s blk true = true → Ends (.fprog ch p d) s (fun u => same u ∧
      OnlyBank s u k { b with st := .programming, op := some ⟨false, true, p.block.toNat, p.addr.toNat, p.tag, [], d, 0, false⟩ } ∧
      lineAt u ch p.die.toNat p.bank.toNat p.block.toNat p.addr.toNat = .undef)) ∧
    (Accepted s ch 0x13 p → b.st = .held → Ends (.pfin ch p) s (fun u => same u ∧ u.media.lines = s.media.lines ∧
      OnlyBank s u k { b with st := .finishing, heldLate := false
                              op := b.op.map (fun o => { o with tag := p.tag, mode := o.mode || b.heldLate }) })) ∧
    (Accepted s ch 0x14 p → b.st = .loading ∨ b.st = .held ∨ b.st = .progSuspended → ∀ o, b.op = some o → o.clear = false →
      Ends (.pabort ch p) s (fun u => OnlyBank s u k { b with st := .idle, op := none, resumeDue := false, suspNoopDue := false, heldLate := false } ∧
        Queued s u ch (eventFrame p.tag p.die p.bank 0x0D 0x14 .idle o.addr) ∧ u.media.lines = s.media.lines)) ∧
    (∀ stamp, Accepted s ch 0x20 p → b.st = .idle → Ends (.clear ch p stamp) s (fun u => same u ∧ (stampOf u blk).valid = false ∧
      (stampOf u blk).ccount = (stampOf s blk).ccount ∧
      OnlyBank s u k { b with st := .clearing, op := some ⟨true, false, p.block.toNat, 0, p.tag, [], 0, stamp, p.arg.getLsbD 0⟩ })) ∧
    (∀ stamp, Accepted s ch 0x20 p → b.st ≠ .idle → Ends (.clear ch p stamp) s (fun u => OnlyBank s u k b ∧ u.media.stamps = s.media.stamps ∧
      Queued s u ch (eventFrame p.tag p.die p.bank 0x09 0x20 b.st 0)))

/-- The ends of a bank's operations; in a die that resets they come to nothing (R237, R239, R243, R244). -/
def Obligations.StackOperationsEnd : Prop :=
  ∀ (s : State) (ch : Fin 32) (die : Fin 16) (bank : Fin 8) (o : BankOp),
    let k := bankKey ch die bank
    let b := bankOf s k
    let blk := blockKey ch die bank o.block
    let ev := fun (tag : BitVec 7) (code op : Nat) (st : BState) (a : Nat) => eventFrame tag (BitVec.ofNat 4 die) (BitVec.ofNat 3 bank) code op st a
    (dieResets s ch die = true → ∀ (ok : Bool) (at_ : Option (BitVec 17)), Ends (.tpbodyEnd ch die bank) s (fun u => u = begin s) ∧
      Ends (.tpfinEnd ch die bank at_) s (fun u => u = begin s) ∧ Ends (.tclearEnd ch die bank ok) s (fun u => u = begin s) ∧
      Ends (.tsuspEnd ch die bank) s (fun u => u = begin s)) ∧
    (dieResets s ch die = false → b.op = some o →
    (b.st = .programming → o.clear = false → Ends (.tpbodyEnd ch die bank) s (fun u => OnlyBank s u k { b with st := .held } ∧
      Queued s u ch (ev o.tag 0x01 (if o.fast then 0x12 else 0x10) .held o.addr) ∧ u.media.lines = s.media.lines)) ∧
    (b.st = .finishing → o.clear = false → b.suspNoopDue = false → (∀ a ∈ s.evt.armed, a.point ≠ 0x0007) →
      Ends (.tpfinEnd ch die bank none) s (fun u => OnlyBank s u k { b with st := .idle, op := none, suspNoopDue := false } ∧
        Queued s u ch (ev o.tag 0x02 0x13 .idle o.addr) ∧
        (o.mode = true → u.media.lines = s.media.lines) ∧
        (o.mode = false → o.fast = true → lineAt u ch die bank o.block o.addr = .data o.line) ∧
        (o.mode = false → o.fast = false → ∀ i < 64, lineAt u ch die bank o.block (64 * o.addr + i) =
          .data (BitVec.ofNat 640 (o.bursts.foldl (fun a e => a + e.2.toNat <<< (1024 * e.1)) 0 >>> (640 * i)))))) ∧
    (b.st = .finishing → b.suspNoopDue = false → ∀ a : BitVec 17,
      Ends (.tpfinEnd ch die bank (some a)) s (fun u => OnlyBank s u k { b with st := .idle, op := none, suspNoopDue := false } ∧
        Queued s u ch (ev o.tag 0x03 0x13 .idle a.toNat) ∧ u.media.lines = s.media.lines)) ∧
    (b.st = .clearing → o.clear = true → Ends (.tclearEnd ch die bank true) s (fun u => OnlyBank s u k { b with st := .idle, op := none } ∧
      Queued s u ch (ev o.tag 0x04 0x20 .idle o.block) ∧
      stampOf u blk = { stamp := o.stamp, ccount := satInc (stampOf s blk).ccount, valid := true, fast := o.mode })) ∧
    (b.st = .clearing → o.clear = true → Ends (.tclearEnd ch die bank false) s (fun u => OnlyBank s u k { b with st := .idle, op := none } ∧
      Queued s u ch (ev o.tag 0x05 0x20 .idle o.block) ∧ u.media.stamps = s.media.stamps)))

/-- Information commands, features, retrieval, training, calibration, resets of a stack (R227, R231, R243, R245, R249, R255). Rests in part
on the model's choices of log entries 19 and 21. -/
def Obligations.StackInformationCommands : Prop :=
  ∀ (s : State) (ch : Fin 32) (p : Pkt),
    let k := bankKey ch p.die.toNat p.bank.toNat
    let info := fun (bs : List Byte) (u : State) => (stackOf u ch).ready = (stackOf s ch).ready ∧
      (stackOf u ch).pendInfo = (stackOf s ch).pendInfo ++ 
        [mkFrame 1 p.tag p.die p.bank (BitVec.ofNat 4 (bsCode (bankOf s k).st)) (infoPayload bs)] ∧
      u.media.banks = s.media.banks
    (Accepted s ch 0x30 p → Ends (.srd ch p) s (fun u => ∃ t, t = stampOf s (blockKey ch p.die.toNat p.bank.toNat p.block.toNat) ∧
      info (bytesOf 8 t.stamp.toNat ++ bytesOf 4 t.ccount.toNat ++
        [BitVec.ofNat 8 (b2n t.valid + 2 * b2n t.fast + 4 * b2n (decide (200000 ≤ t.ccount.toNat))), 0]) u)) ∧
    (Accepted s ch 0x31 p → Ends (.status ch p) s (fun u => ∃ n : Byte, info ((List.range 8).map (fun i =>
      BitVec.ofNat 8 (bsCode (bankOf s (bankKey ch p.die.toNat i)).st)) ++ [BitVec.ofNat 8 (b2n ((stackOf s ch).faults.contains p.die.toNat)), n]) u)) ∧
    (Accepted s ch 0x32 p → Ends (.temp ch p) s (fun u => ∃ t : BitVec 16, info (bytesOf 2 t.toNat ++ [BitVec.ofNat 8 (p.arg.toNat % 2)]) u)) ∧
    (Accepted s ch 0x33 p → Ends (.ident ch p) s (fun u => ∃ rev : Byte,
      info (bytesOf 2 0x4D4D ++ bytesOf 2 0x0016 ++ [rev, 8] ++ bytesOf 2 6144 ++ bytesOf 3 65600 ++ bytesOf 2 21866) u)) ∧
    (Accepted s ch 0x34 p → p.arg.toNat = 4 → Ends (.getf ch p) s
      (info [4, BitVec.ofNat 8 (sget 95 (stackOf s ch).therm p.die.toNat).toNat])) ∧
    (∀ (tag : BitVec 7) (f : RetFrame), (stackOf s ch).pendInfo.find? (fun f => f.tag == tag) = some f → Ends (.tinfoEnd ch tag) s (fun u =>
      Queued s u ch (mkFrame f.kind f.tag f.die f.bank (BitVec.ofNat 4 (bsCode (bankOf s (bankKey ch f.die.toNat f.bank.toNat)).st)) f.payload) ∧ (stackOf u ch).pendInfo = (stackOf s ch).pendInfo.filter (fun x => x.tag != tag))) ∧
    (Accepted s ch 0x38 p → p.arg.getLsbD 0 = false → ∀ f rest, (stackOf s ch).ready = f :: rest → Ends (.rdout ch p) s (fun u =>
      (stackOf u ch).ready = rest ∧ (stackOf u ch).last = some f ∧ u.out = [.frame ch f])) ∧
    (Accepted s ch 0x38 p → p.arg.getLsbD 0 = false → (stackOf s ch).ready = [] → Ends (.rdout ch p) s (fun u => u.out = [.frame ch (mkFrame 4 127 0 0 0 0)])) ∧
    (Accepted s ch 0x38 p → p.arg.getLsbD 0 = true → ∀ f, (stackOf s ch).last = some f → Ends (.rdout ch p) s (fun u => u = { begin s with out := [.frame ch f] })) ∧
    (Accepted s ch 0x43 p → Ends (.rdpat ch p) s (fun u => (stackOf u ch).pendInfo = (stackOf s ch).pendInfo ++
      [mkFrame 3 p.tag p.die p.bank (BitVec.ofNat 4 (bsCode (bankOf s k).st)) (stackOf s ch).train]))

/-- Settings of a stack (R227, R243, R249). Rests in part on the model's choices of log entry 70. -/
def Obligations.StackSettingsAndResets : Prop :=
  ∀ (s : State) (ch : Fin 32) (p : Pkt),
    let x := stackOf s ch
    let only : Stack → State → Prop := fun y u => stackOf u ch = y ∧ (∀ c, c ≠ ch.val → stackOf u c = stackOf s c) ∧ u.media.banks = s.media.banks ∧
      u.media.lines = s.media.lines
    (Accepted s ch 0x35 p →
      (p.arg = 0 → Ends (.setf ch p) s (only { x with fullRate := p.addr.getLsbD 0 })) ∧
      (p.arg = 1 → Ends (.setf ch p) s (only { x with drive := BitVec.ofNat 8 p.addr.toNat })) ∧
      (p.arg = 4 → Ends (.setf ch p) s (fun u => sget 95 (stackOf u ch).therm p.die.toNat = BitVec.ofNat 8 p.addr.toNat))) ∧
    (Accepted s ch 0x40 p → p.arg.getLsbD 0 = false →
      Ends (.zqcal ch p) s (only { x with zqRunning := true, zqReady := false, zqLatched := false })) ∧
    (Accepted s ch 0x40 p → p.arg.getLsbD 0 = true → x.zqReady = true →
      Ends (.zqcal ch p) s (only { x with zqReady := false, zqLatched := true })) ∧
    (Accepted s ch 0x41 p → Ends (.catrain ch p) s (only { x with catrain := p.arg.getLsbD 0 })) ∧
    (∀ d, Accepted s ch 0x42 p → Ends (.wrpat ch p d) s (only { x with train := d })) ∧
    (Accepted s ch 0x7F p → p.die.toNat ∉ x.resetting → Ends (.dreset ch p) s (only { x with resetting := x.resetting ++ [p.die.toNat] })) ∧
    (∀ op : Byte, Accepted s ch op.toNat p → knownOp op.toNat = false → Ends (.mediaUnknownOpcode ch op p) s (fun u =>
      Queued s u ch (eventFrame p.tag p.die p.bank 0x09 op.toNat (bankOf s (bankKey ch p.die.toNat p.bank.toNat)).st 0) ∧
      u.media.banks = s.media.banks)) ∧
    (x.zqRunning = true → Works (.tzqEnd ch) s (fun u => (stackOf u ch).zqRunning = false ∧ (stackOf u ch).zqReady = true)) ∧
    (x.powered = true → x.mreset = true → x.accepting = false → Ends (.tinitEnd ch) s (fun u => (stackOf u ch).accepting = true ∧
      (stackOf u ch).fullRate = false ∧ (stackOf u ch).faults = [])) ∧
    (∀ die : Fin 16, die.val ∈ x.resetting → Works (.tdrstEnd ch die true) s (fun u =>
      die.val ∉ (stackOf u ch).resetting ∧ die.val ∉ (stackOf u ch).faults ∧
      ∀ bank : Fin 8, (bankOf u (bankKey ch die bank)).st = .idle ∧ (bankOf u (bankKey ch die bank)).op = none ∧
        (bankOf u (bankKey ch die bank)).running = [])) ∧
    (∀ die : Fin 16, die.val ∉ x.resetting → ∀ c, Ends (.tdrstEnd ch die c) s (fun u => u = begin s))

/-- A packet whose CHK or group select does not hold is discarded with CA_CHECK, whatever it asks (R225, R226). A frame that fails its
checks once is counted and asked for again; nothing else happens (R232, R256). -/
def Obligations.SpoiledPacketsAndFramesAreRepeated : Prop :=
  (∀ (s : State) (ch : Fin 32) (p : Pkt), takesPackets s ch = true → p.cs ≠ 3 → isArmed s 0x0008 (0x200000 + ch) = false →
     (stackOf s ch).catrain = false →
     let bad := fun op : Nat => pktXor op p ≠ p.chk.toNat ∨ selectBad op p = true
     let drops := fun (op : Nat) (u : State) => u.media.banks = s.media.banks ∧ u.media.lines = s.media.lines ∧ u.media.stamps = s.media.stamps ∧
       Queued s u ch (eventFrame p.tag p.die p.bank 0x0A op (bankOf s (bankKey ch p.die.toNat p.bank.toNat)).st (pktHigh p))
     (bad 0x01 → Ends (.read ch p) s (drops 0x01)) ∧ (bad 0x10 → Ends (.prog ch p) s (drops 0x10)) ∧
     (∀ d, bad 0x12 → Ends (.fprog ch p d) s (drops 0x12)) ∧ (bad 0x14 → Ends (.pabort ch p) s (drops 0x14)) ∧
     (∀ d, bad 0x20 → Ends (.clear ch p d) s (drops 0x20)) ∧ (bad 0x21 → Ends (.susp ch p) s (drops 0x21)) ∧
     (bad 0x22 → Ends (.resume ch p) s (drops 0x22)) ∧ (bad 0x35 → Ends (.setf ch p) s (drops 0x35)) ∧
     (bad 0x38 → Ends (.rdout ch p) s (drops 0x38)) ∧ (bad 0x7F → Ends (.dreset ch p) s (drops 0x7F))) ∧
  (∀ (s : State) (ch : Fin 32) (h : FrameHdr), (cartOf s ch).repeatDue = false → isArmed s 0x0009 (uChannel ch) = false →
     let again := fun (i : Instr) (kind : Nat) => crc8 (hdrNums kind h) ≠ h.hcrc.toNat → Works i s (fun u =>
       (cartOf u ch).frameErr = satInc (cartOf s ch).frameErr ∧ (cartOf u ch).repeatDue = true ∧ (cartOf u ch).rdout = some true ∧
       (cartOf u ch).outst = (cartOf s ch).outst ∧ (cartOf u ch).running = (cartOf s ch).running ∧ u.media.mreads = s.media.mreads ∧
       u.out = [])
     again (.emptyFrame ch h) 4 ∧ (∀ l, again (.lineFrame ch h l) 0) ∧ (∀ p, again (.infoFrame ch h p) 1) ∧ (∀ p a b m, again (.patternFrame ch h p a b m) 3) ∧
     (∀ p, again (.progHeld ch h p) 2 ∧ again (.progDone ch h p) 2 ∧ again (.progFail ch h p) 2 ∧ again (.clearDone ch h p) 2 ∧
       again (.clearFail ch h p) 2 ∧ again (.suspended ch h p) 2 ∧ again (.suspNoop ch h p) 2 ∧ again (.readDenied ch h p) 2 ∧
       again (.illegal ch h p) 2 ∧ again (.caCheck ch h p) 2 ∧ again (.dieFault ch h p) 2 ∧ again (.paborted ch h p) 2))

/-- Good frames of lines, information and patterns, and empty frames (R231, R250 to R256). Rests in part on the model's choices of log entry
20. -/
def Obligations.FramesAreHandedOn : Prop :=
  ∀ (s : State) (ch : Fin 32) (h : FrameHdr) (line : MediaLine) (pay : BitVec 128) (pat : BitVec 1024) (c0 c1 m : Byte),
    let f := framed ch s
    let raw := (cartOf s ch).raws.find? (fun r => r.1 == h.tag)
    let answered := setCart ch (fun c => { c with raws := c.raws.filter (fun r => r.1 != h.tag) }) f
    (GoodFrame s ch 0 h true →
      (outRead s ch h.tag = none → Works (.lineFrame ch h line) s (fun u => u = nextFrame ch (dropStale ch h.tag f))) ∧
      (∀ r, outRead s ch h.tag = some r → isArmed s 0x0015 (uDie (dieKey ch r.die)) = false →
        (∀ l n, bchDecode line = some (l, n) → Works (.lineFrame ch h line) s (fun u =>
          u = nextFrame ch (readAnswered ch r (.good l n) (dropOut ch h.tag f)))) ∧
        (bchDecode line = none → Works (.lineFrame ch h line) s (fun u =>
          u = nextFrame ch (readAnswered ch r .failed (dropOut ch h.tag f)))))) ∧
    (GoodFrame s ch 1 h (payOk pay) →
      (raw = none → Works (.infoFrame ch h pay) s (fun u => u = nextFrame ch f)) ∧
      (∀ t die, raw = some (t, 2 + 16 * die) → Works (.infoFrame ch h pay) s (fun u =>
        u = nextFrame ch { answered with mm := { answered.mm with
          dieTemp := sset 0 s.mm.dieTemp (dieKey ch die) (pay.extractLsb' 0 16) } }))) ∧
    (GoodFrame s ch 3 h true →
      (raw = none → Works (.patternFrame ch h pat c0 c1 m) s (fun u => u = nextFrame ch f)) ∧
      (∀ t die, raw = some (t, 5 + 16 * die) → 64 ≤ 5 * m.toNat → Works (.patternFrame ch h pat c0 c1 m) s (fun u =>
        u = nextFrame ch (setCart ch (fun c => { c with dqs0 := oneTap c.dqs0 c0, dqs1 := oneTap c.dqs1 c1 }) answered))) ∧
      (∀ t die, raw = some (t, 6 + 16 * die) → (cartOf s ch).trainStep = 7 → 64 ≤ 5 * m.toNat →
        Works (.patternFrame ch h pat c0 c1 m) s (fun u => (cartOf u ch).trainStep = 8 ∧ (cartOf u ch).dqs0 = c0 ∧ (cartOf u ch).dqs1 = c1)) ∧
      (∀ t die, raw = some (t, 6 + 16 * die) → (cartOf s ch).trainStep = 7 → 5 * m.toNat < 64 → (cartOf s ch).trainRetry = false →
        Works (.patternFrame ch h pat c0 c1 m) s (fun u => (cartOf u ch).trainStep = 7 ∧ (cartOf u ch).trainRetry = true))) ∧
    (GoodFrame s ch 4 h true →
      let asks : State → Prop := fun u => (cartOf u ch).rdout = some false ∧ (cartOf u ch).repeatDue = false ∧ u.out = []
      (malertLow s ch = true → (cartOf s ch).emptyRun < 15 → Works (.emptyFrame ch h) s (fun u =>
        (cartOf u ch).emptyRun = (cartOf s ch).emptyRun + 1 ∧ asks u)) ∧
      (malertLow s ch = false → Works (.emptyFrame ch h) s (fun u => (cartOf u ch).emptyRun = 0 ∧ asks u)) ∧
      (malertLow s ch = true → (cartOf s ch).emptyRun = 15 →
        Works (.emptyFrame ch h) s (fun u => ∃ v, u = trainFail ch 0 (event { code := 0x020C, unit := uChannel ch, p0 := 0x82, p1 := h.die.toNat } v) ∧
          (cartOf v ch).emptyRun = 0))) ∧
    Works (.malertN ch) s (fun u => u = setCart ch (fun c => { c with rdout := some false }) (begin s)) ∧
    ((cartOf s ch).trainStep = 9 → Works (.mediaPllLock ch) s (fun u => ∃ v, u = trainCa ch 16 false v ∧ (cartOf v ch).fullRate = true ∧
      (stackOf v ch).pllLocked = true ∧ v.out = [])) ∧
    ((cartOf s ch).trainStep ≠ 9 → Ends (.mediaPllLock ch) s (fun u => u = begin s))

/-- Good event frames: the sequencer follows the program, clear or read of the event's tag (R236, R240, R256, R289, R291, R312). Rests in
part on the model's choices of log entry 21. -/
def Obligations.EventFramesAreFollowed : Prop :=
  ∀ (s : State) (ch : Fin 32) (h : FrameHdr) (pay : BitVec 128), GoodFrame s ch 2 h (payOk pay) →
    let f := if payByte pay 0 = 1 then framed ch s else dropStale ch h.tag (framed ch s)
    let acts := fun (i : Instr) (v : State) => Works i s (fun u => u = nextFrame ch v)
    let place := opAt s ch h.die.toNat h.bank.toNat
    acts (.progHeld ch h pay) (setCart ch (fun c => { c with running := c.running.map (fun p =>
      if p.tag = h.tag ∧ p.phase = .busy then { p with phase := .held, heldSince := s.time.ftime } else p) }) f) ∧
    (runningProg s ch h.tag = none → acts (.progDone ch h pay) f ∧ acts (.clearDone ch h pay) f) ∧
    (∀ p, runningProg s ch h.tag = some p →
      (∀ l, p.purpose = .drain l → acts (.progDone ch h pay) (drainNext l (dropRun ch p f))) ∧
      (∀ l c, p.purpose = .fill l c → acts (.progDone ch h pay) (moveDone l c (dropRun ch p f))) ∧
      (∀ b m x, p.purpose = .page b m x → acts (.progDone ch h pay) (pageDone b m x (dropRun ch p f))) ∧
      (∀ b m, p.purpose = .clear b m → acts (.clearDone ch h pay) (clearEnded b m (dropRun ch p f)))) ∧
    (let failed := fun (g : State) => match runningProg s ch h.tag with
        | none => g
        | some p => progFailed ch p g
     acts (.progFail ch h pay) (failed (setCart ch (fun c => { c with pfail := satInc c.pfail }) f)) ∧
     acts (.clearFail ch h pay) (failed (setCart ch (fun c => { c with cfail := satInc c.cfail }) f))) ∧
    acts (.suspended ch h pay) f ∧
    acts (.thermAlert ch h pay) (alertSample ch (BitVec.ofNat 16 (payParam pay)) f) ∧
    acts (.suspNoop ch h pay) (setCart ch (fun c => { c with
      suspended := c.suspended.filter (fun p => p != (h.die.toNat, h.bank.toNat)) }) f) ∧
    (outRead s ch h.tag = none → acts (.readDenied ch h pay) f ∧ (runningProg s ch h.tag = none → acts (.illegal ch h pay) f)) ∧
    (∀ r, outRead s ch h.tag = some r → acts (.illegal ch h pay) (readAnswered ch r .silent (dropOut ch h.tag f)) ∧
      (∀ rid key, r.purpose = .rd rid key → acts (.readDenied ch h pay) (readLineRes rid key r.step .denied (dropOut ch h.tag f))) ∧
      ((∀ rid key, r.purpose ≠ .rd rid key) → acts (.readDenied ch h pay) (askRead ch r (dropOut ch h.tag f)))) ∧
    (∀ p, outRead s ch h.tag = none → runningProg s ch h.tag = some p → acts (.illegal ch h pay) (progFailed ch p f)) ∧
    (((cartOf s ch).caTimes.filter (fun t => Nat.ble (s.time.ftime.toNat - t.toNat) 1000000)).length < 2 →
      Works (.caCheck ch h pay) s (fun u => (cartOf u ch).caCheck = satInc (cartOf s ch).caCheck ∧
        (cartOf u ch).caTimes = (cartOf s ch).caTimes.filter (fun t => Nat.ble (s.time.ftime.toNat - t.toNat) 1000000) ++ [s.time.ftime])) ∧
    (sfind (cartOf s ch).faultAt h.die.toNat = none → Works (.dieFault ch h pay) s (fun u =>
      Out.packet ch 0x7F (mkPkt 0x7F h.die.toNat 0 0 0 127 0) ∈ u.out)) ∧
    (place = none → acts (.paborted ch h pay) f) ∧
    (∀ p, place = some p → (∀ l, p.purpose = .drain l → acts (.paborted ch h pay) (drainRetry l (dropRun ch p f))) ∧
      (∀ l c, p.purpose = .fill l c → acts (.paborted ch h pay) (moveLost l c (dropRun ch p f))) ∧
      (∀ b m x, p.purpose = .page b m x → acts (.paborted ch h pay) (match liveBatch (dropRun ch p f) b with
        | some g => abandonBatch g 2 (some (blockKey ch p.die p.bank p.block)) (dropRun ch p f)
        | none => dropRun ch p f)) ∧
      (∀ b m, p.purpose = .clear b m → acts (.paborted ch h pay) (dropRun ch p f)))

/-- The timers of a channel (R240, R251, R252, R253, R256, R419). Rests in part on the model's choices of log entry 6. -/
def Obligations.ChannelTimersAct : Prop :=
  ∀ (s : State) (ch : Fin 32) (tag : BitVec 7) (die : Fin 16) (bank : Fin 8),
    let place := opAt s ch die bank
    let idle := fun (i : Instr) => Ends i s (fun u => u = begin s)
    let k := bankKey ch die bank
    let late : State := if (bankOf s k).st = .held then setBank k (fun b => { b with heldLate := true }) (begin s) else begin s
    (∀ r, outRead s ch tag = some r → Works (.readTimeout ch tag) s (fun u => ∃ v, u = readAnswered ch r .silent v ∧
      outRead v ch tag = none ∧ v.media.mreads = s.media.mreads)) ∧
    (outRead s ch tag = none → (cartOf s ch).raws.find? (fun r => r.1 == tag) = none → idle (.readTimeout ch tag)) ∧
    (∀ p, place = some p → p.phase = .held →
      Ends (.holdLimit ch die bank) s (fun u => u = { late with out := [.packet ch 0x14 (mkPkt 0x14 die bank 0 0 p.tag 0)] }) ∧
      (((cartOf s ch).reads.filter (fun r => r.host && r.die == die.val && r.bank == bank.val)) = [] →
        Works (.heldReadReroute ch die bank) s (fun u => u.tt = s.tt ∧ u.out = [] ∧ u.media.mreads = s.media.mreads)) ∧
      (∀ r rid key, (cartOf s ch).reads.filter (fun r => r.host && r.die == die.val && r.bank == bank.val) = [r] → r.purpose = .rd rid key →
        Works (.heldReadReroute ch die bank) s (fun u => ∃ v, u = readLineRes rid key r.step .denied v ∧ v.tt = { s.tt with rerouted := satInc s.tt.rerouted } ∧
          (cartOf v ch).reads = (cartOf s ch).reads.filter (fun r => !(r.host && r.die == die.val && r.bank == bank.val))))) ∧
    ((∀ p, place = some p → p.phase ≠ .held) → Ends (.holdLimit ch die bank) s (fun u => u = late) ∧ idle (.heldReadReroute ch die bank)) ∧
    (inTraining s ch = true → Works (.channelTrainTimeout ch) s (fun u => u = trainFail ch (cartOf s ch).trainStep (begin s))) ∧
    (inTraining s ch = false → idle (.channelTrainTimeout ch)) ∧
    ((cartOf s ch).trained = true → Ends (.zqcalTimer ch) s (fun u => u = { begin s with out := [.packet ch 0x40 (mkPkt 0x40 0 0 0 0 127 0)] })) ∧
    ((cartOf s ch).trained = false → idle (.zqcalTimer ch))

/-- A unit command that nothing refuses starts its job; a rail is not readmitted while the device shuts down (R444, R470 to R473, R567). Rests in part on the model's choices of log entry 17. -/
def Obligations.UnitCommandsStartJobs : Prop :=
  ∀ (s : State) (c : Caller) (inp : List Byte), Heard c inp s false false true false 4 → s.unit.running.length < 64 →
    let u := unitIn inp
    let w := BitVec.ofNat 24 u
    let id := s.unit.nextJob.toNat
    let ok := fun (o : UnitOp) (destr : Bool) => unitEarly o destr u (begin s) = none ∧ unitLate o destr c u (begin s) = none
    let job := fun (op : Nat) (k : JobKind) => (startJob op c k (begin s)).2
    let planned := fun (v : State) => if isPlanned u then addRemoval u id v else v
    (∀ destr : Bool, 5 ≤ inp.length → field inp 4 1 = b2n destr → ok .test destr →
      let v := job 0xC102 (.unitTest w destr (ownState s u))
      Works (.unitTest c inp) s (Told c 1 id (if ownState s u = .bypassed ∨ ownState s u = .isolated then setUnit u .testing 1 false v else v))) ∧
    (ok .bypass false → Works (.unitBypass c inp) s (Told c 1 id (planned (job 0xC103 (.unitBypass w))))) ∧
    (ok .isolate false → Works (.unitIsolate c inp) s (Told c 1 id (planned (job 0xC104 (.unitIsolate w))))) ∧
    (ok .readmit false → uClass u ≠ 8 ∨ s.power.seq ≠ .shuttingDown →
      Works (.unitReadmit c inp) s (Told c 1 id (readmitBegin u (job 0xC105 (.unitReadmit w))))) ∧
    (ok .readmit false → uClass u = 8 → s.power.seq = .shuttingDown →
      Works (.unitReadmit c inp) s (Told c 1 id (endJob s.unit.nextJob 0x0301 (job 0xC105 (.unitReadmit w))))) ∧
    (ok .retire false → Works (.unitRetire c inp) s (Told c 1 id (let v := job 0xC106 (.unitRetire w)
      if uClass u = 8 then addRemoval u id v else v)))

/-- The rows that end the jobs of units (R444, R471 to R473, R671), and a unit without work that becomes Idle (R467). Rests in part on the
model's choices of log entries 6 and 17. -/
def Obligations.UnitRowsEndJobs : Prop :=
  ∀ (s : State) (id : BitVec 16) (unit : BitVec 24) (peer : BitVec 9),
    let idle := fun (i : Instr) => Ends i s (fun u => u = begin s)
    let job := s.unit.running.find? (fun j => j.id == id)
    (job = none → (∀ ok, idle (.jobEnd id ok)) ∧ idle (.unitTestTimeout id) ∧ idle (.peerCommandTimeout id peer)) ∧
    (∀ j, job = some j →
      (∀ w d b, j.kind = .unitTest w d b →
        (∀ ok, Works (.jobEnd id ok) s (fun u => u = testEnds id w.toNat d b ok (begin s))) ∧
        Ends (.unitTestTimeout id) s (fun u => u = endJob id 0x0301 (let t := setTest w.toNat 3 0 d (begin s)
          if ownState t w.toNat = .testing then setUnit w.toNat b 9 false t else t))) ∧
      (∀ w, j.kind = .unitBypass w → isPlanned w.toNat = false →
        Ends (.jobEnd id true) s (fun u => u = endJob id 0 (unitLeaves w.toNat .bypassed (begin s))) ∧
        Ends (.jobEnd id false) s (fun u => u = endJob id 0x0301 (begin s))) ∧
      (∀ w, j.kind = .unitIsolate w → isPlanned w.toNat = false →
        Works (.jobEnd id true) s (fun u => u = endJob id 0 (unitLeaves w.toNat .isolated (begin s))) ∧
        Works (.jobEnd id false) s (fun u => u = endJob id 0x0301 (begin s))) ∧
      (∀ w, j.kind = .unitRetire w → uClass w.toNat ≠ 8 →
        Works (.jobEnd id true) s (fun u => u = endJob id 0 (setUnit w.toNat .retired 1 false (begin s))) ∧
        Works (.jobEnd id false) s (fun u => u = endJob id 0x0301 (begin s))) ∧
      (∀ w, j.kind = .unitReadmit w → uClass w.toNat ∈ [5, 7, 9] →
        Ends (.jobEnd id true) s (fun u => u = endJob id 0 (unitReturns w.toNat (begin s))) ∧
        Ends (.jobEnd id false) s (fun u => u = endJob id 0x0301 (begin s))) ∧
      ((j.kind = .spanJoin ∨ j.kind = .remount ∨ j.kind = .spanLeave ∨ ∃ i p, j.kind = .keyTransfer i p) →
        Ends (.peerCommandTimeout id peer) s (fun u => u = endJob id 0x0401 (begin s)))) ∧
    (s.tt.removals.any (fun r => r.job == some id && !r.admitted) = true → Ends (.plannedRemovalTimeout id) s (fun u =>
      u = endJob id 0x0101 { begin s with tt := { s.tt with removals := s.tt.removals.filter (fun r => r.job != some id) } })) ∧
    (s.tt.removals.any (fun r => r.job == some id && !r.admitted) = false → idle (.plannedRemovalTimeout id)) ∧
    (idleFree s unit.toNat = true → unitPresent s unit.toNat = true → ownState s unit.toNat = .ready →
      Ends (.unitIdleEntry unit) s (fun u => u = setUnit unit.toNat .idle 0 false (begin s))) ∧
    (ownState s unit.toNat ≠ .ready → idle (.unitIdleEntry unit))

/-- The commands for frames and caches (R121, R216 to R218, R297, R353), and an opcode that is none (R440). Rests in part on the model's
choices of log entries 63 and 87. -/
def Obligations.FrameCommandsAct : Prop :=
  ∀ (s : State) (c : Caller) (inp : List Byte), s.unit.running.length < 64 →
    let id := s.unit.nextJob.toNat
    let f := frameIn inp
    (∀ opcode : BitVec 16, Heard c inp s true true false false 0 →
      Ends (.unknownVendorOpcode c opcode inp) s (Replies c s (reply 0x0203 0 []))) ∧
    (∀ l, Heard c inp s true false false false 12 → inputLfn s c inp = some l → framesReady s = true → s.span.desc = none → s.xlat.restoring.contains l = false →
      pinJob s l = none →
      (f.op = 0 → ftMode (ftEntry s l) = mDense ∨ ftMode (ftEntry s l) = mFast →
        Works (.framePin c inp) s (Told c 0 0 (setPinned l false (begin s)))) ∧
      (f.op = 1 → ftMode (ftEntry s l) = mFast → Works (.framePin c inp) s (Told c 0 0 (setPinned l true (begin s)))) ∧
      (f.op = 1 → ftMode (ftEntry s l) = mDense → s.xlat.fastResMin.toNat < freeSets s →
        Works (.framePin c inp) s (Told c 1 id (startPromotion l true (some s.unit.nextJob) (startJob 0xC201 c (.pin l) (begin s)).2)))) ∧
    (∀ i, Heard c inp s true false false false 4 → discardEarly c inp (begin s) = none → framesReady s = true → ldNamed s c (field inp 0 1) = some i →
      let ls := discardLfns (begin s) i (discardRanges inp)
      let t := ls.foldl (fun s l => emptyFrame l mDiscarded s) (begin s)
      (ls.any (zeroPending t) = false → Works (.frameDiscard c inp) s (fun u => ∃ w, Told c 0 0 t w ∧ u = updLoad w)) ∧
      (ls.any (zeroPending t) = true → t.unit.running.length < 64 →
        Works (.frameDiscard c inp) s (fun u => ∃ w, Told c 1 t.unit.nextJob.toNat (startJob 0xC202 c (.discard ls) t).2 w ∧ u = updLoad w))) ∧
    (∀ scope, Heard c inp s true false false false 12 → cacheEarly c inp (begin s) = none → cacheLate c inp (begin s) = none → cacheScope (begin s) c f = some scope →
      let lines := ((dirtyLlns (begin s)).filter (fun l => scope.any (fun r => Nat.ble r.1 (lfnOf l) && Nat.blt (lfnOf l) (r.1 + r.2)))).flatMap
        (flushLines (begin s))
      let leaves := fun (op : Nat) (inval : Bool) => lines.foldl (fun s l => drainLine l true s) (startJob op c (.flush lines inval scope) (begin s)).2
      Works (.cacheFlush c inp) s (fun u => ∃ w, Told c 1 id (leaves 0xC203 false) w ∧ u = updLoad (flushJobs none w)) ∧
      Works (.cacheInvalidate c inp) s (fun u => ∃ w, Told c 1 id (leaves 0xC204 true) w ∧ u = updLoad (flushJobs none w)))

/-- The commands of a span, and the transfer of an LD key (R354, R385, R388 to R390, R451, R452, R616). Rests in part on the model's choices
of log entry 47. -/
def Obligations.SpanCommandsAct : Prop :=
  ∀ (s : State) (c : Caller) (inp : List Byte), s.unit.running.length < 64 → sbCanStart s = true →
    let id := s.unit.nextJob.toNat
    let d := descIn inp
    let ran1 := fun rs => (sbCommand (begin s) rs).2
    (Heard c inp s false false false true 60 → descEarly inp s = none → spanJob s = none →
      (∀ r, s.span.desc = none → ownRole s = 1 → placeIn s d = some r → storedSgen s < d.sgen.toNat → framesReady s = true →
        parityFree s d r = true → Works (.spanJoin c inp) s (Told c 1 id (startJob 0xC303 c .spanJoin
          (allModes .relaxed (dropMoves (enterSpan d r psJoining (ran1 [.ring 0x41 0 (spanDescBytes d ++ bytesOf 1 psJoining)]))))).2)) ∧
      (∀ o, s.span.desc = some o → d.span = o.span → d.k = o.k → d.m = o.m → d.f = o.f → o.sgen.toNat < d.sgen.toNat →
        placeIn s d = some (ownIndex s) → Works (.spanUpdate c inp) s (fun u => ∃ v, Told c 0 0 v u ∧ v.span.desc = some d ∧
          v.span.own = s.span.own ∧ v.span.spanState = s.span.spanState ∧ (∀ r, r < spanN s →
            memberPool s r = (d.members.getD r 0xFFFF).toNat % 512 → sfind v.span.aliases r = sfind s.span.aliases r ∧ peerOf v r = peerOf s r)))) ∧
    (∀ r, Heard c inp s false false false true 61 → descEarly inp s = none → spanJob s = none → field inp 60 1 = r → r < (d.k + d.m).toNat →
      s.span.desc = none → framesReady s = true → (∀ e ∈ s.xlat.ft, ftMode e.2 = mUnmapped) → ownRole s = 3 → placeIn s d = some r →
      Works (.remountBind c inp) s (fun u => ∃ w, Told c 1 id (startJob 0xC305 c .remount w).2 u ∧ w.span.desc = some (raiseSgen s d) ∧
        w.span.own = BitVec.ofNat 4 r ∧ (∀ i, i < 64 → i < s.host.lds.length → (ldOf w i).mode = .relaxed))) ∧
    (Heard c inp s false false false true 0 → spanJob s = none →
      (s.span.spanState = 1 ∨ (s.span.desc.isSome = true ∧ (peerOf s (ownIndex s)).st.toNat = psUnhitched)) →
      Works (.spanLeave c inp) s (fun u => ∃ w, Told c 1 id (startJob 0xC306 c .spanLeave (ran1 [.ring 0x41 0 (noDescBytes s)])).2 w ∧
        u = updLoad (endJob s.unit.nextJob 0 (leaveSpan w)))) ∧
    (Heard c inp s false false false true 1 → spanJob s = none → s.span.desc.isSome = true →
      (peerOf s (ownIndex s)).st.toNat = psJoining ∨ (peerOf s (ownIndex s)).st.toNat = psLive →
      Works (.unhitchRequest c inp) s (fun u => ∃ w, Told c 0 0 (begin s) w ∧ u = unhitch (field inp 0 1) w)) ∧
    (∀ i, Heard c inp s false false false true 4 → ldNamed s c (field inp 0 1) = some i → field inp 2 2 ≤ 511 → holdsKeyFor s (field inp 2 2) i = true →
      Ends (.ldKeyTransfer c inp) s (fun u => ∃ w, Told c 1 id (startJob 0xC706 c (.keyTransfer i (field inp 2 2)) (begin s)).2 w ∧
        u = serveKey (field inp 2 2) i w))

/-- Block and word mailboxes (R478 to R482): a message offered to an idle mailbox is answered; one offered to a busy one is ignored. The
host path's reply read, the sideband's dwords, and an access that is not accepted (R479, R480, R483). Rests in part on the model's choices
of log entry 42. -/
def Obligations.MailboxesAnswer : Prop :=
  (∀ (s : State) (slot : Fin 6) (ch : Fin 32) (q : Fin 4) (x : CmbMsg) (y : QmbMsg) (err : BitVec 640),
     (mbBlocked s slot (uChannel ch) = none →
       let a := wakeUnit (uChannel ch) (begin s)
       let answers := fun (msg n result : Nat) (ws : List Word) (u : State) =>
         (cmbOf u slot ch).go = false ∧ (cmbOf u slot ch).result.toNat = result ∧
         (cmbOf u slot ch).data.getD 0 0 = BitVec.ofNat 32 (msg + n * 2 ^ 16 + x.tag.toNat * 2 ^ 24) ∧
         ((cmbOf u slot ch).data.drop 1).take n = ws ∧ ∀ k, k ≠ 32 * slot.val + ch.val → sfind u.unit.cmb k = sfind a.unit.cmb k
       ((cmbOf s slot ch).go = false → x.words.length = x.n.toNat → x.n.toNat ≤ 15 →
         Ends (.cmbEcho slot ch (some x)) s (answers 1 x.n.toNat 0 x.words) ∧
         (∀ w, x.words = [w] → isDown (reportedState a (uDie (dieKey ch (w.toNat % 16)))) = false → takesPackets s ch = true →
           Ends (.cmbBankState slot ch (some x)) s (fun u => (cmbOf u slot ch).go = false ∧ (cmbOf u slot ch).result = 0 ∧
             ∀ b : Fin 8, ((cmbOf u slot ch).data.getD 1 0).extractLsb' (4 * b.val) 4 =
               BitVec.ofNat 4 (bsCode (bankOf s (bankKey ch (w.toNat % 16) b)).st))) ∧
         (∀ w v, x.words = [w, v] →
           (let p := mkPkt (w.toNat % 256) (bits w.toNat 8 4) (bits w.toNat 12 3) (bits w.toNat 15 13) 0 0 (v.toNat % 256)
            0x30 ≤ w.toNat % 256 → w.toNat % 256 ≤ 0x34 → dieResult a ch p.die.toNat p.bank.toNat = 0 →
             Ends (.cmbInfo slot ch (some x)) s (answers 3 6 0
               (let f := frameOf a ch 1 0 p.die.toNat p.bank.toNat (infoPayload (infoAnswer ch (w.toNat % 256) p a).1)
                dwords 2 (frameBytes f) ++ dwords 4 (bytesOf 16 f.payload.toNat)))) ∧
           (bits w.toNat 7 13 < 6144 → v.toNat % 2 ^ 17 < 65600 → dieResult a ch (w.toNat % 16) (bits w.toNat 4 3) = 0 →
             Ends (.cmbRawRead slot ch (some x) err) s (answers 4 11 0
               (let l := (readRaw ch (w.toNat % 16) (bits w.toNat 4 3) (bits w.toNat 7 13) (v.toNat % 2 ^ 17) err a).1
                dwords 10 ((bytesOf 80 l.toNat).drop (40 * bits v.toNat 17 1)) ++
                 [BitVec.ofNat 32 (match bchDecode l with | some (_, n) => n | none => 0xFF)]))))) ∧
       ((cmbOf s slot ch).go = false → ∀ i ∈ [Instr.cmbEcho slot ch none, .cmbBankState slot ch none, .cmbInfo slot ch none,
         .cmbRawRead slot ch none err], Ends i s (fun u => u = a)) ∧
       ((cmbOf s slot ch).go = true → cmbWord s slot ch 0 % 2 ^ 16 = 1 → cmbCount s slot ch ≤ 15 →
         Ends (.cmbEcho slot ch none) s (fun u => (cmbOf u slot ch).go = false ∧ (cmbOf u slot ch).result = 0)) ∧
       ((cmbOf s slot ch).go = true → ∀ i ∈ [Instr.cmbEcho slot ch (some x), .cmbBankState slot ch (some x), .cmbInfo slot ch (some x),
         .cmbRawRead slot ch (some x) err], Ends i s (fun u => cmbOf u slot ch = { cmbOf s slot ch with overrun := true }))) ∧
     (mbBlocked s slot (uQuad q) = none → (qmbOf s slot q).reqFull = false →
       let a := wakeUnit (uQuad q) (begin s)
       let answers := fun (msg result : Nat) (v : Word) (u : State) => (qmbOf u slot q).reqFull = false ∧ (qmbOf u slot q).rspFull = true ∧
         (qmbOf u slot q).rspLo = BitVec.ofNat 32 (msg + y.tag.toNat * 2 ^ 16 + result * 2 ^ 24) ∧ (qmbOf u slot q).rspHi = v
       Ends (.qmbEcho slot q (some y)) s (answers 1 0 (y.arg.extractLsb' 0 32)) ∧
       Ends (.qmbChannels slot q (some y)) s (fun u => ∃ v, answers 2 0 v u ∧ (∀ i, 8 ≤ i → v.getLsbD i = false) ∧ ∀ i, i < 8 →
         (v.getLsbD i = true ↔ reportedState a (uChannel (8 * q.val + i)) = .ready ∨ reportedState a (uChannel (8 * q.val + i)) = .degraded)) ∧
       Ends (.qmbSuspCount slot q (some y)) s (answers 3 0 (BitVec.ofNat 32 s.unit.suspCount.toNat)) ∧
       Ends (.qmbSkew slot q (some y)) s (answers 4 0 (BitVec.ofNat 32 s.unit.skewNs.toNat)) ∧
       (∀ (msg : BitVec 16) (tag : Byte), msg = 0 ∨ 4 < msg.toNat → y.tag = tag →
         Ends (.unknownMsg slot (.inr q) msg tag) s (answers msg.toNat 1 0))) ∧
     (mbBlocked s slot (uQuad q) = none → (qmbOf s slot q).reqFull = false → ∀ i ∈ [Instr.qmbEcho slot q none, .qmbChannels slot q none,
       .qmbSuspCount slot q none, .qmbSkew slot q none], Ends i s (fun u => u = wakeUnit (uQuad q) (begin s))) ∧
     (∀ (msg : BitVec 16) (tag : Byte), mbBlocked s slot (uChannel ch) = none → (cmbOf s slot ch).go = false → msg = 0 ∨ 4 < msg.toNat →
       Ends (.unknownMsg slot (.inl ch) msg tag) s (fun u => (cmbOf u slot ch).go = false ∧ (cmbOf u slot ch).result = 1 ∧
         (cmbOf u slot ch).data.getD 0 0 = BitVec.ofNat 32 (msg.toNat + tag.toNat * 2 ^ 24)))) ∧
  (∀ (s : State) (q : Fin 4) (off : BitVec 32) (v : Word),
     (mbBlocked s 4 (uQuad q) = none → let a := wakeUnit (uQuad q) (begin s)
       Ends (.qmbRsphiRead q) s (fun u => u.out = a.out ++ [.regRead (qmbOf s 4 q).rspHi] ∧ qmbOf u 4 q = { qmbOf s 4 q with rspFull := false })) ∧
     (∀ o, mbBlocked s 4 (uQuad q) = some o → Ends (.qmbRsphiRead q) s (fun u => u = { begin s with out := [o] })) ∧
     (mbUnit off.toNat = none → Ends (.sidebandDwordRead off) s (fun u => u = { begin s with out := [.sideband 0 0 0] }) ∧
       Ends (.sidebandDwordWrite off v) s (fun u => u = { begin s with out := [.sideband 0 0 0] })) ∧
     (∀ unit, mbUnit off.toNat = some unit →
       (mbBlocked s 5 unit = none → let a := wakeUnit unit (begin s)
         Ends (.sidebandDwordRead off) s (fun u => u = send (mbRead 5 off.toNat a).2 (.sideband 0 0 (mbRead 5 off.toNat a).1)) ∧
         Ends (.sidebandDwordWrite off v) s (fun u => u = send (mbWrite 5 off.toNat v a) (.sideband 0 0 0))) ∧
       (∀ o, mbBlocked s 5 unit = some o → Ends (.sidebandDwordRead off) s (fun u => u = { begin s with out := [o] }) ∧
         Ends (.sidebandDwordWrite off v) s (fun u => u = { begin s with out := [o] }))))

/-- A BAR2 write: whole dwords reach their registers in ascending order, a partial dword is flagged and discarded, reserved space is
flagged, and the injection registers are closed above PL0 (R518, R637, R638). What whole-dword writes leave in some registers: a value
outside a field's range is ignored (R430, R519, R585, R635, R638). Rests in part on the model's choices of log entry 61. -/
def Obligations.RegisterWritesReachRegisters : Prop :=
  (∀ (s : State) (port : Fin 4) (off : BitVec 24) (data : BitVec 64) (be : Byte),
     let lo := data.extractLsb' 0 32
     let hi := data.extractLsb' 32 32
     let flagged := fun (reserved : Bool) (u : State) => u = { begin s with id := { s.id with
       errAddr := if s.id.errPartial || s.id.errReserved then s.id.errAddr else off
       errPartial := s.id.errPartial || !reserved, errReserved := s.id.errReserved || reserved } }
     (hasWindow s port = false → Ends (.registerWrite port off data be) s (fun u => u = begin s)) ∧
     (hasWindow s port = true → off.toNat % 4 = 0 →
       (be = 0 → Ends (.registerWrite port off data be) s (fun u => u = begin s)) ∧
       (be = 0x0F →
         (injectClosed s off.toNat = true → Ends (.registerWrite port off data be) s (fun u => u = begin s)) ∧
         (injectClosed s off.toNat = false → isRegister s off.toNat = false → Ends (.registerWrite port off data be) s (flagged true)) ∧
         (injectClosed s off.toNat = false → isRegister s off.toNat = true →
           Ends (.registerWrite port off data be) s (fun u => u = writeReg off.toNat lo (begin s)))) ∧
       (be = 0xFF → off.toNat + 4 < 2 ^ 24 → Ends (.registerWrite port off data be) s (fun u =>
         u = writeDword off (off.toNat + 4) hi (writeDword off off.toNat lo (begin s)))) ∧
       (be &&& 0x0F ≠ 0 → be &&& 0x0F ≠ 0x0F → be &&& 0xF0 = 0 → Ends (.registerWrite port off data be) s (flagged false)))) ∧
  (∀ (s : State) (port : Fin 4) (data : BitVec 64), hasWindow s port = true →
     let v := data.extractLsb' 0 32
     let writes := fun (off : BitVec 24) (p : State → Prop) => Ends (.registerWrite port off data 0x0F) s p
     writes 0x001020 (fun u => u = { begin s with id := { s.id with scratch := v } }) ∧
     writes 0x010014 (fun u => u = { begin s with time := { s.time with
       holdLim := if 50 ≤ (v.extractLsb' 0 13).toNat ∧ (v.extractLsb' 0 13).toNat ≤ 4000 then v.extractLsb' 0 13 else s.time.holdLim } }) ∧
     writes 0x030008 (fun u => u = { begin s with therm := { s.therm with
       notice := if 85 ≤ (v.extractLsb' 0 8).toNat ∧ (v.extractLsb' 0 8).toNat ≤ 110 then v.extractLsb' 0 8 else s.therm.notice
       grace := if 1 ≤ (v.extractLsb' 8 10).toNat ∧ (v.extractLsb' 8 10).toNat ≤ 1000 then v.extractLsb' 8 10 else s.therm.grace } }) ∧
     writes 0x060004 (fun u => u = { begin s with evt := { (begin s).evt with enable := v.extractLsb' 0 9 } }) ∧
     (s.sec.pl = 0 → writes 0x070000 (fun u => u = { begin s with evt := { (begin s).evt with injPoint := v.extractLsb' 0 16 } })) ∧
     (s.sec.pl ≠ 0 → writes 0x070000 (fun u => u = begin s)))

/-- The notice registers of queue 4 (R490, R498). -/
def Obligations.NoticeRegistersActOnQueueFour : Prop :=
  ∀ (s : State) (x : Queue), s.queue.queues[4]? = some x →
    let others : State → Prop := fun u => ∀ k, k ≠ 4 → u.queue.queues[k]? = s.queue.queues[k]?
    let rest : State → Prop := fun u => { u with queue := s.queue, out := [] } = begin s
    let w := sget ⟨0, false, false⟩ x.words (x.rd.toNat % qDepth s 4)
    let bad := w.parity != wordParity w.word
    (x.rd = x.wr → Ends .noticeFlagsRead s (fun u => u = { begin s with
      queue := { s.queue with nValid := false, nPoison := false, nWord := 0 }, out := [.regRead 0] })) ∧
    (x.rd ≠ x.wr → Ends .noticeFlagsRead s (fun u => u.queue.nValid = true ∧ u.queue.nWord = w.word ∧ u.queue.nPoison = (w.poison || bad) ∧
      u.out = [.regRead (if w.poison || bad then 3 else 1)] ∧ rest u ∧ others u ∧
      ∃ y, u.queue.queues[4]? = some y ∧ y.rd = x.rd ∧ y.wr = x.wr ∧ y.parity = (x.parity || bad))) ∧
    Ends .noticeDatahiRead s (fun u => u.out = [.regRead (s.queue.nWord.extractLsb' 32 32)] ∧ rest u ∧ others u ∧
      u.queue.queues[4]? = some { x with rd := if x.rd = x.wr then x.rd else x.rd + 1 }) ∧
    Ends .noticeCtrlMark s (fun u => u.queue.queues[4]? = some { x with mark := x.rd } ∧ others u ∧ rest u) ∧
    Ends .noticeCtrlRewind s (fun u => u.queue.queues[4]? = some { x with rd := x.mark } ∧ others u ∧ rest u) ∧
    (∀ n : BitVec 16, n.toNat ≤ (x.rd - x.rel).toNat → Ends (.noticeCtrlRelease n) s (fun u => (∃ y, u.queue.queues[4]? = some y ∧
      y.rel = x.rel + n.setWidth 32 ∧ y.rd = x.rd ∧ y.wr = x.wr ∧ y.words = x.words ∧
      y.mark = if (x.mark - x.rel).toNat < n.toNat then x.rel + n.setWidth 32 else x.mark) ∧ others u ∧ rest u)) ∧
    (∀ n : BitVec 16, (x.rd - x.rel).toNat < n.toNat → Ends (.noticeCtrlRelease n) s (fun u => ∃ v,
      u = event { code := 0x0904, unit := uQueue 4, p0 := 3 } v ∧ v.queue.queues[4]? = some { x with releaseErr := true } ∧ others v ∧ rest v))

/-- What becomes of a peer message before it is acted on (R349, R395, R396, R398): the L1 has no peer window; an unknown sender is recorded;
a message consumed before, or with a bad CRC, is discarded. -/
def Obligations.PeerMessagesAreJudged : Prop :=
  ∀ (s : State) (h : MsgHdr) (lfn : BitVec 24) (seq bseq : BitVec 48) (t : Byte) (live : BitVec 29) (tag crc : Word) (st : BitVec 3) (lk : BitVec 2)
    (bound : Word) (adm : List (BitVec 24)) (act : Bool) (b : Batch) (llns : List (BitVec 40)) (ch : Fin 64) (pay : List Line) (line : BitVec 16)
    (count : BitVec 11) (lln : BitVec 40) (ward : BitVec 9) (part parts : Byte) (status : BitVec 2) (body : ReconBody) (cyc : BitVec 64)
    (es : List Word) (rnums : List (BitVec 48)),
    let l := lfn.toNat
    let checked : List (Instr × PeerMsg) := [
      (.heartbeat h st lk bound live adm act, .heartbeat st lk bound live.toNat (adm.map BitVec.toNat) act),
      (.patchRelease h seq llns, .patchRelease seq (llns.map BitVec.toNat)), (.deltaChunkRequest h lfn t seq, .deltaChunk 0 l t.toNat seq),
      (.deltaChunkData h lfn t seq ch pay, .deltaData l t.toNat seq ch.val pay), (.deltaChunkCommit h lfn t seq, .deltaChunk 2 l t.toNat seq),
      (.deltaChunkDone h lfn t seq, .deltaChunk 3 l t.toNat seq), (.deltaChunkAbort h lfn t seq, .deltaChunk 4 l t.toNat seq),
      (.deltaAckAdmitted h lfn seq live, .deltaAck 0 l seq 0 live.toNat), (.deltaAckBusy h lfn seq live, .deltaAck 1 l seq 0 live.toNat),
      (.deltaAckStaged h lfn seq live, .deltaAck 2 l seq 0 live.toNat), (.deltaAckCommitted h lfn seq live, .deltaAck 3 l seq 0 live.toNat),
      (.deltaAckDone h lfn seq live, .deltaAck 4 l seq 0 live.toNat), (.deltaAckAborted h lfn seq live, .deltaAck 5 l seq 0 live.toNat),
      (.deltaAckBatch h bseq live, .deltaAck 6 0 0 bseq live.toNat), (.deltaAckResend h bseq live, .deltaAck 7 0 0 bseq live.toNat),
      (.reconReadBase h tag lfn line count, .reconRead 0 tag l line.toNat count.toNat 0),
      (.reconReadRecord h tag lln ward, .reconRead 1 tag lln.toNat 0 1 ward.toNat), (.reconReadMap h tag ward t act, .reconRead 2 tag t.toNat 0 0 ward.toNat),
      (.reconReadBulk h tag lfn line count, .reconRead 3 tag l line.toNat count.toNat 0),
      (.reconData h tag part parts status body, .reconData tag part.toNat parts.toNat status body), (.unhitchMessage h t rnums, .unhitch t rnums)]
    let all := checked.map Prod.fst ++ [.patchBatch h b, .timetable h cyc seq es crc]
    (hasSpan s = false → ∀ i ∈ all, Ends i s (fun u => u = begin s)) ∧
    (hasSpan s = true → senderOf s h.pbr = none → ∀ i ∈ all, Ends i s (fun u => u = event { code := 0x0303, unit := uPort 0, p0 := h.pbr.toNat } (begin s))) ∧
    (∀ r, hasSpan s = true → senderOf s h.pbr = some r →
      (h.mseq.toNat ≤ (if h.ring then (peerOf s r).gotData else (peerOf s r).gotCtl).toNat → ∀ i ∈ all, Ends i s (fun u => u = begin s)) ∧
      (∀ e ∈ checked, h.crc ≠ msgCrc h e.2 → Ends e.1 s (fun u => u = begin s)) ∧
      (es.length ≠ 64 ∨ crc ≠ timetableCrc h cyc seq es → Ends (.timetable h cyc seq es crc) s (fun u => u = begin s)))

/-- Heartbeats, their loss, and the patch record streams (R364 to R367, R369, R375, R382, R383, R385). Rests in part on the model's choices
of log entries 39, 43, 44. -/
def Obligations.HeartbeatsAndRecordsAct : Prop :=
  ∀ (s : State) (h : MsgHdr) (r : Nat),
    let t := consumed r h s
    let lives := fun (r : Fin 16) => r.val < spanN s ∧ r.val ≠ ownIndex s ∧ (peerOf s r).st.toNat ≠ 0 ∧ (peerOf s r).st.toNat ≠ psLost ∧
      (peerOf s r).st.toNat ≠ psUnhitched
    (Received s h r →
      (∀ (st : BitVec 3) (lk : BitVec 2) (bound : Word) (live : BitVec 29) (adm : List (BitVec 24)) (act : Bool),
        let v := setPeer r (fun p => { p with missed := 0, lock := lk, bound := bound, live := live, activating := act, answered := true }) t
        Works (.heartbeat (sealed h (.heartbeat st lk bound live.toNat (adm.map BitVec.toNat) act)) st lk bound live adm act) s (fun u => u = adm.foldl (fun s l => rejoinAdmission r l.toNat s)
          (reportLive r live (if (peerOf v r).st = st then v else setPeerSt r st.toNat v)))) ∧
      (∀ (c : Byte) (rn : List (BitVec 48)), Works (.unhitchMessage (sealed h (.unhitch c rn)) c rn) s (fun u => ∃ v, u = memberGone r psUnhitched v ∧
        v.out = t.out ++ [.fmNotice fmPeerUnhitched r] ∧ ∀ w, wardOf t (wardPool t r) = some w → ∃ w', wardOf v (wardPool t r) = some w' ∧
          w'.records = w.records ∧ w.topRnum.toNat ≤ w'.topRnum.toNat ∧ ∀ n ∈ rn, n.toNat ≤ w'.topRnum.toNat)) ∧
      (∀ (top : BitVec 48) (llns : List (BitVec 40)), Works (.patchRelease (sealed h (.patchRelease top (llns.map BitVec.toNat))) top llns) s (fun u => ∀ w, wardOf t (wardPool t r) = some w →
        let gone := (w.records.filter (fun e => llns.any (fun l => l.toNat == e.1) && Nat.ble e.2.rnum.toNat top.toNat)).map (fun e => e.1)
        wardOf u (wardPool t r) = some { w with
          records := w.records.filter (fun e => !gone.contains e.1), places := w.places.filter (fun e => !gone.contains e.1) } ∧
        ∀ e ∈ u.xlat.pi, e.2.valid = true → foreignEnt t e.2 = true → fsKey (fsEntry t e.2.set.toNat) = wardPool t r % 512 →
          e.2.lln.toNat ∉ gone)) ∧
      (∀ (bseq : BitVec 48) (live : BitVec 29),
        let batch := Instr.deltaAckBatch (sealed h (.deltaAck 6 0 0 bseq live.toNat)) bseq live
        let resend := Instr.deltaAckResend (sealed h (.deltaAck 7 0 0 bseq live.toNat)) bseq live
        (streamTo t r = none → Works batch s (fun u => u = t) ∧ Works resend s (fun u => u = t)) ∧
        (∀ i, streamTo t r = some i → Works batch s (fun u => u = ackStream i bseq live t) ∧
          (let v := ackStream i (bseq - 1) live t
           Works resend s (fun u => u.span.outr = v.span.outr ∧
            u.span.cResend = satAdd v.span.cResend (v.span.streams.getD i newStream).sent.length)))) ∧
      (∀ (lfn : BitVec 24) (seq : BitVec 48) (live : BitVec 29), Works (.deltaAckBusy (sealed h (.deltaAck 1 lfn.toNat seq 0 live.toNat)) lfn seq live) s
        (fun u => u = reportLive r live t))) ∧
    (Received s h r → ∀ (b : Batch) (w₀ : Ward),
      let pool := wardPool t r
      let a := addWard pool t
      let hdr := headerBytes 1 h.span.toNat h.ring h.src.toNat h.dst.toNat h.mseq h.ackto h.ftime h.len.toNat
      let w := if streamBegins w₀ hdr b then { w₀ with bseq := 0, chain := 0 } else w₀
      wardOf a pool = some w₀ →
      (b.bseq.toNat ≤ w.bseq.toNat → Works (.patchBatch h b) s (fun u => u = peerSend r (.deltaAck 6 0 0 b.bseq (liveRecords a pool)) a)) ∧
      (w.bseq.toNat < b.bseq.toNat → b.bseq ≠ w.bseq + 1 ∨ batchChain hdr b w.chain ≠ b.chain →
        Works (.patchBatch h b) s (fun u => u = peerSend r (.deltaAck 7 0 0 (w.bseq + 1) (liveRecords a pool)) a)) ∧
      (w.bseq.toNat < b.bseq.toNat → b.bseq = w.bseq + 1 → batchChain hdr b w.chain = b.chain →
        Works (.patchBatch h b) s (fun u => ∃ w', wardOf u pool = some w' ∧ w'.bseq = b.bseq ∧ w'.chain = b.chain ∧ w'.keys = w.keys))) ∧
    (∀ r : Fin 16, lives r → Works (.peerHeartbeatLoss r) s (fun u => ∃ v, u = memberGone r psLost (event { code := 0x0301, unit := uPeer (memberPool s r), p0 := max 8 (peerOf s r).missed } v) ∧
      v.out = [.fmNotice fmPeerLost r] ∧ v.span.desc = s.span.desc)) ∧
    (∀ r : Fin 16, ¬ lives r → Ends (.peerHeartbeatLoss r) s (fun u => u = begin s)) ∧
    Ends .majorityLoss s (fun u => u = unhitch 1 (begin s)) ∧
    (s.span.desc.isSome = true → s.host.unhitched = false → Ends .majorityLoss s (fun u => u.host.unhitched = true ∧ u.host.reqs = [] ∧
      u.media.mreads = [] ∧ u.span.reads = []))

/-- The holder's side of a parity delta (R372, R373, R374). Rests in part on the model's choices of log entry 45. -/
def Obligations.HolderFollowsDeltaChunks : Prop :=
  ∀ (s : State) (h : MsgHdr) (r : Nat) (lfn : BitVec 24) (t : Byte) (seq : BitVec 48), Received s h r →
    let v := consumed r h s
    let l := lfn.toNat
    let chunk := fun (op : Nat) => sealed h (.deltaChunk op l t.toNat seq)
    let request := Instr.deltaChunkRequest (chunk 0) lfn t seq
    let data := fun (c : Fin 64) (pay : List Line) => Instr.deltaChunkData (sealed h (.deltaData l t.toNat seq c.val pay)) lfn t seq c pay
    let commit := Instr.deltaChunkCommit (chunk 2) lfn t seq
    let done := Instr.deltaChunkDone (chunk 3) lfn t seq
    let held : List Holding → State := fun hs => { v with span := { v.span with holdings := hs } }
    let mine : Holding := { lfn := l, member := r, t := t.toNat, foldSeq := seq, admitter := true, chunks := [], staged := false, committed := false }
    (holderPos v l = none → Works request s (fun u => u = v) ∧
      ∀ c pay, Works (data c pay) s (fun u => u = v)) ∧
    (holderPos v l ≠ none → isAdmitter v l = true →
      ((holdingFor v r l seq).isSome = true → Works request s (fun u => u = ackPlain 0 r l seq v)) ∧
      ((∀ x ∈ v.span.holdings, x.lfn ≠ l) → (∀ w ∈ v.span.waitAdmit, w.1 ≠ l) →
        Works request s (fun u => u = ackPlain 0 r l seq (held (v.span.holdings ++ [mine])))) ∧
      ((∃ x ∈ v.span.holdings, x.lfn = l) → (∀ x ∈ v.span.holdings, x.lfn = l → x.member ≠ r) → (∀ w ∈ v.span.waitAdmit, w.1 ≠ l) →
        Works request s (fun u =>
          u = ackPlain 1 r l seq { v with span := { v.span with waitAdmit := v.span.waitAdmit ++ [(l, r, t.toNat, seq)] } }))) ∧
    (∀ x, holderPos v l ≠ none → holdingFor v r l seq = some x → ∀ (c : Fin 64) (pay : List Line), pay.length = 1024 →
      (x.staged = true → Works (data c pay) s (fun u => u = v)) ∧
      (x.staged = false → (sput x.chunks c.val pay).length < 64 → Works (data c pay) s (fun u =>
        u = setHolding x (fun _ => { x with chunks := sput x.chunks c.val pay }) v))) ∧
    (holderPos v l ≠ none → holdingFor v r l seq = none → ∀ (c : Fin 64) (pay : List Line), pay.length = 1024 →
      Works (data c pay) s (fun u => holdingFor u r l seq = some { mine with admitter := false, chunks := [(c.val, pay)] })) ∧
    (holdingFor v r l seq = none →
      Works commit s (fun u => u = (v.span.holdings.filter (fun x => x.lfn == l && x.member == r)).foldl
        (fun s x => dropHolding x s) (ackPlain 5 r l seq v)) ∧
      Works done s (fun u => u = ackPlain 4 r l seq v)) ∧
    (∀ x, holdingFor v r l seq = some x →
      (x.committed = true → Works commit s (fun u => u = ackPlain 3 r l seq v)) ∧
      (x.committed = false → ∀ g i sl, stagedSlot v l = some (g, i, sl) → x.staged = true → Works commit s (fun u =>
        u = ackPlain 3 r l seq (setHolding x (fun x => { x with committed := true })
          (setSlot g.band l (fun y => { y with phase := .committed }) (commitSlot g.band i sl v))))) ∧
      (x.committed = false → Works done s (fun u => u = v)) ∧
      (x.committed = true → stagedSlot v l = none → x.admitter = false → Works done s (fun u =>
        u = ackPlain 4 r l seq (held (v.span.holdings.filter (fun y => y != x)))))) ∧
    Works (.deltaChunkAbort (chunk 4) lfn t seq) s (fun u => u = ackPlain 5 r l seq
      ((v.span.holdings.filter (fun x => x.lfn == l && x.member == r)).foldl (fun s x => dropHolding x s)
        { v with span := { v.span with waitAdmit := v.span.waitAdmit.filter (fun w => !(w.1 == l && w.2.1 == r)) } }))

/-- The data member's side of a delta (R371, R374, R393). Rests in part on the model's choices of log entry 45. -/
def Obligations.DeltaAcksAdvanceFolds : Prop :=
  ∀ (s : State) (h : MsgHdr) (r : Nat) (lfn : BitVec 24) (seq : BitVec 48) (live : BitVec 29), Received s h r →
    let ack := fun (code : Nat) => sealed h (.deltaAck code lfn.toNat seq 0 live.toNat)
    let v := reportLive r live (consumed r h s)
    let l := lfn.toNat
    Works (.deltaAckStaged (ack 2) lfn seq live) s (fun u => u = deltaReply r l seq .admitted v) ∧
    Works (.deltaAckCommitted (ack 3) lfn seq live) s (fun u => u = deltaReply r l seq .committed v) ∧
    Works (.deltaAckDone (ack 4) lfn seq live) s (fun u => u = pollWork (deltaReply r l seq .ended v)) ∧
    Works (.deltaAckAborted (ack 5) lfn seq live) s (fun u => u = deltaAborted l seq v) ∧
    (∀ b sl, ownSlot v l seq = some (b, sl) →
      (sl.phase = .requested → Works (.deltaAckAdmitted (ack 0) lfn seq live) s (fun u =>
        u = advanceBatch b (setSlot b sl.lfn (fun y => { y with phase := .admitted }) v))) ∧
      (sl.phase ≠ .requested → Works (.deltaAckAdmitted (ack 0) lfn seq live) s (fun u => u = v))) ∧
    (ownSlot v l seq = none → parityLfn v l = false → Works (.deltaAckAdmitted (ack 0) lfn seq live) s (fun u =>
      u = peerSend r (.deltaChunk 4 l (stripeRole v l (ownIndex v)).2 seq) v)) ∧
    (ownSlot v l seq = none → parityLfn v l = true → sfind v.span.rebuildSnap l = none →
      Works (.deltaAckAdmitted (ack 0) lfn seq live) s (fun u => u = peerSend r (.deltaChunk 4 l 0xFF seq) v)) ∧
    (ownSlot v l seq = none → parityLfn v l = true → sfind v.span.rebuildSnap l = some [] →
      Works (.deltaAckAdmitted (ack 0) lfn seq live) s (fun u =>
        u = rebuildBases l { v with span := { v.span with rebuildSnap := sput v.span.rebuildSnap l [(0, 0)] } }))

/-- RECON_READ served, its answers taken, stage maps kept, a recovery timed out (R366, R380, R381, R389, R397 to R399, R427, R428). Rests in
part on the model's choices of log entry 46. -/
def Obligations.ReconReadsAreServed : Prop :=
  ∀ (s : State) (h : MsgHdr) (r : Nat) (tag : Word),
    (Received s h r →
      let v := consumed r h s
      let c := countIn v
      let absent := sendAnswer r tag rsAbsent emptyBody c
      (∀ (lfn : BitVec 24) (line : BitVec 16) (n : BitVec 11),
        let asks := fun (kind : Nat) => sealed h (.reconRead kind tag lfn.toNat line.toNat n.toNat 0)
        let base := fun (x : State) => baseAnswer x lfn.toNat line.toNat n.toNat
        let w := noteRebuild r v
        Works (.reconReadBase (asks 0) tag lfn line n) s (fun u => u = sendAnswer r tag (base v).1 (base v).2 c) ∧
        (heavyNow w [r] = true → Works (.reconReadBulk (asks 3) tag lfn line n) s (fun u => u = sendAnswer r tag (base w).1 (base w).2 (countIn w))) ∧
        (heavyNow w [r] = false → Works (.reconReadBulk (asks 3) tag lfn line n) s (fun u => u = sendAnswer r tag rsRefused emptyBody (countIn w)))) ∧
      (∀ (lln : BitVec 40) (ward : BitVec 9),
        let asks := Instr.reconReadRecord (sealed h (.reconRead 1 tag lln.toNat 0 1 ward.toNat)) tag lln ward
        ((wardOf v ward.toNat).bind (fun w => sfind w.records lln.toNat) = none → Works asks s (fun u => u = absent)) ∧
        (∀ w f, wardOf v ward.toNat = some w → sfind w.records lln.toNat = some f → Works asks s (fun u =>
          u = sendAnswer r tag rsGood { emptyBody with
            oldSeq := f.rnum
            record := some { lln := lln, kind := if f.mask = BitVec.allOnes 64 then 0 else 1, mask := f.mask, data := f.data } } c))) ∧
      (∀ (ward : BitVec 9) (i : Byte) (cert : Bool),
        let asks := Instr.reconReadMap (sealed h (.reconRead 2 tag i.toNat 0 0 ward.toNat)) tag ward i cert
        (i = 0xFF → cert = true → s.span.swkValid = true → Works asks s (fun u =>
          u = sendAnswer r tag rsGood { emptyBody with key := bytesOf 40 (drawBits 320 c).1.toNat } (drawBits 320 c).2)) ∧
        (i = 0xFF → cert = false ∨ s.span.swkValid = false → Works asks s (fun u => u = sendAnswer r tag rsRefused emptyBody c)) ∧
        (i ≠ 0xFF → 64 ≤ i.toNat → Works asks s (fun u => u = absent)) ∧
        (i.toNat < 64 → ward.toNat ≠ wardIndex v → wardOf v ward.toNat = none → Works asks s (fun u => u = absent)) ∧
        (∀ w, i.toNat < 64 → ward.toNat ≠ wardIndex v → wardOf v ward.toNat = some w → cert = false → Works asks s (fun u =>
          u = sendAnswer r tag rsGood { emptyBody with
            oldSeq := w.topRnum, newSeq := w.bseq
            maps := (w.maps.filter (fun e => e.1 / 65536 == i.toNat)).map (fun e => e.2) } c))) ∧
      (∀ (p n : Byte) (st : BitVec 2) (b : ReconBody),
        let data := Instr.reconData (sealed h (.reconData tag p.toNat n.toNat st b)) tag p n st b
        v.span.mapAsked.find? (fun a => a.1 == tag) = none →
        (v.span.reads.find? (fun q => q.tag == tag || q.tag + 1 == tag) = none → Works data s (fun u => u = rebuildPoll v)) ∧
        (∀ q, v.span.reads.find? (fun q => q.tag == tag || q.tag + 1 == tag) = some q → q.tag ≠ tag → q.askedRec.contains r = true →
          Works data s (fun u => u = rebuildPoll (setRead q.tag (fun q => { q with
            records := addAnswer r (if st.toNat ≤ 1 then recordOf b else none) q.records }) v)))) ∧
      (∀ (cyc : BitVec 64) (sgen : BitVec 48) (es : List Word), es.length = 64 →
        (keeper v = some r → cycleNow v + 1 < cyc.toNat → Works (.timetable h cyc sgen es (timetableCrc h cyc sgen es)) s (fun u =>
          u = { v with tt := { v.tt with maps := v.tt.maps.filter (fun m => m.cycle != cyc && Nat.ble (cycleNow v) m.cycle.toNat) ++
            [{ cycle := cyc, sgen := sgen, src := r, arrived := s.time.ftime, entries := es }] } })) ∧
        (keeper v ≠ some r ∨ cyc.toNat ≤ cycleNow v + 1 → Works (.timetable h cyc sgen es (timetableCrc h cyc sgen es)) s (fun u => u = v)))) ∧
    (let q := s.span.reads.find? (fun q => q.tag == tag)
     (q = none → Ends (.spanReadTimeout tag) s (fun u => u = begin s)) ∧
     (∀ x, q = some x →
      (x.rid = none → Ends (.spanReadTimeout tag) s (fun u => u = rebuildFail (lfnOf x.lln) (begin s))) ∧
      (∀ id, x.rid = some id →
        (s.media.mreads.find? (fun m => m.rid == id) = none → Ends (.spanReadTimeout tag) s (fun u =>
          u = { begin s with span := { s.span with reads := s.span.reads.filter (fun y => y.tag != tag) } })) ∧
        (∀ m, s.media.mreads.find? (fun m => m.rid == id) = some m → Works (.spanReadTimeout tag) s (fun u => ∃ p1,
          u = finishRead m .bad (event { code := 0x0201, p0 := m.lln, p1 := p1, p2 := 2 } (begin s)))))))

/-- The stage boundary (R414, R415), and the rows of folds, checkpoint images, the dirty frame map, rescans, restorations and the HBM remap
(R82, R214, R264 to R266, R282, R298, R598, R602). Rests in part on the model's choices of log entries 2, 30 and 80. -/
def Obligations.StageAndUpkeepRowsAct : Prop :=
  ∀ (s : State) (lfn : BitVec 24) (hch : Fin 64),
    let idle := fun (i : Instr) => Ends i s (fun u => u = begin s)
    let l := lfn.toNat
    (s.start.sillUp = false → idle .stageBoundary) ∧
    (s.start.sillUp = true → s.power.seq ≠ .on → Ends .stageBoundary s (fun u => u.time.ftime = boundaryTime s ∧
      u.tt.stage = (boundaryTime s).toNat / 250000 ∧ keepS u = keepS s ∧ u.media = s.media ∧ u.mm = s.mm ∧ u.span = s.span)) ∧
    (s.start.sillUp = true → s.power.seq = .on → Works .stageBoundary s (fun u => u.time.ftime = boundaryTime s ∧
      u.tt.stage = (boundaryTime s).toNat / 250000)) ∧
    Works .foldBatchTimer s (fun u => u = openBatch (begin s)) ∧
    ((fsumOf s l).1 = 0 → idle (.foldAgeTrigger lfn)) ∧
    ((fsumOf s l).1 ≠ 0 → Ends (.foldAgeTrigger lfn) s (fun u => u = makeDue l 4 (fsumOf s l).2.toNat false (begin s))) ∧
    (ftMode (ftEntry s l) = mFast → ftPinned (ftEntry s l) = false → Ends (.fastFrameIdleTimeout lfn) s (fun u =>
      u = makeDue l 7 (sget 0 s.mm.lastWrite l).toNat false (begin s))) ∧
    (ftMode (ftEntry s l) ≠ mFast ∨ ftPinned (ftEntry s l) = true → idle (.fastFrameIdleTimeout lfn)) ∧
    (s.mm.imageRun.isSome = true → idle .checkpointImageStart) ∧
    (s.mm.imageRun = none → Ends .checkpointImageStart s (fun u => (∃ im, u.mm.imageRun = some im ∧
        u.mm.piBase = if u.mm.piSegs.length = max 1 ((((s.xlat.pi.map Prod.snd ++ s.xlat.piOvf).filter PiEnt.valid).length + 251) / 252)
          then some (im.c0, s.xlat.patchCtr) else none) ∧ u.mm.imageStart = s.time.ftime ∧
      u.mm.imageRecs = 0 ∧ u.mm.images = s.mm.images ∧ u.xlat.piLog = [] ∧ u.xlat.piLost = false)) ∧
    (s.span.desc.isSome = true → idle .dirtyMapGeneration) ∧
    (s.span.desc = none → Ends .dirtyMapGeneration s (fun u => u.mm.mapOld = s.mm.mapNew ∧
      u.mm.mapNew = dedup ((dirtyLlns s).map lfnOf) ∧ u.mm.mapDue = [] ∧ u.cache = s.cache ∧ u.mm.images = s.mm.images)) ∧
    Works .patchLogRescanEnd s (fun u =>
      let log := logRead true { begin s with xlat := { s.xlat with rescanPass := [] } }
      u = updLoad (s.xlat.rescanPass.foldl (fun s l => rescanFrame log.1 l s) log.2)) ∧
    (l ∉ s.xlat.restoring → idle (.frameTableRestoreEnd lfn)) ∧
    (l ∈ s.xlat.restoring → Works (.frameTableRestoreEnd lfn) s (fun u => ∃ e, u = ftCommit l e { begin s with xlat :=
        { s.xlat with psnap := sset 0 s.xlat.psnap l (loggedEntry s l).2 } } ∧ e = (loggedEntry s l).1 ||| 0x10000000)) ∧
    (s.cache.remapCopies.find? (fun c => c.1 == hch.val) = none → idle (.hbmRemapCopyEnd hch)) ∧
    (∀ c, s.cache.remapCopies.find? (fun c => c.1 == hch.val) = some c →
      (∀ i, (List.range 16).find? (fun i => !(sget ({} : RemapEnt) s.cache.remap (16 * hch.val + i)).valid) = some i →
        Works (.hbmRemapCopyEnd hch) s (fun u => ∃ v, u = hbmRetry (sbEnqueue v (.ring 0x67 (hch.val / 5) (remapPayload v (hch.val / 5)))) ∧
          (sget ({} : RemapEnt) v.cache.remap (16 * hch.val + i)).valid = true ∧
          (sget ({} : RemapEnt) v.cache.remap (16 * hch.val + i)).block = BitVec.ofNat 20 c.2 ∧
          v.cache.remapCopies = s.cache.remapCopies.erase c)) ∧
      ((List.range 16).find? (fun i => !(sget ({} : RemapEnt) s.cache.remap (16 * hch.val + i)).valid) = none →
        Works (.hbmRemapCopyEnd hch) s (fun u => ∃ v, u = hbmRetry v ∧ v.cache.remap = s.cache.remap ∧
          v.cache.remapCopies = s.cache.remapCopies.erase c ∧
          if blockFences { s with cache := { s.cache with remapCopies := s.cache.remapCopies.erase c } } c then c ∈ v.cache.fenced
          else (unitRec v (uHbm (hch.val / 16))).st = .degraded)))

/-- What a command ends with, and what the media engine takes up after it, leaves the other sections alone: the statements that speak of a
command's own effect `u` hold of the state after it for those sections. -/
def Obligations.EndingsTouchFewSections : Prop :=
  ∀ u : State, keepE (closed u) = keepE u ∧ keepM (mediaNext u) = keepM u ∧ keepM (closed (mediaNext u)) = keepM u

/-- The frame of the rows that only answer, of the rows that drive the media engine, and of every row. -/
def Obligations.RowsLeaveOtherSectionsAlone : Prop :=
  ∀ (i : Instr) (s : State), Answers (exec i s) (fun t =>
    keepA t = keepA s ∧ (AnswersOnly i → keepE t = keepE s) ∧ (WorksOnMedia i → keepM t = keepM s))

/-- No row but PL_SET, the stage boundary, the end of a Strongbox write, a rise or loss of VAUX, a Sill reset and the end of a start phase
changes the protection level, the fuse, the owner key or the erase state. -/
def Obligations.SevenRowsChangeSecurity : Prop :=
  ∀ (i : Instr) (s : State), (∀ c inp, i ≠ .plSet c inp) → i ≠ .stageBoundary → i ≠ .strongboxWriteDone → (∀ v, i ≠ .vauxRise v) → i ≠ .vauxLoss →
    i ≠ .sillReset → (∀ p, i ≠ .startPhaseEnd p) → Answers (exec i s) (fun t => t.sec = s.sec)

/-- The PL2 fuse, once blown, stays blown through every step (R619). -/
def Obligations.BlownFuseStaysBlown : Prop :=
  ∀ s : State, s.sec.pl2Fuse = true → Answers (step s) (fun t => t.sec.pl2Fuse = true)

/-- Every step keeps the Strongbox in its canonical form: addresses strictly rising, no entry equal to what an unlisted byte reads as. Rests
in part on the model's choices of log entry 3. -/
def Obligations.StrongboxStaysCanonical : Prop :=
  ∀ s : State, memoryOk s → Answers (step s) memoryOk

/-- Every step keeps the sizes of the tables of queues, sensors, LDs, ports and rails, and the numbers of host requests given out in order.
-/
def Obligations.TablesKeepTheirSizes : Prop :=
  ∀ s : State, Sized s → Answers (step s) Sized

/-- The Strongbox array: bytes written read back, bytes outside the written ones read as before, the canonical form is kept, and in that
form equal reads mean equal arrays. Rests in part on the model's choices of log entry 3. -/
def Obligations.StrongboxReadsBackWrites : Prop :=
  ∀ (m : List Host.Cell) (a : Nat) (bs : List Byte), Memory.wf m = true →
    Memory.wf (cellWrite m a bs) = true ∧ cellBytes (cellWrite m a bs) a bs.length = bs ∧
    (∀ b, b < a ∨ a + bs.length ≤ b → cellGet (cellWrite m a bs) b = cellGet m b) ∧
    (∀ n m', Memory.wf m' = true → (∀ b, cellGet m' b = cellGet m b) → m' = m ∧ cellBytes m' a n = cellBytes m a n)

/-- Right after reset the registers hold the reset values their tables give (R122, R186, R219, R313, R345, R430, R498, R519), the queue of
commands is empty, and the invariants hold. Rests in part on the model's choices of log entry 3. -/
def Obligations.ResetHoldsSpecValues : Prop :=
  let r := State.reset
  memoryOk r ∧ Sized r ∧ r.pending = [] ∧ r.time.holdLim = 0x7D ∧ r.time.unbounded = true ∧ r.tt.bgMax = 0x30 ∧ r.tt.bgFloor = 4 ∧
  r.tt.thermCap = 0x40 ∧ r.tt.clearPerDie = 2 ∧ r.tt.inbound = 0x64 ∧ r.xlat.psi = 0x40 ∧ r.xlat.fastResMin = 0x5000 ∧
  r.write.ageMax = 0x3E8 ∧ r.write.strictTmo = 0xA ∧ r.cache.prefetchEn = true ∧ r.mm.reclaimLow = 0x35C2 ∧ r.mm.resettleH = 0x2D0 ∧
  r.mm.scrubD = 0x60 ∧ r.mm.scrubF = 0x18 ∧ r.lp.dieFailLimit = 0x10000 ∧ r.evt.enable = 0x1FF ∧ r.evt.leakMs = 0x3E8 ∧
  r.evt.threshold = 0x10 ∧ r.queue.queues.map (fun q => q.tail) = [8, 8, 4, 2, 0x64] ++ List.replicate 59 0x32 ∧
  (∀ q ∈ r.queue.queues, q.wr = 0 ∧ q.rd = 0 ∧ q.mark = 0 ∧ q.rel = 0)
end

