-- ==== Sys2Proof/Laws/Bytes.lean ====
section
/-! SUPPORT. Numbers as bytes and back, and the order in which a vendor command is checked, once for all of them. -/

namespace Sys2Proof.Machine

theorem leBytes_length (n v : Nat) : (leBytes n v).length = n := by
  induction n generalizing v with
  | zero => rfl
  | succ n ih => simp [leBytes, ih]

@[simp] theorem bytesOf_length (n v : Nat) : (bytesOf n v).length = n := by
  simp [bytesOf, leBytes_length]

theorem leBytes_lt (n v : Nat) : ∀ b ∈ leBytes n v, b < 256 := by
  induction n generalizing v with
  | zero => intro b h; cases h
  | succ n ih =>
    intro b h
    rcases List.mem_cons.1 h with rfl | h
    · exact Nat.mod_lt _ (by decide)
    · exact ih _ _ h

/-- Reading back the bytes of a number. -/
theorem ofLe_leBytes (n v : Nat) : ofLe (leBytes n v) = v % 2 ^ (8 * n) := by
  induction n generalizing v with
  | zero => simp [leBytes, ofLe, Nat.mod_one]
  | succ n ih =>
    have h : 2 ^ (8 * (n + 1)) = 256 * 2 ^ (8 * n) := by rw [Nat.mul_succ, Nat.pow_add, Nat.mul_comm]
    simp only [leBytes, ofLe, ih, h, Nat.mod_mul, Nat.mod_mod]

theorem natOf_bytesOf (n v : Nat) : natOf (bytesOf n v) = v % 2 ^ (8 * n) := by
  have h : (bytesOf n v).map BitVec.toNat = leBytes n v := by
    simp only [bytesOf, List.map_map]
    conv => rhs; rw [← List.map_id (leBytes n v)]
    exact List.map_congr_left (fun b hb => by simpa using Nat.mod_eq_of_lt (leBytes_lt n v b hb))
  rw [natOf, h, ofLe_leBytes]

/-- The field at the front of some bytes, and a field behind it. -/
theorem field_front (n v : Nat) (r : List Byte) : field (bytesOf n v ++ r) 0 n = v % 2 ^ (8 * n) := by
  have h : ((bytesOf n v ++ r).drop 0).take n = bytesOf n v := by
    rw [List.drop_zero, List.take_append_of_le_length (by simp), List.take_of_length_le (by simp)]
  rw [field, h, natOf_bytesOf]

theorem field_last (n v : Nat) : field (bytesOf n v) 0 n = v % 2 ^ (8 * n) := by
  simpa using field_front n v []

theorem field_skip (l r : List Byte) (o n : Nat) : field (l ++ r) (l.length + o) n = field r o n := by
  have : (l ++ r).drop (l.length + o) = r.drop o := by
    rw [← List.drop_drop, List.drop_left]
  simp only [field, this]

theorem field_behind (k v : Nat) (r : List Byte) (o n : Nat) (h : k ≤ o) : field (bytesOf k v ++ r) o n = field r (o - k) n := by
  have := field_skip (bytesOf k v) r (o - k) n
  rwa [bytesOf_length, Nat.add_sub_of_le h] at this

/-- Padding changes no field that the bytes hold whole. -/
theorem field_padTo (m : Nat) (l : List Byte) (o n : Nat) (h : o + n ≤ l.length) (hm : l.length ≤ m) : field (padTo m l) o n = field l o n := by
  have : padTo m l = l ++ List.replicate (m - l.length) 0 := by
    rw [padTo, List.take_of_length_le hm]
  rw [this, field, field, List.drop_append_of_le_length (by omega), List.take_append_of_le_length (by simp; omega)]

/-! ## A vendor command that is heard -/

theorem firstOf_cons (a : Option VAns) (l : List (Option VAns)) : firstOf (a :: l) = match a with | some x => some x | none => firstOf l := by
  cases a <;> rfl

@[simp] theorem chk_false (a : VAns) : chk false a = none := rfl
@[simp] theorem chk_true (a : VAns) : chk true a = some a := rfl
@[simp] theorem firstOf_nil : firstOf [] = none := rfl

theorem shortField_none (fields : List (Nat × Nat)) (inp : List Byte) (h : ∀ f ∈ fields, f.1 + f.2 ≤ inp.length) : shortField fields inp = none := by
  have : fields.find? (fun f => decide (inp.length < f.1 + f.2)) = none := by
    rw [List.find?_eq_none]
    intro f hf
    have := h f hf
    simp only [decide_eq_true_eq]
    omega
  rw [shortField, this]; rfl

/-- A command that is heard comes to its own checks. -/
theorem vJudge_heard {v : VSpec} {c : Caller} {inp : List Byte} {early late : State → Option VAns} {s : State} {need : Nat}
    (h : Heard c inp s v.host v.star v.lock v.span need) (hf : ∀ f ∈ v.fields, f.1 + f.2 ≤ need) :
    vJudge v c inp early late s = firstOf [early s, late s] := by
  obtain ⟨_, _, hn, _, hh, hs, hl, hp⟩ := h
  have h1 : (v.span && !hasSpan s) = false := by
    cases hv : v.span
    · rfl
    · simp [hp hv]
  have h2 : ((isHostLd s c && !v.host) || (v.lock && Nat.ble 1 s.sec.pl.toNat)) = false := by
    have a : (isHostLd s c && !v.host) = false := by
      rcases hh with h | h <;> simp [h]
    have b : (v.lock && Nat.ble 1 s.sec.pl.toNat) = false := by
      cases hv : v.lock
      · rfl
      · rw [hl hv]; rfl
    rw [a, b]; rfl
  have h3 : (shortField v.fields inp).map vRange = none := by
    rw [shortField_none _ _ (fun f hf' => le_trans (hf f hf') hn)]; rfl
  have h4 : (!cmdUp s && !v.star) = false := by
    rcases hs with h | h <;> simp [h]
  unfold vJudge
  rw [h1, h2, h3, h4]
  simp only [chk_false, firstOf_cons]

/-- The answer to a command that is heard and that a check of its own refuses. -/
theorem onVendor_refused {v : VSpec} {c : Caller} {inp : List Byte} {early late : State → Option VAns} {act : State → VAns × State}
    {after : State → State} {s : State} {need : Nat} (a : VAns) (h : Heard c inp s v.host v.star v.lock v.span need)
    (hf : ∀ f ∈ v.fields, f.1 + f.2 ≤ need) (ha : firstOf [early (begin s), late (begin s)] = some a) :
    onVendor v c inp early late act after s = ran (send (begin s) (.vendor c .success (vPayload v a))) := by
  have hj : vJudge v c inp early late (begin s) = some a := (vJudge_heard (s := begin s) h hf).trans ha
  obtain ⟨hr, hm, _, hx, _⟩ := h
  have hr' : reach (begin s) c = true := hr
  have hm' : turnsAway (begin s) c = false := hm
  unfold onVendor
  simp only [hr', hm', Nat.not_lt.2 hx, hj, Bool.not_true, Bool.false_eq_true, if_false]

/-- A command that is heard and that no check of its own refuses runs. -/
theorem onVendor_heard {v : VSpec} {c : Caller} {inp : List Byte} {early late : State → Option VAns} {act : State → VAns × State}
    {after : State → State} {s : State} {need : Nat} (h : Heard c inp s v.host v.star v.lock v.span need)
    (hf : ∀ f ∈ v.fields, f.1 + f.2 ≤ need) (he : early (begin s) = none) (hl : late (begin s) = none) :
    onVendor v c inp early late act after s =
      ran (if (act (begin s)).1.mstat ≤ 1 then after (send (act (begin s)).2 (.vendor c .success (vPayload v (act (begin s)).1)))
        else send (act (begin s)).2 (.vendor c .success (vPayload v (act (begin s)).1))) := by
  have hj : vJudge v c inp early late (begin s) = none := by
    rw [vJudge_heard (s := begin s) h hf, firstOf_cons, firstOf_cons, he, hl]; rfl
  obtain ⟨hr, hm, _, hx, _⟩ := h
  have hr' : reach (begin s) c = true := hr
  have hm' : turnsAway (begin s) c = false := hm
  unfold onVendor
  simp only [hr', hm', Nat.not_lt.2 hx, hj, Bool.not_true, Bool.false_eq_true, if_false]

/-! ## The three endings of a vendor command that is heard -/

/-- DONE with an effect and no output. -/
theorem ends_done {v : VSpec} {c : Caller} {inp : List Byte} {early late : State → Option VAns} {act : State → VAns × State} {s : State}
    {need : Nat} (i : Instr) (hi : exec i s = onVendor v c inp early late act id s) (h : Heard c inp s v.host v.star v.lock v.span need)
    (hf : ∀ f ∈ v.fields, f.1 + f.2 ≤ need) (he : early (begin s) = none) (hl : late (begin s) = none) (hv : v.outLen = 0) (t : State)
    (ha : act (begin s) = (vDone [], t)) : Ends i s (Told c 0 0 t) := by
  refine ⟨_, hi.trans (onVendor_heard h hf he hl), ?_⟩
  rw [ha]
  simp only [vDone, vPayload, hv]
  rfl

/-- Refused by one of its own checks. -/
theorem ends_refused {v : VSpec} {c : Caller} {inp : List Byte} {early late : State → Option VAns} {act : State → VAns × State}
    {after : State → State} {s : State} {need : Nat} (i : Instr) (a : VAns) (hi : exec i s = onVendor v c inp early late act after s)
    (h : Heard c inp s v.host v.star v.lock v.span need) (hf : ∀ f ∈ v.fields, f.1 + f.2 ≤ need)
    (he : firstOf [early (begin s), late (begin s)] = some a) (hm : 1 < a.mstat) : Ends i s (Replies c s (reply a.mstat a.job a.out)) := by
  refine ⟨_, hi.trans (onVendor_refused a h hf he), ?_⟩
  simp only [vPayload, Nat.not_le.2 hm, if_false]
  rfl

/-- DONE with an output and no effect. -/
theorem ends_query {v : VSpec} {c : Caller} {inp : List Byte} {early late : State → Option VAns} {f : State → List Byte} {s : State}
    {need : Nat} (i : Instr) (hi : exec i s = onVendor v c inp early late (vQuery f) id s) (h : Heard c inp s v.host v.star v.lock v.span need)
    (hf : ∀ f ∈ v.fields, f.1 + f.2 ≤ need) (he : early (begin s) = none) (hl : late (begin s) = none) (P : State → Prop)
    (hP : ∀ p, p = reply 0 0 (padTo (max v.outLen (f (begin s)).length) (f (begin s))) → P { begin s with out := [.vendor c .success p] }) :
    Ends i s P := by
  refine ⟨_, hi.trans (onVendor_heard h hf he hl), ?_⟩
  exact hP (vPayload v (vDone (f (begin s)))) (by simp [vPayload, vDone, reply])

/-- A CXL or FM API command that is taken runs. -/
theorem onCxl_taken {c : Caller} {fm memory : Bool} {act : State → CAns × State} {after : State → State} {s : State} (h : Taken c s fm memory) :
    onCxl c fm memory act after s =
      ran (if (act (begin s)).1.1 = .success ∨ (act (begin s)).1.1 = .background then
          after (send (act (begin s)).2 (.cxl c (act (begin s)).1.1 (act (begin s)).1.2))
        else send (act (begin s)).2 (.cxl c (act (begin s)).1.1 (act (begin s)).1.2)) := by
  obtain ⟨hr, hu, hm, hf, ha⟩ := h
  have hr' : reach (begin s) c = true := hr
  have hu' : cmdUp (begin s) = true := hu
  have hm' : turnsAway (begin s) c = false := hm
  have hf' : (fm && isHostLd (begin s) c) = false := by
    cases hv : fm
    · rfl
    · exact hf hv
  have ha' : (memory && !(begin s).host.memoryActive) = false := by
    cases hv : memory
    · rfl
    · have : (begin s).host.memoryActive = true := ha hv
      rw [this]; rfl
  unfold onCxl
  simp only [hr', hu', hm', hf', ha', Bool.not_true, Bool.false_eq_true, if_false]

/-- The fields of an answer: MSTAT with JOB, and a field of its output. -/
theorem field_reply_mstat (r : List Byte) : field (reply 0 0 r) 0 4 = 0 := rfl

theorem field_reply (m j : Nat) (r : List Byte) (o n : Nat) (h : 4 ≤ o) : field (reply m j r) o n = field r (o - 4) n := by
  rw [reply, List.append_assoc, field_behind _ _ _ _ _ (by omega), field_behind _ _ _ _ _ (by omega), Nat.sub_sub]

end Sys2Proof.Machine
end

