-- ==== Sys2Proof/Laws/Keep.lean ====
section
/-! SUPPORT. What the four classes of untouched sections (Safety) say of a record update, a fold, a repetition and a choice. -/

set_option linter.all false

namespace Sys2Proof.Machine

@[simp] theorem keepE_mk (s : State) {x_out x_host x_queue x_wb x_evt x_sb} : keepE (State.mk s.pending x_out s.free s.variant s.id s.time s.tt s.unit x_host s.cache s.rstat s.write s.xlat s.mm s.lp s.media s.span x_queue x_wb x_evt x_sb s.power s.therm s.start s.fw s.sec) = keepE s := (rfl)

@[simp] theorem keepE_foldl {α : Type} (g : State → α → State) (l : List α) (s : State) (h : ∀ s a, keepE (g s a) = keepE s) : keepE (l.foldl g s) = keepE s := by induction l generalizing s with | nil => rfl | cons a l ih => simp only [List.foldl_cons, ih, h]

@[simp] theorem keepE_times (n : Nat) (g : State → State) (s : State) (h : ∀ s, keepE (g s) = keepE s) : keepE (times n g s) = keepE s := by induction n generalizing s with | zero => rfl | succ n ih => simp only [times, ih, h]

theorem keepE_foldl2 {α β : Type} (g : β × State → α → β × State) (l : List α) (p : β × State) (h : ∀ p a, keepE (g p a).2 = keepE p.2) : keepE (l.foldl g p).2 = keepE p.2 := by induction l generalizing p with | nil => rfl | cons a l ih => simp only [List.foldl_cons, ih, h]

theorem keepE_ite {c : Prop} [Decidable c] (a b : State) : keepE (if c then a else b) = if c then keepE a else keepE b := by split <;> rfl

@[simp] theorem keepM_mk (s : State) {x_out x_free x_tt x_unit x_host x_cache x_rstat x_write x_xlat x_mm x_lp x_media x_span x_queue x_wb x_evt x_sb} : keepM (State.mk s.pending x_out x_free s.variant s.id s.time x_tt x_unit x_host x_cache x_rstat x_write x_xlat x_mm x_lp x_media x_span x_queue x_wb x_evt x_sb s.power s.therm s.start s.fw s.sec) = keepM s := (rfl)

@[simp] theorem keepM_foldl {α : Type} (g : State → α → State) (l : List α) (s : State) (h : ∀ s a, keepM (g s a) = keepM s) : keepM (l.foldl g s) = keepM s := by induction l generalizing s with | nil => rfl | cons a l ih => simp only [List.foldl_cons, ih, h]

@[simp] theorem keepM_times (n : Nat) (g : State → State) (s : State) (h : ∀ s, keepM (g s) = keepM s) : keepM (times n g s) = keepM s := by induction n generalizing s with | zero => rfl | succ n ih => simp only [times, ih, h]

theorem keepM_foldl2 {α β : Type} (g : β × State → α → β × State) (l : List α) (p : β × State) (h : ∀ p a, keepM (g p a).2 = keepM p.2) : keepM (l.foldl g p).2 = keepM p.2 := by induction l generalizing p with | nil => rfl | cons a l ih => simp only [List.foldl_cons, ih, h]

theorem keepM_ite {c : Prop} [Decidable c] (a b : State) : keepM (if c then a else b) = if c then keepM a else keepM b := by split <;> rfl

@[simp] theorem keepS_mk (s : State) {x_out x_free x_id x_time x_tt x_unit x_host x_cache x_rstat x_write x_xlat x_mm x_lp x_media x_span x_queue x_wb x_evt x_sb x_power x_therm x_start x_fw} : keepS (State.mk s.pending x_out x_free s.variant x_id x_time x_tt x_unit x_host x_cache x_rstat x_write x_xlat x_mm x_lp x_media x_span x_queue x_wb x_evt x_sb x_power x_therm x_start x_fw s.sec) = keepS s := (rfl)

@[simp] theorem keepS_foldl {α : Type} (g : State → α → State) (l : List α) (s : State) (h : ∀ s a, keepS (g s a) = keepS s) : keepS (l.foldl g s) = keepS s := by induction l generalizing s with | nil => rfl | cons a l ih => simp only [List.foldl_cons, ih, h]

@[simp] theorem keepS_times (n : Nat) (g : State → State) (s : State) (h : ∀ s, keepS (g s) = keepS s) : keepS (times n g s) = keepS s := by induction n generalizing s with | zero => rfl | succ n ih => simp only [times, ih, h]

theorem keepS_foldl2 {α β : Type} (g : β × State → α → β × State) (l : List α) (p : β × State) (h : ∀ p a, keepS (g p a).2 = keepS p.2) : keepS (l.foldl g p).2 = keepS p.2 := by induction l generalizing p with | nil => rfl | cons a l ih => simp only [List.foldl_cons, ih, h]

theorem keepS_ite {c : Prop} [Decidable c] (a b : State) : keepS (if c then a else b) = if c then keepS a else keepS b := by split <;> rfl

@[simp] theorem keepA_mk (s : State) {x_out x_free x_id x_time x_tt x_unit x_host x_cache x_rstat x_write x_xlat x_mm x_lp x_media x_span x_queue x_wb x_evt x_sb x_power x_therm x_start x_fw x_sec} : keepA (State.mk s.pending x_out x_free s.variant x_id x_time x_tt x_unit x_host x_cache x_rstat x_write x_xlat x_mm x_lp x_media x_span x_queue x_wb x_evt x_sb x_power x_therm x_start x_fw x_sec) = keepA s := (rfl)

@[simp] theorem keepA_foldl {α : Type} (g : State → α → State) (l : List α) (s : State) (h : ∀ s a, keepA (g s a) = keepA s) : keepA (l.foldl g s) = keepA s := by induction l generalizing s with | nil => rfl | cons a l ih => simp only [List.foldl_cons, ih, h]

@[simp] theorem keepA_times (n : Nat) (g : State → State) (s : State) (h : ∀ s, keepA (g s) = keepA s) : keepA (times n g s) = keepA s := by induction n generalizing s with | zero => rfl | succ n ih => simp only [times, ih, h]

theorem keepA_foldl2 {α β : Type} (g : β × State → α → β × State) (l : List α) (p : β × State) (h : ∀ p a, keepA (g p a).2 = keepA p.2) : keepA (l.foldl g p).2 = keepA p.2 := by induction l generalizing p with | nil => rfl | cons a l ih => simp only [List.foldl_cons, ih, h]

theorem keepA_ite {c : Prop} [Decidable c] (a b : State) : keepA (if c then a else b) = if c then keepA a else keepA b := by split <;> rfl

theorem keepE_ite_eq {c : Prop} [Decidable c] {a b s : State} (ha : keepE a = keepE s) (hb : keepE b = keepE s) : keepE (if c then a else b) = keepE s := by split <;> assumption

theorem keepM_ite_eq {c : Prop} [Decidable c] {a b s : State} (ha : keepM a = keepM s) (hb : keepM b = keepM s) : keepM (if c then a else b) = keepM s := by split <;> assumption

theorem keepS_ite_eq {c : Prop} [Decidable c] {a b s : State} (ha : keepS a = keepS s) (hb : keepS b = keepS s) : keepS (if c then a else b) = keepS s := by split <;> assumption

theorem keepA_ite_eq {c : Prop} [Decidable c] {a b s : State} (ha : keepA a = keepA s) (hb : keepA b = keepA s) : keepA (if c then a else b) = keepA s := by split <;> assumption

theorem keepM_pair {α β : Type} (f : α → β) (r : α × State) : keepM (let r := r; (f r.1, r.2)).2 = keepM r.2 := (rfl)

theorem keepEM {s t : State} (h : keepE s = keepE t) : keepM s = keepM t := by simp only [keepE, Prod.mk.injEq] at h; simp only [keepM, Prod.mk.injEq, h, and_self]

theorem keepMS {s t : State} (h : keepM s = keepM t) : keepS s = keepS t := by simp only [keepM, Prod.mk.injEq] at h; simp only [keepS, Prod.mk.injEq, h, and_self]

theorem keepSA {s t : State} (h : keepS s = keepS t) : keepA s = keepA t := by simp only [keepS, Prod.mk.injEq] at h; simp only [keepA, Prod.mk.injEq, h, and_self]

end Sys2Proof.Machine
end

