-- ==== Sys2Proof/Laws/Keep1.lean ====
section
/-! SUPPORT. What each shared operation leaves alone, one lemma for each operation and class, in the order the operations call each other, part 1: `fire` to `ncPutTwo`. -/

set_option linter.all false

namespace Sys2Proof.Machine

@[simp] theorem fire_keepE (p : ℕ) (u : ℕ) (s : State) : keepE (fire p u s) = keepE s := by
  unfold fire
  repeat' first | simp only [keepE_mk, keepE_times, keepE_foldl, keepE_ite, apply_ite Prod.fst, apply_ite Prod.snd, ite_self, implies_true] | split

@[simp] theorem fire_keepM (p : ℕ) (u : ℕ) (s : State) : keepM (fire p u s) = keepM s := keepEM (fire_keepE p u s)

@[simp] theorem fire_keepS (p : ℕ) (u : ℕ) (s : State) : keepS (fire p u s) = keepS s := keepMS (fire_keepM p u s)

@[simp] theorem fire_keepA (p : ℕ) (u : ℕ) (s : State) : keepA (fire p u s) = keepA s := keepSA (fire_keepS p u s)

@[simp] theorem hbmWrite_keepM (u : HbmUnit) (s : State) : keepM (hbmWrite u s) = keepM s := by
  unfold hbmWrite
  repeat' first | simp only [keepM_mk, keepM_times, keepM_foldl, keepM_ite, apply_ite Prod.fst, apply_ite Prod.snd, ite_self, implies_true, fire_keepM] | split

@[simp] theorem drawBits_keepM (w : ℕ) (s : State) : keepM (drawBits w s).2 = keepM s := by
  unfold drawBits
  repeat' first | simp only [keepM_mk, keepM_times, keepM_foldl, keepM_ite, apply_ite Prod.fst, apply_ite Prod.snd, ite_self, implies_true] | split

@[simp] theorem drawBits_keepS (w : ℕ) (s : State) : keepS (drawBits w s).2 = keepS s := keepMS (drawBits_keepM w s)

@[simp] theorem drawBits_keepA (w : ℕ) (s : State) : keepA (drawBits w s).2 = keepA s := keepSA (drawBits_keepS w s)

@[simp] theorem startRemap_keepM (p : ℕ × ℕ) (s : State) : keepM (startRemap p s) = keepM s := by
  unfold startRemap
  repeat' first | simp only [keepM_mk, keepM_times, keepM_foldl, keepM_ite, apply_ite Prod.fst, apply_ite Prod.snd, ite_self, implies_true] | split

@[simp] theorem sbAbandon_keepE (s : State) (r : SbReq) : keepE (sbAbandon s r) = keepE s := by
  unfold sbAbandon
  repeat' first | simp only [keepE_mk, keepE_times, keepE_foldl, keepE_ite, apply_ite Prod.fst, apply_ite Prod.snd, ite_self, implies_true] | split

@[simp] theorem sbApply_keepE (s : State) (x1 : SbReq) : keepE (sbApply s x1) = keepE s := by
  unfold sbApply
  repeat' first | simp only [keepE_mk, keepE_times, keepE_foldl, keepE_ite, apply_ite Prod.fst, apply_ite Prod.snd, ite_self, implies_true, fire_keepE] | split

@[simp] theorem sbStartFrom_keepE (x0 : List SbReq) (x1 : State) : keepE (sbStartFrom x0 x1) = keepE x1 := by
  induction x0 generalizing x1 with
  | nil => rfl
  | cons r l ih =>
    unfold sbStartFrom
    split
    · simp only [keepE_mk, sbApply_keepE]
    · simp only [ih, sbAbandon_keepE]

@[simp] theorem sbStart_keepE (s : State) : keepE (sbStart s) = keepE s := by
  unfold sbStart
  repeat' first | simp only [keepE_mk, keepE_times, keepE_foldl, keepE_ite, apply_ite Prod.fst, apply_ite Prod.snd, ite_self, implies_true, sbStartFrom_keepE] | split

@[simp] theorem sbEnqueue_keepE (s : State) (r : SbReq) : keepE (sbEnqueue s r) = keepE s := by
  unfold sbEnqueue
  repeat' first | simp only [keepE_mk, keepE_times, keepE_foldl, keepE_ite, apply_ite Prod.fst, apply_ite Prod.snd, ite_self, implies_true, sbStart_keepE] | split

@[simp] theorem sbEnqueue_keepM (s : State) (r : SbReq) : keepM (sbEnqueue s r) = keepM s := keepEM (sbEnqueue_keepE s r)

@[simp] theorem sbEnqueue_keepS (s : State) (r : SbReq) : keepS (sbEnqueue s r) = keepS s := keepMS (sbEnqueue_keepM s r)

@[simp] theorem sbEnqueue_keepA (s : State) (r : SbReq) : keepA (sbEnqueue s r) = keepA s := keepSA (sbEnqueue_keepS s r)

@[simp] theorem wbPump_keepE (s : State) : keepE (wbPump s) = keepE s := by
  unfold wbPump
  repeat' first | simp only [keepE_mk, keepE_times, keepE_foldl, keepE_ite, apply_ite Prod.fst, apply_ite Prod.snd, ite_self, implies_true, sbEnqueue_keepE] | split

@[simp] theorem wbFlush_keepE (s : State) : keepE (wbFlush s) = keepE s := by
  unfold wbFlush
  repeat' first | simp only [keepE_mk, keepE_times, keepE_foldl, keepE_ite, apply_ite Prod.fst, apply_ite Prod.snd, ite_self, implies_true, wbPump_keepE] | split

@[simp] theorem wbFlush_keepM (s : State) : keepM (wbFlush s) = keepM s := keepEM (wbFlush_keepE s)

@[simp] theorem wbFlush_keepS (s : State) : keepS (wbFlush s) = keepS s := keepMS (wbFlush_keepM s)

@[simp] theorem wbTrigger_keepE (sev : ℕ) (s : State) : keepE (wbTrigger sev s) = keepE s := by
  unfold wbTrigger
  repeat' first | simp only [keepE_mk, keepE_times, keepE_foldl, keepE_ite, apply_ite Prod.fst, apply_ite Prod.snd, ite_self, implies_true, wbFlush_keepE] | split

@[simp] theorem send_keepE (s : State) (o : Out) : keepE (send s o) = keepE s := by
  unfold send
  repeat' first | simp only [keepE_mk, keepE_times, keepE_foldl, keepE_ite, apply_ite Prod.fst, apply_ite Prod.snd, ite_self, implies_true] | split

@[simp] theorem send_keepM (s : State) (o : Out) : keepM (send s o) = keepM s := keepEM (send_keepE s o)

@[simp] theorem send_keepS (s : State) (o : Out) : keepS (send s o) = keepS s := keepMS (send_keepM s o)

@[simp] theorem send_keepA (s : State) (o : Out) : keepA (send s o) = keepA s := keepSA (send_keepS s o)

@[simp] theorem pendVec_keepE (f : ℕ) (v : ℕ) (s : State) : keepE (pendVec f v s) = keepE s := by
  unfold pendVec
  repeat' first | simp only [keepE_mk, keepE_times, keepE_foldl, keepE_ite, apply_ite Prod.fst, apply_ite Prod.snd, ite_self, implies_true] | split

@[simp] theorem signal_keepE (v : BitVec 5) (s : State) : keepE (signal v s) = keepE s := by
  unfold signal
  repeat' first | simp only [keepE_mk, keepE_times, keepE_foldl, keepE_ite, apply_ite Prod.fst, apply_ite Prod.snd, ite_self, implies_true, send_keepE, pendVec_keepE] | split

@[simp] theorem signal_keepM (v : BitVec 5) (s : State) : keepM (signal v s) = keepM s := keepEM (signal_keepE v s)

@[simp] theorem setEvt_keepE (b : ℕ) (s : State) : keepE (setEvt b s) = keepE s := by
  unfold setEvt
  repeat' first | simp only [keepE_mk, keepE_times, keepE_foldl, keepE_ite, apply_ite Prod.fst, apply_ite Prod.snd, ite_self, implies_true, signal_keepE] | split

@[simp] theorem setEvt_keepM (b : ℕ) (s : State) : keepM (setEvt b s) = keepM s := keepEM (setEvt_keepE b s)

@[simp] theorem evFlags_keepE (e : Ev) (s : State) : keepE (evFlags e s) = keepE s := by
  unfold evFlags
  repeat' first | simp only [keepE_mk, keepE_times, keepE_foldl, keepE_ite, apply_ite Prod.fst, apply_ite Prod.snd, ite_self, implies_true, setEvt_keepE] | split

@[simp] theorem setQ_keepE (q : ℕ) (f : Queue → Queue) (s : State) : keepE (setQ q f s) = keepE s := by
  unfold setQ
  repeat' first | simp only [keepE_mk, keepE_times, keepE_foldl, keepE_ite, apply_ite Prod.fst, apply_ite Prod.snd, ite_self, implies_true] | split

@[simp] theorem setQ_keepM (q : ℕ) (f : Queue → Queue) (s : State) : keepM (setQ q f s) = keepM s := keepEM (setQ_keepE q f s)

@[simp] theorem qGrant_keepE (q : ℕ) (s : State) : keepE (qGrant q s) = keepE s := by
  unfold qGrant
  repeat' first | simp only [keepE_mk, keepE_times, keepE_foldl, keepE_ite, apply_ite Prod.fst, apply_ite Prod.snd, ite_self, implies_true, setQ_keepE] | split

@[simp] theorem qPush_keepE (q : ℕ) (w : BitVec 64) (poison : Bool) (s : State) : keepE (qPush q w poison s).2 = keepE s := by
  unfold qPush
  repeat' first | simp only [keepE_mk, keepE_times, keepE_foldl, keepE_ite, apply_ite Prod.fst, apply_ite Prod.snd, ite_self, implies_true, fire_keepE, qGrant_keepE, setQ_keepE] | split

@[simp] theorem hostNotice_keepE (code : ℕ) (unit : ℕ) (param : ℕ) (s : State) : keepE (hostNotice code unit param s) = keepE s := by
  unfold hostNotice
  repeat' first | simp only [keepE_mk, keepE_times, keepE_foldl, keepE_ite, apply_ite Prod.fst, apply_ite Prod.snd, ite_self, implies_true, qPush_keepE] | split

@[simp] theorem logPend_keepE (l : ℕ) (i : ℕ) (d : Ld) (s : State) : keepE (logPend l i d s) = keepE s := by
  unfold logPend
  repeat' first | simp only [keepE_mk, keepE_times, keepE_foldl, keepE_ite, apply_ite Prod.fst, apply_ite Prod.snd, ite_self, implies_true, pendVec_keepE] | split

@[simp] theorem deliver_keepE (s : State) (r : WbRec) (vc : Option ℕ) : keepE (deliver s r vc) = keepE s := by
  unfold deliver
  repeat' first | simp only [keepE_mk, keepE_times, keepE_foldl, keepE_ite, apply_ite Prod.fst, apply_ite Prod.snd, ite_self, implies_true, logPend_keepE] | split

@[simp] theorem deliver_keepM (s : State) (r : WbRec) (vc : Option ℕ) : keepM (deliver s r vc) = keepM s := keepEM (deliver_keepE s r vc)

@[simp] theorem deliver_keepS (s : State) (r : WbRec) (vc : Option ℕ) : keepS (deliver s r vc) = keepS s := keepMS (deliver_keepM s r vc)

@[simp] theorem deliver_keepA (s : State) (r : WbRec) (vc : Option ℕ) : keepA (deliver s r vc) = keepA s := keepSA (deliver_keepS s r vc)

@[simp] theorem toHost_keepE (s : State) (r : WbRec) (vc : Option ℕ) : keepE (toHost s r vc) = keepE s := by
  unfold toHost
  repeat' first | simp only [keepE_mk, keepE_times, keepE_foldl, keepE_ite, apply_ite Prod.fst, apply_ite Prod.snd, ite_self, implies_true, deliver_keepE] | split

@[simp] theorem wbLost_keepE (sev : ℕ) (old : Option (BitVec 32)) (s : State) : keepE (wbLost sev old s) = keepE s := by
  unfold wbLost
  repeat' first | simp only [keepE_mk, keepE_times, keepE_foldl, keepE_ite, apply_ite Prod.fst, apply_ite Prod.snd, ite_self, implies_true, setEvt_keepE] | split

@[simp] theorem wbAppend_keepE (r : WbRec) (s : State) : keepE (wbAppend r s) = keepE s := by
  unfold wbAppend
  repeat' first | simp only [keepE_mk, keepE_times, keepE_foldl, keepE_ite, apply_ite Prod.fst, apply_ite Prod.snd, ite_self, implies_true] | split

@[simp] theorem wbArrive_keepE (r : WbRec) (s : State) : keepE (wbArrive r s).2 = keepE s := by
  unfold wbArrive
  repeat' first | simp only [keepE_mk, keepE_times, keepE_foldl, keepE_ite, apply_ite Prod.fst, apply_ite Prod.snd, ite_self, implies_true, wbLost_keepE, wbAppend_keepE] | split

@[simp] theorem event_keepE (e : Ev) (s : State) : keepE (event e s) = keepE s := by
  unfold event
  repeat' first | simp only [keepE_mk, keepE_times, keepE_foldl, keepE_ite, apply_ite Prod.fst, apply_ite Prod.snd, ite_self, implies_true, wbTrigger_keepE, evFlags_keepE, hostNotice_keepE, toHost_keepE, wbArrive_keepE] | split

@[simp] theorem event_keepM (e : Ev) (s : State) : keepM (event e s) = keepM s := keepEM (event_keepE e s)

@[simp] theorem event_keepS (e : Ev) (s : State) : keepS (event e s) = keepS s := keepMS (event_keepM e s)

@[simp] theorem event_keepA (e : Ev) (s : State) : keepA (event e s) = keepA s := keepSA (event_keepS e s)

@[simp] theorem ceError_keepE (cls : ℕ) (ix : ℕ) (s : State) : keepE (ceError cls ix s) = keepE s := by
  unfold ceError
  repeat' first | simp only [keepE_mk, keepE_times, keepE_foldl, keepE_ite, apply_ite Prod.fst, apply_ite Prod.snd, ite_self, implies_true, event_keepE] | split

@[simp] theorem ceError_keepM (cls : ℕ) (ix : ℕ) (s : State) : keepM (ceError cls ix s) = keepM s := keepEM (ceError_keepE cls ix s)

@[simp] theorem hbmCorrect_keepM (p : ℕ × ℕ) (s : State) : keepM (hbmCorrect p s) = keepM s := by
  unfold hbmCorrect
  repeat' first | simp only [keepM_mk, keepM_times, keepM_foldl, keepM_ite, apply_ite Prod.fst, apply_ite Prod.snd, ite_self, implies_true, startRemap_keepM, ceError_keepM] | split

@[simp] theorem hbmMeet.hbmErrMeet_keepM (u : HbmUnit) (s : State) : keepM (hbmMeet.hbmErrMeet u s).2 = keepM s := by
  unfold hbmMeet.hbmErrMeet
  repeat' first | simp only [keepM_mk, keepM_times, keepM_foldl, keepM_ite, apply_ite Prod.fst, apply_ite Prod.snd, ite_self, implies_true, hbmWrite_keepM, drawBits_keepM, startRemap_keepM, hbmCorrect_keepM, event_keepM] | split

@[simp] theorem hbmMeet.hbmErrMeet_keepS (u : HbmUnit) (s : State) : keepS (hbmMeet.hbmErrMeet u s).2 = keepS s := keepMS (hbmMeet.hbmErrMeet_keepM u s)

@[simp] theorem hbmMeet.hbmErrMeet_keepA (u : HbmUnit) (s : State) : keepA (hbmMeet.hbmErrMeet u s).2 = keepA s := keepSA (hbmMeet.hbmErrMeet_keepS u s)

@[simp] theorem hbmMeet_keepM (u : HbmUnit) (s : State) : keepM (hbmMeet u s).2 = keepM s := by
  unfold hbmMeet
  repeat' first | simp only [keepM_mk, keepM_times, keepM_foldl, keepM_ite, apply_ite Prod.fst, apply_ite Prod.snd, ite_self, implies_true, hbmMeet.hbmErrMeet_keepM, event_keepM] | split

@[simp] theorem tagTouch_keepM (tag : ℕ) (s : State) : keepM (tagTouch tag s) = keepM s := by
  unfold tagTouch
  repeat' first | simp only [keepM_mk, keepM_times, keepM_foldl, keepM_ite, apply_ite Prod.fst, apply_ite Prod.snd, ite_self, implies_true, fire_keepM, ceError_keepM] | split

@[simp] theorem pageTagTouch_keepM (page : ℕ) (s : State) : keepM (pageTagTouch page s) = keepM s := by
  unfold pageTagTouch
  repeat' first | simp only [keepM_mk, keepM_times, keepM_foldl, keepM_ite, apply_ite Prod.fst, apply_ite Prod.snd, ite_self, implies_true, tagTouch_keepM] | split

@[simp] theorem pageDrop_keepM (k : ℕ) (s : State) : keepM (pageDrop k s) = keepM s := by
  unfold pageDrop
  repeat' first | simp only [keepM_mk, keepM_times, keepM_foldl, keepM_ite, apply_ite Prod.fst, apply_ite Prod.snd, ite_self, implies_true, hbmWrite_keepM, pageTagTouch_keepM] | split

@[simp] theorem pageClear_keepM (lln : ℕ) (s : State) : keepM (pageClear lln s) = keepM s := by
  unfold pageClear
  repeat' first | simp only [keepM_mk, keepM_times, keepM_foldl, keepM_ite, apply_ite Prod.fst, apply_ite Prod.snd, ite_self, implies_true, hbmWrite_keepM, pageTagTouch_keepM] | split

@[simp] theorem pageRead_keepM (lln : ℕ) (s : State) : keepM (pageRead lln s).2 = keepM s := by
  unfold pageRead
  repeat' first | simp only [keepM_mk, keepM_times, keepM_foldl, keepM_ite, apply_ite Prod.fst, apply_ite Prod.snd, ite_self, implies_true, hbmMeet_keepM, pageDrop_keepM, pageClear_keepM] | split

@[simp] theorem pageFill_keepM (lln : ℕ) (data : Line) (s : State) : keepM (pageFill lln data s) = keepM s := by
  unfold pageFill
  repeat' first | simp only [keepM_mk, keepM_times, keepM_foldl, keepM_ite, apply_ite Prod.fst, apply_ite Prod.snd, ite_self, implies_true, pageDrop_keepM, hbmWrite_keepM, pageTagTouch_keepM] | split

@[simp] theorem pageUpdate_keepM (lln : ℕ) (d : DSlot) (s : State) : keepM (pageUpdate lln d s) = keepM s := by
  unfold pageUpdate
  repeat' first | simp only [keepM_mk, keepM_times, keepM_foldl, keepM_ite, apply_ite Prod.fst, apply_ite Prod.snd, ite_self, implies_true, pageRead_keepM, pageFill_keepM] | split

@[simp] theorem slotTagTouch_keepM (lln : ℕ) (s : State) : keepM (slotTagTouch lln s) = keepM s := by
  unfold slotTagTouch
  repeat' first | simp only [keepM_mk, keepM_times, keepM_foldl, keepM_ite, apply_ite Prod.fst, apply_ite Prod.snd, ite_self, implies_true, tagTouch_keepM] | split

@[simp] theorem tagsWritten_keepM (lln : ℕ) (s : State) : keepM (tagsWritten lln s) = keepM s := by
  unfold tagsWritten
  repeat' first | simp only [keepM_mk, keepM_times, keepM_foldl, keepM_ite, apply_ite Prod.fst, apply_ite Prod.snd, ite_self, implies_true, hbmWrite_keepM, slotTagTouch_keepM] | split

@[simp] theorem freeSlot_keepM (lln : ℕ) (s : State) : keepM (freeSlot lln s) = keepM s := by
  unfold freeSlot
  repeat' first | simp only [keepM_mk, keepM_times, keepM_foldl, keepM_ite, apply_ite Prod.fst, apply_ite Prod.snd, ite_self, implies_true, hbmWrite_keepM, tagsWritten_keepM] | split

@[simp] theorem updLoad_keepM (s : State) : keepM (updLoad s) = keepM s := by
  unfold updLoad
  repeat' first | simp only [keepM_mk, keepM_times, keepM_foldl, keepM_ite, apply_ite Prod.fst, apply_ite Prod.snd, ite_self, implies_true] | split

@[simp] theorem updLoad_keepS (s : State) : keepS (updLoad s) = keepS s := keepMS (updLoad_keepM s)

@[simp] theorem updLoad_keepA (s : State) : keepA (updLoad s) = keepA s := keepSA (updLoad_keepS s)

@[simp] theorem completeThrough_keepM (s : State) : keepM (completeThrough s) = keepM s := by
  unfold completeThrough
  repeat' first | simp only [keepM_mk, keepM_times, keepM_foldl, keepM_ite, apply_ite Prod.fst, apply_ite Prod.snd, ite_self, implies_true, send_keepM, updLoad_keepM] | split

@[simp] theorem endJob_keepM (id : BitVec 16) (mstat : ℕ) (s : State) : keepM (endJob id mstat s) = keepM s := by
  unfold endJob
  repeat' first | simp only [keepM_mk, keepM_times, keepM_foldl, keepM_ite, apply_ite Prod.fst, apply_ite Prod.snd, ite_self, implies_true, drawBits_keepM, event_keepM] | split

@[simp] theorem endJob_keepS (id : BitVec 16) (mstat : ℕ) (s : State) : keepS (endJob id mstat s) = keepS s := keepMS (endJob_keepM id mstat s)

@[simp] theorem endJob_keepA (id : BitVec 16) (mstat : ℕ) (s : State) : keepA (endJob id mstat s) = keepA s := keepSA (endJob_keepS id mstat s)

@[simp] theorem ncSetWay_keepM (s : State) (k : ℕ) (w : NcWay) : keepM (ncSetWay s k w) = keepM s := by
  unfold ncSetWay
  repeat' first | simp only [keepM_mk, keepM_times, keepM_foldl, keepM_ite, apply_ite Prod.fst, apply_ite Prod.snd, ite_self, implies_true] | split

@[simp] theorem invalidateLine_keepM (lln : ℕ) (s : State) : keepM (invalidateLine lln s) = keepM s := by
  unfold invalidateLine
  repeat' first | simp only [keepM_mk, keepM_times, keepM_foldl, keepM_ite, apply_ite Prod.fst, apply_ite Prod.snd, ite_self, implies_true, pageClear_keepM, ncSetWay_keepM] | split

@[simp] theorem flushJobs_keepM (done : Option ℕ) (s : State) : keepM (flushJobs done s) = keepM s := by
  unfold flushJobs
  repeat' first | simp only [keepM_mk, keepM_times, keepM_foldl, keepM_ite, apply_ite Prod.fst, apply_ite Prod.snd, ite_self, implies_true, endJob_keepM, invalidateLine_keepM] | split | refine Eq.trans (keepM_foldl _ _ _ (fun _ _ => ?_)) ?_ | refine Eq.trans (keepM_foldl2 _ _ _ (fun _ _ => ?_)) ?_ | refine Eq.trans (keepM_times _ _ _ (fun _ => ?_)) ?_

@[simp] theorem flushJobs_keepS (done : Option ℕ) (s : State) : keepS (flushJobs done s) = keepS s := keepMS (flushJobs_keepM done s)

@[simp] theorem flushJobs_keepA (done : Option ℕ) (s : State) : keepA (flushJobs done s) = keepA s := keepSA (flushJobs_keepS done s)

@[simp] theorem markSlot_keepM (lln : ℕ) (f : DSlot → DSlot) (s : State) : keepM (markSlot lln f s) = keepM s := by
  unfold markSlot
  repeat' first | simp only [keepM_mk, keepM_times, keepM_foldl, keepM_ite, apply_ite Prod.fst, apply_ite Prod.snd, ite_self, implies_true, tagsWritten_keepM] | split

@[simp] theorem lineClean_keepM (lln : ℕ) (s : State) : keepM (lineClean lln s) = keepM s := by
  unfold lineClean
  repeat' first | simp only [keepM_mk, keepM_times, keepM_foldl, keepM_ite, apply_ite Prod.fst, apply_ite Prod.snd, ite_self, implies_true, pageUpdate_keepM, freeSlot_keepM, updLoad_keepM, completeThrough_keepM, flushJobs_keepM, markSlot_keepM] | split

@[simp] theorem setBand_keepM (b : ℕ) (f : Band → Band) (s : State) : keepM (setBand b f s) = keepM s := by
  unfold setBand
  repeat' first | simp only [keepM_mk, keepM_times, keepM_foldl, keepM_ite, apply_ite Prod.fst, apply_ite Prod.snd, ite_self, implies_true] | split

@[simp] theorem setBand_keepS (b : ℕ) (f : Band → Band) (s : State) : keepS (setBand b f s) = keepS s := keepMS (setBand_keepM b f s)

@[simp] theorem markDraining_keepM (lfn : ℕ) (v : Bool) (s : State) : keepM (markDraining lfn v s) = keepM s := by
  unfold markDraining
  repeat' first | simp only [keepM_mk, keepM_times, keepM_foldl, keepM_ite, apply_ite Prod.fst, apply_ite Prod.snd, ite_self, implies_true, markSlot_keepM] | split

@[simp] theorem setStream_keepM (i : ℕ) (f : Machine.Stream → Machine.Stream) (s : State) : keepM (setStream i f s) = keepM s := by
  unfold setStream
  repeat' first | simp only [keepM_mk, keepM_times, keepM_foldl, keepM_ite, apply_ite Prod.fst, apply_ite Prod.snd, ite_self, implies_true] | split

@[simp] theorem sealBatch_keepM (r : ℕ) (hdr : List Byte) (b : Batch) (s : State) : keepM (sealBatch r hdr b s).2 = keepM s := by
  unfold sealBatch
  repeat' first | simp only [keepM_mk, keepM_times, keepM_foldl, keepM_ite, apply_ite Prod.fst, apply_ite Prod.snd, ite_self, implies_true, fire_keepM, setStream_keepM] | split

@[simp] theorem setPeer_keepM (r : ℕ) (f : Peer → Peer) (s : State) : keepM (setPeer r f s) = keepM s := by
  unfold setPeer
  repeat' first | simp only [keepM_mk, keepM_times, keepM_foldl, keepM_ite, apply_ite Prod.fst, apply_ite Prod.snd, ite_self, implies_true] | split

@[simp] theorem setPeer_keepS (r : ℕ) (f : Peer → Peer) (s : State) : keepS (setPeer r f s) = keepS s := keepMS (setPeer_keepM r f s)

@[simp] theorem setPeer_keepA (r : ℕ) (f : Peer → Peer) (s : State) : keepA (setPeer r f s) = keepA s := keepSA (setPeer_keepS r f s)

@[simp] theorem peerWrite_keepM (r : ℕ) (ring : Bool) (m : PeerMsg) (s : State) : keepM (peerWrite r ring m s) = keepM s := by
  unfold peerWrite
  repeat' first | simp only [keepM_mk, keepM_times, keepM_foldl, keepM_ite, apply_ite Prod.fst, apply_ite Prod.snd, ite_self, implies_true, send_keepM, sealBatch_keepM, setPeer_keepM] | split

@[simp] theorem peerSend_keepM (r : ℕ) (m : PeerMsg) (s : State) : keepM (peerSend r m s) = keepM s := by
  unfold peerSend
  repeat' first | simp only [keepM_mk, keepM_times, keepM_foldl, keepM_ite, apply_ite Prod.fst, apply_ite Prod.snd, ite_self, implies_true, peerWrite_keepM, setPeer_keepM] | split

@[simp] theorem peerSend_keepS (r : ℕ) (m : PeerMsg) (s : State) : keepS (peerSend r m s) = keepS s := keepMS (peerSend_keepM r m s)

@[simp] theorem markInflight_keepM (lfn : ℕ) (v : Bool) (s : State) : keepM (markInflight lfn v s) = keepM s := by
  unfold markInflight
  repeat' first | simp only [keepM_mk, keepM_times, keepM_foldl, keepM_ite, apply_ite Prod.fst, apply_ite Prod.snd, ite_self, implies_true] | split

@[simp] theorem ftInject_keepM (lfn : ℕ) (s : State) : keepM (ftInject lfn s) = keepM s := by
  unfold ftInject
  repeat' first | simp only [keepM_mk, keepM_times, keepM_foldl, keepM_ite, apply_ite Prod.fst, apply_ite Prod.snd, ite_self, implies_true, fire_keepM] | split

@[simp] theorem ftCommit_keepM (lfn : ℕ) (e : BitVec 32) (s : State) : keepM (ftCommit lfn e s) = keepM s := by
  unfold ftCommit
  repeat' first | simp only [keepM_mk, keepM_times, keepM_foldl, keepM_ite, apply_ite Prod.fst, apply_ite Prod.snd, ite_self, implies_true, ftInject_keepM, hbmWrite_keepM] | split

@[simp] theorem commitQuiet_keepM (lfn : ℕ) (e : BitVec 32) (s : State) : keepM (commitQuiet lfn e s) = keepM s := by
  unfold commitQuiet
  repeat' first | simp only [keepM_mk, keepM_times, keepM_foldl, keepM_ite, apply_ite Prod.fst, apply_ite Prod.snd, ite_self, implies_true, ftCommit_keepM] | split

@[simp] theorem leaveSlot_keepM (sl : FoldSlot) (seq : BitVec 48) (s : State) : keepM (leaveSlot sl seq s) = keepM s := by
  unfold leaveSlot
  repeat' first | simp only [keepM_mk, keepM_times, keepM_foldl, keepM_ite, apply_ite Prod.fst, apply_ite Prod.snd, ite_self, implies_true, markDraining_keepM, peerSend_keepM, markInflight_keepM, commitQuiet_keepM] | split

@[simp] theorem leaveSlot_keepS (sl : FoldSlot) (seq : BitVec 48) (s : State) : keepS (leaveSlot sl seq s) = keepS s := keepMS (leaveSlot_keepM sl seq s)

@[simp] theorem wearBy_keepM (f : ℕ) (n : ℕ) (s : State) : keepM (wearBy f n s) = keepM s := by
  unfold wearBy
  repeat' first | simp only [keepM_mk, keepM_times, keepM_foldl, keepM_ite, apply_ite Prod.fst, apply_ite Prod.snd, ite_self, implies_true] | split

@[simp] theorem lineInject_keepE (ch : ℕ) (die : ℕ) (l : MediaLine) (s : State) : keepE (lineInject ch die l s).2 = keepE s := by
  unfold lineInject
  repeat' first | simp only [keepE_mk, keepE_times, keepE_foldl, keepE_ite, apply_ite Prod.fst, apply_ite Prod.snd, ite_self, implies_true, fire_keepE] | split

@[simp] theorem lineInject_keepM (ch : ℕ) (die : ℕ) (l : MediaLine) (s : State) : keepM (lineInject ch die l s).2 = keepM s := keepEM (lineInject_keepE ch die l s)

@[simp] theorem putLine_keepM (ch : ℕ) (die : ℕ) (bank : ℕ) (block : ℕ) (addr : ℕ) (v : Cellv) (s : State) : keepM (putLine ch die bank block addr v s) = keepM s := by
  unfold putLine
  repeat' first | simp only [keepM_mk, keepM_times, keepM_foldl, keepM_ite, apply_ite Prod.fst, apply_ite Prod.snd, ite_self, implies_true] | split

@[simp] theorem programLine_keepM (ch : ℕ) (die : ℕ) (bank : ℕ) (block : ℕ) (addr : ℕ) (l : MediaLine) (s : State) : keepM (programLine ch die bank block addr l s) = keepM s := by
  unfold programLine
  repeat' first | simp only [keepM_mk, keepM_times, keepM_foldl, keepM_ite, apply_ite Prod.fst, apply_ite Prod.snd, ite_self, implies_true, lineInject_keepM, putLine_keepM] | split

@[simp] theorem descPut_keepM (f : ℕ) (copy : ℕ) (k : ℕ) (x3 : ℕ) (s : State) : keepM (descPut f copy k x3 s) = keepM s := by
  unfold descPut
  repeat' first | simp only [keepM_mk, keepM_times, keepM_foldl, keepM_ite, apply_ite Prod.fst, apply_ite Prod.snd, ite_self, implies_true, programLine_keepM] | split

@[simp] theorem descAllocated_keepM (f : ℕ) (s : State) : keepM (descAllocated f s) = keepM s := by
  unfold descAllocated
  repeat' first | simp only [keepM_mk, keepM_times, keepM_foldl, keepM_ite, apply_ite Prod.fst, apply_ite Prod.snd, ite_self, implies_true, wearBy_keepM, descPut_keepM] | split

@[simp] theorem descWrite_keepM (f : ℕ) (s : State) : keepM (descWrite f s) = keepM s := by
  unfold descWrite
  repeat' first | simp only [keepM_mk, keepM_times, keepM_foldl, keepM_ite, apply_ite Prod.fst, apply_ite Prod.snd, ite_self, implies_true, wearBy_keepM, descPut_keepM] | split

@[simp] theorem setStamp_keepM (blk : ℕ) (f : Stamp → Stamp) (s : State) : keepM (setStamp blk f s) = keepM s := by
  unfold setStamp
  repeat' first | simp only [keepM_mk, keepM_times, keepM_foldl, keepM_ite, apply_ite Prod.fst, apply_ite Prod.snd, ite_self, implies_true] | split

@[simp] theorem dropBlock_keepM (blk : ℕ) (s : State) : keepM (dropBlock blk s) = keepM s := by
  unfold dropBlock
  repeat' first | simp only [keepM_mk, keepM_times, keepM_foldl, keepM_ite, apply_ite Prod.fst, apply_ite Prod.snd, ite_self, implies_true] | split

@[simp] theorem clearFast_keepM (f : ℕ) (ch : ℕ) (die : ℕ) (block : ℕ) (s : State) : keepM (clearFast f ch die block s) = keepM s := by
  unfold clearFast
  repeat' first | simp only [keepM_mk, keepM_times, keepM_foldl, keepM_ite, apply_ite Prod.fst, apply_ite Prod.snd, ite_self, implies_true, wearBy_keepM, programLine_keepM, setStamp_keepM, dropBlock_keepM] | split

@[simp] theorem prepareSet_keepM (f : ℕ) (s : State) : keepM (prepareSet f s) = keepM s := by
  unfold prepareSet
  repeat' first | simp only [keepM_mk, keepM_times, keepM_foldl, keepM_ite, apply_ite Prod.fst, apply_ite Prod.snd, ite_self, implies_true, clearFast_keepM] | split

@[simp] theorem fsSet_keepM (f : ℕ) (e : BitVec 64) (s : State) : keepM (fsSet f e s) = keepM s := by
  unfold fsSet
  repeat' first | simp only [keepM_mk, keepM_times, keepM_foldl, keepM_ite, apply_ite Prod.fst, apply_ite Prod.snd, ite_self, implies_true, fire_keepM] | split

@[simp] theorem takeSet_keepM (f : ℕ) (use : ℕ) (owner : ℕ) (key : ℕ) (s : State) : keepM (takeSet f use owner key s) = keepM s := by
  unfold takeSet
  repeat' first | simp only [keepM_mk, keepM_times, keepM_foldl, keepM_ite, apply_ite Prod.fst, apply_ite Prod.snd, ite_self, implies_true, descAllocated_keepM, descWrite_keepM, prepareSet_keepM, fsSet_keepM] | split

@[simp] theorem takeSet_keepS (f : ℕ) (use : ℕ) (owner : ℕ) (key : ℕ) (s : State) : keepS (takeSet f use owner key s) = keepS s := keepMS (takeSet_keepM f use owner key s)

@[simp] theorem flagCopy_keepM (set : ℕ) (copy : ℕ) (s : State) : keepM (flagCopy set copy s) = keepM s := by
  unfold flagCopy
  repeat' first | simp only [keepM_mk, keepM_times, keepM_foldl, keepM_ite, apply_ite Prod.fst, apply_ite Prod.snd, ite_self, implies_true, fsSet_keepM] | split

@[simp] theorem fastStore_keepM (set : ℕ) (copy : ℕ) (pos : ℕ) (l : MediaLine) (s : State) : keepM (fastStore set copy pos l s) = keepM s := by
  unfold fastStore
  repeat' first | simp only [keepM_mk, keepM_times, keepM_foldl, keepM_ite, apply_ite Prod.fst, apply_ite Prod.snd, ite_self, implies_true, flagCopy_keepM, programLine_keepM] | split

@[simp] theorem fastStore2_keepM (set : ℕ) (pos : ℕ) (l : MediaLine) (s : State) : keepM (fastStore2 set pos l s) = keepM s := by
  unfold fastStore2
  repeat' first | simp only [keepM_mk, keepM_times, keepM_foldl, keepM_ite, apply_ite Prod.fst, apply_ite Prod.snd, ite_self, implies_true, fastStore_keepM] | split

@[simp] theorem segPut_keepM (k : ℕ) (i : ℕ) (l : MediaLine) (s : State) : keepM (segPut k i l s) = keepM s := by
  unfold segPut
  repeat' first | simp only [keepM_mk, keepM_times, keepM_foldl, keepM_ite, apply_ite Prod.fst, apply_ite Prod.snd, ite_self, implies_true, fastStore2_keepM] | split

@[simp] theorem segPut_keepS (k : ℕ) (i : ℕ) (l : MediaLine) (s : State) : keepS (segPut k i l s) = keepS s := keepMS (segPut_keepM k i l s)

@[simp] theorem placeSeg_keepM (k : ℕ) (g : Seg) (s : State) : keepM (placeSeg k g s) = keepM s := by
  unfold placeSeg
  repeat' first | simp only [keepM_mk, keepM_times, keepM_foldl, keepM_ite, apply_ite Prod.fst, apply_ite Prod.snd, ite_self, implies_true, segPut_keepM] | split

@[simp] theorem placeSeg_keepS (k : ℕ) (g : Seg) (s : State) : keepS (placeSeg k g s) = keepS s := keepMS (placeSeg_keepM k g s)

@[simp] theorem slotWritten_keepM (lln : ℕ) (s : State) : keepM (slotWritten lln s) = keepM s := by
  unfold slotWritten
  repeat' first | simp only [keepM_mk, keepM_times, keepM_foldl, keepM_ite, apply_ite Prod.fst, apply_ite Prod.snd, ite_self, implies_true, hbmWrite_keepM, tagsWritten_keepM] | split

@[simp] theorem putSlot_keepM (lln : ℕ) (d : DSlot) (s : State) : keepM (putSlot lln d s) = keepM s := by
  unfold putSlot
  repeat' first | simp only [keepM_mk, keepM_times, keepM_foldl, keepM_ite, apply_ite Prod.fst, apply_ite Prod.snd, ite_self, implies_true, slotWritten_keepM] | split

@[simp] theorem poisonAdd_keepE (lln : ℕ) (src : PoisonSrc) (s : State) : keepE (poisonAdd lln src s) = keepE s := by
  unfold poisonAdd
  repeat' first | simp only [keepE_mk, keepE_times, keepE_foldl, keepE_ite, apply_ite Prod.fst, apply_ite Prod.snd, ite_self, implies_true] | split

@[simp] theorem poisonAdd_keepM (lln : ℕ) (src : PoisonSrc) (s : State) : keepM (poisonAdd lln src s) = keepM s := keepEM (poisonAdd_keepE lln src s)

@[simp] theorem lineLost_keepM (lln : ℕ) (near : Bool) (s : State) : keepM (lineLost lln near s) = keepM s := by
  unfold lineLost
  repeat' first | simp only [keepM_mk, keepM_times, keepM_foldl, keepM_ite, apply_ite Prod.fst, apply_ite Prod.snd, ite_self, implies_true, event_keepM, poisonAdd_keepM] | split

@[simp] theorem slotRead_keepM (lln : ℕ) (s : State) : keepM (slotRead lln s).2 = keepM s := by
  unfold slotRead
  repeat' first | simp only [keepM_mk, keepM_times, keepM_foldl, keepM_ite, apply_ite Prod.fst, apply_ite Prod.snd, ite_self, implies_true, hbmMeet_keepM, hbmWrite_keepM, freeSlot_keepM, putSlot_keepM, lineLost_keepM] | split

@[simp] theorem frameMeet_keepM (lfn : ℕ) (s : State) : keepM (frameMeet lfn s) = keepM s := by
  unfold frameMeet
  repeat' first | simp only [keepM_mk, keepM_times, keepM_foldl, keepM_ite, apply_ite Prod.fst, apply_ite Prod.snd, ite_self, implies_true, pageRead_keepM, hbmMeet_keepM, pageDrop_keepM, slotRead_keepM] | split | refine Eq.trans (keepM_foldl _ _ _ (fun _ _ => ?_)) ?_ | refine Eq.trans (keepM_foldl2 _ _ _ (fun _ _ => ?_)) ?_ | refine Eq.trans (keepM_times _ _ _ (fun _ => ?_)) ?_

@[simp] theorem ncTwin_keepM (s : State) (a : ℕ) (b : ℕ) : keepM (ncTwin s a b).2 = keepM s := by
  unfold ncTwin
  repeat' first | simp only [keepM_mk, keepM_times, keepM_foldl, keepM_ite, apply_ite Prod.fst, apply_ite Prod.snd, ite_self, implies_true, ncSetWay_keepM, ceError_keepM] | split

@[simp] theorem drPlace_keepM (lln : ℕ) (mask : BitVec 64) (data : Line) (since : BitVec 64) (s : State) : keepM (drPlace lln mask data since s) = keepM s := by
  unfold drPlace
  repeat' first | simp only [keepM_mk, keepM_times, keepM_foldl, keepM_ite, apply_ite Prod.fst, apply_ite Prod.snd, ite_self, implies_true, putSlot_keepM, slotRead_keepM] | split

@[simp] theorem tagsTouch_keepM (lln : ℕ) (s : State) : keepM (tagsTouch lln s) = keepM s := by
  unfold tagsTouch
  repeat' first | simp only [keepM_mk, keepM_times, keepM_foldl, keepM_ite, apply_ite Prod.fst, apply_ite Prod.snd, ite_self, implies_true, tagTouch_keepM] | split

@[simp] theorem ncEvict_keepM (k : ℕ) (s : State) : keepM (ncEvict k s) = keepM s := by
  unfold ncEvict
  repeat' first | simp only [keepM_mk, keepM_times, keepM_foldl, keepM_ite, apply_ite Prod.fst, apply_ite Prod.snd, ite_self, implies_true, ncTwin_keepM, ncSetWay_keepM, drPlace_keepM, lineLost_keepM, tagsTouch_keepM] | split

@[simp] theorem writeBackFrame_keepM (lfn : ℕ) (s : State) : keepM (writeBackFrame lfn s) = keepM s := by
  unfold writeBackFrame
  repeat' first | simp only [keepM_mk, keepM_times, keepM_foldl, keepM_ite, apply_ite Prod.fst, apply_ite Prod.snd, ite_self, implies_true, ncEvict_keepM] | split | refine Eq.trans (keepM_foldl _ _ _ (fun _ _ => ?_)) ?_ | refine Eq.trans (keepM_foldl2 _ _ _ (fun _ _ => ?_)) ?_ | refine Eq.trans (keepM_times _ _ _ (fun _ => ?_)) ?_

@[simp] theorem enterFrame_keepM (d : Due) (s : State) : keepM (enterFrame d s).2 = keepM s := by
  unfold enterFrame
  repeat' first | simp only [keepM_mk, keepM_times, keepM_foldl, keepM_ite, apply_ite Prod.fst, apply_ite Prod.snd, ite_self, implies_true, markDraining_keepM, frameMeet_keepM, writeBackFrame_keepM, markInflight_keepM, commitQuiet_keepM] | split

theorem pickSegment_keepM (s : State) (k : Nat) (t : State) (h : pickSegment s = some (k, t)) : keepM t = keepM s := by
  unfold pickSegment at h
  split at h
  · cases h; rfl
  · split at h
    · cases h; exact takeSet_keepM _ _ _ _ _
    · cases h

theorem ckSegmentFresh_keepM (s : State) (k : Nat) (t : State) (h : ckSegment.fresh s = some (k, t)) : keepM t = keepM s := by
  unfold ckSegment.fresh at h
  split at h
  · next hp => cases h; exact (keepM_mk _).trans ((placeSeg_keepM _ _ _).trans (pickSegment_keepM _ _ _ hp))
  · cases h

theorem ckSegment_keepM (s : State) (k : Nat) (t : State) (h : ckSegment s = some (k, t)) : keepM t = keepM s := by
  unfold ckSegment at h
  extract_lets full at h
  split at h
  · split at h
    · exact ckSegmentFresh_keepM _ _ _ h
    · cases h; rfl
  · exact ckSegmentFresh_keepM _ _ _ h

@[simp] theorem ckRecord_keepM (kind : ℕ) (target : ℕ) (entry : BitVec 32) (psnap : BitVec 48) (s : State) : keepM (ckRecord kind target entry psnap s).2 = keepM s := by
  unfold ckRecord
  extract_lets bad s1 c r
  have h1 : keepM s1 = keepM s := by simp only [s1]; split <;> simp only [fire_keepM]
  clear_value s1
  cases hk : ckSegment s1 with
  | none => exact (keepM_mk _).trans h1
  | some p =>
    obtain ⟨k, t⟩ := p
    have ht := (ckSegment_keepM _ _ _ hk).trans h1
    simp only [keepM_mk, fastStore_keepM]
    exact ht

@[simp] theorem stateEvent_keepE (u : ℕ) (old : UState) (new : UState) (reason : ℕ) (repl : Bool) (s : State) : keepE (stateEvent u old new reason repl s) = keepE s := by
  unfold stateEvent
  repeat' first | simp only [keepE_mk, keepE_times, keepE_foldl, keepE_ite, apply_ite Prod.fst, apply_ite Prod.snd, ite_self, implies_true, event_keepE] | split

@[simp] theorem stateEvent_keepM (u : ℕ) (old : UState) (new : UState) (reason : ℕ) (repl : Bool) (s : State) : keepM (stateEvent u old new reason repl s) = keepM s := keepEM (stateEvent_keepE u old new reason repl s)

@[simp] theorem saveUnit_keepE (s : State) (u : ℕ) : keepE (saveUnit s u) = keepE s := by
  unfold saveUnit
  repeat' first | simp only [keepE_mk, keepE_times, keepE_foldl, keepE_ite, apply_ite Prod.fst, apply_ite Prod.snd, ite_self, implies_true, sbEnqueue_keepE] | split

@[simp] theorem saveUnit_keepM (s : State) (u : ℕ) : keepM (saveUnit s u) = keepM s := keepEM (saveUnit_keepE s u)

@[simp] theorem mailDown_keepM (u : ℕ) (s : State) : keepM (mailDown u s) = keepM s := by
  unfold mailDown
  repeat' first | simp only [keepM_mk, keepM_times, keepM_foldl, keepM_ite, apply_ite Prod.fst, apply_ite Prod.snd, ite_self, implies_true] | split

@[simp] theorem setUnit_keepM (u : ℕ) (st : UState) (reason : ℕ) (repl : Bool) (s : State) : keepM (setUnit u st reason repl s) = keepM s := by
  unfold setUnit
  repeat' first | simp only [keepM_mk, keepM_times, keepM_foldl, keepM_ite, apply_ite Prod.fst, apply_ite Prod.snd, ite_self, implies_true, stateEvent_keepM, saveUnit_keepM, mailDown_keepM] | split

@[simp] theorem setUnit_keepS (u : ℕ) (st : UState) (reason : ℕ) (repl : Bool) (s : State) : keepS (setUnit u st reason repl s) = keepS s := keepMS (setUnit_keepM u st reason repl s)

@[simp] theorem dieFailed_keepM (die : ℕ) (s : State) : keepM (dieFailed die s) = keepM s := by
  unfold dieFailed
  repeat' first | simp only [keepM_mk, keepM_times, keepM_foldl, keepM_ite, apply_ite Prod.fst, apply_ite Prod.snd, ite_self, implies_true] | split

@[simp] theorem dieCount_keepM (what : ℕ) (die : ℕ) (s : State) : keepM (dieCount what die s) = keepM s := by
  unfold dieCount
  repeat' first | simp only [keepM_mk, keepM_times, keepM_foldl, keepM_ite, apply_ite Prod.fst, apply_ite Prod.snd, ite_self, implies_true, setUnit_keepM, dieFailed_keepM] | split

@[simp] theorem charge_keepE (die : ℕ) (s : State) : keepE (charge die s) = keepE s := by
  unfold charge
  repeat' first | simp only [keepE_mk, keepE_times, keepE_foldl, keepE_ite, apply_ite Prod.fst, apply_ite Prod.snd, ite_self, implies_true, ceError_keepE] | split

@[simp] theorem charge_keepM (die : ℕ) (s : State) : keepM (charge die s) = keepM s := keepEM (charge_keepE die s)

@[simp] theorem weakLine_keepM (die : ℕ) (s : State) : keepM (weakLine die s) = keepM s := by
  unfold weakLine
  repeat' first | simp only [keepM_mk, keepM_times, keepM_foldl, keepM_ite, apply_ite Prod.fst, apply_ite Prod.snd, ite_self, implies_true, dieCount_keepM, charge_keepM] | split

@[simp] theorem cellRead_keepM (c : Cellv) (s : State) : keepM (cellRead c s).2 = keepM s := by
  unfold cellRead
  repeat' first | simp only [keepM_mk, keepM_times, keepM_foldl, keepM_ite, apply_ite Prod.fst, apply_ite Prod.snd, ite_self, implies_true, drawBits_keepM] | split

@[simp] theorem copyRead_keepM (f : ℕ) (c : ℕ) (pos : ℕ) (seq : Option (BitVec 16)) (s : State) : keepM (copyRead f c pos seq s).2 = keepM s := by
  unfold copyRead
  repeat' first | simp only [keepM_mk, keepM_times, keepM_foldl, keepM_ite, apply_ite Prod.fst, apply_ite Prod.snd, ite_self, implies_true, dieCount_keepM, weakLine_keepM, cellRead_keepM] | split

theorem ladderStep_keepM (test : Line66 → Bool) (k : Nat) (r : Option (Line66 × Nat) × State) (next : State → Option (Line66 × Nat) × State)
    (h : ∀ s, keepM (next s).2 = keepM s) : keepM (ladderStep test k r next).2 = keepM r.2 := by
  unfold ladderStep
  split
  · rfl
  · exact h _

@[simp] theorem ladder_keepM (test : Line66 → Bool) (x1 : List ℕ) (x2 : State) : keepM (ladder test x1 x2).2 = keepM x2 := by
  induction x1 generalizing x2 with
  | nil => rfl
  | cons k ks ih => exact (ladderStep_keepM _ _ _ _ ih).trans (cellRead_keepM _ _)

@[simp] theorem makeDue_keepM (lfn : ℕ) (prio : ℕ) (key : ℕ) (direct : Bool) (s : State) : keepM (makeDue lfn prio key direct s) = keepM s := by
  unfold makeDue
  repeat' first | simp only [keepM_mk, keepM_times, keepM_foldl, keepM_ite, apply_ite Prod.fst, apply_ite Prod.snd, ite_self, implies_true] | split

@[simp] theorem makeDue_keepS (lfn : ℕ) (prio : ℕ) (key : ℕ) (direct : Bool) (s : State) : keepS (makeDue lfn prio key direct s) = keepS s := keepMS (makeDue_keepM lfn prio key direct s)

@[simp] theorem retryNoted_keepM (die : ℕ) (lln : ℕ) (step : ℕ) (s : State) : keepM (retryNoted die lln step s) = keepM s := by
  unfold retryNoted
  repeat' first | simp only [keepM_mk, keepM_times, keepM_foldl, keepM_ite, apply_ite Prod.fst, apply_ite Prod.snd, ite_self, implies_true, event_keepM, makeDue_keepM] | split

@[simp] theorem retryGood_keepM (die : ℕ) (lln : ℕ) (step : ℕ) (s : State) : keepM (retryGood die lln step s) = keepM s := by
  unfold retryGood
  repeat' first | simp only [keepM_mk, keepM_times, keepM_foldl, keepM_ite, apply_ite Prod.fst, apply_ite Prod.snd, ite_self, implies_true, charge_keepM, retryNoted_keepM] | split

theorem retried_keepM (die lln : Nat) (r : Option (Line66 × Nat) × State) : keepM (retried die lln r).2 = keepM r.2 := by
  unfold retried
  split
  · simp only [retryGood_keepM]
  · rfl

@[simp] theorem copyRetry_keepM (f : ℕ) (c : ℕ) (lln : ℕ) (seq : Option (BitVec 16)) (s : State) : keepM (copyRetry f c lln seq s).2 = keepM s := by
  unfold copyRetry
  split
  · rfl
  · exact (retried_keepM _ _ _).trans (ladder_keepM _ _ _)

@[simp] theorem olderAgain_keepM (f : ℕ) (pos : ℕ) (a : Line66) (b : Line66) (l : Line66) (s : State) : keepM (olderAgain f pos a b l s) = keepM s := by
  unfold olderAgain
  repeat' first | simp only [keepM_mk, keepM_times, keepM_foldl, keepM_ite, apply_ite Prod.fst, apply_ite Prod.snd, ite_self, implies_true, fastStore_keepM] | split

@[simp] theorem tieStore_keepM (f : ℕ) (pos : ℕ) (seq : Option (BitVec 16)) (l : Line) (v : BitVec 16) (s : State) : keepM (tieStore f pos seq l v s) = keepM s := by
  unfold tieStore
  repeat' first | simp only [keepM_mk, keepM_times, keepM_foldl, keepM_ite, apply_ite Prod.fst, apply_ite Prod.snd, ite_self, implies_true, fastStore2_keepM] | split

theorem tieEnded_keepM (f pos : Nat) (seq : Option (BitVec 16)) (v : BitVec 16) (r : Option Line66 × State) :
    keepM (tieEnded f pos seq v r).2 = keepM r.2 := by
  unfold tieEnded
  split
  · simp only [tieStore_keepM]
  · rfl

theorem tieTry_keepM (test : Line66 → Bool) (a b : Option (Line66 × Nat)) (s : State) (next : State → Option Line66 × State)
    (h : ∀ s, keepM (next s).2 = keepM s) : keepM (tieTry test a b s next).2 = keepM s := by
  unfold tieTry
  split
  · split
    · rfl
    · exact h _
  · exact h _

@[simp] theorem tieLadder_keepM (test : Line66 → Bool) (x1 : List ℕ) (x2 : State) : keepM (tieLadder test x1 x2).2 = keepM x2 := by
  induction x1 generalizing x2 with
  | nil => rfl
  | cons k ks ih =>
    rw [tieLadder]
    exact (tieTry_keepM _ _ _ _ _ ih).trans ((cellRead_keepM _ _).trans (cellRead_keepM _ _))

@[simp] theorem tieSources_keepM (f : ℕ) (pos : ℕ) (seq : Option (BitVec 16)) (v : BitVec 16) (d : Option Line) (s : State) : keepM (tieSources f pos seq v d s).2 = keepM s := by
  unfold tieSources
  split
  · rfl
  · split
    · rfl
    · exact (tieEnded_keepM _ _ _ _ _).trans (tieLadder_keepM _ _ _)

@[simp] theorem tieNoted_keepM (f : ℕ) (pos : ℕ) (charged : List ℕ) (s : State) : keepM (tieNoted f pos charged s) = keepM s := by
  unfold tieNoted
  repeat' first | simp only [keepM_mk, keepM_times, keepM_foldl, keepM_ite, apply_ite Prod.fst, apply_ite Prod.snd, ite_self, implies_true, event_keepM, charge_keepM] | split

@[simp] theorem tieResolve_keepM (f : ℕ) (pos : ℕ) (lln : ℕ) (seq : Option (BitVec 16)) (v : BitVec 16) (s : State) : keepM (tieResolve f pos lln seq v s).2 = keepM s := by
  unfold tieResolve
  exact (tieSources_keepM _ _ _ _ _ _).trans (tieNoted_keepM _ _ _ _)

@[simp] theorem bothRead_keepM (f : ℕ) (pos : ℕ) (lln : ℕ) (seq : Option (BitVec 16)) (x4 : Line66) (y : Line66) (s : State) : keepM (bothRead f pos lln seq x4 y s).2 = keepM s := by
  unfold bothRead
  repeat' first | simp only [keepM_mk, keepM_times, keepM_foldl, keepM_ite, apply_ite Prod.fst, apply_ite Prod.snd, ite_self, implies_true, olderAgain_keepM, tieResolve_keepM] | split

@[simp] theorem lateCopies_keepM (f : ℕ) (pos : ℕ) (lln : ℕ) (seq : Option (BitVec 16)) (a : Option Line66) (b : Option Line66) (s : State) : keepM (lateCopies f pos lln seq a b s).2 = keepM s := by
  unfold lateCopies
  repeat' first | simp only [keepM_mk, keepM_times, keepM_foldl, keepM_ite, apply_ite Prod.fst, apply_ite Prod.snd, ite_self, implies_true, bothRead_keepM] | split

@[simp] theorem copiesRetried_keepM (f : ℕ) (pos : ℕ) (lln : ℕ) (seq : Option (BitVec 16)) (s : State) : keepM (copiesRetried f pos lln seq s).2 = keepM s := by
  unfold copiesRetried
  exact (lateCopies_keepM _ _ _ _ _ _ _).trans ((copyRetry_keepM _ _ _ _ _).trans (copyRetry_keepM _ _ _ _ _))

@[simp] theorem countRebuilt_keepM (s : State) : keepM (countRebuilt s) = keepM s := by
  unfold countRebuilt
  repeat' first | simp only [keepM_mk, keepM_times, keepM_foldl, keepM_ite, apply_ite Prod.fst, apply_ite Prod.snd, ite_self, implies_true] | split

@[simp] theorem earlyCopies_keepM (f : ℕ) (pos : ℕ) (lln : ℕ) (seq : Option (BitVec 16)) (a : Option Line66) (b : Option Line66) (s : State) : keepM (earlyCopies f pos lln seq a b s).2 = keepM s := by
  unfold earlyCopies
  repeat' first | simp only [keepM_mk, keepM_times, keepM_foldl, keepM_ite, apply_ite Prod.fst, apply_ite Prod.snd, ite_self, implies_true, copiesRetried_keepM, countRebuilt_keepM, bothRead_keepM, charge_keepM] | split

@[simp] theorem fastRead_keepM (f : ℕ) (pos : ℕ) (lln : ℕ) (seq : Option (BitVec 16)) (s : State) : keepM (fastRead f pos lln seq s).2 = keepM s := by
  unfold fastRead
  exact (earlyCopies_keepM _ _ _ _ _ _ _).trans ((copyRead_keepM _ _ _ _ _).trans (copyRead_keepM _ _ _ _ _))

@[simp] theorem memberRetry_keepM (b : ℕ) (m : ℕ) (x2 : ℕ) (lln : ℕ) (s : State) : keepM (memberRetry b m x2 lln s).2 = keepM s := by
  unfold memberRetry
  exact (keepM_pair (fun v => v.map (fun l => (l, true))) _).trans ((retried_keepM _ _ _).trans (ladder_keepM _ _ _))

@[simp] theorem countBlock_keepM (blk : ℕ) (what : ℕ) (x2 : ℕ) (s : State) : keepM (countBlock blk what x2 s) = keepM s := by
  unfold countBlock
  repeat' first | simp only [keepM_mk, keepM_times, keepM_foldl, keepM_ite, apply_ite Prod.fst, apply_ite Prod.snd, ite_self, implies_true] | split

@[simp] theorem refreshBand_keepM (b : ℕ) (s : State) : keepM (refreshBand b s) = keepM s := by
  unfold refreshBand
  repeat' first | simp only [keepM_mk, keepM_times, keepM_foldl, keepM_ite, apply_ite Prod.fst, apply_ite Prod.snd, ite_self, implies_true, makeDue_keepM] | split

@[simp] theorem markBad_keepM (blk : ℕ) (cause : ℕ) (s : State) : keepM (markBad blk cause s) = keepM s := by
  unfold markBad
  split
  · rfl
  · extract_lets bank die ch s1 e1 s2 r s3 b
    have h2 : keepM s2 = keepM s := (event_keepM _ _).trans rfl
    have h3 : keepM s3 = keepM s := (ckRecord_keepM _ _ _ _ _).trans h2
    clear_value s3
    generalize fastSetOf s3 ch die (blk % 8192) = fc
    obtain ⟨f, c⟩ := fc
    split
    · exact (descWrite_keepM _ _).trans ((fsSet_keepM _ _ _).trans h3)
    · split
      · exact (refreshBand_keepM _ _).trans h3
      · exact h3

@[simp] theorem countBlockMark_keepM (blk : ℕ) (what : ℕ) (x2 : ℕ) (s : State) : keepM (countBlockMark blk what x2 s) = keepM s := by
  unfold countBlockMark
  repeat' first | simp only [keepM_mk, keepM_times, keepM_foldl, keepM_ite, apply_ite Prod.fst, apply_ite Prod.snd, ite_self, implies_true, countBlock_keepM, markBad_keepM] | split

@[simp] theorem memberRead_keepM (b : ℕ) (m : ℕ) (x2 : ℕ) (s : State) : keepM (memberRead b m x2 s).2 = keepM s := by
  unfold memberRead
  repeat' first | simp only [keepM_mk, keepM_times, keepM_foldl, keepM_ite, apply_ite Prod.fst, apply_ite Prod.snd, ite_self, implies_true, dieCount_keepM, weakLine_keepM, countBlockMark_keepM, cellRead_keepM] | split

theorem membersRead_keepM (read : Nat → State → Option (Line66 × Bool) × State) (ms : List Nat) (s : State)
    (h : ∀ m s, keepM (read m s).2 = keepM s) : keepM (membersRead read ms s).2 = keepM s := by
  unfold membersRead
  exact keepM_foldl2 _ _ _ (fun p a => h _ _)

@[simp] theorem stripeRead_keepM (b : ℕ) (h : ℕ) (x2 : ℕ) (lln : ℕ) (s : State) : keepM (stripeRead b h x2 lln s).2 = keepM s := by
  unfold stripeRead
  extract_lets ms a
  have ha : keepM a.2 = keepM s := membersRead_keepM _ _ _ (fun _ _ => memberRead_keepM _ _ _ _)
  clear_value a
  split
  · exact (membersRead_keepM _ _ _ (fun _ _ => memberRetry_keepM _ _ _ _ _)).trans ha
  · exact ha

@[simp] theorem located_keepM (b : ℕ) (x1 : ℕ) (charged : Bool) (s : State) (m : ℕ) : keepM (located b x1 charged s m) = keepM s := by
  unfold located
  repeat' first | simp only [keepM_mk, keepM_times, keepM_foldl, keepM_ite, apply_ite Prod.fst, apply_ite Prod.snd, ite_self, implies_true, countBlockMark_keepM, event_keepM, refreshBand_keepM, charge_keepM] | split

@[simp] theorem stripeRebuild_keepM (b : ℕ) (h : ℕ) (x2 : ℕ) (lln : ℕ) (s : State) : keepM (stripeRebuild b h x2 lln s).2 = keepM s := by
  unfold stripeRebuild
  repeat' first | simp only [keepM_mk, keepM_times, keepM_foldl, keepM_ite, apply_ite Prod.fst, apply_ite Prod.snd, ite_self, implies_true, stripeRead_keepM, countRebuilt_keepM, located_keepM, charge_keepM] | split

@[simp] theorem homeRead_keepM (b : ℕ) (slot : ℕ) (x2 : ℕ) (lln : ℕ) (s : State) : keepM (homeRead b slot x2 lln s).2 = keepM s := by
  unfold homeRead
  repeat' first | simp only [keepM_mk, keepM_times, keepM_foldl, keepM_ite, apply_ite Prod.fst, apply_ite Prod.snd, ite_self, implies_true, memberRetry_keepM, stripeRebuild_keepM, memberRead_keepM] | split

@[simp] theorem sourceRead_keepM (lln : ℕ) (seq : BitVec 16) (w : Where) (s : State) : keepM (sourceRead lln seq w s).2 = keepM s := by
  unfold sourceRead
  repeat' first | simp only [keepM_mk, keepM_times, keepM_foldl, keepM_ite, apply_ite Prod.fst, apply_ite Prod.snd, ite_self, implies_true, fastRead_keepM, homeRead_keepM] | split

@[simp] theorem baseRead_keepM (lln : ℕ) (e : BitVec 32) (s : State) : keepM (baseRead lln e s).2 = keepM s := by
  unfold baseRead
  repeat' first | simp only [keepM_mk, keepM_times, keepM_foldl, keepM_ite, apply_ite Prod.fst, apply_ite Prod.snd, ite_self, implies_true, sourceRead_keepM] | split

@[simp] theorem slotSource_keepM (sl : FoldSlot) (l : ℕ) (s : State) : keepM (slotSource sl l s).2 = keepM s := by
  unfold slotSource
  repeat' first | simp only [keepM_mk, keepM_times, keepM_foldl, keepM_ite, apply_ite Prod.fst, apply_ite Prod.snd, ite_self, implies_true, fastRead_keepM, homeRead_keepM, baseRead_keepM] | split

@[simp] theorem ncFire_keepE (s : State) : keepE (ncFire s) = keepE s := by
  unfold ncFire
  repeat' first | simp only [keepE_mk, keepE_times, keepE_foldl, keepE_ite, apply_ite Prod.fst, apply_ite Prod.snd, ite_self, implies_true, fire_keepE] | split

@[simp] theorem ncFire_keepM (s : State) : keepM (ncFire s) = keepM s := keepEM (ncFire_keepE s)

@[simp] theorem ncPutTwo_keepM (a : ℕ) (b : ℕ) (wa : NcWay) (wb : NcWay) (s : State) : keepM (ncPutTwo a b wa wb s) = keepM s := by
  unfold ncPutTwo
  repeat' first | simp only [keepM_mk, keepM_times, keepM_foldl, keepM_ite, apply_ite Prod.fst, apply_ite Prod.snd, ite_self, implies_true, ncSetWay_keepM, ncFire_keepM] | split

end Sys2Proof.Machine
end

