-- ==== Sys2Proof/Laws/Keep2.lean ====
section
/-! SUPPORT. What each shared operation leaves alone, one lemma for each operation and class, in the order the operations call each other, part 2: `ncPutTwin` to `moveLateLine`. -/

set_option linter.all false

namespace Sys2Proof.Machine

@[simp] theorem ncPutTwin_keepM (a : ℕ) (b : ℕ) (w : NcWay) (s : State) : keepM (ncPutTwin a b w s) = keepM s := by
  unfold ncPutTwin
  repeat' first | simp only [keepM_mk, keepM_times, keepM_foldl, keepM_ite, apply_ite Prod.fst, apply_ite Prod.snd, ite_self, implies_true, ncPutTwo_keepM] | split

@[simp] theorem ncTwinIn_keepE (g : BitVec 16) (wa : NcWay) (wb : NcWay) (s : State) : keepE (ncTwinIn g wa wb s).2 = keepE s := by
  unfold ncTwinIn
  repeat' first | simp only [keepE_mk, keepE_times, keepE_foldl, keepE_ite, apply_ite Prod.fst, apply_ite Prod.snd, ite_self, implies_true, ceError_keepE] | split

@[simp] theorem ncTwinIn_keepM (g : BitVec 16) (wa : NcWay) (wb : NcWay) (s : State) : keepM (ncTwinIn g wa wb s).2 = keepM s := keepEM (ncTwinIn_keepE g wa wb s)

@[simp] theorem ncTakeTwo_keepM (set : ℕ) (s : State) : keepM (ncTakeTwo set s).2.2 = keepM s := by
  unfold ncTakeTwo
  repeat' first | simp only [keepM_mk, keepM_times, keepM_foldl, keepM_ite, apply_ite Prod.fst, apply_ite Prod.snd, ite_self, implies_true, ncEvict_keepM] | split

@[simp] theorem mapMark_keepM (lfn : ℕ) (s : State) : keepM (mapMark lfn s) = keepM s := by
  unfold mapMark
  repeat' first | simp only [keepM_mk, keepM_times, keepM_foldl, keepM_ite, apply_ite Prod.fst, apply_ite Prod.snd, ite_self, implies_true] | split

@[simp] theorem ncWrite_keepM (lln : ℕ) (data : Line) (mask : BitVec 64) (s : State) : keepM (ncWrite lln data mask s) = keepM s := by
  unfold ncWrite
  repeat' first | simp only [keepM_mk, keepM_times, keepM_foldl, keepM_ite, apply_ite Prod.fst, apply_ite Prod.snd, ite_self, implies_true, ncPutTwin_keepM, ncEvict_keepM, ncTwinIn_keepM, ncTakeTwo_keepM, ncSetWay_keepM, lineLost_keepM, ncPutTwo_keepM, ceError_keepM, mapMark_keepM] | split

@[simp] theorem ncWrite_keepS (lln : ℕ) (data : Line) (mask : BitVec 64) (s : State) : keepS (ncWrite lln data mask s) = keepS s := keepMS (ncWrite_keepM lln data mask s)

@[simp] theorem internalWrite_keepM (lln : ℕ) (v : Line) (s : State) : keepM (internalWrite lln v s) = keepM s := by
  unfold internalWrite
  repeat' first | simp only [keepM_mk, keepM_times, keepM_foldl, keepM_ite, apply_ite Prod.fst, apply_ite Prod.snd, ite_self, implies_true, ncWrite_keepM] | split

@[simp] theorem foundLost_keepM (lln : ℕ) (src : ℕ) (unit : ℕ) (s : State) : keepM (foundLost lln src unit s) = keepM s := by
  unfold foundLost
  repeat' first | simp only [keepM_mk, keepM_times, keepM_foldl, keepM_ite, apply_ite Prod.fst, apply_ite Prod.snd, ite_self, implies_true, event_keepM, poisonAdd_keepM] | split

@[simp] theorem poisonFind_keepM (lln : ℕ) (src : ℕ) (unit : ℕ) (s : State) : keepM (poisonFind lln src unit s) = keepM s := by
  unfold poisonFind
  repeat' first | simp only [keepM_mk, keepM_times, keepM_foldl, keepM_ite, apply_ite Prod.fst, apply_ite Prod.snd, ite_self, implies_true, internalWrite_keepM, foundLost_keepM] | split

@[simp] theorem commitAt_keepM (lfn : ℕ) (e : BitVec 32) (psnap : BitVec 48) (s : State) : keepM (commitAt lfn e psnap s) = keepM s := by
  unfold commitAt
  repeat' first | simp only [keepM_mk, keepM_times, keepM_foldl, keepM_ite, apply_ite Prod.fst, apply_ite Prod.snd, ite_self, implies_true, ftCommit_keepM, ckRecord_keepM] | split

@[simp] theorem commitAt_keepS (lfn : ℕ) (e : BitVec 32) (psnap : BitVec 48) (s : State) : keepS (commitAt lfn e psnap s) = keepS s := keepMS (commitAt_keepM lfn e psnap s)

@[simp] theorem commitNow_keepM (lfn : ℕ) (e : BitVec 32) (s : State) : keepM (commitNow lfn e s) = keepM s := by
  unfold commitNow
  repeat' first | simp only [keepM_mk, keepM_times, keepM_foldl, keepM_ite, apply_ite Prod.fst, apply_ite Prod.snd, ite_self, implies_true, commitAt_keepM] | split

@[simp] theorem commitNow_keepS (lfn : ℕ) (e : BitVec 32) (s : State) : keepS (commitNow lfn e s) = keepS s := keepMS (commitNow_keepM lfn e s)

@[simp] theorem markRebuild_keepM (lfn : ℕ) (s : State) : keepM (markRebuild lfn s) = keepM s := by
  unfold markRebuild
  repeat' first | simp only [keepM_mk, keepM_times, keepM_foldl, keepM_ite, apply_ite Prod.fst, apply_ite Prod.snd, ite_self, implies_true] | split

@[simp] theorem releaseSet_keepM (f : ℕ) (s : State) : keepM (releaseSet f s) = keepM s := by
  unfold releaseSet
  repeat' first | simp only [keepM_mk, keepM_times, keepM_foldl, keepM_ite, apply_ite Prod.fst, apply_ite Prod.snd, ite_self, implies_true, descWrite_keepM, fsSet_keepM] | split

@[simp] theorem releaseSet_keepS (f : ℕ) (s : State) : keepS (releaseSet f s) = keepS s := keepMS (releaseSet_keepM f s)

@[simp] theorem releaseNow_keepM (e : BitVec 32) (s : State) : keepM (releaseNow e s) = keepM s := by
  unfold releaseNow
  repeat' first | simp only [keepM_mk, keepM_times, keepM_foldl, keepM_ite, apply_ite Prod.fst, apply_ite Prod.snd, ite_self, implies_true, releaseSet_keepM, setBand_keepM] | split

@[simp] theorem releaseOld_keepM (e : BitVec 32) (s : State) : keepM (releaseOld e s) = keepM s := by
  unfold releaseOld
  repeat' first | simp only [keepM_mk, keepM_times, keepM_foldl, keepM_ite, apply_ite Prod.fst, apply_ite Prod.snd, ite_self, implies_true, releaseNow_keepM] | split

@[simp] theorem releaseOld_keepS (e : BitVec 32) (s : State) : keepS (releaseOld e s) = keepS s := keepMS (releaseOld_keepM e s)

@[simp] theorem setSlot_keepM (b : ℕ) (lfn : ℕ) (f : FoldSlot → FoldSlot) (s : State) : keepM (setSlot b lfn f s) = keepM s := by
  unfold setSlot
  repeat' first | simp only [keepM_mk, keepM_times, keepM_foldl, keepM_ite, apply_ite Prod.fst, apply_ite Prod.snd, ite_self, implies_true] | split

@[simp] theorem setSlot_keepS (b : ℕ) (lfn : ℕ) (f : FoldSlot → FoldSlot) (s : State) : keepS (setSlot b lfn f s) = keepS s := keepMS (setSlot_keepM b lfn f s)

@[simp] theorem slotLost_keepM (b : ℕ) (sl : FoldSlot) (l : ℕ) (s : State) : keepM (slotLost b sl l s) = keepM s := by
  unfold slotLost
  repeat' first | simp only [keepM_mk, keepM_times, keepM_foldl, keepM_ite, apply_ite Prod.fst, apply_ite Prod.snd, ite_self, implies_true, poisonFind_keepM, commitNow_keepM, markRebuild_keepM, releaseOld_keepM, markInflight_keepM, setSlot_keepM] | split

@[simp] theorem slotLine66_keepM (b : ℕ) (slot : ℕ) (x2 : ℕ) (s : State) : keepM (slotLine66 b slot x2 s).2 = keepM s := by
  unfold slotLine66
  repeat' first | simp only [keepM_mk, keepM_times, keepM_foldl, keepM_ite, apply_ite Prod.fst, apply_ite Prod.snd, ite_self, implies_true, slotSource_keepM, slotLost_keepM] | split

theorem rowLine_keepM (b x : Nat) (c : List Line66 × State) (sl : Nat) : keepM (rowLine b x c sl).2 = keepM c.2 := by
  unfold rowLine
  exact slotLine66_keepM _ _ _ _

theorem pageRow_keepM (b p : Nat) (a : List (List Line66) × State) (i : Nat) : keepM (pageRow b p a i).2 = keepM a.2 := by
  unfold pageRow
  exact keepM_foldl2 _ _ _ (fun c sl => rowLine_keepM _ _ _ _)

@[simp] theorem pageLines_keepM (b : ℕ) (p : ℕ) (s : State) : keepM (pageLines b p s).2 = keepM s := by
  unfold pageLines
  split
  · rfl
  · split
    · rfl
    · exact (keepM_mk _).trans (keepM_foldl2 _ _ _ (fun a i => pageRow_keepM _ _ _ _))

@[simp] theorem setCart_keepM (ch : ℕ) (f : Carter → Carter) (s : State) : keepM (setCart ch f s) = keepM s := by
  unfold setCart
  repeat' first | simp only [keepM_mk, keepM_times, keepM_foldl, keepM_ite, apply_ite Prod.fst, apply_ite Prod.snd, ite_self, implies_true] | split

@[simp] theorem setCart_keepS (ch : ℕ) (f : Carter → Carter) (s : State) : keepS (setCart ch f s) = keepS s := keepMS (setCart_keepM ch f s)

@[simp] theorem askProg_keepM (ch : ℕ) (p : CProg) (s : State) : keepM (askProg ch p s) = keepM s := by
  unfold askProg
  repeat' first | simp only [keepM_mk, keepM_times, keepM_foldl, keepM_ite, apply_ite Prod.fst, apply_ite Prod.snd, ite_self, implies_true, setCart_keepM] | split

@[simp] theorem askPage_keepM (b : ℕ) (m : ℕ) (p : ℕ) (s : State) : keepM (askPage b m p s) = keepM s := by
  unfold askPage
  repeat' first | simp only [keepM_mk, keepM_times, keepM_foldl, keepM_ite, apply_ite Prod.fst, apply_ite Prod.snd, ite_self, implies_true, pageLines_keepM, askProg_keepM] | split

@[simp] theorem askPage_keepS (b : ℕ) (m : ℕ) (p : ℕ) (s : State) : keepS (askPage b m p s) = keepS s := keepMS (askPage_keepM b m p s)

@[simp] theorem openOn_keepM (b : ℕ) (dues : List Due) (abandons : ℕ) (s : State) : keepM (openOn b dues abandons s) = keepM s := by
  unfold openOn
  repeat' first | simp only [keepM_mk, keepM_times, keepM_foldl, keepM_ite, apply_ite Prod.fst, apply_ite Prod.snd, ite_self, implies_true, enterFrame_keepM, ckRecord_keepM, setBand_keepM, peerSend_keepM, askPage_keepM] | split | refine Eq.trans (keepM_foldl _ _ _ (fun _ _ => ?_)) ?_ | refine Eq.trans (keepM_foldl2 _ _ _ (fun _ _ => ?_)) ?_ | refine Eq.trans (keepM_times _ _ _ (fun _ => ?_)) ?_

@[simp] theorem meetDirect_keepM (s : State) : keepM (meetDirect s) = keepM s := by
  unfold meetDirect
  repeat' first | simp only [keepM_mk, keepM_times, keepM_foldl, keepM_ite, apply_ite Prod.fst, apply_ite Prod.snd, ite_self, implies_true, frameMeet_keepM, writeBackFrame_keepM] | split

@[simp] theorem pumpRestart_keepM (s : State) : keepM (pumpRestart s) = keepM s := by
  unfold pumpRestart
  repeat' first | simp only [keepM_mk, keepM_times, keepM_foldl, keepM_ite, apply_ite Prod.fst, apply_ite Prod.snd, ite_self, implies_true, takeSet_keepM, placeSeg_keepM, openOn_keepM, meetDirect_keepM] | split | refine Eq.trans (keepM_foldl _ _ _ (fun _ _ => ?_)) ?_ | refine Eq.trans (keepM_foldl2 _ _ _ (fun _ _ => ?_)) ?_ | refine Eq.trans (keepM_times _ _ _ (fun _ => ?_)) ?_

@[simp] theorem sendPkt_keepE (ch : ℕ) (op : ℕ) (die : ℕ) (bank : ℕ) (block : ℕ) (addr : ℕ) (tag : BitVec 7) (arg : ℕ) (s : State) : keepE (sendPkt ch op die bank block addr tag arg s) = keepE s := by
  unfold sendPkt
  repeat' first | simp only [keepE_mk, keepE_times, keepE_foldl, keepE_ite, apply_ite Prod.fst, apply_ite Prod.snd, ite_self, implies_true, send_keepE] | split

@[simp] theorem sendPkt_keepM (ch : ℕ) (op : ℕ) (die : ℕ) (bank : ℕ) (block : ℕ) (addr : ℕ) (tag : BitVec 7) (arg : ℕ) (s : State) : keepM (sendPkt ch op die bank block addr tag arg s) = keepM s := keepEM (sendPkt_keepE ch op die bank block addr tag arg s)

@[simp] theorem sendPkt_keepS (ch : ℕ) (op : ℕ) (die : ℕ) (bank : ℕ) (block : ℕ) (addr : ℕ) (tag : BitVec 7) (arg : ℕ) (s : State) : keepS (sendPkt ch op die bank block addr tag arg s) = keepS s := keepMS (sendPkt_keepM ch op die bank block addr tag arg s)

@[simp] theorem withdrawBand_keepM (b : ℕ) (s : State) : keepM (withdrawBand b s) = keepM s := by
  unfold withdrawBand
  repeat' first | simp only [keepM_mk, keepM_times, keepM_foldl, keepM_ite, apply_ite Prod.fst, apply_ite Prod.snd, ite_self, implies_true, sendPkt_keepM, setCart_keepM] | split

@[simp] theorem abandonBatch_keepM (f : FoldBatch) (cause : ℕ) (blk : Option ℕ) (s : State) : keepM (abandonBatch f cause blk s) = keepM s := by
  unfold abandonBatch
  repeat' first | simp only [keepM_mk, keepM_times, keepM_foldl, keepM_ite, apply_ite Prod.fst, apply_ite Prod.snd, ite_self, implies_true, setBand_keepM, leaveSlot_keepM, pumpRestart_keepM, withdrawBand_keepM, event_keepM, markBad_keepM] | split

@[simp] theorem abandonBatch_keepS (f : FoldBatch) (cause : ℕ) (blk : Option ℕ) (s : State) : keepS (abandonBatch f cause blk s) = keepS s := keepMS (abandonBatch_keepM f cause blk s)

@[simp] theorem withhold_keepM (sl : FoldSlot) (s : State) : keepM (withhold sl s) = keepM s := by
  unfold withhold
  repeat' first | simp only [keepM_mk, keepM_times, keepM_foldl, keepM_ite, apply_ite Prod.fst, apply_ite Prod.snd, ite_self, implies_true] | split

@[simp] theorem withhold_keepS (sl : FoldSlot) (s : State) : keepS (withhold sl s) = keepS s := keepMS (withhold_keepM sl s)

@[simp] theorem closeIfDone_keepM (b : ℕ) (s : State) : keepM (closeIfDone b s) = keepM s := by
  unfold closeIfDone
  repeat' first | simp only [keepM_mk, keepM_times, keepM_foldl, keepM_ite, apply_ite Prod.fst, apply_ite Prod.snd, ite_self, implies_true, setBand_keepM] | split

@[simp] theorem closeIfDone_keepS (b : ℕ) (s : State) : keepS (closeIfDone b s) = keepS s := keepMS (closeIfDone_keepM b s)

@[simp] theorem countDelta_keepM (s : State) (h : ℕ) : keepM (countDelta s h) = keepM s := by
  unfold countDelta
  exact keepM_mk s

@[simp] theorem sendChunk_keepM (lfn : ℕ) (t : ℕ) (seq : BitVec 48) (delta : ℕ → Line) (h : ℕ) (s : State) (c : ℕ) : keepM (sendChunk lfn t seq delta h s c) = keepM s := by
  unfold sendChunk
  repeat' first | simp only [keepM_mk, keepM_times, keepM_foldl, keepM_ite, apply_ite Prod.fst, apply_ite Prod.snd, ite_self, implies_true, peerSend_keepM] | split

@[simp] theorem sendDelta_keepM (b : ℕ) (seq : BitVec 48) (sl : FoldSlot) (s : State) : keepM (sendDelta b seq sl s) = keepM s := by
  unfold sendDelta
  extract_lets t hs old delta s1 s2
  have h1 : keepM s1 = keepM s := keepM_foldl _ _ _ (fun s h => countDelta_keepM _ _)
  have h2 : keepM s2 = keepM s := (setSlot_keepM _ _ _ _).trans h1
  clear_value s2 old delta
  exact (keepM_foldl _ _ _ (fun s h => keepM_foldl _ _ _ (fun s c => sendChunk_keepM _ _ _ _ _ _ _))).trans h2

@[simp] theorem sendDelta_keepS (b : ℕ) (seq : BitVec 48) (sl : FoldSlot) (s : State) : keepS (sendDelta b seq sl s) = keepS s := keepMS (sendDelta_keepM b seq sl s)

@[simp] theorem drainedClean_keepM (lfn : ℕ) (s : State) : keepM (drainedClean lfn s) = keepM s := by
  unfold drainedClean
  repeat' first | simp only [keepM_mk, keepM_times, keepM_foldl, keepM_ite, apply_ite Prod.fst, apply_ite Prod.snd, ite_self, implies_true, lineClean_keepM] | split

@[simp] theorem drainedClean_keepS (lfn : ℕ) (s : State) : keepS (drainedClean lfn s) = keepS s := keepMS (drainedClean_keepM lfn s)

@[simp] theorem dropPrefetch_keepM (p : ℕ → Bool) (s : State) : keepM (dropPrefetch p s) = keepM s := by
  unfold dropPrefetch
  repeat' first | simp only [keepM_mk, keepM_times, keepM_foldl, keepM_ite, apply_ite Prod.fst, apply_ite Prod.snd, ite_self, implies_true] | split

@[simp] theorem dropFrame_keepM (lfn : ℕ) (s : State) : keepM (dropFrame lfn s) = keepM s := by
  unfold dropFrame
  repeat' first | simp only [keepM_mk, keepM_times, keepM_foldl, keepM_ite, apply_ite Prod.fst, apply_ite Prod.snd, ite_self, implies_true, dropPrefetch_keepM] | split

@[simp] theorem dropFrame_keepS (lfn : ℕ) (s : State) : keepS (dropFrame lfn s) = keepS s := keepMS (dropFrame_keepM lfn s)

@[simp] theorem dropPoison_keepE (lfn : ℕ) (s : State) : keepE (dropPoison lfn s) = keepE s := by
  unfold dropPoison
  repeat' first | simp only [keepE_mk, keepE_times, keepE_foldl, keepE_ite, apply_ite Prod.fst, apply_ite Prod.snd, ite_self, implies_true] | split

@[simp] theorem dropPoison_keepM (lfn : ℕ) (s : State) : keepM (dropPoison lfn s) = keepM s := keepEM (dropPoison_keepE lfn s)

@[simp] theorem dropPoison_keepS (lfn : ℕ) (s : State) : keepS (dropPoison lfn s) = keepS s := keepMS (dropPoison_keepM lfn s)

@[simp] theorem piNote_keepM (es : List PiEnt) (s : State) : keepM (piNote es s) = keepM s := by
  unfold piNote
  repeat' first | simp only [keepM_mk, keepM_times, keepM_foldl, keepM_ite, apply_ite Prod.fst, apply_ite Prod.snd, ite_self, implies_true] | split

@[simp] theorem piDrop_keepM (gone : PiEnt → Bool) (s : State) : keepM (piDrop gone s) = keepM s := by
  unfold piDrop
  repeat' first | simp only [keepM_mk, keepM_times, keepM_foldl, keepM_ite, apply_ite Prod.fst, apply_ite Prod.snd, ite_self, implies_true, hbmWrite_keepM, piNote_keepM] | split

@[simp] theorem piDrop_keepS (gone : PiEnt → Bool) (s : State) : keepS (piDrop gone s) = keepS s := keepMS (piDrop_keepM gone s)

@[simp] theorem unindex_keepM (gone : PiEnt → Bool) (s : State) : keepM (unindex gone s) = keepM s := by
  unfold unindex
  repeat' first | simp only [keepM_mk, keepM_times, keepM_foldl, keepM_ite, apply_ite Prod.fst, apply_ite Prod.snd, ite_self, implies_true, piDrop_keepM] | split

@[simp] theorem foldPatches_keepM (sl : FoldSlot) (s : State) : keepM (foldPatches sl s).2 = keepM s := by
  unfold foldPatches
  repeat' first | simp only [keepM_mk, keepM_times, keepM_foldl, keepM_ite, apply_ite Prod.fst, apply_ite Prod.snd, ite_self, implies_true, unindex_keepM, markInflight_keepM] | split

@[simp] theorem foldPatches_keepS (sl : FoldSlot) (s : State) : keepS (foldPatches sl s).2 = keepS s := keepMS (foldPatches_keepM sl s)

@[simp] theorem dropPatches_keepM (lfn : ℕ) (s : State) : keepM (dropPatches lfn s) = keepM s := by
  unfold dropPatches
  repeat' first | simp only [keepM_mk, keepM_times, keepM_foldl, keepM_ite, apply_ite Prod.fst, apply_ite Prod.snd, ite_self, implies_true, hbmWrite_keepM, unindex_keepM] | split

@[simp] theorem dropPatches_keepS (lfn : ℕ) (s : State) : keepS (dropPatches lfn s) = keepS s := keepMS (dropPatches_keepM lfn s)

@[simp] theorem fsumRefresh_keepM (lfn : ℕ) (s : State) : keepM (fsumRefresh lfn s) = keepM s := by
  unfold fsumRefresh
  repeat' first | simp only [keepM_mk, keepM_times, keepM_foldl, keepM_ite, apply_ite Prod.fst, apply_ite Prod.snd, ite_self, implies_true, hbmMeet_keepM, hbmWrite_keepM] | split

@[simp] theorem fsumRefresh_keepS (lfn : ℕ) (s : State) : keepS (fsumRefresh lfn s) = keepS s := keepMS (fsumRefresh_keepM lfn s)

@[simp] theorem rebuildDone_keepM (lfn : ℕ) (s : State) : keepM (rebuildDone lfn s) = keepM s := by
  unfold rebuildDone
  repeat' first | simp only [keepM_mk, keepM_times, keepM_foldl, keepM_ite, apply_ite Prod.fst, apply_ite Prod.snd, ite_self, implies_true] | split

@[simp] theorem rebuildDone_keepS (lfn : ℕ) (s : State) : keepS (rebuildDone lfn s) = keepS s := keepMS (rebuildDone_keepM lfn s)

@[simp] theorem commitSlot_keepS (b : ℕ) (slot : ℕ) (sl : FoldSlot) (s : State) : keepS (commitSlot b slot sl s) = keepS s := by
  unfold commitSlot
  repeat' first | simp only [keepS_mk, keepS_times, keepS_foldl, keepS_ite, apply_ite Prod.fst, apply_ite Prod.snd, ite_self, implies_true, drainedClean_keepS, commitNow_keepS, dropFrame_keepS, commitAt_keepS, dropPoison_keepS, foldPatches_keepS, dropPatches_keepS, fsumRefresh_keepS, rebuildDone_keepS] | split

@[simp] theorem ackDelta_keepM (code : ℕ) (h : Holding) (s : State) : keepM (ackDelta code h s) = keepM s := by
  unfold ackDelta
  repeat' first | simp only [keepM_mk, keepM_times, keepM_foldl, keepM_ite, apply_ite Prod.fst, apply_ite Prod.snd, ite_self, implies_true, peerSend_keepM] | split

@[simp] theorem ackDelta_keepS (code : ℕ) (h : Holding) (s : State) : keepS (ackDelta code h s) = keepS s := keepMS (ackDelta_keepM code h s)

@[simp] theorem advanceBatch_keepS (b : ℕ) (s : State) : keepS (advanceBatch b s) = keepS s := by
  unfold advanceBatch
  repeat' first | simp only [keepS_mk, keepS_times, keepS_foldl, keepS_ite, apply_ite Prod.fst, apply_ite Prod.snd, ite_self, implies_true, withhold_keepS, takeSet_keepS, placeSeg_keepS, leaveSlot_keepS, peerSend_keepS, releaseOld_keepS, closeIfDone_keepS, sendDelta_keepS, commitSlot_keepS, ackDelta_keepS, setSlot_keepS] | split | refine Eq.trans (keepS_foldl _ _ _ (fun _ _ => ?_)) ?_ | refine Eq.trans (keepS_foldl2 _ _ _ (fun _ _ => ?_)) ?_ | refine Eq.trans (keepS_times _ _ _ (fun _ => ?_)) ?_

@[simp] theorem setMember_keepM (b : ℕ) (m : ℕ) (v : MemberProg) (s : State) : keepM (setMember b m v s) = keepM s := by
  unfold setMember
  repeat' first | simp only [keepM_mk, keepM_times, keepM_foldl, keepM_ite, apply_ite Prod.fst, apply_ite Prod.snd, ite_self, implies_true] | split

@[simp] theorem setMember_keepS (b : ℕ) (m : ℕ) (v : MemberProg) (s : State) : keepS (setMember b m v s) = keepS s := keepMS (setMember_keepM b m v s)

@[simp] theorem pageVerified_keepS (b : ℕ) (m : ℕ) (p : MemberProg) (s : State) : keepS (pageVerified b m p s) = keepS s := by
  unfold pageVerified
  repeat' first | simp only [keepS_mk, keepS_times, keepS_foldl, keepS_ite, apply_ite Prod.fst, apply_ite Prod.snd, ite_self, implies_true, advanceBatch_keepS, setBand_keepS, setMember_keepS, askPage_keepS] | split

@[simp] theorem readBackRes_keepS (b : ℕ) (m : ℕ) (x2 : ℕ) (l : Option Line66) (s : State) : keepS (readBackRes b m x2 l s) = keepS s := by
  unfold readBackRes
  repeat' first | simp only [keepS_mk, keepS_times, keepS_foldl, keepS_ite, apply_ite Prod.fst, apply_ite Prod.snd, ite_self, implies_true, abandonBatch_keepS, pageVerified_keepS, setMember_keepS] | split

@[simp] theorem ncLook_keepM (lln : ℕ) (s : State) : keepM (ncLook lln s).2 = keepM s := by
  unfold ncLook
  repeat' first | simp only [keepM_mk, keepM_times, keepM_foldl, keepM_ite, apply_ite Prod.fst, apply_ite Prod.snd, ite_self, implies_true, ncTwin_keepM, ncSetWay_keepM, lineLost_keepM, ceError_keepM] | split

@[simp] theorem mergeHeld_keepM (lln : ℕ) (v : Line) (s : State) : keepM (mergeHeld lln v s).2 = keepM s := by
  unfold mergeHeld
  repeat' first | simp only [keepM_mk, keepM_times, keepM_foldl, keepM_ite, apply_ite Prod.fst, apply_ite Prod.snd, ite_self, implies_true, putSlot_keepM, ncLook_keepM, slotRead_keepM, ncWrite_keepM] | split

@[simp] theorem ncFill_keepM (lln : ℕ) (data : Line) (s : State) : keepM (ncFill lln data s) = keepM s := by
  unfold ncFill
  repeat' first | simp only [keepM_mk, keepM_times, keepM_foldl, keepM_ite, apply_ite Prod.fst, apply_ite Prod.snd, ite_self, implies_true, ncEvict_keepM, ncSetWay_keepM] | split

@[simp] theorem fillLineRead_keepM (lln : ℕ) (v : Line) (s : State) : keepM (fillLineRead lln v s) = keepM s := by
  unfold fillLineRead
  repeat' first | simp only [keepM_mk, keepM_times, keepM_foldl, keepM_ite, apply_ite Prod.fst, apply_ite Prod.snd, ite_self, implies_true, pageFill_keepM, ncFill_keepM] | split

@[simp] theorem answerRead_keepM (id : ℕ) (v : Option Line) (s : State) : keepM (answerRead id v s) = keepM s := by
  unfold answerRead
  repeat' first | simp only [keepM_mk, keepM_times, keepM_foldl, keepM_ite, apply_ite Prod.fst, apply_ite Prod.snd, ite_self, implies_true, send_keepM, drawBits_keepM, updLoad_keepM] | split

@[simp] theorem bulkAsk_keepM (tag : BitVec 32) (s : State) : keepM (bulkAsk tag s) = keepM s := by
  unfold bulkAsk
  repeat' first | simp only [keepM_mk, keepM_times, keepM_foldl, keepM_ite, apply_ite Prod.fst, apply_ite Prod.snd, ite_self, implies_true, peerSend_keepM] | split | refine Eq.trans (keepM_foldl _ _ _ (fun _ _ => ?_)) ?_ | refine Eq.trans (keepM_foldl2 _ _ _ (fun _ _ => ?_)) ?_ | refine Eq.trans (keepM_times _ _ _ (fun _ => ?_)) ?_

@[simp] theorem spanStart_keepM (rid : Option ℕ) (lln : ℕ) (count : ℕ) (base : Bool) (record : Bool) (must : Bool) (localBase : Option Line) (s : State) : keepM (spanStart rid lln count base record must localBase s) = keepM s := by
  unfold spanStart
  repeat' first | simp only [keepM_mk, keepM_times, keepM_foldl, keepM_ite, apply_ite Prod.fst, apply_ite Prod.snd, ite_self, implies_true, peerSend_keepM, bulkAsk_keepM] | split | refine Eq.trans (keepM_foldl _ _ _ (fun _ _ => ?_)) ?_ | refine Eq.trans (keepM_foldl2 _ _ _ (fun _ _ => ?_)) ?_ | refine Eq.trans (keepM_times _ _ _ (fun _ => ?_)) ?_

@[simp] theorem readAgain_keepM (r : MRead) (s : State) : keepM (readAgain r s) = keepM s := by
  unfold readAgain
  repeat' first | simp only [keepM_mk, keepM_times, keepM_foldl, keepM_ite, apply_ite Prod.fst, apply_ite Prod.snd, ite_self, implies_true, spanStart_keepM] | split

@[simp] theorem sideFill_keepM (lln : ℕ) (v : Line) (s : State) : keepM (sideFill lln v s) = keepM s := by
  unfold sideFill
  repeat' first | simp only [keepM_mk, keepM_times, keepM_foldl, keepM_ite, apply_ite Prod.fst, apply_ite Prod.snd, ite_self, implies_true] | split

@[simp] theorem fillPrefetch_keepM (lln : ℕ) (v : Line) (s : State) : keepM (fillPrefetch lln v s) = keepM s := by
  unfold fillPrefetch
  repeat' first | simp only [keepM_mk, keepM_times, keepM_foldl, keepM_ite, apply_ite Prod.fst, apply_ite Prod.snd, ite_self, implies_true, sideFill_keepM, pageFill_keepM] | split

@[simp] theorem releaseDue_keepM (s : State) : keepM (releaseDue s) = keepM s := by
  unfold releaseDue
  repeat' first | simp only [keepM_mk, keepM_times, keepM_foldl, keepM_ite, apply_ite Prod.fst, apply_ite Prod.snd, ite_self, implies_true, releaseOld_keepM] | split

@[simp] theorem readCounted_keepM (r : MRead) (s : State) : keepM (readCounted r s) = keepM s := by
  unfold readCounted
  repeat' first | simp only [keepM_mk, keepM_times, keepM_foldl, keepM_ite, apply_ite Prod.fst, apply_ite Prod.snd, ite_self, implies_true] | split

@[simp] theorem finishRead_keepM (r : MRead) (res : ReadEnd) (s : State) : keepM (finishRead r res s) = keepM s := by
  unfold finishRead
  repeat' first | simp only [keepM_mk, keepM_times, keepM_foldl, keepM_ite, apply_ite Prod.fst, apply_ite Prod.snd, ite_self, implies_true, mergeHeld_keepM, poisonFind_keepM, fillLineRead_keepM, answerRead_keepM, readAgain_keepM, internalWrite_keepM, fillPrefetch_keepM, releaseDue_keepM, readCounted_keepM] | split

@[simp] theorem updRead_keepM (rid : ℕ) (f : MRead → MRead) (s : State) : keepM (updRead rid f s) = keepM s := by
  unfold updRead
  repeat' first | simp only [keepM_mk, keepM_times, keepM_foldl, keepM_ite, apply_ite Prod.fst, apply_ite Prod.snd, ite_self, implies_true] | split

@[simp] theorem markCharged_keepM (rid : ℕ) (key : ℕ) (s : State) : keepM (markCharged rid key s) = keepM s := by
  unfold markCharged
  repeat' first | simp only [keepM_mk, keepM_times, keepM_foldl, keepM_ite, apply_ite Prod.fst, apply_ite Prod.snd, ite_self, implies_true, updRead_keepM] | split

@[simp] theorem countSuspend_keepM (s : State) : keepM (countSuspend s) = keepM s := by
  unfold countSuspend
  repeat' first | simp only [keepM_mk, keepM_times, keepM_foldl, keepM_ite, apply_ite Prod.fst, apply_ite Prod.snd, ite_self, implies_true] | split

@[simp] theorem suspendBank_keepM (ch : ℕ) (die : ℕ) (bank : ℕ) (s : State) : keepM (suspendBank ch die bank s) = keepM s := by
  unfold suspendBank
  repeat' first | simp only [keepM_mk, keepM_times, keepM_foldl, keepM_ite, apply_ite Prod.fst, apply_ite Prod.snd, ite_self, implies_true, sendPkt_keepM, setCart_keepM] | split

@[simp] theorem suspendAll_keepM (rid : ℕ) (places : List (ℕ × ℕ × ℕ)) (s : State) : keepM (suspendAll rid places s) = keepM s := by
  unfold suspendAll
  repeat' first | simp only [keepM_mk, keepM_times, keepM_foldl, keepM_ite, apply_ite Prod.fst, apply_ite Prod.snd, ite_self, implies_true, countSuspend_keepM, updRead_keepM, suspendBank_keepM] | split

@[simp] theorem readReference_keepM (s : State) : keepM (readReference s).2 = keepM s := by
  unfold readReference
  repeat' first | simp only [keepM_mk, keepM_times, keepM_foldl, keepM_ite, apply_ite Prod.fst, apply_ite Prod.snd, ite_self, implies_true, drawBits_keepM] | split

@[simp] theorem measureShift_keepM (s : State) : keepM (measureShift s).2 = keepM s := by
  unfold measureShift
  repeat' first | simp only [keepM_mk, keepM_times, keepM_foldl, keepM_ite, apply_ite Prod.fst, apply_ite Prod.snd, ite_self, implies_true, readReference_keepM] | split | refine Eq.trans (keepM_foldl _ _ _ (fun _ _ => ?_)) ?_ | refine Eq.trans (keepM_foldl2 _ _ _ (fun _ _ => ?_)) ?_ | refine Eq.trans (keepM_times _ _ _ (fun _ => ?_)) ?_

@[simp] theorem readRefs_keepM (b : ℕ) (ch : ℕ) (die : ℕ) (s : State) : keepM (readRefs b ch die s).2 = keepM s := by
  unfold readRefs
  repeat' first | simp only [keepM_mk, keepM_times, keepM_foldl, keepM_ite, apply_ite Prod.fst, apply_ite Prod.snd, ite_self, implies_true, measureShift_keepM] | split

@[simp] theorem askRead_keepM (ch : ℕ) (r : CRead) (s : State) : keepM (askRead ch r s) = keepM s := by
  unfold askRead
  repeat' first | simp only [keepM_mk, keepM_times, keepM_foldl, keepM_ite, apply_ite Prod.fst, apply_ite Prod.snd, ite_self, implies_true, setCart_keepM] | split

@[simp] theorem askMember_keepM (rid : ℕ) (host : Bool) (b : ℕ) (m : ℕ) (x4 : ℕ) (step : ℕ) (s : State) : keepM (askMember rid host b m x4 step s) = keepM s := by
  unfold askMember
  repeat' first | simp only [keepM_mk, keepM_times, keepM_foldl, keepM_ite, apply_ite Prod.fst, apply_ite Prod.snd, ite_self, implies_true, updRead_keepM, readRefs_keepM, askRead_keepM] | split

@[simp] theorem startAround_keepM (r : MRead) (b : ℕ) (slot : ℕ) (x3 : ℕ) (s : State) : keepM (startAround r b slot x3 s) = keepM s := by
  unfold startAround
  repeat' first | simp only [keepM_mk, keepM_times, keepM_foldl, keepM_ite, apply_ite Prod.fst, apply_ite Prod.snd, ite_self, implies_true, updRead_keepM, suspendAll_keepM, askMember_keepM] | split

@[simp] theorem prefetchBad_keepM (r : MRead) (s : State) : keepM (prefetchBad r s) = keepM s := by
  unfold prefetchBad
  repeat' first | simp only [keepM_mk, keepM_times, keepM_foldl, keepM_ite, apply_ite Prod.fst, apply_ite Prod.snd, ite_self, implies_true, finishRead_keepM] | split

@[simp] theorem chargeRead_keepM (rid : ℕ) (key : ℕ) (die : ℕ) (s : State) : keepM (chargeRead rid key die s) = keepM s := by
  unfold chargeRead
  repeat' first | simp only [keepM_mk, keepM_times, keepM_foldl, keepM_ite, apply_ite Prod.fst, apply_ite Prod.snd, ite_self, implies_true, markCharged_keepM, charge_keepM] | split

@[simp] theorem homeAfter_keepM (rid : ℕ) (host : Bool) (b : ℕ) (h : ℕ) (x4 : ℕ) (s : State) : keepM (homeAfter rid host b h x4 s) = keepM s := by
  unfold homeAfter
  repeat' first | simp only [keepM_mk, keepM_times, keepM_foldl, keepM_ite, apply_ite Prod.fst, apply_ite Prod.snd, ite_self, implies_true, updRead_keepM, askMember_keepM] | split

@[simp] theorem startBeyond_keepM (r : MRead) (b : ℕ) (slot : ℕ) (x3 : ℕ) (s : State) : keepM (startBeyond r b slot x3 s) = keepM s := by
  unfold startBeyond
  repeat' first | simp only [keepM_mk, keepM_times, keepM_foldl, keepM_ite, apply_ite Prod.fst, apply_ite Prod.snd, ite_self, implies_true, homeAfter_keepM, updRead_keepM, spanStart_keepM, askMember_keepM] | split

@[simp] theorem denseGo_keepM (r : MRead) (b : ℕ) (slot : ℕ) (x3 : ℕ) (s : State) : keepM (denseGo r b slot x3 s) = keepM s := by
  unfold denseGo
  repeat' first | simp only [keepM_mk, keepM_times, keepM_foldl, keepM_ite, apply_ite Prod.fst, apply_ite Prod.snd, ite_self, implies_true, finishRead_keepM, updRead_keepM, markCharged_keepM, startAround_keepM, prefetchBad_keepM, chargeRead_keepM, located_keepM, startBeyond_keepM] | split

@[simp] theorem testBlocks_keepM (u : ℕ) (s : State) : keepM (testBlocks u s) = keepM s := by
  unfold testBlocks
  repeat' first | simp only [keepM_mk, keepM_times, keepM_foldl, keepM_ite, apply_ite Prod.fst, apply_ite Prod.snd, ite_self, implies_true, setStamp_keepM, dropBlock_keepM] | split | refine Eq.trans (keepM_foldl _ _ _ (fun _ _ => ?_)) ?_ | refine Eq.trans (keepM_foldl2 _ _ _ (fun _ _ => ?_)) ?_ | refine Eq.trans (keepM_times _ _ _ (fun _ => ?_)) ?_

@[simp] theorem wbOverflow_keepE (s : State) : keepE (wbOverflow s) = keepE s := by
  unfold wbOverflow
  repeat' first | simp only [keepE_mk, keepE_times, keepE_foldl, keepE_ite, apply_ite Prod.fst, apply_ite Prod.snd, ite_self, implies_true, event_keepE] | split

@[simp] theorem sbEnd_keepE (s : State) : keepE (sbEnd s) = keepE s := by
  unfold sbEnd
  repeat' first | simp only [keepE_mk, keepE_times, keepE_foldl, keepE_ite, apply_ite Prod.fst, apply_ite Prod.snd, ite_self, implies_true] | split

@[simp] theorem sbWriteDone_keepE (s : State) : keepE (sbWriteDone s) = keepE s := by
  unfold sbWriteDone
  repeat' first | simp only [keepE_mk, keepE_times, keepE_foldl, keepE_ite, apply_ite Prod.fst, apply_ite Prod.snd, ite_self, implies_true, wbPump_keepE, sbStart_keepE, wbOverflow_keepE, sbEnd_keepE] | split

@[simp] theorem sbWriteDone_keepM (s : State) : keepM (sbWriteDone s) = keepM s := keepEM (sbWriteDone_keepE s)

@[simp] theorem sbWriteDone_keepS (s : State) : keepS (sbWriteDone s) = keepS s := keepMS (sbWriteDone_keepM s)

@[simp] theorem sbWriteDone_keepA (s : State) : keepA (sbWriteDone s) = keepA s := keepSA (sbWriteDone_keepS s)

@[simp] theorem setCmb_keepM (slot : ℕ) (ch : ℕ) (f : Cmb → Cmb) (s : State) : keepM (setCmb slot ch f s) = keepM s := by
  unfold setCmb
  repeat' first | simp only [keepM_mk, keepM_times, keepM_foldl, keepM_ite, apply_ite Prod.fst, apply_ite Prod.snd, ite_self, implies_true] | split

@[simp] theorem cmbReply_keepM (slot : ℕ) (ch : ℕ) (result : ℕ) (words : List (BitVec 32)) (s : State) : keepM (cmbReply slot ch result words s) = keepM s := by
  unfold cmbReply
  repeat' first | simp only [keepM_mk, keepM_times, keepM_foldl, keepM_ite, apply_ite Prod.fst, apply_ite Prod.snd, ite_self, implies_true, setCmb_keepM] | split

@[simp] theorem readRaw_keepM (ch : ℕ) (die : ℕ) (bank : ℕ) (block : ℕ) (addr : ℕ) (err : BitVec 640) (s : State) : keepM (readRaw ch die bank block addr err s).2 = keepM s := by
  unfold readRaw
  repeat' first | simp only [keepM_mk, keepM_times, keepM_foldl, keepM_ite, apply_ite Prod.fst, apply_ite Prod.snd, ite_self, implies_true, drawBits_keepM] | split

@[simp] theorem rawAnswer_keepM (slot : ℕ) (ch : ℕ) (die : ℕ) (bank : ℕ) (block : ℕ) (addr : ℕ) (half : ℕ) (err : BitVec 640) (s : State) : keepM (rawAnswer slot ch die bank block addr half err s) = keepM s := by
  unfold rawAnswer
  exact (cmbReply_keepM _ _ _ _ _).trans (readRaw_keepM _ _ _ _ _ _ _)

@[simp] theorem endMove_keepM (lfn : ℕ) (s : State) : keepM (endMove lfn s) = keepM s := by
  unfold endMove
  repeat' first | simp only [keepM_mk, keepM_times, keepM_foldl, keepM_ite, apply_ite Prod.fst, apply_ite Prod.snd, ite_self, implies_true] | split

@[simp] theorem dropMove_keepM (m : FastMove) (s : State) : keepM (dropMove m s) = keepM s := by
  unfold dropMove
  repeat' first | simp only [keepM_mk, keepM_times, keepM_foldl, keepM_ite, apply_ite Prod.fst, apply_ite Prod.snd, ite_self, implies_true, releaseSet_keepM, markDraining_keepM, endMove_keepM, markInflight_keepM, commitQuiet_keepM] | split

@[simp] theorem drainDrop_keepM (lln : ℕ) (s : State) : keepM (drainDrop lln s) = keepM s := by
  unfold drainDrop
  repeat' first | simp only [keepM_mk, keepM_times, keepM_foldl, keepM_ite, apply_ite Prod.fst, apply_ite Prod.snd, ite_self, implies_true, markSlot_keepM] | split

@[simp] theorem abandonFrame_keepM (lfn : ℕ) (s : State) : keepM (abandonFrame lfn s) = keepM s := by
  unfold abandonFrame
  repeat' first | simp only [keepM_mk, keepM_times, keepM_foldl, keepM_ite, apply_ite Prod.fst, apply_ite Prod.snd, ite_self, implies_true, endJob_keepM, leaveSlot_keepM, dropMove_keepM, closeIfDone_keepM, drainDrop_keepM, setSlot_keepM] | split | refine Eq.trans (keepM_foldl _ _ _ (fun _ _ => ?_)) ?_ | refine Eq.trans (keepM_foldl2 _ _ _ (fun _ _ => ?_)) ?_ | refine Eq.trans (keepM_times _ _ _ (fun _ => ?_)) ?_

@[simp] theorem abandonFrame_keepS (lfn : ℕ) (s : State) : keepS (abandonFrame lfn s) = keepS s := keepMS (abandonFrame_keepM lfn s)

@[simp] theorem zeroFold_keepS (lfn : ℕ) (mode : ℕ) (s : State) : keepS (zeroFold lfn mode s) = keepS s := by
  unfold zeroFold
  repeat' first | simp only [keepS_mk, keepS_times, keepS_foldl, keepS_ite, apply_ite Prod.fst, apply_ite Prod.snd, ite_self, implies_true, advanceBatch_keepS, peerSend_keepS, setSlot_keepS] | split

@[simp] theorem emptyFrame_keepS (lfn : ℕ) (mode : ℕ) (s : State) : keepS (emptyFrame lfn mode s) = keepS s := by
  unfold emptyFrame
  repeat' first | simp only [keepS_mk, keepS_times, keepS_foldl, keepS_ite, apply_ite Prod.fst, apply_ite Prod.snd, ite_self, implies_true, commitNow_keepS, abandonFrame_keepS, releaseOld_keepS, dropFrame_keepS, dropPoison_keepS, zeroFold_keepS, dropPatches_keepS] | split

@[simp] theorem fsTouch_keepM (f : ℕ) (s : State) : keepM (fsTouch f s) = keepM s := by
  unfold fsTouch
  repeat' first | simp only [keepM_mk, keepM_times, keepM_foldl, keepM_ite, apply_ite Prod.fst, apply_ite Prod.snd, ite_self, implies_true, ceError_keepM] | split

@[simp] theorem askCopy_keepM (rid : ℕ) (host : Bool) (f : ℕ) (pos : ℕ) (copy : ℕ) (step : ℕ) (s : State) : keepM (askCopy rid host f pos copy step s) = keepM s := by
  unfold askCopy
  repeat' first | simp only [keepM_mk, keepM_times, keepM_foldl, keepM_ite, apply_ite Prod.fst, apply_ite Prod.snd, ite_self, implies_true, updRead_keepM, askRead_keepM] | split

@[simp] theorem fastBeyond_keepM (r : MRead) (f : ℕ) (pos : ℕ) (seq : Option (BitVec 16)) (s : State) : keepM (fastBeyond r f pos seq s) = keepM s := by
  unfold fastBeyond
  repeat' first | simp only [keepM_mk, keepM_times, keepM_foldl, keepM_ite, apply_ite Prod.fst, apply_ite Prod.snd, ite_self, implies_true, updRead_keepM, spanStart_keepM, askCopy_keepM] | split

@[simp] theorem beginAt_keepM (r : MRead) (s : State) : keepM (beginAt r s) = keepM s := by
  unfold beginAt
  repeat' first | simp only [keepM_mk, keepM_times, keepM_foldl, keepM_ite, apply_ite Prod.fst, apply_ite Prod.snd, ite_self, implies_true, finishRead_keepM, suspendAll_keepM, fsTouch_keepM, startAround_keepM, askMember_keepM, askCopy_keepM, fastBeyond_keepM] | split

@[simp] theorem beginSpan_keepM (r : MRead) (base : Bool) (record : Bool) (must : Bool) (lb : Option Line) (s : State) : keepM (beginSpan r base record must lb s) = keepM s := by
  unfold beginSpan
  repeat' first | simp only [keepM_mk, keepM_times, keepM_foldl, keepM_ite, apply_ite Prod.fst, apply_ite Prod.snd, ite_self, implies_true, spanStart_keepM] | split

@[simp] theorem entryLost_keepM (lfn : ℕ) (s : State) : keepM (entryLost lfn s).2 = keepM s := by
  unfold entryLost
  repeat' first | simp only [keepM_mk, keepM_times, keepM_foldl, keepM_ite, apply_ite Prod.fst, apply_ite Prod.snd, ite_self, implies_true, commitNow_keepM, releaseOld_keepM, event_keepM] | split

@[simp] theorem ftRead_keepM (lfn : ℕ) (s : State) : keepM (ftRead lfn s).2 = keepM s := by
  unfold ftRead
  repeat' first | simp only [keepM_mk, keepM_times, keepM_foldl, keepM_ite, apply_ite Prod.fst, apply_ite Prod.snd, ite_self, implies_true, hbmMeet_keepM, entryLost_keepM, event_keepM, ceError_keepM] | split

@[simp] theorem markRescan_keepM (lfn : ℕ) (s : State) : keepM (markRescan lfn s) = keepM s := by
  unfold markRescan
  repeat' first | simp only [keepM_mk, keepM_times, keepM_foldl, keepM_ite, apply_ite Prod.fst, apply_ite Prod.snd, ite_self, implies_true] | split

@[simp] theorem piTouch_keepM (lln : ℕ) (s : State) : keepM (piTouch lln s) = keepM s := by
  unfold piTouch
  repeat' first | simp only [keepM_mk, keepM_times, keepM_foldl, keepM_ite, apply_ite Prod.fst, apply_ite Prod.snd, ite_self, implies_true, hbmMeet_keepM] | split

@[simp] theorem beginRead_keepM (rid : ℕ) (lln : ℕ) (host : Bool) (s : State) : keepM (beginRead rid lln host s) = keepM s := by
  unfold beginRead
  repeat' first | simp only [keepM_mk, keepM_times, keepM_foldl, keepM_ite, apply_ite Prod.fst, apply_ite Prod.snd, ite_self, implies_true, finishRead_keepM, beginAt_keepM, beginSpan_keepM, ftRead_keepM, markRescan_keepM, event_keepM, piTouch_keepM] | split

@[simp] theorem prefetchAfter_keepM (lln : ℕ) (s : State) : keepM (prefetchAfter lln s) = keepM s := by
  unfold prefetchAfter
  repeat' first | simp only [keepM_mk, keepM_times, keepM_foldl, keepM_ite, apply_ite Prod.fst, apply_ite Prod.snd, ite_self, implies_true, beginRead_keepM] | split

@[simp] theorem pumpPrefetch_keepM (s : State) : keepM (pumpPrefetch s) = keepM s := by
  unfold pumpPrefetch
  repeat' first | simp only [keepM_mk, keepM_times, keepM_foldl, keepM_ite, apply_ite Prod.fst, apply_ite Prod.snd, ite_self, implies_true, prefetchAfter_keepM] | split

@[simp] theorem tieStep_keepM (r : MRead) (f : ℕ) (pos : ℕ) (step : ℕ) (s : State) : keepM (tieStep r f pos step s) = keepM s := by
  unfold tieStep
  repeat' first | simp only [keepM_mk, keepM_times, keepM_foldl, keepM_ite, apply_ite Prod.fst, apply_ite Prod.snd, ite_self, implies_true, finishRead_keepM, updRead_keepM, askCopy_keepM] | split

@[simp] theorem tieBegin_keepM (r : MRead) (f : ℕ) (pos : ℕ) (s : State) : keepM (tieBegin r f pos s) = keepM s := by
  unfold tieBegin
  repeat' first | simp only [keepM_mk, keepM_times, keepM_foldl, keepM_ite, apply_ite Prod.fst, apply_ite Prod.snd, ite_self, implies_true, finishRead_keepM, markCharged_keepM, tieStep_keepM, tieNoted_keepM] | split

@[simp] theorem byOther_keepM (r : MRead) (s : State) : keepM (byOther r s) = keepM s := by
  unfold byOther
  repeat' first | simp only [keepM_mk, keepM_times, keepM_foldl, keepM_ite, apply_ite Prod.fst, apply_ite Prod.snd, ite_self, implies_true] | split

@[simp] theorem fastLadder_keepM (r : MRead) (f : ℕ) (pos : ℕ) (seq : Option (BitVec 16)) (s : State) : keepM (fastLadder r f pos seq s) = keepM s := by
  unfold fastLadder
  repeat' first | simp only [keepM_mk, keepM_times, keepM_foldl, keepM_ite, apply_ite Prod.fst, apply_ite Prod.snd, ite_self, implies_true, finishRead_keepM, olderAgain_keepM, tieBegin_keepM, byOther_keepM, chargeRead_keepM, askCopy_keepM] | split

@[simp] theorem tieGo_keepM (r : MRead) (f : ℕ) (pos : ℕ) (seq : Option (BitVec 16)) (s : State) : keepM (tieGo r f pos seq s) = keepM s := by
  unfold tieGo
  repeat' first | simp only [keepM_mk, keepM_times, keepM_foldl, keepM_ite, apply_ite Prod.fst, apply_ite Prod.snd, ite_self, implies_true, finishRead_keepM, tieStore_keepM, tieStep_keepM] | split

@[simp] theorem fastGo_keepM (r : MRead) (f : ℕ) (pos : ℕ) (seq : Option (BitVec 16)) (s : State) : keepM (fastGo r f pos seq s) = keepM s := by
  unfold fastGo
  repeat' first | simp only [keepM_mk, keepM_times, keepM_foldl, keepM_ite, apply_ite Prod.fst, apply_ite Prod.snd, ite_self, implies_true, finishRead_keepM, suspendAll_keepM, fastLadder_keepM, prefetchBad_keepM, byOther_keepM, chargeRead_keepM, tieGo_keepM, askCopy_keepM, fastBeyond_keepM] | split

@[simp] theorem readGo_keepM (rid : ℕ) (s : State) : keepM (readGo rid s) = keepM s := by
  unfold readGo
  repeat' first | simp only [keepM_mk, keepM_times, keepM_foldl, keepM_ite, apply_ite Prod.fst, apply_ite Prod.snd, ite_self, implies_true, finishRead_keepM, denseGo_keepM, fastGo_keepM] | split

@[simp] theorem settleReads_keepM (s : State) : keepM (settleReads s) = keepM s := by
  unfold settleReads
  repeat' first | simp only [keepM_mk, keepM_times, keepM_foldl, keepM_ite, apply_ite Prod.fst, apply_ite Prod.snd, ite_self, implies_true, finishRead_keepM, updRead_keepM, readGo_keepM] | split | refine Eq.trans (keepM_foldl _ _ _ (fun _ _ => ?_)) ?_ | refine Eq.trans (keepM_foldl2 _ _ _ (fun _ _ => ?_)) ?_ | refine Eq.trans (keepM_times _ _ _ (fun _ => ?_)) ?_

@[simp] theorem releaseHeld_keepM (lln : ℕ) (s : State) : keepM (releaseHeld lln s) = keepM s := by
  unfold releaseHeld
  repeat' first | simp only [keepM_mk, keepM_times, keepM_foldl, keepM_ite, apply_ite Prod.fst, apply_ite Prod.snd, ite_self, implies_true, ncWrite_keepM] | split

@[simp] theorem askFastLine_keepM (set : ℕ) (copy : ℕ) (pos : ℕ) (l : MediaLine) (counted : Bool) (pu : PPurpose) (s : State) : keepM (askFastLine set copy pos l counted pu s) = keepM s := by
  unfold askFastLine
  repeat' first | simp only [keepM_mk, keepM_times, keepM_foldl, keepM_ite, apply_ite Prod.fst, apply_ite Prod.snd, ite_self, implies_true, askProg_keepM] | split

@[simp] theorem askStage_keepM (d : Drain) (counted : Bool) (s : State) : keepM (askStage d counted s) = keepM s := by
  unfold askStage
  repeat' first | simp only [keepM_mk, keepM_times, keepM_foldl, keepM_ite, apply_ite Prod.fst, apply_ite Prod.snd, ite_self, implies_true, askFastLine_keepM] | split

@[simp] theorem flagMissed_keepM (set : ℕ) (s : State) : keepM (flagMissed set s) = keepM s := by
  unfold flagMissed
  repeat' first | simp only [keepM_mk, keepM_times, keepM_foldl, keepM_ite, apply_ite Prod.fst, apply_ite Prod.snd, ite_self, implies_true, flagCopy_keepM] | split

@[simp] theorem setDraining_keepM (lln : ℕ) (s : State) : keepM (setDraining lln s) = keepM s := by
  unfold setDraining
  repeat' first | simp only [keepM_mk, keepM_times, keepM_foldl, keepM_ite, apply_ite Prod.fst, apply_ite Prod.snd, ite_self, implies_true, markSlot_keepM] | split

@[simp] theorem startDrain_keepM (d : Drain) (counted : Bool) (s : State) : keepM (startDrain d counted s) = keepM s := by
  unfold startDrain
  repeat' first | simp only [keepM_mk, keepM_times, keepM_foldl, keepM_ite, apply_ite Prod.fst, apply_ite Prod.snd, ite_self, implies_true, askStage_keepM, flagMissed_keepM, setDraining_keepM] | split

@[simp] theorem mergeRead_keepM (lln : ℕ) (base : Bool) (must : Bool) (localBase : Option Line) (s : State) : keepM (mergeRead lln base must localBase s) = keepM s := by
  unfold mergeRead
  repeat' first | simp only [keepM_mk, keepM_times, keepM_foldl, keepM_ite, apply_ite Prod.fst, apply_ite Prod.snd, ite_self, implies_true, spanStart_keepM] | split

@[simp] theorem checkMet_keepM (lln : ℕ) (s : State) : keepM (checkMet lln s).2 = keepM s := by
  unfold checkMet
  repeat' first | simp only [keepM_mk, keepM_times, keepM_foldl, keepM_ite, apply_ite Prod.fst, apply_ite Prod.snd, ite_self, implies_true, markRescan_keepM, event_keepM, piTouch_keepM] | split

@[simp] theorem mediaRead_keepM (lln : ℕ) (s : State) : keepM (mediaRead lln s).2 = keepM s := by
  unfold mediaRead
  repeat' first | simp only [keepM_mk, keepM_times, keepM_foldl, keepM_ite, apply_ite Prod.fst, apply_ite Prod.snd, ite_self, implies_true, sourceRead_keepM] | split

@[simp] theorem wholeLine_keepM (lln : ℕ) (d : DSlot) (s : State) : keepM (wholeLine lln d s).2 = keepM s := by
  unfold wholeLine
  repeat' first | simp only [keepM_mk, keepM_times, keepM_foldl, keepM_ite, apply_ite Prod.fst, apply_ite Prod.snd, ite_self, implies_true, mergeRead_keepM, checkMet_keepM, baseRead_keepM, putSlot_keepM, mediaRead_keepM, foundLost_keepM] | split

@[simp] theorem logPressure_keepM (s : State) : keepM (logPressure s) = keepM s := by
  unfold logPressure
  repeat' first | simp only [keepM_mk, keepM_times, keepM_foldl, keepM_ite, apply_ite Prod.fst, apply_ite Prod.snd, ite_self, implies_true, makeDue_keepM] | split

@[simp] theorem logPressure_keepS (s : State) : keepS (logPressure s) = keepS s := keepMS (logPressure_keepM s)

theorem newSegment_keepM (s : State) (k : Nat) (t : State) (h : newSegment s = some (k, t)) : keepM t = keepM s := by
  unfold newSegment at h
  split at h
  · next hp => cases h; exact (keepM_mk _).trans ((placeSeg_keepM _ _ _).trans (pickSegment_keepM _ _ _ hp))
  · cases h

theorem openSegment_keepM (s : State) (k : Nat) (t : State) (h : openSegment s = some (k, t)) : keepM t = keepM s := by
  unfold openSegment at h
  split at h
  · split at h
    · cases h; rfl
    · exact newSegment_keepM _ _ _ h
  · exact newSegment_keepM _ _ _ h

@[simp] theorem drainPatch_keepM (lln : ℕ) (counted : Bool) (s : State) : keepM (drainPatch lln counted s) = keepM s := by
  unfold drainPatch
  split
  · rfl
  · extract_lets s0
    have h0 : keepM s0 = keepM s := piTouch_keepM _ _
    clear_value s0
    split
    · exact h0
    · split
      · exact (logPressure_keepM _).trans h0
      · rename_i h
        have h1 := (openSegment_keepM _ _ _ h).trans h0
        extract_lets w
        split
        · exact (wholeLine_keepM _ _ _).trans h1
        · exact (startDrain_keepM _ _ _).trans ((keepM_mk _).trans ((wholeLine_keepM _ _ _).trans h1))

@[simp] theorem drainFast_keepM (lln : ℕ) (f : ℕ) (counted : Bool) (s : State) : keepM (drainFast lln f counted s) = keepM s := by
  unfold drainFast
  repeat' first | simp only [keepM_mk, keepM_times, keepM_foldl, keepM_ite, apply_ite Prod.fst, apply_ite Prod.snd, ite_self, implies_true, startDrain_keepM, wholeLine_keepM] | split

@[simp] theorem residencyMeet_keepM (lfn : ℕ) (s : State) : keepM (residencyMeet lfn s) = keepM s := by
  unfold residencyMeet
  repeat' first | simp only [keepM_mk, keepM_times, keepM_foldl, keepM_ite, apply_ite Prod.fst, apply_ite Prod.snd, ite_self, implies_true, hbmMeet_keepM] | split

@[simp] theorem moveCheck_keepM (m : FastMove) (l : ℕ) (s : State) : keepM (moveCheck m l s).2 = keepM s := by
  unfold moveCheck
  repeat' first | simp only [keepM_mk, keepM_times, keepM_foldl, keepM_ite, apply_ite Prod.fst, apply_ite Prod.snd, ite_self, implies_true, checkMet_keepM] | split

@[simp] theorem setMove_keepM (lfn : ℕ) (f : FastMove → FastMove) (s : State) : keepM (setMove lfn f s) = keepM s := by
  unfold setMove
  repeat' first | simp only [keepM_mk, keepM_times, keepM_foldl, keepM_ite, apply_ite Prod.fst, apply_ite Prod.snd, ite_self, implies_true] | split

@[simp] theorem moveAsk_keepM (m : FastMove) (x1 : ℕ) (data : MediaLine) (s : State) : keepM (moveAsk m x1 data s) = keepM s := by
  unfold moveAsk
  repeat' first | simp only [keepM_mk, keepM_times, keepM_foldl, keepM_ite, apply_ite Prod.fst, apply_ite Prod.snd, ite_self, implies_true, flagMissed_keepM, setMove_keepM, askFastLine_keepM] | split

@[simp] theorem moveSource_keepM (m : FastMove) (l : ℕ) (s : State) : keepM (moveSource m l s).2 = keepM s := by
  unfold moveSource
  repeat' first | simp only [keepM_mk, keepM_times, keepM_foldl, keepM_ite, apply_ite Prod.fst, apply_ite Prod.snd, ite_self, implies_true, poisonFind_keepM, baseRead_keepM, mediaRead_keepM, setDraining_keepM, slotRead_keepM] | split

@[simp] theorem moveUnreadable_keepM (m : FastMove) (s : State) : keepM (moveUnreadable m s) = keepM s := by
  unfold moveUnreadable
  repeat' first | simp only [keepM_mk, keepM_times, keepM_foldl, keepM_ite, apply_ite Prod.fst, apply_ite Prod.snd, ite_self, implies_true, commitNow_keepM, dropMove_keepM, releaseOld_keepM] | split

@[simp] theorem moveNext_keepM (m : FastMove) (s : State) : keepM (moveNext m s) = keepM s := by
  unfold moveNext
  repeat' first | simp only [keepM_mk, keepM_times, keepM_foldl, keepM_ite, apply_ite Prod.fst, apply_ite Prod.snd, ite_self, implies_true, moveCheck_keepM, moveAsk_keepM, setMove_keepM, moveSource_keepM, moveUnreadable_keepM] | split

@[simp] theorem moveLateLine_keepM (m : FastMove) (l : ℕ) (ls : List ℕ) (s : State) : keepM (moveLateLine m l ls s) = keepM s := by
  unfold moveLateLine
  repeat' first | simp only [keepM_mk, keepM_times, keepM_foldl, keepM_ite, apply_ite Prod.fst, apply_ite Prod.snd, ite_self, implies_true, moveCheck_keepM, moveAsk_keepM, setMove_keepM, moveSource_keepM, moveUnreadable_keepM] | split

end Sys2Proof.Machine
end

