-- ==== Sys2Proof/Laws/Keep3.lean ====
section
/-! SUPPORT. What each shared operation leaves alone, one lemma for each operation and class, in the order the operations call each other, part 3: `finishMove` to `setLd`. -/

set_option linter.all false

namespace Sys2Proof.Machine

@[simp] theorem finishMove_keepM (m : FastMove) (s : State) : keepM (finishMove m s) = keepM s := by
  unfold finishMove
  repeat' first | simp only [keepM_mk, keepM_times, keepM_foldl, keepM_ite, apply_ite Prod.fst, apply_ite Prod.snd, ite_self, implies_true, drainedClean_keepM, endJob_keepM, commitNow_keepM, endMove_keepM, releaseOld_keepM, commitAt_keepM, dropPatches_keepM] | split

@[simp] theorem moveStep_keepM (lfn : ℕ) (s : State) : keepM (moveStep lfn s) = keepM s := by
  unfold moveStep
  repeat' first | simp only [keepM_mk, keepM_times, keepM_foldl, keepM_ite, apply_ite Prod.fst, apply_ite Prod.snd, ite_self, implies_true, moveNext_keepM, takeSet_keepM, placeSeg_keepM, moveLateLine_keepM, finishMove_keepM] | split

@[simp] theorem startMove_keepM (lfn : ℕ) (f : ℕ) (kind : ℕ) (pin : Bool) (counted : Bool) (job : Option (BitVec 16)) (s : State) : keepM (startMove lfn f kind pin counted job s) = keepM s := by
  unfold startMove
  repeat' first | simp only [keepM_mk, keepM_times, keepM_foldl, keepM_ite, apply_ite Prod.fst, apply_ite Prod.snd, ite_self, implies_true, moveStep_keepM, takeSet_keepM, drawBits_keepM] | split

@[simp] theorem allocate_keepM (lfn : ℕ) (counted : Bool) (s : State) : keepM (allocate lfn counted s) = keepM s := by
  unfold allocate
  repeat' first | simp only [keepM_mk, keepM_times, keepM_foldl, keepM_ite, apply_ite Prod.fst, apply_ite Prod.snd, ite_self, implies_true, commitNow_keepM, takeSet_keepM, placeSeg_keepM, writeBackFrame_keepM, makeDue_keepM, residencyMeet_keepM, startMove_keepM] | split

@[simp] theorem drainLine_keepM (lln : ℕ) (counted : Bool) (s : State) : keepM (drainLine lln counted s) = keepM s := by
  unfold drainLine
  repeat' first | simp only [keepM_mk, keepM_times, keepM_foldl, keepM_ite, apply_ite Prod.fst, apply_ite Prod.snd, ite_self, implies_true, ncEvict_keepM, drainPatch_keepM, writeBackFrame_keepM, ftRead_keepM, drainFast_keepM, makeDue_keepM, residencyMeet_keepM, allocate_keepM, slotRead_keepM] | split

@[simp] theorem drainLine_keepS (lln : ℕ) (counted : Bool) (s : State) : keepS (drainLine lln counted s) = keepS s := keepMS (drainLine_keepM lln counted s)

@[simp] theorem drainLine_keepA (lln : ℕ) (counted : Bool) (s : State) : keepA (drainLine lln counted s) = keepA s := keepSA (drainLine_keepS lln counted s)

@[simp] theorem pumpHeld_keepM (s : State) : keepM (pumpHeld s) = keepM s := by
  unfold pumpHeld
  repeat' first | simp only [keepM_mk, keepM_times, keepM_foldl, keepM_ite, apply_ite Prod.fst, apply_ite Prod.snd, ite_self, implies_true, releaseHeld_keepM, drainLine_keepM] | split

@[simp] theorem mapSync_keepM (s : State) : keepM (mapSync s) = keepM s := by
  unfold mapSync
  repeat' first | simp only [keepM_mk, keepM_times, keepM_foldl, keepM_ite, apply_ite Prod.fst, apply_ite Prod.snd, ite_self, implies_true, segPut_keepM] | split | refine Eq.trans (keepM_foldl _ _ _ (fun _ _ => ?_)) ?_ | refine Eq.trans (keepM_foldl2 _ _ _ (fun _ _ => ?_)) ?_ | refine Eq.trans (keepM_times _ _ _ (fun _ => ?_)) ?_

@[simp] theorem poisonFrame_keepM (lfn : ℕ) (s : State) : keepM (poisonFrame lfn s) = keepM s := by
  unfold poisonFrame
  repeat' first | simp only [keepM_mk, keepM_times, keepM_foldl, keepM_ite, apply_ite Prod.fst, apply_ite Prod.snd, ite_self, implies_true, drPlace_keepM, dropFrame_keepM, poisonAdd_keepM] | split

@[simp] theorem unhitch_keepM (cause : ℕ) (s : State) : keepM (unhitch cause s) = keepM s := by
  unfold unhitch
  repeat' first | simp only [keepM_mk, keepM_times, keepM_foldl, keepM_ite, apply_ite Prod.fst, apply_ite Prod.snd, ite_self, implies_true, send_keepM, peerSend_keepM, setEvt_keepM, event_keepM, setPeer_keepM] | split

@[simp] theorem unhitch_keepS (cause : ℕ) (s : State) : keepS (unhitch cause s) = keepS s := keepMS (unhitch_keepM cause s)

@[simp] theorem tagsLost_keepM (s : State) : keepM (tagsLost s) = keepM s := by
  unfold tagsLost
  repeat' first | simp only [keepM_mk, keepM_times, keepM_foldl, keepM_ite, apply_ite Prod.fst, apply_ite Prod.snd, ite_self, implies_true, poisonFrame_keepM, unhitch_keepM, event_keepM] | split

@[simp] theorem recoverLost_keepM (s : State) : keepM (recoverLost s) = keepM s := by
  unfold recoverLost
  repeat' first | simp only [keepM_mk, keepM_times, keepM_foldl, keepM_ite, apply_ite Prod.fst, apply_ite Prod.snd, ite_self, implies_true, mergeRead_keepM] | split

@[simp] theorem pumpResume_keepM (ch : ℕ) (s : State) : keepM (pumpResume ch s) = keepM s := by
  unfold pumpResume
  repeat' first | simp only [keepM_mk, keepM_times, keepM_foldl, keepM_ite, apply_ite Prod.fst, apply_ite Prod.snd, ite_self, implies_true, sendPkt_keepM, setCart_keepM] | split

@[simp] theorem wakeUnit_keepM (u : ℕ) (s : State) : keepM (wakeUnit u s) = keepM s := by
  unfold wakeUnit
  repeat' first | simp only [keepM_mk, keepM_times, keepM_foldl, keepM_ite, apply_ite Prod.fst, apply_ite Prod.snd, ite_self, implies_true, setUnit_keepM] | split

@[simp] theorem wakeUnit_keepS (u : ℕ) (s : State) : keepS (wakeUnit u s) = keepS s := keepMS (wakeUnit_keepM u s)

@[simp] theorem wakeUnit_keepA (u : ℕ) (s : State) : keepA (wakeUnit u s) = keepA s := keepSA (wakeUnit_keepS u s)

@[simp] theorem wakeIdle_keepM (s : State) : keepM (wakeIdle s) = keepM s := by
  unfold wakeIdle
  repeat' first | simp only [keepM_mk, keepM_times, keepM_foldl, keepM_ite, apply_ite Prod.fst, apply_ite Prod.snd, ite_self, implies_true, wakeUnit_keepM] | split

@[simp] theorem stampBand_keepM (b : ℕ) (m : ℕ) (s : State) : keepM (stampBand b m s) = keepM s := by
  unfold stampBand
  repeat' first | simp only [keepM_mk, keepM_times, keepM_foldl, keepM_ite, apply_ite Prod.fst, apply_ite Prod.snd, ite_self, implies_true, setBand_keepM] | split

@[simp] theorem startBursts_keepM (p : CProg) (s : State) : keepM (startBursts p s).2 = keepM s := by
  unfold startBursts
  repeat' first | simp only [keepM_mk, keepM_times, keepM_foldl, keepM_ite, apply_ite Prod.fst, apply_ite Prod.snd, ite_self, implies_true, stampBand_keepM] | split

@[simp] theorem sendProg_keepE (ch : ℕ) (p : CProg) (s : State) : keepE (sendProg ch p s) = keepE s := by
  unfold sendProg
  repeat' first | simp only [keepE_mk, keepE_times, keepE_foldl, keepE_ite, apply_ite Prod.fst, apply_ite Prod.snd, ite_self, implies_true, sendPkt_keepE, send_keepE] | split

@[simp] theorem sendProg_keepM (ch : ℕ) (p : CProg) (s : State) : keepM (sendProg ch p s) = keepM s := keepEM (sendProg_keepE ch p s)

@[simp] theorem tryProg_keepM (ch : ℕ) (s : State) (p : CProg) : keepM (tryProg ch s p) = keepM s := by
  unfold tryProg
  repeat' first | simp only [keepM_mk, keepM_times, keepM_foldl, keepM_ite, apply_ite Prod.fst, apply_ite Prod.snd, ite_self, implies_true, setCart_keepM, startBursts_keepM, sendProg_keepM] | split

@[simp] theorem pumpProgs_keepM (ch : ℕ) (s : State) : keepM (pumpProgs ch s) = keepM s := by
  unfold pumpProgs
  repeat' first | simp only [keepM_mk, keepM_times, keepM_foldl, keepM_ite, apply_ite Prod.fst, apply_ite Prod.snd, ite_self, implies_true, setCart_keepM, tryProg_keepM] | split

@[simp] theorem sendPfin_keepM (ch : ℕ) (p : CProg) (s : State) : keepM (sendPfin ch p s) = keepM s := by
  unfold sendPfin
  repeat' first | simp only [keepM_mk, keepM_times, keepM_foldl, keepM_ite, apply_ite Prod.fst, apply_ite Prod.snd, ite_self, implies_true, sendPkt_keepM, setCart_keepM] | split

@[simp] theorem pumpPfin_keepM (s : State) : keepM (pumpPfin s) = keepM s := by
  unfold pumpPfin
  repeat' first | simp only [keepM_mk, keepM_times, keepM_foldl, keepM_ite, apply_ite Prod.fst, apply_ite Prod.snd, ite_self, implies_true, sendPfin_keepM] | split

@[simp] theorem holdBank_keepM (rid : ℕ) (p : ℕ × ℕ × ℕ) (s : State) : keepM (holdBank rid p s) = keepM s := by
  unfold holdBank
  repeat' first | simp only [keepM_mk, keepM_times, keepM_foldl, keepM_ite, apply_ite Prod.fst, apply_ite Prod.snd, ite_self, implies_true, updRead_keepM] | split

@[simp] theorem issueRead_keepM (ch : ℕ) (r : CRead) (tag : BitVec 7) (s : State) : keepM (issueRead ch r tag s) = keepM s := by
  unfold issueRead
  repeat' first | simp only [keepM_mk, keepM_times, keepM_foldl, keepM_ite, apply_ite Prod.fst, apply_ite Prod.snd, ite_self, implies_true, sendPkt_keepM, setCart_keepM] | split

@[simp] theorem tryRead_keepM (ch : ℕ) (s : State) (r : CRead) : keepM (tryRead ch s r) = keepM s := by
  unfold tryRead
  repeat' first | simp only [keepM_mk, keepM_times, keepM_foldl, keepM_ite, apply_ite Prod.fst, apply_ite Prod.snd, ite_self, implies_true, holdBank_keepM, suspendAll_keepM, setCart_keepM, suspendBank_keepM, issueRead_keepM] | split

@[simp] theorem askRaw_keepM (ch : ℕ) (op : ℕ) (die : ℕ) (arg : ℕ) (what : ℕ) (s : State) : keepM (askRaw ch op die arg what s) = keepM s := by
  unfold askRaw
  repeat' first | simp only [keepM_mk, keepM_times, keepM_foldl, keepM_ite, apply_ite Prod.fst, apply_ite Prod.snd, ite_self, implies_true, sendPkt_keepM, setCart_keepM] | split

@[simp] theorem askRaw_keepS (ch : ℕ) (op : ℕ) (die : ℕ) (arg : ℕ) (what : ℕ) (s : State) : keepS (askRaw ch op die arg what s) = keepS s := keepMS (askRaw_keepM ch op die arg what s)

@[simp] theorem pumpRaws_keepM (ch : ℕ) (s : State) : keepM (pumpRaws ch s) = keepM s := by
  unfold pumpRaws
  repeat' first | simp only [keepM_mk, keepM_times, keepM_foldl, keepM_ite, apply_ite Prod.fst, apply_ite Prod.snd, ite_self, implies_true, setCart_keepM, askRaw_keepM] | split

@[simp] theorem pumpFrame_keepM (ch : ℕ) (s : State) : keepM (pumpFrame ch s) = keepM s := by
  unfold pumpFrame
  repeat' first | simp only [keepM_mk, keepM_times, keepM_foldl, keepM_ite, apply_ite Prod.fst, apply_ite Prod.snd, ite_self, implies_true, sendPkt_keepM, setCart_keepM] | split

@[simp] theorem pumpReads_keepM (ch : ℕ) (s : State) : keepM (pumpReads ch s) = keepM s := by
  unfold pumpReads
  repeat' first | simp only [keepM_mk, keepM_times, keepM_foldl, keepM_ite, apply_ite Prod.fst, apply_ite Prod.snd, ite_self, implies_true, setCart_keepM, tryRead_keepM, pumpRaws_keepM, pumpFrame_keepM] | split

@[simp] theorem pump_keepM (s : State) : keepM (pump s) = keepM s := by
  unfold pump
  repeat' first | simp only [keepM_mk, keepM_times, keepM_foldl, keepM_ite, apply_ite Prod.fst, apply_ite Prod.snd, ite_self, implies_true, pumpResume_keepM, wakeIdle_keepM, pumpProgs_keepM, pumpPfin_keepM, wakeUnit_keepM, pumpReads_keepM] | split

@[simp] theorem mediaNext_keepM (s : State) : keepM (mediaNext s) = keepM s := by
  unfold mediaNext
  repeat' first | simp only [keepM_mk, keepM_times, keepM_foldl, keepM_ite, apply_ite Prod.fst, apply_ite Prod.snd, ite_self, implies_true, pumpPrefetch_keepM, settleReads_keepM, pumpHeld_keepM, mapSync_keepM, tagsLost_keepM, recoverLost_keepM, pump_keepM, completeThrough_keepM, flushJobs_keepM] | split | refine Eq.trans (keepM_foldl _ _ _ (fun _ _ => ?_)) ?_ | refine Eq.trans (keepM_foldl2 _ _ _ (fun _ _ => ?_)) ?_ | refine Eq.trans (keepM_times _ _ _ (fun _ => ?_)) ?_

@[simp] theorem mediaNext_keepS (s : State) : keepS (mediaNext s) = keepS s := keepMS (mediaNext_keepM s)

@[simp] theorem mediaNext_keepA (s : State) : keepA (mediaNext s) = keepA s := keepSA (mediaNext_keepS s)

@[simp] theorem flagAccess_keepS (reserved : Bool) (off : BitVec 24) (s : State) : keepS (flagAccess reserved off s) = keepS s := by
  unfold flagAccess
  repeat' first | simp only [keepS_mk, keepS_times, keepS_foldl, keepS_ite, apply_ite Prod.fst, apply_ite Prod.snd, ite_self, implies_true] | split

@[simp] theorem writeGlobal_keepS (o : ℕ) (v : Word) (s : State) : keepS (writeGlobal o v s) = keepS s := by
  unfold writeGlobal
  repeat' first | simp only [keepS_mk, keepS_times, keepS_foldl, keepS_ite, apply_ite Prod.fst, apply_ite Prod.snd, ite_self, implies_true] | split

@[simp] theorem clearSpanstat_keepM (inc : Byte) (s : State) : keepM (clearSpanstat inc s) = keepM s := by
  unfold clearSpanstat
  repeat' first | simp only [keepM_mk, keepM_times, keepM_foldl, keepM_ite, apply_ite Prod.fst, apply_ite Prod.snd, ite_self, implies_true] | split

@[simp] theorem clearSpanstat_keepS (inc : Byte) (s : State) : keepS (clearSpanstat inc s) = keepS s := keepMS (clearSpanstat_keepM inc s)

@[simp] theorem clearMmstat_keepM (inc : Byte) (s : State) : keepM (clearMmstat inc s) = keepM s := by
  unfold clearMmstat
  repeat' first | simp only [keepM_mk, keepM_times, keepM_foldl, keepM_ite, apply_ite Prod.fst, apply_ite Prod.snd, ite_self, implies_true] | split

@[simp] theorem writeMm_keepM (o : ℕ) (v : Word) (s : State) : keepM (writeMm o v s) = keepM s := by
  unfold writeMm
  repeat' first | simp only [keepM_mk, keepM_times, keepM_foldl, keepM_ite, apply_ite Prod.fst, apply_ite Prod.snd, ite_self, implies_true, clearMmstat_keepM] | split

@[simp] theorem writeMm_keepS (o : ℕ) (v : Word) (s : State) : keepS (writeMm o v s) = keepS s := keepMS (writeMm_keepM o v s)

@[simp] theorem setQmb_keepM (slot : ℕ) (q : ℕ) (f : Qmb → Qmb) (s : State) : keepM (setQmb slot q f s) = keepM s := by
  unfold setQmb
  repeat' first | simp only [keepM_mk, keepM_times, keepM_foldl, keepM_ite, apply_ite Prod.fst, apply_ite Prod.snd, ite_self, implies_true] | split

@[simp] theorem mbWrite_keepM (slot : ℕ) (off : ℕ) (v : BitVec 32) (s : State) : keepM (mbWrite slot off v s) = keepM s := by
  unfold mbWrite
  repeat' first | simp only [keepM_mk, keepM_times, keepM_foldl, keepM_ite, apply_ite Prod.fst, apply_ite Prod.snd, ite_self, implies_true, setCmb_keepM, setQmb_keepM] | split

@[simp] theorem fireStart_keepE (p : ℕ) (u : ℕ) (s : State) : keepE (fireStart p u s) = keepE s := by
  unfold fireStart
  repeat' first | simp only [keepE_mk, keepE_times, keepE_foldl, keepE_ite, apply_ite Prod.fst, apply_ite Prod.snd, ite_self, implies_true] | split

@[simp] theorem fireStart_keepM (p : ℕ) (u : ℕ) (s : State) : keepM (fireStart p u s) = keepM s := keepEM (fireStart_keepE p u s)

@[simp] theorem fireStart_keepS (p : ℕ) (u : ℕ) (s : State) : keepS (fireStart p u s) = keepS s := keepMS (fireStart_keepM p u s)

@[simp] theorem setPower_keepS (f : PowerSt → PowerSt) (s : State) : keepS (setPower f s) = keepS s := by
  unfold setPower
  repeat' first | simp only [keepS_mk, keepS_times, keepS_foldl, keepS_ite, apply_ite Prod.fst, apply_ite Prod.snd, ite_self, implies_true] | split

@[simp] theorem checkOff_keepS (s : State) : keepS (checkOff s) = keepS s := by
  unfold checkOff
  repeat' first | simp only [keepS_mk, keepS_times, keepS_foldl, keepS_ite, apply_ite Prod.fst, apply_ite Prod.snd, ite_self, implies_true, setPower_keepS] | split

@[simp] theorem secondCause_keepE (cause : ℕ) (s : State) : keepE (secondCause cause s) = keepE s := by
  unfold secondCause
  repeat' first | simp only [keepE_mk, keepE_times, keepE_foldl, keepE_ite, apply_ite Prod.fst, apply_ite Prod.snd, ite_self, implies_true, event_keepE] | split

@[simp] theorem secondCause_keepM (cause : ℕ) (s : State) : keepM (secondCause cause s) = keepM s := keepEM (secondCause_keepE cause s)

@[simp] theorem secondCause_keepS (cause : ℕ) (s : State) : keepS (secondCause cause s) = keepS s := keepMS (secondCause_keepM cause s)

@[simp] theorem sbFirst_keepE (rs : List SbReq) (s : State) : keepE (sbFirst rs s) = keepE s := by
  unfold sbFirst
  repeat' first | simp only [keepE_mk, keepE_times, keepE_foldl, keepE_ite, apply_ite Prod.fst, apply_ite Prod.snd, ite_self, implies_true, sbStart_keepE] | split

@[simp] theorem sbFirst_keepM (rs : List SbReq) (s : State) : keepM (sbFirst rs s) = keepM s := keepEM (sbFirst_keepE rs s)

@[simp] theorem sbFirst_keepS (rs : List SbReq) (s : State) : keepS (sbFirst rs s) = keepS s := keepMS (sbFirst_keepM rs s)

@[simp] theorem scrubAskFast_keepM (f : ℕ) (c : ℕ) (pos : ℕ) (step : ℕ) (s : State) : keepM (scrubAskFast f c pos step s) = keepM s := by
  unfold scrubAskFast
  repeat' first | simp only [keepM_mk, keepM_times, keepM_foldl, keepM_ite, apply_ite Prod.fst, apply_ite Prod.snd, ite_self, implies_true, askRead_keepM] | split

@[simp] theorem readLineRes_keepM (rid : ℕ) (key : ℕ) (step : ℕ) (res : LineRes) (s : State) : keepM (readLineRes rid key step res s) = keepM s := by
  unfold readLineRes
  repeat' first | simp only [keepM_mk, keepM_times, keepM_foldl, keepM_ite, apply_ite Prod.fst, apply_ite Prod.snd, ite_self, implies_true, homeAfter_keepM, updRead_keepM, dieCount_keepM, countBlockMark_keepM, chargeRead_keepM, askMember_keepM, retryNoted_keepM, readGo_keepM] | split

@[simp] theorem readLineRes_keepS (rid : ℕ) (key : ℕ) (step : ℕ) (res : LineRes) (s : State) : keepS (readLineRes rid key step res s) = keepS s := keepMS (readLineRes_keepM rid key step res s)

@[simp] theorem scrubAsk_keepM (b : ℕ) (m : ℕ) (x2 : ℕ) (step : ℕ) (s : State) : keepM (scrubAsk b m x2 step s) = keepM s := by
  unfold scrubAsk
  repeat' first | simp only [keepM_mk, keepM_times, keepM_foldl, keepM_ite, apply_ite Prod.fst, apply_ite Prod.snd, ite_self, implies_true, readRefs_keepM, askRead_keepM] | split

@[simp] theorem askReadback_keepM (b : ℕ) (m : ℕ) (x2 : ℕ) (s : State) : keepM (askReadback b m x2 s) = keepM s := by
  unfold askReadback
  repeat' first | simp only [keepM_mk, keepM_times, keepM_foldl, keepM_ite, apply_ite Prod.fst, apply_ite Prod.snd, ite_self, implies_true, readRefs_keepM, askRead_keepM] | split

@[simp] theorem readLost_keepM (r : CRead) (s : State) : keepM (readLost r s) = keepM s := by
  unfold readLost
  repeat' first | simp only [keepM_mk, keepM_times, keepM_foldl, keepM_ite, apply_ite Prod.fst, apply_ite Prod.snd, ite_self, implies_true, scrubAskFast_keepM, readLineRes_keepM, scrubAsk_keepM, askReadback_keepM] | split

@[simp] theorem moveAgain_keepM (m : FastMove) (s : State) : keepM (moveAgain m s) = keepM s := by
  unfold moveAgain
  repeat' first | simp only [keepM_mk, keepM_times, keepM_foldl, keepM_ite, apply_ite Prod.fst, apply_ite Prod.snd, ite_self, implies_true, endJob_keepM, dropMove_keepM, startMove_keepM] | split

@[simp] theorem moveLost_keepM (lfn : ℕ) (copy : ℕ) (s : State) : keepM (moveLost lfn copy s) = keepM s := by
  unfold moveLost
  repeat' first | simp only [keepM_mk, keepM_times, keepM_foldl, keepM_ite, apply_ite Prod.fst, apply_ite Prod.snd, ite_self, implies_true, moveStep_keepM, setMove_keepM, moveAgain_keepM, askFastLine_keepM] | split

@[simp] theorem gapRelease_keepM (s : State) : keepM (gapRelease s) = keepM s := by
  unfold gapRelease
  repeat' first | simp only [keepM_mk, keepM_times, keepM_foldl, keepM_ite, apply_ite Prod.fst, apply_ite Prod.snd, ite_self, implies_true, drainLine_keepM] | split

@[simp] theorem drainEnd_keepM (d : Drain) (s : State) : keepM (drainEnd d s) = keepM s := by
  unfold drainEnd
  repeat' first | simp only [keepM_mk, keepM_times, keepM_foldl, keepM_ite, apply_ite Prod.fst, apply_ite Prod.snd, ite_self, implies_true, lineClean_keepM, moveStep_keepM, gapRelease_keepM] | split

@[simp] theorem gapStart_keepM (d : Drain) (s : State) : keepM (gapStart d s) = keepM s := by
  unfold gapStart
  repeat' first | simp only [keepM_mk, keepM_times, keepM_foldl, keepM_ite, apply_ite Prod.fst, apply_ite Prod.snd, ite_self, implies_true, askStage_keepM, fastRead_keepM, poisonFind_keepM, mergeRead_keepM, drainEnd_keepM] | split

@[simp] theorem moveLate_keepM (lln : ℕ) (s : State) : keepM (moveLate lln s) = keepM s := by
  unfold moveLate
  repeat' first | simp only [keepM_mk, keepM_times, keepM_foldl, keepM_ite, apply_ite Prod.fst, apply_ite Prod.snd, ite_self, implies_true, moveStep_keepM, setMove_keepM] | split

@[simp] theorem fastDone_keepM (d : Drain) (s : State) : keepM (fastDone d s).2 = keepM s := by
  unfold fastDone
  repeat' first | simp only [keepM_mk, keepM_times, keepM_foldl, keepM_ite, apply_ite Prod.fst, apply_ite Prod.snd, ite_self, implies_true, fsTouch_keepM, wearBy_keepM, fsSet_keepM] | split

@[simp] theorem gapCommit_keepM (d : Drain) (s : State) : keepM (gapCommit d s) = keepM s := by
  unfold gapCommit
  repeat' first | simp only [keepM_mk, keepM_times, keepM_foldl, keepM_ite, apply_ite Prod.fst, apply_ite Prod.snd, ite_self, implies_true, descWrite_keepM, wearBy_keepM, fsSet_keepM] | split

@[simp] theorem piRemove_keepM (x0 : PiEnt) (s : State) : keepM (piRemove x0 s) = keepM s := by
  unfold piRemove
  repeat' first | simp only [keepM_mk, keepM_times, keepM_foldl, keepM_ite, apply_ite Prod.fst, apply_ite Prod.snd, ite_self, implies_true, piDrop_keepM] | split

@[simp] theorem piInsert_keepM (e : PiEnt) (s : State) : keepM (piInsert e s).2 = keepM s := by
  unfold piInsert
  repeat' first | simp only [keepM_mk, keepM_times, keepM_foldl, keepM_ite, apply_ite Prod.fst, apply_ite Prod.snd, ite_self, implies_true, fire_keepM, hbmWrite_keepM, piRemove_keepM, piNote_keepM] | split

@[simp] theorem indexPatch_keepM (e : PiEnt) (t : BitVec 64) (s : State) : keepM (indexPatch e t s).2 = keepM s := by
  unfold indexPatch
  repeat' first | simp only [keepM_mk, keepM_times, keepM_foldl, keepM_ite, apply_ite Prod.fst, apply_ite Prod.snd, ite_self, implies_true, piInsert_keepM] | split

@[simp] theorem patchDone_keepM (d : Drain) (s : State) : keepM (patchDone d s).2 = keepM s := by
  unfold patchDone
  repeat' first | simp only [keepM_mk, keepM_times, keepM_foldl, keepM_ite, apply_ite Prod.fst, apply_ite Prod.snd, ite_self, implies_true, markRescan_keepM, event_keepM, commitQuiet_keepM, logPressure_keepM, makeDue_keepM, piTouch_keepM, fsumRefresh_keepM, indexPatch_keepM] | split

@[simp] theorem drainTo_keepM (d : Drain) (n : ℕ) (s : State) : keepM (drainTo d n s) = keepM s := by
  unfold drainTo
  repeat' first | simp only [keepM_mk, keepM_times, keepM_foldl, keepM_ite, apply_ite Prod.fst, apply_ite Prod.snd, ite_self, implies_true, askStage_keepM, gapStart_keepM, drainEnd_keepM, moveLate_keepM, fastDone_keepM, gapCommit_keepM, drainDrop_keepM, patchDone_keepM] | split

@[simp] theorem drainRetry_keepM (lln : ℕ) (s : State) : keepM (drainRetry lln s) = keepM s := by
  unfold drainRetry
  repeat' first | simp only [keepM_mk, keepM_times, keepM_foldl, keepM_ite, apply_ite Prod.fst, apply_ite Prod.snd, ite_self, implies_true, flagMissed_keepM, drainTo_keepM] | split

@[simp] theorem progLost_keepM (p : CProg) (s : State) : keepM (progLost p s) = keepM s := by
  unfold progLost
  repeat' first | simp only [keepM_mk, keepM_times, keepM_foldl, keepM_ite, apply_ite Prod.fst, apply_ite Prod.snd, ite_self, implies_true, moveLost_keepM, abandonBatch_keepM, setBand_keepM, drainRetry_keepM] | split

@[simp] theorem dropWork_keepM (ch : ℕ) (hit : ℕ → ℕ → Bool) (s : State) : keepM (dropWork ch hit s) = keepM s := by
  unfold dropWork
  repeat' first | simp only [keepM_mk, keepM_times, keepM_foldl, keepM_ite, apply_ite Prod.fst, apply_ite Prod.snd, ite_self, implies_true, setCart_keepM, readLost_keepM, progLost_keepM] | split

@[simp] theorem dropWork_keepS (ch : ℕ) (hit : ℕ → ℕ → Bool) (s : State) : keepS (dropWork ch hit s) = keepS s := keepMS (dropWork_keepM ch hit s)

@[simp] theorem setStack_keepM (ch : ℕ) (f : Stack → Stack) (s : State) : keepM (setStack ch f s) = keepM s := by
  unfold setStack
  repeat' first | simp only [keepM_mk, keepM_times, keepM_foldl, keepM_ite, apply_ite Prod.fst, apply_ite Prod.snd, ite_self, implies_true] | split

@[simp] theorem stackDown_keepM (ch : ℕ) (powered : Bool) (s : State) : keepM (stackDown ch powered s) = keepM s := by
  unfold stackDown
  repeat' first | simp only [keepM_mk, keepM_times, keepM_foldl, keepM_ite, apply_ite Prod.fst, apply_ite Prod.snd, ite_self, implies_true, setStack_keepM] | split

@[simp] theorem stackDown_keepS (ch : ℕ) (powered : Bool) (s : State) : keepS (stackDown ch powered s) = keepS s := keepMS (stackDown_keepM ch powered s)

@[simp] theorem endWindows_keepM (ch : ℕ) (hit : ℕ → ℕ → Bool) (s : State) : keepM (endWindows ch hit s) = keepM s := by
  unfold endWindows
  repeat' first | simp only [keepM_mk, keepM_times, keepM_foldl, keepM_ite, apply_ite Prod.fst, apply_ite Prod.snd, ite_self, implies_true, setCart_keepM, progLost_keepM] | split

@[simp] theorem endWindows_keepS (ch : ℕ) (hit : ℕ → ℕ → Bool) (s : State) : keepS (endWindows ch hit s) = keepS s := keepMS (endWindows_keepM ch hit s)

@[simp] theorem setTest_keepM (u : ℕ) (result : ℕ) (first : ℕ) (destructive : Bool) (s : State) : keepM (setTest u result first destructive s) = keepM s := by
  unfold setTest
  repeat' first | simp only [keepM_mk, keepM_times, keepM_foldl, keepM_ite, apply_ite Prod.fst, apply_ite Prod.snd, ite_self, implies_true] | split

@[simp] theorem endContained_keepM (u : ℕ) (s : State) : keepM (endContained u s) = keepM s := by
  unfold endContained
  repeat' first | simp only [keepM_mk, keepM_times, keepM_foldl, keepM_ite, apply_ite Prod.fst, apply_ite Prod.snd, ite_self, implies_true, setTest_keepM, endJob_keepM, setUnit_keepM] | split | refine Eq.trans (keepM_foldl _ _ _ (fun _ _ => ?_)) ?_ | refine Eq.trans (keepM_foldl2 _ _ _ (fun _ _ => ?_)) ?_ | refine Eq.trans (keepM_times _ _ _ (fun _ => ?_)) ?_

@[simp] theorem beyondEvent_keepM (cond : ℕ) (band : ℕ) (s : State) : keepM (beyondEvent cond band s) = keepM s := by
  unfold beyondEvent
  repeat' first | simp only [keepM_mk, keepM_times, keepM_foldl, keepM_ite, apply_ite Prod.fst, apply_ite Prod.snd, ite_self, implies_true, event_keepM] | split

@[simp] theorem beyondEvent_keepS (cond : ℕ) (band : ℕ) (s : State) : keepS (beyondEvent cond band s) = keepS s := keepMS (beyondEvent_keepM cond band s)

@[simp] theorem beyondEvent_keepA (cond : ℕ) (band : ℕ) (s : State) : keepA (beyondEvent cond band s) = keepA s := keepSA (beyondEvent_keepS cond band s)

@[simp] theorem spanServe_keepM (lfn : ℕ) (s : State) : keepM (spanServe lfn s) = keepM s := by
  unfold spanServe
  repeat' first | simp only [keepM_mk, keepM_times, keepM_foldl, keepM_ite, apply_ite Prod.fst, apply_ite Prod.snd, ite_self, implies_true, commitNow_keepM, abandonFrame_keepM, markRebuild_keepM, releaseOld_keepM] | split

@[simp] theorem beyond_keepM (s : State) : keepM (beyond s) = keepM s := by
  unfold beyond
  repeat' first | simp only [keepM_mk, keepM_times, keepM_foldl, keepM_ite, apply_ite Prod.fst, apply_ite Prod.snd, ite_self, implies_true, poisonFind_keepM, mergeRead_keepM, beyondEvent_keepM, unhitch_keepM, refreshBand_keepM, makeDue_keepM, spanServe_keepM] | split

@[simp] theorem beyond_keepS (s : State) : keepS (beyond s) = keepS s := keepMS (beyond_keepM s)

@[simp] theorem abandonMissing_keepM (s : State) : keepM (abandonMissing s) = keepM s := by
  unfold abandonMissing
  repeat' first | simp only [keepM_mk, keepM_times, keepM_foldl, keepM_ite, apply_ite Prod.fst, apply_ite Prod.snd, ite_self, implies_true, abandonBatch_keepM] | split | refine Eq.trans (keepM_foldl _ _ _ (fun _ _ => ?_)) ?_ | refine Eq.trans (keepM_foldl2 _ _ _ (fun _ _ => ?_)) ?_ | refine Eq.trans (keepM_times _ _ _ (fun _ => ?_)) ?_

@[simp] theorem abandonMissing_keepS (s : State) : keepS (abandonMissing s) = keepS s := keepMS (abandonMissing_keepM s)

@[simp] theorem abandonMissing_keepA (s : State) : keepA (abandonMissing s) = keepA s := keepSA (abandonMissing_keepS s)

@[simp] theorem mediaLoss_keepM (u : ℕ) (down : Bool) (s : State) : keepM (mediaLoss u down s) = keepM s := by
  unfold mediaLoss
  repeat' first | simp only [keepM_mk, keepM_times, keepM_foldl, keepM_ite, apply_ite Prod.fst, apply_ite Prod.snd, ite_self, implies_true, sendPkt_keepM, dropWork_keepM, stackDown_keepM, setCart_keepM, endWindows_keepM, endContained_keepM, beyond_keepM, abandonMissing_keepM] | split

@[simp] theorem mediaLoss_keepS (u : ℕ) (down : Bool) (s : State) : keepS (mediaLoss u down s) = keepS s := keepMS (mediaLoss_keepM u down s)

@[simp] theorem stackOff_keepM (ch : ℕ) (s : State) : keepM (stackOff ch s) = keepM s := by
  unfold stackOff
  repeat' first | simp only [keepM_mk, keepM_times, keepM_foldl, keepM_ite, apply_ite Prod.fst, apply_ite Prod.snd, ite_self, implies_true, stackDown_keepM] | split

@[simp] theorem portState_keepM (p : ℕ) (st : UState) (s : State) : keepM (portState p st s) = keepM s := by
  unfold portState
  repeat' first | simp only [keepM_mk, keepM_times, keepM_foldl, keepM_ite, apply_ite Prod.fst, apply_ite Prod.snd, ite_self, implies_true, setUnit_keepM] | split

@[simp] theorem setPort_keepE (p : ℕ) (f : Port → Port) (s : State) : keepE (setPort p f s) = keepE s := by
  unfold setPort
  repeat' first | simp only [keepE_mk, keepE_times, keepE_foldl, keepE_ite, apply_ite Prod.fst, apply_ite Prod.snd, ite_self, implies_true] | split

@[simp] theorem setPort_keepM (p : ℕ) (f : Port → Port) (s : State) : keepM (setPort p f s) = keepM s := keepEM (setPort_keepE p f s)

@[simp] theorem setPort_keepS (p : ℕ) (f : Port → Port) (s : State) : keepS (setPort p f s) = keepS s := keepMS (setPort_keepM p f s)

@[simp] theorem portDown_keepM (p : ℕ) (s : State) : keepM (portDown p s) = keepM s := by
  unfold portDown
  repeat' first | simp only [keepM_mk, keepM_times, keepM_foldl, keepM_ite, apply_ite Prod.fst, apply_ite Prod.snd, ite_self, implies_true, portState_keepM, updLoad_keepM, setPort_keepM] | split

@[simp] theorem portDown_keepS (p : ℕ) (s : State) : keepS (portDown p s) = keepS s := keepMS (portDown_keepM p s)

@[simp] theorem unitsAbsent_keepM (olds : List (ℕ × UState)) (s : State) : keepM (unitsAbsent olds s) = keepM s := by
  unfold unitsAbsent
  repeat' first | simp only [keepM_mk, keepM_times, keepM_foldl, keepM_ite, apply_ite Prod.fst, apply_ite Prod.snd, ite_self, implies_true, mediaLoss_keepM, stateEvent_keepM, stackOff_keepM, portDown_keepM] | split

@[simp] theorem unitsAbsent_keepS (olds : List (ℕ × UState)) (s : State) : keepS (unitsAbsent olds s) = keepS s := keepMS (unitsAbsent_keepM olds s)

@[simp] theorem flagRail_keepS (r : ℕ) (s : State) : keepS (flagRail r s) = keepS s := by
  unfold flagRail
  repeat' first | simp only [keepS_mk, keepS_times, keepS_foldl, keepS_ite, apply_ite Prod.fst, apply_ite Prod.snd, ite_self, implies_true, sbFirst_keepS, setPower_keepS, unitsAbsent_keepS, event_keepS] | split

@[simp] theorem stopChannel_keepM (ch : ℕ) (s : State) : keepM (stopChannel ch s) = keepM s := by
  unfold stopChannel
  repeat' first | simp only [keepM_mk, keepM_times, keepM_foldl, keepM_ite, apply_ite Prod.fst, apply_ite Prod.snd, ite_self, implies_true, sendPkt_keepM, setCart_keepM] | split

@[simp] theorem stopChannel_keepS (ch : ℕ) (s : State) : keepS (stopChannel ch s) = keepS s := keepMS (stopChannel_keepM ch s)

@[simp] theorem failReadmits_keepM (s : State) : keepM (failReadmits s) = keepM s := by
  unfold failReadmits
  repeat' first | simp only [keepM_mk, keepM_times, keepM_foldl, keepM_ite, apply_ite Prod.fst, apply_ite Prod.snd, ite_self, implies_true, endJob_keepM] | split

@[simp] theorem failReadmits_keepS (s : State) : keepS (failReadmits s) = keepS s := keepMS (failReadmits_keepM s)

@[simp] theorem shutdownPath_keepS (cause : ℕ) (s : State) : keepS (shutdownPath cause s) = keepS s := by
  unfold shutdownPath
  repeat' first | simp only [keepS_mk, keepS_times, keepS_foldl, keepS_ite, apply_ite Prod.fst, apply_ite Prod.snd, ite_self, implies_true, sbFirst_keepS, setPower_keepS, wbFlush_keepS, stopChannel_keepS, event_keepS, failReadmits_keepS] | split

@[simp] theorem flushReady_keepM (s : State) : keepM (flushReady s) = keepM s := by
  unfold flushReady
  repeat' first | simp only [keepM_mk, keepM_times, keepM_foldl, keepM_ite, apply_ite Prod.fst, apply_ite Prod.snd, ite_self, implies_true, ncLook_keepM, slotRead_keepM] | split

@[simp] theorem flushReady_keepS (s : State) : keepS (flushReady s) = keepS s := keepMS (flushReady_keepM s)

theorem flushPlace_keepS (s : State) (k : Nat) (t : State) (h : flushPlace s = some (k, t)) : keepS t = keepS s := by
  unfold flushPlace at h
  extract_lets last up fresh at h
  have hf : ∀ k t, fresh = some (k, t) → keepS t = keepS s := by
    intro k t h
    simp only [fresh] at h
    split at h
    · cases h
    · cases h; exact (takeSet_keepS _ _ _ _ _).trans (setPower_keepS _ _)
  clear_value fresh last
  split at h
  · split at h
    · cases h; rfl
    · exact hf _ _ h
  · exact hf _ _ h

@[simp] theorem flushSegment_keepS (ctr : ℕ) (last : Bool) (lines : List (ℕ × Line × BitVec 64)) (s : State) : keepS (flushSegment ctr last lines s) = keepS s := by
  unfold flushSegment
  split
  · rfl
  · next h =>
    have h0 := flushPlace_keepS _ _ _ h
    extract_lets us sg s1 x s2 s3
    have h1 : keepS s1 = keepS s := (placeSeg_keepS _ _ _).trans h0
    have h2 : keepS s2 = keepS s := (keepS_mk s1).trans h1
    clear_value s2
    have h3 : keepS s3 = keepS s := (keepS_foldl _ _ _ (fun s i => by split <;> simp only [segPut_keepS])).trans h2
    exact (keepS_foldl _ _ _ (fun s i => segPut_keepS _ _ _ _)).trans h3

@[simp] theorem flushSegments_keepS (lines : List (ℕ × Line × BitVec 64)) (s : State) : keepS (flushSegments lines s) = keepS s := by
  unfold flushSegments
  repeat' first | simp only [keepS_mk, keepS_times, keepS_foldl, keepS_ite, apply_ite Prod.fst, apply_ite Prod.snd, ite_self, implies_true, flushSegment_keepS] | split | refine Eq.trans (keepS_foldl _ _ _ (fun _ _ => ?_)) ?_ | refine Eq.trans (keepS_foldl2 _ _ _ (fun _ _ => ?_)) ?_ | refine Eq.trans (keepS_times _ _ _ (fun _ => ?_)) ?_

@[simp] theorem flushCut_keepS (s : State) : keepS (flushCut s) = keepS s := by
  unfold flushCut
  repeat' first | simp only [keepS_mk, keepS_times, keepS_foldl, keepS_ite, apply_ite Prod.fst, apply_ite Prod.snd, ite_self, implies_true, setPower_keepS, flushReady_keepS, drawBits_keepS, flushSegments_keepS] | split

@[simp] theorem flushCut_keepA (s : State) : keepA (flushCut s) = keepA s := keepSA (flushCut_keepS s)

@[simp] theorem loseJobs_keepM (s : State) : keepM (loseJobs s) = keepM s := by
  unfold loseJobs
  repeat' first | simp only [keepM_mk, keepM_times, keepM_foldl, keepM_ite, apply_ite Prod.fst, apply_ite Prod.snd, ite_self, implies_true] | split

@[simp] theorem loseJobs_keepS (s : State) : keepS (loseJobs s) = keepS s := keepMS (loseJobs_keepM s)

@[simp] theorem mainDown_keepS (s : State) : keepS (mainDown s) = keepS s := by
  unfold mainDown
  repeat' first | simp only [keepS_mk, keepS_times, keepS_foldl, keepS_ite, apply_ite Prod.fst, apply_ite Prod.snd, ite_self, implies_true, stackDown_keepS, loseJobs_keepS] | split

@[simp] theorem mainDown_keepA (s : State) : keepA (mainDown s) = keepA s := keepSA (mainDown_keepS s)

@[simp] theorem offTable_keepS (s : State) : keepS (offTable s) = keepS s := by
  unfold offTable
  repeat' first | simp only [keepS_mk, keepS_times, keepS_foldl, keepS_ite, apply_ite Prod.fst, apply_ite Prod.snd, ite_self, implies_true, checkOff_keepS, setPower_keepS, mainDown_keepS] | split

@[simp] theorem breakFlush_keepS (s : State) : keepS (breakFlush s) = keepS s := by
  unfold breakFlush
  repeat' first | simp only [keepS_mk, keepS_times, keepS_foldl, keepS_ite, apply_ite Prod.fst, apply_ite Prod.snd, ite_self, implies_true, setPower_keepS, flushCut_keepS, offTable_keepS] | split

@[simp] theorem pgLost_keepS (r : ℕ) (s : State) : keepS (pgLost r s) = keepS s := by
  unfold pgLost
  repeat' first | simp only [keepS_mk, keepS_times, keepS_foldl, keepS_ite, apply_ite Prod.fst, apply_ite Prod.snd, ite_self, implies_true, checkOff_keepS, setPower_keepS, secondCause_keepS, flagRail_keepS, shutdownPath_keepS, breakFlush_keepS, mediaNext_keepS] | split

@[simp] theorem pgGlitch_keepS (r : ℕ) (s : State) : keepS (pgGlitch r s) = keepS s := by
  unfold pgGlitch
  repeat' first | simp only [keepS_mk, keepS_times, keepS_foldl, keepS_ite, apply_ite Prod.fst, apply_ite Prod.snd, ite_self, implies_true, setPower_keepS] | split

@[simp] theorem arm_keepS (a : Armed) (s : State) : keepS (arm a s) = keepS s := by
  unfold arm
  repeat' first | simp only [keepS_mk, keepS_times, keepS_foldl, keepS_ite, apply_ite Prod.fst, apply_ite Prod.snd, ite_self, implies_true, fire_keepS, fireStart_keepS, pgLost_keepS, pgGlitch_keepS] | split

@[simp] theorem regArm_keepS (s : State) : keepS (regArm s) = keepS s := by
  unfold regArm
  repeat' first | simp only [keepS_mk, keepS_times, keepS_foldl, keepS_ite, apply_ite Prod.fst, apply_ite Prod.snd, ite_self, implies_true, arm_keepS] | split

@[simp] theorem disarm_keepE (p : ℕ) (u : ℕ) (s : State) : keepE (disarm p u s) = keepE s := by
  unfold disarm
  repeat' first | simp only [keepE_mk, keepE_times, keepE_foldl, keepE_ite, apply_ite Prod.fst, apply_ite Prod.snd, ite_self, implies_true] | split

@[simp] theorem regDisarm_keepE (s : State) : keepE (regDisarm s) = keepE s := by
  unfold regDisarm
  repeat' first | simp only [keepE_mk, keepE_times, keepE_foldl, keepE_ite, apply_ite Prod.fst, apply_ite Prod.snd, ite_self, implies_true, disarm_keepE] | split

@[simp] theorem regDisarm_keepM (s : State) : keepM (regDisarm s) = keepM s := keepEM (regDisarm_keepE s)

@[simp] theorem regDisarm_keepS (s : State) : keepS (regDisarm s) = keepS s := keepMS (regDisarm_keepM s)

@[simp] theorem writeInject_keepS (o : ℕ) (v : Word) (s : State) : keepS (writeInject o v s) = keepS s := by
  unfold writeInject
  repeat' first | simp only [keepS_mk, keepS_times, keepS_foldl, keepS_ite, apply_ite Prod.fst, apply_ite Prod.snd, ite_self, implies_true, regArm_keepS, regDisarm_keepS] | split

theorem mbAccess_keepM (slot u : Nat) (f : State → State) (s : State) (h : ∀ s, keepM (f s) = keepM s) :
    keepM (mbAccess slot u f s) = keepM s := by
  unfold mbAccess
  split
  · exact send_keepM _ _
  · exact (h _).trans (wakeUnit_keepM _ _)

@[simp] theorem clearEvt_keepE (w : BitVec 9) (s : State) : keepE (clearEvt w s) = keepE s := by
  unfold clearEvt
  repeat' first | simp only [keepE_mk, keepE_times, keepE_foldl, keepE_ite, apply_ite Prod.fst, apply_ite Prod.snd, ite_self, implies_true] | split

@[simp] theorem writeEvents_keepE (o : ℕ) (v : Word) (s : State) : keepE (writeEvents o v s) = keepE s := by
  unfold writeEvents
  repeat' first | simp only [keepE_mk, keepE_times, keepE_foldl, keepE_ite, apply_ite Prod.fst, apply_ite Prod.snd, ite_self, implies_true, clearEvt_keepE] | split

@[simp] theorem writeEvents_keepM (o : ℕ) (v : Word) (s : State) : keepM (writeEvents o v s) = keepM s := keepEM (writeEvents_keepE o v s)

@[simp] theorem writeEvents_keepS (o : ℕ) (v : Word) (s : State) : keepS (writeEvents o v s) = keepS s := keepMS (writeEvents_keepM o v s)

@[simp] theorem startFlush_keepE (s : State) : keepE (startFlush s) = keepE s := by
  unfold startFlush
  repeat' first | simp only [keepE_mk, keepE_times, keepE_foldl, keepE_ite, apply_ite Prod.fst, apply_ite Prod.snd, ite_self, implies_true, wbFlush_keepE] | split

@[simp] theorem writeWaybill_keepE (o : ℕ) (v : Word) (s : State) : keepE (writeWaybill o v s) = keepE s := by
  unfold writeWaybill
  repeat' first | simp only [keepE_mk, keepE_times, keepE_foldl, keepE_ite, apply_ite Prod.fst, apply_ite Prod.snd, ite_self, implies_true, startFlush_keepE] | split

@[simp] theorem writeWaybill_keepM (o : ℕ) (v : Word) (s : State) : keepM (writeWaybill o v s) = keepM s := keepEM (writeWaybill_keepE o v s)

@[simp] theorem writeWaybill_keepS (o : ℕ) (v : Word) (s : State) : keepS (writeWaybill o v s) = keepS s := keepMS (writeWaybill_keepM o v s)

@[simp] theorem clearLpstat_keepM (inc : Byte) (s : State) : keepM (clearLpstat inc s) = keepM s := by
  unfold clearLpstat
  repeat' first | simp only [keepM_mk, keepM_times, keepM_foldl, keepM_ite, apply_ite Prod.fst, apply_ite Prod.snd, ite_self, implies_true] | split

@[simp] theorem writeLp_keepM (o : ℕ) (v : Word) (s : State) : keepM (writeLp o v s) = keepM s := by
  unfold writeLp
  repeat' first | simp only [keepM_mk, keepM_times, keepM_foldl, keepM_ite, apply_ite Prod.fst, apply_ite Prod.snd, ite_self, implies_true, clearLpstat_keepM] | split

@[simp] theorem writeLp_keepS (o : ℕ) (v : Word) (s : State) : keepS (writeLp o v s) = keepS s := keepMS (writeLp_keepM o v s)

@[simp] theorem setTherm_keepS (f : ThermSt → ThermSt) (s : State) : keepS (setTherm f s) = keepS s := by
  unfold setTherm
  repeat' first | simp only [keepS_mk, keepS_times, keepS_foldl, keepS_ite, apply_ite Prod.fst, apply_ite Prod.snd, ite_self, implies_true] | split

@[simp] theorem clearThrmstat_keepS (inc : Byte) (s : State) : keepS (clearThrmstat inc s) = keepS s := by
  unfold clearThrmstat
  repeat' first | simp only [keepS_mk, keepS_times, keepS_foldl, keepS_ite, apply_ite Prod.fst, apply_ite Prod.snd, ite_self, implies_true] | split

@[simp] theorem writeThermal_keepS (o : ℕ) (v : Word) (s : State) : keepS (writeThermal o v s) = keepS s := by
  unfold writeThermal
  repeat' first | simp only [keepS_mk, keepS_times, keepS_foldl, keepS_ite, apply_ite Prod.fst, apply_ite Prod.snd, ite_self, implies_true, setTherm_keepS, clearThrmstat_keepS] | split

@[simp] theorem clearPwr_keepS (inc : Byte) (s : State) : keepS (clearPwr inc s) = keepS s := by
  unfold clearPwr
  repeat' first | simp only [keepS_mk, keepS_times, keepS_foldl, keepS_ite, apply_ite Prod.fst, apply_ite Prod.snd, ite_self, implies_true] | split

@[simp] theorem writePower_keepS (o : ℕ) (v : Word) (s : State) : keepS (writePower o v s) = keepS s := by
  unfold writePower
  repeat' first | simp only [keepS_mk, keepS_times, keepS_foldl, keepS_ite, apply_ite Prod.fst, apply_ite Prod.snd, ite_self, implies_true, setPower_keepS, clearPwr_keepS] | split

@[simp] theorem clearCachestat_keepM (inc : Byte) (s : State) : keepM (clearCachestat inc s) = keepM s := by
  unfold clearCachestat
  repeat' first | simp only [keepM_mk, keepM_times, keepM_foldl, keepM_ite, apply_ite Prod.fst, apply_ite Prod.snd, ite_self, implies_true] | split

@[simp] theorem clearReadstat_keepM (inc : Byte) (s : State) : keepM (clearReadstat inc s) = keepM s := by
  unfold clearReadstat
  repeat' first | simp only [keepM_mk, keepM_times, keepM_foldl, keepM_ite, apply_ite Prod.fst, apply_ite Prod.snd, ite_self, implies_true] | split

@[simp] theorem clearWritestat_keepM (inc : Byte) (s : State) : keepM (clearWritestat inc s) = keepM s := by
  unfold clearWritestat
  repeat' first | simp only [keepM_mk, keepM_times, keepM_foldl, keepM_ite, apply_ite Prod.fst, apply_ite Prod.snd, ite_self, implies_true] | split

@[simp] theorem writePaths_keepM (o : ℕ) (v : Word) (s : State) : keepM (writePaths o v s) = keepM s := by
  unfold writePaths
  repeat' first | simp only [keepM_mk, keepM_times, keepM_foldl, keepM_ite, apply_ite Prod.fst, apply_ite Prod.snd, ite_self, implies_true, clearCachestat_keepM, updLoad_keepM, clearReadstat_keepM, clearWritestat_keepM] | split

@[simp] theorem writePaths_keepS (o : ℕ) (v : Word) (s : State) : keepS (writePaths o v s) = keepS s := keepMS (writePaths_keepM o v s)

@[simp] theorem qMark_keepE (q : ℕ) (s : State) : keepE (qMark q s) = keepE s := by
  unfold qMark
  repeat' first | simp only [keepE_mk, keepE_times, keepE_foldl, keepE_ite, apply_ite Prod.fst, apply_ite Prod.snd, ite_self, implies_true, setQ_keepE] | split

@[simp] theorem qRewind_keepE (q : ℕ) (s : State) : keepE (qRewind q s) = keepE s := by
  unfold qRewind
  repeat' first | simp only [keepE_mk, keepE_times, keepE_foldl, keepE_ite, apply_ite Prod.fst, apply_ite Prod.snd, ite_self, implies_true, setQ_keepE] | split

@[simp] theorem qRelease_keepE (q : ℕ) (n : ℕ) (s : State) : keepE (qRelease q n s).2 = keepE s := by
  unfold qRelease
  repeat' first | simp only [keepE_mk, keepE_times, keepE_foldl, keepE_ite, apply_ite Prod.fst, apply_ite Prod.snd, ite_self, implies_true, qGrant_keepE, setQ_keepE] | split

@[simp] theorem queueRecord_keepE (q : ℕ) (bit : ℕ) (s : State) : keepE (queueRecord q bit s) = keepE s := by
  unfold queueRecord
  repeat' first | simp only [keepE_mk, keepE_times, keepE_foldl, keepE_ite, apply_ite Prod.fst, apply_ite Prod.snd, ite_self, implies_true, event_keepE] | split

@[simp] theorem queueRecord_keepM (q : ℕ) (bit : ℕ) (s : State) : keepM (queueRecord q bit s) = keepM s := keepEM (queueRecord_keepE q bit s)

@[simp] theorem releaseWords_keepE (q : ℕ) (n : ℕ) (s : State) : keepE (releaseWords q n s) = keepE s := by
  unfold releaseWords
  repeat' first | simp only [keepE_mk, keepE_times, keepE_foldl, keepE_ite, apply_ite Prod.fst, apply_ite Prod.snd, ite_self, implies_true, qRelease_keepE, queueRecord_keepE] | split

@[simp] theorem writeQueueReg_keepE (o : ℕ) (v : Word) (s : State) : keepE (writeQueueReg o v s) = keepE s := by
  unfold writeQueueReg
  repeat' first | simp only [keepE_mk, keepE_times, keepE_foldl, keepE_ite, apply_ite Prod.fst, apply_ite Prod.snd, ite_self, implies_true, qMark_keepE, qRewind_keepE, setQ_keepE, releaseWords_keepE] | split

@[simp] theorem writeQueueReg_keepM (o : ℕ) (v : Word) (s : State) : keepM (writeQueueReg o v s) = keepM s := keepEM (writeQueueReg_keepE o v s)

@[simp] theorem writeQueueReg_keepS (o : ℕ) (v : Word) (s : State) : keepS (writeQueueReg o v s) = keepS s := keepMS (writeQueueReg_keepM o v s)

@[simp] theorem clearTtstat_keepM (inc : Byte) (s : State) : keepM (clearTtstat inc s) = keepM s := by
  unfold clearTtstat
  repeat' first | simp only [keepM_mk, keepM_times, keepM_foldl, keepM_ite, apply_ite Prod.fst, apply_ite Prod.snd, ite_self, implies_true] | split

@[simp] theorem clearTtstat_keepS (inc : Byte) (s : State) : keepS (clearTtstat inc s) = keepS s := keepMS (clearTtstat_keepM inc s)

@[simp] theorem writeMarkHi_keepS (v : Word) (s : State) : keepS (writeMarkHi v s) = keepS s := by
  unfold writeMarkHi
  repeat' first | simp only [keepS_mk, keepS_times, keepS_foldl, keepS_ite, apply_ite Prod.fst, apply_ite Prod.snd, ite_self, implies_true] | split

@[simp] theorem writeTime_keepS (o : ℕ) (v : Word) (s : State) : keepS (writeTime o v s) = keepS s := by
  unfold writeTime
  repeat' first | simp only [keepS_mk, keepS_times, keepS_foldl, keepS_ite, apply_ite Prod.fst, apply_ite Prod.snd, ite_self, implies_true, clearTtstat_keepS, writeMarkHi_keepS] | split

@[simp] theorem clearStrongbox_keepE (inc : Byte) (s : State) : keepE (clearStrongbox inc s) = keepE s := by
  unfold clearStrongbox
  repeat' first | simp only [keepE_mk, keepE_times, keepE_foldl, keepE_ite, apply_ite Prod.fst, apply_ite Prod.snd, ite_self, implies_true] | split

@[simp] theorem writeStrongbox_keepE (o : ℕ) (v : Word) (s : State) : keepE (writeStrongbox o v s) = keepE s := by
  unfold writeStrongbox
  repeat' first | simp only [keepE_mk, keepE_times, keepE_foldl, keepE_ite, apply_ite Prod.fst, apply_ite Prod.snd, ite_self, implies_true, clearStrongbox_keepE] | split

@[simp] theorem writeStrongbox_keepM (o : ℕ) (v : Word) (s : State) : keepM (writeStrongbox o v s) = keepM s := keepEM (writeStrongbox_keepE o v s)

@[simp] theorem writeStrongbox_keepS (o : ℕ) (v : Word) (s : State) : keepS (writeStrongbox o v s) = keepS s := keepMS (writeStrongbox_keepM o v s)

@[simp] theorem clearMch_keepM (ch : ℕ) (inc : Byte) (s : State) : keepM (clearMch ch inc s) = keepM s := by
  unfold clearMch
  repeat' first | simp only [keepM_mk, keepM_times, keepM_foldl, keepM_ite, apply_ite Prod.fst, apply_ite Prod.snd, ite_self, implies_true] | split

@[simp] theorem clearMch_keepS (ch : ℕ) (inc : Byte) (s : State) : keepS (clearMch ch inc s) = keepS s := keepMS (clearMch_keepM ch inc s)

@[simp] theorem writeReg_keepS (o : ℕ) (v : Word) (s : State) : keepS (writeReg o v s) = keepS s := by
  unfold writeReg
  repeat' with_reducible refine keepS_ite_eq ?_ ?_
  all_goals try (with_reducible rfl)
  all_goals try split
  all_goals first | with_reducible rfl | simp only [clearMch_keepS, clearSpanstat_keepS, writeEvents_keepS, writeGlobal_keepS, writeInject_keepS, writeLp_keepS, writeMm_keepS, writePaths_keepS, writePower_keepS, writeQueueReg_keepS, writeStrongbox_keepS, writeThermal_keepS, writeTime_keepS, writeWaybill_keepS] | exact keepMS (mbAccess_keepM _ _ _ _ (fun s => mbWrite_keepM _ _ _ s))

@[simp] theorem writeDword_keepS (off : BitVec 24) (o : ℕ) (v : Word) (s : State) : keepS (writeDword off o v s) = keepS s := by
  unfold writeDword
  repeat' first | simp only [keepS_mk, keepS_times, keepS_foldl, keepS_ite, apply_ite Prod.fst, apply_ite Prod.snd, ite_self, implies_true, writeReg_keepS, flagAccess_keepS] | split

@[simp] theorem accessDword_keepS (off : BitVec 24) (data : BitVec 64) (be : Byte) (o : ℕ) (s : State) : keepS (accessDword off data be o s) = keepS s := by
  unfold accessDword
  repeat' first | simp only [keepS_mk, keepS_times, keepS_foldl, keepS_ite, apply_ite Prod.fst, apply_ite Prod.snd, ite_self, implies_true, flagAccess_keepS, writeDword_keepS] | split

@[simp] theorem trainTo.writeEye_keepM (ch : ℕ) (s : State) : keepM (trainTo.writeEye ch s) = keepM s := by
  unfold trainTo.writeEye
  repeat' first | simp only [keepM_mk, keepM_times, keepM_foldl, keepM_ite, apply_ite Prod.fst, apply_ite Prod.snd, ite_self, implies_true, sendPkt_keepM, send_keepM, setCart_keepM, askRaw_keepM, drawBits_keepM] | split

@[simp] theorem trainTo.writeEye_keepS (ch : ℕ) (s : State) : keepS (trainTo.writeEye ch s) = keepS s := keepMS (trainTo.writeEye_keepM ch s)

@[simp] theorem trainTo.writeEye_keepA (ch : ℕ) (s : State) : keepA (trainTo.writeEye ch s) = keepA s := keepSA (trainTo.writeEye_keepS ch s)

@[simp] theorem cmbOffer_keepM (slot : ℕ) (ch : ℕ) (msg : ℕ) (x3 : CmbMsg) (s : State) : keepM (cmbOffer slot ch msg x3 s).2 = keepM s := by
  unfold cmbOffer
  repeat' first | simp only [keepM_mk, keepM_times, keepM_foldl, keepM_ite, apply_ite Prod.fst, apply_ite Prod.snd, ite_self, implies_true, setCmb_keepM] | split

@[simp] theorem cmbOffer_keepS (slot : ℕ) (ch : ℕ) (msg : ℕ) (x3 : CmbMsg) (s : State) : keepS (cmbOffer slot ch msg x3 s).2 = keepS s := keepMS (cmbOffer_keepM slot ch msg x3 s)

@[simp] theorem cmbOffer_keepA (slot : ℕ) (ch : ℕ) (msg : ℕ) (x3 : CmbMsg) (s : State) : keepA (cmbOffer slot ch msg x3 s).2 = keepA s := keepSA (cmbOffer_keepS slot ch msg x3 s)

@[simp] theorem countIn_keepM (s : State) : keepM (countIn s) = keepM s := by
  unfold countIn
  repeat' first | simp only [keepM_mk, keepM_times, keepM_foldl, keepM_ite, apply_ite Prod.fst, apply_ite Prod.snd, ite_self, implies_true] | split

@[simp] theorem setLd_keepE (i : ℕ) (f : Ld → Ld) (s : State) : keepE (setLd i f s) = keepE s := by
  unfold setLd
  repeat' first | simp only [keepE_mk, keepE_times, keepE_foldl, keepE_ite, apply_ite Prod.fst, apply_ite Prod.snd, ite_self, implies_true] | split

end Sys2Proof.Machine
end

