-- ==== Sys2Proof/Laws/Keep4.lean ====
section
/-! SUPPORT. What each shared operation leaves alone, one lemma for each operation and class, in the order the operations call each other, part 4: `setLd` to `settle`. -/

set_option linter.all false

namespace Sys2Proof.Machine

@[simp] theorem setLd_keepM (i : ℕ) (f : Ld → Ld) (s : State) : keepM (setLd i f s) = keepM s := keepEM (setLd_keepE i f s)

@[simp] theorem setLd_keepS (i : ℕ) (f : Ld → Ld) (s : State) : keepS (setLd i f s) = keepS s := keepMS (setLd_keepM i f s)

@[simp] theorem setLd_keepA (i : ℕ) (f : Ld → Ld) (s : State) : keepA (setLd i f s) = keepA s := keepSA (setLd_keepS i f s)

@[simp] theorem closeBatch_keepM (i : ℕ) (strict : Bool) (tail : Bool) (s : State) : keepM (closeBatch i strict tail s) = keepM s := by
  unfold closeBatch
  repeat' first | simp only [keepM_mk, keepM_times, keepM_foldl, keepM_ite, apply_ite Prod.fst, apply_ite Prod.snd, ite_self, implies_true, setStream_keepM, peerSend_keepM] | split

@[simp] theorem streamAdd_keepM (i : ℕ) (rec_ : Record) (strict : Bool) (s : State) : keepM (streamAdd i rec_ strict s) = keepM s := by
  unfold streamAdd
  repeat' first | simp only [keepM_mk, keepM_times, keepM_foldl, keepM_ite, apply_ite Prod.fst, apply_ite Prod.snd, ite_self, implies_true, closeBatch_keepM] | split

@[simp] theorem streamAll_keepM (rec_ : Record) (strict : Bool) (s : State) : keepM (streamAll rec_ strict s).2 = keepM s := by
  unfold streamAll
  exact keepM_foldl2 _ _ _ (fun p a => by simp only [streamAdd_keepM])

@[simp] theorem sendMap_keepM (i : ℕ) (old : ℕ) (s : State) : keepM (sendMap i old s) = keepM s := by
  unfold sendMap
  repeat' first | simp only [keepM_mk, keepM_times, keepM_foldl, keepM_ite, apply_ite Prod.fst, apply_ite Prod.snd, ite_self, implies_true, streamAll_keepM] | split | refine Eq.trans (keepM_foldl _ _ _ (fun _ _ => ?_)) ?_ | refine Eq.trans (keepM_foldl2 _ _ _ (fun _ _ => ?_)) ?_ | refine Eq.trans (keepM_times _ _ _ (fun _ => ?_)) ?_

@[simp] theorem sendMap_keepS (i : ℕ) (old : ℕ) (s : State) : keepS (sendMap i old s) = keepS s := keepMS (sendMap_keepM i old s)

@[simp] theorem setMode_keepM (i : ℕ) (m : CommitMode) (s : State) : keepM (setMode i m s) = keepM s := by
  unfold setMode
  repeat' first | simp only [keepM_mk, keepM_times, keepM_foldl, keepM_ite, apply_ite Prod.fst, apply_ite Prod.snd, ite_self, implies_true, send_keepM, setLd_keepM, sendMap_keepM] | split

@[simp] theorem allModes_keepM (m : CommitMode) (s : State) : keepM (allModes m s) = keepM s := by
  unfold allModes
  repeat' first | simp only [keepM_mk, keepM_times, keepM_foldl, keepM_ite, apply_ite Prod.fst, apply_ite Prod.snd, ite_self, implies_true, setMode_keepM] | split

@[simp] theorem allModes_keepS (m : CommitMode) (s : State) : keepS (allModes m s) = keepS s := keepMS (allModes_keepM m s)

@[simp] theorem strictDone_keepM (s : State) : keepM (strictDone s) = keepM s := by
  unfold strictDone
  repeat' first | simp only [keepM_mk, keepM_times, keepM_foldl, keepM_ite, apply_ite Prod.fst, apply_ite Prod.snd, ite_self, implies_true, send_keepM] | split | refine Eq.trans (keepM_foldl _ _ _ (fun _ _ => ?_)) ?_ | refine Eq.trans (keepM_foldl2 _ _ _ (fun _ _ => ?_)) ?_ | refine Eq.trans (keepM_times _ _ _ (fun _ => ?_)) ?_

@[simp] theorem dropStream_keepM (i : ℕ) (s : State) : keepM (dropStream i s) = keepM s := by
  unfold dropStream
  repeat' first | simp only [keepM_mk, keepM_times, keepM_foldl, keepM_ite, apply_ite Prod.fst, apply_ite Prod.snd, ite_self, implies_true, strictDone_keepM] | split

@[simp] theorem dropStream_keepS (i : ℕ) (s : State) : keepS (dropStream i s) = keepS s := keepMS (dropStream_keepM i s)

@[simp] theorem admitNext_keepM (lfn : ℕ) (s : State) : keepM (admitNext lfn s) = keepM s := by
  unfold admitNext
  repeat' first | simp only [keepM_mk, keepM_times, keepM_foldl, keepM_ite, apply_ite Prod.fst, apply_ite Prod.snd, ite_self, implies_true, ackDelta_keepM] | split

@[simp] theorem dropHolding_keepM (h : Holding) (s : State) : keepM (dropHolding h s) = keepM s := by
  unfold dropHolding
  repeat' first | simp only [keepM_mk, keepM_times, keepM_foldl, keepM_ite, apply_ite Prod.fst, apply_ite Prod.snd, ite_self, implies_true, commitNow_keepM, closeIfDone_keepM, admitNext_keepM, setSlot_keepM] | split

@[simp] theorem dropHolding_keepS (h : Holding) (s : State) : keepS (dropHolding h s) = keepS s := keepMS (dropHolding_keepM h s)

@[simp] theorem leaveSpan_keepS (s : State) : keepS (leaveSpan s) = keepS s := by
  unfold leaveSpan
  repeat' first | simp only [keepS_mk, keepS_times, keepS_foldl, keepS_ite, apply_ite Prod.fst, apply_ite Prod.snd, ite_self, implies_true, commitNow_keepS, abandonFrame_keepS, advanceBatch_keepS, releaseSet_keepS, allModes_keepS, piDrop_keepS, releaseOld_keepS, dropStream_keepS, dropFrame_keepS, dropHolding_keepS] | split | refine Eq.trans (keepS_foldl _ _ _ (fun _ _ => ?_)) ?_ | refine Eq.trans (keepS_foldl2 _ _ _ (fun _ _ => ?_)) ?_ | refine Eq.trans (keepS_times _ _ _ (fun _ => ?_)) ?_

@[simp] theorem wipeSet_keepM (f : ℕ) (s : State) : keepM (wipeSet f s) = keepM s := by
  unfold wipeSet
  repeat' first | simp only [keepM_mk, keepM_times, keepM_foldl, keepM_ite, apply_ite Prod.fst, apply_ite Prod.snd, ite_self, implies_true, clearFast_keepM] | split

@[simp] theorem loadSpan_keepM (s : State) : keepM (loadSpan s) = keepM s := by
  unfold loadSpan
  repeat' first | simp only [keepM_mk, keepM_times, keepM_foldl, keepM_ite, apply_ite Prod.fst, apply_ite Prod.snd, ite_self, implies_true, setPeer_keepM] | split

@[simp] theorem loadSpan_keepS (s : State) : keepS (loadSpan s) = keepS s := keepMS (loadSpan_keepM s)

@[simp] theorem loadSpan_keepA (s : State) : keepA (loadSpan s) = keepA s := keepSA (loadSpan_keepS s)

@[simp] theorem abandonCovered_keepM (u : ℕ) (s : State) : keepM (abandonCovered u s) = keepM s := by
  unfold abandonCovered
  repeat' first | simp only [keepM_mk, keepM_times, keepM_foldl, keepM_ite, apply_ite Prod.fst, apply_ite Prod.snd, ite_self, implies_true, abandonBatch_keepM] | split | refine Eq.trans (keepM_foldl _ _ _ (fun _ _ => ?_)) ?_ | refine Eq.trans (keepM_foldl2 _ _ _ (fun _ _ => ?_)) ?_ | refine Eq.trans (keepM_times _ _ _ (fun _ => ?_)) ?_

@[simp] theorem judgeRemovals_keepM (x0 : List Removal) (x1 : List ℕ) (x2 : State) : keepM (judgeRemovals x0 x1 x2) = keepM x2 := by
  induction x0 generalizing x1 x2 with
  | nil => rfl
  | cons r l ih =>
    unfold judgeRemovals
    extract_lets u gs ok upd wait s1 t s2
    split
    · exact ih _ _
    · refine (ih _ _).trans ?_
      have hu : ∀ f s, keepM (upd f s) = keepM s := fun f s => keepM_mk s
      have hw : ∀ s, keepM (wait s) = keepM s := fun s => by simp only [wait]; split <;> simp only [setCart_keepM]
      simp only [s2, s1, t]
      repeat' split
      all_goals first | rfl | simp only [abandonCovered_keepM, keepM_mk, hu, hw]

@[simp] theorem judgeRemovals_keepS (x0 : List Removal) (x1 : List ℕ) (x2 : State) : keepS (judgeRemovals x0 x1 x2) = keepS x2 := keepMS (judgeRemovals_keepM x0 x1 x2)

@[simp] theorem disableRail_keepS (r : ℕ) (s : State) : keepS (disableRail r s) = keepS s := by
  unfold disableRail
  repeat' first | simp only [keepS_mk, keepS_times, keepS_foldl, keepS_ite, apply_ite Prod.fst, apply_ite Prod.snd, ite_self, implies_true, checkOff_keepS, setPower_keepS] | split

@[simp] theorem railLeaves_keepS (r : ℕ) (st : UState) (s : State) : keepS (railLeaves r st s) = keepS s := by
  unfold railLeaves
  repeat' first | simp only [keepS_mk, keepS_times, keepS_foldl, keepS_ite, apply_ite Prod.fst, apply_ite Prod.snd, ite_self, implies_true, unitsAbsent_keepS, setUnit_keepS, disableRail_keepS] | split

@[simp] theorem startTraining_keepM (ch : ℕ) (s : State) : keepM (startTraining ch s) = keepM s := by
  unfold startTraining
  repeat' first | simp only [keepM_mk, keepM_times, keepM_foldl, keepM_ite, apply_ite Prod.fst, apply_ite Prod.snd, ite_self, implies_true, stackDown_keepM, setCart_keepM, setStack_keepM] | split

@[simp] theorem startTraining_keepS (ch : ℕ) (s : State) : keepS (startTraining ch s) = keepS s := keepMS (startTraining_keepM ch s)

@[simp] theorem startTraining_keepA (ch : ℕ) (s : State) : keepA (startTraining ch s) = keepA s := keepSA (startTraining_keepS ch s)

@[simp] theorem removalLeaves_keepS (x0 : Removal) (s : State) : keepS (removalLeaves x0 s) = keepS s := by
  unfold removalLeaves
  repeat' first | simp only [keepS_mk, keepS_times, keepS_foldl, keepS_ite, apply_ite Prod.fst, apply_ite Prod.snd, ite_self, implies_true, mediaLoss_keepS, dropWork_keepS, endJob_keepS, endWindows_keepS, railLeaves_keepS, setUnit_keepS, startTraining_keepS] | split

@[simp] theorem placeRemovals_keepS (s : State) : keepS (placeRemovals s) = keepS s := by
  unfold placeRemovals
  repeat' first | simp only [keepS_mk, keepS_times, keepS_foldl, keepS_ite, apply_ite Prod.fst, apply_ite Prod.snd, ite_self, implies_true, judgeRemovals_keepS, removalLeaves_keepS] | split

@[simp] theorem placeRemovals_keepA (s : State) : keepA (placeRemovals s) = keepA s := keepSA (placeRemovals_keepS s)

@[simp] theorem scrubWeak_keepM (b : ℕ) (m : ℕ) (x2 : ℕ) (s : State) : keepM (scrubWeak b m x2 s) = keepM s := by
  unfold scrubWeak
  repeat' first | simp only [keepM_mk, keepM_times, keepM_foldl, keepM_ite, apply_ite Prod.fst, apply_ite Prod.snd, ite_self, implies_true, refreshBand_keepM, makeDue_keepM] | split

@[simp] theorem scrubHeaderRes_keepM (b : ℕ) (m : ℕ) (x2 : ℕ) (step : ℕ) (res : Option (Line66 × ℕ)) (s : State) : keepM (scrubHeaderRes b m x2 step res s) = keepM s := by
  unfold scrubHeaderRes
  repeat' first | simp only [keepM_mk, keepM_times, keepM_foldl, keepM_ite, apply_ite Prod.fst, apply_ite Prod.snd, ite_self, implies_true, scrubWeak_keepM, dieCount_keepM, weakLine_keepM, countBlockMark_keepM, event_keepM, refreshBand_keepM, scrubAsk_keepM, charge_keepM] | split

@[simp] theorem latchOverlay_keepM (s : State) : keepM (latchOverlay s) = keepM s := by
  unfold latchOverlay
  repeat' first | simp only [keepM_mk, keepM_times, keepM_foldl, keepM_ite, apply_ite Prod.fst, apply_ite Prod.snd, ite_self, implies_true] | split

@[simp] theorem bulkLook_keepM (lln : ℕ) (s : State) : keepM (bulkLook lln s).2 = keepM s := by
  unfold bulkLook
  repeat' first | simp only [keepM_mk, keepM_times, keepM_foldl, keepM_ite, apply_ite Prod.fst, apply_ite Prod.snd, ite_self, implies_true, pageRead_keepM, tagsTouch_keepM, slotRead_keepM] | split

@[simp] theorem prefetchHit_keepM (lln : ℕ) (hit : Bool) (s : State) : keepM (prefetchHit lln hit s) = keepM s := by
  unfold prefetchHit
  repeat' first | simp only [keepM_mk, keepM_times, keepM_foldl, keepM_ite, apply_ite Prod.fst, apply_ite Prod.snd, ite_self, implies_true] | split

@[simp] theorem boundCRead_keepM (s : State) : keepM (boundCRead s) = keepM s := by
  unfold boundCRead
  repeat' first | simp only [keepM_mk, keepM_times, keepM_foldl, keepM_ite, apply_ite Prod.fst, apply_ite Prod.snd, ite_self, implies_true] | split

@[simp] theorem missed_keepM (s : State) : keepM (missed s) = keepM s := by
  unfold missed
  repeat' first | simp only [keepM_mk, keepM_times, keepM_foldl, keepM_ite, apply_ite Prod.fst, apply_ite Prod.snd, ite_self, implies_true] | split

@[simp] theorem lostRead_keepM (id : ℕ) (lln : ℕ) (s : State) : keepM (lostRead id lln s) = keepM s := by
  unfold lostRead
  repeat' first | simp only [keepM_mk, keepM_times, keepM_foldl, keepM_ite, apply_ite Prod.fst, apply_ite Prod.snd, ite_self, implies_true, beginSpan_keepM, missed_keepM] | split

@[simp] theorem bulkHit_keepM (lln : ℕ) (s : State) : keepM (bulkHit lln s) = keepM s := by
  unfold bulkHit
  repeat' first | simp only [keepM_mk, keepM_times, keepM_foldl, keepM_ite, apply_ite Prod.fst, apply_ite Prod.snd, ite_self, implies_true, prefetchHit_keepM] | split

@[simp] theorem bulkAnswer_keepM (id : ℕ) (lln : ℕ) (part : Bool) (page : Bool) (slot : Bool) (h : Held) (s : State) : keepM (bulkAnswer id lln part page slot h s) = keepM s := by
  unfold bulkAnswer
  repeat' first | simp only [keepM_mk, keepM_times, keepM_foldl, keepM_ite, apply_ite Prod.fst, apply_ite Prod.snd, ite_self, implies_true, mergeHeld_keepM, updRead_keepM, prefetchHit_keepM, beginRead_keepM, answerRead_keepM, boundCRead_keepM, missed_keepM, lostRead_keepM, ncFill_keepM, bulkHit_keepM] | split

@[simp] theorem nearHit_keepM (lln : ℕ) (s : State) : keepM (nearHit lln s) = keepM s := by
  unfold nearHit
  repeat' first | simp only [keepM_mk, keepM_times, keepM_foldl, keepM_ite, apply_ite Prod.fst, apply_ite Prod.snd, ite_self, implies_true, prefetchHit_keepM] | split

@[simp] theorem sideLook_keepM (lln : ℕ) (s : State) : keepM (sideLook lln s).2 = keepM s := by
  unfold sideLook
  repeat' first | simp only [keepM_mk, keepM_times, keepM_foldl, keepM_ite, apply_ite Prod.fst, apply_ite Prod.snd, ite_self, implies_true, pageFill_keepM, ncFill_keepM] | split

@[simp] theorem nearLook_keepM (id : ℕ) (lln : ℕ) (s : State) : keepM (nearLook id lln s).2 = keepM s := by
  unfold nearLook
  repeat' first | simp only [keepM_mk, keepM_times, keepM_foldl, keepM_ite, apply_ite Prod.fst, apply_ite Prod.snd, ite_self, implies_true, prefetchHit_keepM, nearHit_keepM, answerRead_keepM, boundCRead_keepM, ncLook_keepM, missed_keepM, lostRead_keepM, sideLook_keepM] | split

@[simp] theorem bulkRead_keepM (id : ℕ) (lln : ℕ) (part : Bool) (s : State) : keepM (bulkRead id lln part s) = keepM s := by
  unfold bulkRead
  repeat' first | simp only [keepM_mk, keepM_times, keepM_foldl, keepM_ite, apply_ite Prod.fst, apply_ite Prod.snd, ite_self, implies_true, bulkLook_keepM, bulkAnswer_keepM, tagsLost_keepM, nearLook_keepM] | split

@[simp] theorem hostLook_keepM (id : ℕ) (lln : ℕ) (s : State) : keepM (hostLook id lln s) = keepM s := by
  unfold hostLook
  repeat' first | simp only [keepM_mk, keepM_times, keepM_foldl, keepM_ite, apply_ite Prod.fst, apply_ite Prod.snd, ite_self, implies_true, bulkRead_keepM, nearLook_keepM] | split

@[simp] theorem hbmRetry_keepM (s : State) : keepM (hbmRetry s) = keepM s := by
  unfold hbmRetry
  repeat' first | simp only [keepM_mk, keepM_times, keepM_foldl, keepM_ite, apply_ite Prod.fst, apply_ite Prod.snd, ite_self, implies_true, hostLook_keepM] | split

@[simp] theorem saveSteps_keepE (s : State) : keepE (saveSteps s) = keepE s := by
  unfold saveSteps
  repeat' first | simp only [keepE_mk, keepE_times, keepE_foldl, keepE_ite, apply_ite Prod.fst, apply_ite Prod.snd, ite_self, implies_true, sbEnqueue_keepE] | split

@[simp] theorem saveSteps_keepM (s : State) : keepM (saveSteps s) = keepM s := keepEM (saveSteps_keepE s)

@[simp] theorem saveSteps_keepS (s : State) : keepS (saveSteps s) = keepS s := keepMS (saveSteps_keepM s)

@[simp] theorem stepTime_keepS (value : ℕ) (s : State) : keepS (stepTime value s) = keepS s := by
  unfold stepTime
  repeat' first | simp only [keepS_mk, keepS_times, keepS_foldl, keepS_ite, apply_ite Prod.fst, apply_ite Prod.snd, ite_self, implies_true, saveSteps_keepS, event_keepS] | split

@[simp] theorem bandFreed_keepM (b : ℕ) (s : State) : keepM (bandFreed b s) = keepM s := by
  unfold bandFreed
  repeat' first | simp only [keepM_mk, keepM_times, keepM_foldl, keepM_ite, apply_ite Prod.fst, apply_ite Prod.snd, ite_self, implies_true, ckRecord_keepM, setBand_keepM] | split

@[simp] theorem startPromotion_keepM (lfn : ℕ) (pin : Bool) (job : Option (BitVec 16)) (s : State) : keepM (startPromotion lfn pin job s) = keepM s := by
  unfold startPromotion
  repeat' first | simp only [keepM_mk, keepM_times, keepM_foldl, keepM_ite, apply_ite Prod.fst, apply_ite Prod.snd, ite_self, implies_true, markInflight_keepM, commitQuiet_keepM, startMove_keepM] | split

@[simp] theorem scrubRewrite_keepM (f : ℕ) (pos : ℕ) (seq : Option (BitVec 16)) (v : Line) (m : BitVec 16) (s : State) : keepM (scrubRewrite f pos seq v m s) = keepM s := by
  unfold scrubRewrite
  repeat' first | simp only [keepM_mk, keepM_times, keepM_foldl, keepM_ite, apply_ite Prod.fst, apply_ite Prod.snd, ite_self, implies_true, fastStore2_keepM] | split

@[simp] theorem scrubSettle_keepM (f : ℕ) (c : ℕ) (pos : ℕ) (seq : Option (BitVec 16)) (weak : Bool) (l : Line66) (o : Option Line66) (v : Line66) (s : State) : keepM (scrubSettle f c pos seq weak l o v s) = keepM s := by
  unfold scrubSettle
  repeat' first | simp only [keepM_mk, keepM_times, keepM_foldl, keepM_ite, apply_ite Prod.fst, apply_ite Prod.snd, ite_self, implies_true, scrubRewrite_keepM, olderAgain_keepM] | split

@[simp] theorem setThermLoad_keepM (l : ℕ) (s : State) : keepM (setThermLoad l s) = keepM s := by
  unfold setThermLoad
  repeat' first | simp only [keepM_mk, keepM_times, keepM_foldl, keepM_ite, apply_ite Prod.fst, apply_ite Prod.snd, ite_self, implies_true] | split

@[simp] theorem setThermLoad_keepS (l : ℕ) (s : State) : keepS (setThermLoad l s) = keepS s := keepMS (setThermLoad_keepM l s)

@[simp] theorem placeDemotions_keepM (s : State) : keepM (placeDemotions s) = keepM s := by
  unfold placeDemotions
  repeat' first | simp only [keepM_mk, keepM_times, keepM_foldl, keepM_ite, apply_ite Prod.fst, apply_ite Prod.snd, ite_self, implies_true, makeDue_keepM] | split

@[simp] theorem placeDemotions_keepS (s : State) : keepS (placeDemotions s) = keepS s := keepMS (placeDemotions_keepM s)

@[simp] theorem ackPlain_keepM (code : ℕ) (r : ℕ) (lfn : ℕ) (seq : BitVec 48) (s : State) : keepM (ackPlain code r lfn seq s) = keepM s := by
  unfold ackPlain
  repeat' first | simp only [keepM_mk, keepM_times, keepM_foldl, keepM_ite, apply_ite Prod.fst, apply_ite Prod.snd, ite_self, implies_true, peerSend_keepM] | split

@[simp] theorem ackPlain_keepS (code : ℕ) (r : ℕ) (lfn : ℕ) (seq : BitVec 48) (s : State) : keepS (ackPlain code r lfn seq s) = keepS s := keepMS (ackPlain_keepM code r lfn seq s)

@[simp] theorem spanEval_keepM (s : State) : keepM (spanEval s) = keepM s := by
  unfold spanEval
  repeat' first | simp only [keepM_mk, keepM_times, keepM_foldl, keepM_ite, apply_ite Prod.fst, apply_ite Prod.snd, ite_self, implies_true, stateEvent_keepM] | split

@[simp] theorem setPeerSt_keepM (r : ℕ) (st : ℕ) (s : State) : keepM (setPeerSt r st s) = keepM s := by
  unfold setPeerSt
  repeat' first | simp only [keepM_mk, keepM_times, keepM_foldl, keepM_ite, apply_ite Prod.fst, apply_ite Prod.snd, ite_self, implies_true, stateEvent_keepM, spanEval_keepM, setPeer_keepM] | split

@[simp] theorem setPeerSt_keepS (r : ℕ) (st : ℕ) (s : State) : keepS (setPeerSt r st s) = keepS s := keepMS (setPeerSt_keepM r st s)

@[simp] theorem setPeerSt_keepA (r : ℕ) (st : ℕ) (s : State) : keepA (setPeerSt r st s) = keepA s := keepSA (setPeerSt_keepS r st s)

@[simp] theorem relistPoison_keepE (lln : ℕ) (loc : Where) (v : Line) (s : State) : keepE (relistPoison lln loc v s) = keepE s := by
  unfold relistPoison
  repeat' first | simp only [keepE_mk, keepE_times, keepE_foldl, keepE_ite, apply_ite Prod.fst, apply_ite Prod.snd, ite_self, implies_true, poisonAdd_keepE] | split

@[simp] theorem relistPoison_keepM (lln : ℕ) (loc : Where) (v : Line) (s : State) : keepM (relistPoison lln loc v s) = keepM s := keepEM (relistPoison_keepE lln loc v s)

@[simp] theorem scrubLost_keepM (b : ℕ) (m : ℕ) (x2 : ℕ) (s : State) : keepM (scrubLost b m x2 s) = keepM s := by
  unfold scrubLost
  repeat' first | simp only [keepM_mk, keepM_times, keepM_foldl, keepM_ite, apply_ite Prod.fst, apply_ite Prod.snd, ite_self, implies_true, relistPoison_keepM, poisonFind_keepM, scrubWeak_keepM, countRebuilt_keepM, event_keepM, refreshBand_keepM, located_keepM, charge_keepM] | split

@[simp] theorem unbackedEvent_keepE (p : ℕ) (i : ℕ) (hpa : ℕ) (s : State) : keepE (unbackedEvent p i hpa s) = keepE s := by
  unfold unbackedEvent
  repeat' first | simp only [keepE_mk, keepE_times, keepE_foldl, keepE_ite, apply_ite Prod.fst, apply_ite Prod.snd, ite_self, implies_true, event_keepE] | split

@[simp] theorem unbackedWrite_keepE (p : ℕ) (l : ℕ) (hpa : ℕ) (tag : BitVec 16) (s : State) : keepE (unbackedWrite p l hpa tag s) = keepE s := by
  unfold unbackedWrite
  repeat' first | simp only [keepE_mk, keepE_times, keepE_foldl, keepE_ite, apply_ite Prod.fst, apply_ite Prod.snd, ite_self, implies_true, send_keepE, unbackedEvent_keepE] | split

@[simp] theorem unbackedWrite_keepM (p : ℕ) (l : ℕ) (hpa : ℕ) (tag : BitVec 16) (s : State) : keepM (unbackedWrite p l hpa tag s) = keepM s := keepEM (unbackedWrite_keepE p l hpa tag s)

@[simp] theorem dirSettle_keepM (k : ℕ) (j : ℕ) (llns : List ℕ) (v : Option Line66) (s : State) : keepM (dirSettle k j llns v s) = keepM s := by
  unfold dirSettle
  repeat' first | simp only [keepM_mk, keepM_times, keepM_foldl, keepM_ite, apply_ite Prod.fst, apply_ite Prod.snd, ite_self, implies_true, poisonFind_keepM, segPut_keepM] | split

@[simp] theorem dirDiffers_keepM (f : ℕ) (pos : ℕ) (a : Line) (b : Line) (s : State) : keepM (dirDiffers f pos a b s) = keepM s := by
  unfold dirDiffers
  extract_lets k ent js llns s1 r
  have h1 : keepM s1 = keepM s := tieNoted_keepM _ _ _ _
  clear_value k js llns s1
  have hr : keepM r.2 = keepM s := by
    simp only [r]
    split
    · exact h1
    · exact (tieLadder_keepM _ _ _).trans h1
  clear_value r
  exact (dirSettle_keepM _ _ _ _ _).trans hr

@[simp] theorem scrubOtherRes_keepM (f : ℕ) (c : ℕ) (pos : ℕ) (step : ℕ) (res : Option (Line66 × ℕ)) (s : State) : keepM (scrubOtherRes f c pos step res s) = keepM s := by
  unfold scrubOtherRes
  repeat' first | simp only [keepM_mk, keepM_times, keepM_foldl, keepM_ite, apply_ite Prod.fst, apply_ite Prod.snd, ite_self, implies_true, fastStore2_keepM, beyondEvent_keepM, weakLine_keepM, countRebuilt_keepM, unhitch_keepM, dirDiffers_keepM, event_keepM, charge_keepM] | split

@[simp] theorem storeSwk_keepM (wrapped : List Byte) (s : State) : keepM (storeSwk wrapped s) = keepM s := by
  unfold storeSwk
  repeat' first | simp only [keepM_mk, keepM_times, keepM_foldl, keepM_ite, apply_ite Prod.fst, apply_ite Prod.snd, ite_self, implies_true, sbEnqueue_keepM] | split

@[simp] theorem classSets_keepM (s : State) : keepM (classSets s) = keepM s := by
  unfold classSets
  repeat' first | simp only [keepM_mk, keepM_times, keepM_foldl, keepM_ite, apply_ite Prod.fst, apply_ite Prod.snd, ite_self, implies_true, releaseSet_keepM, fsSet_keepM] | split

@[simp] theorem classSets_keepS (s : State) : keepS (classSets s) = keepS s := keepMS (classSets_keepM s)

@[simp] theorem classSets_keepA (s : State) : keepA (classSets s) = keepA s := keepSA (classSets_keepS s)

@[simp] theorem coldReset_keepA (s : State) : keepA (coldReset s) = keepA s := by
  unfold coldReset
  repeat' first | simp only [keepA_mk, keepA_times, keepA_foldl, keepA_ite, apply_ite Prod.fst, apply_ite Prod.snd, ite_self, implies_true, mainDown_keepA, flushCut_keepA] | split

@[simp] theorem qClear_keepE (q : ℕ) (s : State) : keepE (qClear q s) = keepE s := by
  unfold qClear
  repeat' first | simp only [keepE_mk, keepE_times, keepE_foldl, keepE_ite, apply_ite Prod.fst, apply_ite Prod.snd, ite_self, implies_true, setQ_keepE] | split

@[simp] theorem qClear_keepM (q : ℕ) (s : State) : keepM (qClear q s) = keepM s := keepEM (qClear_keepE q s)

@[simp] theorem qClear_keepS (q : ℕ) (s : State) : keepS (qClear q s) = keepS s := keepMS (qClear_keepM q s)

@[simp] theorem unitLeaves_keepM (u : ℕ) (st : UState) (s : State) : keepM (unitLeaves u st s) = keepM s := by
  unfold unitLeaves
  repeat' first | simp only [keepM_mk, keepM_times, keepM_foldl, keepM_ite, apply_ite Prod.fst, apply_ite Prod.snd, ite_self, implies_true, mediaLoss_keepM, qClear_keepM, portDown_keepM, setUnit_keepM, endContained_keepM, setPort_keepM] | split

@[simp] theorem unitLeaves_keepS (u : ℕ) (st : UState) (s : State) : keepS (unitLeaves u st s) = keepS s := keepMS (unitLeaves_keepM u st s)

@[simp] theorem drainStage_keepM (s : State) : keepM (drainStage s) = keepM s := by
  unfold drainStage
  repeat' first | simp only [keepM_mk, keepM_times, keepM_foldl, keepM_ite, apply_ite Prod.fst, apply_ite Prod.snd, ite_self, implies_true, drawBits_keepM, drainLine_keepM] | split

@[simp] theorem drainStage_keepS (s : State) : keepS (drainStage s) = keepS s := keepMS (drainStage_keepM s)

@[simp] theorem writeSegment_keepM (g : Seg) (lines : List Line) (md : BitVec 16) (s : State) : keepM (writeSegment g lines md s).2 = keepM s := by
  unfold writeSegment
  split
  · rfl
  · next h => exact (keepM_foldl _ _ _ (fun s a => segPut_keepM _ _ _ _)).trans ((placeSeg_keepM _ _ _).trans (pickSegment_keepM _ _ _ h))

@[simp] theorem writePi_keepM (ref : BitVec 48) (pc0 : BitVec 48) (delta : Bool) (es : List PiEnt) (s : State) : keepM (writePi ref pc0 delta es s).2 = keepM s := by
  unfold writePi
  repeat' first | simp only [keepM_mk, keepM_times, keepM_foldl, keepM_ite, apply_ite Prod.fst, apply_ite Prod.snd, ite_self, implies_true, writeSegment_keepM] | split | refine Eq.trans (keepM_foldl _ _ _ (fun _ _ => ?_)) ?_ | refine Eq.trans (keepM_foldl2 _ _ _ (fun _ _ => ?_)) ?_ | refine Eq.trans (keepM_times _ _ _ (fun _ => ?_)) ?_

@[simp] theorem deltaAborted_keepS (lfn : ℕ) (seq : BitVec 48) (s : State) : keepS (deltaAborted lfn seq s) = keepS s := by
  unfold deltaAborted
  repeat' first | simp only [keepS_mk, keepS_times, keepS_foldl, keepS_ite, apply_ite Prod.fst, apply_ite Prod.snd, ite_self, implies_true, leaveSlot_keepS, closeIfDone_keepS, makeDue_keepS, zeroFold_keepS, setSlot_keepS] | split

@[simp] theorem setSensor_keepS (i : ℕ) (f : SensorSt → SensorSt) (s : State) : keepS (setSensor i f s) = keepS s := by
  unfold setSensor
  repeat' first | simp only [keepS_mk, keepS_times, keepS_foldl, keepS_ite, apply_ite Prod.fst, apply_ite Prod.snd, ite_self, implies_true, setTherm_keepS] | split

@[simp] theorem sensorBreaks_keepS (i : ℕ) (median : ℤ) (s : State) : keepS (sensorBreaks i median s) = keepS s := by
  unfold sensorBreaks
  repeat' first | simp only [keepS_mk, keepS_times, keepS_foldl, keepS_ite, apply_ite Prod.fst, apply_ite Prod.snd, ite_self, implies_true, setTherm_keepS, setSensor_keepS, setUnit_keepS, event_keepS] | split

@[simp] theorem crossCheck_keepS (s : State) : keepS (crossCheck s) = keepS s := by
  unfold crossCheck
  repeat' first | simp only [keepS_mk, keepS_times, keepS_foldl, keepS_ite, apply_ite Prod.fst, apply_ite Prod.snd, ite_self, implies_true, setSensor_keepS, sensorBreaks_keepS] | split

@[simp] theorem pendInfo_keepM (ch : ℕ) (f : RetFrame) (s : State) : keepM (pendInfo ch f s) = keepM s := by
  unfold pendInfo
  repeat' first | simp only [keepM_mk, keepM_times, keepM_foldl, keepM_ite, apply_ite Prod.fst, apply_ite Prod.snd, ite_self, implies_true, setStack_keepM] | split

@[simp] theorem infoAnswer_keepM (ch : ℕ) (op : ℕ) (p : Pkt) (s : State) : keepM (infoAnswer ch op p s).2 = keepM s := by
  unfold infoAnswer
  repeat' first | simp only [keepM_mk, keepM_times, keepM_foldl, keepM_ite, apply_ite Prod.fst, apply_ite Prod.snd, ite_self, implies_true, drawBits_keepM] | split

@[simp] theorem queueFrame_keepM (ch : ℕ) (f : RetFrame) (s : State) : keepM (queueFrame ch f s) = keepM s := by
  unfold queueFrame
  repeat' first | simp only [keepM_mk, keepM_times, keepM_foldl, keepM_ite, apply_ite Prod.fst, apply_ite Prod.snd, ite_self, implies_true, setStack_keepM] | split

@[simp] theorem queueEvent_keepM (ch : ℕ) (die : ℕ) (bank : ℕ) (tag : BitVec 7) (code : ℕ) (op : ℕ) (param : ℕ) (s : State) : keepM (queueEvent ch die bank tag code op param s) = keepM s := by
  unfold queueEvent
  repeat' first | simp only [keepM_mk, keepM_times, keepM_foldl, keepM_ite, apply_ite Prod.fst, apply_ite Prod.snd, ite_self, implies_true, queueFrame_keepM] | split

@[simp] theorem queueEvent_keepS (ch : ℕ) (die : ℕ) (bank : ℕ) (tag : BitVec 7) (code : ℕ) (op : ℕ) (param : ℕ) (s : State) : keepS (queueEvent ch die bank tag code op param s) = keepS s := keepMS (queueEvent_keepM ch die bank tag code op param s)

@[simp] theorem queueEvent_keepA (ch : ℕ) (die : ℕ) (bank : ℕ) (tag : BitVec 7) (code : ℕ) (op : ℕ) (param : ℕ) (s : State) : keepA (queueEvent ch die bank tag code op param s) = keepA s := keepSA (queueEvent_keepS ch die bank tag code op param s)

@[simp] theorem illegalPkt_keepM (ch : ℕ) (op : ℕ) (p : Pkt) (s : State) : keepM (illegalPkt ch op p s) = keepM s := by
  unfold illegalPkt
  repeat' first | simp only [keepM_mk, keepM_times, keepM_foldl, keepM_ite, apply_ite Prod.fst, apply_ite Prod.snd, ite_self, implies_true, queueEvent_keepM] | split

@[simp] theorem illegalPkt_keepS (ch : ℕ) (op : ℕ) (p : Pkt) (s : State) : keepS (illegalPkt ch op p s) = keepS s := keepMS (illegalPkt_keepM ch op p s)

@[simp] theorem illegalPkt_keepA (ch : ℕ) (op : ℕ) (p : Pkt) (s : State) : keepA (illegalPkt ch op p s) = keepA s := keepSA (illegalPkt_keepS ch op p s)

theorem onPacket_keepM (ch op : Nat) (p : Pkt) (act : State → State) (s : State) (h : ∀ s, keepM (act s) = keepM s) :
    keepM (onPacket ch op p act s) = keepM s := by
  unfold onPacket
  split
  · rfl
  · extract_lets u hit s1 chk
    have h1 : keepM s1 = keepM s := by simp only [s1]; split <;> simp only [fire_keepM]
    repeat' split
    all_goals simp only [h, h1, send_keepM, queueEvent_keepM, illegalPkt_keepM]

@[simp] theorem onInfo_keepM (ch : ℕ) (op : ℕ) (p : Pkt) (s : State) : keepM (onInfo ch op p s) = keepM s := by
  unfold onInfo
  exact onPacket_keepM _ _ _ _ _ (fun s => by simp only [pendInfo_keepM, infoAnswer_keepM])

@[simp] theorem restartStream_keepM (i : ℕ) (s : State) : keepM (restartStream i s) = keepM s := by
  unfold restartStream
  repeat' first | simp only [keepM_mk, keepM_times, keepM_foldl, keepM_ite, apply_ite Prod.fst, apply_ite Prod.snd, ite_self, implies_true, setStream_keepM, peerSend_keepM] | split

@[simp] theorem reclaimBand_keepM (b : ℕ) (key : ℕ) (s : State) : keepM (reclaimBand b key s) = keepM s := by
  unfold reclaimBand
  repeat' first | simp only [keepM_mk, keepM_times, keepM_foldl, keepM_ite, apply_ite Prod.fst, apply_ite Prod.snd, ite_self, implies_true, makeDue_keepM] | split

@[simp] theorem noteRebuild_keepM (r : ℕ) (s : State) : keepM (noteRebuild r s) = keepM s := by
  unfold noteRebuild
  repeat' first | simp only [keepM_mk, keepM_times, keepM_foldl, keepM_ite, apply_ite Prod.fst, apply_ite Prod.snd, ite_self, implies_true, spanEval_keepM, setPeer_keepM] | split

@[simp] theorem rebuildBases_keepM (lfn : ℕ) (s : State) : keepM (rebuildBases lfn s) = keepM s := by
  unfold rebuildBases
  repeat' first | simp only [keepM_mk, keepM_times, keepM_foldl, keepM_ite, apply_ite Prod.fst, apply_ite Prod.snd, ite_self, implies_true, noteRebuild_keepM, spanStart_keepM] | split

@[simp] theorem rebuildBases_keepS (lfn : ℕ) (s : State) : keepS (rebuildBases lfn s) = keepS s := keepMS (rebuildBases_keepM lfn s)

@[simp] theorem askAdmission_keepM (lfn : ℕ) (s : State) : keepM (askAdmission lfn s) = keepM s := by
  unfold askAdmission
  repeat' first | simp only [keepM_mk, keepM_times, keepM_foldl, keepM_ite, apply_ite Prod.fst, apply_ite Prod.snd, ite_self, implies_true, peerSend_keepM, rebuildBases_keepM] | split

@[simp] theorem mapClear_keepM (s : State) : keepM (mapClear s) = keepM s := by
  unfold mapClear
  repeat' first | simp only [keepM_mk, keepM_times, keepM_foldl, keepM_ite, apply_ite Prod.fst, apply_ite Prod.snd, ite_self, implies_true] | split

@[simp] theorem mapClear_keepS (s : State) : keepS (mapClear s) = keepS s := keepMS (mapClear_keepM s)

@[simp] theorem mapClear_keepA (s : State) : keepA (mapClear s) = keepA s := keepSA (mapClear_keepS s)

@[simp] theorem openBatch_keepM (s : State) : keepM (openBatch s) = keepM s := by
  unfold openBatch
  repeat' first | simp only [keepM_mk, keepM_times, keepM_foldl, keepM_ite, apply_ite Prod.fst, apply_ite Prod.snd, ite_self, implies_true, takeSet_keepM, placeSeg_keepM, openOn_keepM, pumpRestart_keepM, meetDirect_keepM] | split

@[simp] theorem openFull_keepM (s : State) : keepM (openFull s) = keepM s := by
  unfold openFull
  repeat' first | simp only [keepM_mk, keepM_times, keepM_foldl, keepM_ite, apply_ite Prod.fst, apply_ite Prod.snd, ite_self, implies_true, openBatch_keepM] | split | refine Eq.trans (keepM_foldl _ _ _ (fun _ _ => ?_)) ?_ | refine Eq.trans (keepM_foldl2 _ _ _ (fun _ _ => ?_)) ?_ | refine Eq.trans (keepM_times _ _ _ (fun _ => ?_)) ?_

@[simp] theorem openFull_keepS (s : State) : keepS (openFull s) = keepS s := keepMS (openFull_keepM s)

@[simp] theorem judgeThermLoad_keepM (s : State) : keepM (judgeThermLoad s) = keepM s := by
  unfold judgeThermLoad
  repeat' first | simp only [keepM_mk, keepM_times, keepM_foldl, keepM_ite, apply_ite Prod.fst, apply_ite Prod.snd, ite_self, implies_true, setThermLoad_keepM] | split

@[simp] theorem judgeThermLoad_keepS (s : State) : keepS (judgeThermLoad s) = keepS s := keepMS (judgeThermLoad_keepM s)

@[simp] theorem judgeThrottle_keepS (tick : Bool) (s : State) : keepS (judgeThrottle tick s) = keepS s := by
  unfold judgeThrottle
  repeat' first | simp only [keepS_mk, keepS_times, keepS_foldl, keepS_ite, apply_ite Prod.fst, apply_ite Prod.snd, ite_self, implies_true, setTherm_keepS, judgeThermLoad_keepS, event_keepS] | split

@[simp] theorem drawBool_keepM (s : State) : keepM (drawBool s).2 = keepM s := by
  unfold drawBool
  repeat' first | simp only [keepM_mk, keepM_times, keepM_foldl, keepM_ite, apply_ite Prod.fst, apply_ite Prod.snd, ite_self, implies_true] | split

@[simp] theorem brakeHolds_keepM (s : State) : keepM (brakeHolds s).2 = keepM s := by
  unfold brakeHolds
  repeat' first | simp only [keepM_mk, keepM_times, keepM_foldl, keepM_ite, apply_ite Prod.fst, apply_ite Prod.snd, ite_self, implies_true, drawBool_keepM] | split

@[simp] theorem dropOut_keepM (ch : ℕ) (tag : BitVec 7) (s : State) : keepM (dropOut ch tag s) = keepM s := by
  unfold dropOut
  repeat' first | simp only [keepM_mk, keepM_times, keepM_foldl, keepM_ite, apply_ite Prod.fst, apply_ite Prod.snd, ite_self, implies_true, setCart_keepM] | split

@[simp] theorem dropOut_keepS (ch : ℕ) (tag : BitVec 7) (s : State) : keepS (dropOut ch tag s) = keepS s := keepMS (dropOut_keepM ch tag s)

@[simp] theorem replayStep_keepS (s : State) : keepS (replayStep s) = keepS s := by
  unfold replayStep
  repeat' first | simp only [keepS_mk, keepS_times, keepS_foldl, keepS_ite, apply_ite Prod.fst, apply_ite Prod.snd, ite_self, implies_true, setPower_keepS, drainLine_keepS, ncWrite_keepS] | split

@[simp] theorem replayStep_keepA (s : State) : keepA (replayStep s) = keepA s := keepSA (replayStep_keepS s)

@[simp] theorem stagingKept_keepM (needed : Bool) (s : State) : keepM (stagingKept needed s) = keepM s := by
  unfold stagingKept
  repeat' first | simp only [keepM_mk, keepM_times, keepM_foldl, keepM_ite, apply_ite Prod.fst, apply_ite Prod.snd, ite_self, implies_true] | split

@[simp] theorem startStaging_keepM (lfn : ℕ) (s : State) : keepM (startStaging lfn s) = keepM s := by
  unfold startStaging
  repeat' first | simp only [keepM_mk, keepM_times, keepM_foldl, keepM_ite, apply_ite Prod.fst, apply_ite Prod.snd, ite_self, implies_true, startPromotion_keepM, startMove_keepM] | split

@[simp] theorem stage_keepM (s : State) : keepM (stage s) = keepM s := by
  unfold stage
  repeat' first | simp only [keepM_mk, keepM_times, keepM_foldl, keepM_ite, apply_ite Prod.fst, apply_ite Prod.snd, ite_self, implies_true, stagingKept_keepM, startStaging_keepM] | split

@[simp] theorem stage_keepS (s : State) : keepS (stage s) = keepS s := keepMS (stage_keepM s)

@[simp] theorem imageStart_keepM (s : State) : keepM (imageStart s) = keepM s := by
  unfold imageStart
  repeat' first | simp only [keepM_mk, keepM_times, keepM_foldl, keepM_ite, apply_ite Prod.fst, apply_ite Prod.snd, ite_self, implies_true, ckRecord_keepM] | split

@[simp] theorem imageStart_keepS (s : State) : keepS (imageStart s) = keepS s := keepMS (imageStart_keepM s)

theorem dirAgain_keepM (f j : Nat) (r : Option (Line66 × Nat) × State) : keepM (dirAgain f j r).2 = keepM r.2 := by
  unfold dirAgain
  split
  · exact charge_keepM _ _
  · rfl

@[simp] theorem dirMet_keepM (f : ℕ) (pos : ℕ) (j : ℕ) (a : Option Line66) (b : Option Line66) (s : State) : keepM (dirMet f pos j a b s).2 = keepM s := by
  unfold dirMet
  split
  · split
    · rfl
    · exact dirDiffers_keepM _ _ _ _ _
  · rfl
  · exact countRebuilt_keepM _
  · exact (dirAgain_keepM _ _ _).trans (ladder_keepM _ _ _)

@[simp] theorem dirRead_keepM (k : ℕ) (j : ℕ) (s : State) : keepM (dirRead k j s).2 = keepM s := by
  unfold dirRead
  exact (dirMet_keepM _ _ _ _ _ _).trans ((copyRead_keepM _ _ _ _ _).trans (copyRead_keepM _ _ _ _ _))

@[simp] theorem dirReadA_keepM (k : ℕ) (j : ℕ) (s : State) : keepM (dirReadA k j s).2 = keepM s := by
  unfold dirReadA
  extract_lets a
  have ha : keepM a.2 = keepM s := copyRead_keepM _ _ _ _ _
  clear_value a
  split
  · exact ha
  · exact dirRead_keepM _ _ _

theorem logLine_keepM (both : Bool) (g : Nat × Seg) (a : List (Nat × Nat × Nat) × State) (j : Nat) :
    keepM (logLine both g a j).2 = keepM a.2 := by
  unfold logLine
  split
  · rfl
  · extract_lets r
    show keepM r.2 = _
    simp only [r]
    split
    · exact dirRead_keepM _ _ _
    · exact dirReadA_keepM _ _ _

@[simp] theorem logRead_keepM (both : Bool) (s : State) : keepM (logRead both s).2 = keepM s := by
  unfold logRead
  exact keepM_foldl2 _ _ _ (fun a g => keepM_foldl2 _ _ _ (fun a j => logLine_keepM _ _ _ _))

@[simp] theorem summarize_keepM (s : State) : keepM (summarize s) = keepM s := by
  unfold summarize
  repeat' first | simp only [keepM_mk, keepM_times, keepM_foldl, keepM_ite, apply_ite Prod.fst, apply_ite Prod.snd, ite_self, implies_true, fsumRefresh_keepM] | split

@[simp] theorem indexAgain_keepM (e : PiEnt) (s : State) : keepM (indexAgain e s) = keepM s := by
  unfold indexAgain
  repeat' first | simp only [keepM_mk, keepM_times, keepM_foldl, keepM_ite, apply_ite Prod.fst, apply_ite Prod.snd, ite_self, implies_true, poisonFind_keepM, internalWrite_keepM, makeDue_keepM, indexPatch_keepM] | split

@[simp] theorem noIndex_keepM (s : State) : keepM (noIndex s) = keepM s := by
  unfold noIndex
  repeat' first | simp only [keepM_mk, keepM_times, keepM_foldl, keepM_ite, apply_ite Prod.fst, apply_ite Prod.snd, ite_self, implies_true] | split

@[simp] theorem rebuildIndex_keepM (s : State) : keepM (rebuildIndex s) = keepM s := by
  unfold rebuildIndex
  repeat' first | simp only [keepM_mk, keepM_times, keepM_foldl, keepM_ite, apply_ite Prod.fst, apply_ite Prod.snd, ite_self, implies_true, logRead_keepM, summarize_keepM, indexAgain_keepM, noIndex_keepM] | split

@[simp] theorem rebuildIndex_keepS (s : State) : keepS (rebuildIndex s) = keepS s := keepMS (rebuildIndex_keepM s)

@[simp] theorem tryFree_keepM (b : ℕ) (s : State) : keepM (tryFree b s) = keepM s := by
  unfold tryFree
  repeat' first | simp only [keepM_mk, keepM_times, keepM_foldl, keepM_ite, apply_ite Prod.fst, apply_ite Prod.snd, ite_self, implies_true, takeSet_keepM, placeSeg_keepM, bandFreed_keepM] | split

@[simp] theorem sendAnswer_keepM (r : ℕ) (tag : BitVec 32) (st : BitVec 2) (b : ReconBody) (s : State) : keepM (sendAnswer r tag st b s) = keepM s := by
  unfold sendAnswer
  repeat' first | simp only [keepM_mk, keepM_times, keepM_foldl, keepM_ite, apply_ite Prod.fst, apply_ite Prod.snd, ite_self, implies_true, peerSend_keepM] | split

@[simp] theorem sillBoot_keepE (s : State) : keepE (sillBoot s) = keepE s := by
  unfold sillBoot
  repeat' first | simp only [keepE_mk, keepE_times, keepE_foldl, keepE_ite, apply_ite Prod.fst, apply_ite Prod.snd, ite_self, implies_true, saveSteps_keepE, event_keepE] | split

@[simp] theorem sillBoot_keepM (s : State) : keepM (sillBoot s) = keepM s := keepEM (sillBoot_keepE s)

@[simp] theorem sillBoot_keepS (s : State) : keepS (sillBoot s) = keepS s := keepMS (sillBoot_keepM s)

@[simp] theorem sillBoot_keepA (s : State) : keepA (sillBoot s) = keepA s := keepSA (sillBoot_keepS s)

@[simp] theorem clearPoison_keepE (i : ℕ) (s : State) : keepE (clearPoison i s) = keepE s := by
  unfold clearPoison
  repeat' first | simp only [keepE_mk, keepE_times, keepE_foldl, keepE_ite, apply_ite Prod.fst, apply_ite Prod.snd, ite_self, implies_true, setLd_keepE] | split

@[simp] theorem clearPoison_keepM (i : ℕ) (s : State) : keepM (clearPoison i s) = keepM s := keepEM (clearPoison_keepE i s)

@[simp] theorem clearPoison_keepS (i : ℕ) (s : State) : keepS (clearPoison i s) = keepS s := keepMS (clearPoison_keepM i s)

@[simp] theorem unitReturns_keepS (u : ℕ) (s : State) : keepS (unitReturns u s) = keepS s := by
  unfold unitReturns
  repeat' first | simp only [keepS_mk, keepS_times, keepS_foldl, keepS_ite, apply_ite Prod.fst, apply_ite Prod.snd, ite_self, implies_true, setSensor_keepS, qClear_keepS, setUnit_keepS] | split

@[simp] theorem remapTo_keepM (i : ℕ) (block : ℕ) (s : State) : keepM (remapTo i block s) = keepM s := by
  unfold remapTo
  repeat' first | simp only [keepM_mk, keepM_times, keepM_foldl, keepM_ite, apply_ite Prod.fst, apply_ite Prod.snd, ite_self, implies_true] | split

@[simp] theorem giveRemountKey_keepM (r : ℕ) (tag : BitVec 32) (ward : ℕ) (i : ℕ) (s : State) : keepM (giveRemountKey r tag ward i s) = keepM s := by
  unfold giveRemountKey
  repeat' first | simp only [keepM_mk, keepM_times, keepM_foldl, keepM_ite, apply_ite Prod.fst, apply_ite Prod.snd, ite_self, implies_true, sendAnswer_keepM] | split

@[simp] theorem serveKey_keepM (pool : ℕ) (i : ℕ) (s : State) : keepM (serveKey pool i s) = keepM s := by
  unfold serveKey
  repeat' first | simp only [keepM_mk, keepM_times, keepM_foldl, keepM_ite, apply_ite Prod.fst, apply_ite Prod.snd, ite_self, implies_true, endJob_keepM, giveRemountKey_keepM] | split

@[simp] theorem setAllotment_keepM (s : State) : keepM (setAllotment s) = keepM s := by
  unfold setAllotment
  repeat' first | simp only [keepM_mk, keepM_times, keepM_foldl, keepM_ite, apply_ite Prod.fst, apply_ite Prod.snd, ite_self, implies_true] | split

@[simp] theorem setAllotment_keepS (s : State) : keepS (setAllotment s) = keepS s := keepMS (setAllotment_keepM s)

@[simp] theorem setAllotment_keepA (s : State) : keepA (setAllotment s) = keepA s := keepSA (setAllotment_keepS s)

@[simp] theorem resettle_keepM (s : State) : keepM (resettle s) = keepM s := by
  unfold resettle
  repeat' first | simp only [keepM_mk, keepM_times, keepM_foldl, keepM_ite, apply_ite Prod.fst, apply_ite Prod.snd, ite_self, implies_true, makeDue_keepM] | split

@[simp] theorem resettle_keepS (s : State) : keepS (resettle s) = keepS s := keepMS (resettle_keepM s)

@[simp] theorem setWard_keepM (pool : ℕ) (f : Ward → Ward) (s : State) : keepM (setWard pool f s) = keepM s := by
  unfold setWard
  repeat' first | simp only [keepM_mk, keepM_times, keepM_foldl, keepM_ite, apply_ite Prod.fst, apply_ite Prod.snd, ite_self, implies_true] | split

@[simp] theorem setWard_keepS (pool : ℕ) (f : Ward → Ward) (s : State) : keepS (setWard pool f s) = keepS s := keepMS (setWard_keepM pool f s)

@[simp] theorem dropForeign_keepM (pool : ℕ) (llns : List ℕ) (s : State) : keepM (dropForeign pool llns s) = keepM s := by
  unfold dropForeign
  repeat' first | simp only [keepM_mk, keepM_times, keepM_foldl, keepM_ite, apply_ite Prod.fst, apply_ite Prod.snd, ite_self, implies_true, setWard_keepM, piDrop_keepM] | split

@[simp] theorem reissue_keepM (ch : ℕ) (op : ℕ) (die : ℕ) (bank : ℕ) (tag : BitVec 7) (arg : ℕ) (s : State) : keepM (reissue ch op die bank tag arg s) = keepM s := by
  unfold reissue
  repeat' first | simp only [keepM_mk, keepM_times, keepM_foldl, keepM_ite, apply_ite Prod.fst, apply_ite Prod.snd, ite_self, implies_true, sendPkt_keepM, send_keepM, dropOut_keepM, askRead_keepM, sendProg_keepM] | split

@[simp] theorem setVaux_keepE (mv : BitVec 12) (s : State) : keepE (setVaux mv s) = keepE s := by
  unfold setVaux
  repeat' first | simp only [keepE_mk, keepE_times, keepE_foldl, keepE_ite, apply_ite Prod.fst, apply_ite Prod.snd, ite_self, implies_true, sbStart_keepE] | split

@[simp] theorem setVaux_keepM (mv : BitVec 12) (s : State) : keepM (setVaux mv s) = keepM s := keepEM (setVaux_keepE mv s)

@[simp] theorem setVaux_keepS (mv : BitVec 12) (s : State) : keepS (setVaux mv s) = keepS s := keepMS (setVaux_keepM mv s)

@[simp] theorem setVaux_keepA (mv : BitVec 12) (s : State) : keepA (setVaux mv s) = keepA s := keepSA (setVaux_keepS mv s)

@[simp] theorem mapGot_keepM (r : ℕ) (tag : BitVec 32) (ld : ℕ) (ok : Bool) (b : ReconBody) (s : State) : keepM (mapGot r tag ld ok b s) = keepM s := by
  unfold mapGot
  repeat' first | simp only [keepM_mk, keepM_times, keepM_foldl, keepM_ite, apply_ite Prod.fst, apply_ite Prod.snd, ite_self, implies_true, setLd_keepM, commitNow_keepM, setStream_keepM, setWard_keepM, sbEnqueue_keepM] | split

@[simp] theorem sendRelease_keepM (rsnaps : List (ℕ × BitVec 48)) (llns : List ℕ) (s : State) : keepM (sendRelease rsnaps llns s) = keepM s := by
  unfold sendRelease
  repeat' first | simp only [keepM_mk, keepM_times, keepM_foldl, keepM_ite, apply_ite Prod.fst, apply_ite Prod.snd, ite_self, implies_true, peerSend_keepM] | split | refine Eq.trans (keepM_foldl _ _ _ (fun _ _ => ?_)) ?_ | refine Eq.trans (keepM_foldl2 _ _ _ (fun _ _ => ?_)) ?_ | refine Eq.trans (keepM_times _ _ _ (fun _ => ?_)) ?_

@[simp] theorem releaseRecords_keepM (sl : FoldSlot) (s : State) : keepM (releaseRecords sl s) = keepM s := by
  unfold releaseRecords
  repeat' first | simp only [keepM_mk, keepM_times, keepM_foldl, keepM_ite, apply_ite Prod.fst, apply_ite Prod.snd, ite_self, implies_true, sendRelease_keepM] | split

@[simp] theorem releaseRecords_keepS (sl : FoldSlot) (s : State) : keepS (releaseRecords sl s) = keepS s := keepMS (releaseRecords_keepM sl s)

@[simp] theorem heartbeats_keepM (s : State) : keepM (heartbeats s) = keepM s := by
  unfold heartbeats
  repeat' first | simp only [keepM_mk, keepM_times, keepM_foldl, keepM_ite, apply_ite Prod.fst, apply_ite Prod.snd, ite_self, implies_true, fireStart_keepM, peerSend_keepM] | split

@[simp] theorem heartbeats_keepS (s : State) : keepS (heartbeats s) = keepS s := keepMS (heartbeats_keepM s)

@[simp] theorem heartbeats_keepA (s : State) : keepA (heartbeats s) = keepA s := keepSA (heartbeats_keepS s)

@[simp] theorem scrubFastLost_keepM (f : ℕ) (pos : ℕ) (lln : ℕ) (seq : Option (BitVec 16)) (die : ℕ) (s : State) : keepM (scrubFastLost f pos lln seq die s) = keepM s := by
  unfold scrubFastLost
  repeat' first | simp only [keepM_mk, keepM_times, keepM_foldl, keepM_ite, apply_ite Prod.fst, apply_ite Prod.snd, ite_self, implies_true, poisonFind_keepM, mergeRead_keepM] | split

theorem scrubTied_keepM (f pos lln : Nat) (seq : Option (BitVec 16)) (die : Nat) (r : Option (Line × BitVec 16) × State) :
    keepM (scrubTied f pos lln seq die r) = keepM r.2 := by
  unfold scrubTied
  split
  · rfl
  · exact scrubFastLost_keepM _ _ _ _ _ _

@[simp] theorem scrubPair_keepM (f : ℕ) (c : ℕ) (pos : ℕ) (lln : ℕ) (seq : Option (BitVec 16)) (weak : Bool) (die : ℕ) (l : Line66) (o : Option Line66) (s : State) : keepM (scrubPair f c pos lln seq weak die l o s) = keepM s := by
  unfold scrubPair
  split
  · exact scrubSettle_keepM _ _ _ _ _ _ _ _ _
  · split
    · exact scrubSettle_keepM _ _ _ _ _ _ _ _ _
    · exact (scrubTied_keepM _ _ _ _ _ _).trans (tieResolve_keepM _ _ _ _ _ _)

@[simp] theorem did_keepE (s : State) : keepE (did s).2 = keepE s := by
  unfold did
  repeat' first | simp only [keepE_mk, keepE_times, keepE_foldl, keepE_ite, apply_ite Prod.fst, apply_ite Prod.snd, ite_self, implies_true] | split

@[simp] theorem did_keepM (s : State) : keepM (did s).2 = keepM s := keepEM (did_keepE s)

@[simp] theorem did_keepS (s : State) : keepS (did s).2 = keepS s := keepMS (did_keepM s)

@[simp] theorem startFails_keepS (s : State) : keepS (startFails s) = keepS s := by
  unfold startFails
  repeat' first | simp only [keepS_mk, keepS_times, keepS_foldl, keepS_ite, apply_ite Prod.fst, apply_ite Prod.snd, ite_self, implies_true] | split

@[simp] theorem startFails_keepA (s : State) : keepA (startFails s) = keepA s := keepSA (startFails_keepS s)

@[simp] theorem lateRetry_keepM (ch : ℕ) (r : CRead) (res : LineRes) (s : State) : keepM (lateRetry ch r res s) = keepM s := by
  unfold lateRetry
  repeat' first | simp only [keepM_mk, keepM_times, keepM_foldl, keepM_ite, apply_ite Prod.fst, apply_ite Prod.snd, ite_self, implies_true, retryGood_keepM, retryNoted_keepM] | split

@[simp] theorem lateRetry_keepS (ch : ℕ) (r : CRead) (res : LineRes) (s : State) : keepS (lateRetry ch r res s) = keepS s := keepMS (lateRetry_keepM ch r res s)

@[simp] theorem setSec_keepA (f : SecSt → SecSt) (s : State) : keepA (setSec f s) = keepA s := by
  unfold setSec
  repeat' first | simp only [keepA_mk, keepA_times, keepA_foldl, keepA_ite, apply_ite Prod.fst, apply_ite Prod.snd, ite_self, implies_true] | split

@[simp] theorem newRoot_keepA (s : State) : keepA (newRoot s) = keepA s := by
  unfold newRoot
  repeat' first | simp only [keepA_mk, keepA_times, keepA_foldl, keepA_ite, apply_ite Prod.fst, apply_ite Prod.snd, ite_self, implies_true, sbEnqueue_keepA, drawBits_keepA, setSec_keepA] | split

@[simp] theorem loadKeys_keepA (s : State) : keepA (loadKeys s) = keepA s := by
  unfold loadKeys
  repeat' first | simp only [keepA_mk, keepA_times, keepA_foldl, keepA_ite, apply_ite Prod.fst, apply_ite Prod.snd, ite_self, implies_true, newRoot_keepA, setLd_keepA, setSec_keepA] | split

@[simp] theorem sendTimetable_keepM (s : State) : keepM (sendTimetable s) = keepM s := by
  unfold sendTimetable
  repeat' first | simp only [keepM_mk, keepM_times, keepM_foldl, keepM_ite, apply_ite Prod.fst, apply_ite Prod.snd, ite_self, implies_true, peerSend_keepM] | split

@[simp] theorem sendTimetable_keepS (s : State) : keepS (sendTimetable s) = keepS s := keepMS (sendTimetable_keepM s)

@[simp] theorem sendTimetable_keepA (s : State) : keepA (sendTimetable s) = keepA s := keepSA (sendTimetable_keepS s)

@[simp] theorem settle_keepE (s : State) : keepE (settle s) = keepE s := by
  unfold settle
  repeat' first | simp only [keepE_mk, keepE_times, keepE_foldl, keepE_ite, apply_ite Prod.fst, apply_ite Prod.snd, ite_self, implies_true, event_keepE] | split

@[simp] theorem settle_keepM (s : State) : keepM (settle s) = keepM s := keepEM (settle_keepE s)

@[simp] theorem settle_keepS (s : State) : keepS (settle s) = keepS s := keepMS (settle_keepM s)

@[simp] theorem settle_keepA (s : State) : keepA (settle s) = keepA s := keepSA (settle_keepS s)

end Sys2Proof.Machine
end

