-- ==== Sys2Proof/Laws/Keep5.lean ====
section
/-! SUPPORT. What each shared operation leaves alone, one lemma for each operation and class, in the order the operations call each other, part 5: `qTake` to `flushLost`. -/

set_option linter.all false

namespace Sys2Proof.Machine

@[simp] theorem qTake_keepE (q : ℕ) (s : State) : keepE (qTake q s).2 = keepE s := by
  unfold qTake
  repeat' first | simp only [keepE_mk, keepE_times, keepE_foldl, keepE_ite, apply_ite Prod.fst, apply_ite Prod.snd, ite_self, implies_true, setQ_keepE] | split

@[simp] theorem qTake_keepM (q : ℕ) (s : State) : keepM (qTake q s).2 = keepM s := keepEM (qTake_keepE q s)

@[simp] theorem piBaseStart_keepM (s : State) : keepM (piBaseStart s) = keepM s := by
  unfold piBaseStart
  repeat' first | simp only [keepM_mk, keepM_times, keepM_foldl, keepM_ite, apply_ite Prod.fst, apply_ite Prod.snd, ite_self, implies_true, writePi_keepM] | split

@[simp] theorem newKey_keepM (i : ℕ) (s : State) : keepM (newKey i s) = keepM s := by
  unfold newKey
  repeat' first | simp only [keepM_mk, keepM_times, keepM_foldl, keepM_ite, apply_ite Prod.fst, apply_ite Prod.snd, ite_self, implies_true, setLd_keepM, sbEnqueue_keepM, drawBits_keepM] | split

@[simp] theorem newKey_keepS (i : ℕ) (s : State) : keepS (newKey i s) = keepS s := keepMS (newKey_keepM i s)

@[simp] theorem newKey_keepA (i : ℕ) (s : State) : keepA (newKey i s) = keepA s := keepSA (newKey_keepS i s)

@[simp] theorem emptyAll_keepS (mode : ℕ) (ls : List ℕ) (s : State) : keepS (emptyAll mode ls s) = keepS s := by
  unfold emptyAll
  repeat' first | simp only [keepS_mk, keepS_times, keepS_foldl, keepS_ite, apply_ite Prod.fst, apply_ite Prod.snd, ite_self, implies_true, emptyFrame_keepS] | split

@[simp] theorem eraseStart_keepS (i : ℕ) (secure : Bool) (s : State) : keepS (eraseStart i secure s) = keepS s := by
  unfold eraseStart
  repeat' first | simp only [keepS_mk, keepS_times, keepS_foldl, keepS_ite, apply_ite Prod.fst, apply_ite Prod.snd, ite_self, implies_true, newKey_keepS, setLd_keepS, clearPoison_keepS, emptyAll_keepS] | split

@[simp] theorem eraseStart_keepA (i : ℕ) (secure : Bool) (s : State) : keepA (eraseStart i secure s) = keepA s := keepSA (eraseStart_keepS i secure s)

@[simp] theorem setLevel_keepA (new : ℕ) (s : State) : keepA (setLevel new s) = keepA s := by
  unfold setLevel
  repeat' first | simp only [keepA_mk, keepA_times, keepA_foldl, keepA_ite, apply_ite Prod.fst, apply_ite Prod.snd, ite_self, implies_true, event_keepA, setSec_keepA] | split

@[simp] theorem writePl_keepE (s : State) : keepE (writePl s) = keepE s := by
  unfold writePl
  repeat' first | simp only [keepE_mk, keepE_times, keepE_foldl, keepE_ite, apply_ite Prod.fst, apply_ite Prod.snd, ite_self, implies_true, sbEnqueue_keepE] | split

@[simp] theorem writePl_keepM (s : State) : keepM (writePl s) = keepM s := keepEM (writePl_keepE s)

@[simp] theorem writePl_keepS (s : State) : keepS (writePl s) = keepS s := keepMS (writePl_keepM s)

@[simp] theorem writePl_keepA (s : State) : keepA (writePl s) = keepA s := keepSA (writePl_keepS s)

@[simp] theorem imageWrite_keepM (n : ℕ) (im : CkImage) (isClear : ℕ → Bool) (s : State) : keepM (imageWrite n im isClear s).2 = keepM s := by
  unfold imageWrite
  repeat' first | simp only [keepM_mk, keepM_times, keepM_foldl, keepM_ite, apply_ite Prod.fst, apply_ite Prod.snd, ite_self, implies_true, writeSegment_keepM] | split | refine Eq.trans (keepM_foldl _ _ _ (fun _ _ => ?_)) ?_ | refine Eq.trans (keepM_foldl2 _ _ _ (fun _ _ => ?_)) ?_ | refine Eq.trans (keepM_times _ _ _ (fun _ => ?_)) ?_

@[simp] theorem badAgain_keepM (s : State) (blk : ℕ) : keepM (badAgain s blk) = keepM s := by
  unfold badAgain
  repeat' first | simp only [keepM_mk, keepM_times, keepM_foldl, keepM_ite, apply_ite Prod.fst, apply_ite Prod.snd, ite_self, implies_true, ckRecord_keepM] | split

@[simp] theorem imageDone_keepM (n : ℕ) (im : CkImage) (segs : List ℕ) (s : State) : keepM (imageDone n im segs s) = keepM s := by
  unfold imageDone
  extract_lets s1 s2 images oldest low
  have h1 : keepM s1 = keepM s := keepM_foldl _ _ _ (fun s b => badAgain_keepM _ _)
  clear_value s1
  have h2 : keepM s2 = keepM s := (ckRecord_keepM _ _ _ _ _).trans h1
  clear_value s2
  exact (keepM_mk s2).trans h2

@[simp] theorem imageWhole_keepM (n : ℕ) (s : State) : keepM (imageWhole n s) = keepM s := by
  unfold imageWhole
  repeat' first | simp only [keepM_mk, keepM_times, keepM_foldl, keepM_ite, apply_ite Prod.fst, apply_ite Prod.snd, ite_self, implies_true, imageWrite_keepM, imageDone_keepM, takeSet_keepM, placeSeg_keepM] | split

@[simp] theorem imageEnd_keepM (s : State) : keepM (imageEnd s) = keepM s := by
  unfold imageEnd
  repeat' first | simp only [keepM_mk, keepM_times, keepM_foldl, keepM_ite, apply_ite Prod.fst, apply_ite Prod.snd, ite_self, implies_true, imageWhole_keepM] | split

@[simp] theorem imageEnd_keepS (s : State) : keepS (imageEnd s) = keepS s := keepMS (imageEnd_keepM s)

@[simp] theorem dropAll_keepM (s : State) : keepM (dropAll s) = keepM s := by
  unfold dropAll
  repeat' first | simp only [keepM_mk, keepM_times, keepM_foldl, keepM_ite, apply_ite Prod.fst, apply_ite Prod.snd, ite_self, implies_true, imageEnd_keepM, releaseSet_keepM, piBaseStart_keepM, imageStart_keepM] | split

@[simp] theorem dropAll_keepS (s : State) : keepS (dropAll s) = keepS s := keepMS (dropAll_keepM s)

@[simp] theorem dropAll_keepA (s : State) : keepA (dropAll s) = keepA s := keepSA (dropAll_keepS s)

@[simp] theorem lowerAdvance_keepA (s : State) : keepA (lowerAdvance s) = keepA s := by
  unfold lowerAdvance
  repeat' first | simp only [keepA_mk, keepA_times, keepA_foldl, keepA_ite, apply_ite Prod.fst, apply_ite Prod.snd, ite_self, implies_true, newKey_keepA, newRoot_keepA, setLd_keepA, endJob_keepA, setLevel_keepA, sbEnqueue_keepA, writePl_keepA, dropAll_keepA, setSec_keepA] | split

@[simp] theorem lowerBegin_keepA (s : State) : keepA (lowerBegin s) = keepA s := by
  unfold lowerBegin
  repeat' first | simp only [keepA_mk, keepA_times, keepA_foldl, keepA_ite, apply_ite Prod.fst, apply_ite Prod.snd, ite_self, implies_true, lowerAdvance_keepA, setSec_keepA] | split

@[simp] theorem undefTarget_keepM (ch : ℕ) (die : ℕ) (bank : ℕ) (o : BankOp) (s : State) : keepM (undefTarget ch die bank o s) = keepM s := by
  unfold undefTarget
  repeat' first | simp only [keepM_mk, keepM_times, keepM_foldl, keepM_ite, apply_ite Prod.fst, apply_ite Prod.snd, ite_self, implies_true, putLine_keepM] | split

@[simp] theorem portEvent_keepE (p : ℕ) (width : ℕ) (rate : ℕ) (cause : ℕ) (s : State) : keepE (portEvent p width rate cause s) = keepE s := by
  unfold portEvent
  repeat' first | simp only [keepE_mk, keepE_times, keepE_foldl, keepE_ite, apply_ite Prod.fst, apply_ite Prod.snd, ite_self, implies_true, event_keepE] | split

@[simp] theorem portEvent_keepM (p : ℕ) (width : ℕ) (rate : ℕ) (cause : ℕ) (s : State) : keepM (portEvent p width rate cause s) = keepM s := keepEM (portEvent_keepE p width rate cause s)

@[simp] theorem linkLost_keepM (p : ℕ) (cause : ℕ) (s : State) : keepM (linkLost p cause s) = keepM s := by
  unfold linkLost
  repeat' first | simp only [keepM_mk, keepM_times, keepM_foldl, keepM_ite, apply_ite Prod.fst, apply_ite Prod.snd, ite_self, implies_true, portDown_keepM, portEvent_keepM] | split

@[simp] theorem endPowerUp_keepM (mstat : ℕ) (s : State) : keepM (endPowerUp mstat s) = keepM s := by
  unfold endPowerUp
  repeat' first | simp only [keepM_mk, keepM_times, keepM_foldl, keepM_ite, apply_ite Prod.fst, apply_ite Prod.snd, ite_self, implies_true, endJob_keepM] | split

@[simp] theorem endPowerUp_keepS (mstat : ℕ) (s : State) : keepS (endPowerUp mstat s) = keepS s := keepMS (endPowerUp_keepM mstat s)

@[simp] theorem quietOff_keepS (cause : ℕ) (s : State) : keepS (quietOff cause s) = keepS s := by
  unfold quietOff
  repeat' first | simp only [keepS_mk, keepS_times, keepS_foldl, keepS_ite, apply_ite Prod.fst, apply_ite Prod.snd, ite_self, implies_true, setPower_keepS, sbEnqueue_keepS, offTable_keepS] | split

@[simp] theorem powerOff_keepS (cause : ℕ) (s : State) : keepS (powerOff cause s) = keepS s := by
  unfold powerOff
  repeat' first | simp only [keepS_mk, keepS_times, keepS_foldl, keepS_ite, apply_ite Prod.fst, apply_ite Prod.snd, ite_self, implies_true, endPowerUp_keepS, secondCause_keepS, shutdownPath_keepS, quietOff_keepS] | split

@[simp] theorem judgeShutdown_keepS (i : ℕ) (s : State) : keepS (judgeShutdown i s) = keepS s := by
  unfold judgeShutdown
  repeat' first | simp only [keepS_mk, keepS_times, keepS_foldl, keepS_ite, apply_ite Prod.fst, apply_ite Prod.snd, ite_self, implies_true, setTherm_keepS, setSensor_keepS, powerOff_keepS] | split

@[simp] theorem markFailed_keepM (u : ℕ) (s : State) : keepM (markFailed u s) = keepM s := by
  unfold markFailed
  repeat' first | simp only [keepM_mk, keepM_times, keepM_foldl, keepM_ite, apply_ite Prod.fst, apply_ite Prod.snd, ite_self, implies_true, flagCopy_keepM] | split

@[simp] theorem freeFlush_keepS (s : State) : keepS (freeFlush s) = keepS s := by
  unfold freeFlush
  repeat' first | simp only [keepS_mk, keepS_times, keepS_foldl, keepS_ite, apply_ite Prod.fst, apply_ite Prod.snd, ite_self, implies_true, setPower_keepS, releaseSet_keepS] | split

@[simp] theorem freeFlush_keepA (s : State) : keepA (freeFlush s) = keepA s := keepSA (freeFlush_keepS s)

@[simp] theorem loadAti_keepM (s : State) : keepM (loadAti s) = keepM s := by
  unfold loadAti
  repeat' first | simp only [keepM_mk, keepM_times, keepM_foldl, keepM_ite, apply_ite Prod.fst, apply_ite Prod.snd, ite_self, implies_true] | split

@[simp] theorem loadAti_keepS (s : State) : keepS (loadAti s) = keepS s := keepMS (loadAti_keepM s)

@[simp] theorem moveDone_keepM (lfn : ℕ) (copy : ℕ) (s : State) : keepM (moveDone lfn copy s) = keepM s := by
  unfold moveDone
  repeat' first | simp only [keepM_mk, keepM_times, keepM_foldl, keepM_ite, apply_ite Prod.fst, apply_ite Prod.snd, ite_self, implies_true, wearBy_keepM, moveStep_keepM, setMove_keepM] | split

@[simp] theorem trainTo_keepM (ch : ℕ) (step : ℕ) (s : State) : keepM (trainTo ch step s) = keepM s := by
  unfold trainTo
  repeat' first | simp only [keepM_mk, keepM_times, keepM_foldl, keepM_ite, apply_ite Prod.fst, apply_ite Prod.snd, ite_self, implies_true, sendPkt_keepM, setCart_keepM, askRaw_keepM, trainTo.writeEye_keepM] | split

@[simp] theorem tryCa_keepM (ch : ℕ) (step : ℕ) (s : State) : keepM (tryCa ch step s).2 = keepM s := by
  unfold tryCa
  repeat' first | simp only [keepM_mk, keepM_times, keepM_foldl, keepM_ite, apply_ite Prod.fst, apply_ite Prod.snd, ite_self, implies_true, sendPkt_keepM, setCart_keepM, trainTo_keepM, drawBool_keepM, drawBits_keepM] | split

@[simp] theorem detectorIsolates_keepM (u : ℕ) (reason : ℕ) (s : State) : keepM (detectorIsolates u reason s) = keepM s := by
  unfold detectorIsolates
  repeat' first | simp only [keepM_mk, keepM_times, keepM_foldl, keepM_ite, apply_ite Prod.fst, apply_ite Prod.snd, ite_self, implies_true, mediaLoss_keepM, setTest_keepM, endJob_keepM, setUnit_keepM] | split

@[simp] theorem detectorIsolates_keepS (u : ℕ) (reason : ℕ) (s : State) : keepS (detectorIsolates u reason s) = keepS s := keepMS (detectorIsolates_keepM u reason s)

@[simp] theorem quadFails_keepM (q : ℕ) (s : State) : keepM (quadFails q s) = keepM s := by
  unfold quadFails
  repeat' first | simp only [keepM_mk, keepM_times, keepM_foldl, keepM_ite, apply_ite Prod.fst, apply_ite Prod.snd, ite_self, implies_true, mediaLoss_keepM, endJob_keepM] | split

@[simp] theorem trainFail_keepM (ch : ℕ) (step : ℕ) (s : State) : keepM (trainFail ch step s) = keepM s := by
  unfold trainFail
  repeat' first | simp only [keepM_mk, keepM_times, keepM_foldl, keepM_ite, apply_ite Prod.fst, apply_ite Prod.snd, ite_self, implies_true, setCart_keepM, detectorIsolates_keepM, event_keepM, quadFails_keepM] | split

@[simp] theorem trainCa_keepM (ch : ℕ) (step : ℕ) (retried : Bool) (s : State) : keepM (trainCa ch step retried s) = keepM s := by
  unfold trainCa
  repeat' first | simp only [keepM_mk, keepM_times, keepM_foldl, keepM_ite, apply_ite Prod.fst, apply_ite Prod.snd, ite_self, implies_true, setCart_keepM, trainTo_keepM, tryCa_keepM, trainFail_keepM] | split

@[simp] theorem trainCa_keepS (ch : ℕ) (step : ℕ) (retried : Bool) (s : State) : keepS (trainCa ch step retried s) = keepS s := keepMS (trainCa_keepM ch step retried s)

@[simp] theorem identsDone_keepM (ch : ℕ) (s : State) : keepM (identsDone ch s) = keepM s := by
  unfold identsDone
  repeat' first | simp only [keepM_mk, keepM_times, keepM_foldl, keepM_ite, apply_ite Prod.fst, apply_ite Prod.snd, ite_self, implies_true, trainCa_keepM] | split

@[simp] theorem addReq_keepE (q : Req) (s : State) : keepE (addReq q s) = keepE s := by
  unfold addReq
  repeat' first | simp only [keepE_mk, keepE_times, keepE_foldl, keepE_ite, apply_ite Prod.fst, apply_ite Prod.snd, ite_self, implies_true] | split

@[simp] theorem addReq_keepM (q : Req) (s : State) : keepM (addReq q s) = keepM s := keepEM (addReq_keepE q s)

@[simp] theorem poisonLines_keepM (lfn : ℕ) (s : State) : keepM (poisonLines lfn s) = keepM s := by
  unfold poisonLines
  repeat' first | simp only [keepM_mk, keepM_times, keepM_foldl, keepM_ite, apply_ite Prod.fst, apply_ite Prod.snd, ite_self, implies_true, poisonFind_keepM] | split

@[simp] theorem trainLink_keepE (p : ℕ) (s : State) : keepE (trainLink p s) = keepE s := by
  unfold trainLink
  repeat' first | simp only [keepE_mk, keepE_times, keepE_foldl, keepE_ite, apply_ite Prod.fst, apply_ite Prod.snd, ite_self, implies_true, send_keepE] | split

@[simp] theorem trainLink_keepM (p : ℕ) (s : State) : keepM (trainLink p s) = keepM s := keepEM (trainLink_keepE p s)

@[simp] theorem trainLink_keepS (p : ℕ) (s : State) : keepS (trainLink p s) = keepS s := keepMS (trainLink_keepM p s)

@[simp] theorem dropRanges_keepM (i : ℕ) (p : Range → Bool) (s : State) : keepM (dropRanges i p s) = keepM s := by
  unfold dropRanges
  repeat' first | simp only [keepM_mk, keepM_times, keepM_foldl, keepM_ite, apply_ite Prod.fst, apply_ite Prod.snd, ite_self, implies_true, setLd_keepM, sendMap_keepM] | split

@[simp] theorem dropRanges_keepS (i : ℕ) (p : Range → Bool) (s : State) : keepS (dropRanges i p s) = keepS s := keepMS (dropRanges_keepM i p s)

@[simp] theorem releaseGo_keepS (i : ℕ) (c : Option Caller) (exts : List Extent) (s : State) : keepS (releaseGo i c exts s) = keepS s := by
  unfold releaseGo
  repeat' first | simp only [keepS_mk, keepS_times, keepS_foldl, keepS_ite, apply_ite Prod.fst, apply_ite Prod.snd, ite_self, implies_true, send_keepS, setLd_keepS, emptyAll_keepS, dropRanges_keepS] | split

@[simp] theorem releaseGo_keepA (i : ℕ) (c : Option Caller) (exts : List Extent) (s : State) : keepA (releaseGo i c exts s) = keepA s := keepSA (releaseGo_keepS i c exts s)

@[simp] theorem freeDeadSet_keepM (f : ℕ) (s : State) : keepM (freeDeadSet f s) = keepM s := by
  unfold freeDeadSet
  repeat' first | simp only [keepM_mk, keepM_times, keepM_foldl, keepM_ite, apply_ite Prod.fst, apply_ite Prod.snd, ite_self, implies_true, releaseSet_keepM] | split

@[simp] theorem eraseStep_keepM (x0 : ℕ) (s : State) : keepM (eraseStep x0 s).2 = keepM s := by
  unfold eraseStep
  repeat' first | simp only [keepM_mk, keepM_times, keepM_foldl, keepM_ite, apply_ite Prod.fst, apply_ite Prod.snd, ite_self, implies_true, reclaimBand_keepM, freeDeadSet_keepM, wipeSet_keepM, setBand_keepM, makeDue_keepM] | split

@[simp] theorem eraseGo_keepM (i : ℕ) (s : State) : keepM (eraseGo i s) = keepM s := by
  unfold eraseGo
  repeat' first | simp only [keepM_mk, keepM_times, keepM_foldl, keepM_ite, apply_ite Prod.fst, apply_ite Prod.snd, ite_self, implies_true, send_keepM, setLd_keepM, eraseStep_keepM, clearPoison_keepM] | split | refine Eq.trans (keepM_foldl _ _ _ (fun _ _ => ?_)) ?_ | refine Eq.trans (keepM_foldl2 _ _ _ (fun _ _ => ?_)) ?_ | refine Eq.trans (keepM_times _ _ _ (fun _ => ?_)) ?_

@[simp] theorem eraseGo_keepS (i : ℕ) (s : State) : keepS (eraseGo i s) = keepS s := keepMS (eraseGo_keepM i s)

@[simp] theorem pollWork_keepS (s : State) : keepS (pollWork s) = keepS s := by
  unfold pollWork
  repeat' first | simp only [keepS_mk, keepS_times, keepS_foldl, keepS_ite, apply_ite Prod.fst, apply_ite Prod.snd, ite_self, implies_true, endJob_keepS, releaseGo_keepS, eraseGo_keepS] | split | refine Eq.trans (keepS_foldl _ _ _ (fun _ _ => ?_)) ?_ | refine Eq.trans (keepS_foldl2 _ _ _ (fun _ _ => ?_)) ?_ | refine Eq.trans (keepS_times _ _ _ (fun _ => ?_)) ?_

@[simp] theorem pollWork_keepA (s : State) : keepA (pollWork s) = keepA s := keepSA (pollWork_keepS s)

@[simp] theorem copyCorrects_keepM (c : ℕ × ℕ) (s : State) : keepM (copyCorrects c s) = keepM s := by
  unfold copyCorrects
  repeat' first | simp only [keepM_mk, keepM_times, keepM_foldl, keepM_ite, apply_ite Prod.fst, apply_ite Prod.snd, ite_self, implies_true, hbmWrite_keepM, ceError_keepM] | split

@[simp] theorem withPool_keepM (i : ℕ) (e : PoolEntry) (s : State) : keepM (withPool i e s) = keepM s := by
  unfold withPool
  repeat' first | simp only [keepM_mk, keepM_times, keepM_foldl, keepM_ite, apply_ite Prod.fst, apply_ite Prod.snd, ite_self, implies_true] | split

@[simp] theorem startJob_keepM (op : ℕ) (c : Caller) (k : JobKind) (s : State) : keepM (startJob op c k s).2 = keepM s := by
  unfold startJob
  repeat' first | simp only [keepM_mk, keepM_times, keepM_foldl, keepM_ite, apply_ite Prod.fst, apply_ite Prod.snd, ite_self, implies_true] | split

@[simp] theorem startJob_keepS (op : ℕ) (c : Caller) (k : JobKind) (s : State) : keepS (startJob op c k s).2 = keepS s := keepMS (startJob_keepM op c k s)

@[simp] theorem vStart_keepM (op : ℕ) (c : Caller) (k : JobKind) (s : State) : keepM (vStart op c k s).2 = keepM s := by
  unfold vStart
  repeat' first | simp only [keepM_mk, keepM_times, keepM_foldl, keepM_ite, apply_ite Prod.fst, apply_ite Prod.snd, ite_self, implies_true, startJob_keepM] | split

@[simp] theorem vStart_keepS (op : ℕ) (c : Caller) (k : JobKind) (s : State) : keepS (vStart op c k s).2 = keepS s := keepMS (vStart_keepM op c k s)

@[simp] theorem vStart_keepA (op : ℕ) (c : Caller) (k : JobKind) (s : State) : keepA (vStart op c k s).2 = keepA s := keepSA (vStart_keepS op c k s)

@[simp] theorem sbGroup_keepE (s : State) (rs : List SbReq) : keepE (sbGroup s rs).2 = keepE s := by
  unfold sbGroup
  repeat' first | simp only [keepE_mk, keepE_times, keepE_foldl, keepE_ite, apply_ite Prod.fst, apply_ite Prod.snd, ite_self, implies_true, sbAbandon_keepE, sbStart_keepE, sbApply_keepE, sbEnd_keepE] | split

@[simp] theorem sbCommand_keepE (s : State) (rs : List SbReq) : keepE (sbCommand s rs).2 = keepE s := by
  unfold sbCommand
  repeat' first | simp only [keepE_mk, keepE_times, keepE_foldl, keepE_ite, apply_ite Prod.fst, apply_ite Prod.snd, ite_self, implies_true, wbPump_keepE, wbOverflow_keepE, sbGroup_keepE] | split

@[simp] theorem sbCommand_keepM (s : State) (rs : List SbReq) : keepM (sbCommand s rs).2 = keepM s := keepEM (sbCommand_keepE s rs)

@[simp] theorem sbCommand_keepS (s : State) (rs : List SbReq) : keepS (sbCommand s rs).2 = keepS s := keepMS (sbCommand_keepM s rs)

@[simp] theorem sbCommand_keepA (s : State) (rs : List SbReq) : keepA (sbCommand s rs).2 = keepA s := keepSA (sbCommand_keepS s rs)

@[simp] theorem setBank_keepM (k : ℕ) (f : BankSt → BankSt) (s : State) : keepM (setBank k f s) = keepM s := by
  unfold setBank
  repeat' first | simp only [keepM_mk, keepM_times, keepM_foldl, keepM_ite, apply_ite Prod.fst, apply_ite Prod.snd, ite_self, implies_true] | split

@[simp] theorem timeEvent_keepE (s : State) : keepE (timeEvent s) = keepE s := by
  unfold timeEvent
  repeat' first | simp only [keepE_mk, keepE_times, keepE_foldl, keepE_ite, apply_ite Prod.fst, apply_ite Prod.snd, ite_self, implies_true, event_keepE] | split

@[simp] theorem timeEvent_keepM (s : State) : keepM (timeEvent s) = keepM s := keepEM (timeEvent_keepE s)

@[simp] theorem timeEvent_keepS (s : State) : keepS (timeEvent s) = keepS s := keepMS (timeEvent_keepM s)

@[simp] theorem loseSource_keepS (src : TimeSrc) (other : TimeSrc) (otherGood : Bool) (s : State) : keepS (loseSource src other otherGood s) = keepS s := by
  unfold loseSource
  repeat' first | simp only [keepS_mk, keepS_times, keepS_foldl, keepS_ite, apply_ite Prod.fst, apply_ite Prod.snd, ite_self, implies_true, timeEvent_keepS] | split

@[simp] theorem startDeferred_keepM (k : ℕ) (s : State) : keepM (startDeferred k s) = keepM s := by
  unfold startDeferred
  repeat' first | simp only [keepM_mk, keepM_times, keepM_foldl, keepM_ite, apply_ite Prod.fst, apply_ite Prod.snd, ite_self, implies_true, setBank_keepM] | split

@[simp] theorem lostCopiesDue_keepM (s : State) : keepM (lostCopiesDue s) = keepM s := by
  unfold lostCopiesDue
  repeat' first | simp only [keepM_mk, keepM_times, keepM_foldl, keepM_ite, apply_ite Prod.fst, apply_ite Prod.snd, ite_self, implies_true, makeDue_keepM] | split

@[simp] theorem lostCopiesDue_keepS (s : State) : keepS (lostCopiesDue s) = keepS s := keepMS (lostCopiesDue_keepM s)

@[simp] theorem dropRun_keepM (ch : ℕ) (p : CProg) (s : State) : keepM (dropRun ch p s) = keepM s := by
  unfold dropRun
  repeat' first | simp only [keepM_mk, keepM_times, keepM_foldl, keepM_ite, apply_ite Prod.fst, apply_ite Prod.snd, ite_self, implies_true, setCart_keepM] | split

@[simp] theorem clearEnded_keepM (b : ℕ) (m : ℕ) (s : State) : keepM (clearEnded b m s) = keepM s := by
  unfold clearEnded
  repeat' first | simp only [keepM_mk, keepM_times, keepM_foldl, keepM_ite, apply_ite Prod.fst, apply_ite Prod.snd, ite_self, implies_true, tryFree_keepM, setBand_keepM] | split

@[simp] theorem progFailed_keepM (ch : ℕ) (p : CProg) (s : State) : keepM (progFailed ch p s) = keepM s := by
  unfold progFailed
  repeat' first | simp only [keepM_mk, keepM_times, keepM_foldl, keepM_ite, apply_ite Prod.fst, apply_ite Prod.snd, ite_self, implies_true, moveLost_keepM, abandonBatch_keepM, dropRun_keepM, clearEnded_keepM, drainRetry_keepM, markBad_keepM] | split

@[simp] theorem progFailed_keepS (ch : ℕ) (p : CProg) (s : State) : keepS (progFailed ch p s) = keepS s := keepMS (progFailed_keepM ch p s)

@[simp] theorem rebuildFail_keepM (lfn : ℕ) (s : State) : keepM (rebuildFail lfn s) = keepM s := by
  unfold rebuildFail
  repeat' first | simp only [keepM_mk, keepM_times, keepM_foldl, keepM_ite, apply_ite Prod.fst, apply_ite Prod.snd, ite_self, implies_true] | split

@[simp] theorem applyRecord_keepM (lln : ℕ) (r : FRecord) (s : State) : keepM (applyRecord lln r s) = keepM s := by
  unfold applyRecord
  repeat' first | simp only [keepM_mk, keepM_times, keepM_foldl, keepM_ite, apply_ite Prod.fst, apply_ite Prod.snd, ite_self, implies_true, internalWrite_keepM, ncWrite_keepM] | split

@[simp] theorem rebuildTake_keepM (q : SpanRead) (s : State) : keepM (rebuildTake q s) = keepM s := by
  unfold rebuildTake
  repeat' first | simp only [keepM_mk, keepM_times, keepM_foldl, keepM_ite, apply_ite Prod.fst, apply_ite Prod.snd, ite_self, implies_true, rebuildFail_keepM, applyRecord_keepM] | split | refine Eq.trans (keepM_foldl _ _ _ (fun _ _ => ?_)) ?_ | refine Eq.trans (keepM_foldl2 _ _ _ (fun _ _ => ?_)) ?_ | refine Eq.trans (keepM_times _ _ _ (fun _ => ?_)) ?_

@[simp] theorem scrubMissing_keepE (b : ℕ) (m : ℕ) (x2 : ℕ) (s : State) : keepE (scrubMissing b m x2 s) = keepE s := by
  unfold scrubMissing
  repeat' first | simp only [keepE_mk, keepE_times, keepE_foldl, keepE_ite, apply_ite Prod.fst, apply_ite Prod.snd, ite_self, implies_true, relistPoison_keepE] | split

@[simp] theorem scrubMissing_keepM (b : ℕ) (m : ℕ) (x2 : ℕ) (s : State) : keepM (scrubMissing b m x2 s) = keepM s := keepEM (scrubMissing_keepE b m x2 s)

@[simp] theorem poisonDel_keepE (lln : ℕ) (s : State) : keepE (poisonDel lln s) = keepE s := by
  unfold poisonDel
  repeat' first | simp only [keepE_mk, keepE_times, keepE_foldl, keepE_ite, apply_ite Prod.fst, apply_ite Prod.snd, ite_self, implies_true] | split

@[simp] theorem poisonDel_keepM (lln : ℕ) (s : State) : keepM (poisonDel lln s) = keepM s := keepEM (poisonDel_keepE lln s)

@[simp] theorem countWrite_keepM (lfn : ℕ) (s : State) : keepM (countWrite lfn s) = keepM s := by
  unfold countWrite
  repeat' first | simp only [keepM_mk, keepM_times, keepM_foldl, keepM_ite, apply_ite Prod.fst, apply_ite Prod.snd, ite_self, implies_true] | split

@[simp] theorem storeWrite_keepM (lln : ℕ) (data : Line) (be : BitVec 64) (poisoned : Bool) (s : State) : keepM (storeWrite lln data be poisoned s) = keepM s := by
  unfold storeWrite
  repeat' first | simp only [keepM_mk, keepM_times, keepM_foldl, keepM_ite, apply_ite Prod.fst, apply_ite Prod.snd, ite_self, implies_true, poisonDel_keepM, dropPrefetch_keepM, countWrite_keepM, poisonAdd_keepM, ncWrite_keepM] | split

@[simp] theorem hostWrite_keepM (p : ℕ) (l : ℕ) (tag : BitVec 16) (lln : ℕ) (data : Line) (be : BitVec 64) (poisoned : Bool) (s : State) : keepM (hostWrite p l tag lln data be poisoned s) = keepM s := by
  unfold hostWrite
  repeat' first | simp only [keepM_mk, keepM_times, keepM_foldl, keepM_ite, apply_ite Prod.fst, apply_ite Prod.snd, ite_self, implies_true, send_keepM, storeWrite_keepM, setLd_keepM, streamAll_keepM, updLoad_keepM, drainLine_keepM, addReq_keepM] | split

@[simp] theorem resolveOne_keepE (ty : ℕ) (ix : ℕ) (s : State) : keepE (resolveOne ty ix s) = keepE s := by
  unfold resolveOne
  repeat' first | simp only [keepE_mk, keepE_times, keepE_foldl, keepE_ite, apply_ite Prod.fst, apply_ite Prod.snd, ite_self, implies_true, sbEnqueue_keepE, event_keepE] | split

@[simp] theorem resolveAll_keepE (s : State) : keepE (resolveAll s) = keepE s := by
  unfold resolveAll
  repeat' first | simp only [keepE_mk, keepE_times, keepE_foldl, keepE_ite, apply_ite Prod.fst, apply_ite Prod.snd, ite_self, implies_true, resolveOne_keepE] | split

@[simp] theorem resolveAll_keepM (s : State) : keepM (resolveAll s) = keepM s := keepEM (resolveAll_keepE s)

@[simp] theorem resolveAll_keepS (s : State) : keepS (resolveAll s) = keepS s := keepMS (resolveAll_keepM s)

@[simp] theorem resolveAll_keepA (s : State) : keepA (resolveAll s) = keepA s := keepSA (resolveAll_keepS s)

@[simp] theorem shownOffset_keepM (d : ℤ) (s : State) : keepM (shownOffset d s).2 = keepM s := by
  unfold shownOffset
  repeat' first | simp only [keepM_mk, keepM_times, keepM_foldl, keepM_ite, apply_ite Prod.fst, apply_ite Prod.snd, ite_self, implies_true, drawBits_keepM] | split

@[simp] theorem shownOffset_keepS (d : ℤ) (s : State) : keepS (shownOffset d s).2 = keepS s := keepMS (shownOffset_keepM d s)

@[simp] theorem sampleThreshold_keepM (die : ℕ) (k : ℕ) (lo : MediaLine) (mid : MediaLine) (hi : MediaLine) (s : State) : keepM (sampleThreshold die k lo mid hi s).2 = keepM s := by
  unfold sampleThreshold
  repeat' first | simp only [keepM_mk, keepM_times, keepM_foldl, keepM_ite, apply_ite Prod.fst, apply_ite Prod.snd, ite_self, implies_true] | split

@[simp] theorem isolateDrained_keepM (s : State) : keepM (isolateDrained s) = keepM s := by
  unfold isolateDrained
  repeat' first | simp only [keepM_mk, keepM_times, keepM_foldl, keepM_ite, apply_ite Prod.fst, apply_ite Prod.snd, ite_self, implies_true, setUnit_keepM] | split

@[simp] theorem isolateDrained_keepS (s : State) : keepS (isolateDrained s) = keepS s := keepMS (isolateDrained_keepM s)

@[simp] theorem dropStale_keepM (ch : ℕ) (tag : BitVec 7) (s : State) : keepM (dropStale ch tag s) = keepM s := by
  unfold dropStale
  repeat' first | simp only [keepM_mk, keepM_times, keepM_foldl, keepM_ite, apply_ite Prod.fst, apply_ite Prod.snd, ite_self, implies_true, setCart_keepM] | split

@[simp] theorem dropStale_keepS (ch : ℕ) (tag : BitVec 7) (s : State) : keepS (dropStale ch tag s) = keepS s := keepMS (dropStale_keepM ch tag s)

@[simp] theorem dropStale_keepA (ch : ℕ) (tag : BitVec 7) (s : State) : keepA (dropStale ch tag s) = keepA s := keepSA (dropStale_keepS ch tag s)

@[simp] theorem storeDesc_keepE (s : State) : keepE (storeDesc s) = keepE s := by
  unfold storeDesc
  repeat' first | simp only [keepE_mk, keepE_times, keepE_foldl, keepE_ite, apply_ite Prod.fst, apply_ite Prod.snd, ite_self, implies_true, sbEnqueue_keepE] | split

@[simp] theorem storeDesc_keepM (s : State) : keepM (storeDesc s) = keepM s := keepEM (storeDesc_keepE s)

@[simp] theorem setOwnSt_keepM (st : ℕ) (s : State) : keepM (setOwnSt st s) = keepM s := by
  unfold setOwnSt
  repeat' first | simp only [keepM_mk, keepM_times, keepM_foldl, keepM_ite, apply_ite Prod.fst, apply_ite Prod.snd, ite_self, implies_true, storeDesc_keepM, setPeerSt_keepM] | split

@[simp] theorem demoteAll_keepM (s : State) : keepM (demoteAll s) = keepM s := by
  unfold demoteAll
  repeat' first | simp only [keepM_mk, keepM_times, keepM_foldl, keepM_ite, apply_ite Prod.fst, apply_ite Prod.snd, ite_self, implies_true, commitQuiet_keepM, makeDue_keepM] | split

@[simp] theorem askRnums_keepM (ms : List ℕ) (s : State) : keepM (askRnums ms s) = keepM s := by
  unfold askRnums
  repeat' first | simp only [keepM_mk, keepM_times, keepM_foldl, keepM_ite, apply_ite Prod.fst, apply_ite Prod.snd, ite_self, implies_true, peerSend_keepM] | split

@[simp] theorem outriderFill_keepM (s : State) : keepM (outriderFill s) = keepM s := by
  unfold outriderFill
  repeat' first | simp only [keepM_mk, keepM_times, keepM_foldl, keepM_ite, apply_ite Prod.fst, apply_ite Prod.snd, ite_self, implies_true, askRnums_keepM] | split

@[simp] theorem joinAdvance_keepM (s : State) : keepM (joinAdvance s) = keepM s := by
  unfold joinAdvance
  repeat' first | simp only [keepM_mk, keepM_times, keepM_foldl, keepM_ite, apply_ite Prod.fst, apply_ite Prod.snd, ite_self, implies_true, setOwnSt_keepM, endJob_keepM, commitNow_keepM, demoteAll_keepM, outriderFill_keepM] | split

theorem selectFw_keepA (s t : State) (h : selectFw s = some t) : keepA t = keepA s := by
  unfold selectFw at h
  extract_lets cs top low c at h
  repeat' split at h
  all_goals cases h
  all_goals exact keepA_mk s

@[simp] theorem phase3End_keepA (s : State) : keepA (phase3End s) = keepA s := by
  unfold phase3End
  split
  · exact startFails_keepA _
  · rename_i s1 h
    have h1 := selectFw_keepA _ _ h
    extract_lets s2 a b c s3
    have h2 : keepA s2 = keepA s := by
      simp only [s2]; split
      · exact (setSec_keepA _ _).trans h1
      · exact h1
    clear_value s2
    refine (keepA_foldl _ _ _ (fun s c => ?_)).trans ((keepA_mk s2).trans h2)
    split
    · exact startTraining_keepA _ _
    · rfl

@[simp] theorem scrubStripe_keepM (b : ℕ) (x1 : ℕ) (s : State) : keepM (scrubStripe b x1 s) = keepM s := by
  unfold scrubStripe
  repeat' first | simp only [keepM_mk, keepM_times, keepM_foldl, keepM_ite, apply_ite Prod.fst, apply_ite Prod.snd, ite_self, implies_true, located_keepM] | split

@[simp] theorem dirPut_keepM (d : Drain) (s : State) : keepM (dirPut d s) = keepM s := by
  unfold dirPut
  repeat' first | simp only [keepM_mk, keepM_times, keepM_foldl, keepM_ite, apply_ite Prod.fst, apply_ite Prod.snd, ite_self, implies_true] | split

@[simp] theorem qmbReply_keepM (slot : ℕ) (q : ℕ) (result : ℕ) (value : ℕ) (s : State) : keepM (qmbReply slot q result value s) = keepM s := by
  unfold qmbReply
  repeat' first | simp only [keepM_mk, keepM_times, keepM_foldl, keepM_ite, apply_ite Prod.fst, apply_ite Prod.snd, ite_self, implies_true, setQmb_keepM] | split

@[simp] theorem qmbReply_keepS (slot : ℕ) (q : ℕ) (result : ℕ) (value : ℕ) (s : State) : keepS (qmbReply slot q result value s) = keepS s := keepMS (qmbReply_keepM slot q result value s)

@[simp] theorem qmbReply_keepA (slot : ℕ) (q : ℕ) (result : ℕ) (value : ℕ) (s : State) : keepA (qmbReply slot q result value s) = keepA s := keepSA (qmbReply_keepS slot q result value s)

@[simp] theorem sampleSeen_keepS (src : TimeSrc) (d : ℤ) (s : State) : keepS (sampleSeen src d s) = keepS s := by
  unfold sampleSeen
  repeat' first | simp only [keepS_mk, keepS_times, keepS_foldl, keepS_ite, apply_ite Prod.fst, apply_ite Prod.snd, ite_self, implies_true, shownOffset_keepS] | split

@[simp] theorem goodSample_keepS (src : TimeSrc) (value : ℕ) (s : State) : keepS (goodSample src value s) = keepS s := by
  unfold goodSample
  extract_lets d s1
  have h1 : keepS s1 = keepS s := sampleSeen_keepS _ _ _
  clear_value s1
  split
  · exact h1
  · split
    · split
      · exact (timeEvent_keepS _).trans ((keepS_mk s1).trans h1)
      · exact (keepS_mk s1).trans h1
    · split
      · exact (keepS_mk s1).trans h1
      · exact (keepS_mk _).trans ((stepTime_keepS value s1).trans h1)

@[simp] theorem spdmSend_keepE (p : ℕ) (o : SpdmOut) (s : State) : keepE (spdmSend p o s) = keepE s := by
  unfold spdmSend
  repeat' first | simp only [keepE_mk, keepE_times, keepE_foldl, keepE_ite, apply_ite Prod.fst, apply_ite Prod.snd, ite_self, implies_true, send_keepE] | split

@[simp] theorem spdmSend_keepM (p : ℕ) (o : SpdmOut) (s : State) : keepM (spdmSend p o s) = keepM s := keepEM (spdmSend_keepE p o s)

@[simp] theorem spdmErr_keepE (p : ℕ) (code : ℕ) (s : State) : keepE (spdmErr p code s) = keepE s := by
  unfold spdmErr
  repeat' first | simp only [keepE_mk, keepE_times, keepE_foldl, keepE_ite, apply_ite Prod.fst, apply_ite Prod.snd, ite_self, implies_true, spdmSend_keepE] | split

@[simp] theorem spdmErr_keepM (p : ℕ) (code : ℕ) (s : State) : keepM (spdmErr p code s) = keepM s := keepEM (spdmErr_keepE p code s)

@[simp] theorem spdmErr_keepS (p : ℕ) (code : ℕ) (s : State) : keepS (spdmErr p code s) = keepS s := keepMS (spdmErr_keepM p code s)

@[simp] theorem spdmErr_keepA (p : ℕ) (code : ℕ) (s : State) : keepA (spdmErr p code s) = keepA s := keepSA (spdmErr_keepS p code s)

@[simp] theorem linkInject_keepE (s : State) : keepE (linkInject s) = keepE s := by
  unfold linkInject
  repeat' first | simp only [keepE_mk, keepE_times, keepE_foldl, keepE_ite, apply_ite Prod.fst, apply_ite Prod.snd, ite_self, implies_true, fire_keepE] | split

@[simp] theorem linkInject_keepM (s : State) : keepM (linkInject s) = keepM s := keepEM (linkInject_keepE s)

@[simp] theorem linkInject_keepS (s : State) : keepS (linkInject s) = keepS s := keepMS (linkInject_keepM s)

@[simp] theorem linkInject_keepA (s : State) : keepA (linkInject s) = keepA s := keepSA (linkInject_keepS s)

@[simp] theorem setRate_keepE (codes : List ℕ) (rate : ℕ) (burst : ℕ) (s : State) : keepE (setRate codes rate burst s) = keepE s := by
  unfold setRate
  repeat' first | simp only [keepE_mk, keepE_times, keepE_foldl, keepE_ite, apply_ite Prod.fst, apply_ite Prod.snd, ite_self, implies_true] | split | refine Eq.trans (keepE_foldl _ _ _ (fun _ _ => ?_)) ?_ | refine Eq.trans (keepE_foldl2 _ _ _ (fun _ _ => ?_)) ?_ | refine Eq.trans (keepE_times _ _ _ (fun _ => ?_)) ?_

@[simp] theorem takeReading_keepS (i : ℕ) (v : BitVec 16) (s : State) : keepS (takeReading i v s) = keepS s := by
  unfold takeReading
  repeat' first | simp only [keepS_mk, keepS_times, keepS_foldl, keepS_ite, apply_ite Prod.fst, apply_ite Prod.snd, ite_self, implies_true, setSensor_keepS, fireStart_keepS] | split

@[simp] theorem forgetAsked_keepM (r : ℕ) (s : State) : keepM (forgetAsked r s) = keepM s := by
  unfold forgetAsked
  repeat' first | simp only [keepM_mk, keepM_times, keepM_foldl, keepM_ite, apply_ite Prod.fst, apply_ite Prod.snd, ite_self, implies_true] | split

@[simp] theorem forgetAsked_keepS (r : ℕ) (s : State) : keepS (forgetAsked r s) = keepS s := keepMS (forgetAsked_keepM r s)

@[simp] theorem reseed_keepM (i : ℕ) (fresh : Bool) (s : State) : keepM (reseed i fresh s) = keepM s := by
  unfold reseed
  repeat' first | simp only [keepM_mk, keepM_times, keepM_foldl, keepM_ite, apply_ite Prod.fst, apply_ite Prod.snd, ite_self, implies_true, closeBatch_keepM, setStream_keepM, streamAdd_keepM, restartStream_keepM] | split

@[simp] theorem reseed_keepS (i : ℕ) (fresh : Bool) (s : State) : keepS (reseed i fresh s) = keepS s := keepMS (reseed_keepM i fresh s)

@[simp] theorem reseed_keepA (i : ℕ) (fresh : Bool) (s : State) : keepA (reseed i fresh s) = keepA s := keepSA (reseed_keepS i fresh s)

@[simp] theorem outriderLost_keepM (r : ℕ) (s : State) : keepM (outriderLost r s) = keepM s := by
  unfold outriderLost
  repeat' first | simp only [keepM_mk, keepM_times, keepM_foldl, keepM_ite, apply_ite Prod.fst, apply_ite Prod.snd, ite_self, implies_true, reseed_keepM, dropStream_keepM, event_keepM] | split

@[simp] theorem outriderLost_keepS (r : ℕ) (s : State) : keepS (outriderLost r s) = keepS s := keepMS (outriderLost_keepM r s)

@[simp] theorem finishDelta_keepS (b : ℕ) (sl : FoldSlot) (s : State) : keepS (finishDelta b sl s) = keepS s := by
  unfold finishDelta
  repeat' first | simp only [keepS_mk, keepS_times, keepS_foldl, keepS_ite, apply_ite Prod.fst, apply_ite Prod.snd, ite_self, implies_true, releaseRecords_keepS, releaseOld_keepS, closeIfDone_keepS, commitSlot_keepS, setSlot_keepS] | split

@[simp] theorem deltaCheck_keepS (b : ℕ) (lfn : ℕ) (s : State) : keepS (deltaCheck b lfn s) = keepS s := by
  unfold deltaCheck
  repeat' first | simp only [keepS_mk, keepS_times, keepS_foldl, keepS_ite, apply_ite Prod.fst, apply_ite Prod.snd, ite_self, implies_true, advanceBatch_keepS, finishDelta_keepS, peerSend_keepS, setSlot_keepS] | split

@[simp] theorem deltaHolderLost_keepS (r : ℕ) (s : State) : keepS (deltaHolderLost r s) = keepS s := by
  unfold deltaHolderLost
  repeat' first | simp only [keepS_mk, keepS_times, keepS_foldl, keepS_ite, apply_ite Prod.fst, apply_ite Prod.snd, ite_self, implies_true, deltaCheck_keepS, advanceBatch_keepS, peerSend_keepS, setSlot_keepS] | split | refine Eq.trans (keepS_foldl _ _ _ (fun _ _ => ?_)) ?_ | refine Eq.trans (keepS_foldl2 _ _ _ (fun _ _ => ?_)) ?_ | refine Eq.trans (keepS_times _ _ _ (fun _ => ?_)) ?_

@[simp] theorem memberGone_keepS (r : ℕ) (st : ℕ) (s : State) : keepS (memberGone r st s) = keepS s := by
  unfold memberGone
  repeat' first | simp only [keepS_mk, keepS_times, keepS_foldl, keepS_ite, apply_ite Prod.fst, apply_ite Prod.snd, ite_self, implies_true, forgetAsked_keepS, outriderLost_keepS, setPeer_keepS, deltaHolderLost_keepS, dropHolding_keepS, setPeerSt_keepS] | split

@[simp] theorem mapRefold_keepS (s : State) : keepS (mapRefold s) = keepS s := by
  unfold mapRefold
  repeat' first | simp only [keepS_mk, keepS_times, keepS_foldl, keepS_ite, apply_ite Prod.fst, apply_ite Prod.snd, ite_self, implies_true, commitNow_keepS, event_keepS, makeDue_keepS] | split

@[simp] theorem mapRefold_keepA (s : State) : keepA (mapRefold s) = keepA s := keepSA (mapRefold_keepS s)

@[simp] theorem qmbOffer_keepM (slot : ℕ) (q : ℕ) (msg : ℕ) (x3 : QmbMsg) (s : State) : keepM (qmbOffer slot q msg x3 s).2 = keepM s := by
  unfold qmbOffer
  repeat' first | simp only [keepM_mk, keepM_times, keepM_foldl, keepM_ite, apply_ite Prod.fst, apply_ite Prod.snd, ite_self, implies_true, setQmb_keepM] | split

@[simp] theorem qmbOffer_keepS (slot : ℕ) (q : ℕ) (msg : ℕ) (x3 : QmbMsg) (s : State) : keepS (qmbOffer slot q msg x3 s).2 = keepS s := keepMS (qmbOffer_keepM slot q msg x3 s)

@[simp] theorem qmbOffer_keepA (slot : ℕ) (q : ℕ) (msg : ℕ) (x3 : QmbMsg) (s : State) : keepA (qmbOffer slot q msg x3 s).2 = keepA s := keepSA (qmbOffer_keepS slot q msg x3 s)

@[simp] theorem holdupFault_keepS (s : State) : keepS (holdupFault s) = keepS s := by
  unfold holdupFault
  repeat' first | simp only [keepS_mk, keepS_times, keepS_foldl, keepS_ite, apply_ite Prod.fst, apply_ite Prod.snd, ite_self, implies_true, setPower_keepS, updLoad_keepS, event_keepS, drainLine_keepS] | split

@[simp] theorem deltaReply_keepS (r : ℕ) (lfn : ℕ) (seq : BitVec 48) (ph : DeltaPhase) (s : State) : keepS (deltaReply r lfn seq ph s) = keepS s := by
  unfold deltaReply
  repeat' first | simp only [keepS_mk, keepS_times, keepS_foldl, keepS_ite, apply_ite Prod.fst, apply_ite Prod.snd, ite_self, implies_true, deltaCheck_keepS, setSlot_keepS] | split

@[simp] theorem storeOp_keepM (ch : ℕ) (die : ℕ) (bank : ℕ) (o : BankOp) (s : State) : keepM (storeOp ch die bank o s) = keepM s := by
  unfold storeOp
  repeat' first | simp only [keepM_mk, keepM_times, keepM_foldl, keepM_ite, apply_ite Prod.fst, apply_ite Prod.snd, ite_self, implies_true, programLine_keepM] | split

@[simp] theorem classBand_keepM (used : List ℕ) (c0 : ℕ) (b : ℕ) (s : State) : keepM (classBand used c0 b s) = keepM s := by
  unfold classBand
  repeat' first | simp only [keepM_mk, keepM_times, keepM_foldl, keepM_ite, apply_ite Prod.fst, apply_ite Prod.snd, ite_self, implies_true, setBand_keepM, bandFreed_keepM, refreshBand_keepM] | split

@[simp] theorem classBand_keepS (used : List ℕ) (c0 : ℕ) (b : ℕ) (s : State) : keepS (classBand used c0 b s) = keepS s := keepMS (classBand_keepM used c0 b s)

@[simp] theorem classBand_keepA (used : List ℕ) (c0 : ℕ) (b : ℕ) (s : State) : keepA (classBand used c0 b s) = keepA s := keepSA (classBand_keepS used c0 b s)

@[simp] theorem resolveSet_keepM (f : ℕ) (s : State) : keepM (resolveSet f s) = keepM s := by
  unfold resolveSet
  repeat' first | simp only [keepM_mk, keepM_times, keepM_foldl, keepM_ite, apply_ite Prod.fst, apply_ite Prod.snd, ite_self, implies_true, fsSet_keepM, event_keepM] | split

@[simp] theorem resolveSet_keepS (f : ℕ) (s : State) : keepS (resolveSet f s) = keepS s := keepMS (resolveSet_keepM f s)

@[simp] theorem resolveSet_keepA (f : ℕ) (s : State) : keepA (resolveSet f s) = keepA s := keepSA (resolveSet_keepS f s)

@[simp] theorem judgeStop_keepS (s : State) : keepS (judgeStop s) = keepS s := by
  unfold judgeStop
  repeat' first | simp only [keepS_mk, keepS_times, keepS_foldl, keepS_ite, apply_ite Prod.fst, apply_ite Prod.snd, ite_self, implies_true] | split

@[simp] theorem judgeStop_keepA (s : State) : keepA (judgeStop s) = keepA s := keepSA (judgeStop_keepS s)

@[simp] theorem replayTable_keepM (recs : List CkRec) (s : State) : keepM (replayTable recs s).1 = keepM s := by
  unfold replayTable
  repeat' first | simp only [keepM_mk, keepM_times, keepM_foldl, keepM_ite, apply_ite Prod.fst, apply_ite Prod.snd, ite_self, implies_true] | split

@[simp] theorem replayTable_keepS (recs : List CkRec) (s : State) : keepS (replayTable recs s).1 = keepS s := keepMS (replayTable_keepM recs s)

@[simp] theorem replayTable_keepA (recs : List CkRec) (s : State) : keepA (replayTable recs s).1 = keepA s := keepSA (replayTable_keepS recs s)

@[simp] theorem headerScan_keepM (s : State) : keepM (headerScan s) = keepM s := by
  unfold headerScan
  repeat' first | simp only [keepM_mk, keepM_times, keepM_foldl, keepM_ite, apply_ite Prod.fst, apply_ite Prod.snd, ite_self, implies_true, logRead_keepM, poisonLines_keepM] | split | refine Eq.trans (keepM_foldl _ _ _ (fun _ _ => ?_)) ?_ | refine Eq.trans (keepM_foldl2 _ _ _ (fun _ _ => ?_)) ?_ | refine Eq.trans (keepM_times _ _ _ (fun _ => ?_)) ?_

@[simp] theorem headerScan_keepS (s : State) : keepS (headerScan s) = keepS s := keepMS (headerScan_keepM s)

@[simp] theorem headerScan_keepA (s : State) : keepA (headerScan s) = keepA s := keepSA (headerScan_keepS s)

@[simp] theorem phase5End_keepA (s : State) : keepA (phase5End s) = keepA s := by
  unfold phase5End
  repeat' first | simp only [keepA_mk, keepA_times, keepA_foldl, keepA_ite, apply_ite Prod.fst, apply_ite Prod.snd, ite_self, implies_true, classBand_keepA, resolveSet_keepA, lowerAdvance_keepA, judgeStop_keepA, beyondEvent_keepA, replayTable_keepA, headerScan_keepA, event_keepA, classSets_keepA, setSec_keepA] | split

theorem scrubFrom_keepM (f pos lln : Nat) (seq : Option (BitVec 16)) (die : Nat) (r : Option Line66 × State) (next : State → State)
    (h : ∀ s, keepM (next s) = keepM s) : keepM (scrubFrom f pos lln seq die r next) = keepM r.2 := by
  unfold scrubFrom
  split
  · exact (scrubRewrite_keepM _ _ _ _ _ _).trans ((relistPoison_keepM _ _ _ _).trans ((event_keepM _ _).trans
      ((charge_keepM _ _).trans (countRebuilt_keepM _))))
  · exact h _

@[simp] theorem scrubLineRes_keepM (f : ℕ) (c : ℕ) (pos : ℕ) (step : ℕ) (lln : ℕ) (seq : Option (BitVec 16)) (res : Option (Line66 × ℕ)) (s : State) : keepM (scrubLineRes f c pos step lln seq res s) = keepM s := by
  unfold scrubLineRes
  extract_lets die loc
  split
  · extract_lets s1 weak s2 o
    have h1 : keepM s1 = keepM s := relistPoison_keepM _ _ _ _
    have h2 : keepM s2 = keepM s := by
      simp only [s2]
      split
      · exact (event_keepM _ _).trans ((charge_keepM _ _).trans h1)
      · split
        · exact (weakLine_keepM _ _).trans h1
        · exact h1
    clear_value s2 o weak
    exact (scrubPair_keepM _ _ _ _ _ _ _ _ _ _).trans h2
  · exact (scrubFrom_keepM _ _ _ _ _ _ _ (fun t => (scrubFrom_keepM _ _ _ _ _ _ _ (fun u =>
      scrubFastLost_keepM _ _ _ _ _ _)).trans (copyRetry_keepM _ _ _ _ _))).trans (copyRead_keepM _ _ _ _ _)

@[simp] theorem scrubDescRes_keepM (f : ℕ) (c : ℕ) (slot : ℕ) (step : ℕ) (res : Option (Line66 × ℕ)) (s : State) : keepM (scrubDescRes f c slot step res s) = keepM s := by
  unfold scrubDescRes
  repeat' first | simp only [keepM_mk, keepM_times, keepM_foldl, keepM_ite, apply_ite Prod.fst, apply_ite Prod.snd, ite_self, implies_true, descWrite_keepM, weakLine_keepM, makeDue_keepM, charge_keepM] | split

@[simp] theorem scrubFastRes_keepM (f : ℕ) (c : ℕ) (pos : ℕ) (step : ℕ) (res : Option (Line66 × ℕ)) (s : State) : keepM (scrubFastRes f c pos step res s) = keepM s := by
  unfold scrubFastRes
  repeat' first | simp only [keepM_mk, keepM_times, keepM_foldl, keepM_ite, apply_ite Prod.fst, apply_ite Prod.snd, ite_self, implies_true, scrubLineRes_keepM, dieCount_keepM, scrubOtherRes_keepM, scrubAskFast_keepM, scrubDescRes_keepM] | split

@[simp] theorem scrubFastRes_keepS (f : ℕ) (c : ℕ) (pos : ℕ) (step : ℕ) (res : Option (Line66 × ℕ)) (s : State) : keepS (scrubFastRes f c pos step res s) = keepS s := keepMS (scrubFastRes_keepM f c pos step res s)

@[simp] theorem workValues_keepS (s : State) : keepS (workValues s) = keepS s := by
  unfold workValues
  repeat' first | simp only [keepS_mk, keepS_times, keepS_foldl, keepS_ite, apply_ite Prod.fst, apply_ite Prod.snd, ite_self, implies_true, setSensor_keepS] | split

@[simp] theorem judgeSample_keepS (tick : Bool) (covers : List ℕ) (s : State) : keepS (judgeSample tick covers s) = keepS s := by
  unfold judgeSample
  repeat' first | simp only [keepS_mk, keepS_times, keepS_foldl, keepS_ite, apply_ite Prod.fst, apply_ite Prod.snd, ite_self, implies_true, setTherm_keepS, judgeThrottle_keepS, judgeShutdown_keepS, workValues_keepS] | split

@[simp] theorem alertSample_keepS (ch : ℕ) (v : BitVec 16) (s : State) : keepS (alertSample ch v s) = keepS s := by
  unfold alertSample
  repeat' first | simp only [keepS_mk, keepS_times, keepS_foldl, keepS_ite, apply_ite Prod.fst, apply_ite Prod.snd, ite_self, implies_true, judgeSample_keepS, takeReading_keepS] | split

@[simp] theorem rescanFrame_keepM (all : List (ℕ × ℕ × ℕ)) (lfn : ℕ) (s : State) : keepM (rescanFrame all lfn s) = keepM s := by
  unfold rescanFrame
  repeat' first | simp only [keepM_mk, keepM_times, keepM_foldl, keepM_ite, apply_ite Prod.fst, apply_ite Prod.snd, ite_self, implies_true, makeDue_keepM, fsumRefresh_keepM, indexPatch_keepM] | split

@[simp] theorem mendFlushSets_keepS (s : State) : keepS (mendFlushSets s) = keepS s := by
  unfold mendFlushSets
  repeat' first | simp only [keepS_mk, keepS_times, keepS_foldl, keepS_ite, apply_ite Prod.fst, apply_ite Prod.snd, ite_self, implies_true, setPower_keepS, updLoad_keepS] | split

@[simp] theorem foreignAgain_keepM (s : State) : keepM (foreignAgain s) = keepM s := by
  unfold foreignAgain
  repeat' first | simp only [keepM_mk, keepM_times, keepM_foldl, keepM_ite, apply_ite Prod.fst, apply_ite Prod.snd, ite_self, implies_true, piInsert_keepM] | split | refine Eq.trans (keepM_foldl _ _ _ (fun _ _ => ?_)) ?_ | refine Eq.trans (keepM_foldl2 _ _ _ (fun _ _ => ?_)) ?_ | refine Eq.trans (keepM_times _ _ _ (fun _ => ?_)) ?_

@[simp] theorem rejoinAdvance_keepM (s : State) : keepM (rejoinAdvance s) = keepM s := by
  unfold rejoinAdvance
  repeat' first | simp only [keepM_mk, keepM_times, keepM_foldl, keepM_ite, apply_ite Prod.fst, apply_ite Prod.snd, ite_self, implies_true, spanStart_keepM, foreignAgain_keepM, askRnums_keepM] | split

@[simp] theorem rejoinAdvance_keepS (s : State) : keepS (rejoinAdvance s) = keepS s := keepMS (rejoinAdvance_keepM s)

@[simp] theorem rejoinAdvance_keepA (s : State) : keepA (rejoinAdvance s) = keepA s := keepSA (rejoinAdvance_keepS s)

@[simp] theorem memoryActive_keepA (s : State) : keepA (memoryActive s) = keepA s := by
  unfold memoryActive
  repeat' first | simp only [keepA_mk, keepA_times, keepA_foldl, keepA_ite, apply_ite Prod.fst, apply_ite Prod.snd, ite_self, implies_true, releaseGo_keepA, sbEnqueue_keepA, eraseStart_keepA, deliver_keepA, setSec_keepA] | split | refine Eq.trans (keepA_foldl _ _ _ (fun _ _ => ?_)) ?_ | refine Eq.trans (keepA_foldl2 _ _ _ (fun _ _ => ?_)) ?_ | refine Eq.trans (keepA_times _ _ _ (fun _ => ?_)) ?_

@[simp] theorem phase8End_keepA (s : State) : keepA (phase8End s) = keepA s := by
  unfold phase8End
  repeat' first | simp only [keepA_mk, keepA_times, keepA_foldl, keepA_ite, apply_ite Prod.fst, apply_ite Prod.snd, ite_self, implies_true, reseed_keepA, rejoinAdvance_keepA, memoryActive_keepA, mapClear_keepA, freeFlush_keepA, setPeerSt_keepA] | split

@[simp] theorem dropMoves_keepM (s : State) : keepM (dropMoves s) = keepM s := by
  unfold dropMoves
  repeat' first | simp only [keepM_mk, keepM_times, keepM_foldl, keepM_ite, apply_ite Prod.fst, apply_ite Prod.snd, ite_self, implies_true, endJob_keepM, dropMove_keepM] | split | refine Eq.trans (keepM_foldl _ _ _ (fun _ _ => ?_)) ?_ | refine Eq.trans (keepM_foldl2 _ _ _ (fun _ _ => ?_)) ?_ | refine Eq.trans (keepM_times _ _ _ (fun _ => ?_)) ?_

@[simp] theorem setRead_keepM (tag : BitVec 32) (f : SpanRead → SpanRead) (s : State) : keepM (setRead tag f s) = keepM s := by
  unfold setRead
  repeat' first | simp only [keepM_mk, keepM_times, keepM_foldl, keepM_ite, apply_ite Prod.fst, apply_ite Prod.snd, ite_self, implies_true] | split

@[simp] theorem flushLost_keepM (lln : ℕ) (s : State) : keepM (flushLost lln s) = keepM s := by
  unfold flushLost
  repeat' first | simp only [keepM_mk, keepM_times, keepM_foldl, keepM_ite, apply_ite Prod.fst, apply_ite Prod.snd, ite_self, implies_true, poisonFind_keepM] | split

@[simp] theorem flushLost_keepS (lln : ℕ) (s : State) : keepS (flushLost lln s) = keepS s := keepMS (flushLost_keepM lln s)

end Sys2Proof.Machine
end

