-- ==== Sys2Proof/Laws/Keep6.lean ====
section
/-! SUPPORT. What each shared operation leaves alone, one lemma for each operation and class, in the order the operations call each other, part 6: `loadIndex` to `hostRead`. -/

set_option linter.all false

namespace Sys2Proof.Machine

@[simp] theorem loadIndex_keepM (es : List PiEnt) (s : State) : keepM (loadIndex es s) = keepM s := by
  unfold loadIndex
  repeat' first | simp only [keepM_mk, keepM_times, keepM_foldl, keepM_ite, apply_ite Prod.fst, apply_ite Prod.snd, ite_self, implies_true, summarize_keepM, unindex_keepM, indexAgain_keepM, noIndex_keepM] | split

@[simp] theorem loadIndex_keepS (es : List PiEnt) (s : State) : keepS (loadIndex es s) = keepS s := keepMS (loadIndex_keepM es s)

@[simp] theorem phase6End_keepS (s : State) : keepS (phase6End s) = keepS s := by
  unfold phase6End
  repeat' first | simp only [keepS_mk, keepS_times, keepS_foldl, keepS_ite, apply_ite Prod.fst, apply_ite Prod.snd, ite_self, implies_true, flushLost_keepS, rebuildIndex_keepS, loadIndex_keepS] | split

@[simp] theorem phase6End_keepA (s : State) : keepA (phase6End s) = keepA s := keepSA (phase6End_keepS s)

@[simp] theorem scrubSetRead_keepM (f : ℕ) (k : ℕ) (s : State) : keepM (scrubSetRead f k s) = keepM s := by
  unfold scrubSetRead
  repeat' first | simp only [keepM_mk, keepM_times, keepM_foldl, keepM_ite, apply_ite Prod.fst, apply_ite Prod.snd, ite_self, implies_true, scrubAskFast_keepM] | split

@[simp] theorem giveKey_keepM (i : ℕ) (s : State) : keepM (giveKey i s) = keepM s := by
  unfold giveKey
  repeat' first | simp only [keepM_mk, keepM_times, keepM_foldl, keepM_ite, apply_ite Prod.fst, apply_ite Prod.snd, ite_self, implies_true, newKey_keepM] | split

@[simp] theorem addRanges_keepM (i : ℕ) (rs : List Range) (s : State) : keepM (addRanges i rs s) = keepM s := by
  unfold addRanges
  repeat' first | simp only [keepM_mk, keepM_times, keepM_foldl, keepM_ite, apply_ite Prod.fst, apply_ite Prod.snd, ite_self, implies_true, setLd_keepM, giveKey_keepM, sendMap_keepM] | split

@[simp] theorem addRanges_keepS (i : ℕ) (rs : List Range) (s : State) : keepS (addRanges i rs s) = keepS s := keepMS (addRanges_keepM i rs s)

@[simp] theorem setPinned_keepM (lfn : ℕ) (v : Bool) (s : State) : keepM (setPinned lfn v s) = keepM s := by
  unfold setPinned
  repeat' first | simp only [keepM_mk, keepM_times, keepM_foldl, keepM_ite, apply_ite Prod.fst, apply_ite Prod.snd, ite_self, implies_true, commitNow_keepM] | split

@[simp] theorem takeSources_keepS (s : State) : keepS (takeSources s) = keepS s := by
  unfold takeSources
  repeat' first | simp only [keepS_mk, keepS_times, keepS_foldl, keepS_ite, apply_ite Prod.fst, apply_ite Prod.snd, ite_self, implies_true, timeEvent_keepS, loseSource_keepS] | split

@[simp] theorem takeSources_keepA (s : State) : keepA (takeSources s) = keepA s := keepSA (takeSources_keepS s)

@[simp] theorem onDone_keepS (s : State) : keepS (onDone s) = keepS s := by
  unfold onDone
  repeat' first | simp only [keepS_mk, keepS_times, keepS_foldl, keepS_ite, apply_ite Prod.fst, apply_ite Prod.snd, ite_self, implies_true, trainLink_keepS, endPowerUp_keepS, setPower_keepS] | split

@[simp] theorem checkOn_keepS (s : State) : keepS (checkOn s) = keepS s := by
  unfold checkOn
  repeat' first | simp only [keepS_mk, keepS_times, keepS_foldl, keepS_ite, apply_ite Prod.fst, apply_ite Prod.snd, ite_self, implies_true, onDone_keepS] | split

@[simp] theorem startLife_keepS (s : State) : keepS (startLife s) = keepS s := by
  unfold startLife
  repeat' first | simp only [keepS_mk, keepS_times, keepS_foldl, keepS_ite, apply_ite Prod.fst, apply_ite Prod.snd, ite_self, implies_true, sbEnqueue_keepS, event_keepS] | split

@[simp] theorem startOn_keepS (s : State) : keepS (startOn s) = keepS s := by
  unfold startOn
  repeat' first | simp only [keepS_mk, keepS_times, keepS_foldl, keepS_ite, apply_ite Prod.fst, apply_ite Prod.snd, ite_self, implies_true, setPower_keepS, checkOn_keepS, startLife_keepS] | split

@[simp] theorem startOn_keepA (s : State) : keepA (startOn s) = keepA s := keepSA (startOn_keepS s)

@[simp] theorem flushDeltas_keepM (s : State) : keepM (flushDeltas s) = keepM s := by
  unfold flushDeltas
  repeat' first | simp only [keepM_mk, keepM_times, keepM_foldl, keepM_ite, apply_ite Prod.fst, apply_ite Prod.snd, ite_self, implies_true, writePi_keepM] | split

@[simp] theorem flushDeltas_keepS (s : State) : keepS (flushDeltas s) = keepS s := keepMS (flushDeltas_keepM s)

@[simp] theorem dcEvent_keepE (i : ℕ) (seq : ℕ) (e : Extent) (s : State) : keepE (dcEvent i seq e s) = keepE s := by
  unfold dcEvent
  repeat' first | simp only [keepE_mk, keepE_times, keepE_foldl, keepE_ite, apply_ite Prod.fst, apply_ite Prod.snd, ite_self, implies_true, setLd_keepE, logPend_keepE] | split

@[simp] theorem resumeNow_keepM (k : ℕ) (s : State) : keepM (resumeNow k s) = keepM s := by
  unfold resumeNow
  repeat' first | simp only [keepM_mk, keepM_times, keepM_foldl, keepM_ite, apply_ite Prod.fst, apply_ite Prod.snd, ite_self, implies_true, setBank_keepM] | split

@[simp] theorem aerError_keepE (p : ℕ) (bit : ℕ) (s : State) : keepE (aerError p bit s) = keepE s := by
  unfold aerError
  repeat' first | simp only [keepE_mk, keepE_times, keepE_foldl, keepE_ite, apply_ite Prod.fst, apply_ite Prod.snd, ite_self, implies_true, send_keepE, setPort_keepE] | split

@[simp] theorem aerError_keepM (p : ℕ) (bit : ℕ) (s : State) : keepM (aerError p bit s) = keepM s := keepEM (aerError_keepE p bit s)

@[simp] theorem lfsrRun_keepM (ns : ℕ) (s : State) : keepM (lfsrRun ns s) = keepM s := by
  unfold lfsrRun
  repeat' first | simp only [keepM_mk, keepM_times, keepM_foldl, keepM_ite, apply_ite Prod.fst, apply_ite Prod.snd, ite_self, implies_true] | split

@[simp] theorem lfsrRun_keepS (ns : ℕ) (s : State) : keepS (lfsrRun ns s) = keepS s := keepMS (lfsrRun_keepM ns s)

@[simp] theorem lfsrRun_keepA (ns : ℕ) (s : State) : keepA (lfsrRun ns s) = keepA s := keepSA (lfsrRun_keepS ns s)

@[simp] theorem advanceTo_keepS (value : ℕ) (s : State) : keepS (advanceTo value s) = keepS s := by
  unfold advanceTo
  repeat' first | simp only [keepS_mk, keepS_times, keepS_foldl, keepS_ite, apply_ite Prod.fst, apply_ite Prod.snd, ite_self, implies_true] | split

@[simp] theorem advanceFtime_keepS (t : BitVec 64) (s : State) : keepS (advanceFtime t s) = keepS s := by
  unfold advanceFtime
  repeat' first | simp only [keepS_mk, keepS_times, keepS_foldl, keepS_ite, apply_ite Prod.fst, apply_ite Prod.snd, ite_self, implies_true, advanceTo_keepS] | split

@[simp] theorem advanceFtime_keepA (t : BitVec 64) (s : State) : keepA (advanceFtime t s) = keepA s := keepSA (advanceFtime_keepS t s)

@[simp] theorem idleTick_keepS (s : State) : keepS (idleTick s) = keepS s := by
  unfold idleTick
  repeat' first | simp only [keepS_mk, keepS_times, keepS_foldl, keepS_ite, apply_ite Prod.fst, apply_ite Prod.snd, ite_self, implies_true, lfsrRun_keepS, advanceFtime_keepS] | split

@[simp] theorem idle_keepS (s : State) : keepS (idle s) = keepS s := by
  unfold idle
  repeat' first | simp only [keepS_mk, keepS_times, keepS_foldl, keepS_ite, apply_ite Prod.fst, apply_ite Prod.snd, ite_self, implies_true, idleTick_keepS] | split

@[simp] theorem loadRefs_keepE (ch : ℕ) (die : ℕ) (s : State) : keepE (loadRefs ch die s) = keepE s := by
  unfold loadRefs
  repeat' first | simp only [keepE_mk, keepE_times, keepE_foldl, keepE_ite, apply_ite Prod.fst, apply_ite Prod.snd, ite_self, implies_true, sendPkt_keepE, send_keepE] | split

@[simp] theorem loadRefs_keepM (ch : ℕ) (die : ℕ) (s : State) : keepM (loadRefs ch die s) = keepM s := keepEM (loadRefs_keepE ch die s)

@[simp] theorem reloadSlots_keepE (s : State) : keepE (reloadSlots s) = keepE s := by
  unfold reloadSlots
  repeat' first | simp only [keepE_mk, keepE_times, keepE_foldl, keepE_ite, apply_ite Prod.fst, apply_ite Prod.snd, ite_self, implies_true, loadRefs_keepE] | split

@[simp] theorem reloadSlots_keepM (s : State) : keepM (reloadSlots s) = keepM s := keepEM (reloadSlots_keepE s)

@[simp] theorem reloadSlots_keepS (s : State) : keepS (reloadSlots s) = keepS s := keepMS (reloadSlots_keepM s)

@[simp] theorem closeHotWindow_keepM (s : State) : keepM (closeHotWindow s) = keepM s := by
  unfold closeHotWindow
  repeat' first | simp only [keepM_mk, keepM_times, keepM_foldl, keepM_ite, apply_ite Prod.fst, apply_ite Prod.snd, ite_self, implies_true, commitQuiet_keepM] | split

@[simp] theorem closeHotWindow_keepS (s : State) : keepS (closeHotWindow s) = keepS s := keepMS (closeHotWindow_keepM s)

@[simp] theorem closeHotWindow_keepA (s : State) : keepA (closeHotWindow s) = keepA s := keepSA (closeHotWindow_keepS s)

@[simp] theorem warmReset_keepM (s : State) : keepM (warmReset s) = keepM s := by
  unfold warmReset
  repeat' first | simp only [keepM_mk, keepM_times, keepM_foldl, keepM_ite, apply_ite Prod.fst, apply_ite Prod.snd, ite_self, implies_true, loseJobs_keepM] | split

@[simp] theorem warmReset_keepS (s : State) : keepS (warmReset s) = keepS s := keepMS (warmReset_keepM s)

@[simp] theorem activateLead_keepS (s : State) : keepS (activateLead s) = keepS s := by
  unfold activateLead
  repeat' first | simp only [keepS_mk, keepS_times, keepS_foldl, keepS_ite, apply_ite Prod.fst, apply_ite Prod.snd, ite_self, implies_true, warmReset_keepS] | split

@[simp] theorem activateLead_keepA (s : State) : keepA (activateLead s) = keepA s := keepSA (activateLead_keepS s)

@[simp] theorem scrubBandRead_keepM (b : ℕ) (k : ℕ) (s : State) : keepM (scrubBandRead b k s) = keepM s := by
  unfold scrubBandRead
  repeat' first | simp only [keepM_mk, keepM_times, keepM_foldl, keepM_ite, apply_ite Prod.fst, apply_ite Prod.snd, ite_self, implies_true, scrubMissing_keepM, scrubAsk_keepM] | split

@[simp] theorem issueScrub_keepM (s : State) : keepM (issueScrub s) = keepM s := by
  unfold issueScrub
  extract_lets stages bands n1 s1 sets hours n2
  have h1 : keepM s1 = keepM s := by
    simp only [s1]
    split
    · rfl
    · exact keepM_foldl _ _ _ (fun t _ => (scrubBandRead_keepM _ _ _).trans (keepM_mk t))
  clear_value s1
  split
  · exact h1
  · exact (keepM_foldl _ _ _ (fun t _ => (scrubSetRead_keepM _ _ _).trans (keepM_mk t))).trans h1

@[simp] theorem issueScrub_keepS (s : State) : keepS (issueScrub s) = keepS s := keepMS (issueScrub_keepM s)

@[simp] theorem clearBand_keepM (b : ℕ) (s : State) : keepM (clearBand b s) = keepM s := by
  unfold clearBand
  repeat' first | simp only [keepM_mk, keepM_times, keepM_foldl, keepM_ite, apply_ite Prod.fst, apply_ite Prod.snd, ite_self, implies_true, takeSet_keepM, placeSeg_keepM, setBand_keepM, bandFreed_keepM, markBad_keepM, askProg_keepM] | split

@[simp] theorem nextFrame_keepM (ch : ℕ) (s : State) : keepM (nextFrame ch s) = keepM s := by
  unfold nextFrame
  repeat' first | simp only [keepM_mk, keepM_times, keepM_foldl, keepM_ite, apply_ite Prod.fst, apply_ite Prod.snd, ite_self, implies_true, setCart_keepM] | split

@[simp] theorem nextFrame_keepS (ch : ℕ) (s : State) : keepS (nextFrame ch s) = keepS s := keepMS (nextFrame_keepM ch s)

@[simp] theorem nextFrame_keepA (ch : ℕ) (s : State) : keepA (nextFrame ch s) = keepA s := keepSA (nextFrame_keepS ch s)

@[simp] theorem rejoinBegin_keepS (s : State) : keepS (rejoinBegin s) = keepS s := by
  unfold rejoinBegin
  repeat' first | simp only [keepS_mk, keepS_times, keepS_foldl, keepS_ite, apply_ite Prod.fst, apply_ite Prod.snd, ite_self, implies_true, unhitch_keepS, startJob_keepS, setPeerSt_keepS] | split

@[simp] theorem rejoinBegin_keepA (s : State) : keepA (rejoinBegin s) = keepA s := keepSA (rejoinBegin_keepS s)

@[simp] theorem phase7End_keepA (s : State) : keepA (phase7End s) = keepA s := by
  unfold phase7End
  repeat' first | simp only [keepA_mk, keepA_times, keepA_foldl, keepA_ite, apply_ite Prod.fst, apply_ite Prod.snd, ite_self, implies_true, startFails_keepA, mapRefold_keepA, replayStep_keepA, rejoinBegin_keepA, memoryActive_keepA, mapClear_keepA, freeFlush_keepA] | split

@[simp] theorem fenceBlock_keepM (c : ℕ × ℕ) (s : State) : keepM (fenceBlock c s) = keepM s := by
  unfold fenceBlock
  repeat' first | simp only [keepM_mk, keepM_times, keepM_foldl, keepM_ite, apply_ite Prod.fst, apply_ite Prod.snd, ite_self, implies_true, pageDrop_keepM] | split

@[simp] theorem onPoisoned_keepM (q : ℕ) (s : State) : keepM (onPoisoned q s) = keepM s := by
  unfold onPoisoned
  repeat' first | simp only [keepM_mk, keepM_times, keepM_foldl, keepM_ite, apply_ite Prod.fst, apply_ite Prod.snd, ite_self, implies_true] | split

@[simp] theorem scrubFrames_keepM (s : State) : keepM (scrubFrames s) = keepM s := by
  unfold scrubFrames
  repeat' first | simp only [keepM_mk, keepM_times, keepM_foldl, keepM_ite, apply_ite Prod.fst, apply_ite Prod.snd, ite_self, implies_true, scrubSetRead_keepM, scrubAsk_keepM] | split

@[simp] theorem scrubFrames_keepS (s : State) : keepS (scrubFrames s) = keepS s := keepMS (scrubFrames_keepM s)

@[simp] theorem recount_keepM (s : State) : keepM (recount s) = keepM s := by
  unfold recount
  repeat' first | simp only [keepM_mk, keepM_times, keepM_foldl, keepM_ite, apply_ite Prod.fst, apply_ite Prod.snd, ite_self, implies_true] | split

@[simp] theorem recount_keepS (s : State) : keepS (recount s) = keepS s := keepMS (recount_keepM s)

@[simp] theorem gpfSettle_keepE (s : State) : keepE (gpfSettle s) = keepE s := by
  unfold gpfSettle
  repeat' first | simp only [keepE_mk, keepE_times, keepE_foldl, keepE_ite, apply_ite Prod.fst, apply_ite Prod.snd, ite_self, implies_true, send_keepE] | split

@[simp] theorem gpfSettle_keepM (s : State) : keepM (gpfSettle s) = keepM s := keepEM (gpfSettle_keepE s)

@[simp] theorem gpfSettle_keepS (s : State) : keepS (gpfSettle s) = keepS s := keepMS (gpfSettle_keepM s)

@[simp] theorem gpfSettle_keepA (s : State) : keepA (gpfSettle s) = keepA s := keepSA (gpfSettle_keepS s)

@[simp] theorem setHolding_keepM (h : Holding) (f : Holding → Holding) (s : State) : keepM (setHolding h f s) = keepM s := by
  unfold setHolding
  repeat' first | simp only [keepM_mk, keepM_times, keepM_foldl, keepM_ite, apply_ite Prod.fst, apply_ite Prod.snd, ite_self, implies_true] | split

@[simp] theorem setHolding_keepS (h : Holding) (f : Holding → Holding) (s : State) : keepS (setHolding h f s) = keepS s := keepMS (setHolding_keepM h f s)

@[simp] theorem mapWrite_keepM (n : ℕ) (now : List ℕ) (s : State) : keepM (mapWrite n now s).2 = keepM s := by
  unfold mapWrite
  refine keepM_foldl2 _ _ _ (fun p a => ?_)
  split
  · rfl
  · next h =>
    refine (keepM_foldl _ _ _ (fun s j => segPut_keepM _ _ _ _)).trans ?_
    exact (keepM_mk _).trans ((placeSeg_keepM _ _ _).trans (pickSegment_keepM _ _ _ h))

@[simp] theorem endAdmission_keepM (lfn : ℕ) (s : State) : keepM (endAdmission lfn s) = keepM s := by
  unfold endAdmission
  repeat' first | simp only [keepM_mk, keepM_times, keepM_foldl, keepM_ite, apply_ite Prod.fst, apply_ite Prod.snd, ite_self, implies_true, peerSend_keepM, admitNext_keepM] | split

@[simp] theorem rebuildPoll_keepM (s : State) : keepM (rebuildPoll s) = keepM s := by
  unfold rebuildPoll
  repeat' first | simp only [keepM_mk, keepM_times, keepM_foldl, keepM_ite, apply_ite Prod.fst, apply_ite Prod.snd, ite_self, implies_true, spanStart_keepM, endAdmission_keepM, rebuildTake_keepM, makeDue_keepM] | split

@[simp] theorem rnumGot_keepM (r : ℕ) (top : BitVec 48) (s : State) : keepM (rnumGot r top s) = keepM s := by
  unfold rnumGot
  repeat' first | simp only [keepM_mk, keepM_times, keepM_foldl, keepM_ite, apply_ite Prod.fst, apply_ite Prod.snd, ite_self, implies_true] | split

@[simp] theorem rnumAnswer_keepM (r : ℕ) (tag : BitVec 32) (b : ReconBody) (s : State) : keepM (rnumAnswer r tag b s) = keepM s := by
  unfold rnumAnswer
  repeat' first | simp only [keepM_mk, keepM_times, keepM_foldl, keepM_ite, apply_ite Prod.fst, apply_ite Prod.snd, ite_self, implies_true, rnumGot_keepM, reseed_keepM] | split

@[simp] theorem scrubUnit_keepM (u : HbmUnit) (s : State) : keepM (scrubUnit u s) = keepM s := by
  unfold scrubUnit
  repeat' first | simp only [keepM_mk, keepM_times, keepM_foldl, keepM_ite, apply_ite Prod.fst, apply_ite Prod.snd, ite_self, implies_true, pageRead_keepM, hbmMeet_keepM, pageDrop_keepM, hbmWrite_keepM, entryLost_keepM, residencyMeet_keepM, slotRead_keepM] | split

@[simp] theorem scrubDenseRes_keepM (b : ℕ) (m : ℕ) (x2 : ℕ) (step : ℕ) (res : Option (Line66 × ℕ)) (s : State) : keepM (scrubDenseRes b m x2 step res s) = keepM s := by
  unfold scrubDenseRes
  repeat' first | simp only [keepM_mk, keepM_times, keepM_foldl, keepM_ite, apply_ite Prod.fst, apply_ite Prod.snd, ite_self, implies_true, relistPoison_keepM, scrubWeak_keepM, dieCount_keepM, scrubLost_keepM, weakLine_keepM, countBlockMark_keepM, event_keepM, scrubHeaderRes_keepM, scrubStripe_keepM, scrubAsk_keepM, charge_keepM] | split

@[simp] theorem scrubDenseRes_keepS (b : ℕ) (m : ℕ) (x2 : ℕ) (step : ℕ) (res : Option (Line66 × ℕ)) (s : State) : keepS (scrubDenseRes b m x2 step res s) = keepS s := keepMS (scrubDenseRes_keepM b m x2 step res s)

@[simp] theorem readAnswered_keepS (ch : ℕ) (r : CRead) (res : LineRes) (s : State) : keepS (readAnswered ch r res s) = keepS s := by
  unfold readAnswered
  repeat' first | simp only [keepS_mk, keepS_times, keepS_foldl, keepS_ite, apply_ite Prod.fst, apply_ite Prod.snd, ite_self, implies_true, scrubDenseRes_keepS, lateRetry_keepS, scrubFastRes_keepS, readLineRes_keepS, readBackRes_keepS] | split

@[simp] theorem remountAsk_keepM (m : ℕ) (s : State) : keepM (remountAsk m s) = keepM s := by
  unfold remountAsk
  repeat' first | simp only [keepM_mk, keepM_times, keepM_foldl, keepM_ite, apply_ite Prod.fst, apply_ite Prod.snd, ite_self, implies_true, commitNow_keepM, peerSend_keepM, outriderFill_keepM] | split

@[simp] theorem tell_keepE (rc : Rc) (o : CxlOut) (s : State) : keepE (tell rc o s).2 = keepE s := by
  unfold tell
  repeat' first | simp only [keepE_mk, keepE_times, keepE_foldl, keepE_ite, apply_ite Prod.fst, apply_ite Prod.snd, ite_self, implies_true] | split

@[simp] theorem tell_keepM (rc : Rc) (o : CxlOut) (s : State) : keepM (tell rc o s).2 = keepM s := keepEM (tell_keepE rc o s)

@[simp] theorem tell_keepS (rc : Rc) (o : CxlOut) (s : State) : keepS (tell rc o s).2 = keepS s := keepMS (tell_keepM rc o s)

@[simp] theorem fwEnd_keepS (s : State) : keepS (fwEnd s).2 = keepS s := by
  unfold fwEnd
  repeat' first | simp only [keepS_mk, keepS_times, keepS_foldl, keepS_ite, apply_ite Prod.fst, apply_ite Prod.snd, ite_self, implies_true, tell_keepS, did_keepS] | split

@[simp] theorem testFailure_keepM (u : ℕ) (s : State) : keepM (testFailure u s).2 = keepM s := by
  unfold testFailure
  repeat' first | simp only [keepM_mk, keepM_times, keepM_foldl, keepM_ite, apply_ite Prod.fst, apply_ite Prod.snd, ite_self, implies_true, drawBits_keepM, markBad_keepM] | split

@[simp] theorem mbRead_keepM (slot : ℕ) (off : ℕ) (s : State) : keepM (mbRead slot off s).2 = keepM s := by
  unfold mbRead
  repeat' first | simp only [keepM_mk, keepM_times, keepM_foldl, keepM_ite, apply_ite Prod.fst, apply_ite Prod.snd, ite_self, implies_true, drawBits_keepM, setQmb_keepM] | split

theorem foreignSegment_keepM (pool need : Nat) (rnum : BitVec 48) (s : State) (k : Nat) (t : State)
    (h : foreignSegment pool need rnum s = some (k, t)) : keepM t = keepM s := by
  unfold foreignSegment at h
  split at h
  · cases h; rfl
  · extract_lets s1 at h
    split at h
    · cases h
    · cases h; simp only [setWard_keepM, placeSeg_keepM, s1]

@[simp] theorem storeForeign_keepM (pool : ℕ) (lln : ℕ) (s : State) : keepM (storeForeign pool lln s) = keepM s := by
  unfold storeForeign
  split
  · rfl
  · extract_lets full
    split
    · rfl
    · next h =>
      have h0 := foreignSegment_keepM _ _ _ _ _ _ h
      extract_lets i place s1 s2 x s3 s4 s5
      have h2 : keepM s2 = keepM s := by
        simp only [s2, s1]; split <;> simp only [segPut_keepM, h0]
      clear_value s2
      have h4 : keepM s4 = keepM s := (segPut_keepM _ _ _ _).trans ((keepM_mk s2).trans h2)
      clear_value s4
      have h5 : keepM s5 = keepM s := by simp only [s5]; split <;> simp only [segPut_keepM, h4]
      exact (piInsert_keepM _ _).trans ((setWard_keepM _ _ _).trans h5)

@[simp] theorem compactForeign_keepM (pool : ℕ) (s : State) : keepM (compactForeign pool s) = keepM s := by
  unfold compactForeign
  repeat' first | simp only [keepM_mk, keepM_times, keepM_foldl, keepM_ite, apply_ite Prod.fst, apply_ite Prod.snd, ite_self, implies_true, storeForeign_keepM] | split

@[simp] theorem compactForeign_keepS (pool : ℕ) (s : State) : keepS (compactForeign pool s) = keepS s := keepMS (compactForeign_keepM pool s)

@[simp] theorem requestRetrain_keepM (ch : ℕ) (s : State) : keepM (requestRetrain ch s) = keepM s := by
  unfold requestRetrain
  repeat' first | simp only [keepM_mk, keepM_times, keepM_foldl, keepM_ite, apply_ite Prod.fst, apply_ite Prod.snd, ite_self, implies_true, setCart_keepM] | split

@[simp] theorem relayout_keepM (g : ℕ) (s : State) : keepM (relayout g s) = keepM s := by
  unfold relayout
  repeat' first | simp only [keepM_mk, keepM_times, keepM_foldl, keepM_ite, apply_ite Prod.fst, apply_ite Prod.snd, ite_self, implies_true] | split

@[simp] theorem relayout_keepS (g : ℕ) (s : State) : keepS (relayout g s) = keepS s := keepMS (relayout_keepM g s)

@[simp] theorem phase4End_keepS (hbm : BitVec 4) (s : State) : keepS (phase4End hbm s) = keepS s := by
  unfold phase4End
  repeat' first | simp only [keepS_mk, keepS_times, keepS_foldl, keepS_ite, apply_ite Prod.fst, apply_ite Prod.snd, ite_self, implies_true, relayout_keepS, startFails_keepS, reloadSlots_keepS, loadAti_keepS, setUnit_keepS, drawBits_keepS] | split

@[simp] theorem phase4End_keepA (hbm : BitVec 4) (s : State) : keepA (phase4End hbm s) = keepA s := keepSA (phase4End_keepS hbm s)

@[simp] theorem dropCopy_keepM (c : ℕ × ℕ) (s : State) : keepM (dropCopy c s) = keepM s := by
  unfold dropCopy
  repeat' first | simp only [keepM_mk, keepM_times, keepM_foldl, keepM_ite, apply_ite Prod.fst, apply_ite Prod.snd, ite_self, implies_true] | split

@[simp] theorem ageChannels_keepM (s : State) : keepM (ageChannels s) = keepM s := by
  unfold ageChannels
  repeat' first | simp only [keepM_mk, keepM_times, keepM_foldl, keepM_ite, apply_ite Prod.fst, apply_ite Prod.snd, ite_self, implies_true] | split | refine Eq.trans (keepM_foldl _ _ _ (fun _ _ => ?_)) ?_ | refine Eq.trans (keepM_foldl2 _ _ _ (fun _ _ => ?_)) ?_ | refine Eq.trans (keepM_times _ _ _ (fun _ => ?_)) ?_

@[simp] theorem maintainChannels_keepM (s : State) : keepM (maintainChannels s) = keepM s := by
  unfold maintainChannels
  repeat' first | simp only [keepM_mk, keepM_times, keepM_foldl, keepM_ite, apply_ite Prod.fst, apply_ite Prod.snd, ite_self, implies_true, askRaw_keepM] | split

@[simp] theorem sampleCalibration_keepM (s : State) : keepM (sampleCalibration s) = keepM s := by
  unfold sampleCalibration
  repeat' first | simp only [keepM_mk, keepM_times, keepM_foldl, keepM_ite, apply_ite Prod.fst, apply_ite Prod.snd, ite_self, implies_true, loadRefs_keepM, readReference_keepM, sampleThreshold_keepM] | split | refine Eq.trans (keepM_foldl _ _ _ (fun _ _ => ?_)) ?_ | refine Eq.trans (keepM_foldl2 _ _ _ (fun _ _ => ?_)) ?_ | refine Eq.trans (keepM_times _ _ _ (fun _ => ?_)) ?_

@[simp] theorem cycleStart_keepM (s : State) : keepM (cycleStart s) = keepM s := by
  unfold cycleStart
  repeat' first | simp only [keepM_mk, keepM_times, keepM_foldl, keepM_ite, apply_ite Prod.fst, apply_ite Prod.snd, ite_self, implies_true, ageChannels_keepM, latchOverlay_keepM, drawBits_keepM, maintainChannels_keepM, sampleCalibration_keepM] | split

@[simp] theorem cycleStart_keepS (s : State) : keepS (cycleStart s) = keepS s := keepMS (cycleStart_keepM s)

@[simp] theorem cycleStart_keepA (s : State) : keepA (cycleStart s) = keepA s := keepSA (cycleStart_keepS s)

@[simp] theorem loadUnits_keepM (s : State) : keepM (loadUnits s) = keepM s := by
  unfold loadUnits
  repeat' first | simp only [keepM_mk, keepM_times, keepM_foldl, keepM_ite, apply_ite Prod.fst, apply_ite Prod.snd, ite_self, implies_true] | split

@[simp] theorem loadUnits_keepS (s : State) : keepS (loadUnits s) = keepS s := keepMS (loadUnits_keepM s)

@[simp] theorem loadUnits_keepA (s : State) : keepA (loadUnits s) = keepA s := keepSA (loadUnits_keepS s)

@[simp] theorem sendWithheld_keepM (s : State) : keepM (sendWithheld s) = keepM s := by
  unfold sendWithheld
  repeat' first | simp only [keepM_mk, keepM_times, keepM_foldl, keepM_ite, apply_ite Prod.fst, apply_ite Prod.snd, ite_self, implies_true, sendRelease_keepM] | split

@[simp] theorem drainNext_keepM (lln : ℕ) (s : State) : keepM (drainNext lln s) = keepM s := by
  unfold drainNext
  repeat' first | simp only [keepM_mk, keepM_times, keepM_foldl, keepM_ite, apply_ite Prod.fst, apply_ite Prod.snd, ite_self, implies_true, dirPut_keepM, flagMissed_keepM, drainTo_keepM] | split

@[simp] theorem rebuildStart_keepM (s : State) : keepM (rebuildStart s) = keepM s := by
  unfold rebuildStart
  repeat' first | simp only [keepM_mk, keepM_times, keepM_foldl, keepM_ite, apply_ite Prod.fst, apply_ite Prod.snd, ite_self, implies_true, rebuildBases_keepM, askAdmission_keepM, bulkAsk_keepM] | split

@[simp] theorem trainAgain_keepM (ch : ℕ) (s : State) : keepM (trainAgain ch s) = keepM s := by
  unfold trainAgain
  repeat' first | simp only [keepM_mk, keepM_times, keepM_foldl, keepM_ite, apply_ite Prod.fst, apply_ite Prod.snd, ite_self, implies_true, setCart_keepM, trainTo_keepM, trainCa_keepM, trainFail_keepM] | split

@[simp] theorem setFracs_keepE (port : ℕ) (first : ℕ) (fracs : List Byte) (f : Byte → Ld → Ld) (s : State) : keepE (setFracs port first fracs f s) = keepE s := by
  unfold setFracs
  repeat' first | simp only [keepE_mk, keepE_times, keepE_foldl, keepE_ite, apply_ite Prod.fst, apply_ite Prod.snd, ite_self, implies_true, setLd_keepE] | split

@[simp] theorem injectedAlerts_keepS (s : State) : keepS (injectedAlerts s) = keepS s := by
  unfold injectedAlerts
  repeat' first | simp only [keepS_mk, keepS_times, keepS_foldl, keepS_ite, apply_ite Prod.fst, apply_ite Prod.snd, ite_self, implies_true, fire_keepS, alertSample_keepS] | split

@[simp] theorem mailboxReset_keepS (p : ℕ) (s : State) : keepS (mailboxReset p s) = keepS s := by
  unfold mailboxReset
  repeat' first | simp only [keepS_mk, keepS_times, keepS_foldl, keepS_ite, apply_ite Prod.fst, apply_ite Prod.snd, ite_self, implies_true] | split

@[simp] theorem ceLeak_keepE (s : State) : keepE (ceLeak s) = keepE s := by
  unfold ceLeak
  repeat' first | simp only [keepE_mk, keepE_times, keepE_foldl, keepE_ite, apply_ite Prod.fst, apply_ite Prod.snd, ite_self, implies_true] | split

@[simp] theorem rejoinAdmission_keepM (r : ℕ) (lfn : ℕ) (s : State) : keepM (rejoinAdmission r lfn s) = keepM s := by
  unfold rejoinAdmission
  repeat' first | simp only [keepM_mk, keepM_times, keepM_foldl, keepM_ite, apply_ite Prod.fst, apply_ite Prod.snd, ite_self, implies_true, peerSend_keepM] | split

@[simp] theorem expose_keepM (i : ℕ) (rnum : BitVec 48) (recs : List (ℕ × BitVec 48)) (out : List (ℕ × BitVec 48)) (s : State) : keepM (expose i rnum recs out s) = keepM s := by
  unfold expose
  repeat' first | simp only [keepM_mk, keepM_times, keepM_foldl, keepM_ite, apply_ite Prod.fst, apply_ite Prod.snd, ite_self, implies_true, setLd_keepM, event_keepM] | split

@[simp] theorem loadShutdown_keepS (s : State) : keepS (loadShutdown s) = keepS s := by
  unfold loadShutdown
  repeat' first | simp only [keepS_mk, keepS_times, keepS_foldl, keepS_ite, apply_ite Prod.fst, apply_ite Prod.snd, ite_self, implies_true] | split

@[simp] theorem loadShutdown_keepA (s : State) : keepA (loadShutdown s) = keepA s := keepSA (loadShutdown_keepS s)

@[simp] theorem commandWrite_keepM (i : ℕ) (lln : ℕ) (data : Line) (poisoned : Bool) (s : State) : keepM (commandWrite i lln data poisoned s) = keepM s := by
  unfold commandWrite
  repeat' first | simp only [keepM_mk, keepM_times, keepM_foldl, keepM_ite, apply_ite Prod.fst, apply_ite Prod.snd, ite_self, implies_true, storeWrite_keepM, streamAll_keepM, updLoad_keepM, drainLine_keepM] | split

@[simp] theorem addRemoval_keepM (u : ℕ) (id : ℕ) (s : State) : keepM (addRemoval u id s) = keepM s := by
  unfold addRemoval
  repeat' first | simp only [keepM_mk, keepM_times, keepM_foldl, keepM_ite, apply_ite Prod.fst, apply_ite Prod.snd, ite_self, implies_true] | split

@[simp] theorem addRemoval_keepS (u : ℕ) (id : ℕ) (s : State) : keepS (addRemoval u id s) = keepS s := keepMS (addRemoval_keepM u id s)

@[simp] theorem ackStream_keepM (i : ℕ) (bseq : BitVec 48) (live : BitVec 29) (s : State) : keepM (ackStream i bseq live s) = keepM s := by
  unfold ackStream
  repeat' first | simp only [keepM_mk, keepM_times, keepM_foldl, keepM_ite, apply_ite Prod.fst, apply_ite Prod.snd, ite_self, implies_true, strictDone_keepM, setStream_keepM, updLoad_keepM] | split

@[simp] theorem testEnds_keepM (id : BitVec 16) (u : ℕ) (destr : Bool) (before : UState) (ok : Bool) (s : State) : keepM (testEnds id u destr before ok s) = keepM s := by
  unfold testEnds
  repeat' first | simp only [keepM_mk, keepM_times, keepM_foldl, keepM_ite, apply_ite Prod.fst, apply_ite Prod.snd, ite_self, implies_true, setTest_keepM, endJob_keepM, setUnit_keepM, drawBits_keepM, testBlocks_keepM, testFailure_keepM] | split

@[simp] theorem testEnds_keepS (id : BitVec 16) (u : ℕ) (destr : Bool) (before : UState) (ok : Bool) (s : State) : keepS (testEnds id u destr before ok s) = keepS s := keepMS (testEnds_keepM id u destr before ok s)

@[simp] theorem askKeys_keepM (r : ℕ) (s : State) : keepM (askKeys r s) = keepM s := by
  unfold askKeys
  repeat' first | simp only [keepM_mk, keepM_times, keepM_foldl, keepM_ite, apply_ite Prod.fst, apply_ite Prod.snd, ite_self, implies_true, peerSend_keepM] | split

@[simp] theorem enterSpan_keepM (d : SpanDesc) (r : ℕ) (st : ℕ) (s : State) : keepM (enterSpan d r st s) = keepM s := by
  unfold enterSpan
  repeat' first | simp only [keepM_mk, keepM_times, keepM_foldl, keepM_ite, apply_ite Prod.fst, apply_ite Prod.snd, ite_self, implies_true, setPeerSt_keepM] | split

@[simp] theorem pageDone_keepM (b : ℕ) (m : ℕ) (p : ℕ) (s : State) : keepM (pageDone b m p s) = keepM s := by
  unfold pageDone
  repeat' first | simp only [keepM_mk, keepM_times, keepM_foldl, keepM_ite, apply_ite Prod.fst, apply_ite Prod.snd, ite_self, implies_true, setMember_keepM, askReadback_keepM] | split

@[simp] theorem enableRail_keepS (r : ℕ) (s : State) : keepS (enableRail r s) = keepS s := by
  unfold enableRail
  repeat' first | simp only [keepS_mk, keepS_times, keepS_foldl, keepS_ite, apply_ite Prod.fst, apply_ite Prod.snd, ite_self, implies_true, setPower_keepS] | split

@[simp] theorem readmitBegin_keepS (u : ℕ) (s : State) : keepS (readmitBegin u s) = keepS s := by
  unfold readmitBegin
  repeat' first | simp only [keepS_mk, keepS_times, keepS_foldl, keepS_ite, apply_ite Prod.fst, apply_ite Prod.snd, ite_self, implies_true, sendPkt_keepS, send_keepS, askRaw_keepS, enableRail_keepS, startTraining_keepS, setPort_keepS] | split

@[simp] theorem dropOps_keepM (k : ℕ) (s : State) : keepM (dropOps k s) = keepM s := by
  unfold dropOps
  repeat' first | simp only [keepM_mk, keepM_times, keepM_foldl, keepM_ite, apply_ite Prod.fst, apply_ite Prod.snd, ite_self, implies_true, setBank_keepM] | split

@[simp] theorem reportLive_keepM (r : ℕ) (live : BitVec 29) (s : State) : keepM (reportLive r live s) = keepM s := by
  unfold reportLive
  repeat' first | simp only [keepM_mk, keepM_times, keepM_foldl, keepM_ite, apply_ite Prod.fst, apply_ite Prod.snd, ite_self, implies_true, setStream_keepM, updLoad_keepM] | split

@[simp] theorem reportLive_keepS (r : ℕ) (live : BitVec 29) (s : State) : keepS (reportLive r live s) = keepS s := keepMS (reportLive_keepM r live s)

@[simp] theorem fwBegin_keepS (c : Caller) (s : State) : keepS (fwBegin c s) = keepS s := by
  unfold fwBegin
  repeat' first | simp only [keepS_mk, keepS_times, keepS_foldl, keepS_ite, apply_ite Prod.fst, apply_ite Prod.snd, ite_self, implies_true] | split

@[simp] theorem raise_keepA (target : ℕ) (block : List Byte) (s : State) : keepA (raise target block s) = keepA s := by
  unfold raise
  repeat' first | simp only [keepA_mk, keepA_times, keepA_foldl, keepA_ite, apply_ite Prod.fst, apply_ite Prod.snd, ite_self, implies_true, setLevel_keepA, setSec_keepA] | split

@[simp] theorem qosHolds_keepM (p : ℕ) (i : ℕ) (s : State) : keepM (qosHolds p i s).2 = keepM s := by
  unfold qosHolds
  repeat' first | simp only [keepM_mk, keepM_times, keepM_foldl, keepM_ite, apply_ite Prod.fst, apply_ite Prod.snd, ite_self, implies_true, drawBool_keepM] | split

@[simp] theorem loadOption_keepS (s : State) : keepS (loadOption s) = keepS s := by
  unfold loadOption
  repeat' first | simp only [keepS_mk, keepS_times, keepS_foldl, keepS_ite, apply_ite Prod.fst, apply_ite Prod.snd, ite_self, implies_true] | split

@[simp] theorem loadOption_keepA (s : State) : keepA (loadOption s) = keepA s := keepSA (loadOption_keepS s)

@[simp] theorem issueClears_keepM (s : State) : keepM (issueClears s) = keepM s := by
  unfold issueClears
  repeat' first | simp only [keepM_mk, keepM_times, keepM_foldl, keepM_ite, apply_ite Prod.fst, apply_ite Prod.snd, ite_self, implies_true, tryFree_keepM, setBand_keepM, clearBand_keepM] | split

@[simp] theorem issueClears_keepS (s : State) : keepS (issueClears s) = keepS s := keepMS (issueClears_keepM s)

@[simp] theorem pruneSteps_keepS (s : State) : keepS (pruneSteps s) = keepS s := by
  unfold pruneSteps
  repeat' first | simp only [keepS_mk, keepS_times, keepS_foldl, keepS_ite, apply_ite Prod.fst, apply_ite Prod.snd, ite_self, implies_true, saveSteps_keepS] | split

@[simp] theorem reclaim_keepM (s : State) : keepM (reclaim s) = keepM s := by
  unfold reclaim
  repeat' first | simp only [keepM_mk, keepM_times, keepM_foldl, keepM_ite, apply_ite Prod.fst, apply_ite Prod.snd, ite_self, implies_true, reclaimBand_keepM] | split

@[simp] theorem reclaim_keepS (s : State) : keepS (reclaim s) = keepS s := keepMS (reclaim_keepM s)

@[simp] theorem applyBudget_keepS (s : State) : keepS (applyBudget s) = keepS s := by
  unfold applyBudget
  split
  · rfl
  · split
    · rfl
    · extract_lets g s1 s2 c w h
      have h1 : keepS s1 = keepS s := setPower_keepS _ _
      have h2 : keepS s2 = keepS s := (relayout_keepS _ _).trans h1
      clear_value s2 g
      exact (updLoad_keepS _).trans ((keepS_mk s2).trans h2)

@[simp] theorem refold_keepM (s : State) : keepM (refold s) = keepM s := by
  unfold refold
  repeat' first | simp only [keepM_mk, keepM_times, keepM_foldl, keepM_ite, apply_ite Prod.fst, apply_ite Prod.snd, ite_self, implies_true, event_keepM, refreshBand_keepM] | split

@[simp] theorem refold_keepS (s : State) : keepS (refold s) = keepS s := keepMS (refold_keepM s)

@[simp] theorem hbmScrub_keepM (s : State) : keepM (hbmScrub s) = keepM s := by
  unfold hbmScrub
  repeat' first | simp only [keepM_mk, keepM_times, keepM_foldl, keepM_ite, apply_ite Prod.fst, apply_ite Prod.snd, ite_self, implies_true, scrubUnit_keepM] | split

@[simp] theorem hbmScrub_keepS (s : State) : keepS (hbmScrub s) = keepS s := keepMS (hbmScrub_keepM s)

@[simp] theorem startMigration_keepM (lfn : ℕ) (s : State) : keepM (startMigration lfn s) = keepM s := by
  unfold startMigration
  repeat' first | simp only [keepM_mk, keepM_times, keepM_foldl, keepM_ite, apply_ite Prod.fst, apply_ite Prod.snd, ite_self, implies_true, startMove_keepM] | split

@[simp] theorem placeMoves_keepM (s : State) : keepM (placeMoves s) = keepM s := by
  unfold placeMoves
  repeat' first | simp only [keepM_mk, keepM_times, keepM_foldl, keepM_ite, apply_ite Prod.fst, apply_ite Prod.snd, ite_self, implies_true, startMigration_keepM, startPromotion_keepM] | split

@[simp] theorem placeMoves_keepS (s : State) : keepS (placeMoves s) = keepS s := keepMS (placeMoves_keepM s)

@[simp] theorem runMoves_keepM (s : State) : keepM (runMoves s) = keepM s := by
  unfold runMoves
  repeat' first | simp only [keepM_mk, keepM_times, keepM_foldl, keepM_ite, apply_ite Prod.fst, apply_ite Prod.snd, ite_self, implies_true, moveStep_keepM] | split

@[simp] theorem runMoves_keepS (s : State) : keepS (runMoves s) = keepS s := keepMS (runMoves_keepM s)

@[simp] theorem unstage_keepM (s : State) : keepM (unstage s) = keepM s := by
  unfold unstage
  repeat' first | simp only [keepM_mk, keepM_times, keepM_foldl, keepM_ite, apply_ite Prod.fst, apply_ite Prod.snd, ite_self, implies_true, makeDue_keepM] | split

@[simp] theorem unstage_keepS (s : State) : keepS (unstage s) = keepS s := keepMS (unstage_keepM s)

@[simp] theorem backgroundWork_keepS (s : State) : keepS (backgroundWork s) = keepS s := by
  unfold backgroundWork
  extract_lets s1 s2 s3 s4 s5 s6 s7 s8 s9 t s10 s11
  have h1 : keepS s1 = keepS s := (drainStage_keepS _).trans ((logPressure_keepS _).trans ((hbmScrub_keepS _).trans (recount_keepS _)))
  clear_value s1
  have h2 : keepS s2 = keepS s := (reclaim_keepS _).trans ((refold_keepS _).trans ((resettle_keepS _).trans h1))
  clear_value s2
  have h3 : keepS s3 = keepS s := (beyond_keepS _).trans ((unstage_keepS _).trans ((stage_keepS _).trans ((lostCopiesDue_keepS _).trans h2)))
  clear_value s3
  have h4 : keepS s4 = keepS s := (openFull_keepS _).trans ((placeDemotions_keepS _).trans ((placeMoves_keepS _).trans h3))
  clear_value s4
  have h5 : keepS s5 = keepS s := (runMoves_keepS _).trans ((issueClears_keepS _).trans h4)
  clear_value s5
  have h6 : keepS s6 = keepS s := (keepS_foldl _ _ _ (fun s p => compactForeign_keepS _ _)).trans h5
  clear_value s6
  have h7 : keepS s7 = keepS s := (scrubFrames_keepS _).trans ((issueScrub_keepS _).trans h6)
  clear_value s7
  have h8 : keepS s8 = keepS s := (isolateDrained_keepS _).trans h7
  clear_value s8
  have h9 : keepS s9 = keepS s := by
    refine (pruneSteps_keepS _).trans ?_
    split
    · exact (imageEnd_keepS _).trans h8
    · exact h8
  clear_value s9
  have h10 : keepS s10 = keepS s := by
    simp only [s10]; split
    · exact (keepS_mk s9).trans h9
    · exact h9
  clear_value s10
  have h11 : keepS s11 = keepS s := (mendFlushSets_keepS _).trans ((applyBudget_keepS _).trans h10)
  clear_value s11
  exact (keepS_foldl _ _ _ (fun s b => advanceBatch_keepS _ _)).trans h11

@[simp] theorem backgroundWork_keepA (s : State) : keepA (backgroundWork s) = keepA s := keepSA (backgroundWork_keepS s)

@[simp] theorem readDword_keepM (o : ℕ) (s : State) : keepM (readDword o s).2 = keepM s := by
  unfold readDword
  repeat' first | simp only [keepM_mk, keepM_times, keepM_foldl, keepM_ite, apply_ite Prod.fst, apply_ite Prod.snd, ite_self, implies_true, mbRead_keepM, drawBits_keepM] | split

@[simp] theorem begin_keepE (s : State) : keepE (begin s) = keepE s := by
  unfold begin
  repeat' first | simp only [keepE_mk, keepE_times, keepE_foldl, keepE_ite, apply_ite Prod.fst, apply_ite Prod.snd, ite_self, implies_true] | split

@[simp] theorem begin_keepM (s : State) : keepM (begin s) = keepM s := keepEM (begin_keepE s)

@[simp] theorem begin_keepS (s : State) : keepS (begin s) = keepS s := keepMS (begin_keepM s)

@[simp] theorem begin_keepA (s : State) : keepA (begin s) = keepA s := keepSA (begin_keepS s)

@[simp] theorem swkGot_keepM (tag : BitVec 32) (ok : Bool) (b : ReconBody) (s : State) : keepM (swkGot tag ok b s) = keepM s := by
  unfold swkGot
  repeat' first | simp only [keepM_mk, keepM_times, keepM_foldl, keepM_ite, apply_ite Prod.fst, apply_ite Prod.snd, ite_self, implies_true, storeSwk_keepM] | split

@[simp] theorem addWard_keepM (pool : ℕ) (s : State) : keepM (addWard pool s) = keepM s := by
  unfold addWard
  repeat' first | simp only [keepM_mk, keepM_times, keepM_foldl, keepM_ite, apply_ite Prod.fst, apply_ite Prod.snd, ite_self, implies_true, takeSet_keepM] | split | refine Eq.trans (keepM_foldl _ _ _ (fun _ _ => ?_)) ?_ | refine Eq.trans (keepM_foldl2 _ _ _ (fun _ _ => ?_)) ?_ | refine Eq.trans (keepM_times _ _ _ (fun _ => ?_)) ?_

@[simp] theorem phase1End_keepA (s : State) : keepA (phase1End s) = keepA s := by
  unfold phase1End
  have h0 : keepA (loadShutdown (loadKeys (loadSpan (loadUnits (loadOption (resolveAll s)))))) = keepA s := by
    rw [loadShutdown_keepA, loadKeys_keepA, loadSpan_keepA, loadUnits_keepA, loadOption_keepA, resolveAll_keepA]
  generalize (loadShutdown (loadKeys (loadSpan (loadUnits (loadOption (resolveAll s)))))) = s0 at *
  extract_lets t s2
  split
  · exact (keepA_mk s0).trans h0
  · exact (startOn_keepA _).trans h0

@[simp] theorem trainDone_keepM (ch : ℕ) (s : State) : keepM (trainDone ch s) = keepM s := by
  unfold trainDone
  repeat' first | simp only [keepM_mk, keepM_times, keepM_foldl, keepM_ite, apply_ite Prod.fst, apply_ite Prod.snd, ite_self, implies_true, setCart_keepM, endJob_keepM, setUnit_keepM, markFailed_keepM, loadRefs_keepM] | split

@[simp] theorem noticeDatahi_keepE (s : State) : keepE (noticeDatahi s) = keepE s := by
  unfold noticeDatahi
  repeat' first | simp only [keepE_mk, keepE_times, keepE_foldl, keepE_ite, apply_ite Prod.fst, apply_ite Prod.snd, ite_self, implies_true, send_keepE, setQ_keepE] | split

@[simp] theorem jobShown_keepM (s : State) (c : Caller) (id : ℕ) : keepM (jobShown s c id).2 = keepM s := by
  unfold jobShown
  repeat' first | simp only [keepM_mk, keepM_times, keepM_foldl, keepM_ite, apply_ite Prod.fst, apply_ite Prod.snd, ite_self, implies_true, drawBits_keepM] | split

@[simp] theorem powerOn_keepS (s : State) : keepS (powerOn s) = keepS s := by
  unfold powerOn
  repeat' first | simp only [keepS_mk, keepS_times, keepS_foldl, keepS_ite, apply_ite Prod.fst, apply_ite Prod.snd, ite_self, implies_true, setPower_keepS, offTable_keepS, startOn_keepS] | split

@[simp] theorem peerFlush_keepM (r : ℕ) (s : State) : keepM (peerFlush r s) = keepM s := by
  unfold peerFlush
  repeat' first | simp only [keepM_mk, keepM_times, keepM_foldl, keepM_ite, apply_ite Prod.fst, apply_ite Prod.snd, ite_self, implies_true, peerSend_keepM, setPeer_keepM] | split

@[simp] theorem peerFlush_keepS (r : ℕ) (s : State) : keepS (peerFlush r s) = keepS s := keepMS (peerFlush_keepM r s)

@[simp] theorem peerFlush_keepA (r : ℕ) (s : State) : keepA (peerFlush r s) = keepA s := keepSA (peerFlush_keepS r s)

@[simp] theorem remountAdvance_keepM (s : State) : keepM (remountAdvance s) = keepM s := by
  unfold remountAdvance
  repeat' first | simp only [keepM_mk, keepM_times, keepM_foldl, keepM_ite, apply_ite Prod.fst, apply_ite Prod.snd, ite_self, implies_true, remountAsk_keepM, setOwnSt_keepM, endJob_keepM] | split

@[simp] theorem setMap_keepM (s : State) : keepM (setMap s) = keepM s := by
  unfold setMap
  repeat' first | simp only [keepM_mk, keepM_times, keepM_foldl, keepM_ite, apply_ite Prod.fst, apply_ite Prod.snd, ite_self, implies_true] | split

@[simp] theorem setMap_keepS (s : State) : keepS (setMap s) = keepS s := keepMS (setMap_keepM s)

@[simp] theorem setMap_keepA (s : State) : keepA (setMap s) = keepA s := keepSA (setMap_keepS s)

@[simp] theorem acceptOffers_keepM (i : ℕ) (exts : List Extent) (s : State) : keepM (acceptOffers i exts s) = keepM s := by
  unfold acceptOffers
  repeat' first | simp only [keepM_mk, keepM_times, keepM_foldl, keepM_ite, apply_ite Prod.fst, apply_ite Prod.snd, ite_self, implies_true, setLd_keepM, addRanges_keepM] | split

@[simp] theorem dieFault_keepM (ch : ℕ) (die : ℕ) (cause : ℕ) (s : State) : keepM (dieFault ch die cause s) = keepM s := by
  unfold dieFault
  repeat' first | simp only [keepM_mk, keepM_times, keepM_foldl, keepM_ite, apply_ite Prod.fst, apply_ite Prod.snd, ite_self, implies_true, sendPkt_keepM, dropWork_keepM, setCart_keepM, detectorIsolates_keepM, setStack_keepM, event_keepM] | split

@[simp] theorem railBack_keepM (r : ℕ) (s : State) : keepM (railBack r s) = keepM s := by
  unfold railBack
  repeat' first | simp only [keepM_mk, keepM_times, keepM_foldl, keepM_ite, apply_ite Prod.fst, apply_ite Prod.snd, ite_self, implies_true, trainLink_keepM, markFailed_keepM, startTraining_keepM] | split

@[simp] theorem railBack_keepS (r : ℕ) (s : State) : keepS (railBack r s) = keepS s := keepMS (railBack_keepM r s)

@[simp] theorem railReadmitted_keepS (r : ℕ) (s : State) : keepS (railReadmitted r s) = keepS s := by
  unfold railReadmitted
  repeat' first | simp only [keepS_mk, keepS_times, keepS_foldl, keepS_ite, apply_ite Prod.fst, apply_ite Prod.snd, ite_self, implies_true, setPower_keepS, endJob_keepS, railBack_keepS, setUnit_keepS] | split

@[simp] theorem dieReadmitted_keepM (die : ℕ) (good : Bool) (s : State) : keepM (dieReadmitted die good s) = keepM s := by
  unfold dieReadmitted
  repeat' first | simp only [keepM_mk, keepM_times, keepM_foldl, keepM_ite, apply_ite Prod.fst, apply_ite Prod.snd, ite_self, implies_true, setCart_keepM, endJob_keepM, setUnit_keepM, markFailed_keepM, loadRefs_keepM] | split

@[simp] theorem setSpdm_keepE (p : ℕ) (st : SpdmStage) (s : State) : keepE (setSpdm p st s) = keepE s := by
  unfold setSpdm
  repeat' first | simp only [keepE_mk, keepE_times, keepE_foldl, keepE_ite, apply_ite Prod.fst, apply_ite Prod.snd, ite_self, implies_true, setPort_keepE] | split

@[simp] theorem setSpdm_keepM (p : ℕ) (st : SpdmStage) (s : State) : keepM (setSpdm p st s) = keepM s := keepEM (setSpdm_keepE p st s)

@[simp] theorem ageCounts_keepM (old : ℕ) (n : ℕ) (s : State) : keepM (ageCounts old n s) = keepM s := by
  unfold ageCounts
  repeat' first | simp only [keepM_mk, keepM_times, keepM_foldl, keepM_ite, apply_ite Prod.fst, apply_ite Prod.snd, ite_self, implies_true] | split

@[simp] theorem ageCounts_keepS (old : ℕ) (n : ℕ) (s : State) : keepS (ageCounts old n s) = keepS s := keepMS (ageCounts_keepM old n s)

@[simp] theorem ageCounts_keepA (old : ℕ) (n : ℕ) (s : State) : keepA (ageCounts old n s) = keepA s := keepSA (ageCounts_keepS old n s)

@[simp] theorem setWindows_keepM (s : State) : keepM (setWindows s) = keepM s := by
  unfold setWindows
  repeat' first | simp only [keepM_mk, keepM_times, keepM_foldl, keepM_ite, apply_ite Prod.fst, apply_ite Prod.snd, ite_self, implies_true, abandonBatch_keepM] | split | refine Eq.trans (keepM_foldl _ _ _ (fun _ _ => ?_)) ?_ | refine Eq.trans (keepM_foldl2 _ _ _ (fun _ _ => ?_)) ?_ | refine Eq.trans (keepM_times _ _ _ (fun _ => ?_)) ?_

@[simp] theorem setWindows_keepS (s : State) : keepS (setWindows s) = keepS s := keepMS (setWindows_keepM s)

@[simp] theorem setWindows_keepA (s : State) : keepA (setWindows s) = keepA s := keepSA (setWindows_keepS s)

@[simp] theorem readHeld_keepM (p : ℕ) (i : ℕ) (s : State) : keepM (readHeld p i s).2 = keepM s := by
  unfold readHeld
  repeat' first | simp only [keepM_mk, keepM_times, keepM_foldl, keepM_ite, apply_ite Prod.fst, apply_ite Prod.snd, ite_self, implies_true, brakeHolds_keepM, drawBool_keepM] | split

@[simp] theorem unitAct_keepS (o : UnitOp) (destr : Bool) (op : ℕ) (c : Caller) (u : ℕ) (s : State) : keepS (unitAct o destr op c u s).2 = keepS s := by
  unfold unitAct
  repeat' first | simp only [keepS_mk, keepS_times, keepS_foldl, keepS_ite, apply_ite Prod.fst, apply_ite Prod.snd, ite_self, implies_true, addRemoval_keepS, endJob_keepS, readmitBegin_keepS, vStart_keepS, setUnit_keepS] | split

@[simp] theorem unitAct_keepA (o : UnitOp) (destr : Bool) (op : ℕ) (c : Caller) (u : ℕ) (s : State) : keepA (unitAct o destr op c u s).2 = keepA s := keepSA (unitAct_keepS o destr op c u s)

@[simp] theorem swkAdvance_keepM (s : State) : keepM (swkAdvance s) = keepM s := by
  unfold swkAdvance
  repeat' first | simp only [keepM_mk, keepM_times, keepM_foldl, keepM_ite, apply_ite Prod.fst, apply_ite Prod.snd, ite_self, implies_true, storeSwk_keepM, peerSend_keepM, drawBits_keepM] | split

@[simp] theorem unbackedRead_keepE (p : ℕ) (l : ℕ) (hpa : ℕ) (tag : BitVec 16) (s : State) : keepE (unbackedRead p l hpa tag s) = keepE s := by
  unfold unbackedRead
  repeat' first | simp only [keepE_mk, keepE_times, keepE_foldl, keepE_ite, apply_ite Prod.fst, apply_ite Prod.snd, ite_self, implies_true, send_keepE, unbackedEvent_keepE] | split

@[simp] theorem unbackedRead_keepM (p : ℕ) (l : ℕ) (hpa : ℕ) (tag : BitVec 16) (s : State) : keepM (unbackedRead p l hpa tag s) = keepM s := keepEM (unbackedRead_keepE p l hpa tag s)

@[simp] theorem baseGot_keepM (r : ℕ) (q : SpanRead) (part : ℕ) (parts : ℕ) (ok : Bool) (b : ReconBody) (s : State) : keepM (baseGot r q part parts ok b s) = keepM s := by
  unfold baseGot
  repeat' first | simp only [keepM_mk, keepM_times, keepM_foldl, keepM_ite, apply_ite Prod.fst, apply_ite Prod.snd, ite_self, implies_true, setRead_keepM] | split

@[simp] theorem checkFrame_keepM (ch : ℕ) (kind : ℕ) (h : FrameHdr) (crcGood : Bool) (s : State) : keepM (checkFrame ch kind h crcGood s).2 = keepM s := by
  unfold checkFrame
  repeat' first | simp only [keepM_mk, keepM_times, keepM_foldl, keepM_ite, apply_ite Prod.fst, apply_ite Prod.snd, ite_self, implies_true, fire_keepM, setCart_keepM, event_keepM] | split

@[simp] theorem checkFrame_keepS (ch : ℕ) (kind : ℕ) (h : FrameHdr) (crcGood : Bool) (s : State) : keepS (checkFrame ch kind h crcGood s).2 = keepS s := keepMS (checkFrame_keepM ch kind h crcGood s)

@[simp] theorem checkFrame_keepA (ch : ℕ) (kind : ℕ) (h : FrameHdr) (crcGood : Bool) (s : State) : keepA (checkFrame ch kind h crcGood s).2 = keepA s := keepSA (checkFrame_keepS ch kind h crcGood s)

@[simp] theorem spanWork_keepM (s : State) : keepM (spanWork s) = keepM s := by
  unfold spanWork
  repeat' first | simp only [keepM_mk, keepM_times, keepM_foldl, keepM_ite, apply_ite Prod.fst, apply_ite Prod.snd, ite_self, implies_true, peerFlush_keepM, sendWithheld_keepM, remountAdvance_keepM, reseed_keepM, swkAdvance_keepM, rebuildStart_keepM, joinAdvance_keepM, rebuildPoll_keepM, outriderFill_keepM] | split

@[simp] theorem spanWork_keepS (s : State) : keepS (spanWork s) = keepS s := keepMS (spanWork_keepM s)

@[simp] theorem spanWork_keepA (s : State) : keepA (spanWork s) = keepA s := keepSA (spanWork_keepS s)

@[simp] theorem hostRead_keepM (p : ℕ) (l : ℕ) (tag : BitVec 16) (lln : ℕ) (s : State) : keepM (hostRead p l tag lln s) = keepM s := by
  unfold hostRead
  repeat' first | simp only [keepM_mk, keepM_times, keepM_foldl, keepM_ite, apply_ite Prod.fst, apply_ite Prod.snd, ite_self, implies_true, hostLook_keepM, addReq_keepM] | split

end Sys2Proof.Machine
end

