-- ==== Sys2Proof/Laws/Endings.lean ====
section
/-! SUPPORT. What the operations that take an action leave alone, when the action does: `ran`, the mailbox and packet wrappers. -/

set_option linter.all false

namespace Sys2Proof.Machine

theorem answers_ite {c : Prop} [Decidable c] {a b : Res} {P : State → Prop} (ha : Answers a P) (hb : Answers b P) :
    Answers (if c then a else b) P := by split <;> assumption

theorem mbAccess_keepS (slot u : Nat) (f : State → State) (s : State) (h : ∀ s, keepS (f s) = keepS s) :
    keepS (mbAccess slot u f s) = keepS s := by
  unfold mbAccess
  split
  · exact send_keepS _ _
  · exact (h _).trans (wakeUnit_keepS _ _)

theorem onPacket_keepS (ch op : Nat) (p : Pkt) (act : State → State) (s : State) (h : ∀ s, keepS (act s) = keepS s) :
    keepS (onPacket ch op p act s) = keepS s := by
  unfold onPacket
  split
  · rfl
  · extract_lets u hit s1 chk
    have h1 : keepS s1 = keepS s := by simp only [s1]; split <;> simp only [fire_keepS]
    repeat' split
    all_goals simp only [h, h1, send_keepS, queueEvent_keepS, illegalPkt_keepS]

theorem mbAccess_keepA (slot u : Nat) (f : State → State) (s : State) (h : ∀ s, keepA (f s) = keepA s) :
    keepA (mbAccess slot u f s) = keepA s := by
  unfold mbAccess
  split
  · exact send_keepA _ _
  · exact (h _).trans (wakeUnit_keepA _ _)

theorem onPacket_keepA (ch op : Nat) (p : Pkt) (act : State → State) (s : State) (h : ∀ s, keepA (act s) = keepA s) :
    keepA (onPacket ch op p act s) = keepA s := by
  unfold onPacket
  split
  · rfl
  · extract_lets u hit s1 chk
    have h1 : keepA s1 = keepA s := by simp only [s1]; split <;> simp only [fire_keepA]
    repeat' split
    all_goals simp only [h, h1, send_keepA, queueEvent_keepA, illegalPkt_keepA]

theorem afterAlgs_keepE (p : Nat) (f : State → State) (s : State) (h : ∀ s, keepE (f s) = keepE s) : keepE (afterAlgs p f s) = keepE s := by
  unfold afterAlgs
  split
  · exact h s
  · exact spdmErr_keepE _ _ _

theorem afterAlgs_keepM (p : Nat) (f : State → State) (s : State) (h : ∀ s, keepM (f s) = keepM s) : keepM (afterAlgs p f s) = keepM s := by
  unfold afterAlgs
  split
  · exact h s
  · exact spdmErr_keepM _ _ _

theorem afterAlgs_keepS (p : Nat) (f : State → State) (s : State) (h : ∀ s, keepS (f s) = keepS s) : keepS (afterAlgs p f s) = keepS s := by
  unfold afterAlgs
  split
  · exact h s
  · exact spdmErr_keepS _ _ _

theorem afterAlgs_keepA (p : Nat) (f : State → State) (s : State) (h : ∀ s, keepA (f s) = keepA s) : keepA (afterAlgs p f s) = keepA s := by
  unfold afterAlgs
  split
  · exact h s
  · exact spdmErr_keepA _ _ _

theorem inSession_keepE (p : Nat) (w : Word) (f : State → State) (s : State) (h : ∀ s, keepE (f s) = keepE s) : keepE (inSession p w f s) = keepE s := by
  unfold inSession
  repeat' split
  all_goals first | exact h s | exact spdmErr_keepE _ _ _

theorem inSession_keepM (p : Nat) (w : Word) (f : State → State) (s : State) (h : ∀ s, keepM (f s) = keepM s) : keepM (inSession p w f s) = keepM s := by
  unfold inSession
  repeat' split
  all_goals first | exact h s | exact spdmErr_keepM _ _ _

theorem inSession_keepS (p : Nat) (w : Word) (f : State → State) (s : State) (h : ∀ s, keepS (f s) = keepS s) : keepS (inSession p w f s) = keepS s := by
  unfold inSession
  repeat' split
  all_goals first | exact h s | exact spdmErr_keepS _ _ _

theorem inSession_keepA (p : Nat) (w : Word) (f : State → State) (s : State) (h : ∀ s, keepA (f s) = keepA s) : keepA (inSession p w f s) = keepA s := by
  unfold inSession
  repeat' split
  all_goals first | exact h s | exact spdmErr_keepA _ _ _

theorem onLd_keepE (c : Caller) (b : Byte) (f : Nat → State → CAns × State) (s : State) (h : ∀ i s, keepE (f i s).2 = keepE s) : keepE (onLd c b f s).2 = keepE s := by
  unfold onLd
  split
  · exact h _ s
  · rfl

theorem onLd_keepM (c : Caller) (b : Byte) (f : Nat → State → CAns × State) (s : State) (h : ∀ i s, keepM (f i s).2 = keepM s) : keepM (onLd c b f s).2 = keepM s := by
  unfold onLd
  split
  · exact h _ s
  · rfl

theorem onLd_keepS (c : Caller) (b : Byte) (f : Nat → State → CAns × State) (s : State) (h : ∀ i s, keepS (f i s).2 = keepS s) : keepS (onLd c b f s).2 = keepS s := by
  unfold onLd
  split
  · exact h _ s
  · rfl

theorem onLd_keepA (c : Caller) (b : Byte) (f : Nat → State → CAns × State) (s : State) (h : ∀ i s, keepA (f i s).2 = keepA s) : keepA (onLd c b f s).2 = keepA s := by
  unfold onLd
  split
  · exact h _ s
  · rfl

theorem onPoison_keepE (c : Caller) (b : Byte) (a : BitVec 46) (f : Nat → Nat → State → State) (s : State) (h : ∀ i l s, keepE (f i l s) = keepE s) : keepE (onPoison c b a f s).2 = keepE s := by
  unfold onPoison
  refine onLd_keepE _ _ _ _ (fun i s => ?_)
  repeat' split
  all_goals first | rfl | exact h _ _ _

theorem onPoison_keepM (c : Caller) (b : Byte) (a : BitVec 46) (f : Nat → Nat → State → State) (s : State) (h : ∀ i l s, keepM (f i l s) = keepM s) : keepM (onPoison c b a f s).2 = keepM s := by
  unfold onPoison
  refine onLd_keepM _ _ _ _ (fun i s => ?_)
  repeat' split
  all_goals first | rfl | exact h _ _ _

theorem onPoison_keepS (c : Caller) (b : Byte) (a : BitVec 46) (f : Nat → Nat → State → State) (s : State) (h : ∀ i l s, keepS (f i l s) = keepS s) : keepS (onPoison c b a f s).2 = keepS s := by
  unfold onPoison
  refine onLd_keepS _ _ _ _ (fun i s => ?_)
  repeat' split
  all_goals first | rfl | exact h _ _ _

theorem onPoison_keepA (c : Caller) (b : Byte) (a : BitVec 46) (f : Nat → Nat → State → State) (s : State) (h : ∀ i l s, keepA (f i l s) = keepA s) : keepA (onPoison c b a f s).2 = keepA s := by
  unfold onPoison
  refine onLd_keepA _ _ _ _ (fun i s => ?_)
  repeat' split
  all_goals first | rfl | exact h _ _ _

theorem vQuery_keepE (f : State → List Byte) (s : State) : keepE (vQuery f s).2 = keepE s := rfl

theorem vQuery_keepM (f : State → List Byte) (s : State) : keepM (vQuery f s).2 = keepM s := rfl

theorem vQuery_keepS (f : State → List Byte) (s : State) : keepS (vQuery f s).2 = keepS s := rfl

theorem vQuery_keepA (f : State → List Byte) (s : State) : keepA (vQuery f s).2 = keepA s := rfl

theorem vWrite_keepE (rs : State → List SbReq) (eff : State → State) (s : State) (h : ∀ s, keepE (eff s) = keepE s) : keepE (vWrite rs eff s).2 = keepE s := by
  unfold vWrite
  extract_lets r
  split
  · exact (h _).trans (sbCommand_keepE _ _)
  · exact sbCommand_keepE _ _

theorem vWrite_keepM (rs : State → List SbReq) (eff : State → State) (s : State) (h : ∀ s, keepM (eff s) = keepM s) : keepM (vWrite rs eff s).2 = keepM s := by
  unfold vWrite
  extract_lets r
  split
  · exact (h _).trans (sbCommand_keepM _ _)
  · exact sbCommand_keepM _ _

theorem vWrite_keepS (rs : State → List SbReq) (eff : State → State) (s : State) (h : ∀ s, keepS (eff s) = keepS s) : keepS (vWrite rs eff s).2 = keepS s := by
  unfold vWrite
  extract_lets r
  split
  · exact (h _).trans (sbCommand_keepS _ _)
  · exact sbCommand_keepS _ _

theorem vWrite_keepA (rs : State → List SbReq) (eff : State → State) (s : State) (h : ∀ s, keepA (eff s) = keepA s) : keepA (vWrite rs eff s).2 = keepA s := by
  unfold vWrite
  extract_lets r
  split
  · exact (h _).trans (sbCommand_keepA _ _)
  · exact sbCommand_keepA _ _

theorem vStartWrite_keepM (op : Nat) (c : Caller) (k : JobKind) (rs : State → List SbReq) (eff : State → State) (s : State) (h : ∀ s, keepM (eff s) = keepM s) : keepM (vStartWrite op c k rs eff s).2 = keepM s := by
  unfold vStartWrite
  split
  · rfl
  · extract_lets r
    split
    · exact (vStart_keepM _ _ _ _).trans ((h _).trans (sbCommand_keepM _ _))
    · exact sbCommand_keepM _ _

theorem vStartWrite_keepS (op : Nat) (c : Caller) (k : JobKind) (rs : State → List SbReq) (eff : State → State) (s : State) (h : ∀ s, keepS (eff s) = keepS s) : keepS (vStartWrite op c k rs eff s).2 = keepS s := by
  unfold vStartWrite
  split
  · rfl
  · extract_lets r
    split
    · exact (vStart_keepS _ _ _ _).trans ((h _).trans (sbCommand_keepS _ _))
    · exact sbCommand_keepS _ _

theorem vStartWrite_keepA (op : Nat) (c : Caller) (k : JobKind) (rs : State → List SbReq) (eff : State → State) (s : State) (h : ∀ s, keepA (eff s) = keepA s) : keepA (vStartWrite op c k rs eff s).2 = keepA s := by
  unfold vStartWrite
  split
  · rfl
  · extract_lets r
    split
    · exact (vStart_keepA _ _ _ _).trans ((h _).trans (sbCommand_keepA _ _))
    · exact sbCommand_keepA _ _

theorem ran_keepE (x s : State) (h : keepE x = keepE s) : Answers (ran x) (fun t => keepE t = keepE s) :=
  ⟨_, rfl, (settle_keepE _).trans ((linkInject_keepE _).trans ((gpfSettle_keepE _).trans h))⟩

theorem ran_keepM (x s : State) (h : keepM x = keepM s) : Answers (ran x) (fun t => keepM t = keepM s) :=
  ⟨_, rfl, (settle_keepM _).trans ((linkInject_keepM _).trans ((gpfSettle_keepM _).trans h))⟩

theorem ran_keepS (x s : State) (h : keepS x = keepS s) : Answers (ran x) (fun t => keepS t = keepS s) :=
  ⟨_, rfl, (settle_keepS _).trans ((linkInject_keepS _).trans ((gpfSettle_keepS _).trans h))⟩

theorem ran_keepA (x s : State) (h : keepA x = keepA s) : Answers (ran x) (fun t => keepA t = keepA s) :=
  ⟨_, rfl, (settle_keepA _).trans ((linkInject_keepA _).trans ((gpfSettle_keepA _).trans h))⟩

theorem onCxl_keepE (c : Caller) (fm memory : Bool) (act : State → CAns × State) (after : State → State) (s : State)
    (ha : ∀ s, keepE (act s).2 = keepE s) (hb : ∀ s, keepE (after s) = keepE s) : Answers (onCxl c fm memory act after s) (fun t => keepE t = keepE s) := by
  have h0 : keepE (begin s) = keepE s := begin_keepE s
  unfold onCxl
  extract_lets s1 r s2
  have h2 : keepE s2 = keepE s := (send_keepE _ _).trans ((ha _).trans h0)
  clear_value s2
  repeat' split
  all_goals refine ran_keepE _ _ ?_
  all_goals first | exact h0 | exact (send_keepE _ _).trans h0 | exact h2 | exact (hb _).trans h2

theorem onCxl_keepM (c : Caller) (fm memory : Bool) (act : State → CAns × State) (after : State → State) (s : State)
    (ha : ∀ s, keepM (act s).2 = keepM s) (hb : ∀ s, keepM (after s) = keepM s) : Answers (onCxl c fm memory act after s) (fun t => keepM t = keepM s) := by
  have h0 : keepM (begin s) = keepM s := begin_keepM s
  unfold onCxl
  extract_lets s1 r s2
  have h2 : keepM s2 = keepM s := (send_keepM _ _).trans ((ha _).trans h0)
  clear_value s2
  repeat' split
  all_goals refine ran_keepM _ _ ?_
  all_goals first | exact h0 | exact (send_keepM _ _).trans h0 | exact h2 | exact (hb _).trans h2

theorem onCxl_keepS (c : Caller) (fm memory : Bool) (act : State → CAns × State) (after : State → State) (s : State)
    (ha : ∀ s, keepS (act s).2 = keepS s) (hb : ∀ s, keepS (after s) = keepS s) : Answers (onCxl c fm memory act after s) (fun t => keepS t = keepS s) := by
  have h0 : keepS (begin s) = keepS s := begin_keepS s
  unfold onCxl
  extract_lets s1 r s2
  have h2 : keepS s2 = keepS s := (send_keepS _ _).trans ((ha _).trans h0)
  clear_value s2
  repeat' split
  all_goals refine ran_keepS _ _ ?_
  all_goals first | exact h0 | exact (send_keepS _ _).trans h0 | exact h2 | exact (hb _).trans h2

theorem onCxl_keepA (c : Caller) (fm memory : Bool) (act : State → CAns × State) (after : State → State) (s : State)
    (ha : ∀ s, keepA (act s).2 = keepA s) (hb : ∀ s, keepA (after s) = keepA s) : Answers (onCxl c fm memory act after s) (fun t => keepA t = keepA s) := by
  have h0 : keepA (begin s) = keepA s := begin_keepA s
  unfold onCxl
  extract_lets s1 r s2
  have h2 : keepA s2 = keepA s := (send_keepA _ _).trans ((ha _).trans h0)
  clear_value s2
  repeat' split
  all_goals refine ran_keepA _ _ ?_
  all_goals first | exact h0 | exact (send_keepA _ _).trans h0 | exact h2 | exact (hb _).trans h2

theorem onVendor_keepE (v : VSpec) (c : Caller) (inp : List Byte) (early late : State → Option VAns) (act : State → VAns × State) (after : State → State) (s : State)
    (ha : ∀ s, keepE (act s).2 = keepE s) (hb : ∀ s, keepE (after s) = keepE s) : Answers (onVendor v c inp early late act after s) (fun t => keepE t = keepE s) := by
  have h0 : keepE (begin s) = keepE s := begin_keepE s
  unfold onVendor
  extract_lets s1 r s2
  have h2 : keepE s2 = keepE s := (send_keepE _ _).trans ((ha _).trans h0)
  clear_value s2
  repeat' split
  all_goals refine ran_keepE _ _ ?_
  all_goals first | exact h0 | exact (send_keepE _ _).trans h0 | exact h2 | exact (hb _).trans h2

theorem onVendor_keepM (v : VSpec) (c : Caller) (inp : List Byte) (early late : State → Option VAns) (act : State → VAns × State) (after : State → State) (s : State)
    (ha : ∀ s, keepM (act s).2 = keepM s) (hb : ∀ s, keepM (after s) = keepM s) : Answers (onVendor v c inp early late act after s) (fun t => keepM t = keepM s) := by
  have h0 : keepM (begin s) = keepM s := begin_keepM s
  unfold onVendor
  extract_lets s1 r s2
  have h2 : keepM s2 = keepM s := (send_keepM _ _).trans ((ha _).trans h0)
  clear_value s2
  repeat' split
  all_goals refine ran_keepM _ _ ?_
  all_goals first | exact h0 | exact (send_keepM _ _).trans h0 | exact h2 | exact (hb _).trans h2

theorem onVendor_keepS (v : VSpec) (c : Caller) (inp : List Byte) (early late : State → Option VAns) (act : State → VAns × State) (after : State → State) (s : State)
    (ha : ∀ s, keepS (act s).2 = keepS s) (hb : ∀ s, keepS (after s) = keepS s) : Answers (onVendor v c inp early late act after s) (fun t => keepS t = keepS s) := by
  have h0 : keepS (begin s) = keepS s := begin_keepS s
  unfold onVendor
  extract_lets s1 r s2
  have h2 : keepS s2 = keepS s := (send_keepS _ _).trans ((ha _).trans h0)
  clear_value s2
  repeat' split
  all_goals refine ran_keepS _ _ ?_
  all_goals first | exact h0 | exact (send_keepS _ _).trans h0 | exact h2 | exact (hb _).trans h2

theorem onVendor_keepA (v : VSpec) (c : Caller) (inp : List Byte) (early late : State → Option VAns) (act : State → VAns × State) (after : State → State) (s : State)
    (ha : ∀ s, keepA (act s).2 = keepA s) (hb : ∀ s, keepA (after s) = keepA s) : Answers (onVendor v c inp early late act after s) (fun t => keepA t = keepA s) := by
  have h0 : keepA (begin s) = keepA s := begin_keepA s
  unfold onVendor
  extract_lets s1 r s2
  have h2 : keepA s2 = keepA s := (send_keepA _ _).trans ((ha _).trans h0)
  clear_value s2
  repeat' split
  all_goals refine ran_keepA _ _ ?_
  all_goals first | exact h0 | exact (send_keepA _ _).trans h0 | exact h2 | exact (hb _).trans h2

theorem onDoe_keepE (p : Nat) (f : State → State) (s : State) (h : ∀ s, keepE (f s) = keepE s) : Answers (onDoe p f s) (fun t => keepE t = keepE s) := by
  unfold onDoe
  extract_lets s1
  split
  all_goals refine ran_keepE _ _ ?_
  · exact begin_keepE s
  · exact (h _).trans (begin_keepE s)

theorem onDoe_keepM (p : Nat) (f : State → State) (s : State) (h : ∀ s, keepM (f s) = keepM s) : Answers (onDoe p f s) (fun t => keepM t = keepM s) := by
  unfold onDoe
  extract_lets s1
  split
  all_goals refine ran_keepM _ _ ?_
  · exact begin_keepM s
  · exact (h _).trans (begin_keepM s)

theorem onDoe_keepS (p : Nat) (f : State → State) (s : State) (h : ∀ s, keepS (f s) = keepS s) : Answers (onDoe p f s) (fun t => keepS t = keepS s) := by
  unfold onDoe
  extract_lets s1
  split
  all_goals refine ran_keepS _ _ ?_
  · exact begin_keepS s
  · exact (h _).trans (begin_keepS s)

theorem onDoe_keepA (p : Nat) (f : State → State) (s : State) (h : ∀ s, keepA (f s) = keepA s) : Answers (onDoe p f s) (fun t => keepA t = keepA s) := by
  unfold onDoe
  extract_lets s1
  split
  all_goals refine ran_keepA _ _ ?_
  · exact begin_keepA s
  · exact (h _).trans (begin_keepA s)

theorem onCmb_keepM (slot ch msg : Nat) (m : Option CmbMsg) (serve : State → State) (s : State) (h : ∀ s, keepM (serve s) = keepM s) : Answers (onCmb slot ch msg m serve s) (fun t => keepM t = keepM s) := by
  unfold onCmb
  refine ran_keepM _ _ ((mbAccess_keepM _ _ _ _ (fun s => ?_)).trans (begin_keepM s))
  split
  · next x =>
      refine Eq.trans (b := keepM (cmbOffer slot ch msg x s).2) ?_ (cmbOffer_keepM _ _ _ _ _)
      generalize cmbOffer slot ch msg x s = q
      obtain ⟨ok, t⟩ := q
      cases ok
      · rfl
      · exact h _
  · split
    · exact h _
    · rfl

theorem onCmb_keepS (slot ch msg : Nat) (m : Option CmbMsg) (serve : State → State) (s : State) (h : ∀ s, keepS (serve s) = keepS s) : Answers (onCmb slot ch msg m serve s) (fun t => keepS t = keepS s) := by
  unfold onCmb
  refine ran_keepS _ _ ((mbAccess_keepS _ _ _ _ (fun s => ?_)).trans (begin_keepS s))
  split
  · next x =>
      refine Eq.trans (b := keepS (cmbOffer slot ch msg x s).2) ?_ (cmbOffer_keepS _ _ _ _ _)
      generalize cmbOffer slot ch msg x s = q
      obtain ⟨ok, t⟩ := q
      cases ok
      · rfl
      · exact h _
  · split
    · exact h _
    · rfl

theorem onCmb_keepA (slot ch msg : Nat) (m : Option CmbMsg) (serve : State → State) (s : State) (h : ∀ s, keepA (serve s) = keepA s) : Answers (onCmb slot ch msg m serve s) (fun t => keepA t = keepA s) := by
  unfold onCmb
  refine ran_keepA _ _ ((mbAccess_keepA _ _ _ _ (fun s => ?_)).trans (begin_keepA s))
  split
  · next x =>
      refine Eq.trans (b := keepA (cmbOffer slot ch msg x s).2) ?_ (cmbOffer_keepA _ _ _ _ _)
      generalize cmbOffer slot ch msg x s = q
      obtain ⟨ok, t⟩ := q
      cases ok
      · rfl
      · exact h _
  · split
    · exact h _
    · rfl

theorem onQmb_keepM (slot q msg : Nat) (m : Option QmbMsg) (v : State → Nat) (s : State) : Answers (onQmb slot q msg m v s) (fun t => keepM t = keepM s) := by
  unfold onQmb
  refine ran_keepM _ _ ((mbAccess_keepM _ _ _ _ (fun s => ?_)).trans (begin_keepM s))
  split
  · next x =>
      refine Eq.trans (b := keepM (qmbOffer slot q msg x s).2) ?_ (qmbOffer_keepM _ _ _ _ _)
      generalize qmbOffer slot q msg x s = r
      obtain ⟨ok, t⟩ := r
      cases ok
      · rfl
      · exact qmbReply_keepM _ _ _ _ _
  · split
    · exact qmbReply_keepM _ _ _ _ _
    · rfl

theorem onQmb_keepS (slot q msg : Nat) (m : Option QmbMsg) (v : State → Nat) (s : State) : Answers (onQmb slot q msg m v s) (fun t => keepS t = keepS s) := by
  unfold onQmb
  refine ran_keepS _ _ ((mbAccess_keepS _ _ _ _ (fun s => ?_)).trans (begin_keepS s))
  split
  · next x =>
      refine Eq.trans (b := keepS (qmbOffer slot q msg x s).2) ?_ (qmbOffer_keepS _ _ _ _ _)
      generalize qmbOffer slot q msg x s = r
      obtain ⟨ok, t⟩ := r
      cases ok
      · rfl
      · exact qmbReply_keepS _ _ _ _ _
  · split
    · exact qmbReply_keepS _ _ _ _ _
    · rfl

theorem onQmb_keepA (slot q msg : Nat) (m : Option QmbMsg) (v : State → Nat) (s : State) : Answers (onQmb slot q msg m v s) (fun t => keepA t = keepA s) := by
  unfold onQmb
  refine ran_keepA _ _ ((mbAccess_keepA _ _ _ _ (fun s => ?_)).trans (begin_keepA s))
  split
  · next x =>
      refine Eq.trans (b := keepA (qmbOffer slot q msg x s).2) ?_ (qmbOffer_keepA _ _ _ _ _)
      generalize qmbOffer slot q msg x s = r
      obtain ⟨ok, t⟩ := r
      cases ok
      · rfl
      · exact qmbReply_keepA _ _ _ _ _
  · split
    · exact qmbReply_keepA _ _ _ _ _
    · rfl

theorem onUnit_keepS (o : UnitOp) (op : Nat) (c : Caller) (inp : List Byte) (s : State) : Answers (onUnit o op c inp s) (fun t => keepS t = keepS s) := by
  unfold onUnit
  exact onVendor_keepS _ _ _ _ _ _ _ _ (fun s => unitAct_keepS _ _ _ _ _ s) (fun s => mediaNext_keepS s)

theorem onUnit_keepA (o : UnitOp) (op : Nat) (c : Caller) (inp : List Byte) (s : State) : Answers (onUnit o op c inp s) (fun t => keepA t = keepA s) := by
  unfold onUnit
  exact onVendor_keepA _ _ _ _ _ _ _ _ (fun s => unitAct_keepA _ _ _ _ _ s) (fun s => mediaNext_keepA s)

theorem onEvent_keepM (ch : Nat) (f : FrameHdr) (payload : BitVec 128) (act : State → State) (s : State) (h : ∀ s, keepM (act s) = keepM s) : Answers (onEvent ch f payload act s) (fun t => keepM t = keepM s) := by
  unfold onEvent
  have h1 := (checkFrame_keepM ch 2 f (payOk payload) (begin s)).trans (begin_keepM s)
  generalize checkFrame ch 2 f (payOk payload) (begin s) = r at h1 ⊢
  obtain ⟨c, s1⟩ := r
  replace h1 : keepM s1 = keepM s := h1
  cases c
  · refine ran_keepM _ _ ((mediaNext_keepM _).trans ((nextFrame_keepM _ _).trans ((h _).trans ?_)))
    split
    · exact h1
    · exact (dropStale_keepM _ _ _).trans h1
  · exact ran_keepM _ _ ((mediaNext_keepM _).trans h1)
  · exact ran_keepM _ _ ((mediaNext_keepM _).trans ((nextFrame_keepM _ _).trans h1))

theorem onEvent_keepS (ch : Nat) (f : FrameHdr) (payload : BitVec 128) (act : State → State) (s : State) (h : ∀ s, keepS (act s) = keepS s) : Answers (onEvent ch f payload act s) (fun t => keepS t = keepS s) := by
  unfold onEvent
  have h1 := (checkFrame_keepS ch 2 f (payOk payload) (begin s)).trans (begin_keepS s)
  generalize checkFrame ch 2 f (payOk payload) (begin s) = r at h1 ⊢
  obtain ⟨c, s1⟩ := r
  replace h1 : keepS s1 = keepS s := h1
  cases c
  · refine ran_keepS _ _ ((mediaNext_keepS _).trans ((nextFrame_keepS _ _).trans ((h _).trans ?_)))
    split
    · exact h1
    · exact (dropStale_keepS _ _ _).trans h1
  · exact ran_keepS _ _ ((mediaNext_keepS _).trans h1)
  · exact ran_keepS _ _ ((mediaNext_keepS _).trans ((nextFrame_keepS _ _).trans h1))

theorem onEvent_keepA (ch : Nat) (f : FrameHdr) (payload : BitVec 128) (act : State → State) (s : State) (h : ∀ s, keepA (act s) = keepA s) : Answers (onEvent ch f payload act s) (fun t => keepA t = keepA s) := by
  unfold onEvent
  have h1 := (checkFrame_keepA ch 2 f (payOk payload) (begin s)).trans (begin_keepA s)
  generalize checkFrame ch 2 f (payOk payload) (begin s) = r at h1 ⊢
  obtain ⟨c, s1⟩ := r
  replace h1 : keepA s1 = keepA s := h1
  cases c
  · refine ran_keepA _ _ ((mediaNext_keepA _).trans ((nextFrame_keepA _ _).trans ((h _).trans ?_)))
    split
    · exact h1
    · exact (dropStale_keepA _ _ _).trans h1
  · exact ran_keepA _ _ ((mediaNext_keepA _).trans h1)
  · exact ran_keepA _ _ ((mediaNext_keepA _).trans ((nextFrame_keepA _ _).trans h1))

theorem receive_keepM (m : MsgHdr) (crc : Option PeerMsg) (act : Nat → State → State) (s : State) (h : ∀ i s, keepM (act i s) = keepM s) : Answers (receive m crc act s) (fun t => keepM t = keepM s) := by
  have h0 : keepM (begin s) = keepM s := begin_keepM s
  unfold receive
  extract_lets s1
  split
  · exact ran_keepM _ _ h0
  · split
    · exact ran_keepM _ _ ((event_keepM _ _).trans h0)
    · extract_lets p s2
      refine answers_ite (ran_keepM _ _ h0) ?_
      exact ran_keepM _ _ ((mediaNext_keepM _).trans ((h _ _).trans ((peerFlush_keepM _ _).trans ((setPeer_keepM _ _ _).trans h0))))

theorem receive_keepS (m : MsgHdr) (crc : Option PeerMsg) (act : Nat → State → State) (s : State) (h : ∀ i s, keepS (act i s) = keepS s) : Answers (receive m crc act s) (fun t => keepS t = keepS s) := by
  have h0 : keepS (begin s) = keepS s := begin_keepS s
  unfold receive
  extract_lets s1
  split
  · exact ran_keepS _ _ h0
  · split
    · exact ran_keepS _ _ ((event_keepS _ _).trans h0)
    · extract_lets p s2
      refine answers_ite (ran_keepS _ _ h0) ?_
      exact ran_keepS _ _ ((mediaNext_keepS _).trans ((h _ _).trans ((peerFlush_keepS _ _).trans ((setPeer_keepS _ _ _).trans h0))))

theorem receive_keepA (m : MsgHdr) (crc : Option PeerMsg) (act : Nat → State → State) (s : State) (h : ∀ i s, keepA (act i s) = keepA s) : Answers (receive m crc act s) (fun t => keepA t = keepA s) := by
  have h0 : keepA (begin s) = keepA s := begin_keepA s
  unfold receive
  extract_lets s1
  split
  · exact ran_keepA _ _ h0
  · split
    · exact ran_keepA _ _ ((event_keepA _ _).trans h0)
    · extract_lets p s2
      refine answers_ite (ran_keepA _ _ h0) ?_
      exact ran_keepA _ _ ((mediaNext_keepA _).trans ((h _ _).trans ((peerFlush_keepA _ _).trans ((setPeer_keepA _ _ _).trans h0))))

theorem onCache_keepM (op : Nat) (inval : Bool) (c : Caller) (inp : List Byte) (s : State) : Answers (onCache op inval c inp s) (fun t => keepM t = keepM s) := by
  unfold onCache
  refine onVendor_keepM _ _ _ _ _ _ _ _ (fun s => ?_) (fun s => by simp only [mediaNext_keepM, updLoad_keepM, flushJobs_keepM])
  extract_lets scope lines r
  have h1 : keepM r.2 = keepM s := vStart_keepM _ _ _ _
  clear_value r
  split
  · exact (keepM_foldl _ _ _ (fun s l => drainLine_keepM _ _ _)).trans h1
  · exact h1

theorem onCache_keepS (op : Nat) (inval : Bool) (c : Caller) (inp : List Byte) (s : State) : Answers (onCache op inval c inp s) (fun t => keepS t = keepS s) := by
  unfold onCache
  refine onVendor_keepS _ _ _ _ _ _ _ _ (fun s => ?_) (fun s => by simp only [mediaNext_keepS, updLoad_keepS, flushJobs_keepS])
  extract_lets scope lines r
  have h1 : keepS r.2 = keepS s := vStart_keepS _ _ _ _
  clear_value r
  split
  · exact (keepS_foldl _ _ _ (fun s l => drainLine_keepS _ _ _)).trans h1
  · exact h1

theorem onCache_keepA (op : Nat) (inval : Bool) (c : Caller) (inp : List Byte) (s : State) : Answers (onCache op inval c inp s) (fun t => keepA t = keepA s) := by
  unfold onCache
  refine onVendor_keepA _ _ _ _ _ _ _ _ (fun s => ?_) (fun s => by simp only [mediaNext_keepA, updLoad_keepA, flushJobs_keepA])
  extract_lets scope lines r
  have h1 : keepA r.2 = keepA s := vStart_keepA _ _ _ _
  clear_value r
  split
  · exact (keepA_foldl _ _ _ (fun s l => drainLine_keepA _ _ _)).trans h1
  · exact h1

theorem selectFw_keepS (s t : State) (h : selectFw s = some t) : keepS t = keepS s := by
  unfold selectFw at h
  extract_lets cs top low c at h
  repeat' split at h
  all_goals cases h
  all_goals exact keepS_mk s

theorem fwPart_keepS (o : Nat) (d : List Byte) (s t : State) (h : fwPart o d s = some t) : keepS t = keepS s := by
  unfold fwPart at h
  extract_lets p at h
  split at h
  · cases h
  · cases h; exact keepS_mk s

theorem setStatic_keepS (i units : Nat) (s t : State) (h : setStatic i units s = .ok t) : keepS t = keepS s := by
  unfold setStatic at h
  extract_lets d cur want ls old s1 cut at h
  have h1 : keepS s1 = keepS s := emptyAll_keepS _ _ _
  clear_value s1
  repeat' split at h
  all_goals first | (cases h; done) | skip
  all_goals first | (cases h; rfl) | skip
  · cases h; exact (sendMap_keepS _ _ _).trans ((setLd_keepS _ _ _).trans h1)
  · extract_lets rs at h
    split at h
    · cases h
    · cases h; exact addRanges_keepS _ _ _

theorem setStatics_keepS (l : List (Nat × Nat)) (r : Except Rc State) (t s : State)
    (h : l.foldl (fun (a : Except Rc State) e => match a with | .ok s => setStatic e.1 e.2 s | .error r => .error r) r = .ok t)
    (hs : ∀ u, r = .ok u → keepS u = keepS s) : keepS t = keepS s := by
  induction l generalizing r with
  | nil => exact hs _ h
  | cons e l ih =>
    refine ih _ h (fun u hu => ?_)
    cases r with
    | error r => cases hu
    | ok v => exact (setStatic_keepS _ _ _ _ hu).trans (hs _ rfl)

end Sys2Proof.Machine
end

