-- ==== Sys2Proof/Laws/Commands1.lean ====
section
/-! SUPPORT. What each command leaves alone, whatever its operands and the state: it answers a next state that agrees with the one before on the sections of its class (Safety). Rows 1 to 75 of the opcode table. -/

set_option linter.all false

namespace Sys2Proof.Machine

theorem execMemRead_keepM (port : Fin 4) (ld : Fin 16) (hpa : BitVec 64) (tag : BitVec 16) (s : State) : Answers (execMemRead port ld hpa tag s) (fun t => keepM t = keepM s) := by
  unfold execMemRead
  repeat' first
    | with_reducible rfl
    | simp only [keepM_mk, keepM_times, keepM_foldl, apply_ite Prod.fst, apply_ite Prod.snd, ite_self, id_eq, implies_true, begin_keepM, hostRead_keepM, readHeld_keepM, fire_keepM, unbackedRead_keepM, begin_keepM, mediaNext_keepM]
    | with_reducible refine ran_keepM _ _ ?_
    | split
    | with_reducible refine Eq.trans (keepM_foldl _ _ _ (fun _ _ => ?_)) ?_
    | with_reducible refine keepM_ite_eq ?_ ?_

theorem execMemWrite_keepM (port : Fin 4) (ld : Fin 16) (hpa : BitVec 64) (tag : BitVec 16) (data : Line) (be : BitVec 64) (poisoned : Bool) (s : State) : Answers (execMemWrite port ld hpa tag data be poisoned s) (fun t => keepM t = keepM s) := by
  unfold execMemWrite
  repeat' first
    | with_reducible rfl
    | simp only [keepM_mk, keepM_times, keepM_foldl, apply_ite Prod.fst, apply_ite Prod.snd, ite_self, id_eq, implies_true, begin_keepM, setLd_keepM, begin_keepM, updLoad_keepM, mediaNext_keepM, unbackedWrite_keepM, hostWrite_keepM]
    | with_reducible refine ran_keepM _ _ ?_
    | split
    | with_reducible refine Eq.trans (keepM_foldl _ _ _ (fun _ _ => ?_)) ?_
    | with_reducible refine keepM_ite_eq ?_ ?_

theorem execWriteCreditGrant_keepM (port : Fin 4) (ld : Fin 16) (s : State) : Answers (execWriteCreditGrant port ld s) (fun t => keepM t = keepM s) := by
  unfold execWriteCreditGrant
  repeat' first
    | with_reducible rfl
    | simp only [keepM_mk, keepM_times, keepM_foldl, apply_ite Prod.fst, apply_ite Prod.snd, ite_self, id_eq, implies_true, begin_keepM, brakeHolds_keepM, send_keepM, qosHolds_keepM, setLd_keepM, begin_keepM, updLoad_keepM]
    | with_reducible refine ran_keepM _ _ ?_
    | split
    | with_reducible refine Eq.trans (keepM_foldl _ _ _ (fun _ _ => ?_)) ?_
    | with_reducible refine keepM_ite_eq ?_ ?_

theorem execStrictAckTimeout_keepM (port : Fin 4) (ld : Fin 16) (tag : BitVec 16) (s : State) : Answers (execStrictAckTimeout port ld tag s) (fun t => keepM t = keepM s) := by
  unfold execStrictAckTimeout
  extract_lets s1 i
  have h1 : keepM s1 = keepM s := begin_keepM s
  clear_value s1
  split
  · exact ran_keepM _ _ h1
  · extract_lets rnum s2 recs s3
    have h3 : keepM s3 = keepM s := (expose_keepM _ _ _ _ _).trans ((updLoad_keepM _).trans ((keepM_mk s1).trans h1))
    clear_value s3
    split
    · exact ran_keepM _ _ ((keepM_mk s3).trans h3)
    · exact ran_keepM _ _ ((send_keepM _ _).trans h3)

theorem execRelaxedRecordStall_keepM (stream : Fin 2) (rnum : BitVec 48) (s : State) : Answers (execRelaxedRecordStall stream rnum s) (fun t => keepM t = keepM s) := by
  unfold execRelaxedRecordStall
  repeat' first
    | with_reducible rfl
    | simp only [keepM_mk, keepM_times, keepM_foldl, apply_ite Prod.fst, apply_ite Prod.snd, ite_self, id_eq, implies_true, begin_keepM, begin_keepM]
    | with_reducible refine ran_keepM _ _ ?_
    | split
    | with_reducible refine Eq.trans (keepM_foldl _ _ _ (fun _ _ => ?_)) ?_
    | with_reducible refine keepM_ite_eq ?_ ?_

theorem execRelaxedRecordExposed_keepM (stream : Fin 2) (rnum : BitVec 48) (s : State) : Answers (execRelaxedRecordExposed stream rnum s) (fun t => keepM t = keepM s) := by
  unfold execRelaxedRecordExposed
  repeat' first
    | with_reducible rfl
    | simp only [keepM_mk, keepM_times, keepM_foldl, apply_ite Prod.fst, apply_ite Prod.snd, ite_self, id_eq, implies_true, begin_keepM, begin_keepM, expose_keepM]
    | with_reducible refine ran_keepM _ _ ?_
    | split
    | with_reducible refine Eq.trans (keepM_foldl _ _ _ (fun _ _ => ?_)) ?_
    | with_reducible refine keepM_ite_eq ?_ ?_

theorem execDirtyAgeLimit_keepM (lln : BitVec 40) (s : State) : Answers (execDirtyAgeLimit lln s) (fun t => keepM t = keepM s) := by
  unfold execDirtyAgeLimit
  repeat' first
    | with_reducible rfl
    | simp only [keepM_mk, keepM_times, keepM_foldl, apply_ite Prod.fst, apply_ite Prod.snd, ite_self, id_eq, implies_true, begin_keepM, begin_keepM, updLoad_keepM, mediaNext_keepM, drainLine_keepM]
    | with_reducible refine ran_keepM _ _ ?_
    | split
    | with_reducible refine Eq.trans (keepM_foldl _ _ _ (fun _ _ => ?_)) ?_
    | with_reducible refine keepM_ite_eq ?_ ?_

theorem execPerstAssert_keepS (grp : Fin 2) (s : State) : Answers (execPerstAssert grp s) (fun t => keepS t = keepS s) := by
  unfold execPerstAssert
  repeat' first
    | with_reducible rfl
    | simp only [keepS_mk, keepS_times, keepS_foldl, apply_ite Prod.fst, apply_ite Prod.snd, ite_self, id_eq, implies_true, begin_keepS, setLd_keepS, begin_keepS, portDown_keepS, mailboxReset_keepS, setPort_keepS]
    | with_reducible refine ran_keepS _ _ ?_
    | split
    | with_reducible refine Eq.trans (keepS_foldl _ _ _ (fun _ _ => ?_)) ?_
    | with_reducible refine keepS_ite_eq ?_ ?_

theorem execPerstDeassert_keepE (grp : Fin 2) (s : State) : Answers (execPerstDeassert grp s) (fun t => keepE t = keepE s) := by
  unfold execPerstDeassert
  repeat' first
    | with_reducible rfl
    | simp only [keepE_mk, keepE_times, keepE_foldl, apply_ite Prod.fst, apply_ite Prod.snd, ite_self, id_eq, implies_true, begin_keepE, trainLink_keepE, begin_keepE, setPort_keepE]
    | with_reducible refine ran_keepE _ _ ?_
    | split
    | with_reducible refine Eq.trans (keepE_foldl _ _ _ (fun _ _ => ?_)) ?_
    | with_reducible refine keepE_ite_eq ?_ ?_

theorem execLinkUp_keepM (port : Fin 4) (width : BitVec 8) (rate : BitVec 8) (flit256 : Bool) (mld : Bool) (s : State) : Answers (execLinkUp port width rate flit256 mld s) (fun t => keepM t = keepM s) := by
  unfold execLinkUp
  repeat' first
    | with_reducible rfl
    | simp only [keepM_mk, keepM_times, keepM_foldl, apply_ite Prod.fst, apply_ite Prod.snd, ite_self, id_eq, implies_true, begin_keepM, endJob_keepM, portState_keepM, begin_keepM, setUnit_keepM, portEvent_keepM, setPort_keepM]
    | with_reducible refine ran_keepM _ _ ?_
    | split
    | with_reducible refine Eq.trans (keepM_foldl _ _ _ (fun _ _ => ?_)) ?_
    | with_reducible refine keepM_ite_eq ?_ ?_

theorem execSurpriseLinkDown_keepM (port : Fin 4) (s : State) : Answers (execSurpriseLinkDown port s) (fun t => keepM t = keepM s) := by
  unfold execSurpriseLinkDown
  repeat' first
    | with_reducible rfl
    | simp only [keepM_mk, keepM_times, keepM_foldl, apply_ite Prod.fst, apply_ite Prod.snd, ite_self, id_eq, implies_true, begin_keepM, begin_keepM, linkLost_keepM]
    | with_reducible refine ran_keepM _ _ ?_
    | split
    | with_reducible refine Eq.trans (keepM_foldl _ _ _ (fun _ _ => ?_)) ?_
    | with_reducible refine keepM_ite_eq ?_ ?_

theorem execRefclkLoss_keepM (grp : Fin 2) (s : State) : Answers (execRefclkLoss grp s) (fun t => keepM t = keepM s) := by
  unfold execRefclkLoss
  repeat' first
    | with_reducible rfl
    | simp only [keepM_mk, keepM_times, keepM_foldl, apply_ite Prod.fst, apply_ite Prod.snd, ite_self, id_eq, implies_true, begin_keepM, begin_keepM, linkLost_keepM, setPort_keepM]
    | with_reducible refine ran_keepM _ _ ?_
    | split
    | with_reducible refine Eq.trans (keepM_foldl _ _ _ (fun _ _ => ?_)) ?_
    | with_reducible refine keepM_ite_eq ?_ ?_

theorem execPowerStateChange_keepE (port : Fin 4) (ld : Fin 16) (d3hot : Bool) (s : State) : Answers (execPowerStateChange port ld d3hot s) (fun t => keepE t = keepE s) := by
  unfold execPowerStateChange
  repeat' first
    | with_reducible rfl
    | simp only [keepE_mk, keepE_times, keepE_foldl, apply_ite Prod.fst, apply_ite Prod.snd, ite_self, id_eq, implies_true, begin_keepE, setLd_keepE, begin_keepE]
    | with_reducible refine ran_keepE _ _ ?_
    | split
    | with_reducible refine Eq.trans (keepE_foldl _ _ _ (fun _ _ => ?_)) ?_
    | with_reducible refine keepE_ite_eq ?_ ?_

theorem execIdeIntegrityFailure_keepM (port : Fin 4) (s : State) : Answers (execIdeIntegrityFailure port s) (fun t => keepM t = keepM s) := by
  unfold execIdeIntegrityFailure
  repeat' first
    | with_reducible rfl
    | simp only [keepM_mk, keepM_times, keepM_foldl, apply_ite Prod.fst, apply_ite Prod.snd, ite_self, id_eq, implies_true, begin_keepM, begin_keepM, setUnit_keepM, aerError_keepM, portEvent_keepM, setPort_keepM]
    | with_reducible refine ran_keepM _ _ ?_
    | split
    | with_reducible refine Eq.trans (keepM_foldl _ _ _ (fun _ _ => ?_)) ?_
    | with_reducible refine keepM_ite_eq ?_ ?_

theorem execGpfPhase1_keepE (port : Fin 4) (s : State) : Answers (execGpfPhase1 port s) (fun t => keepE t = keepE s) := by
  unfold execGpfPhase1
  repeat' first
    | with_reducible rfl
    | simp only [keepE_mk, keepE_times, keepE_foldl, apply_ite Prod.fst, apply_ite Prod.snd, ite_self, id_eq, implies_true, begin_keepE, send_keepE, begin_keepE]
    | with_reducible refine ran_keepE _ _ ?_
    | split
    | with_reducible refine Eq.trans (keepE_foldl _ _ _ (fun _ _ => ?_)) ?_
    | with_reducible refine keepE_ite_eq ?_ ?_

theorem execGpfPhase2_keepE (port : Fin 4) (s : State) : Answers (execGpfPhase2 port s) (fun t => keepE t = keepE s) := by
  unfold execGpfPhase2
  repeat' first
    | with_reducible rfl
    | simp only [keepE_mk, keepE_times, keepE_foldl, apply_ite Prod.fst, apply_ite Prod.snd, ite_self, id_eq, implies_true, begin_keepE, begin_keepE]
    | with_reducible refine ran_keepE _ _ ?_
    | split
    | with_reducible refine Eq.trans (keepE_foldl _ _ _ (fun _ _ => ?_)) ?_
    | with_reducible refine keepE_ite_eq ?_ ?_

theorem execIdentifyMemoryDevice_keepE (c : Caller) (ldb : Byte) (s : State) : Answers (execIdentifyMemoryDevice c ldb s) (fun t => keepE t = keepE s) := by
  unfold execIdentifyMemoryDevice
  repeat' first
    | with_reducible rfl
    | simp only [keepE_mk, keepE_times, keepE_foldl, apply_ite Prod.fst, apply_ite Prod.snd, ite_self, id_eq, implies_true, begin_keepE, tell_keepE]
    | with_reducible refine (onLd_keepE _ _ _ _ (fun _ _ => ?_)).trans ?_
    | with_reducible refine ran_keepE _ _ ?_
    | with_reducible refine onCxl_keepE _ _ _ _ _ _ (fun _ => ?_) (fun _ => ?_)
    | split
    | with_reducible refine Eq.trans (keepE_foldl _ _ _ (fun _ _ => ?_)) ?_
    | with_reducible refine keepE_ite_eq ?_ ?_

theorem execGetHealthInfo_keepE (c : Caller) (ldb : Byte) (s : State) : Answers (execGetHealthInfo c ldb s) (fun t => keepE t = keepE s) := by
  unfold execGetHealthInfo
  repeat' first
    | with_reducible rfl
    | simp only [keepE_mk, keepE_times, keepE_foldl, apply_ite Prod.fst, apply_ite Prod.snd, ite_self, id_eq, implies_true, begin_keepE, tell_keepE]
    | with_reducible refine (onLd_keepE _ _ _ _ (fun _ _ => ?_)).trans ?_
    | with_reducible refine ran_keepE _ _ ?_
    | with_reducible refine onCxl_keepE _ _ _ _ _ _ (fun _ => ?_) (fun _ => ?_)
    | split
    | with_reducible refine Eq.trans (keepE_foldl _ _ _ (fun _ _ => ?_)) ?_
    | with_reducible refine keepE_ite_eq ?_ ?_

theorem execGetEventRecords_keepE (c : Caller) (ldb : Byte) (log : Fin 5) (s : State) : Answers (execGetEventRecords c ldb log s) (fun t => keepE t = keepE s) := by
  unfold execGetEventRecords
  repeat' first
    | with_reducible rfl
    | simp only [keepE_mk, keepE_times, keepE_foldl, apply_ite Prod.fst, apply_ite Prod.snd, ite_self, id_eq, implies_true, begin_keepE, tell_keepE]
    | with_reducible refine (onLd_keepE _ _ _ _ (fun _ _ => ?_)).trans ?_
    | with_reducible refine ran_keepE _ _ ?_
    | with_reducible refine onCxl_keepE _ _ _ _ _ _ (fun _ => ?_) (fun _ => ?_)
    | split
    | with_reducible refine Eq.trans (keepE_foldl _ _ _ (fun _ _ => ?_)) ?_
    | with_reducible refine keepE_ite_eq ?_ ?_

theorem execClearEventRecords_keepE (c : Caller) (ldb : Byte) (log : Fin 5) (all : Bool) (handles : List (BitVec 16)) (s : State) : Answers (execClearEventRecords c ldb log all handles s) (fun t => keepE t = keepE s) := by
  unfold execClearEventRecords
  repeat' first
    | with_reducible rfl
    | simp only [keepE_mk, keepE_times, keepE_foldl, apply_ite Prod.fst, apply_ite Prod.snd, ite_self, id_eq, implies_true, begin_keepE, setLd_keepE, tell_keepE, did_keepE]
    | with_reducible refine (onLd_keepE _ _ _ _ (fun _ _ => ?_)).trans ?_
    | with_reducible refine ran_keepE _ _ ?_
    | with_reducible refine onCxl_keepE _ _ _ _ _ _ (fun _ => ?_) (fun _ => ?_)
    | split
    | with_reducible refine Eq.trans (keepE_foldl _ _ _ (fun _ _ => ?_)) ?_
    | with_reducible refine keepE_ite_eq ?_ ?_

theorem execGetEventInterruptPolicy_keepE (c : Caller) (ldb : Byte) (s : State) : Answers (execGetEventInterruptPolicy c ldb s) (fun t => keepE t = keepE s) := by
  unfold execGetEventInterruptPolicy
  repeat' first
    | with_reducible rfl
    | simp only [keepE_mk, keepE_times, keepE_foldl, apply_ite Prod.fst, apply_ite Prod.snd, ite_self, id_eq, implies_true, begin_keepE, tell_keepE]
    | with_reducible refine (onLd_keepE _ _ _ _ (fun _ _ => ?_)).trans ?_
    | with_reducible refine ran_keepE _ _ ?_
    | with_reducible refine onCxl_keepE _ _ _ _ _ _ (fun _ => ?_) (fun _ => ?_)
    | split
    | with_reducible refine Eq.trans (keepE_foldl _ _ _ (fun _ _ => ?_)) ?_
    | with_reducible refine keepE_ite_eq ?_ ?_

theorem execSetEventInterruptPolicy_keepE (c : Caller) (ldb : Byte) (policy : BitVec 40) (s : State) : Answers (execSetEventInterruptPolicy c ldb policy s) (fun t => keepE t = keepE s) := by
  unfold execSetEventInterruptPolicy
  repeat' first
    | with_reducible rfl
    | simp only [keepE_mk, keepE_times, keepE_foldl, apply_ite Prod.fst, apply_ite Prod.snd, ite_self, id_eq, implies_true, begin_keepE, setLd_keepE, did_keepE]
    | with_reducible refine (onLd_keepE _ _ _ _ (fun _ _ => ?_)).trans ?_
    | with_reducible refine ran_keepE _ _ ?_
    | with_reducible refine onCxl_keepE _ _ _ _ _ _ (fun _ => ?_) (fun _ => ?_)
    | split
    | with_reducible refine Eq.trans (keepE_foldl _ _ _ (fun _ _ => ?_)) ?_
    | with_reducible refine keepE_ite_eq ?_ ?_

theorem execGetSupportedLogs_keepE (c : Caller) (ldb : Byte) (s : State) : Answers (execGetSupportedLogs c ldb s) (fun t => keepE t = keepE s) := by
  unfold execGetSupportedLogs
  repeat' first
    | with_reducible rfl
    | simp only [keepE_mk, keepE_times, keepE_foldl, apply_ite Prod.fst, apply_ite Prod.snd, ite_self, id_eq, implies_true, begin_keepE, tell_keepE]
    | with_reducible refine (onLd_keepE _ _ _ _ (fun _ _ => ?_)).trans ?_
    | with_reducible refine ran_keepE _ _ ?_
    | with_reducible refine onCxl_keepE _ _ _ _ _ _ (fun _ => ?_) (fun _ => ?_)
    | split
    | with_reducible refine Eq.trans (keepE_foldl _ _ _ (fun _ _ => ?_)) ?_
    | with_reducible refine keepE_ite_eq ?_ ?_

theorem execGetLog_keepE (c : Caller) (ldb : Byte) (offset : BitVec 32) (length : BitVec 32) (s : State) : Answers (execGetLog c ldb offset length s) (fun t => keepE t = keepE s) := by
  unfold execGetLog
  repeat' first
    | with_reducible rfl
    | simp only [keepE_mk, keepE_times, keepE_foldl, apply_ite Prod.fst, apply_ite Prod.snd, ite_self, id_eq, implies_true, begin_keepE, tell_keepE]
    | with_reducible refine (onLd_keepE _ _ _ _ (fun _ _ => ?_)).trans ?_
    | with_reducible refine ran_keepE _ _ ?_
    | with_reducible refine onCxl_keepE _ _ _ _ _ _ (fun _ => ?_) (fun _ => ?_)
    | split
    | with_reducible refine Eq.trans (keepE_foldl _ _ _ (fun _ _ => ?_)) ?_
    | with_reducible refine keepE_ite_eq ?_ ?_

theorem execGetTimestamp_keepE (c : Caller) (ldb : Byte) (s : State) : Answers (execGetTimestamp c ldb s) (fun t => keepE t = keepE s) := by
  unfold execGetTimestamp
  repeat' first
    | with_reducible rfl
    | simp only [keepE_mk, keepE_times, keepE_foldl, apply_ite Prod.fst, apply_ite Prod.snd, ite_self, id_eq, implies_true, begin_keepE, tell_keepE]
    | with_reducible refine (onLd_keepE _ _ _ _ (fun _ _ => ?_)).trans ?_
    | with_reducible refine ran_keepE _ _ ?_
    | with_reducible refine onCxl_keepE _ _ _ _ _ _ (fun _ => ?_) (fun _ => ?_)
    | split
    | with_reducible refine Eq.trans (keepE_foldl _ _ _ (fun _ _ => ?_)) ?_
    | with_reducible refine keepE_ite_eq ?_ ?_

theorem execSetTimestamp_keepE (c : Caller) (ldb : Byte) (value : BitVec 64) (s : State) : Answers (execSetTimestamp c ldb value s) (fun t => keepE t = keepE s) := by
  unfold execSetTimestamp
  repeat' first
    | with_reducible rfl
    | simp only [keepE_mk, keepE_times, keepE_foldl, apply_ite Prod.fst, apply_ite Prod.snd, ite_self, id_eq, implies_true, begin_keepE, setLd_keepE, did_keepE]
    | with_reducible refine (onLd_keepE _ _ _ _ (fun _ _ => ?_)).trans ?_
    | with_reducible refine ran_keepE _ _ ?_
    | with_reducible refine onCxl_keepE _ _ _ _ _ _ (fun _ => ?_) (fun _ => ?_)
    | split
    | with_reducible refine Eq.trans (keepE_foldl _ _ _ (fun _ _ => ?_)) ?_
    | with_reducible refine keepE_ite_eq ?_ ?_

theorem execGetFwInfo_keepE (c : Caller) (ldb : Byte) (s : State) : Answers (execGetFwInfo c ldb s) (fun t => keepE t = keepE s) := by
  unfold execGetFwInfo
  repeat' first
    | with_reducible rfl
    | simp only [keepE_mk, keepE_times, keepE_foldl, apply_ite Prod.fst, apply_ite Prod.snd, ite_self, id_eq, implies_true, begin_keepE, tell_keepE]
    | with_reducible refine (onLd_keepE _ _ _ _ (fun _ _ => ?_)).trans ?_
    | with_reducible refine ran_keepE _ _ ?_
    | with_reducible refine onCxl_keepE _ _ _ _ _ _ (fun _ => ?_) (fun _ => ?_)
    | split
    | with_reducible refine Eq.trans (keepE_foldl _ _ _ (fun _ _ => ?_)) ?_
    | with_reducible refine keepE_ite_eq ?_ ?_

theorem execTransferFw_keepS (c : Caller) (action : FwAction) (offset : BitVec 32) (data : List Byte) (s : State) : Answers (execTransferFw c action offset data s) (fun t => keepS t = keepS s) := by
  unfold execTransferFw
  refine onCxl_keepS _ _ _ _ _ _ (fun s => ?_) (fun s => rfl)
  extract_lets bad
  have hb : ∀ s, keepS (bad s).2 = keepS s := fun s => (tell_keepS _ _ _).trans (keepS_mk s)
  clear_value bad
  have hd : ∀ s, keepS (did s).2 = keepS s := fun s => did_keepS s
  have h0 := fwBegin_keepS c s
  repeat' split
  all_goals first
    | exact tell_keepS _ _ _
    | exact hb _
    | exact (hb _).trans h0
    | exact (fwEnd_keepS _).trans ((fwPart_keepS _ _ _ _ ‹_›).trans h0)
    | exact (hd _).trans ((fwPart_keepS _ _ _ _ ‹_›).trans h0)
    | exact (fwEnd_keepS _).trans (fwPart_keepS _ _ _ _ ‹_›)
    | exact (hd _).trans (fwPart_keepS _ _ _ _ ‹_›)
    | exact (hd _).trans (keepS_mk s)

theorem execActivateFw_keepS (c : Caller) (online : Bool) (slot : BitVec 8) (s : State) : Answers (execActivateFw c online slot s) (fun t => keepS t = keepS s) := by
  unfold execActivateFw
  repeat' first
    | with_reducible rfl
    | simp only [keepS_mk, keepS_times, keepS_foldl, apply_ite Prod.fst, apply_ite Prod.snd, ite_self, id_eq, implies_true, begin_keepS, tell_keepS, warmReset_keepS, did_keepS]
    | with_reducible refine ran_keepS _ _ ?_
    | with_reducible refine onCxl_keepS _ _ _ _ _ _ (fun _ => ?_) (fun _ => ?_)
    | split
    | with_reducible refine Eq.trans (keepS_foldl _ _ _ (fun _ _ => ?_)) ?_
    | with_reducible refine keepS_ite_eq ?_ ?_

theorem execGetPoisonList_keepE (c : Caller) (ldb : Byte) (addr : BitVec 46) (length : BitVec 46) (s : State) : Answers (execGetPoisonList c ldb addr length s) (fun t => keepE t = keepE s) := by
  unfold execGetPoisonList
  repeat' first
    | with_reducible rfl
    | simp only [keepE_mk, keepE_times, keepE_foldl, apply_ite Prod.fst, apply_ite Prod.snd, ite_self, id_eq, implies_true, begin_keepE, tell_keepE]
    | with_reducible refine (onLd_keepE _ _ _ _ (fun _ _ => ?_)).trans ?_
    | with_reducible refine ran_keepE _ _ ?_
    | with_reducible refine onCxl_keepE _ _ _ _ _ _ (fun _ => ?_) (fun _ => ?_)
    | split
    | with_reducible refine Eq.trans (keepE_foldl _ _ _ (fun _ _ => ?_)) ?_
    | with_reducible refine keepE_ite_eq ?_ ?_

theorem execInjectPoison_keepM (c : Caller) (ldb : Byte) (addr : BitVec 46) (s : State) : Answers (execInjectPoison c ldb addr s) (fun t => keepM t = keepM s) := by
  unfold execInjectPoison
  repeat' first
    | with_reducible rfl
    | simp only [keepM_mk, keepM_times, keepM_foldl, apply_ite Prod.fst, apply_ite Prod.snd, ite_self, id_eq, implies_true, begin_keepM, commandWrite_keepM, tell_keepM, mediaNext_keepM, poisonAdd_keepM]
    | with_reducible refine (onPoison_keepM _ _ _ _ _ (fun _ _ _ => ?_)).trans ?_
    | with_reducible refine ran_keepM _ _ ?_
    | with_reducible refine onCxl_keepM _ _ _ _ _ _ (fun _ => ?_) (fun _ => ?_)
    | split
    | with_reducible refine Eq.trans (keepM_foldl _ _ _ (fun _ _ => ?_)) ?_
    | with_reducible refine keepM_ite_eq ?_ ?_

theorem execClearPoison_keepM (c : Caller) (ldb : Byte) (addr : BitVec 46) (data : Line) (s : State) : Answers (execClearPoison c ldb addr data s) (fun t => keepM t = keepM s) := by
  unfold execClearPoison
  repeat' first
    | with_reducible rfl
    | simp only [keepM_mk, keepM_times, keepM_foldl, apply_ite Prod.fst, apply_ite Prod.snd, ite_self, id_eq, implies_true, begin_keepM, commandWrite_keepM, mediaNext_keepM]
    | with_reducible refine (onPoison_keepM _ _ _ _ _ (fun _ _ _ => ?_)).trans ?_
    | with_reducible refine ran_keepM _ _ ?_
    | with_reducible refine onCxl_keepM _ _ _ _ _ _ (fun _ => ?_) (fun _ => ?_)
    | split
    | with_reducible refine Eq.trans (keepM_foldl _ _ _ (fun _ _ => ?_)) ?_
    | with_reducible refine keepM_ite_eq ?_ ?_

theorem execSanitize_keepS (c : Caller) (ldb : Byte) (s : State) : Answers (execSanitize c ldb s) (fun t => keepS t = keepS s) := by
  unfold execSanitize
  repeat' first
    | with_reducible rfl
    | simp only [keepS_mk, keepS_times, keepS_foldl, apply_ite Prod.fst, apply_ite Prod.snd, ite_self, id_eq, implies_true, begin_keepS, tell_keepS, updLoad_keepS, mediaNext_keepS, eraseStart_keepS, pollWork_keepS]
    | with_reducible refine (onLd_keepS _ _ _ _ (fun _ _ => ?_)).trans ?_
    | with_reducible refine ran_keepS _ _ ?_
    | with_reducible refine onCxl_keepS _ _ _ _ _ _ (fun _ => ?_) (fun _ => ?_)
    | split
    | with_reducible refine Eq.trans (keepS_foldl _ _ _ (fun _ _ => ?_)) ?_
    | with_reducible refine keepS_ite_eq ?_ ?_

theorem execSecureErase_keepS (c : Caller) (ldb : Byte) (s : State) : Answers (execSecureErase c ldb s) (fun t => keepS t = keepS s) := by
  unfold execSecureErase
  repeat' first
    | with_reducible rfl
    | simp only [keepS_mk, keepS_times, keepS_foldl, apply_ite Prod.fst, apply_ite Prod.snd, ite_self, id_eq, implies_true, begin_keepS, tell_keepS, updLoad_keepS, mediaNext_keepS, eraseStart_keepS, pollWork_keepS]
    | with_reducible refine (onLd_keepS _ _ _ _ (fun _ _ => ?_)).trans ?_
    | with_reducible refine ran_keepS _ _ ?_
    | with_reducible refine onCxl_keepS _ _ _ _ _ _ (fun _ => ?_) (fun _ => ?_)
    | split
    | with_reducible refine Eq.trans (keepS_foldl _ _ _ (fun _ _ => ?_)) ?_
    | with_reducible refine keepS_ite_eq ?_ ?_

theorem execGetDynamicCapacityConfiguration_keepE (c : Caller) (ldb : Byte) (s : State) : Answers (execGetDynamicCapacityConfiguration c ldb s) (fun t => keepE t = keepE s) := by
  unfold execGetDynamicCapacityConfiguration
  repeat' first
    | with_reducible rfl
    | simp only [keepE_mk, keepE_times, keepE_foldl, apply_ite Prod.fst, apply_ite Prod.snd, ite_self, id_eq, implies_true, begin_keepE, tell_keepE]
    | with_reducible refine (onLd_keepE _ _ _ _ (fun _ _ => ?_)).trans ?_
    | with_reducible refine ran_keepE _ _ ?_
    | with_reducible refine onCxl_keepE _ _ _ _ _ _ (fun _ => ?_) (fun _ => ?_)
    | split
    | with_reducible refine Eq.trans (keepE_foldl _ _ _ (fun _ _ => ?_)) ?_
    | with_reducible refine keepE_ite_eq ?_ ?_

theorem execGetDynamicCapacityExtentList_keepE (c : Caller) (ldb : Byte) (s : State) : Answers (execGetDynamicCapacityExtentList c ldb s) (fun t => keepE t = keepE s) := by
  unfold execGetDynamicCapacityExtentList
  repeat' first
    | with_reducible rfl
    | simp only [keepE_mk, keepE_times, keepE_foldl, apply_ite Prod.fst, apply_ite Prod.snd, ite_self, id_eq, implies_true, begin_keepE, tell_keepE]
    | with_reducible refine (onLd_keepE _ _ _ _ (fun _ _ => ?_)).trans ?_
    | with_reducible refine ran_keepE _ _ ?_
    | with_reducible refine onCxl_keepE _ _ _ _ _ _ (fun _ => ?_) (fun _ => ?_)
    | split
    | with_reducible refine Eq.trans (keepE_foldl _ _ _ (fun _ _ => ?_)) ?_
    | with_reducible refine keepE_ite_eq ?_ ?_

theorem execAddDynamicCapacityResponse_keepM (c : Caller) (ldb : Byte) (exts : List Extent) (s : State) : Answers (execAddDynamicCapacityResponse c ldb exts s) (fun t => keepM t = keepM s) := by
  unfold execAddDynamicCapacityResponse
  repeat' first
    | with_reducible rfl
    | simp only [keepM_mk, keepM_times, keepM_foldl, apply_ite Prod.fst, apply_ite Prod.snd, ite_self, id_eq, implies_true, begin_keepM, acceptOffers_keepM, tell_keepM, mediaNext_keepM, did_keepM]
    | with_reducible refine (onLd_keepM _ _ _ _ (fun _ _ => ?_)).trans ?_
    | with_reducible refine ran_keepM _ _ ?_
    | with_reducible refine onCxl_keepM _ _ _ _ _ _ (fun _ => ?_) (fun _ => ?_)
    | split
    | with_reducible refine Eq.trans (keepM_foldl _ _ _ (fun _ _ => ?_)) ?_
    | with_reducible refine keepM_ite_eq ?_ ?_

theorem execReleaseDynamicCapacity_keepS (c : Caller) (ldb : Byte) (exts : List Extent) (s : State) : Answers (execReleaseDynamicCapacity c ldb exts s) (fun t => keepS t = keepS s) := by
  unfold execReleaseDynamicCapacity
  repeat' first
    | with_reducible rfl
    | simp only [keepS_mk, keepS_times, keepS_foldl, apply_ite Prod.fst, apply_ite Prod.snd, ite_self, id_eq, implies_true, begin_keepS, send_keepS, setLd_keepS, releaseGo_keepS, begin_keepS, updLoad_keepS, mediaNext_keepS]
    | with_reducible refine ran_keepS _ _ ?_
    | split
    | with_reducible refine Eq.trans (keepS_foldl _ _ _ (fun _ _ => ?_)) ?_
    | with_reducible refine keepS_ite_eq ?_ ?_

theorem execUnsupportedOpcode_keepE (c : Caller) (_opcode : BitVec 16) (s : State) : Answers (execUnsupportedOpcode c _opcode s) (fun t => keepE t = keepE s) := by
  unfold execUnsupportedOpcode
  repeat' first
    | with_reducible rfl
    | simp only [keepE_mk, keepE_times, keepE_foldl, apply_ite Prod.fst, apply_ite Prod.snd, ite_self, id_eq, implies_true, begin_keepE, tell_keepE]
    | with_reducible refine ran_keepE _ _ ?_
    | with_reducible refine onCxl_keepE _ _ _ _ _ _ (fun _ => ?_) (fun _ => ?_)
    | split
    | with_reducible refine Eq.trans (keepE_foldl _ _ _ (fun _ _ => ?_)) ?_
    | with_reducible refine keepE_ite_eq ?_ ?_

theorem execFmIdentify_keepE (c : Caller) (s : State) : Answers (execFmIdentify c s) (fun t => keepE t = keepE s) := by
  unfold execFmIdentify
  repeat' first
    | with_reducible rfl
    | simp only [keepE_mk, keepE_times, keepE_foldl, apply_ite Prod.fst, apply_ite Prod.snd, ite_self, id_eq, implies_true, begin_keepE, tell_keepE]
    | with_reducible refine ran_keepE _ _ ?_
    | with_reducible refine onCxl_keepE _ _ _ _ _ _ (fun _ => ?_) (fun _ => ?_)
    | split
    | with_reducible refine Eq.trans (keepE_foldl _ _ _ (fun _ _ => ?_)) ?_
    | with_reducible refine keepE_ite_eq ?_ ?_

theorem execGetLdInfo_keepE (c : Caller) (s : State) : Answers (execGetLdInfo c s) (fun t => keepE t = keepE s) := by
  unfold execGetLdInfo
  repeat' first
    | with_reducible rfl
    | simp only [keepE_mk, keepE_times, keepE_foldl, apply_ite Prod.fst, apply_ite Prod.snd, ite_self, id_eq, implies_true, begin_keepE, tell_keepE]
    | with_reducible refine ran_keepE _ _ ?_
    | with_reducible refine onCxl_keepE _ _ _ _ _ _ (fun _ => ?_) (fun _ => ?_)
    | split
    | with_reducible refine Eq.trans (keepE_foldl _ _ _ (fun _ _ => ?_)) ?_
    | with_reducible refine keepE_ite_eq ?_ ?_

theorem execGetLdAllocations_keepE (c : Caller) (port : Fin 4) (first : Fin 16) (count : BitVec 8) (s : State) : Answers (execGetLdAllocations c port first count s) (fun t => keepE t = keepE s) := by
  unfold execGetLdAllocations
  repeat' first
    | with_reducible rfl
    | simp only [keepE_mk, keepE_times, keepE_foldl, apply_ite Prod.fst, apply_ite Prod.snd, ite_self, id_eq, implies_true, begin_keepE, tell_keepE]
    | with_reducible refine ran_keepE _ _ ?_
    | with_reducible refine onCxl_keepE _ _ _ _ _ _ (fun _ => ?_) (fun _ => ?_)
    | split
    | with_reducible refine Eq.trans (keepE_foldl _ _ _ (fun _ _ => ?_)) ?_
    | with_reducible refine keepE_ite_eq ?_ ?_

theorem execSetLdAllocations_keepS (c : Caller) (port : Fin 4) (first : Fin 16) (units : List (BitVec 32)) (s : State) : Answers (execSetLdAllocations c port first units s) (fun t => keepS t = keepS s) := by
  unfold execSetLdAllocations
  refine onCxl_keepS _ _ _ _ _ _ (fun s => ?_) (fun s => by simp only [mediaNext_keepS, updLoad_keepS])
  split
  · exact tell_keepS _ _ _
  · extract_lets l cuts grows
    split
    · next h => exact (did_keepS _).trans (setStatics_keepS _ _ _ _ h (fun u hu => by cases hu; rfl))
    · exact tell_keepS _ _ _

theorem execGetQosControl_keepE (c : Caller) (port : Fin 4) (s : State) : Answers (execGetQosControl c port s) (fun t => keepE t = keepE s) := by
  unfold execGetQosControl
  repeat' first
    | with_reducible rfl
    | simp only [keepE_mk, keepE_times, keepE_foldl, apply_ite Prod.fst, apply_ite Prod.snd, ite_self, id_eq, implies_true, begin_keepE, tell_keepE]
    | with_reducible refine ran_keepE _ _ ?_
    | with_reducible refine onCxl_keepE _ _ _ _ _ _ (fun _ => ?_) (fun _ => ?_)
    | split
    | with_reducible refine Eq.trans (keepE_foldl _ _ _ (fun _ _ => ?_)) ?_
    | with_reducible refine keepE_ite_eq ?_ ?_

theorem execSetQosControl_keepE (c : Caller) (port : Fin 4) (ctrl : BitVec 64) (s : State) : Answers (execSetQosControl c port ctrl s) (fun t => keepE t = keepE s) := by
  unfold execSetQosControl
  repeat' first
    | with_reducible rfl
    | simp only [keepE_mk, keepE_times, keepE_foldl, apply_ite Prod.fst, apply_ite Prod.snd, ite_self, id_eq, implies_true, begin_keepE, did_keepE, setPort_keepE]
    | with_reducible refine ran_keepE _ _ ?_
    | with_reducible refine onCxl_keepE _ _ _ _ _ _ (fun _ => ?_) (fun _ => ?_)
    | split
    | with_reducible refine Eq.trans (keepE_foldl _ _ _ (fun _ _ => ?_)) ?_
    | with_reducible refine keepE_ite_eq ?_ ?_

theorem execGetQosStatus_keepM (c : Caller) (_port : Fin 4) (s : State) : Answers (execGetQosStatus c _port s) (fun t => keepM t = keepM s) := by
  unfold execGetQosStatus
  repeat' first
    | with_reducible rfl
    | simp only [keepM_mk, keepM_times, keepM_foldl, apply_ite Prod.fst, apply_ite Prod.snd, ite_self, id_eq, implies_true, begin_keepM, tell_keepM, drawBits_keepM]
    | with_reducible refine ran_keepM _ _ ?_
    | with_reducible refine onCxl_keepM _ _ _ _ _ _ (fun _ => ?_) (fun _ => ?_)
    | split
    | with_reducible refine Eq.trans (keepM_foldl _ _ _ (fun _ _ => ?_)) ?_
    | with_reducible refine keepM_ite_eq ?_ ?_

theorem execGetQosAllocatedBw_keepE (c : Caller) (port : Fin 4) (first : Fin 16) (count : BitVec 8) (s : State) : Answers (execGetQosAllocatedBw c port first count s) (fun t => keepE t = keepE s) := by
  unfold execGetQosAllocatedBw
  repeat' first
    | with_reducible rfl
    | simp only [keepE_mk, keepE_times, keepE_foldl, apply_ite Prod.fst, apply_ite Prod.snd, ite_self, id_eq, implies_true, begin_keepE, tell_keepE]
    | with_reducible refine ran_keepE _ _ ?_
    | with_reducible refine onCxl_keepE _ _ _ _ _ _ (fun _ => ?_) (fun _ => ?_)
    | split
    | with_reducible refine Eq.trans (keepE_foldl _ _ _ (fun _ _ => ?_)) ?_
    | with_reducible refine keepE_ite_eq ?_ ?_

theorem execSetQosAllocatedBw_keepE (c : Caller) (port : Fin 4) (first : Fin 16) (fracs : List Byte) (s : State) : Answers (execSetQosAllocatedBw c port first fracs s) (fun t => keepE t = keepE s) := by
  unfold execSetQosAllocatedBw
  repeat' first
    | with_reducible rfl
    | simp only [keepE_mk, keepE_times, keepE_foldl, apply_ite Prod.fst, apply_ite Prod.snd, ite_self, id_eq, implies_true, begin_keepE, setFracs_keepE, tell_keepE, did_keepE]
    | with_reducible refine ran_keepE _ _ ?_
    | with_reducible refine onCxl_keepE _ _ _ _ _ _ (fun _ => ?_) (fun _ => ?_)
    | split
    | with_reducible refine Eq.trans (keepE_foldl _ _ _ (fun _ _ => ?_)) ?_
    | with_reducible refine keepE_ite_eq ?_ ?_

theorem execGetQosBwLimit_keepE (c : Caller) (port : Fin 4) (first : Fin 16) (count : BitVec 8) (s : State) : Answers (execGetQosBwLimit c port first count s) (fun t => keepE t = keepE s) := by
  unfold execGetQosBwLimit
  repeat' first
    | with_reducible rfl
    | simp only [keepE_mk, keepE_times, keepE_foldl, apply_ite Prod.fst, apply_ite Prod.snd, ite_self, id_eq, implies_true, begin_keepE, tell_keepE]
    | with_reducible refine ran_keepE _ _ ?_
    | with_reducible refine onCxl_keepE _ _ _ _ _ _ (fun _ => ?_) (fun _ => ?_)
    | split
    | with_reducible refine Eq.trans (keepE_foldl _ _ _ (fun _ _ => ?_)) ?_
    | with_reducible refine keepE_ite_eq ?_ ?_

theorem execSetQosBwLimit_keepE (c : Caller) (port : Fin 4) (first : Fin 16) (fracs : List Byte) (s : State) : Answers (execSetQosBwLimit c port first fracs s) (fun t => keepE t = keepE s) := by
  unfold execSetQosBwLimit
  repeat' first
    | with_reducible rfl
    | simp only [keepE_mk, keepE_times, keepE_foldl, apply_ite Prod.fst, apply_ite Prod.snd, ite_self, id_eq, implies_true, begin_keepE, setFracs_keepE, tell_keepE, did_keepE]
    | with_reducible refine ran_keepE _ _ ?_
    | with_reducible refine onCxl_keepE _ _ _ _ _ _ (fun _ => ?_) (fun _ => ?_)
    | split
    | with_reducible refine Eq.trans (keepE_foldl _ _ _ (fun _ _ => ?_)) ?_
    | with_reducible refine keepE_ite_eq ?_ ?_

theorem execGetDcRegionConfiguration_keepE (c : Caller) (ldb : Byte) (s : State) : Answers (execGetDcRegionConfiguration c ldb s) (fun t => keepE t = keepE s) := by
  unfold execGetDcRegionConfiguration
  repeat' first
    | with_reducible rfl
    | simp only [keepE_mk, keepE_times, keepE_foldl, apply_ite Prod.fst, apply_ite Prod.snd, ite_self, id_eq, implies_true, begin_keepE, tell_keepE]
    | with_reducible refine (onLd_keepE _ _ _ _ (fun _ _ => ?_)).trans ?_
    | with_reducible refine ran_keepE _ _ ?_
    | with_reducible refine onCxl_keepE _ _ _ _ _ _ (fun _ => ?_) (fun _ => ?_)
    | split
    | with_reducible refine Eq.trans (keepE_foldl _ _ _ (fun _ _ => ?_)) ?_
    | with_reducible refine keepE_ite_eq ?_ ?_

theorem execInitiateDynamicCapacityAdd_keepE (c : Caller) (ldb : Byte) (ext : Extent) (extTag : Option (BitVec 128)) (s : State) : Answers (execInitiateDynamicCapacityAdd c ldb ext extTag s) (fun t => keepE t = keepE s) := by
  unfold execInitiateDynamicCapacityAdd
  repeat' first
    | with_reducible rfl
    | simp only [keepE_mk, keepE_times, keepE_foldl, apply_ite Prod.fst, apply_ite Prod.snd, ite_self, id_eq, implies_true, begin_keepE, setLd_keepE, tell_keepE, dcEvent_keepE, did_keepE]
    | with_reducible refine (onLd_keepE _ _ _ _ (fun _ _ => ?_)).trans ?_
    | with_reducible refine ran_keepE _ _ ?_
    | with_reducible refine onCxl_keepE _ _ _ _ _ _ (fun _ => ?_) (fun _ => ?_)
    | split
    | with_reducible refine Eq.trans (keepE_foldl _ _ _ (fun _ _ => ?_)) ?_
    | with_reducible refine keepE_ite_eq ?_ ?_

theorem execInitiateDynamicCapacityRelease_keepE (c : Caller) (ldb : Byte) (ext : Extent) (s : State) : Answers (execInitiateDynamicCapacityRelease c ldb ext s) (fun t => keepE t = keepE s) := by
  unfold execInitiateDynamicCapacityRelease
  repeat' first
    | with_reducible rfl
    | simp only [keepE_mk, keepE_times, keepE_foldl, apply_ite Prod.fst, apply_ite Prod.snd, ite_self, id_eq, implies_true, begin_keepE, tell_keepE, dcEvent_keepE, did_keepE]
    | with_reducible refine (onLd_keepE _ _ _ _ (fun _ _ => ?_)).trans ?_
    | with_reducible refine ran_keepE _ _ ?_
    | with_reducible refine onCxl_keepE _ _ _ _ _ _ (fun _ => ?_) (fun _ => ?_)
    | split
    | with_reducible refine Eq.trans (keepE_foldl _ _ _ (fun _ _ => ?_)) ?_
    | with_reducible refine keepE_ite_eq ?_ ?_

theorem execGetDcRegionExtentLists_keepE (c : Caller) (ldb : Byte) (s : State) : Answers (execGetDcRegionExtentLists c ldb s) (fun t => keepE t = keepE s) := by
  unfold execGetDcRegionExtentLists
  repeat' first
    | with_reducible rfl
    | simp only [keepE_mk, keepE_times, keepE_foldl, apply_ite Prod.fst, apply_ite Prod.snd, ite_self, id_eq, implies_true, begin_keepE, tell_keepE]
    | with_reducible refine (onLd_keepE _ _ _ _ (fun _ _ => ?_)).trans ?_
    | with_reducible refine ran_keepE _ _ ?_
    | with_reducible refine onCxl_keepE _ _ _ _ _ _ (fun _ => ?_) (fun _ => ?_)
    | split
    | with_reducible refine Eq.trans (keepE_foldl _ _ _ (fun _ _ => ?_)) ?_
    | with_reducible refine keepE_ite_eq ?_ ?_

theorem execUnknownVendorOpcode_keepE (c : Caller) (opcode : BitVec 16) (inp : List Byte) (s : State) : Answers (execUnknownVendorOpcode c opcode inp s) (fun t => keepE t = keepE s) := by
  unfold execUnknownVendorOpcode
  repeat' first
    | with_reducible rfl
    | simp only [keepE_mk, keepE_times, keepE_foldl, apply_ite Prod.fst, apply_ite Prod.snd, ite_self, id_eq, implies_true, begin_keepE]
    | with_reducible refine ran_keepE _ _ ?_
    | with_reducible refine onVendor_keepE _ _ _ _ _ _ _ _ (fun _ => ?_) (fun _ => ?_)
    | split
    | with_reducible refine Eq.trans (keepE_foldl _ _ _ (fun _ _ => ?_)) ?_
    | with_reducible refine keepE_ite_eq ?_ ?_

theorem execMerlasIdentify_keepE (c : Caller) (inp : List Byte) (s : State) : Answers (execMerlasIdentify c inp s) (fun t => keepE t = keepE s) := by
  unfold execMerlasIdentify
  repeat' first
    | with_reducible rfl
    | simp only [keepE_mk, keepE_times, keepE_foldl, apply_ite Prod.fst, apply_ite Prod.snd, ite_self, id_eq, implies_true, begin_keepE]
    | with_reducible refine (vQuery_keepE _ _).trans ?_
    | with_reducible refine ran_keepE _ _ ?_
    | with_reducible refine onVendor_keepE _ _ _ _ _ _ _ _ (fun _ => ?_) (fun _ => ?_)
    | split
    | with_reducible refine Eq.trans (keepE_foldl _ _ _ (fun _ _ => ?_)) ?_
    | with_reducible refine keepE_ite_eq ?_ ?_

theorem execCapQuery_keepE (c : Caller) (inp : List Byte) (s : State) : Answers (execCapQuery c inp s) (fun t => keepE t = keepE s) := by
  unfold execCapQuery
  repeat' first
    | with_reducible rfl
    | simp only [keepE_mk, keepE_times, keepE_foldl, apply_ite Prod.fst, apply_ite Prod.snd, ite_self, id_eq, implies_true, begin_keepE]
    | with_reducible refine (vQuery_keepE _ _).trans ?_
    | with_reducible refine ran_keepE _ _ ?_
    | with_reducible refine onVendor_keepE _ _ _ _ _ _ _ _ (fun _ => ?_) (fun _ => ?_)
    | split
    | with_reducible refine Eq.trans (keepE_foldl _ _ _ (fun _ _ => ?_)) ?_
    | with_reducible refine keepE_ite_eq ?_ ?_

theorem execJobStatus_keepM (c : Caller) (inp : List Byte) (s : State) : Answers (execJobStatus c inp s) (fun t => keepM t = keepM s) := by
  unfold execJobStatus
  repeat' first
    | with_reducible rfl
    | simp only [keepM_mk, keepM_times, keepM_foldl, apply_ite Prod.fst, apply_ite Prod.snd, ite_self, id_eq, implies_true, begin_keepM, jobShown_keepM]
    | with_reducible refine ran_keepM _ _ ?_
    | with_reducible refine onVendor_keepM _ _ _ _ _ _ _ _ (fun _ => ?_) (fun _ => ?_)
    | split
    | with_reducible refine Eq.trans (keepM_foldl _ _ _ (fun _ _ => ?_)) ?_
    | with_reducible refine keepM_ite_eq ?_ ?_

theorem execUnitQuery_keepE (c : Caller) (inp : List Byte) (s : State) : Answers (execUnitQuery c inp s) (fun t => keepE t = keepE s) := by
  unfold execUnitQuery
  repeat' first
    | with_reducible rfl
    | simp only [keepE_mk, keepE_times, keepE_foldl, apply_ite Prod.fst, apply_ite Prod.snd, ite_self, id_eq, implies_true, begin_keepE]
    | with_reducible refine (vQuery_keepE _ _).trans ?_
    | with_reducible refine ran_keepE _ _ ?_
    | with_reducible refine onVendor_keepE _ _ _ _ _ _ _ _ (fun _ => ?_) (fun _ => ?_)
    | split
    | with_reducible refine Eq.trans (keepE_foldl _ _ _ (fun _ _ => ?_)) ?_
    | with_reducible refine keepE_ite_eq ?_ ?_

theorem execUnitList_keepE (c : Caller) (inp : List Byte) (s : State) : Answers (execUnitList c inp s) (fun t => keepE t = keepE s) := by
  unfold execUnitList
  repeat' first
    | with_reducible rfl
    | simp only [keepE_mk, keepE_times, keepE_foldl, apply_ite Prod.fst, apply_ite Prod.snd, ite_self, id_eq, implies_true, begin_keepE]
    | with_reducible refine (vQuery_keepE _ _).trans ?_
    | with_reducible refine ran_keepE _ _ ?_
    | with_reducible refine onVendor_keepE _ _ _ _ _ _ _ _ (fun _ => ?_) (fun _ => ?_)
    | split
    | with_reducible refine Eq.trans (keepE_foldl _ _ _ (fun _ _ => ?_)) ?_
    | with_reducible refine keepE_ite_eq ?_ ?_

theorem execUnitTest_keepS (c : Caller) (inp : List Byte) (s : State) : Answers (execUnitTest c inp s) (fun t => keepS t = keepS s) := by
  unfold execUnitTest
  repeat' first
    | with_reducible rfl
    | simp only [keepS_mk, keepS_times, keepS_foldl, apply_ite Prod.fst, apply_ite Prod.snd, ite_self, id_eq, implies_true, begin_keepS]
    | with_reducible refine onVendor_keepS _ _ _ _ _ _ _ _ (fun _ => ?_) (fun _ => ?_)
    | with_reducible refine onUnit_keepS _ _ _ _ _
    | split
    | with_reducible refine Eq.trans (keepS_foldl _ _ _ (fun _ _ => ?_)) ?_
    | with_reducible refine keepS_ite_eq ?_ ?_

theorem execUnitBypass_keepS (c : Caller) (inp : List Byte) (s : State) : Answers (execUnitBypass c inp s) (fun t => keepS t = keepS s) := by
  unfold execUnitBypass
  repeat' first
    | with_reducible rfl
    | simp only [keepS_mk, keepS_times, keepS_foldl, apply_ite Prod.fst, apply_ite Prod.snd, ite_self, id_eq, implies_true, begin_keepS]
    | with_reducible refine onVendor_keepS _ _ _ _ _ _ _ _ (fun _ => ?_) (fun _ => ?_)
    | with_reducible refine onUnit_keepS _ _ _ _ _
    | split
    | with_reducible refine Eq.trans (keepS_foldl _ _ _ (fun _ _ => ?_)) ?_
    | with_reducible refine keepS_ite_eq ?_ ?_

theorem execUnitIsolate_keepS (c : Caller) (inp : List Byte) (s : State) : Answers (execUnitIsolate c inp s) (fun t => keepS t = keepS s) := by
  unfold execUnitIsolate
  repeat' first
    | with_reducible rfl
    | simp only [keepS_mk, keepS_times, keepS_foldl, apply_ite Prod.fst, apply_ite Prod.snd, ite_self, id_eq, implies_true, begin_keepS]
    | with_reducible refine onVendor_keepS _ _ _ _ _ _ _ _ (fun _ => ?_) (fun _ => ?_)
    | with_reducible refine onUnit_keepS _ _ _ _ _
    | split
    | with_reducible refine Eq.trans (keepS_foldl _ _ _ (fun _ _ => ?_)) ?_
    | with_reducible refine keepS_ite_eq ?_ ?_

theorem execUnitReadmit_keepS (c : Caller) (inp : List Byte) (s : State) : Answers (execUnitReadmit c inp s) (fun t => keepS t = keepS s) := by
  unfold execUnitReadmit
  repeat' first
    | with_reducible rfl
    | simp only [keepS_mk, keepS_times, keepS_foldl, apply_ite Prod.fst, apply_ite Prod.snd, ite_self, id_eq, implies_true, begin_keepS]
    | with_reducible refine onVendor_keepS _ _ _ _ _ _ _ _ (fun _ => ?_) (fun _ => ?_)
    | with_reducible refine onUnit_keepS _ _ _ _ _
    | split
    | with_reducible refine Eq.trans (keepS_foldl _ _ _ (fun _ _ => ?_)) ?_
    | with_reducible refine keepS_ite_eq ?_ ?_

theorem execUnitRetire_keepS (c : Caller) (inp : List Byte) (s : State) : Answers (execUnitRetire c inp s) (fun t => keepS t = keepS s) := by
  unfold execUnitRetire
  repeat' first
    | with_reducible rfl
    | simp only [keepS_mk, keepS_times, keepS_foldl, apply_ite Prod.fst, apply_ite Prod.snd, ite_self, id_eq, implies_true, begin_keepS]
    | with_reducible refine onVendor_keepS _ _ _ _ _ _ _ _ (fun _ => ?_) (fun _ => ?_)
    | with_reducible refine onUnit_keepS _ _ _ _ _
    | split
    | with_reducible refine Eq.trans (keepS_foldl _ _ _ (fun _ _ => ?_)) ?_
    | with_reducible refine keepS_ite_eq ?_ ?_

theorem execFoldStatus_keepE (c : Caller) (inp : List Byte) (s : State) : Answers (execFoldStatus c inp s) (fun t => keepE t = keepE s) := by
  unfold execFoldStatus
  repeat' first
    | with_reducible rfl
    | simp only [keepE_mk, keepE_times, keepE_foldl, apply_ite Prod.fst, apply_ite Prod.snd, ite_self, id_eq, implies_true, begin_keepE]
    | with_reducible refine (vQuery_keepE _ _).trans ?_
    | with_reducible refine ran_keepE _ _ ?_
    | with_reducible refine onVendor_keepE _ _ _ _ _ _ _ _ (fun _ => ?_) (fun _ => ?_)
    | split
    | with_reducible refine Eq.trans (keepE_foldl _ _ _ (fun _ _ => ?_)) ?_
    | with_reducible refine keepE_ite_eq ?_ ?_

theorem execFramePin_keepM (c : Caller) (inp : List Byte) (s : State) : Answers (execFramePin c inp s) (fun t => keepM t = keepM s) := by
  unfold execFramePin
  repeat' first
    | with_reducible rfl
    | simp only [keepM_mk, keepM_times, keepM_foldl, apply_ite Prod.fst, apply_ite Prod.snd, ite_self, id_eq, implies_true, begin_keepM, vStart_keepM, startPromotion_keepM, mediaNext_keepM, setPinned_keepM]
    | with_reducible refine ran_keepM _ _ ?_
    | with_reducible refine onVendor_keepM _ _ _ _ _ _ _ _ (fun _ => ?_) (fun _ => ?_)
    | split
    | with_reducible refine Eq.trans (keepM_foldl _ _ _ (fun _ _ => ?_)) ?_
    | with_reducible refine keepM_ite_eq ?_ ?_

theorem execFrameDiscard_keepS (c : Caller) (inp : List Byte) (s : State) : Answers (execFrameDiscard c inp s) (fun t => keepS t = keepS s) := by
  unfold execFrameDiscard
  repeat' first
    | with_reducible rfl
    | simp only [keepS_mk, keepS_times, keepS_foldl, apply_ite Prod.fst, apply_ite Prod.snd, ite_self, id_eq, implies_true, begin_keepS, vStart_keepS, emptyFrame_keepS, updLoad_keepS, mediaNext_keepS]
    | with_reducible refine ran_keepS _ _ ?_
    | with_reducible refine onVendor_keepS _ _ _ _ _ _ _ _ (fun _ => ?_) (fun _ => ?_)
    | split
    | with_reducible refine Eq.trans (keepS_foldl _ _ _ (fun _ _ => ?_)) ?_
    | with_reducible refine keepS_ite_eq ?_ ?_

theorem execCacheFlush_keepM (c : Caller) (inp : List Byte) (s : State) : Answers (execCacheFlush c inp s) (fun t => keepM t = keepM s) := by
  unfold execCacheFlush
  repeat' first
    | with_reducible rfl
    | simp only [keepM_mk, keepM_times, keepM_foldl, apply_ite Prod.fst, apply_ite Prod.snd, ite_self, id_eq, implies_true, begin_keepM]
    | with_reducible refine onVendor_keepM _ _ _ _ _ _ _ _ (fun _ => ?_) (fun _ => ?_)
    | with_reducible refine onCache_keepM _ _ _ _ _
    | split
    | with_reducible refine Eq.trans (keepM_foldl _ _ _ (fun _ _ => ?_)) ?_
    | with_reducible refine keepM_ite_eq ?_ ?_

theorem execCacheInvalidate_keepM (c : Caller) (inp : List Byte) (s : State) : Answers (execCacheInvalidate c inp s) (fun t => keepM t = keepM s) := by
  unfold execCacheInvalidate
  repeat' first
    | with_reducible rfl
    | simp only [keepM_mk, keepM_times, keepM_foldl, apply_ite Prod.fst, apply_ite Prod.snd, ite_self, id_eq, implies_true, begin_keepM]
    | with_reducible refine onVendor_keepM _ _ _ _ _ _ _ _ (fun _ => ?_) (fun _ => ?_)
    | with_reducible refine onCache_keepM _ _ _ _ _
    | split
    | with_reducible refine Eq.trans (keepM_foldl _ _ _ (fun _ _ => ?_)) ?_
    | with_reducible refine keepM_ite_eq ?_ ?_

theorem execLdCommitSet_keepM (c : Caller) (inp : List Byte) (s : State) : Answers (execLdCommitSet c inp s) (fun t => keepM t = keepM s) := by
  unfold execLdCommitSet
  repeat' first
    | with_reducible rfl
    | simp only [keepM_mk, keepM_times, keepM_foldl, apply_ite Prod.fst, apply_ite Prod.snd, ite_self, id_eq, implies_true, begin_keepM, setMode_keepM]
    | with_reducible refine ran_keepM _ _ ?_
    | with_reducible refine onVendor_keepM _ _ _ _ _ _ _ _ (fun _ => ?_) (fun _ => ?_)
    | split
    | with_reducible refine Eq.trans (keepM_foldl _ _ _ (fun _ _ => ?_)) ?_
    | with_reducible refine keepM_ite_eq ?_ ?_

theorem execSpanQuery_keepE (c : Caller) (inp : List Byte) (s : State) : Answers (execSpanQuery c inp s) (fun t => keepE t = keepE s) := by
  unfold execSpanQuery
  repeat' first
    | with_reducible rfl
    | simp only [keepE_mk, keepE_times, keepE_foldl, apply_ite Prod.fst, apply_ite Prod.snd, ite_self, id_eq, implies_true, begin_keepE]
    | with_reducible refine (vQuery_keepE _ _).trans ?_
    | with_reducible refine ran_keepE _ _ ?_
    | with_reducible refine onVendor_keepE _ _ _ _ _ _ _ _ (fun _ => ?_) (fun _ => ?_)
    | split
    | with_reducible refine Eq.trans (keepE_foldl _ _ _ (fun _ _ => ?_)) ?_
    | with_reducible refine keepE_ite_eq ?_ ?_

theorem execPoolGet_keepE (c : Caller) (inp : List Byte) (s : State) : Answers (execPoolGet c inp s) (fun t => keepE t = keepE s) := by
  unfold execPoolGet
  repeat' first
    | with_reducible rfl
    | simp only [keepE_mk, keepE_times, keepE_foldl, apply_ite Prod.fst, apply_ite Prod.snd, ite_self, id_eq, implies_true, begin_keepE]
    | with_reducible refine (vQuery_keepE _ _).trans ?_
    | with_reducible refine ran_keepE _ _ ?_
    | with_reducible refine onVendor_keepE _ _ _ _ _ _ _ _ (fun _ => ?_) (fun _ => ?_)
    | split
    | with_reducible refine Eq.trans (keepE_foldl _ _ _ (fun _ _ => ?_)) ?_
    | with_reducible refine keepE_ite_eq ?_ ?_

theorem execPoolSet_keepM (c : Caller) (inp : List Byte) (s : State) : Answers (execPoolSet c inp s) (fun t => keepM t = keepM s) := by
  unfold execPoolSet
  repeat' first
    | with_reducible rfl
    | simp only [keepM_mk, keepM_times, keepM_foldl, apply_ite Prod.fst, apply_ite Prod.snd, ite_self, id_eq, implies_true, begin_keepM, withPool_keepM]
    | with_reducible refine (vWrite_keepM _ _ _ (fun _ => ?_)).trans ?_
    | with_reducible refine ran_keepM _ _ ?_
    | with_reducible refine onVendor_keepM _ _ _ _ _ _ _ _ (fun _ => ?_) (fun _ => ?_)
    | split
    | with_reducible refine Eq.trans (keepM_foldl _ _ _ (fun _ _ => ?_)) ?_
    | with_reducible refine keepM_ite_eq ?_ ?_

theorem execSpanJoin_keepM (c : Caller) (inp : List Byte) (s : State) : Answers (execSpanJoin c inp s) (fun t => keepM t = keepM s) := by
  unfold execSpanJoin
  repeat' first
    | with_reducible rfl
    | simp only [keepM_mk, keepM_times, keepM_foldl, apply_ite Prod.fst, apply_ite Prod.snd, ite_self, id_eq, implies_true, begin_keepM, allModes_keepM, dropMoves_keepM, enterSpan_keepM, mediaNext_keepM]
    | with_reducible refine (vStartWrite_keepM _ _ _ _ _ _ (fun _ => ?_)).trans ?_
    | with_reducible refine ran_keepM _ _ ?_
    | with_reducible refine onVendor_keepM _ _ _ _ _ _ _ _ (fun _ => ?_) (fun _ => ?_)
    | split
    | with_reducible refine Eq.trans (keepM_foldl _ _ _ (fun _ _ => ?_)) ?_
    | with_reducible refine keepM_ite_eq ?_ ?_

end Sys2Proof.Machine
end

