-- ==== Sys2Proof/Laws/Commands2.lean ====
section
/-! SUPPORT. What each command leaves alone, whatever its operands and the state: it answers a next state that agrees with the one before on the sections of its class (Safety). Rows 76 to 150 of the opcode table. -/

set_option linter.all false

namespace Sys2Proof.Machine

theorem execSpanUpdate_keepM (c : Caller) (inp : List Byte) (s : State) : Answers (execSpanUpdate c inp s) (fun t => keepM t = keepM s) := by
  unfold execSpanUpdate
  repeat' first
    | with_reducible rfl
    | simp only [keepM_mk, keepM_times, keepM_foldl, apply_ite Prod.fst, apply_ite Prod.snd, ite_self, id_eq, implies_true, begin_keepM, mediaNext_keepM]
    | with_reducible refine (vWrite_keepM _ _ _ (fun _ => ?_)).trans ?_
    | with_reducible refine ran_keepM _ _ ?_
    | with_reducible refine onVendor_keepM _ _ _ _ _ _ _ _ (fun _ => ?_) (fun _ => ?_)
    | split
    | with_reducible refine Eq.trans (keepM_foldl _ _ _ (fun _ _ => ?_)) ?_
    | with_reducible refine keepM_ite_eq ?_ ?_

theorem execRemountBind_keepM (c : Caller) (inp : List Byte) (s : State) : Answers (execRemountBind c inp s) (fun t => keepM t = keepM s) := by
  unfold execRemountBind
  repeat' first
    | with_reducible rfl
    | simp only [keepM_mk, keepM_times, keepM_foldl, apply_ite Prod.fst, apply_ite Prod.snd, ite_self, id_eq, implies_true, begin_keepM, allModes_keepM, withPool_keepM, enterSpan_keepM, mediaNext_keepM]
    | with_reducible refine (vStartWrite_keepM _ _ _ _ _ _ (fun _ => ?_)).trans ?_
    | with_reducible refine ran_keepM _ _ ?_
    | with_reducible refine onVendor_keepM _ _ _ _ _ _ _ _ (fun _ => ?_) (fun _ => ?_)
    | split
    | with_reducible refine Eq.trans (keepM_foldl _ _ _ (fun _ _ => ?_)) ?_
    | with_reducible refine keepM_ite_eq ?_ ?_

theorem execSpanLeave_keepS (c : Caller) (inp : List Byte) (s : State) : Answers (execSpanLeave c inp s) (fun t => keepS t = keepS s) := by
  unfold execSpanLeave
  repeat' first
    | with_reducible rfl
    | simp only [keepS_mk, keepS_times, keepS_foldl, apply_ite Prod.fst, apply_ite Prod.snd, ite_self, id_eq, implies_true, begin_keepS, leaveSpan_keepS, endJob_keepS, updLoad_keepS, mediaNext_keepS]
    | with_reducible refine (vStartWrite_keepS _ _ _ _ _ _ (fun _ => ?_)).trans ?_
    | with_reducible refine ran_keepS _ _ ?_
    | with_reducible refine onVendor_keepS _ _ _ _ _ _ _ _ (fun _ => ?_) (fun _ => ?_)
    | split
    | with_reducible refine Eq.trans (keepS_foldl _ _ _ (fun _ _ => ?_)) ?_
    | with_reducible refine keepS_ite_eq ?_ ?_

theorem execUnhitchRequest_keepM (c : Caller) (inp : List Byte) (s : State) : Answers (execUnhitchRequest c inp s) (fun t => keepM t = keepM s) := by
  unfold execUnhitchRequest
  repeat' first
    | with_reducible rfl
    | simp only [keepM_mk, keepM_times, keepM_foldl, apply_ite Prod.fst, apply_ite Prod.snd, ite_self, id_eq, implies_true, begin_keepM, unhitch_keepM, mediaNext_keepM]
    | with_reducible refine ran_keepM _ _ ?_
    | with_reducible refine onVendor_keepM _ _ _ _ _ _ _ _ (fun _ => ?_) (fun _ => ?_)
    | split
    | with_reducible refine Eq.trans (keepM_foldl _ _ _ (fun _ _ => ?_)) ?_
    | with_reducible refine keepM_ite_eq ?_ ?_

theorem execTimeQuery_keepE (c : Caller) (inp : List Byte) (s : State) : Answers (execTimeQuery c inp s) (fun t => keepE t = keepE s) := by
  unfold execTimeQuery
  repeat' first
    | with_reducible rfl
    | simp only [keepE_mk, keepE_times, keepE_foldl, apply_ite Prod.fst, apply_ite Prod.snd, ite_self, id_eq, implies_true, begin_keepE]
    | with_reducible refine (vQuery_keepE _ _).trans ?_
    | with_reducible refine ran_keepE _ _ ?_
    | with_reducible refine onVendor_keepE _ _ _ _ _ _ _ _ (fun _ => ?_) (fun _ => ?_)
    | split
    | with_reducible refine Eq.trans (keepE_foldl _ _ _ (fun _ _ => ?_)) ?_
    | with_reducible refine keepE_ite_eq ?_ ?_

theorem execTimeMarkSet_keepS (c : Caller) (inp : List Byte) (s : State) : Answers (execTimeMarkSet c inp s) (fun t => keepS t = keepS s) := by
  unfold execTimeMarkSet
  repeat' first
    | with_reducible rfl
    | simp only [keepS_mk, keepS_times, keepS_foldl, apply_ite Prod.fst, apply_ite Prod.snd, ite_self, id_eq, implies_true, begin_keepS]
    | with_reducible refine ran_keepS _ _ ?_
    | with_reducible refine onVendor_keepS _ _ _ _ _ _ _ _ (fun _ => ?_) (fun _ => ?_)
    | split
    | with_reducible refine Eq.trans (keepS_foldl _ _ _ (fun _ _ => ?_)) ?_
    | with_reducible refine keepS_ite_eq ?_ ?_

theorem execTimeConfig_keepS (c : Caller) (inp : List Byte) (s : State) : Answers (execTimeConfig c inp s) (fun t => keepS t = keepS s) := by
  unfold execTimeConfig
  repeat' first
    | with_reducible rfl
    | simp only [keepS_mk, keepS_times, keepS_foldl, apply_ite Prod.fst, apply_ite Prod.snd, ite_self, id_eq, implies_true, begin_keepS]
    | with_reducible refine ran_keepS _ _ ?_
    | with_reducible refine onVendor_keepS _ _ _ _ _ _ _ _ (fun _ => ?_) (fun _ => ?_)
    | split
    | with_reducible refine Eq.trans (keepS_foldl _ _ _ (fun _ _ => ?_)) ?_
    | with_reducible refine keepS_ite_eq ?_ ?_

theorem execTtConfig_keepM (c : Caller) (inp : List Byte) (s : State) : Answers (execTtConfig c inp s) (fun t => keepM t = keepM s) := by
  unfold execTtConfig
  repeat' first
    | with_reducible rfl
    | simp only [keepM_mk, keepM_times, keepM_foldl, apply_ite Prod.fst, apply_ite Prod.snd, ite_self, id_eq, implies_true, begin_keepM]
    | with_reducible refine ran_keepM _ _ ?_
    | with_reducible refine onVendor_keepM _ _ _ _ _ _ _ _ (fun _ => ?_) (fun _ => ?_)
    | split
    | with_reducible refine Eq.trans (keepM_foldl _ _ _ (fun _ _ => ?_)) ?_
    | with_reducible refine keepM_ite_eq ?_ ?_

theorem execPowerQuery_keepE (c : Caller) (inp : List Byte) (s : State) : Answers (execPowerQuery c inp s) (fun t => keepE t = keepE s) := by
  unfold execPowerQuery
  repeat' first
    | with_reducible rfl
    | simp only [keepE_mk, keepE_times, keepE_foldl, apply_ite Prod.fst, apply_ite Prod.snd, ite_self, id_eq, implies_true, begin_keepE]
    | with_reducible refine (vQuery_keepE _ _).trans ?_
    | with_reducible refine ran_keepE _ _ ?_
    | with_reducible refine onVendor_keepE _ _ _ _ _ _ _ _ (fun _ => ?_) (fun _ => ?_)
    | split
    | with_reducible refine Eq.trans (keepE_foldl _ _ _ (fun _ _ => ?_)) ?_
    | with_reducible refine keepE_ite_eq ?_ ?_

theorem execPowerTableSet_keepE (c : Caller) (inp : List Byte) (s : State) : Answers (execPowerTableSet c inp s) (fun t => keepE t = keepE s) := by
  unfold execPowerTableSet
  repeat' first
    | with_reducible rfl
    | simp only [keepE_mk, keepE_times, keepE_foldl, apply_ite Prod.fst, apply_ite Prod.snd, ite_self, id_eq, implies_true, begin_keepE]
    | with_reducible refine (vWrite_keepE _ _ _ (fun _ => ?_)).trans ?_
    | with_reducible refine ran_keepE _ _ ?_
    | with_reducible refine onVendor_keepE _ _ _ _ _ _ _ _ (fun _ => ?_) (fun _ => ?_)
    | split
    | with_reducible refine Eq.trans (keepE_foldl _ _ _ (fun _ _ => ?_)) ?_
    | with_reducible refine keepE_ite_eq ?_ ?_

theorem execPowerDown_keepS (c : Caller) (inp : List Byte) (s : State) : Answers (execPowerDown c inp s) (fun t => keepS t = keepS s) := by
  unfold execPowerDown
  repeat' first
    | with_reducible rfl
    | simp only [keepS_mk, keepS_times, keepS_foldl, apply_ite Prod.fst, apply_ite Prod.snd, ite_self, id_eq, implies_true, begin_keepS, powerOff_keepS]
    | with_reducible refine ran_keepS _ _ ?_
    | with_reducible refine onVendor_keepS _ _ _ _ _ _ _ _ (fun _ => ?_) (fun _ => ?_)
    | split
    | with_reducible refine Eq.trans (keepS_foldl _ _ _ (fun _ _ => ?_)) ?_
    | with_reducible refine keepS_ite_eq ?_ ?_

theorem execPowerUp_keepS (c : Caller) (inp : List Byte) (s : State) : Answers (execPowerUp c inp s) (fun t => keepS t = keepS s) := by
  unfold execPowerUp
  repeat' first
    | with_reducible rfl
    | simp only [keepS_mk, keepS_times, keepS_foldl, apply_ite Prod.fst, apply_ite Prod.snd, ite_self, id_eq, implies_true, begin_keepS, powerOn_keepS, vStart_keepS]
    | with_reducible refine ran_keepS _ _ ?_
    | with_reducible refine onVendor_keepS _ _ _ _ _ _ _ _ (fun _ => ?_) (fun _ => ?_)
    | split
    | with_reducible refine Eq.trans (keepS_foldl _ _ _ (fun _ _ => ?_)) ?_
    | with_reducible refine keepS_ite_eq ?_ ?_

theorem execThermalQuery_keepE (c : Caller) (inp : List Byte) (s : State) : Answers (execThermalQuery c inp s) (fun t => keepE t = keepE s) := by
  unfold execThermalQuery
  repeat' first
    | with_reducible rfl
    | simp only [keepE_mk, keepE_times, keepE_foldl, apply_ite Prod.fst, apply_ite Prod.snd, ite_self, id_eq, implies_true, begin_keepE]
    | with_reducible refine (vQuery_keepE _ _).trans ?_
    | with_reducible refine ran_keepE _ _ ?_
    | with_reducible refine onVendor_keepE _ _ _ _ _ _ _ _ (fun _ => ?_) (fun _ => ?_)
    | split
    | with_reducible refine Eq.trans (keepE_foldl _ _ _ (fun _ _ => ?_)) ?_
    | with_reducible refine keepE_ite_eq ?_ ?_

theorem execThermalConfig_keepS (c : Caller) (inp : List Byte) (s : State) : Answers (execThermalConfig c inp s) (fun t => keepS t = keepS s) := by
  unfold execThermalConfig
  repeat' first
    | with_reducible rfl
    | simp only [keepS_mk, keepS_times, keepS_foldl, apply_ite Prod.fst, apply_ite Prod.snd, ite_self, id_eq, implies_true, begin_keepS, setTherm_keepS]
    | with_reducible refine ran_keepS _ _ ?_
    | with_reducible refine onVendor_keepS _ _ _ _ _ _ _ _ (fun _ => ?_) (fun _ => ?_)
    | split
    | with_reducible refine Eq.trans (keepS_foldl _ _ _ (fun _ _ => ?_)) ?_
    | with_reducible refine keepS_ite_eq ?_ ?_

theorem execShutdownRecordClear_keepS (c : Caller) (inp : List Byte) (s : State) : Answers (execShutdownRecordClear c inp s) (fun t => keepS t = keepS s) := by
  unfold execShutdownRecordClear
  repeat' first
    | with_reducible rfl
    | simp only [keepS_mk, keepS_times, keepS_foldl, apply_ite Prod.fst, apply_ite Prod.snd, ite_self, id_eq, implies_true, begin_keepS, setTherm_keepS]
    | with_reducible refine (vWrite_keepS _ _ _ (fun _ => ?_)).trans ?_
    | with_reducible refine ran_keepS _ _ ?_
    | with_reducible refine onVendor_keepS _ _ _ _ _ _ _ _ (fun _ => ?_) (fun _ => ?_)
    | split
    | with_reducible refine Eq.trans (keepS_foldl _ _ _ (fun _ _ => ?_)) ?_
    | with_reducible refine keepS_ite_eq ?_ ?_

theorem execSboxQuery_keepE (c : Caller) (inp : List Byte) (s : State) : Answers (execSboxQuery c inp s) (fun t => keepE t = keepE s) := by
  unfold execSboxQuery
  repeat' first
    | with_reducible rfl
    | simp only [keepE_mk, keepE_times, keepE_foldl, apply_ite Prod.fst, apply_ite Prod.snd, ite_self, id_eq, implies_true, begin_keepE]
    | with_reducible refine (vQuery_keepE _ _).trans ?_
    | with_reducible refine ran_keepE _ _ ?_
    | with_reducible refine onVendor_keepE _ _ _ _ _ _ _ _ (fun _ => ?_) (fun _ => ?_)
    | split
    | with_reducible refine Eq.trans (keepE_foldl _ _ _ (fun _ _ => ?_)) ?_
    | with_reducible refine keepE_ite_eq ?_ ?_

theorem execSboxRead_keepE (c : Caller) (inp : List Byte) (s : State) : Answers (execSboxRead c inp s) (fun t => keepE t = keepE s) := by
  unfold execSboxRead
  repeat' first
    | with_reducible rfl
    | simp only [keepE_mk, keepE_times, keepE_foldl, apply_ite Prod.fst, apply_ite Prod.snd, ite_self, id_eq, implies_true, begin_keepE]
    | with_reducible refine (vQuery_keepE _ _).trans ?_
    | with_reducible refine ran_keepE _ _ ?_
    | with_reducible refine onVendor_keepE _ _ _ _ _ _ _ _ (fun _ => ?_) (fun _ => ?_)
    | split
    | with_reducible refine Eq.trans (keepE_foldl _ _ _ (fun _ _ => ?_)) ?_
    | with_reducible refine keepE_ite_eq ?_ ?_

theorem execOptionWrite_keepE (c : Caller) (inp : List Byte) (s : State) : Answers (execOptionWrite c inp s) (fun t => keepE t = keepE s) := by
  unfold execOptionWrite
  repeat' first
    | with_reducible rfl
    | simp only [keepE_mk, keepE_times, keepE_foldl, apply_ite Prod.fst, apply_ite Prod.snd, ite_self, id_eq, implies_true, begin_keepE]
    | with_reducible refine (vWrite_keepE _ _ _ (fun _ => ?_)).trans ?_
    | with_reducible refine ran_keepE _ _ ?_
    | with_reducible refine onVendor_keepE _ _ _ _ _ _ _ _ (fun _ => ?_) (fun _ => ?_)
    | split
    | with_reducible refine Eq.trans (keepE_foldl _ _ _ (fun _ _ => ?_)) ?_
    | with_reducible refine keepE_ite_eq ?_ ?_

theorem execCalOverlayWrite_keepE (c : Caller) (inp : List Byte) (s : State) : Answers (execCalOverlayWrite c inp s) (fun t => keepE t = keepE s) := by
  unfold execCalOverlayWrite
  repeat' first
    | with_reducible rfl
    | simp only [keepE_mk, keepE_times, keepE_foldl, apply_ite Prod.fst, apply_ite Prod.snd, ite_self, id_eq, implies_true, begin_keepE]
    | with_reducible refine (vWrite_keepE _ _ _ (fun _ => ?_)).trans ?_
    | with_reducible refine ran_keepE _ _ ?_
    | with_reducible refine onVendor_keepE _ _ _ _ _ _ _ _ (fun _ => ?_) (fun _ => ?_)
    | split
    | with_reducible refine Eq.trans (keepE_foldl _ _ _ (fun _ _ => ?_)) ?_
    | with_reducible refine keepE_ite_eq ?_ ?_

theorem execCalOverlayClear_keepE (c : Caller) (inp : List Byte) (s : State) : Answers (execCalOverlayClear c inp s) (fun t => keepE t = keepE s) := by
  unfold execCalOverlayClear
  repeat' first
    | with_reducible rfl
    | simp only [keepE_mk, keepE_times, keepE_foldl, apply_ite Prod.fst, apply_ite Prod.snd, ite_self, id_eq, implies_true, begin_keepE]
    | with_reducible refine (vWrite_keepE _ _ _ (fun _ => ?_)).trans ?_
    | with_reducible refine ran_keepE _ _ ?_
    | with_reducible refine onVendor_keepE _ _ _ _ _ _ _ _ (fun _ => ?_) (fun _ => ?_)
    | split
    | with_reducible refine Eq.trans (keepE_foldl _ _ _ (fun _ _ => ?_)) ?_
    | with_reducible refine keepE_ite_eq ?_ ?_

theorem execWaybillRead_keepE (c : Caller) (inp : List Byte) (s : State) : Answers (execWaybillRead c inp s) (fun t => keepE t = keepE s) := by
  unfold execWaybillRead
  repeat' first
    | with_reducible rfl
    | simp only [keepE_mk, keepE_times, keepE_foldl, apply_ite Prod.fst, apply_ite Prod.snd, ite_self, id_eq, implies_true, begin_keepE]
    | with_reducible refine (vQuery_keepE _ _).trans ?_
    | with_reducible refine ran_keepE _ _ ?_
    | with_reducible refine onVendor_keepE _ _ _ _ _ _ _ _ (fun _ => ?_) (fun _ => ?_)
    | split
    | with_reducible refine Eq.trans (keepE_foldl _ _ _ (fun _ _ => ?_)) ?_
    | with_reducible refine keepE_ite_eq ?_ ?_

theorem execWaybillRate_keepE (c : Caller) (inp : List Byte) (s : State) : Answers (execWaybillRate c inp s) (fun t => keepE t = keepE s) := by
  unfold execWaybillRate
  repeat' first
    | with_reducible rfl
    | simp only [keepE_mk, keepE_times, keepE_foldl, apply_ite Prod.fst, apply_ite Prod.snd, ite_self, id_eq, implies_true, begin_keepE, setRate_keepE]
    | with_reducible refine ran_keepE _ _ ?_
    | with_reducible refine onVendor_keepE _ _ _ _ _ _ _ _ (fun _ => ?_) (fun _ => ?_)
    | split
    | with_reducible refine Eq.trans (keepE_foldl _ _ _ (fun _ _ => ?_)) ?_
    | with_reducible refine keepE_ite_eq ?_ ?_

theorem execInjectArm_keepS (c : Caller) (inp : List Byte) (s : State) : Answers (execInjectArm c inp s) (fun t => keepS t = keepS s) := by
  unfold execInjectArm
  repeat' first
    | with_reducible rfl
    | simp only [keepS_mk, keepS_times, keepS_foldl, apply_ite Prod.fst, apply_ite Prod.snd, ite_self, id_eq, implies_true, begin_keepS, arm_keepS]
    | with_reducible refine ran_keepS _ _ ?_
    | with_reducible refine onVendor_keepS _ _ _ _ _ _ _ _ (fun _ => ?_) (fun _ => ?_)
    | split
    | with_reducible refine Eq.trans (keepS_foldl _ _ _ (fun _ _ => ?_)) ?_
    | with_reducible refine keepS_ite_eq ?_ ?_

theorem execInjectDisarm_keepE (c : Caller) (inp : List Byte) (s : State) : Answers (execInjectDisarm c inp s) (fun t => keepE t = keepE s) := by
  unfold execInjectDisarm
  repeat' first
    | with_reducible rfl
    | simp only [keepE_mk, keepE_times, keepE_foldl, apply_ite Prod.fst, apply_ite Prod.snd, ite_self, id_eq, implies_true, begin_keepE, disarm_keepE]
    | with_reducible refine ran_keepE _ _ ?_
    | with_reducible refine onVendor_keepE _ _ _ _ _ _ _ _ (fun _ => ?_) (fun _ => ?_)
    | split
    | with_reducible refine Eq.trans (keepE_foldl _ _ _ (fun _ _ => ?_)) ?_
    | with_reducible refine keepE_ite_eq ?_ ?_

theorem execSecQuery_keepE (c : Caller) (inp : List Byte) (s : State) : Answers (execSecQuery c inp s) (fun t => keepE t = keepE s) := by
  unfold execSecQuery
  repeat' first
    | with_reducible rfl
    | simp only [keepE_mk, keepE_times, keepE_foldl, apply_ite Prod.fst, apply_ite Prod.snd, ite_self, id_eq, implies_true, begin_keepE]
    | with_reducible refine (vQuery_keepE _ _).trans ?_
    | with_reducible refine ran_keepE _ _ ?_
    | with_reducible refine onVendor_keepE _ _ _ _ _ _ _ _ (fun _ => ?_) (fun _ => ?_)
    | split
    | with_reducible refine Eq.trans (keepE_foldl _ _ _ (fun _ _ => ?_)) ?_
    | with_reducible refine keepE_ite_eq ?_ ?_

theorem execPlSet_keepA (c : Caller) (inp : List Byte) (s : State) : Answers (execPlSet c inp s) (fun t => keepA t = keepA s) := by
  unfold execPlSet
  repeat' first
    | with_reducible rfl
    | simp only [keepA_mk, keepA_times, keepA_foldl, apply_ite Prod.fst, apply_ite Prod.snd, ite_self, id_eq, implies_true, begin_keepA, setSec_keepA, vStart_keepA, lowerBegin_keepA, raise_keepA]
    | with_reducible refine (vWrite_keepA _ _ _ (fun _ => ?_)).trans ?_
    | with_reducible refine ran_keepA _ _ ?_
    | with_reducible refine onVendor_keepA _ _ _ _ _ _ _ _ (fun _ => ?_) (fun _ => ?_)
    | split
    | with_reducible refine Eq.trans (keepA_foldl _ _ _ (fun _ _ => ?_)) ?_
    | with_reducible refine keepA_ite_eq ?_ ?_

theorem execLdKeyTransfer_keepM (c : Caller) (inp : List Byte) (s : State) : Answers (execLdKeyTransfer c inp s) (fun t => keepM t = keepM s) := by
  unfold execLdKeyTransfer
  repeat' first
    | with_reducible rfl
    | simp only [keepM_mk, keepM_times, keepM_foldl, apply_ite Prod.fst, apply_ite Prod.snd, ite_self, id_eq, implies_true, begin_keepM, vStart_keepM, serveKey_keepM]
    | with_reducible refine ran_keepM _ _ ?_
    | with_reducible refine onVendor_keepM _ _ _ _ _ _ _ _ (fun _ => ?_) (fun _ => ?_)
    | split
    | with_reducible refine Eq.trans (keepM_foldl _ _ _ (fun _ _ => ?_)) ?_
    | with_reducible refine keepM_ite_eq ?_ ?_

theorem execJobEnd_keepS (job : BitVec 16) (ok : Bool) (s : State) : Answers (execJobEnd job ok s) (fun t => keepS t = keepS s) := by
  unfold execJobEnd
  repeat' first
    | with_reducible rfl
    | simp only [keepS_mk, keepS_times, keepS_foldl, apply_ite Prod.fst, apply_ite Prod.snd, ite_self, id_eq, implies_true, begin_keepS, endJob_keepS, unitLeaves_keepS, begin_keepS, setUnit_keepS, testEnds_keepS, mediaNext_keepS, unitReturns_keepS]
    | with_reducible refine ran_keepS _ _ ?_
    | split
    | with_reducible refine Eq.trans (keepS_foldl _ _ _ (fun _ _ => ?_)) ?_
    | with_reducible refine keepS_ite_eq ?_ ?_

theorem execPlannedRemovalTimeout_keepM (job : BitVec 16) (s : State) : Answers (execPlannedRemovalTimeout job s) (fun t => keepM t = keepM s) := by
  unfold execPlannedRemovalTimeout
  repeat' first
    | with_reducible rfl
    | simp only [keepM_mk, keepM_times, keepM_foldl, apply_ite Prod.fst, apply_ite Prod.snd, ite_self, id_eq, implies_true, begin_keepM, endJob_keepM, begin_keepM]
    | with_reducible refine ran_keepM _ _ ?_
    | split
    | with_reducible refine Eq.trans (keepM_foldl _ _ _ (fun _ _ => ?_)) ?_
    | with_reducible refine keepM_ite_eq ?_ ?_

theorem execUnitTestTimeout_keepM (job : BitVec 16) (s : State) : Answers (execUnitTestTimeout job s) (fun t => keepM t = keepM s) := by
  unfold execUnitTestTimeout
  repeat' first
    | with_reducible rfl
    | simp only [keepM_mk, keepM_times, keepM_foldl, apply_ite Prod.fst, apply_ite Prod.snd, ite_self, id_eq, implies_true, begin_keepM, setTest_keepM, endJob_keepM, begin_keepM, setUnit_keepM]
    | with_reducible refine ran_keepM _ _ ?_
    | split
    | with_reducible refine Eq.trans (keepM_foldl _ _ _ (fun _ _ => ?_)) ?_
    | with_reducible refine keepM_ite_eq ?_ ?_

theorem execUnitIdleEntry_keepM (unit : BitVec 24) (s : State) : Answers (execUnitIdleEntry unit s) (fun t => keepM t = keepM s) := by
  unfold execUnitIdleEntry
  repeat' first
    | with_reducible rfl
    | simp only [keepM_mk, keepM_times, keepM_foldl, apply_ite Prod.fst, apply_ite Prod.snd, ite_self, id_eq, implies_true, begin_keepM, begin_keepM, setUnit_keepM]
    | with_reducible refine ran_keepM _ _ ?_
    | split
    | with_reducible refine Eq.trans (keepM_foldl _ _ _ (fun _ _ => ?_)) ?_
    | with_reducible refine keepM_ite_eq ?_ ?_

theorem execCmbEcho_keepM (slot : Fin 6) (ch : Fin 32) (m : Option CmbMsg) (s : State) : Answers (execCmbEcho slot ch m s) (fun t => keepM t = keepM s) := by
  unfold execCmbEcho
  repeat' first
    | with_reducible rfl
    | simp only [keepM_mk, keepM_times, keepM_foldl, apply_ite Prod.fst, apply_ite Prod.snd, ite_self, id_eq, implies_true, begin_keepM, cmbReply_keepM]
    | with_reducible refine (mbAccess_keepM _ _ _ _ (fun _ => ?_)).trans ?_
    | with_reducible refine ran_keepM _ _ ?_
    | with_reducible refine onCmb_keepM _ _ _ _ _ _ (fun _ => ?_)
    | split
    | with_reducible refine Eq.trans (keepM_foldl _ _ _ (fun _ _ => ?_)) ?_
    | with_reducible refine keepM_ite_eq ?_ ?_

theorem execCmbBankState_keepM (slot : Fin 6) (ch : Fin 32) (m : Option CmbMsg) (s : State) : Answers (execCmbBankState slot ch m s) (fun t => keepM t = keepM s) := by
  unfold execCmbBankState
  repeat' first
    | with_reducible rfl
    | simp only [keepM_mk, keepM_times, keepM_foldl, apply_ite Prod.fst, apply_ite Prod.snd, ite_self, id_eq, implies_true, begin_keepM, cmbReply_keepM]
    | with_reducible refine (mbAccess_keepM _ _ _ _ (fun _ => ?_)).trans ?_
    | with_reducible refine ran_keepM _ _ ?_
    | with_reducible refine onCmb_keepM _ _ _ _ _ _ (fun _ => ?_)
    | split
    | with_reducible refine Eq.trans (keepM_foldl _ _ _ (fun _ _ => ?_)) ?_
    | with_reducible refine keepM_ite_eq ?_ ?_

theorem execCmbInfo_keepM (slot : Fin 6) (ch : Fin 32) (m : Option CmbMsg) (s : State) : Answers (execCmbInfo slot ch m s) (fun t => keepM t = keepM s) := by
  unfold execCmbInfo
  repeat' first
    | with_reducible rfl
    | simp only [keepM_mk, keepM_times, keepM_foldl, apply_ite Prod.fst, apply_ite Prod.snd, ite_self, id_eq, implies_true, begin_keepM, infoAnswer_keepM, cmbReply_keepM]
    | with_reducible refine (mbAccess_keepM _ _ _ _ (fun _ => ?_)).trans ?_
    | with_reducible refine ran_keepM _ _ ?_
    | with_reducible refine onCmb_keepM _ _ _ _ _ _ (fun _ => ?_)
    | split
    | with_reducible refine Eq.trans (keepM_foldl _ _ _ (fun _ _ => ?_)) ?_
    | with_reducible refine keepM_ite_eq ?_ ?_

theorem execCmbRawRead_keepM (slot : Fin 6) (ch : Fin 32) (m : Option CmbMsg) (err : BitVec 640) (s : State) : Answers (execCmbRawRead slot ch m err s) (fun t => keepM t = keepM s) := by
  unfold execCmbRawRead
  have hr : ∀ ch die bank block addr half t, keepM (rawAnswer slot ch die bank block addr half err t) = keepM t := by
    intro ch die bank block addr half t
    unfold rawAnswer
    have hq := readRaw_keepM ch die bank block addr err t
    generalize readRaw ch die bank block addr err t = q at hq ⊢
    obtain ⟨l, u⟩ := q
    exact (cmbReply_keepM _ _ _ _ _).trans hq
  have key : ∀ (c : Bool) (t : State) (die bank block a half : Nat), keepM (if c then cmbReply slot ch mrArg [] t
      else
        let r := dieResult t ch die bank
        if r ≠ mrOk then cmbReply slot ch r [] t else rawAnswer slot ch die bank block a half err t) = keepM t := by
    intro c t die bank block a half
    split
    · exact cmbReply_keepM _ _ _ _ _
    · dsimp only
      split
      · exact cmbReply_keepM _ _ _ _ _
      · exact hr _ _ _ _ _ _ _
  exact onCmb_keepM _ _ _ _ _ _ (fun t => key _ _ _ _ _ _ _)

theorem execQmbEcho_keepM (slot : Fin 6) (q : Fin 4) (m : Option QmbMsg) (s : State) : Answers (execQmbEcho slot q m s) (fun t => keepM t = keepM s) := by
  unfold execQmbEcho
  repeat' first
    | with_reducible rfl
    | simp only [keepM_mk, keepM_times, keepM_foldl, apply_ite Prod.fst, apply_ite Prod.snd, ite_self, id_eq, implies_true, begin_keepM]
    | with_reducible refine (mbAccess_keepM _ _ _ _ (fun _ => ?_)).trans ?_
    | with_reducible refine ran_keepM _ _ ?_
    | with_reducible refine onQmb_keepM _ _ _ _ _ _
    | split
    | with_reducible refine Eq.trans (keepM_foldl _ _ _ (fun _ _ => ?_)) ?_
    | with_reducible refine keepM_ite_eq ?_ ?_

theorem execQmbChannels_keepM (slot : Fin 6) (q : Fin 4) (m : Option QmbMsg) (s : State) : Answers (execQmbChannels slot q m s) (fun t => keepM t = keepM s) := by
  unfold execQmbChannels
  repeat' first
    | with_reducible rfl
    | simp only [keepM_mk, keepM_times, keepM_foldl, apply_ite Prod.fst, apply_ite Prod.snd, ite_self, id_eq, implies_true, begin_keepM]
    | with_reducible refine (mbAccess_keepM _ _ _ _ (fun _ => ?_)).trans ?_
    | with_reducible refine ran_keepM _ _ ?_
    | with_reducible refine onQmb_keepM _ _ _ _ _ _
    | split
    | with_reducible refine Eq.trans (keepM_foldl _ _ _ (fun _ _ => ?_)) ?_
    | with_reducible refine keepM_ite_eq ?_ ?_

theorem execQmbSuspCount_keepM (slot : Fin 6) (q : Fin 4) (m : Option QmbMsg) (s : State) : Answers (execQmbSuspCount slot q m s) (fun t => keepM t = keepM s) := by
  unfold execQmbSuspCount
  repeat' first
    | with_reducible rfl
    | simp only [keepM_mk, keepM_times, keepM_foldl, apply_ite Prod.fst, apply_ite Prod.snd, ite_self, id_eq, implies_true, begin_keepM]
    | with_reducible refine (mbAccess_keepM _ _ _ _ (fun _ => ?_)).trans ?_
    | with_reducible refine ran_keepM _ _ ?_
    | with_reducible refine onQmb_keepM _ _ _ _ _ _
    | split
    | with_reducible refine Eq.trans (keepM_foldl _ _ _ (fun _ _ => ?_)) ?_
    | with_reducible refine keepM_ite_eq ?_ ?_

theorem execQmbSkew_keepM (slot : Fin 6) (q : Fin 4) (m : Option QmbMsg) (s : State) : Answers (execQmbSkew slot q m s) (fun t => keepM t = keepM s) := by
  unfold execQmbSkew
  repeat' first
    | with_reducible rfl
    | simp only [keepM_mk, keepM_times, keepM_foldl, apply_ite Prod.fst, apply_ite Prod.snd, ite_self, id_eq, implies_true, begin_keepM]
    | with_reducible refine (mbAccess_keepM _ _ _ _ (fun _ => ?_)).trans ?_
    | with_reducible refine ran_keepM _ _ ?_
    | with_reducible refine onQmb_keepM _ _ _ _ _ _
    | split
    | with_reducible refine Eq.trans (keepM_foldl _ _ _ (fun _ _ => ?_)) ?_
    | with_reducible refine keepM_ite_eq ?_ ?_

theorem execQmbRsphiRead_keepM (q : Fin 4) (s : State) : Answers (execQmbRsphiRead q s) (fun t => keepM t = keepM s) := by
  unfold execQmbRsphiRead
  repeat' first
    | with_reducible rfl
    | simp only [keepM_mk, keepM_times, keepM_foldl, apply_ite Prod.fst, apply_ite Prod.snd, ite_self, id_eq, implies_true, begin_keepM, send_keepM, begin_keepM, mbRead_keepM]
    | with_reducible refine (mbAccess_keepM _ _ _ _ (fun _ => ?_)).trans ?_
    | with_reducible refine ran_keepM _ _ ?_
    | split
    | with_reducible refine Eq.trans (keepM_foldl _ _ _ (fun _ _ => ?_)) ?_
    | with_reducible refine keepM_ite_eq ?_ ?_

theorem execSidebandDwordRead_keepM (offset : BitVec 32) (s : State) : Answers (execSidebandDwordRead offset s) (fun t => keepM t = keepM s) := by
  unfold execSidebandDwordRead
  repeat' first
    | with_reducible rfl
    | simp only [keepM_mk, keepM_times, keepM_foldl, apply_ite Prod.fst, apply_ite Prod.snd, ite_self, id_eq, implies_true, begin_keepM, send_keepM, begin_keepM, mbRead_keepM]
    | with_reducible refine (mbAccess_keepM _ _ _ _ (fun _ => ?_)).trans ?_
    | with_reducible refine ran_keepM _ _ ?_
    | split
    | with_reducible refine Eq.trans (keepM_foldl _ _ _ (fun _ _ => ?_)) ?_
    | with_reducible refine keepM_ite_eq ?_ ?_

theorem execSidebandDwordWrite_keepM (offset : BitVec 32) (data : Word) (s : State) : Answers (execSidebandDwordWrite offset data s) (fun t => keepM t = keepM s) := by
  unfold execSidebandDwordWrite
  repeat' first
    | with_reducible rfl
    | simp only [keepM_mk, keepM_times, keepM_foldl, apply_ite Prod.fst, apply_ite Prod.snd, ite_self, id_eq, implies_true, begin_keepM, send_keepM, mbWrite_keepM, begin_keepM]
    | with_reducible refine (mbAccess_keepM _ _ _ _ (fun _ => ?_)).trans ?_
    | with_reducible refine ran_keepM _ _ ?_
    | split
    | with_reducible refine Eq.trans (keepM_foldl _ _ _ (fun _ _ => ?_)) ?_
    | with_reducible refine keepM_ite_eq ?_ ?_

theorem execRegisterWrite_keepS (port : Fin 4) (offset : BitVec 24) (data : BitVec 64) (be : Byte) (s : State) : Answers (execRegisterWrite port offset data be s) (fun t => keepS t = keepS s) := by
  unfold execRegisterWrite
  repeat' first
    | with_reducible rfl
    | simp only [keepS_mk, keepS_times, keepS_foldl, apply_ite Prod.fst, apply_ite Prod.snd, ite_self, id_eq, implies_true, begin_keepS, begin_keepS, accessDword_keepS]
    | with_reducible refine ran_keepS _ _ ?_
    | split
    | with_reducible refine Eq.trans (keepS_foldl _ _ _ (fun _ _ => ?_)) ?_
    | with_reducible refine keepS_ite_eq ?_ ?_

theorem execTimeNowloRead_keepS (s : State) : Answers (execTimeNowloRead s) (fun t => keepS t = keepS s) := by
  unfold execTimeNowloRead
  repeat' first
    | with_reducible rfl
    | simp only [keepS_mk, keepS_times, keepS_foldl, apply_ite Prod.fst, apply_ite Prod.snd, ite_self, id_eq, implies_true, begin_keepS, send_keepS, begin_keepS]
    | with_reducible refine ran_keepS _ _ ?_
    | split
    | with_reducible refine Eq.trans (keepS_foldl _ _ _ (fun _ _ => ?_)) ?_
    | with_reducible refine keepS_ite_eq ?_ ?_

theorem execTimeMarkhiWrite_keepS (value : Word) (s : State) : Answers (execTimeMarkhiWrite value s) (fun t => keepS t = keepS s) := by
  unfold execTimeMarkhiWrite
  repeat' first
    | with_reducible rfl
    | simp only [keepS_mk, keepS_times, keepS_foldl, apply_ite Prod.fst, apply_ite Prod.snd, ite_self, id_eq, implies_true, begin_keepS, begin_keepS, writeMarkHi_keepS]
    | with_reducible refine ran_keepS _ _ ?_
    | split
    | with_reducible refine Eq.trans (keepS_foldl _ _ _ (fun _ _ => ?_)) ?_
    | with_reducible refine keepS_ite_eq ?_ ?_

theorem execNoticeFlagsRead_keepE (s : State) : Answers (execNoticeFlagsRead s) (fun t => keepE t = keepE s) := by
  unfold execNoticeFlagsRead
  repeat' first
    | with_reducible rfl
    | simp only [keepE_mk, keepE_times, keepE_foldl, apply_ite Prod.fst, apply_ite Prod.snd, ite_self, id_eq, implies_true, begin_keepE, send_keepE, begin_keepE, setQ_keepE]
    | with_reducible refine ran_keepE _ _ ?_
    | split
    | with_reducible refine Eq.trans (keepE_foldl _ _ _ (fun _ _ => ?_)) ?_
    | with_reducible refine keepE_ite_eq ?_ ?_

theorem execNoticeDatahiRead_keepE (s : State) : Answers (execNoticeDatahiRead s) (fun t => keepE t = keepE s) := by
  unfold execNoticeDatahiRead
  repeat' first
    | with_reducible rfl
    | simp only [keepE_mk, keepE_times, keepE_foldl, apply_ite Prod.fst, apply_ite Prod.snd, ite_self, id_eq, implies_true, begin_keepE, begin_keepE, noticeDatahi_keepE]
    | with_reducible refine ran_keepE _ _ ?_
    | split
    | with_reducible refine Eq.trans (keepE_foldl _ _ _ (fun _ _ => ?_)) ?_
    | with_reducible refine keepE_ite_eq ?_ ?_

theorem execNoticeCtrlMark_keepE (s : State) : Answers (execNoticeCtrlMark s) (fun t => keepE t = keepE s) := by
  unfold execNoticeCtrlMark
  repeat' first
    | with_reducible rfl
    | simp only [keepE_mk, keepE_times, keepE_foldl, apply_ite Prod.fst, apply_ite Prod.snd, ite_self, id_eq, implies_true, begin_keepE, qMark_keepE, begin_keepE]
    | with_reducible refine ran_keepE _ _ ?_
    | split
    | with_reducible refine Eq.trans (keepE_foldl _ _ _ (fun _ _ => ?_)) ?_
    | with_reducible refine keepE_ite_eq ?_ ?_

theorem execNoticeCtrlRewind_keepE (s : State) : Answers (execNoticeCtrlRewind s) (fun t => keepE t = keepE s) := by
  unfold execNoticeCtrlRewind
  repeat' first
    | with_reducible rfl
    | simp only [keepE_mk, keepE_times, keepE_foldl, apply_ite Prod.fst, apply_ite Prod.snd, ite_self, id_eq, implies_true, begin_keepE, begin_keepE, qRewind_keepE]
    | with_reducible refine ran_keepE _ _ ?_
    | split
    | with_reducible refine Eq.trans (keepE_foldl _ _ _ (fun _ _ => ?_)) ?_
    | with_reducible refine keepE_ite_eq ?_ ?_

theorem execNoticeCtrlRelease_keepE (n : BitVec 16) (s : State) : Answers (execNoticeCtrlRelease n s) (fun t => keepE t = keepE s) := by
  unfold execNoticeCtrlRelease
  repeat' first
    | with_reducible rfl
    | simp only [keepE_mk, keepE_times, keepE_foldl, apply_ite Prod.fst, apply_ite Prod.snd, ite_self, id_eq, implies_true, begin_keepE, begin_keepE, releaseWords_keepE]
    | with_reducible refine ran_keepE _ _ ?_
    | split
    | with_reducible refine Eq.trans (keepE_foldl _ _ _ (fun _ _ => ?_)) ?_
    | with_reducible refine keepE_ite_eq ?_ ?_

theorem execReadstatCtrlClear_keepM (inc : Byte) (s : State) : Answers (execReadstatCtrlClear inc s) (fun t => keepM t = keepM s) := by
  unfold execReadstatCtrlClear
  repeat' first
    | with_reducible rfl
    | simp only [keepM_mk, keepM_times, keepM_foldl, apply_ite Prod.fst, apply_ite Prod.snd, ite_self, id_eq, implies_true, begin_keepM, begin_keepM, clearReadstat_keepM]
    | with_reducible refine ran_keepM _ _ ?_
    | split
    | with_reducible refine Eq.trans (keepM_foldl _ _ _ (fun _ _ => ?_)) ?_
    | with_reducible refine keepM_ite_eq ?_ ?_

theorem execWritestatCtrlClear_keepM (inc : Byte) (s : State) : Answers (execWritestatCtrlClear inc s) (fun t => keepM t = keepM s) := by
  unfold execWritestatCtrlClear
  repeat' first
    | with_reducible rfl
    | simp only [keepM_mk, keepM_times, keepM_foldl, apply_ite Prod.fst, apply_ite Prod.snd, ite_self, id_eq, implies_true, begin_keepM, begin_keepM, clearWritestat_keepM]
    | with_reducible refine ran_keepM _ _ ?_
    | split
    | with_reducible refine Eq.trans (keepM_foldl _ _ _ (fun _ _ => ?_)) ?_
    | with_reducible refine keepM_ite_eq ?_ ?_

theorem execCacheCtrlClear_keepM (inc : Byte) (s : State) : Answers (execCacheCtrlClear inc s) (fun t => keepM t = keepM s) := by
  unfold execCacheCtrlClear
  repeat' first
    | with_reducible rfl
    | simp only [keepM_mk, keepM_times, keepM_foldl, apply_ite Prod.fst, apply_ite Prod.snd, ite_self, id_eq, implies_true, begin_keepM, clearCachestat_keepM, begin_keepM]
    | with_reducible refine ran_keepM _ _ ?_
    | split
    | with_reducible refine Eq.trans (keepM_foldl _ _ _ (fun _ _ => ?_)) ?_
    | with_reducible refine keepM_ite_eq ?_ ?_

theorem execMchRetrainClear_keepM (ch : Fin 32) (inc : Byte) (s : State) : Answers (execMchRetrainClear ch inc s) (fun t => keepM t = keepM s) := by
  unfold execMchRetrainClear
  repeat' first
    | with_reducible rfl
    | simp only [keepM_mk, keepM_times, keepM_foldl, apply_ite Prod.fst, apply_ite Prod.snd, ite_self, id_eq, implies_true, begin_keepM, begin_keepM, clearMch_keepM]
    | with_reducible refine ran_keepM _ _ ?_
    | split
    | with_reducible refine Eq.trans (keepM_foldl _ _ _ (fun _ _ => ?_)) ?_
    | with_reducible refine keepM_ite_eq ?_ ?_

theorem execMmstatCtrlClear_keepM (inc : Byte) (s : State) : Answers (execMmstatCtrlClear inc s) (fun t => keepM t = keepM s) := by
  unfold execMmstatCtrlClear
  repeat' first
    | with_reducible rfl
    | simp only [keepM_mk, keepM_times, keepM_foldl, apply_ite Prod.fst, apply_ite Prod.snd, ite_self, id_eq, implies_true, begin_keepM, begin_keepM, clearMmstat_keepM]
    | with_reducible refine ran_keepM _ _ ?_
    | split
    | with_reducible refine Eq.trans (keepM_foldl _ _ _ (fun _ _ => ?_)) ?_
    | with_reducible refine keepM_ite_eq ?_ ?_

theorem execLpstatCtrlClear_keepM (inc : Byte) (s : State) : Answers (execLpstatCtrlClear inc s) (fun t => keepM t = keepM s) := by
  unfold execLpstatCtrlClear
  repeat' first
    | with_reducible rfl
    | simp only [keepM_mk, keepM_times, keepM_foldl, apply_ite Prod.fst, apply_ite Prod.snd, ite_self, id_eq, implies_true, begin_keepM, clearLpstat_keepM, begin_keepM]
    | with_reducible refine ran_keepM _ _ ?_
    | split
    | with_reducible refine Eq.trans (keepM_foldl _ _ _ (fun _ _ => ?_)) ?_
    | with_reducible refine keepM_ite_eq ?_ ?_

theorem execSpanstatCtrlClear_keepM (inc : Byte) (s : State) : Answers (execSpanstatCtrlClear inc s) (fun t => keepM t = keepM s) := by
  unfold execSpanstatCtrlClear
  repeat' first
    | with_reducible rfl
    | simp only [keepM_mk, keepM_times, keepM_foldl, apply_ite Prod.fst, apply_ite Prod.snd, ite_self, id_eq, implies_true, begin_keepM, clearSpanstat_keepM, begin_keepM]
    | with_reducible refine ran_keepM _ _ ?_
    | split
    | with_reducible refine Eq.trans (keepM_foldl _ _ _ (fun _ _ => ?_)) ?_
    | with_reducible refine keepM_ite_eq ?_ ?_

theorem execTtstatCtrlClear_keepM (inc : Byte) (s : State) : Answers (execTtstatCtrlClear inc s) (fun t => keepM t = keepM s) := by
  unfold execTtstatCtrlClear
  repeat' first
    | with_reducible rfl
    | simp only [keepM_mk, keepM_times, keepM_foldl, apply_ite Prod.fst, apply_ite Prod.snd, ite_self, id_eq, implies_true, begin_keepM, begin_keepM, clearTtstat_keepM]
    | with_reducible refine ran_keepM _ _ ?_
    | split
    | with_reducible refine Eq.trans (keepM_foldl _ _ _ (fun _ _ => ?_)) ?_
    | with_reducible refine keepM_ite_eq ?_ ?_

theorem execStrongboxCtrlClear_keepE (inc : Byte) (s : State) : Answers (execStrongboxCtrlClear inc s) (fun t => keepE t = keepE s) := by
  unfold execStrongboxCtrlClear
  repeat' first
    | with_reducible rfl
    | simp only [keepE_mk, keepE_times, keepE_foldl, apply_ite Prod.fst, apply_ite Prod.snd, ite_self, id_eq, implies_true, begin_keepE, clearStrongbox_keepE, begin_keepE]
    | with_reducible refine ran_keepE _ _ ?_
    | split
    | with_reducible refine Eq.trans (keepE_foldl _ _ _ (fun _ _ => ?_)) ?_
    | with_reducible refine keepE_ite_eq ?_ ?_

theorem execPwrCtrlClear_keepS (inc : Byte) (s : State) : Answers (execPwrCtrlClear inc s) (fun t => keepS t = keepS s) := by
  unfold execPwrCtrlClear
  repeat' first
    | with_reducible rfl
    | simp only [keepS_mk, keepS_times, keepS_foldl, apply_ite Prod.fst, apply_ite Prod.snd, ite_self, id_eq, implies_true, begin_keepS, begin_keepS, clearPwr_keepS]
    | with_reducible refine ran_keepS _ _ ?_
    | split
    | with_reducible refine Eq.trans (keepS_foldl _ _ _ (fun _ _ => ?_)) ?_
    | with_reducible refine keepS_ite_eq ?_ ?_

theorem execThrmstatCtrlClear_keepS (inc : Byte) (s : State) : Answers (execThrmstatCtrlClear inc s) (fun t => keepS t = keepS s) := by
  unfold execThrmstatCtrlClear
  repeat' first
    | with_reducible rfl
    | simp only [keepS_mk, keepS_times, keepS_foldl, apply_ite Prod.fst, apply_ite Prod.snd, ite_self, id_eq, implies_true, begin_keepS, begin_keepS, clearThrmstat_keepS]
    | with_reducible refine ran_keepS _ _ ?_
    | split
    | with_reducible refine Eq.trans (keepS_foldl _ _ _ (fun _ _ => ?_)) ?_
    | with_reducible refine keepS_ite_eq ?_ ?_

theorem execWbCtrlFlush_keepE (s : State) : Answers (execWbCtrlFlush s) (fun t => keepE t = keepE s) := by
  unfold execWbCtrlFlush
  repeat' first
    | with_reducible rfl
    | simp only [keepE_mk, keepE_times, keepE_foldl, apply_ite Prod.fst, apply_ite Prod.snd, ite_self, id_eq, implies_true, begin_keepE, begin_keepE, startFlush_keepE]
    | with_reducible refine ran_keepE _ _ ?_
    | split
    | with_reducible refine Eq.trans (keepE_foldl _ _ _ (fun _ _ => ?_)) ?_
    | with_reducible refine keepE_ite_eq ?_ ?_

theorem execInjCtrlArm_keepS (s : State) : Answers (execInjCtrlArm s) (fun t => keepS t = keepS s) := by
  unfold execInjCtrlArm
  repeat' first
    | with_reducible rfl
    | simp only [keepS_mk, keepS_times, keepS_foldl, apply_ite Prod.fst, apply_ite Prod.snd, ite_self, id_eq, implies_true, begin_keepS, regArm_keepS, begin_keepS]
    | with_reducible refine ran_keepS _ _ ?_
    | split
    | with_reducible refine Eq.trans (keepS_foldl _ _ _ (fun _ _ => ?_)) ?_
    | with_reducible refine keepS_ite_eq ?_ ?_

theorem execInjCtrlDisarm_keepE (s : State) : Answers (execInjCtrlDisarm s) (fun t => keepE t = keepE s) := by
  unfold execInjCtrlDisarm
  repeat' first
    | with_reducible rfl
    | simp only [keepE_mk, keepE_times, keepE_foldl, apply_ite Prod.fst, apply_ite Prod.snd, ite_self, id_eq, implies_true, begin_keepE, begin_keepE, regDisarm_keepE]
    | with_reducible refine ran_keepE _ _ ?_
    | split
    | with_reducible refine Eq.trans (keepE_foldl _ _ _ (fun _ _ => ?_)) ?_
    | with_reducible refine keepE_ite_eq ?_ ?_

theorem execInjectDurationEnd_keepE (point : BitVec 16) (unit : BitVec 24) (s : State) : Answers (execInjectDurationEnd point unit s) (fun t => keepE t = keepE s) := by
  unfold execInjectDurationEnd
  repeat' first
    | with_reducible rfl
    | simp only [keepE_mk, keepE_times, keepE_foldl, apply_ite Prod.fst, apply_ite Prod.snd, ite_self, id_eq, implies_true, begin_keepE, disarm_keepE, begin_keepE]
    | with_reducible refine ran_keepE _ _ ?_
    | split
    | with_reducible refine Eq.trans (keepE_foldl _ _ _ (fun _ _ => ?_)) ?_
    | with_reducible refine keepE_ite_eq ?_ ?_

theorem execQueueWrite_keepE (q : Fin 64) (word : BitVec 64) (poison : Bool) (s : State) : Answers (execQueueWrite q word poison s) (fun t => keepE t = keepE s) := by
  unfold execQueueWrite
  repeat' first
    | with_reducible rfl
    | simp only [keepE_mk, keepE_times, keepE_foldl, apply_ite Prod.fst, apply_ite Prod.snd, ite_self, id_eq, implies_true, begin_keepE, queueRecord_keepE, begin_keepE, qPush_keepE, setQ_keepE]
    | with_reducible refine ran_keepE _ _ ?_
    | split
    | with_reducible refine Eq.trans (keepE_foldl _ _ _ (fun _ _ => ?_)) ?_
    | with_reducible refine keepE_ite_eq ?_ ?_

theorem execQueueRead_keepM (q : Fin 64) (s : State) : Answers (execQueueRead q s) (fun t => keepM t = keepM s) := by
  unfold execQueueRead
  repeat' first
    | with_reducible rfl
    | simp only [keepM_mk, keepM_times, keepM_foldl, apply_ite Prod.fst, apply_ite Prod.snd, ite_self, id_eq, implies_true, begin_keepM, send_keepM, begin_keepM, onPoisoned_keepM, qTake_keepM]
    | with_reducible refine ran_keepM _ _ ?_
    | split
    | with_reducible refine Eq.trans (keepM_foldl _ _ _ (fun _ _ => ?_)) ?_
    | with_reducible refine keepM_ite_eq ?_ ?_

theorem execQueueMark_keepE (q : Fin 64) (s : State) : Answers (execQueueMark q s) (fun t => keepE t = keepE s) := by
  unfold execQueueMark
  repeat' first
    | with_reducible rfl
    | simp only [keepE_mk, keepE_times, keepE_foldl, apply_ite Prod.fst, apply_ite Prod.snd, ite_self, id_eq, implies_true, begin_keepE, qMark_keepE, begin_keepE]
    | with_reducible refine ran_keepE _ _ ?_
    | split
    | with_reducible refine Eq.trans (keepE_foldl _ _ _ (fun _ _ => ?_)) ?_
    | with_reducible refine keepE_ite_eq ?_ ?_

theorem execQueueRewind_keepE (q : Fin 64) (s : State) : Answers (execQueueRewind q s) (fun t => keepE t = keepE s) := by
  unfold execQueueRewind
  repeat' first
    | with_reducible rfl
    | simp only [keepE_mk, keepE_times, keepE_foldl, apply_ite Prod.fst, apply_ite Prod.snd, ite_self, id_eq, implies_true, begin_keepE, begin_keepE, qRewind_keepE]
    | with_reducible refine ran_keepE _ _ ?_
    | split
    | with_reducible refine Eq.trans (keepE_foldl _ _ _ (fun _ _ => ?_)) ?_
    | with_reducible refine keepE_ite_eq ?_ ?_

theorem execQueueRelease_keepE (q : Fin 64) (n : Word) (s : State) : Answers (execQueueRelease q n s) (fun t => keepE t = keepE s) := by
  unfold execQueueRelease
  repeat' first
    | with_reducible rfl
    | simp only [keepE_mk, keepE_times, keepE_foldl, apply_ite Prod.fst, apply_ite Prod.snd, ite_self, id_eq, implies_true, begin_keepE, begin_keepE, releaseWords_keepE]
    | with_reducible refine ran_keepE _ _ ?_
    | split
    | with_reducible refine Eq.trans (keepE_foldl _ _ _ (fun _ _ => ?_)) ?_
    | with_reducible refine keepE_ite_eq ?_ ?_

theorem execQueueTailExpiry_keepM (q : Fin 64) (s : State) : Answers (execQueueTailExpiry q s) (fun t => keepM t = keepM s) := by
  unfold execQueueTailExpiry
  repeat' first
    | with_reducible rfl
    | simp only [keepM_mk, keepM_times, keepM_foldl, apply_ite Prod.fst, apply_ite Prod.snd, ite_self, id_eq, implies_true, begin_keepM, send_keepM, queueRecord_keepM, closeBatch_keepM, begin_keepM, signal_keepM, setEvt_keepM, setQ_keepM]
    | with_reducible refine ran_keepM _ _ ?_
    | split
    | with_reducible refine Eq.trans (keepM_foldl _ _ _ (fun _ _ => ?_)) ?_
    | with_reducible refine keepM_ite_eq ?_ ?_

theorem execRead_keepM (ch : Fin 32) (p : Pkt) (s : State) : Answers (execRead ch p s) (fun t => keepM t = keepM s) := by
  unfold execRead
  repeat' first
    | with_reducible rfl
    | simp only [keepM_mk, keepM_times, keepM_foldl, apply_ite Prod.fst, apply_ite Prod.snd, ite_self, id_eq, implies_true, begin_keepM, setBank_keepM, begin_keepM, queueEvent_keepM]
    | with_reducible refine (onPacket_keepM _ _ _ _ _ (fun _ => ?_)).trans ?_
    | with_reducible refine ran_keepM _ _ ?_
    | split
    | with_reducible refine Eq.trans (keepM_foldl _ _ _ (fun _ _ => ?_)) ?_
    | with_reducible refine keepM_ite_eq ?_ ?_

theorem execRefset_keepM (ch : Fin 32) (p : Pkt) (s : State) : Answers (execRefset ch p s) (fun t => keepM t = keepM s) := by
  unfold execRefset
  repeat' first
    | with_reducible rfl
    | simp only [keepM_mk, keepM_times, keepM_foldl, apply_ite Prod.fst, apply_ite Prod.snd, ite_self, id_eq, implies_true, begin_keepM, setBank_keepM, begin_keepM]
    | with_reducible refine (onPacket_keepM _ _ _ _ _ (fun _ => ?_)).trans ?_
    | with_reducible refine ran_keepM _ _ ?_
    | split
    | with_reducible refine Eq.trans (keepM_foldl _ _ _ (fun _ _ => ?_)) ?_
    | with_reducible refine keepM_ite_eq ?_ ?_

theorem execRefload_keepM (ch : Fin 32) (p : Pkt) (data : BitVec 64) (s : State) : Answers (execRefload ch p data s) (fun t => keepM t = keepM s) := by
  unfold execRefload
  repeat' first
    | with_reducible rfl
    | simp only [keepM_mk, keepM_times, keepM_foldl, apply_ite Prod.fst, apply_ite Prod.snd, ite_self, id_eq, implies_true, begin_keepM, setBank_keepM, begin_keepM]
    | with_reducible refine (onPacket_keepM _ _ _ _ _ (fun _ => ?_)).trans ?_
    | with_reducible refine ran_keepM _ _ ?_
    | split
    | with_reducible refine Eq.trans (keepM_foldl _ _ _ (fun _ _ => ?_)) ?_
    | with_reducible refine keepM_ite_eq ?_ ?_

theorem execProg_keepM (ch : Fin 32) (p : Pkt) (s : State) : Answers (execProg ch p s) (fun t => keepM t = keepM s) := by
  unfold execProg
  repeat' first
    | with_reducible rfl
    | simp only [keepM_mk, keepM_times, keepM_foldl, apply_ite Prod.fst, apply_ite Prod.snd, ite_self, id_eq, implies_true, begin_keepM, setBank_keepM, begin_keepM, illegalPkt_keepM]
    | with_reducible refine (onPacket_keepM _ _ _ _ _ (fun _ => ?_)).trans ?_
    | with_reducible refine ran_keepM _ _ ?_
    | split
    | with_reducible refine Eq.trans (keepM_foldl _ _ _ (fun _ _ => ?_)) ?_
    | with_reducible refine keepM_ite_eq ?_ ?_

end Sys2Proof.Machine
end

