-- ==== Sys2Proof/Laws/Commands3.lean ====
section
/-! SUPPORT. What each command leaves alone, whatever its operands and the state: it answers a next state that agrees with the one before on the sections of its class (Safety). Rows 151 to 225 of the opcode table. -/

set_option linter.all false

namespace Sys2Proof.Machine

theorem execWdata_keepM (ch : Fin 32) (p : Pkt) (data : BitVec 1024) (s : State) : Answers (execWdata ch p data s) (fun t => keepM t = keepM s) := by
  unfold execWdata
  repeat' first
    | with_reducible rfl
    | simp only [keepM_mk, keepM_times, keepM_foldl, apply_ite Prod.fst, apply_ite Prod.snd, ite_self, id_eq, implies_true, begin_keepM, setBank_keepM, begin_keepM, undefTarget_keepM, illegalPkt_keepM]
    | with_reducible refine (onPacket_keepM _ _ _ _ _ (fun _ => ?_)).trans ?_
    | with_reducible refine ran_keepM _ _ ?_
    | split
    | with_reducible refine Eq.trans (keepM_foldl _ _ _ (fun _ _ => ?_)) ?_
    | with_reducible refine keepM_ite_eq ?_ ?_

theorem execFprog_keepM (ch : Fin 32) (p : Pkt) (data : MediaLine) (s : State) : Answers (execFprog ch p data s) (fun t => keepM t = keepM s) := by
  unfold execFprog
  repeat' first
    | with_reducible rfl
    | simp only [keepM_mk, keepM_times, keepM_foldl, apply_ite Prod.fst, apply_ite Prod.snd, ite_self, id_eq, implies_true, begin_keepM, setBank_keepM, begin_keepM, undefTarget_keepM, illegalPkt_keepM]
    | with_reducible refine (onPacket_keepM _ _ _ _ _ (fun _ => ?_)).trans ?_
    | with_reducible refine ran_keepM _ _ ?_
    | split
    | with_reducible refine Eq.trans (keepM_foldl _ _ _ (fun _ _ => ?_)) ?_
    | with_reducible refine keepM_ite_eq ?_ ?_

theorem execPfin_keepM (ch : Fin 32) (p : Pkt) (s : State) : Answers (execPfin ch p s) (fun t => keepM t = keepM s) := by
  unfold execPfin
  repeat' first
    | with_reducible rfl
    | simp only [keepM_mk, keepM_times, keepM_foldl, apply_ite Prod.fst, apply_ite Prod.snd, ite_self, id_eq, implies_true, begin_keepM, setBank_keepM, begin_keepM, illegalPkt_keepM]
    | with_reducible refine (onPacket_keepM _ _ _ _ _ (fun _ => ?_)).trans ?_
    | with_reducible refine ran_keepM _ _ ?_
    | split
    | with_reducible refine Eq.trans (keepM_foldl _ _ _ (fun _ _ => ?_)) ?_
    | with_reducible refine keepM_ite_eq ?_ ?_

theorem execPabort_keepM (ch : Fin 32) (p : Pkt) (s : State) : Answers (execPabort ch p s) (fun t => keepM t = keepM s) := by
  unfold execPabort
  repeat' first
    | with_reducible rfl
    | simp only [keepM_mk, keepM_times, keepM_foldl, apply_ite Prod.fst, apply_ite Prod.snd, ite_self, id_eq, implies_true, begin_keepM, setBank_keepM, begin_keepM, queueEvent_keepM, illegalPkt_keepM]
    | with_reducible refine (onPacket_keepM _ _ _ _ _ (fun _ => ?_)).trans ?_
    | with_reducible refine ran_keepM _ _ ?_
    | split
    | with_reducible refine Eq.trans (keepM_foldl _ _ _ (fun _ _ => ?_)) ?_
    | with_reducible refine keepM_ite_eq ?_ ?_

theorem execClear_keepM (ch : Fin 32) (p : Pkt) (stamp : BitVec 64) (s : State) : Answers (execClear ch p stamp s) (fun t => keepM t = keepM s) := by
  unfold execClear
  repeat' first
    | with_reducible rfl
    | simp only [keepM_mk, keepM_times, keepM_foldl, apply_ite Prod.fst, apply_ite Prod.snd, ite_self, id_eq, implies_true, begin_keepM, setBank_keepM, begin_keepM, setStamp_keepM, dropBlock_keepM, illegalPkt_keepM]
    | with_reducible refine (onPacket_keepM _ _ _ _ _ (fun _ => ?_)).trans ?_
    | with_reducible refine ran_keepM _ _ ?_
    | split
    | with_reducible refine Eq.trans (keepM_foldl _ _ _ (fun _ _ => ?_)) ?_
    | with_reducible refine keepM_ite_eq ?_ ?_

theorem execSusp_keepM (ch : Fin 32) (p : Pkt) (s : State) : Answers (execSusp ch p s) (fun t => keepM t = keepM s) := by
  unfold execSusp
  repeat' first
    | with_reducible rfl
    | simp only [keepM_mk, keepM_times, keepM_foldl, apply_ite Prod.fst, apply_ite Prod.snd, ite_self, id_eq, implies_true, begin_keepM, setBank_keepM, begin_keepM, queueEvent_keepM]
    | with_reducible refine (onPacket_keepM _ _ _ _ _ (fun _ => ?_)).trans ?_
    | with_reducible refine ran_keepM _ _ ?_
    | split
    | with_reducible refine Eq.trans (keepM_foldl _ _ _ (fun _ _ => ?_)) ?_
    | with_reducible refine keepM_ite_eq ?_ ?_

theorem execResume_keepM (ch : Fin 32) (p : Pkt) (s : State) : Answers (execResume ch p s) (fun t => keepM t = keepM s) := by
  unfold execResume
  repeat' first
    | with_reducible rfl
    | simp only [keepM_mk, keepM_times, keepM_foldl, apply_ite Prod.fst, apply_ite Prod.snd, ite_self, id_eq, implies_true, begin_keepM, setBank_keepM, begin_keepM, resumeNow_keepM, illegalPkt_keepM]
    | with_reducible refine (onPacket_keepM _ _ _ _ _ (fun _ => ?_)).trans ?_
    | with_reducible refine ran_keepM _ _ ?_
    | split
    | with_reducible refine Eq.trans (keepM_foldl _ _ _ (fun _ _ => ?_)) ?_
    | with_reducible refine keepM_ite_eq ?_ ?_

theorem execSrd_keepM (ch : Fin 32) (p : Pkt) (s : State) : Answers (execSrd ch p s) (fun t => keepM t = keepM s) := by
  unfold execSrd
  repeat' first
    | with_reducible rfl
    | simp only [keepM_mk, keepM_times, keepM_foldl, apply_ite Prod.fst, apply_ite Prod.snd, ite_self, id_eq, implies_true, begin_keepM, begin_keepM, onInfo_keepM]
    | with_reducible refine ran_keepM _ _ ?_
    | split
    | with_reducible refine Eq.trans (keepM_foldl _ _ _ (fun _ _ => ?_)) ?_
    | with_reducible refine keepM_ite_eq ?_ ?_

theorem execStatus_keepM (ch : Fin 32) (p : Pkt) (s : State) : Answers (execStatus ch p s) (fun t => keepM t = keepM s) := by
  unfold execStatus
  repeat' first
    | with_reducible rfl
    | simp only [keepM_mk, keepM_times, keepM_foldl, apply_ite Prod.fst, apply_ite Prod.snd, ite_self, id_eq, implies_true, begin_keepM, begin_keepM, onInfo_keepM]
    | with_reducible refine ran_keepM _ _ ?_
    | split
    | with_reducible refine Eq.trans (keepM_foldl _ _ _ (fun _ _ => ?_)) ?_
    | with_reducible refine keepM_ite_eq ?_ ?_

theorem execTemp_keepM (ch : Fin 32) (p : Pkt) (s : State) : Answers (execTemp ch p s) (fun t => keepM t = keepM s) := by
  unfold execTemp
  repeat' first
    | with_reducible rfl
    | simp only [keepM_mk, keepM_times, keepM_foldl, apply_ite Prod.fst, apply_ite Prod.snd, ite_self, id_eq, implies_true, begin_keepM, begin_keepM, onInfo_keepM]
    | with_reducible refine ran_keepM _ _ ?_
    | split
    | with_reducible refine Eq.trans (keepM_foldl _ _ _ (fun _ _ => ?_)) ?_
    | with_reducible refine keepM_ite_eq ?_ ?_

theorem execIdent_keepM (ch : Fin 32) (p : Pkt) (s : State) : Answers (execIdent ch p s) (fun t => keepM t = keepM s) := by
  unfold execIdent
  repeat' first
    | with_reducible rfl
    | simp only [keepM_mk, keepM_times, keepM_foldl, apply_ite Prod.fst, apply_ite Prod.snd, ite_self, id_eq, implies_true, begin_keepM, begin_keepM, onInfo_keepM]
    | with_reducible refine ran_keepM _ _ ?_
    | split
    | with_reducible refine Eq.trans (keepM_foldl _ _ _ (fun _ _ => ?_)) ?_
    | with_reducible refine keepM_ite_eq ?_ ?_

theorem execGetf_keepM (ch : Fin 32) (p : Pkt) (s : State) : Answers (execGetf ch p s) (fun t => keepM t = keepM s) := by
  unfold execGetf
  repeat' first
    | with_reducible rfl
    | simp only [keepM_mk, keepM_times, keepM_foldl, apply_ite Prod.fst, apply_ite Prod.snd, ite_self, id_eq, implies_true, begin_keepM, begin_keepM, onInfo_keepM]
    | with_reducible refine ran_keepM _ _ ?_
    | split
    | with_reducible refine Eq.trans (keepM_foldl _ _ _ (fun _ _ => ?_)) ?_
    | with_reducible refine keepM_ite_eq ?_ ?_

theorem execSetf_keepM (ch : Fin 32) (p : Pkt) (s : State) : Answers (execSetf ch p s) (fun t => keepM t = keepM s) := by
  unfold execSetf
  repeat' first
    | with_reducible rfl
    | simp only [keepM_mk, keepM_times, keepM_foldl, apply_ite Prod.fst, apply_ite Prod.snd, ite_self, id_eq, implies_true, begin_keepM, begin_keepM, setStack_keepM]
    | with_reducible refine (onPacket_keepM _ _ _ _ _ (fun _ => ?_)).trans ?_
    | with_reducible refine ran_keepM _ _ ?_
    | split
    | with_reducible refine Eq.trans (keepM_foldl _ _ _ (fun _ _ => ?_)) ?_
    | with_reducible refine keepM_ite_eq ?_ ?_

theorem execRdout_keepM (ch : Fin 32) (p : Pkt) (s : State) : Answers (execRdout ch p s) (fun t => keepM t = keepM s) := by
  unfold execRdout
  repeat' first
    | with_reducible rfl
    | simp only [keepM_mk, keepM_times, keepM_foldl, apply_ite Prod.fst, apply_ite Prod.snd, ite_self, id_eq, implies_true, begin_keepM, send_keepM, begin_keepM, setStack_keepM]
    | with_reducible refine (onPacket_keepM _ _ _ _ _ (fun _ => ?_)).trans ?_
    | with_reducible refine ran_keepM _ _ ?_
    | split
    | with_reducible refine Eq.trans (keepM_foldl _ _ _ (fun _ _ => ?_)) ?_
    | with_reducible refine keepM_ite_eq ?_ ?_

theorem execZqcal_keepM (ch : Fin 32) (p : Pkt) (s : State) : Answers (execZqcal ch p s) (fun t => keepM t = keepM s) := by
  unfold execZqcal
  repeat' first
    | with_reducible rfl
    | simp only [keepM_mk, keepM_times, keepM_foldl, apply_ite Prod.fst, apply_ite Prod.snd, ite_self, id_eq, implies_true, begin_keepM, begin_keepM, setStack_keepM]
    | with_reducible refine (onPacket_keepM _ _ _ _ _ (fun _ => ?_)).trans ?_
    | with_reducible refine ran_keepM _ _ ?_
    | split
    | with_reducible refine Eq.trans (keepM_foldl _ _ _ (fun _ _ => ?_)) ?_
    | with_reducible refine keepM_ite_eq ?_ ?_

theorem execCatrain_keepM (ch : Fin 32) (p : Pkt) (s : State) : Answers (execCatrain ch p s) (fun t => keepM t = keepM s) := by
  unfold execCatrain
  repeat' first
    | with_reducible rfl
    | simp only [keepM_mk, keepM_times, keepM_foldl, apply_ite Prod.fst, apply_ite Prod.snd, ite_self, id_eq, implies_true, begin_keepM, begin_keepM, setStack_keepM]
    | with_reducible refine (onPacket_keepM _ _ _ _ _ (fun _ => ?_)).trans ?_
    | with_reducible refine ran_keepM _ _ ?_
    | split
    | with_reducible refine Eq.trans (keepM_foldl _ _ _ (fun _ _ => ?_)) ?_
    | with_reducible refine keepM_ite_eq ?_ ?_

theorem execWrpat_keepM (ch : Fin 32) (p : Pkt) (data : BitVec 1024) (s : State) : Answers (execWrpat ch p data s) (fun t => keepM t = keepM s) := by
  unfold execWrpat
  repeat' first
    | with_reducible rfl
    | simp only [keepM_mk, keepM_times, keepM_foldl, apply_ite Prod.fst, apply_ite Prod.snd, ite_self, id_eq, implies_true, begin_keepM, begin_keepM, setStack_keepM]
    | with_reducible refine (onPacket_keepM _ _ _ _ _ (fun _ => ?_)).trans ?_
    | with_reducible refine ran_keepM _ _ ?_
    | split
    | with_reducible refine Eq.trans (keepM_foldl _ _ _ (fun _ _ => ?_)) ?_
    | with_reducible refine keepM_ite_eq ?_ ?_

theorem execRdpat_keepM (ch : Fin 32) (p : Pkt) (s : State) : Answers (execRdpat ch p s) (fun t => keepM t = keepM s) := by
  unfold execRdpat
  repeat' first
    | with_reducible rfl
    | simp only [keepM_mk, keepM_times, keepM_foldl, apply_ite Prod.fst, apply_ite Prod.snd, ite_self, id_eq, implies_true, begin_keepM, begin_keepM, pendInfo_keepM]
    | with_reducible refine (onPacket_keepM _ _ _ _ _ (fun _ => ?_)).trans ?_
    | with_reducible refine ran_keepM _ _ ?_
    | split
    | with_reducible refine Eq.trans (keepM_foldl _ _ _ (fun _ _ => ?_)) ?_
    | with_reducible refine keepM_ite_eq ?_ ?_

theorem execDreset_keepM (ch : Fin 32) (p : Pkt) (s : State) : Answers (execDreset ch p s) (fun t => keepM t = keepM s) := by
  unfold execDreset
  repeat' first
    | with_reducible rfl
    | simp only [keepM_mk, keepM_times, keepM_foldl, apply_ite Prod.fst, apply_ite Prod.snd, ite_self, id_eq, implies_true, begin_keepM, begin_keepM, setStack_keepM]
    | with_reducible refine (onPacket_keepM _ _ _ _ _ (fun _ => ?_)).trans ?_
    | with_reducible refine ran_keepM _ _ ?_
    | split
    | with_reducible refine Eq.trans (keepM_foldl _ _ _ (fun _ _ => ?_)) ?_
    | with_reducible refine keepM_ite_eq ?_ ?_

theorem execMediaUnknownOpcode_keepM (ch : Fin 32) (op : Byte) (p : Pkt) (s : State) : Answers (execMediaUnknownOpcode ch op p s) (fun t => keepM t = keepM s) := by
  unfold execMediaUnknownOpcode
  repeat' first
    | with_reducible rfl
    | simp only [keepM_mk, keepM_times, keepM_foldl, apply_ite Prod.fst, apply_ite Prod.snd, ite_self, id_eq, implies_true, begin_keepM, begin_keepM, illegalPkt_keepM]
    | with_reducible refine (onPacket_keepM _ _ _ _ _ (fun _ => ?_)).trans ?_
    | with_reducible refine ran_keepM _ _ ?_
    | split
    | with_reducible refine Eq.trans (keepM_foldl _ _ _ (fun _ _ => ?_)) ?_
    | with_reducible refine keepM_ite_eq ?_ ?_

theorem execTreadEnd_keepM (ch : Fin 32) (tag : BitVec 7) (err : BitVec 640) (s : State) : Answers (execTreadEnd ch tag err s) (fun t => keepM t = keepM s) := by
  unfold execTreadEnd
  repeat' first
    | with_reducible rfl
    | simp only [keepM_mk, keepM_times, keepM_foldl, apply_ite Prod.fst, apply_ite Prod.snd, ite_self, id_eq, implies_true, begin_keepM, setBank_keepM, begin_keepM, resumeNow_keepM, queueFrame_keepM, readRaw_keepM]
    | with_reducible refine ran_keepM _ _ ?_
    | split
    | with_reducible refine Eq.trans (keepM_foldl _ _ _ (fun _ _ => ?_)) ?_
    | with_reducible refine keepM_ite_eq ?_ ?_

theorem execTpbodyEnd_keepM (ch : Fin 32) (die : Fin 16) (bank : Fin 8) (s : State) : Answers (execTpbodyEnd ch die bank s) (fun t => keepM t = keepM s) := by
  unfold execTpbodyEnd
  repeat' first
    | with_reducible rfl
    | simp only [keepM_mk, keepM_times, keepM_foldl, apply_ite Prod.fst, apply_ite Prod.snd, ite_self, id_eq, implies_true, begin_keepM, setBank_keepM, begin_keepM, startDeferred_keepM, queueEvent_keepM]
    | with_reducible refine ran_keepM _ _ ?_
    | split
    | with_reducible refine Eq.trans (keepM_foldl _ _ _ (fun _ _ => ?_)) ?_
    | with_reducible refine keepM_ite_eq ?_ ?_

theorem execTpfinEnd_keepM (ch : Fin 32) (die : Fin 16) (bank : Fin 8) (failAt : Option (BitVec 17)) (s : State) : Answers (execTpfinEnd ch die bank failAt s) (fun t => keepM t = keepM s) := by
  unfold execTpfinEnd
  repeat' first
    | with_reducible rfl
    | simp only [keepM_mk, keepM_times, keepM_foldl, apply_ite Prod.fst, apply_ite Prod.snd, ite_self, id_eq, implies_true, begin_keepM, setBank_keepM, begin_keepM, storeOp_keepM, queueEvent_keepM]
    | with_reducible refine ran_keepM _ _ ?_
    | split
    | with_reducible refine Eq.trans (keepM_foldl _ _ _ (fun _ _ => ?_)) ?_
    | with_reducible refine keepM_ite_eq ?_ ?_

theorem execTclearEnd_keepM (ch : Fin 32) (die : Fin 16) (bank : Fin 8) (ok : Bool) (s : State) : Answers (execTclearEnd ch die bank ok s) (fun t => keepM t = keepM s) := by
  unfold execTclearEnd
  repeat' first
    | with_reducible rfl
    | simp only [keepM_mk, keepM_times, keepM_foldl, apply_ite Prod.fst, apply_ite Prod.snd, ite_self, id_eq, implies_true, begin_keepM, setBank_keepM, begin_keepM, startDeferred_keepM, queueEvent_keepM, setStamp_keepM]
    | with_reducible refine ran_keepM _ _ ?_
    | split
    | with_reducible refine Eq.trans (keepM_foldl _ _ _ (fun _ _ => ?_)) ?_
    | with_reducible refine keepM_ite_eq ?_ ?_

theorem execTsuspEnd_keepM (ch : Fin 32) (die : Fin 16) (bank : Fin 8) (s : State) : Answers (execTsuspEnd ch die bank s) (fun t => keepM t = keepM s) := by
  unfold execTsuspEnd
  repeat' first
    | with_reducible rfl
    | simp only [keepM_mk, keepM_times, keepM_foldl, apply_ite Prod.fst, apply_ite Prod.snd, ite_self, id_eq, implies_true, begin_keepM, setBank_keepM, begin_keepM, startDeferred_keepM, queueEvent_keepM]
    | with_reducible refine ran_keepM _ _ ?_
    | split
    | with_reducible refine Eq.trans (keepM_foldl _ _ _ (fun _ _ => ?_)) ?_
    | with_reducible refine keepM_ite_eq ?_ ?_

theorem execTinfoEnd_keepM (ch : Fin 32) (tag : BitVec 7) (s : State) : Answers (execTinfoEnd ch tag s) (fun t => keepM t = keepM s) := by
  unfold execTinfoEnd
  repeat' first
    | with_reducible rfl
    | simp only [keepM_mk, keepM_times, keepM_foldl, apply_ite Prod.fst, apply_ite Prod.snd, ite_self, id_eq, implies_true, begin_keepM, begin_keepM, setStack_keepM, queueFrame_keepM]
    | with_reducible refine ran_keepM _ _ ?_
    | split
    | with_reducible refine Eq.trans (keepM_foldl _ _ _ (fun _ _ => ?_)) ?_
    | with_reducible refine keepM_ite_eq ?_ ?_

theorem execTdrstEnd_keepM (ch : Fin 32) (die : Fin 16) (cleared : Bool) (s : State) : Answers (execTdrstEnd ch die cleared s) (fun t => keepM t = keepM s) := by
  unfold execTdrstEnd
  repeat' first
    | with_reducible rfl
    | simp only [keepM_mk, keepM_times, keepM_foldl, apply_ite Prod.fst, apply_ite Prod.snd, ite_self, id_eq, implies_true, begin_keepM, setCart_keepM, endWindows_keepM, begin_keepM, setStack_keepM, queueEvent_keepM, drawBits_keepM, mediaNext_keepM, dropOps_keepM]
    | with_reducible refine ran_keepM _ _ ?_
    | split
    | with_reducible refine Eq.trans (keepM_foldl _ _ _ (fun _ _ => ?_)) ?_
    | with_reducible refine keepM_ite_eq ?_ ?_

theorem execTinitEnd_keepM (ch : Fin 32) (s : State) : Answers (execTinitEnd ch s) (fun t => keepM t = keepM s) := by
  unfold execTinitEnd
  repeat' first
    | with_reducible rfl
    | simp only [keepM_mk, keepM_times, keepM_foldl, apply_ite Prod.fst, apply_ite Prod.snd, ite_self, id_eq, implies_true, begin_keepM, trainTo_keepM, begin_keepM, setStack_keepM]
    | with_reducible refine ran_keepM _ _ ?_
    | split
    | with_reducible refine Eq.trans (keepM_foldl _ _ _ (fun _ _ => ?_)) ?_
    | with_reducible refine keepM_ite_eq ?_ ?_

theorem execMalertN_keepM (ch : Fin 32) (s : State) : Answers (execMalertN ch s) (fun t => keepM t = keepM s) := by
  unfold execMalertN
  repeat' first
    | with_reducible rfl
    | simp only [keepM_mk, keepM_times, keepM_foldl, apply_ite Prod.fst, apply_ite Prod.snd, ite_self, id_eq, implies_true, begin_keepM, begin_keepM, mediaNext_keepM, nextFrame_keepM]
    | with_reducible refine ran_keepM _ _ ?_
    | split
    | with_reducible refine Eq.trans (keepM_foldl _ _ _ (fun _ _ => ?_)) ?_
    | with_reducible refine keepM_ite_eq ?_ ?_

theorem execLineFrame_keepS (ch : Fin 32) (h : FrameHdr) (data : MediaLine) (s : State) : Answers (execLineFrame ch h data s) (fun t => keepS t = keepS s) := by
  unfold execLineFrame
  repeat' first
    | with_reducible rfl
    | simp only [keepS_mk, keepS_times, keepS_foldl, apply_ite Prod.fst, apply_ite Prod.snd, ite_self, id_eq, implies_true, begin_keepS, dropOut_keepS, dropStale_keepS, fire_keepS, readAnswered_keepS, checkFrame_keepS, begin_keepS, mediaNext_keepS, nextFrame_keepS]
    | with_reducible refine ran_keepS _ _ ?_
    | split
    | with_reducible refine Eq.trans (keepS_foldl _ _ _ (fun _ _ => ?_)) ?_
    | with_reducible refine keepS_ite_eq ?_ ?_

theorem execInfoFrame_keepM (ch : Fin 32) (h : FrameHdr) (payload : BitVec 128) (s : State) : Answers (execInfoFrame ch h payload s) (fun t => keepM t = keepM s) := by
  unfold execInfoFrame
  repeat' first
    | with_reducible rfl
    | simp only [keepM_mk, keepM_times, keepM_foldl, apply_ite Prod.fst, apply_ite Prod.snd, ite_self, id_eq, implies_true, begin_keepM, identsDone_keepM, dieFault_keepM, fire_keepM, setCart_keepM, checkFrame_keepM, begin_keepM, detectorIsolates_keepM, mediaNext_keepM, nextFrame_keepM, dieReadmitted_keepM]
    | with_reducible refine ran_keepM _ _ ?_
    | split
    | with_reducible refine Eq.trans (keepM_foldl _ _ _ (fun _ _ => ?_)) ?_
    | with_reducible refine keepM_ite_eq ?_ ?_

theorem execEmptyFrame_keepM (ch : Fin 32) (h : FrameHdr) (s : State) : Answers (execEmptyFrame ch h s) (fun t => keepM t = keepM s) := by
  unfold execEmptyFrame
  repeat' first
    | with_reducible rfl
    | simp only [keepM_mk, keepM_times, keepM_foldl, apply_ite Prod.fst, apply_ite Prod.snd, ite_self, id_eq, implies_true, begin_keepM, setCart_keepM, checkFrame_keepM, begin_keepM, event_keepM, mediaNext_keepM, trainFail_keepM, nextFrame_keepM]
    | with_reducible refine ran_keepM _ _ ?_
    | split
    | with_reducible refine Eq.trans (keepM_foldl _ _ _ (fun _ _ => ?_)) ?_
    | with_reducible refine keepM_ite_eq ?_ ?_

theorem execProgHeld_keepM (ch : Fin 32) (h : FrameHdr) (payload : BitVec 128) (s : State) : Answers (execProgHeld ch h payload s) (fun t => keepM t = keepM s) := by
  unfold execProgHeld
  repeat' first
    | with_reducible rfl
    | simp only [keepM_mk, keepM_times, keepM_foldl, apply_ite Prod.fst, apply_ite Prod.snd, ite_self, id_eq, implies_true, begin_keepM, setCart_keepM]
    | with_reducible refine ran_keepM _ _ ?_
    | with_reducible refine onEvent_keepM _ _ _ _ _ (fun _ => ?_)
    | split
    | with_reducible refine Eq.trans (keepM_foldl _ _ _ (fun _ _ => ?_)) ?_
    | with_reducible refine keepM_ite_eq ?_ ?_

theorem execProgDone_keepM (ch : Fin 32) (h : FrameHdr) (payload : BitVec 128) (s : State) : Answers (execProgDone ch h payload s) (fun t => keepM t = keepM s) := by
  unfold execProgDone
  repeat' first
    | with_reducible rfl
    | simp only [keepM_mk, keepM_times, keepM_foldl, apply_ite Prod.fst, apply_ite Prod.snd, ite_self, id_eq, implies_true, begin_keepM, drainNext_keepM, dropRun_keepM, moveDone_keepM, pageDone_keepM]
    | with_reducible refine ran_keepM _ _ ?_
    | with_reducible refine onEvent_keepM _ _ _ _ _ (fun _ => ?_)
    | split
    | with_reducible refine Eq.trans (keepM_foldl _ _ _ (fun _ _ => ?_)) ?_
    | with_reducible refine keepM_ite_eq ?_ ?_

theorem execProgFail_keepM (ch : Fin 32) (h : FrameHdr) (payload : BitVec 128) (s : State) : Answers (execProgFail ch h payload s) (fun t => keepM t = keepM s) := by
  unfold execProgFail
  repeat' first
    | with_reducible rfl
    | simp only [keepM_mk, keepM_times, keepM_foldl, apply_ite Prod.fst, apply_ite Prod.snd, ite_self, id_eq, implies_true, begin_keepM, setCart_keepM, progFailed_keepM]
    | with_reducible refine ran_keepM _ _ ?_
    | with_reducible refine onEvent_keepM _ _ _ _ _ (fun _ => ?_)
    | split
    | with_reducible refine Eq.trans (keepM_foldl _ _ _ (fun _ _ => ?_)) ?_
    | with_reducible refine keepM_ite_eq ?_ ?_

theorem execClearDone_keepM (ch : Fin 32) (h : FrameHdr) (payload : BitVec 128) (s : State) : Answers (execClearDone ch h payload s) (fun t => keepM t = keepM s) := by
  unfold execClearDone
  repeat' first
    | with_reducible rfl
    | simp only [keepM_mk, keepM_times, keepM_foldl, apply_ite Prod.fst, apply_ite Prod.snd, ite_self, id_eq, implies_true, begin_keepM, dropRun_keepM, clearEnded_keepM]
    | with_reducible refine ran_keepM _ _ ?_
    | with_reducible refine onEvent_keepM _ _ _ _ _ (fun _ => ?_)
    | split
    | with_reducible refine Eq.trans (keepM_foldl _ _ _ (fun _ _ => ?_)) ?_
    | with_reducible refine keepM_ite_eq ?_ ?_

theorem execClearFail_keepM (ch : Fin 32) (h : FrameHdr) (payload : BitVec 128) (s : State) : Answers (execClearFail ch h payload s) (fun t => keepM t = keepM s) := by
  unfold execClearFail
  repeat' first
    | with_reducible rfl
    | simp only [keepM_mk, keepM_times, keepM_foldl, apply_ite Prod.fst, apply_ite Prod.snd, ite_self, id_eq, implies_true, begin_keepM, setCart_keepM, progFailed_keepM]
    | with_reducible refine ran_keepM _ _ ?_
    | with_reducible refine onEvent_keepM _ _ _ _ _ (fun _ => ?_)
    | split
    | with_reducible refine Eq.trans (keepM_foldl _ _ _ (fun _ _ => ?_)) ?_
    | with_reducible refine keepM_ite_eq ?_ ?_

theorem execSuspended_keepM (ch : Fin 32) (h : FrameHdr) (payload : BitVec 128) (s : State) : Answers (execSuspended ch h payload s) (fun t => keepM t = keepM s) := by
  unfold execSuspended
  repeat' first
    | with_reducible rfl
    | simp only [keepM_mk, keepM_times, keepM_foldl, apply_ite Prod.fst, apply_ite Prod.snd, ite_self, id_eq, implies_true, begin_keepM]
    | with_reducible refine ran_keepM _ _ ?_
    | with_reducible refine onEvent_keepM _ _ _ _ _ (fun _ => ?_)
    | split
    | with_reducible refine Eq.trans (keepM_foldl _ _ _ (fun _ _ => ?_)) ?_
    | with_reducible refine keepM_ite_eq ?_ ?_

theorem execSuspNoop_keepM (ch : Fin 32) (h : FrameHdr) (payload : BitVec 128) (s : State) : Answers (execSuspNoop ch h payload s) (fun t => keepM t = keepM s) := by
  unfold execSuspNoop
  repeat' first
    | with_reducible rfl
    | simp only [keepM_mk, keepM_times, keepM_foldl, apply_ite Prod.fst, apply_ite Prod.snd, ite_self, id_eq, implies_true, begin_keepM, setCart_keepM]
    | with_reducible refine ran_keepM _ _ ?_
    | with_reducible refine onEvent_keepM _ _ _ _ _ (fun _ => ?_)
    | split
    | with_reducible refine Eq.trans (keepM_foldl _ _ _ (fun _ _ => ?_)) ?_
    | with_reducible refine keepM_ite_eq ?_ ?_

theorem execReadDenied_keepM (ch : Fin 32) (h : FrameHdr) (payload : BitVec 128) (s : State) : Answers (execReadDenied ch h payload s) (fun t => keepM t = keepM s) := by
  unfold execReadDenied
  repeat' first
    | with_reducible rfl
    | simp only [keepM_mk, keepM_times, keepM_foldl, apply_ite Prod.fst, apply_ite Prod.snd, ite_self, id_eq, implies_true, begin_keepM, dropOut_keepM, askRead_keepM, readLineRes_keepM]
    | with_reducible refine ran_keepM _ _ ?_
    | with_reducible refine onEvent_keepM _ _ _ _ _ (fun _ => ?_)
    | split
    | with_reducible refine Eq.trans (keepM_foldl _ _ _ (fun _ _ => ?_)) ?_
    | with_reducible refine keepM_ite_eq ?_ ?_

theorem execIllegal_keepS (ch : Fin 32) (h : FrameHdr) (payload : BitVec 128) (s : State) : Answers (execIllegal ch h payload s) (fun t => keepS t = keepS s) := by
  unfold execIllegal
  repeat' first
    | with_reducible rfl
    | simp only [keepS_mk, keepS_times, keepS_foldl, apply_ite Prod.fst, apply_ite Prod.snd, ite_self, id_eq, implies_true, begin_keepS, dropOut_keepS, readAnswered_keepS, progFailed_keepS]
    | with_reducible refine ran_keepS _ _ ?_
    | with_reducible refine onEvent_keepS _ _ _ _ _ (fun _ => ?_)
    | split
    | with_reducible refine Eq.trans (keepS_foldl _ _ _ (fun _ _ => ?_)) ?_
    | with_reducible refine keepS_ite_eq ?_ ?_

theorem execCaCheck_keepM (ch : Fin 32) (h : FrameHdr) (payload : BitVec 128) (s : State) : Answers (execCaCheck ch h payload s) (fun t => keepM t = keepM s) := by
  unfold execCaCheck
  repeat' first
    | with_reducible rfl
    | simp only [keepM_mk, keepM_times, keepM_foldl, apply_ite Prod.fst, apply_ite Prod.snd, ite_self, id_eq, implies_true, begin_keepM, reissue_keepM, setCart_keepM, requestRetrain_keepM]
    | with_reducible refine ran_keepM _ _ ?_
    | with_reducible refine onEvent_keepM _ _ _ _ _ (fun _ => ?_)
    | split
    | with_reducible refine Eq.trans (keepM_foldl _ _ _ (fun _ _ => ?_)) ?_
    | with_reducible refine keepM_ite_eq ?_ ?_

theorem execThermAlert_keepS (ch : Fin 32) (h : FrameHdr) (payload : BitVec 128) (s : State) : Answers (execThermAlert ch h payload s) (fun t => keepS t = keepS s) := by
  unfold execThermAlert
  repeat' first
    | with_reducible rfl
    | simp only [keepS_mk, keepS_times, keepS_foldl, apply_ite Prod.fst, apply_ite Prod.snd, ite_self, id_eq, implies_true, begin_keepS, alertSample_keepS]
    | with_reducible refine ran_keepS _ _ ?_
    | with_reducible refine onEvent_keepS _ _ _ _ _ (fun _ => ?_)
    | split
    | with_reducible refine Eq.trans (keepS_foldl _ _ _ (fun _ _ => ?_)) ?_
    | with_reducible refine keepS_ite_eq ?_ ?_

theorem execDieFault_keepM (ch : Fin 32) (h : FrameHdr) (payload : BitVec 128) (s : State) : Answers (execDieFault ch h payload s) (fun t => keepM t = keepM s) := by
  unfold execDieFault
  repeat' first
    | with_reducible rfl
    | simp only [keepM_mk, keepM_times, keepM_foldl, apply_ite Prod.fst, apply_ite Prod.snd, ite_self, id_eq, implies_true, begin_keepM, dieFault_keepM]
    | with_reducible refine ran_keepM _ _ ?_
    | with_reducible refine onEvent_keepM _ _ _ _ _ (fun _ => ?_)
    | split
    | with_reducible refine Eq.trans (keepM_foldl _ _ _ (fun _ _ => ?_)) ?_
    | with_reducible refine keepM_ite_eq ?_ ?_

theorem execPaborted_keepM (ch : Fin 32) (h : FrameHdr) (payload : BitVec 128) (s : State) : Answers (execPaborted ch h payload s) (fun t => keepM t = keepM s) := by
  unfold execPaborted
  repeat' first
    | with_reducible rfl
    | simp only [keepM_mk, keepM_times, keepM_foldl, apply_ite Prod.fst, apply_ite Prod.snd, ite_self, id_eq, implies_true, begin_keepM, moveLost_keepM, abandonBatch_keepM, dropRun_keepM, drainRetry_keepM]
    | with_reducible refine ran_keepM _ _ ?_
    | with_reducible refine onEvent_keepM _ _ _ _ _ (fun _ => ?_)
    | split
    | with_reducible refine Eq.trans (keepM_foldl _ _ _ (fun _ _ => ?_)) ?_
    | with_reducible refine keepM_ite_eq ?_ ?_

theorem execReadTimeout_keepS (ch : Fin 32) (tag : BitVec 7) (s : State) : Answers (execReadTimeout ch tag s) (fun t => keepS t = keepS s) := by
  unfold execReadTimeout
  repeat' first
    | with_reducible rfl
    | simp only [keepS_mk, keepS_times, keepS_foldl, apply_ite Prod.fst, apply_ite Prod.snd, ite_self, id_eq, implies_true, begin_keepS, dropOut_keepS, setCart_keepS, readAnswered_keepS, begin_keepS, detectorIsolates_keepS, setUnit_keepS, trainCa_keepS, event_keepS, mediaNext_keepS]
    | with_reducible refine ran_keepS _ _ ?_
    | split
    | with_reducible refine Eq.trans (keepS_foldl _ _ _ (fun _ _ => ?_)) ?_
    | with_reducible refine keepS_ite_eq ?_ ?_

theorem execHoldLimit_keepM (ch : Fin 32) (die : Fin 16) (bank : Fin 8) (s : State) : Answers (execHoldLimit ch die bank s) (fun t => keepM t = keepM s) := by
  unfold execHoldLimit
  repeat' first
    | with_reducible rfl
    | simp only [keepM_mk, keepM_times, keepM_foldl, apply_ite Prod.fst, apply_ite Prod.snd, ite_self, id_eq, implies_true, begin_keepM, sendPkt_keepM, setBank_keepM, begin_keepM]
    | with_reducible refine ran_keepM _ _ ?_
    | split
    | with_reducible refine Eq.trans (keepM_foldl _ _ _ (fun _ _ => ?_)) ?_
    | with_reducible refine keepM_ite_eq ?_ ?_

theorem execHeldReadReroute_keepM (ch : Fin 32) (die : Fin 16) (bank : Fin 8) (s : State) : Answers (execHeldReadReroute ch die bank s) (fun t => keepM t = keepM s) := by
  unfold execHeldReadReroute
  repeat' first
    | with_reducible rfl
    | simp only [keepM_mk, keepM_times, keepM_foldl, apply_ite Prod.fst, apply_ite Prod.snd, ite_self, id_eq, implies_true, begin_keepM, setCart_keepM, askRead_keepM, begin_keepM, mediaNext_keepM, readLineRes_keepM]
    | with_reducible refine ran_keepM _ _ ?_
    | split
    | with_reducible refine Eq.trans (keepM_foldl _ _ _ (fun _ _ => ?_)) ?_
    | with_reducible refine keepM_ite_eq ?_ ?_

theorem execChannelTrainTimeout_keepM (ch : Fin 32) (s : State) : Answers (execChannelTrainTimeout ch s) (fun t => keepM t = keepM s) := by
  unfold execChannelTrainTimeout
  repeat' first
    | with_reducible rfl
    | simp only [keepM_mk, keepM_times, keepM_foldl, apply_ite Prod.fst, apply_ite Prod.snd, ite_self, id_eq, implies_true, begin_keepM, begin_keepM, mediaNext_keepM, trainFail_keepM]
    | with_reducible refine ran_keepM _ _ ?_
    | split
    | with_reducible refine Eq.trans (keepM_foldl _ _ _ (fun _ _ => ?_)) ?_
    | with_reducible refine keepM_ite_eq ?_ ?_

theorem execZqcalTimer_keepE (ch : Fin 32) (s : State) : Answers (execZqcalTimer ch s) (fun t => keepE t = keepE s) := by
  unfold execZqcalTimer
  repeat' first
    | with_reducible rfl
    | simp only [keepE_mk, keepE_times, keepE_foldl, apply_ite Prod.fst, apply_ite Prod.snd, ite_self, id_eq, implies_true, begin_keepE, sendPkt_keepE, begin_keepE]
    | with_reducible refine ran_keepE _ _ ?_
    | split
    | with_reducible refine Eq.trans (keepE_foldl _ _ _ (fun _ _ => ?_)) ?_
    | with_reducible refine keepE_ite_eq ?_ ?_

theorem execSpanReadTimeout_keepM (tag : BitVec 32) (s : State) : Answers (execSpanReadTimeout tag s) (fun t => keepM t = keepM s) := by
  unfold execSpanReadTimeout
  repeat' first
    | with_reducible rfl
    | simp only [keepM_mk, keepM_times, keepM_foldl, apply_ite Prod.fst, apply_ite Prod.snd, ite_self, id_eq, implies_true, begin_keepM, finishRead_keepM, begin_keepM, event_keepM, mediaNext_keepM, rebuildFail_keepM]
    | with_reducible refine ran_keepM _ _ ?_
    | split
    | with_reducible refine Eq.trans (keepM_foldl _ _ _ (fun _ _ => ?_)) ?_
    | with_reducible refine keepM_ite_eq ?_ ?_

theorem execStageBoundary_keepA (s : State) : Answers (execStageBoundary s) (fun t => keepA t = keepA s) := by
  unfold execStageBoundary
  extract_lets s1 s2 old n due x s3 s4 s5 s6 s7 s8 s9 s10 s11 s12
  have h1 : keepA s1 = keepA s := begin_keepA s
  clear_value s1
  have h2 : keepA s2 = keepA s := (takeSources_keepA _).trans ((lfsrRun_keepA _ _).trans ((advanceFtime_keepA _ _).trans h1))
  clear_value s2
  have h3 : keepA s3 = keepA s := (setAllotment_keepA _).trans ((keepA_mk s2).trans h2)
  clear_value s3
  refine answers_ite (ran_keepA _ _ h1) (answers_ite (ran_keepA _ _ h3) ?_)
  have h4 : keepA s4 = keepA s := (abandonMissing_keepA _).trans ((setWindows_keepA _).trans ((placeRemovals_keepA _).trans
    ((activateLead_keepA _).trans ((setMap_keepA _).trans h3))))
  clear_value s4
  have h5 : keepA s5 = keepA s := keepA_ite_eq ((cycleStart_keepA _).trans h4) h4
  clear_value s5
  have h6 : keepA s6 = keepA s := keepA_ite_eq ((heartbeats_keepA _).trans h5) h5
  clear_value s6
  have h7 : keepA s7 = keepA s := keepA_ite_eq ((closeHotWindow_keepA _).trans h6) h6
  clear_value s7
  have h8 : keepA s8 = keepA s := keepA_ite_eq ((sendTimetable_keepA _).trans h7) h7
  clear_value s8
  have h9 : keepA s9 = keepA s := (ageCounts_keepA _ _ _).trans h8
  clear_value s9
  have h10 : keepA s10 = keepA s := keepA_ite_eq ((spanWork_keepA _).trans ((backgroundWork_keepA _).trans h9)) h9
  clear_value s10
  have h11 : keepA s11 = keepA s := (rejoinAdvance_keepA _).trans ((replayStep_keepA _).trans ((lowerAdvance_keepA _).trans
    ((pollWork_keepA _).trans h10)))
  clear_value s11
  exact ran_keepA _ _ ((mediaNext_keepA _).trans ((updLoad_keepA _).trans ((keepA_mk s11).trans h11)))

theorem execFoldBatchTimer_keepM (s : State) : Answers (execFoldBatchTimer s) (fun t => keepM t = keepM s) := by
  unfold execFoldBatchTimer
  repeat' first
    | with_reducible rfl
    | simp only [keepM_mk, keepM_times, keepM_foldl, apply_ite Prod.fst, apply_ite Prod.snd, ite_self, id_eq, implies_true, begin_keepM, begin_keepM, mediaNext_keepM, openBatch_keepM]
    | with_reducible refine ran_keepM _ _ ?_
    | split
    | with_reducible refine Eq.trans (keepM_foldl _ _ _ (fun _ _ => ?_)) ?_
    | with_reducible refine keepM_ite_eq ?_ ?_

theorem execFoldAgeTrigger_keepM (lfn : BitVec 24) (s : State) : Answers (execFoldAgeTrigger lfn s) (fun t => keepM t = keepM s) := by
  unfold execFoldAgeTrigger
  repeat' first
    | with_reducible rfl
    | simp only [keepM_mk, keepM_times, keepM_foldl, apply_ite Prod.fst, apply_ite Prod.snd, ite_self, id_eq, implies_true, begin_keepM, begin_keepM, makeDue_keepM]
    | with_reducible refine ran_keepM _ _ ?_
    | split
    | with_reducible refine Eq.trans (keepM_foldl _ _ _ (fun _ _ => ?_)) ?_
    | with_reducible refine keepM_ite_eq ?_ ?_

theorem execFastFrameIdleTimeout_keepM (lfn : BitVec 24) (s : State) : Answers (execFastFrameIdleTimeout lfn s) (fun t => keepM t = keepM s) := by
  unfold execFastFrameIdleTimeout
  repeat' first
    | with_reducible rfl
    | simp only [keepM_mk, keepM_times, keepM_foldl, apply_ite Prod.fst, apply_ite Prod.snd, ite_self, id_eq, implies_true, begin_keepM, begin_keepM, makeDue_keepM]
    | with_reducible refine ran_keepM _ _ ?_
    | split
    | with_reducible refine Eq.trans (keepM_foldl _ _ _ (fun _ _ => ?_)) ?_
    | with_reducible refine keepM_ite_eq ?_ ?_

theorem execCheckpointImageStart_keepM (s : State) : Answers (execCheckpointImageStart s) (fun t => keepM t = keepM s) := by
  unfold execCheckpointImageStart
  repeat' first
    | with_reducible rfl
    | simp only [keepM_mk, keepM_times, keepM_foldl, apply_ite Prod.fst, apply_ite Prod.snd, ite_self, id_eq, implies_true, begin_keepM, piBaseStart_keepM, begin_keepM, imageStart_keepM]
    | with_reducible refine ran_keepM _ _ ?_
    | split
    | with_reducible refine Eq.trans (keepM_foldl _ _ _ (fun _ _ => ?_)) ?_
    | with_reducible refine keepM_ite_eq ?_ ?_

theorem execDirtyMapGeneration_keepM (s : State) : Answers (execDirtyMapGeneration s) (fun t => keepM t = keepM s) := by
  unfold execDirtyMapGeneration
  have hw := mapWrite_keepM 521
  extract_lets s1
  have h1 : keepM s1 = keepM s := begin_keepM s
  clear_value s1
  split
  · exact ran_keepM _ _ h1
  · exact ran_keepM _ _ ((keepM_mk _).trans ((hw _ _).trans h1))

theorem execPatchLogRescanEnd_keepM (s : State) : Answers (execPatchLogRescanEnd s) (fun t => keepM t = keepM s) := by
  unfold execPatchLogRescanEnd
  repeat' first
    | with_reducible rfl
    | simp only [keepM_mk, keepM_times, keepM_foldl, apply_ite Prod.fst, apply_ite Prod.snd, ite_self, id_eq, implies_true, begin_keepM, logRead_keepM, begin_keepM, updLoad_keepM, mediaNext_keepM, rescanFrame_keepM]
    | with_reducible refine ran_keepM _ _ ?_
    | split
    | with_reducible refine Eq.trans (keepM_foldl _ _ _ (fun _ _ => ?_)) ?_
    | with_reducible refine keepM_ite_eq ?_ ?_

theorem execFrameTableRestoreEnd_keepM (lfn : BitVec 24) (s : State) : Answers (execFrameTableRestoreEnd lfn s) (fun t => keepM t = keepM s) := by
  unfold execFrameTableRestoreEnd
  repeat' first
    | with_reducible rfl
    | simp only [keepM_mk, keepM_times, keepM_foldl, apply_ite Prod.fst, apply_ite Prod.snd, ite_self, id_eq, implies_true, begin_keepM, ftCommit_keepM, begin_keepM, mediaNext_keepM]
    | with_reducible refine ran_keepM _ _ ?_
    | split
    | with_reducible refine Eq.trans (keepM_foldl _ _ _ (fun _ _ => ?_)) ?_
    | with_reducible refine keepM_ite_eq ?_ ?_

theorem execHbmRemapCopyEnd_keepM (hch : Fin 64) (s : State) : Answers (execHbmRemapCopyEnd hch s) (fun t => keepM t = keepM s) := by
  unfold execHbmRemapCopyEnd
  repeat' first
    | with_reducible rfl
    | simp only [keepM_mk, keepM_times, keepM_foldl, apply_ite Prod.fst, apply_ite Prod.snd, ite_self, id_eq, implies_true, begin_keepM, remapTo_keepM, hbmRetry_keepM, begin_keepM, fenceBlock_keepM, sbEnqueue_keepM, copyCorrects_keepM, setUnit_keepM, event_keepM, mediaNext_keepM, dropCopy_keepM]
    | with_reducible refine ran_keepM _ _ ?_
    | split
    | with_reducible refine Eq.trans (keepM_foldl _ _ _ (fun _ _ => ?_)) ?_
    | with_reducible refine keepM_ite_eq ?_ ?_

theorem execHeartbeat_keepM (h : MsgHdr) (state : BitVec 3) (lock : BitVec 2) (bound : BitVec 32) (live : BitVec 29) (admissions : List (BitVec 24)) (activating : Bool) (s : State) : Answers (execHeartbeat h state lock bound live admissions activating s) (fun t => keepM t = keepM s) := by
  unfold execHeartbeat
  repeat' first
    | with_reducible rfl
    | simp only [keepM_mk, keepM_times, keepM_foldl, apply_ite Prod.fst, apply_ite Prod.snd, ite_self, id_eq, implies_true, begin_keepM, rejoinAdmission_keepM, setPeer_keepM, reportLive_keepM, setPeerSt_keepM]
    | with_reducible refine ran_keepM _ _ ?_
    | with_reducible refine receive_keepM _ _ _ _ (fun _ _ => ?_)
    | split
    | with_reducible refine Eq.trans (keepM_foldl _ _ _ (fun _ _ => ?_)) ?_
    | with_reducible refine keepM_ite_eq ?_ ?_

theorem execPeerHeartbeatLoss_keepS (r : Fin 16) (s : State) : Answers (execPeerHeartbeatLoss r s) (fun t => keepS t = keepS s) := by
  unfold execPeerHeartbeatLoss
  repeat' first
    | with_reducible rfl
    | simp only [keepS_mk, keepS_times, keepS_foldl, apply_ite Prod.fst, apply_ite Prod.snd, ite_self, id_eq, implies_true, begin_keepS, send_keepS, begin_keepS, memberGone_keepS, event_keepS, setPeer_keepS, mediaNext_keepS]
    | with_reducible refine ran_keepS _ _ ?_
    | split
    | with_reducible refine Eq.trans (keepS_foldl _ _ _ (fun _ _ => ?_)) ?_
    | with_reducible refine keepS_ite_eq ?_ ?_

theorem execMajorityLoss_keepM (s : State) : Answers (execMajorityLoss s) (fun t => keepM t = keepM s) := by
  unfold execMajorityLoss
  repeat' first
    | with_reducible rfl
    | simp only [keepM_mk, keepM_times, keepM_foldl, apply_ite Prod.fst, apply_ite Prod.snd, ite_self, id_eq, implies_true, begin_keepM, begin_keepM, unhitch_keepM]
    | with_reducible refine ran_keepM _ _ ?_
    | split
    | with_reducible refine Eq.trans (keepM_foldl _ _ _ (fun _ _ => ?_)) ?_
    | with_reducible refine keepM_ite_eq ?_ ?_

theorem execPatchBatch_keepM (h : MsgHdr) (b : Batch) (s : State) : Answers (execPatchBatch h b s) (fun t => keepM t = keepM s) := by
  unfold execPatchBatch
  repeat' first
    | with_reducible rfl
    | simp only [keepM_mk, keepM_times, keepM_foldl, apply_ite Prod.fst, apply_ite Prod.snd, ite_self, id_eq, implies_true, begin_keepM, setWard_keepM, peerSend_keepM, addWard_keepM, storeForeign_keepM, askKeys_keepM]
    | with_reducible refine ran_keepM _ _ ?_
    | with_reducible refine receive_keepM _ _ _ _ (fun _ _ => ?_)
    | split
    | with_reducible refine Eq.trans (keepM_foldl _ _ _ (fun _ _ => ?_)) ?_
    | with_reducible refine keepM_ite_eq ?_ ?_

theorem execPatchRelease_keepM (h : MsgHdr) (rsnap : BitVec 48) (llns : List (BitVec 40)) (s : State) : Answers (execPatchRelease h rsnap llns s) (fun t => keepM t = keepM s) := by
  unfold execPatchRelease
  repeat' first
    | with_reducible rfl
    | simp only [keepM_mk, keepM_times, keepM_foldl, apply_ite Prod.fst, apply_ite Prod.snd, ite_self, id_eq, implies_true, begin_keepM, dropForeign_keepM]
    | with_reducible refine ran_keepM _ _ ?_
    | with_reducible refine receive_keepM _ _ _ _ (fun _ _ => ?_)
    | split
    | with_reducible refine Eq.trans (keepM_foldl _ _ _ (fun _ _ => ?_)) ?_
    | with_reducible refine keepM_ite_eq ?_ ?_

theorem execDeltaChunkRequest_keepM (h : MsgHdr) (lfn : BitVec 24) (t : BitVec 8) (foldSeq : BitVec 48) (s : State) : Answers (execDeltaChunkRequest h lfn t foldSeq s) (fun t => keepM t = keepM s) := by
  unfold execDeltaChunkRequest
  repeat' first
    | with_reducible rfl
    | simp only [keepM_mk, keepM_times, keepM_foldl, apply_ite Prod.fst, apply_ite Prod.snd, ite_self, id_eq, implies_true, begin_keepM, ackPlain_keepM, dropHolding_keepM]
    | with_reducible refine ran_keepM _ _ ?_
    | with_reducible refine receive_keepM _ _ _ _ (fun _ _ => ?_)
    | split
    | with_reducible refine Eq.trans (keepM_foldl _ _ _ (fun _ _ => ?_)) ?_
    | with_reducible refine keepM_ite_eq ?_ ?_

theorem execDeltaChunkData_keepM (h : MsgHdr) (lfn : BitVec 24) (t : BitVec 8) (foldSeq : BitVec 48) (chunk : Fin 64) (payload : List Line) (s : State) : Answers (execDeltaChunkData h lfn t foldSeq chunk payload s) (fun t => keepM t = keepM s) := by
  unfold execDeltaChunkData
  repeat' first
    | with_reducible rfl
    | simp only [keepM_mk, keepM_times, keepM_foldl, apply_ite Prod.fst, apply_ite Prod.snd, ite_self, id_eq, implies_true, begin_keepM, ackPlain_keepM, makeDue_keepM, setHolding_keepM, dropHolding_keepM]
    | with_reducible refine ran_keepM _ _ ?_
    | with_reducible refine receive_keepM _ _ _ _ (fun _ _ => ?_)
    | split
    | with_reducible refine Eq.trans (keepM_foldl _ _ _ (fun _ _ => ?_)) ?_
    | with_reducible refine keepM_ite_eq ?_ ?_

theorem execDeltaChunkCommit_keepS (h : MsgHdr) (lfn : BitVec 24) (t : BitVec 8) (foldSeq : BitVec 48) (s : State) : Answers (execDeltaChunkCommit h lfn t foldSeq s) (fun t => keepS t = keepS s) := by
  unfold execDeltaChunkCommit
  repeat' first
    | with_reducible rfl
    | simp only [keepS_mk, keepS_times, keepS_foldl, apply_ite Prod.fst, apply_ite Prod.snd, ite_self, id_eq, implies_true, begin_keepS, ackPlain_keepS, setHolding_keepS, commitSlot_keepS, dropHolding_keepS, setSlot_keepS]
    | with_reducible refine ran_keepS _ _ ?_
    | with_reducible refine receive_keepS _ _ _ _ (fun _ _ => ?_)
    | split
    | with_reducible refine Eq.trans (keepS_foldl _ _ _ (fun _ _ => ?_)) ?_
    | with_reducible refine keepS_ite_eq ?_ ?_

theorem execDeltaChunkDone_keepM (h : MsgHdr) (lfn : BitVec 24) (t : BitVec 8) (foldSeq : BitVec 48) (s : State) : Answers (execDeltaChunkDone h lfn t foldSeq s) (fun t => keepM t = keepM s) := by
  unfold execDeltaChunkDone
  repeat' first
    | with_reducible rfl
    | simp only [keepM_mk, keepM_times, keepM_foldl, apply_ite Prod.fst, apply_ite Prod.snd, ite_self, id_eq, implies_true, begin_keepM, ackPlain_keepM, releaseOld_keepM, closeIfDone_keepM, admitNext_keepM, setSlot_keepM]
    | with_reducible refine ran_keepM _ _ ?_
    | with_reducible refine receive_keepM _ _ _ _ (fun _ _ => ?_)
    | split
    | with_reducible refine Eq.trans (keepM_foldl _ _ _ (fun _ _ => ?_)) ?_
    | with_reducible refine keepM_ite_eq ?_ ?_

theorem execDeltaChunkAbort_keepM (h : MsgHdr) (lfn : BitVec 24) (t : BitVec 8) (foldSeq : BitVec 48) (s : State) : Answers (execDeltaChunkAbort h lfn t foldSeq s) (fun t => keepM t = keepM s) := by
  unfold execDeltaChunkAbort
  repeat' first
    | with_reducible rfl
    | simp only [keepM_mk, keepM_times, keepM_foldl, apply_ite Prod.fst, apply_ite Prod.snd, ite_self, id_eq, implies_true, begin_keepM, ackPlain_keepM, dropHolding_keepM]
    | with_reducible refine ran_keepM _ _ ?_
    | with_reducible refine receive_keepM _ _ _ _ (fun _ _ => ?_)
    | split
    | with_reducible refine Eq.trans (keepM_foldl _ _ _ (fun _ _ => ?_)) ?_
    | with_reducible refine keepM_ite_eq ?_ ?_

theorem execDeltaAckAdmitted_keepS (h : MsgHdr) (lfn : BitVec 24) (foldSeq : BitVec 48) (live : BitVec 29) (s : State) : Answers (execDeltaAckAdmitted h lfn foldSeq live s) (fun t => keepS t = keepS s) := by
  unfold execDeltaAckAdmitted
  repeat' first
    | with_reducible rfl
    | simp only [keepS_mk, keepS_times, keepS_foldl, apply_ite Prod.fst, apply_ite Prod.snd, ite_self, id_eq, implies_true, begin_keepS, advanceBatch_keepS, peerSend_keepS, rebuildBases_keepS, reportLive_keepS, setSlot_keepS]
    | with_reducible refine ran_keepS _ _ ?_
    | with_reducible refine receive_keepS _ _ _ _ (fun _ _ => ?_)
    | split
    | with_reducible refine Eq.trans (keepS_foldl _ _ _ (fun _ _ => ?_)) ?_
    | with_reducible refine keepS_ite_eq ?_ ?_

theorem execDeltaAckBusy_keepM (h : MsgHdr) (lfn : BitVec 24) (foldSeq : BitVec 48) (live : BitVec 29) (s : State) : Answers (execDeltaAckBusy h lfn foldSeq live s) (fun t => keepM t = keepM s) := by
  unfold execDeltaAckBusy
  repeat' first
    | with_reducible rfl
    | simp only [keepM_mk, keepM_times, keepM_foldl, apply_ite Prod.fst, apply_ite Prod.snd, ite_self, id_eq, implies_true, begin_keepM, reportLive_keepM]
    | with_reducible refine ran_keepM _ _ ?_
    | with_reducible refine receive_keepM _ _ _ _ (fun _ _ => ?_)
    | split
    | with_reducible refine Eq.trans (keepM_foldl _ _ _ (fun _ _ => ?_)) ?_
    | with_reducible refine keepM_ite_eq ?_ ?_

theorem execDeltaAckStaged_keepS (h : MsgHdr) (lfn : BitVec 24) (foldSeq : BitVec 48) (live : BitVec 29) (s : State) : Answers (execDeltaAckStaged h lfn foldSeq live s) (fun t => keepS t = keepS s) := by
  unfold execDeltaAckStaged
  repeat' first
    | with_reducible rfl
    | simp only [keepS_mk, keepS_times, keepS_foldl, apply_ite Prod.fst, apply_ite Prod.snd, ite_self, id_eq, implies_true, begin_keepS, deltaReply_keepS, reportLive_keepS]
    | with_reducible refine ran_keepS _ _ ?_
    | with_reducible refine receive_keepS _ _ _ _ (fun _ _ => ?_)
    | split
    | with_reducible refine Eq.trans (keepS_foldl _ _ _ (fun _ _ => ?_)) ?_
    | with_reducible refine keepS_ite_eq ?_ ?_

theorem execDeltaAckCommitted_keepS (h : MsgHdr) (lfn : BitVec 24) (foldSeq : BitVec 48) (live : BitVec 29) (s : State) : Answers (execDeltaAckCommitted h lfn foldSeq live s) (fun t => keepS t = keepS s) := by
  unfold execDeltaAckCommitted
  repeat' first
    | with_reducible rfl
    | simp only [keepS_mk, keepS_times, keepS_foldl, apply_ite Prod.fst, apply_ite Prod.snd, ite_self, id_eq, implies_true, begin_keepS, deltaReply_keepS, reportLive_keepS]
    | with_reducible refine ran_keepS _ _ ?_
    | with_reducible refine receive_keepS _ _ _ _ (fun _ _ => ?_)
    | split
    | with_reducible refine Eq.trans (keepS_foldl _ _ _ (fun _ _ => ?_)) ?_
    | with_reducible refine keepS_ite_eq ?_ ?_

theorem execDeltaAckDone_keepS (h : MsgHdr) (lfn : BitVec 24) (foldSeq : BitVec 48) (live : BitVec 29) (s : State) : Answers (execDeltaAckDone h lfn foldSeq live s) (fun t => keepS t = keepS s) := by
  unfold execDeltaAckDone
  repeat' first
    | with_reducible rfl
    | simp only [keepS_mk, keepS_times, keepS_foldl, apply_ite Prod.fst, apply_ite Prod.snd, ite_self, id_eq, implies_true, begin_keepS, deltaReply_keepS, reportLive_keepS, pollWork_keepS]
    | with_reducible refine ran_keepS _ _ ?_
    | with_reducible refine receive_keepS _ _ _ _ (fun _ _ => ?_)
    | split
    | with_reducible refine Eq.trans (keepS_foldl _ _ _ (fun _ _ => ?_)) ?_
    | with_reducible refine keepS_ite_eq ?_ ?_

end Sys2Proof.Machine
end

