-- ==== Sys2Proof/Laws/Commands4.lean ====
section
/-! SUPPORT. What each command leaves alone, whatever its operands and the state: it answers a next state that agrees with the one before on the sections of its class (Safety). Rows 226 to 300 of the opcode table. -/

set_option linter.all false

namespace Sys2Proof.Machine

theorem execDeltaAckAborted_keepS (h : MsgHdr) (lfn : BitVec 24) (foldSeq : BitVec 48) (live : BitVec 29) (s : State) : Answers (execDeltaAckAborted h lfn foldSeq live s) (fun t => keepS t = keepS s) := by
  unfold execDeltaAckAborted
  repeat' first
    | with_reducible rfl
    | simp only [keepS_mk, keepS_times, keepS_foldl, apply_ite Prod.fst, apply_ite Prod.snd, ite_self, id_eq, implies_true, begin_keepS, deltaAborted_keepS, reportLive_keepS]
    | with_reducible refine ran_keepS _ _ ?_
    | with_reducible refine receive_keepS _ _ _ _ (fun _ _ => ?_)
    | split
    | with_reducible refine Eq.trans (keepS_foldl _ _ _ (fun _ _ => ?_)) ?_
    | with_reducible refine keepS_ite_eq ?_ ?_

theorem execDeltaAckBatch_keepM (h : MsgHdr) (bseq : BitVec 48) (live : BitVec 29) (s : State) : Answers (execDeltaAckBatch h bseq live s) (fun t => keepM t = keepM s) := by
  unfold execDeltaAckBatch
  repeat' first
    | with_reducible rfl
    | simp only [keepM_mk, keepM_times, keepM_foldl, apply_ite Prod.fst, apply_ite Prod.snd, ite_self, id_eq, implies_true, begin_keepM, ackStream_keepM]
    | with_reducible refine ran_keepM _ _ ?_
    | with_reducible refine receive_keepM _ _ _ _ (fun _ _ => ?_)
    | split
    | with_reducible refine Eq.trans (keepM_foldl _ _ _ (fun _ _ => ?_)) ?_
    | with_reducible refine keepM_ite_eq ?_ ?_

theorem execDeltaAckResend_keepM (h : MsgHdr) (bseq : BitVec 48) (live : BitVec 29) (s : State) : Answers (execDeltaAckResend h bseq live s) (fun t => keepM t = keepM s) := by
  unfold execDeltaAckResend
  repeat' first
    | with_reducible rfl
    | simp only [keepM_mk, keepM_times, keepM_foldl, apply_ite Prod.fst, apply_ite Prod.snd, ite_self, id_eq, implies_true, begin_keepM, ackStream_keepM, peerSend_keepM]
    | with_reducible refine ran_keepM _ _ ?_
    | with_reducible refine receive_keepM _ _ _ _ (fun _ _ => ?_)
    | split
    | with_reducible refine Eq.trans (keepM_foldl _ _ _ (fun _ _ => ?_)) ?_
    | with_reducible refine keepM_ite_eq ?_ ?_

theorem execReconReadBase_keepM (h : MsgHdr) (tag : Word) (lfn : BitVec 24) (line : BitVec 16) (count : BitVec 11) (s : State) : Answers (execReconReadBase h tag lfn line count s) (fun t => keepM t = keepM s) := by
  unfold execReconReadBase
  repeat' first
    | with_reducible rfl
    | simp only [keepM_mk, keepM_times, keepM_foldl, apply_ite Prod.fst, apply_ite Prod.snd, ite_self, id_eq, implies_true, begin_keepM, sendAnswer_keepM, countIn_keepM]
    | with_reducible refine ran_keepM _ _ ?_
    | with_reducible refine receive_keepM _ _ _ _ (fun _ _ => ?_)
    | split
    | with_reducible refine Eq.trans (keepM_foldl _ _ _ (fun _ _ => ?_)) ?_
    | with_reducible refine keepM_ite_eq ?_ ?_

theorem execReconReadRecord_keepM (h : MsgHdr) (tag : Word) (lln : BitVec 40) (ward : BitVec 9) (s : State) : Answers (execReconReadRecord h tag lln ward s) (fun t => keepM t = keepM s) := by
  unfold execReconReadRecord
  repeat' first
    | with_reducible rfl
    | simp only [keepM_mk, keepM_times, keepM_foldl, apply_ite Prod.fst, apply_ite Prod.snd, ite_self, id_eq, implies_true, begin_keepM, sendAnswer_keepM, countIn_keepM]
    | with_reducible refine ran_keepM _ _ ?_
    | with_reducible refine receive_keepM _ _ _ _ (fun _ _ => ?_)
    | split
    | with_reducible refine Eq.trans (keepM_foldl _ _ _ (fun _ _ => ?_)) ?_
    | with_reducible refine keepM_ite_eq ?_ ?_

theorem execReconReadMap_keepM (h : MsgHdr) (tag : Word) (ward : BitVec 9) (ldIndex : Byte) (certOk : Bool) (s : State) : Answers (execReconReadMap h tag ward ldIndex certOk s) (fun t => keepM t = keepM s) := by
  unfold execReconReadMap
  repeat' first
    | with_reducible rfl
    | simp only [keepM_mk, keepM_times, keepM_foldl, apply_ite Prod.fst, apply_ite Prod.snd, ite_self, id_eq, implies_true, begin_keepM, sendAnswer_keepM, endJob_keepM, countIn_keepM, drawBits_keepM, giveRemountKey_keepM]
    | with_reducible refine ran_keepM _ _ ?_
    | with_reducible refine receive_keepM _ _ _ _ (fun _ _ => ?_)
    | split
    | with_reducible refine Eq.trans (keepM_foldl _ _ _ (fun _ _ => ?_)) ?_
    | with_reducible refine keepM_ite_eq ?_ ?_

theorem execReconReadBulk_keepM (h : MsgHdr) (tag : Word) (lfn : BitVec 24) (line : BitVec 16) (count : BitVec 11) (s : State) : Answers (execReconReadBulk h tag lfn line count s) (fun t => keepM t = keepM s) := by
  unfold execReconReadBulk
  repeat' first
    | with_reducible rfl
    | simp only [keepM_mk, keepM_times, keepM_foldl, apply_ite Prod.fst, apply_ite Prod.snd, ite_self, id_eq, implies_true, begin_keepM, sendAnswer_keepM, noteRebuild_keepM, countIn_keepM]
    | with_reducible refine ran_keepM _ _ ?_
    | with_reducible refine receive_keepM _ _ _ _ (fun _ _ => ?_)
    | split
    | with_reducible refine Eq.trans (keepM_foldl _ _ _ (fun _ _ => ?_)) ?_
    | with_reducible refine keepM_ite_eq ?_ ?_

theorem execReconData_keepM (h : MsgHdr) (tag : Word) (part : Byte) (parts : Byte) (status : BitVec 2) (body : ReconBody) (s : State) : Answers (execReconData h tag part parts status body s) (fun t => keepM t = keepM s) := by
  unfold execReconData
  repeat' first
    | with_reducible rfl
    | simp only [keepM_mk, keepM_times, keepM_foldl, apply_ite Prod.fst, apply_ite Prod.snd, ite_self, id_eq, implies_true, begin_keepM, swkGot_keepM, mapGot_keepM, rnumAnswer_keepM, setRead_keepM, baseGot_keepM, rebuildPoll_keepM]
    | with_reducible refine ran_keepM _ _ ?_
    | with_reducible refine receive_keepM _ _ _ _ (fun _ _ => ?_)
    | split
    | with_reducible refine Eq.trans (keepM_foldl _ _ _ (fun _ _ => ?_)) ?_
    | with_reducible refine keepM_ite_eq ?_ ?_

theorem execTimetable_keepM (h : MsgHdr) (cycle : BitVec 64) (sgen : BitVec 48) (entries : List Word) (crc : Word) (s : State) : Answers (execTimetable h cycle sgen entries crc s) (fun t => keepM t = keepM s) := by
  unfold execTimetable
  repeat' first
    | with_reducible rfl
    | simp only [keepM_mk, keepM_times, keepM_foldl, apply_ite Prod.fst, apply_ite Prod.snd, ite_self, id_eq, implies_true, begin_keepM]
    | with_reducible refine ran_keepM _ _ ?_
    | with_reducible refine receive_keepM _ _ _ _ (fun _ _ => ?_)
    | split
    | with_reducible refine Eq.trans (keepM_foldl _ _ _ (fun _ _ => ?_)) ?_
    | with_reducible refine keepM_ite_eq ?_ ?_

theorem execUnhitchMessage_keepS (h : MsgHdr) (cause : Byte) (rnums : List (BitVec 48)) (s : State) : Answers (execUnhitchMessage h cause rnums s) (fun t => keepS t = keepS s) := by
  unfold execUnhitchMessage
  repeat' first
    | with_reducible rfl
    | simp only [keepS_mk, keepS_times, keepS_foldl, apply_ite Prod.fst, apply_ite Prod.snd, ite_self, id_eq, implies_true, begin_keepS, send_keepS, setWard_keepS, memberGone_keepS]
    | with_reducible refine ran_keepS _ _ ?_
    | with_reducible refine receive_keepS _ _ _ _ (fun _ _ => ?_)
    | split
    | with_reducible refine Eq.trans (keepS_foldl _ _ _ (fun _ _ => ?_)) ?_
    | with_reducible refine keepS_ite_eq ?_ ?_

theorem execPeerCommandTimeout_keepM (job : BitVec 16) (_peer : BitVec 9) (s : State) : Answers (execPeerCommandTimeout job _peer s) (fun t => keepM t = keepM s) := by
  unfold execPeerCommandTimeout
  repeat' first
    | with_reducible rfl
    | simp only [keepM_mk, keepM_times, keepM_foldl, apply_ite Prod.fst, apply_ite Prod.snd, ite_self, id_eq, implies_true, begin_keepM, endJob_keepM, begin_keepM]
    | with_reducible refine ran_keepM _ _ ?_
    | split
    | with_reducible refine Eq.trans (keepM_foldl _ _ _ (fun _ _ => ?_)) ?_
    | with_reducible refine keepM_ite_eq ?_ ?_

theorem execPtmDialogTimer_keepS (s : State) : Answers (execPtmDialogTimer s) (fun t => keepS t = keepS s) := by
  unfold execPtmDialogTimer
  repeat' first
    | with_reducible rfl
    | simp only [keepS_mk, keepS_times, keepS_foldl, apply_ite Prod.fst, apply_ite Prod.snd, ite_self, id_eq, implies_true, begin_keepS, send_keepS, begin_keepS]
    | with_reducible refine ran_keepS _ _ ?_
    | split
    | with_reducible refine Eq.trans (keepS_foldl _ _ _ (fun _ _ => ?_)) ?_
    | with_reducible refine keepS_ite_eq ?_ ?_

theorem execPtmResponse_keepS (master : BitVec 64) (delayNs : Word) (s : State) : Answers (execPtmResponse master delayNs s) (fun t => keepS t = keepS s) := by
  unfold execPtmResponse
  repeat' first
    | with_reducible rfl
    | simp only [keepS_mk, keepS_times, keepS_foldl, apply_ite Prod.fst, apply_ite Prod.snd, ite_self, id_eq, implies_true, begin_keepS, begin_keepS, goodSample_keepS]
    | with_reducible refine ran_keepS _ _ ?_
    | split
    | with_reducible refine Eq.trans (keepS_foldl _ _ _ (fun _ _ => ?_)) ?_
    | with_reducible refine keepS_ite_eq ?_ ?_

theorem execTimemarkEdge_keepS (s : State) : Answers (execTimemarkEdge s) (fun t => keepS t = keepS s) := by
  have key : ∀ (n : BitVec 64) (b : State), keepS b = keepS s → Answers (if !b.time.markValid then ran b
    else
      let v := b.time.markVal
      let t := { b with time := { b.time with markVal := v + n } }
      if srcInjected t .timemark then ran t else ran (goodSample .timemark v.toNat t)) (fun t => keepS t = keepS s) := by
    intro n b h
    split
    · exact ran_keepS _ _ h
    · dsimp only
      split
      · exact ran_keepS _ _ h
      · exact ran_keepS _ _ ((goodSample_keepS _ _ _).trans h)
  exact key 1000000 (begin s) (begin_keepS s)

theorem execPtmSampleLoss_keepS (s : State) : Answers (execPtmSampleLoss s) (fun t => keepS t = keepS s) := by
  unfold execPtmSampleLoss
  repeat' first
    | with_reducible rfl
    | simp only [keepS_mk, keepS_times, keepS_foldl, apply_ite Prod.fst, apply_ite Prod.snd, ite_self, id_eq, implies_true, begin_keepS, begin_keepS, loseSource_keepS]
    | with_reducible refine ran_keepS _ _ ?_
    | split
    | with_reducible refine Eq.trans (keepS_foldl _ _ _ (fun _ _ => ?_)) ?_
    | with_reducible refine keepS_ite_eq ?_ ?_

theorem execTimemarkLoss_keepS (s : State) : Answers (execTimemarkLoss s) (fun t => keepS t = keepS s) := by
  unfold execTimemarkLoss
  repeat' first
    | with_reducible rfl
    | simp only [keepS_mk, keepS_times, keepS_foldl, apply_ite Prod.fst, apply_ite Prod.snd, ite_self, id_eq, implies_true, begin_keepS, begin_keepS, loseSource_keepS]
    | with_reducible refine ran_keepS _ _ ?_
    | split
    | with_reducible refine Eq.trans (keepS_foldl _ _ _ (fun _ _ => ?_)) ?_
    | with_reducible refine keepS_ite_eq ?_ ?_

theorem execHoldoverLimit_keepS (s : State) : Answers (execHoldoverLimit s) (fun t => keepS t = keepS s) := by
  unfold execHoldoverLimit
  repeat' first
    | with_reducible rfl
    | simp only [keepS_mk, keepS_times, keepS_foldl, apply_ite Prod.fst, apply_ite Prod.snd, ite_self, id_eq, implies_true, begin_keepS, timeEvent_keepS, begin_keepS]
    | with_reducible refine ran_keepS _ _ ?_
    | split
    | with_reducible refine Eq.trans (keepS_foldl _ _ _ (fun _ _ => ?_)) ?_
    | with_reducible refine keepS_ite_eq ?_ ?_

theorem execLifeHourly_keepS (s : State) : Answers (execLifeHourly s) (fun t => keepS t = keepS s) := by
  unfold execLifeHourly
  repeat' first
    | with_reducible rfl
    | simp only [keepS_mk, keepS_times, keepS_foldl, apply_ite Prod.fst, apply_ite Prod.snd, ite_self, id_eq, implies_true, begin_keepS, begin_keepS, sbEnqueue_keepS]
    | with_reducible refine ran_keepS _ _ ?_
    | split
    | with_reducible refine Eq.trans (keepS_foldl _ _ _ (fun _ _ => ?_)) ?_
    | with_reducible refine keepS_ite_eq ?_ ?_

theorem execAtiHourPoint_keepM (s : State) : Answers (execAtiHourPoint s) (fun t => keepM t = keepM s) := by
  unfold execAtiHourPoint
  repeat' first
    | with_reducible rfl
    | simp only [keepM_mk, keepM_times, keepM_foldl, apply_ite Prod.fst, apply_ite Prod.snd, ite_self, id_eq, implies_true, begin_keepM, begin_keepM, sbEnqueue_keepM]
    | with_reducible refine ran_keepM _ _ ?_
    | split
    | with_reducible refine Eq.trans (keepM_foldl _ _ _ (fun _ _ => ?_)) ?_
    | with_reducible refine keepM_ite_eq ?_ ?_

theorem execWaybillFlushTimer_keepE (s : State) : Answers (execWaybillFlushTimer s) (fun t => keepE t = keepE s) := by
  unfold execWaybillFlushTimer
  repeat' first
    | with_reducible rfl
    | simp only [keepE_mk, keepE_times, keepE_foldl, apply_ite Prod.fst, apply_ite Prod.snd, ite_self, id_eq, implies_true, begin_keepE, wbFlush_keepE, begin_keepE]
    | with_reducible refine ran_keepE _ _ ?_
    | split
    | with_reducible refine Eq.trans (keepE_foldl _ _ _ (fun _ _ => ?_)) ?_
    | with_reducible refine keepE_ite_eq ?_ ?_

theorem execCeLeakStep_keepE (s : State) : Answers (execCeLeakStep s) (fun t => keepE t = keepE s) := by
  unfold execCeLeakStep
  repeat' first
    | with_reducible rfl
    | simp only [keepE_mk, keepE_times, keepE_foldl, apply_ite Prod.fst, apply_ite Prod.snd, ite_self, id_eq, implies_true, begin_keepE, ceLeak_keepE, begin_keepE]
    | with_reducible refine ran_keepE _ _ ?_
    | split
    | with_reducible refine Eq.trans (keepE_foldl _ _ _ (fun _ _ => ?_)) ?_
    | with_reducible refine keepE_ite_eq ?_ ?_

theorem execStrongboxWriteDone_keepA (s : State) : Answers (execStrongboxWriteDone s) (fun t => keepA t = keepA s) := by
  unfold execStrongboxWriteDone
  repeat' first
    | with_reducible rfl
    | simp only [keepA_mk, keepA_times, keepA_foldl, apply_ite Prod.fst, apply_ite Prod.snd, ite_self, id_eq, implies_true, begin_keepA, lowerAdvance_keepA, sbWriteDone_keepA, begin_keepA]
    | with_reducible refine ran_keepA _ _ ?_
    | split
    | with_reducible refine Eq.trans (keepA_foldl _ _ _ (fun _ _ => ?_)) ?_
    | with_reducible refine keepA_ite_eq ?_ ?_

theorem execStrongboxMarginRefresh_keepE (slot : BitVec 16) (weak : Bool) (s : State) : Answers (execStrongboxMarginRefresh slot weak s) (fun t => keepE t = keepE s) := by
  unfold execStrongboxMarginRefresh
  repeat' first
    | with_reducible rfl
    | simp only [keepE_mk, keepE_times, keepE_foldl, apply_ite Prod.fst, apply_ite Prod.snd, ite_self, id_eq, implies_true, begin_keepE, begin_keepE, sbEnqueue_keepE, event_keepE]
    | with_reducible refine ran_keepE _ _ ?_
    | split
    | with_reducible refine Eq.trans (keepE_foldl _ _ _ (fun _ _ => ?_)) ?_
    | with_reducible refine keepE_ite_eq ?_ ?_

theorem execVauxRise_keepA (mv : BitVec 12) (s : State) : Answers (execVauxRise mv s) (fun t => keepA t = keepA s) := by
  unfold execVauxRise
  repeat' first
    | with_reducible rfl
    | simp only [keepA_mk, keepA_times, keepA_foldl, apply_ite Prod.fst, apply_ite Prod.snd, ite_self, id_eq, implies_true, begin_keepA, sillBoot_keepA, setVaux_keepA, begin_keepA, coldReset_keepA]
    | with_reducible refine ran_keepA _ _ ?_
    | split
    | with_reducible refine Eq.trans (keepA_foldl _ _ _ (fun _ _ => ?_)) ?_
    | with_reducible refine keepA_ite_eq ?_ ?_

theorem execVauxLow_keepE (mv : BitVec 12) (s : State) : Answers (execVauxLow mv s) (fun t => keepE t = keepE s) := by
  unfold execVauxLow
  repeat' first
    | with_reducible rfl
    | simp only [keepE_mk, keepE_times, keepE_foldl, apply_ite Prod.fst, apply_ite Prod.snd, ite_self, id_eq, implies_true, begin_keepE, setVaux_keepE, begin_keepE]
    | with_reducible refine ran_keepE _ _ ?_
    | split
    | with_reducible refine Eq.trans (keepE_foldl _ _ _ (fun _ _ => ?_)) ?_
    | with_reducible refine keepE_ite_eq ?_ ?_

theorem execVauxLoss_keepA (s : State) : Answers (execVauxLoss s) (fun t => keepA t = keepA s) := by
  unfold execVauxLoss
  repeat' first
    | with_reducible rfl
    | simp only [keepA_mk, keepA_times, keepA_foldl, apply_ite Prod.fst, apply_ite Prod.snd, ite_self, id_eq, implies_true, begin_keepA, begin_keepA, coldReset_keepA]
    | with_reducible refine ran_keepA _ _ ?_
    | split
    | with_reducible refine Eq.trans (keepA_foldl _ _ _ (fun _ _ => ?_)) ?_
    | with_reducible refine keepA_ite_eq ?_ ?_

theorem execVauxBandChange_keepE (mv : BitVec 12) (s : State) : Answers (execVauxBandChange mv s) (fun t => keepE t = keepE s) := by
  unfold execVauxBandChange
  repeat' first
    | with_reducible rfl
    | simp only [keepE_mk, keepE_times, keepE_foldl, apply_ite Prod.fst, apply_ite Prod.snd, ite_self, id_eq, implies_true, begin_keepE, setVaux_keepE, begin_keepE]
    | with_reducible refine ran_keepE _ _ ?_
    | split
    | with_reducible refine Eq.trans (keepE_foldl _ _ _ (fun _ _ => ?_)) ?_
    | with_reducible refine keepE_ite_eq ?_ ?_

theorem execSillReset_keepA (s : State) : Answers (execSillReset s) (fun t => keepA t = keepA s) := by
  unfold execSillReset
  repeat' first
    | with_reducible rfl
    | simp only [keepA_mk, keepA_times, keepA_foldl, apply_ite Prod.fst, apply_ite Prod.snd, ite_self, id_eq, implies_true, begin_keepA, sillBoot_keepA, begin_keepA, coldReset_keepA]
    | with_reducible refine ran_keepA _ _ ?_
    | split
    | with_reducible refine Eq.trans (keepA_foldl _ _ _ (fun _ _ => ?_)) ?_
    | with_reducible refine keepA_ite_eq ?_ ?_

theorem execMgmtWatchdog_keepM (s : State) : Answers (execMgmtWatchdog s) (fun t => keepM t = keepM s) := by
  unfold execMgmtWatchdog
  repeat' first
    | with_reducible rfl
    | simp only [keepM_mk, keepM_times, keepM_foldl, apply_ite Prod.fst, apply_ite Prod.snd, ite_self, id_eq, implies_true, begin_keepM, begin_keepM, warmReset_keepM]
    | with_reducible refine ran_keepM _ _ ?_
    | split
    | with_reducible refine Eq.trans (keepM_foldl _ _ _ (fun _ _ => ?_)) ?_
    | with_reducible refine keepM_ite_eq ?_ ?_

theorem execPfNAssert_keepS (s : State) : Answers (execPfNAssert s) (fun t => keepS t = keepS s) := by
  unfold execPfNAssert
  repeat' first
    | with_reducible rfl
    | simp only [keepS_mk, keepS_times, keepS_foldl, apply_ite Prod.fst, apply_ite Prod.snd, ite_self, id_eq, implies_true, begin_keepS, setPower_keepS, powerOff_keepS, begin_keepS]
    | with_reducible refine ran_keepS _ _ ?_
    | split
    | with_reducible refine Eq.trans (keepS_foldl _ _ _ (fun _ _ => ?_)) ?_
    | with_reducible refine keepS_ite_eq ?_ ?_

theorem execPfNRelease_keepS (s : State) : Answers (execPfNRelease s) (fun t => keepS t = keepS s) := by
  unfold execPfNRelease
  repeat' first
    | with_reducible rfl
    | simp only [keepS_mk, keepS_times, keepS_foldl, apply_ite Prod.fst, apply_ite Prod.snd, ite_self, id_eq, implies_true, begin_keepS, powerOn_keepS, setPower_keepS, begin_keepS, startOn_keepS]
    | with_reducible refine ran_keepS _ _ ?_
    | split
    | with_reducible refine Eq.trans (keepS_foldl _ _ _ (fun _ _ => ?_)) ?_
    | with_reducible refine keepS_ite_eq ?_ ?_

theorem execSeqInHigh_keepS (s : State) : Answers (execSeqInHigh s) (fun t => keepS t = keepS s) := by
  unfold execSeqInHigh
  repeat' first
    | with_reducible rfl
    | simp only [keepS_mk, keepS_times, keepS_foldl, apply_ite Prod.fst, apply_ite Prod.snd, ite_self, id_eq, implies_true, begin_keepS, powerOn_keepS, setPower_keepS, begin_keepS]
    | with_reducible refine ran_keepS _ _ ?_
    | split
    | with_reducible refine Eq.trans (keepS_foldl _ _ _ (fun _ _ => ?_)) ?_
    | with_reducible refine keepS_ite_eq ?_ ?_

theorem execSeqInLow_keepS (s : State) : Answers (execSeqInLow s) (fun t => keepS t = keepS s) := by
  unfold execSeqInLow
  repeat' first
    | with_reducible rfl
    | simp only [keepS_mk, keepS_times, keepS_foldl, apply_ite Prod.fst, apply_ite Prod.snd, ite_self, id_eq, implies_true, begin_keepS, setPower_keepS, powerOff_keepS, begin_keepS]
    | with_reducible refine ran_keepS _ _ ?_
    | split
    | with_reducible refine Eq.trans (keepS_foldl _ _ _ (fun _ _ => ?_)) ?_
    | with_reducible refine keepS_ite_eq ?_ ?_

theorem execCascadeStep_keepS (s : State) : Answers (execCascadeStep s) (fun t => keepS t = keepS s) := by
  unfold execCascadeStep
  repeat' first
    | with_reducible rfl
    | simp only [keepS_mk, keepS_times, keepS_foldl, apply_ite Prod.fst, apply_ite Prod.snd, ite_self, id_eq, implies_true, begin_keepS, setPower_keepS, enableRail_keepS, begin_keepS, checkOn_keepS, disableRail_keepS]
    | with_reducible refine ran_keepS _ _ ?_
    | split
    | with_reducible refine Eq.trans (keepS_foldl _ _ _ (fun _ _ => ?_)) ?_
    | with_reducible refine keepS_ite_eq ?_ ?_

theorem execRailEnable_keepS (r : Fin 32) (s : State) : Answers (execRailEnable r s) (fun t => keepS t = keepS s) := by
  unfold execRailEnable
  repeat' first
    | with_reducible rfl
    | simp only [keepS_mk, keepS_times, keepS_foldl, apply_ite Prod.fst, apply_ite Prod.snd, ite_self, id_eq, implies_true, begin_keepS, enableRail_keepS, begin_keepS, checkOn_keepS]
    | with_reducible refine ran_keepS _ _ ?_
    | split
    | with_reducible refine Eq.trans (keepS_foldl _ _ _ (fun _ _ => ?_)) ?_
    | with_reducible refine keepS_ite_eq ?_ ?_

theorem execRailDisable_keepS (r : Fin 32) (s : State) : Answers (execRailDisable r s) (fun t => keepS t = keepS s) := by
  unfold execRailDisable
  repeat' first
    | with_reducible rfl
    | simp only [keepS_mk, keepS_times, keepS_foldl, apply_ite Prod.fst, apply_ite Prod.snd, ite_self, id_eq, implies_true, begin_keepS, begin_keepS, disableRail_keepS]
    | with_reducible refine ran_keepS _ _ ?_
    | split
    | with_reducible refine Eq.trans (keepS_foldl _ _ _ (fun _ _ => ?_)) ?_
    | with_reducible refine keepS_ite_eq ?_ ?_

theorem execPgGood_keepS (r : Fin 32) (s : State) : Answers (execPgGood r s) (fun t => keepS t = keepS s) := by
  unfold execPgGood
  repeat' first
    | with_reducible rfl
    | simp only [keepS_mk, keepS_times, keepS_foldl, apply_ite Prod.fst, apply_ite Prod.snd, ite_self, id_eq, implies_true, begin_keepS, setPower_keepS, begin_keepS, checkOn_keepS, railReadmitted_keepS]
    | with_reducible refine ran_keepS _ _ ?_
    | split
    | with_reducible refine Eq.trans (keepS_foldl _ _ _ (fun _ _ => ?_)) ?_
    | with_reducible refine keepS_ite_eq ?_ ?_

theorem execPgLost_keepS (r : Fin 32) (s : State) : Answers (execPgLost r s) (fun t => keepS t = keepS s) := by
  unfold execPgLost
  repeat' first
    | with_reducible rfl
    | simp only [keepS_mk, keepS_times, keepS_foldl, apply_ite Prod.fst, apply_ite Prod.snd, ite_self, id_eq, implies_true, begin_keepS, pgLost_keepS, begin_keepS]
    | with_reducible refine ran_keepS _ _ ?_
    | split
    | with_reducible refine Eq.trans (keepS_foldl _ _ _ (fun _ _ => ?_)) ?_
    | with_reducible refine keepS_ite_eq ?_ ?_

theorem execPgGlitch_keepS (r : Fin 32) (s : State) : Answers (execPgGlitch r s) (fun t => keepS t = keepS s) := by
  unfold execPgGlitch
  repeat' first
    | with_reducible rfl
    | simp only [keepS_mk, keepS_times, keepS_foldl, apply_ite Prod.fst, apply_ite Prod.snd, ite_self, id_eq, implies_true, begin_keepS, begin_keepS, pgGlitch_keepS]
    | with_reducible refine ran_keepS _ _ ?_
    | split
    | with_reducible refine Eq.trans (keepS_foldl _ _ _ (fun _ _ => ?_)) ?_
    | with_reducible refine keepS_ite_eq ?_ ?_

theorem execRailPgTimeout_keepS (r : Fin 32) (s : State) : Answers (execRailPgTimeout r s) (fun t => keepS t = keepS s) := by
  unfold execRailPgTimeout
  repeat' first
    | with_reducible rfl
    | simp only [keepS_mk, keepS_times, keepS_foldl, apply_ite Prod.fst, apply_ite Prod.snd, ite_self, id_eq, implies_true, begin_keepS, flagRail_keepS, endJob_keepS, begin_keepS, checkOn_keepS]
    | with_reducible refine ran_keepS _ _ ?_
    | split
    | with_reducible refine Eq.trans (keepS_foldl _ _ _ (fun _ _ => ?_)) ?_
    | with_reducible refine keepS_ite_eq ?_ ?_

theorem execRailOffTimeout_keepS (r : Fin 32) (s : State) : Answers (execRailOffTimeout r s) (fun t => keepS t = keepS s) := by
  unfold execRailOffTimeout
  repeat' first
    | with_reducible rfl
    | simp only [keepS_mk, keepS_times, keepS_foldl, apply_ite Prod.fst, apply_ite Prod.snd, ite_self, id_eq, implies_true, begin_keepS, checkOff_keepS, setPower_keepS, flagRail_keepS, begin_keepS]
    | with_reducible refine ran_keepS _ _ ?_
    | split
    | with_reducible refine Eq.trans (keepS_foldl _ _ _ (fun _ _ => ?_)) ?_
    | with_reducible refine keepS_ite_eq ?_ ?_

theorem execMinoffEnd_keepS (s : State) : Answers (execMinoffEnd s) (fun t => keepS t = keepS s) := by
  unfold execMinoffEnd
  repeat' first
    | with_reducible rfl
    | simp only [keepS_mk, keepS_times, keepS_foldl, apply_ite Prod.fst, apply_ite Prod.snd, ite_self, id_eq, implies_true, begin_keepS, setPower_keepS, begin_keepS, startOn_keepS]
    | with_reducible refine ran_keepS _ _ ?_
    | split
    | with_reducible refine Eq.trans (keepS_foldl _ _ _ (fun _ _ => ?_)) ?_
    | with_reducible refine keepS_ite_eq ?_ ?_

theorem execVcoreTrimStep_keepS (answered : Bool) (s : State) : Answers (execVcoreTrimStep answered s) (fun t => keepS t = keepS s) := by
  unfold execVcoreTrimStep
  repeat' first
    | with_reducible rfl
    | simp only [keepS_mk, keepS_times, keepS_foldl, apply_ite Prod.fst, apply_ite Prod.snd, ite_self, id_eq, implies_true, begin_keepS, send_keepS, setPower_keepS, begin_keepS, setUnit_keepS]
    | with_reducible refine ran_keepS _ _ ?_
    | split
    | with_reducible refine Eq.trans (keepS_foldl _ _ _ (fun _ _ => ?_)) ?_
    | with_reducible refine keepS_ite_eq ?_ ?_

theorem execHoldupStepDone_keepS (vbank : BitVec 16) (dq : Word) (fault : Bool) (s : State) : Answers (execHoldupStepDone vbank dq fault s) (fun t => keepS t = keepS s) := by
  unfold execHoldupStepDone
  extract_lets s1
  have h1 : keepS s1 = keepS s := begin_keepS s
  clear_value s1
  split
  · exact ran_keepS _ _ h1
  · extract_lets a dv
    split
    · exact ran_keepS _ _ ((mediaNext_keepS _).trans ((holdupFault_keepS _).trans ((setPower_keepS _ _).trans h1)))
    · exact ran_keepS _ _ ((keepS_mk _).trans ((setPower_keepS _ _).trans h1))

theorem execHoldupMeasureTimeout_keepS (s : State) : Answers (execHoldupMeasureTimeout s) (fun t => keepS t = keepS s) := by
  unfold execHoldupMeasureTimeout
  repeat' first
    | with_reducible rfl
    | simp only [keepS_mk, keepS_times, keepS_foldl, apply_ite Prod.fst, apply_ite Prod.snd, ite_self, id_eq, implies_true, begin_keepS, setPower_keepS, begin_keepS, mediaNext_keepS, holdupFault_keepS]
    | with_reducible refine ran_keepS _ _ ?_
    | split
    | with_reducible refine Eq.trans (keepS_foldl _ _ _ (fun _ _ => ?_)) ?_
    | with_reducible refine keepS_ite_eq ?_ ?_

theorem execHoldupMonitor_keepS (answer : Option HoldupStatus) (s : State) : Answers (execHoldupMonitor answer s) (fun t => keepS t = keepS s) := by
  unfold execHoldupMonitor
  repeat' first
    | with_reducible rfl
    | simp only [keepS_mk, keepS_times, keepS_foldl, apply_ite Prod.fst, apply_ite Prod.snd, ite_self, id_eq, implies_true, begin_keepS, fire_keepS, setPower_keepS, begin_keepS, mediaNext_keepS, holdupFault_keepS]
    | with_reducible refine ran_keepS _ _ ?_
    | split
    | with_reducible refine Eq.trans (keepS_foldl _ _ _ (fun _ _ => ?_)) ?_
    | with_reducible refine keepS_ite_eq ?_ ?_

theorem execFlushStepEnd_keepS (us : BitVec 24) (s : State) : Answers (execFlushStepEnd us s) (fun t => keepS t = keepS s) := by
  unfold execFlushStepEnd
  repeat' first
    | with_reducible rfl
    | simp only [keepS_mk, keepS_times, keepS_foldl, apply_ite Prod.fst, apply_ite Prod.snd, ite_self, id_eq, implies_true, begin_keepS, setPower_keepS, flushSegment_keepS, imageEnd_keepS, flushReady_keepS, begin_keepS, flushDeltas_keepS, offTable_keepS, flushSegments_keepS, imageStart_keepS]
    | with_reducible refine ran_keepS _ _ ?_
    | split
    | with_reducible refine Eq.trans (keepS_foldl _ _ _ (fun _ _ => ?_)) ?_
    | with_reducible refine keepS_ite_eq ?_ ?_

theorem execThermalSample_keepS (readings : List (Option (BitVec 16))) (s : State) : Answers (execThermalSample readings s) (fun t => keepS t = keepS s) := by
  unfold execThermalSample
  repeat' first
    | with_reducible rfl
    | simp only [keepS_mk, keepS_times, keepS_foldl, apply_ite Prod.fst, apply_ite Prod.snd, ite_self, id_eq, implies_true, begin_keepS, injectedAlerts_keepS, crossCheck_keepS, begin_keepS, judgeSample_keepS, takeReading_keepS]
    | with_reducible refine ran_keepS _ _ ?_
    | split
    | with_reducible refine Eq.trans (keepS_foldl _ _ _ (fun _ _ => ?_)) ?_
    | with_reducible refine keepS_ite_eq ?_ ?_

theorem execThermalHalfGrace_keepM (s : State) : Answers (execThermalHalfGrace s) (fun t => keepM t = keepM s) := by
  unfold execThermalHalfGrace
  repeat' first
    | with_reducible rfl
    | simp only [keepM_mk, keepM_times, keepM_foldl, apply_ite Prod.fst, apply_ite Prod.snd, ite_self, id_eq, implies_true, begin_keepM, setThermLoad_keepM, begin_keepM]
    | with_reducible refine ran_keepM _ _ ?_
    | split
    | with_reducible refine Eq.trans (keepM_foldl _ _ _ (fun _ _ => ?_)) ?_
    | with_reducible refine keepM_ite_eq ?_ ?_

theorem execThermalGraceExpiry_keepS (s : State) : Answers (execThermalGraceExpiry s) (fun t => keepS t = keepS s) := by
  unfold execThermalGraceExpiry
  repeat' first
    | with_reducible rfl
    | simp only [keepS_mk, keepS_times, keepS_foldl, apply_ite Prod.fst, apply_ite Prod.snd, ite_self, id_eq, implies_true, begin_keepS, setTherm_keepS, begin_keepS, event_keepS]
    | with_reducible refine ran_keepS _ _ ?_
    | split
    | with_reducible refine Eq.trans (keepS_foldl _ _ _ (fun _ _ => ?_)) ?_
    | with_reducible refine keepS_ite_eq ?_ ?_

theorem execBrakeFractionStep_keepS (s : State) : Answers (execBrakeFractionStep s) (fun t => keepS t = keepS s) := by
  unfold execBrakeFractionStep
  repeat' first
    | with_reducible rfl
    | simp only [keepS_mk, keepS_times, keepS_foldl, apply_ite Prod.fst, apply_ite Prod.snd, ite_self, id_eq, implies_true, begin_keepS, setTherm_keepS, setThermLoad_keepS, begin_keepS, event_keepS]
    | with_reducible refine ran_keepS _ _ ?_
    | split
    | with_reducible refine Eq.trans (keepS_foldl _ _ _ (fun _ _ => ?_)) ?_
    | with_reducible refine keepS_ite_eq ?_ ?_

theorem execSensorReadingTimeout_keepS (i : Fin 64) (s : State) : Answers (execSensorReadingTimeout i s) (fun t => keepS t = keepS s) := by
  unfold execSensorReadingTimeout
  repeat' first
    | with_reducible rfl
    | simp only [keepS_mk, keepS_times, keepS_foldl, apply_ite Prod.fst, apply_ite Prod.snd, ite_self, id_eq, implies_true, begin_keepS, setSensor_keepS, begin_keepS, sensorBreaks_keepS]
    | with_reducible refine ran_keepS _ _ ?_
    | split
    | with_reducible refine Eq.trans (keepS_foldl _ _ _ (fun _ _ => ?_)) ?_
    | with_reducible refine keepS_ite_eq ?_ ?_

theorem execStartPhaseEnd_keepA (hbmTrained : BitVec 4) (s : State) : Answers (execStartPhaseEnd hbmTrained s) (fun t => keepA t = keepA s) := by
  unfold execStartPhaseEnd
  repeat' first
    | with_reducible rfl
    | simp only [keepA_mk, keepA_times, keepA_foldl, apply_ite Prod.fst, apply_ite Prod.snd, ite_self, id_eq, implies_true, begin_keepA, phase3End_keepA, phase5End_keepA, begin_keepA, phase4End_keepA, phase7End_keepA, mediaNext_keepA, phase1End_keepA, phase6End_keepA, phase8End_keepA]
    | with_reducible refine ran_keepA _ _ ?_
    | split
    | with_reducible refine Eq.trans (keepA_foldl _ _ _ (fun _ _ => ?_)) ?_
    | with_reducible refine keepA_ite_eq ?_ ?_

theorem execGetVersion_keepE (port : Fin 4) (s : State) : Answers (execGetVersion port s) (fun t => keepE t = keepE s) := by
  unfold execGetVersion
  repeat' first
    | with_reducible rfl
    | simp only [keepE_mk, keepE_times, keepE_foldl, apply_ite Prod.fst, apply_ite Prod.snd, ite_self, id_eq, implies_true, begin_keepE, setSpdm_keepE, spdmSend_keepE]
    | with_reducible refine ran_keepE _ _ ?_
    | with_reducible refine onDoe_keepE _ _ _ (fun _ => ?_)
    | split
    | with_reducible refine Eq.trans (keepE_foldl _ _ _ (fun _ _ => ?_)) ?_
    | with_reducible refine keepE_ite_eq ?_ ?_

theorem execGetCapabilities_keepE (port : Fin 4) (_flags : Word) (s : State) : Answers (execGetCapabilities port _flags s) (fun t => keepE t = keepE s) := by
  unfold execGetCapabilities
  repeat' first
    | with_reducible rfl
    | simp only [keepE_mk, keepE_times, keepE_foldl, apply_ite Prod.fst, apply_ite Prod.snd, ite_self, id_eq, implies_true, begin_keepE, spdmErr_keepE, setSpdm_keepE, spdmSend_keepE]
    | with_reducible refine ran_keepE _ _ ?_
    | with_reducible refine onDoe_keepE _ _ _ (fun _ => ?_)
    | split
    | with_reducible refine Eq.trans (keepE_foldl _ _ _ (fun _ _ => ?_)) ?_
    | with_reducible refine keepE_ite_eq ?_ ?_

theorem execNegotiateAlgorithms_keepE (port : Fin 4) (supported : Bool) (s : State) : Answers (execNegotiateAlgorithms port supported s) (fun t => keepE t = keepE s) := by
  unfold execNegotiateAlgorithms
  repeat' first
    | with_reducible rfl
    | simp only [keepE_mk, keepE_times, keepE_foldl, apply_ite Prod.fst, apply_ite Prod.snd, ite_self, id_eq, implies_true, begin_keepE, spdmErr_keepE, setSpdm_keepE, spdmSend_keepE]
    | with_reducible refine ran_keepE _ _ ?_
    | with_reducible refine onDoe_keepE _ _ _ (fun _ => ?_)
    | split
    | with_reducible refine Eq.trans (keepE_foldl _ _ _ (fun _ _ => ?_)) ?_
    | with_reducible refine keepE_ite_eq ?_ ?_

theorem execGetDigests_keepE (port : Fin 4) (s : State) : Answers (execGetDigests port s) (fun t => keepE t = keepE s) := by
  unfold execGetDigests
  repeat' first
    | with_reducible rfl
    | simp only [keepE_mk, keepE_times, keepE_foldl, apply_ite Prod.fst, apply_ite Prod.snd, ite_self, id_eq, implies_true, begin_keepE, spdmSend_keepE]
    | with_reducible refine (afterAlgs_keepE _ _ _ (fun _ => ?_)).trans ?_
    | with_reducible refine ran_keepE _ _ ?_
    | with_reducible refine onDoe_keepE _ _ _ (fun _ => ?_)
    | split
    | with_reducible refine Eq.trans (keepE_foldl _ _ _ (fun _ _ => ?_)) ?_
    | with_reducible refine keepE_ite_eq ?_ ?_

theorem execGetCertificate_keepE (port : Fin 4) (slot : Byte) (offset : BitVec 16) (length : BitVec 16) (s : State) : Answers (execGetCertificate port slot offset length s) (fun t => keepE t = keepE s) := by
  unfold execGetCertificate
  repeat' first
    | with_reducible rfl
    | simp only [keepE_mk, keepE_times, keepE_foldl, apply_ite Prod.fst, apply_ite Prod.snd, ite_self, id_eq, implies_true, begin_keepE, spdmErr_keepE, spdmSend_keepE]
    | with_reducible refine (afterAlgs_keepE _ _ _ (fun _ => ?_)).trans ?_
    | with_reducible refine ran_keepE _ _ ?_
    | with_reducible refine onDoe_keepE _ _ _ (fun _ => ?_)
    | split
    | with_reducible refine Eq.trans (keepE_foldl _ _ _ (fun _ _ => ?_)) ?_
    | with_reducible refine keepE_ite_eq ?_ ?_

theorem execChallenge_keepE (port : Fin 4) (slot : Byte) (nonce : BitVec 256) (s : State) : Answers (execChallenge port slot nonce s) (fun t => keepE t = keepE s) := by
  unfold execChallenge
  repeat' first
    | with_reducible rfl
    | simp only [keepE_mk, keepE_times, keepE_foldl, apply_ite Prod.fst, apply_ite Prod.snd, ite_self, id_eq, implies_true, begin_keepE, spdmErr_keepE, spdmSend_keepE]
    | with_reducible refine (afterAlgs_keepE _ _ _ (fun _ => ?_)).trans ?_
    | with_reducible refine ran_keepE _ _ ?_
    | with_reducible refine onDoe_keepE _ _ _ (fun _ => ?_)
    | split
    | with_reducible refine Eq.trans (keepE_foldl _ _ _ (fun _ _ => ?_)) ?_
    | with_reducible refine keepE_ite_eq ?_ ?_

theorem execGetMeasurements_keepE (port : Fin 4) (index : Byte) (nonce : Option (BitVec 256)) (s : State) : Answers (execGetMeasurements port index nonce s) (fun t => keepE t = keepE s) := by
  unfold execGetMeasurements
  repeat' first
    | with_reducible rfl
    | simp only [keepE_mk, keepE_times, keepE_foldl, apply_ite Prod.fst, apply_ite Prod.snd, ite_self, id_eq, implies_true, begin_keepE, spdmErr_keepE, spdmSend_keepE]
    | with_reducible refine (afterAlgs_keepE _ _ _ (fun _ => ?_)).trans ?_
    | with_reducible refine ran_keepE _ _ ?_
    | with_reducible refine onDoe_keepE _ _ _ (fun _ => ?_)
    | split
    | with_reducible refine Eq.trans (keepE_foldl _ _ _ (fun _ _ => ?_)) ?_
    | with_reducible refine keepE_ite_eq ?_ ?_

theorem execKeyExchange_keepM (port : Fin 4) (reqSession : BitVec 16) (exchange : List Byte) (s : State) : Answers (execKeyExchange port reqSession exchange s) (fun t => keepM t = keepM s) := by
  unfold execKeyExchange
  repeat' first
    | with_reducible rfl
    | simp only [keepM_mk, keepM_times, keepM_foldl, apply_ite Prod.fst, apply_ite Prod.snd, ite_self, id_eq, implies_true, begin_keepM, spdmErr_keepM, drawBits_keepM, setSpdm_keepM, spdmSend_keepM]
    | with_reducible refine (afterAlgs_keepM _ _ _ (fun _ => ?_)).trans ?_
    | with_reducible refine ran_keepM _ _ ?_
    | with_reducible refine onDoe_keepM _ _ _ (fun _ => ?_)
    | split
    | with_reducible refine Eq.trans (keepM_foldl _ _ _ (fun _ _ => ?_)) ?_
    | with_reducible refine keepM_ite_eq ?_ ?_

theorem execFinish_keepE (port : Fin 4) (session : Word) (verifyOk : Bool) (s : State) : Answers (execFinish port session verifyOk s) (fun t => keepE t = keepE s) := by
  unfold execFinish
  repeat' first
    | with_reducible rfl
    | simp only [keepE_mk, keepE_times, keepE_foldl, apply_ite Prod.fst, apply_ite Prod.snd, ite_self, id_eq, implies_true, begin_keepE, spdmErr_keepE, setSpdm_keepE, spdmSend_keepE]
    | with_reducible refine ran_keepE _ _ ?_
    | with_reducible refine onDoe_keepE _ _ _ (fun _ => ?_)
    | split
    | with_reducible refine Eq.trans (keepE_foldl _ _ _ (fun _ _ => ?_)) ?_
    | with_reducible refine keepE_ite_eq ?_ ?_

theorem execKeyUpdate_keepE (port : Fin 4) (session : Word) (op : Byte) (s : State) : Answers (execKeyUpdate port session op s) (fun t => keepE t = keepE s) := by
  unfold execKeyUpdate
  repeat' first
    | with_reducible rfl
    | simp only [keepE_mk, keepE_times, keepE_foldl, apply_ite Prod.fst, apply_ite Prod.snd, ite_self, id_eq, implies_true, begin_keepE, spdmErr_keepE, spdmSend_keepE]
    | with_reducible refine (inSession_keepE _ _ _ _ (fun _ => ?_)).trans ?_
    | with_reducible refine ran_keepE _ _ ?_
    | with_reducible refine onDoe_keepE _ _ _ (fun _ => ?_)
    | split
    | with_reducible refine Eq.trans (keepE_foldl _ _ _ (fun _ _ => ?_)) ?_
    | with_reducible refine keepE_ite_eq ?_ ?_

theorem execSpdmHeartbeat_keepE (port : Fin 4) (session : Word) (s : State) : Answers (execSpdmHeartbeat port session s) (fun t => keepE t = keepE s) := by
  unfold execSpdmHeartbeat
  repeat' first
    | with_reducible rfl
    | simp only [keepE_mk, keepE_times, keepE_foldl, apply_ite Prod.fst, apply_ite Prod.snd, ite_self, id_eq, implies_true, begin_keepE, spdmSend_keepE]
    | with_reducible refine (inSession_keepE _ _ _ _ (fun _ => ?_)).trans ?_
    | with_reducible refine ran_keepE _ _ ?_
    | with_reducible refine onDoe_keepE _ _ _ (fun _ => ?_)
    | split
    | with_reducible refine Eq.trans (keepE_foldl _ _ _ (fun _ _ => ?_)) ?_
    | with_reducible refine keepE_ite_eq ?_ ?_

theorem execEndSession_keepE (port : Fin 4) (session : Word) (s : State) : Answers (execEndSession port session s) (fun t => keepE t = keepE s) := by
  unfold execEndSession
  repeat' first
    | with_reducible rfl
    | simp only [keepE_mk, keepE_times, keepE_foldl, apply_ite Prod.fst, apply_ite Prod.snd, ite_self, id_eq, implies_true, begin_keepE, setSpdm_keepE, spdmSend_keepE]
    | with_reducible refine (inSession_keepE _ _ _ _ (fun _ => ?_)).trans ?_
    | with_reducible refine ran_keepE _ _ ?_
    | with_reducible refine onDoe_keepE _ _ _ (fun _ => ?_)
    | split
    | with_reducible refine Eq.trans (keepE_foldl _ _ _ (fun _ _ => ?_)) ?_
    | with_reducible refine keepE_ite_eq ?_ ?_

theorem execIdeKm_keepE (port : Fin 4) (session : Word) (op : IdeOp) (sub : Byte) (key : BitVec 256) (s : State) : Answers (execIdeKm port session op sub key s) (fun t => keepE t = keepE s) := by
  unfold execIdeKm
  repeat' first
    | with_reducible rfl
    | simp only [keepE_mk, keepE_times, keepE_foldl, apply_ite Prod.fst, apply_ite Prod.snd, ite_self, id_eq, implies_true, begin_keepE, send_keepE, setPort_keepE]
    | with_reducible refine ran_keepE _ _ ?_
    | with_reducible refine onDoe_keepE _ _ _ (fun _ => ?_)
    | split
    | with_reducible refine Eq.trans (keepE_foldl _ _ _ (fun _ _ => ?_)) ?_
    | with_reducible refine keepE_ite_eq ?_ ?_

theorem execPatternFrame_keepM (ch : Fin 32) (h : FrameHdr) (pattern : BitVec 1024) (center0 : Byte) (center1 : Byte) (margin : Byte) (s : State) : Answers (execPatternFrame ch h pattern center0 center1 margin s) (fun t => keepM t = keepM s) := by
  unfold execPatternFrame
  repeat' first
    | with_reducible rfl
    | simp only [keepM_mk, keepM_times, keepM_foldl, apply_ite Prod.fst, apply_ite Prod.snd, ite_self, id_eq, implies_true, begin_keepM, setCart_keepM, trainTo_keepM, trainDone_keepM, checkFrame_keepM, begin_keepM, mediaNext_keepM, trainAgain_keepM, nextFrame_keepM, requestRetrain_keepM]
    | with_reducible refine ran_keepM _ _ ?_
    | split
    | with_reducible refine Eq.trans (keepM_foldl _ _ _ (fun _ _ => ?_)) ?_
    | with_reducible refine keepM_ite_eq ?_ ?_

theorem execHdmDecoderCommit_keepE (port : Fin 4) (ld : Fin 16) (dec : Fin 4) (base : BitVec 64) (size : BitVec 64) (ways : BitVec 8) (gran : BitVec 16) (pos : BitVec 4) (dpaSkip : BitVec 46) (s : State) : Answers (execHdmDecoderCommit port ld dec base size ways gran pos dpaSkip s) (fun t => keepE t = keepE s) := by
  unfold execHdmDecoderCommit
  repeat' first
    | with_reducible rfl
    | simp only [keepE_mk, keepE_times, keepE_foldl, apply_ite Prod.fst, apply_ite Prod.snd, ite_self, id_eq, implies_true, begin_keepE, setLd_keepE, begin_keepE]
    | with_reducible refine ran_keepE _ _ ?_
    | split
    | with_reducible refine Eq.trans (keepE_foldl _ _ _ (fun _ _ => ?_)) ?_
    | with_reducible refine keepE_ite_eq ?_ ?_

theorem execBankCharged_keepS (vbank : BitVec 16) (vmin : BitVec 16) (eff : Byte) (s : State) : Answers (execBankCharged vbank vmin eff s) (fun t => keepS t = keepS s) := by
  unfold execBankCharged
  repeat' first
    | with_reducible rfl
    | simp only [keepS_mk, keepS_times, keepS_foldl, apply_ite Prod.fst, apply_ite Prod.snd, ite_self, id_eq, implies_true, begin_keepS, send_keepS, setPower_keepS, begin_keepS]
    | with_reducible refine ran_keepS _ _ ?_
    | split
    | with_reducible refine Eq.trans (keepS_foldl _ _ _ (fun _ _ => ?_)) ?_
    | with_reducible refine keepS_ite_eq ?_ ?_

theorem execReserveCharged_keepE (s : State) : Answers (execReserveCharged s) (fun t => keepE t = keepE s) := by
  unfold execReserveCharged
  repeat' first
    | with_reducible rfl
    | simp only [keepE_mk, keepE_times, keepE_foldl, apply_ite Prod.fst, apply_ite Prod.snd, ite_self, id_eq, implies_true, begin_keepE, wbPump_keepE, begin_keepE, sbStart_keepE]
    | with_reducible refine ran_keepE _ _ ?_
    | split
    | with_reducible refine Eq.trans (keepE_foldl _ _ _ (fun _ _ => ?_)) ?_
    | with_reducible refine keepE_ite_eq ?_ ?_

theorem execRefclkReturn_keepE (grp : Fin 2) (s : State) : Answers (execRefclkReturn grp s) (fun t => keepE t = keepE s) := by
  unfold execRefclkReturn
  repeat' first
    | with_reducible rfl
    | simp only [keepE_mk, keepE_times, keepE_foldl, apply_ite Prod.fst, apply_ite Prod.snd, ite_self, id_eq, implies_true, begin_keepE, trainLink_keepE, begin_keepE, setPort_keepE]
    | with_reducible refine ran_keepE _ _ ?_
    | split
    | with_reducible refine Eq.trans (keepE_foldl _ _ _ (fun _ _ => ?_)) ?_
    | with_reducible refine keepE_ite_eq ?_ ?_

theorem execWarmResetEnd_keepS (s : State) : Answers (execWarmResetEnd s) (fun t => keepS t = keepS s) := by
  unfold execWarmResetEnd
  extract_lets s1 s2
  have h1 : keepS s1 = keepS s := begin_keepS s
  clear_value s1
  have h2 : keepS s2 = keepS s := by
    simp only [s2]
    split
    · cases hq : selectFw s1 with
      | none => exact h1
      | some t => exact (selectFw_keepS _ _ hq).trans h1
    · exact h1
  clear_value s2
  split
  · exact ran_keepS _ _ h1
  · exact ran_keepS _ _ ((keepS_mk s2).trans h2)

theorem execTzqEnd_keepM (ch : Fin 32) (s : State) : Answers (execTzqEnd ch s) (fun t => keepM t = keepM s) := by
  unfold execTzqEnd
  repeat' first
    | with_reducible rfl
    | simp only [keepM_mk, keepM_times, keepM_foldl, apply_ite Prod.fst, apply_ite Prod.snd, ite_self, id_eq, implies_true, begin_keepM, sendPkt_keepM, setCart_keepM, trainTo_keepM, begin_keepM, setStack_keepM, drawBits_keepM, mediaNext_keepM]
    | with_reducible refine ran_keepM _ _ ?_
    | split
    | with_reducible refine Eq.trans (keepM_foldl _ _ _ (fun _ _ => ?_)) ?_
    | with_reducible refine keepM_ite_eq ?_ ?_

theorem execMediaPllLock_keepM (ch : Fin 32) (s : State) : Answers (execMediaPllLock ch s) (fun t => keepM t = keepM s) := by
  unfold execMediaPllLock
  repeat' first
    | with_reducible rfl
    | simp only [keepM_mk, keepM_times, keepM_foldl, apply_ite Prod.fst, apply_ite Prod.snd, ite_self, id_eq, implies_true, begin_keepM, setCart_keepM, begin_keepM, setStack_keepM, trainCa_keepM, mediaNext_keepM]
    | with_reducible refine ran_keepM _ _ ?_
    | split
    | with_reducible refine Eq.trans (keepM_foldl _ _ _ (fun _ _ => ?_)) ?_
    | with_reducible refine keepM_ite_eq ?_ ?_

theorem execUnknownMsg_keepM (slot : Fin 6) (target : Fin 32 ⊕ Fin 4) (msg : BitVec 16) (tag : BitVec 8) (s : State) : Answers (execUnknownMsg slot target msg tag s) (fun t => keepM t = keepM s) := by
  unfold execUnknownMsg
  repeat' first
    | with_reducible rfl
    | simp only [keepM_mk, keepM_times, keepM_foldl, apply_ite Prod.fst, apply_ite Prod.snd, ite_self, id_eq, implies_true, begin_keepM, qmbOffer_keepM, begin_keepM, qmbReply_keepM, cmbReply_keepM, cmbOffer_keepM]
    | with_reducible refine (mbAccess_keepM _ _ _ _ (fun _ => ?_)).trans ?_
    | with_reducible refine ran_keepM _ _ ?_
    | split
    | with_reducible refine Eq.trans (keepM_foldl _ _ _ (fun _ _ => ?_)) ?_
    | with_reducible refine keepM_ite_eq ?_ ?_

end Sys2Proof.Machine
end

