-- ==== Sys2Proof/Laws/Memory.lean ====
section
/-! SUPPORT. The Strongbox memory: every operation on its cells keeps the canonical form (`Memory.wf`), and the tables' read
laws. -/

-- One theorem at a time: many at once take more threads than the check's memory limit allows.
set_option Elab.async false

namespace Sys2Proof.Machine

/-- The canonical form as two plain facts: the keys rise, and no entry is the default. -/
theorem swf_iff {α : Type} [DecidableEq α] (d : α) (m : SMap α) :
    swf d m = true ↔ m.Pairwise (fun a b => a.1 < b.1) ∧ ∀ e ∈ m, e.2 ≠ d := by
  induction m with
  | nil => simp [swf]
  | cons e m ih =>
    cases m with
    | nil => obtain ⟨j, v⟩ := e; simp [swf]
    | cons e' m =>
      obtain ⟨j, v⟩ := e
      obtain ⟨k, w⟩ := e'
      simp only [swf, Bool.and_eq_true, ih, decide_eq_true_eq, Nat.blt_eq]
      constructor
      · rintro ⟨⟨hv, hjk⟩, hp, hn⟩
        refine ⟨List.pairwise_cons.2 ⟨fun e he => ?_, hp⟩, fun e he => ?_⟩
        · rcases List.mem_cons.1 he with rfl | he
          · exact hjk
          · exact lt_trans hjk ((List.pairwise_cons.1 hp).1 e he)
        · rcases List.mem_cons.1 he with rfl | he
          · exact hv
          · exact hn e he
      · rintro ⟨hp, hn⟩
        have hp' := List.pairwise_cons.1 hp
        exact ⟨⟨hn _ List.mem_cons_self, hp'.1 _ List.mem_cons_self⟩, hp'.2, fun e he => hn e (List.mem_cons_of_mem _ he)⟩

/-- The cells of some bytes lie at their addresses, rise, and hold no 0. -/
theorem asCells_mem {a : Nat} {bs : List Byte} {e : Host.Cell} (h : e ∈ asCells a bs) : a ≤ e.1 ∧ e.1 < a + bs.length ∧ e.2 ≠ 0 := by
  induction bs generalizing a with
  | nil => cases h
  | cons b bs ih =>
    unfold asCells at h
    split at h
    · have := ih h; simp only [List.length_cons]; exact ⟨by omega, by omega, this.2.2⟩
    · next hb =>
      rcases List.mem_cons.1 h with rfl | h
      · simp only [List.length_cons]; exact ⟨le_refl _, by omega, hb⟩
      · have := ih h; simp only [List.length_cons]; exact ⟨by omega, by omega, this.2.2⟩

theorem asCells_pairwise (a : Nat) (bs : List Byte) : (asCells a bs).Pairwise (fun x y => x.1 < y.1) := by
  induction bs generalizing a with
  | nil => exact List.Pairwise.nil
  | cons b bs ih =>
    unfold asCells
    split
    · exact ih _
    · exact List.pairwise_cons.2 ⟨fun e he => by have := asCells_mem he; omega, ih _⟩

theorem dropWhile_lt {m : List Host.Cell} (n : Nat) (h : m.Pairwise (fun x y => x.1 < y.1)) :
    ∀ e ∈ m.dropWhile (fun c => Nat.blt c.1 n), n ≤ e.1 := by
  induction m with
  | nil => intro e he; cases he
  | cons c m ih =>
    intro e he
    have hp := List.pairwise_cons.1 h
    by_cases hc : c.1 < n
    · rw [List.dropWhile_cons_of_pos (by simpa using hc)] at he
      exact ih hp.2 e he
    · rw [List.dropWhile_cons_of_neg (by simpa using hc)] at he
      rcases List.mem_cons.1 he with rfl | he
      · omega
      · have := hp.1 e he; omega

/-- Writing bytes keeps the canonical form. -/
theorem cellWrite_wf {m : List Host.Cell} (a : Nat) (bs : List Byte) (h : Memory.wf m = true) : Memory.wf (cellWrite m a bs) = true := by
  have h := (swf_iff _ _).1 h
  have ht : ∀ e ∈ m.takeWhile (fun c => Nat.blt c.1 a), e.1 < a := fun e he => by simpa using List.mem_takeWhile_imp he
  have hd := dropWhile_lt (a + bs.length) h.1
  refine (swf_iff _ _).2 ⟨?_, ?_⟩
  · refine List.pairwise_append.2 ⟨List.pairwise_append.2 ⟨h.1.sublist (List.takeWhile_sublist _), asCells_pairwise _ _, ?_⟩,
      h.1.sublist (List.dropWhile_sublist _), ?_⟩
    · intro x hx y hy
      have := ht x hx; have := asCells_mem hy; omega
    · intro x hx y hy
      have := hd y hy
      rcases List.mem_append.1 hx with hx | hx
      · have := ht x hx; omega
      · have := asCells_mem hx; omega
  · intro e he
    rcases List.mem_append.1 he with he | he
    · rcases List.mem_append.1 he with he | he
      · exact h.2 e ((List.takeWhile_sublist _).subset he)
      · exact (asCells_mem he).2.2
    · exact h.2 e ((List.dropWhile_sublist _).subset he)

/-- An update of a ring keeps the canonical form. -/
theorem ringUpdate_wf {m : List Host.Cell} (ty ix : Nat) (p : List Byte) (b : Bool) (h : Memory.wf m = true) :
    Memory.wf (ringUpdate m ty ix p b) = true := by
  unfold ringUpdate
  split
  · exact h
  · exact cellWrite_wf _ _ (cellWrite_wf _ _ h)

/-- One write of the Strongbox keeps the canonical form. -/
theorem sbApply_memoryOk {s : State} (r : SbReq) (h : memoryOk s) : memoryOk (sbApply s r) := by
  unfold sbApply
  split
  · exact ringUpdate_wf _ _ _ _ h
  · exact cellWrite_wf _ _ h
  · extract_lets rs hit s'
    show Memory.wf s'.sb.cells = true
    simp only [s']
    split
    · exact h
    · exact h

theorem sbAbandon_cells (s : State) (r : SbReq) : (sbAbandon s r).sb.cells = s.sb.cells := by
  unfold sbAbandon; split <;> rfl

theorem sbStartFrom_memoryOk (l : List SbReq) {s : State} (h : memoryOk s) : memoryOk (sbStartFrom l s) := by
  induction l generalizing s with
  | nil => exact h
  | cons r l ih =>
    unfold sbStartFrom
    split
    · exact sbApply_memoryOk r h
    · exact ih (show Memory.wf _ = true from (sbAbandon_cells s r).symm ▸ h)

theorem sbStart_memoryOk {s : State} (h : memoryOk s) : memoryOk (sbStart s) := by
  unfold sbStart; split
  · exact h
  · exact sbStartFrom_memoryOk _ h

/-- An internal write asked for, a finished write and a command's group of writes keep the canonical form. -/
theorem sbEnqueue_memoryOk {s : State} (r : SbReq) (h : memoryOk s) : memoryOk (sbEnqueue s r) := sbStart_memoryOk h

theorem sbEnd_memoryOk {s : State} (h : memoryOk s) : memoryOk (sbEnd s) := by
  unfold sbEnd; extract_lets s'; split <;> exact h

theorem sbGroup_memoryOk {s : State} (rs : List SbReq) (h : memoryOk s) : memoryOk (sbGroup s rs).2 := by
  have ha : ∀ (rs : List SbReq) (s : State), memoryOk s → memoryOk (rs.foldl sbApply s) := by
    intro rs
    induction rs with
    | nil => exact fun s h => h
    | cons r rs ih => exact fun s h => ih _ (sbApply_memoryOk r h)
  have hb : ∀ (rs : List SbReq) (s : State), memoryOk s → memoryOk (rs.foldl sbAbandon s) := by
    intro rs
    induction rs with
    | nil => exact fun s h => h
    | cons r rs ih => exact fun s h => ih _ (show Memory.wf _ = true from (sbAbandon_cells s r).symm ▸ h)
  have he := sbEnd_memoryOk h
  unfold sbGroup
  extract_lets s1
  split
  · exact sbStart_memoryOk he
  · split
    · exact sbStart_memoryOk (ha _ _ he)
    · exact sbStart_memoryOk (hb _ _ he)

/-! ## Reading a table after writing it -/

/-- A key put in a table reads as what was put. -/
theorem sfind_sput_self {α : Type} (m : SMap α) (k : Nat) (v : α) : sfind (sput m k v) k = some v := by
  induction m with
  | nil => simp [sput, sfind]
  | cons e m ih =>
    obtain ⟨j, w⟩ := e
    unfold sput
    split
    · simp [sfind]
    · split
      · simp [sfind]
      · next h1 h2 => simp [sfind, h1, ih]

theorem sget_sput_self {α : Type} (d : α) (m : SMap α) (k : Nat) (v : α) : sget d (sput m k v) k = v := by
  induction m with
  | nil => simp [sput, sget]
  | cons e m ih =>
    obtain ⟨j, w⟩ := e
    unfold sput
    split
    · simp [sget]
    · split
      · simp [sget]
      · next h1 h2 => simp [sget, h1, ih]

/-- Another key of the table reads as before. -/
theorem sget_sput_ne {α : Type} (d : α) (m : SMap α) {k k' : Nat} (v : α) (hk : k' ≠ k) : sget d (sput m k v) k' = sget d m k' := by
  induction m with
  | nil => simp [sput, sget, Ne.symm hk]
  | cons e m ih =>
    obtain ⟨j, w⟩ := e
    unfold sput
    split
    · next h1 => subst h1; simp [sget, Ne.symm hk]
    · split
      · simp [sget, Ne.symm hk]
      · simp only [sget, ih]

theorem sfind_sput_ne {α : Type} (m : SMap α) {k k' : Nat} (v : α) (hk : k' ≠ k) : sfind (sput m k v) k' = sfind m k' := by
  induction m with
  | nil => simp [sput, sfind, Ne.symm hk]
  | cons e m ih =>
    obtain ⟨j, w⟩ := e
    unfold sput
    split
    · next h1 => subst h1; simp [sfind, Ne.symm hk]
    · split
      · simp [sfind, Ne.symm hk]
      · simp only [sfind, ih]

/-- A key taken out of a table reads as the default, another one as before. -/
theorem sget_sdel_self {α : Type} (d : α) (m : SMap α) (k : Nat) : sget d (sdel m k) k = d := by
  induction m with
  | nil => rfl
  | cons e m ih =>
    obtain ⟨j, w⟩ := e
    unfold sdel
    split
    · exact ih
    · next h1 => simp [sget, h1, ih]

theorem sget_sdel_ne {α : Type} (d : α) (m : SMap α) {k k' : Nat} (hk : k' ≠ k) : sget d (sdel m k) k' = sget d m k' := by
  induction m with
  | nil => rfl
  | cons e m ih =>
    obtain ⟨j, w⟩ := e
    unfold sdel
    split
    · next h1 => subst h1; simp [sget, Ne.symm hk, ih]
    · simp only [sget, ih]

/-- A key changed in a table reads as the change of what it read as, another one as before. -/
theorem sget_sset_self {α : Type} [DecidableEq α] (d : α) (m : SMap α) (k : Nat) (v : α) : sget d (sset d m k v) k = v := by
  unfold sset
  split
  · next hd => rw [sget_sdel_self, hd]
  · exact sget_sput_self _ _ _ _

theorem sget_sset_ne {α : Type} [DecidableEq α] (d : α) (m : SMap α) {k k' : Nat} (v : α) (hk : k' ≠ k) :
    sget d (sset d m k v) k' = sget d m k' := by
  unfold sset
  split
  · exact sget_sdel_ne _ _ hk
  · exact sget_sput_ne _ _ _ hk

theorem sget_smod_self {α : Type} [DecidableEq α] (d : α) (m : SMap α) (k : Nat) (f : α → α) :
    sget d (smod d m k f) k = f (sget d m k) := sget_sset_self _ _ _ _

theorem sget_smod_ne {α : Type} [DecidableEq α] (d : α) (m : SMap α) {k k' : Nat} (f : α → α) (hk : k' ≠ k) :
    sget d (smod d m k f) k' = sget d m k' := sget_sset_ne _ _ _ hk

/-! ## Lists with one element changed -/

theorem lmod_length {α : Type} (l : List α) (n : Nat) (f : α → α) : (lmod l n f).length = l.length := by
  induction l generalizing n with
  | nil => cases n <;> rfl
  | cons a l ih => cases n <;> simp [lmod, ih]

/-- An element of the list reads as its change, another one as before. -/
theorem getD_lmod_self {α : Type} (d : α) (l : List α) {n : Nat} (f : α → α) (h : n < l.length) :
    (lmod l n f).getD n d = f (l.getD n d) := by
  induction l generalizing n with
  | nil => cases h
  | cons a l ih =>
    cases n with
    | zero => rfl
    | succ n => simpa [lmod] using ih (by simpa using h)

theorem getD_lmod_ne {α : Type} (d : α) (l : List α) {n k : Nat} (f : α → α) (h : k ≠ n) : (lmod l n f).getD k d = l.getD k d := by
  induction l generalizing n k with
  | nil => cases n <;> rfl
  | cons a l ih =>
    cases n with
    | zero => cases k with
      | zero => exact absurd rfl h
      | succ k => rfl
    | succ n => cases k with
      | zero => rfl
      | succ k => simpa [lmod] using ih (n := n) (k := k) (by omega)

/-- Element `k` of a list with element `n` changed. -/
theorem getElem?_lmod {α : Type} (l : List α) (n k : Nat) (f : α → α) :
    (lmod l n f)[k]? = if k = n then l[k]?.map f else l[k]? := by
  induction l generalizing n k with
  | nil => simp [lmod]
  | cons a l ih =>
    cases n with
    | zero => cases k <;> simp [lmod]
    | succ n => cases k <;> simp [lmod, ih]

end Sys2Proof.Machine
end

