-- ==== Sys2Proof/Laws/State.lean ====
section
/-! SUPPORT. One lemma for each section of the state and each named update that leaves it alone, and what the plain updates write: no proof
need unfold a record update. -/

namespace Sys2Proof.Machine

@[simp] theorem send_out (s : State) (o : Out) : (send s o).out = s.out ++ [o] := rfl
@[simp] theorem begin_out (s : State) : (begin s).out = [] := rfl
@[simp] theorem setPower_power (f : PowerSt → PowerSt) (s : State) : (setPower f s).power = f s.power := rfl
@[simp] theorem setSec_sec (f : SecSt → SecSt) (s : State) : (setSec f s).sec = f s.sec := rfl
@[simp] theorem setTherm_therm (f : ThermSt → ThermSt) (s : State) : (setTherm f s).therm = f s.therm := rfl

@[simp] theorem begin_pending (s : State) : (begin s).pending = s.pending := rfl
@[simp] theorem begin_free (s : State) : (begin s).free = s.free := rfl
@[simp] theorem begin_variant (s : State) : (begin s).variant = s.variant := rfl
@[simp] theorem begin_id (s : State) : (begin s).id = s.id := rfl
@[simp] theorem begin_time (s : State) : (begin s).time = s.time := rfl
@[simp] theorem begin_tt (s : State) : (begin s).tt = s.tt := rfl
@[simp] theorem begin_unit (s : State) : (begin s).unit = s.unit := rfl
@[simp] theorem begin_host (s : State) : (begin s).host = s.host := rfl
@[simp] theorem begin_cache (s : State) : (begin s).cache = s.cache := rfl
@[simp] theorem begin_rstat (s : State) : (begin s).rstat = s.rstat := rfl
@[simp] theorem begin_write (s : State) : (begin s).write = s.write := rfl
@[simp] theorem begin_xlat (s : State) : (begin s).xlat = s.xlat := rfl
@[simp] theorem begin_mm (s : State) : (begin s).mm = s.mm := rfl
@[simp] theorem begin_lp (s : State) : (begin s).lp = s.lp := rfl
@[simp] theorem begin_media (s : State) : (begin s).media = s.media := rfl
@[simp] theorem begin_span (s : State) : (begin s).span = s.span := rfl
@[simp] theorem begin_queue (s : State) : (begin s).queue = s.queue := rfl
@[simp] theorem begin_wb (s : State) : (begin s).wb = s.wb := rfl
@[simp] theorem begin_sb (s : State) : (begin s).sb = s.sb := rfl
@[simp] theorem begin_power (s : State) : (begin s).power = s.power := rfl
@[simp] theorem begin_therm (s : State) : (begin s).therm = s.therm := rfl
@[simp] theorem begin_start (s : State) : (begin s).start = s.start := rfl
@[simp] theorem begin_fw (s : State) : (begin s).fw = s.fw := rfl
@[simp] theorem begin_sec (s : State) : (begin s).sec = s.sec := rfl

@[simp] theorem send_pending (s : State) (o : Out) : (send s o).pending = s.pending := rfl
@[simp] theorem send_free (s : State) (o : Out) : (send s o).free = s.free := rfl
@[simp] theorem send_variant (s : State) (o : Out) : (send s o).variant = s.variant := rfl
@[simp] theorem send_id (s : State) (o : Out) : (send s o).id = s.id := rfl
@[simp] theorem send_time (s : State) (o : Out) : (send s o).time = s.time := rfl
@[simp] theorem send_tt (s : State) (o : Out) : (send s o).tt = s.tt := rfl
@[simp] theorem send_unit (s : State) (o : Out) : (send s o).unit = s.unit := rfl
@[simp] theorem send_host (s : State) (o : Out) : (send s o).host = s.host := rfl
@[simp] theorem send_cache (s : State) (o : Out) : (send s o).cache = s.cache := rfl
@[simp] theorem send_rstat (s : State) (o : Out) : (send s o).rstat = s.rstat := rfl
@[simp] theorem send_write (s : State) (o : Out) : (send s o).write = s.write := rfl
@[simp] theorem send_xlat (s : State) (o : Out) : (send s o).xlat = s.xlat := rfl
@[simp] theorem send_mm (s : State) (o : Out) : (send s o).mm = s.mm := rfl
@[simp] theorem send_lp (s : State) (o : Out) : (send s o).lp = s.lp := rfl
@[simp] theorem send_media (s : State) (o : Out) : (send s o).media = s.media := rfl
@[simp] theorem send_span (s : State) (o : Out) : (send s o).span = s.span := rfl
@[simp] theorem send_queue (s : State) (o : Out) : (send s o).queue = s.queue := rfl
@[simp] theorem send_wb (s : State) (o : Out) : (send s o).wb = s.wb := rfl
@[simp] theorem send_evt (s : State) (o : Out) : (send s o).evt = s.evt := rfl
@[simp] theorem send_sb (s : State) (o : Out) : (send s o).sb = s.sb := rfl
@[simp] theorem send_power (s : State) (o : Out) : (send s o).power = s.power := rfl
@[simp] theorem send_therm (s : State) (o : Out) : (send s o).therm = s.therm := rfl
@[simp] theorem send_start (s : State) (o : Out) : (send s o).start = s.start := rfl
@[simp] theorem send_fw (s : State) (o : Out) : (send s o).fw = s.fw := rfl
@[simp] theorem send_sec (s : State) (o : Out) : (send s o).sec = s.sec := rfl

@[simp] theorem setPort_pending (p : Nat) (f : Port → Port) (s : State) : (setPort p f s).pending = s.pending := rfl
@[simp] theorem setPort_out (p : Nat) (f : Port → Port) (s : State) : (setPort p f s).out = s.out := rfl
@[simp] theorem setPort_free (p : Nat) (f : Port → Port) (s : State) : (setPort p f s).free = s.free := rfl
@[simp] theorem setPort_variant (p : Nat) (f : Port → Port) (s : State) : (setPort p f s).variant = s.variant := rfl
@[simp] theorem setPort_id (p : Nat) (f : Port → Port) (s : State) : (setPort p f s).id = s.id := rfl
@[simp] theorem setPort_time (p : Nat) (f : Port → Port) (s : State) : (setPort p f s).time = s.time := rfl
@[simp] theorem setPort_tt (p : Nat) (f : Port → Port) (s : State) : (setPort p f s).tt = s.tt := rfl
@[simp] theorem setPort_unit (p : Nat) (f : Port → Port) (s : State) : (setPort p f s).unit = s.unit := rfl
@[simp] theorem setPort_cache (p : Nat) (f : Port → Port) (s : State) : (setPort p f s).cache = s.cache := rfl
@[simp] theorem setPort_rstat (p : Nat) (f : Port → Port) (s : State) : (setPort p f s).rstat = s.rstat := rfl
@[simp] theorem setPort_write (p : Nat) (f : Port → Port) (s : State) : (setPort p f s).write = s.write := rfl
@[simp] theorem setPort_xlat (p : Nat) (f : Port → Port) (s : State) : (setPort p f s).xlat = s.xlat := rfl
@[simp] theorem setPort_mm (p : Nat) (f : Port → Port) (s : State) : (setPort p f s).mm = s.mm := rfl
@[simp] theorem setPort_lp (p : Nat) (f : Port → Port) (s : State) : (setPort p f s).lp = s.lp := rfl
@[simp] theorem setPort_media (p : Nat) (f : Port → Port) (s : State) : (setPort p f s).media = s.media := rfl
@[simp] theorem setPort_span (p : Nat) (f : Port → Port) (s : State) : (setPort p f s).span = s.span := rfl
@[simp] theorem setPort_queue (p : Nat) (f : Port → Port) (s : State) : (setPort p f s).queue = s.queue := rfl
@[simp] theorem setPort_wb (p : Nat) (f : Port → Port) (s : State) : (setPort p f s).wb = s.wb := rfl
@[simp] theorem setPort_evt (p : Nat) (f : Port → Port) (s : State) : (setPort p f s).evt = s.evt := rfl
@[simp] theorem setPort_sb (p : Nat) (f : Port → Port) (s : State) : (setPort p f s).sb = s.sb := rfl
@[simp] theorem setPort_power (p : Nat) (f : Port → Port) (s : State) : (setPort p f s).power = s.power := rfl
@[simp] theorem setPort_therm (p : Nat) (f : Port → Port) (s : State) : (setPort p f s).therm = s.therm := rfl
@[simp] theorem setPort_start (p : Nat) (f : Port → Port) (s : State) : (setPort p f s).start = s.start := rfl
@[simp] theorem setPort_fw (p : Nat) (f : Port → Port) (s : State) : (setPort p f s).fw = s.fw := rfl
@[simp] theorem setPort_sec (p : Nat) (f : Port → Port) (s : State) : (setPort p f s).sec = s.sec := rfl

@[simp] theorem setLd_pending (i : Nat) (f : Ld → Ld) (s : State) : (setLd i f s).pending = s.pending := rfl
@[simp] theorem setLd_out (i : Nat) (f : Ld → Ld) (s : State) : (setLd i f s).out = s.out := rfl
@[simp] theorem setLd_free (i : Nat) (f : Ld → Ld) (s : State) : (setLd i f s).free = s.free := rfl
@[simp] theorem setLd_variant (i : Nat) (f : Ld → Ld) (s : State) : (setLd i f s).variant = s.variant := rfl
@[simp] theorem setLd_id (i : Nat) (f : Ld → Ld) (s : State) : (setLd i f s).id = s.id := rfl
@[simp] theorem setLd_time (i : Nat) (f : Ld → Ld) (s : State) : (setLd i f s).time = s.time := rfl
@[simp] theorem setLd_tt (i : Nat) (f : Ld → Ld) (s : State) : (setLd i f s).tt = s.tt := rfl
@[simp] theorem setLd_unit (i : Nat) (f : Ld → Ld) (s : State) : (setLd i f s).unit = s.unit := rfl
@[simp] theorem setLd_cache (i : Nat) (f : Ld → Ld) (s : State) : (setLd i f s).cache = s.cache := rfl
@[simp] theorem setLd_rstat (i : Nat) (f : Ld → Ld) (s : State) : (setLd i f s).rstat = s.rstat := rfl
@[simp] theorem setLd_write (i : Nat) (f : Ld → Ld) (s : State) : (setLd i f s).write = s.write := rfl
@[simp] theorem setLd_xlat (i : Nat) (f : Ld → Ld) (s : State) : (setLd i f s).xlat = s.xlat := rfl
@[simp] theorem setLd_mm (i : Nat) (f : Ld → Ld) (s : State) : (setLd i f s).mm = s.mm := rfl
@[simp] theorem setLd_lp (i : Nat) (f : Ld → Ld) (s : State) : (setLd i f s).lp = s.lp := rfl
@[simp] theorem setLd_media (i : Nat) (f : Ld → Ld) (s : State) : (setLd i f s).media = s.media := rfl
@[simp] theorem setLd_span (i : Nat) (f : Ld → Ld) (s : State) : (setLd i f s).span = s.span := rfl
@[simp] theorem setLd_queue (i : Nat) (f : Ld → Ld) (s : State) : (setLd i f s).queue = s.queue := rfl
@[simp] theorem setLd_wb (i : Nat) (f : Ld → Ld) (s : State) : (setLd i f s).wb = s.wb := rfl
@[simp] theorem setLd_evt (i : Nat) (f : Ld → Ld) (s : State) : (setLd i f s).evt = s.evt := rfl
@[simp] theorem setLd_sb (i : Nat) (f : Ld → Ld) (s : State) : (setLd i f s).sb = s.sb := rfl
@[simp] theorem setLd_power (i : Nat) (f : Ld → Ld) (s : State) : (setLd i f s).power = s.power := rfl
@[simp] theorem setLd_therm (i : Nat) (f : Ld → Ld) (s : State) : (setLd i f s).therm = s.therm := rfl
@[simp] theorem setLd_start (i : Nat) (f : Ld → Ld) (s : State) : (setLd i f s).start = s.start := rfl
@[simp] theorem setLd_fw (i : Nat) (f : Ld → Ld) (s : State) : (setLd i f s).fw = s.fw := rfl
@[simp] theorem setLd_sec (i : Nat) (f : Ld → Ld) (s : State) : (setLd i f s).sec = s.sec := rfl

@[simp] theorem setCart_pending (ch : Nat) (f : Carter → Carter) (s : State) : (setCart ch f s).pending = s.pending := rfl
@[simp] theorem setCart_out (ch : Nat) (f : Carter → Carter) (s : State) : (setCart ch f s).out = s.out := rfl
@[simp] theorem setCart_free (ch : Nat) (f : Carter → Carter) (s : State) : (setCart ch f s).free = s.free := rfl
@[simp] theorem setCart_variant (ch : Nat) (f : Carter → Carter) (s : State) : (setCart ch f s).variant = s.variant := rfl
@[simp] theorem setCart_id (ch : Nat) (f : Carter → Carter) (s : State) : (setCart ch f s).id = s.id := rfl
@[simp] theorem setCart_time (ch : Nat) (f : Carter → Carter) (s : State) : (setCart ch f s).time = s.time := rfl
@[simp] theorem setCart_tt (ch : Nat) (f : Carter → Carter) (s : State) : (setCart ch f s).tt = s.tt := rfl
@[simp] theorem setCart_unit (ch : Nat) (f : Carter → Carter) (s : State) : (setCart ch f s).unit = s.unit := rfl
@[simp] theorem setCart_host (ch : Nat) (f : Carter → Carter) (s : State) : (setCart ch f s).host = s.host := rfl
@[simp] theorem setCart_cache (ch : Nat) (f : Carter → Carter) (s : State) : (setCart ch f s).cache = s.cache := rfl
@[simp] theorem setCart_rstat (ch : Nat) (f : Carter → Carter) (s : State) : (setCart ch f s).rstat = s.rstat := rfl
@[simp] theorem setCart_write (ch : Nat) (f : Carter → Carter) (s : State) : (setCart ch f s).write = s.write := rfl
@[simp] theorem setCart_xlat (ch : Nat) (f : Carter → Carter) (s : State) : (setCart ch f s).xlat = s.xlat := rfl
@[simp] theorem setCart_mm (ch : Nat) (f : Carter → Carter) (s : State) : (setCart ch f s).mm = s.mm := rfl
@[simp] theorem setCart_lp (ch : Nat) (f : Carter → Carter) (s : State) : (setCart ch f s).lp = s.lp := rfl
@[simp] theorem setCart_span (ch : Nat) (f : Carter → Carter) (s : State) : (setCart ch f s).span = s.span := rfl
@[simp] theorem setCart_queue (ch : Nat) (f : Carter → Carter) (s : State) : (setCart ch f s).queue = s.queue := rfl
@[simp] theorem setCart_wb (ch : Nat) (f : Carter → Carter) (s : State) : (setCart ch f s).wb = s.wb := rfl
@[simp] theorem setCart_evt (ch : Nat) (f : Carter → Carter) (s : State) : (setCart ch f s).evt = s.evt := rfl
@[simp] theorem setCart_sb (ch : Nat) (f : Carter → Carter) (s : State) : (setCart ch f s).sb = s.sb := rfl
@[simp] theorem setCart_power (ch : Nat) (f : Carter → Carter) (s : State) : (setCart ch f s).power = s.power := rfl
@[simp] theorem setCart_therm (ch : Nat) (f : Carter → Carter) (s : State) : (setCart ch f s).therm = s.therm := rfl
@[simp] theorem setCart_start (ch : Nat) (f : Carter → Carter) (s : State) : (setCart ch f s).start = s.start := rfl
@[simp] theorem setCart_fw (ch : Nat) (f : Carter → Carter) (s : State) : (setCart ch f s).fw = s.fw := rfl
@[simp] theorem setCart_sec (ch : Nat) (f : Carter → Carter) (s : State) : (setCart ch f s).sec = s.sec := rfl

@[simp] theorem setBand_pending (b : Nat) (f : Band → Band) (s : State) : (setBand b f s).pending = s.pending := rfl
@[simp] theorem setBand_out (b : Nat) (f : Band → Band) (s : State) : (setBand b f s).out = s.out := rfl
@[simp] theorem setBand_free (b : Nat) (f : Band → Band) (s : State) : (setBand b f s).free = s.free := rfl
@[simp] theorem setBand_variant (b : Nat) (f : Band → Band) (s : State) : (setBand b f s).variant = s.variant := rfl
@[simp] theorem setBand_id (b : Nat) (f : Band → Band) (s : State) : (setBand b f s).id = s.id := rfl
@[simp] theorem setBand_time (b : Nat) (f : Band → Band) (s : State) : (setBand b f s).time = s.time := rfl
@[simp] theorem setBand_tt (b : Nat) (f : Band → Band) (s : State) : (setBand b f s).tt = s.tt := rfl
@[simp] theorem setBand_unit (b : Nat) (f : Band → Band) (s : State) : (setBand b f s).unit = s.unit := rfl
@[simp] theorem setBand_host (b : Nat) (f : Band → Band) (s : State) : (setBand b f s).host = s.host := rfl
@[simp] theorem setBand_cache (b : Nat) (f : Band → Band) (s : State) : (setBand b f s).cache = s.cache := rfl
@[simp] theorem setBand_rstat (b : Nat) (f : Band → Band) (s : State) : (setBand b f s).rstat = s.rstat := rfl
@[simp] theorem setBand_write (b : Nat) (f : Band → Band) (s : State) : (setBand b f s).write = s.write := rfl
@[simp] theorem setBand_xlat (b : Nat) (f : Band → Band) (s : State) : (setBand b f s).xlat = s.xlat := rfl
@[simp] theorem setBand_lp (b : Nat) (f : Band → Band) (s : State) : (setBand b f s).lp = s.lp := rfl
@[simp] theorem setBand_media (b : Nat) (f : Band → Band) (s : State) : (setBand b f s).media = s.media := rfl
@[simp] theorem setBand_span (b : Nat) (f : Band → Band) (s : State) : (setBand b f s).span = s.span := rfl
@[simp] theorem setBand_queue (b : Nat) (f : Band → Band) (s : State) : (setBand b f s).queue = s.queue := rfl
@[simp] theorem setBand_wb (b : Nat) (f : Band → Band) (s : State) : (setBand b f s).wb = s.wb := rfl
@[simp] theorem setBand_evt (b : Nat) (f : Band → Band) (s : State) : (setBand b f s).evt = s.evt := rfl
@[simp] theorem setBand_sb (b : Nat) (f : Band → Band) (s : State) : (setBand b f s).sb = s.sb := rfl
@[simp] theorem setBand_power (b : Nat) (f : Band → Band) (s : State) : (setBand b f s).power = s.power := rfl
@[simp] theorem setBand_therm (b : Nat) (f : Band → Band) (s : State) : (setBand b f s).therm = s.therm := rfl
@[simp] theorem setBand_start (b : Nat) (f : Band → Band) (s : State) : (setBand b f s).start = s.start := rfl
@[simp] theorem setBand_fw (b : Nat) (f : Band → Band) (s : State) : (setBand b f s).fw = s.fw := rfl
@[simp] theorem setBand_sec (b : Nat) (f : Band → Band) (s : State) : (setBand b f s).sec = s.sec := rfl

@[simp] theorem setCmb_pending (slot ch : Nat) (f : Cmb → Cmb) (s : State) : (setCmb slot ch f s).pending = s.pending := rfl
@[simp] theorem setCmb_out (slot ch : Nat) (f : Cmb → Cmb) (s : State) : (setCmb slot ch f s).out = s.out := rfl
@[simp] theorem setCmb_free (slot ch : Nat) (f : Cmb → Cmb) (s : State) : (setCmb slot ch f s).free = s.free := rfl
@[simp] theorem setCmb_variant (slot ch : Nat) (f : Cmb → Cmb) (s : State) : (setCmb slot ch f s).variant = s.variant := rfl
@[simp] theorem setCmb_id (slot ch : Nat) (f : Cmb → Cmb) (s : State) : (setCmb slot ch f s).id = s.id := rfl
@[simp] theorem setCmb_time (slot ch : Nat) (f : Cmb → Cmb) (s : State) : (setCmb slot ch f s).time = s.time := rfl
@[simp] theorem setCmb_tt (slot ch : Nat) (f : Cmb → Cmb) (s : State) : (setCmb slot ch f s).tt = s.tt := rfl
@[simp] theorem setCmb_host (slot ch : Nat) (f : Cmb → Cmb) (s : State) : (setCmb slot ch f s).host = s.host := rfl
@[simp] theorem setCmb_cache (slot ch : Nat) (f : Cmb → Cmb) (s : State) : (setCmb slot ch f s).cache = s.cache := rfl
@[simp] theorem setCmb_rstat (slot ch : Nat) (f : Cmb → Cmb) (s : State) : (setCmb slot ch f s).rstat = s.rstat := rfl
@[simp] theorem setCmb_write (slot ch : Nat) (f : Cmb → Cmb) (s : State) : (setCmb slot ch f s).write = s.write := rfl
@[simp] theorem setCmb_xlat (slot ch : Nat) (f : Cmb → Cmb) (s : State) : (setCmb slot ch f s).xlat = s.xlat := rfl
@[simp] theorem setCmb_mm (slot ch : Nat) (f : Cmb → Cmb) (s : State) : (setCmb slot ch f s).mm = s.mm := rfl
@[simp] theorem setCmb_lp (slot ch : Nat) (f : Cmb → Cmb) (s : State) : (setCmb slot ch f s).lp = s.lp := rfl
@[simp] theorem setCmb_media (slot ch : Nat) (f : Cmb → Cmb) (s : State) : (setCmb slot ch f s).media = s.media := rfl
@[simp] theorem setCmb_span (slot ch : Nat) (f : Cmb → Cmb) (s : State) : (setCmb slot ch f s).span = s.span := rfl
@[simp] theorem setCmb_queue (slot ch : Nat) (f : Cmb → Cmb) (s : State) : (setCmb slot ch f s).queue = s.queue := rfl
@[simp] theorem setCmb_wb (slot ch : Nat) (f : Cmb → Cmb) (s : State) : (setCmb slot ch f s).wb = s.wb := rfl
@[simp] theorem setCmb_evt (slot ch : Nat) (f : Cmb → Cmb) (s : State) : (setCmb slot ch f s).evt = s.evt := rfl
@[simp] theorem setCmb_sb (slot ch : Nat) (f : Cmb → Cmb) (s : State) : (setCmb slot ch f s).sb = s.sb := rfl
@[simp] theorem setCmb_power (slot ch : Nat) (f : Cmb → Cmb) (s : State) : (setCmb slot ch f s).power = s.power := rfl
@[simp] theorem setCmb_therm (slot ch : Nat) (f : Cmb → Cmb) (s : State) : (setCmb slot ch f s).therm = s.therm := rfl
@[simp] theorem setCmb_start (slot ch : Nat) (f : Cmb → Cmb) (s : State) : (setCmb slot ch f s).start = s.start := rfl
@[simp] theorem setCmb_fw (slot ch : Nat) (f : Cmb → Cmb) (s : State) : (setCmb slot ch f s).fw = s.fw := rfl
@[simp] theorem setCmb_sec (slot ch : Nat) (f : Cmb → Cmb) (s : State) : (setCmb slot ch f s).sec = s.sec := rfl

@[simp] theorem setQmb_pending (slot q : Nat) (f : Qmb → Qmb) (s : State) : (setQmb slot q f s).pending = s.pending := rfl
@[simp] theorem setQmb_out (slot q : Nat) (f : Qmb → Qmb) (s : State) : (setQmb slot q f s).out = s.out := rfl
@[simp] theorem setQmb_free (slot q : Nat) (f : Qmb → Qmb) (s : State) : (setQmb slot q f s).free = s.free := rfl
@[simp] theorem setQmb_variant (slot q : Nat) (f : Qmb → Qmb) (s : State) : (setQmb slot q f s).variant = s.variant := rfl
@[simp] theorem setQmb_id (slot q : Nat) (f : Qmb → Qmb) (s : State) : (setQmb slot q f s).id = s.id := rfl
@[simp] theorem setQmb_time (slot q : Nat) (f : Qmb → Qmb) (s : State) : (setQmb slot q f s).time = s.time := rfl
@[simp] theorem setQmb_tt (slot q : Nat) (f : Qmb → Qmb) (s : State) : (setQmb slot q f s).tt = s.tt := rfl
@[simp] theorem setQmb_host (slot q : Nat) (f : Qmb → Qmb) (s : State) : (setQmb slot q f s).host = s.host := rfl
@[simp] theorem setQmb_cache (slot q : Nat) (f : Qmb → Qmb) (s : State) : (setQmb slot q f s).cache = s.cache := rfl
@[simp] theorem setQmb_rstat (slot q : Nat) (f : Qmb → Qmb) (s : State) : (setQmb slot q f s).rstat = s.rstat := rfl
@[simp] theorem setQmb_write (slot q : Nat) (f : Qmb → Qmb) (s : State) : (setQmb slot q f s).write = s.write := rfl
@[simp] theorem setQmb_xlat (slot q : Nat) (f : Qmb → Qmb) (s : State) : (setQmb slot q f s).xlat = s.xlat := rfl
@[simp] theorem setQmb_mm (slot q : Nat) (f : Qmb → Qmb) (s : State) : (setQmb slot q f s).mm = s.mm := rfl
@[simp] theorem setQmb_lp (slot q : Nat) (f : Qmb → Qmb) (s : State) : (setQmb slot q f s).lp = s.lp := rfl
@[simp] theorem setQmb_media (slot q : Nat) (f : Qmb → Qmb) (s : State) : (setQmb slot q f s).media = s.media := rfl
@[simp] theorem setQmb_span (slot q : Nat) (f : Qmb → Qmb) (s : State) : (setQmb slot q f s).span = s.span := rfl
@[simp] theorem setQmb_queue (slot q : Nat) (f : Qmb → Qmb) (s : State) : (setQmb slot q f s).queue = s.queue := rfl
@[simp] theorem setQmb_wb (slot q : Nat) (f : Qmb → Qmb) (s : State) : (setQmb slot q f s).wb = s.wb := rfl
@[simp] theorem setQmb_evt (slot q : Nat) (f : Qmb → Qmb) (s : State) : (setQmb slot q f s).evt = s.evt := rfl
@[simp] theorem setQmb_sb (slot q : Nat) (f : Qmb → Qmb) (s : State) : (setQmb slot q f s).sb = s.sb := rfl
@[simp] theorem setQmb_power (slot q : Nat) (f : Qmb → Qmb) (s : State) : (setQmb slot q f s).power = s.power := rfl
@[simp] theorem setQmb_therm (slot q : Nat) (f : Qmb → Qmb) (s : State) : (setQmb slot q f s).therm = s.therm := rfl
@[simp] theorem setQmb_start (slot q : Nat) (f : Qmb → Qmb) (s : State) : (setQmb slot q f s).start = s.start := rfl
@[simp] theorem setQmb_fw (slot q : Nat) (f : Qmb → Qmb) (s : State) : (setQmb slot q f s).fw = s.fw := rfl
@[simp] theorem setQmb_sec (slot q : Nat) (f : Qmb → Qmb) (s : State) : (setQmb slot q f s).sec = s.sec := rfl

@[simp] theorem setStack_pending (ch : Nat) (f : Stack → Stack) (s : State) : (setStack ch f s).pending = s.pending := rfl
@[simp] theorem setStack_out (ch : Nat) (f : Stack → Stack) (s : State) : (setStack ch f s).out = s.out := rfl
@[simp] theorem setStack_free (ch : Nat) (f : Stack → Stack) (s : State) : (setStack ch f s).free = s.free := rfl
@[simp] theorem setStack_variant (ch : Nat) (f : Stack → Stack) (s : State) : (setStack ch f s).variant = s.variant := rfl
@[simp] theorem setStack_id (ch : Nat) (f : Stack → Stack) (s : State) : (setStack ch f s).id = s.id := rfl
@[simp] theorem setStack_time (ch : Nat) (f : Stack → Stack) (s : State) : (setStack ch f s).time = s.time := rfl
@[simp] theorem setStack_tt (ch : Nat) (f : Stack → Stack) (s : State) : (setStack ch f s).tt = s.tt := rfl
@[simp] theorem setStack_unit (ch : Nat) (f : Stack → Stack) (s : State) : (setStack ch f s).unit = s.unit := rfl
@[simp] theorem setStack_host (ch : Nat) (f : Stack → Stack) (s : State) : (setStack ch f s).host = s.host := rfl
@[simp] theorem setStack_cache (ch : Nat) (f : Stack → Stack) (s : State) : (setStack ch f s).cache = s.cache := rfl
@[simp] theorem setStack_rstat (ch : Nat) (f : Stack → Stack) (s : State) : (setStack ch f s).rstat = s.rstat := rfl
@[simp] theorem setStack_write (ch : Nat) (f : Stack → Stack) (s : State) : (setStack ch f s).write = s.write := rfl
@[simp] theorem setStack_xlat (ch : Nat) (f : Stack → Stack) (s : State) : (setStack ch f s).xlat = s.xlat := rfl
@[simp] theorem setStack_mm (ch : Nat) (f : Stack → Stack) (s : State) : (setStack ch f s).mm = s.mm := rfl
@[simp] theorem setStack_lp (ch : Nat) (f : Stack → Stack) (s : State) : (setStack ch f s).lp = s.lp := rfl
@[simp] theorem setStack_span (ch : Nat) (f : Stack → Stack) (s : State) : (setStack ch f s).span = s.span := rfl
@[simp] theorem setStack_queue (ch : Nat) (f : Stack → Stack) (s : State) : (setStack ch f s).queue = s.queue := rfl
@[simp] theorem setStack_wb (ch : Nat) (f : Stack → Stack) (s : State) : (setStack ch f s).wb = s.wb := rfl
@[simp] theorem setStack_evt (ch : Nat) (f : Stack → Stack) (s : State) : (setStack ch f s).evt = s.evt := rfl
@[simp] theorem setStack_sb (ch : Nat) (f : Stack → Stack) (s : State) : (setStack ch f s).sb = s.sb := rfl
@[simp] theorem setStack_power (ch : Nat) (f : Stack → Stack) (s : State) : (setStack ch f s).power = s.power := rfl
@[simp] theorem setStack_therm (ch : Nat) (f : Stack → Stack) (s : State) : (setStack ch f s).therm = s.therm := rfl
@[simp] theorem setStack_start (ch : Nat) (f : Stack → Stack) (s : State) : (setStack ch f s).start = s.start := rfl
@[simp] theorem setStack_fw (ch : Nat) (f : Stack → Stack) (s : State) : (setStack ch f s).fw = s.fw := rfl
@[simp] theorem setStack_sec (ch : Nat) (f : Stack → Stack) (s : State) : (setStack ch f s).sec = s.sec := rfl

@[simp] theorem setBank_pending (k : Nat) (f : BankSt → BankSt) (s : State) : (setBank k f s).pending = s.pending := rfl
@[simp] theorem setBank_out (k : Nat) (f : BankSt → BankSt) (s : State) : (setBank k f s).out = s.out := rfl
@[simp] theorem setBank_free (k : Nat) (f : BankSt → BankSt) (s : State) : (setBank k f s).free = s.free := rfl
@[simp] theorem setBank_variant (k : Nat) (f : BankSt → BankSt) (s : State) : (setBank k f s).variant = s.variant := rfl
@[simp] theorem setBank_id (k : Nat) (f : BankSt → BankSt) (s : State) : (setBank k f s).id = s.id := rfl
@[simp] theorem setBank_time (k : Nat) (f : BankSt → BankSt) (s : State) : (setBank k f s).time = s.time := rfl
@[simp] theorem setBank_tt (k : Nat) (f : BankSt → BankSt) (s : State) : (setBank k f s).tt = s.tt := rfl
@[simp] theorem setBank_unit (k : Nat) (f : BankSt → BankSt) (s : State) : (setBank k f s).unit = s.unit := rfl
@[simp] theorem setBank_host (k : Nat) (f : BankSt → BankSt) (s : State) : (setBank k f s).host = s.host := rfl
@[simp] theorem setBank_cache (k : Nat) (f : BankSt → BankSt) (s : State) : (setBank k f s).cache = s.cache := rfl
@[simp] theorem setBank_rstat (k : Nat) (f : BankSt → BankSt) (s : State) : (setBank k f s).rstat = s.rstat := rfl
@[simp] theorem setBank_write (k : Nat) (f : BankSt → BankSt) (s : State) : (setBank k f s).write = s.write := rfl
@[simp] theorem setBank_xlat (k : Nat) (f : BankSt → BankSt) (s : State) : (setBank k f s).xlat = s.xlat := rfl
@[simp] theorem setBank_mm (k : Nat) (f : BankSt → BankSt) (s : State) : (setBank k f s).mm = s.mm := rfl
@[simp] theorem setBank_lp (k : Nat) (f : BankSt → BankSt) (s : State) : (setBank k f s).lp = s.lp := rfl
@[simp] theorem setBank_span (k : Nat) (f : BankSt → BankSt) (s : State) : (setBank k f s).span = s.span := rfl
@[simp] theorem setBank_queue (k : Nat) (f : BankSt → BankSt) (s : State) : (setBank k f s).queue = s.queue := rfl
@[simp] theorem setBank_wb (k : Nat) (f : BankSt → BankSt) (s : State) : (setBank k f s).wb = s.wb := rfl
@[simp] theorem setBank_evt (k : Nat) (f : BankSt → BankSt) (s : State) : (setBank k f s).evt = s.evt := rfl
@[simp] theorem setBank_sb (k : Nat) (f : BankSt → BankSt) (s : State) : (setBank k f s).sb = s.sb := rfl
@[simp] theorem setBank_power (k : Nat) (f : BankSt → BankSt) (s : State) : (setBank k f s).power = s.power := rfl
@[simp] theorem setBank_therm (k : Nat) (f : BankSt → BankSt) (s : State) : (setBank k f s).therm = s.therm := rfl
@[simp] theorem setBank_start (k : Nat) (f : BankSt → BankSt) (s : State) : (setBank k f s).start = s.start := rfl
@[simp] theorem setBank_fw (k : Nat) (f : BankSt → BankSt) (s : State) : (setBank k f s).fw = s.fw := rfl
@[simp] theorem setBank_sec (k : Nat) (f : BankSt → BankSt) (s : State) : (setBank k f s).sec = s.sec := rfl

@[simp] theorem setStamp_pending (b : Nat) (f : Stamp → Stamp) (s : State) : (setStamp b f s).pending = s.pending := rfl
@[simp] theorem setStamp_out (b : Nat) (f : Stamp → Stamp) (s : State) : (setStamp b f s).out = s.out := rfl
@[simp] theorem setStamp_free (b : Nat) (f : Stamp → Stamp) (s : State) : (setStamp b f s).free = s.free := rfl
@[simp] theorem setStamp_variant (b : Nat) (f : Stamp → Stamp) (s : State) : (setStamp b f s).variant = s.variant := rfl
@[simp] theorem setStamp_id (b : Nat) (f : Stamp → Stamp) (s : State) : (setStamp b f s).id = s.id := rfl
@[simp] theorem setStamp_time (b : Nat) (f : Stamp → Stamp) (s : State) : (setStamp b f s).time = s.time := rfl
@[simp] theorem setStamp_tt (b : Nat) (f : Stamp → Stamp) (s : State) : (setStamp b f s).tt = s.tt := rfl
@[simp] theorem setStamp_unit (b : Nat) (f : Stamp → Stamp) (s : State) : (setStamp b f s).unit = s.unit := rfl
@[simp] theorem setStamp_host (b : Nat) (f : Stamp → Stamp) (s : State) : (setStamp b f s).host = s.host := rfl
@[simp] theorem setStamp_cache (b : Nat) (f : Stamp → Stamp) (s : State) : (setStamp b f s).cache = s.cache := rfl
@[simp] theorem setStamp_rstat (b : Nat) (f : Stamp → Stamp) (s : State) : (setStamp b f s).rstat = s.rstat := rfl
@[simp] theorem setStamp_write (b : Nat) (f : Stamp → Stamp) (s : State) : (setStamp b f s).write = s.write := rfl
@[simp] theorem setStamp_xlat (b : Nat) (f : Stamp → Stamp) (s : State) : (setStamp b f s).xlat = s.xlat := rfl
@[simp] theorem setStamp_mm (b : Nat) (f : Stamp → Stamp) (s : State) : (setStamp b f s).mm = s.mm := rfl
@[simp] theorem setStamp_lp (b : Nat) (f : Stamp → Stamp) (s : State) : (setStamp b f s).lp = s.lp := rfl
@[simp] theorem setStamp_span (b : Nat) (f : Stamp → Stamp) (s : State) : (setStamp b f s).span = s.span := rfl
@[simp] theorem setStamp_queue (b : Nat) (f : Stamp → Stamp) (s : State) : (setStamp b f s).queue = s.queue := rfl
@[simp] theorem setStamp_wb (b : Nat) (f : Stamp → Stamp) (s : State) : (setStamp b f s).wb = s.wb := rfl
@[simp] theorem setStamp_evt (b : Nat) (f : Stamp → Stamp) (s : State) : (setStamp b f s).evt = s.evt := rfl
@[simp] theorem setStamp_sb (b : Nat) (f : Stamp → Stamp) (s : State) : (setStamp b f s).sb = s.sb := rfl
@[simp] theorem setStamp_power (b : Nat) (f : Stamp → Stamp) (s : State) : (setStamp b f s).power = s.power := rfl
@[simp] theorem setStamp_therm (b : Nat) (f : Stamp → Stamp) (s : State) : (setStamp b f s).therm = s.therm := rfl
@[simp] theorem setStamp_start (b : Nat) (f : Stamp → Stamp) (s : State) : (setStamp b f s).start = s.start := rfl
@[simp] theorem setStamp_fw (b : Nat) (f : Stamp → Stamp) (s : State) : (setStamp b f s).fw = s.fw := rfl
@[simp] theorem setStamp_sec (b : Nat) (f : Stamp → Stamp) (s : State) : (setStamp b f s).sec = s.sec := rfl

@[simp] theorem setPower_pending (f : PowerSt → PowerSt) (s : State) : (setPower f s).pending = s.pending := rfl
@[simp] theorem setPower_out (f : PowerSt → PowerSt) (s : State) : (setPower f s).out = s.out := rfl
@[simp] theorem setPower_free (f : PowerSt → PowerSt) (s : State) : (setPower f s).free = s.free := rfl
@[simp] theorem setPower_variant (f : PowerSt → PowerSt) (s : State) : (setPower f s).variant = s.variant := rfl
@[simp] theorem setPower_id (f : PowerSt → PowerSt) (s : State) : (setPower f s).id = s.id := rfl
@[simp] theorem setPower_time (f : PowerSt → PowerSt) (s : State) : (setPower f s).time = s.time := rfl
@[simp] theorem setPower_tt (f : PowerSt → PowerSt) (s : State) : (setPower f s).tt = s.tt := rfl
@[simp] theorem setPower_unit (f : PowerSt → PowerSt) (s : State) : (setPower f s).unit = s.unit := rfl
@[simp] theorem setPower_host (f : PowerSt → PowerSt) (s : State) : (setPower f s).host = s.host := rfl
@[simp] theorem setPower_cache (f : PowerSt → PowerSt) (s : State) : (setPower f s).cache = s.cache := rfl
@[simp] theorem setPower_rstat (f : PowerSt → PowerSt) (s : State) : (setPower f s).rstat = s.rstat := rfl
@[simp] theorem setPower_write (f : PowerSt → PowerSt) (s : State) : (setPower f s).write = s.write := rfl
@[simp] theorem setPower_xlat (f : PowerSt → PowerSt) (s : State) : (setPower f s).xlat = s.xlat := rfl
@[simp] theorem setPower_mm (f : PowerSt → PowerSt) (s : State) : (setPower f s).mm = s.mm := rfl
@[simp] theorem setPower_lp (f : PowerSt → PowerSt) (s : State) : (setPower f s).lp = s.lp := rfl
@[simp] theorem setPower_media (f : PowerSt → PowerSt) (s : State) : (setPower f s).media = s.media := rfl
@[simp] theorem setPower_span (f : PowerSt → PowerSt) (s : State) : (setPower f s).span = s.span := rfl
@[simp] theorem setPower_queue (f : PowerSt → PowerSt) (s : State) : (setPower f s).queue = s.queue := rfl
@[simp] theorem setPower_wb (f : PowerSt → PowerSt) (s : State) : (setPower f s).wb = s.wb := rfl
@[simp] theorem setPower_evt (f : PowerSt → PowerSt) (s : State) : (setPower f s).evt = s.evt := rfl
@[simp] theorem setPower_sb (f : PowerSt → PowerSt) (s : State) : (setPower f s).sb = s.sb := rfl
@[simp] theorem setPower_therm (f : PowerSt → PowerSt) (s : State) : (setPower f s).therm = s.therm := rfl
@[simp] theorem setPower_start (f : PowerSt → PowerSt) (s : State) : (setPower f s).start = s.start := rfl
@[simp] theorem setPower_fw (f : PowerSt → PowerSt) (s : State) : (setPower f s).fw = s.fw := rfl
@[simp] theorem setPower_sec (f : PowerSt → PowerSt) (s : State) : (setPower f s).sec = s.sec := rfl

@[simp] theorem setSec_pending (f : SecSt → SecSt) (s : State) : (setSec f s).pending = s.pending := rfl
@[simp] theorem setSec_out (f : SecSt → SecSt) (s : State) : (setSec f s).out = s.out := rfl
@[simp] theorem setSec_free (f : SecSt → SecSt) (s : State) : (setSec f s).free = s.free := rfl
@[simp] theorem setSec_variant (f : SecSt → SecSt) (s : State) : (setSec f s).variant = s.variant := rfl
@[simp] theorem setSec_id (f : SecSt → SecSt) (s : State) : (setSec f s).id = s.id := rfl
@[simp] theorem setSec_time (f : SecSt → SecSt) (s : State) : (setSec f s).time = s.time := rfl
@[simp] theorem setSec_tt (f : SecSt → SecSt) (s : State) : (setSec f s).tt = s.tt := rfl
@[simp] theorem setSec_unit (f : SecSt → SecSt) (s : State) : (setSec f s).unit = s.unit := rfl
@[simp] theorem setSec_host (f : SecSt → SecSt) (s : State) : (setSec f s).host = s.host := rfl
@[simp] theorem setSec_cache (f : SecSt → SecSt) (s : State) : (setSec f s).cache = s.cache := rfl
@[simp] theorem setSec_rstat (f : SecSt → SecSt) (s : State) : (setSec f s).rstat = s.rstat := rfl
@[simp] theorem setSec_write (f : SecSt → SecSt) (s : State) : (setSec f s).write = s.write := rfl
@[simp] theorem setSec_xlat (f : SecSt → SecSt) (s : State) : (setSec f s).xlat = s.xlat := rfl
@[simp] theorem setSec_mm (f : SecSt → SecSt) (s : State) : (setSec f s).mm = s.mm := rfl
@[simp] theorem setSec_lp (f : SecSt → SecSt) (s : State) : (setSec f s).lp = s.lp := rfl
@[simp] theorem setSec_media (f : SecSt → SecSt) (s : State) : (setSec f s).media = s.media := rfl
@[simp] theorem setSec_span (f : SecSt → SecSt) (s : State) : (setSec f s).span = s.span := rfl
@[simp] theorem setSec_queue (f : SecSt → SecSt) (s : State) : (setSec f s).queue = s.queue := rfl
@[simp] theorem setSec_wb (f : SecSt → SecSt) (s : State) : (setSec f s).wb = s.wb := rfl
@[simp] theorem setSec_evt (f : SecSt → SecSt) (s : State) : (setSec f s).evt = s.evt := rfl
@[simp] theorem setSec_sb (f : SecSt → SecSt) (s : State) : (setSec f s).sb = s.sb := rfl
@[simp] theorem setSec_power (f : SecSt → SecSt) (s : State) : (setSec f s).power = s.power := rfl
@[simp] theorem setSec_therm (f : SecSt → SecSt) (s : State) : (setSec f s).therm = s.therm := rfl
@[simp] theorem setSec_start (f : SecSt → SecSt) (s : State) : (setSec f s).start = s.start := rfl
@[simp] theorem setSec_fw (f : SecSt → SecSt) (s : State) : (setSec f s).fw = s.fw := rfl

@[simp] theorem setTherm_pending (f : ThermSt → ThermSt) (s : State) : (setTherm f s).pending = s.pending := rfl
@[simp] theorem setTherm_out (f : ThermSt → ThermSt) (s : State) : (setTherm f s).out = s.out := rfl
@[simp] theorem setTherm_free (f : ThermSt → ThermSt) (s : State) : (setTherm f s).free = s.free := rfl
@[simp] theorem setTherm_variant (f : ThermSt → ThermSt) (s : State) : (setTherm f s).variant = s.variant := rfl
@[simp] theorem setTherm_id (f : ThermSt → ThermSt) (s : State) : (setTherm f s).id = s.id := rfl
@[simp] theorem setTherm_time (f : ThermSt → ThermSt) (s : State) : (setTherm f s).time = s.time := rfl
@[simp] theorem setTherm_tt (f : ThermSt → ThermSt) (s : State) : (setTherm f s).tt = s.tt := rfl
@[simp] theorem setTherm_unit (f : ThermSt → ThermSt) (s : State) : (setTherm f s).unit = s.unit := rfl
@[simp] theorem setTherm_host (f : ThermSt → ThermSt) (s : State) : (setTherm f s).host = s.host := rfl
@[simp] theorem setTherm_cache (f : ThermSt → ThermSt) (s : State) : (setTherm f s).cache = s.cache := rfl
@[simp] theorem setTherm_rstat (f : ThermSt → ThermSt) (s : State) : (setTherm f s).rstat = s.rstat := rfl
@[simp] theorem setTherm_write (f : ThermSt → ThermSt) (s : State) : (setTherm f s).write = s.write := rfl
@[simp] theorem setTherm_xlat (f : ThermSt → ThermSt) (s : State) : (setTherm f s).xlat = s.xlat := rfl
@[simp] theorem setTherm_mm (f : ThermSt → ThermSt) (s : State) : (setTherm f s).mm = s.mm := rfl
@[simp] theorem setTherm_lp (f : ThermSt → ThermSt) (s : State) : (setTherm f s).lp = s.lp := rfl
@[simp] theorem setTherm_media (f : ThermSt → ThermSt) (s : State) : (setTherm f s).media = s.media := rfl
@[simp] theorem setTherm_span (f : ThermSt → ThermSt) (s : State) : (setTherm f s).span = s.span := rfl
@[simp] theorem setTherm_queue (f : ThermSt → ThermSt) (s : State) : (setTherm f s).queue = s.queue := rfl
@[simp] theorem setTherm_wb (f : ThermSt → ThermSt) (s : State) : (setTherm f s).wb = s.wb := rfl
@[simp] theorem setTherm_evt (f : ThermSt → ThermSt) (s : State) : (setTherm f s).evt = s.evt := rfl
@[simp] theorem setTherm_sb (f : ThermSt → ThermSt) (s : State) : (setTherm f s).sb = s.sb := rfl
@[simp] theorem setTherm_power (f : ThermSt → ThermSt) (s : State) : (setTherm f s).power = s.power := rfl
@[simp] theorem setTherm_start (f : ThermSt → ThermSt) (s : State) : (setTherm f s).start = s.start := rfl
@[simp] theorem setTherm_fw (f : ThermSt → ThermSt) (s : State) : (setTherm f s).fw = s.fw := rfl
@[simp] theorem setTherm_sec (f : ThermSt → ThermSt) (s : State) : (setTherm f s).sec = s.sec := rfl

@[simp] theorem setQ_pending (q : Nat) (f : Queue → Queue) (s : State) : (setQ q f s).pending = s.pending := rfl
@[simp] theorem setQ_out (q : Nat) (f : Queue → Queue) (s : State) : (setQ q f s).out = s.out := rfl
@[simp] theorem setQ_free (q : Nat) (f : Queue → Queue) (s : State) : (setQ q f s).free = s.free := rfl
@[simp] theorem setQ_variant (q : Nat) (f : Queue → Queue) (s : State) : (setQ q f s).variant = s.variant := rfl
@[simp] theorem setQ_id (q : Nat) (f : Queue → Queue) (s : State) : (setQ q f s).id = s.id := rfl
@[simp] theorem setQ_time (q : Nat) (f : Queue → Queue) (s : State) : (setQ q f s).time = s.time := rfl
@[simp] theorem setQ_tt (q : Nat) (f : Queue → Queue) (s : State) : (setQ q f s).tt = s.tt := rfl
@[simp] theorem setQ_unit (q : Nat) (f : Queue → Queue) (s : State) : (setQ q f s).unit = s.unit := rfl
@[simp] theorem setQ_host (q : Nat) (f : Queue → Queue) (s : State) : (setQ q f s).host = s.host := rfl
@[simp] theorem setQ_cache (q : Nat) (f : Queue → Queue) (s : State) : (setQ q f s).cache = s.cache := rfl
@[simp] theorem setQ_rstat (q : Nat) (f : Queue → Queue) (s : State) : (setQ q f s).rstat = s.rstat := rfl
@[simp] theorem setQ_write (q : Nat) (f : Queue → Queue) (s : State) : (setQ q f s).write = s.write := rfl
@[simp] theorem setQ_xlat (q : Nat) (f : Queue → Queue) (s : State) : (setQ q f s).xlat = s.xlat := rfl
@[simp] theorem setQ_mm (q : Nat) (f : Queue → Queue) (s : State) : (setQ q f s).mm = s.mm := rfl
@[simp] theorem setQ_lp (q : Nat) (f : Queue → Queue) (s : State) : (setQ q f s).lp = s.lp := rfl
@[simp] theorem setQ_media (q : Nat) (f : Queue → Queue) (s : State) : (setQ q f s).media = s.media := rfl
@[simp] theorem setQ_span (q : Nat) (f : Queue → Queue) (s : State) : (setQ q f s).span = s.span := rfl
@[simp] theorem setQ_wb (q : Nat) (f : Queue → Queue) (s : State) : (setQ q f s).wb = s.wb := rfl
@[simp] theorem setQ_evt (q : Nat) (f : Queue → Queue) (s : State) : (setQ q f s).evt = s.evt := rfl
@[simp] theorem setQ_sb (q : Nat) (f : Queue → Queue) (s : State) : (setQ q f s).sb = s.sb := rfl
@[simp] theorem setQ_power (q : Nat) (f : Queue → Queue) (s : State) : (setQ q f s).power = s.power := rfl
@[simp] theorem setQ_therm (q : Nat) (f : Queue → Queue) (s : State) : (setQ q f s).therm = s.therm := rfl
@[simp] theorem setQ_start (q : Nat) (f : Queue → Queue) (s : State) : (setQ q f s).start = s.start := rfl
@[simp] theorem setQ_fw (q : Nat) (f : Queue → Queue) (s : State) : (setQ q f s).fw = s.fw := rfl
@[simp] theorem setQ_sec (q : Nat) (f : Queue → Queue) (s : State) : (setQ q f s).sec = s.sec := rfl

@[simp] theorem setPeer_pending (r : Nat) (f : Peer → Peer) (s : State) : (setPeer r f s).pending = s.pending := rfl
@[simp] theorem setPeer_out (r : Nat) (f : Peer → Peer) (s : State) : (setPeer r f s).out = s.out := rfl
@[simp] theorem setPeer_free (r : Nat) (f : Peer → Peer) (s : State) : (setPeer r f s).free = s.free := rfl
@[simp] theorem setPeer_variant (r : Nat) (f : Peer → Peer) (s : State) : (setPeer r f s).variant = s.variant := rfl
@[simp] theorem setPeer_id (r : Nat) (f : Peer → Peer) (s : State) : (setPeer r f s).id = s.id := rfl
@[simp] theorem setPeer_time (r : Nat) (f : Peer → Peer) (s : State) : (setPeer r f s).time = s.time := rfl
@[simp] theorem setPeer_tt (r : Nat) (f : Peer → Peer) (s : State) : (setPeer r f s).tt = s.tt := rfl
@[simp] theorem setPeer_unit (r : Nat) (f : Peer → Peer) (s : State) : (setPeer r f s).unit = s.unit := rfl
@[simp] theorem setPeer_host (r : Nat) (f : Peer → Peer) (s : State) : (setPeer r f s).host = s.host := rfl
@[simp] theorem setPeer_cache (r : Nat) (f : Peer → Peer) (s : State) : (setPeer r f s).cache = s.cache := rfl
@[simp] theorem setPeer_rstat (r : Nat) (f : Peer → Peer) (s : State) : (setPeer r f s).rstat = s.rstat := rfl
@[simp] theorem setPeer_write (r : Nat) (f : Peer → Peer) (s : State) : (setPeer r f s).write = s.write := rfl
@[simp] theorem setPeer_xlat (r : Nat) (f : Peer → Peer) (s : State) : (setPeer r f s).xlat = s.xlat := rfl
@[simp] theorem setPeer_mm (r : Nat) (f : Peer → Peer) (s : State) : (setPeer r f s).mm = s.mm := rfl
@[simp] theorem setPeer_lp (r : Nat) (f : Peer → Peer) (s : State) : (setPeer r f s).lp = s.lp := rfl
@[simp] theorem setPeer_media (r : Nat) (f : Peer → Peer) (s : State) : (setPeer r f s).media = s.media := rfl
@[simp] theorem setPeer_queue (r : Nat) (f : Peer → Peer) (s : State) : (setPeer r f s).queue = s.queue := rfl
@[simp] theorem setPeer_wb (r : Nat) (f : Peer → Peer) (s : State) : (setPeer r f s).wb = s.wb := rfl
@[simp] theorem setPeer_evt (r : Nat) (f : Peer → Peer) (s : State) : (setPeer r f s).evt = s.evt := rfl
@[simp] theorem setPeer_sb (r : Nat) (f : Peer → Peer) (s : State) : (setPeer r f s).sb = s.sb := rfl
@[simp] theorem setPeer_power (r : Nat) (f : Peer → Peer) (s : State) : (setPeer r f s).power = s.power := rfl
@[simp] theorem setPeer_therm (r : Nat) (f : Peer → Peer) (s : State) : (setPeer r f s).therm = s.therm := rfl
@[simp] theorem setPeer_start (r : Nat) (f : Peer → Peer) (s : State) : (setPeer r f s).start = s.start := rfl
@[simp] theorem setPeer_fw (r : Nat) (f : Peer → Peer) (s : State) : (setPeer r f s).fw = s.fw := rfl
@[simp] theorem setPeer_sec (r : Nat) (f : Peer → Peer) (s : State) : (setPeer r f s).sec = s.sec := rfl

@[simp] theorem setSensor_pending (i : Nat) (f : SensorSt → SensorSt) (s : State) : (setSensor i f s).pending = s.pending := rfl
@[simp] theorem setSensor_out (i : Nat) (f : SensorSt → SensorSt) (s : State) : (setSensor i f s).out = s.out := rfl
@[simp] theorem setSensor_free (i : Nat) (f : SensorSt → SensorSt) (s : State) : (setSensor i f s).free = s.free := rfl
@[simp] theorem setSensor_variant (i : Nat) (f : SensorSt → SensorSt) (s : State) : (setSensor i f s).variant = s.variant := rfl
@[simp] theorem setSensor_id (i : Nat) (f : SensorSt → SensorSt) (s : State) : (setSensor i f s).id = s.id := rfl
@[simp] theorem setSensor_time (i : Nat) (f : SensorSt → SensorSt) (s : State) : (setSensor i f s).time = s.time := rfl
@[simp] theorem setSensor_tt (i : Nat) (f : SensorSt → SensorSt) (s : State) : (setSensor i f s).tt = s.tt := rfl
@[simp] theorem setSensor_unit (i : Nat) (f : SensorSt → SensorSt) (s : State) : (setSensor i f s).unit = s.unit := rfl
@[simp] theorem setSensor_host (i : Nat) (f : SensorSt → SensorSt) (s : State) : (setSensor i f s).host = s.host := rfl
@[simp] theorem setSensor_cache (i : Nat) (f : SensorSt → SensorSt) (s : State) : (setSensor i f s).cache = s.cache := rfl
@[simp] theorem setSensor_rstat (i : Nat) (f : SensorSt → SensorSt) (s : State) : (setSensor i f s).rstat = s.rstat := rfl
@[simp] theorem setSensor_write (i : Nat) (f : SensorSt → SensorSt) (s : State) : (setSensor i f s).write = s.write := rfl
@[simp] theorem setSensor_xlat (i : Nat) (f : SensorSt → SensorSt) (s : State) : (setSensor i f s).xlat = s.xlat := rfl
@[simp] theorem setSensor_mm (i : Nat) (f : SensorSt → SensorSt) (s : State) : (setSensor i f s).mm = s.mm := rfl
@[simp] theorem setSensor_lp (i : Nat) (f : SensorSt → SensorSt) (s : State) : (setSensor i f s).lp = s.lp := rfl
@[simp] theorem setSensor_media (i : Nat) (f : SensorSt → SensorSt) (s : State) : (setSensor i f s).media = s.media := rfl
@[simp] theorem setSensor_span (i : Nat) (f : SensorSt → SensorSt) (s : State) : (setSensor i f s).span = s.span := rfl
@[simp] theorem setSensor_queue (i : Nat) (f : SensorSt → SensorSt) (s : State) : (setSensor i f s).queue = s.queue := rfl
@[simp] theorem setSensor_wb (i : Nat) (f : SensorSt → SensorSt) (s : State) : (setSensor i f s).wb = s.wb := rfl
@[simp] theorem setSensor_evt (i : Nat) (f : SensorSt → SensorSt) (s : State) : (setSensor i f s).evt = s.evt := rfl
@[simp] theorem setSensor_sb (i : Nat) (f : SensorSt → SensorSt) (s : State) : (setSensor i f s).sb = s.sb := rfl
@[simp] theorem setSensor_power (i : Nat) (f : SensorSt → SensorSt) (s : State) : (setSensor i f s).power = s.power := rfl
@[simp] theorem setSensor_start (i : Nat) (f : SensorSt → SensorSt) (s : State) : (setSensor i f s).start = s.start := rfl
@[simp] theorem setSensor_fw (i : Nat) (f : SensorSt → SensorSt) (s : State) : (setSensor i f s).fw = s.fw := rfl
@[simp] theorem setSensor_sec (i : Nat) (f : SensorSt → SensorSt) (s : State) : (setSensor i f s).sec = s.sec := rfl

@[simp] theorem setWard_pending (p : Nat) (f : Ward → Ward) (s : State) : (setWard p f s).pending = s.pending := rfl
@[simp] theorem setWard_out (p : Nat) (f : Ward → Ward) (s : State) : (setWard p f s).out = s.out := rfl
@[simp] theorem setWard_free (p : Nat) (f : Ward → Ward) (s : State) : (setWard p f s).free = s.free := rfl
@[simp] theorem setWard_variant (p : Nat) (f : Ward → Ward) (s : State) : (setWard p f s).variant = s.variant := rfl
@[simp] theorem setWard_id (p : Nat) (f : Ward → Ward) (s : State) : (setWard p f s).id = s.id := rfl
@[simp] theorem setWard_time (p : Nat) (f : Ward → Ward) (s : State) : (setWard p f s).time = s.time := rfl
@[simp] theorem setWard_tt (p : Nat) (f : Ward → Ward) (s : State) : (setWard p f s).tt = s.tt := rfl
@[simp] theorem setWard_unit (p : Nat) (f : Ward → Ward) (s : State) : (setWard p f s).unit = s.unit := rfl
@[simp] theorem setWard_host (p : Nat) (f : Ward → Ward) (s : State) : (setWard p f s).host = s.host := rfl
@[simp] theorem setWard_cache (p : Nat) (f : Ward → Ward) (s : State) : (setWard p f s).cache = s.cache := rfl
@[simp] theorem setWard_rstat (p : Nat) (f : Ward → Ward) (s : State) : (setWard p f s).rstat = s.rstat := rfl
@[simp] theorem setWard_write (p : Nat) (f : Ward → Ward) (s : State) : (setWard p f s).write = s.write := rfl
@[simp] theorem setWard_xlat (p : Nat) (f : Ward → Ward) (s : State) : (setWard p f s).xlat = s.xlat := rfl
@[simp] theorem setWard_mm (p : Nat) (f : Ward → Ward) (s : State) : (setWard p f s).mm = s.mm := rfl
@[simp] theorem setWard_lp (p : Nat) (f : Ward → Ward) (s : State) : (setWard p f s).lp = s.lp := rfl
@[simp] theorem setWard_media (p : Nat) (f : Ward → Ward) (s : State) : (setWard p f s).media = s.media := rfl
@[simp] theorem setWard_queue (p : Nat) (f : Ward → Ward) (s : State) : (setWard p f s).queue = s.queue := rfl
@[simp] theorem setWard_wb (p : Nat) (f : Ward → Ward) (s : State) : (setWard p f s).wb = s.wb := rfl
@[simp] theorem setWard_evt (p : Nat) (f : Ward → Ward) (s : State) : (setWard p f s).evt = s.evt := rfl
@[simp] theorem setWard_sb (p : Nat) (f : Ward → Ward) (s : State) : (setWard p f s).sb = s.sb := rfl
@[simp] theorem setWard_power (p : Nat) (f : Ward → Ward) (s : State) : (setWard p f s).power = s.power := rfl
@[simp] theorem setWard_therm (p : Nat) (f : Ward → Ward) (s : State) : (setWard p f s).therm = s.therm := rfl
@[simp] theorem setWard_start (p : Nat) (f : Ward → Ward) (s : State) : (setWard p f s).start = s.start := rfl
@[simp] theorem setWard_fw (p : Nat) (f : Ward → Ward) (s : State) : (setWard p f s).fw = s.fw := rfl
@[simp] theorem setWard_sec (p : Nat) (f : Ward → Ward) (s : State) : (setWard p f s).sec = s.sec := rfl

@[simp] theorem setStream_pending (i : Nat) (f : Stream → Stream) (s : State) : (setStream i f s).pending = s.pending := rfl
@[simp] theorem setStream_out (i : Nat) (f : Stream → Stream) (s : State) : (setStream i f s).out = s.out := rfl
@[simp] theorem setStream_free (i : Nat) (f : Stream → Stream) (s : State) : (setStream i f s).free = s.free := rfl
@[simp] theorem setStream_variant (i : Nat) (f : Stream → Stream) (s : State) : (setStream i f s).variant = s.variant := rfl
@[simp] theorem setStream_id (i : Nat) (f : Stream → Stream) (s : State) : (setStream i f s).id = s.id := rfl
@[simp] theorem setStream_time (i : Nat) (f : Stream → Stream) (s : State) : (setStream i f s).time = s.time := rfl
@[simp] theorem setStream_tt (i : Nat) (f : Stream → Stream) (s : State) : (setStream i f s).tt = s.tt := rfl
@[simp] theorem setStream_unit (i : Nat) (f : Stream → Stream) (s : State) : (setStream i f s).unit = s.unit := rfl
@[simp] theorem setStream_host (i : Nat) (f : Stream → Stream) (s : State) : (setStream i f s).host = s.host := rfl
@[simp] theorem setStream_cache (i : Nat) (f : Stream → Stream) (s : State) : (setStream i f s).cache = s.cache := rfl
@[simp] theorem setStream_rstat (i : Nat) (f : Stream → Stream) (s : State) : (setStream i f s).rstat = s.rstat := rfl
@[simp] theorem setStream_write (i : Nat) (f : Stream → Stream) (s : State) : (setStream i f s).write = s.write := rfl
@[simp] theorem setStream_xlat (i : Nat) (f : Stream → Stream) (s : State) : (setStream i f s).xlat = s.xlat := rfl
@[simp] theorem setStream_mm (i : Nat) (f : Stream → Stream) (s : State) : (setStream i f s).mm = s.mm := rfl
@[simp] theorem setStream_lp (i : Nat) (f : Stream → Stream) (s : State) : (setStream i f s).lp = s.lp := rfl
@[simp] theorem setStream_media (i : Nat) (f : Stream → Stream) (s : State) : (setStream i f s).media = s.media := rfl
@[simp] theorem setStream_queue (i : Nat) (f : Stream → Stream) (s : State) : (setStream i f s).queue = s.queue := rfl
@[simp] theorem setStream_wb (i : Nat) (f : Stream → Stream) (s : State) : (setStream i f s).wb = s.wb := rfl
@[simp] theorem setStream_evt (i : Nat) (f : Stream → Stream) (s : State) : (setStream i f s).evt = s.evt := rfl
@[simp] theorem setStream_sb (i : Nat) (f : Stream → Stream) (s : State) : (setStream i f s).sb = s.sb := rfl
@[simp] theorem setStream_power (i : Nat) (f : Stream → Stream) (s : State) : (setStream i f s).power = s.power := rfl
@[simp] theorem setStream_therm (i : Nat) (f : Stream → Stream) (s : State) : (setStream i f s).therm = s.therm := rfl
@[simp] theorem setStream_start (i : Nat) (f : Stream → Stream) (s : State) : (setStream i f s).start = s.start := rfl
@[simp] theorem setStream_fw (i : Nat) (f : Stream → Stream) (s : State) : (setStream i f s).fw = s.fw := rfl
@[simp] theorem setStream_sec (i : Nat) (f : Stream → Stream) (s : State) : (setStream i f s).sec = s.sec := rfl

@[simp] theorem setMove_pending (lfn : Nat) (f : FastMove → FastMove) (s : State) : (setMove lfn f s).pending = s.pending := rfl
@[simp] theorem setMove_out (lfn : Nat) (f : FastMove → FastMove) (s : State) : (setMove lfn f s).out = s.out := rfl
@[simp] theorem setMove_free (lfn : Nat) (f : FastMove → FastMove) (s : State) : (setMove lfn f s).free = s.free := rfl
@[simp] theorem setMove_variant (lfn : Nat) (f : FastMove → FastMove) (s : State) : (setMove lfn f s).variant = s.variant := rfl
@[simp] theorem setMove_id (lfn : Nat) (f : FastMove → FastMove) (s : State) : (setMove lfn f s).id = s.id := rfl
@[simp] theorem setMove_time (lfn : Nat) (f : FastMove → FastMove) (s : State) : (setMove lfn f s).time = s.time := rfl
@[simp] theorem setMove_tt (lfn : Nat) (f : FastMove → FastMove) (s : State) : (setMove lfn f s).tt = s.tt := rfl
@[simp] theorem setMove_unit (lfn : Nat) (f : FastMove → FastMove) (s : State) : (setMove lfn f s).unit = s.unit := rfl
@[simp] theorem setMove_host (lfn : Nat) (f : FastMove → FastMove) (s : State) : (setMove lfn f s).host = s.host := rfl
@[simp] theorem setMove_cache (lfn : Nat) (f : FastMove → FastMove) (s : State) : (setMove lfn f s).cache = s.cache := rfl
@[simp] theorem setMove_rstat (lfn : Nat) (f : FastMove → FastMove) (s : State) : (setMove lfn f s).rstat = s.rstat := rfl
@[simp] theorem setMove_write (lfn : Nat) (f : FastMove → FastMove) (s : State) : (setMove lfn f s).write = s.write := rfl
@[simp] theorem setMove_xlat (lfn : Nat) (f : FastMove → FastMove) (s : State) : (setMove lfn f s).xlat = s.xlat := rfl
@[simp] theorem setMove_lp (lfn : Nat) (f : FastMove → FastMove) (s : State) : (setMove lfn f s).lp = s.lp := rfl
@[simp] theorem setMove_media (lfn : Nat) (f : FastMove → FastMove) (s : State) : (setMove lfn f s).media = s.media := rfl
@[simp] theorem setMove_span (lfn : Nat) (f : FastMove → FastMove) (s : State) : (setMove lfn f s).span = s.span := rfl
@[simp] theorem setMove_queue (lfn : Nat) (f : FastMove → FastMove) (s : State) : (setMove lfn f s).queue = s.queue := rfl
@[simp] theorem setMove_wb (lfn : Nat) (f : FastMove → FastMove) (s : State) : (setMove lfn f s).wb = s.wb := rfl
@[simp] theorem setMove_evt (lfn : Nat) (f : FastMove → FastMove) (s : State) : (setMove lfn f s).evt = s.evt := rfl
@[simp] theorem setMove_sb (lfn : Nat) (f : FastMove → FastMove) (s : State) : (setMove lfn f s).sb = s.sb := rfl
@[simp] theorem setMove_power (lfn : Nat) (f : FastMove → FastMove) (s : State) : (setMove lfn f s).power = s.power := rfl
@[simp] theorem setMove_therm (lfn : Nat) (f : FastMove → FastMove) (s : State) : (setMove lfn f s).therm = s.therm := rfl
@[simp] theorem setMove_start (lfn : Nat) (f : FastMove → FastMove) (s : State) : (setMove lfn f s).start = s.start := rfl
@[simp] theorem setMove_fw (lfn : Nat) (f : FastMove → FastMove) (s : State) : (setMove lfn f s).fw = s.fw := rfl
@[simp] theorem setMove_sec (lfn : Nat) (f : FastMove → FastMove) (s : State) : (setMove lfn f s).sec = s.sec := rfl

@[simp] theorem endMove_pending (lfn : Nat) (s : State) : (endMove lfn s).pending = s.pending := rfl
@[simp] theorem endMove_out (lfn : Nat) (s : State) : (endMove lfn s).out = s.out := rfl
@[simp] theorem endMove_free (lfn : Nat) (s : State) : (endMove lfn s).free = s.free := rfl
@[simp] theorem endMove_variant (lfn : Nat) (s : State) : (endMove lfn s).variant = s.variant := rfl
@[simp] theorem endMove_id (lfn : Nat) (s : State) : (endMove lfn s).id = s.id := rfl
@[simp] theorem endMove_time (lfn : Nat) (s : State) : (endMove lfn s).time = s.time := rfl
@[simp] theorem endMove_tt (lfn : Nat) (s : State) : (endMove lfn s).tt = s.tt := rfl
@[simp] theorem endMove_unit (lfn : Nat) (s : State) : (endMove lfn s).unit = s.unit := rfl
@[simp] theorem endMove_host (lfn : Nat) (s : State) : (endMove lfn s).host = s.host := rfl
@[simp] theorem endMove_cache (lfn : Nat) (s : State) : (endMove lfn s).cache = s.cache := rfl
@[simp] theorem endMove_rstat (lfn : Nat) (s : State) : (endMove lfn s).rstat = s.rstat := rfl
@[simp] theorem endMove_write (lfn : Nat) (s : State) : (endMove lfn s).write = s.write := rfl
@[simp] theorem endMove_xlat (lfn : Nat) (s : State) : (endMove lfn s).xlat = s.xlat := rfl
@[simp] theorem endMove_lp (lfn : Nat) (s : State) : (endMove lfn s).lp = s.lp := rfl
@[simp] theorem endMove_media (lfn : Nat) (s : State) : (endMove lfn s).media = s.media := rfl
@[simp] theorem endMove_span (lfn : Nat) (s : State) : (endMove lfn s).span = s.span := rfl
@[simp] theorem endMove_queue (lfn : Nat) (s : State) : (endMove lfn s).queue = s.queue := rfl
@[simp] theorem endMove_wb (lfn : Nat) (s : State) : (endMove lfn s).wb = s.wb := rfl
@[simp] theorem endMove_evt (lfn : Nat) (s : State) : (endMove lfn s).evt = s.evt := rfl
@[simp] theorem endMove_sb (lfn : Nat) (s : State) : (endMove lfn s).sb = s.sb := rfl
@[simp] theorem endMove_power (lfn : Nat) (s : State) : (endMove lfn s).power = s.power := rfl
@[simp] theorem endMove_therm (lfn : Nat) (s : State) : (endMove lfn s).therm = s.therm := rfl
@[simp] theorem endMove_start (lfn : Nat) (s : State) : (endMove lfn s).start = s.start := rfl
@[simp] theorem endMove_fw (lfn : Nat) (s : State) : (endMove lfn s).fw = s.fw := rfl
@[simp] theorem endMove_sec (lfn : Nat) (s : State) : (endMove lfn s).sec = s.sec := rfl

@[simp] theorem setSlot_pending (b lfn : Nat) (f : FoldSlot → FoldSlot) (s : State) : (setSlot b lfn f s).pending = s.pending := rfl
@[simp] theorem setSlot_out (b lfn : Nat) (f : FoldSlot → FoldSlot) (s : State) : (setSlot b lfn f s).out = s.out := rfl
@[simp] theorem setSlot_free (b lfn : Nat) (f : FoldSlot → FoldSlot) (s : State) : (setSlot b lfn f s).free = s.free := rfl
@[simp] theorem setSlot_variant (b lfn : Nat) (f : FoldSlot → FoldSlot) (s : State) : (setSlot b lfn f s).variant = s.variant := rfl
@[simp] theorem setSlot_id (b lfn : Nat) (f : FoldSlot → FoldSlot) (s : State) : (setSlot b lfn f s).id = s.id := rfl
@[simp] theorem setSlot_time (b lfn : Nat) (f : FoldSlot → FoldSlot) (s : State) : (setSlot b lfn f s).time = s.time := rfl
@[simp] theorem setSlot_tt (b lfn : Nat) (f : FoldSlot → FoldSlot) (s : State) : (setSlot b lfn f s).tt = s.tt := rfl
@[simp] theorem setSlot_unit (b lfn : Nat) (f : FoldSlot → FoldSlot) (s : State) : (setSlot b lfn f s).unit = s.unit := rfl
@[simp] theorem setSlot_host (b lfn : Nat) (f : FoldSlot → FoldSlot) (s : State) : (setSlot b lfn f s).host = s.host := rfl
@[simp] theorem setSlot_cache (b lfn : Nat) (f : FoldSlot → FoldSlot) (s : State) : (setSlot b lfn f s).cache = s.cache := rfl
@[simp] theorem setSlot_rstat (b lfn : Nat) (f : FoldSlot → FoldSlot) (s : State) : (setSlot b lfn f s).rstat = s.rstat := rfl
@[simp] theorem setSlot_write (b lfn : Nat) (f : FoldSlot → FoldSlot) (s : State) : (setSlot b lfn f s).write = s.write := rfl
@[simp] theorem setSlot_xlat (b lfn : Nat) (f : FoldSlot → FoldSlot) (s : State) : (setSlot b lfn f s).xlat = s.xlat := rfl
@[simp] theorem setSlot_lp (b lfn : Nat) (f : FoldSlot → FoldSlot) (s : State) : (setSlot b lfn f s).lp = s.lp := rfl
@[simp] theorem setSlot_media (b lfn : Nat) (f : FoldSlot → FoldSlot) (s : State) : (setSlot b lfn f s).media = s.media := rfl
@[simp] theorem setSlot_span (b lfn : Nat) (f : FoldSlot → FoldSlot) (s : State) : (setSlot b lfn f s).span = s.span := rfl
@[simp] theorem setSlot_queue (b lfn : Nat) (f : FoldSlot → FoldSlot) (s : State) : (setSlot b lfn f s).queue = s.queue := rfl
@[simp] theorem setSlot_wb (b lfn : Nat) (f : FoldSlot → FoldSlot) (s : State) : (setSlot b lfn f s).wb = s.wb := rfl
@[simp] theorem setSlot_evt (b lfn : Nat) (f : FoldSlot → FoldSlot) (s : State) : (setSlot b lfn f s).evt = s.evt := rfl
@[simp] theorem setSlot_sb (b lfn : Nat) (f : FoldSlot → FoldSlot) (s : State) : (setSlot b lfn f s).sb = s.sb := rfl
@[simp] theorem setSlot_power (b lfn : Nat) (f : FoldSlot → FoldSlot) (s : State) : (setSlot b lfn f s).power = s.power := rfl
@[simp] theorem setSlot_therm (b lfn : Nat) (f : FoldSlot → FoldSlot) (s : State) : (setSlot b lfn f s).therm = s.therm := rfl
@[simp] theorem setSlot_start (b lfn : Nat) (f : FoldSlot → FoldSlot) (s : State) : (setSlot b lfn f s).start = s.start := rfl
@[simp] theorem setSlot_fw (b lfn : Nat) (f : FoldSlot → FoldSlot) (s : State) : (setSlot b lfn f s).fw = s.fw := rfl
@[simp] theorem setSlot_sec (b lfn : Nat) (f : FoldSlot → FoldSlot) (s : State) : (setSlot b lfn f s).sec = s.sec := rfl

@[simp] theorem setMember_pending (b m : Nat) (v : MemberProg) (s : State) : (setMember b m v s).pending = s.pending := rfl
@[simp] theorem setMember_out (b m : Nat) (v : MemberProg) (s : State) : (setMember b m v s).out = s.out := rfl
@[simp] theorem setMember_free (b m : Nat) (v : MemberProg) (s : State) : (setMember b m v s).free = s.free := rfl
@[simp] theorem setMember_variant (b m : Nat) (v : MemberProg) (s : State) : (setMember b m v s).variant = s.variant := rfl
@[simp] theorem setMember_id (b m : Nat) (v : MemberProg) (s : State) : (setMember b m v s).id = s.id := rfl
@[simp] theorem setMember_time (b m : Nat) (v : MemberProg) (s : State) : (setMember b m v s).time = s.time := rfl
@[simp] theorem setMember_tt (b m : Nat) (v : MemberProg) (s : State) : (setMember b m v s).tt = s.tt := rfl
@[simp] theorem setMember_unit (b m : Nat) (v : MemberProg) (s : State) : (setMember b m v s).unit = s.unit := rfl
@[simp] theorem setMember_host (b m : Nat) (v : MemberProg) (s : State) : (setMember b m v s).host = s.host := rfl
@[simp] theorem setMember_cache (b m : Nat) (v : MemberProg) (s : State) : (setMember b m v s).cache = s.cache := rfl
@[simp] theorem setMember_rstat (b m : Nat) (v : MemberProg) (s : State) : (setMember b m v s).rstat = s.rstat := rfl
@[simp] theorem setMember_write (b m : Nat) (v : MemberProg) (s : State) : (setMember b m v s).write = s.write := rfl
@[simp] theorem setMember_xlat (b m : Nat) (v : MemberProg) (s : State) : (setMember b m v s).xlat = s.xlat := rfl
@[simp] theorem setMember_lp (b m : Nat) (v : MemberProg) (s : State) : (setMember b m v s).lp = s.lp := rfl
@[simp] theorem setMember_media (b m : Nat) (v : MemberProg) (s : State) : (setMember b m v s).media = s.media := rfl
@[simp] theorem setMember_span (b m : Nat) (v : MemberProg) (s : State) : (setMember b m v s).span = s.span := rfl
@[simp] theorem setMember_queue (b m : Nat) (v : MemberProg) (s : State) : (setMember b m v s).queue = s.queue := rfl
@[simp] theorem setMember_wb (b m : Nat) (v : MemberProg) (s : State) : (setMember b m v s).wb = s.wb := rfl
@[simp] theorem setMember_evt (b m : Nat) (v : MemberProg) (s : State) : (setMember b m v s).evt = s.evt := rfl
@[simp] theorem setMember_sb (b m : Nat) (v : MemberProg) (s : State) : (setMember b m v s).sb = s.sb := rfl
@[simp] theorem setMember_power (b m : Nat) (v : MemberProg) (s : State) : (setMember b m v s).power = s.power := rfl
@[simp] theorem setMember_therm (b m : Nat) (v : MemberProg) (s : State) : (setMember b m v s).therm = s.therm := rfl
@[simp] theorem setMember_start (b m : Nat) (v : MemberProg) (s : State) : (setMember b m v s).start = s.start := rfl
@[simp] theorem setMember_fw (b m : Nat) (v : MemberProg) (s : State) : (setMember b m v s).fw = s.fw := rfl
@[simp] theorem setMember_sec (b m : Nat) (v : MemberProg) (s : State) : (setMember b m v s).sec = s.sec := rfl

@[simp] theorem setHolding_pending (h : Holding) (f : Holding → Holding) (s : State) : (setHolding h f s).pending = s.pending := rfl
@[simp] theorem setHolding_out (h : Holding) (f : Holding → Holding) (s : State) : (setHolding h f s).out = s.out := rfl
@[simp] theorem setHolding_free (h : Holding) (f : Holding → Holding) (s : State) : (setHolding h f s).free = s.free := rfl
@[simp] theorem setHolding_variant (h : Holding) (f : Holding → Holding) (s : State) : (setHolding h f s).variant = s.variant := rfl
@[simp] theorem setHolding_id (h : Holding) (f : Holding → Holding) (s : State) : (setHolding h f s).id = s.id := rfl
@[simp] theorem setHolding_time (h : Holding) (f : Holding → Holding) (s : State) : (setHolding h f s).time = s.time := rfl
@[simp] theorem setHolding_tt (h : Holding) (f : Holding → Holding) (s : State) : (setHolding h f s).tt = s.tt := rfl
@[simp] theorem setHolding_unit (h : Holding) (f : Holding → Holding) (s : State) : (setHolding h f s).unit = s.unit := rfl
@[simp] theorem setHolding_host (h : Holding) (f : Holding → Holding) (s : State) : (setHolding h f s).host = s.host := rfl
@[simp] theorem setHolding_cache (h : Holding) (f : Holding → Holding) (s : State) : (setHolding h f s).cache = s.cache := rfl
@[simp] theorem setHolding_rstat (h : Holding) (f : Holding → Holding) (s : State) : (setHolding h f s).rstat = s.rstat := rfl
@[simp] theorem setHolding_write (h : Holding) (f : Holding → Holding) (s : State) : (setHolding h f s).write = s.write := rfl
@[simp] theorem setHolding_xlat (h : Holding) (f : Holding → Holding) (s : State) : (setHolding h f s).xlat = s.xlat := rfl
@[simp] theorem setHolding_mm (h : Holding) (f : Holding → Holding) (s : State) : (setHolding h f s).mm = s.mm := rfl
@[simp] theorem setHolding_lp (h : Holding) (f : Holding → Holding) (s : State) : (setHolding h f s).lp = s.lp := rfl
@[simp] theorem setHolding_media (h : Holding) (f : Holding → Holding) (s : State) : (setHolding h f s).media = s.media := rfl
@[simp] theorem setHolding_queue (h : Holding) (f : Holding → Holding) (s : State) : (setHolding h f s).queue = s.queue := rfl
@[simp] theorem setHolding_wb (h : Holding) (f : Holding → Holding) (s : State) : (setHolding h f s).wb = s.wb := rfl
@[simp] theorem setHolding_evt (h : Holding) (f : Holding → Holding) (s : State) : (setHolding h f s).evt = s.evt := rfl
@[simp] theorem setHolding_sb (h : Holding) (f : Holding → Holding) (s : State) : (setHolding h f s).sb = s.sb := rfl
@[simp] theorem setHolding_power (h : Holding) (f : Holding → Holding) (s : State) : (setHolding h f s).power = s.power := rfl
@[simp] theorem setHolding_therm (h : Holding) (f : Holding → Holding) (s : State) : (setHolding h f s).therm = s.therm := rfl
@[simp] theorem setHolding_start (h : Holding) (f : Holding → Holding) (s : State) : (setHolding h f s).start = s.start := rfl
@[simp] theorem setHolding_fw (h : Holding) (f : Holding → Holding) (s : State) : (setHolding h f s).fw = s.fw := rfl
@[simp] theorem setHolding_sec (h : Holding) (f : Holding → Holding) (s : State) : (setHolding h f s).sec = s.sec := rfl

@[simp] theorem setRead_pending (tag : BitVec 32) (f : SpanRead → SpanRead) (s : State) : (setRead tag f s).pending = s.pending := rfl
@[simp] theorem setRead_out (tag : BitVec 32) (f : SpanRead → SpanRead) (s : State) : (setRead tag f s).out = s.out := rfl
@[simp] theorem setRead_free (tag : BitVec 32) (f : SpanRead → SpanRead) (s : State) : (setRead tag f s).free = s.free := rfl
@[simp] theorem setRead_variant (tag : BitVec 32) (f : SpanRead → SpanRead) (s : State) : (setRead tag f s).variant = s.variant := rfl
@[simp] theorem setRead_id (tag : BitVec 32) (f : SpanRead → SpanRead) (s : State) : (setRead tag f s).id = s.id := rfl
@[simp] theorem setRead_time (tag : BitVec 32) (f : SpanRead → SpanRead) (s : State) : (setRead tag f s).time = s.time := rfl
@[simp] theorem setRead_tt (tag : BitVec 32) (f : SpanRead → SpanRead) (s : State) : (setRead tag f s).tt = s.tt := rfl
@[simp] theorem setRead_unit (tag : BitVec 32) (f : SpanRead → SpanRead) (s : State) : (setRead tag f s).unit = s.unit := rfl
@[simp] theorem setRead_host (tag : BitVec 32) (f : SpanRead → SpanRead) (s : State) : (setRead tag f s).host = s.host := rfl
@[simp] theorem setRead_cache (tag : BitVec 32) (f : SpanRead → SpanRead) (s : State) : (setRead tag f s).cache = s.cache := rfl
@[simp] theorem setRead_rstat (tag : BitVec 32) (f : SpanRead → SpanRead) (s : State) : (setRead tag f s).rstat = s.rstat := rfl
@[simp] theorem setRead_write (tag : BitVec 32) (f : SpanRead → SpanRead) (s : State) : (setRead tag f s).write = s.write := rfl
@[simp] theorem setRead_xlat (tag : BitVec 32) (f : SpanRead → SpanRead) (s : State) : (setRead tag f s).xlat = s.xlat := rfl
@[simp] theorem setRead_mm (tag : BitVec 32) (f : SpanRead → SpanRead) (s : State) : (setRead tag f s).mm = s.mm := rfl
@[simp] theorem setRead_lp (tag : BitVec 32) (f : SpanRead → SpanRead) (s : State) : (setRead tag f s).lp = s.lp := rfl
@[simp] theorem setRead_media (tag : BitVec 32) (f : SpanRead → SpanRead) (s : State) : (setRead tag f s).media = s.media := rfl
@[simp] theorem setRead_queue (tag : BitVec 32) (f : SpanRead → SpanRead) (s : State) : (setRead tag f s).queue = s.queue := rfl
@[simp] theorem setRead_wb (tag : BitVec 32) (f : SpanRead → SpanRead) (s : State) : (setRead tag f s).wb = s.wb := rfl
@[simp] theorem setRead_evt (tag : BitVec 32) (f : SpanRead → SpanRead) (s : State) : (setRead tag f s).evt = s.evt := rfl
@[simp] theorem setRead_sb (tag : BitVec 32) (f : SpanRead → SpanRead) (s : State) : (setRead tag f s).sb = s.sb := rfl
@[simp] theorem setRead_power (tag : BitVec 32) (f : SpanRead → SpanRead) (s : State) : (setRead tag f s).power = s.power := rfl
@[simp] theorem setRead_therm (tag : BitVec 32) (f : SpanRead → SpanRead) (s : State) : (setRead tag f s).therm = s.therm := rfl
@[simp] theorem setRead_start (tag : BitVec 32) (f : SpanRead → SpanRead) (s : State) : (setRead tag f s).start = s.start := rfl
@[simp] theorem setRead_fw (tag : BitVec 32) (f : SpanRead → SpanRead) (s : State) : (setRead tag f s).fw = s.fw := rfl
@[simp] theorem setRead_sec (tag : BitVec 32) (f : SpanRead → SpanRead) (s : State) : (setRead tag f s).sec = s.sec := rfl

@[simp] theorem setThermLoad_pending (l : Nat) (s : State) : (setThermLoad l s).pending = s.pending := rfl
@[simp] theorem setThermLoad_out (l : Nat) (s : State) : (setThermLoad l s).out = s.out := rfl
@[simp] theorem setThermLoad_free (l : Nat) (s : State) : (setThermLoad l s).free = s.free := rfl
@[simp] theorem setThermLoad_variant (l : Nat) (s : State) : (setThermLoad l s).variant = s.variant := rfl
@[simp] theorem setThermLoad_id (l : Nat) (s : State) : (setThermLoad l s).id = s.id := rfl
@[simp] theorem setThermLoad_time (l : Nat) (s : State) : (setThermLoad l s).time = s.time := rfl
@[simp] theorem setThermLoad_tt (l : Nat) (s : State) : (setThermLoad l s).tt = s.tt := rfl
@[simp] theorem setThermLoad_unit (l : Nat) (s : State) : (setThermLoad l s).unit = s.unit := rfl
@[simp] theorem setThermLoad_host (l : Nat) (s : State) : (setThermLoad l s).host = s.host := rfl
@[simp] theorem setThermLoad_cache (l : Nat) (s : State) : (setThermLoad l s).cache = s.cache := rfl
@[simp] theorem setThermLoad_rstat (l : Nat) (s : State) : (setThermLoad l s).rstat = s.rstat := rfl
@[simp] theorem setThermLoad_xlat (l : Nat) (s : State) : (setThermLoad l s).xlat = s.xlat := rfl
@[simp] theorem setThermLoad_mm (l : Nat) (s : State) : (setThermLoad l s).mm = s.mm := rfl
@[simp] theorem setThermLoad_lp (l : Nat) (s : State) : (setThermLoad l s).lp = s.lp := rfl
@[simp] theorem setThermLoad_media (l : Nat) (s : State) : (setThermLoad l s).media = s.media := rfl
@[simp] theorem setThermLoad_span (l : Nat) (s : State) : (setThermLoad l s).span = s.span := rfl
@[simp] theorem setThermLoad_queue (l : Nat) (s : State) : (setThermLoad l s).queue = s.queue := rfl
@[simp] theorem setThermLoad_wb (l : Nat) (s : State) : (setThermLoad l s).wb = s.wb := rfl
@[simp] theorem setThermLoad_evt (l : Nat) (s : State) : (setThermLoad l s).evt = s.evt := rfl
@[simp] theorem setThermLoad_sb (l : Nat) (s : State) : (setThermLoad l s).sb = s.sb := rfl
@[simp] theorem setThermLoad_power (l : Nat) (s : State) : (setThermLoad l s).power = s.power := rfl
@[simp] theorem setThermLoad_therm (l : Nat) (s : State) : (setThermLoad l s).therm = s.therm := rfl
@[simp] theorem setThermLoad_start (l : Nat) (s : State) : (setThermLoad l s).start = s.start := rfl
@[simp] theorem setThermLoad_fw (l : Nat) (s : State) : (setThermLoad l s).fw = s.fw := rfl
@[simp] theorem setThermLoad_sec (l : Nat) (s : State) : (setThermLoad l s).sec = s.sec := rfl

end Sys2Proof.Machine
end

