-- ==== Sys2Proof/WellFormed.lean ====
section
/-! DEFINITION. Which commands are well formed: the shapes that the rules fix and that the operand types do not. A command that is
not well formed is no command any sender or event of the spec produces; the meanings answer it all the same. -/

namespace Sys2Proof

/-- The opcodes of the CXL and FM API commands that have rows of their own (R458, R459), as CXL numbers them. -/
def cxlNumbers : List Nat :=
  [0x0001, 0x0100, 0x0101, 0x0102, 0x0103, 0x0200, 0x0201, 0x0202, 0x0300, 0x0301, 0x0400, 0x0401, 0x4000, 0x4200, 0x4300, 0x4301,
   0x4302, 0x4400, 0x4401, 0x4800, 0x4801, 0x4802, 0x4803, 0x5400, 0x5401, 0x5402, 0x5403, 0x5404, 0x5405, 0x5406, 0x5407, 0x5408,
   0x5409, 0x5601, 0x5603, 0x5604, 0x5605]

/-- The vendor opcodes that have rows of their own (R447 to R456). -/
def vendorNumbers : List Nat :=
  [0xC000, 0xC001, 0xC002, 0xC100, 0xC101, 0xC102, 0xC103, 0xC104, 0xC105, 0xC106, 0xC200, 0xC201, 0xC202, 0xC203, 0xC204, 0xC205,
   0xC300, 0xC301, 0xC302, 0xC303, 0xC304, 0xC305, 0xC306, 0xC307, 0xC400, 0xC401, 0xC402, 0xC403, 0xC500, 0xC501, 0xC502, 0xC503,
   0xC504, 0xC505, 0xC506, 0xC600, 0xC601, 0xC602, 0xC603, 0xC604, 0xC700, 0xC701, 0xC702, 0xC703, 0xC704, 0xC705, 0xC706]

/-- The media opcodes of R227. -/
def mediaNumbers : List Nat :=
  [0x01, 0x02, 0x03, 0x10, 0x11, 0x12, 0x13, 0x14, 0x20, 0x21, 0x22, 0x30, 0x31, 0x32, 0x33, 0x34, 0x35, 0x38, 0x40, 0x41, 0x42,
   0x43, 0x7F]

/-- The shapes of R363 (a batch of 1 to 50 records) and R397 (1 to 1,024 lines in a request). -/
def batchOk (b : Batch) : Bool := Nat.blt 0 b.records.length && Nat.ble b.records.length 50
def countOk (n : BitVec 11) : Bool := Nat.blt 0 n.toNat && Nat.ble n.toNat 1024

/-- Whether a command is well formed. -/
def Instr.wf : Instr → Bool
  | .memRead _ _ hpa _ => hpa.toNat % 64 == 0                                       -- CXL.mem requests name whole lines
  | .memWrite _ _ hpa _ _ _ _ => hpa.toNat % 64 == 0
  | .unsupportedOpcode _ op => !(cxlNumbers.contains op.toNat) && !(Nat.ble 0xC000 op.toNat && Nat.ble op.toNat 0xC7FF)  -- R460
  | .unknownVendorOpcode _ op _ =>                                                  -- R440
    Nat.ble 0xC000 op.toNat && Nat.ble op.toNat 0xC7FF && !(vendorNumbers.contains op.toNat)
  | .mediaUnknownOpcode _ op _ => !(mediaNumbers.contains op.toNat)                 -- R228
  | .unknownMsg _ _ msg _ => msg.toNat == 0 || Nat.blt 4 msg.toNat                  -- R481, R482
  | .patchBatch _ b => batchOk b
  | .deltaChunkData _ _ _ _ _ payload => payload.length == 1024                     -- 64 KiB (R397)
  | .reconReadBase _ _ _ _ count => countOk count
  | .reconReadBulk _ _ _ _ count => countOk count
  | .timetable _ _ _ entries _ => entries.length == 64                              -- R428
  | .thermalSample readings => readings.length == 60                                -- R570, one entry a sensor
  | _ => true

end Sys2Proof
end

