-- ==== Sys2Proof/Tests/Slice0.lean ====
section
/-! SUPPORT. Tests: ill-formed terms that the checks refuse, single steps on small states, and for each statement a state and operands
that meet its hypotheses, at the bounds of each clause. -/

-- One theorem at a time: many at once take more threads than the check's memory limit allows.
set_option Elab.async false

namespace Sys2Proof.Tests

open Sys2Proof Sys2Proof.Machine

/-! ## Well-formedness: one ill-formed term for each check -/

def hdr : MsgHdr := ⟨0x101, 1, true, 2, 1, 1, 0, 0, 64, 0⟩
def pkt (op die bank block addr tag arg : Nat) : Pkt := mkPkt op die bank block addr tag arg

theorem test_wf_mem_address : (Instr.memRead 0 0 63 0).wf = false ∧ (Instr.memWrite 0 0 65 0 0 0 false).wf = false ∧
    (Instr.memRead 0 0 64 0).wf = true := by decide +kernel
theorem test_wf_opcodes : (Instr.unsupportedOpcode .sideband 0x4000).wf = false ∧ (Instr.unsupportedOpcode .sideband 0xC001).wf = false ∧
    (Instr.unknownVendorOpcode .sideband 0xC000 []).wf = false ∧ (Instr.unknownVendorOpcode .sideband 0x1234 []).wf = false ∧
    (Instr.mediaUnknownOpcode 0 0x7F (pkt 0x7F 0 0 0 0 0 0)).wf = false ∧ (Instr.unknownVendorOpcode .sideband 0xC707 []).wf = true := by decide +kernel
theorem test_wf_message : (Instr.unknownMsg 0 (.inl 0) 4 0).wf = false ∧ (Instr.unknownMsg 0 (.inl 0) 5 0).wf = true := by decide +kernel
theorem test_wf_batch : (Instr.patchBatch hdr ⟨1, 0, 1, 0, [], 0⟩).wf = false ∧
    (Instr.patchBatch hdr ⟨1, 0, 1, 0, List.replicate 51 ⟨0, 0, 0, 0⟩, 0⟩).wf = false := by decide +kernel
theorem test_wf_counts : (Instr.deltaChunkData hdr 0 0 0 0 [0]).wf = false ∧ (Instr.reconReadBase hdr 0 0 0 0).wf = false ∧
    (Instr.reconReadBulk hdr 0 0 0 1025).wf = false ∧ (Instr.reconReadBulk hdr 0 0 0 1024).wf = true := by decide +kernel
theorem test_wf_lists : (Instr.timetable hdr 0 0 [] 0).wf = false ∧ (Instr.thermalSample [none]).wf = false := by decide +kernel

/-! ## Commands as words, and the queue -/

theorem test_no_row_has_bits : decodeTableWord 16 0xC000 = none ∧ (State.reset.withFetchWord 16 0xC000).pending = [] := by decide +kernel
theorem test_step_takes_front : Answers (step { State.reset with pending := [.queueMark 0, .queueMark 1] }) (fun t => t.pending = [.queueMark 1]) :=
  ⟨_, rfl, by decide +kernel⟩

/-! ## Small states -/

/-- A block that is on, with four ports up, its supply good and its memory active. -/
def live : State := { State.reset with
  start := { sillUp := true, phase := 9 }
  host := { mailboxReady := true, memoryActive := true, laneCfg := 3, ports := List.replicate 4 { up := true, flit256 := true, mld := true, perst := false } }
  power := { seq := .on, enable := 0xFFFFFFFF, good := 0xFFFFFFFF,
             rails := lmod (List.replicate 32 {}) 0 (fun _ => { pgTmo := 100, domains := 0xFF, hbm := 0xF, channels := 0xFFFFFFFF }) }
  sb := { reserveOk := true, vauxOk := true, vauxMv := 3300 } }

theorem test_live_supply : sbCanStart live = true ∧ sbCanStart State.reset = false ∧ hasSpan live = true := by decide +kernel

/-! ## Hypotheses met: queues, counters -/

def withQ (q : Nat) (x : Queue) (s : State) : State := { s with queue := { s.queue with queues := lmod s.queue.queues q (fun _ => x) } }

theorem test_wit_clear : hasSpan live = true ∧ hasSpan { live with variant := .l1 } = false ∧ (31 : Fin 32).val < nChannels live ∧
    nChannels { live with variant := .l1 } ≤ (8 : Fin 32).val := by decide +kernel
/-- One word below the depth, and at it. -/
theorem test_wit_queue_write : (withQ 4 { wr := 4095 } live).queue.queues[4]? = some { wr := 4095 } ∧
    ((4095 - 0 : BitVec 32)).toNat < qDepth live 4 ∧ qDepth live 4 ≤ ((4096 - 0 : BitVec 32)).toNat := by decide +kernel
theorem test_wit_queue_consumers : (withQ 4 { wr := 2, rd := 1 } live).queue.queues[4]? = some { wr := 2, rd := 1 } ∧
    ((1 : Word)).toNat ≤ ((1 - 0 : BitVec 32)).toNat ∧ ((1 - 0 : BitVec 32)).toNat < ((2 : Word)).toNat ∧
    live.queue.queues[4]? = some { tail := 0x64 } := by decide +kernel
def oneStream : Stream := ⟨0, 0, 0, [(1, ⟨0, 0, 0, 0⟩)], 0, [], 0, 0, false, 0⟩
theorem test_wit_queue_tail : qUse live 4 ≠ 1 ∧ qUse live 0 = 1 ∧ qUse live 2 = 2 ∧ qUse live 4 = 4 ∧ anyLink live live.evt.noticeVec = true ∧ 3 ≤ qUse live 3 ∧
    qUse live 3 ≠ 4 ∧ ({ live with span := { streams := [oneStream] } } : State).span.streams[0]? = some oneStream ∧ oneStream.opened ≠ [] ∧
    (withQ 3 { wr := 1 } live).queue.queues[3]? = some { wr := 1 } := by decide +kernel
theorem test_wit_notice : (withQ 4 { wr := 1 } live).queue.queues[4]? = some { wr := 1 } ∧ (0 : BitVec 32) ≠ 1 ∧
    live.queue.queues[4]? = some { tail := 0x64 } ∧ ((1 : BitVec 16)).toNat ≤ ((1 - 0 : BitVec 32)).toNat ∧
    ((0 - 0 : BitVec 32)).toNat < ((1 : BitVec 16)).toNat := by decide +kernel

/-! ## Hypotheses met: vendor commands -/

def unitBytes (u : Nat) : List Byte := bytesOf 4 u
theorem test_wit_vendor_queries : Heard .sideband [] live true true false false 0 ∧ Heard (.host 0 1) [] live true true false false 0 ∧
    Heard .sideband (bytesOf 4 0) live true true false false 4 ∧ (capEntries 0 (capFields live)).find? (fun e => e.1 == 0) ≠ none ∧
    unitKnown (uChannel 31) = true ∧ unitKnown 0x20FFFF = false ∧ Heard .sideband (bytesOf 8 (uChannel 31)) live false true false false 8 ∧
    Heard .sideband [] live false true false true 0 := by and_intros <;> decide +kernel
def aJob : Job := ⟨7, 0xC202, .sideband, .discard [], 0, true, 0, 0⟩
theorem test_wit_job_status : Heard .sideband (bytesOf 2 7) live true true false false 2 ∧
    jobKept { live with unit := { ended := [aJob] } } .sideband (field (bytesOf 2 7) 0 2) = some aJob ∧ aJob.done = true ∧
    jobKept { live with unit := { running := [{ aJob with done := false }] } } .sideband 7 = some { aJob with done := false } := by and_intros <;> decide +kernel
theorem test_wit_records : Heard .sideband (bytesOf 4 0 ++ [63]) live false true false false 5 ∧ field (bytesOf 4 0 ++ [63]) 4 1 ≤ 63 ∧
    1 ≤ field (bytesOf 4 0 ++ [1]) 4 1 := by and_intros <;> decide +kernel
/-- Host LD 1 of port 0 with a static range of one frame. -/
def oneRange : Ld := { ranges := [⟨0, 1, 5, false⟩] }
def withLd (i : Nat) (d : Ld) (s : State) : State := { s with host := { s.host with lds := lmod s.host.lds i (fun _ => d) } }
theorem test_wit_fold_status : Heard (.host 0 1) ([1, 0, 0, 0] ++ bytesOf 8 0) (withLd 1 oneRange live) true false false false 12 ∧
    inputLfn (withLd 1 oneRange live) (.host 0 1) ([1, 0, 0, 0] ++ bytesOf 8 0) = some 5 ∧ framesReady live = true := by and_intros <;> decide +kernel
def aPool : PoolEntry := ⟨0x101, 1, 0x10, 5, 0⟩
theorem test_wit_pool_get : Heard .sideband (bytesOf 2 511) live false true false true 2 ∧ field (bytesOf 2 511) 0 2 ≤ 511 ∧
    sfind ({ live with span := { pool := [(511, aPool)] } } : State).span.pool (field (bytesOf 2 511) 0 2) = some aPool := by and_intros <;> decide +kernel
theorem test_wit_sbox_read :
    let inp : List Byte := [1, 0, 0, 0] ++ bytesOf 4 (0x8000 - 4088) ++ bytesOf 2 4088
    Heard .sideband inp live false true false false 10 ∧ sfind partitions (field inp 0 1) = some (0x800000, 0x8000) ∧ field inp 0 1 ≠ 5 ∧
    field inp 4 4 < 0x8000 ∧ field inp 8 2 ≤ 4088 ∧ field inp 4 4 + field inp 8 2 ≤ 0x8000 ∧ Heard .sideband [5] live false true false false 1 := by
  and_intros <;> decide +kernel
theorem test_wit_register_commands :
    Heard .sideband (bytesOf 8 1) live false true false false 8 ∧ Heard .sideband ([3, 3] ++ bytesOf 2 4000) live false true false false 4 ∧
    field ([3, 3] ++ bytesOf 2 4000 : List Byte) 2 2 ≤ 4000 ∧ 50 ≤ field ([3, 3] ++ bytesOf 2 50 : List Byte) 2 2 ∧
    field ([3, 3] ++ bytesOf 2 49 : List Byte) 2 2 < 50 ∧ 4000 < field ([3, 3] ++ bytesOf 2 4001 : List Byte) 2 2 ∧
    Heard .sideband [64, 16, 4, 240] live false false false false 4 ∧ Heard .sideband (bytesOf 2 110 ++ bytesOf 2 1000) live false true false false 4 ∧
    field (bytesOf 2 84 : List Byte) 0 2 < 85 ∧ 110 < field (bytesOf 2 111 : List Byte) 0 2 ∧ field (bytesOf 2 85 ++ bytesOf 2 1 : List Byte) 0 2 = 85 := by
  and_intros <;> decide +kernel
theorem test_wit_commit_set : ldNamed live .sideband 1 = some 1 ∧
    Heard .sideband [1, 0] live false false false false 2 ∧ (field ([1, 0] : List Byte) 1 1 = 0 ↔ live.span.desc = none) := by
  and_intros <;> decide +kernel
theorem test_wit_rates : Heard .sideband (bytesOf 8 0xFFFF) live false false true false 8 ∧ Heard .sideband (bytesOf 2 0xFFFF ++ [1, 1]) live false true false false 4 ∧
    0x0904 ∈ evCodes := by and_intros <;> decide +kernel
/-- With the supply and reserve good a group can start, and at reset it cannot. -/
theorem test_wit_strongbox_commands : sbCanStart live = true ∧ sbCanStart { live with sb := {} } = false ∧
    Heard .sideband ([31, 0, 0, 0, 0, 0] ++ bytesOf 2 1) live false true true false 8 ∧
    field ([31, 0, 0, 0, 0, 0] ++ bytesOf 2 1 : List Byte) 6 2 ≠ 0 ∧
    Heard .sideband (bytesOf 2 3840 ++ bytesOf 2 256 ++ List.replicate 256 0) live false true true false 4 ∧
    field (bytesOf 2 3840 ++ bytesOf 2 256 : List Byte) 0 2 + 256 ≤ 4096 ∧ Heard .sideband (bytesOf 2 511 ++ List.replicate 30 0) live false false true false 32 ∧
    Heard .sideband (bytesOf 2 0xFFFF) live false false true false 2 ∧ Heard .sideband [] live false true false false 0 ∧
    live.therm.throttle ≠ .shutdown ∧ (some (⟨0, 0, 0, 0, 0⟩ : ShutRec)).isSome = true ∧
    Heard .sideband (bytesOf 2 511 ++ List.replicate 16 0) live false true false true 18 ∧ live.span.desc = none := by and_intros <;> decide +kernel
theorem test_wit_group : ([.ring 0x41 0 []] : List SbReq) ≠ [] ∧ sbCanStart live = true ∧ sbCanStart State.reset = false := by decide +kernel
theorem test_wit_inject :
    let inp : List Byte := bytesOf 4 0x000B ++ bytesOf 4 (0x900000) ++ bytesOf 8 0 ++ bytesOf 2 0
    let on : Armed := ⟨0x0013, 0, 0, 0, 0, 0, true⟩
    Heard .sideband inp live false false true false 18 ∧ armEarly (field inp 0 2) (field inp 4 3) live = none ∧
    armLate (field inp 0 2) (field inp 4 3) live = none ∧ field inp 0 2 ≠ 0x0010 ∧ live.sec.pl = 0 ∧
    armEarly live.evt.injPoint.toNat live.evt.injUnit.toNat live ≠ none ∧ live.evt.injPoint ≠ 0xFFFF ∧
    (∃ a ∈ ({ live with evt := { armed := [on] } } : State).evt.armed, a.point = 0x0013 ∧ a.unit = 0 ∧ a.active = true) := by and_intros <;> decide +kernel
def ownerBlock : List Byte := bytesOf 4 1 ++ List.replicate 97 7
def plUp (t : Byte) : List Byte := [t, 0, 0, 0] ++ ownerBlock
theorem test_wit_level : Heard .sideband (plUp 2) live false false false false 1 ∧ plPermitted live 2 = true ∧ authorized live 2 ((plUp 2).drop 4) = true ∧
    plPermitted live 1 = true ∧ (plUp 1).length ≤ 516 ∧ live.sec.lowering = 0 := by and_intros <;> decide +kernel
/-- A lowering is authorized where the owner key verifies its signature: whether one does is opaque (log entry 11). -/
theorem test_wit_lowering : let s : State := { live with sec := { pl := 1, owner := [1] } }
    let inp : List Byte := [0, 0, 0, 0] ++ bytesOf 4 2 ++ bytesOf 8 s.id.serial.toNat ++ bytesOf 6 0 ++ bytesOf 2 0 ++ List.replicate 96 9
    Config.verify [1] ((inp.drop 4).take 20) (((inp.drop 4).drop 20).take 96) = true →
    Heard .sideband inp s false false false false 1 ∧ plPermitted s (field inp 0 1) = true ∧ authorized s (field inp 0 1) (inp.drop 4) = true ∧
    s.span.desc = none ∧ (∀ d ∈ s.host.lds, d.erase = none) := by
  intro s inp h
  refine ⟨by and_intros <;> decide +kernel, by decide +kernel, ?_, by decide +kernel, by decide +kernel⟩
  unfold authorized; rw [if_neg (by decide +kernel)]
  simp only [Bool.and_eq_true]
  exact ⟨by decide +kernel, h⟩

/-! ## Hypotheses met: time, power, resets, heat -/

def onTime (t : TimeSt) : State := { live with time := t }
theorem test_wit_time : ptmPort live = some 0 ∧ srcEnabled live .ptm = true ∧ srcInjected live .ptm = false ∧ srcInjected live .timemark = false ∧
    (onTime { ptmPending := true, ftime := 10000 }).time.ptmPending = true ∧ (10000 : Word).toNat ≤ 10000 ∧
    (onTime { markValid := true }).time.markValid = true ∧ live.time.markValid = false ∧ (onTime { mode := .holdover }).time.mode = .holdover ∧
    (onTime { source := .ptm }).time.source = .ptm ∧
    (srcEnabled (onTime { source := .ptm, markGood := true }) .timemark && true) = true ∧
    (srcEnabled (onTime { source := .ptm }) .timemark && (onTime { source := .ptm }).time.markGood) = false ∧
    (srcEnabled (onTime { source := .timemark, ptmGood := true }) .ptm && true) = true ∧
    (srcEnabled (onTime { source := .timemark }) .ptm && (onTime { source := .timemark }).time.ptmGood) = false := by decide +kernel
/-- With a bound of 500 ns: an offset of 1,500 ns is trimmed, of 1,501 ns steps in Free-run; in Locked, 10,000 ns is no bad sample under a
wide bound and 10,001 ns is. -/
theorem test_wit_sample : let s := onTime { unbounded := false, bBaseNs := 500, source := .ptm, ptmGood := true, ftime := 100000 }
    let l := onTime { unbounded := false, bBaseNs := 500, source := .ptm, ptmGood := true, ftime := 100000, mode := .locked, badRun := 2 }
    srcUsed s .ptm = true ∧ boundNs s = some 500 ∧ ((101500 : Int) - (s.time.ftime.toNat : Int)).natAbs ≤ 500 + 1000 ∧ s.time.mode ≠ .locked ∧
    500 + 1000 < ((101501 : Int) - (s.time.ftime.toNat : Int)).natAbs ∧ l.time.mode = .locked ∧ boundNs l = some 500 ∧
    10000 < ((110001 : Int) - (l.time.ftime.toNat : Int)).natAbs ∧ ¬ (l.time.badRun + 1 < 3) ∧
    ¬ (10000 < ((101500 : Int) - (l.time.ftime.toNat : Int)).natAbs) ∧ live.time.badRun + 1 < 3 := by decide +kernel
def onPower (p : PowerSt) : State := { live with power := p }
def oneRail (d : BitVec 8) : List RailCfg := lmod (List.replicate 32 {}) 0 (fun _ => { pgTmo := 100, domains := d })
theorem test_wit_rails : sequenced live 0 = true ∧ activePoint live 0x0010 (uRail 0) = none ∧ live.power.seq = .on ∧ railFeeds live 0 [0, 1, 3] = true ∧
    live.power.enable.getLsbD 0 = true ∧ live.power.flagged.getLsbD 0 = false ∧ live.power.vcoreDone = false ∧
    railFeeds (onPower { seq := .on, enable := 1, rails := oneRail 4 }) 0 [0, 1, 3] = false ∧ live.power.cascade = false := by decide +kernel
theorem test_wit_rails_starting : let s := onPower { seq := .starting, enable := 1, rails := oneRail 1 }
    let o := onPower { seq := .railsOff, good := 1, rails := oneRail 1 }
    let e := onPower { seq := .railsOff, enable := 1, rails := oneRail 1 }
    s.power.seq = .starting ∧ s.power.cascade = false ∧ sequenced s 0 = true ∧ s.power.good.getLsbD 0 = false ∧ s.power.flagged.getLsbD 0 = false ∧
    e.power.enable.getLsbD 0 = true ∧ o.power.seq = .railsOff ∧ o.power.enable.getLsbD 0 = false ∧ o.power.good.getLsbD 0 = true ∧
    (onPower { seq := .minOff }).power.onHeld = false ∧ (onPower { seq := .on, cascade := true }).power.cascade = true := by decide +kernel
/-- Every state of the sequencer, for each of the six rows; the guards of a start, and a full job table. -/
theorem test_wit_power_requests : (∀ q ∈ [SeqState.off, .starting, .on, .held, .shuttingDown, .railsOff, .minOff],
      Heard .sideband [] (onPower { seq := q }) false true false false 0 ∧ (onPower { seq := q, cascade := true }).power.seq = q ∧
      (onPower { seq := q, cause := 1 }).power.cause = 1 ∧ (onPower { seq := q }).power.cause ≠ 1) ∧
    live.unit.running.length < 64 ∧ 64 ≤ ({ live with unit := { running := List.replicate 64 aJob } } : State).unit.running.length ∧
    live.start.sillUp = true ∧ live.start.phase ≠ 1 ∧ State.reset.start.sillUp = false ∧
    ({ live with start := { phase := 1 } } : State).start.phase = 1 ∧ (onPower { cause := 1 }).power.cause ≠ 2 ∧ (onPower { cause := 1 }).power.cause ≠ 3 ∧
    (onPower { cause := 2, onHeld := true }).power.onHeld = true ∧ (onPower { cause := 2 }).power.onHeld = false ∧
    live.power.cascade = false ∧ (onPower { cascade := true, seqIn := true }).power.seqIn = true ∧
    (onPower { cascade := true }).power.seqIn = false := by unfold Heard; and_intros <;> decide +kernel
/-- V2 10 mV below V1, the least step that measures; a bank just holding the reserve. -/
theorem test_wit_holdup : let m := onPower { seq := .on, measuring := true }
    let n := onPower { seq := .on, measuring := true, v1 := some 12000, vmin := 8000 }
    let w := onPower { seq := .on, measured := true, eff := 100, cUc := 8000000000, vmin := 0 }
    m.power.v1 = none ∧ n.power.vmin.toNat < (12000 : BitVec 16).toNat ∧ (11990 : BitVec 16).toNat + 10 ≤ (12000 : BitVec 16).toNat ∧
    w.power.holdFault = false ∧ isArmed w 0x0014 0 = false ∧ (0x02 : BitVec 8).getLsbD 1 = true ∧ (0x02 : BitVec 8).getLsbD 2 = false ∧
    reserveMj w + 1500 * w.write.budget.toNat ≤ bankMj w (12000 : BitVec 16).toNat ∧
    (onPower { seq := .shuttingDown, flushStep := 1 }).host.reqs = [] ∧ (onPower { seq := .shuttingDown, flushStep := 5 }).power.flushStep = 5 := by
  decide +kernel
def aReq (w : Bool) (wait : ReqWait) : Req := ⟨0, 0, 1, 7, w, 0, wait, false, 0⟩
def withReq (r : Req) (s : State) : State := { s with host := { s.host with reqs := [r], nextReq := 1 } }
/-- The flush's first step: only Strict writes left, and a request that is none. -/
theorem test_wit_flush_strict : (∀ r ∈ (withReq (aReq true (.strict [])) live).host.reqs, ∃ n, r.wait = .strict n) ∧
    (∃ r ∈ (withReq (aReq true .media) live).host.reqs, ∀ n, r.wait ≠ .strict n) := by
  refine ⟨fun r h => ⟨_, congrArg Req.wait (List.mem_singleton.1 h)⟩, _, List.mem_singleton.2 rfl, fun n h => by cases h⟩
theorem test_wit_flush_waits : ({ onPower { seq := .shuttingDown, flushStep := 1 } with host := (withReq (aReq true .media) live).host } : State).host.reqs ≠ [] := by
  decide +kernel
def aRec : WbRec := ⟨0x0904, 1, 0, 0, 0, 0, 0, 0, 0, 0, 0, 0, 0, 0⟩
theorem test_wit_waybill : let s : State := { live with wb := { buffer := [⟨aRec, false, false⟩] } }
    let b : State := { live with sb := { live.sb with running := some (.waybill []), queue := [.waybill [1]] } }
    s.start.sillUp = true ∧ unflushed s ≠ [] ∧ s.sb.running = none ∧ s.sb.queue = [] ∧ sbCanStart s = true ∧ unflushed live = [] ∧
    swf 0 ({ live with evt := { buckets := [(1, 3)] } } : State).evt.buckets = true ∧ b.sb.running = some (.waybill []) ∧
    b.sb.queue = [.waybill [1]] ∧ live.wb.lostI + live.wb.lostW + live.wb.lostC = 0 ∧ (0x7FFF : BitVec 16).toNat < 0x8000 ∧ live.power.seq = .on ∧
    5 ≤ live.start.phase.toNat ∧ 3000 ≤ live.sb.vauxMv.toNat ∧ State.reset.sb.vauxMv.toNat < 3000 := by decide +kernel
def phaseAt (p : BitVec 4) : State := { live with start := { live.start with phase := p } }
theorem test_wit_resets : (3000 : BitVec 12).toNat ≥ 3000 ∧ State.reset.start.sillUp = false ∧ live.start.sillUp = true ∧
    2800 ≤ (2800 : BitVec 12).toNat ∧ (2999 : BitVec 12).toNat < 3000 ∧ live.sb.running = none ∧ live.host.mailboxReady = true ∧
    live.host.mgmtReset = false ∧ live.fw.activating = false ∧ ({ live with host := { mgmtReset := true } } : State).host.mgmtReset = true := by decide +kernel
theorem test_wit_start_phases : (selectFw (begin (phaseAt 3))).isSome = true ∧ ((List.range (nChannels (phaseAt 4))).any (inTraining (phaseAt 4)) = false) ∧
    (∀ h < nQuads (phaseAt 4), inService (ownState (phaseAt 4) (uHbm h)) = true) ∧ (phaseAt 5).sec.lowering = 0 ∧ (phaseAt 5).sec.erasing = false ∧
    (phaseAt 6).start.phase = 6 ∧ (phaseAt 7).power.replayLeft = [] ∧ dirtyLlns (phaseAt 7) = [] ∧ (phaseAt 7).span.desc = none ∧
    linesLost (phaseAt 7) = false ∧ (phaseAt 7).start.mapLost = [] ∧ (phaseAt 7).cache.heldWrites = [] := by decide +kernel
def onTherm (t : ThermSt) : State := { live with therm := t }
/-- TG in eighths of a degree: the notice level of 105 °C is 840. -/
theorem test_wit_thermal : domainOn live 0 = true ∧ live.evt.armed = [] ∧ live.therm.sensors.length = 64 ∧ unitPresent live (uSensor 59) = true ∧
    domainOn State.reset 0 = false ∧ noticeLevel live = 840 ∧
    noticeLevel (onTherm { throttle := .notice, tg := 840 }) ≤ tgNow (onTherm { throttle := .notice, tg := 840 }) ∧ live.therm.throttle ≠ .notice ∧
    (onTherm { throttle := .brake, tg := 840, bf := 16 }).therm.bf.toNat ≤ 16 ∧
    ¬ (noticeLevel (onTherm { throttle := .brake, tg := 839, bf := 14 }) ≤ tgNow (onTherm { throttle := .brake, tg := 839, bf := 14 })) ∧
    tgNow (onTherm { throttle := .brake, tg := 815, bf := 15 }) < noticeLevel live - 24 ∧ sensorIn live 24 = true ∧ (sensorOf live 24).broken = false := by
  decide +kernel

/-! ## Hypotheses met: CXL and FM API commands -/

theorem test_wit_taken : Taken (.host 0 1) live false true ∧ Taken .sideband live false true ∧ Taken (.fm 0) live true false ∧
    ldNamed live (.host 0 1) 255 = some 1 ∧ ldNamed live .sideband 63 = some 63 := by and_intros <;> decide +kernel
theorem test_wit_cxl_queries : (0 : BitVec 32).toNat + (4 : BitVec 32).toNat ≤ 4 * (celOf live (.host 0 1)).length ∧
    (ldOf (withLd 1 { tsOffset := some 5 } live) 1).tsOffset = some 5 ∧ (ldOf live 1).tsOffset = none ∧ (ldOf live 1).erase = none ∧
    32 + 128 * ((ldOf live 1).logs.getD 0 []).length ≤ payloadMax (.host 0 1) := by decide +kernel
theorem test_wit_erase : let d : Ld := { erase := some ⟨false, [], []⟩ }
    (ldOf (withLd 1 d live) 1).erase ≠ none ∧ (∃ e ∈ ([⟨7, 0, 0, 0, 0⟩] : List EvRec), e.handle = 7) ∧
    (∀ r ∈ ([] : List EvRec), r.handle ≠ 7) := by and_intros <;> decide +kernel
def onFw (f : FwSt) : State := { live with fw := f }
def aCopy : FwCopy := ⟨1, 0, 1, 0, true, []⟩
/-- A part at the largest image, and at the end of what has come. -/
theorem test_wit_firmware : live.fw.activating = false ∧ live.fw.activateDue = false ∧ live.fw.transferring = false ∧
    ([1, 2, 3] : List Byte).length < 8 ∧ field ([0, 0, 0, 0] ++ bytesOf 4 8388288 : List Byte) 4 4 ≤ 8388288 ∧
    (onFw { transferring := true, staged := List.replicate 128 0 }).fw.transferring = true ∧ 128 * (1 : BitVec 32).toNat = (List.replicate 128 (0 : Byte)).length ∧
    field (List.replicate 128 (0 : Byte) ++ [1]) 4 4 ≤ 8388288 ∧
    ((onFw { areas := [[aCopy], [aCopy]] }).fw.areas.getD (slotArea (onFw { areas := [[aCopy], [aCopy]] }) 2) []).any FwCopy.valid = true ∧
    live.span.desc = none := by and_intros <;> decide +kernel
/-- A package is accepted where its key is fused and its signature verifies: whether one is, is opaque (log entry 11). -/
theorem test_wit_package : let p : List Byte := bytesOf 4 0xBD640F00 ++ bytesOf 4 0 ++ List.replicate 56 0 ++ List.replicate 256 9
    Config.keyFused ((p.drop 64).take 97) = true → Config.verify ((p.drop 64).take 97) ((p.drop 4).take 12 ++ (p.drop 64).take 0) (((p.drop 64).drop 97).take 96) = true →
    fwAccepts live p = true := by
  intro p h1 h2
  have e : field p 4 4 = 0 := by decide +kernel
  simp only [fwAccepts, e, Bool.and_eq_true]
  exact ⟨⟨⟨⟨by decide +kernel, by decide +kernel⟩, h1⟩, h2⟩, by decide +kernel⟩
def ext (f n : Nat) : Extent := ⟨BitVec.ofNat 24 f, BitVec.ofNat 24 n⟩
theorem test_wit_capacity : let held : Ld := { ranges := [⟨4, 2, 9, true⟩], extents := [(4, 2)] }
    let s := withLd 1 held live
    poisonTarget (withLd 1 oneRange live) 1 64 = some (65536 * 5 + 1) ∧ live.sec.pl = 0 ∧ ({ live with sec := { pl := 1 } } : State).sec.pl ≠ 0 ∧
    (withLd 1 { offered := [ext 4 2] } live).host.lds[1]? = some { offered := [ext 4 2] } ∧ extentsHeld held [ext 4 2] = true ∧ extentsHeld held [ext 4 1] = false ∧
    256 < (List.replicate 257 (ext 4 2)).length ∧ (∃ r ∈ (withReq { aReq false .media with lln := 65536 * 9 } s).host.reqs, lfnOf r.lln ∈ extentLfns held [ext 4 2]) ∧
    (∀ r ∈ s.host.reqs, lfnOf r.lln ∉ extentLfns held [ext 4 2]) ∧
    (let v := setLd 1 (fun d => { d with heldRelease := d.heldRelease ++ [(.sideband, [ext 4 2])] }) (begin s)
     (extentLfns held [ext 4 2]).any (zeroPending (emptyAll 0 (extentLfns held [ext 4 2]) v)) = false) := by and_intros <;> decide +kernel
theorem test_wit_fm_sets : 16 < (15 : Fin 16).val + ([1, 1] : List Byte).length ∧ (ext 0 1).count ≠ 0 ∧ live.host.lds[1]? = some (ldOf live 1) ∧
    ((ldOf live 1).logs.getD 4 []).length < 64 ∧ (ldOf live 1).logs.length = 5 := by and_intros <;> decide +kernel
theorem test_wit_fm_capacity : addRefused live 1 (ext 0 1) none = none ∧ poolLfns live 64 ≠ none ∧ poolLfns live 1 = some [0] ∧
    mapRoom live 1 (lfnRuns [0]).length = true ∧ addRefused live 1 (ext 0 0) none = some .invalidInput ∧
    (ldOf live (16 * 0 + 1)).erase = none ∧ 64 * (0 : BitVec 32).toNat = staticFrames (ldOf live 1) ∧ staticFrames (ldOf live 1) < 64 * (1 : BitVec 32).toNat ∧
    (∀ r ∈ (ldOf live 1).ranges, r.dc = false) ∧ (ldOf live 1).offered = [] ∧ assigned live + (64 * 1 - staticFrames (ldOf live 1)) ≤ exportable live ∧
    exportable live < assigned live + (64 * 0xFFFFFFFF - staticFrames (ldOf live 1)) := by and_intros <;> decide +kernel
def withPort (p : Port) : State := { live with host := { live.host with ports := p :: live.host.ports.drop 1 } }
def spdmAt (x : SpdmStage) : State := withPort { up := true, flit256 := true, spdm := x, ideKeys := [(0, 1)] }
/-- A certificate part starts inside the chain: that the chain has a byte is opaque (log entry 11). -/
theorem test_wit_spdm : (portOf live 0).up = true ∧ live.host.mailboxReady = true ∧ live.host.mgmtReset = false ∧ (portOf (spdmAt .version) 0).spdm = .version ∧
    (portOf (spdmAt .caps) 0).spdm = .caps ∧ spdmReady (spdmAt .algs) 0 = true ∧ spdmReady live 0 = false ∧ (List.replicate 96 (0 : Byte)).length = 96 ∧
    (portOf (spdmAt (.handshake 5)) 0).spdm = .handshake 5 ∧ (portOf (spdmAt (.session 5)) 0).spdm = .session 5 ∧ 1 ≤ (1 : Byte).toNat ∧ (3 : Byte).toNat ≤ 3 ∧
    (portOf (spdmAt (.session 5)) 0).flit256 = true ∧ (sfind (portOf (spdmAt (.session 5)) 0).ideKeys (0 : Byte).toNat).isSome = true := by and_intros <;> decide +kernel
theorem test_wit_spdm_none : (∀ x, (portOf (spdmAt .algs) 0).spdm ≠ .session x) ∧
    (0 < Config.certChain.length → ((0 : BitVec 16)).toNat < Config.certChain.length) := by
  refine ⟨fun x h => ?_, fun h => h⟩
  rw [show (portOf (spdmAt .algs) 0).spdm = .algs by decide +kernel] at h; cases h

/-! ## Hypotheses met: host reads and writes, links -/

def mapped : Ld := { ranges := [⟨0, 1, 5, false⟩], credits := 1,
                     decoders := [{ committed := true, base := 0, size := 4194304, ways := 1, gran := 256, pos := 0, dpaBase := 0 }, {}, {}, {}] }
def twin (lln : Nat) : List (Nat × NcWay) := [(16 * ncSet lln, { st := .clean, lln := lln, data := 7, mask := BitVec.allOnes 64 }),
  (16 * ncSet lln + 8, { st := .clean, lln := lln, data := 7, mask := BitVec.allOnes 64 })]
def cached : State := { withLd 1 mapped live with cache := { near := twin 327680 } }
theorem test_wit_mem : takesMem cached 0 1 = true ∧ isArmed cached 0x0019 (uPort 0) = false ∧ backing cached 1 0 = some 327680 ∧ backing cached 1 4194304 = none ∧
    327680 ∉ cached.cache.lost ∧ heldValue cached 327680 = none ∧ ncWays cached 327680 = [16 * ncSet 327680, 16 * ncSet 327680 + 8] ∧ wayGood (ncWay cached (16 * ncSet 327680)) = true ∧
    wayGood (ncWay cached (16 * ncSet 327680 + 8)) = true ∧ (ncWay cached (16 * ncSet 327680)).st ≠ .partial_ ∧
    (ncWay cached (16 * ncSet 327680)).data ≠ poisonLine ∧ (ldOf cached 1).keyLost = false ∧ (∀ r ∈ cached.host.reqs, r.id < cached.host.nextReq) ∧
    0 < (ldOf cached 1).credits ∧ cached.host.lds[1]? = some (ldOf cached 1) ∧ (ldOf cached 1).mode ≠ .strict ∧
    ({ cached with write := { through := false } } : State).write.through = false ∧
    (∀ a ∈ cached.evt.armed, a.point ≠ 0x0001 ∧ a.point ≠ 0x0002) ∧ ncSet 1 ≠ ncSet 0 := by and_intros <;> decide +kernel
def braked : State := { cached with therm := { throttle := .brake, bf := 8 } }
/-- A read request held back: under the brake the draw decides; else it is let through. -/
theorem test_wit_read_held : (∃ t, readHeld 0 1 (begin cached) = (false, t)) ∧ cached.therm.throttle ≠ .brake ∧ qosOver cached 0 1 = false ∧
    qosContended cached 0 1 = false ∧ takesMem braked 0 1 = true ∧ (Config.freeBool 0 = true → ∃ t, readHeld 0 1 (begin braked) = (true, t)) := by
  refine ⟨⟨_, rfl⟩, by decide +kernel, by decide +kernel, by decide +kernel, by decide +kernel, fun h => ⟨{ begin braked with free := 1 }, ?_⟩⟩
  unfold readHeld brakeHolds
  rw [if_pos (by decide +kernel)]
  simp only [drawBool, show (begin braked).free = 0 from rfl, h, if_true]
theorem test_wit_flush_listed : flushListed (onPower { seq := .shuttingDown, flushStep := 2 }) = true ∧
    flushListed (onPower { seq := .shuttingDown, flushStep := 1 }) = false ∧ flushListed cached = false := by and_intros <;> decide +kernel
/-- What withholds a write credit: a full budget, the hold, a lowering, an exposure, a limit reached. -/
theorem test_wit_withheld : budgetRoom { live with write := { through := false } } = false ∧
    ({ live with host := { live.host with creditsHeld := true } } : State).host.creditsHeld = true ∧ (ldOf (withLd 1 { exposedOut := [(0, 1)] } live) 1).exposedOut ≠ [] ∧
    (let s := withLd 1 { qosLimit := 1, credits := 255 } { live with write := { live.write with lvlTherm := 2 } }
     qosOver s 0 1 = true ∧ qosContended s 0 1 = false) := by and_intros <;> decide +kernel
theorem test_wit_strict_through : let s : State := { withReq (aReq true (.strict [(0, 1)])) live with
      write := { through := true }, cache := { dirty := [(0, ⟨none, false, false, false, 0, BitVec.allOnes 64, 0⟩)] } }
    s.write.through = true ∧ isDirty s 0 = true ∧ isDirty live 0 = false := by and_intros <;> decide +kernel
theorem test_wit_credits : budgetRoom live = true ∧ live.host.creditsHeld = false ∧ live.sec.lowering = 0 ∧ (ldOf live 1).exposedOut = [] ∧ (ldOf live 1).mode = .loc ∧
    live.therm.throttle ≠ .brake ∧ qosOver live 0 1 = false ∧ qosContended live 0 1 = false ∧ patchFill live + 1 ≤ 2 ^ 27 - 2 ^ 20 ∧ budgetRoom { live with write := { through := false } } = false ∧
    streamRoom live = true := by and_intros <;> decide +kernel
/-- The 256th credit of write-through is the last. -/
theorem test_wit_credit_bound : budgetRoom (withLd 1 { credits := 255 } live) = true ∧ budgetRoom (withLd 1 { credits := 256 } live) = false := by
  and_intros <;> decide +kernel
theorem test_wit_strict : let q := aReq true (.strict [(0, 1)])
    let s := { withReq q live with write := { through := false } }
    q ∈ s.host.reqs ∧ q.write = true ∧ q.port = 0 ∧ q.ld = 16 * 0 + 1 ∧ q.tag = 7 ∧ (∃ rs, q.wait = .strict rs) ∧
    (∀ r ∈ s.host.reqs, r.write = true → r.port = 0 → r.ld = 16 * 0 + 1 → r.tag = 7 → r = q) ∧ s.write.through = false := by
  refine ⟨?_, ?_, ?_, ?_, ?_, ⟨_, rfl⟩, ?_, ?_⟩ <;> decide +kernel
def streaming : State := { withLd 1 { oneRange with mode := .relaxed } live with
  span := { streams := [⟨1, 0, 0, [(1, ⟨327680, 0, BitVec.allOnes 64, 0⟩)], 0, [], 0, 0, false, 0⟩], outr := [1] } }
theorem test_wit_relaxed : isUnacked streaming 0 1 = true ∧ (0, 1) ∉ streaming.write.relaxedStall ∧ recordLd streaming 0 1 = some 1 ∧
    streaming.host.lds[1]? = some (ldOf streaming 1) := by and_intros <;> decide +kernel
theorem test_wit_links : live.host.ports.length = 4 ∧ live.host.lds.length = 64 ∧ (3 : Fin 4).val / 2 = (1 : Fin 2).val ∧ portPresent live 3 = true ∧
    (portOf live 3).perst = false ∧ (portOf live 3).refclk = true ∧ domainOn live 2 = true ∧ inService (ownState live (uPort 3)) = true ∧ (portOf live 3).up = true ∧
    (portOf (withPort { ideActive := true }) 0).ideActive = true ∧ ldExists live 63 = true ∧ decoderOk 16 16384 = true ∧ decoderOk 3 256 = false ∧
    (portOf live 3).flit256 = true ∧ (ldOf live 63).decoders.length = 4 := by and_intros <;> decide +kernel
/-- A link that trains at the full width of its port, and none wider; a port that waits for its link to be readmitted. -/
theorem test_wit_link_up : 1 ≤ (1 : BitVec 8).toNat ∧ (8 : BitVec 8).toNat ≤ portWidth live 3 ∧ ¬ ((9 : BitVec 8).toNat ≤ portWidth live 3) ∧
    (64 : BitVec 8).toNat ∈ [8, 16, 32, 64] ∧ (16 : BitVec 8).toNat ∈ [8, 16, 32, 64] ∧ (10 : BitVec 8).toNat ∉ [8, 16, 32, 64] ∧
    (let j : Job := ⟨1, 0xC105, .sideband, .unitReadmit (BitVec.ofNat 24 (uPort 3)), 0, false, 0, 0⟩
     readmitJob { live with unit := { units := [(uPort 3, { st := .isolated })], running := [j] } } (uPort 3)).isSome = true := by and_intros <;> decide +kernel

/-! ## Hypotheses met: the media stacks and channels -/

def taking : Stack := { powered := true, mreset := true, accepting := true }
def bank0 (b : BankSt) : State := { live with media := { stack := [(0, taking)], banks := [(0, b)] } }
def anOp (clear fast : Bool) : BankOp := ⟨clear, fast, 0, 0, 3, [], 0, 0, false⟩
theorem test_wit_accepted : ∀ op ∈ [0x01, 0x02, 0x03, 0x10, 0x11, 0x12, 0x13, 0x14, 0x20, 0x21, 0x22, 0x30, 0x31, 0x32, 0x33, 0x34, 0x35, 0x38, 0x40, 0x41, 0x42, 0x43,
    0x7F, 0x55], Accepted (bank0 {}) 0 op (mkPkt op 0 0 0 0 3 0) := by unfold Accepted; decide +kernel
theorem test_wit_reads : readNow .clearSuspended = some true ∧ readNow .suspending = some false ∧ readNow .clearing = none ∧
    (bankOf (bank0 { st := .programming }) 0).st = .programming ∧ (bankOf (bank0 { st := .finishing }) 0).st = .finishing ∧
    (bankOf (bank0 { st := .progSuspended, running := [⟨1, 0, 0, 0, 0, []⟩] }) 0).running ≠ [] ∧
    (bankOf (bank0 { st := .clearSuspended }) 0).resumeDue = false ∧
    (bankOf (bank0 { st := .suspending, op := some (anOp true false) }) (bankKey 0 0 0)).op = some (anOp true false) ∧
    runningRead (bank0 { running := [⟨1, 0, 0, 0, 0, []⟩] }) 0 1 = some (0, 0, ⟨1, 0, 0, 0, 0, []⟩) ∧
    lineAt (bank0 { running := [⟨1, 0, 0, 0, 0, []⟩] }) 0 0 0 0 0 = .data erasedLine := by and_intros <;> decide +kernel
/-- The last read running of a bank with a RESUME due, and one of two; a die that resets. -/
theorem test_wit_read_ends : let r : StackRead := ⟨1, 0, 0, 0, 0, []⟩
    let b := bank0 { st := .progSuspended, resumeDue := true, running := [r] }
    runningRead b 0 1 = some (0, 0, r) ∧ dieResets b 0 0 = false ∧ (bankOf b 0).resumeDue = true ∧ (bankOf b 0).running.filter (fun y => y.tag != 1) = [] ∧
    (bankOf (bank0 { st := .clearSuspended, resumeDue := true, running := [r] }) 0).st = .clearSuspended ∧
    (bankOf (bank0 { resumeDue := true, running := [r, ⟨2, 0, 0, 0, 0, []⟩] }) 0).running.filter (fun y => y.tag != 1) ≠ [] ∧
    lineAt (bank0 { running := [r] }) 0 0 0 0 0 = .data erasedLine := by and_intros <;> decide +kernel
/-- The 40th burst is the last: index 39. -/
theorem test_wit_programs : let b39 : SMap (BitVec 1024) := (List.range 39).map (fun i => (i, 0))
    let p := mkPkt 0x11 0 0 0 0 3 39
    stampTakes (bank0 {}) (blockKey 0 0 0 0) false = true ∧ stampTakes (bank0 {}) (blockKey 0 0 7 0) true = true ∧
    stampTakes (bank0 {}) (blockKey 0 0 0 0) true = false ∧ Accepted (bank0 {}) 0 0x11 p ∧ p.arg.toNat % 64 < 40 ∧ (sput [] 39 (0 : BitVec 1024)).length < 40 ∧
    40 ≤ (sput b39 39 (0 : BitVec 1024)).length ∧ (bankOf (bank0 { st := .held, op := some (anOp false true) }) 0).op = some (anOp false true) ∧
    (anOp false true).clear = false ∧ (bankOf (bank0 { st := .loading, op := some (anOp false false) }) 0).st = .loading := by
  unfold Accepted; and_intros <;> decide +kernel
theorem test_wit_stack_ends : (bankOf (bank0 { st := .finishing, op := some (anOp false true) }) (bankKey 0 0 0)).op = some (anOp false true) ∧
    (anOp false true).fast = true ∧ (anOp false true).mode = false ∧ ({ anOp false true with mode := true } : BankOp).mode = true ∧ (bankOf (bank0 { st := .held }) 0).st = .held ∧ (bankOf (bank0 { st := .finishing }) 0).suspNoopDue = false ∧ (∀ a ∈ (bank0 {}).evt.armed, a.point ≠ 0x0007) ∧
    (bankOf (bank0 { st := .clearing, op := some (anOp true false) }) 0).st = .clearing ∧ (anOp true false).clear = true := by and_intros <;> decide +kernel
def stack0 (x : Stack) : State := { live with media := { stack := [(0, x)] } }
def aFrame : RetFrame := { kind := 1, tag := 3, die := 0, bank := 0, bstate := 0, hcrc := 0, payload := 0 }
theorem test_wit_stack_info : (mkPkt 0x34 0 0 0 0 3 4).arg.toNat = 4 ∧ (stackOf (stack0 { taking with pendInfo := [aFrame] }) 0).pendInfo.find? (fun f => f.tag == 3) = some aFrame ∧
    (stackOf (stack0 { taking with ready := [aFrame] }) 0).ready = [aFrame] ∧ (stackOf (stack0 taking) 0).ready = [] ∧
    (stackOf (stack0 { taking with last := some aFrame }) 0).last = some aFrame ∧ (mkPkt 0x38 0 0 0 0 3 1).arg.getLsbD 0 = true ∧
    (mkPkt 0x38 0 0 0 0 3 0).arg.getLsbD 0 = false := by and_intros <;> decide +kernel
theorem test_wit_stack_settings : (mkPkt 0x35 0 0 0 1 3 1).arg = 1 ∧ Accepted (stack0 taking) 0 0x35 (mkPkt 0x35 0 0 0 1 3 1) ∧ Accepted (stack0 taking) 0 0x35 (mkPkt 0x35 0 0 0 1 3 4) ∧
    (stackOf (stack0 { taking with zqReady := true }) 0).zqReady = true ∧ 0 ∉ (stackOf (stack0 taking) 0).resetting ∧ knownOp 0x55 = false ∧
    (stackOf (stack0 { taking with zqRunning := true }) 0).zqRunning = true ∧ (stackOf (stack0 { powered := true, mreset := true }) 0).accepting = false ∧
    15 ∈ (stackOf (stack0 { taking with resetting := [15] }) 0).resetting := by unfold Accepted; and_intros <;> decide +kernel
theorem test_wit_spoiled : let p := mkPkt 0x01 0 0 0 0 3 0
    takesPackets (stack0 taking) 0 = true ∧ p.cs ≠ 3 ∧ isArmed (stack0 taking) 0x0008 (0x200000 + 0) = false ∧ (stackOf (stack0 taking) 0).catrain = false ∧
    pktXor 0x01 { p with chk := p.chk + 1 } ≠ ({ p with chk := p.chk + 1 } : Pkt).chk.toNat ∧ selectBad 0x01 { p with cs := 0 } = true ∧ selectBad 0x7F { p with cs := 0 } = true ∧
    (cartOf live 0).repeatDue = false ∧ isArmed live 0x0009 (uChannel 0) = false := by and_intros <;> decide +kernel
def hdrOf (kind : Nat) : FrameHdr := { tag := 3, die := 0, bank := 0, bstate := 0, hcrc := BitVec.ofNat 8 (crc8 (hdrNums kind ⟨3, 0, 0, 0, 0⟩)) }
def blank : BitVec 128 := BitVec.ofNat 128 (crc16 (List.replicate 14 0) * 2 ^ 112)
def cart0 (c : Carter) : State := { live with media := { carters := [(0, c)] } }
def aRead (p : RPurpose) (host : Bool) : CRead := ⟨0, 0, 0, 0, host, 0, 0, 0, p, 0, false⟩
def aProg (p : PPurpose) (ph : PPhase) : CProg := ⟨0, 0, 0, 0, false, false, false, [], p, ph, 3, 0⟩
theorem test_wit_good_frames : (∀ k < 5, crc8 (hdrNums k (hdrOf k)) = (hdrOf k).hcrc.toNat) ∧ payOk blank = true ∧ GoodFrame live 0 0 (hdrOf 0) true ∧
    GoodFrame live 0 1 (hdrOf 1) (payOk blank) ∧ GoodFrame live 0 3 (hdrOf 3) true ∧ GoodFrame live 0 4 (hdrOf 4) true ∧ (cartOf live 0).trainStep ≠ 9 ∧ GoodFrame live 0 2 (hdrOf 2) (payOk blank) ∧ crc8 (hdrNums 0 { hdrOf 0 with hcrc := (hdrOf 0).hcrc + 1 }) ≠ ((hdrOf 0).hcrc + 1).toNat := by
  unfold GoodFrame; and_intros <;> decide +kernel
theorem test_wit_frames : let q := aRead (.rd 0 0) true
    outRead live 0 3 = none ∧ outRead (cart0 { outst := [(3, q)] }) 0 (hdrOf 0).tag = some q ∧ isArmed live 0x0015 (uDie (dieKey 0 q.die)) = false ∧
    bchDecode 0 = some (0, 0) ∧ bchDecode (BitVec.ofNat 640 (0x104d3f9b412624870b9b662b93 * 2 ^ 528)) = none ∧
    (cartOf (cart0 { raws := [(3, 2)] }) 0).raws.find? (fun r => r.1 == 3) = some (3, 2 + 16 * 0) ∧
    64 ≤ 5 * (13 : Byte).toNat ∧ 5 * (12 : Byte).toNat < 64 ∧ (cartOf (cart0 { raws := [(3, 6)], trainStep := 7 }) 0).trainRetry = false ∧
    malertLow (stack0 { taking with ready := [aFrame] }) 0 = true ∧ malertLow live 0 = false ∧ (cartOf (cart0 { emptyRun := 14 }) 0).emptyRun < 15 ∧
    (cartOf (cart0 { emptyRun := 15 }) 0).emptyRun = 15 ∧ (cartOf (cart0 { trainStep := 9 }) 0).trainStep = 9 := by and_intros <;> decide +kernel
theorem test_wit_events : (∀ pp ∈ [PPurpose.drain 0, .page 0 0 0, .clear 0 0, .fill 0 0],
      runningProg (cart0 { running := [aProg pp .busy] }) 0 3 = some (aProg pp .busy) ∧ opAt (cart0 { running := [aProg pp .held] }) 0 0 0 = some (aProg pp .held)) ∧
    runningProg live 0 3 = none ∧ opAt live 0 0 0 = none ∧ outRead (cart0 { outst := [(3, aRead (.rd 0 0) true)] }) 0 3 = some (aRead (.rd 0 0) true) ∧
    outRead (cart0 { outst := [(3, aRead (.readback 0 0 0) false)] }) 0 3 = some (aRead (.readback 0 0 0) false) ∧
    ((cartOf (cart0 { caTimes := [0] }) 0).caTimes.filter (fun t => Nat.ble (live.time.ftime.toNat - t.toNat) 1000000)).length < 2 ∧
    sfind (cartOf live 0).faultAt 0 = none := by and_intros <;> decide +kernel
theorem test_wit_channel_timers : (aProg (.drain 0) .held).phase = .held ∧
    ((cartOf (cart0 { reads := [aRead (.rd 0 0) true] }) 0).reads.filter (fun r => r.host && r.die == 0 && r.bank == 0)) = [aRead (.rd 0 0) true] ∧
    ((cartOf live 0).reads.filter (fun r => r.host && r.die == 0 && r.bank == 0)) = [] ∧ inTraining (cart0 { trainStep := 2 }) 0 = true ∧ inTraining live 0 = false ∧
    (cartOf (cart0 { trained := true }) 0).trained = true ∧ (cartOf live 0).raws.find? (fun r => r.1 == 3) = none := by and_intros <;> decide +kernel

/-! ## Hypotheses met: units, frames, spans -/

def withUnit (u : Nat) (st : UState) (s : State) : State := { s with unit := { s.unit with units := [(u, { st := st })] } }
def unitsOk (o : UnitOp) (destr : Bool) (u : Nat) (s : State) : Bool :=
  (unitEarly o destr u (begin s)).isNone && (unitLate o destr .sideband u (begin s)).isNone
theorem test_wit_unit_commands : Heard .sideband (unitBytes (uSensor 0)) live false false true false 4 ∧ unitsOk .test false (uEngine 0) live = true ∧
    5 ≤ (unitBytes 0 ++ [0]).length ∧ field (unitBytes 0 ++ [0]) 4 1 = b2n false ∧ unitsOk .test true (uPort 1) (withUnit (uPort 1) .isolated live) = true ∧
    unitsOk .bypass false (uBank 0) live = true ∧ unitsOk .isolate false (uQueue 63) live = true ∧
    unitsOk .readmit false (uQueue 63) (withUnit (uQueue 63) .isolated live) = true ∧ uClass (uQueue 63) ≠ 8 ∧
    (let s := withUnit (uRail 5) .isolated (onPower { live.power with seq := .shuttingDown }); unitsOk .readmit false (uRail 5) s = true ∧
      uClass (uRail 5) = 8 ∧ cmdUp s = true) ∧ unitsOk .retire false (uQueue 63) (withUnit (uQueue 63) .isolated live) = true := by
  and_intros <;> decide +kernel
def jobOf (k : JobKind) : Job := ⟨1, 0xC102, .sideband, k, 0, false, 0, 0⟩
def withJob (k : JobKind) : State := { live with unit := { running := [jobOf k] } }
theorem test_wit_unit_rows : (∀ k ∈ [JobKind.unitTest 0 true .ready, .unitBypass (BitVec.ofNat 24 (uSensor 0)), .unitIsolate (BitVec.ofNat 24 (uQueue 63)),
      .unitRetire (BitVec.ofNat 24 (uQueue 63)), .unitReadmit (BitVec.ofNat 24 (uQueue 63)), .spanJoin, .keyTransfer 0 0],
      (withJob k).unit.running.find? (fun j => j.id == 1) = some (jobOf k)) ∧
    isPlanned (uSensor 0) = false ∧ isPlanned (uQueue 63) = false ∧ uClass (uQueue 63) ∈ [5, 7, 9] ∧ uClass (uQueue 63) ≠ 8 ∧
    live.unit.running.find? (fun j => j.id == 1) = none ∧
    ({ live with tt := { removals := [⟨0x200000, some 1, false, false⟩] } } : State).tt.removals.any (fun r => r.job == some 1 && !r.admitted) = true ∧
    live.tt.removals.any (fun r => r.job == some 1 && !r.admitted) = false ∧ idleFree live (uEngine 0) = true ∧ unitPresent live (uEngine 0) = true ∧
    ownState live (uEngine 0) = .ready ∧ ownState (withUnit (uEngine 0) .idle live) (uEngine 0) ≠ .ready := by and_intros <;> decide +kernel
def frameBytes1 (op : Byte) : List Byte := [1, op, 0, 0] ++ bytesOf 4 0 ++ bytesOf 4 1
def framed1 (mode : Nat) : State := { withLd 1 oneRange live with xlat := { ft := [(5, ftMake 3 0 mode false false false)] } }
theorem test_wit_frame_commands : Heard .sideband (frameBytes1 1) (framed1 mDense) true false false false 12 ∧ inputLfn (framed1 mDense) .sideband (frameBytes1 1) = some 5 ∧
    framesReady (framed1 mDense) = true ∧ (framed1 mDense).xlat.restoring.contains 5 = false ∧ pinJob (framed1 mDense) 5 = none ∧ (frameIn (frameBytes1 0)).op = 0 ∧ (frameIn (frameBytes1 1)).op = 1 ∧
    ftMode (ftEntry (framed1 mDense) 5) = mDense ∧ ftMode (ftEntry (framed1 mFast) 5) = mFast ∧
    (framed1 mDense).xlat.fastResMin.toNat < freeSets (framed1 mDense) := by and_intros <;> decide +kernel
def discardBytes : List Byte := [1, 1, 0, 0] ++ bytesOf 8 0 ++ bytesOf 8 65536
def desc3 (sgen : Nat) : SpanDesc := { span := 1, k := 2, m := 1, f := 2, members := [0, 1, 2] ++ List.replicate 13 0xFFFF, sgen := BitVec.ofNat 48 sgen }
def pool3 (role : Nat) : SMap PoolEntry := (List.range 3).map (fun i => (i, ⟨BitVec.ofNat 12 (0x100 + i), 1, BitVec.ofNat 8 (i + 16 * (if i = 0 then role else 1)), 5, 0⟩))
def peers3 (own : Nat) : List Peer := ({ st := BitVec.ofNat 3 own } : Peer) :: (List.replicate 2 ({ st := 2 } : Peer) ++ List.replicate 13 ({} : Peer))
def spanSt (own : Nat) : SpanSt := { pool := pool3 1, selfIdx := some 0, desc := some (desc3 1), own := 0, spanState := 2, peers := peers3 own, outr := [1] }
def member (own : Nat) : State := { live with span := spanSt own }
theorem test_wit_discard : Heard .sideband discardBytes (framed1 mDense) true false false false 4 ∧ discardEarly .sideband discardBytes (begin (framed1 mDense)) = none ∧
    ldNamed (framed1 mDense) .sideband (field discardBytes 0 1) = some 1 ∧ discardLfns (begin (framed1 mDense)) 1 (discardRanges discardBytes) = [5] ∧
    ([5].any (zeroPending ([5].foldl (fun s l => emptyFrame l mDiscarded s) (begin (framed1 mDense)))) = false) ∧
    ([5].any (zeroPending ([5].foldl (fun s l => emptyFrame l mDiscarded s) (begin { framed1 mDense with span := spanSt 2 }))) = true) := by and_intros <;> decide +kernel
theorem test_wit_caches : Heard .sideband (frameBytes1 2) (framed1 mDense) true false false false 12 ∧ cacheEarly .sideband (frameBytes1 2) (begin (framed1 mDense)) = none ∧
    cacheLate .sideband (frameBytes1 2) (begin (framed1 mDense)) = none ∧ cacheScope (begin (framed1 mDense)) .sideband (frameIn (frameBytes1 2)) = some [(5, 1)] := by
  and_intros <;> decide +kernel
def descBytes3 (sgen : Nat) : List Byte := bytesOf 4 0xBD6405A0 ++ [1, 2, 1, 2] ++ [0, 0, 1, 0, 2, 0] ++ List.replicate 26 0xFF ++ bytesOf 6 sgen ++ List.replicate 14 0
def alone (role : Nat) : State := { live with span := { pool := pool3 role, selfIdx := some 0 } }
theorem test_wit_span_join : Heard .sideband (descBytes3 1) (alone 1) false false false true 60 ∧ descEarly (descBytes3 1) (alone 1) = none ∧ spanJob (alone 1) = none ∧
    (alone 1).span.desc = none ∧ ownRole (alone 1) = 1 ∧ placeIn (alone 1) (descIn (descBytes3 1)) = some 0 ∧ storedSgen (alone 1) < (descIn (descBytes3 1)).sgen.toNat ∧
    framesReady (alone 1) = true ∧ parityFree (alone 1) (descIn (descBytes3 1)) 0 = true ∧ sbCanStart (alone 1) = true := by and_intros <;> decide +kernel
theorem test_wit_span_update : Heard .sideband (descBytes3 2) (member 2) false false false true 60 ∧ (member 2).span.desc = some (desc3 1) ∧
    (descIn (descBytes3 2)).span = (desc3 1).span ∧ (descIn (descBytes3 2)).k = (desc3 1).k ∧ (descIn (descBytes3 2)).m = (desc3 1).m ∧
    (descIn (descBytes3 2)).f = (desc3 1).f ∧ (desc3 1).sgen.toNat < (descIn (descBytes3 2)).sgen.toNat ∧
    placeIn (member 2) (descIn (descBytes3 2)) = some (ownIndex (member 2)) := by and_intros <;> decide +kernel
theorem test_wit_remount : Heard .sideband (descBytes3 1 ++ [0]) (alone 3) false false false true 61 ∧ field (descBytes3 1 ++ [0]) 60 1 = 0 ∧ ownRole (alone 3) = 3 ∧
    (∀ e ∈ (alone 3).xlat.ft, ftMode e.2 = mUnmapped) ∧ placeIn (alone 3) (descIn (descBytes3 1)) = some 0 ∧
    0 < ((descIn (descBytes3 1)).k + (descIn (descBytes3 1)).m).toNat := by and_intros <;> decide +kernel
def aWard (keys : SMap (List Byte)) (recs : SMap FRecord) : Ward := { pool := 1, bseq := 4, chain := 0, records := recs, maps := [], keys := keys, topRnum := 9 }
def warded (keys : SMap (List Byte)) (recs : SMap FRecord) : State := { live with span := { spanSt 2 with wards := [aWard keys recs] } }
theorem test_wit_span_leave : ({ live with span := { spanState := 1 } } : State).span.spanState = 1 ∧ (member 4).span.desc.isSome = true ∧
    (peerOf (member 4) (ownIndex (member 4))).st.toNat = psUnhitched ∧ Heard .sideband [1] (member 2) false false false true 1 ∧
    (peerOf (member 2) (ownIndex (member 2))).st.toNat = psLive ∧ (peerOf (member 1) (ownIndex (member 1))).st.toNat = psJoining ∧
    Heard .sideband [1, 0, 1, 0] (member 2) false false false true 4 ∧
    holdsKeyFor { warded [(1, [0])] [] with span := { (warded [(1, [0])] []).span with peers := [{ st := 2 }, { st := 5 }, { st := 2 }] } } 1 1 = true := by
  and_intros <;> decide +kernel

/-! ## Hypotheses met: mailboxes, registers -/

/-- A doorbell rung with a whole message in the mailbox, and one with none. -/
theorem test_wit_doorbell : let s := setCmb 0 0 (fun c => { c with go := true, data := (1 + 15 * 2 ^ 16) :: c.data.drop 1 }) (stack0 taking)
    (cmbOf s 0 0).go = true ∧ cmbWord s 0 0 0 % 2 ^ 16 = 1 ∧ cmbCount s 0 0 ≤ 15 ∧ (cmbOf live 0 0).go = false := by and_intros <;> decide +kernel

def pl1 : State := { live with sec := { pl := 1 } }
theorem test_wit_mailboxes : let s := stack0 taking
    mbBlocked s 4 (uChannel 0) = none ∧ mbBlocked s 5 (uQuad 3) = none ∧ (∃ o, mbBlocked pl1 4 (uQuad 0) = some o) ∧ (cmbOf s 0 0).go = false ∧
    (List.replicate 15 (0 : Word)).length = (15 : Byte).toNat ∧ isDown (reportedState (wakeUnit (uChannel 0) (begin s)) (uDie (dieKey 0 15))) = false ∧ takesPackets s 0 = true ∧
    dieResult (wakeUnit (uChannel 0) (begin s)) 0 15 7 = 0 ∧ 0x30 ≤ (0x34 : Word).toNat % 256 ∧ bits (6143 * 2 ^ 7) 7 13 < 6144 ∧ 65599 % 2 ^ 17 < 65600 ∧
    ((setCmb 0 0 (fun c => { c with go := true }) s).unit.cmb ≠ []) ∧ (cmbOf (setCmb 0 0 (fun c => { c with go := true }) s) 0 0).go = true ∧
    (qmbOf s 4 3).reqFull = false ∧ 4 < (5 : BitVec 16).toNat ∧ mbUnit 0 = none ∧ (∃ u, mbUnit 0x100000 = some u) := by
  refine ⟨?_, ?_, ⟨_, rfl⟩, ?_, ?_, ?_, ?_, ?_, ?_, ?_, ?_, ?_, ?_, ?_, ?_, ?_, ⟨_, rfl⟩⟩ <;> decide +kernel
theorem test_wit_registers : hasWindow live 0 = true ∧ hasWindow State.reset 0 = false ∧ isRegister live 0x001020 = true ∧ isRegister live 0x000FFC = false ∧
    injectClosed pl1 0x070000 = true ∧ injectClosed live 0x070000 = false ∧ (0xFFFFF8 : BitVec 24).toNat + 4 < 2 ^ 24 ∧ (0x0E : Byte) &&& 0x0F ≠ 0x0F ∧
    (0x0E : Byte) &&& 0xF0 = 0 ∧ live.sec.pl = 0 ∧ pl1.sec.pl ≠ 0 := by and_intros <;> decide +kernel

/-! ## Hypotheses met: peers, rebuilds, the stage boundary -/

def from1 : MsgHdr := ⟨0x101, 1, true, 1, 0, 1, 0, 0, 64, 0⟩
theorem test_wit_peers : hasSpan { live with variant := .l1 } = false ∧ senderOf live 0x101 = none ∧ senderOf (member 2) 0x101 = some 1 ∧
    from1.mseq.toNat ≤ (if from1.ring then (peerOf { (member 2) with span := { spanSt 2 with peers := List.replicate 16 { gotData := 1 } } } 1).gotData else 0).toNat ∧
    from1.crc ≠ msgCrc from1 (.patchRelease 0 []) ∧ ([] : List Word).length ≠ 64 := by and_intros <;> decide +kernel
theorem test_wit_received : Received (member 2) from1 1 ∧ Received (warded [] []) from1 1 ∧ streamTo (member 2) 1 = some 0 ∧ streamTo (member 2) 2 = none := by
  unfold Received; and_intros <;> decide +kernel
def aBatch (bseq : Nat) (chain : BitVec 32) : Batch := ⟨1, 0, BitVec.ofNat 48 bseq, 0, [⟨65536, 0, BitVec.allOnes 64, 0⟩], chain⟩
def hdrBytes : List Byte := headerBytes 1 from1.span.toNat from1.ring from1.src.toNat from1.dst.toNat from1.mseq from1.ackto from1.ftime from1.len.toNat
/-- The batch after the last one, with its CHAIN; one seen before; one that skips. -/
theorem test_wit_batches : let t := consumed 1 from1 (warded [] [])
    wardPool t 1 = 1 ∧ wardOf (addWard 1 t) 1 = some (aWard [] []) ∧ (aBatch 4 0).bseq.toNat ≤ (4 : BitVec 48).toNat ∧ (4 : BitVec 48).toNat < (aBatch 6 0).bseq.toNat ∧
    (aBatch 6 0).bseq ≠ 4 + 1 ∧ streamBegins (aWard [] []) hdrBytes (aBatch 4 0) = false := by and_intros <;> decide +kernel
/-- A stream begun anew: BSEQ 1 after BSEQ 4, its records after those held, its CHAIN after 0. -/
theorem test_wit_stream_begins : let b := { aBatch 1 (batchChain hdrBytes { aBatch 1 0 with firstRnum := 10 } 0) with firstRnum := 10 }
    streamBegins (aWard [] []) hdrBytes b = true := by
  unfold streamBegins
  simp only [aBatch, batchChain, Bool.and_eq_true]
  exact ⟨⟨⟨by decide +kernel, by decide +kernel⟩, by decide +kernel⟩, beq_self_eq_true _⟩
theorem test_wit_batch_chain : let b := aBatch 5 (batchChain hdrBytes (aBatch 5 0) 0)
    b.bseq = 4 + 1 ∧ (4 : BitVec 48).toNat < b.bseq.toNat ∧ batchChain hdrBytes b 0 = b.chain := by
  refine ⟨rfl, by decide, ?_⟩
  simp only [aBatch, batchChain]
theorem test_wit_heartbeat_loss : (15 : Fin 16).val ≥ spanN (member 2) ∧ (2 : Fin 16).val < spanN (member 2) ∧ (2 : Fin 16).val ≠ ownIndex (member 2) ∧
    (peerOf (member 2) 2).st.toNat ≠ 0 ∧ (peerOf (member 2) 2).st.toNat ≠ psLost ∧ (peerOf (member 2) 2).st.toNat ≠ psUnhitched ∧
    (member 2).span.desc.isSome = true ∧ (member 2).host.unhitched = false := by and_intros <;> decide +kernel
def holding (staged committed admitter : Bool) : Holding := ⟨0, 1, 0, 5, admitter, [], staged, committed⟩
def holds (hs : List Holding) : State := { member 2 with span := { spanSt 2 with holdings := hs } }
def at1 (s : State) : State := consumed 1 from1 s
theorem test_wit_holder : holderPos (at1 (holds [])) 0 ≠ none ∧ holderPos (at1 (holds [])) 1 = none ∧ isAdmitter (at1 (holds [])) 0 = true ∧
    holdingFor (at1 (holds [holding false false true])) 1 0 5 = some (holding false false true) ∧ (∀ x ∈ (at1 (holds [])).span.holdings, x.lfn ≠ 0) ∧
    (∀ w ∈ (at1 (holds [])).span.waitAdmit, w.1 ≠ 0) ∧ (∃ x ∈ (at1 (holds [{ holding false false true with member := 2 }])).span.holdings, x.lfn = 0) ∧
    (∀ x ∈ (at1 (holds [{ holding false false true with member := 2 }])).span.holdings, x.lfn = 0 → x.member ≠ 1) ∧
    (List.replicate 1024 (0 : Line)).length = 1024 ∧ (sput ([] : SMap (List Line)) 63 []).length < 64 ∧
    holdingFor (at1 (holds [holding true false true])) 1 0 5 = some (holding true false true) ∧ holdingFor (at1 (holds [])) 1 0 5 = none ∧
    holdingFor (at1 (holds [holding true true false])) 1 0 5 = some (holding true true false) ∧ stagedSlot (at1 (holds [])) 0 = none := by and_intros <;> decide +kernel
def aSlot (lfn : Nat) (src : FoldSrc) (ph : DeltaPhase) : FoldSlot := ⟨lfn, src, 0, 0, [], [], [], ph, [], [], false⟩
def folding (sl : FoldSlot) : State := { member 2 with mm := { batches := [⟨3, [sl], [], 0, [], false, 5, []⟩] } }
def rebuilding (m : SMap (List (Nat × BitVec 48))) : State := { member 2 with span := { spanSt 2 with rebuildSnap := m } }
theorem test_wit_staged : (stagedSlot (at1 (folding (aSlot 0 (.parity true) .admitted))) 0).isSome = true := by decide +kernel
theorem test_wit_deltas : let v := fun s => reportLive 1 0 (at1 s)
    ownSlot (v (folding (aSlot 1 .direct .requested))) 1 5 = some (3, aSlot 1 .direct .requested) ∧ (aSlot 1 .direct .admitted).phase ≠ .requested ∧
    ownSlot (v (member 2)) 1 5 = none ∧ parityLfn (v (member 2)) 1 = false ∧ parityLfn (v (member 2)) 0 = true ∧
    sfind (v (rebuilding [])).span.rebuildSnap 0 = none ∧ sfind (v (rebuilding [(0, [])])).span.rebuildSnap 0 = some [] := by and_intros <;> decide +kernel
def aReadOf (rid : Option Nat) : SpanRead := ⟨6, rid, 65536, 1, true, false, false, [], [1], [], [], none, []⟩
def reading (rid : Option Nat) : State := { member 2 with span := { spanSt 2 with reads := [aReadOf rid] } }
def mread : MRead := ⟨0, 65536, true, false, .dense 3 0 0, [], [], [], [], [], false, 0, true, false, [], 0, false, false, []⟩
theorem test_wit_recon : let f : FRecord := ⟨9, 0, 0⟩
    heavyNow { member 2 with tt := { heavy := 3 }, time := { mode := .locked } } [1] = true ∧ heavyNow (member 2) [1] = false ∧ wardOf (at1 (warded [] [(7, f)])) 1 = some (aWard [] [(7, f)]) ∧
    sfind (aWard [] [(7, f)]).records 7 = some f ∧ (wardOf (at1 (member 2)) 1).bind (fun w => sfind w.records 7) = none ∧
    ({ live with span := { swkValid := true } } : State).span.swkValid = true ∧ (63 : Byte).toNat < 64 ∧ (64 : Byte) ≠ 0xFF ∧ 1 ≠ wardIndex (at1 (warded [] [])) ∧
    wardOf (at1 (member 2)) 1 = none ∧ (at1 (member 2)).span.mapAsked.find? (fun a => a.1 == 7) = none ∧
    (at1 (reading none)).span.reads.find? (fun q => q.tag == 7 || q.tag + 1 == 7) = some (aReadOf none) ∧ (aReadOf none).tag ≠ 7 ∧
    (aReadOf none).askedRec.contains 1 = true ∧ keeper (at1 { member 1 with span := spanSt 1 }) = some 1 ∧ keeper (at1 (member 2)) ≠ some 1 ∧ cycleNow (at1 (member 2)) + 1 < 2 ∧
    (1 : BitVec 64).toNat ≤ cycleNow (at1 (member 2)) + 1 := by and_intros <;> decide +kernel
theorem test_wit_span_timeout : live.span.reads.find? (fun q => q.tag == 6) = none ∧ (reading none).span.reads.find? (fun q => q.tag == 6) = some (aReadOf none) ∧
    (aReadOf none).rid = none ∧ (aReadOf (some 0)).rid = some 0 ∧ (reading (some 0)).media.mreads.find? (fun m => m.rid == 0) = none ∧
    ({ reading (some 0) with media := { mreads := [mread] } } : State).media.mreads.find? (fun m => m.rid == 0) = some mread := by and_intros <;> decide +kernel
theorem test_wit_upkeep : live.start.sillUp = true ∧ live.power.seq = .on ∧ State.reset.power.seq ≠ .on ∧ (fsumOf live 5).1 = 0 ∧
    (fsumOf { live with xlat := { fsum := [(5, (1, 0))] } } 5).1 ≠ 0 ∧ ftMode (ftEntry (framed1 mFast) 5) = mFast ∧ ftPinned (ftEntry (framed1 mFast) 5) = false ∧
    ftMode (ftEntry live 5) ≠ mFast ∧ live.mm.imageRun = none ∧ ({ live with mm := { imageRun := some ⟨0, [], [], []⟩ } } : State).mm.imageRun.isSome = true ∧
    5 ∉ live.xlat.restoring ∧ 5 ∈ ({ live with xlat := { restoring := [5] } } : State).xlat.restoring ∧
    ({ live with cache := { remapCopies := [(63, 4)] } } : State).cache.remapCopies.find? (fun c => c.1 == 63) = some (63, 4) ∧
    (List.range 16).find? (fun i => !(sget ({} : RemapEnt) live.cache.remap (16 * 63 + i)).valid) = some 0 ∧
    (List.range 16).find? (fun i => !(sget ({} : RemapEnt) ((List.range 16).map (fun i => (16 * 63 + i, ({ valid := true, block := 0 } : RemapEnt)))) (16 * 63 + i)).valid) = none := by
  and_intros <;> decide +kernel

/-! ## Hypotheses met: invariants -/

theorem test_wit_invariants : ({ live with sec := { pl2Fuse := true } } : State).sec.pl2Fuse = true ∧ memoryOk live ∧ Sized live ∧ Sized State.reset ∧ memoryOk State.reset ∧
    Memory.wf ([(3, 1), (7, 2)] : List Host.Cell) = true := by unfold memoryOk Sized; and_intros <;> decide +kernel
/-- The canonical form is no empty notion: an entry equal to an unlisted byte, and entries out of order, are not in it. -/
theorem test_memory_form : Memory.wf ([(3, 0)] : List Host.Cell) = false ∧ Memory.wf ([(7, 1), (3, 2)] : List Host.Cell) = false := by decide

/-! ## The manual's worked examples -/

/-- The address examples of chapters 02 and 03: HPA to LD address to line, and the Frame Table entry 0x12D4_D208. -/
theorem test_example_address :
    decoderHit { committed := true, base := 0x4000000000, size := 0x4000000000, ways := 4, gran := 4096, pos := 2, dpaBase := 0 } 0x4123456A40 = some 0x48D15A40 ∧
    llnOfAddress { ranges := [⟨0, 512, 0x12000, false⟩] } 0x48D15A40 = some 0x0121234569 ∧ ftBand 0x12D4D208#32 = 315912 ∧ ftSlot 0x12D4D208#32 = 13 ∧
    ftMode 0x12D4D208#32 = mDense ∧ ftPatched 0x12D4D208#32 = true ∧ ftPinned 0x12D4D208#32 = false := by and_intros <;> decide +kernel
/-- Band 315,912 lies on die slot 6, bank 3, block 2,568; member 21 of it on channel 21 (chapter 03). -/
theorem test_example_band : bandDie 315912 = 6 ∧ bandBank 315912 = 3 ∧ bandBlock 315912 = 2568 ∧ memberAt live 315912 21 = (21, 6) ∧ uBank (bankKey 21 6 3) = 0x400AB3 := by
  and_intros <;> decide +kernel
/-- The fast frame line of chapter 03. -/
theorem test_example_fast : fastAt live 0x23105 = ⟨6, 43791, 4, 12⟩ ∧ fastPos (fsMake 40000 5 0x3C5A 0 2 false false) 0x0102 = 32237 ∧ posBlock 32237 = 1 ∧ posLine 32237 = 10411 := by
  and_intros <;> decide +kernel
/-- The Near Cache set of chapter 06, and the Bulk Cache layout of a 5.0 GiB budget. -/
theorem test_example_caches : ncSet 0x0121234569 = 1835 ∧ layout live 10 = (6553600, 30403600) := by and_intros <;> decide +kernel
/-- The read packet of chapter 07: its check nibble is 0xF, and group 0 is selected. -/
theorem test_example_packet : (mkPkt 0x01 6 3 0xA08 0x45A9 0x15 0).chk = 0xF ∧ (mkPkt 0x01 6 3 0xA08 0x45A9 0x15 0).cs = 0b10 := by and_intros <;> decide +kernel
/-- The 20 J carrier of chapter 17: 10 units, 2,926 flush sets. -/
theorem test_example_budget : budgetUnits (onPower { e := 19992 }) = 10 ∧ flushSetsOf 10 = 2926 := by and_intros <;> decide +kernel
/-- The DevLoad levels of chapter 02: 4.6 GiB of 5.0 is Severe, then 4.0 GiB Moderate, then 3.4 GiB Optimal. -/
theorem test_example_devload : loadLevel 2 46 50 = 3 ∧ loadLevel 3 40 50 = 2 ∧ loadLevel 2 34 50 = 1 := by and_intros <;> decide +kernel
/-- FTIME 0x0000_0123_4567_89AB lies in cycle 78,187 (chapter 11). -/
theorem test_example_cycle : cycleNow (onTime { ftime := 0x0123456789AB }) = 78187 := by decide +kernel
/-- The resend of chapter 14: RELEASE 1,000 raises REL and MARK to 0x0010_03E8, and REWIND returns RD there. -/
def resendQ : State := withQ 0 { rel := 0x100000, mark := 0x100000, rd := 0x1005DC, wr := 0x100800, credit := 0x100A00 } live
theorem test_example_resend : Answers (exec (.queueRelease 0 1000) resendQ) (fun t => (qOf t 0).rel = 0x1003E8 ∧ (qOf t 0).mark = 0x1003E8) ∧
    Answers (exec (.queueRewind 0) (withQ 0 { rel := 0x1003E8, mark := 0x1003E8, rd := 0x1005DC, wr := 0x100800 } live)) (fun t => (qOf t 0).rd = 0x1003E8) :=
  ⟨⟨_, rfl, by decide +kernel⟩, ⟨_, rfl, by decide +kernel⟩⟩

/-! ## Single steps -/

/-- A release past RD leaves REL and sets the flag (R491). -/
theorem test_release_refused : Answers (exec (.queueRelease 4 1) live) (fun t => (qOf t 4).rel = 0 ∧ (qOf t 4).releaseErr = true) := ⟨_, rfl, by decide +kernel⟩
/-- A counter cleared in the cycle of an increment is left at 1 (R154). -/
theorem test_clear_with_increment : Answers (exec (.readstatCtrlClear 2) { live with rstat := { around := 7, retry := 9 } }) (fun t =>
    t.rstat.around = 1 ∧ t.rstat.retry = 0) := ⟨_, rfl, by decide +kernel⟩
/-- A single stray VAUX reading in the band raises LOW and changes no cell (R532). -/
theorem test_vaux_low : Answers (exec (.vauxLow 2999) live) (fun t => t.sb.low = true ∧ t.sb.reserveOk = false) := ⟨_, rfl, by decide +kernel⟩

end Sys2Proof.Tests
end

section
/-! SUPPORT. What each CTRL.CLEAR write does to its block of counters, and O3 assembled from these facts. -/

namespace Sys2Proof.Machine

/-! ## One counter -/

/-- The count a CTRL.CLEAR write leaves: 1 where the counter increments in the same cycle, else 0 (R154). -/
def countLeft (inc : Byte) (i : Nat) : Nat := if inc.getLsbD i then 1 else 0

theorem clearCtr_toNat {w : Nat} [NeZero w] (inc : Byte) (i : Nat) : (clearCtr inc i : BitVec w).toNat = countLeft inc i := by
  unfold clearCtr countLeft
  split
  · exact BitVec.toNat_one (NeZero.pos w)
  · exact BitVec.toNat_zero

/-- A table that lists at most the key `k` reads as the default at every other key. -/
theorem sget_sset_nil {α : Type} [DecidableEq α] (d : α) (k j : Nat) (v : α) :
    sget d (sset d [] k v) j = if j = k then v else d := by
  split
  · next h => rw [h, sget_sset_self]
  · next h => rw [sget_sset_ne _ _ _ h]; rfl

/-- The per-die counters after a clear: the selected die `k` may count in the same cycle, every other die is at 0. -/
theorem clearedDie_toNat {w : Nat} [NeZero w] (inc : Byte) (i k d : Nat) :
    (sget (0 : BitVec w) (sset 0 [] k (clearCtr inc i)) d).toNat = if d = k then countLeft inc i else 0 := by
  rw [sget_sset_nil]
  split
  · exact clearCtr_toNat inc i
  · exact BitVec.toNat_zero

/-! ## The blocks that every variant has: their counters, and what else stays as it was -/

theorem clearReadstat_spec (inc : Byte) (s : State) :
    (clearReadstat inc s).rstat.retry.toNat = countLeft inc 0 ∧ (clearReadstat inc s).rstat.around.toNat = countLeft inc 1 ∧
    (clearReadstat inc s).rstat.boundB.toNat = countLeft inc 2 ∧ (clearReadstat inc s).rstat.boundC.toNat = countLeft inc 3 ∧
    (clearReadstat inc s).rstat.suspend.toNat = countLeft inc 4 ∧ { clearReadstat inc s with rstat := s.rstat } = s :=
  ⟨clearCtr_toNat inc 0, clearCtr_toNat inc 1, clearCtr_toNat inc 2, clearCtr_toNat inc 3, clearCtr_toNat inc 4, rfl⟩

theorem clearWritestat_spec (inc : Byte) (s : State) :
    (clearWritestat inc s).write.paced.toNat = countLeft inc 0 ∧ (clearWritestat inc s).write.exposedCnt.toNat = countLeft inc 1 ∧
    { clearWritestat inc s with
      write := { (clearWritestat inc s).write with paced := s.write.paced, exposedCnt := s.write.exposedCnt } } = s :=
  ⟨clearCtr_toNat inc 0, clearCtr_toNat inc 1, rfl⟩

theorem clearCachestat_spec (inc : Byte) (s : State) :
    (clearCachestat inc s).cache.ncHit.toNat = countLeft inc 0 ∧ (clearCachestat inc s).cache.bcHit.toNat = countLeft inc 1 ∧
    (clearCachestat inc s).cache.miss.toNat = countLeft inc 2 ∧ (clearCachestat inc s).cache.prefetchHit.toNat = countLeft inc 3 ∧
    { clearCachestat inc s with
      cache := { (clearCachestat inc s).cache with
        ncHit := s.cache.ncHit, bcHit := s.cache.bcHit, miss := s.cache.miss, prefetchHit := s.cache.prefetchHit } } = s :=
  ⟨clearCtr_toNat inc 0, clearCtr_toNat inc 1, clearCtr_toNat inc 2, clearCtr_toNat inc 3, rfl⟩

theorem clearMmstat_spec (inc : Byte) (s : State) :
    (clearMmstat inc s).mm.folds.toNat = countLeft inc 0 ∧ (clearMmstat inc s).mm.abandon.toNat = countLeft inc 1 ∧
    (clearMmstat inc s).mm.refresh.toNat = countLeft inc 2 ∧
    { clearMmstat inc s with
      mm := { (clearMmstat inc s).mm with folds := s.mm.folds, abandon := s.mm.abandon, refresh := s.mm.refresh } } = s :=
  ⟨clearCtr_toNat inc 0, clearCtr_toNat inc 1, clearCtr_toNat inc 2, rfl⟩

theorem clearTtstat_spec (inc : Byte) (s : State) :
    (clearTtstat inc s).tt.windows.toNat = countLeft inc 0 ∧ (clearTtstat inc s).tt.rerouted.toNat = countLeft inc 1 ∧
    (clearTtstat inc s).tt.waited.toNat = countLeft inc 2 ∧
    { clearTtstat inc s with
      tt := { (clearTtstat inc s).tt with windows := s.tt.windows, rerouted := s.tt.rerouted, waited := s.tt.waited } } = s :=
  ⟨clearCtr_toNat inc 0, clearCtr_toNat inc 1, clearCtr_toNat inc 2, rfl⟩

theorem clearStrongbox_spec (inc : Byte) (s : State) :
    (clearStrongbox inc s).sb.abandon.toNat = countLeft inc 0 ∧ (clearStrongbox inc s).sb.weak.toNat = countLeft inc 1 ∧
    (clearStrongbox inc s).sb.tie.toNat = countLeft inc 2 ∧
    { clearStrongbox inc s with
      sb := { (clearStrongbox inc s).sb with abandon := s.sb.abandon, weak := s.sb.weak, tie := s.sb.tie } } = s :=
  ⟨clearCtr_toNat inc 0, clearCtr_toNat inc 1, clearCtr_toNat inc 2, rfl⟩

theorem clearPwr_spec (inc : Byte) (s : State) :
    (clearPwr inc s).power.glitches.toNat = countLeft inc 0 ∧
    { clearPwr inc s with power := { (clearPwr inc s).power with glitches := s.power.glitches } } = s :=
  ⟨clearCtr_toNat inc 0, rfl⟩

theorem clearThrmstat_spec (inc : Byte) (s : State) :
    (clearThrmstat inc s).therm.brakeMs.toNat = countLeft inc 0 ∧
    { clearThrmstat inc s with therm := { (clearThrmstat inc s).therm with brakeMs := s.therm.brakeMs } } = s :=
  ⟨clearCtr_toNat inc 0, rfl⟩

/-- The pair of the selected die may count in the same cycle; every other die's pair goes to 0, and LP_DIEFAIL24 stays (R345, R346). -/
theorem clearLpstat_spec (inc : Byte) (s : State) :
    (clearLpstat inc s).lp.rebuild.toNat = countLeft inc 0 ∧ (clearLpstat inc s).lp.located.toNat = countLeft inc 1 ∧
    (clearLpstat inc s).lp.tie.toNat = countLeft inc 2 ∧ (clearLpstat inc s).lp.poison.toNat = countLeft inc 3 ∧
    (∀ d, (sget 0 (clearLpstat inc s).lp.dieWeak d).toNat = (if d = s.lp.dieSel.toNat then countLeft inc 4 else 0) ∧
      (sget 0 (clearLpstat inc s).lp.dieFail d).toNat = if d = s.lp.dieSel.toNat then countLeft inc 5 else 0) ∧
    (clearLpstat inc s).lp.dieFailAt = s.lp.dieFailAt :=
  ⟨clearCtr_toNat inc 0, clearCtr_toNat inc 1, clearCtr_toNat inc 2, clearCtr_toNat inc 3,
    fun d => ⟨clearedDie_toNat inc 4 _ d, clearedDie_toNat inc 5 _ d⟩, rfl⟩

/-! ## The span block, which an L1 lacks, and the channels -/

theorem clearSpanstat_of_span (inc : Byte) {s : State} (h : hasSpan s = true) :
    (clearSpanstat inc s).span.cRecords.toNat = countLeft inc 0 ∧ (clearSpanstat inc s).span.cResend.toNat = countLeft inc 1 ∧
    (clearSpanstat inc s).span.cDeltas.toNat = countLeft inc 2 ∧ (clearSpanstat inc s).span.cReconOut.toNat = countLeft inc 3 ∧
    (clearSpanstat inc s).span.cReconIn.toNat = countLeft inc 4 := by
  unfold clearSpanstat
  rw [h]
  exact ⟨clearCtr_toNat inc 0, clearCtr_toNat inc 1, clearCtr_toNat inc 2, clearCtr_toNat inc 3, clearCtr_toNat inc 4⟩

theorem clearSpanstat_of_no_span (inc : Byte) {s : State} (h : hasSpan s = false) : clearSpanstat inc s = s := if_pos (by rw [h]; rfl)

/-- The channel's own counters. -/
theorem clearMch_self (inc : Byte) {ch : Nat} {s : State} (h : ch < nChannels s) :
    (cartOf (clearMch ch inc s) ch).caCheck.toNat = countLeft inc 0 ∧ (cartOf (clearMch ch inc s) ch).frameErr.toNat = countLeft inc 1 ∧
    (cartOf (clearMch ch inc s) ch).pfail.toNat = countLeft inc 2 ∧ (cartOf (clearMch ch inc s) ch).cfail.toNat = countLeft inc 3 ∧
    (cartOf (clearMch ch inc s) ch).retrains.toNat = countLeft inc 4 := by
  unfold clearMch cartOf
  rw [if_neg (Nat.not_le.mpr h), sget_smod_self]
  exact ⟨clearCtr_toNat inc 0, clearCtr_toNat inc 1, clearCtr_toNat inc 2, clearCtr_toNat inc 3, clearCtr_toNat inc 4⟩

/-- Another channel's Carter keeps everything. -/
theorem clearMch_ne (inc : Byte) {ch c : Nat} (s : State) (hc : c ≠ ch) : cartOf (clearMch ch inc s) c = cartOf s c := by
  unfold clearMch cartOf
  split
  · rfl
  · rw [sget_smod_ne _ _ _ hc]

theorem clearMch_absent (inc : Byte) {ch : Nat} {s : State} (h : nChannels s ≤ ch) : clearMch ch inc s = s := if_pos h

/-! ## The rows -/

/-- A row whose meaning ends in `ran u` has `u` as its own effect. -/
theorem ends_of_ran {i : Instr} {s u : State} {P : State → Prop} (h : exec i s = ran u) (hu : P u) : Ends i s P := ⟨u, h, hu⟩

/-- Settles O3: every row is its block's clear on `begin s`, whose counters and frame are the lemmas above. -/
theorem clearLeavesZeroOrOne : Obligations.ClearLeavesZeroOrOne := by
  intro inc s n
  refine ⟨?read, ?write, ?cache, ?mm, ?span, ?noSpan, ?tt, ?sb, ?power, ?therm, ?lp, ?mch, ?noMch⟩
  case read => exact ends_of_ran rfl (clearReadstat_spec inc (begin s))
  case write => exact ends_of_ran rfl (clearWritestat_spec inc (begin s))
  case cache => exact ends_of_ran rfl (clearCachestat_spec inc (begin s))
  case mm => exact ends_of_ran rfl (clearMmstat_spec inc (begin s))
  case span => exact fun h => ends_of_ran rfl (clearSpanstat_of_span inc (s := begin s) h)
  case noSpan => exact fun h => ends_of_ran rfl (clearSpanstat_of_no_span inc (s := begin s) h)
  case tt => exact ends_of_ran rfl (clearTtstat_spec inc (begin s))
  case sb => exact ends_of_ran rfl (clearStrongbox_spec inc (begin s))
  case power => exact ends_of_ran rfl (clearPwr_spec inc (begin s))
  case therm => exact ends_of_ran rfl (clearThrmstat_spec inc (begin s))
  case lp => exact ends_of_ran rfl (clearLpstat_spec inc (begin s))
  case mch =>
    intro ch h
    obtain ⟨hca, hframe, hpfail, hcfail, hretrain⟩ := clearMch_self inc (s := begin s) h
    exact ends_of_ran rfl ⟨hca, hframe, hpfail, hcfail, hretrain, fun _ hc => clearMch_ne inc (begin s) hc⟩
  case noMch => exact fun ch h => ends_of_ran rfl (clearMch_absent inc (s := begin s) h)

end Sys2Proof.Machine
end

section
/-! SUPPORT. What a queue's consumer can do to it (R490 to R492), each operation as the one queue it leaves, and O5 assembled from
these facts. -/

namespace Sys2Proof.Machine

/-! ## One queue changed -/

/-- From `s` to `u` queue `q` becomes `y`; every other queue and every other part of the state stays. -/
def QueueBecomes (q : Nat) (y : Queue) (s u : State) : Prop :=
  u.queue.queues[q]? = some y ∧ (∀ k, k ≠ q → u.queue.queues[k]? = s.queue.queues[k]?) ∧ { u with queue := s.queue } = s

section
variable {q : Nat} {x : Queue} {s : State}

theorem QueueBecomes.trans {y z : Queue} {t u : State} (hst : QueueBecomes q y s t) (htu : QueueBecomes q z t u) :
    QueueBecomes q z s u := by
  obtain ⟨-, hother, hframe⟩ := hst
  obtain ⟨hself, hother', hframe'⟩ := htu
  refine ⟨hself, fun k hk => (hother' k hk).trans (hother k hk), ?_⟩
  calc { u with queue := s.queue } = { { u with queue := t.queue } with queue := s.queue } := rfl
    _ = { t with queue := s.queue } := by rw [hframe']
    _ = s := hframe

theorem qOf_eq (hx : s.queue.queues[q]? = some x) : qOf s q = x := by
  unfold qOf
  rw [List.getD_eq_getElem?_getD, hx, Option.getD_some]

theorem setQ_becomes (f : Queue → Queue) (hx : s.queue.queues[q]? = some x) : QueueBecomes q (f x) s (setQ q f s) := by
  refine ⟨?_, fun k hk => ?_, rfl⟩
  · exact (getElem?_lmod _ _ _ _).trans (by rw [if_pos rfl, hx, Option.map_some])
  · exact (getElem?_lmod _ _ _ _).trans (if_neg hk)

/-- A grant moves CREDIT alone (R488); a queue of depth 0 keeps the one it has. -/
theorem qGrant_becomes (hx : s.queue.queues[q]? = some x) : ∃ c, QueueBecomes q { x with credit := c } s (qGrant q s) := by
  unfold qGrant
  split
  · exact ⟨x.credit, hx, fun _ _ => rfl, rfl⟩
  · exact ⟨_, setQ_becomes _ hx⟩

/-! ## Reading -/

theorem qTake_empty (hx : s.queue.queues[q]? = some x) (h : x.rd = x.wr) : qTake q s = (none, s) := by
  unfold qTake
  rw [qOf_eq hx, if_pos h]

/-- The word in the slot of RD, as it was stored. -/
theorem qFront_eq (hx : s.queue.queues[q]? = some x) : qFront s q = sget ⟨0, false, false⟩ x.words (x.rd.toNat % qDepth s q) := by
  unfold qFront
  rw [qOf_eq hx]

/-- A word whose parity fails, which the engine delivers poisoned (R492). -/
def parityFails (w : QWord) : Bool := w.parity != wordParity w.word

/-- What a read of the word `w` at RD leaves of the queue: the stored words stay, RD advances, a parity failure is flagged and
counted (R490, R492). -/
def afterRead (w : QWord) (x : Queue) : Queue :=
  { x with
    rd := x.rd + 1, parity := x.parity || parityFails w, parErr := if parityFails w then satInc x.parErr else x.parErr }

theorem qTake_word (hx : s.queue.queues[q]? = some x) (h : x.rd ≠ x.wr) :
    qTake q s = (some ((qFront s q).word, (qFront s q).poison || parityFails (qFront s q)), setQ q (afterRead (qFront s q)) s) := by
  unfold qTake
  rw [qOf_eq hx, if_neg h]
  rfl

/-! ## Releasing -/

theorem qRelease_refused {n : Nat} (hx : s.queue.queues[q]? = some x) (h : (x.rd - x.rel).toNat < n) :
    qRelease q n s = (false, setQ q (fun x => { x with releaseErr := true }) s) := by
  unfold qRelease
  rw [qOf_eq hx]
  exact if_pos h

/-- A queue released up to `rel`, `n` words on, its grant apart: MARK is raised where it would fall below REL (R490). -/
def releasedTo (rel : BitVec 32) (n : Nat) (x : Queue) : Queue :=
  { x with rel := rel, mark := if (x.mark - x.rel).toNat < n then rel else x.mark }

/-- The queue after a release of `n` words that leaves CREDIT at `c`. -/
def afterRelease (n : Nat) (c : BitVec 32) (x : Queue) : Queue :=
  { releasedTo (x.rel + BitVec.ofNat 32 n) n x with credit := c }

theorem qRelease_fits {n : Nat} (hx : s.queue.queues[q]? = some x) (h : n ≤ (x.rd - x.rel).toNat) :
    ∃ c t, qRelease q n s = (true, t) ∧ QueueBecomes q (afterRelease n c x) s t := by
  have hset := setQ_becomes (releasedTo (x.rel + BitVec.ofNat 32 n) n) hx
  have ⟨hself, _, _⟩ := hset
  obtain ⟨c, hgrant⟩ := qGrant_becomes hself
  refine ⟨c, _, ?_, hset.trans hgrant⟩
  unfold qRelease
  rw [qOf_eq hx, if_neg (Nat.not_lt.mpr h)]
  rfl

end

/-! ## The rows -/

theorem Ends.mono {i : Instr} {s : State} {P Q : State → Prop} (h : Ends i s P) (hPQ : ∀ u, P u → Q u) : Ends i s Q := by
  obtain ⟨u, hexec, hu⟩ := h
  exact ⟨u, hexec, hPQ u hu⟩

/-- What a consumer does with the word it has read: a poisoned one of a peer stream reseeds its outrider (R493). -/
def reseeded (q : Nat) (poisoned : Bool) (s : State) : State := if poisoned then onPoisoned q s else s

/-- The consumer's answer to a poisoned word is in the span's streams, not in the queues. -/
theorem reseeded_queue (q : Nat) (poisoned : Bool) (s : State) : (reseeded q poisoned s).queue = s.queue := by
  unfold reseeded onPoisoned
  split_ifs <;> rfl

theorem reseeded_out (q : Nat) (poisoned : Bool) (s : State) : (reseeded q poisoned s).out = s.out := by
  unfold reseeded onPoisoned
  split_ifs <;> rfl

theorem execQueueRead_of_empty {q : Fin 64} {s t : State} (h : qTake q (begin s) = (none, t)) :
    execQueueRead q s = ran (send t (.queueWord q none)) := by
  unfold execQueueRead
  rw [h]

theorem execQueueRead_of_word {q : Fin 64} {s t : State} {w : BitVec 64} {p : Bool} (h : qTake q (begin s) = (some (w, p), t)) :
    execQueueRead q s = ran (send (reseeded q p t) (.queueWord q (some (w, p)))) := by
  unfold execQueueRead
  rw [h]
  cases p <;> rfl

theorem releaseWords_of_fits {q n : Nat} {s t : State} (h : qRelease q n s = (true, t)) : releaseWords q n s = t := by
  unfold releaseWords
  rw [h]
  exact if_pos rfl

theorem releaseWords_of_refused {q n : Nat} {s t : State} (h : qRelease q n s = (false, t)) :
    releaseWords q n s = queueRecord q 3 t := by
  unfold releaseWords
  rw [h]
  exact if_neg Bool.false_ne_true

section
variable {s : State} {q : Fin 64} {x : Queue} (hx : s.queue.queues[q.val]? = some x)
include hx

theorem queueRead_empty (h : x.rd = x.wr) : Ends (.queueRead q) s (fun u => u = { begin s with out := [.queueWord q none] }) :=
  ends_of_ran (execQueueRead_of_empty (qTake_empty (s := begin s) hx h)) rfl

/-- A read at RD ≠ WR: the word read is that of the slot of RD. -/
theorem queueRead_word {w : QWord} (hw : qFront s q = w) (h : x.rd ≠ x.wr) : Ends (.queueRead q) s (fun u =>
    u.out = [.queueWord q (some (w.word, w.poison || parityFails w))] ∧ u.queue.queues[q.val]? = some (afterRead w x) ∧
    (∀ k, k ≠ q.val → u.queue.queues[k]? = s.queue.queues[k]?) ∧
    (w.poison = false → parityFails w = false → { u with queue := s.queue, out := [] } = begin s)) := by
  subst hw
  obtain ⟨hself, hother, -⟩ := setQ_becomes (s := begin s) (afterRead (qFront s q)) hx
  refine ends_of_ran (execQueueRead_of_word (qTake_word (s := begin s) hx h)) ⟨?out, ?self, ?other, ?frame⟩
  case out => exact congrArg (· ++ _) (reseeded_out _ _ _)
  case self => exact (congrArg (·.queues[q.val]?) (reseeded_queue _ _ _)).trans hself
  case other => exact fun k hk => (congrArg (·.queues[k]?) (reseeded_queue _ _ _)).trans (hother k hk)
  case frame =>
    intro hpoison hbad
    have hclean : ((qFront s q).poison || parityFails (qFront s q)) = false := by rw [hpoison, hbad]; rfl
    change { send (reseeded q ((qFront s q).poison || parityFails (qFront s q)) _) _ with queue := s.queue, out := [] } = _
    rw [hclean]
    rfl

theorem queueRelease_fits (n : Word) (h : n.toNat ≤ (x.rd - x.rel).toNat) :
    Ends (.queueRelease q n) s (fun u => ∃ c, QueueBecomes q (afterRelease n.toNat c x) (begin s) u) := by
  obtain ⟨c, t, ht, hq⟩ := qRelease_fits (s := begin s) hx h
  exact ends_of_ran (congrArg ran (releaseWords_of_fits ht)) ⟨c, hq⟩

theorem queueRelease_refused (n : Word) (h : (x.rd - x.rel).toNat < n.toNat) :
    Ends (.queueRelease q n) s (fun u => ∃ v, u = queueRecord q 3 v ∧ QueueBecomes q { x with releaseErr := true } (begin s) v) :=
  ends_of_ran (congrArg ran (releaseWords_of_refused (qRelease_refused (s := begin s) hx h))) ⟨_, rfl, setQ_becomes (s := begin s) _ hx⟩

end

/-- Settles O5: every row is its operation on queue `q` of `begin s`, whose outcomes are the lemmas above. -/
theorem queueConsumerOperations : Obligations.QueueConsumerOperations := by
  intro s q x hx others
  refine ⟨?empty, ?word, ?mark, ?rewind, ?fits, ?refused⟩
  case empty => exact queueRead_empty hx
  case word =>
    intro h
    refine (queueRead_word hx (qFront_eq hx) h).mono ?_
    rintro u ⟨hout, hself, hother, hframe⟩
    exact ⟨hout, ⟨_, hself, rfl, rfl, rfl, rfl, rfl, rfl⟩, hother, hframe⟩
  case mark => exact ends_of_ran rfl (setQ_becomes (s := begin s) (fun x => { x with mark := x.rd }) hx)
  case rewind => exact ends_of_ran rfl (setQ_becomes (s := begin s) (fun x => { x with rd := x.mark }) hx)
  case fits =>
    intro n h
    refine (queueRelease_fits hx n h).mono ?_
    rintro u ⟨c, hself, hother, hframe⟩
    have hrel : x.rel + BitVec.ofNat 32 n.toNat = x.rel + n := by rw [BitVec.ofNat_toNat, BitVec.setWidth_eq]
    unfold afterRelease at hself
    rw [hrel] at hself
    exact ⟨⟨_, hself, rfl, rfl, rfl, rfl, rfl, rfl⟩, hother, hframe⟩
  case refused => exact queueRelease_refused hx

end Sys2Proof.Machine
end

section
/-! SUPPORT. The frame of every row: what `exec` leaves alone for each class of rows, and the statements that follow from it
(O1, O2, O53, O54, O55). -/

namespace Sys2Proof.Machine

/-- Two things said of one answer hold together: a result answers one state. -/
theorem Answers.and {r : Res} {P Q : State → Prop} (hP : Answers r P) (hQ : Answers r Q) : Answers r (fun t => P t ∧ Q t) := by
  obtain ⟨t, rfl, ht⟩ := hP
  obtain ⟨u, hu, hQu⟩ := hQ
  cases hu
  exact ⟨t, rfl, ht, hQu⟩

theorem Answers.mono {r : Res} {P Q : State → Prop} (h : Answers r P) (hPQ : ∀ t, P t → Q t) : Answers r Q :=
  let ⟨t, ht, hP⟩ := h
  ⟨t, ht, hPQ t hP⟩

/-- A command that only answers leaves the sections of `keepE` alone. -/
theorem exec_keepE_of_answersOnly {i : Instr} (hrow : AnswersOnly i) (s : State) : Answers (exec i s) (fun t => keepE t = keepE s) := by
  cases i with
  | perstDeassert grp => exact execPerstDeassert_keepE grp s
  | powerStateChange port ld d3hot => exact execPowerStateChange_keepE port ld d3hot s
  | gpfPhase1 port => exact execGpfPhase1_keepE port s
  | gpfPhase2 port => exact execGpfPhase2_keepE port s
  | identifyMemoryDevice c ldb => exact execIdentifyMemoryDevice_keepE c ldb s
  | getHealthInfo c ldb => exact execGetHealthInfo_keepE c ldb s
  | getEventRecords c ldb log => exact execGetEventRecords_keepE c ldb log s
  | clearEventRecords c ldb log all handles => exact execClearEventRecords_keepE c ldb log all handles s
  | getEventInterruptPolicy c ldb => exact execGetEventInterruptPolicy_keepE c ldb s
  | setEventInterruptPolicy c ldb policy => exact execSetEventInterruptPolicy_keepE c ldb policy s
  | getSupportedLogs c ldb => exact execGetSupportedLogs_keepE c ldb s
  | getLog c ldb offset length => exact execGetLog_keepE c ldb offset length s
  | getTimestamp c ldb => exact execGetTimestamp_keepE c ldb s
  | setTimestamp c ldb value => exact execSetTimestamp_keepE c ldb value s
  | getFwInfo c ldb => exact execGetFwInfo_keepE c ldb s
  | getPoisonList c ldb addr length => exact execGetPoisonList_keepE c ldb addr length s
  | getDynamicCapacityConfiguration c ldb => exact execGetDynamicCapacityConfiguration_keepE c ldb s
  | getDynamicCapacityExtentList c ldb => exact execGetDynamicCapacityExtentList_keepE c ldb s
  | unsupportedOpcode c opcode => exact execUnsupportedOpcode_keepE c opcode s
  | fmIdentify c => exact execFmIdentify_keepE c s
  | getLdInfo c => exact execGetLdInfo_keepE c s
  | getLdAllocations c port first count => exact execGetLdAllocations_keepE c port first count s
  | getQosControl c port => exact execGetQosControl_keepE c port s
  | setQosControl c port ctrl => exact execSetQosControl_keepE c port ctrl s
  | getQosAllocatedBw c port first count => exact execGetQosAllocatedBw_keepE c port first count s
  | setQosAllocatedBw c port first fracs => exact execSetQosAllocatedBw_keepE c port first fracs s
  | getQosBwLimit c port first count => exact execGetQosBwLimit_keepE c port first count s
  | setQosBwLimit c port first fracs => exact execSetQosBwLimit_keepE c port first fracs s
  | getDcRegionConfiguration c ldb => exact execGetDcRegionConfiguration_keepE c ldb s
  | initiateDynamicCapacityAdd c ldb ext extTag => exact execInitiateDynamicCapacityAdd_keepE c ldb ext extTag s
  | initiateDynamicCapacityRelease c ldb ext => exact execInitiateDynamicCapacityRelease_keepE c ldb ext s
  | getDcRegionExtentLists c ldb => exact execGetDcRegionExtentLists_keepE c ldb s
  | unknownVendorOpcode c opcode inp => exact execUnknownVendorOpcode_keepE c opcode inp s
  | merlasIdentify c inp => exact execMerlasIdentify_keepE c inp s
  | capQuery c inp => exact execCapQuery_keepE c inp s
  | unitQuery c inp => exact execUnitQuery_keepE c inp s
  | unitList c inp => exact execUnitList_keepE c inp s
  | foldStatus c inp => exact execFoldStatus_keepE c inp s
  | spanQuery c inp => exact execSpanQuery_keepE c inp s
  | poolGet c inp => exact execPoolGet_keepE c inp s
  | timeQuery c inp => exact execTimeQuery_keepE c inp s
  | powerQuery c inp => exact execPowerQuery_keepE c inp s
  | powerTableSet c inp => exact execPowerTableSet_keepE c inp s
  | thermalQuery c inp => exact execThermalQuery_keepE c inp s
  | sboxQuery c inp => exact execSboxQuery_keepE c inp s
  | sboxRead c inp => exact execSboxRead_keepE c inp s
  | optionWrite c inp => exact execOptionWrite_keepE c inp s
  | calOverlayWrite c inp => exact execCalOverlayWrite_keepE c inp s
  | calOverlayClear c inp => exact execCalOverlayClear_keepE c inp s
  | waybillRead c inp => exact execWaybillRead_keepE c inp s
  | waybillRate c inp => exact execWaybillRate_keepE c inp s
  | injectDisarm c inp => exact execInjectDisarm_keepE c inp s
  | secQuery c inp => exact execSecQuery_keepE c inp s
  | noticeFlagsRead => exact execNoticeFlagsRead_keepE s
  | noticeDatahiRead => exact execNoticeDatahiRead_keepE s
  | noticeCtrlMark => exact execNoticeCtrlMark_keepE s
  | noticeCtrlRewind => exact execNoticeCtrlRewind_keepE s
  | noticeCtrlRelease n => exact execNoticeCtrlRelease_keepE n s
  | strongboxCtrlClear inc => exact execStrongboxCtrlClear_keepE inc s
  | wbCtrlFlush => exact execWbCtrlFlush_keepE s
  | injCtrlDisarm => exact execInjCtrlDisarm_keepE s
  | injectDurationEnd point unit => exact execInjectDurationEnd_keepE point unit s
  | queueWrite q word poison => exact execQueueWrite_keepE q word poison s
  | queueMark q => exact execQueueMark_keepE q s
  | queueRewind q => exact execQueueRewind_keepE q s
  | queueRelease q n => exact execQueueRelease_keepE q n s
  | zqcalTimer ch => exact execZqcalTimer_keepE ch s
  | waybillFlushTimer => exact execWaybillFlushTimer_keepE s
  | ceLeakStep => exact execCeLeakStep_keepE s
  | strongboxMarginRefresh slot weak => exact execStrongboxMarginRefresh_keepE slot weak s
  | vauxLow mv => exact execVauxLow_keepE mv s
  | vauxBandChange mv => exact execVauxBandChange_keepE mv s
  | getVersion port => exact execGetVersion_keepE port s
  | getCapabilities port flags => exact execGetCapabilities_keepE port flags s
  | negotiateAlgorithms port supported => exact execNegotiateAlgorithms_keepE port supported s
  | getDigests port => exact execGetDigests_keepE port s
  | getCertificate port slot offset length => exact execGetCertificate_keepE port slot offset length s
  | challenge port slot nonce => exact execChallenge_keepE port slot nonce s
  | getMeasurements port index nonce => exact execGetMeasurements_keepE port index nonce s
  | finish port session verifyOk => exact execFinish_keepE port session verifyOk s
  | keyUpdate port session op => exact execKeyUpdate_keepE port session op s
  | spdmHeartbeat port session => exact execSpdmHeartbeat_keepE port session s
  | endSession port session => exact execEndSession_keepE port session s
  | ideKm port session op sub key => exact execIdeKm_keepE port session op sub key s
  | hdmDecoderCommit port ld dec base size ways gran pos dpaSkip => exact execHdmDecoderCommit_keepE port ld dec base size ways gran pos dpaSkip s
  | reserveCharged => exact execReserveCharged_keepE s
  | refclkReturn grp => exact execRefclkReturn_keepE grp s
  | _ => exact hrow.elim

/-- A command that drives the media engine leaves the sections of `keepM` alone. -/
theorem exec_keepM_of_worksOnMedia {i : Instr} (hrow : WorksOnMedia i) (s : State) : Answers (exec i s) (fun t => keepM t = keepM s) := by
  cases i with
  | memRead port ld hpa tag => exact execMemRead_keepM port ld hpa tag s
  | memWrite port ld hpa tag data be poisoned => exact execMemWrite_keepM port ld hpa tag data be poisoned s
  | writeCreditGrant port ld => exact execWriteCreditGrant_keepM port ld s
  | strictAckTimeout port ld tag => exact execStrictAckTimeout_keepM port ld tag s
  | relaxedRecordStall stream rnum => exact execRelaxedRecordStall_keepM stream rnum s
  | relaxedRecordExposed stream rnum => exact execRelaxedRecordExposed_keepM stream rnum s
  | dirtyAgeLimit lln => exact execDirtyAgeLimit_keepM lln s
  | linkUp port width rate flit256 mld => exact execLinkUp_keepM port width rate flit256 mld s
  | surpriseLinkDown port => exact execSurpriseLinkDown_keepM port s
  | refclkLoss grp => exact execRefclkLoss_keepM grp s
  | ideIntegrityFailure port => exact execIdeIntegrityFailure_keepM port s
  | injectPoison c ldb addr => exact execInjectPoison_keepM c ldb addr s
  | clearPoison c ldb addr data => exact execClearPoison_keepM c ldb addr data s
  | addDynamicCapacityResponse c ldb exts => exact execAddDynamicCapacityResponse_keepM c ldb exts s
  | getQosStatus c port => exact execGetQosStatus_keepM c port s
  | jobStatus c inp => exact execJobStatus_keepM c inp s
  | framePin c inp => exact execFramePin_keepM c inp s
  | cacheFlush c inp => exact execCacheFlush_keepM c inp s
  | cacheInvalidate c inp => exact execCacheInvalidate_keepM c inp s
  | ldCommitSet c inp => exact execLdCommitSet_keepM c inp s
  | poolSet c inp => exact execPoolSet_keepM c inp s
  | spanJoin c inp => exact execSpanJoin_keepM c inp s
  | spanUpdate c inp => exact execSpanUpdate_keepM c inp s
  | remountBind c inp => exact execRemountBind_keepM c inp s
  | unhitchRequest c inp => exact execUnhitchRequest_keepM c inp s
  | ttConfig c inp => exact execTtConfig_keepM c inp s
  | ldKeyTransfer c inp => exact execLdKeyTransfer_keepM c inp s
  | plannedRemovalTimeout job => exact execPlannedRemovalTimeout_keepM job s
  | unitTestTimeout job => exact execUnitTestTimeout_keepM job s
  | unitIdleEntry unit => exact execUnitIdleEntry_keepM unit s
  | cmbEcho slot ch m => exact execCmbEcho_keepM slot ch m s
  | cmbBankState slot ch m => exact execCmbBankState_keepM slot ch m s
  | cmbInfo slot ch m => exact execCmbInfo_keepM slot ch m s
  | cmbRawRead slot ch m err => exact execCmbRawRead_keepM slot ch m err s
  | qmbEcho slot q m => exact execQmbEcho_keepM slot q m s
  | qmbChannels slot q m => exact execQmbChannels_keepM slot q m s
  | qmbSuspCount slot q m => exact execQmbSuspCount_keepM slot q m s
  | qmbSkew slot q m => exact execQmbSkew_keepM slot q m s
  | qmbRsphiRead q => exact execQmbRsphiRead_keepM q s
  | sidebandDwordRead offset => exact execSidebandDwordRead_keepM offset s
  | sidebandDwordWrite offset data => exact execSidebandDwordWrite_keepM offset data s
  | readstatCtrlClear inc => exact execReadstatCtrlClear_keepM inc s
  | writestatCtrlClear inc => exact execWritestatCtrlClear_keepM inc s
  | cacheCtrlClear inc => exact execCacheCtrlClear_keepM inc s
  | mchRetrainClear ch inc => exact execMchRetrainClear_keepM ch inc s
  | mmstatCtrlClear inc => exact execMmstatCtrlClear_keepM inc s
  | lpstatCtrlClear inc => exact execLpstatCtrlClear_keepM inc s
  | spanstatCtrlClear inc => exact execSpanstatCtrlClear_keepM inc s
  | ttstatCtrlClear inc => exact execTtstatCtrlClear_keepM inc s
  | queueRead q => exact execQueueRead_keepM q s
  | queueTailExpiry q => exact execQueueTailExpiry_keepM q s
  | read ch p => exact execRead_keepM ch p s
  | refset ch p => exact execRefset_keepM ch p s
  | refload ch p data => exact execRefload_keepM ch p data s
  | prog ch p => exact execProg_keepM ch p s
  | wdata ch p data => exact execWdata_keepM ch p data s
  | fprog ch p data => exact execFprog_keepM ch p data s
  | pfin ch p => exact execPfin_keepM ch p s
  | pabort ch p => exact execPabort_keepM ch p s
  | clear ch p stamp => exact execClear_keepM ch p stamp s
  | susp ch p => exact execSusp_keepM ch p s
  | resume ch p => exact execResume_keepM ch p s
  | srd ch p => exact execSrd_keepM ch p s
  | status ch p => exact execStatus_keepM ch p s
  | temp ch p => exact execTemp_keepM ch p s
  | ident ch p => exact execIdent_keepM ch p s
  | getf ch p => exact execGetf_keepM ch p s
  | setf ch p => exact execSetf_keepM ch p s
  | rdout ch p => exact execRdout_keepM ch p s
  | zqcal ch p => exact execZqcal_keepM ch p s
  | catrain ch p => exact execCatrain_keepM ch p s
  | wrpat ch p data => exact execWrpat_keepM ch p data s
  | rdpat ch p => exact execRdpat_keepM ch p s
  | dreset ch p => exact execDreset_keepM ch p s
  | mediaUnknownOpcode ch op p => exact execMediaUnknownOpcode_keepM ch op p s
  | treadEnd ch tag err => exact execTreadEnd_keepM ch tag err s
  | tpbodyEnd ch die bank => exact execTpbodyEnd_keepM ch die bank s
  | tpfinEnd ch die bank failAt => exact execTpfinEnd_keepM ch die bank failAt s
  | tclearEnd ch die bank ok => exact execTclearEnd_keepM ch die bank ok s
  | tsuspEnd ch die bank => exact execTsuspEnd_keepM ch die bank s
  | tinfoEnd ch tag => exact execTinfoEnd_keepM ch tag s
  | tdrstEnd ch die cleared => exact execTdrstEnd_keepM ch die cleared s
  | tinitEnd ch => exact execTinitEnd_keepM ch s
  | malertN ch => exact execMalertN_keepM ch s
  | infoFrame ch h payload => exact execInfoFrame_keepM ch h payload s
  | emptyFrame ch h => exact execEmptyFrame_keepM ch h s
  | progHeld ch h payload => exact execProgHeld_keepM ch h payload s
  | progDone ch h payload => exact execProgDone_keepM ch h payload s
  | progFail ch h payload => exact execProgFail_keepM ch h payload s
  | clearDone ch h payload => exact execClearDone_keepM ch h payload s
  | clearFail ch h payload => exact execClearFail_keepM ch h payload s
  | suspended ch h payload => exact execSuspended_keepM ch h payload s
  | suspNoop ch h payload => exact execSuspNoop_keepM ch h payload s
  | readDenied ch h payload => exact execReadDenied_keepM ch h payload s
  | caCheck ch h payload => exact execCaCheck_keepM ch h payload s
  | dieFault ch h payload => exact execDieFault_keepM ch h payload s
  | paborted ch h payload => exact execPaborted_keepM ch h payload s
  | holdLimit ch die bank => exact execHoldLimit_keepM ch die bank s
  | heldReadReroute ch die bank => exact execHeldReadReroute_keepM ch die bank s
  | channelTrainTimeout ch => exact execChannelTrainTimeout_keepM ch s
  | spanReadTimeout tag => exact execSpanReadTimeout_keepM tag s
  | foldBatchTimer => exact execFoldBatchTimer_keepM s
  | foldAgeTrigger lfn => exact execFoldAgeTrigger_keepM lfn s
  | fastFrameIdleTimeout lfn => exact execFastFrameIdleTimeout_keepM lfn s
  | checkpointImageStart => exact execCheckpointImageStart_keepM s
  | dirtyMapGeneration => exact execDirtyMapGeneration_keepM s
  | patchLogRescanEnd => exact execPatchLogRescanEnd_keepM s
  | frameTableRestoreEnd lfn => exact execFrameTableRestoreEnd_keepM lfn s
  | hbmRemapCopyEnd hch => exact execHbmRemapCopyEnd_keepM hch s
  | heartbeat h state lock bound live admissions activating => exact execHeartbeat_keepM h state lock bound live admissions activating s
  | majorityLoss => exact execMajorityLoss_keepM s
  | patchBatch h b => exact execPatchBatch_keepM h b s
  | patchRelease h rsnap llns => exact execPatchRelease_keepM h rsnap llns s
  | deltaChunkRequest h lfn t foldSeq => exact execDeltaChunkRequest_keepM h lfn t foldSeq s
  | deltaChunkData h lfn t foldSeq chunk payload => exact execDeltaChunkData_keepM h lfn t foldSeq chunk payload s
  | deltaChunkDone h lfn t foldSeq => exact execDeltaChunkDone_keepM h lfn t foldSeq s
  | deltaChunkAbort h lfn t foldSeq => exact execDeltaChunkAbort_keepM h lfn t foldSeq s
  | deltaAckBusy h lfn foldSeq live => exact execDeltaAckBusy_keepM h lfn foldSeq live s
  | deltaAckBatch h bseq live => exact execDeltaAckBatch_keepM h bseq live s
  | deltaAckResend h bseq live => exact execDeltaAckResend_keepM h bseq live s
  | reconReadBase h tag lfn line count => exact execReconReadBase_keepM h tag lfn line count s
  | reconReadRecord h tag lln ward => exact execReconReadRecord_keepM h tag lln ward s
  | reconReadMap h tag ward ldIndex certOk => exact execReconReadMap_keepM h tag ward ldIndex certOk s
  | reconReadBulk h tag lfn line count => exact execReconReadBulk_keepM h tag lfn line count s
  | reconData h tag part parts status body => exact execReconData_keepM h tag part parts status body s
  | timetable h cycle sgen entries crc => exact execTimetable_keepM h cycle sgen entries crc s
  | peerCommandTimeout job peer => exact execPeerCommandTimeout_keepM job peer s
  | atiHourPoint => exact execAtiHourPoint_keepM s
  | mgmtWatchdog => exact execMgmtWatchdog_keepM s
  | thermalHalfGrace => exact execThermalHalfGrace_keepM s
  | keyExchange port reqSession exchange => exact execKeyExchange_keepM port reqSession exchange s
  | patternFrame ch h pattern center0 center1 margin => exact execPatternFrame_keepM ch h pattern center0 center1 margin s
  | tzqEnd ch => exact execTzqEnd_keepM ch s
  | mediaPllLock ch => exact execMediaPllLock_keepM ch s
  | unknownMsg slot target msg tag => exact execUnknownMsg_keepM slot target msg tag s
  | _ => exact hrow.elim

/-- The seven rows that may change the security state. -/
def ChangesSecurity (i : Instr) : Prop :=
  match i with
  | .plSet _ _ | .stageBoundary | .strongboxWriteDone | .vauxRise _ | .vauxLoss | .sillReset | .startPhaseEnd _ => True
  | _ => False

/-- Every other row leaves the security state alone, whether it only answers, drives the media engine, or does more. -/
theorem exec_keepS_of_not_changesSecurity {i : Instr} (hrow : ¬ ChangesSecurity i) (s : State) : Answers (exec i s) (fun t => keepS t = keepS s) := by
  by_cases hE : AnswersOnly i
  · exact (exec_keepE_of_answersOnly hE s).mono (fun _ ht => keepMS (keepEM ht))
  by_cases hM : WorksOnMedia i
  · exact (exec_keepM_of_worksOnMedia hM s).mono (fun _ ht => keepMS ht)
  cases i with
  | perstAssert grp => exact execPerstAssert_keepS grp s
  | transferFw c action offset data => exact execTransferFw_keepS c action offset data s
  | activateFw c online slot => exact execActivateFw_keepS c online slot s
  | sanitize c ldb => exact execSanitize_keepS c ldb s
  | secureErase c ldb => exact execSecureErase_keepS c ldb s
  | releaseDynamicCapacity c ldb exts => exact execReleaseDynamicCapacity_keepS c ldb exts s
  | setLdAllocations c port first units => exact execSetLdAllocations_keepS c port first units s
  | unitTest c inp => exact execUnitTest_keepS c inp s
  | unitBypass c inp => exact execUnitBypass_keepS c inp s
  | unitIsolate c inp => exact execUnitIsolate_keepS c inp s
  | unitReadmit c inp => exact execUnitReadmit_keepS c inp s
  | unitRetire c inp => exact execUnitRetire_keepS c inp s
  | frameDiscard c inp => exact execFrameDiscard_keepS c inp s
  | spanLeave c inp => exact execSpanLeave_keepS c inp s
  | timeMarkSet c inp => exact execTimeMarkSet_keepS c inp s
  | timeConfig c inp => exact execTimeConfig_keepS c inp s
  | powerDown c inp => exact execPowerDown_keepS c inp s
  | powerUp c inp => exact execPowerUp_keepS c inp s
  | thermalConfig c inp => exact execThermalConfig_keepS c inp s
  | shutdownRecordClear c inp => exact execShutdownRecordClear_keepS c inp s
  | injectArm c inp => exact execInjectArm_keepS c inp s
  | jobEnd job ok => exact execJobEnd_keepS job ok s
  | registerWrite port offset data be => exact execRegisterWrite_keepS port offset data be s
  | timeNowloRead => exact execTimeNowloRead_keepS s
  | timeMarkhiWrite value => exact execTimeMarkhiWrite_keepS value s
  | pwrCtrlClear inc => exact execPwrCtrlClear_keepS inc s
  | thrmstatCtrlClear inc => exact execThrmstatCtrlClear_keepS inc s
  | injCtrlArm => exact execInjCtrlArm_keepS s
  | lineFrame ch h data => exact execLineFrame_keepS ch h data s
  | illegal ch h payload => exact execIllegal_keepS ch h payload s
  | thermAlert ch h payload => exact execThermAlert_keepS ch h payload s
  | readTimeout ch tag => exact execReadTimeout_keepS ch tag s
  | peerHeartbeatLoss r => exact execPeerHeartbeatLoss_keepS r s
  | deltaChunkCommit h lfn t foldSeq => exact execDeltaChunkCommit_keepS h lfn t foldSeq s
  | deltaAckAdmitted h lfn foldSeq live => exact execDeltaAckAdmitted_keepS h lfn foldSeq live s
  | deltaAckStaged h lfn foldSeq live => exact execDeltaAckStaged_keepS h lfn foldSeq live s
  | deltaAckCommitted h lfn foldSeq live => exact execDeltaAckCommitted_keepS h lfn foldSeq live s
  | deltaAckDone h lfn foldSeq live => exact execDeltaAckDone_keepS h lfn foldSeq live s
  | deltaAckAborted h lfn foldSeq live => exact execDeltaAckAborted_keepS h lfn foldSeq live s
  | unhitchMessage h cause rnums => exact execUnhitchMessage_keepS h cause rnums s
  | ptmDialogTimer => exact execPtmDialogTimer_keepS s
  | ptmResponse master delayNs => exact execPtmResponse_keepS master delayNs s
  | timemarkEdge => exact execTimemarkEdge_keepS s
  | ptmSampleLoss => exact execPtmSampleLoss_keepS s
  | timemarkLoss => exact execTimemarkLoss_keepS s
  | holdoverLimit => exact execHoldoverLimit_keepS s
  | lifeHourly => exact execLifeHourly_keepS s
  | pfNAssert => exact execPfNAssert_keepS s
  | pfNRelease => exact execPfNRelease_keepS s
  | seqInHigh => exact execSeqInHigh_keepS s
  | seqInLow => exact execSeqInLow_keepS s
  | cascadeStep => exact execCascadeStep_keepS s
  | railEnable r => exact execRailEnable_keepS r s
  | railDisable r => exact execRailDisable_keepS r s
  | pgGood r => exact execPgGood_keepS r s
  | pgLost r => exact execPgLost_keepS r s
  | pgGlitch r => exact execPgGlitch_keepS r s
  | railPgTimeout r => exact execRailPgTimeout_keepS r s
  | railOffTimeout r => exact execRailOffTimeout_keepS r s
  | minoffEnd => exact execMinoffEnd_keepS s
  | vcoreTrimStep answered => exact execVcoreTrimStep_keepS answered s
  | holdupStepDone vbank dq fault => exact execHoldupStepDone_keepS vbank dq fault s
  | holdupMeasureTimeout => exact execHoldupMeasureTimeout_keepS s
  | holdupMonitor answer => exact execHoldupMonitor_keepS answer s
  | flushStepEnd us => exact execFlushStepEnd_keepS us s
  | thermalSample readings => exact execThermalSample_keepS readings s
  | thermalGraceExpiry => exact execThermalGraceExpiry_keepS s
  | brakeFractionStep => exact execBrakeFractionStep_keepS s
  | sensorReadingTimeout n => exact execSensorReadingTimeout_keepS n s
  | bankCharged vbank vmin eff => exact execBankCharged_keepS vbank vmin eff s
  | warmResetEnd => exact execWarmResetEnd_keepS s
  | plSet _ _ | stageBoundary | strongboxWriteDone | vauxRise _ | vauxLoss | sillReset | startPhaseEnd _ => exact (hrow trivial).elim
  | _ => first | exact (hE trivial).elim | exact (hM trivial).elim

/-- Every row leaves the queue of commands and the variant alone. -/
theorem exec_keepA (i : Instr) (s : State) : Answers (exec i s) (fun t => keepA t = keepA s) := by
  by_cases h : ChangesSecurity i
  · cases i with
    | plSet c inp => exact execPlSet_keepA c inp s
    | stageBoundary => exact execStageBoundary_keepA s
    | strongboxWriteDone => exact execStrongboxWriteDone_keepA s
    | vauxRise mv => exact execVauxRise_keepA mv s
    | vauxLoss => exact execVauxLoss_keepA s
    | sillReset => exact execSillReset_keepA s
    | startPhaseEnd hbmTrained => exact execStartPhaseEnd_keepA hbmTrained s
    | _ => exact h.elim
  · exact (exec_keepS_of_not_changesSecurity h s).mono (fun _ ht => keepSA ht)

/-- Settles O1: the front of the queue is what `step` matches on. -/
theorem stepRunsFront : Obligations.StepRunsFront := by
  intro c rest s h
  rw [step, h]

/-! ## The core tick of an empty queue -/

theorem step_of_pending_nil {s : State} (h : s.pending = []) : step s = .next (idleTick s) := by
  rw [step, h]
  rfl

theorem idleTick_keepA (s : State) : keepA (idleTick s) = keepA s := by
  unfold idleTick
  split
  · rfl
  · rfl

theorem idleTick_pending (s : State) : (idleTick s).pending = s.pending := congrArg Prod.fst (idleTick_keepA s)

theorem idleTick_variant (s : State) : (idleTick s).variant = s.variant := congrArg Prod.snd (idleTick_keepA s)

theorem advanceTo_ftime (t : BitVec 64) (s : State) : (advanceTo t.toNat s).time.ftime = t :=
  (BitVec.ofNat_toNat 64 t).trans (BitVec.setWidth_eq t)

/-- Settles O2: a step on a command is `exec`, whose frame is `exec_keepA`; a step on none is a core tick, which touches time, the
counters that run with it and the replacement generators. -/
theorem everyStepCompletes : Obligations.EveryStepCompletes := by
  refine ⟨fun s => ?_, fun s h => ?_⟩
  · cases hp : s.pending with
    | nil =>
      rw [step_of_pending_nil hp]
      exact ⟨_, rfl, (idleTick_pending s).trans hp, idleTick_variant s⟩
    | cons c rest =>
      rw [stepRunsFront c rest s hp]
      refine (exec_keepA c _).mono (fun t ht => ?_)
      obtain ⟨hpending, hvariant⟩ := Prod.mk.injEq .. ▸ ht
      exact ⟨hpending, hvariant⟩
  · rw [step_of_pending_nil h]
    refine ⟨_, rfl, (idleTick_pending s).trans h, idleTick_variant s, ?_⟩
    by_cases hup : s.start.sillUp = true
    · rw [idleTick, if_pos hup, if_pos hup]
      exact ⟨rfl, rfl, rfl, rfl, rfl, rfl, rfl, advanceTo_ftime _ s⟩
    · rw [idleTick, if_neg hup, if_neg hup]
      exact ⟨rfl, rfl, rfl, rfl, rfl, rfl, rfl, rfl⟩

/-- Settles O53: the three endings and the engine's work each keep their class of sections. -/
theorem endingsTouchFewSections : Obligations.EndingsTouchFewSections := by
  intro u
  have hclosed : ∀ v, keepE (closed v) = keepE v := fun v => by
    simp only [closed, settle_keepE, linkInject_keepE, gpfSettle_keepE]
  exact ⟨hclosed u, mediaNext_keepM u, (keepEM (hclosed (mediaNext u))).trans (mediaNext_keepM u)⟩

/-- Settles O54: the three frames are one lemma each over all rows. -/
theorem rowsLeaveOtherSectionsAlone : Obligations.RowsLeaveOtherSectionsAlone := by
  intro i s
  refine ((exec_keepA i s).and (.and ?_ ?_)).mono (fun t ht => ht)
  · by_cases h : AnswersOnly i
    · exact (exec_keepE_of_answersOnly h s).mono (fun _ ht _ => ht)
    · exact (exec_keepA i s).mono (fun _ _ h' => absurd h' h)
  · by_cases h : WorksOnMedia i
    · exact (exec_keepM_of_worksOnMedia h s).mono (fun _ ht _ => ht)
    · exact (exec_keepA i s).mono (fun _ _ h' => absurd h' h)

/-- Settles O55: the rows excluded are those of `ChangesSecurity`. -/
theorem sevenRowsChangeSecurity : Obligations.SevenRowsChangeSecurity := by
  intro i s hpl hstage hdone hrise hloss hsill hphase
  have h : ¬ ChangesSecurity i := by
    cases i with
    | plSet c inp => exact absurd rfl (hpl c inp)
    | stageBoundary => exact absurd rfl hstage
    | strongboxWriteDone => exact absurd rfl hdone
    | vauxRise v => exact absurd rfl (hrise v)
    | vauxLoss => exact absurd rfl hloss
    | sillReset => exact absurd rfl hsill
    | startPhaseEnd p => exact absurd rfl (hphase p)
    | _ => exact id
  exact (exec_keepS_of_not_changesSecurity h s).mono (fun _ ht => congrArg (fun k => k.2.2) ht)

end Sys2Proof.Machine
end

section
/-! SUPPORT. The Strongbox array read byte by byte, and the machine right after reset (O59, O60). -/

namespace Sys2Proof.Machine

/-! ## Reading a table laid together from parts -/

theorem sget_of_absent {α : Type} (d : α) {m : SMap α} {k : Nat} (h : ∀ e ∈ m, e.1 ≠ k) : sget d m k = d := by
  induction m with
  | nil => rfl
  | cons e m ih =>
    obtain ⟨j, v⟩ := e
    rw [sget, if_neg (h _ List.mem_cons_self), ih (fun e he => h e (List.mem_cons_of_mem _ he))]

theorem sget_append_right {α : Type} (d : α) {l m : SMap α} {k : Nat} (h : ∀ e ∈ l, e.1 ≠ k) : sget d (l ++ m) k = sget d m k := by
  induction l with
  | nil => rfl
  | cons e l ih =>
    obtain ⟨j, v⟩ := e
    rw [List.cons_append, sget, if_neg (h _ List.mem_cons_self), ih (fun e he => h e (List.mem_cons_of_mem _ he))]

theorem sget_append_left {α : Type} (d : α) {l m : SMap α} {k : Nat} (h : ∀ e ∈ m, e.1 ≠ k) : sget d (l ++ m) k = sget d l k := by
  induction l with
  | nil => exact sget_of_absent d h
  | cons e l ih =>
    obtain ⟨j, v⟩ := e
    rw [List.cons_append, sget, sget, ih]

/-! ## The array cut at two addresses -/

theorem takeWhile_addr_lt {m : List Host.Cell} {n : Nat} {e : Host.Cell} (he : e ∈ m.takeWhile (fun c => Nat.blt c.1 n)) : e.1 < n := by
  simpa using List.mem_takeWhile_imp he

/-- Below the address `n` the array reads as its front part does. -/
theorem sget_takeWhile {m : List Host.Cell} {n k : Nat} (h : m.Pairwise (fun x y => x.1 < y.1)) (hk : k < n) :
    sget 0 (m.takeWhile (fun c => Nat.blt c.1 n)) k = sget 0 m k := by
  have hd : ∀ e ∈ m.dropWhile (fun c => Nat.blt c.1 n), e.1 ≠ k := fun e he => by have := dropWhile_lt n h e he; omega
  conv_rhs => rw [← List.takeWhile_append_dropWhile (p := fun c : Host.Cell => Nat.blt c.1 n) (l := m)]
  exact (sget_append_left 0 hd).symm

/-- From the address `n` on the array reads as its rest does. -/
theorem sget_dropWhile {m : List Host.Cell} {n k : Nat} (hk : n ≤ k) :
    sget 0 (m.dropWhile (fun c => Nat.blt c.1 n)) k = sget 0 m k := by
  have ht : ∀ e ∈ m.takeWhile (fun c => Nat.blt c.1 n), e.1 ≠ k := fun e he => by have := takeWhile_addr_lt he; omega
  conv_rhs => rw [← List.takeWhile_append_dropWhile (p := fun c : Host.Cell => Nat.blt c.1 n) (l := m)]
  exact (sget_append_right 0 ht).symm

/-- The cells of some bytes read as those bytes. -/
theorem sget_asCells (a : Nat) (bs : List Byte) (i : Nat) : sget 0 (asCells a bs) (a + i) = bs.getD i 0 := by
  induction bs generalizing a i with
  | nil => rfl
  | cons b bs ih =>
    have hrest : ∀ e ∈ asCells (a + 1) bs, e.1 ≠ a := fun e he => by have := asCells_mem he; omega
    cases i with
    | zero =>
      unfold asCells
      split
      · next hb => rw [hb]; exact sget_of_absent 0 hrest
      · rw [sget, if_pos (Nat.add_zero a).symm]; rfl
    | succ i =>
      have hstep := ih (a + 1) i
      rw [Nat.add_right_comm, Nat.add_assoc] at hstep
      unfold asCells
      split
      · exact hstep
      · rw [sget, if_neg (by omega)]; exact hstep

/-- The bytes of a canonical array from `a` on are its cells one by one. -/
theorem cellBytes_eq_map {m : List Host.Cell} (h : Memory.wf m = true) (a n : Nat) :
    cellBytes m a n = (List.range n).map (fun i => cellGet m (a + i)) := by
  have hp := ((swf_iff _ _).1 h).1
  unfold cellBytes
  refine List.map_congr_left (fun i hi => ?_)
  have hi : i < n := List.mem_range.1 hi
  rw [sget_takeWhile (hp.sublist (List.dropWhile_sublist _)) (by omega), sget_dropWhile (by omega)]
  rfl

/-! ## Writing -/

section
variable {m : List Host.Cell} (h : Memory.wf m = true) (a : Nat) (bs : List Byte)
include h

theorem cellGet_cellWrite_inside {i : Nat} (hi : i < bs.length) : cellGet (cellWrite m a bs) (a + i) = bs.getD i 0 := by
  have hp := ((swf_iff _ _).1 h).1
  have ht : ∀ e ∈ m.takeWhile (fun c => Nat.blt c.1 a), e.1 ≠ a + i := fun e he => by have := takeWhile_addr_lt he; omega
  have hd : ∀ e ∈ m.dropWhile (fun c => Nat.blt c.1 (a + bs.length)), e.1 ≠ a + i := fun e he => by
    have := dropWhile_lt _ hp e he; omega
  rw [cellGet, cellWrite, sget_append_left 0 hd, sget_append_right 0 ht, sget_asCells]

theorem cellGet_cellWrite_outside {b : Nat} (hb : b < a ∨ a + bs.length ≤ b) : cellGet (cellWrite m a bs) b = cellGet m b := by
  have hp := ((swf_iff _ _).1 h).1
  have hc : ∀ e ∈ asCells a bs, e.1 ≠ b := fun e he => by have := asCells_mem he; omega
  rcases hb with hb | hb
  · have hd : ∀ e ∈ m.dropWhile (fun c => Nat.blt c.1 (a + bs.length)), e.1 ≠ b := fun e he => by
      have := dropWhile_lt _ hp e he; omega
    rw [cellGet, cellWrite, sget_append_left 0 hd, sget_append_left 0 hc, sget_takeWhile hp hb]
    rfl
  · have ht : ∀ e ∈ m.takeWhile (fun c => Nat.blt c.1 a), e.1 ≠ b := fun e he => by have := takeWhile_addr_lt he; omega
    rw [cellGet, cellWrite, List.append_assoc, sget_append_right 0 ht, sget_append_right 0 hc, sget_dropWhile hb]
    rfl

theorem cellBytes_cellWrite : cellBytes (cellWrite m a bs) a bs.length = bs := by
  rw [cellBytes_eq_map (cellWrite_wf a bs h)]
  refine List.ext_getElem (by simp) (fun i hi _ => ?_)
  have hi : i < bs.length := by simpa using hi
  rw [List.getElem_map, List.getElem_range, cellGet_cellWrite_inside h a bs hi, List.getD_eq_getElem _ _ hi]

end

/-- In canonical form equal reads mean equal arrays: the lowest address listed is the lowest that does not read 0. -/
theorem eq_of_cellGet_eq {m n : List Host.Cell} (hm : Memory.wf m = true) (hn : Memory.wf n = true)
    (h : ∀ b, cellGet m b = cellGet n b) : m = n := by
  obtain ⟨hmp, hm0⟩ := (swf_iff _ _).1 hm
  obtain ⟨hnp, hn0⟩ := (swf_iff _ _).1 hn
  clear hm hn
  induction m generalizing n with
  | nil =>
    cases n with
    | nil => rfl
    | cons e n =>
      obtain ⟨j, v⟩ := e
      have := h j
      rw [cellGet, cellGet, sget, sget, if_pos rfl] at this
      exact absurd this.symm (hn0 _ List.mem_cons_self)
  | cons e m ih =>
    obtain ⟨j, v⟩ := e
    cases n with
    | nil =>
      have := h j
      rw [cellGet, cellGet, sget, sget, if_pos rfl] at this
      exact absurd this (hm0 _ List.mem_cons_self)
    | cons e n =>
      obtain ⟨k, w⟩ := e
      obtain ⟨hjm, hmp'⟩ := List.pairwise_cons.1 hmp
      obtain ⟨hkn, hnp'⟩ := List.pairwise_cons.1 hnp
      have hj := h j
      have hk := h k
      simp only [cellGet, sget, if_true] at hj hk
      have hjk : j = k := by
        by_contra hne
        rw [if_neg (Ne.symm hne)] at hj
        rw [if_neg hne] at hk
        rcases Nat.lt_or_gt_of_ne hne with hlt | hlt
        · rw [sget_of_absent 0 (fun e he => by have : k < e.1 := hkn e he; omega)] at hj
          exact hm0 _ List.mem_cons_self hj
        · rw [sget_of_absent 0 (fun e he => by have : j < e.1 := hjm e he; omega)] at hk
          exact hn0 _ List.mem_cons_self hk.symm
      subst hjk
      rw [if_pos rfl] at hj
      subst hj
      congr 1
      refine ih (fun b => ?_) hmp' (fun e he => hm0 e (List.mem_cons_of_mem _ he)) hnp' (fun e he => hn0 e (List.mem_cons_of_mem _ he))
      by_cases hb : j = b
      · subst hb
        rw [cellGet, cellGet, sget_of_absent 0 (fun e he => by have : j < e.1 := hjm e he; omega),
          sget_of_absent 0 (fun e he => by have : j < e.1 := hkn e he; omega)]
      · have := h b
        rwa [cellGet, cellGet, sget, sget, if_neg hb, if_neg hb] at this

/-- Settles O59: reads of a written array, byte by byte; canonical arrays are determined by their reads. -/
theorem strongboxReadsBackWrites : Obligations.StrongboxReadsBackWrites := by
  intro m a bs h
  refine ⟨cellWrite_wf a bs h, cellBytes_cellWrite h a bs, fun b hb => cellGet_cellWrite_outside h a bs hb, fun n m' hm' heq => ?_⟩
  have : m' = m := eq_of_cellGet_eq hm' h heq
  exact ⟨this, by rw [this]⟩

/-- Settles O60: the state after reset is closed data, so its registers are read off it. -/
theorem resetHoldsSpecValues : Obligations.ResetHoldsSpecValues := by
  unfold Obligations.ResetHoldsSpecValues memoryOk Sized
  and_intros <;> decide +kernel

end Sys2Proof.Machine
end

section
/-! SUPPORT. Three facts that every operation keeps: the canonical Strongbox array, the sizes of the tables, the blown fuse. -/

namespace Sys2Proof.Machine

/-- The facts that hold of a state and that every operation keeps. -/
inductive Fact where
  | memory | sizes | fuse
  /-- The next request number is at least `n`. -/
  | numbered (n : Nat)

/-! ## What a fact says of each part of the state -/

def LdsFact (φ : Fact) (l : List Ld) : Prop := φ = .sizes → l.length = 64
def PortsFact (φ : Fact) (l : List Port) : Prop := φ = .sizes → l.length = 4
def ReqsFact (φ : Fact) (l : List Req) (n : Nat) : Prop := (φ = .sizes → ∀ r ∈ l, r.id < n) ∧ ∀ k, φ = .numbered k → k ≤ n
def HostFact (φ : Fact) (x : HostSt) : Prop := LdsFact φ x.lds ∧ PortsFact φ x.ports ∧ ReqsFact φ x.reqs x.nextReq
def QueueFact (φ : Fact) (x : QueueSt) : Prop := φ = .sizes → x.queues.length = 64
def ThermFact (φ : Fact) (x : ThermSt) : Prop := φ = .sizes → x.sensors.length = 64
def PowerFact (φ : Fact) (x : PowerSt) : Prop := φ = .sizes → x.rails.length = 32
def SbFact (φ : Fact) (x : SbSt) : Prop := φ = .memory → Memory.wf x.cells = true
def SecFact (φ : Fact) (x : SecSt) : Prop := φ = .fuse → x.pl2Fuse = true

/-- Fact `φ` holds of a state. -/
structure Holds (φ : Fact) (s : State) : Prop where
  host : HostFact φ s.host
  queue : QueueFact φ s.queue
  sb : SbFact φ s.sb
  power : PowerFact φ s.power
  therm : ThermFact φ s.therm
  sec : SecFact φ s.sec

theorem holds_memory (s : State) : Holds .memory s ↔ memoryOk s :=
  ⟨fun h => h.sb rfl, fun h => ⟨⟨nofun, nofun, nofun, nofun⟩, nofun, fun _ => h, nofun, nofun, nofun⟩⟩

theorem holds_sizes (s : State) : Holds .sizes s ↔ Sized s :=
  ⟨fun ⟨⟨hl, hp, hr, _⟩, hq, _, hw, ht, _⟩ => ⟨hq rfl, ht rfl, hl rfl, hp rfl, hw rfl, hr rfl⟩,
    fun ⟨hq, ht, hl, hp, hw, hr⟩ => ⟨⟨fun _ => hl, fun _ => hp, fun _ => hr, nofun⟩, fun _ => hq, nofun, fun _ => hw, fun _ => ht, nofun⟩⟩

theorem holds_fuse (s : State) : Holds .fuse s ↔ s.sec.pl2Fuse = true :=
  ⟨fun h => h.sec rfl, fun h => ⟨⟨nofun, nofun, nofun, nofun⟩, nofun, nofun, nofun, nofun, fun _ => h⟩⟩

theorem holds_numbered (n : Nat) (s : State) : Holds (.numbered n) s ↔ n ≤ s.host.nextReq :=
  ⟨fun h => h.host.2.2.2 n rfl, fun h => ⟨⟨nofun, nofun, nofun, fun _ hk => Fact.numbered.inj hk ▸ h⟩, nofun, nofun, nofun, nofun, nofun⟩⟩

/-! ## A record update, a choice, a fold -/

section
variable {φ : Fact}

theorem holds_ite {c : Prop} [Decidable c] {a b : State} (ha : Holds φ a) (hb : Holds φ b) : Holds φ (if c then a else b) := by
  split <;> assumption

/-- An update of other sections. -/
theorem holds_mk {s : State} {x_pending x_out x_free x_variant x_id x_time x_tt x_unit x_cache x_rstat x_write x_xlat x_mm x_lp x_media x_span x_wb x_evt x_start x_fw} :
    Holds φ (State.mk x_pending x_out x_free x_variant x_id x_time x_tt x_unit s.host x_cache x_rstat x_write x_xlat x_mm x_lp x_media x_span s.queue x_wb x_evt s.sb s.power s.therm x_start x_fw s.sec) ↔ Holds φ s :=
  ⟨fun h => ⟨h.host, h.queue, h.sb, h.power, h.therm, h.sec⟩, fun h => ⟨h.host, h.queue, h.sb, h.power, h.therm, h.sec⟩⟩

/-! An update of one of the six sections, beside any others. -/

section
variable {s : State} (h : Holds φ s) {x_pending : List Instr} {x_out : List Out} {x_free : Nat} {x_variant : Variant} {x_id : IdSt} {x_time : TimeSt}
  {x_tt : TtSt} {x_unit : UnitSt} {x_cache : CacheSt} {x_rstat : ReadStat} {x_write : WriteSt} {x_xlat : XlatSt} {x_mm : MmSt} {x_lp : LpSt}
  {x_media : MediaSt} {x_span : SpanSt} {x_wb : WaybillSt} {x_evt : EvtSt} {x_start : StartSt} {x_fw : FwSt}
include h

theorem holds_mk_host {x : HostSt} (hx : HostFact φ x) : Holds φ (State.mk x_pending x_out x_free x_variant x_id x_time x_tt x_unit x x_cache
    x_rstat x_write x_xlat x_mm x_lp x_media x_span s.queue x_wb x_evt s.sb s.power s.therm x_start x_fw s.sec) :=
  ⟨hx, h.queue, h.sb, h.power, h.therm, h.sec⟩

theorem holds_mk_queue {x : QueueSt} (hx : QueueFact φ x) : Holds φ (State.mk x_pending x_out x_free x_variant x_id x_time x_tt x_unit s.host
    x_cache x_rstat x_write x_xlat x_mm x_lp x_media x_span x x_wb x_evt s.sb s.power s.therm x_start x_fw s.sec) :=
  ⟨h.host, hx, h.sb, h.power, h.therm, h.sec⟩

theorem holds_mk_sb {x : SbSt} (hx : SbFact φ x) : Holds φ (State.mk x_pending x_out x_free x_variant x_id x_time x_tt x_unit s.host
    x_cache x_rstat x_write x_xlat x_mm x_lp x_media x_span s.queue x_wb x_evt x s.power s.therm x_start x_fw s.sec) :=
  ⟨h.host, h.queue, hx, h.power, h.therm, h.sec⟩

theorem holds_mk_power {x : PowerSt} (hx : PowerFact φ x) : Holds φ (State.mk x_pending x_out x_free x_variant x_id x_time x_tt x_unit s.host
    x_cache x_rstat x_write x_xlat x_mm x_lp x_media x_span s.queue x_wb x_evt s.sb x s.therm x_start x_fw s.sec) :=
  ⟨h.host, h.queue, h.sb, hx, h.therm, h.sec⟩

theorem holds_mk_therm {x : ThermSt} (hx : ThermFact φ x) : Holds φ (State.mk x_pending x_out x_free x_variant x_id x_time x_tt x_unit s.host
    x_cache x_rstat x_write x_xlat x_mm x_lp x_media x_span s.queue x_wb x_evt s.sb s.power x x_start x_fw s.sec) :=
  ⟨h.host, h.queue, h.sb, h.power, hx, h.sec⟩

theorem holds_mk_sec {x : SecSt} (hx : SecFact φ x) : Holds φ (State.mk x_pending x_out x_free x_variant x_id x_time x_tt x_unit s.host
    x_cache x_rstat x_write x_xlat x_mm x_lp x_media x_span s.queue x_wb x_evt s.sb s.power s.therm x_start x_fw x) :=
  ⟨h.host, h.queue, h.sb, h.power, h.therm, hx⟩

end

theorem holds_foldl {α : Type} {g : State → α → State} {l : List α} {s : State} (h : Holds φ s) (hg : ∀ s a, Holds φ s → Holds φ (g s a)) :
    Holds φ (l.foldl g s) := by
  induction l generalizing s with
  | nil => exact h
  | cons a l ih => exact ih (hg _ _ h)

theorem holds_foldl_snd {α β : Type} {g : β × State → α → β × State} {l : List α} {p : β × State} (h : Holds φ p.2)
    (hg : ∀ p a, Holds φ p.2 → Holds φ (g p a).2) : Holds φ (l.foldl g p).2 := by
  induction l generalizing p with
  | nil => exact h
  | cons a l ih => exact ih (hg _ _ h)

/-- A result whose value changes and whose state does not. -/
theorem holds_pair {α β : Type} (g : α → β) {r : α × State} (h : Holds φ r.2) : Holds φ (g r.1, r.2).2 := h

theorem holds_times {g : State → State} (n : Nat) {s : State} (h : Holds φ s) (hg : ∀ s, Holds φ s → Holds φ (g s)) : Holds φ (times n g s) := by
  induction n generalizing s with
  | zero => exact h
  | succ n ih => exact ih (hg _ h)

/-! ## Updates of the host ports -/

theorem hostFact_mk {x : HostSt} {x_gpf x_lane x_dirty x_mem x_media x_ready x_reset x_held x_un x_vol x_per} :
    HostFact φ ⟨x.ports, x.lds, x.reqs, x.nextReq, x_gpf, x_lane, x_dirty, x_mem, x_media, x_ready, x_reset, x_held, x_un, x_vol, x_per⟩ ↔ HostFact φ x := Iff.rfl

theorem hostFact_mk_all {x_ports x_lds x_reqs x_next} {x_gpf x_lane x_dirty x_mem x_media x_ready x_reset x_held x_un x_vol x_per} :
    HostFact φ ⟨x_ports, x_lds, x_reqs, x_next, x_gpf, x_lane, x_dirty, x_mem, x_media, x_ready, x_reset, x_held, x_un, x_vol, x_per⟩ ↔
      LdsFact φ x_lds ∧ PortsFact φ x_ports ∧ ReqsFact φ x_reqs x_next := Iff.rfl

theorem Holds.lds {s : State} (h : Holds φ s) : LdsFact φ s.host.lds := h.host.1
theorem Holds.ports {s : State} (h : Holds φ s) : PortsFact φ s.host.ports := h.host.2.1
theorem Holds.reqs {s : State} (h : Holds φ s) : ReqsFact φ s.host.reqs s.host.nextReq := h.host.2.2

theorem ldsFact_lmod {l : List Ld} (h : LdsFact φ l) (n : Nat) (f : Ld → Ld) : LdsFact φ (lmod l n f) :=
  fun hk => (lmod_length l n f).trans (h hk)

theorem ldsFact_map {l : List Ld} (h : LdsFact φ l) (f : Ld → Ld) : LdsFact φ (l.map f) := fun hk => List.length_map f |>.trans (h hk)

theorem ldsFact_mapIdx {l : List Ld} (h : LdsFact φ l) (f : Nat → Ld → Ld) : LdsFact φ (l.mapIdx f) :=
  fun hk => List.length_mapIdx.trans (h hk)

theorem portsFact_lmod {l : List Port} (h : PortsFact φ l) (n : Nat) (f : Port → Port) : PortsFact φ (lmod l n f) :=
  fun hk => (lmod_length l n f).trans (h hk)

theorem portsFact_map {l : List Port} (h : PortsFact φ l) (f : Port → Port) : PortsFact φ (l.map f) :=
  fun hk => List.length_map f |>.trans (h hk)

theorem portsFact_mapIdx {l : List Port} (h : PortsFact φ l) (f : Nat → Port → Port) : PortsFact φ (l.mapIdx f) :=
  fun hk => List.length_mapIdx.trans (h hk)

theorem reqsFact_filter {l : List Req} {n : Nat} (h : ReqsFact φ l n) (p : Req → Bool) : ReqsFact φ (l.filter p) n :=
  ⟨fun hk r hr => h.1 hk r (List.mem_of_mem_filter hr), h.2⟩

theorem reqsFact_nil {l : List Req} {n : Nat} (h : ReqsFact φ l n) : ReqsFact φ [] n := ⟨fun _ _ hr => (nomatch hr), h.2⟩

/-- A request that keeps its number keeps its place in the order. -/
theorem reqsFact_map {l : List Req} {n : Nat} {f : Req → Req} (h : ReqsFact φ l n) (hf : ∀ r, (f r).id = r.id) : ReqsFact φ (l.map f) n := by
  refine ⟨fun hk r hr => ?_, h.2⟩
  obtain ⟨q, hq, rfl⟩ := List.mem_map.1 hr
  rw [hf]
  exact h.1 hk q hq

theorem reqsFact_succ {l : List Req} {n : Nat} (h : ReqsFact φ l n) : ReqsFact φ l (n + 1) :=
  ⟨fun hk r hr => Nat.lt_succ_of_lt (h.1 hk r hr), fun k hk => Nat.le_succ_of_le (h.2 k hk)⟩

/-- A request whose number was given out. -/
theorem reqsFact_append {l : List Req} {n : Nat} {q : Req} (h : ReqsFact φ l n) (hq : φ = .sizes → q.id < n) : ReqsFact φ (l ++ [q]) n := by
  refine ⟨fun hk r hr => ?_, h.2⟩
  rcases List.mem_append.1 hr with hr | hr
  · exact h.1 hk r hr
  · obtain rfl := List.mem_singleton.1 hr
    exact hq hk

/-- A request taken with the next number. -/
theorem reqsFact_append_next {l : List Req} {n : Nat} {q : Req} (h : ReqsFact φ l n) (hq : q.id = n) : ReqsFact φ (l ++ [q]) (n + 1) :=
  reqsFact_append (reqsFact_succ h) (fun _ => hq ▸ Nat.lt_succ_self _)

/-! ## Updates of the other sections -/

theorem queueFact_lmod {x : QueueSt} (h : QueueFact φ x) (n : Nat) (f : Queue → Queue) {x_valid x_poison x_word} :
    QueueFact φ ⟨lmod x.queues n f, x_valid, x_poison, x_word⟩ := fun hk => (lmod_length _ n f).trans (h hk)

theorem queueFact_mk {x : QueueSt} {x_valid x_poison x_word} : QueueFact φ ⟨x.queues, x_valid, x_poison, x_word⟩ ↔ QueueFact φ x := Iff.rfl

theorem sbFact_mk {x : SbSt} {x_queue x_running x_wait x_clock x_low x_ok x_vaux x_band x_flag x_mv x_abandon x_weak x_tie x_wbase} :
    SbFact φ ⟨x.cells, x_queue, x_running, x_wait, x_clock, x_low, x_ok, x_vaux, x_band, x_flag, x_mv, x_abandon, x_weak, x_tie, x_wbase⟩ ↔
      SbFact φ x := Iff.rfl

/-- The power section with its rails as they were, whatever else changed. -/
theorem powerFact_of_rails {x y : PowerSt} (h : y.rails = x.rails) (hx : PowerFact φ x) : PowerFact φ y := fun hk => (congrArg List.length h).trans (hx hk)

theorem thermFact_of_sensors {x y : ThermSt} (h : y.sensors = x.sensors) (hx : ThermFact φ x) : ThermFact φ y :=
  fun hk => (congrArg List.length h).trans (hx hk)

theorem secFact_of_fuse {x y : SecSt} (h : y.pl2Fuse = x.pl2Fuse) (hx : SecFact φ x) : SecFact φ y := fun hk => h.trans (hx hk)

end

end Sys2Proof.Machine
end
section
namespace Sys2Proof.Machine
set_option linter.all false
section
variable {φ : Fact}

theorem fire_holds (p : ℕ) (u : ℕ) (s : State) (hφ : Holds φ s) : Holds φ (fire p u s) := by
  unfold fire
  repeat' with_reducible first | assumption | simp only [holds_mk]

theorem hbmWrite_holds (u : HbmUnit) (s : State) (hφ : Holds φ s) : Holds φ (hbmWrite u s) := by
  unfold hbmWrite
  repeat' with_reducible first | assumption | apply fire_holds | simp only [holds_mk] | split

theorem drawBits_holds (w : ℕ) (s : State) (hφ : Holds φ s) : Holds φ (drawBits w s).2 := by
  unfold drawBits
  repeat' with_reducible first | assumption | simp only [holds_mk]

theorem startRemap_holds (p : ℕ × ℕ) (s : State) (hφ : Holds φ s) : Holds φ (startRemap p s) := by
  unfold startRemap
  repeat' with_reducible first | assumption | apply holds_ite | simp only [holds_mk]

theorem sbAbandon_holds (s : State) (r : SbReq) (hφ : Holds φ s) : Holds φ (sbAbandon s r) := by
  unfold sbAbandon
  split
  · exact ⟨hφ.host, hφ.queue, hφ.sb, hφ.power, hφ.therm, hφ.sec⟩
  · exact ⟨hφ.host, hφ.queue, hφ.sb, hφ.power, hφ.therm, hφ.sec⟩

theorem sbApply_holds (s : State) (x1 : SbReq) (hφ : Holds φ s) : Holds φ (sbApply s x1) := by
  have hfire (p u : Nat) (c : Prop) [Decidable c] : Holds φ (if c then fire p u s else s) := holds_ite (fire_holds _ _ _ hφ) hφ
  unfold sbApply
  split
  · exact holds_mk_sb (hfire 0x000E 0 _) (fun hk => ringUpdate_wf _ _ _ _ (hφ.sb hk))
  · exact holds_mk_sb hφ (fun hk => cellWrite_wf _ _ (hφ.sb hk))
  · exact holds_mk.2 (hfire 0x0013 0 _)

theorem sbStartFrom_holds (x0 : List SbReq) (x1 : State) (hφ : Holds φ x1) : Holds φ (sbStartFrom x0 x1) := by
  induction x0 generalizing x1 with
  | nil => exact holds_mk_sb hφ hφ.sb
  | cons r l ih =>
    unfold sbStartFrom
    split
    · exact holds_mk_sb (sbApply_holds _ r hφ) (sbApply_holds _ r hφ).sb
    · exact ih _ (sbAbandon_holds _ r hφ)

theorem sbStart_holds (s : State) (hφ : Holds φ s) : Holds φ (sbStart s) := by
  unfold sbStart
  repeat' with_reducible first | assumption | apply sbStartFrom_holds | split

theorem sbEnqueue_holds (s : State) (r : SbReq) (hφ : Holds φ s) : Holds φ (sbEnqueue s r) := by
  exact sbStart_holds _ (holds_mk_sb hφ hφ.sb)

theorem wbPump_holds (s : State) (hφ : Holds φ s) : Holds φ (wbPump s) := by
  unfold wbPump
  repeat' with_reducible first | assumption | apply sbEnqueue_holds | simp only [holds_mk] | split

theorem wbFlush_holds (s : State) (hφ : Holds φ s) : Holds φ (wbFlush s) := by
  unfold wbFlush
  repeat' with_reducible first | assumption | apply wbPump_holds | simp only [holds_mk]

theorem wbTrigger_holds (sev : ℕ) (s : State) (hφ : Holds φ s) : Holds φ (wbTrigger sev s) := by
  unfold wbTrigger
  repeat' with_reducible first | assumption | apply wbFlush_holds | apply holds_ite

theorem send_holds (s : State) (o : Out) (hφ : Holds φ s) : Holds φ (send s o) := by
  unfold send
  repeat' with_reducible first | assumption | simp only [holds_mk]

theorem pendVec_holds (f : ℕ) (v : ℕ) (s : State) (hφ : Holds φ s) : Holds φ (pendVec f v s) := by
  unfold pendVec
  repeat' with_reducible first | assumption | apply holds_ite | simp only [holds_mk]

theorem signal_holds (v : BitVec 5) (s : State) (hφ : Holds φ s) : Holds φ (signal v s) := by
  unfold signal
  repeat' with_reducible first | assumption | apply pendVec_holds | apply send_holds | apply holds_ite | refine holds_foldl ?_ (fun _ _ _ => ?_)

theorem setEvt_holds (b : ℕ) (s : State) (hφ : Holds φ s) : Holds φ (setEvt b s) := by
  unfold setEvt
  repeat' with_reducible first | assumption | apply signal_holds | apply holds_ite | simp only [holds_mk]

theorem evFlags_holds (e : Ev) (s : State) (hφ : Holds φ s) : Holds φ (evFlags e s) := by
  unfold evFlags
  repeat' with_reducible first | assumption | apply setEvt_holds | apply holds_ite

theorem setQ_holds (q : ℕ) (f : Queue → Queue) (s : State) (hφ : Holds φ s) : Holds φ (setQ q f s) := by
  exact holds_mk_queue hφ (queueFact_lmod hφ.queue _ _)

theorem qGrant_holds (q : ℕ) (s : State) (hφ : Holds φ s) : Holds φ (qGrant q s) := by
  unfold qGrant
  repeat' with_reducible first | assumption | apply setQ_holds | apply holds_ite

theorem qPush_holds (q : ℕ) (w : BitVec 64) (poison : Bool) (s : State) (hφ : Holds φ s) : Holds φ (qPush q w poison s).2 := by
  unfold qPush
  repeat' with_reducible first | assumption | apply qGrant_holds | apply fire_holds | apply setQ_holds | apply holds_ite | simp only [apply_ite Prod.snd]

theorem hostNotice_holds (code : ℕ) (unit : ℕ) (param : ℕ) (s : State) (hφ : Holds φ s) : Holds φ (hostNotice code unit param s) := by
  unfold hostNotice
  repeat' with_reducible first | assumption | apply qPush_holds | apply holds_ite

theorem logPend_holds (l : ℕ) (i : ℕ) (d : Ld) (s : State) (hφ : Holds φ s) : Holds φ (logPend l i d s) := by
  unfold logPend
  repeat' with_reducible first | assumption | apply pendVec_holds | apply holds_ite

theorem deliver_holds (s : State) (r : WbRec) (vc : Option ℕ) (hφ : Holds φ s) : Holds φ (deliver s r vc) := by
  unfold deliver
  repeat' with_reducible first | assumption | apply logPend_holds | refine holds_foldl ?_ (fun _ _ _ => ?_) | split | apply holds_mk_host | refine hostFact_mk_all.2 ⟨?_, ?_, ?_⟩ | apply ldsFact_lmod | apply ldsFact_mapIdx | apply Holds.lds | apply Holds.ports | apply Holds.reqs

theorem toHost_holds (s : State) (r : WbRec) (vc : Option ℕ) (hφ : Holds φ s) : Holds φ (toHost s r vc) := by
  unfold toHost
  repeat' with_reducible first | assumption | apply deliver_holds | apply holds_ite | simp only [holds_mk]

theorem wbLost_holds (sev : ℕ) (old : Option (BitVec 32)) (s : State) (hφ : Holds φ s) : Holds φ (wbLost sev old s) := by
  unfold wbLost
  repeat' with_reducible first | assumption | apply setEvt_holds | simp only [holds_mk]

theorem wbAppend_holds (r : WbRec) (s : State) (hφ : Holds φ s) : Holds φ (wbAppend r s) := by
  unfold wbAppend
  repeat' with_reducible first | assumption | simp only [holds_mk]

theorem wbArrive_holds (r : WbRec) (s : State) (hφ : Holds φ s) : Holds φ (wbArrive r s).2 := by
  unfold wbArrive
  repeat' with_reducible first | assumption | apply wbAppend_holds | apply wbLost_holds | apply holds_ite | simp only [holds_mk] | simp only [apply_ite Prod.snd]

theorem event_holds (e : Ev) (s : State) (hφ : Holds φ s) : Holds φ (event e s) := by
  unfold event
  repeat' with_reducible first | assumption | apply evFlags_holds | apply wbArrive_holds | apply wbTrigger_holds | apply hostNotice_holds | apply toHost_holds | apply holds_ite | simp only [holds_mk]

theorem ceError_holds (cls : ℕ) (ix : ℕ) (s : State) (hφ : Holds φ s) : Holds φ (ceError cls ix s) := by
  unfold ceError
  repeat' with_reducible first | assumption | apply event_holds | apply holds_ite | apply holds_mk_host | refine hostFact_mk_all.2 ⟨?_, ?_, ?_⟩ | apply Holds.lds | apply Holds.ports | apply Holds.reqs

theorem hbmCorrect_holds (p : ℕ × ℕ) (s : State) (hφ : Holds φ s) : Holds φ (hbmCorrect p s) := by
  unfold hbmCorrect
  repeat' with_reducible first | assumption | apply ceError_holds | apply startRemap_holds | apply holds_ite | simp only [holds_mk]

theorem hbmMeet.hbmErrMeet_holds (u : HbmUnit) (s : State) (hφ : Holds φ s) : Holds φ (hbmMeet.hbmErrMeet u s).2 := by
  unfold hbmMeet.hbmErrMeet
  repeat' with_reducible first | assumption | apply event_holds | apply drawBits_holds | apply startRemap_holds | apply hbmWrite_holds | apply hbmCorrect_holds | simp only [holds_mk] | split

theorem hbmMeet_holds (u : HbmUnit) (s : State) (hφ : Holds φ s) : Holds φ (hbmMeet u s).2 := by
  unfold hbmMeet
  repeat' with_reducible first | assumption | apply event_holds | apply hbmMeet.hbmErrMeet_holds | split

theorem tagTouch_holds (tag : ℕ) (s : State) (hφ : Holds φ s) : Holds φ (tagTouch tag s) := by
  unfold tagTouch
  repeat' with_reducible first | assumption | apply ceError_holds | apply fire_holds | simp only [holds_mk] | split

theorem pageTagTouch_holds (page : ℕ) (s : State) (hφ : Holds φ s) : Holds φ (pageTagTouch page s) := by
  unfold pageTagTouch
  repeat' with_reducible first | assumption | apply tagTouch_holds

theorem pageDrop_holds (k : ℕ) (s : State) (hφ : Holds φ s) : Holds φ (pageDrop k s) := by
  unfold pageDrop
  repeat' with_reducible first | assumption | apply hbmWrite_holds | apply pageTagTouch_holds | apply holds_ite | simp only [holds_mk]

theorem pageClear_holds (lln : ℕ) (s : State) (hφ : Holds φ s) : Holds φ (pageClear lln s) := by
  unfold pageClear
  repeat' with_reducible first | assumption | apply hbmWrite_holds | apply pageTagTouch_holds | simp only [holds_mk] | split

theorem pageRead_holds (lln : ℕ) (s : State) (hφ : Holds φ s) : Holds φ (pageRead lln s).2 := by
  unfold pageRead
  repeat' with_reducible first | assumption | apply hbmMeet_holds | apply pageDrop_holds | apply pageClear_holds | dsimp only | split

theorem pageFill_holds (lln : ℕ) (data : Line) (s : State) (hφ : Holds φ s) : Holds φ (pageFill lln data s) := by
  unfold pageFill
  repeat' with_reducible first | assumption | apply pageDrop_holds | apply hbmWrite_holds | apply pageTagTouch_holds | simp only [holds_mk] | split

theorem pageUpdate_holds (lln : ℕ) (d : DSlot) (s : State) (hφ : Holds φ s) : Holds φ (pageUpdate lln d s) := by
  unfold pageUpdate
  repeat' with_reducible first | assumption | apply pageFill_holds | apply pageRead_holds | dsimp only | split

theorem slotTagTouch_holds (lln : ℕ) (s : State) (hφ : Holds φ s) : Holds φ (slotTagTouch lln s) := by
  unfold slotTagTouch
  repeat' with_reducible first | assumption | apply tagTouch_holds | refine holds_foldl ?_ (fun _ _ _ => ?_) | split

theorem tagsWritten_holds (lln : ℕ) (s : State) (hφ : Holds φ s) : Holds φ (tagsWritten lln s) := by
  unfold tagsWritten
  repeat' with_reducible first | assumption | apply hbmWrite_holds | apply slotTagTouch_holds

theorem freeSlot_holds (lln : ℕ) (s : State) (hφ : Holds φ s) : Holds φ (freeSlot lln s) := by
  unfold freeSlot
  repeat' with_reducible first | assumption | apply hbmWrite_holds | apply tagsWritten_holds | simp only [holds_mk]

theorem updLoad_holds (s : State) (hφ : Holds φ s) : Holds φ (updLoad s) := by
  unfold updLoad
  repeat' with_reducible first | assumption | simp only [holds_mk]

theorem completeThrough_holds (s : State) (hφ : Holds φ s) : Holds φ (completeThrough s) := by
  unfold completeThrough
  repeat' with_reducible first | assumption | apply send_holds | apply updLoad_holds | apply holds_ite | simp only [holds_mk] | refine holds_foldl ?_ (fun _ _ _ => ?_) | apply holds_mk_host | refine hostFact_mk_all.2 ⟨?_, ?_, ?_⟩ | apply reqsFact_filter | apply Holds.lds | apply Holds.ports | apply Holds.reqs

theorem endJob_holds (id : BitVec 16) (mstat : ℕ) (s : State) (hφ : Holds φ s) : Holds φ (endJob id mstat s) := by
  unfold endJob
  repeat' with_reducible first | assumption | apply drawBits_holds | apply event_holds | simp only [holds_mk] | split

theorem ncSetWay_holds (s : State) (k : ℕ) (w : NcWay) (hφ : Holds φ s) : Holds φ (ncSetWay s k w) := by
  unfold ncSetWay
  repeat' with_reducible first | assumption | simp only [holds_mk]

theorem invalidateLine_holds (lln : ℕ) (s : State) (hφ : Holds φ s) : Holds φ (invalidateLine lln s) := by
  unfold invalidateLine
  repeat' with_reducible first | assumption | apply ncSetWay_holds | apply pageClear_holds | apply holds_ite | simp only [holds_mk] | refine holds_foldl ?_ (fun _ _ _ => ?_)

theorem flushJobs_holds (done : Option ℕ) (s : State) (hφ : Holds φ s) : Holds φ (flushJobs done s) := by
  unfold flushJobs
  repeat' with_reducible first | assumption | apply invalidateLine_holds | apply endJob_holds | simp only [holds_mk] | refine holds_foldl ?_ (fun _ _ _ => ?_) | split

theorem markSlot_holds (lln : ℕ) (f : DSlot → DSlot) (s : State) (hφ : Holds φ s) : Holds φ (markSlot lln f s) := by
  unfold markSlot
  repeat' with_reducible first | assumption | apply tagsWritten_holds | simp only [holds_mk] | split

theorem lineClean_holds (lln : ℕ) (s : State) (hφ : Holds φ s) : Holds φ (lineClean lln s) := by
  unfold lineClean
  repeat' with_reducible first | assumption | apply markSlot_holds | apply pageUpdate_holds | apply freeSlot_holds | apply flushJobs_holds | apply completeThrough_holds | apply updLoad_holds | split

theorem setBand_holds (b : ℕ) (f : Band → Band) (s : State) (hφ : Holds φ s) : Holds φ (setBand b f s) := by
  unfold setBand
  repeat' with_reducible first | assumption | simp only [holds_mk]

theorem markDraining_holds (lfn : ℕ) (v : Bool) (s : State) (hφ : Holds φ s) : Holds φ (markDraining lfn v s) := by
  unfold markDraining
  repeat' with_reducible first | assumption | apply markSlot_holds | refine holds_foldl ?_ (fun _ _ _ => ?_)

theorem setStream_holds (i : ℕ) (f : Machine.Stream → Machine.Stream) (s : State) (hφ : Holds φ s) : Holds φ (setStream i f s) := by
  unfold setStream
  repeat' with_reducible first | assumption | simp only [holds_mk]

theorem sealBatch_holds (r : ℕ) (hdr : List Byte) (b : Batch) (s : State) (hφ : Holds φ s) : Holds φ (sealBatch r hdr b s).2 := by
  unfold sealBatch
  repeat' with_reducible first | assumption | apply setStream_holds | apply fire_holds | simp only [holds_mk] | split

theorem setPeer_holds (r : ℕ) (f : Peer → Peer) (s : State) (hφ : Holds φ s) : Holds φ (setPeer r f s) := by
  unfold setPeer
  repeat' with_reducible first | assumption | simp only [holds_mk]

theorem peerWrite_holds (r : ℕ) (ring : Bool) (m : PeerMsg) (s : State) (hφ : Holds φ s) : Holds φ (peerWrite r ring m s) := by
  unfold peerWrite
  repeat' with_reducible first | assumption | apply setPeer_holds | apply sealBatch_holds | apply send_holds | split

theorem peerSend_holds (r : ℕ) (m : PeerMsg) (s : State) (hφ : Holds φ s) : Holds φ (peerSend r m s) := by
  unfold peerSend
  repeat' with_reducible first | assumption | apply peerWrite_holds | apply setPeer_holds | apply holds_ite

theorem markInflight_holds (lfn : ℕ) (v : Bool) (s : State) (hφ : Holds φ s) : Holds φ (markInflight lfn v s) := by
  unfold markInflight
  repeat' with_reducible first | assumption | simp only [holds_mk]

theorem ftInject_holds (lfn : ℕ) (s : State) (hφ : Holds φ s) : Holds φ (ftInject lfn s) := by
  unfold ftInject
  repeat' with_reducible first | assumption | apply fire_holds | simp only [holds_mk] | split

theorem ftCommit_holds (lfn : ℕ) (e : BitVec 32) (s : State) (hφ : Holds φ s) : Holds φ (ftCommit lfn e s) := by
  unfold ftCommit
  repeat' with_reducible first | assumption | apply hbmWrite_holds | apply ftInject_holds | simp only [holds_mk]

theorem commitQuiet_holds (lfn : ℕ) (e : BitVec 32) (s : State) (hφ : Holds φ s) : Holds φ (commitQuiet lfn e s) := by
  unfold commitQuiet
  repeat' with_reducible first | assumption | apply ftCommit_holds | apply holds_ite

theorem leaveSlot_holds (sl : FoldSlot) (seq : BitVec 48) (s : State) (hφ : Holds φ s) : Holds φ (leaveSlot sl seq s) := by
  unfold leaveSlot
  repeat' with_reducible first | assumption | apply peerSend_holds | apply markInflight_holds | apply markDraining_holds | apply commitQuiet_holds | apply holds_ite | refine holds_foldl ?_ (fun _ _ _ => ?_)

theorem wearBy_holds (f : ℕ) (n : ℕ) (s : State) (hφ : Holds φ s) : Holds φ (wearBy f n s) := by
  unfold wearBy
  repeat' with_reducible first | assumption | simp only [holds_mk]

theorem lineInject_holds (ch : ℕ) (die : ℕ) (l : MediaLine) (s : State) (hφ : Holds φ s) : Holds φ (lineInject ch die l s).2 := by
  unfold lineInject
  repeat' with_reducible first | assumption | apply fire_holds | dsimp only | split

theorem putLine_holds (ch : ℕ) (die : ℕ) (bank : ℕ) (block : ℕ) (addr : ℕ) (v : Cellv) (s : State) (hφ : Holds φ s) : Holds φ (putLine ch die bank block addr v s) := by
  unfold putLine
  repeat' with_reducible first | assumption | simp only [holds_mk]

theorem programLine_holds (ch : ℕ) (die : ℕ) (bank : ℕ) (block : ℕ) (addr : ℕ) (l : MediaLine) (s : State) (hφ : Holds φ s) : Holds φ (programLine ch die bank block addr l s) := by
  unfold programLine
  repeat' with_reducible first | assumption | apply lineInject_holds | apply putLine_holds

theorem descPut_holds (f : ℕ) (copy : ℕ) (k : ℕ) (x3 : ℕ) (s : State) (hφ : Holds φ s) : Holds φ (descPut f copy k x3 s) := by
  unfold descPut
  repeat' with_reducible first | assumption | apply programLine_holds | apply holds_ite

theorem descAllocated_holds (f : ℕ) (s : State) (hφ : Holds φ s) : Holds φ (descAllocated f s) := by
  unfold descAllocated
  repeat' with_reducible first | assumption | apply descPut_holds | apply wearBy_holds | refine holds_foldl ?_ (fun _ _ _ => ?_)

theorem descWrite_holds (f : ℕ) (s : State) (hφ : Holds φ s) : Holds φ (descWrite f s) := by
  unfold descWrite
  repeat' with_reducible first | assumption | apply wearBy_holds | apply descPut_holds | simp only [holds_mk]

theorem setStamp_holds (blk : ℕ) (f : Stamp → Stamp) (s : State) (hφ : Holds φ s) : Holds φ (setStamp blk f s) := by
  unfold setStamp
  repeat' with_reducible first | assumption | simp only [holds_mk]

theorem dropBlock_holds (blk : ℕ) (s : State) (hφ : Holds φ s) : Holds φ (dropBlock blk s) := by
  unfold dropBlock
  repeat' with_reducible first | assumption | simp only [holds_mk]

theorem clearFast_holds (f : ℕ) (ch : ℕ) (die : ℕ) (block : ℕ) (s : State) (hφ : Holds φ s) : Holds φ (clearFast f ch die block s) := by
  unfold clearFast
  repeat' with_reducible first | assumption | apply setStamp_holds | apply dropBlock_holds | apply programLine_holds | apply wearBy_holds | refine holds_foldl ?_ (fun _ _ _ => ?_)

theorem prepareSet_holds (f : ℕ) (s : State) (hφ : Holds φ s) : Holds φ (prepareSet f s) := by
  unfold prepareSet
  repeat' with_reducible first | assumption | apply clearFast_holds | apply holds_ite | refine holds_foldl ?_ (fun _ _ _ => ?_)

theorem fsSet_holds (f : ℕ) (e : BitVec 64) (s : State) (hφ : Holds φ s) : Holds φ (fsSet f e s) := by
  unfold fsSet
  repeat' with_reducible first | assumption | apply fire_holds | simp only [holds_mk] | split

theorem takeSet_holds (f : ℕ) (use : ℕ) (owner : ℕ) (key : ℕ) (s : State) (hφ : Holds φ s) : Holds φ (takeSet f use owner key s) := by
  unfold takeSet
  repeat' with_reducible first | assumption | apply prepareSet_holds | apply fsSet_holds | apply descAllocated_holds | apply descWrite_holds | simp only [holds_mk]

theorem flagCopy_holds (set : ℕ) (copy : ℕ) (s : State) (hφ : Holds φ s) : Holds φ (flagCopy set copy s) := by
  unfold flagCopy
  repeat' with_reducible first | assumption | apply fsSet_holds | apply holds_ite

theorem fastStore_holds (set : ℕ) (copy : ℕ) (pos : ℕ) (l : MediaLine) (s : State) (hφ : Holds φ s) : Holds φ (fastStore set copy pos l s) := by
  unfold fastStore
  repeat' with_reducible first | assumption | apply flagCopy_holds | apply programLine_holds | apply holds_ite

theorem fastStore2_holds (set : ℕ) (pos : ℕ) (l : MediaLine) (s : State) (hφ : Holds φ s) : Holds φ (fastStore2 set pos l s) := by
  unfold fastStore2
  repeat' with_reducible first | assumption | apply fastStore_holds

theorem segPut_holds (k : ℕ) (i : ℕ) (l : MediaLine) (s : State) (hφ : Holds φ s) : Holds φ (segPut k i l s) := by
  unfold segPut
  repeat' with_reducible first | assumption | apply fastStore2_holds

theorem placeSeg_holds (k : ℕ) (g : Seg) (s : State) (hφ : Holds φ s) : Holds φ (placeSeg k g s) := by
  unfold placeSeg
  repeat' with_reducible first | assumption | apply segPut_holds | simp only [holds_mk]

theorem slotWritten_holds (lln : ℕ) (s : State) (hφ : Holds φ s) : Holds φ (slotWritten lln s) := by
  unfold slotWritten
  repeat' with_reducible first | assumption | apply hbmWrite_holds | apply tagsWritten_holds

theorem putSlot_holds (lln : ℕ) (d : DSlot) (s : State) (hφ : Holds φ s) : Holds φ (putSlot lln d s) := by
  unfold putSlot
  repeat' with_reducible first | assumption | apply slotWritten_holds | simp only [holds_mk]

theorem poisonAdd_holds (lln : ℕ) (src : PoisonSrc) (s : State) (hφ : Holds φ s) : Holds φ (poisonAdd lln src s) := by
  unfold poisonAdd
  repeat' with_reducible first | assumption | apply holds_ite | split | apply holds_mk_host | refine hostFact_mk_all.2 ⟨?_, ?_, ?_⟩ | apply ldsFact_lmod | apply Holds.lds | apply Holds.ports | apply Holds.reqs

theorem lineLost_holds (lln : ℕ) (near : Bool) (s : State) (hφ : Holds φ s) : Holds φ (lineLost lln near s) := by
  unfold lineLost
  repeat' with_reducible first | assumption | apply event_holds | apply poisonAdd_holds | apply holds_ite | simp only [holds_mk]

theorem slotRead_holds (lln : ℕ) (s : State) (hφ : Holds φ s) : Holds φ (slotRead lln s).2 := by
  unfold slotRead
  repeat' with_reducible first | assumption | apply hbmMeet_holds | apply freeSlot_holds | apply hbmWrite_holds | apply lineLost_holds | apply putSlot_holds | simp only [holds_mk] | split

theorem frameMeet_holds (lfn : ℕ) (s : State) (hφ : Holds φ s) : Holds φ (frameMeet lfn s) := by
  unfold frameMeet
  repeat' with_reducible first | assumption | apply slotRead_holds | apply pageRead_holds | apply hbmMeet_holds | apply pageDrop_holds | apply holds_ite | refine holds_foldl ?_ (fun _ _ _ => ?_) | split

theorem ncTwin_holds (s : State) (a : ℕ) (b : ℕ) (hφ : Holds φ s) : Holds φ (ncTwin s a b).2 := by
  unfold ncTwin
  repeat' with_reducible first | assumption | apply ceError_holds | apply ncSetWay_holds | apply holds_ite | simp only [apply_ite Prod.snd]

theorem drPlace_holds (lln : ℕ) (mask : BitVec 64) (data : Line) (since : BitVec 64) (s : State) (hφ : Holds φ s) : Holds φ (drPlace lln mask data since s) := by
  unfold drPlace
  repeat' with_reducible first | assumption | apply slotRead_holds | apply putSlot_holds | simp only [holds_mk] | split

theorem tagsTouch_holds (lln : ℕ) (s : State) (hφ : Holds φ s) : Holds φ (tagsTouch lln s) := by
  unfold tagsTouch
  repeat' with_reducible first | assumption | apply tagTouch_holds | refine holds_foldl ?_ (fun _ _ _ => ?_)

theorem ncEvict_holds (k : ℕ) (s : State) (hφ : Holds φ s) : Holds φ (ncEvict k s) := by
  unfold ncEvict
  repeat' with_reducible first | assumption | apply ncSetWay_holds | apply ncTwin_holds | apply drPlace_holds | apply tagsTouch_holds | apply lineLost_holds | simp only [holds_mk] | split

theorem writeBackFrame_holds (lfn : ℕ) (s : State) (hφ : Holds φ s) : Holds φ (writeBackFrame lfn s) := by
  unfold writeBackFrame
  repeat' with_reducible first | assumption | apply ncEvict_holds | refine holds_foldl ?_ (fun _ _ _ => ?_) | split

theorem enterFrame_holds (d : Due) (s : State) (hφ : Holds φ s) : Holds φ (enterFrame d s).2 := by
  unfold enterFrame
  repeat' with_reducible first | assumption | apply frameMeet_holds | apply writeBackFrame_holds | apply markInflight_holds | apply markDraining_holds | apply commitQuiet_holds | simp only [holds_mk] | split

theorem pickSegment_holds (s : State) (k : Nat) (t : State) (h : pickSegment s = some (k, t)) (hφ : Holds φ s) : Holds φ t := by
  unfold pickSegment at h
  split at h
  · cases h; exact hφ
  · split at h
    · cases h; exact takeSet_holds _ _ _ _ _ hφ
    · cases h

theorem ckSegmentFresh_holds (s : State) (k : Nat) (t : State) (h : ckSegment.fresh s = some (k, t)) (hφ : Holds φ s) : Holds φ t := by
  unfold ckSegment.fresh at h
  split at h
  · next hp => cases h; exact holds_mk.2 (placeSeg_holds _ _ _ (pickSegment_holds _ _ _ hp hφ))
  · cases h

theorem ckSegment_holds (s : State) (k : Nat) (t : State) (h : ckSegment s = some (k, t)) (hφ : Holds φ s) : Holds φ t := by
  unfold ckSegment at h
  extract_lets full at h
  split at h
  · split at h
    · exact ckSegmentFresh_holds _ _ _ h hφ
    · cases h; exact hφ
  · exact ckSegmentFresh_holds _ _ _ h hφ

theorem ckRecord_holds (kind : ℕ) (target : ℕ) (entry : BitVec 32) (psnap : BitVec 48) (s : State) (hφ : Holds φ s) : Holds φ (ckRecord kind target entry psnap s).2 := by
  unfold ckRecord
  extract_lets bad s1 c r
  have h1 : Holds φ s1 := holds_ite (fire_holds _ _ _ hφ) hφ
  clear_value s1
  cases hk : ckSegment s1 with
  | none => exact holds_mk.2 h1
  | some p =>
    obtain ⟨k, t⟩ := p
    have ht : Holds φ t := ckSegment_holds _ _ _ hk h1
    simp only [holds_mk]
    exact fastStore_holds _ _ _ _ _ (fastStore_holds _ _ _ _ _ ht)

theorem stateEvent_holds (u : ℕ) (old : UState) (new : UState) (reason : ℕ) (repl : Bool) (s : State) (hφ : Holds φ s) : Holds φ (stateEvent u old new reason repl s) := by
  unfold stateEvent
  repeat' with_reducible first | assumption | apply event_holds

theorem saveUnit_holds (s : State) (u : ℕ) (hφ : Holds φ s) : Holds φ (saveUnit s u) := by
  unfold saveUnit
  repeat' with_reducible first | assumption | apply sbEnqueue_holds | split

theorem mailDown_holds (u : ℕ) (s : State) (hφ : Holds φ s) : Holds φ (mailDown u s) := by
  unfold mailDown
  repeat' with_reducible first | assumption | apply holds_ite | simp only [holds_mk]

theorem setUnit_holds (u : ℕ) (st : UState) (reason : ℕ) (repl : Bool) (s : State) (hφ : Holds φ s) : Holds φ (setUnit u st reason repl s) := by
  unfold setUnit
  repeat' with_reducible first | assumption | apply saveUnit_holds | apply stateEvent_holds | apply mailDown_holds | apply holds_ite | simp only [holds_mk]

theorem dieFailed_holds (die : ℕ) (s : State) (hφ : Holds φ s) : Holds φ (dieFailed die s) := by
  unfold dieFailed
  repeat' with_reducible first | assumption | simp only [holds_mk]

theorem dieCount_holds (what : ℕ) (die : ℕ) (s : State) (hφ : Holds φ s) : Holds φ (dieCount what die s) := by
  unfold dieCount
  repeat' with_reducible first | assumption | apply dieFailed_holds | apply setUnit_holds | apply holds_ite | simp only [holds_mk]

theorem charge_holds (die : ℕ) (s : State) (hφ : Holds φ s) : Holds φ (charge die s) := by
  unfold charge
  repeat' with_reducible first | assumption | apply ceError_holds

theorem weakLine_holds (die : ℕ) (s : State) (hφ : Holds φ s) : Holds φ (weakLine die s) := by
  unfold weakLine
  repeat' with_reducible first | assumption | apply charge_holds | apply dieCount_holds

theorem cellRead_holds (c : Cellv) (s : State) (hφ : Holds φ s) : Holds φ (cellRead c s).2 := by
  unfold cellRead
  repeat' with_reducible first | assumption | apply drawBits_holds | split

theorem copyRead_holds (f : ℕ) (c : ℕ) (pos : ℕ) (seq : Option (BitVec 16)) (s : State) (hφ : Holds φ s) : Holds φ (copyRead f c pos seq s).2 := by
  unfold copyRead
  repeat' with_reducible first | assumption | apply cellRead_holds | apply weakLine_holds | apply dieCount_holds | dsimp only | split

theorem ladderStep_holds (test : Line66 → Bool) (k : Nat) (r : Option (Line66 × Nat) × State) (next : State → Option (Line66 × Nat) × State) (h : ∀ s, Holds φ s → Holds φ (next s).2) (hφ : Holds φ r.2) : Holds φ (ladderStep test k r next).2 := by
  unfold ladderStep
  repeat' with_reducible first | assumption | apply h | split

theorem ladder_holds (test : Line66 → Bool) (x1 : List ℕ) (x2 : State) (hφ : Holds φ x2) : Holds φ (ladder test x1 x2).2 := by
  induction x1 generalizing x2 with
  | nil => exact hφ
  | cons k ks ih => exact ladderStep_holds _ _ _ _ (fun s hs => ih s hs) (cellRead_holds _ _ hφ)

theorem makeDue_holds (lfn : ℕ) (prio : ℕ) (key : ℕ) (direct : Bool) (s : State) (hφ : Holds φ s) : Holds φ (makeDue lfn prio key direct s) := by
  unfold makeDue
  repeat' with_reducible first | assumption | simp only [holds_mk] | split

theorem retryNoted_holds (die : ℕ) (lln : ℕ) (step : ℕ) (s : State) (hφ : Holds φ s) : Holds φ (retryNoted die lln step s) := by
  unfold retryNoted
  repeat' with_reducible first | assumption | apply makeDue_holds | apply event_holds

theorem retryGood_holds (die : ℕ) (lln : ℕ) (step : ℕ) (s : State) (hφ : Holds φ s) : Holds φ (retryGood die lln step s) := by
  unfold retryGood
  repeat' with_reducible first | assumption | apply retryNoted_holds | apply charge_holds

theorem retried_holds (die lln : Nat) (r : Option (Line66 × Nat) × State) (hφ : Holds φ r.2) : Holds φ (retried die lln r).2 := by
  unfold retried
  repeat' with_reducible first | assumption | apply retryGood_holds | split

theorem copyRetry_holds (f : ℕ) (c : ℕ) (lln : ℕ) (seq : Option (BitVec 16)) (s : State) (hφ : Holds φ s) : Holds φ (copyRetry f c lln seq s).2 := by
  unfold copyRetry
  split
  · exact hφ
  · exact retried_holds _ _ _ (ladder_holds _ _ _ hφ)

theorem olderAgain_holds (f : ℕ) (pos : ℕ) (a : Line66) (b : Line66) (l : Line66) (s : State) (hφ : Holds φ s) : Holds φ (olderAgain f pos a b l s) := by
  unfold olderAgain
  repeat' with_reducible first | assumption | apply fastStore_holds | apply holds_ite

theorem tieStore_holds (f : ℕ) (pos : ℕ) (seq : Option (BitVec 16)) (l : Line) (v : BitVec 16) (s : State) (hφ : Holds φ s) : Holds φ (tieStore f pos seq l v s) := by
  unfold tieStore
  repeat' with_reducible first | assumption | apply fastStore2_holds | simp only [holds_mk] | split

theorem tieEnded_holds (f pos : Nat) (seq : Option (BitVec 16)) (v : BitVec 16) (r : Option Line66 × State) (hφ : Holds φ r.2) : Holds φ (tieEnded f pos seq v r).2 := by
  unfold tieEnded
  repeat' with_reducible first | assumption | apply tieStore_holds | split

theorem tieTry_holds (test : Line66 → Bool) (a b : Option (Line66 × Nat)) (s : State) (next : State → Option Line66 × State) (h : ∀ s, Holds φ s → Holds φ (next s).2) (hφ : Holds φ s) : Holds φ (tieTry test a b s next).2 := by
  unfold tieTry
  repeat' with_reducible first | assumption | apply h | split

theorem tieLadder_holds (test : Line66 → Bool) (x1 : List ℕ) (x2 : State) (hφ : Holds φ x2) : Holds φ (tieLadder test x1 x2).2 := by
  induction x1 generalizing x2 with
  | nil => exact hφ
  | cons k ks ih =>
    rw [tieLadder]
    exact tieTry_holds _ _ _ _ _ (fun s hs => ih s hs) (cellRead_holds _ _ (cellRead_holds _ _ hφ))

theorem tieSources_holds (f : ℕ) (pos : ℕ) (seq : Option (BitVec 16)) (v : BitVec 16) (d : Option Line) (s : State) (hφ : Holds φ s) : Holds φ (tieSources f pos seq v d s).2 := by
  unfold tieSources
  split
  · exact hφ
  · split
    · exact hφ
    · exact tieEnded_holds _ _ _ _ _ (tieLadder_holds _ _ _ hφ)

theorem tieNoted_holds (f : ℕ) (pos : ℕ) (charged : List ℕ) (s : State) (hφ : Holds φ s) : Holds φ (tieNoted f pos charged s) := by
  unfold tieNoted
  repeat' with_reducible first | assumption | apply charge_holds | apply event_holds | simp only [holds_mk] | refine holds_foldl ?_ (fun _ _ _ => ?_)

theorem tieResolve_holds (f : ℕ) (pos : ℕ) (lln : ℕ) (seq : Option (BitVec 16)) (v : BitVec 16) (s : State) (hφ : Holds φ s) : Holds φ (tieResolve f pos lln seq v s).2 := by
  unfold tieResolve
  exact tieSources_holds _ _ _ _ _ _ (tieNoted_holds _ _ _ _ hφ)

theorem bothRead_holds (f : ℕ) (pos : ℕ) (lln : ℕ) (seq : Option (BitVec 16)) (x4 : Line66) (y : Line66) (s : State) (hφ : Holds φ s) : Holds φ (bothRead f pos lln seq x4 y s).2 := by
  unfold bothRead
  repeat' with_reducible first | assumption | apply olderAgain_holds | apply tieResolve_holds | split

theorem lateCopies_holds (f : ℕ) (pos : ℕ) (lln : ℕ) (seq : Option (BitVec 16)) (a : Option Line66) (b : Option Line66) (s : State) (hφ : Holds φ s) : Holds φ (lateCopies f pos lln seq a b s).2 := by
  unfold lateCopies
  repeat' with_reducible first | assumption | apply bothRead_holds | split

theorem copiesRetried_holds (f : ℕ) (pos : ℕ) (lln : ℕ) (seq : Option (BitVec 16)) (s : State) (hφ : Holds φ s) : Holds φ (copiesRetried f pos lln seq s).2 := by
  unfold copiesRetried
  extract_lets a b
  have ha : Holds φ a.2 := copyRetry_holds _ _ _ _ _ hφ
  clear_value a
  have hb : Holds φ b.2 := copyRetry_holds _ _ _ _ _ ha
  clear_value b
  exact lateCopies_holds _ _ _ _ _ _ _ hb

theorem countRebuilt_holds (s : State) (hφ : Holds φ s) : Holds φ (countRebuilt s) := by
  unfold countRebuilt
  repeat' with_reducible first | assumption | simp only [holds_mk]

theorem earlyCopies_holds (f : ℕ) (pos : ℕ) (lln : ℕ) (seq : Option (BitVec 16)) (a : Option Line66) (b : Option Line66) (s : State) (hφ : Holds φ s) : Holds φ (earlyCopies f pos lln seq a b s).2 := by
  unfold earlyCopies
  repeat' with_reducible first | assumption | apply bothRead_holds | apply countRebuilt_holds | apply charge_holds | apply copiesRetried_holds | apply holds_ite | split

theorem fastRead_holds (f : ℕ) (pos : ℕ) (lln : ℕ) (seq : Option (BitVec 16)) (s : State) (hφ : Holds φ s) : Holds φ (fastRead f pos lln seq s).2 := by
  unfold fastRead
  extract_lets a b
  have ha : Holds φ a.2 := copyRead_holds _ _ _ _ _ hφ
  clear_value a
  have hb : Holds φ b.2 := copyRead_holds _ _ _ _ _ ha
  clear_value b
  exact earlyCopies_holds _ _ _ _ _ _ _ hb

theorem memberRetry_holds (b : ℕ) (m : ℕ) (x2 : ℕ) (lln : ℕ) (s : State) (hφ : Holds φ s) : Holds φ (memberRetry b m x2 lln s).2 := by
  unfold memberRetry
  exact holds_pair (fun v => v.map (fun l => (l, true))) (retried_holds _ _ _ (ladder_holds _ _ _ hφ))

theorem countBlock_holds (blk : ℕ) (what : ℕ) (x2 : ℕ) (s : State) (hφ : Holds φ s) : Holds φ (countBlock blk what x2 s) := by
  unfold countBlock
  repeat' with_reducible first | assumption | simp only [holds_mk]

theorem refreshBand_holds (b : ℕ) (s : State) (hφ : Holds φ s) : Holds φ (refreshBand b s) := by
  unfold refreshBand
  repeat' with_reducible first | assumption | apply makeDue_holds | refine holds_foldl ?_ (fun _ _ _ => ?_)

theorem markBad_holds (blk : ℕ) (cause : ℕ) (s : State) (hφ : Holds φ s) : Holds φ (markBad blk cause s) := by
  unfold markBad
  split
  · exact hφ
  · extract_lets bank die ch s1 e1 s2 r s3 b
    have h3 : Holds φ s3 := ckRecord_holds _ _ _ _ _ (event_holds _ _ (holds_mk.2 hφ))
    clear_value s3
    generalize fastSetOf s3 ch die (blk % 8192) = fc
    obtain ⟨f, c⟩ := fc
    split
    · exact descWrite_holds _ _ (fsSet_holds _ _ _ h3)
    · split
      · exact refreshBand_holds _ _ h3
      · exact h3

theorem countBlockMark_holds (blk : ℕ) (what : ℕ) (x2 : ℕ) (s : State) (hφ : Holds φ s) : Holds φ (countBlockMark blk what x2 s) := by
  unfold countBlockMark
  repeat' with_reducible first | assumption | apply countBlock_holds | apply markBad_holds | apply holds_ite

theorem memberRead_holds (b : ℕ) (m : ℕ) (x2 : ℕ) (s : State) (hφ : Holds φ s) : Holds φ (memberRead b m x2 s).2 := by
  unfold memberRead
  repeat' with_reducible first | assumption | apply cellRead_holds | apply weakLine_holds | apply countBlockMark_holds | apply dieCount_holds | dsimp only | split

theorem membersRead_holds (read : Nat → State → Option (Line66 × Bool) × State) (ms : List Nat) (s : State) (h : ∀ m s, Holds φ s → Holds φ (read m s).2) (hφ : Holds φ s) : Holds φ (membersRead read ms s).2 := by
  unfold membersRead
  exact holds_foldl_snd hφ (fun p a hp => h a p.2 hp)

theorem stripeRead_holds (b : ℕ) (h : ℕ) (x2 : ℕ) (lln : ℕ) (s : State) (hφ : Holds φ s) : Holds φ (stripeRead b h x2 lln s).2 := by
  unfold stripeRead
  extract_lets ms a
  have ha : Holds φ a.2 := membersRead_holds _ _ _ (fun _ _ => memberRead_holds _ _ _ _) hφ
  clear_value a
  split
  · exact membersRead_holds _ _ _ (fun _ _ => memberRetry_holds _ _ _ _ _) ha
  · exact ha

theorem located_holds (b : ℕ) (x1 : ℕ) (charged : Bool) (s : State) (m : ℕ) (hφ : Holds φ s) : Holds φ (located b x1 charged s m) := by
  unfold located
  repeat' with_reducible first | assumption | apply event_holds | apply refreshBand_holds | apply countBlockMark_holds | apply charge_holds | apply holds_ite | simp only [holds_mk]

theorem stripeRebuild_holds (b : ℕ) (h : ℕ) (x2 : ℕ) (lln : ℕ) (s : State) (hφ : Holds φ s) : Holds φ (stripeRebuild b h x2 lln s).2 := by
  unfold stripeRebuild
  repeat' with_reducible first | assumption | apply stripeRead_holds | apply countRebuilt_holds | apply charge_holds | apply located_holds | dsimp only | refine holds_foldl ?_ (fun _ _ _ => ?_) | split

theorem homeRead_holds (b : ℕ) (slot : ℕ) (x2 : ℕ) (lln : ℕ) (s : State) (hφ : Holds φ s) : Holds φ (homeRead b slot x2 lln s).2 := by
  unfold homeRead
  repeat' with_reducible first | assumption | apply memberRead_holds | apply memberRetry_holds | apply stripeRebuild_holds | dsimp only | split

theorem sourceRead_holds (lln : ℕ) (seq : BitVec 16) (w : Where) (s : State) (hφ : Holds φ s) : Holds φ (sourceRead lln seq w s).2 := by
  unfold sourceRead
  repeat' with_reducible first | assumption | apply fastRead_holds | apply homeRead_holds | split

theorem baseRead_holds (lln : ℕ) (e : BitVec 32) (s : State) (hφ : Holds φ s) : Holds φ (baseRead lln e s).2 := by
  unfold baseRead
  repeat' with_reducible first | assumption | apply sourceRead_holds

theorem slotSource_holds (sl : FoldSlot) (l : ℕ) (s : State) (hφ : Holds φ s) : Holds φ (slotSource sl l s).2 := by
  unfold slotSource
  repeat' with_reducible first | assumption | apply fastRead_holds | apply homeRead_holds | apply baseRead_holds | split

theorem ncFire_holds (s : State) (hφ : Holds φ s) : Holds φ (ncFire s) := by
  unfold ncFire
  repeat' with_reducible first | assumption | apply fire_holds | apply holds_ite

theorem ncPutTwo_holds (a : ℕ) (b : ℕ) (wa : NcWay) (wb : NcWay) (s : State) (hφ : Holds φ s) : Holds φ (ncPutTwo a b wa wb s) := by
  unfold ncPutTwo
  repeat' with_reducible first | assumption | apply ncFire_holds | apply ncSetWay_holds

theorem ncPutTwin_holds (a : ℕ) (b : ℕ) (w : NcWay) (s : State) (hφ : Holds φ s) : Holds φ (ncPutTwin a b w s) := by
  unfold ncPutTwin
  repeat' with_reducible first | assumption | apply ncPutTwo_holds

theorem ncTwinIn_holds (g : BitVec 16) (wa : NcWay) (wb : NcWay) (s : State) (hφ : Holds φ s) : Holds φ (ncTwinIn g wa wb s).2 := by
  unfold ncTwinIn
  repeat' with_reducible first | assumption | apply ceError_holds | split

theorem ncTakeTwo_holds (set : ℕ) (s : State) (hφ : Holds φ s) : Holds φ (ncTakeTwo set s).2.2 := by
  unfold ncTakeTwo
  repeat' with_reducible first | assumption | apply ncEvict_holds | dsimp only | split

theorem mapMark_holds (lfn : ℕ) (s : State) (hφ : Holds φ s) : Holds φ (mapMark lfn s) := by
  unfold mapMark
  repeat' with_reducible first | assumption | apply holds_ite | simp only [holds_mk]

theorem ncWrite_holds (lln : ℕ) (data : Line) (mask : BitVec 64) (s : State) (hφ : Holds φ s) : Holds φ (ncWrite lln data mask s) := by
  unfold ncWrite
  repeat' with_reducible first | assumption | apply mapMark_holds | apply ncPutTwin_holds | apply ncTwinIn_holds | apply ncPutTwo_holds | apply lineLost_holds | apply ceError_holds | apply ncSetWay_holds | apply ncTakeTwo_holds | apply ncEvict_holds | simp only [holds_mk] | split

theorem internalWrite_holds (lln : ℕ) (v : Line) (s : State) (hφ : Holds φ s) : Holds φ (internalWrite lln v s) := by
  unfold internalWrite
  repeat' with_reducible first | assumption | apply ncWrite_holds | apply holds_ite | simp only [holds_mk]

theorem foundLost_holds (lln : ℕ) (src : ℕ) (unit : ℕ) (s : State) (hφ : Holds φ s) : Holds φ (foundLost lln src unit s) := by
  unfold foundLost
  repeat' with_reducible first | assumption | apply event_holds | apply poisonAdd_holds | simp only [holds_mk]

theorem poisonFind_holds (lln : ℕ) (src : ℕ) (unit : ℕ) (s : State) (hφ : Holds φ s) : Holds φ (poisonFind lln src unit s) := by
  unfold poisonFind
  repeat' with_reducible first | assumption | apply foundLost_holds | apply internalWrite_holds

theorem commitAt_holds (lfn : ℕ) (e : BitVec 32) (psnap : BitVec 48) (s : State) (hφ : Holds φ s) : Holds φ (commitAt lfn e psnap s) := by
  unfold commitAt
  repeat' with_reducible first | assumption | apply ckRecord_holds | apply ftCommit_holds | simp only [holds_mk]

theorem commitNow_holds (lfn : ℕ) (e : BitVec 32) (s : State) (hφ : Holds φ s) : Holds φ (commitNow lfn e s) := by
  unfold commitNow
  repeat' with_reducible first | assumption | apply commitAt_holds

theorem markRebuild_holds (lfn : ℕ) (s : State) (hφ : Holds φ s) : Holds φ (markRebuild lfn s) := by
  unfold markRebuild
  repeat' with_reducible first | assumption | apply holds_ite | simp only [holds_mk]

theorem releaseSet_holds (f : ℕ) (s : State) (hφ : Holds φ s) : Holds φ (releaseSet f s) := by
  unfold releaseSet
  repeat' with_reducible first | assumption | apply fsSet_holds | apply descWrite_holds | simp only [holds_mk]

theorem releaseNow_holds (e : BitVec 32) (s : State) (hφ : Holds φ s) : Holds φ (releaseNow e s) := by
  unfold releaseNow
  repeat' with_reducible first | assumption | apply releaseSet_holds | apply setBand_holds | apply holds_ite | simp only [holds_mk]

theorem releaseOld_holds (e : BitVec 32) (s : State) (hφ : Holds φ s) : Holds φ (releaseOld e s) := by
  unfold releaseOld
  repeat' with_reducible first | assumption | apply releaseNow_holds | apply holds_ite | simp only [holds_mk]

theorem setSlot_holds (b : ℕ) (lfn : ℕ) (f : FoldSlot → FoldSlot) (s : State) (hφ : Holds φ s) : Holds φ (setSlot b lfn f s) := by
  unfold setSlot
  repeat' with_reducible first | assumption | simp only [holds_mk]

theorem slotLost_holds (b : ℕ) (sl : FoldSlot) (l : ℕ) (s : State) (hφ : Holds φ s) : Holds φ (slotLost b sl l s) := by
  unfold slotLost
  repeat' with_reducible first | assumption | apply poisonFind_holds | apply setSlot_holds | apply markRebuild_holds | apply releaseOld_holds | apply commitNow_holds | apply markInflight_holds | apply holds_ite

theorem slotLine66_holds (b : ℕ) (slot : ℕ) (x2 : ℕ) (s : State) (hφ : Holds φ s) : Holds φ (slotLine66 b slot x2 s).2 := by
  unfold slotLine66
  repeat' with_reducible first | assumption | apply slotSource_holds | apply slotLost_holds | dsimp only | split

theorem rowLine_holds (b x : Nat) (c : List Line66 × State) (sl : Nat) (hφ : Holds φ c.2) : Holds φ (rowLine b x c sl).2 := by
  unfold rowLine
  exact slotLine66_holds _ _ _ _ hφ

theorem pageRow_holds (b p : Nat) (a : List (List Line66) × State) (i : Nat) (hφ : Holds φ a.2) : Holds φ (pageRow b p a i).2 := by
  unfold pageRow
  exact holds_foldl_snd hφ (fun c sl hc => rowLine_holds _ _ _ _ hc)

theorem pageLines_holds (b : ℕ) (p : ℕ) (s : State) (hφ : Holds φ s) : Holds φ (pageLines b p s).2 := by
  unfold pageLines
  split
  · exact hφ
  · split
    · exact hφ
    · exact holds_mk.2 (holds_foldl_snd hφ (fun a i ha => pageRow_holds _ _ _ _ ha))

theorem setCart_holds (ch : ℕ) (f : Carter → Carter) (s : State) (hφ : Holds φ s) : Holds φ (setCart ch f s) := by
  unfold setCart
  repeat' with_reducible first | assumption | simp only [holds_mk]

theorem askProg_holds (ch : ℕ) (p : CProg) (s : State) (hφ : Holds φ s) : Holds φ (askProg ch p s) := by
  unfold askProg
  repeat' with_reducible first | assumption | apply setCart_holds

theorem askPage_holds (b : ℕ) (m : ℕ) (p : ℕ) (s : State) (hφ : Holds φ s) : Holds φ (askPage b m p s) := by
  unfold askPage
  repeat' with_reducible first | assumption | apply pageLines_holds | apply askProg_holds | split

theorem openOn_holds (b : ℕ) (dues : List Due) (abandons : ℕ) (s : State) (hφ : Holds φ s) : Holds φ (openOn b dues abandons s) := by
  unfold openOn
  repeat' with_reducible first | assumption | apply enterFrame_holds | apply ckRecord_holds | apply setBand_holds | apply askPage_holds | apply peerSend_holds | simp only [holds_mk] | refine holds_foldl ?_ (fun _ _ _ => ?_) | refine holds_foldl_snd ?_ (fun _ _ _ => ?_) | split

theorem meetDirect_holds (s : State) (hφ : Holds φ s) : Holds φ (meetDirect s) := by
  unfold meetDirect
  repeat' with_reducible first | assumption | apply frameMeet_holds | apply writeBackFrame_holds | refine holds_foldl ?_ (fun _ _ _ => ?_)

theorem pumpRestart_holds (s : State) (hφ : Holds φ s) : Holds φ (pumpRestart s) := by
  unfold pumpRestart
  repeat' with_reducible first | assumption | apply openOn_holds | apply meetDirect_holds | simp only [holds_mk] | refine holds_foldl ?_ (fun _ _ _ => ?_) | split

theorem sendPkt_holds (ch : ℕ) (op : ℕ) (die : ℕ) (bank : ℕ) (block : ℕ) (addr : ℕ) (tag : BitVec 7) (arg : ℕ) (s : State) (hφ : Holds φ s) : Holds φ (sendPkt ch op die bank block addr tag arg s) := by
  unfold sendPkt
  repeat' with_reducible first | assumption | apply send_holds

theorem withdrawBand_holds (b : ℕ) (s : State) (hφ : Holds φ s) : Holds φ (withdrawBand b s) := by
  unfold withdrawBand
  repeat' with_reducible first | assumption | apply setCart_holds | apply sendPkt_holds | apply holds_ite | refine holds_foldl ?_ (fun _ _ _ => ?_)

theorem abandonBatch_holds (f : FoldBatch) (cause : ℕ) (blk : Option ℕ) (s : State) (hφ : Holds φ s) : Holds φ (abandonBatch f cause blk s) := by
  unfold abandonBatch
  repeat' with_reducible first | assumption | apply leaveSlot_holds | apply withdrawBand_holds | apply setBand_holds | apply event_holds | apply markBad_holds | apply pumpRestart_holds | simp only [holds_mk] | refine holds_foldl ?_ (fun _ _ _ => ?_) | split

theorem withhold_holds (sl : FoldSlot) (s : State) (hφ : Holds φ s) : Holds φ (withhold sl s) := by
  unfold withhold
  repeat' with_reducible first | assumption | apply holds_ite | simp only [holds_mk]

theorem closeIfDone_holds (b : ℕ) (s : State) (hφ : Holds φ s) : Holds φ (closeIfDone b s) := by
  unfold closeIfDone
  repeat' with_reducible first | assumption | apply setBand_holds | simp only [holds_mk] | split

theorem countDelta_holds (s : State) (h : ℕ) (hφ : Holds φ s) : Holds φ (countDelta s h) := by
  unfold countDelta
  exact holds_mk.2 hφ

theorem sendChunk_holds (lfn : ℕ) (t : ℕ) (seq : BitVec 48) (delta : ℕ → Line) (h : ℕ) (s : State) (c : ℕ) (hφ : Holds φ s) : Holds φ (sendChunk lfn t seq delta h s c) := by
  unfold sendChunk
  repeat' with_reducible first | assumption | apply peerSend_holds

theorem sendDelta_holds (b : ℕ) (seq : BitVec 48) (sl : FoldSlot) (s : State) (hφ : Holds φ s) : Holds φ (sendDelta b seq sl s) := by
  unfold sendDelta
  extract_lets t hs old delta s1 s2
  have h1 : Holds φ s1 := holds_foldl hφ (fun s h hs => countDelta_holds _ _ hs)
  have h2 : Holds φ s2 := setSlot_holds _ _ _ _ h1
  clear_value s2 old delta
  exact holds_foldl h2 (fun s h hs => holds_foldl hs (fun s c hs => sendChunk_holds _ _ _ _ _ _ _ hs))

theorem drainedClean_holds (lfn : ℕ) (s : State) (hφ : Holds φ s) : Holds φ (drainedClean lfn s) := by
  unfold drainedClean
  repeat' with_reducible first | assumption | apply lineClean_holds | refine holds_foldl ?_ (fun _ _ _ => ?_)

theorem dropPrefetch_holds (p : ℕ → Bool) (s : State) (hφ : Holds φ s) : Holds φ (dropPrefetch p s) := by
  unfold dropPrefetch
  repeat' with_reducible first | assumption | simp only [holds_mk]

theorem dropFrame_holds (lfn : ℕ) (s : State) (hφ : Holds φ s) : Holds φ (dropFrame lfn s) := by
  unfold dropFrame
  repeat' with_reducible first | assumption | apply dropPrefetch_holds | simp only [holds_mk]

theorem dropPoison_holds (lfn : ℕ) (s : State) (hφ : Holds φ s) : Holds φ (dropPoison lfn s) := by
  unfold dropPoison
  repeat' with_reducible first | assumption | apply holds_mk_host | refine hostFact_mk_all.2 ⟨?_, ?_, ?_⟩ | apply ldsFact_map | apply Holds.lds | apply Holds.ports | apply Holds.reqs

theorem piNote_holds (es : List PiEnt) (s : State) (hφ : Holds φ s) : Holds φ (piNote es s) := by
  unfold piNote
  repeat' with_reducible first | assumption | apply holds_ite | simp only [holds_mk]

theorem piDrop_holds (gone : PiEnt → Bool) (s : State) (hφ : Holds φ s) : Holds φ (piDrop gone s) := by
  unfold piDrop
  repeat' with_reducible first | assumption | apply piNote_holds | apply hbmWrite_holds | simp only [holds_mk] | refine holds_foldl ?_ (fun _ _ _ => ?_)

theorem unindex_holds (gone : PiEnt → Bool) (s : State) (hφ : Holds φ s) : Holds φ (unindex gone s) := by
  unfold unindex
  repeat' with_reducible first | assumption | apply piDrop_holds | simp only [holds_mk]

theorem foldPatches_holds (sl : FoldSlot) (s : State) (hφ : Holds φ s) : Holds φ (foldPatches sl s).2 := by
  unfold foldPatches
  repeat' with_reducible first | assumption | apply markInflight_holds | apply unindex_holds

theorem dropPatches_holds (lfn : ℕ) (s : State) (hφ : Holds φ s) : Holds φ (dropPatches lfn s) := by
  unfold dropPatches
  repeat' with_reducible first | assumption | apply unindex_holds | apply hbmWrite_holds | simp only [holds_mk]

theorem fsumRefresh_holds (lfn : ℕ) (s : State) (hφ : Holds φ s) : Holds φ (fsumRefresh lfn s) := by
  unfold fsumRefresh
  repeat' with_reducible first | assumption | apply hbmMeet_holds | apply hbmWrite_holds | simp only [holds_mk]

theorem rebuildDone_holds (lfn : ℕ) (s : State) (hφ : Holds φ s) : Holds φ (rebuildDone lfn s) := by
  unfold rebuildDone
  repeat' with_reducible first | assumption | simp only [holds_mk]

theorem commitSlot_holds (b : ℕ) (slot : ℕ) (sl : FoldSlot) (s : State) (hφ : Holds φ s) : Holds φ (commitSlot b slot sl s) := by
  unfold commitSlot
  repeat' with_reducible first | assumption | apply commitNow_holds | apply dropPatches_holds | apply dropFrame_holds | apply dropPoison_holds | apply commitAt_holds | apply rebuildDone_holds | apply foldPatches_holds | apply fsumRefresh_holds | apply drainedClean_holds | simp only [holds_mk] | split

theorem ackDelta_holds (code : ℕ) (h : Holding) (s : State) (hφ : Holds φ s) : Holds φ (ackDelta code h s) := by
  unfold ackDelta
  repeat' with_reducible first | assumption | apply peerSend_holds

theorem advanceBatch_holds (b : ℕ) (s : State) (hφ : Holds φ s) : Holds φ (advanceBatch b s) := by
  unfold advanceBatch
  repeat' with_reducible first | assumption | apply setSlot_holds | apply leaveSlot_holds | apply ackDelta_holds | apply withhold_holds | apply releaseOld_holds | apply commitSlot_holds | apply sendDelta_holds | apply peerSend_holds | apply closeIfDone_holds | simp only [holds_mk] | refine holds_foldl ?_ (fun _ _ _ => ?_) | split

theorem setMember_holds (b : ℕ) (m : ℕ) (v : MemberProg) (s : State) (hφ : Holds φ s) : Holds φ (setMember b m v s) := by
  unfold setMember
  repeat' with_reducible first | assumption | simp only [holds_mk]

theorem pageVerified_holds (b : ℕ) (m : ℕ) (p : MemberProg) (s : State) (hφ : Holds φ s) : Holds φ (pageVerified b m p s) := by
  unfold pageVerified
  repeat' with_reducible first | assumption | apply setMember_holds | apply askPage_holds | apply advanceBatch_holds | apply setBand_holds | simp only [holds_mk] | refine holds_foldl ?_ (fun _ _ _ => ?_) | split

theorem readBackRes_holds (b : ℕ) (m : ℕ) (x2 : ℕ) (l : Option Line66) (s : State) (hφ : Holds φ s) : Holds φ (readBackRes b m x2 l s) := by
  unfold readBackRes
  repeat' with_reducible first | assumption | apply abandonBatch_holds | apply setMember_holds | apply pageVerified_holds | apply holds_ite | split

theorem ncLook_holds (lln : ℕ) (s : State) (hφ : Holds φ s) : Holds φ (ncLook lln s).2 := by
  unfold ncLook
  repeat' with_reducible first | assumption | apply ncTwin_holds | apply lineLost_holds | apply ncSetWay_holds | apply ceError_holds | simp only [holds_mk] | split

theorem mergeHeld_holds (lln : ℕ) (v : Line) (s : State) (hφ : Holds φ s) : Holds φ (mergeHeld lln v s).2 := by
  unfold mergeHeld
  repeat' with_reducible first | assumption | apply slotRead_holds | apply putSlot_holds | apply ncLook_holds | apply ncWrite_holds | simp only [holds_mk] | split

theorem ncFill_holds (lln : ℕ) (data : Line) (s : State) (hφ : Holds φ s) : Holds φ (ncFill lln data s) := by
  unfold ncFill
  repeat' with_reducible first | assumption | apply ncSetWay_holds | apply ncEvict_holds | apply holds_ite

theorem fillLineRead_holds (lln : ℕ) (v : Line) (s : State) (hφ : Holds φ s) : Holds φ (fillLineRead lln v s) := by
  unfold fillLineRead
  repeat' with_reducible first | assumption | apply pageFill_holds | apply ncFill_holds | apply holds_ite

theorem answerRead_holds (id : ℕ) (v : Option Line) (s : State) (hφ : Holds φ s) : Holds φ (answerRead id v s) := by
  unfold answerRead
  repeat' with_reducible first | assumption | apply updLoad_holds | apply send_holds | apply drawBits_holds | simp only [holds_mk] | split | apply holds_mk_host | refine hostFact_mk_all.2 ⟨?_, ?_, ?_⟩ | apply reqsFact_filter | apply Holds.lds | apply Holds.ports | apply Holds.reqs

theorem bulkAsk_holds (tag : BitVec 32) (s : State) (hφ : Holds φ s) : Holds φ (bulkAsk tag s) := by
  unfold bulkAsk
  repeat' with_reducible first | assumption | apply peerSend_holds | simp only [holds_mk] | refine holds_foldl ?_ (fun _ _ _ => ?_) | split

theorem spanStart_holds (rid : Option ℕ) (lln : ℕ) (count : ℕ) (base : Bool) (record : Bool) (must : Bool) (localBase : Option Line) (s : State) (hφ : Holds φ s) : Holds φ (spanStart rid lln count base record must localBase s) := by
  unfold spanStart
  repeat' with_reducible first | assumption | apply peerSend_holds | apply bulkAsk_holds | apply holds_ite | simp only [holds_mk] | refine holds_foldl ?_ (fun _ _ _ => ?_) | refine holds_times _ ?_ (fun _ _ => ?_)

theorem readAgain_holds (r : MRead) (s : State) (hφ : Holds φ s) : Holds φ (readAgain r s) := by
  unfold readAgain
  repeat' with_reducible first | assumption | apply spanStart_holds | simp only [holds_mk]

theorem sideFill_holds (lln : ℕ) (v : Line) (s : State) (hφ : Holds φ s) : Holds φ (sideFill lln v s) := by
  unfold sideFill
  repeat' with_reducible first | assumption | simp only [holds_mk]

theorem fillPrefetch_holds (lln : ℕ) (v : Line) (s : State) (hφ : Holds φ s) : Holds φ (fillPrefetch lln v s) := by
  unfold fillPrefetch
  repeat' with_reducible first | assumption | apply pageFill_holds | apply sideFill_holds | apply holds_ite | simp only [holds_mk]

theorem releaseDue_holds (s : State) (hφ : Holds φ s) : Holds φ (releaseDue s) := by
  unfold releaseDue
  repeat' with_reducible first | assumption | apply releaseOld_holds | simp only [holds_mk] | refine holds_foldl ?_ (fun _ _ _ => ?_)

theorem readCounted_holds (r : MRead) (s : State) (hφ : Holds φ s) : Holds φ (readCounted r s) := by
  unfold readCounted
  repeat' with_reducible first | assumption | apply holds_ite | simp only [holds_mk]

theorem finishRead_holds (r : MRead) (res : ReadEnd) (s : State) (hφ : Holds φ s) : Holds φ (finishRead r res s) := by
  unfold finishRead
  repeat' with_reducible first | assumption | apply releaseDue_holds | apply fillPrefetch_holds | apply mergeHeld_holds | apply readAgain_holds | apply readCounted_holds | apply internalWrite_holds | apply fillLineRead_holds | apply answerRead_holds | apply poisonFind_holds | simp only [holds_mk] | split

theorem updRead_holds (rid : ℕ) (f : MRead → MRead) (s : State) (hφ : Holds φ s) : Holds φ (updRead rid f s) := by
  unfold updRead
  repeat' with_reducible first | assumption | simp only [holds_mk]

theorem markCharged_holds (rid : ℕ) (key : ℕ) (s : State) (hφ : Holds φ s) : Holds φ (markCharged rid key s) := by
  unfold markCharged
  repeat' with_reducible first | assumption | apply updRead_holds | simp only [holds_mk]

theorem countSuspend_holds (s : State) (hφ : Holds φ s) : Holds φ (countSuspend s) := by
  unfold countSuspend
  repeat' with_reducible first | assumption | simp only [holds_mk]

theorem suspendBank_holds (ch : ℕ) (die : ℕ) (bank : ℕ) (s : State) (hφ : Holds φ s) : Holds φ (suspendBank ch die bank s) := by
  unfold suspendBank
  repeat' with_reducible first | assumption | apply sendPkt_holds | apply setCart_holds | apply holds_ite

theorem suspendAll_holds (rid : ℕ) (places : List (ℕ × ℕ × ℕ)) (s : State) (hφ : Holds φ s) : Holds φ (suspendAll rid places s) := by
  unfold suspendAll
  repeat' with_reducible first | assumption | apply countSuspend_holds | apply suspendBank_holds | apply updRead_holds | apply holds_ite | refine holds_foldl ?_ (fun _ _ _ => ?_)

theorem readReference_holds (s : State) (hφ : Holds φ s) : Holds φ (readReference s).2 := by
  unfold readReference
  repeat' with_reducible first | assumption | apply drawBits_holds

theorem measureShift_holds (s : State) (hφ : Holds φ s) : Holds φ (measureShift s).2 := by
  unfold measureShift
  repeat' with_reducible first | assumption | apply readReference_holds | refine holds_foldl_snd ?_ (fun _ _ _ => ?_)

theorem readRefs_holds (b : ℕ) (ch : ℕ) (die : ℕ) (s : State) (hφ : Holds φ s) : Holds φ (readRefs b ch die s).2 := by
  unfold readRefs
  repeat' with_reducible first | assumption | apply measureShift_holds | simp only [holds_mk] | split

theorem askRead_holds (ch : ℕ) (r : CRead) (s : State) (hφ : Holds φ s) : Holds φ (askRead ch r s) := by
  unfold askRead
  repeat' with_reducible first | assumption | apply setCart_holds

theorem askMember_holds (rid : ℕ) (host : Bool) (b : ℕ) (m : ℕ) (x4 : ℕ) (step : ℕ) (s : State) (hφ : Holds φ s) : Holds φ (askMember rid host b m x4 step s) := by
  unfold askMember
  repeat' with_reducible first | assumption | apply readRefs_holds | apply updRead_holds | apply askRead_holds

theorem startAround_holds (r : MRead) (b : ℕ) (slot : ℕ) (x3 : ℕ) (s : State) (hφ : Holds φ s) : Holds φ (startAround r b slot x3 s) := by
  unfold startAround
  repeat' with_reducible first | assumption | apply updRead_holds | apply suspendAll_holds | apply askMember_holds | apply holds_ite | refine holds_foldl ?_ (fun _ _ _ => ?_)

theorem prefetchBad_holds (r : MRead) (s : State) (hφ : Holds φ s) : Holds φ (prefetchBad r s) := by
  unfold prefetchBad
  repeat' with_reducible first | assumption | apply finishRead_holds | simp only [holds_mk]

theorem chargeRead_holds (rid : ℕ) (key : ℕ) (die : ℕ) (s : State) (hφ : Holds φ s) : Holds φ (chargeRead rid key die s) := by
  unfold chargeRead
  repeat' with_reducible first | assumption | apply markCharged_holds | apply charge_holds | apply holds_ite

end
end Sys2Proof.Machine
end
section
namespace Sys2Proof.Machine
set_option linter.all false
section
variable {φ : Fact}

theorem homeAfter_holds (rid : ℕ) (host : Bool) (b : ℕ) (h : ℕ) (x4 : ℕ) (s : State) (hφ : Holds φ s) : Holds φ (homeAfter rid host b h x4 s) := by
  unfold homeAfter
  repeat' with_reducible first | assumption | apply askMember_holds | apply updRead_holds | apply holds_ite | split

theorem startBeyond_holds (r : MRead) (b : ℕ) (slot : ℕ) (x3 : ℕ) (s : State) (hφ : Holds φ s) : Holds φ (startBeyond r b slot x3 s) := by
  unfold startBeyond
  repeat' with_reducible first | assumption | apply updRead_holds | apply askMember_holds | apply spanStart_holds | apply homeAfter_holds | apply holds_ite | refine holds_foldl ?_ (fun _ _ _ => ?_)

theorem denseGo_holds (r : MRead) (b : ℕ) (slot : ℕ) (x3 : ℕ) (s : State) (hφ : Holds φ s) : Holds φ (denseGo r b slot x3 s) := by
  unfold denseGo
  repeat' with_reducible first | assumption | apply finishRead_holds | apply startAround_holds | apply prefetchBad_holds | apply chargeRead_holds | apply located_holds | apply markCharged_holds | apply startBeyond_holds | apply updRead_holds | simp only [holds_mk] | refine holds_foldl ?_ (fun _ _ _ => ?_) | split

theorem testBlocks_holds (u : ℕ) (s : State) (hφ : Holds φ s) : Holds φ (testBlocks u s) := by
  unfold testBlocks
  repeat' with_reducible first | assumption | apply setStamp_holds | apply dropBlock_holds | refine holds_foldl ?_ (fun _ _ _ => ?_) | split

theorem wbOverflow_holds (s : State) (hφ : Holds φ s) : Holds φ (wbOverflow s) := by
  unfold wbOverflow
  repeat' with_reducible first | assumption | apply event_holds | apply holds_ite | simp only [holds_mk]

theorem sbEnd_holds (s : State) (hφ : Holds φ s) : Holds φ (sbEnd s) := by
  unfold sbEnd
  repeat' with_reducible first | assumption | split | apply holds_mk_sb | simp only [sbFact_mk] | apply Holds.sb

theorem sbWriteDone_holds (s : State) (hφ : Holds φ s) : Holds φ (sbWriteDone s) := by
  unfold sbWriteDone
  repeat' with_reducible first | assumption | apply sbStart_holds | apply wbOverflow_holds | apply wbPump_holds | apply sbEnd_holds

theorem setCmb_holds (slot : ℕ) (ch : ℕ) (f : Cmb → Cmb) (s : State) (hφ : Holds φ s) : Holds φ (setCmb slot ch f s) := by
  unfold setCmb
  repeat' with_reducible first | assumption | simp only [holds_mk]

theorem cmbReply_holds (slot : ℕ) (ch : ℕ) (result : ℕ) (words : List (BitVec 32)) (s : State) (hφ : Holds φ s) : Holds φ (cmbReply slot ch result words s) := by
  unfold cmbReply
  repeat' with_reducible first | assumption | apply setCmb_holds

theorem readRaw_holds (ch : ℕ) (die : ℕ) (bank : ℕ) (block : ℕ) (addr : ℕ) (err : BitVec 640) (s : State) (hφ : Holds φ s) : Holds φ (readRaw ch die bank block addr err s).2 := by
  unfold readRaw
  repeat' with_reducible first | assumption | apply drawBits_holds | split

theorem rawAnswer_holds (slot : ℕ) (ch : ℕ) (die : ℕ) (bank : ℕ) (block : ℕ) (addr : ℕ) (half : ℕ) (err : BitVec 640) (s : State) (hφ : Holds φ s) : Holds φ (rawAnswer slot ch die bank block addr half err s) := by
  unfold rawAnswer
  exact cmbReply_holds _ _ _ _ _ (readRaw_holds _ _ _ _ _ _ _ hφ)

theorem endMove_holds (lfn : ℕ) (s : State) (hφ : Holds φ s) : Holds φ (endMove lfn s) := by
  unfold endMove
  repeat' with_reducible first | assumption | simp only [holds_mk]

theorem dropMove_holds (m : FastMove) (s : State) (hφ : Holds φ s) : Holds φ (dropMove m s) := by
  unfold dropMove
  repeat' with_reducible first | assumption | apply releaseSet_holds | apply endMove_holds | apply markDraining_holds | apply commitQuiet_holds | apply markInflight_holds | apply holds_ite

theorem drainDrop_holds (lln : ℕ) (s : State) (hφ : Holds φ s) : Holds φ (drainDrop lln s) := by
  unfold drainDrop
  repeat' with_reducible first | assumption | apply markSlot_holds | simp only [holds_mk]

theorem abandonFrame_holds (lfn : ℕ) (s : State) (hφ : Holds φ s) : Holds φ (abandonFrame lfn s) := by
  unfold abandonFrame
  repeat' with_reducible first | assumption | apply closeIfDone_holds | apply setSlot_holds | apply leaveSlot_holds | apply endJob_holds | apply dropMove_holds | apply drainDrop_holds | simp only [holds_mk] | refine holds_foldl ?_ (fun _ _ _ => ?_) | split

theorem zeroFold_holds (lfn : ℕ) (mode : ℕ) (s : State) (hφ : Holds φ s) : Holds φ (zeroFold lfn mode s) := by
  unfold zeroFold
  repeat' with_reducible first | assumption | apply advanceBatch_holds | apply peerSend_holds | apply setSlot_holds | simp only [holds_mk] | split

theorem emptyFrame_holds (lfn : ℕ) (mode : ℕ) (s : State) (hφ : Holds φ s) : Holds φ (emptyFrame lfn mode s) := by
  unfold emptyFrame
  repeat' with_reducible first | assumption | apply abandonFrame_holds | apply zeroFold_holds | apply commitNow_holds | apply dropPatches_holds | apply dropFrame_holds | apply dropPoison_holds | apply releaseOld_holds | apply holds_ite

theorem fsTouch_holds (f : ℕ) (s : State) (hφ : Holds φ s) : Holds φ (fsTouch f s) := by
  unfold fsTouch
  repeat' with_reducible first | assumption | apply ceError_holds | simp only [holds_mk] | split

theorem askCopy_holds (rid : ℕ) (host : Bool) (f : ℕ) (pos : ℕ) (copy : ℕ) (step : ℕ) (s : State) (hφ : Holds φ s) : Holds φ (askCopy rid host f pos copy step s) := by
  unfold askCopy
  repeat' with_reducible first | assumption | apply updRead_holds | apply retried_holds | apply askRead_holds

theorem fastBeyond_holds (r : MRead) (f : ℕ) (pos : ℕ) (seq : Option (BitVec 16)) (s : State) (hφ : Holds φ s) : Holds φ (fastBeyond r f pos seq s) := by
  unfold fastBeyond
  repeat' with_reducible first | assumption | apply updRead_holds | apply spanStart_holds | apply askCopy_holds | apply holds_ite | refine holds_foldl ?_ (fun _ _ _ => ?_)

theorem beginAt_holds (r : MRead) (s : State) (hφ : Holds φ s) : Holds φ (beginAt r s) := by
  unfold beginAt
  repeat' with_reducible first | assumption | apply startAround_holds | apply finishRead_holds | apply suspendAll_holds | apply askMember_holds | apply fsTouch_holds | apply askCopy_holds | apply fastBeyond_holds | simp only [holds_mk] | split

theorem beginSpan_holds (r : MRead) (base : Bool) (record : Bool) (must : Bool) (lb : Option Line) (s : State) (hφ : Holds φ s) : Holds φ (beginSpan r base record must lb s) := by
  unfold beginSpan
  repeat' with_reducible first | assumption | apply spanStart_holds | simp only [holds_mk]

theorem entryLost_holds (lfn : ℕ) (s : State) (hφ : Holds φ s) : Holds φ (entryLost lfn s).2 := by
  unfold entryLost
  repeat' with_reducible first | assumption | apply event_holds | apply releaseOld_holds | apply commitNow_holds | apply holds_ite | simp only [holds_mk] | simp only [apply_ite Prod.snd]

theorem ftRead_holds (lfn : ℕ) (s : State) (hφ : Holds φ s) : Holds φ (ftRead lfn s).2 := by
  unfold ftRead
  repeat' with_reducible first | assumption | apply ceError_holds | apply hbmMeet_holds | apply entryLost_holds | apply event_holds | simp only [holds_mk] | split

theorem markRescan_holds (lfn : ℕ) (s : State) (hφ : Holds φ s) : Holds φ (markRescan lfn s) := by
  unfold markRescan
  repeat' with_reducible first | assumption | apply holds_ite | simp only [holds_mk]

theorem piTouch_holds (lln : ℕ) (s : State) (hφ : Holds φ s) : Holds φ (piTouch lln s) := by
  unfold piTouch
  repeat' with_reducible first | assumption | apply hbmMeet_holds | apply holds_ite | simp only [holds_mk] | refine holds_foldl ?_ (fun _ _ _ => ?_)

theorem beginRead_holds (rid : ℕ) (lln : ℕ) (host : Bool) (s : State) (hφ : Holds φ s) : Holds φ (beginRead rid lln host s) := by
  unfold beginRead
  repeat' with_reducible first | assumption | apply ftRead_holds | apply finishRead_holds | apply piTouch_holds | apply markRescan_holds | apply event_holds | apply beginSpan_holds | apply beginAt_holds | simp only [holds_mk] | split

theorem prefetchAfter_holds (lln : ℕ) (s : State) (hφ : Holds φ s) : Holds φ (prefetchAfter lln s) := by
  unfold prefetchAfter
  repeat' with_reducible first | assumption | apply beginRead_holds | apply holds_ite | split | apply holds_mk_host | refine hostFact_mk_all.2 ⟨?_, ?_, ?_⟩ | apply reqsFact_succ | apply Holds.lds | apply Holds.ports | apply Holds.reqs

theorem pumpPrefetch_holds (s : State) (hφ : Holds φ s) : Holds φ (pumpPrefetch s) := by
  unfold pumpPrefetch
  repeat' with_reducible first | assumption | apply prefetchAfter_holds | simp only [holds_mk] | refine holds_foldl ?_ (fun _ _ _ => ?_)

theorem tieStep_holds (r : MRead) (f : ℕ) (pos : ℕ) (step : ℕ) (s : State) (hφ : Holds φ s) : Holds φ (tieStep r f pos step s) := by
  unfold tieStep
  repeat' with_reducible first | assumption | apply updRead_holds | apply askCopy_holds | apply finishRead_holds | apply holds_ite | refine holds_foldl ?_ (fun _ _ _ => ?_)

theorem tieBegin_holds (r : MRead) (f : ℕ) (pos : ℕ) (s : State) (hφ : Holds φ s) : Holds φ (tieBegin r f pos s) := by
  unfold tieBegin
  repeat' with_reducible first | assumption | apply markCharged_holds | apply tieNoted_holds | apply finishRead_holds | apply tieStep_holds | dsimp only | refine holds_foldl ?_ (fun _ _ _ => ?_) | split

theorem byOther_holds (r : MRead) (s : State) (hφ : Holds φ s) : Holds φ (byOther r s) := by
  unfold byOther
  repeat' with_reducible first | assumption | simp only [holds_mk]

theorem fastLadder_holds (r : MRead) (f : ℕ) (pos : ℕ) (seq : Option (BitVec 16)) (s : State) (hφ : Holds φ s) : Holds φ (fastLadder r f pos seq s) := by
  unfold fastLadder
  repeat' with_reducible first | assumption | apply askCopy_holds | apply chargeRead_holds | apply olderAgain_holds | apply finishRead_holds | apply byOther_holds | apply tieBegin_holds | apply holds_ite | refine holds_foldl ?_ (fun _ _ _ => ?_) | split

theorem tieGo_holds (r : MRead) (f : ℕ) (pos : ℕ) (seq : Option (BitVec 16)) (s : State) (hφ : Holds φ s) : Holds φ (tieGo r f pos seq s) := by
  unfold tieGo
  repeat' with_reducible first | assumption | apply tieStore_holds | apply finishRead_holds | apply tieStep_holds | split

theorem fastGo_holds (r : MRead) (f : ℕ) (pos : ℕ) (seq : Option (BitVec 16)) (s : State) (hφ : Holds φ s) : Holds φ (fastGo r f pos seq s) := by
  unfold fastGo
  repeat' with_reducible first | assumption | apply byOther_holds | apply chargeRead_holds | apply finishRead_holds | apply prefetchBad_holds | apply askCopy_holds | apply suspendAll_holds | apply fastBeyond_holds | apply tieGo_holds | apply fastLadder_holds | apply holds_ite | split

theorem readGo_holds (rid : ℕ) (s : State) (hφ : Holds φ s) : Holds φ (readGo rid s) := by
  unfold readGo
  repeat' with_reducible first | assumption | apply finishRead_holds | apply denseGo_holds | apply fastGo_holds | split

theorem settleReads_holds (s : State) (hφ : Holds φ s) : Holds φ (settleReads s) := by
  unfold settleReads
  repeat' with_reducible first | assumption | apply finishRead_holds | apply updRead_holds | apply readGo_holds | simp only [holds_mk] | refine holds_foldl ?_ (fun _ _ _ => ?_) | split

theorem releaseHeld_holds (lln : ℕ) (s : State) (hφ : Holds φ s) : Holds φ (releaseHeld lln s) := by
  unfold releaseHeld
  repeat' with_reducible first | assumption | apply ncWrite_holds | simp only [holds_mk] | split

theorem askFastLine_holds (set : ℕ) (copy : ℕ) (pos : ℕ) (l : MediaLine) (counted : Bool) (pu : PPurpose) (s : State) (hφ : Holds φ s) : Holds φ (askFastLine set copy pos l counted pu s) := by
  unfold askFastLine
  repeat' with_reducible first | assumption | apply askProg_holds

theorem askStage_holds (d : Drain) (counted : Bool) (s : State) (hφ : Holds φ s) : Holds φ (askStage d counted s) := by
  unfold askStage
  repeat' with_reducible first | assumption | apply askFastLine_holds | apply holds_ite

theorem flagMissed_holds (set : ℕ) (s : State) (hφ : Holds φ s) : Holds φ (flagMissed set s) := by
  unfold flagMissed
  repeat' with_reducible first | assumption | apply flagCopy_holds | split

theorem setDraining_holds (lln : ℕ) (s : State) (hφ : Holds φ s) : Holds φ (setDraining lln s) := by
  unfold setDraining
  repeat' with_reducible first | assumption | apply markSlot_holds

theorem startDrain_holds (d : Drain) (counted : Bool) (s : State) (hφ : Holds φ s) : Holds φ (startDrain d counted s) := by
  unfold startDrain
  repeat' with_reducible first | assumption | apply flagMissed_holds | apply askStage_holds | apply setDraining_holds | simp only [holds_mk]

theorem mergeRead_holds (lln : ℕ) (base : Bool) (must : Bool) (localBase : Option Line) (s : State) (hφ : Holds φ s) : Holds φ (mergeRead lln base must localBase s) := by
  unfold mergeRead
  repeat' with_reducible first | assumption | apply retried_holds | apply spanStart_holds | apply holds_ite | apply holds_mk_host | refine hostFact_mk_all.2 ⟨?_, ?_, ?_⟩ | apply reqsFact_succ | apply Holds.lds | apply Holds.ports | apply Holds.reqs

theorem checkMet_holds (lln : ℕ) (s : State) (hφ : Holds φ s) : Holds φ (checkMet lln s).2 := by
  unfold checkMet
  repeat' with_reducible first | assumption | apply piTouch_holds | apply markRescan_holds | apply event_holds | apply holds_ite | simp only [apply_ite Prod.snd]

theorem mediaRead_holds (lln : ℕ) (s : State) (hφ : Holds φ s) : Holds φ (mediaRead lln s).2 := by
  unfold mediaRead
  repeat' with_reducible first | assumption | apply sourceRead_holds

theorem wholeLine_holds (lln : ℕ) (d : DSlot) (s : State) (hφ : Holds φ s) : Holds φ (wholeLine lln d s).2 := by
  unfold wholeLine
  repeat' with_reducible first | assumption | apply putSlot_holds | apply checkMet_holds | apply baseRead_holds | apply mergeRead_holds | apply mediaRead_holds | apply foundLost_holds | simp only [holds_mk] | split

theorem logPressure_holds (s : State) (hφ : Holds φ s) : Holds φ (logPressure s) := by
  unfold logPressure
  repeat' with_reducible first | assumption | apply makeDue_holds | apply holds_ite | simp only [holds_mk] | refine holds_foldl ?_ (fun _ _ _ => ?_)

theorem newSegment_holds (s : State) (k : Nat) (t : State) (h : newSegment s = some (k, t)) (hφ : Holds φ s) : Holds φ t := by
  unfold newSegment at h
  split at h
  · next hp => cases h; exact holds_mk.2 (placeSeg_holds _ _ _ (pickSegment_holds _ _ _ hp hφ))
  · cases h

theorem openSegment_holds (s : State) (k : Nat) (t : State) (h : openSegment s = some (k, t)) (hφ : Holds φ s) : Holds φ t := by
  unfold openSegment at h
  split at h
  · split at h
    · cases h; exact hφ
    · exact newSegment_holds _ _ _ h hφ
  · exact newSegment_holds _ _ _ h hφ

theorem drainPatch_holds (lln : ℕ) (counted : Bool) (s : State) (hφ : Holds φ s) : Holds φ (drainPatch lln counted s) := by
  unfold drainPatch
  split
  · exact hφ
  · extract_lets s0
    have h0 : Holds φ s0 := piTouch_holds _ _ hφ
    clear_value s0
    split
    · exact h0
    · split
      · exact logPressure_holds _ h0
      · rename_i h
        have h1 := openSegment_holds _ _ _ h h0
        extract_lets w
        have hw : Holds φ w.2 := wholeLine_holds _ _ _ h1
        clear_value w
        split
        · exact hw
        · exact startDrain_holds _ _ _ (holds_mk.2 hw)

theorem drainFast_holds (lln : ℕ) (f : ℕ) (counted : Bool) (s : State) (hφ : Holds φ s) : Holds φ (drainFast lln f counted s) := by
  unfold drainFast
  repeat' with_reducible first | assumption | apply wholeLine_holds | apply startDrain_holds | simp only [holds_mk] | split

theorem residencyMeet_holds (lfn : ℕ) (s : State) (hφ : Holds φ s) : Holds φ (residencyMeet lfn s) := by
  unfold residencyMeet
  repeat' with_reducible first | assumption | apply hbmMeet_holds | apply holds_ite | simp only [holds_mk]

theorem moveCheck_holds (m : FastMove) (l : ℕ) (s : State) (hφ : Holds φ s) : Holds φ (moveCheck m l s).2 := by
  unfold moveCheck
  repeat' with_reducible first | assumption | apply checkMet_holds | apply holds_ite | simp only [apply_ite Prod.snd]

theorem setMove_holds (lfn : ℕ) (f : FastMove → FastMove) (s : State) (hφ : Holds φ s) : Holds φ (setMove lfn f s) := by
  unfold setMove
  repeat' with_reducible first | assumption | simp only [holds_mk]

theorem moveAsk_holds (m : FastMove) (x1 : ℕ) (data : MediaLine) (s : State) (hφ : Holds φ s) : Holds φ (moveAsk m x1 data s) := by
  unfold moveAsk
  repeat' with_reducible first | assumption | apply flagMissed_holds | apply setMove_holds | apply askFastLine_holds | apply holds_ite

theorem moveSource_holds (m : FastMove) (l : ℕ) (s : State) (hφ : Holds φ s) : Holds φ (moveSource m l s).2 := by
  unfold moveSource
  repeat' with_reducible first | assumption | apply slotRead_holds | apply setDraining_holds | apply baseRead_holds | apply mediaRead_holds | apply poisonFind_holds | dsimp only | split

theorem moveUnreadable_holds (m : FastMove) (s : State) (hφ : Holds φ s) : Holds φ (moveUnreadable m s) := by
  unfold moveUnreadable
  repeat' with_reducible first | assumption | apply releaseOld_holds | apply commitNow_holds | apply dropMove_holds

theorem moveNext_holds (m : FastMove) (s : State) (hφ : Holds φ s) : Holds φ (moveNext m s) := by
  unfold moveNext
  repeat' with_reducible first | assumption | apply moveAsk_holds | apply setMove_holds | apply moveCheck_holds | apply moveSource_holds | apply moveUnreadable_holds | simp only [holds_mk] | split

theorem moveLateLine_holds (m : FastMove) (l : ℕ) (ls : List ℕ) (s : State) (hφ : Holds φ s) : Holds φ (moveLateLine m l ls s) := by
  unfold moveLateLine
  repeat' with_reducible first | assumption | apply moveCheck_holds | apply moveSource_holds | apply setMove_holds | apply moveAsk_holds | apply moveUnreadable_holds | simp only [holds_mk] | split

theorem finishMove_holds (m : FastMove) (s : State) (hφ : Holds φ s) : Holds φ (finishMove m s) := by
  unfold finishMove
  repeat' with_reducible first | assumption | apply endMove_holds | apply commitNow_holds | apply commitAt_holds | apply dropPatches_holds | apply drainedClean_holds | apply releaseOld_holds | apply endJob_holds | simp only [holds_mk] | split

theorem moveStep_holds (lfn : ℕ) (s : State) (hφ : Holds φ s) : Holds φ (moveStep lfn s) := by
  unfold moveStep
  repeat' with_reducible first | assumption | apply moveNext_holds | apply moveLateLine_holds | apply finishMove_holds | split

theorem startMove_holds (lfn : ℕ) (f : ℕ) (kind : ℕ) (pin : Bool) (counted : Bool) (job : Option (BitVec 16)) (s : State) (hφ : Holds φ s) : Holds φ (startMove lfn f kind pin counted job s) := by
  unfold startMove
  repeat' with_reducible first | assumption | apply drawBits_holds | apply takeSet_holds | apply moveStep_holds | simp only [holds_mk]

theorem allocate_holds (lfn : ℕ) (counted : Bool) (s : State) (hφ : Holds φ s) : Holds φ (allocate lfn counted s) := by
  unfold allocate
  repeat' with_reducible first | assumption | apply residencyMeet_holds | apply makeDue_holds | apply writeBackFrame_holds | apply startMove_holds | apply commitNow_holds | apply holds_ite | split

theorem drainLine_holds (lln : ℕ) (counted : Bool) (s : State) (hφ : Holds φ s) : Holds φ (drainLine lln counted s) := by
  unfold drainLine
  repeat' with_reducible first | assumption | apply ncEvict_holds | apply slotRead_holds | apply ftRead_holds | apply drainFast_holds | apply residencyMeet_holds | apply writeBackFrame_holds | apply makeDue_holds | apply drainPatch_holds | apply allocate_holds | dsimp only | split

theorem pumpHeld_holds (s : State) (hφ : Holds φ s) : Holds φ (pumpHeld s) := by
  unfold pumpHeld
  repeat' with_reducible first | assumption | apply releaseHeld_holds | apply drainLine_holds | apply holds_ite | refine holds_foldl ?_ (fun _ _ _ => ?_)

theorem mapSync_holds (s : State) (hφ : Holds φ s) : Holds φ (mapSync s) := by
  unfold mapSync
  repeat' with_reducible first | assumption | apply segPut_holds | simp only [holds_mk] | refine holds_foldl ?_ (fun _ _ _ => ?_) | split

theorem poisonFrame_holds (lfn : ℕ) (s : State) (hφ : Holds φ s) : Holds φ (poisonFrame lfn s) := by
  unfold poisonFrame
  repeat' with_reducible first | assumption | apply drPlace_holds | apply poisonAdd_holds | apply dropFrame_holds | simp only [holds_mk] | refine holds_foldl ?_ (fun _ _ _ => ?_)

theorem unhitch_holds (cause : ℕ) (s : State) (hφ : Holds φ s) : Holds φ (unhitch cause s) := by
  unfold unhitch
  repeat' with_reducible first | assumption | apply peerSend_holds | apply setPeer_holds | apply setEvt_holds | apply event_holds | apply send_holds | apply holds_ite | simp only [holds_mk] | refine holds_foldl ?_ (fun _ _ _ => ?_) | apply holds_mk_host | refine hostFact_mk_all.2 ⟨?_, ?_, ?_⟩ | apply ldsFact_map | refine reqsFact_nil (Holds.reqs ?_) | apply Holds.lds | apply Holds.ports

theorem tagsLost_holds (s : State) (hφ : Holds φ s) : Holds φ (tagsLost s) := by
  unfold tagsLost
  repeat' with_reducible first | assumption | apply unhitch_holds | apply poisonFrame_holds | apply event_holds | apply holds_ite | simp only [holds_mk] | refine holds_foldl ?_ (fun _ _ _ => ?_)

theorem recoverLost_holds (s : State) (hφ : Holds φ s) : Holds φ (recoverLost s) := by
  unfold recoverLost
  repeat' with_reducible first | assumption | apply mergeRead_holds | refine holds_foldl ?_ (fun _ _ _ => ?_)

theorem pumpResume_holds (ch : ℕ) (s : State) (hφ : Holds φ s) : Holds φ (pumpResume ch s) := by
  unfold pumpResume
  repeat' with_reducible first | assumption | apply sendPkt_holds | apply setCart_holds | apply holds_ite | refine holds_foldl ?_ (fun _ _ _ => ?_)

theorem wakeUnit_holds (u : ℕ) (s : State) (hφ : Holds φ s) : Holds φ (wakeUnit u s) := by
  unfold wakeUnit
  repeat' with_reducible first | assumption | apply setUnit_holds | apply holds_ite

theorem wakeIdle_holds (s : State) (hφ : Holds φ s) : Holds φ (wakeIdle s) := by
  unfold wakeIdle
  repeat' with_reducible first | assumption | apply wakeUnit_holds | refine holds_foldl ?_ (fun _ _ _ => ?_)

theorem stampBand_holds (b : ℕ) (m : ℕ) (s : State) (hφ : Holds φ s) : Holds φ (stampBand b m s) := by
  unfold stampBand
  repeat' with_reducible first | assumption | apply setBand_holds

theorem startBursts_holds (p : CProg) (s : State) (hφ : Holds φ s) : Holds φ (startBursts p s).2 := by
  unfold startBursts
  repeat' with_reducible first | assumption | apply stampBand_holds | split

theorem sendProg_holds (ch : ℕ) (p : CProg) (s : State) (hφ : Holds φ s) : Holds φ (sendProg ch p s) := by
  unfold sendProg
  repeat' with_reducible first | assumption | apply sendPkt_holds | apply send_holds | apply holds_ite | refine holds_foldl ?_ (fun _ _ _ => ?_)

theorem tryProg_holds (ch : ℕ) (s : State) (p : CProg) (hφ : Holds φ s) : Holds φ (tryProg ch s p) := by
  unfold tryProg
  repeat' with_reducible first | assumption | apply setCart_holds | apply startBursts_holds | apply sendProg_holds | split

theorem pumpProgs_holds (ch : ℕ) (s : State) (hφ : Holds φ s) : Holds φ (pumpProgs ch s) := by
  unfold pumpProgs
  repeat' with_reducible first | assumption | apply tryProg_holds | apply setCart_holds | refine holds_foldl ?_ (fun _ _ _ => ?_)

theorem sendPfin_holds (ch : ℕ) (p : CProg) (s : State) (hφ : Holds φ s) : Holds φ (sendPfin ch p s) := by
  unfold sendPfin
  repeat' with_reducible first | assumption | apply setCart_holds | apply sendPkt_holds | apply holds_ite | simp only [holds_mk]

theorem pumpPfin_holds (s : State) (hφ : Holds φ s) : Holds φ (pumpPfin s) := by
  unfold pumpPfin
  repeat' with_reducible first | assumption | apply sendPfin_holds | apply holds_ite | refine holds_foldl ?_ (fun _ _ _ => ?_)

theorem holdBank_holds (rid : ℕ) (p : ℕ × ℕ × ℕ) (s : State) (hφ : Holds φ s) : Holds φ (holdBank rid p s) := by
  unfold holdBank
  repeat' with_reducible first | assumption | apply updRead_holds

theorem issueRead_holds (ch : ℕ) (r : CRead) (tag : BitVec 7) (s : State) (hφ : Holds φ s) : Holds φ (issueRead ch r tag s) := by
  unfold issueRead
  repeat' with_reducible first | assumption | apply sendPkt_holds | apply setCart_holds

theorem tryRead_holds (ch : ℕ) (s : State) (r : CRead) (hφ : Holds φ s) : Holds φ (tryRead ch s r) := by
  unfold tryRead
  repeat' with_reducible first | assumption | apply suspendAll_holds | apply suspendBank_holds | apply holdBank_holds | apply setCart_holds | apply issueRead_holds | apply holds_ite | split

theorem askRaw_holds (ch : ℕ) (op : ℕ) (die : ℕ) (arg : ℕ) (what : ℕ) (s : State) (hφ : Holds φ s) : Holds φ (askRaw ch op die arg what s) := by
  unfold askRaw
  repeat' with_reducible first | assumption | apply setCart_holds | apply sendPkt_holds | split

theorem pumpRaws_holds (ch : ℕ) (s : State) (hφ : Holds φ s) : Holds φ (pumpRaws ch s) := by
  unfold pumpRaws
  repeat' with_reducible first | assumption | apply askRaw_holds | apply setCart_holds | refine holds_foldl ?_ (fun _ _ _ => ?_)

theorem pumpFrame_holds (ch : ℕ) (s : State) (hφ : Holds φ s) : Holds φ (pumpFrame ch s) := by
  unfold pumpFrame
  repeat' with_reducible first | assumption | apply setCart_holds | apply sendPkt_holds | apply holds_ite | split

theorem pumpReads_holds (ch : ℕ) (s : State) (hφ : Holds φ s) : Holds φ (pumpReads ch s) := by
  unfold pumpReads
  repeat' with_reducible first | assumption | apply tryRead_holds | apply setCart_holds | apply pumpRaws_holds | apply pumpFrame_holds | refine holds_foldl ?_ (fun _ _ _ => ?_)

theorem pump_holds (s : State) (hφ : Holds φ s) : Holds φ (pump s) := by
  unfold pump
  repeat' with_reducible first | assumption | apply wakeIdle_holds | apply wakeUnit_holds | apply pumpReads_holds | apply pumpResume_holds | apply pumpPfin_holds | apply pumpProgs_holds | apply holds_ite | refine holds_foldl ?_ (fun _ _ _ => ?_)

theorem mediaNext_holds (s : State) (hφ : Holds φ s) : Holds φ (mediaNext s) := by
  unfold mediaNext
  repeat' with_reducible first | assumption | apply flushJobs_holds | apply completeThrough_holds | apply pumpHeld_holds | apply mapSync_holds | apply tagsLost_holds | apply pump_holds | apply pumpPrefetch_holds | apply settleReads_holds | apply recoverLost_holds | apply holds_ite | refine holds_times _ ?_ (fun _ _ => ?_)

theorem flagAccess_holds (reserved : Bool) (off : BitVec 24) (s : State) (hφ : Holds φ s) : Holds φ (flagAccess reserved off s) := by
  unfold flagAccess
  repeat' with_reducible first | assumption | simp only [holds_mk]

theorem writeGlobal_holds (o : ℕ) (v : Word) (s : State) (hφ : Holds φ s) : Holds φ (writeGlobal o v s) := by
  unfold writeGlobal
  repeat' with_reducible first | assumption | apply holds_ite | simp only [holds_mk]

theorem clearSpanstat_holds (inc : Byte) (s : State) (hφ : Holds φ s) : Holds φ (clearSpanstat inc s) := by
  unfold clearSpanstat
  repeat' with_reducible first | assumption | apply holds_ite | simp only [holds_mk]

theorem clearMmstat_holds (inc : Byte) (s : State) (hφ : Holds φ s) : Holds φ (clearMmstat inc s) := by
  unfold clearMmstat
  repeat' with_reducible first | assumption | simp only [holds_mk]

theorem writeMm_holds (o : ℕ) (v : Word) (s : State) (hφ : Holds φ s) : Holds φ (writeMm o v s) := by
  unfold writeMm
  repeat' with_reducible first | assumption | apply clearMmstat_holds | apply holds_ite | simp only [holds_mk]

theorem setQmb_holds (slot : ℕ) (q : ℕ) (f : Qmb → Qmb) (s : State) (hφ : Holds φ s) : Holds φ (setQmb slot q f s) := by
  unfold setQmb
  repeat' with_reducible first | assumption | simp only [holds_mk]

theorem mbWrite_holds (slot : ℕ) (off : ℕ) (v : BitVec 32) (s : State) (hφ : Holds φ s) : Holds φ (mbWrite slot off v s) := by
  unfold mbWrite
  repeat' with_reducible first | assumption | apply setCmb_holds | apply setQmb_holds | split

theorem fireStart_holds (p : ℕ) (u : ℕ) (s : State) (hφ : Holds φ s) : Holds φ (fireStart p u s) := by
  unfold fireStart
  repeat' with_reducible first | assumption | simp only [holds_mk]

theorem setPower_holds (f : PowerSt → PowerSt) (s : State) (hf : ∀ x, (f x).rails.length = x.rails.length) (hφ : Holds φ s) : Holds φ (setPower f s) :=
  holds_mk_power hφ (fun hk => (hf _).trans (hφ.power hk))

theorem checkOff_holds (s : State) (hφ : Holds φ s) : Holds φ (checkOff s) := by
  unfold checkOff
  repeat' with_reducible first | assumption | refine setPower_holds _ _ (fun _ => rfl) ?_ | apply holds_ite

theorem secondCause_holds (cause : ℕ) (s : State) (hφ : Holds φ s) : Holds φ (secondCause cause s) := by
  unfold secondCause
  repeat' with_reducible first | assumption | apply event_holds

theorem sbFirst_holds (rs : List SbReq) (s : State) (hφ : Holds φ s) : Holds φ (sbFirst rs s) := by
  unfold sbFirst
  repeat' with_reducible first | assumption | apply sbStart_holds | apply holds_mk_sb | simp only [sbFact_mk] | apply Holds.sb

theorem scrubAskFast_holds (f : ℕ) (c : ℕ) (pos : ℕ) (step : ℕ) (s : State) (hφ : Holds φ s) : Holds φ (scrubAskFast f c pos step s) := by
  unfold scrubAskFast
  repeat' with_reducible first | assumption | apply askRead_holds | apply holds_ite

theorem readLineRes_holds (rid : ℕ) (key : ℕ) (step : ℕ) (res : LineRes) (s : State) (hφ : Holds φ s) : Holds φ (readLineRes rid key step res s) := by
  unfold readLineRes
  repeat' with_reducible first | assumption | apply updRead_holds | apply chargeRead_holds | apply retryNoted_holds | apply dieCount_holds | apply readGo_holds | apply homeAfter_holds | apply countBlockMark_holds | apply askMember_holds | apply holds_ite | split

theorem scrubAsk_holds (b : ℕ) (m : ℕ) (x2 : ℕ) (step : ℕ) (s : State) (hφ : Holds φ s) : Holds φ (scrubAsk b m x2 step s) := by
  unfold scrubAsk
  repeat' with_reducible first | assumption | apply readRefs_holds | apply askRead_holds | apply holds_ite

theorem askReadback_holds (b : ℕ) (m : ℕ) (x2 : ℕ) (s : State) (hφ : Holds φ s) : Holds φ (askReadback b m x2 s) := by
  unfold askReadback
  repeat' with_reducible first | assumption | apply readRefs_holds | apply askRead_holds

theorem readLost_holds (r : CRead) (s : State) (hφ : Holds φ s) : Holds φ (readLost r s) := by
  unfold readLost
  repeat' with_reducible first | assumption | apply readLineRes_holds | apply askReadback_holds | apply scrubAsk_holds | apply scrubAskFast_holds | split

theorem moveAgain_holds (m : FastMove) (s : State) (hφ : Holds φ s) : Holds φ (moveAgain m s) := by
  unfold moveAgain
  repeat' with_reducible first | assumption | apply dropMove_holds | apply startMove_holds | apply endJob_holds | dsimp only | split

theorem moveLost_holds (lfn : ℕ) (copy : ℕ) (s : State) (hφ : Holds φ s) : Holds φ (moveLost lfn copy s) := by
  unfold moveLost
  repeat' with_reducible first | assumption | apply askFastLine_holds | apply moveAgain_holds | apply moveStep_holds | apply setMove_holds | split

theorem gapRelease_holds (s : State) (hφ : Holds φ s) : Holds φ (gapRelease s) := by
  unfold gapRelease
  repeat' with_reducible first | assumption | apply drainLine_holds | simp only [holds_mk] | refine holds_foldl ?_ (fun _ _ _ => ?_)

theorem drainEnd_holds (d : Drain) (s : State) (hφ : Holds φ s) : Holds φ (drainEnd d s) := by
  unfold drainEnd
  repeat' with_reducible first | assumption | apply lineClean_holds | apply moveStep_holds | apply gapRelease_holds | simp only [holds_mk]

theorem gapStart_holds (d : Drain) (s : State) (hφ : Holds φ s) : Holds φ (gapStart d s) := by
  unfold gapStart
  repeat' with_reducible first | assumption | apply askStage_holds | apply fastRead_holds | apply poisonFind_holds | apply drainEnd_holds | apply mergeRead_holds | simp only [holds_mk] | split

theorem moveLate_holds (lln : ℕ) (s : State) (hφ : Holds φ s) : Holds φ (moveLate lln s) := by
  unfold moveLate
  repeat' with_reducible first | assumption | apply moveStep_holds | apply setMove_holds

theorem fastDone_holds (d : Drain) (s : State) (hφ : Holds φ s) : Holds φ (fastDone d s).2 := by
  unfold fastDone
  repeat' with_reducible first | assumption | apply fsTouch_holds | apply wearBy_holds | apply fsSet_holds | apply holds_ite | simp only [holds_mk] | simp only [apply_ite Prod.snd]

theorem gapCommit_holds (d : Drain) (s : State) (hφ : Holds φ s) : Holds φ (gapCommit d s) := by
  unfold gapCommit
  repeat' with_reducible first | assumption | apply wearBy_holds | apply descWrite_holds | apply fsSet_holds | apply holds_ite | simp only [holds_mk]

theorem piRemove_holds (x0 : PiEnt) (s : State) (hφ : Holds φ s) : Holds φ (piRemove x0 s) := by
  unfold piRemove
  repeat' with_reducible first | assumption | apply piDrop_holds

theorem piInsert_holds (e : PiEnt) (s : State) (hφ : Holds φ s) : Holds φ (piInsert e s).2 := by
  unfold piInsert
  repeat' with_reducible first | assumption | apply piRemove_holds | apply fire_holds | apply piNote_holds | apply hbmWrite_holds | simp only [holds_mk] | split

theorem indexPatch_holds (e : PiEnt) (t : BitVec 64) (s : State) (hφ : Holds φ s) : Holds φ (indexPatch e t s).2 := by
  unfold indexPatch
  repeat' with_reducible first | assumption | apply piInsert_holds | simp only [holds_mk]

theorem patchDone_holds (d : Drain) (s : State) (hφ : Holds φ s) : Holds φ (patchDone d s).2 := by
  unfold patchDone
  repeat' with_reducible first | assumption | apply piTouch_holds | apply commitQuiet_holds | apply markRescan_holds | apply event_holds | apply indexPatch_holds | apply fsumRefresh_holds | apply makeDue_holds | apply logPressure_holds | simp only [holds_mk] | split

theorem drainTo_holds (d : Drain) (n : ℕ) (s : State) (hφ : Holds φ s) : Holds φ (drainTo d n s) := by
  unfold drainTo
  repeat' with_reducible first | assumption | apply askStage_holds | apply patchDone_holds | apply drainEnd_holds | apply moveLate_holds | apply drainDrop_holds | apply gapCommit_holds | apply fastDone_holds | apply gapStart_holds | apply holds_ite | simp only [holds_mk]

theorem drainRetry_holds (lln : ℕ) (s : State) (hφ : Holds φ s) : Holds φ (drainRetry lln s) := by
  unfold drainRetry
  repeat' with_reducible first | assumption | apply flagMissed_holds | apply drainTo_holds | split

theorem progLost_holds (p : CProg) (s : State) (hφ : Holds φ s) : Holds φ (progLost p s) := by
  unfold progLost
  repeat' with_reducible first | assumption | apply abandonBatch_holds | apply drainRetry_holds | apply moveLost_holds | apply setBand_holds | split

theorem dropWork_holds (ch : ℕ) (hit : ℕ → ℕ → Bool) (s : State) (hφ : Holds φ s) : Holds φ (dropWork ch hit s) := by
  unfold dropWork
  repeat' with_reducible first | assumption | apply setCart_holds | apply progLost_holds | apply readLost_holds | refine holds_foldl ?_ (fun _ _ _ => ?_)

theorem setStack_holds (ch : ℕ) (f : Stack → Stack) (s : State) (hφ : Holds φ s) : Holds φ (setStack ch f s) := by
  unfold setStack
  repeat' with_reducible first | assumption | simp only [holds_mk]

theorem stackDown_holds (ch : ℕ) (powered : Bool) (s : State) (hφ : Holds φ s) : Holds φ (stackDown ch powered s) := by
  unfold stackDown
  repeat' with_reducible first | assumption | apply setStack_holds | simp only [holds_mk]

theorem endWindows_holds (ch : ℕ) (hit : ℕ → ℕ → Bool) (s : State) (hφ : Holds φ s) : Holds φ (endWindows ch hit s) := by
  unfold endWindows
  repeat' with_reducible first | assumption | apply progLost_holds | apply setCart_holds | refine holds_foldl ?_ (fun _ _ _ => ?_)

theorem setTest_holds (u : ℕ) (result : ℕ) (first : ℕ) (destructive : Bool) (s : State) (hφ : Holds φ s) : Holds φ (setTest u result first destructive s) := by
  unfold setTest
  repeat' with_reducible first | assumption | simp only [holds_mk]

theorem endContained_holds (u : ℕ) (s : State) (hφ : Holds φ s) : Holds φ (endContained u s) := by
  unfold endContained
  repeat' with_reducible first | assumption | apply endJob_holds | apply setTest_holds | apply setUnit_holds | simp only [holds_mk] | refine holds_foldl ?_ (fun _ _ _ => ?_) | split

theorem beyondEvent_holds (cond : ℕ) (band : ℕ) (s : State) (hφ : Holds φ s) : Holds φ (beyondEvent cond band s) := by
  unfold beyondEvent
  repeat' with_reducible first | assumption | apply event_holds | apply holds_ite | simp only [holds_mk]

theorem spanServe_holds (lfn : ℕ) (s : State) (hφ : Holds φ s) : Holds φ (spanServe lfn s) := by
  unfold spanServe
  repeat' with_reducible first | assumption | apply markRebuild_holds | apply abandonFrame_holds | apply releaseOld_holds | apply commitNow_holds | apply holds_ite

theorem beyond_holds (s : State) (hφ : Holds φ s) : Holds φ (beyond s) := by
  unfold beyond
  repeat' with_reducible first | assumption | apply beyondEvent_holds | apply spanServe_holds | apply refreshBand_holds | apply makeDue_holds | apply mergeRead_holds | apply poisonFind_holds | apply unhitch_holds | apply holds_ite | simp only [holds_mk] | refine holds_foldl ?_ (fun _ _ _ => ?_)

theorem abandonMissing_holds (s : State) (hφ : Holds φ s) : Holds φ (abandonMissing s) := by
  unfold abandonMissing
  repeat' with_reducible first | assumption | apply abandonBatch_holds | refine holds_foldl ?_ (fun _ _ _ => ?_) | split

theorem mediaLoss_holds (u : ℕ) (down : Bool) (s : State) (hφ : Holds φ s) : Holds φ (mediaLoss u down s) := by
  unfold mediaLoss
  repeat' with_reducible first | assumption | apply dropWork_holds | apply endContained_holds | apply endWindows_holds | apply setCart_holds | apply stackDown_holds | apply sendPkt_holds | apply beyond_holds | apply abandonMissing_holds | apply holds_ite

theorem stackOff_holds (ch : ℕ) (s : State) (hφ : Holds φ s) : Holds φ (stackOff ch s) := by
  unfold stackOff
  repeat' with_reducible first | assumption | apply stackDown_holds | apply holds_ite

theorem portState_holds (p : ℕ) (st : UState) (s : State) (hφ : Holds φ s) : Holds φ (portState p st s) := by
  unfold portState
  repeat' with_reducible first | assumption | apply setUnit_holds | apply holds_ite

theorem setPort_holds (p : ℕ) (f : Port → Port) (s : State) (hφ : Holds φ s) : Holds φ (setPort p f s) := by
  unfold setPort
  repeat' with_reducible first | assumption | apply holds_mk_host | refine hostFact_mk_all.2 ⟨?_, ?_, ?_⟩ | apply portsFact_lmod | apply Holds.lds | apply Holds.ports | apply Holds.reqs

theorem portDown_holds (p : ℕ) (s : State) (hφ : Holds φ s) : Holds φ (portDown p s) := by
  unfold portDown
  repeat' with_reducible first | assumption | apply setPort_holds | apply updLoad_holds | apply portState_holds | apply holds_mk_host | refine hostFact_mk_all.2 ⟨?_, ?_, ?_⟩ | apply ldsFact_mapIdx | apply reqsFact_filter | apply Holds.lds | apply Holds.ports | apply Holds.reqs

theorem unitsAbsent_holds (olds : List (ℕ × UState)) (s : State) (hφ : Holds φ s) : Holds φ (unitsAbsent olds s) := by
  unfold unitsAbsent
  repeat' with_reducible first | assumption | apply stateEvent_holds | apply mediaLoss_holds | apply portDown_holds | apply stackOff_holds | apply holds_ite | refine holds_foldl ?_ (fun _ _ _ => ?_)

theorem flagRail_holds (r : ℕ) (s : State) (hφ : Holds φ s) : Holds φ (flagRail r s) := by
  unfold flagRail
  repeat' with_reducible first | assumption | refine setPower_holds _ _ (fun _ => rfl) ?_ | apply sbFirst_holds | apply event_holds | apply unitsAbsent_holds | apply holds_ite

theorem stopChannel_holds (ch : ℕ) (s : State) (hφ : Holds φ s) : Holds φ (stopChannel ch s) := by
  unfold stopChannel
  repeat' with_reducible first | assumption | apply sendPkt_holds | apply setCart_holds | apply holds_ite | refine holds_foldl ?_ (fun _ _ _ => ?_)

theorem failReadmits_holds (s : State) (hφ : Holds φ s) : Holds φ (failReadmits s) := by
  unfold failReadmits
  repeat' with_reducible first | assumption | apply endJob_holds | refine holds_foldl ?_ (fun _ _ _ => ?_)

/-- An update of the host ports and the thermal loop, beside any others. -/
theorem holds_mk_host_therm {s : State} (h : Holds φ s) {x_pending : List Instr} {x_out : List Out} {x_free : Nat} {x_variant : Variant} {x_id : IdSt} {x_time : TimeSt}
    {x_tt : TtSt} {x_unit : UnitSt} {x_cache : CacheSt} {x_rstat : ReadStat} {x_write : WriteSt} {x_xlat : XlatSt} {x_mm : MmSt} {x_lp : LpSt}
    {x_media : MediaSt} {x_span : SpanSt} {x_wb : WaybillSt} {x_evt : EvtSt} {x_start : StartSt} {x_fw : FwSt}
    {x : HostSt} (hx : HostFact φ x) {y : ThermSt} (hy : ThermFact φ y) : Holds φ (State.mk x_pending x_out x_free x_variant x_id x_time x_tt x_unit x x_cache
    x_rstat x_write x_xlat x_mm x_lp x_media x_span s.queue x_wb x_evt s.sb s.power y x_start x_fw s.sec) :=
  ⟨hx, h.queue, h.sb, h.power, hy, h.sec⟩

theorem shutdownPath_holds (cause : ℕ) (s : State) (hφ : Holds φ s) : Holds φ (shutdownPath cause s) := by
  have hstop (t : State) (ht : Holds φ t) : Holds φ ((List.range (nChannels t)).foldl (fun s c => stopChannel c s) t) :=
    holds_foldl ht (fun s c hs => stopChannel_holds _ _ hs)
  unfold shutdownPath
  refine wbFlush_holds _ (sbFirst_holds _ _ ?_)
  dsimp only
  refine holds_ite (setPower_holds _ _ (fun _ => rfl) ?_) ?_ <;>
  · refine event_holds _ _ (hstop _ ?_)
    have h2 := setPower_holds (φ := φ) (fun p => { p with seq := .shuttingDown, cause := BitVec.ofNat 3 cause, seqOut := false, flushStep := 1, flushBroken := false }) _
      (fun _ => rfl) (failReadmits_holds { s with evt := { s.evt with armed := [] } } (holds_mk.2 hφ))
    exact holds_mk_host_therm h2 (hostFact_mk.2 h2.host) (thermFact_of_sensors rfl h2.therm)

theorem flushReady_holds (s : State) (hφ : Holds φ s) : Holds φ (flushReady s) := by
  unfold flushReady
  repeat' with_reducible first | assumption | apply ncLook_holds | apply slotRead_holds | apply holds_ite | refine holds_foldl ?_ (fun _ _ _ => ?_)

theorem flushPlace_holds (s : State) (k : Nat) (t : State) (h : flushPlace s = some (k, t)) (hφ : Holds φ s) : Holds φ t := by
  unfold flushPlace at h
  extract_lets last up fresh at h
  have hf : ∀ k t, fresh = some (k, t) → Holds φ t := by
    intro k t h
    simp only [fresh] at h
    split at h
    · cases h
    · cases h; exact takeSet_holds _ _ _ _ _ (setPower_holds _ _ (fun _ => rfl) hφ)
  clear_value fresh last
  split at h
  · split at h
    · cases h; exact hφ
    · exact hf _ _ h
  · exact hf _ _ h

theorem flushSegment_holds (ctr : ℕ) (last : Bool) (lines : List (ℕ × Line × BitVec 64)) (s : State) (hφ : Holds φ s) : Holds φ (flushSegment ctr last lines s) := by
  unfold flushSegment
  split
  · exact hφ
  · next h =>
    have h0 := flushPlace_holds _ _ _ h hφ
    extract_lets us sg s1 x s2 s3
    have h1 : Holds φ s1 := placeSeg_holds _ _ _ h0
    have h2 : Holds φ s2 := holds_mk.2 h1
    clear_value s2
    have h3 : Holds φ s3 := holds_foldl h2 (fun s i hs => by
      split
      · exact segPut_holds _ _ _ _ hs
      · exact hs)
    exact holds_foldl h3 (fun s i hs => segPut_holds _ _ _ _ hs)

theorem flushSegments_holds (lines : List (ℕ × Line × BitVec 64)) (s : State) (hφ : Holds φ s) : Holds φ (flushSegments lines s) := by
  unfold flushSegments
  repeat' with_reducible first | assumption | apply flushSegment_holds | refine holds_foldl_snd ?_ (fun _ _ _ => ?_)

theorem flushCut_holds (s : State) (hφ : Holds φ s) : Holds φ (flushCut s) := by
  unfold flushCut
  repeat' with_reducible first | assumption | apply drawBits_holds | apply flushReady_holds | refine setPower_holds _ _ (fun _ => rfl) ?_ | apply flushSegments_holds | apply holds_ite

theorem loseJobs_holds (s : State) (hφ : Holds φ s) : Holds φ (loseJobs s) := by
  unfold loseJobs
  repeat' with_reducible first | assumption | simp only [holds_mk]

theorem mainDown_holds (s : State) (hφ : Holds φ s) : Holds φ (mainDown s) := by
  unfold mainDown
  extract_lets s1 own s2
  have h2 : Holds φ s2 := holds_foldl (loseJobs_holds _ hφ) (fun s c hs => stackDown_holds _ _ _ hs)
  clear_value s1 own s2
  exact ⟨⟨ldsFact_map h2.lds _, portsFact_map h2.ports _, reqsFact_nil h2.reqs⟩, fun _ => rfl, h2.sb, h2.power,
    fun _ => List.length_replicate, h2.sec⟩

theorem offTable_holds (s : State) (hφ : Holds φ s) : Holds φ (offTable s) := by
  unfold offTable
  repeat' with_reducible first | assumption | apply checkOff_holds | refine setPower_holds _ _ (fun _ => rfl) ?_ | apply mainDown_holds

theorem breakFlush_holds (s : State) (hφ : Holds φ s) : Holds φ (breakFlush s) := by
  unfold breakFlush
  repeat' with_reducible first | assumption | apply offTable_holds | refine setPower_holds _ _ (fun _ => rfl) ?_ | apply flushCut_holds

theorem pgLost_holds (r : ℕ) (s : State) (hφ : Holds φ s) : Holds φ (pgLost r s) := by
  unfold pgLost
  repeat' with_reducible first | assumption | refine setPower_holds _ _ (fun _ => rfl) ?_ | apply checkOff_holds | apply shutdownPath_holds | apply mediaNext_holds | apply flagRail_holds | apply breakFlush_holds | apply secondCause_holds | simp only [holds_mk] | split

theorem pgGlitch_holds (r : ℕ) (s : State) (hφ : Holds φ s) : Holds φ (pgGlitch r s) := by
  unfold pgGlitch
  repeat' with_reducible first | assumption | refine setPower_holds _ _ (fun _ => rfl) ?_ | apply holds_ite

theorem arm_holds (a : Armed) (s : State) (hφ : Holds φ s) : Holds φ (arm a s) := by
  unfold arm
  repeat' with_reducible first | assumption | apply fireStart_holds | apply pgGlitch_holds | apply fire_holds | apply pgLost_holds | apply holds_ite | simp only [holds_mk]

theorem regArm_holds (s : State) (hφ : Holds φ s) : Holds φ (regArm s) := by
  unfold regArm
  repeat' with_reducible first | assumption | apply arm_holds | simp only [holds_mk] | split

theorem disarm_holds (p : ℕ) (u : ℕ) (s : State) (hφ : Holds φ s) : Holds φ (disarm p u s) := by
  unfold disarm
  repeat' with_reducible first | assumption | simp only [holds_mk]

theorem regDisarm_holds (s : State) (hφ : Holds φ s) : Holds φ (regDisarm s) := by
  unfold regDisarm
  repeat' with_reducible first | assumption | apply disarm_holds | apply holds_ite

theorem writeInject_holds (o : ℕ) (v : Word) (s : State) (hφ : Holds φ s) : Holds φ (writeInject o v s) := by
  unfold writeInject
  repeat' with_reducible first | assumption | apply regArm_holds | apply regDisarm_holds | apply holds_ite | simp only [holds_mk]

theorem mbAccess_holds (slot u : Nat) (f : State → State) (s : State) (h : ∀ s, Holds φ s → Holds φ (f s)) (hφ : Holds φ s) : Holds φ (mbAccess slot u f s) := by
  unfold mbAccess
  split
  · exact send_holds _ _ hφ
  · exact h _ (wakeUnit_holds _ _ hφ)

theorem clearEvt_holds (w : BitVec 9) (s : State) (hφ : Holds φ s) : Holds φ (clearEvt w s) := by
  unfold clearEvt
  repeat' with_reducible first | assumption | simp only [holds_mk]

theorem writeEvents_holds (o : ℕ) (v : Word) (s : State) (hφ : Holds φ s) : Holds φ (writeEvents o v s) := by
  unfold writeEvents
  repeat' with_reducible first | assumption | apply clearEvt_holds | apply holds_ite | simp only [holds_mk]

theorem startFlush_holds (s : State) (hφ : Holds φ s) : Holds φ (startFlush s) := by
  unfold startFlush
  repeat' with_reducible first | assumption | apply wbFlush_holds | apply holds_ite

theorem writeWaybill_holds (o : ℕ) (v : Word) (s : State) (hφ : Holds φ s) : Holds φ (writeWaybill o v s) := by
  unfold writeWaybill
  repeat' with_reducible first | assumption | apply startFlush_holds | apply holds_ite | simp only [holds_mk]

theorem clearLpstat_holds (inc : Byte) (s : State) (hφ : Holds φ s) : Holds φ (clearLpstat inc s) := by
  unfold clearLpstat
  repeat' with_reducible first | assumption | simp only [holds_mk]

theorem writeLp_holds (o : ℕ) (v : Word) (s : State) (hφ : Holds φ s) : Holds φ (writeLp o v s) := by
  unfold writeLp
  repeat' with_reducible first | assumption | apply clearLpstat_holds | apply holds_ite | simp only [holds_mk]

theorem setTherm_holds (f : ThermSt → ThermSt) (s : State) (hf : ∀ x, (f x).sensors.length = x.sensors.length) (hφ : Holds φ s) : Holds φ (setTherm f s) :=
  holds_mk_therm hφ (fun hk => (hf _).trans (hφ.therm hk))

theorem clearThrmstat_holds (inc : Byte) (s : State) (hφ : Holds φ s) : Holds φ (clearThrmstat inc s) := by
  unfold clearThrmstat
  exact holds_mk_therm hφ hφ.therm

theorem writeThermal_holds (o : ℕ) (v : Word) (s : State) (hφ : Holds φ s) : Holds φ (writeThermal o v s) := by
  unfold writeThermal
  repeat' with_reducible first | assumption | refine setTherm_holds _ _ (fun _ => rfl) ?_ | apply clearThrmstat_holds | apply holds_ite

theorem clearPwr_holds (inc : Byte) (s : State) (hφ : Holds φ s) : Holds φ (clearPwr inc s) := by
  unfold clearPwr
  exact holds_mk_power hφ hφ.power

theorem writePower_holds (o : ℕ) (v : Word) (s : State) (hφ : Holds φ s) : Holds φ (writePower o v s) := by
  unfold writePower
  repeat' with_reducible first | assumption | refine setPower_holds _ _ (fun _ => rfl) ?_ | apply clearPwr_holds | apply holds_ite

theorem clearCachestat_holds (inc : Byte) (s : State) (hφ : Holds φ s) : Holds φ (clearCachestat inc s) := by
  unfold clearCachestat
  repeat' with_reducible first | assumption | simp only [holds_mk]

theorem clearReadstat_holds (inc : Byte) (s : State) (hφ : Holds φ s) : Holds φ (clearReadstat inc s) := by
  unfold clearReadstat
  repeat' with_reducible first | assumption | simp only [holds_mk]

theorem clearWritestat_holds (inc : Byte) (s : State) (hφ : Holds φ s) : Holds φ (clearWritestat inc s) := by
  unfold clearWritestat
  repeat' with_reducible first | assumption | simp only [holds_mk]

theorem writePaths_holds (o : ℕ) (v : Word) (s : State) (hφ : Holds φ s) : Holds φ (writePaths o v s) := by
  unfold writePaths
  repeat' with_reducible first | assumption | apply updLoad_holds | apply clearReadstat_holds | apply clearWritestat_holds | apply clearCachestat_holds | apply holds_ite | simp only [holds_mk]

theorem qMark_holds (q : ℕ) (s : State) (hφ : Holds φ s) : Holds φ (qMark q s) := by
  unfold qMark
  repeat' with_reducible first | assumption | apply setQ_holds

theorem qRewind_holds (q : ℕ) (s : State) (hφ : Holds φ s) : Holds φ (qRewind q s) := by
  unfold qRewind
  repeat' with_reducible first | assumption | apply setQ_holds

theorem qRelease_holds (q : ℕ) (n : ℕ) (s : State) (hφ : Holds φ s) : Holds φ (qRelease q n s).2 := by
  unfold qRelease
  repeat' with_reducible first | assumption | apply setQ_holds | apply qGrant_holds | apply holds_ite | simp only [apply_ite Prod.snd]

theorem queueRecord_holds (q : ℕ) (bit : ℕ) (s : State) (hφ : Holds φ s) : Holds φ (queueRecord q bit s) := by
  unfold queueRecord
  repeat' with_reducible first | assumption | apply event_holds

theorem releaseWords_holds (q : ℕ) (n : ℕ) (s : State) (hφ : Holds φ s) : Holds φ (releaseWords q n s) := by
  unfold releaseWords
  repeat' with_reducible first | assumption | apply qRelease_holds | apply queueRecord_holds | apply holds_ite

theorem writeQueueReg_holds (o : ℕ) (v : Word) (s : State) (hφ : Holds φ s) : Holds φ (writeQueueReg o v s) := by
  unfold writeQueueReg
  repeat' with_reducible first | assumption | apply setQ_holds | apply qMark_holds | apply qRewind_holds | apply releaseWords_holds | apply holds_ite

theorem clearTtstat_holds (inc : Byte) (s : State) (hφ : Holds φ s) : Holds φ (clearTtstat inc s) := by
  unfold clearTtstat
  repeat' with_reducible first | assumption | simp only [holds_mk]

theorem writeMarkHi_holds (v : Word) (s : State) (hφ : Holds φ s) : Holds φ (writeMarkHi v s) := by
  unfold writeMarkHi
  repeat' with_reducible first | assumption | simp only [holds_mk]

theorem writeTime_holds (o : ℕ) (v : Word) (s : State) (hφ : Holds φ s) : Holds φ (writeTime o v s) := by
  unfold writeTime
  repeat' with_reducible first | assumption | apply writeMarkHi_holds | apply clearTtstat_holds | apply holds_ite | simp only [holds_mk]

theorem clearStrongbox_holds (inc : Byte) (s : State) (hφ : Holds φ s) : Holds φ (clearStrongbox inc s) := by
  unfold clearStrongbox
  repeat' with_reducible first | assumption | apply holds_mk_sb | simp only [sbFact_mk] | apply Holds.sb

theorem writeStrongbox_holds (o : ℕ) (v : Word) (s : State) (hφ : Holds φ s) : Holds φ (writeStrongbox o v s) := by
  unfold writeStrongbox
  repeat' with_reducible first | assumption | apply clearStrongbox_holds | apply holds_ite | apply holds_mk_sb | simp only [sbFact_mk] | apply Holds.sb

theorem clearMch_holds (ch : ℕ) (inc : Byte) (s : State) (hφ : Holds φ s) : Holds φ (clearMch ch inc s) := by
  unfold clearMch
  repeat' with_reducible first | assumption | apply holds_ite | simp only [holds_mk]

theorem writeReg_holds (o : ℕ) (v : Word) (s : State) (hφ : Holds φ s) : Holds φ (writeReg o v s) := by
  unfold writeReg
  repeat' with_reducible first | assumption | apply writeGlobal_holds | apply writeTime_holds | apply writePower_holds | apply writeThermal_holds | apply writeStrongbox_holds | apply writeWaybill_holds | apply writeEvents_holds | apply writeInject_holds | apply writeQueueReg_holds | apply mbAccess_holds | apply mbWrite_holds | apply writePaths_holds | apply writeMm_holds | apply clearMch_holds | apply writeLp_holds | apply clearSpanstat_holds | apply holds_ite | split

theorem writeDword_holds (off : BitVec 24) (o : ℕ) (v : Word) (s : State) (hφ : Holds φ s) : Holds φ (writeDword off o v s) := by
  unfold writeDword
  repeat' with_reducible first | assumption | apply writeReg_holds | apply flagAccess_holds | apply holds_ite

theorem accessDword_holds (off : BitVec 24) (data : BitVec 64) (be : Byte) (o : ℕ) (s : State) (hφ : Holds φ s) : Holds φ (accessDword off data be o s) := by
  unfold accessDword
  repeat' with_reducible first | assumption | apply writeDword_holds | apply flagAccess_holds | split

theorem trainTo.writeEye_holds (ch : ℕ) (s : State) (hφ : Holds φ s) : Holds φ (trainTo.writeEye ch s) := by
  unfold trainTo.writeEye
  repeat' with_reducible first | assumption | apply setCart_holds | apply sendPkt_holds | apply askRaw_holds | apply drawBits_holds | apply send_holds

theorem cmbOffer_holds (slot : ℕ) (ch : ℕ) (msg : ℕ) (x3 : CmbMsg) (s : State) (hφ : Holds φ s) : Holds φ (cmbOffer slot ch msg x3 s).2 := by
  unfold cmbOffer
  repeat' with_reducible first | assumption | apply setCmb_holds | apply holds_ite | simp only [apply_ite Prod.snd]

theorem countIn_holds (s : State) (hφ : Holds φ s) : Holds φ (countIn s) := by
  unfold countIn
  repeat' with_reducible first | assumption | simp only [holds_mk]

theorem setLd_holds (i : ℕ) (f : Ld → Ld) (s : State) (hφ : Holds φ s) : Holds φ (setLd i f s) := by
  unfold setLd
  repeat' with_reducible first | assumption | apply holds_mk_host | refine hostFact_mk_all.2 ⟨?_, ?_, ?_⟩ | apply ldsFact_lmod | apply Holds.lds | apply Holds.ports | apply Holds.reqs

theorem closeBatch_holds (i : ℕ) (strict : Bool) (tail : Bool) (s : State) (hφ : Holds φ s) : Holds φ (closeBatch i strict tail s) := by
  unfold closeBatch
  repeat' with_reducible first | assumption | apply setStream_holds | apply peerSend_holds | simp only [holds_mk] | split

theorem streamAdd_holds (i : ℕ) (rec_ : Record) (strict : Bool) (s : State) (hφ : Holds φ s) : Holds φ (streamAdd i rec_ strict s) := by
  unfold streamAdd
  repeat' with_reducible first | assumption | apply closeBatch_holds | simp only [holds_mk] | split

theorem streamAll_holds (rec_ : Record) (strict : Bool) (s : State) (hφ : Holds φ s) : Holds φ (streamAll rec_ strict s).2 := by
  unfold streamAll
  exact holds_foldl_snd hφ (fun p a hp => streamAdd_holds _ _ _ _ hp)

theorem sendMap_holds (i : ℕ) (old : ℕ) (s : State) (hφ : Holds φ s) : Holds φ (sendMap i old s) := by
  unfold sendMap
  repeat' with_reducible first | assumption | apply streamAll_holds | apply holds_ite | refine holds_foldl ?_ (fun _ _ _ => ?_)

theorem setMode_holds (i : ℕ) (m : CommitMode) (s : State) (hφ : Holds φ s) : Holds φ (setMode i m s) := by
  unfold setMode
  repeat' with_reducible first | assumption | apply setLd_holds | apply send_holds | apply sendMap_holds | apply holds_ite

theorem allModes_holds (m : CommitMode) (s : State) (hφ : Holds φ s) : Holds φ (allModes m s) := by
  unfold allModes
  repeat' with_reducible first | assumption | apply setMode_holds | refine holds_foldl ?_ (fun _ _ _ => ?_)

theorem strictDone_holds (s : State) (hφ : Holds φ s) : Holds φ (strictDone s) := by
  unfold strictDone
  repeat' with_reducible first | assumption | apply send_holds | apply holds_ite | simp only [holds_mk] | dsimp only | refine holds_foldl ?_ (fun _ _ _ => ?_) | split | apply holds_mk_host | refine hostFact_mk_all.2 ⟨?_, ?_, ?_⟩ | apply ldsFact_map | apply reqsFact_filter | apply Holds.lds | apply Holds.ports | apply Holds.reqs | refine reqsFact_map ?_ (fun _ => by split <;> rfl)

theorem dropStream_holds (i : ℕ) (s : State) (hφ : Holds φ s) : Holds φ (dropStream i s) := by
  unfold dropStream
  repeat' with_reducible first | assumption | apply strictDone_holds | apply holds_ite | simp only [holds_mk] | apply holds_mk_host | refine hostFact_mk_all.2 ⟨?_, ?_, ?_⟩ | apply ldsFact_map | apply Holds.lds | apply Holds.ports | apply Holds.reqs | refine reqsFact_map ?_ (fun _ => by split <;> rfl)

theorem admitNext_holds (lfn : ℕ) (s : State) (hφ : Holds φ s) : Holds φ (admitNext lfn s) := by
  unfold admitNext
  repeat' with_reducible first | assumption | apply ackDelta_holds | simp only [holds_mk] | split

theorem dropHolding_holds (h : Holding) (s : State) (hφ : Holds φ s) : Holds φ (dropHolding h s) := by
  unfold dropHolding
  repeat' with_reducible first | assumption | apply commitNow_holds | apply closeIfDone_holds | apply setSlot_holds | apply admitNext_holds | simp only [holds_mk] | split

theorem leaveSpan_holds (s : State) (hφ : Holds φ s) : Holds φ (leaveSpan s) := by
  unfold leaveSpan
  repeat' with_reducible first | assumption | apply dropHolding_holds | apply dropStream_holds | apply piDrop_holds | apply releaseSet_holds | apply releaseOld_holds | apply commitNow_holds | apply dropFrame_holds | apply abandonFrame_holds | apply allModes_holds | apply advanceBatch_holds | simp only [holds_mk] | dsimp only | refine holds_foldl ?_ (fun _ _ _ => ?_) | refine holds_times _ ?_ (fun _ _ => ?_) | apply holds_mk_host | refine hostFact_mk_all.2 ⟨?_, ?_, ?_⟩ | apply ldsFact_map | apply Holds.lds | apply Holds.ports | apply Holds.reqs

theorem wipeSet_holds (f : ℕ) (s : State) (hφ : Holds φ s) : Holds φ (wipeSet f s) := by
  unfold wipeSet
  repeat' with_reducible first | assumption | apply clearFast_holds | apply holds_ite | refine holds_foldl ?_ (fun _ _ _ => ?_)

theorem loadSpan_holds (s : State) (hφ : Holds φ s) : Holds φ (loadSpan s) := by
  unfold loadSpan
  repeat' with_reducible first | assumption | apply setPeer_holds | apply holds_ite | simp only [holds_mk]

theorem abandonCovered_holds (u : ℕ) (s : State) (hφ : Holds φ s) : Holds φ (abandonCovered u s) := by
  unfold abandonCovered
  repeat' with_reducible first | assumption | apply abandonBatch_holds | refine holds_foldl ?_ (fun _ _ _ => ?_) | split

theorem judgeRemovals_holds (x0 : List Removal) (x1 : List ℕ) (x2 : State) (hφ : Holds φ x2) : Holds φ (judgeRemovals x0 x1 x2) := by
  induction x0 generalizing x1 x2 with
  | nil => exact hφ
  | cons r l ih =>
    unfold judgeRemovals
    extract_lets u gs ok upd wait s1 t s2
    have hu : ∀ f s, Holds φ s → Holds φ (upd f s) := fun f s hs => holds_mk.2 hs
    have hw : ∀ s, Holds φ s → Holds φ (wait s) := fun s hs => holds_ite (setCart_holds _ _ _ hs) hs
    clear_value upd wait
    split
    · exact ih _ _ hφ
    · refine ih _ _ (holds_ite ?_ (holds_ite hφ (holds_mk.2 (hu _ _ hφ))))
      exact abandonCovered_holds _ _ (hw _ (hu _ _ hφ))

theorem disableRail_holds (r : ℕ) (s : State) (hφ : Holds φ s) : Holds φ (disableRail r s) := by
  unfold disableRail
  repeat' with_reducible first | assumption | apply checkOff_holds | refine setPower_holds _ _ (fun _ => rfl) ?_

theorem railLeaves_holds (r : ℕ) (st : UState) (s : State) (hφ : Holds φ s) : Holds φ (railLeaves r st s) := by
  unfold railLeaves
  repeat' with_reducible first | assumption | apply unitsAbsent_holds | apply disableRail_holds | apply setUnit_holds

theorem startTraining_holds (ch : ℕ) (s : State) (hφ : Holds φ s) : Holds φ (startTraining ch s) := by
  unfold startTraining
  repeat' with_reducible first | assumption | apply stackDown_holds | apply setStack_holds | apply setCart_holds

theorem removalLeaves_holds (x0 : Removal) (s : State) (hφ : Holds φ s) : Holds φ (removalLeaves x0 s) := by
  unfold removalLeaves
  repeat' with_reducible first | assumption | apply startTraining_holds | apply endWindows_holds | apply dropWork_holds | apply railLeaves_holds | apply mediaLoss_holds | apply setUnit_holds | apply endJob_holds | simp only [holds_mk] | split

theorem placeRemovals_holds (s : State) (hφ : Holds φ s) : Holds φ (placeRemovals s) := by
  unfold placeRemovals
  repeat' with_reducible first | assumption | apply removalLeaves_holds | apply judgeRemovals_holds | refine holds_foldl ?_ (fun _ _ _ => ?_)

theorem scrubWeak_holds (b : ℕ) (m : ℕ) (x2 : ℕ) (s : State) (hφ : Holds φ s) : Holds φ (scrubWeak b m x2 s) := by
  unfold scrubWeak
  repeat' with_reducible first | assumption | apply makeDue_holds | apply refreshBand_holds | split

theorem scrubHeaderRes_holds (b : ℕ) (m : ℕ) (x2 : ℕ) (step : ℕ) (res : Option (Line66 × ℕ)) (s : State) (hφ : Holds φ s) : Holds φ (scrubHeaderRes b m x2 step res s) := by
  unfold scrubHeaderRes
  repeat' with_reducible first | assumption | apply scrubWeak_holds | apply event_holds | apply charge_holds | apply weakLine_holds | apply countBlockMark_holds | apply dieCount_holds | apply scrubAsk_holds | apply refreshBand_holds | simp only [holds_mk] | split

theorem latchOverlay_holds (s : State) (hφ : Holds φ s) : Holds φ (latchOverlay s) := by
  unfold latchOverlay
  repeat' with_reducible first | assumption | simp only [holds_mk] | split

theorem bulkLook_holds (lln : ℕ) (s : State) (hφ : Holds φ s) : Holds φ (bulkLook lln s).2 := by
  unfold bulkLook
  repeat' with_reducible first | assumption | apply slotRead_holds | apply tagsTouch_holds | apply pageRead_holds | dsimp only | split

theorem prefetchHit_holds (lln : ℕ) (hit : Bool) (s : State) (hφ : Holds φ s) : Holds φ (prefetchHit lln hit s) := by
  unfold prefetchHit
  repeat' with_reducible first | assumption | apply holds_ite | simp only [holds_mk]

theorem boundCRead_holds (s : State) (hφ : Holds φ s) : Holds φ (boundCRead s) := by
  unfold boundCRead
  repeat' with_reducible first | assumption | simp only [holds_mk]

theorem missed_holds (s : State) (hφ : Holds φ s) : Holds φ (missed s) := by
  unfold missed
  repeat' with_reducible first | assumption | simp only [holds_mk]

theorem lostRead_holds (id : ℕ) (lln : ℕ) (s : State) (hφ : Holds φ s) : Holds φ (lostRead id lln s) := by
  unfold lostRead
  repeat' with_reducible first | assumption | apply beginSpan_holds | apply missed_holds

theorem bulkHit_holds (lln : ℕ) (s : State) (hφ : Holds φ s) : Holds φ (bulkHit lln s) := by
  unfold bulkHit
  repeat' with_reducible first | assumption | apply prefetchHit_holds | simp only [holds_mk]

theorem bulkAnswer_holds (id : ℕ) (lln : ℕ) (part : Bool) (page : Bool) (slot : Bool) (h : Held) (s : State) (hφ : Holds φ s) : Holds φ (bulkAnswer id lln part page slot h s) := by
  unfold bulkAnswer
  repeat' with_reducible first | assumption | apply prefetchHit_holds | apply boundCRead_holds | apply bulkHit_holds | apply mergeHeld_holds | apply answerRead_holds | apply lostRead_holds | apply ncFill_holds | apply beginRead_holds | apply missed_holds | apply updRead_holds | simp only [holds_mk] | split

theorem nearHit_holds (lln : ℕ) (s : State) (hφ : Holds φ s) : Holds φ (nearHit lln s) := by
  unfold nearHit
  repeat' with_reducible first | assumption | apply prefetchHit_holds | simp only [holds_mk]

theorem sideLook_holds (lln : ℕ) (s : State) (hφ : Holds φ s) : Holds φ (sideLook lln s).2 := by
  unfold sideLook
  repeat' with_reducible first | assumption | apply pageFill_holds | apply ncFill_holds | simp only [holds_mk] | split

theorem nearLook_holds (id : ℕ) (lln : ℕ) (s : State) (hφ : Holds φ s) : Holds φ (nearLook id lln s).2 := by
  unfold nearLook
  repeat' with_reducible first | assumption | apply answerRead_holds | apply missed_holds | apply prefetchHit_holds | apply lostRead_holds | apply ncLook_holds | apply boundCRead_holds | apply nearHit_holds | apply sideLook_holds | dsimp only | split

theorem bulkRead_holds (id : ℕ) (lln : ℕ) (part : Bool) (s : State) (hφ : Holds φ s) : Holds φ (bulkRead id lln part s) := by
  unfold bulkRead
  repeat' with_reducible first | assumption | apply bulkLook_holds | apply bulkAnswer_holds | apply nearLook_holds | apply tagsLost_holds | apply holds_ite | simp only [holds_mk] | split | apply holds_mk_host | refine hostFact_mk_all.2 ⟨?_, ?_, ?_⟩ | apply Holds.lds | apply Holds.ports | apply Holds.reqs | refine reqsFact_map ?_ (fun _ => by split <;> rfl)

theorem hostLook_holds (id : ℕ) (lln : ℕ) (s : State) (hφ : Holds φ s) : Holds φ (hostLook id lln s) := by
  unfold hostLook
  repeat' with_reducible first | assumption | apply nearLook_holds | apply bulkRead_holds | dsimp only | split

theorem hbmRetry_holds (s : State) (hφ : Holds φ s) : Holds φ (hbmRetry s) := by
  unfold hbmRetry
  repeat' with_reducible first | assumption | apply hostLook_holds | apply holds_ite | simp only [holds_mk] | refine holds_foldl ?_ (fun _ _ _ => ?_) | apply holds_mk_host | refine hostFact_mk_all.2 ⟨?_, ?_, ?_⟩ | apply Holds.lds | apply Holds.ports | apply Holds.reqs | refine reqsFact_map ?_ (fun _ => by split <;> rfl)

theorem saveSteps_holds (s : State) (hφ : Holds φ s) : Holds φ (saveSteps s) := by
  unfold saveSteps
  repeat' with_reducible first | assumption | apply sbEnqueue_holds

theorem stepTime_holds (value : ℕ) (s : State) (hφ : Holds φ s) : Holds φ (stepTime value s) := by
  unfold stepTime
  repeat' with_reducible first | assumption | apply event_holds | apply saveSteps_holds | simp only [holds_mk]

theorem bandFreed_holds (b : ℕ) (s : State) (hφ : Holds φ s) : Holds φ (bandFreed b s) := by
  unfold bandFreed
  repeat' with_reducible first | assumption | apply setBand_holds | apply ckRecord_holds | simp only [holds_mk]

theorem startPromotion_holds (lfn : ℕ) (pin : Bool) (job : Option (BitVec 16)) (s : State) (hφ : Holds φ s) : Holds φ (startPromotion lfn pin job s) := by
  unfold startPromotion
  repeat' with_reducible first | assumption | apply commitQuiet_holds | apply markInflight_holds | apply startMove_holds | simp only [holds_mk] | split

theorem scrubRewrite_holds (f : ℕ) (pos : ℕ) (seq : Option (BitVec 16)) (v : Line) (m : BitVec 16) (s : State) (hφ : Holds φ s) : Holds φ (scrubRewrite f pos seq v m s) := by
  unfold scrubRewrite
  repeat' with_reducible first | assumption | apply fastStore2_holds | simp only [holds_mk] | split

theorem scrubSettle_holds (f : ℕ) (c : ℕ) (pos : ℕ) (seq : Option (BitVec 16)) (weak : Bool) (l : Line66) (o : Option Line66) (v : Line66) (s : State) (hφ : Holds φ s) : Holds φ (scrubSettle f c pos seq weak l o v s) := by
  unfold scrubSettle
  repeat' with_reducible first | assumption | apply scrubRewrite_holds | apply olderAgain_holds | split

theorem setThermLoad_holds (l : ℕ) (s : State) (hφ : Holds φ s) : Holds φ (setThermLoad l s) := by
  unfold setThermLoad
  repeat' with_reducible first | assumption | simp only [holds_mk]

theorem placeDemotions_holds (s : State) (hφ : Holds φ s) : Holds φ (placeDemotions s) := by
  unfold placeDemotions
  repeat' with_reducible first | assumption | apply makeDue_holds | apply holds_ite | simp only [holds_mk] | refine holds_foldl ?_ (fun _ _ _ => ?_)

theorem ackPlain_holds (code : ℕ) (r : ℕ) (lfn : ℕ) (seq : BitVec 48) (s : State) (hφ : Holds φ s) : Holds φ (ackPlain code r lfn seq s) := by
  unfold ackPlain
  repeat' with_reducible first | assumption | apply peerSend_holds

theorem spanEval_holds (s : State) (hφ : Holds φ s) : Holds φ (spanEval s) := by
  unfold spanEval
  repeat' with_reducible first | assumption | apply stateEvent_holds | simp only [holds_mk] | split

theorem setPeerSt_holds (r : ℕ) (st : ℕ) (s : State) (hφ : Holds φ s) : Holds φ (setPeerSt r st s) := by
  unfold setPeerSt
  repeat' with_reducible first | assumption | apply setPeer_holds | apply spanEval_holds | apply stateEvent_holds | apply holds_ite

theorem relistPoison_holds (lln : ℕ) (loc : Where) (v : Line) (s : State) (hφ : Holds φ s) : Holds φ (relistPoison lln loc v s) := by
  unfold relistPoison
  repeat' with_reducible first | assumption | apply poisonAdd_holds | apply holds_ite

theorem scrubLost_holds (b : ℕ) (m : ℕ) (x2 : ℕ) (s : State) (hφ : Holds φ s) : Holds φ (scrubLost b m x2 s) := by
  unfold scrubLost
  repeat' with_reducible first | assumption | apply event_holds | apply located_holds | apply charge_holds | apply countRebuilt_holds | apply relistPoison_holds | apply scrubWeak_holds | apply refreshBand_holds | apply poisonFind_holds | simp only [holds_mk] | refine holds_foldl ?_ (fun _ _ _ => ?_) | split

theorem unbackedEvent_holds (p : ℕ) (i : ℕ) (hpa : ℕ) (s : State) (hφ : Holds φ s) : Holds φ (unbackedEvent p i hpa s) := by
  unfold unbackedEvent
  repeat' with_reducible first | assumption | apply event_holds

theorem unbackedWrite_holds (p : ℕ) (l : ℕ) (hpa : ℕ) (tag : BitVec 16) (s : State) (hφ : Holds φ s) : Holds φ (unbackedWrite p l hpa tag s) := by
  unfold unbackedWrite
  repeat' with_reducible first | assumption | apply unbackedEvent_holds | apply send_holds

theorem dirSettle_holds (k : ℕ) (j : ℕ) (llns : List ℕ) (v : Option Line66) (s : State) (hφ : Holds φ s) : Holds φ (dirSettle k j llns v s) := by
  unfold dirSettle
  repeat' with_reducible first | assumption | apply segPut_holds | apply poisonFind_holds | simp only [holds_mk] | refine holds_foldl ?_ (fun _ _ _ => ?_) | split

theorem dirDiffers_holds (f : ℕ) (pos : ℕ) (a : Line) (b : Line) (s : State) (hφ : Holds φ s) : Holds φ (dirDiffers f pos a b s) := by
  unfold dirDiffers
  extract_lets k ent js llns s1 r
  have h1 : Holds φ s1 := tieNoted_holds _ _ _ _ hφ
  clear_value k js llns s1
  have hr : Holds φ r.2 := by
    simp only [r]
    split
    · exact h1
    · exact tieLadder_holds _ _ _ h1
  clear_value r
  exact dirSettle_holds _ _ _ _ _ hr

theorem scrubOtherRes_holds (f : ℕ) (c : ℕ) (pos : ℕ) (step : ℕ) (res : Option (Line66 × ℕ)) (s : State) (hφ : Holds φ s) : Holds φ (scrubOtherRes f c pos step res s) := by
  unfold scrubOtherRes
  repeat' with_reducible first | assumption | apply fastStore2_holds | apply charge_holds | apply weakLine_holds | apply dirDiffers_holds | apply event_holds | apply countRebuilt_holds | apply beyondEvent_holds | apply unhitch_holds | simp only [holds_mk] | split

theorem storeSwk_holds (wrapped : List Byte) (s : State) (hφ : Holds φ s) : Holds φ (storeSwk wrapped s) := by
  unfold storeSwk
  repeat' with_reducible first | assumption | apply sbEnqueue_holds | simp only [holds_mk]

theorem classSets_holds (s : State) (hφ : Holds φ s) : Holds φ (classSets s) := by
  unfold classSets
  repeat' with_reducible first | assumption | apply fsSet_holds | apply releaseSet_holds | apply holds_ite | refine holds_foldl ?_ (fun _ _ _ => ?_)

theorem coldReset_holds (s : State) (hφ : Holds φ s) : Holds φ (coldReset s) := by
  unfold coldReset
  extract_lets s1 ft steps life
  have h1 : Holds φ s1 := mainDown_holds _ (flushCut_holds _ hφ)
  clear_value s1 ft steps life
  exact ⟨⟨ldsFact_map h1.lds _, h1.ports, h1.reqs⟩, h1.queue, h1.sb, fun _ => List.length_replicate, fun _ => List.length_replicate, h1.sec⟩

theorem qClear_holds (q : ℕ) (s : State) (hφ : Holds φ s) : Holds φ (qClear q s) := by
  unfold qClear
  repeat' with_reducible first | assumption | apply setQ_holds

theorem unitLeaves_holds (u : ℕ) (st : UState) (s : State) (hφ : Holds φ s) : Holds φ (unitLeaves u st s) := by
  unfold unitLeaves
  repeat' with_reducible first | assumption | apply setUnit_holds | apply mediaLoss_holds | apply endContained_holds | apply setPort_holds | apply portDown_holds | apply qClear_holds | refine holds_foldl ?_ (fun _ _ _ => ?_) | split

theorem drainStage_holds (s : State) (hφ : Holds φ s) : Holds φ (drainStage s) := by
  unfold drainStage
  repeat' with_reducible first | assumption | apply drainLine_holds | apply drawBits_holds | apply holds_ite | refine holds_foldl ?_ (fun _ _ _ => ?_)

theorem writeSegment_holds (g : Seg) (lines : List Line) (md : BitVec 16) (s : State) (hφ : Holds φ s) : Holds φ (writeSegment g lines md s).2 := by
  unfold writeSegment
  split
  · exact hφ
  · next h => exact holds_foldl (placeSeg_holds _ _ _ (pickSegment_holds _ _ _ h hφ)) (fun s a hs => segPut_holds _ _ _ _ hs)

theorem writePi_holds (ref : BitVec 48) (pc0 : BitVec 48) (delta : Bool) (es : List PiEnt) (s : State) (hφ : Holds φ s) : Holds φ (writePi ref pc0 delta es s).2 := by
  unfold writePi
  repeat' with_reducible first | assumption | apply writeSegment_holds | refine holds_foldl_snd ?_ (fun _ _ _ => ?_)

theorem deltaAborted_holds (lfn : ℕ) (seq : BitVec 48) (s : State) (hφ : Holds φ s) : Holds φ (deltaAborted lfn seq s) := by
  unfold deltaAborted
  repeat' with_reducible first | assumption | apply leaveSlot_holds | apply closeIfDone_holds | apply setSlot_holds | apply zeroFold_holds | apply makeDue_holds | simp only [holds_mk] | split

theorem setSensor_holds (i : ℕ) (f : SensorSt → SensorSt) (s : State) (hφ : Holds φ s) : Holds φ (setSensor i f s) := by
  unfold setSensor
  exact setTherm_holds _ _ (fun _ => lmod_length _ _ _) hφ

theorem sensorBreaks_holds (i : ℕ) (median : ℤ) (s : State) (hφ : Holds φ s) : Holds φ (sensorBreaks i median s) := by
  unfold sensorBreaks
  repeat' with_reducible first | assumption | refine setTherm_holds _ _ (fun _ => rfl) ?_ | apply setSensor_holds | apply setUnit_holds | apply event_holds

theorem crossCheck_holds (s : State) (hφ : Holds φ s) : Holds φ (crossCheck s) := by
  unfold crossCheck
  repeat' with_reducible first | assumption | apply setSensor_holds | apply sensorBreaks_holds | apply holds_ite | refine holds_foldl ?_ (fun _ _ _ => ?_)

theorem pendInfo_holds (ch : ℕ) (f : RetFrame) (s : State) (hφ : Holds φ s) : Holds φ (pendInfo ch f s) := by
  unfold pendInfo
  repeat' with_reducible first | assumption | apply setStack_holds

theorem infoAnswer_holds (ch : ℕ) (op : ℕ) (p : Pkt) (s : State) (hφ : Holds φ s) : Holds φ (infoAnswer ch op p s).2 := by
  unfold infoAnswer
  repeat' with_reducible first | assumption | apply drawBits_holds | split

theorem queueFrame_holds (ch : ℕ) (f : RetFrame) (s : State) (hφ : Holds φ s) : Holds φ (queueFrame ch f s) := by
  unfold queueFrame
  repeat' with_reducible first | assumption | apply setStack_holds

theorem queueEvent_holds (ch : ℕ) (die : ℕ) (bank : ℕ) (tag : BitVec 7) (code : ℕ) (op : ℕ) (param : ℕ) (s : State) (hφ : Holds φ s) : Holds φ (queueEvent ch die bank tag code op param s) := by
  unfold queueEvent
  repeat' with_reducible first | assumption | apply queueFrame_holds

theorem illegalPkt_holds (ch : ℕ) (op : ℕ) (p : Pkt) (s : State) (hφ : Holds φ s) : Holds φ (illegalPkt ch op p s) := by
  unfold illegalPkt
  repeat' with_reducible first | assumption | apply queueEvent_holds

theorem onPacket_holds (ch op : Nat) (p : Pkt) (act : State → State) (s : State) (h : ∀ s, Holds φ s → Holds φ (act s)) (hφ : Holds φ s) : Holds φ (onPacket ch op p act s) := by
  unfold onPacket
  split
  · exact hφ
  · extract_lets u hit s1 chk
    have h1 : Holds φ s1 := holds_ite (fire_holds _ _ _ hφ) hφ
    clear_value s1
    repeat' split
    all_goals first | exact h1 | exact h _ h1 | exact queueEvent_holds _ _ _ _ _ _ _ _ h1 | exact illegalPkt_holds _ _ _ _ h1 | exact send_holds _ _ h1

theorem onInfo_holds (ch : ℕ) (op : ℕ) (p : Pkt) (s : State) (hφ : Holds φ s) : Holds φ (onInfo ch op p s) := by
  unfold onInfo
  exact onPacket_holds _ _ _ _ _ (fun s hs => pendInfo_holds _ _ _ (infoAnswer_holds _ _ _ _ hs)) hφ

theorem restartStream_holds (i : ℕ) (s : State) (hφ : Holds φ s) : Holds φ (restartStream i s) := by
  unfold restartStream
  repeat' with_reducible first | assumption | apply setStream_holds | apply peerSend_holds | simp only [holds_mk] | refine holds_foldl ?_ (fun _ _ _ => ?_) | split

theorem reclaimBand_holds (b : ℕ) (key : ℕ) (s : State) (hφ : Holds φ s) : Holds φ (reclaimBand b key s) := by
  unfold reclaimBand
  repeat' with_reducible first | assumption | apply makeDue_holds | refine holds_foldl ?_ (fun _ _ _ => ?_)

theorem noteRebuild_holds (r : ℕ) (s : State) (hφ : Holds φ s) : Holds φ (noteRebuild r s) := by
  unfold noteRebuild
  repeat' with_reducible first | assumption | apply spanEval_holds | apply setPeer_holds | apply holds_ite

theorem rebuildBases_holds (lfn : ℕ) (s : State) (hφ : Holds φ s) : Holds φ (rebuildBases lfn s) := by
  unfold rebuildBases
  repeat' with_reducible first | assumption | apply spanStart_holds | apply noteRebuild_holds | refine holds_foldl ?_ (fun _ _ _ => ?_)

theorem askAdmission_holds (lfn : ℕ) (s : State) (hφ : Holds φ s) : Holds φ (askAdmission lfn s) := by
  unfold askAdmission
  repeat' with_reducible first | assumption | apply rebuildBases_holds | apply peerSend_holds | simp only [holds_mk] | split

theorem mapClear_holds (s : State) (hφ : Holds φ s) : Holds φ (mapClear s) := by
  unfold mapClear
  repeat' with_reducible first | assumption | simp only [holds_mk]

theorem openBatch_holds (s : State) (hφ : Holds φ s) : Holds φ (openBatch s) := by
  unfold openBatch
  repeat' with_reducible first | assumption | apply meetDirect_holds | apply pumpRestart_holds | apply openOn_holds | dsimp only | split

theorem openFull_holds (s : State) (hφ : Holds φ s) : Holds φ (openFull s) := by
  unfold openFull
  repeat' with_reducible first | assumption | apply openBatch_holds | apply holds_ite | refine holds_times _ ?_ (fun _ _ => ?_)

theorem judgeThermLoad_holds (s : State) (hφ : Holds φ s) : Holds φ (judgeThermLoad s) := by
  unfold judgeThermLoad
  repeat' with_reducible first | assumption | apply setThermLoad_holds | apply holds_ite

theorem judgeThrottle_holds (tick : Bool) (s : State) (hφ : Holds φ s) : Holds φ (judgeThrottle tick s) := by
  unfold judgeThrottle
  repeat' with_reducible first | assumption | refine setTherm_holds _ _ (fun _ => rfl) ?_ | apply judgeThermLoad_holds | apply event_holds | simp only [holds_mk] | split

theorem drawBool_holds (s : State) (hφ : Holds φ s) : Holds φ (drawBool s).2 := by
  unfold drawBool
  repeat' with_reducible first | assumption | simp only [holds_mk]

theorem brakeHolds_holds (s : State) (hφ : Holds φ s) : Holds φ (brakeHolds s).2 := by
  unfold brakeHolds
  repeat' with_reducible first | assumption | apply drawBool_holds | apply holds_ite | simp only [apply_ite Prod.snd]

theorem dropOut_holds (ch : ℕ) (tag : BitVec 7) (s : State) (hφ : Holds φ s) : Holds φ (dropOut ch tag s) := by
  unfold dropOut
  repeat' with_reducible first | assumption | apply setCart_holds

theorem replayStep_holds (s : State) (hφ : Holds φ s) : Holds φ (replayStep s) := by
  unfold replayStep
  repeat' with_reducible first | assumption | apply drainLine_holds | apply ncWrite_holds | refine setPower_holds _ _ (fun _ => rfl) ?_ | apply holds_ite | refine holds_foldl ?_ (fun _ _ _ => ?_)

end
end Sys2Proof.Machine
end
section
namespace Sys2Proof.Machine
set_option linter.all false
section
variable {φ : Fact}

theorem stagingKept_holds (needed : Bool) (s : State) (hφ : Holds φ s) : Holds φ (stagingKept needed s) := by
  unfold stagingKept
  repeat' with_reducible first | assumption | simp only [holds_mk]

theorem startStaging_holds (lfn : ℕ) (s : State) (hφ : Holds φ s) : Holds φ (startStaging lfn s) := by
  unfold startStaging
  repeat' with_reducible first | assumption | apply startPromotion_holds | apply startMove_holds | apply holds_ite | split

theorem stage_holds (s : State) (hφ : Holds φ s) : Holds φ (stage s) := by
  unfold stage
  repeat' with_reducible first | assumption | apply stagingKept_holds | apply startStaging_holds | simp only [holds_mk] | refine holds_foldl ?_ (fun _ _ _ => ?_) | split

theorem imageStart_holds (s : State) (hφ : Holds φ s) : Holds φ (imageStart s) := by
  unfold imageStart
  repeat' with_reducible first | assumption | apply ckRecord_holds | simp only [holds_mk]

theorem dirAgain_holds (f j : Nat) (r : Option (Line66 × Nat) × State) (hφ : Holds φ r.2) : Holds φ (dirAgain f j r).2 := by
  unfold dirAgain
  split
  · exact charge_holds _ _ hφ
  · exact hφ

theorem dirMet_holds (f : ℕ) (pos : ℕ) (j : ℕ) (a : Option Line66) (b : Option Line66) (s : State) (hφ : Holds φ s) : Holds φ (dirMet f pos j a b s).2 := by
  unfold dirMet
  split
  · split
    · exact hφ
    · exact dirDiffers_holds _ _ _ _ _ hφ
  · exact hφ
  · exact countRebuilt_holds _ hφ
  · exact dirAgain_holds _ _ _ (ladder_holds _ _ _ hφ)

theorem dirRead_holds (k : ℕ) (j : ℕ) (s : State) (hφ : Holds φ s) : Holds φ (dirRead k j s).2 := by
  unfold dirRead
  exact dirMet_holds _ _ _ _ _ _ (copyRead_holds _ _ _ _ _ (copyRead_holds _ _ _ _ _ hφ))

theorem dirReadA_holds (k : ℕ) (j : ℕ) (s : State) (hφ : Holds φ s) : Holds φ (dirReadA k j s).2 := by
  unfold dirReadA
  extract_lets a
  have ha : Holds φ a.2 := copyRead_holds _ _ _ _ _ hφ
  clear_value a
  split
  · exact ha
  · exact dirRead_holds _ _ _ hφ

theorem logLine_holds (both : Bool) (g : Nat × Seg) (a : List (Nat × Nat × Nat) × State) (j : Nat) (hφ : Holds φ a.2) : Holds φ (logLine both g a j).2 := by
  unfold logLine
  split
  · exact hφ
  · extract_lets r
    show Holds φ r.2
    simp only [r]
    split
    · exact dirRead_holds _ _ _ hφ
    · exact dirReadA_holds _ _ _ hφ

theorem logRead_holds (both : Bool) (s : State) (hφ : Holds φ s) : Holds φ (logRead both s).2 := by
  unfold logRead
  exact holds_foldl_snd hφ (fun a g ha => holds_foldl_snd ha (fun a j ha => logLine_holds _ _ _ _ ha))

theorem summarize_holds (s : State) (hφ : Holds φ s) : Holds φ (summarize s) := by
  unfold summarize
  repeat' with_reducible first | assumption | apply fsumRefresh_holds | simp only [holds_mk] | refine holds_foldl ?_ (fun _ _ _ => ?_)

theorem indexAgain_holds (e : PiEnt) (s : State) (hφ : Holds φ s) : Holds φ (indexAgain e s) := by
  unfold indexAgain
  repeat' with_reducible first | assumption | apply internalWrite_holds | apply poisonFind_holds | apply indexPatch_holds | apply makeDue_holds | dsimp only | split

theorem noIndex_holds (s : State) (hφ : Holds φ s) : Holds φ (noIndex s) := by
  unfold noIndex
  repeat' with_reducible first | assumption | simp only [holds_mk]

theorem rebuildIndex_holds (s : State) (hφ : Holds φ s) : Holds φ (rebuildIndex s) := by
  unfold rebuildIndex
  repeat' with_reducible first | assumption | apply logRead_holds | apply noIndex_holds | apply summarize_holds | apply indexAgain_holds | dsimp only | refine holds_foldl ?_ (fun _ _ _ => ?_)

theorem tryFree_holds (b : ℕ) (s : State) (hφ : Holds φ s) : Holds φ (tryFree b s) := by
  unfold tryFree
  repeat' with_reducible first | assumption | apply bandFreed_holds | apply holds_ite

theorem sendAnswer_holds (r : ℕ) (tag : BitVec 32) (st : BitVec 2) (b : ReconBody) (s : State) (hφ : Holds φ s) : Holds φ (sendAnswer r tag st b s) := by
  unfold sendAnswer
  repeat' with_reducible first | assumption | apply peerSend_holds | apply holds_ite

theorem sillBoot_holds (s : State) (hφ : Holds φ s) : Holds φ (sillBoot s) := by
  unfold sillBoot
  repeat' with_reducible first | assumption | apply event_holds | apply saveSteps_holds | simp only [holds_mk]

theorem clearPoison_holds (i : ℕ) (s : State) (hφ : Holds φ s) : Holds φ (clearPoison i s) := by
  unfold clearPoison
  repeat' with_reducible first | assumption | apply setLd_holds

theorem unitReturns_holds (u : ℕ) (s : State) (hφ : Holds φ s) : Holds φ (unitReturns u s) := by
  unfold unitReturns
  repeat' with_reducible first | assumption | apply setUnit_holds | apply setSensor_holds | apply qClear_holds | simp only [holds_mk] | split

theorem remapTo_holds (i : ℕ) (block : ℕ) (s : State) (hφ : Holds φ s) : Holds φ (remapTo i block s) := by
  unfold remapTo
  repeat' with_reducible first | assumption | simp only [holds_mk]

theorem giveRemountKey_holds (r : ℕ) (tag : BitVec 32) (ward : ℕ) (i : ℕ) (s : State) (hφ : Holds φ s) : Holds φ (giveRemountKey r tag ward i s) := by
  unfold giveRemountKey
  repeat' with_reducible first | assumption | apply sendAnswer_holds | simp only [holds_mk] | split

theorem serveKey_holds (pool : ℕ) (i : ℕ) (s : State) (hφ : Holds φ s) : Holds φ (serveKey pool i s) := by
  unfold serveKey
  repeat' with_reducible first | assumption | apply giveRemountKey_holds | apply endJob_holds | simp only [holds_mk] | split

theorem setAllotment_holds (s : State) (hφ : Holds φ s) : Holds φ (setAllotment s) := by
  unfold setAllotment
  repeat' with_reducible first | assumption | simp only [holds_mk]

theorem resettle_holds (s : State) (hφ : Holds φ s) : Holds φ (resettle s) := by
  unfold resettle
  repeat' with_reducible first | assumption | apply makeDue_holds | dsimp only | refine holds_foldl ?_ (fun _ _ _ => ?_)

theorem setWard_holds (pool : ℕ) (f : Ward → Ward) (s : State) (hφ : Holds φ s) : Holds φ (setWard pool f s) := by
  unfold setWard
  repeat' with_reducible first | assumption | simp only [holds_mk]

theorem dropForeign_holds (pool : ℕ) (llns : List ℕ) (s : State) (hφ : Holds φ s) : Holds φ (dropForeign pool llns s) := by
  unfold dropForeign
  repeat' with_reducible first | assumption | apply piDrop_holds | apply setWard_holds

theorem reissue_holds (ch : ℕ) (op : ℕ) (die : ℕ) (bank : ℕ) (tag : BitVec 7) (arg : ℕ) (s : State) (hφ : Holds φ s) : Holds φ (reissue ch op die bank tag arg s) := by
  unfold reissue
  repeat' with_reducible first | assumption | apply askRead_holds | apply dropOut_holds | apply sendPkt_holds | apply sendProg_holds | apply send_holds | apply holds_ite | split

theorem setVaux_holds (mv : BitVec 12) (s : State) (hφ : Holds φ s) : Holds φ (setVaux mv s) := by
  unfold setVaux
  repeat' with_reducible first | assumption | apply sbStart_holds | apply holds_mk_sb | simp only [sbFact_mk] | apply Holds.sb

theorem mapGot_holds (r : ℕ) (tag : BitVec 32) (ld : ℕ) (ok : Bool) (b : ReconBody) (s : State) (hφ : Holds φ s) : Holds φ (mapGot r tag ld ok b s) := by
  unfold mapGot
  repeat' with_reducible first | assumption | apply setLd_holds | apply commitNow_holds | apply setStream_holds | apply sbEnqueue_holds | apply setWard_holds | simp only [holds_mk] | refine holds_foldl ?_ (fun _ _ _ => ?_) | split

theorem sendRelease_holds (rsnaps : List (ℕ × BitVec 48)) (llns : List ℕ) (s : State) (hφ : Holds φ s) : Holds φ (sendRelease rsnaps llns s) := by
  unfold sendRelease
  repeat' with_reducible first | assumption | apply peerSend_holds | refine holds_foldl ?_ (fun _ _ _ => ?_) | refine holds_foldl_snd ?_ (fun _ _ _ => ?_) | split

theorem releaseRecords_holds (sl : FoldSlot) (s : State) (hφ : Holds φ s) : Holds φ (releaseRecords sl s) := by
  unfold releaseRecords
  repeat' with_reducible first | assumption | apply sendRelease_holds

theorem heartbeats_holds (s : State) (hφ : Holds φ s) : Holds φ (heartbeats s) := by
  unfold heartbeats
  repeat' with_reducible first | assumption | apply fireStart_holds | apply peerSend_holds | apply holds_ite | dsimp only | refine holds_foldl ?_ (fun _ _ _ => ?_)

theorem scrubFastLost_holds (f : ℕ) (pos : ℕ) (lln : ℕ) (seq : Option (BitVec 16)) (die : ℕ) (s : State) (hφ : Holds φ s) : Holds φ (scrubFastLost f pos lln seq die s) := by
  unfold scrubFastLost
  repeat' with_reducible first | assumption | apply mergeRead_holds | apply poisonFind_holds | apply holds_ite | simp only [holds_mk]

theorem scrubTied_holds (f pos lln : Nat) (seq : Option (BitVec 16)) (die : Nat) (r : Option (Line × BitVec 16) × State) (hφ : Holds φ r.2) : Holds φ (scrubTied f pos lln seq die r) := by
  unfold scrubTied
  split
  · exact hφ
  · exact scrubFastLost_holds _ _ _ _ _ _ hφ

theorem scrubPair_holds (f : ℕ) (c : ℕ) (pos : ℕ) (lln : ℕ) (seq : Option (BitVec 16)) (weak : Bool) (die : ℕ) (l : Line66) (o : Option Line66) (s : State) (hφ : Holds φ s) : Holds φ (scrubPair f c pos lln seq weak die l o s) := by
  unfold scrubPair
  split
  · exact scrubSettle_holds _ _ _ _ _ _ _ _ _ hφ
  · split
    · exact scrubSettle_holds _ _ _ _ _ _ _ _ _ hφ
    · exact scrubTied_holds _ _ _ _ _ _ (tieResolve_holds _ _ _ _ _ _ hφ)

theorem did_holds (s : State) (hφ : Holds φ s) : Holds φ (did s).2 := by
  unfold did
  repeat' with_reducible first | assumption

theorem startFails_holds (s : State) (hφ : Holds φ s) : Holds φ (startFails s) := by
  unfold startFails
  repeat' with_reducible first | assumption | apply holds_mk_host | refine hostFact_mk_all.2 ⟨?_, ?_, ?_⟩ | apply portsFact_mapIdx | apply reqsFact_filter | apply reqsFact_succ | refine reqsFact_nil (Holds.reqs ?_) | refine reqsFact_append_next ?_ rfl | apply Holds.lds | apply Holds.ports | apply Holds.reqs

theorem lateRetry_holds (ch : ℕ) (r : CRead) (res : LineRes) (s : State) (hφ : Holds φ s) : Holds φ (lateRetry ch r res s) := by
  unfold lateRetry
  repeat' with_reducible first | assumption | apply retryNoted_holds | apply retryGood_holds | apply holds_ite | split

theorem setSec_holds (f : SecSt → SecSt) (s : State) (hf : ∀ x, x.pl2Fuse = true → (f x).pl2Fuse = true) (hφ : Holds φ s) : Holds φ (setSec f s) :=
  holds_mk_sec hφ (fun hk => hf _ (hφ.sec hk))

theorem newRoot_holds (s : State) (hφ : Holds φ s) : Holds φ (newRoot s) := by
  unfold newRoot
  repeat' with_reducible first | assumption | apply drawBits_holds | refine setSec_holds _ _ (fun _ hx => hx) ?_ | apply sbEnqueue_holds | simp only [holds_mk]

theorem loadKeys_holds (s : State) (hφ : Holds φ s) : Holds φ (loadKeys s) := by
  unfold loadKeys
  repeat' with_reducible first | assumption | refine setSec_holds _ _ (fun _ hx => hx) ?_ | apply newRoot_holds | apply setLd_holds | simp only [holds_mk] | refine holds_foldl ?_ (fun _ _ _ => ?_) | split

theorem sendTimetable_holds (s : State) (hφ : Holds φ s) : Holds φ (sendTimetable s) := by
  unfold sendTimetable
  repeat' with_reducible first | assumption | apply peerSend_holds | refine holds_foldl ?_ (fun _ _ _ => ?_) | split

theorem settle_holds (s : State) (hφ : Holds φ s) : Holds φ (settle s) := by
  unfold settle
  repeat' with_reducible first | assumption | apply event_holds | simp only [holds_mk] | refine holds_foldl ?_ (fun _ _ _ => ?_)

theorem qTake_holds (q : ℕ) (s : State) (hφ : Holds φ s) : Holds φ (qTake q s).2 := by
  unfold qTake
  repeat' with_reducible first | assumption | apply setQ_holds | apply holds_ite | simp only [holds_mk] | simp only [apply_ite Prod.snd]

theorem piBaseStart_holds (s : State) (hφ : Holds φ s) : Holds φ (piBaseStart s) := by
  unfold piBaseStart
  repeat' with_reducible first | assumption | apply writePi_holds | simp only [holds_mk] | dsimp only | split

theorem newKey_holds (i : ℕ) (s : State) (hφ : Holds φ s) : Holds φ (newKey i s) := by
  unfold newKey
  repeat' with_reducible first | assumption | apply drawBits_holds | apply setLd_holds | apply sbEnqueue_holds | simp only [holds_mk]

theorem emptyAll_holds (mode : ℕ) (ls : List ℕ) (s : State) (hφ : Holds φ s) : Holds φ (emptyAll mode ls s) := by
  unfold emptyAll
  repeat' with_reducible first | assumption | apply emptyFrame_holds | apply holds_ite | refine holds_foldl ?_ (fun _ _ _ => ?_)

theorem eraseStart_holds (i : ℕ) (secure : Bool) (s : State) (hφ : Holds φ s) : Holds φ (eraseStart i secure s) := by
  unfold eraseStart
  repeat' with_reducible first | assumption | apply setLd_holds | apply emptyAll_holds | apply newKey_holds | apply clearPoison_holds | apply holds_ite

theorem setLevel_holds (new : ℕ) (s : State) (hφ : Holds φ s) : Holds φ (setLevel new s) := by
  unfold setLevel
  extract_lets old s1 s2
  have h1 : Holds φ s1 := setSec_holds _ _ (fun _ hx => by simp only [hx, Bool.true_or]) hφ
  clear_value s1
  exact event_holds _ _ (holds_ite (holds_mk.2 h1) h1)

theorem writePl_holds (s : State) (hφ : Holds φ s) : Holds φ (writePl s) := by
  unfold writePl
  repeat' with_reducible first | assumption | apply sbEnqueue_holds

theorem imageWrite_holds (n : ℕ) (im : CkImage) (isClear : ℕ → Bool) (s : State) (hφ : Holds φ s) : Holds φ (imageWrite n im isClear s).2 := by
  unfold imageWrite
  repeat' with_reducible first | assumption | apply writeSegment_holds | simp only [holds_mk] | refine holds_foldl ?_ (fun _ _ _ => ?_) | refine holds_foldl_snd ?_ (fun _ _ _ => ?_)

theorem badAgain_holds (s : State) (blk : ℕ) (hφ : Holds φ s) : Holds φ (badAgain s blk) := by
  unfold badAgain
  repeat' with_reducible first | assumption | apply ckRecord_holds

theorem imageDone_holds (n : ℕ) (im : CkImage) (segs : List ℕ) (s : State) (hφ : Holds φ s) : Holds φ (imageDone n im segs s) := by
  unfold imageDone
  extract_lets s1 s2 images oldest low
  have h1 : Holds φ s1 := holds_foldl hφ (fun s b hs => badAgain_holds _ _ hs)
  clear_value s1
  have h2 : Holds φ s2 := ckRecord_holds _ _ _ _ _ h1
  clear_value s2
  exact holds_mk.2 h2

theorem imageWhole_holds (n : ℕ) (s : State) (hφ : Holds φ s) : Holds φ (imageWhole n s) := by
  unfold imageWhole
  repeat' with_reducible first | assumption | apply imageWrite_holds | apply imageDone_holds | simp only [holds_mk] | dsimp only | split

theorem imageEnd_holds (s : State) (hφ : Holds φ s) : Holds φ (imageEnd s) := by
  unfold imageEnd
  repeat' with_reducible first | assumption | apply imageWhole_holds

theorem dropAll_holds (s : State) (hφ : Holds φ s) : Holds φ (dropAll s) := by
  unfold dropAll
  repeat' with_reducible first | assumption | apply imageEnd_holds | apply piBaseStart_holds | apply imageStart_holds | apply releaseSet_holds | apply holds_ite | simp only [holds_mk] | refine holds_foldl ?_ (fun _ _ _ => ?_) | apply holds_mk_host | refine hostFact_mk_all.2 ⟨?_, ?_, ?_⟩ | apply ldsFact_map | apply portsFact_mapIdx | apply reqsFact_filter | apply reqsFact_succ | refine reqsFact_nil (Holds.reqs ?_) | refine reqsFact_append_next ?_ rfl | apply Holds.lds | apply Holds.ports | apply Holds.reqs

theorem lowerAdvance_holds (s : State) (hφ : Holds φ s) : Holds φ (lowerAdvance s) := by
  unfold lowerAdvance
  repeat' with_reducible first | assumption | refine setSec_holds _ _ (fun _ hx => hx) ?_ | apply writePl_holds | apply newRoot_holds | apply setLd_holds | apply sbEnqueue_holds | apply newKey_holds | apply dropAll_holds | apply setLevel_holds | apply endJob_holds | apply holds_ite | simp only [holds_mk] | refine holds_foldl ?_ (fun _ _ _ => ?_) | split | apply holds_mk_host | refine hostFact_mk_all.2 ⟨?_, ?_, ?_⟩ | apply portsFact_mapIdx | apply reqsFact_filter | apply reqsFact_succ | refine reqsFact_nil (Holds.reqs ?_) | refine reqsFact_append_next ?_ rfl | apply Holds.lds | apply Holds.ports | apply Holds.reqs

theorem lowerBegin_holds (s : State) (hφ : Holds φ s) : Holds φ (lowerBegin s) := by
  unfold lowerBegin
  repeat' with_reducible first | assumption | refine setSec_holds _ _ (fun _ hx => hx) ?_ | apply lowerAdvance_holds | apply holds_ite | apply holds_mk_host | refine hostFact_mk_all.2 ⟨?_, ?_, ?_⟩ | apply portsFact_mapIdx | apply reqsFact_filter | apply reqsFact_succ | refine reqsFact_nil (Holds.reqs ?_) | refine reqsFact_append_next ?_ rfl | apply Holds.lds | apply Holds.ports | apply Holds.reqs

theorem undefTarget_holds (ch : ℕ) (die : ℕ) (bank : ℕ) (o : BankOp) (s : State) (hφ : Holds φ s) : Holds φ (undefTarget ch die bank o s) := by
  unfold undefTarget
  repeat' with_reducible first | assumption | apply putLine_holds | refine holds_foldl ?_ (fun _ _ _ => ?_)

theorem portEvent_holds (p : ℕ) (width : ℕ) (rate : ℕ) (cause : ℕ) (s : State) (hφ : Holds φ s) : Holds φ (portEvent p width rate cause s) := by
  unfold portEvent
  repeat' with_reducible first | assumption | apply event_holds

theorem linkLost_holds (p : ℕ) (cause : ℕ) (s : State) (hφ : Holds φ s) : Holds φ (linkLost p cause s) := by
  unfold linkLost
  repeat' with_reducible first | assumption | apply portEvent_holds | apply portDown_holds | apply holds_ite

theorem endPowerUp_holds (mstat : ℕ) (s : State) (hφ : Holds φ s) : Holds φ (endPowerUp mstat s) := by
  unfold endPowerUp
  repeat' with_reducible first | assumption | apply endJob_holds | refine holds_foldl ?_ (fun _ _ _ => ?_)

theorem quietOff_holds (cause : ℕ) (s : State) (hφ : Holds φ s) : Holds φ (quietOff cause s) := by
  unfold quietOff
  repeat' with_reducible first | assumption | refine setPower_holds _ _ (fun _ => rfl) ?_ | apply offTable_holds | apply sbEnqueue_holds

theorem powerOff_holds (cause : ℕ) (s : State) (hφ : Holds φ s) : Holds φ (powerOff cause s) := by
  unfold powerOff
  repeat' with_reducible first | assumption | apply endPowerUp_holds | apply quietOff_holds | apply shutdownPath_holds | apply secondCause_holds | split

theorem judgeShutdown_holds (i : ℕ) (s : State) (hφ : Holds φ s) : Holds φ (judgeShutdown i s) := by
  unfold judgeShutdown
  repeat' with_reducible first | assumption | apply setSensor_holds | apply powerOff_holds | refine setTherm_holds _ _ (fun _ => rfl) ?_ | simp only [holds_mk] | split

theorem markFailed_holds (u : ℕ) (s : State) (hφ : Holds φ s) : Holds φ (markFailed u s) := by
  unfold markFailed
  repeat' with_reducible first | assumption | apply flagCopy_holds | apply holds_ite | simp only [holds_mk] | refine holds_foldl ?_ (fun _ _ _ => ?_)

theorem freeFlush_holds (s : State) (hφ : Holds φ s) : Holds φ (freeFlush s) := by
  unfold freeFlush
  repeat' with_reducible first | assumption | apply releaseSet_holds | refine setPower_holds _ _ (fun _ => rfl) ?_ | dsimp only | refine holds_foldl ?_ (fun _ _ _ => ?_)

theorem loadAti_holds (s : State) (hφ : Holds φ s) : Holds φ (loadAti s) := by
  unfold loadAti
  repeat' with_reducible first | assumption | apply holds_ite | simp only [holds_mk] | refine holds_foldl_snd ?_ (fun _ _ _ => ?_)

theorem moveDone_holds (lfn : ℕ) (copy : ℕ) (s : State) (hφ : Holds φ s) : Holds φ (moveDone lfn copy s) := by
  unfold moveDone
  repeat' with_reducible first | assumption | apply wearBy_holds | apply moveStep_holds | apply setMove_holds | simp only [holds_mk] | split

theorem trainTo_holds (ch : ℕ) (step : ℕ) (s : State) (hφ : Holds φ s) : Holds φ (trainTo ch step s) := by
  unfold trainTo
  repeat' with_reducible first | assumption | apply setCart_holds | apply sendPkt_holds | apply askRaw_holds | apply trainTo.writeEye_holds | apply drawBits_holds | refine holds_foldl ?_ (fun _ _ _ => ?_) | split

theorem tryCa_holds (ch : ℕ) (step : ℕ) (s : State) (hφ : Holds φ s) : Holds φ (tryCa ch step s).2 := by
  unfold tryCa
  repeat' with_reducible first | assumption | apply sendPkt_holds | apply trainTo_holds | apply drawBool_holds | apply drawBits_holds | apply setCart_holds | apply holds_ite | dsimp only

theorem detectorIsolates_holds (u : ℕ) (reason : ℕ) (s : State) (hφ : Holds φ s) : Holds φ (detectorIsolates u reason s) := by
  unfold detectorIsolates
  repeat' with_reducible first | assumption | apply setUnit_holds | apply mediaLoss_holds | apply endJob_holds | apply setTest_holds | simp only [holds_mk] | split

theorem quadFails_holds (q : ℕ) (s : State) (hφ : Holds φ s) : Holds φ (quadFails q s) := by
  unfold quadFails
  repeat' with_reducible first | assumption | apply endJob_holds | apply mediaLoss_holds | refine holds_foldl ?_ (fun _ _ _ => ?_) | split

theorem trainFail_holds (ch : ℕ) (step : ℕ) (s : State) (hφ : Holds φ s) : Holds φ (trainFail ch step s) := by
  unfold trainFail
  repeat' with_reducible first | assumption | apply setCart_holds | apply quadFails_holds | apply detectorIsolates_holds | apply event_holds | apply holds_ite | simp only [holds_mk]

theorem trainCa_holds (ch : ℕ) (step : ℕ) (retried : Bool) (s : State) (hφ : Holds φ s) : Holds φ (trainCa ch step retried s) := by
  unfold trainCa
  repeat' with_reducible first | assumption | apply retried_holds | apply trainTo_holds | apply setCart_holds | apply tryCa_holds | apply trainFail_holds | apply holds_ite | simp only [holds_mk]

theorem identsDone_holds (ch : ℕ) (s : State) (hφ : Holds φ s) : Holds φ (identsDone ch s) := by
  unfold identsDone
  repeat' with_reducible first | assumption | apply trainCa_holds | apply holds_ite

theorem addReq_holds (q : Req) (s : State) (hq : q.id = s.host.nextReq) (hφ : Holds φ s) : Holds φ (addReq q s) :=
  holds_mk_host hφ (hostFact_mk_all.2 ⟨hφ.lds, hφ.ports, reqsFact_append_next hφ.reqs hq⟩)

theorem poisonLines_holds (lfn : ℕ) (s : State) (hφ : Holds φ s) : Holds φ (poisonLines lfn s) := by
  unfold poisonLines
  repeat' with_reducible first | assumption | apply poisonFind_holds | refine holds_foldl ?_ (fun _ _ _ => ?_)

theorem trainLink_holds (p : ℕ) (s : State) (hφ : Holds φ s) : Holds φ (trainLink p s) := by
  unfold trainLink
  repeat' with_reducible first | assumption | apply send_holds | apply holds_ite

theorem dropRanges_holds (i : ℕ) (p : Range → Bool) (s : State) (hφ : Holds φ s) : Holds φ (dropRanges i p s) := by
  unfold dropRanges
  repeat' with_reducible first | assumption | apply sendMap_holds | apply setLd_holds

theorem releaseGo_holds (i : ℕ) (c : Option Caller) (exts : List Extent) (s : State) (hφ : Holds φ s) : Holds φ (releaseGo i c exts s) := by
  unfold releaseGo
  repeat' with_reducible first | assumption | apply emptyAll_holds | apply setLd_holds | apply dropRanges_holds | apply send_holds | dsimp only | split

theorem freeDeadSet_holds (f : ℕ) (s : State) (hφ : Holds φ s) : Holds φ (freeDeadSet f s) := by
  unfold freeDeadSet
  repeat' with_reducible first | assumption | apply releaseSet_holds | apply holds_ite

theorem eraseStep_holds (x0 : ℕ) (s : State) (hφ : Holds φ s) : Holds φ (eraseStep x0 s).2 := by
  unfold eraseStep
  repeat' with_reducible first | assumption | apply freeDeadSet_holds | apply wipeSet_holds | apply makeDue_holds | apply reclaimBand_holds | apply setBand_holds | apply holds_ite | refine holds_foldl ?_ (fun _ _ _ => ?_) | simp only [apply_ite Prod.snd]

theorem eraseGo_holds (i : ℕ) (s : State) (hφ : Holds φ s) : Holds φ (eraseGo i s) := by
  unfold eraseGo
  repeat' with_reducible first | assumption | apply eraseStep_holds | apply send_holds | apply clearPoison_holds | apply setLd_holds | apply holds_ite | refine holds_foldl_snd ?_ (fun _ _ _ => ?_) | split

theorem pollWork_holds (s : State) (hφ : Holds φ s) : Holds φ (pollWork s) := by
  unfold pollWork
  repeat' with_reducible first | assumption | apply eraseGo_holds | apply releaseGo_holds | apply endJob_holds | refine holds_foldl ?_ (fun _ _ _ => ?_) | refine holds_foldl_snd ?_ (fun _ _ _ => ?_) | split

theorem copyCorrects_holds (c : ℕ × ℕ) (s : State) (hφ : Holds φ s) : Holds φ (copyCorrects c s) := by
  unfold copyCorrects
  repeat' with_reducible first | assumption | apply hbmWrite_holds | apply ceError_holds | simp only [holds_mk] | dsimp only | refine holds_foldl ?_ (fun _ _ _ => ?_)

theorem withPool_holds (i : ℕ) (e : PoolEntry) (s : State) (hφ : Holds φ s) : Holds φ (withPool i e s) := by
  unfold withPool
  repeat' with_reducible first | assumption | simp only [holds_mk]

theorem startJob_holds (op : ℕ) (c : Caller) (k : JobKind) (s : State) (hφ : Holds φ s) : Holds φ (startJob op c k s).2 := by
  unfold startJob
  repeat' with_reducible first | assumption | simp only [holds_mk]

theorem vStart_holds (op : ℕ) (c : Caller) (k : JobKind) (s : State) (hφ : Holds φ s) : Holds φ (vStart op c k s).2 := by
  unfold vStart
  repeat' with_reducible first | assumption | apply startJob_holds | apply holds_ite | simp only [holds_mk] | simp only [apply_ite Prod.snd]

theorem sbGroup_holds (s : State) (rs : List SbReq) (hφ : Holds φ s) : Holds φ (sbGroup s rs).2 := by
  unfold sbGroup
  repeat' with_reducible first | assumption | apply sbEnd_holds | apply sbStart_holds | apply sbApply_holds | apply sbAbandon_holds | apply holds_ite | refine holds_foldl ?_ (fun _ _ _ => ?_) | simp only [apply_ite Prod.snd]

theorem sbCommand_holds (s : State) (rs : List SbReq) (hφ : Holds φ s) : Holds φ (sbCommand s rs).2 := by
  unfold sbCommand
  repeat' with_reducible first | assumption | apply sbGroup_holds | apply wbOverflow_holds | apply wbPump_holds

theorem setBank_holds (k : ℕ) (f : BankSt → BankSt) (s : State) (hφ : Holds φ s) : Holds φ (setBank k f s) := by
  unfold setBank
  repeat' with_reducible first | assumption | simp only [holds_mk]

theorem timeEvent_holds (s : State) (hφ : Holds φ s) : Holds φ (timeEvent s) := by
  unfold timeEvent
  repeat' with_reducible first | assumption | apply event_holds

theorem loseSource_holds (src : TimeSrc) (other : TimeSrc) (otherGood : Bool) (s : State) (hφ : Holds φ s) : Holds φ (loseSource src other otherGood s) := by
  unfold loseSource
  repeat' with_reducible first | assumption | apply timeEvent_holds | apply holds_ite | simp only [holds_mk]

theorem startDeferred_holds (k : ℕ) (s : State) (hφ : Holds φ s) : Holds φ (startDeferred k s) := by
  unfold startDeferred
  repeat' with_reducible first | assumption | apply setBank_holds

theorem lostCopiesDue_holds (s : State) (hφ : Holds φ s) : Holds φ (lostCopiesDue s) := by
  unfold lostCopiesDue
  repeat' with_reducible first | assumption | apply makeDue_holds | refine holds_foldl ?_ (fun _ _ _ => ?_)

theorem dropRun_holds (ch : ℕ) (p : CProg) (s : State) (hφ : Holds φ s) : Holds φ (dropRun ch p s) := by
  unfold dropRun
  repeat' with_reducible first | assumption | apply setCart_holds

theorem clearEnded_holds (b : ℕ) (m : ℕ) (s : State) (hφ : Holds φ s) : Holds φ (clearEnded b m s) := by
  unfold clearEnded
  repeat' with_reducible first | assumption | apply tryFree_holds | apply setBand_holds

theorem progFailed_holds (ch : ℕ) (p : CProg) (s : State) (hφ : Holds φ s) : Holds φ (progFailed ch p s) := by
  unfold progFailed
  repeat' with_reducible first | assumption | apply dropRun_holds | apply drainRetry_holds | apply markBad_holds | apply moveLost_holds | apply abandonBatch_holds | apply clearEnded_holds | dsimp only | split

theorem rebuildFail_holds (lfn : ℕ) (s : State) (hφ : Holds φ s) : Holds φ (rebuildFail lfn s) := by
  unfold rebuildFail
  repeat' with_reducible first | assumption | simp only [holds_mk]

theorem applyRecord_holds (lln : ℕ) (r : FRecord) (s : State) (hφ : Holds φ s) : Holds φ (applyRecord lln r s) := by
  unfold applyRecord
  repeat' with_reducible first | assumption | apply internalWrite_holds | apply ncWrite_holds | apply holds_ite | split

theorem rebuildTake_holds (q : SpanRead) (s : State) (hφ : Holds φ s) : Holds φ (rebuildTake q s) := by
  unfold rebuildTake
  repeat' with_reducible first | assumption | apply applyRecord_holds | apply rebuildFail_holds | simp only [holds_mk] | refine holds_foldl ?_ (fun _ _ _ => ?_) | split

theorem scrubMissing_holds (b : ℕ) (m : ℕ) (x2 : ℕ) (s : State) (hφ : Holds φ s) : Holds φ (scrubMissing b m x2 s) := by
  unfold scrubMissing
  repeat' with_reducible first | assumption | apply relistPoison_holds | dsimp only | split

theorem poisonDel_holds (lln : ℕ) (s : State) (hφ : Holds φ s) : Holds φ (poisonDel lln s) := by
  unfold poisonDel
  repeat' with_reducible first | assumption | simp only [holds_mk] | split | apply holds_mk_host | refine hostFact_mk_all.2 ⟨?_, ?_, ?_⟩ | apply ldsFact_lmod | apply portsFact_mapIdx | apply reqsFact_filter | apply reqsFact_succ | refine reqsFact_nil (Holds.reqs ?_) | refine reqsFact_append_next ?_ rfl | apply Holds.lds | apply Holds.ports | apply Holds.reqs

theorem countWrite_holds (lfn : ℕ) (s : State) (hφ : Holds φ s) : Holds φ (countWrite lfn s) := by
  unfold countWrite
  repeat' with_reducible first | assumption | simp only [holds_mk] | refine holds_foldl ?_ (fun _ _ _ => ?_)

theorem storeWrite_holds (lln : ℕ) (data : Line) (be : BitVec 64) (poisoned : Bool) (s : State) (hφ : Holds φ s) : Holds φ (storeWrite lln data be poisoned s) := by
  unfold storeWrite
  repeat' with_reducible first | assumption | apply countWrite_holds | apply ncWrite_holds | apply dropPrefetch_holds | apply poisonAdd_holds | apply poisonDel_holds | apply holds_ite | dsimp only | apply holds_mk_host | refine hostFact_mk_all.2 ⟨?_, ?_, ?_⟩ | apply portsFact_mapIdx | apply reqsFact_filter | apply reqsFact_succ | refine reqsFact_nil (Holds.reqs ?_) | refine reqsFact_append_next ?_ rfl | apply Holds.lds | apply Holds.ports | apply Holds.reqs | refine reqsFact_map ?_ (fun _ => by split <;> rfl)

theorem hostWrite_holds (p : ℕ) (l : ℕ) (tag : BitVec 16) (lln : ℕ) (data : Line) (be : BitVec 64) (poisoned : Bool) (s : State) (hφ : Holds φ s) : Holds φ (hostWrite p l tag lln data be poisoned s) := by
  unfold hostWrite
  repeat' with_reducible first | assumption | apply storeWrite_holds | apply streamAll_holds | apply setLd_holds | apply updLoad_holds | refine addReq_holds _ _ rfl ?_ | apply drainLine_holds | apply send_holds | dsimp only | split

theorem resolveOne_holds (ty : ℕ) (ix : ℕ) (s : State) (hφ : Holds φ s) : Holds φ (resolveOne ty ix s) := by
  unfold resolveOne
  repeat' with_reducible first | assumption | apply sbEnqueue_holds | apply event_holds | apply holds_ite | split | apply holds_mk_sb | simp only [sbFact_mk] | apply Holds.sb

theorem resolveAll_holds (s : State) (hφ : Holds φ s) : Holds φ (resolveAll s) := by
  unfold resolveAll
  repeat' with_reducible first | assumption | apply resolveOne_holds | refine holds_foldl ?_ (fun _ _ _ => ?_)

theorem shownOffset_holds (d : ℤ) (s : State) (hφ : Holds φ s) : Holds φ (shownOffset d s).2 := by
  unfold shownOffset
  repeat' with_reducible first | assumption | apply drawBits_holds | apply holds_ite | simp only [apply_ite Prod.snd]

theorem sampleThreshold_holds (die : ℕ) (k : ℕ) (lo : MediaLine) (mid : MediaLine) (hi : MediaLine) (s : State) (hφ : Holds φ s) : Holds φ (sampleThreshold die k lo mid hi s).2 := by
  unfold sampleThreshold
  repeat' with_reducible first | assumption | apply holds_ite | simp only [holds_mk] | simp only [apply_ite Prod.snd]

theorem isolateDrained_holds (s : State) (hφ : Holds φ s) : Holds φ (isolateDrained s) := by
  unfold isolateDrained
  repeat' with_reducible first | assumption | apply setUnit_holds | apply holds_ite | refine holds_foldl ?_ (fun _ _ _ => ?_)

theorem dropStale_holds (ch : ℕ) (tag : BitVec 7) (s : State) (hφ : Holds φ s) : Holds φ (dropStale ch tag s) := by
  unfold dropStale
  repeat' with_reducible first | assumption | apply setCart_holds

theorem storeDesc_holds (s : State) (hφ : Holds φ s) : Holds φ (storeDesc s) := by
  unfold storeDesc
  repeat' with_reducible first | assumption | apply sbEnqueue_holds

theorem setOwnSt_holds (st : ℕ) (s : State) (hφ : Holds φ s) : Holds φ (setOwnSt st s) := by
  unfold setOwnSt
  repeat' with_reducible first | assumption | apply storeDesc_holds | apply setPeerSt_holds

theorem demoteAll_holds (s : State) (hφ : Holds φ s) : Holds φ (demoteAll s) := by
  unfold demoteAll
  repeat' with_reducible first | assumption | apply makeDue_holds | apply commitQuiet_holds | apply holds_ite | refine holds_foldl ?_ (fun _ _ _ => ?_)

theorem askRnums_holds (ms : List ℕ) (s : State) (hφ : Holds φ s) : Holds φ (askRnums ms s) := by
  unfold askRnums
  repeat' with_reducible first | assumption | apply peerSend_holds | simp only [holds_mk] | dsimp only | refine holds_foldl ?_ (fun _ _ _ => ?_)

theorem outriderFill_holds (s : State) (hφ : Holds φ s) : Holds φ (outriderFill s) := by
  unfold outriderFill
  repeat' with_reducible first | assumption | apply askRnums_holds | apply holds_ite

theorem joinAdvance_holds (s : State) (hφ : Holds φ s) : Holds φ (joinAdvance s) := by
  unfold joinAdvance
  repeat' with_reducible first | assumption | apply demoteAll_holds | apply outriderFill_holds | apply commitNow_holds | apply endJob_holds | apply setOwnSt_holds | apply holds_ite | simp only [holds_mk] | refine holds_foldl ?_ (fun _ _ _ => ?_) | refine holds_foldl_snd ?_ (fun _ _ _ => ?_) | split

theorem selectFw_holds (s t : State) (h : selectFw s = some t) (hφ : Holds φ s) : Holds φ t := by
  unfold selectFw at h
  extract_lets cs top low c at h
  repeat' split at h
  all_goals cases h
  all_goals exact holds_mk.2 hφ

theorem phase3End_holds (s : State) (hφ : Holds φ s) : Holds φ (phase3End s) := by
  unfold phase3End
  split
  · exact startFails_holds _ hφ
  · next h =>
    extract_lets s1 s2 host start power s3
    have h1 : Holds φ s1 := holds_ite (setSec_holds _ _ (fun _ hx => hx) (selectFw_holds _ _ h hφ)) (selectFw_holds _ _ h hφ)
    have h2 : Holds φ s2 := setSec_holds _ _ (fun _ hx => hx) h1
    clear_value s1 s2
    have h3 : Holds φ s3 := ⟨h2.host, h2.queue, h2.sb, h2.power, h2.therm, h2.sec⟩
    clear_value s3
    exact holds_foldl h3 (fun s c hs => holds_ite (startTraining_holds _ _ hs) hs)

theorem scrubStripe_holds (b : ℕ) (x1 : ℕ) (s : State) (hφ : Holds φ s) : Holds φ (scrubStripe b x1 s) := by
  unfold scrubStripe
  repeat' with_reducible first | assumption | apply located_holds | apply holds_ite | refine holds_foldl ?_ (fun _ _ _ => ?_) | refine holds_foldl_snd ?_ (fun _ _ _ => ?_) | split

theorem dirPut_holds (d : Drain) (s : State) (hφ : Holds φ s) : Holds φ (dirPut d s) := by
  unfold dirPut
  repeat' with_reducible first | assumption | simp only [holds_mk]

theorem qmbReply_holds (slot : ℕ) (q : ℕ) (result : ℕ) (value : ℕ) (s : State) (hφ : Holds φ s) : Holds φ (qmbReply slot q result value s) := by
  unfold qmbReply
  repeat' with_reducible first | assumption | apply setQmb_holds

theorem sampleSeen_holds (src : TimeSrc) (d : ℤ) (s : State) (hφ : Holds φ s) : Holds φ (sampleSeen src d s) := by
  unfold sampleSeen
  repeat' with_reducible first | assumption | apply shownOffset_holds | simp only [holds_mk]

theorem goodSample_holds (src : TimeSrc) (value : ℕ) (s : State) (hφ : Holds φ s) : Holds φ (goodSample src value s) := by
  unfold goodSample
  repeat' with_reducible first | assumption | apply sampleSeen_holds | apply timeEvent_holds | apply stepTime_holds | apply holds_ite | simp only [holds_mk]

theorem spdmSend_holds (p : ℕ) (o : SpdmOut) (s : State) (hφ : Holds φ s) : Holds φ (spdmSend p o s) := by
  unfold spdmSend
  repeat' with_reducible first | assumption | apply send_holds

theorem spdmErr_holds (p : ℕ) (code : ℕ) (s : State) (hφ : Holds φ s) : Holds φ (spdmErr p code s) := by
  unfold spdmErr
  repeat' with_reducible first | assumption | apply spdmSend_holds

theorem linkInject_holds (s : State) (hφ : Holds φ s) : Holds φ (linkInject s) := by
  unfold linkInject
  repeat' with_reducible first | assumption | apply fire_holds | apply holds_ite | refine holds_foldl ?_ (fun _ _ _ => ?_)

theorem setRate_holds (codes : List ℕ) (rate : ℕ) (burst : ℕ) (s : State) (hφ : Holds φ s) : Holds φ (setRate codes rate burst s) := by
  unfold setRate
  repeat' with_reducible first | assumption | simp only [holds_mk] | dsimp only | refine holds_foldl ?_ (fun _ _ _ => ?_)

theorem takeReading_holds (i : ℕ) (v : BitVec 16) (s : State) (hφ : Holds φ s) : Holds φ (takeReading i v s) := by
  unfold takeReading
  repeat' with_reducible first | assumption | apply fireStart_holds | apply setSensor_holds | apply holds_ite

theorem forgetAsked_holds (r : ℕ) (s : State) (hφ : Holds φ s) : Holds φ (forgetAsked r s) := by
  unfold forgetAsked
  repeat' with_reducible first | assumption | simp only [holds_mk]

theorem reseed_holds (i : ℕ) (fresh : Bool) (s : State) (hφ : Holds φ s) : Holds φ (reseed i fresh s) := by
  unfold reseed
  repeat' with_reducible first | assumption | apply restartStream_holds | apply closeBatch_holds | apply setStream_holds | apply streamAdd_holds | apply holds_ite | simp only [holds_mk] | dsimp only | refine holds_foldl ?_ (fun _ _ _ => ?_)

theorem outriderLost_holds (r : ℕ) (s : State) (hφ : Holds φ s) : Holds φ (outriderLost r s) := by
  unfold outriderLost
  repeat' with_reducible first | assumption | apply dropStream_holds | apply reseed_holds | apply event_holds | simp only [holds_mk] | split

theorem finishDelta_holds (b : ℕ) (sl : FoldSlot) (s : State) (hφ : Holds φ s) : Holds φ (finishDelta b sl s) := by
  unfold finishDelta
  repeat' with_reducible first | assumption | apply commitSlot_holds | apply releaseOld_holds | apply releaseRecords_holds | apply setSlot_holds | apply closeIfDone_holds | simp only [holds_mk] | split

theorem deltaCheck_holds (b : ℕ) (lfn : ℕ) (s : State) (hφ : Holds φ s) : Holds φ (deltaCheck b lfn s) := by
  unfold deltaCheck
  repeat' with_reducible first | assumption | apply advanceBatch_holds | apply setSlot_holds | apply peerSend_holds | apply finishDelta_holds | apply holds_ite | refine holds_foldl ?_ (fun _ _ _ => ?_) | refine holds_foldl_snd ?_ (fun _ _ _ => ?_) | split

theorem deltaHolderLost_holds (r : ℕ) (s : State) (hφ : Holds φ s) : Holds φ (deltaHolderLost r s) := by
  unfold deltaHolderLost
  repeat' with_reducible first | assumption | apply advanceBatch_holds | apply setSlot_holds | apply peerSend_holds | apply deltaCheck_holds | apply holds_ite | simp only [holds_mk] | refine holds_foldl ?_ (fun _ _ _ => ?_) | refine holds_foldl_snd ?_ (fun _ _ _ => ?_) | split

theorem memberGone_holds (r : ℕ) (st : ℕ) (s : State) (hφ : Holds φ s) : Holds φ (memberGone r st s) := by
  unfold memberGone
  repeat' with_reducible first | assumption | apply setPeerSt_holds | apply forgetAsked_holds | apply setPeer_holds | apply dropHolding_holds | apply outriderLost_holds | apply deltaHolderLost_holds | simp only [holds_mk] | dsimp only | refine holds_foldl ?_ (fun _ _ _ => ?_)

theorem mapRefold_holds (s : State) (hφ : Holds φ s) : Holds φ (mapRefold s) := by
  unfold mapRefold
  repeat' with_reducible first | assumption | apply commitNow_holds | apply event_holds | apply makeDue_holds | simp only [holds_mk] | dsimp only | refine holds_foldl ?_ (fun _ _ _ => ?_)

theorem qmbOffer_holds (slot : ℕ) (q : ℕ) (msg : ℕ) (x3 : QmbMsg) (s : State) (hφ : Holds φ s) : Holds φ (qmbOffer slot q msg x3 s).2 := by
  unfold qmbOffer
  repeat' with_reducible first | assumption | apply setQmb_holds | apply holds_ite | simp only [holds_mk] | simp only [apply_ite Prod.snd]

theorem holdupFault_holds (s : State) (hφ : Holds φ s) : Holds φ (holdupFault s) := by
  unfold holdupFault
  repeat' with_reducible first | assumption | refine setPower_holds _ _ (fun _ => rfl) ?_ | apply event_holds | apply updLoad_holds | apply drainLine_holds | dsimp only | refine holds_foldl ?_ (fun _ _ _ => ?_) | apply holds_mk_host | refine hostFact_mk_all.2 ⟨?_, ?_, ?_⟩ | apply portsFact_mapIdx | apply reqsFact_filter | apply reqsFact_succ | refine reqsFact_nil (Holds.reqs ?_) | refine reqsFact_append_next ?_ rfl | apply Holds.lds | apply Holds.ports | apply Holds.reqs

theorem deltaReply_holds (r : ℕ) (lfn : ℕ) (seq : BitVec 48) (ph : DeltaPhase) (s : State) (hφ : Holds φ s) : Holds φ (deltaReply r lfn seq ph s) := by
  unfold deltaReply
  repeat' with_reducible first | assumption | apply deltaCheck_holds | apply setSlot_holds | simp only [holds_mk] | split

theorem storeOp_holds (ch : ℕ) (die : ℕ) (bank : ℕ) (o : BankOp) (s : State) (hφ : Holds φ s) : Holds φ (storeOp ch die bank o s) := by
  unfold storeOp
  repeat' with_reducible first | assumption | apply programLine_holds | apply holds_ite | refine holds_foldl ?_ (fun _ _ _ => ?_)

theorem classBand_holds (used : List ℕ) (c0 : ℕ) (b : ℕ) (s : State) (hφ : Holds φ s) : Holds φ (classBand used c0 b s) := by
  unfold classBand
  repeat' with_reducible first | assumption | apply setBand_holds | apply refreshBand_holds | apply bandFreed_holds | apply holds_ite | dsimp only

theorem resolveSet_holds (f : ℕ) (s : State) (hφ : Holds φ s) : Holds φ (resolveSet f s) := by
  unfold resolveSet
  repeat' with_reducible first | assumption | apply event_holds | apply fsSet_holds | simp only [holds_mk] | dsimp only | split

theorem judgeStop_holds (s : State) (hφ : Holds φ s) : Holds φ (judgeStop s) := by
  unfold judgeStop
  repeat' with_reducible first | assumption | apply holds_ite | apply holds_mk_host | refine hostFact_mk_all.2 ⟨?_, ?_, ?_⟩ | apply portsFact_mapIdx | apply reqsFact_filter | apply reqsFact_succ | refine reqsFact_nil (Holds.reqs ?_) | refine reqsFact_append_next ?_ rfl | apply Holds.lds | apply Holds.ports | apply Holds.reqs

theorem replayTable_holds (recs : List CkRec) (s : State) (hφ : Holds φ s) : Holds φ (replayTable recs s).1 := by
  unfold replayTable
  repeat' with_reducible first | assumption | apply holds_ite | simp only [holds_mk] | refine holds_foldl_snd ?_ (fun _ _ _ => ?_)

theorem headerScan_holds (s : State) (hφ : Holds φ s) : Holds φ (headerScan s) := by
  unfold headerScan
  repeat' with_reducible first | assumption | apply logRead_holds | apply poisonLines_holds | apply holds_ite | simp only [holds_mk] | refine holds_foldl ?_ (fun _ _ _ => ?_) | refine holds_foldl_snd ?_ (fun _ _ _ => ?_) | split

theorem phase5End_holds (s : State) (hφ : Holds φ s) : Holds φ (phase5End s) := by
  unfold phase5End
  repeat' with_reducible first | assumption | apply lowerAdvance_holds | refine setSec_holds _ _ (fun _ hx => hx) ?_ | apply resolveSet_holds | apply judgeStop_holds | apply replayTable_holds | apply event_holds | apply beyondEvent_holds | apply headerScan_holds | apply classSets_holds | apply classBand_holds | apply holds_ite | simp only [holds_mk] | refine holds_foldl ?_ (fun _ _ _ => ?_) | refine holds_foldl_snd ?_ (fun _ _ _ => ?_)

theorem scrubFrom_holds (f pos lln : Nat) (seq : Option (BitVec 16)) (die : Nat) (r : Option Line66 × State) (next : State → State) (h : ∀ s, Holds φ s → Holds φ (next s)) (hφ : Holds φ r.2) : Holds φ (scrubFrom f pos lln seq die r next) := by
  unfold scrubFrom
  split
  · exact scrubRewrite_holds _ _ _ _ _ _ (relistPoison_holds _ _ _ _ (event_holds _ _ (charge_holds _ _ (countRebuilt_holds _ hφ))))
  · exact h _ hφ

theorem scrubLineRes_holds (f : ℕ) (c : ℕ) (pos : ℕ) (step : ℕ) (lln : ℕ) (seq : Option (BitVec 16)) (res : Option (Line66 × ℕ)) (s : State) (hφ : Holds φ s) : Holds φ (scrubLineRes f c pos step lln seq res s) := by
  unfold scrubLineRes
  extract_lets die loc
  split
  · extract_lets s1 weak s2 o
    have h1 : Holds φ s1 := relistPoison_holds _ _ _ _ hφ
    have h2 : Holds φ s2 := by
      simp only [s2]
      split
      · exact event_holds _ _ (charge_holds _ _ h1)
      · split
        · exact weakLine_holds _ _ h1
        · exact h1
    clear_value s2 o weak
    exact scrubPair_holds _ _ _ _ _ _ _ _ _ _ h2
  · exact scrubFrom_holds _ _ _ _ _ _ _ (fun t ht => scrubFrom_holds _ _ _ _ _ _ _ (fun u hu =>
      scrubFastLost_holds _ _ _ _ _ _ hu) (copyRetry_holds _ _ _ _ _ ht)) (copyRead_holds _ _ _ _ _ hφ)

theorem scrubDescRes_holds (f : ℕ) (c : ℕ) (slot : ℕ) (step : ℕ) (res : Option (Line66 × ℕ)) (s : State) (hφ : Holds φ s) : Holds φ (scrubDescRes f c slot step res s) := by
  unfold scrubDescRes
  repeat' with_reducible first | assumption | apply descWrite_holds | apply charge_holds | apply weakLine_holds | apply makeDue_holds | apply holds_ite | dsimp only | split

theorem scrubFastRes_holds (f : ℕ) (c : ℕ) (pos : ℕ) (step : ℕ) (res : Option (Line66 × ℕ)) (s : State) (hφ : Holds φ s) : Holds φ (scrubFastRes f c pos step res s) := by
  unfold scrubFastRes
  repeat' with_reducible first | assumption | apply dieCount_holds | apply scrubAskFast_holds | apply scrubDescRes_holds | apply scrubOtherRes_holds | apply scrubLineRes_holds | apply holds_ite | split

theorem workValues_holds (s : State) (hφ : Holds φ s) : Holds φ (workValues s) := by
  unfold workValues
  repeat' with_reducible first | assumption | apply setSensor_holds | apply holds_ite | refine holds_foldl ?_ (fun _ _ _ => ?_) | refine holds_foldl_snd ?_ (fun _ _ _ => ?_)

theorem judgeSample_holds (tick : Bool) (covers : List ℕ) (s : State) (hφ : Holds φ s) : Holds φ (judgeSample tick covers s) := by
  unfold judgeSample
  repeat' with_reducible first | assumption | apply workValues_holds | refine setTherm_holds _ _ (fun _ => rfl) ?_ | apply judgeShutdown_holds | apply judgeThrottle_holds | refine holds_foldl ?_ (fun _ _ _ => ?_) | split

theorem alertSample_holds (ch : ℕ) (v : BitVec 16) (s : State) (hφ : Holds φ s) : Holds φ (alertSample ch v s) := by
  unfold alertSample
  repeat' with_reducible first | assumption | apply judgeSample_holds | apply takeReading_holds | apply holds_ite

theorem rescanFrame_holds (all : List (ℕ × ℕ × ℕ)) (lfn : ℕ) (s : State) (hφ : Holds φ s) : Holds φ (rescanFrame all lfn s) := by
  unfold rescanFrame
  repeat' with_reducible first | assumption | apply indexPatch_holds | apply makeDue_holds | apply fsumRefresh_holds | apply holds_ite | simp only [holds_mk] | refine holds_foldl ?_ (fun _ _ _ => ?_) | refine holds_foldl_snd ?_ (fun _ _ _ => ?_)

theorem mendFlushSets_holds (s : State) (hφ : Holds φ s) : Holds φ (mendFlushSets s) := by
  unfold mendFlushSets
  repeat' with_reducible first | assumption | refine setPower_holds _ _ (fun _ => rfl) ?_ | apply updLoad_holds | apply holds_ite | simp only [holds_mk] | apply holds_mk_power

theorem foreignAgain_holds (s : State) (hφ : Holds φ s) : Holds φ (foreignAgain s) := by
  unfold foreignAgain
  repeat' with_reducible first | assumption | apply piInsert_holds | refine holds_foldl ?_ (fun _ _ _ => ?_) | split

theorem rejoinAdvance_holds (s : State) (hφ : Holds φ s) : Holds φ (rejoinAdvance s) := by
  unfold rejoinAdvance
  repeat' with_reducible first | assumption | apply askRnums_holds | apply foreignAgain_holds | apply spanStart_holds | apply holds_ite | simp only [holds_mk] | refine holds_foldl ?_ (fun _ _ _ => ?_) | refine holds_foldl_snd ?_ (fun _ _ _ => ?_) | split

theorem memoryActive_holds (s : State) (hφ : Holds φ s) : Holds φ (memoryActive s) := by
  unfold memoryActive
  repeat' with_reducible first | assumption | apply sbEnqueue_holds | refine setSec_holds _ _ (fun _ hx => hx) ?_ | apply deliver_holds | apply releaseGo_holds | apply eraseStart_holds | apply holds_ite | simp only [holds_mk] | dsimp only | refine holds_foldl ?_ (fun _ _ _ => ?_) | refine holds_foldl_snd ?_ (fun _ _ _ => ?_) | split | apply holds_mk_host | refine hostFact_mk_all.2 ⟨?_, ?_, ?_⟩ | apply portsFact_mapIdx | apply reqsFact_filter | apply reqsFact_succ | refine reqsFact_nil (Holds.reqs ?_) | refine reqsFact_append_next ?_ rfl | apply Holds.lds | apply Holds.ports | apply Holds.reqs

theorem phase8End_holds (s : State) (hφ : Holds φ s) : Holds φ (phase8End s) := by
  unfold phase8End
  repeat' with_reducible first | assumption | apply rejoinAdvance_holds | apply setPeerSt_holds | apply freeFlush_holds | apply mapClear_holds | apply memoryActive_holds | apply reseed_holds | apply holds_ite | dsimp only | refine holds_foldl ?_ (fun _ _ _ => ?_)

theorem dropMoves_holds (s : State) (hφ : Holds φ s) : Holds φ (dropMoves s) := by
  unfold dropMoves
  repeat' with_reducible first | assumption | apply endJob_holds | apply dropMove_holds | refine holds_foldl ?_ (fun _ _ _ => ?_) | split

theorem setRead_holds (tag : BitVec 32) (f : SpanRead → SpanRead) (s : State) (hφ : Holds φ s) : Holds φ (setRead tag f s) := by
  unfold setRead
  repeat' with_reducible first | assumption | simp only [holds_mk]

theorem flushLost_holds (lln : ℕ) (s : State) (hφ : Holds φ s) : Holds φ (flushLost lln s) := by
  unfold flushLost
  repeat' with_reducible first | assumption | apply poisonFind_holds | apply holds_ite | simp only [holds_mk]

theorem loadIndex_holds (es : List PiEnt) (s : State) (hφ : Holds φ s) : Holds φ (loadIndex es s) := by
  unfold loadIndex
  repeat' with_reducible first | assumption | apply indexAgain_holds | apply unindex_holds | apply noIndex_holds | apply summarize_holds | apply holds_ite | dsimp only | refine holds_foldl ?_ (fun _ _ _ => ?_)

theorem phase6End_holds (s : State) (hφ : Holds φ s) : Holds φ (phase6End s) := by
  have hload (es : Option (List PiEnt)) (t : State) (ht : Holds φ t) : Holds φ (match es with | some es => loadIndex es t | none => rebuildIndex t) := by
    cases es with
    | none => exact rebuildIndex_holds _ ht
    | some es => exact loadIndex_holds _ _ ht
  have hlost (ls : List (Nat × Option (Line × BitVec 64))) (t : State) (ht : Holds φ t) : Holds φ (ls.foldl (fun s l => flushLost l.1 s) t) :=
    holds_foldl ht (fun s l hs => flushLost_holds _ _ hs)
  unfold phase6End
  have h3 := fun ls load (t : State) (ht : Holds φ t) => hlost ls _ (hload load t ht)
  exact holds_mk_power (h3 _ _ _ (holds_mk.2 hφ)) (powerFact_of_rails rfl (h3 _ _ _ (holds_mk.2 hφ)).power)

theorem scrubSetRead_holds (f : ℕ) (k : ℕ) (s : State) (hφ : Holds φ s) : Holds φ (scrubSetRead f k s) := by
  unfold scrubSetRead
  repeat' with_reducible first | assumption | apply scrubAskFast_holds

theorem giveKey_holds (i : ℕ) (s : State) (hφ : Holds φ s) : Holds φ (giveKey i s) := by
  unfold giveKey
  repeat' with_reducible first | assumption | apply newKey_holds | apply holds_ite

theorem addRanges_holds (i : ℕ) (rs : List Range) (s : State) (hφ : Holds φ s) : Holds φ (addRanges i rs s) := by
  unfold addRanges
  repeat' with_reducible first | assumption | apply giveKey_holds | apply sendMap_holds | apply setLd_holds

theorem setPinned_holds (lfn : ℕ) (v : Bool) (s : State) (hφ : Holds φ s) : Holds φ (setPinned lfn v s) := by
  unfold setPinned
  repeat' with_reducible first | assumption | apply commitNow_holds | apply holds_ite

theorem takeSources_holds (s : State) (hφ : Holds φ s) : Holds φ (takeSources s) := by
  unfold takeSources
  repeat' with_reducible first | assumption | apply timeEvent_holds | apply loseSource_holds | apply holds_ite | simp only [holds_mk]

theorem onDone_holds (s : State) (hφ : Holds φ s) : Holds φ (onDone s) := by
  unfold onDone
  repeat' with_reducible first | assumption | refine setPower_holds _ _ (fun _ => rfl) ?_ | apply endPowerUp_holds | apply trainLink_holds | apply holds_ite | simp only [holds_mk] | dsimp only | refine holds_foldl ?_ (fun _ _ _ => ?_)

theorem checkOn_holds (s : State) (hφ : Holds φ s) : Holds φ (checkOn s) := by
  unfold checkOn
  repeat' with_reducible first | assumption | apply onDone_holds | apply holds_ite

theorem startLife_holds (s : State) (hφ : Holds φ s) : Holds φ (startLife s) := by
  unfold startLife
  repeat' with_reducible first | assumption | apply event_holds | apply sbEnqueue_holds | simp only [holds_mk] | split

theorem startOn_holds (s : State) (hφ : Holds φ s) : Holds φ (startOn s) := by
  unfold startOn
  extract_lets s1
  have h1 : Holds φ s1 := startLife_holds _ hφ
  clear_value s1
  have h2 := setPower_holds (fun p => { p with
      seq := .starting, flagged := 0, offSeen := 0, onHeld := false, restart := false, measured := false, measuring := false
      v1 := none, holdFault := false, chargedClear := 0, setAside := [], flushSets := 0 }) _ (fun _ => rfl) h1
  exact checkOn_holds _ (holds_mk_therm h2 h2.therm)

theorem flushDeltas_holds (s : State) (hφ : Holds φ s) : Holds φ (flushDeltas s) := by
  unfold flushDeltas
  repeat' with_reducible first | assumption | apply writePi_holds | simp only [holds_mk] | dsimp only | split

theorem dcEvent_holds (i : ℕ) (seq : ℕ) (e : Extent) (s : State) (hφ : Holds φ s) : Holds φ (dcEvent i seq e s) := by
  unfold dcEvent
  repeat' with_reducible first | assumption | apply logPend_holds | apply setLd_holds | simp only [holds_mk]

theorem resumeNow_holds (k : ℕ) (s : State) (hφ : Holds φ s) : Holds φ (resumeNow k s) := by
  unfold resumeNow
  repeat' with_reducible first | assumption | apply setBank_holds | simp only [holds_mk]

theorem aerError_holds (p : ℕ) (bit : ℕ) (s : State) (hφ : Holds φ s) : Holds φ (aerError p bit s) := by
  unfold aerError
  repeat' with_reducible first | assumption | apply setPort_holds | apply send_holds | apply holds_ite

theorem lfsrRun_holds (ns : ℕ) (s : State) (hφ : Holds φ s) : Holds φ (lfsrRun ns s) := by
  unfold lfsrRun
  repeat' with_reducible first | assumption | simp only [holds_mk]

theorem advanceTo_holds (value : ℕ) (s : State) (hφ : Holds φ s) : Holds φ (advanceTo value s) := by
  unfold advanceTo
  repeat' with_reducible first | assumption | apply holds_ite | simp only [holds_mk]

theorem advanceFtime_holds (t : BitVec 64) (s : State) (hφ : Holds φ s) : Holds φ (advanceFtime t s) := by
  unfold advanceFtime
  exact holds_mk_therm hφ (by split <;> exact hφ.therm)

theorem idleTick_holds (s : State) (hφ : Holds φ s) : Holds φ (idleTick s) := by
  unfold idleTick
  repeat' with_reducible first | assumption | apply lfsrRun_holds | apply advanceFtime_holds | apply holds_ite

theorem idle_holds (s : State) (hφ : Holds φ s) : Holds φ (idle s) := by
  unfold idle
  repeat' with_reducible first | assumption | apply idleTick_holds

theorem loadRefs_holds (ch : ℕ) (die : ℕ) (s : State) (hφ : Holds φ s) : Holds φ (loadRefs ch die s) := by
  unfold loadRefs
  repeat' with_reducible first | assumption | apply send_holds | apply sendPkt_holds | refine holds_foldl ?_ (fun _ _ _ => ?_)

theorem reloadSlots_holds (s : State) (hφ : Holds φ s) : Holds φ (reloadSlots s) := by
  unfold reloadSlots
  repeat' with_reducible first | assumption | apply loadRefs_holds | apply holds_ite | refine holds_foldl ?_ (fun _ _ _ => ?_)

theorem closeHotWindow_holds (s : State) (hφ : Holds φ s) : Holds φ (closeHotWindow s) := by
  unfold closeHotWindow
  repeat' with_reducible first | assumption | apply commitQuiet_holds | apply holds_ite | simp only [holds_mk] | refine holds_foldl ?_ (fun _ _ _ => ?_)

theorem warmReset_holds (s : State) (hφ : Holds φ s) : Holds φ (warmReset s) := by
  unfold warmReset
  repeat' with_reducible first | assumption | apply loseJobs_holds | apply holds_mk_host | refine hostFact_mk_all.2 ⟨?_, ?_, ?_⟩ | apply portsFact_mapIdx | apply reqsFact_filter | apply reqsFact_succ | refine reqsFact_nil (Holds.reqs ?_) | refine reqsFact_append_next ?_ rfl | apply Holds.lds | apply Holds.ports | apply Holds.reqs

theorem activateLead_holds (s : State) (hφ : Holds φ s) : Holds φ (activateLead s) := by
  unfold activateLead
  repeat' with_reducible first | assumption | apply warmReset_holds | apply holds_ite | simp only [holds_mk]

theorem scrubBandRead_holds (b : ℕ) (k : ℕ) (s : State) (hφ : Holds φ s) : Holds φ (scrubBandRead b k s) := by
  unfold scrubBandRead
  repeat' with_reducible first | assumption | apply scrubMissing_holds | apply scrubAsk_holds | apply holds_ite

theorem issueScrub_holds (s : State) (hφ : Holds φ s) : Holds φ (issueScrub s) := by
  unfold issueScrub
  extract_lets stages bands n1 s1 sets hours n2
  have h1 : Holds φ s1 := by
    simp only [s1]
    split
    · exact hφ
    · exact holds_foldl hφ (fun t _ ht => scrubBandRead_holds _ _ _ (holds_mk.2 ht))
  clear_value s1
  split
  · exact h1
  · exact holds_foldl h1 (fun t _ ht => scrubSetRead_holds _ _ _ (holds_mk.2 ht))

theorem clearBand_holds (b : ℕ) (s : State) (hφ : Holds φ s) : Holds φ (clearBand b s) := by
  unfold clearBand
  repeat' with_reducible first | assumption | apply markBad_holds | apply bandFreed_holds | apply setBand_holds | apply askProg_holds | apply holds_ite | refine holds_foldl ?_ (fun _ _ _ => ?_)

theorem nextFrame_holds (ch : ℕ) (s : State) (hφ : Holds φ s) : Holds φ (nextFrame ch s) := by
  unfold nextFrame
  repeat' with_reducible first | assumption | apply setCart_holds

theorem rejoinBegin_holds (s : State) (hφ : Holds φ s) : Holds φ (rejoinBegin s) := by
  unfold rejoinBegin
  repeat' with_reducible first | assumption | apply unhitch_holds | apply setPeerSt_holds | apply startJob_holds | apply holds_ite | simp only [holds_mk]

theorem phase7End_holds (s : State) (hφ : Holds φ s) : Holds φ (phase7End s) := by
  unfold phase7End
  repeat' with_reducible first | assumption | apply replayStep_holds | apply rejoinBegin_holds | apply freeFlush_holds | apply startFails_holds | apply mapRefold_holds | apply memoryActive_holds | apply mapClear_holds | apply holds_ite

theorem fenceBlock_holds (c : ℕ × ℕ) (s : State) (hφ : Holds φ s) : Holds φ (fenceBlock c s) := by
  unfold fenceBlock
  repeat' with_reducible first | assumption | apply pageDrop_holds | simp only [holds_mk] | dsimp only | refine holds_foldl ?_ (fun _ _ _ => ?_)

theorem onPoisoned_holds (q : ℕ) (s : State) (hφ : Holds φ s) : Holds φ (onPoisoned q s) := by
  unfold onPoisoned
  repeat' with_reducible first | assumption | apply holds_ite | simp only [holds_mk]

theorem scrubFrames_holds (s : State) (hφ : Holds φ s) : Holds φ (scrubFrames s) := by
  unfold scrubFrames
  repeat' with_reducible first | assumption | apply scrubAsk_holds | apply scrubSetRead_holds | apply holds_ite | simp only [holds_mk] | dsimp only | refine holds_foldl ?_ (fun _ _ _ => ?_)

theorem recount_holds (s : State) (hφ : Holds φ s) : Holds φ (recount s) := by
  unfold recount
  repeat' with_reducible first | assumption | simp only [holds_mk]

theorem gpfSettle_holds (s : State) (hφ : Holds φ s) : Holds φ (gpfSettle s) := by
  unfold gpfSettle
  repeat' with_reducible first | assumption | apply send_holds | apply holds_ite | simp only [holds_mk] | refine holds_foldl ?_ (fun _ _ _ => ?_) | apply holds_mk_host | refine hostFact_mk_all.2 ⟨?_, ?_, ?_⟩ | apply portsFact_mapIdx | apply reqsFact_filter | apply reqsFact_succ | refine reqsFact_nil (Holds.reqs ?_) | refine reqsFact_append_next ?_ rfl | apply Holds.lds | apply Holds.ports | apply Holds.reqs

theorem setHolding_holds (h : Holding) (f : Holding → Holding) (s : State) (hφ : Holds φ s) : Holds φ (setHolding h f s) := by
  unfold setHolding
  repeat' with_reducible first | assumption | simp only [holds_mk]

theorem mapWrite_holds (n : ℕ) (now : List ℕ) (s : State) (hφ : Holds φ s) : Holds φ (mapWrite n now s).2 := by
  unfold mapWrite
  refine holds_foldl_snd hφ (fun p a hp => ?_)
  split
  · exact hp
  · next h =>
    refine holds_foldl ?_ (fun s j hs => segPut_holds _ _ _ _ hs)
    exact holds_mk.2 (placeSeg_holds _ _ _ (pickSegment_holds _ _ _ h hp))

theorem endAdmission_holds (lfn : ℕ) (s : State) (hφ : Holds φ s) : Holds φ (endAdmission lfn s) := by
  unfold endAdmission
  repeat' with_reducible first | assumption | apply admitNext_holds | apply peerSend_holds | simp only [holds_mk] | split

theorem rebuildPoll_holds (s : State) (hφ : Holds φ s) : Holds φ (rebuildPoll s) := by
  unfold rebuildPoll
  repeat' with_reducible first | assumption | apply rebuildTake_holds | apply endAdmission_holds | apply makeDue_holds | apply spanStart_holds | apply holds_ite | dsimp only | refine holds_foldl ?_ (fun _ _ _ => ?_)

theorem rnumGot_holds (r : ℕ) (top : BitVec 48) (s : State) (hφ : Holds φ s) : Holds φ (rnumGot r top s) := by
  unfold rnumGot
  repeat' with_reducible first | assumption | simp only [holds_mk]

theorem rnumAnswer_holds (r : ℕ) (tag : BitVec 32) (b : ReconBody) (s : State) (hφ : Holds φ s) : Holds φ (rnumAnswer r tag b s) := by
  unfold rnumAnswer
  repeat' with_reducible first | assumption | apply rnumGot_holds | apply reseed_holds | apply holds_ite | simp only [holds_mk]

theorem scrubUnit_holds (u : HbmUnit) (s : State) (hφ : Holds φ s) : Holds φ (scrubUnit u s) := by
  unfold scrubUnit
  repeat' with_reducible first | assumption | apply slotRead_holds | apply hbmMeet_holds | apply hbmWrite_holds | apply pageRead_holds | apply pageDrop_holds | apply residencyMeet_holds | apply entryLost_holds | simp only [holds_mk] | dsimp only | split

theorem scrubDenseRes_holds (b : ℕ) (m : ℕ) (x2 : ℕ) (step : ℕ) (res : Option (Line66 × ℕ)) (s : State) (hφ : Holds φ s) : Holds φ (scrubDenseRes b m x2 step res s) := by
  unfold scrubDenseRes
  repeat' with_reducible first | assumption | apply scrubHeaderRes_holds | apply relistPoison_holds | apply scrubWeak_holds | apply event_holds | apply charge_holds | apply weakLine_holds | apply scrubStripe_holds | apply countBlockMark_holds | apply dieCount_holds | apply scrubAsk_holds | apply scrubLost_holds | dsimp only | split

theorem readAnswered_holds (ch : ℕ) (r : CRead) (res : LineRes) (s : State) (hφ : Holds φ s) : Holds φ (readAnswered ch r res s) := by
  unfold readAnswered
  repeat' with_reducible first | assumption | apply readLineRes_holds | apply lateRetry_holds | apply readBackRes_holds | apply scrubDenseRes_holds | apply scrubFastRes_holds | apply holds_ite | split

theorem remountAsk_holds (m : ℕ) (s : State) (hφ : Holds φ s) : Holds φ (remountAsk m s) := by
  unfold remountAsk
  repeat' with_reducible first | assumption | apply commitNow_holds | apply outriderFill_holds | apply peerSend_holds | simp only [holds_mk] | dsimp only | refine holds_foldl ?_ (fun _ _ _ => ?_)

theorem tell_holds (rc : Rc) (o : CxlOut) (s : State) (hφ : Holds φ s) : Holds φ (tell rc o s).2 := by
  unfold tell
  repeat' with_reducible first | assumption

theorem fwEnd_holds (s : State) (hφ : Holds φ s) : Holds φ (fwEnd s).2 := by
  unfold fwEnd
  repeat' with_reducible first | assumption | apply tell_holds | apply did_holds | apply holds_ite | simp only [holds_mk] | simp only [apply_ite Prod.snd]

theorem testFailure_holds (u : ℕ) (s : State) (hφ : Holds φ s) : Holds φ (testFailure u s).2 := by
  unfold testFailure
  repeat' with_reducible first | assumption | apply drawBits_holds | apply markBad_holds | dsimp only | split

theorem mbRead_holds (slot : ℕ) (off : ℕ) (s : State) (hφ : Holds φ s) : Holds φ (mbRead slot off s).2 := by
  unfold mbRead
  repeat' with_reducible first | assumption | apply drawBits_holds | apply setQmb_holds | dsimp only | split

theorem foreignSegment_holds (pool need : Nat) (rnum : BitVec 48) (s : State) (k : Nat) (t : State) (h : foreignSegment pool need rnum s = some (k, t)) (hφ : Holds φ s) : Holds φ t := by
  unfold foreignSegment at h
  split at h
  · cases h; exact hφ
  · extract_lets s1 at h
    split at h
    · cases h
    · cases h; exact setWard_holds _ _ _ (placeSeg_holds _ _ _ (setWard_holds _ _ _ hφ))

theorem storeForeign_holds (pool : ℕ) (lln : ℕ) (s : State) (hφ : Holds φ s) : Holds φ (storeForeign pool lln s) := by
  unfold storeForeign
  split
  · exact hφ
  · extract_lets full
    split
    · exact hφ
    · next h =>
      have h0 := foreignSegment_holds _ _ _ _ _ _ h hφ
      extract_lets i place s1 s2 x s3 s4 s5
      have h2 : Holds φ s2 := holds_ite (segPut_holds _ _ _ _ h0) (segPut_holds _ _ _ _ (segPut_holds _ _ _ _ h0))
      clear_value s2
      have h4 : Holds φ s4 := segPut_holds _ _ _ _ (holds_mk.2 h2)
      clear_value s4
      have h5 : Holds φ s5 := holds_ite h4 (segPut_holds _ _ _ _ h4)
      clear_value s5
      exact piInsert_holds _ _ (setWard_holds _ _ _ h5)

theorem compactForeign_holds (pool : ℕ) (s : State) (hφ : Holds φ s) : Holds φ (compactForeign pool s) := by
  unfold compactForeign
  repeat' with_reducible first | assumption | apply storeForeign_holds | dsimp only | refine holds_foldl ?_ (fun _ _ _ => ?_) | refine holds_foldl_snd ?_ (fun _ _ _ => ?_) | split

theorem requestRetrain_holds (ch : ℕ) (s : State) (hφ : Holds φ s) : Holds φ (requestRetrain ch s) := by
  unfold requestRetrain
  repeat' with_reducible first | assumption | apply setCart_holds | apply holds_ite | simp only [holds_mk]

theorem relayout_holds (g : ℕ) (s : State) (hφ : Holds φ s) : Holds φ (relayout g s) := by
  unfold relayout
  repeat' with_reducible first | assumption | simp only [holds_mk]

theorem phase4End_holds (hbm : BitVec 4) (s : State) (hφ : Holds φ s) : Holds φ (phase4End hbm s) := by
  unfold phase4End
  repeat' with_reducible first | assumption | apply setUnit_holds | apply startFails_holds | apply drawBits_holds | apply relayout_holds | apply reloadSlots_holds | apply loadAti_holds | apply holds_ite | simp only [holds_mk] | refine holds_foldl ?_ (fun _ _ _ => ?_) | refine holds_foldl_snd ?_ (fun _ _ _ => ?_)

theorem dropCopy_holds (c : ℕ × ℕ) (s : State) (hφ : Holds φ s) : Holds φ (dropCopy c s) := by
  unfold dropCopy
  repeat' with_reducible first | assumption | simp only [holds_mk]

theorem ageChannels_holds (s : State) (hφ : Holds φ s) : Holds φ (ageChannels s) := by
  unfold ageChannels
  repeat' with_reducible first | assumption | simp only [holds_mk] | refine holds_foldl ?_ (fun _ _ _ => ?_)

theorem maintainChannels_holds (s : State) (hφ : Holds φ s) : Holds φ (maintainChannels s) := by
  unfold maintainChannels
  repeat' with_reducible first | assumption | apply askRaw_holds | apply holds_ite | dsimp only | refine holds_foldl ?_ (fun _ _ _ => ?_)

theorem sampleCalibration_holds (s : State) (hφ : Holds φ s) : Holds φ (sampleCalibration s) := by
  unfold sampleCalibration
  repeat' with_reducible first | assumption | apply readReference_holds | apply sampleThreshold_holds | apply loadRefs_holds | apply holds_ite | simp only [holds_mk] | refine holds_foldl ?_ (fun _ _ _ => ?_) | refine holds_foldl_snd ?_ (fun _ _ _ => ?_) | split

theorem cycleStart_holds (s : State) (hφ : Holds φ s) : Holds φ (cycleStart s) := by
  unfold cycleStart
  repeat' with_reducible first | assumption | apply latchOverlay_holds | apply ageChannels_holds | apply maintainChannels_holds | apply sampleCalibration_holds | apply drawBits_holds | simp only [holds_mk]

theorem loadUnits_holds (s : State) (hφ : Holds φ s) : Holds φ (loadUnits s) := by
  unfold loadUnits
  repeat' with_reducible first | assumption | simp only [holds_mk]

theorem sendWithheld_holds (s : State) (hφ : Holds φ s) : Holds φ (sendWithheld s) := by
  unfold sendWithheld
  repeat' with_reducible first | assumption | apply sendRelease_holds | simp only [holds_mk] | refine holds_foldl ?_ (fun _ _ _ => ?_)

theorem drainNext_holds (lln : ℕ) (s : State) (hφ : Holds φ s) : Holds φ (drainNext lln s) := by
  unfold drainNext
  repeat' with_reducible first | assumption | apply flagMissed_holds | apply dirPut_holds | apply drainTo_holds | apply holds_ite | split

theorem rebuildStart_holds (s : State) (hφ : Holds φ s) : Holds φ (rebuildStart s) := by
  unfold rebuildStart
  repeat' with_reducible first | assumption | apply bulkAsk_holds | apply askAdmission_holds | apply rebuildBases_holds | apply holds_ite | simp only [holds_mk] | refine holds_foldl ?_ (fun _ _ _ => ?_) | refine holds_foldl_snd ?_ (fun _ _ _ => ?_) | split

theorem trainAgain_holds (ch : ℕ) (s : State) (hφ : Holds φ s) : Holds φ (trainAgain ch s) := by
  unfold trainAgain
  repeat' with_reducible first | assumption | apply trainFail_holds | apply trainCa_holds | apply trainTo_holds | apply setCart_holds | apply holds_ite

theorem setFracs_holds (port : ℕ) (first : ℕ) (fracs : List Byte) (f : Byte → Ld → Ld) (s : State) (hφ : Holds φ s) : Holds φ (setFracs port first fracs f s) := by
  unfold setFracs
  repeat' with_reducible first | assumption | apply setLd_holds | refine holds_foldl ?_ (fun _ _ _ => ?_)

theorem injectedAlerts_holds (s : State) (hφ : Holds φ s) : Holds φ (injectedAlerts s) := by
  unfold injectedAlerts
  repeat' with_reducible first | assumption | apply alertSample_holds | apply fire_holds | refine holds_foldl ?_ (fun _ _ _ => ?_)

theorem mailboxReset_holds (p : ℕ) (s : State) (hφ : Holds φ s) : Holds φ (mailboxReset p s) := by
  unfold mailboxReset
  repeat' with_reducible first | assumption | apply holds_ite | dsimp only | apply holds_mk_host | refine hostFact_mk_all.2 ⟨?_, ?_, ?_⟩ | apply ldsFact_map | apply portsFact_mapIdx | apply reqsFact_filter | apply reqsFact_succ | refine reqsFact_nil (Holds.reqs ?_) | refine reqsFact_append_next ?_ rfl | apply Holds.lds | apply Holds.ports | apply Holds.reqs

theorem ceLeak_holds (s : State) (hφ : Holds φ s) : Holds φ (ceLeak s) := by
  unfold ceLeak
  repeat' with_reducible first | assumption | apply holds_ite | simp only [holds_mk]

theorem rejoinAdmission_holds (r : ℕ) (lfn : ℕ) (s : State) (hφ : Holds φ s) : Holds φ (rejoinAdmission r lfn s) := by
  unfold rejoinAdmission
  repeat' with_reducible first | assumption | apply peerSend_holds | apply holds_ite

theorem expose_holds (i : ℕ) (rnum : BitVec 48) (recs : List (ℕ × BitVec 48)) (out : List (ℕ × BitVec 48)) (s : State) (hφ : Holds φ s) : Holds φ (expose i rnum recs out s) := by
  unfold expose
  repeat' with_reducible first | assumption | apply setLd_holds | apply event_holds | simp only [holds_mk]

theorem loadShutdown_holds (s : State) (hφ : Holds φ s) : Holds φ (loadShutdown s) := by
  unfold loadShutdown
  split
  · exact holds_ite (holds_mk_therm hφ hφ.therm) hφ
  · exact hφ

theorem commandWrite_holds (i : ℕ) (lln : ℕ) (data : Line) (poisoned : Bool) (s : State) (hφ : Holds φ s) : Holds φ (commandWrite i lln data poisoned s) := by
  unfold commandWrite
  repeat' with_reducible first | assumption | apply storeWrite_holds | apply streamAll_holds | apply updLoad_holds | apply drainLine_holds | apply holds_ite

theorem addRemoval_holds (u : ℕ) (id : ℕ) (s : State) (hφ : Holds φ s) : Holds φ (addRemoval u id s) := by
  unfold addRemoval
  repeat' with_reducible first | assumption | simp only [holds_mk]

theorem ackStream_holds (i : ℕ) (bseq : BitVec 48) (live : BitVec 29) (s : State) (hφ : Holds φ s) : Holds φ (ackStream i bseq live s) := by
  unfold ackStream
  repeat' with_reducible first | assumption | apply setStream_holds | apply strictDone_holds | apply updLoad_holds | simp only [holds_mk] | dsimp only

theorem testEnds_holds (id : BitVec 16) (u : ℕ) (destr : Bool) (before : UState) (ok : Bool) (s : State) (hφ : Holds φ s) : Holds φ (testEnds id u destr before ok s) := by
  unfold testEnds
  repeat' with_reducible first | assumption | apply testFailure_holds | apply drawBits_holds | apply testBlocks_holds | apply setTest_holds | apply setUnit_holds | apply endJob_holds | apply holds_ite | simp only [apply_ite Prod.snd]

theorem askKeys_holds (r : ℕ) (s : State) (hφ : Holds φ s) : Holds φ (askKeys r s) := by
  unfold askKeys
  repeat' with_reducible first | assumption | apply peerSend_holds | simp only [holds_mk] | refine holds_foldl ?_ (fun _ _ _ => ?_) | split | apply portsFact_mapIdx | apply reqsFact_filter | apply reqsFact_succ | refine reqsFact_nil (Holds.reqs ?_) | refine reqsFact_append_next ?_ rfl | apply Holds.ports

theorem enterSpan_holds (d : SpanDesc) (r : ℕ) (st : ℕ) (s : State) (hφ : Holds φ s) : Holds φ (enterSpan d r st s) := by
  unfold enterSpan
  repeat' with_reducible first | assumption | apply setPeerSt_holds | simp only [holds_mk]

theorem pageDone_holds (b : ℕ) (m : ℕ) (p : ℕ) (s : State) (hφ : Holds φ s) : Holds φ (pageDone b m p s) := by
  unfold pageDone
  repeat' with_reducible first | assumption | apply askReadback_holds | apply setMember_holds | apply holds_ite | refine holds_foldl ?_ (fun _ _ _ => ?_)

theorem enableRail_holds (r : ℕ) (s : State) (hφ : Holds φ s) : Holds φ (enableRail r s) := by
  unfold enableRail
  repeat' with_reducible first | assumption | refine setPower_holds _ _ (fun _ => rfl) ?_

theorem readmitBegin_holds (u : ℕ) (s : State) (hφ : Holds φ s) : Holds φ (readmitBegin u s) := by
  unfold readmitBegin
  repeat' with_reducible first | assumption | apply startTraining_holds | apply askRaw_holds | apply sendPkt_holds | apply setPort_holds | apply send_holds | apply enableRail_holds | apply holds_ite | refine holds_foldl ?_ (fun _ _ _ => ?_) | split

theorem dropOps_holds (k : ℕ) (s : State) (hφ : Holds φ s) : Holds φ (dropOps k s) := by
  unfold dropOps
  repeat' with_reducible first | assumption | apply setBank_holds

theorem reportLive_holds (r : ℕ) (live : BitVec 29) (s : State) (hφ : Holds φ s) : Holds φ (reportLive r live s) := by
  unfold reportLive
  repeat' with_reducible first | assumption | apply updLoad_holds | apply setStream_holds | simp only [holds_mk] | split

theorem fwBegin_holds (c : Caller) (s : State) (hφ : Holds φ s) : Holds φ (fwBegin c s) := by
  unfold fwBegin
  repeat' with_reducible first | assumption | simp only [holds_mk]

theorem raise_holds (target : ℕ) (block : List Byte) (s : State) (hφ : Holds φ s) : Holds φ (raise target block s) := by
  unfold raise
  repeat' with_reducible first | assumption | refine setSec_holds _ _ (fun _ hx => hx) ?_ | apply setLevel_holds | apply holds_ite

theorem qosHolds_holds (p : ℕ) (i : ℕ) (s : State) (hφ : Holds φ s) : Holds φ (qosHolds p i s).2 := by
  unfold qosHolds
  repeat' with_reducible first | assumption | apply drawBool_holds | apply holds_ite | simp only [apply_ite Prod.snd]

theorem loadOption_holds (s : State) (hφ : Holds φ s) : Holds φ (loadOption s) := by
  have hr (o : List Byte) : ((List.range 32).map (optionRail o)).length = 32 := (List.length_map _).trans List.length_range
  unfold loadOption
  exact ⟨hostFact_mk.2 hφ.host, hφ.queue, sbFact_mk.2 hφ.sb, fun _ => hr _, thermFact_of_sensors (x := s.therm) rfl hφ.therm, hφ.sec⟩

theorem issueClears_holds (s : State) (hφ : Holds φ s) : Holds φ (issueClears s) := by
  unfold issueClears
  repeat' with_reducible first | assumption | apply tryFree_holds | apply setBand_holds | apply clearBand_holds | dsimp only | refine holds_foldl ?_ (fun _ _ _ => ?_)

theorem pruneSteps_holds (s : State) (hφ : Holds φ s) : Holds φ (pruneSteps s) := by
  unfold pruneSteps
  repeat' with_reducible first | assumption | apply saveSteps_holds | apply holds_ite | simp only [holds_mk]

theorem reclaim_holds (s : State) (hφ : Holds φ s) : Holds φ (reclaim s) := by
  unfold reclaim
  repeat' with_reducible first | assumption | apply reclaimBand_holds | simp only [holds_mk] | split

theorem applyBudget_holds (s : State) (hφ : Holds φ s) : Holds φ (applyBudget s) := by
  unfold applyBudget
  repeat' with_reducible first | assumption | refine setPower_holds _ _ (fun _ => rfl) ?_ | apply relayout_holds | apply updLoad_holds | apply holds_ite | apply holds_mk_host | refine hostFact_mk_all.2 ⟨?_, ?_, ?_⟩ | apply portsFact_mapIdx | apply reqsFact_filter | apply reqsFact_succ | refine reqsFact_nil (Holds.reqs ?_) | refine reqsFact_append_next ?_ rfl | apply Holds.lds | apply Holds.ports | apply Holds.reqs

theorem refold_holds (s : State) (hφ : Holds φ s) : Holds φ (refold s) := by
  unfold refold
  repeat' with_reducible first | assumption | apply event_holds | apply refreshBand_holds | apply holds_ite | simp only [holds_mk] | dsimp only | refine holds_foldl ?_ (fun _ _ _ => ?_)

theorem hbmScrub_holds (s : State) (hφ : Holds φ s) : Holds φ (hbmScrub s) := by
  unfold hbmScrub
  repeat' with_reducible first | assumption | apply scrubUnit_holds | apply holds_ite | simp only [holds_mk] | refine holds_foldl ?_ (fun _ _ _ => ?_)

theorem startMigration_holds (lfn : ℕ) (s : State) (hφ : Holds φ s) : Holds φ (startMigration lfn s) := by
  unfold startMigration
  repeat' with_reducible first | assumption | apply startMove_holds | split

theorem placeMoves_holds (s : State) (hφ : Holds φ s) : Holds φ (placeMoves s) := by
  unfold placeMoves
  repeat' with_reducible first | assumption | apply idle_holds | apply startPromotion_holds | apply startMigration_holds | apply holds_ite | refine holds_foldl ?_ (fun _ _ _ => ?_)

theorem runMoves_holds (s : State) (hφ : Holds φ s) : Holds φ (runMoves s) := by
  unfold runMoves
  repeat' with_reducible first | assumption | apply moveStep_holds | apply holds_ite | refine holds_foldl ?_ (fun _ _ _ => ?_)

theorem unstage_holds (s : State) (hφ : Holds φ s) : Holds φ (unstage s) := by
  unfold unstage
  repeat' with_reducible first | assumption | apply makeDue_holds | apply holds_ite | refine holds_foldl ?_ (fun _ _ _ => ?_)

theorem backgroundWork_holds (s : State) (hφ : Holds φ s) : Holds φ (backgroundWork s) := by
  unfold backgroundWork
  repeat' with_reducible first | assumption | apply drainStage_holds | apply logPressure_holds | apply hbmScrub_holds | apply recount_holds | apply reclaim_holds | apply refold_holds | apply resettle_holds | apply beyond_holds | apply unstage_holds | apply stage_holds | apply lostCopiesDue_holds | apply openFull_holds | apply placeDemotions_holds | apply placeMoves_holds | apply runMoves_holds | apply issueClears_holds | apply compactForeign_holds | apply scrubFrames_holds | apply issueScrub_holds | apply isolateDrained_holds | apply pruneSteps_holds | apply imageEnd_holds | apply mendFlushSets_holds | apply applyBudget_holds | apply advanceBatch_holds | apply holds_ite | simp only [holds_mk] | dsimp only | refine holds_foldl ?_ (fun _ _ _ => ?_)

theorem readDword_holds (o : ℕ) (s : State) (hφ : Holds φ s) : Holds φ (readDword o s).2 := by
  unfold readDword
  repeat' with_reducible first | assumption | apply drawBits_holds | apply mbRead_holds | dsimp only | split

theorem begin_holds (s : State) (hφ : Holds φ s) : Holds φ (begin s) := by
  unfold begin
  repeat' with_reducible first | assumption | simp only [holds_mk]

theorem swkGot_holds (tag : BitVec 32) (ok : Bool) (b : ReconBody) (s : State) (hφ : Holds φ s) : Holds φ (swkGot tag ok b s) := by
  unfold swkGot
  repeat' with_reducible first | assumption | apply storeSwk_holds | apply holds_ite | simp only [holds_mk]

theorem addWard_holds (pool : ℕ) (s : State) (hφ : Holds φ s) : Holds φ (addWard pool s) := by
  unfold addWard
  repeat' with_reducible first | assumption | apply takeSet_holds | simp only [holds_mk] | dsimp only | refine holds_times _ ?_ (fun _ _ => ?_) | split

theorem phase1End_holds (s : State) (hφ : Holds φ s) : Holds φ (phase1End s) := by
  unfold phase1End
  repeat' with_reducible first | assumption | apply loadShutdown_holds | apply loadKeys_holds | apply loadSpan_holds | apply loadUnits_holds | apply loadOption_holds | apply resolveAll_holds | apply startOn_holds | apply holds_ite | simp only [holds_mk]

theorem trainDone_holds (ch : ℕ) (s : State) (hφ : Holds φ s) : Holds φ (trainDone ch s) := by
  unfold trainDone
  repeat' with_reducible first | assumption | apply setCart_holds | apply loadRefs_holds | apply endJob_holds | apply setUnit_holds | apply markFailed_holds | simp only [holds_mk] | refine holds_foldl ?_ (fun _ _ _ => ?_) | split

theorem noticeDatahi_holds (s : State) (hφ : Holds φ s) : Holds φ (noticeDatahi s) := by
  unfold noticeDatahi
  repeat' with_reducible first | assumption | apply setQ_holds | apply send_holds | apply holds_ite

theorem jobShown_holds (s : State) (c : Caller) (id : ℕ) (hφ : Holds φ s) : Holds φ (jobShown s c id).2 := by
  unfold jobShown
  repeat' with_reducible first | assumption | apply drawBits_holds | simp only [holds_mk] | dsimp only | split

theorem powerOn_holds (s : State) (hφ : Holds φ s) : Holds φ (powerOn s) := by
  unfold powerOn
  repeat' with_reducible first | assumption | apply startOn_holds | refine setPower_holds _ _ (fun _ => rfl) ?_ | apply offTable_holds | simp only [holds_mk] | split

theorem peerFlush_holds (r : ℕ) (s : State) (hφ : Holds φ s) : Holds φ (peerFlush r s) := by
  unfold peerFlush
  repeat' with_reducible first | assumption | apply peerSend_holds | apply setPeer_holds | simp only [holds_mk] | refine holds_foldl ?_ (fun _ _ _ => ?_)

theorem remountAdvance_holds (s : State) (hφ : Holds φ s) : Holds φ (remountAdvance s) := by
  unfold remountAdvance
  repeat' with_reducible first | assumption | apply remountAsk_holds | apply endJob_holds | apply setOwnSt_holds | simp only [holds_mk] | dsimp only | split

theorem setMap_holds (s : State) (hφ : Holds φ s) : Holds φ (setMap s) := by
  unfold setMap
  repeat' with_reducible first | assumption | simp only [holds_mk]

theorem acceptOffers_holds (i : ℕ) (exts : List Extent) (s : State) (hφ : Holds φ s) : Holds φ (acceptOffers i exts s) := by
  unfold acceptOffers
  repeat' with_reducible first | assumption | apply setLd_holds | apply addRanges_holds | apply holds_ite | dsimp only | refine holds_foldl ?_ (fun _ _ _ => ?_)

theorem dieFault_holds (ch : ℕ) (die : ℕ) (cause : ℕ) (s : State) (hφ : Holds φ s) : Holds φ (dieFault ch die cause s) := by
  unfold dieFault
  repeat' with_reducible first | assumption | apply event_holds | apply setStack_holds | apply detectorIsolates_holds | apply setCart_holds | apply sendPkt_holds | apply dropWork_holds | apply holds_ite | simp only [holds_mk]

theorem railBack_holds (r : ℕ) (s : State) (hφ : Holds φ s) : Holds φ (railBack r s) := by
  unfold railBack
  repeat' with_reducible first | assumption | apply startTraining_holds | apply markFailed_holds | apply trainLink_holds | apply holds_ite | refine holds_foldl ?_ (fun _ _ _ => ?_)

theorem railReadmitted_holds (r : ℕ) (s : State) (hφ : Holds φ s) : Holds φ (railReadmitted r s) := by
  unfold railReadmitted
  repeat' with_reducible first | assumption | refine setPower_holds _ _ (fun _ => rfl) ?_ | apply endJob_holds | apply railBack_holds | apply setUnit_holds | simp only [holds_mk] | split

theorem dieReadmitted_holds (die : ℕ) (good : Bool) (s : State) (hφ : Holds φ s) : Holds φ (dieReadmitted die good s) := by
  unfold dieReadmitted
  repeat' with_reducible first | assumption | apply endJob_holds | apply markFailed_holds | apply setCart_holds | apply setUnit_holds | apply loadRefs_holds | simp only [holds_mk] | split

theorem setSpdm_holds (p : ℕ) (st : SpdmStage) (s : State) (hφ : Holds φ s) : Holds φ (setSpdm p st s) := by
  unfold setSpdm
  repeat' with_reducible first | assumption | apply setPort_holds

theorem ageCounts_holds (old : ℕ) (n : ℕ) (s : State) (hφ : Holds φ s) : Holds φ (ageCounts old n s) := by
  unfold ageCounts
  repeat' with_reducible first | assumption | apply holds_ite | simp only [holds_mk]

theorem setWindows_holds (s : State) (hφ : Holds φ s) : Holds φ (setWindows s) := by
  unfold setWindows
  repeat' with_reducible first | assumption | apply abandonBatch_holds | simp only [holds_mk] | refine holds_foldl ?_ (fun _ _ _ => ?_) | split

theorem readHeld_holds (p : ℕ) (i : ℕ) (s : State) (hφ : Holds φ s) : Holds φ (readHeld p i s).2 := by
  unfold readHeld
  repeat' with_reducible first | assumption | apply brakeHolds_holds | apply drawBool_holds | dsimp only | split

theorem unitAct_holds (o : UnitOp) (destr : Bool) (op : ℕ) (c : Caller) (u : ℕ) (s : State) (hφ : Holds φ s) : Holds φ (unitAct o destr op c u s).2 := by
  unfold unitAct
  repeat' with_reducible first | assumption | apply vStart_holds | apply setUnit_holds | apply endJob_holds | apply readmitBegin_holds | apply addRemoval_holds | dsimp only | split

theorem swkAdvance_holds (s : State) (hφ : Holds φ s) : Holds φ (swkAdvance s) := by
  unfold swkAdvance
  repeat' with_reducible first | assumption | apply drawBits_holds | apply storeSwk_holds | apply peerSend_holds | simp only [holds_mk] | dsimp only | split

theorem unbackedRead_holds (p : ℕ) (l : ℕ) (hpa : ℕ) (tag : BitVec 16) (s : State) (hφ : Holds φ s) : Holds φ (unbackedRead p l hpa tag s) := by
  unfold unbackedRead
  repeat' with_reducible first | assumption | apply unbackedEvent_holds | apply send_holds

theorem baseGot_holds (r : ℕ) (q : SpanRead) (part : ℕ) (parts : ℕ) (ok : Bool) (b : ReconBody) (s : State) (hφ : Holds φ s) : Holds φ (baseGot r q part parts ok b s) := by
  unfold baseGot
  repeat' with_reducible first | assumption | apply setRead_holds | dsimp only | split

theorem checkFrame_holds (ch : ℕ) (kind : ℕ) (h : FrameHdr) (crcGood : Bool) (s : State) (hφ : Holds φ s) : Holds φ (checkFrame ch kind h crcGood s).2 := by
  unfold checkFrame
  repeat' with_reducible first | assumption | apply fire_holds | apply setCart_holds | apply event_holds | apply holds_ite | simp only [holds_mk] | simp only [apply_ite Prod.snd]

theorem spanWork_holds (s : State) (hφ : Holds φ s) : Holds φ (spanWork s) := by
  unfold spanWork
  repeat' with_reducible first | assumption | apply reseed_holds | apply peerFlush_holds | apply sendWithheld_holds | apply rebuildPoll_holds | apply rebuildStart_holds | apply swkAdvance_holds | apply outriderFill_holds | apply remountAdvance_holds | apply joinAdvance_holds | apply holds_ite | dsimp only | refine holds_foldl ?_ (fun _ _ _ => ?_)

theorem hostRead_holds (p : ℕ) (l : ℕ) (tag : BitVec 16) (lln : ℕ) (s : State) (hφ : Holds φ s) : Holds φ (hostRead p l tag lln s) := by
  unfold hostRead
  repeat' with_reducible first | assumption | apply hostLook_holds | refine addReq_holds _ _ rfl ?_

theorem afterAlgs_holds (p : Nat) (f : State → State) (s : State) (h : ∀ s, Holds φ s → Holds φ (f s)) (hφ : Holds φ s) : Holds φ (afterAlgs p f s) := by
  unfold afterAlgs
  split
  · exact h s hφ
  · exact spdmErr_holds _ _ _ hφ

theorem inSession_holds (p : Nat) (w : Word) (f : State → State) (s : State) (h : ∀ s, Holds φ s → Holds φ (f s)) (hφ : Holds φ s) : Holds φ (inSession p w f s) := by
  unfold inSession
  repeat' split
  all_goals first | exact h s hφ | exact spdmErr_holds _ _ _ hφ

theorem onLd_holds (c : Caller) (b : Byte) (f : Nat → State → CAns × State) (s : State) (h : ∀ i s, Holds φ s → Holds φ (f i s).2) (hφ : Holds φ s) : Holds φ (onLd c b f s).2 := by
  unfold onLd
  split
  · exact h _ s hφ
  · exact hφ

theorem onPoison_holds (c : Caller) (b : Byte) (a : BitVec 46) (f : Nat → Nat → State → State) (s : State) (h : ∀ i l s, Holds φ s → Holds φ (f i l s)) (hφ : Holds φ s) : Holds φ (onPoison c b a f s).2 := by
  unfold onPoison
  refine onLd_holds _ _ _ _ (fun i s hs => ?_) hφ
  repeat' split
  all_goals first | exact hs | exact h _ _ _ hs

theorem vQuery_holds (f : State → List Byte) (s : State) (hφ : Holds φ s) : Holds φ (vQuery f s).2 := by
  exact hφ

theorem vWrite_holds (rs : State → List SbReq) (eff : State → State) (s : State) (h : ∀ s, Holds φ s → Holds φ (eff s)) (hφ : Holds φ s) : Holds φ (vWrite rs eff s).2 := by
  unfold vWrite
  extract_lets r
  have hr : Holds φ r.2 := sbCommand_holds _ _ hφ
  split
  · exact h _ hr
  · exact hr

theorem vStartWrite_holds (op : Nat) (c : Caller) (k : JobKind) (rs : State → List SbReq) (eff : State → State) (s : State) (h : ∀ s, Holds φ s → Holds φ (eff s)) (hφ : Holds φ s) : Holds φ (vStartWrite op c k rs eff s).2 := by
  unfold vStartWrite
  split
  · exact hφ
  · extract_lets r
    have hr : Holds φ r.2 := sbCommand_holds _ _ hφ
    split
    · exact vStart_holds _ _ _ _ (h _ hr)
    · exact hr

theorem fwPart_holds (o : Nat) (d : List Byte) (s t : State) (h : fwPart o d s = some t) (hφ : Holds φ s) : Holds φ t := by
  unfold fwPart at h
  extract_lets p at h
  split at h
  · cases h
  · cases h; exact holds_mk.2 hφ

theorem setStatic_holds (i units : Nat) (s t : State) (h : setStatic i units s = .ok t) (hφ : Holds φ s) : Holds φ t := by
  unfold setStatic at h
  extract_lets d cur want ls old s1 cut at h
  have h1 : Holds φ s1 := emptyAll_holds _ _ _ hφ
  clear_value s1
  repeat' split at h
  all_goals first | (cases h; done) | skip
  all_goals first | (cases h; exact hφ) | skip
  · cases h; exact sendMap_holds _ _ _ (setLd_holds _ _ _ h1)
  · extract_lets rs at h
    split at h
    · cases h
    · cases h; exact addRanges_holds _ _ _ hφ

end
end Sys2Proof.Machine
end

section
/-! SUPPORT. Every row keeps the three facts: the endings, the paths of a command, then each row. -/

namespace Sys2Proof.Machine
set_option linter.all false

section
variable {φ : Fact}

/-! ## The endings and the paths of a command -/

theorem ran_holds {s : State} (hφ : Holds φ s) : Answers (ran s) (Holds φ) :=
  ⟨_, rfl, settle_holds _ (linkInject_holds _ (gpfSettle_holds _ hφ))⟩

theorem onDoe_holds (p : Nat) (f : State → State) (s : State) (h : ∀ s, Holds φ s → Holds φ (f s)) (hφ : Holds φ s) :
    Answers (onDoe p f s) (Holds φ) := by
  unfold onDoe
  have h0 : Holds φ (begin s) := begin_holds _ hφ
  exact answers_ite (ran_holds h0) (ran_holds (h _ h0))

theorem onCxl_holds (c : Caller) (fm memory : Bool) (act : State → CAns × State) (after : State → State) (s : State)
    (ha : ∀ s, Holds φ s → Holds φ (act s).2) (hb : ∀ s, Holds φ s → Holds φ (after s)) (hφ : Holds φ s) :
    Answers (onCxl c fm memory act after s) (Holds φ) := by
  have h0 : Holds φ (begin s) := begin_holds _ hφ
  have hs (o : Out) : Answers (ran (send (begin s) o)) (Holds φ) := ran_holds (send_holds _ _ h0)
  unfold onCxl
  extract_lets s1 r s2
  have h2 : Holds φ s2 := send_holds _ _ (ha _ h0)
  clear_value s2
  exact answers_ite (ran_holds h0) (answers_ite (hs _) (answers_ite (hs _) (answers_ite (hs _) (answers_ite (hs _)
    (ran_holds (holds_ite (hb _ h2) h2))))))

theorem onVendor_holds (v : VSpec) (c : Caller) (inp : List Byte) (early late : State → Option VAns) (act : State → VAns × State)
    (after : State → State) (s : State) (ha : ∀ s, Holds φ s → Holds φ (act s).2) (hb : ∀ s, Holds φ s → Holds φ (after s)) (hφ : Holds φ s) :
    Answers (onVendor v c inp early late act after s) (Holds φ) := by
  have h0 : Holds φ (begin s) := begin_holds _ hφ
  have hs (o : Out) : Answers (ran (send (begin s) o)) (Holds φ) := ran_holds (send_holds _ _ h0)
  unfold onVendor
  extract_lets s1 r s2
  have h2 : Holds φ s2 := send_holds _ _ (ha _ h0)
  clear_value s2
  refine answers_ite (ran_holds h0) (answers_ite (hs _) (answers_ite (hs _) ?_))
  split
  · exact hs _
  · exact ran_holds (holds_ite (hb _ h2) h2)

theorem onUnit_holds (o : UnitOp) (op : Nat) (c : Caller) (inp : List Byte) (s : State) (hφ : Holds φ s) :
    Answers (onUnit o op c inp s) (Holds φ) := by
  unfold onUnit
  exact onVendor_holds _ _ _ _ _ _ _ _ (fun s hs => unitAct_holds _ _ _ _ _ s hs) (fun s hs => mediaNext_holds s hs) hφ

theorem onCache_holds (op : Nat) (inval : Bool) (c : Caller) (inp : List Byte) (s : State) (hφ : Holds φ s) :
    Answers (onCache op inval c inp s) (Holds φ) := by
  unfold onCache
  refine onVendor_holds _ _ _ _ _ _ _ _ (fun s hs => ?_) (fun s hs => mediaNext_holds _ (updLoad_holds _ (flushJobs_holds _ _ hs))) hφ
  extract_lets scope lines r
  have h1 : Holds φ r.2 := vStart_holds _ _ _ _ hs
  clear_value r
  split
  · exact holds_foldl h1 (fun s l hs => drainLine_holds _ _ _ hs)
  · exact h1

theorem onCmb_holds (slot ch msg : Nat) (m : Option CmbMsg) (serve : State → State) (s : State) (h : ∀ s, Holds φ s → Holds φ (serve s))
    (hφ : Holds φ s) : Answers (onCmb slot ch msg m serve s) (Holds φ) := by
  unfold onCmb
  refine ran_holds (mbAccess_holds _ _ _ _ (fun s hs => ?_) (begin_holds _ hφ))
  split
  · next x =>
    have ho := cmbOffer_holds slot ch msg x s hs
    exact holds_ite (h _ ho) ho
  · exact holds_ite (h _ hs) hs

theorem onQmb_holds (slot q msg : Nat) (m : Option QmbMsg) (v : State → Nat) (s : State) (hφ : Holds φ s) :
    Answers (onQmb slot q msg m v s) (Holds φ) := by
  unfold onQmb
  refine ran_holds (mbAccess_holds _ _ _ _ (fun s hs => ?_) (begin_holds _ hφ))
  split
  · next x =>
    have ho := qmbOffer_holds slot q msg x s hs
    exact holds_ite (qmbReply_holds _ _ _ _ _ ho) ho
  · exact holds_ite (qmbReply_holds _ _ _ _ _ hs) hs

theorem onEvent_holds (ch : Nat) (f : FrameHdr) (payload : BitVec 128) (act : State → State) (s : State)
    (h : ∀ s, Holds φ s → Holds φ (act s)) (hφ : Holds φ s) : Answers (onEvent ch f payload act s) (Holds φ) := by
  unfold onEvent
  have h1 := checkFrame_holds ch 2 f (payOk payload) (begin s) (begin_holds _ hφ)
  generalize checkFrame ch 2 f (payOk payload) (begin s) = r at h1 ⊢
  obtain ⟨c, s1⟩ := r
  replace h1 : Holds φ s1 := h1
  cases c with
  | good => exact ran_holds (mediaNext_holds _ (nextFrame_holds _ _ (h _ (holds_ite h1 (dropStale_holds _ _ _ h1)))))
  | again => exact ran_holds (mediaNext_holds _ h1)
  | bad => exact ran_holds (mediaNext_holds _ (nextFrame_holds _ _ h1))

theorem receive_holds (m : MsgHdr) (crc : Option PeerMsg) (act : Nat → State → State) (s : State)
    (h : ∀ i s, Holds φ s → Holds φ (act i s)) (hφ : Holds φ s) : Answers (receive m crc act s) (Holds φ) := by
  have h0 : Holds φ (begin s) := begin_holds _ hφ
  unfold receive
  refine answers_ite (ran_holds h0) ?_
  split
  · exact ran_holds (event_holds _ _ h0)
  · exact answers_ite (ran_holds h0) (ran_holds (mediaNext_holds _ (h _ _ (peerFlush_holds _ _ (setPeer_holds _ _ _ h0)))))

theorem setStatics_holds (l : List (Nat × Nat)) (r : Except Rc State) (t : State)
    (h : l.foldl (fun (a : Except Rc State) e => match a with | .ok s => setStatic e.1 e.2 s | .error r => .error r) r = .ok t)
    (hs : ∀ u, r = .ok u → Holds φ u) : Holds φ t := by
  induction l generalizing r with
  | nil => exact hs _ h
  | cons e l ih =>
    refine ih _ h (fun u hu => ?_)
    cases r with
    | error r => cases hu
    | ok v => exact setStatic_holds _ _ _ _ hu (hs _ rfl)

theorem id_holds {s : State} (hφ : Holds φ s) : Holds φ (id s) := hφ

/-! ## The rows -/


theorem execMemRead_holds (port : Fin 4) (ld : Fin 16) (hpa : BitVec 64) (tag : BitVec 16) (s : State) (hφ : Holds φ s) : Answers (execMemRead port ld hpa tag s) (Holds φ) := by
  unfold execMemRead
  repeat' with_reducible first | assumption | apply ran_holds | apply begin_holds | apply readHeld_holds | apply unbackedRead_holds | apply fire_holds | apply mediaNext_holds | apply hostRead_holds | apply answers_ite | split

theorem execMemWrite_holds (port : Fin 4) (ld : Fin 16) (hpa : BitVec 64) (tag : BitVec 16) (data : Line) (be : BitVec 64) (poisoned : Bool) (s : State) (hφ : Holds φ s) : Answers (execMemWrite port ld hpa tag data be poisoned s) (Holds φ) := by
  unfold execMemWrite
  repeat' with_reducible first | assumption | apply ran_holds | apply begin_holds | apply setLd_holds | apply unbackedWrite_holds | apply updLoad_holds | apply mediaNext_holds | apply hostWrite_holds | apply holds_ite | simp only [holds_mk] | split

theorem execWriteCreditGrant_holds (port : Fin 4) (ld : Fin 16) (s : State) (hφ : Holds φ s) : Answers (execWriteCreditGrant port ld s) (Holds φ) := by
  unfold execWriteCreditGrant
  repeat' with_reducible first | assumption | apply ran_holds | apply begin_holds | apply brakeHolds_holds | apply qosHolds_holds | apply updLoad_holds | apply send_holds | apply setLd_holds | apply holds_ite | apply answers_ite | simp only [holds_mk]

theorem execStrictAckTimeout_holds (port : Fin 4) (ld : Fin 16) (tag : BitVec 16) (s : State) (hφ : Holds φ s) : Answers (execStrictAckTimeout port ld tag s) (Holds φ) := by
  unfold execStrictAckTimeout
  extract_lets s1 i
  have h1 : Holds φ s1 := begin_holds _ hφ
  clear_value s1
  split
  · exact ran_holds h1
  · next q hq =>
    extract_lets rnum s2 recs s3
    have h2 : Holds φ s2 := holds_mk_host h1 (hostFact_mk_all.2 ⟨h1.lds, h1.ports, reqsFact_filter h1.reqs _⟩)
    have h3 : Holds φ s3 := expose_holds _ _ _ _ _ (updLoad_holds _ h2)
    have hn : s1.host.nextReq ≤ s3.host.nextReq := (holds_numbered _ _).1 (expose_holds _ _ _ _ _ (updLoad_holds _ ((holds_numbered _ s2).2 (Nat.le_refl _))))
    clear_value s3
    refine answers_ite (ran_holds ?_) (ran_holds (send_holds _ _ h3))
    exact holds_mk_host h3 (hostFact_mk_all.2 ⟨h3.lds, h3.ports, reqsFact_append h3.reqs (fun hk =>
      Nat.lt_of_lt_of_le (h1.reqs.1 hk q (List.mem_of_find?_eq_some hq)) hn)⟩)

theorem execRelaxedRecordStall_holds (stream : Fin 2) (rnum : BitVec 48) (s : State) (hφ : Holds φ s) : Answers (execRelaxedRecordStall stream rnum s) (Holds φ) := by
  unfold execRelaxedRecordStall
  repeat' with_reducible first | assumption | apply ran_holds | apply begin_holds | apply answers_ite | simp only [holds_mk]

theorem execRelaxedRecordExposed_holds (stream : Fin 2) (rnum : BitVec 48) (s : State) (hφ : Holds φ s) : Answers (execRelaxedRecordExposed stream rnum s) (Holds φ) := by
  unfold execRelaxedRecordExposed
  repeat' with_reducible first | assumption | apply ran_holds | apply begin_holds | apply expose_holds | dsimp only | split

theorem execDirtyAgeLimit_holds (lln : BitVec 40) (s : State) (hφ : Holds φ s) : Answers (execDirtyAgeLimit lln s) (Holds φ) := by
  unfold execDirtyAgeLimit
  repeat' with_reducible first | assumption | apply ran_holds | apply mediaNext_holds | apply updLoad_holds | apply drainLine_holds | apply begin_holds

theorem execPerstAssert_holds (grp : Fin 2) (s : State) (hφ : Holds φ s) : Answers (execPerstAssert grp s) (Holds φ) := by
  unfold execPerstAssert
  repeat' with_reducible first | assumption | apply ran_holds | apply begin_holds | apply mailboxReset_holds | apply portDown_holds | apply setPort_holds | apply setLd_holds | refine holds_foldl ?_ (fun _ _ _ => ?_)

theorem execPerstDeassert_holds (grp : Fin 2) (s : State) (hφ : Holds φ s) : Answers (execPerstDeassert grp s) (Holds φ) := by
  unfold execPerstDeassert
  repeat' with_reducible first | assumption | apply ran_holds | apply begin_holds | apply setPort_holds | apply trainLink_holds | refine holds_foldl ?_ (fun _ _ _ => ?_) | apply holds_mk_host | refine hostFact_mk_all.2 ⟨?_, ?_, ?_⟩ | apply ldsFact_mapIdx | apply portsFact_mapIdx | refine reqsFact_append_next ?_ rfl | refine reqsFact_map ?_ (fun _ => rfl) | apply Holds.lds | apply Holds.ports | apply Holds.reqs

theorem execLinkUp_holds (port : Fin 4) (width : BitVec 8) (rate : BitVec 8) (flit256 : Bool) (mld : Bool) (s : State) (hφ : Holds φ s) : Answers (execLinkUp port width rate flit256 mld s) (Holds φ) := by
  unfold execLinkUp
  repeat' with_reducible first | assumption | apply ran_holds | apply begin_holds | apply setPort_holds | apply endJob_holds | apply setUnit_holds | apply portState_holds | apply portEvent_holds | apply id_holds | apply holds_ite | apply answers_ite | split

theorem execSurpriseLinkDown_holds (port : Fin 4) (s : State) (hφ : Holds φ s) : Answers (execSurpriseLinkDown port s) (Holds φ) := by
  unfold execSurpriseLinkDown
  repeat' with_reducible first | assumption | apply ran_holds | apply linkLost_holds | apply begin_holds

theorem execRefclkLoss_holds (grp : Fin 2) (s : State) (hφ : Holds φ s) : Answers (execRefclkLoss grp s) (Holds φ) := by
  unfold execRefclkLoss
  repeat' with_reducible first | assumption | apply ran_holds | apply begin_holds | apply setPort_holds | apply linkLost_holds | refine holds_foldl ?_ (fun _ _ _ => ?_)

theorem execPowerStateChange_holds (port : Fin 4) (ld : Fin 16) (d3hot : Bool) (s : State) (hφ : Holds φ s) : Answers (execPowerStateChange port ld d3hot s) (Holds φ) := by
  unfold execPowerStateChange
  repeat' with_reducible first | assumption | apply ran_holds | apply setLd_holds | apply begin_holds

theorem execIdeIntegrityFailure_holds (port : Fin 4) (s : State) (hφ : Holds φ s) : Answers (execIdeIntegrityFailure port s) (Holds φ) := by
  unfold execIdeIntegrityFailure
  repeat' with_reducible first | assumption | apply ran_holds | apply begin_holds | apply aerError_holds | apply setPort_holds | apply portEvent_holds | apply setUnit_holds | apply holds_ite | apply answers_ite

theorem execGpfPhase1_holds (port : Fin 4) (s : State) (hφ : Holds φ s) : Answers (execGpfPhase1 port s) (Holds φ) := by
  unfold execGpfPhase1
  repeat' with_reducible first | assumption | apply ran_holds | apply begin_holds | apply send_holds | apply answers_ite

theorem execGpfPhase2_holds (port : Fin 4) (s : State) (hφ : Holds φ s) : Answers (execGpfPhase2 port s) (Holds φ) := by
  unfold execGpfPhase2
  repeat' with_reducible first | assumption | apply ran_holds | apply begin_holds | apply id_holds | apply answers_ite | apply holds_mk_host | refine hostFact_mk_all.2 ⟨?_, ?_, ?_⟩ | apply ldsFact_mapIdx | apply portsFact_mapIdx | refine reqsFact_append_next ?_ rfl | refine reqsFact_map ?_ (fun _ => rfl) | apply Holds.lds | apply Holds.ports | apply Holds.reqs

theorem execIdentifyMemoryDevice_holds (c : Caller) (ldb : Byte) (s : State) (hφ : Holds φ s) : Answers (execIdentifyMemoryDevice c ldb s) (Holds φ) := by
  unfold execIdentifyMemoryDevice
  repeat' with_reducible first | assumption | refine onCxl_holds _ _ _ _ _ _ (fun s hs => ?_) (fun s hs => ?_) ?_ | apply onLd_holds | apply tell_holds | apply id_holds | intro _

theorem execGetHealthInfo_holds (c : Caller) (ldb : Byte) (s : State) (hφ : Holds φ s) : Answers (execGetHealthInfo c ldb s) (Holds φ) := by
  unfold execGetHealthInfo
  repeat' with_reducible first | assumption | refine onCxl_holds _ _ _ _ _ _ (fun s hs => ?_) (fun s hs => ?_) ?_ | apply onLd_holds | apply tell_holds | apply id_holds | intro _

theorem execGetEventRecords_holds (c : Caller) (ldb : Byte) (log : Fin 5) (s : State) (hφ : Holds φ s) : Answers (execGetEventRecords c ldb log s) (Holds φ) := by
  unfold execGetEventRecords
  repeat' with_reducible first | assumption | refine onCxl_holds _ _ _ _ _ _ (fun s hs => ?_) (fun s hs => ?_) ?_ | apply onLd_holds | apply tell_holds | apply id_holds | intro _

theorem execClearEventRecords_holds (c : Caller) (ldb : Byte) (log : Fin 5) (all : Bool) (handles : List (BitVec 16)) (s : State) (hφ : Holds φ s) : Answers (execClearEventRecords c ldb log all handles s) (Holds φ) := by
  unfold execClearEventRecords
  repeat' with_reducible first | assumption | refine onCxl_holds _ _ _ _ _ _ (fun s hs => ?_) (fun s hs => ?_) ?_ | apply onLd_holds | apply tell_holds | apply did_holds | apply setLd_holds | apply id_holds | apply holds_ite | intro _ | simp only [apply_ite Prod.snd]

theorem execGetEventInterruptPolicy_holds (c : Caller) (ldb : Byte) (s : State) (hφ : Holds φ s) : Answers (execGetEventInterruptPolicy c ldb s) (Holds φ) := by
  unfold execGetEventInterruptPolicy
  repeat' with_reducible first | assumption | refine onCxl_holds _ _ _ _ _ _ (fun s hs => ?_) (fun s hs => ?_) ?_ | apply onLd_holds | apply tell_holds | apply id_holds | intro _

theorem execSetEventInterruptPolicy_holds (c : Caller) (ldb : Byte) (policy : BitVec 40) (s : State) (hφ : Holds φ s) : Answers (execSetEventInterruptPolicy c ldb policy s) (Holds φ) := by
  unfold execSetEventInterruptPolicy
  repeat' with_reducible first | assumption | refine onCxl_holds _ _ _ _ _ _ (fun s hs => ?_) (fun s hs => ?_) ?_ | apply onLd_holds | apply did_holds | apply setLd_holds | apply id_holds | intro _

theorem execGetSupportedLogs_holds (c : Caller) (ldb : Byte) (s : State) (hφ : Holds φ s) : Answers (execGetSupportedLogs c ldb s) (Holds φ) := by
  unfold execGetSupportedLogs
  repeat' with_reducible first | assumption | refine onCxl_holds _ _ _ _ _ _ (fun s hs => ?_) (fun s hs => ?_) ?_ | apply onLd_holds | apply tell_holds | apply id_holds | intro _

theorem execGetLog_holds (c : Caller) (ldb : Byte) (offset : BitVec 32) (length : BitVec 32) (s : State) (hφ : Holds φ s) : Answers (execGetLog c ldb offset length s) (Holds φ) := by
  unfold execGetLog
  repeat' with_reducible first | assumption | refine onCxl_holds _ _ _ _ _ _ (fun s hs => ?_) (fun s hs => ?_) ?_ | apply onLd_holds | apply tell_holds | apply id_holds | apply holds_ite | intro _ | simp only [apply_ite Prod.snd]

theorem execGetTimestamp_holds (c : Caller) (ldb : Byte) (s : State) (hφ : Holds φ s) : Answers (execGetTimestamp c ldb s) (Holds φ) := by
  unfold execGetTimestamp
  repeat' with_reducible first | assumption | refine onCxl_holds _ _ _ _ _ _ (fun s hs => ?_) (fun s hs => ?_) ?_ | apply onLd_holds | apply tell_holds | apply id_holds | intro _

theorem execSetTimestamp_holds (c : Caller) (ldb : Byte) (value : BitVec 64) (s : State) (hφ : Holds φ s) : Answers (execSetTimestamp c ldb value s) (Holds φ) := by
  unfold execSetTimestamp
  repeat' with_reducible first | assumption | refine onCxl_holds _ _ _ _ _ _ (fun s hs => ?_) (fun s hs => ?_) ?_ | apply onLd_holds | apply did_holds | apply setLd_holds | apply id_holds | intro _

theorem execGetFwInfo_holds (c : Caller) (ldb : Byte) (s : State) (hφ : Holds φ s) : Answers (execGetFwInfo c ldb s) (Holds φ) := by
  unfold execGetFwInfo
  repeat' with_reducible first | assumption | refine onCxl_holds _ _ _ _ _ _ (fun s hs => ?_) (fun s hs => ?_) ?_ | apply onLd_holds | apply tell_holds | apply id_holds | apply holds_ite | intro _

theorem execTransferFw_holds (c : Caller) (action : FwAction) (offset : BitVec 32) (data : List Byte) (s : State) (hφ : Holds φ s) : Answers (execTransferFw c action offset data s) (Holds φ) := by
  unfold execTransferFw
  refine onCxl_holds _ _ _ _ _ _ (fun s hs => ?_) (fun s hs => hs) hφ
  extract_lets bad
  have hb : ∀ s, Holds φ s → Holds φ (bad s).2 := fun s hs => tell_holds _ _ _ (holds_mk.2 hs)
  clear_value bad
  have h0 := fwBegin_holds c s hs
  repeat' split
  all_goals first
    | exact tell_holds _ _ _ hs
    | exact hb _ hs
    | exact hb _ h0
    | exact fwEnd_holds _ (fwPart_holds _ _ _ _ ‹_› h0)
    | exact did_holds _ (fwPart_holds _ _ _ _ ‹_› h0)
    | exact fwEnd_holds _ (fwPart_holds _ _ _ _ ‹_› hs)
    | exact did_holds _ (fwPart_holds _ _ _ _ ‹_› hs)
    | exact did_holds _ (holds_mk.2 hs)

theorem execActivateFw_holds (c : Caller) (online : Bool) (slot : BitVec 8) (s : State) (hφ : Holds φ s) : Answers (execActivateFw c online slot s) (Holds φ) := by
  unfold execActivateFw
  repeat' with_reducible first | assumption | refine onCxl_holds _ _ _ _ _ _ (fun s hs => ?_) (fun s hs => ?_) ?_ | apply tell_holds | apply did_holds | apply warmReset_holds | apply holds_ite | simp only [holds_mk] | simp only [apply_ite Prod.snd]

theorem execGetPoisonList_holds (c : Caller) (ldb : Byte) (addr : BitVec 46) (length : BitVec 46) (s : State) (hφ : Holds φ s) : Answers (execGetPoisonList c ldb addr length s) (Holds φ) := by
  unfold execGetPoisonList
  repeat' with_reducible first | assumption | refine onCxl_holds _ _ _ _ _ _ (fun s hs => ?_) (fun s hs => ?_) ?_ | apply onLd_holds | apply tell_holds | apply id_holds | apply holds_ite | intro _ | simp only [apply_ite Prod.snd]

theorem execInjectPoison_holds (c : Caller) (ldb : Byte) (addr : BitVec 46) (s : State) (hφ : Holds φ s) : Answers (execInjectPoison c ldb addr s) (Holds φ) := by
  unfold execInjectPoison
  repeat' with_reducible first | assumption | refine onCxl_holds _ _ _ _ _ _ (fun s hs => ?_) (fun s hs => ?_) ?_ | apply tell_holds | apply onPoison_holds | apply commandWrite_holds | apply poisonAdd_holds | apply mediaNext_holds | apply holds_ite | intro _ | simp only [apply_ite Prod.snd]

theorem execClearPoison_holds (c : Caller) (ldb : Byte) (addr : BitVec 46) (data : Line) (s : State) (hφ : Holds φ s) : Answers (execClearPoison c ldb addr data s) (Holds φ) := by
  unfold execClearPoison
  repeat' with_reducible first | assumption | refine onCxl_holds _ _ _ _ _ _ (fun s hs => ?_) (fun s hs => ?_) ?_ | apply onPoison_holds | apply commandWrite_holds | apply mediaNext_holds | intro _

theorem execSanitize_holds (c : Caller) (ldb : Byte) (s : State) (hφ : Holds φ s) : Answers (execSanitize c ldb s) (Holds φ) := by
  unfold execSanitize
  repeat' with_reducible first | assumption | refine onCxl_holds _ _ _ _ _ _ (fun s hs => ?_) (fun s hs => ?_) ?_ | apply onLd_holds | apply tell_holds | apply eraseStart_holds | apply mediaNext_holds | apply updLoad_holds | apply pollWork_holds | apply holds_ite | intro _ | simp only [apply_ite Prod.snd]

theorem execSecureErase_holds (c : Caller) (ldb : Byte) (s : State) (hφ : Holds φ s) : Answers (execSecureErase c ldb s) (Holds φ) := by
  unfold execSecureErase
  repeat' with_reducible first | assumption | refine onCxl_holds _ _ _ _ _ _ (fun s hs => ?_) (fun s hs => ?_) ?_ | apply onLd_holds | apply tell_holds | apply eraseStart_holds | apply mediaNext_holds | apply updLoad_holds | apply pollWork_holds | apply holds_ite | intro _ | simp only [apply_ite Prod.snd]

theorem execGetDynamicCapacityConfiguration_holds (c : Caller) (ldb : Byte) (s : State) (hφ : Holds φ s) : Answers (execGetDynamicCapacityConfiguration c ldb s) (Holds φ) := by
  unfold execGetDynamicCapacityConfiguration
  repeat' with_reducible first | assumption | refine onCxl_holds _ _ _ _ _ _ (fun s hs => ?_) (fun s hs => ?_) ?_ | apply onLd_holds | apply tell_holds | apply id_holds | intro _

theorem execGetDynamicCapacityExtentList_holds (c : Caller) (ldb : Byte) (s : State) (hφ : Holds φ s) : Answers (execGetDynamicCapacityExtentList c ldb s) (Holds φ) := by
  unfold execGetDynamicCapacityExtentList
  repeat' with_reducible first | assumption | refine onCxl_holds _ _ _ _ _ _ (fun s hs => ?_) (fun s hs => ?_) ?_ | apply onLd_holds | apply tell_holds | apply id_holds | intro _

theorem execAddDynamicCapacityResponse_holds (c : Caller) (ldb : Byte) (exts : List Extent) (s : State) (hφ : Holds φ s) : Answers (execAddDynamicCapacityResponse c ldb exts s) (Holds φ) := by
  unfold execAddDynamicCapacityResponse
  repeat' with_reducible first | assumption | refine onCxl_holds _ _ _ _ _ _ (fun s hs => ?_) (fun s hs => ?_) ?_ | apply onLd_holds | apply tell_holds | apply did_holds | apply acceptOffers_holds | apply mediaNext_holds | apply holds_ite | intro _ | simp only [apply_ite Prod.snd]

theorem execReleaseDynamicCapacity_holds (c : Caller) (ldb : Byte) (exts : List Extent) (s : State) (hφ : Holds φ s) : Answers (execReleaseDynamicCapacity c ldb exts s) (Holds φ) := by
  unfold execReleaseDynamicCapacity
  repeat' with_reducible first | assumption | apply ran_holds | apply begin_holds | apply send_holds | apply setLd_holds | apply mediaNext_holds | apply updLoad_holds | apply releaseGo_holds | apply holds_ite | apply answers_ite | split

theorem execUnsupportedOpcode_holds (c : Caller) (_opcode : BitVec 16) (s : State) (hφ : Holds φ s) : Answers (execUnsupportedOpcode c _opcode s) (Holds φ) := by
  unfold execUnsupportedOpcode
  repeat' with_reducible first | assumption | refine onCxl_holds _ _ _ _ _ _ (fun s hs => ?_) (fun s hs => ?_) ?_ | apply tell_holds | apply id_holds

theorem execFmIdentify_holds (c : Caller) (s : State) (hφ : Holds φ s) : Answers (execFmIdentify c s) (Holds φ) := by
  unfold execFmIdentify
  repeat' with_reducible first | assumption | refine onCxl_holds _ _ _ _ _ _ (fun s hs => ?_) (fun s hs => ?_) ?_ | apply tell_holds | apply id_holds | apply ldsFact_mapIdx | apply portsFact_mapIdx | refine reqsFact_append_next ?_ rfl | refine reqsFact_map ?_ (fun _ => rfl)

theorem execGetLdInfo_holds (c : Caller) (s : State) (hφ : Holds φ s) : Answers (execGetLdInfo c s) (Holds φ) := by
  unfold execGetLdInfo
  repeat' with_reducible first | assumption | refine onCxl_holds _ _ _ _ _ _ (fun s hs => ?_) (fun s hs => ?_) ?_ | apply tell_holds | apply id_holds

theorem execGetLdAllocations_holds (c : Caller) (port : Fin 4) (first : Fin 16) (count : BitVec 8) (s : State) (hφ : Holds φ s) : Answers (execGetLdAllocations c port first count s) (Holds φ) := by
  unfold execGetLdAllocations
  repeat' with_reducible first | assumption | refine onCxl_holds _ _ _ _ _ _ (fun s hs => ?_) (fun s hs => ?_) ?_ | apply tell_holds | apply id_holds

theorem execSetLdAllocations_holds (c : Caller) (port : Fin 4) (first : Fin 16) (units : List (BitVec 32)) (s : State) (hφ : Holds φ s) : Answers (execSetLdAllocations c port first units s) (Holds φ) := by
  unfold execSetLdAllocations
  refine onCxl_holds _ _ _ _ _ _ (fun s hs => ?_) (fun s hs => mediaNext_holds _ (updLoad_holds _ hs)) hφ
  split
  · exact tell_holds _ _ _ hs
  · extract_lets l cuts grows
    split
    · next h => exact did_holds _ (setStatics_holds _ _ _ h (fun u hu => by cases hu; exact hs))
    · exact tell_holds _ _ _ hs

theorem execGetQosControl_holds (c : Caller) (port : Fin 4) (s : State) (hφ : Holds φ s) : Answers (execGetQosControl c port s) (Holds φ) := by
  unfold execGetQosControl
  repeat' with_reducible first | assumption | refine onCxl_holds _ _ _ _ _ _ (fun s hs => ?_) (fun s hs => ?_) ?_ | apply tell_holds | apply id_holds

theorem execSetQosControl_holds (c : Caller) (port : Fin 4) (ctrl : BitVec 64) (s : State) (hφ : Holds φ s) : Answers (execSetQosControl c port ctrl s) (Holds φ) := by
  unfold execSetQosControl
  repeat' with_reducible first | assumption | refine onCxl_holds _ _ _ _ _ _ (fun s hs => ?_) (fun s hs => ?_) ?_ | apply did_holds | apply setPort_holds | apply id_holds

theorem execGetQosStatus_holds (c : Caller) (_port : Fin 4) (s : State) (hφ : Holds φ s) : Answers (execGetQosStatus c _port s) (Holds φ) := by
  unfold execGetQosStatus
  repeat' with_reducible first | assumption | refine onCxl_holds _ _ _ _ _ _ (fun s hs => ?_) (fun s hs => ?_) ?_ | apply drawBits_holds | apply tell_holds | apply id_holds

theorem execGetQosAllocatedBw_holds (c : Caller) (port : Fin 4) (first : Fin 16) (count : BitVec 8) (s : State) (hφ : Holds φ s) : Answers (execGetQosAllocatedBw c port first count s) (Holds φ) := by
  unfold execGetQosAllocatedBw
  repeat' with_reducible first | assumption | refine onCxl_holds _ _ _ _ _ _ (fun s hs => ?_) (fun s hs => ?_) ?_ | apply tell_holds | apply id_holds

theorem execSetQosAllocatedBw_holds (c : Caller) (port : Fin 4) (first : Fin 16) (fracs : List Byte) (s : State) (hφ : Holds φ s) : Answers (execSetQosAllocatedBw c port first fracs s) (Holds φ) := by
  unfold execSetQosAllocatedBw
  repeat' with_reducible first | assumption | refine onCxl_holds _ _ _ _ _ _ (fun s hs => ?_) (fun s hs => ?_) ?_ | apply tell_holds | apply did_holds | apply setFracs_holds | apply id_holds | apply holds_ite | simp only [apply_ite Prod.snd]

theorem execGetQosBwLimit_holds (c : Caller) (port : Fin 4) (first : Fin 16) (count : BitVec 8) (s : State) (hφ : Holds φ s) : Answers (execGetQosBwLimit c port first count s) (Holds φ) := by
  unfold execGetQosBwLimit
  repeat' with_reducible first | assumption | refine onCxl_holds _ _ _ _ _ _ (fun s hs => ?_) (fun s hs => ?_) ?_ | apply tell_holds | apply id_holds

theorem execSetQosBwLimit_holds (c : Caller) (port : Fin 4) (first : Fin 16) (fracs : List Byte) (s : State) (hφ : Holds φ s) : Answers (execSetQosBwLimit c port first fracs s) (Holds φ) := by
  unfold execSetQosBwLimit
  repeat' with_reducible first | assumption | refine onCxl_holds _ _ _ _ _ _ (fun s hs => ?_) (fun s hs => ?_) ?_ | apply tell_holds | apply did_holds | apply setFracs_holds | apply id_holds | apply holds_ite | simp only [apply_ite Prod.snd]

theorem execGetDcRegionConfiguration_holds (c : Caller) (ldb : Byte) (s : State) (hφ : Holds φ s) : Answers (execGetDcRegionConfiguration c ldb s) (Holds φ) := by
  unfold execGetDcRegionConfiguration
  repeat' with_reducible first | assumption | refine onCxl_holds _ _ _ _ _ _ (fun s hs => ?_) (fun s hs => ?_) ?_ | apply onLd_holds | apply tell_holds | apply id_holds | intro _

theorem execInitiateDynamicCapacityAdd_holds (c : Caller) (ldb : Byte) (ext : Extent) (extTag : Option (BitVec 128)) (s : State) (hφ : Holds φ s) : Answers (execInitiateDynamicCapacityAdd c ldb ext extTag s) (Holds φ) := by
  unfold execInitiateDynamicCapacityAdd
  repeat' with_reducible first | assumption | refine onCxl_holds _ _ _ _ _ _ (fun s hs => ?_) (fun s hs => ?_) ?_ | apply onLd_holds | apply tell_holds | apply did_holds | apply dcEvent_holds | apply setLd_holds | apply id_holds | apply holds_ite | apply answers_ite | intro _ | split

theorem execInitiateDynamicCapacityRelease_holds (c : Caller) (ldb : Byte) (ext : Extent) (s : State) (hφ : Holds φ s) : Answers (execInitiateDynamicCapacityRelease c ldb ext s) (Holds φ) := by
  unfold execInitiateDynamicCapacityRelease
  repeat' with_reducible first | assumption | refine onCxl_holds _ _ _ _ _ _ (fun s hs => ?_) (fun s hs => ?_) ?_ | apply onLd_holds | apply tell_holds | apply did_holds | apply dcEvent_holds | apply id_holds | apply holds_ite | intro _ | simp only [apply_ite Prod.snd]

theorem execGetDcRegionExtentLists_holds (c : Caller) (ldb : Byte) (s : State) (hφ : Holds φ s) : Answers (execGetDcRegionExtentLists c ldb s) (Holds φ) := by
  unfold execGetDcRegionExtentLists
  repeat' with_reducible first | assumption | refine onCxl_holds _ _ _ _ _ _ (fun s hs => ?_) (fun s hs => ?_) ?_ | apply onLd_holds | apply tell_holds | apply id_holds | intro _

theorem execUnknownVendorOpcode_holds (c : Caller) (opcode : BitVec 16) (inp : List Byte) (s : State) (hφ : Holds φ s) : Answers (execUnknownVendorOpcode c opcode inp s) (Holds φ) := by
  unfold execUnknownVendorOpcode
  repeat' with_reducible first | assumption | refine onVendor_holds _ _ _ _ _ _ _ _ (fun s hs => ?_) (fun s hs => ?_) ?_ | apply id_holds | apply ldsFact_mapIdx | apply portsFact_mapIdx | refine reqsFact_append_next ?_ rfl | refine reqsFact_map ?_ (fun _ => rfl)

theorem execMerlasIdentify_holds (c : Caller) (inp : List Byte) (s : State) (hφ : Holds φ s) : Answers (execMerlasIdentify c inp s) (Holds φ) := by
  unfold execMerlasIdentify
  repeat' with_reducible first | assumption | refine onVendor_holds _ _ _ _ _ _ _ _ (fun s hs => ?_) (fun s hs => ?_) ?_ | apply vQuery_holds | apply id_holds | apply ldsFact_mapIdx | apply portsFact_mapIdx | refine reqsFact_append_next ?_ rfl | refine reqsFact_map ?_ (fun _ => rfl)

theorem execCapQuery_holds (c : Caller) (inp : List Byte) (s : State) (hφ : Holds φ s) : Answers (execCapQuery c inp s) (Holds φ) := by
  unfold execCapQuery
  repeat' with_reducible first | assumption | refine onVendor_holds _ _ _ _ _ _ _ _ (fun s hs => ?_) (fun s hs => ?_) ?_ | apply vQuery_holds | apply id_holds | apply ldsFact_mapIdx | apply portsFact_mapIdx | refine reqsFact_append_next ?_ rfl | refine reqsFact_map ?_ (fun _ => rfl)

theorem execJobStatus_holds (c : Caller) (inp : List Byte) (s : State) (hφ : Holds φ s) : Answers (execJobStatus c inp s) (Holds φ) := by
  unfold execJobStatus
  repeat' with_reducible first | assumption | refine onVendor_holds _ _ _ _ _ _ _ _ (fun s hs => ?_) (fun s hs => ?_) ?_ | apply jobShown_holds | apply id_holds | apply ldsFact_mapIdx | apply portsFact_mapIdx | refine reqsFact_append_next ?_ rfl | refine reqsFact_map ?_ (fun _ => rfl)

theorem execUnitQuery_holds (c : Caller) (inp : List Byte) (s : State) (hφ : Holds φ s) : Answers (execUnitQuery c inp s) (Holds φ) := by
  unfold execUnitQuery
  repeat' with_reducible first | assumption | refine onVendor_holds _ _ _ _ _ _ _ _ (fun s hs => ?_) (fun s hs => ?_) ?_ | apply vQuery_holds | apply id_holds | apply ldsFact_mapIdx | apply portsFact_mapIdx | refine reqsFact_append_next ?_ rfl | refine reqsFact_map ?_ (fun _ => rfl)

theorem execUnitList_holds (c : Caller) (inp : List Byte) (s : State) (hφ : Holds φ s) : Answers (execUnitList c inp s) (Holds φ) := by
  unfold execUnitList
  repeat' with_reducible first | assumption | refine onVendor_holds _ _ _ _ _ _ _ _ (fun s hs => ?_) (fun s hs => ?_) ?_ | apply vQuery_holds | apply id_holds | apply ldsFact_mapIdx | apply portsFact_mapIdx | refine reqsFact_append_next ?_ rfl | refine reqsFact_map ?_ (fun _ => rfl)

theorem execUnitTest_holds (c : Caller) (inp : List Byte) (s : State) (hφ : Holds φ s) : Answers (execUnitTest c inp s) (Holds φ) := by
  unfold execUnitTest
  repeat' with_reducible first | assumption | refine onUnit_holds _ _ _ _ _ ?_

theorem execUnitBypass_holds (c : Caller) (inp : List Byte) (s : State) (hφ : Holds φ s) : Answers (execUnitBypass c inp s) (Holds φ) := by
  unfold execUnitBypass
  repeat' with_reducible first | assumption | refine onUnit_holds _ _ _ _ _ ?_

theorem execUnitIsolate_holds (c : Caller) (inp : List Byte) (s : State) (hφ : Holds φ s) : Answers (execUnitIsolate c inp s) (Holds φ) := by
  unfold execUnitIsolate
  repeat' with_reducible first | assumption | refine onUnit_holds _ _ _ _ _ ?_

theorem execUnitReadmit_holds (c : Caller) (inp : List Byte) (s : State) (hφ : Holds φ s) : Answers (execUnitReadmit c inp s) (Holds φ) := by
  unfold execUnitReadmit
  repeat' with_reducible first | assumption | refine onUnit_holds _ _ _ _ _ ?_

theorem execUnitRetire_holds (c : Caller) (inp : List Byte) (s : State) (hφ : Holds φ s) : Answers (execUnitRetire c inp s) (Holds φ) := by
  unfold execUnitRetire
  repeat' with_reducible first | assumption | refine onUnit_holds _ _ _ _ _ ?_

theorem execFoldStatus_holds (c : Caller) (inp : List Byte) (s : State) (hφ : Holds φ s) : Answers (execFoldStatus c inp s) (Holds φ) := by
  unfold execFoldStatus
  repeat' with_reducible first | assumption | refine onVendor_holds _ _ _ _ _ _ _ _ (fun s hs => ?_) (fun s hs => ?_) ?_ | apply vQuery_holds | apply id_holds | apply ldsFact_mapIdx | apply portsFact_mapIdx | refine reqsFact_append_next ?_ rfl | refine reqsFact_map ?_ (fun _ => rfl)

theorem execFramePin_holds (c : Caller) (inp : List Byte) (s : State) (hφ : Holds φ s) : Answers (execFramePin c inp s) (Holds φ) := by
  unfold execFramePin
  repeat' with_reducible first | assumption | refine onVendor_holds _ _ _ _ _ _ _ _ (fun s hs => ?_) (fun s hs => ?_) ?_ | apply vStart_holds | apply startPromotion_holds | apply setPinned_holds | apply mediaNext_holds | apply holds_ite | simp only [apply_ite Prod.snd] | apply ldsFact_mapIdx | apply portsFact_mapIdx | refine reqsFact_append_next ?_ rfl | refine reqsFact_map ?_ (fun _ => rfl)

theorem execFrameDiscard_holds (c : Caller) (inp : List Byte) (s : State) (hφ : Holds φ s) : Answers (execFrameDiscard c inp s) (Holds φ) := by
  unfold execFrameDiscard
  repeat' with_reducible first | assumption | refine onVendor_holds _ _ _ _ _ _ _ _ (fun s hs => ?_) (fun s hs => ?_) ?_ | apply emptyFrame_holds | apply vStart_holds | apply mediaNext_holds | apply updLoad_holds | apply holds_ite | refine holds_foldl ?_ (fun _ _ _ => ?_) | simp only [apply_ite Prod.snd] | apply ldsFact_mapIdx | apply portsFact_mapIdx | refine reqsFact_append_next ?_ rfl | refine reqsFact_map ?_ (fun _ => rfl)

theorem execCacheFlush_holds (c : Caller) (inp : List Byte) (s : State) (hφ : Holds φ s) : Answers (execCacheFlush c inp s) (Holds φ) := by
  unfold execCacheFlush
  repeat' with_reducible first | assumption | refine onCache_holds _ _ _ _ _ ?_

theorem execCacheInvalidate_holds (c : Caller) (inp : List Byte) (s : State) (hφ : Holds φ s) : Answers (execCacheInvalidate c inp s) (Holds φ) := by
  unfold execCacheInvalidate
  repeat' with_reducible first | assumption | refine onCache_holds _ _ _ _ _ ?_

theorem execLdCommitSet_holds (c : Caller) (inp : List Byte) (s : State) (hφ : Holds φ s) : Answers (execLdCommitSet c inp s) (Holds φ) := by
  unfold execLdCommitSet
  repeat' with_reducible first | assumption | refine onVendor_holds _ _ _ _ _ _ _ _ (fun s hs => ?_) (fun s hs => ?_) ?_ | apply setMode_holds | apply id_holds | apply ldsFact_mapIdx | apply portsFact_mapIdx | refine reqsFact_append_next ?_ rfl | refine reqsFact_map ?_ (fun _ => rfl)

theorem execSpanQuery_holds (c : Caller) (inp : List Byte) (s : State) (hφ : Holds φ s) : Answers (execSpanQuery c inp s) (Holds φ) := by
  unfold execSpanQuery
  repeat' with_reducible first | assumption | refine onVendor_holds _ _ _ _ _ _ _ _ (fun s hs => ?_) (fun s hs => ?_) ?_ | apply vQuery_holds | apply id_holds | apply ldsFact_mapIdx | apply portsFact_mapIdx | refine reqsFact_append_next ?_ rfl | refine reqsFact_map ?_ (fun _ => rfl)

theorem execPoolGet_holds (c : Caller) (inp : List Byte) (s : State) (hφ : Holds φ s) : Answers (execPoolGet c inp s) (Holds φ) := by
  unfold execPoolGet
  repeat' with_reducible first | assumption | refine onVendor_holds _ _ _ _ _ _ _ _ (fun s hs => ?_) (fun s hs => ?_) ?_ | apply vQuery_holds | apply id_holds | apply ldsFact_mapIdx | apply portsFact_mapIdx | refine reqsFact_append_next ?_ rfl | refine reqsFact_map ?_ (fun _ => rfl)

theorem execPoolSet_holds (c : Caller) (inp : List Byte) (s : State) (hφ : Holds φ s) : Answers (execPoolSet c inp s) (Holds φ) := by
  unfold execPoolSet
  repeat' with_reducible first | assumption | refine onVendor_holds _ _ _ _ _ _ _ _ (fun s hs => ?_) (fun s hs => ?_) ?_ | apply vWrite_holds | apply withPool_holds | apply id_holds | apply ldsFact_mapIdx | apply portsFact_mapIdx | refine reqsFact_append_next ?_ rfl | refine reqsFact_map ?_ (fun _ => rfl)

theorem execSpanJoin_holds (c : Caller) (inp : List Byte) (s : State) (hφ : Holds φ s) : Answers (execSpanJoin c inp s) (Holds φ) := by
  unfold execSpanJoin
  repeat' with_reducible first | assumption | refine onVendor_holds _ _ _ _ _ _ _ _ (fun s hs => ?_) (fun s hs => ?_) ?_ | apply vStartWrite_holds | apply allModes_holds | apply dropMoves_holds | apply enterSpan_holds | apply mediaNext_holds | intro _ | apply ldsFact_mapIdx | apply portsFact_mapIdx | refine reqsFact_append_next ?_ rfl | refine reqsFact_map ?_ (fun _ => rfl)

theorem execSpanUpdate_holds (c : Caller) (inp : List Byte) (s : State) (hφ : Holds φ s) : Answers (execSpanUpdate c inp s) (Holds φ) := by
  unfold execSpanUpdate
  repeat' with_reducible first | assumption | refine onVendor_holds _ _ _ _ _ _ _ _ (fun s hs => ?_) (fun s hs => ?_) ?_ | apply vWrite_holds | apply mediaNext_holds | simp only [holds_mk] | refine holds_foldl ?_ (fun _ _ _ => ?_) | intro _ | apply ldsFact_mapIdx | apply portsFact_mapIdx | refine reqsFact_append_next ?_ rfl | refine reqsFact_map ?_ (fun _ => rfl)

theorem execRemountBind_holds (c : Caller) (inp : List Byte) (s : State) (hφ : Holds φ s) : Answers (execRemountBind c inp s) (Holds φ) := by
  unfold execRemountBind
  repeat' with_reducible first | assumption | refine onVendor_holds _ _ _ _ _ _ _ _ (fun s hs => ?_) (fun s hs => ?_) ?_ | apply vStartWrite_holds | apply withPool_holds | apply allModes_holds | apply enterSpan_holds | apply mediaNext_holds | intro _ | apply holds_mk_host | refine hostFact_mk_all.2 ⟨?_, ?_, ?_⟩ | apply ldsFact_map | apply ldsFact_mapIdx | apply portsFact_mapIdx | refine reqsFact_append_next ?_ rfl | refine reqsFact_map ?_ (fun _ => rfl) | apply Holds.lds | apply Holds.ports | apply Holds.reqs

theorem execSpanLeave_holds (c : Caller) (inp : List Byte) (s : State) (hφ : Holds φ s) : Answers (execSpanLeave c inp s) (Holds φ) := by
  unfold execSpanLeave
  repeat' with_reducible first | assumption | refine onVendor_holds _ _ _ _ _ _ _ _ (fun s hs => ?_) (fun s hs => ?_) ?_ | apply vStartWrite_holds | apply mediaNext_holds | apply updLoad_holds | apply endJob_holds | apply leaveSpan_holds | apply id_holds | split | apply ldsFact_mapIdx | apply portsFact_mapIdx | refine reqsFact_append_next ?_ rfl | refine reqsFact_map ?_ (fun _ => rfl)

theorem execUnhitchRequest_holds (c : Caller) (inp : List Byte) (s : State) (hφ : Holds φ s) : Answers (execUnhitchRequest c inp s) (Holds φ) := by
  unfold execUnhitchRequest
  repeat' with_reducible first | assumption | refine onVendor_holds _ _ _ _ _ _ _ _ (fun s hs => ?_) (fun s hs => ?_) ?_ | apply mediaNext_holds | apply unhitch_holds | apply ldsFact_mapIdx | apply portsFact_mapIdx | refine reqsFact_append_next ?_ rfl | refine reqsFact_map ?_ (fun _ => rfl)

theorem execTimeQuery_holds (c : Caller) (inp : List Byte) (s : State) (hφ : Holds φ s) : Answers (execTimeQuery c inp s) (Holds φ) := by
  unfold execTimeQuery
  repeat' with_reducible first | assumption | refine onVendor_holds _ _ _ _ _ _ _ _ (fun s hs => ?_) (fun s hs => ?_) ?_ | apply vQuery_holds | apply id_holds | apply ldsFact_mapIdx | apply portsFact_mapIdx | refine reqsFact_append_next ?_ rfl | refine reqsFact_map ?_ (fun _ => rfl)

theorem execTimeMarkSet_holds (c : Caller) (inp : List Byte) (s : State) (hφ : Holds φ s) : Answers (execTimeMarkSet c inp s) (Holds φ) := by
  unfold execTimeMarkSet
  repeat' with_reducible first | assumption | refine onVendor_holds _ _ _ _ _ _ _ _ (fun s hs => ?_) (fun s hs => ?_) ?_ | apply id_holds | simp only [holds_mk] | apply ldsFact_mapIdx | apply portsFact_mapIdx | refine reqsFact_append_next ?_ rfl | refine reqsFact_map ?_ (fun _ => rfl)

theorem execTimeConfig_holds (c : Caller) (inp : List Byte) (s : State) (hφ : Holds φ s) : Answers (execTimeConfig c inp s) (Holds φ) := by
  unfold execTimeConfig
  repeat' with_reducible first | assumption | refine onVendor_holds _ _ _ _ _ _ _ _ (fun s hs => ?_) (fun s hs => ?_) ?_ | apply id_holds | simp only [holds_mk] | apply ldsFact_mapIdx | apply portsFact_mapIdx | refine reqsFact_append_next ?_ rfl | refine reqsFact_map ?_ (fun _ => rfl)

theorem execTtConfig_holds (c : Caller) (inp : List Byte) (s : State) (hφ : Holds φ s) : Answers (execTtConfig c inp s) (Holds φ) := by
  unfold execTtConfig
  repeat' with_reducible first | assumption | refine onVendor_holds _ _ _ _ _ _ _ _ (fun s hs => ?_) (fun s hs => ?_) ?_ | apply id_holds | simp only [holds_mk] | apply ldsFact_mapIdx | apply portsFact_mapIdx | refine reqsFact_append_next ?_ rfl | refine reqsFact_map ?_ (fun _ => rfl)

theorem execPowerQuery_holds (c : Caller) (inp : List Byte) (s : State) (hφ : Holds φ s) : Answers (execPowerQuery c inp s) (Holds φ) := by
  unfold execPowerQuery
  repeat' with_reducible first | assumption | refine onVendor_holds _ _ _ _ _ _ _ _ (fun s hs => ?_) (fun s hs => ?_) ?_ | apply vQuery_holds | apply id_holds | apply ldsFact_mapIdx | apply portsFact_mapIdx | refine reqsFact_append_next ?_ rfl | refine reqsFact_map ?_ (fun _ => rfl)

theorem execPowerTableSet_holds (c : Caller) (inp : List Byte) (s : State) (hφ : Holds φ s) : Answers (execPowerTableSet c inp s) (Holds φ) := by
  unfold execPowerTableSet
  repeat' with_reducible first | assumption | refine onVendor_holds _ _ _ _ _ _ _ _ (fun s hs => ?_) (fun s hs => ?_) ?_ | apply vWrite_holds | apply id_holds | apply ldsFact_mapIdx | apply portsFact_mapIdx | refine reqsFact_append_next ?_ rfl | refine reqsFact_map ?_ (fun _ => rfl)

theorem execPowerDown_holds (c : Caller) (inp : List Byte) (s : State) (hφ : Holds φ s) : Answers (execPowerDown c inp s) (Holds φ) := by
  unfold execPowerDown
  repeat' with_reducible first | assumption | refine onVendor_holds _ _ _ _ _ _ _ _ (fun s hs => ?_) (fun s hs => ?_) ?_ | apply powerOff_holds | apply ldsFact_mapIdx | apply portsFact_mapIdx | refine reqsFact_append_next ?_ rfl | refine reqsFact_map ?_ (fun _ => rfl)

theorem execPowerUp_holds (c : Caller) (inp : List Byte) (s : State) (hφ : Holds φ s) : Answers (execPowerUp c inp s) (Holds φ) := by
  unfold execPowerUp
  repeat' with_reducible first | assumption | refine onVendor_holds _ _ _ _ _ _ _ _ (fun s hs => ?_) (fun s hs => ?_) ?_ | apply vStart_holds | apply powerOn_holds | apply ldsFact_mapIdx | apply portsFact_mapIdx | refine reqsFact_append_next ?_ rfl | refine reqsFact_map ?_ (fun _ => rfl)

theorem execThermalQuery_holds (c : Caller) (inp : List Byte) (s : State) (hφ : Holds φ s) : Answers (execThermalQuery c inp s) (Holds φ) := by
  unfold execThermalQuery
  repeat' with_reducible first | assumption | refine onVendor_holds _ _ _ _ _ _ _ _ (fun s hs => ?_) (fun s hs => ?_) ?_ | apply vQuery_holds | apply id_holds | apply ldsFact_mapIdx | apply portsFact_mapIdx | refine reqsFact_append_next ?_ rfl | refine reqsFact_map ?_ (fun _ => rfl)

theorem execThermalConfig_holds (c : Caller) (inp : List Byte) (s : State) (hφ : Holds φ s) : Answers (execThermalConfig c inp s) (Holds φ) := by
  unfold execThermalConfig
  repeat' with_reducible first | assumption | refine onVendor_holds _ _ _ _ _ _ _ _ (fun s hs => ?_) (fun s hs => ?_) ?_ | refine setTherm_holds _ _ (fun _ => rfl) ?_ | apply id_holds | apply ldsFact_mapIdx | apply portsFact_mapIdx | refine reqsFact_append_next ?_ rfl | refine reqsFact_map ?_ (fun _ => rfl)

theorem execShutdownRecordClear_holds (c : Caller) (inp : List Byte) (s : State) (hφ : Holds φ s) : Answers (execShutdownRecordClear c inp s) (Holds φ) := by
  unfold execShutdownRecordClear
  repeat' with_reducible first | assumption | refine onVendor_holds _ _ _ _ _ _ _ _ (fun s hs => ?_) (fun s hs => ?_) ?_ | apply vWrite_holds | refine setTherm_holds _ _ (fun _ => rfl) ?_ | apply id_holds | intro _ | apply ldsFact_mapIdx | apply portsFact_mapIdx | refine reqsFact_append_next ?_ rfl | refine reqsFact_map ?_ (fun _ => rfl)

theorem execSboxQuery_holds (c : Caller) (inp : List Byte) (s : State) (hφ : Holds φ s) : Answers (execSboxQuery c inp s) (Holds φ) := by
  unfold execSboxQuery
  repeat' with_reducible first | assumption | refine onVendor_holds _ _ _ _ _ _ _ _ (fun s hs => ?_) (fun s hs => ?_) ?_ | apply vQuery_holds | apply id_holds | apply ldsFact_mapIdx | apply portsFact_mapIdx | refine reqsFact_append_next ?_ rfl | refine reqsFact_map ?_ (fun _ => rfl)

theorem execSboxRead_holds (c : Caller) (inp : List Byte) (s : State) (hφ : Holds φ s) : Answers (execSboxRead c inp s) (Holds φ) := by
  unfold execSboxRead
  repeat' with_reducible first | assumption | refine onVendor_holds _ _ _ _ _ _ _ _ (fun s hs => ?_) (fun s hs => ?_) ?_ | apply vQuery_holds | apply id_holds | apply ldsFact_mapIdx | apply portsFact_mapIdx | refine reqsFact_append_next ?_ rfl | refine reqsFact_map ?_ (fun _ => rfl)

theorem execOptionWrite_holds (c : Caller) (inp : List Byte) (s : State) (hφ : Holds φ s) : Answers (execOptionWrite c inp s) (Holds φ) := by
  unfold execOptionWrite
  repeat' with_reducible first | assumption | refine onVendor_holds _ _ _ _ _ _ _ _ (fun s hs => ?_) (fun s hs => ?_) ?_ | apply vWrite_holds | apply id_holds | apply ldsFact_mapIdx | apply portsFact_mapIdx | refine reqsFact_append_next ?_ rfl | refine reqsFact_map ?_ (fun _ => rfl)

theorem execCalOverlayWrite_holds (c : Caller) (inp : List Byte) (s : State) (hφ : Holds φ s) : Answers (execCalOverlayWrite c inp s) (Holds φ) := by
  unfold execCalOverlayWrite
  repeat' with_reducible first | assumption | refine onVendor_holds _ _ _ _ _ _ _ _ (fun s hs => ?_) (fun s hs => ?_) ?_ | apply vWrite_holds | apply id_holds | apply ldsFact_mapIdx | apply portsFact_mapIdx | refine reqsFact_append_next ?_ rfl | refine reqsFact_map ?_ (fun _ => rfl)

theorem execCalOverlayClear_holds (c : Caller) (inp : List Byte) (s : State) (hφ : Holds φ s) : Answers (execCalOverlayClear c inp s) (Holds φ) := by
  unfold execCalOverlayClear
  repeat' with_reducible first | assumption | refine onVendor_holds _ _ _ _ _ _ _ _ (fun s hs => ?_) (fun s hs => ?_) ?_ | apply vWrite_holds | apply id_holds | apply holds_ite | apply ldsFact_mapIdx | apply portsFact_mapIdx | refine reqsFact_append_next ?_ rfl | refine reqsFact_map ?_ (fun _ => rfl)

theorem execWaybillRead_holds (c : Caller) (inp : List Byte) (s : State) (hφ : Holds φ s) : Answers (execWaybillRead c inp s) (Holds φ) := by
  unfold execWaybillRead
  repeat' with_reducible first | assumption | refine onVendor_holds _ _ _ _ _ _ _ _ (fun s hs => ?_) (fun s hs => ?_) ?_ | apply vQuery_holds | apply id_holds | apply ldsFact_mapIdx | apply portsFact_mapIdx | refine reqsFact_append_next ?_ rfl | refine reqsFact_map ?_ (fun _ => rfl)

theorem execWaybillRate_holds (c : Caller) (inp : List Byte) (s : State) (hφ : Holds φ s) : Answers (execWaybillRate c inp s) (Holds φ) := by
  unfold execWaybillRate
  repeat' with_reducible first | assumption | refine onVendor_holds _ _ _ _ _ _ _ _ (fun s hs => ?_) (fun s hs => ?_) ?_ | apply setRate_holds | apply id_holds | apply ldsFact_mapIdx | apply portsFact_mapIdx | refine reqsFact_append_next ?_ rfl | refine reqsFact_map ?_ (fun _ => rfl)

theorem execInjectArm_holds (c : Caller) (inp : List Byte) (s : State) (hφ : Holds φ s) : Answers (execInjectArm c inp s) (Holds φ) := by
  unfold execInjectArm
  repeat' with_reducible first | assumption | refine onVendor_holds _ _ _ _ _ _ _ _ (fun s hs => ?_) (fun s hs => ?_) ?_ | apply arm_holds | apply ldsFact_mapIdx | apply portsFact_mapIdx | refine reqsFact_append_next ?_ rfl | refine reqsFact_map ?_ (fun _ => rfl)

theorem execInjectDisarm_holds (c : Caller) (inp : List Byte) (s : State) (hφ : Holds φ s) : Answers (execInjectDisarm c inp s) (Holds φ) := by
  unfold execInjectDisarm
  repeat' with_reducible first | assumption | refine onVendor_holds _ _ _ _ _ _ _ _ (fun s hs => ?_) (fun s hs => ?_) ?_ | apply disarm_holds | apply id_holds | apply ldsFact_mapIdx | apply portsFact_mapIdx | refine reqsFact_append_next ?_ rfl | refine reqsFact_map ?_ (fun _ => rfl)

theorem execSecQuery_holds (c : Caller) (inp : List Byte) (s : State) (hφ : Holds φ s) : Answers (execSecQuery c inp s) (Holds φ) := by
  unfold execSecQuery
  repeat' with_reducible first | assumption | refine onVendor_holds _ _ _ _ _ _ _ _ (fun s hs => ?_) (fun s hs => ?_) ?_ | apply vQuery_holds | apply id_holds | apply ldsFact_mapIdx | apply portsFact_mapIdx | refine reqsFact_append_next ?_ rfl | refine reqsFact_map ?_ (fun _ => rfl)

theorem execPlSet_holds (c : Caller) (inp : List Byte) (s : State) (hφ : Holds φ s) : Answers (execPlSet c inp s) (Holds φ) := by
  unfold execPlSet
  extract_lets target block
  refine onVendor_holds _ _ _ _ _ _ _ _ (fun s hs => ?_) (fun s hs => ?_) hφ
  · split
    · exact vStart_holds _ _ _ _ hs
    · exact vWrite_holds _ _ _ (fun s hs => raise_holds _ _ _ hs) hs
  · split
    · exact lowerBegin_holds _ hs
    · exact hs

theorem execLdKeyTransfer_holds (c : Caller) (inp : List Byte) (s : State) (hφ : Holds φ s) : Answers (execLdKeyTransfer c inp s) (Holds φ) := by
  unfold execLdKeyTransfer
  repeat' with_reducible first | assumption | refine onVendor_holds _ _ _ _ _ _ _ _ (fun s hs => ?_) (fun s hs => ?_) ?_ | apply vStart_holds | apply serveKey_holds | apply ldsFact_mapIdx | apply portsFact_mapIdx | refine reqsFact_append_next ?_ rfl | refine reqsFact_map ?_ (fun _ => rfl)

theorem execJobEnd_holds (job : BitVec 16) (ok : Bool) (s : State) (hφ : Holds φ s) : Answers (execJobEnd job ok s) (Holds φ) := by
  unfold execJobEnd
  repeat' with_reducible first | assumption | apply ran_holds | apply begin_holds | apply mediaNext_holds | apply testEnds_holds | apply endJob_holds | apply unitLeaves_holds | apply setUnit_holds | apply unitReturns_holds | apply id_holds | dsimp only | split

theorem execPlannedRemovalTimeout_holds (job : BitVec 16) (s : State) (hφ : Holds φ s) : Answers (execPlannedRemovalTimeout job s) (Holds φ) := by
  unfold execPlannedRemovalTimeout
  repeat' with_reducible first | assumption | apply ran_holds | apply begin_holds | apply endJob_holds | apply answers_ite | simp only [holds_mk]

theorem execUnitTestTimeout_holds (job : BitVec 16) (s : State) (hφ : Holds φ s) : Answers (execUnitTestTimeout job s) (Holds φ) := by
  unfold execUnitTestTimeout
  repeat' with_reducible first | assumption | apply ran_holds | apply begin_holds | apply setTest_holds | apply setUnit_holds | apply endJob_holds | apply id_holds | dsimp only | split

theorem execUnitIdleEntry_holds (unit : BitVec 24) (s : State) (hφ : Holds φ s) : Answers (execUnitIdleEntry unit s) (Holds φ) := by
  unfold execUnitIdleEntry
  repeat' with_reducible first | assumption | apply ran_holds | apply begin_holds | apply setUnit_holds | apply answers_ite

theorem execCmbEcho_holds (slot : Fin 6) (ch : Fin 32) (m : Option CmbMsg) (s : State) (hφ : Holds φ s) : Answers (execCmbEcho slot ch m s) (Holds φ) := by
  unfold execCmbEcho
  repeat' with_reducible first | assumption | refine onCmb_holds _ _ _ _ _ _ (fun s hs => ?_) ?_ | apply cmbReply_holds | apply holds_ite

theorem execCmbBankState_holds (slot : Fin 6) (ch : Fin 32) (m : Option CmbMsg) (s : State) (hφ : Holds φ s) : Answers (execCmbBankState slot ch m s) (Holds φ) := by
  unfold execCmbBankState
  repeat' with_reducible first | assumption | refine onCmb_holds _ _ _ _ _ _ (fun s hs => ?_) ?_ | apply cmbReply_holds | apply holds_ite

theorem execCmbInfo_holds (slot : Fin 6) (ch : Fin 32) (m : Option CmbMsg) (s : State) (hφ : Holds φ s) : Answers (execCmbInfo slot ch m s) (Holds φ) := by
  unfold execCmbInfo
  repeat' with_reducible first | assumption | refine onCmb_holds _ _ _ _ _ _ (fun s hs => ?_) ?_ | apply cmbReply_holds | apply infoAnswer_holds | apply holds_ite

theorem execCmbRawRead_holds (slot : Fin 6) (ch : Fin 32) (m : Option CmbMsg) (err : BitVec 640) (s : State) (hφ : Holds φ s) : Answers (execCmbRawRead slot ch m err s) (Holds φ) := by
  unfold execCmbRawRead
  repeat' with_reducible first | assumption | refine onCmb_holds _ _ _ _ _ _ (fun s hs => ?_) ?_ | apply cmbReply_holds | apply rawAnswer_holds | apply holds_ite

theorem execQmbEcho_holds (slot : Fin 6) (q : Fin 4) (m : Option QmbMsg) (s : State) (hφ : Holds φ s) : Answers (execQmbEcho slot q m s) (Holds φ) := by
  unfold execQmbEcho
  repeat' with_reducible first | assumption | refine onQmb_holds _ _ _ _ _ _ ?_

theorem execQmbChannels_holds (slot : Fin 6) (q : Fin 4) (m : Option QmbMsg) (s : State) (hφ : Holds φ s) : Answers (execQmbChannels slot q m s) (Holds φ) := by
  unfold execQmbChannels
  repeat' with_reducible first | assumption | refine onQmb_holds _ _ _ _ _ _ ?_

theorem execQmbSuspCount_holds (slot : Fin 6) (q : Fin 4) (m : Option QmbMsg) (s : State) (hφ : Holds φ s) : Answers (execQmbSuspCount slot q m s) (Holds φ) := by
  unfold execQmbSuspCount
  repeat' with_reducible first | assumption | refine onQmb_holds _ _ _ _ _ _ ?_

theorem execQmbSkew_holds (slot : Fin 6) (q : Fin 4) (m : Option QmbMsg) (s : State) (hφ : Holds φ s) : Answers (execQmbSkew slot q m s) (Holds φ) := by
  unfold execQmbSkew
  repeat' with_reducible first | assumption | refine onQmb_holds _ _ _ _ _ _ ?_

theorem execQmbRsphiRead_holds (q : Fin 4) (s : State) (hφ : Holds φ s) : Answers (execQmbRsphiRead q s) (Holds φ) := by
  unfold execQmbRsphiRead
  repeat' with_reducible first | assumption | apply ran_holds | apply mbAccess_holds | apply mbRead_holds | apply send_holds | apply begin_holds | intro _

theorem execSidebandDwordRead_holds (offset : BitVec 32) (s : State) (hφ : Holds φ s) : Answers (execSidebandDwordRead offset s) (Holds φ) := by
  unfold execSidebandDwordRead
  repeat' with_reducible first | assumption | apply ran_holds | apply begin_holds | apply send_holds | apply mbAccess_holds | apply mbRead_holds | intro _ | split

theorem execSidebandDwordWrite_holds (offset : BitVec 32) (data : Word) (s : State) (hφ : Holds φ s) : Answers (execSidebandDwordWrite offset data s) (Holds φ) := by
  unfold execSidebandDwordWrite
  repeat' with_reducible first | assumption | apply ran_holds | apply begin_holds | apply send_holds | apply mbAccess_holds | apply mbWrite_holds | intro _ | split

theorem execRegisterWrite_holds (port : Fin 4) (offset : BitVec 24) (data : BitVec 64) (be : Byte) (s : State) (hφ : Holds φ s) : Answers (execRegisterWrite port offset data be s) (Holds φ) := by
  unfold execRegisterWrite
  repeat' with_reducible first | assumption | apply ran_holds | apply begin_holds | apply accessDword_holds | apply holds_ite | apply answers_ite | refine holds_foldl ?_ (fun _ _ _ => ?_)

theorem execTimeNowloRead_holds (s : State) (hφ : Holds φ s) : Answers (execTimeNowloRead s) (Holds φ) := by
  unfold execTimeNowloRead
  repeat' with_reducible first | assumption | apply ran_holds | apply begin_holds | apply send_holds | simp only [holds_mk]

theorem execTimeMarkhiWrite_holds (value : Word) (s : State) (hφ : Holds φ s) : Answers (execTimeMarkhiWrite value s) (Holds φ) := by
  unfold execTimeMarkhiWrite
  repeat' with_reducible first | assumption | apply ran_holds | apply writeMarkHi_holds | apply begin_holds

theorem execNoticeFlagsRead_holds (s : State) (hφ : Holds φ s) : Answers (execNoticeFlagsRead s) (Holds φ) := by
  unfold execNoticeFlagsRead
  repeat' with_reducible first | assumption | apply ran_holds | apply begin_holds | apply setQ_holds | apply send_holds | apply holds_ite | simp only [holds_mk] | dsimp only | apply holds_mk_queue | simp only [queueFact_mk] | apply Holds.queue

theorem execNoticeDatahiRead_holds (s : State) (hφ : Holds φ s) : Answers (execNoticeDatahiRead s) (Holds φ) := by
  unfold execNoticeDatahiRead
  repeat' with_reducible first | assumption | apply ran_holds | apply noticeDatahi_holds | apply begin_holds

theorem execNoticeCtrlMark_holds (s : State) (hφ : Holds φ s) : Answers (execNoticeCtrlMark s) (Holds φ) := by
  unfold execNoticeCtrlMark
  repeat' with_reducible first | assumption | apply ran_holds | apply qMark_holds | apply begin_holds

theorem execNoticeCtrlRewind_holds (s : State) (hφ : Holds φ s) : Answers (execNoticeCtrlRewind s) (Holds φ) := by
  unfold execNoticeCtrlRewind
  repeat' with_reducible first | assumption | apply ran_holds | apply qRewind_holds | apply begin_holds

theorem execNoticeCtrlRelease_holds (n : BitVec 16) (s : State) (hφ : Holds φ s) : Answers (execNoticeCtrlRelease n s) (Holds φ) := by
  unfold execNoticeCtrlRelease
  repeat' with_reducible first | assumption | apply ran_holds | apply releaseWords_holds | apply begin_holds

theorem execReadstatCtrlClear_holds (inc : Byte) (s : State) (hφ : Holds φ s) : Answers (execReadstatCtrlClear inc s) (Holds φ) := by
  unfold execReadstatCtrlClear
  repeat' with_reducible first | assumption | apply ran_holds | apply clearReadstat_holds | apply begin_holds

theorem execWritestatCtrlClear_holds (inc : Byte) (s : State) (hφ : Holds φ s) : Answers (execWritestatCtrlClear inc s) (Holds φ) := by
  unfold execWritestatCtrlClear
  repeat' with_reducible first | assumption | apply ran_holds | apply clearWritestat_holds | apply begin_holds

theorem execCacheCtrlClear_holds (inc : Byte) (s : State) (hφ : Holds φ s) : Answers (execCacheCtrlClear inc s) (Holds φ) := by
  unfold execCacheCtrlClear
  repeat' with_reducible first | assumption | apply ran_holds | apply clearCachestat_holds | apply begin_holds

theorem execMchRetrainClear_holds (ch : Fin 32) (inc : Byte) (s : State) (hφ : Holds φ s) : Answers (execMchRetrainClear ch inc s) (Holds φ) := by
  unfold execMchRetrainClear
  repeat' with_reducible first | assumption | apply ran_holds | apply clearMch_holds | apply begin_holds

theorem execMmstatCtrlClear_holds (inc : Byte) (s : State) (hφ : Holds φ s) : Answers (execMmstatCtrlClear inc s) (Holds φ) := by
  unfold execMmstatCtrlClear
  repeat' with_reducible first | assumption | apply ran_holds | apply clearMmstat_holds | apply begin_holds

theorem execLpstatCtrlClear_holds (inc : Byte) (s : State) (hφ : Holds φ s) : Answers (execLpstatCtrlClear inc s) (Holds φ) := by
  unfold execLpstatCtrlClear
  repeat' with_reducible first | assumption | apply ran_holds | apply clearLpstat_holds | apply begin_holds

theorem execSpanstatCtrlClear_holds (inc : Byte) (s : State) (hφ : Holds φ s) : Answers (execSpanstatCtrlClear inc s) (Holds φ) := by
  unfold execSpanstatCtrlClear
  repeat' with_reducible first | assumption | apply ran_holds | apply clearSpanstat_holds | apply begin_holds

theorem execTtstatCtrlClear_holds (inc : Byte) (s : State) (hφ : Holds φ s) : Answers (execTtstatCtrlClear inc s) (Holds φ) := by
  unfold execTtstatCtrlClear
  repeat' with_reducible first | assumption | apply ran_holds | apply clearTtstat_holds | apply begin_holds

theorem execStrongboxCtrlClear_holds (inc : Byte) (s : State) (hφ : Holds φ s) : Answers (execStrongboxCtrlClear inc s) (Holds φ) := by
  unfold execStrongboxCtrlClear
  repeat' with_reducible first | assumption | apply ran_holds | apply clearStrongbox_holds | apply begin_holds

theorem execPwrCtrlClear_holds (inc : Byte) (s : State) (hφ : Holds φ s) : Answers (execPwrCtrlClear inc s) (Holds φ) := by
  unfold execPwrCtrlClear
  repeat' with_reducible first | assumption | apply ran_holds | apply clearPwr_holds | apply begin_holds

theorem execThrmstatCtrlClear_holds (inc : Byte) (s : State) (hφ : Holds φ s) : Answers (execThrmstatCtrlClear inc s) (Holds φ) := by
  unfold execThrmstatCtrlClear
  repeat' with_reducible first | assumption | apply ran_holds | apply clearThrmstat_holds | apply begin_holds

theorem execWbCtrlFlush_holds (s : State) (hφ : Holds φ s) : Answers (execWbCtrlFlush s) (Holds φ) := by
  unfold execWbCtrlFlush
  repeat' with_reducible first | assumption | apply ran_holds | apply startFlush_holds | apply begin_holds

theorem execInjCtrlArm_holds (s : State) (hφ : Holds φ s) : Answers (execInjCtrlArm s) (Holds φ) := by
  unfold execInjCtrlArm
  repeat' with_reducible first | assumption | apply ran_holds | apply regArm_holds | apply begin_holds

theorem execInjCtrlDisarm_holds (s : State) (hφ : Holds φ s) : Answers (execInjCtrlDisarm s) (Holds φ) := by
  unfold execInjCtrlDisarm
  repeat' with_reducible first | assumption | apply ran_holds | apply regDisarm_holds | apply begin_holds

theorem execInjectDurationEnd_holds (point : BitVec 16) (unit : BitVec 24) (s : State) (hφ : Holds φ s) : Answers (execInjectDurationEnd point unit s) (Holds φ) := by
  unfold execInjectDurationEnd
  repeat' with_reducible first | assumption | apply ran_holds | apply begin_holds | apply disarm_holds | dsimp only | split

theorem execQueueWrite_holds (q : Fin 64) (word : BitVec 64) (poison : Bool) (s : State) (hφ : Holds φ s) : Answers (execQueueWrite q word poison s) (Holds φ) := by
  unfold execQueueWrite
  repeat' with_reducible first | assumption | apply ran_holds | apply qPush_holds | apply begin_holds | apply queueRecord_holds | apply setQ_holds | apply holds_ite | apply answers_ite

theorem execQueueRead_holds (q : Fin 64) (s : State) (hφ : Holds φ s) : Answers (execQueueRead q s) (Holds φ) := by
  unfold execQueueRead
  repeat' with_reducible first | assumption | apply ran_holds | apply qTake_holds | apply begin_holds | apply onPoisoned_holds | apply send_holds | split

theorem execQueueMark_holds (q : Fin 64) (s : State) (hφ : Holds φ s) : Answers (execQueueMark q s) (Holds φ) := by
  unfold execQueueMark
  repeat' with_reducible first | assumption | apply ran_holds | apply qMark_holds | apply begin_holds

theorem execQueueRewind_holds (q : Fin 64) (s : State) (hφ : Holds φ s) : Answers (execQueueRewind q s) (Holds φ) := by
  unfold execQueueRewind
  repeat' with_reducible first | assumption | apply ran_holds | apply qRewind_holds | apply begin_holds

theorem execQueueRelease_holds (q : Fin 64) (n : Word) (s : State) (hφ : Holds φ s) : Answers (execQueueRelease q n s) (Holds φ) := by
  unfold execQueueRelease
  repeat' with_reducible first | assumption | apply ran_holds | apply releaseWords_holds | apply begin_holds

theorem execQueueTailExpiry_holds (q : Fin 64) (s : State) (hφ : Holds φ s) : Answers (execQueueTailExpiry q s) (Holds φ) := by
  unfold execQueueTailExpiry
  repeat' with_reducible first | assumption | apply ran_holds | apply begin_holds | apply setQ_holds | apply closeBatch_holds | apply send_holds | apply setEvt_holds | apply signal_holds | apply queueRecord_holds | apply holds_ite | simp only [holds_mk] | split

theorem execRead_holds (ch : Fin 32) (p : Pkt) (s : State) (hφ : Holds φ s) : Answers (execRead ch p s) (Holds φ) := by
  unfold execRead
  repeat' with_reducible first | assumption | apply ran_holds | apply onPacket_holds | apply setBank_holds | apply queueEvent_holds | apply begin_holds | simp only [holds_mk] | intro _ | split

theorem execRefset_holds (ch : Fin 32) (p : Pkt) (s : State) (hφ : Holds φ s) : Answers (execRefset ch p s) (Holds φ) := by
  unfold execRefset
  repeat' with_reducible first | assumption | apply ran_holds | apply onPacket_holds | apply setBank_holds | apply begin_holds

theorem execRefload_holds (ch : Fin 32) (p : Pkt) (data : BitVec 64) (s : State) (hφ : Holds φ s) : Answers (execRefload ch p data s) (Holds φ) := by
  unfold execRefload
  repeat' with_reducible first | assumption | apply ran_holds | apply onPacket_holds | apply setBank_holds | apply begin_holds

theorem execProg_holds (ch : Fin 32) (p : Pkt) (s : State) (hφ : Holds φ s) : Answers (execProg ch p s) (Holds φ) := by
  unfold execProg
  repeat' with_reducible first | assumption | apply ran_holds | apply onPacket_holds | apply illegalPkt_holds | apply setBank_holds | apply begin_holds | apply holds_ite | intro _

theorem execWdata_holds (ch : Fin 32) (p : Pkt) (data : BitVec 1024) (s : State) (hφ : Holds φ s) : Answers (execWdata ch p data s) (Holds φ) := by
  unfold execWdata
  repeat' with_reducible first | assumption | apply ran_holds | apply onPacket_holds | apply setBank_holds | apply undefTarget_holds | apply illegalPkt_holds | apply begin_holds | apply holds_ite | apply answers_ite | simp only [holds_mk] | intro _ | split

theorem execFprog_holds (ch : Fin 32) (p : Pkt) (data : MediaLine) (s : State) (hφ : Holds φ s) : Answers (execFprog ch p data s) (Holds φ) := by
  unfold execFprog
  repeat' with_reducible first | assumption | apply ran_holds | apply onPacket_holds | apply idle_holds | apply illegalPkt_holds | apply undefTarget_holds | apply setBank_holds | apply begin_holds | apply holds_ite | intro _

theorem execPfin_holds (ch : Fin 32) (p : Pkt) (s : State) (hφ : Holds φ s) : Answers (execPfin ch p s) (Holds φ) := by
  unfold execPfin
  repeat' with_reducible first | assumption | apply ran_holds | apply onPacket_holds | apply illegalPkt_holds | apply setBank_holds | apply begin_holds | apply holds_ite | intro _

theorem execPabort_holds (ch : Fin 32) (p : Pkt) (s : State) (hφ : Holds φ s) : Answers (execPabort ch p s) (Holds φ) := by
  unfold execPabort
  repeat' with_reducible first | assumption | apply ran_holds | apply onPacket_holds | apply queueEvent_holds | apply setBank_holds | apply idle_holds | apply illegalPkt_holds | apply begin_holds | simp only [holds_mk] | intro _ | split

theorem execClear_holds (ch : Fin 32) (p : Pkt) (stamp : BitVec 64) (s : State) (hφ : Holds φ s) : Answers (execClear ch p stamp s) (Holds φ) := by
  unfold execClear
  repeat' with_reducible first | assumption | apply ran_holds | apply onPacket_holds | apply illegalPkt_holds | apply dropBlock_holds | apply setStamp_holds | apply setBank_holds | apply begin_holds | apply holds_ite | intro _

theorem execSusp_holds (ch : Fin 32) (p : Pkt) (s : State) (hφ : Holds φ s) : Answers (execSusp ch p s) (Holds φ) := by
  unfold execSusp
  repeat' with_reducible first | assumption | apply ran_holds | apply onPacket_holds | apply setBank_holds | apply idle_holds | apply queueEvent_holds | apply begin_holds | simp only [holds_mk] | intro _ | split

theorem execResume_holds (ch : Fin 32) (p : Pkt) (s : State) (hφ : Holds φ s) : Answers (execResume ch p s) (Holds φ) := by
  unfold execResume
  repeat' with_reducible first | assumption | apply ran_holds | apply onPacket_holds | apply illegalPkt_holds | apply resumeNow_holds | apply setBank_holds | apply begin_holds | apply holds_ite | apply answers_ite | simp only [holds_mk] | intro _ | split

theorem execSrd_holds (ch : Fin 32) (p : Pkt) (s : State) (hφ : Holds φ s) : Answers (execSrd ch p s) (Holds φ) := by
  unfold execSrd
  repeat' with_reducible first | assumption | apply ran_holds | apply onInfo_holds | apply begin_holds

theorem execStatus_holds (ch : Fin 32) (p : Pkt) (s : State) (hφ : Holds φ s) : Answers (execStatus ch p s) (Holds φ) := by
  unfold execStatus
  repeat' with_reducible first | assumption | apply ran_holds | apply onInfo_holds | apply begin_holds

theorem execTemp_holds (ch : Fin 32) (p : Pkt) (s : State) (hφ : Holds φ s) : Answers (execTemp ch p s) (Holds φ) := by
  unfold execTemp
  repeat' with_reducible first | assumption | apply ran_holds | apply onInfo_holds | apply begin_holds

theorem execIdent_holds (ch : Fin 32) (p : Pkt) (s : State) (hφ : Holds φ s) : Answers (execIdent ch p s) (Holds φ) := by
  unfold execIdent
  repeat' with_reducible first | assumption | apply ran_holds | apply onInfo_holds | apply begin_holds

theorem execGetf_holds (ch : Fin 32) (p : Pkt) (s : State) (hφ : Holds φ s) : Answers (execGetf ch p s) (Holds φ) := by
  unfold execGetf
  repeat' with_reducible first | assumption | apply ran_holds | apply onInfo_holds | apply begin_holds

theorem execSetf_holds (ch : Fin 32) (p : Pkt) (s : State) (hφ : Holds φ s) : Answers (execSetf ch p s) (Holds φ) := by
  unfold execSetf
  repeat' with_reducible first | assumption | apply ran_holds | apply onPacket_holds | apply setStack_holds | apply begin_holds | simp only [holds_mk] | dsimp only

theorem execRdout_holds (ch : Fin 32) (p : Pkt) (s : State) (hφ : Holds φ s) : Answers (execRdout ch p s) (Holds φ) := by
  unfold execRdout
  repeat' with_reducible first | assumption | apply ran_holds | apply onPacket_holds | apply send_holds | apply setStack_holds | apply begin_holds | apply holds_ite | apply answers_ite | intro _ | split

theorem execZqcal_holds (ch : Fin 32) (p : Pkt) (s : State) (hφ : Holds φ s) : Answers (execZqcal ch p s) (Holds φ) := by
  unfold execZqcal
  repeat' with_reducible first | assumption | apply ran_holds | apply onPacket_holds | apply setStack_holds | apply begin_holds | apply holds_ite

theorem execCatrain_holds (ch : Fin 32) (p : Pkt) (s : State) (hφ : Holds φ s) : Answers (execCatrain ch p s) (Holds φ) := by
  unfold execCatrain
  repeat' with_reducible first | assumption | apply ran_holds | apply onPacket_holds | apply setStack_holds | apply begin_holds

theorem execWrpat_holds (ch : Fin 32) (p : Pkt) (data : BitVec 1024) (s : State) (hφ : Holds φ s) : Answers (execWrpat ch p data s) (Holds φ) := by
  unfold execWrpat
  repeat' with_reducible first | assumption | apply ran_holds | apply onPacket_holds | apply setStack_holds | apply begin_holds

theorem execRdpat_holds (ch : Fin 32) (p : Pkt) (s : State) (hφ : Holds φ s) : Answers (execRdpat ch p s) (Holds φ) := by
  unfold execRdpat
  repeat' with_reducible first | assumption | apply ran_holds | apply onPacket_holds | apply pendInfo_holds | apply begin_holds | intro _

theorem execDreset_holds (ch : Fin 32) (p : Pkt) (s : State) (hφ : Holds φ s) : Answers (execDreset ch p s) (Holds φ) := by
  unfold execDreset
  repeat' with_reducible first | assumption | apply ran_holds | apply onPacket_holds | apply setStack_holds | apply begin_holds | apply holds_ite

theorem execMediaUnknownOpcode_holds (ch : Fin 32) (op : Byte) (p : Pkt) (s : State) (hφ : Holds φ s) : Answers (execMediaUnknownOpcode ch op p s) (Holds φ) := by
  unfold execMediaUnknownOpcode
  repeat' with_reducible first | assumption | apply ran_holds | apply begin_holds | apply onPacket_holds | apply illegalPkt_holds | apply holds_ite

theorem execTreadEnd_holds (ch : Fin 32) (tag : BitVec 7) (err : BitVec 640) (s : State) (hφ : Holds φ s) : Answers (execTreadEnd ch tag err s) (Holds φ) := by
  unfold execTreadEnd
  repeat' with_reducible first | assumption | apply ran_holds | apply begin_holds | apply readRaw_holds | apply resumeNow_holds | apply setBank_holds | apply queueFrame_holds | apply holds_ite | split

theorem execTpbodyEnd_holds (ch : Fin 32) (die : Fin 16) (bank : Fin 8) (s : State) (hφ : Holds φ s) : Answers (execTpbodyEnd ch die bank s) (Holds φ) := by
  unfold execTpbodyEnd
  repeat' with_reducible first | assumption | apply ran_holds | apply begin_holds | apply queueEvent_holds | apply setBank_holds | apply startDeferred_holds | apply holds_ite | split

theorem execTpfinEnd_holds (ch : Fin 32) (die : Fin 16) (bank : Fin 8) (failAt : Option (BitVec 17)) (s : State) (hφ : Holds φ s) : Answers (execTpfinEnd ch die bank failAt s) (Holds φ) := by
  unfold execTpfinEnd
  repeat' with_reducible first | assumption | apply ran_holds | apply begin_holds | apply setBank_holds | apply queueEvent_holds | apply storeOp_holds | apply holds_ite | split

theorem execTclearEnd_holds (ch : Fin 32) (die : Fin 16) (bank : Fin 8) (ok : Bool) (s : State) (hφ : Holds φ s) : Answers (execTclearEnd ch die bank ok s) (Holds φ) := by
  unfold execTclearEnd
  repeat' with_reducible first | assumption | apply ran_holds | apply begin_holds | apply setBank_holds | apply setStamp_holds | apply queueEvent_holds | apply startDeferred_holds | apply holds_ite | split

theorem execTsuspEnd_holds (ch : Fin 32) (die : Fin 16) (bank : Fin 8) (s : State) (hφ : Holds φ s) : Answers (execTsuspEnd ch die bank s) (Holds φ) := by
  unfold execTsuspEnd
  repeat' with_reducible first | assumption | apply ran_holds | apply begin_holds | apply setBank_holds | apply startDeferred_holds | apply queueEvent_holds | apply holds_ite | split

theorem execTinfoEnd_holds (ch : Fin 32) (tag : BitVec 7) (s : State) (hφ : Holds φ s) : Answers (execTinfoEnd ch tag s) (Holds φ) := by
  unfold execTinfoEnd
  repeat' with_reducible first | assumption | apply ran_holds | apply begin_holds | apply setStack_holds | apply queueFrame_holds | split

theorem execTdrstEnd_holds (ch : Fin 32) (die : Fin 16) (cleared : Bool) (s : State) (hφ : Holds φ s) : Answers (execTdrstEnd ch die cleared s) (Holds φ) := by
  unfold execTdrstEnd
  repeat' with_reducible first | assumption | apply ran_holds | apply begin_holds | apply dropOps_holds | apply setStack_holds | apply endWindows_holds | apply setCart_holds | apply drawBits_holds | apply queueEvent_holds | apply mediaNext_holds | apply holds_ite | apply answers_ite | simp only [holds_mk] | refine holds_foldl ?_ (fun _ _ _ => ?_)

theorem execTinitEnd_holds (ch : Fin 32) (s : State) (hφ : Holds φ s) : Answers (execTinitEnd ch s) (Holds φ) := by
  unfold execTinitEnd
  repeat' with_reducible first | assumption | apply ran_holds | apply begin_holds | apply setStack_holds | apply trainTo_holds | apply holds_ite | apply answers_ite

theorem execMalertN_holds (ch : Fin 32) (s : State) (hφ : Holds φ s) : Answers (execMalertN ch s) (Holds φ) := by
  unfold execMalertN
  repeat' with_reducible first | assumption | apply ran_holds | apply mediaNext_holds | apply nextFrame_holds | apply begin_holds

theorem execLineFrame_holds (ch : Fin 32) (h : FrameHdr) (data : MediaLine) (s : State) (hφ : Holds φ s) : Answers (execLineFrame ch h data s) (Holds φ) := by
  unfold execLineFrame
  repeat' with_reducible first | assumption | apply ran_holds | apply checkFrame_holds | apply begin_holds | apply mediaNext_holds | apply readAnswered_holds | apply dropOut_holds | apply nextFrame_holds | apply dropStale_holds | apply fire_holds | dsimp only | split

theorem execInfoFrame_holds (ch : Fin 32) (h : FrameHdr) (payload : BitVec 128) (s : State) (hφ : Holds φ s) : Answers (execInfoFrame ch h payload s) (Holds φ) := by
  unfold execInfoFrame
  repeat' with_reducible first | assumption | apply ran_holds | apply checkFrame_holds | apply begin_holds | apply mediaNext_holds | apply nextFrame_holds | apply setCart_holds | apply dieFault_holds | apply fire_holds | apply dieReadmitted_holds | apply detectorIsolates_holds | apply identsDone_holds | apply holds_ite | simp only [holds_mk] | split

theorem execEmptyFrame_holds (ch : Fin 32) (h : FrameHdr) (s : State) (hφ : Holds φ s) : Answers (execEmptyFrame ch h s) (Holds φ) := by
  unfold execEmptyFrame
  repeat' with_reducible first | assumption | apply ran_holds | apply checkFrame_holds | apply begin_holds | apply mediaNext_holds | apply nextFrame_holds | apply setCart_holds | apply event_holds | apply trainFail_holds | apply holds_ite | simp only [holds_mk] | split

theorem execProgHeld_holds (ch : Fin 32) (h : FrameHdr) (payload : BitVec 128) (s : State) (hφ : Holds φ s) : Answers (execProgHeld ch h payload s) (Holds φ) := by
  unfold execProgHeld
  repeat' with_reducible first | assumption | refine onEvent_holds _ _ _ _ _ (fun s hs => ?_) ?_ | apply setCart_holds

theorem execProgDone_holds (ch : Fin 32) (h : FrameHdr) (payload : BitVec 128) (s : State) (hφ : Holds φ s) : Answers (execProgDone ch h payload s) (Holds φ) := by
  unfold execProgDone
  repeat' with_reducible first | assumption | refine onEvent_holds _ _ _ _ _ (fun s hs => ?_) ?_ | apply dropRun_holds | apply drainNext_holds | apply moveDone_holds | apply pageDone_holds | split

theorem execProgFail_holds (ch : Fin 32) (h : FrameHdr) (payload : BitVec 128) (s : State) (hφ : Holds φ s) : Answers (execProgFail ch h payload s) (Holds φ) := by
  unfold execProgFail
  repeat' with_reducible first | assumption | refine onEvent_holds _ _ _ _ _ (fun s hs => ?_) ?_ | apply setCart_holds | apply progFailed_holds | simp only [holds_mk] | split

theorem execClearDone_holds (ch : Fin 32) (h : FrameHdr) (payload : BitVec 128) (s : State) (hφ : Holds φ s) : Answers (execClearDone ch h payload s) (Holds φ) := by
  unfold execClearDone
  repeat' with_reducible first | assumption | refine onEvent_holds _ _ _ _ _ (fun s hs => ?_) ?_ | apply dropRun_holds | apply clearEnded_holds | split

theorem execClearFail_holds (ch : Fin 32) (h : FrameHdr) (payload : BitVec 128) (s : State) (hφ : Holds φ s) : Answers (execClearFail ch h payload s) (Holds φ) := by
  unfold execClearFail
  repeat' with_reducible first | assumption | refine onEvent_holds _ _ _ _ _ (fun s hs => ?_) ?_ | apply setCart_holds | apply progFailed_holds | simp only [holds_mk] | split

theorem execSuspended_holds (ch : Fin 32) (h : FrameHdr) (payload : BitVec 128) (s : State) (hφ : Holds φ s) : Answers (execSuspended ch h payload s) (Holds φ) := by
  unfold execSuspended
  repeat' with_reducible first | assumption | refine onEvent_holds _ _ _ _ _ (fun s hs => ?_) ?_

theorem execSuspNoop_holds (ch : Fin 32) (h : FrameHdr) (payload : BitVec 128) (s : State) (hφ : Holds φ s) : Answers (execSuspNoop ch h payload s) (Holds φ) := by
  unfold execSuspNoop
  repeat' with_reducible first | assumption | refine onEvent_holds _ _ _ _ _ (fun s hs => ?_) ?_ | apply setCart_holds

theorem execReadDenied_holds (ch : Fin 32) (h : FrameHdr) (payload : BitVec 128) (s : State) (hφ : Holds φ s) : Answers (execReadDenied ch h payload s) (Holds φ) := by
  unfold execReadDenied
  repeat' with_reducible first | assumption | refine onEvent_holds _ _ _ _ _ (fun s hs => ?_) ?_ | apply dropOut_holds | apply readLineRes_holds | apply askRead_holds | split

theorem execIllegal_holds (ch : Fin 32) (h : FrameHdr) (payload : BitVec 128) (s : State) (hφ : Holds φ s) : Answers (execIllegal ch h payload s) (Holds φ) := by
  unfold execIllegal
  repeat' with_reducible first | assumption | refine onEvent_holds _ _ _ _ _ (fun s hs => ?_) ?_ | apply readAnswered_holds | apply dropOut_holds | apply progFailed_holds | split

theorem execCaCheck_holds (ch : Fin 32) (h : FrameHdr) (payload : BitVec 128) (s : State) (hφ : Holds φ s) : Answers (execCaCheck ch h payload s) (Holds φ) := by
  unfold execCaCheck
  repeat' with_reducible first | assumption | refine onEvent_holds _ _ _ _ _ (fun s hs => ?_) ?_ | apply setCart_holds | apply reissue_holds | apply requestRetrain_holds | apply holds_ite

theorem execThermAlert_holds (ch : Fin 32) (h : FrameHdr) (payload : BitVec 128) (s : State) (hφ : Holds φ s) : Answers (execThermAlert ch h payload s) (Holds φ) := by
  unfold execThermAlert
  repeat' with_reducible first | assumption | refine onEvent_holds _ _ _ _ _ (fun s hs => ?_) ?_ | apply alertSample_holds

theorem execDieFault_holds (ch : Fin 32) (h : FrameHdr) (payload : BitVec 128) (s : State) (hφ : Holds φ s) : Answers (execDieFault ch h payload s) (Holds φ) := by
  unfold execDieFault
  repeat' with_reducible first | assumption | refine onEvent_holds _ _ _ _ _ (fun s hs => ?_) ?_ | apply dieFault_holds

theorem execPaborted_holds (ch : Fin 32) (h : FrameHdr) (payload : BitVec 128) (s : State) (hφ : Holds φ s) : Answers (execPaborted ch h payload s) (Holds φ) := by
  unfold execPaborted
  repeat' with_reducible first | assumption | refine onEvent_holds _ _ _ _ _ (fun s hs => ?_) ?_ | apply dropRun_holds | apply drainRetry_holds | apply moveLost_holds | apply abandonBatch_holds | dsimp only | split

theorem execReadTimeout_holds (ch : Fin 32) (tag : BitVec 7) (s : State) (hφ : Holds φ s) : Answers (execReadTimeout ch tag s) (Holds φ) := by
  unfold execReadTimeout
  repeat' with_reducible first | assumption | apply ran_holds | apply begin_holds | apply event_holds | apply dropOut_holds | apply setCart_holds | apply setUnit_holds | apply mediaNext_holds | apply readAnswered_holds | apply detectorIsolates_holds | apply trainCa_holds | apply holds_ite | simp only [holds_mk] | split

theorem execHoldLimit_holds (ch : Fin 32) (die : Fin 16) (bank : Fin 8) (s : State) (hφ : Holds φ s) : Answers (execHoldLimit ch die bank s) (Holds φ) := by
  unfold execHoldLimit
  repeat' with_reducible first | assumption | apply ran_holds | apply begin_holds | apply setBank_holds | apply sendPkt_holds | apply holds_ite | simp only [holds_mk] | split

theorem execHeldReadReroute_holds (ch : Fin 32) (die : Fin 16) (bank : Fin 8) (s : State) (hφ : Holds φ s) : Answers (execHeldReadReroute ch die bank s) (Holds φ) := by
  unfold execHeldReadReroute
  repeat' with_reducible first | assumption | apply ran_holds | apply begin_holds | apply setCart_holds | apply readLineRes_holds | apply askRead_holds | apply mediaNext_holds | apply holds_ite | apply answers_ite | simp only [holds_mk] | refine holds_foldl ?_ (fun _ _ _ => ?_) | split

theorem execChannelTrainTimeout_holds (ch : Fin 32) (s : State) (hφ : Holds φ s) : Answers (execChannelTrainTimeout ch s) (Holds φ) := by
  unfold execChannelTrainTimeout
  repeat' with_reducible first | assumption | apply ran_holds | apply begin_holds | apply mediaNext_holds | apply trainFail_holds | apply answers_ite

theorem execZqcalTimer_holds (ch : Fin 32) (s : State) (hφ : Holds φ s) : Answers (execZqcalTimer ch s) (Holds φ) := by
  unfold execZqcalTimer
  repeat' with_reducible first | assumption | apply ran_holds | apply begin_holds | apply sendPkt_holds | apply answers_ite

theorem execSpanReadTimeout_holds (tag : BitVec 32) (s : State) (hφ : Holds φ s) : Answers (execSpanReadTimeout tag s) (Holds φ) := by
  unfold execSpanReadTimeout
  repeat' with_reducible first | assumption | apply ran_holds | apply begin_holds | apply rebuildFail_holds | apply mediaNext_holds | apply finishRead_holds | apply event_holds | simp only [holds_mk] | split

theorem execStageBoundary_holds (s : State) (hφ : Holds φ s) : Answers (execStageBoundary s) (Holds φ) := by
  unfold execStageBoundary
  repeat' with_reducible first | assumption | apply ran_holds | apply begin_holds | apply takeSources_holds | apply lfsrRun_holds | apply advanceFtime_holds | apply setAllotment_holds | apply abandonMissing_holds | apply setWindows_holds | apply placeRemovals_holds | apply activateLead_holds | apply setMap_holds | apply cycleStart_holds | apply heartbeats_holds | apply closeHotWindow_holds | apply sendTimetable_holds | apply ageCounts_holds | apply spanWork_holds | apply backgroundWork_holds | apply rejoinAdvance_holds | apply replayStep_holds | apply lowerAdvance_holds | apply pollWork_holds | apply mediaNext_holds | apply updLoad_holds | apply holds_ite | apply answers_ite | simp only [holds_mk]

theorem execFoldBatchTimer_holds (s : State) (hφ : Holds φ s) : Answers (execFoldBatchTimer s) (Holds φ) := by
  unfold execFoldBatchTimer
  repeat' with_reducible first | assumption | apply ran_holds | apply mediaNext_holds | apply openBatch_holds | apply begin_holds

theorem execFoldAgeTrigger_holds (lfn : BitVec 24) (s : State) (hφ : Holds φ s) : Answers (execFoldAgeTrigger lfn s) (Holds φ) := by
  unfold execFoldAgeTrigger
  repeat' with_reducible first | assumption | apply ran_holds | apply begin_holds | apply makeDue_holds | apply holds_ite

theorem execFastFrameIdleTimeout_holds (lfn : BitVec 24) (s : State) (hφ : Holds φ s) : Answers (execFastFrameIdleTimeout lfn s) (Holds φ) := by
  unfold execFastFrameIdleTimeout
  repeat' with_reducible first | assumption | apply ran_holds | apply begin_holds | apply makeDue_holds | apply holds_ite

theorem execCheckpointImageStart_holds (s : State) (hφ : Holds φ s) : Answers (execCheckpointImageStart s) (Holds φ) := by
  unfold execCheckpointImageStart
  repeat' with_reducible first | assumption | apply ran_holds | apply begin_holds | apply piBaseStart_holds | apply imageStart_holds | apply holds_ite

theorem execDirtyMapGeneration_holds (s : State) (hφ : Holds φ s) : Answers (execDirtyMapGeneration s) (Holds φ) := by
  unfold execDirtyMapGeneration
  repeat' with_reducible first | assumption | apply ran_holds | apply begin_holds | apply mapWrite_holds | apply answers_ite | simp only [holds_mk]

theorem execPatchLogRescanEnd_holds (s : State) (hφ : Holds φ s) : Answers (execPatchLogRescanEnd s) (Holds φ) := by
  unfold execPatchLogRescanEnd
  repeat' with_reducible first | assumption | apply ran_holds | apply begin_holds | apply logRead_holds | apply rescanFrame_holds | apply mediaNext_holds | apply updLoad_holds | simp only [holds_mk] | refine holds_foldl ?_ (fun _ _ _ => ?_)

theorem execFrameTableRestoreEnd_holds (lfn : BitVec 24) (s : State) (hφ : Holds φ s) : Answers (execFrameTableRestoreEnd lfn s) (Holds φ) := by
  unfold execFrameTableRestoreEnd
  repeat' with_reducible first | assumption | apply ran_holds | apply begin_holds | apply mediaNext_holds | apply ftCommit_holds | apply holds_ite | apply answers_ite | simp only [holds_mk]

theorem execHbmRemapCopyEnd_holds (hch : Fin 64) (s : State) (hφ : Holds φ s) : Answers (execHbmRemapCopyEnd hch s) (Holds φ) := by
  unfold execHbmRemapCopyEnd
  repeat' with_reducible first | assumption | apply ran_holds | apply begin_holds | apply dropCopy_holds | apply event_holds | apply remapTo_holds | apply copyCorrects_holds | apply mediaNext_holds | apply hbmRetry_holds | apply sbEnqueue_holds | apply fenceBlock_holds | apply setUnit_holds | apply holds_ite | simp only [holds_mk] | split

theorem execHeartbeat_holds (h : MsgHdr) (state : BitVec 3) (lock : BitVec 2) (bound : BitVec 32) (live : BitVec 29) (admissions : List (BitVec 24)) (activating : Bool) (s : State) (hφ : Holds φ s) : Answers (execHeartbeat h state lock bound live admissions activating s) (Holds φ) := by
  unfold execHeartbeat
  repeat' with_reducible first | assumption | refine receive_holds _ _ _ _ (fun i s hs => ?_) ?_ | apply setPeer_holds | apply setPeerSt_holds | apply reportLive_holds | apply rejoinAdmission_holds | apply holds_ite | refine holds_foldl ?_ (fun _ _ _ => ?_)

theorem execPeerHeartbeatLoss_holds (r : Fin 16) (s : State) (hφ : Holds φ s) : Answers (execPeerHeartbeatLoss r s) (Holds φ) := by
  unfold execPeerHeartbeatLoss
  repeat' with_reducible first | assumption | apply ran_holds | apply begin_holds | apply missed_holds | apply setPeer_holds | apply send_holds | apply event_holds | apply mediaNext_holds | apply memberGone_holds | apply answers_ite

theorem execMajorityLoss_holds (s : State) (hφ : Holds φ s) : Answers (execMajorityLoss s) (Holds φ) := by
  unfold execMajorityLoss
  repeat' with_reducible first | assumption | apply ran_holds | apply unhitch_holds | apply begin_holds

theorem execPatchBatch_holds (h : MsgHdr) (b : Batch) (s : State) (hφ : Holds φ s) : Answers (execPatchBatch h b s) (Holds φ) := by
  unfold execPatchBatch
  repeat' with_reducible first | assumption | refine receive_holds _ _ _ _ (fun i s hs => ?_) ?_ | apply addWard_holds | apply peerSend_holds | apply setWard_holds | apply storeForeign_holds | apply askKeys_holds | apply answers_ite | simp only [holds_mk] | refine holds_foldl ?_ (fun _ _ _ => ?_) | split

theorem execPatchRelease_holds (h : MsgHdr) (rsnap : BitVec 48) (llns : List (BitVec 40)) (s : State) (hφ : Holds φ s) : Answers (execPatchRelease h rsnap llns s) (Holds φ) := by
  unfold execPatchRelease
  repeat' with_reducible first | assumption | refine receive_holds _ _ _ _ (fun i s hs => ?_) ?_ | apply dropForeign_holds

theorem execDeltaChunkRequest_holds (h : MsgHdr) (lfn : BitVec 24) (t : BitVec 8) (foldSeq : BitVec 48) (s : State) (hφ : Holds φ s) : Answers (execDeltaChunkRequest h lfn t foldSeq s) (Holds φ) := by
  unfold execDeltaChunkRequest
  repeat' with_reducible first | assumption | refine receive_holds _ _ _ _ (fun i s hs => ?_) ?_ | apply ackPlain_holds | apply dropHolding_holds | apply holds_ite | apply answers_ite | simp only [holds_mk] | refine holds_foldl ?_ (fun _ _ _ => ?_)

theorem execDeltaChunkData_holds (h : MsgHdr) (lfn : BitVec 24) (t : BitVec 8) (foldSeq : BitVec 48) (chunk : Fin 64) (payload : List Line) (s : State) (hφ : Holds φ s) : Answers (execDeltaChunkData h lfn t foldSeq chunk payload s) (Holds φ) := by
  unfold execDeltaChunkData
  repeat' with_reducible first | assumption | refine receive_holds _ _ _ _ (fun i s hs => ?_) ?_ | apply setHolding_holds | apply ackPlain_holds | apply dropHolding_holds | apply makeDue_holds | apply holds_ite | simp only [holds_mk] | split

theorem execDeltaChunkCommit_holds (h : MsgHdr) (lfn : BitVec 24) (t : BitVec 8) (foldSeq : BitVec 48) (s : State) (hφ : Holds φ s) : Answers (execDeltaChunkCommit h lfn t foldSeq s) (Holds φ) := by
  unfold execDeltaChunkCommit
  repeat' with_reducible first | assumption | refine receive_holds _ _ _ _ (fun i s hs => ?_) ?_ | apply dropHolding_holds | apply ackPlain_holds | apply setSlot_holds | apply commitSlot_holds | apply setHolding_holds | apply holds_ite | apply answers_ite | simp only [holds_mk] | refine holds_foldl ?_ (fun _ _ _ => ?_) | split

theorem execDeltaChunkDone_holds (h : MsgHdr) (lfn : BitVec 24) (t : BitVec 8) (foldSeq : BitVec 48) (s : State) (hφ : Holds φ s) : Answers (execDeltaChunkDone h lfn t foldSeq s) (Holds φ) := by
  unfold execDeltaChunkDone
  repeat' with_reducible first | assumption | refine receive_holds _ _ _ _ (fun i s hs => ?_) ?_ | apply ackPlain_holds | apply closeIfDone_holds | apply setSlot_holds | apply releaseOld_holds | apply admitNext_holds | apply holds_ite | simp only [holds_mk] | split

theorem execDeltaChunkAbort_holds (h : MsgHdr) (lfn : BitVec 24) (t : BitVec 8) (foldSeq : BitVec 48) (s : State) (hφ : Holds φ s) : Answers (execDeltaChunkAbort h lfn t foldSeq s) (Holds φ) := by
  unfold execDeltaChunkAbort
  repeat' with_reducible first | assumption | refine receive_holds _ _ _ _ (fun i s hs => ?_) ?_ | apply ackPlain_holds | apply dropHolding_holds | simp only [holds_mk] | refine holds_foldl ?_ (fun _ _ _ => ?_)

theorem execDeltaAckAdmitted_holds (h : MsgHdr) (lfn : BitVec 24) (foldSeq : BitVec 48) (live : BitVec 29) (s : State) (hφ : Holds φ s) : Answers (execDeltaAckAdmitted h lfn foldSeq live s) (Holds φ) := by
  unfold execDeltaAckAdmitted
  repeat' with_reducible first | assumption | refine receive_holds _ _ _ _ (fun i s hs => ?_) ?_ | apply reportLive_holds | apply advanceBatch_holds | apply setSlot_holds | apply rebuildBases_holds | apply peerSend_holds | apply holds_ite | simp only [holds_mk] | split

theorem execDeltaAckBusy_holds (h : MsgHdr) (lfn : BitVec 24) (foldSeq : BitVec 48) (live : BitVec 29) (s : State) (hφ : Holds φ s) : Answers (execDeltaAckBusy h lfn foldSeq live s) (Holds φ) := by
  unfold execDeltaAckBusy
  repeat' with_reducible first | assumption | refine receive_holds _ _ _ _ (fun i s hs => ?_) ?_ | apply reportLive_holds

theorem execDeltaAckStaged_holds (h : MsgHdr) (lfn : BitVec 24) (foldSeq : BitVec 48) (live : BitVec 29) (s : State) (hφ : Holds φ s) : Answers (execDeltaAckStaged h lfn foldSeq live s) (Holds φ) := by
  unfold execDeltaAckStaged
  repeat' with_reducible first | assumption | refine receive_holds _ _ _ _ (fun i s hs => ?_) ?_ | apply deltaReply_holds | apply reportLive_holds

theorem execDeltaAckCommitted_holds (h : MsgHdr) (lfn : BitVec 24) (foldSeq : BitVec 48) (live : BitVec 29) (s : State) (hφ : Holds φ s) : Answers (execDeltaAckCommitted h lfn foldSeq live s) (Holds φ) := by
  unfold execDeltaAckCommitted
  repeat' with_reducible first | assumption | refine receive_holds _ _ _ _ (fun i s hs => ?_) ?_ | apply deltaReply_holds | apply reportLive_holds

theorem execDeltaAckDone_holds (h : MsgHdr) (lfn : BitVec 24) (foldSeq : BitVec 48) (live : BitVec 29) (s : State) (hφ : Holds φ s) : Answers (execDeltaAckDone h lfn foldSeq live s) (Holds φ) := by
  unfold execDeltaAckDone
  repeat' with_reducible first | assumption | refine receive_holds _ _ _ _ (fun i s hs => ?_) ?_ | apply pollWork_holds | apply deltaReply_holds | apply reportLive_holds

theorem execDeltaAckAborted_holds (h : MsgHdr) (lfn : BitVec 24) (foldSeq : BitVec 48) (live : BitVec 29) (s : State) (hφ : Holds φ s) : Answers (execDeltaAckAborted h lfn foldSeq live s) (Holds φ) := by
  unfold execDeltaAckAborted
  repeat' with_reducible first | assumption | refine receive_holds _ _ _ _ (fun i s hs => ?_) ?_ | apply deltaAborted_holds | apply reportLive_holds

theorem execDeltaAckBatch_holds (h : MsgHdr) (bseq : BitVec 48) (live : BitVec 29) (s : State) (hφ : Holds φ s) : Answers (execDeltaAckBatch h bseq live s) (Holds φ) := by
  unfold execDeltaAckBatch
  repeat' with_reducible first | assumption | refine receive_holds _ _ _ _ (fun i s hs => ?_) ?_ | apply ackStream_holds | split

theorem execDeltaAckResend_holds (h : MsgHdr) (bseq : BitVec 48) (live : BitVec 29) (s : State) (hφ : Holds φ s) : Answers (execDeltaAckResend h bseq live s) (Holds φ) := by
  unfold execDeltaAckResend
  repeat' with_reducible first | assumption | refine receive_holds _ _ _ _ (fun i s hs => ?_) ?_ | apply ackStream_holds | apply peerSend_holds | simp only [holds_mk] | refine holds_foldl ?_ (fun _ _ _ => ?_) | split

theorem execReconReadBase_holds (h : MsgHdr) (tag : Word) (lfn : BitVec 24) (line : BitVec 16) (count : BitVec 11) (s : State) (hφ : Holds φ s) : Answers (execReconReadBase h tag lfn line count s) (Holds φ) := by
  unfold execReconReadBase
  repeat' with_reducible first | assumption | refine receive_holds _ _ _ _ (fun i s hs => ?_) ?_ | apply sendAnswer_holds | apply countIn_holds

theorem execReconReadRecord_holds (h : MsgHdr) (tag : Word) (lln : BitVec 40) (ward : BitVec 9) (s : State) (hφ : Holds φ s) : Answers (execReconReadRecord h tag lln ward s) (Holds φ) := by
  unfold execReconReadRecord
  repeat' with_reducible first | assumption | refine receive_holds _ _ _ _ (fun i s hs => ?_) ?_ | apply sendAnswer_holds | apply countIn_holds | apply holds_ite

theorem execReconReadMap_holds (h : MsgHdr) (tag : Word) (ward : BitVec 9) (ldIndex : Byte) (certOk : Bool) (s : State) (hφ : Holds φ s) : Answers (execReconReadMap h tag ward ldIndex certOk s) (Holds φ) := by
  unfold execReconReadMap
  repeat' with_reducible first | assumption | refine receive_holds _ _ _ _ (fun i s hs => ?_) ?_ | apply countIn_holds | apply drawBits_holds | apply sendAnswer_holds | apply endJob_holds | apply giveRemountKey_holds | apply id_holds | apply holds_ite | simp only [holds_mk] | split

theorem execReconReadBulk_holds (h : MsgHdr) (tag : Word) (lfn : BitVec 24) (line : BitVec 16) (count : BitVec 11) (s : State) (hφ : Holds φ s) : Answers (execReconReadBulk h tag lfn line count s) (Holds φ) := by
  unfold execReconReadBulk
  repeat' with_reducible first | assumption | refine receive_holds _ _ _ _ (fun i s hs => ?_) ?_ | apply noteRebuild_holds | apply sendAnswer_holds | apply countIn_holds

theorem execReconData_holds (h : MsgHdr) (tag : Word) (part : Byte) (parts : Byte) (status : BitVec 2) (body : ReconBody) (s : State) (hφ : Holds φ s) : Answers (execReconData h tag part parts status body s) (Holds φ) := by
  unfold execReconData
  repeat' with_reducible first | assumption | refine receive_holds _ _ _ _ (fun i s hs => ?_) ?_ | apply rnumAnswer_holds | apply swkGot_holds | apply mapGot_holds | apply baseGot_holds | apply setRead_holds | apply rebuildPoll_holds | apply holds_ite | split

theorem execTimetable_holds (h : MsgHdr) (cycle : BitVec 64) (sgen : BitVec 48) (entries : List Word) (crc : Word) (s : State) (hφ : Holds φ s) : Answers (execTimetable h cycle sgen entries crc s) (Holds φ) := by
  unfold execTimetable
  repeat' with_reducible first | assumption | refine receive_holds _ _ _ _ (fun i s hs => ?_) ?_ | apply holds_ite | simp only [holds_mk]

theorem execUnhitchMessage_holds (h : MsgHdr) (cause : Byte) (rnums : List (BitVec 48)) (s : State) (hφ : Holds φ s) : Answers (execUnhitchMessage h cause rnums s) (Holds φ) := by
  unfold execUnhitchMessage
  repeat' with_reducible first | assumption | refine receive_holds _ _ _ _ (fun i s hs => ?_) ?_ | apply setWard_holds | apply memberGone_holds | apply send_holds | apply holds_ite

theorem execPeerCommandTimeout_holds (job : BitVec 16) (_peer : BitVec 9) (s : State) (hφ : Holds φ s) : Answers (execPeerCommandTimeout job _peer s) (Holds φ) := by
  unfold execPeerCommandTimeout
  repeat' with_reducible first | assumption | apply ran_holds | apply begin_holds | apply endJob_holds | dsimp only | split

theorem execPtmDialogTimer_holds (s : State) (hφ : Holds φ s) : Answers (execPtmDialogTimer s) (Holds φ) := by
  unfold execPtmDialogTimer
  repeat' with_reducible first | assumption | apply ran_holds | apply begin_holds | apply send_holds | apply holds_ite | simp only [holds_mk] | split

theorem execPtmResponse_holds (master : BitVec 64) (delayNs : Word) (s : State) (hφ : Holds φ s) : Answers (execPtmResponse master delayNs s) (Holds φ) := by
  unfold execPtmResponse
  repeat' with_reducible first | assumption | apply ran_holds | apply begin_holds | apply goodSample_holds | apply answers_ite | simp only [holds_mk]

theorem execTimemarkEdge_holds (s : State) (hφ : Holds φ s) : Answers (execTimemarkEdge s) (Holds φ) := by
  unfold execTimemarkEdge
  repeat' with_reducible first | assumption | apply ran_holds | apply begin_holds | apply goodSample_holds | apply answers_ite | simp only [holds_mk]

theorem execPtmSampleLoss_holds (s : State) (hφ : Holds φ s) : Answers (execPtmSampleLoss s) (Holds φ) := by
  unfold execPtmSampleLoss
  repeat' with_reducible first | assumption | apply ran_holds | apply begin_holds | apply loseSource_holds | simp only [holds_mk]

theorem execTimemarkLoss_holds (s : State) (hφ : Holds φ s) : Answers (execTimemarkLoss s) (Holds φ) := by
  unfold execTimemarkLoss
  repeat' with_reducible first | assumption | apply ran_holds | apply begin_holds | apply loseSource_holds | simp only [holds_mk]

theorem execHoldoverLimit_holds (s : State) (hφ : Holds φ s) : Answers (execHoldoverLimit s) (Holds φ) := by
  unfold execHoldoverLimit
  repeat' with_reducible first | assumption | apply ran_holds | apply begin_holds | apply timeEvent_holds | apply answers_ite | simp only [holds_mk]

theorem execLifeHourly_holds (s : State) (hφ : Holds φ s) : Answers (execLifeHourly s) (Holds φ) := by
  unfold execLifeHourly
  repeat' with_reducible first | assumption | apply ran_holds | apply begin_holds | apply sbEnqueue_holds | apply answers_ite | simp only [holds_mk]

theorem execAtiHourPoint_holds (s : State) (hφ : Holds φ s) : Answers (execAtiHourPoint s) (Holds φ) := by
  unfold execAtiHourPoint
  repeat' with_reducible first | assumption | apply ran_holds | apply begin_holds | apply sbEnqueue_holds | apply holds_ite | apply answers_ite | simp only [holds_mk] | refine holds_foldl ?_ (fun _ _ _ => ?_)

theorem execWaybillFlushTimer_holds (s : State) (hφ : Holds φ s) : Answers (execWaybillFlushTimer s) (Holds φ) := by
  unfold execWaybillFlushTimer
  repeat' with_reducible first | assumption | apply ran_holds | apply begin_holds | apply wbFlush_holds | apply holds_ite

theorem execCeLeakStep_holds (s : State) (hφ : Holds φ s) : Answers (execCeLeakStep s) (Holds φ) := by
  unfold execCeLeakStep
  repeat' with_reducible first | assumption | apply ran_holds | apply begin_holds | apply ceLeak_holds | apply holds_ite

theorem execStrongboxWriteDone_holds (s : State) (hφ : Holds φ s) : Answers (execStrongboxWriteDone s) (Holds φ) := by
  unfold execStrongboxWriteDone
  repeat' with_reducible first | assumption | apply ran_holds | apply begin_holds | apply lowerAdvance_holds | apply sbWriteDone_holds | apply holds_ite

theorem execStrongboxMarginRefresh_holds (slot : BitVec 16) (weak : Bool) (s : State) (hφ : Holds φ s) : Answers (execStrongboxMarginRefresh slot weak s) (Holds φ) := by
  unfold execStrongboxMarginRefresh
  repeat' with_reducible first | assumption | apply ran_holds | apply begin_holds | apply sbEnqueue_holds | apply event_holds | apply holds_ite | apply answers_ite | simp only [holds_mk] | apply holds_mk_sb | simp only [sbFact_mk] | apply Holds.sb

theorem execVauxRise_holds (mv : BitVec 12) (s : State) (hφ : Holds φ s) : Answers (execVauxRise mv s) (Holds φ) := by
  unfold execVauxRise
  repeat' with_reducible first | assumption | apply ran_holds | apply begin_holds | apply setVaux_holds | apply sillBoot_holds | apply coldReset_holds | apply answers_ite | simp only [holds_mk]

theorem execVauxLow_holds (mv : BitVec 12) (s : State) (hφ : Holds φ s) : Answers (execVauxLow mv s) (Holds φ) := by
  unfold execVauxLow
  repeat' with_reducible first | assumption | apply ran_holds | apply begin_holds | apply setVaux_holds | apply holds_ite

theorem execVauxLoss_holds (s : State) (hφ : Holds φ s) : Answers (execVauxLoss s) (Holds φ) := by
  unfold execVauxLoss
  repeat' with_reducible first | assumption | apply ran_holds | apply begin_holds | apply coldReset_holds | apply holds_mk_sb | simp only [sbFact_mk] | apply Holds.sb

theorem execVauxBandChange_holds (mv : BitVec 12) (s : State) (hφ : Holds φ s) : Answers (execVauxBandChange mv s) (Holds φ) := by
  unfold execVauxBandChange
  repeat' with_reducible first | assumption | apply ran_holds | apply begin_holds | apply setVaux_holds | apply holds_ite

theorem execSillReset_holds (s : State) (hφ : Holds φ s) : Answers (execSillReset s) (Holds φ) := by
  unfold execSillReset
  repeat' with_reducible first | assumption | apply ran_holds | apply begin_holds | apply sillBoot_holds | apply coldReset_holds | apply holds_ite

theorem execMgmtWatchdog_holds (s : State) (hφ : Holds φ s) : Answers (execMgmtWatchdog s) (Holds φ) := by
  unfold execMgmtWatchdog
  repeat' with_reducible first | assumption | apply ran_holds | apply begin_holds | apply warmReset_holds | apply holds_ite

theorem execPfNAssert_holds (s : State) (hφ : Holds φ s) : Answers (execPfNAssert s) (Holds φ) := by
  unfold execPfNAssert
  repeat' with_reducible first | assumption | apply ran_holds | refine setPower_holds _ _ (fun _ => rfl) ?_ | apply begin_holds | apply powerOff_holds | simp only [holds_mk] | split

theorem execPfNRelease_holds (s : State) (hφ : Holds φ s) : Answers (execPfNRelease s) (Holds φ) := by
  unfold execPfNRelease
  repeat' with_reducible first | assumption | apply ran_holds | refine setPower_holds _ _ (fun _ => rfl) ?_ | apply begin_holds | apply startOn_holds | apply powerOn_holds | apply holds_ite | apply answers_ite | split

theorem execSeqInHigh_holds (s : State) (hφ : Holds φ s) : Answers (execSeqInHigh s) (Holds φ) := by
  unfold execSeqInHigh
  repeat' with_reducible first | assumption | apply ran_holds | refine setPower_holds _ _ (fun _ => rfl) ?_ | apply begin_holds | apply powerOn_holds | apply holds_ite

theorem execSeqInLow_holds (s : State) (hφ : Holds φ s) : Answers (execSeqInLow s) (Holds φ) := by
  unfold execSeqInLow
  repeat' with_reducible first | assumption | apply ran_holds | refine setPower_holds _ _ (fun _ => rfl) ?_ | apply begin_holds | apply powerOff_holds | apply holds_ite

theorem execCascadeStep_holds (s : State) (hφ : Holds φ s) : Answers (execCascadeStep s) (Holds φ) := by
  unfold execCascadeStep
  repeat' with_reducible first | assumption | apply ran_holds | apply begin_holds | apply checkOn_holds | apply enableRail_holds | refine setPower_holds _ _ (fun _ => rfl) ?_ | apply disableRail_holds | apply holds_ite | apply answers_ite | split

theorem execRailEnable_holds (r : Fin 32) (s : State) (hφ : Holds φ s) : Answers (execRailEnable r s) (Holds φ) := by
  unfold execRailEnable
  repeat' with_reducible first | assumption | apply ran_holds | apply begin_holds | apply checkOn_holds | apply enableRail_holds | apply holds_ite

theorem execRailDisable_holds (r : Fin 32) (s : State) (hφ : Holds φ s) : Answers (execRailDisable r s) (Holds φ) := by
  unfold execRailDisable
  repeat' with_reducible first | assumption | apply ran_holds | apply begin_holds | apply disableRail_holds | apply holds_ite

theorem execPgGood_holds (r : Fin 32) (s : State) (hφ : Holds φ s) : Answers (execPgGood r s) (Holds φ) := by
  unfold execPgGood
  repeat' with_reducible first | assumption | apply ran_holds | apply begin_holds | apply railReadmitted_holds | apply checkOn_holds | refine setPower_holds _ _ (fun _ => rfl) ?_ | apply answers_ite

theorem execPgLost_holds (r : Fin 32) (s : State) (hφ : Holds φ s) : Answers (execPgLost r s) (Holds φ) := by
  unfold execPgLost
  repeat' with_reducible first | assumption | apply ran_holds | apply pgLost_holds | apply begin_holds

theorem execPgGlitch_holds (r : Fin 32) (s : State) (hφ : Holds φ s) : Answers (execPgGlitch r s) (Holds φ) := by
  unfold execPgGlitch
  repeat' with_reducible first | assumption | apply ran_holds | apply pgGlitch_holds | apply begin_holds

theorem execRailPgTimeout_holds (r : Fin 32) (s : State) (hφ : Holds φ s) : Answers (execRailPgTimeout r s) (Holds φ) := by
  unfold execRailPgTimeout
  repeat' with_reducible first | assumption | apply ran_holds | apply begin_holds | apply checkOn_holds | apply flagRail_holds | apply endJob_holds | apply id_holds | apply answers_ite | split

theorem execRailOffTimeout_holds (r : Fin 32) (s : State) (hφ : Holds φ s) : Answers (execRailOffTimeout r s) (Holds φ) := by
  unfold execRailOffTimeout
  repeat' with_reducible first | assumption | apply ran_holds | apply begin_holds | apply checkOff_holds | refine setPower_holds _ _ (fun _ => rfl) ?_ | apply flagRail_holds | apply answers_ite

theorem execMinoffEnd_holds (s : State) (hφ : Holds φ s) : Answers (execMinoffEnd s) (Holds φ) := by
  unfold execMinoffEnd
  extract_lets s1 th s2
  have h1 : Holds φ s1 := begin_holds _ hφ
  clear_value s1
  have h2 : Holds φ s2 := setPower_holds _ _ (fun _ => rfl) (holds_mk_therm h1 h1.therm)
  clear_value s2
  exact answers_ite (ran_holds h1) (ran_holds (holds_ite (startOn_holds _ h2) h2))

theorem execVcoreTrimStep_holds (answered : Bool) (s : State) (hφ : Holds φ s) : Answers (execVcoreTrimStep answered s) (Holds φ) := by
  unfold execVcoreTrimStep
  repeat' with_reducible first | assumption | apply ran_holds | apply begin_holds | refine setPower_holds _ _ (fun _ => rfl) ?_ | apply setUnit_holds | apply send_holds | apply holds_ite | apply answers_ite | refine holds_foldl ?_ (fun _ _ _ => ?_)

theorem execHoldupStepDone_holds (vbank : BitVec 16) (dq : Word) (fault : Bool) (s : State) (hφ : Holds φ s) : Answers (execHoldupStepDone vbank dq fault s) (Holds φ) := by
  unfold execHoldupStepDone
  repeat' with_reducible first | assumption | apply ran_holds | apply begin_holds | apply mediaNext_holds | apply holdupFault_holds | refine setPower_holds _ _ (fun _ => rfl) ?_ | apply relayout_holds | apply holds_ite | simp only [holds_mk] | split

theorem execHoldupMeasureTimeout_holds (s : State) (hφ : Holds φ s) : Answers (execHoldupMeasureTimeout s) (Holds φ) := by
  unfold execHoldupMeasureTimeout
  repeat' with_reducible first | assumption | apply ran_holds | apply begin_holds | apply mediaNext_holds | apply holdupFault_holds | refine setPower_holds _ _ (fun _ => rfl) ?_ | apply answers_ite

theorem execHoldupMonitor_holds (answer : Option HoldupStatus) (s : State) (hφ : Holds φ s) : Answers (execHoldupMonitor answer s) (Holds φ) := by
  unfold execHoldupMonitor
  repeat' with_reducible first | assumption | apply ran_holds | apply begin_holds | apply mediaNext_holds | apply holdupFault_holds | apply fire_holds | refine setPower_holds _ _ (fun _ => rfl) ?_ | apply holds_ite | apply answers_ite | split

theorem execFlushStepEnd_holds (us : BitVec 24) (s : State) (hφ : Holds φ s) : Answers (execFlushStepEnd us s) (Holds φ) := by
  unfold execFlushStepEnd
  repeat' with_reducible first | assumption | apply ran_holds | apply begin_holds | refine setPower_holds _ _ (fun _ => rfl) ?_ | apply flushReady_holds | apply flushSegments_holds | apply imageEnd_holds | apply imageStart_holds | apply flushDeltas_holds | apply flushSegment_holds | apply offTable_holds | apply holds_ite | apply answers_ite | split

theorem execThermalSample_holds (readings : List (Option (BitVec 16))) (s : State) (hφ : Holds φ s) : Answers (execThermalSample readings s) (Holds φ) := by
  unfold execThermalSample
  repeat' with_reducible first | assumption | apply ran_holds | apply begin_holds | apply takeReading_holds | apply injectedAlerts_holds | apply judgeSample_holds | apply crossCheck_holds | apply holds_ite | apply answers_ite | refine holds_foldl ?_ (fun _ _ _ => ?_) | split

theorem execThermalHalfGrace_holds (s : State) (hφ : Holds φ s) : Answers (execThermalHalfGrace s) (Holds φ) := by
  unfold execThermalHalfGrace
  repeat' with_reducible first | assumption | apply ran_holds | apply begin_holds | apply setThermLoad_holds | apply holds_ite

theorem execThermalGraceExpiry_holds (s : State) (hφ : Holds φ s) : Answers (execThermalGraceExpiry s) (Holds φ) := by
  unfold execThermalGraceExpiry
  repeat' with_reducible first | assumption | apply ran_holds | apply begin_holds | apply event_holds | refine setTherm_holds _ _ (fun _ => rfl) ?_ | apply answers_ite

theorem execBrakeFractionStep_holds (s : State) (hφ : Holds φ s) : Answers (execBrakeFractionStep s) (Holds φ) := by
  unfold execBrakeFractionStep
  repeat' with_reducible first | assumption | apply ran_holds | apply begin_holds | refine setTherm_holds _ _ (fun _ => rfl) ?_ | apply setThermLoad_holds | apply event_holds | apply answers_ite

theorem execSensorReadingTimeout_holds (i : Fin 64) (s : State) (hφ : Holds φ s) : Answers (execSensorReadingTimeout i s) (Holds φ) := by
  unfold execSensorReadingTimeout
  repeat' with_reducible first | assumption | apply ran_holds | apply begin_holds | apply setSensor_holds | apply sensorBreaks_holds | apply answers_ite

theorem execStartPhaseEnd_holds (hbmTrained : BitVec 4) (s : State) (hφ : Holds φ s) : Answers (execStartPhaseEnd hbmTrained s) (Holds φ) := by
  unfold execStartPhaseEnd
  repeat' with_reducible first | assumption | apply ran_holds | apply begin_holds | apply phase1End_holds | apply mediaNext_holds | apply phase3End_holds | apply phase4End_holds | apply phase5End_holds | apply phase6End_holds | apply phase7End_holds | apply phase8End_holds | apply answers_ite | split

theorem execGetVersion_holds (port : Fin 4) (s : State) (hφ : Holds φ s) : Answers (execGetVersion port s) (Holds φ) := by
  unfold execGetVersion
  repeat' with_reducible first | assumption | refine onDoe_holds _ _ _ (fun s hs => ?_) ?_ | apply spdmSend_holds | apply setSpdm_holds

theorem execGetCapabilities_holds (port : Fin 4) (_flags : Word) (s : State) (hφ : Holds φ s) : Answers (execGetCapabilities port _flags s) (Holds φ) := by
  unfold execGetCapabilities
  repeat' with_reducible first | assumption | refine onDoe_holds _ _ _ (fun s hs => ?_) ?_ | apply spdmSend_holds | apply setSpdm_holds | apply spdmErr_holds | apply holds_ite

theorem execNegotiateAlgorithms_holds (port : Fin 4) (supported : Bool) (s : State) (hφ : Holds φ s) : Answers (execNegotiateAlgorithms port supported s) (Holds φ) := by
  unfold execNegotiateAlgorithms
  repeat' with_reducible first | assumption | refine onDoe_holds _ _ _ (fun s hs => ?_) ?_ | apply spdmErr_holds | apply spdmSend_holds | apply setSpdm_holds | apply holds_ite

theorem execGetDigests_holds (port : Fin 4) (s : State) (hφ : Holds φ s) : Answers (execGetDigests port s) (Holds φ) := by
  unfold execGetDigests
  repeat' with_reducible first | assumption | refine onDoe_holds _ _ _ (fun s hs => ?_) ?_ | apply afterAlgs_holds | apply spdmSend_holds

theorem execGetCertificate_holds (port : Fin 4) (slot : Byte) (offset : BitVec 16) (length : BitVec 16) (s : State) (hφ : Holds φ s) : Answers (execGetCertificate port slot offset length s) (Holds φ) := by
  unfold execGetCertificate
  repeat' with_reducible first | assumption | refine onDoe_holds _ _ _ (fun s hs => ?_) ?_ | apply afterAlgs_holds | apply spdmErr_holds | apply spdmSend_holds | apply holds_ite | intro _

theorem execChallenge_holds (port : Fin 4) (slot : Byte) (nonce : BitVec 256) (s : State) (hφ : Holds φ s) : Answers (execChallenge port slot nonce s) (Holds φ) := by
  unfold execChallenge
  repeat' with_reducible first | assumption | refine onDoe_holds _ _ _ (fun s hs => ?_) ?_ | apply afterAlgs_holds | apply spdmErr_holds | apply spdmSend_holds | apply holds_ite | intro _

theorem execGetMeasurements_holds (port : Fin 4) (index : Byte) (nonce : Option (BitVec 256)) (s : State) (hφ : Holds φ s) : Answers (execGetMeasurements port index nonce s) (Holds φ) := by
  unfold execGetMeasurements
  repeat' with_reducible first | assumption | refine onDoe_holds _ _ _ (fun s hs => ?_) ?_ | apply afterAlgs_holds | apply spdmErr_holds | apply spdmSend_holds | apply holds_ite | intro _

theorem execKeyExchange_holds (port : Fin 4) (reqSession : BitVec 16) (exchange : List Byte) (s : State) (hφ : Holds φ s) : Answers (execKeyExchange port reqSession exchange s) (Holds φ) := by
  unfold execKeyExchange
  repeat' with_reducible first | assumption | refine onDoe_holds _ _ _ (fun s hs => ?_) ?_ | apply afterAlgs_holds | apply spdmErr_holds | apply drawBits_holds | apply spdmSend_holds | apply setSpdm_holds | apply holds_ite | intro _ | split

theorem execFinish_holds (port : Fin 4) (session : Word) (verifyOk : Bool) (s : State) (hφ : Holds φ s) : Answers (execFinish port session verifyOk s) (Holds φ) := by
  unfold execFinish
  repeat' with_reducible first | assumption | refine onDoe_holds _ _ _ (fun s hs => ?_) ?_ | apply spdmErr_holds | apply setSpdm_holds | apply spdmSend_holds | split

theorem execKeyUpdate_holds (port : Fin 4) (session : Word) (op : Byte) (s : State) (hφ : Holds φ s) : Answers (execKeyUpdate port session op s) (Holds φ) := by
  unfold execKeyUpdate
  repeat' with_reducible first | assumption | refine onDoe_holds _ _ _ (fun s hs => ?_) ?_ | apply inSession_holds | apply spdmSend_holds | apply spdmErr_holds | apply holds_ite | intro _

theorem execSpdmHeartbeat_holds (port : Fin 4) (session : Word) (s : State) (hφ : Holds φ s) : Answers (execSpdmHeartbeat port session s) (Holds φ) := by
  unfold execSpdmHeartbeat
  repeat' with_reducible first | assumption | refine onDoe_holds _ _ _ (fun s hs => ?_) ?_ | apply inSession_holds | apply spdmSend_holds

theorem execEndSession_holds (port : Fin 4) (session : Word) (s : State) (hφ : Holds φ s) : Answers (execEndSession port session s) (Holds φ) := by
  unfold execEndSession
  repeat' with_reducible first | assumption | refine onDoe_holds _ _ _ (fun s hs => ?_) ?_ | apply inSession_holds | apply spdmSend_holds | apply setSpdm_holds | intro _

theorem execIdeKm_holds (port : Fin 4) (session : Word) (op : IdeOp) (sub : Byte) (key : BitVec 256) (s : State) (hφ : Holds φ s) : Answers (execIdeKm port session op sub key s) (Holds φ) := by
  unfold execIdeKm
  repeat' with_reducible first | assumption | refine onDoe_holds _ _ _ (fun s hs => ?_) ?_ | apply send_holds | apply setPort_holds | apply holds_ite | split

theorem execPatternFrame_holds (ch : Fin 32) (h : FrameHdr) (pattern : BitVec 1024) (center0 : Byte) (center1 : Byte) (margin : Byte) (s : State) (hφ : Holds φ s) : Answers (execPatternFrame ch h pattern center0 center1 margin s) (Holds φ) := by
  unfold execPatternFrame
  repeat' with_reducible first | assumption | apply ran_holds | apply checkFrame_holds | apply begin_holds | apply mediaNext_holds | apply nextFrame_holds | apply setCart_holds | apply requestRetrain_holds | apply trainAgain_holds | apply trainTo_holds | apply trainDone_holds | apply holds_ite | simp only [holds_mk] | split

theorem execHdmDecoderCommit_holds (port : Fin 4) (ld : Fin 16) (dec : Fin 4) (base : BitVec 64) (size : BitVec 64) (ways : BitVec 8) (gran : BitVec 16) (pos : BitVec 4) (dpaSkip : BitVec 46) (s : State) (hφ : Holds φ s) : Answers (execHdmDecoderCommit port ld dec base size ways gran pos dpaSkip s) (Holds φ) := by
  unfold execHdmDecoderCommit
  repeat' with_reducible first | assumption | apply ran_holds | apply begin_holds | apply setLd_holds | apply answers_ite

theorem execBankCharged_holds (vbank : BitVec 16) (vmin : BitVec 16) (eff : Byte) (s : State) (hφ : Holds φ s) : Answers (execBankCharged vbank vmin eff s) (Holds φ) := by
  unfold execBankCharged
  repeat' with_reducible first | assumption | apply ran_holds | apply begin_holds | apply send_holds | refine setPower_holds _ _ (fun _ => rfl) ?_ | apply answers_ite

theorem execReserveCharged_holds (s : State) (hφ : Holds φ s) : Answers (execReserveCharged s) (Holds φ) := by
  unfold execReserveCharged
  repeat' with_reducible first | assumption | apply ran_holds | apply begin_holds | apply sbStart_holds | apply wbPump_holds | apply holds_ite | apply answers_ite | simp only [holds_mk] | apply holds_mk_sb | simp only [sbFact_mk] | apply Holds.sb

theorem execRefclkReturn_holds (grp : Fin 2) (s : State) (hφ : Holds φ s) : Answers (execRefclkReturn grp s) (Holds φ) := by
  unfold execRefclkReturn
  repeat' with_reducible first | assumption | apply ran_holds | apply begin_holds | apply trainLink_holds | apply setPort_holds | refine holds_foldl ?_ (fun _ _ _ => ?_)

theorem execWarmResetEnd_holds (s : State) (hφ : Holds φ s) : Answers (execWarmResetEnd s) (Holds φ) := by
  unfold execWarmResetEnd
  extract_lets s1 s2
  have h1 : Holds φ s1 := begin_holds _ hφ
  clear_value s1
  have h2 : Holds φ s2 := by
    simp only [s2]
    split
    · cases hq : selectFw s1 with
      | none => exact h1
      | some t => exact selectFw_holds _ _ hq h1
    · exact h1
  clear_value s2
  exact answers_ite (ran_holds h1) (ran_holds (holds_mk_host h2 (hostFact_mk.2 h2.host)))

theorem execTzqEnd_holds (ch : Fin 32) (s : State) (hφ : Holds φ s) : Answers (execTzqEnd ch s) (Holds φ) := by
  unfold execTzqEnd
  repeat' with_reducible first | assumption | apply ran_holds | apply begin_holds | apply setStack_holds | apply drawBits_holds | apply sendPkt_holds | apply setCart_holds | apply mediaNext_holds | apply trainTo_holds | apply holds_ite | apply answers_ite

theorem execMediaPllLock_holds (ch : Fin 32) (s : State) (hφ : Holds φ s) : Answers (execMediaPllLock ch s) (Holds φ) := by
  unfold execMediaPllLock
  repeat' with_reducible first | assumption | apply ran_holds | apply begin_holds | apply mediaNext_holds | apply trainCa_holds | apply setStack_holds | apply setCart_holds | apply answers_ite

theorem execUnknownMsg_holds (slot : Fin 6) (target : Fin 32 ⊕ Fin 4) (msg : BitVec 16) (tag : BitVec 8) (s : State) (hφ : Holds φ s) : Answers (execUnknownMsg slot target msg tag s) (Holds φ) := by
  unfold execUnknownMsg
  repeat' with_reducible first | assumption | apply ran_holds | apply begin_holds | apply mbAccess_holds | apply cmbReply_holds | apply cmbOffer_holds | apply qmbReply_holds | apply qmbOffer_holds | apply holds_ite | intro _ | split

end

end Sys2Proof.Machine
end

section
/-! SUPPORT. Every step keeps the three facts. -/

namespace Sys2Proof.Machine

theorem exec_holds {φ : Fact} (i : Instr) (s : State) (hφ : Holds φ s) : Answers (exec i s) (Holds φ) := by
  cases i with
  | memRead port ld hpa tag => exact execMemRead_holds port ld hpa tag s hφ
  | memWrite port ld hpa tag data be poisoned => exact execMemWrite_holds port ld hpa tag data be poisoned s hφ
  | writeCreditGrant port ld => exact execWriteCreditGrant_holds port ld s hφ
  | strictAckTimeout port ld tag => exact execStrictAckTimeout_holds port ld tag s hφ
  | relaxedRecordStall stream rnum => exact execRelaxedRecordStall_holds stream rnum s hφ
  | relaxedRecordExposed stream rnum => exact execRelaxedRecordExposed_holds stream rnum s hφ
  | dirtyAgeLimit lln => exact execDirtyAgeLimit_holds lln s hφ
  | perstAssert grp => exact execPerstAssert_holds grp s hφ
  | perstDeassert grp => exact execPerstDeassert_holds grp s hφ
  | linkUp port width rate flit256 mld => exact execLinkUp_holds port width rate flit256 mld s hφ
  | surpriseLinkDown port => exact execSurpriseLinkDown_holds port s hφ
  | refclkLoss grp => exact execRefclkLoss_holds grp s hφ
  | powerStateChange port ld d3hot => exact execPowerStateChange_holds port ld d3hot s hφ
  | ideIntegrityFailure port => exact execIdeIntegrityFailure_holds port s hφ
  | gpfPhase1 port => exact execGpfPhase1_holds port s hφ
  | gpfPhase2 port => exact execGpfPhase2_holds port s hφ
  | identifyMemoryDevice c ldb => exact execIdentifyMemoryDevice_holds c ldb s hφ
  | getHealthInfo c ldb => exact execGetHealthInfo_holds c ldb s hφ
  | getEventRecords c ldb log => exact execGetEventRecords_holds c ldb log s hφ
  | clearEventRecords c ldb log all handles => exact execClearEventRecords_holds c ldb log all handles s hφ
  | getEventInterruptPolicy c ldb => exact execGetEventInterruptPolicy_holds c ldb s hφ
  | setEventInterruptPolicy c ldb policy => exact execSetEventInterruptPolicy_holds c ldb policy s hφ
  | getSupportedLogs c ldb => exact execGetSupportedLogs_holds c ldb s hφ
  | getLog c ldb offset length => exact execGetLog_holds c ldb offset length s hφ
  | getTimestamp c ldb => exact execGetTimestamp_holds c ldb s hφ
  | setTimestamp c ldb value => exact execSetTimestamp_holds c ldb value s hφ
  | getFwInfo c ldb => exact execGetFwInfo_holds c ldb s hφ
  | transferFw c action offset data => exact execTransferFw_holds c action offset data s hφ
  | activateFw c online slot => exact execActivateFw_holds c online slot s hφ
  | getPoisonList c ldb addr length => exact execGetPoisonList_holds c ldb addr length s hφ
  | injectPoison c ldb addr => exact execInjectPoison_holds c ldb addr s hφ
  | clearPoison c ldb addr data => exact execClearPoison_holds c ldb addr data s hφ
  | sanitize c ldb => exact execSanitize_holds c ldb s hφ
  | secureErase c ldb => exact execSecureErase_holds c ldb s hφ
  | getDynamicCapacityConfiguration c ldb => exact execGetDynamicCapacityConfiguration_holds c ldb s hφ
  | getDynamicCapacityExtentList c ldb => exact execGetDynamicCapacityExtentList_holds c ldb s hφ
  | addDynamicCapacityResponse c ldb exts => exact execAddDynamicCapacityResponse_holds c ldb exts s hφ
  | releaseDynamicCapacity c ldb exts => exact execReleaseDynamicCapacity_holds c ldb exts s hφ
  | unsupportedOpcode c opcode => exact execUnsupportedOpcode_holds c opcode s hφ
  | fmIdentify c => exact execFmIdentify_holds c s hφ
  | getLdInfo c => exact execGetLdInfo_holds c s hφ
  | getLdAllocations c port first count => exact execGetLdAllocations_holds c port first count s hφ
  | setLdAllocations c port first units => exact execSetLdAllocations_holds c port first units s hφ
  | getQosControl c port => exact execGetQosControl_holds c port s hφ
  | setQosControl c port ctrl => exact execSetQosControl_holds c port ctrl s hφ
  | getQosStatus c port => exact execGetQosStatus_holds c port s hφ
  | getQosAllocatedBw c port first count => exact execGetQosAllocatedBw_holds c port first count s hφ
  | setQosAllocatedBw c port first fracs => exact execSetQosAllocatedBw_holds c port first fracs s hφ
  | getQosBwLimit c port first count => exact execGetQosBwLimit_holds c port first count s hφ
  | setQosBwLimit c port first fracs => exact execSetQosBwLimit_holds c port first fracs s hφ
  | getDcRegionConfiguration c ldb => exact execGetDcRegionConfiguration_holds c ldb s hφ
  | initiateDynamicCapacityAdd c ldb ext extTag => exact execInitiateDynamicCapacityAdd_holds c ldb ext extTag s hφ
  | initiateDynamicCapacityRelease c ldb ext => exact execInitiateDynamicCapacityRelease_holds c ldb ext s hφ
  | getDcRegionExtentLists c ldb => exact execGetDcRegionExtentLists_holds c ldb s hφ
  | unknownVendorOpcode c opcode inp => exact execUnknownVendorOpcode_holds c opcode inp s hφ
  | merlasIdentify c inp => exact execMerlasIdentify_holds c inp s hφ
  | capQuery c inp => exact execCapQuery_holds c inp s hφ
  | jobStatus c inp => exact execJobStatus_holds c inp s hφ
  | unitQuery c inp => exact execUnitQuery_holds c inp s hφ
  | unitList c inp => exact execUnitList_holds c inp s hφ
  | unitTest c inp => exact execUnitTest_holds c inp s hφ
  | unitBypass c inp => exact execUnitBypass_holds c inp s hφ
  | unitIsolate c inp => exact execUnitIsolate_holds c inp s hφ
  | unitReadmit c inp => exact execUnitReadmit_holds c inp s hφ
  | unitRetire c inp => exact execUnitRetire_holds c inp s hφ
  | foldStatus c inp => exact execFoldStatus_holds c inp s hφ
  | framePin c inp => exact execFramePin_holds c inp s hφ
  | frameDiscard c inp => exact execFrameDiscard_holds c inp s hφ
  | cacheFlush c inp => exact execCacheFlush_holds c inp s hφ
  | cacheInvalidate c inp => exact execCacheInvalidate_holds c inp s hφ
  | ldCommitSet c inp => exact execLdCommitSet_holds c inp s hφ
  | spanQuery c inp => exact execSpanQuery_holds c inp s hφ
  | poolGet c inp => exact execPoolGet_holds c inp s hφ
  | poolSet c inp => exact execPoolSet_holds c inp s hφ
  | spanJoin c inp => exact execSpanJoin_holds c inp s hφ
  | spanUpdate c inp => exact execSpanUpdate_holds c inp s hφ
  | remountBind c inp => exact execRemountBind_holds c inp s hφ
  | spanLeave c inp => exact execSpanLeave_holds c inp s hφ
  | unhitchRequest c inp => exact execUnhitchRequest_holds c inp s hφ
  | timeQuery c inp => exact execTimeQuery_holds c inp s hφ
  | timeMarkSet c inp => exact execTimeMarkSet_holds c inp s hφ
  | timeConfig c inp => exact execTimeConfig_holds c inp s hφ
  | ttConfig c inp => exact execTtConfig_holds c inp s hφ
  | powerQuery c inp => exact execPowerQuery_holds c inp s hφ
  | powerTableSet c inp => exact execPowerTableSet_holds c inp s hφ
  | powerDown c inp => exact execPowerDown_holds c inp s hφ
  | powerUp c inp => exact execPowerUp_holds c inp s hφ
  | thermalQuery c inp => exact execThermalQuery_holds c inp s hφ
  | thermalConfig c inp => exact execThermalConfig_holds c inp s hφ
  | shutdownRecordClear c inp => exact execShutdownRecordClear_holds c inp s hφ
  | sboxQuery c inp => exact execSboxQuery_holds c inp s hφ
  | sboxRead c inp => exact execSboxRead_holds c inp s hφ
  | optionWrite c inp => exact execOptionWrite_holds c inp s hφ
  | calOverlayWrite c inp => exact execCalOverlayWrite_holds c inp s hφ
  | calOverlayClear c inp => exact execCalOverlayClear_holds c inp s hφ
  | waybillRead c inp => exact execWaybillRead_holds c inp s hφ
  | waybillRate c inp => exact execWaybillRate_holds c inp s hφ
  | injectArm c inp => exact execInjectArm_holds c inp s hφ
  | injectDisarm c inp => exact execInjectDisarm_holds c inp s hφ
  | secQuery c inp => exact execSecQuery_holds c inp s hφ
  | plSet c inp => exact execPlSet_holds c inp s hφ
  | ldKeyTransfer c inp => exact execLdKeyTransfer_holds c inp s hφ
  | jobEnd job ok => exact execJobEnd_holds job ok s hφ
  | plannedRemovalTimeout job => exact execPlannedRemovalTimeout_holds job s hφ
  | unitTestTimeout job => exact execUnitTestTimeout_holds job s hφ
  | unitIdleEntry unit => exact execUnitIdleEntry_holds unit s hφ
  | cmbEcho slot ch m => exact execCmbEcho_holds slot ch m s hφ
  | cmbBankState slot ch m => exact execCmbBankState_holds slot ch m s hφ
  | cmbInfo slot ch m => exact execCmbInfo_holds slot ch m s hφ
  | cmbRawRead slot ch m err => exact execCmbRawRead_holds slot ch m err s hφ
  | qmbEcho slot q m => exact execQmbEcho_holds slot q m s hφ
  | qmbChannels slot q m => exact execQmbChannels_holds slot q m s hφ
  | qmbSuspCount slot q m => exact execQmbSuspCount_holds slot q m s hφ
  | qmbSkew slot q m => exact execQmbSkew_holds slot q m s hφ
  | qmbRsphiRead q => exact execQmbRsphiRead_holds q s hφ
  | sidebandDwordRead offset => exact execSidebandDwordRead_holds offset s hφ
  | sidebandDwordWrite offset data => exact execSidebandDwordWrite_holds offset data s hφ
  | registerWrite port offset data be => exact execRegisterWrite_holds port offset data be s hφ
  | timeNowloRead => exact execTimeNowloRead_holds s hφ
  | timeMarkhiWrite value => exact execTimeMarkhiWrite_holds value s hφ
  | noticeFlagsRead => exact execNoticeFlagsRead_holds s hφ
  | noticeDatahiRead => exact execNoticeDatahiRead_holds s hφ
  | noticeCtrlMark => exact execNoticeCtrlMark_holds s hφ
  | noticeCtrlRewind => exact execNoticeCtrlRewind_holds s hφ
  | noticeCtrlRelease n => exact execNoticeCtrlRelease_holds n s hφ
  | readstatCtrlClear inc => exact execReadstatCtrlClear_holds inc s hφ
  | writestatCtrlClear inc => exact execWritestatCtrlClear_holds inc s hφ
  | cacheCtrlClear inc => exact execCacheCtrlClear_holds inc s hφ
  | mchRetrainClear ch inc => exact execMchRetrainClear_holds ch inc s hφ
  | mmstatCtrlClear inc => exact execMmstatCtrlClear_holds inc s hφ
  | lpstatCtrlClear inc => exact execLpstatCtrlClear_holds inc s hφ
  | spanstatCtrlClear inc => exact execSpanstatCtrlClear_holds inc s hφ
  | ttstatCtrlClear inc => exact execTtstatCtrlClear_holds inc s hφ
  | strongboxCtrlClear inc => exact execStrongboxCtrlClear_holds inc s hφ
  | pwrCtrlClear inc => exact execPwrCtrlClear_holds inc s hφ
  | thrmstatCtrlClear inc => exact execThrmstatCtrlClear_holds inc s hφ
  | wbCtrlFlush => exact execWbCtrlFlush_holds s hφ
  | injCtrlArm => exact execInjCtrlArm_holds s hφ
  | injCtrlDisarm => exact execInjCtrlDisarm_holds s hφ
  | injectDurationEnd point unit => exact execInjectDurationEnd_holds point unit s hφ
  | queueWrite q word poison => exact execQueueWrite_holds q word poison s hφ
  | queueRead q => exact execQueueRead_holds q s hφ
  | queueMark q => exact execQueueMark_holds q s hφ
  | queueRewind q => exact execQueueRewind_holds q s hφ
  | queueRelease q n => exact execQueueRelease_holds q n s hφ
  | queueTailExpiry q => exact execQueueTailExpiry_holds q s hφ
  | read ch p => exact execRead_holds ch p s hφ
  | refset ch p => exact execRefset_holds ch p s hφ
  | refload ch p data => exact execRefload_holds ch p data s hφ
  | prog ch p => exact execProg_holds ch p s hφ
  | wdata ch p data => exact execWdata_holds ch p data s hφ
  | fprog ch p data => exact execFprog_holds ch p data s hφ
  | pfin ch p => exact execPfin_holds ch p s hφ
  | pabort ch p => exact execPabort_holds ch p s hφ
  | clear ch p stamp => exact execClear_holds ch p stamp s hφ
  | susp ch p => exact execSusp_holds ch p s hφ
  | resume ch p => exact execResume_holds ch p s hφ
  | srd ch p => exact execSrd_holds ch p s hφ
  | status ch p => exact execStatus_holds ch p s hφ
  | temp ch p => exact execTemp_holds ch p s hφ
  | ident ch p => exact execIdent_holds ch p s hφ
  | getf ch p => exact execGetf_holds ch p s hφ
  | setf ch p => exact execSetf_holds ch p s hφ
  | rdout ch p => exact execRdout_holds ch p s hφ
  | zqcal ch p => exact execZqcal_holds ch p s hφ
  | catrain ch p => exact execCatrain_holds ch p s hφ
  | wrpat ch p data => exact execWrpat_holds ch p data s hφ
  | rdpat ch p => exact execRdpat_holds ch p s hφ
  | dreset ch p => exact execDreset_holds ch p s hφ
  | mediaUnknownOpcode ch op p => exact execMediaUnknownOpcode_holds ch op p s hφ
  | treadEnd ch tag err => exact execTreadEnd_holds ch tag err s hφ
  | tpbodyEnd ch die bank => exact execTpbodyEnd_holds ch die bank s hφ
  | tpfinEnd ch die bank failAt => exact execTpfinEnd_holds ch die bank failAt s hφ
  | tclearEnd ch die bank ok => exact execTclearEnd_holds ch die bank ok s hφ
  | tsuspEnd ch die bank => exact execTsuspEnd_holds ch die bank s hφ
  | tinfoEnd ch tag => exact execTinfoEnd_holds ch tag s hφ
  | tdrstEnd ch die cleared => exact execTdrstEnd_holds ch die cleared s hφ
  | tinitEnd ch => exact execTinitEnd_holds ch s hφ
  | malertN ch => exact execMalertN_holds ch s hφ
  | lineFrame ch h data => exact execLineFrame_holds ch h data s hφ
  | infoFrame ch h payload => exact execInfoFrame_holds ch h payload s hφ
  | emptyFrame ch h => exact execEmptyFrame_holds ch h s hφ
  | progHeld ch h payload => exact execProgHeld_holds ch h payload s hφ
  | progDone ch h payload => exact execProgDone_holds ch h payload s hφ
  | progFail ch h payload => exact execProgFail_holds ch h payload s hφ
  | clearDone ch h payload => exact execClearDone_holds ch h payload s hφ
  | clearFail ch h payload => exact execClearFail_holds ch h payload s hφ
  | suspended ch h payload => exact execSuspended_holds ch h payload s hφ
  | suspNoop ch h payload => exact execSuspNoop_holds ch h payload s hφ
  | readDenied ch h payload => exact execReadDenied_holds ch h payload s hφ
  | illegal ch h payload => exact execIllegal_holds ch h payload s hφ
  | caCheck ch h payload => exact execCaCheck_holds ch h payload s hφ
  | thermAlert ch h payload => exact execThermAlert_holds ch h payload s hφ
  | dieFault ch h payload => exact execDieFault_holds ch h payload s hφ
  | paborted ch h payload => exact execPaborted_holds ch h payload s hφ
  | readTimeout ch tag => exact execReadTimeout_holds ch tag s hφ
  | holdLimit ch die bank => exact execHoldLimit_holds ch die bank s hφ
  | heldReadReroute ch die bank => exact execHeldReadReroute_holds ch die bank s hφ
  | channelTrainTimeout ch => exact execChannelTrainTimeout_holds ch s hφ
  | zqcalTimer ch => exact execZqcalTimer_holds ch s hφ
  | spanReadTimeout tag => exact execSpanReadTimeout_holds tag s hφ
  | stageBoundary => exact execStageBoundary_holds s hφ
  | foldBatchTimer => exact execFoldBatchTimer_holds s hφ
  | foldAgeTrigger lfn => exact execFoldAgeTrigger_holds lfn s hφ
  | fastFrameIdleTimeout lfn => exact execFastFrameIdleTimeout_holds lfn s hφ
  | checkpointImageStart => exact execCheckpointImageStart_holds s hφ
  | dirtyMapGeneration => exact execDirtyMapGeneration_holds s hφ
  | patchLogRescanEnd => exact execPatchLogRescanEnd_holds s hφ
  | frameTableRestoreEnd lfn => exact execFrameTableRestoreEnd_holds lfn s hφ
  | hbmRemapCopyEnd hch => exact execHbmRemapCopyEnd_holds hch s hφ
  | heartbeat h state lock bound live admissions activating => exact execHeartbeat_holds h state lock bound live admissions activating s hφ
  | peerHeartbeatLoss r => exact execPeerHeartbeatLoss_holds r s hφ
  | majorityLoss => exact execMajorityLoss_holds s hφ
  | patchBatch h b => exact execPatchBatch_holds h b s hφ
  | patchRelease h rsnap llns => exact execPatchRelease_holds h rsnap llns s hφ
  | deltaChunkRequest h lfn t foldSeq => exact execDeltaChunkRequest_holds h lfn t foldSeq s hφ
  | deltaChunkData h lfn t foldSeq chunk payload => exact execDeltaChunkData_holds h lfn t foldSeq chunk payload s hφ
  | deltaChunkCommit h lfn t foldSeq => exact execDeltaChunkCommit_holds h lfn t foldSeq s hφ
  | deltaChunkDone h lfn t foldSeq => exact execDeltaChunkDone_holds h lfn t foldSeq s hφ
  | deltaChunkAbort h lfn t foldSeq => exact execDeltaChunkAbort_holds h lfn t foldSeq s hφ
  | deltaAckAdmitted h lfn foldSeq live => exact execDeltaAckAdmitted_holds h lfn foldSeq live s hφ
  | deltaAckBusy h lfn foldSeq live => exact execDeltaAckBusy_holds h lfn foldSeq live s hφ
  | deltaAckStaged h lfn foldSeq live => exact execDeltaAckStaged_holds h lfn foldSeq live s hφ
  | deltaAckCommitted h lfn foldSeq live => exact execDeltaAckCommitted_holds h lfn foldSeq live s hφ
  | deltaAckDone h lfn foldSeq live => exact execDeltaAckDone_holds h lfn foldSeq live s hφ
  | deltaAckAborted h lfn foldSeq live => exact execDeltaAckAborted_holds h lfn foldSeq live s hφ
  | deltaAckBatch h bseq live => exact execDeltaAckBatch_holds h bseq live s hφ
  | deltaAckResend h bseq live => exact execDeltaAckResend_holds h bseq live s hφ
  | reconReadBase h tag lfn line count => exact execReconReadBase_holds h tag lfn line count s hφ
  | reconReadRecord h tag lln ward => exact execReconReadRecord_holds h tag lln ward s hφ
  | reconReadMap h tag ward ldIndex certOk => exact execReconReadMap_holds h tag ward ldIndex certOk s hφ
  | reconReadBulk h tag lfn line count => exact execReconReadBulk_holds h tag lfn line count s hφ
  | reconData h tag part parts status body => exact execReconData_holds h tag part parts status body s hφ
  | timetable h cycle sgen entries crc => exact execTimetable_holds h cycle sgen entries crc s hφ
  | unhitchMessage h cause rnums => exact execUnhitchMessage_holds h cause rnums s hφ
  | peerCommandTimeout job peer => exact execPeerCommandTimeout_holds job peer s hφ
  | ptmDialogTimer => exact execPtmDialogTimer_holds s hφ
  | ptmResponse master delayNs => exact execPtmResponse_holds master delayNs s hφ
  | timemarkEdge => exact execTimemarkEdge_holds s hφ
  | ptmSampleLoss => exact execPtmSampleLoss_holds s hφ
  | timemarkLoss => exact execTimemarkLoss_holds s hφ
  | holdoverLimit => exact execHoldoverLimit_holds s hφ
  | lifeHourly => exact execLifeHourly_holds s hφ
  | atiHourPoint => exact execAtiHourPoint_holds s hφ
  | waybillFlushTimer => exact execWaybillFlushTimer_holds s hφ
  | ceLeakStep => exact execCeLeakStep_holds s hφ
  | strongboxWriteDone => exact execStrongboxWriteDone_holds s hφ
  | strongboxMarginRefresh slot weak => exact execStrongboxMarginRefresh_holds slot weak s hφ
  | vauxRise mv => exact execVauxRise_holds mv s hφ
  | vauxLow mv => exact execVauxLow_holds mv s hφ
  | vauxLoss => exact execVauxLoss_holds s hφ
  | vauxBandChange mv => exact execVauxBandChange_holds mv s hφ
  | sillReset => exact execSillReset_holds s hφ
  | mgmtWatchdog => exact execMgmtWatchdog_holds s hφ
  | pfNAssert => exact execPfNAssert_holds s hφ
  | pfNRelease => exact execPfNRelease_holds s hφ
  | seqInHigh => exact execSeqInHigh_holds s hφ
  | seqInLow => exact execSeqInLow_holds s hφ
  | cascadeStep => exact execCascadeStep_holds s hφ
  | railEnable r => exact execRailEnable_holds r s hφ
  | railDisable r => exact execRailDisable_holds r s hφ
  | pgGood r => exact execPgGood_holds r s hφ
  | pgLost r => exact execPgLost_holds r s hφ
  | pgGlitch r => exact execPgGlitch_holds r s hφ
  | railPgTimeout r => exact execRailPgTimeout_holds r s hφ
  | railOffTimeout r => exact execRailOffTimeout_holds r s hφ
  | minoffEnd => exact execMinoffEnd_holds s hφ
  | vcoreTrimStep answered => exact execVcoreTrimStep_holds answered s hφ
  | holdupStepDone vbank dq fault => exact execHoldupStepDone_holds vbank dq fault s hφ
  | holdupMeasureTimeout => exact execHoldupMeasureTimeout_holds s hφ
  | holdupMonitor answer => exact execHoldupMonitor_holds answer s hφ
  | flushStepEnd us => exact execFlushStepEnd_holds us s hφ
  | thermalSample readings => exact execThermalSample_holds readings s hφ
  | thermalHalfGrace => exact execThermalHalfGrace_holds s hφ
  | thermalGraceExpiry => exact execThermalGraceExpiry_holds s hφ
  | brakeFractionStep => exact execBrakeFractionStep_holds s hφ
  | sensorReadingTimeout n => exact execSensorReadingTimeout_holds n s hφ
  | startPhaseEnd hbmTrained => exact execStartPhaseEnd_holds hbmTrained s hφ
  | getVersion port => exact execGetVersion_holds port s hφ
  | getCapabilities port flags => exact execGetCapabilities_holds port flags s hφ
  | negotiateAlgorithms port supported => exact execNegotiateAlgorithms_holds port supported s hφ
  | getDigests port => exact execGetDigests_holds port s hφ
  | getCertificate port slot offset length => exact execGetCertificate_holds port slot offset length s hφ
  | challenge port slot nonce => exact execChallenge_holds port slot nonce s hφ
  | getMeasurements port index nonce => exact execGetMeasurements_holds port index nonce s hφ
  | keyExchange port reqSession exchange => exact execKeyExchange_holds port reqSession exchange s hφ
  | finish port session verifyOk => exact execFinish_holds port session verifyOk s hφ
  | keyUpdate port session op => exact execKeyUpdate_holds port session op s hφ
  | spdmHeartbeat port session => exact execSpdmHeartbeat_holds port session s hφ
  | endSession port session => exact execEndSession_holds port session s hφ
  | ideKm port session op sub key => exact execIdeKm_holds port session op sub key s hφ
  | patternFrame ch h pattern center0 center1 margin => exact execPatternFrame_holds ch h pattern center0 center1 margin s hφ
  | hdmDecoderCommit port ld dec base size ways gran pos dpaSkip => exact execHdmDecoderCommit_holds port ld dec base size ways gran pos dpaSkip s hφ
  | bankCharged vbank vmin eff => exact execBankCharged_holds vbank vmin eff s hφ
  | reserveCharged => exact execReserveCharged_holds s hφ
  | refclkReturn grp => exact execRefclkReturn_holds grp s hφ
  | warmResetEnd => exact execWarmResetEnd_holds s hφ
  | tzqEnd ch => exact execTzqEnd_holds ch s hφ
  | mediaPllLock ch => exact execMediaPllLock_holds ch s hφ
  | unknownMsg slot target msg tag => exact execUnknownMsg_holds slot target msg tag s hφ

/-- A fact that every operation keeps is kept by a step. -/
theorem step_holds {φ : Fact} (s : State) (hφ : Holds φ s) : Answers (step s) (Holds φ) := by
  cases hp : s.pending with
  | nil =>
    rw [step_of_pending_nil hp]
    exact ⟨_, rfl, idleTick_holds s hφ⟩
  | cons c rest =>
    rw [stepRunsFront c rest s hp]
    exact exec_holds c _ (holds_mk.2 hφ)

/-- Settles O56: the fuse is one of the facts every operation keeps. -/
theorem blownFuseStaysBlown : Obligations.BlownFuseStaysBlown := fun s h =>
  (step_holds s ((holds_fuse s).2 h)).mono (fun t => (holds_fuse t).1)

/-- Settles O57: every step holds the fact of canonical memory, one of those that all rows keep. -/
theorem strongboxStaysCanonical : Obligations.StrongboxStaysCanonical := fun s h =>
  (step_holds s ((holds_memory s).2 h)).mono (fun t => (holds_memory t).1)

/-- Settles O58: the sizes are another of those facts. -/
theorem tablesKeepTheirSizes : Obligations.TablesKeepTheirSizes := fun s h =>
  (step_holds s ((holds_sizes s).2 h)).mono (fun t => (holds_sizes t).1)

end Sys2Proof.Machine
end

section
/-! SUPPORT. What a writer and the tail timer do to a queue (R488, R489, R494), and O4 and O6 assembled from these facts. -/

namespace Sys2Proof.Machine

/-! ## Granting and writing -/

/-- The queue after a grant of its `d` words (R488). -/
def granted (d : Nat) (x : Queue) : Queue := { x with credit := x.rel + BitVec.ofNat 32 d }

/-- The queue with the word `w` stored at WR. -/
def stored (d : Nat) (w : QWord) (x : Queue) : Queue := { x with words := sput x.words (x.wr.toNat % d) w, wr := x.wr + 1 }

/-- An armed injection point fires; one that is not changes nothing. -/
def fireArmed (p u : Nat) (s : State) : State := if isArmed s p u then fire p u s else s

theorem fireArmed_queue (p u : Nat) (s : State) : (fireArmed p u s).queue = s.queue := by
  unfold fireArmed
  split <;> rfl

/-- An injection point fires beside the queues. -/
theorem fireArmed_setQ (p u q : Nat) (f : Queue → Queue) (s : State) : fireArmed p u (setQ q f s) = setQ q f (fireArmed p u s) := by
  change (if isArmed s p u then _ else _) = setQ q f (if isArmed s p u then _ else _)
  split <;> rfl

theorem qGrant_of_depth {q : Nat} {s : State} (h : qDepth s q ≠ 0) : qGrant q s = setQ q (granted (qDepth s q)) s := if_neg h

theorem qGrant_depth (q : Nat) (s : State) : qDepth (qGrant q s) q = qDepth s q := by
  unfold qGrant
  split <;> rfl

theorem fireArmed_depth (p u q : Nat) (s : State) : qDepth (fireArmed p u s) q = qDepth s q := by
  unfold fireArmed
  split <;> rfl

section
variable {q : Nat} {x : Queue} {s : State} (hx : s.queue.queues[q]? = some x)
include hx

/-- The words that fit, once the queue has its grant. -/
theorem qFree_grant : qFree (qGrant q s) q = qDepth s q - (x.wr - x.rel).toNat := by
  obtain ⟨c, hself, -, -⟩ := qGrant_becomes hx
  unfold qFree
  rw [qGrant_depth, qOf_eq hself]

theorem qPush_fits (w : BitVec 64) (p : Bool) (h : (x.wr - x.rel).toNat < qDepth s q) : qPush q w p s =
    (true, setQ q (stored (qDepth s q) ⟨w, wordParity w != isArmed s 0x000B (0x900000 + q), p⟩)
      (setQ q (granted (qDepth s q)) (fireArmed 0x000B (0x900000 + q) s))) := by
  have hfree := qFree_grant hx
  unfold qPush
  rw [qGrant_of_depth (Nat.ne_zero_of_lt h)] at hfree ⊢
  extract_lets t hit u
  have hdepth : qDepth u q = qDepth s q := fireArmed_depth 0x000B (0x900000 + q) q t
  have hfree : qFree t q = qDepth s q - (x.wr - x.rel).toNat := hfree
  rw [if_neg (by omega), hdepth, ← fireArmed_setQ]
  rfl

theorem qPush_full (w : BitVec 64) (p : Bool) (h : qDepth s q ≤ (x.wr - x.rel).toNat) : qPush q w p s = (false, qGrant q s) := by
  have hfree := qFree_grant hx
  unfold qPush
  exact if_pos (by omega)

end

theorem queueWrite_fits {q : Fin 64} {x : Queue} {s : State} (hx : s.queue.queues[q.val]? = some x) (w : BitVec 64) (p : Bool)
    (h : (x.wr - x.rel).toNat < qDepth s q) : Ends (.queueWrite q w p) s (fun u =>
      QueueBecomes q (stored (qDepth s q) ⟨w, wordParity w != isArmed s 0x000B (0x900000 + q), p⟩ (granted (qDepth s q) x))
        (fireArmed 0x000B (0x900000 + q) (begin s)) u) := by
  have hx' : (fireArmed 0x000B (0x900000 + q) (begin s)).queue.queues[q.val]? = some x := by rw [fireArmed_queue]; exact hx
  have hgrant := setQ_becomes (granted (qDepth s q)) hx'
  have hstore := hgrant.trans (setQ_becomes (stored (qDepth s q) ⟨w, wordParity w != isArmed s 0x000B (0x900000 + q), p⟩) hgrant.1)
  refine ends_of_ran ?_ hstore
  change execQueueWrite q w p s = _
  unfold execQueueWrite
  rw [qPush_fits (s := begin s) hx w p h]
  rfl

theorem queueWrite_full {q : Fin 64} {x : Queue} {s : State} (hx : s.queue.queues[q.val]? = some x) (w : BitVec 64) (p : Bool)
    (h : qDepth s q ≤ (x.wr - x.rel).toNat) : Ends (.queueWrite q w p) s (fun u => ∃ v c, u = queueRecord q 0 v ∧
      QueueBecomes q { x with credit := c, overrun := true } (begin s) v) := by
  obtain ⟨c, hgrant⟩ := qGrant_becomes (s := begin s) hx
  refine ends_of_ran ?_ ⟨_, c, rfl, hgrant.trans (setQ_becomes (fun x => { x with overrun := true }) hgrant.1)⟩
  change execQueueWrite q w p s = _
  unfold execQueueWrite
  rw [qPush_full (s := begin s) hx w p h]
  rfl

/-- Settles O4: a word that fits is stored behind a grant, beside the injection point; one that does not meets the grant alone. -/
theorem queueWriteStoresOrFlags : Obligations.QueueWriteStoresOrFlags := by
  intro s q x w p hx
  refine ⟨fun h => (queueWrite_fits hx w p h).mono ?_, fun h => (queueWrite_full hx w p h).mono ?_⟩
  · rintro u ⟨hself, hother, hframe⟩
    refine ⟨⟨_, hself, rfl, rfl, rfl, rfl, rfl, rfl, sget_sput_self _ _ _ _, fun k hk => sget_sput_ne _ _ _ hk⟩, fun k hk => ?_, ?_⟩
    · rw [hother k hk, fireArmed_queue]
      rfl
    · calc { u with queue := s.queue, evt := s.evt }
          = { { u with queue := (fireArmed 0x000B (0x900000 + q) (begin s)).queue } with queue := s.queue, evt := s.evt } := rfl
        _ = { fireArmed 0x000B (0x900000 + q) (begin s) with queue := s.queue, evt := s.evt } := by rw [hframe]
        _ = { s with out := [] } := by unfold fireArmed; split <;> rfl
  · rintro u ⟨v, c, hrecord, hself, hother, hframe⟩
    exact ⟨v, hrecord, ⟨_, hself, rfl, rfl, rfl, rfl, rfl, rfl⟩, hother, hframe⟩

/-! ## Interrupts -/

/-- A vector's pending bit is all that masking it leaves behind. -/
theorem fnMsix_pendVec (f v g : Nat) (s : State) : ∃ b, fnMsix (pendVec f v s) g = { fnMsix s g with pending := b } := by
  unfold pendVec
  dsimp only
  split
  · by_cases hg : g = f
    · subst hg
      refine ⟨(fnMsix s g).pending ||| (1#32 <<< v), ?_⟩
      rw [fnMsix, sfind_sput_self]
      rfl
    · refine ⟨(fnMsix s g).pending, ?_⟩
      rw [fnMsix, sfind_sput_ne _ _ hg]
      rfl
  · exact ⟨_, rfl⟩

/-- Interrupt bookkeeping changes neither which vectors a link takes, nor the queues, nor the notice vector. -/
def SameLinks (s u : State) : Prop :=
  (∀ w, anyLink u w = anyLink s w) ∧ u.queue = s.queue ∧ u.evt.noticeVec = s.evt.noticeVec

theorem SameLinks.trans {s t u : State} (hst : SameLinks s t) (htu : SameLinks t u) : SameLinks s u := by
  obtain ⟨h1, h2, h3⟩ := hst
  obtain ⟨k1, k2, k3⟩ := htu
  exact ⟨fun w => (k1 w).trans (h1 w), k2.trans h2, k3.trans h3⟩

theorem sameLinks_pendVec (f v : Nat) (s : State) : SameLinks s (pendVec f v s) := by
  have hhost : (pendVec f v s).host = s.host := by
    unfold pendVec
    dsimp only
    split <;> rfl
  refine ⟨fun w => ?_, ?_, ?_⟩
  · unfold anyLink bar2Fn
    rw [hhost]
    refine congrArg (List.any _) (funext fun p => ?_)
    obtain ⟨b, hb⟩ := fnMsix_pendVec f v (if (s.host.ports.getD p {}).mld then 64 + p else 16 * p) s
    simp only [hb, vecMasked]
  all_goals
    unfold pendVec
    dsimp only
    split <;> rfl

/-- Signalling a vector adds one answer where a link takes it. -/
theorem signal_links (v : BitVec 5) (s : State) : SameLinks s (signal v s) ∧ (anyLink s v = true → .msix v ∈ (signal v s).out) := by
  unfold signal
  extract_lets t
  have ht : SameLinks s t := List.foldlRecOn _ _ ⟨fun _ => rfl, rfl, rfl⟩ (fun t ht p _ => by
    split
    · exact ht.trans (sameLinks_pendVec _ _ _)
    · exact ht)
  clear_value t
  split
  · exact ⟨ht, fun _ => List.mem_append_right _ (List.mem_singleton.2 rfl)⟩
  · next h => exact ⟨ht, fun hv => absurd ((ht.1 v).trans hv) h⟩

theorem setEvt_links (b : Nat) (s : State) : SameLinks s (setEvt b s) := by
  unfold setEvt
  extract_lets e first s'
  split
  · exact (signal_links e.vector s').1
  · exact ⟨fun _ => rfl, rfl, rfl⟩

theorem signal_links_setEvt {b : Nat} {s : State} (h : anyLink s s.evt.noticeVec = true) :
    (signal (setEvt b s).evt.noticeVec (setEvt b s)).queue = s.queue ∧ .msix s.evt.noticeVec ∈ (signal (setEvt b s).evt.noticeVec (setEvt b s)).out := by
  obtain ⟨hlink, hqueue, hvec⟩ := setEvt_links b s
  obtain ⟨⟨-, hqueue', -⟩, hout⟩ := signal_links (setEvt b s).evt.noticeVec (setEvt b s)
  refine ⟨hqueue'.trans hqueue, ?_⟩
  rw [hvec] at hout ⊢
  exact hout ((hlink _).trans h)

/-! ## The tail timer -/

/-- Settles O6: the row branches on the use of the queue and on whether it holds a word. -/
theorem queueTailExpiryActsByUse : Obligations.QueueTailExpiryActsByUse := by
  intro s q x hx
  obtain ⟨htail, -, hframe⟩ := setQ_becomes (s := begin s) (fun x => { x with tailFlag := true }) hx
  have hq : qOf (begin s) q = x := qOf_eq (s := begin s) hx
  have huse : qUse (begin s) q = qUse s q := rfl
  have hrow {u : State} {P : State → Prop} (hu : execQueueTailExpiry q s = ran u) (h : P u) : Ends (.queueTailExpiry q) s P := ends_of_ran hu h
  unfold execQueueTailExpiry at hrow
  dsimp only at hrow
  rw [hq, huse] at hrow
  refine ⟨fun hempty hnot => ?_, fun h st hst hopen => ?_, fun h hheld => ?_, fun h hheld hlink => ?_, fun h3 h4 hheld => ?_⟩
  · refine hrow ?_ rfl
    have hheld : (x.wr != x.rd) = false := by rw [hempty]; exact bne_self_eq_false _
    rw [hheld]
    split <;> first | contradiction | rfl
  · refine hrow ?_ rfl
    have hopened : (match (begin s).span.streams[q.val]? with | some st => !st.opened.isEmpty | none => false) = true := by
      rw [show (begin s).span.streams[q.val]? = some st from hst]
      simpa using hopen
    rw [h]
    exact if_pos hopened
  · refine hrow ?_ rfl
    rw [h]
    exact if_pos (bne_iff_ne.2 hheld)
  · obtain ⟨hqueue, hout⟩ := signal_links_setEvt (b := evNotice) (s := setQ q (fun x => { x with tailFlag := true }) (begin s)) hlink
    refine hrow ?_ ⟨(congrArg (·.queues[q.val]?) hqueue).trans htail, hout⟩
    rw [h]
    exact if_pos (bne_iff_ne.2 hheld)
  · refine hrow (u := queueRecord q 2 (send (setQ q (fun x => { x with tailFlag := true }) (begin s)) (.coreNotice q))) ?_
      ⟨_, rfl, rfl, htail, hframe⟩
    split
    · omega
    · omega
    · contradiction
    · omega
    · exact if_pos (bne_iff_ne.2 hheld)

end Sys2Proof.Machine
end

section
/-! SUPPORT. The fields of a query's answer, and O7 assembled from them. -/

namespace Sys2Proof.Machine

/-! ## What an answer holds -/

/-- A value of `w` bits in `n` bytes that hold it. -/
theorem toNat_mod_bytes {w : Nat} (x : BitVec w) {n : Nat} (h : w ≤ 8 * n) : x.toNat % 2 ^ (8 * n) = x.toNat :=
  Nat.mod_eq_of_lt (x.isLt.trans_le (Nat.pow_le_pow_right Nat.two_pos h))

theorem field_reply_padTo {l : List Byte} {k o n : Nat} (h : o + n ≤ l.length) :
    field (reply 0 0 (padTo (max k l.length) l)) (4 + o) n = field l o n := by
  rw [field_reply _ _ _ _ _ (Nat.le_add_right 4 o), Nat.add_sub_cancel_left, field_padTo _ _ _ _ h (Nat.le_max_right k _)]

/-- The output follows MSTAT and JOB. -/
theorem output_prefix (k : Nat) (l : List Byte) : l <+: (reply 0 0 (padTo (max k l.length) l)).drop 4 := by
  have h : (reply 0 0 (padTo (max k l.length) l)).drop 4 = padTo (max k l.length) l := rfl
  rw [h, padTo, List.take_of_length_le (Nat.le_max_right _ _)]
  exact List.prefix_append _ _

theorem field_past {l r : List Byte} {o n : Nat} (h : l.length ≤ o) : field (l ++ r) o n = field r (o - l.length) n := by
  rw [← field_skip l r, Nat.add_sub_cancel' h]

theorem ownRole_lt (s : State) : ownRole s < 2 ^ (8 * 1) := by
  unfold ownRole
  split
  · exact (Nat.mod_lt _ (by decide)).trans (by decide : 2 ^ 3 < 2 ^ (8 * 1))
  · decide

/-- What a query's answer `p` says: DONE, then the output `l`, whose fields it holds. -/
def Shows (l p : List Byte) : Prop := field p 0 4 = 0 ∧ l <+: p.drop 4 ∧ ∀ o n, o + n ≤ l.length → field p (4 + o) n = field l o n

theorem shows_answer (k : Nat) (l : List Byte) : Shows l (reply 0 0 (padTo (max k l.length) l)) :=
  ⟨rfl, output_prefix k l, fun _ _ h => field_reply_padTo h⟩

/-- A query that is heard and that nothing refuses answers with its output. -/
theorem ends_shows {v : VSpec} {c : Caller} {inp : List Byte} {early late : State → Option VAns} {f : State → List Byte} {s : State}
    {need : Nat} (i : Instr) (hi : exec i s = onVendor v c inp early late (vQuery f) id s) (h : Heard c inp s v.host v.star v.lock v.span need)
    (hf : ∀ f ∈ v.fields, f.1 + f.2 ≤ need) (he : early (begin s) = none) (hl : late (begin s) = none) :
    Ends i s (fun u => ∃ p, Replies c s p u ∧ Shows (f (begin s)) p) := by
  refine ends_query i hi h hf he hl _ (fun p hp => ⟨p, rfl, ?_⟩)
  rw [hp]
  exact shows_answer _ _

/-- A command that is heard, that nothing refuses, and whose effect is done at once: DONE with its output. -/
theorem ends_act {v : VSpec} {c : Caller} {inp : List Byte} {early late : State → Option VAns} {act : State → VAns × State} {s t : State}
    {need : Nat} {l : List Byte} (i : Instr) (hi : exec i s = onVendor v c inp early late act id s)
    (h : Heard c inp s v.host v.star v.lock v.span need) (hf : ∀ f ∈ v.fields, f.1 + f.2 ≤ need) (he : early (begin s) = none)
    (hl : late (begin s) = none) (ha : act (begin s) = (vDone l, t)) :
    Ends i s (fun u => ∃ p, u = send t (.vendor c .success p) ∧ Shows l p) := by
  refine ⟨_, hi.trans (onVendor_heard h hf he hl), ?_⟩
  rw [ha]
  refine ⟨reply 0 0 (padTo (max v.outLen l.length) l), ?_, shows_answer v.outLen l⟩
  simp only [vDone, vPayload]
  rfl

section
variable {c : Caller} {inp : List Byte} {s : State}

theorem merlasIdentify_answers (h : Heard c inp s true true false false 0) : Ends (.merlasIdentify c inp) s (fun u => ∃ p, Replies c s p u ∧
    field p 0 4 = 0 ∧ field p 4 1 = variantCode s ∧ field p 10 1 = s.sec.pl.toNat ∧ field p 12 8 = s.id.serial.toNat) := by
  refine (ends_shows (.merlasIdentify c inp) rfl h (by simp) rfl rfl).mono ?_
  rintro u ⟨p, hu, h0, -, hp⟩
  have hlen : (identifyOut (begin s)).length = 33 := by simp [identifyOut]
  rw [hlen] at hp
  have hv : variantCode s % 2 ^ (8 * 1) = variantCode s := by unfold variantCode; split <;> rfl
  refine ⟨p, hu, h0, (hp 0 1 (by omega)).trans ?_, (hp 6 1 (by omega)).trans ?_, (hp 8 8 (by omega)).trans ?_⟩
  all_goals
    simp (disch := omega) only [identifyOut, List.append_assoc, field_behind, field_front, Nat.reduceSub]
  · exact hv
  · exact toNat_mod_bytes _ (by omega)
  · exact toNat_mod_bytes _ (by omega)

theorem timeQuery_answers (h : Heard c inp s true true false false 0) : Ends (.timeQuery c inp) s (fun u => ∃ p, Replies c s p u ∧
    field p 0 4 = 0 ∧ field p 4 8 = s.time.ftime.toNat ∧ field p 12 1 = timeCode s.time.mode ∧ field p 13 1 = srcCode s.time.source) := by
  refine (ends_shows (.timeQuery c inp) rfl h (by simp) rfl rfl).mono ?_
  rintro u ⟨p, hu, h0, -, hp⟩
  have hlen : (timeOut (begin s)).length = 32 := by simp [timeOut]
  rw [hlen] at hp
  refine ⟨p, hu, h0, (hp 0 8 (by omega)).trans ?_, (hp 8 1 (by omega)).trans ?_, (hp 9 1 (by omega)).trans ?_⟩
  all_goals
    simp (disch := omega) only [timeOut, List.append_assoc, field_behind, field_front, Nat.reduceSub]
  · exact toNat_mod_bytes _ (by omega)
  · change timeCode s.time.mode % 256 = _
    cases s.time.mode <;> rfl
  · change srcCode s.time.source % 256 = _
    cases s.time.source <;> rfl

theorem powerQuery_answers (h : Heard c inp s false true false false 0) : Ends (.powerQuery c inp) s (fun u => ∃ p, Replies c s p u ∧
    field p 0 4 = 0 ∧ field p 4 1 = seqCode s.power.seq ∧ field p 6 2 = s.power.cause.toNat ∧ field p 8 4 = s.power.good.toNat ∧
    field p 12 4 = s.power.flagged.toNat ∧ field p 16 4 = s.power.e.toNat) := by
  refine (ends_shows (.powerQuery c inp) rfl h (by simp) rfl rfl).mono ?_
  rintro u ⟨p, hu, h0, -, hp⟩
  have hlen : (powerOut (begin s)).length = 32 := by simp [powerOut]
  rw [hlen] at hp
  refine ⟨p, hu, h0, (hp 0 1 (by omega)).trans ?_, (hp 2 2 (by omega)).trans ?_, (hp 4 4 (by omega)).trans ?_, (hp 8 4 (by omega)).trans ?_,
    (hp 12 4 (by omega)).trans ?_⟩
  all_goals
    simp (disch := omega) only [powerOut, List.append_assoc, field_behind, field_front, Nat.reduceSub]
  · change seqCode s.power.seq % 256 = _
    cases s.power.seq <;> rfl
  all_goals exact toNat_mod_bytes _ (by omega)

theorem thermalQuery_answers (h : Heard c inp s true true false false 0) : Ends (.thermalQuery c inp) s (fun u => ∃ p, Replies c s p u ∧
    field p 0 4 = 0 ∧ field p 4 2 = s.therm.tg.toNat ∧ field p 6 2 = s.therm.notice.toNat ∧ field p 8 2 = s.therm.grace.toNat ∧
    field p 10 2 = throttleCode s.therm.throttle) := by
  refine (ends_shows (.thermalQuery c inp) rfl h (by simp) rfl rfl).mono ?_
  rintro u ⟨p, hu, h0, -, hp⟩
  have hlen : (thermalOut (begin s)).length = 13 := by simp [thermalOut]
  rw [hlen] at hp
  refine ⟨p, hu, h0, (hp 0 2 (by omega)).trans ?_, (hp 2 2 (by omega)).trans ?_, (hp 4 2 (by omega)).trans ?_, (hp 6 2 (by omega)).trans ?_⟩
  all_goals
    simp (disch := omega) only [thermalOut, List.append_assoc, field_behind, field_front, Nat.reduceSub]
  · exact toNat_mod_bytes _ (by omega)
  · exact toNat_mod_bytes _ (by omega)
  · exact toNat_mod_bytes _ (by omega)
  · change throttleCode s.therm.throttle % 2 ^ 16 = _
    cases s.therm.throttle <;> rfl

theorem secQuery_answers (h : Heard c inp s true true false false 0) : Ends (.secQuery c inp) s (fun u => ∃ p, Replies c s p u ∧
    field p 0 4 = 0 ∧ field p 4 1 = s.sec.pl.toNat ∧ field p 8 4 = s.fw.runSvn.toNat) := by
  refine (ends_shows (.secQuery c inp) rfl h (by simp) rfl rfl).mono ?_
  rintro u ⟨p, hu, h0, -, hp⟩
  have hlen : (secOut (begin s)).length = 8 := by simp [secOut]
  rw [hlen] at hp
  refine ⟨p, hu, h0, (hp 0 1 (by omega)).trans ?_, (hp 4 4 (by omega)).trans ?_⟩
  all_goals
    simp (disch := omega) only [secOut, List.append_assoc, field_behind, field_front, field_last, Nat.reduceSub]
    exact toNat_mod_bytes _ (by omega)

theorem sboxQuery_answers (h : Heard c inp s false true false false 0) : Ends (.sboxQuery c inp) s (fun u => ∃ p, Replies c s p u ∧
    field p 0 4 = 0 ∧ field p 4 4 = 8) := by
  refine (ends_shows (.sboxQuery c inp) rfl h (by simp) rfl rfl).mono ?_
  rintro u ⟨p, hu, h0, -, hp⟩
  refine ⟨p, hu, h0, (hp 0 4 ?_).trans (field_front _ _ _)⟩
  simp [sboxOut]

theorem waybillRead_answers (h : Heard c inp s false true false false 5) (hlo : 1 ≤ field inp 4 1) (hhi : field inp 4 1 ≤ 63) :
    Ends (.waybillRead c inp) s (fun u => ∃ p, Replies c s p u ∧ field p 0 4 = 0 ∧ field p 4 4 = s.wb.next.toNat ∧
      field p 8 4 = s.wb.lost.toNat ∧ field p 12 4 = (wbFrom s (BitVec.ofNat 32 (field inp 0 4)) (field inp 4 1)).length) := by
  have hn : (Nat.blt (field inp 4 1) 1 || Nat.blt 63 (field inp 4 1)) = false := by
    rw [Bool.or_eq_false_iff, ← Bool.not_eq_true, ← Bool.not_eq_true, Nat.blt_eq, Nat.blt_eq]
    omega
  refine (ends_shows (.waybillRead c inp) rfl h (by simp) (congrArg (chk · _) hn) rfl).mono ?_
  rintro u ⟨p, hu, h0, -, hp⟩
  have hlen : (wbFrom s (BitVec.ofNat 32 (field inp 0 4)) (field inp 4 1)).length ≤ 63 := (List.length_take_le _ _).trans hhi
  change ∀ o n, o + n ≤ (_ : List Byte).length → field p (4 + o) n = field (bytesOf 4 s.wb.next.toNat ++ bytesOf 4 s.wb.lost.toNat ++
    bytesOf 4 (wbFrom s (BitVec.ofNat 32 (field inp 0 4)) (field inp 4 1)).length ++ _) o n at hp
  refine ⟨p, hu, h0, (hp 0 4 ?_).trans ?_, (hp 4 4 ?_).trans ?_, (hp 8 4 ?_).trans ?_⟩
  case refine_1 | refine_3 | refine_5 => simp only [List.length_append, bytesOf_length]; omega
  all_goals simp (disch := omega) only [List.append_assoc, field_behind, field_front, Nat.reduceSub]
  · exact toNat_mod_bytes _ (by omega)
  · exact toNat_mod_bytes _ (by omega)
  · exact Nat.mod_eq_of_lt (by omega)

theorem spanQuery_answers (h : Heard c inp s false true false true 0) : Ends (.spanQuery c inp) s (fun u => ∃ p, Replies c s p u ∧
    field p 0 4 = 0 ∧ field p 68 1 = s.span.spanState.toNat ∧ field p 69 1 = ownRole s) := by
  refine (ends_shows (.spanQuery c inp) rfl h (by simp) rfl rfl).mono ?_
  rintro u ⟨p, hu, h0, -, hp⟩
  have hdesc : (match s.span.desc with | some d => spanDescBytes d | none => List.replicate 64 0).length = 64 := by
    cases s.span.desc with
    | none => rfl
    | some d => simp [spanDescBytes, List.length_flatMap, Function.comp_def]
  change ∀ o n, o + n ≤ (List.length ((match s.span.desc with | some d => spanDescBytes d | none => List.replicate 64 0) ++ _ ++ _ ++ _ ++ _)) →
    field p (4 + o) n = field ((match s.span.desc with | some d => spanDescBytes d | none => List.replicate 64 0) ++
      bytesOf 1 s.span.spanState.toNat ++ bytesOf 1 (ownRole s) ++ [0, 0] ++ _) o n at hp
  generalize (match s.span.desc with | some d => spanDescBytes d | none => List.replicate 64 0) = d at hdesc hp
  have hrole : ownRole s % 2 ^ (8 * 1) = ownRole s := Nat.mod_eq_of_lt (ownRole_lt s)
  refine ⟨p, hu, h0, (hp 64 1 ?_).trans ?_, (hp 65 1 ?_).trans ?_⟩
  case refine_1 | refine_3 => simp only [List.length_append, bytesOf_length, hdesc]; omega
  all_goals
    rw [List.append_assoc, List.append_assoc, List.append_assoc, field_past (by omega), hdesc]
    simp (disch := omega) only [field_behind, field_front, Nat.reduceSub]
  · exact toNat_mod_bytes _ (by omega)
  · exact hrole

theorem poolGet_answers (h : Heard c inp s false true false true 2) (hi : field inp 0 2 ≤ 511) {e : PoolEntry}
    (he : sfind s.span.pool (field inp 0 2) = some e) : Ends (.poolGet c inp) s (fun u => ∃ p, Replies c s p u ∧ field p 0 4 = 0 ∧
      poolBytes e <+: p.drop 4) := by
  have hn : Nat.blt 511 (field inp 0 2) = false := by
    rw [← Bool.not_eq_true, Nat.blt_eq]
    omega
  refine (ends_shows (.poolGet c inp) rfl h (by simp) (congrArg (chk · _) hn) rfl).mono ?_
  rintro u ⟨p, hu, h0, hp, -⟩
  change (match sfind s.span.pool (field inp 0 2) with | some e => poolBytes e | none => []) <+: _ at hp
  rw [he] at hp
  exact ⟨p, hu, h0, hp⟩

theorem capQuery_answers (h : Heard c inp s true true false false 4) {e : Nat × List Byte}
    (he : (capEntries 0 (capFields s)).find? (fun e => e.1 == field inp 0 4) = some e) :
    Ends (.capQuery c inp) s (fun u => ∃ p, Replies c s p u ∧ field p 0 4 = 0 ∧ e.2 <+: p.drop 4) := by
  have he' : (capEntries 0 (capFields (begin s))).find? (fun e => e.1 == field inp 0 4) = some e := he
  refine (ends_shows (.capQuery c inp) rfl h (by simp) (congrArg (fun x => chk x.isNone _) he') rfl).mono ?_
  rintro u ⟨p, hu, h0, hp, -⟩
  dsimp only at hp
  rw [he'] at hp
  exact ⟨p, hu, h0, hp⟩

theorem unitQuery_answers (h : Heard c inp s true true false false 4) (hk : unitKnown (field inp 0 3) = true) :
    Ends (.unitQuery c inp) s (fun u => ∃ p, Replies c s p u ∧ field p 0 4 = 0 ∧ field p 4 1 = ustCode (ownState s (field inp 0 3)) ∧
      field p 5 1 = ustCode (reportedState s (field inp 0 3)) ∧ field p 6 1 = (unitRec s (field inp 0 3)).reason.toNat) := by
  refine (ends_shows (.unitQuery c inp) rfl h (by simp) (congrArg (fun b => chk (!b) _) hk) rfl).mono ?_
  rintro u ⟨p, hu, h0, -, hp⟩
  have hust (x : UState) : ustCode x % 2 ^ (8 * 1) = ustCode x := by cases x <;> rfl
  have hlen : (unitOut (unitIn inp) (begin s)).length = 20 := by simp [unitOut]
  rw [hlen] at hp
  refine ⟨p, hu, h0, (hp 0 1 (by omega)).trans ?_, (hp 1 1 (by omega)).trans ?_, (hp 2 1 (by omega)).trans ?_⟩
  all_goals
    simp (disch := omega) only [unitOut, List.append_assoc, field_behind, field_front, Nat.reduceSub]
  · exact hust _
  · exact hust _
  · exact toNat_mod_bytes _ (by omega)

theorem unitQuery_unknown (h : Heard c inp s true true false false 4) (hk : unitKnown (field inp 0 3) = false) :
    Ends (.unitQuery c inp) s (Replies c s (reply 0x0202 0 (bytesOf 4 (field inp 0 3)))) :=
  ends_refused (.unitQuery c inp) (vUnknownUnit (field inp 0 3)) rfl h (by simp)
    (congrArg (fun b => firstOf [chk (!b) (vUnknownUnit (field inp 0 3)), none]) hk) (by decide : 1 < 0x0202)

theorem unitList_answers (h : Heard c inp s false true false false 8) (hk : unitKnown (field inp 0 3) = true) :
    Ends (.unitList c inp) s (fun u => ∃ p, Replies c s p u ∧ field p 0 4 = 0 ∧
      field p 4 4 = (children s (field inp 0 3)).length % 2 ^ 32) := by
  refine (ends_shows (.unitList c inp) rfl h (by simp) (congrArg (fun b => chk (!b) _) hk) rfl).mono ?_
  rintro u ⟨p, hu, h0, -, hp⟩
  refine ⟨p, hu, h0, (hp 0 4 ?_).trans ?_⟩
  · simp only [unitListOut, List.length_append, bytesOf_length]
    omega
  · simp only [unitListOut, List.append_assoc, field_front]
    rfl

theorem foldStatus_answers (h : Heard c inp s true false false false 12) {l : Nat} (hl : inputLfn s c inp = some l) (hlt : l < 2 ^ 24)
    (hr : framesReady s = true) : Ends (.foldStatus c inp) s (fun u => ∃ p, Replies c s p u ∧ field p 0 4 = 0 ∧
      field p 4 1 = ftMode (ftEntry s l) ∧ field p 16 4 = l) := by
  have hl' : inputLfn (begin s) c inp = some l := hl
  have hr' : framesReady (begin s) = true := hr
  have hearly : frameEarly c inp (begin s) = none := by
    unfold frameEarly
    rw [hl']
    unfold inputLfn at hl
    obtain ⟨i, hi, -⟩ := Option.bind_eq_some_iff.1 hl
    rw [show ldNamed (begin s) c (frameIn inp).ld = some i from hi]
    rfl
  refine (ends_shows (.foldStatus c inp) rfl h (by decide) hearly (congrArg (fun b => chk (!b) _) hr')).mono ?_
  rintro u ⟨p, hu, h0, -, hp⟩
  have hlen : (foldOut ((inputLfn (begin s) c inp).getD 0) (begin s)).length = 16 := by simp [foldOut]
  dsimp only at hp
  rw [hlen, hl'] at hp
  refine ⟨p, hu, h0, (hp 0 1 (by omega)).trans ?_, (hp 12 4 (by omega)).trans ?_⟩
  all_goals
    simp (disch := omega) only [foldOut, List.append_assoc, field_behind, field_front, field_last, Nat.reduceSub]
  · exact Nat.mod_eq_of_lt ((Nat.mod_lt _ (by decide)).trans (by decide : 2 ^ 3 < 2 ^ (8 * 1)))
  · exact Nat.mod_eq_of_lt (hlt.trans (by decide))

/-- A job that runs shows the progress drawn for it, which does not fall (R444). -/
def progressed (j : Job) (s : State) : Nat := max j.progress ((drawBits 10 s).1.toNat % 1000)

/-- The state after the progress of job `j` was drawn. -/
def withProgress (j : Job) (s : State) : State :=
  { s with
    free := s.free + 1
    unit := { s.unit with running := s.unit.running.map (fun x => if x.id = j.id then { j with progress := progressed j s } else x) } }

theorem jobShown_done {j : Job} {n : Nat} (hj : jobKept s c n = some j) (hd : j.done = true) : jobShown s c n = (vDone (jobOut j), s) := by
  unfold jobShown
  rw [hj]
  exact if_pos hd

theorem jobShown_running {j : Job} {n : Nat} (hj : jobKept s c n = some j) (hd : j.done = false) :
    jobShown s c n = (vDone (jobOut { j with progress := progressed j s }), withProgress j s) := by
  unfold jobShown
  rw [hj]
  exact if_neg (by rw [hd]; exact Bool.false_ne_true)

/-- JOB_STATUS of a kept job ends with what it shows. -/
theorem jobStatus_ends {j : Job} {t : State} (h : Heard c inp s true true false false 2) (hj : jobKept s c (field inp 0 2) = some j)
    {l : List Byte} (hs : jobShown (begin s) c (field inp 0 2) = (vDone l, t)) :
    Ends (.jobStatus c inp) s (fun u => ∃ p, u = send t (.vendor c .success p) ∧ Shows l p) := by
  have hkept : chk (jobKept (begin s) c (field inp 0 2)).isNone (vRange 0) = none := by
    rw [show jobKept (begin s) c (field inp 0 2) = some j from hj]
    rfl
  have hexec : exec (.jobStatus c inp) s = execJobStatus c inp s := rfl
  exact ends_act (.jobStatus c inp) hexec h (by decide) hkept rfl hs

theorem jobOut_fields {j : Job} {p : List Byte} (hp : Shows (jobOut j) p) : field p 0 4 = 0 ∧ field p 4 2 = j.opcode.toNat ∧ field p 6 2 = b2n j.done := by
  obtain ⟨h0, -, hp⟩ := hp
  have hlen : (jobOut j).length = 16 := by simp [jobOut]
  rw [hlen] at hp
  refine ⟨h0, (hp 0 2 (by omega)).trans ?_, (hp 2 2 (by omega)).trans ?_⟩
  all_goals
    simp (disch := omega) only [jobOut, List.append_assoc, field_behind, field_front, Nat.reduceSub]
  · exact toNat_mod_bytes _ (by omega)
  · cases j.done <;> rfl

theorem jobStatus_done {j : Job} (h : Heard c inp s true true false false 2) (hj : jobKept s c (field inp 0 2) = some j) (hd : j.done = true) :
    Ends (.jobStatus c inp) s (fun u => ∃ p, Replies c s p u ∧ field p 0 4 = 0 ∧ field p 4 2 = j.opcode.toNat ∧ field p 6 2 = 1) := by
  refine (jobStatus_ends h hj (jobShown_done (s := begin s) hj hd)).mono ?_
  rintro u ⟨p, hu, hp⟩
  obtain ⟨h0, hop, hdone⟩ := jobOut_fields hp
  rw [hd] at hdone
  exact ⟨p, hu, h0, hop, hdone⟩

theorem jobStatus_running {j : Job} (h : Heard c inp s true true false false 2) (hj : jobKept s c (field inp 0 2) = some j) (hd : j.done = false) :
    Ends (.jobStatus c inp) s (fun u => ∃ (p : List Byte) (pr : Nat), u.out = [.vendor c .success p] ∧ field p 0 4 = 0 ∧
      field p 4 2 = j.opcode.toNat ∧ field p 6 2 = 0 ∧ j.progress ≤ pr ∧ pr ≤ max j.progress 999 ∧
      u.unit.running = s.unit.running.map (fun x => if x.id = j.id then { j with progress := pr } else x) ∧
      { u with unit := { u.unit with running := s.unit.running }, free := s.free, out := [] } = begin s) := by
  refine (jobStatus_ends h hj (jobShown_running (s := begin s) hj hd)).mono ?_
  rintro u ⟨p, rfl, hp⟩
  obtain ⟨h0, hop, hdone⟩ := jobOut_fields hp
  change field p 6 2 = b2n j.done at hdone
  rw [hd] at hdone
  have hlt : (drawBits 10 (begin s)).1.toNat % 1000 ≤ 999 := Nat.le_of_lt_succ (Nat.mod_lt _ (by decide))
  exact ⟨p, progressed j (begin s), rfl, h0, hop, hdone, le_max_left _ _, max_le_max_left _ hlt, rfl, rfl⟩

theorem sfind_partitions_le {k : Nat} {e : Nat × Nat} (h : sfind partitions k = some e) : k ≤ 7 := by
  by_contra hk
  have hne (j : Nat) (hj : j ≤ 7) : j ≠ k := by omega
  simp [partitions, sfind, hne] at h

theorem sboxRead_answers (h : Heard c inp s false true false false 10) {base size : Nat}
    (hpart : sfind partitions (field inp 0 1) = some (base, size)) (h5 : field inp 0 1 ≠ 5) (hoff : field inp 4 4 < size)
    (hlo : 1 ≤ field inp 8 2) (hhi : field inp 8 2 ≤ 4088) (hend : field inp 4 4 + field inp 8 2 ≤ size) :
    Ends (.sboxRead c inp) s (fun u => ∃ p, Replies c s p u ∧ field p 0 4 = 0 ∧
      sbBytes s (base + field inp 4 4) (field inp 8 2) <+: p.drop 4) := by
  have hkeys : (field inp 0 1 == 5 && inp != []) = false := by rw [beq_false_of_ne h5]; rfl
  have hseven : Nat.blt 7 (field inp 0 1) = false := Bool.eq_false_of_not_eq_true (by rw [Nat.blt_eq]; have := sfind_partitions_le hpart; omega)
  have hin : Nat.ble size (field inp 4 4) = false := Bool.eq_false_of_not_eq_true (by rw [Nat.ble_eq]; omega)
  have hn : (Nat.blt (field inp 8 2) 1 || Nat.blt 4088 (field inp 8 2) || Nat.blt size (field inp 4 4 + field inp 8 2)) = false :=
    Bool.eq_false_of_not_eq_true (by simp only [Bool.or_eq_true, Nat.blt_eq]; omega)
  have hexec : exec (.sboxRead c inp) s = onVendor { op := 0xC601, host := false, star := true, fields := [(0, 1), (4, 4), (8, 2)], outLen := 4088 } c inp
      (fun _ => none) noCheck (vQuery (fun s => sbBytes s (base + field inp 4 4) (field inp 8 2))) id s := by
    change execSboxRead c inp s = _
    unfold execSboxRead
    dsimp only
    rw [hpart, hkeys, hseven, Option.getD_some, hin, hn]
    rfl
  refine (ends_shows (.sboxRead c inp) hexec h (by simp) rfl rfl).mono ?_
  rintro u ⟨p, hu, h0, hp, -⟩
  exact ⟨p, hu, h0, hp⟩

theorem sboxRead_keys (h : Heard c inp s false true false false 1) (h5 : field inp 0 1 = 5) :
    Ends (.sboxRead c inp) s (Replies c s (reply 0x0103 0 [])) := by
  have hlen : 1 ≤ inp.length := h.2.2.1
  have hkeys : (field inp 0 1 == 5 && inp != []) = true := by
    rw [h5]
    cases inp with
    | nil => exact absurd hlen (by decide)
    | cons b l => rfl
  have hexec : exec (.sboxRead c inp) s = onVendor { op := 0xC601, host := false, star := true, fields := [], outLen := 4088 } c inp
      (fun _ => some vProtected) noCheck (vQuery (fun s => sbBytes s (((sfind partitions (field inp 0 1)).getD (0, 0)).1 + field inp 4 4)
        (field inp 8 2))) id s := by
    change execSboxRead c inp s = _
    unfold execSboxRead
    dsimp only
    rw [hkeys]
    rfl
  exact ends_refused (.sboxRead c inp) vProtected hexec h (by simp) rfl (by decide)

end

/-- Settles O7: each query's answer holds its output, whose fields are read above. -/
theorem identityUnitAndStateQueriesAnswer : Obligations.IdentityUnitAndStateQueriesAnswer := by
  refine ⟨fun c inp s => ⟨merlasIdentify_answers, fun h e he => capQuery_answers h he,
      fun h j hj => ⟨jobStatus_done h hj, jobStatus_running h hj⟩, unitQuery_answers, unitQuery_unknown, unitList_answers⟩,
    fun c inp s => ⟨timeQuery_answers, powerQuery_answers, thermalQuery_answers, secQuery_answers, sboxQuery_answers, waybillRead_answers,
      fun h l => foldStatus_answers h, spanQuery_answers, fun h hi e => poolGet_answers h hi⟩,
    fun c inp s => ⟨fun h base size => sboxRead_answers h, sboxRead_keys⟩⟩

end Sys2Proof.Machine
end

section
/-! SUPPORT. The vendor commands that set a register or write the Strongbox, and O8 and O9 assembled from them. -/

namespace Sys2Proof.Machine

/-! ## Checks that pass, groups that run -/

theorem chk_passes {b : Bool} (h : ¬ b = true) (a : VAns) : chk b a = none := if_neg h

theorem chk_refuses {b : Bool} (h : b = true) (a : VAns) : chk b a = some a := if_pos h

theorem sbEnd_canStart (s : State) : sbCanStart (sbEnd s) = sbCanStart s := by
  unfold sbEnd
  dsimp only
  split <;> rfl

/-- A group that is not empty runs when a write can start (R532). -/
theorem sbCommand_fst {rs : List SbReq} (h : rs ≠ []) (s : State) : (sbCommand s rs).1 = sbCanStart s := by
  change (sbGroup s rs).1 = _
  unfold sbGroup
  dsimp only
  rw [if_neg (by simpa using h), sbEnd_canStart]
  cases sbCanStart s <;> rfl

theorem vWrite_runs {rs : State → List SbReq} {eff : State → State} {s : State} (hne : rs s ≠ []) (h : sbCanStart s = true) :
    vWrite rs eff s = (vDone [], eff (sbCommand s (rs s)).2) := by
  unfold vWrite
  exact if_pos ((sbCommand_fst hne s).trans h)

theorem vWrite_abandons {rs : State → List SbReq} {eff : State → State} {s : State} (hne : rs s ≠ []) (h : sbCanStart s = false) :
    vWrite rs eff s = (vAbandoned, (sbCommand s (rs s)).2) := by
  unfold vWrite
  exact if_neg (by rw [sbCommand_fst hne s, h]; exact Bool.false_ne_true)

/-- A heard command that nothing refuses and that ends in error `a` answers it without output. -/
theorem ends_error {v : VSpec} {c : Caller} {inp : List Byte} {early late : State → Option VAns} {act : State → VAns × State}
    {s : State} {need : Nat} (i : Instr) (hi : exec i s = onVendor v c inp early late act id s)
    (h : Heard c inp s v.host v.star v.lock v.span need) (hf : ∀ f ∈ v.fields, f.1 + f.2 ≤ need) (he : early (begin s) = none)
    (hl : late (begin s) = none) {a : VAns} (hm : 1 < a.mstat) (ho : a.out = []) (hj : a.job = 0) {t : State} (ha : act (begin s) = (a, t)) :
    Ends i s (Told c a.mstat 0 t) := by
  refine ⟨_, hi.trans (onVendor_heard h hf he hl), ?_⟩
  rw [ha]
  simp only [vPayload, Nat.not_le.2 hm, if_false, ho, hj]
  rfl

/-- A command whose effect is a group of Strongbox writes. -/
theorem runsGroup {v : VSpec} {c : Caller} {inp : List Byte} {early late : State → Option VAns} {rs : State → List SbReq}
    {eff : State → State} {s : State} {need : Nat} (i : Instr) (hi : exec i s = onVendor v c inp early late (vWrite rs eff) id s)
    (h : Heard c inp s v.host v.star v.lock v.span need) (hf : ∀ f ∈ v.fields, f.1 + f.2 ≤ need) (he : early (begin s) = none)
    (hl : late (begin s) = none) (hv : v.outLen = 0) (hne : rs (begin s) ≠ []) : RunsGroup i c s (rs (begin s)) eff :=
  ⟨fun hc => ends_done i hi h hf he hl hv _ (vWrite_runs hne hc),
    fun hc => ends_error i hi h hf he hl (by decide : 1 < 0x0302) rfl rfl (vWrite_abandons hne hc)⟩

/-! ## The commands that set a register -/

section
variable {c : Caller} {inp : List Byte} {s : State}

theorem timeConfig_done (h : Heard c inp s false true false false 4) (h0 : field inp 0 1 ≤ 3) (h1 : field inp 1 1 ≤ 3)
    (hlo : 50 ≤ field inp 2 2) (hhi : field inp 2 2 ≤ 4000) : Ends (.timeConfig c inp) s (Told c 0 0 { begin s with
      time := { s.time with cfgSrc := BitVec.ofNat 2 (field inp 0 1), cfgPtmPort := BitVec.ofNat 2 (field inp 1 1)
                            holdLim := BitVec.ofNat 13 (field inp 2 2) } }) := by
  have hexec : exec (.timeConfig c inp) s = execTimeConfig c inp s := by unfold exec; rfl
  unfold execTimeConfig at hexec
  refine ends_done (.timeConfig c inp) hexec h (by decide) ?_ rfl rfl _ rfl
  rw [chk_passes (by rw [Nat.blt_eq]; omega), chk_passes (by rw [Nat.blt_eq]; omega),
    chk_passes (by simp only [Bool.or_eq_true, Nat.blt_eq]; omega)]
  rfl

theorem timeConfig_range (h : Heard c inp s false true false false 4) (h0 : field inp 0 1 ≤ 3) (h1 : field inp 1 1 ≤ 3)
    (hout : field inp 2 2 < 50 ∨ 4000 < field inp 2 2) : Ends (.timeConfig c inp) s (Replies c s (reply 0x0201 0 (bytesOf 2 2))) := by
  have hexec : exec (.timeConfig c inp) s = execTimeConfig c inp s := by unfold exec; rfl
  unfold execTimeConfig at hexec
  refine ends_refused (.timeConfig c inp) (vRange 2) hexec h (by decide) ?_ (by decide)
  rw [chk_passes (by rw [Nat.blt_eq]; omega), chk_passes (by rw [Nat.blt_eq]; omega),
    chk_refuses (by simp only [Bool.or_eq_true, Nat.blt_eq]; omega)]
  rfl

theorem ttConfig_done (h : Heard c inp s false false false false 4) (hmlo : 1 ≤ field inp 0 1) (hmhi : field inp 0 1 ≤ 64)
    (hflo : 1 ≤ field inp 1 1) (hfhi : field inp 1 1 ≤ 16) (hfm : field inp 1 1 ≤ field inp 0 1) (hplo : 1 ≤ field inp 2 1)
    (hphi : field inp 2 1 ≤ 4) (hilo : 10 ≤ field inp 3 1) (hihi : field inp 3 1 ≤ 240) : Ends (.ttConfig c inp) s (Told c 0 0 { begin s with
      tt := { s.tt with bgMax := BitVec.ofNat 7 (field inp 0 1), bgFloor := BitVec.ofNat 7 (field inp 1 1)
                        clearPerDie := BitVec.ofNat 3 (field inp 2 1), inbound := BitVec.ofNat 8 (field inp 3 1) } }) := by
  have hexec : exec (.ttConfig c inp) s = execTtConfig c inp s := by unfold exec; rfl
  unfold execTtConfig at hexec
  refine ends_done (.ttConfig c inp) hexec h (by decide) ?_ rfl rfl _ rfl
  rw [chk_passes (by simp only [Bool.or_eq_true, Nat.blt_eq]; omega), chk_passes (by simp only [Bool.or_eq_true, Nat.blt_eq]; omega),
    chk_passes (by simp only [Bool.or_eq_true, Nat.blt_eq]; omega), chk_passes (by simp only [Bool.or_eq_true, Nat.blt_eq]; omega)]
  rfl

theorem thermalConfig_done (h : Heard c inp s false true false false 4) (hnlo : 85 ≤ field inp 0 2) (hnhi : field inp 0 2 ≤ 110)
    (hglo : 1 ≤ field inp 2 2) (hghi : field inp 2 2 ≤ 1000) : Ends (.thermalConfig c inp) s (Told c 0 0 { begin s with
      therm := { s.therm with notice := BitVec.ofNat 8 (field inp 0 2), grace := BitVec.ofNat 10 (field inp 2 2) } }) := by
  have hexec : exec (.thermalConfig c inp) s = execThermalConfig c inp s := by unfold exec; rfl
  unfold execThermalConfig at hexec
  refine ends_done (.thermalConfig c inp) hexec h (by decide) ?_ rfl rfl _ rfl
  rw [chk_passes (by simp only [Bool.or_eq_true, Nat.blt_eq]; omega), chk_passes (by simp only [Bool.or_eq_true, Nat.blt_eq]; omega)]
  rfl

theorem thermalConfig_range (h : Heard c inp s false true false false 4) (hout : field inp 0 2 < 85 ∨ 110 < field inp 0 2) :
    Ends (.thermalConfig c inp) s (Replies c s (reply 0x0201 0 (bytesOf 2 0))) := by
  have hexec : exec (.thermalConfig c inp) s = execThermalConfig c inp s := by unfold exec; rfl
  unfold execThermalConfig at hexec
  refine ends_refused (.thermalConfig c inp) (vRange 0) hexec h (by decide) ?_ (by decide)
  rw [chk_refuses (by simp only [Bool.or_eq_true, Nat.blt_eq]; omega)]
  rfl

theorem ldCommitSet_done (h : Heard c inp s false false false false 2) {i : Nat} (hi : ldNamed s c (field inp 0 1) = some i)
    (hm : field inp 1 1 ≤ 2) (hspan : field inp 1 1 = 0 ↔ s.span.desc = none) :
    Ends (.ldCommitSet c inp) s (Told c 0 0 (setMode i (codeMode (field inp 1 1)) (begin s))) := by
  have hi' : ldNamed (begin s) c (field inp 0 1) = some i := hi
  have hmode : ((field inp 1 1 == 0) == (begin s).span.desc.isSome) ≠ true := by
    change ((field inp 1 1 == 0) == s.span.desc.isSome) ≠ true
    cases hd : s.span.desc with
    | none => rw [hspan.2 hd]; decide
    | some d =>
      have hne : field inp 1 1 ≠ 0 := fun h0 => by rw [hspan.1 h0] at hd; cases hd
      rw [beq_false_of_ne hne]
      exact Bool.false_ne_true
  have hexec : exec (.ldCommitSet c inp) s = execLdCommitSet c inp s := by unfold exec; rfl
  unfold execLdCommitSet at hexec
  refine ends_done (.ldCommitSet c inp) hexec h (by decide) ?_ (chk_passes hmode _) rfl _ ?_
  · rw [hi', Option.isNone_some, chk_passes Bool.false_ne_true, chk_passes (by rw [Nat.blt_eq]; omega)]
    rfl
  · dsimp only
    rw [hi']
    rfl

theorem waybillRate_done (h : Heard c inp s false true false false 4) (hcode : field inp 0 2 = 0xFFFF ∨ field inp 0 2 ∈ evCodes)
    (hrate : 1 ≤ field inp 2 1) (hburst : 1 ≤ field inp 3 1) : Ends (.waybillRate c inp) s (Told c 0 0
      (setRate (if field inp 0 2 = 0xFFFF then evCodes else [field inp 0 2]) (field inp 2 1) (field inp 3 1) (begin s))) := by
  have hexec : exec (.waybillRate c inp) s = execWaybillRate c inp s := by unfold exec; rfl
  unfold execWaybillRate at hexec
  refine ends_done (.waybillRate c inp) hexec h (by decide) ?_ rfl rfl _ rfl
  have hc : ¬ (field inp 0 2 != 0xFFFF && !evCodes.contains (field inp 0 2)) = true := by
    rw [Bool.and_eq_true, bne_iff_ne, Bool.not_eq_true', ← Bool.not_eq_true, List.contains_iff_mem]
    exact fun ⟨hne, hmem⟩ => hcode.elim hne hmem
  rw [chk_passes hc, chk_passes (by rw [beq_iff_eq]; omega), chk_passes (by rw [beq_iff_eq]; omega)]
  rfl

end

/-- Settles O8: each command that is heard and not refused ends with its register set. -/
theorem registerCommandsSetTheirRegisters : Obligations.RegisterCommandsSetTheirRegisters := by
  intro c inp s b
  refine ⟨fun h => ?_, timeConfig_done, timeConfig_range, ttConfig_done, thermalConfig_done, thermalConfig_range,
    fun h i => ldCommitSet_done h, fun h => ?_, waybillRate_done⟩
  · have hexec : exec (.timeMarkSet c inp) s = execTimeMarkSet c inp s := by unfold exec; rfl
    unfold execTimeMarkSet at hexec
    exact ends_done (.timeMarkSet c inp) hexec h (by decide) rfl rfl rfl _ rfl
  · have hexec : exec (.injectDisarm c inp) s = execInjectDisarm c inp s := by unfold exec; rfl
    unfold execInjectDisarm at hexec
    exact ends_done (.injectDisarm c inp) hexec h (by decide) rfl rfl rfl _ rfl

/-! ## The commands that write the Strongbox -/

/-- A piece of the option area that is not empty is written in at least one ring (R523). -/
theorem optionReqs_ne_nil {off : Nat} {data : List Byte} (s : State) (hd : data ≠ []) (hoff : off / 240 ≤ 17) : optionReqs off data s ≠ [] := by
  have hlen : 0 < data.length := List.length_pos_iff.2 hd
  have hmem : off / 240 ∈ (List.range 18).filter (fun i => Nat.ble (off / 240) i && Nat.ble i ((off + data.length - 1) / 240)) := by
    rw [List.mem_filter, List.mem_range, Bool.and_eq_true, Nat.ble_eq, Nat.ble_eq]
    exact ⟨by omega, Nat.le_refl _, Nat.div_le_div_right (by omega)⟩
  exact List.ne_nil_of_mem (List.mem_map_of_mem hmem)

theorem take_drop_ne_nil {l : List Byte} {o n : Nat} (hn : 1 ≤ n) (h : o + n ≤ l.length) : (l.drop o).take n ≠ [] := by
  rw [← List.length_pos_iff, List.length_take, List.length_drop]
  omega

/-- Settles O9: each command passes its checks, and its group is not empty. -/
theorem strongboxCommandsRunWhole : Obligations.StrongboxCommandsRunWhole := by
  intro c inp s b
  refine ⟨fun h hr hv => ?_, fun h hlo hhi hend hlen => ?_, fun h hd => ?_, fun h hd => ?_, fun h hd => ?_, fun h ht hrec => ?_,
    fun h hi hspan => ?_⟩
  · have hlen : 8 ≤ inp.length := h.2.2.1
    have hexec : exec (.powerTableSet c inp) s = execPowerTableSet c inp s := by unfold exec; rfl
    unfold execPowerTableSet at hexec
    refine runsGroup (.powerTableSet c inp) hexec h (by decide) ?_ rfl rfl
      (optionReqs_ne_nil _ (take_drop_ne_nil (by decide) (by omega)) (by omega))
    rw [chk_passes (by rw [Nat.blt_eq]; omega), chk_passes (by rw [beq_iff_eq]; exact hv)]
    rfl
  · have hexec : exec (.optionWrite c inp) s = execOptionWrite c inp s := by unfold exec; rfl
    unfold execOptionWrite at hexec
    refine runsGroup (.optionWrite c inp) hexec h (by decide) ?_ rfl rfl
      (optionReqs_ne_nil _ (take_drop_ne_nil hlo hlen) (by omega))
    rw [chk_passes (by rw [Nat.blt_eq]; omega), chk_passes (by simp only [Bool.or_eq_true, Nat.blt_eq]; omega),
      chk_passes (by rw [Nat.blt_eq]; omega)]
    rfl
  · have hexec : exec (.calOverlayWrite c inp) s = execCalOverlayWrite c inp s := by unfold exec; rfl
    unfold execCalOverlayWrite at hexec
    have hrun := runsGroup (.calOverlayWrite c inp) hexec h (by decide) (chk_passes (by rw [Nat.blt_eq]; omega) _) rfl rfl (List.cons_ne_nil _ _)
    exact hrun
  · have hexec : exec (.calOverlayClear c inp) s = execCalOverlayClear c inp s := by unfold exec; rfl
    unfold execCalOverlayClear at hexec
    have hrun := runsGroup (.calOverlayClear c inp) hexec h (by decide) (chk_passes (by rw [Bool.and_eq_true, Nat.blt_eq]; omega) _) rfl rfl
      (by rw [if_neg (by omega)]; exact List.cons_ne_nil _ _)
    rwa [if_neg (by omega)] at hrun
  · have hexec : exec (.calOverlayClear c inp) s = execCalOverlayClear c inp s := by unfold exec; rfl
    unfold execCalOverlayClear at hexec
    have hrun := runsGroup (.calOverlayClear c inp) hexec h (by decide)
      (chk_passes (by rw [Bool.and_eq_true, bne_iff_ne]; exact fun h => h.2 hd) _) rfl rfl
      (by rw [if_pos hd]; exact List.cons_ne_nil _ _)
    rwa [if_pos hd] at hrun
  · have hexec : exec (.shutdownRecordClear c inp) s = execShutdownRecordClear c inp s := by unfold exec; rfl
    unfold execShutdownRecordClear at hexec
    have hthrottle : ¬ ((begin s).therm.throttle == .shutdown) = true := by rw [beq_iff_eq]; exact ht
    have hrecord : ¬ (begin s).therm.record.isNone = true := by
      change ¬ s.therm.record.isNone = true
      rw [Option.isNone_iff_eq_none]
      exact fun hn => by rw [hn] at hrec; cases hrec
    have hrun := runsGroup (.shutdownRecordClear c inp) hexec h (by decide) rfl
      (by rw [chk_passes hthrottle, chk_passes hrecord]; rfl) rfl (List.cons_ne_nil _ _)
    exact hrun
  · have hexec : exec (.poolSet c inp) s = execPoolSet c inp s := by unfold exec; rfl
    unfold execPoolSet at hexec
    have hrun := runsGroup (.poolSet c inp) hexec h (by decide) (chk_passes (by rw [Nat.blt_eq]; omega) _)
      (by dsimp only; rw [show (begin s).span.desc = none from hspan]; rfl) rfl (List.cons_ne_nil _ _)
    exact hrun

end Sys2Proof.Machine
end

section
/-! SUPPORT. Injection points, and what a Strongbox write leaves alone, with O10 and O11 assembled from them. -/

namespace Sys2Proof.Machine

/-! ## A field is as wide as its bytes -/

theorem ofLe_lt (l : List Nat) : ofLe l < 2 ^ (8 * l.length) := by
  induction l with
  | nil => decide
  | cons b l ih =>
    have hb := Nat.mod_lt b (by decide : 0 < 256)
    have hpow : 2 ^ (8 * (b :: l).length) = 256 * 2 ^ (8 * l.length) := by
      rw [List.length_cons, Nat.mul_succ, Nat.pow_add, Nat.mul_comm]
    rw [ofLe, hpow]
    omega

theorem field_lt (bs : List Byte) (o n : Nat) : field bs o n < 2 ^ (8 * n) := by
  refine (ofLe_lt _).trans_le (Nat.pow_le_pow_right Nat.two_pos (Nat.mul_le_mul_left 8 ?_))
  rw [List.length_map]
  exact List.length_take_le _ _

/-! ## Injection points -/

/-- Arming a point that takes effect only when it is met. -/
theorem arm_waits {a : Armed} (h10 : a.point.toNat ≠ 0x0010) (h18 : a.point.toNat ≠ 0x0018) (s : State) :
    arm a s = { s with evt := { s.evt with armed := s.evt.armed ++ [a] } } := by
  unfold arm
  dsimp only
  rw [if_neg h18, if_neg h10]

section
variable {s : State}

theorem toNat_ne_of_ne {w : Nat} {x : BitVec w} {n : Nat} (h : x ≠ BitVec.ofNat w n) : x.toNat ≠ n := by
  rintro rfl
  exact h (by rw [BitVec.ofNat_toNat, BitVec.setWidth_eq])

/-- The point an INJECT_ARM input describes. -/
def inputPoint (inp : List Byte) : Armed :=
  { point := BitVec.ofNat 16 (field inp 0 2), unit := BitVec.ofNat 24 (field inp 4 3), word := BitVec.ofNat 8 (field inp 7 1)
    mask := BitVec.ofNat 64 (field inp 8 8), check := BitVec.ofNat 16 (field inp 16 2)
    copy := BitVec.ofNat 2 (min 2 (field inp 18 1)), active := false }

theorem injectArm_arms {c : Caller} {inp : List Byte} (h : Heard c inp s false false true false 18)
    (he : armEarly (field inp 0 2) (field inp 4 3) s = none) (hl : armLate (field inp 0 2) (field inp 4 3) s = none)
    (h10 : field inp 0 2 ≠ 0x0010) (h18 : field inp 0 2 ≠ 0x0018) :
    Ends (.injectArm c inp) s (fun u => ∃ a : Armed, a.point.toNat = field inp 0 2 ∧ a.unit.toNat = field inp 4 3 ∧
      a.mask.toNat = field inp 8 8 ∧ a.check.toNat = field inp 16 2 ∧ a.active = false ∧
      Told c 0 0 { begin s with evt := { (begin s).evt with armed := s.evt.armed ++ [a] } } u) := by
  have hexec : exec (.injectArm c inp) s = execInjectArm c inp s := by unfold exec; rfl
  unfold execInjectArm at hexec
  have hpoint : (BitVec.ofNat 16 (field inp 0 2)).toNat = field inp 0 2 := Nat.mod_eq_of_lt (field_lt inp 0 2)
  refine ⟨_, hexec.trans (onVendor_heard h (by decide) he hl), inputPoint inp, hpoint, Nat.mod_eq_of_lt (field_lt inp 4 3),
    Nat.mod_eq_of_lt (field_lt inp 8 8), Nat.mod_eq_of_lt (field_lt inp 16 2), rfl, ?_⟩
  exact arm_waits (by rw [hpoint]; exact h10) (by rw [hpoint]; exact h18) _

/-- The point the injection registers describe. -/
def regPoint (s : State) : Armed :=
  { point := s.evt.injPoint, unit := s.evt.injUnit, word := s.evt.injWord, mask := s.evt.injHi ++ s.evt.injLo
    check := s.evt.injCheck, copy := BitVec.ofNat 2 (min 2 s.evt.injCopy.toNat), active := false }

theorem not_one_le_of_pl (h : s.sec.pl = 0) : ¬ 1 ≤ (begin s).sec.pl.toNat := by
  change ¬ 1 ≤ s.sec.pl.toNat
  rw [h]
  decide

theorem one_le_of_pl (h : s.sec.pl ≠ 0) : 1 ≤ (begin s).sec.pl.toNat :=
  Nat.one_le_iff_ne_zero.2 (fun h0 => h (BitVec.eq_of_toNat_eq h0))

theorem regArm_arms (hpl : s.sec.pl = 0) (he : armEarly s.evt.injPoint.toNat s.evt.injUnit.toNat s = none)
    (hl : armLate s.evt.injPoint.toNat s.evt.injUnit.toNat s = none) (h10 : s.evt.injPoint ≠ 0x0010) (h18 : s.evt.injPoint ≠ 0x0018) :
    regArm (begin s) = { begin s with evt := { (begin s).evt with armed := s.evt.armed ++ [regPoint s] } } := by
  have he' : armEarly (begin s).evt.injPoint.toNat (begin s).evt.injUnit.toNat (begin s) = none := he
  have hl' : armLate (begin s).evt.injPoint.toNat (begin s).evt.injUnit.toNat (begin s) = none := hl
  unfold regArm
  dsimp only
  rw [if_neg (not_one_le_of_pl hpl), he', hl']
  exact arm_waits (a := regPoint s) (toNat_ne_of_ne h10) (toNat_ne_of_ne h18) _

theorem regArm_refused (hpl : s.sec.pl = 0) (he : armEarly s.evt.injPoint.toNat s.evt.injUnit.toNat s ≠ none) :
    regArm (begin s) = { begin s with evt := { (begin s).evt with refused := true } } := by
  obtain ⟨a, ha⟩ := Option.ne_none_iff_exists'.1 he
  have ha' : armEarly (begin s).evt.injPoint.toNat (begin s).evt.injUnit.toNat (begin s) = some a := ha
  unfold regArm
  dsimp only
  rw [if_neg (not_one_le_of_pl hpl), ha']
  rfl

theorem regDisarm_disarms (hpl : s.sec.pl = 0) (hall : s.evt.injPoint ≠ 0xFFFF) : regDisarm (begin s) = { begin s with
    evt := { (begin s).evt with armed := s.evt.armed.filter (fun a => !(a.point == s.evt.injPoint && a.unit == s.evt.injUnit)) } } := by
  have hp : (begin s).evt.injPoint.toNat ≠ 0xFFFF := toNat_ne_of_ne hall
  have hkeep : (fun a : Armed => !(a.point.toNat == s.evt.injPoint.toNat && a.unit.toNat == s.evt.injUnit.toNat)) =
      fun a => !(a.point == s.evt.injPoint && a.unit == s.evt.injUnit) := by
    funext a
    simp only [BEq.beq, BitVec.toNat_eq]
  unfold regDisarm disarm
  rw [if_neg (not_one_le_of_pl hpl), if_neg hp]
  exact congrArg (fun f => { begin s with evt := { (begin s).evt with armed := s.evt.armed.filter f } }) hkeep

theorem injectDurationEnd_disarms {p : BitVec 16} {w : BitVec 24} (hall : p ≠ 0xFFFF)
    (hactive : ∃ a ∈ s.evt.armed, a.point = p ∧ a.unit = w ∧ a.active = true) :
    Ends (.injectDurationEnd p w) s (fun u => (∀ a ∈ u.evt.armed, ¬ (a.point = p ∧ a.unit = w)) ∧
      { u with evt := { u.evt with armed := s.evt.armed } } = begin s) := by
  obtain ⟨b, hb, rfl, rfl, hon⟩ := hactive
  have hfind : (activePoint (begin s) b.point.toNat b.unit.toNat).isSome = true := by
    refine List.find?_isSome.2 ⟨b, hb, ?_⟩
    rw [hon, beq_self_eq_true, beq_self_eq_true]
    rfl
  obtain ⟨x, hx⟩ := Option.isSome_iff_exists.1 hfind
  refine ends_of_ran (u := disarm b.point.toNat b.unit.toNat (begin s)) ?_ ?_
  · have hexec : exec (.injectDurationEnd b.point b.unit) s = execInjectDurationEnd b.point b.unit s := by unfold exec; rfl
    rw [hexec]
    unfold execInjectDurationEnd
    dsimp only
    rw [hx]
  · unfold disarm
    rw [if_neg (toNat_ne_of_ne hall)]
    refine ⟨fun a ha hab => ?_, rfl⟩
    have hkept := (List.mem_filter.1 ha).2
    rw [hab.1, hab.2, beq_self_eq_true, beq_self_eq_true] at hkept
    cases hkept

end

/-- Settles O10: the command and the registers arm and disarm the same list of points. -/
theorem injectionPointsArmAndDisarm : Obligations.InjectionPointsArmAndDisarm := by
  intro s
  have harm : exec .injCtrlArm s = ran (regArm (begin s)) := by unfold exec; rfl
  have hdisarm : exec .injCtrlDisarm s = ran (regDisarm (begin s)) := by unfold exec; rfl
  refine ⟨fun c inp h he hl => injectArm_arms h he hl, fun hpl he hl h10 h18 => ?_, fun hpl he => ?_, fun hpl => ⟨?_, ?_⟩, fun hpl hall => ?_,
    fun p w hall => injectDurationEnd_disarms hall⟩
  · exact ends_of_ran harm ⟨regPoint s, rfl, rfl, rfl, regArm_arms hpl he hl h10 h18⟩
  · exact ends_of_ran harm (regArm_refused hpl he)
  · exact ends_of_ran harm (if_pos (one_le_of_pl hpl))
  · exact ends_of_ran hdisarm (if_pos (one_le_of_pl hpl))
  · exact ends_of_ran hdisarm (regDisarm_disarms hpl hall)

/-! ## What a Strongbox write leaves alone -/

/-- From `s` to `u` the Strongbox worked: only its own section, the Waybill and the injection points changed. -/
def SbWorks (s u : State) : Prop := { u with sb := s.sb, wb := s.wb, evt := s.evt } = s

theorem SbWorks.refl (s : State) : SbWorks s s := rfl

theorem SbWorks.trans {s t u : State} (hst : SbWorks s t) (htu : SbWorks t u) : SbWorks s u := by
  unfold SbWorks at *
  calc { u with sb := s.sb, wb := s.wb, evt := s.evt }
      = { { u with sb := t.sb, wb := t.wb, evt := t.evt } with sb := s.sb, wb := s.wb, evt := s.evt } := rfl
    _ = { t with sb := s.sb, wb := s.wb, evt := s.evt } := by rw [htu]
    _ = s := hst

theorem sbAbandon_works (r : SbReq) (s : State) : SbWorks s (sbAbandon s r) := by
  cases r <;> rfl

theorem sbApply_works (r : SbReq) (s : State) : SbWorks s (sbApply s r) := by
  unfold SbWorks sbApply
  dsimp only
  cases r <;> dsimp only <;> (try split) <;> rfl

theorem sbStart_works (s : State) : SbWorks s (sbStart s) := by
  have hfrom (l : List SbReq) (t : State) : SbWorks t (sbStartFrom l t) := by
    induction l generalizing t with
    | nil => rfl
    | cons r l ih =>
      unfold sbStartFrom
      split
      · exact (sbApply_works r t).trans rfl
      · exact (sbAbandon_works r t).trans (ih _)
  unfold sbStart
  split
  · rfl
  · exact hfrom _ s

theorem sbEnqueue_works (r : SbReq) (s : State) : SbWorks s (sbEnqueue s r) :=
  SbWorks.trans (t := { s with sb := { s.sb with queue := s.sb.queue ++ [r] } }) rfl (sbStart_works _)

/-! ## The protection level -/

section
variable {c : Caller} {inp : List Byte} {s : State}

theorem plPermitted_cases {t : Nat} (h : plPermitted s t = true) : t ≤ 2 ∧ (s.sec.pl.toNat = 0 ∨ s.sec.pl.toNat = 1) := by
  unfold plPermitted at h
  split at h
  · next h0 => simp only [Bool.or_eq_true, beq_iff_eq] at h; omega
  · next h1 => simp only [Bool.or_eq_true, beq_iff_eq] at h; omega
  · cases h

/-- A PL_SET that R619 permits passes its checks but that of the state. -/
theorem plSet_heard (h : Heard c inp s false false false false 1) (hp : plPermitted s (field inp 0 1) = true)
    (ha : authorized s (field inp 0 1) (inp.drop 4) = true) (hlen : inp.length ≤ 516)
    (hstate : ((field inp 0 1 == 0 && (s.span.desc.isSome || s.host.lds.any (fun d => d.erase.isSome))) ||
      (field inp 0 1 == 2 && s.sec.lowering != 0)) = false) {a : VAns × State}
    (hact : (if field inp 0 1 = 0 then vStart 0xC705 c .lower else vWrite (raiseReqs (field inp 0 1) (inp.drop 4)) (raise (field inp 0 1) (inp.drop 4)))
      (begin s) = a) :
    exec (.plSet c inp) s = ran (if a.1.mstat ≤ 1 then
        (if field inp 0 1 = 0 then lowerBegin else id) (send a.2 (.vendor c .success (vPayload { op := 0xC705, host := false, star := false, fields := [(0, 1)] } a.1)))
      else send a.2 (.vendor c .success (vPayload { op := 0xC705, host := false, star := false, fields := [(0, 1)] } a.1))) := by
  have hexec : exec (.plSet c inp) s = execPlSet c inp s := by unfold exec; rfl
  unfold execPlSet at hexec
  have hp' : plPermitted (begin s) (field inp 0 1) = true := hp
  have ha' : authorized (begin s) (field inp 0 1) (inp.drop 4) = true := ha
  have hauth : ¬ (inp != [] && plPermitted (begin s) (field inp 0 1) && !authorized (begin s) (field inp 0 1) (inp.drop 4)) = true := by
    rw [ha', Bool.not_true, Bool.and_false]
    exact Bool.false_ne_true
  have hok : ¬ (!plPermitted (begin s) (field inp 0 1) || (field inp 0 1 == 0 && ((begin s).span.desc.isSome || (begin s).host.lds.any (fun d => d.erase.isSome))) ||
      (field inp 0 1 == 2 && (begin s).sec.lowering != 0)) = true := by
    rw [hp', Bool.not_true, Bool.false_or]
    exact fun ht => Bool.false_ne_true (hstate.symm.trans ht)
  rw [hexec, ← hact]
  refine onVendor_heard h (by decide) ?_ (chk_passes hok _)
  rw [chk_passes hauth, chk_passes (by rw [Nat.blt_eq]; have := (plPermitted_cases hp).1; omega),
    chk_passes (by rw [Nat.blt_eq, List.length_drop]; omega)]
  rfl

/-- An answer without output. -/
theorem vPayload_of_out_nil {v : VSpec} {a : VAns} (hv : v.outLen = 0) (ho : a.out = []) : vPayload v a = reply a.mstat a.job [] := by
  unfold vPayload reply
  rw [ho, hv]
  split <;> rfl

theorem raiseReqs_ne_nil (t : Nat) (block : List Byte) (s : State) : raiseReqs t block s ≠ [] := by
  unfold raiseReqs
  simp

theorem sec_of_keepS {t u : State} (h : keepS t = keepS u) : t.sec = u.sec := congrArg (fun x => x.2.2) h

theorem event_sec (e : Ev) (s : State) : (event e s).sec = s.sec := sec_of_keepS (event_keepS e s)

theorem setLevel_sec (t : Nat) (s : State) : (setLevel t s).sec =
    { s.sec with pl := BitVec.ofNat 2 t, plseq := s.sec.plseq + 1, pl2Fuse := s.sec.pl2Fuse || t == 2 } := by
  have hdisarm (p : Prop) [Decidable p] (s1 : State) : (if p then { s1 with evt := { s1.evt with armed := [] } } else s1).sec = s1.sec := by
    split <;> rfl
  exact (event_sec _ _).trans (hdisarm _ (setSec _ s))

theorem raise_sec (t : Nat) (block : List Byte) (s : State) : (raise t block s).sec =
    { s.sec with pl := BitVec.ofNat 2 t, plseq := s.sec.plseq + 1, pl2Fuse := s.sec.pl2Fuse || t == 2,
                 owner := if s.sec.pl.toNat = 0 then (block.drop 4).take 97 else s.sec.owner } := by
  unfold raise
  extract_lets s1
  refine (setLevel_sec t s1).trans ?_
  simp only [s1]
  split <;> rfl

theorem sbCommand_sec (rs : List SbReq) (s : State) : (sbCommand s rs).2.sec = s.sec := sec_of_keepS (keepMS (keepEM (sbCommand_keepE s rs)))

/-- The state answered to a PL_SET that raises the level, or that could not. -/
theorem plSet_answered {P : State → Prop} (h : Heard c inp s false false false false 1) (hp : plPermitted s (field inp 0 1) = true)
    (ha : authorized s (field inp 0 1) (inp.drop 4) = true) (hlen : inp.length ≤ 516) (ht : field inp 0 1 ≠ 0)
    (hl : field inp 0 1 = 2 → s.sec.lowering = 0) {a : VAns} {t : State}
    (hact : vWrite (raiseReqs (field inp 0 1) (inp.drop 4)) (raise (field inp 0 1) (inp.drop 4)) (begin s) = (a, t)) (ho : a.out = [])
    (hP : P (send t (.vendor c .success (reply a.mstat a.job [])))) : Ends (.plSet c inp) s P := by
  have hstate : ((field inp 0 1 == 0 && (s.span.desc.isSome || s.host.lds.any (fun d => d.erase.isSome))) ||
      (field inp 0 1 == 2 && s.sec.lowering != 0)) = false := by
    rw [beq_false_of_ne ht, Bool.false_and, Bool.false_or, Bool.and_eq_false_iff, beq_eq_false_iff_ne, bne_eq_false_iff_eq]
    by_cases h2 : field inp 0 1 = 2
    · exact .inr (hl h2)
    · exact .inl h2
  refine ends_of_ran (plSet_heard h hp ha hlen hstate (a := (a, t)) (by rw [if_neg ht]; exact hact)) ?_
  rw [if_neg ht, vPayload_of_out_nil rfl ho]
  split <;> exact hP

/-- The lowering's first step writes the level, or waits for the Strongbox. -/
theorem lowerAdvance_first (h : s.sec.lowering = 1) : lowerAdvance s = s ∨
    lowerAdvance s = setSec (fun x => { x with lowering := x.lowering + 1 }) (writePl (setSec (fun x => { x with erasing := true }) s)) := by
  unfold lowerAdvance
  split
  · exact .inl rfl
  · rw [h]
    exact .inr rfl

/-- The lowering's first step leaves the jobs, the withheld credits and the answers. -/
theorem lowerAdvance_starts (h : s.sec.lowering = 1) : (lowerAdvance s).unit = s.unit ∧ (lowerAdvance s).host = s.host ∧
    (lowerAdvance s).out = s.out ∧ (lowerAdvance s).sec.lowering ≠ 0 := by
  obtain hu | hu := lowerAdvance_first h
  · rw [hu, h]
    exact ⟨rfl, rfl, rfl, by decide⟩
  · have hworks : SbWorks (setSec (fun x => { x with erasing := true }) s) (writePl (setSec (fun x => { x with erasing := true }) s)) := sbEnqueue_works _ _
    rw [hu]
    generalize writePl (setSec (fun x => { x with erasing := true }) s) = t at hworks
    have hsec : t.sec.lowering = s.sec.lowering := congrArg (·.sec.lowering) hworks
    have hunit : t.unit = s.unit := congrArg (·.unit) hworks
    have hhost : t.host = s.host := congrArg (·.host) hworks
    have hout : t.out = s.out := congrArg (·.out) hworks
    refine ⟨hunit, hhost, hout, ?_⟩
    change t.sec.lowering + 1 ≠ 0
    rw [hsec, h]
    decide

theorem mem_send (t : State) (o : Out) : o ∈ (send t o).out := List.mem_append_right _ (List.mem_singleton.2 rfl)

/-- What a raise to level `t`, sent on with its answer, leaves of the security state. -/
theorem raise_fields {t : Nat} {block : List Byte} {v : State} {o : Out} (hv : v.sec = s.sec) (ht : t ≤ 2) :
    (send (raise t block v) o).sec.pl.toNat = t ∧ (send (raise t block v) o).sec.plseq = s.sec.plseq + 1 ∧
    (send (raise t block v) o).sec.pl2Fuse = (s.sec.pl2Fuse || t == 2) ∧
    (s.sec.pl = 0 → (send (raise t block v) o).sec.owner = (block.drop 4).take 97) ∧ o ∈ (send (raise t block v) o).out := by
  rw [send_sec, raise_sec, hv]
  refine ⟨Nat.mod_eq_of_lt (by omega), rfl, rfl, fun hpl => if_pos ?_, mem_send _ _⟩
  rw [hpl]
  rfl

theorem plSet_raises (h : Heard c inp s false false false false 1) (hp : plPermitted s (field inp 0 1) = true)
    (ha : authorized s (field inp 0 1) (inp.drop 4) = true) (hlen : inp.length ≤ 516) (ht : field inp 0 1 ≠ 0)
    (hl : field inp 0 1 = 2 → s.sec.lowering = 0) (hsb : sbCanStart s = true) : Ends (.plSet c inp) s (fun u =>
      u.sec.pl.toNat = field inp 0 1 ∧ u.sec.plseq = s.sec.plseq + 1 ∧ u.sec.pl2Fuse = (s.sec.pl2Fuse || field inp 0 1 == 2) ∧
      (s.sec.pl = 0 → u.sec.owner = (inp.drop 8).take 97) ∧ .vendor c .success (reply 0 0 []) ∈ u.out) := by
  have hsec (rs : List SbReq) : (sbCommand (begin s) rs).2.sec = s.sec := sbCommand_sec rs (begin s)
  refine plSet_answered h hp ha hlen ht hl (vWrite_runs (raiseReqs_ne_nil _ _ _) hsb) rfl ?_
  rw [← List.drop_drop (i := 4) (j := 4)]
  exact raise_fields (hsec _) (plPermitted_cases hp).1

theorem plSet_abandons (h : Heard c inp s false false false false 1) (hp : plPermitted s (field inp 0 1) = true)
    (ha : authorized s (field inp 0 1) (inp.drop 4) = true) (hlen : inp.length ≤ 516) (ht : field inp 0 1 ≠ 0)
    (hl : field inp 0 1 = 2 → s.sec.lowering = 0) (hsb : sbCanStart s = false) : Ends (.plSet c inp) s (fun u =>
      u.sec = s.sec ∧ .vendor c .success (reply 0x0302 0 []) ∈ u.out) := by
  refine plSet_answered h hp ha hlen ht hl (vWrite_abandons (raiseReqs_ne_nil _ _ _) hsb) rfl ?_
  exact ⟨sbCommand_sec _ _, List.mem_append_right _ (List.mem_singleton.2 rfl)⟩

theorem plSet_lowers (h : Heard c inp s false false false false 1) (hp : plPermitted s (field inp 0 1) = true)
    (ha : authorized s (field inp 0 1) (inp.drop 4) = true) (hlen : inp.length ≤ 516) (ht : field inp 0 1 = 0) (hspan : s.span.desc = none)
    (herase : ∀ d ∈ s.host.lds, d.erase = none) (hroom : s.unit.running.length < 64) (hl : s.sec.lowering = 0) :
    Ends (.plSet c inp) s (fun u => (∃ j ∈ u.unit.running, j.id = s.unit.nextJob ∧ j.kind = .lower) ∧ u.host.creditsHeld = true ∧
      u.sec.lowering ≠ 0 ∧ .vendor c .success (reply 1 s.unit.nextJob.toNat []) ∈ u.out) := by
  have hidle : s.host.lds.any (fun d => d.erase.isSome) = false := by
    rw [List.any_eq_false]
    intro d hd
    rw [herase d hd]
    exact Bool.false_ne_true
  have hstate : ((field inp 0 1 == 0 && (s.span.desc.isSome || s.host.lds.any (fun d => d.erase.isSome))) ||
      (field inp 0 1 == 2 && s.sec.lowering != 0)) = false := by
    rw [hspan, hidle, ht]
    rfl
  have hstart : vStart 0xC705 c .lower (begin s) = ({ mstat := 1, job := s.unit.nextJob.toNat }, (startJob 0xC705 c .lower (begin s)).2) :=
    if_neg (Nat.not_le.2 hroom)
  refine ends_of_ran (plSet_heard h hp ha hlen hstate (hact := (congrFun (if_pos ht) _).trans hstart)) ?_
  rw [if_pos ht, vPayload_of_out_nil rfl rfl]
  have hbegin (t : State) (h0 : t.sec.lowering = 0) :
      lowerBegin t = lowerAdvance { setSec (fun x => { x with lowering := 1 }) t with host := { t.host with creditsHeld := true } } :=
    if_neg (fun hn => hn h0)
  rw [if_pos (Nat.le_refl 1), hbegin (send (startJob 0xC705 c .lower (begin s)).2 _) hl]
  obtain ⟨hunit, hhost, hout, hsec⟩ := lowerAdvance_starts (s := { setSec (fun x => { x with lowering := 1 })
    (send (startJob 0xC705 c .lower (begin s)).2 (.vendor c .success (reply 1 s.unit.nextJob.toNat []))) with
      host := { s.host with creditsHeld := true } }) rfl
  exact ⟨⟨_, (congrArg (_ ∈ ·.running) hunit).mpr (List.mem_append_right _ (List.mem_singleton.2 rfl)), rfl, rfl⟩,
    congrArg (·.creditsHeld) hhost, hsec, (congrArg (_ ∈ ·) hout).mpr (List.mem_append_right _ (List.mem_singleton.2 rfl))⟩

end

/-- Settles O11: the level changes with the group of writes that PL_SET starts, or by the lowering job. -/
theorem levelChanges : Obligations.LevelChanges := fun _ _ _ h hp ha hlen =>
  ⟨plSet_raises h hp ha hlen, plSet_abandons h hp ha hlen, plSet_lowers h hp ha hlen⟩

end Sys2Proof.Machine
end

section
/-! SUPPORT. What raising an event leaves, and the fabric time: its registers, its sources and the table of R407, with O12 and O13 assembled from
them. -/

namespace Sys2Proof.Machine

/-! ## One section out of a frame -/

theorem pending_of_keepE {t u : State} (h : keepE t = keepE u) : t.pending = u.pending := congrArg (fun x => x.1) h
theorem free_of_keepE {t u : State} (h : keepE t = keepE u) : t.free = u.free := congrArg (fun x => x.2.1) h
theorem variant_of_keepE {t u : State} (h : keepE t = keepE u) : t.variant = u.variant := congrArg (fun x => x.2.2.1) h
theorem id_of_keepE {t u : State} (h : keepE t = keepE u) : t.id = u.id := congrArg (fun x => x.2.2.2.1) h
theorem time_of_keepE {t u : State} (h : keepE t = keepE u) : t.time = u.time := congrArg (fun x => x.2.2.2.2.1) h
theorem tt_of_keepE {t u : State} (h : keepE t = keepE u) : t.tt = u.tt := congrArg (fun x => x.2.2.2.2.2.1) h
theorem unit_of_keepE {t u : State} (h : keepE t = keepE u) : t.unit = u.unit := congrArg (fun x => x.2.2.2.2.2.2.1) h
theorem cache_of_keepE {t u : State} (h : keepE t = keepE u) : t.cache = u.cache := congrArg (fun x => x.2.2.2.2.2.2.2.1) h
theorem rstat_of_keepE {t u : State} (h : keepE t = keepE u) : t.rstat = u.rstat := congrArg (fun x => x.2.2.2.2.2.2.2.2.1) h
theorem write_of_keepE {t u : State} (h : keepE t = keepE u) : t.write = u.write := congrArg (fun x => x.2.2.2.2.2.2.2.2.2.1) h
theorem xlat_of_keepE {t u : State} (h : keepE t = keepE u) : t.xlat = u.xlat := congrArg (fun x => x.2.2.2.2.2.2.2.2.2.2.1) h
theorem mm_of_keepE {t u : State} (h : keepE t = keepE u) : t.mm = u.mm := congrArg (fun x => x.2.2.2.2.2.2.2.2.2.2.2.1) h
theorem lp_of_keepE {t u : State} (h : keepE t = keepE u) : t.lp = u.lp := congrArg (fun x => x.2.2.2.2.2.2.2.2.2.2.2.2.1) h
theorem media_of_keepE {t u : State} (h : keepE t = keepE u) : t.media = u.media := congrArg (fun x => x.2.2.2.2.2.2.2.2.2.2.2.2.2.1) h
theorem span_of_keepE {t u : State} (h : keepE t = keepE u) : t.span = u.span := congrArg (fun x => x.2.2.2.2.2.2.2.2.2.2.2.2.2.2.1) h
theorem power_of_keepE {t u : State} (h : keepE t = keepE u) : t.power = u.power := congrArg (fun x => x.2.2.2.2.2.2.2.2.2.2.2.2.2.2.2.1) h
theorem therm_of_keepE {t u : State} (h : keepE t = keepE u) : t.therm = u.therm := congrArg (fun x => x.2.2.2.2.2.2.2.2.2.2.2.2.2.2.2.2.1) h
theorem start_of_keepE {t u : State} (h : keepE t = keepE u) : t.start = u.start := congrArg (fun x => x.2.2.2.2.2.2.2.2.2.2.2.2.2.2.2.2.2.1) h
theorem fw_of_keepE {t u : State} (h : keepE t = keepE u) : t.fw = u.fw := congrArg (fun x => x.2.2.2.2.2.2.2.2.2.2.2.2.2.2.2.2.2.2.1) h
theorem sec_of_keepE {t u : State} (h : keepE t = keepE u) : t.sec = u.sec := congrArg (fun x => x.2.2.2.2.2.2.2.2.2.2.2.2.2.2.2.2.2.2.2) h
theorem pending_of_keepM {t u : State} (h : keepM t = keepM u) : t.pending = u.pending := congrArg (fun x => x.1) h
theorem variant_of_keepM {t u : State} (h : keepM t = keepM u) : t.variant = u.variant := congrArg (fun x => x.2.1) h
theorem id_of_keepM {t u : State} (h : keepM t = keepM u) : t.id = u.id := congrArg (fun x => x.2.2.1) h
theorem time_of_keepM {t u : State} (h : keepM t = keepM u) : t.time = u.time := congrArg (fun x => x.2.2.2.1) h
theorem power_of_keepM {t u : State} (h : keepM t = keepM u) : t.power = u.power := congrArg (fun x => x.2.2.2.2.1) h
theorem therm_of_keepM {t u : State} (h : keepM t = keepM u) : t.therm = u.therm := congrArg (fun x => x.2.2.2.2.2.1) h
theorem start_of_keepM {t u : State} (h : keepM t = keepM u) : t.start = u.start := congrArg (fun x => x.2.2.2.2.2.2.1) h
theorem fw_of_keepM {t u : State} (h : keepM t = keepM u) : t.fw = u.fw := congrArg (fun x => x.2.2.2.2.2.2.2.1) h
theorem sec_of_keepM {t u : State} (h : keepM t = keepM u) : t.sec = u.sec := congrArg (fun x => x.2.2.2.2.2.2.2.2) h

/-! ## The registers and sources of the fabric time -/

section
variable {s : State}

theorem timeEvent_time (s : State) : (timeEvent s).time = s.time := time_of_keepE (event_keepE _ s)

theorem loseSource_other {src other : TimeSrc} {g : Bool} (h : s.time.source = src) (hg : (srcEnabled s other && g) = true) :
    (loseSource src other g s).time = { s.time with source := other } := by
  unfold loseSource
  rw [if_neg (not_not_intro h), if_pos hg]
  exact timeEvent_time _

theorem loseSource_holdover {src other : TimeSrc} {g : Bool} (h : s.time.source = src) (hg : (srcEnabled s other && g) = false) :
    (loseSource src other g s).time.mode = .holdover ∧ (loseSource src other g s).time.source = .none ∧
    (loseSource src other g s).time.markValid = s.time.markValid ∧ (loseSource src other g s).time.ftime = s.time.ftime := by
  have hlose : loseSource src other g s = timeEvent { s with time := { s.time with
      mode := .holdover, source := .none, goodRun := 0, badRun := 0, slewNs := 0
      bBaseNs := (boundNs s).getD s.time.bBaseNs, bSince := s.time.ftime } } := by
    unfold loseSource
    rw [if_neg (not_not_intro h), if_neg (Bool.eq_false_iff.1 hg)]
  rw [hlose, timeEvent_time]
  exact ⟨rfl, rfl, rfl, rfl⟩

theorem ptmDialogTimer_asks {p : Nat} (hp : ptmPort s = some p) (he : srcEnabled s .ptm = true) :
    execPtmDialogTimer s = ran { begin s with time := { s.time with ptmPending := true }, out := [.ptmRequest p] } := by
  have hport : ptmPort (begin s) = some p := hp
  unfold execPtmDialogTimer
  dsimp only
  rw [hport]
  exact if_pos he

theorem ptmResponse_samples {m : BitVec 64} {d : Word} (hp : s.time.ptmPending = true) (hd : d.toNat ≤ 10000) (hi : srcInjected s .ptm = false) :
    execPtmResponse m d s = ran (goodSample .ptm m.toNat { begin s with time := { s.time with ptmPending := false } }) := by
  have hpend : ¬ (!(begin s).time.ptmPending) = true := by
    change ¬ (!s.time.ptmPending) = true
    rw [hp]
    decide
  have hinj : srcInjected { begin s with time := { (begin s).time with ptmPending := false } } .ptm = false := hi
  unfold execPtmResponse
  dsimp only
  rw [if_neg hpend, hinj, if_pos (by rw [Nat.ble_eq_true_of_le hd]; rfl)]
  rfl

theorem timemarkEdge_samples (hv : s.time.markValid = true) (hi : srcInjected s .timemark = false) : execTimemarkEdge s =
    ran (goodSample .timemark s.time.markVal.toNat { begin s with time := { s.time with markVal := s.time.markVal + 1000000 } }) := by
  have hvalid : ¬ (!(begin s).time.markValid) = true := by
    change ¬ (!s.time.markValid) = true
    rw [hv]
    decide
  have hinj (v : BitVec 64) : ¬ srcInjected { begin s with time := { (begin s).time with markVal := v } } .timemark = true :=
    Bool.eq_false_iff.1 hi
  unfold execTimemarkEdge
  dsimp only
  rw [if_neg hvalid, if_neg (hinj _)]
  rfl

theorem timemarkEdge_idle (hv : s.time.markValid = false) : execTimemarkEdge s = ran (begin s) := by
  have hvalid : (!(begin s).time.markValid) = true := by
    change (!s.time.markValid) = true
    rw [hv]
    rfl
  unfold execTimemarkEdge
  dsimp only
  exact if_pos hvalid

end

/-- Settles O12: the rows sample a source, or lose it to the other or to Holdover. -/
theorem timeCommandsAct : Obligations.TimeCommandsAct := by
  intro s b
  refine ⟨ends_of_ran rfl rfl, fun v => ends_of_ran rfl rfl, fun p hp he => ends_of_ran (ptmDialogTimer_asks hp he) rfl,
    fun m d hp hd hi => ends_of_ran (ptmResponse_samples hp hd hi) rfl, fun hv hi => ends_of_ran (timemarkEdge_samples hv hi) rfl,
    fun hv => ends_of_ran (timemarkEdge_idle hv) rfl, fun hm => ends_of_ran (if_pos hm) (timeEvent_time _),
    fun hs hg => ends_of_ran rfl (loseSource_other hs hg), fun hs hg => ends_of_ran rfl ?_,
    fun hs hg => ends_of_ran rfl (loseSource_other hs hg), fun hs hg => ends_of_ran rfl ?_⟩
  · obtain ⟨hm, hn, -, hf⟩ := loseSource_holdover (s := { b with time := { s.time with ptmGood := false } }) hs hg
    exact ⟨hm, hn, hf⟩
  · exact loseSource_holdover (s := { b with time := { s.time with markGood := false, markValid := false } }) hs hg

/-! ## The table of R407 -/

section
variable {src : TimeSrc} {v n : Nat} {s : State}

/-- The state in which a good sample is judged: its source is good, and its offset is shown. -/
def judged (src : TimeSrc) (v : Nat) (s : State) : State := sampleSeen src ((v : Int) - (s.time.ftime.toNat : Int)) s

theorem judged_time (src : TimeSrc) (v : Nat) (s : State) : ∃ o, (judged src v s).time = { s.time with
    offsetNs := o, ptmGood := s.time.ptmGood || src == .ptm, markGood := s.time.markGood || src == .timemark } := by
  unfold judged sampleSeen shownOffset
  split
  · exact ⟨_, rfl⟩
  · exact ⟨_, rfl⟩

theorem judged_mm (src : TimeSrc) (v : Nat) (s : State) : (judged src v s).mm = s.mm := by
  unfold judged sampleSeen shownOffset
  split
  · rfl
  · rfl

theorem srcUsed_judged (h : srcUsed { s with time := { s.time with
    ptmGood := s.time.ptmGood || src == .ptm, markGood := s.time.markGood || src == .timemark } } src = true) :
    srcUsed (judged src v s) src = true := by
  obtain ⟨o, ho⟩ := judged_time src v s
  unfold srcUsed srcEnabled at h ⊢
  rw [ho]
  exact h

theorem boundNs_judged : boundNs (judged src v s) = boundNs s := by
  obtain ⟨o, ho⟩ := judged_time src v s
  unfold boundNs
  rw [ho]

theorem saveSteps_time (s : State) : (saveSteps s).time = s.time := time_of_keepE (sbEnqueue_keepE _ _)

theorem stepTime_time (value : Nat) (s : State) : (stepTime value s).time = { s.time with
    ftime := BitVec.ofNat 64 value
    steps := logStep ⟨((value : Int) - (s.time.ftime.toNat : Int)).tdiv 1000, s.mm.cseq, s.time.unbounded⟩ s.time.steps
    unbounded := false, disciplined := true
    bBaseNs := 1000, bSince := BitVec.ofNat 64 value, slewNs := 0, goodRun := 0, badRun := 0 } := by
  unfold stepTime
  exact (time_of_keepE (event_keepE _ _)).trans (saveSteps_time _)

/-- In Locked, the third offset above 10 us in a row ends in Holdover; a second is counted. -/
theorem goodSample_far (hu : srcUsed (judged src v s) src = true)
    (hfar : (judged src v s).time.mode = .locked ∧ 10000 < ((v : Int) - (s.time.ftime.toNat : Int)).natAbs) :
    goodSample src v s = if 3 ≤ (judged src v s).time.badRun + 1 then
        timeEvent { judged src v s with time := { (judged src v s).time with
          mode := .holdover, source := .none, badRun := 0, goodRun := 0, slewNs := 0, bSince := (judged src v s).time.ftime } }
      else { judged src v s with time := { (judged src v s).time with badRun := (judged src v s).time.badRun + 1 } } := by
  have hused : ¬ (!srcUsed (judged src v s) src) = true := by
    rw [hu]
    decide
  exact (if_neg hused).trans (if_pos hfar)

/-- An offset within the bound trims the time. -/
theorem goodSample_near (hu : srcUsed (judged src v s) src = true) (hb : boundNs s = some n)
    (hd : ((v : Int) - (s.time.ftime.toNat : Int)).natAbs ≤ n + 1000)
    (hnear : ¬ ((judged src v s).time.mode = .locked ∧ 10000 < ((v : Int) - (s.time.ftime.toNat : Int)).natAbs)) :
    (goodSample src v s).time = { (judged src v s).time with
      source := src, slewNs := (v : Int) - (s.time.ftime.toNat : Int), badRun := 0
      goodRun := if ((v : Int) - (s.time.ftime.toNat : Int)).natAbs ≤ 1000 then (judged src v s).time.goodRun + 1 else 0
      bBaseNs := ((v : Int) - (s.time.ftime.toNat : Int)).natAbs + 1000, bSince := (judged src v s).time.ftime
      mode := if 16 ≤ (if ((v : Int) - (s.time.ftime.toNat : Int)).natAbs ≤ 1000 then (judged src v s).time.goodRun + 1 else 0) then .locked
        else (judged src v s).time.mode
      unbounded := if 16 ≤ (if ((v : Int) - (s.time.ftime.toNat : Int)).natAbs ≤ 1000 then (judged src v s).time.goodRun + 1 else 0) then false
        else (judged src v s).time.unbounded
      disciplined := true } := by
  have hused : ¬ (!srcUsed (judged src v s) src) = true := by
    rw [hu]
    decide
  have hin : ((match boundNs (judged src v s) with | some b => Nat.ble ((v : Int) - (s.time.ftime.toNat : Int)).natAbs (b + 1000) | none => false) ||
      decide ((judged src v s).time.mode = .locked)) = true := by
    rw [boundNs_judged, hb]
    dsimp only
    rw [Nat.ble_eq_true_of_le hd, Bool.true_or]
  exact congrArg State.time ((if_neg hused).trans ((if_neg hnear).trans (if_pos hin)))

/-- A larger offset outside Locked steps the time. -/
theorem goodSample_steps (hu : srcUsed (judged src v s) src = true) (hb : boundNs s = some n)
    (hd : n + 1000 < ((v : Int) - (s.time.ftime.toNat : Int)).natAbs) (hmode : (judged src v s).time.mode ≠ .locked) :
    goodSample src v s = { stepTime v (judged src v s) with time := { (stepTime v (judged src v s)).time with source := src } } := by
  have hused : ¬ (!srcUsed (judged src v s) src) = true := by
    rw [hu]
    decide
  have hin : ¬ ((match boundNs (judged src v s) with | some b => Nat.ble ((v : Int) - (s.time.ftime.toNat : Int)).natAbs (b + 1000) | none => false) ||
      decide ((judged src v s).time.mode = .locked)) = true := by
    rw [boundNs_judged, hb, decide_eq_false hmode]
    simp only [Bool.or_false, Nat.ble_eq]
    exact Nat.not_le.2 hd
  unfold judged at hused hin hmode ⊢
  unfold goodSample
  dsimp only
  rw [if_neg hused, if_neg (fun h => hmode h.1)]
  exact if_neg hin

end

/-- Settles O13: the judged sample is near, steps the time, or is counted. -/
theorem goodSampleTrimsStepsOrCounts : Obligations.GoodSampleTrimsStepsOrCounts := by
  intro src v n s hused hb d t
  have hu := srcUsed_judged (v := v) hused
  obtain ⟨o, ho⟩ := judged_time src v s
  have hmode : (judged src v s).time.mode = s.time.mode := congrArg (·.mode) ho
  refine ⟨fun hd hnear => ?_, fun hd hm => ?_, fun hd hm => ?_⟩
  · have ht : t = _ := goodSample_near hu hb hd (by rw [hmode]; exact hnear)
    rw [ht, ho]
    exact ⟨rfl, rfl, rfl, rfl, rfl, rfl, rfl⟩
  · have ht : t = _ := congrArg State.time (goodSample_steps hu hb hd (by rw [hmode]; exact hm))
    dsimp only at ht
    rw [ht, stepTime_time, ho, judged_mm]
    exact ⟨rfl, rfl, rfl, rfl, rfl, rfl⟩
  · have hfar := goodSample_far hu ⟨hmode.trans hm, hd⟩
    rw [ho] at hfar
    by_cases h3 : 3 ≤ s.time.badRun + 1
    · have ht : t = _ := congrArg State.time (hfar.trans (if_pos h3))
      rw [ht, timeEvent_time]
      exact ⟨rfl, rfl, fun h => absurd h3 (Nat.not_le.2 h), fun _ => ⟨rfl, rfl⟩⟩
    · have ht : t = _ := congrArg State.time (hfar.trans (if_neg h3))
      rw [ht]
      exact ⟨rfl, rfl, fun _ => ⟨hm, rfl⟩, fun h => absurd h h3⟩

end Sys2Proof.Machine
end

section
/-! SUPPORT. What raising an event, signalling an interrupt and writing the Strongbox leave alone in the sections they touch. -/

namespace Sys2Proof.Machine

/-- Only the logs of an LD differ. -/
def LogsOnly (d e : Ld) : Prop := { e with logs := d.logs, logOverflow := d.logOverflow, nextHandle := d.nextHandle } = d

/-- An answer that is an interrupt. -/
def Interrupt (o : Out) : Prop := (∃ v, o = .msix v) ∨ ∃ i v, o = .eventIntr i v

/-- From `s` to `u` only events were recorded, told to hosts and saved: the LDs keep all but their logs, no point was armed, interrupts alone
were sent, and of the Strongbox only its contents, its writes and the count of the abandoned ones changed. -/
structure Heralds (s u : State) : Prop where
  keep : keepE u = keepE s
  host : { u.host with lds := s.host.lds } = s.host
  count : u.host.lds.length = s.host.lds.length
  lds : ∀ i, LogsOnly (ldOf s i) (ldOf u i)
  armed : ∀ a ∈ u.evt.armed, a ∈ s.evt.armed
  out : ∃ l, u.out = s.out ++ l ∧ ∀ o ∈ l, Interrupt o
  sb : { u.sb with cells := s.sb.cells, queue := s.sb.queue, running := s.sb.running, abandon := s.sb.abandon, abandonFlag := s.sb.abandonFlag } = s.sb

section
variable {s t u : State}

theorem Heralds.refl (s : State) : Heralds s s := ⟨rfl, rfl, rfl, fun _ => rfl, fun _ h => h, ⟨[], (List.append_nil _).symm, fun _ h => absurd h List.not_mem_nil⟩, rfl⟩

theorem LogsOnly.trans {c d e : Ld} (hcd : LogsOnly c d) (hde : LogsOnly d e) : LogsOnly c e := by
  unfold LogsOnly at *
  rw [← hcd, ← hde]

theorem Heralds.trans (hst : Heralds s t) (htu : Heralds t u) : Heralds s u := by
  obtain ⟨l, hl, hin⟩ := hst.out
  obtain ⟨m, hm, hin'⟩ := htu.out
  refine ⟨htu.keep.trans hst.keep, ?_, htu.count.trans hst.count, fun i => (hst.lds i).trans (htu.lds i), fun a h => hst.armed a (htu.armed a h), ⟨l ++ m, ?_, ?_⟩, ?_⟩
  · rw [← hst.host, ← htu.host]
  · rw [hm, hl, List.append_assoc]
  · intro o ho
    obtain h | h := List.mem_append.1 ho
    · exact hin o h
    · exact hin' o h
  · rw [← hst.sb, ← htu.sb]

theorem Heralds.mem_out {o : Out} (h : Heralds s u) (ho : o ∈ s.out) : o ∈ u.out := by
  obtain ⟨l, hl, -⟩ := h.out
  rw [hl]
  exact List.mem_append_left _ ho

theorem Heralds.not_mem_out {o : Out} (h : Heralds s u) (ho : o ∉ s.out) (hi : ¬ Interrupt o) : o ∉ u.out := by
  obtain ⟨l, hl, hin⟩ := h.out
  rw [hl, List.mem_append]
  rintro (h | h)
  · exact ho h
  · exact hi (hin o h)

theorem Heralds.wb (h : Heralds s t) (w : WaybillSt) : Heralds s { t with wb := w } := ⟨h.keep, h.host, h.count, h.lds, h.armed, h.out, h.sb⟩

theorem Heralds.queue (h : Heralds s t) (q : QueueSt) : Heralds s { t with queue := q } := ⟨h.keep, h.host, h.count, h.lds, h.armed, h.out, h.sb⟩

theorem Heralds.evt (h : Heralds s t) {e : EvtSt} (he : ∀ a ∈ e.armed, a ∈ t.evt.armed) : Heralds s { t with evt := e } :=
  ⟨h.keep, h.host, h.count, h.lds, fun a ha => h.armed a (he a ha), h.out, h.sb⟩

theorem Heralds.sbBooks (h : Heralds s t) (c : List Host.Cell) (q : List SbReq) (r : Option SbReq) (n : BitVec 32) (f : Bool) :
    Heralds s { t with sb := { t.sb with cells := c, queue := q, running := r, abandon := n, abandonFlag := f } } :=
  ⟨h.keep, h.host, h.count, h.lds, h.armed, h.out, h.sb⟩

theorem Heralds.send (h : Heralds s t) {o : Out} (ho : Interrupt o) : Heralds s (send t o) := by
  obtain ⟨l, hl, hin⟩ := h.out
  refine ⟨h.keep, h.host, h.count, h.lds, h.armed, ⟨l ++ [o], ?_, fun x hx => ?_⟩, h.sb⟩
  · rw [send_out, hl, List.append_assoc]
  · obtain hx | hx := List.mem_append.1 hx
    · exact hin x hx
    · rw [List.mem_singleton.1 hx]
      exact ho

theorem Heralds.ite {p : Prop} [Decidable p] (ht : Heralds s t) (hu : Heralds s u) : Heralds s (if p then t else u) := by
  split
  · exact ht
  · exact hu

theorem Heralds.foldl {α : Type} (l : List α) {f : State → α → State} (ht : Heralds s t) (hf : ∀ u a, Heralds s u → Heralds s (f u a)) :
    Heralds s (l.foldl f t) := List.foldlRecOn l f ht (fun u hu a _ => hf u a hu)

/-! ## Interrupts -/

theorem Heralds.pendVec (h : Heralds s t) (f v : Nat) : Heralds s (pendVec f v t) := .ite (h.evt (fun _ ha => ha)) h

theorem Heralds.signal (h : Heralds s t) (v : BitVec 5) : Heralds s (signal v t) := by
  have hpend := h.foldl (List.range t.host.ports.length) (f := fun u p =>
    if (u.host.ports.getD p {}).up then Machine.pendVec (bar2Fn u p) v.toNat u else u) (fun u p hu => (hu.pendVec _ _).ite hu)
  exact (hpend.send (.inl ⟨v, rfl⟩)).ite hpend

theorem Heralds.setEvt (h : Heralds s t) (b : Nat) : Heralds s (setEvt b t) := by
  have hevt : Heralds s { t with evt := { t.evt with status := setBit t.evt.status b true, counts := lmod t.evt.counts b satInc } } :=
    h.evt (fun _ ha => ha)
  exact (hevt.signal _).ite hevt

theorem Heralds.evFlags (h : Heralds s t) (e : Ev) : Heralds s (evFlags e t) := by
  unfold Machine.evFlags
  extract_lets t1 t2 t3 t4 t5 t6
  have h1 : Heralds s t1 := (h.setEvt _).ite h
  have h2 : Heralds s t2 := (h1.setEvt _).ite h1
  have h3 : Heralds s t3 := (h2.setEvt _).ite h2
  have h4 : Heralds s t4 := (h3.setEvt _).ite h3
  have h5 : Heralds s t5 := (h4.setEvt _).ite h4
  have h6 : Heralds s t6 := (h5.setEvt _).ite h5
  exact (h6.setEvt _).ite h6

/-! ## The Strongbox and the Waybill -/

theorem Heralds.fire (h : Heralds s t) (p u : Nat) : Heralds s (fire p u t) := h.evt (fun _ ha => (List.mem_filter.1 ha).1)

theorem Heralds.sbAbandon (h : Heralds s t) (r : SbReq) : Heralds s (sbAbandon t r) := by
  have hbooks := h.sbBooks t.sb.cells t.sb.queue t.sb.running (satInc t.sb.abandon) true
  cases r with
  | waybill seqs => exact hbooks.wb _
  | ring ty ix pl => exact hbooks
  | slot n bs => exact hbooks

theorem Heralds.sbApply (h : Heralds s t) (r : SbReq) : Heralds s (sbApply t r) := by
  cases r with
  | waybill seqs => exact ((h.fire _ _).ite h).wb _
  | ring ty ix pl =>
    have hfired : Heralds s (if isArmed t 0x000E 0 then Machine.fire 0x000E 0 t else t) := (h.fire _ _).ite h
    exact hfired.sbBooks _ _ _ _ _
  | slot n bs => exact h.sbBooks _ _ _ _ _

theorem Heralds.sbStartFrom (rs : List SbReq) (h : Heralds s t) : Heralds s (sbStartFrom rs t) := by
  induction rs generalizing t with
  | nil => exact h.sbBooks _ _ _ _ _
  | cons r rest ih =>
    unfold Machine.sbStartFrom
    exact ((h.sbApply r).sbBooks _ _ _ _ _).ite (ih (h.sbAbandon r))

theorem Heralds.sbStart (h : Heralds s t) : Heralds s (sbStart t) := by
  unfold Machine.sbStart
  split
  · exact h
  · exact h.sbStartFrom _

theorem Heralds.sbEnqueue (h : Heralds s t) (r : SbReq) : Heralds s (sbEnqueue t r) := (h.sbBooks _ _ _ _ _).sbStart

theorem Heralds.sbFirst (h : Heralds s t) (rs : List SbReq) : Heralds s (sbFirst rs t) := (h.sbBooks _ _ _ _ _).sbStart

theorem Heralds.wbPump (h : Heralds s t) : Heralds s (wbPump t) := by
  unfold Machine.wbPump
  dsimp only
  split
  · exact h
  · split
    · exact h.wb _
    · exact (h.wb _).sbEnqueue _

theorem Heralds.wbFlush (h : Heralds s t) : Heralds s (wbFlush t) := (h.wb _).wbPump

theorem Heralds.wbTrigger (h : Heralds s t) (sev : Nat) : Heralds s (wbTrigger sev t) := h.wbFlush.ite h

theorem Heralds.wbLost (h : Heralds s t) (sev : Nat) (old : Option (BitVec 32)) : Heralds s (wbLost sev old t) := (h.wb _).setEvt _

theorem Heralds.wbAppend (h : Heralds s t) (r : WbRec) : Heralds s (wbAppend r t) := h.wb _

theorem Heralds.wbArrive (h : Heralds s t) (r : WbRec) : Heralds s (wbArrive r t).2 := by
  unfold Machine.wbArrive
  dsimp only
  split
  · exact h.wbAppend r
  · split
    · exact ((h.wb _).wbLost _ _).wbAppend r
    · split
      · exact ((h.wb _).wbLost _ _).wbAppend r
      · exact h.wbLost _ _

/-! ## The notice queue and the hosts' logs -/

theorem Heralds.qGrant (h : Heralds s t) (q : Nat) : Heralds s (qGrant q t) := h.ite (h.queue _)

theorem Heralds.qPush (h : Heralds s t) (q : Nat) (w : BitVec 64) (p : Bool) : Heralds s (qPush q w p t).2 := by
  unfold Machine.qPush
  dsimp only
  split
  · exact h.qGrant q
  · exact Heralds.queue (((h.qGrant q).fire _ _).ite (h.qGrant q)) _

theorem Heralds.hostNotice (h : Heralds s t) (code unit param : Nat) : Heralds s (hostNotice code unit param t) := h.ite (h.qPush _ _ _)

theorem logsOnly_ldLog (l : Nat) (code : BitVec 16) (seq : BitVec 32) (p0 p1 : BitVec 64) (d : Ld) : LogsOnly d (ldLog l code seq p0 p1 d) := by
  unfold ldLog
  generalize (if l = 4 then 64 else 256) = n
  split
  · rfl
  · rfl

theorem interrupt_of_mem_logIntr {l i : Nat} {d : Ld} {o : Out} (h : o ∈ logIntr s l i d) : Interrupt o := by
  unfold logIntr at h
  dsimp only at h
  split at h
  · rw [List.mem_singleton.1 h]
    exact .inr ⟨_, _, rfl⟩
  · exact absurd h List.not_mem_nil

/-- A record put into the logs of LDs, with the interrupts that tells. -/
theorem Heralds.logged (h : Heralds s t) {lds : List Ld} {os : List Out} (hlen : lds.length = t.host.lds.length)
    (hlds : ∀ i, LogsOnly (ldOf t i) (lds.getD i {})) (hos : ∀ o ∈ os, Interrupt o) :
    Heralds s { t with host := { t.host with lds := lds }, out := t.out ++ os } := by
  obtain ⟨l, hl, hin⟩ := h.out
  refine ⟨h.keep, h.host, hlen.trans h.count, fun i => (h.lds i).trans (hlds i), h.armed, ⟨l ++ os, ?_, fun o ho => ?_⟩, h.sb⟩
  · change t.out ++ os = s.out ++ (l ++ os)
    rw [hl, List.append_assoc]
  · obtain ho | ho := List.mem_append.1 ho
    · exact hin o ho
    · exact hos o ho

/-- A record logged by one LD, or not. -/
theorem logsOnly_put (p : Bool) (l : Nat) (code : BitVec 16) (seq : BitVec 32) (p0 p1 : BitVec 64) (d : Ld) :
    LogsOnly d (if p then ldLog l code seq p0 p1 d else d) := by
  split
  · exact logsOnly_ldLog _ _ _ _ _ _
  · rfl

theorem logsOnly_mapIdx {f : Nat → Ld → Ld} (hf : ∀ i d, LogsOnly d (f i d)) (ds : List Ld) (i : Nat) :
    LogsOnly (ds.getD i {}) ((ds.mapIdx f).getD i {}) := by
  rw [List.getD_eq_getElem?_getD, List.getD_eq_getElem?_getD, List.getElem?_mapIdx]
  cases ds[i]? with
  | none => rfl
  | some d => exact hf i d

theorem logsOnly_lmod {f : Ld → Ld} (hf : ∀ d, LogsOnly d (f d)) (ds : List Ld) (n i : Nat) :
    LogsOnly (ds.getD i {}) ((lmod ds n f).getD i {}) := by
  rw [List.getD_eq_getElem?_getD, List.getD_eq_getElem?_getD, getElem?_lmod]
  split
  · cases ds[i]? with
    | none => rfl
    | some d => exact hf d
  · rfl

theorem Heralds.logPend (h : Heralds s t) (l i : Nat) (d : Ld) : Heralds s (logPend l i d t) := (h.pendVec _ _).ite h

theorem Heralds.deliver (h : Heralds s t) (r : WbRec) (vc : Option Nat) : Heralds s (deliver t r vc) := by
  unfold Machine.deliver
  extract_lets col put tells pend pended src all one
  have hput (i : Nat) (d : Ld) : LogsOnly d (put i d) := logsOnly_put _ _ _ _ _ _ _
  have htells (i : Nat) (d : Ld) : ∀ o ∈ tells i d, Interrupt o := by
    intro o ho
    simp only [tells] at ho
    split at ho
    · exact interrupt_of_mem_logIntr ho
    · exact absurd ho List.not_mem_nil
  have hpend (u : State) (i : Nat) (hu : Heralds s u) : Heralds s (pend u i) := (hu.logPend _ _ _).ite hu
  have hall : Heralds s all := by
    refine (h.foldl (List.range t.host.lds.length) hpend).logged List.length_mapIdx (logsOnly_mapIdx hput _) (fun o ho => ?_)
    obtain ⟨os, hos, ho⟩ := List.mem_flatten.1 ho
    obtain ⟨i, hi, rfl⟩ := List.mem_mapIdx.1 hos
    exact htells _ _ o ho
  have hone (i : Nat) : Heralds s (one i) := by
    refine (hpend t i h).logged (lmod_length _ _ _) (logsOnly_lmod (hput i) _ i) (fun o ho => ?_)
    cases hd : t.host.lds[i]? with
    | none =>
      rw [hd] at ho
      exact absurd ho List.not_mem_nil
    | some d =>
      rw [hd] at ho
      exact htells i d o ho
  clear_value col all one
  cases col with
  | none => exact h
  | gm => exact hone _
  | mm => exact h.ite hall
  | vs => exact hall
  | fatal => exact hall
  | vc =>
    cases vc with
    | none => exact h
    | some i => exact hone i

theorem Heralds.toHost (h : Heralds s t) (r : WbRec) (vc : Option Nat) : Heralds s (toHost t r vc) := by
  unfold Machine.toHost
  exact h.ite ((h.deliver r vc).ite (h.wb _))

theorem Heralds.event (h : Heralds s t) (e : Ev) : Heralds s (event e t) := by
  have hflags := h.evFlags e
  unfold Machine.event
  extract_lets t1 b take wb b' r
  split
  · exact hflags.wb _
  · have harrive : Heralds s (Machine.wbArrive r t1).2 := hflags.wbArrive r
    generalize Machine.wbArrive r t1 = arrived at harrive
    have htold := harrive.wb { arrived.2.wb with buckets := sset {} arrived.2.wb.buckets e.code (if arrived.1 then { b' with suppressed := 0 } else b') }
    exact (((htold.toHost r e.ld).hostNotice _ _ _).wbTrigger _).ite htold

end

theorem event_heralds (e : Ev) (s : State) : Heralds s (event e s) := (Heralds.refl s).event e

end Sys2Proof.Machine
end

section
/-! SUPPORT. The power section after the rows of the rails, with O14 assembled from it. -/

namespace Sys2Proof.Machine

/-! ## Bits -/

theorem getLsbD_setBit_true {w i : Nat} (x : BitVec w) (h : i < w) : (setBit x i true).getLsbD i = true := by
  unfold setBit
  rw [if_pos rfl, BitVec.getLsbD_or, BitVec.getLsbD_ofNat, Nat.testBit_two_pow_self]
  simp [h]

/-! ## What was sent -/

/-- Interrupts alone were sent. -/
def Quiet (s u : State) : Prop := ∀ o ∈ u.out, o ∈ s.out ∨ Interrupt o

section
variable {s t u : State}

theorem Quiet.refl (s : State) : Quiet s s := fun _ h => .inl h

theorem Quiet.trans (hst : Quiet s t) (htu : Quiet t u) : Quiet s u := fun o ho => (htu o ho).elim (hst o) .inr

theorem Heralds.quiet (h : Heralds s u) : Quiet s u := by
  obtain ⟨l, hl, hin⟩ := h.out
  intro o ho
  rw [hl] at ho
  exact (List.mem_append.1 ho).imp_right (hin o)

theorem saveUnit_heralds (u : Nat) (s : State) : Heralds s (saveUnit s u) := by
  unfold saveUnit
  split
  · exact (Heralds.refl s).sbEnqueue _
  · exact .refl s

theorem mailDown_out (u : Nat) (s : State) : (mailDown u s).out = s.out := by
  unfold mailDown
  split
  · rfl
  · split <;> rfl

theorem setUnit_quiet (n : Nat) (st : UState) (reason : Nat) (repl : Bool) (s : State) : Quiet s (setUnit n st reason repl s) := by
  unfold setUnit
  extract_lets old was units rcd s1 evt s2 saved s3
  have h2 : Quiet s s2 := by
    intro o ho
    simp only [s2, s1] at ho
    split at ho
    · exact .inl ho
    · exact .inl ho
  have h3 : Quiet s2 s3 := by
    simp only [s3]
    split
    · exact (saveUnit_heralds n s2).quiet
    · exact .refl s2
  have hdown : Quiet s3 (if isDown st then mailDown n s3 else s3) := by
    intro o ho
    split at ho
    · rw [mailDown_out] at ho
      exact .inl ho
    · exact .inl ho
  have hevent (v : State) (old new : UState) : Quiet v (stateEvent n old new reason repl v) := (event_heralds _ v).quiet
  exact (h2.trans h3).trans (hdown.trans (hevent _ _ _))

/-! ## The rails come up -/

theorem endPowerUp_power (n : Nat) (s : State) : (endPowerUp n s).power = s.power := power_of_keepM (endPowerUp_keepM n s)

theorem foldl_power {α : Type} {f : State → α → State} (hf : ∀ s a, keepM (f s a) = keepM s) (l : List α) (s : State) :
    (l.foldl f s).power = s.power :=
  power_of_keepM (List.foldlRecOn (motive := fun t => keepM t = keepM s) l f rfl (fun t ht a _ => (hf t a).trans ht))

theorem onDone_power (s : State) : ∃ q v d, (onDone s).power = { s.power with seq := q, vcoreMv := v, vcoreDone := d } := by
  unfold onDone
  extract_lets held t1 t2 start
  have h2 : t2.power = t1.power := endPowerUp_power 0 t1
  split
  · exact ⟨_, _, _, h2⟩
  · exact ⟨_, _, _, (foldl_power (fun t p => trainLink_keepM p t) (List.range 4) _).trans h2⟩

theorem checkOn_power (s : State) : ∃ q v d, (checkOn s).power = { s.power with seq := q, vcoreMv := v, vcoreDone := d } := by
  unfold checkOn
  split
  · exact onDone_power s
  · exact ⟨_, _, _, rfl⟩

theorem railReadmitted_power (r : Nat) (s : State) : ∃ f, (railReadmitted r s).power = { s.power with flagged := f } := by
  unfold railReadmitted
  split
  · split
    · extract_lets t
      exact ⟨setBit s.power.flagged r false, (power_of_keepM (endJob_keepM _ _ _)).trans
        ((power_of_keepM (railBack_keepM _ _)).trans (power_of_keepM (setUnit_keepM _ _ _ _ _)))⟩
    · exact ⟨_, rfl⟩
  · exact ⟨_, rfl⟩

/-! ## The rails fail -/

theorem flagRail_power {r : Nat} (h : s.power.flagged.getLsbD r = false) : ∃ a b c d, (flagRail r s).power = { s.power with
    flagged := setBit s.power.flagged r true, railFailFlag := true, firstRail := a, firstFt := b, firstHours := c, firstSet := d } := by
  unfold flagRail
  extract_lets olds first t1 t2 t3 t4
  have h3 : ∃ a b c d, t3.power = { t1.power with firstRail := a, firstFt := b, firstHours := c, firstSet := d } := by
    simp only [t3]
    split
    · exact ⟨_, _, _, _, rfl⟩
    · have hfirst : (sbFirst [.ring 0x65 0 (railPayload t2)] t2).power = t2.power := power_of_keepE (sbFirst_keepE _ _)
      rw [hfirst]
      exact ⟨_, _, _, _, rfl⟩
  obtain ⟨a, b, c, d, h3⟩ := h3
  rw [if_neg (Bool.eq_false_iff.1 h)]
  exact ⟨a, b, c, d, (power_of_keepM (unitsAbsent_keepM _ _)).trans ((power_of_keepE (event_keepE _ _)).trans h3)⟩

theorem flagRail_flags {r : Nat} (hr : r < 32) : (flagRail r s).power.flagged.getLsbD r = true ∧ (flagRail r s).power.offSeen = s.power.offSeen := by
  cases h : s.power.flagged.getLsbD r with
  | true =>
    have hsame : flagRail r s = s := if_pos h
    rw [hsame]
    exact ⟨h, rfl⟩
  | false =>
    obtain ⟨a, b, c, d, hp⟩ := flagRail_power h
    rw [hp]
    exact ⟨getLsbD_setBit_true _ hr, rfl⟩

theorem failReadmits_power (s : State) : (failReadmits s).power = s.power := power_of_keepM (failReadmits_keepM s)

/-- What entering the shutdown path leaves of the power section. -/
theorem shutdownPath_power (cause : Nat) (s : State) : ∃ a b c d e, (shutdownPath cause s).power = { s.power with
    seq := .shuttingDown, cause := BitVec.ofNat 3 cause, seqOut := false, flushStep := 1, flushBroken := false
    fseq := a, flushLive := b, flushHasLast := c, flushLines := d, lastFlushOk := e } := by
  unfold shutdownPath
  extract_lets evt t1 t2 tt host therm t3 mm t4 unit t5 t6 t7 recs t8
  have h1 : t1.power = s.power := failReadmits_power _
  have h6 : t6.power = t2.power := foldl_power (fun t c => stopChannel_keepM c t) _ t5
  have h7 : t7.power = t6.power := power_of_keepE (event_keepE _ _)
  have h8 : ∃ a b c d e, t8.power = { t7.power with fseq := a, flushLive := b, flushHasLast := c, flushLines := d, lastFlushOk := e } := by
    simp only [t8]
    split
    · exact ⟨_, _, _, _, _, rfl⟩
    · exact ⟨_, _, _, _, _, rfl⟩
  obtain ⟨a, b, c, d, e, h8⟩ := h8
  refine ⟨a, b, c, d, e, (power_of_keepE (wbFlush_keepE _)).trans ((power_of_keepE (sbFirst_keepE _ _)).trans ?_)⟩
  have h2 : t2.power = { s.power with
      seq := .shuttingDown, cause := BitVec.ofNat 3 cause, seqOut := false, flushStep := 1, flushBroken := false } :=
    congrArg (fun p : PowerSt => { p with
      seq := .shuttingDown, cause := BitVec.ofNat 3 cause, seqOut := false, flushStep := 1, flushBroken := false }) h1
  rw [h8, h7, h6, h2]

/-! ## The rows of the rails -/

variable {r : Fin 32}

theorem checkOff_power (s : State) : ∃ q, (checkOff s).power = { s.power with seq := q } ∧ { checkOff s with power := s.power } = s := by
  unfold checkOff
  split
  · exact ⟨_, rfl, rfl⟩
  · exact ⟨_, rfl, rfl⟩

theorem pgLost_on (hs : sequenced s r = true) (hon : s.power.seq = .on) (he : s.power.enable.getLsbD r = true)
    (hf : s.power.flagged.getLsbD r = false) : pgLost r s = if railFeeds s r [0, 1, 3] then
      shutdownPath 1 (setPower (fun p => { p with flagged := setBit p.flagged r true }) (setPower (fun p => { p with good := setBit p.good r false }) s))
    else mediaNext (flagRail r (setPower (fun p => { p with good := setBit p.good r false }) s)) := by
  have hseq : ¬ (!sequenced s r) = true := by
    rw [hs]
    decide
  have hgo : ¬ ((!s.power.enable.getLsbD r) = true ∨ s.power.flagged.getLsbD r = true) := by
    rw [he, hf]
    decide
  unfold pgLost
  rw [if_neg hseq]
  dsimp only [setPower_power]
  rw [hon]
  exact if_neg hgo

theorem pgLost_main (hs : sequenced s r = true) (hon : s.power.seq = .on) (he : s.power.enable.getLsbD r = true)
    (hf : s.power.flagged.getLsbD r = false) (hfeeds : railFeeds s r [0, 1, 3] = true) :
    Ends (.pgLost r) s (fun u => u.power.seq = .shuttingDown ∧ u.power.cause = 1 ∧ u.power.good = setBit s.power.good r false ∧
      u.power.flagged = setBit s.power.flagged r true) := by
  have hexec : exec (.pgLost r) s = ran (pgLost r (begin s)) := rfl
  rw [pgLost_on (s := begin s) hs hon he hf, if_pos (show railFeeds (begin s) r [0, 1, 3] = true from hfeeds)] at hexec
  obtain ⟨a, b, c, d, e, hp⟩ := shutdownPath_power 1 (setPower (fun p => { p with flagged := setBit p.flagged r true })
    (setPower (fun p => { p with good := setBit p.good r false }) (begin s)))
  refine ends_of_ran hexec ?_
  rw [hp]
  exact ⟨rfl, rfl, rfl, rfl⟩

theorem pgLost_other (hs : sequenced s r = true) (hon : s.power.seq = .on) (he : s.power.enable.getLsbD r = true)
    (hf : s.power.flagged.getLsbD r = false) (hfeeds : railFeeds s r [0, 1, 3] = false) :
    Ends (.pgLost r) s (fun u => u.power.seq = .on ∧ u.power.good = setBit s.power.good r false ∧ u.power.flagged = setBit s.power.flagged r true) := by
  have hexec : exec (.pgLost r) s = ran (pgLost r (begin s)) := rfl
  rw [pgLost_on (s := begin s) hs hon he hf, if_neg (Bool.eq_false_iff.1 (show railFeeds (begin s) r [0, 1, 3] = false from hfeeds))] at hexec
  obtain ⟨a, b, c, d, hp⟩ := flagRail_power (r := r) (s := setPower (fun p => { p with good := setBit p.good r false }) (begin s)) hf
  refine ends_of_ran hexec ?_
  rw [power_of_keepM (mediaNext_keepM _), hp]
  exact ⟨hon, rfl, rfl⟩

theorem pgGood_good (hs : sequenced s r = true) (ha : activePoint s 0x0010 (uRail r) = none) :
    Ends (.pgGood r) s (fun u => u.power.good = setBit s.power.good r true) := by
  have hgo : ¬ (!sequenced (begin s) r || (activePoint (begin s) 0x0010 (uRail r)).isSome) = true := by
    have hs' : sequenced (begin s) r = true := hs
    have ha' : activePoint (begin s) 0x0010 (uRail r) = none := ha
    rw [hs', ha']
    decide
  have hexec : exec (.pgGood r) s = _ := if_neg hgo
  refine ends_of_ran hexec ?_
  obtain ⟨f, hr⟩ := railReadmitted_power r (checkOn (setPower (fun p => { p with good := setBit p.good r true }) (begin s)))
  obtain ⟨q, v, d, hc⟩ := checkOn_power (setPower (fun p => { p with good := setBit p.good r true }) (begin s))
  rw [hr, hc]
  rfl

theorem railPgTimeout_flags (hseq : s.power.seq = .starting) (he : s.power.enable.getLsbD r = true) (hg : s.power.good.getLsbD r = false)
    (hf : s.power.flagged.getLsbD r = false) :
    Ends (.railPgTimeout r) s (fun u => u.power.flagged = setBit s.power.flagged r true ∧ u.power.railFailFlag = true) := by
  have hgo : ¬ ((!(begin s).power.enable.getLsbD r) = true ∨ (begin s).power.good.getLsbD r = true) := by
    change ¬ ((!s.power.enable.getLsbD r) = true ∨ s.power.good.getLsbD r = true)
    rw [he, hg]
    decide
  have hstart : (begin s).power.seq = .starting := hseq
  have hexec : exec (.railPgTimeout r) s = _ := (if_neg hgo).trans (if_pos hstart)
  refine ends_of_ran hexec ?_
  obtain ⟨q, v, d, hc⟩ := checkOn_power (flagRail r (begin s))
  obtain ⟨a, b, c, d, hp⟩ := flagRail_power (r := r) (s := begin s) hf
  rw [hc, hp]
  exact ⟨rfl, rfl⟩

theorem railOffTimeout_flags (hseq : s.power.seq = .railsOff) (he : s.power.enable.getLsbD r = false) (hg : s.power.good.getLsbD r = true)
    (hs : sequenced s r = true) : Ends (.railOffTimeout r) s (fun u => u.power.offSeen = setBit s.power.offSeen r true ∧
      u.power.flagged.getLsbD r = true) := by
  have hgo : ¬ ((begin s).power.seq ≠ .railsOff ∨ (begin s).power.enable.getLsbD r = true ∨ (!(begin s).power.good.getLsbD r) = true ∨
      (!sequenced (begin s) r) = true) := by
    change ¬ (s.power.seq ≠ .railsOff ∨ s.power.enable.getLsbD r = true ∨ (!s.power.good.getLsbD r) = true ∨ (!sequenced s r) = true)
    rw [hseq, he, hg, hs]
    decide
  have hexec : exec (.railOffTimeout r) s = _ := if_neg hgo
  refine ends_of_ran hexec ?_
  obtain ⟨hflag, hseen⟩ := flagRail_flags (s := begin s) r.isLt
  obtain ⟨q, hc, -⟩ := checkOff_power (setPower (fun p => { p with offSeen := setBit p.offSeen r true }) (flagRail r (begin s)))
  rw [hc]
  exact ⟨congrArg (setBit · r.val true) hseen, hflag⟩

theorem minoffEnd_off (hseq : s.power.seq = .minOff) (hh : s.power.onHeld = false) (hr : s.power.restart = false) :
    Ends .minoffEnd s (fun u => u = { begin s with power := { s.power with seq := .off, firstSet := false }, therm := { s.therm with throttle := .none } }) := by
  have hgo : ¬ (begin s).power.seq ≠ .minOff := not_not_intro hseq
  have hstay : ¬ ((s.power.onHeld = true ∨ s.power.restart = true) ∧ (!s.power.pfLow) = true) := by
    rw [hh, hr]
    exact fun h => h.1.elim Bool.false_ne_true Bool.false_ne_true
  have hexec : exec .minoffEnd s = _ := if_neg hgo
  exact ends_of_ran hexec (if_neg hstay)

theorem cascadeStep_on (hc : s.power.cascade = true) (hseq : s.power.seq = .on) :
    Ends .cascadeStep s (fun u => u = { begin s with power := { s.power with seqOut := true } }) := by
  have hgo : ¬ (!(begin s).power.cascade) = true := by
    change ¬ (!s.power.cascade) = true
    rw [hc]
    decide
  have hon : (begin s).power.seq = .on := hseq
  have hexec : exec .cascadeStep s = execCascadeStep s := rfl
  unfold execCascadeStep at hexec
  dsimp only at hexec
  rw [if_neg hgo, hon] at hexec
  exact ends_of_ran hexec rfl

theorem vcoreTrimStep_works (hseq : s.power.seq = .on) (hd : s.power.vcoreDone = false) :
    ¬ ((begin s).power.seq ≠ .on ∨ (begin s).power.vcoreDone = true) := by
  change ¬ (s.power.seq ≠ .on ∨ s.power.vcoreDone = true)
  rw [hseq, hd]
  decide

/-- The setting VCORE goes to next: 10 mV toward the target, or the target. -/
def vcoreNext (now : Nat) : Nat := if vcoreTarget + 10 < now then now - 10 else if now + 10 < vcoreTarget then now + 10 else vcoreTarget

theorem vcoreNext_near (now : Nat) : vcoreNext now ≤ now + 10 ∧ now ≤ vcoreNext now + 10 ∧
    (vcoreTarget ≤ now + 10 → now ≤ vcoreTarget + 10 → vcoreNext now = vcoreTarget) := by
  unfold vcoreNext
  generalize vcoreTarget = t
  split
  · omega
  · split <;> omega

theorem vcoreTrimStep_trims (hseq : s.power.seq = .on) (hd : s.power.vcoreDone = false) : Ends (.vcoreTrimStep true) s (fun u => ∃ g : Nat,
      g ≤ s.power.vcoreMv.toNat + 10 ∧ s.power.vcoreMv.toNat ≤ g + 10 ∧
      (vcoreTarget ≤ s.power.vcoreMv.toNat + 10 → s.power.vcoreMv.toNat ≤ vcoreTarget + 10 → g = vcoreTarget) ∧
      u = { begin s with power := { s.power with vcoreMv := BitVec.ofNat 16 g, vcoreDone := g == vcoreTarget }, out := [.pmbus g] }) := by
  have hexec : exec (.vcoreTrimStep true) s = _ := (if_neg (vcoreTrimStep_works hseq hd)).trans (if_neg (by decide))
  obtain ⟨hlo, hhi, hgoal⟩ := vcoreNext_near s.power.vcoreMv.toNat
  exact ends_of_ran hexec ⟨vcoreNext s.power.vcoreMv.toNat, hlo, hhi, hgoal, rfl⟩

/-- The units of some rails become Degraded, as where VCORE stays untrimmed. -/
def railsDegraded (l : List Nat) (s : State) : State := l.foldl (fun s r => setUnit (uRail r) .degraded 4 false s) s

theorem railsDegraded_power (l : List Nat) (s : State) : (railsDegraded l s).power = s.power := by
  unfold railsDegraded
  exact foldl_power (fun t k => setUnit_keepM (uRail k) .degraded 4 false t) l s

theorem railsDegraded_quiet (l : List Nat) (s : State) : Quiet s (railsDegraded l s) :=
  List.foldlRecOn (motive := Quiet s) l _ (Quiet.refl s) (fun _ ht _ _ => ht.trans (setUnit_quiet _ _ _ _ _))

theorem vcoreTrimStep_gives_up (hseq : s.power.seq = .on) (hd : s.power.vcoreDone = false) : Ends (.vcoreTrimStep false) s (fun u =>
      u.power = { s.power with vcoreMv := 850, vcoreDone := true } ∧ .pmbus 850 ∉ u.out) := by
  have hexec : exec (.vcoreTrimStep false) s =
      ran (railsDegraded (domainRails s 0) (setPower (fun p => { p with vcoreMv := 850, vcoreDone := true }) (begin s))) :=
    (if_neg (vcoreTrimStep_works hseq hd)).trans (if_pos (by decide))
  refine ends_of_ran hexec ⟨railsDegraded_power _ _, fun hmem => ?_⟩
  obtain h | ⟨v, h⟩ | ⟨i, v, h⟩ := railsDegraded_quiet _ _ _ hmem
  · exact absurd h List.not_mem_nil
  · exact Out.noConfusion h
  · exact Out.noConfusion h

end

/-- Settles O14: each rail row by the state of the sequencer that it asks for. -/
theorem railRowsFollowTheTables : Obligations.RailRowsFollowTheTables := by
  intro s r b
  refine ⟨fun hseq hc hs => ?_, fun hseq hc he => ?_, pgGood_good, fun hs => ends_of_ran rfl (if_neg ?_), pgLost_main, pgLost_other, railPgTimeout_flags,
    railOffTimeout_flags, minoffEnd_off, cascadeStep_on, vcoreTrimStep_trims, vcoreTrimStep_gives_up⟩
  · have hgo : (begin s).power.seq = .starting ∧ (!(begin s).power.cascade) = true ∧ sequenced (begin s) r = true :=
      ⟨hseq, (congrArg (!·) hc).trans rfl, hs⟩
    have hexec : exec (.railEnable r) s = _ := congrArg ran (if_pos hgo)
    refine ends_of_ran hexec ?_
    obtain ⟨q, v, d, hp⟩ := checkOn_power (enableRail r (begin s))
    rw [hp]
    rfl
  · have hgo : (begin s).power.seq = .railsOff ∧ (!(begin s).power.cascade) = true ∧ (begin s).power.enable.getLsbD r = true :=
      ⟨hseq, (congrArg (!·) hc).trans rfl, he⟩
    have hexec : exec (.railDisable r) s = _ := congrArg ran (if_pos hgo)
    refine ends_of_ran hexec ?_
    obtain ⟨q, hp, hrest⟩ := checkOff_power (setPower (fun p => { p with enable := setBit p.enable r false }) (begin s))
    exact ⟨congrArg (·.enable) hp, congrArg (fun t : State => { t with power := s.power }) hrest⟩
  · rw [show sequenced (begin s) r = true from hs]
    decide

end Sys2Proof.Machine
end

section
/-! SUPPORT. The hosts' state through the rows of the sequencer, with O15 assembled from it. -/

namespace Sys2Proof.Machine

/-! ## The hosts and what was sent -/

/-- The hosts' state is the old one but for the LDs' logs, and nothing sent is taken back. -/
def HostKept (s u : State) : Prop := { u.host with lds := s.host.lds } = s.host ∧ ∀ o ∈ s.out, o ∈ u.out

section
variable {s t u : State}

theorem HostKept.refl (s : State) : HostKept s s := ⟨rfl, fun _ h => h⟩

theorem HostKept.trans (hst : HostKept s t) (htu : HostKept t u) : HostKept s u := by
  refine ⟨?_, fun o ho => htu.2 o (hst.2 o ho)⟩
  rw [← hst.1, ← htu.1]

theorem HostKept.from_same (h : HostKept t u) (hh : t.host = s.host) (ho : t.out = s.out) : HostKept s u := by
  obtain ⟨h1, h2⟩ := h
  rw [hh] at h1
  rw [ho] at h2
  exact ⟨h1, h2⟩

theorem HostKept.foldl {α : Type} {f : State → α → State} (hf : ∀ s a, HostKept s (f s a)) (l : List α) (s : State) : HostKept s (l.foldl f s) :=
  List.foldlRecOn (motive := HostKept s) l f (HostKept.refl s) (fun t ht a _ => ht.trans (hf t a))

theorem Heralds.hostKept (h : Heralds s u) : HostKept s u := ⟨h.host, fun _ => h.mem_out⟩

theorem event_hostKept (e : Ev) (s : State) : HostKept s (event e s) := (event_heralds e s).hostKept

theorem send_hostKept (s : State) (o : Out) : HostKept s (send s o) := ⟨rfl, fun _ h => List.mem_append_left _ h⟩

theorem HostKept.creditsHeld (h : HostKept s u) : u.host.creditsHeld = s.host.creditsHeld := congrArg (·.creditsHeld) h.1

theorem HostKept.memoryActive (h : HostKept s u) : u.host.memoryActive = s.host.memoryActive := congrArg (·.memoryActive) h.1

theorem HostKept.reqs (h : HostKept s u) : u.host.reqs = s.host.reqs := congrArg (·.reqs) h.1

end

/-! ## Jobs that end -/

theorem endJob_hostKept (id : BitVec 16) (m : Nat) (s : State) : HostKept s (endJob id m s) := by
  unfold endJob
  split
  · exact .refl s
  · exact (event_hostKept _ _).from_same rfl rfl

theorem endJob_running (id : BitVec 16) (m : Nat) (s : State) : (endJob id m s).unit.running = s.unit.running.filter (fun x => x.id != id) := by
  unfold endJob
  split
  · next h =>
    refine (List.filter_eq_self.2 fun j hj => ?_).symm
    exact bne_iff_ne.2 (fun he => List.find?_eq_none.1 h j hj (beq_iff_eq.2 he))
  · exact congrArg (·.running) (unit_of_keepE (event_keepE _ _))

theorem foldl_endJob_running (m : Nat) (l : List Job) (s : State) : (l.foldl (fun s j => endJob j.id m s) s).unit.running =
    s.unit.running.filter (fun x => l.all (fun j => x.id != j.id)) := by
  induction l generalizing s with
  | nil => exact (List.filter_eq_self.2 (fun _ _ => rfl)).symm
  | cons j l ih =>
    rw [List.foldl_cons, ih, endJob_running, List.filter_filter]
    refine List.filter_congr fun x _ => ?_
    rw [List.all_cons, Bool.and_comm]

theorem endPowerUp_hostKept (m : Nat) (s : State) : HostKept s (endPowerUp m s) :=
  HostKept.foldl (f := fun t (j : Job) => endJob j.id m t) (fun t j => endJob_hostKept j.id m t) _ s

/-- Where only POWER_UP jobs run, their end leaves none. -/
theorem endPowerUp_running {m : Nat} {s : State} (h : ∀ j ∈ s.unit.running, (j.kind == .powerUp) = true) : (endPowerUp m s).unit.running = [] := by
  unfold endPowerUp
  rw [foldl_endJob_running, List.filter_eq_nil_iff]
  intro j hj hall
  have hne := List.all_eq_true.1 hall j (List.mem_filter.2 ⟨hj, h j hj⟩)
  exact bne_iff_ne.1 hne rfl

/-! ## The rails come up -/

theorem trainLink_hostKept (p : Nat) (s : State) : HostKept s (trainLink p s) := by
  unfold trainLink
  dsimp only
  split
  · exact send_hostKept _ _
  · exact .refl s

theorem onDone_hostKept (s : State) : HostKept s (onDone s) := by
  unfold onDone
  extract_lets held t1 t2 start
  have h2 : HostKept s t2 := (endPowerUp_hostKept 0 t1).from_same rfl rfl
  split
  · exact h2
  · exact h2.trans ((HostKept.foldl (fun t p => trainLink_hostKept p t) (List.range 4) _).from_same rfl rfl)

theorem checkOn_hostKept (s : State) : HostKept s (checkOn s) := by
  unfold checkOn
  split
  · exact onDone_hostKept s
  · exact .refl s

/-- A new power cycle: it is counted, and its record and event are written. -/
theorem startLife_heralds (s : State) : ∃ st : StartSt, st.pcycle = s.start.pcycle + 1 ∧ Heralds { s with start := st } (startLife s) := by
  unfold startLife
  extract_lets cs ev last st t t'
  have h : Heralds t t' := by
    simp only [t']
    split
    · exact event_heralds _ t
    · exact .refl t
  exact ⟨t.start, rfl, h.sbEnqueue _⟩

theorem checkOn_pcycle (s : State) : (checkOn s).start.pcycle = s.start.pcycle := by
  unfold checkOn onDone
  split
  · extract_lets held t1 t2 st
    have h2 : t2.start = s.start := (start_of_keepM (endPowerUp_keepM 0 t1)).trans rfl
    split
    · exact congrArg (·.pcycle) h2
    · have h3 := start_of_keepM (List.foldlRecOn (motive := fun t => keepM t = keepM { t2 with start := { t2.start with phase := 3 } })
        (List.range 4) (fun t p => trainLink p t) rfl (fun t ht p _ => (trainLink_keepM p t).trans ht))
      exact (congrArg (·.pcycle) h3).trans (congrArg (·.pcycle) h2)
  · rfl

/-- The start of the rails: the power cycle counted, the inputs as they were. -/
theorem startOn_starts (s : State) : (startOn s).start.pcycle = s.start.pcycle + 1 ∧ (startOn s).power.pfLow = s.power.pfLow ∧
    (startOn s).power.seqIn = s.power.seqIn ∧ ∀ o ∈ s.out, o ∈ (startOn s).out := by
  obtain ⟨st, hst, hlife⟩ := startLife_heralds s
  unfold startOn
  extract_lets t
  have hp : t.power = s.power := (power_of_keepE hlife.keep).trans rfl
  have hs : t.start = st := (start_of_keepE hlife.keep).trans rfl
  obtain ⟨q, v, d, hon⟩ := checkOn_power { setPower (fun p => { p with
      seq := .starting, flagged := 0, offSeen := 0, onHeld := false, restart := false, measured := false, measuring := false
      v1 := none, holdFault := false, chargedClear := 0, setAside := [], flushSets := 0 }) t with therm := { t.therm with tripN := false } }
  have hkept := checkOn_hostKept { setPower (fun p => { p with
      seq := .starting, flagged := 0, offSeen := 0, onHeld := false, restart := false, measured := false, measuring := false
      v1 := none, holdFault := false, chargedClear := 0, setAside := [], flushSets := 0 }) t with therm := { t.therm with tripN := false } }
  refine ⟨?_, ?_, ?_, fun o ho => hkept.2 o (hlife.mem_out ho)⟩
  · rw [checkOn_pcycle]
    exact (congrArg (·.pcycle) hs).trans hst
  · rw [hon]
    exact congrArg (·.pfLow) hp
  · rw [hon]
    exact congrArg (·.seqIn) hp

/-! ## The rails go -/

theorem sendPkt_hostKept (ch op die bank block addr : Nat) (tag : BitVec 7) (arg : Nat) (s : State) :
    HostKept s (sendPkt ch op die bank block addr tag arg s) := send_hostKept _ _

theorem HostKept.ite {s t u : State} {p : Prop} [Decidable p] (ht : HostKept s t) (hu : HostKept s u) : HostKept s (if p then t else u) := by
  split
  · exact ht
  · exact hu

theorem stopChannel_hostKept (ch : Nat) (s : State) : HostKept s (stopChannel ch s) := by
  unfold stopChannel
  extract_lets c t
  have ht : HostKept s t := HostKept.foldl (fun u p => by
    refine HostKept.ite (.refl u) ?_
    have hsusp := HostKept.ite (p := p.phase = .busy) (sendPkt_hostKept ch 0x21 p.die p.bank 0 0 127 0 u) (.refl u)
    exact HostKept.ite hsusp (hsusp.trans (sendPkt_hostKept _ _ _ _ _ _ _ _ _))) _ _
  exact ht.trans ⟨rfl, fun _ h => h⟩

theorem failReadmits_hostKept (s : State) : HostKept s (failReadmits s) :=
  HostKept.foldl (f := fun t (j : Job) => endJob j.id 0x0301 t) (fun t j => endJob_hostKept j.id _ t) _ s

/-- Entering the shutdown path withholds credits and takes no answer back. -/
theorem shutdownPath_host (cause : Nat) (s : State) : (shutdownPath cause s).host.creditsHeld = true ∧ ∀ o ∈ s.out, o ∈ (shutdownPath cause s).out := by
  unfold shutdownPath
  extract_lets evt t1 t2 tt host therm t3 mm t4 unit t5 t6 t7 recs t8
  have h1 : HostKept s t1 := (failReadmits_hostKept _).from_same rfl rfl
  have h6 : HostKept t5 t6 := HostKept.foldl (fun t c => stopChannel_hostKept c t) _ t5
  have h7 : HostKept t6 t7 := event_hostKept _ _
  have h8 : HostKept t7 t8 := HostKept.ite ⟨rfl, fun _ h => h⟩ (.refl t7)
  have h9 : HostKept t8 (wbFlush (sbFirst recs t8)) := ((Heralds.refl t8).sbFirst recs).wbFlush.hostKept
  have h := h6.trans (h7.trans (h8.trans h9))
  exact ⟨h.creditsHeld, fun o ho => h.2 o (h1.2 o ho)⟩

theorem stackDown_hostKept (ch : Nat) (b : Bool) (s : State) : HostKept s (stackDown ch b s) := ⟨rfl, fun _ h => h⟩

theorem stackDown_unit (ch : Nat) (b : Bool) (s : State) : (stackDown ch b s).unit = s.unit := rfl

/-- The main domains go down: the hosts' requests are lost, of the jobs POWER_UP alone runs on. -/
theorem mainDown_host (s : State) : (mainDown s).host.memoryActive = false ∧ (mainDown s).host.reqs = [] ∧ (mainDown s).power = s.power ∧
    (mainDown s).unit.running = s.unit.running.filter (fun j => j.kind == .powerUp) ∧ (∀ o ∈ s.out, o ∈ (mainDown s).out) := by
  unfold mainDown
  extract_lets t own t'
  have hk : keepM t' = keepM t := List.foldlRecOn (motive := fun u : State => keepM u = keepM t) _ _ rfl (fun u hu c _ => (stackDown_keepM c false u).trans hu)
  have hrun : t'.unit = t.unit := List.foldlRecOn (motive := fun u : State => u.unit = t.unit) _ _ rfl (fun u hu c _ => (stackDown_unit c false u).trans hu)
  have hh : HostKept t t' := HostKept.foldl (fun u c => stackDown_hostKept c false u) _ t
  have hp : t'.power = t.power := power_of_keepM hk
  exact ⟨rfl, rfl, hp, congrArg (·.running) hrun, hh.2⟩

/-- What taking the rails off leaves. -/
theorem offTable_facts (s : State) : (∃ q, (q = .railsOff ∨ q = .minOff) ∧
      (offTable s).power = { s.power with seq := q, offSeen := 0, seqOut := false }) ∧
    (offTable s).host.memoryActive = false ∧ (offTable s).host.reqs = [] ∧
    (offTable s).unit.running = s.unit.running.filter (fun j => j.kind == .powerUp) ∧ (∀ o ∈ s.out, o ∈ (offTable s).out) := by
  obtain ⟨hmem, hreqs, hpow, hrun, hout⟩ := mainDown_host s
  unfold offTable checkOff
  generalize mainDown s = t at hmem hreqs hpow hrun hout
  split
  · exact ⟨⟨.minOff, .inr rfl, congrArg (fun p : PowerSt => { p with seq := .minOff, offSeen := 0, seqOut := false }) hpow⟩, hmem, hreqs, hrun, hout⟩
  · exact ⟨⟨.railsOff, .inl rfl, congrArg (fun p : PowerSt => { p with seq := .railsOff, offSeen := 0, seqOut := false }) hpow⟩, hmem, hreqs, hrun, hout⟩

/-- Taking the rails off with no flush, for a cause. -/
theorem quietOff_facts (cause : Nat) (s : State) : (∃ q, (q = .railsOff ∨ q = .minOff) ∧
      (quietOff cause s).power = { s.power with cause := BitVec.ofNat 3 cause, seq := q, offSeen := 0, seqOut := false }) ∧
    (quietOff cause s).host.memoryActive = false ∧ (quietOff cause s).host.reqs = [] ∧
    (∀ j ∈ (quietOff cause s).unit.running, (j.kind == .powerUp) = true) ∧ (∀ o ∈ s.out, o ∈ (quietOff cause s).out) := by
  unfold quietOff
  extract_lets t
  have hsb : Heralds t (sbEnqueue t (.ring 0x65 0 (railPayload t))) := (Heralds.refl t).sbEnqueue _
  obtain ⟨⟨q, hq, hp⟩, hmem, hreqs, hrun, hout⟩ := offTable_facts (sbEnqueue t (.ring 0x65 0 (railPayload t)))
  refine ⟨⟨q, hq, ?_⟩, hmem, hreqs, fun j hj => ?_, fun o ho => hout o (hsb.mem_out ho)⟩
  · rw [hp, power_of_keepE hsb.keep]
    rfl
  · rw [hrun] at hj
    exact (List.mem_filter.1 hj).2

/-! ## A cause to stop, and a request to start -/

section
variable {s : State}

/-- The rails are going off, or down. -/
def Leaving (q : SeqState) : Prop := q = .shuttingDown ∨ q = .railsOff ∨ q = .minOff

theorem powerOff_on (cause : Nat) (h : s.power.seq = .on) : powerOff cause s = shutdownPath cause s := by
  unfold powerOff
  rw [h]

theorem powerOff_off (cause : Nat) (h : s.power.seq = .off) : powerOff cause s = s := by
  unfold powerOff
  rw [h]

theorem powerOff_leaving (cause : Nat) (h : Leaving s.power.seq) : powerOff cause s = secondCause cause s := by
  unfold powerOff
  obtain h | h | h := h <;> rw [h]

/-- From On a cause enters the shutdown path. -/
theorem powerOff_shuts {cause : Nat} (hc : cause < 8) (h : s.power.seq = .on) : (powerOff cause s).power.seq = .shuttingDown ∧
    (powerOff cause s).power.cause.toNat = cause ∧ (powerOff cause s).host.creditsHeld = true ∧ (powerOff cause s).power.pfLow = s.power.pfLow ∧
    (powerOff cause s).power.seqIn = s.power.seqIn ∧ ∀ o ∈ s.out, o ∈ (powerOff cause s).out := by
  obtain ⟨a, b, c, d, e, hp⟩ := shutdownPath_power cause s
  obtain ⟨hheld, hout⟩ := shutdownPath_host cause s
  rw [powerOff_on cause h, hp]
  exact ⟨rfl, Nat.mod_eq_of_lt hc, hheld, rfl, rfl, hout⟩

/-- From Starting and Held a cause takes the rails off at once. -/
theorem powerOff_quiet {cause : Nat} (hc : cause < 8) (h : s.power.seq = .held ∨ s.power.seq = .starting) :
    ((((powerOff cause s).power.seq = .railsOff ∨ (powerOff cause s).power.seq = .minOff) ∧ (powerOff cause s).host.memoryActive = false ∧
      (powerOff cause s).host.reqs = []) ∧ (powerOff cause s).power.cause.toNat = cause ∧
      (s.power.seq = .starting → (powerOff cause s).unit.running = [])) ∧ (powerOff cause s).power.pfLow = s.power.pfLow ∧
    (powerOff cause s).power.seqIn = s.power.seqIn ∧ ∀ o ∈ s.out, o ∈ (powerOff cause s).out := by
  obtain ⟨⟨q, hq, hp⟩, hmem, hreqs, hrun, hout⟩ := quietOff_facts cause s
  obtain h | h := h
  · have hoff : powerOff cause s = quietOff cause s := by
      unfold powerOff
      rw [h]
    rw [hoff, hp]
    refine ⟨⟨⟨hq, hmem, hreqs⟩, Nat.mod_eq_of_lt hc, fun hs => ?_⟩, rfl, rfl, hout⟩
    rw [h] at hs
    exact SeqState.noConfusion hs
  · have hoff : powerOff cause s = endPowerUp 0x0101 (quietOff cause s) := by
      unfold powerOff
      rw [h]
    have hkept := endPowerUp_hostKept 0x0101 (quietOff cause s)
    rw [hoff, endPowerUp_power, hp, hkept.memoryActive, hkept.reqs]
    exact ⟨⟨⟨hq, hmem, hreqs⟩, Nat.mod_eq_of_lt hc, fun _ => endPowerUp_running hrun⟩, rfl, rfl, fun o ho => hkept.2 o (hout o ho)⟩

theorem powerOn_off (h : s.power.seq = .off) : powerOn s = startOn s := by
  unfold powerOn
  rw [h]

theorem powerOn_leaving (h : Leaving s.power.seq) : powerOn s = setPower (fun p => { p with onHeld := true }) s := by
  unfold powerOn
  obtain h | h | h := h <;> rw [h]

theorem powerOn_up (h : s.power.seq = .starting ∨ s.power.seq = .on) : powerOn s = s := by
  unfold powerOn
  obtain h | h := h <;> rw [h]

theorem powerOn_held (h : s.power.seq = .held) : powerOn s = offTable (setPower (fun p => { p with onHeld := true }) s) := by
  unfold powerOn
  rw [h]

/-! ## The commands POWER_DOWN and POWER_UP -/

variable {c : Caller} {inp : List Byte}

theorem powerDown_stops (h : Heard c inp s false true false false 0) (hs : s.power.seq = .on ∨ s.power.seq = .held ∨ s.power.seq = .starting) :
    exec (.powerDown c inp) s = ran (powerOff 3 (send (begin s) (.vendor c .success (reply 0 0 [])))) := by
  have hexec : exec (.powerDown c inp) s = execPowerDown c inp s := by unfold exec; rfl
  unfold execPowerDown at hexec
  refine hexec.trans ((onVendor_heard h (fun _ hf => absurd hf List.not_mem_nil) rfl (chk_passes ?_ _)).trans ?_)
  · have hb : (begin s).power.seq = s.power.seq := rfl
    rw [hb]
    obtain hs | hs | hs := hs <;> rw [hs] <;> exact Bool.false_ne_true
  · refine congrArg ran ((if_pos (Nat.zero_le 1)).trans ?_)
    exact congrArg (fun p => powerOff 3 (send (begin s) (.vendor c .success p))) (vPayload_of_out_nil rfl rfl)

theorem powerDown_refused (h : Heard c inp s false true false false 0) (hs : s.power.seq = .off ∨ Leaving s.power.seq) :
    Ends (.powerDown c inp) s (Replies c s (reply 0x0101 0 (powerOut s))) := by
  have hexec : exec (.powerDown c inp) s = execPowerDown c inp s := by unfold exec; rfl
  unfold execPowerDown at hexec
  refine ends_refused (.powerDown c inp) (vState (powerOut s)) hexec h (fun _ hf => absurd hf List.not_mem_nil) ?_ (by decide : 1 < 0x0101)
  have hb : (begin s).power.seq = s.power.seq := rfl
  rw [hb]
  obtain hs | hs | hs | hs := hs <;> rw [hs] <;> rfl

theorem powerUp_refused (h : Heard c inp s false true false false 0) (hs : s.power.seq = .on ∨ s.power.seq = .starting) :
    Ends (.powerUp c inp) s (Replies c s (reply 0x0101 0 (powerOut s))) := by
  have hexec : exec (.powerUp c inp) s = execPowerUp c inp s := by unfold exec; rfl
  unfold execPowerUp at hexec
  refine ends_refused (.powerUp c inp) (vState (powerOut s)) hexec h (fun _ hf => absurd hf List.not_mem_nil) ?_ (by decide : 1 < 0x0101)
  have hb : (begin s).power.seq = s.power.seq := rfl
  rw [hb]
  obtain hs | hs := hs <;> rw [hs] <;> rfl

/-- A POWER_UP that is heard while the sequencer can take it runs. -/
theorem powerUp_heard (h : Heard c inp s false true false false 0) (hon : s.power.seq ≠ .on) (hst : s.power.seq ≠ .starting) {a : VAns} {t : State}
    (hact : vStart 0xC503 c .powerUp (begin s) = (a, t)) (ho : a.out = []) : exec (.powerUp c inp) s =
      ran (if a.mstat ≤ 1 then powerOn (send t (.vendor c .success (reply a.mstat a.job []))) else send t (.vendor c .success (reply a.mstat a.job []))) := by
  have hexec : exec (.powerUp c inp) s = execPowerUp c inp s := by unfold exec; rfl
  unfold execPowerUp at hexec
  refine hexec.trans ((onVendor_heard h (fun _ hf => absurd hf List.not_mem_nil) rfl (chk_passes ?_ _)).trans ?_)
  · have hb : (begin s).power.seq = s.power.seq := rfl
    rw [hb]
    cases hq : s.power.seq with
    | on => exact absurd hq hon
    | starting => exact absurd hq hst
    | _ => exact Bool.false_ne_true
  · rw [hact]
    dsimp only
    rw [vPayload_of_out_nil rfl ho]

theorem powerUp_full (h : Heard c inp s false true false false 0) (hon : s.power.seq ≠ .on) (hst : s.power.seq ≠ .starting)
    (hfull : 64 ≤ s.unit.running.length) : Ends (.powerUp c inp) s (Replies c s (reply 0x0102 0 [])) := by
  refine ends_of_ran ((powerUp_heard h hon hst (a := vBusy 0) (t := begin s) (if_pos hfull) rfl).trans (congrArg ran (if_neg (by decide)))) ?_
  rfl

/-- The job POWER_UP starts, and its answer. -/
def powerUpJob (c : Caller) (s : State) : State :=
  send (startJob 0xC503 c .powerUp (begin s)).2 (.vendor c .success (reply 1 s.unit.nextJob.toNat []))

theorem powerUpJob_facts (c : Caller) (s : State) : (powerUpJob c s).power = s.power ∧ (powerUpJob c s).start = s.start ∧
    .vendor c .success (reply 1 s.unit.nextJob.toNat []) ∈ (powerUpJob c s).out := ⟨rfl, rfl, mem_send _ _⟩

theorem powerUp_runs (h : Heard c inp s false true false false 0) (hon : s.power.seq ≠ .on) (hst : s.power.seq ≠ .starting)
    (hroom : s.unit.running.length < 64) : exec (.powerUp c inp) s = ran (powerOn (powerUpJob c s)) :=
  (powerUp_heard h hon hst (if_neg (Nat.not_le.2 hroom)) rfl).trans (congrArg ran (if_pos (Nat.le_refl 1)))

theorem powerUp_off (h : Heard c inp s false true false false 0) (hroom : s.unit.running.length < 64) (hs : s.power.seq = .off) :
    Ends (.powerUp c inp) s (fun u => u.start.pcycle = s.start.pcycle + 1 ∧ .vendor c .success (reply 1 s.unit.nextJob.toNat []) ∈ u.out) := by
  obtain ⟨hp, hst, hout⟩ := powerUpJob_facts c s
  refine ends_of_ran (powerUp_runs h (by rw [hs]; decide) (by rw [hs]; decide) hroom) ?_
  rw [powerOn_off ((congrArg (·.seq) hp).trans hs)]
  obtain ⟨hcycle, -, -, hgrow⟩ := startOn_starts (powerUpJob c s)
  exact ⟨hcycle, hgrow _ hout⟩

theorem powerUp_leaving (h : Heard c inp s false true false false 0) (hroom : s.unit.running.length < 64) (hs : Leaving s.power.seq) :
    Ends (.powerUp c inp) s (fun u => u.power = { s.power with onHeld := true } ∧ .vendor c .success (reply 1 s.unit.nextJob.toNat []) ∈ u.out) := by
  obtain ⟨hp, hst, hout⟩ := powerUpJob_facts c s
  have hne : s.power.seq ≠ .on ∧ s.power.seq ≠ .starting := by
    obtain hs | hs | hs := hs <;> rw [hs] <;> decide
  refine ends_of_ran (powerUp_runs h hne.1 hne.2 hroom) ?_
  rw [powerOn_leaving (by rw [hp]; exact hs)]
  exact ⟨rfl, hout⟩

theorem powerUp_held (h : Heard c inp s false true false false 0) (hroom : s.unit.running.length < 64) (hs : s.power.seq = .held) :
    Ends (.powerUp c inp) s (fun u => ((u.power.seq = .railsOff ∨ u.power.seq = .minOff) ∧ u.host.memoryActive = false ∧ u.host.reqs = []) ∧
      u.power.onHeld = true ∧ .vendor c .success (reply 1 s.unit.nextJob.toNat []) ∈ u.out) := by
  obtain ⟨hp, hst, hout⟩ := powerUpJob_facts c s
  refine ends_of_ran (powerUp_runs h (by rw [hs]; decide) (by rw [hs]; decide) hroom) ?_
  rw [powerOn_held ((congrArg (·.seq) hp).trans hs)]
  obtain ⟨⟨q, hq, hpow⟩, hmem, hreqs, -, hgrow⟩ := offTable_facts (setPower (fun p => { p with onHeld := true }) (powerUpJob c s))
  rw [hpow]
  exact ⟨⟨hq, hmem, hreqs⟩, rfl, hgrow _ hout⟩

/-! ## The inputs PF_N and SEQ_IN -/

theorem recorded_secondCause {cause : Nat} {v : State} {P : State → Prop} (hc : cause ≠ 2) (hP : P v) :
    Recorded { code := 0x0503, p0 := cause, p1 := 1 } (secondCause cause v) P := by
  refine ⟨v, ?_, hP⟩
  unfold secondCause
  rw [if_neg hc]

theorem pfNAssert_exec (h : s.power.seq ≠ .minOff) : exec .pfNAssert s = ran (powerOff 1 (setPower (fun p => { p with pfLow := true }) (begin s))) := by
  have hexec : exec .pfNAssert s = execPfNAssert s := rfl
  rw [hexec]
  unfold execPfNAssert
  dsimp only [setPower_power, begin_power]
  split
  · next hq => exact absurd hq h
  · rfl

theorem pfNAssert_minOff (h : s.power.seq = .minOff) : exec .pfNAssert s = ran (setPower (fun p => { p with pfLow := true }) (begin s)) := by
  have hexec : exec .pfNAssert s = execPfNAssert s := rfl
  rw [hexec]
  unfold execPfNAssert
  dsimp only [setPower_power, begin_power]
  rw [h]

theorem seqInLow_exec (h : s.power.cascade = true) : exec .seqInLow s = ran (powerOff 4 (setPower (fun p => { p with seqIn := false }) (begin s))) := by
  have hexec : exec .seqInLow s = execSeqInLow s := rfl
  exact hexec.trans (congrArg ran (if_pos h))

theorem seqInHigh_exec (hc : s.power.cascade = true) (hu : s.start.sillUp = true) (hh : s.power.seq ≠ .held) :
    exec .seqInHigh s = ran (powerOn (setPower (fun p => { p with seqIn := true }) (begin s))) := by
  have hexec : exec .seqInHigh s = execSeqInHigh s := rfl
  exact hexec.trans (congrArg ran (if_pos ⟨hc, hu, hh⟩))

theorem pfNRelease_exec (hup : s.start.sillUp = true) (hph : s.start.phase ≠ 1) : exec .pfNRelease s =
    let t := setPower (fun p => { p with pfLow := false }) (begin s)
    match s.power.seq with
    | .off => ran (if (s.power.cause ≠ 2 ∧ s.power.cause ≠ 3 ∨ s.power.onHeld = true) ∧ ((!s.power.cascade) = true ∨ s.power.seqIn = true)
        then startOn t else t)
    | .starting => ran t
    | .on => ran t
    | .held => ran t
    | _ => ran (if s.power.cause = 1 then powerOn t else t) := by
  have hexec : exec .pfNRelease s = execPfNRelease s := rfl
  have hgo : ¬ ((!(begin s).start.sillUp) = true ∨ (begin s).start.phase = 1) := by
    rintro (hu | hp)
    · have hu' : (!s.start.sillUp) = true := hu
      rw [hup] at hu'
      exact Bool.false_ne_true hu'
    · exact hph hp
  exact hexec.trans (if_neg hgo)

theorem pfNRelease_down (h : s.start.sillUp = false ∨ s.start.phase = 1) :
    exec .pfNRelease s = ran (setPower (fun p => { p with pfLow := false }) (begin s)) := by
  have hexec : exec .pfNRelease s = execPfNRelease s := rfl
  have hstay : (!(begin s).start.sillUp) = true ∨ (begin s).start.phase = 1 :=
    h.imp (fun hu => (congrArg (!·) hu).trans rfl) id
  exact hexec.trans (if_pos hstay)

/-- A raised PF_N starts nothing where nothing waits for it. -/
theorem pfNRelease_only (h : s.start.sillUp = false ∨ s.start.phase = 1 ∨ s.power.seq = .starting ∨ s.power.seq = .on ∨ s.power.seq = .held ∨
      s.power.seq = .off ∧ ¬ ((s.power.cause ≠ 2 ∧ s.power.cause ≠ 3 ∨ s.power.onHeld = true) ∧ (s.power.cascade = true → s.power.seqIn = true)) ∨
      Leaving s.power.seq ∧ s.power.cause ≠ 1) :
    exec .pfNRelease s = ran (setPower (fun p => { p with pfLow := false }) (begin s)) := by
  by_cases hdown : s.start.sillUp = false ∨ s.start.phase = 1
  · exact pfNRelease_down hdown
  · rw [not_or, Bool.not_eq_false] at hdown
    obtain ⟨hup, hph⟩ := hdown
    have hexec := pfNRelease_exec hup hph
    obtain h | h | h | h | h | ⟨h, hmay⟩ | ⟨h, hc⟩ := h
    · exact absurd (hup.symm.trans h) (by decide)
    · exact absurd h hph
    · rw [h] at hexec
      exact hexec
    · rw [h] at hexec
      exact hexec
    · rw [h] at hexec
      exact hexec
    · rw [h] at hexec
      refine hexec.trans (congrArg ran (if_neg fun hm => hmay ⟨hm.1, fun hc => ?_⟩))
      exact hm.2.resolve_left (by rw [hc]; decide)
    · obtain h | h | h := h <;> rw [h] at hexec <;> exact hexec.trans (congrArg ran (if_neg hc))

theorem pfNRelease_starts (hup : s.start.sillUp = true) (hph : s.start.phase ≠ 1) (hs : s.power.seq = .off)
    (hmay : (s.power.cause ≠ 2 ∧ s.power.cause ≠ 3 ∨ s.power.onHeld = true) ∧ (s.power.cascade = true → s.power.seqIn = true)) :
    Ends .pfNRelease s (fun u => u.start.pcycle = s.start.pcycle + 1 ∧ u.power.pfLow = false) := by
  have hexec := pfNRelease_exec hup hph
  rw [hs] at hexec
  have hin : (!s.power.cascade) = true ∨ s.power.seqIn = true := by
    cases hc : s.power.cascade with
    | false => exact .inl rfl
    | true => exact .inr (hmay.2 hc)
  obtain ⟨hcycle, hlow, -, -⟩ := startOn_starts (setPower (fun p => { p with pfLow := false }) (begin s))
  exact ends_of_ran (hexec.trans (congrArg ran (if_pos ⟨hmay.1, hin⟩))) ⟨hcycle, hlow⟩

theorem pfNRelease_kept (hup : s.start.sillUp = true) (hph : s.start.phase ≠ 1) (hs : Leaving s.power.seq) (hc : s.power.cause = 1) :
    exec .pfNRelease s = ran { begin s with power := { s.power with pfLow := false, onHeld := true } } := by
  have hexec := pfNRelease_exec hup hph
  have hon := powerOn_leaving (s := setPower (fun p => { p with pfLow := false }) (begin s)) hs
  obtain hs | hs | hs := hs <;> rw [hs] at hexec <;> exact hexec.trans (congrArg ran ((if_pos hc).trans hon))

end

/-- Settles O15: every input of the sequencer comes down to a cause to stop, a request to start, or a noted input. -/
theorem powerRequestsStartOrShutDown : Obligations.PowerRequestsStartOrShutDown := by
  intro s only starts shuts railsGo offNow again leaving may
  have hlow (v : Bool) : (setPower (fun p => { p with pfLow := v }) (begin s)).power.seq = s.power.seq := rfl
  refine ⟨fun c inp h => ⟨fun hs => ?_, fun hs => ?_, powerDown_refused h, powerUp_refused h, powerUp_full h, fun hroom =>
      ⟨powerUp_off h hroom, powerUp_leaving h hroom, powerUp_held h hroom⟩⟩,
    ⟨fun hs => ?_, fun hs => ?_, fun hs => ?_, fun hs => ?_⟩,
    ⟨fun hup hph => ⟨pfNRelease_starts hup hph, fun hs hc => ends_of_ran (pfNRelease_kept hup hph hs hc) rfl⟩, fun h => ends_of_ran (pfNRelease_only h) rfl⟩,
    ⟨fun hc hup => ⟨fun hs => ?_, fun hs => ?_⟩, fun h => ?_⟩, fun hc => ⟨fun hs => ?_, fun hs => ?_, fun hs => ?_⟩, fun h => ?_⟩
  · obtain ⟨hseq, hcause, hheld, -, -, hout⟩ := powerOff_shuts (cause := 3) (s := send (begin s) (.vendor c .success (reply 0 0 []))) (by decide) hs
    exact ends_of_ran (powerDown_stops h (.inl hs)) ⟨⟨hseq, hcause, hheld⟩, hout _ (mem_send _ _)⟩
  · obtain ⟨hoff, -, -, hout⟩ := powerOff_quiet (cause := 3) (s := send (begin s) (.vendor c .success (reply 0 0 []))) (by decide) hs
    exact ends_of_ran (powerDown_stops h (.inr hs)) ⟨hoff, hout _ (mem_send _ _)⟩
  · obtain ⟨hseq, hcause, hheld, hpf, -, -⟩ := powerOff_shuts (cause := 1) (s := setPower (fun p => { p with pfLow := true }) (begin s)) (by decide) hs
    exact ends_of_ran (pfNAssert_exec (by rw [hs]; decide)) ⟨⟨hseq, hcause, hheld⟩, hpf⟩
  · obtain ⟨hoff, hpf, -, -⟩ := powerOff_quiet (cause := 1) (s := setPower (fun p => { p with pfLow := true }) (begin s)) (by decide) hs
    exact ends_of_ran (pfNAssert_exec (by obtain h | h := hs <;> rw [h] <;> decide)) ⟨hoff, hpf⟩
  · obtain hs | hs := hs
    · refine ends_of_ran (pfNAssert_exec (by rw [hs]; decide)) ?_
      rw [powerOff_off 1 ((hlow true).trans hs)]
      rfl
    · exact ends_of_ran (pfNAssert_minOff hs) rfl
  · have hl : Leaving s.power.seq := hs.imp_right .inl
    refine ends_of_ran (pfNAssert_exec (by obtain h | h := hs <;> rw [h] <;> decide)) ?_
    rw [powerOff_leaving 1 (s := setPower (fun p => { p with pfLow := true }) (begin s)) hl]
    exact recorded_secondCause (by decide) rfl
  · obtain ⟨hcycle, -, hin, -⟩ := startOn_starts (setPower (fun p => { p with seqIn := true }) (begin s))
    refine ends_of_ran (seqInHigh_exec hc hup (by rw [hs]; decide)) ?_
    rw [powerOn_off (s := setPower (fun p => { p with seqIn := true }) (begin s)) hs]
    exact ⟨hcycle, hin⟩
  · refine ends_of_ran (seqInHigh_exec hc hup (by obtain h | h | h := hs <;> rw [h] <;> decide)) ?_
    rw [powerOn_leaving (s := setPower (fun p => { p with seqIn := true }) (begin s)) hs]
    rfl
  · have hexec : exec .seqInHigh s = execSeqInHigh s := rfl
    by_cases hgo : s.power.cascade = true ∧ s.start.sillUp = true ∧ s.power.seq ≠ .held
    · have hup : s.power.seq = .starting ∨ s.power.seq = .on := by
        obtain ⟨hc, hu, hh⟩ := hgo
        obtain h | h | h | h | h := h
        · exact absurd (hc.symm.trans h) (by decide)
        · exact absurd (hu.symm.trans h) (by decide)
        · exact .inl h
        · exact .inr h
        · exact absurd h hh
      refine ends_of_ran (seqInHigh_exec hgo.1 hgo.2.1 hgo.2.2) ?_
      rw [powerOn_up (s := setPower (fun p => { p with seqIn := true }) (begin s)) hup]
      rfl
    · exact ends_of_ran (hexec.trans (congrArg ran (if_neg hgo))) rfl
  · obtain ⟨hseq, hcause, hheld, -, hin, -⟩ := powerOff_shuts (cause := 4) (s := setPower (fun p => { p with seqIn := false }) (begin s)) (by decide) hs
    exact ends_of_ran (seqInLow_exec hc) ⟨⟨hseq, hcause, hheld⟩, hin⟩
  · obtain ⟨hoff, -, hin, -⟩ := powerOff_quiet (cause := 4) (s := setPower (fun p => { p with seqIn := false }) (begin s)) (by decide) hs
    exact ends_of_ran (seqInLow_exec hc) ⟨hoff, hin⟩
  · refine ends_of_ran (seqInLow_exec hc) ?_
    rw [powerOff_leaving 4 (s := setPower (fun p => { p with seqIn := false }) (begin s)) hs]
    exact recorded_secondCause (by decide) rfl
  · have hexec : exec .seqInLow s = execSeqInLow s := rfl
    by_cases hc : s.power.cascade = true
    · have hs : s.power.seq = .off := h.resolve_left (by rw [hc]; decide)
      refine ends_of_ran (seqInLow_exec hc) ?_
      rw [powerOff_off 4 (s := setPower (fun p => { p with seqIn := false }) (begin s)) hs]
      rfl
    · exact ends_of_ran (hexec.trans (congrArg ran (if_neg hc))) rfl

end Sys2Proof.Machine
end

section
/-! SUPPORT. The hold-up bank and the steps of the flush, with O16 assembled from them. -/

namespace Sys2Proof.Machine

section
variable {s : State}

/-- A measurement of the bank that is spoiled, and every fault the monitor finds. -/
def BankFault (u : State) : Prop :=
  ∃ v : State, v.power.holdFault = true ∧ v.power.measuring = false ∧ v.write.budget = 0 ∧ v.write.through = true ∧
    u = updLoad ((dirtyLlns v).foldl (fun t l => drainLine l true t) v)

theorem holdupFault_faults (s : State) : BankFault (holdupFault s) ∧ (holdupFault s).power.e = s.power.e := by
  unfold holdupFault
  extract_lets t1 t2 wr ca ho t3
  have h2 : t2.power = t1.power := power_of_keepE (event_keepE _ t1)
  have hdrained : keepM ((dirtyLlns t3).foldl (fun t l => drainLine l true t) t3) = keepM t3 :=
    List.foldlRecOn (motive := fun t : State => keepM t = keepM t3) _ _ rfl (fun t ht l _ => (drainLine_keepM l true t).trans ht)
  have hp := (power_of_keepM (updLoad_keepM _)).trans (power_of_keepM hdrained)
  refine ⟨⟨t3, ?_, ?_, rfl, rfl, rfl⟩, (congrArg (·.e) hp).trans (congrArg (·.e) h2)⟩
  · exact congrArg (·.holdFault) h2
  · exact congrArg (·.measuring) h2

theorem bankCharged_steps {v m : BitVec 16} {e : Byte} (hm : s.power.measuring = true) (h1 : s.power.v1 = none) :
    Ends (.bankCharged v m e) s (fun u =>
      u = { begin s with power := { s.power with v1 := some v, vmin := m, eff := e }, out := [.holdupStep 10] }) := by
  have hgo : ¬ ((!(begin s).power.measuring) = true ∨ (begin s).power.v1.isSome = true) := by
    change ¬ ((!s.power.measuring) = true ∨ s.power.v1.isSome = true)
    rw [hm, h1]
    decide
  have hexec : exec (.bankCharged v m e) s = execBankCharged v m e s := rfl
  exact ends_of_ran (hexec.trans (if_neg hgo)) rfl

/-- The energy of a measurement (R557), from the bank's two voltages and the charge drawn between them. -/
def bankEnergy (s : State) (v1 v2 : BitVec 16) (dq : Word) : Nat :=
  s.power.eff.toNat * dq.toNat * (v1.toNat * v1.toNat - s.power.vmin.toNat * s.power.vmin.toNat) / (200 * (v1.toNat - v2.toNat) * 1000000)

theorem satAdd_zero_toNat {w : Nat} (n : Nat) : (satAdd (0 : BitVec w) n).toNat = min (2 ^ w - 1) n := by
  unfold satAdd
  have hpos := Nat.two_pow_pos w
  have hzero : (0 : BitVec w).toNat = 0 := BitVec.toNat_zero
  rw [BitVec.toNat_ofNat, hzero, Nat.zero_add, Nat.min_comm, Nat.mod_eq_of_lt (by omega)]

theorem holdupStepDone_measures {v2 v1 : BitVec 16} {dq : Word} (hm : s.power.measuring = true) (h1 : s.power.v1 = some v1)
    (hlo : s.power.vmin.toNat < v1.toNat) (hd : v2.toNat + 10 ≤ v1.toNat) :
    Ends (.holdupStepDone v2 dq false) s (fun u => u.power.measured = true ∧ u.power.measuring = false ∧ u.power.v1 = none ∧
      u.power.e.toNat = min (2 ^ 32 - 1) (s.power.eff.toNat * dq.toNat * (v1.toNat ^ 2 - s.power.vmin.toNat ^ 2) / (200 * (v1.toNat - v2.toNat) * 1000000)) ∧
      { u with power := s.power, cache := s.cache } = begin s) := by
  have hexec : exec (.holdupStepDone v2 dq false) s = execHoldupStepDone v2 dq false s := rfl
  unfold execHoldupStepDone at hexec
  have hm' : (begin s).power.measuring = true := hm
  have h1' : (begin s).power.v1 = some v1 := h1
  have hgo : ¬ (false = true ∨ v1.toNat ≤ (begin s).power.vmin.toNat ∨ v1.toNat - v2.toNat < 10) := by
    change ¬ (false = true ∨ v1.toNat ≤ s.power.vmin.toNat ∨ v1.toNat - v2.toNat < 10)
    rintro (h | h | h)
    · exact Bool.false_ne_true h
    · omega
    · omega
  dsimp only at hexec
  rw [hm', if_pos rfl, h1'] at hexec
  have hran := hexec.trans (if_neg hgo)
  refine ends_of_ran hran ⟨rfl, rfl, rfl, ?_, rfl⟩
  rw [pow_two, pow_two]
  exact satAdd_zero_toNat (bankEnergy s v1 v2 dq)

/-- A spoiled measurement puts the energy to 0 and the device into write-through. -/
theorem spoiled_faults (s : State) : BankFault (holdupFault (setPower (fun p => { p with e := 0 }) (begin s))) ∧
    (holdupFault (setPower (fun p => { p with e := 0 }) (begin s))).power.e = 0 :=
  holdupFault_faults (setPower (fun p => { p with e := 0 }) (begin s))

theorem holdupStepDone_spoiled {v2 v1 : BitVec 16} {dq : Word} (hm : s.power.measuring = true) (h1 : s.power.v1 = some v1) :
    Works (.holdupStepDone v2 dq true) s (fun u => BankFault u ∧ u.power.e = 0) := by
  have hexec : exec (.holdupStepDone v2 dq true) s = execHoldupStepDone v2 dq true s := rfl
  unfold execHoldupStepDone at hexec
  have hm' : (begin s).power.measuring = true := hm
  have h1' : (begin s).power.v1 = some v1 := h1
  dsimp only at hexec
  rw [hm', if_pos rfl, h1'] at hexec
  exact ⟨_, hexec.trans (if_pos (.inl rfl)), spoiled_faults s⟩

theorem holdupMeasureTimeout_faults (hm : s.power.measuring = true) : Works .holdupMeasureTimeout s (fun u => BankFault u ∧ u.power.e = 0) := by
  have hgo : ¬ (!(begin s).power.measuring) = true := by
    change ¬ (!s.power.measuring) = true
    rw [hm]
    decide
  have hexec : exec .holdupMeasureTimeout s = execHoldupMeasureTimeout s := rfl
  exact ⟨_, hexec.trans (if_neg hgo), spoiled_faults s⟩

theorem holdupMonitor_watches (hseq : s.power.seq = .on) (hm : s.power.measured = true) (hf : s.power.holdFault = false) :
    ¬ ((begin s).power.seq ≠ .on ∨ (!(begin s).power.measured) = true ∨ (begin s).power.holdFault = true) := by
  change ¬ (s.power.seq ≠ .on ∨ (!s.power.measured) = true ∨ s.power.holdFault = true)
  rw [hseq, hm, hf]
  decide

theorem holdupMonitor_silent (hseq : s.power.seq = .on) (hm : s.power.measured = true) (hf : s.power.holdFault = false) :
    Works (.holdupMonitor none) s BankFault := by
  have hexec : exec (.holdupMonitor none) s = execHoldupMonitor none s := rfl
  exact ⟨_, hexec.trans (if_neg (holdupMonitor_watches hseq hm hf)), (holdupFault_faults (begin s)).1⟩

theorem holdupMonitor_charged {a : HoldupStatus} (hseq : s.power.seq = .on) (hm : s.power.measured = true) (hf : s.power.holdFault = false)
    (harm : isArmed s 0x0014 0 = false) (hcharged : a.status.getLsbD 1 = true) (hok : a.status.getLsbD 2 = false)
    (hmj : reserveMj s + 1500 * s.write.budget.toNat ≤ bankMj s a.vbank.toNat) :
    Ends (.holdupMonitor (some a)) s (fun u => u = { begin s with power := { s.power with chargedClear := 0 } }) := by
  have hexec : exec (.holdupMonitor (some a)) s = execHoldupMonitor (some a) s := rfl
  unfold execHoldupMonitor at hexec
  have harm' : isArmed (begin s) 0x0014 0 = false := harm
  have hgo : ¬ (false = true ∨ false = true ∨ 10 ≤ 0 ∨ bankMj (setPower (fun p => { p with chargedClear := 0 }) (begin s)) a.vbank.toNat <
      reserveMj (setPower (fun p => { p with chargedClear := 0 }) (begin s)) +
        1500 * (setPower (fun p => { p with chargedClear := 0 }) (begin s)).write.budget.toNat) := by
    rintro (h | h | h | h)
    · exact Bool.false_ne_true h
    · exact Bool.false_ne_true h
    · omega
    · exact absurd hmj (Nat.not_le.2 h)
  dsimp only at hexec
  rw [if_neg (holdupMonitor_watches hseq hm hf), harm', hcharged, hok] at hexec
  exact ends_of_ran (hexec.trans (if_neg hgo)) rfl

/-- The requests that hold the flush's first step up: all but Strict writes that wait for their acknowledgements. -/
theorem any_not_strict {reqs : List Req} :
    reqs.any (fun r => match r.wait with | .strict _ => false | _ => true) = true ↔ ∃ r ∈ reqs, ∀ n, r.wait ≠ .strict n := by
  rw [List.any_eq_true]
  refine exists_congr fun r => and_congr_right fun _ => ?_
  cases r.wait with
  | strict n => exact ⟨fun h => absurd h Bool.false_ne_true, fun h => absurd rfl (h n)⟩
  | _ => exact ⟨fun _ _ h => ReqWait.noConfusion h, fun _ => rfl⟩

theorem flushStepEnd_waits {us : BitVec 24} (h1 : s.power.flushStep = 1) (hr : ∃ r ∈ s.host.reqs, ∀ n, r.wait ≠ .strict n) :
    exec (.flushStepEnd us) s = ran (begin s) := by
  have hexec : exec (.flushStepEnd us) s = execFlushStepEnd us s := rfl
  exact hexec.trans (if_pos (.inr ⟨h1, any_not_strict.2 hr⟩))

theorem flushStepEnd_first {us : BitVec 24} (hseq : s.power.seq = .shuttingDown) (h1 : s.power.flushStep = 1)
    (hr : ∀ r ∈ s.host.reqs, ∃ n, r.wait = .strict n) : exec (.flushStepEnd us) s = ran { begin s with power := { s.power with flushStep := 2 } } := by
  have hexec : exec (.flushStepEnd us) s = execFlushStepEnd us s := rfl
  unfold execFlushStepEnd at hexec
  have h1' : (begin s).power.flushStep = 1 := h1
  have hgo : ¬ ((begin s).power.seq ≠ .shuttingDown ∨ (begin s).power.flushStep = 1 ∧
      (begin s).host.reqs.any (fun r => match r.wait with | .strict _ => false | _ => true) = true) := by
    rintro (h | ⟨-, h⟩)
    · exact h hseq
    · obtain ⟨r, hmem, hne⟩ := any_not_strict.1 h
      obtain ⟨n, hn⟩ := hr r hmem
      exact hne n hn
  have hran := hexec.trans (if_neg hgo)
  rw [h1'] at hran
  exact hran

theorem flushStepEnd_last {us : BitVec 24} (hseq : s.power.seq = .shuttingDown) (h5 : s.power.flushStep = 5) :
    ∃ t, exec (.flushStepEnd us) s = ran (offTable t) := by
  have hexec : exec (.flushStepEnd us) s = execFlushStepEnd us s := rfl
  unfold execFlushStepEnd at hexec
  have h5' : (begin s).power.flushStep = 5 := h5
  have hgo : ¬ ((begin s).power.seq ≠ .shuttingDown ∨ (begin s).power.flushStep = 1 ∧
      (begin s).host.reqs.any (fun r => match r.wait with | .strict _ => false | _ => true) = true) := by
    rintro (h | ⟨h, -⟩)
    · exact h hseq
    · rw [h5'] at h
      exact absurd h (by decide)
  have hran := hexec.trans (if_neg hgo)
  rw [h5'] at hran
  exact ⟨_, hran⟩

end

/-- Settles O16: the measurement by its step, the faults by what the monitor finds, the flush by its step. -/
theorem holdUpMeasuresAndFaults : Obligations.HoldUpMeasuresAndFaults := by
  intro s b faults
  refine ⟨fun v m e hm h1 => bankCharged_steps hm h1, fun v2 dq v1 hm h1 hlo hd => holdupStepDone_measures hm h1 hlo hd,
    fun v2 dq v1 hm h1 => holdupStepDone_spoiled hm h1, holdupMeasureTimeout_faults, holdupMonitor_silent,
    fun a hseq hm hf harm hcharged hok hmj => holdupMonitor_charged hseq hm hf harm hcharged hok hmj,
    fun us hseq h1 hr => ends_of_ran (flushStepEnd_first hseq h1 hr) rfl, fun us _ h1 hr => ends_of_ran (flushStepEnd_waits h1 hr) rfl, fun us hseq h5 => ?_⟩
  obtain ⟨t, ht⟩ := flushStepEnd_last (us := us) hseq h5
  obtain ⟨⟨q, hq, hp⟩, hmem, -, -, -⟩ := offTable_facts t
  refine ends_of_ran ht ?_
  rw [hp]
  exact ⟨hq, hmem, rfl⟩

end Sys2Proof.Machine
end

section
/-! SUPPORT. The rows of the Waybill and the Strongbox, with O17 assembled from them. -/

namespace Sys2Proof.Machine

/-! ## The leak of the buckets -/

/-- A bucket one step lower; an empty one is not listed. -/
def leaked (e : Nat × BitVec 8) : Option (Nat × BitVec 8) := if e.2.toNat ≤ 1 then none else some (e.1, e.2 - 1)

theorem leaked_key {e f : Nat × BitVec 8} (h : leaked e = some f) : f.1 = e.1 := by
  unfold leaked at h
  split at h
  · exact absurd h (Option.some_ne_none f).symm
  · exact (congrArg Prod.fst (Option.some.inj h)).symm

theorem sget_leaked {m : SMap (BitVec 8)} (h : m.Pairwise (fun a b => a.1 < b.1)) (k : Nat) :
    (sget 0 (m.filterMap leaked) k).toNat = (sget 0 m k).toNat - 1 := by
  induction m with
  | nil => rfl
  | cons e m ih =>
    obtain ⟨j, v⟩ := e
    obtain ⟨hhead, htail⟩ := List.pairwise_cons.1 h
    have hgone (hv : v.toNat ≤ 1) : leaked (j, v) = none := if_pos hv
    have hlower (hv : ¬ v.toNat ≤ 1) : leaked (j, v) = some (j, v - 1) := if_neg hv
    by_cases hj : j = k
    · subst hj
      have habsent : ∀ f ∈ m.filterMap leaked, f.1 ≠ j := fun f hf => by
        obtain ⟨e, he, hef⟩ := List.mem_filterMap.1 hf
        rw [leaked_key hef]
        exact Nat.ne_of_gt (hhead e he)
      have hget : sget 0 ((j, v) :: m) j = v := if_pos rfl
      rw [hget]
      by_cases hv : v.toNat ≤ 1
      · rw [List.filterMap_cons_none (hgone hv), sget_of_absent 0 habsent]
        change 0 = v.toNat - 1
        omega
      · rw [List.filterMap_cons_some (hlower hv)]
        have hget' : sget 0 ((j, v - 1) :: m.filterMap leaked) j = v - 1 := if_pos rfl
        rw [hget', BitVec.toNat_sub_of_le (by rw [BitVec.le_def]; change 1 ≤ v.toNat; omega)]
        rfl
    · have hget : sget 0 ((j, v) :: m) k = sget 0 m k := if_neg hj
      rw [hget, ← ih htail]
      by_cases hv : v.toNat ≤ 1
      · rw [List.filterMap_cons_none (hgone hv)]
      · rw [List.filterMap_cons_some (hlower hv)]
        exact congrArg BitVec.toNat (if_neg hj)

section
variable {s : State}

/-! ## A write of the Strongbox starts -/

theorem sbStart_idle (h : s.sb.running = none) : sbStart s = sbStartFrom s.sb.queue s := by
  unfold sbStart
  rw [h]

theorem sbStartFrom_runs {r : SbReq} {rest : List SbReq} (h : sbCanStart s = true) :
    sbStartFrom (r :: rest) s = { sbApply s r with sb := { (sbApply s r).sb with queue := rest, running := some r } } := if_pos h

/-- Setting a flag of the buffered records changes none of the records. -/
theorem filter_writing (p : BufRec → Bool) (seqs : List (BitVec 32)) (l : List BufRec) :
    ((l.map (fun b => if p b then { b with writing := true } else b)).filter (fun b => seqs.contains b.rcd.seq)).map BufRec.rcd =
      (l.filter (fun b => seqs.contains b.rcd.seq)).map BufRec.rcd := by
  have hrcd (b : BufRec) : (if p b then { b with writing := true } else b).rcd = b.rcd := by split <;> rfl
  rw [List.filter_map, List.map_map]
  refine (List.map_congr_left (fun b _ => hrcd b)).trans (congrArg (List.map BufRec.rcd) (List.filter_congr fun b _ => ?_))
  exact congrArg (fun r => seqs.contains r.seq) (hrcd b)

/-- The records a flush writes first. -/
def flushSeqs (s : State) : List (BitVec 32) := ((unflushed s).map (fun x => x.rcd.seq)).take 4

theorem flushSeqs_ne_nil (h : unflushed s ≠ []) : flushSeqs s ≠ [] := by
  unfold flushSeqs
  rw [Ne, List.take_eq_nil_iff, List.map_eq_nil_iff, not_or]
  exact ⟨by decide, h⟩

/-- The records whose numbers are listed. -/
def recordsOf (s : State) (seqs : List (BitVec 32)) : List WbRec := (s.wb.buffer.filter (fun x => seqs.contains x.rcd.seq)).map BufRec.rcd

theorem sbApply_waybill (seqs : List (BitVec 32)) (s : State) : (sbApply s (.waybill seqs)).wb.flushing = s.wb.flushing ∧
    (sbApply s (.waybill seqs)).wb.area = sput s.wb.area s.wb.areaSlot (recordsOf s seqs) := ⟨rfl, rfl⟩

/-- With a free Strongbox, a flush of unsaved records starts by writing the first four. -/
theorem wbFlush_starts (hne : unflushed s ≠ []) (hr : s.sb.running = none) (hq : s.sb.queue = []) (hc : sbCanStart s = true) :
    (wbFlush s).wb.flushing = true ∧ (wbFlush s).sb.running = some (.waybill (flushSeqs s)) ∧
    sget [] (wbFlush s).wb.area s.wb.areaSlot = recordsOf s (flushSeqs s) := by
  have hflush : wbFlush s = sbEnqueue { s with wb := { s.wb with flushing := true, buffer := s.wb.buffer.map (fun b =>
      if (flushSeqs s).contains b.rcd.seq && !b.flushed then { b with writing := true } else b) } } (.waybill (flushSeqs s)) := by
    have hidle : ¬ (!true || s.sb.queue.any (fun r => match r with | .waybill _ => true | _ => false) ||
        s.sb.running.any (fun r => match r with | .waybill _ => true | _ => false)) = true := by
      rw [hr, hq]
      decide
    unfold wbFlush wbPump
    refine (if_neg hidle).trans ?_
    split
    · next h => exact absurd h (flushSeqs_ne_nil hne)
    · rfl
  have happly := sbStartFrom_runs (r := .waybill (flushSeqs s)) (rest := []) (s := { s with
    wb := { s.wb with flushing := true, buffer := s.wb.buffer.map (fun b =>
      if (flushSeqs s).contains b.rcd.seq && !b.flushed then { b with writing := true } else b) }
    sb := { s.sb with queue := s.sb.queue ++ [.waybill (flushSeqs s)] } }) hc
  rw [hflush]
  unfold sbEnqueue
  rw [sbStart_idle (by exact hr)]
  dsimp only
  rw [hq, List.nil_append] at happly ⊢
  rw [happly]
  refine ⟨rfl, rfl, ?_⟩
  refine (sget_sput_self _ _ _ _).trans ?_
  exact filter_writing _ _ _

/-! ## A write of the Strongbox ends -/

theorem wbPump_idle (h : s.wb.flushing = false) : wbPump s = s := by
  unfold wbPump
  refine if_pos ?_
  rw [h]
  rfl

theorem wbOverflow_idle (h : s.wb.lostI + s.wb.lostW + s.wb.lostC = 0) : wbOverflow s = s := if_neg (fun hn => absurd h (Nat.ne_of_gt hn.1))

theorem lowerAdvance_idle (h : s.sec.lowering = 0) : lowerAdvance s = s := if_pos (.inl h)

/-- The end of a write leaves the Strongbox idle, the other sections as they were but for its records' flags. -/
theorem sbEnd_facts (s : State) : (sbEnd s).sb = { s.sb with running := none } ∧ (sbEnd s).wb.flushing = s.wb.flushing ∧
    (sbEnd s).wb.lostI + (sbEnd s).wb.lostW + (sbEnd s).wb.lostC = s.wb.lostI + s.wb.lostW + s.wb.lostC ∧ (sbEnd s).sec = s.sec := by
  unfold sbEnd
  dsimp only
  split <;> exact ⟨rfl, rfl, rfl, rfl⟩

/-- Where no flush runs and nothing was lost, the end of a write starts the next one. -/
theorem sbWriteDone_next (hf : s.wb.flushing = false) (hl : s.wb.lostI + s.wb.lostW + s.wb.lostC = 0) :
    sbWriteDone s = sbStart (sbEnd s) := by
  obtain ⟨-, hflush, hlost, -⟩ := sbEnd_facts s
  unfold sbWriteDone
  rw [wbPump_idle (hflush.trans hf), wbOverflow_idle (hlost.trans hl)]

theorem strongboxWriteDone_exec {r : SbReq} (hr : s.sb.running = some r) (hf : s.wb.flushing = false)
    (hl : s.wb.lostI + s.wb.lostW + s.wb.lostC = 0) : exec .strongboxWriteDone s = ran (lowerAdvance (sbStart (sbEnd (begin s)))) := by
  have hexec : exec .strongboxWriteDone s = execStrongboxWriteDone s := rfl
  have hrun : ¬ (begin s).sb.running.isNone = true := by
    have hr' : (begin s).sb.running = some r := hr
    rw [hr']
    exact Bool.false_ne_true
  rw [← sbWriteDone_next (s := begin s) hf hl]
  exact hexec.trans (congrArg ran (if_neg hrun))

theorem sbApply_sec (r : SbReq) (s : State) : (sbApply s r).sec = s.sec := by
  have h := (Heralds.refl s).sbApply r
  exact sec_of_keepE h.keep

theorem strongboxWriteDone_empty {r : SbReq} (hr : s.sb.running = some r) (hq : s.sb.queue = []) (hf : s.wb.flushing = false)
    (hl : s.wb.lostI + s.wb.lostW + s.wb.lostC = 0) (hlow : s.sec.lowering = 0) :
    Ends .strongboxWriteDone s (fun u => u.sb = { s.sb with running := none }) := by
  obtain ⟨hsb, -, -, hsec⟩ := sbEnd_facts (begin s)
  refine ends_of_ran (strongboxWriteDone_exec hr hf hl) ?_
  have hqueue : (sbEnd (begin s)).sb.queue = [] := (congrArg (·.queue) hsb).trans hq
  have hstart : sbStart (sbEnd (begin s)) = { sbEnd (begin s) with sb := { (sbEnd (begin s)).sb with queue := [] } } := by
    rw [sbStart_idle (congrArg (·.running) hsb), hqueue]
    rfl
  have hsec' : (sbEnd (begin s)).sec.lowering = 0 := (congrArg (·.lowering) hsec).trans hlow
  rw [hstart, lowerAdvance_idle (by exact hsec')]
  change ({ (sbEnd (begin s)).sb with queue := [] } : SbSt) = _
  rw [hsb, ← hq]
  rfl

theorem strongboxWriteDone_queued {r q : SbReq} {rest : List SbReq} (hr : s.sb.running = some r) (hq : s.sb.queue = q :: rest)
    (hf : s.wb.flushing = false) (hl : s.wb.lostI + s.wb.lostW + s.wb.lostC = 0) (hlow : s.sec.lowering = 0) (hc : sbCanStart s = true) :
    Ends .strongboxWriteDone s (fun u => u.sb.running = some q ∧ u.sb.queue = rest) := by
  obtain ⟨hsb, -, -, hsec⟩ := sbEnd_facts (begin s)
  refine ends_of_ran (strongboxWriteDone_exec hr hf hl) ?_
  have hqueue : (sbEnd (begin s)).sb.queue = q :: rest := (congrArg (·.queue) hsb).trans hq
  have hcan : sbCanStart (sbEnd (begin s)) = true := (sbEnd_canStart (begin s)).trans hc
  rw [sbStart_idle (congrArg (·.running) hsb), hqueue, sbStartFrom_runs hcan, lowerAdvance_idle]
  · exact ⟨rfl, rfl⟩
  · exact (congrArg (·.lowering) ((sbApply_sec q _).trans hsec)).trans hlow

/-! ## Refreshes, the life record and the ATI points -/

theorem marginRefresh_strong (n : BitVec 16) (s : State) : exec (.strongboxMarginRefresh n false) s = ran (begin s) := by
  have hexec : exec (.strongboxMarginRefresh n false) s = execStrongboxMarginRefresh n false s := rfl
  exact hexec.trans (if_pos (.inr (.inr (.inr (.inl rfl)))))

theorem marginRefresh_weak {n : BitVec 16} (hup : s.start.sillUp = true) (hr : s.sb.running = none) (hq : s.sb.queue = [])
    (hc : sbCanStart s = true) (hn : n.toNat < 0x8000) : Ends (.strongboxMarginRefresh n true) s (fun u =>
      Recorded { code := 0x0602, p0 := n.toNat } u (fun v =>
        v.sb.weak = satInc s.sb.weak ∧ v.sb.running = some (.slot n.toNat (sbBytes s (256 * n.toNat) 256)))) := by
  have hexec : exec (.strongboxMarginRefresh n true) s = execStrongboxMarginRefresh n true s := rfl
  unfold execStrongboxMarginRefresh at hexec
  extract_lets b k bytes good t sb at hexec
  have hgood : good = true := by
    simp only [good]
    rw [decide_eq_true hn, Bool.true_or]
  have hgo : ¬ ((!b.start.sillUp) = true ∨ b.sb.running.isSome = true ∨ b.sb.queue ≠ [] ∨ (!true) = true ∨ (!good) = true ∨ (!sbCanStart b) = true) := by
    have hup' : b.start.sillUp = true := hup
    have hr' : b.sb.running = none := hr
    have hq' : b.sb.queue = [] := hq
    have hc' : sbCanStart b = true := hc
    rw [hup', hr', hq', hgood, hc']
    decide
  have hsmall : k < 0xC000 := Nat.lt_trans hn (by decide)
  have hstart : sbEnqueue b (.slot k bytes) = { sbApply { b with sb := { b.sb with queue := b.sb.queue ++ [.slot k bytes] } } (.slot k bytes) with
      sb := { (sbApply { b with sb := { b.sb with queue := b.sb.queue ++ [.slot k bytes] } } (.slot k bytes)).sb with
        queue := [], running := some (.slot k bytes) } } := by
    unfold sbEnqueue
    have happly := sbStartFrom_runs (r := .slot k bytes) (rest := []) (s := { b with sb := { b.sb with queue := b.sb.queue ++ [.slot k bytes] } }) hc
    have hq' : b.sb.queue = [] := hq
    rw [sbStart_idle (by exact hr)]
    dsimp only
    rw [hq', List.nil_append] at happly ⊢
    exact happly
  rw [if_neg hgo] at hexec
  have ht : t = sbEnqueue b (.slot k bytes) := if_pos hsmall
  refine ends_of_ran hexec ⟨_, rfl, ?_⟩
  have hweak : t.sb.weak = s.sb.weak := congrArg (·.sb.weak) (ht.trans hstart)
  have hrun : t.sb.running = some (.slot k bytes) := congrArg (·.sb.running) (ht.trans hstart)
  exact ⟨congrArg satInc hweak, hrun⟩

theorem getLast?_keep {α : Type} (l : List α) (x : α) {n : Nat} (hn : 1 ≤ n) :
    ((l ++ [x]).drop ((l ++ [x]).length - n)).getLast? = some x := by
  rw [List.getLast?_drop, List.getLast?_append_of_ne_nil _ (List.cons_ne_nil x [])]
  rw [if_neg (by rw [List.length_append, List.length_singleton]; omega)]
  rfl

theorem length_keep {α : Type} (l : List α) (x : α) (n : Nat) :
    ((l ++ [x]).drop ((l ++ [x]).length - n)).length = min n (l.length + 1) := by
  rw [List.length_drop, List.length_append, List.length_singleton]
  omega

/-- A fold of Strongbox writes touches what events may touch, alone. -/
theorem foldl_sbEnqueue_keepE {f : Nat → State → SbReq} (l : List Nat) (s : State) :
    keepE (l.foldl (fun s i => sbEnqueue s (f i s)) s) = keepE s :=
  List.foldlRecOn (motive := fun t : State => keepE t = keepE s) l _ rfl (fun t ht i _ => (sbEnqueue_keepE t (f i t)).trans ht)

theorem atiHourPoint_keeps (hup : s.start.sillUp = true) (hph : 5 ≤ s.start.phase.toNat) : Ends .atiHourPoint s (fun u =>
      u.mm.atiCount = s.mm.atiCount + 1 ∧ u.mm.atiHours.length = min 192 (s.mm.atiHours.length + 1) ∧
      (∃ p, u.mm.atiHours.getLast? = some (s.time.ftime, p)) ∧
      u.mm.atiDays.length = if (s.mm.atiCount + 1) % 24 = 0 then min 367 (s.mm.atiDays.length + 1) else s.mm.atiDays.length) := by
  have hexec : exec .atiHourPoint s = execAtiHourPoint s := rfl
  unfold execAtiHourPoint at hexec
  extract_lets b p point keep count day mm t1 t2 t3 at hexec
  have hkeep (n : Nat) (l : List (BitVec 64 × SMap Nat)) : keep n l = l.drop (l.length - n) := rfl
  clear_value keep
  have hgo : ¬ ((!b.start.sillUp) = true ∨ b.start.phase.toNat < 5) := by
    rintro (h | h)
    · have hup' : b.start.sillUp = true := hup
      rw [hup'] at h
      exact Bool.false_ne_true h
    · exact absurd hph (Nat.not_le.2 h)
  rw [if_neg hgo] at hexec
  have h2 : t2.mm = t1.mm := mm_of_keepE (sbEnqueue_keepE _ _)
  have h3 : t3.mm = t2.mm := by
    simp only [t3]
    split
    · exact mm_of_keepE (sbEnqueue_keepE _ _)
    · rfl
  have hmm := ((mm_of_keepE (foldl_sbEnqueue_keepE (f := fun i s => .ring 0x63 i (scalPayload s i)) (List.range 18) t3)).trans h3).trans h2
  refine ends_of_ran hexec ?_
  rw [hmm]
  have hhours : t1.mm.atiHours = keep 192 (s.mm.atiHours ++ [point]) := rfl
  have hdays : t1.mm.atiDays = if day then keep 367 (s.mm.atiDays ++ [point]) else s.mm.atiDays := rfl
  rw [hhours, hdays, hkeep, hkeep]
  refine ⟨rfl, length_keep _ _ _, ⟨point.2, getLast?_keep _ _ (by decide)⟩, ?_⟩
  by_cases hday : (s.mm.atiCount + 1) % 24 = 0
  · have hd : day = true := decide_eq_true hday
    rw [if_pos hday, if_pos hd]
    exact length_keep _ _ _
  · have hd : ¬ day = true := fun h => hday (of_decide_eq_true h)
    rw [if_neg hday, if_neg hd]

end

/-- Settles O17: each row by its guard; the writes that end start the next in the queue. -/
theorem waybillAndStrongboxRowsAct : Obligations.WaybillAndStrongboxRowsAct := by
  intro s b flushes ready
  refine ⟨fun ⟨hup, hne, hr, hq, hc⟩ => ?_, fun ⟨hup, hne, hr, hq, hc⟩ => ?_, fun hup hne hr hq => ?_, fun hup hw => ?_,
    fun r hr hq hf hl hlow => strongboxWriteDone_empty hr hq hf hl hlow,
    fun r q rest hr hq hf hl hlow hc => strongboxWriteDone_queued hr hq hf hl hlow hc,
    fun n hup hr hq hc hn => marginRefresh_weak hup hr hq hc hn, fun n => ends_of_ran (marginRefresh_strong n s) rfl,
    fun hseq => ?_, atiHourPoint_keeps, fun hv => ?_, fun hv => ?_⟩
  · have hexec : exec .waybillFlushTimer s = execWaybillFlushTimer s := rfl
    exact ends_of_ran (hexec.trans (congrArg ran (if_pos hup))) (wbFlush_starts (s := begin s) hne hr hq hc)
  · have hexec : exec .wbCtrlFlush s = execWbCtrlFlush s := rfl
    exact ends_of_ran (hexec.trans (congrArg ran (if_pos hup))) (wbFlush_starts (s := begin s) hne hr hq hc)
  · have hexec : exec .wbCtrlFlush s = execWbCtrlFlush s := rfl
    refine ends_of_ran (hexec.trans (congrArg ran (if_pos hup))) ?_
    have hidle : ¬ (!true || s.sb.queue.any (fun r => match r with | .waybill _ => true | _ => false) ||
        s.sb.running.any (fun r => match r with | .waybill _ => true | _ => false)) = true := by
      rw [hr, hq]
      decide
    unfold wbFlush wbPump
    refine (if_neg hidle).trans ?_
    have hnone : ((unflushed { begin s with wb := { (begin s).wb with flushing := true } }).map (fun b => b.rcd.seq)).take 4 = [] := by
      have hu : unflushed { begin s with wb := { (begin s).wb with flushing := true } } = [] := hne
      rw [hu]
      rfl
    rw [hnone]
    rfl
  · have hexec : exec .ceLeakStep s = execCeLeakStep s := rfl
    exact ends_of_ran (hexec.trans (congrArg ran (if_pos hup))) ⟨fun k => sget_leaked ((swf_iff 0 _).1 hw).1 k, rfl⟩
  · have hexec : exec .lifeHourly s = execLifeHourly s := rfl
    exact ends_of_ran (hexec.trans (if_neg (not_not_intro hseq))) ⟨_, rfl, rfl⟩
  · have hexec : exec .reserveCharged s = execReserveCharged s := rfl
    refine ends_of_ran (hexec.trans (congrArg ran (if_neg (Nat.not_lt.2 hv)))) ?_
    exact congrArg (·.reserveOk) ((Heralds.refl { begin s with sb := { (begin s).sb with reserveOk := true } }).wbPump.sbStart).sb
  · have hexec : exec .reserveCharged s = execReserveCharged s := rfl
    exact ends_of_ran (hexec.trans (congrArg ran (if_pos hv))) rfl

end Sys2Proof.Machine
end

section
/-! SUPPORT. The thermal rows, with O19 assembled from them. -/

namespace Sys2Proof.Machine

/-! ## Points that are armed -/

/-- No point is armed that was not. -/
def ArmedWithin (s u : State) : Prop := ∀ a ∈ u.evt.armed, a ∈ s.evt.armed

section
variable {s t u : State}

theorem ArmedWithin.refl (s : State) : ArmedWithin s s := fun _ h => h

theorem ArmedWithin.trans (hst : ArmedWithin s t) (htu : ArmedWithin t u) : ArmedWithin s u := fun a ha => hst a (htu a ha)

theorem ArmedWithin.nil (h : ArmedWithin s u) (hs : s.evt.armed = []) : u.evt.armed = [] :=
  List.eq_nil_iff_forall_not_mem.2 (fun a ha => List.not_mem_nil (hs ▸ h a ha))

theorem ArmedWithin.foldl {α : Type} {f : State → α → State} (hf : ∀ s a, ArmedWithin s (f s a)) (l : List α) (s : State) : ArmedWithin s (l.foldl f s) :=
  List.foldlRecOn (motive := ArmedWithin s) l f (.refl s) (fun t ht a _ => ht.trans (hf t a))

theorem ArmedWithin.from_same (h : ArmedWithin t u) (he : t.evt = s.evt) : ArmedWithin s u := fun a ha => he ▸ h a ha

theorem ArmedWithin.ite {p : Prop} [Decidable p] (ht : ArmedWithin s t) (hu : ArmedWithin s u) : ArmedWithin s (if p then t else u) := by
  split
  · exact ht
  · exact hu

theorem Heralds.armedWithin (h : Heralds s u) : ArmedWithin s u := h.armed

theorem mailDown_evt (u : Nat) (s : State) : (mailDown u s).evt = s.evt := by
  unfold mailDown
  split
  · rfl
  · split <;> rfl

theorem setUnit_armed (n : Nat) (st : UState) (reason : Nat) (repl : Bool) (s : State) : ArmedWithin s (setUnit n st reason repl s) := by
  unfold setUnit
  extract_lets old was units rcd s1 evt s2 saved s3
  have h2 : ArmedWithin s s2 := by
    simp only [s2]
    split
    · exact .refl s
    · exact fun a ha => (List.mem_filter.1 ha).1
  have h3 : ArmedWithin s2 s3 := ArmedWithin.ite (saveUnit_heralds n s2).armedWithin (.refl s2)
  have hdown : ArmedWithin s3 (if isDown st then mailDown n s3 else s3) :=
    ArmedWithin.ite (fun a ha => mailDown_evt n s3 ▸ ha) (.refl s3)
  have hevent (v : State) (old new : UState) : ArmedWithin v (stateEvent n old new reason repl v) := (event_heralds _ v).armedWithin
  exact (h2.trans h3).trans (hdown.trans (hevent _ _ _))

theorem endJob_armed (id : BitVec 16) (m : Nat) (s : State) : ArmedWithin s (endJob id m s) := by
  unfold endJob
  split
  · exact .refl s
  · exact (event_heralds _ _).armedWithin.from_same rfl

theorem sendPkt_evt (ch op die bank block addr : Nat) (tag : BitVec 7) (arg : Nat) (s : State) :
    (sendPkt ch op die bank block addr tag arg s).evt = s.evt := rfl

theorem stopChannel_armed (ch : Nat) (s : State) : ArmedWithin s (stopChannel ch s) := by
  unfold stopChannel
  extract_lets c t
  have ht : ArmedWithin s t := ArmedWithin.foldl (fun u p => by
    refine ArmedWithin.ite (.refl u) ?_
    have hsend (op die bank : Nat) (tag : BitVec 7) (v : State) : ArmedWithin v (sendPkt ch op die bank 0 0 tag 0 v) := fun _ h => h
    have hsusp := ArmedWithin.ite (p := p.phase = .busy) (hsend 0x21 p.die p.bank 127 u) (.refl u)
    exact ArmedWithin.ite hsusp (hsusp.trans (hsend _ _ _ _ _))) _ _
  exact ht

theorem shutdownPath_armed (cause : Nat) (s : State) : (shutdownPath cause s).evt.armed = [] := by
  unfold shutdownPath
  extract_lets evt t1 t2 tt host therm t3 mm t4 unit t5 t6 t7 recs t8
  have h1 : ArmedWithin { s with evt := { evt with armed := [] } } t1 :=
    ArmedWithin.foldl (f := fun t (j : Job) => endJob j.id 0x0301 t) (fun t j => endJob_armed j.id _ t) _ _
  have h6 : ArmedWithin t5 t6 := ArmedWithin.foldl (fun t c => stopChannel_armed c t) _ t5
  have h7 : ArmedWithin t6 t7 := (event_heralds _ t6).armedWithin
  have h8 : ArmedWithin t7 t8 := ArmedWithin.ite (fun _ h => h) (.refl t7)
  have h9 : ArmedWithin t8 (wbFlush (sbFirst recs t8)) := ((Heralds.refl t8).sbFirst recs).wbFlush.armedWithin
  exact (h6.trans (h7.trans (h8.trans h9))).nil (h1.nil rfl)

/-- Entering the shutdown path leaves the thermal loop's section but for the trip output. -/
theorem shutdownPath_therm (cause : Nat) (s : State) : ∃ b, (shutdownPath cause s).therm = { s.therm with tripN := b } := by
  unfold shutdownPath
  extract_lets evt t1 t2 tt host therm t3 mm t4 unit t5 t6 t7 recs t8
  have h1 : t1.therm = s.therm := therm_of_keepM (failReadmits_keepM _)
  have h6 : keepM t6 = keepM t5 := List.foldlRecOn (motive := fun t : State => keepM t = keepM t5) _ _ rfl
    (fun t ht c _ => (stopChannel_keepM c t).trans ht)
  have h7 : t7.therm = t6.therm := therm_of_keepE (event_keepE _ _)
  have h8 : t8.therm = t7.therm := by
    simp only [t8]
    split <;> rfl
  have h9 : (wbFlush (sbFirst recs t8)).therm = t8.therm := (therm_of_keepE (wbFlush_keepE _)).trans (therm_of_keepE (sbFirst_keepE _ _))
  refine ⟨t5.therm.tripN, h9.trans (h8.trans (h7.trans ((therm_of_keepM h6).trans ?_)))⟩
  exact congrArg (fun x : ThermSt => { x with tripN := t5.therm.tripN }) h1

end

/-! ## Sensors -/

section
variable {s t u : State}

theorem sensorOf_setSensor_self {i : Nat} (f : SensorSt → SensorSt) (h : i < s.therm.sensors.length) :
    sensorOf (setSensor i f s) i = f (sensorOf s i) := getD_lmod_self ({} : SensorSt) s.therm.sensors f h

theorem sensorOf_setSensor_ne {i j : Nat} (f : SensorSt → SensorSt) (h : i ≠ j) : sensorOf (setSensor j f s) i = sensorOf s i :=
  getD_lmod_ne ({} : SensorSt) s.therm.sensors f h

theorem setSensor_length (i : Nat) (f : SensorSt → SensorSt) (s : State) : (setSensor i f s).therm.sensors.length = s.therm.sensors.length :=
  lmod_length _ _ _

/-- What a sample keeps while the sensors are judged: the reading `r` of sensor `i`; and the device is On, or shuts down for its heat. -/
structure Sampled (i : Nat) (r : BitVec 16) (t : State) : Prop where
  armed : t.evt.armed = []
  count : t.therm.sensors.length = 64
  valid : (sensorOf t i).valid = true
  reading : (sensorOf t i).reading = r
  calm : t.therm.throttle = .shutdown ∨ t.power.seq = .on

variable {i : Nat} {r : BitVec 16}

theorem sensorOf_setSensor (i j : Nat) (f : SensorSt → SensorSt) (t : State) :
    sensorOf (setSensor j f t) i = f (sensorOf t i) ∨ sensorOf (setSensor j f t) i = sensorOf t i := by
  by_cases hj : i = j
  · subst hj
    by_cases hi : i < t.therm.sensors.length
    · exact .inl (sensorOf_setSensor_self f hi)
    · have hout : (setSensor i f t).therm.sensors.length ≤ i := by rw [setSensor_length]; omega
      right
      unfold sensorOf
      rw [List.getD_eq_default _ _ hout, List.getD_eq_default _ _ (Nat.not_lt.1 hi)]
  · exact .inr (sensorOf_setSensor_ne f hj)

theorem Sampled.setSensor (h : Sampled i r t) (j : Nat) {f : SensorSt → SensorSt} (hf : ∀ x, (f x).valid = x.valid ∧ (f x).reading = x.reading) :
    Sampled i r (setSensor j f t) := by
  have hkept : (sensorOf (Machine.setSensor j f t) i).valid = (sensorOf t i).valid ∧
      (sensorOf (Machine.setSensor j f t) i).reading = (sensorOf t i).reading := by
    obtain hs | hs := sensorOf_setSensor i j f t
    · rw [hs]
      exact hf _
    · rw [hs]
      exact ⟨rfl, rfl⟩
  exact ⟨h.armed, (setSensor_length j f t).trans h.count, hkept.1.trans h.valid, hkept.2.trans h.reading, h.calm⟩

/-- A change of the thermal loop's other registers. -/
theorem Sampled.therm (h : Sampled i r t) {f : ThermSt → ThermSt} (hs : (f t.therm).sensors = t.therm.sensors)
    (hc : (f t.therm).throttle = .shutdown ∨ (f t.therm).throttle = t.therm.throttle ∨ t.power.seq = .on) : Sampled i r (setTherm f t) := by
  have hsensor (k : Nat) : sensorOf (setTherm f t) k = sensorOf t k := congrArg (fun l : List SensorSt => l.getD k {}) hs
  refine ⟨h.armed, (congrArg List.length hs).trans h.count, (congrArg (·.valid) (hsensor i)).trans h.valid,
    (congrArg (·.reading) (hsensor i)).trans h.reading, ?_⟩
  obtain hc | hc | hc := hc
  · exact .inl hc
  · exact h.calm.imp_left (hc.trans ·)
  · exact .inr hc

theorem Sampled.kept (h : Sampled i r t) (hk : keepM u = keepM t) (ha : ArmedWithin t u) : Sampled i r u := by
  have ht : u.therm = t.therm := therm_of_keepM hk
  have hp : u.power = t.power := power_of_keepM hk
  have hs : sensorOf u i = sensorOf t i := congrArg (fun x : ThermSt => x.sensors.getD i {}) ht
  exact ⟨ha.nil h.armed, (congrArg (·.sensors.length) ht).trans h.count, (congrArg (·.valid) hs).trans h.valid, (congrArg (·.reading) hs).trans h.reading,
    h.calm.imp ((congrArg (·.throttle) ht).trans ·) ((congrArg (·.seq) hp).trans ·)⟩

theorem Sampled.event (h : Sampled i r t) (e : Ev) : Sampled i r (event e t) := h.kept (event_keepM e t) (event_heralds e t).armedWithin

theorem Sampled.setUnit (h : Sampled i r t) (n : Nat) (st : UState) (reason : Nat) (b : Bool) : Sampled i r (setUnit n st reason b t) :=
  h.kept (setUnit_keepM n st reason b t) (setUnit_armed n st reason b t)

theorem Sampled.sensorBreaks (h : Sampled i r t) (j : Nat) (m : Int) : Sampled i r (sensorBreaks j m t) := by
  unfold Machine.sensorBreaks
  extract_lets reading t1 t2
  have h1 : Sampled i r t1 := (h.setSensor j (f := fun x => { x with broken := true }) (fun _ => ⟨rfl, rfl⟩)).therm
    (f := fun t => { t with fBroken := true }) rfl (.inr (.inl rfl))
  have h2 : Sampled i r t2 := h1.setUnit _ _ _ _
  exact h2.event _

theorem Sampled.foldl {α : Type} {f : State → α → State} (h : Sampled i r t) (hf : ∀ u a, Sampled i r u → Sampled i r (f u a)) (l : List α) :
    Sampled i r (l.foldl f t) := List.foldlRecOn l f h (fun u hu a _ => hf u a hu)

theorem Sampled.crossCheck (h : Sampled i r t) : Sampled i r (crossCheck t) := by
  unfold Machine.crossCheck
  refine h.foldl (fun u j hu => ?_) _
  dsimp only
  generalize (if j.2.2 = true then (sensorOf u j.1).devRun + 1 else 0) = run
  have hset := hu.setSensor j.1 (f := fun x => { x with devRun := run }) (fun _ => ⟨rfl, rfl⟩)
  split
  · exact hset.sensorBreaks _ _
  · exact hset

theorem Sampled.workValues (h : Sampled i r t) : Sampled i r (workValues t) := by
  unfold Machine.workValues
  refine h.foldl (fun u e hu => hu.setSensor _ (fun x => ?_)) _
  cases e.2 <;> exact ⟨rfl, rfl⟩

theorem Sampled.judgeThermLoad (h : Sampled i r t) : Sampled i r (judgeThermLoad t) := by
  have hload (l : Nat) : Sampled i r (setThermLoad l t) := ⟨h.armed, h.count, h.valid, h.reading, h.calm⟩
  unfold Machine.judgeThermLoad
  split
  · exact hload 0
  · split
    · exact hload 2
    · exact h

theorem Sampled.judgeThrottle (h : Sampled i r t) (tick : Bool) : Sampled i r (judgeThrottle tick t) := by
  unfold Machine.judgeThrottle
  extract_lets n tg cap cap' tt t1 t2 t3
  have h1 : Sampled i r t1 := by
    simp only [t1]
    split
    · exact ⟨h.armed, h.count, h.valid, h.reading, h.calm⟩
    · exact h
  have h2 : Sampled i r t2 := h1.therm rfl (.inr (.inl rfl))
  have h3 : Sampled i r t3 := h2.judgeThermLoad
  have hon (hne : t3.therm.throttle ≠ .shutdown) : t3.power.seq = .on := h3.calm.resolve_left hne
  clear_value t3
  split
  · next hq =>
    split
    · exact (h3.therm (f := fun t => { t with throttle := .notice, fNotice := true }) rfl (.inr (.inr (hon (by rw [hq]; decide))))).event _
    · exact h3
  · next hq =>
    split
    · exact h3.therm (f := fun t => { t with throttle := .none }) rfl (.inr (.inr (hon (by rw [hq]; decide))))
    · exact h3
  · exact h3
  · exact h3

theorem Sampled.shutdownPath (h : Sampled i r t) (cause : Nat) (hs : t.therm.throttle = .shutdown) : Sampled i r (shutdownPath cause t) := by
  obtain ⟨b, ht⟩ := shutdownPath_therm cause t
  have hsensor : sensorOf (Machine.shutdownPath cause t) i = sensorOf t i := (congrArg (fun x : ThermSt => x.sensors.getD i {}) ht).trans rfl
  exact ⟨shutdownPath_armed cause t, (congrArg (·.sensors.length) ht).trans h.count, (congrArg (·.valid) hsensor).trans h.valid,
    (congrArg (·.reading) hsensor).trans h.reading, .inl ((congrArg (·.throttle) ht).trans hs)⟩

theorem Sampled.judgeShutdown (h : Sampled i r t) (j : Nat) : Sampled i r (judgeShutdown j t) := by
  unfold Machine.judgeShutdown
  extract_lets hot run t1 rcd
  have h1 : Sampled i r t1 := h.setSensor j (fun _ => ⟨rfl, rfl⟩)
  clear_value t1
  split
  · exact h1
  · next hstay =>
    have hon : t1.power.seq = .on := h1.calm.resolve_left (fun hs => hstay (.inr hs))
    rw [hon]
    dsimp only
    have hrec := h1.therm (f := fun t => { t with throttle := .shutdown, record := some rcd }) rfl (.inl rfl)
    rw [powerOff_on 2 (s := setTherm (fun t => { t with throttle := .shutdown, record := some rcd }) t1) hon]
    exact hrec.shutdownPath 2 rfl

theorem Sampled.setHottest (h : Sampled i r t) (v : BitVec 16) (k : BitVec 6) :
    Sampled i r (setTherm (fun t => { t with tg := v, tgSensor := k }) t) := h.therm rfl (.inr (.inl rfl))

theorem Sampled.judgeSample (h : Sampled i r t) (tick : Bool) (covers : List Nat) : Sampled i r (judgeSample tick covers t) := by
  unfold Machine.judgeSample
  extract_lets t1 t2
  have h1 : Sampled i r t1 := h.workValues
  have h2 : Sampled i r t2 := by
    simp only [t2]
    split
    · next k v _ => exact h1.setHottest (BitVec.ofInt 16 v) (BitVec.ofNat 6 k)
    · exact h1
  exact (h2.judgeThrottle tick).foldl (fun u j hu => hu.judgeShutdown j) covers

end

/-! ## Readings taken -/

/-- Only the sensors' entries differ, and there are still 64. -/
def SensorsDiffer (s t : State) : Prop := ∃ l, l.length = 64 ∧ t = { s with therm := { s.therm with sensors := l } }

/-- The reading that sensor `i` takes from the value `v` when no point is armed. -/
def readingFrom (s : State) (i : Nat) (v : BitVec 16) : BitVec 16 := BitVec.ofInt 16 (v.toInt + (if i < 24 then factoryOffset s i else 0))

theorem SensorsDiffer.refl {s : State} (h : s.therm.sensors.length = 64) : SensorsDiffer s s := ⟨s.therm.sensors, h, rfl⟩

theorem SensorsDiffer.setSensor {s t : State} (h : SensorsDiffer s t) (i : Nat) (f : SensorSt → SensorSt) : SensorsDiffer s (setSensor i f t) := by
  obtain ⟨l, hl, rfl⟩ := h
  exact ⟨lmod l i f, (lmod_length _ _ _).trans hl, rfl⟩

theorem takeReading_unarmed {t : State} (ha : t.evt.armed = []) (i : Nat) (v : BitVec 16) :
    takeReading i v t = if unitPresent t (uSensor i) then setSensor i (fun x => { x with reading := readingFrom t i v, valid := true }) t else t := by
  have harmed : isArmed t 0x000F (uSensor i) = false := congrArg (fun a : List Armed => a.any _) ha
  have hpoint : activePoint t 0x000F (uSensor i) = none := congrArg (fun a : List Armed => a.find? _) ha
  have hoff : injectedOffset t i = 0 := by
    unfold injectedOffset
    rw [hpoint]
  unfold takeReading readingFrom
  cases unitPresent t (uSensor i)
  · rfl
  · rw [harmed, if_neg (by decide), if_neg (by decide), if_pos rfl]
    dsimp only
    rw [hoff, Int.add_zero]

theorem SensorsDiffer.unitPresent_eq {s t : State} (h : SensorsDiffer s t) (u : Nat) : unitPresent t u = unitPresent s u := by
  obtain ⟨l, -, rfl⟩ := h
  rfl

theorem SensorsDiffer.readingFrom_eq {s t : State} (h : SensorsDiffer s t) (i : Nat) (v : BitVec 16) : readingFrom t i v = readingFrom s i v := by
  obtain ⟨l, -, rfl⟩ := h
  rfl

theorem SensorsDiffer.armed_eq {s t : State} (h : SensorsDiffer s t) : t.evt.armed = s.evt.armed := by
  obtain ⟨l, -, rfl⟩ := h
  rfl

/-- Readings taken one after another: each present sensor that has one is valid and holds it. -/
theorem takeReadings_facts {s : State} (ha : s.evt.armed = []) (hl : s.therm.sensors.length = 64) (rs : List (Option (BitVec 16)))
    {i : Nat} {v : BitVec 16} (hi : i < 64) (hv : rs.getD i none = some v) (hp : unitPresent s (uSensor i) = true) (l : List Nat) :
    let t := l.foldl (fun s i => match rs.getD i none with | some v => takeReading i v s | none => s) s
    SensorsDiffer s t ∧ (i ∈ l → (sensorOf t i).valid = true ∧ (sensorOf t i).reading = readingFrom s i v) := by
  induction l using List.reverseRecOn with
  | nil => exact ⟨.refl hl, fun h => absurd h List.not_mem_nil⟩
  | append_singleton l j ih =>
    obtain ⟨hdiff, hmem⟩ := ih
    rw [List.foldl_append, List.foldl_cons, List.foldl_nil]
    generalize l.foldl _ s = t at hdiff hmem ⊢
    have hlen : t.therm.sensors.length = 64 := by
      obtain ⟨l, h, rfl⟩ := hdiff
      exact h
    by_cases hj : i = j
    · subst hj
      rw [hv]
      dsimp only
      rw [takeReading_unarmed (hdiff.armed_eq.trans ha), if_pos ((hdiff.unitPresent_eq _).trans hp), hdiff.readingFrom_eq]
      refine ⟨hdiff.setSensor _ _, fun _ => ?_⟩
      rw [sensorOf_setSensor_self _ (by omega)]
      exact ⟨rfl, rfl⟩
    · have hold : i ∈ l ++ [j] → i ∈ l := fun h => (List.mem_append.1 h).resolve_right (fun h => hj (List.mem_singleton.1 h))
      cases rs.getD j none with
      | none => exact ⟨hdiff, hmem ∘ hold⟩
      | some w =>
        dsimp only
        rw [takeReading_unarmed (hdiff.armed_eq.trans ha)]
        split
        · exact ⟨hdiff.setSensor _ _, fun h => (sensorOf_setSensor_ne _ hj).symm ▸ hmem (hold h)⟩
        · exact ⟨hdiff, hmem ∘ hold⟩

theorem injectedAlerts_unarmed {s : State} (h : s.evt.armed = []) : injectedAlerts s = s := by
  unfold injectedAlerts
  rw [h]
  rfl

/-- A sample while the device is On and no point is armed: each present sensor keeps the reading it took. -/
theorem thermalSample_reads {s : State} {rs : List (Option (BitVec 16))} {i : Nat} {v : BitVec 16} (hup : domainOn s 0 = true)
    (hon : s.power.seq = .on) (ha : s.evt.armed = []) (hl : s.therm.sensors.length = 64) (hi : i < 60) (hv : rs.getD i none = some v)
    (hp : unitPresent s (uSensor i) = true) :
    Ends (.thermalSample rs) s (fun u => (sensorOf u i).valid = true ∧ (sensorOf u i).reading = readingFrom s i v) := by
  have hgo : ¬ (!domainOn (begin s) 0) = true := by
    rw [show domainOn (begin s) 0 = domainOn s 0 from rfl, hup]
    decide
  have hexec : exec (.thermalSample rs) s = execThermalSample rs s := rfl
  refine ends_of_ran (hexec.trans (if_neg hgo)) ?_
  obtain ⟨hdiff, hmem⟩ := takeReadings_facts (s := begin s) ha hl rs (by omega) hv hp (List.range 60)
  obtain ⟨hvalid, hreading⟩ := hmem (List.mem_range.2 hi)
  generalize (List.range 60).foldl _ (begin s) = t at hdiff hvalid hreading ⊢
  have ht : Sampled i (readingFrom (begin s) i v) t := by
    refine ⟨?_, ?_, hvalid, hreading, .inr ?_⟩ <;> obtain ⟨l, hlen, rfl⟩ := hdiff
    · exact ha
    · exact hlen
    · exact hon
  have hend := ht.crossCheck.judgeSample true (List.range 60)
  rw [injectedAlerts_unarmed hend.armed]
  exact ⟨hend.valid, hend.reading⟩

/-! ## Grace and brake -/

/-- A step of the brake fraction to `b`, in Brake. -/
theorem brakeFractionStep_exec {s : State} {b : Nat} (ht : s.therm.throttle = .brake)
    (hb : (if noticeLevel s ≤ tgNow s then max 2 (s.therm.bf.toNat - 1) else s.therm.bf.toNat + 1) = b) :
    exec .brakeFractionStep s =
      if b < 16 then ran (setTherm (fun t => { t with bf := BitVec.ofNat 5 b }) (begin s))
      else if decide (tgNow s < noticeLevel s - 24) then ran (setThermLoad 0 (setTherm (fun t => { t with bf := 16, throttle := .none }) (begin s)))
      else ran (event { code := 0x0504, unit := uSensor s.therm.tgSensor.toNat, p0 := s.therm.tg.toNat }
        (setTherm (fun t => { t with bf := 16, throttle := .notice, fNotice := true }) (begin s))) := by
  have hexec : exec .brakeFractionStep s = execBrakeFractionStep s := rfl
  refine hexec.trans ((if_neg (not_not_intro ht)).trans ?_)
  subst hb
  rfl

/-- A sensor read late breaks, with its flag and its record (R571). -/
theorem sensorReadingTimeout_breaks {s : State} {i : Fin 64} (hlow : 24 ≤ i.val) (hhigh : i.val < 60) (hup : domainOn s 0 = true)
    (hin : sensorIn s i = true) (hwhole : (sensorOf s i).broken = false) (hl : s.therm.sensors.length = 64) :
    Ends (.sensorReadingTimeout i) s (fun u => ∃ e, e.code = 0x0506 ∧ e.unit = uSensor i ∧ Recorded e u (fun v =>
      (sensorOf v i).broken = true ∧ v.therm.fBroken = true)) := by
  have hgo : ¬ (i.val < 24 ∨ 60 ≤ i.val ∨ (!domainOn (begin s) 0) = true ∨ (!sensorIn (begin s) i) = true ∨ (sensorOf (begin s) i).broken = true) := by
    rw [show domainOn (begin s) 0 = domainOn s 0 from rfl, show sensorIn (begin s) i = sensorIn s i from rfl,
      show sensorOf (begin s) i = sensorOf s i from rfl, hup, hin, hwhole]
    simp; omega
  have hexec : exec (.sensorReadingTimeout i) s = execSensorReadingTimeout i s := rfl
  refine ends_of_ran (hexec.trans (if_neg hgo)) ?_
  refine ⟨_, rfl, rfl, _, rfl, ?_⟩
  generalize ht : setTherm (fun t => { t with fBroken := true }) (setSensor i.val (fun x => { x with broken := true })
    (setSensor i.val (fun x => { x with broken := true }) (begin s))) = t
  have hbroken : (sensorOf t i).broken = true := by
    subst ht
    refine congrArg (·.broken) (sensorOf_setSensor_self (s := setSensor i (fun x => { x with broken := true }) (begin s)) _ ?_)
    rw [setSensor_length]
    exact i.isLt.trans_eq hl.symm
  have hflag : t.therm.fBroken = true := ht ▸ rfl
  have htherm : (setUnit (uSensor i) .degraded 10 false t).therm = t.therm := therm_of_keepM (setUnit_keepM _ _ _ _ t)
  exact ⟨(congrArg (fun x : ThermSt => (x.sensors.getD i {}).broken) htherm).trans hbroken, (congrArg (·.fBroken) htherm).trans hflag⟩

/-- Settles O19: the sample by the invariant `Sampled`, which the judgments of the sensors keep; the grace and brake rows by the throttle's state. -/
theorem thermalRowsFollowTheThrottle : Obligations.ThermalRowsFollowTheThrottle := by
  intro s b hot
  refine ⟨fun rs i v hup hon ha hl hi hv hp => thermalSample_reads hup hon ha hl hi hv hp, ?off, ?half, ?grace, ?noGrace, ?step, ?rise, ?last, ?late⟩
  case off =>
    intro rs hoff
    have hexec : exec (.thermalSample rs) s = execThermalSample rs s := rfl
    exact ends_of_ran (hexec.trans (if_pos (by rw [show domainOn (begin s) 0 = domainOn s 0 from rfl, hoff]; rfl))) rfl
  case half =>
    intro ht hhot
    have hexec : exec .thermalHalfGrace s = execThermalHalfGrace s := rfl
    exact ends_of_ran (hexec.trans (congrArg ran (if_pos ⟨ht, hhot⟩))) rfl
  case grace =>
    intro ht hhot
    have hgo : ¬ ((begin s).therm.throttle ≠ .notice ∨ tgNow (begin s) < noticeLevel (begin s)) := by
      rintro (h | h)
      · exact h ht
      · exact absurd hhot (Int.not_le.2 h)
    have hexec : exec .thermalGraceExpiry s = execThermalGraceExpiry s := rfl
    exact ends_of_ran (hexec.trans (if_neg hgo)) ⟨_, rfl, rfl⟩
  case noGrace =>
    intro ht
    have hexec : exec .thermalGraceExpiry s = execThermalGraceExpiry s := rfl
    exact ends_of_ran (hexec.trans (if_pos (.inl ht))) rfl
  case step =>
    intro ht hhot hb
    have hexec := brakeFractionStep_exec ht (b := max 2 (s.therm.bf.toNat - 1)) (if_pos hhot)
    exact ends_of_ran (hexec.trans (if_pos (by omega))) rfl
  case rise =>
    intro ht hcool hb
    have hexec := brakeFractionStep_exec ht (b := s.therm.bf.toNat + 1) (if_neg hcool)
    have hb1 : BitVec.ofNat 5 (s.therm.bf.toNat + 1) = s.therm.bf + 1 := by bv_omega
    exact ends_of_ran (hexec.trans (if_pos (by omega))) (hb1 ▸ rfl)
  case last =>
    intro ht hcool hb
    have hcold : ¬ noticeLevel s ≤ tgNow s := by omega
    have hexec := brakeFractionStep_exec ht (b := s.therm.bf.toNat + 1) (if_neg hcold)
    exact ends_of_ran (hexec.trans ((if_neg (by omega)).trans (if_pos (decide_eq_true hcool)))) rfl
  case late => exact fun i hlow hhigh hup hin hwhole hl => sensorReadingTimeout_breaks hlow hhigh hup hin hwhole hl

end Sys2Proof.Machine
end

section
/-! SUPPORT. The notice registers of queue 4, with O46 assembled from them. -/

namespace Sys2Proof.Machine

/-- FLAGS shows a word or none, and the register read answers its bits (R498). -/
def noticeShows (valid poison : Bool) (w : BitVec 64) (s : State) : State :=
  send { s with queue := { s.queue with nValid := valid, nPoison := poison, nWord := w } } (.regRead (BitVec.ofNat 32 (b2n valid + 2 * b2n poison)))

/-- The queue whose word of failed parity is shown counts the failure (R492). -/
def parityNoted (bad : Bool) (x : Queue) : Queue := { x with parity := x.parity || bad, parErr := if bad then satInc x.parErr else x.parErr }

theorem noticeFlagsRead_exec (s : State) : exec .noticeFlagsRead s = ran (if (qOf s 4).rd = (qOf s 4).wr then noticeShows false false 0 (begin s) else
    noticeShows true ((qFront s 4).poison || parityFails (qFront s 4)) (qFront s 4).word (setQ 4 (parityNoted (parityFails (qFront s 4))) (begin s))) := by
  change execNoticeFlagsRead s = _
  unfold execNoticeFlagsRead
  by_cases h : (qOf (begin s) 4).rd = (qOf (begin s) 4).wr
  · simp only [if_pos h]
    exact (congrArg ran (if_pos h)).symm
  · simp only [if_neg h]
    exact (congrArg ran (if_neg h)).symm

section
variable {s : State} {x : Queue} (hx : s.queue.queues[4]? = some x)
include hx

/-- FLAGS read at RD = WR: no word is shown. -/
theorem noticeFlagsRead_empty (h : x.rd = x.wr) : Ends .noticeFlagsRead s (fun u => u = noticeShows false false 0 (begin s)) :=
  ends_of_ran ((noticeFlagsRead_exec s).trans (congrArg ran (if_pos (by rw [qOf_eq hx]; exact h)))) rfl

/-- FLAGS read at RD ≠ WR: the word at RD is shown, poisoned where its tag or its parity says so. -/
theorem noticeFlagsRead_word {w : QWord} (hw : qFront s 4 = w) (h : x.rd ≠ x.wr) : Ends .noticeFlagsRead s (fun u => ∃ t,
    QueueBecomes 4 (parityNoted (parityFails w) x) (begin s) t ∧ u = noticeShows true (w.poison || parityFails w) w.word t) := by
  subst hw
  exact ends_of_ran ((noticeFlagsRead_exec s).trans (congrArg ran (if_neg (by rw [qOf_eq hx]; exact h)))) ⟨_, setQ_becomes (s := begin s) _ hx, rfl⟩

/-- DATAHI answers the high half of the word shown, and steps RD past a word unread. -/
theorem noticeDatahiRead_steps : Ends .noticeDatahiRead s (fun u => ∃ t,
    QueueBecomes 4 { x with rd := if x.rd = x.wr then x.rd else x.rd + 1 } (begin s) t ∧ t.queue.nWord = s.queue.nWord ∧
    u = send t (.regRead (s.queue.nWord.extractLsb' 32 32))) := by
  have hexec : exec .noticeDatahiRead s = ran (noticeDatahi (begin s)) := rfl
  unfold noticeDatahi at hexec
  rw [show qOf (begin s) 4 = x from qOf_eq hx] at hexec
  by_cases h : x.rd = x.wr
  · simp only [if_pos h] at hexec ⊢
    exact ends_of_ran hexec ⟨begin s, ⟨hx, fun _ _ => rfl, rfl⟩, rfl, rfl⟩
  · simp only [if_neg h] at hexec ⊢
    exact ends_of_ran hexec ⟨_, setQ_becomes (s := begin s) (fun x => { x with rd := x.rd + 1 }) hx, rfl, rfl⟩

end

/-- The frame of a changed queue, read from the start of the step. -/
theorem QueueBecomes.rest {q : Nat} {y : Queue} {s u : State} (h : QueueBecomes q y (begin s) u) :
    { u with queue := s.queue, out := [] } = begin s := by
  obtain ⟨-, -, hframe⟩ := h
  exact congrArg (fun u : State => { u with out := [] }) hframe

/-- Settles O46: each register is its operation on queue 4 of `begin s`. -/
theorem noticeRegistersActOnQueueFour : Obligations.NoticeRegistersActOnQueueFour := by
  intro s x hx others rest w bad
  refine ⟨noticeFlagsRead_empty hx, ?word, ?datahi, ?mark, ?rewind, ?fits, ?refused⟩
  case word =>
    intro h
    refine (noticeFlagsRead_word hx (qFront_eq hx) h).mono ?_
    rintro u ⟨t, ht, rfl⟩
    refine ⟨rfl, rfl, rfl, ?_, ht.rest, ht.2.1, _, ht.1, rfl, rfl, rfl⟩
    have hout : t.out = [] := congrArg (·.out) ht.2.2
    change t.out ++ _ = [Out.regRead (if w.poison || parityFails w then 3 else 1)]
    rw [hout]
    cases w.poison || parityFails w <;> rfl
  case datahi =>
    refine (noticeDatahiRead_steps hx).mono ?_
    rintro u ⟨t, ht, -, rfl⟩
    exact ⟨congrArg (·.out ++ _) ht.2.2, ht.rest, ht.2.1, ht.1⟩
  case mark =>
    obtain ⟨hself, hother, hframe⟩ := setQ_becomes (s := begin s) (fun x => { x with mark := x.rd }) hx
    exact ends_of_ran rfl ⟨hself, hother, hframe⟩
  case rewind =>
    obtain ⟨hself, hother, hframe⟩ := setQ_becomes (s := begin s) (fun x => { x with rd := x.mark }) hx
    exact ends_of_ran rfl ⟨hself, hother, hframe⟩
  case fits =>
    intro n h
    obtain ⟨c, t, ht, hq⟩ := qRelease_fits (s := begin s) hx h
    have hrel : BitVec.ofNat 32 n.toNat = n.setWidth 32 := BitVec.ofNat_toNat 32 n
    obtain ⟨hself, hother, -⟩ := id hq
    unfold afterRelease at hself
    rw [hrel] at hself
    exact ends_of_ran (congrArg ran (releaseWords_of_fits ht)) ⟨⟨_, hself, rfl, rfl, rfl, rfl, rfl⟩, hother, hq.rest⟩
  case refused =>
    intro n h
    have hq := setQ_becomes (s := begin s) (fun x => { x with releaseErr := true }) hx
    obtain ⟨hself, hother, -⟩ := id hq
    exact ends_of_ran (congrArg ran (releaseWords_of_refused (qRelease_refused (s := begin s) hx h))) ⟨_, rfl, hself, hother, hq.rest⟩

end Sys2Proof.Machine
end

section
/-! SUPPORT. Register writes (R518, R637, R638), with O45 assembled from them. -/

namespace Sys2Proof.Machine

/-! ## The dwords of an access -/

section
variable {off : BitVec 24} {data : BitVec 64} {be : Byte} {s : State}

theorem writtenByte_add (off : BitVec 24) (data : BitVec 64) (be : Byte) (k : Nat) : writtenByte off data be (off.toNat + k) =
    if be.getLsbD k then some (data.extractLsb' (8 * k) 8) else none := by
  have hk : off.toNat + k - off.toNat = k := Nat.add_sub_cancel_left ..
  have hbit : (off.toNat ≤ off.toNat + k ∧ off.toNat + k < off.toNat + 8 ∧ be.getLsbD k = true) ↔ be.getLsbD k = true :=
    ⟨fun h => h.2.2, fun h => ⟨Nat.le_add_right .., Nat.add_lt_add_left (BitVec.lt_of_getLsbD h) _, h⟩⟩
  unfold writtenByte
  rw [hk]
  exact if_congr hbit rfl rfl

/-- Four bytes in a row are the dword at their place. -/
theorem bytes_dword (data : BitVec 64) (k : Nat) :
    data.extractLsb' (8 * (k + 3)) 8 ++ data.extractLsb' (8 * (k + 2)) 8 ++ data.extractLsb' (8 * (k + 1)) 8 ++ data.extractLsb' (8 * k) 8 =
      data.extractLsb' (8 * k) 32 := by
  ext i hi
  simp only [BitVec.getElem_append, BitVec.getElem_extractLsb']
  split
  · rfl
  · split
    · congr 1; omega
    · split <;> congr 1 <;> omega

/-- What the four enables of a dword make of it: nothing, a write, or a flagged partial access. -/
theorem accessDword_add (off : BitVec 24) (data : BitVec 64) (be : Byte) (k : Nat) (s : State) : accessDword off data be (off.toNat + k) s =
    if be.getLsbD k = false ∧ be.getLsbD (k + 1) = false ∧ be.getLsbD (k + 2) = false ∧ be.getLsbD (k + 3) = false then s
    else if be.getLsbD k = true ∧ be.getLsbD (k + 1) = true ∧ be.getLsbD (k + 2) = true ∧ be.getLsbD (k + 3) = true then
      writeDword off (off.toNat + k) (data.extractLsb' (8 * k) 32) s
    else flagAccess false off s := by
  unfold accessDword
  simp only [Nat.add_assoc, writtenByte_add]
  rw [← bytes_dword]
  cases be.getLsbD k <;> cases be.getLsbD (k + 1) <;> cases be.getLsbD (k + 2) <;> cases be.getLsbD (k + 3) <;> rfl

theorem accessDword_none {k : Nat} (h : ∀ j, k ≤ j → j < k + 4 → be.getLsbD j = false) : accessDword off data be (off.toNat + k) s = s :=
  (accessDword_add off data be k s).trans (if_pos ⟨h k (by omega) (by omega), h _ (by omega) (by omega), h _ (by omega) (by omega), h _ (by omega) (by omega)⟩)

theorem accessDword_whole {k : Nat} (h : ∀ j, k ≤ j → j < k + 4 → be.getLsbD j = true) :
    accessDword off data be (off.toNat + k) s = writeDword off (off.toNat + k) (data.extractLsb' (8 * k) 32) s := by
  have h0 := h k (by omega) (by omega)
  refine (accessDword_add off data be k s).trans ((if_neg (fun hn => ?_)).trans (if_pos ⟨h0, h _ (by omega) (by omega), h _ (by omega) (by omega),
    h _ (by omega) (by omega)⟩))
  exact Bool.false_ne_true (hn.1.symm.trans h0)

/-- The dword that holds the address, then the next one where it has an address. -/
theorem registerWrite_exec {port : Fin 4} (hw : hasWindow s port = true) (h4 : off.toNat % 4 = 0) : exec (.registerWrite port off data be) s =
    ran (if off.toNat + 4 < 2 ^ 24 then accessDword off data be (off.toNat + 4) (accessDword off data be off.toNat (begin s))
      else accessDword off data be off.toNat (begin s)) := by
  have hexec : exec (.registerWrite port off data be) s = execRegisterWrite port off data be s := rfl
  have ho : 4 * (off.toNat / 4) = off.toNat := by omega
  have hlast (t : State) : accessDword off data be (off.toNat + 8) t = t := accessDword_none (fun j h _ => BitVec.getLsbD_of_ge be j h)
  refine hexec.trans ((if_neg (by rw [show hasWindow (begin s) port = hasWindow s port from rfl, hw]; decide)).trans ?_)
  rw [ho]
  simp only [List.foldl_cons, List.foldl_nil, if_pos off.isLt, hlast, ite_self]

/-- No enable above the first dword: that dword is the whole access. -/
theorem registerWrite_low {port : Fin 4} (hw : hasWindow s port = true) (h4 : off.toNat % 4 = 0) (hb : ∀ j, 4 ≤ j → be.getLsbD j = false) :
    exec (.registerWrite port off data be) s = ran (accessDword off data be off.toNat (begin s)) := by
  rw [registerWrite_exec hw h4, accessDword_none (fun j h _ => hb j h), ite_self]

theorem writeDword_closed {o : Nat} {v : Word} (h : injectClosed s o = true) : writeDword off o v s = s := if_pos h

theorem writeDword_reserved {o : Nat} {v : Word} (hc : injectClosed s o = false) (hr : isRegister s o = false) :
    writeDword off o v s = flagAccess true off s := (if_neg (Bool.eq_false_iff.1 hc)).trans (if_neg (Bool.eq_false_iff.1 hr))

theorem writeDword_register {o : Nat} {v : Word} (hc : injectClosed s o = false) (hr : isRegister s o = true) :
    writeDword off o v s = writeReg o v s := (if_neg (Bool.eq_false_iff.1 hc)).trans (if_pos hr)

/-- A whole first dword. -/
theorem registerWrite_whole {port : Fin 4} (hw : hasWindow s port = true) (h4 : off.toNat % 4 = 0) :
    exec (.registerWrite port off data 0x0F) s = ran (writeDword off off.toNat (data.extractLsb' 0 32) (begin s)) := by
  have hlow : ∀ j, j < 4 → (0x0F : Byte).getLsbD j = true := by decide
  rw [registerWrite_low hw h4 (fun j hj => ?high)]
  · exact congrArg ran (accessDword_whole (k := 0) (fun j _ hj => hlow j (by omega)))
  · obtain h | h := Nat.lt_or_ge j 8
    · have h8 : ∀ j, j < 8 → 4 ≤ j → (0x0F : Byte).getLsbD j = false := by decide
      exact h8 j h hj
    · exact BitVec.getLsbD_of_ge _ j h

/-- Both dwords whole, in ascending order. -/
theorem registerWrite_both {port : Fin 4} (hw : hasWindow s port = true) (h4 : off.toNat % 4 = 0) (hhigh : off.toNat + 4 < 2 ^ 24) :
    exec (.registerWrite port off data 0xFF) s =
      ran (writeDword off (off.toNat + 4) (data.extractLsb' 32 32) (writeDword off off.toNat (data.extractLsb' 0 32) (begin s))) := by
  have hall : ∀ j, j < 8 → (0xFF : Byte).getLsbD j = true := by decide
  have hlow (t : State) : accessDword off data 0xFF off.toNat t = writeDword off off.toNat (data.extractLsb' 0 32) t :=
    accessDword_whole (k := 0) (fun j _ hj => hall j (by omega))
  rw [registerWrite_exec hw h4, if_pos hhigh, accessDword_whole (fun j _ hj => hall j (by omega)), hlow]

/-- A first dword with some enables and not all is flagged. -/
theorem registerWrite_partial {port : Fin 4} (hw : hasWindow s port = true) (h4 : off.toNat % 4 = 0) (hsome : be &&& 0x0F ≠ 0)
    (hall : be &&& 0x0F ≠ 0x0F) (hlow : be &&& 0xF0 = 0) :
    exec (.registerWrite port off data be) s = ran (flagAccess false off (begin s)) := by
  have hcases : ∀ be : Byte, be &&& 0x0F ≠ 0 → be &&& 0x0F ≠ 0x0F → be &&& 0xF0 = 0 → (∀ j, j < 8 → 4 ≤ j → be.getLsbD j = false) ∧
      ¬ (be.getLsbD 0 = false ∧ be.getLsbD 1 = false ∧ be.getLsbD 2 = false ∧ be.getLsbD 3 = false) ∧
      ¬ (be.getLsbD 0 = true ∧ be.getLsbD 1 = true ∧ be.getLsbD 2 = true ∧ be.getLsbD 3 = true) := by decide
  obtain ⟨hhigh, hany, hwhole⟩ := hcases be hsome hall hlow
  rw [registerWrite_low hw h4 (fun j hj => ?_)]
  · exact congrArg ran ((accessDword_add off data be 0 _).trans ((if_neg hany).trans (if_neg hwhole)))
  · obtain h | h := Nat.lt_or_ge j 8
    · exact hhigh j h hj
    · exact BitVec.getLsbD_of_ge _ j h

end

/-! ## Fields -/

/-- A field outside its range is ignored. -/
theorem keepUnless_field {n : Nat} (v : Word) (start lo hi : Nat) (old : BitVec n) :
    keepUnless (within lo hi (bits v.toNat start n)) (v.extractLsb' start n) old =
      if lo ≤ (v.extractLsb' start n).toNat ∧ (v.extractLsb' start n).toNat ≤ hi then v.extractLsb' start n else old := by
  unfold keepUnless within bits
  rw [BitVec.extractLsb'_toNat]
  simp only [Bool.and_eq_true, Nat.ble_eq]

/-- A whole dword written to a register of one of the runs that every device has. -/
theorem registerWrite_run {port : Fin 4} {off : BitVec 24} {o : Nat} {data : BitVec 64} {s : State} (hw : hasWindow s port = true)
    (ho : off.toNat = o) (h4 : o % 4 = 0) (hc : injectClosed s o = false) (hr : registerRuns.any (inRun o) = true) :
    exec (.registerWrite port off data 0x0F) s = ran (writeReg o (data.extractLsb' 0 32) (begin s)) := by
  subst ho
  have hreg : isRegister (begin s) off.toNat = true := by
    unfold isRegister
    rw [hr]
    rfl
  exact (registerWrite_whole hw h4).trans (congrArg ran (writeDword_register hc hreg))

theorem flagAccess_begin (reserved : Bool) (off : BitVec 24) (s : State) : flagAccess reserved off (begin s) = { begin s with id := { s.id with
    errAddr := if s.id.errPartial || s.id.errReserved then s.id.errAddr else off
    errPartial := s.id.errPartial || !reserved, errReserved := s.id.errReserved || reserved } } := rfl

/-- Settles O45: the first access by its dwords, the fields by the registers they stand in. -/
theorem registerWritesReachRegisters : Obligations.RegisterWritesReachRegisters := by
  refine ⟨?access, ?fields⟩
  case' access =>
    intro s port off data be lo hi flagged
    refine ⟨fun hw => ?closed, fun hw h4 => ⟨?none, ?whole, ?both, ?part⟩⟩
  case' fields =>
    intro s port data hw v writes
    refine ⟨?scratch, ?hold, ?therm, ?enable, ?inject, ?injectClosed⟩
  case closed =>
    have hexec : exec (.registerWrite port off data be) s = execRegisterWrite port off data be s := rfl
    exact ends_of_ran (hexec.trans (if_pos (by rw [show hasWindow (begin s) port = hasWindow s port from rfl, hw]; rfl))) rfl
  case none =>
    rintro rfl
    have hnone : accessDword off data 0 (off.toNat + 0) (begin s) = begin s := accessDword_none (fun j _ _ => BitVec.getLsbD_zero)
    exact ends_of_ran (registerWrite_low hw h4 (fun j _ => BitVec.getLsbD_zero)) hnone
  case whole =>
    rintro rfl
    have hexec := registerWrite_whole (data := data) hw h4
    refine ⟨fun hc => ends_of_ran hexec ?_, fun hc hr => ends_of_ran hexec ?_, fun hc hr => ends_of_ran hexec ?_⟩
    · exact writeDword_closed hc
    · exact (writeDword_reserved (s := begin s) hc hr).trans (flagAccess_begin true off s)
    · exact writeDword_register hc hr
  case both =>
    rintro rfl hhigh
    exact ends_of_ran (registerWrite_both hw h4 hhigh) rfl
  case part =>
    intro hsome hall hlow
    refine ends_of_ran (registerWrite_partial hw h4 hsome hall hlow) (flagAccess_begin false off s)
  case scratch => exact ends_of_ran (registerWrite_run (o := 0x1020) hw rfl rfl rfl (by decide)) rfl
  case hold =>
    refine ends_of_ran (registerWrite_run (o := 0x10014) hw rfl rfl rfl (by decide)) ?_
    exact congrArg (fun x => ({ begin s with time := { s.time with holdLim := x } } : State)) (keepUnless_field v 0 50 4000 s.time.holdLim)
  case therm =>
    refine ends_of_ran (registerWrite_run (o := 0x30008) hw rfl rfl rfl (by decide)) ?_
    exact congrArg₂ (fun x y => ({ begin s with therm := { s.therm with notice := x, grace := y } } : State))
      (keepUnless_field v 0 85 110 s.therm.notice) (keepUnless_field v 8 1 1000 s.therm.grace)
  case enable => exact ends_of_ran (registerWrite_run (o := 0x60004) hw rfl rfl rfl (by decide)) rfl
  case inject =>
    intro hpl
    have hc : injectClosed s 0x70000 = false := by
      change (_ && Nat.ble 1 s.sec.pl.toNat) = false
      rw [hpl]
      rfl
    exact ends_of_ran (registerWrite_run (o := 0x70000) hw rfl rfl hc (by decide)) rfl
  case injectClosed =>
    intro hpl
    have hpl1 : 1 ≤ s.sec.pl.toNat := Nat.one_le_iff_ne_zero.2 (fun h => hpl (BitVec.eq_of_toNat_eq h))
    have hc : injectClosed (begin s) 0x70000 = true := Nat.ble_eq_true_of_le hpl1
    have hexec := registerWrite_whole (off := 0x070000) (data := data) hw (by decide)
    exact ends_of_ran hexec (writeDword_closed hc)

end Sys2Proof.Machine
end

section
/-! SUPPORT. What becomes of a peer message before it is acted on, with O47 assembled from it. -/

namespace Sys2Proof.Machine

/-- The row takes a message with the header `h`; `m` is what the CRC covers, where the window checks it. -/
def TakesMessage (i : Instr) (s : State) (h : MsgHdr) (m : Option PeerMsg) : Prop := ∃ act, exec i s = receive h m act s

/-- Two headers agree in what says whether their message was consumed before. -/
def SamePlace (h h' : MsgHdr) : Prop := h'.pbr = h.pbr ∧ h'.ring = h.ring ∧ h'.mseq = h.mseq

section
variable {i : Instr} {s : State} {h : MsgHdr} {m : Option PeerMsg}

theorem TakesMessage.no_window (hi : TakesMessage i s h m) (hs : hasSpan s = false) : Ends i s (fun u => u = begin s) := by
  obtain ⟨act, hexec⟩ := hi
  exact ends_of_ran (hexec.trans (if_pos (by rw [show hasSpan (begin s) = hasSpan s from rfl, hs]; rfl))) rfl

/-- A receive with a window, opened up to the search for the sender. -/
theorem receive_window {act : Nat → State → State} (hs : hasSpan s = true) : receive h m act s = match senderOf s h.pbr with
    | none => ran (event { code := 0x0303, unit := uPort 0, p0 := h.pbr.toNat } (begin s))
    | some r =>
      if r = ownIndex s ∨ m.any (fun m => h.crc != msgCrc h m) ∨
        h.mseq.toNat ≤ (if h.ring then (peerOf s r).gotData else (peerOf s r).gotCtl).toNat then ran (begin s)
      else ran (mediaNext (act r (consumed r h s))) :=
  (if_neg (by rw [show hasSpan (begin s) = hasSpan s from rfl, hs]; decide)).trans rfl

theorem receive_unknown {act : Nat → State → State} (hs : hasSpan s = true) (hr : senderOf s h.pbr = none) :
    receive h m act s = ran (event { code := 0x0303, unit := uPort 0, p0 := h.pbr.toNat } (begin s)) := by
  rw [receive_window hs, hr]

theorem receive_known {act : Nat → State → State} {r : Nat} (hs : hasSpan s = true) (hr : senderOf s h.pbr = some r) : receive h m act s =
    if r = ownIndex s ∨ m.any (fun m => h.crc != msgCrc h m) ∨
      h.mseq.toNat ≤ (if h.ring then (peerOf s r).gotData else (peerOf s r).gotCtl).toNat then ran (begin s)
    else ran (mediaNext (act r (consumed r h s))) := by
  rw [receive_window hs, hr]

theorem TakesMessage.unknown (hi : TakesMessage i s h m) (hs : hasSpan s = true) (hr : senderOf s h.pbr = none) :
    Ends i s (fun u => u = event { code := 0x0303, unit := uPort 0, p0 := h.pbr.toNat } (begin s)) := by
  obtain ⟨act, hexec⟩ := hi
  exact ends_of_ran (hexec.trans (receive_unknown hs hr)) rfl

theorem TakesMessage.discarded {r : Nat} (hi : TakesMessage i s h m) (hs : hasSpan s = true) (hr : senderOf s h.pbr = some r)
    (hd : m.any (fun m => h.crc != msgCrc h m) = true ∨
      h.mseq.toNat ≤ (if h.ring then (peerOf s r).gotData else (peerOf s r).gotCtl).toNat) : Ends i s (fun u => u = begin s) := by
  obtain ⟨act, hexec⟩ := hi
  exact ends_of_ran (hexec.trans ((receive_known hs hr).trans (if_pos (.inr hd)))) rfl

end

/-- Settles O47: every row takes its message from the window, where it is judged before its row acts. -/
theorem peerMessagesAreJudged : Obligations.PeerMessagesAreJudged := by
  intro s h lfn seq bseq t live tag crc st lk bound adm act b llns ch pay line count lln ward part parts status body cyc es rnums l checked all
  have hchecked : ∀ e ∈ checked, TakesMessage e.1 s h (some e.2) := by
    simp only [checked, List.forall_mem_cons]
    exact ⟨⟨_, (rfl : execHeartbeat h st lk bound live adm act s = receive ..)⟩,
      ⟨_, (rfl : execPatchRelease h seq llns s = receive ..)⟩,
      ⟨_, (rfl : execDeltaChunkRequest h lfn t seq s = receive ..)⟩,
      ⟨_, (rfl : execDeltaChunkData h lfn t seq ch pay s = receive ..)⟩,
      ⟨_, (rfl : execDeltaChunkCommit h lfn t seq s = receive ..)⟩,
      ⟨_, (rfl : execDeltaChunkDone h lfn t seq s = receive ..)⟩,
      ⟨_, (rfl : execDeltaChunkAbort h lfn t seq s = receive ..)⟩,
      ⟨_, (rfl : execDeltaAckAdmitted h lfn seq live s = receive ..)⟩,
      ⟨_, (rfl : execDeltaAckBusy h lfn seq live s = receive ..)⟩,
      ⟨_, (rfl : execDeltaAckStaged h lfn seq live s = receive ..)⟩,
      ⟨_, (rfl : execDeltaAckCommitted h lfn seq live s = receive ..)⟩,
      ⟨_, (rfl : execDeltaAckDone h lfn seq live s = receive ..)⟩,
      ⟨_, (rfl : execDeltaAckAborted h lfn seq live s = receive ..)⟩,
      ⟨_, (rfl : execDeltaAckBatch h bseq live s = receive ..)⟩,
      ⟨_, (rfl : execDeltaAckResend h bseq live s = receive ..)⟩,
      ⟨_, (rfl : execReconReadBase h tag lfn line count s = receive ..)⟩,
      ⟨_, (rfl : execReconReadRecord h tag lln ward s = receive ..)⟩,
      ⟨_, (rfl : execReconReadMap h tag ward t act s = receive ..)⟩,
      ⟨_, (rfl : execReconReadBulk h tag lfn line count s = receive ..)⟩,
      ⟨_, (rfl : execReconData h tag part parts status body s = receive ..)⟩,
      ⟨_, (rfl : execUnhitchMessage h t rnums s = receive ..)⟩,
      fun _ h => absurd h List.not_mem_nil⟩
  have hbatch : TakesMessage (.patchBatch h b) s h none := ⟨_, (rfl : execPatchBatch h b s = receive ..)⟩
  have htable : TakesMessage (.timetable h cyc seq es crc) s { h with crc := if es.length = 64 then crc else ~~~ timetableCrc h cyc seq es }
      (some (.timetable cyc.toNat seq es)) := ⟨_, (rfl : execTimetable h cyc seq es crc s = receive ..)⟩
  have hall : ∀ i ∈ all, ∃ h' m, SamePlace h h' ∧ TakesMessage i s h' m := by
    intro i hi
    obtain hi | hi := List.mem_append.1 hi
    · obtain ⟨e, he, rfl⟩ := List.mem_map.1 hi
      exact ⟨_, _, ⟨rfl, rfl, rfl⟩, hchecked e he⟩
    · obtain rfl | hi := List.mem_cons.1 hi
      · exact ⟨_, _, ⟨rfl, rfl, rfl⟩, hbatch⟩
      · obtain rfl := List.mem_singleton.1 hi
        exact ⟨{ h with crc := if es.length = 64 then crc else ~~~ timetableCrc h cyc seq es }, _, ⟨rfl, rfl, rfl⟩, htable⟩
  refine ⟨fun hs i hi => ?_, fun hs hr i hi => ?_, fun r hs hr => ⟨fun hm i hi => ?_, fun e he hcrc => ?_, fun hbad => ?_⟩⟩
  · obtain ⟨h', m, -, htakes⟩ := hall i hi
    exact htakes.no_window hs
  · obtain ⟨h', m, ⟨hpbr, -, -⟩, htakes⟩ := hall i hi
    rw [← hpbr] at hr ⊢
    exact htakes.unknown hs hr
  · obtain ⟨h', m, ⟨hpbr, hring, hmseq⟩, htakes⟩ := hall i hi
    rw [← hpbr] at hr
    rw [← hring, ← hmseq] at hm
    exact htakes.discarded hs hr (.inr hm)
  · exact (hchecked e he).discarded hs hr (.inl (bne_iff_ne.2 hcrc))
  · refine htable.discarded hs hr (.inl (bne_iff_ne.2 ?_))
    change _ ≠ timetableCrc h cyc seq es
    split
    · next hlen => exact hbad.resolve_left (not_not_intro hlen)
    · intro h
      have hbit := congrArg (·.getLsbD 0) h
      simp at hbit

end Sys2Proof.Machine
end

section
/-! SUPPORT. The SPDM responder and the IDE keys, with O25 assembled from its stages. -/

namespace Sys2Proof.Machine

/-! ## The mailbox of a port -/

section
variable {p : Fin 4} {s : State} {i : Instr} {P : State → Prop}

/-- The port's mailbox takes requests: its link is up, and the device's management is ready and not in reset. -/
def DoeOpen (p : Nat) (s : State) : Prop := (portOf s p).up = true ∧ s.host.mailboxReady = true ∧ s.host.mgmtReset = false

theorem onDoe_open {p : Nat} {f : State → State} (h : DoeOpen p s) : onDoe p f s = ran (f (begin s)) := by
  obtain ⟨hup, hready, hreset⟩ := h
  refine if_neg ?_
  rw [show portOf (begin s) p = portOf s p from rfl, show (begin s).host = s.host from rfl, hup, hready, hreset]
  decide

theorem DoeOpen.ends {f : State → State} (h : DoeOpen p s) (hi : exec i s = onDoe p f s) (hP : P (f (begin s))) : Ends i s P :=
  ends_of_ran (hi.trans (onDoe_open h)) hP

/-- A request that needs the algorithms, once they are agreed. -/
theorem DoeOpen.ready {f : State → State} (h : DoeOpen p s) (hr : spdmReady s p = true) (hi : exec i s = onDoe p (afterAlgs p f) s)
    (hP : P (f (begin s))) : Ends i s P :=
  ends_of_ran (hi.trans ((onDoe_open h).trans (congrArg ran (if_pos hr)))) hP

theorem DoeOpen.unready {f : State → State} (h : DoeOpen p s) (hr : spdmReady s p = false) (hi : exec i s = onDoe p (afterAlgs p f) s)
    (hP : P (spdmErr p 4 (begin s))) : Ends i s P :=
  ends_of_ran (hi.trans ((onDoe_open h).trans (congrArg ran (if_neg (Bool.eq_false_iff.1 hr))))) hP

theorem inSession_same {p : Nat} {x : Word} {f : State → State} (h : (portOf s p).spdm = .session x) : inSession p x f s = f s := by
  unfold inSession
  rw [h]
  exact if_pos rfl

theorem inSession_none {p : Nat} {x : Word} {f : State → State} (h : ∀ y, (portOf s p).spdm ≠ .session y) : inSession p x f s = spdmErr p 2 s := by
  unfold inSession
  split
  · next y hy => exact absurd hy (h y)
  · rfl

/-- A request of a session, within it. -/
theorem DoeOpen.inside {x : Word} {f : State → State} (h : DoeOpen p s) (hs : (portOf s p).spdm = .session x)
    (hi : exec i s = onDoe p (inSession p x f) s) (hP : P (f (begin s))) : Ends i s P :=
  ends_of_ran (hi.trans ((onDoe_open h).trans (congrArg ran (inSession_same hs)))) hP

/-- A request of a session, with none open. -/
theorem DoeOpen.outside {x : Word} {f : State → State} (h : DoeOpen p s) (hs : ∀ y, (portOf s p).spdm ≠ .session y)
    (hi : exec i s = onDoe p (inSession p x f) s) (hP : P (spdmErr p 2 (begin s))) : Ends i s P :=
  ends_of_ran (hi.trans ((onDoe_open h).trans (congrArg ran (inSession_none hs)))) hP

end

/-! ## Requests before a session -/

/-- Settles O25: each request by the stage it needs. -/
theorem spdmRowsAct : Obligations.SpdmRowsAct := by
  refine ⟨?stages, ?sessions⟩
  case' stages =>
    intro p s hup hready hreset b sends stage
    have hopen : DoeOpen p s := ⟨hup, hready, hreset⟩
    refine ⟨?version, fun w hs => ?caps, fun hs => ?algs, fun hr => ⟨?digests, fun off len hoff => ?cert, fun n => ?challenge,
      ?meas0, ?meas3, fun n => ?meas5, fun r ex hnone hlen => ?keyExchange⟩, fun hr => ?unready, fun x hs => ⟨?finish, ?finishBad⟩⟩
  case' sessions =>
    intro p x s hup hready hreset b sends ide
    have hopen : DoeOpen p s := ⟨hup, hready, hreset⟩
    have hgo (hs : (portOf s p).spdm = .session x) (hflit : (portOf s p).flit256 = true) :
        ¬ ((portOf s p).spdm ≠ .session x ∨ (!(portOf s p).flit256) = true) := by simp [hs, hflit]
    refine ⟨fun hs => ⟨fun op h1 h3 => ?update, ?beat, ?close, fun hflit sub key => ⟨?prog, fun hkey => ?go, ?stop⟩⟩,
      fun hnone => ⟨?noBeat, ?noClose, fun op => ?noUpdate, fun op sub key => ?noIde⟩⟩
  case version => exact hopen.ends (rfl : _ = execGetVersion p s) rfl
  case caps => 
    have hexec : exec (.getCapabilities p w) s = execGetCapabilities p w s := rfl
    exact hopen.ends hexec (if_pos hs)
  case algs => 
    have hexec : exec (.negotiateAlgorithms p true) s = execNegotiateAlgorithms p true s := rfl
    exact hopen.ends hexec ((if_neg (not_not_intro hs)).trans rfl)
  case digests =>
    have hexec : exec (.getDigests p) s = execGetDigests p s := rfl
    exact hopen.ready hr hexec rfl
  case cert =>
    have hexec : exec (.getCertificate p 0 off len) s = execGetCertificate p 0 off len s := rfl
    refine hopen.ready hr hexec ⟨_, rfl, (if_neg ?_).trans rfl⟩
    rintro (h | h)
    · exact h rfl
    · omega
  case challenge =>
    have hexec : exec (.challenge p 0 n) s = execChallenge p 0 n s := rfl
    exact hopen.ready hr hexec rfl
  case meas0 =>
    have hexec : exec (.getMeasurements p 0 none) s = execGetMeasurements p 0 none s := rfl
    exact hopen.ready hr hexec rfl
  case meas3 =>
    have hexec : exec (.getMeasurements p 3 none) s = execGetMeasurements p 3 none s := rfl
    exact hopen.ready hr hexec rfl
  case meas5 =>
    have hexec : exec (.getMeasurements p 5 (some n)) s = execGetMeasurements p 5 (some n) s := rfl
    refine hopen.ready hr hexec ⟨_, rfl, (if_neg (by decide)).trans ?_⟩
    change spdmSend p (.measurements [(5, measurement b 5)] (Config.sign (bytesOf 32 n.toNat ++ ((bytesOf 1 5 ++ measurement b 5) ++ [])))) b = _
    rw [List.append_nil]
    rfl
  case keyExchange =>
    have hexec : exec (.keyExchange p r ex) s = execKeyExchange p r ex s := rfl
    refine hopen.ready hr hexec ⟨BitVec.ofNat 16 (Config.freeNat s.free), bytesOf 96 (drawBits 768 (drawBits 16 b).2).1.toNat, bytesOf_length _ _, ?_⟩
    split
    · next x hx => exact absurd hx (hnone x)
    · exact (if_neg (not_not_intro hlen)).trans rfl
  case unready =>
    have hexec : exec (.getDigests p) s = execGetDigests p s := rfl
    exact hopen.unready hr hexec rfl
  case finish =>
    have hexec : exec (.finish p x true) s = execFinish p x true s := rfl
    refine hopen.ends hexec ?_
    rw [show (portOf (begin s) p).spdm = .handshake x from hs]
    exact (if_neg (not_not_intro rfl)).trans rfl
  case finishBad =>
    have hexec : exec (.finish p x false) s = execFinish p x false s := rfl
    refine hopen.ends hexec ?_
    rw [show (portOf (begin s) p).spdm = .handshake x from hs]
    exact (if_neg (not_not_intro rfl)).trans rfl
  case update =>
    have hexec : exec (.keyUpdate p x op) s = execKeyUpdate p x op s := rfl
    exact hopen.inside hs hexec (if_pos ⟨h1, h3⟩)
  case beat =>
    have hexec : exec (.spdmHeartbeat p x) s = execSpdmHeartbeat p x s := rfl
    exact hopen.inside hs hexec rfl
  case close =>
    have hexec : exec (.endSession p x) s = execEndSession p x s := rfl
    exact hopen.inside hs hexec rfl
  case prog =>
    have hexec : exec (.ideKm p x .keyProg sub key) s = execIdeKm p x .keyProg sub key s := rfl
    exact hopen.ends hexec ((if_neg (hgo hs hflit)).trans rfl)
  case go =>
    have hexec : exec (.ideKm p x .setGo sub key) s = execIdeKm p x .setGo sub key s := rfl
    refine hopen.ends hexec ((if_neg (hgo hs hflit)).trans ?_)
    dsimp only
    rw [show (sfind (portOf (begin s) p).ideKeys sub.toNat).isSome = true from hkey]
    rfl
  case stop =>
    have hexec : exec (.ideKm p x .setStop sub key) s = execIdeKm p x .setStop sub key s := rfl
    exact hopen.ends hexec ((if_neg (hgo hs hflit)).trans rfl)
  case noBeat =>
    have hexec : exec (.spdmHeartbeat p x) s = execSpdmHeartbeat p x s := rfl
    exact hopen.outside hnone hexec rfl
  case noClose =>
    have hexec : exec (.endSession p x) s = execEndSession p x s := rfl
    exact hopen.outside hnone hexec rfl
  case noUpdate =>
    have hexec : exec (.keyUpdate p x op) s = execKeyUpdate p x op s := rfl
    exact hopen.outside hnone hexec rfl
  case noIde =>
    have hexec : exec (.ideKm p x op sub key) s = execIdeKm p x op sub key s := rfl
    exact hopen.ends hexec (if_pos (.inl (hnone x)))

end Sys2Proof.Machine
end

section
/-! SUPPORT. CXL and FM API commands, taken and answered, with O21 assembled from them. -/

namespace Sys2Proof.Machine

section
variable {c : Caller} {fm memory : Bool} {s t : State} {i : Instr} {rc : Rc} {o : CxlOut} {act : State → CAns × State}

theorem onLd_named {ldb : Byte} {n : Nat} {f : Nat → State → CAns × State} (h : ldNamed s c ldb.toNat = some n) :
    onLd c ldb f (begin s) = f n (begin s) := by
  unfold onLd
  rw [show ldNamed (begin s) c ldb.toNat = some n from h]

/-- A taken command with nothing to follow: its effect and its answer. -/
theorem onCxl_ran (h : Taken c s fm memory) (hact : act (begin s) = ((rc, o), t)) : onCxl c fm memory act id s = ran (send t (.cxl c rc o)) := by
  rw [onCxl_taken h, hact]
  exact congrArg ran (ite_self _)

/-- A taken command that succeeds: its effect, its answer, and what follows. -/
theorem onCxl_does {after : State → State} (h : Taken c s fm memory) (hact : act (begin s) = ((.success, .none), t)) :
    onCxl c fm memory act after s = ran (after (send t (.cxl c .success .none))) := by
  rw [onCxl_taken h, hact]
  exact congrArg ran (if_pos (.inl rfl))

theorem Taken.does (h : Taken c s fm memory) (hi : exec i s = onCxl c fm memory act id s) (hact : act (begin s) = ((.success, .none), t)) :
    Ends i s (Does c t) := ends_of_ran (hi.trans (onCxl_ran h hact)) rfl

theorem Taken.tells (h : Taken c s fm memory) (hi : exec i s = onCxl c fm memory act id s) (hact : act (begin s) = ((rc, o), begin s)) :
    Ends i s (Tells c s rc o) := ends_of_ran (hi.trans (onCxl_ran h hact)) rfl

/-- A taken command of a named LD that only answers. -/
theorem Taken.ldTells {ldb : Byte} {n : Nat} {f : Nat → State → CAns × State} (h : Taken c s fm memory) (hn : ldNamed s c ldb.toNat = some n)
    (hi : exec i s = onCxl c fm memory (onLd c ldb f) id s) (hact : f n (begin s) = ((rc, o), begin s)) : Ends i s (Tells c s rc o) :=
  h.tells hi ((onLd_named hn).trans hact)

/-- A taken command of a named LD that acts. -/
theorem Taken.ldDoes {ldb : Byte} {n : Nat} {f : Nat → State → CAns × State} (h : Taken c s fm memory) (hn : ldNamed s c ldb.toNat = some n)
    (hi : exec i s = onCxl c fm memory (onLd c ldb f) id s) (hact : f n (begin s) = ((.success, .none), t)) : Ends i s (Does c t) :=
  h.does hi ((onLd_named hn).trans hact)

end

/-! ## What the queries show -/

/-- The poison of an LD's addresses in a range, as GET_POISON_LIST lists it. -/
def poisonShown (d : Ld) (a n : Nat) : List (Nat × PoisonSrc) :=
  ((d.poison.filterMap (fun p => (addressOf d p.1).map (fun a => (a, p.2)))).filter (fun p => Nat.ble a p.1 && Nat.blt p.1 (a + n))).mergeSort
    (fun a b => Nat.ble a.1 b.1)

theorem mem_poisonShown (d : Ld) (a n x : Nat) (src : PoisonSrc) : (x, src) ∈ poisonShown d a n ↔
    a ≤ x ∧ x < a + n ∧ ∃ lln, (lln, src) ∈ d.poison ∧ addressOf d lln = some x := by
  unfold poisonShown
  rw [List.mem_mergeSort, List.mem_filter, List.mem_filterMap]
  simp only [Option.map_eq_some_iff, Prod.mk.injEq, Bool.and_eq_true, Nat.ble_eq, Nat.blt_eq]
  constructor
  · rintro ⟨⟨p, hp, y, hy, rfl, rfl⟩, ha, hn⟩
    exact ⟨ha, hn, p.1, hp, hy⟩
  · rintro ⟨ha, hn, lln, hp, hy⟩
    exact ⟨⟨(lln, src), hp, x, hy, rfl, rfl⟩, ha, hn⟩

theorem getLsbD_setBit_true_ne {w i j : Nat} (x : BitVec w) (h : i ≠ j) : (setBit x i true).getLsbD j = x.getLsbD j := by
  unfold setBit
  rw [if_pos rfl, BitVec.getLsbD_or, BitVec.getLsbD_ofNat, Nat.testBit_two_pow_of_ne h, Bool.and_false, Bool.or_false]

/-- The bits set for a list of numbers. -/
theorem foldl_setBit {w j : Nat} (h : j < w) (l : List Nat) : (l.foldl (fun (m : BitVec w) p => setBit m p true) 0).getLsbD j = decide (j ∈ l) := by
  induction l using List.reverseRecOn with
  | nil => exact BitVec.getLsbD_zero
  | append_singleton l i ih =>
    rw [List.foldl_append, List.foldl_cons, List.foldl_nil]
    by_cases hj : i = j
    · subst hj
      rw [getLsbD_setBit_true _ h]
      simp
    · rw [getLsbD_setBit_true_ne _ hj, ih]
      simp [Ne.symm hj]

/-- A list that fits the answer is shown whole. -/
theorem take_fits {α : Type} {l : List α} {m : Nat} (h : 32 + 128 * l.length ≤ m) : l.take ((m - 32) / 128) = l :=
  List.take_of_length_le (by omega)

theorem ldRun_map {β : Type} (p : Fin 4) (f : Fin 16) (n : Nat) (s : State) (g : Ld → β) : (ldRun p f n).map (fun i => g (ldOf s i)) =
    ((List.range (min n (16 - f.val))).map (fun k => ldOf s (16 * p.val + f.val + k))).map g := by
  unfold ldRun ldIx
  rw [List.map_map, List.map_map]
  simp only [Function.comp_def, Nat.add_assoc]

/-- The slot of the area that runs, as GET_FW_INFO shows it. -/
def runningSlot (s : State) : Nat :=
  match s.fw.runArea with | some a => (if slotArea s 1 = a.val then 1 else 2) | none => 0

theorem runningSlot_none {s : State} (h : s.fw.runArea = none) : runningSlot s = 0 := by
  unfold runningSlot
  rw [h]

theorem slotArea_one_le (s : State) : slotArea s 1 ≤ 1 := by
  change (if areaSeq s 0 < areaSeq s 1 then 1 else 0) ≤ 1
  split <;> decide

/-- Two areas, two slots: the running slot is that of the running area. -/
theorem slotArea_runningSlot {s : State} {a : Fin 2} (h : s.fw.runArea = some a) : slotArea s (runningSlot s) = a.val := by
  have hslot : runningSlot s = if slotArea s 1 = a.val then 1 else 2 := by
    unfold runningSlot
    rw [h]
  rw [hslot]
  split
  · next h1 => exact h1
  · next h1 =>
    have hother : slotArea s 2 = 1 - slotArea s 1 := rfl
    have hle : slotArea s 1 ≤ 1 := slotArea_one_le s
    omega

/-- Settles O21: each query's answer is read off the state. -/
theorem cxlAndFmQueriesAnswer : Obligations.CxlAndFmQueriesAnswer := by
  refine ⟨?cxl, ?fm⟩
  case' cxl =>
    intro c ldb s i hn d
    refine ⟨fun h => ⟨?identify, ?health, fun log => ?records, ?policy, ?logs, fun off len hoff hlen => ?log, fun o ho => ?stamp,
      fun ho => ?noStamp, ?fw, ?dc, ?extents, fun op => ?unsupported⟩, fun h hd a n => ?poison, fun h hd a n => ?busy⟩
  case' fm =>
    intro c s h run
    refine ⟨?fmIdentify, ?ldInfo, fun p f n => ?allocs, fun p => ?qos, fun p => ?status, fun p f n => ?bw, fun p f n => ?limit,
      fun ldb i hn => ⟨?region, ?lists⟩⟩
  case identify => exact h.ldTells hn (rfl : _ = execIdentifyMemoryDevice c ldb s) rfl
  case health => exact h.ldTells hn (rfl : _ = execGetHealthInfo c ldb s) rfl
  case records =>
    refine (h.ldTells (i := .getEventRecords c ldb log) hn (rfl : _ = execGetEventRecords c ldb log s) rfl).mono (fun u hu => ⟨_, ?_, ?_, hu⟩)
    · exact List.take_prefix _ _
    · exact take_fits
  case policy => exact h.ldTells hn (rfl : _ = execGetEventInterruptPolicy c ldb s) rfl
  case logs => exact h.ldTells hn (rfl : _ = execGetSupportedLogs c ldb s) rfl
  case log =>
    have hgo : ¬ (4 * (celOf (begin s) c).length < off.toNat + len.toNat ∨ payloadMax c < len.toNat) := by
      change ¬ (4 * (celOf s c).length < off.toNat + len.toNat ∨ payloadMax c < len.toNat)
      omega
    exact h.ldTells hn (rfl : _ = execGetLog c ldb off len s) (if_neg hgo)
  case stamp =>
    refine h.ldTells hn (rfl : _ = execGetTimestamp c ldb s) ?_
    rw [show (ldOf (begin s) i).tsOffset = some o from ho]
    rfl
  case noStamp =>
    refine h.ldTells hn (rfl : _ = execGetTimestamp c ldb s) ?_
    rw [show (ldOf (begin s) i).tsOffset = none from ho]
    rfl
  case fw =>
    refine (h.ldTells (i := .getFwInfo c ldb) hn (rfl : _ = execGetFwInfo c ldb s) rfl).mono (fun u hu => ⟨_, _, hu, fun hr => ?_, fun a hr => ?_⟩)
    · exact runningSlot_none hr
    · exact slotArea_runningSlot hr
  case dc => exact h.ldTells hn (rfl : _ = execGetDynamicCapacityConfiguration c ldb s) rfl
  case extents => exact h.ldTells hn (rfl : _ = execGetDynamicCapacityExtentList c ldb s) rfl
  case unsupported => exact h.tells (rfl : _ = execUnsupportedOpcode c op s) rfl
  case poison =>
    refine (h.ldTells (i := .getPoisonList c ldb a n) hn (rfl : _ = execGetPoisonList c ldb a n s)
      (o := .poison (poisonShown d a.toNat n.toNat) d.poisonOverflow) ?_).mono (fun u hu => ⟨_, hu, mem_poisonShown d a.toNat n.toNat⟩)
    exact (if_neg (by rw [show (ldOf (begin s) i).erase = none from hd]; decide)).trans rfl
  case busy =>
    exact h.ldTells hn (rfl : _ = execGetPoisonList c ldb a n s) (if_pos (Option.isSome_iff_ne_none.2 hd))
  case fmIdentify =>
    refine (h.tells (i := .fmIdentify c) (rfl : _ = execFmIdentify c s) rfl).mono (fun u hu => ⟨_, _, hu, ?_, fun p hp => ?_⟩)
    · rfl
    · rw [foldl_setBit hp]
      simp only [List.mem_filter, List.mem_range, hp, true_and, Bool.decide_eq_true]
      rfl
  case ldInfo => exact h.tells (rfl : _ = execGetLdInfo c s) rfl
  case allocs =>
    refine h.tells (rfl : _ = execGetLdAllocations c p f n s) ?_
    exact congrArg (fun l => ((Rc.success, CxlOut.allocs l 268435456), begin s)) (ldRun_map p f n.toNat (begin s) (fun d => staticFrames d / 64))
  case qos => exact h.tells (rfl : _ = execGetQosControl c p s) rfl
  case status =>
    have hexec : exec (.getQosStatus c p) s = execGetQosStatus c p s := rfl
    refine ends_of_ran (hexec.trans (onCxl_ran h rfl)) ⟨_, ?_, rfl⟩
    rw [BitVec.toNat_ofNat]
    omega
  case bw =>
    refine h.tells (rfl : _ = execGetQosAllocatedBw c p f n s) ?_
    exact congrArg (fun l => ((Rc.success, CxlOut.fracs l), begin s)) (ldRun_map p f n.toNat (begin s) Ld.qosAlloc)
  case limit =>
    refine h.tells (rfl : _ = execGetQosBwLimit c p f n s) ?_
    exact congrArg (fun l => ((Rc.success, CxlOut.fracs l), begin s)) (ldRun_map p f n.toNat (begin s) Ld.qosLimit)
  case region => exact h.ldTells hn (rfl : _ = execGetDcRegionConfiguration c ldb s) rfl
  case lists => exact h.ldTells hn (rfl : _ = execGetDcRegionExtentLists c ldb s) rfl

end Sys2Proof.Machine
end

section
/-! SUPPORT. The settings of an LD and the firmware areas, with O22 assembled from them. -/

namespace Sys2Proof.Machine

/-! ## Firmware -/

section
variable {c : Caller} {s : State}

/-- An entry of the list put in place of another is one of that list. -/
theorem mem_getD_set {α : Type} {l : List (List α)} {a : Nat} {v : List α} {x : α} (h : x ∈ (l.set a v).getD a []) : x ∈ v := by
  by_cases ha : a < l.length
  · rwa [List.getD_eq_getElem _ _ (by rw [List.length_set]; exact ha), List.getElem_set_self] at h
  · rw [List.getD_eq_default _ _ (by rw [List.length_set]; omega)] at h
    exact absurd h List.not_mem_nil

/-- No activation is under way or due. -/
def FwIdle (s : State) : Prop := s.fw.activating = false ∧ s.fw.activateDue = false

theorem FwIdle.neg (h : FwIdle s) : ¬ (s.fw.activating || s.fw.activateDue) = true := by
  obtain ⟨h1, h2⟩ := h
  rw [h1, h2]
  decide

/-- The image so far with the next part behind it. -/
def fwAppended (data : List Byte) (s : State) : State := { s with fw := { s.fw with staged := s.fw.staged ++ data } }

theorem fwPart_fits {offset : Nat} {data : List Byte} (ho : 128 * offset = s.fw.staged.length) (hl : (s.fw.staged ++ data).length ≤ 8388608)
    (hf : (s.fw.staged ++ data).length < 8 ∨ field (s.fw.staged ++ data) 4 4 ≤ 8388288) : fwPart offset data s = some (fwAppended data s) := by
  refine if_neg ?_
  omega

/-- The staged image accepted: its three copies stand in the area that does not run. -/
def fwStored (y : FwCopy) (s : State) : State :=
  let fw := { s.fw with staged := [], transferring := false, sender := none }
  { s with fw := { fw with areas := s.fw.areas.set (slotArea s 2) (List.replicate 3 y) } }

theorem fwEnd_accepts (h : fwAccepts s s.fw.staged = true) : ∃ y : FwCopy, fwEnd s = did (fwStored y s) ∧
    y.aseq = 0 ∧ y.valid = true ∧ y.svn = BitVec.ofNat 32 (field s.fw.staged 12 4) := by
  refine ⟨_, (if_neg ?_).trans rfl, rfl, rfl, rfl⟩
  change ¬ (!fwAccepts s s.fw.staged) = true
  rw [h]
  decide

theorem fwAccepts_svn {p : List Byte} (h : fwAccepts s p = true) : s.sec.svnMin.toNat ≤ field p 12 4 := by
  unfold fwAccepts at h
  exact Nat.le_of_ble_eq_true ((Bool.and_eq_true _ _ ▸ h).2)

end

theorem handles_held {hs : List (BitVec 16)} {recs : List EvRec} : (hs.all (fun h => recs.any (fun r => r.handle == h))) = true ↔
    ∀ h ∈ hs, ∃ r ∈ recs, r.handle = h := by
  simp only [List.all_eq_true, List.any_eq_true, beq_iff_eq]

theorem payloadMax_le (c : Caller) : payloadMax c ≤ 65536 := by
  cases c
  case sideband => decide
  all_goals exact Nat.le_refl _

theorem transferring_neg {s : State} (h : s.fw.transferring = true) : ¬ (!s.fw.transferring) = true := by
  rw [h]
  decide

section
variable {c : Caller} {s : State} (h : Taken c s false false) (hidle : FwIdle s)
include h hidle

theorem transferFw_begins {off : BitVec 32} {data : List Byte} {t : State} (hl : data.length ≤ payloadMax c) (ht : s.fw.transferring = false)
    (hp : fwPart off.toNat data (fwBegin c (begin s)) = some t) : Ends (.transferFw c .initiate off data) s (Does c t) := by
  refine h.does (rfl : _ = execTransferFw c .initiate off data s)
    ((if_neg (FwIdle.neg (s := begin s) hidle)).trans ((if_neg (Nat.not_lt.2 hl)).trans ((if_neg (Bool.eq_false_iff.1 ht)).trans ?_)))
  rw [hp]
  rfl

theorem transferFw_continues {off : BitVec 32} {data : List Byte} {t : State} (hl : data.length ≤ payloadMax c) (ht : s.fw.transferring = true)
    (hp : fwPart off.toNat data (begin s) = some t) : Ends (.transferFw c .continue_ off data) s (Does c t) := by
  refine h.does (rfl : _ = execTransferFw c .continue_ off data s)
    ((if_neg (FwIdle.neg (s := begin s) hidle)).trans ((if_neg (Nat.not_lt.2 hl)).trans ((if_neg (transferring_neg ht)).trans ?_)))
  rw [hp]
  rfl

theorem transferFw_ends {off : BitVec 32} {data : List Byte} {t u : State} (hl : data.length ≤ payloadMax c) (ht : s.fw.transferring = true)
    (hp : fwPart off.toNat data (begin s) = some t) (hu : fwEnd t = did u) : Ends (.transferFw c .finish off data) s (Does c u) := by
  refine h.does (rfl : _ = execTransferFw c .finish off data s)
    ((if_neg (FwIdle.neg (s := begin s) hidle)).trans ((if_neg (Nat.not_lt.2 hl)).trans ((if_neg (transferring_neg ht)).trans ?_)))
  rw [hp]
  exact hu

theorem transferFw_aborts {off : BitVec 32} {data : List Byte} (hl : data.length ≤ payloadMax c) (ht : s.fw.transferring = true) :
    Ends (.transferFw c .abort off data) s
      (Does c { begin s with fw := { s.fw with staged := [], transferring := false, sender := none } }) :=
  h.does (rfl : _ = execTransferFw c .abort off data s)
    ((if_neg (FwIdle.neg (s := begin s) hidle)).trans ((if_neg (Nat.not_lt.2 hl)).trans (if_neg (transferring_neg ht))))

/-- The staged area takes the highest number, and an online activation is due. -/
def fwNumbered (online : Bool) (s : State) : State :=
  { s with fw := { s.fw with
    areas := s.fw.areas.set (slotArea s 2)
      ((s.fw.areas.getD (slotArea s 2) []).map (fun y => { y with aseq := BitVec.ofNat 48 (max (areaSeq s 0) (areaSeq s 1) + 1) }))
    activateDue := online } }

/-- An activation that is due restarts the device, outside a span. -/
def fwActivated (s : State) : State :=
  if s.fw.activateDue && s.span.desc.isNone then warmReset { s with fw := { s.fw with activateDue := false, activating := true } } else s

/-- An activation of the staged area: every copy in it takes the highest number. -/
theorem activateFw_exec {online : Bool} (ht : s.fw.transferring = false) (hv : (s.fw.areas.getD (slotArea s 2) []).any FwCopy.valid = true) :
    exec (.activateFw c online 2) s = ran (fwActivated (send (fwNumbered online (begin s)) (.cxl c .success .none))) := by
  obtain ⟨h1, h2⟩ := hidle
  have hbusy : ¬ (s.fw.activating || s.fw.activateDue || s.fw.transferring) = true := by
    rw [h1, h2, ht]
    decide
  have hslot : ¬ ((2 : BitVec 8) ≠ 2 ∨ (!(s.fw.areas.getD (slotArea s 2) []).any FwCopy.valid) = true) := by
    rw [hv]
    decide
  have hexec : exec (.activateFw c online 2) s = execActivateFw c online 2 s := rfl
  exact hexec.trans (onCxl_does h ((if_neg hbusy).trans (if_neg hslot)))

end

/-- Settles O22: the settings by their named LD, the firmware commands by the transfer's state. -/
theorem cxlSettingsAndFirmware : Obligations.CxlSettingsAndFirmware := by
  intro c s h b idle
  refine ⟨fun ldb i hn => ⟨fun log hs => ?clearAll, fun log hs hall => ?clear, fun log hs hnone => ?badHandle, fun p => ?policy, fun v => ?stamp⟩,
    fun data hi ht hl hf => ?initiate, fun off data hi ht hl ho hlen hf => ?further, fun off data hi ht hl ho hlen hf ha => ?finish,
    fun off data hi ht hl => ?abort, fun hi ht hv => ?activate, fun hi ht hv hd => ?online⟩
  case clearAll => exact h.ldDoes hn (rfl : _ = execClearEventRecords c ldb log true hs s) rfl
  case clear =>
    refine h.ldDoes hn (rfl : _ = execClearEventRecords c ldb log false hs s) (if_neg ?_)
    change ¬ (!false && !(hs.all (fun h => ((ldOf s i).logs.getD log []).any (fun r => r.handle == h)))) = true
    rw [handles_held.2 hall]
    decide
  case badHandle =>
    refine h.ldTells hn (rfl : _ = execClearEventRecords c ldb log false hs s) (if_pos ?_)
    have hbad : (hs.all (fun h => ((ldOf s i).logs.getD log []).any (fun r => r.handle == h))) = false := by
      refine Bool.eq_false_iff.2 (fun hall => ?_)
      obtain ⟨x, hx, hx'⟩ := hnone
      obtain ⟨r, hr, hrx⟩ := handles_held.1 hall x hx
      exact hx' r hr hrx
    change (!false && !(hs.all (fun h => ((ldOf s i).logs.getD log []).any (fun r => r.handle == h)))) = true
    rw [hbad]
    rfl
  case policy => exact h.ldDoes hn (rfl : _ = execSetEventInterruptPolicy c ldb p s) rfl
  case stamp => exact h.ldDoes hn (rfl : _ = execSetTimestamp c ldb v s) rfl
  case initiate =>
    have hstaged : (fwBegin c b).fw.staged = [] := rfl
    have hmax : payloadMax c ≤ 65536 := payloadMax_le c
    have hpart : fwPart (0 : BitVec 32).toNat data (fwBegin c b) = some (fwAppended data (fwBegin c b)) :=
      fwPart_fits rfl (by rw [hstaged, List.nil_append]; omega) hf
    refine (transferFw_begins h hi hl ht hpart).mono ?_
    rintro u rfl
    refine ⟨rfl, rfl, rfl, fun x hx => ?_, rfl⟩
    obtain ⟨y, -, rfl⟩ := List.mem_map.1 (mem_getD_set hx)
    exact ⟨rfl, rfl⟩
  case further =>
    exact transferFw_continues h hi hl ht (fwPart_fits (s := b) ho hlen (.inr hf))
  case finish =>
    have hpart := fwPart_fits (s := b) ho hlen (.inr hf)
    obtain ⟨y, hy, hseq, hvalid, hsvn⟩ := fwEnd_accepts (s := fwAppended data b) ha
    refine (transferFw_ends h hi hl ht hpart hy).mono ?_
    rintro u rfl
    refine ⟨rfl, rfl, rfl, fun x hx _ => ?_⟩
    have hxy : x = y := List.eq_of_mem_replicate (mem_getD_set hx)
    subst hxy
    have hlt : field (s.fw.staged ++ data) 12 4 < 2 ^ 32 := field_lt _ _ _
    have hnat : x.svn.toNat = field (s.fw.staged ++ data) 12 4 := by
      rw [hsvn, BitVec.toNat_ofNat]
      exact Nat.mod_eq_of_lt hlt
    exact ⟨hseq, hvalid, hnat, hnat ▸ fwAccepts_svn ha⟩
  case abort =>
    exact transferFw_aborts h hi hl ht
  case activate =>
    refine ends_of_ran (activateFw_exec h hi ht hv) ⟨rfl, hi.1, rfl, fun x hx => ?_⟩
    obtain ⟨y, -, rfl⟩ := List.mem_map.1 (mem_getD_set hx)
    rfl
  case online =>
    refine ends_of_ran (activateFw_exec h hi ht hv) ?_
    have hact : fwActivated (send (fwNumbered true (begin s)) (.cxl c .success .none)) = warmReset _ :=
      if_pos (by change (true && s.span.desc.isNone) = true; rw [hd]; rfl)
    rw [hact]
    exact ⟨rfl, rfl, rfl, rfl⟩

end Sys2Proof.Machine
end

section
/-! SUPPORT. The state of a media stack and its banks, and what a packet that is accepted does (R225 to R228, R236 to R249). -/

namespace Sys2Proof.Machine

/-! ## Stacks, banks and frames -/

section
variable {s t u : State} {ch k : Nat}

theorem stackOf_setStack_self (ch : Nat) (f : Stack → Stack) (s : State) : stackOf (setStack ch f s) ch = f (stackOf s ch) := sget_smod_self ..

theorem stackOf_setStack_ne {c ch : Nat} (f : Stack → Stack) (s : State) (h : c ≠ ch) : stackOf (setStack ch f s) c = stackOf s c := sget_smod_ne _ _ _ h

theorem bankOf_setBank_self (k : Nat) (f : BankSt → BankSt) (s : State) : bankOf (setBank k f s) k = f (bankOf s k) := sget_smod_self ..

theorem bankOf_setBank_ne {j k : Nat} (f : BankSt → BankSt) (s : State) (h : j ≠ k) : bankOf (setBank k f s) j = bankOf s j := sget_smod_ne _ _ _ h

theorem setBank_only (k : Nat) (f : BankSt → BankSt) (s : State) : OnlyBank s (setBank k f s) k (f (bankOf s k)) :=
  ⟨bankOf_setBank_self k f s, fun _ h => bankOf_setBank_ne f s h⟩

theorem OnlyBank.refl (s : State) (k : Nat) : OnlyBank s s k (bankOf s k) := ⟨rfl, fun _ _ => rfl⟩

/-- A second change of the same bank. -/
theorem OnlyBank.setBank {b : BankSt} (h : OnlyBank s t k b) (f : BankSt → BankSt) : OnlyBank s (setBank k f t) k (f b) := by
  obtain ⟨hself, hother⟩ := h
  exact ⟨(bankOf_setBank_self k f t).trans (congrArg f hself), fun j hj => (bankOf_setBank_ne f t hj).trans (hother j hj)⟩

/-- What leaves the banks alone. -/
theorem OnlyBank.kept {b : BankSt} (h : OnlyBank s t k b) (hu : u.media.banks = t.media.banks) : OnlyBank s u k b := by
  obtain ⟨hself, hother⟩ := h
  have hbank (j : Nat) : bankOf u j = bankOf t j := congrArg (fun m : SMap BankSt => sget ({} : BankSt) m j) hu
  exact ⟨(hbank k).trans hself, fun j hj => (hbank j).trans (hother j hj)⟩

theorem queueFrame_queued (ch : Nat) (f : RetFrame) (s : State) : Queued s (queueFrame ch f s) ch f :=
  congrArg Stack.ready (stackOf_setStack_self ch _ s)

theorem queueEvent_queued (ch die bank : Nat) (tag : BitVec 7) (code op param : Nat) (s : State) :
    Queued s (queueEvent ch die bank tag code op param s) ch
      (eventFrame tag (BitVec.ofNat 4 die) (BitVec.ofNat 3 bank) code op (bankOf s (bankKey ch die bank)).st param) :=
  queueFrame_queued ch _ s

theorem queueEvent_banks (ch die bank : Nat) (tag : BitVec 7) (code op param : Nat) (s : State) :
    (queueEvent ch die bank tag code op param s).media.banks = s.media.banks := rfl

theorem queueEvent_lines (ch die bank : Nat) (tag : BitVec 7) (code op param : Nat) (s : State) :
    (queueEvent ch die bank tag code op param s).media.lines = s.media.lines := rfl

/-- The event of a packet names the packet's die and bank. -/
theorem queueEvent_pkt (ch : Nat) (p : Pkt) (code op param : Nat) (s : State) :
    Queued s (queueEvent ch p.die.toNat p.bank.toNat p.tag code op param s) ch
      (eventFrame p.tag p.die p.bank code op (bankOf s (bankKey ch p.die.toNat p.bank.toNat)).st param) := by
  have h := queueEvent_queued ch p.die.toNat p.bank.toNat p.tag code op param s
  rwa [BitVec.ofNat_toNat, BitVec.ofNat_toNat, BitVec.setWidth_eq, BitVec.setWidth_eq] at h

end

/-! ## Packets -/

section
variable {s : State} {ch : Fin 32} {op : Nat} {p : Pkt} {act : State → State} {i : Instr} {P : State → Prop}

/-- An accepted packet does what it asks. -/
theorem onPacket_accepted (h : Accepted s ch op p) : onPacket ch op p act (begin s) = act (begin s) := by
  obtain ⟨htakes, hcs, harmed, hcat, hxor, hsel, hfault⟩ := h
  have harmed' : isArmed (begin s) 0x0008 (0x200000 + ch) = false := harmed
  have h1 : ¬ ((!takesPackets (begin s) ch) = true ∨ p.cs = 0b11#2) := by
    rw [show takesPackets (begin s) ch = true from htakes]
    simpa using hcs
  have h2 : ¬ ((stackOf s ch).catrain = true ∧ op ≠ 0x41) := fun hc => hcat.elim (fun h => Bool.false_ne_true (h.symm.trans hc.1)) hc.2
  have h3 : ¬ (pktXor op p ≠ p.chk.toNat ∨ selectBad op p = true) := fun hc => hc.elim (fun h => h hxor) (fun h => Bool.false_ne_true (hsel.symm.trans h))
  have h4 : ¬ ((!stackWide op p) = true ∧ (stackOf s ch).faults.contains p.die.toNat = true ∧ (!([0x31, 0x32, 0x33, 0x7F].contains op)) = true) := by
    rintro ⟨hw, hf, ho⟩
    rw [Bool.not_eq_true'] at hw ho
    obtain h | h | h := hfault
    · exact Bool.false_ne_true (hw.symm.trans h)
    · exact h (List.contains_iff_mem.1 hf)
    · exact Bool.false_ne_true (ho.symm.trans (List.contains_iff_mem.2 h))
  unfold onPacket
  simp only [if_neg h1, harmed', Bool.false_eq_true, if_false]
  exact (if_neg h2).trans ((if_neg h3).trans (if_neg h4))

theorem Accepted.ends (h : Accepted s ch op p) (hi : exec i s = ran (onPacket ch op p act (begin s))) (hP : P (act (begin s))) : Ends i s P :=
  ends_of_ran (hi.trans (congrArg ran (onPacket_accepted h))) hP

theorem Accepted.acts {u : State} (h : Accepted s ch op p) (hi : exec i s = ran (onPacket ch op p act (begin s))) (ha : act (begin s) = u) (hP : P u) :
    Ends i s P := h.ends hi (ha.symm ▸ hP)

end

end Sys2Proof.Machine
end

section
/-! SUPPORT. Reads of a bank and its suspensions (R236, R241, R242, R246), with O31 assembled from them. -/

namespace Sys2Proof.Machine

section
variable {s t : State} {k : Nat}

/-- A resumption that is due and that no read keeps waiting puts the bank back to work. -/
def resumed (b : BankSt) : BankSt :=
  if b.resumeDue ∧ b.running = [] then
    { b with resumeDue := false, st := match b.st with | .progSuspended => .programming | .clearSuspended => .clearing | x => x }
  else b

theorem resumeNow_only {b : BankSt} (h : OnlyBank s t k b) : OnlyBank s (resumeNow k t) k (resumed b) := h.setBank _

theorem startDeferred_only {b : BankSt} (h : OnlyBank s t k b) :
    OnlyBank s (startDeferred k t) k { b with running := b.running ++ b.deferred, deferred := [] } := h.setBank _

/-- The value that a raw read gives: known where the line holds data. -/
theorem readRaw_value (ch die bank block addr : Nat) (err : BitVec 640) (s : State) : ∃ v n, readRaw ch die bank block addr err s =
    (v, { s with free := s.free + n }) ∧ ∀ w, lineAt s ch die bank block addr = .data w → v = w ^^^ err := by
  unfold readRaw
  cases lineAt s ch die bank block addr with
  | data w => exact ⟨_, 0, rfl, fun w' hw => by cases hw; rfl⟩
  | undef => exact ⟨_, 1, rfl, fun w hw => by cases hw⟩

/-- A bank whose read `tag` is over. -/
def readOver (tag : BitVec 7) (b : BankSt) : BankSt := { b with running := b.running.filter (fun x => x.tag != tag) }

/-- The read `tag` of bank `k` is over, and a resumption that waited for it goes on. -/
def readEnded (k : Nat) (tag : BitVec 7) (s : State) : State := resumeNow k (setBank k (readOver tag) s)

theorem treadEnd_exec {ch : Fin 32} {tag : BitVec 7} {err : BitVec 640} {die bank : Nat} {r : StackRead} (hr : runningRead s ch tag = some (die, bank, r))
    (hd : dieResets s ch die = false) : ∃ (v : MediaLine) (n : Nat), (∀ w, lineAt s ch die bank r.block r.addr = .data w → v = w ^^^ err) ∧
      exec (.treadEnd ch tag err) s = ran (queueFrame ch
        (frameOf (readEnded (bankKey ch die bank) tag { begin s with free := s.free + n }) ch 0 tag die bank (v.setWidth 1024))
        (readEnded (bankKey ch die bank) tag { begin s with free := s.free + n })) := by
  obtain ⟨v, n, hraw, hv⟩ := readRaw_value ch die bank r.block r.addr err (begin s)
  refine ⟨v, n, hv, ?_⟩
  have hexec : exec (.treadEnd ch tag err) s = execTreadEnd ch tag err s := rfl
  unfold execTreadEnd at hexec
  dsimp only at hexec
  rw [show runningRead (begin s) ch tag = some (die, bank, r) from hr] at hexec
  dsimp only at hexec
  rw [show dieResets (begin s) ch die = false from hd, hraw] at hexec
  exact hexec

/-- The end of a running read: its frame is queued, and a resumption that waited for it goes on (R241, R242). -/
theorem treadEnd_answers {ch : Fin 32} {tag : BitVec 7} {err : BitVec 640} {die bank : Nat} {r : StackRead} (hr : runningRead s ch tag = some (die, bank, r))
    (hd : dieResets s ch die = false) {y : BankSt} (hy : resumed (readOver tag (bankOf s (bankKey ch die bank))) = y) :
    Ends (.treadEnd ch tag err) s (fun u => OnlyBank s u (bankKey ch die bank) y ∧ u.media.lines = s.media.lines ∧
      ∃ v : MediaLine, Queued s u ch (mkFrame 0 tag (BitVec.ofNat 4 die) (BitVec.ofNat 3 bank) (BitVec.ofNat 4 (bsCode y.st)) (v.setWidth 1024)) ∧
        ∀ w, lineAt s ch die bank r.block r.addr = .data w → v = w ^^^ err) := by
  subst hy
  obtain ⟨v, n, hv, hexec⟩ := treadEnd_exec (err := err) hr hd
  have hbank : OnlyBank s (readEnded (bankKey ch die bank) tag { begin s with free := s.free + n }) (bankKey ch die bank)
      (resumed (readOver tag (bankOf s (bankKey ch die bank)))) :=
    resumeNow_only (setBank_only (bankKey ch die bank) (readOver tag) { begin s with free := s.free + n })
  refine ends_of_ran hexec ⟨hbank, rfl, v, ?_, hv⟩
  rw [← hbank.1]
  exact queueFrame_queued ch _ (readEnded (bankKey ch die bank) tag { begin s with free := s.free + n })

/-- A suspension that takes effect is told, and the reads that waited for it run (R241). -/
theorem suspension_ends {ch die bank : Nat} {b : BankSt} (h : OnlyBank s t (bankKey ch die bank) b) (hs : stackOf t ch = stackOf s ch) :
    let u := startDeferred (bankKey ch die bank) (queueEvent ch die bank (bankOf t (bankKey ch die bank)).suspTag 0x06 0x21 0 t)
    OnlyBank s u (bankKey ch die bank) { b with running := b.running ++ b.deferred, deferred := [] } ∧
      Queued s u ch (eventFrame b.suspTag (BitVec.ofNat 4 die) (BitVec.ofNat 3 bank) 0x06 0x21 b.st 0) := by
  have hqueued := queueEvent_queued ch die bank (bankOf t (bankKey ch die bank)).suspTag 0x06 0x21 0 t
  refine ⟨startDeferred_only (h.kept rfl), ?_⟩
  obtain ⟨hself, -⟩ := h
  rw [hself] at hqueued ⊢
  exact hqueued.trans (congrArg (fun x : Stack => x.ready ++ _) hs)

/-- A resumption that nothing keeps waiting. -/
theorem resumed_now {b : BankSt} (hd : b.resumeDue = false) (hr : b.running = []) : resumed { b with resumeDue := true } =
    { b with st := match b.st with | .progSuspended => .programming | .clearSuspended => .clearing | x => x } := by
  refine (if_pos ⟨rfl, hr⟩).trans ?_
  rw [← hd]

/-- RESUME in a suspended bank with no resumption due (R242). -/
theorem resume_exec {ch : Fin 32} {p : Pkt} (h : Accepted s ch 0x22 p) (hd : (bankOf s (bankKey ch p.die.toNat p.bank.toNat)).resumeDue = false)
    (hb : (bankOf s (bankKey ch p.die.toNat p.bank.toNat)).st = .progSuspended ∨ (bankOf s (bankKey ch p.die.toNat p.bank.toNat)).st = .clearSuspended) :
    Ends (.resume ch p) s (fun u => (stackOf u ch = stackOf s ch ∧ u.media.lines = s.media.lines) ∧
      OnlyBank s u (bankKey ch p.die.toNat p.bank.toNat) (resumed { bankOf s (bankKey ch p.die.toNat p.bank.toNat) with resumeDue := true })) := by
  refine h.ends (rfl : _ = execResume ch p s) ?_
  have hgo : ¬ (bankOf (begin s) (bankKey ch p.die.toNat p.bank.toNat)).resumeDue = true := Bool.eq_false_iff.1 hd
  have hbank : OnlyBank s (resumeNow (bankKey ch p.die.toNat p.bank.toNat) (setBank (bankKey ch p.die.toNat p.bank.toNat)
      (fun b => { b with resumeDue := true }) (begin s))) (bankKey ch p.die.toNat p.bank.toNat) _ := resumeNow_only (setBank_only _ _ (begin s))
  dsimp only
  rw [if_neg hgo]
  obtain hb | hb := hb <;> rw [show (bankOf (begin s) (bankKey ch p.die.toNat p.bank.toNat)).st = _ from hb] <;> exact ⟨⟨rfl, rfl⟩, hbank⟩

end

/-- Settles O31: the packets by the state of their bank, the ends by what ended. -/
theorem stackReadsAndSuspends : Obligations.StackReadsAndSuspends := by
  intro s ch p k b same held rd
  refine ⟨fun h => ⟨fun hr => ?now, fun hr => ?later, fun hr => ?denied⟩, fun h => ?refset, fun h d => ?refload,
    fun h => ⟨fun hb => ?susp, fun hb => ?noop, fun hb => ?finishing⟩, fun h hd hrun => ⟨fun hb => ?resumeProg, fun hb => ?resumeClear⟩,
    fun h hd hrun hb => ?resumeLater, fun die bank o hd hst ho => ?suspEnd, fun tag err die bank r hr hd => ?readEnd⟩
  case now =>
    refine h.ends (rfl : _ = execRead ch p s) ?_
    dsimp only
    rw [show readNow (bankOf (begin s) k).st = some true from hr]
    exact ⟨⟨rfl, rfl⟩, setBank_only k _ (begin s)⟩
  case later =>
    refine h.ends (rfl : _ = execRead ch p s) ?_
    dsimp only
    rw [show readNow (bankOf (begin s) k).st = some false from hr]
    exact ⟨⟨rfl, rfl⟩, setBank_only k _ (begin s)⟩
  case denied =>
    refine h.ends (rfl : _ = execRead ch p s) ?_
    dsimp only
    rw [show readNow (bankOf (begin s) k).st = none from hr]
    exact ⟨.refl s k, queueEvent_pkt ch p 0x08 0x01 p.addr.toNat (begin s)⟩
  case refset => exact h.ends (rfl : _ = execRefset ch p s) ⟨⟨rfl, rfl⟩, setBank_only k _ (begin s)⟩
  case refload => exact h.ends (rfl : _ = execRefload ch p d s) ⟨⟨rfl, rfl⟩, setBank_only k _ (begin s)⟩
  case susp =>
    refine h.ends (rfl : _ = execSusp ch p s) ?_
    dsimp only
    obtain hb | hb := hb <;> rw [show (bankOf (begin s) k).st = _ from hb] <;> exact ⟨⟨rfl, rfl⟩, setBank_only k _ (begin s)⟩
  case noop =>
    refine h.ends (rfl : _ = execSusp ch p s) ?_
    dsimp only
    have hq := queueEvent_pkt ch p 0x07 0x21 0 (begin s)
    obtain hb | hb | hb := hb <;> rw [show (bankOf (begin s) k).st = _ from hb] <;> exact ⟨.refl s k, hq⟩
  case finishing =>
    refine h.ends (rfl : _ = execSusp ch p s) ?_
    dsimp only
    rw [show (bankOf (begin s) k).st = _ from hb]
    exact ⟨⟨rfl, rfl⟩, setBank_only k _ (begin s)⟩
  case resumeProg =>
    refine (resume_exec h hd (.inl hb)).mono ?_
    rw [resumed_now hd hrun, show (bankOf s (bankKey ch p.die.toNat p.bank.toNat)).st = _ from hb]
    exact fun u hu => hu
  case resumeClear =>
    refine (resume_exec h hd (.inr hb)).mono ?_
    rw [resumed_now hd hrun, show (bankOf s (bankKey ch p.die.toNat p.bank.toNat)).st = _ from hb]
    exact fun u hu => hu
  case resumeLater =>
    refine (resume_exec h hd (.inl hb)).mono ?_
    rw [show resumed { bankOf s (bankKey ch p.die.toNat p.bank.toNat) with resumeDue := true } = _ from if_neg (fun hc => hrun hc.2)]
    exact fun u hu => hu
  case suspEnd =>
    intro x st
    have hexec : exec (.tsuspEnd ch die bank) s = execTsuspEnd ch die bank s := rfl
    unfold execTsuspEnd at hexec
    dsimp only at hexec
    rw [show dieResets (begin s) ch die = false from hd, show (bankOf (begin s) (bankKey ch die bank)).st = _ from hst,
      show (bankOf (begin s) (bankKey ch die bank)).op = _ from ho, if_neg Bool.false_ne_true] at hexec
    exact ends_of_ran hexec (suspension_ends (b := { x with st := st }) (setBank_only _ _ (begin s)) rfl)
  case readEnd =>
    intro x left frame answers
    refine ⟨fun hw => treadEnd_answers hr hd (if_neg ?_), fun hdue hleft hst => treadEnd_answers hr hd ((if_pos ⟨hdue, hleft⟩).trans ?_),
      fun hdue hleft hst => treadEnd_answers hr hd ((if_pos ⟨hdue, hleft⟩).trans ?_)⟩
    · rintro ⟨hdue, hleft⟩
      exact hw.elim (fun h => Bool.false_ne_true (h.symm.trans hdue)) (fun h => h hleft)
    · rw [show (readOver tag (bankOf s (bankKey ch die bank))).st = _ from hst]
      rfl
    · rw [show (readOver tag (bankOf s (bankKey ch die bank))).st = _ from hst]
      rfl

end Sys2Proof.Machine
end

section
/-! SUPPORT. Programs and clears of a bank (R236 to R240, R244), with O32 assembled from them. -/

namespace Sys2Proof.Machine

section
variable {s t u : State}

/-- Only the stored lines differ. -/
def LinesDiffer (s t : State) : Prop := ∃ l, t = { s with media := { s.media with lines := l } }

theorem LinesDiffer.refl (s : State) : LinesDiffer s s := ⟨_, rfl⟩

theorem LinesDiffer.putLine (h : LinesDiffer s t) (ch die bank block addr : Nat) (v : Cellv) : LinesDiffer s (putLine ch die bank block addr v t) := by
  obtain ⟨l, rfl⟩ := h
  exact ⟨_, rfl⟩

theorem LinesDiffer.bankOf_eq (h : LinesDiffer s t) (k : Nat) : bankOf t k = bankOf s k := by
  obtain ⟨l, rfl⟩ := h
  rfl

theorem LinesDiffer.stackOf_eq (h : LinesDiffer s t) (ch : Nat) : stackOf t ch = stackOf s ch := by
  obtain ⟨l, rfl⟩ := h
  rfl

theorem undefTarget_lines (ch die bank : Nat) (o : BankOp) (s : State) : LinesDiffer s (undefTarget ch die bank o s) :=
  List.foldlRecOn (motive := LinesDiffer s) (opLines o) _ (.refl s) (fun _ ht _ _ => ht.putLine ..)

theorem lineAt_putLine_self (ch die bank block addr : Nat) (v : Cellv) (s : State) : lineAt (putLine ch die bank block addr v s) ch die bank block addr = v := by
  unfold lineAt putLine
  simp only [sfind_sput_self]

theorem stampOf_setStamp_self (blk : Nat) (f : Stamp → Stamp) (s : State) : stampOf (setStamp blk f s) blk = f (stampOf s blk) := sget_sput_self _ _ _ _

end

/-- Settles O32: each packet by the state of its bank. -/
theorem stackProgramsAndClears : Obligations.StackProgramsAndClears := by
  intro s ch p k b blk same
  refine ⟨fun h hst => ⟨fun ht => ?prog, fun ht => ?refused⟩, fun o d h hst ho hi hlen => ?burst, fun o d h hst ho hi hlen => ?last,
    fun d h hst ht => ?fprog, fun h hst => ?pfin, fun h hst o ho hc => ?abort, fun stamp h hst => ?clear, fun stamp h hst => ?clearRefused⟩
  case prog =>
    refine h.acts (rfl : _ = execProg ch p s) (if_neg ?_) ⟨rfl, rfl, setBank_only k _ (begin s)⟩
    exact not_or.2 ⟨not_not_intro hst, by rw [show stampTakes (begin s) blk false = true from ht]; decide⟩
  case refused =>
    refine h.acts (rfl : _ = execProg ch p s) (if_pos (.inr ?_)) ⟨.refl s k, hst ▸ queueEvent_pkt ch p 0x09 0x10 0 (begin s)⟩
    rw [show stampTakes (begin s) blk false = false from ht]
    rfl
  case burst =>
    refine h.ends (rfl : _ = execWdata ch p d s) ?_
    dsimp only
    rw [show (bankOf (begin s) k).st = _ from hst, show (bankOf (begin s) k).op = _ from ho]
    dsimp only
    rw [if_neg (Nat.not_le.2 hi), if_pos hlen]
    exact ⟨rfl, setBank_only k _ (begin s)⟩
  case last =>
    refine h.ends (rfl : _ = execWdata ch p d s) ?_
    dsimp only
    rw [show (bankOf (begin s) k).st = _ from hst, show (bankOf (begin s) k).op = _ from ho]
    dsimp only
    rw [if_neg (Nat.not_le.2 hi), if_neg (Nat.not_lt.2 hlen)]
    generalize ({ o with bursts := _, mode := _ } : BankOp) = done
    have hlines := undefTarget_lines ch p.die.toNat p.bank.toNat done (setBank k (fun b => { b with st := .programming, op := some done }) (begin s))
    obtain ⟨hself, hother⟩ := setBank_only k (fun b => { b with st := .programming, op := some done }) (begin s)
    exact ⟨hlines.stackOf_eq ch, congrArg BankSt.st ((hlines.bankOf_eq k).trans hself), fun j hj => (hlines.bankOf_eq j).trans (hother j hj)⟩
  case fprog =>
    refine h.acts (rfl : _ = execFprog ch p d s) (if_neg ?_) ⟨rfl, ?_, lineAt_putLine_self ..⟩
    · exact not_or.2 ⟨not_not_intro hst, by rw [show stampTakes (begin s) blk true = true from ht]; decide⟩
    · exact setBank_only k (fun b => { b with st := .programming, op := some ⟨false, true, p.block.toNat, p.addr.toNat, p.tag, [], d, 0, false⟩ }) (begin s)
  case pfin =>
    exact h.acts (rfl : _ = execPfin ch p s) (if_neg (not_not_intro hst)) ⟨rfl, rfl, setBank_only k _ (begin s)⟩
  case abort =>
    have hbank := setBank_only k (fun b => { b with st := .idle, op := none, resumeDue := false, suspNoopDue := false, heldLate := false }) (begin s)
    have hqueued := queueEvent_pkt ch p 0x0D 0x14 o.addr
      (setBank k (fun b => { b with st := .idle, op := none, resumeDue := false, suspNoopDue := false, heldLate := false }) (begin s))
    have hparam : opParam o = o.addr := if_neg (Bool.eq_false_iff.1 hc)
    rw [hbank.1, ← hparam] at hqueued
    refine h.ends (rfl : _ = execPabort ch p s) ?_
    dsimp only
    rw [show (bankOf (begin s) k).op = _ from ho, ← hparam]
    obtain hst | hst | hst := hst <;> rw [show (bankOf (begin s) k).st = _ from hst] <;> exact ⟨hbank.kept rfl, hqueued, rfl⟩
  case clear =>
    have hstamp := stampOf_setStamp_self blk (fun t => { t with valid := false }) (dropBlock blk (begin s))
    refine h.ends (rfl : _ = execClear ch p stamp s) ?_
    dsimp only
    rw [if_neg (not_not_intro (show (bankOf (begin s) k).st = .idle from hst))]
    exact ⟨rfl, congrArg Stamp.valid hstamp, (congrArg Stamp.ccount hstamp).trans rfl, setBank_only k _ (setStamp blk _ (dropBlock blk (begin s)))⟩
  case clearRefused =>
    exact h.acts (rfl : _ = execClear ch p stamp s) (if_pos hst) ⟨.refl s k, rfl, queueEvent_pkt ch p 0x09 0x20 0 (begin s)⟩

end Sys2Proof.Machine
end

section
/-! SUPPORT. The ends of a bank's operations (R237 to R244), with O33 assembled from them. -/

namespace Sys2Proof.Machine

/-! ## Lines stored -/

section
variable {s t : State} {ch die bank block : Nat}

theorem LinesDiffer.evt_eq (h : LinesDiffer s t) : t.evt = s.evt := by
  obtain ⟨l, rfl⟩ := h
  rfl

theorem LinesDiffer.banks_eq (h : LinesDiffer s t) : t.media.banks = s.media.banks := by
  obtain ⟨l, rfl⟩ := h
  rfl

theorem lineAt_putLine_ne {a a' : Nat} (v : Cellv) (s : State) (h : a' ≠ a) :
    lineAt (putLine ch die bank block a v s) ch die bank block a' = lineAt s ch die bank block a' := by
  have hkey : lineKey (blockKey ch die bank block) a' ≠ lineKey (blockKey ch die bank block) a := fun hk => h (Nat.add_left_cancel hk)
  unfold lineAt putLine
  simp only [sfind_sput_ne _ _ hkey]
  rfl

/-- A line programmed with no injection point armed for it holds its data. -/
theorem programLine_unarmed (h : ∀ a ∈ s.evt.armed, a.point ≠ 0x0007) (addr : Nat) (l : MediaLine) :
    programLine ch die bank block addr l s = putLine ch die bank block addr (.data l) s := by
  have hnone : s.evt.armed.find? (fun a => a.point.toNat == 0x0007 && a.unit.toNat == 0x300000 + dieKey ch die && !a.active) = none := by
    refine List.find?_eq_none.2 (fun a ha hp => h a ha (BitVec.eq_of_toNat_eq ?_))
    simp only [Bool.and_eq_true, beq_iff_eq] at hp
    exact hp.1.1
  unfold programLine lineInject
  simp only [hnone]

/-- A page's lines programmed one after another. -/
theorem programLines_facts (h : ∀ a ∈ s.evt.armed, a.point ≠ 0x0007) (addr : Nat → Nat) (hinj : ∀ i j, addr i = addr j → i = j) (v : Nat → MediaLine)
    (l : List Nat) :
    let t := l.foldl (fun s i => programLine ch die bank block (addr i) (v i) s) s
    LinesDiffer s t ∧ ∀ i ∈ l, lineAt t ch die bank block (addr i) = .data (v i) := by
  induction l using List.reverseRecOn with
  | nil => exact ⟨.refl s, fun _ hi => absurd hi List.not_mem_nil⟩
  | append_singleton l j ih =>
    obtain ⟨hlines, hold⟩ := ih
    rw [List.foldl_append, List.foldl_cons, List.foldl_nil, programLine_unarmed (hlines.evt_eq ▸ h)]
    refine ⟨hlines.putLine .., fun i hi => ?_⟩
    by_cases hij : i = j
    · subst hij
      exact lineAt_putLine_self ..
    · rw [lineAt_putLine_ne _ _ (fun ha => hij (hinj i j ha))]
      exact hold i ((List.mem_append.1 hi).resolve_right (fun h => hij (List.mem_singleton.1 h)))

/-- The bursts of a page in their places, as the line of number `i` reads them. -/
def pageLine (o : BankOp) (i : Nat) : MediaLine :=
  BitVec.ofNat 640 (o.bursts.foldl (fun a e => a + e.2.toNat <<< (1024 * e.1)) 0 >>> (640 * i))

theorem storeOp_facts (h : ∀ a ∈ s.evt.armed, a.point ≠ 0x0007) (o : BankOp) :
    LinesDiffer s (storeOp ch die bank o s) ∧ (o.mode = true → storeOp ch die bank o s = s) ∧
    (o.mode = false → o.fast = true → lineAt (storeOp ch die bank o s) ch die bank o.block o.addr = .data o.line) ∧
    (o.mode = false → o.fast = false → ∀ i < 64, lineAt (storeOp ch die bank o s) ch die bank o.block (64 * o.addr + i) = .data (pageLine o i)) := by
  cases hm : o.mode with
  | true =>
    have hs : storeOp ch die bank o s = s := if_pos hm
    rw [hs]
    exact ⟨.refl s, fun _ => rfl, fun h => absurd h Bool.noConfusion, fun h => absurd h Bool.noConfusion⟩
  | false =>
    cases hf : o.fast with
    | true =>
      have hs : storeOp ch die bank o s = putLine ch die bank o.block o.addr (.data o.line) s :=
        (if_neg (Bool.eq_false_iff.1 hm)).trans ((if_pos hf).trans (programLine_unarmed h _ _))
      rw [hs]
      exact ⟨(LinesDiffer.refl s).putLine .., fun h => absurd h Bool.noConfusion, fun _ _ => lineAt_putLine_self .., fun _ h => absurd h Bool.noConfusion⟩
    | false =>
      have hs : storeOp ch die bank o s = (List.range 64).foldl (fun s i => programLine ch die bank o.block (64 * o.addr + i) (pageLine o i) s) s :=
        (if_neg (Bool.eq_false_iff.1 hm)).trans (if_neg (Bool.eq_false_iff.1 hf))
      obtain ⟨hlines, hdata⟩ := programLines_facts (ch := ch) (die := die) (bank := bank) (block := o.block) h (fun i => 64 * o.addr + i)
        (fun _ _ hij => Nat.add_left_cancel hij) (pageLine o) (List.range 64)
      rw [hs]
      exact ⟨hlines, fun h => absurd h Bool.noConfusion, fun _ h => absurd h Bool.noConfusion, fun _ _ i hi => hdata i (List.mem_range.2 hi)⟩

end

section
variable {s : State} {ch : Fin 32} {die : Fin 16} {bank : Fin 8} {o : BankOp}

theorem queueEvent_lineAt (c d b : Nat) (tag : BitVec 7) (code op param : Nat) (t : State) (ch die bank block addr : Nat) :
    lineAt (queueEvent c d b tag code op param t) ch die bank block addr = lineAt t ch die bank block addr := rfl

/-- The bank is idle, its finish over. -/
def finishOver (b : BankSt) : BankSt := { b with st := .idle, op := none, suspNoopDue := false }

/-- The bank is idle, its clear over. -/
def clearOver (b : BankSt) : BankSt := { b with st := .idle, op := none }

variable (hd : dieResets s ch die = false) (ho : (bankOf s (bankKey ch die bank)).op = some o)
include hd ho

theorem tpfinEnd_exec {failAt : Option (BitVec 17)} (hst : (bankOf s (bankKey ch die bank)).st = .finishing)
    (hn : (bankOf s (bankKey ch die bank)).suspNoopDue = false) : exec (.tpfinEnd ch die bank failAt) s = ran
      (match failAt with
        | none => queueEvent ch die bank o.tag 0x02 0x13 (opParam o) (storeOp ch die bank o (setBank (bankKey ch die bank) finishOver (begin s)))
        | some a => queueEvent ch die bank o.tag 0x03 0x13 a.toNat (setBank (bankKey ch die bank) finishOver (begin s))) := by
  have hexec : exec (.tpfinEnd ch die bank failAt) s = execTpfinEnd ch die bank failAt s := rfl
  unfold execTpfinEnd at hexec
  dsimp only at hexec
  rw [show dieResets (begin s) ch die = false from hd, show (bankOf (begin s) (bankKey ch die bank)).st = _ from hst,
    show (bankOf (begin s) (bankKey ch die bank)).op = _ from ho, if_neg Bool.false_ne_true] at hexec
  dsimp only at hexec
  rw [show (bankOf (begin s) (bankKey ch die bank)).suspNoopDue = false from hn, if_neg Bool.false_ne_true] at hexec
  cases failAt <;> exact hexec

theorem tclearEnd_exec {ok : Bool} (hst : (bankOf s (bankKey ch die bank)).st = .clearing) (hc : o.clear = true) :
    exec (.tclearEnd ch die bank ok) s = ran (queueEvent ch die bank o.tag (if ok then 0x04 else 0x05) 0x20 o.block
      (if ok then setStamp (blockKey ch die bank o.block) (fun t => { stamp := o.stamp, ccount := satInc t.ccount, valid := true, fast := o.mode })
          (setBank (bankKey ch die bank) clearOver (begin s))
        else setBank (bankKey ch die bank) clearOver (begin s))) := by
  have hexec : exec (.tclearEnd ch die bank ok) s = execTclearEnd ch die bank ok s := rfl
  unfold execTclearEnd at hexec
  dsimp only at hexec
  rw [show dieResets (begin s) ch die = false from hd, show (bankOf (begin s) (bankKey ch die bank)).st = _ from hst,
    show (bankOf (begin s) (bankKey ch die bank)).op = _ from ho, if_neg Bool.false_ne_true] at hexec
  dsimp only at hexec
  rw [if_neg (by rw [hc]; decide), if_neg (by decide)] at hexec
  exact hexec

end

/-- Settles O33: each end by the state of its bank and the operation in it. -/
theorem stackOperationsEnd : Obligations.StackOperationsEnd := by
  intro s ch die bank o k b blk ev
  refine ⟨fun hd ok at_ => ⟨?body, ?fin, ?clear, ?susp⟩, fun hd ho => ⟨fun hst hc => ?held, fun hst hc hn ha => ?finished, fun hst hn a => ?failed,
    fun hst hc => ?cleared, fun hst hc => ?uncleared⟩⟩
  case body =>
    have hexec : exec (.tpbodyEnd ch die bank) s = execTpbodyEnd ch die bank s := rfl
    exact ends_of_ran (hexec.trans (congrArg ran (if_pos hd))) rfl
  case fin =>
    have hexec : exec (.tpfinEnd ch die bank at_) s = execTpfinEnd ch die bank at_ s := rfl
    exact ends_of_ran (hexec.trans (congrArg ran (if_pos hd))) rfl
  case clear =>
    have hexec : exec (.tclearEnd ch die bank ok) s = execTclearEnd ch die bank ok s := rfl
    exact ends_of_ran (hexec.trans (congrArg ran (if_pos hd))) rfl
  case susp =>
    have hexec : exec (.tsuspEnd ch die bank) s = execTsuspEnd ch die bank s := rfl
    exact ends_of_ran (hexec.trans (congrArg ran (if_pos hd))) rfl
  case held =>
    have hparam : opParam o = o.addr := if_neg (Bool.eq_false_iff.1 hc)
    have hexec : exec (.tpbodyEnd ch die bank) s = execTpbodyEnd ch die bank s := rfl
    unfold execTpbodyEnd at hexec
    dsimp only at hexec
    rw [show dieResets (begin s) ch die = false from hd, show (bankOf (begin s) (bankKey ch die bank)).st = _ from hst,
      show (bankOf (begin s) (bankKey ch die bank)).op = _ from ho, if_neg Bool.false_ne_true] at hexec
    dsimp only at hexec
    rw [hparam] at hexec
    have hbank := setBank_only k (fun b => { b with st := .held }) (begin s)
    have hqueued := queueEvent_queued ch die bank o.tag 0x01 (if o.fast then 0x12 else 0x10) o.addr (setBank k (fun b => { b with st := .held }) (begin s))
    rw [hbank.1] at hqueued
    exact ends_of_ran hexec ⟨hbank.kept rfl, hqueued, rfl⟩
  case finished =>
    have hparam : opParam o = o.addr := if_neg (Bool.eq_false_iff.1 hc)
    have hexec := tpfinEnd_exec (failAt := none) hd ho hst hn
    dsimp only at hexec
    rw [hparam] at hexec
    have hbank := setBank_only k finishOver (begin s)
    obtain ⟨hlines, hkept, hfast, hpage⟩ := storeOp_facts (ch := ch) (die := die) (bank := bank) (s := setBank k finishOver (begin s)) ha o
    have hqueued := queueEvent_queued ch die bank o.tag 0x02 0x13 o.addr (storeOp ch die bank o (setBank k finishOver (begin s)))
    rw [hlines.bankOf_eq, hbank.1] at hqueued
    refine ends_of_ran hexec ⟨hbank.kept ?_, ?_, fun hm => ?_, hfast, hpage⟩
    · exact hlines.banks_eq
    · exact hqueued.trans (congrArg (fun x : Stack => x.ready ++ _) (hlines.stackOf_eq ch))
    · exact (congrArg (fun t : State => t.media.lines) (hkept hm)).trans rfl
  case failed =>
    have hbank := setBank_only k finishOver (begin s)
    have hqueued := queueEvent_queued ch die bank o.tag 0x03 0x13 a.toNat (setBank k finishOver (begin s))
    rw [hbank.1] at hqueued
    exact ends_of_ran (tpfinEnd_exec hd ho hst hn) ⟨hbank.kept rfl, hqueued, rfl⟩
  case cleared =>
    have hbank := setBank_only k clearOver (begin s)
    generalize hf : (fun t : Stamp => ({ stamp := o.stamp, ccount := satInc t.ccount, valid := true, fast := o.mode } : Stamp)) = f
    have hqueued := queueEvent_queued ch die bank o.tag 0x04 0x20 o.block (setStamp blk f (setBank k clearOver (begin s)))
    rw [show bankOf (setStamp blk f (setBank k clearOver (begin s))) (bankKey ch die bank) = _ from hbank.1] at hqueued
    have hstamp := stampOf_setStamp_self blk f (setBank k clearOver (begin s))
    have hexec := tclearEnd_exec (ok := true) hd ho hst hc
    rw [hf] at hexec
    exact ends_of_ran hexec ⟨hbank.kept rfl, hqueued, hstamp.trans (hf ▸ rfl)⟩
  case uncleared =>
    have hbank := setBank_only k clearOver (begin s)
    have hqueued := queueEvent_queued ch die bank o.tag 0x05 0x20 o.block (setBank k clearOver (begin s))
    rw [hbank.1] at hqueued
    exact ends_of_ran (tclearEnd_exec (ok := false) hd ho hst hc) ⟨hbank.kept rfl, hqueued, rfl⟩

end Sys2Proof.Machine
end

section
/-! SUPPORT. Information commands and retrieval (R227, R231, R245, R255), with O34 assembled from them. -/

namespace Sys2Proof.Machine

/-- An information frame of the packet's bank waits in the stack, and nothing else of the stack's frames or banks changed. -/
def InfoWaits (s : State) (ch : Nat) (p : Pkt) (bs : List Byte) (u : State) : Prop :=
  (stackOf u ch).ready = (stackOf s ch).ready ∧
  (stackOf u ch).pendInfo = (stackOf s ch).pendInfo ++
    [mkFrame 1 p.tag p.die p.bank (BitVec.ofNat 4 (bsCode (bankOf s (bankKey ch p.die.toNat p.bank.toNat)).st)) (infoPayload bs)] ∧
  u.media.banks = s.media.banks

section
variable {s : State} {ch : Fin 32} {p : Pkt}

theorem frameOf_pkt (ch kind : Nat) (p : Pkt) (payload : BitVec 1024) (s : State) : frameOf s ch kind p.tag p.die.toNat p.bank.toNat payload =
    mkFrame (BitVec.ofNat 3 kind) p.tag p.die p.bank (BitVec.ofNat 4 (bsCode (bankOf s (bankKey ch p.die.toNat p.bank.toNat)).st)) payload := by
  unfold frameOf
  rw [BitVec.ofNat_toNat, BitVec.ofNat_toNat, BitVec.setWidth_eq, BitVec.setWidth_eq]

/-- A frame kept in the stack, sent with the state its bank has then. -/
theorem frameOf_kept (ch : Nat) (f : RetFrame) (s : State) : frameOf s ch f.kind.toNat f.tag f.die.toNat f.bank.toNat f.payload =
    mkFrame f.kind f.tag f.die f.bank (BitVec.ofNat 4 (bsCode (bankOf s (bankKey ch f.die.toNat f.bank.toNat)).st)) f.payload := by
  unfold frameOf
  rw [BitVec.ofNat_toNat, BitVec.ofNat_toNat, BitVec.ofNat_toNat, BitVec.setWidth_eq, BitVec.setWidth_eq, BitVec.setWidth_eq]

theorem pendInfo_stack (ch : Nat) (f : RetFrame) (s : State) :
    stackOf (pendInfo ch f s) ch = { stackOf s ch with pendInfo := (stackOf s ch).pendInfo ++ [f] } := stackOf_setStack_self ch _ s

theorem pendInfo_waits {t : State} (ht : t.media = s.media) (bs : List Byte) :
    InfoWaits s ch p bs (pendInfo ch (frameOf t ch 1 p.tag p.die.toNat p.bank.toNat (infoPayload bs)) t) := by
  have hstack : stackOf t ch = stackOf s ch := congrArg (fun m : MediaSt => sget ({} : Stack) m.stack ch) ht
  have hbank (k : Nat) : bankOf t k = bankOf s k := congrArg (fun m : MediaSt => sget ({} : BankSt) m.banks k) ht
  have hpend := pendInfo_stack ch (frameOf t ch 1 p.tag p.die.toNat p.bank.toNat (infoPayload bs)) t
  rw [hstack] at hpend
  refine ⟨(congrArg Stack.ready hpend).trans rfl, (congrArg Stack.pendInfo hpend).trans ?_, (congrArg MediaSt.banks ht : t.media.banks = s.media.banks)⟩
  rw [frameOf_pkt, hbank]
  rfl

/-- An information command: its answer waits in a frame; its answer leaves the media alone. -/
theorem Accepted.info {op : Nat} {i : Instr} {bs : List Byte} {t : State} (h : Accepted s ch op p) (hi : exec i s = ran (onInfo ch op p (begin s)))
    (ha : infoAnswer ch op p (begin s) = (bs, t)) (ht : t.media = s.media) : Ends i s (InfoWaits s ch p bs) := by
  refine h.ends (act := fun s => pendInfo ch (frameOf (infoAnswer ch op p s).2 ch 1 p.tag p.die.toNat p.bank.toNat (infoPayload (infoAnswer ch op p s).1))
    (infoAnswer ch op p s).2) hi ?_
  rw [ha]
  exact pendInfo_waits ht bs

/-- The bytes of SRD (R245). -/
theorem stampInfo_eq (s : State) (blk : Nat) : stampInfo s blk = bytesOf 8 (stampOf s blk).stamp.toNat ++ bytesOf 4 (stampOf s blk).ccount.toNat ++
    [BitVec.ofNat 8 (b2n (stampOf s blk).valid + 2 * b2n (stampOf s blk).fast + 4 * b2n (decide (200000 ≤ (stampOf s blk).ccount.toNat))), 0] := by
  have hle : Nat.ble 200000 (stampOf s blk).ccount.toNat = decide (200000 ≤ (stampOf s blk).ccount.toNat) := by
    rw [Bool.eq_iff_iff, Nat.ble_eq, decide_eq_true_iff]
  unfold stampInfo
  dsimp only
  rw [hle]

theorem infoAnswer_srd (ch : Nat) (p : Pkt) (s : State) :
    infoAnswer ch 0x30 p s = (stampInfo s (blockKey ch p.die.toNat p.bank.toNat p.block.toNat), s) := rfl

theorem infoAnswer_status (ch : Nat) (p : Pkt) (s : State) : infoAnswer ch 0x31 p s = (statusInfo s ch p.die.toNat, s) := rfl

theorem infoAnswer_temp (ch : Nat) (p : Pkt) (s : State) : infoAnswer ch 0x32 p s =
    (bytesOf 2 (drawBits 16 s).1.toNat ++ [BitVec.ofNat 8 (p.arg.toNat % 2)], { s with free := s.free + 1 }) := rfl

theorem infoAnswer_ident (ch : Nat) (p : Pkt) (s : State) : infoAnswer ch 0x33 p s =
    (bytesOf 2 0x4D4D ++ bytesOf 2 0x0016 ++ [(drawBits 8 s).1, 8] ++ bytesOf 2 6144 ++ bytesOf 3 65600 ++ bytesOf 2 21866,
      { s with free := s.free + 1 }) := rfl

theorem infoAnswer_getf (ch : Nat) (p : Pkt) (s : State) :
    infoAnswer ch 0x34 p s = ([p.arg, BitVec.ofNat 8 (featureOf s ch p.die.toNat p.arg.toNat)], s) := rfl

end

/-- Settles O34: information commands by `Accepted.info`, retrieval by the stack's ready frames. -/
theorem stackInformationCommands : Obligations.StackInformationCommands := by
  intro s ch p k info
  refine ⟨fun h => ?srd, fun h => ?status, fun h => ?temp, fun h => ?ident, fun h ha => ?getf, fun tag f hf => ?due, fun h ha f rest hr => ?next,
    fun h ha hr => ?empty, fun h ha f hf => ?again, fun h => ?rdpat⟩
  case srd =>
    refine (h.info (i := .srd ch p) (rfl : _ = execSrd ch p s) (infoAnswer_srd ch p (begin s)) rfl).mono (fun u hu => ⟨_, rfl, ?_⟩)
    rw [stampInfo_eq] at hu
    exact hu
  case status =>
    exact (h.info (i := .status ch p) (rfl : _ = execStatus ch p s) (infoAnswer_status ch p (begin s)) rfl).mono (fun u hu => ⟨_, hu⟩)
  case temp =>
    exact (h.info (i := .temp ch p) (rfl : _ = execTemp ch p s) (infoAnswer_temp ch p (begin s)) rfl).mono (fun u hu => ⟨_, hu⟩)
  case ident =>
    exact (h.info (i := .ident ch p) (rfl : _ = execIdent ch p s) (infoAnswer_ident ch p (begin s)) rfl).mono (fun u hu => ⟨_, hu⟩)
  case getf =>
    have harg : p.arg = 4 := BitVec.eq_of_toNat_eq ha
    refine (h.info (i := .getf ch p) (rfl : _ = execGetf ch p s) (infoAnswer_getf ch p (begin s)) rfl).mono ?_
    rw [harg]
    exact fun u hu => hu
  case due =>
    have hexec : exec (.tinfoEnd ch tag) s = execTinfoEnd ch tag s := rfl
    unfold execTinfoEnd at hexec
    dsimp only at hexec
    rw [show (stackOf (begin s) ch).pendInfo.find? (fun f => f.tag == tag) = some f from hf] at hexec
    have htaken := stackOf_setStack_self ch (fun k => { k with pendInfo := k.pendInfo.filter (fun x => x.tag != tag) }) (begin s)
    have hqueued := stackOf_setStack_self ch (fun k => { k with ready := k.ready ++ [frameOf (begin s) ch f.kind.toNat f.tag f.die.toNat f.bank.toNat f.payload] })
      (setStack ch (fun k => { k with pendInfo := k.pendInfo.filter (fun x => x.tag != tag) }) (begin s))
    rw [htaken] at hqueued
    refine ends_of_ran hexec ⟨(congrArg Stack.ready hqueued).trans ?_, congrArg Stack.pendInfo hqueued⟩
    rw [frameOf_kept]
    rfl
  case next =>
    have htaken := stackOf_setStack_self ch (fun k => { k with ready := rest, last := some f }) (begin s)
    refine h.ends (i := .rdout ch p) (rfl : _ = execRdout ch p s) ?_
    dsimp only
    rw [if_neg (Bool.eq_false_iff.1 ha), show (stackOf (begin s) ch).ready = _ from hr]
    exact ⟨congrArg Stack.ready htaken, congrArg Stack.last htaken, rfl⟩
  case empty =>
    refine h.ends (i := .rdout ch p) (rfl : _ = execRdout ch p s) ?_
    dsimp only
    rw [if_neg (Bool.eq_false_iff.1 ha), show (stackOf (begin s) ch).ready = _ from hr]
    rfl
  case again =>
    refine h.acts (i := .rdout ch p) (rfl : _ = execRdout ch p s) (if_pos ha) ?_
    rw [show (stackOf (begin s) ch).last = some f from hf]
    rfl
  case rdpat =>
    refine h.ends (i := .rdpat ch p) (rfl : _ = execRdpat ch p s) ?_
    rw [frameOf_pkt]
    exact congrArg Stack.pendInfo (pendInfo_stack ch _ (begin s))

end Sys2Proof.Machine
end

section
/-! SUPPORT. Packets and frames that fail their checks (R225, R226, R232, R256), with O36 assembled from them. -/

namespace Sys2Proof.Machine

/-! ## Carters -/

section
variable {s : State} {ch : Nat}

theorem cartOf_setCart_self (ch : Nat) (f : Carter → Carter) (s : State) : cartOf (setCart ch f s) ch = f (cartOf s ch) := sget_smod_self ..

theorem cartOf_setCart_ne {c ch : Nat} (f : Carter → Carter) (s : State) (h : c ≠ ch) : cartOf (setCart ch f s) c = cartOf s c := sget_smod_ne _ _ _ h

end

/-! ## Packets -/

section
variable {s : State} {ch : Fin 32} {op : Nat} {p : Pkt} {act : State → State} {i : Instr}

/-- A packet reaches a stack that takes packets and is not echoing, with no point inverting its CHK. -/
def Reaches (s : State) (ch : Fin 32) (p : Pkt) : Prop :=
  takesPackets s ch = true ∧ p.cs ≠ 3 ∧ isArmed s 0x0008 (0x200000 + ch) = false ∧ (stackOf s ch).catrain = false

/-- A packet whose CHK or group select does not hold becomes a CA_CHECK event alone. -/
theorem onPacket_spoiled (h : Reaches s ch p) (hb : pktXor op p ≠ p.chk.toNat ∨ selectBad op p = true) :
    onPacket ch op p act (begin s) = queueEvent ch p.die.toNat p.bank.toNat p.tag 0x0A op (pktHigh p) (begin s) := by
  obtain ⟨htakes, hcs, harmed, hcat⟩ := h
  have harmed' : isArmed (begin s) 0x0008 (0x200000 + ch) = false := harmed
  have h1 : ¬ ((!takesPackets (begin s) ch) = true ∨ p.cs = 0b11#2) := by
    rw [show takesPackets (begin s) ch = true from htakes]
    simpa using hcs
  have h2 : ¬ ((stackOf s ch).catrain = true ∧ op ≠ 0x41) := fun hc => Bool.false_ne_true (hcat.symm.trans hc.1)
  unfold onPacket
  simp only [if_neg h1, harmed', Bool.false_eq_true, if_false]
  exact (if_neg h2).trans (if_pos hb)

theorem Reaches.drops (h : Reaches s ch p) (hi : exec i s = ran (onPacket ch op p act (begin s)))
    (hb : pktXor op p ≠ p.chk.toNat ∨ selectBad op p = true) : Ends i s (fun u => u.media.banks = s.media.banks ∧ u.media.lines = s.media.lines ∧
      u.media.stamps = s.media.stamps ∧
      Queued s u ch (eventFrame p.tag p.die p.bank 0x0A op (bankOf s (bankKey ch p.die.toNat p.bank.toNat)).st (pktHigh p))) :=
  ends_of_ran (hi.trans (congrArg ran (onPacket_spoiled h hb))) ⟨rfl, rfl, rfl, queueEvent_pkt ch p 0x0A op (pktHigh p) (begin s)⟩

end

/-! ## Frames -/

section
variable {s : State} {ch : Fin 32} {kind : Nat} {h : FrameHdr} {crcGood : Bool} {i : Instr}

/-- What the checks of a frame count before they judge it. -/
def frameSeen (ch kind : Nat) (s : State) : State := if kind = 4 then s else setCart ch (fun c => { c with emptyRun := 0 }) s

/-- A spoiled frame is counted, and asked for again. -/
def frameSpoiled (ch kind : Nat) (s : State) : State :=
  setCart ch (fun c => { c with repeatDue := true, rdout := some true }) (setCart ch (fun c => { c with frameErr := satInc c.frameErr }) (frameSeen ch kind s))

theorem frameSeen_cart (ch kind : Nat) (s : State) : ∃ n, cartOf (frameSeen ch kind s) ch = { cartOf s ch with emptyRun := n } := by
  unfold frameSeen
  split
  · exact ⟨(cartOf s ch).emptyRun, rfl⟩
  · exact ⟨0, cartOf_setCart_self ch _ s⟩

theorem frameSeen_rest (ch kind : Nat) (s : State) :
    (frameSeen ch kind s).media.mreads = s.media.mreads ∧ (frameSeen ch kind s).out = s.out ∧ (frameSeen ch kind s).evt = s.evt := by
  unfold frameSeen
  split <;> exact ⟨rfl, rfl, rfl⟩

theorem frameSpoiled_cart (ch kind : Nat) (s : State) : ∃ n, cartOf (frameSpoiled ch kind s) ch =
    { cartOf s ch with emptyRun := n, frameErr := satInc (cartOf s ch).frameErr, repeatDue := true, rdout := some true } := by
  obtain ⟨n, hn⟩ := frameSeen_cart ch kind s
  refine ⟨n, ?_⟩
  unfold frameSpoiled
  rw [cartOf_setCart_self, cartOf_setCart_self, hn]

theorem checkFrame_spoiled (hr : (cartOf s ch).repeatDue = false) (ha : isArmed s 0x0009 (uChannel ch) = false)
    (hb : crc8 (hdrNums kind h) ≠ h.hcrc.toNat) : checkFrame ch kind h crcGood (begin s) = (.again, frameSpoiled ch kind (begin s)) := by
  have ha' : isArmed (begin s) 0x0009 (uChannel ch) = false := ha
  have hseen : (cartOf (setCart ch (fun c => { c with frameErr := satInc c.frameErr }) (frameSeen ch kind (begin s))) ch).repeatDue = false := by
    obtain ⟨n, hn⟩ := frameSeen_cart ch kind (begin s)
    rw [cartOf_setCart_self, hn]
    exact hr
  unfold checkFrame
  simp only [ha', Bool.false_eq_true, if_false]
  refine (if_neg (fun hc => hb hc.1)).trans (if_pos ?_)
  exact (congrArg (!·) hseen).trans rfl

/-- A row whose frame is spoiled: the frame is counted and asked for again, and nothing else happens. -/
theorem spoiled_again (hr : (cartOf s ch).repeatDue = false) (ha : isArmed s 0x0009 (uChannel ch) = false)
    (hb : crc8 (hdrNums kind h) ≠ h.hcrc.toNat)
    (hi : checkFrame ch kind h crcGood (begin s) = (.again, frameSpoiled ch kind (begin s)) → exec i s = ran (mediaNext (frameSpoiled ch kind (begin s)))) :
    Works i s (fun u => (cartOf u ch).frameErr = satInc (cartOf s ch).frameErr ∧ (cartOf u ch).repeatDue = true ∧ (cartOf u ch).rdout = some true ∧
       (cartOf u ch).outst = (cartOf s ch).outst ∧ (cartOf u ch).running = (cartOf s ch).running ∧ u.media.mreads = s.media.mreads ∧ u.out = []) := by
  obtain ⟨n, hn⟩ := frameSpoiled_cart ch kind (begin s)
  obtain ⟨hreads, hout, -⟩ := frameSeen_rest ch kind (begin s)
  refine ⟨_, hi (checkFrame_spoiled hr ha hb), ?_⟩
  dsimp only
  rw [hn]
  exact ⟨rfl, rfl, rfl, rfl, rfl, hreads, hout⟩

/-- An event frame that is spoiled. -/
theorem onEvent_again {pay : BitVec 128} {act : State → State} {t : State} (hc : checkFrame ch 2 h (payOk pay) (begin s) = (.again, t)) :
    onEvent ch h pay act s = ran (mediaNext t) := by
  unfold onEvent
  rw [hc]

end

/-- Settles O36: packets by `Reaches.drops`, frames by `spoiled_again`. -/
theorem spoiledPacketsAndFramesAreRepeated : Obligations.SpoiledPacketsAndFramesAreRepeated := by
  refine ⟨?packets, ?frames⟩
  case packets =>
    intro s ch p htakes hcs harmed hcat bad drops
    have h : Reaches s ch p := ⟨htakes, hcs, harmed, hcat⟩
    exact ⟨h.drops (rfl : _ = execRead ch p s), h.drops (rfl : _ = execProg ch p s), fun d => h.drops (rfl : _ = execFprog ch p d s),
      h.drops (rfl : _ = execPabort ch p s), fun d => h.drops (rfl : _ = execClear ch p d s), h.drops (rfl : _ = execSusp ch p s),
      h.drops (rfl : _ = execResume ch p s), h.drops (rfl : _ = execSetf ch p s), h.drops (rfl : _ = execRdout ch p s),
      h.drops (rfl : _ = execDreset ch p s)⟩
  case frames =>
    intro s ch h hr ha again
    have hevent {i : Instr} {p : BitVec 128} {act : State → State} (hi : exec i s = onEvent ch h p act s) : again i 2 :=
      fun hb => spoiled_again hr ha hb (fun hc => hi.trans (onEvent_again hc))
    refine ⟨fun hb => spoiled_again (crcGood := true) hr ha hb (fun hc => ?empty), fun l hb => spoiled_again (crcGood := true) hr ha hb (fun hc => ?line),
      fun p hb => spoiled_again (crcGood := payOk p) hr ha hb (fun hc => ?info),
      fun p a b m hb => spoiled_again (crcGood := true) hr ha hb (fun hc => ?pattern), fun p => ?events⟩
    case empty =>
      change execEmptyFrame ch h s = _
      unfold execEmptyFrame
      rw [hc]
    case line =>
      change execLineFrame ch h l s = _
      unfold execLineFrame
      rw [hc]
    case info =>
      change execInfoFrame ch h p s = _
      unfold execInfoFrame
      rw [hc]
    case pattern =>
      change execPatternFrame ch h p a b m s = _
      unfold execPatternFrame
      rw [hc]
    case events =>
      exact ⟨hevent (rfl : _ = execProgHeld ch h p s), hevent (rfl : _ = execProgDone ch h p s), hevent (rfl : _ = execProgFail ch h p s),
        hevent (rfl : _ = execClearDone ch h p s), hevent (rfl : _ = execClearFail ch h p s), hevent (rfl : _ = execSuspended ch h p s),
        hevent (rfl : _ = execSuspNoop ch h p s), hevent (rfl : _ = execReadDenied ch h p s), hevent (rfl : _ = execIllegal ch h p s),
        hevent (rfl : _ = execCaCheck ch h p s), hevent (rfl : _ = execDieFault ch h p s), hevent (rfl : _ = execPaborted ch h p s)⟩

end Sys2Proof.Machine
end

section
/-! SUPPORT. Good frames handed on (R231, R250 to R256), with O37 assembled from them. -/

namespace Sys2Proof.Machine

section
variable {s : State} {ch : Fin 32} {kind : Nat} {h : FrameHdr} {crcGood : Bool}

theorem checkFrame_good (hg : GoodFrame s ch kind h crcGood) : checkFrame ch kind h crcGood (begin s) =
    (.good, setCart ch (fun c => { c with repeatDue := false }) (frameSeen ch kind (begin s))) := by
  obtain ⟨hcrc, hpay, ha⟩ := hg
  have ha' : isArmed (begin s) 0x0009 (uChannel ch) = false := ha
  unfold checkFrame
  simp only [ha', Bool.false_eq_true, if_false]
  exact if_pos ⟨hcrc, hpay, rfl⟩

/-- A good frame other than an empty one. -/
theorem checkFrame_framed (hg : GoodFrame s ch kind h crcGood) (hk : kind ≠ 4) : checkFrame ch kind h crcGood (begin s) = (.good, framed ch s) := by
  rw [checkFrame_good hg, frameSeen, if_neg hk]
  rfl

theorem framed_cart (ch : Nat) (s : State) : cartOf (framed ch s) ch = { cartOf s ch with emptyRun := 0, repeatDue := false } := by
  unfold framed
  rw [cartOf_setCart_self, cartOf_setCart_self]
  rfl

theorem framed_outRead (ch : Nat) (tag : BitVec 7) (s : State) : outRead (framed ch s) ch tag = outRead s ch tag := by
  unfold outRead
  rw [framed_cart]

theorem framed_raws (ch : Nat) (s : State) : (cartOf (framed ch s) ch).raws = (cartOf s ch).raws := by
  rw [framed_cart]

theorem framed_runningProg (ch : Nat) (tag : BitVec 7) (s : State) : runningProg (framed ch s) ch tag = runningProg s ch tag := by
  unfold runningProg
  rw [framed_cart]

theorem framed_armed (ch p u : Nat) (s : State) : isArmed (framed ch s) p u = isArmed s p u := rfl

/-! ## Lines -/

theorem lineFrame_stale (hg : GoodFrame s ch 0 h true) (line : MediaLine) (hr : outRead s ch h.tag = none) :
    exec (.lineFrame ch h line) s = ran (mediaNext (nextFrame ch (dropStale ch h.tag (framed ch s)))) := by
  change execLineFrame ch h line s = _
  unfold execLineFrame
  rw [checkFrame_framed hg (by decide)]
  dsimp only
  rw [framed_outRead, hr]

theorem lineFrame_good (hg : GoodFrame s ch 0 h true) {line : MediaLine} {r : CRead} (hr : outRead s ch h.tag = some r)
    (ha : isArmed s 0x0015 (uDie (dieKey ch r.die)) = false) {l : Line66} {n : Nat} (hl : bchDecode line = some (l, n)) :
    exec (.lineFrame ch h line) s = ran (mediaNext (nextFrame ch (readAnswered ch r (.good l n) (dropOut ch h.tag (framed ch s))))) := by
  change execLineFrame ch h line s = _
  unfold execLineFrame
  rw [checkFrame_framed hg (by decide)]
  dsimp only
  rw [framed_outRead, hr]
  dsimp only
  rw [framed_armed, ha, hl]
  rfl

theorem lineFrame_failed (hg : GoodFrame s ch 0 h true) {line : MediaLine} {r : CRead} (hr : outRead s ch h.tag = some r)
    (ha : isArmed s 0x0015 (uDie (dieKey ch r.die)) = false) (hl : bchDecode line = none) :
    exec (.lineFrame ch h line) s = ran (mediaNext (nextFrame ch (readAnswered ch r .failed (dropOut ch h.tag (framed ch s))))) := by
  change execLineFrame ch h line s = _
  unfold execLineFrame
  rw [checkFrame_framed hg (by decide)]
  dsimp only
  rw [framed_outRead, hr]
  dsimp only
  rw [framed_armed, ha, hl]
  rfl

/-! ## Information and patterns -/

/-- The command of tag `tag` whose answer is not a line has its answer. -/
def rawAnswered (ch : Nat) (tag : BitVec 7) (s : State) : State := setCart ch (fun c => { c with raws := c.raws.filter (fun r => r.1 != tag) }) s

theorem infoFrame_unasked (hg : GoodFrame s ch 1 h crcGood) {pay : BitVec 128} (hp : payOk pay = crcGood)
    (hr : (cartOf s ch).raws.find? (fun r => r.1 == h.tag) = none) : exec (.infoFrame ch h pay) s = ran (mediaNext (nextFrame ch (framed ch s))) := by
  subst hp
  change execInfoFrame ch h pay s = _
  unfold execInfoFrame
  rw [checkFrame_framed hg (by decide)]
  dsimp only
  rw [framed_raws, hr]

theorem infoFrame_temp {pay : BitVec 128} (hg : GoodFrame s ch 1 h (payOk pay)) {t : BitVec 7} {die : Nat}
    (hr : (cartOf s ch).raws.find? (fun r => r.1 == h.tag) = some (t, 2 + 16 * die)) : exec (.infoFrame ch h pay) s =
      ran (mediaNext (nextFrame ch { rawAnswered ch h.tag (framed ch s) with mm := { s.mm with
        dieTemp := sset 0 s.mm.dieTemp (dieKey ch die) (pay.extractLsb' 0 16) } })) := by
  have hdie : (2 + 16 * die) / 16 = die := by omega
  have hwhat : (2 + 16 * die) % 16 = 2 := by omega
  change execInfoFrame ch h pay s = _
  unfold execInfoFrame
  rw [checkFrame_framed hg (by decide)]
  dsimp only
  rw [framed_raws, hr]
  dsimp only
  rw [hdie, hwhat, if_neg (by decide), if_pos rfl]
  rfl

theorem patternFrame_unasked {pat : BitVec 1024} {c0 c1 m : Byte} (hg : GoodFrame s ch 3 h true)
    (hr : (cartOf s ch).raws.find? (fun r => r.1 == h.tag) = none) :
    exec (.patternFrame ch h pat c0 c1 m) s = ran (mediaNext (nextFrame ch (framed ch s))) := by
  change execPatternFrame ch h pat c0 c1 m s = _
  unfold execPatternFrame
  rw [checkFrame_framed hg (by decide)]
  dsimp only
  rw [framed_raws, hr]

/-- A pattern that tracks the strobes of a channel in use, its eye open: one tap at most (R253). -/
theorem patternFrame_tracks {pat : BitVec 1024} {c0 c1 m : Byte} (hg : GoodFrame s ch 3 h true) {t : BitVec 7} {die : Nat}
    (hr : (cartOf s ch).raws.find? (fun r => r.1 == h.tag) = some (t, 5 + 16 * die)) (hm : 64 ≤ 5 * m.toNat) :
    exec (.patternFrame ch h pat c0 c1 m) s = ran (mediaNext (nextFrame ch (setCart ch (fun c => { c with dqs0 := oneTap c.dqs0 c0, dqs1 := oneTap c.dqs1 c1 })
      (rawAnswered ch h.tag (framed ch s))))) := by
  have hwhat : (5 + 16 * die) % 16 = 5 := by omega
  have hopen : Nat.ble 64 (5 * m.toNat) = true := Nat.ble_eq_true_of_le hm
  change execPatternFrame ch h pat c0 c1 m s = _
  unfold execPatternFrame
  rw [checkFrame_framed hg (by decide)]
  dsimp only
  rw [framed_raws, hr]
  dsimp only
  rw [hwhat, if_pos rfl, hopen, if_pos rfl]
  rfl

theorem rawAnswered_step (ch : Nat) (tag : BitVec 7) (s : State) : (cartOf (rawAnswered ch tag (framed ch s)) ch).trainStep = (cartOf s ch).trainStep ∧
    (cartOf (rawAnswered ch tag (framed ch s)) ch).trainRetry = (cartOf s ch).trainRetry := by
  unfold rawAnswered
  rw [cartOf_setCart_self, framed_cart]
  exact ⟨rfl, rfl⟩

/-- A pattern read in step 7 of the training, its eye open: the centers are taken and step 8 begins (R251). -/
theorem patternFrame_centers {pat : BitVec 1024} {c0 c1 m : Byte} (hg : GoodFrame s ch 3 h true) {t : BitVec 7} {die : Nat}
    (hr : (cartOf s ch).raws.find? (fun r => r.1 == h.tag) = some (t, 6 + 16 * die)) (hs : (cartOf s ch).trainStep = 7) (hm : 64 ≤ 5 * m.toNat) :
    exec (.patternFrame ch h pat c0 c1 m) s = ran (mediaNext (nextFrame ch (trainTo ch 8 (setCart ch (fun c => { c with dqs0 := c0, dqs1 := c1 })
      (setCart ch (fun c => { c with trainRetry := false }) (rawAnswered ch h.tag (framed ch s))))))) := by
  have hwhat : (6 + 16 * die) % 16 = 6 := by omega
  have hopen : Nat.ble 64 (5 * m.toNat) = true := Nat.ble_eq_true_of_le hm
  have hstep := (rawAnswered_step ch h.tag s).1.trans hs
  unfold rawAnswered at hstep
  change execPatternFrame ch h pat c0 c1 m s = _
  unfold execPatternFrame
  rw [checkFrame_framed hg (by decide)]
  dsimp only
  rw [framed_raws, hr]
  dsimp only
  rw [hwhat, if_neg (by decide), hopen, hstep]
  refine congrArg (fun u => ran (mediaNext (nextFrame ch u))) ((if_neg ?_).trans ((if_pos (.inl rfl)).trans ?_))
  · rintro (hc | ⟨hc, -⟩)
    · exact Bool.noConfusion hc
    · exact absurd hc (by decide)
  · rw [if_neg (by decide)]
    rfl

/-- A pattern read in step 7 of the training, its eye closed: the step is tried once more (R251). -/
theorem patternFrame_retries {pat : BitVec 1024} {c0 c1 m : Byte} (hg : GoodFrame s ch 3 h true) {t : BitVec 7} {die : Nat}
    (hr : (cartOf s ch).raws.find? (fun r => r.1 == h.tag) = some (t, 6 + 16 * die)) (hs : (cartOf s ch).trainStep = 7) (hm : 5 * m.toNat < 64)
    (ht : (cartOf s ch).trainRetry = false) : exec (.patternFrame ch h pat c0 c1 m) s =
      ran (mediaNext (nextFrame ch (trainTo ch 7 (setCart ch (fun c => { c with trainRetry := true }) (rawAnswered ch h.tag (framed ch s)))))) := by
  have hwhat : (6 + 16 * die) % 16 = 6 := by omega
  have hopen : Nat.ble 64 (5 * m.toNat) = false := Bool.eq_false_iff.2 (fun h => absurd (Nat.le_of_ble_eq_true h) (by omega))
  obtain ⟨hstep, hretry⟩ := rawAnswered_step ch h.tag s
  have hagain : trainAgain ch (rawAnswered ch h.tag (framed ch s)) =
      trainTo ch 7 (setCart ch (fun c => { c with trainRetry := true }) (rawAnswered ch h.tag (framed ch s))) := by
    unfold trainAgain
    dsimp only
    rw [hretry, ht, if_neg (by decide), hstep, hs, if_neg (by decide)]
  change execPatternFrame ch h pat c0 c1 m s = _
  unfold execPatternFrame
  rw [checkFrame_framed hg (by decide)]
  dsimp only
  rw [framed_raws, hr]
  dsimp only
  rw [hwhat, if_neg (by decide), hopen, if_pos (.inl rfl)]
  exact congrArg (fun u => ran (mediaNext (nextFrame ch u))) hagain

theorem nextFrame_cart (ch : Nat) (s : State) : cartOf (nextFrame ch s) ch = { cartOf s ch with rdout := some false } := cartOf_setCart_self ch _ s

theorem askRaw_cart (ch op die arg what : Nat) (s : State) : ∃ raws wait, cartOf (askRaw ch op die arg what s) ch =
    { cartOf s ch with raws := raws, rawWait := wait } := by
  unfold askRaw
  split
  · exact ⟨_, _, cartOf_setCart_self ch _ s⟩
  · exact ⟨_, _, cartOf_setCart_self ch _ s⟩

/-- The training begins step 8: the eye's reference moves, and the pattern is asked for. -/
theorem trainTo_eight (ch : Nat) (s : State) : ∃ raws wait vref, cartOf (trainTo ch 8 s) ch =
    { cartOf s ch with trainStep := 8, raws := raws, rawWait := wait, vref := vref } := by
  generalize ht : setCart ch (fun c => { c with vref := (drawBits 6 (setCart ch (fun c => { c with trainStep := 8 }) s)).1 })
    (drawBits 6 (setCart ch (fun c => { c with trainStep := 8 }) s)).2 = t
  have hcart : cartOf t ch = { cartOf s ch with trainStep := 8, vref := (drawBits 6 s).1 } := by
    rw [← ht, cartOf_setCart_self]
    exact congrArg (fun c : Carter => { c with vref := (drawBits 6 s).1 }) (cartOf_setCart_self ch (fun c => { c with trainStep := 8 }) s)
  obtain ⟨raws, wait, hask⟩ := askRaw_cart ch 0x43 0 0 6
    (send (sendPkt ch 0x42 0 0 0 0 127 0 (sendPkt ch 0x35 0 0 0 (drawBits 6 s).1.toNat 127 3 t)) (.burst ch 0 trainPattern))
  have hstep : trainTo ch 8 s = askRaw ch 0x43 0 0 6
      (send (sendPkt ch 0x42 0 0 0 0 127 0 (sendPkt ch 0x35 0 0 0 (drawBits 6 s).1.toNat 127 3 t)) (.burst ch 0 trainPattern)) := by
    rw [← ht]
    rfl
  refine ⟨raws, wait, (drawBits 6 s).1, ?_⟩
  rw [hstep, hask, show cartOf (send (sendPkt ch 0x42 0 0 0 0 127 0 (sendPkt ch 0x35 0 0 0 (drawBits 6 s).1.toNat 127 3 t))
    (.burst ch 0 trainPattern)) ch = cartOf t ch from rfl, hcart]

/-- The training tries step 7 again: the pattern is asked for. -/
theorem trainTo_seven (ch : Nat) (s : State) : ∃ raws wait, cartOf (trainTo ch 7 s) ch =
    { cartOf s ch with trainStep := 7, raws := raws, rawWait := wait } := by
  have hstep : trainTo ch 7 s = askRaw ch 0x43 0 0 6 (setCart ch (fun c => { c with trainStep := 7 }) s) := rfl
  obtain ⟨raws, wait, hask⟩ := askRaw_cart ch 0x43 0 0 6 (setCart ch (fun c => { c with trainStep := 7 }) s)
  refine ⟨raws, wait, ?_⟩
  rw [hstep, hask, cartOf_setCart_self]

/-! ## Empty frames -/

/-- An empty frame counted: `n` in a row while the stack holds frames. -/
def emptyCounted (ch n : Nat) (s : State) : State :=
  setCart ch (fun c => { c with emptyRun := n }) (setCart ch (fun c => { c with repeatDue := false }) (begin s))

theorem emptyCounted_cart (ch n : Nat) (s : State) : cartOf (emptyCounted ch n s) ch = { cartOf s ch with emptyRun := n, repeatDue := false } := by
  unfold emptyCounted
  rw [cartOf_setCart_self, cartOf_setCart_self]
  rfl

theorem emptyFrame_exec (hg : GoodFrame s ch 4 h true) {n : Nat} (hn : (if malertLow s ch then (cartOf s ch).emptyRun + 1 else 0) = n) :
    exec (.emptyFrame ch h) s = if 16 ≤ n then ran (mediaNext (trainFail ch 0 (event { code := 0x020C, unit := uChannel ch, p0 := 0x82, p1 := h.die.toNat }
        (setCart ch (fun c => { c with emptyRun := 0 }) (emptyCounted ch n s)))))
      else ran (mediaNext (nextFrame ch (emptyCounted ch n s))) := by
  subst hn
  have hrun : (cartOf (setCart ch (fun c => { c with repeatDue := false }) (begin s)) ch).emptyRun = (cartOf s ch).emptyRun := by
    rw [cartOf_setCart_self]
    rfl
  change execEmptyFrame ch h s = _
  unfold execEmptyFrame
  rw [checkFrame_good hg, frameSeen, if_pos rfl]
  dsimp only
  rw [hrun]
  rfl

end

/-- Settles O37: each frame by what waits for it. -/
theorem framesAreHandedOn : Obligations.FramesAreHandedOn := by
  intro s ch h line pay pat c0 c1 m f raw answered
  refine ⟨fun hg => ⟨fun hr => ?stale, fun r hr ha => ⟨fun l n hl => ?good, fun hl => ?failed⟩⟩, fun hg => ⟨fun hr => ?info, fun t die hr => ?temp⟩,
    fun hg => ⟨fun hr => ?pattern, fun t die hr hm => ?tracks, fun t die hr hs hm => ?centers, fun t die hr hs hm ht => ?retries⟩,
    fun hg => ⟨fun hm hn => ?run, fun hm => ?noRun, fun hm hn => ?sixteen⟩, ?alert, fun hs => ?pll, fun hs => ?noPll⟩
  case stale => exact ⟨_, lineFrame_stale hg line hr, rfl⟩
  case good => exact ⟨_, lineFrame_good hg hr ha hl, rfl⟩
  case failed => exact ⟨_, lineFrame_failed hg hr ha hl, rfl⟩
  case info => exact ⟨_, infoFrame_unasked hg rfl hr, rfl⟩
  case temp => exact ⟨_, infoFrame_temp hg hr, rfl⟩
  case pattern => exact ⟨_, patternFrame_unasked hg hr, rfl⟩
  case tracks => exact ⟨_, patternFrame_tracks hg hr hm, rfl⟩
  case centers =>
    obtain ⟨raws, wait, vref, hcart⟩ := trainTo_eight ch (setCart ch (fun c => { c with dqs0 := c0, dqs1 := c1 })
      (setCart ch (fun c => { c with trainRetry := false }) (rawAnswered ch h.tag (framed ch s))))
    refine ⟨_, patternFrame_centers hg hr hs hm, ?_⟩
    dsimp only
    rw [nextFrame_cart, hcart, cartOf_setCart_self]
    exact ⟨rfl, rfl, rfl⟩
  case retries =>
    obtain ⟨raws, wait, hcart⟩ := trainTo_seven ch (setCart ch (fun c => { c with trainRetry := true }) (rawAnswered ch h.tag (framed ch s)))
    refine ⟨_, patternFrame_retries hg hr hs hm ht, ?_⟩
    dsimp only
    rw [nextFrame_cart, hcart, cartOf_setCart_self]
    exact ⟨rfl, rfl⟩
  case run =>
    have hexec := emptyFrame_exec hg (n := (cartOf s ch).emptyRun + 1) (if_pos hm)
    rw [if_neg (by omega)] at hexec
    refine ⟨_, hexec, ?_⟩
    dsimp only
    rw [nextFrame_cart, emptyCounted_cart]
    exact ⟨rfl, rfl, rfl, rfl⟩
  case noRun =>
    have hexec := emptyFrame_exec hg (n := 0) (if_neg (Bool.eq_false_iff.1 hm))
    rw [if_neg (by omega)] at hexec
    refine ⟨_, hexec, ?_⟩
    dsimp only
    rw [nextFrame_cart, emptyCounted_cart]
    exact ⟨rfl, rfl, rfl, rfl⟩
  case sixteen =>
    have hexec := emptyFrame_exec hg (n := (cartOf s ch).emptyRun + 1) (if_pos hm)
    rw [if_pos (by omega)] at hexec
    refine ⟨_, hexec, _, rfl, ?_⟩
    rw [cartOf_setCart_self]
  case alert => exact ⟨_, (rfl : _ = execMalertN ch s), rfl⟩
  case pll =>
    have hexec : exec (.mediaPllLock ch) s = execMediaPllLock ch s := rfl
    have hcart := cartOf_setCart_self ch (fun c => { c with fullRate := true }) (begin s)
    have hstack := stackOf_setStack_self ch (fun k => { k with pllLocked := true }) (setCart ch (fun c => { c with fullRate := true }) (begin s))
    exact ⟨_, hexec.trans (if_pos hs), _, rfl, congrArg Carter.fullRate hcart, congrArg Stack.pllLocked hstack, rfl⟩
  case noPll =>
    have hexec : exec (.mediaPllLock ch) s = execMediaPllLock ch s := rfl
    exact ends_of_ran (hexec.trans (if_neg hs)) rfl

end Sys2Proof.Machine
end

section
/-! SUPPORT. Event frames and what follows them (R236, R240, R256), with O38 assembled from them. -/

namespace Sys2Proof.Machine

section
variable {s t : State} {ch : Fin 32} {h : FrameHdr} {pay : BitVec 128} {act : State → State} {i : Instr}

/-- A good event frame taken: its tag is no longer stale, but after a body's end, whose tag stays in use. -/
def eventTaken (ch : Nat) (h : FrameHdr) (pay : BitVec 128) (s : State) : State :=
  if payByte pay 0 = 1 then framed ch s else dropStale ch h.tag (framed ch s)

/-- A good event frame: its row acts, and the next frame is asked for. -/
theorem event_acts (hg : GoodFrame s ch 2 h (payOk pay)) (hi : exec i s = onEvent ch h pay act s) :
    exec i s = ran (mediaNext (nextFrame ch (act (eventTaken ch h pay s)))) := by
  rw [hi, onEvent, checkFrame_framed hg (by decide)]
  rfl

theorem eventTaken_cart (ch : Nat) (h : FrameHdr) (pay : BitVec 128) (s : State) : ∃ stale,
    cartOf (eventTaken ch h pay s) ch = { cartOf s ch with emptyRun := 0, repeatDue := false, stale := stale } := by
  unfold eventTaken
  split
  · exact ⟨_, framed_cart ch s⟩
  · refine ⟨(cartOf s ch).stale.filter (fun r => r.1 != h.tag), ?_⟩
    unfold dropStale
    rw [cartOf_setCart_self, framed_cart]

theorem eventTaken_time (ch : Nat) (h : FrameHdr) (pay : BitVec 128) (s : State) : (eventTaken ch h pay s).time = s.time := by
  unfold eventTaken
  split <;> rfl

theorem eventTaken_outRead (ch : Nat) (tag : BitVec 7) (s : State) : outRead (eventTaken ch h pay s) ch tag = outRead s ch tag := by
  obtain ⟨stale, hcart⟩ := eventTaken_cart ch h pay s
  unfold outRead
  rw [hcart]

theorem eventTaken_runningProg (ch : Nat) (tag : BitVec 7) (s : State) : runningProg (eventTaken ch h pay s) ch tag = runningProg s ch tag := by
  obtain ⟨stale, hcart⟩ := eventTaken_cart ch h pay s
  unfold runningProg
  rw [hcart]

theorem eventTaken_opAt (ch die bank : Nat) (s : State) : opAt (eventTaken ch h pay s) ch die bank = opAt s ch die bank := by
  obtain ⟨stale, hcart⟩ := eventTaken_cart ch h pay s
  unfold opAt
  rw [hcart]

/-- A count of the carter leaves its running programs. -/
theorem setCart_runningProg {f : Carter → Carter} (hf : ∀ c, (f c).running = c.running) (tag : BitVec 7) (s : State) :
    runningProg (setCart ch f s) ch tag = runningProg s ch tag := by
  unfold runningProg
  rw [cartOf_setCart_self, hf]

/-! ## CA_CHECK -/

/-- What a packet sent again leaves of the carter: its counts of CA_CHECK. -/
def CountsKept (s t : State) (ch : Nat) : Prop := (cartOf t ch).caCheck = (cartOf s ch).caCheck ∧ (cartOf t ch).caTimes = (cartOf s ch).caTimes

theorem CountsKept.refl (s : State) (ch : Nat) : CountsKept s s ch := ⟨rfl, rfl⟩

theorem CountsKept.setCart {ch : Nat} (h : CountsKept s t ch) {f : Carter → Carter} (hf : ∀ c, (f c).caCheck = c.caCheck ∧ (f c).caTimes = c.caTimes) :
    CountsKept s (setCart ch f t) ch := by
  obtain ⟨h1, h2⟩ := h
  obtain ⟨hf1, hf2⟩ := hf (cartOf t ch)
  unfold CountsKept
  rw [cartOf_setCart_self]
  exact ⟨hf1.trans h1, hf2.trans h2⟩

theorem sendProg_counts (ch : Nat) (p : CProg) (s : State) : CountsKept s (sendProg ch p s) ch := by
  unfold sendProg
  split
  · exact .refl s ch
  · split
    · exact .refl s ch
    · exact List.foldlRecOn (motive := fun u : State => CountsKept s u ch) _ _ (.refl s ch) (fun _ hu _ _ => hu)

theorem reissue_counts (ch op die bank : Nat) (tag : BitVec 7) (arg : Nat) (s : State) : CountsKept s (reissue ch op die bank tag arg s) ch := by
  have hsend (op die bank block addr : Nat) (tag : BitVec 7) (arg : Nat) : CountsKept s (sendPkt ch op die bank block addr tag arg s) ch := .refl s ch
  have hburst (op die bank block addr : Nat) (tag : BitVec 7) (arg i : Nat) (d : BitVec 1024) :
      CountsKept s (send (sendPkt ch op die bank block addr tag arg s) (.burst ch i d)) ch := .refl s ch
  unfold reissue
  split
  · split
    · next r _ =>
      split
      · have hdrop : CountsKept s (dropOut ch tag s) ch := (CountsKept.refl s ch).setCart (f := fun c => { c with outst := c.outst.filter (fun o => o.1 != tag) })
          (fun _ => ⟨rfl, rfl⟩)
        exact hdrop.setCart (f := fun c => { c with reads := c.reads ++ [r] }) (fun _ => ⟨rfl, rfl⟩)
      · exact hsend ..
    · exact .refl s ch
  · split
    · split
      · exact sendProg_counts ch _ s
      · exact .refl s ch
    · split
      · split
        · exact hburst ..
        · exact .refl s ch
      · split
        · exact hburst ..
        · split
          · split <;> exact hsend ..
          · split
            · exact hburst ..
            · exact hsend ..

/-- A CA_CHECK below the third within a millisecond: counted and noted, and its packet sent again (R226). -/
theorem caCheck_counts (hg : GoodFrame s ch 2 h (payOk pay))
    (hn : ((cartOf s ch).caTimes.filter (fun t => Nat.ble (s.time.ftime.toNat - t.toNat) 1000000)).length < 2) :
    Works (.caCheck ch h pay) s (fun u => (cartOf u ch).caCheck = satInc (cartOf s ch).caCheck ∧
      (cartOf u ch).caTimes = (cartOf s ch).caTimes.filter (fun t => Nat.ble (s.time.ftime.toNat - t.toNat) 1000000) ++ [s.time.ftime]) := by
  have hexec := event_acts (i := .caCheck ch h pay) hg (rfl : _ = execCaCheck ch h pay s)
  dsimp only at hexec
  rw [eventTaken_time] at hexec
  generalize hnoted : setCart ch (fun c => { c with
    caCheck := satInc c.caCheck
    caTimes := c.caTimes.filter (fun t => Nat.ble (s.time.ftime.toNat - t.toNat) 1000000) ++ [s.time.ftime] }) (eventTaken ch h pay s) = noted at hexec
  obtain ⟨hcheck, htimes⟩ := reissue_counts ch (payByte pay 2) h.die.toNat h.bank.toNat h.tag (bits (payParam pay) 20 8) noted
  obtain ⟨stale, hcart⟩ := eventTaken_cart ch h pay s
  rw [← hnoted, cartOf_setCart_self, hcart, hnoted] at hcheck htimes
  rw [if_neg (by rw [htimes, List.length_append]; simp only [List.length_singleton]; omega)] at hexec
  refine ⟨_, hexec, ?_⟩
  dsimp only
  rw [nextFrame_cart]
  exact ⟨hcheck, htimes⟩

theorem setStack_cartOf (c ch : Nat) (f : Stack → Stack) (s : State) : cartOf (setStack c f s) ch = cartOf s ch := rfl

/-- A die's first fault: the die is reset (R256). -/
theorem dieFault_first {ch die cause : Nat} (hf : sfind (cartOf s ch).faultAt die = none) : ∃ t, dieFault ch die cause s = sendPkt ch 0x7F die 0 0 0 127 0 t := by
  unfold dieFault
  extract_lets t1 t2 soon t3
  have hmedia : t1.media = s.media := media_of_keepE (event_keepE _ _)
  clear_value t1
  have hcart : cartOf t2 ch = cartOf s ch := (setStack_cartOf ..).trans (congrArg (fun m : MediaSt => sget ({} : Carter) m.carters ch) hmedia)
  have hsoon : soon = false := by
    simp only [soon]
    rw [hcart, hf]
  refine ⟨_, if_neg ?_⟩
  rw [hsoon]
  exact Bool.false_ne_true

theorem dieFault_resets (hg : GoodFrame s ch 2 h (payOk pay)) (hf : sfind (cartOf s ch).faultAt h.die.toNat = none) :
    Works (.dieFault ch h pay) s (fun u => Out.packet ch 0x7F (mkPkt 0x7F h.die.toNat 0 0 0 127 0) ∈ u.out) := by
  obtain ⟨stale, hcart⟩ := eventTaken_cart ch h pay s
  obtain ⟨t, ht⟩ := dieFault_first (s := eventTaken ch h pay s) (cause := payParam pay) (by rw [hcart]; exact hf)
  have hexec := event_acts (i := .dieFault ch h pay) hg (rfl : _ = execDieFault ch h pay s)
  rw [ht] at hexec
  exact ⟨_, hexec, List.mem_append_right _ (List.mem_singleton.2 rfl)⟩

end

/-- Settles O38: each row acts on the frame taken, by the work its tag names. -/
theorem eventFramesAreFollowed : Obligations.EventFramesAreFollowed := by
  intro s ch h pay hg f acts place
  refine ⟨?held, fun hp => ⟨?noProg, ?noClear⟩, fun p hp => ⟨fun l hl => ?drain, fun l c hl => ?fill, fun b m x hl => ?page, fun b m hl => ?clear⟩,
    ⟨?progFail, ?clearFail⟩, ?suspended, ?alert, ?noop, fun ho => ⟨?denied, fun hp => ?illegal⟩,
    fun r ho => ⟨?illegalRead, fun rid key hl => ?deniedRd, fun hl => ?deniedOther⟩, fun p ho hp => ?illegalProg, fun hn => ?ca, fun hf => ?fault,
    fun hp => ?noAbort, fun p hp => ⟨fun l hl => ?abortDrain, fun l c hl => ?abortFill, fun b m x hl => ?abortPage, fun b m hl => ?abortClear⟩⟩
  case held =>
    have hexec := event_acts (i := .progHeld ch h pay) hg (rfl : _ = execProgHeld ch h pay s)
    rw [eventTaken_time] at hexec
    exact ⟨_, hexec, rfl⟩
  case noProg =>
    have hexec := event_acts (i := .progDone ch h pay) hg (rfl : _ = execProgDone ch h pay s)
    dsimp only at hexec
    rw [eventTaken_runningProg, hp] at hexec
    exact ⟨_, hexec, rfl⟩
  case noClear =>
    have hexec := event_acts (i := .clearDone ch h pay) hg (rfl : _ = execClearDone ch h pay s)
    dsimp only at hexec
    rw [eventTaken_runningProg, hp] at hexec
    exact ⟨_, hexec, rfl⟩
  case drain =>
    have hexec := event_acts (i := .progDone ch h pay) hg (rfl : _ = execProgDone ch h pay s)
    dsimp only at hexec
    rw [eventTaken_runningProg, hp] at hexec
    dsimp only at hexec
    rw [hl] at hexec
    exact ⟨_, hexec, rfl⟩
  case fill =>
    have hexec := event_acts (i := .progDone ch h pay) hg (rfl : _ = execProgDone ch h pay s)
    dsimp only at hexec
    rw [eventTaken_runningProg, hp] at hexec
    dsimp only at hexec
    rw [hl] at hexec
    exact ⟨_, hexec, rfl⟩
  case page =>
    have hexec := event_acts (i := .progDone ch h pay) hg (rfl : _ = execProgDone ch h pay s)
    dsimp only at hexec
    rw [eventTaken_runningProg, hp] at hexec
    dsimp only at hexec
    rw [hl] at hexec
    exact ⟨_, hexec, rfl⟩
  case clear =>
    have hexec := event_acts (i := .clearDone ch h pay) hg (rfl : _ = execClearDone ch h pay s)
    dsimp only at hexec
    rw [eventTaken_runningProg, hp] at hexec
    dsimp only at hexec
    rw [hl] at hexec
    exact ⟨_, hexec, rfl⟩
  case progFail =>
    have hexec := event_acts (i := .progFail ch h pay) hg (rfl : _ = execProgFail ch h pay s)
    dsimp only at hexec
    have hrun := (setCart_runningProg (ch := ch) (f := fun c => { c with pfail := satInc c.pfail }) (fun _ => rfl) h.tag (eventTaken ch h pay s)).trans
      (eventTaken_runningProg ch h.tag s)
    cases hp : runningProg s ch h.tag <;> rw [hrun, hp] at hexec <;> exact ⟨_, hexec, rfl⟩
  case clearFail =>
    have hexec := event_acts (i := .clearFail ch h pay) hg (rfl : _ = execClearFail ch h pay s)
    dsimp only at hexec
    have hrun := (setCart_runningProg (ch := ch) (f := fun c => { c with cfail := satInc c.cfail }) (fun _ => rfl) h.tag (eventTaken ch h pay s)).trans
      (eventTaken_runningProg ch h.tag s)
    cases hp : runningProg s ch h.tag <;> rw [hrun, hp] at hexec <;> exact ⟨_, hexec, rfl⟩
  case suspended => exact ⟨_, event_acts (i := .suspended ch h pay) hg (rfl : _ = execSuspended ch h pay s), rfl⟩
  case alert => exact ⟨_, event_acts (i := .thermAlert ch h pay) hg (rfl : _ = execThermAlert ch h pay s), rfl⟩
  case noop => exact ⟨_, event_acts (i := .suspNoop ch h pay) hg (rfl : _ = execSuspNoop ch h pay s), rfl⟩
  case denied =>
    have hexec := event_acts (i := .readDenied ch h pay) hg (rfl : _ = execReadDenied ch h pay s)
    dsimp only at hexec
    rw [eventTaken_outRead, ho] at hexec
    exact ⟨_, hexec, rfl⟩
  case illegal =>
    have hexec := event_acts (i := .illegal ch h pay) hg (rfl : _ = execIllegal ch h pay s)
    rw [eventTaken_outRead, ho, eventTaken_runningProg, hp] at hexec
    exact ⟨_, hexec, rfl⟩
  case illegalRead =>
    have hexec := event_acts (i := .illegal ch h pay) hg (rfl : _ = execIllegal ch h pay s)
    rw [eventTaken_outRead, ho] at hexec
    exact ⟨_, hexec, rfl⟩
  case deniedRd =>
    have hexec := event_acts (i := .readDenied ch h pay) hg (rfl : _ = execReadDenied ch h pay s)
    dsimp only at hexec
    rw [eventTaken_outRead, ho] at hexec
    dsimp only at hexec
    rw [hl] at hexec
    exact ⟨_, hexec, rfl⟩
  case deniedOther =>
    have hexec := event_acts (i := .readDenied ch h pay) hg (rfl : _ = execReadDenied ch h pay s)
    dsimp only at hexec
    rw [eventTaken_outRead, ho] at hexec
    dsimp only at hexec
    cases hpurpose : r.purpose with
    | rd rid key => exact absurd hpurpose (hl rid key)
    | _ =>
      rw [hpurpose] at hexec
      exact ⟨_, hexec, rfl⟩
  case illegalProg =>
    have hexec := event_acts (i := .illegal ch h pay) hg (rfl : _ = execIllegal ch h pay s)
    rw [eventTaken_outRead, ho, eventTaken_runningProg, hp] at hexec
    exact ⟨_, hexec, rfl⟩
  case ca => exact caCheck_counts hg hn
  case fault => exact dieFault_resets hg hf
  case noAbort =>
    have hexec := event_acts (i := .paborted ch h pay) hg (rfl : _ = execPaborted ch h pay s)
    dsimp only at hexec
    rw [eventTaken_opAt, show opAt s ch h.die.toNat h.bank.toNat = none from hp] at hexec
    exact ⟨_, hexec, rfl⟩
  case abortDrain =>
    have hexec := event_acts (i := .paborted ch h pay) hg (rfl : _ = execPaborted ch h pay s)
    dsimp only at hexec
    rw [eventTaken_opAt, show opAt s ch h.die.toNat h.bank.toNat = some p from hp] at hexec
    dsimp only at hexec
    rw [hl] at hexec
    exact ⟨_, hexec, rfl⟩
  case abortFill =>
    have hexec := event_acts (i := .paborted ch h pay) hg (rfl : _ = execPaborted ch h pay s)
    dsimp only at hexec
    rw [eventTaken_opAt, show opAt s ch h.die.toNat h.bank.toNat = some p from hp] at hexec
    dsimp only at hexec
    rw [hl] at hexec
    exact ⟨_, hexec, rfl⟩
  case abortPage =>
    have hexec := event_acts (i := .paborted ch h pay) hg (rfl : _ = execPaborted ch h pay s)
    dsimp only at hexec
    rw [eventTaken_opAt, show opAt s ch h.die.toNat h.bank.toNat = some p from hp] at hexec
    dsimp only at hexec
    rw [hl] at hexec
    exact ⟨_, hexec, rfl⟩
  case abortClear =>
    have hexec := event_acts (i := .paborted ch h pay) hg (rfl : _ = execPaborted ch h pay s)
    dsimp only at hexec
    rw [eventTaken_opAt, show opAt s ch h.die.toNat h.bank.toNat = some p from hp] at hexec
    dsimp only at hexec
    rw [hl] at hexec
    exact ⟨_, hexec, rfl⟩

end Sys2Proof.Machine
end

section
/-! SUPPORT. The timers of a channel (R240, R251 to R256, R419), with O39 assembled from them. -/

namespace Sys2Proof.Machine

section
variable {s t : State} {ch : Nat}

theorem mailDown_media (u : Nat) (s : State) : (mailDown u s).media = s.media := by
  unfold mailDown
  split
  · rfl
  · split <;> rfl

/-- A unit's change of state leaves the media alone. -/
theorem setUnit_media (n : Nat) (st : UState) (reason : Nat) (repl : Bool) (s : State) : (setUnit n st reason repl s).media = s.media := by
  unfold setUnit
  extract_lets old was units rcd s1 evt s2 saved s3
  have h2 : s2.media = s.media := by
    simp only [s2]
    split <;> rfl
  have h3 : s3.media = s2.media := by
    simp only [s3]
    split
    · exact media_of_keepE (saveUnit_heralds n s2).keep
    · rfl
  clear_value s2 s3
  have hdown : (if isDown st then mailDown n s3 else s3).media = s3.media := by
    split
    · exact mailDown_media n s3
    · rfl
  have hevent (v : State) (old new : UState) : (stateEvent n old new reason repl v).media = v.media := media_of_keepE (event_keepE _ v)
  exact (hevent _ _ _).trans (hdown.trans (h3.trans h2))

theorem cartOf_of_media (h : t.media = s.media) (ch : Nat) : cartOf t ch = cartOf s ch := congrArg (fun m : MediaSt => sget ({} : Carter) m.carters ch) h

theorem outRead_of_cart {tag : BitVec 7} (h : (cartOf t ch).outst = (cartOf s ch).outst) : outRead t ch tag = outRead s ch tag := by
  unfold outRead
  rw [h]

theorem outRead_dropOut (ch : Nat) (tag : BitVec 7) (s : State) : outRead (dropOut ch tag s) ch tag = none := by
  unfold outRead dropOut
  rw [cartOf_setCart_self]
  refine Option.map_eq_none_iff.2 (List.find?_eq_none.2 (fun o ho hp => ?_))
  have hne := (List.mem_filter.1 ho).2
  exact bne_iff_ne.1 hne (beq_iff_eq.1 hp)

theorem setCart_mreads (ch : Nat) (f : Carter → Carter) (s : State) : (setCart ch f s).media.mreads = s.media.mreads := rfl

/-- The read is out of the channel's table, with its event recorded (R256). -/
def timedOut (ch : Nat) (tag : BitVec 7) (r : CRead) (s : State) : State :=
  event { code := 0x020C, unit := uChannel ch, p0 := 0x80, p1 := r.die } (dropOut ch tag s)

/-- The time-outs of the last millisecond and this one. -/
def countTimeout (ch : Nat) (r : CRead) (s : State) : State :=
  setCart ch (fun c => { c with
    timeouts := (c.timeouts.filter (fun t => Nat.ble (s.time.ftime.toNat - t.2.toNat) 1000000)) ++ [(r.die, s.time.ftime)] }) s

/-- A die with eight of them is degraded (R256). -/
def judgeDie (ch : Nat) (r : CRead) (s : State) : State :=
  if 8 ≤ ((cartOf s ch).timeouts.filter (fun t => t.1 == r.die)).length ∧ ownState s (uDie (dieKey ch r.die)) = .ready then
    setUnit (uDie (dieKey ch r.die)) .degraded 4 false s else s

theorem timedOut_media (ch : Nat) (tag : BitVec 7) (r : CRead) (s : State) : (timedOut ch tag r s).media = (dropOut ch tag s).media :=
  media_of_keepE (event_keepE _ _)

theorem countTimeout_outst (ch : Nat) (r : CRead) (s : State) : (cartOf (countTimeout ch r s) ch).outst = (cartOf s ch).outst := by
  unfold countTimeout
  rw [cartOf_setCart_self]

theorem judgeDie_media (ch : Nat) (r : CRead) (s : State) : (judgeDie ch r s).media = s.media := by
  unfold judgeDie
  split
  · exact setUnit_media ..
  · rfl

theorem dropOut_mreads (ch : Nat) (tag : BitVec 7) (s : State) : (dropOut ch tag s).media.mreads = s.media.mreads := rfl

theorem countTimeout_mreads (ch : Nat) (r : CRead) (s : State) : (countTimeout ch r s).media.mreads = s.media.mreads := rfl

theorem judged_mreads (ch : Nat) (tag : BitVec 7) (r : CRead) (s : State) :
    (judgeDie ch r (countTimeout ch r (timedOut ch tag r s))).media.mreads = s.media.mreads := by
  rw [judgeDie_media, countTimeout_mreads, timedOut_media, dropOut_mreads]

theorem judged_outRead (ch : Nat) (tag : BitVec 7) (r : CRead) (s : State) :
    outRead (judgeDie ch r (countTimeout ch r (timedOut ch tag r s))) ch tag = none := by
  refine Eq.trans (outRead_of_cart ?_) (outRead_dropOut ch tag s)
  rw [cartOf_of_media (judgeDie_media ..), countTimeout_outst, cartOf_of_media (timedOut_media ..)]

theorem begin_outRead (s : State) (ch : Nat) (tag : BitVec 7) : outRead (begin s) ch tag = outRead s ch tag := rfl

theorem begin_mreads (s : State) : (begin s).media.mreads = s.media.mreads := rfl

end

section
variable {s : State} {ch : Fin 32} {tag : BitVec 7} {die : Fin 16} {bank : Fin 8}

/-- A read that times out is answered as silent, once it is out of the channel's table (R256). -/
theorem readTimeout_silent {r : CRead} (hr : outRead s ch tag = some r) : Works (.readTimeout ch tag) s (fun u => ∃ v,
    u = readAnswered ch r .silent v ∧ outRead v ch tag = none ∧ v.media.mreads = s.media.mreads) := by
  have hexec : exec (.readTimeout ch tag) s = execReadTimeout ch tag s := rfl
  unfold execReadTimeout at hexec
  dsimp only at hexec
  rw [begin_outRead, hr] at hexec
  dsimp only at hexec
  exact ⟨_, hexec, judgeDie ch r (countTimeout ch r (timedOut ch tag r (begin s))), rfl, judged_outRead .., (judged_mreads ..).trans (begin_mreads s)⟩

/-- The channel no longer keeps the reads of the host that wait for a held bank. -/
def withoutHeld (ch die bank : Nat) (s : State) : State :=
  setCart ch (fun c => { c with reads := c.reads.filter (fun r => !(r.host && r.die == die && r.bank == bank)) }) s

/-- What a held bank's reads of the host do instead of waiting. -/
def rerouted (ch : Nat) (s : State) (r : CRead) : State :=
  match r.purpose with
  | .rd rid key => readLineRes rid key r.step .denied { s with tt := { s.tt with rerouted := satInc s.tt.rerouted } }
  | _ => askRead ch r s

theorem heldReadReroute_exec {p : CProg} (hp : opAt s ch die bank = some p) (hh : p.phase = .held) : exec (.heldReadReroute ch die bank) s =
    ran (mediaNext (((cartOf s ch).reads.filter (fun r => r.host && r.die == die.val && r.bank == bank.val)).foldl (rerouted ch)
      (withoutHeld ch die bank (begin s)))) := by
  have hexec : exec (.heldReadReroute ch die bank) s = execHeldReadReroute ch die bank s := rfl
  unfold execHeldReadReroute at hexec
  dsimp only at hexec
  rw [show opAt (begin s) ch die bank = some p from hp] at hexec
  dsimp only at hexec
  rw [if_neg (not_not_intro hh)] at hexec
  exact hexec

theorem heldReadReroute_idle (hp : ∀ p, opAt s ch die bank = some p → p.phase ≠ .held) : exec (.heldReadReroute ch die bank) s = ran (begin s) := by
  have hexec : exec (.heldReadReroute ch die bank) s = execHeldReadReroute ch die bank s := rfl
  unfold execHeldReadReroute at hexec
  dsimp only at hexec
  cases hop : opAt s ch die bank with
  | none =>
    rw [show opAt (begin s) ch die bank = none from hop] at hexec
    exact hexec
  | some p =>
    rw [show opAt (begin s) ch die bank = some p from hop] at hexec
    exact hexec.trans (if_pos (hp p hop))

/-- A bank that is still held at the limit is late, as its stack will find (R240). -/
def heldLate (k : Nat) (s : State) : State := if (bankOf s k).st = .held then setBank k (fun b => { b with heldLate := true }) s else s

theorem heldLate_facts (k : Nat) (s : State) : (heldLate k s).media.carters = s.media.carters ∧ (heldLate k s).out = s.out := by
  unfold heldLate
  split <;> exact ⟨rfl, rfl⟩

theorem heldLate_opAt (k ch die bank : Nat) (s : State) : opAt (heldLate k s) ch die bank = opAt s ch die bank := by
  unfold opAt cartOf
  rw [(heldLate_facts k s).1]

theorem holdLimit_exec : exec (.holdLimit ch die bank) s = match opAt s ch die bank with
    | some p => if p.phase = .held then ran (sendPkt ch 0x14 die bank 0 0 p.tag 0 (heldLate (bankKey ch die bank) (begin s)))
      else ran (heldLate (bankKey ch die bank) (begin s))
    | none => ran (heldLate (bankKey ch die bank) (begin s)) := by
  have hop : opAt (heldLate (bankKey ch die bank) (begin s)) ch die bank = opAt s ch die bank := heldLate_opAt ..
  rw [← hop]
  rfl

theorem sendPkt_first {v : State} (hv : v.out = []) (ch op die bank block addr : Nat) (tag : BitVec 7) (arg : Nat) :
    sendPkt ch op die bank block addr tag arg v = { v with out := [.packet ch (BitVec.ofNat 8 op) (mkPkt op die bank block addr tag arg)] } := by
  unfold sendPkt send
  rw [hv, List.nil_append]

end

/-- Settles O39: each timer by what it finds. -/
theorem channelTimersAct : Obligations.ChannelTimersAct := by
  intro s ch tag die bank place idle k late
  refine ⟨fun r hr => readTimeout_silent hr, fun ho hr => ?nothing, fun p hp hh => ⟨?limit, fun hnone => ?noReads, fun r rid key hone hl => ?reroute⟩,
    fun hp => ⟨?noLimit, ?noReroute⟩, fun ht => ?train, fun ht => ?noTrain, fun ht => ?zq, fun ht => ?noZq⟩
  case nothing =>
    have hexec : exec (.readTimeout ch tag) s = execReadTimeout ch tag s := rfl
    unfold execReadTimeout at hexec
    dsimp only at hexec
    rw [show outRead (begin s) ch tag = none from ho, show (cartOf (begin s) ch).raws.find? (fun r => r.1 == tag) = none from hr] at hexec
    exact ends_of_ran hexec rfl
  case limit =>
    have hexec := holdLimit_exec (s := s) (ch := ch) (die := die) (bank := bank)
    rw [show opAt s ch die bank = some p from hp] at hexec
    refine ends_of_ran (hexec.trans (if_pos hh)) ?_
    exact sendPkt_first (heldLate_facts k (begin s)).2 ..
  case noReads =>
    have hexec := heldReadReroute_exec hp hh
    rw [hnone] at hexec
    exact ⟨_, hexec, rfl, rfl, rfl⟩
  case reroute =>
    have hexec := heldReadReroute_exec hp hh
    rw [hone, List.foldl_cons, List.foldl_nil] at hexec
    unfold rerouted at hexec
    rw [hl] at hexec
    refine ⟨_, hexec, _, rfl, rfl, ?_⟩
    exact congrArg Carter.reads (cartOf_setCart_self ch (fun c => { c with reads := c.reads.filter (fun r => !(r.host && r.die == die.val && r.bank == bank.val)) })
      (begin s))
  case noLimit =>
    have hexec := holdLimit_exec (s := s) (ch := ch) (die := die) (bank := bank)
    cases hop : opAt s ch die bank with
    | none =>
      rw [hop] at hexec
      exact ends_of_ran hexec rfl
    | some p =>
      rw [hop] at hexec
      exact ends_of_ran (hexec.trans (if_neg (hp p hop))) rfl
  case noReroute => exact ends_of_ran (heldReadReroute_idle hp) rfl
  case train =>
    have hexec : exec (.channelTrainTimeout ch) s = execChannelTrainTimeout ch s := rfl
    exact ⟨_, hexec.trans (if_pos ht), rfl⟩
  case noTrain =>
    have hexec : exec (.channelTrainTimeout ch) s = execChannelTrainTimeout ch s := rfl
    exact ends_of_ran (hexec.trans (if_neg (Bool.eq_false_iff.1 ht))) rfl
  case zq =>
    have hexec : exec (.zqcalTimer ch) s = execZqcalTimer ch s := rfl
    exact ends_of_ran (hexec.trans (if_pos ht)) rfl
  case noZq =>
    have hexec : exec (.zqcalTimer ch) s = execZqcalTimer ch s := rfl
    exact ends_of_ran (hexec.trans (if_neg (Bool.eq_false_iff.1 ht))) rfl

end Sys2Proof.Machine
end

section
/-! SUPPORT. The unit commands that start jobs (R444, R470 to R473, R567), with O40 assembled from them. -/

namespace Sys2Proof.Machine

section
variable {v : VSpec} {c : Caller} {inp : List Byte} {early late : State → Option VAns} {act : State → VAns × State} {after : State → State}
  {s t : State} {need : Nat}

/-- A heard command that nothing refuses and that answers DONE or STARTED without output, with what it does after its answer. -/
theorem heard_told {i : Instr} (hi : exec i s = onVendor v c inp early late act after s) (h : Heard c inp s v.host v.star v.lock v.span need)
    (hf : ∀ f ∈ v.fields, f.1 + f.2 ≤ need) (he : early (begin s) = none) (hl : late (begin s) = none) (hv : v.outLen = 0) {a : VAns}
    (hm : a.mstat ≤ 1) (ho : a.out = []) (ha : act (begin s) = (a, t)) :
    exec i s = ran (after (send t (.vendor c .success (reply a.mstat a.job [])))) := by
  rw [hi, onVendor_heard h hf he hl, ha, vPayload_of_out_nil hv ho]
  exact congrArg ran (if_pos hm)

theorem vStart_room {op : Nat} {k : JobKind} (h : s.unit.running.length < 64) :
    vStart op c k s = ({ mstat := 1, job := s.unit.nextJob.toNat }, (startJob op c k s).2) := if_neg (Nat.not_le.2 h)

end

section
variable {s : State} {c : Caller} {inp : List Byte}

/-- The job a unit command starts. -/
def unitJob (o : UnitOp) (destr : Bool) (u : Nat) (s : State) : JobKind :=
  match o with
  | .test => .unitTest (BitVec.ofNat 24 u) destr (ownState s u)
  | .bypass => .unitBypass (BitVec.ofNat 24 u)
  | .isolate => .unitIsolate (BitVec.ofNat 24 u)
  | .readmit => .unitReadmit (BitVec.ofNat 24 u)
  | .retire => .unitRetire (BitVec.ofNat 24 u)

/-- What a unit command does at once, with its job `id` started. -/
def unitAtOnce (o : UnitOp) (u : Nat) (before : UState) (id : Nat) (s : State) : State :=
  match o with
  | .test => if before = .bypassed ∨ before = .isolated then setUnit u .testing 1 false s else s
  | .readmit => if uClass u = 8 ∧ s.power.seq = .shuttingDown then endJob id 0x0301 s else readmitBegin u s
  | .retire => if uClass u = 8 then addRemoval u id s else s
  | _ => if isPlanned u then addRemoval u id s else s

theorem unitAct_room (o : UnitOp) (destr : Bool) (op u : Nat) (h : s.unit.running.length < 64) : unitAct o destr op c u s =
    ({ mstat := 1, job := s.unit.nextJob.toNat },
      unitAtOnce o u (ownState s u) s.unit.nextJob.toNat (startJob op c (unitJob o destr u s) s).2) := by
  unfold unitAct
  dsimp only
  cases o <;> rw [vStart_room h] <;> rfl

/-- A heard unit command that nothing refuses starts its job and answers STARTED with it. -/
theorem onUnit_works {o : UnitOp} {op : Nat} {i : Instr} {destr : Bool} (hi : exec i s = onUnit o op c inp s) (h : Heard c inp s false false true false 4)
    (hroom : s.unit.running.length < 64) (hlen : o = .test → 5 ≤ inp.length) (hd : (o == .test && field inp 4 1 == 1) = destr)
    (hone : o = .test → field inp 4 1 ≤ 1) (he : unitEarly o destr (unitIn inp) (begin s) = none)
    (hl : unitLate o destr c (unitIn inp) (begin s) = none) {t : State} (ht : unitAtOnce o (unitIn inp) (ownState s (unitIn inp)) s.unit.nextJob.toNat
      (startJob op c (unitJob o destr (unitIn inp) s) (begin s)).2 = t) : Works i s (Told c 1 s.unit.nextJob.toNat t) := by
  have hneed : Heard c inp s false false true false (if o = .test then 5 else 4) := by
    obtain ⟨hr, ht, hn, hrest⟩ := h
    refine ⟨hr, ht, ?_, hrest⟩
    split
    · next ho => exact hlen ho
    · exact hn
  refine ⟨_, heard_told (v := { op := op, host := false, star := false, lock := true, fields := if o = .test then [(0, 4), (4, 1)] else [(0, 4)] })
    (after := mediaNext) hi hneed (fun f hf => ?_) ?_ (by rw [hd]; exact hl) rfl (Nat.le_refl 1) rfl (unitAct_room o _ op _ hroom), ?_⟩
  · dsimp only at hf
    split at hf
    · next ho => rw [if_pos ho]; fin_cases hf <;> decide
    · next ho => rw [if_neg ho]; fin_cases hf; decide
  · have hrange : ¬ (o == .test && Nat.blt 1 (field inp 4 1)) = true := by
      cases o with
      | test => exact fun hbad => absurd (hone rfl) (Nat.not_le.2 (Nat.blt_eq.mp hbad))
      | _ => exact Bool.false_ne_true
    rw [hd, he, chk_passes hrange]
    rfl
  · rw [hd, ← ht]
    rfl

end

/-- Settles O40: each command is its job started, with what it does at once. -/
theorem unitCommandsStartJobs : Obligations.UnitCommandsStartJobs := by
  intro s c inp h hroom u w id ok job planned
  have hother {o : UnitOp} (ho : (o == .test) = false) : (o == .test && field inp 4 1 == 1) = false := by rw [ho, Bool.false_and]
  refine ⟨fun destr hlen hd ⟨he, hl⟩ => ?test, fun ⟨he, hl⟩ => ?bypass, fun ⟨he, hl⟩ => ?isolate, fun ⟨he, hl⟩ hup => ?readmit,
    fun ⟨he, hl⟩ h8 hoff => ?down, fun ⟨he, hl⟩ => ?retire⟩
  case test =>
    refine onUnit_works (o := .test) rfl h hroom (fun _ => hlen) ?_ (fun _ => ?_) he hl rfl
    · rw [hd]
      cases destr <;> rfl
    · rw [hd]
      cases destr <;> decide
  case bypass => exact onUnit_works (o := .bypass) rfl h hroom nofun (hother rfl) nofun he hl rfl
  case isolate => exact onUnit_works (o := .isolate) rfl h hroom nofun (hother rfl) nofun he hl rfl
  case readmit =>
    have hnot : ¬ (uClass u = 8 ∧ (job 0xC105 (.unitReadmit w)).power.seq = .shuttingDown) := fun hb => hup.elim (absurd hb.1) (absurd hb.2)
    exact onUnit_works (o := .readmit) rfl h hroom nofun (hother rfl) nofun he hl (if_neg hnot)
  case down =>
    have hid : ((s.unit.nextJob.toNat : Nat) : BitVec 16) = s.unit.nextJob := (BitVec.ofNat_toNat 16 _).trans (BitVec.setWidth_eq _)
    refine onUnit_works (o := .readmit) rfl h hroom nofun (hother rfl) nofun he hl ((if_pos ⟨h8, hoff⟩).trans ?_)
    rw [hid]
    rfl
  case retire => exact onUnit_works (o := .retire) rfl h hroom nofun (hother rfl) nofun he hl rfl

end Sys2Proof.Machine
end

section
/-! SUPPORT. The rows that end units' jobs (R444, R467, R471 to R473, R671), with O41 assembled from them. -/

namespace Sys2Proof.Machine

/-- Settles O41: each row by the job it names. -/
theorem unitRowsEndJobs : Obligations.UnitRowsEndJobs := by
  intro s id unit peer idle job
  have hjobEnd (ok : Bool) : exec (.jobEnd id ok) s = execJobEnd id ok s := rfl
  have htest : exec (.unitTestTimeout id) s = execUnitTestTimeout id s := rfl
  have hpeer : exec (.peerCommandTimeout id peer) s = execPeerCommandTimeout id peer s := rfl
  have hplanned : exec (.plannedRemovalTimeout id) s = execPlannedRemovalTimeout id s := rfl
  have hidle : exec (.unitIdleEntry unit) s = execUnitIdleEntry unit s := rfl
  unfold execJobEnd at hjobEnd
  unfold execUnitTestTimeout at htest
  unfold execPeerCommandTimeout at hpeer
  unfold execUnitIdleEntry at hidle
  dsimp only at hjobEnd htest hpeer hidle
  refine ⟨fun hnone => ?none, fun j hj => ?some, fun ha => ?planned, fun ha => ?noPlanned, fun hf hp ho => ?entry, fun ho => ?noEntry⟩
  case none =>
    have hj : (begin s).unit.running.find? (fun j => j.id == id) = none := hnone
    rw [hj] at htest hpeer
    refine ⟨fun ok => ?_, ends_of_ran htest rfl, ends_of_ran hpeer rfl⟩
    have hend := hjobEnd ok
    rw [hj] at hend
    exact ends_of_ran hend rfl
  case some =>
    have hj : (begin s).unit.running.find? (fun j => j.id == id) = some j := hj
    rw [hj] at htest hpeer
    dsimp only at htest hpeer
    simp only [hj] at hjobEnd
    refine ⟨fun w d b hk => ?test, fun w hk hp => ?bypass, fun w hk hp => ?isolate, fun w hk h8 => ?retire, fun w hk hc => ?readmit, fun hk => ?peer⟩
    case test =>
      rw [hk] at htest
      simp only [hk] at hjobEnd
      exact ⟨fun ok => ⟨_, hjobEnd ok, rfl⟩, ends_of_ran htest rfl⟩
    case bypass =>
      simp only [hk, hp, Bool.false_eq_true, if_false] at hjobEnd
      exact ⟨ends_of_ran (hjobEnd true) (if_pos rfl), ends_of_ran (hjobEnd false) (if_neg Bool.false_ne_true)⟩
    case isolate =>
      simp only [hk, hp, Bool.false_eq_true, if_false] at hjobEnd
      exact ⟨⟨_, hjobEnd true, if_pos rfl⟩, ⟨_, hjobEnd false, if_neg Bool.false_ne_true⟩⟩
    case retire =>
      simp only [hk, h8, if_false] at hjobEnd
      exact ⟨⟨_, hjobEnd true, if_pos rfl⟩, ⟨_, hjobEnd false, if_neg Bool.false_ne_true⟩⟩
    case readmit =>
      simp only [hk, List.contains_iff_mem.2 hc, if_true] at hjobEnd
      exact ⟨ends_of_ran (hjobEnd true) (if_pos rfl), ends_of_ran (hjobEnd false) (if_neg Bool.false_ne_true)⟩
    case peer =>
      obtain hk | hk | hk | ⟨i, p, hk⟩ := hk <;> rw [hk] at hpeer <;> exact ends_of_ran hpeer rfl
  case planned => exact ends_of_ran (hplanned.trans (if_pos ha)) rfl
  case noPlanned => exact ends_of_ran (hplanned.trans (if_neg (Bool.eq_false_iff.1 ha))) rfl
  case entry =>
    have hall : (idleFree (begin s) unit.toNat && unitPresent (begin s) unit.toNat && ownState (begin s) unit.toNat == .ready) = true := by
      change (idleFree s unit.toNat && unitPresent s unit.toNat && ownState s unit.toNat == .ready) = true
      rw [hf, hp, ho]
      rfl
    exact ends_of_ran (hidle.trans (if_pos hall)) rfl
  case noEntry =>
    have hnot : ¬ (idleFree (begin s) unit.toNat && unitPresent (begin s) unit.toNat && ownState (begin s) unit.toNat == .ready) = true :=
      fun hall => ho (beq_iff_eq.1 (Bool.and_eq_true_iff.1 hall).2)
    exact ends_of_ran (hidle.trans (if_neg hnot)) rfl

end Sys2Proof.Machine
end

section
/-! SUPPORT. The commands for frames and caches (R121, R216 to R218, R297, R353), with O42 assembled from them. -/

namespace Sys2Proof.Machine

section
variable {s : State} {c : Caller} {inp : List Byte} {l : Nat}

/-- A command of the frame layout, with all its fields. -/
theorem frameFields_fit {need : Nat} (h : 12 ≤ need) : ∀ f ∈ frameFields, f.1 + f.2 ≤ need := by
  intro f hf
  fin_cases hf <;> exact le_trans (by decide) h

theorem inputLfn_named (h : inputLfn s c inp = some l) : (ldNamed s c (frameIn inp).ld).isNone = false := by
  obtain ⟨i, hi, -⟩ := Option.bind_eq_some_iff.1 h
  rw [hi]
  rfl

/-- What FRAME_PIN does to frame `l`. -/
def pinAct (c : Caller) (op l : Nat) (s : State) : VAns × State :=
  if op = 1 ∧ ftMode (ftEntry s l) = mDense then
    if (vStart 0xC201 c (.pin l) s).1.mstat = 1 then
      ((vStart 0xC201 c (.pin l) s).1, startPromotion l true (some (BitVec.ofNat 16 (vStart 0xC201 c (.pin l) s).1.job)) (vStart 0xC201 c (.pin l) s).2)
    else vStart 0xC201 c (.pin l) s
  else (vDone [], setPinned l (op == 1) s)

/-- What FRAME_DISCARD does to the frames it names in LD `i`. -/
def discardAct (c : Caller) (inp : List Byte) (i : Nat) (s : State) : VAns × State :=
  let ls := discardLfns s i (discardRanges inp)
  let t := ls.foldl (fun s l => emptyFrame l mDiscarded s) s
  if !ls.any (zeroPending t) then (vDone [], t)
  else if (vStart 0xC202 c (.discard ls) t).1.mstat = 1 then vStart 0xC202 c (.discard ls) t else ((vStart 0xC202 c (.discard ls) t).1, s)

/-- A FRAME_PIN whose frame exists, whose operation is 0 or 1 and whose state allows it runs. -/
theorem framePin_runs {a : VAns} {t : State} (h : Heard c inp s true false false false 12) (hl : inputLfn s c inp = some l)
    (hop : (frameIn inp).op ≤ 1) (hlate : pinLate l (frameIn inp).op (begin s) = none) (hm : a.mstat ≤ 1) (ho : a.out = [])
    (ha : pinAct c (frameIn inp).op l (begin s) = (a, t)) : Works (.framePin c inp) s (Told c a.mstat a.job t) := by
  have hl' : inputLfn (begin s) c inp = some l := hl
  have hget : (inputLfn (begin s) c inp).getD 0 = l := by rw [hl']; rfl
  have hexec : exec (.framePin c inp) s = execFramePin c inp s := rfl
  unfold execFramePin at hexec
  refine ⟨_, heard_told (after := mediaNext) hexec h (frameFields_fit (Nat.le_refl 12)) ?_ ?_ rfl hm ho ?_, rfl⟩
  · have hrange : ¬ Nat.blt 1 (frameIn inp).op = true := fun hb => absurd hop (Nat.not_le.2 (Nat.blt_eq.mp hb))
    unfold frameEarly
    rw [inputLfn_named hl', hl', chk_passes hrange]
    rfl
  · exact (congrArg (fun l => pinLate l (frameIn inp).op (begin s)) hget).trans hlate
  · exact (congrArg (fun l => pinAct c (frameIn inp).op l (begin s)) hget).trans ha

theorem pinMode_dense_or_fast (hm : ftMode (ftEntry s l) = mDense ∨ ftMode (ftEntry s l) = mFast) :
    (ftMode (ftEntry s l) == mDense || ftMode (ftEntry s l) == mFast) = true := by
  obtain hm | hm := hm <;> rw [hm] <;> rfl

theorem pinRoom {op : Nat} (hroom : op = 1 → ftMode (ftEntry s l) = mDense → s.xlat.fastResMin.toNat < freeSets s) :
    (op == 1 && ftMode (ftEntry s l) == mDense && Nat.ble (freeSets s) s.xlat.fastResMin.toNat) = false := by
  rw [Bool.eq_false_iff]
  intro hb
  obtain ⟨hleft, hle⟩ := Bool.and_eq_true_iff.1 hb
  obtain ⟨h1, hdense⟩ := Bool.and_eq_true_iff.1 hleft
  exact absurd (Nat.le_of_ble_eq_true hle) (Nat.not_le.2 (hroom (beq_iff_eq.1 h1) (beq_iff_eq.1 hdense)))

theorem pinLate_none {op : Nat} (hstate : (!framesReady s || s.span.desc.isSome || s.xlat.restoring.contains l) = false)
    (hmode : (ftMode (ftEntry s l) == mDense || ftMode (ftEntry s l) == mFast) = true)
    (hfull : (op == 1 && ftMode (ftEntry s l) == mDense && Nat.ble (freeSets s) s.xlat.fastResMin.toNat) = false)
    (hj : pinJob s l = none) : pinLate l op s = none := by
  unfold pinLate
  dsimp only
  rw [hstate, hmode, hfull, hj]
  simp only [Bool.not_true, Bool.or_self, chk_false, firstOf_cons]
  rfl

/-- What FRAME_PIN asks of a Dense or Fast frame outside a span. -/
theorem pinLate_passes {op : Nat} (hr : framesReady s = true) (hs : s.span.desc = none) (hx : s.xlat.restoring.contains l = false)
    (hj : pinJob s l = none) (hm : ftMode (ftEntry s l) = mDense ∨ ftMode (ftEntry s l) = mFast)
    (hroom : op = 1 → ftMode (ftEntry s l) = mDense → s.xlat.fastResMin.toNat < freeSets s) : pinLate l op s = none := by
  refine pinLate_none ?_ (pinMode_dense_or_fast hm) (pinRoom hroom) hj
  rw [hr, hs, hx]
  rfl

/-- A CACHE_FLUSH or CACHE_INVALIDATE that nothing refuses starts its job and has its lines leave the caches. -/
theorem onCache_runs {i : Instr} {op : Nat} {inval : Bool} {scope : List (Nat × Nat)} (hi : exec i s = onCache op inval c inp s)
    (h : Heard c inp s true false false false 12) (hroom : s.unit.running.length < 64) (he : cacheEarly c inp (begin s) = none)
    (hl : cacheLate c inp (begin s) = none) (hs : cacheScope (begin s) c (frameIn inp) = some scope) :
    let lines := ((dirtyLlns (begin s)).filter (fun l => scope.any (fun r => Nat.ble r.1 (lfnOf l) && Nat.blt (lfnOf l) (r.1 + r.2)))).flatMap
      (flushLines (begin s))
    Works i s (fun u => ∃ w, Told c 1 s.unit.nextJob.toNat
      (lines.foldl (fun s l => drainLine l true s) (startJob op c (.flush lines inval scope) (begin s)).2) w ∧ u = updLoad (flushJobs none w)) := by
  intro lines
  unfold onCache at hi
  refine ⟨_, heard_told (after := fun s => mediaNext (updLoad (flushJobs none s))) hi h (frameFields_fit (Nat.le_refl 12)) he hl rfl
    (a := { mstat := 1, job := s.unit.nextJob.toNat }) (Nat.le_refl 1) rfl ?_, _, rfl, rfl⟩
  dsimp only
  rw [hs, vStart_room (s := begin s) hroom]
  rfl

end

/-- Settles O42: each command by its checks and what it does. -/
theorem frameCommandsAct : Obligations.FrameCommandsAct := by
  intro s c inp hroom id f
  refine ⟨fun opcode h => ?unknown, fun l h hl hr hs hx hj => ⟨fun h0 hm => ?unpin, fun h1 hm => ?pinFast, fun h1 hm hfree => ?promote⟩,
    fun i h he hr hi => ?discard, fun scope h he hl hs => ?caches⟩
  case unknown =>
    have hexec : exec (.unknownVendorOpcode c opcode inp) s = execUnknownVendorOpcode c opcode inp s := rfl
    unfold execUnknownVendorOpcode at hexec
    exact ends_of_ran (hexec.trans (onVendor_heard h (fun _ hf => absurd hf List.not_mem_nil) rfl rfl)) rfl
  case unpin =>
    have h0 : (frameIn inp).op = 0 := h0
    refine framePin_runs (a := vDone []) h hl (by rw [h0]; exact Nat.zero_le 1) ?_ (Nat.zero_le 1) rfl ?_
    · exact pinLate_passes (s := begin s) hr hs hx hj hm (fun h1 => absurd (h0.symm.trans h1) (by decide))
    · rw [h0]
      rfl
  case pinFast =>
    have h1 : (frameIn inp).op = 1 := h1
    have hnot : ¬ (1 = 1 ∧ ftMode (ftEntry s l) = mDense) := fun hb => absurd (hm.symm.trans hb.2) (by decide)
    refine framePin_runs (a := vDone []) h hl (by rw [h1]) ?_ (Nat.zero_le 1) rfl ?_
    · exact pinLate_passes (s := begin s) hr hs hx hj (.inr hm) (fun _ hd => absurd (hm.symm.trans hd) (by decide))
    · rw [h1]
      exact if_neg hnot
  case promote =>
    have h1 : (frameIn inp).op = 1 := h1
    have hid : BitVec.ofNat 16 s.unit.nextJob.toNat = s.unit.nextJob := (BitVec.ofNat_toNat 16 _).trans (BitVec.setWidth_eq _)
    refine framePin_runs (a := { mstat := 1, job := s.unit.nextJob.toNat }) h hl (by rw [h1]) ?_ (Nat.le_refl 1) rfl ?_
    · exact pinLate_passes (s := begin s) hr hs hx hj (.inl hm) (fun _ _ => hfree)
    · refine (if_pos ⟨h1, hm⟩).trans ?_
      rw [vStart_room (s := begin s) hroom, if_pos rfl]
      dsimp only [begin]
      rw [hid]
  case discard =>
    intro ls t
    have hget : (ldNamed (begin s) c (field inp 0 1)).getD 0 = i := by
      rw [show ldNamed (begin s) c (field inp 0 1) = some i from hi]
      rfl
    have hexec : exec (.frameDiscard c inp) s = execFrameDiscard c inp s := rfl
    unfold execFrameDiscard at hexec
    have hlate : chk (!framesReady (begin s)) (vState (ldReport ((ldNamed (begin s) c (field inp 0 1)).getD 0) (begin s))) = none :=
      chk_passes (by rw [show framesReady (begin s) = true from hr]; exact Bool.false_ne_true) _
    have hfields : ∀ f ∈ [(0, 1), (1, 1), (2, 2)], f.1 + f.2 ≤ 4 := by decide
    refine ⟨fun hz => ?_, fun hz hroom' => ?_⟩
    · refine ⟨_, heard_told (after := fun s => mediaNext (updLoad s)) (a := vDone []) hexec h hfields he hlate rfl (Nat.zero_le 1) rfl ?_, _, rfl, rfl⟩
      exact (congrArg (fun i => discardAct c inp i (begin s)) hget).trans (if_pos (by rw [hz]; rfl))
    · refine ⟨_, heard_told (after := fun s => mediaNext (updLoad s)) (a := { mstat := 1, job := t.unit.nextJob.toNat }) hexec h hfields he hlate rfl
        (Nat.le_refl 1) rfl ?_, _, rfl, rfl⟩
      refine (congrArg (fun i => discardAct c inp i (begin s)) hget).trans ((if_neg (by rw [hz]; exact Bool.false_ne_true)).trans ?_)
      rw [vStart_room hroom']
      exact if_pos rfl
  case caches => exact ⟨onCache_runs rfl h hroom he hl hs, onCache_runs rfl h hroom he hl hs⟩

end Sys2Proof.Machine
end

section
/-! SUPPORT. The mailboxes of channels and quads (R478 to R483): a mailbox's access, offer and reply, then O44 assembled from them. -/

namespace Sys2Proof.Machine

/-! ## An entry of a table changed, the others kept -/

section
variable {α : Type}

theorem sfind_sdel_ne (m : SMap α) {k j : Nat} (h : j ≠ k) : sfind (sdel m k) j = sfind m j := by
  induction m with
  | nil => rfl
  | cons e m ih =>
    obtain ⟨i, v⟩ := e
    unfold sdel
    split
    · next hi => rw [ih, sfind, if_neg (fun hj => h (hj.symm.trans hi))]
    · rw [sfind, sfind, ih]

theorem sfind_smod_ne [DecidableEq α] (d : α) (m : SMap α) {k j : Nat} (f : α → α) (h : j ≠ k) : sfind (smod d m k f) j = sfind m j := by
  unfold smod sset
  split
  · exact sfind_sdel_ne m h
  · exact sfind_sput_ne m _ h

end

/-! ## Message words -/

theorem word_fields (m : BitVec 16) (n t : Byte) : BitVec.ofNat 32 (m.toNat + n.toNat * 2 ^ 16 + t.toNat * 2 ^ 24) = t ++ n ++ m := by
  apply BitVec.eq_of_toNat_eq
  rw [BitVec.toNat_append, BitVec.toNat_append, ← Nat.shiftLeft_add_eq_or_of_lt m.isLt, ← Nat.shiftLeft_add_eq_or_of_lt n.isLt, Nat.shiftLeft_eq,
    Nat.shiftLeft_eq, BitVec.toNat_ofNat]
  have := m.isLt
  have := n.isLt
  have := t.isLt
  omega

/-- A reply's first word: the message and tag of the request with the count of its own words. -/
theorem word_counted (m : BitVec 16) (n t k : Byte) : (BitVec.ofNat 32 (m.toNat + n.toNat * 2 ^ 16 + t.toNat * 2 ^ 24) &&& 0xFF00FFFF) |||
    BitVec.ofNat 32 (k.toNat * 2 ^ 16) = BitVec.ofNat 32 (m.toNat + k.toNat * 2 ^ 16 + t.toNat * 2 ^ 24) := by
  have hmask : (0xFF00FFFF : Word) = BitVec.allOnes 8 ++ 0#8 ++ BitVec.allOnes 16 := by decide
  have hcount : BitVec.ofNat 32 (k.toNat * 2 ^ 16) = 0#8 ++ k ++ 0#16 := by
    rw [← word_fields]
    congr 1
    simp
  rw [word_fields, word_fields, hmask, hcount, BitVec.and_append, BitVec.and_append, BitVec.or_append, BitVec.or_append]
  simp only [BitVec.and_allOnes, BitVec.and_zero, BitVec.or_zero, BitVec.zero_or]

/-- A quad reply's low word: the message and tag of the request with the result. -/
theorem word_result (m : BitVec 16) (t r : Byte) (arg : Nat) : (BitVec.ofNat 32 (m.toNat + t.toNat * 2 ^ 16 + arg * 2 ^ 24) &&& 0x00FFFFFF) |||
    BitVec.ofNat 32 (r.toNat * 2 ^ 24) = BitVec.ofNat 32 (m.toNat + t.toNat * 2 ^ 16 + r.toNat * 2 ^ 24) := by
  have hlow : BitVec.ofNat 32 (m.toNat + t.toNat * 2 ^ 16 + arg * 2 ^ 24) =
      BitVec.ofNat 32 (m.toNat + t.toNat * 2 ^ 16 + (BitVec.ofNat 8 arg).toNat * 2 ^ 24) := by
    apply BitVec.eq_of_toNat_eq
    rw [BitVec.toNat_ofNat, BitVec.toNat_ofNat, BitVec.toNat_ofNat]
    omega
  have hmask : (0x00FFFFFF : Word) = 0#8 ++ BitVec.allOnes 8 ++ BitVec.allOnes 16 := by decide
  have hres : BitVec.ofNat 32 (r.toNat * 2 ^ 24) = r ++ 0#8 ++ 0#16 := by
    rw [← word_fields]
    congr 1
    simp
  rw [hlow, word_fields, word_fields, hmask, hres, BitVec.and_append, BitVec.and_append, BitVec.or_append, BitVec.or_append]
  simp only [BitVec.and_allOnes, BitVec.and_zero, BitVec.or_zero, BitVec.zero_or]

/-! ## A unit that wakes -/

section
variable {s t a : State}

theorem setUnit_up_unit (n : Nat) {st : UState} (h : isDown st = false) (reason : Nat) (repl : Bool) (s : State) :
    (setUnit n st reason repl s).unit = { s.unit with
      units := sput s.unit.units n { unitRec s n with st := st, reason := BitVec.ofNat 8 reason, since := s.time.ftime } } := by
  unfold setUnit
  extract_lets old was units rcd s1 evt s2 saved s3
  have h2 : s2.unit = s1.unit := by
    simp only [s2]
    split <;> rfl
  have h3 : s3.unit = s2.unit := by
    simp only [s3]
    split
    · exact unit_of_keepE (saveUnit_heralds n s2).keep
    · rfl
  rw [h, if_neg Bool.false_ne_true]
  clear_value s2 s3
  exact (unit_of_keepE (event_keepE _ _)).trans (h3.trans h2)

/-- What waking a unit leaves alone: the mailboxes, the counts of suspensions and skew, the media and the variant. -/
structure Woken (s a : State) : Prop where
  unit : { a.unit with units := s.unit.units } = s.unit
  media : a.media = s.media
  variant : a.variant = s.variant

theorem wakeUnit_woken (n : Nat) (s : State) : Woken s (wakeUnit n s) := by
  unfold wakeUnit
  split
  · have hunit := setUnit_up_unit n (st := .ready) rfl 0 false s
    have hmedia := setUnit_media n .ready 0 false s
    have hvariant := variant_of_keepM (setUnit_keepM n .ready 0 false s)
    generalize setUnit n .ready 0 false s = a at hunit hmedia hvariant
    exact ⟨by rw [hunit], hmedia, hvariant⟩
  · exact ⟨rfl, rfl, rfl⟩

variable {slot ch q : Nat}

theorem Woken.cmb (h : Woken s a) : a.unit.cmb = s.unit.cmb := (congrArg UnitSt.cmb h.unit :)
theorem Woken.qmb (h : Woken s a) : a.unit.qmb = s.unit.qmb := (congrArg UnitSt.qmb h.unit :)

theorem cmbOf_of_cmb (h : a.unit.cmb = s.unit.cmb) (slot ch : Nat) : cmbOf a slot ch = cmbOf s slot ch := by
  unfold cmbOf
  rw [h]

theorem qmbOf_of_qmb (h : a.unit.qmb = s.unit.qmb) (slot q : Nat) : qmbOf a slot q = qmbOf s slot q := by
  unfold qmbOf
  rw [h]

theorem cmbOf_setCmb_self (slot ch : Nat) (f : Cmb → Cmb) (s : State) : cmbOf (setCmb slot ch f s) slot ch = f (cmbOf s slot ch) := sget_smod_self ..

theorem qmbOf_setQmb_self (slot q : Nat) (f : Qmb → Qmb) (s : State) : qmbOf (setQmb slot q f s) slot q = f (qmbOf s slot q) := sget_smod_self ..

theorem sfind_setCmb_ne (f : Cmb → Cmb) (s : State) {k : Nat} (h : k ≠ 32 * slot + ch) : sfind (setCmb slot ch f s).unit.cmb k = sfind s.unit.cmb k :=
  sfind_smod_ne _ _ _ h

theorem cmbOf_setCmb_unit (slot ch : Nat) (f : Cmb → Cmb) (s : State) : (setCmb slot ch f s).media = s.media ∧ (setCmb slot ch f s).free = s.free :=
  ⟨rfl, rfl⟩

end

/-! ## Channel mailboxes -/

section
variable {s a v : State} {slot ch msg : Nat} {x : CmbMsg} {serve : State → State} {i : Instr}

/-- A mailbox that has taken a message. -/
def cmbTaken (msg : Nat) (x : CmbMsg) (m : Cmb) : Cmb :=
  { m with
    data := BitVec.ofNat 32 (msg + x.n.toNat * 2 ^ 16 + x.tag.toNat * 2 ^ 24) :: x.words.take 15 ++ m.data.drop ((x.words.take 15).length + 1)
    go := true }

/-- A message offered to an idle channel mailbox is in it. -/
def cmbOffered (slot ch msg : Nat) (x : CmbMsg) (s : State) : State := setCmb slot ch (cmbTaken msg x) s

theorem cmbOffer_idle (h : (cmbOf s slot ch).go = false) : cmbOffer slot ch msg x s = (true, cmbOffered slot ch msg x s) :=
  if_neg (Bool.eq_false_iff.1 h)

theorem cmbOffer_busy (h : (cmbOf s slot ch).go = true) : cmbOffer slot ch msg x s = (false, setCmb slot ch (fun m => { m with overrun := true }) s) :=
  if_pos h

theorem mbAccess_open {u : Nat} (f : State → State) (h : mbBlocked s slot u = none) : mbAccess slot u f (begin s) = f (wakeUnit u (begin s)) := by
  unfold mbAccess
  rw [show mbBlocked (begin s) slot u = none from h]

theorem mbAccess_blocked {u : Nat} {o : Out} (f : State → State) (h : mbBlocked s slot u = some o) :
    mbAccess slot u f (begin s) = { begin s with out := [o] } := by
  unfold mbAccess
  rw [show mbBlocked (begin s) slot u = some o from h]
  rfl

theorem woken_cmbOf (n : Nat) : cmbOf (wakeUnit n (begin s)) slot ch = cmbOf s slot ch := cmbOf_of_cmb (wakeUnit_woken n (begin s)).cmb slot ch

/-- A message offered to an idle mailbox is served. -/
theorem onCmb_idle (hi : exec i s = onCmb slot ch msg (some x) serve s) (hb : mbBlocked s slot (uChannel ch) = none)
    (hg : (cmbOf s slot ch).go = false) : exec i s = ran (serve (cmbOffered slot ch msg x (wakeUnit (uChannel ch) (begin s)))) := by
  refine hi.trans (congrArg ran ((mbAccess_open _ hb).trans ?_))
  dsimp only
  rw [cmbOffer_idle ((congrArg Cmb.go (woken_cmbOf _)).trans hg)]
  rfl

/-- One offered to a busy mailbox is ignored, with OVERRUN. -/
theorem onCmb_busy (hi : exec i s = onCmb slot ch msg (some x) serve s) (hb : mbBlocked s slot (uChannel ch) = none)
    (hg : (cmbOf s slot ch).go = true) : Ends i s (fun u => cmbOf u slot ch = { cmbOf s slot ch with overrun := true }) := by
  refine ends_of_ran (hi.trans (congrArg ran (mbAccess_open _ hb))) ?_
  dsimp only
  rw [cmbOffer_busy ((congrArg Cmb.go (woken_cmbOf _)).trans hg), if_neg Bool.false_ne_true, cmbOf_setCmb_self, woken_cmbOf]

/-- With no message in it, nothing is served. -/
theorem onCmb_empty (hi : exec i s = onCmb slot ch msg none serve s) (hb : mbBlocked s slot (uChannel ch) = none)
    (hg : (cmbOf s slot ch).go = false) : Ends i s (fun u => u = wakeUnit (uChannel ch) (begin s)) := by
  refine ends_of_ran (hi.trans (congrArg ran (mbAccess_open _ hb))) ?_
  dsimp only
  rw [woken_cmbOf, hg, Bool.false_and]
  exact if_neg Bool.false_ne_true

theorem cmbOffered_cmbOf : cmbOf (cmbOffered slot ch msg x a) slot ch = cmbTaken msg x (cmbOf a slot ch) := cmbOf_setCmb_self ..

/-- The first word of an offered message. -/
theorem cmbOffered_head : cmbWord (cmbOffered slot ch msg x a) slot ch 0 = (BitVec.ofNat 32 (msg + x.n.toNat * 2 ^ 16 + x.tag.toNat * 2 ^ 24)).toNat := by
  unfold cmbWord
  rw [cmbOffered_cmbOf]
  rfl

theorem cmbOffered_count (h : msg < 2 ^ 16) : cmbCount (cmbOffered slot ch msg x a) slot ch = x.n.toNat := by
  unfold cmbCount bits
  rw [cmbOffered_head, BitVec.toNat_ofNat, Nat.shiftRight_eq_div_pow]
  have := x.n.isLt
  have := x.tag.isLt
  omega

theorem cmbOffered_word {j : Nat} {w : Word} (h : (x.words.take 15)[j]? = some w) : cmbWord (cmbOffered slot ch msg x a) slot ch (j + 1) = w.toNat := by
  unfold cmbWord
  rw [cmbOffered_cmbOf, cmbTaken, List.cons_append, List.getD_cons_succ, List.getD_eq_getElem?_getD,
    List.getElem?_append_left (List.getElem?_eq_some_iff.1 h).1, h]
  rfl

/-- What a served message leaves in its mailbox: the result, the request's message and tag with the count of the reply's words, those words;
the other mailboxes are as before. -/
def CmbAnswered (slot ch : Nat) (x : CmbMsg) (a : State) (msg n result : Nat) (ws : List Word) (u : State) : Prop :=
  (cmbOf u slot ch).go = false ∧ (cmbOf u slot ch).result.toNat = result ∧
  (cmbOf u slot ch).data.getD 0 0 = BitVec.ofNat 32 (msg + n * 2 ^ 16 + x.tag.toNat * 2 ^ 24) ∧
  ((cmbOf u slot ch).data.drop 1).take n = ws ∧ ∀ k, k ≠ 32 * slot + ch → sfind u.unit.cmb k = sfind a.unit.cmb k

theorem cmbReply_cmbOf (result : Nat) (ws : List Word) : cmbOf (cmbReply slot ch result ws v) slot ch =
    { cmbOf v slot ch with
      data := (((cmbOf v slot ch).data.getD 0 0 &&& 0xFF00FFFF) ||| BitVec.ofNat 32 ((if result = mrOk then ws.take 15 else []).length * 2 ^ 16)) ::
        (if result = mrOk then ws.take 15 else []) ++ (cmbOf v slot ch).data.drop ((if result = mrOk then ws.take 15 else []).length + 1)
      go := false, result := BitVec.ofNat 8 result } := cmbOf_setCmb_self ..

/-- A reply to an offered message. -/
theorem cmbReply_answers (hv : v.unit.cmb = (cmbOffered slot ch msg x a).unit.cmb) (hmsg : msg < 2 ^ 16) {result : Nat} (hr : result < 256)
    {ws : List Word} (hws : ws.length ≤ 15) (hok : result = mrOk ∨ ws = []) : CmbAnswered slot ch x a msg ws.length result ws (cmbReply slot ch result ws v) := by
  have hws' : (if result = mrOk then ws.take 15 else []) = ws := by
    split
    · exact List.take_of_length_le hws
    · next hne => exact (hok.resolve_left hne).symm
  have hlen : ws.length = (BitVec.ofNat 8 ws.length).toNat := (Nat.mod_eq_of_lt (by omega)).symm
  have hm : msg = (BitVec.ofNat 16 msg).toNat := (Nat.mod_eq_of_lt hmsg).symm
  have hhead : (cmbOf v slot ch).data.getD 0 0 = BitVec.ofNat 32 (msg + x.n.toNat * 2 ^ 16 + x.tag.toNat * 2 ^ 24) := by
    rw [cmbOf_of_cmb hv, cmbOffered_cmbOf]
    rfl
  have hword : ((cmbOf v slot ch).data.getD 0 0 &&& 0xFF00FFFF) ||| BitVec.ofNat 32 (ws.length * 2 ^ 16) =
      BitVec.ofNat 32 (msg + ws.length * 2 ^ 16 + x.tag.toNat * 2 ^ 24) := by
    rw [hhead, hlen, hm]
    exact word_counted _ _ _ _
  unfold CmbAnswered
  rw [cmbReply_cmbOf, hws', hword]
  refine ⟨rfl, Nat.mod_eq_of_lt hr, rfl, List.take_left' rfl, fun k hk => ?_⟩
  exact (sfind_setCmb_ne _ v hk).trans ((congrArg (sfind · k) hv).trans (sfind_setCmb_ne _ a hk))

end

end Sys2Proof.Machine
end

section
/-! SUPPORT. The messages of channel mailboxes (R478, R481). -/

namespace Sys2Proof.Machine

section
variable {s a : State} {slot : Fin 6} {ch : Fin 32} {q : Fin 4} {x : CmbMsg} {err : BitVec 640}

/-- What a channel's messages read of the state is not in the mailboxes. -/
theorem setCmb_dieResult (slot c : Nat) (f : Cmb → Cmb) (s : State) (ch die bank : Nat) : dieResult (setCmb slot c f s) ch die bank = dieResult s ch die bank := rfl

theorem setCmb_reportedState (slot c : Nat) (f : Cmb → Cmb) (s : State) (u : Nat) : reportedState (setCmb slot c f s) u = reportedState s u := rfl

theorem setCmb_bankOf (slot c : Nat) (f : Cmb → Cmb) (s : State) (k : Nat) : bankOf (setCmb slot c f s) k = bankOf s k := rfl

theorem setCmb_takesPackets (slot c : Nat) (f : Cmb → Cmb) (s : State) (ch : Nat) : takesPackets (setCmb slot c f s) ch = takesPackets s ch := rfl

theorem setCmb_readRaw (slot c : Nat) (f : Cmb → Cmb) (s : State) (ch die bank block addr : Nat) (err : BitVec 640) :
    (readRaw ch die bank block addr err (setCmb slot c f s)).1 = (readRaw ch die bank block addr err s).1 ∧
    (readRaw ch die bank block addr err (setCmb slot c f s)).2.unit.cmb = (setCmb slot c f s).unit.cmb := by
  unfold readRaw
  rw [show lineAt (setCmb slot c f s) ch die bank block addr = lineAt s ch die bank block addr from rfl]
  cases lineAt s ch die bank block addr <;> exact ⟨rfl, rfl⟩

theorem setCmb_infoAnswer (slot c : Nat) (f : Cmb → Cmb) (s : State) (ch op : Nat) (p : Pkt) :
    (infoAnswer ch op p (setCmb slot c f s)).1 = (infoAnswer ch op p s).1 ∧
    (infoAnswer ch op p (setCmb slot c f s)).2.unit.cmb = (setCmb slot c f s).unit.cmb ∧
    (infoAnswer ch op p (setCmb slot c f s)).2.media = s.media := by
  unfold infoAnswer
  dsimp only
  split_ifs <;> exact ⟨rfl, rfl, rfl⟩

/-! ## The four messages -/

theorem dwords_length (n : Nat) (bs : List Byte) : (dwords n bs).length = n := by
  unfold dwords
  rw [List.length_map, List.length_range]

variable (hb : mbBlocked s slot (uChannel ch) = none) (hg : (cmbOf s slot ch).go = false) (hx : x.words.length = x.n.toNat)
include hb hg hx

theorem cmbEcho_answers (hn : x.n.toNat ≤ 15) :
    Ends (.cmbEcho slot ch (some x)) s (CmbAnswered slot ch x (wakeUnit (uChannel ch) (begin s)) 1 x.n.toNat 0 x.words) := by
  have hexec : exec (.cmbEcho slot ch (some x)) s = execCmbEcho slot ch (some x) s := rfl
  unfold execCmbEcho at hexec
  refine ends_of_ran (onCmb_idle hexec hb hg) ?_
  generalize wakeUnit (uChannel ch) (begin s) = a
  have hword : x.words.take 15 = x.words := List.take_of_length_le (by omega)
  have hdata : ((cmbOf (cmbOffered slot ch 1 x a) slot ch).data.drop 1).take x.n.toNat = x.words := by
    rw [cmbOffered_cmbOf, cmbTaken, hword, ← hx]
    exact List.take_left' rfl
  dsimp only
  rw [cmbOffered_count (by decide), if_neg (Nat.not_lt.2 hn), hdata, ← hx]
  exact cmbReply_answers rfl (by decide) (by decide) (by omega) (.inl rfl)

omit hb hg hx in
theorem bits_low (y : Word) : bits y.toNat 0 8 = y.toNat % 256 := by
  unfold bits
  rw [Nat.shiftRight_zero]
  norm_num

/-- The reply to an information message, from the answer drawn. -/
def infoReply (slot ch : Nat) (p : Pkt) (r : List Byte × State) : State :=
  let f := frameOf r.2 ch 1 0 p.die.toNat p.bank.toNat (infoPayload r.1)
  cmbReply slot ch mrOk (dwords 2 (frameBytes f) ++ dwords 4 (bytesOf 16 f.payload.toNat)) r.2

omit hb hg hx in
theorem frameOf_media {t u : State} (h : t.media = u.media) (ch kind : Nat) (tag : BitVec 7) (die bank : Nat) (y : BitVec 1024) :
    frameOf t ch kind tag die bank y = frameOf u ch kind tag die bank y := by
  unfold frameOf bankOf
  rw [h]

omit hb hg hx in
theorem infoReply_answers (op : Nat) (p : Pkt) (a : State) : CmbAnswered slot ch x a 3 6 0
    (let f := frameOf a ch 1 0 p.die.toNat p.bank.toNat (infoPayload (infoAnswer ch op p a).1)
     dwords 2 (frameBytes f) ++ dwords 4 (bytesOf 16 f.payload.toNat)) (infoReply slot ch p (infoAnswer ch op p (cmbOffered slot ch 3 x a))) := by
  obtain ⟨hans, hcmb, hmedia⟩ := setCmb_infoAnswer slot ch (cmbTaken 3 x) a ch op p
  unfold infoReply
  dsimp only
  unfold cmbOffered
  rw [hans, frameOf_media hmedia]
  have hlen (l m : List Byte) : (dwords 2 l ++ dwords 4 m).length = 6 := by
    rw [List.length_append, dwords_length, dwords_length]
  have h := cmbReply_answers (msg := 3) (result := 0) (x := x) hcmb (by decide) (by decide)
    (ws := dwords 2 (frameBytes (frameOf a ch 1 0 p.die.toNat p.bank.toNat (infoPayload (infoAnswer ch op p a).1))) ++
      dwords 4 (bytesOf 16 (frameOf a ch 1 0 p.die.toNat p.bank.toNat (infoPayload (infoAnswer ch op p a).1)).payload.toNat)) (by rw [hlen]; decide) (.inl rfl)
  rwa [hlen] at h

/-- What the information message does with the mailbox's words. -/
def infoServe (slot ch : Nat) (t : State) : State :=
  let op := bits (cmbWord t slot ch 1) 0 8
  let p := mkPkt op (bits (cmbWord t slot ch 1) 8 4) (bits (cmbWord t slot ch 1) 12 3) (bits (cmbWord t slot ch 1) 15 13) 0 0 (bits (cmbWord t slot ch 2) 0 8)
  if cmbCount t slot ch < 2 ∨ op < 0x30 ∨ 0x34 < op then cmbReply slot ch mrArg [] t
  else if dieResult t ch p.die.toNat p.bank.toNat ≠ mrOk then cmbReply slot ch (dieResult t ch p.die.toNat p.bank.toNat) [] t
  else infoReply slot ch p (infoAnswer ch op p t)

omit hb hg hx in
theorem execCmbInfo_serve (m : Option CmbMsg) : execCmbInfo slot ch m s = onCmb slot ch 3 m (infoServe slot ch) s := by
  unfold execCmbInfo
  refine congrArg (fun f => onCmb slot ch 3 m f s) (funext fun t => ?_)
  unfold infoServe
  extract_lets w1 op p r
  generalize infoAnswer ch op p t = z
  cases z
  rfl

theorem cmbInfo_answers {w v : Word} (hw : x.words = [w, v]) (hlo : 0x30 ≤ w.toNat % 256) (hhi : w.toNat % 256 ≤ 0x34) {p : Pkt}
    (hp : mkPkt (w.toNat % 256) (bits w.toNat 8 4) (bits w.toNat 12 3) (bits w.toNat 15 13) 0 0 (v.toNat % 256) = p)
    (hd : dieResult (wakeUnit (uChannel ch) (begin s)) ch p.die.toNat p.bank.toNat = 0) :
    Ends (.cmbInfo slot ch (some x)) s (CmbAnswered slot ch x (wakeUnit (uChannel ch) (begin s)) 3 6 0
      (let f := frameOf (wakeUnit (uChannel ch) (begin s)) ch 1 0 p.die.toNat p.bank.toNat
         (infoPayload (infoAnswer ch (w.toNat % 256) p (wakeUnit (uChannel ch) (begin s))).1)
       dwords 2 (frameBytes f) ++ dwords 4 (bytesOf 16 f.payload.toNat))) := by
  have hexec : exec (.cmbInfo slot ch (some x)) s = onCmb slot ch 3 (some x) (infoServe slot ch) s := execCmbInfo_serve _
  refine ends_of_ran (onCmb_idle hexec hb hg) ?_
  generalize wakeUnit (uChannel ch) (begin s) = a at hd
  have hn : x.n.toNat = 2 := by rw [← hx, hw]; rfl
  have h1 : cmbWord (cmbOffered slot ch 3 x a) slot ch 1 = w.toNat := cmbOffered_word (j := 0) (by rw [hw]; rfl)
  have h2 : cmbWord (cmbOffered slot ch 3 x a) slot ch 2 = v.toNat := cmbOffered_word (j := 1) (by rw [hw]; rfl)
  have hop : ¬ (cmbCount (cmbOffered slot ch 3 x a) slot ch < 2 ∨ w.toNat % 256 < 0x30 ∨ 0x34 < w.toNat % 256) := by
    rw [cmbOffered_count (by decide), hn]
    omega
  have hdie : dieResult (cmbOffered slot ch 3 x a) ch p.die.toNat p.bank.toNat = mrOk := (setCmb_dieResult ..).trans hd
  unfold infoServe
  dsimp only
  rw [h1, h2, bits_low, bits_low, hp, if_neg hop, if_neg (not_not_intro hdie)]
  exact infoReply_answers (w.toNat % 256) p a

theorem cmbRawRead_answers {w v : Word} (hw : x.words = [w, v]) (hblock : bits w.toNat 7 13 < 6144) (haddr : v.toNat % 2 ^ 17 < 65600)
    (hd : dieResult (wakeUnit (uChannel ch) (begin s)) ch (w.toNat % 16) (bits w.toNat 4 3) = 0) {k : Nat}
    (hk : bitsFixed (bchDecode (readRaw ch (w.toNat % 16) (bits w.toNat 4 3) (bits w.toNat 7 13) (v.toNat % 2 ^ 17) err
      (wakeUnit (uChannel ch) (begin s))).1) = k) : Ends (.cmbRawRead slot ch (some x) err) s (CmbAnswered slot ch x (wakeUnit (uChannel ch) (begin s)) 4 11 0
      (let l := (readRaw ch (w.toNat % 16) (bits w.toNat 4 3) (bits w.toNat 7 13) (v.toNat % 2 ^ 17) err (wakeUnit (uChannel ch) (begin s))).1
       dwords 10 ((bytesOf 80 l.toNat).drop (40 * bits v.toNat 17 1)) ++ [BitVec.ofNat 32 k])) := by
  have hexec : exec (.cmbRawRead slot ch (some x) err) s = execCmbRawRead slot ch (some x) err s := rfl
  unfold execCmbRawRead at hexec
  refine ends_of_ran (onCmb_idle hexec hb hg) ?_
  generalize wakeUnit (uChannel ch) (begin s) = a at hd hk
  have hn : x.n.toNat = 2 := by rw [← hx, hw]; rfl
  have h1 : cmbWord (cmbOffered slot ch 4 x a) slot ch 1 = w.toNat := cmbOffered_word (j := 0) (by rw [hw]; rfl)
  have h2 : cmbWord (cmbOffered slot ch 4 x a) slot ch 2 = v.toNat := cmbOffered_word (j := 1) (by rw [hw]; rfl)
  have hlow (y : Word) (n : Nat) : bits y.toNat 0 n = y.toNat % 2 ^ n := by
    unfold bits
    rw [Nat.shiftRight_zero]
  have hin : rawOutside (cmbCount (cmbOffered slot ch 4 x a) slot ch) (bits w.toNat 7 13) (v.toNat % 2 ^ 17) = false := by
    rw [cmbOffered_count (by decide), hn]
    unfold rawOutside
    rw [Bool.or_eq_false_iff, Bool.or_eq_false_iff, Bool.eq_false_iff, Bool.eq_false_iff, Bool.eq_false_iff]
    exact ⟨⟨by decide, fun h => absurd (Nat.le_of_ble_eq_true h) (Nat.not_le.2 hblock)⟩, fun h => absurd (Nat.le_of_ble_eq_true h) (Nat.not_le.2 haddr)⟩
  have hdie : dieResult (cmbOffered slot ch 4 x a) ch (w.toNat % 16) (bits w.toNat 4 3) = mrOk := (setCmb_dieResult ..).trans hd
  dsimp only
  rw [h1, h2, hlow, hlow, hin, if_neg Bool.false_ne_true, show w.toNat % 2 ^ 4 = w.toNat % 16 from rfl, if_neg (not_not_intro hdie)]
  obtain ⟨hans, hcmb⟩ := setCmb_readRaw slot ch (cmbTaken 4 x) a ch (w.toNat % 16) (bits w.toNat 4 3) (bits w.toNat 7 13) (v.toNat % 2 ^ 17) err
  unfold rawAnswer cmbOffered
  dsimp only
  rw [hans, hk]
  have hlen (l : List Byte) (y : Word) : (dwords 10 l ++ [y]).length = 11 := by
    rw [List.length_append, dwords_length]
    rfl
  have h := cmbReply_answers (msg := 4) (result := 0) (x := x) hcmb (by decide) (by decide)
    (ws := dwords 10 ((bytesOf 80 (readRaw ch (w.toNat % 16) (bits w.toNat 4 3) (bits w.toNat 7 13) (v.toNat % 2 ^ 17) err a).1.toNat).drop (40 * bits v.toNat 17 1)) ++
      [BitVec.ofNat 32 (bitsFixed (bchDecode (readRaw ch (w.toNat % 16) (bits w.toNat 4 3) (bits w.toNat 7 13) (v.toNat % 2 ^ 17) err a).1))]) (by rw [hlen]; decide) (.inl rfl)
  rwa [hlen, hk] at h

end
end Sys2Proof.Machine
end

section
/-! SUPPORT. The bank states, the quad mailboxes and the mailbox registers (R478 to R483), with O44 assembled from them. -/

namespace Sys2Proof.Machine

/-! ## Nibbles and bits of a word -/

theorem ofLe16_nibble (l : List Nat) (h : ∀ n ∈ l, n < 16) (k : Nat) : execCmbBankState.ofLe16 l / 16 ^ k % 16 = l.getD k 0 := by
  induction l generalizing k with
  | nil => exact (congrArg (· % 16) (Nat.zero_div _)).trans rfl
  | cons n l ih =>
    have hn : n < 16 := h n List.mem_cons_self
    unfold execCmbBankState.ofLe16
    cases k with
    | zero =>
      rw [Nat.pow_zero, Nat.div_one, Nat.add_mul_mod_self_left, Nat.mod_eq_of_lt hn]
      rfl
    | succ k =>
      rw [Nat.pow_succ', ← Nat.div_div_eq_div_mul, Nat.add_mul_div_left _ _ (by decide), Nat.div_eq_of_lt hn, Nat.zero_add,
        ih (fun m hm => h m (List.mem_cons_of_mem _ hm))]
      rfl

theorem extract_nibble (v : Nat) (b : Fin 8) : (BitVec.ofNat 32 v).extractLsb' (4 * b.val) 4 = BitVec.ofNat 4 (v / 16 ^ b.val % 16) := by
  apply BitVec.eq_of_getLsbD_eq
  intro i hi
  have hb := b.isLt
  have hpow : (16 : Nat) ^ b.val = 2 ^ (4 * b.val) := by rw [Nat.pow_mul]
  rw [BitVec.getLsbD_extractLsb', BitVec.getLsbD_ofNat, BitVec.getLsbD_ofNat, hpow, show (16 : Nat) = 2 ^ 4 from rfl, Nat.testBit_mod_two_pow,
    Nat.testBit_div_two_pow, decide_eq_true hi, decide_eq_true (by omega : 4 * b.val + i < 32), Nat.add_comm i]

theorem bsCode_lt (b : BState) : bsCode b < 16 := by cases b <;> decide

/-- Bits set in a sum of powers by a test of each. -/
theorem testBit_foldl_pow (f : Nat → Bool) (n : Nat) (i : Nat) :
    ((List.range n).foldl (fun a i => if f i then a + 2 ^ i else a) 0).testBit i = (decide (i < n) && f i) ∧
    (List.range n).foldl (fun a i => if f i then a + 2 ^ i else a) 0 < 2 ^ n := by
  induction n generalizing i with
  | zero => exact ⟨Nat.zero_testBit i, Nat.one_pos⟩
  | succ n ih =>
    rw [List.range_succ, List.foldl_append, List.foldl_cons, List.foldl_nil]
    have hlt := (ih i).2
    have hbit := (ih i).1
    generalize (List.range n).foldl (fun a i => if f i then a + 2 ^ i else a) 0 = a at hlt hbit
    split
    · next hf =>
      rw [Nat.add_comm, Nat.pow_succ]
      refine ⟨?_, by omega⟩
      by_cases hi : i = n
      · rw [hi, Nat.testBit_two_pow_add_eq, Nat.testBit_lt_two_pow hlt, hf, decide_eq_true (Nat.lt_succ_self n)]
        rfl
      · by_cases hin : i < n
        · rw [Nat.testBit_two_pow_add_gt hin, hbit, decide_eq_true hin, decide_eq_true (by omega : i < n + 1)]
        · rw [Nat.testBit_lt_two_pow (x := 2 ^ n + a) (i := i), decide_eq_false (by omega : ¬ i < n + 1), Bool.false_and]
          calc 2 ^ n + a < 2 ^ (n + 1) := by rw [Nat.pow_succ]; omega
            _ ≤ 2 ^ i := Nat.pow_le_pow_right (by decide) (by omega)
    · next hf =>
      refine ⟨?_, by rw [Nat.pow_succ]; omega⟩
      by_cases hi : i = n
      · rw [hi, Nat.testBit_lt_two_pow hlt, Bool.eq_false_iff.2 hf, Bool.and_false]
      · rw [hbit]
        congr 1
        exact decide_eq_decide.2 ⟨fun h => by omega, fun h => by omega⟩

section
variable {s a : State} {slot : Fin 6} {ch : Fin 32} {q : Fin 4} {x : CmbMsg} {y : QmbMsg}

theorem woken_takesPackets (n : Nat) (c : Nat) : takesPackets (wakeUnit n (begin s)) c = takesPackets s c := by
  unfold takesPackets nChannels stackOf
  rw [(wakeUnit_woken n (begin s)).variant, (wakeUnit_woken n (begin s)).media]
  rfl

theorem woken_bankOf (n k : Nat) : bankOf (wakeUnit n (begin s)) k = bankOf s k := congrArg (fun m : MediaSt => sget ({} : BankSt) m.banks k) (wakeUnit_woken n (begin s)).media

theorem getD_of_take {l : List Word} {w : Word} (h : (l.drop 1).take 1 = [w]) : l.getD 1 0 = w := by
  match l with
  | [] => exact absurd h nofun
  | [_] => exact absurd h nofun
  | _ :: b :: _ => exact (List.cons.inj h).1

/-- What the bank state message does with the mailbox's words. -/
def bankServe (slot ch : Nat) (t : State) : State :=
  let die := bits (cmbWord t slot ch 1) 0 4
  if cmbCount t slot ch = 0 then cmbReply slot ch mrArg [] t
  else cmbReply slot ch (if isDown (reportedState t (uDie (dieKey ch die))) then mrDown else if !takesPackets t ch then mrTimeout else mrOk)
    [BitVec.ofNat 32 (execCmbBankState.ofLe16 ((List.range 8).map (fun b => bsCode (bankOf t (bankKey ch die b)).st)))] t

theorem execCmbBankState_serve (m : Option CmbMsg) : execCmbBankState slot ch m s = onCmb slot ch 2 m (bankServe slot ch) s := by
  unfold execCmbBankState
  refine congrArg (fun f => onCmb slot ch 2 m f s) (funext fun t => ?_)
  unfold bankServe
  extract_lets die r
  rfl

theorem cmbBankState_answers (hb : mbBlocked s slot (uChannel ch) = none) (hg : (cmbOf s slot ch).go = false) (hx : x.words.length = x.n.toNat)
    {w : Word} (hw : x.words = [w]) (hdown : isDown (reportedState (wakeUnit (uChannel ch) (begin s)) (uDie (dieKey ch (w.toNat % 16)))) = false)
    (htakes : takesPackets s ch = true) : Ends (.cmbBankState slot ch (some x)) s (fun u => (cmbOf u slot ch).go = false ∧ (cmbOf u slot ch).result = 0 ∧
      ∀ b : Fin 8, ((cmbOf u slot ch).data.getD 1 0).extractLsb' (4 * b.val) 4 = BitVec.ofNat 4 (bsCode (bankOf s (bankKey ch (w.toNat % 16) b)).st)) := by
  have hexec : exec (.cmbBankState slot ch (some x)) s = onCmb slot ch 2 (some x) (bankServe slot ch) s := execCmbBankState_serve _
  refine ends_of_ran (onCmb_idle hexec hb hg) ?_
  have htakes' : takesPackets (wakeUnit (uChannel ch) (begin s)) ch = true := (woken_takesPackets _ _).trans htakes
  have hbank (k : Nat) : bankOf (wakeUnit (uChannel ch) (begin s)) k = bankOf s k := woken_bankOf _ k
  generalize wakeUnit (uChannel ch) (begin s) = a at hdown htakes' hbank
  have hn : x.n.toNat = 1 := by rw [← hx, hw]; rfl
  have h1 : cmbWord (cmbOffered slot ch 2 x a) slot ch 1 = w.toNat := cmbOffered_word (j := 0) (by rw [hw]; rfl)
  have hlow : bits w.toNat 0 4 = w.toNat % 16 := by
    unfold bits
    rw [Nat.shiftRight_zero]
    norm_num
  have hcount : ¬ cmbCount (cmbOffered slot ch 2 x a) slot ch = 0 := by
    rw [cmbOffered_count (by decide), hn]
    decide
  have hdown' : isDown (reportedState (cmbOffered slot ch 2 x a) (uDie (dieKey ch (w.toNat % 16)))) = false := by
    unfold cmbOffered
    rw [setCmb_reportedState]
    exact hdown
  have htakes'' : takesPackets (cmbOffered slot ch 2 x a) ch = true := (setCmb_takesPackets ..).trans htakes'
  have hbanks : (List.range 8).map (fun b => bsCode (bankOf (cmbOffered slot ch 2 x a) (bankKey ch (w.toNat % 16) b)).st) =
      (List.range 8).map (fun b => bsCode (bankOf s (bankKey ch (w.toNat % 16) b)).st) := by
    refine List.map_congr_left (fun b _ => congrArg (fun k : BankSt => bsCode k.st) ?_)
    exact (setCmb_bankOf ..).trans (hbank _)
  unfold bankServe
  dsimp only
  rw [h1, hlow, if_neg hcount, hdown', if_neg Bool.false_ne_true, htakes'', Bool.not_true, if_neg Bool.false_ne_true, hbanks]
  obtain ⟨hgo, hres, -, hws, -⟩ := cmbReply_answers (v := cmbOffered slot ch 2 x a) (x := x) rfl (by decide) (show mrOk < 256 by decide)
    (ws := [BitVec.ofNat 32 (execCmbBankState.ofLe16 ((List.range 8).map (fun b => bsCode (bankOf s (bankKey ch (w.toNat % 16) b)).st)))]) (Nat.le_add_left 1 14) (.inl rfl)
  refine ⟨hgo, BitVec.eq_of_toNat_eq hres, fun b => ?_⟩
  have hnib : ∀ n ∈ (List.range 8).map (fun b => bsCode (bankOf s (bankKey ch (w.toNat % 16) b)).st), n < 16 := by
    intro n hn
    obtain ⟨j, -, rfl⟩ := List.mem_map.1 hn
    exact bsCode_lt _
  rw [getD_of_take hws, extract_nibble, ofLe16_nibble _ hnib, List.getD_eq_getElem?_getD, List.getElem?_map, List.getElem?_range b.isLt]
  rfl


/-! ## Quad mailboxes -/

/-- A quad mailbox that has taken a message. -/
def qmbTaken (msg : Nat) (y : QmbMsg) (m : Qmb) : Qmb :=
  { m with
    reqLo := BitVec.ofNat 32 (msg + y.tag.toNat * 2 ^ 16 + y.arg.toNat * 2 ^ 24)
    reqHi := BitVec.ofNat 32 ((msg + y.tag.toNat * 2 ^ 16 + y.arg.toNat * 2 ^ 24) / 2 ^ 32), reqFull := true }

/-- A message offered to an idle quad mailbox is in it. -/
def qmbOffered (slot q msg : Nat) (y : QmbMsg) (s : State) : State := setQmb slot q (qmbTaken msg y) s

theorem qmbOffer_idle {slot q msg : Nat} (h : (qmbOf s slot q).reqFull = false) : qmbOffer slot q msg y s = (true, qmbOffered slot q msg y s) :=
  if_neg (Bool.eq_false_iff.1 h)

theorem woken_qmbOf (n slot q : Nat) : qmbOf (wakeUnit n (begin s)) slot q = qmbOf s slot q := qmbOf_of_qmb (wakeUnit_woken n (begin s)).qmb slot q

variable {i : Instr} {msg : Nat} {value : State → Nat}

/-- A message offered to an idle quad mailbox is answered with the value it asks for. -/
theorem onQmb_idle (hi : exec i s = onQmb slot q msg (some y) value s) (hb : mbBlocked s slot (uQuad q) = none)
    (hg : (qmbOf s slot q).reqFull = false) : exec i s = ran (qmbReply slot q mrOk (value (qmbOffered slot q msg y (wakeUnit (uQuad q) (begin s))))
      (qmbOffered slot q msg y (wakeUnit (uQuad q) (begin s)))) := by
  refine hi.trans (congrArg ran ((mbAccess_open _ hb).trans ?_))
  dsimp only
  rw [qmbOffer_idle ((congrArg Qmb.reqFull (woken_qmbOf _ _ _)).trans hg)]
  rfl

theorem onQmb_empty (hi : exec i s = onQmb slot q msg none value s) (hb : mbBlocked s slot (uQuad q) = none)
    (hg : (qmbOf s slot q).reqFull = false) : Ends i s (fun u => u = wakeUnit (uQuad q) (begin s)) := by
  refine ends_of_ran (hi.trans (congrArg ran (mbAccess_open _ hb))) ?_
  dsimp only
  rw [woken_qmbOf, hg, Bool.false_and]
  exact if_neg Bool.false_ne_true

/-- What an answered message leaves in its quad mailbox: the request's message and tag with the result, and the value. -/
def QmbAnswered (slot q : Nat) (y : QmbMsg) (msg result : Nat) (v : Word) (u : State) : Prop :=
  (qmbOf u slot q).reqFull = false ∧ (qmbOf u slot q).rspFull = true ∧
  (qmbOf u slot q).rspLo = BitVec.ofNat 32 (msg + y.tag.toNat * 2 ^ 16 + result * 2 ^ 24) ∧ (qmbOf u slot q).rspHi = v

theorem qmbReply_answers (hmsg : msg < 2 ^ 16) {result : Nat} (hr : result < 256) (v : Nat) (a : State) :
    QmbAnswered slot q y msg result (BitVec.ofNat 32 v) (qmbReply slot q result v (qmbOffered slot q msg y a)) := by
  have hm : msg = (BitVec.ofNat 16 msg).toNat := (Nat.mod_eq_of_lt hmsg).symm
  have hres : result = (BitVec.ofNat 8 result).toNat := (Nat.mod_eq_of_lt hr).symm
  have hreply : qmbOf (qmbReply slot q result v (qmbOffered slot q msg y a)) slot q = { qmbTaken msg y (qmbOf a slot q) with
      rspLo := (BitVec.ofNat 32 (msg + y.tag.toNat * 2 ^ 16 + y.arg.toNat * 2 ^ 24) &&& 0x00FFFFFF) ||| BitVec.ofNat 32 (result * 2 ^ 24)
      rspHi := BitVec.ofNat 32 v, reqFull := false, rspFull := true } := by
    unfold qmbReply qmbOffered
    rw [qmbOf_setQmb_self, qmbOf_setQmb_self]
    rfl
  unfold QmbAnswered
  rw [hreply]
  refine ⟨rfl, rfl, ?_, rfl⟩
  change (BitVec.ofNat 32 (msg + y.tag.toNat * 2 ^ 16 + y.arg.toNat * 2 ^ 24) &&& 0x00FFFFFF) ||| BitVec.ofNat 32 (result * 2 ^ 24) = _
  rw [hm, hres]
  exact word_result _ _ _ _

theorem qmbOffered_qmbOf (slot q msg : Nat) (a : State) : qmbOf (qmbOffered slot q msg y a) slot q = qmbTaken msg y (qmbOf a slot q) := qmbOf_setQmb_self ..

/-- The argument read back from the two words of an offered message. -/
theorem qmbTaken_arg (hmsg : msg < 2 ^ 16) (m : Qmb) :
    ((qmbTaken msg y m).reqHi ++ (qmbTaken msg y m).reqLo).extractLsb' 24 32 = y.arg.extractLsb' 0 32 := by
  apply BitVec.eq_of_toNat_eq
  have htag := y.tag.isLt
  have harg := y.arg.isLt
  unfold qmbTaken
  dsimp only
  rw [BitVec.extractLsb'_toNat, BitVec.extractLsb'_toNat, BitVec.toNat_append, ← Nat.shiftLeft_add_eq_or_of_lt (BitVec.isLt _), BitVec.toNat_ofNat,
    BitVec.toNat_ofNat, Nat.shiftLeft_eq, Nat.shiftRight_eq_div_pow, Nat.shiftRight_zero]
  omega

theorem setQmb_reportedState (slot c : Nat) (f : Qmb → Qmb) (s : State) (u : Nat) : reportedState (setQmb slot c f s) u = reportedState s u := rfl

theorem qmbEcho_answers (hb : mbBlocked s slot (uQuad q) = none) (hg : (qmbOf s slot q).reqFull = false) :
    Ends (.qmbEcho slot q (some y)) s (QmbAnswered slot q y 1 0 (y.arg.extractLsb' 0 32)) := by
  have hexec : exec (.qmbEcho slot q (some y)) s = execQmbEcho slot q (some y) s := rfl
  unfold execQmbEcho at hexec
  refine ends_of_ran (onQmb_idle hexec hb hg) ?_
  generalize wakeUnit (uQuad q) (begin s) = a
  have hreply := qmbReply_answers (slot := slot) (q := q) (y := y) (msg := 1) (by decide) (show 0 < 256 by decide) (y.arg.extractLsb' 0 32).toNat a
  rw [BitVec.ofNat_toNat, BitVec.setWidth_eq] at hreply
  rw [qmbOffered_qmbOf, qmbTaken_arg (by decide)]
  exact hreply

/-- The channels of a quad that take work, one bit each. -/
def quadBits (r : Nat → UState) (q : Nat) : Nat :=
  (List.range 8).foldl (fun a i => if r (uChannel (8 * q + i)) == .ready || r (uChannel (8 * q + i)) == .degraded then a + 2 ^ i else a) 0

theorem quadBits_getLsbD (r : Nat → UState) (q : Nat) {i : Nat} : (BitVec.ofNat 32 (quadBits r q)).getLsbD i =
    (decide (i < 32) && (decide (i < 8) && (r (uChannel (8 * q + i)) == .ready || r (uChannel (8 * q + i)) == .degraded))) := by
  rw [BitVec.getLsbD_ofNat]
  congr 1
  exact (testBit_foldl_pow (fun i => r (uChannel (8 * q + i)) == .ready || r (uChannel (8 * q + i)) == .degraded) 8 i).1

theorem qmbChannels_answers (hb : mbBlocked s slot (uQuad q) = none) (hg : (qmbOf s slot q).reqFull = false) :
    Ends (.qmbChannels slot q (some y)) s (fun u => ∃ v, QmbAnswered slot q y 2 0 v u ∧ (∀ i, 8 ≤ i → v.getLsbD i = false) ∧ ∀ i, i < 8 →
      (v.getLsbD i = true ↔ reportedState (wakeUnit (uQuad q) (begin s)) (uChannel (8 * q.val + i)) = .ready ∨
        reportedState (wakeUnit (uQuad q) (begin s)) (uChannel (8 * q.val + i)) = .degraded)) := by
  have hexec : exec (.qmbChannels slot q (some y)) s = onQmb slot q 2 (some y) (fun s => quadBits (reportedState s) q) s := rfl
  refine ends_of_ran (onQmb_idle hexec hb hg) ?_
  generalize wakeUnit (uQuad q) (begin s) = a
  have hstates : reportedState (qmbOffered slot q 2 y a) = reportedState a := funext (setQmb_reportedState slot q (qmbTaken 2 y) a)
  rw [hstates]
  refine ⟨_, qmbReply_answers (by decide) (by decide) _ _, fun i hi => ?_, fun i hi => ?_⟩
  · rw [quadBits_getLsbD, decide_eq_false (Nat.not_lt.2 hi), Bool.false_and, Bool.and_false]
  · rw [quadBits_getLsbD, decide_eq_true hi, decide_eq_true (by omega : i < 32), Bool.true_and, Bool.true_and, Bool.or_eq_true, beq_iff_eq, beq_iff_eq]

theorem qmbOffered_unit (slot q msg : Nat) (a : State) : (qmbOffered slot q msg y a).unit.suspCount = a.unit.suspCount ∧
    (qmbOffered slot q msg y a).unit.skewNs = a.unit.skewNs := by
  have hunit : (qmbOffered slot q msg y a).unit = { a.unit with qmb := smod {} a.unit.qmb (4 * slot + q) (qmbTaken msg y) } := rfl
  rw [hunit]
  exact ⟨rfl, rfl⟩

theorem qmbSuspCount_answers (hb : mbBlocked s slot (uQuad q) = none) (hg : (qmbOf s slot q).reqFull = false) :
    Ends (.qmbSuspCount slot q (some y)) s (QmbAnswered slot q y 3 0 (BitVec.ofNat 32 s.unit.suspCount.toNat)) := by
  have hexec : exec (.qmbSuspCount slot q (some y)) s = onQmb slot q 3 (some y) (fun s => s.unit.suspCount.toNat) s := rfl
  refine ends_of_ran (onQmb_idle hexec hb hg) ?_
  have hsusp : (wakeUnit (uQuad q) (begin s)).unit.suspCount = s.unit.suspCount := (congrArg UnitSt.suspCount (wakeUnit_woken (uQuad q) (begin s)).unit :)
  generalize wakeUnit (uQuad q) (begin s) = a at hsusp
  rw [(qmbOffered_unit slot q 3 a).1, hsusp]
  exact qmbReply_answers (by decide) (by decide) _ _

theorem qmbSkew_answers (hb : mbBlocked s slot (uQuad q) = none) (hg : (qmbOf s slot q).reqFull = false) :
    Ends (.qmbSkew slot q (some y)) s (QmbAnswered slot q y 4 0 (BitVec.ofNat 32 s.unit.skewNs.toNat)) := by
  have hexec : exec (.qmbSkew slot q (some y)) s = onQmb slot q 4 (some y) (fun s => s.unit.skewNs.toNat) s := rfl
  refine ends_of_ran (onQmb_idle hexec hb hg) ?_
  have hskew : (wakeUnit (uQuad q) (begin s)).unit.skewNs = s.unit.skewNs := (congrArg UnitSt.skewNs (wakeUnit_woken (uQuad q) (begin s)).unit :)
  generalize wakeUnit (uQuad q) (begin s) = a at hskew
  rw [(qmbOffered_unit slot q 4 a).2, hskew]
  exact qmbReply_answers (by decide) (by decide) _ _

/-! ## Messages that are none -/

theorem unknownMsg_quad (hb : mbBlocked s slot (uQuad q) = none) (hg : (qmbOf s slot q).reqFull = false) {m : BitVec 16}
    (hm : m = 0 ∨ 4 < m.toNat) : Ends (.unknownMsg slot (.inr q) m y.tag) s (QmbAnswered slot q y m.toNat 1 0) := by
  have hexec : exec (.unknownMsg slot (.inr q) m y.tag) s = execUnknownMsg slot (.inr q) m y.tag s := rfl
  unfold execUnknownMsg at hexec
  have hnot : ¬ (1 ≤ m.toNat ∧ m.toNat ≤ 4) := by
    obtain rfl | hm := hm
    · decide
    · omega
  refine ends_of_ran (hexec.trans ((if_neg hnot).trans (congrArg ran (mbAccess_open _ hb)))) ?_
  have hidle : (qmbOf (wakeUnit (uQuad q) (begin s)) slot q).reqFull = false := (congrArg Qmb.reqFull (woken_qmbOf _ _ _)).trans hg
  generalize wakeUnit (uQuad q) (begin s) = a at hidle
  dsimp only
  rw [hidle, qmbOffer_idle hidle]
  exact qmbReply_answers (y := ⟨y.tag, 0⟩) m.isLt (by decide) 0 a

theorem unknownMsg_channel (hb : mbBlocked s slot (uChannel ch) = none) (hg : (cmbOf s slot ch).go = false) {m : BitVec 16} {tag : Byte}
    (hm : m = 0 ∨ 4 < m.toNat) : Ends (.unknownMsg slot (.inl ch) m tag) s (fun u => (cmbOf u slot ch).go = false ∧ (cmbOf u slot ch).result = 1 ∧
      (cmbOf u slot ch).data.getD 0 0 = BitVec.ofNat 32 (m.toNat + tag.toNat * 2 ^ 24)) := by
  have hexec : exec (.unknownMsg slot (.inl ch) m tag) s = execUnknownMsg slot (.inl ch) m tag s := rfl
  unfold execUnknownMsg at hexec
  have hnot : ¬ (1 ≤ m.toNat ∧ m.toNat ≤ 4) := by
    obtain rfl | hm := hm
    · decide
    · omega
  refine ends_of_ran (hexec.trans ((if_neg hnot).trans (congrArg ran (mbAccess_open _ hb)))) ?_
  have hidle : (cmbOf (wakeUnit (uChannel ch) (begin s)) slot ch).go = false := (congrArg Cmb.go (woken_cmbOf _)).trans hg
  generalize wakeUnit (uChannel ch) (begin s) = a at hidle
  dsimp only
  rw [hidle, cmbOffer_idle hidle]
  obtain ⟨hgo, hres, hhead, -⟩ := cmbReply_answers (v := cmbOffered slot ch m.toNat ⟨tag, 0, []⟩ a) (x := ⟨tag, 0, []⟩) rfl m.isLt
    (show mrUnknown < 256 by decide) (ws := []) (Nat.zero_le 15) (.inr rfl)
  refine ⟨hgo, BitVec.eq_of_toNat_eq hres, hhead.trans ?_⟩
  rw [List.length_nil, Nat.zero_mul, Nat.add_zero]

/-! ## Reads and writes of the registers -/

theorem mbAt_rspHi (q : Fin 4) : mbAt (0x10400C + 0x40 * q.val) = some (.inr (q.val, 12)) := by
  fin_cases q <;> rfl

theorem qmbRsphiRead_reads (hb : mbBlocked s 4 (uQuad q) = none) : Ends (.qmbRsphiRead q) s (fun u =>
    u.out = (wakeUnit (uQuad q) (begin s)).out ++ [.regRead (qmbOf s 4 q).rspHi] ∧ qmbOf u 4 q = { qmbOf s 4 q with rspFull := false }) := by
  have hexec : exec (.qmbRsphiRead q) s = execQmbRsphiRead q s := rfl
  unfold execQmbRsphiRead at hexec
  refine ends_of_ran (hexec.trans (congrArg ran (mbAccess_open _ hb))) ?_
  have hq : qmbOf (wakeUnit (uQuad q) (begin s)) 4 q = qmbOf s 4 q := woken_qmbOf _ _ _
  generalize wakeUnit (uQuad q) (begin s) = a at hq
  unfold mbRead
  rw [mbAt_rspHi]
  dsimp only
  rw [← hq]
  exact ⟨rfl, qmbOf_setQmb_self ..⟩

end

section
variable {s : State} {off : BitVec 32} {v : Word}

theorem sidebandDword_outside (h : mbUnit off.toNat = none) : Ends (.sidebandDwordRead off) s (fun u => u = { begin s with out := [.sideband 0 0 0] }) ∧
    Ends (.sidebandDwordWrite off v) s (fun u => u = { begin s with out := [.sideband 0 0 0] }) := by
  have hread : exec (.sidebandDwordRead off) s = execSidebandDwordRead off s := rfl
  have hwrite : exec (.sidebandDwordWrite off v) s = execSidebandDwordWrite off v s := rfl
  unfold execSidebandDwordRead at hread
  unfold execSidebandDwordWrite at hwrite
  rw [h] at hread hwrite
  exact ⟨ends_of_ran hread rfl, ends_of_ran hwrite rfl⟩

theorem sidebandDword_open {unit : Nat} (h : mbUnit off.toNat = some unit) (hb : mbBlocked s 5 unit = none) :
    Ends (.sidebandDwordRead off) s (fun u => u = send (mbRead 5 off.toNat (wakeUnit unit (begin s))).2
      (.sideband 0 0 (mbRead 5 off.toNat (wakeUnit unit (begin s))).1)) ∧
    Ends (.sidebandDwordWrite off v) s (fun u => u = send (mbWrite 5 off.toNat v (wakeUnit unit (begin s))) (.sideband 0 0 0)) := by
  have hread : exec (.sidebandDwordRead off) s = execSidebandDwordRead off s := rfl
  have hwrite : exec (.sidebandDwordWrite off v) s = execSidebandDwordWrite off v s := rfl
  unfold execSidebandDwordRead at hread
  unfold execSidebandDwordWrite at hwrite
  rw [h] at hread hwrite
  exact ⟨ends_of_ran (hread.trans (congrArg ran (mbAccess_open _ hb))) rfl, ends_of_ran (hwrite.trans (congrArg ran (mbAccess_open _ hb))) rfl⟩

theorem sidebandDword_blocked {unit : Nat} {o : Out} (h : mbUnit off.toNat = some unit) (hb : mbBlocked s 5 unit = some o) :
    Ends (.sidebandDwordRead off) s (fun u => u = { begin s with out := [o] }) ∧
    Ends (.sidebandDwordWrite off v) s (fun u => u = { begin s with out := [o] }) := by
  have hread : exec (.sidebandDwordRead off) s = execSidebandDwordRead off s := rfl
  have hwrite : exec (.sidebandDwordWrite off v) s = execSidebandDwordWrite off v s := rfl
  unfold execSidebandDwordRead at hread
  unfold execSidebandDwordWrite at hwrite
  rw [h] at hread hwrite
  exact ⟨ends_of_ran (hread.trans (congrArg ran (mbAccess_blocked _ hb))) rfl, ends_of_ran (hwrite.trans (congrArg ran (mbAccess_blocked _ hb))) rfl⟩

end

section
variable {s : State} {slot : Fin 6} {ch : Fin 32} {x : CmbMsg} {err : BitVec 640}

/-- The message already in a busy mailbox is served when its clock comes. -/
theorem cmbEcho_served (hb : mbBlocked s slot (uChannel ch) = none) (hg : (cmbOf s slot ch).go = true) (hm : cmbWord s slot ch 0 % 2 ^ 16 = 1)
    (hn : cmbCount s slot ch ≤ 15) : Ends (.cmbEcho slot ch none) s (fun u => (cmbOf u slot ch).go = false ∧ (cmbOf u slot ch).result = 0) := by
  have hexec : exec (.cmbEcho slot ch none) s = execCmbEcho slot ch none s := rfl
  unfold execCmbEcho at hexec
  refine ends_of_ran (hexec.trans (congrArg ran (mbAccess_open _ hb))) ?_
  have hcmb : cmbOf (wakeUnit (uChannel ch) (begin s)) slot ch = cmbOf s slot ch := woken_cmbOf _
  generalize wakeUnit (uChannel ch) (begin s) = a at hcmb
  have hword : cmbWord a slot ch 0 = cmbWord s slot ch 0 := by
    unfold cmbWord
    rw [hcmb]
  have hcount : cmbCount a slot ch = cmbCount s slot ch := by
    unfold cmbCount
    rw [hword]
  dsimp only
  rw [hcmb, hg, hword, hm, hcount, if_neg (Nat.not_lt.2 hn)]
  refine ⟨congrArg Cmb.go (cmbReply_cmbOf _ _), congrArg Cmb.result (cmbReply_cmbOf _ _)⟩

end

/-- Settles O44: each mailbox row by the state of its mailbox. -/
theorem mailboxesAnswer : Obligations.MailboxesAnswer := by
  refine ⟨fun s slot ch q x y err => ⟨fun hb => ⟨fun hg hx hn => ?idle, fun hg => ?empty, fun hg hm hn => cmbEcho_served hb hg hm hn, fun hg => ?busy⟩,
    fun hb hg => ?quad, fun hb hg => ?quadEmpty, fun m tag hb hg hm => unknownMsg_channel hb hg hm⟩, fun s q off v => ?registers⟩
  case idle =>
    refine ⟨cmbEcho_answers hb hg hx hn, fun w hw hd ht => cmbBankState_answers hb hg hx hw hd ht, fun w v hw => ⟨fun hlo hhi hd => ?_, fun hblk haddr hd => ?_⟩⟩
    · exact cmbInfo_answers hb hg hx hw hlo hhi rfl hd
    · refine cmbRawRead_answers hb hg hx hw hblk haddr hd ?_
      generalize bchDecode _ = d
      cases d <;> rfl
  case empty =>
    intro i hi
    simp only [List.mem_cons, List.not_mem_nil, or_false] at hi
    obtain rfl | rfl | rfl | rfl := hi
    · exact onCmb_empty (rfl : _ = execCmbEcho slot ch none s) hb hg
    · exact onCmb_empty (rfl : _ = execCmbBankState slot ch none s) hb hg
    · exact onCmb_empty (rfl : _ = execCmbInfo slot ch none s) hb hg
    · exact onCmb_empty (rfl : _ = execCmbRawRead slot ch none err s) hb hg
  case busy =>
    intro i hi
    simp only [List.mem_cons, List.not_mem_nil, or_false] at hi
    obtain rfl | rfl | rfl | rfl := hi
    · exact onCmb_busy (rfl : _ = execCmbEcho slot ch (some x) s) hb hg
    · exact onCmb_busy (rfl : _ = execCmbBankState slot ch (some x) s) hb hg
    · exact onCmb_busy (rfl : _ = execCmbInfo slot ch (some x) s) hb hg
    · exact onCmb_busy (rfl : _ = execCmbRawRead slot ch (some x) err s) hb hg
  case quad =>
    refine ⟨qmbEcho_answers hb hg, qmbChannels_answers hb hg, qmbSuspCount_answers hb hg, qmbSkew_answers hb hg, fun m tag hm ht => ?_⟩
    rw [← ht]
    exact unknownMsg_quad hb hg hm
  case quadEmpty =>
    intro i hi
    simp only [List.mem_cons, List.not_mem_nil, or_false] at hi
    obtain rfl | rfl | rfl | rfl := hi
    · exact onQmb_empty (rfl : _ = execQmbEcho slot q none s) hb hg
    · exact onQmb_empty (rfl : _ = execQmbChannels slot q none s) hb hg
    · exact onQmb_empty (rfl : _ = execQmbSuspCount slot q none s) hb hg
    · exact onQmb_empty (rfl : _ = execQmbSkew slot q none s) hb hg
  case registers =>
    have hread : exec (.qmbRsphiRead q) s = execQmbRsphiRead q s := rfl
    exact ⟨qmbRsphiRead_reads, fun o ho => ends_of_ran (hread.trans (congrArg ran (mbAccess_blocked _ ho))) rfl, sidebandDword_outside,
      fun unit hu => ⟨sidebandDword_open hu, fun o ho => sidebandDword_blocked hu ho⟩⟩

end Sys2Proof.Machine
end

section
/-! SUPPORT. A received peer message is acted on (R395, R398); the data member's side of a delta (R371, R374, R393), with O50 assembled from it. -/

namespace Sys2Proof.Machine

section
variable {i : Instr} {s : State} {h : MsgHdr} {m : PeerMsg} {act : Nat → State → State} {r : Nat}

theorem consumed_sealed (r : Nat) (h : MsgHdr) (m : PeerMsg) (s : State) : consumed r (sealed h m) s = consumed r h s := rfl

/-- A message with its CRC that its device receives is consumed, and its row acts. -/
theorem received_exec (hi : exec i s = receive (sealed h m) (some m) act s) (hr : Received s h r) :
    exec i s = ran (mediaNext (act r (consumed r h s))) := by
  obtain ⟨hspan, hsender, hother, hnew⟩ := hr
  refine hi.trans ((receive_known (h := sealed h m) hspan hsender).trans ?_)
  rw [consumed_sealed]
  refine if_neg (fun hbad => ?_)
  obtain hown | hcrc | hold := hbad
  · exact hother hown
  · exact bne_iff_ne.1 hcrc (sealed_crc h m)
  · exact absurd hnew (Nat.not_lt.2 hold)

theorem received_works {P : State → Prop} (hi : exec i s = receive (sealed h m) (some m) act s) (hr : Received s h r)
    (hP : P (act r (consumed r h s))) : Works i s P := ⟨_, received_exec hi hr, hP⟩

end

/-- Settles O50: each acknowledgement is its row's effect on the message consumed. -/
theorem deltaAcksAdvanceFolds : Obligations.DeltaAcksAdvanceFolds := by
  intro s h r lfn seq live hr ack v l
  refine ⟨received_works (i := .deltaAckStaged _ lfn seq live) (rfl : _ = execDeltaAckStaged (ack 2) lfn seq live s) hr rfl,
    received_works (i := .deltaAckCommitted _ lfn seq live) (rfl : _ = execDeltaAckCommitted (ack 3) lfn seq live s) hr rfl,
    received_works (i := .deltaAckDone _ lfn seq live) (rfl : _ = execDeltaAckDone (ack 4) lfn seq live s) hr rfl,
    received_works (i := .deltaAckAborted _ lfn seq live) (rfl : _ = execDeltaAckAborted (ack 5) lfn seq live s) hr rfl, ?_⟩
  have hexec : exec (.deltaAckAdmitted (ack 0) lfn seq live) s = execDeltaAckAdmitted (ack 0) lfn seq live s := rfl
  refine ⟨fun b sl hs => ⟨fun hp => received_works hexec hr ?_, fun hp => received_works hexec hr ?_⟩, fun hs hp => received_works hexec hr ?_,
    fun hs hp hx => received_works hexec hr ?_, fun hs hp hx => received_works hexec hr ?_⟩
  · dsimp only
    rw [show ownSlot (reportLive r live (consumed r h s)) lfn.toNat seq = some (b, sl) from hs]
    exact if_pos hp
  · dsimp only
    rw [show ownSlot (reportLive r live (consumed r h s)) lfn.toNat seq = some (b, sl) from hs]
    exact if_neg hp
  · dsimp only
    rw [show ownSlot (reportLive r live (consumed r h s)) lfn.toNat seq = none from hs]
    exact if_neg (Bool.eq_false_iff.1 hp)
  · dsimp only
    rw [show ownSlot (reportLive r live (consumed r h s)) lfn.toNat seq = none from hs,
      show sfind (reportLive r live (consumed r h s)).span.rebuildSnap lfn.toNat = none from hx]
    exact if_pos hp
  · dsimp only
    rw [show ownSlot (reportLive r live (consumed r h s)) lfn.toNat seq = none from hs,
      show sfind (reportLive r live (consumed r h s)).span.rebuildSnap lfn.toNat = some [] from hx]
    exact if_pos hp

end Sys2Proof.Machine
end

section
/-! SUPPORT. The holder's side of a parity delta (R372 to R374), with O49 assembled from it. -/

namespace Sys2Proof.Machine

section
variable {v : State} {r l : Nat} {seq : BitVec 48}

theorem holdingFor_none_of (h : ∀ x ∈ v.span.holdings, x.lfn = l → x.member ≠ r) : holdingFor v r l seq = none := by
  refine List.find?_eq_none.2 (fun x hx hp => ?_)
  simp only [Bool.and_eq_true, beq_iff_eq] at hp
  exact h x hx hp.1.1 hp.1.2

theorem givenUp_nil (h : ∀ x ∈ v.span.holdings, x.lfn = l → x.member ≠ r) :
    v.span.holdings.filter (fun x => x.lfn == l && x.member == r && !x.committed) = [] := by
  refine List.filter_eq_nil_iff.2 (fun x hx hp => ?_)
  simp only [Bool.and_eq_true, beq_iff_eq] at hp
  exact h x hx hp.1.1 hp.1.2

theorem waiting_kept {ws : List (Nat × Nat × Nat × BitVec 48)} (h : ∀ w ∈ ws, w.1 ≠ l) : ws.filter (fun w => !(w.1 == l && w.2.1 == r)) = ws := by
  refine List.filter_eq_self.2 (fun w hw => ?_)
  rw [beq_false_of_ne (h w hw)]
  rfl

/-- A DELTA_CHUNK request that the admitter of a stripe takes for the first time. -/
def takeRequest (r l t : Nat) (seq : BitVec 48) (s : State) : State :=
  if s.span.holdings.any (fun x => x.lfn == l) then
    ackPlain 1 r l seq { s with span := { s.span with waitAdmit := s.span.waitAdmit ++ [(l, r, t, seq)] } }
  else
    ackPlain 0 r l seq { s with span := { s.span with holdings := s.span.holdings ++
      [{ lfn := l, member := r, t := t, foldSeq := seq, admitter := true, chunks := [], staged := false, committed := false }] } }

/-- What a request does, with what its member gave up dropped first. -/
def requestEffect (r l t : Nat) (seq : BitVec 48) (s : State) : State :=
  if (holderPos s l).isNone ∨ !isAdmitter s l then s
  else if (holdingFor s r l seq).isSome then ackPlain 0 r l seq s
  else takeRequest r l t seq ((s.span.holdings.filter (fun x => x.lfn == l && x.member == r && !x.committed)).foldl (fun s x => dropHolding x s)
    { s with span := { s.span with waitAdmit := s.span.waitAdmit.filter (fun w => !(w.1 == l && w.2.1 == r)) } })

theorem requestEffect_asks {t : Nat} (hp : holderPos v l ≠ none) (ha : isAdmitter v l = true) (h : ∀ x ∈ v.span.holdings, x.lfn = l → x.member ≠ r)
    (hw : ∀ w ∈ v.span.waitAdmit, w.1 ≠ l) : requestEffect r l t seq v = takeRequest r l t seq v := by
  have hnot : ¬ ((holderPos v l).isNone = true ∨ (!isAdmitter v l) = true) := by
    rw [ha, Option.isNone_iff_eq_none]
    exact fun hb => hb.elim hp Bool.false_ne_true
  unfold requestEffect
  refine (if_neg hnot).trans ((if_neg ?_).trans ?_)
  · rw [holdingFor_none_of h]
    exact Bool.false_ne_true
  · rw [givenUp_nil h, waiting_kept hw]
    rfl

/-- A chunk of a delta opens a holding where none waits for it. -/
def openedHolding (r l t : Nat) (seq : BitVec 48) (s : State) : State :=
  if (holdingFor s r l seq).isSome then s
  else { s with span := { s.span with holdings := s.span.holdings ++
    [{ lfn := l, member := r, t := t, foldSeq := seq, admitter := false, chunks := [], staged := false, committed := false }] } }

/-- A chunk taken into holding `x`; the last one stages the delta. -/
def takeChunk (r l : Nat) (seq : BitVec 48) (c : Nat) (pay : List Line) (x : Holding) (s : State) : State :=
  if x.staged then s
  else
    let y := { x with chunks := sput x.chunks c pay }
    let s := setHolding x (fun _ => y) s
    if y.chunks.length < 64 then s
    else if s.span.rebuildMarks.contains l ∨ !parityReads s l then
      let s := if s.span.rebuildMarks.contains l then s else { s with span := { s.span with rebuildMarks := s.span.rebuildMarks ++ [l] } }
      ackPlain 5 r l seq (dropHolding y s)
    else makeDue l 1 0 false s

/-- What a chunk of a delta does. -/
def dataEffect (r l t : Nat) (seq : BitVec 48) (c : Nat) (pay : List Line) (s : State) : State :=
  if (holderPos s l).isNone ∨ pay.length ≠ 1024 then s
  else match holdingFor (openedHolding r l t seq s) r l seq with
    | none => openedHolding r l t seq s
    | some x => takeChunk r l seq c pay x (openedHolding r l t seq s)

variable {t c : Nat} {pay : List Line}

theorem dataEffect_takes {x : Holding} (hp : holderPos v l ≠ none) (hlen : pay.length = 1024)
    (hx : holdingFor (openedHolding r l t seq v) r l seq = some x) : dataEffect r l t seq c pay v = takeChunk r l seq c pay x (openedHolding r l t seq v) := by
  unfold dataEffect
  refine (if_neg ?_).trans ?_
  · rw [Option.isNone_iff_eq_none]
    exact fun hb => hb.elim hp (not_not_intro hlen)
  · rw [hx]

theorem openedHolding_held {x : Holding} (hx : holdingFor v r l seq = some x) : openedHolding r l t seq v = v := by
  unfold openedHolding
  rw [hx]
  rfl

theorem takeChunk_keeps {x : Holding} (hs : x.staged = false) (hn : (sput x.chunks c pay).length < 64) :
    takeChunk r l seq c pay x v = setHolding x (fun _ => { x with chunks := sput x.chunks c pay }) v :=
  (if_neg (Bool.eq_false_iff.1 hs)).trans (if_pos hn)

theorem openedHolding_new {x : Holding} (hnone : holdingFor v r l seq = none)
    (hx : x = { lfn := l, member := r, t := t, foldSeq := seq, admitter := false, chunks := [], staged := false, committed := false }) :
    openedHolding r l t seq v = { v with span := { v.span with holdings := v.span.holdings ++ [x] } } ∧
    holdingFor (openedHolding r l t seq v) r l seq = some x := by
  have hopen : openedHolding r l t seq v = { v with span := { v.span with holdings := v.span.holdings ++ [x] } } := by
    unfold openedHolding
    rw [hnone, hx]
    rfl
  refine ⟨hopen, ?_⟩
  rw [hopen]
  refine (List.find?_append ..).trans ?_
  rw [show v.span.holdings.find? _ = none from hnone, hx]
  simp

/-- A chunk put with those of its holding. -/
theorem setHolding_found {x y : Holding} (hnone : holdingFor v r l seq = none) (hx : x.lfn = l ∧ x.member = r ∧ x.foldSeq = seq)
    (hy : y.lfn = l ∧ y.member = r ∧ y.foldSeq = seq) :
    holdingFor (setHolding x (fun _ => y) { v with span := { v.span with holdings := v.span.holdings ++ [x] } }) r l seq = some y := by
  have hne : ∀ z ∈ v.span.holdings, z ≠ x := by
    intro z hz heq
    refine List.find?_eq_none.1 hnone z hz ?_
    simp only [heq, hx, beq_self_eq_true, Bool.and_self]
  have hmap : v.span.holdings.map (fun z => if z = x then y else z) = v.span.holdings :=
    (List.map_congr_left (fun z hz => if_neg (hne z hz))).trans (List.map_id' _)
  have hholdings : (setHolding x (fun _ => y) { v with span := { v.span with holdings := v.span.holdings ++ [x] } }).span.holdings =
      v.span.holdings ++ [y] := by
    unfold setHolding
    dsimp only
    rw [List.map_append, hmap]
    simp
  unfold holdingFor
  rw [hholdings, List.find?_append, show v.span.holdings.find? _ = none from hnone]
  simp [hy]

end

/-- Settles O49: each row by the holding it finds. -/
theorem holderFollowsDeltaChunks : Obligations.HolderFollowsDeltaChunks := by
  intro s h r lfn t seq hr v l chunk request data commit done held mine
  have hreq : exec request s = execDeltaChunkRequest (chunk 0) lfn t seq s := rfl
  have hdata (c : Fin 64) (pay : List Line) : exec (data c pay) s = execDeltaChunkData (sealed h (.deltaData l t.toNat seq c.val pay)) lfn t seq c pay s := rfl
  have hcommit : exec commit s = execDeltaChunkCommit (chunk 2) lfn t seq s := rfl
  have hdone : exec done s = execDeltaChunkDone (chunk 3) lfn t seq s := rfl
  have habort : exec (.deltaChunkAbort (chunk 4) lfn t seq) s = execDeltaChunkAbort (chunk 4) lfn t seq s := rfl
  have hrequest {P : State → Prop} (hP : P (requestEffect r l t.toNat seq v)) : Works request s P := received_works hreq hr hP
  have htake {c : Fin 64} {pay : List Line} {P : State → Prop} (hP : P (dataEffect r l t.toNat seq c pay v)) : Works (data c pay) s P :=
    received_works (hdata c pay) hr hP
  refine ⟨fun hp => ⟨hrequest ?noHolder, fun c pay => htake ?noHolderData⟩,
    fun hp ha => ⟨fun hx => hrequest ?again, fun hx hw => hrequest ?first, fun hx hm hw => hrequest ?waits⟩,
    fun x hp hx c pay hlen => ⟨fun hst => htake ?staged, fun hst hn => htake ?kept⟩,
    fun hp hx c pay hlen => htake ?opens,
    fun hx => ⟨received_works hcommit hr ?commitNone, received_works hdone hr ?doneNone⟩,
    fun x hx => ⟨fun hc => received_works hcommit hr ?commitAgain, fun hc g i sl hs hst => received_works hcommit hr ?commits,
      fun hc => received_works hdone hr ?doneEarly, fun hc hs ha => received_works hdone hr ?dones⟩,
    received_works habort hr rfl⟩
  case noHolder => exact if_pos (.inl (Option.isNone_iff_eq_none.2 hp))
  case noHolderData => exact if_pos (.inl (Option.isNone_iff_eq_none.2 hp))
  case again =>
    refine (if_neg ?_).trans (if_pos hx)
    rw [ha, Option.isNone_iff_eq_none]
    exact fun hb => hb.elim hp Bool.false_ne_true
  case first =>
    refine (requestEffect_asks hp ha (fun x hm hl => absurd hl (hx x hm)) hw).trans (if_neg ?_)
    intro hany
    obtain ⟨x, hm, hl⟩ := List.any_eq_true.1 hany
    exact hx x hm (beq_iff_eq.1 hl)
  case waits =>
    obtain ⟨x, hxm, hxl⟩ := hx
    have hany : v.span.holdings.any (fun x => x.lfn == l) = true := List.any_eq_true.2 ⟨x, hxm, beq_iff_eq.2 hxl⟩
    exact (requestEffect_asks hp ha hm hw).trans (if_pos hany)
  case staged =>
    have hopen := openedHolding_held (t := t.toNat) hx
    rw [dataEffect_takes hp hlen ((congrArg (holdingFor · r l seq) hopen).trans hx), hopen]
    exact if_pos hst
  case kept =>
    have hopen := openedHolding_held (t := t.toNat) hx
    rw [dataEffect_takes hp hlen ((congrArg (holdingFor · r l seq) hopen).trans hx), hopen]
    exact takeChunk_keeps hst hn
  case opens =>
    obtain ⟨hopen, hnew⟩ := openedHolding_new (x := { mine with admitter := false }) hx rfl
    rw [dataEffect_takes hp hlen hnew, hopen, takeChunk_keeps (x := { mine with admitter := false }) rfl (show 1 < 64 by decide)]
    exact setHolding_found hx ⟨rfl, rfl, rfl⟩ ⟨rfl, rfl, rfl⟩
  case commitNone =>
    have hx' : holdingFor (consumed r h s) r lfn.toNat seq = none := hx
    dsimp only
    rw [hx']
  case doneNone =>
    have hx' : holdingFor (consumed r h s) r lfn.toNat seq = none := hx
    dsimp only
    rw [hx']
  case commitAgain =>
    have hx' : holdingFor (consumed r h s) r lfn.toNat seq = some x := hx
    dsimp only
    rw [hx']
    exact if_pos hc
  case commits =>
    have hx' : holdingFor (consumed r h s) r lfn.toNat seq = some x := hx
    dsimp only
    rw [hx']
    dsimp only
    rw [hc, show stagedSlot (consumed r h s) lfn.toNat = some (g, i, sl) from hs]
    exact if_pos hst
  case doneEarly =>
    have hx' : holdingFor (consumed r h s) r lfn.toNat seq = some x := hx
    dsimp only
    rw [hx']
    dsimp only
    rw [hc]
    rfl
  case dones =>
    have hx' : holdingFor (consumed r h s) r lfn.toNat seq = some x := hx
    dsimp only
    rw [hx']
    dsimp only
    rw [hc, show stagedSlot (consumed r h s) lfn.toNat = none from hs, ha]
    rfl

end Sys2Proof.Machine
end

section
/-! SUPPORT. What messages to other members leave alone; RECON_READ and its answers, stage maps, span reads that time out (R366, R380 to R399,
R427, R428), with O51 assembled from them. -/

namespace Sys2Proof.Machine

/-! ## Messages posted to other members -/

/-- From `s` to `u` only answers, armed points, the members' rings and streams and the count of records sent changed. -/
def Posts (s u : State) : Prop := ∃ o e ps ss n, u = { s with out := o, evt := e, span := { s.span with peers := ps, streams := ss, cRecords := n } }

section
variable {s t u : State}

theorem Posts.refl (s : State) : Posts s s := ⟨s.out, s.evt, s.span.peers, s.span.streams, s.span.cRecords, rfl⟩

theorem Posts.trans (hst : Posts s t) (htu : Posts t u) : Posts s u := by
  obtain ⟨o, e, ps, ss, n, rfl⟩ := hst
  obtain ⟨o', e', ps', ss', n', rfl⟩ := htu
  exact ⟨o', e', ps', ss', n', rfl⟩

theorem setPeer_posts (r : Nat) (f : Peer → Peer) (s : State) : Posts s (setPeer r f s) := ⟨_, _, _, _, _, rfl⟩

theorem setStream_posts (i : Nat) (f : Stream → Stream) (s : State) : Posts s (setStream i f s) := ⟨_, _, _, _, _, rfl⟩

theorem send_posts (s : State) (o : Out) : Posts s (send s o) := ⟨_, _, _, _, _, rfl⟩

theorem fire_posts (p u : Nat) (s : State) : Posts s (fire p u s) := ⟨_, _, _, _, _, rfl⟩

theorem armed_posts {α : Type} {c : Prop} [Decidable c] (a b : α) (p x : Nat) (h : Posts s t) : Posts s (if c then (a, fire p x t) else (b, t)).2 := by
  split
  · exact h.trans (fire_posts ..)
  · exact h

theorem sealBatch_posts (r : Nat) (hdr : List Byte) (b : Batch) (s : State) : Posts s (sealBatch r hdr b s).2 := by
  unfold sealBatch
  split
  · exact .refl s
  · exact armed_posts _ _ _ _ (setStream_posts ..)

theorem peerWrite_posts (r : Nat) (ring : Bool) (m : PeerMsg) (s : State) : Posts s (peerWrite r ring m s) := by
  unfold peerWrite
  extract_lets h t
  have ht : Posts s t := setPeer_posts ..
  clear_value t
  split
  · exact ht.trans ((sealBatch_posts ..).trans (send_posts ..))
  · exact ht.trans (send_posts ..)

theorem peerSend_posts (r : Nat) (m : PeerMsg) (s : State) : Posts s (peerSend r m s) := by
  unfold peerSend
  dsimp only
  split
  · exact peerWrite_posts ..
  · exact setPeer_posts ..

theorem peerFlush_posts (r : Nat) (s : State) : Posts s (peerFlush r s) :=
  (setPeer_posts ..).trans (List.foldlRecOn (motive := Posts (setPeer r (fun p => { p with held := [] }) s)) _ _ (.refl _)
    (fun _ ht _ _ => ht.trans (peerSend_posts ..)))

theorem closeBatch_posts (i : Nat) (strict tail : Bool) (s : State) : Posts s (closeBatch i strict tail s) := by
  unfold closeBatch
  split
  · split
    · exact .refl s
    · exact Posts.trans (setStream_posts ..) (Posts.trans ⟨_, _, _, _, _, rfl⟩ (peerSend_posts ..))
  · exact .refl s

theorem streamAdd_posts (i : Nat) (rec_ : Record) (strict : Bool) (s : State) : Posts s (streamAdd i rec_ strict s) := by
  unfold streamAdd
  split
  · exact .refl s
  · dsimp only
    split
    · exact Posts.trans ⟨_, _, _, _, _, rfl⟩ (closeBatch_posts ..)
    · exact ⟨_, _, _, _, _, rfl⟩

theorem streamAll_posts (rec_ : Record) (strict : Bool) (s : State) : Posts s (streamAll rec_ strict s).2 :=
  List.foldlRecOn (motive := fun p : List (Nat × BitVec 48) × State => Posts s p.2) _ _ (.refl _) (fun _ ht _ _ => ht.trans (streamAdd_posts ..))

theorem sendMap_posts (i old : Nat) (s : State) : Posts s (sendMap i old s) := by
  unfold sendMap
  split
  · exact .refl s
  · exact List.foldlRecOn (motive := Posts s) _ _ (.refl _) (fun _ ht _ _ => ht.trans (streamAll_posts ..))

theorem consumed_posts (r : Nat) (h : MsgHdr) (s : State) : Posts (begin s) (consumed r h s) := (setPeer_posts ..).trans (peerFlush_posts ..)

end

/-- Settles O51: each row by what it asks for and what it finds. -/
theorem reconReadsAreServed : Obligations.ReconReadsAreServed := by
  intro s h r tag
  refine ⟨fun hr => ?_, ?timeout⟩
  · intro v c absent
    obtain ⟨o, e, ps, ss, n, hposts⟩ := consumed_posts r h s
    have htime : (consumed r h s).time = s.time := (congrArg State.time hposts :)
    have hswk : (countIn (consumed r h s)).span.swkValid = s.span.swkValid := (congrArg (fun u : State => u.span.swkValid) hposts :)
    clear hposts
    refine ⟨fun lfn line n => ?base, fun lln ward => ?record, fun ward i cert => ?map, fun p n st b => ?data, fun cyc sgen es hlen => ?table⟩
    case base =>
      intro asks base w
      refine ⟨received_works (i := .reconReadBase _ tag lfn line n) (rfl : _ = execReconReadBase (asks 0) tag lfn line n s) hr rfl,
        fun hh => received_works (i := .reconReadBulk _ tag lfn line n) (rfl : _ = execReconReadBulk (asks 3) tag lfn line n s) hr ?_,
        fun hh => received_works (i := .reconReadBulk _ tag lfn line n) (rfl : _ = execReconReadBulk (asks 3) tag lfn line n s) hr ?_⟩
      · have hh' : heavyNow (noteRebuild r (consumed r h s)) [r] = true := hh
        dsimp only
        rw [hh']
        rfl
      · have hh' : heavyNow (noteRebuild r (consumed r h s)) [r] = false := hh
        dsimp only
        rw [hh']
        rfl
    case record =>
      intro asks
      have hexec : exec asks s = execReconReadRecord (sealed h (.reconRead 1 tag lln.toNat 0 1 ward.toNat)) tag lln ward s := rfl
      refine ⟨fun hnone => received_works hexec hr ?_, fun w f hw hf => received_works hexec hr ?_⟩
      · dsimp only
        rw [show (wardOf (consumed r h s) ward.toNat).bind (fun w => sfind w.records lln.toNat) = none from hnone]
      · dsimp only
        rw [show wardOf (consumed r h s) ward.toNat = some w from hw, Option.bind_some, hf]
    case map =>
      intro asks
      have hexec : exec asks s = execReconReadMap (sealed h (.reconRead 2 tag i.toNat 0 0 ward.toNat)) tag ward i cert s := rfl
      refine ⟨fun hi hc hk => received_works hexec hr ?_, fun hi hc => received_works hexec hr ?_, fun hi h64 => received_works hexec hr ?_,
        fun hi hw hnone => received_works hexec hr ?_, fun w hi hw hsome hc => received_works hexec hr ?_⟩
      · exact (if_pos hi).trans (if_pos ⟨hc, hswk.trans hk⟩)
      · refine (if_pos hi).trans (if_neg ?_)
        rintro ⟨h1, h2⟩
        obtain hc | hc := hc
        · exact absurd (hc.symm.trans h1) Bool.false_ne_true
        · exact absurd (hc.symm.trans (hswk.symm.trans h2)) Bool.false_ne_true
      · exact (if_neg hi).trans (if_pos h64)
      · have hne : i ≠ 0xFF := fun he => absurd hi (by rw [he]; decide)
        refine (if_neg hne).trans ((if_neg (Nat.not_le.2 hi)).trans ((if_neg hw).trans ?_))
        rw [show wardOf (countIn (consumed r h s)) ward.toNat = none from hnone]
      · have hne : i ≠ 0xFF := fun he => absurd hi (by rw [he]; decide)
        refine (if_neg hne).trans ((if_neg (Nat.not_le.2 hi)).trans ((if_neg hw).trans ?_))
        rw [show wardOf (countIn (consumed r h s)) ward.toNat = some w from hsome]
        exact if_pos (.inr (by rw [hc]; rfl))
    case data =>
      intro data hnone
      have hexec : exec data s = execReconData (sealed h (.reconData tag p.toNat n.toNat st b)) tag p n st b s := rfl
      have hnone' : (consumed r h s).span.mapAsked.find? (fun a => a.1 == tag) = none := hnone
      refine ⟨fun hq => received_works hexec hr ?_, fun q hq hne ha => received_works hexec hr ?_⟩
      · have hq' : (consumed r h s).span.reads.find? (fun q => q.tag == tag || q.tag + 1 == tag) = none := hq
        dsimp only
        rw [hnone', hq']
      · have hq' : (consumed r h s).span.reads.find? (fun q => q.tag == tag || q.tag + 1 == tag) = some q := hq
        dsimp only
        rw [hnone', hq']
        dsimp only
        rw [if_neg hne, ha, if_pos rfl]
    case table =>
      have hexec : exec (.timetable h cyc sgen es (timetableCrc h cyc sgen es)) s = execTimetable h cyc sgen es (timetableCrc h cyc sgen es) s := rfl
      unfold execTimetable at hexec
      dsimp only at hexec
      rw [if_pos hlen] at hexec
      refine ⟨fun hk hc => received_works (h := h) (m := .timetable cyc.toNat sgen es) hexec hr ?_,
        fun hno => received_works (h := h) (m := .timetable cyc.toNat sgen es) hexec hr ?_⟩
      · refine (if_pos ⟨hk, hc⟩).trans ?_
        rw [htime]
      · refine if_neg ?_
        rintro ⟨h1, h2⟩
        exact hno.elim (absurd h1) (absurd h2 ∘ Nat.not_lt.2)
  case timeout =>
    have hexec : exec (.spanReadTimeout tag) s = execSpanReadTimeout tag s := rfl
    unfold execSpanReadTimeout at hexec
    dsimp only at hexec
    intro q
    refine ⟨fun hq => ?_, fun x hq => ⟨fun hid => ?_, fun id hid => ⟨fun hm => ?_, fun m hm => ?_⟩⟩⟩
    · rw [show (begin s).span.reads.find? (fun q => q.tag == tag) = none from hq] at hexec
      exact ends_of_ran hexec rfl
    all_goals
      rw [show (begin s).span.reads.find? (fun q => q.tag == tag) = some x from hq] at hexec
      dsimp only at hexec
      rw [hid] at hexec
      dsimp only at hexec
    · exact ends_of_ran hexec rfl
    · rw [show (begin s).media.mreads.find? (fun r => r.rid == id) = none from hm] at hexec
      exact ends_of_ran hexec rfl
    · rw [show (begin s).media.mreads.find? (fun r => r.rid == id) = some m from hm] at hexec
      exact ⟨_, hexec, _, rfl⟩

end Sys2Proof.Machine
end

section
/-! SUPPORT. The FM API commands that allocate and set (R43, R44, R51, R52, R65), with O24 assembled from them. -/

namespace Sys2Proof.Machine

section
variable {s : State} {c : Caller} {i : Nat}

theorem ldOf_setLd_self (f : Ld → Ld) (h : i < s.host.lds.length) : ldOf (setLd i f s) i = f (ldOf s i) := getD_lmod_self _ _ f h

theorem lt_of_getElem?_eq {l : List Ld} {d : Ld} (h : l[i]? = some d) : i < l.length := (List.getElem?_eq_some_iff.1 h).1

/-! ## QoS fractions -/

theorem setFracs_one (p f : Nat) (x : Byte) (g : Byte → Ld → Ld) : setFracs p f [x] g s = setLd (16 * p + f) (g x) s := rfl

theorem qosRoom {f : Fin 16} (x : Byte) : ¬ 16 < f.val + [x].length := by
  rw [List.length_singleton]
  omega

/-! ## Offers -/

theorem dcEvent_out (seq : Nat) (e : Extent) (s : State) (h : s.out = []) : (dcEvent i seq e s).out = logIntr s 4 i (ldOf s i) := by
  have hout : (logPend 4 i (ldOf s i) s).out = s.out := by
    unfold logPend
    split
    · unfold pendVec
      dsimp only
      split <;> rfl
    · rfl
  unfold dcEvent
  exact (congrArg (· ++ logIntr s 4 i (ldOf s i)) (hout.trans h)).trans (List.nil_append _)

theorem logPend_host (l i : Nat) (d : Ld) (s : State) : (logPend l i d s).host = s.host := by
  unfold logPend
  split
  · unfold pendVec
    dsimp only
    split <;> rfl
  · rfl

theorem dcEvent_ld (seq : Nat) (e : Extent) (h : i < s.host.lds.length) : ldOf (dcEvent i seq e s) i =
    ldLog 4 0 (BitVec.ofNat 32 seq) (BitVec.ofNat 64 e.frame.toNat) (BitVec.ofNat 64 e.count.toNat) (ldOf s i) := by
  have hhost := logPend_host 4 i (ldOf s i) s
  unfold dcEvent
  dsimp only
  generalize logPend 4 i (ldOf s i) s = t at hhost
  refine (ldOf_setLd_self (s := { t with out := t.out ++ logIntr s 4 i (ldOf s i) }) _ ?_).trans (congrArg _ ?_)
  · exact hhost ▸ h
  · exact congrArg (fun x : HostSt => x.lds.getD i {}) hhost

theorem ldLog_kept (l : Nat) (code : BitVec 16) (seq : BitVec 32) (p0 p1 : BitVec 64) (d : Ld) : (ldLog l code seq p0 p1 d).ranges = d.ranges ∧
    (ldLog l code seq p0 p1 d).offered = d.offered := by
  unfold ldLog
  exact ⟨(apply_ite Ld.ranges ..).trans (ite_self _), (apply_ite Ld.offered ..).trans (ite_self _)⟩

theorem ldLog_room {d : Ld} (seq : BitVec 32) (p0 p1 : BitVec 64) (h : (d.logs.getD 4 []).length < 64) (h5 : d.logs.length = 5) :
    (ldLog 4 0 seq p0 p1 d).logs.getD 4 [] = d.logs.getD 4 [] ++ [⟨d.nextHandle, 0, seq, p0, p1⟩] := by
  have hlog : ldLog 4 0 seq p0 p1 d = { d with
      logs := lmod d.logs 4 (fun rs => rs ++ [⟨d.nextHandle, 0, seq, p0, p1⟩])
      nextHandle := if d.nextHandle = 0xFFFF then 1 else d.nextHandle + 1 } := if_pos h
  rw [hlog]
  exact getD_lmod_self _ _ _ (by omega)

/-! ## Static allocations -/

/-- What a SET_LD_ALLOCATIONS of one LD ends as. -/
def staticAnswer (s : State) (x : Except Rc State) : CAns × State :=
  match x with
  | .ok s' => did s'
  | .error r => tell r .none s

theorem setLdAllocations_one (h : Taken c s true true) {p : Fin 4} {f : Fin 16} {n : BitVec 32}
    (hn : staticFrames (ldOf s (16 * p.val + f.val)) ≤ 64 * n.toNat) : exec (.setLdAllocations c p f [n]) s =
      let a := staticAnswer (begin s) (setStatic (16 * p.val + f.val) n.toNat (begin s))
      ran (if a.1.1 = .success ∨ a.1.1 = .background then mediaNext (updLoad (send a.2 (.cxl c a.1.1 a.1.2))) else send a.2 (.cxl c a.1.1 a.1.2)) := by
  have hexec : exec (.setLdAllocations c p f [n]) s = execSetLdAllocations c p f [n] s := rfl
  unfold execSetLdAllocations at hexec
  have hfits : ¬ 16 < f.val + [n].length := by
    rw [List.length_singleton]
    omega
  have hgrow : Nat.blt (64 * n.toNat) (staticFrames (ldOf (begin s) (16 * p.val + f.val))) = false :=
    Bool.eq_false_iff.2 (fun hb => absurd hn (Nat.not_le.2 (Nat.blt_eq.mp hb)))
  have hlist : (List.range [n].length).map (fun k => (ldIx p (f.val + k), ([n].getD k 0).toNat)) = [(16 * p.val + f.val, n.toNat)] := rfl
  refine hexec.trans ((onCxl_taken h).trans ?_)
  have hact : (if 16 < f.val + [n].length then tell .invalidInput .none (begin s)
    else
      let l := (List.range [n].length).map (fun k => (ldIx p (f.val + k), ([n].getD k 0).toNat))
      let cuts := l.filter (fun e => Nat.blt (64 * e.2) (staticFrames (ldOf (begin s) e.1)))
      let grows := l.filter (fun e => !Nat.blt (64 * e.2) (staticFrames (ldOf (begin s) e.1)))
      staticAnswer (begin s) ((cuts ++ grows).foldl (fun (a : Except Rc State) e => match a with | .ok s => setStatic e.1 e.2 s | .error r => .error r)
        (.ok (begin s)))) = staticAnswer (begin s) (setStatic (16 * p.val + f.val) n.toNat (begin s)) := by
    rw [if_neg hfits, hlist]
    dsimp only
    rw [List.filter_cons, List.filter_cons, hgrow]
    rfl
  exact congrArg (fun a : CAns × State => ran (if a.1.1 = .success ∨ a.1.1 = .background then mediaNext (updLoad (send a.2 (.cxl c a.1.1 a.1.2)))
    else send a.2 (.cxl c a.1.1 a.1.2))) hact

/-- Changing an LD in what its ranges do not depend on keeps the ranges of every LD. -/
theorem setLd_ranges {f : Ld → Ld} (hf : ∀ d, (f d).ranges = d.ranges) (j : Nat) (s : State) : (ldOf (setLd i f s) j).ranges = (ldOf s j).ranges := by
  by_cases hj : j = i
  · subst hj
    by_cases hlt : j < s.host.lds.length
    · rw [ldOf_setLd_self f hlt, hf]
    · have hout : (setLd j f s).host.lds[j]? = none ∧ s.host.lds[j]? = none := by
        refine ⟨List.getElem?_eq_none ?_, List.getElem?_eq_none (Nat.not_lt.1 hlt)⟩
        exact le_of_eq_of_le (lmod_length s.host.lds j f) (Nat.not_lt.1 hlt)
      unfold ldOf
      rw [List.getD_eq_getElem?_getD, List.getD_eq_getElem?_getD, hout.1, hout.2]
  · exact congrArg Ld.ranges (getD_lmod_ne _ _ f hj)

theorem ldOf_of_host {t : State} (h : t.host = s.host) (j : Nat) : ldOf t j = ldOf s j := congrArg (fun x : HostSt => x.lds.getD j {}) h

theorem sbEnqueue_host (s : State) (q : SbReq) : (sbEnqueue s q).host = s.host := by
  have hworks : SbWorks s (sbEnqueue s q) := sbEnqueue_works _ _
  exact congrArg (·.host) hworks

/-- An LD with a new key. -/
def keyed (i : Nat) (s : State) : State :=
  setLd i (fun d => { d with key := (drawBits 512 s).1, keyState := true, kgen := d.kgen + 1, keyLost := false }) (drawBits 512 s).2

theorem newKey_eq (i : Nat) (s : State) : newKey i s = sbEnqueue (keyed i s) (.ring 0x55 i (ldKeyPayload (keyed i s) i)) := rfl

theorem newKey_ranges (j : Nat) (s : State) : (ldOf (newKey i s) j).ranges = (ldOf s j).ranges := by
  rw [newKey_eq, ldOf_of_host (sbEnqueue_host ..)]
  exact setLd_ranges (f := fun d => { d with key := (drawBits 512 s).1, keyState := true, kgen := d.kgen + 1, keyLost := false }) (fun _ => rfl) j
    (drawBits 512 s).2

theorem giveKey_ranges (j : Nat) (s : State) : (ldOf (giveKey i s) j).ranges = (ldOf s j).ranges := by
  unfold giveKey
  split
  · rfl
  · exact newKey_ranges j s

theorem sendMap_host (i old : Nat) (s : State) : (sendMap i old s).host = s.host := by
  obtain ⟨o, e, ps, ss, n, h⟩ := sendMap_posts i old s
  rw [h]

/-- The ranges an LD is given are its last ones. -/
theorem addRanges_ranges (rs : List Range) (h : i < s.host.lds.length) : (ldOf (addRanges i rs s) i).ranges = (ldOf s i).ranges ++ rs := by
  unfold addRanges
  dsimp only
  rw [giveKey_ranges, ldOf_of_host (sendMap_host ..), ldOf_setLd_self _ h]

theorem updLoad_kept (s : State) : (updLoad s).out = s.out ∧ (updLoad s).host = s.host := ⟨rfl, rfl⟩

end

theorem takeLfns_begin (s : State) (k l n : Nat) : takeLfns (begin s) k l n = takeLfns s k l n := by
  induction k generalizing l n with
  | zero => rfl
  | succ k ih =>
    cases n with
    | zero => rfl
    | succ n =>
      unfold takeLfns
      rw [ih, ih]
      rfl

theorem poolLfns_begin (s : State) (n : Nat) : poolLfns (begin s) n = poolLfns s n := by
  unfold poolLfns
  rw [takeLfns_begin]
  rfl

theorem runRanges_length (dc : Bool) (frame : Nat) (l : List (Nat × Nat)) : (runRanges dc frame l).length = l.length := by
  induction l generalizing frame with
  | nil => rfl
  | cons e l ih =>
    unfold runRanges
    rw [List.length_cons, List.length_cons, ih]

/-- A static allocation that grows, outside dynamic capacity, as far as its checks. -/
theorem setStatic_grows {i n : Nat} {s : State} (he : (ldOf s i).erase = none) (hn : staticFrames (ldOf s i) < 64 * n)
    (hdc : ∀ r ∈ (ldOf s i).ranges, r.dc = false) (ho : (ldOf s i).offered = []) : setStatic i n s =
      if exportable s < assigned s + (64 * n - staticFrames (ldOf s i)) then .error .resourcesExhausted
      else match poolLfns s (64 * n - staticFrames (ldOf s i)) with
        | none => .error .resourcesExhausted
        | some ls =>
          if !mapRoom s i (runRanges false (staticFrames (ldOf s i)) (lfnRuns ls)).length then .error .resourcesExhausted
          else .ok (addRanges i (runRanges false (staticFrames (ldOf s i)) (lfnRuns ls)) s) := by
  have hover : ¬ ((ldOf s i).ranges.any (fun r => r.dc && overlaps r.frame r.length (staticFrames (ldOf s i)) (64 * n - staticFrames (ldOf s i))) ||
      (ldOf s i).offered.any (fun e => overlaps e.frame.toNat e.count.toNat (staticFrames (ldOf s i)) (64 * n - staticFrames (ldOf s i)))) = true := by
    rw [ho, List.any_nil, Bool.or_false, List.any_eq_true]
    rintro ⟨r, hr, hb⟩
    rw [hdc r hr, Bool.false_and] at hb
    exact Bool.false_ne_true hb
  have herase : ¬ (ldOf s i).erase.isSome = true := by
    rw [he]
    exact Bool.false_ne_true
  unfold setStatic
  exact (if_neg herase).trans ((if_neg (by omega)).trans ((if_neg (by omega)).trans (if_neg hover)))

/-- Settles O24: each command is its setting, its offer or its allocation with its answer. -/
theorem fmCommandsAllocateAndSet : Obligations.FmCommandsAllocateAndSet := by
  intro c s h b
  refine ⟨fun p v => h.does (rfl : _ = execSetQosControl c p v s) rfl, fun p f x => ?alloc, fun p f x => ?limit, fun p f xs hlen => ?long,
    fun ldb i e hn he hi hroom hfive => ?release, fun hmem => ?memory⟩
  case alloc =>
    have hexec : exec (.setQosAllocatedBw c p f [x]) s = execSetQosAllocatedBw c p f [x] s := rfl
    unfold execSetQosAllocatedBw at hexec
    exact h.does hexec ((if_neg (qosRoom x)).trans (congrArg did (setFracs_one ..)))
  case limit =>
    have hexec : exec (.setQosBwLimit c p f [x]) s = execSetQosBwLimit c p f [x] s := rfl
    unfold execSetQosBwLimit at hexec
    exact h.does hexec ((if_neg (qosRoom x)).trans (congrArg did (setFracs_one ..)))
  case long => exact ⟨h.tells (rfl : _ = execSetQosAllocatedBw c p f xs s) (if_pos hlen), h.tells (rfl : _ = execSetQosBwLimit c p f xs s) (if_pos hlen)⟩
  case release =>
    have hlt := lt_of_getElem?_eq hi
    have hexec : exec (.initiateDynamicCapacityRelease c ldb e) s = execInitiateDynamicCapacityRelease c ldb e s := rfl
    unfold execInitiateDynamicCapacityRelease at hexec
    refine (h.ldDoes hn hexec (if_neg he)).mono (i := .initiateDynamicCapacityRelease c ldb e) (fun u hu => ?_)
    have hld : ldOf u i = ldOf (dcEvent i 1 e (begin s)) i := by rw [hu]; rfl
    refine ⟨?_, ?_, ?_⟩
    · rw [hu]
      exact congrArg (· ++ [Out.cxl c .success .none]) (dcEvent_out 1 e (begin s) rfl)
    · rw [hld, dcEvent_ld (s := begin s) 1 e hlt]
      exact ldLog_room _ _ _ hroom hfive
    · rw [hld, dcEvent_ld (s := begin s) 1 e hlt]
      exact (ldLog_kept ..).1
  case memory =>
    have h' : Taken c s true true := ⟨h.1, h.2.1, h.2.2.1, h.2.2.2.1, fun _ => hmem⟩
    refine ⟨fun ldb i e ls hn hi ha hls hroom => ?add, fun ldb i e tag r hn ha => ?refused, fun p f n he heq => ?same, fun p f n => ?grow,
      fun p f n => ?full⟩
    case add =>
      have hlt := lt_of_getElem?_eq hi
      have hexec : exec (.initiateDynamicCapacityAdd c ldb e none) s = execInitiateDynamicCapacityAdd c ldb e none s := rfl
      unfold execInitiateDynamicCapacityAdd at hexec
      have hd := h'.ldDoes (t := dcEvent i 0 e (setLd i (fun d => { d with offered := d.offered ++ [e], offeredLfns := d.offeredLfns ++ ls }) (begin s)))
        hn hexec (by
          rw [show addRefused (begin s) i e none = none from ha, poolLfns_begin, hls]
          exact if_neg (by rw [show mapRoom (begin s) i (lfnRuns ls).length = true from hroom]; exact Bool.false_ne_true))
      refine hd.mono (i := .initiateDynamicCapacityAdd c ldb e none) (fun u hu => ?_)
      have hself := ldOf_setLd_self (s := begin s) (fun d => { d with offered := d.offered ++ [e], offeredLfns := d.offeredLfns ++ ls }) hlt
      have hlen : i < (setLd i (fun d => { d with offered := d.offered ++ [e], offeredLfns := d.offeredLfns ++ ls }) (begin s)).host.lds.length :=
        lt_of_lt_of_eq hlt (lmod_length s.host.lds i _).symm
      have hout : (setLd i (fun d => { d with offered := d.offered ++ [e], offeredLfns := d.offeredLfns ++ ls }) (begin s)).out = [] := rfl
      have hintr : logIntr (setLd i (fun d => { d with offered := d.offered ++ [e], offeredLfns := d.offeredLfns ++ ls }) (begin s)) 4 i
          { ldOf s i with offered := (ldOf s i).offered ++ [e], offeredLfns := (ldOf s i).offeredLfns ++ ls } = logIntr s 4 i (ldOf s i) := rfl
      generalize setLd i (fun d => { d with offered := d.offered ++ [e], offeredLfns := d.offeredLfns ++ ls }) (begin s) = t at hu hself hlen hout hintr
      have hld : ldOf u i = ldOf (dcEvent i 0 e t) i := by rw [hu]; rfl
      have hkept := ldLog_kept 4 0 (BitVec.ofNat 32 0) (BitVec.ofNat 64 e.frame.toNat) (BitVec.ofNat 64 e.count.toNat) (ldOf t i)
      refine ⟨?_, ?_, ?_⟩
      · rw [hu]
        refine congrArg (· ++ [Out.cxl c .success .none]) ((dcEvent_out 0 e t hout).trans ?_)
        rw [hself]
        exact hintr
      · rw [hld, dcEvent_ld 0 e hlen, hkept.2, hself]
        rfl
      · rw [hld, dcEvent_ld 0 e hlen, hkept.1, hself]
        rfl
    case refused =>
      have hexec : exec (.initiateDynamicCapacityAdd c ldb e tag) s = execInitiateDynamicCapacityAdd c ldb e tag s := rfl
      unfold execInitiateDynamicCapacityAdd at hexec
      refine h'.ldTells hn hexec ?_
      rw [show addRefused (begin s) i e tag = some r from ha]
      rfl
    case same =>
      have hexec := setLdAllocations_one h' (p := p) (f := f) (n := n) (le_of_eq heq.symm)
      have hset : setStatic (16 * p.val + f.val) n.toNat (begin s) = .ok (begin s) := by
        unfold setStatic
        dsimp only
        refine (if_neg ?_).trans (if_pos heq)
        rw [show (ldOf (begin s) (16 * p.val + f.val)).erase = none from he]
        exact Bool.false_ne_true
      rw [hset] at hexec
      exact ⟨_, hexec.trans (congrArg ran (if_pos (.inl rfl))), rfl⟩
    case grow =>
      intro i he hlt ls hls hroom hi hdc ho hfit
      have hset : setStatic i n.toNat (begin s) = .ok (addRanges i (runRanges false (staticFrames (ldOf s i)) (lfnRuns ls)) (begin s)) := by
        refine (setStatic_grows (s := begin s) he hlt hdc ho).trans ((if_neg (Nat.not_lt.2 hfit)).trans ?_)
        rw [poolLfns_begin, show poolLfns s (64 * n.toNat - staticFrames (ldOf (begin s) i)) = some ls from hls]
        refine if_neg ?_
        rw [runRanges_length, show mapRoom (begin s) i (lfnRuns ls).length = true from hroom]
        exact Bool.false_ne_true
      have hexec := setLdAllocations_one h' (p := p) (f := f) (n := n) (Nat.le_of_lt hlt)
      rw [show setStatic (16 * p.val + f.val) n.toNat (begin s) = _ from hset] at hexec
      have hranges := addRanges_ranges (s := begin s) (runRanges false (staticFrames (ldOf s i)) (lfnRuns ls)) (lt_of_getElem?_eq hi)
      generalize addRanges i (runRanges false (staticFrames (ldOf s i)) (lfnRuns ls)) (begin s) = t at hexec hranges
      exact ⟨_, hexec.trans (congrArg ran (if_pos (.inl rfl))), List.mem_append_right _ (List.mem_singleton.2 rfl), hranges⟩
    case full =>
      intro i he hlt hdc ho hfull
      have hset : setStatic i n.toNat (begin s) = .error .resourcesExhausted := (setStatic_grows (s := begin s) he hlt hdc ho).trans (if_pos hfull)
      have hexec := setLdAllocations_one h' (p := p) (f := f) (n := n) (Nat.le_of_lt hlt)
      rw [show setStatic (16 * p.val + f.val) n.toNat (begin s) = _ from hset] at hexec
      exact ends_of_ran (hexec.trans (congrArg ran (if_neg (show ¬ (Rc.resourcesExhausted = .success ∨ Rc.resourcesExhausted = .background) by decide)))) rfl

end Sys2Proof.Machine
end

section
/-! SUPPORT. A line stored whole in the Near Cache (R191, R195), with O28 assembled from it. -/

namespace Sys2Proof.Machine

section
variable {s t : State} {lln k m : Nat}

/-- No injection point spoils what is put in the Near Cache. -/
def NearUnarmed (s : State) : Prop := ∀ a ∈ s.evt.armed, a.point ≠ 0x0001 ∧ a.point ≠ 0x0002

theorem isArmed_none {p u : Nat} (h : ∀ a ∈ s.evt.armed, a.point.toNat ≠ p) : isArmed s p u = false := by
  refine List.any_eq_false.2 (fun a ha hb => ?_)
  simp only [Bool.and_eq_true, beq_iff_eq] at hb
  exact h a ha hb.1.1

theorem NearUnarmed.damage (h : NearUnarmed s) (odd : Bool) (w : NcWay) : ncDamage s odd w = w := by
  have h1 : s.evt.armed.find? (fun a => a.point.toNat == 0x0001 && a.unit.toNat == 0) = none := by
    refine List.find?_eq_none.2 (fun a ha hb => ?_)
    simp only [Bool.and_eq_true, beq_iff_eq] at hb
    exact (h a ha).1 (BitVec.eq_of_toNat_eq hb.1)
  have h2 : isArmed s 0x0002 0 = false := isArmed_none (fun a ha hp => (h a ha).2 (BitVec.eq_of_toNat_eq hp))
  unfold ncDamage
  rw [h1, h2]
  rfl

theorem NearUnarmed.putTwin (h : NearUnarmed s) (k m : Nat) (w : NcWay) : ncPutTwin k m w s = ncSetWay (ncSetWay s k w) m w := by
  have h1 : isArmed (ncSetWay (ncSetWay s k w) m w) 0x0001 0 = false := isArmed_none (fun a ha hp => (h a ha).1 (BitVec.eq_of_toNat_eq hp))
  have h2 : isArmed (ncSetWay (ncSetWay s k w) m w) 0x0002 0 = false := isArmed_none (fun a ha hp => (h a ha).2 (BitVec.eq_of_toNat_eq hp))
  unfold ncPutTwin ncPutTwo ncFire
  rw [h.damage, h.damage, h1]
  dsimp only
  rw [if_neg Bool.false_ne_true, h2, if_neg Bool.false_ne_true]

/-- A dirty line whole in both of its copies. -/
def wholeWay (s : State) (lln k : Nat) (data : Line) : NcWay :=
  { st := .dirty, lln := lln, data := data, mask := BitVec.allOnes 64, since := (ncWay s k).since }

theorem mapMark_kept (l : Nat) (s : State) : (mapMark l s).cache = s.cache ∧ (mapMark l s).evt = s.evt := by
  unfold mapMark
  split <;> exact ⟨rfl, rfl⟩

/-- A line already resident is put whole in both copies. -/
theorem ncWrite_resident (h : NearUnarmed s) (hw : ncWays s lln = [k, m]) (data : Line) :
    ncWrite lln data (BitVec.allOnes 64) s = ncSetWay (ncSetWay (mapMark (lfnOf lln) s) k (wholeWay s lln k data)) m (wholeWay s lln k data) := by
  obtain ⟨hcache, hevt⟩ := mapMark_kept (lfnOf lln) s
  have hways : ncWays (mapMark (lfnOf lln) s) lln = [k, m] := by
    rw [← hw]
    unfold ncWays
    rw [hcache]
  have hsince : (ncWay (mapMark (lfnOf lln) s) k).since = (ncWay s k).since := by
    unfold ncWay
    rw [hcache]
  have hun : NearUnarmed (mapMark (lfnOf lln) s) := by
    unfold NearUnarmed
    rw [hevt]
    exact h
  unfold ncWrite
  extract_lets full now t
  rw [show ncWays t lln = [k, m] from hways]
  dsimp only
  rw [if_pos rfl, show (ncWay t k).since = (ncWay s k).since from hsince]
  exact hun.putTwin k m _

/-- What follows a whole write in the Near Cache: reads of the line learn of it, its copies elsewhere and its poison are gone. -/
def storeAfter (lln : Nat) (s : State) : State :=
  let t := dropPrefetch (fun l => l == lln) s
  poisonDel lln { t with
    host := { t.host with reqs := t.host.reqs.map (fun r => if !r.write && r.lln == lln then { r with writeSeen := true } else r) }
    cache := { t.cache with
      side := t.cache.side.filter (fun e => e.1 != lln), prefetched := t.cache.prefetched.filter (fun l => l != lln)
      lost := t.cache.lost.filter (fun l => l != lln) } }

theorem poisonDel_cache (lln : Nat) (s : State) : (poisonDel lln s).cache = s.cache := by
  unfold poisonDel
  split <;> rfl

theorem storeAfter_near (lln : Nat) (s : State) : (storeAfter lln s).cache.near = s.cache.near := by
  unfold storeAfter
  rw [poisonDel_cache]
  rfl

/-- A line whose held write is merged into the whole write. -/
def storeStart (lln : Nat) (s : State) : State :=
  { countWrite (lfnOf lln) s with
    cache := { (countWrite (lfnOf lln) s).cache with heldWrites := (countWrite (lfnOf lln) s).cache.heldWrites.filter (fun e => e.1 != lln) } }

theorem storeWrite_whole (data : Line) : storeWrite lln data (BitVec.allOnes 64) false s =
    storeAfter lln (ncWrite lln (writeLine s lln data (BitVec.allOnes 64) false) (BitVec.allOnes 64) (storeStart lln s)) := by
  unfold storeWrite
  extract_lets full mask s1 w
  have hmask : mask = full := if_neg Bool.false_ne_true
  have hmerge (v : Line) : mergeLine s1 lln v w full = w := if_pos rfl
  clear_value mask
  subst hmask
  generalize heldValue s1 lln = hv
  cases hv with
  | none => rfl
  | some v =>
    dsimp only
    rw [hmerge v]
    rfl

/-- Storing a whole line leaves of the Near Cache what writing it there leaves. -/
theorem storeWrite_near (data : Line) (h : NearUnarmed s) (hw : ncWays s lln = [k, m]) :
    (storeWrite lln data (BitVec.allOnes 64) false s).cache.near =
      sset {} (sset {} s.cache.near k (wholeWay s lln k (writeLine s lln data (BitVec.allOnes 64) false))) m
        (wholeWay s lln k (writeLine s lln data (BitVec.allOnes 64) false)) := by
  have hstart : ncWays (storeStart lln s) lln = [k, m] := hw
  have hun : NearUnarmed (storeStart lln s) := h
  rw [storeWrite_whole, storeAfter_near, ncWrite_resident hun hstart]
  have hcache := (mapMark_kept (lfnOf lln) (storeStart lln s)).1
  generalize mapMark (lfnOf lln) (storeStart lln s) = u at hcache
  unfold ncSetWay
  dsimp only
  rw [hcache]
  rfl

/-! ## The ways of a set after its line is stored -/

theorem ncWay_of_near (h : t.cache.near = s.cache.near) (j : Nat) : ncWay t j = ncWay s j := by
  unfold ncWay
  rw [h]

/-- The two ways of a line are of its set. -/
theorem ncWays_set (hw : ncWays s lln = [k, m]) : ∀ j ∈ [k, m], ∃ w, w < 16 ∧ j = 16 * ncSet lln + w := by
  intro j hj
  rw [← hw] at hj
  obtain ⟨w, hr, he⟩ := List.mem_map.1 (List.mem_filter.1 hj).1
  exact ⟨w, List.mem_range.1 hr, he.symm⟩

/-- Ways that hold what they held are found again. -/
theorem ncWays_congr (h : ∀ w, w < 16 → ((ncWay t (16 * ncSet lln + w)).st ≠ .invalid ∧ (ncWay t (16 * ncSet lln + w)).lln = lln ↔
    (ncWay s (16 * ncSet lln + w)).st ≠ .invalid ∧ (ncWay s (16 * ncSet lln + w)).lln = lln)) : ncWays t lln = ncWays s lln := by
  refine List.filter_congr (fun j hj => ?_)
  obtain ⟨w, hr, rfl⟩ := List.mem_map.1 hj
  have hw := h w (List.mem_range.1 hr)
  rw [Bool.eq_iff_iff]
  simp only [Bool.and_eq_true, decide_eq_true_eq, beq_iff_eq]
  exact hw

section
variable {x : NcWay} (hnear : t.cache.near = sset {} (sset {} s.cache.near k x) m x)
include hnear

theorem ncWay_stored_second : ncWay t m = x := by
  unfold ncWay
  rw [hnear, sget_sset_self]

theorem ncWay_stored_first : ncWay t k = x := by
  by_cases h : k = m
  · rw [h, ncWay_stored_second hnear]
  · unfold ncWay
    rw [hnear, sget_sset_ne _ _ _ h, sget_sset_self]

theorem ncWay_stored_other {j : Nat} (hk : j ≠ k) (hm : j ≠ m) : ncWay t j = ncWay s j := by
  unfold ncWay
  rw [hnear, sget_sset_ne _ _ _ hm, sget_sset_ne _ _ _ hk]

/-- Its own set finds the line in the same two ways. -/
theorem ncWays_stored (hw : ncWays s lln = [k, m]) (hx : x.st ≠ .invalid ∧ x.lln = lln) : ncWays t lln = [k, m] := by
  rw [← hw]
  refine ncWays_congr (fun w hlt => ?_)
  by_cases hin : 16 * ncSet lln + w ∈ [k, m]
  · have hway : ncWay t (16 * ncSet lln + w) = x := by
      obtain h | h := List.mem_cons.1 hin
      · rw [h, ncWay_stored_first hnear]
      · rw [List.mem_singleton.1 h, ncWay_stored_second hnear]
    have hold : 16 * ncSet lln + w ∈ ncWays s lln := hw ▸ hin
    have hvalid := (List.mem_filter.1 hold).2
    rw [hway]
    simp only [Bool.and_eq_true, decide_eq_true_eq, beq_iff_eq] at hvalid
    exact ⟨fun _ => hvalid, fun _ => hx⟩
  · have hk : 16 * ncSet lln + w ≠ k := fun h => hin (h ▸ List.mem_cons_self)
    have hm : 16 * ncSet lln + w ≠ m := fun h => hin (h ▸ List.mem_cons_of_mem _ (List.mem_singleton.2 rfl))
    rw [ncWay_stored_other hnear hk hm]

/-- Another set is as before. -/
theorem ncWays_stored_other (hw : ncWays s lln = [k, m]) {lln' : Nat} (hne : ncSet lln' ≠ ncSet lln) : ncWays t lln' = ncWays s lln' := by
  refine ncWays_congr (fun w hlt => ?_)
  have hout {j : Nat} (hj : j ∈ [k, m]) : 16 * ncSet lln' + w ≠ j := by
    obtain ⟨v, hv, rfl⟩ := ncWays_set hw j hj
    omega
  rw [ncWay_stored_other hnear (hout List.mem_cons_self) (hout (List.mem_cons_of_mem _ (List.mem_singleton.2 rfl)))]

end

end

/-- Settles O28: the write puts its line in the two ways it has, and the look-up finds it there. -/
theorem storedLineIsLookedUp : Obligations.StoredLineIsLookedUp := by
  intro s lln data k m hw h t
  have hnear : t.cache.near = _ := storeWrite_near data h hw
  refine ⟨?_, fun lln' _ hset => ncWays_stored_other hnear hw hset⟩
  have hways := ncWays_stored hnear hw ⟨NcState.noConfusion, rfl⟩
  have hk := ncWay_stored_first hnear
  have hm := ncWay_stored_second hnear
  have htwin : ncTwin t k m = (some (wholeWay s lln k (writeLine s lln data (BitVec.allOnes 64) false)), t) := by
    unfold ncTwin
    rw [hk, hm]
    rfl
  unfold ncLook
  rw [hways]
  dsimp only
  rw [htwin]
  rfl

end Sys2Proof.Machine
end

section
/-! SUPPORT. Write credits, the timeout of a Strict acknowledgement, Relaxed exposure and dirty age (R157, R166, R167), with O29 assembled from them. -/

namespace Sys2Proof.Machine

section
variable {s : State} {p : Fin 4} {l : Fin 16}

/-- Nothing holds a write credit of the LD back (R157, R166, R167, R369, R489, R620). -/
structure CreditFree (s : State) (p : Fin 4) (l : Fin 16) : Prop where
  takes : takesMem s p l = true
  room : budgetRoom s = true
  held : s.host.creditsHeld = false
  level : s.sec.lowering = 0
  exposed : (ldOf s (16 * p.val + l.val)).exposedOut = []
  stall : (ldOf s (16 * p.val + l.val)).mode = .relaxed → s.write.relaxedStall = []
  stream : (ldOf s (16 * p.val + l.val)).mode ≠ .loc → streamRoom s = true
  fill : s.span.desc = none ∨ patchFill s + 1 ≤ 2 ^ 27 - 2 ^ 20

/-- What the grant asks, as it asks it. -/
def creditPermit (s : State) (p : Fin 4) (l : Fin 16) : Bool :=
  let d := ldOf s (ldIx p l)
  takesMem s p l && budgetRoom s && !s.host.creditsHeld && s.sec.lowering == 0 && d.exposedOut.isEmpty &&
    !(d.mode == .relaxed && !s.write.relaxedStall.isEmpty) && (d.mode == .loc || streamRoom s) &&
    (s.span.desc.isNone || Nat.ble (patchFill s + 1) creditFill)

theorem CreditFree.permit (h : CreditFree s p l) : creditPermit s p l = true := by
  obtain ⟨takes, room, held, level, exposed, stall, stream, fill⟩ := h
  have hstall : ((ldOf s (ldIx p l)).mode == .relaxed && !s.write.relaxedStall.isEmpty) = false := by
    rw [Bool.and_eq_false_imp]
    intro hmode
    rw [stall (eq_of_beq hmode)]
    rfl
  have hstream : ((ldOf s (ldIx p l)).mode == .loc || streamRoom s) = true := by
    rw [Bool.or_eq_true, beq_iff_eq]
    exact (em _).imp_right stream
  have hfill : (s.span.desc.isNone || Nat.ble (patchFill s + 1) creditFill) = true := by
    rw [Bool.or_eq_true, Option.isNone_iff_eq_none]
    exact fill.imp_right Nat.ble_eq_true_of_le
  have hexposed : (ldOf s (ldIx p l)).exposedOut.isEmpty = true := List.isEmpty_iff.2 exposed
  unfold creditPermit
  dsimp only
  rw [takes, room, held, level, hexposed, hstall, hstream, hfill]
  rfl

theorem creditPermit_false (h : budgetRoom s = false ∨ s.host.creditsHeld = true ∨ s.sec.lowering ≠ 0 ∨ (ldOf s (16 * p.val + l.val)).exposedOut ≠ []) :
    creditPermit s p l = false := by
  refine Bool.eq_false_iff.2 (fun hpermit => ?_)
  simp only [creditPermit, Bool.and_eq_true, Bool.not_eq_true', beq_iff_eq, List.isEmpty_iff] at hpermit
  obtain ⟨⟨⟨⟨⟨⟨⟨-, hroom⟩, hheld⟩, hlevel⟩, hexposed⟩, -⟩, -⟩, -⟩ := hpermit
  obtain h | h | h | h := h
  · exact Bool.false_ne_true (h.symm.trans hroom)
  · exact Bool.false_ne_true (hheld.symm.trans h)
  · exact h hlevel
  · exact h hexposed

/-- The state a grant decides in. -/
def paced (s : State) : State := { begin s with write := { s.write with pacing := !budgetRoom s } }

theorem writeCreditGrant_runs (hbrake : s.therm.throttle ≠ .brake) (hcont : qosContended s p (16 * p.val + l.val) = false) :
    exec (.writeCreditGrant p l) s = if creditPermit s p l && !qosOver s p (16 * p.val + l.val) then
      ran (updLoad (send (setLd (16 * p.val + l.val) (fun d => { d with credits := d.credits + 1 }) (paced s)) (.credit p (16 * p.val + l.val)))) else ran (paced s) := by
  have hbrakes : brakeHolds (paced s) = (false, paced s) := if_neg (fun h => hbrake h.1)
  have hqos : qosHolds p (16 * p.val + l.val) (paced s) = (qosOver s p (16 * p.val + l.val), paced s) := by
    have hcont' : qosContended (paced s) p (16 * p.val + l.val) = false := hcont
    have hover : qosOver (paced s) p (16 * p.val + l.val) = qosOver s p (16 * p.val + l.val) := rfl
    unfold qosHolds
    rw [hover, hcont']
    cases qosOver s p (16 * p.val + l.val) <;> rfl
  have hbrakes' : brakeHolds { begin s with write := { (begin s).write with pacing := !budgetRoom (begin s) } } = (false, paced s) := hbrakes
  refine (rfl : _ = execWriteCreditGrant p l s).trans ?_
  unfold execWriteCreditGrant
  dsimp only
  rw [hbrakes']
  dsimp only
  have hqos' : qosHolds p (ldIx p l) (paced s) = (qosOver s p (16 * p.val + l.val), paced s) := hqos
  rw [hqos']
  dsimp only
  rw [Bool.not_false, Bool.and_true]
  rfl

theorem creditGranted (hbrake : s.therm.throttle ≠ .brake) (hcont : qosContended s p (16 * p.val + l.val) = false) (hfree : CreditFree s p l)
    (hover : qosOver s p (16 * p.val + l.val) = false) (hget : s.host.lds[16 * p.val + l.val]? = some (ldOf s (16 * p.val + l.val))) :
    Ends (.writeCreditGrant p l) s (fun u => u.out = [.credit p (16 * p.val + l.val)] ∧
      (ldOf u (16 * p.val + l.val)).credits = (ldOf s (16 * p.val + l.val)).credits + 1 ∧ u.write.pacing = false) := by
  refine ends_of_ran ((writeCreditGrant_runs hbrake hcont).trans (if_pos ?_)) ⟨rfl, ?_, ?_⟩
  · rw [hfree.permit, hover]
    rfl
  · exact congrArg Ld.credits (ldOf_setLd_self (s := paced s) (fun d => { d with credits := d.credits + 1 }) (lt_of_getElem?_eq hget))
  · exact congrArg (!·) hfree.room

theorem creditWithheld (hbrake : s.therm.throttle ≠ .brake) (hcont : qosContended s p (16 * p.val + l.val) = false)
    (h : budgetRoom s = false ∨ s.host.creditsHeld = true ∨ s.sec.lowering ≠ 0 ∨ (ldOf s (16 * p.val + l.val)).exposedOut ≠ [] ∨ qosOver s p (16 * p.val + l.val) = true) :
    Ends (.writeCreditGrant p l) s (fun u => u = paced s) := by
  have hno : (creditPermit s p l && !qosOver s p (16 * p.val + l.val)) = false := by
    obtain h | h | h | h | h := h
    · rw [creditPermit_false (.inl h)]; rfl
    · rw [creditPermit_false (.inr (.inl h))]; rfl
    · rw [creditPermit_false (.inr (.inr (.inl h)))]; rfl
    · rw [creditPermit_false (.inr (.inr (.inr h)))]; rfl
    · rw [h, Bool.not_true, Bool.and_false]
  exact ends_of_ran ((writeCreditGrant_runs hbrake hcont).trans (if_neg (Bool.eq_false_iff.1 hno))) rfl

end

/-! ### Exposure -/

section
variable {s t : State} {i : Nat}

/-- The state in which an exposure is recorded. -/
def exposed (i : Nat) (recs out : List (Nat × BitVec 48)) (s : State) : State :=
  { setLd i (fun d => { d with exposedRec := d.exposedRec ++ recs.filter (fun r => !d.exposedRec.contains r), exposedOut := d.exposedOut ++ out.filter (fun r => !d.exposedOut.contains r) }) s
    with write := { s.write with exposedLd := setBit s.write.exposedLd i true, exposedCnt := satInc s.write.exposedCnt } }

theorem expose_eq (rnum : BitVec 48) (recs out : List (Nat × BitVec 48)) :
    expose i rnum recs out s = event { code := 0x0304, p0 := i, p1 := rnum.toNat } (exposed i recs out s) := rfl

theorem expose_heralds (rnum : BitVec 48) (recs out : List (Nat × BitVec 48)) : Heralds (exposed i recs out s) (expose i rnum recs out s) := event_heralds _ _

theorem expose_write (rnum : BitVec 48) (recs out : List (Nat × BitVec 48)) :
    (expose i rnum recs out s).write = { s.write with exposedLd := setBit s.write.exposedLd i true, exposedCnt := satInc s.write.exposedCnt } :=
  (write_of_keepE (expose_heralds rnum recs out).keep :)

theorem expose_cache (rnum : BitVec 48) (recs out : List (Nat × BitVec 48)) : (expose i rnum recs out s).cache = s.cache :=
  (cache_of_keepE (expose_heralds rnum recs out).keep).trans rfl

theorem expose_reqs (rnum : BitVec 48) (recs out : List (Nat × BitVec 48)) : (expose i rnum recs out s).host.reqs = s.host.reqs := by
  rw [(expose_heralds rnum recs out).hostKept.reqs]
  rfl

theorem isDirty_begin (s : State) (lln : Nat) : isDirty (begin s) lln = isDirty s lln := rfl

theorem isDirty_of_cache {lln : Nat} (h : t.cache = s.cache) : isDirty t lln = isDirty s lln := by
  unfold isDirty dirtyWay ncWay ncWays
  rw [h]

/-- The request whose Strict acknowledgement times out. -/
def strictOf (p i : Nat) (tag : BitVec 16) (r : Req) : Bool :=
  r.write && r.port == p && r.ld == i && r.tag == tag && (match r.wait with | .strict _ => true | _ => false)

/-- The state in which the request that timed out is taken off, its record exposed. -/
def unanswered (i : Nat) (q : Req) (s : State) : State :=
  let rnum := match q.wait with | .strict ((_, n) :: _) => n | _ => 0
  let s := { s with host := { s.host with reqs := s.host.reqs.filter (fun r => r.id != q.id) } }
  let recs := match q.wait with | .strict l => strictLeft s l | _ => []
  expose i rnum recs (ldUnacked s i) (updLoad s)

theorem unanswered_exposes (q : Req) (s : State) : ∃ rnum recs out, unanswered i q s =
    expose i rnum recs out (updLoad { s with host := { s.host with reqs := s.host.reqs.filter (fun r => r.id != q.id) } }) := ⟨_, _, _, rfl⟩

theorem unanswered_reqs (q : Req) (s : State) : (unanswered i q s).host.reqs = s.host.reqs.filter (fun r => r.id != q.id) := by
  obtain ⟨rnum, recs, out, h⟩ := unanswered_exposes (i := i) q s
  rw [h, expose_reqs]
  rfl

theorem unanswered_cache (q : Req) (s : State) : (unanswered i q s).cache = s.cache := by
  obtain ⟨rnum, recs, out, h⟩ := unanswered_exposes (i := i) q s
  rw [h, expose_cache]
  rfl

theorem unanswered_isDirty (q : Req) (s : State) : isDirty (unanswered i q (begin s)) q.lln = isDirty s q.lln :=
  (isDirty_of_cache (unanswered_cache q (begin s))).trans (isDirty_begin s q.lln)

theorem unanswered_write (q : Req) (s : State) : (unanswered i q s).write.through = s.write.through ∧
    (unanswered i q s).write.exposedLd = setBit s.write.exposedLd i true ∧ (unanswered i q s).write.exposedCnt = satInc s.write.exposedCnt := by
  obtain ⟨rnum, recs, out, h⟩ := unanswered_exposes (i := i) q s
  rw [h, expose_write]
  exact ⟨rfl, rfl, rfl⟩

variable {p : Fin 4} {l : Fin 16} {tag : BitVec 16} {q : Req}

/-- What the timeout does once the request is taken off and its record exposed in `t`. -/
def unansweredEnds (q : Req) (t : State) : Res :=
  if t.write.through ∧ isDirty t q.lln then ran { t with host := { t.host with reqs := t.host.reqs ++ [{ q with wait := .through }] } }
  else ran (send t (.memWrite q.port q.ld q.tag (devLoad t)))

theorem strictAckTimeout_runs (hfind : s.host.reqs.find? (strictOf p.val (16 * p.val + l.val) tag) = some q) :
    exec (.strictAckTimeout p l tag) s =
      unansweredEnds q (unanswered (16 * p.val + l.val) q (begin s)) := by
  have hfind' : (begin s).host.reqs.find? (fun r => r.write && r.port == p.val && r.ld == ldIx p l && r.tag == tag &&
      (match r.wait with | .strict _ => true | _ => false)) = some q := hfind
  refine (rfl : _ = execStrictAckTimeout p l tag s).trans ?_
  unfold execStrictAckTimeout
  dsimp only
  split
  next hnone => exact nomatch hnone.symm.trans hfind'
  next r hsome =>
    obtain rfl : r = q := Option.some.inj (hsome.symm.trans hfind')
    rfl

theorem find_strictOf (hmem : q ∈ s.host.reqs) (hwrite : q.write = true) (hport : q.port = p.val) (hld : q.ld = i) (htag : q.tag = tag) (hwait : ∃ rs, q.wait = .strict rs)
    (honly : ∀ r ∈ s.host.reqs, r.write = true → r.port = p.val → r.ld = i → r.tag = tag → r = q) : s.host.reqs.find? (strictOf p.val i tag) = some q := by
  obtain ⟨rs, hrs⟩ := hwait
  have hq : strictOf p.val i tag q = true := by
    unfold strictOf
    rw [hwrite, hport, hld, htag, hrs]
    simp only [beq_self_eq_true, Bool.and_self]
  cases hfind : s.host.reqs.find? (strictOf p.val i tag) with
  | none => exact absurd hq (List.find?_eq_none.1 hfind q hmem)
  | some r =>
    have hr := List.find?_some hfind
    simp only [strictOf, Bool.and_eq_true, beq_iff_eq] at hr
    obtain ⟨⟨⟨⟨hrw, hrp⟩, hrl⟩, hrt⟩, -⟩ := hr
    rw [honly r (List.mem_of_find?_eq_some hfind) hrw hrp hrl hrt]

theorem strictTimeout_completes {i : Instr} {left : List Req} {n : Nat} {e : BitVec 64} {c : BitVec 32} (hexec : exec i s = unansweredEnds q t) (hreqs : t.host.reqs = left)
    (hexp : t.write.exposedLd = setBit e n true) (hcnt : t.write.exposedCnt = c) (hn : n < 64) (hno : t.write.through = false ∨ isDirty t q.lln = false) :
    Ends i s (fun u => (∃ dl, .memWrite q.port q.ld q.tag dl ∈ u.out) ∧ u.host.reqs = left ∧ u.write.exposedLd.getLsbD n = true ∧ u.write.exposedCnt = c) := by
  have hneither : ¬ (t.write.through ∧ isDirty t q.lln) := by
    rintro ⟨h1, h2⟩
    obtain h | h := hno
    · exact Bool.false_ne_true (h.symm.trans h1)
    · exact Bool.false_ne_true (h.symm.trans h2)
  refine ends_of_ran (hexec.trans (if_neg hneither)) ⟨⟨devLoad t, List.mem_append_right _ (List.mem_singleton_self _)⟩, hreqs, ?_, hcnt⟩
  have h : t.write.exposedLd.getLsbD n = true := by rw [hexp, getLsbD_setBit_true _ hn]
  exact h

theorem strictTimeout_goesThrough {i : Instr} {left : List Req} {n : Nat} {e : BitVec 64} {c : BitVec 32} (hexec : exec i s = unansweredEnds q t) (hreqs : t.host.reqs = left)
    (hexp : t.write.exposedLd = setBit e n true) (hcnt : t.write.exposedCnt = c) (hn : n < 64) (hthrough : t.write.through = true) (hdirty : isDirty t q.lln = true) :
    Ends i s (fun u => u.host.reqs = left ++ [{ q with wait := .through }] ∧ u.write.exposedLd.getLsbD n = true ∧ u.write.exposedCnt = c) := by
  refine ends_of_ran (hexec.trans (if_pos ⟨hthrough, hdirty⟩)) ⟨congrArg (· ++ [{ q with wait := .through }]) hreqs, ?_, hcnt⟩
  have h : t.write.exposedLd.getLsbD n = true := by rw [hexp, getLsbD_setBit_true _ hn]
  exact h

theorem relaxedStall_recorded (k : Fin 2) (n : BitVec 48) (hun : isUnacked s k n = true) (hnew : (k.val, n) ∉ s.write.relaxedStall) :
    exec (.relaxedRecordStall k n) s = ran { begin s with write := { s.write with relaxedStall := s.write.relaxedStall ++ [(k.val, n)] } } := by
  refine (rfl : _ = execRelaxedRecordStall k n s).trans (if_pos ⟨hun, ?_⟩)
  rw [Bool.not_eq_true', List.contains_eq_mem]
  exact decide_eq_false hnew

theorem relaxedExposed_runs (k : Fin 2) (n : BitVec 48) (hun : isUnacked s k n = true) (hrec : recordLd s k n = some i) :
    exec (.relaxedRecordExposed k n) s = ran (expose i n [(k.val, n)] [] (begin s)) := by
  have hone : (if isUnacked (begin s) k n then recordLd (begin s) k n else none) = some i := (if_pos hun).trans hrec
  refine (rfl : _ = execRelaxedRecordExposed k n s).trans ?_
  unfold execRelaxedRecordExposed
  dsimp only
  rw [hone]

theorem mem_append_fresh {α : Type} [BEq α] [LawfulBEq α] (a : α) (l : List α) : a ∈ l ++ [a].filter (fun r => !l.contains r) := by
  by_cases h : a ∈ l
  · exact List.mem_append_left _ h
  · refine List.mem_append_right _ (List.mem_filter.2 ⟨List.mem_singleton_self a, ?_⟩)
    rw [Bool.not_eq_true', List.contains_eq_mem]
    exact decide_eq_false h

theorem relaxedExposed_recorded (k : Fin 2) (n : BitVec 48) (hun : isUnacked s k n = true) (hrec : recordLd s k n = some i) :
    Ends (.relaxedRecordExposed k n) s (fun u => Recorded { code := 0x0304, p0 := i, p1 := n.toNat } u (fun v => v.write.exposedLd.getLsbD i = true ∧
      v.write.exposedCnt = satInc s.write.exposedCnt ∧ (s.host.lds[i]? = some (ldOf s i) → (k.val, n) ∈ (ldOf v i).exposedRec))) := by
  have hi : i < 64 := List.mem_range.1 (List.mem_of_find?_eq_some hrec)
  refine ends_of_ran (relaxedExposed_runs k n hun hrec) ⟨exposed i [(k.val, n)] [] (begin s), rfl, getLsbD_setBit_true _ hi, rfl, fun hget => ?_⟩
  have hld : ldOf (exposed i [(k.val, n)] [] (begin s)) i = _ := ldOf_setLd_self (s := begin s) _ (lt_of_getElem?_eq hget)
  rw [hld]
  exact mem_append_fresh _ _

end

/-- Settles O29: the grant by what holds a credit back; an exposure by the event that records it, which leaves the write path alone. -/
theorem creditsAndExposure : Obligations.CreditsAndExposure := by
  unfold Obligations.CreditsAndExposure
  intro s
  refine ⟨fun p l hbrake hcont => ⟨fun takes room held level exposed stall stream fill hover hget => ?_, fun h => creditWithheld hbrake hcont h⟩,
    fun p l tag q hmem hwrite hport hld htag hwait honly => ?_, fun k n hun hnew => ends_of_ran (relaxedStall_recorded k n hun hnew) rfl,
    fun k n i hun hrec => relaxedExposed_recorded k n hun hrec, fun lln => ⟨_, rfl, rfl⟩⟩
  · exact creditGranted hbrake hcont ⟨takes, room, held, level, exposed, stall, stream, fill⟩ hover hget
  · have hexec := strictAckTimeout_runs (find_strictOf hmem hwrite hport hld htag hwait honly)
    obtain ⟨hthr, hexp, hcnt⟩ := unanswered_write (i := 16 * p.val + l.val) q (begin s)
    have hreqs := unanswered_reqs (i := 16 * p.val + l.val) q (begin s)
    have hdirty := unanswered_isDirty (i := 16 * p.val + l.val) q s
    have hi : 16 * p.val + l.val < 64 := by omega
    refine ⟨fun hno => ?_, fun hyes hd => strictTimeout_goesThrough hexec hreqs hexp hcnt hi (hthr.trans hyes) (hdirty.trans hd)⟩
    have h := strictTimeout_completes hexec hreqs hexp hcnt hi (hno.imp hthr.trans hdirty.trans)
    rw [hport, hld, htag] at h
    exact h

end Sys2Proof.Machine
end

section
/-! SUPPORT. Ports and their lane groups: links that come up and go down, PERST#, the reference clock, decoders (R26 to R35), with O30 assembled from it. -/

namespace Sys2Proof.Machine

/-! ### Hosts as they were but for their logs -/

/-- The hosts are as they were but for the logs of the LDs. -/
structure LogsAlone (s u : State) : Prop where
  host : { u.host with lds := s.host.lds } = s.host
  count : u.host.lds.length = s.host.lds.length
  lds : ∀ i, LogsOnly (ldOf s i) (ldOf u i)

section
variable {s t u : State}

theorem Heralds.logsAlone (h : Heralds s u) : LogsAlone s u := ⟨h.host, h.count, h.lds⟩

theorem LogsAlone.of_host (h : u.host = s.host) : LogsAlone s u := by
  refine ⟨?_, ?_, fun i => ?_⟩
  · rw [h]
  · rw [h]
  · simp only [ldOf, LogsOnly, h]

theorem LogsAlone.trans (hst : LogsAlone s t) (htu : LogsAlone t u) : LogsAlone s u := by
  refine ⟨?_, htu.count.trans hst.count, fun i => (hst.lds i).trans (htu.lds i)⟩
  rw [← hst.host, ← htu.host]

theorem LogsAlone.refl (s : State) : LogsAlone s s := (Heralds.refl s).logsAlone

theorem LogsAlone.ports (h : LogsAlone s u) : u.host.ports = s.host.ports := congrArg (·.ports) h.host

theorem LogsAlone.reqs (h : LogsAlone s u) : u.host.reqs = s.host.reqs := congrArg (·.reqs) h.host

theorem portOf_of_ports (h : u.host.ports = s.host.ports) (p : Nat) : portOf u p = portOf s p := congrArg (fun l : List Port => l.getD p {}) h

theorem LogsAlone.port (h : LogsAlone s u) (p : Nat) : portOf u p = portOf s p := portOf_of_ports h.ports p

theorem LogsAlone.ranges (h : LogsAlone s u) (i : Nat) : (ldOf u i).ranges = (ldOf s i).ranges := congrArg (·.ranges) (h.lds i)

theorem LogsAlone.decoders (h : LogsAlone s u) (i : Nat) : (ldOf u i).decoders = (ldOf s i).decoders := congrArg (·.decoders) (h.lds i)

theorem LogsAlone.credits (h : LogsAlone s u) (i : Nat) : (ldOf u i).credits = (ldOf s i).credits := congrArg (·.credits) (h.lds i)

theorem event_logsAlone (e : Ev) (s : State) : LogsAlone s (event e s) := (event_heralds e s).logsAlone

theorem mailDown_host (n : Nat) (s : State) : (mailDown n s).host = s.host := by
  unfold mailDown
  split
  · rfl
  · split <;> rfl

theorem setUnit_logsAlone (n : Nat) (st : UState) (reason : Nat) (repl : Bool) (s : State) : LogsAlone s (setUnit n st reason repl s) := by
  unfold setUnit
  extract_lets old was units rcd s1 evt s2 saved s3
  have h2 : LogsAlone s s2 := .of_host (by simp only [s2]; split <;> rfl)
  have h3 : LogsAlone s2 s3 := by
    simp only [s3]
    split
    · exact (saveUnit_heralds n s2).logsAlone
    · exact .refl s2
  have hdown : LogsAlone s3 (if isDown st then mailDown n s3 else s3) := by
    split
    · exact .of_host (mailDown_host n s3)
    · exact .refl s3
  exact h2.trans (h3.trans (hdown.trans (event_logsAlone _ _)))

theorem portState_logsAlone (p : Nat) (st : UState) (s : State) : LogsAlone s (portState p st s) := by
  unfold portState
  dsimp only
  split
  · exact setUnit_logsAlone _ _ _ _ s
  · exact .refl s

theorem endJob_logsAlone (id : BitVec 16) (m : Nat) (s : State) : LogsAlone s (endJob id m s) := by
  unfold endJob
  split
  · exact .refl s
  · refine LogsAlone.trans ?_ (event_logsAlone _ _)
    exact .of_host rfl

theorem trainLink_host (p : Nat) (s : State) : (trainLink p s).host = s.host := by
  unfold trainLink
  dsimp only
  split <;> rfl

end

/-! ### Ports -/

section
variable {s : State} {p q : Nat}

theorem portOf_setPort_self (f : Port → Port) (h : p < s.host.ports.length) : portOf (setPort p f s) p = f (portOf s p) := getD_lmod_self _ _ f h

theorem portOf_setPort_ne (f : Port → Port) (h : p ≠ q) : portOf (setPort q f s) p = portOf s p := getD_lmod_ne _ _ f h

theorem setPort_ports_length (f : Port → Port) (s : State) : (setPort p f s).host.ports.length = s.host.ports.length := lmod_length _ _ _

theorem ldOf_setLd_ne {i j : Nat} (f : Ld → Ld) (h : j ≠ i) : ldOf (setLd i f s) j = ldOf s j := getD_lmod_ne _ _ f h

theorem setLd_count (i : Nat) (f : Ld → Ld) (s : State) : (setLd i f s).host.lds.length = s.host.lds.length := lmod_length _ _ _

/-- What a link that goes down leaves: the port is down, its requests are gone, the credits of its LDs are gone. -/
structure Downed (p : Nat) (s u : State) : Prop where
  others : ∀ q, q ≠ p → portOf u q = portOf s q
  count : u.host.ports.length = s.host.ports.length
  ldCount : u.host.lds.length = s.host.lds.length
  reqs : u.host.reqs = s.host.reqs.filter (fun r => r.port != p)
  ranges : ∀ i, (ldOf u i).ranges = (ldOf s i).ranges
  decoders : ∀ i, (ldOf u i).decoders = (ldOf s i).decoders
  credits : ∀ i, i / 16 = p → (ldOf u i).credits = 0
  self : p < s.host.ports.length → portOf u p = { portOf s p with up := false, ideActive := false, spdm := .start }

/-- The LDs without the credits of port `p`. -/
def noCredits (p : Nat) (lds : List Ld) : List Ld := lds.mapIdx (fun i d => if i / 16 = p then { d with credits := 0 } else d)

theorem getD_noCredits (p : Nat) (lds : List Ld) (i : Nat) :
    (noCredits p lds).getD i {} = if i / 16 = p then { lds.getD i {} with credits := 0 } else lds.getD i {} := by
  rw [noCredits, List.getD_eq_getElem?_getD, List.getElem?_mapIdx, List.getD_eq_getElem?_getD]
  cases lds[i]? with
  | some d => rfl
  | none => exact (ite_self _).symm

/-- The port taken off, before its unit follows. -/
def cutOff (p : Nat) (s : State) : State :=
  setPort p (fun q => { q with up := false, ideActive := false, spdm := .start }) { s with host := { s.host with
    reqs := s.host.reqs.filter (fun r => r.port != p)
    lds := noCredits p s.host.lds
    gpf := s.host.gpf.filter (fun g => g.1 != p) } }

theorem ldOf_cutOff (p i : Nat) (s : State) : ldOf (cutOff p s) i = if i / 16 = p then { ldOf s i with credits := 0 } else ldOf s i := getD_noCredits p _ i

theorem portDown_cutOff (p : Nat) (s : State) : LogsAlone (cutOff p s) (portDown p s) :=
  (portState_logsAlone p .degraded (cutOff p s)).trans (.of_host rfl)

theorem cutOff_downed (p : Nat) (s : State) : Downed p s (cutOff p s) where
  others q hq := getD_lmod_ne _ _ _ hq
  count := lmod_length _ _ _
  ldCount := List.length_mapIdx
  reqs := rfl
  ranges i := by rw [ldOf_cutOff]; split <;> rfl
  decoders i := by rw [ldOf_cutOff]; split <;> rfl
  credits i hi := by rw [ldOf_cutOff, if_pos hi]
  self hp := getD_lmod_self _ _ _ hp

theorem Downed.logs {t u : State} (h : Downed p s t) (htu : LogsAlone t u) : Downed p s u where
  others q hq := (htu.port q).trans (h.others q hq)
  count := (congrArg List.length htu.ports).trans h.count
  ldCount := htu.count.trans h.ldCount
  reqs := htu.reqs.trans h.reqs
  ranges i := (htu.ranges i).trans (h.ranges i)
  decoders i := (htu.decoders i).trans (h.decoders i)
  credits i hi := (htu.credits i).trans (h.credits i hi)
  self hp := (htu.port p).trans (h.self hp)

theorem portDown_downed (p : Nat) (s : State) : Downed p s (portDown p s) := (cutOff_downed p s).logs (portDown_cutOff p s)

theorem linkLost_others (c : Nat) (h : q ≠ p) : portOf (linkLost p c s) q = portOf s q := by
  unfold linkLost
  dsimp only
  split
  · rfl
  · exact ((event_logsAlone _ _).port q).trans ((portDown_downed p s).others q h)

theorem linkLost_count (c : Nat) : (linkLost p c s).host.ports.length = s.host.ports.length := by
  unfold linkLost
  dsimp only
  split
  · rfl
  · exact (congrArg List.length (event_logsAlone _ _).ports).trans (portDown_downed p s).count

theorem linkLost_down (c : Nat) (h : p < s.host.ports.length) : (portOf (linkLost p c s) p).up = false := by
  unfold linkLost
  dsimp only
  split
  · next hup => exact (Bool.not_eq_true' _).mp hup
  · exact ((congrArg Port.up ((event_logsAlone _ _).port p)).trans (congrArg Port.up ((portDown_downed p s).self h)))

end

/-! ### PERST# -/

section
variable {s : State} {p q : Nat}

/-- An LD right after its port's PERST#. -/
def freshLd (d : Ld) : Ld := { d with decoders := List.replicate 4 {}, d3hot := false, policy := 0, tsOffset := none }

/-- The LDs listed are made fresh. -/
def freshLds (p : Nat) (ls : List Nat) (s : State) : State := ls.foldl (fun s l => setLd (ldIx p l) freshLd s) s

theorem freshLds_ports (p : Nat) (ls : List Nat) (s : State) : (freshLds p ls s).host.ports = s.host.ports ∧ (freshLds p ls s).host.reqs = s.host.reqs ∧
    (freshLds p ls s).host.lds.length = s.host.lds.length := by
  induction ls generalizing s with
  | nil => exact ⟨rfl, rfl, rfl⟩
  | cons l ls ih =>
    obtain ⟨h1, h2, h3⟩ := ih (setLd (ldIx p l) freshLd s)
    exact ⟨h1, h2, h3.trans (setLd_count _ _ _)⟩

theorem freshLds_ranges (p : Nat) (ls : List Nat) (s : State) (i : Nat) : (ldOf (freshLds p ls s) i).ranges = (ldOf s i).ranges := by
  induction ls generalizing s with
  | nil => rfl
  | cons l ls ih =>
    refine (ih (setLd (ldIx p l) freshLd s)).trans ?_
    exact setLd_ranges (f := freshLd) (fun _ => rfl) _ _

/-- The decoders of a fresh LD. -/
def Undecoded (s : State) (i : Nat) : Prop := (ldOf s i).decoders = List.replicate 4 {}

theorem setLd_undecoded {i j : Nat} (h : Undecoded s i) : Undecoded (setLd j freshLd s) i := by
  unfold Undecoded
  by_cases hij : i = j
  · subst hij
    by_cases hi : i < s.host.lds.length
    · rw [ldOf_setLd_self freshLd hi]
      rfl
    · have hout : (setLd i freshLd s).host.lds.length ≤ i := (setLd_count i freshLd s).le.trans (Nat.le_of_not_lt hi)
      rw [ldOf, List.getD_eq_getElem?_getD, List.getElem?_eq_none hout]
      rfl
  · rw [ldOf_setLd_ne freshLd hij]
    exact h

theorem freshLds_keep {i : Nat} (ls : List Nat) (h : Undecoded s i) : Undecoded (freshLds p ls s) i :=
  List.foldlRecOn (motive := fun t => Undecoded t i) ls _ h (fun _ ht _ _ => setLd_undecoded ht)

theorem freshLds_undecoded {l : Nat} (ls : List Nat) (hl : l ∈ ls) (hi : ldIx p l < s.host.lds.length) : Undecoded (freshLds p ls s) (ldIx p l) := by
  induction ls generalizing s with
  | nil => cases hl
  | cons a ls ih =>
    obtain rfl | hl := List.mem_cons.1 hl
    · exact freshLds_keep ls (congrArg Ld.decoders (ldOf_setLd_self freshLd hi))
    · exact ih hl ((setLd_count _ _ _).symm ▸ hi)

theorem freshLds_other {i : Nat} (ls : List Nat) (hls : ∀ l ∈ ls, ldIx p l ≠ i) : ldOf (freshLds p ls s) i = ldOf s i := by
  induction ls generalizing s with
  | nil => rfl
  | cons a ls ih => exact (ih (fun l hl => hls l (List.mem_cons_of_mem _ hl))).trans (ldOf_setLd_ne freshLd (hls a List.mem_cons_self).symm)

/-- The port under PERST#, before its LDs are made fresh. -/
def perstPort (p : Nat) (s : State) : State := setPort p (fun q => { q with perst := true, ideKeys := [] }) (mailboxReset p (portDown p s))

theorem mailboxReset_ports (p : Nat) (s : State) : (mailboxReset p s).host.ports = s.host.ports ∧ (mailboxReset p s).host.reqs = s.host.reqs ∧
    (mailboxReset p s).host.lds.length = s.host.lds.length := ⟨rfl, rfl, List.length_map _⟩

theorem mailboxReset_ld (p i : Nat) (s : State) : (ldOf (mailboxReset p s) i).ranges = (ldOf s i).ranges ∧ (ldOf (mailboxReset p s) i).decoders = (ldOf s i).decoders := by
  have h : ldOf (mailboxReset p s) i = (s.host.lds.map (fun d => { d with
      heldRelease := d.heldRelease.filter (fun h => !(callerPort h.1 == some p))
      redo := d.redo ++ (d.heldRelease.filter (fun h => callerPort h.1 == some p)).map (fun h => h.2) })).getD i {} := rfl
  rw [h, List.getD_eq_getElem?_getD, List.getElem?_map, ldOf, List.getD_eq_getElem?_getD]
  cases s.host.lds[i]? <;> exact ⟨rfl, rfl⟩

theorem perstPort_others (h : q ≠ p) : portOf (perstPort p s) q = portOf s q :=
  (portOf_setPort_ne _ h).trans ((portOf_of_ports (mailboxReset_ports p _).1 q).trans ((portDown_downed p s).others q h))

theorem perstPort_self (h : p < s.host.ports.length) : portOf (perstPort p s) p = { portOf s p with up := false, ideActive := false, spdm := .start, perst := true, ideKeys := [] } := by
  have hdown := (portDown_downed p s).self h
  have hcount : p < (mailboxReset p (portDown p s)).host.ports.length := (portDown_downed p s).count.symm ▸ h
  refine (portOf_setPort_self _ hcount).trans ?_
  rw [portOf_of_ports (mailboxReset_ports p _).1 p, hdown]

theorem perstPort_host (p : Nat) (s : State) : (perstPort p s).host.ports.length = s.host.ports.length ∧ (perstPort p s).host.lds.length = s.host.lds.length ∧
    (perstPort p s).host.reqs = s.host.reqs.filter (fun r => r.port != p) := by
  obtain ⟨hports, hreqs, hlds⟩ := mailboxReset_ports p (portDown p s)
  have hdown := portDown_downed p s
  unfold perstPort
  generalize mailboxReset p (portDown p s) = t at hports hreqs hlds
  exact ⟨(setPort_ports_length _ _).trans ((congrArg List.length hports).trans hdown.count), hlds.trans hdown.ldCount, hreqs.trans hdown.reqs⟩

theorem perstPort_ld (p i : Nat) (s : State) : (ldOf (perstPort p s) i).ranges = (ldOf s i).ranges ∧ (ldOf (perstPort p s) i).decoders = (ldOf s i).decoders := by
  obtain ⟨h1, h2⟩ := mailboxReset_ld p i (portDown p s)
  exact ⟨h1.trans ((portDown_downed p s).ranges i), h2.trans ((portDown_downed p s).decoders i)⟩

/-- PERST# at one port. -/
def perstOne (p : Nat) (s : State) : State := freshLds p (List.range 16) (perstPort p s)

theorem perstAssert_runs (g : Fin 2) (s : State) : exec (.perstAssert g) s = ran (perstOne (2 * g + 1) (perstOne (2 * g) (begin s))) := by
  have hone (p : Nat) (s : State) : perstOne p s = (List.range 16).foldl (fun s l => setLd (ldIx p l) freshLd s)
      (setPort p (fun q => { q with perst := true, ideKeys := [] }) (mailboxReset p (portDown p s))) := by
    unfold perstOne freshLds perstPort
    rfl
  rw [hone, hone]
  generalize hls : List.range 16 = ls
  refine (rfl : _ = execPerstAssert g s).trans ?_
  unfold execPerstAssert
  rw [hls]
  rfl

theorem perstOne_others (h : q ≠ p) : portOf (perstOne p s) q = portOf s q := (portOf_of_ports (freshLds_ports p _ _).1 q).trans (perstPort_others h)

theorem perstOne_self (h : p < s.host.ports.length) : portOf (perstOne p s) p = { portOf s p with up := false, ideActive := false, spdm := .start, perst := true, ideKeys := [] } :=
  (portOf_of_ports (freshLds_ports p _ _).1 p).trans (perstPort_self h)

theorem perstOne_host (p : Nat) (s : State) : (perstOne p s).host.ports.length = s.host.ports.length ∧ (perstOne p s).host.lds.length = s.host.lds.length ∧
    (perstOne p s).host.reqs = s.host.reqs.filter (fun r => r.port != p) := by
  obtain ⟨h1, h2, h3⟩ := freshLds_ports p (List.range 16) (perstPort p s)
  obtain ⟨k1, k2, k3⟩ := perstPort_host p s
  exact ⟨(congrArg List.length h1).trans k1, h3.trans k2, h2.trans k3⟩

theorem perstOne_ranges (p i : Nat) (s : State) : (ldOf (perstOne p s) i).ranges = (ldOf s i).ranges := (freshLds_ranges _ _ _ _).trans (perstPort_ld p i s).1

theorem perstOne_undecoded {l : Nat} (hl : l < 16) (hi : ldIx p l < s.host.lds.length) : Undecoded (perstOne p s) (ldIx p l) :=
  freshLds_undecoded _ (List.mem_range.2 hl) ((perstPort_host p s).2.1.symm ▸ hi)

theorem perstOne_undecoded_other {l : Nat} (hl : l < 16) (hpq : q ≠ p) (h : Undecoded s (ldIx q l)) : Undecoded (perstOne p s) (ldIx q l) := by
  have hne : ∀ a ∈ List.range 16, ldIx p a ≠ ldIx q l := by
    intro a ha
    have ha := List.mem_range.1 ha
    unfold ldIx
    omega
  refine (congrArg Ld.decoders (freshLds_other _ hne)).trans ?_
  exact (perstPort_ld p _ s).2.trans h

/-- What PERST# leaves of a port and its LDs. -/
structure Perst (p : Nat) (s u : State) : Prop where
  port : (portOf u p).up = false ∧ (portOf u p).perst = true ∧ (portOf u p).ideKeys = []
  reqs : ∀ r ∈ u.host.reqs, r.port ≠ p
  lds : ∀ l < 16, Undecoded u (ldIx p l)

theorem perstOne_perst (hp : p < s.host.ports.length) (hl : ∀ l < 16, ldIx p l < s.host.lds.length) : Perst p s (perstOne p s) := by
  refine ⟨?_, fun r hr => ?_, fun l h => perstOne_undecoded h (hl l h)⟩
  · rw [perstOne_self hp]
    exact ⟨rfl, rfl, rfl⟩
  · rw [(perstOne_host p s).2.2] at hr
    exact bne_iff_ne.1 (List.mem_filter.1 hr).2

theorem Perst.other {t : State} (h : Perst p s t) (hpq : p ≠ q) : Perst p s (perstOne q t) := by
  obtain ⟨hport, hreqs, hlds⟩ := h
  refine ⟨?_, fun r hr => ?_, fun l hl => perstOne_undecoded_other hl hpq (hlds l hl)⟩
  · rw [perstOne_others hpq]
    exact hport
  · rw [(perstOne_host q t).2.2] at hr
    exact hreqs r (List.mem_filter.1 hr).1

theorem Perst.earlier {r : State} (h : Perst p s (perstOne p (perstOne q r))) : Perst p r (perstOne p (perstOne q r)) := ⟨h.port, h.reqs, h.lds⟩

theorem perst_group (s : State) (hports : s.host.ports.length = 4) (hlds : s.host.lds.length = 64) {p : Fin 4} {g : Fin 2} (hg : p.val / 2 = g.val) :
    Perst p.val s (perstOne (2 * g + 1) (perstOne (2 * g) s)) := by
  have hin : ∀ (t : State), t.host.lds.length = 64 → ∀ l < 16, ldIx p l < t.host.lds.length := by
    intro t ht l hl
    rw [ht]
    unfold ldIx
    omega
  obtain ⟨hc, hl, -⟩ := perstOne_host (2 * g) s
  have hhalf : p.val = 2 * g.val ∨ p.val = 2 * g.val + 1 := by omega
  obtain heq | heq := hhalf
  · have h := perstOne_perst (p := p.val) (s := s) (by omega) (hin s hlds)
    rw [heq] at h ⊢
    exact h.other (by omega)
  · have h := perstOne_perst (p := p.val) (s := perstOne (2 * g) s) (by omega) (hin _ (hl.trans hlds))
    rw [heq] at h ⊢
    exact h.earlier

end

/-! ### The other rows -/

section
variable {s : State} {p : Fin 4} {g : Fin 2}

theorem getLsbD_setBit_self {w i : Nat} (x : BitVec w) (b : Bool) (h : i < w) : (setBit x i b).getLsbD i = b := by
  cases b with
  | true => exact getLsbD_setBit_true x h
  | false =>
    unfold setBit
    rw [if_neg Bool.false_ne_true, BitVec.getLsbD_and, BitVec.getLsbD_not, BitVec.getLsbD_ofNat, Nat.testBit_two_pow_self]
    simp [h]

/-- The two ports of a lane group, one after the other, when the second step leaves the first port alone. -/
theorem pair_port {f : Nat → State → State} {P : Port → Prop} (hself : ∀ (q : Nat) (t : State), q < t.host.ports.length → P (portOf (f q t) q))
    (hother : ∀ (q r : Nat) (t : State), r ≠ q → portOf (f q t) r = portOf t r) (hcount : ∀ (q : Nat) (t : State), (f q t).host.ports.length = t.host.ports.length)
    (hports : s.host.ports.length = 4) (hg : p.val / 2 = g.val) : P (portOf (f (2 * g + 1) (f (2 * g) s)) p) := by
  have hhalf : p.val = 2 * g.val ∨ p.val = 2 * g.val + 1 := by omega
  obtain heq | heq := hhalf
  · rw [hother _ _ _ (by omega), heq]
    exact hself _ _ (by omega)
  · rw [heq]
    exact hself _ _ ((hcount _ _).symm ▸ (by omega))

/-- The loss of a port's reference clock. -/
def clockLost (p : Nat) (s : State) : State := setPort p (fun q => { q with refclk := false }) (linkLost p 3 s)

theorem refclkLoss_acts (hports : s.host.ports.length = 4) (hg : p.val / 2 = g.val) :
    Ends (.refclkLoss g) s (fun u => (portOf u p).refclk = false ∧ (portOf u p).up = false) := by
  refine ⟨clockLost (2 * g + 1) (clockLost (2 * g) (begin s)), rfl, ?_⟩
  refine pair_port (f := clockLost) (P := fun q => q.refclk = false ∧ q.up = false) (fun q t hq => ?_) (fun q r t hr => ?_) (fun q t => ?_) hports hg
  · have hq' : q < (linkLost q 3 t).host.ports.length := (linkLost_count 3).symm ▸ hq
    rw [clockLost, portOf_setPort_self _ hq']
    exact ⟨rfl, linkLost_down 3 hq⟩
  · exact (portOf_setPort_ne _ hr).trans (linkLost_others 3 hr)
  · exact (setPort_ports_length _ _).trans (linkLost_count 3)

/-- A port whose clock is back. -/
def clockBack (p : Nat) (s : State) : State := trainLink p (setPort p (fun q => { q with refclk := true }) s)

theorem clockBack_ports (p : Nat) (s : State) : (clockBack p s).host = (setPort p (fun q => { q with refclk := true }) s).host := trainLink_host _ _

theorem refclkReturn_acts (hports : s.host.ports.length = 4) (hg : p.val / 2 = g.val) :
    Ends (.refclkReturn g) s (fun u => (portOf u p).refclk = true ∧ u.host.lds = s.host.lds) := by
  refine ⟨clockBack (2 * g + 1) (clockBack (2 * g) (begin s)), rfl, ?_, ?_⟩
  · refine pair_port (f := clockBack) (P := fun q => q.refclk = true) (fun q t hq => ?_) (fun q r t hr => ?_) (fun q t => ?_) hports hg
    · rw [portOf_of_ports (congrArg HostSt.ports (clockBack_ports q t)), portOf_setPort_self _ hq]
    · rw [portOf_of_ports (congrArg HostSt.ports (clockBack_ports q t)), portOf_setPort_ne _ hr]
    · rw [clockBack_ports]
      exact setPort_ports_length _ _
  · rw [clockBack_ports]
    refine (rfl : _ = (clockBack (2 * g) (begin s)).host.lds).trans ?_
    rw [clockBack_ports]
    rfl

/-- The lanes of the group as the options name them. -/
def lanesTaken (g : Fin 2) (s : State) : State :=
  { begin s with host := { s.host with laneCfg := setBit s.host.laneCfg g (((optionArea s.sb.cells).getD 1 0).getLsbD g) } }

/-- PERST# released at a port. -/
def perstReleased (p : Nat) (s : State) : State := setPort p (fun q => { q with perst := false }) s

theorem perstDeassert_runs (g : Fin 2) (s : State) :
    exec (.perstDeassert g) s = ran (trainLink (2 * g + 1) (trainLink (2 * g) (perstReleased (2 * g + 1) (perstReleased (2 * g) (lanesTaken g s))))) := rfl

theorem perstDeassert_acts (hports : s.host.ports.length = 4) (hg : p.val / 2 = g.val) :
    Ends (.perstDeassert g) s (fun u => (portOf u p).perst = false ∧ u.host.laneCfg.getLsbD g = ((optionArea s.sb.cells).getD 1 0).getLsbD g ∧
      u.host.lds = s.host.lds) := by
  have hhost : (trainLink (2 * g + 1) (trainLink (2 * g) (perstReleased (2 * g + 1) (perstReleased (2 * g) (lanesTaken g s))))).host =
      (perstReleased (2 * g + 1) (perstReleased (2 * g) (lanesTaken g s))).host := (trainLink_host _ _).trans (trainLink_host _ _)
  have hport : (portOf (perstReleased (2 * g + 1) (perstReleased (2 * g) (lanesTaken g s))) p).perst = false :=
    pair_port (f := perstReleased) (P := fun q => q.perst = false) (fun q t hq => by rw [perstReleased, portOf_setPort_self _ hq])
      (fun q r t hr => portOf_setPort_ne _ hr) (fun q t => setPort_ports_length _ _) (s := lanesTaken g s) hports hg
  have hlane : (lanesTaken g s).host.laneCfg.getLsbD g = ((optionArea s.sb.cells).getD 1 0).getLsbD g := getLsbD_setBit_self _ _ (show g.val < _ by omega)
  refine ends_of_ran (perstDeassert_runs g s) ⟨?_, ?_, ?_⟩
  · exact (congrArg Port.perst (portOf_of_ports (congrArg HostSt.ports hhost) p)).trans hport
  · exact (congrArg (fun h : HostSt => h.laneCfg.getLsbD g) hhost).trans hlane
  · exact (congrArg HostSt.lds hhost).trans rfl

theorem powerStateChange_acts (hlds : s.host.lds.length = 64) (l : Fin 16) (d : Bool) : Ends (.powerStateChange p l d) s (fun u =>
    (ldOf u (16 * p.val + l.val)).d3hot = d ∧ ∀ j, j ≠ 16 * p.val + l.val → ldOf u j = ldOf s j) := by
  refine ⟨setLd (16 * p.val + l.val) (fun x => { x with d3hot := d }) (begin s), rfl, ?_, fun j hj => ldOf_setLd_ne _ hj⟩
  rw [ldOf_setLd_self _ (show _ < (begin s).host.lds.length from hlds ▸ (by omega))]

theorem surpriseLinkDown_acts (hports : s.host.ports.length = 4) (hup : (portOf s p).up = true) : Ends (.surpriseLinkDown p) s (fun u =>
    Recorded { code := 0x0801, unit := uPort p, p0 := (portOf s p).width.toNat, p1 := (portOf s p).rate.toNat, p2 := 2 } u (fun v =>
      (portOf v p).up = false ∧ (∀ r ∈ v.host.reqs, r.port ≠ p.val) ∧ ∀ l : Fin 16, (ldOf v (16 * p.val + l.val)).credits = 0)) := by
  have hexec : exec (.surpriseLinkDown p) s = ran (portEvent p (portOf s p).width.toNat (portOf s p).rate.toNat 2 (portDown p (begin s))) := by
    refine (rfl : _ = ran (linkLost p 2 (begin s))).trans (congrArg ran (if_neg ?_))
    have hup' : (portOf (begin s) p).up = true := hup
    rw [hup']
    exact Bool.false_ne_true
  have hdown := portDown_downed p.val (begin s)
  refine ends_of_ran hexec ⟨_, rfl, ?_, fun r hr => ?_, fun l => hdown.credits _ (by omega)⟩
  · exact congrArg Port.up (hdown.self (p.isLt.trans_eq hports.symm))
  · rw [hdown.reqs] at hr
    exact bne_iff_ne.1 (List.mem_filter.1 hr).2

theorem aerError_ide (n bit : Nat) (s : State) : (portOf (aerError n bit s) n).ideActive = (portOf s n).ideActive := by
  have hkept : ∀ q : Port → Port, (∀ x, (q x).ideActive = x.ideActive) → (portOf (setPort n q s) n).ideActive = (portOf s n).ideActive := by
    intro q hq
    by_cases hn : n < s.host.ports.length
    · rw [portOf_setPort_self q hn, hq]
    · have hout : (setPort n q s).host.ports.length ≤ n := (setPort_ports_length _ _).le.trans (Nat.le_of_not_lt hn)
      rw [portOf, portOf, List.getD_eq_getElem?_getD, List.getD_eq_getElem?_getD, List.getElem?_eq_none hout, List.getElem?_eq_none (Nat.le_of_not_lt hn)]
  unfold aerError
  dsimp only
  split
  · exact hkept _ (fun _ => rfl)
  · exact hkept _ (fun _ => rfl)

/-- The port whose IDE failed, before its event. -/
def ideFailed (p : Fin 4) (s : State) : State :=
  let s := aerError p aerIdeCheck (setPort p (fun q => { q with ideActive := false }) s)
  if ownState s (uPort p) = .ready then setUnit (uPort p) .degraded 4 false s else s

theorem ideFailed_port (hp : p.val < s.host.ports.length) : (portOf (ideFailed p s) p).ideActive = false := by
  have hset : (portOf (aerError p aerIdeCheck (setPort p (fun q => { q with ideActive := false }) s)) p).ideActive = false := by
    rw [aerError_ide, portOf_setPort_self _ hp]
  unfold ideFailed
  dsimp only
  split
  · exact (congrArg Port.ideActive ((setUnit_logsAlone _ _ _ _ _).port p)).trans hset
  · exact hset

theorem ideIntegrityFailure_acts (hports : s.host.ports.length = 4) (hide : (portOf s p).ideActive = true) : Ends (.ideIntegrityFailure p) s (fun u =>
    Recorded { code := 0x0801, unit := uPort p, p0 := (portOf s p).width.toNat, p1 := (portOf s p).rate.toNat, p2 := 4 } u (fun v => (portOf v p).ideActive = false)) := by
  have hexec : exec (.ideIntegrityFailure p) s = ran (portEvent p (portOf s p).width.toNat (portOf s p).rate.toNat 4 (ideFailed p (begin s))) := by
    refine (rfl : _ = execIdeIntegrityFailure p s).trans (if_neg ?_)
    have hide' : (portOf (begin s) p).ideActive = true := hide
    rw [hide']
    exact Bool.false_ne_true
  exact ends_of_ran hexec ⟨_, rfl, ideFailed_port (s := begin s) (p.isLt.trans_eq hports.symm)⟩

end

end Sys2Proof.Machine
end

section
/-! SUPPORT. A link that comes up, Global Persistent Flush and decoders (R26, R45, R55, R56), with O30 assembled from it. -/

namespace Sys2Proof.Machine

section
variable {s : State} {p : Fin 4}

/-- What a link needs to come up. -/
structure LinkCan (s : State) (p : Fin 4) (w r : BitVec 8) : Prop where
  present : portPresent s p = true
  perst : (portOf s p).perst = false
  clock : (portOf s p).refclk = true
  domain : domainOn s 2 = true
  serves : inService (ownState s (uPort p)) = true ∨ (readmitJob (begin s) (uPort p)).isSome = true
  atLeast : 1 ≤ w.toNat
  atMost : w.toNat ≤ portWidth s p
  rate : r.toNat ∈ [8, 16, 32, 64]

/-- The same, as the row asks it. -/
def linkPermit (s : State) (p : Fin 4) (w r : BitVec 8) : Bool :=
  let q := portOf s p
  portPresent s p && !q.perst && q.refclk && domainOn s 2 && (inService (ownState s (uPort p)) || (readmitJob s (uPort p)).isSome) && trains s p w r

theorem linkPermit_iff (w r : BitVec 8) : linkPermit (begin s) p w r = true ↔ LinkCan s p w r := by
  have hunfold : linkPermit (begin s) p w r = (portPresent s p && !(portOf s p).perst && (portOf s p).refclk && domainOn s 2 &&
    (inService (ownState s (uPort p)) || (readmitJob (begin s) (uPort p)).isSome) && (Nat.ble 1 w.toNat && Nat.ble w.toNat (portWidth s p) && [8, 16, 32, 64].contains r.toNat)) := rfl
  rw [hunfold]
  simp only [Bool.and_eq_true, Bool.or_eq_true, Bool.not_eq_true', Nat.ble_eq, List.contains_iff_mem]
  constructor
  · rintro ⟨⟨⟨⟨⟨h1, h2⟩, h3⟩, h4⟩, h5⟩, ⟨h6, h7⟩, h8⟩
    exact ⟨h1, h2, h3, h4, h5, h6, h7, h8⟩
  · rintro ⟨h1, h2, h3, h4, h5, h6, h7, h8⟩
    exact ⟨⟨⟨⟨⟨h1, h2⟩, h3⟩, h4⟩, h5⟩, ⟨h6, h7⟩, h8⟩

/-- The port with its link up. -/
def linked (p : Fin 4) (w r : BitVec 8) (f m : Bool) (s : State) : State :=
  setPort p (fun q => { q with up := true, width := w, rate := r, flit256 := f, mld := m, idleLanes := false }) s

/-- What follows a link that came up: its unit's state, the job that waited for it, its events. -/
def linkFollows (p : Fin 4) (w r : BitVec 8) (f : Bool) (back : Option (BitVec 16)) (s : State) : State :=
  let full := w.toNat = portWidth s p ∧ r = 64
  let st : UState := if full then .ready else .degraded
  let s := match back with
    | some id => endJob id 0 (setUnit (uPort p) st 1 false s)
    | none => portState p st s
  let s := if full then s else portEvent p w.toNat r.toNat 0 s
  if f then s else portEvent p w.toNat r.toNat 1 s

theorem linkFollows_logsAlone (w r : BitVec 8) (f : Bool) (back : Option (BitVec 16)) (s : State) : LogsAlone s (linkFollows p w r f back s) := by
  have hite : ∀ {c : Prop} [Decidable c] (t u : State), LogsAlone s t → LogsAlone s u → LogsAlone s (if c then t else u) := by
    intro c _ t u ht hu
    split
    · exact ht
    · exact hu
  unfold linkFollows
  extract_lets full st t1 t2
  have h1 : LogsAlone s t1 := by
    cases back with
    | some id => exact (setUnit_logsAlone _ _ _ _ s).trans (endJob_logsAlone _ _ _)
    | none => exact portState_logsAlone _ _ s
  have h2 : LogsAlone s t2 := hite _ _ h1 (h1.trans (event_logsAlone _ _))
  exact hite _ _ h2 (h2.trans (event_logsAlone _ _))

theorem linkUp_runs (w r : BitVec 8) (f m : Bool) : exec (.linkUp p w r f m) s =
    if linkPermit (begin s) p w r then ran (linkFollows p w r f (readmitJob (begin s) (uPort p)) (linked p w r f m (begin s))) else ran (begin s) := by
  refine (rfl : _ = if !linkPermit (begin s) p w r then ran (begin s) else ran (linkFollows p w r f (readmitJob (begin s) (uPort p)) (linked p w r f m (begin s)))).trans ?_
  cases linkPermit (begin s) p w r <;> rfl

theorem linkUp_comesUp (hports : s.host.ports.length = 4) {w r : BitVec 8} (f m : Bool) (hcan : LinkCan s p w r) : Ends (.linkUp p w r f m) s (fun u =>
    (portOf u p).up = true ∧ (portOf u p).width = w ∧ (portOf u p).rate = r ∧ (portOf u p).flit256 = f ∧ (portOf u p).mld = m) := by
  refine ends_of_ran ((linkUp_runs w r f m).trans (if_pos ((linkPermit_iff w r).2 hcan))) ?_
  have hset := portOf_setPort_self (s := begin s) (fun q => { q with up := true, width := w, rate := r, flit256 := f, mld := m, idleLanes := false }) (p.isLt.trans_eq hports.symm)
  rw [(linkFollows_logsAlone w r f _ (linked p w r f m (begin s))).port, linked, hset]
  exact ⟨rfl, rfl, rfl, rfl, rfl⟩

theorem linkUp_nothing {w r : BitVec 8} (f m : Bool) (hcan : ¬ LinkCan s p w r) : Ends (.linkUp p w r f m) s (fun u => u = begin s) :=
  ends_of_ran ((linkUp_runs w r f m).trans (if_neg (fun h => hcan ((linkPermit_iff w r).1 h)))) rfl

theorem gpfPhase1_acts (hup : (portOf s p).up = true) : Ends (.gpfPhase1 p) s (fun u => u = { begin s with out := [.gpfAck p 1] }) :=
  ends_of_ran ((rfl : _ = execGpfPhase1 p s).trans (if_pos hup)) rfl

theorem gpfPhase2_acts (hup : (portOf s p).up = true) : Ends (.gpfPhase2 p) s (fun u => u = { begin s with
    host := { s.host with gpf := s.host.gpf ++ [(p.val, (s.host.reqs.filter (fun r => r.write)).map Req.id)] } }) :=
  ends_of_ran ((rfl : _ = execGpfPhase2 p s).trans (if_pos hup)) rfl

/-- A decoder put in place. -/
def withDecoder (dec : Fin 4) (x : Decoder) (d : Ld) : Ld := { d with decoders := lmod d.decoders dec.val (fun _ => x) }

theorem withDecoder_get {dec : Fin 4} (x : Decoder) {d : Ld} (h : d.decoders.length = 4) : (withDecoder dec x d).decoders[dec.val]? = some x := by
  refine (getElem?_lmod d.decoders dec.val dec.val (fun _ => x)).trans ?_
  rw [if_pos rfl, List.getElem?_eq_getElem (dec.isLt.trans_eq h.symm)]
  rfl

variable {l : Fin 16} {dec : Fin 4} {base size : BitVec 64} {ways : BitVec 8} {gran : BitVec 16} {pos : BitVec 4} {skip : BitVec 46}

/-- The decoder before the one committed, and the address where its own part starts. -/
def decoderStart (s : State) (i : Nat) (dec : Fin 4) : Nat :=
  let prev := if dec.val = 0 then {} else (ldOf s i).decoders.getD (dec.val - 1) ({} : Decoder)
  if prev.committed then prev.dpaBase + prev.size / max prev.ways 1 else 0

theorem decoderStart_first (s : State) (i : Nat) (h : dec.val = 0) : decoderStart s i dec = 0 := by
  unfold decoderStart
  rw [if_pos h]
  rfl

theorem hdmDecoderCommit_runs (hld : ldExists s (16 * p.val + l.val) = true) {ok : Bool} (hok : (decoderOk ways.toNat gran.toNat && (portOf s p).flit256) = ok) :
    exec (.hdmDecoderCommit p l dec base size ways gran pos skip) s = ran (setLd (16 * p.val + l.val) (withDecoder dec (if ok then
        { base := base.toNat, size := size.toNat, ways := ways.toNat, gran := gran.toNat, pos := pos.toNat
          dpaBase := decoderStart s (16 * p.val + l.val) dec + skip.toNat, committed := true, error := false }
      else { ((ldOf s (16 * p.val + l.val)).decoders.getD dec.val ({} : Decoder)) with committed := false, error := true })) (begin s)) := by
  subst hok
  refine (rfl : _ = execHdmDecoderCommit p l dec base size ways gran pos skip s).trans (if_neg ?_)
  have hld' : ldExists (begin s) (ldIx p l) = true := hld
  rw [hld']
  exact Bool.false_ne_true

theorem lt_lds (hlds : s.host.lds.length = 64) : 16 * p.val + l.val < (begin s).host.lds.length := by
  have h : (begin s).host.lds.length = 64 := hlds
  omega

theorem decoderCommit_takes (hlds : s.host.lds.length = 64) (hld : ldExists s (16 * p.val + l.val) = true) (hok : decoderOk ways.toNat gran.toNat = true)
    (hflit : (portOf s p).flit256 = true) (hlen : (ldOf s (16 * p.val + l.val)).decoders.length = 4) :
    Ends (.hdmDecoderCommit p l dec base size ways gran pos skip) s (fun u => ∃ x, (ldOf u (16 * p.val + l.val)).decoders[dec.val]? = some x ∧
      x.committed = true ∧ x.error = false ∧ x.base = base.toNat ∧ x.size = size.toNat ∧ x.ways = ways.toNat ∧ x.gran = gran.toNat ∧
      x.pos = pos.toNat ∧ (dec.val = 0 → x.dpaBase = skip.toNat) ∧ (ldOf u (16 * p.val + l.val)).ranges = (ldOf s (16 * p.val + l.val)).ranges) := by
  refine ends_of_ran (hdmDecoderCommit_runs (ok := true) hld (by rw [hok, hflit]; rfl))
    ⟨{ base := base.toNat, size := size.toNat, ways := ways.toNat, gran := gran.toNat, pos := pos.toNat
       dpaBase := decoderStart s (16 * p.val + l.val) dec + skip.toNat, committed := true, error := false }, ?_, rfl, rfl, rfl, rfl, rfl, rfl, rfl, fun h0 => ?_, setLd_ranges (f := withDecoder dec _) (fun _ => rfl) _ (begin s)⟩
  · rw [ldOf_setLd_self _ (lt_lds hlds)]
    exact withDecoder_get _ hlen
  · rw [decoderStart_first s _ h0, Nat.zero_add]

theorem decoderCommit_refuses (hlds : s.host.lds.length = 64) (hld : ldExists s (16 * p.val + l.val) = true) (hok : decoderOk ways.toNat gran.toNat = false)
    (hlen : (ldOf s (16 * p.val + l.val)).decoders.length = 4) :
    Ends (.hdmDecoderCommit p l dec base size ways gran pos skip) s (fun u => ∃ x, (ldOf u (16 * p.val + l.val)).decoders[dec.val]? = some x ∧
      x.committed = false ∧ x.error = true) := by
  refine ends_of_ran (hdmDecoderCommit_runs (ok := false) hld (by rw [hok]; rfl))
    ⟨{ ((ldOf s (16 * p.val + l.val)).decoders.getD dec.val ({} : Decoder)) with committed := false, error := true }, ?_, rfl, rfl⟩
  rw [ldOf_setLd_self _ (lt_lds hlds)]
  exact withDecoder_get _ hlen

end

/-- Settles O30: by rows; what a unit's state, a job and the events that follow do to the hosts is confined to the LDs' logs. -/
theorem linkAndPortRows : Obligations.LinkAndPortRows := by
  unfold Obligations.LinkAndPortRows
  intro s hports hlds
  refine ⟨fun p g hg => ?_, fun p g hg => perstDeassert_acts hports hg,
    fun p w r f m => ⟨fun hcan => ?_, fun hcan => linkUp_nothing f m (fun h => hcan ⟨h.present, h.perst, h.clock, h.domain, h.serves, h.atLeast, h.atMost, h.rate⟩)⟩,
    fun p hup => surpriseLinkDown_acts hports hup, fun p g hg => refclkLoss_acts hports hg, fun p g hg => refclkReturn_acts hports hg,
    fun p l d => powerStateChange_acts hlds l d, fun p hide => ideIntegrityFailure_acts hports hide, fun p hup => gpfPhase1_acts hup, fun p hup => gpfPhase2_acts hup,
    fun p l dec base size ways gran pos skip hld hok hflit hlen => decoderCommit_takes hlds hld hok hflit hlen,
    fun p l dec base size ways gran pos skip hld hok hlen => decoderCommit_refuses hlds hld hok hlen⟩
  · have hperst := perst_group (begin s) hports hlds hg
    obtain ⟨hup, hheld, hkeys⟩ := hperst.port
    refine ends_of_ran (perstAssert_runs g s) ⟨hup, hheld, hkeys, hperst.reqs, fun l => ⟨hperst.lds l.val l.isLt, ?_⟩⟩
    exact (perstOne_ranges _ _ _).trans (perstOne_ranges _ _ _)
  · obtain ⟨h1, h2, h3, h4, h5, h6, h7, h8⟩ := hcan
    exact linkUp_comesUp hports f m ⟨h1, h2, h3, h4, h5, h6, h7, h8⟩

end Sys2Proof.Machine
end

section
/-! SUPPORT. Reads of the hosts: held back, unbacked, and answered from the Near Cache (R46, R65, R66, R195, R580), with O26 assembled from it. -/

namespace Sys2Proof.Machine

section
variable {s t : State} {p : Fin 4} {l : Fin 16} {hpa : BitVec 64} {tag : BitVec 16}

theorem takesMem_begin (h : takesMem s p l = true) : (!takesMem (begin s) p l) = false := (congrArg (!·) h : _)

theorem memRead_held (htakes : takesMem s p l = true) (hheld : readHeld p (16 * p.val + l.val) (begin s) = (true, t)) : exec (.memRead p l hpa tag) s = ran t := by
  have hheld' : readHeld p (ldIx p l) (begin s) = (true, t) := hheld
  refine (rfl : _ = execMemRead p l hpa tag s).trans ?_
  unfold execMemRead
  dsimp only
  rw [takesMem_begin htakes, if_neg Bool.false_ne_true, hheld']
  rfl

/-- A read no draw holds back, by what backs its address. -/
theorem memRead_let (htakes : takesMem s p l = true) (hheld : readHeld p (16 * p.val + l.val) (begin s) = (false, t)) (harmed : isArmed t 0x0019 (uPort p) = false) :
    exec (.memRead p l hpa tag) s = (match backing t (16 * p.val + l.val) hpa.toNat with
      | none => ran (unbackedRead p l hpa.toNat tag t)
      | some lln => ran (mediaNext (hostRead p l tag lln t))) := by
  have hheld' : readHeld p (ldIx p l) (begin s) = (false, t) := hheld
  refine (rfl : _ = execMemRead p l hpa tag s).trans ?_
  unfold execMemRead
  dsimp only
  rw [takesMem_begin htakes, if_neg Bool.false_ne_true, hheld']
  dsimp only
  rw [if_neg Bool.false_ne_true, harmed, if_neg Bool.false_ne_true]
  rfl

/-- Holding a read back takes at most a draw. -/
theorem readHeld_draws (p i : Nat) (s : State) : ∃ n, (readHeld p i s).2 = { s with free := n } := by
  unfold readHeld
  have hbrake : ∃ n, (brakeHolds s).2 = { s with free := n } := by
    unfold brakeHolds
    split
    · exact ⟨_, rfl⟩
    · exact ⟨s.free, rfl⟩
  obtain ⟨n, hn⟩ := hbrake
  dsimp only
  rw [hn]
  split
  · exact ⟨n, rfl⟩
  · split
    · exact ⟨_, rfl⟩
    · exact ⟨n, rfl⟩

theorem readHeld_none (hbrake : s.therm.throttle ≠ .brake) {i : Nat} (hover : qosOver s p i = false) (hcont : qosContended s p i = false) :
    readHeld p i (begin s) = (false, begin s) := by
  have hbrakes : brakeHolds (begin s) = (false, begin s) := if_neg (fun h => hbrake h.1)
  have hover' : qosOver (begin s) p i = false := hover
  have hcont' : qosContended (begin s) p i = false := hcont
  unfold readHeld
  rw [hbrakes]
  dsimp only
  rw [if_neg Bool.false_ne_true, hover', hcont']
  rfl

/-! ### The answer of a read -/

/-- A read answered with a line whose key is held. -/
structure AnsweredWith (x u : State) (o : BitVec 2 → Out) (id : Nat) : Prop where
  out : ∃ dl, u.out = x.out ++ [o dl]
  reqs : u.host.reqs = x.host.reqs.filter (fun r => r.id != id)
  cache : u.cache = x.cache

/-- The state in which the read `q` is answered. -/
def answered (id : Nat) (q : Req) (s : State) : State :=
  let lat := BitVec.ofNat 16 (min ((s.time.ftime.toNat - q.since.toNat) / 10) 0xFFFF)
  updLoad { s with
    host := { s.host with reqs := s.host.reqs.filter (fun r => r.id != id) }
    rstat := { s.rstat with maxLat := if s.rstat.maxLat.toNat < lat.toNat then lat else s.rstat.maxLat } }

theorem answerRead_sends {x : State} {q : Req} {id : Nat} {v : Line} (hfind : x.host.reqs.find? (fun r => r.id == id) = some q) (hv : v ≠ poisonLine)
    (hkey : (ldOf x q.ld).keyLost = false) : AnsweredWith x (answerRead id (some v) x) (.memRead q.port q.ld q.tag (decLine x q.lln v) false) id := by
  have hgood : (some v).filter (fun l => l != poisonLine && !((answered id q x).host.lds.getD q.ld {}).keyLost) = some v := by
    have hkey' : ((answered id q x).host.lds.getD q.ld {}).keyLost = false := hkey
    rw [Option.filter_some, hkey', bne_iff_ne.2 hv]
    rfl
  have hanswer : answerRead id (some v) x = (match (some v).filter (fun l => l != poisonLine && !((answered id q x).host.lds.getD q.ld {}).keyLost) with
      | some l => send (answered id q x) (.memRead q.port q.ld q.tag (decLine (answered id q x) q.lln l) false (devLoad (answered id q x)))
      | none =>
        let (d, s) := drawBits 512 (answered id q x)
        send s (.memRead q.port q.ld q.tag d true (devLoad s))) := by
    unfold answerRead
    rw [hfind]
    rfl
  rw [hanswer, hgood]
  exact ⟨⟨devLoad (answered id q x), rfl⟩, rfl, rfl⟩

theorem nearHit_fields (lln : Nat) (s : State) : (nearHit lln s).host = s.host ∧ (nearHit lln s).out = s.out ∧
    (nearHit lln s).cache.near = s.cache.near ∧ (nearHit lln s).cache.ncHit = satInc s.cache.ncHit := by
  unfold nearHit prefetchHit
  split <;> exact ⟨rfl, rfl, rfl, rfl⟩

/-- The Near Cache's answer of a line whole in both of its copies. -/
theorem ncLook_whole {lln k m : Nat} (hways : ncWays s lln = [k, m]) (hk : wayGood (ncWay s k) = true) (hm : wayGood (ncWay s m) = true) (hst : (ncWay s k).st ≠ .partial_) :
    ncLook lln s = (.whole (ncWay s k).data, s) := by
  have htwin : ncTwin s k m = (some (ncWay s k), s) := by
    unfold ncTwin
    dsimp only
    rw [hk, hm]
    rfl
  unfold ncLook
  rw [hways]
  dsimp only
  rw [htwin]
  exact if_neg hst

theorem hostLook_near {id lln k m : Nat} (hlost : lln ∉ s.cache.lost) (hheld : heldValue s lln = none) (hways : ncWays s lln = [k, m])
    (hk : wayGood (ncWay s k) = true) (hm : wayGood (ncWay s m) = true) (hst : (ncWay s k).st ≠ .partial_) :
    hostLook id lln s = answerRead id (some (ncWay s k).data) (nearHit lln s) := by
  have hbad : twinBad s lln = false := by
    unfold twinBad
    rw [hways]
    dsimp only
    rw [hk]
    rfl
  unfold hostLook nearLook
  rw [hheld]
  dsimp only
  rw [List.contains_eq_mem, decide_eq_false hlost, if_neg Bool.false_ne_true, ncLook_whole hways hk hm hst]
  dsimp only
  rw [hbad]
  rfl

theorem find_fresh {r : Req} {reqs : List Req} (h : ∀ q ∈ reqs, q.id < r.id) : (reqs ++ [r]).find? (fun q => q.id == r.id) = some r := by
  rw [List.find?_append, List.find?_eq_none.2 (fun q hq he => Nat.ne_of_lt (h q hq) (beq_iff_eq.1 he)), Option.none_or]
  exact List.find?_cons_of_pos (beq_self_eq_true r.id)

theorem filter_fresh {r : Req} {reqs : List Req} (h : ∀ q ∈ reqs, q.id < r.id) : (reqs ++ [r]).filter (fun q => q.id != r.id) = reqs := by
  rw [List.filter_append, List.filter_eq_self.2 (fun q hq => bne_iff_ne.2 (Nat.ne_of_lt (h q hq))), List.filter_cons_of_neg (by simp), List.filter_nil, List.append_nil]

/-- The read request as it enters. -/
def newReq (p : Fin 4) (l : Fin 16) (tag : BitVec 16) (lln : Nat) (s : State) : Req :=
  ⟨s.host.nextReq, p, 16 * p.val + l.val, tag, false, lln, .media, false, s.time.ftime⟩

theorem hostRead_near {lln k m : Nat} (hlost : lln ∉ s.cache.lost) (hheld : heldValue s lln = none) (hways : ncWays s lln = [k, m])
    (hk : wayGood (ncWay s k) = true) (hm : wayGood (ncWay s m) = true) (hst : (ncWay s k).st ≠ .partial_) (hdata : (ncWay s k).data ≠ poisonLine)
    (hkey : (ldOf s (16 * p.val + l.val)).keyLost = false) (hids : ∀ r ∈ s.host.reqs, r.id < s.host.nextReq) :
    (∃ dl, (hostRead p l tag lln s).out = s.out ++ [.memRead p (16 * p.val + l.val) tag (decLine s lln (ncWay s k).data) false dl]) ∧
      (hostRead p l tag lln s).host.reqs = s.host.reqs ∧ (hostRead p l tag lln s).cache.ncHit = satInc s.cache.ncHit ∧ (hostRead p l tag lln s).cache.near = s.cache.near := by
  have hread : hostRead p l tag lln s = answerRead s.host.nextReq (some (ncWay s k).data) (nearHit lln (addReq (newReq p l tag lln s) s)) :=
    hostLook_near (s := addReq (newReq p l tag lln s) s) hlost hheld hways hk hm hst
  obtain ⟨hhost, hout, hnear, hhit⟩ := nearHit_fields lln (addReq (newReq p l tag lln s) s)
  rw [hread]
  generalize nearHit lln (addReq (newReq p l tag lln s) s) = x at hhost hout hnear hhit
  have hreqs : x.host.reqs = s.host.reqs ++ [newReq p l tag lln s] := by rw [hhost]; rfl
  have hlds : x.host.lds = s.host.lds := by rw [hhost]; rfl
  have hdec : decLine x lln (ncWay s k).data = decLine s lln (ncWay s k).data := by
    have howner : ownerOf x (lfnOf lln) = ownerOf s (lfnOf lln) := by
      unfold ownerOf
      rw [hlds]
    unfold decLine keyOf
    rw [howner, hlds]
  have hkey' : (ldOf x (16 * p.val + l.val)).keyLost = false := by
    rw [ldOf, hlds]
    exact hkey
  have hfind : x.host.reqs.find? (fun r => r.id == s.host.nextReq) = some (newReq p l tag lln s) := hreqs ▸ find_fresh (r := newReq p l tag lln s) hids
  obtain ⟨⟨dl, hdl⟩, hleft, hcache⟩ := answerRead_sends (v := (ncWay s k).data) hfind hdata hkey'
  refine ⟨⟨dl, ?_⟩, ?_, ?_, ?_⟩
  · rw [hdl, hout]
    exact congrArg (fun d => s.out ++ [Out.memRead p (16 * p.val + l.val) tag d false dl]) hdec
  · rw [hleft, hreqs]
    exact filter_fresh (r := newReq p l tag lln s) hids
  · rw [hcache, hhit]
    rfl
  · rw [hcache, hnear]
    rfl

end

/-- Settles O26: by what holds a read back, then by what backs its address. -/
theorem memReadAnswersFromNearCache : Obligations.MemReadAnswersFromNearCache := by
  unfold Obligations.MemReadAnswersFromNearCache
  intro s p l hpa tag htakes
  refine ⟨fun t hheld => ends_of_ran (memRead_held htakes hheld) rfl, fun hbrake hover hcont => readHeld_none hbrake hover hcont, fun t hheld harmed hback => ?_,
    fun t lln k m hheld harmed hback hlost hvalue hways hk hm hst hdata hkey hids => ?_⟩
  · obtain ⟨n, hn⟩ := readHeld_draws p (16 * p.val + l.val) (begin s)
    obtain rfl : t = { begin s with free := n } := (congrArg Prod.snd hheld).symm.trans hn
    have hrun := memRead_let (hpa := hpa) (tag := tag) htakes hheld harmed
    have hnone : backing { begin s with free := n } (16 * p.val + l.val) hpa.toNat = none := hback
    rw [hnone] at hrun
    exact ends_of_ran hrun ⟨_, _, rfl⟩
  · obtain ⟨n, hn⟩ := readHeld_draws p (16 * p.val + l.val) (begin s)
    obtain rfl : t = { begin s with free := n } := (congrArg Prod.snd hheld).symm.trans hn
    have hrun := memRead_let (hpa := hpa) (tag := tag) htakes hheld harmed
    have hsome : backing { begin s with free := n } (16 * p.val + l.val) hpa.toNat = some lln := hback
    rw [hsome] at hrun
    obtain ⟨⟨dl, hout⟩, hreqs, hhit, hnear⟩ := hostRead_near (s := { begin s with free := n }) (p := p) (l := l) (tag := tag) hlost hvalue hways hk hm hst hdata hkey hids
    exact ⟨hostRead p l tag lln { begin s with free := n }, hrun, dl, hout, hreqs, hhit, hnear⟩

end Sys2Proof.Machine
end

section
/-! SUPPORT. What the work on frames, lines and folds leaves alone beside the sections that `keepM` names: the job numbers, the ports, what the LDs
hold, the stacks and banks, write-through, the span, FTIME, the stage and the start's phase. -/

namespace Sys2Proof.Machine

/-- The LD without what the work on lines writes: its logs, its poison list, its key and its exposed records. -/
def ldCore (d : Ld) : Ld := { d with
  logs := [], logOverflow := [], nextHandle := 0, poison := [], poisonOverflow := false, unlisted := [], exposedOut := [], exposedRec := [] }

def keepW (s : State) := (s.time.ftime, s.tt.stage, s.unit.nextJob, s.host.memoryActive, s.host.ports, s.host.lds.map ldCore, s.media.stack, s.media.banks, s.write.through, s.span.desc, s.start.phase)

section
variable {s t u : State}

theorem keepW_mk {x_out x_free x_id x_time x_tt x_unit x_host x_cache x_rstat x_write x_xlat x_mm x_lp x_media x_span x_queue x_wb x_evt x_sb x_power x_therm x_start x_fw x_sec}
    (htime : x_time.ftime = s.time.ftime) (htt : x_tt.stage = s.tt.stage) (hunit : x_unit.nextJob = s.unit.nextJob)
    (hactive : x_host.memoryActive = s.host.memoryActive) (hports : x_host.ports = s.host.ports) (hlds : x_host.lds.map ldCore = s.host.lds.map ldCore)
    (hstack : x_media.stack = s.media.stack) (hbanks : x_media.banks = s.media.banks) (hthrough : x_write.through = s.write.through) (hdesc : x_span.desc = s.span.desc)
    (hphase : x_start.phase = s.start.phase) :
    keepW (State.mk s.pending x_out x_free s.variant x_id x_time x_tt x_unit x_host x_cache x_rstat x_write x_xlat x_mm x_lp x_media x_span x_queue x_wb x_evt x_sb x_power x_therm x_start x_fw x_sec) = keepW s := by
  unfold keepW
  rw [← htime, ← htt, ← hunit, ← hactive, ← hports, ← hlds, ← hstack, ← hbanks, ← hthrough, ← hdesc, ← hphase]

theorem keepW_foldl {α : Type} (g : State → α → State) (l : List α) (s : State) (h : ∀ s a, keepW (g s a) = keepW s) : keepW (l.foldl g s) = keepW s := by
  induction l generalizing s with
  | nil => rfl
  | cons a l ih => exact (ih _).trans (h s a)

theorem keepW_times (n : Nat) (g : State → State) (s : State) (h : ∀ s, keepW (g s) = keepW s) : keepW (times n g s) = keepW s := by
  induction n generalizing s with
  | zero => rfl
  | succ n ih => exact (ih _).trans (h s)

theorem keepW_foldl2 {α β : Type} (g : β × State → α → β × State) (l : List α) (p : β × State) (h : ∀ p a, keepW (g p a).2 = keepW p.2) :
    keepW (l.foldl g p).2 = keepW p.2 := by
  induction l generalizing p with
  | nil => rfl
  | cons a l ih => exact (ih _).trans (h p a)

theorem keepW_ite {c : Prop} [Decidable c] (a b : State) : keepW (if c then a else b) = if c then keepW a else keepW b := apply_ite keepW c a b

theorem keepW_ite_eq {c : Prop} [Decidable c] {a b s : State} (ha : keepW a = keepW s) (hb : keepW b = keepW s) : keepW (if c then a else b) = keepW s := by
  split <;> assumption

/-- A result whose value changes and whose state does not. -/
theorem keepW_pair {α β : Type} (f : α → β) (r : α × State) : keepW (let r := r; (f r.1, r.2)).2 = keepW r.2 := rfl

theorem ldCore_logs {c d : Ld} (h : LogsOnly c d) : ldCore d = ldCore c := by
  unfold LogsOnly at h
  rw [← h]
  rfl

theorem map_ldCore {l m : List Ld} (hlen : m.length = l.length) (h : ∀ i, ldCore (m.getD i {}) = ldCore (l.getD i {})) : m.map ldCore = l.map ldCore := by
  refine List.ext_getElem (by simp only [List.length_map, hlen]) (fun i hi hj => ?_)
  simp only [List.length_map] at hi hj
  have hget := h i
  rw [List.getD_eq_getElem?_getD, List.getD_eq_getElem?_getD, List.getElem?_eq_getElem hi, List.getElem?_eq_getElem hj] at hget
  rw [List.getElem_map, List.getElem_map]
  exact hget

theorem map_ldCore_map {l : List Ld} (f : Ld → Ld) (h : ∀ d, ldCore (f d) = ldCore d) : (l.map f).map ldCore = l.map ldCore := by
  rw [List.map_map]
  exact List.map_congr_left (fun d _ => h d)

theorem map_ldCore_mapIdx {l : List Ld} (f : Nat → Ld → Ld) (h : ∀ i d, ldCore (f i d) = ldCore d) : (l.mapIdx f).map ldCore = l.map ldCore := by
  refine List.ext_getElem (by simp only [List.length_map, List.length_mapIdx]) (fun i hi hj => ?_)
  rw [List.getElem_map, List.getElem_map, List.getElem_mapIdx, h]

theorem map_ldCore_lmod {l : List Ld} (n : Nat) (f : Ld → Ld) (h : ∀ d, ldCore (f d) = ldCore d) : (lmod l n f).map ldCore = l.map ldCore := by
  induction l generalizing n with
  | nil => cases n <;> rfl
  | cons d l ih =>
    cases n with
    | zero => exact congrArg (· :: l.map ldCore) (h d)
    | succ n => exact congrArg (ldCore d :: ·) (ih n)

theorem Heralds.keepW (h : Heralds s u) : keepW u = keepW s := by
  have hE := h.keep
  have hlds : u.host.lds.map ldCore = s.host.lds.map ldCore := map_ldCore h.count (fun i => ldCore_logs (h.lds i))
  unfold Machine.keepW
  rw [hlds, time_of_keepE hE, tt_of_keepE hE, unit_of_keepE hE, media_of_keepE hE, write_of_keepE hE, span_of_keepE hE, start_of_keepE hE, h.hostKept.memoryActive, (h.logsAlone).ports]

end

theorem event_keepW (e : Ev) (s : State) : keepW (event e s) = keepW s := (event_heralds e s).keepW
theorem sbEnqueue_keepW (s : State) (r : SbReq) : keepW (sbEnqueue s r) = keepW s := ((Heralds.refl s).sbEnqueue r).keepW
theorem fire_keepW (p u : Nat) (s : State) : keepW (fire p u s) = keepW s := ((Heralds.refl s).fire p u).keepW
theorem setEvt_keepW (b : Nat) (s : State) : keepW (setEvt b s) = keepW s := ((Heralds.refl s).setEvt b).keepW
theorem signal_keepW (v : BitVec 5) (s : State) : keepW (signal v s) = keepW s := ((Heralds.refl s).signal v).keepW
theorem wbFlush_keepW (s : State) : keepW (wbFlush s) = keepW s := (Heralds.refl s).wbFlush.keepW
theorem saveUnit_keepW (s : State) (u : Nat) : keepW (saveUnit s u) = keepW s := (saveUnit_heralds u s).keepW
theorem send_keepW (s : State) (o : Out) : keepW (send s o) = keepW s := rfl

/-! ### The operations on the caches, the Near Cache and the logs -/

theorem hbmWrite_keepW (u : HbmUnit) (s : State) : keepW (hbmWrite u s) = keepW s := by
  unfold hbmWrite
  repeat' first | simp only [keepW_mk, keepW_ite, ite_self, fire_keepW] | split

theorem drawBits_keepW (w : Nat) (s : State) : keepW (drawBits w s).2 = keepW s := by
  unfold drawBits
  simp only [keepW_mk]

theorem startRemap_keepW (p : Nat × Nat) (s : State) : keepW (startRemap p s) = keepW s := by
  unfold startRemap
  simp only [keepW_mk, keepW_ite, ite_self]

theorem ceError_keepW (cls : Nat) (ix : Nat) (s : State) : keepW (ceError cls ix s) = keepW s := by
  unfold ceError
  simp only [keepW_mk, keepW_ite, ite_self, event_keepW]

theorem hbmCorrect_keepW (p : Nat × Nat) (s : State) : keepW (hbmCorrect p s) = keepW s := by
  unfold hbmCorrect
  simp only [keepW_mk, keepW_ite, ite_self, startRemap_keepW, ceError_keepW]

theorem hbmMeet.hbmErrMeet_keepW (u : HbmUnit) (s : State) : keepW (hbmMeet.hbmErrMeet u s).2 = keepW s := by
  unfold hbmMeet.hbmErrMeet
  repeat' first | simp only [keepW_mk, keepW_ite, apply_ite Prod.snd, ite_self, hbmWrite_keepW, drawBits_keepW, startRemap_keepW, hbmCorrect_keepW, event_keepW] | split

theorem hbmMeet_keepW (u : HbmUnit) (s : State) : keepW (hbmMeet u s).2 = keepW s := by
  unfold hbmMeet
  repeat' first | simp only [keepW_ite, apply_ite Prod.snd, ite_self, hbmMeet.hbmErrMeet_keepW, event_keepW] | split

theorem tagTouch_keepW (tag : Nat) (s : State) : keepW (tagTouch tag s) = keepW s := by
  unfold tagTouch
  repeat' first | simp only [keepW_mk, keepW_ite, ite_self, fire_keepW, ceError_keepW] | split

theorem pageTagTouch_keepW (page : Nat) (s : State) : keepW (pageTagTouch page s) = keepW s := by
  unfold pageTagTouch
  simp only [tagTouch_keepW]

theorem pageDrop_keepW (k : Nat) (s : State) : keepW (pageDrop k s) = keepW s := by
  unfold pageDrop
  simp only [keepW_mk, keepW_ite, ite_self, hbmWrite_keepW, pageTagTouch_keepW]

theorem pageClear_keepW (lln : Nat) (s : State) : keepW (pageClear lln s) = keepW s := by
  unfold pageClear
  repeat' first | simp only [keepW_mk, hbmWrite_keepW, pageTagTouch_keepW] | split

theorem pageRead_keepW (lln : Nat) (s : State) : keepW (pageRead lln s).2 = keepW s := by
  unfold pageRead
  repeat' first | simp only [keepW_ite, apply_ite Prod.snd, ite_self, hbmMeet_keepW, pageDrop_keepW, pageClear_keepW] | split

theorem pageFill_keepW (lln : Nat) (data : Line) (s : State) : keepW (pageFill lln data s) = keepW s := by
  unfold pageFill
  repeat' first | simp only [keepW_mk, keepW_ite, ite_self, pageDrop_keepW, hbmWrite_keepW, pageTagTouch_keepW] | split

theorem pageUpdate_keepW (lln : Nat) (d : DSlot) (s : State) : keepW (pageUpdate lln d s) = keepW s := by
  unfold pageUpdate
  repeat' first | simp only [keepW_ite, pageRead_keepW, pageFill_keepW] | split

theorem slotTagTouch_keepW (lln : Nat) (s : State) : keepW (slotTagTouch lln s) = keepW s := by
  unfold slotTagTouch
  repeat' first | simp only [keepW_foldl, implies_true, tagTouch_keepW] | split

theorem tagsWritten_keepW (lln : Nat) (s : State) : keepW (tagsWritten lln s) = keepW s := by
  unfold tagsWritten
  simp only [hbmWrite_keepW, slotTagTouch_keepW]

theorem freeSlot_keepW (lln : Nat) (s : State) : keepW (freeSlot lln s) = keepW s := by
  unfold freeSlot
  simp only [keepW_mk, hbmWrite_keepW, tagsWritten_keepW]

theorem updLoad_keepW (s : State) : keepW (updLoad s) = keepW s := by
  unfold updLoad
  simp only [keepW_mk]

theorem completeThrough_keepW (s : State) : keepW (completeThrough s) = keepW s := by
  unfold completeThrough
  simp only [keepW_mk, keepW_foldl, keepW_ite, ite_self, implies_true, send_keepW, updLoad_keepW]

theorem endJob_keepW (id : BitVec 16) (mstat : Nat) (s : State) : keepW (endJob id mstat s) = keepW s := by
  unfold endJob
  repeat' first | simp only [keepW_mk, drawBits_keepW, event_keepW] | split

theorem ncSetWay_keepW (s : State) (k : Nat) (w : NcWay) : keepW (ncSetWay s k w) = keepW s := by
  unfold ncSetWay
  simp only [keepW_mk]

theorem invalidateLine_keepW (lln : Nat) (s : State) : keepW (invalidateLine lln s) = keepW s := by
  unfold invalidateLine
  simp only [keepW_mk, keepW_foldl, keepW_ite, ite_self, implies_true, pageClear_keepW, ncSetWay_keepW]

theorem flushJobs_keepW (done : Option Nat) (s : State) : keepW (flushJobs done s) = keepW s := by
  unfold flushJobs
  repeat' first | simp only [keepW_mk, keepW_foldl, keepW_ite, ite_self, implies_true, endJob_keepW, invalidateLine_keepW] | split | refine Eq.trans (keepW_foldl _ _ _ (fun _ _ => ?_)) ?_

theorem markSlot_keepW (lln : Nat) (f : DSlot → DSlot) (s : State) : keepW (markSlot lln f s) = keepW s := by
  unfold markSlot
  repeat' first | simp only [keepW_mk, tagsWritten_keepW] | split

theorem lineClean_keepW (lln : Nat) (s : State) : keepW (lineClean lln s) = keepW s := by
  unfold lineClean
  repeat' first | simp only [keepW_ite, ite_self, pageUpdate_keepW, freeSlot_keepW, updLoad_keepW, completeThrough_keepW, flushJobs_keepW, markSlot_keepW] | split

theorem setBand_keepW (b : Nat) (f : Band → Band) (s : State) : keepW (setBand b f s) = keepW s := by
  unfold setBand
  simp only [keepW_mk]

theorem markDraining_keepW (lfn : Nat) (v : Bool) (s : State) : keepW (markDraining lfn v s) = keepW s := by
  unfold markDraining
  simp only [keepW_foldl, implies_true, markSlot_keepW]

theorem setStream_keepW (i : Nat) (f : Machine.Stream → Machine.Stream) (s : State) : keepW (setStream i f s) = keepW s := by
  unfold setStream
  simp only [keepW_mk]

theorem sealBatch_keepW (r : Nat) (hdr : List Byte) (b : Batch) (s : State) : keepW (sealBatch r hdr b s).2 = keepW s := by
  unfold sealBatch
  repeat' first | simp only [keepW_ite, apply_ite Prod.snd, ite_self, fire_keepW, setStream_keepW] | split

theorem setPeer_keepW (r : Nat) (f : Peer → Peer) (s : State) : keepW (setPeer r f s) = keepW s := by
  unfold setPeer
  simp only [keepW_mk]

theorem peerWrite_keepW (r : Nat) (ring : Bool) (m : PeerMsg) (s : State) : keepW (peerWrite r ring m s) = keepW s := by
  unfold peerWrite
  repeat' first | simp only [send_keepW, sealBatch_keepW, setPeer_keepW] | split

theorem peerSend_keepW (r : Nat) (m : PeerMsg) (s : State) : keepW (peerSend r m s) = keepW s := by
  unfold peerSend
  simp only [keepW_ite, ite_self, peerWrite_keepW, setPeer_keepW]

theorem markInflight_keepW (lfn : Nat) (v : Bool) (s : State) : keepW (markInflight lfn v s) = keepW s := by
  unfold markInflight
  simp only [keepW_mk]

theorem ftInject_keepW (lfn : Nat) (s : State) : keepW (ftInject lfn s) = keepW s := by
  unfold ftInject
  repeat' first | simp only [keepW_mk, keepW_ite, ite_self, fire_keepW] | split

theorem ftCommit_keepW (lfn : Nat) (e : BitVec 32) (s : State) : keepW (ftCommit lfn e s) = keepW s := by
  unfold ftCommit
  simp only [keepW_mk, ftInject_keepW, hbmWrite_keepW]

theorem commitQuiet_keepW (lfn : Nat) (e : BitVec 32) (s : State) : keepW (commitQuiet lfn e s) = keepW s := by
  unfold commitQuiet
  simp only [keepW_ite, ite_self, ftCommit_keepW]

theorem leaveSlot_keepW (sl : FoldSlot) (seq : BitVec 48) (s : State) : keepW (leaveSlot sl seq s) = keepW s := by
  unfold leaveSlot
  simp only [keepW_foldl, keepW_ite, ite_self, implies_true, markDraining_keepW, peerSend_keepW, markInflight_keepW, commitQuiet_keepW]

theorem wearBy_keepW (f : Nat) (n : Nat) (s : State) : keepW (wearBy f n s) = keepW s := by
  unfold wearBy
  simp only [keepW_mk]

theorem lineInject_keepW (ch : Nat) (die : Nat) (l : MediaLine) (s : State) : keepW (lineInject ch die l s).2 = keepW s := by
  unfold lineInject
  repeat' first | simp only [fire_keepW] | split

theorem putLine_keepW (ch : Nat) (die : Nat) (bank : Nat) (block : Nat) (addr : Nat) (v : Cellv) (s : State) : keepW (putLine ch die bank block addr v s) = keepW s := by
  unfold putLine
  simp only [keepW_mk]

theorem programLine_keepW (ch : Nat) (die : Nat) (bank : Nat) (block : Nat) (addr : Nat) (l : MediaLine) (s : State) : keepW (programLine ch die bank block addr l s) = keepW s := by
  unfold programLine
  simp only [lineInject_keepW, putLine_keepW]

theorem descPut_keepW (f : Nat) (copy : Nat) (k : Nat) (x3 : Nat) (s : State) : keepW (descPut f copy k x3 s) = keepW s := by
  unfold descPut
  simp only [keepW_ite, ite_self, programLine_keepW]

theorem descAllocated_keepW (f : Nat) (s : State) : keepW (descAllocated f s) = keepW s := by
  unfold descAllocated
  simp only [keepW_foldl, implies_true, wearBy_keepW, descPut_keepW]

theorem descWrite_keepW (f : Nat) (s : State) : keepW (descWrite f s) = keepW s := by
  unfold descWrite
  simp only [keepW_mk, wearBy_keepW, descPut_keepW]

theorem setStamp_keepW (blk : Nat) (f : Stamp → Stamp) (s : State) : keepW (setStamp blk f s) = keepW s := by
  unfold setStamp
  simp only [keepW_mk]

theorem dropBlock_keepW (blk : Nat) (s : State) : keepW (dropBlock blk s) = keepW s := by
  unfold dropBlock
  simp only [keepW_mk]

theorem clearFast_keepW (f : Nat) (ch : Nat) (die : Nat) (block : Nat) (s : State) : keepW (clearFast f ch die block s) = keepW s := by
  unfold clearFast
  simp only [keepW_foldl, implies_true, wearBy_keepW, programLine_keepW, setStamp_keepW, dropBlock_keepW]

theorem prepareSet_keepW (f : Nat) (s : State) : keepW (prepareSet f s) = keepW s := by
  unfold prepareSet
  simp only [keepW_foldl, keepW_ite, ite_self, implies_true, clearFast_keepW]

theorem fsSet_keepW (f : Nat) (e : BitVec 64) (s : State) : keepW (fsSet f e s) = keepW s := by
  unfold fsSet
  repeat' first | simp only [keepW_mk, keepW_ite, ite_self, fire_keepW] | split

theorem takeSet_keepW (f : Nat) (use : Nat) (owner : Nat) (key : Nat) (s : State) : keepW (takeSet f use owner key s) = keepW s := by
  unfold takeSet
  simp only [keepW_mk, descAllocated_keepW, descWrite_keepW, prepareSet_keepW, fsSet_keepW]

theorem flagCopy_keepW (set : Nat) (copy : Nat) (s : State) : keepW (flagCopy set copy s) = keepW s := by
  unfold flagCopy
  simp only [keepW_ite, ite_self, fsSet_keepW]

theorem fastStore_keepW (set : Nat) (copy : Nat) (pos : Nat) (l : MediaLine) (s : State) : keepW (fastStore set copy pos l s) = keepW s := by
  unfold fastStore
  simp only [keepW_ite, ite_self, flagCopy_keepW, programLine_keepW]

theorem fastStore2_keepW (set : Nat) (pos : Nat) (l : MediaLine) (s : State) : keepW (fastStore2 set pos l s) = keepW s := by
  unfold fastStore2
  simp only [fastStore_keepW]

theorem segPut_keepW (k : Nat) (i : Nat) (l : MediaLine) (s : State) : keepW (segPut k i l s) = keepW s := by
  unfold segPut
  simp only [fastStore2_keepW]

theorem placeSeg_keepW (k : Nat) (g : Seg) (s : State) : keepW (placeSeg k g s) = keepW s := by
  unfold placeSeg
  simp only [keepW_mk, segPut_keepW]

theorem slotWritten_keepW (lln : Nat) (s : State) : keepW (slotWritten lln s) = keepW s := by
  unfold slotWritten
  simp only [hbmWrite_keepW, tagsWritten_keepW]

theorem putSlot_keepW (lln : Nat) (d : DSlot) (s : State) : keepW (putSlot lln d s) = keepW s := by
  unfold putSlot
  simp only [keepW_mk, slotWritten_keepW]

theorem poisonAdd_keepW (lln : Nat) (src : PoisonSrc) (s : State) : keepW (poisonAdd lln src s) = keepW s := by
  unfold poisonAdd
  split
  · rfl
  · refine keepW_mk rfl rfl rfl rfl rfl (map_ldCore_lmod _ _ (fun d => ?_)) rfl rfl rfl rfl rfl
    split
    · rfl
    · split <;> rfl

theorem lineLost_keepW (lln : Nat) (near : Bool) (s : State) : keepW (lineLost lln near s) = keepW s := by
  unfold lineLost
  simp only [keepW_mk, keepW_ite, ite_self, event_keepW, poisonAdd_keepW]

theorem slotRead_keepW (lln : Nat) (s : State) : keepW (slotRead lln s).2 = keepW s := by
  unfold slotRead
  repeat' first | simp only [keepW_mk, keepW_ite, apply_ite Prod.fst, apply_ite Prod.snd, ite_self, hbmMeet_keepW, hbmWrite_keepW, freeSlot_keepW, putSlot_keepW, lineLost_keepW] | split

theorem frameMeet_keepW (lfn : Nat) (s : State) : keepW (frameMeet lfn s) = keepW s := by
  unfold frameMeet
  repeat' first | simp only [keepW_ite, ite_self, pageRead_keepW, hbmMeet_keepW, pageDrop_keepW, slotRead_keepW] | split | refine Eq.trans (keepW_foldl _ _ _ (fun _ _ => ?_)) ?_

theorem ncTwin_keepW (s : State) (a : Nat) (b : Nat) : keepW (ncTwin s a b).2 = keepW s := by
  unfold ncTwin
  simp only [keepW_ite, apply_ite Prod.snd, ite_self, ncSetWay_keepW, ceError_keepW]

theorem drPlace_keepW (lln : Nat) (mask : BitVec 64) (data : Line) (since : BitVec 64) (s : State) : keepW (drPlace lln mask data since s) = keepW s := by
  unfold drPlace
  repeat' first | simp only [keepW_ite, apply_ite Prod.fst, apply_ite Prod.snd, ite_self, putSlot_keepW, slotRead_keepW] | split

theorem tagsTouch_keepW (lln : Nat) (s : State) : keepW (tagsTouch lln s) = keepW s := by
  unfold tagsTouch
  simp only [keepW_foldl, implies_true, tagTouch_keepW]

theorem ncEvict_keepW (k : Nat) (s : State) : keepW (ncEvict k s) = keepW s := by
  unfold ncEvict
  repeat' first | simp only [keepW_ite, ite_self, ncTwin_keepW, ncSetWay_keepW, drPlace_keepW, lineLost_keepW, tagsTouch_keepW] | split

theorem writeBackFrame_keepW (lfn : Nat) (s : State) : keepW (writeBackFrame lfn s) = keepW s := by
  unfold writeBackFrame
  repeat' first | simp only [ncEvict_keepW] | split | refine Eq.trans (keepW_foldl _ _ _ (fun _ _ => ?_)) ?_

theorem enterFrame_keepW (d : Due) (s : State) : keepW (enterFrame d s).2 = keepW s := by
  unfold enterFrame
  repeat' first | simp only [keepW_ite, apply_ite Prod.snd, ite_self, markDraining_keepW, frameMeet_keepW, writeBackFrame_keepW, markInflight_keepW, commitQuiet_keepW] | split

theorem pickSegment_keepW (s : State) (k : Nat) (t : State) (h : pickSegment s = some (k, t)) : keepW t = keepW s := by
  unfold pickSegment at h
  split at h
  · cases h; rfl
  · split at h
    · cases h; exact takeSet_keepW _ _ _ _ _
    · cases h

theorem ckSegmentFresh_keepW (s : State) (k : Nat) (t : State) (h : ckSegment.fresh s = some (k, t)) : keepW t = keepW s := by
  unfold ckSegment.fresh at h
  split at h
  · next hp => cases h; exact (keepW_mk rfl rfl rfl rfl rfl rfl rfl rfl rfl rfl rfl).trans ((placeSeg_keepW _ _ _).trans (pickSegment_keepW _ _ _ hp))
  · cases h

theorem ckSegment_keepW (s : State) (k : Nat) (t : State) (h : ckSegment s = some (k, t)) : keepW t = keepW s := by
  unfold ckSegment at h
  extract_lets full at h
  split at h
  · split at h
    · exact ckSegmentFresh_keepW _ _ _ h
    · cases h; rfl
  · exact ckSegmentFresh_keepW _ _ _ h

theorem ckRecord_keepW (kind : Nat) (target : Nat) (entry : BitVec 32) (psnap : BitVec 48) (s : State) : keepW (ckRecord kind target entry psnap s).2 = keepW s := by
  unfold ckRecord
  extract_lets bad s1 c r
  have h1 : keepW s1 = keepW s := by simp only [s1]; split <;> simp only [fire_keepW]
  clear_value s1
  cases hk : ckSegment s1 with
  | none => exact (keepW_mk rfl rfl rfl rfl rfl rfl rfl rfl rfl rfl rfl).trans h1
  | some p =>
    obtain ⟨k, t⟩ := p
    have ht := (ckSegment_keepW _ _ _ hk).trans h1
    simp only [keepW_mk, fastStore_keepW]
    exact ht

theorem stateEvent_keepW (u : Nat) (old : UState) (new : UState) (reason : Nat) (repl : Bool) (s : State) : keepW (stateEvent u old new reason repl s) = keepW s := by
  unfold stateEvent
  simp only [event_keepW]

theorem mailDown_keepW (u : Nat) (s : State) : keepW (mailDown u s) = keepW s := by
  unfold mailDown
  simp only [keepW_mk, keepW_ite, ite_self]

theorem setUnit_keepW (u : Nat) (st : UState) (reason : Nat) (repl : Bool) (s : State) : keepW (setUnit u st reason repl s) = keepW s := by
  unfold setUnit
  simp only [keepW_mk, keepW_ite, ite_self, stateEvent_keepW, saveUnit_keepW, mailDown_keepW]

theorem dieFailed_keepW (die : Nat) (s : State) : keepW (dieFailed die s) = keepW s := by
  unfold dieFailed
  simp only [keepW_mk]

theorem dieCount_keepW (what : Nat) (die : Nat) (s : State) : keepW (dieCount what die s) = keepW s := by
  unfold dieCount
  simp only [keepW_mk, keepW_ite, ite_self, setUnit_keepW, dieFailed_keepW]

theorem charge_keepW (die : Nat) (s : State) : keepW (charge die s) = keepW s := by
  unfold charge
  simp only [ceError_keepW]

theorem weakLine_keepW (die : Nat) (s : State) : keepW (weakLine die s) = keepW s := by
  unfold weakLine
  simp only [dieCount_keepW, charge_keepW]

theorem cellRead_keepW (c : Cellv) (s : State) : keepW (cellRead c s).2 = keepW s := by
  unfold cellRead
  repeat' first | simp only [drawBits_keepW] | split

theorem copyRead_keepW (f : Nat) (c : Nat) (pos : Nat) (seq : Option (BitVec 16)) (s : State) : keepW (copyRead f c pos seq s).2 = keepW s := by
  unfold copyRead
  repeat' first | simp only [keepW_ite, apply_ite Prod.snd, ite_self, dieCount_keepW, weakLine_keepW, cellRead_keepW] | split

theorem ladderStep_keepW (test : Line66 → Bool) (k : Nat) (r : Option (Line66 × Nat) × State) (next : State → Option (Line66 × Nat) × State)
    (h : ∀ s, keepW (next s).2 = keepW s) : keepW (ladderStep test k r next).2 = keepW r.2 := by
  unfold ladderStep
  split
  · rfl
  · exact h _

theorem ladder_keepW (test : Line66 → Bool) (x1 : List Nat) (x2 : State) : keepW (ladder test x1 x2).2 = keepW x2 := by
  induction x1 generalizing x2 with
  | nil => rfl
  | cons k ks ih => exact (ladderStep_keepW _ _ _ _ ih).trans (cellRead_keepW _ _)

theorem makeDue_keepW (lfn : Nat) (prio : Nat) (key : Nat) (direct : Bool) (s : State) : keepW (makeDue lfn prio key direct s) = keepW s := by
  unfold makeDue
  repeat' first | simp only [keepW_mk, keepW_ite, ite_self] | split

theorem retryNoted_keepW (die : Nat) (lln : Nat) (step : Nat) (s : State) : keepW (retryNoted die lln step s) = keepW s := by
  unfold retryNoted
  simp only [event_keepW, makeDue_keepW]

theorem retryGood_keepW (die : Nat) (lln : Nat) (step : Nat) (s : State) : keepW (retryGood die lln step s) = keepW s := by
  unfold retryGood
  simp only [charge_keepW, retryNoted_keepW]

theorem retried_keepW (die lln : Nat) (r : Option (Line66 × Nat) × State) : keepW (retried die lln r).2 = keepW r.2 := by
  unfold retried
  split
  · simp only [retryGood_keepW]
  · rfl

theorem copyRetry_keepW (f : Nat) (c : Nat) (lln : Nat) (seq : Option (BitVec 16)) (s : State) : keepW (copyRetry f c lln seq s).2 = keepW s := by
  unfold copyRetry
  split
  · rfl
  · exact (retried_keepW _ _ _).trans (ladder_keepW _ _ _)

theorem olderAgain_keepW (f : Nat) (pos : Nat) (a : Line66) (b : Line66) (l : Line66) (s : State) : keepW (olderAgain f pos a b l s) = keepW s := by
  unfold olderAgain
  simp only [keepW_ite, ite_self, fastStore_keepW]

theorem tieStore_keepW (f : Nat) (pos : Nat) (seq : Option (BitVec 16)) (l : Line) (v : BitVec 16) (s : State) : keepW (tieStore f pos seq l v s) = keepW s := by
  unfold tieStore
  repeat' first | simp only [keepW_mk, fastStore2_keepW] | split

theorem tieEnded_keepW (f pos : Nat) (seq : Option (BitVec 16)) (v : BitVec 16) (r : Option Line66 × State) :
    keepW (tieEnded f pos seq v r).2 = keepW r.2 := by
  unfold tieEnded
  split
  · simp only [tieStore_keepW]
  · rfl

theorem tieTry_keepW (test : Line66 → Bool) (a b : Option (Line66 × Nat)) (s : State) (next : State → Option Line66 × State)
    (h : ∀ s, keepW (next s).2 = keepW s) : keepW (tieTry test a b s next).2 = keepW s := by
  unfold tieTry
  split
  · split
    · rfl
    · exact h _
  · exact h _

theorem tieLadder_keepW (test : Line66 → Bool) (x1 : List Nat) (x2 : State) : keepW (tieLadder test x1 x2).2 = keepW x2 := by
  induction x1 generalizing x2 with
  | nil => rfl
  | cons k ks ih =>
    rw [tieLadder]
    exact (tieTry_keepW _ _ _ _ _ ih).trans ((cellRead_keepW _ _).trans (cellRead_keepW _ _))

theorem tieSources_keepW (f : Nat) (pos : Nat) (seq : Option (BitVec 16)) (v : BitVec 16) (d : Option Line) (s : State) : keepW (tieSources f pos seq v d s).2 = keepW s := by
  unfold tieSources
  split
  · rfl
  · split
    · rfl
    · exact (tieEnded_keepW _ _ _ _ _).trans (tieLadder_keepW _ _ _)

theorem tieNoted_keepW (f : Nat) (pos : Nat) (charged : List Nat) (s : State) : keepW (tieNoted f pos charged s) = keepW s := by
  unfold tieNoted
  simp only [keepW_mk, keepW_foldl, implies_true, event_keepW, charge_keepW]

theorem tieResolve_keepW (f : Nat) (pos : Nat) (lln : Nat) (seq : Option (BitVec 16)) (v : BitVec 16) (s : State) : keepW (tieResolve f pos lln seq v s).2 = keepW s := by
  unfold tieResolve
  exact (tieSources_keepW _ _ _ _ _ _).trans (tieNoted_keepW _ _ _ _)

theorem bothRead_keepW (f : Nat) (pos : Nat) (lln : Nat) (seq : Option (BitVec 16)) (x4 : Line66) (y : Line66) (s : State) : keepW (bothRead f pos lln seq x4 y s).2 = keepW s := by
  unfold bothRead
  repeat' first | simp only [olderAgain_keepW, tieResolve_keepW] | split

theorem lateCopies_keepW (f : Nat) (pos : Nat) (lln : Nat) (seq : Option (BitVec 16)) (a : Option Line66) (b : Option Line66) (s : State) : keepW (lateCopies f pos lln seq a b s).2 = keepW s := by
  unfold lateCopies
  repeat' first | simp only [bothRead_keepW] | split

theorem copiesRetried_keepW (f : Nat) (pos : Nat) (lln : Nat) (seq : Option (BitVec 16)) (s : State) : keepW (copiesRetried f pos lln seq s).2 = keepW s := by
  unfold copiesRetried
  exact (lateCopies_keepW _ _ _ _ _ _ _).trans ((copyRetry_keepW _ _ _ _ _).trans (copyRetry_keepW _ _ _ _ _))

theorem countRebuilt_keepW (s : State) : keepW (countRebuilt s) = keepW s := by
  unfold countRebuilt
  simp only [keepW_mk]

theorem earlyCopies_keepW (f : Nat) (pos : Nat) (lln : Nat) (seq : Option (BitVec 16)) (a : Option Line66) (b : Option Line66) (s : State) : keepW (earlyCopies f pos lln seq a b s).2 = keepW s := by
  unfold earlyCopies
  repeat' first | simp only [keepW_ite, ite_self, copiesRetried_keepW, countRebuilt_keepW, bothRead_keepW, charge_keepW] | split

theorem fastRead_keepW (f : Nat) (pos : Nat) (lln : Nat) (seq : Option (BitVec 16)) (s : State) : keepW (fastRead f pos lln seq s).2 = keepW s := by
  unfold fastRead
  exact (earlyCopies_keepW _ _ _ _ _ _ _).trans ((copyRead_keepW _ _ _ _ _).trans (copyRead_keepW _ _ _ _ _))

theorem memberRetry_keepW (b : Nat) (m : Nat) (x2 : Nat) (lln : Nat) (s : State) : keepW (memberRetry b m x2 lln s).2 = keepW s := by
  unfold memberRetry
  exact (keepW_pair (fun v => v.map (fun l => (l, true))) _).trans ((retried_keepW _ _ _).trans (ladder_keepW _ _ _))

theorem countBlock_keepW (blk : Nat) (what : Nat) (x2 : Nat) (s : State) : keepW (countBlock blk what x2 s) = keepW s := by
  unfold countBlock
  simp only [keepW_mk]

theorem refreshBand_keepW (b : Nat) (s : State) : keepW (refreshBand b s) = keepW s := by
  unfold refreshBand
  simp only [keepW_foldl, implies_true, makeDue_keepW]

theorem markBad_keepW (blk : Nat) (cause : Nat) (s : State) : keepW (markBad blk cause s) = keepW s := by
  unfold markBad
  split
  · rfl
  · extract_lets bank die ch s1 e1 s2 r s3 b
    have h2 : keepW s2 = keepW s := (event_keepW _ _).trans rfl
    have h3 : keepW s3 = keepW s := (ckRecord_keepW _ _ _ _ _).trans h2
    clear_value s3
    generalize fastSetOf s3 ch die (blk % 8192) = fc
    obtain ⟨f, c⟩ := fc
    split
    · exact (descWrite_keepW _ _).trans ((fsSet_keepW _ _ _).trans h3)
    · split
      · exact (refreshBand_keepW _ _).trans h3
      · exact h3

theorem countBlockMark_keepW (blk : Nat) (what : Nat) (x2 : Nat) (s : State) : keepW (countBlockMark blk what x2 s) = keepW s := by
  unfold countBlockMark
  simp only [keepW_ite, ite_self, countBlock_keepW, markBad_keepW]

theorem memberRead_keepW (b : Nat) (m : Nat) (x2 : Nat) (s : State) : keepW (memberRead b m x2 s).2 = keepW s := by
  unfold memberRead
  repeat' first | simp only [keepW_ite, apply_ite Prod.snd, ite_self, dieCount_keepW, weakLine_keepW, countBlockMark_keepW, cellRead_keepW] | split

theorem membersRead_keepW (read : Nat → State → Option (Line66 × Bool) × State) (ms : List Nat) (s : State)
    (h : ∀ m s, keepW (read m s).2 = keepW s) : keepW (membersRead read ms s).2 = keepW s := by
  unfold membersRead
  exact keepW_foldl2 _ _ _ (fun p a => h _ _)

theorem stripeRead_keepW (b : Nat) (h : Nat) (x2 : Nat) (lln : Nat) (s : State) : keepW (stripeRead b h x2 lln s).2 = keepW s := by
  unfold stripeRead
  extract_lets ms a
  have ha : keepW a.2 = keepW s := membersRead_keepW _ _ _ (fun _ _ => memberRead_keepW _ _ _ _)
  clear_value a
  split
  · exact (membersRead_keepW _ _ _ (fun _ _ => memberRetry_keepW _ _ _ _ _)).trans ha
  · exact ha

theorem located_keepW (b : Nat) (x1 : Nat) (charged : Bool) (s : State) (m : Nat) : keepW (located b x1 charged s m) = keepW s := by
  unfold located
  simp only [keepW_mk, keepW_ite, ite_self, countBlockMark_keepW, event_keepW, refreshBand_keepW, charge_keepW]

theorem stripeRebuild_keepW (b : Nat) (h : Nat) (x2 : Nat) (lln : Nat) (s : State) : keepW (stripeRebuild b h x2 lln s).2 = keepW s := by
  unfold stripeRebuild
  repeat' first | simp only [keepW_foldl, keepW_ite, ite_self, implies_true, stripeRead_keepW, countRebuilt_keepW, located_keepW, charge_keepW] | split

theorem homeRead_keepW (b : Nat) (slot : Nat) (x2 : Nat) (lln : Nat) (s : State) : keepW (homeRead b slot x2 lln s).2 = keepW s := by
  unfold homeRead
  repeat' first | simp only [keepW_ite, apply_ite Prod.fst, apply_ite Prod.snd, ite_self, memberRetry_keepW, stripeRebuild_keepW, memberRead_keepW] | split

theorem sourceRead_keepW (lln : Nat) (seq : BitVec 16) (w : Where) (s : State) : keepW (sourceRead lln seq w s).2 = keepW s := by
  unfold sourceRead
  repeat' first | simp only [fastRead_keepW, homeRead_keepW] | split

theorem baseRead_keepW (lln : Nat) (e : BitVec 32) (s : State) : keepW (baseRead lln e s).2 = keepW s := by
  unfold baseRead
  simp only [sourceRead_keepW]

theorem slotSource_keepW (sl : FoldSlot) (l : Nat) (s : State) : keepW (slotSource sl l s).2 = keepW s := by
  unfold slotSource
  repeat' first | simp only [keepW_ite, apply_ite Prod.snd, ite_self, fastRead_keepW, homeRead_keepW, baseRead_keepW] | split

theorem ncFire_keepW (s : State) : keepW (ncFire s) = keepW s := by
  unfold ncFire
  simp only [keepW_ite, ite_self, fire_keepW]

theorem ncPutTwo_keepW (a : Nat) (b : Nat) (wa : NcWay) (wb : NcWay) (s : State) : keepW (ncPutTwo a b wa wb s) = keepW s := by
  unfold ncPutTwo
  simp only [ncSetWay_keepW, ncFire_keepW]

theorem ncPutTwin_keepW (a : Nat) (b : Nat) (w : NcWay) (s : State) : keepW (ncPutTwin a b w s) = keepW s := by
  unfold ncPutTwin
  simp only [ncPutTwo_keepW]

theorem ncTwinIn_keepW (g : BitVec 16) (wa : NcWay) (wb : NcWay) (s : State) : keepW (ncTwinIn g wa wb s).2 = keepW s := by
  unfold ncTwinIn
  repeat' first | simp only [ceError_keepW] | split

theorem ncTakeTwo_keepW (set : Nat) (s : State) : keepW (ncTakeTwo set s).2.2 = keepW s := by
  unfold ncTakeTwo
  repeat' first | simp only [ncEvict_keepW] | split

end Sys2Proof.Machine
end

section
/-! SUPPORT. The same of folds, bands, moves, drains and of a program that is lost. -/

namespace Sys2Proof.Machine

theorem mapMark_keepW (lfn : Nat) (s : State) : keepW (mapMark lfn s) = keepW s := by
  unfold mapMark
  simp only [keepW_mk, keepW_ite, ite_self]

theorem ncWrite_keepW (lln : Nat) (data : Line) (mask : BitVec 64) (s : State) : keepW (ncWrite lln data mask s) = keepW s := by
  unfold ncWrite
  repeat' first | simp only [keepW_ite, apply_ite Prod.fst, apply_ite Prod.snd, ite_self, ncPutTwin_keepW, ncEvict_keepW, ncTwinIn_keepW, ncTakeTwo_keepW, ncSetWay_keepW, lineLost_keepW, ncPutTwo_keepW, ceError_keepW, mapMark_keepW] | split

theorem internalWrite_keepW (lln : Nat) (v : Line) (s : State) : keepW (internalWrite lln v s) = keepW s := by
  unfold internalWrite
  simp only [keepW_mk, keepW_ite, ite_self, ncWrite_keepW]

theorem foundLost_keepW (lln : Nat) (src : Nat) (unit : Nat) (s : State) : keepW (foundLost lln src unit s) = keepW s := by
  unfold foundLost
  simp only [keepW_mk, event_keepW, poisonAdd_keepW]

theorem poisonFind_keepW (lln : Nat) (src : Nat) (unit : Nat) (s : State) : keepW (poisonFind lln src unit s) = keepW s := by
  unfold poisonFind
  simp only [internalWrite_keepW, foundLost_keepW]

theorem commitAt_keepW (lfn : Nat) (e : BitVec 32) (psnap : BitVec 48) (s : State) : keepW (commitAt lfn e psnap s) = keepW s := by
  unfold commitAt
  simp only [keepW_mk, ftCommit_keepW, ckRecord_keepW]

theorem commitNow_keepW (lfn : Nat) (e : BitVec 32) (s : State) : keepW (commitNow lfn e s) = keepW s := by
  unfold commitNow
  simp only [commitAt_keepW]

theorem markRebuild_keepW (lfn : Nat) (s : State) : keepW (markRebuild lfn s) = keepW s := by
  unfold markRebuild
  simp only [keepW_mk, keepW_ite, ite_self]

theorem releaseSet_keepW (f : Nat) (s : State) : keepW (releaseSet f s) = keepW s := by
  unfold releaseSet
  simp only [keepW_mk, descWrite_keepW, fsSet_keepW]

theorem releaseNow_keepW (e : BitVec 32) (s : State) : keepW (releaseNow e s) = keepW s := by
  unfold releaseNow
  simp only [keepW_mk, keepW_ite, ite_self, releaseSet_keepW, setBand_keepW]

theorem releaseOld_keepW (e : BitVec 32) (s : State) : keepW (releaseOld e s) = keepW s := by
  unfold releaseOld
  simp only [keepW_mk, keepW_ite, ite_self, releaseNow_keepW]

theorem setSlot_keepW (b : Nat) (lfn : Nat) (f : FoldSlot → FoldSlot) (s : State) : keepW (setSlot b lfn f s) = keepW s := by
  unfold setSlot
  simp only [keepW_mk]

theorem slotLost_keepW (b : Nat) (sl : FoldSlot) (l : Nat) (s : State) : keepW (slotLost b sl l s) = keepW s := by
  unfold slotLost
  simp only [keepW_ite, ite_self, poisonFind_keepW, commitNow_keepW, markRebuild_keepW, releaseOld_keepW, markInflight_keepW, setSlot_keepW]

theorem slotLine66_keepW (b : Nat) (slot : Nat) (x2 : Nat) (s : State) : keepW (slotLine66 b slot x2 s).2 = keepW s := by
  unfold slotLine66
  repeat' first | simp only [keepW_ite, apply_ite Prod.snd, slotSource_keepW, slotLost_keepW] | split

theorem rowLine_keepW (b x : Nat) (c : List Line66 × State) (sl : Nat) : keepW (rowLine b x c sl).2 = keepW c.2 := by
  unfold rowLine
  exact slotLine66_keepW _ _ _ _

theorem pageRow_keepW (b p : Nat) (a : List (List Line66) × State) (i : Nat) : keepW (pageRow b p a i).2 = keepW a.2 := by
  unfold pageRow
  exact keepW_foldl2 _ _ _ (fun c sl => rowLine_keepW _ _ _ _)

theorem pageLines_keepW (b : Nat) (p : Nat) (s : State) : keepW (pageLines b p s).2 = keepW s := by
  unfold pageLines
  split
  · rfl
  · split
    · rfl
    · exact (keepW_mk rfl rfl rfl rfl rfl rfl rfl rfl rfl rfl rfl).trans (keepW_foldl2 _ _ _ (fun a i => pageRow_keepW _ _ _ _))

theorem setCart_keepW (ch : Nat) (f : Carter → Carter) (s : State) : keepW (setCart ch f s) = keepW s := by
  unfold setCart
  simp only [keepW_mk]

theorem askProg_keepW (ch : Nat) (p : CProg) (s : State) : keepW (askProg ch p s) = keepW s := by
  unfold askProg
  simp only [setCart_keepW]

theorem askPage_keepW (b : Nat) (m : Nat) (p : Nat) (s : State) : keepW (askPage b m p s) = keepW s := by
  unfold askPage
  simp only [keepW_ite, apply_ite Prod.fst, apply_ite Prod.snd, ite_self, pageLines_keepW, askProg_keepW]

theorem openOn_keepW (b : Nat) (dues : List Due) (abandons : Nat) (s : State) : keepW (openOn b dues abandons s) = keepW s := by
  unfold openOn
  repeat' first | simp only [keepW_mk, keepW_foldl, keepW_ite, implies_true, enterFrame_keepW, ckRecord_keepW, setBand_keepW, peerSend_keepW, askPage_keepW] | split | refine Eq.trans (keepW_foldl _ _ _ (fun _ _ => ?_)) ?_ | refine Eq.trans (keepW_foldl2 _ _ _ (fun _ _ => ?_)) ?_

theorem meetDirect_keepW (s : State) : keepW (meetDirect s) = keepW s := by
  unfold meetDirect
  simp only [keepW_foldl, implies_true, frameMeet_keepW, writeBackFrame_keepW]

theorem pumpRestart_keepW (s : State) : keepW (pumpRestart s) = keepW s := by
  unfold pumpRestart
  repeat' first | simp only [keepW_mk, keepW_ite, openOn_keepW, meetDirect_keepW] | split | refine Eq.trans (keepW_foldl _ _ _ (fun _ _ => ?_)) ?_

theorem sendPkt_keepW (ch : Nat) (op : Nat) (die : Nat) (bank : Nat) (block : Nat) (addr : Nat) (tag : BitVec 7) (arg : Nat) (s : State) : keepW (sendPkt ch op die bank block addr tag arg s) = keepW s := by
  unfold sendPkt
  simp only [send_keepW]

theorem withdrawBand_keepW (b : Nat) (s : State) : keepW (withdrawBand b s) = keepW s := by
  unfold withdrawBand
  simp only [keepW_foldl, keepW_ite, ite_self, implies_true, sendPkt_keepW, setCart_keepW]

theorem abandonBatch_keepW (f : FoldBatch) (cause : Nat) (blk : Option Nat) (s : State) : keepW (abandonBatch f cause blk s) = keepW s := by
  unfold abandonBatch
  repeat' first | simp only [keepW_mk, keepW_foldl, keepW_ite, ite_self, implies_true, setBand_keepW, leaveSlot_keepW, pumpRestart_keepW, withdrawBand_keepW, event_keepW, markBad_keepW] | split

theorem withhold_keepW (sl : FoldSlot) (s : State) : keepW (withhold sl s) = keepW s := by
  unfold withhold
  simp only [keepW_mk, keepW_ite, ite_self]

theorem closeIfDone_keepW (b : Nat) (s : State) : keepW (closeIfDone b s) = keepW s := by
  unfold closeIfDone
  repeat' first | simp only [keepW_mk, keepW_ite, ite_self, setBand_keepW] | split

theorem countDelta_keepW (s : State) (h : Nat) : keepW (countDelta s h) = keepW s := by
  unfold countDelta
  exact keepW_mk rfl rfl rfl rfl rfl rfl rfl rfl rfl rfl rfl

theorem sendChunk_keepW (lfn : Nat) (t : Nat) (seq : BitVec 48) (delta : Nat → Line) (h : Nat) (s : State) (c : Nat) : keepW (sendChunk lfn t seq delta h s c) = keepW s := by
  unfold sendChunk
  simp only [peerSend_keepW]

theorem sendDelta_keepW (b : Nat) (seq : BitVec 48) (sl : FoldSlot) (s : State) : keepW (sendDelta b seq sl s) = keepW s := by
  unfold sendDelta
  simp only [keepW_foldl, implies_true, countDelta_keepW, setSlot_keepW, sendChunk_keepW]

theorem drainedClean_keepW (lfn : Nat) (s : State) : keepW (drainedClean lfn s) = keepW s := by
  unfold drainedClean
  simp only [keepW_foldl, implies_true, lineClean_keepW]

theorem dropPrefetch_keepW (p : Nat → Bool) (s : State) : keepW (dropPrefetch p s) = keepW s := by
  unfold dropPrefetch
  simp only [keepW_mk]

theorem dropFrame_keepW (lfn : Nat) (s : State) : keepW (dropFrame lfn s) = keepW s := by
  unfold dropFrame
  simp only [keepW_mk, dropPrefetch_keepW]

theorem dropPoison_keepW (lfn : Nat) (s : State) : keepW (dropPoison lfn s) = keepW s :=
  keepW_mk rfl rfl rfl rfl rfl (map_ldCore_map _ (fun _ => rfl)) rfl rfl rfl rfl rfl

theorem piNote_keepW (es : List PiEnt) (s : State) : keepW (piNote es s) = keepW s := by
  unfold piNote
  simp only [keepW_mk, keepW_ite, ite_self]

theorem piDrop_keepW (gone : PiEnt → Bool) (s : State) : keepW (piDrop gone s) = keepW s := by
  unfold piDrop
  simp only [keepW_mk, keepW_foldl, implies_true, hbmWrite_keepW, piNote_keepW]

theorem unindex_keepW (gone : PiEnt → Bool) (s : State) : keepW (unindex gone s) = keepW s := by
  unfold unindex
  simp only [keepW_mk, piDrop_keepW]

theorem foldPatches_keepW (sl : FoldSlot) (s : State) : keepW (foldPatches sl s).2 = keepW s := by
  unfold foldPatches
  simp only [unindex_keepW, markInflight_keepW]

theorem dropPatches_keepW (lfn : Nat) (s : State) : keepW (dropPatches lfn s) = keepW s := by
  unfold dropPatches
  simp only [keepW_mk, hbmWrite_keepW, unindex_keepW]

theorem fsumRefresh_keepW (lfn : Nat) (s : State) : keepW (fsumRefresh lfn s) = keepW s := by
  unfold fsumRefresh
  simp only [keepW_mk, hbmMeet_keepW, hbmWrite_keepW]

theorem rebuildDone_keepW (lfn : Nat) (s : State) : keepW (rebuildDone lfn s) = keepW s := by
  unfold rebuildDone
  simp only [keepW_mk]

theorem commitSlot_keepW (b : Nat) (slot : Nat) (sl : FoldSlot) (s : State) : keepW (commitSlot b slot sl s) = keepW s := by
  unfold commitSlot
  repeat' first | simp only [keepW_mk, keepW_ite, ite_self, drainedClean_keepW, commitNow_keepW, dropFrame_keepW, commitAt_keepW, dropPoison_keepW, foldPatches_keepW, dropPatches_keepW, fsumRefresh_keepW, rebuildDone_keepW] | split

theorem ackDelta_keepW (code : Nat) (h : Holding) (s : State) : keepW (ackDelta code h s) = keepW s := by
  unfold ackDelta
  simp only [peerSend_keepW]

theorem advanceBatch_keepW (b : Nat) (s : State) : keepW (advanceBatch b s) = keepW s := by
  unfold advanceBatch
  repeat' first | simp only [keepW_mk, keepW_foldl, keepW_ite, implies_true, withhold_keepW, leaveSlot_keepW, peerSend_keepW, releaseOld_keepW, closeIfDone_keepW, sendDelta_keepW, commitSlot_keepW, ackDelta_keepW, setSlot_keepW] | split | refine Eq.trans (keepW_foldl _ _ _ (fun _ _ => ?_)) ?_

theorem bulkAsk_keepW (tag : BitVec 32) (s : State) : keepW (bulkAsk tag s) = keepW s := by
  unfold bulkAsk
  repeat' first | simp only [keepW_mk, keepW_ite, ite_self, peerSend_keepW] | split | refine Eq.trans (keepW_foldl _ _ _ (fun _ _ => ?_)) ?_

theorem spanStart_keepW (rid : Option Nat) (lln : Nat) (count : Nat) (base : Bool) (record : Bool) (must : Bool) (localBase : Option Line) (s : State) : keepW (spanStart rid lln count base record must localBase s) = keepW s := by
  unfold spanStart
  simp only [keepW_mk, keepW_times, keepW_foldl, keepW_ite, ite_self, implies_true, peerSend_keepW, bulkAsk_keepW]

theorem endMove_keepW (lfn : Nat) (s : State) : keepW (endMove lfn s) = keepW s := by
  unfold endMove
  simp only [keepW_mk]

theorem dropMove_keepW (m : FastMove) (s : State) : keepW (dropMove m s) = keepW s := by
  unfold dropMove
  simp only [keepW_ite, ite_self, releaseSet_keepW, markDraining_keepW, endMove_keepW, markInflight_keepW, commitQuiet_keepW]

theorem drainDrop_keepW (lln : Nat) (s : State) : keepW (drainDrop lln s) = keepW s := by
  unfold drainDrop
  simp only [keepW_mk, markSlot_keepW]

theorem abandonFrame_keepW (lfn : Nat) (s : State) : keepW (abandonFrame lfn s) = keepW s := by
  unfold abandonFrame
  repeat' first | simp only [keepW_mk, keepW_foldl, implies_true, endJob_keepW, leaveSlot_keepW, dropMove_keepW, closeIfDone_keepW, drainDrop_keepW, setSlot_keepW] | split | refine Eq.trans (keepW_foldl _ _ _ (fun _ _ => ?_)) ?_

theorem zeroFold_keepW (lfn : Nat) (mode : Nat) (s : State) : keepW (zeroFold lfn mode s) = keepW s := by
  unfold zeroFold
  repeat' first | simp only [keepW_mk, advanceBatch_keepW, peerSend_keepW, setSlot_keepW] | split

theorem emptyFrame_keepW (lfn : Nat) (mode : Nat) (s : State) : keepW (emptyFrame lfn mode s) = keepW s := by
  unfold emptyFrame
  simp only [keepW_ite, ite_self, commitNow_keepW, abandonFrame_keepW, releaseOld_keepW, dropFrame_keepW, dropPoison_keepW, zeroFold_keepW, dropPatches_keepW]

theorem fsTouch_keepW (f : Nat) (s : State) : keepW (fsTouch f s) = keepW s := by
  unfold fsTouch
  repeat' first | simp only [keepW_mk, ceError_keepW] | split

theorem entryLost_keepW (lfn : Nat) (s : State) : keepW (entryLost lfn s).2 = keepW s := by
  unfold entryLost
  simp only [keepW_mk, keepW_ite, apply_ite Prod.snd, ite_self, commitNow_keepW, releaseOld_keepW, event_keepW]

theorem ftRead_keepW (lfn : Nat) (s : State) : keepW (ftRead lfn s).2 = keepW s := by
  unfold ftRead
  repeat' first | simp only [keepW_mk, keepW_ite, apply_ite Prod.snd, ite_self, hbmMeet_keepW, entryLost_keepW, event_keepW, ceError_keepW] | split

theorem markRescan_keepW (lfn : Nat) (s : State) : keepW (markRescan lfn s) = keepW s := by
  unfold markRescan
  simp only [keepW_mk, keepW_ite, ite_self]

theorem piTouch_keepW (lln : Nat) (s : State) : keepW (piTouch lln s) = keepW s := by
  unfold piTouch
  simp only [keepW_mk, keepW_foldl, keepW_ite, ite_self, implies_true, hbmMeet_keepW]

theorem askFastLine_keepW (set : Nat) (copy : Nat) (pos : Nat) (l : MediaLine) (counted : Bool) (pu : PPurpose) (s : State) : keepW (askFastLine set copy pos l counted pu s) = keepW s := by
  unfold askFastLine
  simp only [askProg_keepW]

theorem askStage_keepW (d : Drain) (counted : Bool) (s : State) : keepW (askStage d counted s) = keepW s := by
  unfold askStage
  simp only [keepW_ite, ite_self, askFastLine_keepW]

theorem flagMissed_keepW (set : Nat) (s : State) : keepW (flagMissed set s) = keepW s := by
  unfold flagMissed
  repeat' first | simp only [flagCopy_keepW] | split

theorem setDraining_keepW (lln : Nat) (s : State) : keepW (setDraining lln s) = keepW s := by
  unfold setDraining
  simp only [markSlot_keepW]

theorem startDrain_keepW (d : Drain) (counted : Bool) (s : State) : keepW (startDrain d counted s) = keepW s := by
  unfold startDrain
  simp only [keepW_mk, askStage_keepW, flagMissed_keepW, setDraining_keepW]

theorem mergeRead_keepW (lln : Nat) (base : Bool) (must : Bool) (localBase : Option Line) (s : State) : keepW (mergeRead lln base must localBase s) = keepW s := by
  unfold mergeRead
  simp only [keepW_mk, keepW_ite, ite_self, spanStart_keepW]

theorem checkMet_keepW (lln : Nat) (s : State) : keepW (checkMet lln s).2 = keepW s := by
  unfold checkMet
  simp only [keepW_ite, apply_ite Prod.snd, ite_self, markRescan_keepW, event_keepW, piTouch_keepW]

theorem mediaRead_keepW (lln : Nat) (s : State) : keepW (mediaRead lln s).2 = keepW s := by
  unfold mediaRead
  simp only [sourceRead_keepW]

theorem wholeLine_keepW (lln : Nat) (d : DSlot) (s : State) : keepW (wholeLine lln d s).2 = keepW s := by
  unfold wholeLine
  repeat' first | simp only [keepW_ite, apply_ite Prod.snd, ite_self, mergeRead_keepW, checkMet_keepW, baseRead_keepW, putSlot_keepW, mediaRead_keepW, foundLost_keepW] | split

theorem logPressure_keepW (s : State) : keepW (logPressure s) = keepW s := by
  unfold logPressure
  simp only [keepW_mk, keepW_foldl, keepW_ite, ite_self, implies_true, makeDue_keepW]

theorem newSegment_keepW (s : State) (k : Nat) (t : State) (h : newSegment s = some (k, t)) : keepW t = keepW s := by
  unfold newSegment at h
  split at h
  · next hp => cases h; exact (keepW_mk rfl rfl rfl rfl rfl rfl rfl rfl rfl rfl rfl).trans ((placeSeg_keepW _ _ _).trans (pickSegment_keepW _ _ _ hp))
  · cases h

theorem openSegment_keepW (s : State) (k : Nat) (t : State) (h : openSegment s = some (k, t)) : keepW t = keepW s := by
  unfold openSegment at h
  split at h
  · split at h
    · cases h; rfl
    · exact newSegment_keepW _ _ _ h
  · exact newSegment_keepW _ _ _ h

theorem drainPatch_keepW (lln : Nat) (counted : Bool) (s : State) : keepW (drainPatch lln counted s) = keepW s := by
  unfold drainPatch
  split
  · rfl
  · extract_lets s0
    have h0 : keepW s0 = keepW s := piTouch_keepW _ _
    clear_value s0
    split
    · exact h0
    · split
      · exact (logPressure_keepW _).trans h0
      · rename_i h
        have h1 := (openSegment_keepW _ _ _ h).trans h0
        extract_lets w
        split
        · exact (wholeLine_keepW _ _ _).trans h1
        · exact (startDrain_keepW _ _ _).trans ((keepW_mk rfl rfl rfl rfl rfl rfl rfl rfl rfl rfl rfl).trans ((wholeLine_keepW _ _ _).trans h1))

theorem drainFast_keepW (lln : Nat) (f : Nat) (counted : Bool) (s : State) : keepW (drainFast lln f counted s) = keepW s := by
  unfold drainFast
  repeat' first | simp only [keepW_mk, keepW_ite, startDrain_keepW, wholeLine_keepW] | split

theorem residencyMeet_keepW (lfn : Nat) (s : State) : keepW (residencyMeet lfn s) = keepW s := by
  unfold residencyMeet
  simp only [keepW_mk, keepW_ite, ite_self, hbmMeet_keepW]

theorem moveCheck_keepW (m : FastMove) (l : Nat) (s : State) : keepW (moveCheck m l s).2 = keepW s := by
  unfold moveCheck
  simp only [keepW_ite, apply_ite Prod.snd, ite_self, checkMet_keepW]

theorem setMove_keepW (lfn : Nat) (f : FastMove → FastMove) (s : State) : keepW (setMove lfn f s) = keepW s := by
  unfold setMove
  simp only [keepW_mk]

theorem moveAsk_keepW (m : FastMove) (x1 : Nat) (data : MediaLine) (s : State) : keepW (moveAsk m x1 data s) = keepW s := by
  unfold moveAsk
  simp only [keepW_ite, ite_self, flagMissed_keepW, setMove_keepW, askFastLine_keepW]

theorem moveSource_keepW (m : FastMove) (l : Nat) (s : State) : keepW (moveSource m l s).2 = keepW s := by
  unfold moveSource
  repeat' first | simp only [keepW_ite, apply_ite Prod.fst, apply_ite Prod.snd, ite_self, poisonFind_keepW, baseRead_keepW, mediaRead_keepW, setDraining_keepW, slotRead_keepW] | split

theorem moveUnreadable_keepW (m : FastMove) (s : State) : keepW (moveUnreadable m s) = keepW s := by
  unfold moveUnreadable
  simp only [commitNow_keepW, dropMove_keepW, releaseOld_keepW]

theorem moveNext_keepW (m : FastMove) (s : State) : keepW (moveNext m s) = keepW s := by
  unfold moveNext
  repeat' first | simp only [keepW_ite, moveCheck_keepW, moveAsk_keepW, setMove_keepW, moveSource_keepW, moveUnreadable_keepW] | split

theorem moveLateLine_keepW (m : FastMove) (l : Nat) (ls : List Nat) (s : State) : keepW (moveLateLine m l ls s) = keepW s := by
  unfold moveLateLine
  repeat' first | simp only [keepW_mk, keepW_ite, moveCheck_keepW, moveAsk_keepW, setMove_keepW, moveSource_keepW, moveUnreadable_keepW] | split

theorem finishMove_keepW (m : FastMove) (s : State) : keepW (finishMove m s) = keepW s := by
  unfold finishMove
  repeat' first | simp only [keepW_mk, keepW_ite, ite_self, drainedClean_keepW, endJob_keepW, commitNow_keepW, endMove_keepW, releaseOld_keepW, commitAt_keepW, dropPatches_keepW] | split

theorem moveStep_keepW (lfn : Nat) (s : State) : keepW (moveStep lfn s) = keepW s := by
  unfold moveStep
  repeat' first | simp only [keepW_ite, ite_self, moveNext_keepW, moveLateLine_keepW, finishMove_keepW] | split

theorem startMove_keepW (lfn : Nat) (f : Nat) (kind : Nat) (pin : Bool) (counted : Bool) (job : Option (BitVec 16)) (s : State) : keepW (startMove lfn f kind pin counted job s) = keepW s := by
  unfold startMove
  simp only [keepW_mk, moveStep_keepW, takeSet_keepW, drawBits_keepW]

theorem allocate_keepW (lfn : Nat) (counted : Bool) (s : State) : keepW (allocate lfn counted s) = keepW s := by
  unfold allocate
  repeat' first | simp only [keepW_ite, ite_self, commitNow_keepW, writeBackFrame_keepW, makeDue_keepW, residencyMeet_keepW, startMove_keepW] | split

theorem drainLine_keepW (lln : Nat) (counted : Bool) (s : State) : keepW (drainLine lln counted s) = keepW s := by
  unfold drainLine
  repeat' first | simp only [keepW_ite, ite_self, ncEvict_keepW, drainPatch_keepW, writeBackFrame_keepW, ftRead_keepW, drainFast_keepW, makeDue_keepW, residencyMeet_keepW, allocate_keepW, slotRead_keepW] | split

theorem moveAgain_keepW (m : FastMove) (s : State) : keepW (moveAgain m s) = keepW s := by
  unfold moveAgain
  repeat' first | simp only [endJob_keepW, dropMove_keepW, startMove_keepW] | split

theorem moveLost_keepW (lfn : Nat) (copy : Nat) (s : State) : keepW (moveLost lfn copy s) = keepW s := by
  unfold moveLost
  repeat' first | simp only [keepW_ite, ite_self, moveStep_keepW, setMove_keepW, moveAgain_keepW, askFastLine_keepW] | split

theorem gapRelease_keepW (s : State) : keepW (gapRelease s) = keepW s := by
  unfold gapRelease
  simp only [keepW_mk, keepW_foldl, implies_true, drainLine_keepW]

theorem drainEnd_keepW (d : Drain) (s : State) : keepW (drainEnd d s) = keepW s := by
  unfold drainEnd
  simp only [keepW_mk, lineClean_keepW, moveStep_keepW, gapRelease_keepW]

theorem gapStart_keepW (d : Drain) (s : State) : keepW (gapStart d s) = keepW s := by
  unfold gapStart
  repeat' first | simp only [keepW_mk, keepW_ite, ite_self, askStage_keepW, fastRead_keepW, poisonFind_keepW, mergeRead_keepW, drainEnd_keepW] | split

theorem moveLate_keepW (lln : Nat) (s : State) : keepW (moveLate lln s) = keepW s := by
  unfold moveLate
  simp only [moveStep_keepW, setMove_keepW]

theorem fastDone_keepW (d : Drain) (s : State) : keepW (fastDone d s).2 = keepW s := by
  unfold fastDone
  simp only [keepW_mk, keepW_ite, apply_ite Prod.snd, ite_self, fsTouch_keepW, wearBy_keepW, fsSet_keepW]

theorem gapCommit_keepW (d : Drain) (s : State) : keepW (gapCommit d s) = keepW s := by
  unfold gapCommit
  simp only [keepW_mk, keepW_ite, ite_self, descWrite_keepW, wearBy_keepW, fsSet_keepW]

theorem piRemove_keepW (x0 : PiEnt) (s : State) : keepW (piRemove x0 s) = keepW s := by
  unfold piRemove
  simp only [piDrop_keepW]

theorem piInsert_keepW (e : PiEnt) (s : State) : keepW (piInsert e s).2 = keepW s := by
  unfold piInsert
  repeat' first | simp only [keepW_mk, keepW_ite, ite_self, fire_keepW, hbmWrite_keepW, piRemove_keepW, piNote_keepW] | split

theorem indexPatch_keepW (e : PiEnt) (t : BitVec 64) (s : State) : keepW (indexPatch e t s).2 = keepW s := by
  unfold indexPatch
  simp only [keepW_mk, piInsert_keepW]

theorem patchDone_keepW (d : Drain) (s : State) : keepW (patchDone d s).2 = keepW s := by
  unfold patchDone
  simp only [keepW_ite, apply_ite Prod.snd, ite_self, markRescan_keepW, event_keepW, commitQuiet_keepW, logPressure_keepW, makeDue_keepW, piTouch_keepW, fsumRefresh_keepW, indexPatch_keepW]

theorem drainTo_keepW (d : Drain) (n : Nat) (s : State) : keepW (drainTo d n s) = keepW s := by
  unfold drainTo
  simp only [keepW_mk, keepW_ite, ite_self, askStage_keepW, gapStart_keepW, drainEnd_keepW, moveLate_keepW, fastDone_keepW, gapCommit_keepW, drainDrop_keepW, patchDone_keepW]

theorem drainRetry_keepW (lln : Nat) (s : State) : keepW (drainRetry lln s) = keepW s := by
  unfold drainRetry
  repeat' first | simp only [flagMissed_keepW, drainTo_keepW] | split

theorem progLost_keepW (p : CProg) (s : State) : keepW (progLost p s) = keepW s := by
  unfold progLost
  repeat' first | simp only [moveLost_keepW, abandonBatch_keepW, setBand_keepW, drainRetry_keepW] | split

theorem endWindows_keepW (ch : Nat) (hit : Nat → Nat → Bool) (s : State) : keepW (endWindows ch hit s) = keepW s := by
  unfold endWindows
  simp only [keepW_foldl, implies_true, setCart_keepW, progLost_keepW]

theorem startPromotion_keepW (lfn : Nat) (pin : Bool) (job : Option (BitVec 16)) (s : State) : keepW (startPromotion lfn pin job s) = keepW s := by
  unfold startPromotion
  repeat' first | simp only [keepW_mk, markInflight_keepW, commitQuiet_keepW, startMove_keepW] | split

theorem stagingKept_keepW (needed : Bool) (s : State) : keepW (stagingKept needed s) = keepW s := by
  unfold stagingKept
  simp only [keepW_mk]

theorem startStaging_keepW (lfn : Nat) (s : State) : keepW (startStaging lfn s) = keepW s := by
  unfold startStaging
  repeat' first | simp only [keepW_ite, startPromotion_keepW, startMove_keepW] | split

theorem stage_keepW (s : State) : keepW (stage s) = keepW s := by
  unfold stage
  repeat' first | simp only [keepW_mk, keepW_foldl, keepW_ite, ite_self, implies_true, stagingKept_keepW, startStaging_keepW] | split

theorem emptyAll_keepW (mode : Nat) (ls : List Nat) (s : State) : keepW (emptyAll mode ls s) = keepW s := by
  unfold emptyAll
  simp only [keepW_foldl, keepW_ite, ite_self, implies_true, emptyFrame_keepW]

theorem poisonDel_keepW (lln : Nat) (s : State) : keepW (poisonDel lln s) = keepW s := by
  unfold poisonDel
  split
  · rfl
  · exact keepW_mk rfl rfl rfl rfl rfl (map_ldCore_lmod _ _ (fun _ => rfl)) rfl rfl rfl rfl rfl

theorem countWrite_keepW (lfn : Nat) (s : State) : keepW (countWrite lfn s) = keepW s := by
  unfold countWrite
  simp only [keepW_mk]

theorem storeWrite_keepW (lln : Nat) (data : Line) (be : BitVec 64) (poisoned : Bool) (s : State) : keepW (storeWrite lln data be poisoned s) = keepW s := by
  unfold storeWrite
  simp only [keepW_mk, keepW_ite, ite_self, poisonDel_keepW, dropPrefetch_keepW, countWrite_keepW, poisonAdd_keepW, ncWrite_keepW]

/-! ### The parts one by one -/

section
variable {s u : State} (h : keepW u = keepW s)
include h

theorem ftime_of_keepW : u.time.ftime = s.time.ftime := congrArg (fun x => x.1) h
theorem stage_of_keepW : u.tt.stage = s.tt.stage := congrArg (fun x => x.2.1) h
theorem nextJob_of_keepW : u.unit.nextJob = s.unit.nextJob := congrArg (fun x => x.2.2.1) h
theorem memoryActive_of_keepW : u.host.memoryActive = s.host.memoryActive := congrArg (fun x => x.2.2.2.1) h
theorem ports_of_keepW : u.host.ports = s.host.ports := congrArg (fun x => x.2.2.2.2.1) h
theorem lds_of_keepW : u.host.lds.map ldCore = s.host.lds.map ldCore := congrArg (fun x => x.2.2.2.2.2.1) h
theorem stack_of_keepW : u.media.stack = s.media.stack := congrArg (fun x => x.2.2.2.2.2.2.1) h
theorem banks_of_keepW : u.media.banks = s.media.banks := congrArg (fun x => x.2.2.2.2.2.2.2.1) h
theorem through_of_keepW : u.write.through = s.write.through := congrArg (fun x => x.2.2.2.2.2.2.2.2.1) h
theorem desc_of_keepW : u.span.desc = s.span.desc := congrArg (fun x => x.2.2.2.2.2.2.2.2.2.1) h
theorem phase_of_keepW : u.start.phase = s.start.phase := congrArg (fun x => x.2.2.2.2.2.2.2.2.2.2) h

theorem count_of_keepW : u.host.lds.length = s.host.lds.length := by
  have hlen := congrArg List.length (lds_of_keepW h)
  rwa [List.length_map, List.length_map] at hlen

theorem ld_of_keepW (i : Nat) : ldCore (ldOf u i) = ldCore (ldOf s i) := by
  have hget := congrArg (fun l : List Ld => l.getD i (ldCore {})) (lds_of_keepW h)
  have hmap (l : List Ld) : (l.map ldCore).getD i (ldCore {}) = ldCore (l.getD i {}) := by
    rw [List.getD_eq_getElem?_getD, List.getElem?_map, List.getD_eq_getElem?_getD]
    cases l[i]? <;> rfl
  exact (hmap _).symm.trans (hget.trans (hmap _))

theorem credits_of_keepW (i : Nat) : (ldOf u i).credits = (ldOf s i).credits := (congrArg Ld.credits (ld_of_keepW h i) :)
theorem ranges_of_keepW (i : Nat) : (ldOf u i).ranges = (ldOf s i).ranges := (congrArg Ld.ranges (ld_of_keepW h i) :)
theorem mode_of_keepW (i : Nat) : (ldOf u i).mode = (ldOf s i).mode := (congrArg Ld.mode (ld_of_keepW h i) :)

end

end Sys2Proof.Machine
end

section
/-! SUPPORT. Writes of the hosts (R14, R46, R157, R161, R182), with O27 assembled from it. -/

namespace Sys2Proof.Machine

section
variable {s : State} {p : Fin 4} {l : Fin 16} {hpa : BitVec 64} {tag : BitVec 16} {data : Line} {be : BitVec 64} {poisoned : Bool} {i : Nat}

/-- An LD with one credit less. -/
def creditTaken (i : Nat) (s : State) : State := setLd i (fun d => { d with credits := d.credits - 1 }) s

theorem memWrite_flushing (hflush : flushListed s = true) : exec (.memWrite p l hpa tag data be poisoned) s = ran (begin s) := by
  refine (rfl : _ = execMemWrite p l hpa tag data be poisoned s).trans (if_pos ?_)
  have hflush' : flushListed (begin s) = true := hflush
  rw [hflush', Bool.or_true]

/-- A write taken, by what backs its address. -/
theorem memWrite_takes (htakes : takesMem s p l = true) (hcredit : 0 < (ldOf s (16 * p.val + l.val)).credits) (hflush : flushListed s = false) :
    exec (.memWrite p l hpa tag data be poisoned) s = (match backing (creditTaken (16 * p.val + l.val) (begin s)) (16 * p.val + l.val) hpa.toNat with
      | none => ran (unbackedWrite p l hpa.toNat tag (updLoad (creditTaken (16 * p.val + l.val) (begin s))))
      | some lln => ran (mediaNext (hostWrite p l tag lln data be poisoned (creditTaken (16 * p.val + l.val) (begin s))))) := by
  refine (rfl : _ = execMemWrite p l hpa tag data be poisoned s).trans ((if_neg ?_).trans rfl)
  have hflush' : flushListed (begin s) = false := hflush
  have hcredit' : ((ldOf (begin s) (ldIx p l)).credits == 0) = false := beq_eq_false_iff_ne.2 (Nat.ne_of_gt hcredit)
  rw [takesMem_begin htakes, hcredit', hflush']
  exact Bool.false_ne_true

theorem creditTaken_ld (hget : s.host.lds[i]? = some (ldOf s i)) : ldOf (creditTaken i s) i = { ldOf s i with credits := (ldOf s i).credits - 1 } :=
  ldOf_setLd_self _ (lt_of_getElem?_eq hget)

/-- The credit taken does not change what backs an address. -/
theorem backing_creditTaken (hget : s.host.lds[i]? = some (ldOf s i)) (a : Nat) : backing (creditTaken i s) i a = backing s i a := by
  have hld := creditTaken_ld hget
  unfold backing
  rw [hld]
  rfl

theorem updLoad_host (s : State) : (updLoad s).host = s.host := rfl

theorem updLoad_sections (s : State) : (updLoad s).cache = s.cache ∧ (updLoad s).media = s.media ∧ (updLoad s).xlat = s.xlat := ⟨rfl, rfl, rfl⟩

/-- The credit taken at the start of a write's step. -/
theorem creditTaken_begin (hget : s.host.lds[i]? = some (ldOf s i)) : (ldOf (creditTaken i (begin s)) i).credits = (ldOf s i).credits - 1 ∧
    (ldOf (creditTaken i (begin s)) i).mode = (ldOf s i).mode ∧ (∀ a, backing (creditTaken i (begin s)) i a = backing s i a) := by
  have hld : ldOf (creditTaken i (begin s)) i = { ldOf s i with credits := (ldOf s i).credits - 1 } := creditTaken_ld (s := begin s) hget
  have hback : ∀ a, backing (creditTaken i (begin s)) i a = backing (begin s) i a := fun a => backing_creditTaken (s := begin s) hget a
  exact ⟨by rw [hld], by rw [hld], hback⟩

theorem creditTaken_sections (i : Nat) (s : State) : (creditTaken i (begin s)).cache = s.cache ∧ (creditTaken i (begin s)).media = s.media ∧
    (creditTaken i (begin s)).xlat = s.xlat ∧ (creditTaken i (begin s)).write = s.write ∧ (creditTaken i (begin s)).span = s.span := ⟨rfl, rfl, rfl, rfl, rfl⟩

theorem send_sections (s : State) (o : Out) : (send s o).cache = s.cache ∧ (send s o).media = s.media ∧ (send s o).xlat = s.xlat := ⟨rfl, rfl, rfl⟩

theorem unbackedWrite_sends (a : Nat) : ∃ dl, unbackedWrite p l a tag s = send (unbackedEvent p (16 * p.val + l.val) a s) (.memWrite p (16 * p.val + l.val) tag dl) := ⟨_, rfl⟩

theorem unbackedEvent_heralds (n a : Nat) (s : State) : Heralds s (unbackedEvent n i a s) := event_heralds _ _

theorem write_unbacked (htakes : takesMem s p l = true) (hcredit : 0 < (ldOf s (16 * p.val + l.val)).credits) (hflush : flushListed s = false)
    (hget : s.host.lds[16 * p.val + l.val]? = some (ldOf s (16 * p.val + l.val))) (hback : backing s (16 * p.val + l.val) hpa.toNat = none) :
    Ends (.memWrite p l hpa tag data be poisoned) s (fun u => (∃ dl, .memWrite p (16 * p.val + l.val) tag dl ∈ u.out) ∧
      (ldOf u (16 * p.val + l.val)).credits = (ldOf s (16 * p.val + l.val)).credits - 1 ∧ u.cache = s.cache ∧ u.media = s.media ∧ u.xlat = s.xlat) := by
  have hrun := memWrite_takes (hpa := hpa) (tag := tag) (data := data) (be := be) (poisoned := poisoned) htakes hcredit hflush
  obtain ⟨hcredits, -, hbacks⟩ := creditTaken_begin hget
  obtain ⟨hcache, hmedia, hxlat, -, -⟩ := creditTaken_sections (16 * p.val + l.val) s
  rw [hbacks, hback] at hrun
  dsimp only at hrun
  generalize creditTaken (16 * p.val + l.val) (begin s) = t₀ at hrun hcredits hcache hmedia hxlat
  obtain ⟨hcache', hmedia', hxlat'⟩ := updLoad_sections t₀
  have hload := ldOf_of_host (updLoad_host t₀) (16 * p.val + l.val)
  generalize updLoad t₀ = t at hrun hload hcache' hmedia' hxlat'
  obtain ⟨dl, hsend⟩ := unbackedWrite_sends (s := t) (p := p) (l := l) (tag := tag) hpa.toNat
  rw [hsend] at hrun
  have hher := unbackedEvent_heralds (i := 16 * p.val + l.val) p hpa.toNat t
  generalize unbackedEvent p (16 * p.val + l.val) hpa.toNat t = v at hrun hher
  obtain ⟨hcache'', hmedia'', hxlat''⟩ := send_sections v (.memWrite p (16 * p.val + l.val) tag dl)
  exact ends_of_ran hrun ⟨⟨dl, List.mem_append_right _ (List.mem_singleton_self _)⟩,
    (congrArg Ld.credits (ldOf_of_host (send_host v _) _)).trans ((hher.logsAlone.credits _).trans ((congrArg Ld.credits hload).trans hcredits)),
    hcache''.trans ((cache_of_keepE hher.keep).trans (hcache'.trans hcache)), hmedia''.trans ((media_of_keepE hher.keep).trans (hmedia'.trans hmedia)), hxlat''.trans ((xlat_of_keepE hher.keep).trans (hxlat'.trans hxlat))⟩

/-! ### A backed write -/

/-- The records of a write, and the state with them sent. -/
def writeStreams (mode : CommitMode) (lln : Nat) (data : Line) (be : BitVec 64) (poisoned : Bool) (s : State) : List (Nat × BitVec 48) × State :=
  if mode = .loc ∨ s.span.desc.isNone then ([], s)
  else streamAll (writeRecord lln (writeLine s lln data be poisoned) (if poisoned then BitVec.allOnes 64 else be)) (mode == .strict) s

theorem Posts.keepW {u : State} (h : Posts s u) : keepW u = keepW s := by
  obtain ⟨o, e, ps, ss, n, rfl⟩ := h
  rfl

theorem writeStreams_keepW (mode : CommitMode) (lln : Nat) : keepW (writeStreams mode lln data be poisoned s).2 = keepW s := by
  unfold writeStreams
  split
  · rfl
  · exact (streamAll_posts _ _ _).keepW

/-- What follows the streams: the exposed records, then the load. -/
def writeExposes (i : Nat) (rn : List (Nat × BitVec 48)) (s : State) : State :=
  updLoad (setLd i (fun d => if d.exposedOut = [] then d else { d with exposedOut := d.exposedOut ++ strictLeft s rn }) s)

theorem writeExposes_keepW (rn : List (Nat × BitVec 48)) : keepW (writeExposes i rn s) = keepW s :=
  (updLoad_keepW _).trans (keepW_mk rfl rfl rfl rfl rfl (map_ldCore_lmod _ _ (fun d => by split <;> rfl)) rfl rfl rfl rfl rfl)

theorem hostWrite_completes {lln : Nat} (hmode : (ldOf s (16 * p.val + l.val)).mode ≠ .strict ∨ s.span.desc = none) (hthrough : s.write.through = false) :
    ∃ t dl, hostWrite p l tag lln data be poisoned s = send t (.memWrite p (16 * p.val + l.val) tag dl) ∧ keepW t = keepW s := by
  have hstore : keepW (storeWrite lln data be poisoned s) = keepW s := storeWrite_keepW _ _ _ _ _
  let mode := (ldOf s (ldIx p l)).mode
  let r := writeStreams mode lln data be poisoned (storeWrite lln data be poisoned s)
  have hkept : keepW (writeExposes (ldIx p l) r.1 r.2) = keepW s := (writeExposes_keepW r.1).trans ((writeStreams_keepW mode lln).trans hstore)
  have hnone : ¬ (mode = .strict ∧ strictLeft (writeExposes (ldIx p l) r.1 r.2) r.1 ≠ []) := by
    rintro ⟨hstrict, hleft⟩
    obtain h | h := hmode
    · exact h hstrict
    · have hdesc : (storeWrite lln data be poisoned s).span.desc.isNone = true := by rw [desc_of_keepW hstore, h]; rfl
      have hr : r = ([], storeWrite lln data be poisoned s) := if_pos (.inr hdesc)
      exact hleft (by rw [hr]; rfl)
  have hoff : ¬ (writeExposes (ldIx p l) r.1 r.2).write.through = true := by
    rw [through_of_keepW hkept, hthrough]
    exact Bool.false_ne_true
  refine ⟨writeExposes (ldIx p l) r.1 r.2, devLoad (writeExposes (ldIx p l) r.1 r.2), ?_, hkept⟩
  exact (rfl : hostWrite p l tag lln data be poisoned s = if mode = .strict ∧ strictLeft (writeExposes (ldIx p l) r.1 r.2) r.1 ≠ [] then _ else _).trans
    ((if_neg hnone).trans (if_neg hoff))

theorem write_backed {lln : Nat} (htakes : takesMem s p l = true) (hcredit : 0 < (ldOf s (16 * p.val + l.val)).credits) (hflush : flushListed s = false)
    (hget : s.host.lds[16 * p.val + l.val]? = some (ldOf s (16 * p.val + l.val))) (hback : backing s (16 * p.val + l.val) hpa.toNat = some lln)
    (hmode : (ldOf s (16 * p.val + l.val)).mode ≠ .strict ∨ s.span.desc = none) (hthrough : s.write.through = false) :
    Works (.memWrite p l hpa tag data be poisoned) s (fun u => (∃ dl, .memWrite p (16 * p.val + l.val) tag dl ∈ u.out) ∧
      (ldOf u (16 * p.val + l.val)).credits = (ldOf s (16 * p.val + l.val)).credits - 1) := by
  have hrun := memWrite_takes (hpa := hpa) (tag := tag) (data := data) (be := be) (poisoned := poisoned) htakes hcredit hflush
  obtain ⟨hcredits, hmodes, hbacks⟩ := creditTaken_begin hget
  obtain ⟨-, -, -, hwrite, hspan⟩ := creditTaken_sections (16 * p.val + l.val) s
  rw [hbacks, hback] at hrun
  dsimp only at hrun
  generalize creditTaken (16 * p.val + l.val) (begin s) = t₀ at hrun hcredits hmodes hwrite hspan
  rw [← hmodes, ← hspan] at hmode
  rw [← hwrite] at hthrough
  obtain ⟨t, dl, hsend, hkept⟩ := hostWrite_completes (p := p) (l := l) (tag := tag) (data := data) (be := be) (poisoned := poisoned) (lln := lln) hmode hthrough
  refine ⟨_, hrun, ⟨dl, ?_⟩, ?_⟩
  · rw [hsend]
    exact List.mem_append_right _ (List.mem_singleton_self _)
  · rw [hsend]
    exact (credits_of_keepW hkept _).trans hcredits

end

/-- Settles O27: by the flush, then by what backs the address; a backed write completes since storing it leaves write-through and the span alone. -/
theorem memWriteTakesCreditAndCompletes : Obligations.MemWriteTakesCreditAndCompletes := by
  unfold Obligations.MemWriteTakesCreditAndCompletes
  intro s p l hpa tag data be poisoned htakes i hcredit hget
  exact ⟨fun hflush => ends_of_ran (memWrite_flushing hflush) rfl, fun hflush hback => write_unbacked htakes hcredit hflush hget hback,
    fun lln hflush hback hmode hthrough => write_backed htakes hcredit hflush hget hback hmode hthrough⟩

end Sys2Proof.Machine
end

section
/-! SUPPORT. Features, calibration, training and resets of a stack (R227, R243, R249), with O35 assembled from it. -/

namespace Sys2Proof.Machine

section
variable {s t u : State} {ch : Fin 32} {p : Pkt}

/-- Stack `ch` becomes `y`; the other stacks, the banks and the lines stay. -/
def OnlyStack (s : State) (ch : Nat) (y : Stack) (u : State) : Prop :=
  stackOf u ch = y ∧ (∀ c, c ≠ ch → stackOf u c = stackOf s c) ∧ u.media.banks = s.media.banks ∧ u.media.lines = s.media.lines

theorem setStack_only (ch : Nat) (f : Stack → Stack) (s : State) : OnlyStack s ch (f (stackOf s ch)) (setStack ch f s) :=
  ⟨stackOf_setStack_self ch f s, fun _ hc => stackOf_setStack_ne f s hc, rfl, rfl⟩

/-- An accepted packet that sets its stack. -/
theorem Accepted.sets {i : Instr} {op : Nat} {f : Stack → Stack} (h : Accepted s ch op p) (hi : exec i s = ran (onPacket ch op p (setStack ch f) (begin s)))
    {y : Stack} (hy : f (stackOf s ch) = y) : Ends i s (OnlyStack s ch y) := by
  subst hy
  exact h.ends hi (setStack_only ch f (begin s))

/-- What SETF sets. -/
def featureSet (p : Pkt) (k : Stack) : Stack :=
  let v := BitVec.ofNat 8 p.addr.toNat
  match p.arg.toNat with
  | 0 => { k with fullRate := v.getLsbD 0 }
  | 1 => { k with drive := v }
  | 2 => { k with odt := v }
  | 3 => { k with vrefdq := v }
  | 4 => { k with therm := sset 95 k.therm p.die.toNat v }
  | _ => k

theorem setf_exec : exec (.setf ch p) s = ran (onPacket ch 0x35 p (setStack ch (featureSet p)) (begin s)) := rfl

theorem featureSet_rate (h : p.arg = 0) (k : Stack) : featureSet p k = { k with fullRate := p.addr.getLsbD 0 } := by
  have hbit : (BitVec.ofNat 8 p.addr.toNat).getLsbD 0 = p.addr.getLsbD 0 := by simp
  rw [← hbit]
  unfold featureSet
  rw [h]
  rfl

theorem featureSet_drive (h : p.arg = 1) (k : Stack) : featureSet p k = { k with drive := BitVec.ofNat 8 p.addr.toNat } := by
  unfold featureSet
  rw [h]
  rfl

theorem featureSet_therm (h : p.arg = 4) (k : Stack) : featureSet p k = { k with therm := sset 95 k.therm p.die.toNat (BitVec.ofNat 8 p.addr.toNat) } := by
  unfold featureSet
  rw [h]
  rfl

/-- What ZQCAL does to its stack. -/
def zqSet (p : Pkt) (k : Stack) : Stack :=
  if p.arg.getLsbD 0 then (if k.zqReady then { k with zqLatched := true, zqReady := false } else k)
  else { k with zqRunning := true, zqReady := false, zqLatched := false }

theorem zqcal_exec : exec (.zqcal ch p) s = ran (onPacket ch 0x40 p (setStack ch (zqSet p)) (begin s)) := rfl

theorem zqSet_starts (h : p.arg.getLsbD 0 = false) (k : Stack) : zqSet p k = { k with zqRunning := true, zqReady := false, zqLatched := false } :=
  if_neg (Bool.eq_false_iff.1 h)

theorem zqSet_latches (h : p.arg.getLsbD 0 = true) {k : Stack} (hready : k.zqReady = true) : zqSet p k = { k with zqReady := false, zqLatched := true } :=
  (if_pos h).trans (if_pos hready)

/-- The die that a DRESET resets. -/
def resetSet (p : Pkt) (k : Stack) : Stack := { k with resetting := if k.resetting.contains p.die.toNat then k.resetting else k.resetting ++ [p.die.toNat] }

theorem resetSet_new {k : Stack} (h : p.die.toNat ∉ k.resetting) : resetSet p k = { k with resetting := k.resetting ++ [p.die.toNat] } := by
  unfold resetSet
  rw [if_neg (fun hc => h (List.contains_iff_mem.1 hc))]

theorem unknownOpcode_acts {op : Byte} (h : Accepted s ch op.toNat p) (hop : knownOp op.toNat = false) : Ends (.mediaUnknownOpcode ch op p) s (fun u =>
    Queued s u ch (eventFrame p.tag p.die p.bank 0x09 op.toNat (bankOf s (bankKey ch p.die.toNat p.bank.toNat)).st 0) ∧ u.media.banks = s.media.banks) := by
  have hexec : exec (.mediaUnknownOpcode ch op p) s = ran (onPacket ch op.toNat p (illegalPkt ch op.toNat p) (begin s)) :=
    (rfl : _ = execMediaUnknownOpcode ch op p s).trans (congrArg ran (if_neg (Bool.eq_false_iff.1 hop)))
  exact h.ends hexec ⟨queueEvent_pkt ch p 0x09 op.toNat 0 (begin s), rfl⟩

/-! ### The ends of calibration, of initialization and of a reset -/

theorem stackOf_of_stack (h : u.media.stack = s.media.stack) (c : Nat) : stackOf u c = stackOf s c := congrArg (fun m : SMap Stack => sget ({} : Stack) m c) h

theorem bankOf_of_banks (h : u.media.banks = s.media.banks) (k : Nat) : bankOf u k = bankOf s k := congrArg (fun m : SMap BankSt => sget ({} : BankSt) m k) h

theorem askRaw_keepW (ch op die arg purpose : Nat) (s : State) : keepW (askRaw ch op die arg purpose s) = keepW s := by
  unfold askRaw
  split
  · exact keepW_mk rfl rfl rfl rfl rfl rfl rfl rfl rfl rfl rfl
  · exact (sendPkt_keepW ..).trans (keepW_mk rfl rfl rfl rfl rfl rfl rfl rfl rfl rfl rfl)

theorem trainTo_four_keepW (ch : Nat) (s : State) : keepW (trainTo ch 4 s) = keepW s := (sendPkt_keepW ..).trans (setCart_keepW ..)

theorem trainTo_five_keepW (ch : Nat) (s : State) : keepW (trainTo ch 5 s) = keepW s := by
  unfold trainTo
  simp only
  exact (keepW_foldl _ _ _ (fun _ _ => askRaw_keepW ..)).trans (setCart_keepW ..)

/-- Calibration done: the stack, before the channel goes on. -/
def zqDone (ch : Nat) (s : State) : State := setStack ch (fun k => { k with zqRunning := false, zqReady := true }) s

theorem tzqEnd_acts (h : (stackOf s ch).zqRunning = true) : Works (.tzqEnd ch) s (fun u => (stackOf u ch).zqRunning = false ∧ (stackOf u ch).zqReady = true) := by
  have hexec : ∃ u, exec (.tzqEnd ch) s = ran (mediaNext u) ∧ keepW u = keepW (zqDone ch (begin s)) := by
    refine ⟨_, (rfl : _ = execTzqEnd ch s).trans (if_neg ?_), ?_⟩
    · have h' : (stackOf (begin s) ch).zqRunning = true := h
      rw [h']
      exact Bool.false_ne_true
    · refine (apply_ite keepW _ _ _).trans ?_
      rw [trainTo_five_keepW, ite_self]
      refine (sendPkt_keepW ..).trans ((setCart_keepW ..).trans ?_)
      exact (drawBits_keepW 6 _).trans (drawBits_keepW 6 _)
  obtain ⟨u, hu, hkept⟩ := hexec
  have hstack : stackOf u ch = { stackOf s ch with zqRunning := false, zqReady := true } :=
    (stackOf_of_stack (stack_of_keepW hkept) ch).trans (stackOf_setStack_self ch _ (begin s))
  exact ⟨u, hu, congrArg Stack.zqRunning hstack, congrArg Stack.zqReady hstack⟩

theorem tinitEnd_acts (hp : (stackOf s ch).powered = true) (hm : (stackOf s ch).mreset = true) (ha : (stackOf s ch).accepting = false) :
    Ends (.tinitEnd ch) s (fun u => (stackOf u ch).accepting = true ∧ (stackOf u ch).fullRate = false ∧ (stackOf u ch).faults = []) := by
  have hexec : ∃ u, exec (.tinitEnd ch) s = ran u ∧
      keepW u = keepW (setStack ch (fun k => { k with accepting := true, fullRate := false, faults := [], resetting := [] }) (begin s)) := by
    have ha' : (!(stackOf (begin s) ch).accepting) = true := congrArg (!·) ha
    refine ⟨_, (rfl : _ = execTinitEnd ch s).trans (if_pos ⟨hp, hm, ha'⟩), (apply_ite keepW _ _ _).trans ?_⟩
    rw [trainTo_four_keepW, ite_self]
  obtain ⟨u, hu, hkept⟩ := hexec
  refine ends_of_ran hu ?_
  rw [stackOf_of_stack (stack_of_keepW hkept), stackOf_setStack_self]
  exact ⟨rfl, rfl, rfl⟩

/-- The banks of a die without their operations. -/
def dieDropped (ch die : Nat) (bs : List Nat) (s : State) : State := bs.foldl (fun s b => dropOps (bankKey ch die b) s) s

/-- A bank without operations. -/
def Dropped (s : State) (k : Nat) : Prop := (bankOf s k).st = .idle ∧ (bankOf s k).op = none ∧ (bankOf s k).running = []

theorem dropOps_dropped (k : Nat) (s : State) : Dropped (dropOps k s) k := by
  unfold Dropped dropOps
  rw [bankOf_setBank_self]
  exact ⟨rfl, rfl, rfl⟩

theorem Dropped.dropOps {j : Nat} (h : Dropped s j) (k : Nat) : Dropped (dropOps k s) j := by
  by_cases hjk : j = k
  · exact hjk ▸ dropOps_dropped k s
  · have hbank : bankOf (Machine.dropOps k s) j = bankOf s j := bankOf_setBank_ne _ s hjk
    unfold Dropped
    rw [hbank]
    exact h

theorem dieDropped_dropped {ch die b : Nat} (bs : List Nat) (hb : b ∈ bs) : Dropped (dieDropped ch die bs s) (bankKey ch die b) := by
  induction bs generalizing s with
  | nil => cases hb
  | cons a bs ih =>
    obtain rfl | hb := List.mem_cons.1 hb
    · exact List.foldlRecOn (motive := fun t => Dropped t (bankKey ch die b)) bs _ (dropOps_dropped _ s) (fun _ ht a _ => ht.dropOps _)
    · exact ih hb

theorem dieDropped_stack (ch die : Nat) (bs : List Nat) (s : State) : (dieDropped ch die bs s).media.stack = s.media.stack := by
  induction bs generalizing s with
  | nil => rfl
  | cons a bs ih => exact (ih (dropOps (bankKey ch die a) s)).trans rfl

/-- The reset of a die ended with its fault cleared: banks and stack. -/
def dieBack (ch die : Nat) (s : State) : State :=
  setStack ch (fun k => { k with resetting := k.resetting.filter (fun d => d != die), faults := k.faults.filter (fun d => d != die) })
    (dieDropped ch die (List.range 8) s)

theorem dieBack_stack (ch die : Nat) (s : State) : die ∉ (stackOf (dieBack ch die s) ch).resetting ∧ die ∉ (stackOf (dieBack ch die s) ch).faults := by
  have hgone (l : List Nat) : die ∉ l.filter (fun d => d != die) := fun h => bne_iff_ne.1 (List.mem_filter.1 h).2 rfl
  rw [dieBack, stackOf_setStack_self]
  exact ⟨hgone _, hgone _⟩

theorem setStack_banks (ch : Nat) (f : Stack → Stack) (s : State) : (setStack ch f s).media.banks = s.media.banks := rfl

theorem dieBack_banks {ch die b : Nat} (hb : b < 8) : Dropped (dieBack ch die s) (bankKey ch die b) := by
  have hdropped := dieDropped_dropped (s := s) (ch := ch) (die := die) (List.range 8) (List.mem_range.2 hb)
  unfold Dropped at hdropped ⊢
  rw [dieBack, bankOf_of_banks (setStack_banks _ _ _)]
  exact hdropped

/-- What follows in the channel's sequencer. -/
def dieFollows (ch : Nat) (die : Nat) (s : State) : State :=
  let s := endWindows ch (fun d _ => d == die) s
  let kept := (stackOf s ch).ready ++ (stackOf s ch).pendInfo
  let s := setCart ch (fun c => { c with stale := c.stale.filter (fun r => r.2 != die || kept.any (fun f => f.tag == r.1)) }) s
  if (cartOf s ch).trained ∧ inService (ownState s (uDie (dieKey ch die))) then
    setCart ch (fun c => { c with diesReady := setBit c.diesReady die true }) s else s

theorem dieFollows_keepW (ch die : Nat) (s : State) : keepW (dieFollows ch die s) = keepW s := by
  refine (apply_ite keepW _ _ _).trans ?_
  rw [setCart_keepW, ite_self, setCart_keepW, endWindows_keepW]

theorem tdrstEnd_exec {die : Fin 16} (h : die.val ∈ (stackOf s ch).resetting) : exec (.tdrstEnd ch die true) s = ran (mediaNext (dieFollows ch die (dieBack ch die (begin s)))) := by
  have hin : (!(stackOf (begin s) ch).resetting.contains die.val) = false := congrArg (!·) (List.contains_iff_mem.2 h : (stackOf s ch).resetting.contains die.val = true)
  unfold dieFollows dieBack dieDropped
  generalize hls : List.range 8 = ls
  refine (rfl : _ = execTdrstEnd ch die true s).trans ?_
  unfold execTdrstEnd
  rw [hls]
  simp only [hin, Bool.false_eq_true, if_false, Bool.not_true, and_false, true_and, if_true]

theorem tdrstEnd_acts {die : Fin 16} (h : die.val ∈ (stackOf s ch).resetting) : Works (.tdrstEnd ch die true) s (fun u =>
    die.val ∉ (stackOf u ch).resetting ∧ die.val ∉ (stackOf u ch).faults ∧
      ∀ bank : Fin 8, (bankOf u (bankKey ch die bank)).st = .idle ∧ (bankOf u (bankKey ch die bank)).op = none ∧ (bankOf u (bankKey ch die bank)).running = []) := by
  have hexec := tdrstEnd_exec h
  have hkept := dieFollows_keepW ch die (dieBack ch die (begin s))
  obtain ⟨hreset, hfault⟩ := dieBack_stack ch die (begin s)
  have hbanks : ∀ bank : Fin 8, Dropped (dieBack ch die (begin s)) (bankKey ch die bank) := fun bank => dieBack_banks bank.isLt
  generalize dieBack ch die (begin s) = v at hexec hkept hreset hfault hbanks
  generalize dieFollows ch die v = u at hexec hkept
  have hstack := stackOf_of_stack (stack_of_keepW hkept) ch
  refine ⟨u, hexec, hstack ▸ hreset, hstack ▸ hfault, fun bank => ?_⟩
  rw [bankOf_of_banks (banks_of_keepW hkept)]
  exact hbanks bank

end

/-- Settles O35: packets by `Accepted.sets`; the ends by what the channel's sequencer then leaves alone. -/
theorem stackSettingsAndResets : Obligations.StackSettingsAndResets := by
  unfold Obligations.StackSettingsAndResets
  intro s ch p
  refine ⟨fun h => ⟨fun h0 => h.sets setf_exec (featureSet_rate h0 _), fun h1 => h.sets setf_exec (featureSet_drive h1 _), fun h4 => ?_⟩,
    fun h h0 => h.sets zqcal_exec (zqSet_starts h0 _), fun h h1 hready => h.sets zqcal_exec (zqSet_latches h1 hready),
    fun h => h.sets (f := fun k => { k with catrain := p.arg.getLsbD 0 }) rfl rfl, fun d h => h.sets (f := fun k => { k with train := d }) rfl rfl,
    fun h hnew => h.sets (f := resetSet p) rfl (resetSet_new hnew), fun op h hop => unknownOpcode_acts h hop, fun h => tzqEnd_acts h,
    fun hp hm ha => tinitEnd_acts hp hm ha, fun die hin => ?_, fun die hout c => ?_⟩
  · refine h.ends setf_exec ?_
    rw [stackOf_setStack_self, featureSet_therm h4]
    exact sget_sset_self ..
  · exact tdrstEnd_acts hin
  · have hin : (!(stackOf (begin s) ch).resetting.contains die.val) = true := by
      rw [Bool.not_eq_true']
      exact Bool.eq_false_iff.2 (fun h => hout (List.contains_iff_mem.1 h))
    exact ends_of_ran ((rfl : _ = execTdrstEnd ch die c s).trans (if_pos hin)) rfl

end Sys2Proof.Machine
end

section
/-! SUPPORT. The supply and the resets (R532, R537, R587 to R590, R666). -/

namespace Sys2Proof.Machine

/-! ### What a reset takes down -/

section
variable {s t u : State}

theorem start_of_setPower (f : PowerSt → PowerSt) (s : State) : (setPower f s).start = s.start := rfl

theorem flushPlace_start {k : Nat} (h : flushPlace s = some (k, t)) : t.start = s.start := by
  unfold flushPlace at h
  extract_lets last up fresh at h
  have hfresh : ∀ k t, fresh = some (k, t) → t.start = s.start := by
    intro k t h
    simp only [fresh] at h
    split at h
    · cases h
    · cases h
      exact (start_of_keepM (takeSet_keepM ..)).trans rfl
  clear_value fresh last
  split at h
  · split at h
    · cases h
      rfl
    · exact hfresh _ _ h
  · exact hfresh _ _ h

theorem flushSegment_start (ctr : Nat) (last : Bool) (lines : List (Nat × Line × BitVec 64)) (s : State) : (flushSegment ctr last lines s).start = s.start := by
  unfold flushSegment
  split
  · rfl
  · next k t h =>
    extract_lets us g s1 ds s2 s3
    have h1 : s1.start = t.start := start_of_keepM (placeSeg_keepM ..)
    have h2 : s2.start = s1.start := rfl
    clear_value s2
    have h3 : keepM s3 = keepM s2 := keepM_foldl _ _ _ (fun s i => by
      split
      · exact segPut_keepM ..
      · rfl)
    have h4 := keepM_foldl (fun s i => segPut k (56 + i) (mediaLine (dirLine s k (8 * i)) 0x5044) s) (List.range 7) s3 (fun s i => segPut_keepM ..)
    exact (start_of_keepM h4).trans ((start_of_keepM h3).trans (h2.trans (h1.trans (flushPlace_start h))))

theorem flushSegments_start (lines : List (Nat × Line × BitVec 64)) (s : State) : (flushSegments lines s).start = s.start :=
  List.foldlRecOn (motive := fun a : Nat × State => a.2.start = s.start) _ _ rfl (fun _ ha _ _ => (flushSegment_start ..).trans ha)

theorem flushCut_start (s : State) : (flushCut s).start = s.start := by
  have hready : (drawBits 32 (flushReady s)).2.start = s.start := start_of_keepM ((drawBits_keepM 32 _).trans (flushReady_keepM s))
  unfold flushCut
  split
  · rfl
  · dsimp only
    split
    · exact hready
    · exact (flushSegments_start ..).trans hready

theorem mainDown_start (s : State) : (mainDown s).start = s.start := by
  unfold mainDown
  extract_lets t own t'
  have ht : t.start = s.start := rfl
  have hk : keepM t' = keepM t := keepM_foldl _ _ _ (fun u c => stackDown_keepM ..)
  clear_value t' t
  exact (start_of_keepM hk).trans ht

/-- What a cold reset leaves. -/
structure Cold (fuse : Bool) (u : State) : Prop where
  sillUp : u.start.sillUp = true
  mode : u.time.mode = .freeRun
  unbounded : u.time.unbounded = true
  seq : u.power.seq = .off
  enable : u.power.enable = 0
  fuse : u.sec.pl2Fuse = fuse
  armed : u.evt.armed = []
  running : u.unit.running = []
  inactive : u.host.memoryActive = false

theorem Cold.heralds {fuse : Bool} (h : Cold fuse s) (hsu : Heralds s u) : Cold fuse u where
  sillUp := (congrArg StartSt.sillUp (start_of_keepE hsu.keep)).trans h.sillUp
  mode := (congrArg TimeSt.mode (time_of_keepE hsu.keep)).trans h.mode
  unbounded := (congrArg TimeSt.unbounded (time_of_keepE hsu.keep)).trans h.unbounded
  seq := (congrArg PowerSt.seq (power_of_keepE hsu.keep)).trans h.seq
  enable := (congrArg PowerSt.enable (power_of_keepE hsu.keep)).trans h.enable
  fuse := (congrArg SecSt.pl2Fuse (sec_of_keepE hsu.keep)).trans h.fuse
  armed := List.eq_nil_iff_forall_not_mem.2 (fun a ha => List.not_mem_nil (h.armed ▸ hsu.armed a ha))
  running := (congrArg UnitSt.running (unit_of_keepE hsu.keep)).trans h.running
  inactive := hsu.hostKept.memoryActive.trans h.inactive

/-- A cold reset in terms of the state with the main domains down. -/
theorem coldReset_parts (s : State) : ∃ t, t = mainDown (flushCut s) ∧ (coldReset s).start.sillUp = t.start.sillUp ∧ (coldReset s).time.mode = .freeRun ∧
    (coldReset s).time.unbounded = true ∧ (coldReset s).power.seq = .off ∧ (coldReset s).power.enable = 0 ∧ (coldReset s).sec.pl2Fuse = t.sec.pl2Fuse ∧
    (coldReset s).evt.armed = [] ∧ (coldReset s).unit.running = [] ∧ (coldReset s).host.memoryActive = t.host.memoryActive ∧ (coldReset s).sb.queue = [] := by
  refine ⟨_, rfl, ?_⟩
  unfold coldReset
  generalize mainDown (flushCut s) = t
  exact ⟨rfl, rfl, rfl, rfl, rfl, rfl, rfl, rfl, rfl, rfl⟩

theorem coldReset_sillUp (s : State) : (coldReset s).start.sillUp = s.start.sillUp := by
  obtain ⟨t, rfl, h, -⟩ := coldReset_parts s
  exact h.trans (congrArg StartSt.sillUp ((mainDown_start _).trans (flushCut_start s)))

theorem coldReset_cold (h : s.start.sillUp = true) : Cold s.sec.pl2Fuse (coldReset s) := by
  have hup := (coldReset_sillUp s).trans h
  have hsec : (mainDown (flushCut s)).sec = s.sec := (congrArg (fun x => x.2.2) ((mainDown_keepS _).trans (flushCut_keepS s)) :)
  obtain ⟨hinactive, -⟩ := mainDown_host (flushCut s)
  obtain ⟨t, rfl, -, hmode, hun, hseq, hen, hfuse, harm, hrun, hact, -⟩ := coldReset_parts s
  exact ⟨hup, hmode, hun, hseq, hen, hfuse.trans (congrArg SecSt.pl2Fuse hsec), harm, hrun, hact.trans hinactive⟩

theorem sillBoot_recorded {fuse : Bool} (h : Cold fuse s) : ∃ e, e.code = 0x0002 ∧ Recorded e (sillBoot s) (Cold fuse) :=
  ⟨_, rfl, saveSteps s, rfl, h.heralds ((Heralds.refl s).sbEnqueue _)⟩

/-! ### The supply -/

/-- The supply measured, before the writes that wait go on. -/
def vauxMeasured (mv : BitVec 12) (s : State) : State :=
  { s with sb := { s.sb with
    vauxMv := mv, vauxOk := Nat.ble 3000 mv.toNat, reserveOk := s.sb.reserveOk && Nat.ble 3000 mv.toNat, low := Nat.blt mv.toNat 3200
    bandChg := s.sb.bandChg || (s.start.sillUp && Nat.blt mv.toNat 3200 != s.sb.low) } }

theorem setVaux_eq (mv : BitVec 12) (s : State) : setVaux mv s = sbStart (vauxMeasured mv s) := rfl

theorem setVaux_heralds (mv : BitVec 12) (s : State) : Heralds (vauxMeasured mv s) (setVaux mv s) := (Heralds.refl _).sbStart

/-- The registers of the supply as it was measured. -/
theorem setVaux_registers (mv : BitVec 12) (s : State) : (setVaux mv s).sb.vauxMv = mv ∧ (setVaux mv s).sb.vauxOk = Nat.ble 3000 mv.toNat ∧
    (setVaux mv s).sb.reserveOk = (s.sb.reserveOk && Nat.ble 3000 mv.toNat) ∧ (setVaux mv s).sb.low = Nat.blt mv.toNat 3200 ∧
    (setVaux mv s).sb.bandChg = (s.sb.bandChg || (s.start.sillUp && Nat.blt mv.toNat 3200 != s.sb.low)) := by
  have hsb := (setVaux_heralds mv s).sb
  generalize setVaux mv s = u at hsb
  exact ⟨congrArg SbSt.vauxMv hsb, congrArg SbSt.vauxOk hsb, congrArg SbSt.reserveOk hsb, congrArg SbSt.low hsb, congrArg SbSt.bandChg hsb⟩

theorem Cold.vaux {fuse : Bool} (h : Cold fuse s) (mv : BitVec 12) : Cold fuse (setVaux mv s) :=
  Cold.heralds (s := vauxMeasured mv s) ⟨h.sillUp, h.mode, h.unbounded, h.seq, h.enable, h.fuse, h.armed, h.running, h.inactive⟩ (setVaux_heralds mv s)

theorem sbAbandon_sb (r : SbReq) (s : State) : (sbAbandon s r).sb = { s.sb with abandon := satInc s.sb.abandon, abandonFlag := true } := by
  cases r <;> rfl

/-- With too little supply no write starts: all that wait are abandoned. -/
theorem sbStartFrom_stuck (rs : List SbReq) (h : sbCanStart s = false) : (sbStartFrom rs s).sb.queue = [] ∧ (sbStartFrom rs s).sb.cells = s.sb.cells := by
  induction rs generalizing s with
  | nil => exact ⟨rfl, rfl⟩
  | cons r rs ih =>
    have hsb := sbAbandon_sb r s
    have hstuck : sbCanStart (sbAbandon s r) = false := by
      unfold sbCanStart at h ⊢
      rw [hsb]
      exact h
    have hstep : sbStartFrom (r :: rs) s = sbStartFrom rs (sbAbandon s r) := if_neg (Bool.eq_false_iff.1 h)
    obtain ⟨hqueue, hcells⟩ := ih hstuck
    rw [hstep]
    exact ⟨hqueue, hcells.trans (congrArg SbSt.cells hsb :)⟩

theorem vauxRise_cold {mv : BitVec 12} (hmv : 3000 ≤ mv.toNat) (hdown : s.start.sillUp = false) :
    Ends (.vauxRise mv) s (fun u => ∃ e, e.code = 0x0002 ∧ Recorded e u (Cold s.sec.pl2Fuse)) := by
  have hexec : exec (.vauxRise mv) s = ran (sillBoot (setVaux mv (coldReset { begin s with start := { s.start with sillUp := true } }))) := by
    refine (rfl : _ = execVauxRise mv s).trans ((if_neg (Nat.not_lt.2 hmv)).trans (if_neg ?_))
    have hdown' : (begin s).start.sillUp = false := hdown
    rw [hdown']
    exact Bool.false_ne_true
  exact ends_of_ran hexec (sillBoot_recorded ((coldReset_cold (s := { begin s with start := { s.start with sillUp := true } }) rfl).vaux mv))

theorem vauxRise_up {mv : BitVec 12} (hmv : 3000 ≤ mv.toNat) (hup : s.start.sillUp = true) : Ends (.vauxRise mv) s (fun u => u.sb.vauxMv = mv ∧ u.sb.vauxOk = true) := by
  obtain ⟨h1, h2, -⟩ := setVaux_registers mv (begin s)
  exact ends_of_ran ((rfl : _ = execVauxRise mv s).trans ((if_neg (Nat.not_lt.2 hmv)).trans (if_pos hup))) ⟨h1, h2.trans (Nat.ble_eq_true_of_le hmv)⟩

theorem vauxLow_acts {mv : BitVec 12} (hmin : 2800 ≤ mv.toNat) (hmax : mv.toNat < 3000) (hidle : s.sb.running = none) : Ends (.vauxLow mv) s (fun u =>
    u.sb.vauxMv = mv ∧ u.sb.vauxOk = false ∧ u.sb.reserveOk = false ∧ u.sb.low = true ∧ u.sb.queue = [] ∧ u.sb.cells = s.sb.cells) := by
  have hexec : exec (.vauxLow mv) s = ran (setVaux mv (begin s)) := (rfl : _ = execVauxLow mv s).trans (congrArg ran (if_neg (by omega)))
  have hble : Nat.ble 3000 mv.toNat = false := Bool.eq_false_iff.2 (fun h => Nat.not_le.2 hmax (Nat.le_of_ble_eq_true h))
  have hblt : Nat.blt mv.toNat 3200 = true := Nat.ble_eq_true_of_le (show mv.toNat + 1 ≤ 3200 by omega)
  obtain ⟨h1, h2, h3, h4, -⟩ := setVaux_registers mv (begin s)
  have hstart : setVaux mv (begin s) = sbStartFrom s.sb.queue (vauxMeasured mv (begin s)) := sbStart_idle (s := vauxMeasured mv (begin s)) hidle
  have hstuck : sbCanStart (vauxMeasured mv (begin s)) = false := (congrArg (· && (s.sb.reserveOk && Nat.ble 3000 mv.toNat)) hble : _)
  obtain ⟨hqueue, hcells⟩ := sbStartFrom_stuck s.sb.queue hstuck
  rw [hble] at h2 h3
  rw [Bool.and_false] at h3
  rw [← hstart] at hqueue hcells
  exact ends_of_ran hexec ⟨h1, h2, h3, h4.trans hblt, hqueue, hcells⟩

theorem vauxLoss_acts : Ends .vauxLoss s (fun u => u.start.sillUp = false ∧ u.power.seq = .off ∧ u.power.enable = 0 ∧ u.sb.vauxMv = 0 ∧ u.sb.queue = [] ∧
    u.host.memoryActive = false) := by
  have hup := coldReset_sillUp { begin s with start := { s.start with sillUp := false } }
  obtain ⟨hinactive, -⟩ := mainDown_host (flushCut { begin s with start := { s.start with sillUp := false } })
  obtain ⟨t, rfl, -, -, -, hseq, hen, -, -, -, hact, hqueue⟩ := coldReset_parts { begin s with start := { s.start with sillUp := false } }
  have hexec : exec .vauxLoss s = ran (let s := coldReset { begin s with start := { s.start with sillUp := false } }
      { s with sb := { s.sb with vauxMv := 0, vauxOk := false, reserveOk := false, low := false, bandChg := false } }) := rfl
  have hfalse := hact.trans hinactive
  dsimp only at hexec
  generalize coldReset { begin s with start := { s.start with sillUp := false } } = v at hup hseq hen hfalse hqueue hexec
  exact ends_of_ran hexec ⟨hup, hseq, hen, rfl, hqueue, hfalse⟩

theorem vauxBandChange_acts {mv : BitVec 12} (hmv : 3000 ≤ mv.toNat) (hup : s.start.sillUp = true) : Ends (.vauxBandChange mv) s (fun u =>
    u.sb.vauxMv = mv ∧ u.sb.low = decide (mv.toNat < 3200) ∧ u.sb.bandChg = (s.sb.bandChg || decide (mv.toNat < 3200) != s.sb.low)) := by
  have hno : ¬ (mv.toNat < 3000 ∨ (!(begin s).start.sillUp) = true) := by
    have hup' : (begin s).start.sillUp = true := hup
    rw [hup']
    exact fun h => h.elim (fun hlt => absurd hlt (Nat.not_lt.2 hmv)) Bool.false_ne_true
  have hblt : Nat.blt mv.toNat 3200 = decide (mv.toNat < 3200) := by
    rw [Bool.eq_iff_iff, decide_eq_true_iff]
    exact iff_of_eq Nat.ble_eq
  obtain ⟨h1, -, -, h4, h5⟩ := setVaux_registers mv (begin s)
  rw [hblt] at h4 h5
  refine ends_of_ran ((rfl : _ = execVauxBandChange mv s).trans (congrArg ran (if_neg hno))) ⟨h1, h4, h5.trans ?_⟩
  have hup' : (begin s).start.sillUp = true := hup
  rw [hup', Bool.true_and]
  rfl

theorem sillReset_cold (hup : s.start.sillUp = true) : Ends .sillReset s (fun u => ∃ e, e.code = 0x0002 ∧ Recorded e u (Cold s.sec.pl2Fuse)) :=
  ends_of_ran ((rfl : _ = execSillReset s).trans (congrArg ran (if_pos hup))) (sillBoot_recorded (coldReset_cold (s := begin s) hup))

/-! ### Warm resets -/

theorem mgmtWatchdog_acts (hready : s.host.mailboxReady = true) (hidle : s.host.mgmtReset = false) : Ends .mgmtWatchdog s (fun u =>
    u.host = { s.host with mgmtReset := true } ∧ u.evt.armed = [] ∧ u.unit.running = s.unit.running.filter (fun j => j.kind == .powerUp) ∧ u.cache = s.cache ∧
      u.media = s.media ∧ u.power = s.power) := by
  have hyes : (begin s).host.mailboxReady ∧ (!(begin s).host.mgmtReset) = true := ⟨hready, congrArg (!·) hidle⟩
  exact ends_of_ran ((rfl : _ = execMgmtWatchdog s).trans (congrArg ran (if_pos hyes))) ⟨rfl, rfl, rfl, rfl, rfl, rfl⟩

theorem warmResetEnd_acts (hreset : s.host.mgmtReset = true) (hact : s.fw.activating = false) : Ends .warmResetEnd s (fun u =>
    u = { begin s with host := { s.host with mgmtReset := false } }) := by
  have hin : ¬ (!(begin s).host.mgmtReset) = true := Bool.eq_false_iff.1 (congrArg (!·) hreset)
  have hoff : ¬ (begin s).fw.activating = true := Bool.eq_false_iff.1 hact
  have hfw : { (begin s).fw with activating := false } = (begin s).fw := by
    have h : (begin s).fw.activating = false := hact
    generalize (begin s).fw = f at h
    cases f
    subst h
    rfl
  refine ends_of_ran (u := { begin s with host := { s.host with mgmtReset := false }, fw := { (begin s).fw with activating := false } })
    ((rfl : _ = execWarmResetEnd s).trans ((if_neg hin).trans ?_)) ?_
  · rw [if_neg hoff]
    rfl
  · rw [hfw]

end

end Sys2Proof.Machine
end

section
/-! SUPPORT. The phases of the start (R587 to R590, R596), with O18 assembled from them. -/

namespace Sys2Proof.Machine

section
variable {s t u : State}

/-- The end of phase `n`. -/
def phaseEnd (hbm : BitVec 4) (n : Nat) (s : State) : Res :=
  match n with
  | 3 => ran (mediaNext (phase3End s))
  | 4 => ran (phase4End hbm s)
  | 5 => ran (phase5End s)
  | 6 => ran (phase6End s)
  | 7 => ran (mediaNext (phase7End s))
  | 8 => ran (mediaNext (phase8End s))
  | _ => ran s

theorem startPhaseEnd_runs {n : Nat} (hbm : BitVec 4) (hup : s.start.sillUp = true) (hon : s.power.seq = .on) (hn : s.start.phase.toNat = n) (hlate : n ≠ 1) :
    exec (.startPhaseEnd hbm) s = phaseEnd hbm n (begin s) := by
  subst hn
  have hup' : ¬ (!(begin s).start.sillUp) = true := Bool.eq_false_iff.1 (congrArg (!·) hup)
  have hon' : ¬ (begin s).power.seq ≠ .on := not_not.2 hon
  exact (rfl : _ = execStartPhaseEnd hbm s).trans ((if_neg hup').trans ((if_neg hlate).trans ((if_neg hon').trans rfl)))

theorem phase3_acts (hup : s.start.sillUp = true) (hon : s.power.seq = .on) (hph : s.start.phase = 3) (hfw : (selectFw (begin s)).isSome = true) :
    Works (.startPhaseEnd 0) s (fun u => u.start.phase = 4 ∧ u.power.measuring = true) := by
  obtain ⟨t, ht⟩ := Option.isSome_iff_exists.1 hfw
  refine ⟨phase3End (begin s), startPhaseEnd_runs 0 hup hon (congrArg BitVec.toNat hph) (show (3 : Nat) ≠ 1 by decide), ?_⟩
  unfold phase3End
  rw [ht]
  dsimp only
  have hkept (l : List Nat) (v : State) : keepM (l.foldl (fun s c => if inService (ownState s (uChannel c)) then startTraining c s else s) v) = keepM v :=
    keepM_foldl _ _ _ (fun v c => by
      split
      · exact startTraining_keepM c v
      · rfl)
  exact ⟨congrArg StartSt.phase (start_of_keepM (hkept _ _)), congrArg PowerSt.measuring (power_of_keepM (hkept _ _))⟩

theorem foldl_eq_self {α β : Type} {f : β → α → β} (l : List α) (b : β) (h : ∀ a ∈ l, f b a = b) : l.foldl f b = b :=
  List.foldlRecOn (motive := fun c => c = b) l f rfl (fun _ hc a ha => hc ▸ h a ha)

/-- The end of phase 4 once the channels are trained and the HBM stacks good. -/
theorem phase4End_phase (htrained : (List.range (nChannels s)).any (inTraining s) = false) (hgood : ∀ h < nQuads s, inService (ownState s (uHbm h)) = true)
    (hquads : nQuads s ≤ 4) : (phase4End 0xF s).start.phase = 5 := by
  have hbad : (List.range (nQuads s)).filter (fun h => !(0xF : BitVec 4).getLsbD h || !inService (ownState s (uHbm h))) = [] := by
    refine List.filter_eq_nil_iff.2 (fun h hh hcon => ?_)
    have hlt := List.mem_range.1 hh
    have hbit : (0xF : BitVec 4).getLsbD h = true := by
      have h4 : h < 4 := hlt.trans_le hquads
      interval_cases h <;> rfl
    rw [hbit, hgood h hlt] at hcon
    exact Bool.false_ne_true hcon
  unfold phase4End
  rw [if_neg (Bool.eq_false_iff.1 htrained), hbad]
  simp only [List.foldl_nil, ne_eq, not_true_eq_false, if_false]
  refine (congrArg StartSt.phase (start_of_keepM ((reloadSlots_keepM _).trans (loadAti_keepM _)))).trans ?_
  rfl

theorem phase5End_phase (hlevel : s.sec.lowering = 0) (herase : s.sec.erasing = false) : (phase5End s).start.phase = 6 := by
  unfold phase5End
  rw [if_neg (not_not.2 hlevel), if_neg (Bool.eq_false_iff.1 herase)]

theorem phase6End_phase (s : State) : (phase6End s).start.phase = 7 := by
  have hloaded (load : Option (List PiEnt)) (v : State) (hv : v.start.phase = 7) :
      (match load with | some es => loadIndex es v | none => rebuildIndex v).start.phase = 7 := by
    cases load with
    | some es => exact (congrArg StartSt.phase (start_of_keepM (loadIndex_keepM es v))).trans hv
    | none => exact (congrArg StartSt.phase (start_of_keepM (rebuildIndex_keepM v))).trans hv
  have hlost (l : List (Nat × Option (Line × BitVec 64))) (v : State) : keepM (l.foldl (fun s x => flushLost x.1 s) v) = keepM v :=
    keepM_foldl _ _ _ (fun v x => flushLost_keepM x.1 v)
  unfold phase6End
  extract_lets load mm start s1 s2 ls s3
  have h2 : s2.start.phase = 7 := hloaded load s1 rfl
  clear_value s2
  exact (congrArg StartSt.phase (start_of_keepM (hlost _ s2))).trans h2

/-! ### Into service -/

/-- The phase of the start and whether the memory is active. -/
def keepP (s : State) := (s.start.phase, s.host.memoryActive)

theorem keepP_of_keepW (h : keepW u = keepW s) : keepP u = keepP s := by
  unfold keepP
  rw [phase_of_keepW h, memoryActive_of_keepW h]

theorem setLd_keepP (i : Nat) (f : Ld → Ld) (s : State) : keepP (setLd i f s) = keepP s := rfl

theorem keepP_foldl {α : Type} {f : State → α → State} (l : List α) (s : State) (h : ∀ s a, keepP (f s a) = keepP s) : keepP (l.foldl f s) = keepP s :=
  List.foldlRecOn (motive := fun t => keepP t = keepP s) l f rfl (fun t ht a _ => (h t a).trans ht)

theorem dropRanges_keepP (i : Nat) (p : Range → Bool) (s : State) : keepP (dropRanges i p s) = keepP s := keepP_of_keepW (s := setLd i _ s) (sendMap_posts _ _ _).keepW

theorem releaseGo_keepP (i : Nat) (c : Option Caller) (exts : List Extent) (s : State) : keepP (releaseGo i c exts s) = keepP s := by
  have hempty := keepP_of_keepW (emptyAll_keepW mUnmapped (extentLfns (ldOf s i) exts) s)
  unfold releaseGo
  dsimp only
  split
  · rfl
  · split
    · exact hempty
    · have hset (f : Ld → Ld) (p : Range → Bool) (v : State) : keepP (setLd i f (dropRanges i p v)) = keepP v := dropRanges_keepP i p v
      cases c with
      | some c => exact (hset _ _ _).trans hempty
      | none => exact (hset _ _ _).trans hempty

theorem newKey_keepP (i : Nat) (s : State) : keepP (newKey i s) = keepP s := (keepP_of_keepW (sbEnqueue_keepW _ _)).trans rfl

theorem eraseStart_keepP (i : Nat) (secure : Bool) (s : State) : keepP (eraseStart i secure s) = keepP s := by
  unfold eraseStart
  extract_lets ls blocks s1 s2
  have h2 : keepP s2 = keepP s := (keepP_of_keepW (emptyAll_keepW mUnmapped ls s1)).trans rfl
  clear_value s2
  split
  · exact (newKey_keepP i _).trans h2
  · exact h2

theorem deliver_keepP (r : WbRec) (vc : Option Nat) (s : State) : keepP (deliver s r vc) = keepP s := keepP_of_keepW ((Heralds.refl s).deliver r vc).keepW

theorem memoryActive_keepP (s : State) : keepP (memoryActive s) = (9, true) := by
  unfold memoryActive
  extract_lets host mm start s1 s2 raised s3 held wb s4 s5
  have h2 : keepP s2 = (9, true) := (keepP_of_keepW (sbEnqueue_keepW s1 _)).trans rfl
  clear_value s2
  have h3 : keepP s3 = (9, true) := by
    simp only [s3]
    split
    · exact (keepP_of_keepW (sbEnqueue_keepW _ _)).trans h2
    · exact h2
  clear_value s3
  have h4 : keepP s4 = (9, true) := (keepP_foldl _ _ (fun v r => deliver_keepP r none v)).trans h3
  clear_value s4
  have h5 : keepP s5 = (9, true) := (keepP_foldl (List.range 64) s4 (fun v i => keepP_foldl _ _ (fun v x => releaseGo_keepP i none x v))).trans h4
  clear_value s5
  refine (keepP_foldl (List.range 64) s5 (fun v i => ?_)).trans h5
  split
  · exact eraseStart_keepP ..
  · rfl

theorem phase7_acts (hup : s.start.sillUp = true) (hon : s.power.seq = .on) (hph : s.start.phase = 7) (hleft : s.power.replayLeft = []) (hdirty : dirtyLlns s = [])
    (hdesc : s.span.desc = none) (hroot : s.sec.rootLost = false) (hlost : linesLost s = false) (hmap : s.start.mapLost = []) (hheld : s.cache.heldWrites = []) :
    Works (.startPhaseEnd 0) s (fun u => u.start.phase = 9 ∧ u.host.memoryActive = true) := by
  have hend : phase7End (begin s) = memoryActive (mapClear (freeFlush (begin s))) := by
    have h1 : ¬ (begin s).power.replayLeft ≠ [] := not_not.2 hleft
    have h2 : ¬ (dirtyLlns (begin s) ≠ [] ∨ (begin s).cache.heldWrites ≠ []) := fun h => h.elim (fun h => h hdirty) (fun h => h hheld)
    have h3 : ¬ (begin s).span.desc.isSome = true := Bool.eq_false_iff.1 (congrArg Option.isSome hdesc)
    have h4 : ¬ (begin s).sec.rootLost = true := Bool.eq_false_iff.1 hroot
    have h5 : ¬ (linesLost (begin s) = true ∧ (!(begin s).start.mapFold) = true) := fun h => Bool.false_ne_true (hlost.symm.trans h.1)
    have h6 : ¬ (begin s).start.mapLost ≠ [] := not_not.2 hmap
    exact (if_neg h1).trans ((if_neg h2).trans ((if_neg h3).trans ((if_neg h4).trans ((if_neg h5).trans (if_neg h6)))))
  have hkept := memoryActive_keepP (mapClear (freeFlush (begin s)))
  rw [← hend] at hkept
  exact ⟨phase7End (begin s), startPhaseEnd_runs 0 hup hon (congrArg BitVec.toNat hph) (show (7 : Nat) ≠ 1 by decide), congrArg Prod.fst hkept, congrArg Prod.snd hkept⟩

end

/-- Settles O18: the resets by `Cold`, the supply by its registers, the start by its phases. -/
theorem resetsAndStartPhases : Obligations.ResetsAndStartPhases := by
  unfold Obligations.ResetsAndStartPhases
  intro s
  have hcold : ∀ u, (∃ e, e.code = 0x0002 ∧ Recorded e u (Cold s.sec.pl2Fuse)) → ∃ e, e.code = 0x0002 ∧ Recorded e u (fun v => v.start.sillUp = true ∧ v.time.mode = .freeRun ∧
      v.time.unbounded = true ∧ v.power.seq = .off ∧ v.power.enable = 0 ∧ v.sec.pl2Fuse = s.sec.pl2Fuse ∧ v.evt.armed = [] ∧
      v.unit.running = [] ∧ v.host.memoryActive = false) := by
    rintro u ⟨e, he, v, hv, h1, h2, h3, h4, h5, h6, h7, h8, h9⟩
    exact ⟨e, he, v, hv, h1, h2, h3, h4, h5, h6, h7, h8, h9⟩
  refine ⟨fun mv hmv hdown => (vauxRise_cold hmv hdown).mono hcold, fun mv hmv hup => vauxRise_up hmv hup, fun mv hmin hmax hidle => vauxLow_acts hmin hmax hidle,
    vauxLoss_acts, fun mv hmv hup => vauxBandChange_acts hmv hup, fun hup => (sillReset_cold hup).mono hcold, fun hready hidle => mgmtWatchdog_acts hready hidle,
    fun hreset hact => warmResetEnd_acts hreset hact, fun hup hon hph hfw => phase3_acts hup hon hph hfw, fun hup hon hph htrained hgood => ?_,
    fun hup hon hph hlevel herase => ?_, fun hup hon hph => ?_, fun hup hon hph hleft hdirty hdesc hroot hlost hmap hheld =>
      phase7_acts hup hon hph hleft hdirty hdesc hroot hlost hmap hheld⟩
  · have hquads : nQuads s ≤ 4 := by
      unfold nQuads
      cases s.variant <;> decide
    exact ends_of_ran (startPhaseEnd_runs 0xF hup hon (congrArg BitVec.toNat hph) (show (4 : Nat) ≠ 1 by decide)) (phase4End_phase (s := begin s) htrained hgood hquads)
  · exact ends_of_ran (startPhaseEnd_runs 0 hup hon (congrArg BitVec.toNat hph) (show (5 : Nat) ≠ 1 by decide)) (phase5End_phase (s := begin s) hlevel herase)
  · exact ends_of_ran (startPhaseEnd_runs 0 hup hon (congrArg BitVec.toNat hph) (show (6 : Nat) ≠ 1 by decide)) (phase6End_phase (begin s))

end Sys2Proof.Machine
end

section
/-! SUPPORT. Poison, erase and dynamic capacity over CXL (R47 to R60, R618, R621), with O23 assembled from them. -/

namespace Sys2Proof.Machine

section
variable {s t : State} {c : Caller} {ldb : Byte} {i : Nat}

/-- A taken command of a named LD, whatever its answer. -/
theorem onLd_ran {f : Nat → State → CAns × State} {after : State → State} {rc : Rc} {o : CxlOut} (h : Taken c s false true) (hn : ldNamed s c ldb.toNat = some i)
    (hact : f i (begin s) = ((rc, o), t)) : onCxl c false true (onLd c ldb f) after s =
      ran (if rc = .success ∨ rc = .background then after (send t (.cxl c rc o)) else send t (.cxl c rc o)) := by
  rw [onCxl_taken h, (onLd_named hn).trans hact]

theorem poison_does {f : Nat → Nat → State → State} {a : BitVec 46} {lln : Nat} (herase : (ldOf s i).erase = none) (htarget : poisonTarget s i a.toNat = some lln)
    (hn : ldNamed s c ldb.toNat = some i) : onPoison c ldb a f (begin s) = did (f i lln (begin s)) := by
  have hidle : ¬ (ldOf (begin s) i).erase.isSome = true := Bool.eq_false_iff.1 (congrArg Option.isSome herase)
  have htarget' : poisonTarget (begin s) i a.toNat = some lln := htarget
  refine (onLd_named hn).trans ((if_neg hidle).trans ?_)
  rw [htarget']

theorem injectPoison_acts (h : Taken c s false true) (hn : ldNamed s c ldb.toNat = some i) {a : BitVec 46} {lln : Nat} (hpl : s.sec.pl = 0)
    (herase : (ldOf s i).erase = none) (htarget : poisonTarget s i a.toNat = some lln) :
    Works (.injectPoison c ldb a) s (Does c (commandWrite i lln 0 true (poisonAdd lln .injected (begin s)))) := by
  have hlow : ¬ 1 ≤ (begin s).sec.pl.toNat := by
    have hpl' : (begin s).sec.pl = 0 := hpl
    rw [hpl']
    decide
  exact ⟨_, (rfl : _ = execInjectPoison c ldb a s).trans (onCxl_does h ((if_neg hlow).trans (poison_does herase htarget hn))), rfl⟩

theorem injectPoison_refused (h : Taken c s false true) {a : BitVec 46} (hpl : s.sec.pl ≠ 0) : Ends (.injectPoison c ldb a) s (Tells c s .invalidSecurityState .none) := by
  have hhigh : 1 ≤ (begin s).sec.pl.toNat := Nat.one_le_iff_ne_zero.2 (fun h0 => hpl (BitVec.eq_of_toNat_eq h0))
  refine ends_of_ran ((rfl : _ = execInjectPoison c ldb a s).trans ((onCxl_taken h).trans ?_)) rfl
  rw [if_pos hhigh]
  rfl

theorem clearPoison_acts (h : Taken c s false true) (hn : ldNamed s c ldb.toNat = some i) {a : BitVec 46} {lln : Nat} (data : Line)
    (herase : (ldOf s i).erase = none) (htarget : poisonTarget s i a.toNat = some lln) :
    Works (.clearPoison c ldb a data) s (Does c (commandWrite i lln data false (begin s))) :=
  ⟨_, (rfl : _ = execClearPoison c ldb a data s).trans (onCxl_does h (poison_does herase htarget hn)), rfl⟩

/-- Sanitize and Secure Erase start, or find an erase that runs. -/
def eraseAct (secure : Bool) (i : Nat) (s : State) : CAns × State :=
  if (ldOf s i).erase.isSome then tell .busy .none s else tell .background .none (eraseStart i secure s)

theorem erase_starts {secure : Bool} (h : Taken c s false true) (hn : ldNamed s c ldb.toNat = some i) (herase : (ldOf s i).erase = none) :
    onCxl c false true (onLd c ldb (eraseAct secure)) (fun s => mediaNext (updLoad (pollWork s))) s =
      ran (mediaNext (updLoad (pollWork (send (eraseStart i secure (begin s)) (.cxl c .background .none))))) :=
  (onLd_ran h hn (if_neg (Bool.eq_false_iff.1 (congrArg Option.isSome herase)))).trans (congrArg ran (if_pos (.inr rfl)))

theorem erase_busy {secure : Bool} {after : State → State} (h : Taken c s false true) (hn : ldNamed s c ldb.toNat = some i) (herase : (ldOf s i).erase ≠ none) :
    onCxl c false true (onLd c ldb (eraseAct secure)) after s = ran (send (begin s) (.cxl c .busy .none)) := by
  refine (onLd_ran h hn (if_pos (Option.isSome_iff_ne_none.2 herase))).trans (congrArg ran (if_neg ?_))
  rintro (h | h) <;> cases h

/-! ### Offers taken up -/

/-- The LD without its key. -/
def keyless (d : Ld) : Ld := { d with key := 0, keyState := false, kgen := 0, keyLost := false }

theorem setLd_keyless (f : Ld → Ld) (hf : ∀ d, keyless (f d) = keyless d) (j : Nat) (s : State) : keyless (ldOf (setLd i f s) j) = keyless (ldOf s j) := by
  by_cases hj : j = i
  · subst hj
    by_cases hlt : j < s.host.lds.length
    · rw [ldOf_setLd_self f hlt, hf]
    · have hout : (setLd j f s).host.lds[j]? = none := List.getElem?_eq_none ((lmod_length s.host.lds j f).le.trans (Nat.not_lt.1 hlt))
      rw [ldOf, ldOf, List.getD_eq_getElem?_getD, List.getD_eq_getElem?_getD, hout, List.getElem?_eq_none (Nat.not_lt.1 hlt)]
  · exact congrArg keyless (getD_lmod_ne _ _ f hj)

theorem giveKey_keyless (j : Nat) (s : State) : keyless (ldOf (giveKey i s) j) = keyless (ldOf s j) := by
  unfold giveKey
  split
  · rfl
  · rw [newKey_eq, ldOf_of_host (sbEnqueue_host ..)]
    exact setLd_keyless (fun d => { d with key := (drawBits 512 s).1, keyState := true, kgen := d.kgen + 1, keyLost := false }) (fun _ => rfl) j (drawBits 512 s).2

theorem addRanges_keyless (rs : List Range) (h : i < s.host.lds.length) :
    keyless (ldOf (addRanges i rs s) i) = keyless { ldOf s i with ranges := (ldOf s i).ranges ++ rs } := by
  refine (giveKey_keyless i _).trans (congrArg keyless ?_)
  rw [ldOf_of_host (sendMap_host ..), ldOf_setLd_self _ h]

/-- The first offer taken off. -/
def offerOff (i : Nat) (n : Nat) (s : State) : State := setLd i (fun d => { d with offered := d.offered.drop 1, offeredLfns := d.offeredLfns.drop n }) s

theorem acceptOffers_one {e : Extent} (exts : List Extent) (hoff : (ldOf s i).offered = [e]) : acceptOffers i exts s =
    if exts.contains e then addRanges i (runRanges true e.frame.toNat (lfnRuns ((ldOf s i).offeredLfns.take e.count.toNat)))
      (setLd i (fun d => { d with extents := d.extents ++ [(e.frame.toNat, e.count.toNat)] }) (offerOff i e.count.toNat s)) else offerOff i e.count.toNat s := by
  unfold acceptOffers
  dsimp only
  rw [hoff]
  have hlast : (List.range [e].length).foldl (fun m k => if exts.contains ([e].getD k ⟨0, 0⟩) then k + 1 else m) 1 = 1 := ite_self (c := exts.contains e = true) 1
  rw [hlast]
  rfl

theorem addDcResponse_runs (h : Taken c s false true) (hn : ldNamed s c ldb.toNat = some i) {exts : List Extent} (hlen : exts.length ≤ 256)
    (hall : exts.all (fun e => (ldOf s i).offered.contains e) = true) (hsome : (ldOf s i).offered ≠ []) :
    exec (.addDynamicCapacityResponse c ldb exts) s = ran (mediaNext (send (acceptOffers i exts (begin s)) (.cxl c .success .none))) := by
  have hno : ¬ (256 < exts.length ∨ (!exts.all (fun e => (ldOf (begin s) i).offered.contains e)) = true ∨ (ldOf (begin s) i).offered = []) := by
    rintro (h | h | h)
    · exact absurd hlen (Nat.not_le.2 h)
    · exact Bool.eq_false_iff.1 (congrArg (!·) hall) h
    · exact hsome h
  exact (rfl : _ = execAddDynamicCapacityResponse c ldb exts s).trans (onCxl_does h ((onLd_named hn).trans (if_neg hno)))

theorem offerOff_ld (n : Nat) (h : i < s.host.lds.length) : ldOf (offerOff i n s) i =
    { ldOf s i with offered := (ldOf s i).offered.drop 1, offeredLfns := (ldOf s i).offeredLfns.drop n } := ldOf_setLd_self _ h

theorem addDc_taken (h : Taken c s false true) (hn : ldNamed s c ldb.toNat = some i) {e : Extent} (hget : s.host.lds[i]? = some (ldOf s i))
    (hoff : (ldOf s i).offered = [e]) : Works (.addDynamicCapacityResponse c ldb [e]) s (fun u =>
      (ldOf u i).extents = (ldOf s i).extents ++ [(e.frame.toNat, e.count.toNat)] ∧ (ldOf u i).offered = [] ∧ .cxl c .success .none ∈ u.out) := by
  have hin : ([e] : List Extent).contains e = true := List.contains_iff_mem.2 (List.mem_singleton_self e)
  have hrun := addDcResponse_runs (exts := [e]) h hn (by simp) (by rw [hoff]; simp) (by rw [hoff]; exact List.cons_ne_nil _ _)
  have hi : i < (begin s).host.lds.length := lt_of_getElem?_eq hget
  have hi' : i < (offerOff i e.count.toNat (begin s)).host.lds.length := (setLd_count i _ (begin s)).symm ▸ hi
  have hoffer := offerOff_ld e.count.toNat hi
  have haccept := (acceptOffers_one (s := begin s) (i := i) [e] hoff).trans (if_pos hin)
  have hset := ldOf_setLd_self (s := offerOff i e.count.toNat (begin s)) (fun d => { d with extents := d.extents ++ [(e.frame.toNat, e.count.toNat)] }) hi'
  rw [hoffer] at hset
  have hadd := addRanges_keyless (s := setLd i (fun d => { d with extents := d.extents ++ [(e.frame.toNat, e.count.toNat)] }) (offerOff i e.count.toNat (begin s)))
    (runRanges true e.frame.toNat (lfnRuns ((ldOf (begin s) i).offeredLfns.take e.count.toNat))) ((setLd_count i _ (offerOff i e.count.toNat (begin s))).symm ▸ hi')
  rw [← haccept, hset] at hadd
  generalize acceptOffers i [e] (begin s) = v at hrun hadd
  have hextents : (ldOf v i).extents = (ldOf s i).extents ++ [(e.frame.toNat, e.count.toNat)] := (congrArg Ld.extents hadd :)
  have hoffered : (ldOf v i).offered = (ldOf s i).offered.drop 1 := (congrArg Ld.offered hadd :)
  rw [hoff] at hoffered
  have hsent := ldOf_of_host (send_host v (.cxl c .success .none)) i
  exact ⟨_, hrun, (congrArg Ld.extents hsent).trans hextents, (congrArg Ld.offered hsent).trans hoffered, List.mem_append_right _ (List.mem_singleton_self _)⟩

theorem addDc_declined (h : Taken c s false true) (hn : ldNamed s c ldb.toNat = some i) {e : Extent} (hget : s.host.lds[i]? = some (ldOf s i))
    (hoff : (ldOf s i).offered = [e]) : Works (.addDynamicCapacityResponse c ldb []) s (fun u =>
      (ldOf u i).extents = (ldOf s i).extents ∧ (ldOf u i).ranges = (ldOf s i).ranges ∧ (ldOf u i).offered = []) := by
  have hrun := addDcResponse_runs (exts := []) h hn (Nat.zero_le _) rfl (by rw [hoff]; exact List.cons_ne_nil _ _)
  have haccept := (acceptOffers_one (s := begin s) (i := i) [] hoff).trans (if_neg Bool.false_ne_true)
  have hoffer := offerOff_ld (s := begin s) e.count.toNat (lt_of_getElem?_eq hget)
  rw [haccept] at hrun
  have hsent := ldOf_of_host (send_host (offerOff i e.count.toNat (begin s)) (.cxl c .success .none)) i
  rw [hoffer] at hsent
  refine ⟨_, hrun, (congrArg Ld.extents hsent :), (congrArg Ld.ranges hsent :), (congrArg Ld.offered hsent :).trans ?_⟩
  have hdrop : (ldOf s i).offered.drop 1 = [] := by rw [hoff]; rfl
  exact hdrop

/-! ### Capacity released -/

/-- The release asked for is noted in its LD. -/
def releaseAsked (i : Nat) (c : Caller) (exts : List Extent) (s : State) : State := setLd i (fun d => { d with heldRelease := d.heldRelease ++ [(c, exts)] }) s

/-- The release row, once its caller and LD are found. -/
def releaseRow (c : Caller) (i : Nat) (exts : List Extent) (s : State) : Res :=
  if 256 < exts.length ∨ !extentsHeld (ldOf s i) exts then ran (send s (.cxl c .invalidInput .none))
  else ran (mediaNext (updLoad (releaseGo i (some c) exts (releaseAsked i c exts s))))

theorem release_runs (h : Taken c s false true) (hn : ldNamed s c ldb.toNat = some i) (exts : List Extent) :
    exec (.releaseDynamicCapacity c ldb exts) s = releaseRow c i exts (begin s) := by
  obtain ⟨hreach, hcmd, haway, -, hmem⟩ := h
  have h1 : ¬ (!reach (begin s) c) = true := Bool.eq_false_iff.1 (congrArg (!·) hreach)
  have h2 : ¬ turnsAway (begin s) c = true := Bool.eq_false_iff.1 haway
  have h3 : ¬ (!cmdUp (begin s)) = true := Bool.eq_false_iff.1 (congrArg (!·) hcmd)
  have h4 : ¬ (!(begin s).host.memoryActive) = true := Bool.eq_false_iff.1 (congrArg (!·) (hmem rfl))
  have hn' : ldNamed (begin s) c ldb.toNat = some i := hn
  refine (rfl : _ = execReleaseDynamicCapacity c ldb exts s).trans ((if_neg h1).trans ((if_neg h2).trans ((if_neg h3).trans ((if_neg h4).trans ?_))))
  rw [hn']
  rfl

theorem release_refused (h : Taken c s false true) (hn : ldNamed s c ldb.toNat = some i) {exts : List Extent} (hbad : 256 < exts.length ∨ extentsHeld (ldOf s i) exts = false) :
    Ends (.releaseDynamicCapacity c ldb exts) s (Tells c s .invalidInput .none) :=
  ends_of_ran ((release_runs h hn exts).trans (if_pos (hbad.imp_right (fun hb => (congrArg (!·) hb : _))))) rfl

theorem release_goes (h : Taken c s false true) (hn : ldNamed s c ldb.toNat = some i) {exts : List Extent} (hlen : exts.length ≤ 256)
    (hheld : extentsHeld (ldOf s i) exts = true) : exec (.releaseDynamicCapacity c ldb exts) s =
      ran (mediaNext (updLoad (releaseGo i (some c) exts (releaseAsked i c exts (begin s))))) := by
  refine (release_runs h hn exts).trans (if_neg ?_)
  rintro (hlong | hno)
  · exact absurd hlen (Nat.not_le.2 hlong)
  · exact Bool.eq_false_iff.1 (congrArg (!·) hheld) hno

theorem releaseAsked_ld (exts : List Extent) (h : i < s.host.lds.length) : ldOf (releaseAsked i c exts s) i =
    { ldOf s i with heldRelease := (ldOf s i).heldRelease ++ [(c, exts)] } := ldOf_setLd_self _ h

/-- A request to a frame that is to go holds the release back. -/
theorem releaseGo_held {exts : List Extent} (hreq : ∃ r ∈ s.host.reqs, lfnOf r.lln ∈ extentLfns (ldOf s i) exts) (cl : Option Caller) : releaseGo i cl exts s = s := by
  obtain ⟨r, hr, hl⟩ := hreq
  have hany : s.host.reqs.any (fun r => (extentLfns (ldOf s i) exts).contains (lfnOf r.lln)) = true := List.any_eq_true.2 ⟨r, hr, List.contains_iff_mem.2 hl⟩
  exact if_pos (by rw [hany, Bool.or_true])

theorem release_heldBack (h : Taken c s false true) (hn : ldNamed s c ldb.toNat = some i) {exts : List Extent} (hlen : exts.length ≤ 256)
    (hheld : extentsHeld (ldOf s i) exts = true) (hget : s.host.lds[i]? = some (ldOf s i)) (hreq : ∃ r ∈ s.host.reqs, lfnOf r.lln ∈ extentLfns (ldOf s i) exts) :
    Works (.releaseDynamicCapacity c ldb exts) s (fun u => u.out = [] ∧ (ldOf u i).ranges = (ldOf s i).ranges ∧
      (ldOf u i).heldRelease = (ldOf s i).heldRelease ++ [(c, exts)]) := by
  have hrun := release_goes h hn hlen hheld
  have hld : ldOf (releaseAsked i c exts (begin s)) i = { ldOf s i with heldRelease := (ldOf s i).heldRelease ++ [(c, exts)] } :=
    releaseAsked_ld (s := begin s) exts (lt_of_getElem?_eq hget)
  have hsame : extentLfns (ldOf (releaseAsked i c exts (begin s)) i) exts = extentLfns (ldOf s i) exts := by rw [hld]; rfl
  have hout : (releaseAsked i c exts (begin s)).out = [] := rfl
  have hreqs : (releaseAsked i c exts (begin s)).host.reqs = s.host.reqs := rfl
  generalize releaseAsked i c exts (begin s) = v at hrun hld hsame hout hreqs
  rw [← hreqs, ← hsame] at hreq
  rw [releaseGo_held hreq] at hrun
  have hload := ldOf_of_host (updLoad_host v) i
  rw [hld] at hload
  exact ⟨_, hrun, hout, (congrArg Ld.ranges hload :), (congrArg Ld.heldRelease hload :)⟩

/-- The dynamic capacity that a release takes. -/
def inExtents (exts : List Extent) (r : Range) : Bool :=
  r.dc && exts.any (fun e => Nat.ble e.frame.toNat r.frame && Nat.blt r.frame (e.frame.toNat + e.count.toNat))

theorem inExtents_false {exts : List Extent} {r : Range} (h : inExtents exts r = false) (hdc : r.dc = true) : ∀ e ∈ exts,
    ¬ (e.frame.toNat ≤ r.frame ∧ r.frame < e.frame.toNat + e.count.toNat) := by
  rintro e he ⟨hle, hlt⟩
  rw [inExtents, hdc, Bool.true_and] at h
  have hno := Bool.eq_false_iff.1 h
  refine hno (List.any_eq_true.2 ⟨e, he, ?_⟩)
  rw [Nat.ble_eq_true_of_le hle, Bool.true_and]
  exact Nat.ble_eq_true_of_le hlt

theorem dropRanges_ranges (p : Range → Bool) (h : i < s.host.lds.length) : (ldOf (dropRanges i p s) i).ranges = (ldOf s i).ranges.filter (fun r => !p r) := by
  have hsent := ldOf_of_host (sendMap_host i (ldOf s i).ranges.length (setLd i (fun d => { d with ranges := d.ranges.filter (fun r => !p r) }) s)) i
  exact (congrArg Ld.ranges hsent).trans (congrArg Ld.ranges (ldOf_setLd_self _ h))

/-- A release that nothing holds back: the capacity is gone, its caller answered. -/
theorem releaseGo_released {exts : List Extent} (hi : i < s.host.lds.length) (herase : (ldOf s i).erase = none)
    (hreq : ∀ r ∈ s.host.reqs, lfnOf r.lln ∉ extentLfns (ldOf s i) exts)
    (hzero : (extentLfns (ldOf s i) exts).any (zeroPending (emptyAll mUnmapped (extentLfns (ldOf s i) exts) s)) = false) :
    .cxl c .success .none ∈ (releaseGo i (some c) exts s).out ∧ ∀ r ∈ (ldOf (releaseGo i (some c) exts s) i).ranges, inExtents exts r = false := by
  have hgo : ¬ ((ldOf s i).erase.isSome || s.host.reqs.any (fun r => (extentLfns (ldOf s i) exts).contains (lfnOf r.lln))) = true := by
    have hany : s.host.reqs.any (fun r => (extentLfns (ldOf s i) exts).contains (lfnOf r.lln)) = false := by
      rw [List.any_eq_false]
      exact fun r hr hc => hreq r hr (List.contains_iff_mem.1 hc)
    rw [herase, hany]
    exact Bool.false_ne_true
  have hcount : i < (emptyAll mUnmapped (extentLfns (ldOf s i) exts) s).host.lds.length := (count_of_keepW (emptyAll_keepW mUnmapped _ s)).symm ▸ hi
  unfold releaseGo
  rw [if_neg hgo]
  dsimp only
  rw [if_neg (Bool.eq_false_iff.1 hzero)]
  generalize emptyAll mUnmapped (extentLfns (ldOf s i) exts) s = v at hcount
  refine ⟨List.mem_append_right _ (List.mem_singleton_self _), fun r hr => ?_⟩
  rw [ldOf_of_host (send_host _ _), setLd_ranges (f := fun d => { d with
      heldRelease := d.heldRelease.filter (fun h => (some h.1, h.2) != (some c, exts))
      redo := if (some c).isNone then d.redo.filter (fun x => x != exts) else d.redo
      extents := d.extents.filter (fun x => !exts.any (extentIn x)) }) (fun _ => rfl), dropRanges_ranges _ hcount] at hr
  exact (Bool.not_eq_true' _).mp (List.mem_filter.1 hr).2

theorem release_acts (h : Taken c s false true) (hn : ldNamed s c ldb.toNat = some i) {exts : List Extent} (hlen : exts.length ≤ 256)
    (hheld : extentsHeld (ldOf s i) exts = true) (hget : s.host.lds[i]? = some (ldOf s i)) (herase : (ldOf s i).erase = none)
    (hreq : ∀ r ∈ s.host.reqs, lfnOf r.lln ∉ extentLfns (ldOf s i) exts)
    (hzero : (extentLfns (ldOf s i) exts).any (zeroPending (emptyAll 0 (extentLfns (ldOf s i) exts) (releaseAsked i c exts (begin s)))) = false) :
    Works (.releaseDynamicCapacity c ldb exts) s (fun u => .cxl c .success .none ∈ u.out ∧
      ∀ r ∈ (ldOf u i).ranges, r.dc = true → ∀ e ∈ exts, ¬ (e.frame.toNat ≤ r.frame ∧ r.frame < e.frame.toNat + e.count.toNat)) := by
  have hrun := release_goes h hn hlen hheld
  have hi : i < (begin s).host.lds.length := lt_of_getElem?_eq hget
  have hld : ldOf (releaseAsked i c exts (begin s)) i = { ldOf s i with heldRelease := (ldOf s i).heldRelease ++ [(c, exts)] } := releaseAsked_ld (s := begin s) exts hi
  have hsame : extentLfns (ldOf (releaseAsked i c exts (begin s)) i) exts = extentLfns (ldOf s i) exts := by rw [hld]; rfl
  have hidle : (ldOf (releaseAsked i c exts (begin s)) i).erase = none := by rw [hld]; exact herase
  have hcount : i < (releaseAsked i c exts (begin s)).host.lds.length := (setLd_count i _ (begin s)).symm ▸ hi
  have hreqs : (releaseAsked i c exts (begin s)).host.reqs = s.host.reqs := rfl
  generalize releaseAsked i c exts (begin s) = v at hrun hsame hidle hcount hreqs hzero
  rw [← hreqs, ← hsame] at hreq
  rw [← hsame] at hzero
  obtain ⟨hout, hranges⟩ := releaseGo_released (c := c) hcount hidle hreq hzero
  generalize releaseGo i (some c) exts v = w at hrun hout hranges
  refine ⟨_, hrun, hout, fun r hr => inExtents_false (hranges r ?_)⟩
  rwa [ldOf_of_host (updLoad_host w)] at hr

end

/-- Settles O23: poison and erase by their LD; offers by taking the first off; a release by what holds it back. -/
theorem cxlCapacityAndPoison : Obligations.CxlCapacityAndPoison := by
  unfold Obligations.CxlCapacityAndPoison
  intro c ldb s i h hn
  refine ⟨fun a lln hpl herase htarget => injectPoison_acts h hn hpl herase htarget, fun a hpl => injectPoison_refused h hpl,
    fun a lln data herase htarget => clearPoison_acts h hn data herase htarget,
    fun herase => ⟨_, (rfl : _ = execSanitize c ldb s).trans (erase_starts (secure := false) h hn herase), _, rfl, rfl⟩,
    fun herase => ⟨_, (rfl : _ = execSecureErase c ldb s).trans (erase_starts (secure := true) h hn herase), _, rfl, rfl⟩,
    fun herase => ⟨ends_of_ran ((rfl : _ = execSanitize c ldb s).trans (erase_busy (secure := false) h hn herase)) rfl,
      ends_of_ran ((rfl : _ = execSecureErase c ldb s).trans (erase_busy (secure := true) h hn herase)) rfl⟩,
    fun e hget hoff => addDc_taken h hn hget hoff, fun e hget hoff => addDc_declined h hn hget hoff,
    fun exts hlen hheld hget _ hreq => release_heldBack h hn hlen hheld hget hreq,
    fun exts hlen hheld hget herase hreq hzero => release_acts h hn hlen hheld hget herase hreq hzero,
    fun exts hbad => release_refused h hn hbad⟩

end Sys2Proof.Machine
end

section
/-! SUPPORT. The commands of a span (O43): what a dropped move and a change of mode leave of the jobs, and each command's row. -/

namespace Sys2Proof.Machine

/-! ### Dropped moves end their jobs and start none -/

def jobsOf (s : State) := s.unit

section
variable {s t u : State}

theorem jobsOf_mk {x_out x_free x_id x_time x_tt x_host x_cache x_rstat x_write x_xlat x_mm x_lp x_media x_span x_queue x_wb x_evt x_sb x_power x_therm x_start x_fw x_sec} :
    jobsOf (State.mk s.pending x_out x_free s.variant x_id x_time x_tt s.unit x_host x_cache x_rstat x_write x_xlat x_mm x_lp x_media x_span x_queue x_wb x_evt x_sb x_power x_therm x_start x_fw x_sec) = jobsOf s := rfl

theorem jobsOf_foldl {α : Type} (g : State → α → State) (l : List α) (s : State) (h : ∀ s a, jobsOf (g s a) = jobsOf s) : jobsOf (l.foldl g s) = jobsOf s := by
  induction l generalizing s with
  | nil => rfl
  | cons a l ih => exact (ih _).trans (h s a)

theorem jobsOf_ite {c : Prop} [Decidable c] (a b : State) : jobsOf (if c then a else b) = if c then jobsOf a else jobsOf b := apply_ite jobsOf c a b

end

theorem event_jobs (e : Ev) (s : State) : jobsOf (event e s) = jobsOf s := unit_of_keepE (event_heralds e s).keep

theorem fire_jobs (p u : Nat) (s : State) : jobsOf (fire p u s) = jobsOf s := unit_of_keepE ((Heralds.refl s).fire p u).keep

theorem hbmWrite_jobs (u : HbmUnit) (s : State) : jobsOf (hbmWrite u s) = jobsOf s := by
  unfold hbmWrite
  repeat' first | simp only [jobsOf_mk, jobsOf_ite, ite_self, fire_jobs] | split

theorem ceError_jobs (cls : Nat) (ix : Nat) (s : State) : jobsOf (ceError cls ix s) = jobsOf s := by
  unfold ceError
  simp only [jobsOf_mk, jobsOf_ite, ite_self, event_jobs]

theorem tagTouch_jobs (tag : Nat) (s : State) : jobsOf (tagTouch tag s) = jobsOf s := by
  unfold tagTouch
  repeat' first | simp only [jobsOf_mk, jobsOf_ite, ite_self, fire_jobs, ceError_jobs] | split

theorem slotTagTouch_jobs (lln : Nat) (s : State) : jobsOf (slotTagTouch lln s) = jobsOf s := by
  unfold slotTagTouch
  repeat' first | simp only [jobsOf_foldl, implies_true, tagTouch_jobs] | split

theorem tagsWritten_jobs (lln : Nat) (s : State) : jobsOf (tagsWritten lln s) = jobsOf s := by
  unfold tagsWritten
  simp only [hbmWrite_jobs, slotTagTouch_jobs]

theorem markSlot_jobs (lln : Nat) (f : DSlot → DSlot) (s : State) : jobsOf (markSlot lln f s) = jobsOf s := by
  unfold markSlot
  repeat' first | simp only [jobsOf_mk, tagsWritten_jobs] | split

theorem markDraining_jobs (lfn : Nat) (v : Bool) (s : State) : jobsOf (markDraining lfn v s) = jobsOf s := by
  unfold markDraining
  simp only [jobsOf_foldl, implies_true, markSlot_jobs]

theorem markInflight_jobs (lfn : Nat) (v : Bool) (s : State) : jobsOf (markInflight lfn v s) = jobsOf s := by
  unfold markInflight
  simp only [jobsOf_mk]

theorem ftInject_jobs (lfn : Nat) (s : State) : jobsOf (ftInject lfn s) = jobsOf s := by
  unfold ftInject
  repeat' first | simp only [jobsOf_mk, jobsOf_ite, ite_self, fire_jobs] | split

theorem ftCommit_jobs (lfn : Nat) (e : BitVec 32) (s : State) : jobsOf (ftCommit lfn e s) = jobsOf s := by
  unfold ftCommit
  simp only [jobsOf_mk, ftInject_jobs, hbmWrite_jobs]

theorem commitQuiet_jobs (lfn : Nat) (e : BitVec 32) (s : State) : jobsOf (commitQuiet lfn e s) = jobsOf s := by
  unfold commitQuiet
  simp only [jobsOf_ite, ite_self, ftCommit_jobs]

theorem wearBy_jobs (f : Nat) (n : Nat) (s : State) : jobsOf (wearBy f n s) = jobsOf s := by
  unfold wearBy
  simp only [jobsOf_mk]

theorem lineInject_jobs (ch : Nat) (die : Nat) (l : MediaLine) (s : State) : jobsOf (lineInject ch die l s).2 = jobsOf s := by
  unfold lineInject
  repeat' first | simp only [fire_jobs] | split

theorem putLine_jobs (ch : Nat) (die : Nat) (bank : Nat) (block : Nat) (addr : Nat) (v : Cellv) (s : State) : jobsOf (putLine ch die bank block addr v s) = jobsOf s := by
  unfold putLine
  simp only [jobsOf_mk]

theorem programLine_jobs (ch : Nat) (die : Nat) (bank : Nat) (block : Nat) (addr : Nat) (l : MediaLine) (s : State) : jobsOf (programLine ch die bank block addr l s) = jobsOf s := by
  unfold programLine
  simp only [lineInject_jobs, putLine_jobs]

theorem descPut_jobs (f : Nat) (copy : Nat) (k : Nat) (x3 : Nat) (s : State) : jobsOf (descPut f copy k x3 s) = jobsOf s := by
  unfold descPut
  simp only [jobsOf_ite, ite_self, programLine_jobs]

theorem fsSet_jobs (f : Nat) (e : BitVec 64) (s : State) : jobsOf (fsSet f e s) = jobsOf s := by
  unfold fsSet
  repeat' first | simp only [jobsOf_mk, jobsOf_ite, ite_self, fire_jobs] | split

theorem descWrite_jobs (f : Nat) (s : State) : jobsOf (descWrite f s) = jobsOf s := by
  unfold descWrite
  simp only [jobsOf_mk, wearBy_jobs, descPut_jobs]

theorem releaseSet_jobs (f : Nat) (s : State) : jobsOf (releaseSet f s) = jobsOf s := by
  unfold releaseSet
  simp only [jobsOf_mk, descWrite_jobs, fsSet_jobs]

theorem endMove_jobs (lfn : Nat) (s : State) : jobsOf (endMove lfn s) = jobsOf s := by
  unfold endMove
  simp only [jobsOf_mk]

theorem dropMove_jobs (m : FastMove) (s : State) : jobsOf (dropMove m s) = jobsOf s := by
  unfold dropMove
  simp only [jobsOf_ite, ite_self, releaseSet_jobs, markDraining_jobs, endMove_jobs, markInflight_jobs, commitQuiet_jobs]


/-- No job is started, and none is given a number. -/
def StartsNoJob (s u : State) : Prop := u.unit.nextJob = s.unit.nextJob ∧ u.unit.running.length ≤ s.unit.running.length

theorem StartsNoJob.trans {s t u : State} (hst : StartsNoJob s t) (htu : StartsNoJob t u) : StartsNoJob s u :=
  ⟨htu.1.trans hst.1, htu.2.trans hst.2⟩

theorem startsNoJob_of_unit {s u : State} (h : u.unit = s.unit) : StartsNoJob s u := by
  unfold StartsNoJob
  rw [h]
  exact ⟨rfl, Nat.le_refl _⟩

theorem endJob_startsNoJob (id : BitVec 16) (m : Nat) (s : State) : StartsNoJob s (endJob id m s) := by
  refine ⟨nextJob_of_keepW (endJob_keepW id m s), ?_⟩
  rw [endJob_running]
  exact List.length_filter_le ..

theorem dropMoves_startsNoJob (s : State) : StartsNoJob s (dropMoves s) := by
  unfold dropMoves
  refine List.foldlRecOn (motive := StartsNoJob s) _ _ (startsNoJob_of_unit rfl) (fun t ht m _ => ht.trans ?_)
  have hdrop : StartsNoJob t (dropMove m t) := startsNoJob_of_unit (dropMove_jobs m t)
  cases m.job with
  | none => exact hdrop
  | some j => exact hdrop.trans (endJob_startsNoJob j _ _)

/-! ### A changed state of a member, a changed commit mode -/

/-- The units, the place in the span and the number of LDs. -/
structure PlaceKept (s u : State) : Prop where
  unit : u.unit = s.unit
  own : u.span.own = s.span.own
  desc : u.span.desc = s.span.desc
  count : u.host.lds.length = s.host.lds.length

section
variable {s t u : State}

theorem PlaceKept.trans (hst : PlaceKept s t) (htu : PlaceKept t u) : PlaceKept s u :=
  ⟨htu.unit.trans hst.unit, htu.own.trans hst.own, htu.desc.trans hst.desc, htu.count.trans hst.count⟩

theorem Heralds.placeKept (h : Heralds s u) : PlaceKept s u :=
  ⟨unit_of_keepE h.keep, congrArg SpanSt.own (span_of_keepE h.keep), congrArg SpanSt.desc (span_of_keepE h.keep), h.count⟩

theorem Posts.placeKept (h : Posts s u) : PlaceKept s u := by
  obtain ⟨o, e, ps, ss, n, rfl⟩ := h
  exact ⟨rfl, rfl, rfl, rfl⟩

end

theorem stateEvent_placeKept (u : Nat) (old new : UState) (reason : Nat) (repl : Bool) (s : State) : PlaceKept s (stateEvent u old new reason repl s) :=
  (event_heralds _ s).placeKept

theorem spanEval_placeKept (s : State) : PlaceKept s (spanEval s) := by
  unfold spanEval
  extract_lets old code span t
  have ht : PlaceKept s t := ⟨rfl, rfl, rfl, rfl⟩
  split
  · split
    · exact ht
    · exact ht.trans (stateEvent_placeKept ..)
  · exact ht

theorem setPeerSt_placeKept (r st : Nat) (s : State) : PlaceKept s (setPeerSt r st s) := by
  unfold setPeerSt
  extract_lets u old t
  have ht : PlaceKept s t := (setPeer_posts ..).placeKept
  refine PlaceKept.trans ?_ (spanEval_placeKept _)
  split
  · exact ht
  · exact ht.trans (stateEvent_placeKept ..)

theorem enterSpan_startsNoJob (d : SpanDesc) (r st : Nat) (s : State) : StartsNoJob s (enterSpan d r st s) :=
  startsNoJob_of_unit (setPeerSt_placeKept ..).unit

theorem enterSpan_desc (d : SpanDesc) (r st : Nat) (s : State) : (enterSpan d r st s).span.desc = some d := (setPeerSt_placeKept ..).desc

theorem enterSpan_own (d : SpanDesc) (r st : Nat) (s : State) : (enterSpan d r st s).span.own = BitVec.ofNat 4 r := (setPeerSt_placeKept ..).own

theorem enterSpan_count (d : SpanDesc) (r st : Nat) (s : State) : (enterSpan d r st s).host.lds.length = s.host.lds.length :=
  (setPeerSt_placeKept ..).count

/-- What a change of mode posts once the LD holds the new mode. -/
theorem setMode_posts {i : Nat} {m : CommitMode} {s : State} (h : (ldOf s i).mode ≠ m) :
    Posts (setLd i (fun d => { d with mode := m, cdatChanged := true }) s) (setMode i m s) := by
  unfold setMode
  rw [if_neg h]
  refine Posts.trans ?_ (sendMap_posts ..)
  split
  · exact send_posts ..
  · exact .refl _

theorem setMode_placeKept (i : Nat) (m : CommitMode) (s : State) : PlaceKept s (setMode i m s) := by
  by_cases h : (ldOf s i).mode = m
  · unfold setMode
    rw [if_pos h]
    exact ⟨rfl, rfl, rfl, rfl⟩
  · have hset : PlaceKept s (setLd i (fun d => { d with mode := m, cdatChanged := true }) s) := ⟨rfl, rfl, rfl, setLd_count ..⟩
    exact hset.trans (setMode_posts h).placeKept

theorem Posts.mode {s u : State} (h : Posts s u) (i : Nat) : (ldOf u i).mode = (ldOf s i).mode := by
  obtain ⟨o, e, ps, ss, n, rfl⟩ := h
  rfl

theorem setMode_mode {i : Nat} (m : CommitMode) {s : State} (hi : i < s.host.lds.length) : (ldOf (setMode i m s) i).mode = m := by
  by_cases h : (ldOf s i).mode = m
  · unfold setMode
    rwa [if_pos h]
  · exact ((setMode_posts h).mode i).trans (congrArg Ld.mode (ldOf_setLd_self _ hi) :)

theorem setMode_mode_of (j : Nat) {i : Nat} {m : CommitMode} {s : State} (h : (ldOf s i).mode = m) : (ldOf (setMode j m s) i).mode = m := by
  by_cases hj : (ldOf s j).mode = m
  · unfold setMode
    rwa [if_pos hj]
  · have hne : i ≠ j := fun hij => hj (hij ▸ h)
    exact ((setMode_posts hj).mode i).trans ((congrArg Ld.mode (ldOf_setLd_ne _ hne)).trans h)

theorem allModes_placeKept (m : CommitMode) (s : State) : PlaceKept s (allModes m s) :=
  List.foldlRecOn (motive := PlaceKept s) _ _ ⟨rfl, rfl, rfl, rfl⟩ (fun _ ht _ _ => ht.trans (setMode_placeKept ..))

theorem foldl_setMode_mode {m : CommitMode} {i : Nat} (l : List Nat) (s : State) (hi : i < s.host.lds.length) (h : i ∈ l ∨ (ldOf s i).mode = m) :
    (ldOf (l.foldl (fun s i => setMode i m s) s) i).mode = m := by
  induction l generalizing s with
  | nil => exact h.resolve_left List.not_mem_nil
  | cons j l ih =>
    refine ih _ ((setMode_placeKept j m s).count.symm ▸ hi) ?_
    rcases h with h | h
    · rcases List.mem_cons.1 h with rfl | h
      · exact .inr (setMode_mode m hi)
      · exact .inl h
    · exact .inr (setMode_mode_of j h)

theorem allModes_mode (m : CommitMode) {s : State} {i : Nat} (h64 : i < 64) (hi : i < s.host.lds.length) : (ldOf (allModes m s) i).mode = m :=
  foldl_setMode_mode _ s hi (.inl (List.mem_range.2 h64))

/-! ### The rows -/

section
variable {s : State} {c : Caller} {inp : List Byte}

theorem vStartWrite_runs {op : Nat} {k : JobKind} {rs : State → List SbReq} {eff : State → State} (hroom : s.unit.running.length < 64)
    (hne : rs s ≠ []) (hcan : sbCanStart s = true) (heff : StartsNoJob (sbCommand s (rs s)).2 (eff (sbCommand s (rs s)).2)) :
    vStartWrite op c k rs eff s = ({ mstat := 1, job := s.unit.nextJob.toNat }, (startJob op c k (eff (sbCommand s (rs s)).2)).2) := by
  have hran : (sbCommand s (rs s)).1 = true := (sbCommand_fst hne s).trans hcan
  have hunit : (sbCommand s (rs s)).2.unit = s.unit := unit_of_keepE (sbCommand_keepE s (rs s))
  obtain ⟨hnext, hlen⟩ := heff
  rw [hunit] at hnext hlen
  unfold vStartWrite
  rw [if_neg (Nat.not_le.2 hroom)]
  dsimp only
  rw [if_pos hran, vStart_room (Nat.lt_of_le_of_lt hlen hroom), hnext]

/-- No check of a span command refuses it. -/
theorem span_permitted {b : Bool} (a : VAns) (hb : b = false) (hj : spanJob s = none) : firstOf [chk b a, spanBusy s] = none := by
  unfold spanBusy
  rw [hb, hj]
  rfl

theorem descFields_fit : ∀ f ∈ descFields, f.1 + f.2 ≤ 60 := by decide

theorem spanJoin_permitted {d : SpanDesc} {r : Nat} (hdesc : s.span.desc = none) (hrole : ownRole s = 1) (hplace : placeIn s d = some r)
    (hgen : storedSgen s < d.sgen.toNat) (hframes : framesReady s = true) (hparity : parityFree s d r = true) :
    (s.span.desc.isSome || ownRole s != 1 || (placeIn s d).isNone || Nat.ble d.sgen.toNat (storedSgen s) || !framesReady s ||
      !parityFree s d ((placeIn s d).getD 0)) = false := by
  have hble : Nat.ble d.sgen.toNat (storedSgen s) = false := Bool.eq_false_iff.2 (fun hle => Nat.not_le.2 hgen (Nat.le_of_ble_eq_true hle))
  rw [hdesc, hrole, hplace, hble, hframes]
  exact congrArg (!·) hparity

theorem placeIn_of_span {t : State} (h : t.span = s.span) (d : SpanDesc) : placeIn t d = placeIn s d := by
  unfold placeIn
  rw [h]

theorem sbCommand_span (rs : List SbReq) (t : State) : (sbCommand t rs).2.span = t.span := span_of_keepE (sbCommand_keepE t rs)

theorem spanJoin_works {r : Nat} (h : Heard c inp s false false false true 60) (he : descEarly inp s = none) (hj : spanJob s = none)
    (hroom : s.unit.running.length < 64) (hcan : sbCanStart s = true) (hdesc : s.span.desc = none) (hrole : ownRole s = 1)
    (hplace : placeIn s (descIn inp) = some r) (hgen : storedSgen s < (descIn inp).sgen.toNat) (hframes : framesReady s = true)
    (hparity : parityFree s (descIn inp) r = true) : Works (.spanJoin c inp) s (Told c 1 s.unit.nextJob.toNat (startJob 0xC303 c .spanJoin
      (allModes .relaxed (dropMoves (enterSpan (descIn inp) r psJoining
        (sbCommand (begin s) [.ring 0x41 0 (spanDescBytes (descIn inp) ++ bytesOf 1 psJoining)]).2)))).2) := by
  have hexec : exec (.spanJoin c inp) s = execSpanJoin c inp s := rfl
  refine ⟨_, heard_told (a := { mstat := 1, job := s.unit.nextJob.toNat }) hexec h descFields_fit he
    (span_permitted (s := begin s) _ (spanJoin_permitted (s := begin s) hdesc hrole hplace hgen hframes hparity) hj) rfl (Nat.le_refl 1) rfl
    ((vStartWrite_runs (s := begin s) hroom (List.cons_ne_nil _ _) hcan
      ((enterSpan_startsNoJob ..).trans ((dropMoves_startsNoJob _).trans (startsNoJob_of_unit (allModes_placeKept ..).unit)))).trans ?_), rfl⟩
  have hin : placeIn (sbCommand (begin s) [.ring 0x41 0 (spanDescBytes (descIn inp) ++ bytesOf 1 psJoining)]).2 (descIn inp) = some r :=
    (placeIn_of_span (sbCommand_span _ _) _).trans hplace
  rw [hin]
  rfl

/-- What SPAN_UPDATE does to the state in which its record is written: the members that changed lose their wards' places, the description is the new one. -/
def spanUpdated (d : SpanDesc) (s : State) : State :=
  let s := ((List.range (spanN s)).filter (fun r => memberPool s r ≠ (d.members.getD r 0xFFFF).toNat % 512)).foldl (fun s r => { s with span := { s.span with
    aliases := sput s.span.aliases r (wardPool s r), peers := lmod s.span.peers r (fun p => { st := p.st }) } }) s
  { s with span := { s.span with desc := some d } }

theorem spanUpdated_desc (d : SpanDesc) (s : State) : (spanUpdated d s).span.desc = some d := rfl

theorem spanUpdated_place (d : SpanDesc) (s : State) : (spanUpdated d s).span.own = s.span.own ∧ (spanUpdated d s).span.spanState = s.span.spanState := by
  unfold spanUpdated
  exact List.foldlRecOn (motive := fun t : State => t.span.own = s.span.own ∧ t.span.spanState = s.span.spanState) _ _ ⟨rfl, rfl⟩ (fun _ ht _ _ => ht)

theorem spanUpdated_member (d : SpanDesc) (s : State) {r : Nat} (h : memberPool s r = (d.members.getD r 0xFFFF).toNat % 512) :
    sfind (spanUpdated d s).span.aliases r = sfind s.span.aliases r ∧ peerOf (spanUpdated d s) r = peerOf s r := by
  unfold spanUpdated
  refine List.foldlRecOn (motive := fun t : State => sfind t.span.aliases r = sfind s.span.aliases r ∧ peerOf t r = peerOf s r) _ _ ⟨rfl, rfl⟩
    (fun t ht r' hr' => ?_)
  obtain ⟨halias, hpeer⟩ := ht
  have hne : r ≠ r' := by
    rintro rfl
    exact of_decide_eq_true (List.mem_filter.1 hr').2 h
  exact ⟨(sfind_sput_ne _ _ hne).trans halias, (getD_lmod_ne _ _ _ hne).trans hpeer⟩

theorem memberPool_of_span {t : State} (h : t.span = s.span) (r : Nat) : memberPool t r = memberPool s r := by
  unfold memberPool
  rw [h]

theorem spanLeave_permitted {t : State} (h : t.span.spanState = 1 ∨ (t.span.desc.isSome = true ∧ (peerOf t (ownIndex t)).st.toNat = psUnhitched)) :
    (!(t.span.spanState == 1 || (t.span.desc.isSome && (peerOf t (ownIndex t)).st.toNat == psUnhitched))) = false := by
  rcases h with h | ⟨hsome, hst⟩
  · rw [h]
    rfl
  · rw [hsome, hst]
    exact congrArg (!·) (Bool.or_true _)

/-- Where no span job runs, the job that leaves the span is found once started. -/
theorem startJob_found (op : Nat) (c : Caller) {t : State} (h : spanJob t = none) :
    (startJob op c .spanLeave t).2.unit.running.find? (fun j => j.kind == .spanLeave) = some ⟨t.unit.nextJob, BitVec.ofNat 16 op, c, .spanLeave, 0, false, 1, 0⟩ := by
  have hnone : t.unit.running.find? (fun j => j.kind == .spanLeave) = none := by
    unfold spanJob at h
    rw [List.find?_eq_none] at h ⊢
    intro j hj hk
    refine h j hj ?_
    rw [hk, Bool.or_true]
  unfold startJob
  dsimp only
  rw [List.find?_append, hnone]
  rfl

/-- What SPAN_LEAVE does after its answer: its job leaves the span and ends. -/
def afterLeave (s : State) : State :=
  match s.unit.running.find? (fun j => j.kind == .spanLeave) with
  | some j => mediaNext (updLoad (endJob j.id 0 (leaveSpan s)))
  | none => s

theorem afterLeave_found {t : State} {j : Job} (h : t.unit.running.find? (fun j => j.kind == .spanLeave) = some j) :
    afterLeave t = mediaNext (updLoad (endJob j.id 0 (leaveSpan t))) := by
  unfold afterLeave
  rw [h]

theorem spanLeave_works (h : Heard c inp s false false false true 0) (hj : spanJob s = none) (hroom : s.unit.running.length < 64)
    (hcan : sbCanStart s = true) (hst : s.span.spanState = 1 ∨ (s.span.desc.isSome = true ∧ (peerOf s (ownIndex s)).st.toNat = psUnhitched)) :
    Works (.spanLeave c inp) s (fun u => ∃ w, Told c 1 s.unit.nextJob.toNat
      (startJob 0xC306 c .spanLeave (sbCommand (begin s) [.ring 0x41 0 (noDescBytes s)]).2).2 w ∧ u = updLoad (endJob s.unit.nextJob 0 (leaveSpan w))) := by
  have hexec : exec (.spanLeave c inp) s = execSpanLeave c inp s := rfl
  have hran : exec (.spanLeave c inp) s = ran (afterLeave (send
      (startJob 0xC306 c .spanLeave (sbCommand (begin s) [.ring 0x41 0 (noDescBytes s)]).2).2 (.vendor c .success (reply 1 s.unit.nextJob.toNat [])))) :=
    heard_told (a := { mstat := 1, job := s.unit.nextJob.toNat }) (after := afterLeave) hexec h (fun _ hf => absurd hf List.not_mem_nil) rfl
    (span_permitted (s := begin s) _ (spanLeave_permitted (t := begin s) hst) hj) rfl (Nat.le_refl 1) rfl
    (vStartWrite_runs (s := begin s) hroom (List.cons_ne_nil _ _) hcan (startsNoJob_of_unit rfl))
  have hunit : (sbCommand (begin s) [.ring 0x41 0 (noDescBytes s)]).2.unit = s.unit := unit_of_keepE (sbCommand_keepE _ _)
  have hnone : spanJob (sbCommand (begin s) [.ring 0x41 0 (noDescBytes s)]).2 = none := by
    unfold spanJob at hj ⊢
    rw [hunit, hj]
  have hfound := startJob_found 0xC306 c hnone
  rw [hunit] at hfound
  refine ⟨_, hran.trans ?_, _, rfl, rfl⟩
  generalize (startJob 0xC306 c .spanLeave (sbCommand (begin s) [.ring 0x41 0 (noDescBytes s)]).2).2 = w at hfound
  rw [afterLeave_found (t := send w _) hfound]
  rfl

theorem unhitchRequest_permitted {t : State} (hdesc : t.span.desc.isSome = true)
    (hst : (peerOf t (ownIndex t)).st.toNat = psJoining ∨ (peerOf t (ownIndex t)).st.toNat = psLive) :
    (t.span.desc.isNone || !((peerOf t (ownIndex t)).st.toNat == psJoining || (peerOf t (ownIndex t)).st.toNat == psLive)) = false := by
  rw [Option.isNone_eq_false_iff.2 hdesc]
  rcases hst with hst | hst <;> rw [hst] <;> rfl

theorem unhitchRequest_works (h : Heard c inp s false false false true 1) (hj : spanJob s = none) (hdesc : s.span.desc.isSome = true)
    (hst : (peerOf s (ownIndex s)).st.toNat = psJoining ∨ (peerOf s (ownIndex s)).st.toNat = psLive) :
    Works (.unhitchRequest c inp) s (fun u => ∃ w, Told c 0 0 (begin s) w ∧ u = unhitch (field inp 0 1) w) := by
  have hexec : exec (.unhitchRequest c inp) s = execUnhitchRequest c inp s := rfl
  have hran : exec (.unhitchRequest c inp) s = ran (mediaNext (unhitch (field inp 0 1) (send (begin s) (.vendor c .success (reply 0 0 []))))) :=
    heard_told (a := vDone []) (after := fun s => mediaNext (unhitch (field inp 0 1) s)) hexec h (by decide) rfl
      (span_permitted (s := begin s) _ (unhitchRequest_permitted (t := begin s) hdesc hst) hj) rfl (Nat.zero_le 1) rfl rfl
  exact ⟨_, hran, _, rfl, rfl⟩

theorem ldKeyTransfer_ends {i : Nat} (h : Heard c inp s false false false true 4) (hroom : s.unit.running.length < 64)
    (hld : ldNamed s c (field inp 0 1) = some i) (hpool : field inp 2 2 ≤ 511) (hkey : holdsKeyFor s (field inp 2 2) i = true) :
    Ends (.ldKeyTransfer c inp) s (fun u => ∃ w, Told c 1 s.unit.nextJob.toNat (startJob 0xC706 c (.keyTransfer i (field inp 2 2)) (begin s)).2 w ∧
      u = serveKey (field inp 2 2) i w) := by
  have hexec : exec (.ldKeyTransfer c inp) s = execLdKeyTransfer c inp s := rfl
  have hnamed : ldNamed (begin s) c (field inp 0 1) = some i := hld
  have hholds : holdsKeyFor (begin s) (field inp 2 2) i = true := hkey
  have hafter : ldNamed (send (startJob 0xC706 c (.keyTransfer i (field inp 2 2)) (begin s)).2
    (.vendor c .success (reply 1 s.unit.nextJob.toNat []))) c (field inp 0 1) = some i := hld
  have hran : exec (.ldKeyTransfer c inp) s = ran (serveKey (field inp 2 2) ((ldNamed (send (startJob 0xC706 c (.keyTransfer i (field inp 2 2)) (begin s)).2
      (.vendor c .success (reply 1 s.unit.nextJob.toNat []))) c (field inp 0 1)).getD 0) (send (startJob 0xC706 c (.keyTransfer i (field inp 2 2)) (begin s)).2
      (.vendor c .success (reply 1 s.unit.nextJob.toNat [])))) := by
    refine heard_told (a := { mstat := 1, job := s.unit.nextJob.toNat })
      (after := fun s => serveKey (field inp 2 2) ((ldNamed s c (field inp 0 1)).getD 0) s) hexec h (by decide) ?_ ?_ rfl (Nat.le_refl 1) rfl ?_
    · dsimp only
      rw [hnamed, chk_passes (b := Nat.blt 511 (field inp 2 2)) (fun hlt => Nat.not_lt.2 hpool (Nat.le_of_ble_eq_true hlt))]
      rfl
    · dsimp only
      rw [hnamed]
      exact chk_passes (by rw [Option.getD_some, hholds]; exact Bool.false_ne_true) _
    · dsimp only
      rw [hnamed]
      exact vStart_room hroom
  rw [hafter] at hran
  exact ⟨_, hran, _, rfl, rfl⟩

/-- The description `d` names the span, the place and the widths of the one held, one generation later at least. -/
def updateFits (d : SpanDesc) (s : State) : Bool :=
  match s.span.desc with
  | some o => d.span == o.span && d.k == o.k && d.m == o.m && d.f == o.f && Nat.blt o.sgen.toNat d.sgen.toNat && placeIn s d == some (ownIndex s)
  | none => false

theorem updateFits_of {t : State} {o d : SpanDesc} (hdesc : t.span.desc = some o) (hspan : d.span = o.span) (hk : d.k = o.k) (hm : d.m = o.m)
    (hf : d.f = o.f) (hgen : o.sgen.toNat < d.sgen.toNat) (hplace : placeIn t d = some (ownIndex t)) : updateFits d t = true := by
  have hlt : Nat.blt o.sgen.toNat d.sgen.toNat = true := Nat.ble_eq_true_of_le hgen
  unfold updateFits
  rw [hdesc]
  dsimp only
  rw [hspan, hk, hm, hf, hlt, hplace]
  simp only [BEq.rfl, Bool.and_true]

theorem spanUpdate_works {o : SpanDesc} (h : Heard c inp s false false false true 60) (he : descEarly inp s = none) (hj : spanJob s = none)
    (hcan : sbCanStart s = true) (hdesc : s.span.desc = some o) (hspan : (descIn inp).span = o.span) (hk : (descIn inp).k = o.k)
    (hm : (descIn inp).m = o.m) (hf : (descIn inp).f = o.f) (hgen : o.sgen.toNat < (descIn inp).sgen.toNat)
    (hplace : placeIn s (descIn inp) = some (ownIndex s)) :
    Works (.spanUpdate c inp) s (fun u => ∃ v, Told c 0 0 v u ∧ v.span.desc = some (descIn inp) ∧ v.span.own = s.span.own ∧
      v.span.spanState = s.span.spanState ∧ (∀ r, r < spanN s → memberPool s r = ((descIn inp).members.getD r 0xFFFF).toNat % 512 →
        sfind v.span.aliases r = sfind s.span.aliases r ∧ peerOf v r = peerOf s r)) := by
  have hexec : exec (.spanUpdate c inp) s = execSpanUpdate c inp s := rfl
  have hfits : (!updateFits (descIn inp) (begin s)) = false := by
    rw [updateFits_of (t := begin s) hdesc hspan hk hm hf hgen hplace]
    rfl
  have hran : exec (.spanUpdate c inp) s = ran (mediaNext (send (spanUpdated (descIn inp) (sbCommand (begin s)
      [.ring 0x41 0 (spanDescBytes (descIn inp) ++ bytesOf 1 (peerOf s (ownIndex s)).st.toNat)]).2) (.vendor c .success (reply 0 0 [])))) :=
    heard_told (a := vDone []) (after := mediaNext) hexec h descFields_fit he (span_permitted (s := begin s) _ hfits hj) rfl
      (Nat.zero_le 1) rfl (vWrite_runs (s := begin s) (eff := spanUpdated (descIn inp)) (List.cons_ne_nil _ _) hcan)
  refine ⟨_, hran, _, rfl, spanUpdated_desc .., ?_⟩
  have hspan : (sbCommand (begin s) [.ring 0x41 0 (spanDescBytes (descIn inp) ++ bytesOf 1 (peerOf s (ownIndex s)).st.toNat)]).2.span = s.span := sbCommand_span ..
  generalize (sbCommand (begin s) [.ring 0x41 0 (spanDescBytes (descIn inp) ++ bytesOf 1 (peerOf s (ownIndex s)).st.toNat)]).2 = w at hspan
  refine ⟨(spanUpdated_place ..).1.trans (congrArg SpanSt.own hspan), (spanUpdated_place ..).2.trans (congrArg SpanSt.spanState hspan), fun r _ hr => ?_⟩
  obtain ⟨halias, hpeer⟩ := spanUpdated_member (descIn inp) w ((memberPool_of_span hspan r).trans hr)
  exact ⟨halias.trans (congrArg (fun x : SpanSt => sfind x.aliases r) hspan), hpeer.trans (congrArg (fun x : SpanSt => x.peers.getD r {}) hspan)⟩

theorem remountBind_permitted {t : State} {d : SpanDesc} {r : Nat} (hdesc : t.span.desc = none) (hframes : framesReady t = true)
    (hft : ∀ e ∈ t.xlat.ft, ftMode e.2 = mUnmapped) (hrole : ownRole t = 3) (hplace : placeIn t d = some r) :
    (t.span.desc.isSome || !framesReady t || t.xlat.ft.any (fun e => ftMode e.2 != mUnmapped) || ownRole t != 3 || placeIn t d != some r) = false := by
  have hany : t.xlat.ft.any (fun e => ftMode e.2 != mUnmapped) = false := by
    refine List.any_eq_false.2 (fun e he => ?_)
    rw [hft e he, bne_self_eq_false]
    exact Bool.false_ne_true
  rw [hdesc, hframes, hany, hrole, hplace, bne_self_eq_false (some r)]
  rfl

/-- The LDs without their capacity. -/
def emptied (s : State) : State :=
  { s with host := { s.host with lds := s.host.lds.map (fun x => { x with ranges := [], extents := [] }) } }

/-- The state in which the remount starts. -/
def remountBound (self : State → Nat) (entry : SpanDesc → State → PoolEntry) (r : Nat) (d : SpanDesc) (s : State) : State :=
  let lost := lostPool s d r
  let s := { s with host := { s.host with lds := s.host.lds.map (fun x => { x with ranges := [], extents := [] }) } }
  let s := allModes .relaxed (enterSpan d r psRemount (withPool (self s) (entry d s) s))
  { s with span := { s.span with lost := lost } }

theorem PlaceKept.lost {t u : State} (h : PlaceKept t u) (p : Option Nat) : PlaceKept t { u with span := { u.span with lost := p } } :=
  ⟨h.unit, h.own, h.desc, h.count⟩

theorem mode_lost (i : Nat) (p : Option Nat) (t : State) : (ldOf { t with span := { t.span with lost := p } } i).mode = (ldOf t i).mode := rfl

/-- The remount starts in its place of the span, every LD in the Relaxed mode. -/
theorem remountBound_made (self : State → Nat) (entry : SpanDesc → State → PoolEntry) (r : Nat) (d : SpanDesc) (s : State) : ∃ i e,
    PlaceKept (enterSpan d r psRemount (withPool i e (emptied s))) (remountBound self entry r d s) ∧
    ∀ i, i < 64 → i < s.host.lds.length → (ldOf (remountBound self entry r d s) i).mode = .relaxed := by
  unfold remountBound
  extract_lets lost host t v
  have hv : PlaceKept (enterSpan d r psRemount (withPool (self t) (entry d t) t)) v := allModes_placeKept .relaxed _
  refine ⟨self t, entry d t, hv.lost lost, fun i h64 hi => (mode_lost i lost v).trans (allModes_mode .relaxed h64 ?_)⟩
  rw [enterSpan_count]
  exact (List.length_map (as := s.host.lds) _).symm ▸ hi

theorem remountBound_unit (self : State → Nat) (entry : SpanDesc → State → PoolEntry) (r : Nat) (d : SpanDesc) (s : State) : (remountBound self entry r d s).unit = s.unit := by
  obtain ⟨i, e, hkept, -⟩ := remountBound_made self entry r d s
  exact hkept.unit.trans (setPeerSt_placeKept ..).unit

theorem sbEnd_works (s : State) : SbWorks s (sbEnd s) := by
  unfold sbEnd
  dsimp only
  split <;> rfl

theorem SbWorks.count {s u : State} (h : SbWorks s u) : u.host.lds.length = s.host.lds.length := (congrArg (fun x : State => x.host.lds.length) h :)

theorem sbGroup_works (rs : List SbReq) (s : State) : SbWorks s (sbGroup s rs).2 := by
  have happly : SbWorks (sbEnd s) (rs.foldl sbApply (sbEnd s)) := List.foldlRecOn _ _ (.refl _) (fun t ht r _ => ht.trans (sbApply_works r t))
  have habandon : SbWorks (sbEnd s) (rs.foldl sbAbandon (sbEnd s)) := List.foldlRecOn _ _ (.refl _) (fun t ht r _ => ht.trans (sbAbandon_works r t))
  unfold sbGroup
  extract_lets t
  refine (sbEnd_works s).trans ?_
  split
  · exact sbStart_works _
  · split
    · exact happly.trans (sbStart_works _)
    · exact habandon.trans (sbStart_works _)

theorem wbOverflow_heralds (s : State) : Heralds s (wbOverflow s) := by
  unfold wbOverflow
  extract_lets n cap e
  exact (((Heralds.refl s).wb _).event e).ite (.refl s)

theorem sbCommand_count (rs : List SbReq) (t : State) : (sbCommand t rs).2.host.lds.length = t.host.lds.length :=
  ((Heralds.refl _).wbPump.trans (wbOverflow_heralds _)).count.trans (sbGroup_works rs t).count

/-- The records that the remount writes. -/
def remountGroup (self : State → Nat) (entry : SpanDesc → State → PoolEntry) (d : SpanDesc) (s : State) : List SbReq :=
  [.ring 0x40 (self s / 15) (poolPayload (withPool (self s) (entry d s) s) (self s / 15)), .ring 0x41 0 (spanDescBytes d ++ bytesOf 1 psRemount)]

theorem remountBind_starts (self : State → Nat) (entry : SpanDesc → State → PoolEntry) (r : Nat) (d : SpanDesc) (hroom : s.unit.running.length < 64)
    (hcan : sbCanStart s = true) :
    vStartWrite 0xC305 c .remount (remountGroup self entry d) (remountBound self entry r d) s = ({ mstat := 1, job := s.unit.nextJob.toNat },
      (startJob 0xC305 c .remount (remountBound self entry r d (sbCommand s (remountGroup self entry d s)).2)).2) :=
  vStartWrite_runs hroom (List.cons_ne_nil _ _) hcan (startsNoJob_of_unit (remountBound_unit ..))

theorem remountBind_works {r : Nat} (h : Heard c inp s false false false true 61) (he : descEarly inp s = none) (hj : spanJob s = none)
    (hroom : s.unit.running.length < 64) (hcan : sbCanStart s = true) (hr : field inp 60 1 = r) (hlt : r < ((descIn inp).k + (descIn inp).m).toNat)
    (hdesc : s.span.desc = none) (hframes : framesReady s = true) (hft : ∀ e ∈ s.xlat.ft, ftMode e.2 = mUnmapped) (hrole : ownRole s = 3)
    (hplace : placeIn s (descIn inp) = some r) :
    Works (.remountBind c inp) s (fun u => ∃ w, Told c 1 s.unit.nextJob.toNat (startJob 0xC305 c .remount w).2 u ∧
      w.span.desc = some (raiseSgen s (descIn inp)) ∧ w.span.own = BitVec.ofNat 4 r ∧ (∀ i, i < 64 → i < s.host.lds.length → (ldOf w i).mode = .relaxed)) := by
  subst hr
  have hexec : exec (.remountBind c inp) s = execRemountBind c inp s := rfl
  have hfits : ∀ f ∈ descFields ++ [(60, 1)], f.1 + f.2 ≤ 61 := by decide
  have hearly : firstOf [descEarly inp (begin s), chk (Nat.ble ((descIn inp).k + (descIn inp).m).toNat (field inp 60 1)) (vRange 60)] = none := by
    have he' : descEarly inp (begin s) = none := he
    rw [he', chk_passes (fun hle => Nat.not_le.2 hlt (Nat.le_of_ble_eq_true hle))]
    rfl
  unfold execRemountBind at hexec
  extract_lets d₀ r self entry at hexec
  have hcount : (sbCommand (begin s) (remountGroup self entry (raiseSgen (begin s) d₀) (begin s))).2.host.lds.length = s.host.lds.length :=
    sbCommand_count ..
  have hran := heard_told (a := { mstat := 1, job := s.unit.nextJob.toNat }) hexec h hfits hearly
    (span_permitted (s := begin s) _ (remountBind_permitted (t := begin s) hdesc hframes hft hrole hplace) hj) rfl (Nat.le_refl 1) rfl
    (remountBind_starts (s := begin s) (c := c) self entry r (raiseSgen (begin s) d₀) hroom hcan)
  obtain ⟨i, e, hkept, hmodes⟩ := remountBound_made self entry r (raiseSgen (begin s) d₀)
    (sbCommand (begin s) (remountGroup self entry (raiseSgen (begin s) d₀) (begin s))).2
  exact ⟨_, hran, _, rfl, hkept.desc.trans (enterSpan_desc ..), hkept.own.trans (enterSpan_own ..), fun i h64 hi => hmodes i h64 (hcount ▸ hi)⟩

end

/-- Settles O43: each command of a span is heard, permitted and run, its Strongbox group written whole before its job starts. -/
theorem spanCommandsAct : Obligations.SpanCommandsAct := by
  unfold Obligations.SpanCommandsAct
  intro s c inp hroom hcan id d ran1
  refine ⟨fun h he hj => ⟨fun r hdesc hrole hplace hgen hframes hparity => ?_, fun o hdesc hspan hk hm hf hgen hplace => ?_⟩,
    fun r h he hj hr hlt hdesc hframes hft hrole hplace => ?_, fun h hj hst => ?_, fun h hj hdesc hst => ?_, fun i h hld hpool hkey => ?_⟩
  · exact spanJoin_works h he hj hroom hcan hdesc hrole hplace hgen hframes hparity
  · exact spanUpdate_works h he hj hcan hdesc hspan hk hm hf hgen hplace
  · exact remountBind_works h he hj hroom hcan hr hlt hdesc hframes hft hrole hplace
  · exact spanLeave_works h hj hroom hcan hst
  · exact unhitchRequest_works h hj hdesc hst
  · exact ldKeyTransfer_ends h hroom hld hpool hkey

end Sys2Proof.Machine
end

section
/-! SUPPORT. Heartbeats, their loss and the patch record streams (O48): what the work on records leaves of the span, and each message's row. -/

namespace Sys2Proof.Machine

/-! ### Work on segments and the Patch Index leaves the span alone -/

def spanOf (s : State) := s.span

section
variable {s t u : State}

theorem spanOf_mk {x_out x_free x_id x_time x_tt x_unit x_host x_cache x_rstat x_write x_xlat x_mm x_lp x_media x_queue x_wb x_evt x_sb x_power x_therm x_start x_fw x_sec} :
    spanOf (State.mk s.pending x_out x_free s.variant x_id x_time x_tt x_unit x_host x_cache x_rstat x_write x_xlat x_mm x_lp x_media s.span x_queue x_wb x_evt x_sb x_power x_therm x_start x_fw x_sec) = spanOf s := rfl

theorem spanOf_foldl {α : Type} (g : State → α → State) (l : List α) (s : State) (h : ∀ s a, spanOf (g s a) = spanOf s) : spanOf (l.foldl g s) = spanOf s := by
  induction l generalizing s with
  | nil => rfl
  | cons a l ih => exact (ih _).trans (h s a)

theorem spanOf_ite {c : Prop} [Decidable c] (a b : State) : spanOf (if c then a else b) = if c then spanOf a else spanOf b := apply_ite spanOf c a b

theorem spanOf_ite_eq {c : Prop} [Decidable c] {a b : State} (ha : spanOf a = spanOf s) (hb : spanOf b = spanOf s) : spanOf (if c then a else b) = spanOf s := by
  split <;> assumption

end

theorem fire_spanKept (p u : Nat) (s : State) : spanOf (fire p u s) = spanOf s := rfl

theorem hbmWrite_spanKept (u : HbmUnit) (s : State) : spanOf (hbmWrite u s) = spanOf s := by
  unfold hbmWrite
  repeat' first | simp only [spanOf_mk, spanOf_ite, ite_self, fire_spanKept] | split

theorem lineInject_spanKept (ch : Nat) (die : Nat) (l : MediaLine) (s : State) : spanOf (lineInject ch die l s).2 = spanOf s := by
  unfold lineInject
  repeat' first | simp only [fire_spanKept] | split

theorem putLine_spanKept (ch : Nat) (die : Nat) (bank : Nat) (block : Nat) (addr : Nat) (v : Cellv) (s : State) : spanOf (putLine ch die bank block addr v s) = spanOf s := by
  unfold putLine
  simp only [spanOf_mk]

theorem programLine_spanKept (ch : Nat) (die : Nat) (bank : Nat) (block : Nat) (addr : Nat) (l : MediaLine) (s : State) : spanOf (programLine ch die bank block addr l s) = spanOf s := by
  unfold programLine
  simp only [lineInject_spanKept, putLine_spanKept]

theorem fsSet_spanKept (f : Nat) (e : BitVec 64) (s : State) : spanOf (fsSet f e s) = spanOf s := by
  unfold fsSet
  repeat' first | simp only [spanOf_mk, spanOf_ite, ite_self, fire_spanKept] | split

theorem flagCopy_spanKept (set : Nat) (copy : Nat) (s : State) : spanOf (flagCopy set copy s) = spanOf s := by
  unfold flagCopy
  simp only [spanOf_ite, ite_self, fsSet_spanKept]

theorem fastStore_spanKept (set : Nat) (copy : Nat) (pos : Nat) (l : MediaLine) (s : State) : spanOf (fastStore set copy pos l s) = spanOf s := by
  unfold fastStore
  simp only [spanOf_ite, ite_self, flagCopy_spanKept, programLine_spanKept]

theorem fastStore2_spanKept (set : Nat) (pos : Nat) (l : MediaLine) (s : State) : spanOf (fastStore2 set pos l s) = spanOf s := by
  unfold fastStore2
  simp only [fastStore_spanKept]

theorem segPut_spanKept (k : Nat) (i : Nat) (l : MediaLine) (s : State) : spanOf (segPut k i l s) = spanOf s := by
  unfold segPut
  simp only [fastStore2_spanKept]

theorem placeSeg_spanKept (k : Nat) (g : Seg) (s : State) : spanOf (placeSeg k g s) = spanOf s := by
  unfold placeSeg
  simp only [spanOf_mk, segPut_spanKept]

theorem piNote_spanKept (es : List PiEnt) (s : State) : spanOf (piNote es s) = spanOf s := by
  unfold piNote
  simp only [spanOf_mk, spanOf_ite, ite_self]

theorem piDrop_spanKept (gone : PiEnt → Bool) (s : State) : spanOf (piDrop gone s) = spanOf s := by
  unfold piDrop
  simp only [spanOf_mk, spanOf_foldl, implies_true, hbmWrite_spanKept, piNote_spanKept]

theorem piRemove_spanKept (x0 : PiEnt) (s : State) : spanOf (piRemove x0 s) = spanOf s := by
  unfold piRemove
  simp only [piDrop_spanKept]

theorem piInsert_spanKept (e : PiEnt) (s : State) : spanOf (piInsert e s).2 = spanOf s := by
  unfold piInsert
  repeat' first | simp only [spanOf_mk, spanOf_ite, ite_self, fire_spanKept, hbmWrite_spanKept, piRemove_spanKept, piNote_spanKept] | split

/-! ### Wards -/

section
variable {s t u : State} {pool : Nat} {w : Ward}

theorem wardOf_of_span (h : spanOf u = spanOf s) : wardOf u pool = wardOf s pool := congrArg (fun x : SpanSt => x.wards.find? (fun w : Ward => w.pool == pool)) h

/-- A change of its ward that keeps the pool is read back. -/
theorem wardOf_setWard (f : Ward → Ward) (hf : ∀ w, (f w).pool = w.pool) (h : wardOf s pool = some w) : wardOf (setWard pool f s) pool = some (f w) := by
  unfold wardOf setWard at *
  have hpool : w.pool = pool := beq_iff_eq.1 (List.find?_some (p := fun w : Ward => w.pool == pool) h)
  dsimp only
  rw [List.find?_map]
  have hsame : (fun w : Ward => w.pool == pool) ∘ (fun w => if w.pool = pool then f w else w) = fun w => w.pool == pool := by
    funext x
    change ((if x.pool = pool then f x else x).pool == pool) = (x.pool == pool)
    split
    · rw [hf]
    · rfl
  rw [hsame, h, Option.map_some, if_pos hpool]

/-- The ward of `pool` keeps its place in the stream and its keys. -/
def WardAlike (pool : Nat) (s u : State) : Prop :=
  ∀ w, wardOf s pool = some w → ∃ w', wardOf u pool = some w' ∧ w'.bseq = w.bseq ∧ w'.chain = w.chain ∧ w'.keys = w.keys

theorem WardAlike.refl (s : State) : WardAlike pool s s := fun w hw => ⟨w, hw, rfl, rfl, rfl⟩

theorem WardAlike.trans (hst : WardAlike pool s t) (htu : WardAlike pool t u) : WardAlike pool s u := by
  intro w hw
  obtain ⟨w₁, hw₁, hb₁, hc₁, hk₁⟩ := hst w hw
  obtain ⟨w₂, hw₂, hb₂, hc₂, hk₂⟩ := htu w₁ hw₁
  exact ⟨w₂, hw₂, hb₂.trans hb₁, hc₂.trans hc₁, hk₂.trans hk₁⟩

theorem wardAlike_of_wards (h : u.span.wards = s.span.wards) : WardAlike pool s u :=
  fun w hw => ⟨w, (congrArg (List.find? (fun w : Ward => w.pool == pool)) h).trans hw, rfl, rfl, rfl⟩

theorem wardAlike_of_span (h : spanOf u = spanOf s) : WardAlike pool s u := wardAlike_of_wards (congrArg SpanSt.wards h)

theorem Posts.wardAlike (h : Posts s u) : WardAlike pool s u := by
  obtain ⟨o, e, ps, ss, n, rfl⟩ := h
  exact .refl _

theorem setWard_alike (f : Ward → Ward) (hf : ∀ w, (f w).pool = w.pool ∧ (f w).bseq = w.bseq ∧ (f w).chain = w.chain ∧ (f w).keys = w.keys) (s : State) :
    WardAlike pool s (setWard pool f s) :=
  fun w hw => ⟨f w, wardOf_setWard f (fun w => (hf w).1) hw, (hf w).2⟩

theorem foreignSegment_alike {need k : Nat} {rnum : BitVec 48} (h : foreignSegment pool need rnum s = some (k, u)) : WardAlike pool s u := by
  unfold foreignSegment at h
  split at h
  · cases h
    exact .refl _
  · extract_lets t at h
    have ht : WardAlike pool s t := setWard_alike (fun w => { w with seg := none }) (fun _ => ⟨rfl, rfl, rfl, rfl⟩) s
    split at h
    · exact absurd h nofun
    · cases h
      exact ht.trans ((wardAlike_of_span (placeSeg_spanKept ..)).trans (setWard_alike (fun w => { w with seg := some k }) (fun _ => ⟨rfl, rfl, rfl, rfl⟩) _))

theorem storeForeign_alike (lln : Nat) (s : State) : WardAlike pool s (storeForeign pool lln s) := by
  unfold storeForeign
  split
  · exact .refl s
  next r _ =>
    extract_lets full n md entry
    split
    · exact .refl s
    next k t hseg =>
      extract_lets i place t₁ t₂ x t₃ t₄ t₅
      have h₁ : WardAlike pool s t₁ := (foreignSegment_alike hseg).trans (wardAlike_of_span (segPut_spanKept ..))
      have h₂ : WardAlike pool s t₂ := h₁.trans (wardAlike_of_span (spanOf_ite_eq rfl (segPut_spanKept ..)))
      have h₄ : WardAlike pool s t₄ := h₂.trans (wardAlike_of_span ((segPut_spanKept ..).trans spanOf_mk))
      have h₅ : WardAlike pool s t₅ := h₄.trans (wardAlike_of_span (spanOf_ite_eq rfl (segPut_spanKept ..)))
      exact h₅.trans ((setWard_alike (fun w => { w with places := sput w.places lln place }) (fun _ => ⟨rfl, rfl, rfl, rfl⟩) t₅).trans
        (wardAlike_of_span (piInsert_spanKept ..)))

theorem askKeys_alike (r : Nat) (s : State) : WardAlike pool s (askKeys r s) := by
  unfold askKeys
  split
  · exact .refl s
  · refine List.foldlRecOn (motive := WardAlike pool s) _ _ (.refl s) (fun t ht i _ => ?_)
    have hnoted : WardAlike pool t { t with span := { t.span with
      nextTag := t.span.nextTag + 2, mapAsked := t.span.mapAsked ++ [(t.span.nextTag, 64 * r + i)] } } := wardAlike_of_wards rfl
    exact ht.trans (hnoted.trans (peerSend_posts ..).wardAlike)

end

/-! ### A batch of records -/

section
variable {s : State} {h : MsgHdr} {b : Batch} {r pool : Nat}

/-- What a batch leaves in its ward: its records taken up, its number and chain. -/
def batchKept (b : Batch) (w : Ward) : Ward :=
  let w := (List.range b.records.length).foldl (fun w j =>
    match b.records[j]? with
    | some x => keepRecord w (times j nextRnum b.firstRnum) x
    | none => w) w
  { w with bseq := b.bseq, chain := b.chain }

/-- The header the batch's chain covers. -/
def batchHeader (h : MsgHdr) : List Byte := headerBytes 1 h.span.toNat h.ring h.src.toNat h.dst.toNat h.mseq h.ackto h.ftime h.len.toNat

/-- The ward as the batch meets it: at its start where the batch begins the stream. -/
def batchMet (h : MsgHdr) (b : Batch) (w : Ward) : Ward := if streamBegins w (batchHeader h) b then { w with bseq := 0, chain := 0 } else w

theorem batchMet_keys (h : MsgHdr) (b : Batch) (w : Ward) : (batchMet h b w).keys = w.keys := by
  unfold batchMet
  split <;> rfl

/-- What a batch does to the state its message is consumed in. -/
def batchRow (h : MsgHdr) (b : Batch) (r : Nat) (s : State) : State :=
  let pool := wardPool s r
  let s := addWard pool s
  match wardOf s pool with
  | none => s
  | some w =>
    let w := batchMet h b w
    if b.bseq.toNat ≤ w.bseq.toNat then peerSend r (.deltaAck 6 0 0 b.bseq (liveRecords s pool)) s
    else
      if b.bseq ≠ w.bseq + 1 ∨ batchChain (batchHeader h) b w.chain ≠ b.chain then peerSend r (.deltaAck 7 0 0 (w.bseq + 1) (liveRecords s pool)) s
      else
        let s := setWard pool (batchKept b) s
        let s := (dedup ((b.records.filter (fun x => x.kind == 0 || x.kind == 1)).map (fun x => x.lln.toNat))).foldl (fun s l => storeForeign pool l s) s
        askKeys r (peerSend r (.deltaAck 6 0 0 b.bseq (liveRecords s pool)) s)

theorem patchBatch_exec (hr : Received s h r) : exec (.patchBatch h b) s = ran (mediaNext (batchRow h b r (consumed r h s))) := by
  obtain ⟨hspan, hsender, hother, hnew⟩ := hr
  have hi : exec (.patchBatch h b) s = receive h none (batchRow h b) s := rfl
  refine hi.trans ((receive_known hspan hsender).trans (if_neg ?_))
  rintro (hown | hcrc | hold)
  · exact hother hown
  · exact absurd hcrc nofun
  · exact absurd hnew (Nat.not_lt.2 hold)

theorem keepRecord_place (w : Ward) (rn : BitVec 48) (x : Record) : (keepRecord w rn x).pool = w.pool ∧ (keepRecord w rn x).keys = w.keys := by
  unfold keepRecord
  dsimp only
  split
  · exact ⟨rfl, rfl⟩
  · split <;> exact ⟨rfl, rfl⟩

theorem batchKept_place (b : Batch) (w : Ward) : (batchKept b w).pool = w.pool ∧ (batchKept b w).keys = w.keys := by
  unfold batchKept
  refine List.foldlRecOn (motive := fun v : Ward => v.pool = w.pool ∧ v.keys = w.keys) _ _ ⟨rfl, rfl⟩ (fun v hv j _ => ?_)
  split
  next x _ => exact ⟨(keepRecord_place v _ x).1.trans hv.1, (keepRecord_place v _ x).2.trans hv.2⟩
  · exact hv

/-- A batch that fits its ward's stream is kept in it. -/
theorem batchRow_kept {w : Ward} (hw : wardOf (addWard (wardPool s r) s) (wardPool s r) = some w) (hlate : (batchMet h b w).bseq.toNat < b.bseq.toNat)
    (hnext : b.bseq = (batchMet h b w).bseq + 1) (hchain : batchChain (batchHeader h) b (batchMet h b w).chain = b.chain) :
    ∃ w', wardOf (batchRow h b r s) (wardPool s r) = some w' ∧ w'.bseq = b.bseq ∧ w'.chain = b.chain ∧ w'.keys = (batchMet h b w).keys := by
  have hset := wardOf_setWard (batchKept b) (fun w => (batchKept_place b w).1) hw
  unfold batchRow
  dsimp only
  rw [hw]
  dsimp only
  rw [if_neg (Nat.not_le.2 hlate), if_neg (not_or.2 ⟨not_not.2 hnext, not_not.2 hchain⟩)]
  generalize setWard (wardPool s r) (batchKept b) (addWard (wardPool s r) s) = t at hset
  generalize wardPool s r = pool at hset
  have hstored : WardAlike pool t ((dedup ((b.records.filter (fun x => x.kind == 0 || x.kind == 1)).map (fun x => x.lln.toNat))).foldl
      (fun s l => storeForeign pool l s) t) :=
    List.foldlRecOn (motive := WardAlike pool t) _ _ (.refl t) (fun u hu l _ => hu.trans (storeForeign_alike l u))
  obtain ⟨w', hw', hb, hc, hk⟩ := (hstored.trans ((peerSend_posts ..).wardAlike.trans (askKeys_alike r _))) _ hset
  exact ⟨w', hw', hb, hc, hk.trans ((batchKept_place b w).2.trans (batchMet_keys h b w).symm)⟩

theorem batchRow_seen {w : Ward} (hw : wardOf (addWard (wardPool s r) s) (wardPool s r) = some w) (hseen : b.bseq.toNat ≤ (batchMet h b w).bseq.toNat) :
    batchRow h b r s = peerSend r (.deltaAck 6 0 0 b.bseq (liveRecords (addWard (wardPool s r) s) (wardPool s r))) (addWard (wardPool s r) s) := by
  unfold batchRow
  dsimp only
  rw [hw]
  exact if_pos hseen

theorem batchRow_gap {w : Ward} (hw : wardOf (addWard (wardPool s r) s) (wardPool s r) = some w) (hlate : (batchMet h b w).bseq.toNat < b.bseq.toNat)
    (hgap : b.bseq ≠ (batchMet h b w).bseq + 1 ∨ batchChain (batchHeader h) b (batchMet h b w).chain ≠ b.chain) : batchRow h b r s =
    peerSend r (.deltaAck 7 0 0 ((batchMet h b w).bseq + 1) (liveRecords (addWard (wardPool s r) s) (wardPool s r))) (addWard (wardPool s r) s) := by
  unfold batchRow
  dsimp only
  rw [hw]
  exact (if_neg (Nat.not_le.2 hlate)).trans (if_pos hgap)

end

/-! ### Foreign records given up -/

section
variable {s : State} {pool : Nat} {w : Ward}

theorem hbmWrite_xlat (u : HbmUnit) (s : State) : (hbmWrite u s).xlat = s.xlat := by
  unfold hbmWrite
  extract_lets cache t
  split
  · rfl
  · split
    · rfl
    · extract_lets n v
      split <;> rfl

/-- The Patch Index after entries were dropped: none of them is valid. -/
theorem piDrop_pi (gone : PiEnt → Bool) (s : State) : (piDrop gone s).xlat.pi =
    s.xlat.pi.map (fun e => if e.2.valid && gone e.2 then (e.1, { e.2 with valid := false, tomb := true, inflight := false }) else e) := by
  unfold piDrop
  extract_lets ks out t
  have ht : t.xlat.pi = s.xlat.pi := by
    unfold t piNote
    split
    · rfl
    · split <;> rfl
  exact List.foldlRecOn (motive := fun u : State => u.xlat.pi = _) _ _ (congrArg _ ht) (fun u hu k _ => (congrArg XlatSt.pi (hbmWrite_xlat _ u)).trans hu)

theorem piDrop_mem {gone : PiEnt → Bool} {e : Nat × PiEnt} (he : e ∈ (piDrop gone s).xlat.pi) (hv : e.2.valid = true) : gone e.2 = false := by
  rw [piDrop_pi, List.mem_map] at he
  obtain ⟨x, hx, rfl⟩ := he
  split at hv
  · exact absurd hv Bool.false_ne_true
  next hkeep =>
    rw [if_neg hkeep]
    exact Bool.eq_false_iff.2 (fun hg => hkeep (by rw [hv, hg]; rfl))

/-- The records that a release gives up. -/
def released (top : BitVec 48) (llns : List (BitVec 40)) (w : Ward) : List Nat :=
  (w.records.filter (fun e => llns.any (fun l => l.toNat == e.1) && Nat.ble e.2.rnum.toNat top.toNat)).map (fun e => e.1)

theorem dropForeign_ward (gone : List Nat) (h : wardOf s pool = some w) : wardOf (dropForeign pool gone s) pool = some { w with
    records := w.records.filter (fun e => !gone.contains e.1), places := w.places.filter (fun e => !gone.contains e.1) } :=
  wardOf_setWard (fun w => { w with records := w.records.filter (fun e => !gone.contains e.1), places := w.places.filter (fun e => !gone.contains e.1) })
    (fun _ => rfl) ((wardOf_of_span (piDrop_spanKept _ s)).trans h)

/-- The entries that a release drops from the Patch Index. -/
def foreignGone (pool : Nat) (gone : List Nat) (s : State) (e : PiEnt) : Bool :=
  foreignEnt s e && fsKey (fsEntry s e.set.toNat) == pool % 512 && gone.contains e.lln.toNat

theorem dropForeign_mem {gone : List Nat} {e : Nat × PiEnt} (he : e ∈ (dropForeign pool gone s).xlat.pi) (hv : e.2.valid = true)
    (hf : foreignEnt s e.2 = true) (hk : fsKey (fsEntry s e.2.set.toNat) = pool % 512) : e.2.lln.toNat ∉ gone := by
  intro hgone
  have hpi : (dropForeign pool gone s).xlat.pi = (piDrop (foreignGone pool gone s) s).xlat.pi := rfl
  have hkept : foreignGone pool gone s e.2 = false := piDrop_mem (hpi ▸ he) hv
  unfold foreignGone at hkept
  rw [hf, hk, BEq.rfl, List.contains_iff_mem.2 hgone] at hkept
  exact absurd hkept (by decide)

/-- The row of a release. -/
def recordsReleased (top : BitVec 48) (llns : List (BitVec 40)) (r : Nat) (s : State) : State :=
  dropForeign (wardPool s r) (match wardOf s (wardPool s r) with | some w => released top llns w | none => []) s

/-- The row of an unhitched member's message. -/
def unhitchedTold (r : Nat) (rnums : List (BitVec 48)) (s : State) : State :=
  send (setWard (wardPool s r) (fun w => { w with topRnum := rnums.foldl (fun a n => if a.toNat < n.toNat then n else a) w.topRnum }) s) (.fmNotice fmPeerUnhitched r)

theorem foldl_top_le (rn : List (BitVec 48)) (a : BitVec 48) :
    a.toNat ≤ (rn.foldl (fun a n => if a.toNat < n.toNat then n else a) a).toNat ∧
    ∀ n ∈ rn, n.toNat ≤ (rn.foldl (fun a n => if a.toNat < n.toNat then n else a) a).toNat := by
  induction rn generalizing a with
  | nil => exact ⟨Nat.le_refl _, fun n hn => absurd hn List.not_mem_nil⟩
  | cons x rn ih =>
    obtain ⟨hle, hall⟩ := ih (if a.toNat < x.toNat then x else a)
    have hboth : a.toNat ≤ (if a.toNat < x.toNat then x else a).toNat ∧ x.toNat ≤ (if a.toNat < x.toNat then x else a).toNat := by
      split <;> omega
    rw [List.foldl_cons]
    refine ⟨hboth.1.trans hle, fun n hn => ?_⟩
    rcases List.mem_cons.1 hn with rfl | hn
    · exact hboth.2.trans hle
    · exact hall n hn

end

/-! ### Members lost -/

section
variable {s : State}

/-- A member whose heartbeats are missed: it has its place, is another one, and was not given up before. -/
def LiveMember (s : State) (r : Fin 16) : Prop :=
  r.val < spanN s ∧ r.val ≠ ownIndex s ∧ (peerOf s r).st.toNat ≠ 0 ∧ (peerOf s r).st.toNat ≠ psLost ∧ (peerOf s r).st.toNat ≠ psUnhitched

/-- The state in which the loss of a member is recorded. -/
def lossNoted (r : Nat) (s : State) : State :=
  send (setPeer r (fun p => { p with missed := max 8 (peerOf s r).missed }) s) (.fmNotice fmPeerLost r)

theorem peerHeartbeatLoss_live {r : Fin 16} (h : LiveMember s r) : exec (.peerHeartbeatLoss r) s = ran (mediaNext (memberGone r psLost
    (event { code := 0x0301, unit := uPeer (memberPool s r), p0 := max 8 (peerOf s r).missed } (lossNoted r (begin s))))) := by
  have hexec : exec (.peerHeartbeatLoss r) s = execPeerHeartbeatLoss r s := rfl
  obtain ⟨hplace, hother, hused, hlost, hhitched⟩ := h
  refine hexec.trans (if_neg ?_)
  rintro (hn | hown | hst | hst | hst)
  · exact Nat.not_lt.2 hn hplace
  · exact hother hown
  · exact hused hst
  · exact hlost hst
  · exact hhitched hst

theorem peerHeartbeatLoss_other {r : Fin 16} (h : ¬ LiveMember s r) : Ends (.peerHeartbeatLoss r) s (fun u => u = begin s) := by
  have hexec : exec (.peerHeartbeatLoss r) s = execPeerHeartbeatLoss r s := rfl
  refine ⟨_, hexec.trans (if_pos ?_), rfl⟩
  by_contra hnot
  obtain ⟨hn, hnot⟩ := not_or.1 hnot
  obtain ⟨hown, hnot⟩ := not_or.1 hnot
  obtain ⟨hused, hnot⟩ := not_or.1 hnot
  obtain ⟨hlost, hhitched⟩ := not_or.1 hnot
  exact h ⟨Nat.not_le.1 hn, hown, hused, hlost, hhitched⟩

theorem Heralds.unhitched {t u : State} (h : Heralds t u) : u.host.unhitched = t.host.unhitched := (congrArg HostSt.unhitched h.host :)

/-- An unhitched device holds no request, no read of its media and none of its span. -/
theorem unhitch_empties (cause : Nat) (hdesc : s.span.desc.isSome = true) (hhost : s.host.unhitched = false) : (unhitch cause s).host.unhitched = true ∧
    (unhitch cause s).host.reqs = [] ∧ (unhitch cause s).media.mreads = [] ∧ (unhitch cause s).span.reads = [] := by
  have hfresh : ¬ (s.span.desc.isNone = true ∨ s.host.unhitched = true) := by
    rw [Option.isNone_eq_false_iff.2 hdesc, hhost]
    exact not_or.2 ⟨Bool.false_ne_true, Bool.false_ne_true⟩
  unfold unhitch
  rw [if_neg hfresh]
  extract_lets rn t₁ t₂ host media span t₃
  have hlog : Heralds (send t₃ (.fmNotice fmUnhitched cause)) (setEvt evSpan (event { code := 0x0302, p0 := cause } (send t₃ (.fmNotice fmUnhitched cause)))) :=
    (event_heralds _ _).setEvt _
  exact ⟨hlog.unhitched, hlog.logsAlone.reqs, congrArg MediaSt.mreads (media_of_keepE hlog.keep), congrArg SpanSt.reads (span_of_keepE hlog.keep)⟩

end

/-! ### Acknowledged streams -/

theorem resend_posts (r : Nat) (bs : List Batch) (s : State) : Posts s (bs.foldl (fun s b => peerSend r (.patchBatch b) s) s) :=
  List.foldlRecOn (motive := Posts s) _ _ (.refl s) (fun _ ht _ _ => ht.trans (peerSend_posts ..))

theorem Posts.outr {s u : State} (h : Posts s u) : u.span.outr = s.span.outr ∧ u.span.cResend = s.span.cResend := by
  obtain ⟨o, e, ps, ss, n, rfl⟩ := h
  exact ⟨rfl, rfl⟩

/-- The row of an asked repetition. -/
def resendRow (bseq : BitVec 48) (live : BitVec 29) (r : Nat) (s : State) : State :=
  match streamTo s r with
  | none => s
  | some i =>
    let s := ackStream i (bseq - 1) live s
    let again := (s.span.streams.getD i newStream).sent
    let s := { s with span := { s.span with cResend := satAdd s.span.cResend again.length } }
    again.foldl (fun s b => peerSend r (.patchBatch b) s) s

theorem resendRow_counts {bseq : BitVec 48} {live : BitVec 29} {r i : Nat} {s : State} (h : streamTo s r = some i) :
    (resendRow bseq live r s).span.outr = (ackStream i (bseq - 1) live s).span.outr ∧ (resendRow bseq live r s).span.cResend =
      satAdd (ackStream i (bseq - 1) live s).span.cResend ((ackStream i (bseq - 1) live s).span.streams.getD i newStream).sent.length := by
  unfold resendRow
  rw [h]
  exact (resend_posts ..).outr

/-- Settles O48: each message is consumed and its row acts on what the span holds. -/
theorem heartbeatsAndRecordsAct : Obligations.HeartbeatsAndRecordsAct := by
  unfold Obligations.HeartbeatsAndRecordsAct
  intro s h r t lives
  refine ⟨fun hr => ⟨fun st lk bound live adm act => ?_, fun c rn => ?_, fun top llns => ?_, fun bseq live => ?_, fun lfn seq live => ?_⟩,
    fun hr b w₀ => ?_, fun r h => ?_, fun r h => peerHeartbeatLoss_other h, ⟨_, rfl, rfl⟩, fun hdesc hhost => ⟨_, rfl, unhitch_empties 1 hdesc hhost⟩⟩
  case refine_1 => exact received_works (rfl : _ = execHeartbeat _ st lk bound live adm act s) hr rfl
  case refine_2 =>
    refine received_works (rfl : _ = execUnhitchMessage _ c rn s) hr ⟨unhitchedTold r rn t, rfl, rfl, fun w hw => ?_⟩
    obtain ⟨hle, hall⟩ := foldl_top_le rn w.topRnum
    exact ⟨_, wardOf_setWard (fun w => { w with topRnum := rn.foldl (fun a n => if a.toNat < n.toNat then n else a) w.topRnum }) (fun _ => rfl) hw, rfl, hle, hall⟩
  case refine_3 =>
    refine received_works (act := recordsReleased top llns) (rfl : _ = execPatchRelease _ top llns s) hr (fun w hw => ?_)
    have hrow : recordsReleased top llns r t = dropForeign (wardPool t r) (released top llns w) t := by
      unfold recordsReleased
      rw [hw]
    rw [hrow]
    exact ⟨dropForeign_ward _ hw, fun e he hv hf hk => dropForeign_mem he hv hf hk⟩
  case refine_4 =>
    refine ⟨fun hn => ⟨received_works (rfl : _ = execDeltaAckBatch _ bseq live s) hr ?_, received_works (act := resendRow bseq live) (rfl : _ = execDeltaAckResend _ bseq live s) hr ?_⟩,
      fun i hi => ⟨received_works (rfl : _ = execDeltaAckBatch _ bseq live s) hr ?_,
        received_works (act := resendRow bseq live) (rfl : _ = execDeltaAckResend _ bseq live s) hr (resendRow_counts hi)⟩⟩
    · rw [hn]
    · unfold resendRow
      rw [hn]
    · rw [hi]
  case refine_5 => exact received_works (rfl : _ = execDeltaAckBusy _ lfn seq live s) hr rfl
  case refine_6 =>
    intro pool a hdr w hw
    exact ⟨fun hseen => ⟨_, patchBatch_exec hr, batchRow_seen (w := w₀) hw hseen⟩, fun hlate hgap => ⟨_, patchBatch_exec hr, batchRow_gap (w := w₀) hw hlate hgap⟩,
      fun hlate hnext hchain => ⟨_, patchBatch_exec hr, batchRow_kept (w := w₀) hw hlate hnext hchain⟩⟩
  case refine_7 => exact ⟨_, peerHeartbeatLoss_live h, lossNoted r (begin s), rfl, rfl, rfl⟩

end Sys2Proof.Machine
end

section
/-! SUPPORT. What the work of a stage leaves alone of FTIME and the stage index (O52). -/

namespace Sys2Proof.Machine

def keepT (s : State) := (s.time.ftime, s.tt.stage)

section
variable {s t u : State}

theorem keepT_of_keepW (h : keepW u = keepW s) : keepT u = keepT s := by
  unfold keepT
  rw [ftime_of_keepW h, stage_of_keepW h]

theorem keepT_of_keepE (h : keepE u = keepE s) : keepT u = keepT s := by
  unfold keepT
  rw [time_of_keepE h, tt_of_keepE h]

theorem keepT_mk {x_out x_free x_id x_time x_tt x_unit x_host x_cache x_rstat x_write x_xlat x_mm x_lp x_media x_span x_queue x_wb x_evt x_sb x_power x_therm x_start x_fw x_sec}
    (htime : x_time.ftime = s.time.ftime) (htt : x_tt.stage = s.tt.stage) :
    keepT (State.mk s.pending x_out x_free s.variant x_id x_time x_tt x_unit x_host x_cache x_rstat x_write x_xlat x_mm x_lp x_media x_span x_queue x_wb x_evt x_sb x_power x_therm x_start x_fw x_sec) = keepT s := by
  unfold keepT
  rw [← htime, ← htt]

theorem keepT_foldl {α : Type} (g : State → α → State) (l : List α) (s : State) (h : ∀ s a, keepT (g s a) = keepT s) : keepT (l.foldl g s) = keepT s := by
  induction l generalizing s with
  | nil => rfl
  | cons a l ih => exact (ih _).trans (h s a)

theorem keepT_times (n : Nat) (g : State → State) (s : State) (h : ∀ s, keepT (g s) = keepT s) : keepT (times n g s) = keepT s := by
  induction n generalizing s with
  | zero => rfl
  | succ n ih => exact (ih _).trans (h s)

theorem keepT_foldl2 {α β : Type} (g : β × State → α → β × State) (l : List α) (p : β × State) (h : ∀ p a, keepT (g p a).2 = keepT p.2) :
    keepT (l.foldl g p).2 = keepT p.2 := by
  induction l generalizing p with
  | nil => rfl
  | cons a l ih => exact (ih _).trans (h p a)

theorem keepT_ite {c : Prop} [Decidable c] (a b : State) : keepT (if c then a else b) = if c then keepT a else keepT b := apply_ite keepT c a b

end

theorem abandonBatch_keepT (f : FoldBatch) (cause : Nat) (blk : Option Nat) (s : State) : keepT (abandonBatch f cause blk s) = keepT s := keepT_of_keepW (abandonBatch_keepW f cause blk s)

theorem abandonFrame_keepT (lfn : Nat) (s : State) : keepT (abandonFrame lfn s) = keepT s := keepT_of_keepW (abandonFrame_keepW lfn s)

theorem ackDelta_keepT (code : Nat) (h : Holding) (s : State) : keepT (ackDelta code h s) = keepT s := keepT_of_keepW (ackDelta_keepW code h s)

theorem advanceBatch_keepT (b : Nat) (s : State) : keepT (advanceBatch b s) = keepT s := keepT_of_keepW (advanceBatch_keepW b s)

theorem askProg_keepT (ch : Nat) (p : CProg) (s : State) : keepT (askProg ch p s) = keepT s := keepT_of_keepW (askProg_keepW ch p s)

theorem askRaw_keepT (ch op die arg purpose : Nat) (s : State) : keepT (askRaw ch op die arg purpose s) = keepT s := keepT_of_keepW (askRaw_keepW ch op die arg purpose s)

theorem bulkAsk_keepT (tag : BitVec 32) (s : State) : keepT (bulkAsk tag s) = keepT s := keepT_of_keepW (bulkAsk_keepW tag s)

theorem ceError_keepT (cls : Nat) (ix : Nat) (s : State) : keepT (ceError cls ix s) = keepT s := keepT_of_keepW (ceError_keepW cls ix s)

theorem charge_keepT (die : Nat) (s : State) : keepT (charge die s) = keepT s := keepT_of_keepW (charge_keepW die s)

theorem ckRecord_keepT (kind : Nat) (target : Nat) (entry : BitVec 32) (psnap : BitVec 48) (s : State) : keepT (ckRecord kind target entry psnap s).2 = keepT s := keepT_of_keepW (ckRecord_keepW kind target entry psnap s)

theorem clearFast_keepT (f : Nat) (ch : Nat) (die : Nat) (block : Nat) (s : State) : keepT (clearFast f ch die block s) = keepT s := keepT_of_keepW (clearFast_keepW f ch die block s)

theorem clearPoison_keepT (i : Nat) (s : State) : keepT (clearPoison i s) = keepT s := keepT_of_keepE (clearPoison_keepE i s)

theorem commitNow_keepT (lfn : Nat) (e : BitVec 32) (s : State) : keepT (commitNow lfn e s) = keepT s := keepT_of_keepW (commitNow_keepW lfn e s)

theorem commitQuiet_keepT (lfn : Nat) (e : BitVec 32) (s : State) : keepT (commitQuiet lfn e s) = keepT s := keepT_of_keepW (commitQuiet_keepW lfn e s)

theorem countBlockMark_keepT (blk : Nat) (what : Nat) (x2 : Nat) (s : State) : keepT (countBlockMark blk what x2 s) = keepT s := keepT_of_keepW (countBlockMark_keepW blk what x2 s)

theorem dieCount_keepT (what : Nat) (die : Nat) (s : State) : keepT (dieCount what die s) = keepT s := keepT_of_keepW (dieCount_keepW what die s)

theorem drainLine_keepT (lln : Nat) (counted : Bool) (s : State) : keepT (drainLine lln counted s) = keepT s := keepT_of_keepW (drainLine_keepW lln counted s)

theorem drawBits_keepT (w : Nat) (s : State) : keepT (drawBits w s).2 = keepT s := keepT_of_keepW (drawBits_keepW w s)

theorem emptyAll_keepT (mode : Nat) (ls : List Nat) (s : State) : keepT (emptyAll mode ls s) = keepT s := keepT_of_keepW (emptyAll_keepW mode ls s)

theorem endJob_keepT (id : BitVec 16) (mstat : Nat) (s : State) : keepT (endJob id mstat s) = keepT s := keepT_of_keepW (endJob_keepW id mstat s)

theorem endWindows_keepT (ch : Nat) (hit : Nat → Nat → Bool) (s : State) : keepT (endWindows ch hit s) = keepT s := keepT_of_keepW (endWindows_keepW ch hit s)

theorem entryLost_keepT (lfn : Nat) (s : State) : keepT (entryLost lfn s).2 = keepT s := keepT_of_keepW (entryLost_keepW lfn s)

theorem event_keepT (e : Ev) (s : State) : keepT (event e s) = keepT s := keepT_of_keepW (event_keepW e s)

theorem fireStart_keepT (p : Nat) (u : Nat) (s : State) : keepT (fireStart p u s) = keepT s := keepT_of_keepE (fireStart_keepE p u s)

theorem hbmMeet_keepT (u : HbmUnit) (s : State) : keepT (hbmMeet u s).2 = keepT s := keepT_of_keepW (hbmMeet_keepW u s)

theorem hbmWrite_keepT (u : HbmUnit) (s : State) : keepT (hbmWrite u s) = keepT s := keepT_of_keepW (hbmWrite_keepW u s)

theorem internalWrite_keepT (lln : Nat) (v : Line) (s : State) : keepT (internalWrite lln v s) = keepT s := keepT_of_keepW (internalWrite_keepW lln v s)

theorem lineLost_keepT (lln : Nat) (near : Bool) (s : State) : keepT (lineLost lln near s) = keepT s := keepT_of_keepW (lineLost_keepW lln near s)

theorem loadRefs_keepT (ch : Nat) (die : Nat) (s : State) : keepT (loadRefs ch die s) = keepT s := keepT_of_keepE (loadRefs_keepE ch die s)

theorem located_keepT (b : Nat) (x1 : Nat) (charged : Bool) (s : State) (m : Nat) : keepT (located b x1 charged s m) = keepT s := keepT_of_keepW (located_keepW b x1 charged s m)

theorem logPressure_keepT (s : State) : keepT (logPressure s) = keepT s := keepT_of_keepW (logPressure_keepW s)

theorem makeDue_keepT (lfn : Nat) (prio : Nat) (key : Nat) (direct : Bool) (s : State) : keepT (makeDue lfn prio key direct s) = keepT s := keepT_of_keepW (makeDue_keepW lfn prio key direct s)

theorem markBad_keepT (blk : Nat) (cause : Nat) (s : State) : keepT (markBad blk cause s) = keepT s := keepT_of_keepW (markBad_keepW blk cause s)

theorem markRebuild_keepT (lfn : Nat) (s : State) : keepT (markRebuild lfn s) = keepT s := keepT_of_keepW (markRebuild_keepW lfn s)

theorem meetDirect_keepT (s : State) : keepT (meetDirect s) = keepT s := keepT_of_keepW (meetDirect_keepW s)

theorem mergeRead_keepT (lln : Nat) (base : Bool) (must : Bool) (localBase : Option Line) (s : State) : keepT (mergeRead lln base must localBase s) = keepT s := keepT_of_keepW (mergeRead_keepW lln base must localBase s)

theorem moveStep_keepT (lfn : Nat) (s : State) : keepT (moveStep lfn s) = keepT s := keepT_of_keepW (moveStep_keepW lfn s)

theorem ncEvict_keepT (k : Nat) (s : State) : keepT (ncEvict k s) = keepT s := keepT_of_keepW (ncEvict_keepW k s)

theorem ncSetWay_keepT (s : State) (k : Nat) (w : NcWay) : keepT (ncSetWay s k w) = keepT s := keepT_of_keepW (ncSetWay_keepW s k w)

theorem ncTwin_keepT (s : State) (a : Nat) (b : Nat) : keepT (ncTwin s a b).2 = keepT s := keepT_of_keepW (ncTwin_keepW s a b)

theorem ncWrite_keepT (lln : Nat) (data : Line) (mask : BitVec 64) (s : State) : keepT (ncWrite lln data mask s) = keepT s := keepT_of_keepW (ncWrite_keepW lln data mask s)

theorem olderAgain_keepT (f : Nat) (pos : Nat) (a : Line66) (b : Line66) (l : Line66) (s : State) : keepT (olderAgain f pos a b l s) = keepT s := keepT_of_keepW (olderAgain_keepW f pos a b l s)

theorem openOn_keepT (b : Nat) (dues : List Due) (abandons : Nat) (s : State) : keepT (openOn b dues abandons s) = keepT s := keepT_of_keepW (openOn_keepW b dues abandons s)

theorem pageDrop_keepT (k : Nat) (s : State) : keepT (pageDrop k s) = keepT s := keepT_of_keepW (pageDrop_keepW k s)

theorem pageFill_keepT (lln : Nat) (data : Line) (s : State) : keepT (pageFill lln data s) = keepT s := keepT_of_keepW (pageFill_keepW lln data s)

theorem pageRead_keepT (lln : Nat) (s : State) : keepT (pageRead lln s).2 = keepT s := keepT_of_keepW (pageRead_keepW lln s)

theorem peerSend_keepT (r : Nat) (m : PeerMsg) (s : State) : keepT (peerSend r m s) = keepT s := keepT_of_keepW (peerSend_keepW r m s)

theorem piInsert_keepT (e : PiEnt) (s : State) : keepT (piInsert e s).2 = keepT s := keepT_of_keepW (piInsert_keepW e s)

theorem pickSegment_keepT (s : State) (k : Nat) (t : State) (h : pickSegment s = some (k, t)) : keepT t = keepT s := keepT_of_keepW (pickSegment_keepW s k t h)

theorem placeSeg_keepT (k : Nat) (g : Seg) (s : State) : keepT (placeSeg k g s) = keepT s := keepT_of_keepW (placeSeg_keepW k g s)

theorem poisonFind_keepT (lln : Nat) (src : Nat) (unit : Nat) (s : State) : keepT (poisonFind lln src unit s) = keepT s := keepT_of_keepW (poisonFind_keepW lln src unit s)

theorem progLost_keepT (p : CProg) (s : State) : keepT (progLost p s) = keepT s := keepT_of_keepW (progLost_keepW p s)

theorem pumpRestart_keepT (s : State) : keepT (pumpRestart s) = keepT s := keepT_of_keepW (pumpRestart_keepW s)

theorem putSlot_keepT (lln : Nat) (d : DSlot) (s : State) : keepT (putSlot lln d s) = keepT s := keepT_of_keepW (putSlot_keepW lln d s)

theorem refreshBand_keepT (b : Nat) (s : State) : keepT (refreshBand b s) = keepT s := keepT_of_keepW (refreshBand_keepW b s)

theorem releaseOld_keepT (e : BitVec 32) (s : State) : keepT (releaseOld e s) = keepT s := keepT_of_keepW (releaseOld_keepW e s)

theorem releaseSet_keepT (f : Nat) (s : State) : keepT (releaseSet f s) = keepT s := keepT_of_keepW (releaseSet_keepW f s)

theorem residencyMeet_keepT (lfn : Nat) (s : State) : keepT (residencyMeet lfn s) = keepT s := keepT_of_keepW (residencyMeet_keepW lfn s)

theorem retryNoted_keepT (die : Nat) (lln : Nat) (step : Nat) (s : State) : keepT (retryNoted die lln step s) = keepT s := keepT_of_keepW (retryNoted_keepW die lln step s)

theorem saveSteps_keepT (s : State) : keepT (saveSteps s) = keepT s := keepT_of_keepE (saveSteps_keepE s)

theorem sbEnqueue_keepT (s : State) (r : SbReq) : keepT (sbEnqueue s r) = keepT s := keepT_of_keepW (sbEnqueue_keepW s r)

theorem scrubMissing_keepT (b : Nat) (m : Nat) (x2 : Nat) (s : State) : keepT (scrubMissing b m x2 s) = keepT s := keepT_of_keepE (scrubMissing_keepE b m x2 s)

theorem segPut_keepT (k : Nat) (i : Nat) (l : MediaLine) (s : State) : keepT (segPut k i l s) = keepT s := keepT_of_keepW (segPut_keepW k i l s)

theorem send_keepT (s : State) (o : Out) : keepT (send s o) = keepT s := keepT_of_keepW (send_keepW s o)

theorem sendPkt_keepT (ch : Nat) (op : Nat) (die : Nat) (bank : Nat) (block : Nat) (addr : Nat) (tag : BitVec 7) (arg : Nat) (s : State) : keepT (sendPkt ch op die bank block addr tag arg s) = keepT s := keepT_of_keepW (sendPkt_keepW ch op die bank block addr tag arg s)

theorem setBand_keepT (b : Nat) (f : Band → Band) (s : State) : keepT (setBand b f s) = keepT s := keepT_of_keepW (setBand_keepW b f s)

theorem setCart_keepT (ch : Nat) (f : Carter → Carter) (s : State) : keepT (setCart ch f s) = keepT s := keepT_of_keepW (setCart_keepW ch f s)

theorem setEvt_keepT (b : Nat) (s : State) : keepT (setEvt b s) = keepT s := keepT_of_keepW (setEvt_keepW b s)

theorem setLd_keepT (i : Nat) (f : Ld → Ld) (s : State) : keepT (setLd i f s) = keepT s := keepT_of_keepE (setLd_keepE i f s)

theorem setPeer_keepT (r : Nat) (f : Peer → Peer) (s : State) : keepT (setPeer r f s) = keepT s := keepT_of_keepW (setPeer_keepW r f s)

theorem setPort_keepT (p : Nat) (f : Port → Port) (s : State) : keepT (setPort p f s) = keepT s := keepT_of_keepE (setPort_keepE p f s)

theorem setStream_keepT (i : Nat) (f : Machine.Stream → Machine.Stream) (s : State) : keepT (setStream i f s) = keepT s := keepT_of_keepW (setStream_keepW i f s)

theorem setUnit_keepT (u : Nat) (st : UState) (reason : Nat) (repl : Bool) (s : State) : keepT (setUnit u st reason repl s) = keepT s := keepT_of_keepW (setUnit_keepW u st reason repl s)

theorem slotRead_keepT (lln : Nat) (s : State) : keepT (slotRead lln s).2 = keepT s := keepT_of_keepW (slotRead_keepW lln s)

theorem spanStart_keepT (rid : Option Nat) (lln : Nat) (count : Nat) (base : Bool) (record : Bool) (must : Bool) (localBase : Option Line) (s : State) : keepT (spanStart rid lln count base record must localBase s) = keepT s := keepT_of_keepW (spanStart_keepW rid lln count base record must localBase s)

theorem stage_keepT (s : State) : keepT (stage s) = keepT s := keepT_of_keepW (stage_keepW s)

theorem startMove_keepT (lfn : Nat) (f : Nat) (kind : Nat) (pin : Bool) (counted : Bool) (job : Option (BitVec 16)) (s : State) : keepT (startMove lfn f kind pin counted job s) = keepT s := keepT_of_keepW (startMove_keepW lfn f kind pin counted job s)

theorem startPromotion_keepT (lfn : Nat) (pin : Bool) (job : Option (BitVec 16)) (s : State) : keepT (startPromotion lfn pin job s) = keepT s := keepT_of_keepW (startPromotion_keepW lfn pin job s)

theorem stateEvent_keepT (u : Nat) (old : UState) (new : UState) (reason : Nat) (repl : Bool) (s : State) : keepT (stateEvent u old new reason repl s) = keepT s := keepT_of_keepW (stateEvent_keepW u old new reason repl s)

theorem storeDesc_keepT (s : State) : keepT (storeDesc s) = keepT s := keepT_of_keepE (storeDesc_keepE s)

theorem tieNoted_keepT (f : Nat) (pos : Nat) (charged : List Nat) (s : State) : keepT (tieNoted f pos charged s) = keepT s := keepT_of_keepW (tieNoted_keepW f pos charged s)

theorem tieStore_keepT (f : Nat) (pos : Nat) (seq : Option (BitVec 16)) (l : Line) (v : BitVec 16) (s : State) : keepT (tieStore f pos seq l v s) = keepT s := keepT_of_keepW (tieStore_keepW f pos seq l v s)

theorem timeEvent_keepT (s : State) : keepT (timeEvent s) = keepT s := keepT_of_keepE (timeEvent_keepE s)

theorem updLoad_keepT (s : State) : keepT (updLoad s) = keepT s := keepT_of_keepW (updLoad_keepW s)

theorem writePl_keepT (s : State) : keepT (writePl s) = keepT s := keepT_of_keepE (writePl_keepE s)

theorem ncLook_keepT (lln : Nat) (s : State) : keepT (ncLook lln s).2 = keepT s := by
  unfold ncLook
  repeat' first | simp only [keepT_ite, apply_ite Prod.snd, ite_self, ncTwin_keepT, ncSetWay_keepT, lineLost_keepT, ceError_keepT] | split

theorem mergeHeld_keepT (lln : Nat) (v : Line) (s : State) : keepT (mergeHeld lln v s).2 = keepT s := by
  unfold mergeHeld
  repeat' first | simp only [keepT_ite, apply_ite Prod.snd, ite_self, putSlot_keepT, ncLook_keepT, slotRead_keepT, ncWrite_keepT] | split

theorem ncFill_keepT (lln : Nat) (data : Line) (s : State) : keepT (ncFill lln data s) = keepT s := by
  unfold ncFill
  simp only [keepT_ite, ite_self, ncEvict_keepT, ncSetWay_keepT]

theorem fillLineRead_keepT (lln : Nat) (v : Line) (s : State) : keepT (fillLineRead lln v s) = keepT s := by
  unfold fillLineRead
  simp only [keepT_ite, ite_self, pageFill_keepT, ncFill_keepT]

theorem answerRead_keepT (id : Nat) (v : Option Line) (s : State) : keepT (answerRead id v s) = keepT s := by
  unfold answerRead
  repeat' first | simp only [keepT_mk, send_keepT, drawBits_keepT, updLoad_keepT] | split

theorem readAgain_keepT (r : MRead) (s : State) : keepT (readAgain r s) = keepT s := by
  unfold readAgain
  simp only [keepT_mk, spanStart_keepT]

theorem sideFill_keepT (lln : Nat) (v : Line) (s : State) : keepT (sideFill lln v s) = keepT s := by
  unfold sideFill
  simp only [keepT_mk]

theorem fillPrefetch_keepT (lln : Nat) (v : Line) (s : State) : keepT (fillPrefetch lln v s) = keepT s := by
  unfold fillPrefetch
  simp only [keepT_mk, keepT_ite, ite_self, sideFill_keepT, pageFill_keepT]

theorem releaseDue_keepT (s : State) : keepT (releaseDue s) = keepT s := by
  unfold releaseDue
  simp only [keepT_mk, keepT_foldl, implies_true, releaseOld_keepT]

theorem readCounted_keepT (r : MRead) (s : State) : keepT (readCounted r s) = keepT s := by
  unfold readCounted
  simp only [keepT_mk, keepT_ite, ite_self]

theorem finishRead_keepT (r : MRead) (res : ReadEnd) (s : State) : keepT (finishRead r res s) = keepT s := by
  unfold finishRead
  repeat' first | simp only [keepT_mk, keepT_ite, ite_self, mergeHeld_keepT, poisonFind_keepT, fillLineRead_keepT, answerRead_keepT, readAgain_keepT, internalWrite_keepT, fillPrefetch_keepT, releaseDue_keepT, readCounted_keepT] | split

theorem updRead_keepT (rid : Nat) (f : MRead → MRead) (s : State) : keepT (updRead rid f s) = keepT s := by
  unfold updRead
  simp only [keepT_mk]

theorem markCharged_keepT (rid : Nat) (key : Nat) (s : State) : keepT (markCharged rid key s) = keepT s := by
  unfold markCharged
  simp only [keepT_mk, updRead_keepT]

theorem countSuspend_keepT (s : State) : keepT (countSuspend s) = keepT s := by
  unfold countSuspend
  simp only [keepT_mk]

theorem suspendBank_keepT (ch : Nat) (die : Nat) (bank : Nat) (s : State) : keepT (suspendBank ch die bank s) = keepT s := by
  unfold suspendBank
  simp only [keepT_ite, ite_self, sendPkt_keepT, setCart_keepT]

theorem suspendAll_keepT (rid : Nat) (places : List (Nat × Nat × Nat)) (s : State) : keepT (suspendAll rid places s) = keepT s := by
  unfold suspendAll
  simp only [keepT_foldl, keepT_ite, ite_self, implies_true, countSuspend_keepT, updRead_keepT, suspendBank_keepT]

theorem readReference_keepT (s : State) : keepT (readReference s).2 = keepT s := by
  unfold readReference
  simp only [drawBits_keepT]

theorem measureShift_keepT (s : State) : keepT (measureShift s).2 = keepT s := by
  unfold measureShift
  repeat' first | simp only [readReference_keepT] | split | refine Eq.trans (keepT_foldl _ _ _ (fun _ _ => ?_)) ?_ | refine Eq.trans (keepT_foldl2 _ _ _ (fun _ _ => ?_)) ?_

theorem readRefs_keepT (b : Nat) (ch : Nat) (die : Nat) (s : State) : keepT (readRefs b ch die s).2 = keepT s := by
  unfold readRefs
  repeat' first | simp only [keepT_mk, keepT_ite, apply_ite Prod.snd, measureShift_keepT] | split

theorem askRead_keepT (ch : Nat) (r : CRead) (s : State) : keepT (askRead ch r s) = keepT s := by
  unfold askRead
  simp only [setCart_keepT]

theorem askMember_keepT (rid : Nat) (host : Bool) (b : Nat) (m : Nat) (x4 : Nat) (step : Nat) (s : State) : keepT (askMember rid host b m x4 step s) = keepT s := by
  unfold askMember
  simp only [updRead_keepT, readRefs_keepT, askRead_keepT]

theorem startAround_keepT (r : MRead) (b : Nat) (slot : Nat) (x3 : Nat) (s : State) : keepT (startAround r b slot x3 s) = keepT s := by
  unfold startAround
  simp only [keepT_foldl, keepT_ite, ite_self, implies_true, updRead_keepT, suspendAll_keepT, askMember_keepT]

theorem prefetchBad_keepT (r : MRead) (s : State) : keepT (prefetchBad r s) = keepT s := by
  unfold prefetchBad
  simp only [keepT_mk, finishRead_keepT]

theorem chargeRead_keepT (rid : Nat) (key : Nat) (die : Nat) (s : State) : keepT (chargeRead rid key die s) = keepT s := by
  unfold chargeRead
  simp only [keepT_ite, ite_self, markCharged_keepT, charge_keepT]

theorem homeAfter_keepT (rid : Nat) (host : Bool) (b : Nat) (h : Nat) (x4 : Nat) (s : State) : keepT (homeAfter rid host b h x4 s) = keepT s := by
  unfold homeAfter
  repeat' first | simp only [keepT_ite, ite_self, updRead_keepT, askMember_keepT] | split

theorem startBeyond_keepT (r : MRead) (b : Nat) (slot : Nat) (x3 : Nat) (s : State) : keepT (startBeyond r b slot x3 s) = keepT s := by
  unfold startBeyond
  simp only [keepT_foldl, keepT_ite, ite_self, implies_true, homeAfter_keepT, updRead_keepT, spanStart_keepT, askMember_keepT]

theorem denseGo_keepT (r : MRead) (b : Nat) (slot : Nat) (x3 : Nat) (s : State) : keepT (denseGo r b slot x3 s) = keepT s := by
  unfold denseGo
  repeat' first | simp only [keepT_mk, keepT_foldl, keepT_ite, ite_self, implies_true, finishRead_keepT, updRead_keepT, markCharged_keepT, startAround_keepT, prefetchBad_keepT, chargeRead_keepT, located_keepT, startBeyond_keepT] | split

theorem askCopy_keepT (rid : Nat) (host : Bool) (f : Nat) (pos : Nat) (copy : Nat) (step : Nat) (s : State) : keepT (askCopy rid host f pos copy step s) = keepT s := by
  unfold askCopy
  simp only [updRead_keepT, askRead_keepT]

theorem fastBeyond_keepT (r : MRead) (f : Nat) (pos : Nat) (seq : Option (BitVec 16)) (s : State) : keepT (fastBeyond r f pos seq s) = keepT s := by
  unfold fastBeyond
  simp only [keepT_foldl, keepT_ite, ite_self, implies_true, updRead_keepT, spanStart_keepT, askCopy_keepT]

theorem tieStep_keepT (r : MRead) (f : Nat) (pos : Nat) (step : Nat) (s : State) : keepT (tieStep r f pos step s) = keepT s := by
  unfold tieStep
  simp only [keepT_foldl, keepT_ite, ite_self, implies_true, finishRead_keepT, updRead_keepT, askCopy_keepT]

theorem tieBegin_keepT (r : MRead) (f : Nat) (pos : Nat) (s : State) : keepT (tieBegin r f pos s) = keepT s := by
  unfold tieBegin
  repeat' first | simp only [keepT_foldl, keepT_ite, ite_self, implies_true, finishRead_keepT, markCharged_keepT, tieStep_keepT, tieNoted_keepT] | split

theorem byOther_keepT (r : MRead) (s : State) : keepT (byOther r s) = keepT s := by
  unfold byOther
  simp only [keepT_mk]

theorem fastLadder_keepT (r : MRead) (f : Nat) (pos : Nat) (seq : Option (BitVec 16)) (s : State) : keepT (fastLadder r f pos seq s) = keepT s := by
  unfold fastLadder
  repeat' first | simp only [keepT_foldl, keepT_ite, ite_self, implies_true, finishRead_keepT, olderAgain_keepT, tieBegin_keepT, byOther_keepT, chargeRead_keepT, askCopy_keepT] | split

theorem tieGo_keepT (r : MRead) (f : Nat) (pos : Nat) (seq : Option (BitVec 16)) (s : State) : keepT (tieGo r f pos seq s) = keepT s := by
  unfold tieGo
  repeat' first | simp only [keepT_ite, ite_self, finishRead_keepT, tieStore_keepT, tieStep_keepT] | split

theorem fastGo_keepT (r : MRead) (f : Nat) (pos : Nat) (seq : Option (BitVec 16)) (s : State) : keepT (fastGo r f pos seq s) = keepT s := by
  unfold fastGo
  repeat' first | simp only [keepT_ite, ite_self, finishRead_keepT, suspendAll_keepT, fastLadder_keepT, prefetchBad_keepT, byOther_keepT, chargeRead_keepT, tieGo_keepT, askCopy_keepT, fastBeyond_keepT] | split

theorem readGo_keepT (rid : Nat) (s : State) : keepT (readGo rid s) = keepT s := by
  unfold readGo
  repeat' first | simp only [keepT_ite, ite_self, finishRead_keepT, denseGo_keepT, fastGo_keepT] | split

theorem unhitch_keepT (cause : Nat) (s : State) : keepT (unhitch cause s) = keepT s := by
  unfold unhitch
  simp only [keepT_mk, keepT_foldl, keepT_ite, ite_self, implies_true, send_keepT, peerSend_keepT, setEvt_keepT, event_keepT, setPeer_keepT]

theorem setPower_keepT (f : PowerSt → PowerSt) (s : State) : keepT (setPower f s) = keepT s := by
  unfold setPower
  simp only [keepT_mk]

theorem checkOff_keepT (s : State) : keepT (checkOff s) = keepT s := by
  unfold checkOff
  simp only [keepT_ite, ite_self, setPower_keepT]

theorem scrubAskFast_keepT (f : Nat) (c : Nat) (pos : Nat) (step : Nat) (s : State) : keepT (scrubAskFast f c pos step s) = keepT s := by
  unfold scrubAskFast
  simp only [keepT_ite, apply_ite Prod.fst, apply_ite Prod.snd, ite_self, askRead_keepT]

theorem readLineRes_keepT (rid : Nat) (key : Nat) (step : Nat) (res : LineRes) (s : State) : keepT (readLineRes rid key step res s) = keepT s := by
  unfold readLineRes
  repeat' first | simp only [keepT_ite, ite_self, homeAfter_keepT, updRead_keepT, dieCount_keepT, countBlockMark_keepT, chargeRead_keepT, askMember_keepT, retryNoted_keepT, readGo_keepT] | split

theorem scrubAsk_keepT (b : Nat) (m : Nat) (x2 : Nat) (step : Nat) (s : State) : keepT (scrubAsk b m x2 step s) = keepT s := by
  unfold scrubAsk
  simp only [keepT_ite, ite_self, readRefs_keepT, askRead_keepT]

theorem askReadback_keepT (b : Nat) (m : Nat) (x2 : Nat) (s : State) : keepT (askReadback b m x2 s) = keepT s := by
  unfold askReadback
  simp only [readRefs_keepT, askRead_keepT]

theorem readLost_keepT (r : CRead) (s : State) : keepT (readLost r s) = keepT s := by
  unfold readLost
  repeat' first | simp only [keepT_ite, ite_self, scrubAskFast_keepT, readLineRes_keepT, scrubAsk_keepT, askReadback_keepT] | split

theorem dropWork_keepT (ch : Nat) (hit : Nat → Nat → Bool) (s : State) : keepT (dropWork ch hit s) = keepT s := by
  unfold dropWork
  simp only [keepT_foldl, implies_true, setCart_keepT, readLost_keepT, progLost_keepT]

theorem setStack_keepT (ch : Nat) (f : Stack → Stack) (s : State) : keepT (setStack ch f s) = keepT s := by
  unfold setStack
  simp only [keepT_mk]

theorem stackDown_keepT (ch : Nat) (powered : Bool) (s : State) : keepT (stackDown ch powered s) = keepT s := by
  unfold stackDown
  simp only [keepT_mk, setStack_keepT]

theorem setTest_keepT (u : Nat) (result : Nat) (first : Nat) (destructive : Bool) (s : State) : keepT (setTest u result first destructive s) = keepT s := by
  unfold setTest
  simp only [keepT_mk]

theorem endContained_keepT (u : Nat) (s : State) : keepT (endContained u s) = keepT s := by
  unfold endContained
  repeat' first | simp only [keepT_mk, keepT_ite, ite_self, setTest_keepT, endJob_keepT, setUnit_keepT] | split | refine Eq.trans (keepT_foldl _ _ _ (fun _ _ => ?_)) ?_

theorem beyondEvent_keepT (cond : Nat) (band : Nat) (s : State) : keepT (beyondEvent cond band s) = keepT s := by
  unfold beyondEvent
  simp only [keepT_mk, keepT_ite, ite_self, event_keepT]

theorem spanServe_keepT (lfn : Nat) (s : State) : keepT (spanServe lfn s) = keepT s := by
  unfold spanServe
  simp only [keepT_ite, ite_self, commitNow_keepT, abandonFrame_keepT, markRebuild_keepT, releaseOld_keepT]

theorem beyond_keepT (s : State) : keepT (beyond s) = keepT s := by
  unfold beyond
  repeat' first | simp only [keepT_mk, keepT_foldl, keepT_ite, ite_self, implies_true, poisonFind_keepT, mergeRead_keepT, beyondEvent_keepT, unhitch_keepT, refreshBand_keepT, makeDue_keepT, spanServe_keepT] | split | refine Eq.trans (keepT_foldl _ _ _ (fun _ _ => ?_)) ?_

theorem abandonMissing_keepT (s : State) : keepT (abandonMissing s) = keepT s := by
  unfold abandonMissing
  repeat' first | simp only [keepT_ite, ite_self, abandonBatch_keepT] | split | refine Eq.trans (keepT_foldl _ _ _ (fun _ _ => ?_)) ?_

theorem mediaLoss_keepT (u : Nat) (down : Bool) (s : State) : keepT (mediaLoss u down s) = keepT s := by
  unfold mediaLoss
  simp only [keepT_ite, ite_self, sendPkt_keepT, dropWork_keepT, stackDown_keepT, setCart_keepT, endWindows_keepT, endContained_keepT, beyond_keepT, abandonMissing_keepT]

theorem stackOff_keepT (ch : Nat) (s : State) : keepT (stackOff ch s) = keepT s := by
  unfold stackOff
  simp only [keepT_ite, ite_self, stackDown_keepT]

theorem portState_keepT (p : Nat) (st : UState) (s : State) : keepT (portState p st s) = keepT s := by
  unfold portState
  simp only [keepT_ite, ite_self, setUnit_keepT]

theorem portDown_keepT (p : Nat) (s : State) : keepT (portDown p s) = keepT s := by
  unfold portDown
  simp only [keepT_mk, portState_keepT, updLoad_keepT, setPort_keepT]

theorem unitsAbsent_keepT (olds : List (Nat × UState)) (s : State) : keepT (unitsAbsent olds s) = keepT s := by
  unfold unitsAbsent
  simp only [keepT_foldl, keepT_ite, ite_self, implies_true, mediaLoss_keepT, stateEvent_keepT, stackOff_keepT, portDown_keepT]

theorem loseJobs_keepT (s : State) : keepT (loseJobs s) = keepT s := by
  unfold loseJobs
  simp only [keepT_mk]

theorem closeBatch_keepT (i : Nat) (strict : Bool) (tail : Bool) (s : State) : keepT (closeBatch i strict tail s) = keepT s := by
  unfold closeBatch
  repeat' first | simp only [keepT_mk, setStream_keepT, peerSend_keepT] | split

theorem streamAdd_keepT (i : Nat) (rec_ : Record) (strict : Bool) (s : State) : keepT (streamAdd i rec_ strict s) = keepT s := by
  unfold streamAdd
  repeat' first | simp only [keepT_mk, keepT_ite, ite_self, closeBatch_keepT] | split

theorem streamAll_keepT (rec_ : Record) (strict : Bool) (s : State) : keepT (streamAll rec_ strict s).2 = keepT s := by
  unfold streamAll
  exact keepT_foldl2 _ _ _ (fun p a => by simp only [streamAdd_keepT])

theorem sendMap_keepT (i : Nat) (old : Nat) (s : State) : keepT (sendMap i old s) = keepT s := by
  unfold sendMap
  simp only [keepT_foldl, keepT_ite, ite_self, implies_true, streamAll_keepT]

theorem admitNext_keepT (lfn : Nat) (s : State) : keepT (admitNext lfn s) = keepT s := by
  unfold admitNext
  repeat' first | simp only [keepT_mk, ackDelta_keepT] | split

theorem wipeSet_keepT (f : Nat) (s : State) : keepT (wipeSet f s) = keepT s := by
  unfold wipeSet
  simp only [keepT_foldl, keepT_ite, ite_self, implies_true, clearFast_keepT]

theorem abandonCovered_keepT (u : Nat) (s : State) : keepT (abandonCovered u s) = keepT s := by
  unfold abandonCovered
  repeat' first | simp only [abandonBatch_keepT] | split | refine Eq.trans (keepT_foldl _ _ _ (fun _ _ => ?_)) ?_

theorem judgeRemovals_keepT (x0 : List Removal) (x1 : List Nat) (x2 : State) : keepT (judgeRemovals x0 x1 x2) = keepT x2 := by
  induction x0 generalizing x1 x2 with
  | nil => rfl
  | cons r l ih =>
    unfold judgeRemovals
    extract_lets u gs ok upd wait s1 t s2
    split
    · exact ih _ _
    · refine (ih _ _).trans ?_
      have hu : ∀ f s, keepT (upd f s) = keepT s := fun f s => keepT_mk rfl rfl
      have hw : ∀ s, keepT (wait s) = keepT s := fun s => by simp only [wait]; split <;> simp only [setCart_keepT]
      simp only [s2, s1, t]
      repeat' split
      all_goals first | rfl | simp only [abandonCovered_keepT, hu, hw]

theorem disableRail_keepT (r : Nat) (s : State) : keepT (disableRail r s) = keepT s := by
  unfold disableRail
  simp only [checkOff_keepT, setPower_keepT]

theorem railLeaves_keepT (r : Nat) (st : UState) (s : State) : keepT (railLeaves r st s) = keepT s := by
  unfold railLeaves
  simp only [unitsAbsent_keepT, setUnit_keepT, disableRail_keepT]

theorem startTraining_keepT (ch : Nat) (s : State) : keepT (startTraining ch s) = keepT s := by
  unfold startTraining
  simp only [stackDown_keepT, setCart_keepT, setStack_keepT]

theorem removalLeaves_keepT (x0 : Removal) (s : State) : keepT (removalLeaves x0 s) = keepT s := by
  unfold removalLeaves
  repeat' first | simp only [keepT_mk, keepT_ite, ite_self, mediaLoss_keepT, dropWork_keepT, endJob_keepT, endWindows_keepT, railLeaves_keepT, setUnit_keepT, startTraining_keepT] | split

theorem placeRemovals_keepT (s : State) : keepT (placeRemovals s) = keepT s := by
  unfold placeRemovals
  simp only [keepT_foldl, implies_true, judgeRemovals_keepT, removalLeaves_keepT]

theorem latchOverlay_keepT (s : State) : keepT (latchOverlay s) = keepT s := by
  unfold latchOverlay
  repeat' first | simp only [keepT_mk] | split

theorem bandFreed_keepT (b : Nat) (s : State) : keepT (bandFreed b s) = keepT s := by
  unfold bandFreed
  simp only [keepT_mk, ckRecord_keepT, setBand_keepT]

theorem placeDemotions_keepT (s : State) : keepT (placeDemotions s) = keepT s := by
  unfold placeDemotions
  simp only [keepT_mk, keepT_foldl, keepT_ite, ite_self, implies_true, makeDue_keepT]

theorem spanEval_keepT (s : State) : keepT (spanEval s) = keepT s := by
  unfold spanEval
  repeat' first | simp only [keepT_mk, keepT_ite, ite_self, stateEvent_keepT] | split

theorem setPeerSt_keepT (r : Nat) (st : Nat) (s : State) : keepT (setPeerSt r st s) = keepT s := by
  unfold setPeerSt
  simp only [keepT_ite, ite_self, stateEvent_keepT, spanEval_keepT, setPeer_keepT]

theorem storeSwk_keepT (wrapped : List Byte) (s : State) : keepT (storeSwk wrapped s) = keepT s := by
  unfold storeSwk
  simp only [keepT_mk, sbEnqueue_keepT]

theorem drainStage_keepT (s : State) : keepT (drainStage s) = keepT s := by
  unfold drainStage
  simp only [keepT_foldl, keepT_ite, ite_self, implies_true, drawBits_keepT, drainLine_keepT]

theorem writeSegment_keepT (g : Seg) (lines : List Line) (md : BitVec 16) (s : State) : keepT (writeSegment g lines md s).2 = keepT s := by
  unfold writeSegment
  split
  · rfl
  · next h => exact (keepT_foldl _ _ _ (fun s a => segPut_keepT _ _ _ _)).trans ((placeSeg_keepT _ _ _).trans (pickSegment_keepT _ _ _ h))

theorem writePi_keepT (ref : BitVec 48) (pc0 : BitVec 48) (delta : Bool) (es : List PiEnt) (s : State) : keepT (writePi ref pc0 delta es s).2 = keepT s := by
  unfold writePi
  repeat' first | simp only [writeSegment_keepT] | split | refine Eq.trans (keepT_foldl _ _ _ (fun _ _ => ?_)) ?_ | refine Eq.trans (keepT_foldl2 _ _ _ (fun _ _ => ?_)) ?_

theorem restartStream_keepT (i : Nat) (s : State) : keepT (restartStream i s) = keepT s := by
  unfold restartStream
  repeat' first | simp only [keepT_mk, keepT_foldl, implies_true, setStream_keepT, peerSend_keepT] | split

theorem reclaimBand_keepT (b : Nat) (key : Nat) (s : State) : keepT (reclaimBand b key s) = keepT s := by
  unfold reclaimBand
  simp only [keepT_foldl, implies_true, makeDue_keepT]

theorem noteRebuild_keepT (r : Nat) (s : State) : keepT (noteRebuild r s) = keepT s := by
  unfold noteRebuild
  simp only [keepT_ite, ite_self, spanEval_keepT, setPeer_keepT]

theorem rebuildBases_keepT (lfn : Nat) (s : State) : keepT (rebuildBases lfn s) = keepT s := by
  unfold rebuildBases
  simp only [keepT_foldl, implies_true, noteRebuild_keepT, spanStart_keepT]

theorem askAdmission_keepT (lfn : Nat) (s : State) : keepT (askAdmission lfn s) = keepT s := by
  unfold askAdmission
  repeat' first | simp only [keepT_mk, keepT_ite, ite_self, peerSend_keepT, rebuildBases_keepT] | split

theorem openBatch_keepT (s : State) : keepT (openBatch s) = keepT s := by
  unfold openBatch
  repeat' first | simp only [keepT_ite, openOn_keepT, pumpRestart_keepT, meetDirect_keepT] | split

theorem openFull_keepT (s : State) : keepT (openFull s) = keepT s := by
  unfold openFull
  simp only [keepT_times, keepT_ite, ite_self, implies_true, openBatch_keepT]

theorem replayStep_keepT (s : State) : keepT (replayStep s) = keepT s := by
  unfold replayStep
  simp only [keepT_foldl, keepT_ite, ite_self, implies_true, setPower_keepT, drainLine_keepT, ncWrite_keepT]

theorem imageStart_keepT (s : State) : keepT (imageStart s) = keepT s := by
  unfold imageStart
  simp only [keepT_mk, ckRecord_keepT]

theorem tryFree_keepT (b : Nat) (s : State) : keepT (tryFree b s) = keepT s := by
  unfold tryFree
  simp only [keepT_ite, ite_self, bandFreed_keepT]

theorem setAllotment_keepT (s : State) : keepT (setAllotment s) = keepT s := by
  unfold setAllotment
  simp only [keepT_mk]

theorem resettle_keepT (s : State) : keepT (resettle s) = keepT s := by
  unfold resettle
  simp only [keepT_foldl, implies_true, makeDue_keepT]

theorem setWard_keepT (pool : Nat) (f : Ward → Ward) (s : State) : keepT (setWard pool f s) = keepT s := by
  unfold setWard
  simp only [keepT_mk]

theorem sendRelease_keepT (rsnaps : List (Nat × BitVec 48)) (llns : List Nat) (s : State) : keepT (sendRelease rsnaps llns s) = keepT s := by
  unfold sendRelease
  repeat' first | simp only [keepT_ite, peerSend_keepT] | split | refine Eq.trans (keepT_foldl _ _ _ (fun _ _ => ?_)) ?_

theorem heartbeats_keepT (s : State) : keepT (heartbeats s) = keepT s := by
  unfold heartbeats
  simp only [keepT_foldl, keepT_ite, ite_self, implies_true, fireStart_keepT, peerSend_keepT]

theorem setSec_keepT (f : SecSt → SecSt) (s : State) : keepT (setSec f s) = keepT s := by
  unfold setSec
  simp only [keepT_mk]

theorem newRoot_keepT (s : State) : keepT (newRoot s) = keepT s := by
  unfold newRoot
  simp only [sbEnqueue_keepT, drawBits_keepT, setSec_keepT]

theorem sendTimetable_keepT (s : State) : keepT (sendTimetable s) = keepT s := by
  unfold sendTimetable
  repeat' first | simp only [keepT_foldl, keepT_ite, implies_true, peerSend_keepT] | split

theorem piBaseStart_keepT (s : State) : keepT (piBaseStart s) = keepT s := by
  unfold piBaseStart
  repeat' first | simp only [keepT_mk, writePi_keepT] | split

theorem newKey_keepT (i : Nat) (s : State) : keepT (newKey i s) = keepT s := by
  unfold newKey
  simp only [setLd_keepT, sbEnqueue_keepT, drawBits_keepT]

theorem setLevel_keepT (new : Nat) (s : State) : keepT (setLevel new s) = keepT s := by
  unfold setLevel
  simp only [keepT_mk, keepT_ite, ite_self, event_keepT, setSec_keepT]

theorem imageWrite_keepT (n : Nat) (im : CkImage) (isClear : Nat → Bool) (s : State) : keepT (imageWrite n im isClear s).2 = keepT s := by
  unfold imageWrite
  repeat' first | simp only [keepT_mk, writeSegment_keepT] | split | refine Eq.trans (keepT_foldl _ _ _ (fun _ _ => ?_)) ?_ | refine Eq.trans (keepT_foldl2 _ _ _ (fun _ _ => ?_)) ?_

theorem badAgain_keepT (s : State) (blk : Nat) : keepT (badAgain s blk) = keepT s := by
  unfold badAgain
  simp only [ckRecord_keepT]

theorem imageDone_keepT (n : Nat) (im : CkImage) (segs : List Nat) (s : State) : keepT (imageDone n im segs s) = keepT s := by
  unfold imageDone
  extract_lets s1 s2 images oldest low
  have h1 : keepT s1 = keepT s := keepT_foldl _ _ _ (fun s b => badAgain_keepT _ _)
  clear_value s1
  have h2 : keepT s2 = keepT s := (ckRecord_keepT _ _ _ _ _).trans h1
  clear_value s2
  exact (keepT_mk (s := s2) rfl rfl).trans h2

theorem imageWhole_keepT (n : Nat) (s : State) : keepT (imageWhole n s) = keepT s := by
  unfold imageWhole
  repeat' first | simp only [keepT_mk, keepT_ite, ite_self, imageWrite_keepT, imageDone_keepT] | split

theorem imageEnd_keepT (s : State) : keepT (imageEnd s) = keepT s := by
  unfold imageEnd
  simp only [imageWhole_keepT]

theorem dropAll_keepT (s : State) : keepT (dropAll s) = keepT s := by
  unfold dropAll
  simp only [keepT_mk, keepT_foldl, implies_true, imageEnd_keepT, releaseSet_keepT, piBaseStart_keepT, imageStart_keepT]

theorem lowerAdvance_keepT (s : State) : keepT (lowerAdvance s) = keepT s := by
  unfold lowerAdvance
  repeat' first | simp only [keepT_mk, keepT_foldl, keepT_ite, ite_self, implies_true, newKey_keepT, newRoot_keepT, setLd_keepT, endJob_keepT, setLevel_keepT, sbEnqueue_keepT, writePl_keepT, dropAll_keepT, setSec_keepT] | split

theorem dropRanges_keepT (i : Nat) (p : Range → Bool) (s : State) : keepT (dropRanges i p s) = keepT s := by
  unfold dropRanges
  simp only [setLd_keepT, sendMap_keepT]

theorem releaseGo_keepT (i : Nat) (c : Option Caller) (exts : List Extent) (s : State) : keepT (releaseGo i c exts s) = keepT s := by
  unfold releaseGo
  repeat' first | simp only [keepT_ite, send_keepT, setLd_keepT, emptyAll_keepT, dropRanges_keepT] | split

theorem freeDeadSet_keepT (f : Nat) (s : State) : keepT (freeDeadSet f s) = keepT s := by
  unfold freeDeadSet
  simp only [keepT_ite, ite_self, releaseSet_keepT]

theorem eraseStep_keepT (x0 : Nat) (s : State) : keepT (eraseStep x0 s).2 = keepT s := by
  unfold eraseStep
  simp only [keepT_foldl, keepT_ite, apply_ite Prod.snd, ite_self, implies_true, reclaimBand_keepT, freeDeadSet_keepT, wipeSet_keepT, setBand_keepT, makeDue_keepT]

theorem eraseGo_keepT (i : Nat) (s : State) : keepT (eraseGo i s) = keepT s := by
  unfold eraseGo
  repeat' first | simp only [keepT_ite, ite_self, send_keepT, setLd_keepT, eraseStep_keepT, clearPoison_keepT] | split | refine Eq.trans (keepT_foldl _ _ _ (fun _ _ => ?_)) ?_ | refine Eq.trans (keepT_foldl2 _ _ _ (fun _ _ => ?_)) ?_

theorem pollWork_keepT (s : State) : keepT (pollWork s) = keepT s := by
  unfold pollWork
  repeat' first | simp only [keepT_foldl, keepT_ite, ite_self, implies_true, endJob_keepT, releaseGo_keepT, eraseGo_keepT] | split | refine Eq.trans (keepT_foldl _ _ _ (fun _ _ => ?_)) ?_

theorem loseSource_keepT (src : TimeSrc) (other : TimeSrc) (otherGood : Bool) (s : State) : keepT (loseSource src other otherGood s) = keepT s := by
  unfold loseSource
  simp only [keepT_mk, keepT_ite, ite_self, timeEvent_keepT]

theorem lostCopiesDue_keepT (s : State) : keepT (lostCopiesDue s) = keepT s := by
  unfold lostCopiesDue
  simp only [keepT_foldl, implies_true, makeDue_keepT]

theorem rebuildFail_keepT (lfn : Nat) (s : State) : keepT (rebuildFail lfn s) = keepT s := by
  unfold rebuildFail
  simp only [keepT_mk]

theorem applyRecord_keepT (lln : Nat) (r : FRecord) (s : State) : keepT (applyRecord lln r s) = keepT s := by
  unfold applyRecord
  repeat' first | simp only [keepT_ite, internalWrite_keepT, ncWrite_keepT] | split

theorem rebuildTake_keepT (q : SpanRead) (s : State) : keepT (rebuildTake q s) = keepT s := by
  unfold rebuildTake
  repeat' first | simp only [keepT_mk, keepT_ite, ite_self, rebuildFail_keepT, applyRecord_keepT] | split | refine Eq.trans (keepT_foldl _ _ _ (fun _ _ => ?_)) ?_

theorem sampleThreshold_keepT (die : Nat) (k : Nat) (lo : MediaLine) (mid : MediaLine) (hi : MediaLine) (s : State) : keepT (sampleThreshold die k lo mid hi s).2 = keepT s := by
  unfold sampleThreshold
  simp only [keepT_mk, keepT_ite, apply_ite Prod.snd, ite_self]

theorem isolateDrained_keepT (s : State) : keepT (isolateDrained s) = keepT s := by
  unfold isolateDrained
  simp only [keepT_foldl, keepT_ite, ite_self, implies_true, setUnit_keepT]

theorem setOwnSt_keepT (st : Nat) (s : State) : keepT (setOwnSt st s) = keepT s := by
  unfold setOwnSt
  simp only [storeDesc_keepT, setPeerSt_keepT]

theorem demoteAll_keepT (s : State) : keepT (demoteAll s) = keepT s := by
  unfold demoteAll
  simp only [keepT_foldl, keepT_ite, ite_self, implies_true, commitQuiet_keepT, makeDue_keepT]

theorem askRnums_keepT (ms : List Nat) (s : State) : keepT (askRnums ms s) = keepT s := by
  unfold askRnums
  simp only [keepT_mk, keepT_foldl, implies_true, peerSend_keepT]

theorem outriderFill_keepT (s : State) : keepT (outriderFill s) = keepT s := by
  unfold outriderFill
  simp only [keepT_ite, ite_self, askRnums_keepT]

theorem joinAdvance_keepT (s : State) : keepT (joinAdvance s) = keepT s := by
  unfold joinAdvance
  repeat' first | simp only [keepT_mk, keepT_foldl, keepT_ite, ite_self, implies_true, setOwnSt_keepT, endJob_keepT, commitNow_keepT, demoteAll_keepT, outriderFill_keepT] | split

theorem reseed_keepT (i : Nat) (fresh : Bool) (s : State) : keepT (reseed i fresh s) = keepT s := by
  unfold reseed
  simp only [keepT_mk, keepT_foldl, keepT_ite, ite_self, implies_true, closeBatch_keepT, setStream_keepT, streamAdd_keepT, restartStream_keepT]

theorem mendFlushSets_keepT (s : State) : keepT (mendFlushSets s) = keepT s := by
  unfold mendFlushSets
  simp only [keepT_mk, keepT_ite, ite_self, setPower_keepT, updLoad_keepT]

theorem foreignAgain_keepT (s : State) : keepT (foreignAgain s) = keepT s := by
  unfold foreignAgain
  repeat' first | simp only [piInsert_keepT] | split | refine Eq.trans (keepT_foldl _ _ _ (fun _ _ => ?_)) ?_

theorem rejoinAdvance_keepT (s : State) : keepT (rejoinAdvance s) = keepT s := by
  unfold rejoinAdvance
  repeat' first | simp only [keepT_mk, keepT_foldl, keepT_ite, ite_self, implies_true, spanStart_keepT, foreignAgain_keepT, askRnums_keepT] | split

theorem scrubSetRead_keepT (f : Nat) (k : Nat) (s : State) : keepT (scrubSetRead f k s) = keepT s := by
  unfold scrubSetRead
  simp only [scrubAskFast_keepT]

theorem takeSources_keepT (s : State) : keepT (takeSources s) = keepT s := by
  unfold takeSources
  simp only [keepT_mk, keepT_ite, ite_self, timeEvent_keepT, loseSource_keepT]

theorem lfsrRun_keepT (ns : Nat) (s : State) : keepT (lfsrRun ns s) = keepT s := by
  unfold lfsrRun
  simp only [keepT_mk]

theorem closeHotWindow_keepT (s : State) : keepT (closeHotWindow s) = keepT s := by
  unfold closeHotWindow
  simp only [keepT_mk, keepT_foldl, keepT_ite, ite_self, implies_true, commitQuiet_keepT]

theorem warmReset_keepT (s : State) : keepT (warmReset s) = keepT s := by
  unfold warmReset
  simp only [keepT_mk, loseJobs_keepT]

theorem activateLead_keepT (s : State) : keepT (activateLead s) = keepT s := by
  unfold activateLead
  simp only [keepT_mk, keepT_ite, ite_self, warmReset_keepT]

theorem scrubBandRead_keepT (b : Nat) (k : Nat) (s : State) : keepT (scrubBandRead b k s) = keepT s := by
  unfold scrubBandRead
  simp only [keepT_ite, ite_self, scrubMissing_keepT, scrubAsk_keepT]

theorem issueScrub_keepT (s : State) : keepT (issueScrub s) = keepT s := by
  unfold issueScrub
  extract_lets stages bands n1 s1 sets hours n2
  have h1 : keepT s1 = keepT s := by
    simp only [s1]
    split
    · rfl
    · exact keepT_foldl _ _ _ (fun t _ => (scrubBandRead_keepT _ _ _).trans (keepT_mk (s := t) rfl rfl))
  clear_value s1
  split
  · exact h1
  · exact (keepT_foldl _ _ _ (fun t _ => (scrubSetRead_keepT _ _ _).trans (keepT_mk (s := t) rfl rfl))).trans h1

theorem clearBand_keepT (b : Nat) (s : State) : keepT (clearBand b s) = keepT s := by
  unfold clearBand
  simp only [keepT_foldl, keepT_ite, ite_self, implies_true, setBand_keepT, bandFreed_keepT, markBad_keepT, askProg_keepT]

theorem scrubFrames_keepT (s : State) : keepT (scrubFrames s) = keepT s := by
  unfold scrubFrames
  simp only [keepT_mk, keepT_foldl, keepT_ite, ite_self, implies_true, scrubSetRead_keepT, scrubAsk_keepT]

theorem recount_keepT (s : State) : keepT (recount s) = keepT s := by
  unfold recount
  simp only [keepT_mk]

theorem endAdmission_keepT (lfn : Nat) (s : State) : keepT (endAdmission lfn s) = keepT s := by
  unfold endAdmission
  repeat' first | simp only [keepT_mk, peerSend_keepT, admitNext_keepT] | split

theorem rebuildPoll_keepT (s : State) : keepT (rebuildPoll s) = keepT s := by
  unfold rebuildPoll
  simp only [keepT_foldl, keepT_ite, ite_self, implies_true, spanStart_keepT, endAdmission_keepT, rebuildTake_keepT, makeDue_keepT]

theorem scrubUnit_keepT (u : HbmUnit) (s : State) : keepT (scrubUnit u s) = keepT s := by
  unfold scrubUnit
  repeat' first | simp only [keepT_mk, keepT_ite, ite_self, pageRead_keepT, hbmMeet_keepT, pageDrop_keepT, hbmWrite_keepT, entryLost_keepT, residencyMeet_keepT, slotRead_keepT] | split

theorem remountAsk_keepT (m : Nat) (s : State) : keepT (remountAsk m s) = keepT s := by
  unfold remountAsk
  simp only [keepT_mk, keepT_foldl, implies_true, commitNow_keepT, peerSend_keepT, outriderFill_keepT]

theorem foreignSegment_keepT (pool need : Nat) (rnum : BitVec 48) (s : State) (k : Nat) (t : State)
    (h : foreignSegment pool need rnum s = some (k, t)) : keepT t = keepT s := by
  unfold foreignSegment at h
  split at h
  · cases h; rfl
  · extract_lets s1 at h
    split at h
    · cases h
    · cases h; simp only [setWard_keepT, placeSeg_keepT, s1]

theorem storeForeign_keepT (pool : Nat) (lln : Nat) (s : State) : keepT (storeForeign pool lln s) = keepT s := by
  unfold storeForeign
  split
  · rfl
  · extract_lets full
    split
    · rfl
    · next h =>
      have h0 := foreignSegment_keepT _ _ _ _ _ _ h
      extract_lets i place s1 s2 x s3 s4 s5
      have h2 : keepT s2 = keepT s := by
        simp only [s2, s1]; split <;> simp only [segPut_keepT, h0]
      clear_value s2
      have h4 : keepT s4 = keepT s := (segPut_keepT _ _ _ _).trans ((keepT_mk (s := s2) rfl rfl).trans h2)
      clear_value s4
      have h5 : keepT s5 = keepT s := by simp only [s5]; split <;> simp only [segPut_keepT, h4]
      exact (piInsert_keepT _ _).trans ((setWard_keepT _ _ _).trans h5)

theorem compactForeign_keepT (pool : Nat) (s : State) : keepT (compactForeign pool s) = keepT s := by
  unfold compactForeign
  repeat' first | simp only [keepT_foldl, keepT_ite, ite_self, implies_true, storeForeign_keepT] | split

theorem relayout_keepT (g : Nat) (s : State) : keepT (relayout g s) = keepT s := by
  unfold relayout
  simp only [keepT_mk]

theorem ageChannels_keepT (s : State) : keepT (ageChannels s) = keepT s := by
  unfold ageChannels
  simp only [keepT_mk, keepT_foldl, implies_true]

theorem maintainChannels_keepT (s : State) : keepT (maintainChannels s) = keepT s := by
  unfold maintainChannels
  simp only [keepT_foldl, keepT_ite, ite_self, implies_true, askRaw_keepT]

theorem sampleCalibration_keepT (s : State) : keepT (sampleCalibration s) = keepT s := by
  unfold sampleCalibration
  repeat' first | simp only [keepT_mk, keepT_ite, ite_self, loadRefs_keepT, readReference_keepT, sampleThreshold_keepT] | split | refine Eq.trans (keepT_foldl _ _ _ (fun _ _ => ?_)) ?_ | refine Eq.trans (keepT_foldl2 _ _ _ (fun _ _ => ?_)) ?_

theorem cycleStart_keepT (s : State) : keepT (cycleStart s) = keepT s := by
  unfold cycleStart
  simp only [keepT_mk, ageChannels_keepT, latchOverlay_keepT, drawBits_keepT, maintainChannels_keepT, sampleCalibration_keepT]

theorem sendWithheld_keepT (s : State) : keepT (sendWithheld s) = keepT s := by
  unfold sendWithheld
  simp only [keepT_mk, keepT_foldl, implies_true, sendRelease_keepT]

theorem rebuildStart_keepT (s : State) : keepT (rebuildStart s) = keepT s := by
  unfold rebuildStart
  repeat' first | simp only [keepT_mk, keepT_foldl, keepT_ite, ite_self, implies_true, rebuildBases_keepT, askAdmission_keepT, bulkAsk_keepT] | split

theorem issueClears_keepT (s : State) : keepT (issueClears s) = keepT s := by
  unfold issueClears
  simp only [keepT_foldl, implies_true, tryFree_keepT, setBand_keepT, clearBand_keepT]

theorem pruneSteps_keepT (s : State) : keepT (pruneSteps s) = keepT s := by
  unfold pruneSteps
  simp only [keepT_mk, keepT_ite, ite_self, saveSteps_keepT]

theorem reclaim_keepT (s : State) : keepT (reclaim s) = keepT s := by
  unfold reclaim
  repeat' first | simp only [keepT_mk, keepT_ite, reclaimBand_keepT] | split

theorem applyBudget_keepT (s : State) : keepT (applyBudget s) = keepT s := by
  unfold applyBudget
  split
  · rfl
  · split
    · rfl
    · extract_lets g s1 s2 c w h
      have h1 : keepT s1 = keepT s := setPower_keepT _ _
      have h2 : keepT s2 = keepT s := (relayout_keepT _ _).trans h1
      clear_value s2 g
      exact (updLoad_keepT _).trans ((keepT_mk (s := s2) rfl rfl).trans h2)

theorem refold_keepT (s : State) : keepT (refold s) = keepT s := by
  unfold refold
  simp only [keepT_mk, keepT_foldl, keepT_ite, ite_self, implies_true, event_keepT, refreshBand_keepT]

theorem hbmScrub_keepT (s : State) : keepT (hbmScrub s) = keepT s := by
  unfold hbmScrub
  simp only [keepT_mk, keepT_foldl, keepT_ite, ite_self, implies_true, scrubUnit_keepT]

theorem startMigration_keepT (lfn : Nat) (s : State) : keepT (startMigration lfn s) = keepT s := by
  unfold startMigration
  repeat' first | simp only [startMove_keepT] | split

theorem placeMoves_keepT (s : State) : keepT (placeMoves s) = keepT s := by
  unfold placeMoves
  simp only [keepT_foldl, keepT_ite, ite_self, implies_true, startMigration_keepT, startPromotion_keepT]

theorem runMoves_keepT (s : State) : keepT (runMoves s) = keepT s := by
  unfold runMoves
  simp only [keepT_foldl, keepT_ite, ite_self, implies_true, moveStep_keepT]

theorem unstage_keepT (s : State) : keepT (unstage s) = keepT s := by
  unfold unstage
  simp only [keepT_foldl, keepT_ite, ite_self, implies_true, makeDue_keepT]

theorem backgroundWork_keepT (s : State) : keepT (backgroundWork s) = keepT s := by
  unfold backgroundWork
  extract_lets s1 s2 s3 s4 s5 s6 s7 s8 s9 t s10 s11
  have h1 : keepT s1 = keepT s := (drainStage_keepT _).trans ((logPressure_keepT _).trans ((hbmScrub_keepT _).trans (recount_keepT _)))
  clear_value s1
  have h2 : keepT s2 = keepT s := (reclaim_keepT _).trans ((refold_keepT _).trans ((resettle_keepT _).trans h1))
  clear_value s2
  have h3 : keepT s3 = keepT s := (beyond_keepT _).trans ((unstage_keepT _).trans ((stage_keepT _).trans ((lostCopiesDue_keepT _).trans h2)))
  clear_value s3
  have h4 : keepT s4 = keepT s := (openFull_keepT _).trans ((placeDemotions_keepT _).trans ((placeMoves_keepT _).trans h3))
  clear_value s4
  have h5 : keepT s5 = keepT s := (runMoves_keepT _).trans ((issueClears_keepT _).trans h4)
  clear_value s5
  have h6 : keepT s6 = keepT s := (keepT_foldl _ _ _ (fun s p => compactForeign_keepT _ _)).trans h5
  clear_value s6
  have h7 : keepT s7 = keepT s := (scrubFrames_keepT _).trans ((issueScrub_keepT _).trans h6)
  clear_value s7
  have h8 : keepT s8 = keepT s := (isolateDrained_keepT _).trans h7
  clear_value s8
  have h9 : keepT s9 = keepT s := by
    refine (pruneSteps_keepT _).trans ?_
    split
    · exact (imageEnd_keepT _).trans h8
    · exact h8
  clear_value s9
  have h10 : keepT s10 = keepT s := by
    simp only [s10]; split
    · exact (keepT_mk (s := s9) rfl rfl).trans h9
    · exact h9
  clear_value s10
  have h11 : keepT s11 = keepT s := (mendFlushSets_keepT _).trans ((applyBudget_keepT _).trans h10)
  clear_value s11
  exact (keepT_foldl _ _ _ (fun s b => advanceBatch_keepT _ _)).trans h11

theorem peerFlush_keepT (r : Nat) (s : State) : keepT (peerFlush r s) = keepT s := by
  unfold peerFlush
  simp only [keepT_foldl, implies_true, peerSend_keepT, setPeer_keepT]

theorem remountAdvance_keepT (s : State) : keepT (remountAdvance s) = keepT s := by
  unfold remountAdvance
  repeat' first | simp only [keepT_mk, keepT_ite, ite_self, remountAsk_keepT, setOwnSt_keepT, endJob_keepT] | split

theorem setMap_keepT (s : State) : keepT (setMap s) = keepT s := by
  unfold setMap
  simp only [keepT_mk]

theorem ageCounts_keepT (old : Nat) (n : Nat) (s : State) : keepT (ageCounts old n s) = keepT s := by
  unfold ageCounts
  simp only [keepT_mk, keepT_ite, ite_self]

theorem setWindows_keepT (s : State) : keepT (setWindows s) = keepT s := by
  unfold setWindows
  repeat' first | simp only [keepT_mk, abandonBatch_keepT] | split | refine Eq.trans (keepT_foldl _ _ _ (fun _ _ => ?_)) ?_

theorem swkAdvance_keepT (s : State) : keepT (swkAdvance s) = keepT s := by
  unfold swkAdvance
  repeat' first | simp only [keepT_mk, keepT_ite, storeSwk_keepT, peerSend_keepT, drawBits_keepT] | split

theorem spanWork_keepT (s : State) : keepT (spanWork s) = keepT s := by
  unfold spanWork
  simp only [keepT_foldl, keepT_ite, ite_self, implies_true, peerFlush_keepT, sendWithheld_keepT, remountAdvance_keepT, reseed_keepT, swkAdvance_keepT, rebuildStart_keepT, joinAdvance_keepT, rebuildPoll_keepT, outriderFill_keepT]

end Sys2Proof.Machine
end

section
/-! SUPPORT. The stage boundary and the rows of upkeep, with O52 assembled from them. -/

namespace Sys2Proof.Machine

/-! ### Segments written leave the caches, the image's run and the Patch Index alone -/

def keepI (s : State) := (s.cache, s.mm.imageRun, s.mm.imageStart, s.mm.imageRecs, s.mm.images, s.mm.mapNew, s.xlat.pi, s.xlat.piOvf, s.xlat.patchCtr)

section
variable {s t u : State}

theorem keepI_mk {x_out x_free x_id x_time x_tt x_unit x_host x_rstat x_write x_xlat x_mm x_lp x_media x_span x_queue x_wb x_evt x_sb x_power x_therm x_start x_fw x_sec}
    (hrun : x_mm.imageRun = s.mm.imageRun) (hstart : x_mm.imageStart = s.mm.imageStart) (hrecs : x_mm.imageRecs = s.mm.imageRecs)
    (himages : x_mm.images = s.mm.images) (hmap : x_mm.mapNew = s.mm.mapNew) (hpi : x_xlat.pi = s.xlat.pi) (hovf : x_xlat.piOvf = s.xlat.piOvf)
    (hctr : x_xlat.patchCtr = s.xlat.patchCtr) :
    keepI (State.mk s.pending x_out x_free s.variant x_id x_time x_tt x_unit x_host s.cache x_rstat x_write x_xlat x_mm x_lp x_media x_span x_queue x_wb x_evt x_sb x_power x_therm x_start x_fw x_sec) = keepI s := by
  unfold keepI
  rw [← hrun, ← hstart, ← hrecs, ← himages, ← hmap, ← hpi, ← hovf, ← hctr]

theorem keepI_foldl {α : Type} (g : State → α → State) (l : List α) (s : State) (h : ∀ s a, keepI (g s a) = keepI s) : keepI (l.foldl g s) = keepI s := by
  induction l generalizing s with
  | nil => rfl
  | cons a l ih => exact (ih _).trans (h s a)

theorem keepI_foldl2 {α β : Type} (g : β × State → α → β × State) (l : List α) (p : β × State) (h : ∀ p a, keepI (g p a).2 = keepI p.2) :
    keepI (l.foldl g p).2 = keepI p.2 := by
  induction l generalizing p with
  | nil => rfl
  | cons a l ih => exact (ih _).trans (h p a)

theorem keepI_ite {c : Prop} [Decidable c] (a b : State) : keepI (if c then a else b) = if c then keepI a else keepI b := apply_ite keepI c a b

end

theorem fire_imaged (p u : Nat) (s : State) : keepI (fire p u s) = keepI s := rfl

theorem lineInject_imaged (ch : Nat) (die : Nat) (l : MediaLine) (s : State) : keepI (lineInject ch die l s).2 = keepI s := by
  unfold lineInject
  repeat' first | simp only [fire_imaged] | split

theorem putLine_imaged (ch : Nat) (die : Nat) (bank : Nat) (block : Nat) (addr : Nat) (v : Cellv) (s : State) : keepI (putLine ch die bank block addr v s) = keepI s := by
  unfold putLine
  simp only [keepI_mk]

theorem programLine_imaged (ch : Nat) (die : Nat) (bank : Nat) (block : Nat) (addr : Nat) (l : MediaLine) (s : State) : keepI (programLine ch die bank block addr l s) = keepI s := by
  unfold programLine
  simp only [lineInject_imaged, putLine_imaged]

theorem wearBy_imaged (f : Nat) (n : Nat) (s : State) : keepI (wearBy f n s) = keepI s := by
  unfold wearBy
  simp only [keepI_mk]

theorem setStamp_imaged (blk : Nat) (f : Stamp → Stamp) (s : State) : keepI (setStamp blk f s) = keepI s := by
  unfold setStamp
  simp only [keepI_mk]

theorem dropBlock_imaged (blk : Nat) (s : State) : keepI (dropBlock blk s) = keepI s := by
  unfold dropBlock
  simp only [keepI_mk]

theorem clearFast_imaged (f : Nat) (ch : Nat) (die : Nat) (block : Nat) (s : State) : keepI (clearFast f ch die block s) = keepI s := by
  unfold clearFast
  simp only [keepI_foldl, implies_true, wearBy_imaged, programLine_imaged, setStamp_imaged, dropBlock_imaged]

theorem prepareSet_imaged (f : Nat) (s : State) : keepI (prepareSet f s) = keepI s := by
  unfold prepareSet
  simp only [keepI_foldl, keepI_ite, ite_self, implies_true, clearFast_imaged]

theorem fsSet_imaged (f : Nat) (e : BitVec 64) (s : State) : keepI (fsSet f e s) = keepI s := by
  unfold fsSet
  repeat' first | simp only [keepI_mk, keepI_ite, ite_self, fire_imaged] | split

theorem flagCopy_imaged (set : Nat) (copy : Nat) (s : State) : keepI (flagCopy set copy s) = keepI s := by
  unfold flagCopy
  simp only [keepI_ite, ite_self, fsSet_imaged]

theorem fastStore_imaged (set : Nat) (copy : Nat) (pos : Nat) (l : MediaLine) (s : State) : keepI (fastStore set copy pos l s) = keepI s := by
  unfold fastStore
  simp only [keepI_ite, ite_self, flagCopy_imaged, programLine_imaged]

theorem fastStore2_imaged (set : Nat) (pos : Nat) (l : MediaLine) (s : State) : keepI (fastStore2 set pos l s) = keepI s := by
  unfold fastStore2
  simp only [fastStore_imaged]

theorem segPut_imaged (k : Nat) (i : Nat) (l : MediaLine) (s : State) : keepI (segPut k i l s) = keepI s := by
  unfold segPut
  simp only [fastStore2_imaged]

theorem placeSeg_imaged (k : Nat) (g : Seg) (s : State) : keepI (placeSeg k g s) = keepI s := by
  unfold placeSeg
  simp only [keepI_mk, segPut_imaged]

theorem descPut_imaged (f : Nat) (copy : Nat) (k : Nat) (x3 : Nat) (s : State) : keepI (descPut f copy k x3 s) = keepI s := by
  unfold descPut
  simp only [keepI_ite, ite_self, programLine_imaged]

theorem descWrite_imaged (f : Nat) (s : State) : keepI (descWrite f s) = keepI s := by
  unfold descWrite
  simp only [keepI_mk, wearBy_imaged, descPut_imaged]

theorem descAllocated_imaged (f : Nat) (s : State) : keepI (descAllocated f s) = keepI s := by
  unfold descAllocated
  simp only [keepI_foldl, implies_true, wearBy_imaged, descPut_imaged]

theorem takeSet_imaged (f : Nat) (use : Nat) (owner : Nat) (key : Nat) (s : State) : keepI (takeSet f use owner key s) = keepI s := by
  unfold takeSet
  simp only [keepI_mk, descAllocated_imaged, descWrite_imaged, prepareSet_imaged, fsSet_imaged]

theorem pickSegment_imaged (s : State) (k : Nat) (t : State) (h : pickSegment s = some (k, t)) : keepI t = keepI s := by
  unfold pickSegment at h
  split at h
  · cases h; rfl
  · split at h
    · cases h; exact takeSet_imaged _ _ _ _ _
    · cases h

theorem ckSegmentFresh_imaged (s : State) (k : Nat) (t : State) (h : ckSegment.fresh s = some (k, t)) : keepI t = keepI s := by
  unfold ckSegment.fresh at h
  split at h
  · next hp => cases h; exact (keepI_mk rfl rfl rfl rfl rfl rfl rfl rfl).trans ((placeSeg_imaged _ _ _).trans (pickSegment_imaged _ _ _ hp))
  · cases h

theorem ckSegment_imaged (s : State) (k : Nat) (t : State) (h : ckSegment s = some (k, t)) : keepI t = keepI s := by
  unfold ckSegment at h
  extract_lets full at h
  split at h
  · split at h
    · exact ckSegmentFresh_imaged _ _ _ h
    · cases h; rfl
  · exact ckSegmentFresh_imaged _ _ _ h

theorem writeSegment_imaged (g : Seg) (lines : List Line) (md : BitVec 16) (s : State) : keepI (writeSegment g lines md s).2 = keepI s := by
  unfold writeSegment
  split
  · rfl
  next h => exact (keepI_foldl _ _ _ (fun _ _ => segPut_imaged ..)).trans ((placeSeg_imaged ..).trans (pickSegment_imaged _ _ _ h))

theorem writePi_imaged (ref pc0 : BitVec 48) (delta : Bool) (es : List PiEnt) (s : State) : keepI (writePi ref pc0 delta es s).2 = keepI s :=
  keepI_foldl2 _ _ _ (fun _ _ => writeSegment_imaged ..)

theorem mapWrite_imaged (n : Nat) (now : List Nat) (s : State) : keepI (mapWrite n now s).2 = keepI s := by
  refine keepI_foldl2 _ _ _ (fun p i => ?_)
  dsimp only
  split
  · rfl
  next k t h =>
    refine (keepI_foldl _ _ _ (fun _ _ => segPut_imaged ..)).trans ?_
    have hlisted (v : State) (m : List Nat) : keepI { v with mm := { v.mm with mapSegs := m } } = keepI v := rfl
    exact (hlisted _ _).trans ((placeSeg_imaged ..).trans (pickSegment_imaged _ _ _ h))

/-- The sections that an image's start reads. -/
def keepJ (s : State) := (s.mm.images, s.xlat.pi, s.xlat.piOvf, s.xlat.patchCtr)

theorem keepJ_of_keepI {s u : State} (h : keepI u = keepI s) : keepJ u = keepJ s :=
  congrArg (fun x => (x.2.2.2.2.1, x.2.2.2.2.2.2.1, x.2.2.2.2.2.2.2.1, x.2.2.2.2.2.2.2.2)) h

/-- A record of the checkpoint log leaves the images and the Patch Index alone. -/
theorem ckRecord_keepJ (kind target : Nat) (entry : BitVec 32) (psnap : BitVec 48) (s : State) : keepJ (ckRecord kind target entry psnap s).2 = keepJ s := by
  unfold ckRecord
  extract_lets bad s₁ c r
  have h₁ : keepI s₁ = keepI s := by
    unfold s₁
    rw [keepI_ite, fire_imaged, ite_self]
  clear_value s₁
  cases hseg : ckSegment s₁ with
  | none =>
    have hJ : keepJ s₁ = keepJ s := keepJ_of_keepI h₁
    exact hJ
  | some p =>
    obtain ⟨k, t⟩ := p
    have ht : keepI t = keepI s := (ckSegment_imaged _ _ _ hseg).trans h₁
    refine Eq.trans ?_ (keepJ_of_keepI ht)
    dsimp only
    have hstore (p₀ p₁ q₀ q₁ : Nat) (l m : MediaLine) : keepJ (fastStore p₀ p₁ q₀ l (fastStore p₀ q₁ q₀ m t)) = keepJ t :=
      keepJ_of_keepI ((fastStore_imaged ..).trans (fastStore_imaged ..))
    exact hstore ..

section
variable {s u : State} (h : keepI u = keepI s)
include h

theorem cache_of_keepI : u.cache = s.cache := congrArg (fun x => x.1) h
theorem imageRun_of_keepI : u.mm.imageRun = s.mm.imageRun := congrArg (fun x => x.2.1) h
theorem imageStart_of_keepI : u.mm.imageStart = s.mm.imageStart := congrArg (fun x => x.2.2.1) h
theorem imageRecs_of_keepI : u.mm.imageRecs = s.mm.imageRecs := congrArg (fun x => x.2.2.2.1) h
theorem images_of_keepI : u.mm.images = s.mm.images := congrArg (fun x => x.2.2.2.2.1) h
theorem mapNew_of_keepI : u.mm.mapNew = s.mm.mapNew := congrArg (fun x => x.2.2.2.2.2.1) h
theorem patchCtr_of_keepI : u.xlat.patchCtr = s.xlat.patchCtr := congrArg (fun x => x.2.2.2.2.2.2.2.2) h

end

/-! ### An image starts, a dirty map is written -/

theorem piBaseStart_run {s : State} {im : CkImage} (h : s.mm.imageRun = some im) : let es := (s.xlat.pi.map (fun e => e.2) ++ s.xlat.piOvf).filter PiEnt.valid
    let w := writePi im.c0 s.xlat.patchCtr false es s
    piBaseStart s = { w.2 with
      mm := { w.2.mm with piBase := if w.1.length = max 1 ((es.length + 251) / 252) then some (im.c0, w.2.xlat.patchCtr) else none, piSegs := w.1 }
      xlat := { w.2.xlat with piLog := [], piLost := false } } := by
  unfold piBaseStart
  rw [h]

/-- The base of the Patch Index checkpoint is written for the image that runs, where all its segments found room. -/
theorem piBaseStart_leaves {s : State} {im : CkImage} (h : s.mm.imageRun = some im) : let u := piBaseStart s
    u.mm.imageRun = some im ∧
    u.mm.piBase = (if u.mm.piSegs.length = max 1 ((((s.xlat.pi.map Prod.snd ++ s.xlat.piOvf).filter PiEnt.valid).length + 251) / 252)
      then some (im.c0, s.xlat.patchCtr) else none) ∧
    u.mm.imageStart = s.mm.imageStart ∧ u.mm.imageRecs = s.mm.imageRecs ∧ u.mm.images = s.mm.images ∧ u.xlat.piLog = [] ∧ u.xlat.piLost = false := by
  have hI := writePi_imaged im.c0 s.xlat.patchCtr false ((s.xlat.pi.map (fun e => e.2) ++ s.xlat.piOvf).filter PiEnt.valid) s
  rw [piBaseStart_run h]
  dsimp only
  generalize writePi im.c0 s.xlat.patchCtr false ((s.xlat.pi.map (fun e => e.2) ++ s.xlat.piOvf).filter PiEnt.valid) s = w at hI
  rw [patchCtr_of_keepI hI]
  exact ⟨(imageRun_of_keepI hI).trans h, rfl, imageStart_of_keepI hI, imageRecs_of_keepI hI, images_of_keepI hI, rfl, rfl⟩

/-- What an image's start leaves, with the base of the Patch Index checkpoint where it found room for it (R264, R266). -/
theorem imageStart_leaves (s : State) : let u := piBaseStart (imageStart s)
    (∃ im, u.mm.imageRun = some im ∧
      u.mm.piBase = if u.mm.piSegs.length = max 1 ((((s.xlat.pi.map Prod.snd ++ s.xlat.piOvf).filter PiEnt.valid).length + 251) / 252)
        then some (im.c0, s.xlat.patchCtr) else none) ∧
    u.mm.imageStart = s.time.ftime ∧ u.mm.imageRecs = 0 ∧ u.mm.images = s.mm.images ∧ u.xlat.piLog = [] ∧ u.xlat.piLost = false := by
  obtain ⟨himages, hpi, hovf, hctr⟩ : (imageStart s).mm.images = s.mm.images ∧ (imageStart s).xlat.pi = s.xlat.pi ∧
      (imageStart s).xlat.piOvf = s.xlat.piOvf ∧ (imageStart s).xlat.patchCtr = s.xlat.patchCtr := by
    have hJ := ckRecord_keepJ ckImageStart 0 0 0 s
    unfold keepJ at hJ
    simp only [Prod.mk.injEq] at hJ
    exact hJ
  have htime : (imageStart s).mm.imageStart = s.time.ftime := congrArg TimeSt.ftime (time_of_keepM (ckRecord_keepM ckImageStart 0 0 0 s))
  obtain ⟨hrun, hbase, hstart, hrecs, himgs, hlog, hlost⟩ := piBaseStart_leaves (s := imageStart s) rfl
  rw [hpi, hovf, hctr] at hbase
  exact ⟨⟨_, hrun, hbase⟩, hstart.trans htime, hrecs, himgs.trans himages, hlog, hlost⟩

theorem checkpointImageStart_runs {s : State} (h : s.mm.imageRun = none) : exec .checkpointImageStart s = ran (piBaseStart (imageStart (begin s))) := by
  have hexec : exec .checkpointImageStart s = execCheckpointImageStart s := rfl
  have hnone : ¬ (begin s).mm.imageRun.isSome = true := by
    rw [show (begin s).mm.imageRun = none from h]
    exact Bool.false_ne_true
  exact hexec.trans (congrArg ran (if_neg hnone))

/-- The new generation of the dirty map, once written into segments `w`. -/
def mapTurned (now : List Nat) (w : List Nat × State) : State :=
  { w.2 with mm := { w.2.mm with mapOld := w.2.mm.mapNew, mapNew := now, mapDue := [], mapSegs := w.1 } }

theorem mapTurned_leaves {s : State} {w : List Nat × State} (now : List Nat) (h : keepI w.2 = keepI s) : (mapTurned now w).mm.mapOld = s.mm.mapNew ∧
    (mapTurned now w).mm.mapNew = now ∧ (mapTurned now w).mm.mapDue = [] ∧ (mapTurned now w).cache = s.cache ∧ (mapTurned now w).mm.images = s.mm.images := by
  have hcache : w.2.cache = s.cache := cache_of_keepI h
  have himages : w.2.mm.images = s.mm.images := images_of_keepI h
  exact ⟨mapNew_of_keepI h, rfl, rfl, hcache, himages⟩

theorem dirtyMapGeneration_runs {s : State} (h : s.span.desc = none) : exec .dirtyMapGeneration s =
    ran (mapTurned (dedup ((dirtyLlns (begin s)).map lfnOf)) (mapWrite 521 (dedup ((dirtyLlns (begin s)).map lfnOf)) (begin s))) := by
  have hexec : exec .dirtyMapGeneration s = execDirtyMapGeneration s := rfl
  have hnone : ¬ (begin s).span.desc.isSome = true := by
    rw [show (begin s).span.desc = none from h]
    exact Bool.false_ne_true
  exact hexec.trans (if_neg hnone)

theorem dirtyMapGeneration_ends {s : State} (h : s.span.desc = none) : Ends .dirtyMapGeneration s (fun u => u.mm.mapOld = s.mm.mapNew ∧
    u.mm.mapNew = dedup ((dirtyLlns s).map lfnOf) ∧ u.mm.mapDue = [] ∧ u.cache = s.cache ∧ u.mm.images = s.mm.images) :=
  ⟨_, dirtyMapGeneration_runs h, mapTurned_leaves (s := begin s) _ (mapWrite_imaged ..)⟩

/-! ### An HBM remap copy ends -/

def keepH (s : State) := (s.cache.remap, s.cache.remapCopies, s.cache.fenced)

section
variable {s t u : State}

theorem keepH_mk {x_out x_free x_id x_time x_tt x_unit x_host x_cache x_rstat x_write x_xlat x_mm x_lp x_media x_span x_queue x_wb x_evt x_sb x_power x_therm x_start x_fw x_sec}
    (hremap : x_cache.remap = s.cache.remap) (hcopies : x_cache.remapCopies = s.cache.remapCopies) (hfenced : x_cache.fenced = s.cache.fenced) :
    keepH (State.mk s.pending x_out x_free s.variant x_id x_time x_tt x_unit x_host x_cache x_rstat x_write x_xlat x_mm x_lp x_media x_span x_queue x_wb x_evt x_sb x_power x_therm x_start x_fw x_sec) = keepH s := by
  unfold keepH
  rw [← hremap, ← hcopies, ← hfenced]

theorem keepH_foldl {α : Type} (g : State → α → State) (l : List α) (s : State) (h : ∀ s a, keepH (g s a) = keepH s) : keepH (l.foldl g s) = keepH s := by
  induction l generalizing s with
  | nil => rfl
  | cons a l ih => exact (ih _).trans (h s a)

theorem keepH_ite {c : Prop} [Decidable c] (a b : State) : keepH (if c then a else b) = if c then keepH a else keepH b := apply_ite keepH c a b

theorem keepH_of_cache (h : u.cache = s.cache) : keepH u = keepH s := congrArg (fun x : CacheSt => (x.remap, x.remapCopies, x.fenced)) h

end

theorem event_remapped (e : Ev) (s : State) : keepH (event e s) = keepH s := keepH_of_cache (cache_of_keepE (event_heralds e s).keep)

theorem fire_remapped (p u : Nat) (s : State) : keepH (fire p u s) = keepH s := rfl

theorem hbmWrite_remapped (u : HbmUnit) (s : State) : keepH (hbmWrite u s) = keepH s := by
  unfold hbmWrite
  repeat' first | simp only [keepH_mk, keepH_ite, ite_self, fire_remapped] | split

theorem ceError_remapped (cls : Nat) (ix : Nat) (s : State) : keepH (ceError cls ix s) = keepH s := by
  unfold ceError
  simp only [keepH_mk, keepH_ite, ite_self, event_remapped]

theorem tagTouch_remapped (tag : Nat) (s : State) : keepH (tagTouch tag s) = keepH s := by
  unfold tagTouch
  repeat' first | simp only [keepH_mk, keepH_ite, ite_self, fire_remapped, ceError_remapped] | split

theorem pageTagTouch_remapped (page : Nat) (s : State) : keepH (pageTagTouch page s) = keepH s := by
  unfold pageTagTouch
  simp only [tagTouch_remapped]

theorem pageDrop_remapped (k : Nat) (s : State) : keepH (pageDrop k s) = keepH s := by
  unfold pageDrop
  simp only [keepH_mk, keepH_ite, ite_self, hbmWrite_remapped, pageTagTouch_remapped]

/-- A block's copy corrects what it can; no region, copy or fence changes. -/
theorem copyCorrects_remapped (c : Nat × Nat) (s : State) : keepH (copyCorrects c s) = keepH s :=
  (keepH_foldl _ _ _ (fun _ _ => (hbmWrite_remapped ..).trans (ceError_remapped ..))).trans (keepH_mk rfl rfl rfl)

theorem fenceBlock_remap (c : Nat × Nat) (s : State) : keepH (fenceBlock c s) = (s.cache.remap, s.cache.remapCopies, s.cache.fenced ++ [c]) :=
  keepH_foldl _ _ _ (fun _ _ => pageDrop_remapped ..)

/-- What a block's fence turns on. -/
theorem blockFences_of {s t : State} (hcache : t.cache = s.cache) (hstart : t.start = s.start) (hvariant : t.variant = s.variant) (c : Nat × Nat) :
    blockFences t c = blockFences s c := by
  unfold blockFences copyPlace hbmPlace hbmChannels nQuads
  rw [hcache, hstart, hvariant]

theorem mailDown_cache (n : Nat) (s : State) : (mailDown n s).cache = s.cache := by
  unfold mailDown
  split
  · rfl
  · split <;> rfl

theorem mailDown_remapped (n : Nat) (s : State) : keepH (mailDown n s) = keepH s := keepH_of_cache (mailDown_cache n s)

theorem saveUnit_remapped (s : State) (n : Nat) : keepH (saveUnit s n) = keepH s := keepH_of_cache (cache_of_keepE (saveUnit_heralds n s).keep)

theorem stateEvent_remapped (n : Nat) (old new : UState) (reason : Nat) (repl : Bool) (s : State) : keepH (stateEvent n old new reason repl s) = keepH s :=
  event_remapped ..

theorem setUnit_remapped (n : Nat) (st : UState) (reason : Nat) (repl : Bool) (s : State) : keepH (setUnit n st reason repl s) = keepH s := by
  unfold setUnit
  simp only [stateEvent_remapped, keepH_ite, mailDown_remapped, saveUnit_remapped, keepH_mk, ite_self]

theorem setUnit_st (n : Nat) {st : UState} (h : isDown st = false) (reason : Nat) (repl : Bool) (s : State) :
    (unitRec (setUnit n st reason repl s) n).st = st := by
  unfold unitRec
  rw [setUnit_up_unit n h]
  dsimp only
  rw [sfind_sput_self]

section
variable {s : State} {hch : Fin 64} {c : Nat × Nat}

/-- What the copied block leaves behind: its region where one is free, the event. -/
def remapDone (hch : Fin 64) (c : Nat × Nat) (i : Nat) (s : State) : State :=
  event { code := 0x0902, unit := uHbm (hch.val / 16), p0 := hch.val, p1 := c.2 } (remapTo (16 * hch.val + i) c.2 (copyCorrects c (dropCopy c s)))

/-- The copy that found no free region, recorded. -/
def remapFull (hch : Fin 64) (c : Nat × Nat) (s : State) : State :=
  event { code := 0x0902, unit := uHbm (hch.val / 16), p0 := hch.val, p1 := c.2, repl := true } (dropCopy c s)

/-- Without a region the block is fenced, or its stack is Degraded. -/
def remapFenced (hch : Fin 64) (c : Nat × Nat) (s : State) : State :=
  if blockFences (remapFull hch c s) c then fenceBlock c (remapFull hch c s) else setUnit (uHbm (hch.val / 16)) .degraded 4 true (remapFull hch c s)

/-- The region of the channel that is free first. -/
def freeRegion (hch : Fin 64) (s : State) : Option Nat :=
  (List.range 16).find? (fun i => !(sget ({} : RemapEnt) s.cache.remap (16 * hch.val + i)).valid)

theorem hbmRemapCopyEnd_idle (h : s.cache.remapCopies.find? (fun c => c.1 == hch.val) = none) : exec (.hbmRemapCopyEnd hch) s = ran (begin s) := by
  have hexec : exec (.hbmRemapCopyEnd hch) s = execHbmRemapCopyEnd hch s := rfl
  have hnone : (begin s).cache.remapCopies.find? (fun c => c.1 == hch.val) = none := h
  rw [hexec]
  unfold execHbmRemapCopyEnd
  dsimp only
  rw [hnone]

theorem hbmRemapCopyEnd_placed {i : Nat} (h : s.cache.remapCopies.find? (fun c => c.1 == hch.val) = some c) (hi : freeRegion hch s = some i) :
    exec (.hbmRemapCopyEnd hch) s = ran (mediaNext (hbmRetry (sbEnqueue (remapDone hch c i (begin s))
      (.ring 0x67 (hch.val / 5) (remapPayload (remapDone hch c i (begin s)) (hch.val / 5)))))) := by
  have hexec : exec (.hbmRemapCopyEnd hch) s = execHbmRemapCopyEnd hch s := rfl
  have hsome : (begin s).cache.remapCopies.find? (fun c => c.1 == hch.val) = some c := h
  have hfree : (List.range 16).find? (fun i => !(sget ({} : RemapEnt) (dropCopy c (begin s)).cache.remap (16 * hch.val + i)).valid) = some i := hi
  rw [hexec]
  unfold execHbmRemapCopyEnd
  dsimp only
  rw [hsome]
  dsimp only
  rw [hfree]
  rfl

theorem hbmRemapCopyEnd_full (h : s.cache.remapCopies.find? (fun c => c.1 == hch.val) = some c) (hi : freeRegion hch s = none) :
    exec (.hbmRemapCopyEnd hch) s = ran (mediaNext (hbmRetry (remapFenced hch c (begin s)))) := by
  have hexec : exec (.hbmRemapCopyEnd hch) s = execHbmRemapCopyEnd hch s := rfl
  have hsome : (begin s).cache.remapCopies.find? (fun c => c.1 == hch.val) = some c := h
  have hfree : (List.range 16).find? (fun i => !(sget ({} : RemapEnt) (dropCopy c (begin s)).cache.remap (16 * hch.val + i)).valid) = none := hi
  rw [hexec]
  unfold execHbmRemapCopyEnd
  dsimp only
  rw [hsome]
  dsimp only
  rw [hfree]
  dsimp only
  unfold remapFenced remapFull
  split <;> rfl

theorem remapDone_leaves (hch : Fin 64) (c : Nat × Nat) (i : Nat) (s : State) :
    (sget ({} : RemapEnt) (remapDone hch c i s).cache.remap (16 * hch.val + i)).valid = true ∧
    (sget ({} : RemapEnt) (remapDone hch c i s).cache.remap (16 * hch.val + i)).block = BitVec.ofNat 20 c.2 ∧
    (remapDone hch c i s).cache.remapCopies = s.cache.remapCopies.erase c := by
  have hcache : (remapDone hch c i s).cache = (remapTo (16 * hch.val + i) c.2 (copyCorrects c (dropCopy c s))).cache :=
    cache_of_keepE (event_heralds _ _).keep
  have hcopies : (copyCorrects c (dropCopy c s)).cache.remapCopies = s.cache.remapCopies.erase c :=
    congrArg (fun x => x.2.1) (copyCorrects_remapped c (dropCopy c s))
  rw [hcache]
  unfold remapTo
  dsimp only
  rw [sget_sput_self]
  exact ⟨rfl, rfl, hcopies⟩

theorem remapFull_event (hch : Fin 64) (c : Nat × Nat) (s : State) : ∃ e, remapFull hch c s = event e (dropCopy c s) := ⟨_, rfl⟩

theorem remapFull_leaves (hch : Fin 64) (c : Nat × Nat) (s : State) :
    keepH (remapFull hch c s) = (s.cache.remap, s.cache.remapCopies.erase c, s.cache.fenced) := by
  obtain ⟨e, he⟩ := remapFull_event hch c s
  rw [he]
  exact event_remapped _ _

theorem event_fences (e : Ev) (c : Nat × Nat) (s : State) : blockFences (event e s) c = blockFences s c := by
  have hkeep : keepE (event e s) = keepE s := (event_heralds e s).keep
  exact blockFences_of (cache_of_keepE hkeep) (start_of_keepE hkeep) (congrArg (fun x => x.2.2.1) hkeep) c

theorem remapFull_fences (hch : Fin 64) (c : Nat × Nat) (s : State) : blockFences (remapFull hch c s) c = blockFences (dropCopy c s) c := by
  obtain ⟨e, he⟩ := remapFull_event hch c s
  rw [he]
  exact event_fences ..

section
variable {u : State} {x : SMap RemapEnt × List (Nat × Nat) × List (Nat × Nat)} (h : keepH u = x)
include h

theorem remap_of_keepH : u.cache.remap = x.1 := congrArg (fun x => x.1) h
theorem remapCopies_of_keepH : u.cache.remapCopies = x.2.1 := congrArg (fun x => x.2.1) h
theorem fenced_of_keepH : u.cache.fenced = x.2.2 := congrArg (fun x => x.2.2) h

end

/-- A block without a free region is fenced, or its stack is Degraded; regions and copies stay. -/
theorem fenced_or_degraded (c : Nat × Nat) (n : Nat) (t : State) {u : State}
    (hu : u = if blockFences t c then fenceBlock c t else setUnit n .degraded 4 true t) : u.cache.remap = t.cache.remap ∧
    u.cache.remapCopies = t.cache.remapCopies ∧ if blockFences t c then c ∈ u.cache.fenced else (unitRec u n).st = .degraded := by
  by_cases hb : blockFences t c = true
  · rw [if_pos hb] at hu ⊢
    have hfence : keepH u = (t.cache.remap, t.cache.remapCopies, t.cache.fenced ++ [c]) := (congrArg keepH hu).trans (fenceBlock_remap c t)
    refine ⟨remap_of_keepH hfence, remapCopies_of_keepH hfence, ?_⟩
    rw [fenced_of_keepH hfence]
    exact List.mem_append_right _ (List.mem_singleton_self c)
  · rw [if_neg hb] at hu ⊢
    have hunit : keepH u = keepH t := (congrArg keepH hu).trans (setUnit_remapped ..)
    refine ⟨remap_of_keepH hunit, remapCopies_of_keepH hunit, ?_⟩
    rw [hu]
    exact setUnit_st n rfl ..

theorem remapFenced_leaves (hch : Fin 64) (c : Nat × Nat) (s : State) : (remapFenced hch c s).cache.remap = s.cache.remap ∧
    (remapFenced hch c s).cache.remapCopies = s.cache.remapCopies.erase c ∧
    if blockFences (dropCopy c s) c then c ∈ (remapFenced hch c s).cache.fenced else (unitRec (remapFenced hch c s) (uHbm (hch.val / 16))).st = .degraded := by
  have hfull := remapFull_leaves hch c s
  obtain ⟨hremap, hcopies, hend⟩ := fenced_or_degraded c (uHbm (hch.val / 16)) (remapFull hch c s) (u := remapFenced hch c s) rfl
  rw [remapFull_fences] at hend
  exact ⟨hremap.trans (remap_of_keepH hfull), hcopies.trans (remapCopies_of_keepH hfull), hend⟩

end

/-! ### The stage boundary -/

/-- FTIME at the boundary, its sources taken. -/
def timeReached (s : State) : State := takeSources (lfsrRun ((boundaryTime s).toNat - s.time.ftime.toNat) (advanceFtime (boundaryTime s) s))

/-- The stage the boundary begins, its allotment set. -/
def stageReached (s : State) : State :=
  let t := timeReached s
  setAllotment { t with tt := { t.tt with stage := t.time.ftime.toNat / 250000 } }

/-- What a stage that begins while the device is on does, from stage `old` to stage `n`. -/
def stageWork (old n : Nat) (s : State) : State :=
  let due := fun p => decide (n / p ≠ old / p)
  let s := abandonMissing (setWindows (placeRemovals (activateLead (setMap s))))
  let s := if due 64 then cycleStart s else s
  let s := if due 4 then heartbeats s else s
  let s := if due 240000 then closeHotWindow s else s
  let s := if (n + 32) / 64 ≠ (old + 32) / 64 then sendTimetable s else s
  let s := ageCounts old n s
  let s := if 7 ≤ s.start.phase.toNat then spanWork (backgroundWork s) else s
  let s := rejoinAdvance (replayStep (lowerAdvance (pollWork s)))
  { s with write := { s.write with pacing := s.write.pacing && !budgetRoom s } }

theorem stageBoundary_runs (s : State) : exec .stageBoundary s =
    if !s.start.sillUp then ran (begin s)
    else if (stageReached (begin s)).power.seq ≠ .on then ran (stageReached (begin s))
    else ran (mediaNext (updLoad (stageWork (timeReached (begin s)).tt.stage ((timeReached (begin s)).time.ftime.toNat / 250000) (stageReached (begin s))))) := by
  have hexec : exec .stageBoundary s = execStageBoundary s := rfl
  rw [hexec]
  unfold execStageBoundary stageReached stageWork timeReached
  dsimp only
  rfl

/-- The media, their management, the span and the power are as they were. -/
structure OffTime (s u : State) : Prop where
  media : u.media = s.media
  mm : u.mm = s.mm
  span : u.span = s.span
  power : u.power = s.power

theorem OffTime.trans {s t u : State} (hst : OffTime s t) (htu : OffTime t u) : OffTime s u :=
  ⟨htu.media.trans hst.media, htu.mm.trans hst.mm, htu.span.trans hst.span, htu.power.trans hst.power⟩

theorem offTime_of_keepE {s u : State} (h : keepE u = keepE s) : OffTime s u := ⟨media_of_keepE h, mm_of_keepE h, span_of_keepE h, power_of_keepE h⟩

theorem timed_offTime (s : State) (t : TimeSt) : OffTime s { s with time := t } := ⟨rfl, rfl, rfl, rfl⟩

theorem timeEvent_offTime (s : State) (t : TimeSt) : OffTime s (timeEvent { s with time := t }) :=
  (timed_offTime s t).trans (offTime_of_keepE (timeEvent_keepE _))

theorem loseSource_offTime (src other : TimeSrc) (good : Bool) (s : State) : OffTime s (loseSource src other good s) := by
  unfold loseSource
  split
  · exact ⟨rfl, rfl, rfl, rfl⟩
  · split
    · exact timeEvent_offTime ..
    · exact timeEvent_offTime ..

theorem takeSources_offTime (s : State) : OffTime s (takeSources s) := by
  unfold takeSources
  split
  · exact ⟨rfl, rfl, rfl, rfl⟩
  · extract_lets time t b v
    have ht : OffTime s t := ⟨rfl, rfl, rfl, rfl⟩
    refine ht.trans ?_
    split
    · split
      · exact timed_offTime ..
      · exact timeEvent_offTime ..
    · split
      · exact ⟨rfl, rfl, rfl, rfl⟩
      · split <;> exact loseSource_offTime ..

theorem lfsrRun_offTime (ns : Nat) (s : State) : OffTime s (lfsrRun ns s) := ⟨rfl, rfl, rfl, rfl⟩

theorem advanceFtime_offTime (t : BitVec 64) (s : State) : OffTime s (advanceFtime t s) := ⟨rfl, rfl, rfl, rfl⟩

theorem setAllotment_offTime (s : State) (n : Nat) : OffTime s (setAllotment { s with tt := { s.tt with stage := n } }) := ⟨rfl, rfl, rfl, rfl⟩

theorem timeReached_offTime (s : State) : OffTime s (timeReached s) :=
  (advanceFtime_offTime ..).trans ((lfsrRun_offTime ..).trans (takeSources_offTime _))

theorem timeReached_ftime (s : State) : (timeReached s).time.ftime = boundaryTime s := by
  have hkeep : keepT (timeReached s) = keepT (advanceFtime (boundaryTime s) s) := (takeSources_keepT _).trans (lfsrRun_keepT ..)
  have hadvance : (advanceFtime (boundaryTime s) s).time.ftime = boundaryTime s := BitVec.ofNat_toNat ..
  exact (congrArg (fun x => x.1) hkeep).trans hadvance

theorem stageReached_offTime (s : State) : OffTime s (stageReached s) := (timeReached_offTime s).trans (setAllotment_offTime ..)

theorem stageReached_keepT (s : State) : keepT (stageReached s) = (boundaryTime s, (boundaryTime s).toNat / 250000) := by
  have hset : keepT (stageReached s) = ((timeReached s).time.ftime, (timeReached s).time.ftime.toNat / 250000) := rfl
  rw [hset, timeReached_ftime]

theorem stageReached_keepS (s : State) : keepS (stageReached s) = keepS s :=
  (setAllotment_keepS _).trans ((takeSources_keepS _).trans ((lfsrRun_keepS ..).trans (advanceFtime_keepS ..)))

theorem stageWork_keepT (old n : Nat) (s : State) : keepT (stageWork old n s) = keepT s := by
  unfold stageWork
  simp only [keepT_mk, keepT_ite, rejoinAdvance_keepT, replayStep_keepT, lowerAdvance_keepT, pollWork_keepT, spanWork_keepT, backgroundWork_keepT,
    ageCounts_keepT, sendTimetable_keepT, closeHotWindow_keepT, heartbeats_keepT, cycleStart_keepT, abandonMissing_keepT, setWindows_keepT,
    placeRemovals_keepT, activateLead_keepT, setMap_keepT, ite_self]

section
variable {s : State}

theorem stageBoundary_off (h : s.start.sillUp = true) (hoff : s.power.seq ≠ .on) : exec .stageBoundary s = ran (stageReached (begin s)) := by
  have hpower : (stageReached (begin s)).power.seq = s.power.seq := congrArg PowerSt.seq (stageReached_offTime (begin s)).power
  rw [stageBoundary_runs, h, Bool.not_true, if_neg Bool.false_ne_true, if_pos (hpower ▸ hoff)]

theorem stageBoundary_on (h : s.start.sillUp = true) (hon : s.power.seq = .on) : exec .stageBoundary s = ran (mediaNext (updLoad
    (stageWork (timeReached (begin s)).tt.stage ((timeReached (begin s)).time.ftime.toNat / 250000) (stageReached (begin s))))) := by
  have hpower : (stageReached (begin s)).power.seq = s.power.seq := congrArg PowerSt.seq (stageReached_offTime (begin s)).power
  rw [stageBoundary_runs, h, Bool.not_true, if_neg Bool.false_ne_true, if_neg (not_not.2 (hpower.trans hon))]

theorem stageBoundary_offEnds (h : s.start.sillUp = true) (hoff : s.power.seq ≠ .on) : Ends .stageBoundary s (fun u => u.time.ftime = boundaryTime s ∧
    u.tt.stage = (boundaryTime s).toNat / 250000 ∧ keepS u = keepS s ∧ u.media = s.media ∧ u.mm = s.mm ∧ u.span = s.span) := by
  obtain ⟨hmedia, hmm, hspan, -⟩ := stageReached_offTime (begin s)
  have hT := stageReached_keepT (begin s)
  have hS := (stageReached_keepS (begin s)).trans (begin_keepS s)
  have hran := stageBoundary_off h hoff
  generalize stageReached (begin s) = u at hran hT hS hmedia hmm hspan
  exact ⟨u, hran, congrArg (fun x => x.1) hT, congrArg (fun x => x.2) hT, hS, hmedia, hmm, hspan⟩

theorem stageBoundary_onWorks (h : s.start.sillUp = true) (hon : s.power.seq = .on) : Works .stageBoundary s (fun u => u.time.ftime = boundaryTime s ∧
    u.tt.stage = (boundaryTime s).toNat / 250000) := by
  have hran := stageBoundary_on h hon
  have hT := ((updLoad_keepT _).trans (stageWork_keepT (timeReached (begin s)).tt.stage ((timeReached (begin s)).time.ftime.toNat / 250000)
    (stageReached (begin s)))).trans (stageReached_keepT (begin s))
  generalize updLoad (stageWork (timeReached (begin s)).tt.stage ((timeReached (begin s)).time.ftime.toNat / 250000) (stageReached (begin s))) = u at hran hT
  exact ⟨u, hran, congrArg (fun x => x.1) hT, congrArg (fun x => x.2) hT⟩

theorem stageBoundary_idle (h : s.start.sillUp = false) : exec .stageBoundary s = ran (begin s) := by
  rw [stageBoundary_runs, h]
  rfl

/-! ### Triggers of folds, the restored entries -/

variable {lfn : BitVec 24}

theorem foldAgeTrigger_runs (lfn : BitVec 24) (s : State) : exec (.foldAgeTrigger lfn) s =
    ran (if (fsumOf s lfn.toNat).1 = 0 then begin s else makeDue lfn.toNat 4 (fsumOf s lfn.toNat).2.toNat false (begin s)) := rfl

theorem fastFrameIdleTimeout_runs (lfn : BitVec 24) (s : State) : exec (.fastFrameIdleTimeout lfn) s =
    ran (if ftMode (ftEntry s lfn.toNat) = mFast ∧ !ftPinned (ftEntry s lfn.toNat)
      then makeDue lfn.toNat 7 (sget 0 s.mm.lastWrite lfn.toNat).toNat false (begin s) else begin s) := rfl

theorem frameTableRestoreEnd_idle (h : lfn.toNat ∉ s.xlat.restoring) : exec (.frameTableRestoreEnd lfn) s = ran (begin s) := by
  have hexec : exec (.frameTableRestoreEnd lfn) s = execFrameTableRestoreEnd lfn s := rfl
  have hnot : (begin s).xlat.restoring.contains lfn.toNat = false := Bool.eq_false_iff.2 (fun hc => h (List.contains_iff_mem.1 hc))
  refine hexec.trans (if_pos ?_)
  rw [hnot]
  rfl

theorem frameTableRestoreEnd_works (h : lfn.toNat ∈ s.xlat.restoring) : Works (.frameTableRestoreEnd lfn) s (fun u => ∃ e, u = ftCommit lfn.toNat e { begin s with
    xlat := { s.xlat with psnap := sset 0 s.xlat.psnap lfn.toNat (loggedEntry s lfn.toNat).2 } } ∧ e = (loggedEntry s lfn.toNat).1 ||| 0x10000000) := by
  have hexec : exec (.frameTableRestoreEnd lfn) s = execFrameTableRestoreEnd lfn s := rfl
  have hin : (begin s).xlat.restoring.contains lfn.toNat = true := List.contains_iff_mem.2 h
  refine ⟨_, hexec.trans (if_neg ?_), _, rfl, rfl⟩
  rw [hin]
  exact Bool.false_ne_true

end

/-- Settles O52: each row's effect by the condition that its text names; FTIME and the stage index pass through all the work of a stage. -/
theorem stageAndUpkeepRowsAct : Obligations.StageAndUpkeepRowsAct := by
  unfold Obligations.StageAndUpkeepRowsAct
  intro s lfn hch idle l
  refine ⟨fun h => ⟨_, stageBoundary_idle h, rfl⟩, stageBoundary_offEnds, stageBoundary_onWorks, ⟨_, rfl, rfl⟩, fun h => ⟨_, ?_, rfl⟩, fun h => ⟨_, ?_, rfl⟩,
    fun hm hp => ⟨_, ?_, rfl⟩, fun h => ⟨_, ?_, rfl⟩, fun h => ⟨_, ?_, rfl⟩, fun h => ⟨_, checkpointImageStart_runs h, imageStart_leaves (begin s)⟩,
    fun h => ⟨_, ?_, rfl⟩, dirtyMapGeneration_ends, ⟨_, rfl, rfl⟩, fun h => ⟨_, frameTableRestoreEnd_idle h, rfl⟩, frameTableRestoreEnd_works,
    fun h => ⟨_, hbmRemapCopyEnd_idle h, rfl⟩, fun c hc => ⟨fun i hi => ?_, fun hi => ?_⟩⟩
  · exact (foldAgeTrigger_runs lfn s).trans (congrArg ran (if_pos h))
  · exact (foldAgeTrigger_runs lfn s).trans (congrArg ran (if_neg h))
  · exact (fastFrameIdleTimeout_runs lfn s).trans (congrArg ran (if_pos ⟨hm, by rw [hp]; rfl⟩))
  · refine (fastFrameIdleTimeout_runs lfn s).trans (congrArg ran (if_neg ?_))
    rintro ⟨hm, hp⟩
    rcases h with h | h
    · exact h hm
    · rw [h] at hp
      exact absurd hp Bool.false_ne_true
  · exact (rfl : _ = execCheckpointImageStart s).trans (congrArg ran (if_pos h))
  · exact (rfl : _ = execDirtyMapGeneration s).trans (if_pos h)
  · exact ⟨_, hbmRemapCopyEnd_placed hc hi, remapDone hch c i (begin s), rfl, remapDone_leaves ..⟩
  · exact ⟨_, hbmRemapCopyEnd_full hc hi, remapFenced hch c (begin s), rfl, remapFenced_leaves ..⟩

end Sys2Proof.Machine
end
